-- ==== Sys2Proof/Word.lean ====
section
/-!
DEFINITION. Sys2Proof/Word.lean: the word types of the block and nothing else.
Registers are 32-bit words (R396); memories are read in bytes or in 32-bit words (R180, R396).
-/
namespace Sys2Proof

/-- A register word (R396). -/
abbrev Word := BitVec 32

/-- A byte of a frame, of the flash or of a memory. -/
abbrev Byte := BitVec 8

end Sys2Proof
end

