-- ==== Sys2Proof/Syntax.lean ====
section
/-!
DEFINITION. Sys2Proof/Syntax.lean: the commands of the block. `Instr` has one constructor for each row of
spec/opcode_table.json, with the operands that the row's own rule gives it: what the outside brings (a register value, a
frame, a sensor reading) or the unit the event belongs to (a slot, a port, a core). Nothing here has a meaning yet.
-/
namespace Sys2Proof

/-- One X or Y move field of a bundle (R210, Table 9-10). Codes are kept as numbers, so that a reserved code can be
written and answered as R209 says. -/
inductive MoveField where
  /-- OP 0b00. -/
  | none
  /-- OP 0b01: load into register code `reg`. -/
  | load (reg an mode nsel : Nat)
  /-- OP 0b10: store from register code `reg`. -/
  | store (reg an mode nsel : Nat)
  /-- OP 0b11: register move. -/
  | mov (dst src : Nat)
  deriving DecidableEq, Repr

/-- The AGU field of a bundle (Table 9-11). -/
structure AguField where
  /-- The update code; 0 is none. -/
  aop : Nat
  /-- The address register. -/
  an : Nat
  deriving DecidableEq, Repr

/-- One of the signals that step their gain by R54. -/
inductive GainCh where
  /-- Input trim of a slot (R53). -/
  | input (slot : Nat)
  /-- Output trim of an output channel. -/
  | output (ch : Nat)
  /-- Side-tone path gain (R62). -/
  | side (path : Nat)
  /-- Receive slot gain of a serial port (R317). -/
  | portRx (port slot : Nat)
  /-- Transmit slot gain of a serial port (R317). -/
  | portTx (port slot : Nat)
  /-- Output of RC for a feed after a tail read error (R344). -/
  | rcFeed (feed : Nat)
  deriving DecidableEq, Repr

/-- The fields of a PTP message the rules of chapter 12 name; times are in units of 1/16 ns. -/
structure PtpMsg where
  /-- IEEE 1588 messageType: 0 Sync, 1 Delay_Req, 8 Follow_Up, 9 Delay_Resp, 11 Announce, others not supported. -/
  kind : Nat
  /-- versionPTP. -/
  version : Nat
  /-- domainNumber. -/
  domain : Nat
  /-- majorSdoId in bits 11:8, minorSdoId in bits 7:0. -/
  sdoId : Nat
  /-- sequenceId. -/
  seq : Nat
  /-- twoStepFlag. -/
  twoStep : Bool
  /-- correctionField, in 1/16 ns. -/
  corr : Int
  /-- originTimestamp, preciseOriginTimestamp or receiveTimestamp, in 1/16 ns since the PTP epoch. -/
  time : Int
  /-- Captured receive time at the PCS boundary, in 1/16 ns (R276). -/
  captured : Int
  /-- sourcePortIdentity. -/
  source : Nat
  /-- requestingPortIdentity of a Delay_Resp. -/
  requesting : Nat
  /-- The message belongs to an option that Table 12-1 leaves out: unicast negotiation, security, an alternate timescale. -/
  foreign : Bool
  /-- logMessageInterval, signed. -/
  logInterval : Int
  /-- grandmasterIdentity of an Announce. -/
  gmId : Nat
  /-- priority1 of an Announce. -/
  priority1 : Nat
  /-- clockClass of an Announce. -/
  clockClass : Nat
  /-- clockAccuracy of an Announce. -/
  clockAccuracy : Nat
  /-- offsetScaledLogVariance of an Announce. -/
  variance : Nat
  /-- priority2 of an Announce. -/
  priority2 : Nat
  /-- stepsRemoved of an Announce. -/
  stepsRemoved : Nat
  /-- currentUtcOffset of an Announce. -/
  utcOffset : Int
  deriving DecidableEq, Repr

/-- An RTP packet as RFC 3550 lays it out, its header read (R251). -/
structure RtpPkt where
  /-- Payload type. -/
  pt : Nat
  /-- Sequence number. -/
  seq : Nat
  /-- Timestamp. -/
  ts : Nat
  /-- SSRC. -/
  ssrc : Nat
  /-- Payload bytes, header extension and CSRC left out. -/
  payload : List Byte
  /-- The padding bit (R251). -/
  padding : Bool := false
  /-- The marker bit. -/
  marker : Bool := false
  deriving DecidableEq, Repr

/-- An IP address as the stream registers hold it: version 6 or not, and the number. -/
structure IpAddr where
  /-- IPv6. -/
  v6 : Bool
  /-- The address as a number. -/
  addr : Nat
  deriving DecidableEq, Repr

/-- Protocols of supervisor traffic (order 9 of Table 11-2). -/
inductive SupKind where
  /-- An ARP request. -/
  | arp
  /-- A neighbour solicitation. -/
  | neighbour
  /-- An ICMP or ICMPv6 echo request. -/
  | echo
  /-- IGMP or MLD. -/
  | membership
  deriving DecidableEq, Repr

/-- What a UDP datagram carries, its header read. -/
inductive UdpLoad where
  /-- RTP. -/
  | rtp (pkt : RtpPkt)
  /-- A PTP message. -/
  | ptp (msg : PtpMsg)
  /-- Any other payload. -/
  | bytes (payload : List Byte)
  deriving DecidableEq, Repr

/-- What a frame carries above Ethernet, with the verdicts of the checks of Table 11-2. -/
inductive FrameBody where
  /-- 802.1Qbb priority flow control: the priority enable vector and the eight times in quanta. -/
  | pfc (enable : BitVec 8) (times : List Nat)
  /-- IEEE 802.3 PAUSE, opcode 0x0001. -/
  | pause
  /-- An IPv4 packet whose header checksum is wrong. -/
  | ipBadChecksum
  /-- An IPv4 fragment. -/
  | ipFragment
  /-- A UDP datagram whose checksum is wrong, or zero over IPv6. -/
  | udpBadChecksum
  /-- UDP: source and destination address, destination port, payload. -/
  | udp (src dst : IpAddr) (port : Nat) (load : UdpLoad)
  /-- A supervisor frame: its protocol, the destination MAC address and, but for ARP, the destination IP address. -/
  | supervisor (kind : SupKind) (mac : Nat) (dst : Option IpAddr)
  /-- Anything else. -/
  | other
  deriving DecidableEq, Repr

/-- A received Ethernet frame: the verdict of the FCS, the length from destination address to FCS, the VID if tagged. -/
structure Frame where
  /-- The FCS is right. -/
  fcsOk : Bool
  /-- Bytes from destination address to FCS. -/
  len : Nat
  /-- VLAN identifier of a tagged frame. -/
  vid : Option Nat
  /-- The rest. -/
  body : FrameBody
  deriving DecidableEq, Repr

/-- What is lost (R301, R302). -/
inductive RefLoss where
  /-- The selected reference. -/
  | selected
  /-- The reference that is not selected. -/
  | other
  /-- The lock of one PLL: its phase error leaves the lock range. -/
  | phase (pll : Nat)
  deriving DecidableEq, Repr

/-- A number written in decimal in an S-ADM element: `num / 10 ^ dec`. -/
structure Dec where
  /-- Digits, signed. -/
  num : Int
  /-- Digits after the point. -/
  dec : Nat
  deriving DecidableEq, Repr

/-- The position of an S-ADM block (Table 5-6). -/
inductive SadmPos where
  /-- No position. -/
  | none
  /-- azimuth, elevation, distance (1.0 if absent). -/
  | polar (az el : Dec) (dist : Option Dec)
  /-- cartesian = 1. -/
  | cart (x y z : Dec)
  deriving DecidableEq, Repr

/-- One audioBlockFormat of an S-ADM frame, as the XML gives it (Table 5-6). -/
structure SadmBlock where
  /-- xxxx of AC_0003xxxx. -/
  id : Nat
  /-- rtime in seconds, as a fraction; 0 over 1 if absent. -/
  rtime : Nat × Nat
  /-- Position. -/
  pos : SadmPos
  /-- Linear gain. -/
  gainLin : Option Dec
  /-- Gain in dB (gainUnit dB). -/
  gainDb : Option Dec
  /-- Width. -/
  width : Option Dec
  /-- jumpPosition = 1. -/
  jump : Bool
  deriving DecidableEq, Repr

/-- An S-ADM frame after the XML parse (R96). -/
structure SadmFrame where
  /-- frameFormat type is "full". -/
  full : Bool
  /-- Bytes of XML payload. -/
  bytes : Nat
  /-- RTP sequence number of the first packet. -/
  seq : Nat
  /-- Packets that carried it. -/
  packets : Nat
  /-- audioChannelFormat elements of typeLabel 0003 in order, each with its blocks. -/
  formats : List (List SadmBlock)
  deriving DecidableEq, Repr

/-- What surrounds the payload of a frame copy on the twin link, beside TYPE, the zero byte and LENGTH (R350). -/
structure TwinHead where
  /-- MAGIC. -/
  magic : BitVec 16
  /-- SEQ. -/
  seq : BitVec 16
  /-- CRC. -/
  crc : Word
  deriving DecidableEq, Repr

/-- The payload of an EPOCH frame of the twin link (R351). -/
structure TwinEpoch where
  /-- EPOCH. -/
  epoch : Nat
  /-- STATE bit 0. -/
  senior : Bool
  /-- STATE bit 1. -/
  activeOut : Bool
  /-- STATE bit 2. -/
  peerActiveIn : Bool
  /-- STATE bit 3. -/
  ptp : Bool
  /-- STATE bits 5:4. -/
  pairState : Nat
  /-- IMAGE_ID generation. -/
  imageGen : Word
  /-- IMAGE_ID manifest CRC. -/
  imageCrc : Word
  /-- APPLIED. -/
  applied : Nat
  /-- The 1,536 digests, sparse: channels whose digest is not that of silence. -/
  digests : List (Nat × BitVec 64)
  deriving DecidableEq, Repr

/-- The error a DRAM access meets (R343). -/
inductive DramErr where
  /-- No error. -/
  | none
  /-- A single-bit error, corrected, with its syndrome. -/
  | corrected (syndrome : Nat)
  /-- An uncorrectable read. -/
  | uncorrectable (syndrome : Nat)
  /-- A write rejected through ALERT_N or a command parity failure, retried with success. -/
  | retryOk
  /-- The same, the retry failing. -/
  | retryFail
  deriving DecidableEq, Repr

/-- One segment request at the crossbar (R329). -/
structure XbarReq where
  /-- Master number of Table 15-1. -/
  master : Nat
  /-- Transaction ID. -/
  id : Nat
  /-- A write. -/
  write : Bool
  /-- Physical byte address. -/
  addr : Nat
  /-- Bytes of the access. -/
  len : Nat
  /-- Write data, one byte each. -/
  data : List Byte
  /-- The first segment of its burst. -/
  first : Bool
  /-- The last segment of its burst. -/
  last : Bool
  /-- The request carries the staging attribute (R327). -/
  staging : Bool
  deriving DecidableEq, Repr

/-- The answer to a request (R326, R343). -/
inductive XResp where
  /-- Success. -/
  | ok
  /-- DATA response. -/
  | data
  /-- TARGET response. -/
  | target
  /-- DECODE response. -/
  | decode
  deriving DecidableEq, Repr

/-- What a response at a master belonged to (Table 15-7). -/
inductive XTraffic where
  /-- Render DMA, bulk line of a slot. -/
  | bulk (slot : Nat)
  /-- RC DMA, tail words of a feed. -/
  | tail (feed : Nat)
  /-- RC DMA, capture write. -/
  | capture
  /-- A section read: RC DMA, conditioning DMA or NVM loader. -/
  | sections (type : Nat)
  /-- Staging of the item of a core. -/
  | staging (core : Nat)
  /-- External window access of a core. -/
  | window (core : Nat)
  /-- Supervisor, MACs, twin-link DMA. -/
  | supervisor
  /-- Debug port. -/
  | debug
  deriving DecidableEq, Repr

/-- The path by which a life-cycle register write comes (R432). -/
inductive LcsPath where
  /-- The service SPI. -/
  | spi
  /-- Any other path. -/
  | other
  deriving DecidableEq, Repr

/-- What one regulator answers to a telemetry poll: nothing, or its three words (PMC.TELEMETRY). -/
structure RailReading where
  /-- The regulator answered. -/
  present : Bool
  /-- READ_VOUT in mV. -/
  vout : Nat
  /-- READ_IOUT in 10 mA. -/
  iout : Nat
  /-- STATUS_WORD. -/
  status : BitVec 16
  deriving DecidableEq, Repr

/-- State that a serving twin sends for following (Table 16-3), one record of a STATE frame: the kind of the table, the
byte offset in the kind's record and the data bytes. -/
structure StateFrame where
  /-- Kind of Table 16-3. -/
  kind : Nat
  /-- Byte offset in that kind's record. -/
  offset : Nat
  /-- Data. -/
  data : List Byte
  deriving DecidableEq, Repr

/-- The commands of the block: one constructor for each row of spec/opcode_table.json, in the table's order. -/
inductive Instr where
  /-- REGISTER_WRITE (R33). -/
  | registerWrite (off : Nat) (val : Word)
  /-- EPOCH_START (R30). -/
  | epochStart
  /-- SNAP_HOLD (R42). -/
  | snapHold (v : Bool)
  /-- HOLD_EXPIRED (R42). -/
  | holdExpired
  /-- COMMIT_AT_HI (R36). -/
  | commitAtHi (val : Word)
  /-- COMMIT_NEXT_GO (R37). -/
  | commitNextGo
  /-- COMMIT_CANCEL_GO (R38). -/
  | commitCancelGo
  /-- COMMIT_CUTOFF (R39). -/
  | commitCutoff
  /-- TIMEBASE_LOAD (R31). -/
  | timebaseLoad
  /-- RENDER_PHASE_A (R26). -/
  | renderPhaseA
  /-- RING_FILLED (R137). -/
  | ringFilled (slot : Nat)
  /-- RENDER_REDUCTION (R146). -/
  | renderReduction
  /-- RENDER_PHASE_B (R157). -/
  | renderPhaseB
  /-- RENDER_MARGIN (R26). -/
  | renderMargin
  /-- ZERO_CROSSING (R54). -/
  | zeroCrossing (ch : GainCh) (x : Int)
  /-- ZC_TIMEOUT (R54). -/
  | zcTimeout (ch : GainCh)
  /-- SWEEP_START (R59). -/
  | sweepStart (gen : Nat)
  /-- ENGINE_PERIOD (R64). -/
  | enginePeriod
  /-- SETTLE_CROSSFADE_START (R81). -/
  | settleCrossfadeStart (slot : Nat)
  /-- SETTLE_DONE (R81). -/
  | settleDone (slot : Nat)
  /-- CND_SECTION_CHECKED (R76). -/
  | cndSectionChecked
  /-- SADM_PARSE_DONE (R96). -/
  | sadmParseDone (src : Nat) (frame : SadmFrame)
  /-- MSRC_WINDOW_TIMEOUT (R102). -/
  | msrcWindowTimeout (src : Nat)
  /-- GEO_SECTION_CHECKED (R119). -/
  | geoSectionChecked (type : Nat)
  /-- SHED_HOLD_EXPIRY (R152). -/
  | shedHoldExpiry (slot : Nat)
  /-- RC_PARALLEL_START (R167). -/
  | rcParallelStart
  /-- RC_RELOAD_READY (R168). -/
  | rcReloadReady
  /-- RC_SECTION_CHECKED (R165). -/
  | rcSectionChecked
  /-- CAPTURE_DONE (R176). -/
  | captureDone
  /-- MPY (R185). -/
  | mpy (core form s t a lanes : Nat) (x y : MoveField) (g : AguField)
  /-- MAC (R186). -/
  | macAdd (core form s t a lanes : Nat) (x y : MoveField) (g : AguField)
  /-- MSU (R186). -/
  | msu (core form s t a lanes : Nat) (x y : MoveField) (g : AguField)
  /-- MPYN (R186). -/
  | mpyn (core form s t a lanes : Nat) (x y : MoveField) (g : AguField)
  /-- CLR (R211). -/
  | clr (core a lanes : Nat) (x y : MoveField) (g : AguField)
  /-- RND (R211). -/
  | rndAcc (core a lanes : Nat) (x y : MoveField) (g : AguField)
  /-- LDX (R190). -/
  | ldx (core reg an mode nsel : Nat) (other : MoveField) (g : AguField)
  /-- LDY (R190). -/
  | ldy (core reg an mode nsel : Nat) (other : MoveField) (g : AguField)
  /-- STX (R190). -/
  | stx (core reg an mode nsel : Nat) (other : MoveField) (g : AguField)
  /-- STY (R190). -/
  | sty (core reg an mode nsel : Nat) (other : MoveField) (g : AguField)
  /-- MOV (R187): destination (none in the bundle whose field moves nothing, R210, assumption log entry 207) and source of the move. -/
  | movReg (core : Nat) (yside : Bool) (dst : Option Nat) (src : Nat) (other : MoveField) (g : AguField)
  /-- ADDA (R211). -/
  | adda (core an : Nat) (x y : MoveField)
  /-- SUBA (R211). -/
  | suba (core an : Nat) (x y : MoveField)
  /-- INCA (R211). -/
  | inca (core an : Nat) (x y : MoveField)
  /-- DECA (R211). -/
  | deca (core an : Nat) (x y : MoveField)
  /-- LI (R210). -/
  | li (core file reg : Nat) (imm : Word)
  /-- ADD (R189). -/
  | addWrap (core dst s1 s2 : Nat) (x y : MoveField) (g : AguField)
  /-- SUB (R189). -/
  | subWrap (core dst s1 s2 : Nat) (x y : MoveField) (g : AguField)
  /-- ADDS (R189). -/
  | adds (core dst s1 s2 : Nat) (x y : MoveField) (g : AguField)
  /-- SUBS (R189). -/
  | subs (core dst s1 s2 : Nat) (x y : MoveField) (g : AguField)
  /-- AND (R211). -/
  | andBits (core dst s1 s2 : Nat) (x y : MoveField) (g : AguField)
  /-- OR (R211). -/
  | orBits (core dst s1 s2 : Nat) (x y : MoveField) (g : AguField)
  /-- XOR (R211). -/
  | xorBits (core dst s1 s2 : Nat) (x y : MoveField) (g : AguField)
  /-- CMP (R211). -/
  | cmp (core dst s1 s2 : Nat) (x y : MoveField) (g : AguField)
  /-- MIN (R211). -/
  | minVal (core dst s1 s2 : Nat) (x y : MoveField) (g : AguField)
  /-- MAX (R211). -/
  | maxVal (core dst s1 s2 : Nat) (x y : MoveField) (g : AguField)
  /-- ABS (R189). -/
  | absVal (core dst s1 s2 : Nat) (x y : MoveField) (g : AguField)
  /-- NEG (R189). -/
  | neg (core dst s1 s2 : Nat) (x y : MoveField) (g : AguField)
  /-- ASL (R189). -/
  | asl (core dst s1 s2 : Nat) (x y : MoveField) (g : AguField)
  /-- ASR (R189). -/
  | asr (core dst s1 s2 : Nat) (x y : MoveField) (g : AguField)
  /-- ASRR (R189). -/
  | asrr (core dst s1 s2 : Nat) (x y : MoveField) (g : AguField)
  /-- LSR (R189). -/
  | lsr (core dst s1 s2 : Nat) (x y : MoveField) (g : AguField)
  /-- ASLI (R211). -/
  | asli (core dst s1 cnt : Nat) (x y : MoveField) (g : AguField)
  /-- ASRI (R189). -/
  | asri (core dst s1 cnt : Nat) (x y : MoveField) (g : AguField)
  /-- LSRI (R211). -/
  | lsri (core dst s1 cnt : Nat) (x y : MoveField) (g : AguField)
  /-- NORM (R211). -/
  | norm (core dst s1 s2 : Nat) (x y : MoveField) (g : AguField)
  /-- MOVA (R211). -/
  | mova (core dst s1 s2 : Nat) (x y : MoveField) (g : AguField)
  /-- MOVN (R211). -/
  | movn (core dst s1 s2 : Nat) (x y : MoveField) (g : AguField)
  /-- MOVM (R211). -/
  | movm (core dst s1 s2 : Nat) (x y : MoveField) (g : AguField)
  /-- MOVFA (R211). -/
  | movfa (core dst s1 s2 : Nat) (x y : MoveField) (g : AguField)
  /-- XTRH (R189). -/
  | xtrh (core dst s1 s2 : Nat) (x y : MoveField) (g : AguField)
  /-- XTRL (R189). -/
  | xtrl (core dst s1 s2 : Nat) (x y : MoveField) (g : AguField)
  /-- INSA (R211). -/
  | insa (core dst s1 s2 : Nat) (x y : MoveField) (g : AguField)
  /-- ACCADD (R186). -/
  | accadd (core dst s1 s2 : Nat) (x y : MoveField) (g : AguField)
  /-- ACCSUB (R186). -/
  | accsub (core dst s1 s2 : Nat) (x y : MoveField) (g : AguField)
  /-- ACCSH (R211). -/
  | accsh (core dst s1 s2 : Nat) (x y : MoveField) (g : AguField)
  /-- BRA (R194). -/
  | bra (core addr : Nat) (y : MoveField) (g : AguField)
  /-- BCC (R194). -/
  | bcc (core cond addr : Nat) (y : MoveField) (g : AguField)
  /-- CALL (R209). -/
  | callSub (core addr : Nat) (y : MoveField) (g : AguField)
  /-- RET (R209). -/
  | retSub (core : Nat) (y : MoveField) (g : AguField)
  /-- JMP (R194). -/
  | jmp (core areg : Nat) (y : MoveField) (g : AguField)
  /-- LOOP (R211). -/
  | loopBack (core dreg addr : Nat) (y : MoveField) (g : AguField)
  /-- REP_IMMEDIATE (R197). -/
  | repImmediate (core n : Nat) (y : MoveField) (g : AguField)
  /-- REP_REGISTER (R197). -/
  | repRegister (core dreg : Nat) (y : MoveField) (g : AguField)
  /-- RTE (R207). -/
  | rte (core : Nat) (y : MoveField) (g : AguField)
  /-- END (R202). -/
  | endItem (core : Nat) (y : MoveField) (g : AguField)
  /-- ENQ (R204). -/
  | enq (core areg : Nat) (y : MoveField) (g : AguField)
  /-- ENQ_CREDIT_FREE (R218). -/
  | enqCreditFree (core : Nat)
  /-- EVSIG (R235). -/
  | evsig (core source : Nat) (y : MoveField) (g : AguField)
  /-- SETSCALE (R211). -/
  | setscale (core imm : Nat) (y : MoveField) (g : AguField)
  /-- GETSR (R211). -/
  | getsr (core dreg : Nat) (y : MoveField) (g : AguField)
  /-- PUTSR (R211). -/
  | putsr (core dreg : Nat) (y : MoveField) (g : AguField)
  /-- CYC (R211). -/
  | cyc (core dreg : Nat) (y : MoveField) (g : AguField)
  /-- CID (R211). -/
  | cid (core dreg : Nat) (y : MoveField) (g : AguField)
  /-- PUTWB (R184). -/
  | putwb (core dreg : Nat) (y : MoveField) (g : AguField)
  /-- WAITW (R184). -/
  | waitw (core : Nat) (y : MoveField) (g : AguField)
  /-- WAITW_DONE (R184). -/
  | waitwDone (core : Nat)
  /-- WINDOW_READ_DATA (R184). -/
  | windowReadData (core : Nat) (ok : Bool)
  /-- STAGE_IN_DONE (R200). -/
  | stageInDone (core : Nat)
  /-- ITEM_COMPLETE (R216). -/
  | itemComplete (core : Nat)
  /-- INSERT_RELEASE (R220). -/
  | insertRelease (stage : Nat)
  /-- ITEM_CUTOFF (R222). -/
  | itemCutoff (stage : Nat)
  /-- DISPATCH (R226). -/
  | dispatch
  /-- SUBMIT_GO (R218). -/
  | submitGo
  /-- CANCEL (R231). -/
  | cancel (tag : Word)
  /-- CANCEL_PROD (R231). -/
  | cancelProd (prod : Nat)
  /-- CORE_GATE (R230). -/
  | coreGate (core : Nat)
  /-- CORE_WAKE_DONE (R230). -/
  | coreWakeDone (core : Nat)
  /-- EVENT_RAISE (R235). -/
  | eventRaise (source : Nat)
  /-- PEND_SET (R235). -/
  | pendSet (source : Nat)
  /-- PEND_CLR (R240). -/
  | pendClr (source : Nat)
  /-- MASK_SET (R240). -/
  | maskSet (source : Nat)
  /-- MASK_CLR (R235). -/
  | maskClr (source : Nat)
  /-- EVENT_OFFER (R236). -/
  | eventOffer
  /-- EVENT_HOLDOFF_EXPIRY (R237). -/
  | eventHoldoffExpiry (source : Nat)
  /-- MEDIA_FRAME_RX (R244). -/
  | mediaFrameRx (plane : Nat) (frame : Frame)
  /-- PFC_PAUSE_EXPIRY (R247). -/
  | pfcPauseExpiry (plane prio : Nat)
  /-- SUPERVISOR_FRAME (R246). -/
  | supervisorFrame (plane : Nat)
  /-- TX_PACKET_RELEASE (R265). -/
  | txPacketRelease (plane stream : Nat)
  /-- TX_FRAME_START (R247). -/
  | txFrameStart (plane : Nat)
  /-- TX_STALE (R248). -/
  | txStale (plane stream : Nat)
  /-- SPEED_STEP_START (R249). -/
  | speedStepStart (plane : Nat)
  /-- STEP_EPOCH (R250). -/
  | stepEpoch (plane : Nat)
  /-- LINK_UP (R263). -/
  | linkUp (port : Nat) (speed : Nat)
  /-- LINK_DOWN (R263). -/
  | linkDown (port : Nat)
  /-- STEP_TIMEOUT (R250). -/
  | stepTimeout (plane : Nat)
  /-- NET_SECTION_CHECKED (R255). -/
  | netSectionChecked
  /-- DELAY_REQ_TX (R278). -/
  | delayReqTx (inst : Nat)
  /-- SYNC_TX (R275). -/
  | syncTx (inst : Nat)
  /-- ANNOUNCE_TX (R275). -/
  | announceTx (inst : Nat)
  /-- TX_TIMESTAMP_RETURN (R278). -/
  | txTimestampReturn (inst : Nat) (seq : Nat) (captured : Int)
  /-- SYNC_TIMEOUT (R280). -/
  | syncTimeout (inst : Nat)
  /-- ANNOUNCE_RECEIPT_TIMEOUT (R271). -/
  | announceReceiptTimeout (inst : Nat)
  /-- SERVO_REVERT (R286). -/
  | servoRevert
  /-- SERVO_ACCEPT (R286). -/
  | servoAccept
  /-- SERVO_DEGRADED_LOG (R285). -/
  | servoDegradedLog
  /-- TUNE_SPI_FRAME (R292). -/
  | tuneSpiFrame
  /-- PLL_LOCK_DONE (R294). -/
  | pllLockDone (pll : Nat)
  /-- RELOCK (R295). -/
  | relock (pll : Nat)
  /-- SYNC_IN_EDGE (R297). -/
  | syncInEdge (offsets : List Int)
  /-- REF_LOSS (R302). -/
  | refLoss (loss : RefLoss)
  /-- REF_VALID (R301). -/
  | refValid (alt : Bool)
  /-- PLL_REACQUIRE_DONE (R294). -/
  | pllReacquireDone (pll : Nat)
  /-- HOLDOVER_DECISION (R304). -/
  | holdoverDecision
  /-- REF_REVERT (R305). -/
  | refRevert
  /-- PLL_NO_REACQUIRE (R306). -/
  | pllNoReacquire (pll : Nat)
  /-- SAP_FRAME (R308, R311): `din` gives the port's bit clocks from the start of the frame on, DIN in bits 0 and 1 and FS in bits 2 and 3,
  each at the rising and at the falling edge of BCLK. -/
  | sapFrame (port : Nat) (phase : Int) (din : List Word)
  /-- SAP_NO_CLOCK (R314). -/
  | sapNoClock (port : Nat)
  /-- SAP_REALIGN (R315). -/
  | sapRealign (port : Nat) (phase : Int)
  /-- SAP_PORT_STOPPED (R317). -/
  | sapPortStopped (port : Nat)
  /-- FOLLOW_LOCK (R319). -/
  | followLock
  /-- TIMEBASE_TO_FOLLOW (R320). -/
  | timebaseToFollow
  /-- TIMEBASE_TO_PTP (R321). -/
  | timebaseToPtp
  /-- TIMEBASE_RELOAD (R321). -/
  | timebaseReload
  /-- XBAR_GRANT (R329). -/
  | xbarGrant (req : XbarReq)
  /-- XBAR_RESPONSE (R344). -/
  | xbarResponse (master id : Nat) (resp : XResp) (traffic : XTraffic)
  /-- MASTER_RESET (R333). -/
  | masterReset (master : Nat)
  /-- REMAP (R328). -/
  | remap
  /-- DRAM_REQUEST (R337). -/
  | dramRequest (ch off : Nat) (write rowOpen : Bool) (master : Nat) (err : DramErr)
  /-- DRAM_REFRESH (R338). -/
  | dramRefresh (ch : Nat)
  /-- RETRAINING_PAUSE (R339). -/
  | retrainingPause (ch : Nat) (hot : Bool)
  /-- POWER_DOWN_ENTRY (R340): the channel and its rank. -/
  | powerDownEntry (ch : Nat) (rank : Nat := 0)
  /-- SELF_REFRESH_ENTRY (R341). -/
  | selfRefreshEntry (ch : Nat)
  /-- SELF_REFRESH_EXIT (R341). -/
  | selfRefreshExit (ch : Nat)
  /-- MEM_INIT (R334). -/
  | memInit (ch : Nat) (ok : Bool)
  /-- TWIN_EPOCH_FRAME_RX (R354). -/
  | twinEpochFrameRx (lane : Nat) (head : TwinHead) (frame : TwinEpoch)
  /-- JOIN_REQUEST (R363): the copy of its frame, as `lane` brings it (R350). -/
  | joinRequest (lane : Nat := 0) (head : TwinHead := ⟨0, 0, 0⟩)
  /-- JOIN_REQUEST_TX (R363). -/
  | joinRequestTx
  /-- JOIN_START (R363): its epoch, and the copy of its frame. -/
  | joinStart (k : Nat) (lane : Nat := 0) (head : TwinHead := ⟨0, 0, 0⟩)
  /-- JOIN_STOP (R363): the copy of its frame. -/
  | joinStop (lane : Nat := 0) (head : TwinHead := ⟨0, 0, 0⟩)
  /-- STATE_FRAME_RX (R363): its payload, and the copy of its frame. -/
  | stateFrameRx (frame : StateFrame) (lane : Nat := 0) (head : TwinHead := ⟨0, 0, 0⟩)
  /-- JOIN_TIMEOUT (R364). -/
  | joinTimeout
  /-- PEER_ACTIVE_CHANGE (R358). -/
  | peerActiveChange (level : Bool)
  /-- OUTPUT_CLAIM (R357). -/
  | outputClaim
  /-- CLAIM_CONFIRM (R357). -/
  | claimConfirm
  /-- SENIOR_CONFLICT_RELEASE (R359). -/
  | seniorConflictRelease
  /-- CLAIM_BACKOFF (R359). -/
  | claimBackoff
  /-- WATCHDOG_RELEASE (R361). -/
  | watchdogRelease
  /-- REARM (R361). -/
  | rearm
  /-- HARD_FAULT (R365): the cluster, the cause, and the unit of the cluster that it names. -/
  | hardFault (pool cluster cause : Nat) (unit : Nat := 0)
  /-- MOON_TAKEOVER (R367). -/
  | moonTakeover (pool : Nat) (agreed : Bool)
  /-- MOON_REQ_HI (R369). -/
  | moonReqHi (val : Word)
  /-- PATROL_ADVANCE (R371). -/
  | patrolAdvance (pool : Nat) (mismatch : Bool)
  /-- PORST_RELEASE (R381). -/
  | porstRelease (twinSide : Bool)
  /-- DRAM_WIPE_DONE (R381). -/
  | dramWipeDone
  /-- BOOT_COMPLETE (R381). -/
  | bootComplete
  /-- AUTO_CONFIRM (R386). -/
  | autoConfirm
  /-- CONFIRM_GO (R386). -/
  | confirmGo
  /-- RELOAD_GO (R390). -/
  | reloadGo
  /-- RELOAD_READY (R390). -/
  | reloadReady
  /-- RELOAD_ABANDON (R392). -/
  | reloadAbandon
  /-- RELOAD_REFUSED (R392). -/
  | reloadRefused (type : Nat) (readError : Bool)
  /-- HELLO (R404). -/
  | hello (port srcId : Nat) (datagram : List Byte)
  /-- REQUEST (R406). -/
  | request (port srcId : Nat) (datagram : List Byte)
  /-- READ (R409). -/
  | readCmd (off n : Nat)
  /-- WRITE (R409). -/
  | writeCmd (off : Nat) (words : List Word)
  /-- COMMIT_AT (R410). -/
  | commitAt (epoch : Nat)
  /-- COMMIT_NEXT (R410). -/
  | commitNext
  /-- COMMIT_CANCEL (R410). -/
  | commitCancel
  /-- COMMIT_COMMAND_RESULT (R410). -/
  | commitCommandResult
  /-- ERASE (R411). -/
  | erase (off sectors : Nat)
  /-- UPLOAD (R411). -/
  | upload (off : Nat) (bytes : List Byte)
  /-- BANK_CRC (R411). -/
  | bankCrc (off len : Nat)
  /-- FLASH_OP_DONE (R411). -/
  | flashOpDone (ok : Bool)
  /-- RELOAD (R411). -/
  | reload
  /-- ABANDON (R411). -/
  | abandon
  /-- CONFIRM (R411). -/
  | confirm
  /-- CLOSE (R408). -/
  | close
  /-- FLASH_ERASE (R412). -/
  | flashErase (off sectors : Nat)
  /-- FLASH_WRITE (R412). -/
  | flashWrite (off : Nat) (bytes : List Byte)
  /-- FLASH_CRC (R412). -/
  | flashCrc (off len : Nat)
  /-- SESSION_IDLE_TIMEOUT (R405). -/
  | sessionIdleTimeout (session : Nat)
  /-- REG_READ (R415): `cut` says that the frame ended after so many bytes of its offset field (R414). -/
  | regRead (off n : Nat) (cut : Option Nat := none)
  /-- REG_WRITE (R415): `cut` says that the frame ended after so many bytes of its offset field (R414). -/
  | regWrite (off : Nat) (bytes : List Byte) (cut : Option Nat := none)
  /-- MBOX_PUT (R415): `cut` says that the frame ended after so many bytes of its LENGTH field (R414). -/
  | mboxPut (len : Nat) (body : List Byte) (cut : Option Nat := none)
  /-- MBOX_GET (R415). -/
  | mboxGet (n : Nat)
  /-- BOOT (R415): a frame of an opcode alone; another one than 0x20 is a reserved opcode (R414). -/
  | boot (opcode : Nat := 0x20)
  /-- PERF_FREEZE (R419). -/
  | perfFreeze
  /-- PERF_RELEASE (R419). -/
  | perfRelease
  /-- PERF_CLEAR (R419). -/
  | perfClear
  /-- ERROR_RAISE (R425). -/
  | errorRaise (source code : Nat) (arg0 arg1 : Word)
  /-- ERROR_COLLECT (R425). -/
  | errorCollect
  /-- MIRROR_WRITE (R428). -/
  | mirrorWrite (ok : Bool)
  /-- LCS_REQUEST (R433). -/
  | lcsRequest (path : LcsPath) (val : Word) (fuseOk : Bool)
  /-- FUSE_PROGRAM (R434). -/
  | fuseProgram (path : LcsPath) (slot : Nat) (fuseOk : Bool)
  /-- FUSE_REVOKE (R434). -/
  | fuseRevoke (path : LcsPath) (slot : Nat) (fuseOk : Bool)
  /-- JTAG_INSTRUCTION (R436). -/
  | jtagInstruction (code : Nat) (boundary secondPassed : Bool)
  /-- STANDBY_RESET_RELEASE (R438). -/
  | standbyResetRelease (pwrExt testMode : Bool)
  /-- STANDBY_RESET_ASSERT (R441). -/
  | standbyResetAssert
  /-- RAIL_IN_WINDOW (R439). -/
  | railInWindow (rail : Nat) (v33 : Bool)
  /-- RAIL_QUALIFIED (R439). -/
  | railQualified (rail : Nat)
  /-- RAIL_SEQUENCE_TIMEOUT (R439). -/
  | railSequenceTimeout (rail : Nat) (noAnswer : Bool)
  /-- RAIL_FAULT (R442). -/
  | railFault (rail : Nat) (overVolts : Bool)
  /-- PMB_ALERT (R442). -/
  | pmbAlert (status : List RailReading)
  /-- TELEMETRY_POLL (R442). -/
  | telemetryPoll (readings : List RailReading)
  /-- THERMAL_SAMPLE (R453). -/
  | thermalSample (tj : List Int)
  /-- THERMAL_ALARM_CLEAR (R453). -/
  | thermalAlarmClear
  /-- PORST_FALL (R444). -/
  | porstFall
  /-- LINK_FLIT_REPLAY (R17). -/
  | linkFlitReplay (link : Nat) (ok : Bool)
  /-- TWIN_FRAME_CRC_ERROR (R350). -/
  | twinFrameCrcError (lane : Nat)
  /-- MGT_FRAME_RX (R267). -/
  | mgtFrameRx (frame : Frame)
  /-- OSC_TUNE_PWM_PERIOD (R291). -/
  | oscTunePwmPeriod
  /-- PWR_EXT_POWER_GOOD (R440). -/
  | pwrExtPowerGood
  /-- TEST_MODE_CHANGE (R446). -/
  | testModeChange (level : Bool)
  deriving DecidableEq, Repr

end Sys2Proof
end

