-- ==== Sys2Proof/Decode.lean ====
section
/-!
DEFINITION. Sys2Proof/Decode.lean: the command that a word of the table's bits spells. spec/opcode_table.json gives no row of
this block any bits, so no word spells a command.
-/
namespace Sys2Proof

/-- The command that an `nbits`-bit word spells. -/
def decodeTableWord (_nbits _w : Nat) : Option Instr := none

end Sys2Proof
end

