-- ==== Sys2Proof/Config.lean ====
section
/-!
DEFINITION. Sys2Proof/Config.lean: the free values of the model. Each is a constant without a body, so that nothing can be
proved of its value: a value that the spec leaves open and after which the device goes on. The assumption log names each.
-/
namespace Sys2Proof.Config

/-- The 64-bit number fused at manufacture, different on every device (SYS.UID). -/
opaque uid : BitVec 64

/-- What an S-ADM value that the manual leaves unstated becomes: kind (0 a coordinate outside 24 bits, 1 the gain of a negative
linear value, 2 a negative width), and the value scaled by 2^32, rounded down (assumption log entry 7). -/
opaque sadmOpen : Nat → Int → BitVec 24

/-- The cause word of a refused section whose chapter lists no cause codes: section type and payload (assumption log entry 8). -/
opaque refuseCause : Nat → List (BitVec 8) → BitVec 32

/-- The check bits of a ring word: the SEC-DED code is the chip's (assumption log entry 248). -/
opaque ringCheck : BitVec 24 → BitVec 6

/-- RND cycles for which the last lane waits for rings in a block (assumption log entry 9). -/
opaque fillWait : Nat → Nat

/-- The parity bits that a hard fault of a crosspoint cluster turns over in the entry at a place of the pool (R368), by epoch and place
(assumption log entry 129). -/
opaque struck : Nat → Nat → BitVec 8

/-- Distance at which a reader sees a write for a pair of writer and reader that Table 9-5 does not list, less 1, modulo 3
(assumption log entry 13). -/
opaque hazard : Nat → Nat → Nat

/-- ACCSH by a count outside -32 to +8: the accumulator's code and the count register (assumption log entry 14). -/
opaque accsh : BitVec 56 → BitVec 32 → BitVec 56

/-- A count of cycles within an epoch, which this model does not time: what is counted, and which occasion (assumption log
entry 15). -/
opaque cycles : Nat → Nat → BitVec 32

/-- The filter of the path delay over its last exchanges (assumption log entry 18). -/
opaque ptpDelay : List Int → Int

/-- The filter of the offset: the filtered value before and the new measurement (assumption log entry 18). -/
opaque ptpOffset : Int → Int → Int

/-- Natural frequency of a loop of bandwidth 0.01 Hz and damping 1, in 2^-32 rad/s, less 1: of the servo, or of the follow loop
(assumption log entry 19). -/
opaque loopRatio : Bool → Nat

/-- VCO band that a lock finds: PLL and number of the lock (assumption log entry 20). -/
opaque vcoBand : Nat → Nat → BitVec 5

/-- CL, TRCD and TRP of a channel at a data rate (assumption log entry 21). -/
opaque memTiming : Nat → Nat → BitVec 24

/-- Latency of the n-th request that a channel serves, in ns, within the bound of R342 (assumption log entry 21). -/
opaque memLatency : Nat → Nat → Nat

/-- Cycles of the n-th retraining pause of a channel, within 2.0 us (assumption log entry 21). -/
opaque pauseCycles : Nat → Nat → Nat

/-- Epochs between the answer to the n-th JOIN_REQUEST and the epoch K that it names, less 1 (assumption log entry 22). -/
opaque joinLead : Nat → Nat

/-- Where in system SRAM the boot ROM loads the firmware (R377, assumption log entry 146). -/
opaque firmwareAt : BitVec 32

/-- What the boot ROM copies into system SRAM as its handoff, by offset (R328, assumption log entry 146). -/
opaque handoff : List (Nat × BitVec 8)

/-- Where in the supervisor reserved region of MEM1 the mirror of insert-group state stands (assumption log entry 23). -/
opaque mirrorAt : Nat

/-- Where in the supervisor reserved region of MEM1 the sections of a reload are staged (assumption log entry 146). -/
opaque stagedAt : Nat

/-- The self-test signature of a crosspoint cluster's lanes in a checkpoint: cluster and epoch (assumption log entry 212). -/
opaque laneSign : Nat → Nat → BitVec 32

/-- A byte of the flash after an erase or program that failed: number of the operation, flash offset (assumption log entry 25). -/
opaque flashFailed : Nat → Nat → BitVec 8

/-- The n-th number of the random number generator (assumption log entry 26). -/
opaque random : Nat → BitVec 128

/-- The n-th fuse operation that a register write of the service SPI causes reads back right (assumption log entry 27). -/
opaque fuseGood : Nat → Bool

/-- Training after a write of MEMx.CTRL.INIT succeeds: channel and which occasion (assumption log entry 27). -/
opaque trained : Nat → Nat → Bool

/-- The digital steering offset that keeps a held frequency across the n-th change of reference, parts per 10^12 (assumption log
entry 20). -/
opaque steerOffset : Nat → BitVec 32

/-- The Q8.8 word of a temperature that Q8.8 does not hold, by its reading in 1/256 °C (assumption log entry 32). -/
opaque thermOpen : Int → BitVec 16

/-- A sample of the tail output of a feed in a block whose tail chunk was formed with zeros for some of its words: feed, block,
sample, Q4.28 (assumption log entry 34). -/
opaque tailLost : Nat → Nat → Nat → BitVec 32

/-- A byte of the boot ROM, whose contents the manual does not give (assumption log entry 35). -/
opaque romByte : Nat → BitVec 8

/-- A byte of the RC region of MEM0 as another master reads it in an epoch: the layout there is not given (assumption log entry
36). -/
opaque rcRegionByte : Nat → Nat → BitVec 8

/-- A byte of the supervisor reserved region of MEM1 that no crossbar write has set, as it reads in an epoch: what firmware keeps
there is not given (assumption log entry 146). -/
opaque firmwareByte : Nat → Nat → BitVec 8

/-- The sample word of a crossfade whose rounded sum lies outside the word: bits of the word, sum (assumption log entry 194). -/
opaque fadeOver : Nat → Int → BitVec 32

end Sys2Proof.Config
end

