-- ==== Sys2Proof/Machine/Map.lean ====
section
/-!
DEFINITION. Sys2Proof/Machine/Map.lean: sparse data. A map from numbers is a list of pairs with strictly rising keys and
no entry equal to what an unlisted key reads as, so that equal maps are equal lists. The default is given by a function of
the key.
-/
namespace Sys2Proof.Machine

/-- What key `k` reads as: its entry, or the default. -/
def mapGet {α : Type} (d : Nat → α) (m : List (Nat × α)) (k : Nat) : α :=
  match m with
  | [] => d k
  | (k', v) :: t => if k' = k then v else mapGet d t k

/-- Every entry but that of `k`. -/
def mapDel {α : Type} (m : List (Nat × α)) (k : Nat) : List (Nat × α) :=
  match m with
  | [] => []
  | (k', v) :: t => if k' = k then mapDel t k else (k', v) :: mapDel t k

/-- An entry put in before the first larger key. -/
def mapIns {α : Type} (m : List (Nat × α)) (k : Nat) (v : α) : List (Nat × α) :=
  match m with
  | [] => [(k, v)]
  | (k', v') :: t => if k < k' then (k, v) :: (k', v') :: t else (k', v') :: mapIns t k v

/-- Sets key `k`; setting it to its default removes its entry. -/
def mapSet {α : Type} [DecidableEq α] (d : Nat → α) (m : List (Nat × α)) (k : Nat) (v : α) : List (Nat × α) :=
  if v = d k then mapDel m k else mapIns (mapDel m k) k v

/-- Applies `f` to what key `k` reads as. -/
def mapUpd {α : Type} [DecidableEq α] (d : Nat → α) (m : List (Nat × α)) (k : Nat) (f : α → α) : List (Nat × α) :=
  mapSet d m k (f (mapGet d m k))

/-- The canonical form: keys strictly rising and no entry equal to its default. -/
def mapWf {α : Type} [DecidableEq α] (d : Nat → α) (m : List (Nat × α)) : Bool :=
  match m with
  | [] => true
  | (k, v) :: t => decide (v ≠ d k) && (match t with | [] => true | (k', _) :: _ => decide (k < k')) && mapWf d t

/-- Keys strictly rise: the canonical form where an unlisted key has no value of its own. -/
abbrev keysRise {α : Type} (m : List (Nat × α)) : Prop := m.Pairwise fun a b => a.1 < b.1

/-- Sets a run of keys from `k` upward. -/
def mapSetRun {α : Type} [DecidableEq α] (d : Nat → α) (m : List (Nat × α)) (k : Nat) (vs : List α) : List (Nat × α) :=
  match vs with
  | [] => m
  | v :: t => mapSetRun d (mapSet d m k v) (k + 1) t

/-- The values of `n` keys from `k` upward. -/
def mapGetRun {α : Type} (d : Nat → α) (m : List (Nat × α)) (k n : Nat) : List α :=
  match n with
  | 0 => []
  | n + 1 => mapGet d m k :: mapGetRun d m (k + 1) n

/-- Adds `k` to a set kept in rising order. -/
def setIns (s : List Nat) (k : Nat) : List Nat :=
  match s with
  | [] => [k]
  | h :: t => if k < h then k :: h :: t else if k = h then h :: t else h :: setIns t k

/-- Takes `k` out of a set. -/
def setDel (s : List Nat) (k : Nat) : List Nat :=
  match s with
  | [] => []
  | h :: t => if h = k then setDel t k else h :: setDel t k

end Sys2Proof.Machine
end

