-- ==== Sys2Proof/Machine/RegMap.lean ====
section
/-!
DEFINITION. Sys2Proof/Machine/RegMap.lean: the register map of every block, row for row from the register tables of
spec/02 to spec/20 (R5, R10, R394): the fields of each register with their access codes, reset values and codes that are
not reserved, and the register-space offset of each register as a named function.
-/
namespace Sys2Proof.Machine

/-- Access codes of Table 0-4 (R5). -/
inductive Access where
  | ro
  | rws
  | rwl
  | rwb
  | w1s
  | w1c
  | wo
  deriving DecidableEq, Repr

/-- Codes of a field that are not reserved (R10). -/
inductive Codes where
  /-- Every code. -/
  | all
  /-- Codes from lo to hi. -/
  | range (lo hi : Nat)
  /-- The codes listed. -/
  | oneOf (l : List Nat)
  deriving DecidableEq, Repr

/-- A field of a register: its bits, its access code, its reset value and its codes. -/
structure FieldDesc where
  /-- Highest bit. -/
  hi : Nat
  /-- Lowest bit. -/
  lo : Nat
  /-- Access code. -/
  acc : Access
  /-- Reset value. -/
  reset : Nat
  /-- Codes that are not reserved. -/
  codes : Codes := .all
  deriving DecidableEq, Repr

/-- Where a register's reset value comes from. -/
inductive ResetFrom where
  /-- The fields' Reset column. -/
  | fields
  /-- The fields' Reset column plus the register's index (SAP.PORT_CFG p: CLK_SRC resets to p). -/
  | index
  /-- The interpolator table of R139. -/
  | interp
  /-- The pink scale of R173. -/
  | pink
  /-- The fused identity number, low word. -/
  | uidLo
  /-- The fused identity number, high word. -/
  | uidHi
  deriving DecidableEq, Repr

/-- A register, or an array of registers: its offset in the block window, the count and stride of each index (largest
stride first) and its fields. -/
structure RegDesc where
  /-- Offset of the first one in the block window. -/
  base : Nat
  /-- Count and stride of each index. -/
  dims : List (Nat × Nat)
  /-- Fields. -/
  fields : List FieldDesc
  /-- Where the reset value comes from. -/
  rst : ResetFrom := .fields
  deriving DecidableEq, Repr

/-- Registers of SYS, part 0 (18_management_and_registers.md). -/
def regsSys0 : List RegDesc := [
  -- SYS.DEVICE_ID
  ⟨0x0, [],
    [⟨31, 0, .ro, 0x51534e31, .all⟩], .fields⟩,
  -- SYS.REVISION
  ⟨0x4, [],
    [⟨7, 4, .ro, 0xb, .all⟩,
     ⟨3, 0, .ro, 0, .all⟩], .fields⟩,
  -- SYS.UID_LO
  ⟨0x8, [],
    [⟨31, 0, .ro, 0, .all⟩], .uidLo⟩,
  -- SYS.UID_HI
  ⟨0xc, [],
    [⟨31, 0, .ro, 0, .all⟩], .uidHi⟩,
  -- SYS.RATE
  ⟨0x10, [],
    [⟨0, 0, .ro, 0, .all⟩], .fields⟩,
  -- SYS.CAPS[0]
  ⟨0x100, [],
    [⟨31, 16, .ro, 0x400, .all⟩,
     ⟨15, 0, .ro, 0x200, .all⟩], .fields⟩,
  -- SYS.CAPS[1]
  ⟨0x104, [],
    [⟨31, 16, .ro, 0x200, .all⟩,
     ⟨15, 8, .ro, 0x40, .all⟩,
     ⟨7, 0, .ro, 7, .all⟩], .fields⟩,
  -- SYS.CAPS[2]
  ⟨0x108, [],
    [⟨17, 0, .ro, 0x20000, .all⟩], .fields⟩,
  -- SYS.CAPS[3]
  ⟨0x10c, [],
    [⟨17, 0, .ro, 0x10000, .all⟩], .fields⟩,
  -- SYS.CAPS[4]
  ⟨0x110, [],
    [⟨31, 28, .ro, 5, .all⟩,
     ⟨27, 24, .ro, 9, .all⟩,
     ⟨23, 20, .ro, 4, .all⟩,
     ⟨19, 16, .ro, 4, .all⟩,
     ⟨15, 0, .ro, 0x1000, .all⟩], .fields⟩,
  -- SYS.CAPS[5]
  ⟨0x114, [],
    [⟨31, 20, .ro, 0x400, .all⟩,
     ⟨19, 10, .ro, 0x100, .all⟩,
     ⟨9, 0, .ro, 0x80, .all⟩], .fields⟩,
  -- SYS.CAPS[6]
  ⟨0x118, [],
    [⟨31, 20, .ro, 0x800, .all⟩,
     ⟨19, 8, .ro, 0x400, .all⟩,
     ⟨7, 0, .ro, 0x20, .all⟩], .fields⟩]

/-- Registers of SYS, part 1 (18_management_and_registers.md). -/
def regsSys1 : List RegDesc := [
  -- SYS.CAPS[7]
  ⟨0x11c, [],
    [⟨31, 16, .ro, 0x4000, .all⟩,
     ⟨15, 8, .ro, 0x20, .all⟩,
     ⟨7, 0, .ro, 0x51, .all⟩], .fields⟩]

/-- Registers of SYS. -/
def regsSys : List RegDesc :=
  regsSys0 ++ regsSys1

/-- Registers of EPC, part 0 (02_epochs_and_coherent_state.md). -/
def regsEpc0 : List RegDesc := [
  -- EPC.CTRL
  ⟨0x0, [],
    [⟨0, 0, .rwl, 0, .all⟩], .fields⟩,
  -- EPC.STATUS
  ⟨0x4, [],
    [⟨7, 7, .w1c, 0, .all⟩,
     ⟨6, 6, .ro, 0, .all⟩,
     ⟨5, 4, .ro, 0, .all⟩,
     ⟨3, 2, .ro, 0, .all⟩], .fields⟩,
  -- EPC.SNAP_EPOCH
  ⟨0x10, [],
    [⟨31, 0, .ro, 0, .all⟩], .fields⟩,
  -- EPC.SNAP_EPOCH_HI
  ⟨0x14, [],
    [⟨15, 0, .ro, 0, .all⟩], .fields⟩,
  -- EPC.COMMIT_AT_LO
  ⟨0x20, [],
    [⟨31, 0, .rwl, 0, .all⟩], .fields⟩,
  -- EPC.COMMIT_AT_HI
  ⟨0x24, [],
    [⟨15, 0, .wo, 0, .all⟩], .fields⟩,
  -- EPC.COMMIT_NEXT
  ⟨0x28, [],
    [⟨0, 0, .wo, 0, .all⟩], .fields⟩,
  -- EPC.COMMIT_CANCEL
  ⟨0x2c, [],
    [⟨0, 0, .wo, 0, .all⟩], .fields⟩,
  -- EPC.COMMIT_TARGET_LO
  ⟨0x30, [],
    [⟨31, 0, .ro, 0, .all⟩], .fields⟩,
  -- EPC.COMMIT_TARGET_HI
  ⟨0x34, [],
    [⟨15, 0, .ro, 0, .all⟩], .fields⟩,
  -- EPC.COMMIT_STATUS
  ⟨0x38, [],
    [⟨31, 16, .ro, 0, .all⟩,
     ⟨2, 0, .ro, 0, .all⟩], .fields⟩,
  -- EPC.COMMIT_COUNT
  ⟨0x3c, [],
    [⟨31, 0, .ro, 0, .all⟩], .fields⟩]

/-- Registers of EPC, part 1 (02_epochs_and_coherent_state.md). -/
def regsEpc1 : List RegDesc := [
  -- EPC.APPLIED_EPOCH_LO
  ⟨0x40, [],
    [⟨31, 0, .ro, 0, .all⟩], .fields⟩,
  -- EPC.APPLIED_EPOCH_HI
  ⟨0x44, [],
    [⟨15, 0, .ro, 0, .all⟩], .fields⟩,
  -- EPC.STATIC_REJECT_COUNT
  ⟨0x48, [],
    [⟨31, 0, .ro, 0, .all⟩], .fields⟩,
  -- EPC.STATIC_REJECT_ADDR
  ⟨0x4c, [],
    [⟨27, 0, .ro, 0, .all⟩], .fields⟩]

/-- Registers of EPC. -/
def regsEpc : List RegDesc :=
  regsEpc0 ++ regsEpc1

/-- Registers of CLK, part 0 (13_clocks_and_synthesis.md). -/
def regsClk0 : List RegDesc := [
  -- CLK.STATUS
  ⟨0x4, [],
    [⟨7, 7, .w1c, 0, .all⟩,
     ⟨6, 6, .w1c, 0, .all⟩,
     ⟨5, 5, .ro, 0, .all⟩,
     ⟨4, 4, .ro, 0, .all⟩,
     ⟨3, 3, .ro, 0, .all⟩,
     ⟨1, 1, .ro, 0, .all⟩,
     ⟨0, 0, .ro, 0, .all⟩], .fields⟩,
  -- CLK.REFSEL
  ⟨0x8, [],
    [⟨1, 1, .rws, 1, .all⟩,
     ⟨0, 0, .rws, 0, .all⟩], .fields⟩,
  -- CLK.TUNE_CFG
  ⟨0x10, [],
    [⟨20, 16, .rws, 0, .all⟩,
     ⟨12, 8, .rwb, 0x10, (.range 12 20)⟩,
     ⟨3, 3, .rws, 0, .all⟩,
     ⟨2, 2, .rwb, 0, .all⟩,
     ⟨1, 1, .rwb, 0, .all⟩,
     ⟨0, 0, .rws, 0, .all⟩], .fields⟩,
  -- CLK.TUNE_PULL
  ⟨0x14, [],
    [⟨19, 16, .rwb, 3, .all⟩,
     ⟨9, 0, .rwb, 0x64, (.range 10 1000)⟩], .fields⟩,
  -- CLK.TUNE_CODE
  ⟨0x18, [],
    [⟨19, 0, .ro, 0x8000, .all⟩], .fields⟩,
  -- CLK.SYNC
  ⟨0x1c, [],
    [⟨31, 16, .ro, 0, .all⟩,
     ⟨15, 1, .ro, 0, .all⟩,
     ⟨0, 0, .rws, 0, .all⟩], .fields⟩,
  -- CLK.FAILOVER_COUNT
  ⟨0x20, [],
    [⟨31, 0, .ro, 0, .all⟩], .fields⟩,
  -- CLK.PLL_CTRL[0]
  ⟨0x100, [],
    [⟨2, 2, .wo, 0, .all⟩,
     ⟨1, 1, .ro, 0, .all⟩,
     ⟨0, 0, .ro, 1, .all⟩], .fields⟩,
  -- CLK.PLL_CTRL[1]
  ⟨0x120, [],
    [⟨2, 2, .wo, 0, .all⟩,
     ⟨1, 1, .rwb, 0, .all⟩,
     ⟨0, 0, .ro, 1, .all⟩], .fields⟩,
  -- CLK.PLL_CTRL[2]
  ⟨0x140, [],
    [⟨2, 2, .wo, 0, .all⟩,
     ⟨1, 1, .rwb, 0, .all⟩,
     ⟨0, 0, .rws, 0, .all⟩], .fields⟩,
  -- CLK.PLL_CTRL[3]
  ⟨0x160, [],
    [⟨2, 2, .wo, 0, .all⟩,
     ⟨1, 1, .rwb, 0, .all⟩,
     ⟨0, 0, .rws, 0, .all⟩], .fields⟩,
  -- CLK.PLL_CTRL[4]
  ⟨0x180, [],
    [⟨2, 2, .wo, 0, .all⟩,
     ⟨1, 1, .rwb, 0, .all⟩,
     ⟨0, 0, .rws, 0, .all⟩], .fields⟩]

/-- Registers of CLK, part 1 (13_clocks_and_synthesis.md). -/
def regsClk1 : List RegDesc := [
  -- CLK.PLL_CTRL[5]
  ⟨0x1a0, [],
    [⟨2, 2, .wo, 0, .all⟩,
     ⟨1, 1, .rwb, 0, .all⟩,
     ⟨0, 0, .rws, 0, .all⟩], .fields⟩,
  -- CLK.PLL_RATIO[0]
  ⟨0x104, [],
    [⟨31, 0, .ro, 0x186a0000, .all⟩], .fields⟩,
  -- CLK.PLL_RATIO[1]
  ⟨0x124, [],
    [⟨31, 0, .ro, 0x19000000, .all⟩], .fields⟩,
  -- CLK.PLL_RATIO[2]
  ⟨0x144, [],
    [⟨31, 0, .rwb, 0x208d5555, (.oneOf [0x186a0000, 0x1c7baaab, 0x208d5555])⟩], .fields⟩,
  -- CLK.PLL_RATIO[3]
  ⟨0x164, [],
    [⟨31, 0, .rwb, 0x208d5555, (.oneOf [0x186a0000, 0x1c7baaab, 0x208d5555])⟩], .fields⟩,
  -- CLK.PLL_RATIO[4]
  ⟨0x184, [],
    [⟨31, 0, .ro, 0x83215600, .all⟩], .fields⟩,
  -- CLK.PLL_RATIO[5]
  ⟨0x1a4, [],
    [⟨31, 0, .ro, 0x32dcd555, .all⟩], .fields⟩,
  -- CLK.PLL_STATUS
  ⟨0x108, [(6, 0x20)],
    [⟨31, 16, .ro, 0, .all⟩,
     ⟨12, 8, .ro, 0, .all⟩,
     ⟨2, 2, .ro, 0, .all⟩,
     ⟨1, 1, .ro, 0, .all⟩,
     ⟨0, 0, .ro, 0, .all⟩], .fields⟩,
  -- CLK.AOUT[0]
  ⟨0x200, [],
    [⟨28, 28, .rws, 0, .all⟩,
     ⟨27, 16, .rwb, 0, .all⟩,
     ⟨11, 0, .rwb, 0x64, (.range 25 4095)⟩], .fields⟩,
  -- CLK.AOUT[1]
  ⟨0x204, [],
    [⟨28, 28, .rws, 0, .all⟩,
     ⟨27, 16, .rwb, 0, .all⟩,
     ⟨11, 0, .rwb, 0x64, (.range 25 4095)⟩], .fields⟩,
  -- CLK.AOUT[2]
  ⟨0x208, [],
    [⟨28, 28, .rws, 0, .all⟩,
     ⟨27, 16, .rwb, 0, .all⟩,
     ⟨11, 0, .rwb, 0x64, (.range 25 4095)⟩], .fields⟩,
  -- CLK.AOUT[3]
  ⟨0x20c, [],
    [⟨28, 28, .rws, 0, .all⟩,
     ⟨27, 16, .rwb, 0, .all⟩,
     ⟨11, 0, .rwb, 0x64, (.range 25 4095)⟩], .fields⟩]

/-- Registers of CLK, part 2 (13_clocks_and_synthesis.md). -/
def regsClk2 : List RegDesc := [
  -- CLK.AOUT[4]
  ⟨0x210, [],
    [⟨28, 28, .ro, 1, .all⟩,
     ⟨27, 16, .rwb, 0, .all⟩,
     ⟨11, 0, .ro, 0x64, (.range 25 4095)⟩], .fields⟩,
  -- CLK.AOUT[5]
  ⟨0x214, [],
    [⟨28, 28, .ro, 1, .all⟩,
     ⟨27, 16, .rwb, 0, .all⟩,
     ⟨11, 0, .ro, 0x19, (.range 25 4095)⟩], .fields⟩]

/-- Registers of CLK. -/
def regsClk : List RegDesc :=
  regsClk0 ++ regsClk1 ++ regsClk2

/-- Registers of PTPI, part 0 (12_network_time.md). -/
def regsPtpi0 : List RegDesc := [
  -- PTPI.CTRL
  ⟨0x0, [],
    [⟨5, 5, .rws, 0, .all⟩,
     ⟨4, 4, .rwb, 0, .all⟩,
     ⟨3, 3, .rws, 0, .all⟩,
     ⟨2, 2, .rws, 0, .all⟩,
     ⟨1, 1, .rwb, 0, .all⟩,
     ⟨0, 0, .rws, 0, .all⟩], .fields⟩,
  -- PTPI.DOMAIN
  ⟨0x4, [],
    [⟨19, 8, .rwb, 0, .all⟩,
     ⟨7, 0, .rwb, 0x7f, (.range 0 127)⟩], .fields⟩,
  -- PTPI.INTERVALS
  ⟨0x8, [],
    [⟨31, 24, .rws, 3, .all⟩,
     ⟨23, 16, .rws, 0xfd, .all⟩,
     ⟨15, 8, .rws, 0xfe, .all⟩,
     ⟨7, 0, .rws, 0xfd, .all⟩], .fields⟩,
  -- PTPI.QUAL
  ⟨0xc, [],
    [⟨15, 8, .rws, 0x10, (.range 4 255)⟩,
     ⟨7, 0, .rws, 0xf8, .all⟩], .fields⟩,
  -- PTPI.QOS
  ⟨0x10, [],
    [⟨27, 25, .rws, 7, .all⟩,
     ⟨23, 12, .rws, 0, .all⟩,
     ⟨11, 6, .rws, 0x2e, .all⟩,
     ⟨5, 0, .rws, 0x2e, .all⟩], .fields⟩,
  -- PTPI.ASYM[0]
  ⟨0x20, [],
    [⟨31, 16, .rws, 0x760, .all⟩,
     ⟨15, 0, .rws, 0xfc8, .all⟩], .fields⟩,
  -- PTPI.ASYM[1]
  ⟨0x24, [],
    [⟨31, 16, .rws, 0x2a8, .all⟩,
     ⟨15, 0, .rws, 0x3a0, .all⟩], .fields⟩,
  -- PTPI.ASYM[2]
  ⟨0x28, [],
    [⟨31, 16, .rws, 0x474, .all⟩,
     ⟨15, 0, .rws, 0x60c, .all⟩], .fields⟩,
  -- PTPI.DELAY_ASYM
  ⟨0x30, [],
    [⟨31, 0, .rws, 0, .all⟩], .fields⟩,
  -- PTPI.STATUS
  ⟨0x100, [],
    [⟨8, 8, .w1c, 0, .all⟩,
     ⟨7, 7, .w1c, 0, .all⟩,
     ⟨6, 6, .ro, 0, .all⟩,
     ⟨5, 4, .ro, 0, .all⟩,
     ⟨3, 0, .ro, 3, .all⟩], .fields⟩,
  -- PTPI.GM_ID_LO
  ⟨0x104, [],
    [⟨31, 0, .ro, 0, .all⟩], .fields⟩,
  -- PTPI.GM_ID_HI
  ⟨0x108, [],
    [⟨31, 0, .ro, 0, .all⟩], .fields⟩]

/-- Registers of PTPI, part 1 (12_network_time.md). -/
def regsPtpi1 : List RegDesc := [
  -- PTPI.GM_QUALITY
  ⟨0x10c, [],
    [⟨31, 24, .ro, 0, .all⟩,
     ⟨23, 16, .ro, 0, .all⟩,
     ⟨15, 8, .ro, 0, .all⟩,
     ⟨7, 0, .ro, 0, .all⟩], .fields⟩,
  -- PTPI.OFFSET_LO
  ⟨0x110, [],
    [⟨31, 0, .ro, 0, .all⟩], .fields⟩,
  -- PTPI.OFFSET_HI
  ⟨0x114, [],
    [⟨31, 0, .ro, 0, .all⟩], .fields⟩,
  -- PTPI.PATH_DELAY
  ⟨0x118, [],
    [⟨31, 0, .ro, 0, .all⟩], .fields⟩,
  -- PTPI.CNT
  ⟨0x200, [(13, 0x4)],
    [⟨31, 0, .ro, 0, .all⟩], .fields⟩,
  -- PTPI.SERVO_CFG
  ⟨0x400, [],
    [⟨31, 24, .rws, 0x3c, (.range 1 255)⟩,
     ⟨13, 8, .rws, 0x14, (.range 1 50)⟩,
     ⟨5, 4, .rws, 2, .all⟩,
     ⟨1, 1, .rws, 0, .all⟩,
     ⟨0, 0, .rws, 0, .all⟩], .fields⟩,
  -- PTPI.SERVO_SWITCH
  ⟨0x404, [],
    [⟨19, 0, .rws, 0x3e8, (.range 1 1000000)⟩], .fields⟩,
  -- PTPI.SERVO_CTRL
  ⟨0x408, [],
    [⟨0, 0, .wo, 0, .all⟩], .fields⟩,
  -- PTPI.SERVO_STATUS
  ⟨0x410, [],
    [⟨8, 8, .w1c, 0, .all⟩,
     ⟨7, 6, .ro, 0, .all⟩,
     ⟨4, 4, .ro, 0, .all⟩,
     ⟨2, 0, .ro, 0, .all⟩], .fields⟩,
  -- PTPI.SERVO_FREQ
  ⟨0x414, [],
    [⟨31, 0, .ro, 0, .all⟩], .fields⟩,
  -- PTPI.SERVO_RESID_LO
  ⟨0x418, [],
    [⟨31, 0, .ro, 0, .all⟩], .fields⟩,
  -- PTPI.SERVO_RESID_HI
  ⟨0x41c, [],
    [⟨31, 0, .ro, 0, .all⟩], .fields⟩]

/-- Registers of PTPI, part 2 (12_network_time.md). -/
def regsPtpi2 : List RegDesc := [
  -- PTPI.SERVO_SWITCH_COUNT
  ⟨0x420, [],
    [⟨31, 0, .ro, 0, .all⟩], .fields⟩]

/-- Registers of PTPI. -/
def regsPtpi : List RegDesc :=
  regsPtpi0 ++ regsPtpi1 ++ regsPtpi2

/-- Registers of PTPO, part 0 (12_network_time.md). -/
def regsPtpo0 : List RegDesc := [
  -- PTPO.CTRL
  ⟨0x0, [],
    [⟨5, 5, .rws, 0, .all⟩,
     ⟨4, 4, .rwb, 0, .all⟩,
     ⟨3, 3, .rws, 0, .all⟩,
     ⟨2, 2, .rws, 0, .all⟩,
     ⟨1, 1, .rwb, 0, .all⟩,
     ⟨0, 0, .rws, 0, .all⟩], .fields⟩,
  -- PTPO.DOMAIN
  ⟨0x4, [],
    [⟨19, 8, .rwb, 0, .all⟩,
     ⟨7, 0, .rwb, 0x7f, (.range 0 127)⟩], .fields⟩,
  -- PTPO.INTERVALS
  ⟨0x8, [],
    [⟨31, 24, .rws, 3, .all⟩,
     ⟨23, 16, .rws, 0xfd, .all⟩,
     ⟨15, 8, .rws, 0xfe, .all⟩,
     ⟨7, 0, .rws, 0xfd, .all⟩], .fields⟩,
  -- PTPO.QUAL
  ⟨0xc, [],
    [⟨15, 8, .rws, 0x10, (.range 4 255)⟩,
     ⟨7, 0, .rws, 0xf8, .all⟩], .fields⟩,
  -- PTPO.QOS
  ⟨0x10, [],
    [⟨27, 25, .rws, 7, .all⟩,
     ⟨23, 12, .rws, 0, .all⟩,
     ⟨11, 6, .rws, 0x2e, .all⟩,
     ⟨5, 0, .rws, 0x2e, .all⟩], .fields⟩,
  -- PTPO.ASYM[0]
  ⟨0x20, [],
    [⟨31, 16, .rws, 0x760, .all⟩,
     ⟨15, 0, .rws, 0xfc8, .all⟩], .fields⟩,
  -- PTPO.ASYM[1]
  ⟨0x24, [],
    [⟨31, 16, .rws, 0x2a8, .all⟩,
     ⟨15, 0, .rws, 0x3a0, .all⟩], .fields⟩,
  -- PTPO.ASYM[2]
  ⟨0x28, [],
    [⟨31, 16, .rws, 0x474, .all⟩,
     ⟨15, 0, .rws, 0x60c, .all⟩], .fields⟩,
  -- PTPO.DELAY_ASYM
  ⟨0x30, [],
    [⟨31, 0, .rws, 0, .all⟩], .fields⟩,
  -- PTPO.STATUS
  ⟨0x100, [],
    [⟨8, 8, .w1c, 0, .all⟩,
     ⟨7, 7, .w1c, 0, .all⟩,
     ⟨6, 6, .ro, 0, .all⟩,
     ⟨5, 4, .ro, 0, .all⟩,
     ⟨3, 0, .ro, 3, .all⟩], .fields⟩,
  -- PTPO.GM_ID_LO
  ⟨0x104, [],
    [⟨31, 0, .ro, 0, .all⟩], .fields⟩,
  -- PTPO.GM_ID_HI
  ⟨0x108, [],
    [⟨31, 0, .ro, 0, .all⟩], .fields⟩]

/-- Registers of PTPO, part 1 (12_network_time.md). -/
def regsPtpo1 : List RegDesc := [
  -- PTPO.GM_QUALITY
  ⟨0x10c, [],
    [⟨31, 24, .ro, 0, .all⟩,
     ⟨23, 16, .ro, 0, .all⟩,
     ⟨15, 8, .ro, 0, .all⟩,
     ⟨7, 0, .ro, 0, .all⟩], .fields⟩,
  -- PTPO.OFFSET_LO
  ⟨0x110, [],
    [⟨31, 0, .ro, 0, .all⟩], .fields⟩,
  -- PTPO.OFFSET_HI
  ⟨0x114, [],
    [⟨31, 0, .ro, 0, .all⟩], .fields⟩,
  -- PTPO.PATH_DELAY
  ⟨0x118, [],
    [⟨31, 0, .ro, 0, .all⟩], .fields⟩,
  -- PTPO.CNT
  ⟨0x200, [(13, 0x4)],
    [⟨31, 0, .ro, 0, .all⟩], .fields⟩]

/-- Registers of PTPO. -/
def regsPtpo : List RegDesc :=
  regsPtpo0 ++ regsPtpo1

/-- Registers of NETI, part 0 (11_media_network.md). -/
def regsNeti0 : List RegDesc := [
  -- NETI.CTRL
  ⟨0x0, [],
    [⟨15, 8, .rws, 0xff, .all⟩,
     ⟨4, 4, .rws, 0, .all⟩,
     ⟨3, 3, .rws, 0, .all⟩,
     ⟨2, 2, .rwb, 1, .all⟩,
     ⟨1, 1, .rwb, 0, .all⟩,
     ⟨0, 0, .rws, 0, .all⟩], .fields⟩,
  -- NETI.STATUS
  ⟨0x4, [],
    [⟨4, 4, .w1c, 0, .all⟩,
     ⟨3, 3, .ro, 0, .all⟩,
     ⟨2, 2, .ro, 0, .all⟩,
     ⟨1, 1, .ro, 0, .all⟩,
     ⟨0, 0, .ro, 0, .all⟩], .fields⟩,
  -- NETI.STEP
  ⟨0x8, [],
    [⟨7, 0, .rws, 0xa, (.range 1 255)⟩], .fields⟩,
  -- NETI.LOAD
  ⟨0xc, [],
    [⟨31, 16, .ro, 0, .all⟩,
     ⟨15, 0, .ro, 0, .all⟩], .fields⟩,
  -- NETI.MAC_LO
  ⟨0x10, [],
    [⟨31, 0, .rwb, 0, .all⟩], .fields⟩,
  -- NETI.MAC_HI
  ⟨0x14, [],
    [⟨15, 0, .rwb, 0, .all⟩], .fields⟩,
  -- NETI.IPV4
  ⟨0x18, [],
    [⟨31, 0, .rwb, 0, .all⟩], .fields⟩,
  -- NETI.IPV6
  ⟨0x20, [(4, 0x4)],
    [⟨31, 0, .rwb, 0, .all⟩], .fields⟩,
  -- NETI.VLAN
  ⟨0x40, [(16, 0x4)],
    [⟨15, 15, .rws, 0, .all⟩,
     ⟨11, 0, .rws, 0, .all⟩], .fields⟩,
  -- NETI.TX_STALE
  ⟨0x80, [],
    [⟨15, 0, .rws, 0x3e8, (.range 1 65535)⟩], .fields⟩,
  -- NETI.CNT
  ⟨0x100, [(14, 0x4)],
    [⟨31, 0, .ro, 0, .all⟩], .fields⟩,
  -- NETI.PFC_CNT
  ⟨0x140, [(8, 0x4)],
    [⟨31, 0, .ro, 0, .all⟩], .fields⟩]

/-- Registers of NETI, part 1 (11_media_network.md). -/
def regsNeti1 : List RegDesc := [
  -- NETI.RXS_CFG
  ⟨0x10000, [(256, 0x40)],
    [⟨31, 31, .ro, 0, .all⟩,
     ⟨30, 28, .ro, 0, .all⟩,
     ⟨27, 26, .ro, 0, .all⟩,
     ⟨25, 24, .ro, 0, .all⟩,
     ⟨23, 23, .ro, 0, .all⟩,
     ⟨22, 22, .ro, 0, .all⟩,
     ⟨21, 21, .ro, 0, .all⟩,
     ⟨20, 20, .ro, 0, .all⟩,
     ⟨19, 13, .ro, 0, .all⟩,
     ⟨6, 0, .ro, 0, .all⟩], .fields⟩,
  -- NETI.RXS_MAP
  ⟨0x10004, [(256, 0x40)],
    [⟨31, 16, .ro, 0, .all⟩,
     ⟨10, 0, .ro, 0, .all⟩], .fields⟩,
  -- NETI.RXS_PORT
  ⟨0x10008, [(256, 0x40)],
    [⟨23, 16, .ro, 0, .all⟩,
     ⟨15, 0, .ro, 0, .all⟩], .fields⟩,
  -- NETI.RXS_SSRC
  ⟨0x1000c, [(256, 0x40)],
    [⟨31, 0, .ro, 0, .all⟩], .fields⟩,
  -- NETI.RXS_DST
  ⟨0x10010, [(256, 0x40), (4, 0x4)],
    [⟨31, 0, .ro, 0, .all⟩], .fields⟩,
  -- NETI.RXS_SRC
  ⟨0x10020, [(256, 0x40), (4, 0x4)],
    [⟨31, 0, .ro, 0, .all⟩], .fields⟩,
  -- NETI.RXS_STAT
  ⟨0x10030, [(256, 0x40)],
    [⟨31, 31, .ro, 0, .all⟩,
     ⟨30, 30, .w1c, 0, .all⟩,
     ⟨29, 29, .w1c, 0, .all⟩,
     ⟨15, 0, .ro, 0, .all⟩], .fields⟩,
  -- NETI.RXS_CNT
  ⟨0x20000, [(256, 0x20), (6, 0x4)],
    [⟨31, 0, .ro, 0, .all⟩], .fields⟩,
  -- NETI.TXS_CFG
  ⟨0x30000, [(128, 0x40)],
    [⟨31, 31, .ro, 0, .all⟩,
     ⟨30, 30, .ro, 0, .all⟩,
     ⟨29, 28, .ro, 0, .all⟩,
     ⟨27, 27, .ro, 0, .all⟩,
     ⟨26, 26, .ro, 0, .all⟩,
     ⟨25, 23, .ro, 0, .all⟩,
     ⟨22, 16, .ro, 0, .all⟩,
     ⟨15, 10, .ro, 0, .all⟩,
     ⟨9, 7, .ro, 0, .all⟩,
     ⟨6, 0, .ro, 0, .all⟩], .fields⟩,
  -- NETI.TXS_MAP
  ⟨0x30004, [(128, 0x40)],
    [⟨31, 20, .ro, 0, .all⟩,
     ⟨9, 0, .ro, 0, .all⟩], .fields⟩,
  -- NETI.TXS_PORTS
  ⟨0x30008, [(128, 0x40)],
    [⟨31, 16, .ro, 0, .all⟩,
     ⟨15, 0, .ro, 0, .all⟩], .fields⟩,
  -- NETI.TXS_SSRC
  ⟨0x3000c, [(128, 0x40)],
    [⟨31, 0, .ro, 0, .all⟩], .fields⟩]

/-- Registers of NETI, part 2 (11_media_network.md). -/
def regsNeti2 : List RegDesc := [
  -- NETI.TXS_DST
  ⟨0x30010, [(128, 0x40), (4, 0x4)],
    [⟨31, 0, .ro, 0, .all⟩], .fields⟩,
  -- NETI.TXS_DMAC_LO
  ⟨0x30020, [(128, 0x40)],
    [⟨31, 0, .ro, 0, .all⟩], .fields⟩,
  -- NETI.TXS_DMAC_HI
  ⟨0x30024, [(128, 0x40)],
    [⟨15, 0, .ro, 0, .all⟩], .fields⟩,
  -- NETI.TXS_TTL
  ⟨0x30028, [(128, 0x40)],
    [⟨7, 0, .ro, 0, .all⟩], .fields⟩,
  -- NETI.TXS_PACKETS
  ⟨0x30030, [(128, 0x40)],
    [⟨31, 0, .ro, 0, .all⟩], .fields⟩,
  -- NETI.TXS_DROPPED
  ⟨0x30034, [(128, 0x40)],
    [⟨31, 0, .ro, 0, .all⟩], .fields⟩,
  -- NETI.TXMAP
  ⟨0x40000, [(1024, 0x4)],
    [⟨15, 15, .ro, 0, .all⟩,
     ⟨9, 0, .ro, 0, .all⟩], .fields⟩]

/-- Registers of NETI. -/
def regsNeti : List RegDesc :=
  regsNeti0 ++ regsNeti1 ++ regsNeti2

/-- Registers of NETO, part 0 (11_media_network.md). -/
def regsNeto0 : List RegDesc := [
  -- NETO.CTRL
  ⟨0x0, [],
    [⟨15, 8, .rws, 0xff, .all⟩,
     ⟨4, 4, .rws, 0, .all⟩,
     ⟨3, 3, .rws, 0, .all⟩,
     ⟨2, 2, .rwb, 1, .all⟩,
     ⟨1, 1, .rwb, 0, .all⟩,
     ⟨0, 0, .rws, 0, .all⟩], .fields⟩,
  -- NETO.STATUS
  ⟨0x4, [],
    [⟨4, 4, .w1c, 0, .all⟩,
     ⟨3, 3, .ro, 0, .all⟩,
     ⟨2, 2, .ro, 0, .all⟩,
     ⟨1, 1, .ro, 0, .all⟩,
     ⟨0, 0, .ro, 0, .all⟩], .fields⟩,
  -- NETO.STEP
  ⟨0x8, [],
    [⟨7, 0, .rws, 0xa, (.range 1 255)⟩], .fields⟩,
  -- NETO.LOAD
  ⟨0xc, [],
    [⟨31, 16, .ro, 0, .all⟩,
     ⟨15, 0, .ro, 0, .all⟩], .fields⟩,
  -- NETO.MAC_LO
  ⟨0x10, [],
    [⟨31, 0, .rwb, 0, .all⟩], .fields⟩,
  -- NETO.MAC_HI
  ⟨0x14, [],
    [⟨15, 0, .rwb, 0, .all⟩], .fields⟩,
  -- NETO.IPV4
  ⟨0x18, [],
    [⟨31, 0, .rwb, 0, .all⟩], .fields⟩,
  -- NETO.IPV6
  ⟨0x20, [(4, 0x4)],
    [⟨31, 0, .rwb, 0, .all⟩], .fields⟩,
  -- NETO.VLAN
  ⟨0x40, [(16, 0x4)],
    [⟨15, 15, .rws, 0, .all⟩,
     ⟨11, 0, .rws, 0, .all⟩], .fields⟩,
  -- NETO.TX_STALE
  ⟨0x80, [],
    [⟨15, 0, .rws, 0x3e8, (.range 1 65535)⟩], .fields⟩,
  -- NETO.CNT
  ⟨0x100, [(14, 0x4)],
    [⟨31, 0, .ro, 0, .all⟩], .fields⟩,
  -- NETO.PFC_CNT
  ⟨0x140, [(8, 0x4)],
    [⟨31, 0, .ro, 0, .all⟩], .fields⟩]

/-- Registers of NETO, part 1 (11_media_network.md). -/
def regsNeto1 : List RegDesc := [
  -- NETO.RXS_CFG
  ⟨0x10000, [(256, 0x40)],
    [⟨31, 31, .ro, 0, .all⟩,
     ⟨30, 28, .ro, 0, .all⟩,
     ⟨27, 26, .ro, 0, .all⟩,
     ⟨25, 24, .ro, 0, .all⟩,
     ⟨23, 23, .ro, 0, .all⟩,
     ⟨22, 22, .ro, 0, .all⟩,
     ⟨21, 21, .ro, 0, .all⟩,
     ⟨19, 13, .ro, 0, .all⟩,
     ⟨6, 0, .ro, 0, .all⟩], .fields⟩,
  -- NETO.RXS_MAP
  ⟨0x10004, [(256, 0x40)],
    [⟨31, 16, .ro, 0, .all⟩,
     ⟨10, 0, .ro, 0, .all⟩], .fields⟩,
  -- NETO.RXS_PORT
  ⟨0x10008, [(256, 0x40)],
    [⟨15, 0, .ro, 0, .all⟩], .fields⟩,
  -- NETO.RXS_SSRC
  ⟨0x1000c, [(256, 0x40)],
    [⟨31, 0, .ro, 0, .all⟩], .fields⟩,
  -- NETO.RXS_DST
  ⟨0x10010, [(256, 0x40), (4, 0x4)],
    [⟨31, 0, .ro, 0, .all⟩], .fields⟩,
  -- NETO.RXS_SRC
  ⟨0x10020, [(256, 0x40), (4, 0x4)],
    [⟨31, 0, .ro, 0, .all⟩], .fields⟩,
  -- NETO.RXS_STAT
  ⟨0x10030, [(256, 0x40)],
    [⟨31, 31, .ro, 0, .all⟩,
     ⟨30, 30, .w1c, 0, .all⟩,
     ⟨29, 29, .w1c, 0, .all⟩,
     ⟨15, 0, .ro, 0, .all⟩], .fields⟩,
  -- NETO.RXS_CNT
  ⟨0x20000, [(256, 0x20), (6, 0x4)],
    [⟨31, 0, .ro, 0, .all⟩], .fields⟩,
  -- NETO.TXS_CFG
  ⟨0x30000, [(128, 0x40)],
    [⟨31, 31, .ro, 0, .all⟩,
     ⟨30, 30, .ro, 0, .all⟩,
     ⟨29, 28, .ro, 0, .all⟩,
     ⟨27, 27, .ro, 0, .all⟩,
     ⟨26, 26, .ro, 0, .all⟩,
     ⟨25, 23, .ro, 0, .all⟩,
     ⟨22, 16, .ro, 0, .all⟩,
     ⟨15, 10, .ro, 0, .all⟩,
     ⟨9, 7, .ro, 0, .all⟩,
     ⟨6, 0, .ro, 0, .all⟩], .fields⟩,
  -- NETO.TXS_MAP
  ⟨0x30004, [(128, 0x40)],
    [⟨31, 20, .ro, 0, .all⟩,
     ⟨9, 0, .ro, 0, .all⟩], .fields⟩,
  -- NETO.TXS_PORTS
  ⟨0x30008, [(128, 0x40)],
    [⟨31, 16, .ro, 0, .all⟩,
     ⟨15, 0, .ro, 0, .all⟩], .fields⟩,
  -- NETO.TXS_SSRC
  ⟨0x3000c, [(128, 0x40)],
    [⟨31, 0, .ro, 0, .all⟩], .fields⟩]

/-- Registers of NETO, part 2 (11_media_network.md). -/
def regsNeto2 : List RegDesc := [
  -- NETO.TXS_DST
  ⟨0x30010, [(128, 0x40), (4, 0x4)],
    [⟨31, 0, .ro, 0, .all⟩], .fields⟩,
  -- NETO.TXS_DMAC_LO
  ⟨0x30020, [(128, 0x40)],
    [⟨31, 0, .ro, 0, .all⟩], .fields⟩,
  -- NETO.TXS_DMAC_HI
  ⟨0x30024, [(128, 0x40)],
    [⟨15, 0, .ro, 0, .all⟩], .fields⟩,
  -- NETO.TXS_TTL
  ⟨0x30028, [(128, 0x40)],
    [⟨7, 0, .ro, 0, .all⟩], .fields⟩,
  -- NETO.TXS_PACKETS
  ⟨0x30030, [(128, 0x40)],
    [⟨31, 0, .ro, 0, .all⟩], .fields⟩,
  -- NETO.TXS_DROPPED
  ⟨0x30034, [(128, 0x40)],
    [⟨31, 0, .ro, 0, .all⟩], .fields⟩,
  -- NETO.TXMAP
  ⟨0x40000, [(1024, 0x4)],
    [⟨15, 15, .ro, 0, .all⟩,
     ⟨9, 0, .ro, 0, .all⟩], .fields⟩]

/-- Registers of NETO. -/
def regsNeto : List RegDesc :=
  regsNeto0 ++ regsNeto1 ++ regsNeto2

/-- Registers of MGT (11_media_network.md). -/
def regsMgt : List RegDesc := [
  -- MGT.CTRL
  ⟨0x0, [],
    [⟨1, 1, .rwb, 0, .all⟩,
     ⟨0, 0, .rws, 0, .all⟩], .fields⟩,
  -- MGT.STATUS
  ⟨0x4, [],
    [⟨0, 0, .ro, 0, .all⟩], .fields⟩,
  -- MGT.MAC_LO
  ⟨0x10, [],
    [⟨31, 0, .rwb, 0, .all⟩], .fields⟩,
  -- MGT.MAC_HI
  ⟨0x14, [],
    [⟨15, 0, .rwb, 0, .all⟩], .fields⟩,
  -- MGT.IPV4
  ⟨0x18, [],
    [⟨31, 0, .rwb, 0, .all⟩], .fields⟩,
  -- MGT.IPV6
  ⟨0x20, [(4, 0x4)],
    [⟨31, 0, .rwb, 0, .all⟩], .fields⟩,
  -- MGT.UDP_PORT
  ⟨0x30, [],
    [⟨15, 0, .rwb, 0x5146, .all⟩], .fields⟩,
  -- MGT.CNT
  ⟨0x100, [(5, 0x4)],
    [⟨31, 0, .ro, 0, .all⟩], .fields⟩]

/-- Registers of TWN, part 0 (16_twins_and_moons.md). -/
def regsTwn0 : List RegDesc := [
  -- TWN.CTRL
  ⟨0x0, [],
    [⟨31, 16, .rws, 0xbb8, (.range 1 65535)⟩,
     ⟨2, 2, .rws, 0, .all⟩,
     ⟨1, 1, .rws, 0, .all⟩,
     ⟨0, 0, .rws, 0, .all⟩], .fields⟩,
  -- TWN.STATUS
  ⟨0x4, [],
    [⟨14, 14, .w1c, 0, .all⟩,
     ⟨13, 13, .ro, 0, .all⟩,
     ⟨12, 12, .ro, 0, .all⟩,
     ⟨11, 11, .ro, 0, .all⟩,
     ⟨10, 10, .w1c, 0, .all⟩,
     ⟨9, 9, .ro, 0, .all⟩,
     ⟨8, 8, .ro, 0, .all⟩,
     ⟨7, 6, .ro, 0, .all⟩,
     ⟨5, 5, .ro, 0, .all⟩,
     ⟨4, 4, .ro, 0, .all⟩,
     ⟨3, 3, .ro, 0, .all⟩,
     ⟨2, 2, .ro, 0, .all⟩,
     ⟨1, 1, .ro, 0, .all⟩,
     ⟨0, 0, .ro, 0, .all⟩], .fields⟩,
  -- TWN.HB
  ⟨0x8, [],
    [⟨7, 0, .rws, 3, (.range 1 255)⟩], .fields⟩,
  -- TWN.REARM
  ⟨0xc, [],
    [⟨0, 0, .wo, 0, .all⟩], .fields⟩,
  -- TWN.DIV_COUNT
  ⟨0x10, [],
    [⟨31, 0, .ro, 0, .all⟩], .fields⟩,
  -- TWN.HB_MISSED
  ⟨0x14, [],
    [⟨31, 0, .ro, 0, .all⟩], .fields⟩,
  -- TWN.DIV_FIRST_LO
  ⟨0x18, [],
    [⟨31, 0, .ro, 0, .all⟩], .fields⟩,
  -- TWN.DIV_FIRST_HI
  ⟨0x1c, [],
    [⟨15, 0, .ro, 0, .all⟩], .fields⟩,
  -- TWN.DIV_INFO
  ⟨0x20, [],
    [⟨26, 16, .ro, 0, .all⟩,
     ⟨10, 0, .ro, 0, .all⟩], .fields⟩,
  -- TWN.LANE_CRC
  ⟨0x24, [(2, 0x4)],
    [⟨31, 0, .ro, 0, .all⟩], .fields⟩,
  -- TWN.PEER_IMAGE_LO
  ⟨0x30, [],
    [⟨31, 0, .ro, 0, .all⟩], .fields⟩,
  -- TWN.PEER_IMAGE_HI
  ⟨0x34, [],
    [⟨31, 0, .ro, 0, .all⟩], .fields⟩]

/-- Registers of TWN, part 1 (16_twins_and_moons.md). -/
def regsTwn1 : List RegDesc := [
  -- TWN.JOIN_CFG
  ⟨0x40, [],
    [⟨31, 16, .rws, 0x12c, (.range 3 65535)⟩,
     ⟨7, 0, .rws, 0xa, (.range 1 255)⟩], .fields⟩,
  -- TWN.JOIN_STATUS
  ⟨0x44, [],
    [⟨31, 16, .ro, 0, .all⟩,
     ⟨15, 8, .ro, 0, .all⟩,
     ⟨2, 0, .ro, 0, .all⟩], .fields⟩,
  -- TWN.MOON_REQ_LO
  ⟨0x100, [],
    [⟨31, 0, .rwl, 0, .all⟩], .fields⟩,
  -- TWN.MOON_REQ_HI
  ⟨0x104, [],
    [⟨31, 31, .wo, 0, .all⟩,
     ⟨27, 24, .wo, 0, .all⟩,
     ⟨15, 0, .wo, 0, .all⟩], .fields⟩,
  -- TWN.MOON_STATUS
  ⟨0x108, [],
    [⟨31, 28, .ro, 0, .all⟩,
     ⟨13, 13, .ro, 1, .all⟩,
     ⟨12, 12, .ro, 1, .all⟩,
     ⟨11, 8, .ro, 8, .all⟩,
     ⟨2, 0, .ro, 4, .all⟩], .fields⟩,
  -- TWN.MOON_COUNT
  ⟨0x10c, [],
    [⟨31, 16, .ro, 0, .all⟩,
     ⟨15, 0, .ro, 0, .all⟩], .fields⟩,
  -- TWN.PATROL
  ⟨0x110, [],
    [⟨31, 16, .rws, 0xbb8, (.range 30 65535)⟩,
     ⟨0, 0, .rws, 0, .all⟩], .fields⟩,
  -- TWN.PATROL_STATUS
  ⟨0x114, [],
    [⟨31, 16, .ro, 0, .all⟩,
     ⟨15, 12, .ro, 0, .all⟩,
     ⟨2, 0, .ro, 0, .all⟩], .fields⟩]

/-- Registers of TWN. -/
def regsTwn : List RegDesc :=
  regsTwn0 ++ regsTwn1

/-- Registers of SAP, part 0 (14_serial_audio_ports.md). -/
def regsSap0 : List RegDesc := [
  -- SAP.CTRL
  ⟨0x0, [],
    [⟨0, 0, .rws, 0, .all⟩], .fields⟩,
  -- SAP.STATUS
  ⟨0x4, [],
    [⟨2, 2, .w1c, 0, .all⟩,
     ⟨1, 1, .ro, 0, .all⟩,
     ⟨0, 0, .ro, 0, .all⟩], .fields⟩,
  -- SAP.SLOTS_IN_USE
  ⟨0x8, [],
    [⟨25, 16, .ro, 0, .all⟩,
     ⟨9, 0, .ro, 0, .all⟩], .fields⟩,
  -- SAP.FOLLOW
  ⟨0x10, [],
    [⟨9, 8, .rws, 1, .all⟩,
     ⟨7, 0, .rws, 0x60, .all⟩], .fields⟩,
  -- SAP.FOLLOW_STATUS
  ⟨0x14, [],
    [⟨1, 1, .w1c, 0, .all⟩,
     ⟨0, 0, .ro, 0, .all⟩], .fields⟩,
  -- SAP.FOLLOW_FREQ
  ⟨0x18, [],
    [⟨31, 0, .ro, 0, .all⟩], .fields⟩,
  -- SAP.PORT_CFG
  ⟨0x1000, [(32, 0x40)],
    [⟨31, 31, .rws, 0, .all⟩,
     ⟨30, 30, .rwb, 0, .all⟩,
     ⟨29, 28, .rwb, 2, (.range 0 2)⟩,
     ⟨27, 26, .rwb, 0, (.range 0 2)⟩,
     ⟨25, 24, .rwb, 1, (.range 0 2)⟩,
     ⟨20, 16, .rwb, 7, .all⟩,
     ⟨12, 12, .rwb, 0, .all⟩,
     ⟨11, 11, .rwb, 1, .all⟩,
     ⟨10, 10, .rwb, 0, .all⟩,
     ⟨9, 9, .rwb, 0, .all⟩,
     ⟨8, 8, .rws, 1, .all⟩,
     ⟨4, 0, .rwb, 0, .all⟩], .index⟩,
  -- SAP.MASK_IN
  ⟨0x1004, [(32, 0x40)],
    [⟨31, 0, .rws, 0, .all⟩], .fields⟩,
  -- SAP.MASK_OUT
  ⟨0x1008, [(32, 0x40)],
    [⟨31, 0, .rws, 0, .all⟩], .fields⟩,
  -- SAP.PORT_ZC
  ⟨0x100c, [(32, 0x40)],
    [⟨8, 8, .rws, 0, .all⟩,
     ⟨7, 0, .rws, 0xa, (.range 1 255)⟩], .fields⟩,
  -- SAP.PORT_RATIO
  ⟨0x1010, [(32, 0x40)],
    [⟨31, 0, .ro, 0, .all⟩], .fields⟩,
  -- SAP.PORT_STATUS
  ⟨0x1014, [(32, 0x40)],
    [⟨31, 31, .ro, 0, .all⟩,
     ⟨30, 30, .ro, 0, .all⟩,
     ⟨29, 29, .ro, 0, .all⟩,
     ⟨28, 28, .w1c, 0, .all⟩,
     ⟨25, 16, .ro, 0, .all⟩,
     ⟨2, 0, .ro, 0, .all⟩], .fields⟩]

/-- Registers of SAP, part 1 (14_serial_audio_ports.md). -/
def regsSap1 : List RegDesc := [
  -- SAP.UNDERRUN_COUNT
  ⟨0x1018, [(32, 0x40)],
    [⟨31, 0, .ro, 0, .all⟩], .fields⟩,
  -- SAP.OVERRUN_COUNT
  ⟨0x101c, [(32, 0x40)],
    [⟨31, 0, .ro, 0, .all⟩], .fields⟩]

/-- Registers of SAP. -/
def regsSap : List RegDesc :=
  regsSap0 ++ regsSap1

/-- Registers of GRAPH, part 0 (03_signal_flow_graph.md). -/
def regsGraph0 : List RegDesc := [
  -- GRAPH.CTRL
  ⟨0x0, [],
    [⟨0, 0, .rws, 0, .all⟩], .fields⟩,
  -- GRAPH.STATUS
  ⟨0x4, [],
    [⟨1, 1, .w1c, 0, .all⟩,
     ⟨0, 0, .ro, 0, .all⟩], .fields⟩,
  -- GRAPH.ZC
  ⟨0x8, [],
    [⟨7, 0, .rws, 0xa, (.range 1 255)⟩], .fields⟩,
  -- GRAPH.CLIP_COUNT
  ⟨0x10, [],
    [⟨31, 0, .ro, 0, .all⟩], .fields⟩,
  -- GRAPH.TGEN_CFG
  ⟨0x100, [(8, 0x10)],
    [⟨31, 16, .rws, 0xec00, .all⟩,
     ⟨1, 0, .rws, 0, .all⟩], .fields⟩,
  -- GRAPH.TGEN_F1
  ⟨0x104, [(8, 0x10)],
    [⟨23, 0, .rws, 0x3e800, .all⟩], .fields⟩,
  -- GRAPH.TGEN_F2
  ⟨0x108, [(8, 0x10)],
    [⟨23, 0, .rws, 0x4e2000, .all⟩], .fields⟩,
  -- GRAPH.TGEN_LEN
  ⟨0x10c, [(8, 0x10)],
    [⟨15, 0, .rws, 0x2ee0, (.range 1 65535)⟩], .fields⟩,
  -- GRAPH.ISEL
  ⟨0x1000, [(1536, 0x4)],
    [⟨25, 25, .ro, 0, .all⟩,
     ⟨24, 24, .ro, 0, .all⟩,
     ⟨16, 16, .rws, 0, .all⟩,
     ⟨15, 0, .rws, 0, .all⟩], .fields⟩,
  -- GRAPH.OSEL
  ⟨0x5000, [(1536, 0x4)],
    [⟨25, 25, .ro, 0, .all⟩,
     ⟨24, 24, .ro, 0, .all⟩,
     ⟨16, 16, .rws, 0, .all⟩,
     ⟨15, 0, .rws, 0, .all⟩], .fields⟩,
  -- GRAPH.ITRIM
  ⟨0x3000, [(1536, 0x4)],
    [⟨26, 26, .w1c, 0, .all⟩,
     ⟨25, 25, .w1c, 0, .all⟩,
     ⟨24, 24, .ro, 0, .all⟩,
     ⟨16, 16, .rws, 0, .all⟩,
     ⟨15, 0, .rws, 0, .all⟩], .fields⟩,
  -- GRAPH.OTRIM
  ⟨0x8000, [(1536, 0x4)],
    [⟨26, 26, .w1c, 0, .all⟩,
     ⟨25, 25, .w1c, 0, .all⟩,
     ⟨24, 24, .ro, 0, .all⟩,
     ⟨16, 16, .rws, 1, .all⟩,
     ⟨15, 0, .rws, 0, .all⟩], .fields⟩]

/-- Registers of GRAPH, part 1 (03_signal_flow_graph.md). -/
def regsGraph1 : List RegDesc := [
  -- GRAPH.SODEST
  ⟨0x7000, [(512, 0x4)],
    [⟨25, 25, .ro, 0, .all⟩,
     ⟨24, 24, .ro, 0, .all⟩,
     ⟨15, 15, .rws, 0, .all⟩,
     ⟨9, 5, .rws, 0, .all⟩,
     ⟨4, 0, .rws, 0, .all⟩], .fields⟩,
  -- GRAPH.ST_CFG
  ⟨0xa000, [(32, 0x10)],
    [⟨27, 23, .rws, 0, .all⟩,
     ⟨22, 18, .rws, 0, .all⟩,
     ⟨17, 13, .rws, 0, .all⟩,
     ⟨12, 8, .rws, 0, .all⟩,
     ⟨1, 1, .rws, 0, .all⟩,
     ⟨0, 0, .rws, 0, .all⟩], .fields⟩,
  -- GRAPH.ST_GAIN
  ⟨0xa004, [(32, 0x10)],
    [⟨15, 0, .rws, 0x8000, .all⟩], .fields⟩,
  -- GRAPH.ST_STATUS
  ⟨0xa008, [(32, 0x10)],
    [⟨2, 2, .ro, 0, .all⟩,
     ⟨1, 1, .ro, 0, .all⟩,
     ⟨0, 0, .ro, 0, .all⟩], .fields⟩]

/-- Registers of GRAPH. -/
def regsGraph : List RegDesc :=
  regsGraph0 ++ regsGraph1

/-- Registers of CND (04_input_conditioning.md). -/
def regsCnd : List RegDesc := [
  -- CND.CTRL
  ⟨0x0, [],
    [⟨0, 0, .rws, 0, .all⟩], .fields⟩,
  -- CND.STATUS
  ⟨0x4, [],
    [⟨2, 2, .w1c, 0, .all⟩,
     ⟨1, 1, .ro, 0, .all⟩,
     ⟨0, 0, .ro, 0, .all⟩], .fields⟩,
  -- CND.UNSETTLED_NOW
  ⟨0x10, [],
    [⟨10, 0, .ro, 0, .all⟩], .fields⟩,
  -- CND.RESET_COUNT
  ⟨0x14, [],
    [⟨31, 0, .ro, 0, .all⟩], .fields⟩,
  -- CND.SLOT_CFG
  ⟨0x1000, [(1536, 0x4)],
    [⟨29, 24, .rws, 0, .all⟩,
     ⟨19, 16, .rws, 0xc, (.range 9 15)⟩,
     ⟨9, 9, .rws, 0, .all⟩,
     ⟨8, 8, .rws, 0, .all⟩,
     ⟨4, 4, .rws, 0, .all⟩,
     ⟨2, 0, .rws, 0, .all⟩], .fields⟩,
  -- CND.SLOT_STATUS
  ⟨0x3000, [(1536, 0x4)],
    [⟨31, 31, .ro, 0, .all⟩,
     ⟨30, 30, .w1c, 0, .all⟩,
     ⟨29, 29, .w1c, 0, .all⟩,
     ⟨14, 8, .ro, 0, .all⟩,
     ⟨6, 0, .ro, 0, .all⟩], .fields⟩,
  -- CND.DC_EST
  ⟨0x5000, [(1536, 0x4)],
    [⟨31, 24, .ro, 0, .all⟩,
     ⟨23, 0, .ro, 0, .all⟩], .fields⟩]

/-- Registers of OBJ, part 0 (05_objects_and_metadata.md). -/
def regsObj0 : List RegDesc := [
  -- OBJ.CTRL
  ⟨0x0, [],
    [⟨0, 0, .rws, 0, .all⟩], .fields⟩,
  -- OBJ.STATUS
  ⟨0x4, [],
    [⟨2, 2, .w1c, 0, .all⟩,
     ⟨1, 1, .w1c, 0, .all⟩,
     ⟨0, 0, .w1c, 0, .all⟩], .fields⟩,
  -- OBJ.MSRC_CFG
  ⟨0x100, [(16, 0x40)],
    [⟨31, 31, .rws, 0, .all⟩,
     ⟨30, 30, .rws, 0, .all⟩,
     ⟨17, 17, .rws, 0, .all⟩,
     ⟨16, 16, .rws, 0, .all⟩,
     ⟨15, 8, .rws, 0, .all⟩,
     ⟨7, 0, .rws, 0, .all⟩], .fields⟩,
  -- OBJ.MSRC_SCALE
  ⟨0x104, [(16, 0x40)],
    [⟨23, 0, .rws, 0x3e8, .all⟩], .fields⟩,
  -- OBJ.MSRC_SEQ
  ⟨0x108, [(16, 0x40)],
    [⟨16, 16, .ro, 0, .all⟩,
     ⟨15, 0, .ro, 0, .all⟩], .fields⟩,
  -- OBJ.MSRC_COUNT
  ⟨0x110, [(16, 0x40), (7, 0x4)],
    [⟨31, 0, .ro, 0, .all⟩], .fields⟩,
  -- OBJ.CFG
  ⟨0x10000, [(1024, 0x20)],
    [⟨31, 31, .rws, 0, .all⟩,
     ⟨27, 24, .rws, 0, .all⟩,
     ⟨20, 18, .rws, 1, (.range 1 4)⟩,
     ⟨15, 8, .rws, 0, .all⟩,
     ⟨4, 0, .rws, 0, (.range 0 16)⟩], .fields⟩,
  -- OBJ.MAP
  ⟨0x10004, [(1024, 0x20)],
    [⟨16, 16, .rws, 0, .all⟩,
     ⟨15, 0, .rws, 0, .all⟩], .fields⟩,
  -- OBJ.SLEW
  ⟨0x10008, [(1024, 0x20)],
    [⟨15, 0, .rws, 0x800, .all⟩], .fields⟩,
  -- OBJ.RPOS_X
  ⟨0x1000c, [(1024, 0x20)],
    [⟨23, 0, .rws, 0, .all⟩], .fields⟩,
  -- OBJ.RPOS_Y
  ⟨0x10010, [(1024, 0x20)],
    [⟨23, 0, .rws, 0x7d0, .all⟩], .fields⟩,
  -- OBJ.RPOS_Z
  ⟨0x10014, [(1024, 0x20)],
    [⟨23, 0, .rws, 0, .all⟩], .fields⟩]

/-- Registers of OBJ, part 1 (05_objects_and_metadata.md). -/
def regsObj1 : List RegDesc := [
  -- OBJ.RGAIN
  ⟨0x10018, [(1024, 0x20)],
    [⟨23, 16, .rws, 0, .all⟩,
     ⟨15, 0, .rws, 0x8000, .all⟩], .fields⟩,
  -- OBJ.STAT_X
  ⟨0x30000, [(1024, 0x20)],
    [⟨31, 24, .ro, 0, .all⟩,
     ⟨23, 0, .ro, 0, .all⟩], .fields⟩,
  -- OBJ.STAT_Y
  ⟨0x30004, [(1024, 0x20)],
    [⟨31, 24, .ro, 0, .all⟩,
     ⟨23, 0, .ro, 0x7d0, .all⟩], .fields⟩,
  -- OBJ.STAT_Z
  ⟨0x30008, [(1024, 0x20)],
    [⟨31, 24, .ro, 0, .all⟩,
     ⟨23, 0, .ro, 0, .all⟩], .fields⟩,
  -- OBJ.STAT_GAIN
  ⟨0x3000c, [(1024, 0x20)],
    [⟨23, 16, .ro, 0, .all⟩,
     ⟨15, 0, .ro, 0x8000, .all⟩], .fields⟩,
  -- OBJ.STAT_FLAGS
  ⟨0x30010, [(1024, 0x20)],
    [⟨31, 31, .w1c, 0, .all⟩,
     ⟨30, 30, .w1c, 0, .all⟩,
     ⟨29, 29, .w1c, 0, .all⟩,
     ⟨28, 28, .ro, 0, .all⟩,
     ⟨27, 27, .ro, 0, .all⟩,
     ⟨26, 26, .ro, 0, .all⟩,
     ⟨10, 8, .ro, 1, .all⟩,
     ⟨2, 0, .ro, 0, .all⟩], .fields⟩,
  -- OBJ.LAST_APPLY_LO
  ⟨0x30014, [(1024, 0x20)],
    [⟨31, 0, .ro, 0, .all⟩], .fields⟩,
  -- OBJ.LAST_APPLY_HI
  ⟨0x30018, [(1024, 0x20)],
    [⟨15, 0, .ro, 0, .all⟩], .fields⟩]

/-- Registers of OBJ. -/
def regsObj : List RegDesc :=
  regsObj0 ++ regsObj1

/-- Registers of GEO, part 0 (06_geometry_engine.md). -/
def regsGeo0 : List RegDesc := [
  -- GEO.CTRL
  ⟨0x0, [],
    [⟨0, 0, .rws, 0, .all⟩], .fields⟩,
  -- GEO.STATUS
  ⟨0x4, [],
    [⟨2, 2, .ro, 0, .all⟩,
     ⟨1, 1, .ro, 0, .all⟩,
     ⟨0, 0, .w1c, 0, .all⟩], .fields⟩,
  -- GEO.AIR
  ⟨0x8, [],
    [⟨15, 0, .rws, 0x1400, .all⟩], .fields⟩,
  -- GEO.SOUND_C
  ⟨0xc, [],
    [⟨19, 0, .ro, 0, .all⟩], .fields⟩,
  -- GEO.SOUND_K
  ⟨0x10, [],
    [⟨31, 0, .ro, 0, .all⟩], .fields⟩,
  -- GEO.PREC
  ⟨0x14, [],
    [⟨23, 16, .rws, 0x18, (.range 0 96)⟩,
     ⟨15, 0, .rws, 0x1388, (.range 0 20000)⟩], .fields⟩,
  -- GEO.PREC_REF
  ⟨0x18, [],
    [⟨22, 0, .rws, 0xbb8, (.range 1 8388607)⟩], .fields⟩,
  -- GEO.WF
  ⟨0x1c, [],
    [⟨31, 16, .rws, 0x1f4, (.range 1 65535)⟩,
     ⟨15, 0, .rws, 0xfa, (.range 1 65535)⟩], .fields⟩,
  -- GEO.LOAD
  ⟨0x20, [],
    [⟨19, 0, .ro, 0, .all⟩], .fields⟩,
  -- GEO.LOAD_MAX
  ⟨0x24, [],
    [⟨19, 0, .ro, 0, .all⟩], .fields⟩,
  -- GEO.TABLES
  ⟨0x28, [],
    [⟨31, 26, .ro, 0, .all⟩,
     ⟨23, 12, .ro, 0, .all⟩,
     ⟨9, 0, .ro, 0, .all⟩], .fields⟩,
  -- GEO.AMB
  ⟨0x100, [(8, 0x4)],
    [⟨31, 31, .ro, 0, .all⟩,
     ⟨12, 12, .rws, 0, .all⟩,
     ⟨11, 11, .rws, 0, .all⟩,
     ⟨10, 8, .rws, 1, (.range 1 7)⟩,
     ⟨5, 0, .rws, 0, .all⟩], .fields⟩]

/-- Registers of GEO, part 1 (06_geometry_engine.md). -/
def regsGeo1 : List RegDesc := [
  -- GEO.OBJ_SEGMASK
  ⟨0x10000, [(1024, 0x10)],
    [⟨31, 0, .rws, 0, .all⟩], .fields⟩,
  -- GEO.OBJ_LAWCFG
  ⟨0x10004, [(1024, 0x10)],
    [⟨4, 4, .rws, 0, .all⟩,
     ⟨2, 0, .rws, 0, .all⟩], .fields⟩,
  -- GEO.OBJ_STATUS
  ⟨0x20000, [(1024, 0x10)],
    [⟨31, 31, .w1c, 0, .all⟩,
     ⟨30, 30, .w1c, 0, .all⟩,
     ⟨29, 29, .w1c, 0, .all⟩,
     ⟨28, 28, .w1c, 0, .all⟩,
     ⟨27, 27, .w1c, 0, .all⟩,
     ⟨26, 26, .w1c, 0, .all⟩,
     ⟨25, 25, .w1c, 0, .all⟩,
     ⟨24, 24, .w1c, 0, .all⟩,
     ⟨23, 23, .ro, 0, .all⟩,
     ⟨22, 22, .ro, 0, .all⟩,
     ⟨18, 8, .ro, 0, .all⟩,
     ⟨7, 0, .ro, 0, .all⟩], .fields⟩]

/-- Registers of GEO. -/
def regsGeo : List RegDesc :=
  regsGeo0 ++ regsGeo1

/-- Registers of XP, part 0 (07_crosspoint_engine.md). -/
def regsXp0 : List RegDesc := [
  -- XP.CTRL
  ⟨0x0, [],
    [⟨0, 0, .rws, 0, .all⟩], .fields⟩,
  -- XP.STATUS
  ⟨0x4, [],
    [⟨2, 2, .ro, 0, .all⟩,
     ⟨1, 1, .w1c, 0, .all⟩,
     ⟨0, 0, .w1c, 0, .all⟩], .fields⟩,
  -- XP.POOL_CAP
  ⟨0x8, [],
    [⟨17, 0, .ro, 0x20000, .all⟩], .fields⟩,
  -- XP.POOL_USED
  ⟨0xc, [],
    [⟨17, 0, .ro, 0, .all⟩], .fields⟩,
  -- XP.POOL_REQUESTED
  ⟨0x10, [],
    [⟨18, 0, .ro, 0, .all⟩], .fields⟩,
  -- XP.SHED_CFG
  ⟨0x14, [],
    [⟨15, 0, .rws, 0x12c, (.range 1 65535)⟩], .fields⟩,
  -- XP.POOL_SHED
  ⟨0x18, [],
    [⟨18, 0, .ro, 0, .all⟩], .fields⟩,
  -- XP.SHED_TOTAL
  ⟨0x1c, [],
    [⟨31, 0, .ro, 0, .all⟩], .fields⟩,
  -- XP.LANE_END
  ⟨0x20, [],
    [⟨17, 0, .ro, 0, .all⟩], .fields⟩,
  -- XP.LANE_END_MAX
  ⟨0x24, [],
    [⟨17, 0, .ro, 0, .all⟩], .fields⟩,
  -- XP.FEED_SAT
  ⟨0x28, [],
    [⟨31, 0, .ro, 0, .all⟩], .fields⟩,
  -- XP.INTERP
  ⟨0x1000, [(256, 0x20), (8, 0x4)],
    [⟨31, 24, .ro, 0, .all⟩,
     ⟨23, 0, .ro, 0, .all⟩], .interp⟩]

/-- Registers of XP, part 1 (07_crosspoint_engine.md). -/
def regsXp1 : List RegDesc := [
  -- XP.BULK
  ⟨0x4000, [(1024, 0x4)],
    [⟨13, 0, .rws, 0, .all⟩], .fields⟩,
  -- XP.OBJ_STATUS
  ⟨0x6000, [(1536, 0x4)],
    [⟨31, 31, .w1c, 0, .all⟩,
     ⟨30, 30, .w1c, 0, .all⟩,
     ⟨29, 29, .w1c, 0, .all⟩,
     ⟨28, 28, .ro, 0, .all⟩,
     ⟨27, 27, .ro, 0, .all⟩,
     ⟨17, 9, .ro, 0, .all⟩,
     ⟨8, 0, .ro, 0, .all⟩], .fields⟩,
  -- XP.OBJ_SHED_TOTAL
  ⟨0xc000, [(1536, 0x4)],
    [⟨31, 0, .ro, 0, .all⟩], .fields⟩]

/-- Registers of XP. -/
def regsXp : List RegDesc :=
  regsXp0 ++ regsXp1

/-- Registers of RC, part 0 (08_room_correction.md). -/
def regsRc0 : List RegDesc := [
  -- RC.CTRL
  ⟨0x0, [],
    [⟨0, 0, .rws, 0, .all⟩], .fields⟩,
  -- RC.STATUS
  ⟨0x4, [],
    [⟨15, 8, .ro, 0, .all⟩,
     ⟨2, 2, .ro, 0, .all⟩,
     ⟨1, 1, .ro, 0, .all⟩,
     ⟨0, 0, .w1c, 0, .all⟩], .fields⟩,
  -- RC.LOAD_A
  ⟨0x8, [],
    [⟨23, 0, .ro, 0, .all⟩], .fields⟩,
  -- RC.LOAD_B
  ⟨0xc, [],
    [⟨23, 0, .ro, 0, .all⟩], .fields⟩,
  -- RC.SWAP_COUNT
  ⟨0x10, [],
    [⟨31, 0, .ro, 0, .all⟩], .fields⟩,
  -- RC.SAT_COUNT
  ⟨0x14, [],
    [⟨31, 0, .ro, 0, .all⟩], .fields⟩,
  -- RC.PINK_NORM
  ⟨0x18, [],
    [⟨31, 0, .ro, 0, .all⟩], .pink⟩,
  -- RC.MGEN_CFG
  ⟨0x100, [(4, 0x10)],
    [⟨31, 16, .rws, 0xec00, .all⟩,
     ⟨1, 0, .rws, 0, .all⟩], .fields⟩,
  -- RC.MGEN_F1
  ⟨0x104, [(4, 0x10)],
    [⟨23, 0, .rws, 0x3e800, .all⟩], .fields⟩,
  -- RC.MGEN_F2
  ⟨0x108, [(4, 0x10)],
    [⟨23, 0, .rws, 0x4e2000, .all⟩], .fields⟩,
  -- RC.MGEN_LEN
  ⟨0x10c, [(4, 0x10)],
    [⟨15, 0, .rws, 0x2ee0, (.range 1 65535)⟩], .fields⟩,
  -- RC.OUTGEN
  ⟨0x1000, [(576, 0x4)],
    [⟨31, 16, .rws, 0x8000, .all⟩,
     ⟨5, 5, .rws, 0, .all⟩,
     ⟨4, 3, .rws, 0, (.range 0 2)⟩,
     ⟨1, 0, .rws, 0, .all⟩], .fields⟩]

/-- Registers of RC, part 1 (08_room_correction.md). -/
def regsRc1 : List RegDesc := [
  -- RC.FEED_STATUS
  ⟨0x2000, [(512, 0x4)],
    [⟨31, 31, .w1c, 0, .all⟩,
     ⟨30, 30, .w1c, 0, .all⟩,
     ⟨29, 29, .ro, 0, .all⟩,
     ⟨14, 0, .ro, 0, .all⟩], .fields⟩,
  -- RC.CAP_CTRL
  ⟨0x3000, [],
    [⟨31, 31, .rws, 0, .all⟩,
     ⟨17, 16, .rws, 0, .all⟩,
     ⟨10, 0, .rws, 0, .all⟩], .fields⟩,
  -- RC.CAP_LEN
  ⟨0x3004, [],
    [⟨15, 0, .rws, 0xbb8, (.range 1 65535)⟩], .fields⟩,
  -- RC.CAP_LAGS
  ⟨0x3008, [],
    [⟨14, 0, .rws, 0x4000, (.range 0 16384)⟩], .fields⟩,
  -- RC.CAP_BASE
  ⟨0x300c, [],
    [⟨18, 0, .rws, 0, .all⟩], .fields⟩,
  -- RC.CAP_STATUS
  ⟨0x3010, [],
    [⟨3, 3, .ro, 0, .all⟩,
     ⟨2, 0, .ro, 0, .all⟩], .fields⟩,
  -- RC.BQ_FEED[c=0]
  ⟨0x40000, [(512, 0x200), (16, 0x20)],
    [⟨31, 0, .rws, 0x10000000, .all⟩], .fields⟩,
  -- RC.BQ_FEED[c=1]
  ⟨0x40004, [(512, 0x200), (16, 0x20)],
    [⟨31, 0, .rws, 0, .all⟩], .fields⟩,
  -- RC.BQ_FEED[c=2]
  ⟨0x40008, [(512, 0x200), (16, 0x20)],
    [⟨31, 0, .rws, 0, .all⟩], .fields⟩,
  -- RC.BQ_FEED[c=3]
  ⟨0x4000c, [(512, 0x200), (16, 0x20)],
    [⟨31, 0, .rws, 0, .all⟩], .fields⟩,
  -- RC.BQ_FEED[c=4]
  ⟨0x40010, [(512, 0x200), (16, 0x20)],
    [⟨31, 0, .rws, 0, .all⟩], .fields⟩,
  -- RC.BQ_FEED[c=5]
  ⟨0x40014, [(512, 0x200), (16, 0x20)],
    [⟨0, 0, .rws, 0, .all⟩], .fields⟩]

/-- Registers of RC, part 2 (08_room_correction.md). -/
def regsRc2 : List RegDesc := [
  -- RC.BQ_BUS[c=0]
  ⟨0x80000, [(64, 0x100), (8, 0x20)],
    [⟨31, 0, .rws, 0x10000000, .all⟩], .fields⟩,
  -- RC.BQ_BUS[c=1]
  ⟨0x80004, [(64, 0x100), (8, 0x20)],
    [⟨31, 0, .rws, 0, .all⟩], .fields⟩,
  -- RC.BQ_BUS[c=2]
  ⟨0x80008, [(64, 0x100), (8, 0x20)],
    [⟨31, 0, .rws, 0, .all⟩], .fields⟩,
  -- RC.BQ_BUS[c=3]
  ⟨0x8000c, [(64, 0x100), (8, 0x20)],
    [⟨31, 0, .rws, 0, .all⟩], .fields⟩,
  -- RC.BQ_BUS[c=4]
  ⟨0x80010, [(64, 0x100), (8, 0x20)],
    [⟨31, 0, .rws, 0, .all⟩], .fields⟩,
  -- RC.BQ_BUS[c=5]
  ⟨0x80014, [(64, 0x100), (8, 0x20)],
    [⟨0, 0, .rws, 0, .all⟩], .fields⟩]

/-- Registers of RC. -/
def regsRc : List RegDesc :=
  regsRc0 ++ regsRc1 ++ regsRc2

/-- Registers of VEC (09_vector_cores.md). -/
def regsVec : List RegDesc := [
  -- VEC.CTRL
  ⟨0x0, [],
    [⟨0, 0, .rws, 0, .all⟩], .fields⟩,
  -- VEC.STATUS
  ⟨0x4, [],
    [⟨11, 8, .ro, 8, .all⟩,
     ⟨0, 0, .w1c, 0, .all⟩], .fields⟩,
  -- VEC.FAULT_COUNT
  ⟨0x8, [],
    [⟨31, 0, .ro, 0, .all⟩], .fields⟩,
  -- VEC.CORE_STATE
  ⟨0x100, [(36, 0x4)],
    [⟨23, 8, .ro, 0, .all⟩,
     ⟨4, 4, .ro, 0, .all⟩,
     ⟨2, 0, .ro, 0, .all⟩], .fields⟩,
  -- VEC.FAULT
  ⟨0x200, [(36, 0x8)],
    [⟨7, 7, .w1c, 0, .all⟩,
     ⟨6, 6, .w1c, 0, .all⟩,
     ⟨5, 5, .w1c, 0, .all⟩,
     ⟨4, 4, .w1c, 0, .all⟩,
     ⟨3, 3, .w1c, 0, .all⟩,
     ⟨2, 2, .w1c, 0, .all⟩,
     ⟨1, 1, .w1c, 0, .all⟩,
     ⟨0, 0, .w1c, 0, .all⟩], .fields⟩,
  -- VEC.FAULT_PC
  ⟨0x204, [(36, 0x8)],
    [⟨31, 31, .ro, 0, .all⟩,
     ⟨12, 0, .ro, 0, .all⟩], .fields⟩]

/-- Registers of WD, part 0 (10_dispatch_and_events.md). -/
def regsWd0 : List RegDesc := [
  -- WD.CTRL
  ⟨0x0, [],
    [⟨2, 2, .rws, 0, .all⟩,
     ⟨1, 1, .rws, 1, .all⟩,
     ⟨0, 0, .rws, 0, .all⟩], .fields⟩,
  -- WD.STATUS
  ⟨0x4, [],
    [⟨3, 3, .w1c, 0, .all⟩,
     ⟨1, 0, .ro, 1, .all⟩], .fields⟩,
  -- WD.READY
  ⟨0x8, [],
    [⟨12, 0, .ro, 0, .all⟩], .fields⟩,
  -- WD.RUNNING
  ⟨0xc, [],
    [⟨12, 0, .ro, 0, .all⟩], .fields⟩,
  -- WD.DISPATCH_COUNT
  ⟨0x10, [],
    [⟨31, 0, .ro, 0, .all⟩], .fields⟩,
  -- WD.SUBMIT_REFUSED
  ⟨0x14, [],
    [⟨31, 0, .ro, 0, .all⟩], .fields⟩,
  -- WD.CANCEL
  ⟨0x20, [],
    [⟨31, 0, .wo, 0, .all⟩], .fields⟩,
  -- WD.CANCEL_PROD
  ⟨0x24, [],
    [⟨5, 0, .wo, 0, .all⟩], .fields⟩,
  -- WD.SUBMIT
  ⟨0x40, [(8, 0x4)],
    [⟨31, 0, .wo, 0, .all⟩], .fields⟩,
  -- WD.SUBMIT_GO
  ⟨0x60, [],
    [⟨0, 0, .wo, 0, .all⟩], .fields⟩,
  -- WD.CQ_HEAD
  ⟨0x70, [],
    [⟨7, 0, .ro, 0, .all⟩], .fields⟩,
  -- WD.CQ_OVERWRITE
  ⟨0x74, [],
    [⟨31, 0, .ro, 0, .all⟩], .fields⟩]

/-- Registers of WD, part 1 (10_dispatch_and_events.md). -/
def regsWd1 : List RegDesc := [
  -- WD.PROD_CFG[0-31]
  ⟨0x100, [(32, 0x4)],
    [⟨12, 0, .rwb, 0x20, .all⟩], .fields⟩,
  -- WD.PROD_CFG[32-33]
  ⟨0x180, [(2, 0x4)],
    [⟨12, 0, .rwb, 0x100, .all⟩], .fields⟩,
  -- WD.PROD_STATUS
  ⟨0x200, [(38, 0x4)],
    [⟨31, 31, .ro, 0, .all⟩,
     ⟨12, 0, .ro, 0, .all⟩], .fields⟩,
  -- WD.STAGE_CFG
  ⟨0x300, [(4, 0x10)],
    [⟨7, 4, .rws, 8, .all⟩,
     ⟨0, 0, .rws, 0, .all⟩], .fields⟩,
  -- WD.STAGE_STATUS
  ⟨0x304, [(4, 0x10)],
    [⟨27, 16, .ro, 0, .all⟩,
     ⟨11, 0, .ro, 0, .all⟩], .fields⟩,
  -- WD.STAGE_MISS
  ⟨0x308, [(4, 0x10)],
    [⟨31, 0, .ro, 0, .all⟩], .fields⟩,
  -- WD.STAGE_LAST
  ⟨0x30c, [(4, 0x10)],
    [⟨19, 0, .ro, 0, .all⟩], .fields⟩,
  -- WD.CQ
  ⟨0x2000, [(256, 0x10), (4, 0x4)],
    [⟨31, 0, .ro, 0, .all⟩], .fields⟩,
  -- WD.TEMPLATE
  ⟨0x3000, [(16, 0x20), (8, 0x4)],
    [⟨31, 0, .rws, 0, .all⟩], .fields⟩,
  -- WD.GROUP_STATUS
  ⟨0x4000, [(2048, 0x4)],
    [⟨31, 31, .ro, 0, .all⟩,
     ⟨30, 30, .w1c, 0, .all⟩,
     ⟨5, 0, .ro, 0, .all⟩], .fields⟩]

/-- Registers of WD. -/
def regsWd : List RegDesc :=
  regsWd0 ++ regsWd1

/-- Registers of EVT, part 0 (10_dispatch_and_events.md). -/
def regsEvt0 : List RegDesc := [
  -- EVT.CTRL
  ⟨0x0, [],
    [⟨0, 0, .rws, 0, .all⟩], .fields⟩,
  -- EVT.STATUS
  ⟨0x4, [],
    [⟨1, 1, .w1c, 0, .all⟩,
     ⟨0, 0, .w1c, 0, .all⟩], .fields⟩,
  -- EVT.PEND_SET
  ⟨0x10, [],
    [⟨9, 0, .wo, 0, .all⟩], .fields⟩,
  -- EVT.PEND_CLR
  ⟨0x14, [],
    [⟨9, 0, .wo, 0, .all⟩], .fields⟩,
  -- EVT.MASK_SET
  ⟨0x18, [],
    [⟨9, 0, .wo, 0, .all⟩], .fields⟩,
  -- EVT.MASK_CLR
  ⟨0x1c, [],
    [⟨9, 0, .wo, 0, .all⟩], .fields⟩,
  -- EVT.COALESCE
  ⟨0x20, [],
    [⟨31, 0, .ro, 0, .all⟩], .fields⟩,
  -- EVT.REROUTE_COUNT
  ⟨0x24, [],
    [⟨31, 0, .ro, 0, .all⟩], .fields⟩,
  -- EVT.PEND
  ⟨0x100, [(32, 0x4)],
    [⟨31, 0, .ro, 0, .all⟩], .fields⟩,
  -- EVT.MASK
  ⟨0x180, [(32, 0x4)],
    [⟨31, 0, .ro, 0xffffffff, .all⟩], .fields⟩,
  -- EVT.CORE_PRI
  ⟨0x200, [(32, 0x4)],
    [⟨9, 9, .ro, 0, .all⟩,
     ⟨8, 8, .ro, 0, .all⟩,
     ⟨4, 0, .ro, 0x1e, .all⟩], .fields⟩,
  -- EVT.SRC_CFG
  ⟨0x1000, [(1024, 0x8)],
    [⟨31, 30, .rws, 0, (.range 0 2)⟩,
     ⟨29, 29, .rws, 0, .all⟩,
     ⟨28, 24, .rws, 0, .all⟩,
     ⟨23, 20, .rws, 0, .all⟩,
     ⟨19, 16, .rws, 0, .all⟩,
     ⟨12, 0, .rws, 0, .all⟩], .fields⟩]

/-- Registers of EVT, part 1 (10_dispatch_and_events.md). -/
def regsEvt1 : List RegDesc := [
  -- EVT.SRC_HOLDOFF
  ⟨0x1004, [(1024, 0x8)],
    [⟨11, 0, .rws, 0, .all⟩], .fields⟩]

/-- Registers of EVT. -/
def regsEvt : List RegDesc :=
  regsEvt0 ++ regsEvt1

/-- Registers of XBAR (15_memory_system.md). -/
def regsXbar : List RegDesc := [
  -- XBAR.CTRL
  ⟨0x0, [],
    [⟨0, 0, .w1s, 0, .all⟩], .fields⟩,
  -- XBAR.STATUS
  ⟨0x4, [],
    [⟨1, 1, .w1c, 0, .all⟩,
     ⟨0, 0, .w1c, 0, .all⟩], .fields⟩,
  -- XBAR.OUTSTANDING
  ⟨0x8, [],
    [⟨24, 16, .ro, 0, .all⟩,
     ⟨8, 0, .ro, 0, .all⟩], .fields⟩,
  -- XBAR.ERR_COUNT
  ⟨0x10, [(3, 0x4)],
    [⟨31, 0, .ro, 0, .all⟩], .fields⟩,
  -- XBAR.LAST_ERR_LO
  ⟨0x20, [],
    [⟨31, 0, .ro, 0, .all⟩], .fields⟩,
  -- XBAR.LAST_ERR_HI
  ⟨0x24, [],
    [⟨7, 0, .ro, 0, .all⟩], .fields⟩,
  -- XBAR.LAST_ERR_INFO
  ⟨0x28, [],
    [⟨20, 16, .ro, 0, .all⟩,
     ⟨9, 8, .ro, 0, .all⟩,
     ⟨0, 0, .ro, 0, .all⟩], .fields⟩,
  -- XBAR.HOLD_COUNT
  ⟨0x30, [],
    [⟨31, 0, .ro, 0, .all⟩], .fields⟩,
  -- XBAR.SPLIT_COUNT
  ⟨0x34, [],
    [⟨31, 0, .ro, 0, .all⟩], .fields⟩,
  -- XBAR.MASTER
  ⟨0x100, [(19, 0x4)],
    [⟨22, 16, .ro, 0, .all⟩,
     ⟨6, 0, .ro, 0, .all⟩], .fields⟩]

/-- Registers of MEM0 (15_memory_system.md). -/
def regsMem0 : List RegDesc := [
  -- MEM0.CTRL
  ⟨0x0, [],
    [⟨2, 2, .rws, 0, .all⟩,
     ⟨1, 1, .rws, 0, .all⟩,
     ⟨0, 0, .wo, 0, .all⟩], .fields⟩,
  -- MEM0.CFG
  ⟨0x4, [],
    [⟨2, 2, .rwb, 1, .all⟩,
     ⟨1, 1, .rwb, 1, .all⟩,
     ⟨0, 0, .rwb, 0, .all⟩], .fields⟩,
  -- MEM0.STATUS
  ⟨0x8, [],
    [⟨21, 16, .ro, 0, .all⟩,
     ⟨9, 8, .ro, 2, .all⟩,
     ⟨6, 4, .ro, 0, .all⟩,
     ⟨3, 3, .ro, 0, .all⟩,
     ⟨2, 2, .ro, 0, .all⟩,
     ⟨1, 1, .ro, 0, .all⟩,
     ⟨0, 0, .ro, 0, .all⟩], .fields⟩,
  -- MEM0.RETRAIN
  ⟨0xc, [],
    [⟨15, 0, .rws, 0x12c, (.range 1 65535)⟩], .fields⟩,
  -- MEM0.PWR
  ⟨0x10, [],
    [⟨31, 16, .rws, 0x3e8, (.range 1 65535)⟩,
     ⟨15, 0, .rws, 0x100, (.range 16 65535)⟩], .fields⟩,
  -- MEM0.TIMING
  ⟨0x14, [],
    [⟨23, 16, .ro, 0, .all⟩,
     ⟨15, 8, .ro, 0, .all⟩,
     ⟨7, 0, .ro, 0, .all⟩], .fields⟩,
  -- MEM0.CNT
  ⟨0x20, [(6, 0x4)],
    [⟨31, 0, .ro, 0, .all⟩], .fields⟩,
  -- MEM0.ERR_ADDR_LO
  ⟨0x40, [],
    [⟨31, 0, .ro, 0, .all⟩], .fields⟩,
  -- MEM0.ERR_ADDR_HI
  ⟨0x44, [],
    [⟨2, 0, .ro, 0, .all⟩], .fields⟩,
  -- MEM0.ERR_INFO
  ⟨0x48, [],
    [⟨31, 31, .ro, 0, .all⟩,
     ⟨20, 16, .ro, 0, .all⟩,
     ⟨7, 0, .ro, 0, .all⟩], .fields⟩,
  -- MEM0.QUEUE
  ⟨0x50, [],
    [⟨22, 16, .ro, 0, .all⟩,
     ⟨6, 0, .ro, 0, .all⟩], .fields⟩,
  -- MEM0.LAT_MAX
  ⟨0x54, [],
    [⟨15, 0, .ro, 0, .all⟩], .fields⟩]

/-- Registers of MEM1 (15_memory_system.md). -/
def regsMem1 : List RegDesc := [
  -- MEM1.CTRL
  ⟨0x0, [],
    [⟨2, 2, .rws, 0, .all⟩,
     ⟨1, 1, .rws, 0, .all⟩,
     ⟨0, 0, .wo, 0, .all⟩], .fields⟩,
  -- MEM1.CFG
  ⟨0x4, [],
    [⟨2, 2, .rwb, 1, .all⟩,
     ⟨1, 1, .rwb, 1, .all⟩,
     ⟨0, 0, .rwb, 0, .all⟩], .fields⟩,
  -- MEM1.STATUS
  ⟨0x8, [],
    [⟨21, 16, .ro, 0, .all⟩,
     ⟨9, 8, .ro, 2, .all⟩,
     ⟨6, 4, .ro, 0, .all⟩,
     ⟨3, 3, .ro, 0, .all⟩,
     ⟨1, 1, .ro, 0, .all⟩,
     ⟨0, 0, .ro, 0, .all⟩], .fields⟩,
  -- MEM1.RETRAIN
  ⟨0xc, [],
    [⟨15, 0, .rws, 0x12c, (.range 1 65535)⟩], .fields⟩,
  -- MEM1.PWR
  ⟨0x10, [],
    [⟨31, 16, .rws, 0x3e8, (.range 1 65535)⟩,
     ⟨15, 0, .rws, 0x100, (.range 16 65535)⟩], .fields⟩,
  -- MEM1.TIMING
  ⟨0x14, [],
    [⟨23, 16, .ro, 0, .all⟩,
     ⟨15, 8, .ro, 0, .all⟩,
     ⟨7, 0, .ro, 0, .all⟩], .fields⟩,
  -- MEM1.CNT
  ⟨0x20, [(6, 0x4)],
    [⟨31, 0, .ro, 0, .all⟩], .fields⟩,
  -- MEM1.ERR_ADDR_LO
  ⟨0x40, [],
    [⟨31, 0, .ro, 0, .all⟩], .fields⟩,
  -- MEM1.ERR_ADDR_HI
  ⟨0x44, [],
    [⟨2, 0, .ro, 0, .all⟩], .fields⟩,
  -- MEM1.ERR_INFO
  ⟨0x48, [],
    [⟨31, 31, .ro, 0, .all⟩,
     ⟨20, 16, .ro, 0, .all⟩,
     ⟨7, 0, .ro, 0, .all⟩], .fields⟩,
  -- MEM1.QUEUE
  ⟨0x50, [],
    [⟨22, 16, .ro, 0, .all⟩,
     ⟨6, 0, .ro, 0, .all⟩], .fields⟩,
  -- MEM1.LAT_MAX
  ⟨0x54, [],
    [⟨15, 0, .ro, 0, .all⟩], .fields⟩]

/-- Registers of PMC (20_power_reset_and_balls.md). -/
def regsPmc : List RegDesc := [
  -- PMC.STATUS
  ⟨0x0, [],
    [⟨15, 12, .ro, 0, .all⟩,
     ⟨8, 8, .ro, 0, .all⟩,
     ⟨7, 7, .ro, 0, .all⟩,
     ⟨6, 6, .ro, 0, .all⟩,
     ⟨5, 5, .w1c, 0, .all⟩,
     ⟨2, 0, .ro, 0, .all⟩], .fields⟩,
  -- PMC.STRAPS
  ⟨0x4, [],
    [⟨2, 2, .ro, 0, .all⟩,
     ⟨1, 1, .ro, 0, .all⟩,
     ⟨0, 0, .ro, 0, .all⟩], .fields⟩,
  -- PMC.LAST_FAULT
  ⟨0x8, [],
    [⟨31, 24, .ro, 0, .all⟩,
     ⟨11, 8, .ro, 0, .all⟩,
     ⟨2, 0, .ro, 0, .all⟩], .fields⟩,
  -- PMC.TELEMETRY
  ⟨0xc, [],
    [⟨8, 8, .rws, 1, .all⟩,
     ⟨7, 0, .rws, 0xa, (.range 1 255)⟩], .fields⟩,
  -- PMC.THERM_COUNT
  ⟨0x10, [],
    [⟨31, 0, .ro, 0, .all⟩], .fields⟩,
  -- PMC.THERM
  ⟨0x100, [(8, 0x4)],
    [⟨31, 16, .ro, 0x8000, .all⟩,
     ⟨15, 0, .ro, 0x8000, .all⟩], .fields⟩,
  -- PMC.RAIL_STATUS
  ⟨0x200, [(10, 0x10)],
    [⟨31, 16, .ro, 0, .all⟩,
     ⟨2, 2, .ro, 0, .all⟩,
     ⟨1, 1, .ro, 0, .all⟩,
     ⟨0, 0, .ro, 0, .all⟩], .fields⟩,
  -- PMC.RAIL_MEAS
  ⟨0x204, [(10, 0x10)],
    [⟨31, 16, .ro, 0, .all⟩,
     ⟨15, 0, .ro, 0, .all⟩], .fields⟩,
  -- PMC.RAIL_IMAX
  ⟨0x208, [(10, 0x10)],
    [⟨15, 0, .ro, 0, .all⟩], .fields⟩]

/-- Registers of ERR (19_faults_limits_lifecycle.md). -/
def regsErr : List RegDesc := [
  -- ERR.CTRL
  ⟨0x0, [],
    [⟨0, 0, .rws, 1, .all⟩], .fields⟩,
  -- ERR.STATUS
  ⟨0x4, [],
    [⟨3, 3, .ro, 0, .all⟩,
     ⟨2, 2, .w1c, 0, .all⟩,
     ⟨1, 1, .w1c, 0, .all⟩,
     ⟨0, 0, .w1c, 0, .all⟩], .fields⟩,
  -- ERR.FATAL
  ⟨0x8, [],
    [⟨31, 16, .ro, 0, .all⟩,
     ⟨15, 0, .ro, 0, .all⟩], .fields⟩,
  -- ERR.HEAD
  ⟨0xc, [],
    [⟨7, 0, .ro, 0, .all⟩], .fields⟩,
  -- ERR.NEXT_SEQ
  ⟨0x10, [],
    [⟨31, 0, .ro, 0, .all⟩], .fields⟩,
  -- ERR.OVERWRITE
  ⟨0x14, [],
    [⟨31, 0, .ro, 0, .all⟩], .fields⟩,
  -- ERR.MIRROR_DROP
  ⟨0x18, [],
    [⟨31, 0, .ro, 0, .all⟩], .fields⟩,
  -- ERR.MIRROR_WAIT
  ⟨0x1c, [],
    [⟨6, 0, .ro, 0, .all⟩], .fields⟩,
  -- ERR.CLASS_COUNT
  ⟨0x20, [(4, 0x4)],
    [⟨31, 0, .ro, 0, .all⟩], .fields⟩,
  -- ERR.LOG
  ⟨0x1000, [(256, 0x20), (8, 0x4)],
    [⟨31, 0, .ro, 0, .all⟩], .fields⟩,
  -- ERR.MIRROR
  ⟨0x3000, [(64, 0x20), (8, 0x4)],
    [⟨31, 0, .ro, 0, .all⟩], .fields⟩]

/-- Registers of PERF (18_management_and_registers.md). -/
def regsPerf : List RegDesc := [
  -- PERF.CTRL
  ⟨0x0, [],
    [⟨1, 1, .rws, 0, .all⟩,
     ⟨0, 0, .rws, 0, .all⟩], .fields⟩,
  -- PERF.FREEZE
  ⟨0x4, [],
    [⟨2, 2, .wo, 0, .all⟩,
     ⟨1, 1, .wo, 0, .all⟩,
     ⟨0, 0, .wo, 0, .all⟩], .fields⟩,
  -- PERF.STATUS
  ⟨0x8, [],
    [⟨1, 1, .ro, 0, .all⟩,
     ⟨0, 0, .ro, 0, .all⟩], .fields⟩,
  -- PERF.FROZEN_EPOCH_LO
  ⟨0x10, [],
    [⟨31, 0, .ro, 0, .all⟩], .fields⟩,
  -- PERF.FROZEN_EPOCH_HI
  ⟨0x14, [],
    [⟨15, 0, .ro, 0, .all⟩], .fields⟩,
  -- PERF.CYCLE_LO
  ⟨0x1000, [(81, 0x100)],
    [⟨31, 0, .ro, 0, .all⟩], .fields⟩,
  -- PERF.CYCLE_HI
  ⟨0x1004, [(81, 0x100)],
    [⟨31, 0, .ro, 0, .all⟩], .fields⟩,
  -- PERF.OVF
  ⟨0x1008, [(81, 0x100)],
    [⟨7, 0, .w1c, 0, .all⟩], .fields⟩,
  -- PERF.CNT_LO
  ⟨0x1010, [(81, 0x100), (8, 0x8)],
    [⟨31, 0, .ro, 0, .all⟩], .fields⟩,
  -- PERF.CNT_HI
  ⟨0x1014, [(81, 0x100), (8, 0x8)],
    [⟨15, 0, .ro, 0, .all⟩], .fields⟩,
  -- PERF.EVSEL
  ⟨0x1080, [(81, 0x100), (8, 0x4)],
    [⟨8, 8, .rws, 0, .all⟩,
     ⟨7, 0, .rws, 0, .all⟩], .fields⟩]

/-- Registers of LCS (19_faults_limits_lifecycle.md). -/
def regsLcs : List RegDesc := [
  -- LCS.STATE
  ⟨0x0, [],
    [⟨4, 4, .ro, 0, .all⟩,
     ⟨1, 0, .ro, 0, .all⟩], .fields⟩,
  -- LCS.KEYS
  ⟨0x4, [],
    [⟨7, 4, .ro, 0, .all⟩,
     ⟨3, 0, .ro, 0, .all⟩], .fields⟩,
  -- LCS.KEY_HASH
  ⟨0x100, [(4, 0x20), (8, 0x4)],
    [⟨31, 0, .ro, 0, .all⟩], .fields⟩,
  -- LCS.FUSE_HASH
  ⟨0x200, [(8, 0x4)],
    [⟨31, 0, .wo, 0, .all⟩], .fields⟩,
  -- LCS.FUSE_CMD
  ⟨0x220, [],
    [⟨9, 9, .wo, 0, .all⟩,
     ⟨8, 8, .wo, 0, .all⟩,
     ⟨1, 0, .wo, 0, .all⟩], .fields⟩,
  -- LCS.AUTH
  ⟨0x300, [(24, 0x4)],
    [⟨31, 0, .wo, 0, .all⟩], .fields⟩,
  -- LCS.REQUEST
  ⟨0x400, [],
    [⟨1, 0, .wo, 0, .all⟩], .fields⟩,
  -- LCS.RESULT
  ⟨0x404, [],
    [⟨3, 0, .ro, 0, .all⟩], .fields⟩]

/-- Registers of NVM (17_boot_and_image.md). -/
def regsNvm : List RegDesc := [
  -- NVM.STATUS
  ⟨0x0, [],
    [⟨9, 8, .ro, 0, .all⟩,
     ⟨5, 5, .ro, 0, .all⟩,
     ⟨4, 4, .w1c, 0, .all⟩,
     ⟨3, 3, .ro, 0, .all⟩,
     ⟨2, 2, .ro, 0, .all⟩,
     ⟨0, 0, .ro, 0, .all⟩], .fields⟩,
  -- NVM.GEN_A
  ⟨0x4, [],
    [⟨31, 0, .ro, 0, .all⟩], .fields⟩,
  -- NVM.GEN_B
  ⟨0x8, [],
    [⟨31, 0, .ro, 0, .all⟩], .fields⟩,
  -- NVM.RUN_GEN
  ⟨0xc, [],
    [⟨31, 0, .ro, 0, .all⟩], .fields⟩,
  -- NVM.RUN_CRC
  ⟨0x10, [],
    [⟨31, 0, .ro, 0, .all⟩], .fields⟩,
  -- NVM.BOOT_RECORD
  ⟨0x14, [],
    [⟨1, 0, .ro, 0, .all⟩], .fields⟩,
  -- NVM.CONFIRMED_GEN
  ⟨0x18, [],
    [⟨31, 0, .ro, 0, .all⟩], .fields⟩,
  -- NVM.FAILED_GEN
  ⟨0x1c, [],
    [⟨31, 0, .ro, 0, .all⟩], .fields⟩,
  -- NVM.BOOT_MS
  ⟨0x20, [],
    [⟨15, 0, .ro, 0, .all⟩], .fields⟩,
  -- NVM.CONFIRM
  ⟨0x24, [],
    [⟨0, 0, .wo, 0, .all⟩], .fields⟩,
  -- NVM.RELOAD
  ⟨0x30, [],
    [⟨1, 1, .wo, 0, .all⟩,
     ⟨0, 0, .wo, 0, .all⟩], .fields⟩,
  -- NVM.RELOAD_STATUS
  ⟨0x34, [],
    [⟨31, 16, .ro, 0, .all⟩,
     ⟨13, 8, .ro, 0, .all⟩,
     ⟨3, 0, .ro, 0, .all⟩], .fields⟩]

/-- Registers of SVC (18_management_and_registers.md). -/
def regsSvc : List RegDesc := [
  -- SVC.STATUS
  ⟨0x0, [],
    [⟨11, 8, .ro, 0, .all⟩,
     ⟨7, 4, .ro, 0, .all⟩,
     ⟨3, 3, .ro, 0, .all⟩], .fields⟩,
  -- SVC.MDP_CFG
  ⟨0x4, [],
    [⟨15, 0, .rws, 0x3c, (.range 1 65535)⟩], .fields⟩,
  -- SVC.MDP_CNT
  ⟨0x10, [(8, 0x4)],
    [⟨31, 0, .ro, 0, .all⟩], .fields⟩,
  -- SVC.SPI_CNT
  ⟨0x40, [(3, 0x4)],
    [⟨31, 0, .ro, 0, .all⟩], .fields⟩]

/-- The registers of block n of Table 18-2 (R394). -/
def blockRegs (n : Nat) : List RegDesc :=
  match n with
  | 0 => regsSys
  | 1 => regsEpc
  | 2 => regsClk
  | 3 => regsPtpi
  | 4 => regsPtpo
  | 5 => regsNeti
  | 6 => regsNeto
  | 7 => regsMgt
  | 8 => regsTwn
  | 9 => regsSap
  | 10 => regsGraph
  | 11 => regsCnd
  | 12 => regsObj
  | 13 => regsGeo
  | 14 => regsXp
  | 15 => regsRc
  | 16 => regsVec
  | 17 => regsWd
  | 18 => regsEvt
  | 19 => regsXbar
  | 20 => regsMem0
  | 21 => regsMem1
  | 22 => regsPmc
  | 23 => regsErr
  | 24 => regsPerf
  | 25 => regsLcs
  | 26 => regsNvm
  | 27 => regsSvc
  | _ => []

/-- Number of block SYS (Table 18-2). -/
abbrev blkSys : Nat := 0
/-- Number of block EPC (Table 18-2). -/
abbrev blkEpc : Nat := 1
/-- Number of block CLK (Table 18-2). -/
abbrev blkClk : Nat := 2
/-- Number of block PTPI (Table 18-2). -/
abbrev blkPtpi : Nat := 3
/-- Number of block PTPO (Table 18-2). -/
abbrev blkPtpo : Nat := 4
/-- Number of block NETI (Table 18-2). -/
abbrev blkNeti : Nat := 5
/-- Number of block NETO (Table 18-2). -/
abbrev blkNeto : Nat := 6
/-- Number of block MGT (Table 18-2). -/
abbrev blkMgt : Nat := 7
/-- Number of block TWN (Table 18-2). -/
abbrev blkTwn : Nat := 8
/-- Number of block SAP (Table 18-2). -/
abbrev blkSap : Nat := 9
/-- Number of block GRAPH (Table 18-2). -/
abbrev blkGraph : Nat := 10
/-- Number of block CND (Table 18-2). -/
abbrev blkCnd : Nat := 11
/-- Number of block OBJ (Table 18-2). -/
abbrev blkObj : Nat := 12
/-- Number of block GEO (Table 18-2). -/
abbrev blkGeo : Nat := 13
/-- Number of block XP (Table 18-2). -/
abbrev blkXp : Nat := 14
/-- Number of block RC (Table 18-2). -/
abbrev blkRc : Nat := 15
/-- Number of block VEC (Table 18-2). -/
abbrev blkVec : Nat := 16
/-- Number of block WD (Table 18-2). -/
abbrev blkWd : Nat := 17
/-- Number of block EVT (Table 18-2). -/
abbrev blkEvt : Nat := 18
/-- Number of block XBAR (Table 18-2). -/
abbrev blkXbar : Nat := 19
/-- Number of block MEM0 (Table 18-2). -/
abbrev blkMem0 : Nat := 20
/-- Number of block MEM1 (Table 18-2). -/
abbrev blkMem1 : Nat := 21
/-- Number of block PMC (Table 18-2). -/
abbrev blkPmc : Nat := 22
/-- Number of block ERR (Table 18-2). -/
abbrev blkErr : Nat := 23
/-- Number of block PERF (Table 18-2). -/
abbrev blkPerf : Nat := 24
/-- Number of block LCS (Table 18-2). -/
abbrev blkLcs : Nat := 25
/-- Number of block NVM (Table 18-2). -/
abbrev blkNvm : Nat := 26
/-- Number of block SVC (Table 18-2). -/
abbrev blkSvc : Nat := 27

/-- SYS.DEVICE_ID. -/
abbrev offSysDeviceId : Nat := 0x0
/-- SYS.REVISION. -/
abbrev offSysRevision : Nat := 0x4
/-- SYS.UID_LO. -/
abbrev offSysUidLo : Nat := 0x8
/-- SYS.UID_HI. -/
abbrev offSysUidHi : Nat := 0xc
/-- SYS.RATE. -/
abbrev offSysRate : Nat := 0x10
/-- SYS.CAPS. -/
abbrev offSysCaps (k : Nat) : Nat := 0x100 + 0x4 * k
/-- EPC.CTRL. -/
abbrev offEpcCtrl : Nat := 0x100000
/-- EPC.STATUS. -/
abbrev offEpcStatus : Nat := 0x100004
/-- EPC.SNAP_EPOCH. -/
abbrev offEpcSnapEpoch : Nat := 0x100010
/-- EPC.SNAP_EPOCH_HI. -/
abbrev offEpcSnapEpochHi : Nat := 0x100014
/-- EPC.COMMIT_AT_LO. -/
abbrev offEpcCommitAtLo : Nat := 0x100020
/-- EPC.COMMIT_AT_HI. -/
abbrev offEpcCommitAtHi : Nat := 0x100024
/-- EPC.COMMIT_NEXT. -/
abbrev offEpcCommitNext : Nat := 0x100028
/-- EPC.COMMIT_CANCEL. -/
abbrev offEpcCommitCancel : Nat := 0x10002c
/-- EPC.COMMIT_TARGET_LO. -/
abbrev offEpcCommitTargetLo : Nat := 0x100030
/-- EPC.COMMIT_TARGET_HI. -/
abbrev offEpcCommitTargetHi : Nat := 0x100034
/-- EPC.COMMIT_STATUS. -/
abbrev offEpcCommitStatus : Nat := 0x100038
/-- EPC.COMMIT_COUNT. -/
abbrev offEpcCommitCount : Nat := 0x10003c
/-- EPC.APPLIED_EPOCH_LO. -/
abbrev offEpcAppliedEpochLo : Nat := 0x100040
/-- EPC.APPLIED_EPOCH_HI. -/
abbrev offEpcAppliedEpochHi : Nat := 0x100044
/-- EPC.STATIC_REJECT_COUNT. -/
abbrev offEpcStaticRejectCount : Nat := 0x100048
/-- EPC.STATIC_REJECT_ADDR. -/
abbrev offEpcStaticRejectAddr : Nat := 0x10004c
/-- CLK.STATUS. -/
abbrev offClkStatus : Nat := 0x200004
/-- CLK.REFSEL. -/
abbrev offClkRefsel : Nat := 0x200008
/-- CLK.TUNE_CFG. -/
abbrev offClkTuneCfg : Nat := 0x200010
/-- CLK.TUNE_PULL. -/
abbrev offClkTunePull : Nat := 0x200014
/-- CLK.TUNE_CODE. -/
abbrev offClkTuneCode : Nat := 0x200018
/-- CLK.SYNC. -/
abbrev offClkSync : Nat := 0x20001c
/-- CLK.FAILOVER_COUNT. -/
abbrev offClkFailoverCount : Nat := 0x200020
/-- CLK.PLL_CTRL. -/
abbrev offClkPllCtrl (p : Nat) : Nat := 0x200100 + 0x20 * p
/-- CLK.PLL_RATIO. -/
abbrev offClkPllRatio (p : Nat) : Nat := 0x200104 + 0x20 * p
/-- CLK.PLL_STATUS. -/
abbrev offClkPllStatus (p : Nat) : Nat := 0x200108 + 0x20 * p
/-- CLK.AOUT. -/
abbrev offClkAout (r : Nat) : Nat := 0x200200 + 0x4 * r
/-- PTPx.CTRL. -/
abbrev offPtpCtrl (x : Nat) : Nat := (x + 3) * 0x100000 + 0x0
/-- PTPx.DOMAIN. -/
abbrev offPtpDomain (x : Nat) : Nat := (x + 3) * 0x100000 + 0x4
/-- PTPx.INTERVALS. -/
abbrev offPtpIntervals (x : Nat) : Nat := (x + 3) * 0x100000 + 0x8
/-- PTPx.QUAL. -/
abbrev offPtpQual (x : Nat) : Nat := (x + 3) * 0x100000 + 0xc
/-- PTPx.QOS. -/
abbrev offPtpQos (x : Nat) : Nat := (x + 3) * 0x100000 + 0x10
/-- PTPx.ASYM. -/
abbrev offPtpAsym (x r : Nat) : Nat := (x + 3) * 0x100000 + 0x20 + 0x4 * r
/-- PTPx.DELAY_ASYM. -/
abbrev offPtpDelayAsym (x : Nat) : Nat := (x + 3) * 0x100000 + 0x30
/-- PTPx.STATUS. -/
abbrev offPtpStatus (x : Nat) : Nat := (x + 3) * 0x100000 + 0x100
/-- PTPx.GM_ID_LO. -/
abbrev offPtpGmIdLo (x : Nat) : Nat := (x + 3) * 0x100000 + 0x104
/-- PTPx.GM_ID_HI. -/
abbrev offPtpGmIdHi (x : Nat) : Nat := (x + 3) * 0x100000 + 0x108
/-- PTPx.GM_QUALITY. -/
abbrev offPtpGmQuality (x : Nat) : Nat := (x + 3) * 0x100000 + 0x10c
/-- PTPx.OFFSET_LO. -/
abbrev offPtpOffsetLo (x : Nat) : Nat := (x + 3) * 0x100000 + 0x110
/-- PTPx.OFFSET_HI. -/
abbrev offPtpOffsetHi (x : Nat) : Nat := (x + 3) * 0x100000 + 0x114
/-- PTPx.PATH_DELAY. -/
abbrev offPtpPathDelay (x : Nat) : Nat := (x + 3) * 0x100000 + 0x118
/-- PTPx.CNT. -/
abbrev offPtpCnt (x k : Nat) : Nat := (x + 3) * 0x100000 + 0x200 + 0x4 * k
/-- PTPI.SERVO_CFG. -/
abbrev offPtpiServoCfg : Nat := 0x300400
/-- PTPI.SERVO_SWITCH. -/
abbrev offPtpiServoSwitch : Nat := 0x300404
/-- PTPI.SERVO_CTRL. -/
abbrev offPtpiServoCtrl : Nat := 0x300408
/-- PTPI.SERVO_STATUS. -/
abbrev offPtpiServoStatus : Nat := 0x300410
/-- PTPI.SERVO_FREQ. -/
abbrev offPtpiServoFreq : Nat := 0x300414
/-- PTPI.SERVO_RESID_LO. -/
abbrev offPtpiServoResidLo : Nat := 0x300418
/-- PTPI.SERVO_RESID_HI. -/
abbrev offPtpiServoResidHi : Nat := 0x30041c
/-- PTPI.SERVO_SWITCH_COUNT. -/
abbrev offPtpiServoSwitchCount : Nat := 0x300420
/-- NETx.CTRL. -/
abbrev offNetCtrl (x : Nat) : Nat := (x + 5) * 0x100000 + 0x0
/-- NETx.STATUS. -/
abbrev offNetStatus (x : Nat) : Nat := (x + 5) * 0x100000 + 0x4
/-- NETx.STEP. -/
abbrev offNetStep (x : Nat) : Nat := (x + 5) * 0x100000 + 0x8
/-- NETx.LOAD. -/
abbrev offNetLoad (x : Nat) : Nat := (x + 5) * 0x100000 + 0xc
/-- NETx.MAC_LO. -/
abbrev offNetMacLo (x : Nat) : Nat := (x + 5) * 0x100000 + 0x10
/-- NETx.MAC_HI. -/
abbrev offNetMacHi (x : Nat) : Nat := (x + 5) * 0x100000 + 0x14
/-- NETx.IPV4. -/
abbrev offNetIpv4 (x : Nat) : Nat := (x + 5) * 0x100000 + 0x18
/-- NETx.IPV6. -/
abbrev offNetIpv6 (x w : Nat) : Nat := (x + 5) * 0x100000 + 0x20 + 0x4 * w
/-- NETx.VLAN. -/
abbrev offNetVlan (x v : Nat) : Nat := (x + 5) * 0x100000 + 0x40 + 0x4 * v
/-- NETx.TX_STALE. -/
abbrev offNetTxStale (x : Nat) : Nat := (x + 5) * 0x100000 + 0x80
/-- NETx.CNT. -/
abbrev offNetCnt (x k : Nat) : Nat := (x + 5) * 0x100000 + 0x100 + 0x4 * k
/-- NETx.PFC_CNT. -/
abbrev offNetPfcCnt (x q : Nat) : Nat := (x + 5) * 0x100000 + 0x140 + 0x4 * q
/-- NETx.RXS_CFG. -/
abbrev offNetRxsCfg (x s : Nat) : Nat := (x + 5) * 0x100000 + 0x10000 + 0x40 * s
/-- NETx.RXS_MAP. -/
abbrev offNetRxsMap (x s : Nat) : Nat := (x + 5) * 0x100000 + 0x10004 + 0x40 * s
/-- NETx.RXS_PORT. -/
abbrev offNetRxsPort (x s : Nat) : Nat := (x + 5) * 0x100000 + 0x10008 + 0x40 * s
/-- NETx.RXS_SSRC. -/
abbrev offNetRxsSsrc (x s : Nat) : Nat := (x + 5) * 0x100000 + 0x1000c + 0x40 * s
/-- NETx.RXS_DST. -/
abbrev offNetRxsDst (x s w : Nat) : Nat := (x + 5) * 0x100000 + 0x10010 + 0x40 * s + 0x4 * w
/-- NETx.RXS_SRC. -/
abbrev offNetRxsSrc (x s w : Nat) : Nat := (x + 5) * 0x100000 + 0x10020 + 0x40 * s + 0x4 * w
/-- NETx.RXS_STAT. -/
abbrev offNetRxsStat (x s : Nat) : Nat := (x + 5) * 0x100000 + 0x10030 + 0x40 * s
/-- NETx.RXS_CNT. -/
abbrev offNetRxsCnt (x s k : Nat) : Nat := (x + 5) * 0x100000 + 0x20000 + 0x20 * s + 0x4 * k
/-- NETx.TXS_CFG. -/
abbrev offNetTxsCfg (x t : Nat) : Nat := (x + 5) * 0x100000 + 0x30000 + 0x40 * t
/-- NETx.TXS_MAP. -/
abbrev offNetTxsMap (x t : Nat) : Nat := (x + 5) * 0x100000 + 0x30004 + 0x40 * t
/-- NETx.TXS_PORTS. -/
abbrev offNetTxsPorts (x t : Nat) : Nat := (x + 5) * 0x100000 + 0x30008 + 0x40 * t
/-- NETx.TXS_SSRC. -/
abbrev offNetTxsSsrc (x t : Nat) : Nat := (x + 5) * 0x100000 + 0x3000c + 0x40 * t
/-- NETx.TXS_DST. -/
abbrev offNetTxsDst (x t w : Nat) : Nat := (x + 5) * 0x100000 + 0x30010 + 0x40 * t + 0x4 * w
/-- NETx.TXS_DMAC_LO. -/
abbrev offNetTxsDmacLo (x t : Nat) : Nat := (x + 5) * 0x100000 + 0x30020 + 0x40 * t
/-- NETx.TXS_DMAC_HI. -/
abbrev offNetTxsDmacHi (x t : Nat) : Nat := (x + 5) * 0x100000 + 0x30024 + 0x40 * t
/-- NETx.TXS_TTL. -/
abbrev offNetTxsTtl (x t : Nat) : Nat := (x + 5) * 0x100000 + 0x30028 + 0x40 * t
/-- NETx.TXS_PACKETS. -/
abbrev offNetTxsPackets (x t : Nat) : Nat := (x + 5) * 0x100000 + 0x30030 + 0x40 * t
/-- NETx.TXS_DROPPED. -/
abbrev offNetTxsDropped (x t : Nat) : Nat := (x + 5) * 0x100000 + 0x30034 + 0x40 * t
/-- NETx.TXMAP. -/
abbrev offNetTxmap (x m : Nat) : Nat := (x + 5) * 0x100000 + 0x40000 + 0x4 * m
/-- MGT.CTRL. -/
abbrev offMgtCtrl : Nat := 0x700000
/-- MGT.STATUS. -/
abbrev offMgtStatus : Nat := 0x700004
/-- MGT.MAC_LO. -/
abbrev offMgtMacLo : Nat := 0x700010
/-- MGT.MAC_HI. -/
abbrev offMgtMacHi : Nat := 0x700014
/-- MGT.IPV4. -/
abbrev offMgtIpv4 : Nat := 0x700018
/-- MGT.IPV6. -/
abbrev offMgtIpv6 (w : Nat) : Nat := 0x700020 + 0x4 * w
/-- MGT.UDP_PORT. -/
abbrev offMgtUdpPort : Nat := 0x700030
/-- MGT.CNT. -/
abbrev offMgtCnt (k : Nat) : Nat := 0x700100 + 0x4 * k
/-- TWN.CTRL. -/
abbrev offTwnCtrl : Nat := 0x800000
/-- TWN.STATUS. -/
abbrev offTwnStatus : Nat := 0x800004
/-- TWN.HB. -/
abbrev offTwnHb : Nat := 0x800008
/-- TWN.REARM. -/
abbrev offTwnRearm : Nat := 0x80000c
/-- TWN.DIV_COUNT. -/
abbrev offTwnDivCount : Nat := 0x800010
/-- TWN.HB_MISSED. -/
abbrev offTwnHbMissed : Nat := 0x800014
/-- TWN.DIV_FIRST_LO. -/
abbrev offTwnDivFirstLo : Nat := 0x800018
/-- TWN.DIV_FIRST_HI. -/
abbrev offTwnDivFirstHi : Nat := 0x80001c
/-- TWN.DIV_INFO. -/
abbrev offTwnDivInfo : Nat := 0x800020
/-- TWN.LANE_CRC. -/
abbrev offTwnLaneCrc (k : Nat) : Nat := 0x800024 + 0x4 * k
/-- TWN.PEER_IMAGE_LO. -/
abbrev offTwnPeerImageLo : Nat := 0x800030
/-- TWN.PEER_IMAGE_HI. -/
abbrev offTwnPeerImageHi : Nat := 0x800034
/-- TWN.JOIN_CFG. -/
abbrev offTwnJoinCfg : Nat := 0x800040
/-- TWN.JOIN_STATUS. -/
abbrev offTwnJoinStatus : Nat := 0x800044
/-- TWN.MOON_REQ_LO. -/
abbrev offTwnMoonReqLo : Nat := 0x800100
/-- TWN.MOON_REQ_HI. -/
abbrev offTwnMoonReqHi : Nat := 0x800104
/-- TWN.MOON_STATUS. -/
abbrev offTwnMoonStatus : Nat := 0x800108
/-- TWN.MOON_COUNT. -/
abbrev offTwnMoonCount : Nat := 0x80010c
/-- TWN.PATROL. -/
abbrev offTwnPatrol : Nat := 0x800110
/-- TWN.PATROL_STATUS. -/
abbrev offTwnPatrolStatus : Nat := 0x800114
/-- SAP.CTRL. -/
abbrev offSapCtrl : Nat := 0x900000
/-- SAP.STATUS. -/
abbrev offSapStatus : Nat := 0x900004
/-- SAP.SLOTS_IN_USE. -/
abbrev offSapSlotsInUse : Nat := 0x900008
/-- SAP.FOLLOW. -/
abbrev offSapFollow : Nat := 0x900010
/-- SAP.FOLLOW_STATUS. -/
abbrev offSapFollowStatus : Nat := 0x900014
/-- SAP.FOLLOW_FREQ. -/
abbrev offSapFollowFreq : Nat := 0x900018
/-- SAP.PORT_CFG. -/
abbrev offSapPortCfg (p : Nat) : Nat := 0x901000 + 0x40 * p
/-- SAP.MASK_IN. -/
abbrev offSapMaskIn (p : Nat) : Nat := 0x901004 + 0x40 * p
/-- SAP.MASK_OUT. -/
abbrev offSapMaskOut (p : Nat) : Nat := 0x901008 + 0x40 * p
/-- SAP.PORT_ZC. -/
abbrev offSapPortZc (p : Nat) : Nat := 0x90100c + 0x40 * p
/-- SAP.PORT_RATIO. -/
abbrev offSapPortRatio (p : Nat) : Nat := 0x901010 + 0x40 * p
/-- SAP.PORT_STATUS. -/
abbrev offSapPortStatus (p : Nat) : Nat := 0x901014 + 0x40 * p
/-- SAP.UNDERRUN_COUNT. -/
abbrev offSapUnderrunCount (p : Nat) : Nat := 0x901018 + 0x40 * p
/-- SAP.OVERRUN_COUNT. -/
abbrev offSapOverrunCount (p : Nat) : Nat := 0x90101c + 0x40 * p
/-- GRAPH.CTRL. -/
abbrev offGraphCtrl : Nat := 0xa00000
/-- GRAPH.STATUS. -/
abbrev offGraphStatus : Nat := 0xa00004
/-- GRAPH.ZC. -/
abbrev offGraphZc : Nat := 0xa00008
/-- GRAPH.CLIP_COUNT. -/
abbrev offGraphClipCount : Nat := 0xa00010
/-- GRAPH.TGEN_CFG. -/
abbrev offGraphTgenCfg (g : Nat) : Nat := 0xa00100 + 0x10 * g
/-- GRAPH.TGEN_F1. -/
abbrev offGraphTgenF1 (g : Nat) : Nat := 0xa00104 + 0x10 * g
/-- GRAPH.TGEN_F2. -/
abbrev offGraphTgenF2 (g : Nat) : Nat := 0xa00108 + 0x10 * g
/-- GRAPH.TGEN_LEN. -/
abbrev offGraphTgenLen (g : Nat) : Nat := 0xa0010c + 0x10 * g
/-- GRAPH.ISEL. -/
abbrev offGraphIsel (n : Nat) : Nat := 0xa01000 + 0x4 * n
/-- GRAPH.OSEL. -/
abbrev offGraphOsel (n : Nat) : Nat := 0xa05000 + 0x4 * n
/-- GRAPH.ITRIM. -/
abbrev offGraphItrim (n : Nat) : Nat := 0xa03000 + 0x4 * n
/-- GRAPH.OTRIM. -/
abbrev offGraphOtrim (n : Nat) : Nat := 0xa08000 + 0x4 * n
/-- GRAPH.SODEST. -/
abbrev offGraphSodest (m : Nat) : Nat := 0xa07000 + 0x4 * m
/-- GRAPH.ST_CFG. -/
abbrev offGraphStCfg (p : Nat) : Nat := 0xa0a000 + 0x10 * p
/-- GRAPH.ST_GAIN. -/
abbrev offGraphStGain (p : Nat) : Nat := 0xa0a004 + 0x10 * p
/-- GRAPH.ST_STATUS. -/
abbrev offGraphStStatus (p : Nat) : Nat := 0xa0a008 + 0x10 * p
/-- CND.CTRL. -/
abbrev offCndCtrl : Nat := 0xb00000
/-- CND.STATUS. -/
abbrev offCndStatus : Nat := 0xb00004
/-- CND.UNSETTLED_NOW. -/
abbrev offCndUnsettledNow : Nat := 0xb00010
/-- CND.RESET_COUNT. -/
abbrev offCndResetCount : Nat := 0xb00014
/-- CND.SLOT_CFG. -/
abbrev offCndSlotCfg (n : Nat) : Nat := 0xb01000 + 0x4 * n
/-- CND.SLOT_STATUS. -/
abbrev offCndSlotStatus (n : Nat) : Nat := 0xb03000 + 0x4 * n
/-- CND.DC_EST. -/
abbrev offCndDcEst (n : Nat) : Nat := 0xb05000 + 0x4 * n
/-- OBJ.CTRL. -/
abbrev offObjCtrl : Nat := 0xc00000
/-- OBJ.STATUS. -/
abbrev offObjStatus : Nat := 0xc00004
/-- OBJ.MSRC_CFG. -/
abbrev offObjMsrcCfg (s : Nat) : Nat := 0xc00100 + 0x40 * s
/-- OBJ.MSRC_SCALE. -/
abbrev offObjMsrcScale (s : Nat) : Nat := 0xc00104 + 0x40 * s
/-- OBJ.MSRC_SEQ. -/
abbrev offObjMsrcSeq (s : Nat) : Nat := 0xc00108 + 0x40 * s
/-- OBJ.MSRC_COUNT. -/
abbrev offObjMsrcCount (s k : Nat) : Nat := 0xc00110 + 0x40 * s + 0x4 * k
/-- OBJ.CFG. -/
abbrev offObjCfg (n : Nat) : Nat := 0xc10000 + 0x20 * n
/-- OBJ.MAP. -/
abbrev offObjMap (n : Nat) : Nat := 0xc10004 + 0x20 * n
/-- OBJ.SLEW. -/
abbrev offObjSlew (n : Nat) : Nat := 0xc10008 + 0x20 * n
/-- OBJ.RPOS_X. -/
abbrev offObjRposX (n : Nat) : Nat := 0xc1000c + 0x20 * n
/-- OBJ.RPOS_Y. -/
abbrev offObjRposY (n : Nat) : Nat := 0xc10010 + 0x20 * n
/-- OBJ.RPOS_Z. -/
abbrev offObjRposZ (n : Nat) : Nat := 0xc10014 + 0x20 * n
/-- OBJ.RGAIN. -/
abbrev offObjRgain (n : Nat) : Nat := 0xc10018 + 0x20 * n
/-- OBJ.STAT_X. -/
abbrev offObjStatX (n : Nat) : Nat := 0xc30000 + 0x20 * n
/-- OBJ.STAT_Y. -/
abbrev offObjStatY (n : Nat) : Nat := 0xc30004 + 0x20 * n
/-- OBJ.STAT_Z. -/
abbrev offObjStatZ (n : Nat) : Nat := 0xc30008 + 0x20 * n
/-- OBJ.STAT_GAIN. -/
abbrev offObjStatGain (n : Nat) : Nat := 0xc3000c + 0x20 * n
/-- OBJ.STAT_FLAGS. -/
abbrev offObjStatFlags (n : Nat) : Nat := 0xc30010 + 0x20 * n
/-- OBJ.LAST_APPLY_LO. -/
abbrev offObjLastApplyLo (n : Nat) : Nat := 0xc30014 + 0x20 * n
/-- OBJ.LAST_APPLY_HI. -/
abbrev offObjLastApplyHi (n : Nat) : Nat := 0xc30018 + 0x20 * n
/-- GEO.CTRL. -/
abbrev offGeoCtrl : Nat := 0xd00000
/-- GEO.STATUS. -/
abbrev offGeoStatus : Nat := 0xd00004
/-- GEO.AIR. -/
abbrev offGeoAir : Nat := 0xd00008
/-- GEO.SOUND_C. -/
abbrev offGeoSoundC : Nat := 0xd0000c
/-- GEO.SOUND_K. -/
abbrev offGeoSoundK : Nat := 0xd00010
/-- GEO.PREC. -/
abbrev offGeoPrec : Nat := 0xd00014
/-- GEO.PREC_REF. -/
abbrev offGeoPrecRef : Nat := 0xd00018
/-- GEO.WF. -/
abbrev offGeoWf : Nat := 0xd0001c
/-- GEO.LOAD. -/
abbrev offGeoLoad : Nat := 0xd00020
/-- GEO.LOAD_MAX. -/
abbrev offGeoLoadMax : Nat := 0xd00024
/-- GEO.TABLES. -/
abbrev offGeoTables : Nat := 0xd00028
/-- GEO.AMB. -/
abbrev offGeoAmb (g : Nat) : Nat := 0xd00100 + 0x4 * g
/-- GEO.OBJ_SEGMASK. -/
abbrev offGeoObjSegmask (n : Nat) : Nat := 0xd10000 + 0x10 * n
/-- GEO.OBJ_LAWCFG. -/
abbrev offGeoObjLawcfg (n : Nat) : Nat := 0xd10004 + 0x10 * n
/-- GEO.OBJ_STATUS. -/
abbrev offGeoObjStatus (n : Nat) : Nat := 0xd20000 + 0x10 * n
/-- XP.CTRL. -/
abbrev offXpCtrl : Nat := 0xe00000
/-- XP.STATUS. -/
abbrev offXpStatus : Nat := 0xe00004
/-- XP.POOL_CAP. -/
abbrev offXpPoolCap : Nat := 0xe00008
/-- XP.POOL_USED. -/
abbrev offXpPoolUsed : Nat := 0xe0000c
/-- XP.POOL_REQUESTED. -/
abbrev offXpPoolRequested : Nat := 0xe00010
/-- XP.SHED_CFG. -/
abbrev offXpShedCfg : Nat := 0xe00014
/-- XP.POOL_SHED. -/
abbrev offXpPoolShed : Nat := 0xe00018
/-- XP.SHED_TOTAL. -/
abbrev offXpShedTotal : Nat := 0xe0001c
/-- XP.LANE_END. -/
abbrev offXpLaneEnd : Nat := 0xe00020
/-- XP.LANE_END_MAX. -/
abbrev offXpLaneEndMax : Nat := 0xe00024
/-- XP.FEED_SAT. -/
abbrev offXpFeedSat : Nat := 0xe00028
/-- XP.INTERP. -/
abbrev offXpInterp (f t : Nat) : Nat := 0xe01000 + 0x20 * f + 0x4 * t
/-- XP.BULK. -/
abbrev offXpBulk (n : Nat) : Nat := 0xe04000 + 0x4 * n
/-- XP.OBJ_STATUS. -/
abbrev offXpObjStatus (n : Nat) : Nat := 0xe06000 + 0x4 * n
/-- XP.OBJ_SHED_TOTAL. -/
abbrev offXpObjShedTotal (n : Nat) : Nat := 0xe0c000 + 0x4 * n
/-- RC.CTRL. -/
abbrev offRcCtrl : Nat := 0xf00000
/-- RC.STATUS. -/
abbrev offRcStatus : Nat := 0xf00004
/-- RC.LOAD_A. -/
abbrev offRcLoadA : Nat := 0xf00008
/-- RC.LOAD_B. -/
abbrev offRcLoadB : Nat := 0xf0000c
/-- RC.SWAP_COUNT. -/
abbrev offRcSwapCount : Nat := 0xf00010
/-- RC.SAT_COUNT. -/
abbrev offRcSatCount : Nat := 0xf00014
/-- RC.PINK_NORM. -/
abbrev offRcPinkNorm : Nat := 0xf00018
/-- RC.MGEN_CFG. -/
abbrev offRcMgenCfg (g : Nat) : Nat := 0xf00100 + 0x10 * g
/-- RC.MGEN_F1. -/
abbrev offRcMgenF1 (g : Nat) : Nat := 0xf00104 + 0x10 * g
/-- RC.MGEN_F2. -/
abbrev offRcMgenF2 (g : Nat) : Nat := 0xf00108 + 0x10 * g
/-- RC.MGEN_LEN. -/
abbrev offRcMgenLen (g : Nat) : Nat := 0xf0010c + 0x10 * g
/-- RC.OUTGEN. -/
abbrev offRcOutgen (o : Nat) : Nat := 0xf01000 + 0x4 * o
/-- RC.FEED_STATUS. -/
abbrev offRcFeedStatus (f : Nat) : Nat := 0xf02000 + 0x4 * f
/-- RC.CAP_CTRL. -/
abbrev offRcCapCtrl : Nat := 0xf03000
/-- RC.CAP_LEN. -/
abbrev offRcCapLen : Nat := 0xf03004
/-- RC.CAP_LAGS. -/
abbrev offRcCapLags : Nat := 0xf03008
/-- RC.CAP_BASE. -/
abbrev offRcCapBase : Nat := 0xf0300c
/-- RC.CAP_STATUS. -/
abbrev offRcCapStatus : Nat := 0xf03010
/-- RC.BQ_FEED. -/
abbrev offRcBqFeed (f s c : Nat) : Nat := 0xf40000 + 0x200 * f + 0x20 * s + 0x4 * c
/-- RC.BQ_BUS. -/
abbrev offRcBqBus (b s c : Nat) : Nat := 0xf80000 + 0x100 * b + 0x20 * s + 0x4 * c
/-- VEC.CTRL. -/
abbrev offVecCtrl : Nat := 0x1000000
/-- VEC.STATUS. -/
abbrev offVecStatus : Nat := 0x1000004
/-- VEC.FAULT_COUNT. -/
abbrev offVecFaultCount : Nat := 0x1000008
/-- VEC.CORE_STATE. -/
abbrev offVecCoreState (c : Nat) : Nat := 0x1000100 + 0x4 * c
/-- VEC.FAULT. -/
abbrev offVecFault (c : Nat) : Nat := 0x1000200 + 0x8 * c
/-- VEC.FAULT_PC. -/
abbrev offVecFaultPc (c : Nat) : Nat := 0x1000204 + 0x8 * c
/-- WD.CTRL. -/
abbrev offWdCtrl : Nat := 0x1100000
/-- WD.STATUS. -/
abbrev offWdStatus : Nat := 0x1100004
/-- WD.READY. -/
abbrev offWdReady : Nat := 0x1100008
/-- WD.RUNNING. -/
abbrev offWdRunning : Nat := 0x110000c
/-- WD.DISPATCH_COUNT. -/
abbrev offWdDispatchCount : Nat := 0x1100010
/-- WD.SUBMIT_REFUSED. -/
abbrev offWdSubmitRefused : Nat := 0x1100014
/-- WD.CANCEL. -/
abbrev offWdCancel : Nat := 0x1100020
/-- WD.CANCEL_PROD. -/
abbrev offWdCancelProd : Nat := 0x1100024
/-- WD.SUBMIT. -/
abbrev offWdSubmit (w : Nat) : Nat := 0x1100040 + 0x4 * w
/-- WD.SUBMIT_GO. -/
abbrev offWdSubmitGo : Nat := 0x1100060
/-- WD.CQ_HEAD. -/
abbrev offWdCqHead : Nat := 0x1100070
/-- WD.CQ_OVERWRITE. -/
abbrev offWdCqOverwrite : Nat := 0x1100074
/-- WD.PROD_CFG. -/
abbrev offWdProdCfg (p : Nat) : Nat := 0x1100100 + 0x4 * p
/-- WD.PROD_STATUS. -/
abbrev offWdProdStatus (p : Nat) : Nat := 0x1100200 + 0x4 * p
/-- WD.STAGE_CFG. -/
abbrev offWdStageCfg (s : Nat) : Nat := 0x1100300 + 0x10 * s
/-- WD.STAGE_STATUS. -/
abbrev offWdStageStatus (s : Nat) : Nat := 0x1100304 + 0x10 * s
/-- WD.STAGE_MISS. -/
abbrev offWdStageMiss (s : Nat) : Nat := 0x1100308 + 0x10 * s
/-- WD.STAGE_LAST. -/
abbrev offWdStageLast (s : Nat) : Nat := 0x110030c + 0x10 * s
/-- WD.CQ. -/
abbrev offWdCq (r k : Nat) : Nat := 0x1102000 + 0x10 * r + 0x4 * k
/-- WD.TEMPLATE. -/
abbrev offWdTemplate (t w : Nat) : Nat := 0x1103000 + 0x20 * t + 0x4 * w
/-- WD.GROUP_STATUS. -/
abbrev offWdGroupStatus (g : Nat) : Nat := 0x1104000 + 0x4 * g
/-- EVT.CTRL. -/
abbrev offEvtCtrl : Nat := 0x1200000
/-- EVT.STATUS. -/
abbrev offEvtStatus : Nat := 0x1200004
/-- EVT.PEND_SET. -/
abbrev offEvtPendSet : Nat := 0x1200010
/-- EVT.PEND_CLR. -/
abbrev offEvtPendClr : Nat := 0x1200014
/-- EVT.MASK_SET. -/
abbrev offEvtMaskSet : Nat := 0x1200018
/-- EVT.MASK_CLR. -/
abbrev offEvtMaskClr : Nat := 0x120001c
/-- EVT.COALESCE. -/
abbrev offEvtCoalesce : Nat := 0x1200020
/-- EVT.REROUTE_COUNT. -/
abbrev offEvtRerouteCount : Nat := 0x1200024
/-- EVT.PEND. -/
abbrev offEvtPend (r : Nat) : Nat := 0x1200100 + 0x4 * r
/-- EVT.MASK. -/
abbrev offEvtMask (r : Nat) : Nat := 0x1200180 + 0x4 * r
/-- EVT.CORE_PRI. -/
abbrev offEvtCorePri (p : Nat) : Nat := 0x1200200 + 0x4 * p
/-- EVT.SRC_CFG. -/
abbrev offEvtSrcCfg (s : Nat) : Nat := 0x1201000 + 0x8 * s
/-- EVT.SRC_HOLDOFF. -/
abbrev offEvtSrcHoldoff (s : Nat) : Nat := 0x1201004 + 0x8 * s
/-- XBAR.CTRL. -/
abbrev offXbarCtrl : Nat := 0x1300000
/-- XBAR.STATUS. -/
abbrev offXbarStatus : Nat := 0x1300004
/-- XBAR.OUTSTANDING. -/
abbrev offXbarOutstanding : Nat := 0x1300008
/-- XBAR.ERR_COUNT. -/
abbrev offXbarErrCount (k : Nat) : Nat := 0x1300010 + 0x4 * k
/-- XBAR.LAST_ERR_LO. -/
abbrev offXbarLastErrLo : Nat := 0x1300020
/-- XBAR.LAST_ERR_HI. -/
abbrev offXbarLastErrHi : Nat := 0x1300024
/-- XBAR.LAST_ERR_INFO. -/
abbrev offXbarLastErrInfo : Nat := 0x1300028
/-- XBAR.HOLD_COUNT. -/
abbrev offXbarHoldCount : Nat := 0x1300030
/-- XBAR.SPLIT_COUNT. -/
abbrev offXbarSplitCount : Nat := 0x1300034
/-- XBAR.MASTER. -/
abbrev offXbarMaster (m : Nat) : Nat := 0x1300100 + 0x4 * m
/-- MEMx.CTRL. -/
abbrev offMemCtrl (x : Nat) : Nat := (x + 20) * 0x100000 + 0x0
/-- MEMx.CFG. -/
abbrev offMemCfg (x : Nat) : Nat := (x + 20) * 0x100000 + 0x4
/-- MEMx.STATUS. -/
abbrev offMemStatus (x : Nat) : Nat := (x + 20) * 0x100000 + 0x8
/-- MEMx.RETRAIN. -/
abbrev offMemRetrain (x : Nat) : Nat := (x + 20) * 0x100000 + 0xc
/-- MEMx.PWR. -/
abbrev offMemPwr (x : Nat) : Nat := (x + 20) * 0x100000 + 0x10
/-- MEMx.TIMING. -/
abbrev offMemTiming (x : Nat) : Nat := (x + 20) * 0x100000 + 0x14
/-- MEMx.CNT. -/
abbrev offMemCnt (x k : Nat) : Nat := (x + 20) * 0x100000 + 0x20 + 0x4 * k
/-- MEMx.ERR_ADDR_LO. -/
abbrev offMemErrAddrLo (x : Nat) : Nat := (x + 20) * 0x100000 + 0x40
/-- MEMx.ERR_ADDR_HI. -/
abbrev offMemErrAddrHi (x : Nat) : Nat := (x + 20) * 0x100000 + 0x44
/-- MEMx.ERR_INFO. -/
abbrev offMemErrInfo (x : Nat) : Nat := (x + 20) * 0x100000 + 0x48
/-- MEMx.QUEUE. -/
abbrev offMemQueue (x : Nat) : Nat := (x + 20) * 0x100000 + 0x50
/-- MEMx.LAT_MAX. -/
abbrev offMemLatMax (x : Nat) : Nat := (x + 20) * 0x100000 + 0x54
/-- PMC.STATUS. -/
abbrev offPmcStatus : Nat := 0x1600000
/-- PMC.STRAPS. -/
abbrev offPmcStraps : Nat := 0x1600004
/-- PMC.LAST_FAULT. -/
abbrev offPmcLastFault : Nat := 0x1600008
/-- PMC.TELEMETRY. -/
abbrev offPmcTelemetry : Nat := 0x160000c
/-- PMC.THERM_COUNT. -/
abbrev offPmcThermCount : Nat := 0x1600010
/-- PMC.THERM. -/
abbrev offPmcTherm (s : Nat) : Nat := 0x1600100 + 0x4 * s
/-- PMC.RAIL_STATUS. -/
abbrev offPmcRailStatus (r : Nat) : Nat := 0x1600200 + 0x10 * r
/-- PMC.RAIL_MEAS. -/
abbrev offPmcRailMeas (r : Nat) : Nat := 0x1600204 + 0x10 * r
/-- PMC.RAIL_IMAX. -/
abbrev offPmcRailImax (r : Nat) : Nat := 0x1600208 + 0x10 * r
/-- ERR.CTRL. -/
abbrev offErrCtrl : Nat := 0x1700000
/-- ERR.STATUS. -/
abbrev offErrStatus : Nat := 0x1700004
/-- ERR.FATAL. -/
abbrev offErrFatal : Nat := 0x1700008
/-- ERR.HEAD. -/
abbrev offErrHead : Nat := 0x170000c
/-- ERR.NEXT_SEQ. -/
abbrev offErrNextSeq : Nat := 0x1700010
/-- ERR.OVERWRITE. -/
abbrev offErrOverwrite : Nat := 0x1700014
/-- ERR.MIRROR_DROP. -/
abbrev offErrMirrorDrop : Nat := 0x1700018
/-- ERR.MIRROR_WAIT. -/
abbrev offErrMirrorWait : Nat := 0x170001c
/-- ERR.CLASS_COUNT. -/
abbrev offErrClassCount (k : Nat) : Nat := 0x1700020 + 0x4 * k
/-- ERR.LOG. -/
abbrev offErrLog (r k : Nat) : Nat := 0x1701000 + 0x20 * r + 0x4 * k
/-- ERR.MIRROR. -/
abbrev offErrMirror (r k : Nat) : Nat := 0x1703000 + 0x20 * r + 0x4 * k
/-- PERF.CTRL. -/
abbrev offPerfCtrl : Nat := 0x1800000
/-- PERF.FREEZE. -/
abbrev offPerfFreeze : Nat := 0x1800004
/-- PERF.STATUS. -/
abbrev offPerfStatus : Nat := 0x1800008
/-- PERF.FROZEN_EPOCH_LO. -/
abbrev offPerfFrozenEpochLo : Nat := 0x1800010
/-- PERF.FROZEN_EPOCH_HI. -/
abbrev offPerfFrozenEpochHi : Nat := 0x1800014
/-- PERF.CYCLE_LO. -/
abbrev offPerfCycleLo (b : Nat) : Nat := 0x1801000 + 0x100 * b
/-- PERF.CYCLE_HI. -/
abbrev offPerfCycleHi (b : Nat) : Nat := 0x1801004 + 0x100 * b
/-- PERF.OVF. -/
abbrev offPerfOvf (b : Nat) : Nat := 0x1801008 + 0x100 * b
/-- PERF.CNT_LO. -/
abbrev offPerfCntLo (b k : Nat) : Nat := 0x1801010 + 0x100 * b + 0x8 * k
/-- PERF.CNT_HI. -/
abbrev offPerfCntHi (b k : Nat) : Nat := 0x1801014 + 0x100 * b + 0x8 * k
/-- PERF.EVSEL. -/
abbrev offPerfEvsel (b k : Nat) : Nat := 0x1801080 + 0x100 * b + 0x4 * k
/-- LCS.STATE. -/
abbrev offLcsState : Nat := 0x1900000
/-- LCS.KEYS. -/
abbrev offLcsKeys : Nat := 0x1900004
/-- LCS.KEY_HASH. -/
abbrev offLcsKeyHash (s w : Nat) : Nat := 0x1900100 + 0x20 * s + 0x4 * w
/-- LCS.FUSE_HASH. -/
abbrev offLcsFuseHash (w : Nat) : Nat := 0x1900200 + 0x4 * w
/-- LCS.FUSE_CMD. -/
abbrev offLcsFuseCmd : Nat := 0x1900220
/-- LCS.AUTH. -/
abbrev offLcsAuth (w : Nat) : Nat := 0x1900300 + 0x4 * w
/-- LCS.REQUEST. -/
abbrev offLcsRequest : Nat := 0x1900400
/-- LCS.RESULT. -/
abbrev offLcsResult : Nat := 0x1900404
/-- NVM.STATUS. -/
abbrev offNvmStatus : Nat := 0x1a00000
/-- NVM.GEN_A. -/
abbrev offNvmGenA : Nat := 0x1a00004
/-- NVM.GEN_B. -/
abbrev offNvmGenB : Nat := 0x1a00008
/-- NVM.RUN_GEN. -/
abbrev offNvmRunGen : Nat := 0x1a0000c
/-- NVM.RUN_CRC. -/
abbrev offNvmRunCrc : Nat := 0x1a00010
/-- NVM.BOOT_RECORD. -/
abbrev offNvmBootRecord : Nat := 0x1a00014
/-- NVM.CONFIRMED_GEN. -/
abbrev offNvmConfirmedGen : Nat := 0x1a00018
/-- NVM.FAILED_GEN. -/
abbrev offNvmFailedGen : Nat := 0x1a0001c
/-- NVM.BOOT_MS. -/
abbrev offNvmBootMs : Nat := 0x1a00020
/-- NVM.CONFIRM. -/
abbrev offNvmConfirm : Nat := 0x1a00024
/-- NVM.RELOAD. -/
abbrev offNvmReload : Nat := 0x1a00030
/-- NVM.RELOAD_STATUS. -/
abbrev offNvmReloadStatus : Nat := 0x1a00034
/-- SVC.STATUS. -/
abbrev offSvcStatus : Nat := 0x1b00000
/-- SVC.MDP_CFG. -/
abbrev offSvcMdpCfg : Nat := 0x1b00004
/-- SVC.MDP_CNT. -/
abbrev offSvcMdpCnt (k : Nat) : Nat := 0x1b00010 + 0x4 * k
/-- SVC.SPI_CNT. -/
abbrev offSvcSpiCnt (k : Nat) : Nat := 0x1b00040 + 0x4 * k

end Sys2Proof.Machine
end

