-- ==== Sys2Proof/Machine/State.lean ====
section
/-!
DEFINITION. Sys2Proof/Machine/State.lean: the state of the block, plain data, and the state after reset. Status and
configuration that the spec gives a register have that register as their home (`Regs`); everything else has a field.
-/
namespace Sys2Proof.Machine

/-- A sparse bank of register words by register-space offset; an unlisted register holds its reset value. -/
abbrev Bank := List (Nat × Word)

/-- Audio of a set of channels: the samples of each channel that is not silent. -/
abbrev Audio := List (Nat × List Int)

/-- The register file (R5, R33, R41). -/
structure Regs where
  /-- Current values: RWL and RWB fields, RO fields before they are latched, live bits of W1C and W1S fields. -/
  live : Bank := []
  /-- Shadow copies of the RWS fields. -/
  shadow : Bank := []
  /-- Active copies of the RWS fields with the epoch at which each became active, newest first: stages late in the sample
  path still use an older one (R35). -/
  act : List (Nat × Bank) := [(0, [])]
  /-- The snapshot bank (R41). -/
  snap : Bank := []
  deriving DecidableEq, Repr

/-- EPC (chapter 02). -/
structure Epc where
  /-- The epoch in progress, 48 bits (R29, R31). -/
  epoch : Nat := 0
  /-- Engine periods of the epoch already served, 0 to 64 (R64). -/
  period : Nat := 0
  /-- RND cycle 180,000 of the epoch has passed (R36). -/
  cutoff : Bool := false
  /-- The pending commit (R38). -/
  commit : Option Nat := none
  /-- Epoch starts at which the bank was not relatched since the hold began (R42). -/
  held : Nat := 0
  /-- READY sections joined the pending commit at its cutoff (R39). -/
  joined : Bool := false
  deriving DecidableEq, Repr

/-- A pending report of the error collector (R425). -/
structure ErrReport where
  /-- SOURCE (R423). -/
  source : Nat
  /-- CODE (Table 19-2). -/
  code : Nat
  /-- CLASS (Table 19-1). -/
  cls : Nat
  /-- ESCALATED (R429). -/
  escalated : Bool
  /-- Epoch of the first raise. -/
  epoch : Nat
  /-- COUNT. -/
  count : Nat
  /-- ARG0. -/
  arg0 : Word
  /-- ARG1. -/
  arg1 : Word
  deriving DecidableEq, Repr

/-- ERR (chapter 19). -/
structure Err where
  /-- Pending reports, in the order of their first raises. -/
  reports : List ErrReport := []
  /-- Epochs of the last two Contained raises of each source and code (65,536 x source + code), newest first (R429). -/
  history : List (Nat × List Nat) := []
  /-- Entries waiting to be mirrored, oldest first (R428). -/
  mirror : List (List Word) := []
  /-- Entries written to the ring. -/
  written : Nat := 0
  /-- Where the writer of the mirror stands: sector, its sequence and the next place in it, 0 its header; the sector is erased first
  where that is so. -/
  place : Nat × Nat × Nat := (0, 1, 0)
  /-- Replays of the epoch on each die-to-die link, and failed ones (R17). -/
  links : List (Nat × Nat × Nat) := []
  /-- Epoch of the last DEBUG_DENIED entry (R436). -/
  denied : Option Nat := none
  deriving DecidableEq, Repr

/-- A gain that steps at zero crossings (R54, R55). -/
structure GainCell where
  /-- Gain in force, UQ4.20. -/
  cur : Int
  /-- A newer gain that waits. -/
  want : Option Int := none
  /-- Samples searched for it so far. -/
  count : Nat := 0
  /-- A timeout ramp: from, to, and the number of ramp samples already given. -/
  ramp : Option (Int × Int × Nat) := none
  /-- The sample before, ahead of the gain. -/
  prev : Int := 0
  deriving DecidableEq, Repr

/-- What a generator's fields make of it from one epoch on (R59). -/
structure GenRec where
  /-- The epoch. -/
  epoch : Nat
  /-- KIND. -/
  kind : Nat
  /-- LEVEL_DB. -/
  level : Nat
  /-- i0: the first sample since KIND last became non-zero. -/
  i0 : Nat
  /-- The sample at which the sine's frequency last changed. -/
  seg : Nat
  /-- The sine's phase there, in units of 1 / (256 fs) cycle. -/
  phase : Nat
  /-- The sine's frequency from there on, UQ16.8 Hz. -/
  f1 : Nat
  /-- Start of the sweep in force. -/
  sweep : Nat
  /-- F1, F2 and LEN in force for it. -/
  inForce : Nat × Nat × Nat
  /-- Values committed since, with the sample from which each may be taken, oldest first. -/
  later : List (Nat × Nat × Nat × Nat)
  deriving DecidableEq, Repr

/-- The noise of a generator (R173). -/
structure Noise where
  /-- Seed index i0. -/
  i0 : Nat
  /-- Shift register. -/
  reg : Word
  /-- The three sections of the pink filter, Q4.28. -/
  s1 : Int
  /-- Second section. -/
  s2 : Int
  /-- Third section. -/
  s3 : Int
  /-- Blocks made, newest first, by epoch: the scaled noise in Q4.28. -/
  blocks : List (Nat × List Int)
  deriving DecidableEq, Repr

/-- A test or measurement generator: what its fields made of it, newest first, and its noise. -/
structure Gen where
  /-- Records, newest first. -/
  recs : List GenRec := []
  /-- Noise. -/
  noise : Option Noise := none
  deriving DecidableEq, Repr

/-- Whether a member of a ring delivers its samples: a changed entry carries zero until the first sample placed under it (R256). -/
inductive RxHold where
  /-- It delivers. -/
  | live
  /-- Nothing has been placed yet. -/
  | shut
  /-- It delivers from the engine period of that sample's deadline. -/
  | opens (period : Nat)
  deriving DecidableEq, Repr

/-- A receive ring (R257 to R262). -/
structure RxRing where
  /-- Samples placed and not yet read: the engine period of the deadline (R258), and one sample for each channel. -/
  held : List (Nat × List Int) := []
  /-- The last values played from a placed sample. -/
  last : List Int := []
  /-- Concealed samples since. -/
  conceal : Nat := 192
  /-- Placed samples since the last concealed run. -/
  fade : Nat := 0
  /-- Sequence numbers of the last 1,024 packets placed, newest first. -/
  window : List Nat := []
  /-- SSRC last placed. -/
  ssrc : Option Nat := none
  /-- The next placed sample that each plane's member of the ring delivers is a stream restart (R78). -/
  restart : Bool × Bool := (true, true)
  /-- Samples since each plane's member last delivered a placed one. -/
  gap : Nat × Nat := (0, 0)
  /-- The sample of the engine period in progress, one for each channel. -/
  out : List Int := []
  /-- For each plane's member, that sample is the first after a restart. -/
  fresh : Bool × Bool := (false, false)
  /-- Whether each plane's member delivers. -/
  hold : RxHold × RxHold := (.live, .live)
  deriving DecidableEq, Repr

/-- What a transmit frame carries. -/
inductive TxBody where
  /-- A packet of a transmit stream: stream, packet number and RTP packet (R264). -/
  | stream (t k : Nat) (pkt : RtpPkt)
  /-- A PTP message of the plane's instance, and the two bytes after it that keep the UDP checksum (R278). -/
  | ptp (msg : PtpMsg) (fix : Nat)
  /-- An answer of the supervisor to a frame of a protocol (R246). -/
  | answer (kind : SupKind)
  /-- A membership report or a leave for a group, with the source filter (R246, R273). -/
  | membership (join : Bool) (group : IpAddr) (source : Option IpAddr)
  /-- A step announcement: its payload (R250). -/
  | step (payload : List Byte)
  /-- A management datagram to a source. -/
  | mgmt (dst : Nat) (datagram : List Byte)
  deriving DecidableEq, Repr

/-- The headers of a transmit frame; none where the frame has no such field or the manual leaves it to the firmware. -/
structure TxHead where
  /-- Destination MAC address. -/
  dmac : Option Nat := none
  /-- EtherType. -/
  etype : Option Nat := none
  /-- Source MAC address. -/
  smac : Nat := 0
  /-- VLAN tag: VID and PCP. -/
  tag : Option (Nat × Nat) := none
  /-- Source IP address. -/
  src : Option IpAddr := none
  /-- Destination IP address. -/
  dst : Option IpAddr := none
  /-- DSCP. -/
  dscp : Option Nat := none
  /-- TTL or hop limit. -/
  ttl : Option Nat := none
  /-- UDP source port. -/
  sport : Option Nat := none
  /-- UDP destination port. -/
  dport : Option Nat := none
  /-- IPv4 identification and whether DF is set. -/
  ident : Option (Nat × Bool) := none
  /-- UDP checksum. -/
  sum : Option Nat := none
  deriving DecidableEq, Repr

/-- A transmit frame that waits. -/
structure TxFrame where
  /-- Priority (R247). -/
  prio : Nat
  /-- Bytes from destination address to FCS. -/
  bytes : Nat
  /-- What it carries. -/
  body : TxBody
  /-- Its headers. -/
  head : TxHead
  /-- The engine period in which it entered its queue. -/
  since : Nat := 0
  deriving DecidableEq, Repr

/-- A media plane (chapter 11). -/
structure Plane where
  /-- Rings of the receive streams. -/
  rings : List (Nat × RxRing) := []
  /-- Frames that wait, in the order in which they entered their queues. -/
  queue : List TxFrame := []
  /-- The frame last started. -/
  onWire : Option TxFrame := none
  /-- Paused priorities with the quanta of their last pause (R247). -/
  paused : List (Nat × Nat) := []
  /-- Frames in the supervisor queue, oldest first. -/
  sup : List Frame := []
  /-- Receive streams of which a packet was placed in the epoch. -/
  got : List Nat := []
  /-- LATE packets of the epoch (R263). -/
  late : Nat := 0
  /-- Lowest stream with a late packet or a concealed sample in the epoch. -/
  lateLow : Option Nat := none
  /-- Received wire bits of the epoch (R249). -/
  rxBits : Nat := 0
  /-- Offered loads of the last 30 epochs in bits per second, newest first. -/
  loads : List Nat := []
  /-- Epochs in a row whose offered load was below 6.0 Gb/s. -/
  lowRun : Nat := 0
  /-- The epoch in which this plane last started a step. -/
  lastStep : Option Nat := none
  /-- The step epoch of a step announced or in progress, and the new SPEED_NOW. -/
  step : Option (Nat × Nat) := none
  /-- A commit activated a transmit set of 7.5 Gb/s or more, and the step up that it calls for waits (R249). -/
  bigSet : Bool := false
  /-- The port trains at the new speed: from the step epoch to link up. -/
  training : Bool := false
  /-- The last packet number released for each transmit stream. -/
  sent : List (Nat × Nat) := []
  /-- The plane ran in the epoch before. -/
  ran : Bool := false
  deriving DecidableEq, Repr

/-- A serial port (chapter 14). -/
structure SapPort where
  /-- The number of the last frame, once aligned. -/
  frame : Option Nat := none
  /-- The last frames received, newest first: frame number and one sample for each slot, after the slot's gain. -/
  rx : List (Nat × List Int) := []
  /-- DOUT of the last frame: one word for each slot, none where it is high-impedance. -/
  dout : List (Option Word) := []
  /-- FS and DOUT over the bit clocks of the last frame, from its frame-start edge; none where the port does not drive the ball
  (R308, R316). -/
  wire : List (Option Bool × Option Bool) := []
  /-- The last data bit of the last frame, which a format with a delay drives in the next one. -/
  lastBit : Option Bool := none
  /-- FS and DOUT are launched at the rising edge of BCLK (R308). -/
  rising : Bool := false
  /-- Sum of the phases of the epoch's frames, in 1/256 frame. -/
  phaseSum : Int := 0
  /-- Frames of the epoch. -/
  phaseCount : Nat := 0
  /-- Slots whose next received sample is a stream restart, each with the first frame that may carry it (R78, R315, R465). -/
  restarts : List (Nat × Nat) := []
  /-- The first frame since the last alignment. -/
  base : Nat := 0
  /-- MASK_IN and MASK_OUT of the last frame since the port started (R316). -/
  masks : Option (Word × Word) := none
  /-- A realignment may be made: an epoch start, or a returned clock, has come since the slip. -/
  mayAlign : Bool := false
  /-- Slots of the port that saturated in an epoch (R57). -/
  clipped : List Nat := []
  /-- That epoch. -/
  clipEpoch : Nat := 0
  deriving DecidableEq, Repr

/-- The follow loop (R319). -/
structure Follow where
  /-- Frequency word, parts per 10^12. -/
  word : Int := 0
  /-- The integral part of the loop, in 2^-32 parts per 10^12. -/
  integ : Int := 0
  /-- Epochs in a row within 4/256 frame. -/
  run : Nat := 0
  /-- The followed port gives no usable clock; it has been reported. -/
  bad : Bool := false
  deriving DecidableEq, Repr

/-- Serial ports. -/
structure Sap where
  /-- Ports. -/
  ports : List (Nat × SapPort) := []
  /-- Follow loop. -/
  follow : Follow := {}
  /-- Slips of the epoch. -/
  slips : Nat := 0
  /-- Lowest port that slipped in the epoch. -/
  slipLow : Option Nat := none
  /-- Side-tone paths in force: the word of ST_CFG each runs by (R62). -/
  paths : List (Nat × Word) := []
  /-- Former paths that still fade out: path, word of ST_CFG, gain (R62). -/
  fading : List (Nat × Word × GainCell) := []
  deriving DecidableEq, Repr

/-- What an input selector does in a block (R49, R51). -/
inductive SelMode where
  /-- One source. -/
  | steady
  /-- From the old source to the new. -/
  | cross
  /-- The old source fades out. -/
  | out
  /-- The new source fades in. -/
  | fadeIn
  /-- A fade-in block that is also a fade-out block. -/
  | zero
  deriving DecidableEq, Repr

/-- An input slot in the conditioning engine (chapter 04). -/
structure CndSlot where
  /-- Source code of the block before. -/
  old : Nat := 0
  /-- Source code of the block. -/
  src : Nat := 0
  /-- What the selector does in the block. -/
  mode : SelMode := .steady
  /-- A synchronising reset lands at the next block, which fades in. -/
  resetNext : Bool := false
  /-- CONV, FILTER and DELAY_TRIM that govern from that reset on. -/
  nset : Nat × Nat × Nat := (0, 0, 0)
  /-- The source that the slot leaves in the block has restarted. -/
  oldGone : Bool := false
  /-- Epoch at which the last reset landed. -/
  resetAt : Option Nat := none
  /-- Epoch at which a stream restart lands, and the engine period of its first sample (R79). -/
  restart : Option (Nat × Nat) := none
  /-- CONV in force. -/
  conv : Nat := 0
  /-- FILTER in force. -/
  filt : Nat := 0
  /-- DELAY_TRIM in force, and before this block. -/
  trim : Nat := 0
  /-- DELAY_TRIM before this block. -/
  oldTrim : Nat := 0
  /-- Input samples at the rate of the filter, newest first. -/
  hist : List Int := []
  /-- Output samples since the reset (R81). -/
  n : Nat := 0
  /-- The slot is in its unsettled span (R83). -/
  unsettled : Bool := false
  /-- The slot is in its crossfade to the fine path (R81). -/
  fading : Bool := false
  /-- DC estimate, Q1.39 (R73). -/
  dc : Int := 0
  /-- Trimmed output samples, newest first (R71). -/
  line : List Int := []
  /-- Output samples of the block so far, newest first. -/
  blk : List Int := []
  /-- The last 64 samples before the DC blocker, newest first (R363). -/
  kept : List Int := []
  /-- A trimmed sample of the block saturated. -/
  clipped : Bool := false
  /-- The block holds an unsettled sample (R83). -/
  unsettledBlk : Bool := false
  deriving DecidableEq, Repr

/-- The conditioning engine. -/
structure Cnd where
  /-- Slots. -/
  slots : List (Nat × CndSlot) := []
  /-- Coefficient bank 0, 552 words (R75). -/
  bank0 : List Int := []
  /-- Coefficient bank 1. -/
  bank1 : List Int := []
  /-- The engine ran in the epoch before. -/
  ran : Bool := false
  /-- Epoch in which the engine last began to run. -/
  startAt : Option Nat := none
  /-- Epoch of the last bank swap. -/
  swapAt : Option Nat := none
  /-- Slots that entered the unsettled state in the epoch. -/
  entered : Nat := 0
  /-- The lowest of them. -/
  enteredLow : Nat := 0
  deriving DecidableEq, Repr

/-- A block in the sample path. -/
structure BlockAt where
  /-- Epoch in which it came to this point. -/
  epoch : Nat
  /-- Block number. -/
  block : Nat
  /-- Samples. -/
  audio : Audio
  deriving DecidableEq, Repr

/-- A corrected block. -/
structure Corrected where
  /-- Epoch of phase B. -/
  epoch : Nat
  /-- Block of the feeds. -/
  feeds : Nat
  /-- Block of the buses. -/
  buses : Nat
  /-- Samples. -/
  audio : Audio
  deriving DecidableEq, Repr

/-- The output side of GRAPH and the blocks between the stages of the sample path (R22 to R24). -/
structure Path where
  /-- Conditioned blocks by epoch, newest first. -/
  cond : List (Nat × Audio) := []
  /-- Slots whose block of an epoch holds an unsettled sample, newest first (R83). -/
  unsettled : List (Nat × List Nat) := []
  /-- Blocks at the input slots after the IN insert: epoch of arrival, block and samples, newest first. -/
  slots : List BlockAt := []
  /-- Reduced blocks of feeds and buses (576 targets, Q4.28), newest first: epoch of the reduction, block and samples. -/
  reduced : List BlockAt := []
  /-- Corrected feeds and buses (Q4.28), newest first: epoch of phase B, block of the feeds, block of the buses, samples. -/
  corrected : List Corrected := []
  /-- Output channels after trim (Q1.23), newest first: epoch in which the output stage made them, block of the feeds. -/
  trimmed : List BlockAt := []
  /-- Output channels of the epoch's block as they are presented at the old latency of OUT, where that differs (R24, R467). -/
  early : List BlockAt := []
  /-- Blocks presented, by epoch, newest first. -/
  shown : List (Nat × Audio) := []
  /-- Serial output bindings by the epoch of the block presented with them, newest first: output and word of SODEST, with
  the channel's CURVE in bit 16 (R52). -/
  binds : List (Nat × List (Nat × Word)) := []
  /-- The block made for the next epoch. -/
  next : Audio := []
  /-- Serial output bindings that go with it. -/
  nextBinds : List (Nat × Word) := []
  /-- Serial output bindings that the output stage took for a block, newest first, by block of the feeds (R464). -/
  made : List (Nat × List (Nat × Word)) := []
  /-- Phases of the render epoch that have been done: A, reduction, B, margin (Table 1-6). -/
  phase : Nat := 0
  /-- The epoch at which the timebase last loaded; nothing presented before it is sent (R25). -/
  loadEpoch : Nat := 0
  /-- Source code of each output selector in the block before. -/
  osel : List (Nat × Nat) := []
  deriving DecidableEq, Repr

/-- An accepted metadata record (Table 5-4, Table 5-6), with the order keys of R105. -/
structure ObjRec where
  /-- Target epoch T. -/
  target : Nat
  /-- Frame sequence. -/
  seq : Nat
  /-- Position within the frame. -/
  idx : Nat
  /-- JUMP or SCENE_CUT. -/
  jump : Bool
  /-- Position in mm, unless NO_POS. -/
  pos : Option (Int × Int × Int)
  /-- Gain code, unless NO_GAIN. -/
  gain : Option Nat
  /-- Spread and law code, unless NO_SHAPE. -/
  shape : Option (Nat × Nat)
  /-- Source that sent it. -/
  src : Nat
  deriving DecidableEq, Repr

/-- An object slot beside its registers (R85): position, gain, spread and effective law live in OBJ.STAT. -/
structure ObjSlot where
  /-- Pending records: target epoch and the records merged there, in ascending order of targets (R104). -/
  pending : List (Nat × List ObjRec) := []
  /-- Late records with the epoch at which each applies (R106). -/
  late : List (Nat × ObjRec) := []
  /-- Metadata law. -/
  law : Option Nat := none
  /-- Highest target epoch applied. -/
  applied : Option Nat := none
  deriving DecidableEq, Repr

/-- A metadata source beside its registers (R101). -/
structure ObjSrc where
  /-- Accepted sequences within the window, newest first. -/
  seen : List Nat := []
  /-- Epoch of the last accepted frame. -/
  last : Nat := 0
  /-- Late records of the epoch. -/
  late : Nat := 0
  deriving DecidableEq, Repr

/-- A packet of an S-ADM source that waits for the parse of its frame (R96, R98). -/
structure SadmPkt where
  /-- Metadata source. -/
  src : Nat
  /-- Plane and receive stream. -/
  stream : Nat × Nat
  /-- RTP sequence. -/
  seq : Nat
  /-- RTP timestamp, extended on arrival, as a 48 kHz sample index rounded down. -/
  index : Int
  deriving DecidableEq, Repr

/-- OBJ (chapter 05). -/
structure Obj where
  /-- Slots. -/
  slots : List (Nat × ObjSlot) := []
  /-- Sources. -/
  srcs : List (Nat × ObjSrc) := []
  /-- Slots whose block of an epoch is a jump (R91), newest first. -/
  jumps : List (Nat × List Nat) := []
  /-- Slots that OBJ renders in the block of an epoch, newest first: running and enabled (R108, R109). -/
  active : List (Nat × List Nat) := []
  /-- Records applied in the last epochs of a join: epoch, slot and record, oldest first (R363). -/
  recent : List (Nat × Nat × ObjRec) := []
  /-- S-ADM packets that wait for their parse, oldest first. -/
  sadm : List SadmPkt := []
  deriving DecidableEq, Repr

/-- A PRESENT speaker of the layout section (Table 6-3). -/
structure Speaker where
  /-- X in mm. -/
  x : Int
  /-- Y in mm. -/
  y : Int
  /-- Z in mm. -/
  z : Int
  /-- FLAGS. -/
  flags : Nat
  /-- ALIGN_NS. -/
  alignNs : Nat
  /-- ALIGN_GAIN, a dB code. -/
  alignGain : Nat
  /-- NX, Q1.15. -/
  nx : Int
  /-- NY. -/
  ny : Int
  /-- NZ. -/
  nz : Int
  /-- SEGMENT. -/
  segment : Nat
  deriving DecidableEq, Repr

/-- A triangle (R117). -/
structure Triangle where
  /-- Feed of vertex A. -/
  a : Nat
  /-- Feed of vertex B. -/
  b : Nat
  /-- Feed of vertex C. -/
  c : Nat
  /-- INV row by row, Q8.24. -/
  inv : List Int
  deriving DecidableEq, Repr

/-- A VALID segment (Table 6-4). -/
structure Segment where
  /-- FOCUS. -/
  focus : Bool
  /-- TAPER. -/
  taper : Nat
  /-- FIRST. -/
  first : Nat
  /-- COUNT. -/
  count : Nat
  /-- GAIN, a dB code. -/
  gain : Nat
  /-- REF_X. -/
  rx : Int
  /-- REF_Y. -/
  ry : Int
  /-- REF_Z. -/
  rz : Int
  /-- NX, Q1.15. -/
  nx : Int
  /-- NY. -/
  ny : Int
  /-- NZ. -/
  nz : Int
  /-- RREF_MM. -/
  rref : Nat
  /-- FOCUS_PRE_NS. -/
  preNs : Nat
  deriving DecidableEq, Repr

/-- The image tables of GEO (R116 to R118, R132). -/
structure GeoTables where
  /-- PRESENT speakers by feed. -/
  spk : List (Nat × Speaker) := []
  /-- Direct slots: their targets with non-zero gain, Q3.20, ascending. -/
  direct : List (Nat × List (Nat × Int)) := []
  /-- Triangles. -/
  tris : List Triangle := []
  /-- Cell lists that are not empty. -/
  cells : List (Nat × List Nat) := []
  /-- VALID segments. -/
  segs : List (Nat × Segment) := []
  deriving DecidableEq, Repr

/-- A target: feed 0-511 or bus 512-575, gain Q3.20, differential delay in 1/256 sample, and whether its mode changed
(R114, R115, R127). -/
structure Target where
  /-- Target index. -/
  tgt : Nat
  /-- Gain g*. -/
  gain : Int
  /-- Delay d*. -/
  delay : Nat
  /-- The crosspoint alone is rendered with the jump crossfade (R127). -/
  side : Bool
  deriving DecidableEq, Repr

/-- GEO (chapter 06). -/
structure Geo where
  /-- Active tables. -/
  tables : GeoTables := {}
  /-- Mode in which each speaker was driven in the last block, by object: true is focused (R127). -/
  modes : List (Nat × List (Nat × Bool)) := []
  /-- Targets by block, newest first: input slot and its list. -/
  targets : List (Nat × List (Nat × List Target)) := []
  deriving DecidableEq, Repr

/-- A pool entry (Table 7-1). -/
structure XpEntry where
  /-- SOURCE. -/
  src : Nat
  /-- TARGET. -/
  tgt : Nat
  /-- KIND is object ending. -/
  ending : Bool
  /-- GAIN, Q3.20. -/
  gain : Int
  /-- GSLOPE, Q1.27. -/
  gslope : Int
  /-- DELAY, 1/256 sample. -/
  delay : Nat
  /-- DSLOPE, 2^-16 sample. -/
  dslope : Int
  /-- The bulk delay in force for the block (R138). -/
  bulk : Nat
  /-- PARITY as the state SRAM holds it. -/
  parity : BitVec 8
  deriving DecidableEq, Repr

/-- The bulk delay of an object (R138). -/
structure BulkState where
  /-- B in force. -/
  cur : Nat := 0
  /-- B that comes into force. -/
  new : Nat := 0
  /-- 0 no change; 1 the block E of a change; 2 the block after it. -/
  phase : Nat := 0
  deriving DecidableEq, Repr

/-- XP (chapter 07). -/
structure Xp where
  /-- Entries by block, newest first (R145). -/
  pool : List (Nat × List XpEntry) := []
  /-- Bulk lines in MEM0: object, and the blocks it holds, silent ones left out. A block's place is the epoch in which it came to the
  input slots, modulo the line's length (assumption log entry 205). -/
  lines : List (Nat × List (Nat × List Int)) := []
  /-- The rings of the object window SRAM: object, the bulk delay that the ring stands at, and its words, newest first; silent rings are
  left out (R137). -/
  rings : List (Nat × Nat × List Int) := []
  /-- Bulk delays that differ from zero or change. -/
  bulk : List (Nat × BulkState) := []
  /-- Holds: slot, hold-until epoch and barred targets (R152). -/
  holds : List (Nat × Nat × List Nat) := []
  /-- Pool fades of the epoch and the highest priority among them (R153). -/
  fades : Nat × Nat := (0, 0)
  /-- Slots whose rings are still to be filled for the block in the lanes (R137). -/
  waiting : List Nat := []
  /-- Entries of the block in the lanes that are not yet rendered: lane and entry, in pool order (R145). -/
  work : List (Nat × XpEntry) := []
  /-- Partial accumulator banks of the block in the lanes, Q16.40, by lane × 1,024 + target. -/
  banks : List (Nat × List Int) := []
  /-- Targets with a saturated partial accumulator in the block. -/
  satTargets : List Nat := []
  /-- The block in the lanes, if one was rendered in this epoch. -/
  block : Option Nat := none
  /-- The block rendered before it (R24). -/
  lastBlock : Option Nat := none
  /-- Objects silenced by a bulk-line error (R344): 0 fades out in the next block, 1 fades out in this one, and so on; the mark says that
  the object is silent in block 1 already. -/
  lost : List (Nat × Nat × Bool) := []
  /-- The active cluster position whose lanes do not render, and the takeover epoch once the moon has the position (R367). -/
  dead : Option (Nat × Option Nat) := none
  deriving DecidableEq, Repr

/-- State of a biquad section (R171), Q4.28. -/
structure BqState where
  /-- x1. -/
  x1 : Int := 0
  /-- x2. -/
  x2 : Int := 0
  /-- y1. -/
  y1 : Int := 0
  /-- y2. -/
  y2 : Int := 0
  deriving DecidableEq, Repr

/-- Where a live reload of filters stands (R167, R168). -/
inductive RcPhase where
  /-- No reload. -/
  | idle
  /-- Filters are being transformed from the next epoch start on. -/
  | transform
  /-- The transform has ended in this epoch; the parallel run has not begun. -/
  | transformed (ended : Nat)
  /-- The parallel run has begun with this block. -/
  | parallel (block : Nat)
  /-- READY. -/
  | ready
  deriving DecidableEq, Repr

/-- RC (chapter 08). -/
structure Rc where
  /-- Active filters that are not the unit impulse: feed and taps, Q2.30. -/
  filters : List (Nat × List Int) := []
  /-- Records of the running filter section (R390). -/
  records : List (Nat × List Int) := []
  /-- Filters not yet transformed. -/
  toTransform : List (Nat × List Int) := []
  /-- Standby filters: feed and taps. -/
  standby : List (Nat × List Int) := []
  /-- Phase of a live reload. -/
  phase : RcPhase := .idle
  /-- Feeds transformed in the epoch. -/
  transformed : Nat := 0
  /-- A swap that has been committed: its block and the new filters by feed (R169). -/
  swap : Option (Nat × List (Nat × List Int)) := none
  /-- Input blocks of each feed, newest first. -/
  hist : List (Nat × List (List Int)) := []
  /-- Biquad states, by 16 x channel + section. -/
  bq : List (Nat × BqState) := []
  /-- Blocks last corrected: of the feeds, of the buses. -/
  last : Option (Nat × Nat) := none
  /-- Feeds muted by a tail read error (R344). -/
  muted : List Nat := []
  /-- Tail chunks formed with a read error: feed and chunk. -/
  lost : List (Nat × Nat) := []
  /-- What came to the biquads in the last two epochs of a join, newest first (R363). -/
  fed : List Corrected := []
  deriving DecidableEq, Repr

/-- MAC field operations (Table 9-9). -/
inductive MacOp where
  /-- 0x0. -/
  | nop
  /-- 0x1. -/
  | mpy
  /-- 0x2. -/
  | mac
  /-- 0x3. -/
  | msu
  /-- 0x4. -/
  | mpyn
  /-- 0x5. -/
  | clr
  /-- 0x6. -/
  | rnd
  deriving DecidableEq, Repr

/-- ALU operations (Table 9-12, class 3). -/
inductive AluOp where
  | add | sub | adds | subs | and | or | xor | cmp | min | max | abs | neg | asl | asr | asrr | lsr | asli | asri | lsri | norm
  | mova | movn | movm | movfa | xtrh | xtrl | insa | accadd | accsub | accsh
  deriving DecidableEq, Repr

/-- Control operations (Table 9-12, class 1) with their fields. -/
inductive CtlOp where
  | bra (addr : Nat)
  | bcc (cond addr : Nat)
  | call (addr : Nat)
  | ret
  | jmp (areg : Nat)
  | loop (dreg addr : Nat)
  | repImm (n : Nat)
  | repReg (dreg : Nat)
  | rte
  | finish
  | enq (areg : Nat)
  | evsig (source : Nat)
  | setscale (imm : Nat)
  | getsr (dreg : Nat)
  | putsr (dreg : Nat)
  | cyc (dreg : Nat)
  | cid (dreg : Nat)
  | putwb (dreg : Nat)
  | waitw
  deriving DecidableEq, Repr

/-- What stands in bits 63:40 of a bundle (Table 9-8), the long immediate whole. -/
inductive VecOp where
  /-- Class 0. -/
  | mac (op : MacOp) (form s t a lanes : Nat)
  /-- Class 3; the immediate forms carry their count as s2. -/
  | alu (op : AluOp) (dst s1 s2 : Nat)
  /-- Class 2. -/
  | li (file reg : Nat) (imm : Word)
  /-- Class 1. -/
  | ctl (op : CtlOp)
  deriving DecidableEq, Repr

/-- A bundle (R210). -/
structure Bundle where
  /-- Operation. -/
  op : VecOp
  /-- X move. -/
  x : MoveField
  /-- Y move. -/
  y : MoveField
  /-- AGU field. -/
  g : AguField
  deriving DecidableEq, Repr

/-- What wrote a register (the Writer column of Table 9-5); the last four are writers that the table does not list. -/
inductive VecWriter where
  /-- Load from local X or Y, or move, into a D or ACC register. -/
  | move
  /-- Load from shared memory or the external window. -/
  | far
  /-- MAC field or ACC ALU operation into ACC. -/
  | mac
  /-- ALU operation into D. -/
  | alu
  /-- ALU operation into Z, N, V. -/
  | flags
  /-- Post-update of An by a move. -/
  | post
  /-- AGU field update of An. -/
  | agu
  /-- LI, MOVA, MOVN or MOVM into An, Nn or Mn. -/
  | set
  /-- LI into Dn. -/
  | liD
  /-- PUTSR, SETSCALE. -/
  | sr
  /-- PUTWB. -/
  | wb
  /-- LOOP, GETSR, CYC, CID into Dn. -/
  | ctlD
  /-- The sticky flags. -/
  | sticky
  deriving DecidableEq, Repr

/-- Who reads a register (the Reader column of Table 9-5); the last three are readers that the table does not list. -/
inductive VecReader where
  /-- Any reader of Dn. -/
  | d
  /-- MAC field accumulating into ACCn. -/
  | acc
  /-- Move, store, XTRH, XTRL or ACC ALU source. -/
  | accSrc
  /-- Address of a move. -/
  | addr
  /-- AGU update. -/
  | agu
  /-- Bcc. -/
  | bcc
  /-- Scaled move, saturation flags. -/
  | scale
  /-- External window address. -/
  | window
  /-- MOVFA, JMP, ENQ reading An. -/
  | aOther
  /-- GETSR. -/
  | getsr
  /-- A status read, of the saturation flags. -/
  | sat
  deriving DecidableEq, Repr

/-- A write in flight (R193): the register, what wrote it, the issue number of its bundle and the value's code. -/
structure VecWrite where
  /-- Register. -/
  reg : Nat
  /-- Writer. -/
  src : VecWriter
  /-- Issue number. -/
  k : Nat
  /-- Value. -/
  val : Nat
  deriving DecidableEq, Repr

/-- A store in flight: one bundle later a load still reads the old word (Table 9-5). -/
structure VecStore where
  /-- Y side. -/
  yside : Bool
  /-- Word address. -/
  addr : Nat
  /-- Word. -/
  val : Word
  /-- Issue number. -/
  k : Nat
  deriving DecidableEq, Repr

/-- A transfer that takes effect after its delay slots (R194). -/
inductive VecXfer where
  /-- No branch is taken. -/
  | none
  /-- The program goes on at an address. -/
  | go (addr : Nat)
  /-- RTE. -/
  | rte
  /-- END. -/
  | finish
  deriving DecidableEq, Repr

/-- Why a core waits with its bundle not yet complete. -/
inductive VecWait where
  /-- A window read (R184). -/
  | window
  /-- WAITW (R184). -/
  | posted
  /-- ENQ without credit (R204). -/
  | credit
  deriving DecidableEq, Repr

/-- A work item: its descriptor (Table 10-1), the producer and the sequence number of its enqueue (R226). -/
structure WorkItem where
  /-- Eight descriptor words. -/
  words : List Word
  /-- Producer (R217). -/
  prod : Nat
  /-- Sequence number, modulo 2^32. -/
  seq : Nat
  deriving DecidableEq, Repr

/-- A vector core (chapter 09). State of CORE_STATE, FAULT and FAULT_PC is in those registers. -/
structure VecCore where
  /-- Settled register values, by `vecReg` number. -/
  regs : List (Nat × Nat) := []
  /-- Writes in flight, newest first. -/
  flight : List VecWrite := []
  /-- X memory, 32,768 words. -/
  xmem : List (Nat × Word) := []
  /-- Y memory. -/
  ymem : List (Nat × Word) := []
  /-- Program memory, 8,192 bundles of 64 bits. -/
  prog : List (Nat × Nat) := []
  /-- Stores in flight, newest first. -/
  stores : List VecStore := []
  /-- Bundles issued. -/
  issued : Nat := 0
  /-- PC. -/
  pc : Nat := 0
  /-- ERA. -/
  era : Nat := 0
  /-- Writes of the interrupted item that were in flight when its core accepted an event, newest first, each with the value that the
  register held (R207). -/
  parked : List (VecWrite × Nat) := []
  /-- Stores of the interrupted item that were in flight then, newest first, each with the word that its place held. -/
  parkedStores : List (VecStore × Word) := []
  /-- Bundles issued at that acceptance. -/
  parkedAt : Nat := 0
  /-- Call stack, newest first. -/
  stack : List Nat := []
  /-- A control bundle's transfer and the delay slots still to issue. -/
  xfer : Option (Nat × VecXfer) := none
  /-- Repetitions of the next bundle still to issue (R197). -/
  rep : Option Nat := none
  /-- The word of the repeated bundle, once it has been fetched (R198). -/
  repWord : Option Nat := none
  /-- A bundle that waits. -/
  wait : Option (VecWait × Bundle) := none
  /-- Posted window writes are outstanding. -/
  posted : Bool := false
  /-- The item the core holds. -/
  item : Option WorkItem := none
  /-- END and its delay slots have issued. -/
  ended : Bool := false
  /-- Affinity record: KERNEL and STATE_ADDR of the last item (R227). -/
  affinity : Option (Nat × Nat) := none
  /-- A gated core's wake has begun (R230). -/
  waking : Bool := false
  /-- The active position at which the core was given its item; 63 before the first (R232). -/
  pos : Nat := 63
  /-- Sources of the events accepted since the checkpoint, oldest first, up to 64 (R366). -/
  accepted : List Nat := []
  /-- The shadow register set as it stood at the last RTE (R366). -/
  rte : List (Nat × Nat) := []
  deriving DecidableEq, Repr

/-- The part of a checkpoint that belongs to one core (R366). -/
structure CoreCkpt where
  /-- Shadow registers as they stood at the last RTE. -/
  shadow : List (Nat × Nat)
  /-- X handler area. -/
  xarea : List (Nat × Word)
  /-- Y handler area. -/
  yarea : List (Nat × Word)
  /-- Affinity record. -/
  affinity : Option (Nat × Nat)
  /-- EVT's record of the core: the word of EVT.CORE_PRI (R238). -/
  route : Word
  deriving DecidableEq, Repr

/-- A checkpoint of a crosspoint cluster (R366). -/
structure XpCkpt where
  /-- Active position. -/
  pos : Nat
  /-- Lane assignment: the active lanes that its four lanes are. -/
  lanes : List Nat
  /-- Lane self-test signature. -/
  sign : Word
  deriving DecidableEq, Repr

/-- A replacement or substitution that waits for its epoch (R367, R369). -/
structure Subst where
  /-- 0 crosspoint, 1 vector. -/
  pool : Nat
  /-- Physical cluster. -/
  cluster : Nat
  /-- T. -/
  epoch : Nat
  /-- A planned replacement; else a hard fault. -/
  planned : Bool
  deriving DecidableEq, Repr

/-- The patrol of one pool (R371). -/
structure Patrol where
  /-- Active cluster position patrolled. -/
  pos : Nat := 0
  /-- Epoch at which its turn began. -/
  since : Nat := 0
  /-- The position with which the moon has disagreed. -/
  suspect : Option Nat := none
  deriving DecidableEq, Repr

/-- Moon clusters (R365 to R371) beside TWN.MOON_STATUS. -/
structure Moon where
  /-- Physical crosspoint cluster at each of the four active positions. -/
  xpPlaces : List Nat := [0, 1, 2, 3]
  /-- Retired crosspoint clusters. -/
  xpRetired : List Nat := []
  /-- Replacements and substitutions that wait. -/
  jobs : List Subst := []
  /-- The patrol of each pool, while PATROL.EN is active. -/
  patrols : List (Nat × Patrol) := []
  /-- Checkpoint slots of each crosspoint cluster, newest first: epoch and checkpoint. -/
  xpCkpt : List (Nat × List (Nat × XpCkpt)) := []
  /-- Checkpoint slots of each vector cluster, newest first: epoch and cores. -/
  vecCkpt : List (Nat × List (Nat × List CoreCkpt)) := []
  /-- The last epoch of ordered mode by recovery (R229, R367). -/
  recover : Option Nat := none
  deriving DecidableEq, Repr

/-- What came to a gain in an epoch (R363). -/
structure GainHeard where
  /-- The gain, by `gainKey`. -/
  key : Nat
  /-- The epoch. -/
  epoch : Nat
  /-- The gain that was asked for. -/
  goal : Int
  /-- Samples, newest first. -/
  xs : List Int
  deriving DecidableEq, Repr

/-- TWN beside its registers (chapter 16). -/
structure Twn where
  /-- It ran in the epoch before. -/
  ran : Bool := false
  /-- SEQ of the last frames taken, newest first (R350). -/
  rxSeqs : List (BitVec 16) := []
  /-- EPOCH frames received, newest first. -/
  rx : List TwinEpoch := []
  /-- Lanes that delivered a valid frame in this epoch. -/
  laneNow : List Nat := []
  /-- Epochs in a row without one, by lane. -/
  laneIdle : Nat × Nat := (0, 0)
  /-- Epochs in a row not heard, and heard. -/
  missRun : Nat := 0
  /-- Epochs in a row heard. -/
  hearRun : Nat := 0
  /-- Compared epochs in a row that agreed. -/
  agreeRun : Nat := 0
  /-- Divergent epochs in a row (R355). -/
  divRun : Nat := 0
  /-- Digests of the output channels that are not silent, by epoch, newest first (R352). -/
  digests : List (Nat × List (Nat × BitVec 64)) := []
  /-- The EPOCH frame last sent. -/
  sent : Option TwinEpoch := none
  /-- Frames sent in the epoch, oldest first, byte by byte (R350). -/
  out : List (List Byte) := []
  /-- SEQ of the next frame. -/
  seq : Nat := 0
  /-- The MSG frame last sent: code and K. -/
  msg : Option (Nat × Nat) := none
  /-- Epoch of the last JOIN_REQUEST sent in this join (R363). -/
  asked : Option Nat := none
  /-- A compared epoch whose result is not yet reported: the epoch, how many channels differ, the lowest, and the divergent epochs in a
  row before it (R355). -/
  judged : Option (Nat × Nat × Nat × Nat) := none
  /-- Joins answered so far. -/
  answers : Nat := 0
  /-- K of this twin's own join. -/
  joinK : Option Nat := none
  /-- K of the join that this twin serves. -/
  serveK : Option Nat := none
  /-- STATE records received: kind, epoch of receipt and bytes by offset (R363). -/
  followed : List (Nat × Nat × List (Nat × Byte)) := []
  /-- What came to the gains of kind 3 in the last epochs of a join, newest first (R363). -/
  heard : List GainHeard := []
  /-- Words of the mirror of insert-group state that have arrived: offset in MEM1 of the word mirrored, epoch of arrival (R363). -/
  arrived : List (Nat × Nat) := []
  /-- Groups whose mirror was complete at the release of their last block (R363). -/
  mirrored : List Nat := []
  /-- A claim of the outputs has been confirmed: the port drivers and MCLK outputs follow the gate (R357). -/
  confirmed : Bool := false
  /-- Conflicts since this twin last owned the outputs (R359). -/
  conflicts : Nat := 0
  /-- ACTIVE_OUT was released in a conflict and the backoff has not passed. -/
  released : Bool := false
  /-- SIDE_CONFLICT has been logged since PORST_N. -/
  sideLogged : Bool := false
  /-- The watchdog is armed (R361). -/
  armed : Bool := false
  /-- The last epoch whose reduction completed. -/
  reduced : Option Nat := none
  deriving DecidableEq, Repr

/-- VEC. -/
structure Vec where
  /-- Cores, by 4 x physical cluster + core. -/
  cores : List (Nat × VecCore) := []
  /-- Shared memories, by physical cluster. -/
  shared : List (Nat × List (Nat × Word)) := []
  /-- Physical cluster at each of the eight active cluster positions; none where the position is removed (R370). -/
  places : List (Option Nat) := [some 0, some 1, some 2, some 3, some 4, some 5, some 6, some 7]
  /-- Core positions whose cluster has failed and which the moon has not yet taken (R239). -/
  away : List Nat := []
  /-- Core positions of a planned replacement to which EVT offers nothing (R239, R369). -/
  closing : List Nat := []
  /-- Retired clusters (R367). -/
  retired : List Nat := []
  /-- Ranges of a reload and the cores that still have to take them, between items (R390). -/
  load : Option (List (Nat × Nat × List Nat) × List Nat) := none
  /-- VEC ran in the epoch before. -/
  ran : Bool := false
  deriving DecidableEq, Repr

/-- A group entry of the work-item table (Table 10-2). -/
structure InsGroup where
  /-- Stage. -/
  stage : Nat
  /-- First channel. -/
  first : Nat
  /-- C. -/
  count : Nat
  /-- Kernel ID. -/
  kernel : Nat
  /-- STATE_ADDR. -/
  stateAddr : Nat
  /-- STATE_LEN. -/
  stateLen : Nat
  /-- PARAM. -/
  param : Word
  deriving DecidableEq, Repr

/-- An insert stage's buffers for one block. -/
structure StageBlock where
  /-- Epoch of the release. -/
  epoch : Nat
  /-- Block. -/
  block : Nat
  /-- The stage's input, which is also the dry path (R215). -/
  input : Audio
  /-- Channels delivered by items. -/
  out : Audio
  /-- Groups delivered, ascending. -/
  delivered : List Nat
  /-- The item cutoff has passed. -/
  cut : Bool
  /-- Groups counted as having missed the block, ascending (R224). -/
  missed : List Nat := []
  deriving DecidableEq, Repr

/-- An insert stage (R220 to R224). -/
structure Stage where
  /-- Blocks released, newest first; at most two. -/
  blocks : List StageBlock := []
  /-- Groups whose block came from its item, in the block last given out (R223). -/
  wet : List Nat := []
  /-- Groups that have missed since they were last wet. -/
  missed : List Nat := []
  /-- The last sample that each channel of the stage gave out. -/
  last : List (Nat × Int) := []
  /-- The last epoch at which the stage was not enabled. -/
  off : Option Nat := none
  /-- The block that the stage last gave out. -/
  done : Option Nat := none
  /-- Groups that fell back in the epoch, one for each miss, for its entry (R224, R466). -/
  dry : List Nat := []
  deriving DecidableEq, Repr

/-- WD (chapter 10). -/
structure Wd where
  /-- The ready list. -/
  ready : List WorkItem := []
  /-- Sequence number of the next enqueue. -/
  seq : Nat := 0
  /-- Groups of the active table. -/
  groups : List InsGroup := []
  /-- Kernel table: kernel ID and entry address (R380). -/
  kernels : List (Nat × Nat) := []
  /-- Tables that were replaced, newest first: the epoch E of the replacement, and the groups and kernels for the blocks before E (R219). -/
  prior : List (Nat × List InsGroup × List (Nat × Nat)) := []
  /-- Stages. -/
  stages : List (Nat × Stage) := []
  /-- The descriptor stored by WD.SUBMIT, by word. -/
  submit : List (Nat × Word) := []
  /-- Completion records written so far. -/
  records : Nat := 0
  /-- WD was enabled in the epoch before. -/
  ran : Bool := false
  /-- WD may run: the credits did not exceed 4,096 when it started. -/
  started : Bool := false
  /-- Ordered mode by recovery (R229). -/
  recovery : Bool := false
  deriving DecidableEq, Repr

/-- EVT (chapter 10); pending and mask bits are in EVT.PEND and EVT.MASK. -/
structure Evt where
  /-- Sources in holdoff (R237). -/
  holdoff : List Nat := []
  deriving DecidableEq, Repr

/-- A DRAM request that waits for the end of self-refresh (R341). -/
structure DramReq where
  /-- Channel byte offset. -/
  off : Nat
  /-- A write. -/
  write : Bool
  /-- The open hint (R336). -/
  rowOpen : Bool
  /-- Requesting master. -/
  master : Nat
  /-- The error it meets. -/
  err : DramErr
  deriving DecidableEq, Repr

/-- A DRAM controller beside its registers (R334 to R343). -/
structure Dram where
  /-- Open rows, by bank. -/
  rows : List (Nat × Nat) := []
  /-- Requests held by self-refresh, oldest first. -/
  held : List DramReq := []
  /-- Requests served. -/
  served : Nat := 0
  /-- Ranks in power-down (R340). -/
  down : List Nat := []
  /-- The epoch of the last retraining pause (R339). -/
  paused : Option Nat := none
  /-- The engine period in which self-refresh was entered (R341). -/
  restAt : Option Nat := none
  /-- The engine period of the last retraining at the end of self-refresh (R341). -/
  trainedAt : Option Nat := none
  deriving DecidableEq, Repr

/-- A transaction outstanding at the crossbar. -/
structure XbarTx where
  /-- The segment. -/
  req : XbarReq
  /-- The target that it reached, by its number in Table 15-2; none where the crossbar itself answers. -/
  target : Option Nat
  /-- The answer that the decoding of the address already gives. -/
  answer : XResp
  /-- The boot window showed system SRAM when the request was accepted (R328). -/
  remap : Bool
  /-- Its master has been reset since: data are discarded and no byte is written (R333). -/
  void : Bool
  /-- At a DRAM channel: the 64-byte bursts that it still waits for, by number (R332). -/
  left : List Nat := []
  deriving DecidableEq, Repr

/-- The crossbar beside its registers (chapter 15). -/
structure Xbar where
  /-- Outstanding transactions, oldest first. -/
  out : List XbarTx := []
  /-- Requests held at their masters, oldest first, and whether HOLD_COUNT has counted them (R325, R331). -/
  waiting : List (XbarReq × Bool) := []
  /-- The master last granted, by target (R329). -/
  last : List (Nat × Nat) := []
  /-- The last answer to each master: transaction ID, response and the bytes read. -/
  answers : List (Nat × Nat × XResp × List Byte) := []
  deriving DecidableEq, Repr

/-- Memories behind the crossbar, as bytes by offset; unlisted bytes are zero. -/
structure Mem where
  /-- System SRAM, 4 MiB. -/
  sram : List (Nat × Byte) := []
  /-- MEM0 but for the bulk lines and the RC region, which XP and RC hold. -/
  mem0 : List (Nat × Byte) := []
  /-- Bytes of the RC region that a crossbar write has set since RC last ran. -/
  rcRegion : List (Nat × Byte) := []
  /-- MEM1 but for the supervisor reserved region. -/
  mem1 : List (Nat × Byte) := []
  /-- Bytes of the supervisor reserved region that have been written: by the crossbar, by a reload and by a joining twin (R327). -/
  reserved : List (Nat × Byte) := []
  /-- Tables in the active half of the render configuration window, by section type (Table 15-2). -/
  active : List (Nat × List Byte) := []
  /-- Tables in the standby half. -/
  standby : List (Nat × List Byte) := []
  /-- The bytes of the window's halves outside the tables. -/
  render : List (Nat × Byte) := []
  deriving DecidableEq, Repr

/-- A master heard of by Announce messages. -/
structure PtpMaster where
  /-- sourcePortIdentity. -/
  source : Nat
  /-- grandmasterIdentity. -/
  gmId : Nat
  /-- priority1. -/
  priority1 : Nat
  /-- clockClass. -/
  clockClass : Nat
  /-- clockAccuracy. -/
  accuracy : Nat
  /-- offsetScaledLogVariance. -/
  variance : Nat
  /-- priority2. -/
  priority2 : Nat
  /-- stepsRemoved. -/
  steps : Nat
  /-- currentUtcOffset. -/
  utc : Int
  /-- Announces heard, up to 2. -/
  heard : Nat
  /-- The address its Announce came from. -/
  addr : Option IpAddr := none
  deriving DecidableEq, Repr

/-- A media time (R269). -/
structure MediaTime where
  /-- Seconds since the PTP epoch. -/
  sec : BitVec 48
  /-- Nanoseconds. -/
  ns : BitVec 30
  /-- Fraction of a nanosecond. -/
  frac : BitVec 16
  deriving DecidableEq, Repr

/-- A PTP instance beside its registers (R271 to R280). Times are in 1/16 ns. -/
structure PtpInst where
  /-- It ran in the epoch before. -/
  ran : Bool := false
  /-- Masters heard of. -/
  masters : List PtpMaster := []
  /-- The parent's sourcePortIdentity. -/
  parent : Option Nat := none
  /-- A two-step Sync that waits for its Follow_Up: sequence, t2, correction. -/
  sync : Option (Nat × Int × Int) := none
  /-- ms of the last Sync, the asymmetry row of its stamp and whether its exchange has been counted. -/
  ms : Option (Int × Nat × Bool) := none
  /-- Sequence of the Delay_Req that is out. -/
  req : Option Nat := none
  /-- t3 of that Delay_Req and the row of its stamp. -/
  t3 : Option (Int × Nat) := none
  /-- Path delays of the last exchanges, newest first, up to 8. -/
  mpds : List Int := []
  /-- Filtered offset. -/
  off : Option Int := none
  /-- Outliers in a row. -/
  outliers : Nat := 0
  /-- Syncs measured, each with a completed exchange, since the last event of R280. -/
  good : Nat := 0
  /-- A Sync has come within 3 intervals. -/
  fresh : Bool := false
  /-- Sequence of the next Delay_Req, Sync and Announce. -/
  seqs : Nat × Nat × Nat := (0, 0, 0)
  /-- logMinDelayReqInterval granted by the master. -/
  grant : Int := 0
  /-- Delay_Req answered in the PTP second. -/
  served : Nat := 0
  /-- Epoch since which the instance has been qualified with an offset within SWITCH_MAX. -/
  since : Option Nat := none
  deriving DecidableEq, Repr

/-- The servo and the media time (R269, R281 to R287). The count of MED since the first epoch began is the device's own time;
media time is that count plus `base`. -/
structure Servo where
  /-- The count at the start of the epoch in progress, in 1/48 ns. -/
  epochAt : Int := 0
  /-- Media time less the count, in 1/16 ns. -/
  base : Int := 0
  /-- Count at the last update of the steering word, 1/16 ns. -/
  updated : Option Int := none
  /-- Count at the last Sync of the selected source that updated the loop, 1/16 ns. -/
  synced : Option Int := none
  /-- The loop's part of the steering word (R283). -/
  loop : Int := 0
  /-- The integral part of the loop, in 2^-32 parts per 10^12. -/
  integ : Int := 0
  /-- The profile's part of the steering word (R284), in thirds of 1 part per 10^12. -/
  prof : Int := 0
  /-- What of the residual the profile has yet to remove, in 1/9000 ps. -/
  rem : Int := 0
  /-- Steering words at the last epoch starts in LOCKED or SLEWING, up to 16 s, newest first (R287). -/
  words : List Int := []
  /-- Syncs in a row within 1 us, in ACQUIRING. -/
  run : Nat := 0
  /-- Count at which the servo locked in ACQUIRING; the timebase has not loaded since. -/
  lockedAt : Option Int := none
  /-- The word that HOLDOVER moves to. -/
  target : Int := 0
  /-- A source has been selected since the servo left FREE. -/
  chosen : Bool := false
  /-- The servo has left ACQUIRING (R282). -/
  left : Bool := false
  /-- The selected source is kept through a restart of its filter (R286, TIME_JUMP). -/
  kept : Bool := false
  /-- The plane of the candidate that was refused (R286). -/
  refused : Option Nat := none
  /-- A timebase reload has been accepted and the outputs move to zero (R321). -/
  reload : Bool := false
  /-- CLK.TUNE_CFG.SOURCE was 1 in the epoch before. -/
  follow : Bool := false
  deriving DecidableEq, Repr

/-- CLK beside its registers (chapter 13). -/
structure Clk where
  /-- PLLs that are locking. -/
  locking : List Nat := []
  /-- Locks done so far. -/
  locks : Nat := 0
  /-- PLLs whose lock has begun and that no SYNC_IN edge has reached in sync mode since (R297). -/
  sync : List Nat := []
  /-- The noise-shaping accumulator of OSC_TUNE (R291). -/
  acc : Nat := 0
  /-- High time h of the PWM period. -/
  high : Nat := 0
  /-- The last SPI frame (R292). -/
  frame : Option Nat := none
  /-- The code of the last SPI frame. -/
  sent : Option Nat := none
  /-- The code when holdover began, which OSC_TUNE keeps after a failover to REFCLK_ALT (R304). -/
  kept : Option Nat := none
  /-- Digital steering offset of the root and audio PLLs, parts per 3 x 10^12 (R304, R305). -/
  steer : Int := 0
  /-- What is added to the feedback ratio of the root and audio PLLs, in the same unit: the offset and, on REFCLK_ALT, the word. -/
  feed : Int := 0
  deriving DecidableEq, Repr

/-- A section descriptor (Table 17-3). -/
structure SecDesc where
  /-- TYPE. -/
  type : Nat
  /-- OFFSET in the bank. -/
  off : Nat
  /-- LENGTH. -/
  len : Nat
  /-- CRC. -/
  crc : Word
  deriving DecidableEq, Repr

/-- A manifest (Table 17-2). -/
structure Manifest where
  /-- GENERATION. -/
  gen : Nat
  /-- RATE is 96 kHz. -/
  rate96 : Bool
  /-- KEY_SLOT. -/
  slot : Nat
  /-- START: automatic start. -/
  start : Bool
  /-- AUTO_CONFIRM. -/
  auto : Bool
  /-- CRC-32C of the whole manifest. -/
  crc : Word
  /-- Descriptors. -/
  secs : List SecDesc
  deriving DecidableEq, Repr

/-- The boot record in force (R385). -/
structure BootRec where
  /-- Record sequence. -/
  seq : Nat := 0
  /-- CONFIRMED generation. -/
  confirmed : Nat := 0
  /-- TRIAL generation. -/
  trial : Nat := 0
  /-- TRIES. -/
  tries : Nat := 0
  /-- FAILED generation. -/
  failed : Nat := 0
  deriving DecidableEq, Repr

/-- A section of a reload that differs from the running one. -/
structure ReloadSec where
  /-- TYPE. -/
  type : Nat
  /-- Payload: as the flash gave it, and from its check on as the block took it out of MEM1. -/
  data : List Byte
  /-- Where the payload is staged in MEM1 (R327, R390). -/
  place : Nat
  /-- Its check has passed and its block is ready. -/
  ready : Bool
  deriving DecidableEq, Repr

/-- A live reload that is LOADING or READY (R390). -/
structure Reload where
  /-- Its manifest. -/
  manifest : Manifest
  /-- Sections that differ. -/
  secs : List ReloadSec
  deriving DecidableEq, Repr

/-- Where the boot stands (Table 17-5). -/
inductive BootPhase where
  /-- In reset. -/
  | reset
  /-- Step 1: the root and audio PLLs lock. -/
  | lock
  /-- Step 4: the boot commit waits (R382). -/
  | commit
  /-- Step 4: the channels train. -/
  | train
  /-- Steps 5 and 7: the sections bound for SRAM are loaded, the channels are wiped. -/
  | wipe
  /-- Every section is loaded. -/
  | loaded
  /-- Step 8 has ended; the commit of R387 waits. -/
  | starting
  /-- That commit has been applied, or is not needed. -/
  | done
  /-- No image (R388). -/
  | noImage
  deriving DecidableEq, Repr

/-- Boot, flash and reset of the package (chapters 17 and 20). -/
structure Boot where
  /-- Boot step 8 has ended and PORST_N has not fallen since (R399). -/
  up : Bool := false
  /-- Phase. -/
  phase : BootPhase := .reset
  /-- PORST_N is low. -/
  porst : Bool := true
  /-- The standby reset is asserted. -/
  standby : Bool := true
  /-- Density of the fitted flash: 1 64 MiB, 2 128 MiB, 3 256 MiB, 0 none usable (R373). -/
  density : Nat := 2
  /-- Flash contents that are not erased, by flash offset. -/
  flash : List (Nat × Byte) := []
  /-- Manifest of the image that boots or runs. -/
  manifest : Option Manifest := none
  /-- Banks found unusable in this boot (R383). -/
  bad : List Nat := []
  /-- EN shadows kept aside: register offset and value (R382, R387). -/
  kept : List (Nat × Word) := []
  /-- The bank that is not running has been written since it last became that (R389). -/
  dirty : Bool := false
  /-- A reload. -/
  reload : Option Reload := none
  /-- Epochs in a row with TIMEBASE PTP since the running generation began (R386). -/
  ptpRun : Nat := 0
  /-- Flash operations done. -/
  ops : Nat := 0
  /-- The transition that this boot follows, its old and its new state, which opens the error log (R433). -/
  opening : Option (Nat × Nat) := none
  deriving DecidableEq, Repr

/-- The power controller beside its registers (chapter 20). -/
structure Pmc where
  /-- Sensors that have raised THERMAL_SHUTDOWN since PORST_N; any of them holds THERM_ALERT_N (R454). -/
  shut : List Nat := []
  /-- Sensors whose last sample was 125 degrees or more (R454). -/
  hot : List Nat := []
  /-- Sensors 5 to 7 whose last sample was 135 degrees or more (R455). -/
  hotter : List Nat := []
  /-- Sensors that met a condition of R455 at the last sample. -/
  burnt : List Nat := []
  /-- Samples in a row with every sensor at 100 degrees or less (R453). -/
  cool : Nat := 0
  deriving DecidableEq, Repr

/-- The output balls of Table 20-5. -/
inductive Ball where
  /-- A SerDes transmitter: 0, 1 the media ports, 2, 3 the twin link, 4 the management port. -/
  | serdesTx (lane : Nat)
  /-- SAPn_DOUT, SAPn_BCLK and SAPn_FS. -/
  | sapOut (port : Nat)
  /-- MCLK_OUTn. -/
  | mclkOut (n : Nat)
  /-- OSC_TUNE. -/
  | oscTune
  /-- OSC_TUNE_SCLK. -/
  | oscTuneSclk
  /-- OSC_TUNE_CS_N. -/
  | oscTuneCsN
  /-- ACTIVE_OUT. -/
  | activeOut
  /-- PWRGD_OUT. -/
  | pwrgdOut
  /-- THERM_ALERT_N. -/
  | thermAlertN
  /-- XSPI_CS_N. -/
  | xspiCsN
  /-- XSPI_SCLK. -/
  | xspiSclk
  /-- XSPI_IO0 to 7 and XSPI_DQS. -/
  | xspiIo
  /-- XSPI_RESET_N. -/
  | xspiResetN
  /-- SVC_MISO. -/
  | svcMiso
  /-- TDO. -/
  | tdo
  /-- MEMx_RESET_N. -/
  | memResetN (ch : Nat)
  /-- MEMx_CS_N0 and 1. -/
  | memCsN (ch : Nat)
  /-- The other outputs of MEMx. -/
  | memOther (ch : Nat)
  deriving DecidableEq, Repr

/-- How an output ball is driven. -/
inductive Drive where
  /-- Driven low. -/
  | low
  /-- Driven high. -/
  | high
  /-- High with a weak pull-up. -/
  | pulledUp
  /-- High-impedance with a weak pull-down. -/
  | pulledDown
  /-- High-impedance. -/
  | highZ
  /-- Electrical idle. -/
  | idle
  /-- As its own unit drives it. -/
  | own
  deriving DecidableEq, Repr

/-- A management session (R404 to R406). -/
structure Session where
  /-- SESSION. -/
  id : Nat
  /-- Session key. -/
  key : List Byte
  /-- PERMS. -/
  perms : Nat
  /-- SEQ of the last accepted REQUEST. -/
  seq : Option Nat
  /-- The RESPONSE to it, once sent. -/
  resp : List Byte
  /-- Tag failures in a row. -/
  badTags : Nat
  /-- Epochs since the last accepted REQUEST. -/
  idle : Nat
  deriving DecidableEq, Repr

/-- A command of a request: OP and operands; none where LEN runs past the body. -/
structure MgmtCmd where
  /-- OP. -/
  op : Nat
  /-- Operands. -/
  args : Option (List Byte)
  deriving DecidableEq, Repr

/-- What the command in execution waits for. -/
inductive MgmtWait where
  /-- Nothing: it has not begun. -/
  | none
  /-- The first epoch start after a commit command's write (R410). -/
  | commit
  /-- That epoch start has come: COMMIT_TARGET, SEQ and RESULT as it latched them. -/
  | result (target seq result : Nat)
  /-- The flash, which erases n bytes. -/
  | erase (off n : Nat)
  /-- The flash, which programs bytes. -/
  | program (off : Nat) (bytes : List Byte)
  deriving DecidableEq, Repr

/-- A request in the supervisor's queue (R407). -/
structure MgmtReq where
  /-- Port it came by: 0, 1 the planes, 2 the management port, 3 the mailbox. -/
  port : Nat
  /-- Source address and port, as a number. -/
  src : Nat
  /-- Session. -/
  session : Nat
  /-- SEQ. -/
  seq : Nat
  /-- Permissions. -/
  perms : Nat
  /-- Commands not yet ended. -/
  todo : List MgmtCmd
  /-- Entries of the response so far, in order: OP, STATUS and data. -/
  out : List (Nat × Nat × List Byte)
  /-- A command has failed. -/
  failed : Bool
  /-- The session closes after the response. -/
  closes : Bool
  /-- What the first command of `todo` waits for. -/
  wait : MgmtWait
  deriving DecidableEq, Repr

/-- The management protocol and the service SPI (chapter 18). -/
structure Mgmt where
  /-- Provisioned keys: KEY_ID, PERMS and key (R403). -/
  keys : List (Nat × Nat × List Byte) := []
  /-- Open sessions. -/
  sessions : List Session := []
  /-- Requests in the order in which they are executed. -/
  queue : List MgmtReq := []
  /-- HELLO datagrams answered in the second (R405). -/
  hellos : Nat := 0
  /-- Random numbers drawn. -/
  drawn : Nat := 0
  /-- The datagram last sent by the management port: destination and bytes. -/
  sent : Option (Nat × List Byte) := none
  /-- A mailbox response that waits. -/
  mbox : Option (List Byte) := none
  /-- ERROR of the status byte. -/
  error : Bool := false
  /-- What MISO gave in the last frame. -/
  miso : List Byte := []
  deriving DecidableEq, Repr

/-- PERF beside its registers (R419). -/
structure Perf where
  /-- Cycle counters, by counter block. -/
  cycles : List (Nat × Nat) := []
  /-- What the CYCLE registers return while the counters are frozen (R419). -/
  frozen : Bank := []
  /-- Counter blocks whose unit was power-gated when the epoch began. -/
  gated : List Nat := List.range' 16 40
  /-- Counter blocks whose unit was gated or powered within the epoch. -/
  mixed : List Nat := []
  /-- A FREEZE is pending. -/
  freeze : Bool := false
  /-- A RELEASE is pending. -/
  release : Bool := false
  /-- A CLEAR is pending. -/
  clear : Bool := false
  deriving DecidableEq, Repr

/-- The measurement capture of RC (R175, R176). -/
structure Cap where
  /-- Epoch at which the capture in progress began. -/
  start : Option Nat := none
  /-- SLOT in force for it. -/
  slot : Nat := 0
  /-- GEN in force for it. -/
  gen : Nat := 0
  /-- LEN in force for it. -/
  len : Nat := 0
  /-- LAGS in force for it. -/
  lags : Nat := 0
  /-- Its buffer's offset in MEM1. -/
  base : Nat := 0
  /-- Blocks captured. -/
  done : Nat := 0
  /-- Blocks of the measurement generators that are not silent, by 4 x presentation epoch + generator. -/
  refs : Audio := []
  /-- The last captured block with its epoch, not yet correlated. -/
  block : Option (Nat × List Int) := none
  /-- Correlation sums by lag, in units of 2^-46. -/
  sums : List Int := []
  deriving DecidableEq, Repr

/-- Why a command stops the model. The spec gives every command of the table an effect, and every error it describes is an
effect on the state, so no command of this block ends in a fault: the type has one constructor and no meaning raises it. -/
inductive Fault where
  /-- Raised by no command; safe. -/
  | noneRaised
  deriving DecidableEq, Repr

/-- Why a command is turned away. -/
inductive Refusal where
  /-- The command has no meaning yet; raised by the arms of exec that name it. Safe: the model stops. -/
  | notModelled (mnemonic : String)
  /-- An operand names a unit the device does not have (a slot, port, core or stream beyond the last), so that no such event
  exists; raised by the commands that name a unit. Safe: the model stops. -/
  | noSuchUnit
  deriving DecidableEq, Repr

/-- Everything the spec gives the device but the queue of waiting commands. -/
structure Dev where
  /-- Registers. -/
  regs : Regs := {}
  /-- Epochs and commits. -/
  epc : Epc := {}
  /-- Error log. -/
  err : Err := {}
  /-- Boot, flash and reset. -/
  boot : Boot := {}
  /-- Power controller. -/
  pmc : Pmc := {}
  /-- Management. -/
  mgmt : Mgmt := {}
  /-- Performance counters. -/
  perf : Perf := {}
  /-- Measurement capture. -/
  cap : Cap := {}
  /-- Gains that step at zero crossings, by `gainKey`. -/
  gains : List (Nat × GainCell) := []
  /-- Generators: 0 to 7 of GRAPH, 8 to 11 of RC (R173). -/
  gens : List (Nat × Gen) := []
  /-- Indigo. -/
  neti : Plane := {}
  /-- Ochre. -/
  neto : Plane := {}
  /-- Serial ports. -/
  sap : Sap := {}
  /-- Conditioning. -/
  cnd : Cnd := {}
  /-- Object slots. -/
  obj : Obj := {}
  /-- Geometry engine. -/
  geo : Geo := {}
  /-- Crosspoint engine. -/
  xp : Xp := {}
  /-- Room correction. -/
  rc : Rc := {}
  /-- Vector cores. -/
  vec : Vec := {}
  /-- Moon clusters. -/
  moon : Moon := {}
  /-- Twin link and interlock. -/
  twn : Twn := {}
  /-- Work dispatcher. -/
  wd : Wd := {}
  /-- Event controller. -/
  evt : Evt := {}
  /-- Memories behind the crossbar. -/
  mem : Mem := {}
  /-- MEM0's controller. -/
  dram0 : Dram := {}
  /-- MEM1's controller. -/
  dram1 : Dram := {}
  /-- Crossbar. -/
  xbar : Xbar := {}
  /-- PTPI. -/
  ptpi : PtpInst := {}
  /-- PTPO. -/
  ptpo : PtpInst := {}
  /-- Servo and media time. -/
  servo : Servo := {}
  /-- Clocks. -/
  clk : Clk := {}
  /-- Blocks between the stages. -/
  path : Path := {}
  deriving DecidableEq, Repr

/-- The block: its waiting commands, first in first out, and the device. -/
structure State where
  /-- Commands that wait, the front first. -/
  pending : List Instr
  /-- The device. -/
  dev : Dev
  deriving DecidableEq, Repr

/-- After reset: no command waits, every register holds its reset value and every memory what it holds after reset. -/
def State.reset : State := { pending := [], dev := {} }

end Sys2Proof.Machine
end

