-- ==== Sys2Proof/Machine/Num.lean ====
section
/-!
DEFINITION. Sys2Proof/Machine/Num.lean: the arithmetic the rules share: bits of a word, signed readings, convergent rounding
(R4), saturation, and real functions to far more bits than any rule keeps. A real number is held as an integer in units of
2^-160. Where a rule takes an exact real value rounded once by R4, the value is computed to within 2^-120 and a value closer
than 2^-80 to a tie is taken as the tie (assumption log entry 3).
-/
namespace Sys2Proof.Machine

/-- Bits hi:lo of a word, as a number. -/
def bits (w : Word) (hi lo : Nat) : Nat := (w.toNat >>> lo) % 2 ^ (hi - lo + 1)

/-- Bit i of a word. -/
def bit (w : Word) (i : Nat) : Bool := w.toNat.testBit i

/-- The mask of bits hi:lo. -/
def maskOf (hi lo : Nat) : Nat := (2 ^ (hi - lo + 1) - 1) <<< lo

/-- The word with bits hi:lo replaced by the low bits of v. -/
def setBits (w : Word) (hi lo v : Nat) : Word :=
  BitVec.ofNat 32 (w.toNat - (bits w hi lo) <<< lo + (v % 2 ^ (hi - lo + 1)) <<< lo)

/-- The word with bit i set to b. -/
def setBit (w : Word) (i : Nat) (b : Bool) : Word := setBits w i i b.toNat

/-- The signed reading of the low n bits of v (two's complement). -/
def sext (n v : Nat) : Int :=
  let u := v % 2 ^ n
  if u < 2 ^ (n - 1) then (u : Int) else (u : Int) - (2 ^ n : Nat)

/-- The n-bit two's complement code of an integer. -/
def code (n : Nat) (x : Int) : Nat := (x % (2 ^ n : Nat)).toNat

/-- A signed integer as a 32-bit word. -/
def wordOf (x : Int) : Word := BitVec.ofNat 32 (code 32 x)

/-- The quotient num / den rounded to nearest, ties to even (R4); den is positive. -/
def rne (num : Int) (den : Nat) : Int :=
  let q := num / (den : Int)
  let r := num % (den : Int)
  if 2 * r < den then q
  else if 2 * r = den then (if q % 2 = 0 then q else q + 1)
  else q + 1

/-- x / 2^k rounded by R4. -/
def rshr (x : Int) (k : Nat) : Int := rne x (2 ^ k)

/-- x limited to lo..hi. -/
def clampI (lo hi x : Int) : Int := if x < lo then lo else if x > hi then hi else x

/-- Saturation to a signed n-bit number. -/
def satS (n : Nat) (x : Int) : Int := clampI (-(2 ^ (n - 1) : Nat)) ((2 ^ (n - 1) : Nat) - 1) x

/-- Whether saturation to n bits changes x. -/
def overS (n : Nat) (x : Int) : Bool := satS n x ≠ x

/-- A Q4.28 value at or beyond 8.0 in magnitude saturates (R146, R160). -/
def over8 (x : Int) : Bool := decide (x ≥ 2 ^ 31 ∨ x ≤ -(2 ^ 31))

/-- The unit of real numbers: 1.0. -/
def fxOne : Nat := 2 ^ 160

/-- pi. -/
def fxPi : Int := 0x3243f6a8885a308d313198a2e03707344a4093822

/-- The natural logarithm of 2. -/
def fxLn2 : Int := 0xb17217f7d1cf79abc9e3b39803f2f6af40f34326

/-- The natural logarithm of 10. -/
def fxLn10 : Int := 0x24d763776aaa2b05ba95b58ae0b4c28a38a3fb3e7

/-- Product of two reals, rounded down. -/
def fxMul (a b : Int) : Int := a * b / (fxOne : Int)

/-- The real num / den. -/
def fxRat (num : Int) (den : Nat) : Int := num * (fxOne : Int) / (den : Int)

/-- Quotient of two reals. -/
def fxDiv (a b : Int) : Int :=
  if b = 0 then 0 else if b > 0 then a * (fxOne : Int) / b else (-a) * (fxOne : Int) / (-b)

/-- Terms of a power series: `term` times x / n at each step. -/
def fxSeries (fuel : Nat) (x term : Int) (n : Nat) (acc : Int) : Int :=
  match fuel with
  | 0 => acc
  | f + 1 =>
    let t := fxMul term x / (n : Int)
    fxSeries f x t (n + 1) (acc + t)

/-- The exponential of a real. -/
def fxExp (x : Int) : Int :=
  let k := x / fxLn2
  let r := x - k * fxLn2
  let e := fxSeries 44 r fxOne 1 fxOne
  if k ≥ 0 then e * (2 ^ k.toNat : Nat) else e / (2 ^ (-k).toNat : Nat)

/-- Terms of the sine or cosine series. -/
def fxTrig (fuel : Nat) (x2 term : Int) (n : Nat) (acc : Int) : Int :=
  match fuel with
  | 0 => acc
  | f + 1 =>
    let t := -(fxMul term x2 / ((n + 1 : Nat) * (n + 2 : Nat) : Int))
    fxTrig f x2 t (n + 2) (acc + t)

/-- The sine of an angle between 0 and pi / 2. -/
def fxSinQ (x : Int) : Int := fxTrig 24 (fxMul x x) x 1 x

/-- The cosine of an angle between 0 and pi / 2. -/
def fxCosQ (x : Int) : Int := fxTrig 24 (fxMul x x) fxOne 0 fxOne

/-- The sine of 2 pi num / den, den positive: exact at the multiples of a quarter turn. -/
def fxSinTurn (num : Int) (den : Nat) : Int :=
  let u := (num % (den : Int)).toNat * 4
  let q := u / den
  let r := u % den
  let a := fxMul (fxRat r den) fxPi / 2
  match q with
  | 0 => fxSinQ a
  | 1 => fxCosQ a
  | 2 => -(fxSinQ a)
  | _ => -(fxCosQ a)

/-- The cosine of 2 pi num / den. -/
def fxCosTurn (num : Int) (den : Nat) : Int := fxSinTurn (4 * num + den) (4 * den)

/-- Terms of the series of the inverse hyperbolic tangent. -/
def fxAtanh (fuel : Nat) (z2 pow : Int) (n : Nat) (acc : Int) : Int :=
  match fuel with
  | 0 => acc
  | f + 1 => fxAtanh f z2 (fxMul pow z2) (n + 2) (acc + pow / (n : Int))

/-- The natural logarithm of a positive real. -/
def fxLn (x : Int) : Int :=
  if x ≤ 0 then 0
  else
    let k : Int := (Nat.log2 x.toNat : Int) - 160
    let m := if k ≥ 0 then x / (2 ^ k.toNat : Nat) else x * (2 ^ (-k).toNat : Nat)
    let z := fxDiv (m - fxOne) (m + fxOne)
    2 * fxAtanh 60 (fxMul z z) z 1 0 + k * fxLn2

/-- Newton steps of the integer square root. -/
def isqrtLoop (fuel n x : Nat) : Nat :=
  match fuel with
  | 0 => x
  | f + 1 =>
    let y := (x + n / x) / 2
    if y < x then isqrtLoop f n y else x

/-- The integer square root, rounded down. -/
def isqrt (n : Nat) : Nat := if n = 0 then 0 else isqrtLoop 600 n (2 ^ (Nat.log2 n / 2 + 1))

/-- The square root of a real that is not negative. -/
def fxSqrt (x : Int) : Int := (isqrt (x.toNat * fxOne) : Int)

/-- A real times 2^k rounded by R4 to an integer; a value within 2^-80 of a tie is the tie. -/
def fxRound (x : Int) (k : Nat) : Int :=
  let y := x * (2 ^ k : Nat)
  let q := y / (fxOne : Int)
  let r := y - q * (fxOne : Int)
  let half : Int := (2 ^ 159 : Nat)
  if r - half < (2 ^ 80 : Nat) ∧ half - r < (2 ^ 80 : Nat) then (if q % 2 = 0 then q else q + 1)
  else if r < half then q else q + 1

/-- The integer square root rounded to nearest. -/
def sqrtRound (n : Nat) : Nat :=
  let s := isqrt n
  if n > s * s + s then s + 1 else s

/-- A dB field as R53 reads it: none is minus infinity, else the Q7.8 value limited to +24.0 dB. -/
def dbRead (v : Nat) : Option Int :=
  if v < 0x4000 then some (if v > 0x1800 then 0x1800 else (v : Int))
  else if v < 0x8000 then some 0x1800
  else if v < 0xC000 then none
  else some ((v : Int) - 0x10000)

/-- 10^(q / (256 * 20)) as a real. -/
def dbLin (q : Int) : Int := fxExp (q * fxLn10 / 5120)

/-- The linear gain of a dB field in UQ4.20 (R53). -/
def dbGain (v : Nat) : Int :=
  match dbRead v with
  | none => 0
  | some q => fxRound (dbLin q) 20

/-- The square root of num / den rounded by R4 to an integer. -/
def sqrtRatio (num den : Nat) : Nat :=
  let r := isqrt (num / den)
  let lhs := 4 * num
  let rhs := (2 * r + 1) * (2 * r + 1) * den
  if lhs > rhs then r + 1 else if lhs = rhs then r + r % 2 else r

/-- The arc tangent of a real between 0 and 1. -/
def fxAtan01 (z : Int) : Int :=
  let half := fun (t : Int) => fxDiv t ((fxOne : Int) + fxSqrt ((fxOne : Int) + fxMul t t))
  let u := half (half (half z))
  let u2 := fxMul u u
  8 * (((List.range 40).foldl (fun (a : Int × Int) n =>
    (a.1 + (if n % 2 = 0 then a.2 else -a.2) / ((2 * n + 1 : Nat) : Int), fxMul a.2 u2)) (0, u)).1)

/-- The angle of (x, y) from the x axis in radians, in (-pi, pi]; 0 at the origin. -/
def fxAtan2 (y x : Int) : Int :=
  if x = 0 ∧ y = 0 then 0
  else
    let ax : Int := x.natAbs
    let ay : Int := y.natAbs
    let a := if ay ≤ ax then fxAtan01 (fxDiv ay ax) else fxPi / 2 - fxAtan01 (fxDiv ax ay)
    let b := if x < 0 then fxPi - a else a
    if y < 0 then -b else b

/-- Merges two sorted lists; `fuel` is their length together. -/
def mergeBy {α : Type} (le : α → α → Bool) (fuel : Nat) (a b : List α) : List α :=
  match fuel with
  | 0 => a ++ b
  | f + 1 => match a, b with
    | [], _ => b
    | _, [] => a
    | x :: xs, y :: ys => if le x y then x :: mergeBy le f xs (y :: ys) else y :: mergeBy le f (x :: xs) ys

/-- Merge sort, stable; `fuel` is at least the logarithm of the length. -/
def sortBy {α : Type} (le : α → α → Bool) (fuel : Nat) (l : List α) : List α :=
  match fuel with
  | 0 => l
  | f + 1 => match l with
    | [] => []
    | [x] => [x]
    | _ =>
      let h := l.length / 2
      mergeBy le l.length (sortBy le f (l.take h)) (sortBy le f (l.drop h))

/-- Splits a list into chunks of n, at most `fuel` of them. -/
def chunks {α : Type} (fuel n : Nat) (l : List α) : List (List α) :=
  match fuel with
  | 0 => []
  | f + 1 => match l with
    | [] => []
    | _ => l.take n :: chunks f n (l.drop n)

/-- The number spelled by bytes, first byte most significant. -/
def beNat (bs : List Byte) : Nat := bs.foldl (fun a b => a * 256 + b.toNat) 0

/-- n bytes of a number, most significant first. -/
def beBytes (n v : Nat) : List Byte :=
  match n with
  | 0 => []
  | k + 1 => BitVec.ofNat 8 (v / 256 ^ k) :: beBytes k v

/-- The number spelled by bytes, first byte least significant. -/
def leNat (bs : List Byte) : Nat := bs.foldr (fun b a => a * 256 + b.toNat) 0

/-- n bytes of a number, least significant first. -/
def leBytes (n v : Nat) : List Byte :=
  match n with
  | 0 => []
  | k + 1 => BitVec.ofNat 8 v :: leBytes k (v / 256)

/-- Position i of a list of samples; 0 beyond its end. -/
def sampleAt (l : List Int) (i : Nat) : Int := l.getD i 0

/-- A list of samples with no trailing zero kept: the silent block is the empty list. -/
def trimZeros (l : List Int) : List Int := if l.all (· = 0) then [] else l

end Sys2Proof.Machine
end

