-- ==== Sys2Proof/Machine/Tables.lean ====
section
/-!
DEFINITION. Sys2Proof/Machine/Tables.lean: the fixed tables of the device as functions: the interpolator of R139, the pink
filter and its norm of R173, the crossfade weights of R50.
-/
namespace Sys2Proof.Machine

/-- The windowed sinc h of R139 at tap offset num / 256. -/
def interpH (num : Int) : Int :=
  let sinc : Int :=
    if num = 0 then fxOne
    else fxDiv (fxSinTurn num 512) (fxMul fxPi (fxRat num 256))
  let w : Int := fxRat 42 100 + fxCosTurn num 2304 / 2 + 8 * fxCosTurn num 1152 / 100
  fxMul sinc w

/-- The eight coefficients of phase f before the correction of the largest (R139). -/
def interpRaw (f : Nat) : List Int :=
  let hs := (List.range 8).map fun (t : Nat) => interpH (((t : Int) - 4) * 256 + (f : Int))
  let sum := hs.foldl (· + ·) 0
  hs.map fun h => fxRound (fxDiv h sum) 22

/-- The index of the entry of largest magnitude, the lower on a tie. -/
def argMaxAbs (l : List Int) (i best : Nat) (bv : Nat) : Nat :=
  match l with
  | [] => best
  | x :: t => if x.natAbs > bv then argMaxAbs t (i + 1) i x.natAbs else argMaxAbs t (i + 1) best bv

/-- The coefficients c[f][0..7] in Q2.22 (R139). -/
def interpRow (f : Nat) : List Int :=
  let c := interpRaw f
  let sum := c.foldl (· + ·) 0
  let m := argMaxAbs c 0 0 0
  c.set m (c.getD m 0 + (2 ^ 22 - sum))

/-- c[f][t] of R139. -/
def interpCoef (f t : Nat) : Int := (interpRow f).getD t 0

/-- num / 10^7 rounded by R4 to Q2.30. -/
def q30 (num : Int) : Int := rne (num * 2 ^ 30) 10000000

/-- The pole and weight of each section of the pink filter in Q2.30 (R173); rate 1 is 96 kHz. -/
def pinkSections (rate : Nat) : List (Int × Int) :=
  if rate = 0 then [(q30 9978410, q30 990460), (q30 9659540, q30 2965164), (q30 5966650, q30 10526913)]
  else [(q30 9989200, q30 990460), (q30 9828290, q30 2965164), (q30 7724230, q30 10526913)]

/-- The direct weight 0.1848 of the pink filter in Q2.30. -/
def pinkDirect : Int := q30 1848000

/-- RC.PINK_NORM: 2^30 / sqrt(sum of h[n]^2 / 3) (R173). The sum over n is taken in closed form. -/
def pinkNorm (rate : Nat) : Int :=
  let secs := pinkSections rate
  let cs := secs.foldl (fun a s => a + s.2) 0
  let d := pinkDirect
  let base := fxRat (d * d + 2 * d * cs) (2 ^ 60)
  let pairs := secs.foldl (fun a s => secs.foldl (fun b t =>
    b + s.2 * t.2 * (fxOne : Int) / ((2 ^ 60 : Nat) - s.1 * t.1)) a) 0
  let e := (base + pairs) / 3
  fxRound (fxDiv fxOne (fxSqrt e)) 30

/-- The weight of the new source at sample k of an n-sample crossfade, in UQ1.23 (R50). -/
def fadeNew (equalPower : Bool) (n k : Nat) : Int :=
  if equalPower then fxRound (fxSinTurn ((k + 1 : Nat) : Int) (4 * n)) 23
  else rne (((k + 1 : Nat) : Int) * 2 ^ 23) n

/-- The weight of the old source (R50). -/
def fadeOld (equalPower : Bool) (n k : Nat) : Int :=
  if equalPower then fxRound (fxCosTurn ((k + 1 : Nat) : Int) (4 * n)) 23
  else 2 ^ 23 - fadeNew false n k

/-- A crossfade of two blocks of n samples: the weighted terms summed exactly and rounded once (R50). -/
def crossfade (equalPower : Bool) (n : Nat) (old new : List Int) : List Int :=
  trimZeros ((List.range n).map fun k =>
    rshr (fadeOld equalPower n k * sampleAt old k + fadeNew equalPower n k * sampleAt new k) 23)

/-- A fade out with the equal-gain weight g_old of R50. -/
def fadeOut (n : Nat) (x : List Int) : List Int := crossfade false n x []

/-- A fade in with the equal-gain weight g_new of R50. -/
def fadeIn (n : Nat) (x : List Int) : List Int := crossfade false n [] x

end Sys2Proof.Machine
end

