-- ==== Sys2Proof/Machine/Ops.lean ====
section
/-!
DEFINITION. Sys2Proof/Machine/Ops.lean: the operations every block shares: the register file (R5 to R11, R32, R33), raising an
error (R421 to R430), raising an event (R235), counting for PERF (R417).
-/
namespace Sys2Proof.Machine

/-- Whether offset o from a register's base is one of its indices. -/
def dimsHit (dims : List (Nat × Nat)) (o : Nat) : Bool :=
  match dims with
  | [] => o = 0
  | (c, s) :: t => decide (o / s < c) && dimsHit t (o % s)

/-- The register of a list at offset o of the block window. -/
def findReg (rs : List RegDesc) (o : Nat) : Option RegDesc :=
  match rs with
  | [] => none
  | r :: t => if r.base ≤ o ∧ dimsHit r.dims (o - r.base) = true then some r else findReg t o

/-- The register at a register-space offset, if one is there (R11, R394, R395). -/
def regAt (off : Nat) : Option RegDesc := findReg (blockRegs (off / 0x100000)) (off % 0x100000)

/-- The Reset column of a register's fields as a word. -/
def fieldsReset (fs : List FieldDesc) : Word := fs.foldl (fun w f => setBits w f.hi f.lo f.reset) 0

/-- The reset value of the register at an offset; 0 where there is none (R11). -/
def resetWord (off : Nat) : Word :=
  match regAt off with
  | none => 0
  | some r =>
    let o := off % 0x100000 - r.base
    match r.rst with
    | .fields => fieldsReset r.fields
    | .index => fieldsReset r.fields + BitVec.ofNat 32 (o / (match r.dims with | [] => 1 | (_, s) :: _ => s))
    | .interp => wordOf (interpCoef (o / 0x20) (o % 0x20 / 4))
    | .pink => wordOf (pinkNorm 0)
    | .uidLo => Config.uid.setWidth 32
    | .uidHi => (Config.uid >>> 32).setWidth 32

/-- A live word. -/
def liveGet (d : Dev) (off : Nat) : Word := mapGet resetWord d.regs.live off

/-- Sets a live word. -/
def liveSet (d : Dev) (off : Nat) (w : Word) : Dev :=
  { d with regs := { d.regs with live := mapSet resetWord d.regs.live off w } }

/-- Bits hi:lo of a live word. -/
def liveF (d : Dev) (off hi lo : Nat) : Nat := bits (liveGet d off) hi lo

/-- Bit i of a live word. -/
def liveB (d : Dev) (off i : Nat) : Bool := bit (liveGet d off) i

/-- Sets bits hi:lo of a live word. -/
def liveSetF (d : Dev) (off hi lo v : Nat) : Dev := liveSet d off (setBits (liveGet d off) hi lo v)

/-- Sets bit i of a live word. -/
def liveSetB (d : Dev) (off i : Nat) (b : Bool) : Dev := liveSet d off (setBit (liveGet d off) i b)

/-- Adds n to a 32-bit count that wraps. -/
def bumpBy (d : Dev) (off n : Nat) : Dev := liveSet d off (liveGet d off + BitVec.ofNat 32 n)

/-- Adds 1 to a 32-bit count that wraps. -/
def bump (d : Dev) (off : Nat) : Dev := bumpBy d off 1

/-- Adds 1 to a count in bits hi:lo that saturates. -/
def bumpSat (d : Dev) (off hi lo : Nat) : Dev :=
  let v := liveF d off hi lo
  if v + 1 < 2 ^ (hi - lo + 1) then liveSetF d off hi lo (v + 1) else d

/-- Keeps the larger of a value and bits hi:lo. -/
def liveMax (d : Dev) (off hi lo v : Nat) : Dev := if liveF d off hi lo < v then liveSetF d off hi lo v else d

/-- A shadow word (R5). -/
def shGet (d : Dev) (off : Nat) : Word := mapGet resetWord d.regs.shadow off

/-- Sets a shadow word. -/
def shSet (d : Dev) (off : Nat) (w : Word) : Dev :=
  { d with regs := { d.regs with shadow := mapSet resetWord d.regs.shadow off w } }

/-- The bank that was active at epoch e: the newest that became active at or before it. -/
def bankAt (l : List (Nat × Bank)) (e : Nat) : Bank :=
  match l with
  | [] => []
  | [(_, b)] => b
  | (e', b) :: t => if e' ≤ e then b else bankAt t e

/-- The bank active now. -/
def actBank (d : Dev) : Bank :=
  match d.regs.act with
  | [] => []
  | (_, b) :: _ => b

/-- An active word. -/
def actGet (d : Dev) (off : Nat) : Word := mapGet resetWord (actBank d) off

/-- Bits hi:lo of an active word. -/
def actF (d : Dev) (off hi lo : Nat) : Nat := bits (actGet d off) hi lo

/-- Bit i of an active word. -/
def actB (d : Dev) (off i : Nat) : Bool := bit (actGet d off) i

/-- The word that governs block e (R35): the one active at epoch e. -/
def actAt (d : Dev) (e off : Nat) : Word := mapGet resetWord (bankAt d.regs.act e) off

/-- Bits hi:lo of the word that governs block e. -/
def actAtF (d : Dev) (e off hi lo : Nat) : Nat := bits (actAt d e off) hi lo

/-- Bit i of the word that governs block e. -/
def actAtB (d : Dev) (e off i : Nat) : Bool := bit (actAt d e off) i

/-- The word that will govern epoch e once every commit named for an epoch up to e has been applied: a frame of a serial port may be
numbered in an epoch that has not begun (R316). -/
def actAhead (d : Dev) (e off : Nat) : Word :=
  match d.epc.commit with
  | some p => if d.epc.epoch < p ∧ p ≤ e then shGet d off else actAt d e off
  | none => actAt d e off

/-- Bit i of the word that will govern epoch e. -/
def aheadB (d : Dev) (e off i : Nat) : Bool := bit (actAhead d e off) i

/-- The word a register held before the commit of the epoch in progress. -/
def before (d : Dev) (off : Nat) : Word := actAt d (d.epc.epoch - 1) off

/-- A commit has been applied at the epoch in progress. -/
def committedNow (d : Dev) : Bool :=
  match d.regs.act with
  | (e, _) :: _ :: _ => decide (e = d.epc.epoch)
  | _ => false

/-- Sets a word in every active bank: for the few fields that the device itself clears (NETx.CTRL.STEP_EN, R250). -/
def actSet (d : Dev) (off : Nat) (w : Word) : Dev :=
  { d with regs := { d.regs with act := d.regs.act.map fun p => (p.1, mapSet resetWord p.2 off w) } }

/-- A snapshot word (R41). -/
def snapGet (d : Dev) (off : Nat) : Word := mapGet resetWord d.regs.snap off

/-- Whether a register offset is a cycle counter, an OVF register or a programmable counter of PERF. -/
def perfValue (off : Nat) : Bool := decide (off / 0x100000 = blkPerf ∧ 0x1000 ≤ off % 0x100000 ∧ off % 0x100 < 0x80)

/-- What a field of PERF's counters is read from while they are frozen: the stopped counters, and the cycle counts of the freeze (R419);
whatever the snapshot epoch. -/
def perfFrozen (d : Dev) (off : Nat) : Option Word :=
  if perfValue off && liveB d offPerfStatus 0 then
    some (if off % 0x100 < 8 then mapGet resetWord d.perf.frozen off else liveGet d off)
  else none

/-- What a field reads (R5): RO, W1S and W1C the snapshot, RWS the shadow, RWL and RWB the current value, WO zero. The identity and
capability fields of SYS read the same whatever the snapshot (R5, R400), and so do frozen counters of PERF (R419). -/
def fieldRead (d : Dev) (off : Nat) (f : FieldDesc) : Nat :=
  match f.acc with
  | .ro => bits (if off / 0x100000 = blkSys then liveGet d off else (perfFrozen d off).getD (snapGet d off)) f.hi f.lo
  | .w1s | .w1c => bits ((perfFrozen d off).getD (snapGet d off)) f.hi f.lo
  | .rws => bits (shGet d off) f.hi f.lo
  | .rwl | .rwb => bits (liveGet d off) f.hi f.lo
  | .wo => 0

/-- What a register reads; 0 where there is none (R5, R11). -/
def regRead (d : Dev) (off : Nat) : Word :=
  match regAt off with
  | none => 0
  | some r => r.fields.foldl (fun w f => setBits w f.hi f.lo (fieldRead d off f)) 0

/-! ### Running blocks -/

/-- A Fatal error has been raised since PORST_N (R422). -/
def fatal (d : Dev) : Bool := liveB d offErrStatus 3

/-- Blocks whose map names bit 0 of offset 0 EN (R399). -/
def hasEn (b : Nat) : Bool :=
  [blkPtpi, blkPtpo, blkNeti, blkNeto, blkMgt, blkTwn, blkSap, blkGraph, blkCnd, blkObj, blkGeo, blkXp, blkRc, blkVec,
    blkWd, blkEvt, blkPerf].contains b

/-- Blocks that keep running after a Fatal error: the control region, the management port, the NVM loader and ERR (R20,
R422). Table 1-2 places EPC, SVC and PERF in no region: that EPC and SVC go on with the control region and PERF stops is the model's
DESIGN CHOICE (log entry 192). -/
def survivesFatal (b : Nat) : Bool :=
  [blkSys, blkEpc, blkClk, blkMgt, blkXbar, blkPmc, blkErr, blkLcs, blkNvm, blkSvc].contains b

/-- What a block with an enable needs beside it: an image (R388), and for XP and RC that MEM0 was not too slow when a commit would have
started them (R345). -/
def mayRun (d : Dev) (b : Nat) : Bool :=
  decide (d.boot.phase ≠ .noImage) && !(decide (b = blkXp ∨ b = blkRc) && liveB d (offMemStatus 0) 2)

/-- The enable of a block is active (R32), or boot step 8 has ended where it has none (R399). -/
def enabled (d : Dev) (b : Nat) : Bool := if hasEn b then actB d (b * 0x100000) 0 && mayRun d b else d.boot.up

/-- A Fatal error lets a block go on (R422). -/
def spared (d : Dev) (b : Nat) : Bool := !fatal d || survivesFatal b

/-- A block is running (R32, R399, R422). -/
def running (d : Dev) (b : Nat) : Bool := enabled d b && spared d b

/-- A block with an enable works on sample block e, by the values that govern it (R35). -/
def runningAt (d : Dev) (e b : Nat) : Bool := actAtB d e (b * 0x100000) 0 && mayRun d b && spared d b

/-- The instance whose running guards an RWB field: a PLL, an audio PLL output or a serial port has an enable of its own (those
that are always on run from the boot commit), and a memory controller runs from its initialisation. -/
def rwbRunning (d : Dev) (off : Nat) : Bool :=
  let b := off / 0x100000
  let o := off % 0x100000
  if b = blkClk ∧ 0x100 ≤ o ∧ o < 0x1C0 then
    let p := (o - 0x100) / 0x20
    actB d (offClkPllCtrl p) 0 && (decide (2 ≤ p) || decide (2 ≤ d.regs.act.length))
  else if b = blkClk ∧ 0x200 ≤ o ∧ o < 0x218 then
    let r := (o - 0x200) / 4
    actB d (offClkAout r) 28 && (decide (r < 4) || decide (2 ≤ d.regs.act.length))
  else if b = blkSap ∧ 0x1000 ≤ o then
    let p := (o - 0x1000) / 0x40
    running d blkSap && actB d (offSapPortCfg p) 31
  else if b = blkMem0 ∨ b = blkMem1 then liveB d (offMemStatus (b - blkMem0)) 0
  else running d b

/-! ### Errors -/

/-- SOURCE of a block's instance (R423). -/
def srcOf (blk inst : Nat) : Nat := blk * 1024 + inst

/-- Class of a code (Table 19-2): 0 Corrected, 1 Degraded, 2 Contained, 3 Fatal. -/
def classOf (code : Nat) : Nat :=
  if [0x0002, 0x0004, 0x0007, 0x010B, 0x0404].contains code then 3
  else if [0x0403, 0x0503, 0x0504].contains code then 2
  else if [0x0001, 0x0005, 0x0501, 0x0502, 0x0506, 0x0801, 0x0802].contains code then 0
  else if 0x0101 ≤ code ∧ code ≤ 0x010A then 0
  else 1

/-- ACTIVE_OUT is deasserted: the device drives no serial port (R318, R356). -/
def releaseOut (d : Dev) : Dev :=
  let d := liveSetB (liveSetB d offTwnStatus 2 false) offTwnStatus 4 false
  let d := (List.range 32).foldl (fun d p => liveSetB d (offSapPortStatus p) 30 false) d
  { d with sap := { d.sap with ports := d.sap.ports.map fun e => (e.1, { e.2 with dout := [], wire := [], lastBit := none }) }
           twn := { d.twn with confirmed := false } }

/-- The port drivers and the gated MCLK outputs follow the gate: this twin owns the serial outputs, and its claim has been confirmed
(R356, R357). -/
def drivesOut (d : Dev) : Bool := liveB d offTwnStatus 4 && d.twn.confirmed

/-- The immediate effects of a Fatal error (R422): the first one's code and source are recorded, ACTIVE_OUT and the serial
outputs are released, WD's ready list empties (R242) and OSC_TUNE returns to mid-scale. That every block outside the control region
stops follows from `running`; that no commit, reload or substitution is applied afterwards, from the guards of those. -/
def fatalEffects (d : Dev) (source code : Nat) : Dev :=
  let d := if fatal d then d else
    liveSetB (liveSet d offErrFatal (BitVec.ofNat 32 (code * 65536 + source))) offErrStatus 3 true
  let d := releaseOut d
  let d := { d with wd := { d.wd with ready := [], started := false } }
  let w := if liveB d offClkTuneCfg 1 then liveF d offClkTuneCfg 12 8 else 16
  liveSet d offClkTuneCode (BitVec.ofNat 32 (2 ^ (w - 1)))

/-- Adds a raise to the report of its source and code, if one is pending and not escalated. -/
def mergeReport (l : List ErrReport) (source code : Nat) : Option (List ErrReport) :=
  match l with
  | [] => none
  | r :: t =>
    if r.source = source ∧ r.code = code ∧ r.escalated = false then
      some ({ r with count := min (r.count + 1) 0xFFFFFFFF } :: t)
    else (mergeReport t source code).map (r :: ·)

/-- Raises an error (R425, R426, R429): it is counted by class; a Contained raise that is the third of its source and code
within 3,000 epochs is escalated to a Fatal report of its own; any other raise joins the pending report of its source and
code or sets one. -/
def raiseErr (d : Dev) (source code : Nat) (arg0 arg1 : Word) : Dev :=
  let cls := classOf code
  let key := source * 65536 + code
  let old := mapGet (fun _ => ([] : List Nat)) d.err.history key
  let esc := cls = 2 ∧ old.length = 2 ∧ d.epc.epoch - old.getD 1 0 < 3000
  let d := if cls = 2 then
      { d with err := { d.err with history := mapSet (fun _ => []) d.err.history key (d.epc.epoch :: old.take 1) } }
    else d
  if esc then
    let d := bumpSat d (offErrClassCount 3) 31 0
    let d := fatalEffects d source code
    { d with err := { d.err with reports := d.err.reports ++ [⟨source, code, 3, true, d.epc.epoch, 1, arg0, arg1⟩] } }
  else
    let d := bumpSat d (offErrClassCount cls) 31 0
    let d := if cls = 3 then fatalEffects d source code else d
    if cls = 0 ∧ actB d offErrCtrl 0 = false then d
    else
      match mergeReport d.err.reports source code with
      | some l => { d with err := { d.err with reports := l } }
      | none =>
        { d with err := { d.err with reports := d.err.reports ++ [⟨source, code, cls, false, d.epc.epoch, 1, arg0, arg1⟩] } }

/-! ### Events and counters -/

/-- Raises an event source (R235): its pending bit is set; a raise of a pending source is counted. -/
def raiseEvt (d : Dev) (s : Nat) : Dev :=
  if liveB d (offEvtPend (s / 32)) (s % 32) then bump d offEvtCoalesce
  else liveSetB d (offEvtPend (s / 32)) (s % 32) true

/-- A block raises its own event source. After a Fatal error the epoch start alone is left: every other source lies in a region that is
held and raises no events (R16, R422; assumption log entry 223). -/
def raiseOwn (d : Dev) (s : Nat) : Dev := if fatal d && decide (s ≠ 4) then d else raiseEvt d s

/-- Adds n to programmable counter k of block b, a 48-bit count that wraps with its OVF bit set (R417). -/
def perfAdd (d : Dev) (b k n : Nat) : Dev :=
  let v := (liveGet d (offPerfCntHi b k)).toNat * 2 ^ 32 + (liveGet d (offPerfCntLo b k)).toNat + n
  let d := if v ≥ 2 ^ 48 then liveSetB d (offPerfOvf b) k true else d
  liveSet (liveSet d (offPerfCntLo b k) (BitVec.ofNat 32 v)) (offPerfCntHi b k) (BitVec.ofNat 32 (v / 2 ^ 32 % 65536))

/-- Counts n cycles of event `c` at counter block b: in each programmable counter that selects it by cycle, while PERF runs and the
counters are not frozen (R417, R419). How many of the cycles follow one without the event is known at the epoch's end alone
(`perfRest`). -/
def perfHit (d : Dev) (b c n : Nat) : Dev :=
  if running d blkPerf && !(liveB d offPerfStatus 0) then
    (List.range 8).foldl (fun d k => if actF d (offPerfEvsel b k) 8 0 = c then perfAdd d b k n else d) d
  else d

/-- Counts an event that is asserted for n cycles on end: by cycle, or once with EDGE = 1 (R417). -/
def perfSpan (d : Dev) (b c n : Nat) : Dev :=
  if running d blkPerf && !(liveB d offPerfStatus 0) then
    (List.range 8).foldl (fun d k =>
      if actF d (offPerfEvsel b k) 7 0 = c then perfAdd d b k (if actB d (offPerfEvsel b k) 8 then 1 else n) else d) d
  else d

/-! ### Register writes -/

/-- A source code with its reserved bits as zeros (R10, Table 3-3), and silence as the code 0. -/
def srcCanon (v : Nat) : Nat :=
  match v / 8192 with
  | 0 => 0
  | 1 => v / 4096 * 4096 + v % 2048
  | 2 => 0x4000 + v % 1024
  | 3 => 0x6000 + v % 8
  | 4 => 0x8000 + v % 512
  | 5 => 0xA000 + v % 64
  | 6 => 0xC000 + v % 2048
  | _ => v

/-- Bits 15:0 of a selector name a source the selector may take (R44, Table 3-3): a kind marked Yes for it, and a tap of a slot that
exists. Reserved bits of an index are ignored (R10). -/
def srcLegal (input : Bool) (v : Nat) : Bool :=
  match v / 8192 with
  | 0 | 3 => true
  | 1 | 2 => input
  | 4 | 5 => !input
  | 6 => !input && decide (v % 2048 < 1536)
  | _ => false

/-- The selector whose source code a field holds: an input selector, an output selector, or none. -/
def selectorOf (off : Nat) (f : FieldDesc) : Option Bool :=
  let o := off % 0x100000
  if off / 0x100000 = blkGraph ∧ f.hi = 15 ∧ f.lo = 0 then
    if 0x1000 ≤ o ∧ o < 0x2800 then some true else if 0x5000 ≤ o ∧ o < 0x6800 then some false else none
  else none

/-- The value that a field keeps of a legal code: a source code without its reserved bits (R10). -/
def fieldCanon (off : Nat) (f : FieldDesc) (v : Nat) : Nat := if (selectorOf off f).isSome then srcCanon v else v

/-- Event codes that Table 18-10 lists for the unit of counter block b. -/
def perfCodeLegal (b c : Nat) : Bool :=
  if c = 0 ∨ c = 1 then true
  else
    let last := if b < 20 then 0x14 else if b < 56 then 0x18 else if b < 60 then 0x13 else if b < 76 then 0x12
      else if b < 79 then 0x15 else 0x17
    decide (0x10 ≤ c ∧ c ≤ last)

/-- Whether a code of a field is not reserved at a render rate (R10, R44, R68, Table 18-10). -/
def codeLegal (rate96 : Bool) (off : Nat) (f : FieldDesc) (v : Nat) : Bool :=
  let b := off / 0x100000
  let o := off % 0x100000
  match selectorOf off f with
  | some input => srcLegal input v
  | none =>
  if b = blkPerf ∧ 0x1000 ≤ o ∧ f.hi = 7 ∧ f.acc = .rws then perfCodeLegal ((o - 0x1000) / 0x100) v
  else if b = blkCnd ∧ 0x1000 ≤ o ∧ o < 0x2800 ∧ f.hi = 2 then (if rate96 then [0, 1, 3] else [0, 1, 2]).contains v
  else
    match f.codes with
    | .all => true
    | .range lo hi => decide (lo ≤ v ∧ v ≤ hi)
    | .oneOf l => l.contains v

/-- What writing a word to one field does (R5, R10, R33): the device, whether a reserved code was written and whether a
change of a running block's RWB field was refused. -/
def fieldWrite (off : Nat) (val : Word) (acc : Dev × Bool × Bool) (f : FieldDesc) : Dev × Bool × Bool :=
  let d := acc.1
  let raw := bits val f.hi f.lo
  let ok := codeLegal (liveB d offSysRate 0) off f raw
  let v := if ok then fieldCanon off f raw else f.reset
  match f.acc with
  | .ro | .wo => acc
  | .rws => (shSet d off (setBits (shGet d off) f.hi f.lo v), acc.2.1 || !ok, acc.2.2)
  | .rwl => (liveSetF d off f.hi f.lo v, acc.2.1 || !ok, acc.2.2)
  | .w1s => (liveSet d off (liveGet d off ||| BitVec.ofNat 32 (raw <<< f.lo)), acc.2.1, acc.2.2)
  | .w1c => (liveSet d off (liveGet d off &&& ~~~(BitVec.ofNat 32 (raw <<< f.lo))), acc.2.1, acc.2.2)
  | .rwb =>
    if rwbRunning d off then (d, acc.2.1 || !ok, acc.2.2 || (v != liveF d off f.hi f.lo))
    else (liveSetF d off f.hi f.lo v, acc.2.1 || !ok, acc.2.2)

/-- A refused change of an RWB field is counted, recorded and logged, once per write (R33). -/
def staticReject (d : Dev) (off : Nat) (val : Word) : Dev :=
  let d := bumpSat d offEpcStaticRejectCount 31 0
  let d := liveSet d offEpcStaticRejectAddr (BitVec.ofNat 32 off)
  raiseErr d (srcOf blkEpc 0) 0x0101 (BitVec.ofNat 32 off) val

/-- A reserved code that was written is logged (R10); in a selector it also sets GRAPH.STATUS.RESERVED_CODE (R44). -/
def reservedCode (d : Dev) (off : Nat) (val : Word) : Dev :=
  let b := off / 0x100000
  let o := off % 0x100000
  let d := if b = blkGraph ∧ ((0x1000 ≤ o ∧ o < 0x2800) ∨ (0x5000 ≤ o ∧ o < 0x6800)) then liveSetB d offGraphStatus 1 true
    else d
  raiseErr d (srcOf b 0) 0x0102 (BitVec.ofNat 32 off) val

/-- A register write taken field by field (R33), the actions of WO fields left out: the device and whether an RWB change was
refused. -/
def regStore (d : Dev) (off : Nat) (val : Word) : Dev × Bool :=
  match regAt off with
  | none => (d, false)
  | some r =>
    let a := r.fields.foldl (fieldWrite off val) (d, false, false)
    let d := if a.2.1 then reservedCode a.1 off val else a.1
    (if a.2.2 then staticReject d off val else d, a.2.2)

/-! ### Commands -/

/-- A command that takes its effect on the device. -/
def ran (s : State) (f : Dev → Dev) : Host.Outcome State Fault Refusal := .next { s with dev := f s.dev }

/-- A command whose operand names a unit, which exists or not. -/
def ranIf (ok : Bool) (s : State) (f : Dev → Dev) : Host.Outcome State Fault Refusal :=
  if ok then ran s f else .refused .noSuchUnit

/-- Every output and side-tone path is held at gain zero for want of a reference or for a timebase reload (R306, R321). -/
def outputsMuted (d : Dev) : Bool := liveB d offClkStatus 5 || d.servo.reload

/-- A rounded sum that becomes a sample word of w bits: one outside the word is a value that R50 does not state (log entry 194). -/
def fitWord (w : Nat) (y : Int) : Int := if overS w y then sext w (Config.fadeOver w y).toNat else y

/-- Samples of a block at the render rate (R30). -/
def blockN (d : Dev) : Nat := if liveB d offSysRate 0 then 32 else 16

end Sys2Proof.Machine
end

