-- ==== Sys2Proof/Machine/Epc.lean ====
section
/-!
DEFINITION. Sys2Proof/Machine/Epc.lean: chapter 02, commits and the snapshot hold. What happens at an epoch start and at the
commit cutoff reaches every block and stands in Epoch.lean.
-/
namespace Sys2Proof.Machine

/-- Codes of COMMIT_STATUS.RESULT (Table 2-3). -/
inductive CommitResult where
  | none
  | pending
  | applied
  | late
  | busy
  | far
  | reload
  | cancelled
  deriving DecidableEq, Repr

/-- The code of a result. -/
def commitCode : CommitResult → Nat
  | .none => 0
  | .pending => 1
  | .applied => 2
  | .late => 3
  | .busy => 4
  | .far => 5
  | .reload => 6
  | .cancelled => 7

/-- Sets COMMIT_STATUS.RESULT. -/
def setResult (d : Dev) (r : CommitResult) : Dev := liveSetF d offEpcCommitStatus 2 0 (commitCode r)

/-- Sets the pending commit and EPC.STATUS.COMMIT_PENDING. -/
def setPending (d : Dev) (p : Option Nat) : Dev :=
  liveSetB { d with epc := { d.epc with commit := p, joined := false } } offEpcStatus 6 p.isSome

/-- Sets a 48-bit number in a pair of registers. -/
def liveSet48 (d : Dev) (lo hi v : Nat) : Dev :=
  liveSet (liveSet d lo (BitVec.ofNat 32 v)) hi (BitVec.ofNat 32 (v / 2 ^ 32 % 65536))

/-- How EPC judges a request that names epoch e (R36, R38): the first rule that applies decides. -/
def judgeCommit (epc : Epc) (e : Nat) : CommitResult :=
  if epc.commit = some e then .pending
  else if e ≤ epc.epoch ∨ (e = epc.epoch + 1 ∧ epc.cutoff = true) then .late
  else if e - epc.epoch > 16777216 then .far
  else if epc.commit.isSome then .busy
  else .pending

/-- A commit request for epoch e, from COMMIT_AT or COMMIT_NEXT (R36 to R38): COMMIT_TARGET, SEQ and RESULT report it. -/
def submitCommit (e : Nat) (d : Dev) : Dev :=
  let r := judgeCommit d.epc e
  let d := if r = .pending ∧ d.epc.commit ≠ some e then setPending d (some e) else d
  let d := liveSet48 d offEpcCommitTargetLo offEpcCommitTargetHi e
  let d := liveSetF d offEpcCommitStatus 31 16 (liveF d offEpcCommitStatus 31 16 + 1)
  setResult d r

/-- A write of EPC.COMMIT_AT_HI (R36): it names HI:COMMIT_AT_LO. -/
def commitAtHiWrite (val : Word) (d : Dev) : Dev :=
  submitCommit (bits val 15 0 * 2 ^ 32 + (liveGet d offEpcCommitAtLo).toNat) d

/-- A write of 1 to EPC.COMMIT_NEXT.GO (R37). -/
def commitNextWrite (d : Dev) : Dev := submitCommit (d.epc.epoch + if d.epc.cutoff then 2 else 1) d

/-- A write of 1 to EPC.COMMIT_CANCEL.GO (R38): the pending commit is withdrawn before the cutoff of the epoch before it. -/
def commitCancelWrite (d : Dev) : Dev :=
  match d.epc.commit with
  | none => d
  | some e => if d.epc.cutoff ∧ e ≤ d.epc.epoch + 1 then d else setResult (setPending d none) .cancelled

/-- A write of EPC.CTRL.SNAP_HOLD (R42). -/
def snapHoldWrite (v : Bool) (d : Dev) : Dev :=
  let d := liveSetB d offEpcCtrl 0 v
  if v then d else { d with epc := { d.epc with held := 0 } }

/-- The hold is released by itself at the epoch start 3,000 after the first one held (R42). -/
def holdExpire (d : Dev) : Dev :=
  if liveB d offEpcCtrl 0 ∧ d.epc.held ≥ 3000 then
    let d := liveSetB (liveSetB d offEpcCtrl 0 false) offEpcStatus 7 true
    { d with epc := { d.epc with held := 0 } }
  else d

/-- The snapshot bank is latched (R41): what RO, W1C and W1S fields read from now on. Under a hold it is not (R42). -/
def latchSnapshot (d : Dev) : Dev :=
  if liveB d offEpcCtrl 0 then { d with epc := { d.epc with held := d.epc.held + 1 } }
  else
    let d := liveSet48 d offEpcSnapEpoch offEpcSnapEpochHi d.epc.epoch
    { d with regs := { d.regs with snap := d.regs.live } }

/-- The commit copy (R35): the shadow bank becomes active at the epoch in progress. -/
def commitCopy (d : Dev) : Dev :=
  { d with regs := { d.regs with act := (d.epc.epoch, d.regs.shadow) :: d.regs.act.take 7 } }

/-- TIMEBASE of EPC.STATUS: 0 FREE, 1 PTP, 2 FOLLOW. -/
def timebase (d : Dev) : Nat := liveF d offEpcStatus 3 2

/-- Sets TIMEBASE. -/
def setTimebase (d : Dev) (t : Nat) : Dev := liveSetF d offEpcStatus 3 2 t

/-- RELOAD of EPC.STATUS (R39): 0 IDLE, 1 LOADING, 2 READY. -/
def reloadState (d : Dev) : Nat := liveF d offEpcStatus 5 4

/-- SNAP_HOLD (R42). -/
def execSnapHold (v : Bool) (s : State) : Host.Outcome State Fault Refusal := ran s (snapHoldWrite v)

/-- HOLD_EXPIRED (R42). -/
def execHoldExpired (s : State) : Host.Outcome State Fault Refusal := ran s holdExpire

/-- COMMIT_AT_HI (R36). -/
def execCommitAtHi (val : Word) (s : State) : Host.Outcome State Fault Refusal := ran s (commitAtHiWrite val)

/-- COMMIT_NEXT_GO (R37). -/
def execCommitNextGo (s : State) : Host.Outcome State Fault Refusal := ran s commitNextWrite

/-- COMMIT_CANCEL_GO (R38). -/
def execCommitCancelGo (s : State) : Host.Outcome State Fault Refusal := ran s commitCancelWrite

end Sys2Proof.Machine
end

