-- ==== Sys2Proof/Machine/Net.lean ====
section
/-!
DEFINITION. Sys2Proof/Machine/Net.lean: chapter 11, the media planes: stream tables and their checks, receive rings, transmit
packets and queues, flow control, speed stepping. Plane 0 is Indigo, plane 1 Ochre. The classification of a received frame
stands in Media.lean, after the units it hands frames to.
-/
namespace Sys2Proof.Machine

/-- A plane. -/
def plane (d : Dev) (x : Nat) : Plane := if x = 0 then d.neti else d.neto

/-- Sets a plane. -/
def setPlane (d : Dev) (x : Nat) (p : Plane) : Dev := if x = 0 then { d with neti := p } else { d with neto := p }

/-- Block number of a plane. -/
def netBlk (x : Nat) : Nat := blkNeti + x

/-- Bits hi:lo of a word of a list. -/
def wbits (ws : List Word) (i hi lo : Nat) : Nat := bits (ws.getD i 0) hi lo

/-- The twelve words of receive entry s of a plane (R254). -/
def rxEntry (d : Dev) (x s : Nat) : List Word := (List.range 12).map fun i => liveGet d (offNetRxsCfg x s + 4 * i)

/-- The twelve words of transmit entry t of a plane. -/
def txEntry (d : Dev) (x t : Nat) : List Word := (List.range 12).map fun i => liveGet d (offNetTxsCfg x t + 4 * i)

/-- Packet time of a PTIME code in 48 kHz samples (R257). -/
def ptimeSamples (c : Nat) : Nat := match c with | 0 => 48 | 1 => 12 | _ => 6

/-- Packets a second of a PTIME code. -/
def ptimeRate (c : Nat) : Nat := match c with | 0 => 1000 | 1 => 4000 | _ => 8000

/-- An address held in four words from word i: IPv4 in the first, IPv6 in all (R254). -/
def wordsAddr (ws : List Word) (i : Nat) (v6 : Bool) : IpAddr :=
  if v6 then ⟨true, (List.range 4).foldl (fun a k => a * 2 ^ 32 + (ws.getD (i + k) 0).toNat) 0⟩
  else ⟨false, (ws.getD i 0).toNat⟩

/-- A receive entry carries audio. -/
def rxAudio (ws : List Word) : Bool := decide (wbits ws 0 30 28 ≤ 1)

/-- Multiple of 48 kHz of a receive entry's rate. -/
def rxMult (ws : List Word) : Nat := 2 ^ wbits ws 0 27 26

/-- The smallest power of two that is at least n. -/
def pow2AtLeast (fuel p n : Nat) : Nat :=
  match fuel with
  | 0 => p
  | f + 1 => if n ≤ p then p else pow2AtLeast f (2 * p) n

/-- Ring depth D of a receive entry (R257). -/
def rxDepth (ws : List Word) : Nat :=
  pow2AtLeast 20 1 (rxMult ws * (wbits ws 1 31 16 + 2 * ptimeSamples (wbits ws 0 25 24)))

/-- A sample of a ring has its deadline in engine period per (R258). -/
def rxDue (ws : List Word) (per : Nat) : Bool := decide (per % (4 / rxMult ws) = 0)

/-- The engine period in progress, counted from the epoch count's zero (R64, R258). -/
def nowPeriod (d : Dev) : Nat := 64 * d.epc.epoch + d.epc.period

/-- The current 48 kHz sample index (R29). -/
def nowSample (d : Dev) : Nat := 16 * d.epc.epoch + d.epc.period / 4

/-- The Indigo stream whose pair an Ochre stream belongs to (R260). -/
def pairOf (d : Dev) (s : Nat) : Option Nat :=
  (d.neti.rings.map fun r => r.1).find? fun i =>
    let ws := rxEntry d 0 i
    decide (wbits ws 0 20 20 = 1 ∧ wbits ws 2 23 16 = s)

/-- The plane and stream that hold the ring of a stream: a pair has one, on Indigo. -/
def ringOwner (d : Dev) (x s : Nat) : Nat × Nat :=
  if x = 0 then (0, s)
  else match pairOf d s with
    | some i => (0, i)
    | none => (x, s)

/-- A ring. -/
def getRing (d : Dev) (x s : Nat) : RxRing := mapGet (fun _ => {}) (plane d x).rings s

/-- Sets a ring. The entry is kept while the stream is enabled: it marks the ring as present. -/
def setRing (d : Dev) (x s : Nat) (r : RxRing) : Dev :=
  let p := plane d x
  setPlane d x { p with rings := mapIns (mapDel p.rings s) s r }

/-- A LATE packet or a concealed sample of stream s in the epoch (R263). -/
def markLate (d : Dev) (x s late : Nat) : Dev :=
  let p := plane d x
  setPlane d x { p with late := p.late + late, lateLow := some (match p.lateLow with | none => s | some l => min l s) }

/-- The member of plane x of a ring at a deadline: `on` is that its plane runs, `placed` that the ring holds the sample. A sample delivered
after none for a whole epoch, or after a change of SSRC, is a stream restart (R78): its flag, and the member's restart and gap. -/
def memberRead (m : Nat) (on placed restart : Bool) (gap : Nat) : Bool × Bool × Nat :=
  if on && placed then (restart || decide (16 * m ≤ gap), false, 0) else (false, restart, gap + 1)

/-- A member delivers in engine period j. -/
def holdOpen (j : Nat) (h : RxHold) : Bool := match h with
  | .live => true
  | .shut => false
  | .opens p => decide (p ≤ j)

/-- A member's state in and after engine period j. -/
def holdAt (j : Nat) (h : RxHold) : RxHold := if holdOpen j h then .live else h

/-- A member's state once a packet with its first deadline in engine period p has been placed. -/
def holdPlaced (p : Nat) (h : RxHold) : RxHold := match h with
  | .shut => .opens p
  | h => h

/-- The sample a ring gives in engine period j, its deadline (R261): placed, or concealed from the last placed value. `on` tells which
planes run. -/
def ringRead (m j : Nat) (on : Bool × Bool) (r : RxRing) : RxRing × Bool :=
  let hit := r.held.find? fun e => e.1 = j
  let i := memberRead m (on.1 && holdOpen j r.hold.1) hit.isSome r.restart.1 r.gap.1
  let o := memberRead m (on.2 && holdOpen j r.hold.2) hit.isSome r.restart.2 r.gap.2
  let r := { r with held := r.held.filter fun h => decide (j < h.1), restart := (i.2.1, o.2.1), gap := (i.2.2, o.2.2),
                    fresh := (i.1, o.1), hold := (holdAt j r.hold.1, holdAt j r.hold.2) }
  match hit with
  | some e =>
    let f := if r.conceal > 0 then 0 else r.fade
    let out := if f < 16 then e.2.map fun v => rne (v * ((f + 1 : Nat) : Int)) 16 else e.2
    ({ r with last := e.2, conceal := 0, fade := min 16 (f + 1), out := out }, true)
  | none =>
    let n := r.conceal
    let out := if n < 15 then r.last.map fun v => rne (v * ((15 - n : Nat) : Int)) 16 else []
    ({ r with conceal := n + 1, fade := 0, out := out }, false)

/-- RESTARTED of a stream, and of the other member of its pair (R260). -/
def restarted (d : Dev) (x s : Nat) : Dev :=
  let d := liveSetB d (offNetRxsStat x s) 29 true
  let ws := rxEntry d x s
  if x = 0 ∧ wbits ws 0 20 20 = 1 then liveSetB d (offNetRxsStat 1 (wbits ws 2 23 16)) 29 true else d

/-- The ring of a stream of plane x is fed: its plane runs, or the plane of its pair's other member does (R260, R268). -/
def ringFed (d : Dev) (x : Nat) (ws : List Word) : Bool :=
  running d (netBlk x) || (decide (x = 0 ∧ wbits ws 0 20 20 = 1) && running d (netBlk 1))

/-- Every ring of a plane gives its sample of engine period per, if one is due (R258, R261). A stream whose plane is not running
delivers silence, which is not concealment (R268). -/
def ringsTick (per x : Nat) (d : Dev) : Dev :=
  ((plane d x).rings.map fun r => r.1).foldl (fun d s =>
    let ws := rxEntry d x s
    if rxDue ws per then
      let a := ringRead (rxMult ws) per (running d (netBlk 0), running d (netBlk 1)) (getRing d x s)
      let d := setRing d x s a.1
      let d := if (decide (x = 0) && a.1.fresh.1) || ((decide (x = 1) || decide (wbits ws 0 20 20 = 1)) && a.1.fresh.2) then restarted d x s
        else d
      if a.2 || !(ringFed d x ws) then d else markLate (bump d (offNetRxsCnt x s 5)) x s 0
    else setRing d x s { getRing d x s with fresh := (false, false) }) d

/-- The stream of a plane that covers a receive channel, and its channel there (R253). -/
def streamOf (d : Dev) (x ch : Nat) : Option (Nat × Nat) :=
  let own := (plane d x).rings.map fun r => r.1
  let cands := if x = 0 then own else own ++ (d.neti.rings.filterMap fun r =>
    let ws := rxEntry d 0 r.1
    if wbits ws 0 20 20 = 1 then some (wbits ws 2 23 16) else none)
  (cands.find? fun s =>
    let ws := rxEntry d x s
    let b := wbits ws 1 10 0
    decide (b ≤ ch ∧ ch < b + wbits ws 0 6 0)).map fun s => (s, ch - wbits (rxEntry d x s) 1 10 0)

/-- The ring sample of a receive channel in the engine period in progress, and whether it is the first after a restart; a
plane that is not running delivers silence (R268), and so does a changed entry before its first sample (R256). -/
def rxChannel (d : Dev) (x ch : Nat) : Option (Nat × Int × Bool) :=
  match streamOf d x ch with
  | none => none
  | some (s, i) =>
    let o := ringOwner d x s
    let r := getRing d o.1 o.2
    if running d (netBlk x) && decide ((if x = 0 then r.hold.1 else r.hold.2) = .live) then
      some (rxMult (rxEntry d x s), sampleAt r.out i, if x = 0 then r.fresh.1 else r.fresh.2)
    else some (rxMult (rxEntry d x s), 0, false)

/-- The samples of an audio payload: one list of channel values for each sample instant (R67, R264). -/
def payloadSamples (l24 : Bool) (c : Nat) (payload : List Byte) : List (List Int) :=
  let w := if l24 then 3 else 2
  (chunks 192 (c * w) payload).map fun row =>
    (chunks 64 w row).map fun b => if l24 then sext 24 (beNat b) else sext 16 (beNat b) * 256

/-- The 64-bit index nearest `ref` with low 32 bits ts (R258). -/
def extendIndex (ref ts : Nat) : Int := (ref : Int) + sext 32 (code 32 ((ts : Int) - (ref : Int)))

/-- A received audio packet of stream s (R259): discarded as malformed, duplicate, late or early, or placed. The padding bit must
be 0 (R251). -/
def audioPlace (x s : Nat) (pkt : RtpPkt) (d : Dev) : Dev :=
  let ws := rxEntry d x s
  let o := ringOwner d x s
  let r0 := getRing d o.1 o.2
  let filt := wbits ws 0 21 21 = 1
  let m := rxMult ws
  let c := wbits ws 0 6 0
  let sn := m * ptimeSamples (wbits ws 0 25 24)
  let l24 := wbits ws 0 30 28 = 1
  let cnt := fun (d : Dev) k => bump d (offNetRxsCnt x s k)
  let r := if !filt ∧ r0.ssrc.isSome ∧ r0.ssrc ≠ some pkt.ssrc then
      { r0 with held := [], window := [], ssrc := none, restart := (true, true) } else r0
  let d := setRing d o.1 o.2 r
  if pkt.padding = true ∨ pkt.payload.length ≠ c * sn * (if l24 then 3 else 2) ∨ pkt.pt ≠ wbits ws 0 19 13 ∨
      (filt ∧ pkt.ssrc ≠ wbits ws 3 31 0) then cnt d 4
  else if r.window.contains pkt.seq then cnt d 1
  else
    let j := extendIndex (nowSample d * m) pkt.ts
    let dead := j * ((4 / m : Nat) : Int) + ((4 * wbits ws 1 31 16 : Nat) : Int)
    if dead < (nowPeriod d : Int) then markLate (cnt d 2) x s 1
    else
      let step := 4 / m
      let oldest := ((nowPeriod d : Int) - ((4 * wbits ws 1 31 16 : Nat) : Int) + (step : Int) - 1) / (step : Int)
      if j + (sn : Int) - 1 - oldest ≥ (rxDepth ws : Int) then cnt d 3
      else
        let rows := payloadSamples l24 c pkt.payload
        let put := fun (a : List (Nat × List Int) × Bool × Nat) (row : List Int) =>
          if (a.1.find? fun h => h.1 = a.2.2).isSome then (a.1, true, a.2.2 + step)
          else (mapIns a.1 a.2.2 row, a.2.1, a.2.2 + step)
        let res := rows.foldl put (r.held, false, dead.toNat)
        let d := setRing d o.1 o.2
          { r with held := res.1, window := pkt.seq :: r.window.take 1023, ssrc := some pkt.ssrc,
                   hold := (holdPlaced dead.toNat r.hold.1, holdPlaced dead.toNat r.hold.2) }
        let d := if res.2.1 then liveSetB d (offNetRxsStat x s) 30 true else d
        cnt (setPlane d x { plane d x with got := setIns (plane d x).got s }) 0

/-- The enabled receive stream of a destination address and UDP port, its source accepted (R244 order 7). -/
def rxMatch (d : Dev) (x : Nat) (src dst : IpAddr) (port : Nat) : Option Nat :=
  (List.range 256).find? fun s =>
    let ws := rxEntry d x s
    let v6 := decide (wbits ws 0 23 23 = 1)
    decide (wbits ws 0 31 31 = 1 ∧ wordsAddr ws 4 v6 = dst ∧ wbits ws 2 15 0 = port ∧
      (wbits ws 0 22 22 = 0 ∨ wordsAddr ws 8 v6 = src))

/-! ### Section checks (R254, R255) -/

/-- The words of one entry of a section. -/
def entryWords (bs : List Byte) : List Word := (chunks 12 4 bs).map fun b => BitVec.ofNat 32 (beNat b)

/-- Receive entries, transmit entries and map words of one plane's block of a section payload. -/
def netParse (x : Nat) (payload : List Byte) : List (List Word) × List (List Word) × List Nat :=
  let b := (payload.drop (x * 26624)).take 26624
  ((chunks 256 64 (b.take 16384)).map entryWords,
   (chunks 128 64 ((b.drop 16384).take 8192)).map entryWords,
   (chunks 1024 2 ((b.drop 24576).take 2048)).map beNat)

/-- Bytes 48 to 63 of every entry of a plane are reserved (R254). -/
def netTailsZero (x : Nat) (payload : List Byte) : Bool :=
  (chunks 384 64 ((payload.drop (x * 26624)).take 24576)).all fun e => (e.drop 48).all (· = 0)

/-- Largest packet payload in bytes. -/
def maxPayload : Nat := 1440

/-- A receive entry's fields lie in their ranges (R255, Table 11-4). -/
def rxFieldsOk (x : Nat) (ws : List Word) : Bool :=
  let fmt := wbits ws 0 30 28
  let v6 := wbits ws 0 23 23
  let reserved := wbits ws 0 12 7 = 0 ∧ wbits ws 1 15 11 = 0 ∧ wbits ws 2 31 24 = 0 ∧
    (x = 0 ∨ (wbits ws 0 20 20 = 0 ∧ wbits ws 2 23 16 = 0)) ∧
    (v6 = 1 ∨ (wbits ws 5 31 0 = 0 ∧ wbits ws 6 31 0 = 0 ∧ wbits ws 7 31 0 = 0 ∧ wbits ws 9 31 0 = 0 ∧
      wbits ws 10 31 0 = 0 ∧ wbits ws 11 31 0 = 0))
  if wbits ws 0 31 31 = 0 then decide reserved
  else
    let pt := wbits ws 0 19 13
    let c := wbits ws 0 6 0
    let off := wbits ws 1 31 16
    let p := ptimeSamples (wbits ws 0 25 24)
    decide (reserved ∧ fmt ≤ 3 ∧ 96 ≤ pt ∧ pt ≤ 127 ∧ wbits ws 0 27 26 ≤ 2 ∧ wbits ws 0 25 24 ≤ 2 ∧ 6 ≤ off ∧ off ≤ 960 ∧ p ≤ off) &&
      (if fmt ≤ 1 then
        decide (1 ≤ c ∧ c ≤ 64 ∧
          c * (rxMult ws * p) * (if fmt = 1 then 3 else 2) ≤ maxPayload ∧ wbits ws 1 10 0 + c ≤ 2048)
      else decide (c = 0))

/-- A transmit entry's fields lie in their ranges. -/
def txFieldsOk (n : Nat) (ws : List Word) : Bool :=
  let v6 := wbits ws 0 27 27
  let reserved := wbits ws 1 19 10 = 0 ∧ wbits ws 9 31 16 = 0 ∧ wbits ws 10 31 8 = 0 ∧ wbits ws 11 31 0 = 0 ∧
    (v6 = 1 ∨ (wbits ws 5 31 0 = 0 ∧ wbits ws 6 31 0 = 0 ∧ wbits ws 7 31 0 = 0))
  if wbits ws 0 31 31 = 0 then decide reserved
  else
    let c := wbits ws 0 6 0
    let pt := wbits ws 0 22 16
    let m := n / 16
    decide (reserved ∧ wbits ws 0 29 28 ≤ 2 ∧ 96 ≤ pt ∧ pt ≤ 127 ∧ 1 ≤ c ∧ c ≤ 64 ∧ 2 ^ wbits ws 0 9 7 = m ∧
      1 ≤ wbits ws 10 7 0 ∧
      c * (m * ptimeSamples (wbits ws 0 29 28)) * (if wbits ws 0 30 30 = 1 then 3 else 2) ≤ maxPayload)

/-- Bytes of a stream's frame from destination address to FCS. -/
def txFrameBytes (n : Nat) (ws : List Word) : Nat :=
  let pay := wbits ws 0 6 0 * (n / 16 * ptimeSamples (wbits ws 0 29 28)) * (if wbits ws 0 30 30 = 1 then 3 else 2)
  14 + (if wbits ws 0 26 26 = 1 then 4 else 0) + (if wbits ws 0 27 27 = 1 then 40 else 20) + 8 + 12 + pay + 4

/-- Wire bits of a frame: the frame, 8 bytes before it and the 12-byte gap after it (R265). -/
def wireBits (bytes : Nat) : Nat := 8 * (bytes + 20)

/-- Wire bits a second of a transmit set. -/
def txSetBits (n : Nat) (tx : List (List Word)) : Nat :=
  tx.foldl (fun a ws => if wbits ws 0 31 31 = 1 then a + wireBits (txFrameBytes n ws) * ptimeRate (wbits ws 0 29 28) else a) 0

/-- No two entries of a list agree in a key. -/
def keysDistinct {α : Type} [DecidableEq α] (l : List α) : Bool :=
  match l with
  | [] => true
  | h :: t => !(t.contains h) && keysDistinct t

/-- Destination address and port of the enabled entries. -/
def dstKeys (rx : Bool) (l : List (List Word)) : List (IpAddr × Nat) :=
  l.filterMap fun ws =>
    if wbits ws 0 31 31 = 1 then
      some (wordsAddr ws 4 (decide ((if rx then wbits ws 0 23 23 else wbits ws 0 27 27) = 1)), wbits ws 2 15 0)
    else none

/-- Channel ranges of the enabled audio entries overlap nowhere. -/
def rxNoOverlap (l : List (List Word)) : Bool :=
  let rs := l.filterMap fun ws =>
    if wbits ws 0 31 31 = 1 ∧ rxAudio ws = true then some (wbits ws 1 10 0, wbits ws 0 6 0) else none
  keysDistinct (rs.foldl (fun a r => (List.range r.2).foldl (fun a i => (r.1 + i) :: a) a) [])

/-- Every PEER link is valid (R260). -/
def peersOk (rx0 rx1 : List (List Word)) : Bool :=
  let links := rx0.filter fun ws => wbits ws 0 31 31 = 1 ∧ wbits ws 0 20 20 = 1
  (links.all fun ws =>
    let q := rx1.getD (wbits ws 2 23 16) []
    decide (wbits q 0 31 31 = 1 ∧ wbits q 0 30 28 = wbits ws 0 30 28 ∧ wbits q 0 27 26 = wbits ws 0 27 26 ∧
      wbits q 0 25 24 = wbits ws 0 25 24 ∧ wbits q 0 6 0 = wbits ws 0 6 0 ∧ wbits q 0 19 13 = wbits ws 0 19 13 ∧
      wbits q 1 31 16 = wbits ws 1 31 16)) &&
  keysDistinct (links.map fun ws => wbits ws 2 23 16)

/-- Bytes of ring store of a plane; an Ochre member of a pair has none (R257). -/
def ringBytes (skip : List Nat) (l : List (List Word)) : Nat :=
  (l.foldl (fun (a : Nat × Nat) ws =>
    (a.1 + (if wbits ws 0 31 31 = 1 ∧ rxAudio ws = true ∧ skip.contains a.2 = false then
      wbits ws 0 6 0 * rxDepth ws * 3 else 0), a.2 + 1)) (0, 0)).1

/-- The part of a plane in a network-streams section passes R255; PEER links belong to Indigo (R260). -/
def netPlaneOk (d : Dev) (payload : List Byte) (x : Nat) : Bool :=
  let n := blockN d
  let p0 := netParse 0 payload
  let p := netParse x payload
  let peers := if x = 0 then [] else p0.1.filterMap fun ws =>
    if wbits ws 0 31 31 = 1 ∧ wbits ws 0 20 20 = 1 then some (wbits ws 2 23 16) else none
  let limit := if liveB d (offNetCtrl x) 1 then 8000000000 else 20000000000
  netTailsZero x payload && p.1.all (rxFieldsOk x) && p.2.1.all (txFieldsOk n) && p.2.2.all (fun v => decide (v / 1024 % 32 = 0)) &&
  rxNoOverlap p.1 && decide (ringBytes peers p.1 ≤ 3 * 1048576) && decide (txSetBits n p.2.1 ≤ limit) &&
  keysDistinct (dstKeys true p.1) && keysDistinct (dstKeys false p.2.1) &&
  (decide (x = 1) || peersOk p0.1 (netParse 1 payload).1)

/-- A network-streams section passes R255. -/
def netSectionOk (d : Dev) (payload : List Byte) : Bool :=
  decide (payload.length = 53248) && netPlaneOk d payload 0 && netPlaneOk d payload 1

/-- The plane that refuses a network-streams section: Ochre where only its part fails. -/
def netRefuser (d : Dev) (payload : List Byte) : Nat :=
  if payload.length = 53248 ∧ netPlaneOk d payload 0 = true then 1 else 0

/-- A plane's own address (R246). -/
def ownAddr (d : Dev) (x : Nat) (v6 : Bool) : IpAddr :=
  if v6 then ⟨true, (List.range 4).foldl (fun a w => a * 2 ^ 32 + (liveGet d (offNetIpv6 x w)).toNat) 0⟩
  else ⟨false, (liveGet d (offNetIpv4 x)).toNat⟩

/-- MAC address of a multicast group (RFC 1112, RFC 2464; R246). -/
def groupMac (a : IpAddr) : Nat :=
  if a.v6 then 0x3333 * 2 ^ 32 + a.addr % 2 ^ 32 else 0x01005E * 2 ^ 24 + a.addr % 2 ^ 23

/-- The address is a multicast group. -/
def isMulticast (a : IpAddr) : Bool := if a.v6 then decide (a.addr / 2 ^ 120 = 255) else decide (a.addr / 2 ^ 28 = 14)

/-- The ones' complement sum of a list of 16-bit words. -/
def onesSum (ws : List Nat) : Nat := ws.foldl (fun a w => (a + w) % 65536 + (a + w) / 65536) 0

/-- The 16-bit words of bytes, the last one padded with a zero byte. -/
def byteWords (bs : List Byte) : List Nat :=
  (chunks ((bs.length + 1) / 2) 2 bs).map fun b => if b.length = 2 then beNat b else beNat b * 256

/-- Bytes of an address. -/
def addrBytes (a : IpAddr) : List Byte := if a.v6 then beBytes 16 a.addr else beBytes 4 a.addr

/-- The UDP checksum over the pseudo-header, the header and the payload; a sum of zero is sent as ones. -/
def udpSum (src dst : IpAddr) (sport dport : Nat) (payload : List Byte) : Nat :=
  let len := 8 + payload.length
  let s := 65535 - onesSum (byteWords (addrBytes src) ++ byteWords (addrBytes dst) ++ [17, len, sport, dport, len] ++ byteWords payload)
  if s = 0 then 65535 else s

/-- The bytes of an RTP packet: version 2, no extension, no CSRC (R251). -/
def rtpBytes (p : RtpPkt) : List Byte :=
  [if p.padding then 0xA0 else 0x80, BitVec.ofNat 8 (p.pt + if p.marker then 128 else 0)] ++ beBytes 2 p.seq ++ beBytes 4 p.ts ++
    beBytes 4 p.ssrc ++ p.payload

/-- EtherType of an IP packet. -/
def ipType (v6 : Bool) : Nat := if v6 then 0x86DD else 0x0800

/-- The multicast group of PTP (Table 12-1). -/
def ptpGroup (v6 : Bool) : IpAddr := if v6 then ⟨true, 0xFF0E * 2 ^ 112 + 0x181⟩ else ⟨false, 0xE0000181⟩

/-- The group that membership reports go to: all IGMPv3 or MLDv2 routers (RFC 3376, RFC 3810; assumption log entry 245). -/
def reportGroup (v6 : Bool) : IpAddr := if v6 then ⟨true, 0xFF02 * 2 ^ 112 + 0x16⟩ else ⟨false, 0xE0000016⟩

/-- A plane's MAC address. -/
def ownMac (d : Dev) (x : Nat) : Nat := liveF d (offNetMacHi x) 15 0 * 2 ^ 32 + (liveGet d (offNetMacLo x)).toNat

/-- The headers of a transmit frame: a packet of a stream takes its entry (R245, R246, R264), a PTP message the fields of its
instance (R273, Table 12-1), a step announcement those of R250, a supervisor frame NETx.VLAN 0 (R245). -/
def txHead (d : Dev) (x : Nat) (b : TxBody) : TxHead :=
  let smac := ownMac d x
  let vlan := actGet d (offNetVlan x 0)
  let sup : TxHead := { smac := smac, tag := if bit vlan 15 then some (bits vlan 11 0, 0) else none }
  match b with
  | .stream t _ pkt =>
    let ws := txEntry d x t
    let v6 := decide (wbits ws 0 27 27 = 1)
    let dst := wordsAddr ws 4 v6
    { dmac := some (if isMulticast dst then groupMac dst else wbits ws 9 15 0 * 2 ^ 32 + wbits ws 8 31 0), smac := smac,
      tag := if wbits ws 0 26 26 = 1 then some (wbits ws 1 31 20, wbits ws 0 25 23) else none, etype := some (ipType v6),
      src := some (ownAddr d x v6), dst := some dst, dscp := some (wbits ws 0 15 10), ttl := some (wbits ws 10 7 0),
      sport := some (wbits ws 2 31 16), dport := some (wbits ws 2 15 0), ident := if v6 then none else some (0, true),
      sum := some (udpSum (ownAddr d x v6) dst (wbits ws 2 31 16) (wbits ws 2 15 0) (rtpBytes pkt)) }
  | .ptp m _ =>
    let v6 := liveB d (offPtpCtrl x) 4
    let group := ptpGroup v6
    let uni := decide (m.kind = 1) && actB d (offPtpCtrl x) 3
    let event := decide (m.kind ≤ 1)
    let p := if x = 0 then d.ptpi else d.ptpo
    { dmac := if uni then none else some (groupMac group), smac := smac, etype := some (ipType v6),
      tag := if actB d (offPtpCtrl x) 5 then some (actF d (offPtpQos x) 23 12, actF d (offPtpQos x) 27 25) else none,
      src := some (ownAddr d x v6),
      dst := if uni then (p.masters.find? fun q => p.parent = some q.source).bind (·.addr) else some group,
      dscp := some (if event then actF d (offPtpQos x) 5 0 else actF d (offPtpQos x) 11 6),
      dport := some (if event then 319 else 320) }
  | .step _ => { dmac := some 0x0180C200000E, smac := smac, etype := some 0x88B5 }
  | .membership _ g _ => { sup with dmac := some (groupMac (reportGroup g.v6)), etype := some (ipType g.v6),
                                    src := some (ownAddr d x g.v6), dst := some (reportGroup g.v6) }
  | .mgmt _ _ => { sup with sport := some (liveF d offMgtUdpPort 15 0) }
  | .answer _ => sup

/-- The presentation index in progress, in samples of the render rate. -/
def nowIndex (d : Dev) : Nat := blockN d * d.epc.epoch + d.epc.period * blockN d / 64

/-- A frame of a stream that was released at the same instant as f, with f's priority and a higher stream number (R265). -/
def laterStream (f q : TxFrame) : Bool := match f.body, q.body with
  | .stream t _ _, .stream u _ _ => decide (t < u ∧ f.prio = q.prio ∧ f.since = q.since)
  | _, _ => false

/-- A frame joins a queue: behind every other, but packets released at one instant enter in ascending stream number (R265). -/
def queueFrame (f : TxFrame) (l : List TxFrame) : List TxFrame :=
  match l with
  | [] => [f]
  | h :: t => if laterStream f h then f :: h :: t else h :: queueFrame f t

/-- The engine period in which the sample index in progress began: the release instant of the packets of that index (R25). -/
def releasePeriod (d : Dev) : Nat := nowIndex d * 64 / blockN d

/-- Puts a frame in its queue, if the transmit buffer of 768 KiB holds it (R266): a packet of a stream as of its release instant. -/
def enqueueTx (d : Dev) (x : Nat) (f : TxFrame) : Dev :=
  let entered := match f.body with
    | .stream _ _ _ => releasePeriod d
    | _ => nowPeriod d
  let f := { f with head := txHead d x f.body, since := entered }
  let p := plane d x
  if (p.queue.foldl (fun a q => a + q.bytes) 0) + f.bytes > 768 * 1024 then
    let d := bump d (offNetCnt x 9)
    match f.body with
    | .stream t _ _ => bump d (offNetTxsDropped x t)
    | _ => d
  else setPlane d x { p with queue := queueFrame f p.queue }

/-- The group of a receive entry, and its source filter where SSM is set (R246). -/
def rxGroup (ws : List Word) : IpAddr × Option IpAddr :=
  let v6 := decide (wbits ws 0 23 23 = 1)
  (wordsAddr ws 4 v6, if wbits ws 0 22 22 = 1 then some (wordsAddr ws 8 v6) else none)

/-- The groups that enabled receive entries name, with their source filters. -/
def rxGroups (l : List (List Word)) : List (IpAddr × Option IpAddr) :=
  l.filterMap fun ws => if wbits ws 0 31 31 = 1 ∧ isMulticast (rxGroup ws).1 = true then some (rxGroup ws) else none

/-- Bytes of a membership report or a leave: the smallest frame. -/
def supervisorBytes : Nat := 64

/-- A membership report or leave of a plane's supervisor (R246, R273). -/
def sendMembership (join : Bool) (x : Nat) (d : Dev) (g : IpAddr × Option IpAddr) : Dev :=
  enqueueTx d x { prio := 0, bytes := supervisorBytes, body := .membership join g.1 g.2, head := {} }

/-- Membership reports of a section that became READY (R246): one for each enabled multicast receive stream. -/
def netReports (d : Dev) (x : Nat) (rx : List (List Word)) : Dev := (rxGroups rx).foldl (sendMembership true x) d

/-- The words of a receive entry become active. A multicast stream that stops is left (R246). -/
def rxActivate (x : Nat) (a : Dev × Nat) (ws : List Word) : Dev × Nat :=
  let d := a.1
  let s := a.2
  let old := rxEntry d x s
  if old = ws then (d, s + 1)
  else
    let d := ((rxGroups [old]).filter fun g => !((rxGroups [ws]).contains g)).foldl (sendMembership false x) d
    ((ws.foldl (fun (b : Dev × Nat) w => (liveSet b.1 (offNetRxsCfg x s + 4 * b.2) w, b.2 + 1)) (d, 0)).1, s + 1)

/-- A transmit entry becomes active. -/
def txActivate (x : Nat) (a : Dev × Nat) (ws : List Word) : Dev × Nat :=
  ((ws.foldl (fun (b : Dev × Nat) w => (liveSet b.1 (offNetTxsCfg x a.2 + 4 * b.2) w, b.2 + 1)) (a.1, 0)).1, a.2 + 1)

/-- The tables of one plane of a network-streams section become active (R256). -/
def planeActivate (payload : List Byte) (d : Dev) (x : Nat) : Dev :=
  let p := netParse x payload
  let d := (p.1.foldl (rxActivate x) (d, 0)).1
  let d := (p.2.1.foldl (txActivate x) (d, 0)).1
  let d := (p.2.2.foldl (fun (b : Dev × Nat) v => (liveSet b.1 (offNetTxmap x b.2) (BitVec.ofNat 32 v), b.2 + 1)) (d, 0)).1
  let bits := txSetBits (blockN d) p.2.1
  let d := setPlane d x { plane d x with bigSet := decide (bits ≥ 7500000000) }
  liveSetF d (offNetLoad x) 31 16 (rne bits 1000000).toNat

/-- The Indigo entry that names an Ochre stream as its peer (R260). -/
def pairEntry (d : Dev) (s : Nat) : Option Nat :=
  (List.range 256).find? fun i =>
    let ws := rxEntry d 0 i
    decide (wbits ws 0 31 31 = 1 ∧ wbits ws 0 20 20 = 1 ∧ wbits ws 2 23 16 = s)

/-- A stream has a ring of its own: enabled audio, no Ochre member of a pair (R257). -/
def ownsRing (d : Dev) (x s : Nat) : Bool :=
  let ws := rxEntry d x s
  decide (wbits ws 0 31 31 = 1) && rxAudio ws && (decide (x = 0) || (pairEntry d s).isNone)

/-- An entry that is the same in the old and the new tables continues untouched (R256). -/
def entryKept (old new : Dev) (x s : Nat) : Bool := decide (rxEntry old x s = rxEntry new x s)

/-- The ring that a stream had. -/
def ringHad (old : Dev) (x s : Nat) : RxRing :=
  let o := ringOwner old x s
  getRing old o.1 o.2

/-- The ring of a stream under the new tables (R256). The ring of a pair goes on with the member whose entry is the same; a member whose
entry changed carries zero until the first sample placed after that, which is a stream restart (R78). -/
def ringNew (old new : Dev) (x s : Nat) : RxRing :=
  if entryKept old new x s then
    let r := ringHad old x s
    let ws := rxEntry new x s
    if x = 0 ∧ wbits ws 0 20 20 = 1 ∧ entryKept old new 1 (wbits ws 2 23 16) = false then
      { r with restart := (r.restart.1, true), hold := (r.hold.1, .shut) }
    else r
  else
    let ws := rxEntry new x s
    if x = 0 ∧ wbits ws 0 20 20 = 1 ∧ entryKept old new 1 (wbits ws 2 23 16) = true then
      let r := ringHad old 1 (wbits ws 2 23 16)
      { r with restart := (true, r.restart.2), hold := (.shut, r.hold.2) }
    else {}

/-- The rings of a plane under the new tables, with the DEPTH that reports them (R257). -/
def ringsActivate (old : Dev) (d : Dev) (x : Nat) : Dev :=
  let own := (List.range 256).filter (ownsRing d x)
  let d := (List.range 256).foldl (fun d s =>
    liveSetF d (offNetRxsStat x s) 15 0 (if own.contains s then rxDepth (rxEntry d x s) else 0)) d
  setPlane d x { plane d x with rings := own.map fun s => (s, ringNew old d x s) }

/-- A network-streams section becomes active (R256). -/
def netActivate (payload : List Byte) (d : Dev) : Dev :=
  (List.range 2).foldl (ringsActivate d) ((List.range 2).foldl (planeActivate payload) d)

/-! ### Transmit -/

/-- Sample of an output channel at a presentation index (R176, R264). -/
def shownSample (d : Dev) (ch idx : Nat) : Int :=
  let n := blockN d
  match d.path.shown.find? fun b => b.1 = idx / n with
  | none => 0
  | some b => sampleAt (mapGet (fun _ => []) b.2 ch) (idx % n)

/-- The payload of packet k of a transmit stream (R264). -/
def txPayload (d : Dev) (x t k : Nat) : List Byte :=
  let ws := txEntry d x t
  let s := blockN d / 16 * ptimeSamples (wbits ws 0 29 28)
  let c := wbits ws 0 6 0
  let l24 := wbits ws 0 30 30 = 1
  (List.range s).foldr (fun i acc =>
    (List.range c).foldr (fun j acc =>
      let m := liveGet d (offNetTxmap x (wbits ws 1 9 0 + j))
      let v := if wbits ws 1 9 0 + j < 1024 ∧ bit m 15 = true then shownSample d (bits m 9 0) (k * s + i) else 0
      if l24 then beBytes 3 (code 24 v) ++ acc else beBytes 2 (code 16 (satS 16 (rshr v 8))) ++ acc) acc) []

/-- Packet k of a transmit stream as RTP (R264). -/
def txPacket (d : Dev) (x t k : Nat) : RtpPkt :=
  let ws := txEntry d x t
  let s := blockN d / 16 * ptimeSamples (wbits ws 0 29 28)
  { pt := wbits ws 0 22 16, seq := k % 65536, ts := k * s % 2 ^ 32, ssrc := wbits ws 3 31 0, payload := txPayload d x t k }

/-- Media transmit may go out: the plane runs, the timebase is loaded and the twin does not hold it (R31, Table 16-2). -/
def mediaOpen (d : Dev) (x : Nat) : Bool :=
  running d (netBlk x) && liveF d offEpcStatus 3 2 != 0 && !(liveB d offTwnStatus 8)

/-- The packet of a stream whose release instant falls at the sample index in progress (R25, R264, R265): the one whose last sample
has just been presented. It is none before the first packet whose samples are all presented after the timebase loaded. -/
def duePacket (d : Dev) (x t : Nat) : Option Nat :=
  let ws := txEntry d x t
  let n := blockN d
  let s := n / 16 * ptimeSamples (wbits ws 0 29 28)
  let now := nowIndex d
  if now < s ∨ now % s ≠ 0 then none
  else
    let k := now / s - 1
    if wbits ws 0 31 31 = 1 ∧ n * d.path.loadEpoch ≤ k * s ∧ (plane d x).sent.find? (fun p => p.1 = t) ≠ some (t, k) then some k
    else none

/-- TX_PACKET_RELEASE (R265): the packet is built whole and enters the queue of its priority. -/
def txRelease (x t : Nat) (d : Dev) : Dev :=
  if mediaOpen d x then
    match duePacket d x t with
    | none => d
    | some k =>
      let ws := txEntry d x t
      let prio := if wbits ws 0 26 26 = 1 then wbits ws 0 25 23 else 0
      let p := plane d x
      let d := setPlane d x { p with sent := mapIns (mapDel p.sent t) t k }
      enqueueTx d x { prio := prio, bytes := txFrameBytes (blockN d) ws, body := .stream t k (txPacket d x t k), head := {} }
  else d

/-- A priority is paused (R247). -/
def isPaused (p : Plane) (q : Nat) : Bool := (p.paused.find? fun a => a.1 = q).isSome

/-- 24 times STALE_US: an engine period is 125/24 us. -/
def staleAge (d : Dev) (x : Nat) : Nat := 24 * actF d (offNetTxStale x) 15 0

/-- A frame may start: one of a stream only while TIMEBASE does not read FREE (R31), and not once it is older than STALE_US (R248). -/
def mayStart (d : Dev) (x : Nat) (f : TxFrame) : Bool := match f.body with
  | .stream _ _ _ => decide (liveF d offEpcStatus 3 2 ≠ 0) && decide ((nowPeriod d - f.since) * 125 ≤ staleAge d x)
  | _ => true

/-- The frame that may start next: the first of the highest priority that is not paused (R247). -/
def nextTx (d : Dev) (x : Nat) : Option TxFrame :=
  let p := plane d x
  (List.range 8).foldl (fun best q => match best with
    | some f => some f
    | none => if isPaused p (7 - q) then none else p.queue.find? fun f => decide (f.prio = 7 - q) && mayStart d x f) none

/-- Takes the first frame equal to f out of a queue. -/
def dropFirst (f : TxFrame) (l : List TxFrame) : List TxFrame :=
  match l with
  | [] => []
  | h :: t => if h = f then t else h :: dropFirst f t

/-- Counter block of a MAC (Table 18-9). -/
def perfMac (x : Nat) : Nat := 76 + x

/-- TX_FRAME_START (R247, R265): the port starts the next frame. -/
def txStart (x : Nat) (d : Dev) : Dev :=
  let p := plane d x
  if running d (netBlk x) && liveB d (offNetStatus x) 0 && !p.training then
    match nextTx d x with
    | none => d
    | some f =>
      let d := setPlane d x { p with queue := dropFirst f p.queue, onWire := some f }
      let d := perfHit (bump d (offNetCnt x 8)) (perfMac x) 0x11 1
      match f.body with
      | .stream t _ _ => bump d (offNetTxsPackets x t)
      | _ => d
  else d

/-- The first waiting frame of a transmit stream that may be older than STALE_US since its release. -/
def staleFrame (d : Dev) (x t : Nat) : Option TxFrame :=
  (plane d x).queue.find? fun f => match f.body with
    | .stream t' _ _ => decide (t' = t ∧ (nowPeriod d + 1 - f.since) * 125 > staleAge d x)
    | _ => false

/-- TX_STALE (R248): a frame of a stream that has not started within STALE_US of its release is discarded and counted. -/
def txStale (x t : Nat) (d : Dev) : Dev :=
  let p := plane d x
  match staleFrame d x t with
  | none => d
  | some f =>
    let d := setPlane d x { p with queue := dropFirst f p.queue }
    bump (bump d (offNetCnt x 9)) (offNetTxsDropped x t)

/-- A priority flow control frame (R247): a pause of an honoured priority starts or restarts its timer, a pause of zero
releases it. Each priority named is counted. -/
def pfcFrame (x : Nat) (en : BitVec 8) (times : List Nat) (d : Dev) : Dev :=
  (List.range 8).foldl (fun d q =>
    if en.toNat.testBit q then
      let d := bump d (offNetPfcCnt x q)
      if actB d (offNetCtrl x) (8 + q) then
        let p := plane d x
        let t := times.getD q 0 % 65536
        setPlane d x { p with paused := if t = 0 then mapDel p.paused q else mapIns (mapDel p.paused q) q t }
      else d
    else d) d

/-- PFC_PAUSE_EXPIRY (R247): the timer of a pause runs out. -/
def pauseExpiry (x q : Nat) (d : Dev) : Dev :=
  let p := plane d x
  setPlane d x { p with paused := mapDel p.paused q }

/-! ### Supervisor frames -/

/-- Bytes of the supervisor queue in use. -/
def supBytes (p : Plane) : Nat := p.sup.foldl (fun a f => a + f.len) 0

/-- A frame goes to the supervisor queue of 128 KiB, or is dropped and counted (R244). -/
def supEnqueue (x : Nat) (f : Frame) (d : Dev) : Dev :=
  let p := plane d x
  if supBytes p + f.len > 128 * 1024 then perfHit (bump d (offNetCnt x 7)) (perfMac x) 0x12 1
  else setPlane d x { p with sup := p.sup ++ [f] }

/-- Priority of the supervisor's own frames: PCP 0. -/
def supervisorPrio : Nat := 0

/-- A frame of the queue is supervisor traffic other than a management datagram, and its protocol. -/
def supKind (f : Frame) : Option SupKind := match f.body with
  | .supervisor k _ _ => some k
  | _ => none

/-- Takes the first frame that passes a test out of a list. -/
def dropWhere (p : Frame → Bool) (l : List Frame) : List Frame :=
  match l with
  | [] => []
  | h :: t => if p h then t else h :: dropWhere p t

/-- SUPERVISOR_FRAME (R246): firmware takes the oldest frame of the queue that is no management datagram, and answers ARP, neighbour
solicitation and echo. -/
def supervisorTake (x : Nat) (d : Dev) : Dev :=
  let p := plane d x
  match p.sup.findSome? supKind with
  | none => d
  | some k =>
    let d := setPlane d x { p with sup := dropWhere (fun f => (supKind f).isSome) p.sup }
    if k ≠ .membership ∧ running d (netBlk x) = true then
      enqueueTx d x { prio := supervisorPrio, bytes := supervisorBytes, body := .answer k, head := {} }
    else d

/-! ### Speed stepping -/

/-- Wire bits per second of a plane's active transmit set. -/
def txActiveBits (d : Dev) (x : Nat) : Nat := txSetBits (blockN d) ((List.range 128).map fun t => txEntry d x t)

/-- Offered load of an epoch in bits per second: the larger of received and transmit wire bits (R249). -/
def offeredLoad (d : Dev) (x : Nat) : Nat := max ((plane d x).rxBits * 3000) (txActiveBits d x)

/-- The other plane has not started a step within the last second (R249). -/
def otherQuiet (d : Dev) (x : Nat) : Bool :=
  match (plane d (1 - x)).lastStep with
  | none => true
  | some e => decide (e + 3000 ≤ d.epc.epoch)

/-- The condition of a step up (R249). -/
def stepUpDue (d : Dev) (x : Nat) : Bool :=
  let p := plane d x
  liveB d (offNetStatus x) 1 &&
    (p.bigSet || (decide (p.loads.length = 30) && decide (p.loads.foldl (· + ·) 0 ≥ 30 * 7500000000)))

/-- The condition of a step down (R249). -/
def stepDownDue (d : Dev) (x : Nat) : Bool :=
  !(liveB d (offNetStatus x) 1) && decide ((plane d x).lowRun ≥ actF d (offNetStep x) 7 0 * 3000) &&
    liveB d (offNetStatus (1 - x)) 0

/-- A step may start (R249): where both planes meet the condition of a step up, Indigo goes first. -/
def stepMayStart (d : Dev) (x : Nat) : Bool :=
  let may := fun y => running d (netBlk y) && actB d (offNetCtrl y) 3 && liveB d (offNetStatus y) 0 && (plane d y).step.isNone
  may x && otherQuiet d x && (stepDownDue d x || (stepUpDue d x && !(decide (x = 1) && may 0 && stepUpDue d 0 && otherQuiet d 0)))

/-- A step announcement (R250). -/
def announceStep (d : Dev) (x e sp : Nat) : Dev :=
  let body := beBytes 2 0x5153 ++ [if sp = 1 then 10 else 25, 0] ++ beBytes 8 (16 * e) ++ List.replicate 34 0
  enqueueTx d x { prio := supervisorPrio, bytes := 64, body := .step body, head := {} }

/-- SPEED_STEP_START (R249, R250): the step is announced in this epoch and the next two, for the epoch after them. -/
def stepStart (x : Nat) (d : Dev) : Dev :=
  if stepMayStart d x then
    let sp := if liveB d (offNetStatus x) 1 then 0 else 1
    let d := setPlane d x { plane d x with step := some (d.epc.epoch + 3, sp), lastStep := some d.epc.epoch, bigSet := false }
    announceStep (liveSetB d (offNetStatus x) 3 true) x (d.epc.epoch + 3) sp
  else d

/-- The epoch of a plane's speed step has come. -/
def stepDue (d : Dev) (x : Nat) : Bool := (plane d x).step.any fun p => decide (p.1 ≤ d.epc.epoch)

/-- STEP_EPOCH (R250): the port stops transmitting and retrains. -/
def stepEpoch (x : Nat) (d : Dev) : Dev :=
  if stepDue d x then
    let d := setPlane d x { plane d x with training := true }
    liveSetB (liveSetB d (offNetStatus x) 0 false) (offNetStatus x) 2 false
  else d

/-- The speed in Gb/s at which a port's link can come up (R243, R250): that of the step in progress, else the one in use. -/
def linkSpeed (d : Dev) (x : Nat) : Nat :=
  let p := plane d x
  match p.training, p.step with
  | true, some (_, n) => if n = 1 then 10 else 25
  | _, _ => if liveB d (offNetStatus x) 1 then 10 else 25

/-- The link of a media port can come up at a speed: the plane runs, the link is down, and the port is at that speed. -/
def mayLink (d : Dev) (x sp : Nat) : Bool :=
  running d (netBlk x) && !(liveB d (offNetStatus x) 0) && decide (sp = linkSpeed d x)

/-- The link of a media port comes up at a speed in Gb/s (R243, R250, R263). -/
def netLinkUp (x sp : Nat) (d : Dev) : Dev :=
  if mayLink d x sp then
    let p := plane d x
    let ten := decide (sp = 10)
    let d := if p.training && p.step.isSome then bump d (offNetCnt x 10)
      else raiseErr d (srcOf (netBlk x) 0) 0x0303 (BitVec.ofNat 32 sp) 0
    let d := if p.training then
        liveSetB (setPlane d x { p with training := false, step := none }) (offNetStatus x) 3 false else d
    let d := liveSetB (liveSetB d (offNetStatus x) 0 true) (offNetStatus x) 1 ten
    liveSetB d (offNetStatus x) 2 (!ten && liveB d (offNetCtrl x) 2)
  else d

/-- The link of a media port goes down (R263). -/
def netLinkDown (x : Nat) (d : Dev) : Dev :=
  if liveB d (offNetStatus x) 0 then
    let d := liveSetB (liveSetB d (offNetStatus x) 0 false) (offNetStatus x) 2 false
    raiseErr (bump d (offNetCnt x 12)) (srcOf (netBlk x) 0) 0x0302 0 0
  else d

/-- STEP_TIMEOUT (R250): with the link not up 10 ms after the start of the step epoch, the port returns to its previous speed and clears
STEP_EN. -/
def stepTimeout (x : Nat) (d : Dev) : Dev :=
  let p := plane d x
  match p.step with
  | none => d
  | some (e, sp) =>
    if p.training ∧ e + 30 ≤ d.epc.epoch then
      let d := liveSetB (setPlane d x { p with training := false, step := none }) (offNetStatus x) 3 false
      let d := actSet d (offNetCtrl x) (setBit (actGet d (offNetCtrl x)) 3 false)
      let d := shSet d (offNetCtrl x) (setBit (shGet d (offNetCtrl x)) 3 false)
      raiseErr (bump d (offNetCnt x 11)) (srcOf (netBlk x) 0) 0x0304 (if sp = 1 then 10 else 25) 0
    else d

/-! ### Epoch starts -/

/-- What a plane does at an epoch start, for the epoch that ended: RXS_STAT.RECEIVING, the entry of R263, the loads of R249,
the announcements of R250. -/
def netEpoch (d : Dev) (x : Nat) : Dev :=
  let p := plane d x
  let d := (List.range 256).foldl (fun d s => liveSetB d (offNetRxsStat x s) 31 (p.got.contains s)) d
  let d := match p.lateLow with
    | none => d
    | some s => raiseErr (bump d (offNetCnt x 13)) (srcOf (netBlk x) 0) 0x0301 (BitVec.ofNat 32 s) (BitVec.ofNat 32 p.late)
  let load := offeredLoad d x
  let d := liveSetF d (offNetLoad x) 15 0 (rne (p.rxBits * 3) 1000).toNat
  let q := plane d x
  let d := setPlane d x { q with late := 0, lateLow := none, got := [], rxBits := 0, loads := load :: q.loads.take 29,
                                 lowRun := if load < 6000000000 then q.lowRun + 1 else 0,
                                 bigSet := q.bigSet && liveB d (offNetStatus x) 1 && decide (txActiveBits d x ≥ 7500000000) }
  match p.step with
  | none => d
  | some (e, sp) => if d.epc.epoch < e ∧ p.training = false then announceStep d x e sp else d

/-- A plane at an epoch start, after the commit: one that starts has its configured speed and reports the groups of its receive streams
(R246, assumption log entry 246); one that stops loses its link and drops its step (R268). -/
def netRun (d : Dev) (x : Nat) : Dev :=
  let p := plane d x
  if running d (netBlk x) then
    if p.ran then d
    else
      let d := liveSetB (setPlane d x { p with ran := true }) (offNetStatus x) 1 (liveB d (offNetCtrl x) 1)
      netReports d x ((List.range 256).map (rxEntry d x))
  else if p.ran then
    netLinkDown x (liveSetB (setPlane d x { p with ran := false, step := none, training := false }) (offNetStatus x) 3 false)
  else d

/-- PFC_PAUSE_EXPIRY (R247). -/
def execPfcPauseExpiry (pl prio : Nat) (s : State) : Host.Outcome State Fault Refusal :=
  ranIf (decide (pl < 2 ∧ prio < 8)) s (pauseExpiry pl prio)

/-- SUPERVISOR_FRAME (R246). -/
def execSupervisorFrame (pl : Nat) (s : State) : Host.Outcome State Fault Refusal :=
  ranIf (decide (pl < 2)) s (supervisorTake pl)

/-- TX_PACKET_RELEASE (R265). -/
def execTxPacketRelease (pl stream : Nat) (s : State) : Host.Outcome State Fault Refusal :=
  ranIf (decide (pl < 2 ∧ stream < 128)) s (txRelease pl stream)

/-- TX_FRAME_START (R247). -/
def execTxFrameStart (pl : Nat) (s : State) : Host.Outcome State Fault Refusal := ranIf (decide (pl < 2)) s (txStart pl)

/-- TX_STALE (R248). -/
def execTxStale (pl stream : Nat) (s : State) : Host.Outcome State Fault Refusal :=
  ranIf (decide (pl < 2 ∧ stream < 128)) s (txStale pl stream)

end Sys2Proof.Machine
end

