-- ==== Sys2Proof/Machine/Ptp.lean ====
section
/-!
DEFINITION. Sys2Proof/Machine/Ptp.lean: chapter 12, the two PTP instances and the media clock servo. Instance 0 is PTPI, 1 PTPO.
Captured times are counts of the device's own MED time in 1/16 ns; `servo.base` makes media time of them.
-/
namespace Sys2Proof.Machine

/-- An instance. -/
def ptp (d : Dev) (x : Nat) : PtpInst := if x = 0 then d.ptpi else d.ptpo

/-- Replaces an instance. -/
def setPtp (d : Dev) (x : Nat) (p : PtpInst) : Dev := if x = 0 then { d with ptpi := p } else { d with ptpo := p }

/-- Block number of an instance. -/
def ptpBlk (x : Nat) : Nat := blkPtpi + x

/-- PORT_STATE. -/
def portStateOf (d : Dev) (x : Nat) : Nat := liveF d (offPtpStatus x) 3 0

/-- Sets PORT_STATE. -/
def setPortStateOf (d : Dev) (x v : Nat) : Dev := liveSetF d (offPtpStatus x) 3 0 v

/-- The asymmetry row of a plane's port (Table 12-3): 10 Gb/s, or 25 Gb/s with or without RS-FEC. -/
def ptpRow (d : Dev) (x : Nat) : Nat :=
  if liveB d (offNetStatus x) 1 then 2 else if liveB d (offNetStatus x) 2 then 0 else 1

/-- Media time of a received stamp (R276). -/
def rxTime (d : Dev) (x : Nat) (captured : Int) : Int :=
  captured + d.servo.base - (actF d (offPtpAsym x (ptpRow d x)) 15 0 : Int)

/-- Media time of a transmit stamp (R276). -/
def txTime (d : Dev) (x : Nat) (captured : Int) : Int :=
  captured + d.servo.base + (actF d (offPtpAsym x (ptpRow d x)) 31 16 : Int)

/-- A time in 2^-16 ns as the media time holds it (R269). -/
def mediaOf (t : Int) : MediaTime :=
  ⟨BitVec.ofInt 48 (t / 65536000000000), BitVec.ofInt 30 (t / 65536 % 1000000000), BitVec.ofInt 16 t⟩

/-- The media time in the engine period in progress, at its start (R269), rounded to its fraction (R4). -/
def mediaNow (d : Dev) : MediaTime :=
  mediaOf (rne ((d.servo.epochAt + 250000 * (d.epc.period : Int)) * 4096) 3 + d.servo.base * 4096)

/-- What a timestamp of a message holds of a time in 1/16 ns: seconds and nanoseconds, rounded (R4); in 1/16 ns. -/
def stampOf (t : Int) : Int :=
  let m := mediaOf (rne t 16 * 65536)
  ((m.sec.toNat * 1000000000 + m.ns.toNat) * 16 : Nat)

/-- State of the servo (Table 12-4): 0 FREE, 1 ACQUIRING, 2 LOCKED, 3 SLEWING, 4 HOLDOVER, 5 FOLLOW. -/
def servoState (d : Dev) : Nat := liveF d offPtpiServoStatus 2 0

/-- The plane of the selected source. -/
def servoSel (d : Dev) : Nat := liveF d offPtpiServoStatus 4 4

/-- Sets a 64-bit signed value in a pair of registers. -/
def liveSet64 (d : Dev) (lo hi : Nat) (v : Int) : Dev :=
  let u := code 64 v
  liveSet (liveSet d lo (BitVec.ofNat 32 u)) hi (BitVec.ofNat 32 (u / 2 ^ 32))

/-! ### Intervals (R272) -/

/-- A signed byte of INTERVALS. -/
def ptpByte (d : Dev) (x lo : Nat) : Int := sext 8 (actF d (offPtpIntervals x) (lo + 7) lo)

/-- Ranges and defaults of Table 12-2 by profile: log sync, log announce, log delay request, announce timeout. The range of the
delay request depends on the sync interval under ST 2059-2. -/
def ptpLimits (aes : Bool) (sync : Int) : List (Int × Int × Int) :=
  if aes then [(-4, 1, -3), (0, 4, 1), (-3, 5, 0), (2, 10, 3)]
  else [(-7, -1, -3), (-3, 0, -2), (sync, sync + 5, -3), (2, 10, 3)]

/-- A value within its range, or the default, and whether it was in range. -/
def inLimit (l : Int × Int × Int) (v : Int) : Int × Bool := if l.1 ≤ v ∧ v ≤ l.2.1 then (v, true) else (l.2.2, false)

/-- The intervals in force and whether every field was in range. -/
def ptpIntervals (d : Dev) (x : Nat) : List (Int × Bool) :=
  let aes := liveB d (offPtpCtrl x) 1
  let sync := inLimit ((ptpLimits aes 0).getD 0 (0, 0, 0)) (ptpByte d x 0)
  let ls := ptpLimits aes sync.1
  [sync, inLimit (ls.getD 1 (0, 0, 0)) (ptpByte d x 8), inLimit (ls.getD 2 (0, 0, 0)) (ptpByte d x 16),
    inLimit (ls.getD 3 (0, 0, 0)) (actF d (offPtpIntervals x) 31 24 : Int)]

/-! ### Best master (R271, R275) -/

/-- a is a better master than b by the data set comparison of IEEE 1588-2019. -/
def betterMaster (a b : PtpMaster) : Bool :=
  if a.gmId = b.gmId then decide (a.steps < b.steps ∨ (a.steps = b.steps ∧ a.source < b.source))
  else
    let k := fun (m : PtpMaster) => [m.priority1, m.clockClass, m.accuracy, m.variance, m.priority2, m.gmId]
    decide (k a < k b)

/-- The best master heard of often enough to count. -/
def bestMaster (l : List PtpMaster) : Option PtpMaster :=
  l.foldl (fun b m =>
    if m.heard < 2 then b
    else match b with
      | none => some m
      | some x => if betterMaster m x then some m else some x) none

/-- The parent's record. -/
def parentOf (p : PtpInst) : Option PtpMaster := p.masters.find? fun m => p.parent = some m.source

/-- An instance may act as master (R275): MASTER_EN, and the servo is LOCKED or SLEWING on the other plane. -/
def mayMaster (d : Dev) (x : Nat) : Bool :=
  running d (ptpBlk x) && actB d (offPtpCtrl x) 2 && decide (servoState d = 2 ∨ servoState d = 3) && decide (servoSel d ≠ x)

/-- The data set an instance in MASTER announces: the other instance's parent, one step further (R275). -/
def ownMaster (d : Dev) (x : Nat) : Option PtpMaster :=
  (parentOf (ptp d (1 - x))).map fun m => { m with steps := m.steps + 1 }

/-! ### Qualifying (R280) -/

/-- An instance follows its master: it runs as a slave, Syncs come, and its offset is measured. -/
def isSlave (d : Dev) (x : Nat) : Bool :=
  running d (ptpBlk x) && decide (portStateOf d x = 9) && (ptp d x).fresh && (ptp d x).off.isSome

/-- The plane of an instance is stepping. -/
def stepping (d : Dev) (x : Nat) : Bool := liveB d (offNetStatus x) 3

/-- Its grandmaster's clockClass is at or below CLASS_MAX. -/
def classOk (d : Dev) (x : Nat) : Bool := match parentOf (ptp d x) with
  | none => false
  | some m => decide (m.clockClass ≤ actF d (offPtpQual x) 7 0)

/-- Whether an instance is qualified. -/
def isQualified (d : Dev) (x : Nat) : Bool :=
  isSlave d x && !(stepping d x) && decide ((ptp d x).good ≥ actF d (offPtpQual x) 15 8) && classOk d x

/-- SWITCH_MAX in 1/16 ns. -/
def switchMax (d : Dev) : Int := (actF d offPtpiServoSwitch 19 0 : Int) * 16000

/-- Offset of an instance, and whether it is within SWITCH_MAX. -/
def offOf (d : Dev) (x : Nat) : Int := match (ptp d x).off with
  | some o => o
  | none => 0

/-- The offset is within SWITCH_MAX. -/
def offWithin (d : Dev) (x : Nat) : Bool := decide ((offOf d x).natAbs ≤ (switchMax d).natAbs)

/-- Registers of an instance: QUALIFIED, ROW, OFFSET, PATH_DELAY; and since when it could be reverted to. -/
def ptpReport (d : Dev) (x : Nat) : Dev :=
  let p := ptp d x
  let q := isQualified d x
  let ok := q && offWithin d x
  let p := { p with since := if ok then (match p.since with | none => some d.epc.epoch | some e => some e) else none }
  let d := setPtp d x p
  let d := liveSetB (liveSetF d (offPtpStatus x) 5 4 (ptpRow d x)) (offPtpStatus x) 6 q
  let d := liveSet64 d (offPtpOffsetLo x) (offPtpOffsetHi x) (offOf d x)
  liveSet d (offPtpPathDelay x) (wordOf (if p.mpds.isEmpty then 0 else
    clampI (p.mpds.foldl min (p.mpds.headD 0)) (p.mpds.foldl max (p.mpds.headD 0)) (Config.ptpDelay p.mpds)))

/-- Measurements in progress are dropped. -/
def dropExchange (p : PtpInst) : PtpInst := { p with sync := none, ms := none, t3 := none, req := none }

/-- The events after which QUAL_SYNCS Syncs are needed again (R280). -/
def requalify (p : PtpInst) : PtpInst := { dropExchange p with good := 0 }

/-- The state decision of the BMCA: the best master becomes the parent, or the instance acts as master, or it listens. -/
def bmca (d : Dev) (x : Nat) : Dev :=
  let p := ptp d x
  let best := bestMaster p.masters
  let master := mayMaster d x && (match best, ownMaster d x with
    | none, some _ => true
    | some b, some o => betterMaster o b
    | _, _ => false)
  if master then setPortStateOf (setPtp d x { dropExchange p with parent := none }) x 6
  else match best with
    | none => setPortStateOf (setPtp d x { dropExchange p with parent := none }) x 4
    | some b =>
      let gm := (liveGet d (offPtpGmIdHi x)).toNat * 2 ^ 32 + (liveGet d (offPtpGmIdLo x)).toNat
      let same := p.parent = some b.source ∧ (portStateOf d x = 8 ∨ portStateOf d x = 9)
      let d := if gm = b.gmId then d
        else if gm = 0 ∧ p.parent = none then d
        else liveSetB (bump d (offPtpCnt x 7)) (offPtpStatus x) 7 true
      let p := if gm = b.gmId ∧ same then p
        else if gm = b.gmId then { dropExchange p with parent := some b.source }
        else { requalify p with parent := some b.source }
      let d := setPtp d x p
      let d := liveSet64 d (offPtpGmIdLo x) (offPtpGmIdHi x) (b.gmId : Int)
      let d := liveSet d (offPtpGmQuality x) (BitVec.ofNat 32
        (code 8 b.utc * 2 ^ 24 + b.steps % 256 * 2 ^ 16 + b.accuracy % 256 * 2 ^ 8 + b.clockClass % 256))
      if same then d else setPortStateOf d x 8

/-! ### The servo (R281 to R287) -/

/-- Sets the state and the cause of the servo. -/
def setServo (d : Dev) (st cause : Nat) : Dev :=
  liveSetF (liveSetF d offPtpiServoStatus 2 0 st) offPtpiServoStatus 7 6 cause

/-- The residual (R284). -/
def setResidual (d : Dev) (r : Int) : Dev := liveSet64 d offPtpiServoResidLo offPtpiServoResidHi r

/-- LOCKED within 1 us of residual, else SLEWING. A servo that enters LOCKED while TIMEBASE reads FREE, as from a HOLDOVER that ended
ACQUIRING, makes the timebase load (R31). -/
def tracking (d : Dev) (o : Int) : Dev :=
  let near := decide (o.natAbs ≤ 16000)
  let load := near && decide (timebase d = 0) && d.servo.lockedAt.isNone
  let d := if load then { d with servo := { d.servo with lockedAt := some (d.servo.epochAt / 3) } } else d
  setServo (setResidual d o) (if near then 2 else 3) 0

/-- The steering word. -/
def servoWord (d : Dev) : Int := sext 32 (liveGet d offPtpiServoFreq).toNat

/-- FREQ_MAX in parts per 10^12. -/
def freqMax (d : Dev) : Int := (actF d offPtpiServoCfg 13 8 : Int) * 1000000

/-- A word limited to FREQ_MAX and, where it applies, to 2 ppm/s over a count of dt sixteenths of a nanosecond (R283). -/
def limitWord (d : Dev) (slew : Bool) (old new dt : Int) : Int :=
  let w := if slew then clampI (old - dt / 8000) (old + dt / 8000) new else new
  clampI (-(freqMax d)) (freqMax d) w

/-- Sets the steering word at a count. -/
def setWord (d : Dev) (now w : Int) : Dev :=
  liveSet { d with servo := { d.servo with updated := some now } } offPtpiServoFreq (wordOf w)

/-- Moves the steering word towards w, within R283, at a count. -/
def moveWord (d : Dev) (now w : Int) : Dev :=
  let dt := match d.servo.updated with
    | some t => max 0 (now - t)
    | none => 0
  setWord d now (limitWord d (timebase d ≠ 0) (servoWord d) w dt)

/-- The word that the loop and the profile ask for (R284). -/
def wantedWord (d : Dev) : Int := d.servo.loop + d.servo.prof / 3

/-- The bandwidths of BW, in 0.01 Hz. -/
def bandwidth (bw : Nat) : Nat := [1, 3, 10, 30].getD bw 1

/-- The two parts of a proportional-integral loop with damping 1 (R283, R319), in 2^-32 parts per 10^12, for an error of num / den
seconds and tn / td seconds since the last update: with w the natural frequency in 2^-32 rad/s, 2w times the error, and w squared times
the error and the time. -/
def loopTerms (w : Nat) (num : Int) (den : Nat) (tn : Int) (td : Nat) : Int × Int :=
  (rne (2 * (w : Int) * num * 10 ^ 12) den, rne ((w : Int) * (w : Int) * num * tn * 10 ^ 12) (2 ^ 32 * den * td))

/-- The loop takes the error that the profile leaves (R283), in 1/16 ns: a source that is behind, a positive offset, lowers the word. Its
natural frequency is a free multiple of the bandwidth (assumption log entry 19). -/
def loopStep (d : Dev) (now e : Int) : Dev :=
  let v := d.servo
  let dt := match v.synced with
    | some t => now - t
    | none => 0
  let w := bandwidth (actF d offPtpiServoCfg 5 4) * (Config.loopRatio false + 1)
  let pi := loopTerms w e 16000000000 dt 16000000000
  let integ := v.integ - pi.2
  { d with servo := { v with synced := some now, integ := integ, loop := rshr (integ - pi.1) 32 } }

/-- 1/16 ns in the unit of `rem`. -/
def remUnit : Int := 562500

/-- A residual that is more than 1 us from what the profile expects is planned for anew (R284). -/
def planResid (d : Dev) (o : Int) : Dev :=
  if (o * remUnit - d.servo.rem).natAbs > (16000 * remUnit).natAbs then { d with servo := { d.servo with rem := o * remUnit } } else d

/-- The servo updates at a Sync of the selected source, with its offset (R283, R284). -/
def servoUpdate (d : Dev) (now o : Int) : Dev :=
  let d := if servoState d = 1 then { d with servo := { d.servo with rem := 0, prof := 0 } } else planResid d o
  let d := loopStep d now (o - d.servo.rem / remUnit)
  moveWord d now (wantedWord d)

/-- One epoch of the fastest profile (R284): the correction changes by 2 ppm/s up to FREQ_MAX, and turns back in time to reach zero with
the residual. A source that is behind is met by a negative correction. -/
def profileStep (d : Dev) : Dev :=
  let v := d.servo
  let s : Int := if v.rem < 0 then 1 else -1
  let f := s * v.prof
  let top := 3 * freqMax d
  let r : Int := v.rem.natAbs
  let g := if r ≤ 2000 ∧ f ≤ 2000 ∧ -2000 ≤ f then 0
    else if f > 0 ∧ f * f ≥ 4000 * r then f - 2000
    else min (max top f) (f + 2000)
  let left := if g = 0 ∧ r ≤ 2000 then 0 else v.rem + s * ((f + g) / 2)
  { d with servo := { v with prof := s * g, rem := left } }

/-- HOLDOVER begins (R287), with its cause and, for REFUSED, the candidate. -/
def enterHoldover (d : Dev) (cause : Nat) (cand : Option Nat) : Dev :=
  let ws := d.servo.words
  let mean := if ws.isEmpty then servoWord d else rne (ws.foldl (fun a e => a + e) 0) ws.length
  let d := { d with servo := { d.servo with target := mean, kept := false, left := true, refused := cand, rem := 0, prof := 0 } }
  let d := if cause = 3 then liveSetB d offPtpiServoStatus 8 true else d
  setServo d 4 cause

/-- A residual in whole ns (R4), saturating to 32 bits. -/
def residNs (o : Int) : Word := wordOf (satS 32 (rne o 16))

/-- The servo follows the source of plane x (R286), whose offset is the residual; a change of plane is a switch. A servo in ACQUIRING goes
on acquiring (R282). -/
def followSource (d : Dev) (x : Nat) : Dev :=
  let o := offOf d x
  let moved := decide (servoSel d ≠ x) && d.servo.chosen
  let w := servoWord d
  let held := decide (servoState d = 4)
  let d := liveSetF d offPtpiServoStatus 4 4 x
  let v := d.servo
  let d := { d with servo := { v with
    chosen := true, kept := !(isQualified d x), refused := none, rem := o * remUnit, synced := none, run := 0,
    loop := if held then w else v.loop, integ := if held then w * 2 ^ 32 else v.integ, prof := if held then 0 else v.prof } }
  let d := if moved then
      raiseErr (bump d offPtpiServoSwitchCount) (srcOf blkPtpi 0) 0x0306 (BitVec.ofNat 32 x) (residNs o)
    else d
  if servoState d = 1 then setResidual d o else tracking d o

/-- The plane to choose among the qualified ones: PREFER first (R286). -/
def preferred (d : Dev) (p : Nat → Bool) : Option Nat :=
  let f := actF d offPtpiServoCfg 0 0
  if p f then some f else if p (1 - f) then some (1 - f) else none

/-- The selected source may still be followed: it qualifies, or its filter restarted at a level within SWITCH_MAX (R286). -/
def sourceSound (d : Dev) (x : Nat) : Bool := isQualified d x || (d.servo.kept && isSlave d x && !(stepping d x))

/-- A refused candidate is still there (R286): its instance measures and its plane does not step. -/
def candidate (d : Dev) : Option Nat := d.servo.refused.filter fun x => isSlave d x && !(stepping d x)

/-- The selected source has stopped qualifying (R286). `at` is the plane whose Sync is at hand, if one is. -/
def sourceLost (d : Dev) (at' : Option Nat) : Dev :=
  let s := servoSel d
  let o := 1 - s
  if stepping d s && isSlave d s && classOk d s then enterHoldover d 2 none
  else if isQualified d o && offWithin d o then (if at' = some o then followSource d o else d)
  else if isQualified d o then enterHoldover d 3 (some o)
  else enterHoldover d 1 none

/-- In HOLDOVER a source is barredSource while the servo waits for the plane that stepped, for as long as that one is otherwise sound. -/
def barredSource (d : Dev) (x : Nat) : Bool :=
  decide (liveF d offPtpiServoStatus 7 6 = 2 ∧ x ≠ servoSel d) && isSlave d (servoSel d) && classOk d (servoSel d)

/-- The candidate that is refused is gone, or the plane that stepped is no longer sound: there is no source. -/
def causeCheck (d : Dev) : Dev :=
  let cause := liveF d offPtpiServoStatus 7 6
  let s := servoSel d
  if cause = 3 ∧ (candidate d).isNone = true then setServo { d with servo := { d.servo with refused := none } } 4 1
  else if cause = 2 ∧ (isSlave d s && classOk d s) = false then setServo d 4 1
  else d

/-- HOLDOVER looks for a source to follow (R286, R321): the one whose plane stepped is followed again whatever its offset. -/
def holdoverTry (d : Dev) : Dev :=
  if liveF d offPtpiServoStatus 7 6 = 2 ∧ isQualified d (servoSel d) = true then followSource d (servoSel d)
  else match preferred d fun x => isQualified d x && offWithin d x && !(barredSource d x) with
  | some x => followSource d x
  | none =>
    match preferred d fun x => isQualified d x && !(barredSource d x) with
    | some x =>
      if liveF d offPtpiServoStatus 7 6 = 3 ∧ (candidate d).isSome = true then d
      else liveSetB (setServo { d with servo := { d.servo with refused := some x } } 4 3) offPtpiServoStatus 8 true
    | none => causeCheck d

/-- The servo steps the media time by -o (R282): the measurements in hand move with it. -/
def stepMedia (d : Dev) (o : Int) : Dev :=
  let mv := fun (p : PtpInst) =>
    { p with off := p.off.map fun v => v - o, sync := p.sync.map fun s => (s.1, s.2.1 - o, s.2.2),
             ms := p.ms.map fun m => (m.1 - o, m.2), t3 := p.t3.map fun t => (t.1 - o, t.2) }
  { d with ptpi := mv d.ptpi, ptpo := mv d.ptpo, servo := { d.servo with base := d.servo.base - o } }

/-- One Sync of the selected source in ACQUIRING (R282). -/
def acquire (d : Dev) (x : Nat) (now : Int) : Dev :=
  let o := offOf d x
  let d := if o.natAbs > 16000000 then stepMedia d o else d
  let near := decide (o.natAbs ≤ 16000)
  let run := if near then d.servo.run + 1 else 0
  let d := servoUpdate (setResidual { d with servo := { d.servo with run := run } } (offOf d x)) now (offOf d x)
  if run ≥ actF d (offPtpQual x) 15 8 then
    setServo { d with servo := { d.servo with lockedAt := some now, left := true } } 2 0
  else d

/-- One Sync of the selected source while it is followed. -/
def followSync (d : Dev) (s : Nat) (now : Int) : Dev :=
  if servoState d = 1 then acquire d s now else tracking (servoUpdate d now (offOf d s)) (offOf d s)

/-- The servo's rules at a Sync that instance x received at a count (R286); `jumped` says that its filter restarted there. -/
def servoSync (d : Dev) (x : Nat) (now : Int) (jumped : Bool) : Dev :=
  let s := servoSel d
  match servoState d with
  | 0 =>
    match preferred d (isQualified d) with
    | none => d
    | some p =>
      let d := liveSetF d offPtpiServoStatus 4 4 p
      setServo { d with servo := { d.servo with chosen := true, run := 0, updated := none, synced := none } } 1 0
  | 4 => holdoverTry d
  | 5 => d
  | _ =>
    if jumped && decide (x = s) then
      if offWithin d s then
        followSync { d with servo := { d.servo with kept := true, run := 0, rem := offOf d s * remUnit } } s now
      else enterHoldover d 3 (some s)
    else if sourceSound d s then
      if x = s then
        followSync (if isQualified d s then { d with servo := { d.servo with kept := false } } else d) s now
      else d
    else sourceLost d (some x)

/-- The servo's rules where a source can fail without a Sync: a Sync timeout, a step, an instance that stops (R280, R286, R288). -/
def servoCheck (d : Dev) : Dev :=
  let st := servoState d
  if 1 ≤ st ∧ st ≤ 3 ∧ sourceSound d (servoSel d) = false then sourceLost d none
  else if st = 4 then causeCheck d
  else d

/-! ### Measurements (R279) -/

/-- The filtered path delay of an instance. -/
def pathDelay (p : PtpInst) : Option Int :=
  if p.mpds.isEmpty then none
  else some (clampI (p.mpds.foldl min (p.mpds.headD 0)) (p.mpds.foldl max (p.mpds.headD 0)) (Config.ptpDelay p.mpds))

/-- A measured offset (R279): an outlier is counted, and QUAL_SYNCS of them in a row restart the filter. The result says whether
it restarted. -/
def takeOffset (d : Dev) (x : Nat) (o : Int) : Dev × Bool :=
  let p := ptp d x
  match p.off with
  | none => (setPtp d x { p with off := some o, outliers := 0 }, false)
  | some f =>
    if (o - f).natAbs > 160000 then
      let d := bump d (offPtpCnt x 5)
      if p.outliers + 1 ≥ actF d (offPtpQual x) 15 8 then
        (liveSetB (setPtp d x { p with off := some o, outliers := 0, good := 0 }) (offPtpStatus x) 8 true, true)
      else (setPtp d x { p with outliers := p.outliers + 1 }, false)
    else
      let v := clampI (min f o) (max f o) (Config.ptpOffset f o)
      (setPtp d x { p with off := some v, outliers := 0 }, false)

/-- delay_asym, 1/16 ns. -/
def delayAsym (d : Dev) (x : Nat) : Int := sext 32 (actGet d (offPtpDelayAsym x)).toNat

/-- A Sync with its origin time t1 and correction c is measured, and the servo acts (R279, R286). -/
def measureSync (d : Dev) (x : Nat) (t2 t1 c : Int) : Dev :=
  let ms := t2 - t1 - c
  let p := ptp d x
  let d := setPtp d x { p with sync := none, ms := some (ms, ptpRow d x, false), fresh := true }
  let r := match pathDelay p with
    | none => (d, false)
    | some m => takeOffset d x (ms - m - delayAsym d x)
  let d := ptpReport r.1 x
  servoSync d x (t2 - d.servo.base) r.2

/-- A Delay_Resp completes an exchange (R277, R279): the stamps of one exchange are of one row. -/
def measureDelay (d : Dev) (x : Nat) (t4 c : Int) : Dev :=
  let p := ptp d x
  match p.ms, p.t3 with
  | some (ms, row, counted), some (t3, row3) =>
    if row ≠ row3 then setPtp d x { p with req := none, t3 := none }
    else
      let mpd := rne (ms + (t4 - t3 - c)) 2
      let p := { p with req := none, t3 := none, mpds := (mpd :: p.mpds).take 8, ms := some (ms, row, true)
                        good := if counted then p.good else p.good + 1 }
      let p := match p.off, pathDelay p with
        | none, some m => { p with off := some (ms - m - delayAsym d x) }
        | _, _ => p
      let d := setPtp d x p
      ptpReport (if portStateOf d x = 8 then setPortStateOf d x 9 else d) x
  | _, _ => setPtp d x { p with req := none, t3 := none }

/-! ### Messages -/

/-- Bytes of a PTP frame. -/
def ptpBytes (d : Dev) (x body : Nat) : Nat :=
  max 64 (14 + (if actB d (offPtpCtrl x) 5 then 4 else 0) + (if liveB d (offPtpCtrl x) 4 then 40 else 20) + 8 + body + 4)

/-- Sends a PTP message (R273). -/
def ptpSend (d : Dev) (x body : Nat) (m : PtpMsg) : Dev :=
  enqueueTx d x { prio := if actB d (offPtpCtrl x) 5 then actF d (offPtpQos x) 27 25 else 0, bytes := ptpBytes d x body,
                  body := .ptp m 0, head := {} }

/-- The port identity of an instance: the plane's MAC address as EUI-64, and port 1 (assumption log entry 209). -/
def portIdentity (d : Dev) (x : Nat) : Nat :=
  let m := ownMac d x
  ((m / 2 ^ 24 * 2 ^ 40 + 0xFFFE * 2 ^ 24 + m % 2 ^ 24) * 65536) + 1

/-- A message of the instance with a sequence number; its egress time is written as it passes the PCS (R278). -/
def ptpOwn (d : Dev) (x kind seq : Nat) (log : Int) : PtpMsg :=
  { kind := kind, version := 2, domain := liveF d (offPtpDomain x) 7 0, sdoId := liveF d (offPtpDomain x) 19 8, seq := seq,
    twoStep := false, corr := 0, time := 0, captured := 0, source := portIdentity d x, requesting := 0, foreign := false,
    logInterval := log, gmId := 0,
    priority1 := 0, clockClass := 0, clockAccuracy := 0, variance := 0, priority2 := 0, stepsRemoved := 0, utcOffset := 0 }

/-- An Announce (R271, R280). -/
def ptpAnnounce (x : Nat) (m : PtpMsg) (src : IpAddr) (d : Dev) : Dev :=
  let d := bump d (offPtpCnt x 4)
  let p := ptp d x
  let old := p.masters.find? fun r => r.source = m.source
  let heard := match old with
    | some r => min 2 (r.heard + 1)
    | none => 1
  let r : PtpMaster := ⟨m.source, m.gmId, m.priority1, m.clockClass, m.clockAccuracy, m.variance, m.priority2, m.stepsRemoved,
    m.utcOffset, heard, some src⟩
  let d := setPtp d x { p with masters := (p.masters.filter fun q => decide (q.source ≠ m.source)) ++ [r] }
  ptpReport (bmca d x) x

/-- A Sync (R279). -/
def ptpSync (x : Nat) (m : PtpMsg) (d : Dev) : Dev :=
  let d := bump d (offPtpCnt x 0)
  let p := ptp d x
  if p.parent = some m.source ∧ (portStateOf d x = 8 ∨ portStateOf d x = 9) then
    let t2 := rxTime d x m.captured
    if m.twoStep then ptpReport (setPtp d x { p with sync := some (m.seq, t2, m.corr), fresh := true }) x
    else measureSync d x t2 m.time m.corr
  else d

/-- A Follow_Up (R279). -/
def ptpFollowUp (x : Nat) (m : PtpMsg) (d : Dev) : Dev :=
  let d := bump d (offPtpCnt x 1)
  let p := ptp d x
  match p.sync with
  | none => d
  | some (s, t2, c) =>
    if p.parent = some m.source ∧ s = m.seq then measureSync d x t2 m.time (c + m.corr) else d

/-- A Delay_Resp (R272, R279). -/
def ptpDelayResp (x : Nat) (m : PtpMsg) (d : Dev) : Dev :=
  let d := bump d (offPtpCnt x 3)
  let p := ptp d x
  if m.requesting = portIdentity d x ∧ p.parent = some m.source ∧ p.req = some m.seq then
    measureDelay (setPtp d x { p with grant := m.logInterval }) x m.time m.corr
  else d

/-- A Delay_Req (R275): an instance in MASTER answers up to 512 a second. -/
def ptpDelayReq (x : Nat) (m : PtpMsg) (d : Dev) : Dev :=
  let p := ptp d x
  if portStateOf d x = 6 then
    if p.served ≥ 512 then bump d (offPtpCnt x 11)
    else
      let d := bump (setPtp d x { p with served := p.served + 1 }) (offPtpCnt x 10)
      let log := ((ptpIntervals d x).getD 2 (0, true)).1
      ptpSend d x 54 { ptpOwn d x 9 m.seq log with time := rxTime d x m.captured, corr := m.corr, requesting := m.source }
  else d

/-- A PTP message that the plane hands to its unit (R271, R274, R288). -/
def ptpReceive (x : Nat) (m : PtpMsg) (src : IpAddr) (d : Dev) : Dev :=
  if running d (ptpBlk x) && running d (netBlk x) then
    if m.foreign = true ∨ m.version ≠ 2 ∨ m.domain ≠ liveF d (offPtpDomain x) 7 0 ∨ m.sdoId ≠ liveF d (offPtpDomain x) 19 8 then
      bump d (offPtpCnt x 12)
    else
      match m.kind with
      | 0 => ptpSync x m d
      | 1 => ptpDelayReq x m d
      | 8 => ptpFollowUp x m d
      | 9 => ptpDelayResp x m d
      | 11 => ptpAnnounce x m src d
      | 2 | 3 | 10 => d
      | _ => bump d (offPtpCnt x 12)
  else d

/-- DELAY_REQ_TX (R278): a slave instance sends a Delay_Req. -/
def delayReqTx (x : Nat) (d : Dev) : Dev :=
  let p := ptp d x
  if running d (ptpBlk x) && decide (portStateOf d x = 8 ∨ portStateOf d x = 9) then
    let d := setPtp d x { p with req := some p.seqs.1, t3 := none, seqs := ((p.seqs.1 + 1) % 65536, p.seqs.2) }
    ptpSend (bump d (offPtpCnt x 2)) x 46 (ptpOwn d x 1 p.seqs.1 127)
  else d

/-- The two bytes after a PTP message that keep the UDP checksum as it was built, with a zero timestamp (R278). -/
def checksumFix (t : Int) : Nat :=
  let ns := (t / 16).toNat
  65535 - onesSum (byteWords (beBytes 6 (ns / 1000000000) ++ beBytes 4 (ns % 1000000000)))

/-- The unit writes the corrected egress time into the departing Sync or Delay_Req with a sequence number (R278). -/
def stampFrame (seq : Nat) (t : Int) (f : TxFrame) : TxFrame := match f.body with
  | .ptp m _ =>
    if m.kind ≤ 1 ∧ m.seq = seq then { f with body := .ptp { m with time := stampOf t } (checksumFix (stampOf t)) } else f
  | _ => f

/-- TX_TIMESTAMP_RETURN (R278): the egress time stands in the departing frame, and firmware takes t3 of the Delay_Req that is out from the
copy that returns. -/
def txStamp (x seq : Nat) (captured : Int) (d : Dev) : Dev :=
  let t := txTime d x captured
  let d := setPlane d x { plane d x with onWire := (plane d x).onWire.map (stampFrame seq t) }
  let p := ptp d x
  if p.req = some seq then setPtp d x { p with t3 := some (t, ptpRow d x) } else d

/-- SYNC_TX (R275): a one-step Sync of an instance in MASTER. -/
def syncTx (x : Nat) (d : Dev) : Dev :=
  let p := ptp d x
  if running d (ptpBlk x) && decide (portStateOf d x = 6) && mayMaster d x then
    let d := setPtp d x { p with seqs := (p.seqs.1, (p.seqs.2.1 + 1) % 65536, p.seqs.2.2) }
    ptpSend (bump d (offPtpCnt x 8)) x 46 (ptpOwn d x 0 p.seqs.2.1 ((ptpIntervals d x).getD 0 (0, true)).1)
  else d

/-- ANNOUNCE_TX (R275): an Announce of an instance in MASTER; one whose condition has failed leaves MASTER instead. -/
def announceTx (x : Nat) (d : Dev) : Dev :=
  let p := ptp d x
  if running d (ptpBlk x) && decide (portStateOf d x = 6) then
    match mayMaster d x, ownMaster d x with
    | true, some o =>
      let d := setPtp d x { p with seqs := (p.seqs.1, p.seqs.2.1, (p.seqs.2.2 + 1) % 65536) }
      ptpSend (bump d (offPtpCnt x 9)) x 64 { ptpOwn d x 11 p.seqs.2.2 ((ptpIntervals d x).getD 1 (0, true)).1 with
        gmId := o.gmId, priority1 := o.priority1, clockClass := o.clockClass, clockAccuracy := o.accuracy,
        variance := o.variance, priority2 := o.priority2, stepsRemoved := o.steps, utcOffset := o.utc }
    | _, _ => ptpReport (bmca d x) x
  else d

/-- SYNC_TIMEOUT (R280): no Sync within 3 intervals; the instance stops qualifying. -/
def syncTimeout (x : Nat) (d : Dev) : Dev :=
  if running d (ptpBlk x) && decide (portStateOf d x = 8 ∨ portStateOf d x = 9) then
    let d := setPtp (bump d (offPtpCnt x 6)) x { ptp d x with fresh := false, sync := none }
    servoCheck (ptpReport d x)
  else d

/-- ANNOUNCE_RECEIPT_TIMEOUT (R271): the parent is forgotten and the BMCA decides anew. -/
def announceTimeout (x : Nat) (d : Dev) : Dev :=
  if running d (ptpBlk x) then
    let p := ptp d x
    let d := setPtp d x { p with masters := p.masters.filter fun m => decide (p.parent ≠ some m.source), parent := none }
    ptpReport (bmca d x) x
  else d

/-- SERVO_REVERT (R286): PREFER has qualified long enough. -/
def servoRevert (d : Dev) : Dev :=
  let f := actF d offPtpiServoCfg 0 0
  let long := match (ptp d f).since with
    | none => false
    | some e => decide (e + 3000 * actF d offPtpiServoCfg 31 24 ≤ d.epc.epoch)
  if actB d offPtpiServoCfg 1 && decide (servoState d = 2 ∨ servoState d = 3) && decide (servoSel d ≠ f) && isQualified d f &&
      offWithin d f && long then followSource d f
  else d

/-- SERVO_ACCEPT (R286, R321): the refused candidate is followed, whatever its offset; while TIMEBASE reads FOLLOW a timebase reload
starts. -/
def servoAccept (d : Dev) : Dev :=
  if servoState d = 4 ∧ liveF d offPtpiServoStatus 7 6 = 3 then
    match candidate d with
    | some x => if timebase d = 2 then { d with servo := { d.servo with reload := true } } else followSource d x
    | none => d
  else d

/-- SERVO_DEGRADED_LOG (R285): once a second in SLEWING or HOLDOVER. -/
def servoDegraded (d : Dev) : Dev :=
  if fatal d = false ∧ (servoState d = 3 ∨ servoState d = 4) then
    let r := sext 64 ((liveGet d offPtpiServoResidHi).toNat * 2 ^ 32 + (liveGet d offPtpiServoResidLo).toNat)
    raiseErr d (srcOf blkPtpi 0) 0x0305 (liveGet d offPtpiServoStatus) (residNs r)
  else d

/-- A media port's link came up or its step ended: R277, R280. -/
def ptpLink (d : Dev) (x : Nat) : Dev := ptpReport (setPtp d x (requalify (ptp d x))) x

/-- An instance at an epoch start (R272, R273, R288): it starts or stops with its enable. -/
def ptpEpoch (d : Dev) (x : Nat) : Dev :=
  let run := running d (ptpBlk x)
  let p := ptp d x
  let bad := run && (ptpIntervals d x).any (fun v => !v.2) &&
    (!p.ran || (committedNow d && decide (before d (offPtpIntervals x) ≠ actGet d (offPtpIntervals x))))
  let d := if bad then raiseErr d (srcOf (ptpBlk x) 0) 0x0108 (actGet d (offPtpIntervals x)) 0 else d
  let p := if d.epc.epoch % 3000 = 0 then { p with served := 0 } else p
  let d := setPtp d x { p with ran := run }
  let join := fun (d : Dev) (b : Bool) => sendMembership b x d (ptpGroup (liveB d (offPtpCtrl x) 4), none)
  if run && !p.ran then ptpReport (join (setPortStateOf (setPtp d x { seqs := p.seqs, ran := true }) x 4) true) x
  else if !run && p.ran then
    servoCheck (ptpReport (join (setPortStateOf (setPtp d x { seqs := p.seqs }) x 3) false) x)
  else ptpReport d x

/-- The residual in SERVO_RESID, 1/16 ns. -/
def residual (d : Dev) : Int :=
  sext 64 ((liveGet d offPtpiServoResidHi).toNat * 2 ^ 32 + (liveGet d offPtpiServoResidLo).toNat)

/-- One epoch of the servo in LOCKED or SLEWING: the word is recorded (R287), the profile moves on, and the residual shrinks by what it
removed (R284). -/
def servoTrack (d : Dev) (now : Int) : Dev :=
  let v := d.servo
  let d := { d with servo := { v with words := servoWord d :: v.words.take 47999 } }
  if v.rem = 0 ∧ v.prof = 0 then d
  else
    let d := profileStep d
    let d := moveWord d now (wantedWord d)
    tracking d (residual d + (d.servo.rem / remUnit - v.rem / remUnit))

/-- The servo at an epoch start: the profile of R284 goes on, HOLDOVER moves its word (R287), follow mode begins and ends with
CLK.TUNE_CFG.SOURCE (R290, R321); after a Fatal error it stands (R422). A servo that never left ACQUIRING is FREE after follow
mode, at nominal frequency. -/
def servoEpoch (d : Dev) : Dev :=
  if fatal d then d else
  let now := d.servo.epochAt / 3
  let d := match servoState d with
    | 2 | 3 => servoTrack d now
    | 4 => moveWord d now d.servo.target
    | _ => d
  let src := actB d offClkTuneCfg 3
  let was := d.servo.follow
  let d := { d with servo := { d.servo with follow := src } }
  if src && !was then
    setServo { d with servo := { d.servo with left := d.servo.left || decide (1 ≤ servoState d), refused := none, reload := false } } 5 0
  else if was && !src then
    let f := sext 32 (liveGet d offSapFollowFreq).toNat
    if timebase d = 0 ∧ d.servo.left = false then setServo (setWord d now 0) 0 0
    else
      setServo (setWord { d with servo := { d.servo with target := f, left := true, rem := 0, prof := 0, reload := false } } now f) 4 1
  else d

/-- DELAY_REQ_TX (R278). -/
def execDelayReqTx (inst : Nat) (s : State) : Host.Outcome State Fault Refusal := ranIf (decide (inst < 2)) s (delayReqTx inst)

/-- SYNC_TX (R275). -/
def execSyncTx (inst : Nat) (s : State) : Host.Outcome State Fault Refusal := ranIf (decide (inst < 2)) s (syncTx inst)

/-- ANNOUNCE_TX (R275). -/
def execAnnounceTx (inst : Nat) (s : State) : Host.Outcome State Fault Refusal := ranIf (decide (inst < 2)) s (announceTx inst)

/-- TX_TIMESTAMP_RETURN (R278). -/
def execTxTimestampReturn (inst seq : Nat) (captured : Int) (s : State) : Host.Outcome State Fault Refusal :=
  ranIf (decide (inst < 2)) s (txStamp inst seq captured)

/-- SYNC_TIMEOUT (R280). -/
def execSyncTimeout (inst : Nat) (s : State) : Host.Outcome State Fault Refusal := ranIf (decide (inst < 2)) s (syncTimeout inst)

/-- ANNOUNCE_RECEIPT_TIMEOUT (R271). -/
def execAnnounceReceiptTimeout (inst : Nat) (s : State) : Host.Outcome State Fault Refusal :=
  ranIf (decide (inst < 2)) s (announceTimeout inst)

/-- SERVO_REVERT (R286). -/
def execServoRevert (s : State) : Host.Outcome State Fault Refusal := ran s servoRevert

/-- SERVO_ACCEPT (R286). -/
def execServoAccept (s : State) : Host.Outcome State Fault Refusal := ran s servoAccept

/-- SERVO_DEGRADED_LOG (R285). -/
def execServoDegradedLog (s : State) : Host.Outcome State Fault Refusal := ran s servoDegraded

/-- SPEED_STEP_START (R249, R250, R280). -/
def execSpeedStepStart (pl : Nat) (s : State) : Host.Outcome State Fault Refusal :=
  ranIf (decide (pl < 2)) s fun d => if stepMayStart d pl then ptpReport (stepStart pl d) pl else d

/-- STEP_EPOCH (R250, R286). -/
def execStepEpoch (pl : Nat) (s : State) : Host.Outcome State Fault Refusal :=
  ranIf (decide (pl < 2)) s fun d => if stepDue d pl then servoCheck (ptpReport (stepEpoch pl d) pl) else d

/-- The management port's link (R263, R267). -/
def mgtLink (up : Bool) (d : Dev) : Dev :=
  if liveB d offMgtStatus 0 = up ∨ (up = true ∧ running d blkMgt = false) then d
  else raiseErr (liveSetB d offMgtStatus 0 up) (srcOf blkMgt 0) (if up then 0x0303 else 0x0302) (if up then 1 else 0) 0

/-- STEP_TIMEOUT (R250, R280): the step has ended. -/
def execStepTimeout (pl : Nat) (s : State) : Host.Outcome State Fault Refusal :=
  ranIf (decide (pl < 2)) s fun d =>
    if (plane d pl).step ≠ (plane (stepTimeout pl d) pl).step then ptpLink (stepTimeout pl d) pl else d

/-- LINK_UP (R250, R263, R277, R280): port 2 is the management port, which has one speed. -/
def execLinkUp (port speed : Nat) (s : State) : Host.Outcome State Fault Refusal :=
  ranIf (decide (port < 3)) s fun d =>
    if port = 2 then mgtLink true d else if mayLink d port speed then ptpLink (netLinkUp port speed d) port else d

/-- LINK_DOWN (R263). -/
def execLinkDown (port : Nat) (s : State) : Host.Outcome State Fault Refusal :=
  ranIf (decide (port < 3)) s fun d => if port = 2 then mgtLink false d
    else if liveB d (offNetStatus port) 0 then ptpReport (netLinkDown port d) port else d

end Sys2Proof.Machine
end

