-- ==== Sys2Proof/Machine/Gain.lean ====
section
/-!
DEFINITION. Sys2Proof/Machine/Gain.lean: gains that step at zero crossings (R53 to R55), shared by input and output trims, side-tone
paths, serial slots and the feeds muted by R344.
-/
namespace Sys2Proof.Machine

/-- Gain 1.0 in UQ4.20. -/
def gainOne : Int := 2 ^ 20

/-- Where the gain of a signal is kept. -/
def gainKey : GainCh → Nat
  | .input n => n
  | .output n => 2048 + n
  | .side p => 4096 + p
  | .portRx p s => 8192 + 32 * p + s
  | .portTx p s => 16384 + 32 * p + s
  | .rcFeed f => 32768 + f

/-- The gain before anything has set one: input trims and feeds at 1.0, everything that resets muted or off at 0. -/
def gainDefault (k : Nat) : GainCell := ⟨if k < 2048 ∨ 32768 ≤ k then gainOne else 0, none, 0, none, 0⟩

/-- A gain cell. -/
def getGain (d : Dev) (c : GainCh) : GainCell := mapGet gainDefault d.gains (gainKey c)

/-- Sets a gain cell. -/
def setGain (d : Dev) (c : GainCh) (g : GainCell) : Dev := { d with gains := mapSet gainDefault d.gains (gainKey c) g }

/-- The gain the cell is heading for. -/
def gainGoal (g : GainCell) : Int :=
  match g.want, g.ramp with
  | some w, _ => w
  | none, some (_, t, _) => t
  | none, none => g.cur

/-- A gain is at zero and rests there. -/
def atZero (g : GainCell) : Bool := decide (g.cur = 0 ∧ g.want = none ∧ g.ramp = none)

/-- A newer effective gain becomes active (R54, R55): it replaces one that waits, whose search goes on counting, be it the gain in force
itself. During a timeout ramp it waits for the ramp's end. -/
def gainRequest (w : Int) (g : GainCell) : GainCell :=
  if gainGoal g = w then g
  else if g.ramp.isNone && g.want.isSome then { g with want := some w }
  else { g with want := some w, count := 0 }

/-- Whether sample x after sample p is a zero crossing (R54). -/
def crossing (p x : Int) : Bool := x = 0 || decide (0 < p ∧ x < 0) || decide (p < 0 ∧ 0 < x)

/-- Ramp sample j of a timeout ramp of l samples (R54). -/
def rampGain (a b : Int) (l j : Nat) : Int := rne (a * (l : Int) + (b - a) * ((j + 1 : Nat) : Int)) l

/-- A timeout ramp gives its next sample. -/
def rampStep (l : Nat) (x a b : Int) (j : Nat) (g : GainCell) : GainCell × Int :=
  if j + 1 < l then ({ g with ramp := some (a, b, j + 1), prev := x }, rampGain a b l j)
  else ({ g with cur := b, ramp := none, prev := x }, b)

/-- The gain of sample x (R54): timeout after t samples, ramps of l samples; also whether a ramp started. -/
def gainStep (t l : Nat) (x : Int) (g : GainCell) : GainCell × Int × Bool :=
  match g.ramp with
  | some (a, b, j) =>
    let r := rampStep l x a b j g
    (r.1, r.2, false)
  | none =>
    match g.want with
    | none => ({ g with prev := x }, g.cur, false)
    | some w =>
      if g.count < t then
        if crossing g.prev x then ({ g with cur := w, want := none, count := 0, prev := x }, w, false)
        else ({ g with count := g.count + 1, prev := x }, g.cur, false)
      else
        let r := rampStep l x g.cur w 0 { g with want := none, count := 0 }
        (r.1, r.2, true)

/-- The register whose PENDING and TIMED_OUT bits report a gain: the trim registers, or a port's status. -/
def gainReg (c : GainCh) : Option (Nat × Option Nat × Nat) :=
  match c with
  | .input n => some (offGraphItrim n, some 24, 25)
  | .output n => some (offGraphOtrim n, some 24, 25)
  | .portRx p _ | .portTx p _ => some (offSapPortStatus p, none, 28)
  | .side _ | .rcFeed _ => none

/-- Sets a gain cell and reports it (R54). -/
def putGain (d : Dev) (c : GainCh) (g : GainCell) (timedOut : Bool) : Dev :=
  let d := setGain d c g
  match gainReg c with
  | none => d
  | some (off, pend, tout) =>
    let d := match pend with
      | some b => liveSetB d off b g.want.isSome
      | none => d
    if timedOut then liveSetB d off tout true else d

/-- A request for a gain, reported. -/
def askGain (d : Dev) (c : GainCh) (w : Int) : Dev := putGain d c (gainRequest w (getGain d c)) false

/-- ZERO_CROSSING (R54): sample x of a signal whose gain change waits. If it is a zero crossing the new gain takes over. -/
def zeroCrossing (c : GainCh) (x : Int) (d : Dev) : Dev :=
  let g := getGain d c
  match g.ramp, g.want with
  | none, some w => if crossing g.prev x then putGain d c { g with cur := w, want := none, count := 0, prev := x } false
    else setGain d c { g with prev := x }
  | _, _ => setGain d c { g with prev := x }

/-- ZC_TIMEOUT (R54): the search of a waiting change ends, its ramp starts and TIMED_OUT is set. -/
def zcTimeout (c : GainCh) (d : Dev) : Dev :=
  let g := getGain d c
  match g.ramp, g.want with
  | none, some w => putGain d c { g with want := none, count := 0, ramp := some (g.cur, w, 0) } true
  | _, _ => d

/-- A signal that exists. -/
def gainChOk : GainCh → Bool
  | .input n => decide (n < 1536)
  | .output n => decide (n < 1536)
  | .side p => decide (p < 32)
  | .portRx p s => decide (p < 32 ∧ s < 32)
  | .portTx p s => decide (p < 32 ∧ s < 32)
  | .rcFeed f => decide (f < 512)

/-- The timeout of R54 in samples at the render rate. -/
def zcTimeoutSamples (d : Dev) : Nat := actF d offGraphZc 7 0 * (blockN d * 3)

/-- The timeout of R54 in samples for block b. -/
def zcTimeoutAt (d : Dev) (b : Nat) : Nat := actAtF d b offGraphZc 7 0 * (blockN d * 3)

/-- Applies a stepping gain to a block: the products less f fraction bits, saturated to w bits, whether one saturated and whether a
ramp started (R54, R57). -/
def gainBlock (w f t l : Nat) (xs : List Int) (g : GainCell) : GainCell × List Int × Bool × Bool :=
  let r := xs.foldl (fun (a : GainCell × List Int × Bool × Bool) x =>
    let s := gainStep t l x a.1
    let y := rshr (x * s.2.1) f
    (s.1, satS w y :: a.2.1, a.2.2.1 || overS w y, a.2.2.2 || s.2.2)) (g, [], false, false)
  (r.1, r.2.1.reverse, r.2.2.1, r.2.2.2)

/-- A twin that follows its peer keeps what comes to its gains (R363): the gain asked for and the samples of each epoch. -/
def noteGain (d : Dev) (c : GainCh) (xs : List Int) : Dev :=
  if d.twn.joinK.isNone then d
  else
    let k := gainKey c
    let e := d.epc.epoch
    let same := fun (h : GainHeard) => decide (h.key = k ∧ h.epoch = e)
    let old := match d.twn.heard.find? same with
      | some h => h.xs
      | none => []
    let rest := d.twn.heard.filter fun h => !(same h) && decide (e ≤ h.epoch + 3)
    { d with twn := { d.twn with heard := ⟨k, e, gainGoal (getGain d c), xs.reverse ++ old⟩ :: rest } }

/-- ZERO_CROSSING (R54). -/
def execZeroCrossing (ch : GainCh) (x : Int) (s : State) : Host.Outcome State Fault Refusal :=
  ranIf (gainChOk ch) s (zeroCrossing ch x)

/-- ZC_TIMEOUT (R54). -/
def execZcTimeout (ch : GainCh) (s : State) : Host.Outcome State Fault Refusal := ranIf (gainChOk ch) s (zcTimeout ch)

end Sys2Proof.Machine
end

