-- ==== Sys2Proof/Machine/Sap.lean ====
section
/-!
DEFINITION. Sys2Proof/Machine/Sap.lean: chapter 14, the serial ports, and the side-tone paths of chapter 03. Phases are in units of
1/256 frame. The follow loop stands in Follow.lean.
-/
namespace Sys2Proof.Machine

/-- A port. -/
def getPort (d : Dev) (p : Nat) : SapPort := mapGet (fun _ => {}) d.sap.ports p

/-- Sets a port. -/
def setPort (d : Dev) (p : Nat) (x : SapPort) : Dev :=
  { d with sap := { d.sap with ports := mapSet (fun _ => {}) d.sap.ports p x } }

/-- Multiple of 48 kHz of a port's rate. -/
def portMult (d : Dev) (p : Nat) : Nat := 2 ^ min 2 (liveF d (offSapPortCfg p) 27 26)

/-- Slots of a port (Table 14-1). -/
def portSlots (d : Dev) (p : Nat) : Nat :=
  if liveF d (offSapPortCfg p) 29 28 = 2 then liveF d (offSapPortCfg p) 20 16 + 1 else 2

/-- Bits of a slot. -/
def portWidth (d : Dev) (p : Nat) : Nat := 16 + 8 * min 2 (liveF d (offSapPortCfg p) 25 24)

/-- A master port. -/
def portMaster (d : Dev) (p : Nat) : Bool := liveB d (offSapPortCfg p) 30

/-- STATE of a port: 0 not running, 1 stopping, 2 aligning, 3 locked, 4 slipped. -/
def portState (d : Dev) (p : Nat) : Nat := liveF d (offSapPortStatus p) 2 0

/-- Sets STATE. -/
def setPortState (d : Dev) (p v : Nat) : Dev := liveSetF d (offSapPortStatus p) 2 0 v

/-- A slot is enabled in the mask word that governs epoch e (R316). -/
def slotOn (d : Dev) (e off slots s : Nat) : Bool := decide (s < slots) && aheadB d e off s

/-- Set mask bits below the slot count (R309). -/
def maskCount (slots : Nat) (w : Word) : Nat := ((List.range slots).filter fun s => bit w s).length

/-- The gain of a port's transmit slots in epoch e (R317). -/
def txGoal (d : Dev) (p e : Nat) : Int := if aheadB d e (offSapPortCfg p) 31 && !(aheadB d e (offSapPortZc p) 8) then gainOne else 0

/-- The gain of a port's receive slots in epoch e (R317). -/
def rxGoal (d : Dev) (p e : Nat) : Int := if aheadB d e (offSapPortCfg p) 31 then gainOne else 0

/-- The cause that keeps a port from running (R309): 1 slots, 2 bit clock, 3 slot total; `sum` is the mask bits of the running
ports below it. -/
def portCause (d : Dev) (p sumIn sumOut : Nat) : Option Nat :=
  let m := portMult d p
  let slots := portSlots d p
  let clk := slots * portWidth d p * m * 48000
  let v33 := liveB d offSapStatus (p / 16)
  if slots > 32 / m then some 1
  else if clk > (if v33 then 24576000 else 49152000) then some 2
  else if sumIn + maskCount slots (actGet d (offSapMaskIn p)) > 512 ∨ sumOut + maskCount slots (actGet d (offSapMaskOut p)) > 512 then
    some 3
  else none

/-- PORT_RATIO of a master port (R313). -/
def portRatio (d : Dev) (p : Nat) : Int :=
  rne (98304000 * 65536) (portSlots d p * portWidth d p * portMult d p * 48000)

/-- A port stops at once: its slots deliver silence and its balls are as after reset (R317, R323). -/
def portOff (d : Dev) (p : Nat) : Dev :=
  let d := setPort d p {}
  let d := (List.range 32).foldl (fun d s =>
    setGain (setGain d (.portRx p s) (gainDefault 8192)) (.portTx p s) (gainDefault 8192)) d
  let w := liveGet d (offSapPortStatus p)
  let d := liveSet d (offSapPortStatus p) (setBits (setBits (setBits w 2 0 0) 25 16 0) 30 29 0)
  liveSet d (offSapPortRatio p) 0

/-- Every slot of a port, each to restart its stream at its first frame. -/
def allRestart : List (Nat × Nat) := (List.range 32).map fun s => (s, 0)

/-- A port starts (R317). -/
def portStart (d : Dev) (p : Nat) : Dev :=
  let d := setPort d p { restarts := allRestart, mayAlign := true }
  let d := liveSet d (offSapPortRatio p) (if portMaster d p then wordOf (portRatio d p) else 0)
  setPortState d p 2

/-- A running port takes a committed change of EN (R317); those of MUTE and its masks are taken by the frames (R316). -/
def portChange (d : Dev) (p : Nat) : Dev :=
  if actB d (offSapPortCfg p) 31 then
    if portState d p = 1 then setPortState d p (if (getPort d p).frame.isSome then 3 else 2) else d
  else setPortState d p 1

/-- A change of the configuration checked by R309 becomes active in this epoch. -/
def portEdge (d : Dev) (p : Nat) : Bool :=
  (actB d (offSapPortCfg p) 31 && !(bit (before d (offSapPortCfg p)) 31)) || (before d (offSapMaskIn p) != actGet d (offSapMaskIn p)) ||
    (before d (offSapMaskOut p) != actGet d (offSapMaskOut p))

/-- One port at an epoch start: it starts, stops, changes or is turned away. The sums are the mask bits of the running ports
below it. -/
def portEpoch (anyEdge : Bool) (a : Dev × Nat × Nat) (p : Nat) : Dev × Nat × Nat :=
  let d := a.1
  let on := actB d (offSapPortCfg p) 31
  let st := portState d p
  let sapStart := !(bit (before d offSapCtrl) 0)
  let add := fun (d : Dev) =>
    (d, a.2.1 + maskCount (portSlots d p) (actGet d (offSapMaskIn p)), a.2.2 + maskCount (portSlots d p) (actGet d (offSapMaskOut p)))
  if on = false then
    let d := liveSetB d (offSapPortStatus p) 31 false
    if st = 0 then (d, a.2) else if st = 1 then add d else add (portChange d p)
  else if st = 0 ∧ liveB d (offSapPortStatus p) 31 = true ∧ portEdge d p = false ∧ sapStart = false then (d, a.2)
  else if st ≠ 0 ∧ anyEdge = false then add (portChange d p)
  else
    match portCause d p a.2.1 a.2.2 with
    | some c =>
      let d := liveSetB (portOff d p) (offSapPortStatus p) 31 true
      (raiseErr d (srcOf blkSap 0) 0x0109 (BitVec.ofNat 32 p) (BitVec.ofNat 32 c), a.2)
    | none =>
      let d := liveSetB d (offSapPortStatus p) 31 false
      add (if st = 0 then portStart d p else portChange d p)

/-! ### Side-tone paths -/

/-- Both ports of a path word run at one rate, aligned (R60, R312). -/
def pathAligned (d : Dev) (w : Word) : Bool :=
  let a := bits w 17 13
  let b := bits w 27 23
  decide (portState d a = 3 ∧ portState d b = 3 ∧ portMult d a = portMult d b) &&
    (if portMaster d a then portMaster d b
     else !(portMaster d b) && decide (liveF d (offSapPortCfg a) 4 0 = liveF d (offSapPortCfg b) 4 0))

/-- A path word runs: enabled, its conditions hold and GRAPH runs (R60, R63). -/
def pathRuns (d : Dev) (w : Word) : Bool := bit w 0 && pathAligned d w && running d blkGraph

/-- The word a path runs by. -/
def pathWord (d : Dev) (q : Nat) : Word := mapGet (fun _ => 0) d.sap.paths q

/-- A path takes the values that govern epoch e (R62): a new gain steps; a change of the path itself starts the new path at gain zero
while the old one fades out, unless it does not run and there is nothing to fade. -/
def pathChange (e : Nat) (d : Dev) (q : Nat) : Dev :=
  let w := actAhead d e (offGraphStCfg q)
  let o := pathWord d q
  let goal := if outputsMuted d then 0 else dbGain (bits (actAhead d e (offGraphStGain q)) 15 0)
  if w = o then askGain d (.side q) goal
  else
    let g := gainRequest 0 (getGain d (.side q))
    let d := { d with sap := { d.sap with
      paths := mapSet (fun _ => 0) d.sap.paths q w,
      fading := if bit o 0 && running d blkSap && !(atZero g) then d.sap.fading ++ [(q, o, g)] else d.sap.fading } }
    askGain (setGain d (.side q) (gainDefault 4096)) (.side q) goal

/-- The paths into a port take the values of the epoch e of its next frame, which may begin before that epoch does (R62, R311). -/
def pathsAhead (p e : Nat) (d : Dev) : Dev :=
  (List.range 32).foldl (fun d q =>
    if bits (pathWord d q) 27 23 = p ∨ bits (actAhead d e (offGraphStCfg q)) 27 23 = p then pathChange e d q else d) d

/-- ST_STATUS of a path. -/
def pathReport (d : Dev) (q : Nat) : Dev :=
  let w := pathWord d q
  let st := portState d (bits w 17 13)
  let v := (if pathRuns d w then 1 else 0) + (if bit w 0 && !(pathAligned d w) then 2 else 0) +
    (if bit w 0 && decide (st = 0 ∨ st = 4) then 4 else 0)
  liveSet d (offGraphStStatus q) (BitVec.ofNat 32 v)

/-- ST_STATUS of every path. -/
def pathReports (d : Dev) : Dev := (List.range 32).foldl pathReport d

/-- The sample a path reads for frame f of its destination: its source slot in frame f - 2 (R60). -/
def pathSource (d : Dev) (w : Word) (f : Nat) : Int :=
  match (getPort d (bits w 17 13)).rx.find? fun r => r.1 + 2 = f with
  | some r => sampleAt r.2 (bits w 12 8)
  | none => 0

/-- The terms of one path in a frame of destination slot s of port p, each with whether its path replaces: those of its former words
that fade out, then that of its word; their gains step (R62). -/
def pathTerms (d : Dev) (t l p s f q : Nat) : Dev × List (Bool × Int) :=
  let hit := fun (w : Word) => decide (bits w 27 23 = p ∧ bits w 22 18 = s) && pathRuns d w
  let olds := d.sap.fading.foldl (fun (b : List (Nat × Word × GainCell) × List (Bool × Int)) e =>
    if e.1 = q ∧ hit e.2.1 = true then
      let x := pathSource d e.2.1 f
      let r := gainStep t l x e.2.2
      (if atZero r.1 then b.1 else b.1 ++ [(e.1, e.2.1, r.1)], b.2 ++ [(bit e.2.1 1, r.2.1 * x)])
    else (b.1 ++ [e], b.2)) ([], [])
  let d := { d with sap := { d.sap with fading := olds.1 } }
  let w := pathWord d q
  if hit w then
    let x := pathSource d w f
    let r := gainStep t l x (getGain d (.side q))
    (noteGain (setGain d (.side q) r.1) (.side q) [x], olds.2 ++ [(bit w 1, r.2.1 * x)])
  else (d, olds.2)

/-- The terms of a path, in units of 2^-43, join a destination slot's sum, or take its place where one of them replaces (R61, R62). -/
def pathSum (terms : List (Bool × Int)) (sum : Int) : Int :=
  (terms.map (·.2)).foldl (· + ·) (if terms.any (·.1) then 0 else sum)

/-- The paths of one destination slot in frame f (R61): their gains step, with the timeout of R54 in frames of the port (R62), and
their terms join the rendered value `sum`. -/
def slotPaths (d : Dev) (l p s f : Nat) (sum : Int) : Dev × Int :=
  let t := if outputsMuted d then 480 * portMult d p else actF d offGraphZc 7 0 * 48 * portMult d p
  (List.range 32).foldl (fun (a : Dev × Int) q =>
    let r := pathTerms a.1 t l p s f q
    (r.1, pathSum r.2 a.2)) (d, sum)

/-! ### Frames -/

/-- The serial output bound to a slot among the bindings of an epoch: the lowest valid one (R52). A binding that is not valid is kept
for the CURVE of its channel. -/
def boundTo (l : List (Nat × Word)) (p s : Nat) : Option (Nat × Word) :=
  l.find? fun b => bit b.2 15 && decide (bits b.2 9 5 = p ∧ bits b.2 4 0 = s)

/-- The CURVE of a channel among the bindings of an epoch. -/
def curveOf (l : List (Nat × Word)) (m : Nat) : Bool := l.any fun b => decide (b.1 = m) && bit b.2 16

/-- The bindings of the blocks presented in epoch c. -/
def bindsOf (d : Dev) (c : Nat) : List (Nat × Word) :=
  match d.path.binds.find? fun b => b.1 = c with
  | some b => b.2
  | none => []

/-- The rendered value of a slot at presentation index i of its port's rate (R47, R52, R311). A slot that gains a binding fades in with
the CURVE of its channel, and one that loses its binding fades out with that of the channel it had. -/
def slotRendered (d : Dev) (p s i : Nat) : Int :=
  let n := blockN d
  if portMult d p * 16 ≠ n then 0
  else
    let c := i / n
    let k := i % n
    let now := bindsOf d c
    let new := boundTo now p s
    let old := boundTo (bindsOf d (c - 1)) p s
    let val := fun (b : Option (Nat × Word)) => match b with
      | some x => shownSample d (1024 + x.1) i
      | none => 0
    if new.map (·.1) = old.map (·.1) then val new
    else
      let curve := match new, old with
        | some x, _ => bit x.2 16
        | none, some x => curveOf now x.1
        | none, none => false
      fitWord 24 (rshr (fadeOld curve n k * val old + fadeNew curve n k * val new) 23)

/-- A ball as a port samples it in a bit clock (R308): DIN is bits 0 and 1 of the word of the bit clock, FS bits 2 and 3, each at the rising
and at the falling edge of BCLK. The rising edge samples, or with BCLK_INV the falling one. -/
def sampled (d : Dev) (p : Nat) (fs : Bool) (w : Word) : Bool :=
  bit w ((if fs then 2 else 0) + (liveB d (offSapPortCfg p) 10).toNat)

/-- FS is seen in its frame-start state (R308, Table 14-1): low for I2S, high for the other formats, inverted with FS_INV. A frame of
which no bit clock is given starts. -/
def fsStarts (d : Dev) (p : Nat) (din : List Word) : Bool := match din with
  | [] => true
  | w :: _ => (sampled d p true w != liveB d (offSapPortCfg p) 9) == decide (liveF d (offSapPortCfg p) 29 28 ≠ 0)

/-- The first data bit comes one bit clock after the start of the frame (Table 14-1). -/
def dataDelay (d : Dev) (p : Nat) : Bool := match liveF d (offSapPortCfg p) 29 28 with
  | 0 => true
  | 1 => false
  | _ => liveB d (offSapPortCfg p) 11

/-- The word of slot s of a frame, its MSB first, from the bit clocks of the frame: the first data bit is in the first, or one later
(R308, Table 14-1). -/
def slotBits (d : Dev) (p : Nat) (din : List Word) (s : Nat) : Word :=
  let w := portWidth d p
  let from' := s * w + (dataDelay d p).toNat
  BitVec.ofNat 32 ((List.range w).foldl (fun v j => 2 * v + (sampled d p false (din.getD (from' + j) 0)).toNat) 0)

/-- Input word of a slot as Q1.23 (R67). -/
def slotIn (width : Nat) (w : Word) : Int :=
  if width = 16 then sext 16 w.toNat * 256
  else if width = 24 then sext 24 w.toNat
  else satS 24 (rshr (sext 32 w.toNat) 8)

/-- Output word of a slot (R310). -/
def slotOut (width : Nat) (x : Int) : Word :=
  if width = 16 then BitVec.ofNat 32 (code 16 (satS 16 (rshr x 8)))
  else if width = 24 then BitVec.ofNat 32 (code 24 x)
  else BitVec.ofNat 32 (code 24 x * 256)

/-- A slot that is enabled in a frame and was not in the frame before it: `was` is the mask of that frame, none after a start. -/
def slotNew (was : Option Word) (on : Bool) (s : Nat) : Bool := match was with
  | none => false
  | some w => on && !(bit w s)

/-- Receives frame f of port p from its bit clocks: enabled slots take their words through their gains (R310, R317). A slot that a mask
newly enables starts to deliver, which is a stream restart (R465). -/
def rxFrame (d : Dev) (t l p f e : Nat) (din : List Word) : Dev :=
  let slots := portSlots d p
  let was := (getPort d p).masks.map (·.1)
  let on := fun (d : Dev) s => slotOn d e (offSapMaskIn p) slots s
  let r := (List.range slots).foldl (fun (a : Dev × List Int) s =>
    if on a.1 s then
      let x := slotIn (portWidth a.1 p) (slotBits a.1 p din s)
      let goal := rxGoal a.1 p e
      let c := getGain a.1 (.portRx p s)
      let g := gainStep t l x (gainRequest goal (if slotNew was true s then { gainDefault 8192 with cur := goal } else c))
      (noteGain (putGain a.1 (.portRx p s) g.1 g.2.2) (.portRx p s) [x], satS 24 (rshr (x * g.2.1) 20) :: a.2)
    else (a.1, 0 :: a.2)) (d, [])
  let q := getPort r.1 p
  let fresh := (List.range slots).filter fun s => slotNew was (on d s) s
  setPort r.1 p { q with rx := (f, r.2.reverse) :: q.rx.take 7,
                         restarts := fresh.foldl (fun l s => mapIns (mapDel l s) s f) q.restarts }

/-- A saturated side-tone sum is counted once for the slot and epoch e (R57). -/
def sideClip (d : Dev) (p s f e : Nat) : Dev :=
  let q := getPort d p
  let had := if q.clipEpoch = e then q.clipped else []
  if had.contains s then d
  else
    let d := bumpSat (setPort d p { q with clipped := setIns had s, clipEpoch := e }) offGraphClipCount 31 0
    match boundTo (bindsOf d ((f - 1) / blockN d)) p s with
    | some b => liveSetB d (offGraphOtrim (1024 + b.1)) 26 true
    | none => d

/-- FS at bit clock c of a frame (Table 14-1). -/
def fsLevel (d : Dev) (p c : Nat) : Bool :=
  let w := portWidth d p
  let level := match liveF d (offSapPortCfg p) 29 28 with
    | 0 => !(decide (c < w))
    | 1 => decide (c < w)
    | _ => if liveB d (offSapPortCfg p) 12 then decide (c < w) else decide (c = 0)
  level != liveB d (offSapPortCfg p) 9

/-- The data bits of a frame, each slot with its MSB first (R308). -/
def dataBits (width : Nat) (dout : List (Option Word)) : List (Option Bool) :=
  dout.flatMap fun w => (List.range width).map fun j => w.map fun v => bit v (width - 1 - j)

/-- A port that drives its balls puts a frame on them (R308, R318): FS where it is a master, and DOUT. -/
def driveWire (d : Dev) (p : Nat) (dout : List (Option Word)) (q : SapPort) : SapPort :=
  let data := dataBits (portWidth d p) dout
  let shifted := if dataDelay d p then q.lastBit :: data.dropLast else data
  { q with dout := dout, wire := (shifted.zipIdx).map fun b => (if portMaster d p then some (fsLevel d p b.2) else none, b.1),
           lastBit := data.getLast?.join, rising := liveB d (offSapPortCfg p) 10 }

/-- Transmits frame f of port p (R61, R310, R316). A slot that a mask newly enables starts at gain zero. -/
def txFrame (d : Dev) (t l p f e : Nat) : Dev :=
  let d := pathsAhead p e d
  let slots := portSlots d p
  let tri := aheadB d e (offSapPortCfg p) 8
  let was := (getPort d p).masks.map (·.2)
  let r := (List.range slots).foldl (fun (a : Dev × List (Option Word)) s =>
    if slotOn a.1 e (offSapMaskOut p) slots s then
      let ren := if f = 0 then 0 else slotRendered a.1 p s (f - 1)
      let b := slotPaths a.1 l p s f (ren * 2 ^ 20)
      let y := rshr b.2 20
      let d := if overS 24 y then sideClip b.1 p s f e else b.1
      let c := getGain d (.portTx p s)
      let g := gainStep t l (satS 24 y) (gainRequest (txGoal d p e) (if slotNew was true s then gainDefault 8192 else c))
      (noteGain (putGain d (.portTx p s) g.1 g.2.2) (.portTx p s) [satS 24 y],
        some (slotOut (portWidth d p) (satS 24 (rshr (satS 24 y * g.2.1) 20))) :: a.2)
    else (a.1, (if tri then none else some 0) :: a.2)) (d, [])
  let q := { getPort r.1 p with masks := some (actAhead r.1 e (offSapMaskIn p), actAhead r.1 e (offSapMaskOut p)) }
  setPort r.1 p (if drivesOut d then driveWire r.1 p r.2.reverse q
    else { q with dout := [], wire := [], lastBit := none })

/-- A slip of port p (R315): its slots carry zero, it is counted and source 8 + p is raised. `back` lets it realign when its
clock returns. -/
def portSlip (d : Dev) (p : Nat) (under back : Bool) : Dev :=
  let q := getPort d p
  let d := setPort d p { q with frame := none, restarts := allRestart, mayAlign := back, lastBit := q.lastBit.map fun _ => false,
                                dout := q.dout.map fun w => w.map fun _ => 0,
                                wire := q.wire.map fun b => (b.1, b.2.map fun _ => false) }
  let d := (List.range 32).foldl (fun d s => setGain d (.portTx p s) (gainDefault 8192)) d
  let d := bump d (if under then offSapUnderrunCount p else offSapOverrunCount p)
  let d := liveSetB (setPortState d p (if portState d p = 1 then 1 else 4)) offSapStatus 2 true
  let low := match d.sap.slipLow with
    | none => p
    | some x => min x p
  raiseOwn { d with sap := { d.sap with slips := d.sap.slips + 1, slipLow := some low } } (8 + p)

/-- A slave port samples the balls of a master port of this device that drives them, at the slave's rate (R314). -/
def onOwnMaster (d : Dev) (p : Nat) : Bool :=
  let c := liveF d (offSapPortCfg p) 4 0
  !(portMaster d p) && portMaster d c && decide (portState d c ≠ 0 ∧ portMult d c = portMult d p) && drivesOut d

/-- The phase of a frame by the frame it belongs to, and by how many frames that lies from the next one (R311, R314, R318): a port on a
clock of this device has phase 0; a master that does not own the outputs takes the nearest of its own nominal edges. -/
def framePhase (d : Dev) (p : Nat) (phase : Int) : Int × Int :=
  if (portMaster d p && drivesOut d) || onOwnMaster d p then (0, 0)
  else if portMaster d p then
    let ph := (phase + 128) % 256 - 128
    (ph, (ph - phase) / 256)
  else (phase, 0)

/-- PORT_STATUS.PHASE of a frame (R311). -/
def phaseReport (d : Dev) (p : Nat) (ph : Int) : Dev := liveSetF d (offSapPortStatus p) 25 16 (code 10 (clampI (-512) 511 ph))

/-- The frame whose nominal edge comes first at or after the present, shifted by a phase (R313, R314). -/
def firstFrame (d : Dev) (p : Nat) (phase : Int) : Nat :=
  (((nowPeriod d * portMult d p * 64 : Nat) + 64 + phase + 255) / 256).toNat

/-- Frame f of a port runs with phase `phase`. -/
def runFrame (p f : Nat) (phase : Int) (din : List Word) (d : Dev) : Dev :=
  let m := portMult d p
  let e := f / (16 * m)
  let t := actF d (offSapPortZc p) 7 0 * 48 * m
  let q := getPort d p
  let d := setPort d p { q with frame := some f, base := if q.frame.isNone then f else q.base, phaseSum := q.phaseSum + phase,
                                phaseCount := q.phaseCount + 1 }
  let w := liveGet d (offSapPortStatus p)
  let d := phaseReport (liveSet d (offSapPortStatus p) (setBit (setBit w 29 false) 30 (drivesOut d))) p phase
  txFrame (rxFrame d t (16 * m) p f e din) t (16 * m) p f e

/-- The port drives FS itself. -/
def ownFs (d : Dev) (p : Nat) : Bool := portMaster d p && drivesOut d

/-- SAP_FRAME (R308, R311 to R318): the next frame of a port that is locked, or the first of a starting master. `din` gives the bit
clocks of the frame as the port's balls show them; without FS in its frame-start state in the first of them no frame starts, unless
the port drives FS itself. -/
def sapFrame (p : Nat) (phase : Int) (din : List Word) (d : Dev) : Dev :=
  if running d blkSap && (ownFs d p || fsStarts d p din) then
    let st := portState d p
    let ph := framePhase d p phase
    match (getPort d p).frame with
    | none =>
      if st = 2 ∧ portMaster d p = true then
        if ph.1 < -64 then portSlip (phaseReport d p ph.1) p true false
        else runFrame p (firstFrame d p ph.1) ph.1 din (setPortState d p 3)
      else d
    | some f =>
      if st = 3 ∨ st = 1 then
        if ph.1 < -64 then portSlip (phaseReport d p ph.1) p true false
        else if ph.1 > 256 then portSlip (phaseReport d p ph.1) p false false
        else runFrame p ((f + 1 : Nat) + ph.2).toNat ph.1 din d
      else d
  else d

/-- SAP_NO_CLOCK (R314): no frame-start edge arrives. -/
def sapNoClock (p : Nat) (d : Dev) : Dev :=
  if running d blkSap && portState d p != 0 && !(portMaster d p && drivesOut d) then
    let d := liveSetB d (offSapPortStatus p) 29 true
    if (getPort d p).frame.isSome then portSlip d p true true
    else setPort d p { getPort d p with mayAlign := true }
  else d

/-- SAP_REALIGN (R314, R315): a starting slave port, or a slipped port after the next epoch start or the return of its clock,
aligns on a frame-start edge of the given phase. After a slip its frames move the output slots to their gain again. -/
def sapRealign (p : Nat) (phase : Int) (d : Dev) : Dev :=
  let st := portState d p
  let q := getPort d p
  let ph := (framePhase d p phase).1
  if running d blkSap && decide (st = 4 ∨ (st = 2 ∧ portMaster d p = false)) && q.mayAlign && decide (-64 ≤ ph ∧ ph < 192) then
    setPort (setPortState (liveSetB d (offSapPortStatus p) 29 false) p 3) p
      { q with frame := some (firstFrame d p ph - 1), base := firstFrame d p ph, mayAlign := false }
  else d

/-- SAP_PORT_STOPPED (R317): a stopping port whose slots have all reached zero gain, or that has no frames, stops. -/
def sapStopped (p : Nat) (d : Dev) : Dev :=
  let still := (getPort d p).frame.isNone || (List.range (portSlots d p)).all fun s =>
    (!(actB d (offSapMaskIn p) s) || atZero (getGain d (.portRx p s))) && (!(actB d (offSapMaskOut p) s) || atZero (getGain d (.portTx p s)))
  if decide (portState d p = 1) && still then portOff d p else d

/-- The restart of slot s of a port comes with the sample of frame f. -/
def restartDue (q : SapPort) (s f : Nat) : Bool :=
  q.frame.isSome && decide (q.base ≤ f) && q.restarts.any fun r => decide (r.1 = s ∧ r.2 ≤ f)

/-- The serial input slot in engine period `per` (R311): frame f arrives at boundary f + 1, and a frame that was not received, as
after a slip (R315), is zero. None where the port is not running or the slot not enabled; also whether the sample is the first of
a restart. -/
def serialInput (d : Dev) (p s per : Nat) : Option (Nat × Int × Bool) :=
  let m := portMult d p
  if portState d p = 0 ∨ running d blkSap = false ∨ slotOn d d.epc.epoch (offSapMaskIn p) (portSlots d p) s = false then none
  else
    let q := getPort d p
    let f := per / (4 / m)
    match q.rx.find? fun r => r.1 + 1 = f with
    | some r => some (m, sampleAt r.2 s, restartDue q s r.1 && per % (4 / m) == 0)
    | none => some (m, 0, false)

/-- The restarts of the ports that have come in engine period `per` have been seen by every selector that names the slot. -/
def serialTaken (d : Dev) (per : Nat) : Dev :=
  d.sap.ports.foldl (fun d p =>
    let m := portMult d p.1
    match p.2.rx.find? fun r => r.1 + 1 = per / (4 / m) with
    | some r =>
      if decide (per % (4 / m) = 0) && p.2.restarts.any (fun x => restartDue p.2 x.1 r.1) then
        setPort d p.1 { p.2 with restarts := p.2.restarts.filter fun x => !(restartDue p.2 x.1 r.1) }
      else d
    | none => d) d

/-! ### Epoch starts -/

/-- The serial ports at an epoch start: the entry of R315 for the epoch that ended, then the committed changes (R309, R316, R317,
R324). -/
def sapEpoch (d : Dev) : Dev :=
  let d := match d.sap.slipLow with
    | none => d
    | some p => raiseErr d (srcOf blkSap 0) 0x0307 (BitVec.ofNat 32 p) (BitVec.ofNat 32 d.sap.slips)
  let d := { d with sap := { d.sap with slips := 0, slipLow := none } }
  if running d blkSap then
    let edge := (List.range 32).any (portEdge d)
    let a := (List.range 32).foldl (portEpoch edge) (d, 0, 0)
    let d := liveSet a.1 offSapSlotsInUse (BitVec.ofNat 32 (a.2.2 * 65536 + a.2.1))
    { d with sap := { d.sap with ports := d.sap.ports.map fun p => (p.1, { p.2 with mayAlign := true }) } }
  else
    let d := (List.range 32).foldl (fun d p => if portState d p = 0 then d else portOff d p) d
    liveSet { d with sap := { d.sap with fading := [] } } offSapSlotsInUse 0

/-- The side-tone paths at an epoch start: their committed changes (R62) and status (R60). -/
def pathsEpoch (d : Dev) : Dev := pathReports ((List.range 32).foldl (pathChange d.epc.epoch) d)

/-- SAP_FRAME (R311). -/
def execSapFrame (port : Nat) (phase : Int) (din : List Word) (s : State) : Host.Outcome State Fault Refusal :=
  ranIf (decide (port < 32)) s (sapFrame port phase din)

/-- SAP_NO_CLOCK (R314). -/
def execSapNoClock (port : Nat) (s : State) : Host.Outcome State Fault Refusal := ranIf (decide (port < 32)) s (sapNoClock port)

/-- SAP_REALIGN (R315). -/
def execSapRealign (port : Nat) (phase : Int) (s : State) : Host.Outcome State Fault Refusal :=
  ranIf (decide (port < 32)) s (sapRealign port phase)

/-- SAP_PORT_STOPPED (R317). -/
def execSapPortStopped (port : Nat) (s : State) : Host.Outcome State Fault Refusal :=
  ranIf (decide (port < 32)) s (sapStopped port)

end Sys2Proof.Machine
end

