-- ==== Sys2Proof/Machine/Clk.lean ====
section
/-!
DEFINITION. Sys2Proof/Machine/Clk.lean: chapter 13, the reference selector, the PLLs and OSC_TUNE.
-/
namespace Sys2Proof.Machine

/-! ### Steering (R290 to R292) -/

/-- REFCLK_ALT is selected. -/
def onAlt (d : Dev) : Bool := liveB d offClkStatus 3

/-- REF_OK or ALT_OK. -/
def refOk (d : Dev) (alt : Bool) : Bool := liveB d offClkStatus (if alt then 1 else 0)

/-- Code width: 16 in PWM mode (R291). -/
def tuneBits (d : Dev) : Nat := if liveB d offClkTuneCfg 1 then liveF d offClkTuneCfg 12 8 else 16

/-- The word that steers: the servo word, or the follow word. -/
def tuneWord (d : Dev) : Int :=
  if actB d offClkTuneCfg 3 then sext 32 (liveGet d offSapFollowFreq).toNat else sext 32 (liveGet d offPtpiServoFreq).toNat

/-- The code of a word (R290). -/
def tuneOf (bits pull : Nat) (polarity : Bool) (f : Int) : Nat :=
  let half := 2 ^ (bits - 1)
  let c := clampI 0 ((2 ^ bits : Nat) - 1) ((half : Int) + rne (f * (half : Int)) (pull * 1000000))
  (if polarity then ((2 ^ bits : Nat) : Int) - 1 - c else c).toNat

/-- The code that OSC_TUNE takes at an epoch start: mid-scale while EN is 0 or after a Fatal error, the kept code on REFCLK_ALT,
else the code of the word in force. -/
def tuneCode (d : Dev) : Nat :=
  let half := 2 ^ (tuneBits d - 1)
  if fatal d || !(actB d offClkTuneCfg 0) then half
  else if onAlt d then d.clk.kept.getD half
  else tuneOf (tuneBits d) (liveF d offClkTunePull 9 0) (liveB d offClkTuneCfg 2) (tuneWord d)

/-- The code in CLK.TUNE_CODE. -/
def codeNow (d : Dev) : Nat := liveF d offClkTuneCode 19 0

/-- TUNE_SPI_FRAME (R292). -/
def tuneFrame (d : Dev) : Dev :=
  if liveB d offClkTuneCfg 1 = true ∧ (d.clk.sent ≠ some (codeNow d) ∨ d.epc.epoch % 3000 = 0) then
    let f := liveF d offClkTunePull 19 16 * 2 ^ 20 + codeNow d * 2 ^ (20 - tuneBits d)
    { d with clk := { d.clk with frame := some f, sent := some (codeNow d) } }
  else d

/-- OSC_TUNE is driven: in reset and while no image has been brought up, only while REFCLK has edges, which REF_OK stands for (R447, Table
20-6; assumption log entry 243). -/
def oscDriven (d : Dev) : Bool := d.boot.up || refOk d false

/-- OSC_TUNE_PWM_PERIOD (R291): the high time of the next period. -/
def pwmPeriod (d : Dev) : Dev :=
  if liveB d offClkTuneCfg 1 || !(oscDriven d) then d
  else
    let a := d.clk.acc + codeNow d
    { d with clk := { d.clk with high := a / 64, acc := a % 64 } }

/-! ### PLLs (R294 to R297) -/

/-- A bit of PLL_STATUS. -/
def pllBit (d : Dev) (p i : Nat) : Bool := liveB d (offClkPllStatus p) i

/-- Sets LOCKED and HOLDOVER. -/
def setPll (d : Dev) (p : Nat) (locked hold : Bool) : Dev :=
  liveSetB (liveSetB d (offClkPllStatus p) 0 locked) (offClkPllStatus p) 1 hold

/-- STATUS.HOLDOVER falls, and a mute ends, when no PLL is in holdover any more (R302, R306). -/
def holdShow (d : Dev) : Dev :=
  if (List.range 6).any fun q => pllBit d q 1 then d else liveSetB (liveSetB d offClkStatus 4 false) offClkStatus 5 false

/-- A lock begins (R294): the marker of sync mode is the first SYNC_IN edge after it (R297). -/
def startLock (p : Nat) (d : Dev) : Dev :=
  holdShow (setPll { d with clk := { d.clk with locking := setIns d.clk.locking p, sync := setIns d.clk.sync p } } p false false)

/-- A PLL stops. -/
def stopPll (p : Nat) (d : Dev) : Dev :=
  holdShow (setPll { d with clk := { d.clk with locking := setDel d.clk.locking p, sync := setDel d.clk.sync p } } p false false)

/-- A PLL locks, is locked or is in holdover. -/
def pllOn (d : Dev) (p : Nat) : Bool := d.clk.locking.contains p || pllBit d p 0 || pllBit d p 1

/-- The selected reference is valid. -/
def selOk (d : Dev) : Bool := refOk d (onAlt d)

/-- A reference may be taken (R301, R304). -/
def refPermitted (d : Dev) (alt : Bool) : Bool := !alt || actB d offClkRefsel 0

/-- PLLs may reacquire the selected reference: it is valid and, after a mute, permitted (R304). -/
def selTaken (d : Dev) : Bool := selOk d && (!(liveB d offClkStatus 5) || refPermitted d (onAlt d))

/-- A PLL is in sync mode. -/
def syncMode (d : Dev) (p : Nat) : Bool := liveB d (offClkPllCtrl p) 1

/-- PLL_LOCK_DONE (R294): band, LOCKED; a PLL in sync mode has met SYNC_IN first, but for the audio PLL, whose sync mode governs
MCLK outputs 0 to 3 only (R297). -/
def lockDone (p : Nat) (d : Dev) : Dev :=
  if d.clk.locking.contains p && selOk d && (decide (p = 1) || !(syncMode d p && d.clk.sync.contains p)) then
    let d := liveSetF d (offClkPllStatus p) 12 8 (Config.vcoBand p d.clk.locks).toNat
    setPll { d with clk := { d.clk with locking := setDel d.clk.locking p, locks := d.clk.locks + 1 } } p true false
  else d

/-- Blocks that a PLL clocks and that run (R295). -/
def pllInUse (d : Dev) (p : Nat) : Bool :=
  match p with
  | 2 => liveB d (offMemStatus 0) 0
  | 3 => liveB d (offMemStatus 1) 0
  | 4 => running d blkNeti || running d blkNeto || running d blkTwn
  | 5 => running d blkMgt
  | _ => true

/-- A write of 1 to PLL_CTRL.RELOCK, as part of a word (R295): elsewhere than R295 allows it is logged as R33 says, once for the write:
`refused` says that the word has been logged for another field. A PLL whose EN is not active stays stopped. -/
def relockWrite (p : Nat) (val : Word) (refused : Bool) (d : Dev) : Dev :=
  if pllInUse d p then (if refused then d else staticReject d (offClkPllCtrl p) val)
  else if actB d (offClkPllCtrl p) 0 then startLock p d
  else d

/-- SYNC_IN_EDGE (R297): `offsets` are the offsets of MCLK outputs 0 to 3 from their aligned positions, in delay steps. -/
def syncEdge (offsets : List Int) (d : Dev) : Dev :=
  if pllBit d 1 1 then liveSetF d offClkSync 31 16 (liveF d offClkSync 31 16 + 1)
  else
    let waits := d.clk.sync.contains 1
    let d := { liveSetB d offClkStatus 7 true with clk := { d.clk with sync := d.clk.sync.filter fun p => !(syncMode d p) } }
    if syncMode d 1 && !waits && actB d offClkSync 0 then
      let n := ((List.range 4).filter fun r => actB d (offClkAout r) 28 && decide ((offsets.getD r 0).natAbs > 1)).length
      liveSetF d offClkSync 15 1 (liveF d offClkSync 15 1 + n)
    else d

/-- MCLK output r is driven (R298, R299). -/
def mclkDriven (d : Dev) (r : Nat) : Bool := decide (r < 4) && actB d (offClkAout r) 28 && drivesOut d

/-! ### Loss of reference (R301 to R306) -/

/-- One PLL enters holdover. -/
def pllHold (d : Dev) (p : Nat) : Dev :=
  if pllBit d p 0 then bumpSat (setPll d p false true) (offClkPllStatus p) 31 16 else d

/-- An input is lost (R301). -/
def inputLost (alt : Bool) (d : Dev) : Dev := liveSetB d offClkStatus (if alt then 1 else 0) false

/-- Holdover that begins is logged once (R302); `unit` is the PLL that lost its lock, `was` STATUS.HOLDOVER before. -/
def holdBegins (unit : Nat) (was : Bool) (d : Dev) : Dev :=
  if ((List.range 6).any fun p => pllBit d p 1) && !was then
    let d := if onAlt d then d else { d with clk := { d.clk with kept := some (codeNow d) } }
    raiseErr (liveSetB d offClkStatus 4 true) (srcOf blkClk unit) 0x0401 0 0
  else d

/-- REF_LOSS (R301, R302): the selected reference is lost, which affects all six PLLs, or the other one, or one PLL leaves its lock
range. -/
def refLoss (loss : RefLoss) (d : Dev) : Dev :=
  let was := liveB d offClkStatus 4
  match loss with
  | .selected => holdBegins 0 was ((List.range 6).foldl pllHold (inputLost (onAlt d) d))
  | .other => inputLost (!(onAlt d)) d
  | .phase p => holdBegins p was (pllHold d p)

/-- What is added to the feedback ratio of the root and audio PLLs (R304): the offset, and on REFCLK_ALT the word in place of OSC_TUNE. -/
def feedback (d : Dev) : Int := d.clk.steer + (if onAlt d then 3 * tuneWord d else 0)

/-- Sets the digital steering of the root and audio PLLs (R304, R305). -/
def setSteer (d : Dev) (v : Int) : Dev :=
  let on := onAlt d || decide (v ≠ 0)
  let d := { d with clk := { d.clk with steer := v } }
  let d := { d with clk := { d.clk with feed := feedback d } }
  (List.range 2).foldl (fun d p => liveSetB d (offClkPllStatus p) 2 on) d

/-- A failover to a reference (R304, R305): the root and audio PLLs keep their frequency by a digital offset. -/
def failover (alt : Bool) (d : Dev) : Dev :=
  let d := bump (liveSetB (liveSetB d offClkStatus 3 alt) offClkStatus 6 true) offClkFailoverCount
  let d := setSteer d (3 * (Config.steerOffset (liveGet d offClkFailoverCount).toNat).toInt)
  raiseErr d (srcOf blkClk 0) 0x0402 (if alt then 1 else 0) 0

/-- REF_VALID (R301): a reference becomes valid; while the outputs are muted the selector takes it (R304). -/
def refValid (alt : Bool) (d : Dev) : Dev :=
  if !d.boot.up || refPermitted d alt || decide (alt = onAlt d) then
    let d := liveSetB d offClkStatus (if alt then 1 else 0) true
    if liveB d offClkStatus 5 && decide (alt ≠ onAlt d) && refPermitted d alt && !(selOk d) then failover alt d else d
  else d

/-- PLL_REACQUIRE_DONE (R294, R303, R306): when the last PLL has reacquired, holdover and mute end. -/
def reacquireDone (p : Nat) (d : Dev) : Dev :=
  if pllBit d p 1 && selTaken d then holdShow (setPll d p true false) else d

/-- HOLDOVER_DECISION (R304). -/
def holdoverDecision (d : Dev) : Dev :=
  if liveB d offClkStatus 4 && !(liveB d offClkStatus 5) && !(selOk d) then
    let other := !(onAlt d)
    if refOk d other && refPermitted d other then failover other d
    else raiseErr (liveSetB d offClkStatus 5 true) (srcOf blkClk 0) 0x0403 0 0
  else d

/-- REF_REVERT (R305): REFCLK has stayed valid for 10 s. -/
def refRevert (d : Dev) : Dev :=
  if onAlt d && actB d offClkRefsel 1 && refOk d false then failover false d else d

/-- PLL_NO_REACQUIRE (R306). -/
def noReacquire (p : Nat) (d : Dev) : Dev :=
  if pllBit d p 1 && selTaken d then raiseErr d (srcOf blkClk p) 0x0404 0 0 else d

/-- CLK at an epoch start, after the commit copy: PLLs 2 to 5 start and stop with EN, REFCLK_ALT is not considered while it is not
permitted, the digital offset decays on REFCLK and takes the word on REFCLK_ALT, and OSC_TUNE takes its code. -/
def clkEpoch (d : Dev) : Dev :=
  let d := [2, 3, 4, 5].foldl (fun d p =>
    match actB d (offClkPllCtrl p) 0, pllOn d p with
    | true, false => startLock p d
    | false, true => stopPll p d
    | _, _ => d) d
  let d := if refPermitted d true || onAlt d then d else liveSetB d offClkStatus 1 false
  let d := if onAlt d then setSteer d d.clk.steer
    else if d.clk.steer = 0 then d
    else setSteer d (if d.clk.steer > 0 then max 0 (d.clk.steer - 2000) else min 0 (d.clk.steer + 2000))
  liveSetF d offClkTuneCode 19 0 (tuneCode d)

/-! ### Commands -/

/-- TUNE_SPI_FRAME (R292). -/
def execTuneSpiFrame (s : State) : Host.Outcome State Fault Refusal := ran s tuneFrame

/-- OSC_TUNE_PWM_PERIOD (R291). -/
def execOscTunePwmPeriod (s : State) : Host.Outcome State Fault Refusal := ran s pwmPeriod

/-- RELOCK (R295): the write carries the PLL's other fields back. -/
def execRelock (pll : Nat) (s : State) : Host.Outcome State Fault Refusal :=
  ranIf (decide (pll < 6)) s fun d => relockWrite pll (setBit (regRead d (offClkPllCtrl pll)) 2 true) false d

/-- SYNC_IN_EDGE (R297). -/
def execSyncInEdge (offsets : List Int) (s : State) : Host.Outcome State Fault Refusal := ran s (syncEdge offsets)

/-- REF_LOSS (R302). -/
def execRefLoss (loss : RefLoss) (s : State) : Host.Outcome State Fault Refusal :=
  ranIf (match loss with | .phase p => decide (p < 6) | _ => true) s (refLoss loss)

/-- REF_VALID (R301). -/
def execRefValid (alt : Bool) (s : State) : Host.Outcome State Fault Refusal := ran s (refValid alt)

/-- PLL_REACQUIRE_DONE (R294). -/
def execPllReacquireDone (pll : Nat) (s : State) : Host.Outcome State Fault Refusal :=
  ranIf (decide (pll < 6)) s (reacquireDone pll)

/-- HOLDOVER_DECISION (R304). -/
def execHoldoverDecision (s : State) : Host.Outcome State Fault Refusal := ran s holdoverDecision

/-- REF_REVERT (R305). -/
def execRefRevert (s : State) : Host.Outcome State Fault Refusal := ran s refRevert

/-- PLL_NO_REACQUIRE (R306). -/
def execPllNoReacquire (pll : Nat) (s : State) : Host.Outcome State Fault Refusal :=
  ranIf (decide (pll < 6)) s (noReacquire pll)

end Sys2Proof.Machine
end

