-- ==== Sys2Proof/Machine/Mem.lean ====
section
/-!
DEFINITION. Sys2Proof/Machine/Mem.lean: bytes and words of the memories behind the crossbar. Words stand in memory with the
least significant byte first (assumption log entry 16).
-/
namespace Sys2Proof.Machine

/-- What a byte that nothing has written reads as (assumption log entry 17). -/
def byte0 : Nat → Byte := fun _ => 0

/-- Bytes in canonical form: addresses strictly rising and no zero byte listed. -/
abbrev bytesWf (m : List (Nat × Byte)) : Bool := mapWf byte0 m

/-- One byte. -/
def byteGet (m : List (Nat × Byte)) (a : Nat) : Byte := mapGet byte0 m a

/-- n bytes from an address upward. -/
def bytesGet (m : List (Nat × Byte)) (a n : Nat) : List Byte := mapGetRun byte0 m a n

/-- Stores bytes from an address upward. -/
def bytesSet (m : List (Nat × Byte)) (a : Nat) (bs : List Byte) : List (Nat × Byte) := mapSetRun byte0 m a bs

/-- The 32-bit word at a byte address. -/
def wordGet (m : List (Nat × Byte)) (a : Nat) : Word := BitVec.ofNat 32 (leNat (bytesGet m a 4))

/-- Stores a 32-bit word. -/
def wordSet (m : List (Nat × Byte)) (a : Nat) (w : Word) : List (Nat × Byte) := bytesSet m a (leBytes 4 w.toNat)

/-- n words from a byte address upward. -/
def wordsGet (m : List (Nat × Byte)) (a n : Nat) : List Word := (List.range n).map fun i => wordGet m (a + 4 * i)

/-- Stores words from a byte address upward. -/
def wordsSet (m : List (Nat × Byte)) (a : Nat) (ws : List Word) : List (Nat × Byte) :=
  bytesSet m a (ws.flatMap fun w => leBytes 4 w.toNat)

/-- The table of the render configuration window that an offset of a half belongs to, and the byte in it; the layout section stands at 0,
the triangulation at 0x10000 and the segments at 0x40000 (assumption log entry 211). -/
def tableAt (o : Nat) : Nat × Nat :=
  if o < 0x10000 then (0x10, o) else if o < 0x40000 then (0x11, o - 0x10000) else (0x12, o - 0x40000)

/-- The table of a section type in a half. -/
def tableOf (l : List (Nat × List Byte)) (type : Nat) : List Byte := mapGet (fun _ => []) l type

/-- Puts a table in a half. -/
def setTable (l : List (Nat × List Byte)) (type : Nat) (p : List Byte) : List (Nat × List Byte) := mapSet (fun _ => []) l type p

/-- Installed size of a channel in bytes (MEMx.STATUS.SIZE_GIB). -/
def memSize (d : Dev) (ch : Nat) : Nat := liveF d (offMemStatus ch) 21 16 * 2 ^ 30

/-- Base offset of the supervisor reserved region of MEM1: its highest 512 MiB (R327). -/
def mem1Reserved (d : Dev) : Nat := memSize d 1 - 2 ^ 29

/-- n bytes at an offset of MEM1 lie in the part that a vector cluster reaches (R326, R327). -/
def mem1Open (d : Dev) (a n : Nat) : Bool := decide (a + n ≤ mem1Reserved d)

/-- RESP code of LAST_ERR_INFO, and the counter of a response. -/
def respCode : XResp → Nat
  | .ok => 0
  | .data => 1
  | .target => 2
  | .decode => 3

/-- An error response is counted and recorded (R344). -/
def countError (master addr : Nat) (write : Bool) (resp : XResp) (d : Dev) : Dev :=
  let d := bump (liveSetB d offXbarStatus 0 true) (offXbarErrCount (3 - respCode resp))
  let d := liveSet d offXbarLastErrLo (BitVec.ofNat 32 addr)
  let d := liveSet d offXbarLastErrHi (BitVec.ofNat 32 (addr / 2 ^ 32 % 256))
  liveSet d offXbarLastErrInfo (BitVec.ofNat 32 (master % 32 * 65536 + respCode resp * 256 + write.toNat))

/-- A core's access to n bytes of MEM1 that its cluster may not make draws an error response (R326, R327, R344). -/
def mem1Refused (core : Nat) (write : Bool) (off n : Nat) (d : Dev) : Dev :=
  let resp : XResp := if liveB d (offMemStatus 1) 0 = true ∧ memSize d 1 < off + n then .decode else .target
  countError (core / 4 + 1) (0x2000000000 + off) write resp d

/-- Replaces the bytes of MEM1. -/
def setMem1 (d : Dev) (m : List (Nat × Byte)) : Dev := { d with mem := { d.mem with mem1 := m } }

/-- A byte of MEM1: what firmware keeps in the supervisor reserved region is not given (R327, assumption log entry 146). -/
def mem1Byte (d : Dev) (o : Nat) : Byte :=
  if o < mem1Reserved d then byteGet d.mem.mem1 o
  else match d.mem.reserved.find? fun e => decide (e.1 = o) with
    | some e => e.2
    | none => Config.firmwareByte d.epc.epoch o

/-- Writes a byte of the supervisor reserved region of MEM1. -/
def reservedPut (d : Dev) (o : Nat) (b : Byte) : Dev :=
  { d with mem := { d.mem with reserved := mapIns (mapDel d.mem.reserved o) o b } }

/-- Writes bytes of the supervisor reserved region of MEM1 from an offset in it upward. -/
def reservedRun (d : Dev) (o : Nat) (bs : List Byte) : Dev := bs.zipIdx.foldl (fun d b => reservedPut d (o + b.2) b.1) d

/-- Writes a byte of MEM1. -/
def mem1Put (d : Dev) (o : Nat) (b : Byte) : Dev :=
  if o < mem1Reserved d then setMem1 d (bytesSet d.mem.mem1 o [b]) else reservedPut d o b

/-- Writes bytes of MEM1 from an offset upward. -/
def mem1PutRun (d : Dev) (o : Nat) (bs : List Byte) : Dev := bs.zipIdx.foldl (fun d b => mem1Put d (o + b.2) b.1) d

/-- n bytes of MEM1 from an offset upward. -/
def mem1Run (d : Dev) (o n : Nat) : List Byte := (List.range n).map fun i => mem1Byte d (o + i)

end Sys2Proof.Machine
end

