-- ==== Sys2Proof/Machine/Dram.lean ====
section
/-!
DEFINITION. Sys2Proof/Machine/Dram.lean: chapter 15, the two DDR5 controllers.
-/
namespace Sys2Proof.Machine

/-- A controller. -/
def dram (d : Dev) (ch : Nat) : Dram := if ch = 0 then d.dram0 else d.dram1

/-- Replaces a controller. -/
def setDram (d : Dev) (ch : Nat) (m : Dram) : Dev := if ch = 0 then { d with dram0 := m } else { d with dram1 := m }

/-- The render region is enabled (R325). -/
def renderOn (d : Dev) : Bool := running d blkGeo || running d blkXp || running d blkRc

/-- READY. -/
def memReady (d : Dev) (ch : Nat) : Bool := liveB d (offMemStatus ch) 0

/-- STATE: 0 not initialised, 1 active, 2 power-down, 3 self-refresh, 4 retraining. -/
def memState (d : Dev) (ch : Nat) : Nat := liveF d (offMemStatus ch) 6 4

/-- Sets STATE. -/
def setMemState (d : Dev) (ch v : Nat) : Dev := liveSetF d (offMemStatus ch) 6 4 v

/-- RATE from the DDR PLL ratio (Table 13-2). -/
def memRate (d : Dev) (ch : Nat) : Nat :=
  let r := (liveGet d (offClkPllRatio (2 + ch))).toNat
  if r = 0x186A0000 then 0 else if r = 0x1C7BAAAB then 1 else 2

/-- Counter block of a controller (Table 18-9). -/
def perfMem (ch : Nat) : Nat := 79 + ch

/-- Bank of a channel offset, as rank x 32 + bank group x 4 + bank (Table 15-5). -/
def dramBank (big : Bool) (a : Nat) : Nat :=
  a / 2 ^ (if big then 34 else 33) % 2 * 32 + a / 2 ^ 12 % 8 * 4 + a / 2 ^ 15 % 4

/-- Row of a channel offset (Table 15-5). -/
def dramRow (big : Bool) (a : Nat) : Nat := a / 2 ^ 17 % (if big then 2 ^ 17 else 2 ^ 16)

/-- Timing classes (Table 15-6): 0 hit, 1 closed, 2 conflict. -/
def dramClass (rows : List (Nat × Nat)) (bank row : Nat) : Nat :=
  match rows.find? fun e => decide (e.1 = bank) with
  | none => 1
  | some e => if e.2 = row then 0 else 2

/-- Bound of a class in ns (Table 15-6). -/
def classBound (rate cls : Nat) (write : Bool) : Nat :=
  let t := [[(23, 20), (40, 37), (57, 54)], [(22, 19), (39, 36), (55, 52)], [(22, 18), (38, 35), (54, 51)]]
  let e := (t.getD rate []).getD cls (0, 0)
  if write then e.2 else e.1

/-- Records an error in ERR_ADDR and ERR_INFO (R343). -/
def memErrRegs (d : Dev) (ch off master syn : Nat) (unc : Bool) : Dev :=
  let d := liveSet (liveSet d (offMemErrAddrLo ch) (BitVec.ofNat 32 off)) (offMemErrAddrHi ch) (BitVec.ofNat 32 (off / 2 ^ 32 % 8))
  liveSet d (offMemErrInfo ch) (BitVec.ofNat 32 (unc.toNat * 2 ^ 31 + master % 32 * 2 ^ 16 + syn % 256))

/-- An access that failed for good is logged here unless it is of the render DMA or the RC DMA at MEM0, which name the slot or
feed when they take the response (R343, R344). -/
def memFailed (d : Dev) (ch off master : Nat) : Dev :=
  if ch = 0 ∧ (master = 10 ∨ master = 11) then d
  else raiseErr d (srcOf (blkMem0 + ch) 0) 0x0505 (BitVec.ofNat 32 master) (BitVec.ofNat 32 off)

/-- A request serves a burst of a transaction: of its master, its direction and the channel, where that burst is still to come. -/
def servesTx (ch : Nat) (r : DramReq) (t : XbarTx) : Bool :=
  decide (t.target = some (6 + ch) ∧ t.req.master = r.master ∧ t.req.write = r.write) && t.left.contains (r.off / 64)

/-- Changes the transaction that a request belongs to: the oldest that it serves. -/
def ofRequest (ch : Nat) (r : DramReq) (f : XbarTx → XbarTx) (d : Dev) : Dev :=
  match d.xbar.out.findIdx? (servesTx ch r) with
  | none => d
  | some i => { d with xbar := { d.xbar with out := d.xbar.out.modify i f } }

/-- The transaction that a request belongs to gets a DATA response (R343). -/
def markData (ch : Nat) (r : DramReq) (d : Dev) : Dev := ofRequest ch r (fun t => { t with answer := .data }) d

/-- The burst of a request has been issued to the devices and its write-CRC alert window has passed (R332). -/
def burstDone (ch : Nat) (r : DramReq) (d : Dev) : Dev := ofRequest ch r (fun t => { t with left := t.left.erase (r.off / 64) }) d

/-- What an error of a request does (R343); an ECC error belongs to a read. -/
def memError (d : Dev) (ch : Nat) (r : DramReq) : Dev :=
  let src := srcOf (blkMem0 + ch) 0
  match r.err, r.write with
  | .corrected s, false =>
    let d := memErrRegs (bump d (offMemCnt ch 0)) ch r.off r.master s false
    raiseErr (perfHit d (perfMem ch) 0x16 1) src 0x0501 (BitVec.ofNat 32 r.off) (BitVec.ofNat 32 s)
  | .uncorrectable s, false =>
    memFailed (memErrRegs (bump (markData ch r d) (offMemCnt ch 1)) ch r.off r.master s true) ch r.off r.master
  | .retryOk, _ =>
    let d := memErrRegs (bump d (offMemCnt ch 2)) ch r.off r.master 0 false
    raiseErr d src 0x0502 (BitVec.ofNat 32 r.off) (BitVec.ofNat 32 r.master)
  | .retryFail, _ =>
    memFailed (memErrRegs (bump (markData ch r d) (offMemCnt ch 3)) ch r.off r.master 0 true) ch r.off r.master
  | _, _ => d

/-- Requests queued at a controller. -/
def memQueued (d : Dev) (ch : Nat) : Nat := (d.xbar.out.filter fun t => decide (t.target = some (6 + ch))).length

/-- Requests ahead of a request at its controller: the transactions before the one that it belongs to (R342). -/
def memAhead (d : Dev) (ch : Nat) (r : DramReq) : Nat :=
  let l := d.xbar.out.filter fun t => decide (t.target = some (6 + ch))
  (l.findIdx? (servesTx ch r)).getD l.length

/-- The open hint of a request (R336): the render DMA and the RC DMA send open within a 4 KiB span and close on its last burst; the others
send the attribute of their transaction. -/
def openHint (r : DramReq) : Bool := if r.master = 10 ∨ r.master = 11 then decide (r.off % 4096 < 4032) else r.rowOpen

/-- The bound of R342 on the latency of a request to MEM1, in ns: at most two refreshes at the base rate, four with HOT. MEM0 has none. -/
def latBound (d : Dev) (ch cls : Nat) (r : DramReq) (lat : Nat) : Nat :=
  if ch = 0 then lat
  else min lat (classBound (memRate d ch) cls r.write + 50 * min 63 (memAhead d ch r) +
    410 * (if liveB d (offMemStatus ch) 3 then 4 else 2) + 2060)

/-- Serves a request (R332, R335 to R337, R342, R343). -/
def serveDram (ch : Nat) (d : Dev) (r : DramReq) : Dev :=
  let m := dram d ch
  let big := liveB d (offMemCfg ch) 1
  let bank := dramBank big r.off
  let row := dramRow big r.off
  let cls := dramClass m.rows bank row
  let rows := m.rows.filter fun e => decide (e.1 ≠ bank)
  let d := setDram d ch { m with rows := if openHint r then (bank, row) :: rows else rows, served := m.served + 1 }
  let d := perfHit d (perfMem ch) (if r.write then 0x11 else 0x10) 1
  let d := if cls = 0 then perfHit d (perfMem ch) 0x12 1 else if cls = 2 then perfHit d (perfMem ch) 0x13 1 else d
  burstDone ch r (memError (liveMax d (offMemLatMax ch) 15 0 (min 65535 (latBound d ch cls r (Config.memLatency ch m.served)))) ch r)

/-- Ranks of a channel. -/
def memRanks (d : Dev) (ch : Nat) : Nat := if liveB d (offMemCfg ch) 0 then 2 else 1

/-- STATE of a channel that is not in self-refresh: power-down once every rank is in it. -/
def showDown (d : Dev) (ch : Nat) : Dev :=
  setMemState d ch (if (List.range (memRanks d ch)).all fun r => (dram d ch).down.contains r then 2 else 1)

/-- Ranks wake from power-down. -/
def wakeRanks (d : Dev) (ch : Nat) (left : List Nat) : Dev := showDown (setDram d ch { dram d ch with down := left }) ch

/-- While the render region is enabled MEM0 carries the render DMA and the RC DMA alone, each in its windows (R346): the RC DMA in RND cycles
6,000 to 139,999, the render DMA before cycle 180,000. The model knows the cycle to the engine period, 3,125 cycles, and counts a
period to a window that it shares (assumption log entry 247). -/
def mem0Window (d : Dev) (master : Nat) : Bool :=
  let first := 3125 * d.epc.period
  !(renderOn d) || (decide (master = 10) && decide (first < 180000)) ||
    (decide (master = 11) && decide (6000 < first + 3125 ∧ first < 140000))

/-- DRAM_REQUEST: a request to a rank in power-down wakes it (R340); one in self-refresh is held (R341). -/
def dramRequest (ch : Nat) (r : DramReq) (d : Dev) : Dev :=
  if memReady d ch && decide (r.off < memSize d ch) && (decide (ch = 1) || mem0Window d r.master) then
    let m := dram d ch
    if memState d ch = 3 then setDram d ch { m with held := m.held ++ [r] }
    else serveDram ch (wakeRanks d ch (setDel m.down (dramBank (liveB d (offMemCfg ch) 1) r.off / 32))) r
  else d

/-- DRAM_REFRESH (R338): an all-bank refresh leaves every bank precharged. -/
def dramRefresh (ch : Nat) (d : Dev) : Dev :=
  if memReady d ch && decide (memState d ch ≠ 3) then
    perfHit (wakeRanks (setDram d ch { dram d ch with rows := [] }) ch []) (perfMem ch) 0x14 1
  else d

/-- POWER_DOWN_ENTRY (R340): one rank. -/
def powerDown (ch rank : Nat) (d : Dev) : Dev :=
  if memReady d ch && actB d (offMemCtrl ch) 1 && decide (memState d ch = 1 ∧ rank < memRanks d ch) && !(decide (ch = 0) && renderOn d) then
    wakeRanks d ch (setIns (dram d ch).down rank)
  else d

/-- Self-refresh is permitted by what runs (R340). -/
def mayRest (d : Dev) (ch : Nat) : Bool :=
  if ch = 0 then !(renderOn d)
  else !((List.range 4).any fun s => actB d (offWdStageCfg s) 0) && decide (liveF d offRcCapStatus 2 0 ≠ 1)

/-- SELF_REFRESH_ENTRY (R340, R341): every bank is precharged. -/
def selfRefresh (ch : Nat) (d : Dev) : Dev :=
  if memReady d ch && actB d (offMemCtrl ch) 2 && decide (memState d ch = 1 ∨ memState d ch = 2) && mayRest d ch then
    bump (setMemState (setDram d ch { dram d ch with rows := [], down := [], restAt := some (64 * d.epc.epoch + d.epc.period) }) ch 3)
      (offMemCnt ch 4)
  else d

/-- Engine periods in 10 ms. -/
def longRest : Nat := 1920

/-- SELF_REFRESH_EXIT (R341): after more than 10 ms the controller retrains first; the requests held are served in their order. -/
def selfRefreshExit (ch : Nat) (d : Dev) : Dev :=
  if memReady d ch && decide (memState d ch = 3) then
    let m := dram d ch
    let now := 64 * d.epc.epoch + d.epc.period
    let long := match m.restAt with
      | some t => decide (t + longRest < now)
      | none => false
    let d := setDram d ch { m with held := [], restAt := none, trainedAt := if long then some now else m.trainedAt }
    m.held.foldl (serveDram ch) (setMemState d ch 1)
  else d

/-- A scheduled pause falls within 10 us, two engine periods, after a retraining at the end of self-refresh (R341). -/
def pauseSkipped (d : Dev) (ch : Nat) : Bool := match (dram d ch).trainedAt with
  | some t => decide (64 * d.epc.epoch + d.epc.period < t + 2)
  | none => false

/-- Longest pause in MEM cycles: 2.0 us (R339, Table 13-2). -/
def pauseLimit (rate : Nat) : Nat := match rate with
  | 0 => 1200
  | 1 => 1400
  | _ => 1600

/-- RETRAINING_PAUSE (R27, R338, R339, R341): once in an epoch whose number is a multiple of INTERVAL, MEM0's with the render region enabled
in the margin window; MR4 is read. A channel in self-refresh leaves it for the pause (assumption log entry 210). -/
def retrainingPause (ch : Nat) (hot : Bool) (d : Dev) : Dev :=
  let i := actF d (offMemRetrain ch) 15 0
  let due := decide (d.epc.epoch % i = 0 ∧ (dram d ch).paused ≠ some d.epc.epoch) &&
    (decide (ch = 1) || !(renderOn d) || decide (3 ≤ d.path.phase))
  if memReady d ch && due then
    let d := selfRefreshExit ch d
    let d := setDram d ch { dram d ch with paused := some d.epc.epoch }
    if pauseSkipped d ch then d
    else
      let d := setDram d ch { dram d ch with rows := [] }
      let n := min (Config.pauseCycles ch (liveGet d (offMemCnt ch 5)).toNat) (pauseLimit (memRate d ch))
      let d := liveSetB (wakeRanks (bump d (offMemCnt ch 5)) ch []) (offMemStatus ch) 3 hot
      perfSpan d (perfMem ch) 0x17 n
  else d

/-- The controllers at an epoch start: with the render region enabled MEM0 uses neither power-down nor self-refresh (R340), and what a
crossbar write left in the RC region is RC's from then on. -/
def memEpoch (d : Dev) : Dev :=
  let d := if running d blkRc then { d with mem := { d.mem with rcRegion := [] } } else d
  if memReady d 0 && renderOn d then
    let d := selfRefreshExit 0 d
    if (dram d 0).down.isEmpty then d else wakeRanks d 0 []
  else d

/-- MEM_INIT (R334, R335, R381): SIZE_GIB follows from RANKS and DENSITY; a failure is Fatal. The DDR PLL must have locked. -/
def memInit (ch : Nat) (ok : Bool) (d : Dev) : Dev :=
  let gib := 8 * (if liveB d (offMemCfg ch) 1 then 2 else 1) * (if liveB d (offMemCfg ch) 0 then 2 else 1)
  let d := liveSetF (setDram d ch {}) (offMemStatus ch) 9 8 (memRate d ch)
  if ok && liveB d (offClkPllStatus (2 + ch)) 0 then
    let d := liveSetF (liveSetB (liveSetB d (offMemStatus ch) 1 false) (offMemStatus ch) 0 true) (offMemStatus ch) 21 16 gib
    liveSet (setMemState d ch 1) (offMemTiming ch) ((Config.memTiming ch (memRate d ch)).setWidth 32)
  else
    let d := setMemState (liveSetB (liveSetB d (offMemStatus ch) 1 true) (offMemStatus ch) 0 false) ch 0
    raiseErr d (srcOf (blkMem0 + ch) 0) 0x010B (liveGet d (offMemStatus ch)) 0

/-- What the registers of the controllers show at a snapshot: RATE and the queue. -/
def memReports (d : Dev) : Dev :=
  (List.range 2).foldl (fun d ch =>
    liveSetF (liveSetF d (offMemStatus ch) 9 8 (memRate d ch)) (offMemQueue ch) 6 0 (memQueued d ch)) d

/-- DRAM_REQUEST (R337, R343). -/
def execDramRequest (ch off : Nat) (write rowOpen : Bool) (master : Nat) (err : DramErr) (s : State) :
    Host.Outcome State Fault Refusal :=
  ranIf (decide (ch < 2 ∧ master < 19)) s (dramRequest ch ⟨off, write, rowOpen, master, err⟩)

/-- DRAM_REFRESH (R338). -/
def execDramRefresh (ch : Nat) (s : State) : Host.Outcome State Fault Refusal := ranIf (decide (ch < 2)) s (dramRefresh ch)

/-- RETRAINING_PAUSE (R339). -/
def execRetrainingPause (ch : Nat) (hot : Bool) (s : State) : Host.Outcome State Fault Refusal :=
  ranIf (decide (ch < 2)) s (retrainingPause ch hot)

/-- POWER_DOWN_ENTRY (R340). -/
def execPowerDownEntry (ch : Nat) (s : State) (rank : Nat := 0) : Host.Outcome State Fault Refusal :=
  ranIf (decide (ch < 2 ∧ rank < 2)) s (powerDown ch rank)

/-- SELF_REFRESH_ENTRY (R340, R341). -/
def execSelfRefreshEntry (ch : Nat) (s : State) : Host.Outcome State Fault Refusal :=
  ranIf (decide (ch < 2)) s (selfRefresh ch)

/-- SELF_REFRESH_EXIT (R341). -/
def execSelfRefreshExit (ch : Nat) (s : State) : Host.Outcome State Fault Refusal :=
  ranIf (decide (ch < 2)) s (selfRefreshExit ch)

end Sys2Proof.Machine
end

