-- ==== Sys2Proof/Machine/Operands.lean ====
section
/-!
DEFINITION. Sys2Proof/Machine/Operands.lean: the operand forms of a vector bundle: registers and what a reader sees of them
(R179, R193), the word-address spaces (R181), the addressing modes (R190 to R192), the move fields and the AGU field.
-/
namespace Sys2Proof.Machine

/-! ### Registers. D0-D15 are 0-15, ACC0-ACC7 16-23, A 32-39, N 40-47, M 48-55; then the parts of SR and WB. -/

/-- Register number of Z. -/
abbrev rZ : Nat := 56
/-- Register number of N. -/
abbrev rN : Nat := 57
/-- Register number of V. -/
abbrev rV : Nat := 58
/-- Register number of SL. -/
abbrev rSL : Nat := 59
/-- Register number of SA. -/
abbrev rSA : Nat := 60
/-- Register number of SCALE. -/
abbrev rSCALE : Nat := 61
/-- Register number of WB. -/
abbrev rWB : Nat := 62

/-- A register exists in both sets (Table 9-1). -/
def shadowed (r : Nat) : Bool :=
  decide (r < 8 ∨ (16 ≤ r ∧ r < 20) ∨ (32 ≤ r ∧ r < 36) ∨ (40 ≤ r ∧ r < 44) ∨ (56 ≤ r ∧ r < 62))

/-- The number of a register in the set that a bundle uses: the shadow set's lie 64 higher. -/
def regIn (handler : Bool) (r : Nat) : Nat := if handler && shadowed r then r + 64 else r

/-- A distance that Table 9-5 does not list: 1, 2 or 3. -/
def openDist (w r : Nat) : Nat := 1 + Config.hazard w r % 3

/-- Table 9-5: the distance from a write to the first bundle that sees it. -/
def hazardDist (w : VecWriter) (r : VecReader) : Nat :=
  match w, r with
  | .move, .accSrc => 2
  | .move, _ => 1
  | .far, _ => 2
  | .mac, .accSrc => 2
  | .mac, _ => 1
  | .alu, _ => 1
  | .flags, .bcc => 1
  | .flags, _ => openDist 0 0
  | .post, .addr => 1
  | .post, .agu => openDist 1 0
  | .post, _ => openDist 1 1
  | .agu, .addr => 2
  | .agu, .agu => openDist 2 0
  | .agu, _ => openDist 2 1
  | .set, .addr => 3
  | .set, .agu => 3
  | .set, _ => openDist 3 0
  | .liD, _ => 1
  | .sr, .scale => 2
  | .sr, .sat => 2
  | .sr, .bcc => openDist 4 0
  | .sr, _ => openDist 4 1
  | .wb, _ => 3
  | .ctlD, _ => openDist 5 0
  | .sticky, _ => openDist 6 0

/-- The newest write in flight to a register that a reader in bundle n sees. -/
def seenWrite (l : List VecWrite) (reg n : Nat) (r : VecReader) : Option Nat :=
  match l with
  | [] => none
  | w :: t => if w.reg = reg ∧ w.k + hazardDist w.src r ≤ n then some w.val else seenWrite t reg n r

/-- What a reader in the next bundle sees of a register (R193). -/
def regSeen (c : VecCore) (handler : Bool) (r : VecReader) (reg : Nat) : Nat :=
  let p := regIn handler reg
  match seenWrite c.flight p c.issued r with
  | some v => v
  | none => mapGet (fun _ => 0) c.regs p

/-- The value of a register once every write in flight is seen. -/
def regLast (c : VecCore) (handler : Bool) (reg : Nat) : Nat :=
  let p := regIn handler reg
  match c.flight.find? fun w => w.reg = p with
  | some w => w.val
  | none => mapGet (fun _ => 0) c.regs p

/-- A D register as a reader sees it. -/
def dSeen (c : VecCore) (h : Bool) (i : Nat) : Word := BitVec.ofNat 32 (regSeen c h .d (i % 16))

/-- An accumulator as a signed number in units of 2^-47. -/
def accSeen (c : VecCore) (h : Bool) (r : VecReader) (i : Nat) : Int := sext 56 (regSeen c h r (16 + i % 8))

/-- The scaling shift in force for scaled moves (Table 9-2, R187): values outside -8 to +8 act as 0. -/
def scaleSeen (c : VecCore) (h : Bool) : Int :=
  let s := sext 5 (regSeen c h .scale rSCALE)
  if -8 ≤ s ∧ s ≤ 8 then s else 0

/-- A scaled move (R187): the Q1.31 word and whether it saturated. -/
def scaledMove (acc scale : Int) : Word × Bool :=
  let v := if scale ≥ 0 then rshr (acc * (2 ^ scale.toNat : Nat)) 16 else rshr acc (16 + (-scale).toNat)
  (wordOf (satS 32 v), overS 32 v)

/-- A word placed in an accumulator as Q1.31 (R188). -/
def accOfWord (w : Word) : Nat := code 56 (sext 32 w.toNat * 2 ^ 16)

/-! ### Address spaces -/

/-- What a word address names on a side (Table 9-3). -/
inductive VecPlace where
  /-- The X or Y table: read only. -/
  | table
  /-- The core's own memory: read and write. -/
  | own
  /-- The cluster shared memory: read only. -/
  | shared
  /-- The external window. -/
  | window
  /-- Nothing. -/
  | unmapped
  deriving DecidableEq, Repr

/-- The place of a 24-bit word address; both sides are laid out alike in this respect. -/
def vecPlace (a : Nat) : VecPlace :=
  if a < 0x2000 then .table
  else if a < 0x8000 then .own
  else if 0x100000 ≤ a ∧ a < 0x140000 then .shared
  else if 0x800000 ≤ a ∧ a < 0x1000000 then .window
  else .unmapped

/-- Channel offset in MEM1 of a window word (R184). -/
def windowOff (c : VecCore) (h : Bool) (a : Nat) : Nat :=
  regSeen c h .window rWB * 2 ^ 25 + 4 * (a - 0x800000)

/-- Default of word memories. -/
def word0 : Nat → Word := fun _ => 0

/-- The word of a core's own X or Y memory that a load in the next bundle reads. -/
def ownSeen (c : VecCore) (yside : Bool) (a : Nat) : Word :=
  match c.stores.find? fun s => s.yside = yside ∧ s.addr = a ∧ s.k + 2 ≤ c.issued with
  | some s => s.val
  | none => mapGet word0 (if yside then c.ymem else c.xmem) a

/-- The word at an address, of a place that exists. -/
def vecLoad (d : Dev) (core : Nat) (c : VecCore) (h yside : Bool) (a : Nat) : Word :=
  match vecPlace a with
  | .table | .own => ownSeen c yside a
  | .shared => mapGet word0 (mapGet (fun _ => []) d.vec.shared (core / 4)) (a - 0x100000)
  | .window => wordGet d.mem.mem1 (windowOff c h a)
  | .unmapped => 0

/-! ### Addressing modes -/

/-- The bits of o reversed over n bits. -/
def revBits (n o : Nat) : Nat := (List.range n).foldl (fun a i => a * 2 + o / 2 ^ i % 2) 0

/-- A step under a modifier (R190 to R192); none where its type is reserved. -/
def stepAddr (m an : Nat) (s : Int) : Option Nat :=
  let base : Nat := m / 2 ^ 15 % 2 ^ 15
  let rel : Int := (an : Int) - (base : Int)
  match m / 2 ^ 30 with
  | 0 => some (code 24 ((an : Int) + s))
  | 1 =>
    let len : Nat := if m % 2 ^ 15 = 0 then 32768 else m % 2 ^ 15
    some (code 24 ((base : Int) + (rel + s) % (len : Int)))
  | 2 =>
    let n : Nat := m % 16
    if n = 0 then some (code 24 ((an : Int) + s))
    else
      let o : Nat := code 24 rel
      let p : Nat := 2 ^ n
      let low : Nat := revBits n ((revBits n (o % p) + revBits n (code 24 s % p)) % p)
      some ((base + o / p * p + low) % 2 ^ 24)
  | _ => none

/-- Bit of VEC.FAULT: control bundle in a delay slot. -/
abbrev fSlot : Nat := 7
/-- Bit of VEC.FAULT: REP misused. -/
abbrev fRep : Nat := 6
/-- Bit of VEC.FAULT: window. -/
abbrev fWindow : Nat := 5
/-- Bit of VEC.FAULT: call stack. -/
abbrev fStack : Nat := 4
/-- Bit of VEC.FAULT: unmapped. -/
abbrev fUnmapped : Nat := 3
/-- Bit of VEC.FAULT: protect. -/
abbrev fProtect : Nat := 2
/-- Bit of VEC.FAULT: mode. -/
abbrev fMode : Nat := 1
/-- Bit of VEC.FAULT: illegal. -/
abbrev fIllegal : Nat := 0

/-- The address that a move uses and An afterwards, if it is updated (Table 9-4); none is a program fault of cause MODE. -/
def moveAddr (c : VecCore) (h : Bool) (an mode nsel : Nat) : Option (Nat × Option Nat) :=
  let a := regSeen c h .addr (32 + an % 8)
  let m := regSeen c h .addr (48 + an % 8)
  let n := sext 24 (regSeen c h .addr (40 + nsel % 8))
  match mode with
  | 0 => if nsel = 0 then some (a, none) else none
  | 1 => if nsel = 0 then (stepAddr m a 1).map fun b => (a, some b) else none
  | 2 => if nsel = 0 then (stepAddr m a (-1)).map fun b => (a, some b) else none
  | 3 => (stepAddr m a n).map fun b => (a, some b)
  | 4 => (stepAddr m a (-n)).map fun b => (a, some b)
  | 5 => (stepAddr m a n).map fun b => (b, none)
  | 6 => (stepAddr m a n).map fun b => (b, some b)
  | _ => none

/-! ### What a field of a bundle does -/

/-- The effects of one field: causes of a program fault, register writes, stores, and whether a window read is among them. -/
structure VecFx where
  /-- Causes, as bits of VEC.FAULT. -/
  faults : List Nat := []
  /-- Register, writer, value. -/
  writes : List (Nat × VecWriter × Nat) := []
  /-- Stores: Y side, word address, word. -/
  stores : List (Bool × Nat × Word) := []
  /-- A read of the external window. -/
  reads : Bool := false
  /-- The access to MEM1 that draws an error response: a write or not, channel offset. -/
  refused : Option (Bool × Nat) := none
  deriving DecidableEq, Repr

/-- The write-back of An. -/
def postWrite (an : Nat) (u : Option Nat) : List (Nat × VecWriter × Nat) :=
  match u with
  | none => []
  | some v => [(32 + an % 8, .post, v)]

/-- A load (R188, R190). -/
def loadFx (d : Dev) (core : Nat) (c : VecCore) (h yside : Bool) (reg an mode nsel : Nat) : VecFx :=
  if reg ≥ 24 then { faults := [fIllegal] }
  else
    match moveAddr c h an mode nsel with
    | none => { faults := [fMode] }
    | some (a, u) =>
      let w := vecLoad d core c h yside a
      let v := if reg < 16 then w.toNat else accOfWord w
      match vecPlace a with
      | .unmapped => { faults := [fUnmapped] }
      | .table | .own => { writes := (reg, .move, v) :: postWrite an u }
      | .shared => { writes := (reg, .far, v) :: postWrite an u }
      | .window =>
        if mem1Open d (windowOff c h a) 4 then { writes := (reg, .far, v) :: postWrite an u, reads := true }
        else { faults := [fWindow], refused := some (false, windowOff c h a) }

/-- A word that leaves a D register or an accumulator by a move or a store, and the sticky flag if it saturated (R187). -/
def sourceWord (c : VecCore) (h : Bool) (reg : Nat) : Word × List (Nat × VecWriter × Nat) :=
  if reg < 16 then (dSeen c h reg, [])
  else
    let m := scaledMove (accSeen c h .accSrc (reg - 16)) (scaleSeen c h)
    (m.1, if m.2 then [(rSL, .sticky, 1)] else [])

/-- A store (R187, R190). -/
def storeFx (d : Dev) (c : VecCore) (h yside : Bool) (reg an mode nsel : Nat) : VecFx :=
  if reg ≥ 24 then { faults := [fIllegal] }
  else
    match moveAddr c h an mode nsel with
    | none => { faults := [fMode] }
    | some (a, u) =>
      let s := sourceWord c h reg
      match vecPlace a with
      | .unmapped => { faults := [fUnmapped] }
      | .table | .shared => { faults := [fProtect] }
      | .own => { writes := s.2 ++ postWrite an u, stores := [(yside, a, s.1)] }
      | .window =>
        if mem1Open d (windowOff c h a) 4 then { writes := s.2 ++ postWrite an u, stores := [(yside, a, s.1)] }
        else { faults := [fWindow], refused := some (true, windowOff c h a) }

/-- A register move (R187, R188). -/
def regMoveFx (c : VecCore) (h : Bool) (dst src : Nat) : VecFx :=
  if dst ≥ 24 ∨ src ≥ 24 then { faults := [fIllegal] }
  else if dst < 16 then
    let s := sourceWord c h src
    { writes := (dst, .move, s.1.toNat) :: s.2 }
  else if src < 16 then { writes := [(dst, .move, accOfWord (dSeen c h src))] }
  else { writes := [(dst, .move, code 56 (accSeen c h .accSrc (src - 16)))] }

/-- The move field of MOV's command: none moves nothing. -/
def movField (dst : Option Nat) (src : Nat) : MoveField := match dst with
  | none => .none
  | some r => .mov r src

/-- A move field (Table 9-10). -/
def moveFx (d : Dev) (core : Nat) (c : VecCore) (h yside : Bool) (m : MoveField) : VecFx :=
  match m with
  | .none => {}
  | .load reg an mode nsel => loadFx d core c h yside reg an mode nsel
  | .store reg an mode nsel => storeFx d c h yside reg an mode nsel
  | .mov dst src => regMoveFx c h dst src

/-- The AGU field (Table 9-11). -/
def aguFx (c : VecCore) (h : Bool) (g : AguField) : VecFx :=
  let a := regSeen c h .agu (32 + g.an % 8)
  let m := regSeen c h .agu (48 + g.an % 8)
  let n := sext 24 (regSeen c h .agu (40 + g.an % 8))
  let step := fun (s : Int) =>
    match stepAddr m a s with
    | none => ({ faults := [fMode] } : VecFx)
    | some v => { writes := [(32 + g.an % 8, .agu, v)] }
  match g.aop with
  | 0 => {}
  | 1 => step n
  | 2 => step (-n)
  | 3 => step 1
  | 4 => step (-1)
  | _ => { faults := [fIllegal] }

end Sys2Proof.Machine
end

