-- ==== Sys2Proof/Machine/Wd.lean ====
section
/-!
DEFINITION. Sys2Proof/Machine/Wd.lean: the work dispatcher's queue, producers, credits and records (R213 to R218, R225 to R233)
and the cores that its items run on.
-/
namespace Sys2Proof.Machine

/-! ### Cores -/

/-- A core. -/
def coreOf (d : Dev) (core : Nat) : VecCore := mapGet (fun _ => ({} : VecCore)) d.vec.cores core

/-- Replaces a core. -/
def setCore (d : Dev) (core : Nat) (c : VecCore) : Dev :=
  { d with vec := { d.vec with cores := mapSet (fun _ => ({} : VecCore)) d.vec.cores core c } }

/-- STATE of a core: 0 gated, 1 idle, 2 staging in, 3 running, 4 staging out, 5 cluster substituted. -/
def coreState (d : Dev) (core : Nat) : Nat := liveF d (offVecCoreState core) 2 0

/-- Sets STATE. -/
def setCoreState (d : Dev) (core v : Nat) : Dev := liveSetF d (offVecCoreState core) 2 0 v

/-- An event handler runs on a core (SR.HND). -/
def inHandler (d : Dev) (core : Nat) : Bool := liveB d (offVecCoreState core) 4

/-- Active position of a core: 4 x active cluster position + core; none at the moon or a retired cluster (R236). -/
def posOf (d : Dev) (core : Nat) : Option Nat :=
  ((List.range 8).find? fun p => d.vec.places.getD p none = some (core / 4)).map fun p => 4 * p + core % 4

/-- The producer through which a core submits (R217): its active position, or while it drains its item that which it had (R233). -/
def prodOf (d : Dev) (core : Nat) : Option Nat := match posOf d core with
  | some p => some p
  | none => if (coreOf d core).item.isSome then some (coreOf d core).pos else none

/-- The core at an active position. -/
def coreAt (d : Dev) (pos : Nat) : Option Nat := (d.vec.places.getD (pos / 4) none).map fun k => 4 * k + pos % 4

/-- The core holds no item, runs no handler and is awake or gated (R226). -/
def coreIdle (d : Dev) (core : Nat) : Bool :=
  decide (coreState d core ≤ 1) && !(inHandler d core) && (coreOf d core).item.isNone

/-- Every write and store in flight has landed: at the end of an item. -/
def settleAll (c : VecCore) : VecCore :=
  { c with
    regs := c.flight.foldr (fun w m => mapSet (fun _ => 0) m w.reg w.val) c.regs
    flight := []
    xmem := c.stores.foldr (fun s m => if s.yside then m else mapSet word0 m s.addr s.val) c.xmem
    ymem := c.stores.foldr (fun s m => if s.yside then mapSet word0 m s.addr s.val else m) c.ymem
    stores := [] }

/-! ### Items -/

/-- Word i of a descriptor. -/
def itemW (it : WorkItem) (i : Nat) : Word := it.words.getD i 0

/-- KERNEL. -/
def itemKernel (it : WorkItem) : Nat := bits (itemW it 0) 31 16

/-- PRIORITY. -/
def itemPrio (it : WorkItem) : Nat := bits (itemW it 0) 15 12

/-- KIND. -/
def itemKind (it : WorkItem) : Nat := bits (itemW it 0) 11 8

/-- STATE_ADDR as an offset of MEM1. -/
def itemStateOff (it : WorkItem) : Nat := (itemW it 5).toNat * 16

/-- STATE_LEN. -/
def itemStateLen (it : WorkItem) : Nat := bits (itemW it 6) 29 16

/-- Stage of an insert item. -/
def itemStage (it : WorkItem) : Nat := itemKind it - 1

/-- Group of an insert item. -/
def itemGroup (it : WorkItem) : Nat := bits (itemW it 1) 10 0

/-- Block epoch of an insert item, its low 32 bits. -/
def itemBlock (it : WorkItem) : Nat := (itemW it 4).toNat

/-- WD runs (R217, R242). -/
def wdRuns (d : Dev) : Bool := running d blkWd && d.wd.started

/-- Ready items of a producer. -/
def readyOf (d : Dev) (p : Nat) : Nat := (d.wd.ready.filter fun it => decide (it.prod = p)).length

/-- Groups of a stage. -/
def groupsOf (d : Dev) (s : Nat) : Nat := (d.wd.groups.filter fun g => decide (g.stage = s)).length

/-- Credits of a producer (R217): none while WD does not run (R242). -/
def creditsOf (d : Dev) (p : Nat) : Nat :=
  if !(wdRuns d) then 0 else if p < 34 then liveF d (offWdProdCfg p) 12 0 else groupsOf d (p - 34)

/-- Free credits of a producer. -/
def creditsFree (d : Dev) (p : Nat) : Nat := creditsOf d p - readyOf d p

/-- Total of the configured credits and all insert groups. -/
def creditTotal (d : Dev) (groups : Nat) : Nat :=
  (List.range 34).foldl (fun a p => a + liveF d (offWdProdCfg p) 12 0) groups

/-- WD starts, unless its credits exceed 4,096 (R217). -/
def wdStart (d : Dev) : Dev :=
  let t := creditTotal d d.wd.groups.length
  if t ≤ 4096 then { d with wd := { d.wd with started := true } }
  else
    let d := liveSetB d offWdStatus 3 true
    raiseErr d (srcOf blkWd 0) 0x0107 (BitVec.ofNat 32 t) 0

/-- WD stops: the ready list empties (R242). -/
def wdStop (d : Dev) : Dev := { d with wd := { d.wd with started := false, ready := [] } }

/-- An enqueue takes the next sequence number (R226). -/
def enqueue (d : Dev) (words : List Word) (prod : Nat) : Dev :=
  { d with wd := { d.wd with ready := d.wd.ready ++ [⟨words, prod, d.wd.seq⟩], seq := (d.wd.seq + 1) % 2 ^ 32 } }

/-- Raises the completion event of an item: sources below 128 are raised by their hardware alone (R241). -/
def raiseCompletion (d : Dev) (it : WorkItem) : Dev :=
  let s := bits (itemW it 6) 9 0
  if bit (itemW it 0) 1 = true ∧ s ≥ 128 then raiseEvt d s else d

/-- Writes the completion record of a program item (R232): results 0 DONE, 1 CANCELLED, 2 FAULT, 3 ABORTED, 4 BAD; pos is 63
if the item never ran. -/
def writeRecord (d : Dev) (it : WorkItem) (result pos : Nat) : Dev :=
  let r := liveF d offWdCqHead 7 0
  let cyc : Word := if pos = 63 then 0 else Config.cycles 0 d.wd.records
  let w1 := BitVec.ofNat 32 (result * 2 ^ 28 + pos * 2 ^ 22 + it.prod * 2 ^ 16 + itemKernel it)
  let d := liveSet d (offWdCq r 0) (itemW it 1)
  let d := liveSet d (offWdCq r 1) w1
  let d := liveSet d (offWdCq r 2) (BitVec.ofNat 32 d.epc.epoch)
  let d := liveSet d (offWdCq r 3) cyc
  let d := liveSetF d offWdCqHead 7 0 (r + 1)
  let d := if d.wd.records ≥ 256 then bump d offWdCqOverwrite else d
  let d := raiseOwn { d with wd := { d.wd with records := d.wd.records + 1 } } 6
  if result = 0 ∨ result = 2 ∨ result = 3 then raiseCompletion d it else d

/-- A descriptor that a producer other than an insert stage may submit (R214). -/
def descriptorOk (d : Dev) (words : List Word) : Bool :=
  let w := fun (i : Nat) => words.getD i 0
  decide (bits (w 0) 11 8 = 0 ∧ bits (w 0) 7 2 = 0 ∧ bits (w 0) 0 0 = 0 ∧ bits (w 3) 31 30 = 0 ∧ bits (w 3) 15 14 = 0 ∧
    bits (w 6) 31 30 = 0 ∧ bits (w 6) 15 10 = 0 ∧ bits (w 3) 29 16 ≤ 16376 ∧ bits (w 3) 13 0 ≤ 8192 ∧
    bits (w 6) 29 16 ≤ 8192) &&
  d.wd.kernels.any fun k => decide (k.1 = bits (w 0) 31 16)

/-- A submission through a producer that has a credit (R214, R218): enqueued, or answered BAD. -/
def submitDesc (d : Dev) (words : List Word) (prod : Nat) : Dev :=
  if descriptorOk d words then enqueue d words prod else writeRecord d ⟨words, prod, d.wd.seq⟩ 4 63

/-- What of an interrupted item was in flight when its core accepted an event is in flight again, as far as it was then: the handler's
bundles count for no distance of the item's (R207, assumption log entry 241). -/
def unpark (c : VecCore) : VecCore :=
  { c with
    regs := c.parked.foldl (fun m w => mapSet (fun _ => 0) m w.1.reg w.2) c.regs
    flight := c.parked.map fun w => { w.1 with k := w.1.k + (c.issued - c.parkedAt) }
    xmem := c.parkedStores.foldl (fun m s => if s.1.yside then m else mapSet word0 m s.1.addr s.2) c.xmem
    ymem := c.parkedStores.foldl (fun m s => if s.1.yside then mapSet word0 m s.1.addr s.2 else m) c.ymem
    stores := c.parkedStores.map fun s => { s.1 with k := s.1.k + (c.issued - c.parkedAt) }
    parked := [], parkedStores := [] }

/-- A handler ends: its own writes land, the sets are swapped back and the core resumes at ERA (R205, R207). -/
def leaveHandler (d : Dev) (core : Nat) : Dev :=
  let c := unpark (settleAll (coreOf d core))
  liveSetB (setCore d core { c with pc := c.era, wait := none, xfer := none, rep := none }) (offVecCoreState core) 4 false

/-- A range of a vector-program payload: space, first address and words or bundles. -/
abbrev VecRange := Nat × Nat × List Nat

/-- A range is written into one core. -/
def loadCore (c : VecCore) (r : VecRange) : VecCore :=
  let ws := r.2.2.map fun v => BitVec.ofNat 32 v
  match r.1 with
  | 0 => { c with prog := mapSetRun (fun _ => 0) c.prog r.2.1 r.2.2 }
  | 1 => { c with xmem := mapSetRun word0 c.xmem r.2.1 ws }
  | 2 => { c with ymem := mapSetRun word0 c.ymem r.2.1 ws }
  | _ => c

/-- A core that is between items takes the ranges of a reload that it still lacks (R390). -/
def coreLoad (core : Nat) (d : Dev) : Dev :=
  match d.vec.load with
  | none => d
  | some (l, ks) =>
    if ks.contains core && (coreOf d core).item.isNone then
      let d := setCore d core (l.foldl loadCore (coreOf d core))
      { d with vec := { d.vec with load := some (l, setDel ks core) } }
    else d

/-- A core's item ends: a program item writes its record; the core is idle, or powers down where a planned replacement has taken its
position (R369). With `kept` the item leaves an affinity record (R227). -/
def endItem (d : Dev) (core result : Nat) (kept : Bool) : Dev :=
  let h := inHandler d core
  let c := if h then coreOf d core else settleAll (coreOf d core)
  match c.item with
  | none => d
  | some it =>
    let pos := (posOf d core).getD c.pos
    let c := { c with item := none, ended := false, waking := false,
                      affinity := if kept then some (itemKernel it, (itemW it 5).toNat) else none, parked := [], parkedStores := [] }
    let c := if h then c else { c with wait := none, xfer := none, rep := none }
    let d := setCoreState (setCore d core c) core
      (if coreState d core = 5 then 5 else if (posOf d core).isNone && !h then 0 else 1)
    coreLoad core (if itemKind it = 0 then writeRecord d it result pos else d)

/-! ### Dispatch -/

/-- A sorts before b in the ready list's order (R226). -/
def readyBefore (a b : WorkItem) : Bool :=
  decide (itemPrio a > itemPrio b ∨ (itemPrio a = itemPrio b ∧ a.seq < b.seq))

/-- The insert item's group has an item that has not completed (R216). -/
def groupBusy (d : Dev) (it : WorkItem) : Bool :=
  decide (itemKind it ≠ 0) && d.vec.cores.any fun p =>
    match p.2.item with
    | none => false
    | some j => decide (itemKind j = itemKind it ∧ itemGroup j = itemGroup it)

/-- The item that WD dispatches next. -/
def nextItem (d : Dev) : Option WorkItem :=
  d.wd.ready.foldl (fun best it =>
    if groupBusy d it then best
    else match best with
      | none => some it
      | some b => if readyBefore it b then some it else some b) none

/-- WD dispatches in ordered mode (R228, R229). -/
def orderedMode (d : Dev) : Bool := actB d offWdCtrl 1 || d.wd.recovery

/-- Positions at which WD may use a core. -/
def openPositions (d : Dev) : List Nat :=
  (List.range 32).filter fun p => (coreAt d p).isSome && !(d.vec.away.contains p)

/-- How WD ranks an idle core for an item (R227, R228): a lower number is preferred. -/
def coreRank (d : Dev) (it : WorkItem) (pos core : Nat) : Nat :=
  if orderedMode d then pos
  else
    let step := match (coreOf d core).affinity with
      | none => 2
      | some a => if a.1 ≠ itemKernel it then 2 else if a.2 = (itemW it 5).toNat then 0 else 1
    step * 64 + (if coreState d core = 0 then 32 else 0) + pos

/-- The core that WD chooses. -/
def chooseCore (d : Dev) (it : WorkItem) : Option Nat :=
  let l := (openPositions d).filterMap fun p =>
    match coreAt d p with
    | none => none
    | some k => if coreIdle d k then some (coreRank d it p k, k) else none
  (l.foldl (fun (b : Option (Nat × Nat)) x =>
    match b with
    | none => some x
    | some y => if x.1 < y.1 then some x else some y) none).map fun x => x.2

/-- WD chooses one item and one core and dispatches (R225 to R228). -/
def dispatchOne (d : Dev) : Dev :=
  if !(wdRuns d && running d blkVec) then d
  else
    match nextItem d with
    | none => d
    | some it =>
      match chooseCore d it with
      | none => d
      | some k =>
        let gated := coreState d k = 0
        let c := coreOf d k
        let d := setCore d k { c with item := some it, ended := false, waking := decide gated, pos := (posOf d k).getD 63 }
        let d := if gated then d else setCoreState d k 2
        let d := liveSetF d (offVecCoreState k) 23 8 (itemKernel it)
        let d := { d with wd := { d.wd with ready := d.wd.ready.filter fun j => decide (j ≠ it) } }
        let d := bump d offWdDispatchCount
        if itemKind it = 0 then d
        else liveSetF d (offWdGroupStatus (itemGroup it)) 5 0 ((posOf d k).getD 0)

/-- DISPATCH (R226). -/
def execDispatch (s : State) : Host.Outcome State Fault Refusal := ran s dispatchOne

/-! ### Cancel -/

/-- The core's item has issued its END; its delay slots may be to come (R222, R231). -/
def endIssued (c : VecCore) : Bool := c.ended || match c.xfer with
  | some (_, .finish) => true
  | _ => false

/-- The item has issued neither END nor anything that puts it beyond a cancel or a cutoff. -/
def coreAbortable (d : Dev) (core : Nat) : Bool :=
  (coreOf d core).item.isSome && !(endIssued (coreOf d core)) && decide (coreState d core ≠ 4)

/-- Aborts the items of cores that satisfy a test (R222, R231); with `all` a handler that runs upon such an item too. -/
def abortItems (d : Dev) (result : Nat) (all : Bool) (p : WorkItem → Bool) : Dev :=
  (List.range 36).foldl (fun d core =>
    match (coreOf d core).item with
    | none => d
    | some it =>
      if coreAbortable d core && p it then endItem (if all && inHandler d core then leaveHandler d core else d) core result true else d) d

/-- Removes ready program items that satisfy a test, each with a CANCELLED record (R231); while WD does not run the list is empty
(R242). -/
def removeReady (d : Dev) (p : WorkItem → Bool) : Dev :=
  let gone := d.wd.ready.filter p
  let d := { d with wd := { d.wd with ready := d.wd.ready.filter fun it => !(p it) } }
  gone.foldl (fun d it => writeRecord d it 1 63) d

/-- CANCEL (R231); a Fatal error has stopped WD and every core (R422). -/
def execCancel (tag : Word) (s : State) : Host.Outcome State Fault Refusal :=
  ran s fun d =>
    let hit := fun (it : WorkItem) => decide (itemKind it = 0 ∧ itemW it 1 = tag)
    if fatal d then d else abortItems (removeReady d hit) 1 true hit

/-- CANCEL_PROD (R231). -/
def execCancelProd (prod : Nat) (s : State) : Host.Outcome State Fault Refusal :=
  ranIf (decide (prod < 34)) s fun d => removeReady d fun it => decide (itemKind it = 0 ∧ it.prod = prod)

/-- SUBMIT_GO (R218). -/
def execSubmitGo (s : State) : Host.Outcome State Fault Refusal :=
  ran s fun d =>
    if creditsFree d 33 = 0 then bump d offWdSubmitRefused
    else submitDesc d ((List.range 8).map fun w => mapGet word0 d.wd.submit w) 33

/-! ### Gating -/

/-- A gated core's wake begins (R230), while VEC runs (R212). -/
def startWake (d : Dev) (core : Nat) : Dev :=
  if coreState d core = 0 ∧ running d blkVec = true then setCore d core { coreOf d core with waking := true } else d

/-- Sets STATE of a core that loses or gains its power within an epoch, which its counter block notes (R417). -/
def powerCore (d : Dev) (core v : Nat) : Dev :=
  setCoreState { d with perf := { d.perf with mixed := setIns d.perf.mixed (20 + core) } } core v

/-- CORE_GATE (R230): the core has been idle for 12,000 VEC cycles in normal mode with GATE_IDLE set. The moon's power is its patrol's
(R371). -/
def execCoreGate (core : Nat) (s : State) : Host.Outcome State Fault Refusal :=
  ranIf (decide (core < 36)) s fun d =>
    if running d blkVec && actB d offWdCtrl 2 && !(orderedMode d) && decide (coreState d core = 1) && coreIdle d core && (posOf d core).isSome
    then powerCore d core 0 else d

/-- CORE_WAKE_DONE (R230). -/
def execCoreWakeDone (core : Nat) (s : State) : Host.Outcome State Fault Refusal :=
  ranIf (decide (core < 36)) s fun d =>
    let c := coreOf d core
    if c.waking && running d blkVec && decide (coreState d core = 0) then
      powerCore (setCore d core { c with waking := false }) core (if c.item.isSome then 2 else 1)
    else d

end Sys2Proof.Machine
end

