-- ==== Sys2Proof/Machine/Evt.lean ====
section
/-!
DEFINITION. Sys2Proof/Machine/Evt.lean: the event controller (R205, R206, R234 to R242).
-/
namespace Sys2Proof.Machine

/-- Pending bit of a source. -/
def evtPending (d : Dev) (s : Nat) : Bool := liveB d (offEvtPend (s / 32)) (s % 32)

/-- Mask bit of a source. -/
def evtMasked (d : Dev) (s : Nat) : Bool := liveB d (offEvtMask (s / 32)) (s % 32)

/-- A source is deliverable: pending, unmasked and out of holdoff (R235). -/
def deliverable (d : Dev) (s : Nat) : Bool := evtPending d s && !(evtMasked d s) && !(d.evt.holdoff.contains s)

/-- PRIORITY of an event source. -/
def evtPrio (d : Dev) (s : Nat) : Nat := actF d (offEvtSrcCfg s) 23 20

/-- Deliverable sources, highest priority first and then lowest number (R236). -/
def evtOrder (d : Dev) : List Nat :=
  let l := (List.range 1024).filter (deliverable d)
  (List.range 16).flatMap fun q => l.filter fun s => decide (evtPrio d s = 15 - q)

/-- Current priority of a core (R236); none while it runs a handler. -/
def corePrio (d : Dev) (core : Nat) : Option Int :=
  if inHandler d core then none
  else match (coreOf d core).item with
    | some it => if coreState d core = 0 then some (-1) else some (itemPrio it : Int)
    | none => some (if coreState d core = 0 then -1 else -2)

/-- What a delivery does to its source: its pending bit is cleared and its holdoff starts (R235, R237). -/
def delivered (d : Dev) (s : Nat) : Dev :=
  let d := liveSetB d (offEvtPend (s / 32)) (s % 32) false
  if actF d (offEvtSrcHoldoff s) 11 0 = 0 then d
  else { d with evt := { d.evt with holdoff := setIns d.evt.holdoff s } }

/-- A core can accept an offer (R205): at a bundle boundary, outside REP and delay slots and handlers, and while its cluster
stages no item. -/
def canAccept (d : Dev) (core : Nat) : Bool :=
  let c := coreOf d core
  let staging := (List.range 4).any fun i =>
    let st := coreState d (core / 4 * 4 + i)
    decide (st = 2 ∨ st = 4)
  let boundary := match c.wait with
    | none => true
    | some (.credit, _) => true
    | _ => false
  running d blkVec && !(inHandler d core) && decide (coreState d core = 1 ∨ coreState d core = 3) && !staging && boundary &&
    c.rep.isNone && c.xfer.isNone

/-- A core accepts an event (R205): ERA takes the address of the next bundle, the sets are swapped, shadow D0 takes the source
and the handler is entered. What the item has in flight is set aside beside it (R206, R207). -/
def acceptEvent (d : Dev) (core s : Nat) : Dev :=
  let c := coreOf d core
  let c := { c with era := c.pc, wait := none, pc := actF d (offEvtSrcCfg s) 12 0,
                    parked := c.flight.map fun w => (w, mapGet (fun _ => 0) c.regs w.reg),
                    parkedStores := c.stores.map fun s => (s, mapGet word0 (if s.yside then c.ymem else c.xmem) s.addr),
                    parkedAt := c.issued,
                    regs := mapSet (fun _ => 0) c.regs 64 s,
                    accepted := (c.accepted ++ [s]).take 64 }
  perfHit (liveSetB (setCore d core c) (offVecCoreState core) 4 true) (20 + core) 0x15 1

/-- The best position for an offer among candidates: lowest current priority, then lowest position (R236). -/
def bestPos (d : Dev) (prio : Nat) (used : List Nat) (l : List Nat) : Option Nat :=
  (l.foldl (fun (b : Option (Int × Nat)) p =>
    match (coreAt d p).bind (corePrio d) with
    | none => b
    | some q =>
      if used.contains p ∨ ¬ ((prio : Int) > q) then b
      else match b with
        | none => some (q, p)
        | some x => if q < x.1 then some (q, p) else some x) none).map fun x => x.2

/-- Positions to which EVT may offer (R239). -/
def offerPositions (d : Dev) : List Nat := (openPositions d).filter fun p => !(d.vec.closing.contains p)

/-- Offers one source of action vector handler (R236, R239): the device and the positions that have had an offer. -/
def offerVector (a : Dev × List Nat) (s : Nat) : Dev × List Nat :=
  let d := a.1
  let cfg := actGet d (offEvtSrcCfg s)
  let routed := bit cfg 29
  let want := bits cfg 28 24
  let gone := routed && (d.vec.places.getD (want / 4) none).isNone
  let cands := if routed && !gone then (if (offerPositions d).contains want then [want] else []) else offerPositions d
  match bestPos d (evtPrio d s) a.2 cands with
  | none => a
  | some p =>
    match coreAt d p with
    | none => a
    | some k =>
      let d := if gone then liveSetB d offEvtStatus 1 true else d
      if canAccept d k then
        let d := delivered (acceptEvent d k s) s
        (if gone then bump d offEvtRerouteCount else d, p :: a.2)
      else (startWake d k, p :: a.2)

/-- Offers one source to a supervisor core (R234, R236): supervisor positions are numbered from 100 here. -/
def offerSupervisor (a : Dev × List Nat) (s : Nat) : Dev × List Nat :=
  let cfg := actGet a.1 (offEvtSrcCfg s)
  let cands := if bit cfg 29 then (if bits cfg 28 24 < 4 then [100 + bits cfg 28 24] else []) else [100, 101, 102, 103]
  match cands.find? fun p => !(a.2.contains p) with
  | none => a
  | some p => (delivered a.1 s, p :: a.2)

/-- Delivers one source of action item (R218, R234): the enqueue of its template through producer 32. -/
def offerItem (a : Dev × List Nat) (s : Nat) : Dev × List Nat :=
  let d := a.1
  if creditsFree d 32 = 0 then a
  else
    let t := actF d (offEvtSrcCfg s) 19 16
    let ws := (List.range 8).map fun w =>
      let v := actGet d (offWdTemplate t w)
      if w = 1 then setBits v 9 0 s else v
    (submitDesc (delivered d s) ws 32, a.2)

/-- Offers of one SYS cycle (R236). -/
def eventOffers (d : Dev) : Dev :=
  if running d blkEvt then
    ((evtOrder d).foldl (fun (a : Dev × List Nat) s =>
      match actF d (offEvtSrcCfg s) 31 30 with
      | 0 => offerVector a s
      | 1 => offerSupervisor a s
      | _ => offerItem a s) (d, [])).1
  else d

/-- EVENT_OFFER (R236). -/
def execEventOffer (s : State) : Host.Outcome State Fault Refusal := ran s eventOffers

/-- EVENT_HOLDOFF_EXPIRY (R237, R238): the source may be offered again; a pending source whose only candidate is a gated core
wakes it. -/
def execEventHoldoffExpiry (source : Nat) (s : State) : Host.Outcome State Fault Refusal :=
  ranIf (decide (source < 1024)) s fun d =>
    if d.evt.holdoff.contains source then
      let d := { d with evt := { d.evt with holdoff := setDel d.evt.holdoff source } }
      let cfg := actGet d (offEvtSrcCfg source)
      match coreAt d (bits cfg 28 24) with
      | some k =>
        if running d blkEvt && deliverable d source && decide (bits cfg 31 30 = 0) && bit cfg 29 then startWake d k else d
      | none => d
    else d

/-- EVENT_RAISE (R235): a hardware source of Table 10-5 is raised by its hardware; the reserved ones never are (R241). After a Fatal error
the epoch start alone is left: every other source lies in a region that raises no events (R16). -/
def execEventRaise (source : Nat) (s : State) : Host.Outcome State Fault Refusal :=
  ranIf (decide (source < 1024)) s fun d => if source ≤ 40 then raiseOwn d source else d

/-- PEND_SET (R235). -/
def execPendSet (source : Nat) (s : State) : Host.Outcome State Fault Refusal :=
  ranIf (decide (source < 1024)) s fun d => raiseEvt d source

/-- PEND_CLR (R235, R240). -/
def execPendClr (source : Nat) (s : State) : Host.Outcome State Fault Refusal :=
  ranIf (decide (source < 1024)) s fun d => liveSetB d (offEvtPend (source / 32)) (source % 32) false

/-- MASK_SET (R240). -/
def execMaskSet (source : Nat) (s : State) : Host.Outcome State Fault Refusal :=
  ranIf (decide (source < 1024)) s fun d => liveSetB d (offEvtMask (source / 32)) (source % 32) true

/-- MASK_CLR (R235, R240). -/
def execMaskClr (source : Nat) (s : State) : Host.Outcome State Fault Refusal :=
  ranIf (decide (source < 1024)) s fun d => liveSetB d (offEvtMask (source / 32)) (source % 32) false

/-- What EVT keeps of a core, as EVT.CORE_PRI shows it: its current priority, a handler that runs, a core that is gated (R238). -/
def corePriWord (d : Dev) (k : Nat) : Word :=
  let gated := decide (coreState d k = 0)
  let q := if gated then (-1 : Int)
    else match (coreOf d k).item with
      | some it => (itemPrio it : Int)
      | none => -2
  BitVec.ofNat 32 (code 5 q + (if inHandler d k then 256 else 0) + (if gated then 512 else 0))

/-- EVT.CORE_PRI of every position, at a snapshot. -/
def corePriReport (d : Dev) : Dev :=
  (List.range 32).foldl (fun d p =>
    match coreAt d p with
    | none => d
    | some k => liveSet d (offEvtCorePri p) (corePriWord d k)) d

end Sys2Proof.Machine
end

