-- ==== Sys2Proof/Machine/Flags.lean ====
section
/-!
DEFINITION. Sys2Proof/Machine/Flags.lean: the arithmetic of the vector core and every flag it computes: the multiplier and the
accumulators (R185, R186), the ALU (R189, Table 9-12) and the status word (Table 9-2).
-/
namespace Sys2Proof.Machine

/-- A product of two words as Q1.31, in Q9.47 (R185). -/
def product (s t : Word) : Int := rshr (sext 32 s.toNat * sext 32 t.toNat) 15

/-- The write of an accumulator result, saturated, with SA if it saturated (R186). -/
def accWrite (reg : Nat) (v : Int) : List (Nat × VecWriter × Nat) :=
  (reg, .mac, code 56 (satS 56 v)) :: (if overS 56 v then [(rSA, .sticky, 1)] else [])

/-- What one lane of a MAC field makes of its accumulator and its product. -/
def macLane (op : MacOp) (acc p : Int) : Int :=
  match op with
  | .nop => acc
  | .mpy => p
  | .mac => acc + p
  | .msu => acc - p
  | .mpyn => -p
  | .clr => 0
  | .rnd => rshr acc 16 * 2 ^ 16

/-- A MAC field (Table 9-9): its L lanes. -/
def macFx (c : VecCore) (h : Bool) (op : MacOp) (form s t a lanes : Nat) : VecFx :=
  match op with
  | .nop => {}
  | _ =>
    let ignored := op = .clr ∨ op = .rnd
    if lanes < 1 ∨ lanes > 4 ∨ (form > 1 ∧ ¬ ignored) then { faults := [fIllegal] }
    else
      { writes := (List.range lanes).flatMap fun i =>
          let r := (a + i) % 8
          let p := product (dSeen c h (s + i)) (dSeen c h (if form = 0 then t + i else t))
          accWrite (16 + r) (macLane op (accSeen c h .acc r) p) }

/-- Z and N of a 32-bit result. -/
def flagsZN (r : Word) : List (Nat × VecWriter × Nat) :=
  [(rZ, .flags, if r = 0 then 1 else 0), (rN, .flags, if r.msb then 1 else 0)]

/-- V. -/
def flagV (v : Bool) : List (Nat × VecWriter × Nat) := [(rV, .flags, v.toNat)]

/-- A wrapping result: the low 32 bits of the exact one, and whether that did not fit. -/
def wrap32 (x : Int) : Word × Bool := (wordOf x, decide (sext 32 (wordOf x).toNat ≠ x))

/-- A saturating result, and whether it saturated. -/
def sat32 (x : Int) : Word × Bool := (wordOf (satS 32 x), overS 32 x)

/-- Redundant sign bits of a word, 0 to 31: the bits below the sign bit that equal it, counted from the top. -/
def redundantSigns (w : Word) : Nat :=
  let x := sext 32 w.toNat
  let m := (if x < 0 then -x - 1 else x).toNat
  if m = 0 then 31 else 30 - Nat.log2 m

/-- The ALU field (Table 9-12). -/
def aluFx (c : VecCore) (h : Bool) (op : AluOp) (dst s1 s2 : Nat) : VecFx :=
  let w1 := dSeen c h s1
  let w2 := dSeen c h s2
  let a := sext 32 w1.toNat
  let b := sext 32 w2.toNat
  let d := dst % 16
  let put := fun (w : Word) => [(d, VecWriter.alu, w.toNat)]
  let full := fun (r : Word × Bool) => ({ writes := put r.1 ++ flagsZN r.1 ++ flagV r.2 } : VecFx)
  let withV := fun (r : Word × Bool) => ({ writes := put r.1 ++ flagV r.2 } : VecFx)
  let bitwise := fun (r : Word) => ({ writes := put r ++ flagsZN r } : VecFx)
  let plain := fun (r : Word) => ({ writes := put r } : VecFx)
  let low := fun (r : Nat) (fx : VecFx) => if r ≥ 8 then ({ faults := [fIllegal] } : VecFx) else fx
  let n := w2.toNat % 32
  match op with
  | .add => full (wrap32 (a + b))
  | .sub => full (wrap32 (a - b))
  | .adds => full (sat32 (a + b))
  | .subs => full (sat32 (a - b))
  | .and => bitwise (w1 &&& w2)
  | .or => bitwise (w1 ||| w2)
  | .xor => bitwise (w1 ^^^ w2)
  | .cmp =>
    let r := wrap32 (a - b)
    { writes := flagsZN r.1 ++ flagV r.2 }
  | .min => plain (if a ≤ b then w1 else w2)
  | .max => plain (if a ≤ b then w2 else w1)
  | .abs => withV (sat32 (if a < 0 then -a else a))
  | .neg => withV (sat32 (-a))
  | .asl => withV (wrap32 (a * (2 ^ n : Nat)))
  | .asr => plain (wordOf (a / (2 ^ n : Nat)))
  | .asrr => plain (wordOf (rshr a n))
  | .lsr => plain (w1 >>> n)
  | .asli => if s2 ≥ 32 then { faults := [fIllegal] } else withV (wrap32 (a * (2 ^ s2 : Nat)))
  | .asri => if s2 ≥ 32 then { faults := [fIllegal] } else plain (wordOf (a / (2 ^ s2 : Nat)))
  | .lsri => if s2 ≥ 32 then { faults := [fIllegal] } else plain (w1 >>> s2)
  | .norm => plain (BitVec.ofNat 32 (redundantSigns w1))
  | .mova => low dst { writes := [(32 + dst, .set, w1.toNat % 2 ^ 24)] }
  | .movn => low dst { writes := [(40 + dst, .set, w1.toNat % 2 ^ 24)] }
  | .movm => low dst { writes := [(48 + dst, .set, w1.toNat)] }
  | .movfa => low s1 (plain (BitVec.ofNat 32 (regSeen c h .aOther (32 + s1 % 8))))
  | .xtrh => low s1 (plain (BitVec.ofNat 32 (regSeen c h .accSrc (16 + s1 % 8) / 2 ^ 24)))
  | .xtrl => low s1 (plain (BitVec.ofNat 32 (regSeen c h .accSrc (16 + s1 % 8) % 2 ^ 24)))
  | .insa => low dst { writes := [(16 + dst, .mac, w1.toNat * 2 ^ 24 + w2.toNat % 2 ^ 24)] }
  | .accadd =>
    low dst (low s1 (low s2 { writes := accWrite (16 + dst) (accSeen c h .accSrc s1 + accSeen c h .accSrc s2) }))
  | .accsub =>
    low dst (low s1 (low s2 { writes := accWrite (16 + dst) (accSeen c h .accSrc s1 - accSeen c h .accSrc s2) }))
  | .accsh =>
    low dst (low s1 (
      let x := accSeen c h .accSrc s1
      if -32 ≤ b ∧ b ≤ 8 then
        { writes := accWrite (16 + dst) (if b ≥ 0 then x * (2 ^ b.toNat : Nat) else rshr x (-b).toNat) }
      else
        { writes := [(16 + dst, .mac, (Config.accsh (BitVec.ofNat 56 (code 56 x)) w2).toNat)] }))

/-- A long immediate (R210). -/
def liFx (file reg : Nat) (imm : Word) : VecFx :=
  match file with
  | 0 => if reg < 16 then { writes := [(reg, .liD, imm.toNat)] } else { faults := [fIllegal] }
  | 1 =>
    if reg < 8 ∧ imm.toNat < 2 ^ 24 then { writes := [(32 + reg, .set, imm.toNat)] } else { faults := [fIllegal] }
  | 2 => if reg < 8 then { writes := [(40 + reg, .set, imm.toNat % 2 ^ 24)] } else { faults := [fIllegal] }
  | 3 => if reg < 8 then { writes := [(48 + reg, .set, imm.toNat)] } else { faults := [fIllegal] }
  | _ => { faults := [fIllegal] }

/-- The status word as GETSR reads it (Table 9-2). -/
def srWord (c : VecCore) (h : Bool) : Nat :=
  let f := fun (r : Nat) => regSeen c h .getsr r
  let q := fun (r : Nat) => regSeen c h .sat r
  f rSCALE % 32 + f rZ % 2 * 2 ^ 8 + f rN % 2 * 2 ^ 9 + f rV % 2 * 2 ^ 10 + q rSL % 2 * 2 ^ 12 + q rSA % 2 * 2 ^ 13
    + h.toNat * 2 ^ 16

/-- The writes of PUTSR: every field of the status word but HND. -/
def putSr (w : Word) : List (Nat × VecWriter × Nat) :=
  [(rSCALE, .sr, bits w 4 0), (rZ, .sr, bits w 8 8), (rN, .sr, bits w 9 9), (rV, .sr, bits w 10 10),
    (rSL, .sr, bits w 12 12), (rSA, .sr, bits w 13 13)]

/-- Whether a condition holds; none where its code is reserved. -/
def condHolds (c : VecCore) (h : Bool) (cond : Nat) : Option Bool :=
  let z := regSeen c h .bcc rZ % 2 = 1
  let n := regSeen c h .bcc rN % 2 = 1
  let v := regSeen c h .bcc rV % 2 = 1
  match cond with
  | 0 => some (decide z)
  | 1 => some (decide (¬ z))
  | 2 => some (decide (n ≠ v))
  | 3 => some (decide (n = v))
  | 4 => some (decide (¬ z ∧ n = v))
  | 5 => some (decide (z ∨ n ≠ v))
  | 6 => some (decide v)
  | 7 => some (decide (¬ v))
  | _ => none

end Sys2Proof.Machine
end

