-- ==== Sys2Proof/Machine/Vec.lean ====
section
/-!
DEFINITION. Sys2Proof/Machine/Vec.lean: one bundle issued by a vector core (R193 to R199, R202, R204, R207, R209): its fields, the
transfer of control, the repeat, the waits and program faults. A command of chapter 09 brings the bundle that the core
issues at its PC; the meanings of its instructions are in VecArith.lean, VecMove.lean and VecControl.lean.
-/
namespace Sys2Proof.Machine

/-! ### What a bundle does -/

/-- The effects of two fields together; the writes of the second to a register that the first writes are discarded (R195). -/
def joinFx (a b : VecFx) : VecFx :=
  { faults := a.faults ++ b.faults
    writes := a.writes ++ b.writes.filter fun w => a.writes.all fun v => decide (v.1 ≠ w.1)
    stores := a.stores ++ b.stores.filter fun w => a.stores.all fun v => decide (v.2.1 ≠ w.2.1 ∨ v.1 ≠ w.1)
    reads := a.reads || b.reads
    refused := a.refused <|> b.refused }

/-- What the operation of a bundle writes; the transfers of control are in `ctlNext`. -/
def opFx (d : Dev) (core : Nat) (c : VecCore) (h : Bool) (op : VecOp) : VecFx :=
  match op with
  | .mac op form s t a lanes => macFx c h op form s t a lanes
  | .alu op dst s1 s2 => aluFx c h op dst s1 s2
  | .li file reg imm => liFx file reg imm
  | .ctl op =>
    match op with
    | .bcc cond _ => if (condHolds c h cond).isNone then { faults := [fIllegal] } else {}
    | .call _ => if c.stack.length ≥ 8 then { faults := [fStack] } else {}
    | .ret => if c.stack.isEmpty then { faults := [fStack] } else {}
    | .jmp areg => if areg ≥ 8 then { faults := [fIllegal] } else {}
    | .loop dreg _ => { writes := [(dreg % 16, .ctlD, (dSeen c h dreg - 1).toNat)] }
    | .repImm n => if n < 1 ∨ n > 4096 then { faults := [fRep] } else {}
    | .repReg dreg => if (dSeen c h dreg).toNat > 4096 then { faults := [fRep] } else {}
    | .enq areg =>
      if areg ≥ 8 then { faults := [fIllegal] }
      else
        let a := regSeen c h .aOther (32 + areg)
        let ws := (List.range 8).map fun i => (a + i) % 2 ^ 24
        if ws.any fun w => decide (vecPlace w = .unmapped) then { faults := [fUnmapped] }
        else match ws.find? fun w => decide (vecPlace w = .window) && !(mem1Open d (windowOff c h w) 4) with
          | some w => { faults := [fWindow], refused := some (false, windowOff c h w) }
          | none => {}
    | .setscale imm => { writes := [(rSCALE, .sr, imm % 32)] }
    | .getsr dreg => { writes := [(dreg % 16, .ctlD, srWord c h)] }
    | .putsr dreg => { writes := putSr (dSeen c h dreg) }
    | .cyc dreg => { writes := [(dreg % 16, .ctlD, (Config.cycles (1 + core) c.issued).toNat)] }
    | .cid dreg => { writes := [(dreg % 16, .ctlD, core)] }
    | .putwb dreg => { writes := [(rWB, .wb, (dSeen c h dreg).toNat % 2 ^ 10)] }
    | .bra _ | .rte | .finish | .evsig _ | .waitw => {}

/-- Causes of the misuse of control bundles: in a delay slot (R194) and around REP (R198). -/
def ctlFaults (c : VecCore) (op : VecOp) : List Nat :=
  match op with
  | .mac _ _ _ _ _ _ | .alu _ _ _ _ => []
  | .li _ _ _ => if c.rep.isSome then [fRep] else []
  | .ctl op =>
    let isRep := match op with
      | .repImm _ | .repReg _ => true
      | _ => false
    if c.rep.isSome then [fRep]
    else if c.xfer.isSome then [if isRep then fRep else fSlot]
    else []

/-- Every effect of a bundle, in the order of R195: Y move, X move, then the MAC, ALU, control or AGU field. -/
def bundleFx (d : Dev) (core : Nat) (c : VecCore) (h : Bool) (b : Bundle) : VecFx :=
  joinFx { faults := ctlFaults c b.op } (joinFx (moveFx d core c h true b.y)
    (joinFx (moveFx d core c h false b.x) (joinFx (opFx d core c h b.op) (aguFx c h b.g))))

/-! ### Program faults -/

/-- A program fault (R209): recorded, counted, raised and logged; the item or the handler ends at once. -/
def vecFault (d : Dev) (core cause : Nat) : Dev :=
  let h := inHandler d core
  let d := liveSetB d (offVecFault core) cause true
  let d := liveSet d (offVecFaultPc core)
    (BitVec.ofNat 32 ((coreOf d core).pc % 2 ^ 13 + (if h then 2 ^ 31 else 0)))
  let d := bumpSat (liveSetB d offVecStatus 0 true) offVecFaultCount 31 0
  let d := raiseErr (raiseOwn d 7) (srcOf blkVec core) 0x0205 (liveGet d (offVecFault core))
    (liveGet d (offVecFaultPc core))
  if h then leaveHandler d core else endItem d core 2 true

/-! ### Issue -/

/-- Where control goes after a bundle: the core with PC, call stack, transfer and repeat brought forward. A REP of count 0 skips the bundle
after it, whatever its class, and faults for none (R197; DESIGN CHOICE against R198, assumption log entry 258). -/
def ctlNext (c : VecCore) (h : Bool) (op : VecOp) : VecCore :=
  let after := { c with pc := (c.pc + 1) % 8192 }
  let go := fun (t : VecXfer) => { after with xfer := some (2, t) }
  let rep := fun (n : Nat) => if n = 0 then { c with pc := (c.pc + 2) % 8192 } else { after with rep := some n }
  match op with
  | .ctl (.bra a) => go (.go (a % 8192))
  | .ctl (.bcc cond a) => go (if condHolds c h cond = some true then .go (a % 8192) else .none)
  | .ctl (.call a) => { go (.go (a % 8192)) with stack := ((c.pc + 3) % 8192) :: c.stack }
  | .ctl .ret => { go (.go (c.stack.getD 0 0)) with stack := c.stack.drop 1 }
  | .ctl (.jmp r) => go (.go (regSeen c h .aOther (32 + r % 8) % 8192))
  | .ctl (.loop r a) => go (if dSeen c h r - 1 = 0 then .none else .go (a % 8192))
  | .ctl (.repImm n) => rep n
  | .ctl (.repReg r) => rep (dSeen c h r).toNat
  | .ctl .rte => go .rte
  | .ctl .finish => go .finish
  | _ =>
    match c.rep, c.xfer with
    | some n, _ => if n > 1 then { c with rep := some (n - 1) } else { after with rep := none }
    | none, some (k, t) =>
      if k > 1 then { after with xfer := some (k - 1, t) }
      else
        match t with
        | .go a => { c with pc := a, xfer := none }
        | _ => { after with xfer := none }
    | none, none => after

/-- The writes and stores of a bundle enter flight; the oldest in flight, which every reader sees, settle. -/
def land (c : VecCore) (h : Bool) (fx : VecFx) : VecCore :=
  let n := c.issued
  let flight := (fx.writes.map fun w => (⟨regIn h w.1, w.2.1, n, w.2.2⟩ : VecWrite)) ++ c.flight
  let old := flight.filter fun w => decide (w.k + 3 ≤ n + 1)
  let own := fx.stores.filter fun s => decide (s.2.1 < 0x8000)
  let stores := (own.map fun s => (⟨s.1, s.2.1, s.2.2, n⟩ : VecStore)) ++ c.stores
  let oldS := stores.filter fun s => decide (s.k + 2 ≤ n + 1)
  { c with
    regs := old.foldr (fun w m => mapSet (fun _ => 0) m w.reg w.val) c.regs
    flight := flight.filter fun w => decide (¬ w.k + 3 ≤ n + 1)
    xmem := oldS.foldr (fun s m => if s.yside then m else mapSet word0 m s.addr s.val) c.xmem
    ymem := oldS.foldr (fun s m => if s.yside then mapSet word0 m s.addr s.val else m) c.ymem
    stores := stores.filter fun s => decide (¬ s.k + 2 ≤ n + 1)
    issued := n + 1 }

/-- The stores of a bundle that go to the external window, each with its offset in MEM1. -/
def windowStores (c : VecCore) (h : Bool) (fx : VecFx) : List (Nat × Word) :=
  (fx.stores.filter fun s => decide (¬ s.2.1 < 0x8000)).map fun s => (windowOff c h s.2.1, s.2.2)

/-- The descriptor that ENQ submits (R204). -/
def enqWords (d : Dev) (core : Nat) (c : VecCore) (h : Bool) (areg : Nat) : List Word :=
  (List.range 8).map fun i => vecLoad d core c h false ((regSeen c h .aOther (32 + areg % 8) + i) % 2 ^ 24)

/-- What a bundle does beyond the core: ENQ submits, EVSIG raises (R204, R235). -/
def outside (d : Dev) (core : Nat) (c : VecCore) (h : Bool) (op : VecOp) : Dev :=
  match op with
  | .ctl (.enq areg) =>
    match prodOf d core with
    | none => d
    | some p => submitDesc d (enqWords d core c h areg) p
  | .ctl (.evsig source) => if source % 1024 < 128 then liveSetB d offEvtStatus 0 true else raiseEvt d (source % 1024)
  | _ => d

/-- The transfer that takes effect with a bundle: the second delay slot of RTE or END (R202, R207). -/
def transfer (d : Dev) (core : Nat) (c : VecCore) (h : Bool) : Dev :=
  match c.xfer with
  | some (1, .rte) =>
    if h then
      let d := leaveHandler d core
      setCore d core { coreOf d core with rte := (coreOf d core).regs.filter fun e => decide (64 ≤ e.1) }
    else d
  | some (1, .finish) =>
    if h then d else setCoreState (setCore d core { coreOf d core with ended := true }) core 4
  | _ => d

/-- The word that a core issues: that of program memory at the PC, or that of the repeated bundle, which is fetched once (R198). -/
def fetchWord (c : VecCore) : Nat :=
  match c.rep, c.repWord with
  | some _, some w => w
  | _, _ => mapGet (fun _ => 0) c.prog c.pc

/-- The effects of a bundle whose waits are over, but for the end of a handler or of an item that it may be the last bundle of. -/
def bundleDone (d : Dev) (core : Nat) (b : Bundle) : Dev :=
  let c := coreOf d core
  let h := inHandler d core
  let fx := bundleFx d core c h b
  let ws := windowStores c h fx
  let d1 := outside d core c h b.op
  let d1 := setMem1 d1 (ws.foldr (fun w m => wordSet m w.1 w.2) d1.mem.mem1)
  let m := ctlNext c h b.op
  let n := { land c h fx with wait := none, posted := c.posted || !ws.isEmpty
                              pc := m.pc, stack := m.stack, xfer := m.xfer, rep := m.rep
                              repWord := if c.rep.isSome && m.rep.isSome then some (fetchWord c) else none }
  let d1 := perfHit (setCore d1 core n) (20 + core) 0x10 1
  if c.rep.isSome then perfHit d1 (20 + core) 0x14 1 else d1

/-- A bundle whose waits are over takes all its effects. -/
def complete (d : Dev) (core : Nat) (b : Bundle) : Dev :=
  transfer (bundleDone d core b) core (coreOf d core) (inHandler d core)

/-- What a bundle waits for before it completes (R184, R204). -/
def waitsFor (d : Dev) (core : Nat) (c : VecCore) (fx : VecFx) (op : VecOp) : Option VecWait :=
  if fx.reads then some .window
  else match op with
    | .ctl .waitw => if c.posted then some .posted else none
    | .ctl (.enq _) =>
      match prodOf d core with
      | none => none
      | some p => if creditsFree d p = 0 then some .credit else none
    | _ => none

/-! ### Bundles in program memory (R210) -/

/-- A move field of 17 bits (Table 9-10); none where a reserved bit is set. -/
def moveOf (f : Nat) : Option MoveField :=
  let reg := f / 2 ^ 10 % 32
  let an := f / 2 ^ 7 % 8
  let mode := f / 2 ^ 4 % 8
  let nsel := f / 2 % 8
  match f / 2 ^ 15 % 4 with
  | 0 => if f % 2 = 0 then some .none else none
  | 1 => if f % 2 = 0 then some (.load reg an mode nsel) else none
  | 2 => if f % 2 = 0 then some (.store reg an mode nsel) else none
  | _ => if f % 32 = 0 then some (.mov reg (f / 2 ^ 5 % 32)) else none

/-- The MAC field of class 0 (Table 9-9). CLR and RND ignore S, T and FORM; NOP ignores every other part. -/
def macOf (f : Nat) : Option VecOp :=
  let full := fun (op : MacOp) => some (.mac op (f / 2 ^ 14 % 4) (f / 2 ^ 10 % 16) (f / 2 ^ 6 % 16) (f / 8 % 8) (f % 8))
  match f / 2 ^ 16 % 16 with
  | 0 => some (.mac .nop 0 0 0 0 0)
  | 1 => full .mpy
  | 2 => full .mac
  | 3 => full .msu
  | 4 => full .mpyn
  | 5 => some (.mac .clr 0 0 0 (f / 8 % 8) (f % 8))
  | 6 => some (.mac .rnd 0 0 0 (f / 8 % 8) (f % 8))
  | _ => none

/-- The operations of the ALU field in the order of their codes, from 0x01 (Table 9-12). -/
def aluCodes : List AluOp :=
  [.add, .sub, .adds, .subs, .and, .or, .xor, .cmp, .min, .max, .abs, .neg, .asl, .asr, .asrr, .lsr, .asli, .asri, .lsri, .norm,
    .mova, .movn, .movm, .movfa, .xtrh, .xtrl, .insa, .accadd, .accsub, .accsh]

/-- The ALU field of class 3 (R210): the immediate forms have their count in place of S2. -/
def aluOf (f : Nat) : Option VecOp :=
  let c := f / 2 ^ 15 % 32
  let imm := decide (0x11 ≤ c ∧ c ≤ 0x13)
  if c = 0 ∨ f % (if imm then 4 else 8) ≠ 0 then none
  else (aluCodes[c - 1]?).map fun op => .alu op (f / 2 ^ 11 % 16) (f / 2 ^ 7 % 16) (if imm then f / 4 % 32 else f / 8 % 16)

/-- The control fields of class 1, 37 bits (R210, Table 9-12). -/
def ctlOf (f : Nat) : Option VecOp :=
  let r := f / 2 ^ 27 % 16
  let i := f / 2 ^ 9 % 2 ^ 14
  let a := i % 2 ^ 13
  let op : Option CtlOp := match f / 2 ^ 31 % 64 with
    | 0x01 => some (.bra a)
    | 0x02 => some (.bcc (f / 2 ^ 23 % 16) a)
    | 0x03 => some (.call a)
    | 0x04 => some .ret
    | 0x05 => some (.jmp r)
    | 0x06 => some (.loop r a)
    | 0x07 => some (.repImm (i % 2 ^ 12 + 1))
    | 0x08 => some (.repReg r)
    | 0x09 => some .rte
    | 0x0A => some .finish
    | 0x0B => some (.enq r)
    | 0x0C => some (.evsig (i % 2 ^ 10))
    | 0x0D => some (.setscale (i % 32))
    | 0x0E => some (.getsr r)
    | 0x0F => some (.putsr r)
    | 0x10 => some (.cyc r)
    | 0x11 => some (.cid r)
    | 0x12 => some (.putwb r)
    | 0x13 => some .waitw
    | _ => none
  if f % 2 ^ 9 = 0 then op.map .ctl else none

/-- The bundle that 64 bits spell (R210, Table 9-8); none where a class, an operation code or a reserved field makes it a program fault.
Codes that are reserved within a field which a bundle holds as a number fault when it issues. -/
def decodeBundle (w : Nat) : Option Bundle :=
  let x := moveOf (w / 2 ^ 23 % 2 ^ 17)
  let y := moveOf (w / 2 ^ 6 % 2 ^ 17)
  let g : AguField := ⟨w / 8 % 8, w % 8⟩
  match w / 2 ^ 60 % 16 with
  | 0 => (macOf (w / 2 ^ 40 % 2 ^ 20)).bind fun op => x.bind fun x => y.map fun y => ⟨op, x, y, g⟩
  | 1 => (ctlOf (w / 2 ^ 23 % 2 ^ 37)).bind fun op => y.map fun y => ⟨op, .none, y, g⟩
  | 2 =>
    if w / 2 ^ 32 % 2 ^ 21 = 0 then
      some ⟨.li (w / 2 ^ 57 % 8) (w / 2 ^ 53 % 16) (BitVec.ofNat 32 w), .none, .none, ⟨0, 0⟩⟩
    else none
  | 3 => (aluOf (w / 2 ^ 40 % 2 ^ 20)).bind fun op => x.bind fun x => y.map fun y => ⟨op, x, y, g⟩
  | _ => none

/-- Channel offset of the window word that a bundle reads. -/
def windowReadOff (c : VecCore) (h : Bool) (b : Bundle) : Nat :=
  ([b.y, b.x].findSome? fun m => match m with
    | .load _ an mode nsel => (moveAddr c h an mode nsel).bind fun a =>
        if vecPlace a.1 = .window then some (windowOff c h a.1) else none
    | _ => none).getD 0

/-- A core may issue the bundle of a command: program memory holds it at the PC, or holds zero there (assumption log entry 207). -/
def fetches (c : VecCore) (b : Bundle) : Bool := decide (fetchWord c = 0) || decide (decodeBundle (fetchWord c) = some b)

/-- The core is executing and waits for nothing: VEC runs, and a handler runs or an item that has not ended. -/
def canIssue (d : Dev) (core : Nat) : Bool :=
  let c := coreOf d core
  running d blkVec && (inHandler d core || (decide (coreState d core = 3) && !c.ended)) && c.wait.isNone

/-- A core issues a bundle. Where the word at its PC spells none, that is a program fault, whatever the command brings (R209, R210). -/
def issueBundle (core : Nat) (b : Bundle) (d : Dev) : Dev :=
  let c := coreOf d core
  if canIssue d core && (decodeBundle (fetchWord c)).isNone then vecFault d core fIllegal
  else if canIssue d core && fetches c b then
    let fx := bundleFx d core c (inHandler d core) b
    match fx.faults with
    | f :: _ =>
      let d := match fx.refused with
        | some r => if f = fWindow then mem1Refused core r.1 r.2 4 d else d
        | none => d
      vecFault d core f
    | [] =>
      match waitsFor d core c fx b.op with
      | some w => setCore d core { c with wait := some (w, b), repWord := if c.rep.isSome then some (fetchWord c) else none }
      | none => complete d core b
  else d

/-- A command of chapter 09 that issues a bundle. -/
def issued (core : Nat) (op : VecOp) (x y : MoveField) (g : AguField) (s : State) :
    Host.Outcome State Fault Refusal :=
  ranIf (decide (core < 36)) s (issueBundle core ⟨op, x, y, g⟩)

end Sys2Proof.Machine
end

