-- ==== Sys2Proof/Machine/Gen.lean ====
section
/-!
DEFINITION. Sys2Proof/Machine/Gen.lean: the test generators of GRAPH (0 to 7, R59) and the measurement generators of RC (8 to 11,
R173): one sample for each render-rate index (R467). The sweep is evaluated in IEEE 754 double precision, each operation and
elementary function correctly rounded (assumption log entry 4).
-/
namespace Sys2Proof.Machine

/-- m * 2^e rounded to the 53 bits of a double, ties to even. -/
def dblNorm (m e : Int) : Int × Int :=
  let n := Nat.log2 m.natAbs
  if n < 53 then (m, e) else (rshr m (n - 52), e + ((n - 52 : Nat) : Int))

/-- The double nearest a real. -/
def dblOfFx (x : Int) : Int × Int := dblNorm x (-160)

/-- The real a double stands for. -/
def dblFx (a : Int × Int) : Int :=
  let e := a.2 + 160
  if e ≥ 0 then a.1 * (2 ^ e.toNat : Nat) else a.1 / (2 ^ (-e).toNat : Nat)

/-- Product of doubles. -/
def dblMul (a b : Int × Int) : Int × Int := dblNorm (a.1 * b.1) (a.2 + b.2)

/-- Sum of doubles. -/
def dblAdd (a b : Int × Int) : Int × Int :=
  let e := min a.2 b.2
  dblNorm (a.1 * (2 ^ (a.2 - e).toNat : Nat) + b.1 * (2 ^ (b.2 - e).toNat : Nat)) e

/-- Quotient of doubles. -/
def dblDiv (a b : Int × Int) : Int × Int :=
  if b.1 = 0 then (0, 0)
  else
    let num := a.1.natAbs * 2 ^ 140
    let q := num / b.1.natAbs
    let m : Int := 2 * (q : Int) + (if num % b.1.natAbs = 0 then 0 else 1)
    dblNorm (if (a.1 < 0) = (b.1 < 0) then m else -m) (a.2 - b.2 - 141)

/-- A natural number as a double. -/
def dblNat (n : Nat) : Int × Int := dblNorm n 0

/-- The sine of a double. -/
def dblSin (a : Int × Int) : Int × Int :=
  let x := dblFx a
  let h := fxPi / 2
  let k := x / h
  let r := x - k * h
  dblOfFx (match (k % 4).toNat with
    | 0 => fxSinQ r
    | 1 => fxCosQ r
    | 2 => -(fxSinQ r)
    | _ => -(fxCosQ r))

/-- A frequency field: at or above half the render rate it is the reset value. -/
def genFreq (n code reset : Nat) : Nat := if code ≥ n * 3000 * 128 then reset else code

/-- Register offsets of generator g: configuration, F1, F2 and LEN. -/
def genOffs (g : Nat) : Nat × Nat × Nat × Nat :=
  if g < 8 then (offGraphTgenCfg g, offGraphTgenF1 g, offGraphTgenF2 g, offGraphTgenLen g)
  else (offRcMgenCfg (g - 8), offRcMgenF1 (g - 8), offRcMgenF2 (g - 8), offRcMgenLen (g - 8))

/-- The record that the fields of a bank make of a generator from epoch e on (R59). -/
def genNext (n : Nat) (bank : Bank) (g e : Nat) (old : Option GenRec) : GenRec :=
  let o := genOffs g
  let cfg := mapGet resetWord bank o.1
  let kind := bits cfg 1 0
  let f1 := genFreq n (bits (mapGet resetWord bank o.2.1) 23 0) 0x3E800
  let f2 := genFreq n (bits (mapGet resetWord bank o.2.2.1) 23 0) 0x4E2000
  let len := bits (mapGet resetWord bank o.2.2.2) 15 0
  let hz := fun f => if f = 0 then 256 else f
  let v := (hz f1, hz f2, len)
  let at0 := n * e
  let fresh : GenRec := ⟨e, kind, bits cfg 31 16, at0, at0, 0, f1, at0, v, []⟩
  match old with
  | none => fresh
  | some r =>
    if r.kind ≠ kind then fresh
    else
      let ph := (r.phase + r.f1 * (at0 - r.seg)) % (256 * 3000 * n)
      let last := match r.later.getLast? with
        | some x => x.2
        | none => r.inForce
      ⟨e, kind, bits cfg 31 16, r.i0, at0, ph, f1, r.sweep, r.inForce, if last = v then r.later else r.later ++ [(at0, v)]⟩

/-- A generator. -/
def getGen (d : Dev) (g : Nat) : Gen := mapGet (fun _ => {}) d.gens g

/-- Sets a generator. -/
def setGen (d : Dev) (g : Nat) (x : Gen) : Dev := { d with gens := mapSet (fun _ => {}) d.gens g x }

/-- The fields of every generator are taken at a commit copy: one whose record changes gets a new one (R59). -/
def genCommit (d : Dev) : Dev :=
  (List.range 12).foldl (fun d g =>
    let gen := getGen d g
    let r := genNext (blockN d) (actBank d) g d.epc.epoch gen.recs.head?
    if r.kind = 0 ∧ gen.recs.isEmpty then d else setGen d g { gen with recs := r :: gen.recs.take 7 }) d

/-- After the timebase loads, every record lies before the epoch in progress. -/
def genLoaded (d : Dev) : Dev :=
  { d with gens := d.gens.map fun p =>
      (p.1, { p.2 with recs := p.2.recs.map fun r => { r with epoch := min r.epoch d.epc.epoch } }) }

/-- The newest record whose epoch is not after e. -/
def genFind (l : List GenRec) (e : Nat) : Option GenRec :=
  match l with
  | [] => none
  | r :: t => if r.epoch ≤ e then some r else genFind t e

/-- The record that governs the samples of epoch e. Where a pending commit names an epoch not after e, its shadow bank
governs them (assumption log entry 5). -/
def genAt (d : Dev) (g e : Nat) : Option GenRec :=
  let gen := getGen d g
  match d.epc.commit with
  | some p =>
    if d.epc.epoch < p ∧ p ≤ e then some (genNext (blockN d) d.regs.shadow g p gen.recs.head?) else genFind gen.recs e
  | none => genFind gen.recs e

/-- The sweep that holds sample i: its start and its values (R59). A sample before the record's sweep lies in one counted back from it
(DESIGN CHOICE, assumption log entry 259). -/
def sweepAt (n : Nat) (sweep : Nat) (v : Nat × Nat × Nat) (later : List (Nat × Nat × Nat × Nat)) (i : Nat) :
    Nat × (Nat × Nat × Nat) × List (Nat × Nat × Nat × Nat) :=
  let s := max 1 (v.2.2 * n)
  if i < sweep then ((sweep : Int) + ((i : Int) - sweep) / (s : Int) * (s : Int) |>.toNat, v, later)
  else match later with
  | [] => (sweep + (i - sweep) / s * s, v, [])
  | (at0, v') :: t =>
    let start := sweep + (at0 - sweep + s - 1) / s * s
    if start ≤ i then sweepAt n start v' t i else (sweep + (i - sweep) / s * s, v, later)

/-- Sample k of a sweep of values v at level q, N samples to a block, in Q1.23 (R173). -/
def sweepSample (n : Nat) (v : Nat × Nat × Nat) (level k : Nat) : Int :=
  match dbRead level with
  | none => 0
  | some q =>
    let fs := dblNat (256 * 3000 * n)
    let f1 := dblDiv (dblNat v.1) fs
    let f2 := dblDiv (dblNat v.2.1) fs
    let s := dblNat (v.2.2 * n)
    let phi :=
      if v.1 = v.2.1 then dblMul f1 (dblNat k)
      else
        let r := dblOfFx (fxLn (dblFx (dblDiv f2 f1)))
        let ex := dblOfFx (fxExp (dblFx (dblDiv (dblMul (dblNat k) r) s)))
        dblMul (dblMul f1 (dblDiv s r)) (dblAdd ex (-1, 0))
    let a := dblOfFx (dbLin q)
    let y := dblMul a (dblSin (dblMul (dblOfFx (2 * fxPi)) phi))
    satS 24 (fxRound (dblFx y) 23)

/-- Sample of a sine whose phase is ph / (256 fs) cycles (R59). -/
def sineSample (n level ph : Nat) : Int :=
  match dbRead level with
  | none => 0
  | some q => satS 24 (fxRound (fxMul (dbLin q) (fxSinTurn ph (256 * 3000 * n))) 23)

/-- A step of the shift register (R173). -/
def lfsrStep (s : Word) : Word := if s.toNat % 2 = 1 then (s >>> 1) ^^^ 0x80200003 else s >>> 1

/-- The register's sample: bits 31:8 as Q1.23. -/
def lfsrSample (s : Word) : Int := sext 24 (s.toNat / 256)

/-- n more samples of scaled pink noise in Q4.28 (R173); `first` is the first sample since the seed. -/
def pinkRun (secs : List (Int × Int)) (norm : Int) (fuel : Nat) (first : Bool) (z : Noise) (acc : List Int) :
    Noise × List Int :=
  match fuel with
  | 0 => (z, acc.reverse)
  | f + 1 =>
    let reg := if first then z.reg else lfsrStep z.reg
    let w := lfsrSample reg * 32
    let up := fun (i : Nat) (s : Int) =>
      let c := secs.getD i (0, 0)
      satS 32 (rshr (c.1 * s + c.2 * w) 30)
    let s1 := up 0 z.s1
    let s2 := up 1 z.s2
    let s3 := up 2 z.s3
    let p := satS 32 (rshr (pinkDirect * w + (s1 + s2 + s3) * 2 ^ 30) 30)
    pinkRun secs norm f false { z with reg := reg, s1 := s1, s2 := s2, s3 := s3 } (rshr (p * norm) 30 :: acc)

/-- The noise with the block of epoch e made. -/
def noiseNext (n e : Nat) (z : Noise) : Noise :=
  let rate := if n = 32 then 1 else 0
  let a := pinkRun (pinkSections rate) (pinkNorm rate) n z.blocks.isEmpty z []
  { a.1 with blocks := (e, a.2) :: z.blocks.take 7 }

/-- The first epoch whose noise is still to be made before that of epoch e: the one after the last made, or that of i0. -/
def noiseFrom (n e : Nat) (z : Noise) : Nat :=
  let first := match z.blocks with
    | b :: _ => b.1 + 1
    | [] => z.i0 / n
  if first + 7 < e then e else first

/-- Makes the noise of generator g up to the block of epoch e, if it runs and has not been made (assumption log entry 6). -/
def genMake (d : Dev) (g e : Nat) : Dev :=
  match genAt d g e with
  | none => d
  | some r =>
    if r.kind ≠ 2 then d
    else
      let gen := getGen d g
      let n := blockN d
      let seed := BitVec.ofNat 32 (0x51460000 + g) ^^^ BitVec.ofNat 32 r.i0
      let fresh : Noise := ⟨r.i0, if seed = 0 then 1 else seed, 0, 0, 0, []⟩
      let z := match gen.noise with
        | some z => if z.i0 = r.i0 then z else fresh
        | none => fresh
      let f := noiseFrom n e z
      setGen d g { gen with noise := some ((List.range (e + 1 - f)).foldl (fun z k => noiseNext n (f + k) z) z) }

/-- Makes the noise of every generator for the block of epoch e. -/
def genMakeAll (d : Dev) (e : Nat) : Dev := (List.range 12).foldl (fun d g => genMake d g e) d

/-- The scaled noise made for epoch e. -/
def noiseBlock (x : Option Noise) (e : Nat) : List Int :=
  match x with
  | none => []
  | some z => match z.blocks.find? fun b => b.1 = e with
    | some b => b.2
    | none => []

/-- The phase of a sine at sample i, which the timebase may have set back before the change that began the record (R321): it goes back at
the record's frequency (DESIGN CHOICE, assumption log entry 259). -/
def sinePhase (n : Nat) (r : GenRec) (i : Nat) : Nat :=
  (((r.phase : Int) + (r.f1 : Int) * ((i : Int) - (r.seg : Int))) % ((256 * 3000 * n : Nat) : Int)).toNat

/-- Sample k of a record's signal in epoch e (R59, R467): zero before i0; `noise` is the scaled noise of the epoch. -/
def genSignal (n : Nat) (r : GenRec) (noise : List Int) (e k : Nat) : Int :=
  let i := n * e + k
  if i < r.i0 then 0
  else match r.kind with
    | 0 => 0
    | 1 => sineSample n r.level (sinePhase n r i)
    | 2 => satS 24 (rshr (sampleAt noise k * dbGain r.level) 25)
    | _ =>
      let s := sweepAt n r.sweep r.inForce r.later i
      sweepSample n s.2.1 r.level (i - s.1)

/-- Sample k of generator g in epoch e; none while it is off. -/
def genSample (d : Dev) (g e k : Nat) : Option Int :=
  match genAt d g e with
  | none => none
  | some r => if r.kind = 0 then none else some (genSignal (blockN d) r (noiseBlock (getGen d g).noise e) e k)

/-- The samples of generator g whose indices make up epoch e; none while it is off (R59, R467). -/
def genBlock (d : Dev) (g e : Nat) : Option (List Int) :=
  match genAt d g e with
  | none => none
  | some r =>
    if r.kind = 0 then none
    else some ((List.range (blockN d)).map (genSignal (blockN d) r (noiseBlock (getGen d g).noise e) e))

/-- SWEEP_START for generator g (R59): the sweep that holds the sample in progress is the one in force, with its values. -/
def sweepStart (g : Nat) (d : Dev) : Dev :=
  let gen := getGen d g
  let n := blockN d
  let i := n * d.epc.epoch + d.epc.period * n / 64
  match gen.recs with
  | [] => d
  | r :: t =>
    if r.kind ≠ 3 then d
    else
      let s := sweepAt n r.sweep r.inForce r.later i
      setGen d g { gen with recs := { r with sweep := s.1, inForce := s.2.1, later := s.2.2 } :: t }

/-- SWEEP_START (R59). -/
def execSweepStart (gen : Nat) (s : State) : Host.Outcome State Fault Refusal :=
  ranIf (decide (gen < 12)) s (sweepStart gen)

end Sys2Proof.Machine
end

