-- ==== Sys2Proof/Machine/Obj.lean ====
section
/-!
DEFINITION. Sys2Proof/Machine/Obj.lean: chapter 05, metadata sources, records and object slots.
-/
namespace Sys2Proof.Machine

/-- An object slot. -/
def getObj (d : Dev) (n : Nat) : ObjSlot := mapGet (fun _ => {}) d.obj.slots n

/-- Sets an object slot. -/
def setObj (d : Dev) (n : Nat) (x : ObjSlot) : Dev := { d with obj := { d.obj with slots := mapSet (fun _ => {}) d.obj.slots n x } }

/-- A metadata source. -/
def getSrc (d : Dev) (s : Nat) : ObjSrc := mapGet (fun _ => {}) d.obj.srcs s

/-- Sets a metadata source. -/
def setSrc (d : Dev) (s : Nat) (x : ObjSrc) : Dev := { d with obj := { d.obj with srcs := mapSet (fun _ => {}) d.obj.srcs s x } }

/-- Counts k of Table 5-7 for source s. -/
def objCount (d : Dev) (s k n : Nat) : Dev := if n = 0 then d else bumpBy d (offObjMsrcCount s k) n

/-- An enabled source of a running OBJ (R99, R102). -/
def srcOn (d : Dev) (s : Nat) : Bool := running d blkObj && actB d (offObjMsrcCfg s) 31

/-- The window of a source becomes invalid (R102). -/
def windowDrop (d : Dev) (s : Nat) : Dev :=
  setSrc (liveSetB d (offObjMsrcSeq s) 16 false) s { getSrc d s with seen := [] }

/-! ### Records -/

/-- Reports the queue of a slot. -/
def queueReport (d : Dev) (n : Nat) : Dev := liveSetF d (offObjStatFlags n) 2 0 (getObj d n).pending.length

/-- Inserts a record at its target; a pending target takes it in (R104, R105). -/
def queueIns (l : List (Nat × List ObjRec)) (r : ObjRec) : List (Nat × List ObjRec) :=
  match l with
  | [] => [(r.target, [r])]
  | (t, rs) :: rest =>
    if r.target < t then (r.target, [r]) :: (t, rs) :: rest
    else if r.target = t then (t, rs ++ [r]) :: rest
    else (t, rs) :: queueIns rest r

/-- An on-time record is queued (R104): the four earliest targets are kept. -/
def queueRec (d : Dev) (s n : Nat) (r : ObjRec) : Dev :=
  let x := getObj d n
  let l := queueIns x.pending r
  if l.length ≤ 4 then queueReport (setObj d n { x with pending := l }) n
  else
    let lost := match l.getLast? with
      | some t => t.2.length
      | none => 0
    let d := objCount (setObj d n { x with pending := l.take 4 }) s 4 lost
    queueReport (liveSetB (liveSetB d (offObjStatFlags n) 30 true) offObjStatus 1 true) n

/-- A late record (R106): superseded, or assigned to the first epoch after the next metadata cutoff. -/
def lateRec (d : Dev) (s n : Nat) (r : ObjRec) : Dev :=
  let x := getObj d n
  let d := objCount (liveSetB (liveSetB d (offObjStatFlags n) 31 true) offObjStatus 0 true) s 6 1
  let d := setSrc d s { getSrc d s with late := (getSrc d s).late + 1 }
  let passed := match x.applied with
    | some t => decide (r.target ≤ t)
    | none => false
  if !x.pending.isEmpty || passed then d
  else setObj d n { x with late := x.late ++ [(d.epc.epoch + (if d.epc.cutoff then 2 else 1), r)] }

/-- A record for a slot (R99, R103, R104, R106). -/
def takeRec (d : Dev) (s n : Nat) (r : ObjRec) : Dev :=
  if actF d (offObjCfg n) 4 0 ≠ s + 1 then objCount d s 4 1
  else if r.target ≤ d.epc.epoch ∨ (r.target = d.epc.epoch + 1 ∧ d.epc.cutoff = true) then lateRec d s n r
  else if r.target - d.epc.epoch > 3000 then objCount d s 5 1
  else queueRec d s n r

/-- T of an apply-at index (R103). -/
def targetOf (a : Int) : Nat := ((a + 15) / 16).toNat

/-- The Cartesian position of a polar one (R95): angles as fractions of a turn, distance as a fraction of a mm. -/
def polarPos (az el : Int × Nat) (dist : Int × Nat) : Int × Int × Int :=
  let ca := fxCosTurn az.1 az.2
  let sa := fxSinTurn az.1 az.2
  let ce := fxCosTurn el.1 el.2
  let se := fxSinTurn el.1 el.2
  let r := fun v => fxRound (v * dist.1 / (dist.2 : Int)) 0
  (r (-(fxMul ce sa)), r (fxMul ce ca), r se)

/-- One record of a position frame (R94, R95): none where it is rejected. A reserved LAW rejects a record with NO_SHAPE too (assumption
log entry 199). -/
def frameRec (src seq idx target : Nat) (cut : Bool) (b : List Byte) : Option (Nat × ObjRec) :=
  let id := beNat (b.take 2)
  let fl := fun i => id.testBit i
  let g := beNat ((b.drop 2).take 2)
  let x := sext 24 (beNat ((b.drop 4).take 3))
  let y := sext 24 (beNat ((b.drop 7).take 3))
  let z := sext 24 (beNat ((b.drop 10).take 3))
  let spread := beNat ((b.drop 13).take 1)
  let law := beNat ((b.drop 14).take 1)
  let polar := fl 1 && !(fl 2)
  if fl 5 ∨ (5 ≤ law ∧ law ≤ 254) then none
  else if polar ∧ ¬(-180000 ≤ x ∧ x ≤ 180000 ∧ -90000 ≤ y ∧ y ≤ 90000 ∧ 0 ≤ z) then none
  else
    let pos := if polar then polarPos (x, 360000) (y, 360000) (z, 1) else (x, y, z)
    some (id / 64, ⟨target, seq, idx, fl 0 || cut, if fl 2 then none else some pos, if fl 3 then none else some g,
      if fl 4 then none else some (spread, law), src⟩)

/-- The sequence window of R101: 0 accepted, 1 duplicate, 2 old. -/
def windowJudge (valid : Bool) (h seq : Nat) (seen : List Nat) : Nat :=
  let d := (seq + 65536 - h) % 65536
  if valid = false then 0
  else if d = 0 then 1
  else if d < 0x8000 then 0
  else if d ≥ 0x10000 - 511 then (if seen.contains seq then 1 else 0)
  else 2

/-- A frame of a source passes its window (R101): counted as accepted, duplicate or old. -/
def windowTake (d : Dev) (s seq : Nat) : Dev × Bool :=
  let w := liveGet d (offObjMsrcSeq s)
  let valid := bit w 16
  let h := bits w 15 0
  let x := getSrc d s
  match windowJudge valid h seq x.seen with
  | 0 =>
    let h' := if valid = false ∨ (seq + 65536 - h) % 65536 < 0x8000 then seq else h
    let seen := if valid then x.seen.filter (fun q => decide ((h' + 65536 - q) % 65536 < 512)) else []
    let d := setSrc d s { x with seen := seq :: seen, last := d.epc.epoch }
    (objCount (liveSet d (offObjMsrcSeq s) (BitVec.ofNat 32 (65536 + h'))) s 0 1, true)
  | 1 => (objCount d s 1 1, false)
  | _ => (objCount d s 2 1, false)

/-- A malformed frame (R93). -/
def malformedFrame (d : Dev) (s : Nat) : Dev := objCount (liveSetB d offObjStatus 2 true) s 3 1

/-- A position frame from source s (R92 to R94). -/
def positionFrame (s : Nat) (p : List Byte) (d : Dev) : Dev :=
  let count := beNat ((p.drop 4).take 2)
  let flags := beNat ((p.drop 6).take 2)
  if p.length < 16 ∨ beNat (p.take 2) ≠ 0x5146 ∨ count = 0 ∨ count > 64 ∨ p.length ≠ 16 + 16 * count ∨ flags > 1 then
    malformedFrame d s
  else
    let seq := beNat ((p.drop 2).take 2)
    let a := windowTake d s seq
    if a.2 then
      let t := targetOf (beNat ((p.drop 8).take 8) : Nat)
      ((chunks 64 16 (p.drop 16)).foldl (fun (b : Dev × Nat) r =>
        (match frameRec s seq b.2 t (flags = 1) r with
          | none => objCount b.1 s 4 1
          | some q => takeRec b.1 s q.1 q.2, b.2 + 1)) (a.1, 0)).1
    else a.1

/-! ### S-ADM -/

/-- A decimal as a fraction. -/
def decFrac (x : Dec) : Int × Nat := (x.num, 10 ^ x.dec)

/-- num / den scaled by 2^32, rounded down: the argument of the open S-ADM values. -/
def openArg (x : Int × Nat) : Int := x.1 * 2 ^ 32 / (x.2 : Int)

/-- A coordinate: value times scale, rounded by R4. -/
def sadmCoord (scale : Nat) (x : Dec) : Int :=
  let v := rne (x.num * (scale : Int)) (10 ^ x.dec)
  if overS 24 v then (Config.sadmOpen 0 (openArg (decFrac x))).toInt else v

/-- The gain code of an S-ADM gain (Table 5-6); a linear gain too small for the reals of this file lies below the lowest code. -/
def sadmGain (lin db : Option Dec) : Option Nat :=
  let lim := fun (v : Int) => if v < -16384 then 0x8000 else if v > 0x1800 then 0x1800 else code 16 v
  match db, lin with
  | some x, _ => some (lim (rne (x.num * 256) (10 ^ x.dec)))
  | none, some x =>
    some (if x.num = 0 then 0x8000
      else if x.num < 0 then code 16 (Config.sadmOpen 1 (openArg (decFrac x))).toInt
      else if fxRat x.num (10 ^ x.dec) = 0 then 0x8000
      else lim (fxRound (fxDiv (20 * 256 * fxLn (fxRat x.num (10 ^ x.dec))) fxLn10) 0))
  | none, none => none

/-- The spread of an S-ADM width (Table 5-6). -/
def sadmSpread (cart : Bool) (w : Dec) : Nat :=
  if w.num < 0 then (Config.sadmOpen 2 (openArg (decFrac w))).toNat % 256
  else
    let top := if cart then 1 else 180
    let num := min w.num (top * (10 ^ w.dec : Nat))
    (rne (num * 255) (top.toNat * 10 ^ w.dec)).toNat

/-- rtime in 48 kHz samples, rounded down (R98). -/
def rtimeSamples (t : Nat × Nat) : Nat := t.1 * 48000 / t.2

/-- The record of an S-ADM block; none where it is rejected (R94). The decimals of a position are converted as they stand, and a width
without a position is polar (assumption log entries 200 and 201). `base` is the index of the frame's first packet. -/
def sadmRec (s scale seq idx : Nat) (base : Int) (b : SadmBlock) : Option ObjRec :=
  let pos : Option (Option (Int × Int × Int)) := match b.pos with
    | .none => some none
    | .cart x y z => some (some (sadmCoord scale x, sadmCoord scale y, sadmCoord scale z))
    | .polar az el dist =>
      let r : Int × Nat := match dist with
        | some x => (x.num * (scale : Int), 10 ^ x.dec)
        | none => ((scale : Int), 1)
      let within := fun (x : Dec) (lim : Nat) => decide (x.num.natAbs ≤ lim * 10 ^ x.dec)
      if within az 180 && within el 90 && decide (0 ≤ r.1 ∧ r.1 ≤ 8388607 * (r.2 : Int)) then
        some (some (polarPos (az.num, 360 * 10 ^ az.dec) (el.num, 360 * 10 ^ el.dec) r))
      else none
  let cart := match b.pos with
    | .cart _ _ _ => true
    | _ => false
  pos.map fun p => ⟨targetOf (base + (rtimeSamples b.rtime : Int)), seq, idx, b.jump, p, sadmGain b.gainLin b.gainDb,
    b.width.map fun w => (sadmSpread cart w, 0), s⟩

/-- The slot of an S-ADM channel format (R97). -/
def sadmSlot (d : Dev) (s id : Nat) : Option Nat :=
  (List.range 1024).find? fun n =>
    decide (actF d (offObjCfg n) 4 0 = s + 1) && actB d (offObjMap n) 16 && decide (actF d (offObjMap n) 15 0 = id)

/-- The packets that wait once a frame has been parsed: those of its stream that carried it are gone, and those that came before it, which
belong to other data items or to frames that were not whole (R96). -/
def sadmTaken (f : SadmFrame) (p : SadmPkt) (l : List SadmPkt) : List SadmPkt :=
  (l.zipIdx.filter fun q => !(decide (q.1.src = p.src ∧ q.1.stream = p.stream) &&
    decide (q.2 ≤ l.idxOf p ∨ (q.1.seq + 65536 - p.seq) % 65536 < max 1 f.packets))).map fun q => q.1

/-- The records of a parsed frame go to their slots (R96, R97). -/
def sadmRecords (s : Nat) (f : SadmFrame) (base : Int) (d : Dev) : Dev :=
  let d := objCount d s 4 (f.formats.length - 256)
  let scale := actF d (offObjMsrcScale s) 23 0
  ((f.formats.take 256).foldl (fun (b : Dev × Nat) blocks =>
    blocks.foldl (fun (c : Dev × Nat) blk =>
      (match sadmRec s scale (f.seq % 65536) c.2 base blk, sadmSlot c.1 s blk.id with
        | some r, some n => takeRec c.1 s n r
        | _, _ => objCount c.1 s 4 1, c.2 + 1)) b) (d, 0)).1

/-- SADM_PARSE_DONE (R96 to R98): the parse of a frame ends, of which the first packet has come: the last one with its sequence number. -/
def sadmDone (s : Nat) (f : SadmFrame) (d : Dev) : Dev :=
  match d.obj.sadm.reverse.find? fun p => decide (p.src = s ∧ p.seq = f.seq % 65536) with
  | none => d
  | some p =>
    let d := { d with obj := { d.obj with sadm := sadmTaken f p d.obj.sadm } }
    if srcOn d s && actB d (offObjMsrcCfg s) 30 then
      if f.full = false ∨ f.bytes > 65536 then malformedFrame d s
      else
        let a := windowTake d s (f.seq % 65536)
        if a.2 then sadmRecords s f p.index a.1 else a.1
    else d

/-- The source that takes the frames of a receive stream: the lowest enabled one that binds it (R99). -/
def boundSource (d : Dev) (x stream : Nat) : Option Nat :=
  (List.range 16).find? fun s =>
    let w := actGet d (offObjMsrcCfg s)
    bit w 31 && bit w (16 + x) && decide (bits w (8 * x + 7) (8 * x) = stream)

/-- A metadata packet arrives on a receive stream (R92, R96, R99, R102): one of a stream takes the place of an earlier one of its number. -/
def metaPacket (x stream : Nat) (pkt : RtpPkt) (d : Dev) : Dev :=
  match boundSource d x stream with
  | none => d
  | some s =>
    if running d blkObj = false then d
    else if actB d (offObjMsrcCfg s) 30 then
      let m := rxMult (rxEntry d x stream)
      let p : SadmPkt := ⟨s, (x, stream), pkt.seq % 65536, extendIndex (nowSample d * m) pkt.ts / (m : Int)⟩
      let rest := d.obj.sadm.filter fun q => !(decide (q.src = p.src ∧ q.stream = p.stream ∧ q.seq = p.seq))
      { d with obj := { d.obj with sadm := rest ++ [p] } }
    else positionFrame s pkt.payload d

/-- MSRC_WINDOW_TIMEOUT (R102): a source has accepted no frame for 3,000 epochs. -/
def windowTimeout (s : Nat) (d : Dev) : Dev := if (getSrc d s).last + 3000 ≤ d.epc.epoch then windowDrop d s else d

/-! ### Epoch starts -/

/-- Orders records by R105: target, then sequence by serial arithmetic against h, then position. -/
def recBefore (h : Nat) (a b : ObjRec) : Bool :=
  let key := fun (r : ObjRec) => (r.seq + 65536 + 32768 - h) % 65536
  decide (a.target < b.target ∨ (a.target = b.target ∧ (key a < key b ∨ (key a = key b ∧ a.idx ≤ b.idx))))

/-- Inserts a record in the order of R105. -/
def recIns (h : Nat) (r : ObjRec) (l : List ObjRec) : List ObjRec :=
  match l with
  | [] => [r]
  | x :: t => if recBefore h x r then x :: recIns h r t else r :: x :: t

/-- Applies a record to the fields of a slot (R86, R105). -/
def applyRec (n : Nat) (d : Dev) (r : ObjRec) : Dev :=
  let d := match r.pos with
    | some p => liveSet (liveSet (liveSet d (offObjStatX n) (wordOf p.1)) (offObjStatY n) (wordOf p.2.1)) (offObjStatZ n)
        (wordOf p.2.2)
    | none => d
  let d := match r.gain with
    | some g => liveSetF d (offObjStatGain n) 15 0 g
    | none => d
  match r.shape with
  | some sh =>
    let d := liveSetF d (offObjStatGain n) 23 16 sh.1
    if sh.2 = 0 then d
    else setObj d n { getObj d n with law := if sh.2 = 255 then none else some sh.2 }
  | none => d

/-- LAST_APPLY of a slot. -/
def setLastApply (d : Dev) (n : Nat) : Dev :=
  liveSet (liveSet d (offObjLastApplyLo n) (BitVec.ofNat 32 d.epc.epoch)) (offObjLastApplyHi n)
    (BitVec.ofNat 32 (d.epc.epoch / 2 ^ 32 % 65536))

/-- Records that have applied to a slot are kept while this twin joins (R363). -/
def keepRecent (n : Nat) (l : List ObjRec) (d : Dev) : Dev :=
  if liveF d offTwnStatus 7 6 = 1 then { d with obj := { d.obj with recent := d.obj.recent ++ l.map fun r => (d.epc.epoch, n, r) } } else d

/-- The records kept for a join are those of the epoch before and of this one (R363). -/
def recentCut (d : Dev) : Dev :=
  { d with obj := { d.obj with recent := d.obj.recent.filter fun r => decide (d.epc.epoch ≤ r.1 + 1) } }

/-- The records of a slot that apply at the epoch in progress (R105): the device, and whether one of them jumps. A late record has its own
target in this order (assumption log entry 202). -/
def slotRecords (d : Dev) (n : Nat) : Dev × Bool :=
  let x := getObj d n
  let e := d.epc.epoch
  let now := (x.pending.filter fun t => decide (t.1 ≤ e)).foldr (fun t acc => t.2 ++ acc) [] ++
    (x.late.filter fun t => decide (t.1 ≤ e)).map (·.2)
  match now with
  | [] => (d, false)
  | r0 :: _ =>
    let h := liveF d (offObjMsrcSeq r0.src) 15 0
    let top := now.foldl (fun m r => max m r.target) (match x.applied with | some t => t | none => 0)
    let d := setObj d n { x with pending := x.pending.filter fun t => decide (e < t.1), late := x.late.filter fun t => decide (e < t.1),
                                 applied := some top }
    let l := now.foldl (fun l r => recIns h r l) []
    let d := keepRecent n l (l.foldl (applyRec n) d)
    (queueReport (setLastApply d n) n, now.any fun r => r.jump)

/-- The fields of a register-sourced slot take RPOS and RGAIN (R107). -/
def fieldsFromRegs (d : Dev) (n : Nat) : Dev :=
  let d := liveSet (liveSet (liveSet d (offObjStatX n) (wordOf (sext 24 (actGet d (offObjRposX n)).toNat)))
    (offObjStatY n) (wordOf (sext 24 (actGet d (offObjRposY n)).toNat))) (offObjStatZ n) (wordOf (sext 24 (actGet d (offObjRposZ n)).toNat))
  liveSetF d (offObjStatGain n) 23 0 (actF d (offObjRgain n) 23 0)

/-- A committed change of a slot's registers (R107). A change of SRC discards late records as it does pending ones (assumption log entry
203); a change of RPOS or RGAIN acts as a record whose target is the epoch, but not in a commit that also sets SRC to 0, where the slot
takes the registers and nothing is recorded (assumption log entry 244). -/
def slotCommit (d : Dev) (n : Nat) : Dev :=
  let old := bits (before d (offObjCfg n)) 4 0
  let new := actF d (offObjCfg n) 4 0
  let regs := [offObjRposX n, offObjRposY n, offObjRposZ n, offObjRgain n].any fun o => decide (before d o ≠ actGet d o)
  if old ≠ new then
    let d := queueReport (setObj d n { getObj d n with pending := [], late := [], law := none }) n
    if new = 0 then fieldsFromRegs d n else d
  else if new = 0 ∧ regs then
    let d := setLastApply (fieldsFromRegs d n) n
    setObj d n { getObj d n with applied := some (max d.epc.epoch ((getObj d n).applied.getD 0)) }
  else d

/-- Effective law of a slot (R86). -/
def effLaw (d : Dev) (n : Nat) : Nat :=
  match (getObj d n).law with
  | some l => l
  | none => actF d (offObjCfg n) 20 18

/-- MAP_CONFLICT of every slot with a valid S-ADM ID (R97). -/
def mapConflicts (d : Dev) : Dev :=
  ((List.range 1024).foldl (fun (a : Dev × List (Nat × Nat)) n =>
    let src := actF a.1 (offObjCfg n) 4 0
    let key := (src, actF a.1 (offObjMap n) 15 0)
    let v := actB a.1 (offObjMap n) 16 && decide (1 ≤ src ∧ src ≤ 16)
    (liveSetB a.1 (offObjStatFlags n) 26 (v && a.2.contains key), if v then key :: a.2 else a.2)) (d, [])).1

/-- Object slots whose registers differ between the active bank and a former one, or that hold records. -/
def touchedSlots (d : Dev) : List Nat :=
  let inRange := fun (b : Bank) => b.filterMap fun e => if 0xC10000 ≤ e.1 ∧ e.1 < 0xC18000 then some ((e.1 - 0xC10000) / 0x20) else none
  ((inRange (actBank d)) ++ (inRange (bankAt d.regs.act (d.epc.epoch - 1))) ++ d.obj.slots.map (·.1)).foldl setIns []

/-- STAT_FLAGS.UNSETTLED of every object slot follows the slot's conditioning (R83, Table 5-1). -/
def unsettledFlags (d : Dev) : Dev :=
  (List.range 1024).foldl (fun d n => liveSetB d (offObjStatFlags n) 27 (liveB d (offCndSlotStatus n) 31)) d

/-- OBJ at an epoch start (R83, R86, R105 to R108): late entries of the epoch that ended, committed changes, records, and which
slots are rendered, with a jump or without (JUMPED, R91), in the block that begins. -/
def objEpoch (d : Dev) : Dev :=
  let e := d.epc.epoch
  let d := recentCut d
  let d := d.obj.srcs.foldl (fun d p =>
    if p.2.late = 0 then d
    else raiseErr (setSrc d p.1 { getSrc d p.1 with late := 0 }) (srcOf blkObj 0) 0x0202 (BitVec.ofNat 32 p.1) (BitVec.ofNat 32 p.2.late)) d
  let com := committedNow d
  let touched := touchedSlots d
  let d := if com then
      let d := mapConflicts (touched.foldl slotCommit d)
      (List.range 16).foldl (fun d s => if actAt d (e - 1) (offObjMsrcCfg s) ≠ actGet d (offObjMsrcCfg s) then windowDrop d s else d) d
    else d
  let run := running d blkObj
  let d := if run then d else (List.range 16).foldl (fun d s => if liveB d (offObjMsrcSeq s) 16 then windowDrop d s else d) d
  let was := match d.obj.active with
    | (_, l) :: _ => l
    | [] => []
  let d := unsettledFlags d
  let r := touched.foldl (fun (a : Dev × List Nat × List Nat) n =>
    let b := slotRecords a.1 n
    let on := run && actB b.1 (offObjCfg n) 31
    let law := effLaw b.1 n
    let lawJump := decide (law ≠ liveF b.1 (offObjStatFlags n) 10 8) && on && was.contains n
    let d := liveSetF b.1 (offObjStatFlags n) 10 8 law
    let d := if on && (b.2 || lawJump) then liveSetB d (offObjStatFlags n) 29 true else d
    (d, if on then a.2.1 ++ [n] else a.2.1, if b.2 || lawJump then a.2.2 ++ [n] else a.2.2)) (d, [], [])
  { r.1 with obj := { r.1.obj with active := (e, r.2.1) :: r.1.obj.active.take 7, jumps := (e, r.2.2) :: r.1.obj.jumps.take 7 } }

/-- SADM_PARSE_DONE (R96). -/
def execSadmParseDone (src : Nat) (frame : SadmFrame) (s : State) : Host.Outcome State Fault Refusal :=
  ranIf (decide (src < 16)) s (sadmDone src frame)

/-- MSRC_WINDOW_TIMEOUT (R102). -/
def execMsrcWindowTimeout (src : Nat) (s : State) : Host.Outcome State Fault Refusal :=
  ranIf (decide (src < 16)) s (windowTimeout src)

end Sys2Proof.Machine
end

