-- ==== Sys2Proof/Machine/Geo.lean ====
section
/-!
DEFINITION. Sys2Proof/Machine/Geo.lean: chapter 06, the image tables, the four render laws and the targets. Every formula of a rule is
taken as one exact value of its rounded inputs, rounded once (R112; assumption log entry 10).
-/
namespace Sys2Proof.Machine

/-! ### Image tables -/

/-- Bytes i to i + n of a list as a number. -/
def field (bs : List Byte) (i n : Nat) : Nat := beNat ((bs.drop i).take n)

/-- The same, signed. -/
def sfield (bs : List Byte) (i n : Nat) : Int := sext (8 * n) (field bs i n)

/-- Bytes i to i + n are zero. -/
def zeros (bs : List Byte) (i n : Nat) : Bool := ((bs.drop i).take n).all fun b => decide (b = 0)

/-- A Q1.15 normal of unit length within 2^-12 (R119). -/
def unitOk (x y z : Int) : Bool :=
  let q := x * x + y * y + z * z
  decide (32760 * 32760 ≤ q ∧ q ≤ 32776 * 32776)

/-- A speaker entry (Table 6-3). -/
def parseSpeaker (b : List Byte) : Speaker :=
  ⟨sfield b 0 3, sfield b 3 3, sfield b 6 3, field b 9 1, field b 10 4, field b 14 2, sfield b 16 2, sfield b 18 2, sfield b 20 2,
    field b 22 1⟩

/-- FLAGS bits of a speaker. -/
def Speaker.has (s : Speaker) (i : Nat) : Bool := s.flags.testBit i

/-- Checks of a speaker entry by itself (R119). -/
def speakerOk (b : List Byte) : Bool :=
  let s := parseSpeaker b
  decide (s.flags < 16) && zeros b 23 9 &&
    (!(s.has 0) || (decide (s.alignNs ≤ 20000000 ∧ (s.segment ≤ 31 ∨ s.segment = 255)) && (!(s.has 3) || s.has 1) &&
      (decide (s.segment = 255) || unitOk s.nx s.ny s.nz)))

/-- The eight entries of a direct slot (R132): target index and gain of the VALID ones. -/
def parseDirect (b : List Byte) : List (Nat × Int) :=
  (chunks 8 8 b).filterMap fun e =>
    let w := field e 0 2
    if w.testBit 15 then some ((if w.testBit 10 then 512 else 0) + w % 1024, sfield e 2 3) else none

/-- Checks of a direct slot's entries (R119, R132): a gain is a Q3.20 value, sign-extended (R3). -/
def directOk (b : List Byte) : Bool :=
  ((chunks 8 8 b).all fun e =>
    let w := field e 0 2
    zeros e 5 3 && decide (w / 2048 % 16 = 0) &&
      (!(w.testBit 15) || decide (w % 1024 < (if w.testBit 10 then 64 else 512) ∧ overS 23 (sfield e 2 3) = false))) &&
    keysDistinct ((parseDirect b).map (·.1))

/-- The layout section (R116). -/
def parseLayout (p : List Byte) (t : GeoTables) : GeoTables :=
  let spk := ((chunks 512 32 (p.take 16384)).foldl (fun (a : List (Nat × Speaker) × Nat) b =>
    let s := parseSpeaker b
    (if s.has 0 then (a.2, s) :: a.1 else a.1, a.2 + 1)) ([], 0)).1.reverse
  let dir := ((chunks 512 64 (p.drop 16384)).foldl (fun (a : List (Nat × List (Nat × Int)) × Nat) b =>
    let l := (parseDirect b).filter fun e => decide (e.2 ≠ 0)
    (if l.isEmpty then a.1 else (a.2, l.foldl (fun m e => mapIns m e.1 e.2) []) :: a.1, a.2 + 1)) ([], 1024)).1.reverse
  { t with spk := spk, direct := dir }

/-- The triangulation section (R117). -/
def parseTri (p : List Byte) (t : GeoTables) : GeoTables :=
  let tris := (chunks 2048 48 (p.drop 65552)).map fun b =>
    ({ a := field b 0 2, b := field b 2 2, c := field b 4 2, inv := (chunks 9 4 ((b.drop 8).take 36)).map fun w => sext 32 (beNat w) } :
      Triangle)
  let cells := ((chunks 1024 64 ((p.drop 16).take 65536)).foldl (fun (a : List (Nat × List Nat) × Nat) b =>
    let l := ((chunks 32 2 b).map beNat).takeWhile fun v => decide (v ≠ 0xFFFF)
    (if l.isEmpty then a.1 else (a.2, l) :: a.1, a.2 + 1)) ([], 0)).1.reverse
  { t with tris := tris, cells := cells }

/-- A segment entry (Table 6-4). -/
def parseSegment (b : List Byte) : Segment :=
  ⟨decide (field b 0 1 / 2 % 2 = 1), field b 1 1, field b 2 2, field b 4 2, field b 6 2, sfield b 8 3, sfield b 11 3, sfield b 14 3,
    sfield b 17 2, sfield b 19 2, sfield b 21 2, field b 24 4, field b 28 4⟩

/-- The segments section (R118). -/
def parseSegs (p : List Byte) (t : GeoTables) : GeoTables :=
  { t with segs := ((chunks 32 64 p).foldl (fun (a : List (Nat × Segment) × Nat) b =>
      (if field b 0 1 % 2 = 1 then (a.2, parseSegment b) :: a.1 else a.1, a.2 + 1)) ([], 0)).1.reverse }

/-- Checks of a segment entry by itself (R119). -/
def segmentOk (b : List Byte) : Bool :=
  let s := parseSegment b
  decide (field b 0 1 < 4) && zeros b 23 1 && zeros b 32 32 &&
    (decide (field b 0 1 % 2 = 0) ||
      (decide (s.taper ≤ 63 ∧ 1 ≤ s.count ∧ s.count ≤ 512 ∧ s.first + s.count ≤ 512 ∧ 1 ≤ s.rref ∧ s.rref ≤ 8388607 ∧
        s.preNs ≤ 40000000 ∧ 2 * s.taper ≤ s.count) && unitOk s.nx s.ny s.nz))

/-- A speaker of the tables. -/
def spkAt (t : GeoTables) (j : Nat) : Option Speaker := (t.spk.find? fun s => s.1 = j).map (·.2)

/-- Every triangle names feeds with PRESENT and PAN (R119). -/
def trisOk (t : GeoTables) : Bool :=
  t.tris.all fun r => [r.a, r.b, r.c].all fun j => match spkAt t j with
    | some s => s.has 1
    | none => false

/-- Segments and speakers name each other, and no feed lies in two segments (R119). -/
def segsOk (t : GeoTables) : Bool :=
  (t.segs.all fun s => (List.range s.2.count).all fun i => match spkAt t (s.2.first + i) with
    | some k => decide (k.segment = s.1)
    | none => false) &&
  (t.spk.all fun k => decide (k.2.segment = 255) || t.segs.any fun s =>
    decide (s.1 = k.2.segment ∧ s.2.first ≤ k.1 ∧ k.1 < s.2.first + s.2.count)) &&
  keysDistinct (t.segs.foldr (fun s l => (List.range s.2.count).map (· + s.2.first) ++ l) [])

/-- The length of a section of GEO fits (R116 to R118). -/
def geoLengthOk (type : Nat) (p : List Byte) : Bool :=
  match type with
  | 0x10 => decide (p.length = 49152)
  | 0x11 => decide (field p 0 2 ≤ 2048 ∧ p.length = 16 + 65536 + 48 * field p 0 2)
  | _ => decide (p.length = 2048)

/-- Checks of a section by itself (R119). -/
def geoEntriesOk (type : Nat) (p : List Byte) : Bool :=
  match type with
  | 0x10 => (chunks 512 32 (p.take 16384)).all speakerOk && (chunks 512 64 (p.drop 16384)).all directOk
  | 0x11 =>
    zeros p 2 14 && ((chunks 2048 48 (p.drop 65552)).all fun b => zeros b 6 2 && zeros b 44 4) &&
      (parseTri p {}).cells.all fun c => c.2.all fun v => decide (v < field p 0 2)
  | _ => (chunks 32 64 p).all segmentOk

/-- Takes a section of type 0x10 layout, 0x11 triangulation or 0x12 segments into the tables. -/
def geoParse (type : Nat) (p : List Byte) (t : GeoTables) : GeoTables :=
  match type with
  | 0x10 => parseLayout p t
  | 0x11 => parseTri p t
  | _ => parseSegs p t

/-- A GEO section passes R119 by itself and with the tables that will be active together with it: those of the sections that
come with it, else the active ones. -/
def geoSectionOk (d : Dev) (together : List (Nat × List Byte)) (type : Nat) (p : List Byte) : Bool :=
  geoLengthOk type p && geoEntriesOk type p &&
    (let t := geoParse type p (together.foldl (fun t s => geoParse s.1 s.2 t) d.geo.tables)
     (decide (type = 0x12) || trisOk t) && (decide (type = 0x11) || segsOk t))

/-- Reports GEO.TABLES. -/
def geoReport (d : Dev) : Dev :=
  let t := d.geo.tables
  let d := liveSetB d offGeoStatus 1 (match d.boot.reload with
    | some l => l.secs.any fun s => s.ready && decide (0x10 ≤ s.type ∧ s.type ≤ 0x12)
    | none => false)
  liveSet d offGeoTables (BitVec.ofNat 32 (t.segs.length * 2 ^ 26 + t.tris.length * 2 ^ 12 + t.spk.length))

/-- A GEO section becomes active (R120). -/
def geoActivate (type : Nat) (p : List Byte) (d : Dev) : Dev :=
  geoReport { d with geo := { d.geo with tables := geoParse type p d.geo.tables } }

/-! ### Arithmetic -/

/-- Length of a vector of mm in UQ26.6 (R112). -/
def distQ6 (x y z : Int) : Nat := sqrtRatio ((x * x + y * y + z * z).natAbs * 4096) 1

/-- a / sqrt(s) in Q2.30. -/
def overSqrt (a : Int) (s : Nat) : Int :=
  let q : Int := sqrtRatio (a.natAbs * a.natAbs * 2 ^ 60) s
  if a < 0 then -q else q

/-- The unit vector of (x, y, z) in Q2.30; none at the origin. -/
def unitQ30 (x y z : Int) : Option (Int × Int × Int) :=
  let s := (x * x + y * y + z * z).natAbs
  if s = 0 then none else some (overSqrt x s, overSqrt y s, overSqrt z s)

/-- An angle in radians as degrees in Q9.22. -/
def degQ22 (a : Int) : Int := fxRound (fxDiv (a * 180) fxPi) 22

/-- The cell of a unit direction (R117). -/
def cellOf (u : Int × Int × Int) : Nat :=
  let az := degQ22 (fxAtan2 (-u.1) u.2.1)
  let c := isqrt ((2 ^ 60 - u.2.2 * u.2.2).toNat * 2 ^ 80)
  let el := degQ22 (fxAtan2 (u.2.2 * 2 ^ 40) (c : Int))
  let ai := ((az + 180 * 2 ^ 22) / 23592960).toNat % 64
  let ei := min 15 ((el + 90 * 2 ^ 22) / 47185920).toNat
  ei * 64 + ai

/-- Values divided by the square root of the sum of their squares, in Q2.30; none where all are zero. -/
def normList (l : List Int) : Option (List Int) :=
  let s := (l.foldl (fun a v => a + v * v) 0).natAbs
  if s = 0 then none else some (l.map fun v => overSqrt v s)

/-- The render rate in Hz. -/
def renderHz (d : Dev) : Nat := blockN d * 3000

/-- A time in ns in render-rate samples, Q13.30 (R114). -/
def nsQ30 (fs ns : Nat) : Int := rne ((ns * fs * 2 ^ 30 : Nat) : Int) 1000000000

/-- c in m/s as a double, from TEMP (R113). -/
def soundC (temp : Nat) : Int × Int :=
  let t := clampI (-20 * 256) (50 * 256) (sext 16 temp)
  let x := dblAdd (1, 0) (dblDiv (dblNorm t (-8)) (dblOfFx (fxRat 27315 100)))
  dblMul (dblOfFx (fxRat 3313 10)) (dblOfFx (fxSqrt (dblFx x)))

/-- k in UQ0.32 samples per mm at rate fs (R113). -/
def soundK (fs temp : Nat) : Nat :=
  let q := dblDiv (dblMul (dblNat (2 ^ 32)) (dblNat fs)) (dblMul (dblNat 1000) (soundC temp))
  (fxRound (dblFx q) 0).toNat

/-- k in force. -/
def kNow (d : Dev) : Nat := soundK (renderHz d) (actF d offGeoAir 15 0)

/-- Firmware computes c and k when a TEMP becomes active (R113). -/
def soundUpdate (d : Dev) : Dev :=
  let t := actF d offGeoAir 15 0
  let d := liveSet d offGeoSoundC (wordOf (fxRound (dblFx (soundC t)) 10))
  liveSet d offGeoSoundK (BitVec.ofNat 32 (kNow d))

/-- dist times k in Q13.30. -/
def distDelay (k dist : Nat) : Int := rshr ((dist * k : Nat) : Int) 8

/-! ### Laws -/

/-- What a law gives: candidates (target, law gain with 30 fraction bits, law delay Q13.30), status bits set, evaluations,
triangle, and the mode of each wavefront candidate. -/
structure LawOut where
  /-- Candidates. -/
  cands : List (Nat × Int × Int) := []
  /-- Bits of GEO.OBJ_STATUS. -/
  flags : Nat := 0
  /-- Evaluations (Table 6-1). -/
  evals : Nat := 0
  /-- Triangle used. -/
  tri : Nat := 0
  /-- Modes. -/
  modes : List (Nat × Bool) := []
  deriving DecidableEq, Repr

/-- Q2.30 one. -/
def one30 : Int := 2 ^ 30

/-- Sets a status bit. -/
def flagIf (b : Bool) (i : Nat) : Nat := if b then 2 ^ i else 0

/-- The gains of a direction on a triangle, Q2.30 (R117). -/
def triGains (u : Int × Int × Int) (t : Triangle) : List Int :=
  let v := fun i => t.inv.getD i 0
  (List.range 3).map fun c => rshr (u.1 * v c + u.2.1 * v (3 + c) + u.2.2 * v (6 + c)) 24

/-- The smallest of three gains. -/
def minOf (g : List Int) : Int := match g with
  | [] => 0
  | x :: t => t.foldl min x

/-- Tests the triangles of a cell list in order (R121): the chosen one and its gains, whether it is a fallback, and the number
tested. -/
def triSearch (tris : List Triangle) (u : Int × Int × Int) (l : List Nat) (fb : Option (Nat × List Int)) (n : Nat) :
    Option (Nat × List Int) × Bool × Nat :=
  match l with
  | [] => (fb, true, n)
  | t :: rest =>
    match tris[t]? with
    | none => triSearch tris u rest fb (n + 1)
    | some r =>
      let g := triGains u r
      if minOf g ≥ -(2 ^ 14) then (some (t, g), false, n + 1)
      else
        let fb' := match fb with
          | none => some (t, g)
          | some f => if minOf g > minOf f.2 then some (t, g) else some f
        triSearch tris u rest fb' (n + 1)

/-- The cosine table of R122. -/
def spreadCos (spread : Nat) : Int := fxRound (fxCosTurn spread 510) 30

/-- Sums the value of a key in a list of pairs. -/
def lookupI (l : List (Nat × Int)) (j : Nat) : Int := match l.find? fun e => e.1 = j with
  | some e => e.2
  | none => 0

/-- The panning law (R121 to R123). An empty cell list leaves the object silent, whatever its spread. A triangle none of whose gains is
above zero gives no gain (DESIGN CHOICE, assumption log entry 252). -/
def lawPan (t : GeoTables) (x y z : Int) (spread cap : Nat) : LawOut :=
  let u0 := unitQ30 x y z
  let u := match u0 with
    | some v => v
    | none => (0, one30, 0)
  let list := match t.cells.find? fun c => c.1 = cellOf u with
    | some c => c.2
    | none => []
  let s := triSearch t.tris u list none 0
  let gt : List (Nat × Int) := match s.1 with
    | none => []
    | some c => match normList (c.2.map fun v => max v 0), t.tris[c.1]? with
      | some nv, some r => ([r.a, r.b, r.c].zip nv).filter fun e => decide (e.2 ≠ 0)
      | _, _ => []
  let pan := t.spk.filter fun k => k.2.has 1
  let gains : List (Nat × Int) :=
    if spread = 0 ∨ s.1 = none then gt
    else
      let theta := rne ((spread * 180 * 2 ^ 22 : Nat) : Int) 255
      let w := pan.filterMap fun k => match unitQ30 k.2.x k.2.y k.2.z with
        | none => none
        | some v =>
          let cj := rshr (u.1 * v.1 + u.2.1 * v.2.1 + u.2.2 * v.2.2) 30
          if cj > spreadCos spread then some (k.1, cj - spreadCos spread) else none
      match normList (w.map (·.2)) with
      | none => gt
      | some wn =>
        let beta := rne (min theta (90 * 2 ^ 22) * 2 ^ 30) (90 * 2 ^ 22)
        let wd := (w.map (·.1)).zip wn
        pan.filterMap fun k =>
          let a := lookupI gt k.1
          let b := lookupI wd k.1
          let inner := (one30 - beta) * a * a + beta * b * b
          if inner = 0 then none else some (k.1, ((sqrtRatio inner.natAbs (2 ^ 30) : Nat) : Int))
  let real := gains.filter fun (e : Nat × Int) => e.2 != 0 && (match spkAt t e.1 with | some k => !(k.has 3) | none => true)
  let order := sortBy (fun (a b : Nat × Int) => decide (a.2 > b.2 ∨ (a.2 = b.2 ∧ a.1 ≤ b.1))) 16 real
  let keep := order.take cap
  let cands := match normList (keep.map (·.2)) with
    | none => []
    | some nv => ((keep.map (·.1)).zip nv).map fun e => (e.1, e.2, (0 : Int))
  { cands := cands, flags := flagIf s.2.1 31 + flagIf u0.isNone 30 + flagIf (decide (order.length > cap)) 23,
    evals := s.2.2 + (if spread = 0 then 0 else pan.length), tri := match s.1 with | some c => c.1 | none => 0 }

/-- The driving window of R125 in Q2.30. -/
def segWin (taper count i : Nat) : Int :=
  let q := if i < taper then i else if count - 1 - i < taper then count - 1 - i else count
  if q < taper then
    let s := fxSinTurn ((q + 1 : Nat) : Int) (4 * (taper + 1))
    fxRound (fxMul s s) 30
  else one30

/-- One segment of the wavefront law (R124, R125). The signed height is taken in whole mm, as positions are (DESIGN CHOICE, assumption log
entry 255). -/
def lawSegment (t : GeoTables) (fs k backset rmin : Nat) (x y z : Int) (a : LawOut) (sg : Segment) : LawOut :=
  let h := rne ((x - sg.rx) * sg.nx + (y - sg.ry) * sg.ny + (z - sg.rz) * sg.nz) 32768
  let focused := decide (h > 0) && sg.focus
  let bs : Int := backset
  let step := if focused then (if h < bs then bs - h else 0) else (if h > -bs then -(h + bs) else 0)
  let sx := x + rne (step * sg.nx) 32768
  let sy := y + rne (step * sg.ny) 32768
  let sz := z + rne (step * sg.nz) 32768
  let pre := nsQ30 fs sg.preNs
  let a := { a with flags := a.flags ||| flagIf (decide (h > 0) && !sg.focus) 25 }
  (List.range sg.count).foldl (fun (a : LawOut) i =>
    let a := { a with evals := a.evals + 1 }
    let j := sg.first + i
    match spkAt t j with
    | none => a
    | some sp =>
      let vx := sp.x - sx
      let vy := sp.y - sy
      let vz := sp.z - sz
      let dist := distQ6 vx vy vz
      let dm := max dist (rmin * 64)
      let c0 := rne ((vx * sp.nx + vy * sp.ny + vz * sp.nz) * 2 ^ 21) dm
      let c := if focused then -c0 else c0
      if c ≤ 0 then a
      else
        let g := rshr (dbGain sg.gain * segWin sg.taper sg.count i * c * ((sqrtRatio (sg.rref * 2 ^ 66) dm : Nat) : Int)) 80
        let dk := distDelay k dist
        let del := if focused then pre - dk else dk
        { a with cands := (j, g, max del 0) :: a.cands, flags := a.flags ||| flagIf (decide (del < 0)) 26,
                 modes := (j, focused) :: a.modes }) a

/-- The wavefront law (R124 to R126). -/
def lawWave (t : GeoTables) (fs k backset rmin : Nat) (mask : Word) (x y z : Int) (cap : Nat) : LawOut :=
  let r := t.segs.foldl (fun (a : LawOut) s => if bit mask s.1 then lawSegment t fs k backset rmin x y z a s.2 else a) {}
  let order := sortBy (fun (a b : Nat × Int × Int) => decide (a.2.1 > b.2.1 ∨ (a.2.1 = b.2.1 ∧ a.1 ≤ b.1))) 16 r.cands
  { r with cands := order.take cap, flags := r.flags ||| flagIf (decide (order.length > cap)) 23 }

/-- The precedence law (R128). -/
def lawPrec (t : GeoTables) (fs k : Nat) (floorDb offsetUs rref rmin : Nat) (x y z : Int) (cap : Nat) : LawOut :=
  let l := (t.spk.filter fun s => s.2.has 2).map fun s => (distQ6 (s.2.x - x) (s.2.y - y) (s.2.z - z), s.1)
  let order := sortBy (fun (a b : Nat × Nat) => decide (a.1 < b.1 ∨ (a.1 = b.1 ∧ a.2 ≤ b.2))) 16 l
  let keep := order.take cap
  let j0 := match keep with
    | [] => 0
    | h :: _ => h.2
  let fl := fxRound (dbLin (-(256 * (floorDb : Int)))) 30
  let off := nsQ30 fs (offsetUs * 1000)
  { cands := keep.map fun e =>
      (e.2, max fl (min one30 (rne ((rref * 2 ^ 36 : Nat) : Int) (max e.1 (rmin * 64)))), distDelay k e.1 + (if e.2 = j0 then 0 else off)),
    evals := l.length, flags := flagIf (decide (order.length > cap)) 23 }

/-- Factorial. -/
def fact (n : Nat) : Nat := match n with
  | 0 => 1
  | k + 1 => (k + 1) * fact k

/-- The m-th derivative of the Legendre polynomial of degree l at x / 2^30, as a numerator over 2^l * 2^(30 l). -/
def legDeriv (l m : Nat) (x : Int) : Int :=
  (List.range (l / 2 + 1)).foldl (fun a k =>
    let p := l - 2 * k
    if p < m then a
    else
      let c : Int := ((fact (2 * l - 2 * k) / (fact k * fact (l - k) * fact p) * (fact p / fact (p - m)) : Nat) : Int)
      a + (if k % 2 = 0 then c else -c) * x ^ (p - m) * 2 ^ (30 * (l - (p - m)))) 0

/-- The real and imaginary parts of (uy - i ux)^n, over 2^(30 n). -/
def powUy (u : Int × Int × Int) (n : Nat) : Int × Int := match n with
  | 0 => (1, 0)
  | k + 1 =>
    let r := powUy u k
    (r.1 * u.2.1 + r.2 * u.1, r.2 * u.2.1 - r.1 * u.1)

/-- Y(l, m) with 30 fraction bits (R130): the polynomial at the components of u, times the norm, rounded once. -/
def ambY (n3d : Bool) (u : Int × Int × Int) (l : Nat) (m : Int) : Int :=
  let am := m.natAbs
  let w := powUy u am
  let r := legDeriv l am u.2.2 * (if m ≥ 0 then w.1 else w.2)
  let num := (if am = 0 then 1 else 2) * fact (l - am) * (if n3d then 2 * l + 1 else 1)
  let den := fact (l + am)
  let q : Int := ((sqrtRatio (num * r.natAbs * r.natAbs * 2 ^ 60) (den * (2 ^ (l + 30 * l + 30 * am)) ^ 2) : Nat) : Int)
  if r < 0 then -q else q

/-- Groups in force by R129: number, order, first bus, norm; and the numbers of those disabled. -/
def ambGroups (d : Dev) : List (Nat × Nat × Nat × Bool) × List Nat :=
  (List.range 8).foldl (fun (a : List (Nat × Nat × Nat × Bool) × List Nat) g =>
    let w := actGet d (offGeoAmb g)
    if bit w 11 then
      let n := bits w 10 8
      let f := bits w 5 0
      let e := f + (n + 1) * (n + 1)
      if e > 64 ∨ a.1.any (fun o => decide (o.2.2.1 < e ∧ f < o.2.2.1 + (o.2.1 + 1) * (o.2.1 + 1))) then (a.1, a.2 ++ [g])
      else (a.1 ++ [(g, n, f, bit w 12)], a.2)
    else a) ([], [])

/-- The ambisonic law (R129 to R131). An object whose group is disabled costs no evaluations (assumption log entry 204). -/
def lawAmb (groups : List (Nat × Nat × Nat × Bool)) (k group : Nat) (distOn : Bool) (x y z : Int) : LawOut :=
  match groups.find? fun g => g.1 = group with
  | none => { flags := 2 ^ 22 }
  | some g =>
    let u0 := unitQ30 x y z
    let u := match u0 with
      | some v => v
      | none => (0, one30, 0)
    let del := if distOn then distDelay k (distQ6 x y z) else 0
    let n := g.2.1
    { cands := (List.range ((n + 1) * (n + 1))).map fun acn =>
        let l := isqrt acn
        (512 + g.2.2.1 + acn, ambY g.2.2.2 u l ((acn : Int) - (l * l + l : Nat)), del),
      evals := (n + 1) * (n + 1), flags := flagIf u0.isNone 30 }

/-- The largest differential delay in 1/256 sample (R114). -/
def delayTop : Nat := 2047 * 256 + 255

/-- A candidate becomes a crosspoint (R114, R115): none where its gain is zero; also the status bits it sets. -/
def compose (t : GeoTables) (fs : Nat) (objGain : Int) (bulk : Nat) (c : Nat × Int × Int) : Option Target × Nat :=
  let al := if c.1 < 512 then spkAt t c.1 else none
  let ag := match al with
    | some s => dbGain s.alignGain
    | none => 2 ^ 20
  let ad := match al with
    | some s => nsQ30 fs s.alignNs
    | none => 0
  let g := rshr (objGain * c.2.1 * ag) 50
  let sat := overS 23 g
  let g := satS 23 g
  if g = 0 then (none, flagIf sat 29)
  else
    let x := c.2.2 + ad - (bulk : Int) * 2 ^ 30
    let top : Int := (delayTop : Int) * 2 ^ 22
    let dl := if x < 0 then 0 else if x > top then delayTop else (rshr x 22).toNat
    (some ⟨c.1, g, dl, false⟩, flagIf sat 29 + flagIf (decide (x < 0)) 28 + flagIf (decide (x > top)) 27)

/-- Inserts a target in ascending order. -/
def targetIns (t : Target) (l : List Target) : List Target :=
  match l with
  | [] => [t]
  | h :: r => if t.tgt < h.tgt then t :: h :: r else h :: targetIns t r

/-- The footprint cap of an object (R88). -/
def footCap (law cap : Nat) : Nat :=
  let top := match law with
    | 1 => 16
    | 2 => 128
    | _ => 64
  if cap = 0 then top else min cap top

/-- Evaluates one object for the block of the epoch in progress (R110 to R131): what the law gives, and the target list. -/
def evalObject (d : Dev) (groups : List (Nat × Nat × Nat × Bool)) (k n bulk : Nat) : LawOut × List Target × Nat :=
  let t := d.geo.tables
  let fs := renderHz d
  let x := sext 24 (liveGet d (offObjStatX n)).toNat
  let y := sext 24 (liveGet d (offObjStatY n)).toNat
  let z := sext 24 (liveGet d (offObjStatZ n)).toNat
  let law := liveF d (offObjStatFlags n) 10 8
  let cap := footCap law (actF d (offObjCfg n) 15 8)
  let rmin := actF d offGeoWf 15 0
  let r := match law with
    | 1 => lawPan t x y z (liveF d (offObjStatGain n) 23 16) cap
    | 2 => lawWave t fs k (actF d offGeoWf 31 16) rmin (actGet d (offGeoObjSegmask n)) x y z cap
    | 3 => lawPrec t fs k (actF d offGeoPrec 23 16) (actF d offGeoPrec 15 0) (actF d offGeoPrecRef 22 0) rmin x y z cap
    | _ => lawAmb groups k (actF d (offGeoObjLawcfg n) 2 0) (actB d (offGeoObjLawcfg n) 4) x y z
  let og := dbGain (liveF d (offObjStatGain n) 15 0)
  let c := r.cands.foldl (fun (a : List Target × Nat) e =>
    let q := compose t fs og bulk e
    (match q.1 with | some v => targetIns v a.1 | none => a.1, a.2 ||| q.2)) ([], 0)
  (r, c.1, r.flags ||| c.2)

/-- The mode changes of a wavefront object (R127): its list marked, and the modes now driven. -/
def sideChange (d : Dev) (n : Nat) (r : LawOut) (l : List Target) : List Target × List (Nat × Bool) :=
  let now := l.filterMap fun t => r.modes.find? fun m => m.1 = t.tgt
  let old := mapGet (fun _ => []) d.geo.modes n
  (l.map fun t =>
    match now.find? fun m => m.1 = t.tgt, old.find? fun m => m.1 = t.tgt with
    | some a, some b => { t with side := decide (a.2 ≠ b.2) }
    | _, _ => t, now)

/-- One object of the block, its status reported. -/
def geoObject (groups : List (Nat × Nat × Nat × Bool)) (k : Nat) (bulkOf : Nat → Nat)
    (a : Dev × List (Nat × List Target) × Nat) (n : Nat) : Dev × List (Nat × List Target) × Nat :=
  let d := a.1
  let e := evalObject d groups k n (bulkOf n)
  let s := sideChange d n e.1 e.2.1
  let flags := e.2.2 ||| flagIf (s.1.any fun t => t.side) 24
  let keep := (liveGet d (offGeoObjStatus n)).toNat / 2 ^ 24 % 256 ||| flags / 2 ^ 24
  let w := keep * 2 ^ 24 + flags / 2 ^ 22 % 4 * 2 ^ 22 + e.1.tri * 256 + s.1.length
  let d := { d with geo := { d.geo with modes := mapSet (fun _ => []) d.geo.modes n s.2 } }
  (liveSet d (offGeoObjStatus n) (BitVec.ofNat 32 w), if s.1.isEmpty then a.2.1 else a.2.1 ++ [(n, s.1)], a.2.2 + e.1.evals)

/-- GEO.OBJ_STATUS of the slots that are not evaluated: the fields of the snapshot epoch read 0, the sticky bits stay (DESIGN CHOICE,
assumption log entry 253). -/
def geoRest (on : List Nat) (d : Dev) : Dev :=
  let all := d.regs.live.filterMap fun e =>
    if offGeoObjStatus 0 ≤ e.1 ∧ e.1 < offGeoObjStatus 1024 then some ((e.1 - offGeoObjStatus 0) / 16) else none
  (all.filter fun n => !(on.contains n)).foldl (fun d n =>
    liveSet d (offGeoObjStatus n) (liveGet d (offGeoObjStatus n) &&& 0xFF000000)) d

/-- GEO evaluates the targets of the block of the epoch in progress (R110, R133, R134). While OBJ does not run no object is evaluated and
none counts in GEO.LOAD (DESIGN CHOICE, assumption log entry 254). -/
def geoEvaluate (bulkOf : Nat → Nat) (d : Dev) : Dev :=
  let e := d.epc.epoch
  let on := match d.obj.active.find? fun a => a.1 = e with
    | some a => if running d blkObj && running d blkGeo then a.2 else []
    | none => []
  let d := geoRest on { d with geo := { d.geo with modes := d.geo.modes.filter fun m => on.contains m.1 } }
  if running d blkGeo then
    let g := ambGroups d
    let d := (List.range 8).foldl (fun d i => liveSetB d (offGeoAmb i) 31 (g.2.contains i)) d
    let d := liveSetB d offGeoStatus 2 (!g.2.isEmpty)
    let r := on.foldl (geoObject g.1 (kNow d) bulkOf) (d, [], 0)
    let direct := d.geo.tables.direct.map fun s => (s.1, s.2.map fun c => ({ tgt := c.1, gain := c.2, delay := 0, side := false } : Target))
    let d := { r.1 with geo := { r.1.geo with targets := (e, r.2.1 ++ direct) :: r.1.geo.targets.take 3 } }
    liveMax (liveSetF d offGeoLoad 19 0 r.2.2) offGeoLoadMax 19 0 r.2.2
  else
    liveSetF { d with geo := { d.geo with targets := (e, []) :: d.geo.targets.take 3, modes := [] } } offGeoLoad 19 0 0

end Sys2Proof.Machine
end

