-- ==== Sys2Proof/Machine/Xp.lean ====
section
/-!
DEFINITION. Sys2Proof/Machine/Xp.lean: chapter 07, pool allocation, bulk lines, the lanes and the reduction.
-/
namespace Sys2Proof.Machine

/-- Entries of the pool at the render rate (Table 7-3). -/
def poolSize (d : Dev) : Nat := if blockN d = 32 then 65536 else 131072

/-! ### Bulk delay -/

/-- The bulk delay of an object. -/
def getBulk (d : Dev) (n : Nat) : BulkState := mapGet (fun _ => {}) d.xp.bulk n

/-- Sets the bulk delay of an object. -/
def setBulk (d : Dev) (n : Nat) (b : BulkState) : Dev := { d with xp := { d.xp with bulk := mapSet (fun _ => {}) d.xp.bulk n b } }

/-- The bulk delay in force for the block of the epoch in progress (R138). -/
def bulkOf (d : Dev) (n : Nat) : Nat := (getBulk d n).cur

/-- Objects whose active BULK may differ from the one in force. -/
def bulkSlots (d : Dev) : List Nat :=
  let own := (actBank d).filterMap fun e => if 0xE04000 ≤ e.1 ∧ e.1 < 0xE05000 then some ((e.1 - 0xE04000) / 4) else none
  (own ++ d.xp.bulk.map (·.1)).foldl setIns []

/-- Bulk changes at an epoch start (R138): sequences in progress move on, then at most 128 waiting changes begin, in ascending
slot order. While XP does not run a change is taken at once. A second change of an object waits for the end of its sequence, and
BULK_QUEUED does not show it (DESIGN CHOICE, assumption log entry 250). -/
def bulkEpoch (d : Dev) : Dev :=
  let d := d.xp.bulk.foldl (fun d p =>
    match p.2.phase with
    | 1 => setBulk d p.1 { p.2 with cur := p.2.new, phase := 2 }
    | 2 => setBulk d p.1 { p.2 with phase := 0 }
    | _ => d) d
  let run := running d blkXp
  let r := (bulkSlots d).foldl (fun (a : Dev × Nat × Bool) n =>
    let b := getBulk a.1 n
    let want := actF a.1 (offXpBulk n) 13 0
    if b.phase ≠ 0 ∨ want = b.cur then a
    else if run = false then (setBulk a.1 n ⟨want, want, 0⟩, a.2)
    else if a.2.1 < 128 then
      (liveSetB (setBulk a.1 n { b with new := want, phase := 1 }) (offXpObjStatus n) 30 true, a.2.1 + 1, a.2.2)
    else (a.1, a.2.1, true)) (d, 0, false)
  liveSetB r.1 offXpStatus 2 r.2.2

/-! ### Allocation -/

/-- What allocation decides of a request (R151, R152). -/
inductive ReqState where
  | held
  | admitted
  | defer
  | displaced
  deriving DecidableEq, Repr

/-- A request (R149). -/
structure XpReq where
  /-- Place in pool order. -/
  idx : Nat
  /-- SOURCE. -/
  src : Nat
  /-- Target. -/
  t : Target
  /-- Priority. -/
  prio : Nat
  /-- The carried entry. -/
  carried : Option XpEntry
  /-- The crosspoint is rendered with the jump crossfade. -/
  jump : Bool
  /-- Barred (R152). -/
  barred : Bool
  /-- State. -/
  st : ReqState
  deriving DecidableEq, Repr

/-- KIND (Table 7-1): 0 object, 1 direct, 2 object ending. -/
def XpEntry.kind (e : XpEntry) : Nat := if e.ending then 2 else if 1024 ≤ e.src then 1 else 0

/-- Bits 119:0 of an entry (Table 7-1). -/
def XpEntry.bits (e : XpEntry) : Nat :=
  (BitVec.ofInt 24 e.gain).toNat + (BitVec.ofInt 28 e.gslope).toNat * 2 ^ 24 + e.delay % 2 ^ 24 * 2 ^ 52 +
    (BitVec.ofInt 17 e.dslope).toNat * 2 ^ 76 + e.tgt % 1024 * 2 ^ 93 + e.src % 2048 * 2 ^ 103 + e.kind * 2 ^ 114

/-- Even parity of each 16-bit group of an entry (Table 7-1), group g in bit g (DESIGN CHOICE, assumption log entry 249). -/
def XpEntry.sum (e : XpEntry) : BitVec 8 :=
  let b := e.bits
  BitVec.ofNat 8 ((List.range 8).foldl (fun a g =>
    a + ((List.range 16).foldl (fun p i => p + b / 2 ^ (16 * g + i) % 2) 0) % 2 * 2 ^ g) 0)

/-- The 16 bytes of an entry in the state SRAM (R135). -/
def XpEntry.word (e : XpEntry) : BitVec 128 := BitVec.ofNat 128 (e.bits + e.parity.toNat * 2 ^ 120)

/-- An entry passes its parity check (R368). -/
def XpEntry.sound (e : XpEntry) : Bool := decide (e.parity = e.sum)

/-- An entry as it is written to the state SRAM. -/
def sealEntry (e : XpEntry) : XpEntry := { e with parity := e.sum }

/-- Gain at the end of an entry's block. -/
def XpEntry.endGain (n : Nat) (e : XpEntry) : Int := (e.gain * 128 + (n : Int) * e.gslope) / 128

/-- Delay at the end of an entry's block. -/
def XpEntry.endDelay (n : Nat) (e : XpEntry) : Nat := (((e.delay * 256 : Nat) : Int) + (n : Int) * e.dslope).toNat / 256

/-- The extra cost of a request (R149). -/
def XpReq.extra (r : XpReq) : Nat := if r.carried.isSome && !r.jump then 0 else 1

/-- Keep order (R150): whether a comes before b. -/
def keepBefore (a b : XpReq) : Bool :=
  let da := decide (1024 ≤ a.src)
  let db := decide (1024 ≤ b.src)
  let ga := a.t.gain.natAbs
  let gb := b.t.gain.natAbs
  if da ≠ db then da
  else if a.prio ≠ b.prio then decide (b.prio < a.prio)
  else if ga ≠ gb then decide (gb < ga)
  else if a.src ≠ b.src then decide (a.src < b.src)
  else decide (a.t.tgt ≤ b.t.tgt)

/-- The entries of a block. -/
def poolOf (d : Dev) (b : Nat) : List XpEntry := match d.xp.pool.find? fun p => p.1 = b with
  | some p => p.2
  | none => []

/-- Entries grouped by source, ascending. -/
def groupEntries (l : List XpEntry) : List (Nat × List XpEntry) :=
  (l.foldl (fun (m : List (Nat × List XpEntry)) e => match m with
    | (s, es) :: t => if s = e.src then (s, e :: es) :: t else (e.src, [e]) :: m
    | [] => [(e.src, [e])]) []).reverse.map fun g => (g.1, g.2.reverse)

/-- The carried crosspoints of a block (R149). -/
def carriedOf (n : Nat) (l : List XpEntry) : List XpEntry := l.filter fun e => !e.ending && decide (e.endGain n ≠ 0) && e.sound

/-- A list of a grouped map. -/
def groupGet {α : Type} (m : List (Nat × List α)) (k : Nat) : List α := match m.find? fun g => g.1 = k with
  | some g => g.2
  | none => []

/-- A target of a source is barred in block x (R152). -/
def barred (d : Dev) (x src tgt : Nat) : Bool := match d.xp.holds.find? fun h => h.1 = src with
  | some h => decide (x < h.2.1) && h.2.2.contains tgt
  | none => false

/-- The requests of block x, in pool order (R91, R138, R149). -/
def requestsOf (d : Dev) (x : Nat) (carried : List (Nat × List XpEntry)) : List XpReq :=
  let n := blockN d
  let ts := match d.geo.targets.find? fun t => t.1 = x with
    | some t => t.2
    | none => []
  let jumps := match d.obj.jumps.find? fun j => j.1 = x with
    | some j => j.2
    | none => []
  ((ts.foldl (fun (a : List XpReq × Nat) s =>
    let obj := decide (s.1 < 1024)
    if obj && decide ((getBulk d s.1).phase ≠ 0) then a
    else
      let cs := groupGet carried s.1
      let find := fun (t : Target) => cs.find? fun c => c.tgt = t.tgt
      let still := obj && decide (actF d (offObjSlew s.1) 15 0 = 0) && s.2.any fun t => match find t with
        | some c => decide (c.endDelay n ≠ t.delay)
        | none => false
      let jump := obj && (jumps.contains s.1 || still)
      s.2.foldl (fun (b : List XpReq × Nat) t =>
        (⟨b.2, s.1, t, if obj then actF d (offObjCfg s.1) 27 24 else 0, find t, jump || t.side, barred d x s.1 t.tgt, .defer⟩ :: b.1,
          b.2 + 1)) a) ([], 0)).1).reverse

/-- R151: the requests in keep order are held, admitted or deferred within the budget. -/
def admitted (budget : Nat) (l : List XpReq) : List XpReq :=
  (l.foldl (fun (a : List XpReq × Nat) r =>
    if r.barred then ({ r with st := .held } :: a.1, a.2)
    else if r.extra ≤ a.2 then ({ r with st := .admitted } :: a.1, a.2 - r.extra)
    else ({ r with st := .defer } :: a.1, a.2)) ([], budget)).1.reverse

/-- An admitted carried ramp of an object: one that R152 may displace. -/
def mayDisplace (r : XpReq) : Bool := decide (r.st = .admitted ∧ r.src < 1024) && r.carried.isSome && !r.jump

/-- R152: the number of pairs of best deferred and worst admitted requests in which the first ranks above the second. -/
def displacePairs (d a : List XpReq) : Nat := match d, a with
  | x :: ds, y :: as => if keepBefore x y then displacePairs ds as + 1 else 0
  | _, _ => 0

/-- R152: the k worst requests that may be displaced, taken from the end of keep order. -/
def displace (k : Nat) (l : List XpReq) : List XpReq :=
  (l.reverse.foldl (fun (a : List XpReq × Nat) r =>
    if 0 < a.2 ∧ mayDisplace r = true then ({ r with st := .displaced } :: a.1, a.2 - 1) else (r :: a.1, a.2)) ([], k)).1

/-- The slew bound S of an object in 2^-16 sample (R143). -/
def slewOf (d : Dev) (n src : Nat) : Nat :=
  let m := actF d (offObjSlew src) 15 0
  let q := if n = 16 then 16 else 8
  if m ≠ 0 ∧ m / q = 0 then q else m / q * q

/-- A ramping entry (R142, R143): the entry, and whether S held its delay back. -/
def rampEntry (n s bulk src : Nat) (c : XpEntry) (t : Target) : XpEntry × Bool :=
  let g := c.endGain n
  let dl := c.endDelay n
  let step := ((t.delay : Int) - (dl : Int)) * 256 / (n : Int)
  let lim := clampI (-(s : Int)) (s : Int) step
  (⟨src, t.tgt, false, g, (t.gain - g) * 128 / (n : Int), dl, if src < 1024 then lim else 0, bulk, 0⟩, decide (src < 1024 ∧ lim ≠ step))

/-- An object-ending entry (R144). -/
def endEntry (n : Nat) (c : XpEntry) : XpEntry :=
  ⟨c.src, c.tgt, true, c.endGain n, -(c.endGain n) * 128 / (n : Int), c.endDelay n, 0, c.bulk, 0⟩

/-- A fade-in entry, also the incoming half of a jump (R144). -/
def startEntry (n bulk src : Nat) (t : Target) : XpEntry := ⟨src, t.tgt, false, 0, t.gain * 128 / (n : Int), t.delay, 0, bulk, 0⟩

/-- The entries of one request (R142 to R144, R151, R152), and whether its delay was held back. -/
def requestEntries (d : Dev) (n : Nat) (r : XpReq) : List XpEntry × Bool :=
  let b := if r.src < 1024 then bulkOf d r.src else 0
  match r.st, r.carried with
  | .admitted, some c =>
    if r.jump then ([endEntry n c, startEntry n b r.src r.t], false)
    else
      let e := rampEntry n (slewOf d n r.src) b r.src c r.t
      ([e.1], e.2)
  | .admitted, none => ([startEntry n b r.src r.t], false)
  | _, some c => ([endEntry n c], false)
  | _, none => ([], false)

/-- Pool order (R145). -/
def poolBefore (a b : XpEntry) : Bool :=
  if a.src ≠ b.src then decide (a.src < b.src) else if a.tgt ≠ b.tgt then decide (a.tgt < b.tgt) else a.ending || !b.ending

/-- A pool fade of a request: a deferred carried jump or a displaced crosspoint (R153). -/
def poolFade (r : XpReq) : Bool := decide (r.st = .displaced) || (decide (r.st = .defer) && r.carried.isSome)

/-- Bars a displaced target (R152). -/
def barTarget (hold : Nat) (d : Dev) (r : XpReq) : Dev :=
  let old := match d.xp.holds.find? fun h => h.1 = r.src with
    | some h => h.2.2
    | none => []
  let rest := d.xp.holds.filter fun h => decide (h.1 ≠ r.src)
  { d with xp := { d.xp with holds := mapIns rest r.src (d.epc.epoch + hold, setIns old r.t.tgt) } }

/-- Reports the allocation for one slot (R153). -/
def slotAlloc (entries : List (Nat × List XpEntry)) (reqs : List (Nat × List XpReq)) (d : Dev) (s : Nat) : Dev :=
  let rs := groupGet reqs s
  let shed := (rs.filter fun r => decide (r.st ≠ .admitted)).length
  let fades := (rs.filter poolFade).length
  let off := offXpObjStatus s
  let d := liveSetF (liveSetF d off 8 0 (groupGet entries s).length) off 17 9 shed
  let d := liveSetB d off 27 (rs.any fun r => decide (r.st = .defer))
  let d := liveSetB d off 28 (d.xp.holds.any fun h => decide (h.1 = s))
  let d := if rs.any fun r => decide (r.st = .displaced) then liveSetB d off 29 true else d
  let d := if fades = 0 then d else bumpBy d (offXpObjShedTotal s) fades
  if s < 1024 then liveSetB d (offObjStatFlags s) 28 (decide (shed ≠ 0)) else d

/-- Slots that report something of an allocation now. -/
def reportedSlots (d : Dev) : List Nat :=
  (d.regs.live.filterMap fun e => if 0xE06000 ≤ e.1 ∧ e.1 < 0xE07800 then some ((e.1 - 0xE06000) / 4) else none)

/-- Groups requests by source. -/
def groupReqs (l : List XpReq) : List (Nat × List XpReq) :=
  l.foldr (fun r m => match m with
    | (s, rs) :: t => if s = r.src then (s, r :: rs) :: t else (r.src, [r]) :: m
    | [] => [(r.src, [r])]) []

/-- Place q of the pool runs on a lane of an active cluster position (R145). -/
def onPos (pos q : Nat) : Bool := decide (q % 16 / 4 = pos)

/-- An entry without gain. -/
def muteEntry (e : XpEntry) : XpEntry := { e with gain := 0, gslope := 0 }

/-- A hard fault of the cluster at a position may have struck the entries on its lanes: which fail their check from then on is free
(R368). -/
def strikePool (pos : Nat) (d : Dev) : Dev :=
  match d.xp.pool with
  | [] => d
  | (b, es) :: t =>
    let hit := fun (q : XpEntry × Nat) =>
      if onPos pos q.2 then { q.1 with parity := q.1.parity ^^^ Config.struck d.epc.epoch q.2 } else q.1
    { d with xp := { d.xp with pool := (b, es.zipIdx.map hit) :: t } }

/-- The entry of a place of a frozen pool (R368): a carried crosspoint ramps to its target, or to zero where it has none; a place
whose entry has ended stays, and so does one whose entry fails its parity check, which no lane renders. -/
def frozenEntry (d : Dev) (n : Nat) (reqs : List (Nat × List XpReq)) (e : XpEntry) : XpEntry × Bool :=
  if e.sound = false then (e, false)
  else if e.ending = true ∨ e.endGain n = 0 then ({ muteEntry e with ending := true, dslope := 0 }, false)
  else match (groupGet reqs e.src).find? fun r => decide (r.t.tgt = e.tgt) with
    | some r => rampEntry n (slewOf d n e.src) (if e.src < 1024 then bulkOf d e.src else 0) e.src e r.t
    | none => (endEntry n e, false)

/-- Reports an allocation in XP's registers (R153). -/
def reportAlloc (entries : List XpEntry) (done : List XpReq) (requested : Nat) (d : Dev) : Dev :=
  let shed := (done.filter fun r => decide (r.st ≠ .admitted)).length
  let d := if shed = 0 then d else liveSetB d offXpStatus 0 true
  let d := liveSet d offXpPoolUsed (BitVec.ofNat 32 entries.length)
  let d := liveSet d offXpPoolRequested (BitVec.ofNat 32 requested)
  let d := liveSet d offXpPoolShed (BitVec.ofNat 32 shed)
  let eg := groupEntries entries
  let rg := groupReqs done
  ((eg.map (·.1) ++ rg.map (·.1)).foldl setIns (reportedSlots d)).foldl (slotAlloc eg rg) d

/-- The allocation of a frozen pool (R368): every entry keeps its place, nothing is admitted or displaced and no jump starts. -/
def allocateFrozen (d : Dev) : Dev :=
  let x := d.epc.epoch
  let n := blockN d
  let old := poolOf d (x - 1)
  let car := carriedOf n old
  let reqs := (requestsOf d x (groupEntries car)).map fun r =>
    { r with st := if r.carried.isSome then .admitted else .defer, jump := false }
  let made := old.map (frozenEntry d n (groupReqs reqs))
  let entries := (made.zip old).map fun m => if m.2.sound then sealEntry m.1.1 else m.2
  let d := made.foldl (fun d m => if m.2 then liveSetB d (offXpObjStatus m.1.src) 31 true else d) d
  let d := { d with xp := { d.xp with pool := (x, entries) :: d.xp.pool.take 5 } }
  reportAlloc entries reqs (reqs.foldl (fun a r => a + r.extra) car.length) d

/-- At the takeover every entry that the failed lanes did not render fades in to its target (R367). -/
def takeoverEntry (n : Nat) (silent : List XpEntry) (reqs : List (Nat × List XpReq)) (e : XpEntry) : XpEntry :=
  if silent.any fun c => decide (c.src = e.src ∧ c.tgt = e.tgt) then
    if e.ending then muteEntry e
    else match (groupGet reqs e.src).find? fun r => decide (r.t.tgt = e.tgt) with
      | some r => startEntry n e.bulk e.src r.t
      | none => muteEntry e
  else e

/-- XP allocates the pool for the block of the epoch in progress (R148 to R154, R349, R367); while it does not run no hold stands. At the
takeover a crosspoint whose entry has failed its parity check waits one block more (R368). A side change of R127 alone sets JUMPED too
(DESIGN CHOICE, assumption log entry 117). -/
def allocateOpen (d : Dev) : Dev :=
  let x := d.epc.epoch
  let n := blockN d
  let run := running d blkXp
  let d := if run then d else { d with xp := { d.xp with holds := [] } }
  let car := if run then carriedOf n (poolOf d (x - 1)) else []
  let cg := groupEntries car
  let all := if run then requestsOf d x cg else []
  let failed := match d.xp.dead with
    | some (_, some t) => if t = x then (poolOf d (x - 1)).filter (fun (e : XpEntry) => !e.sound) else []
    | _ => []
  let out := fun (r : XpReq) => failed.any fun e => decide (e.src = r.src ∧ e.tgt = r.t.tgt)
  let reqs := all.filter fun r => !(out r)
  let keep := admitted (poolSize d - car.length) (sortBy keepBefore 20 reqs)
  let k := displacePairs (keep.filter fun r => decide (r.st = .defer)) (keep.reverse.filter mayDisplace)
  let done := sortBy (fun a b => decide (a.idx ≤ b.idx)) 20 (displace k keep ++ all.filter out)
  let rg := groupReqs done
  let gone := car.filter fun c => !((groupGet rg c.src).any fun r => decide (r.t.tgt = c.tgt))
  let made := done.map fun r => (r.src, requestEntries d n r)
  let entries := sortBy poolBefore 20 (made.foldr (fun m l => m.2.1 ++ l) (gone.map (endEntry n)))
  let entries := match d.xp.dead with
    | some (pos, some t) =>
      if t = x then
        let silent := ((poolOf d (x - 1)).zipIdx.filter fun q => onPos pos q.2).map (·.1)
        entries.map (takeoverEntry n silent rg)
      else entries
    | _ => entries
  let d := made.foldl (fun d m => if m.2.2 then liveSetB d (offXpObjStatus m.1) 31 true else d) d
  let d := done.foldl (fun d r => if r.jump && decide (r.src < 1024) then liveSetB d (offObjStatFlags r.src) 29 true else d) d
  let d := (done.filter fun r => decide (r.st = .displaced)).foldl (barTarget (actF d offXpShedCfg 15 0)) d
  let fades := done.filter poolFade
  let d := { d with xp := { d.xp with pool := (x, entries.map sealEntry) :: d.xp.pool.take 5,
                                       fades := (d.xp.fades.1 + fades.length, fades.foldl (fun m r => max m r.prio) d.xp.fades.2) } }
  let d := if k = 0 then d else liveSetB d offXpStatus 1 true
  let d := if fades.isEmpty then d else raiseOwn d 40
  let d := bumpBy d offXpShedTotal fades.length
  reportAlloc entries done (done.foldl (fun a r => a + r.extra) car.length) d

/-- The allocation of an epoch: the pool is frozen from a hard fault of a crosspoint cluster to the takeover (R368). -/
def allocate (d : Dev) : Dev :=
  match d.xp.dead with
  | some (_, none) => if running d blkXp then allocateFrozen d else allocateOpen d
  | _ => allocateOpen d

/-- SHED_HOLD_EXPIRY (R152): a hold that has reached its epoch clears its bits. -/
def holdExpiry (s : Nat) (d : Dev) : Dev :=
  let held := d.xp.holds.any fun h => decide (h.1 = s ∧ h.2.1 ≤ d.epc.epoch)
  if held then
    liveSetB { d with xp := { d.xp with holds := d.xp.holds.filter fun h => decide (h.1 ≠ s) } } (offXpObjStatus s) 28 false
  else d

/-! ### Lanes -/

/-- Blocks in a bulk line (R136). -/
def lineBlocks (n : Nat) : Nat := 32768 / n

/-- The render DMA writes the block that came in an epoch into an object's bulk line (R137). -/
def lineWrite (n ep : Nat) (a : Audio) (lines : List (Nat × List (Nat × List Int))) (s : Nat) : List (Nat × List (Nat × List Int)) :=
  mapUpd (fun _ => []) lines s fun l => mapSet (fun _ => []) l (ep % lineBlocks n) (mapGet (fun _ => []) a s)

/-- The sample of a bulk line that lies `back` samples before the last sample of the block that came in an epoch. -/
def lineSample (n ep : Nat) (l : List (Nat × List Int)) (back : Nat) : Int :=
  let top := ep % lineBlocks n * n + n - 1 + 32768
  let i := top - back
  sampleAt (mapGet (fun _ => []) l (i / n % lineBlocks n)) (i % n)

/-- Words of a ring (R137). -/
def ringWords : Nat := 2112

/-- How far the newest word of a ring at bulk delay b lies before the last sample of the block in the lanes (R137). -/
def ringTop (b : Nat) : Nat := b - 3

/-- A word of a ring as the object window SRAM holds it (R137): the sample, the 6 check bits of the code, two bits unused. The spec gives no
code; no command of the table spoils a word, so nothing else reads the check bits (assumption log entry 248). -/
def ringWord (x : Int) : BitVec 32 := (Config.ringCheck (BitVec.ofInt 24 x)).setWidth 32 <<< 24 ||| (BitVec.ofInt 24 x).setWidth 32

/-- The ring of an object (R137). -/
def objRing (d : Dev) (s : Nat) : Nat × List Int := mapGet (fun _ => (0, [])) d.xp.rings s

/-- Sets the ring of an object. -/
def setObjRing (d : Dev) (s : Nat) (r : Nat × List Int) : Dev :=
  { d with xp := { d.xp with rings := mapSet (fun _ => (0, [])) d.xp.rings s (r.1, trimZeros r.2) } }

/-- The bulk delay at which an object's ring is wanted for the block in the lanes: that of its entries, else the one in force. -/
def ringDelay (d : Dev) (s : Nat) : Nat := match d.xp.work.find? fun w => decide (w.2.src = s) with
  | some w => w.2.bulk
  | none => bulkOf d s

/-- The render DMA fills an object's ring from its bulk line: the new samples, or the whole ring after a change of its bulk delay
(R137, R138). -/
def ringFill (s : Nat) (d : Dev) : Dev :=
  let n := blockN d
  let b := ringDelay d s
  let l := mapGet (fun _ => []) d.xp.lines s
  let from' := fun (k : Nat) => (List.range k).map fun j => lineSample n d.epc.epoch l (ringTop b + j)
  let old := objRing d s
  setObjRing d s (b, if b = old.1 then from' n ++ (if old.2.isEmpty then List.replicate (ringWords - n) 0 else old.2.take (ringWords - n))
    else from' ringWords)

/-- The word of a ring that lies `back` samples before the last sample of the block in the lanes. -/
def ringSample (r : Nat × List Int) (back : Nat) : Int := if ringTop r.1 ≤ back then sampleAt r.2 (back - ringTop r.1) else 0

/-- One output sample of an object entry (R140): the product in Q16.40. -/
def objSample (n : Nat) (ring : Nat × List Int) (e : XpEntry) (k : Nat) : Int :=
  let g := e.gain * 128 + ((k + 1 : Nat) : Int) * e.gslope
  let dd := ((e.delay * 256 : Nat) : Int) + ((k + 1 : Nat) : Int) * e.dslope
  let t0 := rne (((e.bulk * 65536 : Nat) : Int) + dd) 256
  let t := if t0 < 768 then rne t0 256 * 256 else t0
  let back := (t / 256).toNat + (n - 1 - k)
  let f := (t % 256).toNat
  let row := if f = 0 then [0, 0, 0, 0, 2 ^ 22, 0, 0, 0] else interpRow f
  let sum := (List.range 8).foldl (fun a tap =>
    let w := if tap ≤ back + 4 then ringSample ring (back + 4 - tap) else 0
    a + row.getD tap 0 * w) 0
  rshr (rshr sum 15 * g) 17

/-- One output sample of a direct entry (R141). -/
def directSample (x : List Int) (e : XpEntry) (k : Nat) : Int := rshr (sampleAt x k * (e.gain * 128 + ((k + 1 : Nat) : Int) * e.gslope)) 10

/-- A lane runs one entry (R140, R141): the banks, and the targets whose accumulator saturated. -/
def laneEntry (d : Dev) (n : Nat) (a : Audio) (r : List (Nat × List Int) × List Nat) (w : Nat × XpEntry) :
    List (Nat × List Int) × List Nat :=
  let e := w.2
  let key := w.1 * 1024 + e.tgt
  let ring := objRing d e.src
  let x := mapGet (fun _ => []) a e.src
  let old := mapGet (fun _ => []) r.1 key
  let new := (List.range n).map fun k => sampleAt old k + (if e.src < 1024 then objSample n ring e k else directSample x e k)
  (mapSet (fun _ => []) r.1 key (new.map (satS 56)), if new.any (overS 56) then setIns r.2 e.tgt else r.2)

/-- The entries with which block b is rendered after block `last` (R24, R145): its own; held at their ends where the block is
rendered a second time; ramped from the ends of the block rendered before where one was passed over. -/
def entriesFor (d : Dev) (n b : Nat) (last : Option Nat) : List XpEntry :=
  let own := poolOf d b
  match last with
  | some l =>
    if l = b then
      (carriedOf n own).map fun e => sealEntry { e with gain := e.endGain n, gslope := 0, delay := e.endDelay n, dslope := 0 }
    else if l + 2 = b then
      let old := carriedOf n (poolOf d l)
      let new := carriedOf n own
      let og := groupEntries old
      let ng := groupEntries new
      let ramps := new.map fun e => match (groupGet og e.src).find? fun c => c.tgt = e.tgt with
        | some c => { e with gain := c.endGain n, gslope := (e.endGain n - c.endGain n) * 128 / (n : Int), delay := c.endDelay n,
                             dslope := ((e.endDelay n : Int) - (c.endDelay n : Int)) * 256 / (n : Int) }
        | none => { e with gain := 0, gslope := e.endGain n * 128 / (n : Int), delay := e.endDelay n, dslope := 0 }
      let fades := (old.filter fun c => !((groupGet ng c.src).any fun e => decide (e.tgt = c.tgt))).map (endEntry n)
      (sortBy poolBefore 20 (ramps ++ fades)).map sealEntry
    else own
  | none => own

/-- The block that arrived at the input slots in the epoch before. -/
def arrived (d : Dev) : Option (Nat × Audio) :=
  (d.path.slots.find? fun s => s.epoch + 1 = d.epc.epoch).map fun s => (s.block, s.audio)

/-- Blocks of which an object stays out after a bulk-line error (R344). -/
def lostBlocks (n : Nat) : Nat := 2112 / n

/-- An entry of a silenced object (R344): it fades out, stays out or fades in. -/
def lostEntry (n count : Nat) (silent : Bool) (e : XpEntry) : XpEntry :=
  if count = 1 ∧ silent = false then { e with gslope := -(e.gain * 128 / (n : Int)), dslope := 0 }
  else if count ≤ lostBlocks n then muteEntry e
  else { e with gain := 0, gslope := e.endGain n * 128 / (n : Int), delay := e.endDelay n, dslope := 0 }

/-- An entry as its lane renders it, where its object is silenced by R344. -/
def heardEntry (d : Dev) (e : XpEntry) : XpEntry :=
  match d.xp.lost.find? fun l => decide (l.1 = e.src ∧ 0 < l.2.1 ∧ e.src < 1024) with
  | some l => lostEntry (blockN d) l.2.1 l.2.2 e
  | none => e

/-- The entries that the lanes render for block b, each with its lane (R145): not those of a failed cluster (R367) nor those that fail
their parity check (R368). -/
def laneEntries (d : Dev) (b : Nat) (es : List XpEntry) : List (Nat × XpEntry) :=
  let off := fun (q : Nat) => match d.xp.dead with
    | some (pos, none) => onPos pos q
    | some (pos, some t) => decide (b < t) && onPos pos q
    | none => false
  es.zipIdx.filterMap fun q => if off q.2 || !q.1.sound then none else some (q.2 % 16, q.1)

/-- The lanes go on (R137, R145): each renders its entries in order up to the first whose ring is not yet filled. -/
def lanesGo (d : Dev) : Dev :=
  match arrived d with
  | none => d
  | some (_, a) =>
    let n := blockN d
    let r := d.xp.work.foldl (fun (x : (List (Nat × List Int) × List Nat) × List Nat × List (Nat × XpEntry)) w =>
      if x.2.1.contains w.1 || decide (w.2.src < 1024) && d.xp.waiting.contains w.2.src then (x.1, setIns x.2.1 w.1, w :: x.2.2)
      else (laneEntry d n a x.1 (w.1, heardEntry d w.2), x.2)) ((d.xp.banks, d.xp.satTargets), [], [])
    { d with xp := { d.xp with banks := r.1.1, satTargets := r.1.2, work := r.2.2.reverse } }

/-- RING_FILLED (R137): rings fill in ascending slot order; the lowest that waits is filled and a lane that waits for it goes on. -/
def ringFilled (s : Nat) (d : Dev) : Dev :=
  if d.xp.waiting.head? = some s then
    let d := ringFill s d
    lanesGo { d with xp := { d.xp with waiting := setDel d.xp.waiting s } }
  else d

/-- The fill completes, in ascending slot order (R137). -/
def ringsFill (d : Dev) : Dev := d.xp.waiting.foldl (fun d s => ringFilled s d) d

/-- Phase A in XP (R26, R137, R140) while the values of the block that has arrived let XP run (R35, R154): the block is written to the
bulk lines, which with the rings hold nothing from before XP's start (R349), and goes to the lanes. In an epoch without a block in the
lanes LANE_END keeps its value (DESIGN CHOICE, assumption log entry 251). -/
def lanesRun (d : Dev) : Dev :=
  match arrived d with
  | none => { d with xp := { d.xp with banks := [], satTargets := [], block := none, waiting := [], work := [] } }
  | some (b, a) =>
    let n := blockN d
    if runningAt d b blkXp then
      let held := if d.xp.lastBlock.isSome then d.xp.lines else []
      let slots := (held.map (·.1) ++ (a.map (·.1)).filter fun s => decide (s < 1024)).foldl setIns []
      let all := entriesFor d n b d.xp.lastBlock
      let es := laneEntries d b all
      let objs := es.filter fun w => decide (w.2.src < 1024)
      let d := { d with xp := { d.xp with
        lines := slots.foldl (lineWrite n d.epc.epoch a) held, rings := if d.xp.lastBlock.isSome then d.xp.rings else [],
        banks := [], satTargets := [], work := es, block := some b, lastBlock := some b,
        lost := if d.xp.lastBlock.isSome then
            (d.xp.lost.map fun (l : Nat × Nat × Bool) => (l.1, l.2.1 + 1, l.2.2)).filter fun l => decide (l.2.1 ≤ lostBlocks n + 1)
          else [],
        dead := match d.xp.dead with
          | some (p, some t) => if b < t then some (p, some t) else none
          | x => x } }
      let waiting := (d.xp.lines.map (·.1) ++ d.xp.rings.map (·.1) ++ objs.map (·.2.src)).foldl setIns []
      let wait := if objs.isEmpty then 0 else Config.fillWait b % (if n = 16 then 4001 else 6001)
      let cyc := if es.isEmpty then 0 else (all.length + 15) / 16 * n + wait
      lanesGo (liveMax (liveSetF { d with xp := { d.xp with waiting := waiting } } offXpLaneEnd 17 0 cyc) offXpLaneEndMax 17 0 cyc)
    else { d with xp := { d.xp with banks := [], satTargets := [], block := some b, lastBlock := none, waiting := [], work := [], lost := [] } }

/-- Where an object stands after a bulk-line error (R344): it fades out across the block in the lanes, or across the next where it has been
rendered; a silent one stays out, counted from the block of the error. -/
def lostNow (n : Nat) (wait : Bool) (old : Option (Nat × Bool)) : Nat × Bool :=
  match old with
  | none => (if wait then 1 else 0, false)
  | some (c, q) =>
    if c = 0 ∨ (wait = true ∧ c = 1) then (c, q)
    else if wait = false ∧ c = lostBlocks n + 1 then (0, false)
    else (1, if c = 1 then q else true)

/-- A bulk-line read or write of an object has failed (R344): the words of the burst, at a byte offset of its line, are zero in the line
after a write and in the ring after a read; the object fades out and stays out. -/
def bulkLost (s : Nat) (write : Bool) (off len : Nat) (d : Dev) : Dev :=
  let n := blockN d
  let words := (List.range ((len + 3) / 4)).map fun i => (off / 4 + i) % 32768
  let wait := d.xp.waiting.contains s
  let d :=
    if write then
      words.foldl (fun d w =>
        let line := mapUpd (fun _ => []) (mapGet (fun _ => []) d.xp.lines s) (w / n) fun blk =>
          trimZeros (((List.range n).map (sampleAt blk)).set (w % n) 0)
        { d with xp := { d.xp with lines := mapSet (fun _ => []) d.xp.lines s line } }) d
    else
      let d := if wait then ringFill s d else d
      let r := objRing d s
      let top := d.epc.epoch % lineBlocks n * n + n - 1 + 32768
      setObjRing d s (r.1, words.foldl (fun l w =>
        let k := (top - ringTop r.1 + 32768 - w) % 32768
        if k < l.length then l.set k 0 else l) r.2)
  let v := lostNow n wait ((d.xp.lost.find? fun l => decide (l.1 = s)).map (·.2))
  let d := { d with xp := { d.xp with lost := mapIns (mapDel d.xp.lost s) s v } }
  if wait && !write then lanesGo { d with xp := { d.xp with waiting := setDel d.xp.waiting s } } else d

/-- Adds two sample lists. -/
def addSamples (n : Nat) (a b : List Int) : List Int := (List.range n).map fun k => sampleAt a k + sampleAt b k

/-- The reduction (R146): the banks of each target summed and rounded to Q4.28; saturated targets are counted. -/
def reduce (d : Dev) : Dev :=
  let d := ringsFill d
  match d.xp.block with
  | none => d
  | some b =>
    let n := blockN d
    let sums := d.xp.banks.foldl (fun (m : Audio) k => mapUpd (fun _ => []) m (k.1 % 1024) fun o => addSamples n o k.2) []
    let out : Audio := sums.filterMap fun e =>
      let y := trimZeros (e.2.map fun v => satS 32 (rshr v 12))
      if y.isEmpty then none else some (e.1, y)
    let sat := (sums.filter fun e => e.2.any fun v => over8 (rshr v 12)).map (·.1)
    let count := (sat.foldl setIns d.xp.satTargets).length
    let c := min 0xFFFFFFFF ((liveGet d offXpFeedSat).toNat + count)
    liveSet { d with path := { d.path with reduced := ⟨d.epc.epoch, b, out⟩ :: d.path.reduced.take 3 },
                     xp := { d.xp with banks := [], satTargets := [], block := none, waiting := [], work := [] } } offXpFeedSat (BitVec.ofNat 32 c)

/-- XP at an epoch start (R138, R153): the entry for the epoch that ended, the pool's size. -/
def xpEpoch (d : Dev) : Dev :=
  let d := if d.xp.fades.1 = 0 then d
    else raiseErr d (srcOf blkXp 0) 0x0203 (BitVec.ofNat 32 d.xp.fades.1) (BitVec.ofNat 32 d.xp.fades.2)
  let d := { d with xp := { d.xp with fades := (0, 0) } }
  liveSet d offXpPoolCap (BitVec.ofNat 32 (poolSize d))

/-- RING_FILLED (R137). -/
def execRingFilled (slot : Nat) (s : State) : Host.Outcome State Fault Refusal := ranIf (decide (slot < 1024)) s (ringFilled slot)

/-- SHED_HOLD_EXPIRY (R152). -/
def execShedHoldExpiry (slot : Nat) (s : State) : Host.Outcome State Fault Refusal :=
  ranIf (decide (slot < 1536)) s (holdExpiry slot)

end Sys2Proof.Machine
end

