-- ==== Sys2Proof/Machine/Moon.lean ====
section
/-!
DEFINITION. Sys2Proof/Machine/Moon.lean: chapter 16, moon clusters: hard faults, checkpoints, substitution, planned replacement
and patrol (R365 to R371). Pool 0 is the crosspoint pool, pool 1 the vector pool.
-/
namespace Sys2Proof.Machine

/-- The moon of a pool. -/
def moonOf (d : Dev) (pool : Nat) : Nat := if pool = 0 then liveF d offTwnMoonStatus 2 0 else liveF d offTwnMoonStatus 11 8

/-- XP_AVAIL or VEC_AVAIL. -/
def moonAvail (d : Dev) (pool : Nat) : Bool := liveB d offTwnMoonStatus (12 + pool)

/-- Sets XP_AVAIL or VEC_AVAIL. -/
def setAvail (d : Dev) (pool : Nat) (b : Bool) : Dev := liveSetB d offTwnMoonStatus (12 + pool) b

/-- Sets RESULT (R369): 1 PENDING, 2 DONE, 3 RANGE, 4 BUSY, 5 NO_MOON, 6 VERIFY_FAIL, 7 HANDLER, 8 BAD_CLUSTER. -/
def moonResult (d : Dev) (v : Nat) : Dev := liveSetF d offTwnMoonStatus 31 28 v

/-- Replaces the moon state. -/
def setMoon (d : Dev) (m : Moon) : Dev := { d with moon := m }

/-- The moon of a pool is there and not yet spent on a hard fault. -/
def moonFree (d : Dev) (pool : Nat) : Bool :=
  moonAvail d pool && !(d.moon.jobs.any fun j => decide (j.pool = pool) && !j.planned)

/-- Active cluster position of a physical cluster. -/
def clusterPos (d : Dev) (pool cluster : Nat) : Option Nat :=
  if pool = 0 then (List.range 4).find? fun p => d.moon.xpPlaces[p]? = some cluster
  else (List.range 8).find? fun p => d.vec.places.getD p none = some cluster

/-- A cluster is retired. -/
def isRetired (d : Dev) (pool cluster : Nat) : Bool :=
  if pool = 0 then d.moon.xpRetired.contains cluster else d.vec.retired.contains cluster

/-- Retires a cluster until PORST_N (R367). -/
def retire (d : Dev) (pool cluster : Nat) : Dev :=
  if pool = 0 then setMoon d { d.moon with xpRetired := setIns d.moon.xpRetired cluster }
  else
    let d := { d with vec := { d.vec with retired := setIns d.vec.retired cluster } }
    (List.range 4).foldl (fun d c => setCoreState d (4 * cluster + c) 5) d

/-- Core positions of an active cluster position. -/
def corePositions (p : Nat) : List Nat := [4 * p, 4 * p + 1, 4 * p + 2, 4 * p + 3]

/-- A failed vector cluster stops (R233, R365): its items end ABORTED, its handlers stop and its affinity records are cleared. -/
def vecIsolate (cluster : Nat) (d : Dev) : Dev :=
  (List.range 4).foldl (fun d c =>
    let k := 4 * cluster + c
    let d := endItem (liveSetB (setCoreState d k 5) (offVecCoreState k) 4 false) k 3 false
    setCore d k { coreOf d k with affinity := none, wait := none, xfer := none, rep := none, waking := false }) d

/-- The end of a planned replacement without effect. -/
def dropPlanned (pool result : Nat) (d : Dev) : Dev :=
  let d := setMoon d { d.moon with jobs := d.moon.jobs.filter fun j => !(decide (j.pool = pool) && j.planned) }
  let d := if pool = 1 then { d with vec := { d.vec with closing := [], away := d.vec.closing.foldl setDel d.vec.away } } else d
  moonResult d result

/-- A substitution under way loses its moon (R370): its faulted cluster is then one of a pool that has none. -/
def dropSubst (pool : Nat) (d : Dev) : Dev :=
  match d.moon.jobs.find? fun j => decide (j.pool = pool) && !j.planned with
  | none => d
  | some j =>
    let d := setMoon d { d.moon with jobs := d.moon.jobs.filter fun k => decide (k ≠ j) }
    if pool = 0 then raiseErr d (srcOf blkXp 0) 0x0007 (BitVec.ofNat 32 j.cluster) 0
    else
      let d := { d with wd := { d.wd with recovery := false } }
      match clusterPos d 1 j.cluster with
      | none => d
      | some pos =>
        { d with vec := { d.vec with places := d.vec.places.set pos none, away := (corePositions pos).foldl setDel d.vec.away } }

/-- The moon of a pool is lost (R370, R371): any replacement or patrol that uses it ends. -/
def retireMoon (pool : Nat) (d : Dev) : Dev :=
  let d := setAvail (retire d pool (moonOf d pool)) pool false
  let d := dropSubst pool (setMoon d { d.moon with patrols := mapDel d.moon.patrols pool })
  if d.moon.jobs.any fun j => decide (j.pool = pool) && j.planned then dropPlanned pool 5 d else d

/-- Takeover epoch of a hard fault (R367, R370): that of a planned replacement of the same crosspoint cluster where it is earlier and
the moon has loaded its checkpoint. -/
def takeoverEpoch (d : Dev) (pool cluster : Nat) : Nat :=
  let f := d.epc.epoch + 3
  match d.moon.jobs.find? fun j => decide (j.pool = pool ∧ j.cluster = cluster) && j.planned with
  | some j => if pool = 0 ∧ j.epoch < f ∧ j.epoch ≤ d.epc.epoch + 1 then j.epoch else f
  | none => f

/-- HARD_FAULT (R365, R367, R370): the unit of the cluster that detects it reports it under its own identity (R14). -/
def hardFault (pool cluster unit cause : Nat) (d : Dev) : Dev :=
  if isRetired d pool cluster then d
  else
    let src := srcOf (if pool = 0 then blkXp else blkVec) (4 * cluster + unit)
    let d := raiseErr d src 0x0006 (BitVec.ofNat 32 cluster) (BitVec.ofNat 32 cause)
    match clusterPos d pool cluster with
    | none =>
      let d := if pool = 1 then vecIsolate cluster d else d
      if cluster = moonOf d pool ∧ moonAvail d pool = true then retireMoon pool d else retire d pool cluster
    | some pos =>
      let free := moonFree d pool
      let t := takeoverEpoch d pool cluster
      let planned := d.moon.jobs.any fun j => decide (j.pool = pool) && j.planned
      let d := if planned && free then dropPlanned pool 5 d else d
      let d := retire d pool cluster
      let d := if pool = 1 then vecIsolate cluster d else d
      if free then
        let d := setMoon d { d.moon with jobs := d.moon.jobs ++ [⟨pool, cluster, t, false⟩] }
        if pool = 0 then
          strikePool pos { d with xp := { d.xp with
            dead := some (pos, none), banks := d.xp.banks.filter fun b => decide (b.1 / 4096 ≠ pos),
            work := d.xp.work.filter fun w => decide (w.1 / 4 ≠ pos) } }
        else
          { d with vec := { d.vec with away := (corePositions pos).foldl setIns d.vec.away }
                   wd := { d.wd with recovery := true } }
      else if pool = 0 then raiseErr d (srcOf blkXp 0) 0x0007 (BitVec.ofNat 32 cluster) 0
      else { d with vec := { d.vec with places := d.vec.places.set pos none } }

/-- The checkpoint of one core (R366). -/
def coreCkpt (c : VecCore) (route : Word) : CoreCkpt :=
  let area := fun (m : List (Nat × Word)) => m.filter fun e => decide (0x3F00 ≤ e.1 ∧ e.1 < 0x4000)
  ⟨c.rte, area c.xmem, area c.ymem, c.affinity, route⟩

/-- Checkpoints at an epoch start (R366): two slots for each active cluster. -/
def checkpoints (d : Dev) : Dev :=
  let e := d.epc.epoch
  let xp := d.moon.xpPlaces.zipIdx.foldl (fun m q =>
    if d.moon.xpRetired.contains q.1 then m
    else mapUpd (fun _ => []) m q.1 fun l => (e, ⟨q.2, corePositions q.2, Config.laneSign q.1 e⟩) :: l.take 1) d.moon.xpCkpt
  let act := (d.vec.places.filterMap id).filter fun k => !(d.vec.retired.contains k)
  let vec := act.foldl (fun m k =>
    mapUpd (fun _ => []) m k fun l =>
      (e, (List.range 4).map fun c => coreCkpt (coreOf d (4 * k + c)) (corePriWord d (4 * k + c))) :: l.take 1) d.moon.vecCkpt
  let d := setMoon d { d.moon with xpCkpt := xp, vecCkpt := vec }
  act.foldl (fun d k => (List.range 4).foldl (fun d c =>
    setCore d (4 * k + c) { coreOf d (4 * k + c) with accepted := [] }) d) d

/-- The moon's cores take over from a checkpoint (R366, R367). -/
def loadCkpt (moon cluster : Nat) (d : Dev) : Dev :=
  match mapGet (fun _ => []) d.moon.vecCkpt cluster with
  | [] => d
  | (_, cs) :: _ =>
    cs.zipIdx.foldl (fun d q =>
      let k := 4 * moon + q.2
      let c := settleAll (coreOf d k)
      let area := fun (m new : List (Nat × Word)) =>
        new.foldl (fun m e => mapSet word0 m e.1 e.2) (m.filter fun e => decide (e.1 < 0x3F00 ∨ 0x4000 ≤ e.1))
      let c := { c with regs := (c.regs.filter fun e => decide (e.1 < 64)) ++ q.1.shadow, rte := q.1.shadow,
                        xmem := area c.xmem q.1.xarea, ymem := area c.ymem q.1.yarea, affinity := q.1.affinity, accepted := [] }
      setCoreState (setCore d k c) k (if running d blkVec then 1 else 0)) d

/-- The moon takes a crosspoint position. -/
def takeXp (d : Dev) (pos : Nat) : Dev :=
  setMoon d { d.moon with xpPlaces := d.moon.xpPlaces.set pos (moonOf d 0) }

/-- The moon takes a vector cluster position. -/
def takeVec (d : Dev) (pos : Nat) : Dev :=
  { d with vec := { d.vec with places := d.vec.places.set pos (some (moonOf d 1)),
                               away := (corePositions pos).foldl setDel d.vec.away } }

/-- Substitution after a hard fault (R367): events that the failed cores accepted since the checkpoint are raised again. -/
def takeFault (j : Subst) (d : Dev) : Dev :=
  let d := liveSetF (setAvail d j.pool false) offTwnMoonCount 15 0 (liveF d offTwnMoonCount 15 0 + 1)
  match clusterPos d j.pool j.cluster with
  | none => d
  | some pos =>
    if j.pool = 0 then
      let d := takeXp d pos
      { d with xp := { d.xp with dead := some (pos, some d.epc.epoch) } }
    else
      let d := takeVec (loadCkpt (moonOf d 1) j.cluster d) pos
      let d := setMoon d { d.moon with recover := some d.epc.epoch }
      ((List.range 4).flatMap fun c => (coreOf d (4 * j.cluster + c)).accepted).foldl raiseEvt d

/-- A planned replacement at T (R369). -/
def takePlanned (j : Subst) (agreed : Bool) (d : Dev) : Dev :=
  match clusterPos d j.pool j.cluster with
  | none => moonResult d 8
  | some pos =>
    let done := fun (d : Dev) => moonResult (liveSetF d offTwnMoonCount 31 16 (liveF d offTwnMoonCount 31 16 + 1)) 2
    if j.pool = 0 then
      if agreed then done (liveSetF (takeXp d pos) offTwnMoonStatus 2 0 j.cluster) else moonResult d 6
    else
      let d := { d with vec := { d.vec with closing := [], away := (corePositions pos).foldl setDel d.vec.away } }
      if (List.range 4).any fun c => inHandler d (4 * j.cluster + c) then moonResult d 7
      else
        let d := takeVec (loadCkpt (moonOf d 1) j.cluster d) pos
        let d := (List.range 4).foldl (fun d c =>
          if coreIdle d (4 * j.cluster + c) then setCoreState d (4 * j.cluster + c) 0 else d) d
        done (liveSetF d offTwnMoonStatus 11 8 j.cluster)

/-- MOON_TAKEOVER (R367, R369): at epoch T of the pool's job; none after a Fatal error (R422). -/
def moonTakeover (pool : Nat) (agreed : Bool) (d : Dev) : Dev :=
  if fatal d then d else
  match d.moon.jobs.find? fun j => decide (j.pool = pool ∧ j.epoch ≤ d.epc.epoch) with
  | none => d
  | some j =>
    let d := setMoon d { d.moon with jobs := d.moon.jobs.filter fun k => decide (k ≠ j) }
    if j.planned then takePlanned j agreed d else takeFault j d

/-- Judges a planned replacement (R369): the first rule that fails gives the result. -/
def judgeMoon (d : Dev) (pool cluster t : Nat) : Nat :=
  if t < d.epc.epoch + 4 ∨ d.epc.epoch + 3000 < t then 3
  else if d.moon.jobs.any fun j => j.planned then 4
  else if moonFree d pool = false then 5
  else if (clusterPos d pool cluster).isNone || isRetired d pool cluster then 8
  else 1

/-- A planned replacement is submitted (R369). -/
def moonSubmit (pool cluster t : Nat) (d : Dev) : Dev :=
  let r := judgeMoon d pool cluster t
  let d := moonResult d r
  if r = 1 then setMoon d { d.moon with jobs := d.moon.jobs ++ [⟨pool, cluster, t, true⟩] } else d

/-- A write of TWN.MOON_REQ_HI (R369). -/
def moonReqWrite (val : Word) (d : Dev) : Dev :=
  moonSubmit (bits val 31 31) (bits val 27 24) (bits val 15 0 * 2 ^ 32 + (liveGet d offTwnMoonReqLo).toNat) d

/-! ### Patrol -/

/-- Sets the patrol of a pool. -/
def setPatrol (d : Dev) (pool : Nat) (p : Patrol) : Dev :=
  setMoon d { d.moon with patrols := mapIns (mapDel d.moon.patrols pool) pool p }

/-- Physical cluster at an active cluster position. -/
def placeOf (d : Dev) (pool pos : Nat) : Option Nat :=
  if pool = 0 then d.moon.xpPlaces[pos]? else d.vec.places.getD pos none

/-- The next active position that has a cluster, ascending and round again (R371). -/
def nextPos (d : Dev) (pool pos : Nat) : Nat :=
  let n := if pool = 0 then 4 else 8
  match (List.range n).find? fun i => (placeOf d pool ((pos + 1 + i) % n)).isSome with
  | some i => (pos + 1 + i) % n
  | none => pos

/-- No replacement of the pool is pending; patrol pauses meanwhile (R371). -/
def patrolRuns (d : Dev) (pool : Nat) : Bool :=
  actB d offTwnPatrol 0 && moonAvail d pool && !(d.moon.jobs.any fun j => decide (j.pool = pool))

/-- PATROL_ADVANCE (R371): PERIOD epochs have passed, or the moon disagrees with the patrolled cluster. -/
def patrolAdvance (pool : Nat) (mismatch : Bool) (d : Dev) : Dev :=
  match mapGet (fun _ => none) (d.moon.patrols.map fun p => (p.1, some p.2)) pool with
  | none => d
  | some p =>
    if patrolRuns d pool = false then d
    else if mismatch then
      let d := bumpSat d offTwnPatrolStatus 31 16
      let d := raiseErr d (srcOf blkTwn 0) 0x0607 (BitVec.ofNat 32 pool) (BitVec.ofNat 32 ((placeOf d pool p.pos).getD 0))
      if p.suspect.isSome then retireMoon pool d
      else setPatrol d pool ⟨nextPos d pool p.pos, d.epc.epoch, some p.pos⟩
    else if d.epc.epoch - p.since ≥ actF d offTwnPatrol 31 16 then
      setPatrol d pool { p with pos := nextPos d pool p.pos, since := d.epc.epoch }
    else d

/-- Patrol at an epoch start: it begins and ends with PATROL.EN; a moon that has agreed with the next cluster for 30 epochs replaces the
suspect one; while a replacement is pending it pauses, and the epoch that has ended counts for nothing (R371). -/
def patrolEpoch (d : Dev) (pool : Nat) : Dev :=
  match d.moon.patrols.find? fun p => decide (p.1 = pool) with
  | none => if patrolRuns d pool then setPatrol d pool ⟨nextPos d pool (if pool = 0 then 3 else 7), d.epc.epoch, none⟩ else d
  | some (_, p) =>
    if !(actB d offTwnPatrol 0) || !(moonAvail d pool) then setMoon d { d.moon with patrols := mapDel d.moon.patrols pool }
    else if patrolRuns d pool = false then setPatrol d pool { p with since := p.since + 1 }
    else match p.suspect with
      | none => d
      | some s =>
        if decide (d.epc.epoch - p.since ≥ 30) && !(d.moon.jobs.any fun j => j.planned) then
          match placeOf d pool s with
          | none => setPatrol d pool { p with suspect := none }
          | some k => moonSubmit pool k (d.epc.epoch + 4) (setPatrol d pool { p with suspect := none })
        else d

/-- The vector moon is powered in the epoch: its patrol is enabled, a substitution is under way (from the epoch after the fault on, power-up
taking 120 µs), or a planned replacement has come to T - 3 (R366, R367, R369, R371). -/
def moonPowered (d : Dev) : Bool :=
  (d.moon.patrols.any fun p => decide (p.1 = 1)) ||
    d.moon.jobs.any fun j => decide (j.pool = 1) && (!j.planned || decide (j.epoch ≤ d.epc.epoch + 3))

/-- The cores of the vector moon take the power that the epoch gives them; one that drains an item keeps its own. -/
def moonPower (d : Dev) : Dev :=
  let on := moonPowered d && running d blkVec
  (List.range 4).foldl (fun d c =>
    let k := 4 * moonOf d 1 + c
    if coreIdle d k then setCoreState d k (if on then 1 else 0) else d) d

/-- Moon clusters at an epoch start: ordered mode by recovery ends after the takeover epoch, the outgoing positions of a planned
replacement close to events at T - 1 and to dispatch at T (R233), checkpoints are written, and the vector moon is powered. -/
def moonEpoch (d : Dev) : Dev :=
  let d := match d.moon.recover with
    | some t =>
      if t < d.epc.epoch then
        { d with moon := { d.moon with recover := none },
                 wd := { d.wd with recovery := d.moon.jobs.any fun j => decide (j.pool = 1) && !j.planned } }
      else d
    | none => d
  let d := d.moon.jobs.foldl (fun d j =>
    match clusterPos d 1 j.cluster with
    | some pos =>
      if j.pool = 1 ∧ j.planned = true ∧ j.epoch ≤ d.epc.epoch + 1 then
        let away := if j.epoch ≤ d.epc.epoch then (corePositions pos).foldl setIns d.vec.away else d.vec.away
        { d with vec := { d.vec with closing := corePositions pos, away := away } }
      else d
    | none => d) d
  moonPower (patrolEpoch (patrolEpoch (checkpoints d) 0) 1)

/-- What the registers show of the patrol at a snapshot. -/
def moonReports (d : Dev) : Dev :=
  let d := liveSetF d offVecStatus 11 8 (moonOf d 1)
  (List.range 2).foldl (fun d pool =>
    let k := match d.moon.patrols.find? fun p => decide (p.1 = pool) with
      | some (_, p) => (placeOf d pool p.pos).getD 0
      | none => 0
    if pool = 0 then liveSetF d offTwnPatrolStatus 2 0 k else liveSetF d offTwnPatrolStatus 15 12 k) d

/-- HARD_FAULT (R365). -/
def execHardFault (pool cluster cause : Nat) (s : State) (unit : Nat := 0) : Host.Outcome State Fault Refusal :=
  ranIf (decide (pool < 2 ∧ cluster < (if pool = 0 then 5 else 9) ∧ unit < 4)) s (hardFault pool cluster unit cause)

/-- MOON_TAKEOVER (R367, R369). -/
def execMoonTakeover (pool : Nat) (agreed : Bool) (s : State) : Host.Outcome State Fault Refusal :=
  ranIf (decide (pool < 2)) s (moonTakeover pool agreed)

/-- MOON_REQ_HI (R369). -/
def execMoonReqHi (val : Word) (s : State) : Host.Outcome State Fault Refusal := ran s (moonReqWrite val)

/-- PATROL_ADVANCE (R371). -/
def execPatrolAdvance (pool : Nat) (mismatch : Bool) (s : State) : Host.Outcome State Fault Refusal :=
  ranIf (decide (pool < 2)) s (patrolAdvance pool mismatch)

end Sys2Proof.Machine
end

