-- ==== Sys2Proof/Machine/Cnd.lean ====
section
/-!
DEFINITION. Sys2Proof/Machine/Cnd.lean: the input selectors of chapter 03 and the conditioning engine of chapter 04.
-/
namespace Sys2Proof.Machine

/-- CONV as it runs at a render rate: a code not listed for it runs NONE (R68). -/
def convOf (n code : Nat) : Nat :=
  if n = 16 then (if code = 1 ∨ code = 2 then code else 0) else (if code = 1 ∨ code = 3 then code else 0)

/-- Multiple of 48 kHz of the source rate a setting accepts (Table 3-4). -/
def convMult (n conv : Nat) : Nat :=
  match conv with
  | 1 => n / 8
  | 2 => 4
  | 3 => 1
  | _ => n / 16

/-- Group delay G of a setting in render-rate samples (Table 4-2). -/
def convG (conv filt : Nat) : Nat :=
  match conv with
  | 0 => 0
  | 3 => 32 / (filt + 1)
  | _ => 16 / (filt + 1)

/-- Settling length N (Table 4-2). -/
def convN (conv filt : Nat) : Nat := 2 * convG conv filt

/-- Set number of a setting: rows of Table 4-2 in order. -/
def convSet (n conv : Nat) : Nat :=
  match conv with
  | 1 => if n = 16 then 0 else 3
  | 2 => 1
  | _ => 2

/-- Place and length of a fine set in a bank (R75). -/
def fineAt (set filt : Nat) : Nat × Nat :=
  match set, filt with
  | 0, 0 => (0, 65)
  | 0, _ => (65, 33)
  | 1, 0 => (98, 129)
  | 1, _ => (227, 65)
  | 2, 0 => (292, 65)
  | 2, _ => (357, 33)
  | _, 0 => (390, 65)
  | _, _ => (455, 33)

/-- The eight fine sets. -/
def fineSets : List (Nat × Nat) := [(0, 65), (65, 33), (98, 129), (227, 65), (292, 65), (357, 33), (390, 65), (455, 33)]

/-- The words of a conditioning-coefficient section (R75). -/
def cndWords (payload : List Byte) : List Int := (chunks 552 4 payload).map fun b => sext 32 (beNat b)

/-- The checks of a conditioning-coefficient section (R75, R76): 552 words, Q2.22 sign-extended, every fine set symmetric. R76 names the
last alone as a ground to refuse; the other two are the model's (assumption log entry 195). -/
def cndSectionOk (payload : List Byte) : Bool :=
  let ws := cndWords payload
  decide (payload.length = 552 * 4) && ws.all (fun w => !(overS 24 w)) &&
    fineSets.all fun s => let l := (ws.drop s.1).take s.2; decide (l.reverse = l)

/-- The coefficients of the active bank. -/
def cndBank (d : Dev) : List Int := if liveB d offCndStatus 0 then d.cnd.bank1 else d.cnd.bank0

/-- Writes a checked section into the standby bank (R75). -/
def cndStandby (payload : List Byte) (d : Dev) : Dev :=
  let ws := cndWords payload
  let d := if liveB d offCndStatus 0 then { d with cnd := { d.cnd with bank0 := ws } } else { d with cnd := { d.cnd with bank1 := ws } }
  liveSetB d offCndStatus 1 true

/-- The standby bank becomes active (R77). STATUS reports it from the snapshot of E on (assumption log entry 196). -/
def cndSwap (d : Dev) : Dev :=
  let d := liveSetB (liveSetB d offCndStatus 0 (!(liveB d offCndStatus 0))) offCndStatus 1 false
  { d with cnd := { d.cnd with swapAt := some d.epc.epoch } }

/-- Slots change banks in engine period 0 of the epoch: the bank they leave is still in use (R77). -/
def cndSwapping (d : Dev) : Bool := decide (d.cnd.swapAt = some d.epc.epoch ∧ d.epc.period = 0)

/-- A conditioning slot. -/
def getSlot (d : Dev) (s : Nat) : CndSlot := mapGet (fun _ => {}) d.cnd.slots s

/-- Sets a conditioning slot. -/
def setSlot (d : Dev) (s : Nat) (x : CndSlot) : Dev :=
  { d with cnd := { d.cnd with slots := mapIns (mapDel d.cnd.slots s) s x } }

/-! ### Sources -/

/-- A source code in an engine period: the multiple of 48 kHz of its rate, its sample and whether it is the first of a restart;
none where it has no rate (R465) and delivers silence. -/
def srcTake (d : Dev) (c per : Nat) : Option (Nat × Int × Bool) :=
  match c / 8192 with
  | 1 => rxChannel d (c / 4096 % 2) (c % 2048)
  | 2 => serialInput d (c / 32 % 32) (c % 32) per
  | 3 =>
    let n := blockN d
    match genSample d (c % 8) d.epc.epoch (per % 64 * n / 64) with
    | some x => some (n / 16, x, false)
    | none => none
  | _ => none

/-- Rate of a source code, if it has one. -/
def srcRate (d : Dev) (c : Nat) : Option Nat := (srcTake d c (nowPeriod d)).map (·.1)

/-- Two sources run at different rates (R465). -/
def ratesDiffer (a b : Option Nat) : Bool :=
  match a, b with
  | some x, some y => decide (x ≠ y)
  | _, _ => false

/-- NO_SIGNAL of a source code (R45). -/
def noSignal (d : Dev) (c : Nat) : Bool := decide (1 ≤ c / 8192 ∧ c / 8192 ≤ 3) && (srcRate d c).isNone

/-- The code an input selector runs by: silence while GRAPH does not run (R63). -/
def iselCode (d : Dev) (s : Nat) : Nat := if running d blkGraph then actF d (offGraphIsel s) 15 0 else 0

/-! ### Resets and block starts -/

/-- Goal of an input trim (R53). -/
def itrimGoal (d : Dev) (s : Nat) : Int :=
  if actB d (offGraphItrim s) 16 then 0 else dbGain (actF d (offGraphItrim s) 15 0)

/-- Reports SETTLE_LEFT and UNSETTLED of a slot. -/
def slotReport (d : Dev) (s : Nat) (uns : Bool) (left : Nat) : Dev :=
  let w := liveGet d (offCndSlotStatus s)
  liveSet d (offCndSlotStatus s) (setBits (setBit w 31 uns) 14 8 left)

/-- A slot enters the unsettled state in the epoch (R83). -/
def countEntered (d : Dev) (s : Nat) : Dev :=
  let low := if d.cnd.entered = 0 then s else min s d.cnd.enteredLow
  { d with cnd := { d.cnd with entered := d.cnd.entered + 1, enteredLow := low } }

/-- A synchronising reset lands on a slot (R80 to R83). -/
def slotReset (d : Dev) (s : Nat) (x : CndSlot) : Dev × CndSlot :=
  let big := convN x.conv x.filt
  let uns := decide (big ≠ 0)
  let d := liveSetB (bump d offCndResetCount) (offCndSlotStatus s) 30 true
  let enter := uns && !x.unsettled
  let d := if enter then countEntered d s else d
  let d := if uns = x.unsettled then d
    else liveSetF d offCndUnsettledNow 10 0 (liveF d offCndUnsettledNow 10 0 + (if uns then 1 else 2047))
  let d := slotReport d s uns (if uns then big + 16 else 0)
  let dc := if actB d (offCndSlotCfg s) 9 then x.dc else 0
  (liveSet d (offCndDcEst s) (wordOf (dc / 2 ^ 16)),
    { x with hist := [], n := 0, unsettled := uns, fading := false, dc := dc, resetAt := some d.epc.epoch })

/-- A source code runs at a rate that a conditioning setting does not accept (R46). -/
def wrongRate (d : Dev) (c conv : Nat) : Bool := match srcRate d c with
  | some m => decide (m ≠ convMult (blockN d) conv)
  | none => false

/-- NO_SIGNAL and RATE_MISMATCH of an input selector (R45, R46), with CND running or not, by the settings active in the epoch. They are
written in engine period 0, after the snapshot is latched (assumption log entry 197). -/
def iselReport (d : Dev) (s : Nat) : Dev :=
  let c := iselCode d s
  let w := liveGet d (offGraphIsel s)
  let mis := wrongRate d c (convOf (blockN d) (actF d (offCndSlotCfg s) 2 0))
  liveSet d (offGraphIsel s) (setBit (setBit w 25 mis) 24 (noSignal d c))

/-- SLOT_STATUS.LATENCY of a slot (R71). -/
def latencyReport (d : Dev) (s conv filt trim : Nat) : Dev := liveSetF d (offCndSlotStatus s) 6 0 (convG conv filt + trim)

/-- LATENCY of a slot while CND does not run: that of its active settings (assumption log entry 198). -/
def latencyIdle (d : Dev) (s : Nat) : Dev :=
  let cfg := actGet d (offCndSlotCfg s)
  latencyReport d s (convOf (blockN d) (bits cfg 2 0)) (bits cfg 4 4) (bits cfg 29 24)

/-- A slot at the start of block E (R49, R51, R72, R79, R80): what its selector does in the block, and a reset that lands. -/
def slotBlock (d : Dev) (s : Nat) : Dev :=
  let n := blockN d
  let x := getSlot d s
  let cfg := actGet d (offCndSlotCfg s)
  let new := iselCode d s
  let land := x.resetNext
  let x := if land then { x with conv := x.nset.1, filt := x.nset.2.1, trim := x.nset.2.2, oldTrim := x.nset.2.2 }
    else { x with oldTrim := x.trim }
  let conv := convOf n (bits cfg 2 0)
  let filt := bits cfg 4 4
  let convCh := decide (conv ≠ x.conv ∨ filt ≠ x.filt)
  let srcCh := decide (new ≠ x.src)
  let out := convCh || (srcCh && ratesDiffer (srcRate d x.src) (srcRate d new))
  let x := { x with old := x.src, src := new, resetNext := out, blk := [], clipped := false, unsettledBlk := false, oldGone := false }
  let x := if convCh then { x with nset := (conv, filt, bits cfg 29 24) }
    else { x with trim := bits cfg 29 24, nset := (x.conv, x.filt, bits cfg 29 24) }
  let mode := if land then (if out then SelMode.zero else SelMode.fadeIn)
    else if out then SelMode.out else if srcCh then SelMode.cross else SelMode.steady
  let restartHere := match x.restart with
    | some r => decide (r.1 ≤ d.epc.epoch)
    | none => false
  let x := { x with mode := mode, restart := if restartHere then none else x.restart }
  let a := if (land || restartHere) && !(decide (d.cnd.startAt = some d.epc.epoch)) then slotReset d s x else (d, x)
  let d := setSlot a.1 s a.2
  askGain (latencyReport d s x.conv x.filt x.trim) (.input s) (itrimGoal d s)

/-- CND starts running: every slot takes a reset, its trim is at its active value (R78, R84). -/
def cndStart (d : Dev) : Dev :=
  let n := blockN d
  let d := { d with cnd := { d.cnd with startAt := some d.epc.epoch } }
  (List.range 1536).foldl (fun d s =>
    let cfg := actGet d (offCndSlotCfg s)
    let conv := convOf n (bits cfg 2 0)
    let trim := bits cfg 29 24
    let x : CndSlot := { dc := (getSlot d s).dc, conv := conv, filt := bits cfg 4 4, trim := trim, oldTrim := trim,
                         nset := (conv, bits cfg 4 4, trim), src := iselCode d s, old := iselCode d s }
    let a := slotReset d s x
    let d := if { a.2 with resetAt := none } = {} then { a.1 with cnd := { a.1.cnd with slots := mapDel a.1.cnd.slots s } }
      else setSlot a.1 s a.2
    putGain (latencyReport d s conv (bits cfg 4 4) trim) (.input s) { gainDefault s with cur := itrimGoal d s } false) d

/-- While CND does not run, a slot keeps its DC estimate where its DC_FREEZE is active (R84) and its DC_EN has not been cleared (R74);
every other estimate is discarded. -/
def cndKeep (d : Dev) : Dev :=
  let frozen := fun (e : Nat × CndSlot) => actB d (offCndSlotCfg e.1) 9 && actB d (offCndSlotCfg e.1) 8
  let slots := d.cnd.slots
  let d := slots.foldl (fun d e => if frozen e then d else liveSet d (offCndDcEst e.1) 0) d
  let kept := slots.filterMap fun e =>
    if frozen e && decide (e.2.dc ≠ 0) then some (e.1, ({ dc := e.2.dc } : CndSlot)) else none
  { d with cnd := { d.cnd with slots := kept } }

/-- CND stops running: it keeps the frozen estimates and discards all other state of its slots (R84), a trim step that waits with it. -/
def cndStop (d : Dev) : Dev :=
  let d := d.cnd.slots.foldl (fun d e => slotReport d e.1 false 0) d
  let d := (d.gains.filter fun e => decide (e.1 < 1536)).foldl (fun d e => putGain d (.input e.1) (gainDefault e.1) false) d
  liveSet (cndKeep d) offCndUnsettledNow 0

/-- The indices of the words of a bank that lie in an array of 1,536 registers at a register-space offset. -/
def slotWords (base : Nat) (b : Bank) : List Nat :=
  b.filterMap fun e => if base ≤ e.1 ∧ e.1 < base + 0x1800 then some ((e.1 - base) / 4) else none

/-- Slots whose selector, trim or configuration is not at reset. -/
def setSlots (d : Dev) : List Nat :=
  let b := actBank d
  (slotWords (offGraphIsel 0) b ++ slotWords (offGraphItrim 0) b ++ slotWords (offCndSlotCfg 0) b).foldl setIns []

/-- Slots with something to do: those that hold state, and those whose registers are not at reset. -/
def liveSlots (d : Dev) : List Nat := (d.cnd.slots.map (·.1)).foldl setIns (setSlots d)

/-- What the input selectors and, while CND does not run, the slots report in an epoch. -/
def slotReports (d : Dev) : Dev :=
  let d := ((slotWords (offGraphIsel 0) d.regs.live).foldl setIns (setSlots d)).foldl iselReport d
  if running d blkCnd then d
  else ((slotWords (offCndSlotStatus 0) d.regs.live).foldl setIns (setSlots d)).foldl latencyIdle d

/-! ### The visit -/

/-- The signed sum of the taps of a filter on the history (R69): `shift` positions back, `i` the output index. -/
def tapSum (int2 : Bool) (i shift : Nat) (coefs hist : List Int) : Int :=
  ((coefs.foldl (fun (a : Int × Nat) c =>
    let q := shift + a.2
    let v := if int2 then (if (i + q) % 2 = 0 then sampleAt hist (q / 2) else 0) else sampleAt hist q
    (a.1 + c * v, a.2 + 1)) (0, 0)).1)

/-- The sample a slot takes as its input in a period, by what its selector does (R46, R49, R51): also whether its source restarts here,
and whether the source it leaves does. Samples of a restarted source are zero (R79). -/
def slotInput (d : Dev) (x : CndSlot) (m per : Nat) (curve : Bool) : Int × Bool × Bool :=
  let take := fun c => match srcTake d c per with
    | some (m', v, fresh) => if m' = m then (v, fresh) else (0, fresh)
    | none => ((0 : Int), false)
  let new := take x.src
  let old := take x.old
  let late := decide (per % 64 ≠ 0)
  let nv := if x.restart.isSome || (new.2 && late) then 0 else new.1
  let ov := if x.oldGone || (old.2 && late) then 0 else old.1
  let k := per % 64 * m / 4
  let len := 16 * m
  let v := match x.mode with
    | .steady => nv
    | .cross => fitWord 24 (rshr (fadeOld curve len k * ov + fadeNew curve len k * nv) 23)
    | .out => rshr (fadeOld false len k * ov) 23
    | .fadeIn => rshr (fadeNew false len k * nv) 23
    | .zero => 0
  (v, new.2, old.2 && late)

/-- Rate conversion of one output sample (R69, R70, R81): the sample, and whether a path that is heard saturated. -/
def convert (n i : Nat) (bank : List Int) (x : CndSlot) : Int × Bool :=
  if x.conv = 0 then (sampleAt x.hist 0, false)
  else
    let set := convSet n x.conv
    let f := fineAt set x.filt
    let int2 := x.conv = 3
    let g := convG x.conv x.filt
    let shift := (g - 1) * (if x.conv = 3 then 1 else convMult n x.conv * 16 / n)
    let fine := rshr (tapSum int2 i 0 ((bank.drop f.1).take f.2) x.hist) 22
    let coarse := rshr (tapSum int2 i shift ((bank.drop (488 + 16 * set)).take 16) x.hist) 22
    let big := 2 * g
    if x.n < big then (satS 24 coarse, overS 24 coarse)
    else if x.n < big + 16 then
      let k := x.n - big
      (rshr (fadeOld false 16 k * satS 24 coarse + fadeNew false 16 k * satS 24 fine) 23, overS 24 coarse || overS 24 fine)
    else (satS 24 fine, overS 24 fine)

/-- The DC blocker (R73, R74): output and estimate. -/
def dcBlock (cfg : Word) (x dc : Int) : Int × Int :=
  if bit cfg 8 then
    let e := x * 2 ^ 16 - dc
    let y := satS 24 (rshr e 16)
    (y, if bit cfg 9 then dc else satS 40 (dc + rshr e (bits cfg 19 16)))
  else (x, 0)

/-- A slot produces its next output sample (R66). -/
def slotOutput (d : Dev) (s per : Nat) (x : CndSlot) : Dev × CndSlot :=
  let n := blockN d
  let cfg := actGet d (offCndSlotCfg s)
  let c := convert n (per * n / 64) (cndBank d) x
  let d := if c.2 then liveSetB d (offCndSlotStatus s) 29 true else d
  let b := dcBlock cfg c.1 x.dc
  let d := if b.2 = x.dc then d else liveSet d (offCndDcEst s) (wordOf (b.2 / 2 ^ 16))
  let g := gainStep (zcTimeoutSamples d) n b.1 (getGain d (.input s))
  let raw := rshr (b.1 * g.2.1) 20
  let d := noteGain (putGain d (.input s) g.1 g.2.2) (.input s) [b.1]
  let clip := overS 24 raw
  let d := if clip then liveSetB d (offGraphItrim s) 26 true else d
  let d := if clip ∧ x.clipped = false then bumpSat d offGraphClipCount 31 0 else d
  let line := satS 24 raw :: x.line.take 63
  let k := x.blk.length
  let y := if x.trim = x.oldTrim then sampleAt line x.trim
    else rshr (fadeOld false n k * sampleAt line x.oldTrim + fadeNew false n k * sampleAt line x.trim) 23
  let big := convN x.conv x.filt
  let uns := decide (big ≠ 0 ∧ x.n < big + 16)
  let d := if uns then liveSetF d (offCndSlotStatus s) 14 8 (big + 16 - (x.n + 1)) else d
  (d, { x with n := x.n + 1, dc := b.2, kept := c.1 :: x.kept.take 63, line := line, blk := y :: x.blk, clipped := x.clipped || clip,
               unsettledBlk := x.unsettledBlk || uns })

/-- The visit of one slot in engine period `per` (R64). A restart of its source lands at once at an epoch start, with any other reset
that lands there, and else at the next one (R79). -/
def slotVisit (per : Nat) (d : Dev) (s : Nat) : Dev :=
  let n := blockN d
  let x := getSlot d s
  let m := convMult n x.conv
  let curve := actB d (offGraphIsel s) 16
  let v := slotInput d x m per curve
  let done := decide (x.resetAt = some d.epc.epoch ∨ d.cnd.startAt = some d.epc.epoch)
  let r :=
    if v.2.1 = false then (d, x)
    else if per % 64 ≠ 0 then (d, { x with restart := some (d.epc.epoch + 1, per) })
    else if done then (d, x)
    else slotReset d s x
  let x := { r.2 with oldGone := r.2.oldGone || v.2.2 }
  let a := if per % (4 / m) = 0 then (r.1, { x with hist := v.1 :: x.hist.take 130 }) else (r.1, x)
  let b := if per * n % 64 = 0 then slotOutput a.1 s per a.2 else a
  setSlot b.1 s b.2

/-- ENGINE_PERIOD (R64): the receive rings give their samples, then the slots are visited in order. -/
def enginePeriod (d : Dev) : Dev :=
  if d.epc.period < 64 then
    let per := nowPeriod d
    let d := ringsTick per 1 (ringsTick per 0 d)
    let d := if d.epc.period = 0 then slotReports d else d
    let d := if running d blkCnd then
        let slots := liveSlots d
        let d := if d.epc.period = 0 then slots.foldl slotBlock d else d
        slots.foldl (slotVisit per) d
      else d
    let d := serialTaken d per
    { d with epc := { d.epc with period := d.epc.period + 1 } }
  else d

/-- The conditioned block that ends with the epoch goes to the input slots (R22, R63, R84). -/
def cndFlush (d : Dev) : Dev :=
  let e := d.epc.epoch
  let open' := running d blkCnd && running d blkGraph
  let a : Audio := if open' then d.cnd.slots.filterMap fun x =>
      let b := trimZeros x.2.blk.reverse
      if b.isEmpty then none else some (x.1, b)
    else []
  let u := d.cnd.slots.filterMap fun x => if x.2.unsettledBlk then some x.1 else none
  { d with path := { d.path with cond := (e, a) :: d.path.cond.take 3, unsettled := (e, u) :: d.path.unsettled.take 3 } }

/-- CND at an epoch start: the entry of R83 for the epoch that ended, then a stop of the engine, or what it goes on keeping. -/
def cndEpoch (d : Dev) : Dev :=
  let d := if d.cnd.entered = 0 then d
    else raiseErr d (srcOf blkCnd 0) 0x0201 (BitVec.ofNat 32 d.cnd.enteredLow) (BitVec.ofNat 32 d.cnd.entered)
  let d := { d with cnd := { d.cnd with entered := 0, enteredLow := 0 } }
  if running d blkCnd then d
  else if d.cnd.ran then
    let d := cndStop d
    { d with cnd := { d.cnd with ran := false } }
  else cndKeep d

/-- CND starts running in the epoch: the resets land after the snapshot is latched (R78, R79, R83). -/
def cndLand (d : Dev) : Dev :=
  if running d blkCnd && !d.cnd.ran then
    let d := cndStart d
    { d with cnd := { d.cnd with ran := true } }
  else d

/-- SETTLE_CROSSFADE_START (R81): a slot that has produced its N coarse samples begins its crossfade. -/
def settleFade (s : Nat) (d : Dev) : Dev :=
  let x := getSlot d s
  let big := convN x.conv x.filt
  if x.unsettled ∧ big ≤ x.n ∧ x.n < big + 16 then setSlot d s { x with fading := true } else d

/-- SETTLE_DONE (R81): a slot that has produced N + 16 samples is settled. -/
def settleDone (s : Nat) (d : Dev) : Dev :=
  let x := getSlot d s
  if x.unsettled ∧ convN x.conv x.filt + 16 ≤ x.n then
    let d := setSlot d s { x with unsettled := false, fading := false }
    let d := liveSetF d offCndUnsettledNow 10 0 (liveF d offCndUnsettledNow 10 0 + 2047)
    slotReport d s false 0
  else d

/-- ENGINE_PERIOD (R64). -/
def execEnginePeriod (s : State) : Host.Outcome State Fault Refusal := ran s enginePeriod

/-- SETTLE_CROSSFADE_START (R81). -/
def execSettleCrossfadeStart (slot : Nat) (s : State) : Host.Outcome State Fault Refusal :=
  ranIf (decide (slot < 1536)) s (settleFade slot)

/-- SETTLE_DONE (R81). -/
def execSettleDone (slot : Nat) (s : State) : Host.Outcome State Fault Refusal := ranIf (decide (slot < 1536)) s (settleDone slot)

end Sys2Proof.Machine
end

