-- ==== Sys2Proof/Machine/Crypto.lean ====
section
/-!
DEFINITION. Sys2Proof/Machine/Crypto.lean: checks and ciphers that the spec names by their standards: CRC-32C and CRC-64/ECMA-182
(R352, R374), SHA-256 and HMAC-SHA-256 (R375, R404), SHA-512 and Ed25519 of RFC 8032 (R375, R435). The constants of these standards
are PRESUMED: the spec cites the standards and does not repeat them.
-/
namespace Sys2Proof.Machine

/-! ### CRCs -/

/-- One bit of a CRC with the most significant bit first. -/
def crcBit (w poly c : Nat) : Nat := if c.testBit (w - 1) then (c * 2 % 2 ^ w) ^^^ poly else c * 2 % 2 ^ w

/-- One bit of a reflected CRC. -/
def crcBitR (poly c : Nat) : Nat := if c.testBit 0 then c / 2 ^^^ poly else c / 2

/-- CRC-64 of ECMA-182 with initial value and final XOR of all ones (R352). -/
def crc64 (bs : List Byte) : BitVec 64 :=
  let step := fun (c : Nat) (b : Byte) => (List.range 8).foldl (fun c _ => crcBit 64 0x42F0E1EBA9EA3693 c) (c ^^^ (b.toNat * 2 ^ 56))
  BitVec.ofNat 64 (bs.foldl step (2 ^ 64 - 1) ^^^ (2 ^ 64 - 1))

/-- CRC-32C. -/
def crc32c (bs : List Byte) : Word :=
  let step := fun (c : Nat) (b : Byte) => (List.range 8).foldl (fun c _ => crcBitR 0x82F63B78 c) (c ^^^ b.toNat)
  BitVec.ofNat 32 (bs.foldl step (2 ^ 32 - 1) ^^^ (2 ^ 32 - 1))

/-! ### SHA-2 -/

/-- The primes below 410: a number above 20 there has no divisor from 2 to 20. -/
def smallPrimes : List Nat :=
  ((List.range 408).map (· + 2)).filter fun n => (List.range 19).all fun k => decide (n % (k + 2) ≠ 0 ∨ n = k + 2)

/-- The integer part of the e-th root of n, a number of b bits, found from its highest bit down. -/
def rootFloor (e n b : Nat) : Nat := (List.range b).foldr (fun i r => if (r + 2 ^ i) ^ e ≤ n then r + 2 ^ i else r) 0

/-- The first w fraction bits of the e-th root of a prime below 512: FIPS 180-4 takes its constants so. -/
def rootBits (e w p : Nat) : Nat := rootFloor e (p * 2 ^ (e * w)) (w + 5) % 2 ^ w

/-- Round constants for words of w bits: from the cube roots of the first primes. -/
def shaRoundConst (w rounds : Nat) : List Nat := (smallPrimes.take rounds).map (rootBits 3 w)

/-- Initial hash value for words of w bits: from the square roots of the first eight primes. -/
def shaStart (w : Nat) : List Nat := (smallPrimes.take 8).map (rootBits 2 w)

/-- Round constants of SHA-256. -/
def sha256Const : List Nat := shaRoundConst 32 64

/-- Round constants of SHA-512. -/
def sha512Const : List Nat := shaRoundConst 64 80

/-- A SHA-2 function by its word width: rotations and shifts of the two schedule and the two round functions, and rounds. -/
structure ShaKind where
  /-- Word width. -/
  w : Nat
  /-- Rounds. -/
  rounds : Nat
  /-- s0: two rotations and a shift. -/
  s0 : Nat × Nat × Nat
  /-- s1. -/
  s1 : Nat × Nat × Nat
  /-- S0: three rotations. -/
  r0 : Nat × Nat × Nat
  /-- S1. -/
  r1 : Nat × Nat × Nat
  deriving DecidableEq, Repr

/-- SHA-256. -/
def sha256Kind : ShaKind := ⟨32, 64, (7, 18, 3), (17, 19, 10), (2, 13, 22), (6, 11, 25)⟩

/-- SHA-512. -/
def sha512Kind : ShaKind := ⟨64, 80, (1, 8, 7), (19, 61, 6), (28, 34, 39), (14, 18, 41)⟩

/-- Rotation to the right. -/
def rotr (w x n : Nat) : Nat := (x >>> n) ^^^ (x <<< (w - n) % 2 ^ w)

/-- A schedule function. -/
def shaSmall (w : Nat) (k : Nat × Nat × Nat) (x : Nat) : Nat := rotr w x k.1 ^^^ rotr w x k.2.1 ^^^ (x >>> k.2.2)

/-- A round function. -/
def shaBig (w : Nat) (k : Nat × Nat × Nat) (x : Nat) : Nat := rotr w x k.1 ^^^ rotr w x k.2.1 ^^^ rotr w x k.2.2

/-- The message schedule, newest word first. -/
def shaSchedule (k : ShaKind) (n : Nat) (l : List Nat) : List Nat :=
  match n with
  | 0 => l
  | n + 1 =>
    let x := (shaSmall k.w k.s1 (l.getD 1 0) + l.getD 6 0 + shaSmall k.w k.s0 (l.getD 14 0) + l.getD 15 0) % 2 ^ k.w
    shaSchedule k n (x :: l)

/-- One round over the eight working values. -/
def shaRound (k : ShaKind) (v : List Nat) (kw : Nat) : List Nat :=
  let g := fun i => v.getD i 0
  let ch := (g 4 &&& g 5) ^^^ ((2 ^ k.w - 1 - g 4) &&& g 6)
  let maj := (g 0 &&& g 1) ^^^ (g 0 &&& g 2) ^^^ (g 1 &&& g 2)
  let t1 := g 7 + shaBig k.w k.r1 (g 4) + ch + kw
  let t2 := shaBig k.w k.r0 (g 0) + maj
  [(t1 + t2) % 2 ^ k.w, g 0, g 1, g 2, (g 3 + t1) % 2 ^ k.w, g 4, g 5, g 6]

/-- One block. -/
def shaBlock (k : ShaKind) (h : List Nat) (block : List Byte) : List Nat :=
  let words := (chunks 16 (k.w / 8) block).map beNat
  let ws := (shaSchedule k (k.rounds - 16) words.reverse).reverse
  let ks := if k.w = 32 then sha256Const else sha512Const
  let v := (ws.zip ks).foldl (fun v p => shaRound k v (p.1 + p.2)) h
  (h.zip v).map fun p => (p.1 + p.2) % 2 ^ k.w

/-- SHA-2 of a byte string. -/
def sha (k : ShaKind) (bs : List Byte) : List Byte :=
  let blk := k.w * 2
  let len := bs.length
  let pad := (2 * blk - 1 - k.w / 4 - len % blk) % blk
  let msg := bs ++ 0x80#8 :: (List.replicate pad 0#8 ++ beBytes (k.w / 4) (8 * len))
  ((chunks msg.length blk msg).foldl (shaBlock k) (shaStart k.w)).flatMap (beBytes (k.w / 8))

/-- SHA-256. -/
def sha256 (bs : List Byte) : List Byte := sha sha256Kind bs

/-- SHA-512. -/
def sha512 (bs : List Byte) : List Byte := sha sha512Kind bs

/-- HMAC-SHA-256 of RFC 2104. -/
def hmac256 (key msg : List Byte) : List Byte :=
  let key := if key.length > 64 then sha256 key else key
  let key := key ++ List.replicate (64 - key.length) 0#8
  sha256 (key.map (· ^^^ 0x5C#8) ++ sha256 (key.map (· ^^^ 0x36#8) ++ msg))

/-! ### Ed25519 (RFC 8032) -/

/-- The field's prime. -/
def edP : Nat := 2 ^ 255 - 19

/-- Order of the base point. -/
def edL : Nat := 2 ^ 252 + 27742317777372353535851937790883648493

/-- x to the n modulo p, by n's bits from the lowest; fuel bounds them. -/
def powMod (p fuel x n : Nat) : Nat :=
  match fuel with
  | 0 => 1
  | f + 1 =>
    if n = 0 then 1
    else
      let r := powMod p f (x * x % p) (n / 2)
      if n % 2 = 1 then r * x % p else r

/-- Inverse modulo p. -/
def edInv (x : Nat) : Nat := powMod edP 256 x (edP - 2)

/-- d of the curve. -/
def edD : Nat := (edP - 121665) * edInv 121666 % edP

/-- Difference modulo p. -/
def edSub (a b : Nat) : Nat := (a + (edP - b % edP)) % edP

/-- The x coordinate of a y with a sign bit, if the point is on the curve. -/
def edX (y sign : Nat) : Option Nat :=
  if y ≥ edP then none
  else
    let u := edSub (y * y) 1
    let v := (edD * (y * y % edP) + 1) % edP
    let x2 := u * edInv v % edP
    if x2 = 0 then (if sign = 1 then none else some 0)
    else
      let x := powMod edP 256 x2 ((edP + 3) / 8)
      let x := if x * x % edP = x2 then x else x * powMod edP 256 2 ((edP - 1) / 4) % edP
      if x * x % edP ≠ x2 then none
      else some (if x % 2 = sign then x else edP - x)

/-- A point in extended coordinates. -/
structure EdPoint where
  /-- X. -/
  x : Nat
  /-- Y. -/
  y : Nat
  /-- Z. -/
  z : Nat
  /-- T. -/
  t : Nat
  deriving DecidableEq, Repr

/-- Sum of two points. -/
def edAdd (p q : EdPoint) : EdPoint :=
  let a := edSub p.y p.x * edSub q.y q.x % edP
  let b := (p.y + p.x) * (q.y + q.x) % edP
  let c := 2 * p.t * q.t % edP * edD % edP
  let d := 2 * p.z * q.z % edP
  let e := edSub b a
  let f := edSub d c
  let g := (d + c) % edP
  let h := (b + a) % edP
  ⟨e * f % edP, g * h % edP, f * g % edP, e * h % edP⟩

/-- A multiple of a point, by the multiplier's bits from the lowest. -/
def edMul (fuel n : Nat) (p : EdPoint) : EdPoint :=
  match fuel with
  | 0 => ⟨0, 1, 1, 0⟩
  | f + 1 =>
    if n = 0 then ⟨0, 1, 1, 0⟩
    else
      let r := edMul f (n / 2) (edAdd p p)
      if n % 2 = 1 then edAdd r p else r

/-- Two points are equal. -/
def edEq (p q : EdPoint) : Bool :=
  decide (p.x * q.z % edP = q.x * p.z % edP) && decide (p.y * q.z % edP = q.y * p.z % edP)

/-- Decodes a point of 32 bytes. -/
def edDecode (bs : List Byte) : Option EdPoint :=
  let v := leNat bs
  let y := v % 2 ^ 255
  if bs.length ≠ 32 then none else (edX y (v / 2 ^ 255 % 2)).map fun x => ⟨x, y, 1, x * y % edP⟩

/-- The base point. -/
def edBase : EdPoint :=
  let y := 4 * edInv 5 % edP
  let x := (edX y 0).getD 0
  ⟨x, y, 1, x * y % edP⟩

/-- Ed25519 verification of a signature of 64 bytes over a message. -/
def edVerify (key msg sig : List Byte) : Bool :=
  let s := leNat (sig.drop 32)
  match edDecode key, edDecode (sig.take 32) with
  | some a, some r =>
    if sig.length ≠ 64 ∨ s ≥ edL then false
    else
      let k := leNat (sha512 (sig.take 32 ++ key ++ msg)) % edL
      edEq (edMul 256 s edBase) (edAdd r (edMul 256 k a))
  | _, _ => false

end Sys2Proof.Machine
end

