-- ==== Sys2Proof/Machine/Flash.lean ====
section
/-!
DEFINITION. Sys2Proof/Machine/Flash.lean: the flash, its banks, manifests and boot records (R373 to R377, R384, R385), and the
collector's ring and mirror (R424 to R428).
-/
namespace Sys2Proof.Machine

/-! ### Bytes -/

/-- An erased byte. -/
def erased : Nat → Byte := fun _ => 0xFF

/-- n bytes of the flash. -/
def flashRun (d : Dev) (a n : Nat) : List Byte := mapGetRun erased d.boot.flash a n

/-- Replaces the contents of the flash. -/
def setFlash (d : Dev) (m : List (Nat × Byte)) : Dev := { d with boot := { d.boot with flash := m } }

/-- Programming clears bits only: a programmed byte that was not erased keeps its zeros. -/
def programBytes (m : List (Nat × Byte)) (a : Nat) (bs : List Byte) : List (Nat × Byte) := match bs with
  | [] => m
  | b :: t => programBytes (mapSet erased m a (mapGet erased m a &&& b)) (a + 1) t

/-- Programs bytes. -/
def flashProgram (d : Dev) (a : Nat) (bs : List Byte) : Dev := setFlash d (programBytes d.boot.flash a bs)

/-- Erases n bytes from a. -/
def flashErase (d : Dev) (a n : Nat) : Dev := setFlash d (d.boot.flash.filter fun e => !(decide (a ≤ e.1 ∧ e.1 < a + n)))

/-- Size F of the flash in bytes (R373). -/
def flashSize (d : Dev) : Nat := if d.boot.density = 0 then 0 else 2 ^ (25 + d.boot.density)

/-- Start of a bank (Table 17-1). -/
def bankBase (d : Dev) (b : Nat) : Nat := if b = 0 then 0 else flashSize d / 2

/-- Bytes of a bank. -/
def bankLen (d : Dev) : Nat := flashSize d / 2 - 2 ^ 20

/-- Start of the boot record area. -/
def recordBase (d : Dev) : Nat := flashSize d / 2 - 2 ^ 20

/-- Start of the error mirror. -/
def mirrorBase (d : Dev) : Nat := flashSize d - 2 ^ 20

/-! ### Manifests -/

/-- Types of Table 17-4: whether a section is LIVE; none for a reserved type. -/
def sectionLive (t : Nat) : Option Bool :=
  if 1 ≤ t ∧ t ≤ 3 then some false else if 0x10 ≤ t ∧ t ≤ 0x19 then some true else none

/-- A descriptor that breaks no rule of R375 to R377 by itself. -/
def descOk (bankBytes : Nat) (b : List Byte) : Bool :=
  match sectionLive (field b 0 2) with
  | none => false
  | some l => decide (field b 2 1 = l.toNat ∧ field b 4 4 % 4096 = 0 ∧ 4096 ≤ field b 4 4 ∧ 1 ≤ field b 8 4 ∧
      field b 4 4 + field b 8 4 ≤ bankBytes) && zeros b 3 1 && zeros b 16 16

/-- No two payloads overlap. -/
def apart (l : List SecDesc) : Bool := match l with
  | [] => true
  | h :: t => (t.all fun s => decide (s.off + s.len ≤ h.off ∨ h.off + h.len ≤ s.off)) && apart t

/-- The key hash fused in a slot. -/
def keyHash (d : Dev) (s : Nat) : List Byte := (List.range 8).flatMap fun w => beBytes 4 (liveGet d (offLcsKeyHash s w)).toNat

/-- A slot is fused and not revoked. -/
def slotGood (d : Dev) (s : Nat) : Bool := liveB d offLcsKeys s && !(liveB d offLcsKeys (4 + s))

/-- The manifest in the first sector of a bank, if it is valid (R375, R376). -/
def readManifest (d : Dev) (bank : Nat) : Option Manifest :=
  let n := field (flashRun d (bankBase d bank) 8) 6 2
  let b := flashRun d (bankBase d bank) (128 + 32 * min n 32)
  let ds := chunks 32 32 ((b.drop 64).take (32 * n))
  let secs : List SecDesc := ds.map fun e => ⟨field e 0 2, field e 4 4, field e 8 4, BitVec.ofNat 32 (field e 12 4)⟩
  let key := (b.drop 32).take 32
  let slot := field b 17 1
  if decide (d.boot.density ≠ 0 ∧ field b 0 4 = 0x51494D47 ∧ field b 4 2 = 1 ∧ 1 ≤ n ∧ n ≤ 32 ∧ 1 ≤ field b 8 4 ∧
        field b 8 4 ≤ 0xFFFFFFFE ∧ field b 12 4 = 0x51534E31 ∧ field b 16 1 ≤ 1 ∧ slot ≤ 3 ∧ field b 18 1 ≤ 1 ∧ field b 19 1 ≤ 1) &&
      zeros b 20 12 && ds.all (descOk (bankLen d)) && keysDistinct (secs.map (·.type)) && apart secs &&
      (secs.map (·.type)).contains 1 && (secs.map (·.type)).contains 2 && slotGood d slot && decide (sha256 key = keyHash d slot) &&
      edVerify key (b.take (64 + 32 * n)) (b.drop (64 + 32 * n)) then
    some ⟨field b 8 4, decide (field b 16 1 = 1), slot, decide (field b 18 1 = 1), decide (field b 19 1 = 1), crc32c b, secs⟩
  else none

/-- Both banks' manifests as read now; NVM.GEN_A and GEN_B report them. -/
def reportGens (d : Dev) : Dev :=
  let g := fun b => match readManifest d b with
    | some m => m.gen
    | none => 0
  liveSet (liveSet d offNvmGenA (BitVec.ofNat 32 (g 0))) offNvmGenB (BitVec.ofNat 32 (g 1))

/-- The payload of a section. -/
def payloadOf (d : Dev) (bank : Nat) (s : SecDesc) : List Byte := flashRun d (bankBase d bank + s.off) s.len

/-! ### Boot records (R385) -/

/-- A record from its 32 bytes, if it is one. -/
def parseRecord (b : List Byte) : Option BootRec :=
  if field b 0 4 = 0x51425243 ∧ crc32c (b.take 28) = BitVec.ofNat 32 (field b 28 4) then
    some ⟨field b 4 4, field b 8 4, field b 12 4, field b 16 1, field b 20 4⟩
  else none

/-- The records of the area with their places. -/
def records (d : Dev) : List (Nat × BootRec) :=
  d.boot.flash.filterMap fun e =>
    let o := e.1 - recordBase d
    if recordBase d ≤ e.1 ∧ o < 2 ^ 20 ∧ o % 32 = 0 then (parseRecord (flashRun d e.1 32)).map fun r => (o / 32, r) else none

/-- The record in force with its place. -/
def recordInForce (d : Dev) : Option (Nat × BootRec) :=
  (records d).foldl (fun (b : Option (Nat × BootRec)) r => match b with
    | none => some r
    | some x => if x.2.seq < r.2.seq then some r else some x) none

/-- The boot record; without one every generation is unconfirmed and not failed. -/
def bootRecord (d : Dev) : BootRec := match recordInForce d with
  | some r => r.2
  | none => {}

/-- The bytes of a record. -/
def recordBytes (r : BootRec) : List Byte :=
  let b := beBytes 4 0x51425243 ++ beBytes 4 r.seq ++ beBytes 4 r.confirmed ++ beBytes 4 r.trial ++ beBytes 4 (r.tries * 2 ^ 24) ++
    beBytes 4 r.failed ++ beBytes 4 0
  b ++ beBytes 4 (crc32c b).toNat

/-- Reports of the record in force: TRIES of the generation that runs, CONFIRMED_GEN, FAILED_GEN and TRIAL. -/
def recordReport (d : Dev) : Dev :=
  let r := bootRecord d
  let g := match d.boot.manifest with
    | some m => m.gen
    | none => 0
  let d := liveSetF d offNvmBootRecord 1 0 (if r.trial = g ∧ g ≠ 0 then r.tries else 0)
  let d := liveSet (liveSet d offNvmConfirmedGen (BitVec.ofNat 32 r.confirmed)) offNvmFailedGen (BitVec.ofNat 32 r.failed)
  liveSetB d offNvmStatus 2 (decide (g ≠ 0 ∧ r.confirmed ≠ g))

/-- The first of `fuel` places from i on, round the area, that is erased. -/
def freePlace (d : Dev) (i : Nat) (fuel : Nat) : Option Nat := match fuel with
  | 0 => none
  | f + 1 =>
    if (flashRun d (recordBase d + 32 * (i % 32768)) 32).all (· = 0xFF) then some (i % 32768) else freePlace d (i + 1) f

/-- Appends a record: it takes the next erased place after the record in force, or the first of the area where none is in force. The
sector of the record before is erased once the sector after it holds this one, and no sector is erased otherwise; where no place is
erased nothing is written (assumption log entry 24). -/
def writeRecord' (d : Dev) (r : BootRec) : Dev :=
  let base := recordBase d
  let old := recordInForce d
  match freePlace d (match old with | some (i, _) => i + 1 | none => 0) 32768 with
  | none => recordReport d
  | some j =>
    let d := flashProgram d (base + 32 * j) (recordBytes { r with seq := match old with | some (_, o) => o.seq + 1 | none => 1 })
    recordReport (match old with
      | some (i, _) => if j / 128 = (i / 128 + 1) % 256 then flashErase d (base + 4096 * (i / 128)) 4096 else d
      | none => d)

/-- The running generation is confirmed (R386). -/
def confirmRunning (d : Dev) : Dev := match d.boot.manifest with
  | some m => writeRecord' d { bootRecord d with confirmed := m.gen, tries := 0 }
  | none => d

/-! ### The collector (R424 to R428) -/

/-- The words of an entry with its sequence number (Table 19-3). -/
def entryOf (seq : Word) (r : ErrReport) : List Word :=
  let w : List Word := [BitVec.ofNat 32 (r.code * 65536 + r.cls * 16384 + r.escalated.toNat * 8192), seq, BitVec.ofNat 32 r.epoch,
    BitVec.ofNat 32 (r.source * 65536 + r.epoch / 2 ^ 32 % 65536), BitVec.ofNat 32 r.count, r.arg0, r.arg1]
  w ++ [crc32c (w.flatMap fun x => beBytes 4 x.toNat)]

/-- The order in which the collector takes reports. -/
def reportBefore (a b : ErrReport) : Bool :=
  decide (a.epoch < b.epoch ∨ (a.epoch = b.epoch ∧ (a.source < b.source ∨ (a.source = b.source ∧ a.code < b.code))))

/-- The report taken next. -/
def nextReport (l : List ErrReport) : Option ErrReport :=
  l.foldl (fun (b : Option ErrReport) r => match b with
    | none => some r
    | some x => if reportBefore r x then some r else some x) none

/-- An entry waits for the mirror; the oldest of 64 gives way (R428). -/
def mirrorAdd (d : Dev) (e : List Word) : Dev :=
  if d.err.mirror.length < 64 then { d with err := { d.err with mirror := d.err.mirror ++ [e] } }
  else bump { d with err := { d.err with mirror := d.err.mirror.drop 1 ++ [e] } } offErrMirrorDrop

/-- Reports MIRROR_WAIT. -/
def mirrorReport (d : Dev) : Dev := liveSetF d offErrMirrorWait 6 0 d.err.mirror.length

/-- The collector takes a report and writes its entry (R425, R427). -/
def errorCollect (d : Dev) : Dev :=
  match nextReport d.err.reports with
  | none => d
  | some r =>
    let e := entryOf (liveGet d offErrNextSeq) r
    let h := liveF d offErrHead 7 0
    let d := (e.foldl (fun (a : Dev × Nat) w => (liveSet a.1 (offErrLog h a.2) w, a.2 + 1)) (d, 0)).1
    let d := bump (liveSetF d offErrHead 7 0 (h + 1)) offErrNextSeq
    let d := if d.err.written ≥ 256 then bump d offErrOverwrite else d
    let d := { d with err := { d.err with reports := d.err.reports.erase r, written := d.err.written + 1 } }
    let d := if r.cls = 2 then liveSetB d offErrStatus 2 true else if r.cls = 1 then liveSetB d offErrStatus 1 true else d
    if r.cls ≥ 2 then mirrorReport (mirrorAdd d e) else d

/-- The header of a mirror sector (R428). -/
def mirrorHeader (seq : Nat) : List Byte :=
  let b := beBytes 4 0x514D4952 ++ beBytes 4 seq ++ List.replicate 20 0
  b ++ beBytes 4 (crc32c b).toNat

/-- The place after (sector, sequence, place): a full sector is followed by the next one. -/
def mirrorNext (p : Nat × Nat × Nat) : Nat × Nat × Nat :=
  if p.2.2 < 127 then (p.1, p.2.1, p.2.2 + 1) else ((p.1 + 1) % 256, p.2.1 + 1, 0)

/-- The NVM loader writes the oldest waiting entry to the mirror, or fails (R428): a failure moves it to the next sector and
leaves the entry waiting. -/
def mirrorWrite (ok : Bool) (d : Dev) : Dev :=
  match d.err.mirror with
  | [] => d
  | e :: t =>
    let p := d.err.place
    let a := mirrorBase d + 4096 * p.1
    if ok && decide (d.boot.density ≠ 0) then
      let d := if p.2.2 = 0 then flashProgram (flashErase d a 4096) a (mirrorHeader p.2.1) else d
      let k := if p.2.2 = 0 then 1 else p.2.2
      let d := flashProgram d (a + 32 * k) (e.flatMap fun w => beBytes 4 w.toNat)
      mirrorReport { d with err := { d.err with mirror := t, place := mirrorNext (p.1, p.2.1, k) } }
    else
      let d := { d with err := { d.err with place := ((p.1 + 1) % 256, p.2.1 + 1, 0) } }
      raiseErr (liveSetB d offErrStatus 0 true) (srcOf blkNvm 0) 0x0701 (BitVec.ofNat 32 p.1) 0

/-- Sectors of the mirror that hold a header, with their sequences. -/
def mirrorSectors (d : Dev) : List (Nat × Nat) :=
  d.boot.flash.filterMap fun e =>
    let o := e.1 - mirrorBase d
    if mirrorBase d ≤ e.1 ∧ o % 4096 = 0 then
      let b := flashRun d e.1 32
      if field b 0 4 = 0x514D4952 ∧ crc32c (b.take 28) = BitVec.ofNat 32 (field b 28 4) then some (o / 4096, field b 4 4) else none
    else none

/-- The entry at a place of a sector, if one is there. -/
def mirrorEntry (d : Dev) (sector k : Nat) : Option (List Word) :=
  let b := flashRun d (mirrorBase d + 4096 * sector + 32 * k) 32
  if b.all (· = 0xFF) ∨ crc32c (b.take 28) ≠ BitVec.ofNat 32 (field b 28 4) then none
  else some ((chunks 8 4 b).map fun w => BitVec.ofNat 32 (beNat w))

/-- Sectors of the mirror, highest sequence first. -/
def mirrorOrder (d : Dev) : List (Nat × Nat) := sortBy (fun (a b : Nat × Nat) => decide (b.2 ≤ a.2)) 256 (mirrorSectors d)

/-- The place where the writer goes on: after the last used place of the sector of highest sequence. -/
def mirrorPlace (d : Dev) : Dev :=
  let place := match mirrorOrder d with
    | [] => (0, 1, 0)
    | s :: _ =>
      let used := (List.range 127).foldl (fun m i =>
        if (flashRun d (mirrorBase d + 4096 * s.1 + 32 * (i + 1)) 32).all (· = 0xFF) then m else i + 1) 0
      mirrorNext (s.1, s.2, used)
  { d with err := { d.err with place := place } }

/-- Read-back at boot (R428): the 64 most recent entries, counted back from the last one of the sector of highest sequence. -/
def mirrorLoad (d : Dev) : Dev :=
  let es := ((mirrorOrder d).flatMap fun s => (List.range 127).filterMap fun i => mirrorEntry d s.1 (127 - i)).take 64
  (es.foldl (fun (a : Dev × Nat) e =>
    ((e.foldl (fun (b : Dev × Nat) w => (liveSet b.1 (offErrMirror a.2 b.2) w, b.2 + 1)) (a.1, 0)).1, a.2 + 1)) (d, 0)).1

/-- ERROR_COLLECT (R425). -/
def execErrorCollect (s : State) : Host.Outcome State Fault Refusal := ran s errorCollect

/-- MIRROR_WRITE (R428). -/
def execMirrorWrite (ok : Bool) (s : State) : Host.Outcome State Fault Refusal := ran s (mirrorWrite ok)

/-- Codes of Table 19-2. -/
def errorCodes : List Nat :=
  [0x0001, 0x0002, 0x0003, 0x0004, 0x0005, 0x0006, 0x0007, 0x0008, 0x0101, 0x0102, 0x0103, 0x0104, 0x0105, 0x0106, 0x0107, 0x0108,
   0x0109, 0x010A, 0x010B, 0x0201, 0x0202, 0x0203, 0x0204, 0x0205, 0x0206, 0x0301, 0x0302, 0x0303, 0x0304, 0x0305, 0x0306, 0x0307,
   0x0308, 0x0401, 0x0402, 0x0403, 0x0404, 0x0501, 0x0502, 0x0503, 0x0504, 0x0505, 0x0506, 0x0601, 0x0602, 0x0603, 0x0604, 0x0605,
   0x0606, 0x0607, 0x0608, 0x0701, 0x0801, 0x0802]

/-- ERROR_RAISE (R425): the device records the codes of Table 19-2 and no others (R423). -/
def execErrorRaise (source code : Nat) (arg0 arg1 : Word) (s : State) : Host.Outcome State Fault Refusal :=
  ran s fun d => if errorCodes.contains code ∧ source < 65536 then raiseErr d source code arg0 arg1 else d

/-- A flit is replayed (R17): three failed replays in one epoch are Fatal; successful replays are reported by epoch (R466). -/
def flitReplay (link : Nat) (ok : Bool) (d : Dev) : Dev :=
  let l := mapGet (fun _ => ((0, 0) : Nat × Nat)) d.err.links link
  let l := if ok then (l.1 + 1, l.2) else (l.1, l.2 + 1)
  let d := { d with err := { d.err with links := mapSet (fun _ => ((0, 0) : Nat × Nat)) d.err.links link l } }
  if !ok && decide (l.2 = 3) then raiseErr d (srcOf 0 link) 0x0002 0 0 else d

/-- The successful replays of the epoch before are reported (R17, R466). -/
def linkReports (d : Dev) : Dev :=
  let d := d.err.links.foldl (fun d e => if e.2.1 = 0 then d else raiseErr d (srcOf 0 e.1) 0x0001 (BitVec.ofNat 32 e.2.1) 0) d
  { d with err := { d.err with links := [] } }

/-- LINK_FLIT_REPLAY (R17). -/
def execLinkFlitReplay (link : Nat) (ok : Bool) (s : State) : Host.Outcome State Fault Refusal :=
  ranIf (decide (link < 2)) s (flitReplay link ok)

end Sys2Proof.Machine
end

