-- ==== Sys2Proof/Machine/Rc.lean ====
section
/-!
DEFINITION. Sys2Proof/Machine/Rc.lean: chapter 08, the correction of feeds and buses. The input of the FIR is the stream of blocks as
RC receives them, one an epoch; the newest sample has the index of its block (assumption log entry 11). Capture stands in
Capture.lean.
-/
namespace Sys2Proof.Machine

/-! ### Filter sections -/

/-- The records of a filter section from its bytes (R164): feed and taps; none where a length does not fit. -/
def parseRecords (fuel : Nat) (b : List Byte) : Option (List (Nat × List Int)) :=
  match fuel with
  | 0 => if b.isEmpty then some [] else none
  | f + 1 =>
    let taps := field b 2 2
    if b.length < 8 + 4 * taps ∨ taps > 16384 ∨ zeros b 4 4 = false ∨ field b 0 2 > 511 then none
    else
      let h := (chunks 16384 4 ((b.drop 8).take (4 * taps))).map fun w => sext 32 (beNat w)
      (parseRecords f (b.drop (8 + 4 * taps))).map ((field b 0 2, h) :: ·)

/-- Feeds strictly ascending. -/
def ascending (l : List Nat) : Bool := match l with
  | a :: b :: t => decide (a < b) && ascending (b :: t)
  | _ => true

/-- A filter section (R164, R165): its records, or none where it is refused for its form. -/
def parseFilters (p : List Byte) : Option (List (Nat × List Int)) :=
  let f := field p 0 2
  if p.length < 16 ∨ zeros p 2 14 = false ∨ f = 0 ∨ f > 512 then none
  else match parseRecords f (p.drop 16) with
    | some l => if ascending (l.map (·.1)) then some l else none
    | none => none

/-- A feed's TAPS report. -/
def tapsReport (d : Dev) (f : Nat) (taps : Nat) : Dev := liveSetF d (offRcFeedStatus f) 14 0 taps

/-- Installs the filters of a boot section (R166). -/
def rcInstall (l : List (Nat × List Int)) (d : Dev) : Dev :=
  let d := l.foldl (fun d r => tapsReport d r.1 r.2.length) d
  { d with rc := { d.rc with filters := l.filter fun r => !r.2.isEmpty, records := l } }

/-- Feeds transformed in an epoch (R167). -/
def transformRate (d : Dev) : Nat := if blockN d = 32 then 2 else 8

/-- Blocks in a tail chunk. -/
def tailBlocks (n : Nat) : Nat := 1024 / n

/-- A live reload of filters has passed its check: the transform starts at the next epoch start (R167). -/
def rcBegin (l : List (Nat × List Int)) (d : Dev) : Dev :=
  { d with rc := { d.rc with toTransform := l, standby := [], phase := .transform } }

/-- Reports STANDBY_FEEDS. -/
def standbyReport (d : Dev) : Dev := liveSetF d offRcStatus 15 8 d.rc.standby.length

/-- A live reload of filters is discarded. -/
def rcDiscard (d : Dev) : Dev :=
  let d := d.rc.standby.foldl (fun d r => liveSetB d (offRcFeedStatus r.1) 29 false) d
  let d := standbyReport { d with rc := { d.rc with toTransform := [], standby := [], phase := .idle } }
  liveSetB (liveSetB d offRcStatus 1 false) offRcStatus 2 false

/-- The transform of an epoch (R167). -/
def rcTransform (d : Dev) : Dev :=
  match d.rc.phase with
  | .transform =>
    let k := transformRate d
    let now := d.rc.toTransform.take k
    let rest := d.rc.toTransform.drop k
    let d := now.foldl (fun d r => liveSetB d (offRcFeedStatus r.1) 29 true) d
    let d := { d with rc := { d.rc with toTransform := rest, standby := d.rc.standby ++ now, transformed := now.length,
                                         phase := if rest.isEmpty then .transformed d.epc.epoch else .transform } }
    liveSetB (standbyReport d) offRcStatus 1 true
  | _ => liveSetB { d with rc := { d.rc with transformed := 0 } } offRcStatus 1 false

/-- The block whose feeds RC corrects in this epoch (R22 to R24): SPK delays by one block while it is enabled. -/
def feedBlock (d : Dev) : Option Nat :=
  let on := fun (b : Nat) => actAtB d b (offWdStageCfg 1) 0
  match d.path.slots with
  | [] => none
  | c :: _ =>
    match d.path.reduced.find? fun e => decide (e.epoch = c.epoch) with
    | none => some c.block
    | some p => if on c.block && on p.block then some p.block else some c.block

/-- That block passes RC once more in the next epoch, because IN or SPK has been enabled at it (R24): the epoch is not yet its
correction epoch (R155). -/
def feedAgain (d : Dev) : Bool :=
  let on := fun (s b : Nat) => actAtB d b (offWdStageCfg s) 0
  match d.path.slots with
  | [] => false
  | c :: t =>
    let inFirst := on 0 c.block && match t with
      | [] => true
      | q :: _ => !(on 0 q.block)
    match d.path.reduced.find? fun e => decide (e.epoch = c.epoch) with
    | none => on 1 c.block || inFirst
    | some p => if on 1 c.block && on 1 p.block then decide (p.block = c.block) else on 1 c.block || inFirst

/-- RC_PARALLEL_START (R167): in an epoch after the transform ended, block b is corrected, and it is the first of a tail chunk or comes
after a first block that R24 passed over. -/
def rcParallel (b : Nat) (d : Dev) : Dev :=
  let first := b / tailBlocks (blockN d) * tailBlocks (blockN d)
  let after := match d.rc.last with
    | some p => decide (p.1 < first)
    | none => false
  match d.rc.phase with
  | .transformed e =>
    if e < d.epc.epoch ∧ (first = b ∨ after = true) then
      liveSetB { d with rc := { d.rc with phase := .parallel first } } offRcStatus 2 true
    else d
  | _ => d

/-- The filters are ready when block b is corrected (R168): the next tail chunk after the one in which the parallel run began. -/
def rcReadyAt (d : Dev) (b : Nat) : Bool := match d.rc.phase with
  | .parallel p => decide (p + tailBlocks (blockN d) ≤ b)
  | _ => false

/-- The committed filters take part from block E (R169). -/
def rcActivate (d : Dev) : Dev := { d with rc := { d.rc with swap := some (d.epc.epoch, d.rc.standby) } }

/-! ### FIR -/

/-- A twiddle of R159 in Q2.30: k of M. -/
def twiddle (inv : Bool) (k m : Nat) : Int × Int :=
  let s := fxRound (fxSinTurn (k : Int) m) 30
  (fxRound (fxCosTurn (k : Int) m) 30, if inv then s else -s)

/-- Elements at even places. -/
def evens {α : Type} (fuel : Nat) (l : List α) : List α := match fuel, l with
  | f + 1, a :: _ :: t => a :: evens f t
  | _, l => l.take 1

/-- The transform of R159 on values with 40 fraction bits: the radix-2 butterflies of each stage, a product rounded to 40 fraction
bits part by part. -/
def fftRun (inv : Bool) (fuel : Nat) (l : List (Int × Int)) : List (Int × Int) :=
  match fuel with
  | 0 => l
  | f + 1 =>
    let m := l.length
    let a := fftRun inv f (evens m l)
    let b := fftRun inv f (evens m (l.drop 1))
    let wb := (b.foldl (fun (acc : List (Int × Int) × Nat) v =>
      let w := twiddle inv acc.2 m
      ((rshr (w.1 * v.1 - w.2 * v.2) 30, rshr (w.1 * v.2 + w.2 * v.1) 30) :: acc.1, acc.2 + 1)) ([], 0)).1.reverse
    let p := a.zip wb
    p.map (fun q => (q.1.1 + q.2.1, q.1.2 + q.2.2)) ++ p.map (fun q => (q.1.1 - q.2.1, q.1.2 - q.2.2))

/-- The sample of a feed at `back` samples before the last of the newest block. -/
def histSample (n : Nat) (hist : List (List Int)) (back : Nat) : Int := sampleAt (hist.getD (back / n) []) (n - 1 - back % n)

/-- l samples from index i on; `top` is the index of the newest sample. -/
def histChunk (n top : Nat) (hist : List (List Int)) (i : Int) (l : Nat) : List Int :=
  (List.range l).map fun (t : Nat) =>
    let k := i + (t : Int)
    if k < 0 ∨ k > (top : Int) then 0 else histSample n hist (top - k.toNat)

/-- Spectrum of input chunk j, its parts rounded to `frac` fraction bits, bins 0 to L (R159). -/
def chunkSpectrum (n top : Nat) (hist : List (List Int)) (stages l frac : Nat) (j : Int) : List (Int × Int) :=
  let x := histChunk n top hist ((j - 1) * (l : Int)) (2 * l)
  if x.all (· = 0) then []
  else ((fftRun false stages (x.map fun v => (v * 2 ^ 12, (0 : Int)))).take (l + 1)).map fun v =>
    (rshr v.1 (40 - frac), rshr v.2 (40 - frac))

/-- The exponent of a partition (R159): the least shift that brings every part, rounded, into 24 bits. -/
def partExp (fuel e : Nat) (l : List (Int × Int)) : Nat :=
  match fuel with
  | 0 => e
  | f + 1 => if l.any (fun v => overS 24 (rshr v.1 e) || overS 24 (rshr v.2 e)) then partExp f (e + 1) l else e

/-- Spectrum of filter partition p: mantissas and exponent (R159, assumption log entry 12). -/
def tapSpectrum (taps : List Int) (stages l p : Nat) : List (Int × Int) × Nat :=
  let h := (taps.drop (2 * l + p * l)).take l
  if h.all (· = 0) then ([], 0)
  else
    let x := (List.range (2 * l)).map fun t => if t < l then (sampleAt h t * 2 ^ 10, (0 : Int)) else (0, 0)
    let s := (fftRun false stages x).take (l + 1)
    let e := partExp 64 0 s
    (s.map fun v => (rshr v.1 e, rshr v.2 e), e)

/-- Output chunk m of a segment (R159), Q4.28. -/
def segChunk (n top : Nat) (hist : List (List Int)) (taps : List Int) (stages l frac m : Nat) : List Int :=
  let terms := (List.range 14).filterMap fun p =>
    let hs := tapSpectrum taps stages l p
    let xs := if hs.1.isEmpty then [] else chunkSpectrum n top hist stages l frac ((m : Int) - 2 - (p : Int))
    if xs.isEmpty then none
    else some ((xs.zip hs.1).map fun q =>
      ((q.1.1 * q.2.1 - q.1.2 * q.2.2) * 2 ^ hs.2, (q.1.1 * q.2.2 + q.1.2 * q.2.1) * 2 ^ hs.2))
  match terms with
  | [] => []
  | t0 :: ts =>
    let sum := ts.foldl (fun a t => (a.zip t).map fun q => (q.1.1 + q.2.1, q.1.2 + q.2.2)) t0
    let y := sum.map fun v => (rshr v.1 frac, rshr v.2 frac)
    let full := y ++ ((y.drop 1).take (l - 1)).reverse.map fun v => (v.1, -v.2)
    let z := fftRun true stages full
    (z.drop l).map fun v => rshr v.1 (12 + stages)

/-- The exact FIR sums of a block in units of 2^-58 (R158 to R160): hist holds the block as its newest. Where `lost` names the feed,
the tail chunk of the block was formed with zeros for some of its words, and its samples are free (R344). -/
def firSums (n b : Nat) (lost : Option Nat) (taps : List Int) (hist : List (List Int)) : List Int :=
  let top := b * n + n - 1
  let seg := fun stages l frac =>
    if taps.length ≤ 2 * l then []
    else
      let c := segChunk n top hist taps stages l frac (b * n / l)
      (c.drop (b * n % l)).take n
  let mid := seg 8 128 20
  let tail := match lost with
    | some f => if taps.length ≤ 2048 then [] else (List.range n).map fun k => (Config.tailLost f b k).toInt
    | none => seg 11 1024 17
  (List.range n).map fun k =>
    let head := if taps.isEmpty then sampleAt (hist.getD 0 []) k * 2 ^ 30
      else ((taps.take 256).foldl (fun (a : Int × Nat) h => (a.1 + h * histSample n hist (n - 1 - k + a.2), a.2 + 1)) (0, 0)).1
    head + (sampleAt mid k + sampleAt tail k) * 2 ^ 30

/-- The tail chunk that feed f forms in block b, where the block is its preparation slot (R161). -/
def tailSlot (n f b : Nat) : Option Nat := if b % tailBlocks n = f % tailBlocks n then some (b / tailBlocks n + 1) else none

/-- A read or write of a feed's tail words has failed in the epoch that corrects block b (R344): the chunk is marked and the
feed's output heads for zero. -/
def tailFailed (f b : Nat) (d : Dev) : Dev :=
  let m := b / tailBlocks (blockN d) + 1
  { d with rc := { d.rc with muted := setIns d.rc.muted f,
                             lost := (f, m) :: (d.rc.lost.filter fun e => decide (m ≤ e.2 + 1 ∧ e ≠ (f, m))) } }

/-- The feeds whose slot the block is and whose chunk was formed without an error return (R344). -/
def tailReturn (b : Nat) (d : Dev) : Dev :=
  let n := blockN d
  { d with rc := { d.rc with muted := d.rc.muted.filter fun f => match tailSlot n f b with
    | some m => d.rc.lost.contains (f, m)
    | none => true } }

/-- Blocks of history a feed keeps. -/
def histDepth (n : Nat) : Nat := 17 * 1024 / n + 1

/-- A block joins a feed's history; trailing silence is dropped. -/
def histPush (n : Nat) (x : List Int) (h : List (List Int)) : List (List Int) :=
  (((x :: h).take (histDepth n)).reverse.dropWhile fun b => b.isEmpty).reverse

/-- The taps of a feed's active filter; none listed is the unit impulse. -/
def filterOf (l : List (Nat × List Int)) (f : Nat) : List Int := match l.find? fun r => r.1 = f with
  | some r => r.2
  | none => []

/-! ### Biquads -/

/-- Offset of coefficient c of section s of channel o. -/
def bqOff (o s c : Nat) : Nat := if o < 512 then offRcBqFeed o s c else offRcBqBus (o - 512) s c

/-- One sample of a section (R171): whether it saturated. -/
def bqSample (c : List Int) (x : Int) (z : BqState) : BqState × Int × Bool :=
  let r := fun (i : Nat) (v : Int) => rshr (sampleAt c i * v) 12
  let acc := r 0 x + r 1 z.x1 + r 2 z.x2 - r 3 z.y1 - r 4 z.y2
  let y := rshr acc 16
  (⟨x, z.x1, satS 32 y, z.y1⟩, satS 32 y, over8 y)

/-- A section on a block. -/
def bqBlock (c : List Int) (xs : List Int) (z : BqState) : BqState × List Int × Bool :=
  let r := xs.foldl (fun (a : BqState × List Int × Bool) x =>
    let q := bqSample c x a.1
    (q.1, q.2.1 :: a.2.1, a.2.2 || q.2.2)) (z, [], false)
  (r.1, r.2.1.reverse, r.2.2)

/-- The sections of channel o on the samples of block b (R171, R172): a section not enabled holds zero state. -/
def bqChain (d : Dev) (o b : Nat) (xs : List Int) : Dev × List Int × Bool :=
  (List.range (if o < 512 then 16 else 8)).foldl (fun (a : Dev × List Int × Bool) s =>
    let key := 16 * o + s
    let set := fun (d : Dev) (z : BqState) => { d with rc := { d.rc with bq := mapSet (fun _ => {}) d.rc.bq key z } }
    if bit (actAt a.1 b (bqOff o s 5)) 0 then
      let c := (List.range 5).map fun i => (actAt a.1 b (bqOff o s i)).toInt
      let r := bqBlock c a.2.1 (mapGet (fun _ => {}) a.1.rc.bq key)
      (set a.1 r.1, r.2.1, a.2.2 || r.2.2)
    else (set a.1 {}, a.2.1, a.2.2)) (d, xs, false)

/-- While this twin joins, RC keeps what comes to the biquads of a channel (R363). -/
def bqFed (o : Nat) (xs : List Int) (d : Dev) : Dev :=
  match d.rc.fed with
  | [] => d
  | c :: t => { d with rc := { d.rc with fed := { c with audio := (o, xs) :: c.audio } :: t } }

/-- An epoch's correction begins: what came to the biquads in this epoch and the one before it is kept while this twin joins (R363). -/
def bqKeep (bf bb : Nat) (d : Dev) : Dev :=
  let joins := decide (liveF d offTwnStatus 7 6 = 1)
  { d with rc := { d.rc with fed := if joins then ⟨d.epc.epoch, bf, bb, []⟩ :: d.rc.fed.take 1 else [] } }

/-! ### Generators at RC -/

/-- The signal at an injection point under a connection word (R174), Q4.28; also whether it saturated. -/
def pointSignal (n : Nat) (gen : Nat → List Int) (point : Nat) (w : Word) (x : List Int) : List Int × Bool :=
  let mode := bits w 4 3
  if mode = 0 ∨ mode = 3 ∨ bits w 5 5 ≠ point then (x, false)
  else
    let g := gen (bits w 1 0)
    let y := (List.range n).map fun k =>
      let v := rshr (sampleAt g k * dbGain (bits w 31 16)) 15
      if mode = 1 then v else sampleAt x k + v
    (y.map (satS 32), y.any over8)

/-- An injection point of a block (R174): a changed connection crossfades. -/
def inject (n : Nat) (gen : Nat → List Int) (point : Nat) (old new : Word) (x : List Int) : List Int × Bool :=
  let b := pointSignal n gen point new x
  if old = new then b
  else
    let a := pointSignal n gen point old x
    ((List.range n).map fun k => rshr (fadeOld false n k * sampleAt a.1 k + fadeNew false n k * sampleAt b.1 k) 23, a.2 || b.2)

/-! ### Correction -/

/-- One channel of a block (R155, R160, R169, R174): `b` its block, `prev` the block it corrected before, `swap` the filters that
take over in this block. A feed muted by R344 steps its output to gain zero. An injection that saturates sets SAT and counts in SAT_COUNT
as the FIR output does (DESIGN CHOICE, assumption log entry 257). -/
def rcChannel (gen : Nat → List Int) (b prev : Nat) (swap : Option (List (Nat × List Int))) (input : Audio)
    (a : Dev × Audio) (o : Nat) : Dev × Audio :=
  let d := a.1
  let n := blockN d
  let wNew := actAt d b (offRcOutgen o)
  let wOld := actAt d prev (offRcOutgen o)
  let full := fun (x : List Int) => (List.range n).map (sampleAt x)
  let x := inject n gen 1 wOld wNew (full (mapGet (fun _ => []) input o))
  let fir : Dev × List Int × Bool :=
    if o < 512 then
      let h := histPush n (trimZeros x.1) (mapGet (fun _ => []) d.rc.hist o)
      let d := { d with rc := { d.rc with hist := mapSet (fun _ => []) d.rc.hist o h } }
      let lost := if d.rc.lost.contains (o, b / tailBlocks n) then some o else none
      let s := firSums n b lost (filterOf d.rc.filters o) h
      let y := match swap.bind fun l => l.find? fun r => r.1 = o with
        | some r =>
          let t := firSums n b lost r.2 h
          (List.range n).map fun k => rshr (fadeOld false n k * sampleAt s k + fadeNew false n k * sampleAt t k) 53
        | none => s.map fun v => rshr v 30
      (d, y.map (satS 32), y.any over8)
    else (d, x.1, false)
  let q := bqChain (bqFed o fir.2.1 fir.1) o b fir.2.1
  let z := inject n gen 0 wOld wNew q.2.1
  let sat := x.2 || fir.2.2 || q.2.2 || z.2
  let d := if sat then bumpSat q.1 offRcSatCount 31 0 else q.1
  let d := if sat && decide (o < 512) then liveSetB d (offRcFeedStatus o) 31 true else d
  let g := if o < 512 then getGain d (.rcFeed o) else gainDefault 32768
  let g := gainRequest (if d.rc.muted.contains o && decide (o < 512) then 0 else gainOne) g
  let r := gainBlock 32 20 (zcTimeoutAt d b) n z.1 g
  let d := if o < 512 then setGain d (.rcFeed o) r.1 else d
  let y := trimZeros r.2.1
  (d, if y.isEmpty then a.2 else a.2 ++ [(o, y)])

/-- Channels with anything to do: input, history, biquad state or a connection. -/
def rcLive (d : Dev) (input : Audio) (b prev : Nat) : List Nat :=
  let conn := fun (bank : Bank) => bank.filterMap fun e => if 0xF01000 ≤ e.1 ∧ e.1 < 0xF01900 then some ((e.1 - 0xF01000) / 4) else none
  let all : List Nat := input.map (fun e => e.1) ++ d.rc.hist.map (fun e => e.1) ++ d.rc.bq.map (fun e => e.1 / 16) ++
    conn (bankAt d.regs.act b) ++ conn (bankAt d.regs.act prev) ++ d.rc.muted ++
    d.gains.filterMap fun e => if 32768 ≤ e.1 then some (e.1 - 32768) else none
  all.foldl setIns []

/-- The swap ends (R169, R170): the new filters are active, the old slots are free. -/
def rcSwapDone (l : List (Nat × List Int)) (d : Dev) : Dev :=
  let d := l.foldl (fun d r =>
    tapsReport (liveSetB (liveSetB d (offRcFeedStatus r.1) 30 true) (offRcFeedStatus r.1) 29 false) r.1 r.2.length) d
  let d := bumpBy d offRcSwapCount l.length
  let fs := l.foldl (fun m r => if r.2.isEmpty then mapDel m r.1 else mapIns (mapDel m r.1) r.1 r.2) d.rc.filters
  rcDiscard { d with rc := { d.rc with filters := fs, swap := none } }

/-- While RC is off in a block, the feeds or the buses keep no history and no biquad state (R178). -/
def rcQuiet (feeds : Bool) (d : Dev) : Dev :=
  { d with rc := { d.rc with hist := if feeds then [] else d.rc.hist,
                             bq := d.rc.bq.filter fun e => decide (e.1 / 16 < 512) != feeds } }

/-- RC corrects the feeds of block bf and the buses of block bb (R155), where it runs by each block's values (R35, R178). `gen` gives
the measurement generators' samples for the epoch at which the block is presented. -/
def rcCorrect (gen : Nat → List Int) (bf bb : Nat) (feeds buses : Audio) (d : Dev) : Dev :=
  let n := blockN d
  let on := fun (b : Nat) => runningAt d b blkRc
  let prev := match d.rc.last with
    | some p => (if on p.1 then p.1 else bf, if on p.2 then p.2 else bb)
    | none => (bf, bb)
  let swapNow := match d.rc.swap with
    | some s => if s.1 ≤ bf then some s.2 else none
    | none => none
  let d := if on bf then tailReturn bf d else rcQuiet true d
  let d := bqKeep bf bb d
  let d := if on bb then d else rcQuiet false d
  let lf := if on bf then (rcLive d feeds bf prev.1).filter fun o => decide (o < 512) else []
  let lb := if on bb then (rcLive d buses bb prev.2).filter fun o => decide (512 ≤ o) else []
  let r := lf.foldl (rcChannel gen bf prev.1 swapNow feeds) (d, [])
  let r := lb.foldl (rcChannel gen bb prev.2 none buses) r
  let nsw := match swapNow with
    | some l => l.length
    | none => 0
  let load := if running d blkRc then (if n = 16 then 765952 + 136 * nsw else 1662976 + 528 * nsw) else 0
  let d := { r.1 with path := { r.1.path with corrected := ⟨d.epc.epoch, bf, bb, r.2⟩ :: r.1.path.corrected.take 3 },
                      rc := { r.1.rc with last := some (bf, bb) } }
  liveSetF d offRcLoadB 23 0 load

/-- LOAD_A of the epoch (R162); bf is the block of the feeds that the epoch corrects. The parallel run counts from its start, before READY
(DESIGN CHOICE, assumption log entry 256). -/
def rcLoadA (bf : Nat) (d : Dev) : Dev :=
  if running d blkRc = false then liveSetF d offRcLoadA 23 0 0
  else
    let n := blockN d
    let par := match d.rc.phase with
      | .parallel _ | .ready => d.rc.standby.length
      | _ => 0
    let nsw := match d.rc.swap with
      | some s => if s.1 ≤ bf then s.2.length else 0
      | none => 0
    let v := if n = 16 then 3436544 + 2752 * par + 3960 * nsw else 6742016 + 5504 * par + 7664 * nsw
    liveSetF d offRcLoadA 23 0 (v + 311808 * d.rc.transformed)

/-- The correction epoch of block E has ended, and the parallel run with it (R170). A block that RC corrects twice is corrected both
times with the old filters and the new (R168). -/
def rcSwapEnds (d : Dev) : Dev := match d.rc.swap, d.rc.last with
  | some s, some p => if s.1 ≤ p.1 ∧ feedBlock d ≠ some p.1 then rcSwapDone s.2 d else d
  | _, _ => d

/-- RC at an epoch start (R167, R170, R173): the end of a swap, the transform of the epoch. -/
def rcEpoch (d : Dev) : Dev :=
  let d := rcSwapEnds d
  rcTransform (liveSet d offRcPinkNorm (wordOf (pinkNorm (if blockN d = 32 then 1 else 0))))

end Sys2Proof.Machine
end

