-- ==== Sys2Proof/Machine/Twn.lean ====
section
/-!
DEFINITION. Sys2Proof/Machine/Twn.lean: chapter 16, the twin link, the pair state and the ownership of the serial outputs.
-/
namespace Sys2Proof.Machine

/-- Replaces the twin state. -/
def setTwn (d : Dev) (t : Twn) : Dev := { d with twn := t }

/-- PAIR_STATE: 0 ALONE, 1 JOINING, 2 PAIRED, 3 SERVING. -/
def pairState (d : Dev) : Nat := liveF d offTwnStatus 7 6

/-- Sets PAIR_STATE. -/
def setPair (d : Dev) (v : Nat) : Dev := liveSetF d offTwnStatus 7 6 v

/-- A bit of TWN.STATUS. -/
def twnBit (d : Dev) (i : Nat) : Bool := liveB d offTwnStatus i

/-- TWN's error source. -/
def twnSrc : Nat := srcOf blkTwn 0

/-! ### Ownership (R356 to R361) -/

/-- R357, from OWN_EN, the timebase, Fatal errors, the watchdog and the pair state. -/
def eligible (d : Dev) : Bool :=
  actB d offTwnCtrl 1 && decide (timebase d ≠ 0) && !(fatal d) && !(twnBit d 5) && decide (pairState d ≠ 1) && !(twnBit d 8)

/-- ELIGIBLE follows R357; a twin that stops being eligible releases the outputs (R360). -/
def ownCheck (d : Dev) : Dev :=
  let e := eligible d
  let d := liveSetB d offTwnStatus 1 e
  if twnBit d 2 && !e then releaseOut d else d

/-- SIDE_CONFLICT is set; its entry is written the first time after PORST_N (R359). -/
def sideConflict (d : Dev) : Dev :=
  let d' := liveSetB d offTwnStatus 14 true
  if d.twn.sideLogged then d'
  else raiseErr (setTwn d' { d.twn with sideLogged := true }) twnSrc 0x0608 (if twnBit d 0 then 1 else 0)
    (BitVec.ofNat 32 d.twn.conflicts)

/-- ACTIVE_OUT is deasserted in a conflict (R358, R359). -/
def conflictRelease (d : Dev) : Dev :=
  let d := releaseOut d
  setTwn d { d.twn with released := true }

/-- OUTPUT_CLAIM (R356, R357): PEER_ACTIVE_IN has been deasserted for 1 us; by the two lines the twin owns the outputs. -/
def outputClaim (d : Dev) : Dev :=
  if eligible d && !(twnBit d 3) && !(twnBit d 2) && !d.twn.released then liveSetB (liveSetB d offTwnStatus 2 true) offTwnStatus 4 true
  else d

/-- CLAIM_CONFIRM (R357, R361): the drivers may start, the count of conflicts ends and the watchdog is armed. -/
def claimConfirm (d : Dev) : Dev :=
  if twnBit d 2 && !(twnBit d 3) then
    let d := setTwn d { d.twn with conflicts := 0, armed := true, confirmed := true,
                                   reduced := if d.twn.armed then d.twn.reduced else some d.epc.epoch }
    liveSetB d offTwnStatus 4 true
  else d

/-- PEER_ACTIVE_CHANGE (R356, R358): the gate follows the line; in a conflict the junior gives way at once. -/
def peerActive (level : Bool) (d : Dev) : Dev :=
  if twnBit d 3 = level then d
  else
    let d := liveSetB d offTwnStatus 3 level
    if level && twnBit d 2 then
      let d := setTwn d { d.twn with conflicts := d.twn.conflicts + 1 }
      let own := twnBit d 2
      let d := liveSetB (releaseOut d) offTwnStatus 2 own
      if twnBit d 0 then d
      else
        let d := conflictRelease d
        if d.twn.conflicts ≥ 2 then sideConflict d else d
    else if !level && twnBit d 2 then claimConfirm d
    else d

/-- SENIOR_CONFLICT_RELEASE (R359): the conflict is 4 us old. -/
def seniorRelease (d : Dev) : Dev :=
  if twnBit d 0 && twnBit d 2 && twnBit d 3 then sideConflict (conflictRelease d) else d

/-- CLAIM_BACKOFF (R359): PEER_ACTIVE_IN has been deasserted for 1 + u us. -/
def claimBackoff (d : Dev) : Dev :=
  if d.twn.released && !(twnBit d 3) then setTwn d { d.twn with released := false } else d

/-- The backoff of R359 in us, from the UID byte that the count of conflicts names. -/
def backoffUs (conflicts : Nat) : Nat := 1 + Config.uid.toNat / 2 ^ (8 * (conflicts % 8)) % 256

/-- The reduction of an epoch has completed: the watchdog restarts (R361). -/
def watchdogKick (d : Dev) : Dev := setTwn d { d.twn with reduced := some d.epc.epoch }

/-- WATCHDOG_RELEASE (R361): 8 ms, which is 24 epochs, have passed without a completed reduction. -/
def watchdogRelease (d : Dev) : Dev :=
  let last := d.twn.reduced.getD 0
  if d.twn.armed && !(twnBit d 5) && decide (last + 24 ≤ d.epc.epoch) then
    let d := liveSetB (liveSetB (releaseOut d) offTwnStatus 5 true) offTwnStatus 1 false
    raiseErr d twnSrc 0x0008 (BitVec.ofNat 32 last) 0
  else d

/-- REARM (R361): while the render region completes its reductions. -/
def rearm (d : Dev) : Dev :=
  match d.twn.reduced with
  | some e => if twnBit d 5 && decide (d.epc.epoch ≤ e + 1) then ownCheck (liveSetB d offTwnStatus 5 false) else d
  | none => d

/-! ### Frames -/

/-- The digest of a block of an output channel (R352). -/
def digestOf (n : Nat) (xs : List Int) : BitVec 64 :=
  crc64 ((List.range n).flatMap fun k => beBytes 3 (code 24 (sampleAt xs k)))

/-- The digests of the output channels of a block that are not silent. -/
def digestsOf (n : Nat) (a : Audio) : List (Nat × BitVec 64) := a.map fun e => (e.1, digestOf n e.2)

/-- The channels whose digests differ: how many, and the lowest. -/
def digestDiff (n : Nat) (a b : List (Nat × BitVec 64)) : Nat × Nat :=
  let z := digestOf n []
  let get := fun (l : List (Nat × BitVec 64)) m => mapGet (fun _ => z) l m
  let l := ((a.map (·.1) ++ b.map (·.1)).foldl setIns []).filter fun m => decide (get a m ≠ get b m)
  (l.length, l.headD 0)

/-- The digests computed for an epoch. -/
def ownDigests (d : Dev) (e : Nat) : Option (List (Nat × BitVec 64)) :=
  (d.twn.digests.find? fun x => decide (x.1 = e)).map (·.2)

/-- The margin window computes the digests of the block of the next epoch (R352). -/
def makeDigests (d : Dev) : Dev :=
  setTwn d { d.twn with digests := (d.epc.epoch + 1, digestsOf (blockN d) d.path.next) :: d.twn.digests.take 3 }

/-- A frame up to the end of its payload (R350): MAGIC, TYPE, a zero byte, LENGTH, SEQ and the payload. -/
def frameFront (magic seq : BitVec 16) (type : Nat) (payload : List Byte) : List Byte :=
  beBytes 2 magic.toNat ++ beBytes 2 (type * 256) ++ beBytes 2 payload.length ++ beBytes 2 seq.toNat ++ payload

/-- The 1,536 digests of an EPOCH frame, channel 0 first. -/
def digestBytes (n : Nat) (l : List (Nat × BitVec 64)) : List Byte :=
  let z := digestOf n []
  (List.range 1536).flatMap fun m => beBytes 8 (mapGet (fun _ => z) l m).toNat

/-- The STATE byte of an EPOCH frame. -/
def stateByte (f : TwinEpoch) : Nat :=
  f.senior.toNat + 2 * f.activeOut.toNat + 4 * f.peerActiveIn.toNat + 8 * f.ptp.toNat + 16 * (f.pairState % 4)

/-- The payload of an EPOCH frame, 12,312 bytes (R351). -/
def epochPayload (n : Nat) (f : TwinEpoch) : List Byte :=
  beBytes 6 f.epoch ++ beBytes 2 (stateByte f * 256) ++ beBytes 4 f.imageGen.toNat ++ beBytes 4 f.imageCrc.toNat ++
    beBytes 6 f.applied ++ beBytes 2 0 ++ digestBytes n f.digests

/-- The payload of a MSG frame (R351): 1 JOIN_REQUEST, 2 JOIN_START with K, 3 JOIN_STOP. -/
def msgPayload (code k : Nat) : List Byte := beBytes 2 code ++ if code = 2 then beBytes 6 k else []

/-- The payload of a STATE frame (R351). -/
def statePayload (f : StateFrame) : List Byte := beBytes 2 f.kind ++ beBytes 2 0 ++ beBytes 4 f.offset ++ f.data

/-- Sends a frame on both lanes, with the next SEQ (R350). -/
def sendFrame (type : Nat) (payload : List Byte) (d : Dev) : Dev :=
  let b := frameFront 0x5157 (BitVec.ofNat 16 d.twn.seq) type payload
  setTwn d { d.twn with out := d.twn.out ++ [b ++ beBytes 4 (crc32c b).toNat], seq := (d.twn.seq + 1) % 65536 }

/-- The EPOCH frame of the epoch in progress (R351). -/
def epochFrame (d : Dev) : Dev :=
  let f : TwinEpoch :=
    { epoch := d.epc.epoch, senior := twnBit d 0, activeOut := twnBit d 2, peerActiveIn := twnBit d 3,
      ptp := decide (timebase d = 1), pairState := pairState d, imageGen := liveGet d offNvmRunGen, imageCrc := liveGet d offNvmRunCrc,
      applied := (liveGet d offEpcAppliedEpochLo).toNat + liveF d offEpcAppliedEpochHi 15 0 * 2 ^ 32,
      digests := (ownDigests d d.epc.epoch).getD [] }
  sendFrame 1 (epochPayload (blockN d) f) (setTwn d { d.twn with sent := some f, out := [] })

/-- Sends a MSG frame. -/
def sendMsg (code k : Nat) (d : Dev) : Dev := sendFrame 2 (msgPayload code k) (setTwn d { d.twn with msg := some (code, k) })

/-- Sends a kind's record in STATE frames, each with its byte offset (R351). -/
def sendRecord (kind : Nat) (rec : List Byte) (d : Dev) : Dev :=
  ((chunks rec.length 12304 rec).zipIdx).foldl (fun d c => sendFrame 3 (statePayload ⟨kind, 12304 * c.2, c.1⟩) d) d

/-- A lane delivers a valid frame (R350). -/
def laneHeard (lane : Nat) (d : Dev) : Dev :=
  setTwn (liveSetB d offTwnStatus (12 + lane) true)
    { d.twn with laneNow := setIns d.twn.laneNow lane,
                 laneIdle := if lane = 0 then (0, d.twn.laneIdle.2) else (d.twn.laneIdle.1, 0) }

/-- TWIN_FRAME_CRC_ERROR (R350). -/
def twinCrcError (lane : Nat) (d : Dev) : Dev := if running d blkTwn then bump d (offTwnLaneCrc lane) else d

/-- The CRC of a frame copy is right. -/
def copyCrcOk (h : TwinHead) (type : Nat) (payload : List Byte) : Bool :=
  h.crc == crc32c (frameFront h.magic h.seq type payload)

/-- A frame copy is valid: its MAGIC, its LENGTH and its CRC (R350). -/
def copyOk (h : TwinHead) (type : Nat) (payload : List Byte) : Bool :=
  h.magic == 0x5157#16 && decide (payload.length ≤ 12312) && copyCrcOk h type payload

/-- A frame copy arrives on a lane (R350): one whose CRC fails counts against the lane, and one that is not valid is not taken; the first
valid copy is taken, and the second is discarded by SEQ. A copy is a second one where its SEQ is one of the last 16 taken (assumption log entry
213). -/
def takeCopy (lane : Nat) (h : TwinHead) (type : Nat) (payload : List Byte) (take : Dev → Dev) (d : Dev) : Dev :=
  if running d blkTwn = false then d
  else if copyCrcOk h type payload = false then twinCrcError lane d
  else if copyOk h type payload = false then d
  else
    let d := laneHeard lane d
    if d.twn.rxSeqs.contains h.seq then d else take (setTwn d { d.twn with rxSeqs := h.seq :: d.twn.rxSeqs.take 15 })

/-- TWIN_EPOCH_FRAME_RX (R351, R353): the frame is kept until its epoch is judged. -/
def twinFrame (f : TwinEpoch) (d : Dev) : Dev :=
  let d := setTwn d { d.twn with rx := f :: d.twn.rx.take 3 }
  liveSet (liveSet d offTwnPeerImageLo f.imageCrc) offTwnPeerImageHi f.imageGen

/-! ### Joining (R363, R364) -/

/-- Insert-group state of more than 512 KiB (R364). -/
def stateTooLarge (d : Dev) : Bool := decide (d.wd.groups.foldl (fun a g => a + 4 * g.stateLen) 0 > 512 * 1024)

/-- This twin refuses a JOIN_REQUEST (R364). -/
def joinRefused (d : Dev) : Bool :=
  let reload := match d.boot.reload with
    | some l => l.secs.any fun s => decide (s.type = 0x15)
    | none => false
  stateTooLarge d || reload || decide (d.rc.phase ≠ .idle) || decide (pairState d = 1)

/-- JOIN_REQUEST: the peer asks to join (R363, R364). -/
def joinRequest (d : Dev) : Dev :=
  if joinRefused d then d
  else
    let k := d.epc.epoch + 1 + Config.joinLead d.twn.answers
    sendMsg 2 k (setTwn d { d.twn with serveK := some k, answers := d.twn.answers + 1 })

/-- CAUSE of a request that a peer which is heard has not answered (R364), from what this twin can see of it: the tables, which are
the same on both twins, and the PAIR_STATE in its EPOCH frames; what is left is a reload (assumption log entry 37). -/
def refusalCause (d : Dev) : Nat :=
  if stateTooLarge d then 1 else if d.twn.rx.head?.any fun f => decide (f.pairState = 1) then 3 else 2

/-- JOIN_REQUEST_TX: once a second until the peer answers. Of a request that was not answered a cause is recorded (R364). -/
def joinRequestTx (d : Dev) : Dev :=
  let due := match d.twn.asked with
    | some e => decide (e + 3000 ≤ d.epc.epoch)
    | none => true
  if running d blkTwn && decide (pairState d = 1) && d.twn.joinK.isNone && due then
    let d := if d.twn.asked.isSome && twnBit d 9 then liveSetF d offTwnJoinStatus 2 0 (refusalCause d) else d
    sendMsg 1 0 (setTwn d { d.twn with asked := some d.epc.epoch })
  else d

/-- JOIN_START: following begins at K. -/
def joinStart (k : Nat) (d : Dev) : Dev :=
  if pairState d = 1 ∧ d.twn.joinK = none then setTwn d { d.twn with joinK := some k, asked := none } else d

/-- JOIN_STOP: the serving twin ends the join. -/
def joinStop (d : Dev) : Dev := setTwn d { d.twn with serveK := none }

/-- JOIN_TIMEOUT (R364): PAIRED has not been reached within JOIN_TIMEOUT_S of K. -/
def joinTimeout (d : Dev) : Dev :=
  match d.twn.joinK with
  | none => d
  | some k =>
    if running d blkTwn && decide (pairState d = 1 ∧ k + 3000 * actF d offTwnJoinCfg 7 0 ≤ d.epc.epoch) then
      let d := bumpSat (sendMsg 3 0 d) offTwnJoinStatus 15 8
      let d := raiseErr d twnSrc 0x0606 (liveGet d offTwnJoinStatus) 0
      setTwn d { d.twn with joinK := none, followed := [], heard := [], arrived := [], mirrored := [], asked := none }
    else d

/-- The numbers of a record: each with its place, eight bytes both (assumption log entry 23). -/
def stateRecord (l : List (Nat × Int)) : List Byte := l.flatMap fun v => beBytes 8 v.1 ++ beBytes 8 (code 64 v.2)

/-- The number at a place of a record that has been received; 0 where it holds none. -/
def recordNum (rec : List (Nat × Byte)) (i : Nat) : Nat :=
  match (List.range (rec.length / 16)).find? fun j => decide (beNat (bytesGet rec (16 * j) 8) = i) with
  | some j => beNat (bytesGet rec (16 * j + 8) 8)
  | none => 0

/-- The place of the mirror of a byte of insert-group state in the supervisor reserved region of MEM1: the groups' blocks one after the
other (R327, R363, assumption log entry 23). -/
def mirrorOffset (d : Dev) (o : Nat) : Option Nat :=
  let r := d.wd.groups.foldl (fun (a : Nat × Option Nat) g =>
    let at' := g.stateAddr * 16
    (a.1 + 4 * g.stateLen, if a.2.isNone && decide (at' ≤ o ∧ o < at' + 4 * g.stateLen) then some (a.1 + (o - at')) else a.2)) (0, none)
  r.2.map fun k => mem1Reserved d + Config.mirrorAt % (2 ^ 28 - 2 ^ 19) + k

/-- Words that the peer has written back arrive in the mirror (R363, kind 5). -/
def mirrorArrives (data : List Byte) (d : Dev) : Dev :=
  (chunks (data.length / 16) 16 data).foldl (fun d b =>
    let o := field b 0 8
    match mirrorOffset d o with
    | none => d
    | some p =>
      let d := reservedRun d p (leBytes 4 (field b 8 8 % 2 ^ 32))
      setTwn d { d.twn with arrived := mapIns (mapDel d.twn.arrived o) o d.epc.epoch }) d

/-- STATE_FRAME_RX (R351, R363): the record is kept until it is installed; words of the mirror go into MEM1. -/
def stateFrame (f : StateFrame) (d : Dev) : Dev :=
  if pairState d = 1 ∧ d.twn.joinK.isSome = true then
    if f.kind = 5 then mirrorArrives f.data d
    else
    let e := d.epc.epoch
    let same := fun (r : Nat × Nat × List (Nat × Byte)) => decide (r.1 = f.kind ∧ r.2.1 = e)
    let old := match d.twn.followed.find? same with
      | some r => r.2.2
      | none => []
    let new := f.data.zipIdx.foldl (fun m b => mapIns (mapDel m (f.offset + b.2)) (f.offset + b.2) b.1) old
    let rest := d.twn.followed.filter fun r => !(same r) && decide (e ≤ r.2.1 + 2)
    setTwn d { d.twn with followed := (f.kind, e, new) :: rest }
  else d

/-! ### Followed state: the numbers of a kind, by places of this model's own (assumption log entry 23), what the serving twin latches of
them, and what the joining twin makes of a record of block X at the start of block X + 2. -/

/-- A signed number of a record. -/
def recordInt (rec : List (Nat × Byte)) (i width : Nat) : Int := sext width (recordNum rec i % 2 ^ width)

/-- Numbers at consecutive places. -/
def placed (i : Nat) (l : List Int) : List (Nat × Int) := (l.zipIdx).map fun v => (i + v.2, v.1)

/-! #### Kind 1: slot fields, metadata laws, pending records and sequence windows of OBJ -/

/-- Place of pending record j of a slot. -/
def recPlace (n j : Nat) : Nat := 2 ^ 16 + (256 * n + j) * 16

/-- Place of the sequence window of a source. -/
def windowPlace (s : Nat) : Nat := 2 ^ 23 + 1024 * s

/-- The numbers of a record. -/
def recNums (r : ObjRec) : List Int :=
  let p := r.pos.getD (0, 0, 0)
  let sh := r.shape.getD (0, 0)
  [r.target, r.seq, r.idx, r.jump.toNat + 2 * r.pos.isSome.toNat + 4 * r.gain.isSome.toNat + 8 * r.shape.isSome.toNat, p.1, p.2.1, p.2.2,
   r.gain.getD 0, sh.1, sh.2, r.src]

/-- The record that numbers spell. -/
def recOf (rec : List (Nat × Byte)) (i : Nat) : ObjRec :=
  let w := fun k => recordNum rec (i + k)
  let p := fun k => recordInt rec (i + k) 24
  let has := fun k => (w 3).testBit k
  ⟨w 0, w 1 % 65536, w 2, has 0, if has 1 then some (p 4, p 5, p 6) else none, if has 2 then some (w 7 % 65536) else none,
    if has 3 then some (w 8 % 256, w 9 % 256) else none, w 10 % 16⟩

/-- What the serving twin latches. -/
def latchObj (d : Dev) : List (Nat × Int) :=
  (List.range 1024).flatMap (fun n =>
    let x := getObj d n
    let rs := x.pending.flatMap fun t => t.2
    let opt := fun (v : Option Nat) => match v with
      | some k => ((k + 1 : Nat) : Int)
      | none => 0
    placed (8 * n) ([offObjStatX n, offObjStatY n, offObjStatZ n].map fun o => (liveGet d o).toInt) ++
      placed (8 * n + 3) [((liveF d (offObjStatGain n) 23 0 : Nat) : Int), opt x.law, opt x.applied, ((rs.length : Nat) : Int)] ++
      (rs.zipIdx).flatMap fun r => placed (recPlace n r.2) (recNums r.1)) ++
  (List.range 16).flatMap fun s =>
    let x := getSrc d s
    placed (windowPlace s) ([((liveGet d (offObjMsrcSeq s)).toNat : Int), ((x.last : Nat) : Int), ((x.seen.length : Nat) : Int)] ++
      x.seen.map fun q => ((q : Nat) : Int))

/-- The window of a source: that of the record, which then takes the sequences that this twin has accepted itself. -/
def installWindow (rec : List (Nat × Byte)) (s : Nat) (d : Dev) : Dev :=
  let w := fun i => recordNum rec (windowPlace s + i)
  let own := getSrc d s
  let start : Bool × Nat × List Nat := ((w 0).testBit 16, w 0 % 65536, (List.range (w 2 % 513)).map fun i => w (3 + i) % 65536)
  let r := own.seen.reverse.foldl (fun (a : Bool × Nat × List Nat) q =>
    if windowJudge a.1 a.2.1 q a.2.2 = 0 then
      let h := if a.1 = false ∨ (q + 65536 - a.2.1) % 65536 < 0x8000 then q else a.2.1
      (true, h, q :: a.2.2.filter fun p => decide ((h + 65536 - p) % 65536 < 512))
    else a) start
  let d := liveSet d (offObjMsrcSeq s) (BitVec.ofNat 32 (r.1.toNat * 65536 + r.2.1))
  setSrc d s { own with seen := if r.1 then r.2.2 else [], last := max own.last (w 1) }

/-- The fields of a slot: those of the record, then its pending records and this twin's own that have applied since (R105). What this
twin has queued itself stays queued. -/
def installSlot (rec : List (Nat × Byte)) (from' : Nat) (n : Nat) (d : Dev) : Dev :=
  let e := d.epc.epoch
  let w := fun i => recordNum rec (8 * n + i)
  let opt := fun (v : Nat) => if v = 0 then none else some (v - 1)
  let d := [offObjStatX n, offObjStatY n, offObjStatZ n].zipIdx.foldl (fun d o => liveSet d o.1 (wordOf (recordInt rec (8 * n + o.2) 24))) d
  let d := liveSetF d (offObjStatGain n) 23 0 (w 3)
  let theirs := (List.range (w 6 % 256)).map fun j => recOf rec (recPlace n j)
  let mine := (d.obj.recent.filter fun r => decide (r.2.1 = n ∧ from' < r.1)).map fun r => r.2.2
  let same := fun (a b : ObjRec) => decide (a.src = b.src ∧ a.seq = b.seq ∧ a.idx = b.idx)
  let due := theirs.filter fun r => decide (r.target ≤ e) && !(mine.any (same r))
  let x := getObj d n
  let waits := (theirs.filter fun r => decide (e < r.target)) ++
    (x.pending.flatMap fun t => t.2).filter fun r => !(theirs.any (same r))
  let now := due ++ mine
  let h := liveF d (offObjMsrcSeq ((now.map fun r => r.src).headD 0)) 15 0
  let top := now.foldl (fun m r => some (max (m.getD 0) r.target)) (opt (w 5))
  let d := setObj d n { x with pending := (waits.foldl queueIns []).take 4, law := (opt (w 4)).map (· % 256), applied := top }
  queueReport ((now.foldl (fun l r => recIns h r l) []).foldl (applyRec n) d) n

/-- Installs kind 1. -/
def installObj (rec : List (Nat × Byte)) (from' : Nat) (d : Dev) : Dev :=
  (List.range 1024).foldl (fun d n => installSlot rec from' n d) ((List.range 16).foldl (fun d s => installWindow rec s d) d)

/-! #### Kind 2: DC estimates and settling state of CND -/

/-- What the serving twin latches. -/
def latchCnd (d : Dev) : List (Nat × Int) :=
  d.cnd.slots.flatMap fun s => placed (2 * s.1) [s.2.dc, ((s.2.n + 2 ^ 32 * s.2.unsettled.toNat : Nat) : Int)]

/-- The estimate after this twin's own samples of blocks X and X + 1, oldest first (R73). -/
def dcAdvance (d : Dev) (s from' : Nat) (xs : List Int) (dc : Int) : Int :=
  (xs.zipIdx).foldl (fun dc x => (dcBlock (actAt d (if x.2 < blockN d then from' else from' + 1) (offCndSlotCfg s)) x.1 dc).2) dc

/-- A slot: the record's state advanced through blocks X and X + 1. A slot that this twin has reset in them keeps its own state. -/
def installSlotCnd (rec : List (Nat × Byte)) (from' s : Nat) (d : Dev) : Dev :=
  let x := getSlot d s
  let len := 2 * blockN d
  if x.n < len then d
  else
    let w := recordNum rec (2 * s + 1)
    let dc := dcAdvance d s from' ((x.kept.take len).reverse) (recordInt rec (2 * s) 40)
    let n := w % 2 ^ 32 + len
    let big := convN x.conv x.filt
    let uns := w.testBit 32 && decide (n < big + 16)
    let d := if uns = x.unsettled then d
      else liveSetF d offCndUnsettledNow 10 0 (liveF d offCndUnsettledNow 10 0 + (if uns then 1 else 2047))
    let d := liveSet (slotReport d s uns (if uns then big + 16 - n else 0)) (offCndDcEst s) (wordOf (dc / 2 ^ 16))
    setSlot d s { x with dc := dc, n := n, unsettled := uns, fading := uns && decide (big ≤ n) }

/-- Installs kind 2. -/
def installCnd (rec : List (Nat × Byte)) (from' : Nat) (d : Dev) : Dev :=
  if running d blkCnd then (d.cnd.slots.map fun s => s.1).foldl (fun d s => installSlotCnd rec from' s d) d else d

/-! #### Kind 3: gain-stepping state, side-tone gains, i0 of the generators -/

/-- The gains of GRAPH and SAP. -/
def joinGains : List GainCh :=
  (List.range 1536).map .input ++ (List.range 1536).map .output ++ (List.range 32).map .side ++
    (List.range 32).flatMap fun p => (List.range 32).flatMap fun s => [.portRx p s, .portTx p s]

/-- The numbers of a gain. -/
def gainNums (g : GainCell) : List Int :=
  let r := g.ramp.getD (0, 0, 0)
  [g.cur, ((g.want.isSome.toNat + 2 * g.ramp.isSome.toNat : Nat) : Int), g.want.getD 0, ((g.count : Nat) : Int), r.1, r.2.1,
    ((r.2.2 : Nat) : Int)]

/-- The gain that numbers spell. -/
def gainOf (rec : List (Nat × Byte)) (i : Nat) : GainCell :=
  let f := fun k => recordInt rec (i + k) 25
  let tag := recordNum rec (i + 1)
  { cur := f 0, want := if tag.testBit 0 then some (f 2) else none, count := recordNum rec (i + 3) % 2 ^ 32,
    ramp := if tag.testBit 1 then some (f 4, f 5, recordNum rec (i + 6) % 2 ^ 16) else none }

/-- What the serving twin latches. -/
def latchGains (d : Dev) : List (Nat × Int) :=
  joinGains.flatMap (fun c => placed (8 * gainKey c) (gainNums (getGain d c))) ++
    d.gens.flatMap fun g => placed (2 ^ 20 + g.1) ((g.2.recs.take 1).map fun r => ((r.i0 : Nat) : Int))

/-- A gain's timeout and ramp in samples. -/
def gainSpan (d : Dev) (c : GainCh) : Nat × Nat := match c with
  | .portRx p _ | .portTx p _ => (actF d offGraphZc 7 0 * 48 * portMult d p, 16 * portMult d p)
  | _ => (zcTimeoutSamples d, blockN d)

/-- What came to a gain in an epoch. -/
def gainHeard (d : Dev) (c : GainCh) (e : Nat) : Option GainHeard :=
  d.twn.heard.find? fun h => decide (h.key = gainKey c ∧ h.epoch = e)

/-- A gain steps through one epoch with this twin's own signal (R54, R363). -/
def gainEpoch (d : Dev) (c : GainCh) (g : GainCell) (e : Nat) : GainCell := match gainHeard d c e with
  | none => g
  | some h => h.xs.reverse.foldl (fun g x => (gainStep (gainSpan d c).1 (gainSpan d c).2 x g).1) (gainRequest h.goal g)

/-- A gain of the record of block X advances through blocks X and X + 1 with what came to it in them (R363); what this twin asks of it
by then stands. -/
def gainAdvance (d : Dev) (from' : Nat) (c : GainCh) (g : GainCell) : GainCell :=
  let own := getGain d c
  let before' := ((gainHeard d c (from' - 1)).bind fun h => h.xs.head?).getD own.prev
  { gainRequest (gainGoal own) (gainEpoch d c (gainEpoch d c { g with prev := before' } from') (from' + 1)) with prev := own.prev }

/-- Installs kind 3. -/
def installGains (rec : List (Nat × Byte)) (from' : Nat) (d : Dev) : Dev :=
  let d := joinGains.foldl (fun d c => putGain d c (gainAdvance d from' c (gainOf rec (8 * gainKey c))) false) d
  { d with gens := d.gens.map fun (g : Nat × Gen) =>
      (g.1, { g.2 with recs := g.2.recs.map fun r => { r with i0 := (recordInt rec (2 ^ 20 + g.1) 60).toNat } }) }

/-! #### Kind 4: biquad states of RC -/

/-- What the serving twin latches. -/
def latchBq (d : Dev) : List (Nat × Int) :=
  d.rc.bq.flatMap fun z => placed (4 * z.1) [z.2.x1, z.2.x2, z.2.y1, z.2.y2]

/-- The biquads take what came to them in one of the two epochs. -/
def bqAdvance (q : Corrected) (d : Dev) : Dev :=
  let chans := (q.audio.map (fun (x : Nat × List Int) => x.1) ++ d.rc.bq.map (fun (z : Nat × BqState) => z.1 / 16)).foldl setIns []
  chans.foldl (fun d o =>
    let xs := mapGet (fun _ => []) q.audio o
    (bqChain d o (if o < 512 then q.feeds else q.buses) ((List.range (blockN d)).map (sampleAt xs))).1) d

/-- Installs kind 4. -/
def installBq (rec : List (Nat × Byte)) (from' : Nat) (d : Dev) : Dev :=
  let bq := (List.range 9216).foldl (fun m k =>
    let f := fun i => recordInt rec (4 * k + i) 32
    mapSet (fun _ => {}) m k ⟨f 0, f 1, f 2, f 3⟩) []
  (d.rc.fed.reverse.filter fun q => decide (from' ≤ q.epoch)).foldl (fun d q => bqAdvance q d) { d with rc := { d.rc with bq := bq } }

/-- A serving twin latches its state at the start of a block and sends it, from K on (R363). -/
def serveState (d : Dev) : Dev :=
  match d.twn.serveK with
  | none => d
  | some k =>
    if d.epc.epoch < k then d
    else [(1, latchObj d), (2, latchCnd d), (3, latchGains d), (4, latchBq d)].foldl (fun d r => sendRecord r.1 (stateRecord r.2) d) d

/-- A serving twin mirrors the state block that an insert item has written back (R363, kind 5). -/
def mirrorState (off : Nat) (ws : List Word) (d : Dev) : Dev :=
  match d.twn.serveK with
  | none => d
  | some k =>
    if d.epc.epoch < k ∨ running d blkTwn = false ∨ ws = [] then d
    else sendRecord 5 (stateRecord ((ws.zipIdx).map fun w => (off + 4 * w.2, w.1.toInt))) d

/-- The followed state of block X is installed at the start of block X + 2 (R363). -/
def installFollowed (d : Dev) : Dev :=
  match d.twn.joinK with
  | none => d
  | some k =>
    let due := d.twn.followed.filter fun r => decide (k ≤ r.2.1 ∧ r.2.1 + 2 = d.epc.epoch)
    due.foldl (fun d r =>
      match r.1 with
      | 1 => installObj r.2.2 r.2.1 d
      | 2 => installCnd r.2.2 r.2.1 d
      | 3 => installGains r.2.2 r.2.1 d
      | 4 => installBq r.2.2 r.2.1 d
      | _ => d) d

/-! ### Pair state (R353 to R355) -/

/-- The heartbeat of epoch c (R353). -/
def heartbeat (heard : Bool) (d : Dev) : Dev :=
  let t := d.twn
  let d := setTwn d { t with missRun := if heard then 0 else t.missRun + 1, hearRun := if heard then t.hearRun + 1 else 0 }
  let d := if heard then d else bump d offTwnHbMissed
  if twnBit d 9 && decide (actF d offTwnHb 7 0 ≤ d.twn.missRun) then
    raiseErr (liveSetB d offTwnStatus 9 false) twnSrc 0x0601 0 0
  else if !(twnBit d 9) && decide (3 ≤ d.twn.hearRun) then raiseErr (liveSetB d offTwnStatus 9 true) twnSrc 0x0602 0 0
  else d

/-- A compared epoch c of a PAIRED twin (R355): how many channels differ, and the lowest. -/
def divergence (c count low : Nat) (d : Dev) : Dev :=
  setTwn d { d.twn with judged := some (c, count, low, d.twn.divRun), divRun := if count = 0 then 0 else d.twn.divRun + 1 }

/-- What R355 reports of a compared epoch: after the snapshot of the epoch start that judges it, so that it shows in the snapshot two
epochs after the epoch digested. -/
def divergenceReport (d : Dev) : Dev :=
  match d.twn.judged with
  | none => d
  | some (c, count, low, before') =>
    let d := setTwn d { d.twn with judged := none }
    if count = 0 then (if before' = 0 then d else raiseErr d twnSrc 0x0605 (BitVec.ofNat 32 before') 0)
    else
      let d := liveSetB (bump d offTwnDivCount) offTwnStatus 10 true
      let d := liveSet d offTwnDivInfo (BitVec.ofNat 32 (count * 65536 + low))
      if before' = 0 then
        raiseErr (liveSet48 d offTwnDivFirstLo offTwnDivFirstHi c) twnSrc 0x0604 (BitVec.ofNat 32 low) (BitVec.ofNat 32 count)
      else d

/-- The yielding twin does not own the serial outputs; where neither does, it is the junior (R354). The peer owns them while its line
alone is asserted. -/
def yielding (d : Dev) : Bool := !(twnBit d 4) && ((twnBit d 3 && !(twnBit d 2)) || !(twnBit d 0))

/-- Enters a pair state; leaving JOINING or SERVING ends the join. -/
def enterPair (v : Nat) (d : Dev) : Dev :=
  let d := setPair d v
  let t := d.twn
  setTwn d { t with joinK := if v = 1 then t.joinK else none, asked := none, followed := if v = 1 then t.followed else [],
                    heard := if v = 1 then t.heard else [], arrived := if v = 1 then t.arrived else [],
                    mirrored := if v = 1 then t.mirrored else [], serveK := if v = 3 then t.serveK else none,
                    agreeRun := if v = 1 then 0 else t.agreeRun }

/-- IMAGE_MISMATCH in ALONE (R354). -/
def imageMismatch (differs : Bool) (peer : Word) (d : Dev) : Dev :=
  if differs && !(twnBit d 11) then
    raiseErr (liveSetB d offTwnStatus 11 true) twnSrc 0x0603 peer (liveGet d offNvmRunGen)
  else liveSetB d offTwnStatus 11 differs

/-- The transitions of Table 16-2, from the last frame heard and whether its epoch was compared and differed. -/
def pairStep (f : Option TwinEpoch) (differed : Bool) (d : Dev) : Dev :=
  let st := pairState d
  if !(twnBit d 9) then (if st = 0 then imageMismatch false 0 d else enterPair 0 d)
  else match f with
    | none => d
    | some f =>
      let diff := f.imageGen != liveGet d offNvmRunGen || f.imageCrc != liveGet d offNvmRunCrc
      match st with
      | 0 =>
        let d := imageMismatch diff f.imageGen d
        if f.pairState = 1 then enterPair 3 d
        else if diff then d
        else if d.twn.agreeRun ≥ 3 then enterPair 2 d
        else if differed && yielding d then enterPair 1 d
        else d
      | 1 => if d.twn.agreeRun ≥ actF d offTwnJoinCfg 31 16 then enterPair 2 d else d
      | 2 =>
        if f.pairState = 1 then enterPair 3 d
        else if actB d offTwnCtrl 2 && decide (d.twn.divRun ≥ actF d offTwnCtrl 31 16) && yielding d then enterPair 1 d
        else d
      | _ => if f.pairState = 2 then enterPair 2 d else d

/-- TX_HELD (Table 16-2). -/
def txHeld (d : Dev) : Dev :=
  let st := pairState d
  liveSetB d offTwnStatus 8 (decide (st = 1) || (decide (st = 0) && twnBit d 11 && yielding d))

/-- Lanes that have been silent for 3 epochs read down (R350). -/
def laneEpoch (d : Dev) : Dev :=
  let idle := fun lane n => if d.twn.laneNow.contains lane then 0 else n + 1
  let a := idle 0 d.twn.laneIdle.1
  let b := idle 1 d.twn.laneIdle.2
  let d := setTwn d { d.twn with laneNow := [], laneIdle := (a, b) }
  let d := if a ≥ 3 then liveSetB d offTwnStatus 12 false else d
  if b ≥ 3 then liveSetB d offTwnStatus 13 false else d

/-- TWN stops (R372). -/
def twnStop (d : Dev) : Dev :=
  let t := d.twn
  let d := setTwn d { digests := t.digests, judged := t.judged, seq := t.seq, answers := t.answers, conflicts := t.conflicts,
                      released := t.released, sideLogged := t.sideLogged, armed := t.armed, confirmed := t.confirmed, reduced := t.reduced }
  let d := liveSetF d offTwnStatus 13 11 0
  liveSetF d offTwnStatus 9 6 0

/-- The twin at the start of an epoch: the epoch before is judged from the frames heard (R353 to R355), the pair state and
ownership follow, followed state is installed and the EPOCH frame is sent, with JOIN_STOP after it where a join has succeeded. A run of
divergent epochs ends with the next agreeing one, in whatever state (R355). -/
def twnEpoch (d : Dev) : Dev :=
  let c := d.epc.epoch - 1
  let run := running d blkTwn
  let was := pairState d
  let d := if run && d.twn.ran then
      let f := d.twn.rx.find? fun x => decide (x.epoch = c)
      let d := heartbeat f.isSome (laneEpoch d)
      let r := match f, ownDigests d c, d.twn.sent with
        | some f, some own, some s => if f.ptp && s.ptp then some (digestDiff (blockN d) own f.digests) else none
        | _, _, _ => none
      let d := match r with
        | some x =>
          let d := if pairState d = 2 ∨ (x.1 = 0 ∧ 0 < d.twn.divRun) then divergence c x.1 x.2 d else d
          setTwn d { d.twn with agreeRun := if x.1 = 0 then d.twn.agreeRun + 1 else 0 }
        | none => setTwn d { d.twn with agreeRun := 0 }
      let d := match f with
        | some f => if f.senior = twnBit d 0 then sideConflict d else d
        | none => d
      pairStep f (match r with
        | some x => decide (x.1 ≠ 0)
        | none => false) d
    else if !run && d.twn.ran then twnStop d
    else d
  let d := ownCheck (txHeld d)
  let d := if run then
      let d := epochFrame (installFollowed d)
      serveState (if was = 1 ∧ pairState d = 2 then sendMsg 3 0 d else d)
    else d
  setTwn d { d.twn with ran := run }

/-! ### Commands -/

/-- TWIN_EPOCH_FRAME_RX (R353, R354). -/
def execTwinEpochFrameRx (lane : Nat) (head : TwinHead) (frame : TwinEpoch) (s : State) : Host.Outcome State Fault Refusal :=
  ranIf (decide (lane < 2)) s fun d => takeCopy lane head 1 (epochPayload (blockN d) frame) (twinFrame frame) d

/-- TWIN_FRAME_CRC_ERROR (R350). -/
def execTwinFrameCrcError (lane : Nat) (s : State) : Host.Outcome State Fault Refusal :=
  ranIf (decide (lane < 2)) s (twinCrcError lane)

/-- JOIN_REQUEST (R363, R364). -/
def execJoinRequest (s : State) (lane : Nat := 0) (head : TwinHead := ⟨0, 0, 0⟩) : Host.Outcome State Fault Refusal :=
  ranIf (decide (lane < 2)) s (takeCopy lane head 2 (msgPayload 1 0) joinRequest)

/-- JOIN_REQUEST_TX (R363). -/
def execJoinRequestTx (s : State) : Host.Outcome State Fault Refusal := ran s joinRequestTx

/-- JOIN_START (R363). -/
def execJoinStart (k : Nat) (s : State) (lane : Nat := 0) (head : TwinHead := ⟨0, 0, 0⟩) : Host.Outcome State Fault Refusal :=
  ranIf (decide (lane < 2)) s (takeCopy lane head 2 (msgPayload 2 k) (joinStart k))

/-- JOIN_STOP (R363). -/
def execJoinStop (s : State) (lane : Nat := 0) (head : TwinHead := ⟨0, 0, 0⟩) : Host.Outcome State Fault Refusal :=
  ranIf (decide (lane < 2)) s (takeCopy lane head 2 (msgPayload 3 0) joinStop)

/-- STATE_FRAME_RX (R363). -/
def execStateFrameRx (frame : StateFrame) (s : State) (lane : Nat := 0) (head : TwinHead := ⟨0, 0, 0⟩) :
    Host.Outcome State Fault Refusal :=
  ranIf (decide (lane < 2)) s (takeCopy lane head 3 (statePayload frame) (stateFrame frame))

/-- JOIN_TIMEOUT (R364). -/
def execJoinTimeout (s : State) : Host.Outcome State Fault Refusal := ran s joinTimeout

/-- PEER_ACTIVE_CHANGE (R356, R358). -/
def execPeerActiveChange (level : Bool) (s : State) : Host.Outcome State Fault Refusal := ran s (peerActive level)

/-- OUTPUT_CLAIM (R357). -/
def execOutputClaim (s : State) : Host.Outcome State Fault Refusal := ran s outputClaim

/-- CLAIM_CONFIRM (R357). -/
def execClaimConfirm (s : State) : Host.Outcome State Fault Refusal := ran s claimConfirm

/-- SENIOR_CONFLICT_RELEASE (R359). -/
def execSeniorConflictRelease (s : State) : Host.Outcome State Fault Refusal := ran s seniorRelease

/-- CLAIM_BACKOFF (R359). -/
def execClaimBackoff (s : State) : Host.Outcome State Fault Refusal := ran s claimBackoff

/-- WATCHDOG_RELEASE (R361). -/
def execWatchdogRelease (s : State) : Host.Outcome State Fault Refusal := ran s watchdogRelease

/-- REARM (R361). -/
def execRearm (s : State) : Host.Outcome State Fault Refusal := ran s rearm

end Sys2Proof.Machine
end

