-- ==== Sys2Proof/Machine/Items.lean ====
section
/-!
DEFINITION. Sys2Proof/Machine/Items.lean: what a work item finds and leaves (R200 to R202, R215, R216), and the insert stages
with their joins and fallback (R22 to R24, R220 to R224).
-/
namespace Sys2Proof.Machine

/-! ### Insert stages. A stage takes one block per epoch, an element, and gives it out again one epoch later. -/

/-- A stage: 0 IN, 1 SPK, 2 AUX, 3 OUT. -/
def stageOf (d : Dev) (s : Nat) : Stage := mapGet (fun _ => ({} : Stage)) d.wd.stages s

/-- Replaces a stage. -/
def setStage (d : Dev) (s : Nat) (x : Stage) : Dev :=
  { d with wd := { d.wd with stages := mapSet (fun _ => ({} : Stage)) d.wd.stages s x } }

/-- Audio of the channels from lo up to hi. -/
def audioSlice (lo hi : Nat) (a : Audio) : Audio := a.filter fun e => decide (lo ≤ e.1 ∧ e.1 < hi)

/-- The element that comes to a stage in epoch a, in the channel numbers of the sample path: feeds 0-511, buses 512-575. -/
def stageElement (d : Dev) (s a : Nat) : Option BlockAt :=
  match s with
  | 0 => (d.path.cond.find? fun e => e.1 = a).map fun e => ⟨a, a, e.2⟩
  | 1 => (d.path.reduced.find? fun e => e.epoch = a).map fun e => ⟨a, e.block, audioSlice 0 512 e.audio⟩
  | 2 => (d.path.reduced.find? fun e => e.epoch = a).map fun e => ⟨a, e.block, audioSlice 512 576 e.audio⟩
  | _ => d.path.trimmed.find? fun e => e.epoch = a

/-- Channel of the sample path of channel c of a stage's set. -/
def stageChan (s c : Nat) : Nat := if s = 2 then 512 + c else c

/-- The stage is enabled for block b (R24). -/
def stageOn (d : Dev) (s b : Nat) : Bool := actAtB d b (offWdStageCfg s) 0

/-- Epoch in which a stage's items for the element of epoch a are released: IN one epoch later (Table 10-3). -/
def releaseEpoch (s a : Nat) : Nat := if s = 0 then a + 1 else a

/-- The tables that hold for a block (R219). -/
def tablesAt (d : Dev) (b : Nat) : List InsGroup × List (Nat × Nat) :=
  d.wd.prior.foldl (fun t e => if b < e.1 then e.2 else t) (d.wd.groups, d.wd.kernels)

/-- Groups of a stage for a block, with their numbers in the table. -/
def stageGroups (d : Dev) (s b : Nat) : List (Nat × InsGroup) :=
  let l := (tablesAt d b).1
  ((List.range l.length).zip l).filter fun g => decide (g.2.stage = s)

/-- Groups listed for the block before b, in the numbers that they have for block b: a table that is replaced keeps the groups of the
same channels. -/
def carryGroups (d : Dev) (s b : Nat) (l : List Nat) : List Nat :=
  let old := (tablesAt d (b - 1)).1
  let new := (tablesAt d b).1
  if old = new then l
  else ((stageGroups d s b).filter fun g => l.any fun i => match old[i]? with
    | some o => decide (o.stage = s ∧ o.first = g.2.first ∧ o.count = g.2.count)
    | none => false).map fun g => g.1

/-- A core's item is the one of a group of a stage for a block. -/
def isItemOf (s g : Nat) (b : StageBlock) (it : WorkItem) : Bool :=
  decide (itemKind it = s + 1 ∧ itemGroup it = g ∧ itemBlock it = b.block % 2 ^ 32)

/-- Groups of a stage that miss a block at its cutoff or have missed it since: not delivered, and no core has issued their END (R222,
R233). -/
def missing (d : Dev) (s : Nat) (b : StageBlock) : List Nat :=
  ((stageGroups d s b.block).filter fun g =>
    !(b.delivered.contains g.1) && !(d.vec.cores.any fun p => match p.2.item with
      | none => false
      | some it => endIssued p.2 && isItemOf s g.1 b it)).map fun g => g.1

/-- Groups that fell back in the last block that the stage has had (R222). -/
def fellBack (d : Dev) (s : Nat) (st : Stage) : List Nat := match st.blocks with
  | [] => []
  | b :: _ => missing d s b

/-- The stage has had no block since it was enabled (STAGE_START). -/
def stageStarts (st : Stage) : Bool := match st.blocks, st.off with
  | [], _ => true
  | b :: _, some e => decide (b.block < e)
  | _, none => false

/-- The descriptor of an insert item (Table 10-1): its PRIORITY is of the block's values (R35). -/
def insertDesc (d : Dev) (s block : Nat) (st : Stage) (g : Nat × InsGroup) : List Word :=
  let uns := decide (s = 0) && d.path.unsettled.any fun u =>
    decide (u.1 = block) && u.2.any fun c => decide (g.2.first ≤ c ∧ c < g.2.first + g.2.count)
  let start := stageStarts st
  let after := !start && (carryGroups d s block (fellBack d s st)).contains g.1
  let flags := uns.toNat + 2 * start.toNat + 4 * after.toNat
  [BitVec.ofNat 32 (g.2.kernel * 65536 + bits (actAt d block (offWdStageCfg s)) 7 4 * 4096 + (s + 1) * 256),
   BitVec.ofNat 32 (block % 65536 * 65536 + s * 16384 + g.1), BitVec.ofNat 32 (g.2.count * 65536 + g.2.first),
   BitVec.ofNat 32 flags, BitVec.ofNat 32 block, BitVec.ofNat 32 g.2.stateAddr, BitVec.ofNat 32 (g.2.stateLen * 65536),
   g.2.param]

/-- The mirror of a group's state block holds what the peer wrote back after the block before: every word has arrived since the start of
the epoch before (R363, assumption log entry 23). -/
def mirrorComplete (d : Dev) (g : InsGroup) : Bool :=
  (List.range g.stateLen).all fun i => match d.twn.arrived.find? fun a => decide (a.1 = g.stateAddr * 16 + 4 * i) with
    | some a => decide (d.epc.epoch ≤ a.2 + 1)
    | none => false

/-- The groups of a release whose mirror is complete are noted (R363). -/
def noteMirrors (gs : List (Nat × InsGroup)) (d : Dev) : Dev :=
  if d.twn.joinK.isNone then d
  else
    let rest := d.twn.mirrored.filter fun k => !(gs.any fun g => decide (g.1 = k))
    { d with twn := { d.twn with mirrored := rest ++ (gs.filter fun g => mirrorComplete d g.2).map fun g => g.1 } }

/-- A stage's release (R220): the buffers take the element, and one item per group is enqueued; a stage that is not enabled for the block
has none. -/
def insertRelease (s : Nat) (d : Dev) : Dev :=
  let e := d.epc.epoch
  match stageElement d s (if s = 0 then e - 1 else e) with
  | none => d
  | some el =>
    if stageOn d s el.block then
      let st := stageOf d s
      let gs := stageGroups d s el.block
      let sb : StageBlock := ⟨e, el.block, el.audio, [], [], false, []⟩
      let d := setStage (noteMirrors gs d) s { st with blocks := sb :: st.blocks.take 1, missed := if stageStarts st then [] else st.missed }
      if wdRuns d then gs.foldl (fun d g => enqueue d (insertDesc d s el.block st g) (34 + s)) d else d
    else d

/-- INSERT_RELEASE (R220). -/
def execInsertRelease (stage : Nat) (s : State) : Host.Outcome State Fault Refusal :=
  ranIf (decide (stage < 4)) s (insertRelease stage)

/-- Records groups of a stage that missed a block (R224). The epoch's entry follows at the next epoch start (R466). -/
def missReport (d : Dev) (s : Nat) (miss : List Nat) : Dev :=
  if miss.isEmpty then d
  else
    let st := stageOf d s
    let d := miss.foldl (fun d g => liveSetB (liveSetB d (offWdGroupStatus g) 31 true) (offWdGroupStatus g) 30 true) d
    let d := liveSetF d (offWdStageStatus s) 27 16 (st.dry.length + miss.length)
    let d := bumpBy d (offWdStageMiss s) miss.length
    let d := if st.dry.isEmpty then raiseOwn d s else d
    setStage d s { st with dry := st.dry ++ miss }

/-- A stage's item cutoff (R222, R224). -/
def itemCutoff (s : Nat) (d : Dev) : Dev :=
  let st := stageOf d s
  match st.blocks with
  | [] => d
  | b :: t =>
    if b.cut then d
    else
      let hit := fun (it : WorkItem) => decide (itemKind it = s + 1 ∧ itemBlock it = b.block % 2 ^ 32)
      let miss := missing d s b
      let d := { d with wd := { d.wd with ready := d.wd.ready.filter fun it => !(hit it) } }
      let d := (stageGroups d s b.block).foldl (fun d g => liveSetB d (offWdGroupStatus g.1) 31 false) (abortItems d 3 false hit)
      let d := missReport d s miss
      setStage d s { stageOf d s with blocks := { b with cut := true, missed := miss } :: t }

/-- ITEM_CUTOFF (R222). -/
def execItemCutoff (stage : Nat) (s : State) : Host.Outcome State Fault Refusal :=
  ranIf (decide (stage < 4)) s (itemCutoff stage)

/-! ### The joins -/

/-- One group's channels of a finished block (R223): delivered, or dry; crossfaded where it changed. -/
def groupOut (n s : Nat) (st : Stage) (b : StageBlock) (a : Audio) (g : Nat × InsGroup) : Audio :=
  let wet := b.delivered.contains g.1
  (List.range g.2.count).foldl (fun a i =>
    let c := stageChan s (g.2.first + i)
    let dry := mapGet (fun _ => []) b.input c
    let y :=
      if wet then
        let w := mapGet (fun _ => []) b.out c
        if st.missed.contains g.1 then crossfade false n dry w else w
      else if st.wet.contains g.1 then crossfade false n (List.replicate n (mapGet (fun _ => 0) st.last c)) dry
      else dry
    mapSet (fun _ => []) a c (trimZeros y)) a

/-- A finished block of a stage: its output, and the stage that remembers it. Only the block just before counts as the last one
(R223). -/
def finishBlock (d : Dev) (s : Nat) (b : StageBlock) : Audio × Stage :=
  let n := blockN d
  let all := stageOf d s
  let held := if all.done.any fun x => decide (x + 1 = b.block) then all.wet else []
  let st := { all with wet := carryGroups d s b.block held, missed := carryGroups d s b.block all.missed }
  let gs := stageGroups d s b.block
  let out := gs.foldl (groupOut n s st b) b.input
  let last := gs.foldl (fun m g => (List.range g.2.count).foldl (fun m i =>
    let c := stageChan s (g.2.first + i)
    mapSet (fun _ => 0) m c (sampleAt (mapGet (fun _ => []) out c) (n - 1))) m) st.last
  let wet := (gs.filter fun g => b.delivered.contains g.1).map fun g => g.1
  let missed := (gs.filter fun g => !(b.delivered.contains g.1)).map fun g => g.1
  (out, { st with wet := wet, missed := missed, last := last, done := some b.block })

/-- A crossfade of two blocks on every channel, with the equal-gain weights (R24). -/
def fadeAudio (n : Nat) (old new : Audio) : Audio :=
  ((old.map (·.1) ++ new.map (·.1)).foldl setIns []).filterMap fun c =>
    let y := crossfade false n (mapGet (fun _ => []) old c) (mapGet (fun _ => []) new c)
    if y.isEmpty then none else some (c, y)

/-- The channels of an insert item's stage-out area (R201, Table 9-7). -/
def stagedOut (n s : Nat) (ymem : List (Nat × Word)) (first count : Nat) : Audio :=
  (List.range count).map fun i =>
    (stageChan s (first + i), (List.range n).map fun k =>
      let v := sext 32 (mapGet word0 ymem (0x4000 + count * k + i)).toNat
      if s = 0 ∨ s = 3 then satS 24 (rshr v 8) else v)

/-- An insert item delivers its block to the stage's output buffer (R216). -/
def deliver (d : Dev) (it : WorkItem) (ymem : List (Nat × Word)) : Dev :=
  let s := itemStage it
  let st := stageOf d s
  let a := stagedOut (blockN d) s ymem (bits (itemW it 2) 10 0) (bits (itemW it 2) 24 16)
  let put := fun (b : StageBlock) =>
    if b.block % 2 ^ 32 = itemBlock it then
      { b with out := a.foldl (fun m e => mapSet (fun _ => []) m e.1 (trimZeros e.2)) b.out,
               delivered := setIns b.delivered (itemGroup it) }
    else b
  let d := setStage d s { st with blocks := st.blocks.map put }
  liveSetF d (offWdStageLast s) 19 0 (Config.cycles 37 (d.wd.seq + d.epc.epoch)).toNat

/-- At the deadline of a block every item that has ended has delivered it, whether its state is written back or not (R216, R221). -/
def deliverEnded (d : Dev) (s : Nat) (b : StageBlock) : Dev :=
  d.vec.cores.foldl (fun d p => match p.2.item with
    | none => d
    | some it =>
      if p.2.ended && isItemOf s (itemGroup it) b it && !(b.delivered.contains (itemGroup it)) then deliver d it (settleAll p.2).ymem
      else d) d

/-- What a stage gives out for the element of epoch a: the finished block, or the element itself where nothing was released. Groups
that fell back after the cutoff are counted now (R224, R233). -/
def stageGive (d : Dev) (s : Nat) (el : BlockAt) : Dev × Audio :=
  let here := fun (d : Dev) => (stageOf d s).blocks.find? fun b => decide (b.epoch = releaseEpoch s el.epoch)
  match here d with
  | none => (d, el.audio)
  | some b =>
    let d := deliverEnded d s b
    let b := (here d).getD b
    let f := finishBlock d s b
    let late := ((stageGroups d s b.block).map fun g => g.1).filter fun g => !(b.delivered.contains g) && !(b.missed.contains g)
    let d := setStage d s { f.2 with
      blocks := f.2.blocks.map fun x => if x.epoch = b.epoch then { x with cut := true, missed := b.missed ++ late } else x }
    (missReport d s late, f.1)

/-- The samples that an element of stage s gives at the old latency: of OUT, those made for its presentation there (R24, R467). -/
def oldLatency (d : Dev) (s : Nat) (c : BlockAt) : Audio :=
  match d.path.early.find? fun b => decide (s = 3 ∧ b.epoch = c.epoch) with
  | some b => b.audio
  | none => c.audio

/-- The stage's output joins the sample path (R24) in epoch a: the block that arrives there, with the block whose values and
targets govern it. -/
def joinStage (d : Dev) (s a : Nat) : Dev × Option BlockAt :=
  let on := fun (e : Option BlockAt) => match e with
    | none => false
    | some b => stageOn d s b.block
  let cur := stageElement d s a
  let prev := stageElement d s (a - 1)
  match cur with
  | none => (d, none)
  | some c =>
    match prev with
    | none => (d, some c)
    | some p =>
      if !(on cur) && !(on prev) then (d, some c)
      else if on cur && !(on prev) then (d, some { c with audio := oldLatency d s c })
      else
        let g := stageGive d s p
        if !(on cur) then (g.1, some ⟨a, c.block, fadeAudio (blockN d) g.2 c.audio⟩)
        else if on (stageElement d s (a - 2)) then (g.1, some ⟨a, p.block, g.2⟩)
        else (g.1, some ⟨a, p.block, fadeAudio (blockN d) (oldLatency d s c) g.2⟩)

/-- The IN join at the end of an epoch: the block that the epoch brings to the input slots, which carry zero while GRAPH does not run
(R16, R63). -/
def joinIn (d : Dev) : Dev :=
  let j := joinStage d 0 d.epc.epoch
  match j.2 with
  | none => j.1
  | some b =>
    let b := if running d blkGraph then b else { b with audio := [] }
    { j.1 with path := { j.1.path with slots := b :: j.1.path.slots.take 3 } }

/-- The entries for the misses of the epoch that has ended (R224, R466). -/
def missEntries (d : Dev) : Dev :=
  (List.range 4).foldl (fun d s =>
    let l := (stageOf d s).dry
    if l.isEmpty then d
    else
      let low := l.foldl min (l.headD 0)
      let d := raiseErr d (srcOf blkWd 0) 0x0204 (BitVec.ofNat 32 s) (BitVec.ofNat 32 (l.length * 65536 + low))
      setStage d s { stageOf d s with dry := [] }) d

/-- WD at an epoch start: its misses are entered, it starts or stops with its enable (R217, R242), notes the stages that are not
enabled, and reports its mode (R229). -/
def wdEpoch (d : Dev) : Dev :=
  let d := missEntries d
  let run := running d blkWd
  let d := if run && !d.wd.ran then wdStart d else if run then d else wdStop d
  let d := { d with wd := { d.wd with ran := run } }
  let d := (List.range 4).foldl (fun d s =>
    if actB d (offWdStageCfg s) 0 then d else setStage d s { stageOf d s with off := some d.epc.epoch }) d
  liveSetF d offWdStatus 1 0 (if d.wd.recovery then 2 else if actB d offWdCtrl 1 then 1 else 0)

/-- Counts of WD at a snapshot: READY, RUNNING, GROUPS and PROD_STATUS. -/
def wdCounts (d : Dev) : Dev :=
  let busy := (d.vec.cores.filter fun p => p.2.item.isSome).length
  let d := liveSetF (liveSetF d offWdReady 12 0 d.wd.ready.length) offWdRunning 12 0 busy
  let d := (List.range 4).foldl (fun d s => liveSetF d (offWdStageStatus s) 11 0 (groupsOf d s)) d
  (List.range 38).foldl (fun d p =>
    liveSet d (offWdProdStatus p) (BitVec.ofNat 32 (creditsFree d p +
      (if wdRuns d = true ∧ creditsFree d p = 0 then 2 ^ 31 else 0)))) d

/-- The per-epoch counts of WD start anew after a snapshot (WD.STAGE_STATUS.MISSED_NOW). -/
def wdAfter (d : Dev) : Dev := (List.range 4).foldl (fun d s => liveSetF d (offWdStageStatus s) 27 16 0) d

/-! ### Staging -/

/-- Words of an insert item's input in its layout and format (R201, Table 9-7). -/
def stagedIn (n s : Nat) (b : StageBlock) (first count : Nat) : List Word :=
  (List.range (n * count)).map fun i =>
    let x := sampleAt (mapGet (fun _ => []) b.input (stageChan s (first + i % count))) (i / count)
    if s = 0 ∨ s = 3 then wordOf (x * 256) else wordOf x

/-- The block an insert item processes, in its stage. -/
def itemStageBlock (d : Dev) (it : WorkItem) : Option StageBlock :=
  (stageOf d (itemStage it)).blocks.find? fun b => b.block % 2 ^ 32 = itemBlock it

/-- The first region that staging reads out of reach, if any: offset and bytes (R215, R327). -/
def stageInBad (d : Dev) (it : WorkItem) : Option (Nat × Nat) :=
  let inLen := if itemKind it = 0 then bits (itemW it 3) 29 16 else 0
  [((itemW it 2).toNat * 16, 4 * inLen), (itemStateOff it, 4 * itemStateLen it)].find? fun r =>
    decide (r.2 ≠ 0) && !(mem1Open d r.1 r.2)

/-- The primary registers at item entry (Table 9-6); the shadow set keeps what it holds. -/
def entryRegs (n : Nat) (it : WorkItem) (regs : List (Nat × Nat)) : List (Nat × Nat) :=
  let ins := itemKind it ≠ 0
  let vals : List (Nat × Nat) :=
    [(0, if ins then bits (itemW it 2) 24 16 else 0), (1, if ins then n else 0), (2, if ins then (itemW it 3).toNat else 0),
     (3, (itemW it 7).toNat), (32, 0x4000), (33, 0x4000), (34, 0x6000), (38, 0x7FF8)]
  vals.foldl (fun m v => mapSet (fun _ => 0) m v.1 v.2) (regs.filter fun r => decide (64 ≤ r.1))

/-- This twin follows its peer's state (R363): it is JOINING and the epoch K of the join has come. -/
def following (d : Dev) : Bool := decide (liveF d offTwnStatus 7 6 = 1) && (match d.twn.joinK with
  | some k => decide (k ≤ d.epc.epoch)
  | none => false)

/-- The state block that an item stages. While following, an insert item takes the mirror of the peer's where that is complete, and
else its own, which is counted (R363). -/
def stagedState (d : Dev) (it : WorkItem) : Dev × List Word :=
  let own := wordsGet d.mem.mem1 (itemStateOff it) (itemStateLen it)
  if itemKind it = 0 ∨ itemStateLen it = 0 ∨ following d = false then (d, own)
  else if d.twn.mirrored.contains (itemGroup it) then
    (d, (List.range (itemStateLen it)).map fun i => match mirrorOffset d (itemStateOff it + 4 * i) with
      | some p => BitVec.ofNat 32 (leNat (mem1Run d p 4))
      | none => 0)
  else (bumpSat d offTwnJoinStatus 31 16, own)

/-- The kernel table for an item: an insert item's is of its block (R219). -/
def kernelsFor (d : Dev) (it : WorkItem) : List (Nat × Nat) :=
  match itemKind it, itemStageBlock d it with
  | 0, _ => d.wd.kernels
  | _, some b => (tablesAt d b.block).2
  | _, none => d.wd.kernels

/-- Stage-in ends and the kernel is entered (R200, R215). What the staging engine does not bring reads as zero in the item's areas,
whatever ran on the core before (R203, assumption log entry 206). -/
def stageInDone (core : Nat) (d : Dev) : Dev :=
  let c := settleAll (coreOf d core)
  match c.item with
  | none => d
  | some it =>
    if coreState d core ≠ 2 ∨ running d blkVec = false then d
    else match stageInBad d it with
    | some r => endItem (mem1Refused core false r.1 r.2 d) core 2 true
    | none =>
      let n := blockN d
      let input :=
        if itemKind it = 0 then wordsGet d.mem.mem1 ((itemW it 2).toNat * 16) (bits (itemW it 3) 29 16)
        else match itemStageBlock d it with
          | none => []
          | some b => stagedIn n (itemStage it) b (bits (itemW it 2) 10 0) (bits (itemW it 2) 24 16)
      let st := stagedState d it
      let d := st.1
      let rest := fun (m : List (Nat × Word)) => m.filter fun e => decide (e.1 < 0x4000 ∨ 0x8000 ≤ e.1)
      let x := mapSetRun word0 (mapSetRun word0 (rest c.xmem) 0x7FF8 it.words) 0x4000 input
      let y := mapSetRun word0 (rest c.ymem) 0x6000 st.2
      let pc := match (kernelsFor d it).find? fun k => k.1 = itemKernel it with
        | some k => k.2
        | none => 0
      let c := { c with xmem := x, ymem := y, regs := entryRegs n it c.regs, pc := pc, stack := [], xfer := none,
                        rep := none, wait := none, posted := false, ended := false }
      setCoreState (setCore d core c) core 3

/-- STAGE_IN_DONE (R200). -/
def execStageInDone (core : Nat) (s : State) : Host.Outcome State Fault Refusal :=
  ranIf (decide (core < 36)) s (stageInDone core)

/-- An item completes (R202, R216): its output and its state are copied out. -/
def itemComplete (core : Nat) (d : Dev) : Dev :=
  let c := settleAll (coreOf d core)
  match c.item with
  | none => d
  | some it =>
    if coreState d core ≠ 4 ∨ running d blkVec = false then d
    else
      let outLen := if itemKind it = 0 then bits (itemW it 3) 13 0 else 0
      let outOff := (itemW it 4).toNat * 16
      if itemKind it = 0 ∧ outLen ≠ 0 ∧ mem1Open d outOff (4 * outLen) = false then
        endItem (mem1Refused core true outOff (4 * outLen) d) core 2 true
      else
        let m := wordsSet d.mem.mem1 outOff (mapGetRun word0 c.ymem 0x4000 outLen)
        let st := mapGetRun word0 c.ymem 0x6000 (itemStateLen it)
        let d := setCore (setMem1 d (wordsSet m (itemStateOff it) st)) core { c with posted := false }
        let d := if itemKind it = 0 then d else mirrorState (itemStateOff it) st (deliver d it c.ymem)
        endItem d core 0 true

/-- ITEM_COMPLETE (R216). -/
def execItemComplete (core : Nat) (s : State) : Host.Outcome State Fault Refusal :=
  ranIf (decide (core < 36)) s (itemComplete core)

/-- VEC at an epoch start (R212): its cores wake when it starts and lose their items and power when it stops. -/
def vecEpoch (d : Dev) : Dev :=
  let run := running d blkVec
  if run = d.vec.ran then d
  else
    let d := { d with vec := { d.vec with ran := run } }
    if run then
      (List.range 32).foldl (fun d p => match coreAt d p with
        | some k => if coreState d k = 0 then setCoreState d k 1 else d
        | none => d) d
    else
      (List.range 36).foldl (fun d k =>
        let d := endItem (if inHandler d k then leaveHandler d k else d) k 3 true
        if coreState d k = 5 then d else setCoreState (setCore d k { coreOf d k with waking := false }) k 0) d

end Sys2Proof.Machine
end

