-- ==== Sys2Proof/Machine/Sections.lean ====
section
/-!
DEFINITION. Sys2Proof/Machine/Sections.lean: the sections of an image (R377 to R380, R403, R219) that no block's own file reads:
register writes, management keys, vector programs and work-item tables; and the check and the loading of any section.
-/
namespace Sys2Proof.Machine

/-! ### Register writes (R378) -/

/-- Blocks that a register-write section may address (Table 17-4). -/
def sectionBlocks (type : Nat) : List Nat :=
  if type = 2 then [blkClk, blkPtpi, blkPtpo, blkNeti, blkNeto, blkMgt, blkSap, blkMem0, blkMem1]
  else if type = 0x13 then [blkObj, blkGeo, blkXp]
  else [blkGraph, blkCnd, blkRc, blkVec, blkWd, blkEvt, blkTwn, blkErr, blkPerf]

/-- The records of a register-write payload: offset and value; none where its lengths or header do not fit. -/
def parseWrites (p : List Byte) : Option (List (Nat × Word)) :=
  let r := field p 0 4
  if p.length = 16 + 8 * r ∧ zeros p 4 12 = true then
    some ((chunks r 8 (p.drop 16)).map fun b => (field b 0 4, BitVec.ofNat 32 (field b 4 4)))
  else none

/-- A record that breaks no condition of R378. -/
def writeOk (type : Nat) (w : Nat × Word) : Bool :=
  decide (w.1 % 4 = 0 ∧ w.1 < 0x10000000) && (sectionBlocks type).contains (w.1 / 0x100000) &&
    match regAt w.1 with
    | none => false
    | some r =>
      (r.fields.any fun f => decide (f.acc = .rws ∨ f.acc = .rwb)) &&
      (r.fields.all fun f => decide (f.acc = .rws ∨ f.acc = .rwb ∨ f.acc = .ro) || decide (bits w.2 f.hi f.lo = 0)) &&
      decide (r.fields.foldl (fun v f => setBits v f.hi f.lo 0) w.2 = 0)

/-- A register-write section passes R378. -/
def writesOk (type : Nat) (p : List Byte) : Bool := match parseWrites p with
  | some l => l.all (writeOk type)
  | none => false

/-- The records are written in payload order, as supervisor writes are. -/
def writeRecords (p : List Byte) (d : Dev) : Dev := match parseWrites p with
  | some l => l.foldl (fun d w => (regStore d w.1 w.2).1) d
  | none => d

/-! ### Management keys (R403) -/

/-- The keys of the section: KEY_ID, PERMS and key; none where a rule is broken. -/
def parseKeys (p : List Byte) : Option (List (Nat × Nat × List Byte)) :=
  let k := field p 0 2
  let es := chunks 8 48 (p.drop 16)
  let ks := es.map fun e => (field e 0 1, field e 1 1, (e.drop 16).take 32)
  if decide (1 ≤ k ∧ k ≤ 8 ∧ p.length = 16 + 48 * k) && zeros p 2 14 && es.all (fun e => zeros e 2 14) &&
      ks.all (fun e => decide (1 ≤ e.1 ∧ e.2.1 < 32)) && keysDistinct (ks.map (·.1)) then some ks
  else none

/-! ### Vector programs (R379) -/

/-- Ranges from their bytes. -/
def parseRanges (fuel : Nat) (p : List Byte) : Option (List VecRange) :=
  match fuel with
  | 0 => if p.isEmpty then some [] else none
  | f + 1 =>
    let w := if field p 0 1 = 0 then 8 else 4
    let n := field p 8 4
    if p.length < 12 + w * n ∨ zeros p 1 3 = false ∨ field p 0 1 > 3 then none
    else (parseRanges f (p.drop (12 + w * n))).map
      ((field p 0 1, field p 4 4, (chunks n w ((p.drop 12).take (w * n))).map beNat) :: ·)

/-- Words of a space. -/
def spaceSize (s : Nat) : Nat := if s = 3 then 262144 else 8192

/-- Ranges of one space do not overlap. -/
def rangesApart (l : List VecRange) : Bool := match l with
  | [] => true
  | h :: t => (t.all fun r => decide (r.1 ≠ h.1 ∨ r.2.1 + r.2.2.length ≤ h.2.1 ∨ h.2.1 + h.2.2.length ≤ r.2.1)) && rangesApart t

/-- The ranges of the section; none where a rule is broken. -/
def parseVec (p : List Byte) : Option (List VecRange) :=
  if zeros p 4 12 = false ∨ p.length < 16 then none
  else match parseRanges (field p 0 4) (p.drop 16) with
    | some l => if (l.all fun r => decide (r.2.1 + r.2.2.length ≤ spaceSize r.1)) && rangesApart l then some l else none
    | none => none

/-- The ranges of the shared memories are written into every cluster. -/
def loadShared (l : List VecRange) (d : Dev) : Dev :=
  (l.filter fun r => r.1 = 3).foldl (fun d r =>
    let ws := r.2.2.map fun v => BitVec.ofNat 32 v
    { d with vec := { d.vec with shared := (List.range 9).foldl (fun m k =>
        mapSet (fun _ => []) m k (mapSetRun word0 (mapGet (fun _ => []) m k) r.2.1 ws)) d.vec.shared } }) d

/-- The ranges are written into every core and cluster. -/
def vecInstall (l : List VecRange) (d : Dev) : Dev :=
  loadShared l ((List.range 36).foldl (fun d k => setCore d k (l.foldl loadCore (coreOf d k))) d)

/-- A reload's ranges are written into every core that is between items, and wait for the others (R390); the shared memories are written
at once (assumption log entry 148). -/
def vecReload (l : List VecRange) (d : Dev) : Dev :=
  (List.range 36).foldl (fun d k => coreLoad k d) (loadShared l { d with vec := { d.vec with load := some (l, List.range 36) } })

/-- A reload may not write a range that holds an entry address of the running kernel table or a HANDLER address of an enabled
source (R390). -/
def vecReloadOk (d : Dev) (l : List VecRange) : Bool :=
  let held := (d.wd.kernels.map (·.2)) ++ (List.range 1024).filterMap fun s =>
    let w := actGet d (offEvtSrcCfg s)
    if running d blkEvt && !(evtMasked d s) && decide (bits w 31 30 = 0) then some (bits w 12 0) else none
  l.all fun r => decide (r.1 ≠ 0) || held.all fun a => !(decide (r.2.1 ≤ a ∧ a < r.2.1 + r.2.2.length))

/-! ### Work-item tables (R219, R380) -/

/-- A group entry (Table 10-2). -/
def parseGroup (b : List Byte) : InsGroup :=
  ⟨field b 0 1, field b 2 2, field b 4 2, field b 6 2, field b 8 4, field b 12 2, BitVec.ofNat 32 (field b 16 4)⟩

/-- Channels of a stage's set (R23). -/
def stageChannels (s : Nat) : Nat := match s with
  | 0 => 1536
  | 1 => 512
  | 2 => 64
  | _ => 1536

/-- Groups in ascending stage order, within a stage in ascending first channel, apart. -/
def groupsOrdered (l : List InsGroup) : Bool := match l with
  | a :: b :: t => decide (a.stage < b.stage ∨ (a.stage = b.stage ∧ a.first + a.count ≤ b.first)) && groupsOrdered (b :: t)
  | _ => true

/-- Groups and kernel table of the section; none where a rule is broken. -/
def parseItems (p : List Byte) : Option (List InsGroup × List (Nat × Nat)) :=
  let g := field p 0 2
  let gb := chunks g 24 ((p.drop 16).take (24 * g))
  let gs := gb.map parseGroup
  let q := p.drop (16 + 24 * g)
  let k := field q 0 2
  let ks := (chunks k 4 (q.drop 16)).map fun b => (field b 0 2, field b 2 2)
  if decide (g ≤ 2048 ∧ 1 ≤ k ∧ k ≤ 1024 ∧ p.length = 16 + 24 * g + 16 + 4 * k) && zeros p 2 14 && zeros q 2 14 &&
      gb.all (fun b => zeros b 1 1 && zeros b 14 2 && zeros b 20 4) &&
      gs.all (fun e => decide (e.stage ≤ 3 ∧ 1 ≤ e.count ∧ e.count ≤ 256 ∧ e.first + e.count ≤ stageChannels e.stage ∧
        e.stateLen ≤ 8192) && ks.any fun x => decide (x.1 = e.kernel)) &&
      groupsOrdered gs && ks.all (fun x => decide (x.2 < 8192)) && keysDistinct (ks.map (·.1)) then
    some (gs, ks)
  else none

/-- The tables become active. -/
def itemsInstall (t : List InsGroup × List (Nat × Nat)) (d : Dev) : Dev :=
  { d with wd := { d.wd with groups := t.1, kernels := t.2 } }

/-- The tables become active with a commit: the blocks before the epoch in progress keep those they had (R35, R219). -/
def itemsJoin (t : List InsGroup × List (Nat × Nat)) (d : Dev) : Dev :=
  itemsInstall t { d with wd := { d.wd with prior := (d.epc.epoch, d.wd.groups, d.wd.kernels) :: d.wd.prior.take 7 } }

/-! ### Any section -/

/-- The block that refuses a section of a type (R423): a register-write section is refused by the loader. -/
def refuser (type : Nat) (p : List Byte) (d : Dev) : Nat :=
  if 0x10 ≤ type ∧ type ≤ 0x12 then blkGeo
  else if type = 0x14 then blkCnd
  else if type = 0x15 then blkRc
  else if type = 0x16 then blkVec
  else if type = 0x17 then blkWd
  else if type = 0x18 then netBlk (netRefuser d p)
  else if type = 3 then blkSvc
  else blkNvm

/-- A refused section: its block's LOAD_ERR, where it has one, and an entry (R76, R119, R165, R219, R255, R378, R383). -/
def refuseSection (type : Nat) (p : List Byte) (d : Dev) : Dev :=
  let src := srcOf (refuser type p d) 0
  let d :=
    if 0x10 ≤ type ∧ type ≤ 0x12 then liveSetB d offGeoStatus 0 true
    else if type = 0x14 then liveSetB (liveSetB d offCndStatus 2 true) offCndStatus 1 false
    else if type = 0x15 then liveSetB d offRcStatus 0 true
    else if type = 0x18 then liveSetB d (offNetStatus (netRefuser d p)) 4 true
    else d
  raiseErr d src 0x0104 (BitVec.ofNat 32 type) (Config.refuseCause type p)

/-- A section passes its block's check. `together` are the sections that become active with it; `live` marks a reload. -/
def sectionOk (d : Dev) (live : Bool) (together : List (Nat × List Byte)) (type : Nat) (p : List Byte) : Bool :=
  match type with
  | 1 => decide (p.length ≤ 2 * 2 ^ 20)
  | 3 => (parseKeys p).isSome
  | 0x10 | 0x11 | 0x12 => geoSectionOk d together type p
  | 0x14 => cndSectionOk p
  | 0x15 => (parseFilters p).isSome
  | 0x16 => match parseVec p with
    | some l => !live || vecReloadOk d l
    | none => false
  | 0x17 => match parseItems p with
    | some t => decide (creditTotal d t.1.length ≤ 4096)
    | none => false
  | 0x18 => netSectionOk d p
  | _ => writesOk type p

/-- Where in system SRAM the firmware is loaded, which the spec does not say but for the ring of the error log above it (R377, R427;
assumption log entry 146). -/
def firmwareBase (len : Nat) : Nat := Config.firmwareAt.toNat % (0x3FE000 - len + 1)

/-- A section that passed its check is loaded at boot, or becomes active with a commit. -/
def sectionInstall (type : Nat) (p : List Byte) (d : Dev) : Dev :=
  match type with
  | 1 => { d with mem := { d.mem with sram := bytesSet d.mem.sram (firmwareBase p.length) p } }
  | 3 => { d with mgmt := { d.mgmt with keys := (parseKeys p).getD [] } }
  | 0x10 | 0x11 | 0x12 => geoActivate type p { d with mem := { d.mem with active := setTable d.mem.active type p } }
  | 0x14 => { d with cnd := { d.cnd with bank0 := cndWords p } }
  | 0x15 => rcInstall ((parseFilters p).getD []) d
  | 0x16 => vecInstall ((parseVec p).getD []) d
  | 0x17 => itemsInstall ((parseItems p).getD ([], [])) d
  | 0x18 => netActivate p d
  | _ => writeRecords p d

end Sys2Proof.Machine
end

