-- ==== Sys2Proof/Machine/Boot.lean ====
section
/-!
DEFINITION. Sys2Proof/Machine/Boot.lean: reset, boot from PORST_N to the running image (R381 to R388), the life cycle and its
fuses (R431 to R436).
-/
namespace Sys2Proof.Machine

/-! ### Reset -/

/-- SEQ_STATE of the power controller: 0 waiting, 1 sequencing, 2 power good, 3 off after a rail fault. -/
def seqState (d : Dev) : Nat := liveF d offPmcStatus 2 0

/-- The device is held in reset (R441, R442, R445, R446), as it is while VDD_CD is switched off (assumption log entry 31). -/
def heldReset (d : Dev) : Bool :=
  d.boot.standby || d.boot.porst || decide (seqState d ≠ 2) || liveB d offPmcStraps 2 || liveB d offPmcStatus 8

/-- The words of a bank that a reset leaves: those of PMC, and of LCS below an offset. -/
def keepWords (pmc : Bool) (lcs : Nat) (b : Bank) : Bank :=
  b.filter fun e => (pmc && decide (e.1 / 0x100000 = blkPmc)) || decide (e.1 / 0x100000 = blkLcs ∧ e.1 % 0x100000 < lcs)

/-- The device as a reset leaves it: the fuses, the flash, the levels of its inputs and, with `pmc`, the power controller stay.
`lcs` is how much of the LCS window stays. -/
def resetDev (pmc : Bool) (lcs : Nat) (d : Dev) : Dev :=
  let keep := keepWords pmc lcs
  let n : Dev :=
    { regs := { live := keep d.regs.live, shadow := keep d.regs.shadow, act := [(0, keep (actBank d))], snap := keep d.regs.snap }
      boot := { porst := d.boot.porst, standby := d.boot.standby, density := d.boot.density, flash := d.boot.flash, ops := d.boot.ops }
      pmc := if pmc then d.pmc else {} }
  let n := liveSetF n offClkStatus 1 0 (liveF d offClkStatus 1 0)
  let n := if pmc then liveSetF n offSapStatus 1 0 (liveF d offSapStatus 1 0) else n
  let n := if d.boot.porst then n else liveSetB n offTwnStatus 0 (liveB d offTwnStatus 0)
  liveSetB n offTwnStatus 3 (liveB d offTwnStatus 3)

/-- A reset as PORST_N gives it: everything but the standby domain (R444). -/
def porstReset (d : Dev) : Dev := resetDev true 0x200 d

/-- The words that stand through a boot from step 2: the state of the reference selector and of the root and audio PLLs (assumption log
entry 28), the record of a Fatal error, whose effects hold until PORST_N (R422), and the sequence of the log, which counts from
PORST_N (R424). -/
def keptWords : List Nat :=
  [offClkStatus, offClkPllStatus 0, offClkPllStatus 1, offClkFailoverCount, offErrFatal, offErrNextSeq, offTwnMoonStatus, offTwnMoonCount]

/-- The bits that stand through it: REMAP (R328), ERR.STATUS.FATAL (R422) and TWN.STATUS.WD_RELEASED (R361). -/
def keptBits : List (Nat × Nat) := [(offXbarCtrl, 0), (offErrStatus, 3), (offTwnStatus, 5)]

/-- A moon that a boot finds about to replace a failed cluster has taken its position when the clusters start again (R367). -/
def moonsInPlace (d : Dev) : Dev :=
  (d.moon.jobs.filter fun j => !j.planned).foldl (fun d j =>
    match clusterPos d j.pool j.cluster with
    | some pos => setAvail (if j.pool = 0 then takeXp d pos else takeVec d pos) j.pool false
    | none => d) d

/-- What a boot from step 2 leaves (assumption log entry 28): beside the words and bits above, the life-cycle registers, the strapped
side, the retired clusters and the places of the others (R367), the conflicts of the twins' sides (R359), reports and mirror entries
that wait (R425, R428), and the cycle counters (R417). -/
def rebootReset (d : Dev) : Dev :=
  let n := resetDev true 0x1000 d
  let p := moonsInPlace d
  let n := keptWords.foldl (fun n o => liveSet n o (liveGet p o)) n
  let n := keptBits.foldl (fun n b => liveSetB n b.1 b.2 (liveB d b.1 b.2)) n
  let n := d.vec.retired.foldl (fun n k => (List.range 4).foldl (fun n c => setCoreState n (4 * k + c) 5) n) n
  let n := { n with
    clk := { n.clk with locking := d.clk.locking.filter fun p => decide (p < 2), sync := d.clk.sync.filter fun p => decide (p < 2),
                        locks := d.clk.locks, kept := d.clk.kept, steer := d.clk.steer, feed := d.clk.feed }
    moon := { n.moon with xpPlaces := p.moon.xpPlaces, xpRetired := p.moon.xpRetired }
    vec := { n.vec with places := p.vec.places, retired := p.vec.retired }
    twn := { n.twn with sideLogged := d.twn.sideLogged, conflicts := d.twn.conflicts }
    err := { n.err with reports := d.err.reports, mirror := d.err.mirror, denied := d.err.denied }
    perf := { n.perf with cycles := d.perf.cycles } }
  holdShow (mirrorReport n)

/-! ### Choosing a bank (R384) -/

/-- Banks that may be booted, with their manifests: valid and not found unusable in this boot; none in BLANK and in RETURNED (R431). -/
def bankChoices (d : Dev) : List (Nat × Manifest) :=
  if liveF d offLcsState 1 0 = 0 ∨ liveF d offLcsState 1 0 = 3 then []
  else [0, 1].filterMap fun b => if d.boot.bad.contains b then none else (readManifest d b).map fun m => (b, m)

/-- A generation has used up its trials. -/
def triedOut (r : BootRec) (gen : Nat) : Bool := decide (gen ≠ r.confirmed ∧ gen = r.trial ∧ 3 ≤ r.tries)

/-- The bank is taken: a generation that is not confirmed is on trial, and TRIES counts it; `only` says that no other bank is valid. -/
def takeBank (only : Bool) (c : Nat × Manifest) (d : Dev) : Dev :=
  let r := bootRecord d
  let d := { d with boot := { d.boot with manifest := some c.2 } }
  let d := liveSetB d offNvmStatus 0 (decide (c.1 = 1))
  let d := liveSet (liveSet d offNvmRunGen (BitVec.ofNat 32 c.2.gen)) offNvmRunCrc c.2.crc
  let d := liveSetB d offNvmStatus 3 (only && decide (c.2.gen = r.failed))
  if c.2.gen = r.confirmed then recordReport d
  else writeRecord' d { r with trial := c.2.gen, tries := min 3 ((if r.trial = c.2.gen then r.tries else 0) + 1) }

/-- A generation is marked FAILED. -/
def markFailed (gen : Nat) (d : Dev) : Dev := writeRecord' d { bootRecord d with failed := gen }

/-- Steps 2 to 4 of R384 between two valid banks, the one that step 1 takes first: a FAILED generation gives way to the other bank, and
the generation then chosen is marked FAILED where its trials are used up, which is a rollback to the bank that is left. -/
def chooseOf (first other : Nat × Manifest) (d : Dev) : Dev :=
  let r := bootRecord d
  let c := if r.failed = first.2.gen then (other, first) else (first, other)
  if triedOut r c.1.2.gen then liveSetB (takeBank false c.2 (markFailed c.1.2.gen d)) offNvmStatus 4 true
  else takeBank false c.1 d

/-- The choice between the banks; none where there is none to boot (R388). -/
def chooseBank (d : Dev) : Option Dev :=
  match bankChoices d with
  | [] => none
  | [c] => some (takeBank true c (if triedOut (bootRecord d) c.2.gen then markFailed c.2.gen d else d))
  | a :: b :: _ => some (if a.2.gen < b.2.gen then chooseOf b a d else chooseOf a b d)

/-! ### Steps 2 to 8 -/

/-- Descriptor of a section of the image that boots or runs. -/
def imageSection (d : Dev) (type : Nat) : Option SecDesc := match d.boot.manifest with
  | some m => m.secs.find? fun s => decide (s.type = type)
  | none => none

/-- The running bank. -/
def runningBank (d : Dev) : Nat := liveF d offNvmStatus 0 0

/-- The payload of a section of the running bank, if its CRC is right. -/
def goodPayload (d : Dev) (bank : Nat) (s : SecDesc) : Option (List Byte) :=
  let p := payloadOf d bank s
  if crc32c p = s.crc then some p else none

/-- Blocks whose EN the boot commit does not take (R382). -/
def bootCommitKeeps : List Nat := [blkNeti, blkNeto, blkPtpi, blkPtpo, blkMgt, blkSap]

/-- Blocks whose EN an operator start does not take (R387). -/
def startKeeps : List Nat := [blkTwn, blkSap, blkGraph, blkCnd, blkObj, blkGeo, blkXp, blkRc, blkVec, blkWd, blkEvt, blkPerf]

/-- The EN shadows of blocks are kept aside and written 0. -/
def keepEn (blocks : List Nat) (d : Dev) : Dev :=
  let k := blocks.map fun b => (b * 0x100000, shGet d (b * 0x100000))
  let d := blocks.foldl (fun d b => shSet d (b * 0x100000) (setBit (shGet d (b * 0x100000)) 0 false)) d
  { d with boot := { d.boot with kept := k } }

/-- The values kept aside are written back. -/
def restoreEn (d : Dev) : Dev :=
  let d := d.boot.kept.foldl (fun d e => shSet d e.1 (setBit (shGet d e.1) 0 (bit e.2 0))) d
  { d with boot := { d.boot with kept := [] } }

/-- Without an image (R388). -/
def noImage (d : Dev) : Dev :=
  liveSetB (recordReport { d with boot := { d.boot with phase := .noImage, manifest := none } }) offNvmStatus 5 true

/-- The flash is found, its banks' generations and the place of the error mirror. -/
def flashFound (d : Dev) : Dev := reportGens (liveSetF (mirrorPlace d) offNvmStatus 9 8 d.boot.density)

/-- The boot that follows a life-cycle transition writes LCS_TRANSITION as the first entry of the new ring (R433): before any report that
waits. -/
def openLog (e : Option (Nat × Nat)) (d : Dev) : Dev := match e with
  | none => d
  | some t =>
    let n := errorCollect (raiseErr { d with err := { d.err with reports := [] } } (srcOf blkLcs 0) 0x0801 (BitVec.ofNat 32 t.1)
      (BitVec.ofNat 32 t.2))
    { n with boot := { n.boot with opening := e }, err := { n.err with reports := d.err.reports } }

/-- A bank that proved unusable: everything is cleared again (R383). -/
def rejectBank (bank : Nat) (d : Dev) : Dev :=
  let n := openLog d.boot.opening (rebootReset d)
  flashFound { n with boot := { n.boot with bad := bank :: d.boot.bad } }

/-- Steps 3 and 4 (R382, R384): a bank is chosen, its clock plan checked and written, and the boot commit made. A bank whose
clock plan is refused gives way to the other. -/
def bootBank (fuel : Nat) (d : Dev) : Dev :=
  match fuel with
  | 0 => noImage d
  | f + 1 =>
    match chooseBank d with
    | none => noImage d
    | some d =>
      let plan := (imageSection d 2).bind (goodPayload d (runningBank d))
      match plan with
      | none => bootBank f (rejectBank (runningBank d) d)
      | some p =>
        if writesOk 2 p then
          commitNextWrite (keepEn bootCommitKeeps (writeRecords p { d with boot := { d.boot with phase := .commit } }))
        else bootBank f (refuseSection 2 p (rejectBank (runningBank d) d))

/-- Steps 2 to 4, from cleared SRAM on. -/
def bootSteps (d : Dev) : Dev := bootBank 3 (flashFound d)

/-- Step 1 (R307, R381): without a valid reference nothing locks and the boot does not start; on REFCLK_ALT alone the device runs from
it. What was done to the device while its reset was held has left nothing (R445). -/
def bootStart (d : Dev) : Dev :=
  let d := porstReset d
  if refOk d false || refOk d true then
    let d := startLock 1 (startLock 0 (setSteer (liveSetB d offClkStatus 3 (!(refOk d false))) 0))
    { d with boot := { d.boot with phase := .lock } }
  else d

/-- The end of step 1: with the root and audio PLLs locked the boot goes on with step 2. -/
def bootLocked (d : Dev) : Dev :=
  if d.boot.phase = .lock ∧ pllBit d 0 0 = true ∧ pllBit d 1 0 = true then bootSteps d else d

/-- A new boot from step 2 (R388, R433), after the transition that is named, if any. -/
def reboot (opening : Option (Nat × Nat)) (d : Dev) : Dev := bootSteps (openLog opening (rebootReset d))

/-- The boot starts when nothing holds the device in reset any more. -/
def releaseCheck (was : Bool) (d : Dev) : Dev := if was && !(heldReset d) && decide (d.boot.phase = .reset) then bootStart d else d

/-- PORST_RELEASE (R381, R445, R446): TWIN_SIDE is sampled; the boot starts if nothing else holds the device. -/
def porstRelease (side : Bool) (d : Dev) : Dev :=
  if d.boot.porst then
    let d' := liveSetB (liveSetB { d with boot := { d.boot with porst := false } } offPmcStraps 0 side) offTwnStatus 0 side
    releaseCheck true d'
  else d

/-- The commits of the boot have been applied (R382, R387): EN values kept aside return to their shadows. Called at an epoch
start. -/
def bootEpoch (d : Dev) : Dev :=
  match d.boot.phase with
  | .commit => if d.epc.commit.isNone then restoreEn { d with boot := { d.boot with phase := .train } } else d
  | .starting => if d.epc.commit.isNone then restoreEn { d with boot := { d.boot with phase := .done } } else d
  | _ => d

/-- The sections of the image that a step loads, with their payloads, where all CRCs are right: those bound for SRAM (step 6), or the
room-correction filters (step 7). -/
def bootPayloads (filters : Bool) (d : Dev) : Option (List (Nat × List Byte)) := match d.boot.manifest with
  | none => none
  | some m => (m.secs.filter fun s => decide (s.type ≠ 2 ∧ (s.type = 0x15 ↔ filters = true))).foldr (fun s acc =>
      match acc, goodPayload d (runningBank d) s with
      | some l, some p => some ((s.type, p) :: l)
      | _, _ => none) (some [])

/-- A step reads, checks and loads its sections, by ascending type, and the boot goes on (R383); a bank with an unusable section gives way
to the other. -/
def loadSections (filters : Bool) (next : BootPhase) (d : Dev) : Dev :=
  match bootPayloads filters d with
  | none => bootBank 2 (rejectBank (runningBank d) d)
  | some l =>
    let geo := l.filter fun s => decide (0x10 ≤ s.1 ∧ s.1 ≤ 0x12)
    match l.find? fun s => !(sectionOk d false geo s.1 s.2) with
    | some s => bootBank 2 (refuseSection s.1 s.2 (rejectBank (runningBank d) d))
    | none =>
      let order := sortBy (fun (a b : Nat × List Byte) => decide (a.1 ≤ b.1)) 32 l
      let d := order.foldl (fun d s => sectionInstall s.1 s.2 d) d
      { d with boot := { d.boot with phase := next } }

/-- The end of step 4: with both channels trained the wipe of the DRAM begins, and the sections bound for SRAM are loaded beside it
(R381; assumption log entry 29). -/
def bootTrained (d : Dev) : Dev :=
  if d.boot.phase = .train ∧ memReady d 0 = true ∧ memReady d 1 = true then
    let rate := match d.boot.manifest with
      | some m => m.rate96
      | none => false
    loadSections false .wipe (liveSetB d offSysRate 0 rate)
  else d

/-- DRAM_WIPE_DONE (R381, R383): both channels hold zeros, and step 7 loads the filters. -/
def wipeDone (d : Dev) : Dev :=
  if d.boot.phase = .wipe then
    loadSections true .loaded
      { d with mem := { d.mem with mem0 := [], rcRegion := [], mem1 := [], reserved := [] }, xp := { d.xp with lines := [] } }
  else d

/-- The boot ROM copies its handoff into system SRAM, below the ring of the error log (R328, R427). -/
def handoffCopy (d : Dev) : Dev :=
  { d with mem := { d.mem with sram := Config.handoff.foldl (fun m e => bytesSet m (e.1 % 0x3FE000) [e.2]) d.mem.sram } }

/-- BOOT_COMPLETE (R328, R381, R384, R387, R428): REMAP is set, firmware starts and makes the start commit. -/
def bootComplete (d : Dev) : Dev :=
  match d.boot.phase, d.boot.manifest with
  | .loaded, some m =>
    let d := handoffCopy { d with boot := { d.boot with up := true, phase := .starting } }
    let d := liveSetB d offXbarCtrl 0 true
    let d := liveSetF (mirrorLoad d) offNvmBootMs 15 0 (Config.cycles 38 d.boot.ops).toNat
    let d := if liveB d offNvmStatus 4 then
        raiseErr d (srcOf blkNvm 0) 0x0106 (liveGet d offNvmFailedGen) (BitVec.ofNat 32 m.gen) else d
    let d := liveSetF d offSvcStatus 7 4 d.mgmt.keys.length
    commitNextWrite (if m.start then d else keepEn startKeeps d)
  | _, _ => d

/-- AUTO_CONFIRM (R386). -/
def autoConfirm (d : Dev) : Dev := match d.boot.manifest with
  | some m => if m.auto && d.boot.up && decide (180000 ≤ d.boot.ptpRun) && !(fatal d) then confirmRunning d else d
  | none => d

/-- A write of 1 to NVM.CONFIRM.GO (R386): firmware confirms. -/
def confirmGo (d : Dev) : Dev := if d.boot.up then confirmRunning d else d

/-- PORST_RELEASE (R381). -/
def execPorstRelease (twinSide : Bool) (s : State) : Host.Outcome State Fault Refusal := ran s (porstRelease twinSide)

/-- PLL_LOCK_DONE (R294, R381). -/
def execPllLockDone (pll : Nat) (s : State) : Host.Outcome State Fault Refusal :=
  ranIf (decide (pll < 6)) s fun d => bootLocked (lockDone pll d)

/-- MEM_INIT (R334, R381). -/
def execMemInit (ch : Nat) (ok : Bool) (s : State) : Host.Outcome State Fault Refusal :=
  ranIf (decide (ch < 2)) s fun d => bootTrained (memInit ch ok d)

/-- DRAM_WIPE_DONE (R381). -/
def execDramWipeDone (s : State) : Host.Outcome State Fault Refusal := ran s wipeDone

/-- BOOT_COMPLETE (R381). -/
def execBootComplete (s : State) : Host.Outcome State Fault Refusal := ran s bootComplete

/-- AUTO_CONFIRM (R386). -/
def execAutoConfirm (s : State) : Host.Outcome State Fault Refusal := ran s autoConfirm

/-- CONFIRM_GO (R386). -/
def execConfirmGo (s : State) : Host.Outcome State Fault Refusal := ran s confirmGo

/-! ### Life cycle (R431 to R436) -/

/-- Life-cycle state: 0 BLANK, 1 PROVISIONED, 2 OPERATIONAL, 3 RETURNED. -/
def lcsState (d : Dev) : Nat := liveF d offLcsState 1 0

/-- Sets LCS.RESULT (Table 19-8). -/
def lcsResult (d : Dev) (r : Nat) : Dev := liveSetF d offLcsResult 3 0 r

/-- Bytes of a run of WO words of LCS. -/
def lcsBytes (d : Dev) (off : Nat → Nat) (n : Nat) : List Byte := (List.range n).flatMap fun w => beBytes 4 (liveGet d (off w)).toNat

/-- A return authorisation verifies (R435). -/
def returnOk (d : Dev) : Bool :=
  let a := lcsBytes d offLcsAuth 24
  let key := a.take 32
  let msg : List Byte := [0x51, 0x4D, 0x53, 0x20, 0x72, 0x65, 0x74, 0x75, 0x72, 0x6E] ++ beBytes 8 Config.uid.toNat
  (List.range 4).any (fun s => slotGood d s && decide (sha256 key = keyHash d s)) && edVerify key msg (a.drop 32)

/-- A request of a transition (R432, Table 19-7): the result that stops it, or none. -/
def lcsJudge (d : Dev) (target : Nat) : Option Nat :=
  match lcsState d, target with
  | 0, 1 => if (List.range 4).any (slotGood d) then none else some 3
  | 1, 2 => none
  | 2, 3 => if returnOk d then none else some 4
  | _, _ => some 2

/-- LCS_REQUEST (R432, R433): the outputs go inert, the state is fused and read back, and the device boots from step 2. A
fuse that reads back wrong leaves the state, and the device boots all the same (assumption log entry 30). -/
def lcsRequest (path : LcsPath) (val : Word) (fuseOk : Bool) (d : Dev) : Dev :=
  match path with
  | .other => lcsResult d 5
  | .spi =>
    let old := lcsState d
    let t := bits val 1 0
    match lcsJudge d t with
    | some r => lcsResult d r
    | none =>
      if fuseOk then
        let d := lcsResult (liveSetB (liveSetF d offLcsState 1 0 t) offLcsState 4 (decide (t = 1))) 1
        reboot (some (old, t)) d
      else reboot none (lcsResult d 6)

/-- FUSE_PROGRAM (R434): a slot takes the hash of FUSE_HASH, once. -/
def fuseProgram (path : LcsPath) (slot : Nat) (fuseOk : Bool) (d : Dev) : Dev :=
  match path with
  | .other => lcsResult d 5
  | .spi =>
    if lcsState d ≥ 2 ∨ liveB d offLcsKeys slot = true then lcsResult d 2
    else if fuseOk then
      let d := (List.range 8).foldl (fun d w => liveSet d (offLcsKeyHash slot w) (liveGet d (offLcsFuseHash w))) d
      lcsResult (liveSetB d offLcsKeys slot true) 1
    else lcsResult d 6

/-- FUSE_REVOKE (R434). -/
def fuseRevoke (path : LcsPath) (slot : Nat) (fuseOk : Bool) (d : Dev) : Dev :=
  match path with
  | .other => lcsResult d 5
  | .spi =>
    let inUse := match d.boot.manifest with
      | some m => d.boot.up && decide (m.slot = slot)
      | none => false
    if lcsState d = 0 ∨ lcsState d = 3 then lcsResult d 2
    else if inUse then lcsResult d 7
    else if !((List.range 4).any fun s => decide (s ≠ slot) && slotGood d s) then lcsResult d 3
    else if fuseOk then lcsResult (liveSetB d offLcsKeys (4 + slot) true) 1
    else lcsResult d 6

/-- JTAG_INSTRUCTION (R436): outside PROVISIONED anything but boundary scan acts as BYPASS and is logged, at most once a second; a log that
is held in reset takes nothing (R445). -/
def jtagInstr (code : Nat) (boundary secondPassed : Bool) (d : Dev) : Dev :=
  if d.boot.phase ≠ .reset ∧ lcsState d ≠ 1 ∧ boundary = false ∧ (secondPassed = true ∨ d.err.denied = none) then
    raiseErr { d with err := { d.err with denied := some d.epc.epoch } } (srcOf blkLcs 0) 0x0802 (BitVec.ofNat 32 code) 0
  else d

/-- LCS_REQUEST (R433). -/
def execLcsRequest (path : LcsPath) (val : Word) (fuseOk : Bool) (s : State) : Host.Outcome State Fault Refusal :=
  ran s (lcsRequest path val fuseOk)

/-- FUSE_PROGRAM (R434). -/
def execFuseProgram (path : LcsPath) (slot : Nat) (fuseOk : Bool) (s : State) : Host.Outcome State Fault Refusal :=
  ranIf (decide (slot < 4)) s (fuseProgram path slot fuseOk)

/-- FUSE_REVOKE (R434). -/
def execFuseRevoke (path : LcsPath) (slot : Nat) (fuseOk : Bool) (s : State) : Host.Outcome State Fault Refusal :=
  ranIf (decide (slot < 4)) s (fuseRevoke path slot fuseOk)

/-- JTAG_INSTRUCTION (R436). -/
def execJtagInstruction (code : Nat) (boundary secondPassed : Bool) (s : State) : Host.Outcome State Fault Refusal :=
  ran s (jtagInstr code boundary secondPassed)

end Sys2Proof.Machine
end

