-- ==== Sys2Proof/Machine/Capture.lean ====
section
/-!
DEFINITION. Sys2Proof/Machine/Capture.lean: the capture path of RC and its correlation (R175 to R177).
-/
namespace Sys2Proof.Machine

/-- Sets CAP_STATUS.STATE: 0 IDLE, 1 CAPTURING, 2 DONE, 3 ERROR. -/
def setCapState (d : Dev) (v : Nat) : Dev := liveSetF d offRcCapStatus 2 0 v

/-- A capture in progress is CAPTURING. -/
def capturing (d : Dev) : Bool := d.cap.start.isSome

/-- The capture stops with STATE ERROR and an entry (R177). -/
def captureError (off : Nat) (d : Dev) : Dev :=
  raiseErr (setCapState { d with cap := { d.cap with start := none, block := none, sums := [] } } 3)
    (srcOf blkRc 0) 0x0206 (BitVec.ofNat 32 off) 0

/-- A commit makes CAP_CTRL.EN 1 (R175): the capture begins at this epoch, or does not start where its buffer runs past the part of
MEM1 that it may write (R177). -/
def captureStart (d : Dev) : Dev :=
  let len := actF d offRcCapLen 15 0
  let lags := actF d offRcCapLags 14 0
  let base := actF d offRcCapBase 18 0 * 65536
  let top := base + 4 * (len * blockN d) + 8 * lags
  let d := liveSetB d offRcCapStatus 3 (!(mem1Open d base (top - base)))
  if mem1Open d base (top - base) then
    setCapState { d with cap := { d.cap with
      start := some d.epc.epoch, slot := actF d offRcCapCtrl 10 0, gen := actF d offRcCapCtrl 17 16, len := len, lags := lags,
      base := base, done := 0, block := none, sums := List.replicate lags 0 } } 1
  else captureError (max base (mem1Reserved d)) d

/-- The block that ended with the epoch before is captured (R175): its words go to MEM1. -/
def captureBlock (d : Dev) : Dev :=
  let e := d.epc.epoch - 1
  match d.cap.start with
  | none => d
  | some s =>
    if s ≤ e ∧ d.cap.done < d.cap.len then
      let n := blockN d
      let a := match d.path.cond.find? fun b => b.1 = e with
        | some b => mapGet (fun _ => []) b.2 d.cap.slot
        | none => []
      let xs := (List.range n).map (sampleAt a)
      let m := wordsSet d.mem.mem1 (d.cap.base + 4 * (d.cap.done * n)) (xs.map wordOf)
      setMem1 { d with cap := { d.cap with done := d.cap.done + 1, block := some (e, xs) } } m
    else d

/-- The capture at an epoch start: a block is captured, a commit of CAP_CTRL.EN starts or ends it; without RC there is none. -/
def captureEpoch (d : Dev) : Dev :=
  if running d blkRc = false ∨ (actB d offRcCapCtrl 31 = false ∧ capturing d = true) then
    if capturing d then setCapState { d with cap := { d.cap with start := none, block := none, sums := [] } } 0 else d
  else
    let d := captureBlock d
    if committedNow d && actB d offRcCapCtrl 31 && !(bit (before d offRcCapCtrl) 31) then captureStart d else d

/-- The measurement generators' blocks for presentation epoch c are kept as references (R176). -/
def captureRefs (c : Nat) (d : Dev) : Dev :=
  let n := blockN d
  let keep := d.cap.refs.filter fun r => decide (c ≤ r.1 / 4 + 16384 / n + 8)
  let refs := (List.range 4).foldl (fun m g => match genBlock d (8 + g) c with
    | none => m
    | some x => mapSet (fun _ => []) m (4 * c + g) (trimZeros x)) keep
  { d with cap := { d.cap with refs := refs } }

/-- The reference sample of presentation index i; zero before the generator began. -/
def refSample (d : Dev) (i : Int) : Int :=
  if i < 0 then 0
  else
    let n := blockN d
    sampleAt (mapGet (fun _ => []) d.cap.refs (4 * (i.toNat / n) + d.cap.gen)) (i.toNat % n)

/-- The correlation of the captured block (R176), in the margin window. -/
def captureSum (d : Dev) : Dev := match d.cap.block with
  | none => d
  | some (e, xs) =>
    let n := blockN d
    let sums := d.cap.sums.zipIdx.map fun s =>
      xs.zipIdx.foldl (fun a x => a + x.1 * refSample d (((n * e + x.2 : Nat) : Int) - (s.2 : Int))) s.1
    { d with cap := { d.cap with block := none, sums := sums } }

/-- CAPTURE_DONE (R176): every block is captured and correlated; the results are written, and STATE reads DONE. -/
def captureDone (d : Dev) : Dev :=
  if capturing d && decide (d.cap.done = d.cap.len) && d.cap.block.isNone then
    let at' := d.cap.base + 4 * (d.cap.len * blockN d)
    let bytes := d.cap.sums.flatMap fun s => leBytes 8 (BitVec.ofInt 64 (rshr s 4)).toNat
    setCapState (setMem1 { d with cap := { d.cap with start := none, sums := [] } } (bytesSet d.mem.mem1 at' bytes)) 2
  else d

/-- CAPTURE_DONE (R176). -/
def execCaptureDone (s : State) : Host.Outcome State Fault Refusal := ran s captureDone

end Sys2Proof.Machine
end

