-- ==== Sys2Proof/Machine/Follow.lean ====
section
/-!
DEFINITION. Sys2Proof/Machine/Follow.lean: the follow loop and the changes of the timebase (R319 to R321).
-/
namespace Sys2Proof.Machine

/-- Sets the follow loop. -/
def setFollow (d : Dev) (f : Follow) : Dev := { d with sap := { d.sap with follow := f } }

/-- The followed port. -/
def followPort (d : Dev) : Nat := actF d offClkTuneCfg 20 16

/-- The followed port has no clock, is a master or is not running (R320). -/
def followBad (d : Dev) : Bool :=
  let p := followPort d
  portMaster d p || decide (portState d p < 2) || liveB d (offSapPortStatus p) 29

/-- The loop takes the mean phase of the epoch before (R319): sum and count of the phases, in 1/256 frame. A positive e raises the word by
both parts of the loop, whose natural frequency is a free multiple of the bandwidth (assumption log entry 19). -/
def followLoop (sum : Int) (count : Nat) (d : Dev) : Dev :=
  let f := d.sap.follow
  let e := sum - (actF d offSapFollow 7 0 : Int) * (count : Int)
  let w := 10 * bandwidth (actF d offSapFollow 9 8) * (Config.loopRatio true + 1)
  let pi := loopTerms w e (256 * count * 48000 * portMult d (followPort d)) 1 3000
  let integ := f.integ + pi.2
  let w := limitWord d (timebase d ≠ 0) f.word (rshr (integ + pi.1) 32) 5333333
  let near := decide (e.natAbs ≤ 4 * count)
  let d := setFollow d { f with word := w, integ := integ, run := if near then f.run + 1 else 0 }
  let d := liveSet d offSapFollowFreq (wordOf w)
  if e.natAbs > 16 * count then liveSetB d offSapFollowStatus 0 false else d

/-- The follow loop at an epoch start. The word starts from the servo word when SOURCE = 1 becomes active; a port without a usable
clock is reported once and the word is held. The phases of every port start anew. -/
def followEpoch (d : Dev) : Dev :=
  let on := actB d offClkTuneCfg 3 && !(fatal d)
  let d := if on && committedNow d && !(bit (before d offClkTuneCfg) 3) then
      let w := sext 32 (liveGet d offPtpiServoFreq).toNat
      liveSet (setFollow d { word := w, integ := w * 2 ^ 32 }) offSapFollowFreq (liveGet d offPtpiServoFreq)
    else d
  let q := getPort d (followPort d)
  let d := if !on then d
    else if followBad d then
      let d := if d.sap.follow.bad then d
        else raiseErr d (srcOf blkSap 0) 0x0308 (BitVec.ofNat 32 (followPort d)) 0
      liveSetB (setFollow d { d.sap.follow with bad := true, run := 0 }) offSapFollowStatus 1 true
    else if portState d (followPort d) = 3 ∧ 0 < q.phaseCount then
      followLoop q.phaseSum q.phaseCount (setFollow d { d.sap.follow with bad := false })
    else d
  { d with sap := { d.sap with ports := d.sap.ports.foldl (fun l e =>
      mapSet (fun _ => {}) l e.1 { e.2 with phaseSum := 0, phaseCount := 0 }) d.sap.ports } }

/-- FOLLOW_LOCK (R319). -/
def followLocks (d : Dev) : Dev :=
  if actB d offClkTuneCfg 3 ∧ d.sap.follow.run ≥ 300 then liveSetB d offSapFollowStatus 0 true else d

/-- TIMEBASE_TO_FOLLOW (R320). From FREE the outputs open, and nothing presented in a FREE epoch is sent (R31, R58). -/
def toFollow (d : Dev) : Dev :=
  if actB d offClkTuneCfg 3 = true ∧ timebase d = 1 then setTimebase d 2
  else if actB d offClkTuneCfg 3 = true ∧ timebase d = 0 ∧ liveB d offSapFollowStatus 0 = true then
    setTimebase { d with path := { d.path with loadEpoch := d.epc.epoch } } 2
  else d

/-- TIMEBASE_TO_PTP (R321). -/
def toPtp (d : Dev) : Dev :=
  if timebase d = 2 ∧ actB d offClkTuneCfg 3 = false ∧ (servoState d = 2 ∨ servoState d = 3) then setTimebase d 1 else d

/-- Every output channel and every side-tone path that runs stands at gain zero. -/
def allSilent (d : Dev) : Bool :=
  let still := fun (k : Nat) => decide (k < 2048 ∨ 8192 ≤ k) || (decide (4096 ≤ k) && !(pathRuns d (pathWord d (k - 4096))))
  (d.gains.all fun e => still e.1 || atZero e.2) && d.sap.fading.all fun e => !(pathRuns d e.2.1)

/-- TIMEBASE_RELOAD (R321): TIMEBASE reads FREE and the servo acquires the candidate. With no candidate left there is nothing to load. -/
def timebaseReload (d : Dev) : Dev :=
  if d.servo.reload && allSilent d then
    match candidate d with
    | some x =>
      let d := liveSetF (releaseOut (setTimebase d 0)) offPtpiServoStatus 4 4 x
      let v := d.servo
      setServo { d with servo := { v with
        reload := false, run := 0, updated := none, synced := none, chosen := true, left := false, refused := none,
        kept := !(isQualified d x) } } 1 0
    | none => causeCheck { d with servo := { d.servo with reload := false } }
  else d

/-- FOLLOW_LOCK (R319). -/
def execFollowLock (s : State) : Host.Outcome State Fault Refusal := ran s followLocks

/-- TIMEBASE_TO_FOLLOW (R320). -/
def execTimebaseToFollow (s : State) : Host.Outcome State Fault Refusal := ran s toFollow

/-- TIMEBASE_TO_PTP (R321). -/
def execTimebaseToPtp (s : State) : Host.Outcome State Fault Refusal := ran s toPtp

/-- TIMEBASE_RELOAD (R321). -/
def execTimebaseReload (s : State) : Host.Outcome State Fault Refusal := ran s timebaseReload

end Sys2Proof.Machine
end

