-- ==== Sys2Proof/Machine/Reload.lean ====
section
/-!
DEFINITION. Sys2Proof/Machine/Reload.lean: the live reload of an image (R389 to R392) and the commit cutoff (R39). A section's
payload is staged in MEM1 at the request, and its block takes it from there at its check.
-/
namespace Sys2Proof.Machine

/-- Sets the reload state of EPC.STATUS. -/
def setReloadState (d : Dev) (v : Nat) : Dev := liveSetF d offEpcStatus 5 4 v

/-- Sets TYPE and RESULT of NVM.RELOAD_STATUS. -/
def reloadResult (d : Dev) (type r : Nat) : Dev := liveSetF (liveSetF d offNvmReloadStatus 31 16 type) offNvmReloadStatus 3 0 r

/-- A refusal is logged (R392). -/
def reloadLog (d : Dev) : Dev := raiseErr d (srcOf blkNvm 0) 0x0105 (liveGet d offNvmReloadStatus) 0

/-- A request that is not accepted. It finds no section that differs; the count of a reload under way stays. -/
def reloadTurned (r : Nat) (d : Dev) : Dev :=
  let d := if d.boot.reload.isSome then d else liveSetF d offNvmReloadStatus 13 8 0
  reloadLog (reloadResult d 0 r)

/-- The LIVE sections of a manifest that differ from the running ones. -/
def differing (run new : Manifest) : List SecDesc :=
  new.secs.filter fun s => decide (0x10 ≤ s.type) && !(run.secs.any fun o => decide (o.type = s.type ∧ o.len = s.len ∧ o.crc = s.crc))

/-- Rate, section types and BOOT sections agree (R390). -/
def mayReload (run new : Manifest) : Bool :=
  decide (run.rate96 = new.rate96) && (new.secs.all fun s => run.secs.any fun o => decide (o.type = s.type)) &&
    (run.secs.all fun o => new.secs.any fun s => decide (s.type = o.type)) &&
    ((new.secs.filter fun s => decide (s.type < 0x10)).all fun s =>
      run.secs.any fun o => decide (o.type = s.type ∧ o.len = s.len ∧ o.crc = s.crc))

/-- The standby half of the render configuration window takes the tables of a reload beside the others in force (Table 15-2). -/
def standbyLoad (secs : List ReloadSec) (d : Dev) : Dev :=
  let geo := secs.filter fun s => decide (0x10 ≤ s.type ∧ s.type ≤ 0x12)
  if geo.isEmpty then d
  else { d with mem := { d.mem with standby := geo.foldl (fun l s => setTable l s.type s.data) d.mem.active } }

/-- The payloads of the sections that differ are staged one after the other in the supervisor reserved region of MEM1 (R327, R390,
assumption log entry 146). -/
def stageSections (l : List (Nat × List Byte)) (d : Dev) : Dev × List ReloadSec :=
  let size := l.foldl (fun n s => n + s.2.length) 0
  let base := mem1Reserved d + 2 ^ 28 + Config.stagedAt % (2 ^ 28 - size + 1)
  let r := l.foldl (fun (a : (Dev × List ReloadSec) × Nat) s =>
    ((reservedRun a.1.1 a.2 s.2, ⟨s.1, s.2, a.2, false⟩ :: a.1.2), a.2 + s.2.length)) ((d, []), base)
  (r.1.1, r.1.2.reverse)

/-- What a section holds in MEM1. -/
def stagedData (d : Dev) (s : ReloadSec) : ReloadSec := { s with data := mem1Run d s.place s.data.length }

/-- RELOAD_GO (R390). -/
def reloadGo (d : Dev) : Dev :=
  match d.boot.manifest with
  | none => d
  | some run =>
    let bank := 1 - runningBank d
    if !d.boot.up then d
    else if d.boot.reload.isSome then reloadTurned 9 d
    else match readManifest d bank with
      | none => reloadTurned 4 (reportGens d)
      | some new =>
        let d := reportGens d
        if new.gen ≤ run.gen then reloadTurned 5 d
        else if !(mayReload run new) then reloadTurned 6 d
        else
          let l := differing run new
          let r := stageSections (l.map fun s => (s.type, payloadOf d bank s)) d
          let d := liveSetF (reloadResult r.1 0 1) offNvmReloadStatus 13 8 l.length
          standbyLoad r.2 (setReloadState { d with boot := { d.boot with reload := some ⟨new, r.2⟩ } } 1)

/-- The whole reload is discarded with its standby copies, with a result (R392). -/
def reloadRefuse (type r : Nat) (d : Dev) : Dev :=
  match d.boot.reload with
  | none => d
  | some l =>
    let d := if l.secs.any (fun s => decide (s.type = 0x15)) && d.rc.swap.isNone then rcDiscard d else d
    let d := liveSetB d offCndStatus 1 false
    let d := { d with boot := { d.boot with reload := none }, mem := { d.mem with standby := [] }
                      vec := { d.vec with load := none } }
    reloadLog (reloadResult (setReloadState d 0) type r)

/-- The section of a type that is still LOADING. -/
def loadingSec (d : Dev) (type : Nat) : Option ReloadSec := match d.boot.reload with
  | none => none
  | some l => l.secs.find? fun s => decide (s.type = type ∧ s.ready = false)

/-- The CRC of a section of the reload is right. -/
def reloadCrcOk (d : Dev) (s : ReloadSec) : Bool := match d.boot.reload with
  | none => false
  | some l => l.manifest.secs.any fun o => decide (o.type = s.type ∧ o.crc = crc32c s.data)

/-- A section is marked ready. -/
def markReady (type : Nat) (d : Dev) : Dev := match d.boot.reload with
  | none => d
  | some l =>
    let secs := l.secs.map fun s => if s.type = type then { s with ready := true } else s
    { d with boot := { d.boot with reload := some { l with secs := secs } } }

/-- A section's block takes its payload out of MEM1. -/
def takeStaged (type : Nat) (d : Dev) : Dev := match d.boot.reload with
  | none => d
  | some l =>
    let secs := l.secs.map fun s => if s.type = type then stagedData d s else s
    let d := { d with boot := { d.boot with reload := some { l with secs := secs } } }
    if 0x10 ≤ type ∧ type ≤ 0x12 then standbyLoad secs d else d

/-- GEO sections of the reload, which become active together (R119). -/
def reloadGeo (d : Dev) : List (Nat × List Byte) := match d.boot.reload with
  | none => []
  | some l => (l.secs.filter fun s => decide (0x10 ≤ s.type ∧ s.type ≤ 0x12)).map fun s => (s.type, s.data)

/-- Records of a filter section that RC receives: those that differ from the running section's (R390). -/
def filterChanges (d : Dev) (p : List Byte) : List (Nat × List Int) :=
  ((parseFilters p).getD []).filter fun r => !(d.rc.records.contains r)

/-- A section of the reload passes every check: its block's, and for filters that at most 128 records come and no standby slot is
held (R165). -/
def reloadSecOk (d : Dev) (s : ReloadSec) : Bool :=
  sectionOk d true (reloadGeo d) s.type s.data &&
    (decide (s.type ≠ 0x15) || (d.rc.standby.isEmpty && decide ((filterChanges d s.data).length ≤ 128)))

/-- What the block prepares once its section has passed: the standby bank, the membership reports, the transform of filters, the ranges
of programs. Every other section is ready at once. -/
def prepareSec (s : ReloadSec) (d : Dev) : Dev :=
  match s.type with
  | 0x14 => markReady s.type (cndStandby s.data d)
  | 0x15 =>
    let l := filterChanges d s.data
    if l.isEmpty then markReady s.type d else rcBegin l d
  | 0x16 => vecReload ((parseVec s.data).getD []) d
  | 0x18 => markReady s.type ((List.range 2).foldl (fun d x => netReports d x (netParse x s.data).1) d)
  | _ => markReady s.type d

/-- A section that is still LOADING is judged as it stands in MEM1: prepared, or refused and the whole reload with it (R390, R392). -/
def judgeSec (staged : ReloadSec) (d : Dev) : Dev :=
  let s := stagedData d staged
  let d := takeStaged s.type d
  if !(reloadCrcOk d s) then reloadRefuse s.type 7 d
  else if reloadSecOk d s then prepareSec s d
  else reloadRefuse s.type 8 (refuseSection s.type s.data d)

/-- The filters of the reload have passed their check: their transform runs. -/
def filtersUnderWay (d : Dev) : Bool := decide (d.rc.phase ≠ .idle) && d.rc.swap.isNone

/-- A block has checked its section (R76, R119, R165, R255). A filter section is checked once: its transform follows. A conditioning
section stays LOADING while slots still leave the bank it goes into (R77). -/
def sectionChecked (type : Nat) (d : Dev) : Dev := match loadingSec d type with
  | none => d
  | some s =>
    if (decide (type = 0x15) && filtersUnderWay d) || (decide (type = 0x14) && cndSwapping d) then d else judgeSec s d

/-- A vector-program section is ready once every core has taken its ranges (R390). -/
def vecLoaded (d : Dev) : Dev := match d.vec.load with
  | some (_, []) => markReady 0x16 { d with vec := { d.vec with load := none } }
  | _ => d

/-- Sections that no row of their own checks. -/
def quietTypes : List Nat := [0x13, 0x16, 0x17, 0x19]

/-- RELOAD_READY (R379, R390): the sections without a check of their own pass it, vector programs go into the cores, and with every
section ready the reload is READY. -/
def reloadReady (d : Dev) : Dev :=
  let d := quietTypes.foldl (fun d t => match loadingSec d t with
    | none => d
    | some s => if t = 0x16 ∧ d.vec.load.isSome = true then d else judgeSec s d) d
  let d := vecLoaded d
  match d.boot.reload with
  | none => d
  | some l =>
    if reloadState d = 1 ∧ (l.secs.all fun s => s.ready) = true then
      setReloadState (reloadResult d 0 2) 2
    else d

/-- RELOAD_REFUSED (R392): a flash read fails, or the section's own content makes its check fail. -/
def reloadRefused (type : Nat) (readError : Bool) (d : Dev) : Dev :=
  match loadingSec d type with
  | none => d
  | some s =>
    if readError then reloadRefuse type 11 d
    else if (decide (type = 0x15) && filtersUnderWay d) || (decide (type = 0x16) && d.vec.load.isSome) ||
        (reloadCrcOk d (stagedData d s) && reloadSecOk d (stagedData d s)) then d
    else judgeSec s d

/-- RELOAD_ABANDON (R392): after the cutoff that admitted the reload it has no effect. -/
def reloadAbandon (d : Dev) : Dev := if d.epc.joined then d else reloadRefuse 0 10 d

/-- A section becomes active at the epoch in progress (R391). -/
def activateSec (d : Dev) (s : ReloadSec) : Dev :=
  match s.type with
  | 0x10 | 0x11 | 0x12 => geoActivate s.type (tableOf d.mem.active s.type) d
  | 0x14 => cndSwap d
  | 0x15 =>
    let d := { d with rc := { d.rc with records := (parseFilters s.data).getD [] } }
    if d.rc.phase = .ready then rcActivate d else d
  | 0x17 => itemsJoin ((parseItems s.data).getD ([], [])) d
  | 0x18 => netActivate s.data d
  | _ => d

/-- The commit applies the reload (R391): its sections become active, the other bank runs, its generation is recorded. -/
def reloadApply (d : Dev) : Dev :=
  match d.boot.reload with
  | none => d
  | some l =>
    let d := l.secs.foldl activateSec d
    let m := l.manifest
    let d := liveSetB d offNvmStatus 0 (decide (runningBank d = 0))
    let d := liveSet (liveSet d offNvmRunGen (BitVec.ofNat 32 m.gen)) offNvmRunCrc m.crc
    let d := { d with boot := { d.boot with reload := none, manifest := some m, dirty := false, ptpRun := 0 } }
    let d := if (bootRecord d).confirmed = m.gen then recordReport d
      else writeRecord' d { bootRecord d with trial := m.gen, tries := 0 }
    setReloadState (reloadResult d 0 3) 0

/-- COMMIT_CUTOFF (R36, R39, R103, R378): the metadata queue of the next epoch is fixed; a commit for it is refused while a
reload is LOADING, and joined by one that is READY, whose register writes land now. -/
def commitCutoff (d : Dev) : Dev :=
  if d.epc.cutoff then d
  else
    let d := { d with epc := { d.epc with cutoff := true } }
    if d.epc.commit = some (d.epc.epoch + 1) ∧ fatal d = false then
      match d.boot.reload with
      | none => d
      | some l =>
        if reloadState d = 1 then
          raiseErr (setResult (setPending d none) .reload) (srcOf blkEpc 0) 0x0103 (BitVec.ofNat 32 (d.epc.epoch + 1)) 0
        else
          let d := [0x13, 0x19].foldl (fun d t =>
            (l.secs.filter fun s => decide (s.type = t)).foldl (fun d s => writeRecords s.data d) d) d
          { d with epc := { d.epc with joined := true } }
    else d

/-- RC_PARALLEL_START (R167), in the correction epoch of a block. -/
def parallelStart (d : Dev) : Dev := match feedBlock d with
  | some b => if feedAgain d then d else rcParallel b d
  | none => d

/-- RC_RELOAD_READY (R168), in the correction epoch of a block. -/
def rcReloadReady (d : Dev) : Dev := match feedBlock d with
  | some b => if rcReadyAt d b && !(feedAgain d) then markReady 0x15 { d with rc := { d.rc with phase := .ready } } else d
  | none => d

/-- COMMIT_CUTOFF (R39). -/
def execCommitCutoff (s : State) : Host.Outcome State Fault Refusal := ran s commitCutoff

/-- CND_SECTION_CHECKED (R76). -/
def execCndSectionChecked (s : State) : Host.Outcome State Fault Refusal := ran s (sectionChecked 0x14)

/-- GEO_SECTION_CHECKED (R119): type 0x10 layout, 0x11 triangulation, 0x12 segments. -/
def execGeoSectionChecked (type : Nat) (s : State) : Host.Outcome State Fault Refusal :=
  ranIf (decide (0x10 ≤ type ∧ type ≤ 0x12)) s (sectionChecked type)

/-- RC_SECTION_CHECKED (R165). -/
def execRcSectionChecked (s : State) : Host.Outcome State Fault Refusal := ran s (sectionChecked 0x15)

/-- NET_SECTION_CHECKED (R255). -/
def execNetSectionChecked (s : State) : Host.Outcome State Fault Refusal := ran s (sectionChecked 0x18)

/-- RC_PARALLEL_START (R167). -/
def execRcParallelStart (s : State) : Host.Outcome State Fault Refusal := ran s parallelStart

/-- RC_RELOAD_READY (R168). -/
def execRcReloadReady (s : State) : Host.Outcome State Fault Refusal := ran s rcReloadReady

/-- RELOAD_GO (R390). -/
def execReloadGo (s : State) : Host.Outcome State Fault Refusal := ran s reloadGo

/-- RELOAD_READY (R390). -/
def execReloadReady (s : State) : Host.Outcome State Fault Refusal := ran s reloadReady

/-- RELOAD_ABANDON (R392). -/
def execReloadAbandon (s : State) : Host.Outcome State Fault Refusal := ran s reloadAbandon

/-- RELOAD_REFUSED (R392). -/
def execReloadRefused (type : Nat) (readError : Bool) (s : State) : Host.Outcome State Fault Refusal :=
  ranIf (decide (0x10 ≤ type ∧ type ≤ 0x19)) s (reloadRefused type readError)

end Sys2Proof.Machine
end

