-- ==== Sys2Proof/Machine/Writes.lean ====
section
/-!
DEFINITION. Sys2Proof/Machine/Writes.lean: a register write with the actions of the fields that act (R33), and the commands that are
writes of one such field.
-/
namespace Sys2Proof.Machine

/-- A freeze, release or clear of the counters is pending (R419). -/
def perfPending (d : Dev) : Dev :=
  liveSetB d offPerfStatus 1 (d.perf.freeze || d.perf.release || d.perf.clear)

/-- A write of PERF.FREEZE (R419). -/
def perfWrite (val : Word) (d : Dev) : Dev :=
  perfPending { d with perf := { d.perf with freeze := d.perf.freeze || bit val 0, release := d.perf.release || bit val 1,
                                             clear := d.perf.clear || bit val 2 } }

/-- A write of WD's queue registers (R218, R231). -/
def wdWrite (o : Nat) (val : Word) (d : Dev) : Dev :=
  if o = 0x20 then
    let hit := fun (it : WorkItem) => decide (itemKind it = 0 ∧ itemW it 1 = val)
    abortItems (removeReady d hit) 1 true hit
  else if o = 0x24 then removeReady d fun it => decide (itemKind it = 0 ∧ it.prod = bits val 5 0 ∧ it.prod < 34)
  else if 0x40 ≤ o ∧ o < 0x60 then
    { d with wd := { d.wd with submit := mapSet word0 d.wd.submit ((o - 0x40) / 4) val } }
  else if o = 0x60 ∧ bit val 0 = true then
    if creditsFree d 33 = 0 then bump d offWdSubmitRefused
    else submitDesc d ((List.range 8).map fun w => mapGet word0 d.wd.submit w) 33
  else d

/-- A write of EVT's set and clear registers (R235, R240). -/
def evtWrite (o : Nat) (val : Word) (d : Dev) : Dev :=
  let s := bits val 9 0
  match o with
  | 0x10 => raiseEvt d s
  | 0x14 => liveSetB d (offEvtPend (s / 32)) (s % 32) false
  | 0x18 => liveSetB d (offEvtMask (s / 32)) (s % 32) true
  | 0x1C => liveSetB d (offEvtMask (s / 32)) (s % 32) false
  | _ => d

/-- A write of the life-cycle registers (R432): one that does not come through the service SPI is ignored, with RESULT PATH. -/
def lcsWrite (path : LcsPath) (o : Nat) (val : Word) (d : Dev) : Dev :=
  let d := { d with boot := { d.boot with ops := d.boot.ops + 1 } }
  let good := Config.fuseGood d.boot.ops
  if (0x200 ≤ o ∧ o < 0x220) ∨ (0x300 ≤ o ∧ o < 0x360) then
    match path with
    | .spi => liveSet d (blkLcs * 0x100000 + o) val
    | .other => lcsResult d 5
  else if o = 0x220 then
    let d := if bit val 8 then fuseProgram path (bits val 1 0) good d else d
    if bit val 9 then fuseRevoke path (bits val 1 0) good d else d
  else if o = 0x400 then lcsRequest path val good d
  else d

/-- The action of the fields of a register that act when they are written (R33); `refused` says that a field of the word was refused. -/
def writeAction (path : LcsPath) (off : Nat) (val : Word) (refused : Bool) (d : Dev) : Dev :=
  let b := off / 0x100000
  let o := off % 0x100000
  if off = offEpcCommitAtHi then commitAtHiWrite val d
  else if off = offEpcCommitNext then (if bit val 0 then commitNextWrite d else d)
  else if off = offEpcCommitCancel then (if bit val 0 then commitCancelWrite d else d)
  else if off = offEpcCtrl then snapHoldWrite (bit val 0) d
  else if off = offPtpiServoCtrl then (if bit val 0 then servoAccept d else d)
  else if b = blkClk ∧ 0x100 ≤ o ∧ o < 0x1C0 ∧ o % 0x20 = 0 then
    (if bit val 2 then relockWrite ((o - 0x100) / 0x20) val refused d else d)
  else if off = offTwnRearm then (if bit val 0 then rearm d else d)
  else if off = offTwnMoonReqHi then moonReqWrite val d
  else if b = blkWd then wdWrite o val d
  else if b = blkEvt then evtWrite o val d
  else if off = offNvmConfirm then (if bit val 0 then confirmGo d else d)
  else if off = offNvmReload then
    let d := if bit val 1 then reloadAbandon d else d
    if bit val 0 then reloadGo d else d
  else if off = offPerfFreeze then perfWrite val d
  else if b = blkLcs then lcsWrite path o val d
  else if (off = offMemCtrl 0 ∨ off = offMemCtrl 1) ∧ bit val 0 = true then
    bootTrained (memInit (b - blkMem0) (Config.trained (b - blkMem0) (liveGet d (offMemCnt (b - blkMem0) 5)).toNat) d)
  else d

/-- A register takes no write: the device holds its reset (R445), or the register is one of SVC and no image runs (R420). -/
def writeHeld (d : Dev) (off : Nat) : Bool :=
  decide (d.boot.phase = .reset) || (decide (off / 0x100000 = blkSvc) && !d.boot.up)

/-- A register write: its fields, then its action; also whether a change of a running block's RWB field was refused. -/
def superWrite (path : LcsPath) (off : Nat) (val : Word) (d : Dev) : Dev × Bool :=
  if writeHeld d off then (d, false)
  else
    let r := regStore d off val
    (if (regAt off).isSome then writeAction path off val r.2 r.1 else r.1, r.2)

/-- REGISTER_WRITE (R33): by the supervisor, not through the service SPI. -/
def execRegisterWrite (off : Nat) (val : Word) (s : State) : Host.Outcome State Fault Refusal :=
  ran s fun d => (superWrite .other off val d).1

/-- PERF_FREEZE (R419). -/
def execPerfFreeze (s : State) : Host.Outcome State Fault Refusal := ran s (perfWrite 1)

/-- PERF_RELEASE (R419). -/
def execPerfRelease (s : State) : Host.Outcome State Fault Refusal := ran s (perfWrite 2)

/-- PERF_CLEAR (R419). -/
def execPerfClear (s : State) : Host.Outcome State Fault Refusal := ran s (perfWrite 4)

/-- REMAP is set until PORST_N (R328). -/
def remapSet (d : Dev) : Dev := if d.boot.phase = .reset then d else liveSetB d offXbarCtrl 0 true

/-- REMAP (R328). -/
def execRemap (s : State) : Host.Outcome State Fault Refusal := ran s remapSet

end Sys2Proof.Machine
end

