-- ==== Sys2Proof/Machine/Mgmt.lean ====
section
/-!
DEFINITION. Sys2Proof/Machine/Mgmt.lean: chapter 18, the management datagram protocol and the service SPI (R401 to R415).
-/
namespace Sys2Proof.Machine

/-- Sets the management state. -/
def setMgmt (d : Dev) (m : Mgmt) : Dev := { d with mgmt := m }

/-- Counts a datagram: 0 REQUESTS, 1 MALFORMED, 2 NO_SESSION, 3 BAD_TAG, 4 REPLAY, 5 RESENT, 6 HELLO_DROPPED, 7 SESSIONS. -/
def mdpCount (k : Nat) (d : Dev) : Dev := bump d (offSvcMdpCnt k)

/-! ### Sending -/

/-- The management port sends a frame (R267). -/
def mgtSent (d : Dev) : Dev := perfHit (bump d (offMgtCnt 4)) 78 0x11 1

/-- A datagram goes out by a port: 0, 1 the planes, 2 the management port, which sends nothing while it is held in reset (R267). -/
def sendDatagram (port dst : Nat) (b : List Byte) (d : Dev) : Dev :=
  if port < 2 then enqueueTx d port { prio := 0, bytes := 46 + b.length, body := .mgmt dst b, head := {} }
  else if running d blkMgt then mgtSent (setMgmt d { d.mgmt with sent := some (dst, b) })
  else d

/-- Header of a datagram (Table 18-3). -/
def mdpHeader (kind session seq len : Nat) : List Byte :=
  beBytes 2 0x514D ++ [1, BitVec.ofNat 8 kind] ++ beBytes 4 session ++ beBytes 4 seq ++ beBytes 2 len ++ [0, 0]

/-- A datagram with its tag under a key; no key gives the zero tag (R404). -/
def mdpDatagram (key : Option (List Byte)) (kind session seq : Nat) (body : List Byte) : List Byte :=
  let m := mdpHeader kind session seq body.length ++ body
  m ++ match key with
    | some k => hmac256 k m
    | none => List.replicate 32 0

/-! ### Sessions (R404 to R406) -/

/-- A port takes management datagrams (R244, R267, R420, R431). -/
def portOpen (d : Dev) (port : Nat) : Bool :=
  d.boot.up && decide (lcsState d = 1 ∨ lcsState d = 2) &&
    (if port < 2 then running d (netBlk port) && actB d (offNetCtrl port) 4 else decide (port = 2) && running d blkMgt)

/-- The first session identifier from v on that is not zero and not in use. -/
def freshId (used : List Nat) (fuel v : Nat) : Nat :=
  match fuel with
  | 0 => v
  | f + 1 => if v = 0 ∨ used.contains v = true then freshId used f ((v + 1) % 2 ^ 32) else v

/-- Session key (R404). -/
def sessionKey (k : List Byte) (keyId session : Nat) (nc nd : List Byte) : List Byte :=
  hmac256 k (([0x51, 0x4D, 0x53, 0x20, 0x73, 0x65, 0x73, 0x73, 0x69, 0x6F, 0x6E] : List Byte) ++ [BitVec.ofNat 8 keyId] ++
    beBytes 4 session ++ nc ++ nd ++ beBytes 8 Config.uid.toNat)

/-- The header is well formed and the lengths agree (R402). -/
def mdpFormed (b : List Byte) : Bool :=
  decide (field b 0 2 = 0x514D ∧ field b 2 1 = 1 ∧ field b 12 2 ≤ 1404 ∧ b.length = 48 + field b 12 2) && zeros b 14 2

/-- A HELLO (R404, R405). -/
def helloIn (port src : Nat) (b : List Byte) (d : Dev) : Dev :=
  let body := b.drop 16
  if field b 12 2 ≠ 20 ∨ zeros body 1 3 = false then mdpCount 1 d
  else if d.mgmt.hellos ≥ 16 then mdpCount 6 d
  else
    let n := d.mgmt.drawn
    let nd := beBytes 16 (Config.random n).toNat
    let d := setMgmt d { d.mgmt with hellos := d.mgmt.hellos + 1, drawn := n + 2 }
    let refuse := fun (st : Nat) => sendDatagram port src (mdpDatagram none 2 0 0 (beBytes 2 st ++ [0, 0] ++ nd)) d
    if d.mgmt.sessions.length ≥ 8 then refuse 2
    else match d.mgmt.keys.find? fun k => decide (k.1 = field body 0 1) with
      | none => refuse 1
      | some k =>
        let id := freshId (d.mgmt.sessions.map (·.id)) 16 ((Config.random (n + 1)).toNat % 2 ^ 32)
        let ks := sessionKey k.2.2 k.1 id ((body.drop 4).take 16) nd
        let d := setMgmt d { d.mgmt with sessions := d.mgmt.sessions ++ [⟨id, ks, k.2.1, none, [], 0, 0⟩] }
        sendDatagram port src (mdpDatagram (some ks) 2 id 0 ([0, 0, 0, 0] ++ nd)) (mdpCount 7 d)

/-- Replaces a session. -/
def setSession (d : Dev) (s : Session) : Dev :=
  setMgmt d { d.mgmt with sessions := d.mgmt.sessions.map fun x => if x.id = s.id then s else x }

/-- Closes a session. -/
def closeSession (d : Dev) (id : Nat) : Dev :=
  setMgmt d { d.mgmt with sessions := d.mgmt.sessions.filter fun x => decide (x.id ≠ id) }

/-! ### Commands (R407, R408) -/

/-- The commands of a body. -/
def parseCmds (fuel : Nat) (b : List Byte) : List MgmtCmd :=
  match fuel with
  | 0 => []
  | f + 1 =>
    if b.isEmpty then []
    else
      let len := field b 2 2
      if b.length < 4 + len ∨ b.length < 4 then [⟨field b 0 2, none⟩]
      else ⟨field b 0 2, some ((b.drop 4).take len)⟩ :: parseCmds f (b.drop (4 + len))

/-- Bytes of response data of a command that succeeds (Table 18-4). -/
def dataBytes (c : MgmtCmd) : Nat :=
  match c.op with
  | 1 => 8 + 4 * field (c.args.getD []) 4 2
  | 3 | 4 | 5 => 12
  | 0x12 | 0x42 => 8
  | 0x20 | 0x21 => 4
  | _ => 0

/-- The permission bit of a command (Table 18-4, Table 18-5): 8 none, 9 the service SPI only; none for a reserved OP. -/
def opPermission (op : Nat) : Option Nat :=
  match op with
  | 1 => some 0
  | 2 => some 1
  | 3 | 4 | 5 => some 2
  | 0x10 | 0x11 | 0x12 => some 3
  | 0x20 | 0x21 | 0x22 => some 4
  | 0x30 => some 8
  | 0x40 | 0x41 | 0x42 => some 9
  | _ => none

/-- The LEN and the counts of a command are right (Table 18-4). -/
def argsFit (op : Nat) (a : List Byte) : Bool :=
  let n := field a 4 2
  match op with
  | 1 => decide (a.length = 8 ∧ 1 ≤ n ∧ n ≤ 256)
  | 2 => decide (8 ≤ a.length ∧ 1 ≤ n ∧ n ≤ 256 ∧ a.length = 8 + 4 * n)
  | 3 => decide (a.length = 8) && zeros a 0 2
  | 0x10 => decide (a.length = 8 ∧ 1 ≤ n ∧ n ≤ 256)
  | 0x40 => decide (a.length = 8 ∧ 1 ≤ n)
  | 0x11 | 0x41 => decide (8 ≤ a.length ∧ 1 ≤ n ∧ n ≤ 1024 ∧ a.length = 8 + n)
  | 0x12 | 0x42 => decide (a.length = 8)
  | _ => a.isEmpty

/-- The addresses of a command are right (Table 18-6). -/
def argsInside (d : Dev) (op : Nat) (a : List Byte) : Bool :=
  let off := field a 0 4
  let n := field a 4 2
  match op with
  | 1 | 2 => decide (off % 4 = 0 ∧ off + 4 * n ≤ 0x10000000)
  | 0x10 => decide (off % 4096 = 0 ∧ off + 4096 * n ≤ bankLen d)
  | 0x40 => decide (off % 4096 = 0 ∧ off + 4096 * n ≤ flashSize d)
  | 0x11 => decide (off + n ≤ bankLen d)
  | 0x41 => decide (off + n ≤ flashSize d)
  | 0x12 => decide (off + field a 4 4 ≤ bankLen d)
  | 0x42 => decide (off + field a 4 4 ≤ flashSize d)
  | _ => true

/-- A WRITE touches the life-cycle registers (R409). -/
def touchesLcs (a : List Byte) : Bool :=
  let off := field a 0 4
  decide (off < (blkLcs + 1) * 0x100000 ∧ blkLcs * 0x100000 < off + 4 * field a 4 2)

/-- The status with which a command ends before it begins (Table 18-6); 0 for one that is executed. -/
def cmdStatus (d : Dev) (r : MgmtReq) (c : MgmtCmd) : Nat :=
  if r.failed then 9
  else match opPermission c.op with
    | none => 8
    | some p =>
      if (p < 8 ∧ r.perms.testBit p = false) ∨ (p = 9 ∧ ¬(r.port = 3 ∧ liveB d offNvmStatus 5 = true)) then 1
      else match c.args with
        | none => 3
        | some a =>
          if !(argsFit c.op a) then 3
          else if !(argsInside d c.op a) then 2
          else if decide (c.op = 2) && touchesLcs a then 1
          else 0

/-- The bytes of an entry of a response (R408). -/
def entryBytes (e : Nat × Nat × List Byte) : List Byte :=
  beBytes 2 e.1 ++ beBytes 2 e.2.1 ++ beBytes 2 e.2.2.length ++ [0, 0] ++ e.2.2

/-- A request whose last command has ended is answered (R406, R408); a body beyond 1,404 bytes is not built. A session keeps the RESPONSE to
its last accepted REQUEST alone. -/
def answer (r : MgmtReq) (d : Dev) : Dev :=
  let body := r.out.flatMap entryBytes
  if r.port = 3 then (if body.length > 1404 then d else setMgmt d { d.mgmt with mbox := some body })
  else
    let d := mdpCount 0 d
    match d.mgmt.sessions.find? fun s => decide (s.id = r.session) with
    | none => d
    | some s =>
      if body.length > 1404 then d
      else
        let m := mdpDatagram (some s.key) 4 r.session r.seq body
        let d := sendDatagram r.port r.src m (setSession d { s with resp := if s.seq = some r.seq then m else s.resp })
        if r.closes then closeSession d r.session else d

/-- A command of a request ends with a status and data. -/
def endEntry' (r : MgmtReq) (c : MgmtCmd) (rest : List MgmtCmd) (st : Nat) (data : List Byte) : MgmtReq :=
  { r with todo := rest, out := r.out ++ [(c.op, st, data)], failed := r.failed || !(decide (st = 0 ∨ st = 5)),
           closes := r.closes || decide (c.op = 0x30 ∧ st = 0), wait := .none }

/-- The front of the queue goes on as far as it can: commands that are not executed end, and finished requests are answered. -/
def settleQueue (fuel : Nat) (d : Dev) : Dev :=
  match fuel with
  | 0 => d
  | f + 1 =>
    match d.mgmt.queue with
    | [] => d
    | r :: t =>
      match r.todo with
      | [] => settleQueue f (answer r (setMgmt d { d.mgmt with queue := t }))
      | c :: cs =>
        let st := cmdStatus d r c
        if st = 0 ∨ r.wait ≠ .none then d
        else settleQueue f (setMgmt d { d.mgmt with queue := endEntry' r c cs st [] :: t })

/-- Steps that the queue can take. -/
def queueFuel (d : Dev) : Nat := d.mgmt.queue.foldl (fun a r => a + r.todo.length + 1) 1

/-- Goes on with the queue. -/
def goOn (d : Dev) : Dev := settleQueue (queueFuel d) d

/-- Bytes of the response to a request: commands that can be seen to fail have no data, and those after one are skipped (R407, R408). -/
def responseBytes (d : Dev) (r : MgmtReq) : Nat :=
  (r.todo.foldl (fun (a : Nat × MgmtReq) c =>
    let st := cmdStatus d a.2 c
    (a.1 + 8 + (if st = 0 then dataBytes c else 0), { a.2 with failed := a.2.failed || decide (st ≠ 0) })) (0, r)).1

/-- A request joins the queue (R407). One whose response would not fit has every command end with BAD_LENGTH (R408). -/
def enqueueReq (port src session seq perms : Nat) (body : List Byte) (d : Dev) : Dev :=
  let cs := parseCmds 352 body
  let r : MgmtReq := ⟨port, src, session, seq, perms, cs, [], false, false, .none⟩
  let r := if responseBytes d r > 1404 then { r with todo := [], out := cs.map fun c => (c.op, 3, []) } else r
  goOn (setMgmt d { d.mgmt with queue := d.mgmt.queue ++ [r] })

/-- A REQUEST (R402, R406). -/
def requestIn (port src : Nat) (b : List Byte) (d : Dev) : Dev :=
  match d.mgmt.sessions.find? fun s => decide (s.id = field b 4 4) with
  | none => mdpCount 2 d
  | some s =>
    let len := field b 12 2
    if hmac256 s.key (b.take (16 + len)) ≠ b.drop (16 + len) then
      let d := mdpCount 3 d
      if s.badTags ≥ 15 then closeSession d s.id else setSession d { s with badTags := s.badTags + 1 }
    else
      let seq := field b 8 4
      let ahead := match s.seq with
        | none => 1
        | some l => (seq + 2 ^ 32 - l) % 2 ^ 32
      let s := { s with badTags := 0 }
      if ahead = 0 then
        let d := setSession d s
        if s.resp.isEmpty then d else sendDatagram port src s.resp (mdpCount 5 d)
      else if ahead < 2 ^ 31 then
        enqueueReq port src s.id seq s.perms ((b.drop 16).take len) (setSession d { s with seq := some seq, resp := [], idle := 0 })
      else mdpCount 4 (setSession d s)

/-- A frame of a plane's supervisor queue brings this management datagram. -/
def bringsDatagram (b : List Byte) (f : Frame) : Bool := match f.body with
  | .udp _ _ _ (.bytes p) => decide (p = b)
  | _ => false

/-- Firmware takes a datagram that a media plane received out of the supervisor queue (R244). -/
def takeDatagram (port : Nat) (b : List Byte) (d : Dev) : Dev :=
  if port < 2 ∧ portOpen d port = true then
    setPlane d port { plane d port with sup := dropWhere (bringsDatagram b) (plane d port).sup }
  else d

/-- A datagram that a port takes (R402): `kind` is the one its row is for. -/
def datagramIn (kind port src : Nat) (b : List Byte) (d : Dev) : Dev :=
  if !(portOpen d port) then d
  else if !(mdpFormed b) || !([1, 3].contains (field b 3 1)) then mdpCount 1 d
  else if field b 3 1 ≠ kind then d
  else if kind = 1 then helloIn port src b d
  else requestIn port src b d

/-! ### Executing -/

/-- The command in front ends. -/
def endFront (st : Nat) (data : List Byte) (d : Dev) : Dev :=
  match d.mgmt.queue with
  | r :: t =>
    match r.todo with
    | c :: cs => goOn (setMgmt d { d.mgmt with queue := endEntry' r c cs st data :: t })
    | [] => d
  | [] => d

/-- The command in front begins to wait. -/
def frontWaits (w : MgmtWait) (d : Dev) : Dev :=
  match d.mgmt.queue with
  | r :: t => setMgmt d { d.mgmt with queue := { r with wait := w } :: t }
  | [] => d

/-- The command in front, if its row's turn has come: it has this OP, its operands satisfy a test and it has not begun. -/
def frontIs (d : Dev) (op : Nat) (p : List Byte → Bool) : Bool :=
  match d.mgmt.queue with
  | r :: _ => match r.todo with
    | c :: _ => decide (c.op = op ∧ r.wait = .none ∧ cmdStatus d r c = 0) && p (c.args.getD [])
    | [] => false
  | [] => false

/-- Runs a command when its turn has come. -/
def runFront (op : Nat) (p : List Byte → Bool) (f : Dev → Dev) (d : Dev) : Dev := if frontIs d op p then f d else d

/-- SNAP_EPOCH (R41). -/
def snapEpoch (d : Dev) : Nat :=
  (bits (snapGet d offEpcSnapEpochHi) 15 0) * 2 ^ 32 + (snapGet d offEpcSnapEpoch).toNat

/-- READ (R409). -/
def readWords (off n : Nat) (d : Dev) : Dev :=
  endFront 0 (beBytes 8 (snapEpoch d) ++ (List.range n).flatMap fun i => beBytes 4 (regRead d (off + 4 * i)).toNat) d

/-- Words written in ascending offset: the device, and whether an RWB change was refused. -/
def writeWords (path : LcsPath) (off : Nat) (ws : List Word) (d : Dev) : Dev × Bool :=
  let r := ws.foldl (fun (a : Dev × Bool × Nat) w =>
    let x := superWrite path (off + 4 * a.2.2) w a.1
    (x.1, a.2.1 || x.2, a.2.2 + 1)) (d, false, 0)
  (r.1, r.2.1)

/-- WRITE (R409). -/
def writeCmdRun (off : Nat) (ws : List Word) (d : Dev) : Dev :=
  let r := writeWords .other off ws d
  endFront (if r.2 then 5 else 0) [] r.1

/-- The bank that uploads write. -/
def otherBank (d : Dev) : Nat := bankBase d (1 - runningBank d)

/-- The first write to the other bank since it became that erases its manifest sector (R389, R411). -/
def touchBank (d : Dev) : Dev :=
  if d.boot.dirty then d
  else
    let d := flashErase d (otherBank d) 4096
    { d with boot := { d.boot with dirty := true } }

/-- An upload command is refused with BUSY while a reload is LOADING or READY (R389). -/
def uploadStart (w : Dev → MgmtWait) (d : Dev) : Dev :=
  if d.boot.reload.isSome then endFront 4 [] d
  else
    let d := touchBank d
    frontWaits (w d) d

/-- The bytes of a range after an erase or program that failed: none is known (assumption log entry 25). -/
def flashSpoil (d : Dev) (a n : Nat) : Dev :=
  let k := d.boot.ops
  let d := { d with boot := { d.boot with ops := k + 1 } }
  setFlash d ((List.range n).foldl (fun m i => mapSet erased m (a + i) (Config.flashFailed k (a + i))) d.boot.flash)

/-- FLASH_OP_DONE (R411). -/
def flashDone (ok : Bool) (d : Dev) : Dev :=
  match d.mgmt.queue with
  | [] => d
  | r :: _ =>
    match r.wait with
    | .erase a n => if ok then endFront 0 [] (flashErase d a n) else endFront 7 [] (flashSpoil d a n)
    | .program a bs =>
      if ok then
        let d := flashProgram d a bs
        endFront (if flashRun d a bs.length = bs then 0 else 6) [] d
      else endFront 7 [] (flashSpoil d a bs.length)
    | _ => d

/-- CRC-32C of a range with the reserved word. -/
def crcData (d : Dev) (a n : Nat) : List Byte := beBytes 4 (crc32c (flashRun d a n)).toNat ++ beBytes 4 0

/-- NVM.RELOAD_STATUS as response data. -/
def reloadData (d : Dev) : List Byte := beBytes 4 (liveGet d offNvmReloadStatus).toNat

/-- RELOAD (R411). -/
def reloadCmd (d : Dev) : Dev :=
  let d := reloadGo d
  let r := liveF d offNvmReloadStatus 3 0
  endFront (if r = 1 then 0 else if r = 9 then 4 else 10) (reloadData d) d

/-- The commit commands at the latch of an epoch start (R410): the result is what the bank latches, or would latch under a hold. -/
def commitLatch (d : Dev) : Dev :=
  match d.mgmt.queue with
  | r :: t =>
    if r.wait = .commit then
      let tgt := liveF d offEpcCommitTargetHi 15 0 * 2 ^ 32 + (liveGet d offEpcCommitTargetLo).toNat
      let w := MgmtWait.result tgt (liveF d offEpcCommitStatus 31 16) (liveF d offEpcCommitStatus 2 0)
      setMgmt d { d.mgmt with queue := { r with wait := w } :: t }
    else d
  | [] => d

/-- COMMIT_COMMAND_RESULT (R410). -/
def commitAnswer (d : Dev) : Dev :=
  match d.mgmt.queue with
  | r :: _ => match r.wait with
    | .result t s v => endFront 0 (beBytes 8 t ++ beBytes 2 s ++ beBytes 2 v) d
    | _ => d
  | [] => d

/-- The protocol at an epoch start: sessions grow idle, and a new second of HELLO datagrams begins (R405).
The management port has no link while it is held in reset (R267). -/
def mgmtEpoch (d : Dev) : Dev :=
  let d := if running d blkMgt then d else liveSetB d offMgtStatus 0 false
  setMgmt d { d.mgmt with sessions := d.mgmt.sessions.map fun s => { s with idle := s.idle + 1 },
                          hellos := if d.epc.epoch % 3000 = 0 then 0 else d.mgmt.hellos }

/-- SVC.STATUS at a snapshot (R420). -/
def svcReport (d : Dev) : Dev :=
  if d.boot.up then
    liveSetB (liveSetF (liveSetF d offSvcStatus 11 8 d.mgmt.sessions.length) offSvcStatus 7 4 d.mgmt.keys.length)
      offSvcStatus 3 (!d.mgmt.queue.isEmpty)
  else d

/-- SESSION_IDLE_TIMEOUT (R405). -/
def sessionTimeout (id : Nat) (d : Dev) : Dev :=
  if d.mgmt.sessions.any fun s => decide (s.id = id ∧ actF d offSvcMdpCfg 15 0 * 3000 ≤ s.idle) then closeSession d id else d

/-! ### Service SPI (R413 to R415) -/

/-- The SPI engine works: from the end of boot step 2. -/
def spiUp (d : Dev) : Bool := decide (d.boot.phase ≠ .reset ∧ d.boot.phase ≠ .lock)

/-- Frames other than REG_READ are accepted (Table 19-6). -/
def spiOpen (d : Dev) : Bool := decide (lcsState d ≠ 3)

/-- A mailbox request is queued or executing. -/
def mboxBusy (d : Dev) : Bool := d.mgmt.queue.any fun r => decide (r.port = 3)

/-- The status byte (Table 18-7). -/
def spiStatus (d : Dev) : Byte :=
  BitVec.ofNat 8 (128 + (liveB d offNvmStatus 5).toNat * 64 +
    (decide (d.boot.phase = .lock ∨ d.boot.phase = .commit ∨ d.boot.phase = .train ∨ d.boot.phase = .wipe ∨
      d.boot.phase = .loaded)).toNat * 32 + (mboxBusy d).toNat * 16 +
    d.mgmt.mbox.isSome.toNat * 8 + d.mgmt.error.toNat * 4 + (!d.boot.up).toNat * 2)

/-- A frame: the status byte and what MISO gives after it; ERROR is this frame's (R414). Counts run with an image (R420). -/
def spiFrame (err : Bool) (miso : List Byte) (d : Dev) : Dev :=
  let d := if d.boot.up then (let d := bump d (offSvcSpiCnt 0); if err then bump d (offSvcSpiCnt 1) else d) else d
  setMgmt d { d.mgmt with error := err, miso := spiStatus d :: miso }

/-- A REG_READ frame reads only SYS, ERR and LCS in RETURNED (Table 19-6). -/
def spiReadable (d : Dev) (off n : Nat) : Bool :=
  spiOpen d || (List.range n).all fun i => [blkSys, blkErr, blkLcs].contains ((off + 4 * i) / 0x100000)

/-- MISO's 0x00 for n bytes (Table 18-8). -/
def misoZeros (n : Nat) : List Byte := List.replicate n 0

/-- A frame that is malformed sets ERROR and does nothing more (R414): `zeros` bytes of 0x00 went out after the status byte. -/
def spiMalformed (zeros : Nat) (d : Dev) : Dev := if spiUp d then spiFrame true (misoZeros zeros) d else d

/-- REG_READ (R415). -/
def spiRead (off n : Nat) (d : Dev) : Dev :=
  if !(spiUp d) then d
  else if decide (off % 4 = 0 ∧ off + 4 * n ≤ 0x10000000) && spiReadable d off n then
    spiFrame false ((List.range n).flatMap fun i => beBytes 4 (regRead d (off + 4 * i)).toNat) d
  else spiFrame true [] d

/-- REG_WRITE (R415): whole words are written, a partial one at the end is not. -/
def spiWrite (off : Nat) (bs : List Byte) (d : Dev) : Dev :=
  if !(spiUp d) then d
  else if decide (off % 4 = 0 ∧ off + bs.length ≤ 0x10000000) && spiOpen d then
    let ws := (chunks bs.length 4 (bs.take (bs.length / 4 * 4))).map fun w => BitVec.ofNat 32 (beNat w)
    (writeWords .spi off ws (spiFrame false (misoZeros (4 + bs.length)) d)).1
  else spiFrame true (misoZeros (4 + bs.length)) d

/-- MBOX_PUT (R415). -/
def mboxPut (len : Nat) (body : List Byte) (d : Dev) : Dev :=
  if !(spiUp d) then d
  else if spiOpen d && !(mboxBusy d) && d.mgmt.mbox.isNone && decide (1 ≤ len ∧ len ≤ 1404 ∧ len ≤ body.length) then
    let d := spiFrame false (misoZeros (2 + body.length)) d
    let d := if d.boot.up then bump d (offSvcSpiCnt 2) else d
    enqueueReq 3 0 0 0 31 (body.take len) d
  else spiFrame true (misoZeros (2 + body.length)) d

/-- MBOX_GET (R415): n bytes are shifted out after the status byte. -/
def mboxGet (n : Nat) (d : Dev) : Dev :=
  if !(spiUp d) then d
  else if spiOpen d then
    let r := d.mgmt.mbox.getD []
    let d := spiFrame false ((beBytes 2 r.length ++ r).take n) d
    if n < 2 + r.length then d else setMgmt d { d.mgmt with mbox := none }
  else spiFrame true [] d

/-- BOOT (R388, R415): a new boot from step 2 while no image runs. The frame is its opcode, so that MISO gives the status byte alone. -/
def spiBoot (d : Dev) : Dev :=
  if !(spiUp d) then d
  else if spiOpen d && decide (d.boot.phase = .noImage) then
    let f := spiFrame false [] d
    let n := reboot none f
    setMgmt n { n.mgmt with miso := f.mgmt.miso }
  else spiFrame true [] d

/-! ### Commands -/

/-- HELLO (R404). -/
def execHello (port srcId : Nat) (datagram : List Byte) (s : State) : Host.Outcome State Fault Refusal :=
  ranIf (decide (port < 3)) s fun d => datagramIn 1 port srcId datagram (takeDatagram port datagram d)

/-- REQUEST (R406). -/
def execRequest (port srcId : Nat) (datagram : List Byte) (s : State) : Host.Outcome State Fault Refusal :=
  ranIf (decide (port < 3)) s fun d => datagramIn 3 port srcId datagram (takeDatagram port datagram d)

/-- READ (R409). -/
def execReadCmd (off n : Nat) (s : State) : Host.Outcome State Fault Refusal :=
  ran s (runFront 1 (fun a => decide (field a 0 4 = off ∧ field a 4 2 = n)) (readWords off n))

/-- WRITE (R409). -/
def execWriteCmd (off : Nat) (words : List Word) (s : State) : Host.Outcome State Fault Refusal :=
  ran s (runFront 2 (fun a => decide (field a 0 4 = off ∧ a.drop 8 = words.flatMap fun w => beBytes 4 w.toNat)) (writeCmdRun off words))

/-- COMMIT_AT (R410). -/
def execCommitAt (epoch : Nat) (s : State) : Host.Outcome State Fault Refusal :=
  ran s (runFront 3 (fun a => decide (field a 0 8 = epoch)) fun d =>
    frontWaits .commit (commitAtHiWrite (BitVec.ofNat 32 (epoch / 2 ^ 32)) (liveSet d offEpcCommitAtLo (BitVec.ofNat 32 epoch))))

/-- COMMIT_NEXT (R410). -/
def execCommitNext (s : State) : Host.Outcome State Fault Refusal :=
  ran s (runFront 4 (fun _ => true) fun d => frontWaits .commit (commitNextWrite d))

/-- COMMIT_CANCEL (R410). -/
def execCommitCancel (s : State) : Host.Outcome State Fault Refusal :=
  ran s (runFront 5 (fun _ => true) fun d => frontWaits .commit (commitCancelWrite d))

/-- COMMIT_COMMAND_RESULT (R410). -/
def execCommitCommandResult (s : State) : Host.Outcome State Fault Refusal := ran s commitAnswer

/-- ERASE (R411). -/
def execErase (off sectors : Nat) (s : State) : Host.Outcome State Fault Refusal :=
  ran s (runFront 0x10 (fun a => decide (field a 0 4 = off ∧ field a 4 2 = sectors))
    (uploadStart fun d => .erase (otherBank d + off) (4096 * sectors)))

/-- UPLOAD (R411). -/
def execUpload (off : Nat) (bytes : List Byte) (s : State) : Host.Outcome State Fault Refusal :=
  ran s (runFront 0x11 (fun a => decide (field a 0 4 = off ∧ a.drop 8 = bytes)) (uploadStart fun d => .program (otherBank d + off) bytes))

/-- BANK_CRC (R411). -/
def execBankCrc (off len : Nat) (s : State) : Host.Outcome State Fault Refusal :=
  ran s (runFront 0x12 (fun a => decide (field a 0 4 = off ∧ field a 4 4 = len)) fun d => endFront 0 (crcData d (otherBank d + off) len) d)

/-- FLASH_OP_DONE (R411). -/
def execFlashOpDone (ok : Bool) (s : State) : Host.Outcome State Fault Refusal := ran s (flashDone ok)

/-- RELOAD (R411). -/
def execReload (s : State) : Host.Outcome State Fault Refusal := ran s (runFront 0x20 (fun _ => true) reloadCmd)

/-- ABANDON (R411). -/
def execAbandon (s : State) : Host.Outcome State Fault Refusal :=
  ran s (runFront 0x21 (fun _ => true) fun d => let d := reloadAbandon d; endFront 0 (reloadData d) d)

/-- CONFIRM (R411). -/
def execConfirm (s : State) : Host.Outcome State Fault Refusal :=
  ran s (runFront 0x22 (fun _ => true) fun d => endFront 0 [] (confirmGo d))

/-- CLOSE (R408). -/
def execClose (s : State) : Host.Outcome State Fault Refusal := ran s (runFront 0x30 (fun _ => true) (endFront 0 []))

/-- FLASH_ERASE (R412). -/
def execFlashErase (off sectors : Nat) (s : State) : Host.Outcome State Fault Refusal :=
  ran s (runFront 0x40 (fun a => decide (field a 0 4 = off ∧ field a 4 2 = sectors)) (frontWaits (.erase off (4096 * sectors))))

/-- FLASH_WRITE (R412). -/
def execFlashWrite (off : Nat) (bytes : List Byte) (s : State) : Host.Outcome State Fault Refusal :=
  ran s (runFront 0x41 (fun a => decide (field a 0 4 = off ∧ a.drop 8 = bytes)) (frontWaits (.program off bytes)))

/-- FLASH_CRC (R412). -/
def execFlashCrc (off len : Nat) (s : State) : Host.Outcome State Fault Refusal :=
  ran s (runFront 0x42 (fun a => decide (field a 0 4 = off ∧ field a 4 4 = len)) fun d => endFront 0 (crcData d off len) d)

/-- SESSION_IDLE_TIMEOUT (R405). -/
def execSessionIdleTimeout (session : Nat) (s : State) : Host.Outcome State Fault Refusal := ran s (sessionTimeout session)

/-- A frame that ended inside a field of `size` bytes is malformed (R414). -/
def wholeOr (size : Nat) (cut : Option Nat) (whole : Dev → Dev) (d : Dev) : Dev := match cut with
  | none => whole d
  | some k => spiMalformed (min k (size - 1)) d

/-- REG_READ (R414, R415). -/
def execRegRead (off n : Nat) (s : State) (cut : Option Nat := none) : Host.Outcome State Fault Refusal :=
  ran s fun d => if cut.isSome then spiMalformed 0 d else spiRead off n d

/-- REG_WRITE (R414, R415). -/
def execRegWrite (off : Nat) (bytes : List Byte) (s : State) (cut : Option Nat := none) : Host.Outcome State Fault Refusal :=
  ran s (wholeOr 4 cut (spiWrite off bytes))

/-- MBOX_PUT (R414, R415). -/
def execMboxPut (len : Nat) (body : List Byte) (s : State) (cut : Option Nat := none) : Host.Outcome State Fault Refusal :=
  ran s (wholeOr 2 cut (mboxPut len body))

/-- MBOX_GET (R415). -/
def execMboxGet (n : Nat) (s : State) : Host.Outcome State Fault Refusal := ran s (mboxGet n)

/-- BOOT (R414, R415). -/
def execBoot (s : State) (opcode : Nat := 0x20) : Host.Outcome State Fault Refusal :=
  ran s fun d => if opcode = 0x20 then spiBoot d else spiMalformed 0 d

end Sys2Proof.Machine
end

