-- ==== Sys2Proof/Machine/Media.lean ====
section
/-!
DEFINITION. Sys2Proof/Machine/Media.lean: a frame received at a media port or the management port (R244, R267).
-/
namespace Sys2Proof.Machine

/-- The tag of a frame is accepted (R245): none, VID 0, or a VID of NETx.VLAN. -/
def vidOk (d : Dev) (x : Nat) (f : Frame) : Bool := match f.vid with
  | none | some 0 => true
  | some v => (List.range 16).any fun i => actB d (offNetVlan x i) 15 && decide (actF d (offNetVlan x i) 11 0 = v)

/-- A datagram for a receive stream goes to its ring, or to the source bound to it (R244, R252). A payload that is no RTP packet is
malformed (R259). -/
def streamLoad (x s : Nat) (load : UdpLoad) (d : Dev) : Dev :=
  match rxAudio (rxEntry d x s), load with
  | true, .rtp pkt => audioPlace x s pkt d
  | true, _ => bump d (offNetRxsCnt x s 4)
  | false, .rtp pkt => metaPacket x s pkt d
  | false, _ => d

/-- The groups every host is in: all systems, all nodes and the solicited-node group of its own address (assumption log entry 208). -/
def hostGroups (own6 : IpAddr) : List IpAddr :=
  [⟨false, 0xE0000001⟩, ⟨true, 0xFF02 * 2 ^ 112 + 1⟩, ⟨true, 0xFF02 * 2 ^ 112 + 0x1FF * 2 ^ 24 + own6.addr % 2 ^ 24⟩]

/-- The limited broadcast address of IPv4. -/
def broadcastAddr : IpAddr := ⟨false, 0xFFFFFFFF⟩

/-- The broadcast MAC address. -/
def broadcastMac : Nat := 0xFFFFFFFFFFFF

/-- The groups a plane has joined (R246, R273): those of its active receive entries and of a section that is READY, that of a PTP
instance that runs, and those every host is in. -/
def joinedGroups (d : Dev) (x : Nat) : List IpAddr :=
  let ready := match d.boot.reload with
    | none => []
    | some r => r.secs.flatMap fun s => if s.type = 0x18 ∧ s.ready = true then rxGroups (netParse x s.data).1 else []
  ((rxGroups ((List.range 256).map (rxEntry d x)) ++ ready).map fun g => g.1) ++
    (if running d (ptpBlk x) then [ptpGroup (liveB d (offPtpCtrl x) 4)] else []) ++ hostGroups (ownAddr d x true)

/-- An IP packet is addressed to the plane: its own address, broadcast, or a group it has joined (R244 order 9). -/
def ipToPlane (d : Dev) (x : Nat) (a : IpAddr) : Bool :=
  decide (a = ownAddr d x a.v6 ∨ a = broadcastAddr) || (isMulticast a && (joinedGroups d x).contains a)

/-- A supervisor frame is addressed to the plane: ARP by its MAC address, the others by their IP address. -/
def supToPlane (d : Dev) (x mac : Nat) (dst : Option IpAddr) : Bool := match dst with
  | none => decide (mac = ownMac d x ∨ mac = broadcastMac)
  | some a => ipToPlane d x a

/-- The UDP port of the management datagram protocol. -/
def mdpPort (d : Dev) : Nat := liveF d offMgtUdpPort 15 0

/-- A frame for the supervisor queue: counted as received, or dropped where the queue is full (R244). -/
def toSupervisor (x : Nat) (f : Frame) (d : Dev) : Dev :=
  if supBytes (plane d x) + f.len > 128 * 1024 then supEnqueue x f d else supEnqueue x f (bump d (offNetCnt x 0))

/-- What a frame carries that is neither broken, a pause nor badly tagged (orders 5 to 10 of Table 11-2). -/
def frameBody (x : Nat) (f : Frame) (d : Dev) : Dev :=
  let unmatched := bump d (offNetCnt x 4)
  match f.body with
  | .ipBadChecksum => bump d (offNetCnt x 5)
  | .udpBadChecksum => bump d (offNetCnt x 6)
  | .udp src dst port load => match rxMatch d x src dst port, load with
    | some s, _ => streamLoad x s load (bump d (offNetCnt x 0))
    | none, load =>
      let managed := if actB d (offNetCtrl x) 4 && decide (port = mdpPort d) && ipToPlane d x dst then toSupervisor x f d else unmatched
      match load with
      | .ptp msg => if port = 319 ∨ port = 320 then ptpReceive x msg src (bump d (offNetCnt x 0)) else managed
      | _ => managed
  | .supervisor _ mac dst => if supToPlane d x mac dst then toSupervisor x f d else unmatched
  | _ => unmatched

/-- MEDIA_FRAME_RX (R244): the first rule of Table 11-2 that fits decides. -/
def mediaFrame (x : Nat) (f : Frame) (d : Dev) : Dev :=
  if running d (netBlk x) && liveB d (offNetStatus x) 0 then
    let d := perfHit d (perfMac x) 0x10 1
    let d := setPlane d x { plane d x with rxBits := (plane d x).rxBits + wireBits f.len }
    if !f.fcsOk then bump d (offNetCnt x 1)
    else if f.len > 1522 then bump d (offNetCnt x 2)
    else match f.body with
      | .pfc en times => pfcFrame x en times d
      | .pause => bump d (offNetCnt x 3)
      | _ => if vidOk d x f then frameBody x f d else bump d (offNetCnt x 4)
  else d

/-- An address of the management port. -/
def mgtAddr (d : Dev) (v6 : Bool) : IpAddr :=
  if v6 then ⟨true, (List.range 4).foldl (fun a w => a * 2 ^ 32 + (liveGet d (offMgtIpv6 w)).toNat) 0⟩
  else ⟨false, (liveGet d offMgtIpv4).toNat⟩

/-- An IP packet is addressed to the management port (assumption log entry 208). -/
def ipToMgt (d : Dev) (a : IpAddr) : Bool :=
  decide (a = mgtAddr d a.v6 ∨ a = broadcastAddr) || (hostGroups (mgtAddr d true)).contains a

/-- A supervisor frame is addressed to the management port. -/
def supToMgt (d : Dev) (mac : Nat) (dst : Option IpAddr) : Bool := match dst with
  | none => decide (mac = liveF d offMgtMacHi 15 0 * 2 ^ 32 + (liveGet d offMgtMacLo).toNat ∨ mac = broadcastMac)
  | some a => ipToMgt d a

/-- MGT_FRAME_RX (R267): ARP, neighbour solicitation and echo are answered, management datagrams are taken, every other frame is
dropped. -/
def mgtFrame (f : Frame) (d : Dev) : Dev :=
  if running d blkMgt && liveB d offMgtStatus 0 then
    let d := perfHit d 78 0x10 1
    if !f.fcsOk then bump d (offMgtCnt 1)
    else if f.len > 1522 ∨ f.vid.isSome = true then bump d (offMgtCnt 3)
    else match f.body with
      | .ipBadChecksum | .udpBadChecksum => bump d (offMgtCnt 2)
      | .supervisor k mac dst =>
        if k ≠ .membership ∧ supToMgt d mac dst = true then mgtSent (bump d (offMgtCnt 0)) else bump d (offMgtCnt 3)
      | .udp _ dst port _ => if port = mdpPort d ∧ ipToMgt d dst = true then bump d (offMgtCnt 0) else bump d (offMgtCnt 3)
      | _ => bump d (offMgtCnt 3)
  else d

/-- MEDIA_FRAME_RX (R244). -/
def execMediaFrameRx (pl : Nat) (frame : Frame) (s : State) : Host.Outcome State Fault Refusal :=
  ranIf (decide (pl < 2)) s (mediaFrame pl frame)

/-- MGT_FRAME_RX (R267). -/
def execMgtFrameRx (frame : Frame) (s : State) : Host.Outcome State Fault Refusal := ran s (mgtFrame frame)

end Sys2Proof.Machine
end

