-- ==== Sys2Proof/Machine/Render.lean ====
section
/-!
DEFINITION. Sys2Proof/Machine/Render.lean: the windows of the render epoch (Table 1-6) and the output stage of GRAPH: selectors, trims
and serial bindings (R43 to R58, R464, R467). Each window is worked once in an epoch, in the order of the table.
-/
namespace Sys2Proof.Machine

/-! ### Output selectors (R44 to R50, R464) -/

/-- A source code is of an auxiliary bus. -/
def isBusCode (c : Nat) : Bool := c / 8192 = 5

/-- The block that an output channel takes on the path of a source: of the buses on the bus path, else of the feeds (R464). -/
def pathBlock (code bf bb : Nat) : Nat := if isBusCode code then bb else bf

/-- The values in force for output channel m where block bf of the feeds and block bb of the buses reach the output stage: those of the
latest commit whose epoch the block of the channel's path has reached, on the path of the source that was active before that commit
(R464). -/
def outValues (m bf bb : Nat) : List (Nat × Bank) → Bank
  | [] => []
  | [a] => a.2
  | a :: p :: t =>
    if a.1 ≤ pathBlock (bits (mapGet resetWord p.2 (offGraphOsel m)) 15 0) bf bb then a.2 else outValues m bf bb (p :: t)

/-- A word in force for output channel m. -/
def outWord (d : Dev) (m bf bb off : Nat) : Word := mapGet resetWord (outValues m bf bb d.regs.act) off

/-- Input slot taps (R48): the conditioned block of every slot that goes with the feeds of epoch o, delayed as SPK delays them. -/
def tapAudio (d : Dev) (o : Nat) : Audio :=
  let el := fun (a : Nat) => d.path.slots.find? fun b => decide (b.epoch = a)
  let on := fun (e : Option BlockAt) => match e with
    | none => false
    | some b => stageOn d 1 b.block
  match el (o - 1), el (o - 2) with
  | none, _ => []
  | some c, none => c.audio
  | some c, some p =>
    if !(on (some p)) then c.audio
    else if !(on (some c)) then fadeAudio (blockN d) p.audio c.audio
    else if on (el (o - 3)) then p.audio
    else fadeAudio (blockN d) c.audio p.audio

/-- Q1.23 samples as Q4.28. -/
def q28 (x : List Int) : List Int := x.map fun v => v * 32

/-- What a source code delivers to an output selector in Q4.28, and NO_SIGNAL (R45); c is the epoch of presentation (R467). -/
def outSource (d : Dev) (corrected taps : Audio) (c code : Nat) : List Int × Bool :=
  match code / 8192 with
  | 3 => match genBlock d (code % 8) c with
    | none => ([], true)
    | some x => (q28 x, false)
  | 4 => (mapGet (fun _ => []) corrected (code % 512), false)
  | 5 => (mapGet (fun _ => []) corrected (512 + code % 64), false)
  | 6 => (q28 (mapGet (fun _ => []) taps (code % 2048)), false)
  | _ => ([], false)

/-- The gain that an output channel heads for (R53, R58, R306, R321). -/
def outGoal (d : Dev) (m bf bb : Nat) : Int :=
  let w := outWord d m bf bb (offGraphOtrim m)
  if decide (timebase d = 0) || outputsMuted d || bit w 16 then 0 else dbGain (bits w 15 0)

/-- One output channel (R49, R50, R53 to R57): the selected, crossfaded and trimmed samples in Q1.23. -/
def outChannel (c bf bb : Nat) (corrected taps : Audio) (a : Dev × Audio) (m : Nat) : Dev × Audio :=
  let d := a.1
  let n := blockN d
  let old := mapGet (fun _ => 0) d.path.osel m
  let w := outWord d m bf bb (offGraphOsel m)
  let code := bits w 15 0
  let s := outSource d corrected taps c code
  let x := if code = old then s.1 else (crossfade (bit w 16) n (outSource d corrected taps c old).1 s.1).map (fitWord 32)
  let t := if outputsMuted d then 30 * n else bits (outWord d m bf bb offGraphZc) 7 0 * (n * 3)
  let g := gainRequest (outGoal d m bf bb) (getGain d (.output m))
  let xs := (List.range n).map (sampleAt x)
  let r := gainBlock 24 25 t n xs g
  let d := noteGain (putGain d (.output m) r.1 r.2.2.2) (.output m) xs
  let d := if r.2.2.1 then bumpSat (liveSetB d (offGraphOtrim m) 26 true) offGraphClipCount 31 0 else d
  let d := liveSetB d (offGraphOsel m) 24 s.2
  let y := trimZeros r.2.1
  ({ d with path := { d.path with osel := mapSet (fun _ => 0) d.path.osel m code } }, if y.isEmpty then a.2 else a.2 ++ [(m, y)])

/-- An output channel while GRAPH is off: it carries zero, so a change of its gain takes over at once (R54, R63), and its selector says
whether its source is there (R45). -/
def outQuiet (c bf bb : Nat) (d : Dev) (m : Nat) : Dev :=
  let t := if outputsMuted d then 30 * blockN d else bits (outWord d m bf bb offGraphZc) 7 0 * (blockN d * 3)
  let xs := List.replicate (blockN d) (0 : Int)
  let r := gainBlock 24 25 t (blockN d) xs (gainRequest (outGoal d m bf bb) (getGain d (.output m)))
  let none' := (outSource d [] [] c (bits (outWord d m bf bb (offGraphOsel m)) 15 0)).2
  liveSetB (noteGain (putGain d (.output m) r.1 r.2.2.2) (.output m) xs) (offGraphOsel m) 24 none'

/-- Output channels with anything to do: a source, a trim, a gain or a report that is not as after reset. -/
def liveOutputs (d : Dev) (bf bb : Nat) : List Nat :=
  let inBank : Bank → List Nat := fun b => b.filterMap fun e =>
    if 0xA05000 ≤ e.1 ∧ e.1 < 0xA06800 then some ((e.1 - 0xA05000) / 4)
    else if 0xA08000 ≤ e.1 ∧ e.1 < 0xA09800 then some ((e.1 - 0xA08000) / 4)
    else none
  let all : List Nat := inBank (bankAt d.regs.act bf) ++ inBank (bankAt d.regs.act bb) ++ inBank d.regs.live ++
    d.path.osel.map (fun e => e.1) ++
    d.gains.filterMap fun e => if 2048 ≤ e.1 ∧ e.1 < 3584 then some (e.1 - 2048) else none
  all.foldl setIns []

/-- The output stage's audio for the corrected block (R43, R63): every channel carries zero in a block whose values leave GRAPH off
(R35), or after a Fatal error. A selector that starts from there crossfades in from silence (assumption log entry 193). -/
def outputAudio (c bf bb : Nat) (d : Dev) : Dev × Audio :=
  let o := d.epc.epoch
  let corrected := match d.path.corrected.find? fun x => decide (x.epoch = o) with
    | some x => x.audio
    | none => []
  if runningAt d bf blkGraph then
    (liveOutputs d bf bb).foldl (outChannel c bf bb corrected (tapAudio d o)) (d, [])
  else
    let d := (liveOutputs d bf bb).foldl (outQuiet c bf bb) d
    ({ d with path := { d.path with osel := [] } }, [])

/-! ### Serial output bindings (R47, R52, R464) -/

/-- The bindings that govern a block: serial output and its word, with the channel's CURVE in bit 16. A channel that has just lost its
binding keeps an entry, which is not valid, for its CURVE (R52). -/
def bindsFor (d : Dev) (bf bb : Nat) : List (Nat × Word) :=
  let had := match d.path.made with
    | [] => []
    | (_, l) :: _ => l.filter fun (x : Nat × Word) => bit x.2 15
  (List.range 512).filterMap fun m =>
    let w := outWord d (1024 + m) bf bb (offGraphSodest m)
    if bit w 15 || had.any (fun x => decide (x.1 = m)) then
      some (m, setBit w 16 (bit (outWord d (1024 + m) bf bb (offGraphOsel (1024 + m))) 16))
    else none

/-- The output stage on the corrected block: its audio and the serial output bindings that go with it (R35, R43, R464). -/
def outputStage (c bf bb : Nat) (d : Dev) : Dev :=
  let binds := if runningAt d bf blkGraph then bindsFor d bf bb else []
  let r := outputAudio c bf bb d
  { r.1 with path := { r.1.path with trimmed := ⟨d.epc.epoch, bf, r.2⟩ :: r.1.path.trimmed.take 3,
                                     made := (bf, binds) :: r.1.path.made.take 3 } }

/-- CONFLICT and RATE_MISMATCH of every serial output, and DEST_CONFLICT (R47, R52), for the bindings of the epoch in progress. -/
def bindReports (d : Dev) : Dev :=
  let valid := fun (l : List (Nat × Word)) => l.filter fun x => bit x.2 15
  let now := valid (bindsOf d d.epc.epoch)
  let before := valid (bindsOf d (d.epc.epoch - 1))
  let dest := fun (w : Word) => bits w 9 0
  let d := (before.filter fun x => !(now.any fun y => decide (y.1 = x.1))).foldl (fun d x => liveSetF d (offGraphSodest x.1) 25 24 0) d
  let lost := fun (x : Nat × Word) => now.any fun y => decide (y.1 < x.1 ∧ dest y.2 = dest x.2)
  let d := now.foldl (fun d x =>
    let d := liveSetB d (offGraphSodest x.1) 24 (lost x)
    liveSetB d (offGraphSodest x.1) 25 (decide (portMult d (bits x.2 9 5) * 16 ≠ blockN d))) d
  liveSetB d offGraphStatus 0 (now.any lost)

/-! ### The windows of Table 1-6 -/

/-- A window's work, once in the epoch and after the window before it. -/
def inWindow (k : Nat) (f : Dev → Dev) (d : Dev) : Dev :=
  if d.path.phase = k then f { d with path := { d.path with phase := k + 1 } } else d

/-- Phase A (R26): lanes, geometry, and the load of RC. -/
def phaseA (d : Dev) : Dev :=
  let d := geoEvaluate (bulkOf d) (lanesRun d)
  match feedBlock d with
  | some b => rcLoadA b d
  | none => rcLoadA d.epc.epoch d

/-- Reduction (R146, R151): the banks are summed, the pool is allocated, and the watchdog sees a reduction complete (R361). -/
def reduction (d : Dev) : Dev :=
  let on := renderOn d
  let d := allocate (reduce d)
  if on then watchdogKick d else d

/-- OUT delays the block that epoch o makes and did not delay one of the two before it: the block is also presented at the old latency
(R24). -/
def outTurnsOn (d : Dev) (o b : Nat) : Bool :=
  let on := fun (a : Nat) => match stageElement d 3 a with
    | none => false
    | some x => stageOn d 3 x.block
  stageOn d 3 b && !(on (o - 1) && on (o - 2))

/-- Phase B (R155, R160, R171, R43): correction and the output stage, on what SPK and AUX give (R24). A generator carries the samples of
the presentation index of the block (R467); a block that is presented at both latencies of OUT is made for each. -/
def phaseB (d : Dev) : Dev :=
  let o := d.epc.epoch
  let f := joinStage d 1 o
  let b := joinStage f.1 2 o
  match f.2, b.2 with
  | some f, some x =>
    let d := genMakeAll (genMakeAll b.1 (o + 1)) (o + 2)
    let make := fun (c : Nat) (d : Dev) =>
      rcCorrect (fun g => (genBlock d (8 + g) c).getD []) f.block x.block f.audio x.audio d
    let twice := outTurnsOn d o f.block
    let early := if twice then [⟨o, f.block, (outputAudio (o + 1) f.block x.block (make (o + 1) d)).2⟩] else []
    let c := if stageOn d 3 f.block then o + 2 else o + 1
    let d := if twice then captureRefs (o + 1) d else d
    let d := { d with path := { d.path with early := early } }
    outputStage c f.block x.block (make c (captureRefs c d))
  | _, _ => b.1

/-- Margin (R26, R352, R176): the block is handed over with its bindings, its digests are computed, the capture is correlated. Every
channel carries zero where GRAPH does not run, whatever the OUT inserts give (R63). -/
def margin (d : Dev) : Dev :=
  let j := joinStage d 3 d.epc.epoch
  let d := match j.2 with
    | none => { j.1 with path := { j.1.path with next := [], nextBinds := [] } }
    | some x =>
      let binds := match j.1.path.made.find? fun y => decide (y.1 = x.block) with
        | some y => y.2
        | none => []
      { j.1 with path := { j.1.path with next := if runningAt j.1 x.block blkGraph then x.audio else [], nextBinds := binds } }
  captureSum (makeDigests d)

/-- The block made in the epoch before is presented (R22). -/
def present (d : Dev) : Dev :=
  let e := d.epc.epoch
  let p := d.path
  bindReports { d with path := { p with shown := (e, p.next) :: p.shown.take 7, binds := (e, p.nextBinds) :: p.binds.take 7,
                                        next := [], nextBinds := [], phase := 0 } }

/-- RENDER_PHASE_A (R26). -/
def execRenderPhaseA (s : State) : Host.Outcome State Fault Refusal := ran s (inWindow 0 phaseA)

/-- RENDER_REDUCTION (R146). -/
def execRenderReduction (s : State) : Host.Outcome State Fault Refusal := ran s (inWindow 1 reduction)

/-- RENDER_PHASE_B (R157). -/
def execRenderPhaseB (s : State) : Host.Outcome State Fault Refusal := ran s (inWindow 2 phaseB)

/-- RENDER_MARGIN (R26). -/
def execRenderMargin (s : State) : Host.Outcome State Fault Refusal := ran s (inWindow 3 margin)

end Sys2Proof.Machine
end

