-- ==== Sys2Proof/Machine/Xbar.lean ====
section
/-!
DEFINITION. Sys2Proof/Machine/Xbar.lean: the crossbar (R325 to R333, R344): address decoding, arbitration, the memories and register
space behind it, and what an error response does. Targets carry the number of their row in Table 15-2: 1 boot ROM, 2 system SRAM,
3 register bridge, 4 cluster memories, 5 render configuration window, 6 MEM0, 7 MEM1.
-/
namespace Sys2Proof.Machine

/-! ### Decoding (R325 to R328) -/

/-- Outstanding transactions that a master may hold (Table 15-1). -/
def masterLimit (m : Nat) : Nat :=
  if m = 0 then 32 else if m = 10 ∨ m = 11 then 64 else if m = 12 ∨ m = 15 then 8 else if m = 18 then 4 else 16

/-- The paths of Table 15-1: 0 none, 1 read only, 2 read and write. -/
def pathKind (m t : Nat) : Nat :=
  let both := fun (l : List Nat) => if l.contains t then 2 else 0
  if m = 0 ∨ m = 18 then (if t = 1 then 1 else both [2, 3, 4, 5, 6, 7])
  else if m ≤ 9 then both [7]
  else if m = 10 then both [6]
  else if m = 11 then both [6, 7]
  else if m = 12 then (if t = 7 then 1 else 0)
  else if m ≤ 15 then both [2]
  else if m = 16 then both [2, 7]
  else if m = 17 then both [2, 4, 5, 7]
  else 0

/-- The window an address lies in and the offset there (Table 15-2, R328); a boot window address lies in the boot ROM or in system
SRAM. -/
def windowAt (remap : Bool) (a : Nat) : Option (Nat × Nat) :=
  if a < 0x100000 then (if remap then some (2, a) else if a < 0x40000 then some (1, a) else none)
  else if 0x10000000 ≤ a ∧ a < 0x10040000 then some (1, a - 0x10000000)
  else if 0x20000000 ≤ a ∧ a < 0x20400000 then some (2, a - 0x20000000)
  else if 0x40000000 ≤ a ∧ a < 0x50000000 then some (3, a - 0x40000000)
  else if 0x100000000 ≤ a ∧ a < 0x109000000 then some (4, a - 0x100000000)
  else if 0x200000000 ≤ a ∧ a < 0x200100000 then some (5, a - 0x200000000)
  else if 0x1000000000 ≤ a ∧ a < 0x2000000000 then some (6, a - 0x1000000000)
  else if 0x2000000000 ≤ a ∧ a < 0x3000000000 then some (7, a - 0x2000000000)
  else none

/-- The memories of a cluster's window: a byte offset in it belongs to a core's X, Y or program memory or to the shared memory. -/
def clusterHas (o : Nat) : Bool :=
  let c := o % 0x200000
  if o < 0x800000 then decide (c < 0x20000 ∨ (0x40000 ≤ c ∧ c < 0x60000) ∨ (0x80000 ≤ c ∧ c < 0x90000))
  else decide (o < 0x900000)

/-- A master may reach n bytes of MEM1 from offset a (R327). -/
def mem1Allows (d : Dev) (r : XbarReq) (a : Nat) : Bool :=
  mem1Open d a r.len || [0, 16, 17, 18].contains r.master ||
    (!r.write && ((decide (r.master = 11 ∨ r.master = 12)) || (decide (1 ≤ r.master ∧ r.master ≤ 9) && r.staging)))

/-- The cluster at an offset of the cluster window is isolated after a hard fault, or its region is held after a Fatal error (R16,
R365). -/
def clusterHeld (d : Dev) (o : Nat) : Bool := fatal d || d.vec.retired.contains (o / 0x1000000)

/-- A request that reached its window: what the target's own rules answer (R326, R327, Table 15-2). -/
def targetAnswer (d : Dev) (r : XbarReq) (t o : Nat) : XResp :=
  match t with
  | 3 => if r.first && r.last && decide ((r.len = 4 ∧ o % 4 = 0) ∨ (r.len = 8 ∧ o % 8 = 0)) then .ok else .target
  | 4 =>
    if !(clusterHas (o % 0x1000000)) || !(clusterHas ((o + r.len - 1) % 0x1000000)) then .decode
    else if clusterHeld d o || (r.write && running d blkVec) then .target
    else .ok
  | 5 => if fatal d || (r.write && decide (o < 0x80000)) then .target else .ok
  | 6 =>
    if memReady d 0 = false then .target
    else if memSize d 0 < o + r.len then .decode
    else if (decide (r.master = 0 ∨ r.master = 18)) && renderOn d then .target
    else .ok
  | 7 =>
    if memReady d 1 = false then .target
    else if memSize d 1 < o + r.len then .decode
    else if mem1Allows d r o then .ok else .target
  | _ => .ok

/-- The decoding of a request: the target, none where the crossbar answers without reaching one, and the answer. -/
def decodeReq (d : Dev) (r : XbarReq) : Option Nat × XResp :=
  let remap := liveB d offXbarCtrl 0
  if r.master = 18 ∧ lcsState d ≠ 1 then (none, .decode)
  else if r.addr < 0x100000 ∧ r.master ≠ 0 ∧ r.master ≠ 18 then (none, .decode)
  else
    match windowAt remap r.addr, windowAt remap (r.addr + r.len - 1) with
    | some (t, o), some (t', _) =>
      if t ≠ t' then (none, .decode)
      else match pathKind r.master t with
        | 0 => (none, .decode)
        | k =>
          let a := if k = 1 ∧ r.write = true then .target else targetAnswer d r t o
          (if a = .decode then none else some t, a)
    | _, _ => (none, .decode)

/-! ### Grants (R325, R329, R331) -/

/-- Outstanding transactions of a master. -/
def outOf (d : Dev) (m : Nat) : Nat := (d.xbar.out.filter fun t => decide (t.req.master = m)).length

/-- Rule 1 of R331 holds a request: its master has one with the same ID outstanding to a different target. -/
def ruleOneHolds (d : Dev) (r : XbarReq) : Bool :=
  d.xbar.out.any fun t => decide (t.req.master = r.master ∧ t.req.id = r.id ∧ t.target ≠ (decodeReq d r).1)

/-- A request may be granted now: places are free (R325) and no rule holds it. At MEM0 the render DMA and the RC DMA issue in their
windows (R346). -/
def mayGrant (d : Dev) (r : XbarReq) : Bool :=
  decide (outOf d r.master < masterLimit r.master ∧ d.xbar.out.length < 256) && !(ruleOneHolds d r) &&
    (match (decodeReq d r).1 with
      | some 6 => decide (memQueued d 0 < 64) && (decide (r.master = 0 ∨ r.master = 18) || mem0Window d r.master)
      | some 7 => decide (memQueued d 1 < 64)
      | _ => true)

/-- Waiting requests of which each is the first of its master and ID. -/
def headRequests (l : List (XbarReq × Bool)) : List XbarReq :=
  (l.foldl (fun (a : List XbarReq) r =>
    if a.any fun x => decide (x.master = r.1.master ∧ x.id = r.1.id) then a else a ++ [r.1]) [])

/-- Round-robin order (R329): masters above the one last granted come first, in ascending order. -/
def robinBefore (last : Nat) (a b : XbarReq) : Bool :=
  let k := fun (m : Nat) => if last < m then m else m + 19
  decide (k a.master ≤ k b.master)

/-- The request that is granted next: at the target of the oldest that may be granted, the next master in turn. -/
def nextGrant (d : Dev) : Option XbarReq :=
  let l := (headRequests d.xbar.waiting).filter (mayGrant d)
  match l with
  | [] => none
  | r :: _ =>
    let t := (decodeReq d r).1
    let last := mapGet (fun _ => 18) d.xbar.last (t.getD 0)
    (sortBy (robinBefore last) 19 (l.filter fun q => decide ((decodeReq d q).1 = t))).head?

/-- The counts of outstanding transactions: NOW, MAX and FULL_SEEN. -/
def xbarCounts (m : Nat) (d : Dev) : Dev :=
  let n := d.xbar.out.length
  let k := outOf d m
  let d := liveMax (liveSetF d offXbarOutstanding 8 0 n) offXbarOutstanding 24 16 n
  let d := liveMax (liveSetF d (offXbarMaster m) 6 0 k) (offXbarMaster m) 22 16 k
  let d := if n = 256 then liveSetB d offXbarStatus 1 true else d
  (List.range 2).foldl (fun d ch => liveMax d (offMemQueue ch) 22 16 (memQueued d ch)) d

/-- The 64-byte bursts of a DRAM channel that a request needs (R332, R334). -/
def txBursts (remap : Bool) (r : XbarReq) : List Nat := match windowAt remap r.addr with
  | some (t, o) => if t = 6 ∨ t = 7 then List.range' (o / 64) ((o + r.len - 1) / 64 + 1 - o / 64) else []
  | none => []

/-- A request is granted: it is outstanding, with the answer that its decoding gives. -/
def grant (r : XbarReq) (d : Dev) : Dev :=
  let a := decodeReq d r
  let remap := liveB d offXbarCtrl 0
  let tx : XbarTx := ⟨r, a.1, a.2, remap, false, if a.2 = .ok then txBursts remap r else []⟩
  let x := { d.xbar with out := d.xbar.out ++ [tx], waiting := d.xbar.waiting.eraseP fun w => decide (w.1 = r),
                         last := mapSet (fun _ => 18) d.xbar.last (a.1.getD 0) r.master }
  xbarCounts r.master { d with xbar := x }

/-- Grants are made until no request may be granted. -/
def grantAll (fuel : Nat) (d : Dev) : Dev := match fuel with
  | 0 => d
  | f + 1 => match nextGrant d with
    | none => d
    | some r => grantAll f (grant r d)

/-- Requests that rule 1 of R331 holds are counted, each once. -/
def countHolds (d : Dev) : Dev :=
  d.xbar.waiting.zipIdx.foldl (fun d w =>
    if w.1.2 || !(ruleOneHolds d w.1.1) then d
    else bump { d with xbar := { d.xbar with waiting := d.xbar.waiting.set w.2 (w.1.1, true) } } offXbarHoldCount) d

/-- Every waiting request that may be granted is granted (R329, R331). -/
def xbarGrants (d : Dev) : Dev := countHolds (grantAll d.xbar.waiting.length d)

/-- The segments of a burst: 16 beats of 32 bytes each, the last one shorter (R329). -/
def segments (fuel : Nat) (r : XbarReq) : List XbarReq :=
  let n := 512 - r.addr % 32
  match fuel with
  | 0 => [r]
  | f + 1 =>
    if r.len ≤ n then [r]
    else { r with len := n, data := r.data.take n, last := false } ::
      segments f { r with addr := r.addr + n, len := r.len - n, data := r.data.drop n, first := false }

/-- XBAR_GRANT (R325 to R331): a master issues a burst; each of its segments is granted at once or held. The first segment of a burst
that has more counts the split. -/
def xbarGrant (r : XbarReq) (d : Dev) : Dev :=
  let l := segments (r.len / 512 + 1) r
  let d := if r.first && (!r.last || decide (1 < l.length)) then bump d offXbarSplitCount else d
  let d := { d with xbar := { d.xbar with waiting := d.xbar.waiting ++ l.map fun q => (q, false) } }
  xbarGrants d

/-! ### The bytes behind the crossbar -/

/-- Byte k of a little-endian word. -/
def byteOf (w k : Nat) : Byte := BitVec.ofNat 8 (w / 256 ^ k)

/-- A number with its byte k replaced. -/
def setByteOf (w k : Nat) (b : Byte) : Nat := w / 256 ^ (k + 1) * 256 ^ (k + 1) + b.toNat * 256 ^ k + w % 256 ^ k

/-- A byte of a cluster's window (Table 15-2). -/
def clusterByte (d : Dev) (o : Nat) : Byte :=
  let k := o / 0x1000000
  let a := o % 0x1000000
  let m := settleAll (coreOf d (4 * k + a / 0x200000))
  let c := a % 0x200000
  if 0x800000 ≤ a then byteOf (mapGet word0 (mapGet (fun _ => []) d.vec.shared k) ((a - 0x800000) / 4)).toNat (a % 4)
  else if c < 0x40000 then byteOf (mapGet word0 m.xmem (c / 4)).toNat (c % 4)
  else if c < 0x80000 then byteOf (mapGet word0 m.ymem ((c - 0x40000) / 4)).toNat (c % 4)
  else byteOf (mapGet (fun _ => 0) m.prog ((c - 0x80000) / 8)) (c % 8)

/-- Writes a byte of a cluster's window. -/
def clusterPut (d : Dev) (o : Nat) (b : Byte) : Dev :=
  let k := o / 0x1000000
  let a := o % 0x1000000
  let core := 4 * k + a / 0x200000
  let m := settleAll (coreOf d core)
  let c := a % 0x200000
  let put := fun (w : Word) => BitVec.ofNat 32 (setByteOf w.toNat (a % 4) b)
  if 0x800000 ≤ a then
    let sh := mapUpd word0 (mapGet (fun _ => []) d.vec.shared k) ((a - 0x800000) / 4) put
    { d with vec := { d.vec with shared := mapSet (fun _ => []) d.vec.shared k sh } }
  else if c < 0x40000 then setCore d core { m with xmem := mapUpd word0 m.xmem (c / 4) put }
  else if c < 0x80000 then setCore d core { m with ymem := mapUpd word0 m.ymem ((c - 0x40000) / 4) put }
  else setCore d core { m with prog := mapUpd (fun _ => 0) m.prog ((c - 0x80000) / 8) fun w => setByteOf w (c % 8) b }

/-- The word of a bulk line at an offset of MEM0 (R136): slot, block place and sample. -/
def lineAt (n o : Nat) : Nat × Nat × Nat := (o / 131072, o % 131072 / 4 / n, o % 131072 / 4 % n)

/-- A byte of MEM0: of a bulk line, of the RC region, or of the rest. -/
def mem0Byte (d : Dev) (o : Nat) : Byte :=
  if o < 0x08000000 then
    let p := lineAt (blockN d) o
    let x := sampleAt (mapGet (fun _ => []) (mapGet (fun _ => []) d.xp.lines p.1) p.2.1) p.2.2
    byteOf (BitVec.ofInt 24 x).toNat (o % 4)
  else if 0x10000000 ≤ o ∧ o < 0x18000000 then
    match d.mem.rcRegion.find? fun e => decide (e.1 = o) with
    | some e => e.2
    | none => Config.rcRegionByte d.epc.epoch o
  else byteGet d.mem.mem0 o

/-- Writes a byte of MEM0. -/
def mem0Put (d : Dev) (o : Nat) (b : Byte) : Dev :=
  if o < 0x08000000 then
    let n := blockN d
    let p := lineAt n o
    let blk := mapGet (fun _ => []) (mapGet (fun _ => []) d.xp.lines p.1) p.2.1
    let w := setByteOf (BitVec.ofInt 24 (sampleAt blk p.2.2)).toNat (o % 4) b
    let xs := ((List.range n).map (sampleAt blk)).set p.2.2 (sext 24 (w % 2 ^ 24))
    let line := mapSet (fun _ => []) (mapGet (fun _ => []) d.xp.lines p.1) p.2.1 (trimZeros xs)
    { d with xp := { d.xp with lines := mapSet (fun _ => []) d.xp.lines p.1 line } }
  else if 0x10000000 ≤ o ∧ o < 0x18000000 then
    { d with mem := { d.mem with rcRegion := mapIns (mapDel d.mem.rcRegion o) o b } }
  else { d with mem := { d.mem with mem0 := bytesSet d.mem.mem0 o [b] } }

/-- A byte of the render configuration window: of a table, or of the rest of its half. -/
def renderByte (d : Dev) (o : Nat) : Byte :=
  let t := tableAt (o % 0x80000)
  (tableOf (if o < 0x80000 then d.mem.active else d.mem.standby) t.1).getD t.2 (byteGet d.mem.render o)

/-- Writes a byte of the standby half. -/
def renderPut (d : Dev) (o : Nat) (b : Byte) : Dev :=
  let t := tableAt (o % 0x80000)
  let p := tableOf d.mem.standby t.1
  if t.2 < p.length then { d with mem := { d.mem with standby := setTable d.mem.standby t.1 (p.set t.2 b) } }
  else { d with mem := { d.mem with render := bytesSet d.mem.render o [b] } }

/-- The ring of the error log: the highest 8 KiB of system SRAM (R427). -/
def inLogRing (o : Nat) : Bool := decide (0x3FE000 ≤ o ∧ o < 0x400000)

/-- Byte of system SRAM: entry r of the error log stands at offset 32 × r of its ring, word k at 4 × k (R427). -/
def sramByte (d : Dev) (o : Nat) : Byte :=
  let r := o - 0x3FE000
  if inLogRing o then byteOf (liveGet d (offErrLog (r / 32) (r % 32 / 4))).toNat (r % 4)
  else (bytesGet d.mem.sram o 1).getD 0 0

/-- The bytes that a read of a target returns. -/
def targetRead (d : Dev) (t o n : Nat) : List Byte :=
  match t with
  | 1 => (List.range n).map fun i => Config.romByte (o + i)
  | 2 => (List.range n).map fun i => sramByte d (o + i)
  | 3 => (List.range (n / 4)).flatMap fun i => leBytes 4 (regRead d (o + 4 * i)).toNat
  | 4 => (List.range n).map fun i => clusterByte d (o + i)
  | 5 => (List.range n).map fun i => renderByte d (o + i)
  | 6 => (List.range n).map fun i => mem0Byte d (o + i)
  | _ => mem1Run d o n

/-- Writes a byte of system SRAM; the bytes of the error log are ERR.LOG's, which is read-only (R427). -/
def sramPut (d : Dev) (o : Nat) (b : Byte) : Dev :=
  if inLogRing o then d else { d with mem := { d.mem with sram := bytesSet d.mem.sram o [b] } }

/-- A write of a target: a register word through the bridge acts as REGISTER_WRITE does. -/
def targetWrite (t o : Nat) (bs : List Byte) (d : Dev) : Dev :=
  match t with
  | 2 => bs.zipIdx.foldl (fun d b => sramPut d (o + b.2) b.1) d
  | 3 => (List.range (bs.length / 4)).foldl (fun d i =>
      (superWrite .other (o + 4 * i) (BitVec.ofNat 32 (leNat ((bs.drop (4 * i)).take 4))) d).1) d
  | 4 => bs.zipIdx.foldl (fun d b => clusterPut d (o + b.2) b.1) d
  | 5 => bs.zipIdx.foldl (fun d b => renderPut d (o + b.2) b.1) d
  | 6 => bs.zipIdx.foldl (fun d b => mem0Put d (o + b.2) b.1) d
  | 7 => mem1PutRun d o bs
  | _ => d

/-- The halves of the render configuration window exchange roles (Table 15-2). -/
def renderSwap (d : Dev) : Dev :=
  let lo := d.mem.render.filter fun e => decide (e.1 < 0x80000)
  let hi := d.mem.render.filter fun e => decide (0x80000 ≤ e.1 ∧ e.1 < 0x100000)
  let swapped := (hi.map fun e => (e.1 - 0x80000, e.2)) ++ lo.map fun e => (e.1 + 0x80000, e.2)
  { d with mem := { d.mem with active := d.mem.standby, standby := d.mem.active, render := swapped } }

/-! ### Responses (R332, R333, R344) -/

/-- Offset of a request within its target's window. -/
def txOffset (tx : XbarTx) : Nat := match windowAt tx.remap tx.req.addr with
  | some (_, o) => o
  | none => 0

/-- An insert item whose state write-back fails has delivered its block (R216). -/
def deliverFirst (d : Dev) (core : Nat) : Dev :=
  let c := coreOf d core
  match c.item with
  | none => d
  | some it => if itemKind it = 0 then d else deliver d it (settleAll c).ymem

/-- What a master does with an error response (Table 15-7). -/
def errorOutcome (tx : XbarTx) (traffic : XTraffic) (d : Dev) : Dev :=
  let off := BitVec.ofNat 32 (txOffset tx)
  match traffic with
  | .bulk s => raiseErr (bulkLost s tx.req.write (txOffset tx % 131072) tx.req.len d) (srcOf blkMem0 0) 0x0503 (BitVec.ofNat 32 s) off
  | .tail f => match feedBlock d with
    | some b => raiseErr (tailFailed f b d) (srcOf blkMem0 0) 0x0504 (BitVec.ofNat 32 f) off
    | none => raiseErr d (srcOf blkMem0 0) 0x0504 (BitVec.ofNat 32 f) off
  | .capture => if capturing d then captureError (txOffset tx) d else d
  | .sections type => match loadingSec d type with
    | some s => reloadRefuse type 11 (refuseSection type s.data d)
    | none => d
  | .staging core =>
    if coreState d core = 2 then endItem d core 2 true
    else if coreState d core = 4 then endItem (deliverFirst d core) core 2 true
    else d
  | .window core => match (coreOf d core).wait with
    | some (.window, _) => vecFault (setCore d core { coreOf d core with wait := none }) core fWindow
    | _ => if tx.req.write && (inHandler d core || (coreOf d core).item.isSome) then vecFault d core fWindow else d
  | .supervisor => raiseErr d (srcOf blkXbar 0) 0x0506 (liveGet d offXbarLastErrInfo) (BitVec.ofNat 32 tx.req.addr)
  | .debug => d

/-- A response without an error: the bytes read, or the write done. -/
def okOutcome (tx : XbarTx) (d : Dev) : Dev × List Byte :=
  match tx.target with
  | none => (d, [])
  | some t =>
    if tx.req.write then (targetWrite t (txOffset tx) (tx.req.data.take tx.req.len) d, [])
    else (d, targetRead d t (txOffset tx) tx.req.len)

/-- The region of a transaction's target is in reset: every transaction there is answered with TARGET (R16, R333). -/
def regionReset (d : Dev) (tx : XbarTx) : Bool := match tx.target with
  | some 4 => clusterHeld d (txOffset tx)
  | some 5 => fatal d
  | some 6 => !(memReady d 0)
  | some 7 => !(memReady d 1)
  | _ => false

/-- The response a transaction may get: TARGET of a region in reset, the one its decoding gave, else success, DATA of a DRAM channel, or
TARGET. Success at a DRAM channel comes after the last burst of the transaction (R332). -/
def respFits (d : Dev) (tx : XbarTx) (resp : XResp) : Bool :=
  if regionReset d tx then decide (resp = .target)
  else if tx.answer = .ok then
    match resp with
    | .ok => tx.left.isEmpty
    | .target => true
    | .data => decide (tx.target = some 6 ∨ tx.target = some 7)
    | .decode => false
  else decide (resp = tx.answer)

/-- A target serves its requests in their order of arrival, and answers in it (R332, R336). -/
def inTurn (d : Dev) (tx : XbarTx) : Bool := match tx.target with
  | none => true
  | some t => decide ((d.xbar.out.find? fun q => decide (q.target = some t)) = some tx)

/-- The master whose traffic an error response belongs to (Table 15-7). -/
def trafficOf (master : Nat) : XTraffic → Bool
  | .bulk _ => decide (master = 10)
  | .tail _ | .capture => decide (master = 11)
  | .sections _ => decide (master = 0 ∨ master = 11 ∨ master = 12 ∨ master = 17)
  | .staging core | .window core => decide (master = core / 4 + 1)
  | .supervisor => decide (master = 0 ∨ (13 ≤ master ∧ master ≤ 16))
  | .debug => decide (master = 18)

/-- XBAR_RESPONSE (R332, R333, R344): the oldest transaction of a master and ID is answered; its place frees and held requests are
granted. -/
def xbarResponse (master id : Nat) (resp : XResp) (traffic : XTraffic) (d : Dev) : Dev :=
  match d.xbar.out.find? fun t => decide (t.req.master = master ∧ t.req.id = id) with
  | none => d
  | some tx =>
    if respFits d tx resp && inTurn d tx && (decide (resp = .ok) || trafficOf master traffic) then
      let out := d.xbar.out.eraseP fun t => decide (t.req.master = master ∧ t.req.id = id)
      let d := xbarCounts master { d with xbar := { d.xbar with out := out } }
      let d := if resp = .ok then d else countError tx.req.master tx.req.addr tx.req.write resp d
      let r : Dev × List Byte := if tx.void then (d, []) else if resp = .ok then okOutcome tx d else (errorOutcome tx traffic d, [])
      let d := if tx.void then r.1
        else { r.1 with xbar := { r.1.xbar with answers :=
          (r.1.xbar.answers.filter fun a => decide (a.1 ≠ master)) ++ [(master, id, resp, r.2)] } }
      xbarGrants d
    else d

/-- MASTER_RESET (R333): granted segments are completed without effect, the others are never issued. -/
def masterReset (m : Nat) (d : Dev) : Dev :=
  let out := d.xbar.out.map fun t => if t.req.master = m then { t with void := true } else t
  let x := { d.xbar with out := out, waiting := d.xbar.waiting.filter fun w => decide (w.1.master ≠ m),
                         answers := d.xbar.answers.filter fun a => decide (a.1 ≠ m) }
  { d with xbar := x }

/-- The unit that a kind of traffic names exists. -/
def trafficOk : XTraffic → Bool
  | .bulk s => decide (s < 1024)
  | .tail f => decide (f < 512)
  | .staging core | .window core => decide (core < 36)
  | _ => true

/-- XBAR_GRANT (R329). -/
def execXbarGrant (req : XbarReq) (s : State) : Host.Outcome State Fault Refusal :=
  ranIf (decide (req.master < 19)) s (xbarGrant req)

/-- XBAR_RESPONSE (R344). -/
def execXbarResponse (master id : Nat) (resp : XResp) (traffic : XTraffic) (s : State) : Host.Outcome State Fault Refusal :=
  ranIf (decide (master < 19) && trafficOk traffic) s (xbarResponse master id resp traffic)

/-- MASTER_RESET (R333). -/
def execMasterReset (master : Nat) (s : State) : Host.Outcome State Fault Refusal :=
  ranIf (decide (master < 19)) s (masterReset master)

end Sys2Proof.Machine
end

