-- ==== Sys2Proof/Machine/Epoch.lean ====
section
/-!
DEFINITION. Sys2Proof/Machine/Epoch.lean: the start of an epoch (R30, R31, R35, R41, R419), with a timebase that runs on or loads.
-/
namespace Sys2Proof.Machine

/-! ### Performance counters -/

/-- The units of a crosspoint cluster are powered and clocked: those of an active position, and those of the moon while it takes part in a
patrol or a replacement (R365, R366, R371). -/
def laneClocked (d : Dev) (cluster : Nat) : Bool :=
  !(d.moon.xpRetired.contains cluster) &&
    (d.moon.xpPlaces.contains cluster || d.moon.patrols.any (fun p => decide (p.1 = 0)) || d.moon.jobs.any fun j => decide (j.pool = 0))

/-- Counter blocks of a unit that is power-gated, or whose cluster is isolated: it counts nothing (R365, R417). -/
def perfGated (d : Dev) (b : Nat) : Bool :=
  (decide (b < 20) && !(laneClocked d (b / 4))) || (decide (20 ≤ b ∧ b < 56) && decide ([0, 5].contains (coreState d (b - 20))))

/-- The unit of a counter block was power-gated from the start of the epoch that ends to its end. -/
def perfOff (d : Dev) (b : Nat) : Bool := perfGated d b && d.perf.gated.contains b && !(d.perf.mixed.contains b)

/-- The unit of a counter block was powered all through the epoch that ends. -/
def perfOn (d : Dev) (b : Nat) : Bool := !(perfGated d b || d.perf.gated.contains b || d.perf.mixed.contains b)

/-- Cycles of a block's clock in the epoch that ends. RND runs exactly 200,000 cycles in an epoch of a locked media clock (R26); the
others, the lanes of the moon cluster and a unit that was gated for a part of the epoch are free (assumption log entry 15). -/
def perfCycles (d : Dev) (b : Nat) : Nat :=
  let lane := decide (b < 20) && d.moon.xpPlaces.contains (b / 4)
  let mac := decide (60 ≤ b ∧ b < 76)
  if perfOff d b then 0
  else if (lane || mac) && perfOn d b && decide (timebase d ≠ 0) then 200000
  else (Config.cycles 39 (d.epc.epoch * 128 + b)).toNat

/-- Events of Table 18-10 that commands of this model count one by one; of the others an epoch's count is free. -/
def perfCounted (b c : Nat) : Bool :=
  if b < 20 then false
  else if b < 56 then [0x10, 0x14, 0x15].contains c
  else if b < 76 then false
  else if b < 79 then [0x10, 0x11, 0x12].contains c
  else [0x10, 0x11, 0x12, 0x13, 0x14, 0x16, 0x17].contains c

/-- What counter k of a block adds at the end of an epoch: clock cycles, and what this model does not time, which are the events of
`perfCounted` false and, with EDGE = 1, how many cycles of an event follow one without it; the pauses of a DRAM controller are counted
one by one (`perfSpan`). -/
def perfRest (d : Dev) (b k cycles : Nat) : Nat :=
  let w := actGet d (offPerfEvsel b k)
  let c := bits w 7 0
  if c = 0 then 0
  else if c = 1 then (if bit w 8 then 0 else cycles)
  else if perfCounted b c && (!(bit w 8) || (decide (79 ≤ b ∧ c = 0x17))) then 0
  else (Config.cycles 40 ((d.epc.epoch * 128 + b) * 8 + k)).toNat

/-- The counters at the end of an epoch (R417). -/
def perfEnd (d : Dev) : Dev :=
  let on := running d blkPerf && !(liveB d offPerfStatus 0)
  (List.range 81).foldl (fun d b =>
    let n := perfCycles d b
    let d := { d with perf := { d.perf with cycles := mapSet (fun _ => 0) d.perf.cycles b
                                              ((mapGet (fun _ => 0) d.perf.cycles b + n) % 2 ^ 64) } }
    if on && !(perfOff d b) then
      (List.range 8).foldl (fun d k => match perfRest d b k n with
        | 0 => d
        | m => perfAdd d b k m) d
    else d) d

/-- The snapshot latches every counter (R419). -/
def perfShow (d : Dev) : Dev :=
  d.perf.cycles.foldl (fun d e =>
    liveSet (liveSet d (offPerfCycleLo e.1) (BitVec.ofNat 32 e.2)) (offPerfCycleHi e.1) (BitVec.ofNat 32 (e.2 / 2 ^ 32))) d

/-- Clears programmable counter k of block b. -/
def perfZero (d : Dev) (b k : Nat) : Dev := liveSet (liveSet d (offPerfCntLo b k) 0) (offPerfCntHi b k) 0

/-- A counter whose CODE or EDGE changed at the commit of this epoch start is cleared (R418). -/
def perfReselect (d : Dev) : Dev :=
  if committedNow d then
    (List.range 81).foldl (fun d b => (List.range 8).foldl (fun d k =>
      if bits (before d (offPerfEvsel b k)) 8 0 = actF d (offPerfEvsel b k) 8 0 then d else perfZero d b k) d) d
  else d

/-- Every programmable counter is cleared. -/
def perfZeroAll (d : Dev) : Dev := (List.range 81).foldl (fun d b => (List.range 8).foldl (fun d k => perfZero d b k) d) d

/-- A freeze keeps the cycle counts of its epoch start for the CYCLE registers (R419). -/
def perfHold (d : Dev) : Dev :=
  { d with perf := { d.perf with frozen := d.regs.live.filter fun e => perfValue e.1 && decide (e.1 % 0x100 < 8) } }

/-- The actions of PERF after the snapshot is latched, in the order of R419; the units that are gated as the epoch begins are noted. -/
def perfActions (d : Dev) : Dev :=
  let d := perfReselect d
  let d := if actB d offPerfCtrl 1 then perfZeroAll d else d
  let d := if d.perf.clear then (List.range 81).foldl (fun d b => liveSet d (offPerfOvf b) 0) (perfZeroAll d) else d
  let d := if d.perf.freeze && !(liveB d offPerfStatus 0) then
      perfHold (liveSetB (liveSet48 d offPerfFrozenEpochLo offPerfFrozenEpochHi d.epc.epoch) offPerfStatus 0 true)
    else d
  let d := if d.perf.release then liveSetB d offPerfStatus 0 false else d
  let gated := (List.range 81).filter (perfGated d)
  liveSetB { d with perf := { d.perf with freeze := false, release := false, clear := false, gated := gated, mixed := [] } }
    offPerfStatus 1 false

/-! ### The commit -/

/-- XP and RC do not start on a MEM0 that is too slow (R345). -/
def rateJudge (d : Dev) : Dev :=
  let starts := fun b => actB d (b * 0x100000) 0 && !(bit (before d (b * 0x100000)) 0)
  if starts blkXp || starts blkRc then
    if memRate d 0 < (if blockN d = 32 then 2 else 1) then
      let d := liveSetB d (offMemStatus 0) 2 true
      raiseErr d (srcOf blkMem0 0) 0x010A (liveGet d (offMemStatus 0)) 0
    else liveSetB d (offMemStatus 0) 2 false
  else d

/-- The render tables of a reload become active with it. -/
def reloadTables (d : Dev) : Bool := match d.boot.reload with
  | some l => l.secs.any fun s => decide (0x10 ≤ s.type ∧ s.type ≤ 0x12)
  | none => false

/-- The pending commit is applied at its epoch (R35), unless a Fatal error has been raised (R422). -/
def commitApply (d : Dev) : Dev :=
  match d.epc.commit with
  | none => d
  | some e =>
    if d.epc.epoch < e ∨ fatal d = true then d
    else
      let joined := d.epc.joined
      let d := genMakeAll (genCommit (commitCopy (setPending d none))) d.epc.epoch
      let d := setResult (liveSet48 (bump d offEpcCommitCount) offEpcAppliedEpochLo offEpcAppliedEpochHi d.epc.epoch) .applied
      let d := raiseOwn d 5
      let d := if joined then reloadApply (if reloadTables d then renderSwap d else d) else d
      soundUpdate (rateJudge d)

/-! ### An epoch start -/

/-- The epoch in progress ends: its conditioned blocks and IN inserts are joined, its counters stand. -/
def epochEnds (d : Dev) : Dev := perfEnd (joinIn (cndFlush d))

/-- Epoch e begins `at'` (in 1/48 ns of the count): nothing of it has passed, and the block made for it is presented (R22). -/
def epochBegins (e : Nat) (at' : Int) (d : Dev) : Dev :=
  present { d with epc := { d.epc with epoch := e % 2 ^ 48, cutoff := false, period := 0 },
                   servo := { d.servo with epochAt := at' } }

/-- What each block does at an epoch start. -/
def unitStarts (d : Dev) : Dev :=
  let d := memEpoch (netRun (netRun d 0) 1)
  let d := ptpEpoch (ptpEpoch d 0) 1
  let d := pathsEpoch (clkEpoch (followEpoch (servoEpoch (sapEpoch d))))
  let d := objEpoch (cndEpoch d)
  let d := captureEpoch (rcEpoch (xpEpoch d))
  let d := wdEpoch (moonEpoch (vecEpoch d))
  let d := linkReports (mgmtEpoch (twnEpoch d))
  let d := bootEpoch d
  { d with boot := { d.boot with ptpRun := if timebase d = 1 then d.boot.ptpRun + 1 else 0 } }

/-- Status that reports how things stand, before the snapshot. -/
def statusReports (d : Dev) : Dev := perfShow (geoReport (svcReport (moonReports (memReports (corePriReport (wdCounts d))))))

/-- The start of an epoch, after its number has been set (R35, R41, R42). The windows of MEM0 open, so held requests are granted (R346). -/
def epochActions (d : Dev) : Dev :=
  let d := raiseEvt (netEpoch (netEpoch d 0) 1) 4
  let d := statusReports (unitStarts (commitApply d))
  xbarGrants (bulkEpoch (cndLand (divergenceReport (perfActions (wdAfter (commitLatch (latchSnapshot (holdExpire d))))))))

/-- EPOCH_START (R30): the next epoch begins. While FREE it is not the boundary once the servo has locked (R31). -/
def epochStart (d : Dev) : Dev :=
  if d.boot.phase = .reset ∨ (timebase d = 0 ∧ d.servo.lockedAt.isSome = true) then d
  else epochActions (epochBegins (d.epc.epoch + 1) (d.servo.epochAt + 16000000) (epochEnds d))

/-! ### The timebase loads -/

/-- A label of the sample path, moved by a number of epochs. -/
def moved (by' : Int) (e : Nat) : Nat := ((e : Int) + by').toNat

/-- Labels of a list, moved. -/
def movedList {α : Type} (by' : Int) (l : List (Nat × α)) : List (Nat × α) := l.map fun e => (moved by' e.1, e.2)

/-- The blocks between the stages keep their order when the epoch number jumps: each carries the number it would have had. -/
def movePath (k : Int) (p : Path) : Path :=
  let at' := fun (b : BlockAt) => { b with epoch := moved k b.epoch, block := moved k b.block }
  { p with
    cond := movedList k p.cond, unsettled := movedList k p.unsettled, slots := p.slots.map at', reduced := p.reduced.map at',
    corrected := p.corrected.map fun c => { c with epoch := moved k c.epoch, feeds := moved k c.feeds, buses := moved k c.buses },
    trimmed := p.trimmed.map at', early := p.early.map at', made := movedList k p.made, shown := movedList k p.shown,
    binds := movedList k p.binds }

/-- The places of a bulk line, which go by epoch modulo the line's length. -/
def moveLine (n : Nat) (k : Int) (l : List (Nat × List Int)) : List (Nat × List Int) :=
  l.foldl (fun m e => mapSet (fun _ => []) m (((e.1 : Int) + k) % (lineBlocks n : Int)).toNat e.2) []

/-- Tail chunks that hold a moved chunk of a feed. -/
def moveChunk (n : Nat) (k : Int) (e : Nat × Nat) : List (Nat × Nat) :=
  let m := moved k (e.2 * tailBlocks n) / tailBlocks n
  [(e.1, m + 1), (e.1, m)]

/-- Labels of XP, GEO, OBJ and CND. -/
def moveRender (k : Int) (d : Dev) : Dev :=
  let x := d.xp
  let lines := x.lines.map fun e => (e.1, moveLine (blockN d) k e.2)
  { d with
    xp := { x with pool := movedList k x.pool, lines := lines, block := x.block.map (moved k), lastBlock := x.lastBlock.map (moved k),
                   holds := x.holds.map fun h => (h.1, moved k h.2.1, h.2.2),
                   dead := x.dead.map fun p => (p.1, p.2.map (moved k)) }
    geo := { d.geo with targets := movedList k d.geo.targets }
    obj := { d.obj with jumps := movedList k d.obj.jumps, active := movedList k d.obj.active,
                        srcs := d.obj.srcs.map fun e => (e.1, { e.2 with last := moved k e.2.last }),
                        slots := d.obj.slots.map fun e =>
                          (e.1, { e.2 with late := e.2.late.map fun r => (moved k r.1, r.2) }) }
    cnd := { d.cnd with slots := d.cnd.slots.map fun e =>
              (e.1, { e.2 with restart := e.2.restart.map fun r => (moved k r.1, r.2) }) } }

/-- Labels of RC, the inserts and the capture. -/
def moveCorrect (k : Int) (d : Dev) : Dev :=
  let r := d.rc
  let phase := match r.phase with
    | .parallel b => .parallel (moved k b)
    | .transformed e => .transformed (moved k e)
    | x => x
  { d with
    rc := { r with phase := phase, swap := r.swap.map fun s => (moved k s.1, s.2),
                   last := r.last.map fun l => (moved k l.1, moved k l.2), lost := r.lost.flatMap (moveChunk (blockN d) k) }
    wd := { d.wd with prior := d.wd.prior.map fun e => (moved k e.1, e.2), stages := d.wd.stages.map fun s =>
              (s.1, { s.2 with
                off := s.2.off.map (moved k), done := s.2.done.map (moved k)
                blocks := s.2.blocks.map fun b => { b with epoch := moved k b.epoch, block := moved k b.block } }) }
    cap := { d.cap with start := d.cap.start.map (moved k), block := movedList k d.cap.block.toList |>.head?,
                        refs := d.cap.refs.map fun e => (moved (4 * k) e.1, e.2) } }

/-- Moves the labels of a controller: times stand in engine periods, 64 an epoch (R341). -/
def moveDram (k : Int) (m : Dram) : Dram :=
  let at' := fun (t : Nat) => moved k (t / 64) * 64 + t % 64
  { m with paused := m.paused.map (moved k), restAt := m.restAt.map at', trainedAt := m.trainedAt.map at' }

/-- Labels of the sample path, of XP's moon and of what runs for a number of epochs. Numbers recorded for a reader stay (R31). -/
def moveLabels (k : Int) (d : Dev) : Dev :=
  let m := d.moon
  let d := moveCorrect k (moveRender k d)
  { d with
    regs := { d.regs with act := movedList k d.regs.act }
    path := movePath k d.path
    dram0 := moveDram k d.dram0, dram1 := moveDram k d.dram1
    ptpi := { d.ptpi with since := d.ptpi.since.map (moved k) }
    ptpo := { d.ptpo with since := d.ptpo.since.map (moved k) }
    twn := { d.twn with digests := movedList k d.twn.digests, reduced := d.twn.reduced.map (moved k) }
    moon := { m with jobs := m.jobs.map fun j => if j.planned then j else { j with epoch := moved k j.epoch },
                     patrols := m.patrols.map fun p => (p.1, { p.2 with since := moved k p.2.since }),
                     xpCkpt := m.xpCkpt.map fun c => (c.1, movedList k c.2),
                     vecCkpt := m.vecCkpt.map fun c => (c.1, movedList k c.2),
                     recover := m.recover.map (moved k) } }

/-- The epoch that the timebase loads (R29, R31): the first media-time boundary at or after the lock, a nominal epoch or more after
the FREE epoch began. The lock is given in 1/16 ns of the count. -/
def loadEpoch (d : Dev) (lock : Int) : Nat :=
  let t := max (3 * lock) (d.servo.epochAt + 16000000) + 3 * d.servo.base
  ((t + 15999999) / 16000000).toNat

/-- TIMEBASE_LOAD (R31): the FREE epoch ends at a media-time boundary, where the epoch counter loads and TIMEBASE becomes PTP. -/
def timebaseLoad (d : Dev) : Dev :=
  match d.servo.lockedAt with
  | none => d
  | some lock =>
    if timebase d ≠ 0 ∨ d.boot.phase = .reset then d
    else
      let e := loadEpoch d lock
      let begins := 16000000 * (e : Int) - 3 * d.servo.base
      let d := moveLabels ((e : Int) - ((d.epc.epoch : Int) + 1)) (epochEnds d)
      let d := if d.epc.commit.isSome then setResult (setPending d none) .cancelled else d
      let d := setTimebase { d with servo := { d.servo with lockedAt := none }, path := { d.path with loadEpoch := e % 2 ^ 48 } } 1
      epochActions (genMakeAll (genLoaded (epochBegins e begins d)) (e % 2 ^ 48))

/-- EPOCH_START (R30). -/
def execEpochStart (s : State) : Host.Outcome State Fault Refusal := ran s epochStart

/-- TIMEBASE_LOAD (R31). -/
def execTimebaseLoad (s : State) : Host.Outcome State Fault Refusal := ran s timebaseLoad

end Sys2Proof.Machine
end

