-- ==== Sys2Proof/Machine/Power.lean ====
section
/-!
DEFINITION. Sys2Proof/Machine/Power.lean: the power controller (chapter 20): sequencing of rails 0 to 5, rail faults, telemetry,
the thermal sensors, PORST_N and the straps.
-/
namespace Sys2Proof.Machine

/-- PWR_EXT was strapped high (R440). -/
def pwrExt (d : Dev) : Bool := liveB d offPmcStraps 1

/-- The detector finds a rail in its window. -/
def railIn (d : Dev) (r : Nat) : Bool := liveB d (offPmcRailStatus r) 1

/-- A rail of index 0 to 5 has qualified: brought up by the PMC, or power good with PWR_EXT (R442). -/
def railQualifiedNow (d : Dev) (r : Nat) : Bool :=
  decide (r < 6) && (if pwrExt d then decide (seqState d = 2) else liveB d (offPmcRailStatus r) 2)

/-- SEQ_STATE and SEQ_RAIL. -/
def seqTo (state rail : Nat) (d : Dev) : Dev := liveSetF (liveSetF d offPmcStatus 2 0 state) offPmcStatus 15 12 rail

/-- R439 starts from rail 0; with PWR_EXT the PMC waits for the rails (R440). -/
def seqStart (d : Dev) : Dev := seqTo (if pwrExt d then 0 else 1) 0 d

/-- A rail fault (R442): the reset state, the record in LAST_FAULT and, in PMC mode, rails 5 down to 0 off. -/
def railFaultEntry (rail cause : Nat) (d : Dev) : Dev :=
  let d := liveSetF (porstReset d) offPmcStatus 2 0 3
  let d := bumpSat d offPmcLastFault 31 24
  let d := liveSetF (liveSetF d offPmcLastFault 11 8 rail) offPmcLastFault 2 0 cause
  if pwrExt d then d
  else
    let d := (List.range 6).foldl (fun d r => liveSetF d (offPmcRailStatus r) 2 1 0) d
    liveSetF d offSapStatus 1 0 0

/-- STANDBY_RESET_RELEASE (R438, R446, R463): the boot set is in its windows and the PMC starts. -/
def standbyRelease (ext test : Bool) (d : Dev) : Dev :=
  if d.boot.standby then
    let d := { d with boot := { d.boot with standby := false } }
    let d := liveSetB (liveSetB d offPmcStraps 1 ext) offPmcStraps 2 test
    seqStart ([6, 7, 8, 9].foldl (fun d r => liveSetB d (offPmcRailStatus r) 1 true) d)
  else d

/-- STANDBY_RESET_ASSERT (R441): the whole device is reset, PMC included. The level of TWIN_SIDE sampled at the last release of
PORST_N stays. -/
def standbyAssert (d : Dev) : Dev :=
  if d.boot.standby then d
  else
    let n := resetDev false 0x200 { d with boot := { d.boot with standby := true } }
    liveSetB n offPmcStraps 0 (!d.boot.porst && liveB d offPmcStraps 0)

/-- RAIL_IN_WINDOW (R437, R439, R323): the detector reports a rail in its window; it finds the voltage of a serial port bank. -/
def railInWindow (rail : Nat) (v33 : Bool) (d : Dev) : Dev :=
  if d.boot.standby || railIn d rail then d
  else
    let d := liveSetB d (offPmcRailStatus rail) 1 true
    if rail = 4 then liveSetB d offSapStatus 0 v33 else if rail = 5 then liveSetB d offSapStatus 1 v33 else d

/-- The PMC sequences a rail. -/
def sequencing (d : Dev) (rail : Nat) : Bool :=
  !d.boot.standby && decide (seqState d = 1 ∧ liveF d offPmcStatus 15 12 = rail)

/-- RAIL_QUALIFIED (R439, R445): the next rail follows; after rail 5 PWRGD_OUT rises and, with PORST_N high, the boot starts. -/
def railQualified (rail : Nat) (d : Dev) : Dev :=
  if sequencing d rail && railIn d rail then
    let d := liveSetB (liveSetB d (offPmcRailStatus rail) 2 true) (offPmcRailStatus rail) 0 true
    if rail < 5 then seqTo 1 (rail + 1) d else releaseCheck true (seqTo 2 rail d)
  else d

/-- RAIL_SEQUENCE_TIMEOUT (R439): the sequence ends as a rail fault; `noAnswer` says that all 4 attempts of the OPERATION write
failed. -/
def railTimeout (rail : Nat) (noAnswer : Bool) (d : Dev) : Dev :=
  if sequencing d rail then
    let d := if noAnswer then liveSetB d (offPmcRailStatus rail) 0 false else liveSetB d (offPmcRailStatus rail) 0 true
    railFaultEntry rail (if noAnswer then 2 else 1) d
  else d

/-- RAIL_FAULT (R437, R442): a rail left its window, which is a rail fault once it has qualified. -/
def railFault (rail : Nat) (overVolts : Bool) (d : Dev) : Dev :=
  if d.boot.standby then d
  else
    let out := liveSetB d (offPmcRailStatus rail) 1 false
    if railQualifiedNow d rail then railFaultEntry rail (if overVolts then 4 else 3) out else out

/-- A STATUS_WORD that is a rail fault: OFF, VOUT_OV_FAULT, IOUT_OC_FAULT or TEMPERATURE (R442). -/
def statusFaulty (w : BitVec 16) : Bool := w.getLsbD 6 || w.getLsbD 5 || w.getLsbD 4 || w.getLsbD 2

/-- The first rail of index 0 to 5 whose regulator gives a faulty STATUS_WORD, qualified or not (R442; assumption log entry 33). -/
def faultyRail (readings : List RailReading) : Option Nat :=
  (List.range 6).find? fun r => match readings[r]? with
    | some x => x.present && statusFaulty x.status
    | none => false

/-- A regulator's answer to a read of STATUS_WORD. -/
def statusRead (d : Dev) (e : RailReading × Nat) : Dev :=
  let off := offPmcRailStatus e.2
  if e.1.present then liveSetB (liveSetF d off 31 16 e.1.status.toNat) off 0 true else liveSetB d off 0 false

/-- The rail fault that the words of the regulators call for, if any. -/
def statusFaultCheck (readings : List RailReading) (d : Dev) : Dev := match faultyRail readings with
  | some r => railFaultEntry r 5 d
  | none => d

/-- PMB_ALERT (R442): STATUS_WORD of every answering regulator is read; `status` gives them by rail. -/
def pmbAlert (status : List RailReading) (d : Dev) : Dev :=
  if d.boot.standby then d else statusFaultCheck status ((status.take 10).zipIdx.foldl statusRead d)

/-- What one regulator answers to a poll: its measurements, and TELEM_ERR where one that answered before does not. -/
def telemetryRead (d : Dev) (e : RailReading × Nat) : Dev :=
  if e.1.present then
    let d := statusRead d e
    let d := liveSetF (liveSetF d (offPmcRailMeas e.2) 15 0 (e.1.vout % 65536)) (offPmcRailMeas e.2) 31 16 (e.1.iout % 65536)
    liveMax d (offPmcRailImax e.2) 15 0 (e.1.iout % 65536)
  else if liveB d (offPmcRailStatus e.2) 0 then liveSetB (statusRead d e) offPmcStatus 5 true
  else d

/-- TELEMETRY_POLL (R442, PMC.TELEMETRY). -/
def telemetryPoll (readings : List RailReading) (d : Dev) : Dev :=
  if d.boot.standby || !(actB d offPmcTelemetry 8) then d
  else statusFaultCheck readings ((readings.take 10).zipIdx.foldl telemetryRead d)

/-! ### Thermal (R452 to R455) -/

/-- A temperature in 1/256 °C as a Q8.8 word; where Q8.8 does not hold it the word is free (assumption log entry 32). -/
def thermWord (t : Int) : Nat := if -32768 ≤ t ∧ t < 32768 then (BitVec.ofInt 16 t).toNat else (Config.thermOpen t).toNat

/-- Sensors that are valid, with their readings: sensors 0 to 4 need VDD_CD (R452). -/
def validReadings (d : Dev) (tj : List Int) : List (Nat × Int) :=
  (List.range 8).filterMap fun s => if s < 5 ∧ railIn d 0 = false then none else tj[s]?.map fun t => (s, t)

/-- The highest reading and its sensor, the lowest of equals. -/
def hottest (l : List (Nat × Int)) : Option (Nat × Int) :=
  l.foldl (fun (m : Option (Nat × Int)) e => match m with
    | none => some e
    | some x => some (if x.2 < e.2 then e else x)) none

/-- TJ and MAX of every sensor. -/
def thermRegs (l : List (Nat × Int)) (d : Dev) : Dev :=
  (List.range 8).foldl (fun d s => match l.find? fun e => decide (e.1 = s) with
    | none => liveSetF d (offPmcTherm s) 15 0 0x8000
    | some e =>
      let d := liveSetF d (offPmcTherm s) 15 0 (thermWord e.2)
      if (BitVec.ofNat 16 (liveF d (offPmcTherm s) 31 16)).toInt < e.2 then liveSetF d (offPmcTherm s) 31 16 (thermWord e.2) else d) d

/-- A thermal entry, unless the device is in reset, where nothing is logged. -/
def thermEntry (code : Nat) (e : Nat × Int) (d : Dev) : Dev :=
  if d.boot.phase = .reset then d else raiseErr d (srcOf blkSys (8 + e.1)) code (BitVec.ofInt 32 e.2) 0

/-- The thermal alarm sets (R453). -/
def thermAlarm (l : List (Nat × Int)) (d : Dev) : Dev := match hottest l with
  | some e =>
    if 26880 ≤ e.2 ∧ liveB d offPmcStatus 6 = false then
      thermEntry 0x0003 e (bump (liveSetB d offPmcStatus 6 true) offPmcThermCount)
    else d
  | none => d

/-- THERMAL_SHUTDOWN (R454): a sensor that reads 125 degrees twice raises it, each sensor once until PORST_N falls (assumption log entry
242); the PMC switches VDD_CD off. -/
def thermShutdown (twice : List (Nat × Int)) (d : Dev) : Dev :=
  let new := twice.filter fun e => !(d.pmc.shut.contains e.1)
  if new.isEmpty then d
  else
    let d := new.foldl (fun d e => thermEntry 0x0004 e d) d
    let d := liveSetB { d with pmc := { d.pmc with shut := d.pmc.shut ++ new.map (·.1) } } offPmcStatus 7 true
    if pwrExt d then d else liveSetF (liveSetB d offPmcStatus 8 true) (offPmcRailStatus 0) 2 1 0

/-- THERMAL_SAMPLE (R452 to R455): `tj` gives the sensors' readings in 1/256 °C. A sensor that comes to meet a condition of R455 makes one
rail fault, and another only after it has ceased to meet it or PORST_N has fallen (assumption log entry 242). -/
def thermalSample (tj : List Int) (d : Dev) : Dev :=
  if d.boot.standby then d
  else
    let l := validReadings d tj
    let was := d.pmc.burnt
    let hot := l.filter fun e => decide (32000 ≤ e.2)
    let hotter := l.filter fun e => decide (5 ≤ e.1 ∧ 34560 ≤ e.2)
    let twice := hot.filter fun e => d.pmc.hot.contains e.1
    let burnt := (hotter.filter fun e => d.pmc.hotter.contains e.1).map (·.1) ++
      (if d.boot.phase = .reset then twice.map (·.1) else [])
    let cool := if l.all (fun e => decide (e.2 ≤ 25600)) then d.pmc.cool + 1 else 0
    let d := thermAlarm l (thermRegs l d)
    let d : Dev := { d with pmc := { d.pmc with hot := hot.map (·.1), hotter := hotter.map (·.1), cool := cool, burnt := burnt } }
    if burnt.any fun s => !(was.contains s) then railFaultEntry 0 6 d
    else if d.boot.phase = .reset then d
    else thermShutdown twice d

/-- THERMAL_ALARM_CLEAR (R453): a thousand samples, 1 s, with every sensor at 100 degrees or less. -/
def thermalAlarmClear (d : Dev) : Dev :=
  if liveB d offPmcStatus 6 = true ∧ 1000 ≤ d.pmc.cool then
    let l := (List.range 8).filterMap fun s =>
      let w := liveF d (offPmcTherm s) 15 0
      if w = 0x8000 then none else some (s, (BitVec.ofNat 16 w).toInt)
    let d := liveSetB d offPmcStatus 6 false
    match hottest l with
    | some e => thermEntry 0x0003 e d
    | none => d
  else d

/-! ### Output balls (R447, R449, Tables 20-5 and 20-6) -/

/-- The flash is read from boot step 3 on. -/
def flashInUse (d : Dev) : Bool := decide (d.boot.phase ≠ .reset ∧ d.boot.phase ≠ .lock)

/-- How an output ball is driven between the commands: as Table 20-5 gives until the image has enabled its interface, and as its own unit
drives it from then on. SVC_MISO and TDO are driven within a frame and a shift alone. -/
def ballOut (d : Dev) (b : Ball) : Drive :=
  match b with
  | .serdesTx l =>
    if running d (match l with | 0 => blkNeti | 1 => blkNeto | 4 => blkMgt | _ => blkTwn) then .own else .idle
  | .sapOut _ => if running d blkSap && drivesOut d then .own else .pulledDown
  | .mclkOut n => if mclkDriven d n then .own else .pulledDown
  | .oscTune => if oscDriven d then .own else .highZ
  | .oscTuneSclk => .low
  | .oscTuneCsN => .high
  | .activeOut => if liveB d offTwnStatus 2 then .high else .low
  | .pwrgdOut => if seqState d = 2 then .high else .low
  | .thermAlertN => if liveB d offPmcStatus 6 || !d.pmc.shut.isEmpty then .low else .highZ
  | .xspiCsN => if flashInUse d then .own else .pulledUp
  | .xspiSclk => if flashInUse d then .own else .low
  | .xspiIo => if flashInUse d then .own else .highZ
  | .xspiResetN => if flashInUse d then .own else .low
  | .svcMiso | .tdo => .highZ
  | .memResetN ch => if pllOn d (2 + ch) then .own else .low
  | .memCsN ch => if pllOn d (2 + ch) then .own else .high
  | .memOther ch => if pllOn d (2 + ch) then .own else .low

/-! ### PORST_N and the straps -/

/-- PORST_FALL (R444): everything but the standby domain is reset; after a rail fault the rails are brought up again (R442). -/
def porstFall (d : Dev) : Dev :=
  if d.boot.porst then d
  else
    let d := porstReset { d with boot := { d.boot with porst := true }, pmc := { d.pmc with shut := [], burnt := [] } }
    if seqState d = 3 then seqStart d else d

/-- PWR_EXT_POWER_GOOD (R440, R445): PWRGD_OUT rises. -/
def extPowerGood (d : Dev) : Dev :=
  if !d.boot.standby && pwrExt d && decide (seqState d = 0) then
    releaseCheck true (liveSetF ((List.range 10).foldl (fun d r => liveSetB d (offPmcRailStatus r) 1 true) d) offPmcStatus 2 0 2)
  else d

/-- TEST_MODE_CHANGE (R446): the device stays in reset while TEST_MODE is high. -/
def testModeChange (level : Bool) (d : Dev) : Dev :=
  if level then
    let d := liveSetB d offPmcStraps 2 true
    if d.boot.phase = .reset then d else porstReset d
  else releaseCheck (liveB d offPmcStraps 2) (liveSetB d offPmcStraps 2 false)

/-- STANDBY_RESET_RELEASE (R438). -/
def execStandbyResetRelease (ext testMode : Bool) (s : State) : Host.Outcome State Fault Refusal := ran s (standbyRelease ext testMode)

/-- STANDBY_RESET_ASSERT (R441). -/
def execStandbyResetAssert (s : State) : Host.Outcome State Fault Refusal := ran s standbyAssert

/-- RAIL_IN_WINDOW (R439). -/
def execRailInWindow (rail : Nat) (v33 : Bool) (s : State) : Host.Outcome State Fault Refusal :=
  ranIf (decide (rail < 10)) s (railInWindow rail v33)

/-- RAIL_QUALIFIED (R439). -/
def execRailQualified (rail : Nat) (s : State) : Host.Outcome State Fault Refusal :=
  ranIf (decide (rail < 6)) s (railQualified rail)

/-- RAIL_SEQUENCE_TIMEOUT (R439). -/
def execRailSequenceTimeout (rail : Nat) (noAnswer : Bool) (s : State) : Host.Outcome State Fault Refusal :=
  ranIf (decide (rail < 6)) s (railTimeout rail noAnswer)

/-- RAIL_FAULT (R442). -/
def execRailFault (rail : Nat) (overVolts : Bool) (s : State) : Host.Outcome State Fault Refusal :=
  ranIf (decide (rail < 6)) s (railFault rail overVolts)

/-- PMB_ALERT (R442). -/
def execPmbAlert (status : List RailReading) (s : State) : Host.Outcome State Fault Refusal := ran s (pmbAlert status)

/-- TELEMETRY_POLL (R442). -/
def execTelemetryPoll (readings : List RailReading) (s : State) : Host.Outcome State Fault Refusal := ran s (telemetryPoll readings)

/-- THERMAL_SAMPLE (R453). -/
def execThermalSample (tj : List Int) (s : State) : Host.Outcome State Fault Refusal := ran s (thermalSample tj)

/-- THERMAL_ALARM_CLEAR (R453). -/
def execThermalAlarmClear (s : State) : Host.Outcome State Fault Refusal := ran s thermalAlarmClear

/-- PORST_FALL (R444). -/
def execPorstFall (s : State) : Host.Outcome State Fault Refusal := ran s porstFall

/-- PWR_EXT_POWER_GOOD (R440). -/
def execPwrExtPowerGood (s : State) : Host.Outcome State Fault Refusal := ran s extPowerGood

/-- TEST_MODE_CHANGE (R446). -/
def execTestModeChange (level : Bool) (s : State) : Host.Outcome State Fault Refusal := ran s (testModeChange level)

end Sys2Proof.Machine
end

