-- ==== Sys2Proof/Machine/VecArith.lean ====
section
/-!
DEFINITION. Sys2Proof/Machine/VecArith.lean: the MAC and ALU instructions of the vector cores (R185, R186, R189, Tables 9-9 and 9-12).
-/
namespace Sys2Proof.Machine

/-- MPY: ACC takes the product (R185, Table 9-9). -/
def execMpy (core form s t a lanes : Nat) (x y : MoveField) (g : AguField) (st : State) :
    Host.Outcome State Fault Refusal :=
  issued core (.mac .mpy form s t a lanes) x y g st

/-- MAC: the product is added to ACC (R186, Table 9-9). -/
def execMacAdd (core form s t a lanes : Nat) (x y : MoveField) (g : AguField) (st : State) :
    Host.Outcome State Fault Refusal :=
  issued core (.mac .mac form s t a lanes) x y g st

/-- MSU: the product is subtracted from ACC (R186, Table 9-9). -/
def execMsu (core form s t a lanes : Nat) (x y : MoveField) (g : AguField) (st : State) :
    Host.Outcome State Fault Refusal :=
  issued core (.mac .msu form s t a lanes) x y g st

/-- MPYN: ACC takes the negated product (R186, Table 9-9). -/
def execMpyn (core form s t a lanes : Nat) (x y : MoveField) (g : AguField) (st : State) :
    Host.Outcome State Fault Refusal :=
  issued core (.mac .mpyn form s t a lanes) x y g st

/-- CLR: ACC takes zero (R211). -/
def execClr (core a lanes : Nat) (x y : MoveField) (g : AguField) (st : State) :
    Host.Outcome State Fault Refusal :=
  issued core (.mac .clr 0 0 0 a lanes) x y g st

/-- RND: ACC is rounded by R4 to 31 fraction bits (R211). -/
def execRndAcc (core a lanes : Nat) (x y : MoveField) (g : AguField) (st : State) :
    Host.Outcome State Fault Refusal :=
  issued core (.mac .rnd 0 0 0 a lanes) x y g st

/-- ADD: wrapping sum; Z N V (R189, Table 9-12). -/
def execAddWrap (core dst s1 s2 : Nat) (x y : MoveField) (g : AguField) (st : State) :
    Host.Outcome State Fault Refusal :=
  issued core (.alu .add dst s1 s2) x y g st

/-- SUB: wrapping difference; Z N V (R189, Table 9-12). -/
def execSubWrap (core dst s1 s2 : Nat) (x y : MoveField) (g : AguField) (st : State) :
    Host.Outcome State Fault Refusal :=
  issued core (.alu .sub dst s1 s2) x y g st

/-- ADDS: saturating sum; Z N V (R189, Table 9-12). -/
def execAdds (core dst s1 s2 : Nat) (x y : MoveField) (g : AguField) (st : State) :
    Host.Outcome State Fault Refusal :=
  issued core (.alu .adds dst s1 s2) x y g st

/-- SUBS: saturating difference; Z N V (R189, Table 9-12). -/
def execSubs (core dst s1 s2 : Nat) (x y : MoveField) (g : AguField) (st : State) :
    Host.Outcome State Fault Refusal :=
  issued core (.alu .subs dst s1 s2) x y g st

/-- AND: bitwise; Z N (R211, Table 9-12). -/
def execAndBits (core dst s1 s2 : Nat) (x y : MoveField) (g : AguField) (st : State) :
    Host.Outcome State Fault Refusal :=
  issued core (.alu .and dst s1 s2) x y g st

/-- OR: bitwise; Z N (R211, Table 9-12). -/
def execOrBits (core dst s1 s2 : Nat) (x y : MoveField) (g : AguField) (st : State) :
    Host.Outcome State Fault Refusal :=
  issued core (.alu .or dst s1 s2) x y g st

/-- XOR: bitwise; Z N (R211, Table 9-12). -/
def execXorBits (core dst s1 s2 : Nat) (x y : MoveField) (g : AguField) (st : State) :
    Host.Outcome State Fault Refusal :=
  issued core (.alu .xor dst s1 s2) x y g st

/-- CMP: the flags of S1 - S2 (R211, Table 9-12). -/
def execCmp (core dst s1 s2 : Nat) (x y : MoveField) (g : AguField) (st : State) :
    Host.Outcome State Fault Refusal :=
  issued core (.alu .cmp dst s1 s2) x y g st

/-- MIN: signed minimum (R211, Table 9-12). -/
def execMinVal (core dst s1 s2 : Nat) (x y : MoveField) (g : AguField) (st : State) :
    Host.Outcome State Fault Refusal :=
  issued core (.alu .min dst s1 s2) x y g st

/-- MAX: signed maximum (R211, Table 9-12). -/
def execMaxVal (core dst s1 s2 : Nat) (x y : MoveField) (g : AguField) (st : State) :
    Host.Outcome State Fault Refusal :=
  issued core (.alu .max dst s1 s2) x y g st

/-- ABS: saturating absolute value; V (R189, Table 9-12). -/
def execAbsVal (core dst s1 s2 : Nat) (x y : MoveField) (g : AguField) (st : State) :
    Host.Outcome State Fault Refusal :=
  issued core (.alu .abs dst s1 s2) x y g st

/-- NEG: saturating negation; V (R189, Table 9-12). -/
def execNeg (core dst s1 s2 : Nat) (x y : MoveField) (g : AguField) (st : State) :
    Host.Outcome State Fault Refusal :=
  issued core (.alu .neg dst s1 s2) x y g st

/-- ASL: shift left by S2[4:0]; V (R189, Table 9-12). -/
def execAsl (core dst s1 s2 : Nat) (x y : MoveField) (g : AguField) (st : State) :
    Host.Outcome State Fault Refusal :=
  issued core (.alu .asl dst s1 s2) x y g st

/-- ASR: arithmetic shift right (R189, Table 9-12). -/
def execAsr (core dst s1 s2 : Nat) (x y : MoveField) (g : AguField) (st : State) :
    Host.Outcome State Fault Refusal :=
  issued core (.alu .asr dst s1 s2) x y g st

/-- ASRR: arithmetic shift right with rounding by R4 (R189, Table 9-12). -/
def execAsrr (core dst s1 s2 : Nat) (x y : MoveField) (g : AguField) (st : State) :
    Host.Outcome State Fault Refusal :=
  issued core (.alu .asrr dst s1 s2) x y g st

/-- LSR: logical shift right (R189, Table 9-12). -/
def execLsr (core dst s1 s2 : Nat) (x y : MoveField) (g : AguField) (st : State) :
    Host.Outcome State Fault Refusal :=
  issued core (.alu .lsr dst s1 s2) x y g st

/-- ASLI: shift left by the immediate count; V (R211, Table 9-12). -/
def execAsli (core dst s1 cnt : Nat) (x y : MoveField) (g : AguField) (st : State) :
    Host.Outcome State Fault Refusal :=
  issued core (.alu .asli dst s1 cnt) x y g st

/-- ASRI: arithmetic shift right by the immediate count (R189, Table 9-12). -/
def execAsri (core dst s1 cnt : Nat) (x y : MoveField) (g : AguField) (st : State) :
    Host.Outcome State Fault Refusal :=
  issued core (.alu .asri dst s1 cnt) x y g st

/-- LSRI: logical shift right by the immediate count (R211, Table 9-12). -/
def execLsri (core dst s1 cnt : Nat) (x y : MoveField) (g : AguField) (st : State) :
    Host.Outcome State Fault Refusal :=
  issued core (.alu .lsri dst s1 cnt) x y g st

/-- NORM: the redundant sign bits of S1 (R211, Table 9-12). -/
def execNorm (core dst s1 s2 : Nat) (x y : MoveField) (g : AguField) (st : State) :
    Host.Outcome State Fault Refusal :=
  issued core (.alu .norm dst s1 s2) x y g st

/-- MOVA: An takes S1[23:0] (R211, Table 9-12). -/
def execMova (core dst s1 s2 : Nat) (x y : MoveField) (g : AguField) (st : State) :
    Host.Outcome State Fault Refusal :=
  issued core (.alu .mova dst s1 s2) x y g st

/-- MOVN: Nn takes S1[23:0] (R211, Table 9-12). -/
def execMovn (core dst s1 s2 : Nat) (x y : MoveField) (g : AguField) (st : State) :
    Host.Outcome State Fault Refusal :=
  issued core (.alu .movn dst s1 s2) x y g st

/-- MOVM: Mn takes S1 (R211, Table 9-12). -/
def execMovm (core dst s1 s2 : Nat) (x y : MoveField) (g : AguField) (st : State) :
    Host.Outcome State Fault Refusal :=
  issued core (.alu .movm dst s1 s2) x y g st

/-- MOVFA: Dd takes A(S1), zero-extended (R211, Table 9-12). -/
def execMovfa (core dst s1 s2 : Nat) (x y : MoveField) (g : AguField) (st : State) :
    Host.Outcome State Fault Refusal :=
  issued core (.alu .movfa dst s1 s2) x y g st

/-- XTRH: Dd takes ACC bits 55:24 (R189, Table 9-12). -/
def execXtrh (core dst s1 s2 : Nat) (x y : MoveField) (g : AguField) (st : State) :
    Host.Outcome State Fault Refusal :=
  issued core (.alu .xtrh dst s1 s2) x y g st

/-- XTRL: Dd takes ACC bits 23:0, zero-extended (R189, Table 9-12). -/
def execXtrl (core dst s1 s2 : Nat) (x y : MoveField) (g : AguField) (st : State) :
    Host.Outcome State Fault Refusal :=
  issued core (.alu .xtrl dst s1 s2) x y g st

/-- INSA: ACC takes S1 as bits 55:24 and S2[23:0] as bits 23:0 (R211, Table 9-12). -/
def execInsa (core dst s1 s2 : Nat) (x y : MoveField) (g : AguField) (st : State) :
    Host.Outcome State Fault Refusal :=
  issued core (.alu .insa dst s1 s2) x y g st

/-- ACCADD: sum of two accumulators (R186, Table 9-12). -/
def execAccadd (core dst s1 s2 : Nat) (x y : MoveField) (g : AguField) (st : State) :
    Host.Outcome State Fault Refusal :=
  issued core (.alu .accadd dst s1 s2) x y g st

/-- ACCSUB: difference of two accumulators (R186, Table 9-12). -/
def execAccsub (core dst s1 s2 : Nat) (x y : MoveField) (g : AguField) (st : State) :
    Host.Outcome State Fault Refusal :=
  issued core (.alu .accsub dst s1 s2) x y g st

/-- ACCSH: ACC shifted by a signed count (R211, Table 9-12). -/
def execAccsh (core dst s1 s2 : Nat) (x y : MoveField) (g : AguField) (st : State) :
    Host.Outcome State Fault Refusal :=
  issued core (.alu .accsh dst s1 s2) x y g st

end Sys2Proof.Machine
end

