-- ==== Sys2Proof/Machine/VecControl.lean ====
section
/-!
DEFINITION. Sys2Proof/Machine/VecControl.lean: the control instructions of the vector cores and the ends of their waits (R184, R194, R197,
R202, R204, R207, R211).
-/
namespace Sys2Proof.Machine

/-- BRA: branch (R194). -/
def execBra (core addr : Nat) (y : MoveField) (g : AguField) (st : State) :
    Host.Outcome State Fault Refusal :=
  issued core (.ctl (.bra addr)) .none y g st

/-- Bcc: branch if the condition holds (R194). -/
def execBcc (core cond addr : Nat) (y : MoveField) (g : AguField) (st : State) :
    Host.Outcome State Fault Refusal :=
  issued core (.ctl (.bcc cond addr)) .none y g st

/-- CALL: push and branch (R209). -/
def execCallSub (core addr : Nat) (y : MoveField) (g : AguField) (st : State) :
    Host.Outcome State Fault Refusal :=
  issued core (.ctl (.call addr)) .none y g st

/-- RET: pop and branch (R209). -/
def execRetSub (core : Nat) (y : MoveField) (g : AguField) (st : State) :
    Host.Outcome State Fault Refusal :=
  issued core (.ctl .ret) .none y g st

/-- JMP: branch to A(REG)[12:0] (R194). -/
def execJmp (core areg : Nat) (y : MoveField) (g : AguField) (st : State) :
    Host.Outcome State Fault Refusal :=
  issued core (.ctl (.jmp areg)) .none y g st

/-- LOOP: count a D register down and branch if it is not zero (R211). -/
def execLoopBack (core dreg addr : Nat) (y : MoveField) (g : AguField) (st : State) :
    Host.Outcome State Fault Refusal :=
  issued core (.ctl (.loop dreg addr)) .none y g st

/-- REP #n: the next bundle issues n times (R197). -/
def execRepImmediate (core n : Nat) (y : MoveField) (g : AguField) (st : State) :
    Host.Outcome State Fault Refusal :=
  issued core (.ctl (.repImm n)) .none y g st

/-- REP Dn: the next bundle issues Dn times (R197). -/
def execRepRegister (core dreg : Nat) (y : MoveField) (g : AguField) (st : State) :
    Host.Outcome State Fault Refusal :=
  issued core (.ctl (.repReg dreg)) .none y g st

/-- RTE: the handler ends after its two delay slots (R207). -/
def execRte (core : Nat) (y : MoveField) (g : AguField) (st : State) :
    Host.Outcome State Fault Refusal :=
  issued core (.ctl .rte) .none y g st

/-- END: the item ends after its two delay slots (R202). -/
def execEndItem (core : Nat) (y : MoveField) (g : AguField) (st : State) :
    Host.Outcome State Fault Refusal :=
  issued core (.ctl .finish) .none y g st

/-- ENQ: submits the descriptor at An, or waits for a credit (R204). -/
def execEnq (core areg : Nat) (y : MoveField) (g : AguField) (st : State) :
    Host.Outcome State Fault Refusal :=
  issued core (.ctl (.enq areg)) .none y g st

/-- EVSIG: raises an event source (R235). -/
def execEvsig (core source : Nat) (y : MoveField) (g : AguField) (st : State) :
    Host.Outcome State Fault Refusal :=
  issued core (.ctl (.evsig source)) .none y g st

/-- SETSCALE (R211). -/
def execSetscale (core imm : Nat) (y : MoveField) (g : AguField) (st : State) :
    Host.Outcome State Fault Refusal :=
  issued core (.ctl (.setscale imm)) .none y g st

/-- GETSR (R211). -/
def execGetsr (core dreg : Nat) (y : MoveField) (g : AguField) (st : State) :
    Host.Outcome State Fault Refusal :=
  issued core (.ctl (.getsr dreg)) .none y g st

/-- PUTSR (R211). -/
def execPutsr (core dreg : Nat) (y : MoveField) (g : AguField) (st : State) :
    Host.Outcome State Fault Refusal :=
  issued core (.ctl (.putsr dreg)) .none y g st

/-- CYC: the unit cycle counter, a free value (R211). -/
def execCyc (core dreg : Nat) (y : MoveField) (g : AguField) (st : State) :
    Host.Outcome State Fault Refusal :=
  issued core (.ctl (.cyc dreg)) .none y g st

/-- CID: 4 x cluster + core (R211). -/
def execCid (core dreg : Nat) (y : MoveField) (g : AguField) (st : State) :
    Host.Outcome State Fault Refusal :=
  issued core (.ctl (.cid dreg)) .none y g st

/-- PUTWB (R184). -/
def execPutwb (core dreg : Nat) (y : MoveField) (g : AguField) (st : State) :
    Host.Outcome State Fault Refusal :=
  issued core (.ctl (.putwb dreg)) .none y g st

/-- WAITW: waits until the posted window writes have completed (R184). -/
def execWaitw (core : Nat) (y : MoveField) (g : AguField) (st : State) :
    Host.Outcome State Fault Refusal :=
  issued core (.ctl .waitw) .none y g st

/-- ENQ_CREDIT_FREE (R204, R218): the waiting ENQ takes the credit. -/
def execEnqCreditFree (core : Nat) (st : State) : Host.Outcome State Fault Refusal :=
  ranIf (decide (core < 36)) st fun d =>
    match (coreOf d core).wait, prodOf d core with
    | some (.credit, b), some p => if running d blkVec && decide (creditsFree d p > 0) then complete d core b else d
    | _, _ => d

/-- WAITW_DONE (R184): every posted write of the core has completed. -/
def execWaitwDone (core : Nat) (st : State) : Host.Outcome State Fault Refusal :=
  ranIf (decide (core < 36)) st fun d =>
    let c := coreOf d core
    match c.wait with
    | some (.posted, b) =>
      if running d blkVec then complete (setCore d core { c with posted := false }) core b else d
    | _ => d

/-- WINDOW_READ_DATA (R184, R209): the data of a window read returns, or an error response, which is a program fault. -/
def execWindowReadData (core : Nat) (ok : Bool) (st : State) : Host.Outcome State Fault Refusal :=
  ranIf (decide (core < 36)) st fun d =>
    let c := coreOf d core
    match c.wait with
    | some (.window, b) =>
      if !(running d blkVec) then d
      else if ok then
        match waitsFor d core c {} b.op with
        | some w => setCore d core { c with wait := some (w, b) }
        | none => complete d core b
      else
        let off := windowReadOff c (inHandler d core) b
        let d := countError (core / 4 + 1) (0x2000000000 + off) false .data d
        vecFault (setCore d core { c with wait := none }) core fWindow
    | _ => d

end Sys2Proof.Machine
end

