-- ==== Sys2Proof/Machine/VecMove.lean ====
section
/-!
DEFINITION. Sys2Proof/Machine/VecMove.lean: loads, stores, register moves, address updates and the long immediate of the vector cores
(R187, R188, R190 to R192, R210).
-/
namespace Sys2Proof.Machine

/-- LDX: load through the X field (R190, Table 9-4). -/
def execLdx (core reg an mode nsel : Nat) (other : MoveField) (g : AguField) (st : State) :
    Host.Outcome State Fault Refusal :=
  issued core (.mac .nop 0 0 0 0 0) (.load reg an mode nsel) other g st

/-- LDY: load through the Y field (R190, Table 9-4). -/
def execLdy (core reg an mode nsel : Nat) (other : MoveField) (g : AguField) (st : State) :
    Host.Outcome State Fault Refusal :=
  issued core (.mac .nop 0 0 0 0 0) other (.load reg an mode nsel) g st

/-- STX: store through the X field (R190, Table 9-4). -/
def execStx (core reg an mode nsel : Nat) (other : MoveField) (g : AguField) (st : State) :
    Host.Outcome State Fault Refusal :=
  issued core (.mac .nop 0 0 0 0 0) (.store reg an mode nsel) other g st

/-- STY: store through the Y field (R190, Table 9-4). -/
def execSty (core reg an mode nsel : Nat) (other : MoveField) (g : AguField) (st : State) :
    Host.Outcome State Fault Refusal :=
  issued core (.mac .nop 0 0 0 0 0) other (.store reg an mode nsel) g st

/-- MOV: a register move through the X or the Y field (R187, R188). -/
def execMovReg (core : Nat) (yside : Bool) (dst : Option Nat) (src : Nat) (other : MoveField) (g : AguField) (st : State) :
    Host.Outcome State Fault Refusal :=
  issued core (.mac .nop 0 0 0 0 0) (if yside then other else movField dst src) (if yside then movField dst src else other) g st

/-- ADDA: An steps by Nn, under Mn (R191, R192, Table 9-11). -/
def execAdda (core an : Nat) (x y : MoveField) (st : State) :
    Host.Outcome State Fault Refusal :=
  issued core (.mac .nop 0 0 0 0 0) x y ⟨1, an⟩ st

/-- SUBA: An steps by -Nn, under Mn (R191, R192, Table 9-11). -/
def execSuba (core an : Nat) (x y : MoveField) (st : State) :
    Host.Outcome State Fault Refusal :=
  issued core (.mac .nop 0 0 0 0 0) x y ⟨2, an⟩ st

/-- INCA: An steps by 1, under Mn (R191, R192, Table 9-11). -/
def execInca (core an : Nat) (x y : MoveField) (st : State) :
    Host.Outcome State Fault Refusal :=
  issued core (.mac .nop 0 0 0 0 0) x y ⟨3, an⟩ st

/-- DECA: An steps by -1, under Mn (R191, R192, Table 9-11). -/
def execDeca (core an : Nat) (x y : MoveField) (st : State) :
    Host.Outcome State Fault Refusal :=
  issued core (.mac .nop 0 0 0 0 0) x y ⟨4, an⟩ st

/-- LI: a long immediate (R210). -/
def execLi (core file reg : Nat) (imm : Word) (st : State) :
    Host.Outcome State Fault Refusal :=
  issued core (.li file reg imm) .none .none ⟨0, 0⟩ st

end Sys2Proof.Machine
end

