-- ==== Sys2Proof/Machine/Dispatch.lean ====
section
/-!
DEFINITION. Sys2Proof/Machine/Dispatch.lean: one arm for each command, each one call of its meaning.
-/
namespace Sys2Proof.Machine

def exec (i : Instr) (s : State) : Host.Outcome State Fault Refusal :=
  match i with
  | .registerWrite off val => Sys2Proof.Machine.execRegisterWrite off val s
  | .epochStart => Sys2Proof.Machine.execEpochStart s
  | .snapHold v => Sys2Proof.Machine.execSnapHold v s
  | .holdExpired => Sys2Proof.Machine.execHoldExpired s
  | .commitAtHi val => Sys2Proof.Machine.execCommitAtHi val s
  | .commitNextGo => Sys2Proof.Machine.execCommitNextGo s
  | .commitCancelGo => Sys2Proof.Machine.execCommitCancelGo s
  | .commitCutoff => Sys2Proof.Machine.execCommitCutoff s
  | .timebaseLoad => Sys2Proof.Machine.execTimebaseLoad s
  | .renderPhaseA => Sys2Proof.Machine.execRenderPhaseA s
  | .ringFilled slot => Sys2Proof.Machine.execRingFilled slot s
  | .renderReduction => Sys2Proof.Machine.execRenderReduction s
  | .renderPhaseB => Sys2Proof.Machine.execRenderPhaseB s
  | .renderMargin => Sys2Proof.Machine.execRenderMargin s
  | .zeroCrossing ch x => Sys2Proof.Machine.execZeroCrossing ch x s
  | .zcTimeout ch => Sys2Proof.Machine.execZcTimeout ch s
  | .sweepStart gen => Sys2Proof.Machine.execSweepStart gen s
  | .enginePeriod => Sys2Proof.Machine.execEnginePeriod s
  | .settleCrossfadeStart slot => Sys2Proof.Machine.execSettleCrossfadeStart slot s
  | .settleDone slot => Sys2Proof.Machine.execSettleDone slot s
  | .cndSectionChecked => Sys2Proof.Machine.execCndSectionChecked s
  | .sadmParseDone src frame => Sys2Proof.Machine.execSadmParseDone src frame s
  | .msrcWindowTimeout src => Sys2Proof.Machine.execMsrcWindowTimeout src s
  | .geoSectionChecked type => Sys2Proof.Machine.execGeoSectionChecked type s
  | .shedHoldExpiry slot => Sys2Proof.Machine.execShedHoldExpiry slot s
  | .rcParallelStart => Sys2Proof.Machine.execRcParallelStart s
  | .rcReloadReady => Sys2Proof.Machine.execRcReloadReady s
  | .rcSectionChecked => Sys2Proof.Machine.execRcSectionChecked s
  | .captureDone => Sys2Proof.Machine.execCaptureDone s
  | .mpy core form srcS t a lanes x y g => Sys2Proof.Machine.execMpy core form srcS t a lanes x y g s
  | .macAdd core form srcS t a lanes x y g => Sys2Proof.Machine.execMacAdd core form srcS t a lanes x y g s
  | .msu core form srcS t a lanes x y g => Sys2Proof.Machine.execMsu core form srcS t a lanes x y g s
  | .mpyn core form srcS t a lanes x y g => Sys2Proof.Machine.execMpyn core form srcS t a lanes x y g s
  | .clr core a lanes x y g => Sys2Proof.Machine.execClr core a lanes x y g s
  | .rndAcc core a lanes x y g => Sys2Proof.Machine.execRndAcc core a lanes x y g s
  | .ldx core reg an mode nsel other g => Sys2Proof.Machine.execLdx core reg an mode nsel other g s
  | .ldy core reg an mode nsel other g => Sys2Proof.Machine.execLdy core reg an mode nsel other g s
  | .stx core reg an mode nsel other g => Sys2Proof.Machine.execStx core reg an mode nsel other g s
  | .sty core reg an mode nsel other g => Sys2Proof.Machine.execSty core reg an mode nsel other g s
  | .movReg core yside dst src other g => Sys2Proof.Machine.execMovReg core yside dst src other g s
  | .adda core an x y => Sys2Proof.Machine.execAdda core an x y s
  | .suba core an x y => Sys2Proof.Machine.execSuba core an x y s
  | .inca core an x y => Sys2Proof.Machine.execInca core an x y s
  | .deca core an x y => Sys2Proof.Machine.execDeca core an x y s
  | .li core file reg imm => Sys2Proof.Machine.execLi core file reg imm s
  | .addWrap core dst s1 s2 x y g => Sys2Proof.Machine.execAddWrap core dst s1 s2 x y g s
  | .subWrap core dst s1 s2 x y g => Sys2Proof.Machine.execSubWrap core dst s1 s2 x y g s
  | .adds core dst s1 s2 x y g => Sys2Proof.Machine.execAdds core dst s1 s2 x y g s
  | .subs core dst s1 s2 x y g => Sys2Proof.Machine.execSubs core dst s1 s2 x y g s
  | .andBits core dst s1 s2 x y g => Sys2Proof.Machine.execAndBits core dst s1 s2 x y g s
  | .orBits core dst s1 s2 x y g => Sys2Proof.Machine.execOrBits core dst s1 s2 x y g s
  | .xorBits core dst s1 s2 x y g => Sys2Proof.Machine.execXorBits core dst s1 s2 x y g s
  | .cmp core dst s1 s2 x y g => Sys2Proof.Machine.execCmp core dst s1 s2 x y g s
  | .minVal core dst s1 s2 x y g => Sys2Proof.Machine.execMinVal core dst s1 s2 x y g s
  | .maxVal core dst s1 s2 x y g => Sys2Proof.Machine.execMaxVal core dst s1 s2 x y g s
  | .absVal core dst s1 s2 x y g => Sys2Proof.Machine.execAbsVal core dst s1 s2 x y g s
  | .neg core dst s1 s2 x y g => Sys2Proof.Machine.execNeg core dst s1 s2 x y g s
  | .asl core dst s1 s2 x y g => Sys2Proof.Machine.execAsl core dst s1 s2 x y g s
  | .asr core dst s1 s2 x y g => Sys2Proof.Machine.execAsr core dst s1 s2 x y g s
  | .asrr core dst s1 s2 x y g => Sys2Proof.Machine.execAsrr core dst s1 s2 x y g s
  | .lsr core dst s1 s2 x y g => Sys2Proof.Machine.execLsr core dst s1 s2 x y g s
  | .asli core dst s1 cnt x y g => Sys2Proof.Machine.execAsli core dst s1 cnt x y g s
  | .asri core dst s1 cnt x y g => Sys2Proof.Machine.execAsri core dst s1 cnt x y g s
  | .lsri core dst s1 cnt x y g => Sys2Proof.Machine.execLsri core dst s1 cnt x y g s
  | .norm core dst s1 s2 x y g => Sys2Proof.Machine.execNorm core dst s1 s2 x y g s
  | .mova core dst s1 s2 x y g => Sys2Proof.Machine.execMova core dst s1 s2 x y g s
  | .movn core dst s1 s2 x y g => Sys2Proof.Machine.execMovn core dst s1 s2 x y g s
  | .movm core dst s1 s2 x y g => Sys2Proof.Machine.execMovm core dst s1 s2 x y g s
  | .movfa core dst s1 s2 x y g => Sys2Proof.Machine.execMovfa core dst s1 s2 x y g s
  | .xtrh core dst s1 s2 x y g => Sys2Proof.Machine.execXtrh core dst s1 s2 x y g s
  | .xtrl core dst s1 s2 x y g => Sys2Proof.Machine.execXtrl core dst s1 s2 x y g s
  | .insa core dst s1 s2 x y g => Sys2Proof.Machine.execInsa core dst s1 s2 x y g s
  | .accadd core dst s1 s2 x y g => Sys2Proof.Machine.execAccadd core dst s1 s2 x y g s
  | .accsub core dst s1 s2 x y g => Sys2Proof.Machine.execAccsub core dst s1 s2 x y g s
  | .accsh core dst s1 s2 x y g => Sys2Proof.Machine.execAccsh core dst s1 s2 x y g s
  | .bra core addr y g => Sys2Proof.Machine.execBra core addr y g s
  | .bcc core cond addr y g => Sys2Proof.Machine.execBcc core cond addr y g s
  | .callSub core addr y g => Sys2Proof.Machine.execCallSub core addr y g s
  | .retSub core y g => Sys2Proof.Machine.execRetSub core y g s
  | .jmp core areg y g => Sys2Proof.Machine.execJmp core areg y g s
  | .loopBack core dreg addr y g => Sys2Proof.Machine.execLoopBack core dreg addr y g s
  | .repImmediate core n y g => Sys2Proof.Machine.execRepImmediate core n y g s
  | .repRegister core dreg y g => Sys2Proof.Machine.execRepRegister core dreg y g s
  | .rte core y g => Sys2Proof.Machine.execRte core y g s
  | .endItem core y g => Sys2Proof.Machine.execEndItem core y g s
  | .enq core areg y g => Sys2Proof.Machine.execEnq core areg y g s
  | .enqCreditFree core => Sys2Proof.Machine.execEnqCreditFree core s
  | .evsig core source y g => Sys2Proof.Machine.execEvsig core source y g s
  | .setscale core imm y g => Sys2Proof.Machine.execSetscale core imm y g s
  | .getsr core dreg y g => Sys2Proof.Machine.execGetsr core dreg y g s
  | .putsr core dreg y g => Sys2Proof.Machine.execPutsr core dreg y g s
  | .cyc core dreg y g => Sys2Proof.Machine.execCyc core dreg y g s
  | .cid core dreg y g => Sys2Proof.Machine.execCid core dreg y g s
  | .putwb core dreg y g => Sys2Proof.Machine.execPutwb core dreg y g s
  | .waitw core y g => Sys2Proof.Machine.execWaitw core y g s
  | .waitwDone core => Sys2Proof.Machine.execWaitwDone core s
  | .windowReadData core ok => Sys2Proof.Machine.execWindowReadData core ok s
  | .stageInDone core => Sys2Proof.Machine.execStageInDone core s
  | .itemComplete core => Sys2Proof.Machine.execItemComplete core s
  | .insertRelease stage => Sys2Proof.Machine.execInsertRelease stage s
  | .itemCutoff stage => Sys2Proof.Machine.execItemCutoff stage s
  | .dispatch => Sys2Proof.Machine.execDispatch s
  | .submitGo => Sys2Proof.Machine.execSubmitGo s
  | .cancel tag => Sys2Proof.Machine.execCancel tag s
  | .cancelProd prod => Sys2Proof.Machine.execCancelProd prod s
  | .coreGate core => Sys2Proof.Machine.execCoreGate core s
  | .coreWakeDone core => Sys2Proof.Machine.execCoreWakeDone core s
  | .eventRaise source => Sys2Proof.Machine.execEventRaise source s
  | .pendSet source => Sys2Proof.Machine.execPendSet source s
  | .pendClr source => Sys2Proof.Machine.execPendClr source s
  | .maskSet source => Sys2Proof.Machine.execMaskSet source s
  | .maskClr source => Sys2Proof.Machine.execMaskClr source s
  | .eventOffer => Sys2Proof.Machine.execEventOffer s
  | .eventHoldoffExpiry source => Sys2Proof.Machine.execEventHoldoffExpiry source s
  | .mediaFrameRx plane frame => Sys2Proof.Machine.execMediaFrameRx plane frame s
  | .pfcPauseExpiry plane prio => Sys2Proof.Machine.execPfcPauseExpiry plane prio s
  | .supervisorFrame plane => Sys2Proof.Machine.execSupervisorFrame plane s
  | .txPacketRelease plane stream => Sys2Proof.Machine.execTxPacketRelease plane stream s
  | .txFrameStart plane => Sys2Proof.Machine.execTxFrameStart plane s
  | .txStale plane stream => Sys2Proof.Machine.execTxStale plane stream s
  | .speedStepStart plane => Sys2Proof.Machine.execSpeedStepStart plane s
  | .stepEpoch plane => Sys2Proof.Machine.execStepEpoch plane s
  | .linkUp port speed => Sys2Proof.Machine.execLinkUp port speed s
  | .linkDown port => Sys2Proof.Machine.execLinkDown port s
  | .stepTimeout plane => Sys2Proof.Machine.execStepTimeout plane s
  | .netSectionChecked => Sys2Proof.Machine.execNetSectionChecked s
  | .delayReqTx inst => Sys2Proof.Machine.execDelayReqTx inst s
  | .syncTx inst => Sys2Proof.Machine.execSyncTx inst s
  | .announceTx inst => Sys2Proof.Machine.execAnnounceTx inst s
  | .txTimestampReturn inst seq captured => Sys2Proof.Machine.execTxTimestampReturn inst seq captured s
  | .syncTimeout inst => Sys2Proof.Machine.execSyncTimeout inst s
  | .announceReceiptTimeout inst => Sys2Proof.Machine.execAnnounceReceiptTimeout inst s
  | .servoRevert => Sys2Proof.Machine.execServoRevert s
  | .servoAccept => Sys2Proof.Machine.execServoAccept s
  | .servoDegradedLog => Sys2Proof.Machine.execServoDegradedLog s
  | .tuneSpiFrame => Sys2Proof.Machine.execTuneSpiFrame s
  | .pllLockDone pll => Sys2Proof.Machine.execPllLockDone pll s
  | .relock pll => Sys2Proof.Machine.execRelock pll s
  | .syncInEdge offsets => Sys2Proof.Machine.execSyncInEdge offsets s
  | .refLoss loss => Sys2Proof.Machine.execRefLoss loss s
  | .refValid alt => Sys2Proof.Machine.execRefValid alt s
  | .pllReacquireDone pll => Sys2Proof.Machine.execPllReacquireDone pll s
  | .holdoverDecision => Sys2Proof.Machine.execHoldoverDecision s
  | .refRevert => Sys2Proof.Machine.execRefRevert s
  | .pllNoReacquire pll => Sys2Proof.Machine.execPllNoReacquire pll s
  | .sapFrame port phase din => Sys2Proof.Machine.execSapFrame port phase din s
  | .sapNoClock port => Sys2Proof.Machine.execSapNoClock port s
  | .sapRealign port phase => Sys2Proof.Machine.execSapRealign port phase s
  | .sapPortStopped port => Sys2Proof.Machine.execSapPortStopped port s
  | .followLock => Sys2Proof.Machine.execFollowLock s
  | .timebaseToFollow => Sys2Proof.Machine.execTimebaseToFollow s
  | .timebaseToPtp => Sys2Proof.Machine.execTimebaseToPtp s
  | .timebaseReload => Sys2Proof.Machine.execTimebaseReload s
  | .xbarGrant req => Sys2Proof.Machine.execXbarGrant req s
  | .xbarResponse master id resp traffic => Sys2Proof.Machine.execXbarResponse master id resp traffic s
  | .masterReset master => Sys2Proof.Machine.execMasterReset master s
  | .remap => Sys2Proof.Machine.execRemap s
  | .dramRequest ch off write rowOpen master err => Sys2Proof.Machine.execDramRequest ch off write rowOpen master err s
  | .dramRefresh ch => Sys2Proof.Machine.execDramRefresh ch s
  | .retrainingPause ch hot => Sys2Proof.Machine.execRetrainingPause ch hot s
  | .powerDownEntry ch rank => Sys2Proof.Machine.execPowerDownEntry ch s rank
  | .selfRefreshEntry ch => Sys2Proof.Machine.execSelfRefreshEntry ch s
  | .selfRefreshExit ch => Sys2Proof.Machine.execSelfRefreshExit ch s
  | .memInit ch ok => Sys2Proof.Machine.execMemInit ch ok s
  | .twinEpochFrameRx lane head frame => Sys2Proof.Machine.execTwinEpochFrameRx lane head frame s
  | .joinRequest lane head => Sys2Proof.Machine.execJoinRequest s lane head
  | .joinRequestTx => Sys2Proof.Machine.execJoinRequestTx s
  | .joinStart k lane head => Sys2Proof.Machine.execJoinStart k s lane head
  | .joinStop lane head => Sys2Proof.Machine.execJoinStop s lane head
  | .stateFrameRx frame lane head => Sys2Proof.Machine.execStateFrameRx frame s lane head
  | .joinTimeout => Sys2Proof.Machine.execJoinTimeout s
  | .peerActiveChange level => Sys2Proof.Machine.execPeerActiveChange level s
  | .outputClaim => Sys2Proof.Machine.execOutputClaim s
  | .claimConfirm => Sys2Proof.Machine.execClaimConfirm s
  | .seniorConflictRelease => Sys2Proof.Machine.execSeniorConflictRelease s
  | .claimBackoff => Sys2Proof.Machine.execClaimBackoff s
  | .watchdogRelease => Sys2Proof.Machine.execWatchdogRelease s
  | .rearm => Sys2Proof.Machine.execRearm s
  | .hardFault pool cluster cause unit => Sys2Proof.Machine.execHardFault pool cluster cause s unit
  | .moonTakeover pool agreed => Sys2Proof.Machine.execMoonTakeover pool agreed s
  | .moonReqHi val => Sys2Proof.Machine.execMoonReqHi val s
  | .patrolAdvance pool mismatch => Sys2Proof.Machine.execPatrolAdvance pool mismatch s
  | .porstRelease twinSide => Sys2Proof.Machine.execPorstRelease twinSide s
  | .dramWipeDone => Sys2Proof.Machine.execDramWipeDone s
  | .bootComplete => Sys2Proof.Machine.execBootComplete s
  | .autoConfirm => Sys2Proof.Machine.execAutoConfirm s
  | .confirmGo => Sys2Proof.Machine.execConfirmGo s
  | .reloadGo => Sys2Proof.Machine.execReloadGo s
  | .reloadReady => Sys2Proof.Machine.execReloadReady s
  | .reloadAbandon => Sys2Proof.Machine.execReloadAbandon s
  | .reloadRefused type readError => Sys2Proof.Machine.execReloadRefused type readError s
  | .hello port srcId datagram => Sys2Proof.Machine.execHello port srcId datagram s
  | .request port srcId datagram => Sys2Proof.Machine.execRequest port srcId datagram s
  | .readCmd off n => Sys2Proof.Machine.execReadCmd off n s
  | .writeCmd off words => Sys2Proof.Machine.execWriteCmd off words s
  | .commitAt epoch => Sys2Proof.Machine.execCommitAt epoch s
  | .commitNext => Sys2Proof.Machine.execCommitNext s
  | .commitCancel => Sys2Proof.Machine.execCommitCancel s
  | .commitCommandResult => Sys2Proof.Machine.execCommitCommandResult s
  | .erase off sectors => Sys2Proof.Machine.execErase off sectors s
  | .upload off bytes => Sys2Proof.Machine.execUpload off bytes s
  | .bankCrc off len => Sys2Proof.Machine.execBankCrc off len s
  | .flashOpDone ok => Sys2Proof.Machine.execFlashOpDone ok s
  | .reload => Sys2Proof.Machine.execReload s
  | .abandon => Sys2Proof.Machine.execAbandon s
  | .confirm => Sys2Proof.Machine.execConfirm s
  | .close => Sys2Proof.Machine.execClose s
  | .flashErase off sectors => Sys2Proof.Machine.execFlashErase off sectors s
  | .flashWrite off bytes => Sys2Proof.Machine.execFlashWrite off bytes s
  | .flashCrc off len => Sys2Proof.Machine.execFlashCrc off len s
  | .sessionIdleTimeout session => Sys2Proof.Machine.execSessionIdleTimeout session s
  | .regRead off n cut => Sys2Proof.Machine.execRegRead off n s cut
  | .regWrite off bytes cut => Sys2Proof.Machine.execRegWrite off bytes s cut
  | .mboxPut len body cut => Sys2Proof.Machine.execMboxPut len body s cut
  | .mboxGet n => Sys2Proof.Machine.execMboxGet n s
  | .boot opcode => Sys2Proof.Machine.execBoot s opcode
  | .perfFreeze => Sys2Proof.Machine.execPerfFreeze s
  | .perfRelease => Sys2Proof.Machine.execPerfRelease s
  | .perfClear => Sys2Proof.Machine.execPerfClear s
  | .errorRaise source code arg0 arg1 => Sys2Proof.Machine.execErrorRaise source code arg0 arg1 s
  | .errorCollect => Sys2Proof.Machine.execErrorCollect s
  | .mirrorWrite ok => Sys2Proof.Machine.execMirrorWrite ok s
  | .lcsRequest path val fuseOk => Sys2Proof.Machine.execLcsRequest path val fuseOk s
  | .fuseProgram path slot fuseOk => Sys2Proof.Machine.execFuseProgram path slot fuseOk s
  | .fuseRevoke path slot fuseOk => Sys2Proof.Machine.execFuseRevoke path slot fuseOk s
  | .jtagInstruction code boundary secondPassed => Sys2Proof.Machine.execJtagInstruction code boundary secondPassed s
  | .standbyResetRelease pwrExt testMode => Sys2Proof.Machine.execStandbyResetRelease pwrExt testMode s
  | .standbyResetAssert => Sys2Proof.Machine.execStandbyResetAssert s
  | .railInWindow rail v33 => Sys2Proof.Machine.execRailInWindow rail v33 s
  | .railQualified rail => Sys2Proof.Machine.execRailQualified rail s
  | .railSequenceTimeout rail noAnswer => Sys2Proof.Machine.execRailSequenceTimeout rail noAnswer s
  | .railFault rail overVolts => Sys2Proof.Machine.execRailFault rail overVolts s
  | .pmbAlert status => Sys2Proof.Machine.execPmbAlert status s
  | .telemetryPoll readings => Sys2Proof.Machine.execTelemetryPoll readings s
  | .thermalSample tj => Sys2Proof.Machine.execThermalSample tj s
  | .thermalAlarmClear => Sys2Proof.Machine.execThermalAlarmClear s
  | .porstFall => Sys2Proof.Machine.execPorstFall s
  | .linkFlitReplay link ok => Sys2Proof.Machine.execLinkFlitReplay link ok s
  | .twinFrameCrcError lane => Sys2Proof.Machine.execTwinFrameCrcError lane s
  | .mgtFrameRx frame => Sys2Proof.Machine.execMgtFrameRx frame s
  | .oscTunePwmPeriod => Sys2Proof.Machine.execOscTunePwmPeriod s
  | .pwrExtPowerGood => Sys2Proof.Machine.execPwrExtPowerGood s
  | .testModeChange level => Sys2Proof.Machine.execTestModeChange level s

end Sys2Proof.Machine
end

