-- ==== Sys2Proof/Safety.lean ====
section
/-!
DEFINITION. Sys2Proof/Safety.lean: what counts as a step that goes on, the invariant of the device that every step keeps, and the
words statements use for what a command leaves as it was.
-/
namespace Sys2Proof

/-- A step from s answers a next state: no fault, no refusal. -/
def Goes (s : Machine.State) : Prop := ∃ t, Machine.step s = .next t

/-- The commands that may write shadow or active copies, the snapshot, the epoch, or a memory other than MEM1: register writes and
what carries them, epoch starts, the steps of a boot, resets, and what a fault of the supplies turns into a reset. -/
def Instr.writesCopies : Instr → Bool
  | .registerWrite .. | .epochStart | .commitCutoff | .timebaseLoad | .enginePeriod | .stepTimeout .. | .xbarResponse ..
  | .porstRelease .. | .pllLockDone .. | .memInit .. | .dramWipeDone | .bootComplete | .writeCmd .. | .regWrite .. | .boot .. | .lcsRequest ..
  | .standbyResetAssert | .railQualified .. | .railSequenceTimeout .. | .railFault .. | .pmbAlert .. | .telemetryPoll ..
  | .thermalSample .. | .porstFall | .pwrExtPowerGood | .testModeChange .. => true
  | _ => false

/-- The commands that may write the supervisor reserved region of MEM1 (R327) beside those of `writesCopies`: they stage sections there,
received from the twin (R352) or read for a reload (R390). -/
def Instr.writesReserved : Instr → Bool
  | .stateFrameRx .. | .reloadGo .. | .reload .. => true
  | _ => false

/-- The commands that may write MEM1 outside the reserved region beside those of `writesCopies`: bundles, work items and the capture
path (R27). -/
def Instr.writesMem1 : Instr → Bool
  | .captureDone | .mpy .. | .macAdd .. | .msu .. | .mpyn .. | .clr .. | .rndAcc .. | .ldx .. | .ldy .. | .stx .. | .sty ..
  | .movReg .. | .adda .. | .suba .. | .inca .. | .deca .. | .li .. | .addWrap .. | .subWrap .. | .adds .. | .subs ..
  | .andBits .. | .orBits .. | .xorBits .. | .cmp .. | .minVal .. | .maxVal .. | .absVal .. | .neg .. | .asl .. | .asr ..
  | .asrr .. | .lsr .. | .asli .. | .asri .. | .lsri .. | .norm .. | .mova .. | .movn .. | .movm .. | .movfa .. | .xtrh ..
  | .xtrl .. | .insa .. | .accadd .. | .accsub .. | .accsh .. | .bra .. | .bcc .. | .callSub .. | .retSub .. | .jmp ..
  | .loopBack .. | .repImmediate .. | .repRegister .. | .rte .. | .endItem .. | .enq .. | .enqCreditFree .. | .evsig ..
  | .setscale .. | .getsr .. | .putsr .. | .cyc .. | .cid .. | .putwb .. | .waitw .. | .waitwDone .. | .windowReadData ..
  | .itemComplete .. => true
  | _ => false

/-- The vector core that a bundle command names and the bundle it issues there (chapter 09); none for every other command. -/
def Instr.bundle : Instr → Option (Nat × Machine.Bundle)
  | .mpy core form s t a lanes x y g => some (core, ⟨.mac .mpy form s t a lanes, x, y, g⟩)
  | .macAdd core form s t a lanes x y g => some (core, ⟨.mac .mac form s t a lanes, x, y, g⟩)
  | .msu core form s t a lanes x y g => some (core, ⟨.mac .msu form s t a lanes, x, y, g⟩)
  | .mpyn core form s t a lanes x y g => some (core, ⟨.mac .mpyn form s t a lanes, x, y, g⟩)
  | .clr core a lanes x y g => some (core, ⟨.mac .clr 0 0 0 a lanes, x, y, g⟩)
  | .rndAcc core a lanes x y g => some (core, ⟨.mac .rnd 0 0 0 a lanes, x, y, g⟩)
  | .addWrap core dst s1 s2 x y g => some (core, ⟨.alu .add dst s1 s2, x, y, g⟩)
  | .subWrap core dst s1 s2 x y g => some (core, ⟨.alu .sub dst s1 s2, x, y, g⟩)
  | .adds core dst s1 s2 x y g => some (core, ⟨.alu .adds dst s1 s2, x, y, g⟩)
  | .subs core dst s1 s2 x y g => some (core, ⟨.alu .subs dst s1 s2, x, y, g⟩)
  | .andBits core dst s1 s2 x y g => some (core, ⟨.alu .and dst s1 s2, x, y, g⟩)
  | .orBits core dst s1 s2 x y g => some (core, ⟨.alu .or dst s1 s2, x, y, g⟩)
  | .xorBits core dst s1 s2 x y g => some (core, ⟨.alu .xor dst s1 s2, x, y, g⟩)
  | .cmp core dst s1 s2 x y g => some (core, ⟨.alu .cmp dst s1 s2, x, y, g⟩)
  | .minVal core dst s1 s2 x y g => some (core, ⟨.alu .min dst s1 s2, x, y, g⟩)
  | .maxVal core dst s1 s2 x y g => some (core, ⟨.alu .max dst s1 s2, x, y, g⟩)
  | .absVal core dst s1 s2 x y g => some (core, ⟨.alu .abs dst s1 s2, x, y, g⟩)
  | .neg core dst s1 s2 x y g => some (core, ⟨.alu .neg dst s1 s2, x, y, g⟩)
  | .asl core dst s1 s2 x y g => some (core, ⟨.alu .asl dst s1 s2, x, y, g⟩)
  | .asr core dst s1 s2 x y g => some (core, ⟨.alu .asr dst s1 s2, x, y, g⟩)
  | .asrr core dst s1 s2 x y g => some (core, ⟨.alu .asrr dst s1 s2, x, y, g⟩)
  | .lsr core dst s1 s2 x y g => some (core, ⟨.alu .lsr dst s1 s2, x, y, g⟩)
  | .asli core dst s1 cnt x y g => some (core, ⟨.alu .asli dst s1 cnt, x, y, g⟩)
  | .asri core dst s1 cnt x y g => some (core, ⟨.alu .asri dst s1 cnt, x, y, g⟩)
  | .lsri core dst s1 cnt x y g => some (core, ⟨.alu .lsri dst s1 cnt, x, y, g⟩)
  | .norm core dst s1 s2 x y g => some (core, ⟨.alu .norm dst s1 s2, x, y, g⟩)
  | .mova core dst s1 s2 x y g => some (core, ⟨.alu .mova dst s1 s2, x, y, g⟩)
  | .movn core dst s1 s2 x y g => some (core, ⟨.alu .movn dst s1 s2, x, y, g⟩)
  | .movm core dst s1 s2 x y g => some (core, ⟨.alu .movm dst s1 s2, x, y, g⟩)
  | .movfa core dst s1 s2 x y g => some (core, ⟨.alu .movfa dst s1 s2, x, y, g⟩)
  | .xtrh core dst s1 s2 x y g => some (core, ⟨.alu .xtrh dst s1 s2, x, y, g⟩)
  | .xtrl core dst s1 s2 x y g => some (core, ⟨.alu .xtrl dst s1 s2, x, y, g⟩)
  | .insa core dst s1 s2 x y g => some (core, ⟨.alu .insa dst s1 s2, x, y, g⟩)
  | .accadd core dst s1 s2 x y g => some (core, ⟨.alu .accadd dst s1 s2, x, y, g⟩)
  | .accsub core dst s1 s2 x y g => some (core, ⟨.alu .accsub dst s1 s2, x, y, g⟩)
  | .accsh core dst s1 s2 x y g => some (core, ⟨.alu .accsh dst s1 s2, x, y, g⟩)
  | .ldx core reg an mode nsel other g => some (core, ⟨.mac .nop 0 0 0 0 0, (.load reg an mode nsel), other, g⟩)
  | .ldy core reg an mode nsel other g => some (core, ⟨.mac .nop 0 0 0 0 0, other, (.load reg an mode nsel), g⟩)
  | .stx core reg an mode nsel other g => some (core, ⟨.mac .nop 0 0 0 0 0, (.store reg an mode nsel), other, g⟩)
  | .sty core reg an mode nsel other g => some (core, ⟨.mac .nop 0 0 0 0 0, other, (.store reg an mode nsel), g⟩)
  | .movReg core yside dst src other g =>
    some (core, ⟨.mac .nop 0 0 0 0 0, if yside then other else Machine.movField dst src,
      if yside then Machine.movField dst src else other, g⟩)
  | .adda core an x y => some (core, ⟨.mac .nop 0 0 0 0 0, x, y, ⟨1, an⟩⟩)
  | .suba core an x y => some (core, ⟨.mac .nop 0 0 0 0 0, x, y, ⟨2, an⟩⟩)
  | .inca core an x y => some (core, ⟨.mac .nop 0 0 0 0 0, x, y, ⟨3, an⟩⟩)
  | .deca core an x y => some (core, ⟨.mac .nop 0 0 0 0 0, x, y, ⟨4, an⟩⟩)
  | .li core file reg imm => some (core, ⟨.li file reg imm, .none, .none, ⟨0, 0⟩⟩)
  | .bra core addr y g => some (core, ⟨.ctl (.bra addr), .none, y, g⟩)
  | .bcc core cond addr y g => some (core, ⟨.ctl (.bcc cond addr), .none, y, g⟩)
  | .callSub core addr y g => some (core, ⟨.ctl (.call addr), .none, y, g⟩)
  | .retSub core y g => some (core, ⟨.ctl .ret, .none, y, g⟩)
  | .jmp core areg y g => some (core, ⟨.ctl (.jmp areg), .none, y, g⟩)
  | .loopBack core dreg addr y g => some (core, ⟨.ctl (.loop dreg addr), .none, y, g⟩)
  | .repImmediate core n y g => some (core, ⟨.ctl (.repImm n), .none, y, g⟩)
  | .repRegister core dreg y g => some (core, ⟨.ctl (.repReg dreg), .none, y, g⟩)
  | .rte core y g => some (core, ⟨.ctl .rte, .none, y, g⟩)
  | .endItem core y g => some (core, ⟨.ctl .finish, .none, y, g⟩)
  | .enq core areg y g => some (core, ⟨.ctl (.enq areg), .none, y, g⟩)
  | .evsig core source y g => some (core, ⟨.ctl (.evsig source), .none, y, g⟩)
  | .setscale core imm y g => some (core, ⟨.ctl (.setscale imm), .none, y, g⟩)
  | .getsr core dreg y g => some (core, ⟨.ctl (.getsr dreg), .none, y, g⟩)
  | .putsr core dreg y g => some (core, ⟨.ctl (.putsr dreg), .none, y, g⟩)
  | .cyc core dreg y g => some (core, ⟨.ctl (.cyc dreg), .none, y, g⟩)
  | .cid core dreg y g => some (core, ⟨.ctl (.cid dreg), .none, y, g⟩)
  | .putwb core dreg y g => some (core, ⟨.ctl (.putwb dreg), .none, y, g⟩)
  | .waitw core y g => some (core, ⟨.ctl .waitw, .none, y, g⟩)
  | _ => none

namespace Machine

/-- The canonical form of the memories behind the crossbar: keys strictly rise, and no entry equals what an unlisted key reads as; an
unlisted byte of the RC region or of the reserved region reads as a free value, so there only the keys are bound. -/
structure MemCanonical (m : Mem) : Prop where
  /-- System SRAM. -/
  sram : mapWf (fun _ => 0) m.sram = true
  /-- MEM0. -/
  mem0 : mapWf (fun _ => 0) m.mem0 = true
  /-- Written bytes of the RC region. -/
  rcRegion : keysRise m.rcRegion
  /-- MEM1. -/
  mem1 : mapWf (fun _ => 0) m.mem1 = true
  /-- Written bytes of the supervisor reserved region. -/
  reserved : keysRise m.reserved
  /-- Tables of the active half of the render configuration window. -/
  active : mapWf (fun _ => []) m.active = true
  /-- Tables of the standby half. -/
  standby : mapWf (fun _ => []) m.standby = true
  /-- The window outside the tables. -/
  render : mapWf (fun _ => 0) m.render = true

/-- The canonical form of the device: the register banks list their keys in rising order and nothing that equals what an unlisted key
reads as, the memories have their canonical form, the epoch counter has 48 bits (R29), and an epoch holds 64 engine periods (R64). -/
structure Canonical (d : Dev) : Prop where
  /-- Current values of the registers. -/
  live : mapWf resetWord d.regs.live = true
  /-- Shadow copies. -/
  shadow : mapWf resetWord d.regs.shadow = true
  /-- Active copies. -/
  act : ∀ p ∈ d.regs.act, mapWf resetWord p.2 = true
  /-- The snapshot bank. -/
  snap : mapWf resetWord d.regs.snap = true
  /-- The memories. -/
  mem : MemCanonical d.mem
  /-- The epoch counter. -/
  epoch : d.epc.epoch < 2 ^ 48
  /-- Engine periods served. -/
  period : d.epc.period ≤ 64

/-- Command c completes in s: it answers a next state with the same waiting commands and a device of which P holds. -/
def Runs (c : Instr) (s : State) (P : Dev → Prop) : Prop := ∃ t : State, exec c s = .next t ∧ t.pending = s.pending ∧ P t.dev

/-- The bundle of command c, where its core may issue it from its program (R210) and it neither faults nor waits (R193, R209), completes. P
holds of the core and the device when the bundle has taken its effects: they are those after the command, unless the bundle is the
last delay slot of END or RTE, where the end of the item or of the handler follows (`Machine.transfer`). -/
def Issues (c : Instr) (s : State) (P : VecCore → Dev → Prop) : Prop :=
  ∀ core b, c.bundle = some (core, b) → core < 36 → canIssue s.dev core = true → fetches (coreOf s.dev core) b = true →
    (bundleFx s.dev core (coreOf s.dev core) (inHandler s.dev core) b).faults = [] →
    waitsFor s.dev core (coreOf s.dev core) (bundleFx s.dev core (coreOf s.dev core) (inHandler s.dev core) b) b.op = none →
    Runs c s fun d => d = transfer (bundleDone s.dev core b) core (coreOf s.dev core) (inHandler s.dev core) ∧
      P (coreOf (bundleDone s.dev core b) core) (bundleDone s.dev core b)

/-- The moves x and y of a bundle write nothing to register r, so that a later field of the bundle has it (R195). -/
def Unmoved (d : Dev) (core : Nat) (x y : MoveField) (r : Nat) : Prop :=
  ∀ e ∈ (moveFx d core (coreOf d core) (inHandler d core) true y).writes ++
    (moveFx d core (coreOf d core) (inHandler d core) false x).writes, e.1 ≠ r

/-- b has the register copies of a, but for the current values of the registers at the given offsets. -/
structure RegsBut (words : List Nat) (a b : Dev) : Prop where
  /-- Current values. -/
  live : ∀ off, off ∉ words → liveGet b off = liveGet a off
  /-- Shadow copies. -/
  shadow : b.regs.shadow = a.regs.shadow
  /-- Active copies. -/
  act : b.regs.act = a.regs.act
  /-- The snapshot bank. -/
  snap : b.regs.snap = a.regs.snap

/-- b is a but for the current values of the registers at the given offsets. -/
structure OnlyWords (words : List Nat) (a b : Dev) : Prop where
  /-- The registers. -/
  regs : RegsBut words a b
  /-- Everything beside the registers. -/
  rest : { b with regs := a.regs } = a

/-- The registers that raising an error may write: class counts, the fatal registers, and what the fatal state holds released
(R423, R424, R428). -/
def errWords : List Nat :=
  [offErrFatal, offErrStatus, offTwnStatus, offClkTuneCode] ++ (List.range 4).map offErrClassCount ++ (List.range 32).map offSapPortStatus

/-- The counters that an event of counter block b may count in (R417). -/
def perfWords (b : Nat) : List Nat := offPerfOvf b :: (List.range 8).flatMap fun k => [offPerfCntLo b k, offPerfCntHi b k]

end Machine
end Sys2Proof
end

