-- ==== Sys2Proof/WellFormed.lean ====
section
/-!
DEFINITION. Sys2Proof/WellFormed.lean: which commands name units that exist, and which bundles stay within the fields of their
encoding (R210).
-/
namespace Sys2Proof

/-- The slot, channel, path, port or feed of a gain exists. -/
def GainCh.ok : GainCh → Bool
  | .input n => decide (n < 1536)
  | .output n => decide (n < 1536)
  | .side p => decide (p < 32)
  | .portRx p s => decide (p < 32 ∧ s < 32)
  | .portTx p s => decide (p < 32 ∧ s < 32)
  | .rcFeed f => decide (f < 512)

/-- The slot, feed, section type or core that a response belonged to exists. -/
def XTraffic.ok : XTraffic → Bool
  | .bulk s => decide (s < 1024)
  | .tail f => decide (f < 512)
  | .staging core | .window core => decide (core < 36)
  | _ => true

/-- A move field stays within Table 9-10. -/
def MoveField.ok : MoveField → Bool
  | .none => true
  | .load reg an mode nsel => decide (reg < 24 ∧ an < 8 ∧ mode < 8 ∧ nsel < 8)
  | .store reg an mode nsel => decide (reg < 24 ∧ an < 8 ∧ mode < 8 ∧ nsel < 8)
  | .mov dst src => decide (dst < 24 ∧ src < 24)

/-- An AGU field stays within Table 9-11. -/
def AguField.ok (g : AguField) : Bool := decide (g.aop < 5 ∧ g.an < 8)

/-- The unit that a command names exists. A command whose unit does not exist is refused. -/
def Instr.unitOk : Instr → Bool
  | .registerWrite _ _ => true
  | .epochStart => true
  | .snapHold _ => true
  | .holdExpired => true
  | .commitAtHi _ => true
  | .commitNextGo => true
  | .commitCancelGo => true
  | .commitCutoff => true
  | .timebaseLoad => true
  | .renderPhaseA => true
  | .ringFilled slot => decide (slot < 1024)
  | .renderReduction => true
  | .renderPhaseB => true
  | .renderMargin => true
  | .zeroCrossing ch _ => GainCh.ok ch
  | .zcTimeout ch => GainCh.ok ch
  | .sweepStart gen => decide (gen < 12)
  | .enginePeriod => true
  | .settleCrossfadeStart slot => decide (slot < 1536)
  | .settleDone slot => decide (slot < 1536)
  | .cndSectionChecked => true
  | .sadmParseDone src _ => decide (src < 16)
  | .msrcWindowTimeout src => decide (src < 16)
  | .geoSectionChecked type => decide (0x10 ≤ type ∧ type ≤ 0x12)
  | .shedHoldExpiry slot => decide (slot < 1536)
  | .rcParallelStart => true
  | .rcReloadReady => true
  | .rcSectionChecked => true
  | .captureDone => true
  | .mpy core _ _ _ _ _ _ _ _ => decide (core < 36)
  | .macAdd core _ _ _ _ _ _ _ _ => decide (core < 36)
  | .msu core _ _ _ _ _ _ _ _ => decide (core < 36)
  | .mpyn core _ _ _ _ _ _ _ _ => decide (core < 36)
  | .clr core _ _ _ _ _ => decide (core < 36)
  | .rndAcc core _ _ _ _ _ => decide (core < 36)
  | .ldx core _ _ _ _ _ _ => decide (core < 36)
  | .ldy core _ _ _ _ _ _ => decide (core < 36)
  | .stx core _ _ _ _ _ _ => decide (core < 36)
  | .sty core _ _ _ _ _ _ => decide (core < 36)
  | .movReg core .. => decide (core < 36)
  | .adda core _ _ _ => decide (core < 36)
  | .suba core _ _ _ => decide (core < 36)
  | .inca core _ _ _ => decide (core < 36)
  | .deca core _ _ _ => decide (core < 36)
  | .li core _ _ _ => decide (core < 36)
  | .addWrap core _ _ _ _ _ _ => decide (core < 36)
  | .subWrap core _ _ _ _ _ _ => decide (core < 36)
  | .adds core _ _ _ _ _ _ => decide (core < 36)
  | .subs core _ _ _ _ _ _ => decide (core < 36)
  | .andBits core _ _ _ _ _ _ => decide (core < 36)
  | .orBits core _ _ _ _ _ _ => decide (core < 36)
  | .xorBits core _ _ _ _ _ _ => decide (core < 36)
  | .cmp core _ _ _ _ _ _ => decide (core < 36)
  | .minVal core _ _ _ _ _ _ => decide (core < 36)
  | .maxVal core _ _ _ _ _ _ => decide (core < 36)
  | .absVal core _ _ _ _ _ _ => decide (core < 36)
  | .neg core _ _ _ _ _ _ => decide (core < 36)
  | .asl core _ _ _ _ _ _ => decide (core < 36)
  | .asr core _ _ _ _ _ _ => decide (core < 36)
  | .asrr core _ _ _ _ _ _ => decide (core < 36)
  | .lsr core _ _ _ _ _ _ => decide (core < 36)
  | .asli core _ _ _ _ _ _ => decide (core < 36)
  | .asri core _ _ _ _ _ _ => decide (core < 36)
  | .lsri core _ _ _ _ _ _ => decide (core < 36)
  | .norm core _ _ _ _ _ _ => decide (core < 36)
  | .mova core _ _ _ _ _ _ => decide (core < 36)
  | .movn core _ _ _ _ _ _ => decide (core < 36)
  | .movm core _ _ _ _ _ _ => decide (core < 36)
  | .movfa core _ _ _ _ _ _ => decide (core < 36)
  | .xtrh core _ _ _ _ _ _ => decide (core < 36)
  | .xtrl core _ _ _ _ _ _ => decide (core < 36)
  | .insa core _ _ _ _ _ _ => decide (core < 36)
  | .accadd core _ _ _ _ _ _ => decide (core < 36)
  | .accsub core _ _ _ _ _ _ => decide (core < 36)
  | .accsh core _ _ _ _ _ _ => decide (core < 36)
  | .bra core _ _ _ => decide (core < 36)
  | .bcc core _ _ _ _ => decide (core < 36)
  | .callSub core _ _ _ => decide (core < 36)
  | .retSub core _ _ => decide (core < 36)
  | .jmp core _ _ _ => decide (core < 36)
  | .loopBack core _ _ _ _ => decide (core < 36)
  | .repImmediate core _ _ _ => decide (core < 36)
  | .repRegister core _ _ _ => decide (core < 36)
  | .rte core _ _ => decide (core < 36)
  | .endItem core _ _ => decide (core < 36)
  | .enq core _ _ _ => decide (core < 36)
  | .enqCreditFree core => decide (core < 36)
  | .evsig core _ _ _ => decide (core < 36)
  | .setscale core _ _ _ => decide (core < 36)
  | .getsr core _ _ _ => decide (core < 36)
  | .putsr core _ _ _ => decide (core < 36)
  | .cyc core _ _ _ => decide (core < 36)
  | .cid core _ _ _ => decide (core < 36)
  | .putwb core _ _ _ => decide (core < 36)
  | .waitw core _ _ => decide (core < 36)
  | .waitwDone core => decide (core < 36)
  | .windowReadData core _ => decide (core < 36)
  | .stageInDone core => decide (core < 36)
  | .itemComplete core => decide (core < 36)
  | .insertRelease stage => decide (stage < 4)
  | .itemCutoff stage => decide (stage < 4)
  | .dispatch => true
  | .submitGo => true
  | .cancel _ => true
  | .cancelProd prod => decide (prod < 34)
  | .coreGate core => decide (core < 36)
  | .coreWakeDone core => decide (core < 36)
  | .eventRaise source => decide (source < 1024)
  | .pendSet source => decide (source < 1024)
  | .pendClr source => decide (source < 1024)
  | .maskSet source => decide (source < 1024)
  | .maskClr source => decide (source < 1024)
  | .eventOffer => true
  | .eventHoldoffExpiry source => decide (source < 1024)
  | .mediaFrameRx plane _ => decide (plane < 2)
  | .pfcPauseExpiry plane prio => decide (plane < 2 ∧ prio < 8)
  | .supervisorFrame plane => decide (plane < 2)
  | .txPacketRelease plane stream => decide (plane < 2 ∧ stream < 128)
  | .txFrameStart plane => decide (plane < 2)
  | .txStale plane stream => decide (plane < 2 ∧ stream < 128)
  | .speedStepStart plane => decide (plane < 2)
  | .stepEpoch plane => decide (plane < 2)
  | .linkUp port _ => decide (port < 3)
  | .linkDown port => decide (port < 3)
  | .stepTimeout plane => decide (plane < 2)
  | .netSectionChecked => true
  | .delayReqTx inst => decide (inst < 2)
  | .syncTx inst => decide (inst < 2)
  | .announceTx inst => decide (inst < 2)
  | .txTimestampReturn inst _ _ => decide (inst < 2)
  | .syncTimeout inst => decide (inst < 2)
  | .announceReceiptTimeout inst => decide (inst < 2)
  | .servoRevert => true
  | .servoAccept => true
  | .servoDegradedLog => true
  | .tuneSpiFrame => true
  | .pllLockDone pll => decide (pll < 6)
  | .relock pll => decide (pll < 6)
  | .syncInEdge _ => true
  | .refLoss (.phase pll) => decide (pll < 6)
  | .refLoss _ => true
  | .refValid _ => true
  | .pllReacquireDone pll => decide (pll < 6)
  | .holdoverDecision => true
  | .refRevert => true
  | .pllNoReacquire pll => decide (pll < 6)
  | .sapFrame port _ _ => decide (port < 32)
  | .sapNoClock port => decide (port < 32)
  | .sapRealign port _ => decide (port < 32)
  | .sapPortStopped port => decide (port < 32)
  | .followLock => true
  | .timebaseToFollow => true
  | .timebaseToPtp => true
  | .timebaseReload => true
  | .xbarGrant req => decide (req.master < 19)
  | .xbarResponse master _ _ traffic => decide (master < 19) && XTraffic.ok traffic
  | .masterReset master => decide (master < 19)
  | .remap => true
  | .dramRequest ch _ _ _ master _ => decide (ch < 2 ∧ master < 19)
  | .dramRefresh ch => decide (ch < 2)
  | .retrainingPause ch _ => decide (ch < 2)
  | .powerDownEntry ch rank => decide (ch < 2 ∧ rank < 2)
  | .selfRefreshEntry ch => decide (ch < 2)
  | .selfRefreshExit ch => decide (ch < 2)
  | .memInit ch _ => decide (ch < 2)
  | .twinEpochFrameRx lane _ _ => decide (lane < 2)
  | .joinRequest lane _ => decide (lane < 2)
  | .joinRequestTx => true
  | .joinStart _ lane _ => decide (lane < 2)
  | .joinStop lane _ => decide (lane < 2)
  | .stateFrameRx _ lane _ => decide (lane < 2)
  | .joinTimeout => true
  | .peerActiveChange _ => true
  | .outputClaim => true
  | .claimConfirm => true
  | .seniorConflictRelease => true
  | .claimBackoff => true
  | .watchdogRelease => true
  | .rearm => true
  | .hardFault pool cluster _ unit => decide (pool < 2 ∧ cluster < (if pool = 0 then 5 else 9) ∧ unit < 4)
  | .moonTakeover pool _ => decide (pool < 2)
  | .moonReqHi _ => true
  | .patrolAdvance pool _ => decide (pool < 2)
  | .porstRelease _ => true
  | .dramWipeDone => true
  | .bootComplete => true
  | .autoConfirm => true
  | .confirmGo => true
  | .reloadGo => true
  | .reloadReady => true
  | .reloadAbandon => true
  | .reloadRefused type _ => decide (0x10 ≤ type ∧ type ≤ 0x19)
  | .hello port _ _ => decide (port < 3)
  | .request port _ _ => decide (port < 3)
  | .readCmd _ _ => true
  | .writeCmd _ _ => true
  | .commitAt _ => true
  | .commitNext => true
  | .commitCancel => true
  | .commitCommandResult => true
  | .erase _ _ => true
  | .upload _ _ => true
  | .bankCrc _ _ => true
  | .flashOpDone _ => true
  | .reload => true
  | .abandon => true
  | .confirm => true
  | .close => true
  | .flashErase _ _ => true
  | .flashWrite _ _ => true
  | .flashCrc _ _ => true
  | .sessionIdleTimeout _ => true
  | .regRead _ _ _ => true
  | .regWrite _ _ _ => true
  | .mboxPut _ _ _ => true
  | .mboxGet _ => true
  | .boot _ => true
  | .perfFreeze => true
  | .perfRelease => true
  | .perfClear => true
  | .errorRaise _ _ _ _ => true
  | .errorCollect => true
  | .mirrorWrite _ => true
  | .lcsRequest _ _ _ => true
  | .fuseProgram _ slot _ => decide (slot < 4)
  | .fuseRevoke _ slot _ => decide (slot < 4)
  | .jtagInstruction _ _ _ => true
  | .standbyResetRelease _ _ => true
  | .standbyResetAssert => true
  | .railInWindow rail _ => decide (rail < 10)
  | .railQualified rail => decide (rail < 6)
  | .railSequenceTimeout rail _ => decide (rail < 6)
  | .railFault rail _ => decide (rail < 6)
  | .pmbAlert _ => true
  | .telemetryPoll _ => true
  | .thermalSample _ => true
  | .thermalAlarmClear => true
  | .porstFall => true
  | .linkFlitReplay link _ => decide (link < 2)
  | .twinFrameCrcError lane => decide (lane < 2)
  | .mgtFrameRx _ => true
  | .oscTunePwmPeriod => true
  | .pwrExtPowerGood => true
  | .testModeChange _ => true

/-- A bundle's fields stay within its encoding; commands beside the bundles have no such fields. -/
def Instr.fieldsOk : Instr → Bool
  | .registerWrite _ _ => true
  | .epochStart => true
  | .snapHold _ => true
  | .holdExpired => true
  | .commitAtHi _ => true
  | .commitNextGo => true
  | .commitCancelGo => true
  | .commitCutoff => true
  | .timebaseLoad => true
  | .renderPhaseA => true
  | .ringFilled _ => true
  | .renderReduction => true
  | .renderPhaseB => true
  | .renderMargin => true
  | .zeroCrossing _ _ => true
  | .zcTimeout _ => true
  | .sweepStart _ => true
  | .enginePeriod => true
  | .settleCrossfadeStart _ => true
  | .settleDone _ => true
  | .cndSectionChecked => true
  | .sadmParseDone _ _ => true
  | .msrcWindowTimeout _ => true
  | .geoSectionChecked _ => true
  | .shedHoldExpiry _ => true
  | .rcParallelStart => true
  | .rcReloadReady => true
  | .rcSectionChecked => true
  | .captureDone => true
  | .mpy _ form s t a lanes x y g =>
    x.ok && y.ok && g.ok && decide (form < 2) && decide (s < 16) && decide (t < 16) && decide (a < 8) && decide (1 ≤ lanes ∧ lanes ≤ 4)
  | .macAdd _ form s t a lanes x y g =>
    x.ok && y.ok && g.ok && decide (form < 2) && decide (s < 16) && decide (t < 16) && decide (a < 8) && decide (1 ≤ lanes ∧ lanes ≤ 4)
  | .msu _ form s t a lanes x y g =>
    x.ok && y.ok && g.ok && decide (form < 2) && decide (s < 16) && decide (t < 16) && decide (a < 8) && decide (1 ≤ lanes ∧ lanes ≤ 4)
  | .mpyn _ form s t a lanes x y g =>
    x.ok && y.ok && g.ok && decide (form < 2) && decide (s < 16) && decide (t < 16) && decide (a < 8) && decide (1 ≤ lanes ∧ lanes ≤ 4)
  | .clr _ a lanes x y g => x.ok && y.ok && g.ok && decide (a < 8) && decide (1 ≤ lanes ∧ lanes ≤ 4)
  | .rndAcc _ a lanes x y g => x.ok && y.ok && g.ok && decide (a < 8) && decide (1 ≤ lanes ∧ lanes ≤ 4)
  | .ldx _ reg an mode nsel other g => other.ok && g.ok && (MoveField.load reg an mode nsel).ok
  | .ldy _ reg an mode nsel other g => other.ok && g.ok && (MoveField.load reg an mode nsel).ok
  | .stx _ reg an mode nsel other g => other.ok && g.ok && (MoveField.load reg an mode nsel).ok
  | .sty _ reg an mode nsel other g => other.ok && g.ok && (MoveField.load reg an mode nsel).ok
  | .movReg _ _ dst src other g => other.ok && g.ok && (dst.all fun r => decide (r < 24)) && decide (src < 24)
  | .adda _ an x y => x.ok && y.ok && decide (an < 8)
  | .suba _ an x y => x.ok && y.ok && decide (an < 8)
  | .inca _ an x y => x.ok && y.ok && decide (an < 8)
  | .deca _ an x y => x.ok && y.ok && decide (an < 8)
  | .li _ file reg _ => decide (file < 4) && decide (reg < (if file = 0 then 16 else 8))
  | .addWrap _ dst s1 s2 x y g => x.ok && y.ok && g.ok && decide (dst < 16) && decide (s1 < 16) && decide (s2 < 16)
  | .subWrap _ dst s1 s2 x y g => x.ok && y.ok && g.ok && decide (dst < 16) && decide (s1 < 16) && decide (s2 < 16)
  | .adds _ dst s1 s2 x y g => x.ok && y.ok && g.ok && decide (dst < 16) && decide (s1 < 16) && decide (s2 < 16)
  | .subs _ dst s1 s2 x y g => x.ok && y.ok && g.ok && decide (dst < 16) && decide (s1 < 16) && decide (s2 < 16)
  | .andBits _ dst s1 s2 x y g => x.ok && y.ok && g.ok && decide (dst < 16) && decide (s1 < 16) && decide (s2 < 16)
  | .orBits _ dst s1 s2 x y g => x.ok && y.ok && g.ok && decide (dst < 16) && decide (s1 < 16) && decide (s2 < 16)
  | .xorBits _ dst s1 s2 x y g => x.ok && y.ok && g.ok && decide (dst < 16) && decide (s1 < 16) && decide (s2 < 16)
  | .cmp _ dst s1 s2 x y g => x.ok && y.ok && g.ok && decide (dst < 16) && decide (s1 < 16) && decide (s2 < 16)
  | .minVal _ dst s1 s2 x y g => x.ok && y.ok && g.ok && decide (dst < 16) && decide (s1 < 16) && decide (s2 < 16)
  | .maxVal _ dst s1 s2 x y g => x.ok && y.ok && g.ok && decide (dst < 16) && decide (s1 < 16) && decide (s2 < 16)
  | .absVal _ dst s1 s2 x y g => x.ok && y.ok && g.ok && decide (dst < 16) && decide (s1 < 16) && decide (s2 < 16)
  | .neg _ dst s1 s2 x y g => x.ok && y.ok && g.ok && decide (dst < 16) && decide (s1 < 16) && decide (s2 < 16)
  | .asl _ dst s1 s2 x y g => x.ok && y.ok && g.ok && decide (dst < 16) && decide (s1 < 16) && decide (s2 < 16)
  | .asr _ dst s1 s2 x y g => x.ok && y.ok && g.ok && decide (dst < 16) && decide (s1 < 16) && decide (s2 < 16)
  | .asrr _ dst s1 s2 x y g => x.ok && y.ok && g.ok && decide (dst < 16) && decide (s1 < 16) && decide (s2 < 16)
  | .lsr _ dst s1 s2 x y g => x.ok && y.ok && g.ok && decide (dst < 16) && decide (s1 < 16) && decide (s2 < 16)
  | .asli _ dst s1 cnt x y g => x.ok && y.ok && g.ok && decide (dst < 16) && decide (s1 < 16) && decide (cnt < 32)
  | .asri _ dst s1 cnt x y g => x.ok && y.ok && g.ok && decide (dst < 16) && decide (s1 < 16) && decide (cnt < 32)
  | .lsri _ dst s1 cnt x y g => x.ok && y.ok && g.ok && decide (dst < 16) && decide (s1 < 16) && decide (cnt < 32)
  | .norm _ dst s1 s2 x y g => x.ok && y.ok && g.ok && decide (dst < 16) && decide (s1 < 16) && decide (s2 < 16)
  | .mova _ dst s1 s2 x y g => x.ok && y.ok && g.ok && decide (dst < 16) && decide (s1 < 16) && decide (s2 < 16)
  | .movn _ dst s1 s2 x y g => x.ok && y.ok && g.ok && decide (dst < 16) && decide (s1 < 16) && decide (s2 < 16)
  | .movm _ dst s1 s2 x y g => x.ok && y.ok && g.ok && decide (dst < 16) && decide (s1 < 16) && decide (s2 < 16)
  | .movfa _ dst s1 s2 x y g => x.ok && y.ok && g.ok && decide (dst < 16) && decide (s1 < 16) && decide (s2 < 16)
  | .xtrh _ dst s1 s2 x y g => x.ok && y.ok && g.ok && decide (dst < 16) && decide (s1 < 16) && decide (s2 < 16)
  | .xtrl _ dst s1 s2 x y g => x.ok && y.ok && g.ok && decide (dst < 16) && decide (s1 < 16) && decide (s2 < 16)
  | .insa _ dst s1 s2 x y g => x.ok && y.ok && g.ok && decide (dst < 16) && decide (s1 < 16) && decide (s2 < 16)
  | .accadd _ dst s1 s2 x y g => x.ok && y.ok && g.ok && decide (dst < 16) && decide (s1 < 16) && decide (s2 < 16)
  | .accsub _ dst s1 s2 x y g => x.ok && y.ok && g.ok && decide (dst < 16) && decide (s1 < 16) && decide (s2 < 16)
  | .accsh _ dst s1 s2 x y g => x.ok && y.ok && g.ok && decide (dst < 16) && decide (s1 < 16) && decide (s2 < 16)
  | .bra _ addr y g => y.ok && g.ok && decide (addr < 8192)
  | .bcc _ cond addr y g => y.ok && g.ok && decide (cond < 8) && decide (addr < 8192)
  | .callSub _ addr y g => y.ok && g.ok && decide (addr < 8192)
  | .retSub _ y g => y.ok && g.ok
  | .jmp _ areg y g => y.ok && g.ok && decide (areg < 8)
  | .loopBack _ dreg addr y g => y.ok && g.ok && decide (dreg < 16) && decide (addr < 8192)
  | .repImmediate _ n y g => y.ok && g.ok && decide (1 ≤ n ∧ n ≤ 4096)
  | .repRegister _ dreg y g => y.ok && g.ok && decide (dreg < 16)
  | .rte _ y g => y.ok && g.ok
  | .endItem _ y g => y.ok && g.ok
  | .enq _ areg y g => y.ok && g.ok && decide (areg < 8)
  | .enqCreditFree _ => true
  | .evsig _ source y g => y.ok && g.ok && decide (source < 1024)
  | .setscale _ imm y g => y.ok && g.ok && decide (imm < 32)
  | .getsr _ dreg y g => y.ok && g.ok && decide (dreg < 16)
  | .putsr _ dreg y g => y.ok && g.ok && decide (dreg < 16)
  | .cyc _ dreg y g => y.ok && g.ok && decide (dreg < 16)
  | .cid _ dreg y g => y.ok && g.ok && decide (dreg < 16)
  | .putwb _ dreg y g => y.ok && g.ok && decide (dreg < 16)
  | .waitw _ y g => y.ok && g.ok
  | .waitwDone _ => true
  | .windowReadData _ _ => true
  | .stageInDone _ => true
  | .itemComplete _ => true
  | .insertRelease _ => true
  | .itemCutoff _ => true
  | .dispatch => true
  | .submitGo => true
  | .cancel _ => true
  | .cancelProd _ => true
  | .coreGate _ => true
  | .coreWakeDone _ => true
  | .eventRaise _ => true
  | .pendSet _ => true
  | .pendClr _ => true
  | .maskSet _ => true
  | .maskClr _ => true
  | .eventOffer => true
  | .eventHoldoffExpiry _ => true
  | .mediaFrameRx _ _ => true
  | .pfcPauseExpiry _ _ => true
  | .supervisorFrame _ => true
  | .txPacketRelease _ _ => true
  | .txFrameStart _ => true
  | .txStale _ _ => true
  | .speedStepStart _ => true
  | .stepEpoch _ => true
  | .linkUp _ _ => true
  | .linkDown _ => true
  | .stepTimeout _ => true
  | .netSectionChecked => true
  | .delayReqTx _ => true
  | .syncTx _ => true
  | .announceTx _ => true
  | .txTimestampReturn _ _ _ => true
  | .syncTimeout _ => true
  | .announceReceiptTimeout _ => true
  | .servoRevert => true
  | .servoAccept => true
  | .servoDegradedLog => true
  | .tuneSpiFrame => true
  | .pllLockDone _ => true
  | .relock _ => true
  | .syncInEdge _ => true
  | .refLoss _ => true
  | .refValid _ => true
  | .pllReacquireDone _ => true
  | .holdoverDecision => true
  | .refRevert => true
  | .pllNoReacquire _ => true
  | .sapFrame _ _ _ => true
  | .sapNoClock _ => true
  | .sapRealign _ _ => true
  | .sapPortStopped _ => true
  | .followLock => true
  | .timebaseToFollow => true
  | .timebaseToPtp => true
  | .timebaseReload => true
  | .xbarGrant _ => true
  | .xbarResponse _ _ _ _ => true
  | .masterReset _ => true
  | .remap => true
  | .dramRequest _ _ _ _ _ _ => true
  | .dramRefresh _ => true
  | .retrainingPause _ _ => true
  | .powerDownEntry _ _ => true
  | .selfRefreshEntry _ => true
  | .selfRefreshExit _ => true
  | .memInit _ _ => true
  | .twinEpochFrameRx _ _ _ => true
  | .joinRequest _ _ => true
  | .joinRequestTx => true
  | .joinStart _ _ _ => true
  | .joinStop _ _ => true
  | .stateFrameRx _ _ _ => true
  | .joinTimeout => true
  | .peerActiveChange _ => true
  | .outputClaim => true
  | .claimConfirm => true
  | .seniorConflictRelease => true
  | .claimBackoff => true
  | .watchdogRelease => true
  | .rearm => true
  | .hardFault _ _ _ _ => true
  | .moonTakeover _ _ => true
  | .moonReqHi _ => true
  | .patrolAdvance _ _ => true
  | .porstRelease _ => true
  | .dramWipeDone => true
  | .bootComplete => true
  | .autoConfirm => true
  | .confirmGo => true
  | .reloadGo => true
  | .reloadReady => true
  | .reloadAbandon => true
  | .reloadRefused _ _ => true
  | .hello _ _ _ => true
  | .request _ _ _ => true
  | .readCmd _ _ => true
  | .writeCmd _ _ => true
  | .commitAt _ => true
  | .commitNext => true
  | .commitCancel => true
  | .commitCommandResult => true
  | .erase _ _ => true
  | .upload _ _ => true
  | .bankCrc _ _ => true
  | .flashOpDone _ => true
  | .reload => true
  | .abandon => true
  | .confirm => true
  | .close => true
  | .flashErase _ _ => true
  | .flashWrite _ _ => true
  | .flashCrc _ _ => true
  | .sessionIdleTimeout _ => true
  | .regRead _ _ _ => true
  | .regWrite _ _ _ => true
  | .mboxPut _ _ _ => true
  | .mboxGet _ => true
  | .boot _ => true
  | .perfFreeze => true
  | .perfRelease => true
  | .perfClear => true
  | .errorRaise _ _ _ _ => true
  | .errorCollect => true
  | .mirrorWrite _ => true
  | .lcsRequest _ _ _ => true
  | .fuseProgram _ _ _ => true
  | .fuseRevoke _ _ _ => true
  | .jtagInstruction _ _ _ => true
  | .standbyResetRelease _ _ => true
  | .standbyResetAssert => true
  | .railInWindow _ _ => true
  | .railQualified _ => true
  | .railSequenceTimeout _ _ => true
  | .railFault _ _ => true
  | .pmbAlert _ => true
  | .telemetryPoll _ => true
  | .thermalSample _ => true
  | .thermalAlarmClear => true
  | .porstFall => true
  | .linkFlitReplay _ _ => true
  | .twinFrameCrcError _ => true
  | .mgtFrameRx _ => true
  | .oscTunePwmPeriod => true
  | .pwrExtPowerGood => true
  | .testModeChange _ => true

/-- A well-formed command names a unit that exists and stays within its encoding. -/
def Instr.wellFormed (c : Instr) : Bool := c.unitOk && c.fieldsOk

end Sys2Proof
end

