-- ==== Sys2Proof/Certificates/Slice0/Obligations.lean ====
section
/-!
DEFINITION. Sys2Proof/Certificates/Slice0/Obligations.lean: the statements for the provers.
-/
open Sys2Proof Sys2Proof.Machine

/-- A step takes the command at the front of the queue and runs it on the state with the queue's rest. The queue is the model's own
form (log entry 2). -/
def Obligations.StepRunsTheFrontCommand : Prop :=
  ∀ (s : State) (c : Instr) (rest : List Instr), s.pending = c :: rest → step s = exec c { s with pending := rest }

/-- With no command waiting a step changes nothing: the model's choice (log entry 2). -/
def Obligations.EmptyQueueIdles : Prop := ∀ s : State, s.pending = [] → step s = .next s

/-- Running a command changes nothing in the queue of waiting commands (the queue is the model's own form, log entry 2). -/
def Obligations.CommandsLeaveTheQueue : Prop := ∀ (c : Instr) (s t : State), exec c s = .next t → t.pending = s.pending

/-- A command whose unit exists goes on in every state, and one whose unit does not exist is refused: the refusal is the model's
(log entry 38). -/
def Obligations.CommandsRunWhenTheirUnitExists : Prop :=
  ∀ (c : Instr) (s : State),
    (c.unitOk = true → ∃ t, exec c s = .next t) ∧ (c.unitOk = false → exec c s = .refused .noSuchUnit)

/-- Every step keeps the invariant `Canonical`: the banks of registers and the memories stay in their one form, the epoch counter
keeps its 48 bits (R29) and an epoch never holds more than 64 engine periods (R64). -/
def Obligations.EveryStepKeepsTheDeviceCanonical : Prop :=
  ∀ s t : State, Canonical s.dev → step s = .next t → Canonical t.dev

/-- The state after reset meets the invariant. -/
def Obligations.ResetIsCanonical : Prop := Canonical State.reset.dev

/-- R42: a write of SNAP_HOLD takes effect at once; the hold expires after 3,000 epoch starts, which clears SNAP_HOLD and sets
HOLD_EXPIRED; before that HOLD_EXPIRED's event changes nothing (log entry 1). -/
def Obligations.SnapshotHold : Prop :=
  (∀ (s : State) (v : Bool), Runs (.snapHold v) s fun d =>
    liveB d offEpcCtrl 0 = v ∧ d.epc.held = (if v then s.dev.epc.held else 0) ∧
    RegsBut [offEpcCtrl] s.dev d ∧ { d with regs := s.dev.regs, epc := s.dev.epc } = s.dev) ∧
  (∀ s : State, liveB s.dev offEpcCtrl 0 = true → 3000 ≤ s.dev.epc.held → Runs .holdExpired s fun d =>
    liveB d offEpcCtrl 0 = false ∧ liveB d offEpcStatus 7 = true ∧ d.epc = { s.dev.epc with held := 0 } ∧
    RegsBut [offEpcCtrl, offEpcStatus] s.dev d ∧ { d with regs := s.dev.regs, epc := s.dev.epc } = s.dev) ∧
  (∀ s : State, s.dev.epc.held < 3000 → Runs .holdExpired s fun d => d = s.dev)

/-- R36, R37 and R38: how EPC judges a commit request of either kind, and what a cancel does. -/
def Obligations.CommitRequestsAreJudgedInOrder : Prop :=
  let judged := fun (e : Nat) (a : Dev) (d : Dev) =>
    let c := a.epc.epoch
    let result := if a.epc.commit = some e then 1
      else if e ≤ c ∨ (e = c + 1 ∧ a.epc.cutoff = true) then 3
      else if e - c > 16777216 then 5
      else if a.epc.commit.isSome then 4
      else 1
    liveF d offEpcCommitStatus 2 0 = result ∧
    liveF d offEpcCommitStatus 31 16 = (liveF a offEpcCommitStatus 31 16 + 1) % 65536 ∧
    liveGet d offEpcCommitTargetLo = BitVec.ofNat 32 e ∧
    liveGet d offEpcCommitTargetHi = BitVec.ofNat 32 (e / 2 ^ 32 % 65536) ∧
    d.epc.commit = (if result = 1 then some e else a.epc.commit) ∧
    RegsBut [offEpcCommitStatus, offEpcCommitTargetLo, offEpcCommitTargetHi, offEpcStatus] a d ∧
    { d with regs := a.regs, epc := a.epc } = a
  (∀ (s : State) (val : Word),
    Runs (.commitAtHi val) s (judged (bits val 15 0 * 2 ^ 32 + (liveGet s.dev offEpcCommitAtLo).toNat) s.dev)) ∧
  (∀ s : State, Runs .commitNextGo s (judged (s.dev.epc.epoch + if s.dev.epc.cutoff then 2 else 1) s.dev)) ∧
  (∀ (s : State) (e : Nat), s.dev.epc.commit = some e → ¬(s.dev.epc.cutoff = true ∧ e ≤ s.dev.epc.epoch + 1) →
    Runs .commitCancelGo s fun d => d.epc.commit = none ∧ liveF d offEpcCommitStatus 2 0 = 7 ∧
      RegsBut [offEpcCommitStatus, offEpcStatus] s.dev d ∧ { d with regs := s.dev.regs, epc := s.dev.epc } = s.dev) ∧
  (∀ (s : State) (e : Nat), s.dev.epc.commit = some e → s.dev.epc.cutoff = true → e ≤ s.dev.epc.epoch + 1 →
    Runs .commitCancelGo s fun d => d = s.dev)

/-- The configuration that sounds come from (the active copies, R35), the shadow copies that wait for a commit (R33), the snapshot
that readers see (R41), the epoch and the memories change under the commands of `Instr.writesCopies` alone; MEM1 also under those of
`Instr.writesMem1` (R27) and its reserved region under those of `Instr.writesReserved` (R327). The ring of the error log in SRAM
(R427), the bulk lines in MEM0 (R136) and the standby tables (R328) are left out. -/
def Obligations.OnlyTheseCommandsChangeConfiguration : Prop :=
  ∀ (c : Instr) (s t : State), c.writesCopies = false → exec c s = .next t →
    t.dev.regs.shadow = s.dev.regs.shadow ∧ t.dev.regs.act = s.dev.regs.act ∧ t.dev.regs.snap = s.dev.regs.snap ∧
    (∀ o, inLogRing o = false → sramByte t.dev o = sramByte s.dev o) ∧
    (∀ o, 0x08000000 ≤ o → mem0Byte t.dev o = mem0Byte s.dev o) ∧
    t.dev.mem.sram = s.dev.mem.sram ∧ t.dev.mem.mem0 = s.dev.mem.mem0 ∧ t.dev.mem.render = s.dev.mem.render ∧
    t.dev.mem.active = s.dev.mem.active ∧ t.dev.mem.rcRegion = s.dev.mem.rcRegion ∧
    t.dev.epc.epoch = s.dev.epc.epoch ∧ t.dev.epc.period = s.dev.epc.period ∧
    (c.writesMem1 = false → t.dev.mem.mem1 = s.dev.mem.mem1) ∧
    (c.writesReserved = false → t.dev.mem.reserved = s.dev.mem.reserved)

/-- R235, R240 and R241: a raise sets a pending bit or is counted in COALESCE; PEND_CLR, MASK_SET and MASK_CLR change one bit. A
reserved source's raise by hardware changes nothing (log entry 1); that after a Fatal error (R16) it raises the epoch start alone is
log entry 223's reading. -/
def Obligations.EventPendingAndMaskBits : Prop :=
  let raised := fun (src : Nat) (a d : Dev) =>
    (∀ k, evtPending d k = (evtPending a k || decide (k = src))) ∧
    liveGet d offEvtCoalesce = liveGet a offEvtCoalesce + (if evtPending a src then 1 else 0) ∧
    OnlyWords [offEvtPend (src / 32), offEvtCoalesce] a d
  (∀ (s : State) (src : Nat), src < 1024 → Runs (.pendSet src) s (raised src s.dev)) ∧
  (∀ (s : State) (src : Nat), src ≤ 40 → (fatal s.dev = false ∨ src = 4) → Runs (.eventRaise src) s (raised src s.dev)) ∧
  (∀ (s : State) (src : Nat), src ≤ 40 → fatal s.dev = true → src ≠ 4 → Runs (.eventRaise src) s fun d => d = s.dev) ∧
  (∀ (s : State) (src : Nat), 40 < src → src < 1024 → Runs (.eventRaise src) s fun d => d = s.dev) ∧
  (∀ (s : State) (src : Nat), src < 1024 → Runs (.pendClr src) s fun d =>
    (∀ k, evtPending d k = (evtPending s.dev k && decide (k ≠ src))) ∧ OnlyWords [offEvtPend (src / 32)] s.dev d) ∧
  (∀ (s : State) (src : Nat), src < 1024 → Runs (.maskSet src) s fun d =>
    (∀ k, evtMasked d k = (evtMasked s.dev k || decide (k = src))) ∧ OnlyWords [offEvtMask (src / 32)] s.dev d) ∧
  (∀ (s : State) (src : Nat), src < 1024 → Runs (.maskClr src) s fun d =>
    (∀ k, evtMasked d k = (evtMasked s.dev k && decide (k ≠ src))) ∧ OnlyWords [offEvtMask (src / 32)] s.dev d)

/-- R234 to R237, R239, R205, R218 and R242: one offer with a single deliverable source, by action; offers of several sources at once
are left out. That a supervisor takes every offer is log entry 69's choice. -/
def Obligations.EventDelivery : Prop :=
  let cleared := fun (src : Nat) (a d : Dev) =>
    (∀ k, k < 1024 → evtPending d k = (evtPending a k && decide (k ≠ src))) ∧
    d.evt = { a.evt with holdoff := if actF a (offEvtSrcHoldoff src) 11 0 = 0 then a.evt.holdoff else setIns a.evt.holdoff src }
  (∀ s : State, running s.dev blkEvt = false → Runs .eventOffer s fun d => d = s.dev) ∧
  (∀ s : State, evtOrder s.dev = [] → Runs .eventOffer s fun d => d = s.dev) ∧
  (∀ (s : State) (src : Nat), running s.dev blkEvt = true → evtOrder s.dev = [src] → actF s.dev (offEvtSrcCfg src) 31 30 = 1 →
    (actB s.dev (offEvtSrcCfg src) 29 = false ∨ actF s.dev (offEvtSrcCfg src) 28 24 < 4) →
    Runs .eventOffer s fun d => cleared src s.dev d ∧ RegsBut [offEvtPend (src / 32)] s.dev d ∧
      { d with regs := s.dev.regs, evt := s.dev.evt } = s.dev) ∧
  (∀ (s : State) (src : Nat), running s.dev blkEvt = true → evtOrder s.dev = [src] → 2 ≤ actF s.dev (offEvtSrcCfg src) 31 30 →
    let template := (List.range 8).map fun w =>
      let v := actGet s.dev (offWdTemplate (actF s.dev (offEvtSrcCfg src) 19 16) w)
      if w = 1 then setBits v 9 0 src else v
    (creditsFree s.dev 32 = 0 → Runs .eventOffer s fun d => d = s.dev) ∧
    (creditsFree s.dev 32 ≠ 0 → descriptorOk s.dev template = true → Runs .eventOffer s fun d => cleared src s.dev d ∧
      d.wd = { s.dev.wd with ready := s.dev.wd.ready ++ [⟨template, 32, s.dev.wd.seq⟩], seq := (s.dev.wd.seq + 1) % 2 ^ 32 } ∧
      RegsBut [offEvtPend (src / 32)] s.dev d ∧ { d with regs := s.dev.regs, evt := s.dev.evt, wd := s.dev.wd } = s.dev)) ∧
  (∀ (s : State) (src p k : Nat), running s.dev blkEvt = true → evtOrder s.dev = [src] → actF s.dev (offEvtSrcCfg src) 31 30 = 0 →
    let want := actF s.dev (offEvtSrcCfg src) 28 24
    let gone := actB s.dev (offEvtSrcCfg src) 29 && (s.dev.vec.places.getD (want / 4) none).isNone
    bestPos s.dev (evtPrio s.dev src) [] (if actB s.dev (offEvtSrcCfg src) 29 = true ∧ gone = false then
        (if (offerPositions s.dev).contains want then [want] else []) else offerPositions s.dev) = some p →
    coreAt s.dev p = some k → k < 36 →
    (canAccept s.dev k = false → Runs .eventOffer s fun d =>
      d = startWake (if gone then liveSetB s.dev offEvtStatus 1 true else s.dev) k) ∧
    (canAccept s.dev k = true → Runs .eventOffer s fun d => cleared src s.dev d ∧
      liveB d offEvtStatus 1 = (gone || liveB s.dev offEvtStatus 1) ∧
      liveGet d offEvtRerouteCount = liveGet s.dev offEvtRerouteCount + (if gone then 1 else 0) ∧
      (coreOf d k).era = (coreOf s.dev k).pc ∧ (coreOf d k).pc = actF s.dev (offEvtSrcCfg src) 12 0 ∧
      mapGet (fun _ => 0) (coreOf d k).regs 64 = src ∧ (∀ r, r ≠ 64 → mapGet (fun _ => 0) (coreOf d k).regs r =
        mapGet (fun _ => 0) (coreOf s.dev k).regs r) ∧
      inHandler d k = true ∧ (∀ j, j ≠ k → coreOf d j = coreOf s.dev j) ∧
      RegsBut (offEvtStatus :: offEvtRerouteCount :: offEvtPend (src / 32) :: offVecCoreState k :: perfWords (20 + k)) s.dev d ∧
      { d with regs := s.dev.regs, evt := s.dev.evt, vec := s.dev.vec } = s.dev ∧
      { d.vec with cores := s.dev.vec.cores } = s.dev.vec))

/-- R230, R237 and R238: gating, the end of a wake, and the end of a holdoff. An event whose condition does not hold changes
nothing (log entry 1); the moon's power is its patrol's (R371). -/
def Obligations.CoresGateAndWake : Prop :=
  (∀ (s : State) (k : Nat), k < 36 →
    let may := running s.dev blkVec = true ∧ actB s.dev offWdCtrl 2 = true ∧ actB s.dev offWdCtrl 1 = false ∧
      s.dev.wd.recovery = false ∧ coreState s.dev k = 1 ∧ inHandler s.dev k = false ∧ (coreOf s.dev k).item = none ∧
      (posOf s.dev k).isSome = true
    let noted := fun (d : Dev) => { d with perf := { d.perf with mixed := setIns d.perf.mixed (20 + k) } }
    (may → Runs (.coreGate k) s fun d => d = setCoreState (noted s.dev) k 0) ∧
    (¬may → Runs (.coreGate k) s fun d => d = s.dev)) ∧
  (∀ (s : State) (k : Nat), k < 36 →
    let noted := fun (d : Dev) => { d with perf := { d.perf with mixed := setIns d.perf.mixed (20 + k) } }
    ((coreOf s.dev k).waking = true → running s.dev blkVec = true → coreState s.dev k = 0 → Runs (.coreWakeDone k) s fun d =>
      d = setCoreState (noted (setCore s.dev k { coreOf s.dev k with waking := false })) k
        (if (coreOf s.dev k).item.isSome = true then 2 else 1)) ∧
    (¬((coreOf s.dev k).waking = true ∧ running s.dev blkVec = true ∧ coreState s.dev k = 0) → Runs (.coreWakeDone k) s fun d => d = s.dev)) ∧
  (∀ (s : State) (src : Nat), src < 1024 →
    (src ∉ s.dev.evt.holdoff → Runs (.eventHoldoffExpiry src) s fun d => d = s.dev) ∧
    (src ∈ s.dev.evt.holdoff →
      let a : Dev := { s.dev with evt := { s.dev.evt with holdoff := setDel s.dev.evt.holdoff src } }
      (∀ k, coreAt s.dev (actF s.dev (offEvtSrcCfg src) 28 24) = some k → running s.dev blkEvt = true →
        deliverable a src = true → actF s.dev (offEvtSrcCfg src) 31 30 = 0 → actB s.dev (offEvtSrcCfg src) 29 = true →
        Runs (.eventHoldoffExpiry src) s fun d => d =
          if coreState s.dev k = 0 ∧ running s.dev blkVec = true then setCore a k { coreOf s.dev k with waking := true } else a) ∧
      ((actB s.dev (offEvtSrcCfg src) 29 = false ∨ deliverable a src = false ∨ actF s.dev (offEvtSrcCfg src) 31 30 ≠ 0) →
        Runs (.eventHoldoffExpiry src) s fun d => d = a)))

/-- R226 to R228: the choice of the next item and of its core, and what a dispatch does. That an item whose group has one running is
passed over for the next is log entry 183's reading, and that a dispatch with nothing to do changes nothing is log entry 1's. -/
def Obligations.DispatchOrder : Prop :=
  (∀ (d : Dev) (it : WorkItem), nextItem d = some it → it ∈ d.wd.ready ∧ groupBusy d it = false ∧
    ∀ j ∈ d.wd.ready, groupBusy d j = false → itemPrio j < itemPrio it ∨ (itemPrio j = itemPrio it ∧ it.seq ≤ j.seq)) ∧
  (∀ (d : Dev) (it : WorkItem) (k : Nat), chooseCore d it = some k → ∃ p ∈ openPositions d, coreAt d p = some k ∧
    coreIdle d k = true ∧ ∀ q ∈ openPositions d, ∀ j, coreAt d q = some j → coreIdle d j = true →
      coreRank d it p k ≤ coreRank d it q j) ∧
  (∀ (s : State) (it : WorkItem) (k : Nat), wdRuns s.dev = true → running s.dev blkVec = true → nextItem s.dev = some it →
    chooseCore s.dev it = some k → k < 36 → Runs .dispatch s fun d =>
      coreOf d k = { coreOf s.dev k with
        item := some it, ended := false, waking := decide (coreState s.dev k = 0), pos := (posOf s.dev k).getD 63 } ∧
      coreState d k = (if coreState s.dev k = 0 then 0 else 2) ∧ liveF d (offVecCoreState k) 23 8 = itemKernel it ∧
      (∀ j, j ≠ k → coreOf d j = coreOf s.dev j) ∧ d.wd = { s.dev.wd with ready := s.dev.wd.ready.filter fun j => decide (j ≠ it) } ∧
      liveGet d offWdDispatchCount = liveGet s.dev offWdDispatchCount + 1 ∧
      (itemKind it ≠ 0 → itemGroup it < 2048 → liveF d (offWdGroupStatus (itemGroup it)) 5 0 = (posOf s.dev k).getD 0 % 64) ∧
      RegsBut [offVecCoreState k, offWdDispatchCount, offWdGroupStatus (itemGroup it)] s.dev d ∧
      { d with regs := s.dev.regs, vec := s.dev.vec, wd := s.dev.wd } = s.dev ∧
      { d.vec with cores := s.dev.vec.cores } = s.dev.vec) ∧
  (∀ s : State, (wdRuns s.dev = false ∨ running s.dev blkVec = false ∨ nextItem s.dev = none) → Runs .dispatch s fun d => d = s.dev) ∧
  (∀ (s : State) (it : WorkItem), nextItem s.dev = some it → chooseCore s.dev it = none → Runs .dispatch s fun d => d = s.dev)

/-- R231: what the two cancels remove, abort and leave; a core that is left without an item takes what a reload waits to load into it
(R390), and one without a position powers down (R369). After a Fatal error (R422) a cancel changes nothing (log entry 1). -/
def Obligations.CancelsRemoveAndAbort : Prop :=
  (∀ (s : State) (tag : Word),
    let hit := fun (it : WorkItem) => decide (itemKind it = 0 ∧ itemW it 1 = tag)
    let aborted := fun (k : Nat) =>
      (coreOf s.dev k).item.any hit && !(endIssued (coreOf s.dev k)) && decide (coreState s.dev k ≠ 4)
    (fatal s.dev = true → Runs (.cancel tag) s fun d => d = s.dev) ∧
    (fatal s.dev = false → Runs (.cancel tag) s fun d =>
      d.wd = { s.dev.wd with
        ready := s.dev.wd.ready.filter fun it => !(hit it)
        records := s.dev.wd.records + (s.dev.wd.ready.filter hit).length + ((List.range 36).filter aborted).length } ∧
      (∀ k, k < 36 → aborted k = true → (coreOf d k).item = none ∧ inHandler d k = false ∧
        coreState d k = if coreState s.dev k = 5 then 5 else if (posOf s.dev k).isNone then 0 else 1) ∧
      (∀ k, k < 36 → aborted k = false → coreOf d k = coreOf s.dev k ∧ coreState d k = coreState s.dev k ∧
        inHandler d k = inHandler s.dev k) ∧
      (∀ o, o < 0x1000000 → liveGet d o = liveGet s.dev o) ∧
      { d with regs := s.dev.regs, vec := s.dev.vec, wd := s.dev.wd } = s.dev ∧
      d.vec.load = s.dev.vec.load.map (fun p => (p.1, p.2.filter fun k => !(decide (k < 36) && aborted k))) ∧
      { d.vec with cores := s.dev.vec.cores, load := s.dev.vec.load } = s.dev.vec)) ∧
  (∀ (s : State) (prod : Nat), prod < 34 →
    let hit := fun (it : WorkItem) => decide (itemKind it = 0 ∧ it.prod = prod)
    Runs (.cancelProd prod) s fun d =>
      d.wd = { s.dev.wd with
        ready := s.dev.wd.ready.filter fun it => !(hit it)
        records := s.dev.wd.records + (s.dev.wd.ready.filter hit).length } ∧
      (∀ o, o < 0x1100000 → liveGet d o = liveGet s.dev o) ∧ { d with regs := s.dev.regs, wd := s.dev.wd } = s.dev)

/-- R214, R217, R218, R226 and R232: SUBMIT.GO. WD also answers BAD a descriptor whose lengths are out of range (log entry 65); after a
Fatal error source 6 is not raised (log entry 223). -/
def Obligations.SubmissionsNeedACredit : Prop :=
  ∀ s : State,
    let words := (List.range 8).map fun w => mapGet word0 s.dev.wd.submit w
    let r := liveF s.dev offWdCqHead 7 0
    (creditsFree s.dev 33 = 0 → Runs .submitGo s fun d => d = bump s.dev offWdSubmitRefused) ∧
    (creditsFree s.dev 33 ≠ 0 → descriptorOk s.dev words = true → Runs .submitGo s fun d =>
      d = { s.dev with wd := { s.dev.wd with
        ready := s.dev.wd.ready ++ [⟨words, 33, s.dev.wd.seq⟩], seq := (s.dev.wd.seq + 1) % 2 ^ 32 } }) ∧
    (creditsFree s.dev 33 ≠ 0 → descriptorOk s.dev words = false → Runs .submitGo s fun d =>
      liveGet d (offWdCq r 0) = words.getD 1 0 ∧
      liveGet d (offWdCq r 1) = BitVec.ofNat 32 (4 * 2 ^ 28 + 63 * 2 ^ 22 + 33 * 2 ^ 16 + bits (words.getD 0 0) 31 16) ∧
      liveGet d (offWdCq r 2) = BitVec.ofNat 32 s.dev.epc.epoch ∧ liveF d offWdCqHead 7 0 = (r + 1) % 256 ∧
      (fatal s.dev = false → evtPending d 6 = true) ∧ d.wd = { s.dev.wd with records := s.dev.wd.records + 1 } ∧
      RegsBut [offWdCq r 0, offWdCq r 1, offWdCq r 2, offWdCq r 3, offWdCqHead, offWdCqOverwrite, offEvtPend 0, offEvtCoalesce] s.dev d ∧
      { d with regs := s.dev.regs, wd := s.dev.wd } = s.dev)

/-- R220, R222, R224 and R242: what INSERT_RELEASE and ITEM_CUTOFF do. The items of a cutoff copy nothing out, and a handler upon one
runs on (log entry 67). A release without a block or of a stage that is off, and the cutoff of a block that is cut or of no block, change
nothing (log entry 1). A twin that joins notes the groups whose mirror is complete (R363); no event is raised after a Fatal error
(log entry 223). -/
def Obligations.InsertStagesReleaseAndCutOff : Prop :=
  (∀ (s : State) (st : Nat), st < 4 →
    let el := stageElement s.dev st (if st = 0 then s.dev.epc.epoch - 1 else s.dev.epc.epoch)
    (el = none → Runs (.insertRelease st) s fun d => d = s.dev) ∧
    (∀ b, el = some b → stageOn s.dev st b.block = false → Runs (.insertRelease st) s fun d => d = s.dev) ∧
    (∀ b, el = some b → stageOn s.dev st b.block = true →
      let old := stageOf s.dev st
      let gs := stageGroups s.dev st b.block
      let taken : Stage := { old with
        blocks := ⟨s.dev.epc.epoch, b.block, b.audio, [], [], false, []⟩ :: old.blocks.take 1
        missed := if stageStarts old then [] else old.missed }
      (wdRuns s.dev = false → Runs (.insertRelease st) s fun d => d = setStage (noteMirrors gs s.dev) st taken) ∧
      (wdRuns s.dev = true → Runs (.insertRelease st) s fun d =>
        stageOf d st = taken ∧ (∀ j, j ≠ st → stageOf d j = stageOf s.dev j) ∧
        (d.wd.ready.map fun it => (it.words, it.prod, it.seq % 2 ^ 32)) =
          (s.dev.wd.ready.map fun it => (it.words, it.prod, it.seq % 2 ^ 32)) ++
          (gs.zipIdx.map fun g => (insertDesc s.dev st b.block old g.1, 34 + st, (s.dev.wd.seq + g.2) % 2 ^ 32)) ∧
        d.twn = (noteMirrors gs s.dev).twn ∧ (s.dev.twn.joinK = none → d.twn = s.dev.twn) ∧
        { d with wd := s.dev.wd, twn := s.dev.twn } = s.dev ∧
        { d.wd with ready := s.dev.wd.ready, seq := s.dev.wd.seq, stages := s.dev.wd.stages } = s.dev.wd))) ∧
  (∀ (s : State) (st : Nat) (b : StageBlock) (rest : List StageBlock), st < 4 → (stageOf s.dev st).blocks = b :: rest →
    let hit := fun (it : WorkItem) => decide (itemKind it = st + 1 ∧ itemBlock it = b.block % 2 ^ 32)
    (b.cut = true → Runs (.itemCutoff st) s fun d => d = s.dev) ∧
    (b.cut = false → Runs (.itemCutoff st) s fun d =>
      d.wd.ready = s.dev.wd.ready.filter (fun it => !(hit it)) ∧
      (stageOf d st).blocks = { b with cut := true, missed := missing s.dev st b } :: rest ∧ (stageOf d st).dry = (stageOf s.dev st).dry ++ missing s.dev st b ∧
      (∀ j, j ≠ st → stageOf d j = stageOf s.dev j) ∧
      (∀ k, k < 36 → ((coreOf s.dev k).item.any hit && !(endIssued (coreOf s.dev k)) && decide (coreState s.dev k ≠ 4)) = true →
        (coreOf d k).item = none) ∧
      (∀ k, k < 36 → ((coreOf s.dev k).item.any hit && !(endIssued (coreOf s.dev k)) && decide (coreState s.dev k ≠ 4)) = false →
        coreOf d k = coreOf s.dev k) ∧
      liveGet d (offWdStageMiss st) = liveGet s.dev (offWdStageMiss st) + BitVec.ofNat 32 (missing s.dev st b).length ∧
      (missing s.dev st b ≠ [] → (stageOf s.dev st).dry = [] → fatal s.dev = false → evtPending d st = true) ∧
      d.mem = s.dev.mem ∧ d.regs.shadow = s.dev.regs.shadow ∧ d.regs.act = s.dev.regs.act ∧ d.regs.snap = s.dev.regs.snap)) ∧
  (∀ (s : State) (st : Nat), st < 4 → (stageOf s.dev st).blocks = [] → Runs (.itemCutoff st) s fun d => d = s.dev)

/-- R200 to R202, R215 and R216: entering a kernel, and completing an item; words lie low byte first (log entry 16). The state block of
a stage-in is the core's own unless this twin follows its peer and the mirror of the peer's is complete, as log entry 23 has it (R363).
What staging does not bring reads zero (log entry 206); a region out of reach ends the item as a FAULT without a cause (log entry 70);
with the core in another state or VEC stopped nothing happens (log entry 1). A core that a planned replacement has taken the position
from powers down (R369). -/
def Obligations.ItemsStageInAndComplete : Prop :=
  (∀ (s : State) (k : Nat) (it : WorkItem), k < 36 → (coreOf s.dev k).item = some it → running s.dev blkVec = true →
    let c := settleAll (coreOf s.dev k)
    let input := if itemKind it = 0 then wordsGet s.dev.mem.mem1 ((itemW it 2).toNat * 16) (bits (itemW it 3) 29 16)
      else match itemStageBlock s.dev it with
        | none => []
        | some b => stagedIn (blockN s.dev) (itemStage it) b (bits (itemW it 2) 10 0) (bits (itemW it 2) 24 16)
    let rested := if (posOf s.dev k).isNone ∧ inHandler s.dev k = false then 0 else 1
    let kept := fun (m : List (Nat × Word)) => m.filter fun e => decide (e.1 < 0x4000 ∨ 0x8000 ≤ e.1)
    (∀ r, coreState s.dev k = 2 → stageInBad s.dev it = some r → Runs (.stageInDone k) s fun d =>
      d = endItem (mem1Refused k false r.1 r.2 s.dev) k 2 true) ∧
    (coreState s.dev k = 2 → stageInBad s.dev it = none → (itemKind it = 0 ∨ following s.dev = false) →
      Runs (.stageInDone k) s fun d =>
        coreState d k = 3 ∧ (coreOf d k).regs = entryRegs (blockN s.dev) it c.regs ∧
        (coreOf d k).pc = (((kernelsFor s.dev it).find? fun e => e.1 = itemKernel it).map fun e => e.2).getD 0 ∧
        (coreOf d k).xmem = mapSetRun word0 (mapSetRun word0 (kept c.xmem) 0x7FF8 it.words) 0x4000 input ∧
        (coreOf d k).ymem = mapSetRun word0 (kept c.ymem) 0x6000 (wordsGet s.dev.mem.mem1 (itemStateOff it) (itemStateLen it)) ∧
        (coreOf d k).stack = [] ∧ (coreOf d k).item = some it ∧ (∀ j, j ≠ k → coreOf d j = coreOf s.dev j) ∧
        OnlyWords [offVecCoreState k] s.dev { d with vec := s.dev.vec } ∧
        { d.vec with cores := s.dev.vec.cores } = s.dev.vec) ∧
    (coreState s.dev k = 2 → stageInBad s.dev it = none → itemKind it ≠ 0 → following s.dev = true → itemStateLen it ≠ 0 →
      Runs (.stageInDone k) s fun d => coreState d k = 3 ∧ (coreOf d k).regs = entryRegs (blockN s.dev) it c.regs ∧
        (itemGroup it ∈ s.dev.twn.mirrored → liveGet d offTwnJoinStatus = liveGet s.dev offTwnJoinStatus ∧
          (coreOf d k).ymem = mapSetRun word0 (kept c.ymem) 0x6000 ((List.range (itemStateLen it)).map fun i =>
            match mirrorOffset s.dev (itemStateOff it + 4 * i) with
            | some p => BitVec.ofNat 32 (leNat (mem1Run s.dev p 4))
            | none => 0)) ∧
        (itemGroup it ∉ s.dev.twn.mirrored →
          liveF d offTwnJoinStatus 31 16 = min (liveF s.dev offTwnJoinStatus 31 16 + 1) 65535 ∧
          (coreOf d k).ymem = mapSetRun word0 (kept c.ymem) 0x6000 (wordsGet s.dev.mem.mem1 (itemStateOff it) (itemStateLen it)))) ∧
    (coreState s.dev k = 4 → itemKind it = 0 → bits (itemW it 3) 13 0 ≠ 0 →
      mem1Open s.dev ((itemW it 4).toNat * 16) (4 * bits (itemW it 3) 13 0) = false → Runs (.itemComplete k) s fun d =>
        d = endItem (mem1Refused k true ((itemW it 4).toNat * 16) (4 * bits (itemW it 3) 13 0) s.dev) k 2 true) ∧
    (coreState s.dev k = 4 → itemKind it = 0 →
      (bits (itemW it 3) 13 0 = 0 ∨ mem1Open s.dev ((itemW it 4).toNat * 16) (4 * bits (itemW it 3) 13 0) = true) →
      Runs (.itemComplete k) s fun d =>
        (let m := wordsSet s.dev.mem.mem1 ((itemW it 4).toNat * 16) (mapGetRun word0 c.ymem 0x4000 (bits (itemW it 3) 13 0))
         d.mem = { s.dev.mem with mem1 := wordsSet m (itemStateOff it) (mapGetRun word0 c.ymem 0x6000 (itemStateLen it)) }) ∧
        (∀ a, ¬((itemW it 4).toNat * 16 ≤ a ∧ a < (itemW it 4).toNat * 16 + 4 * bits (itemW it 3) 13 0) →
          ¬(itemStateOff it ≤ a ∧ a < itemStateOff it + 4 * itemStateLen it) →
          byteGet d.mem.mem1 a = byteGet s.dev.mem.mem1 a) ∧
        (coreOf d k).item = none ∧ (coreOf d k).affinity = some (itemKernel it, (itemW it 5).toNat) ∧ coreState d k = rested ∧
        d.wd = { s.dev.wd with records := s.dev.wd.records + 1 } ∧ (∀ j, j ≠ k → coreOf d j = coreOf s.dev j) ∧
        (∀ o, o < 0x1000000 → liveGet d o = liveGet s.dev o) ∧
        { d with regs := s.dev.regs, wd := s.dev.wd, vec := s.dev.vec, mem := s.dev.mem } = s.dev) ∧
    (coreState s.dev k = 4 → itemKind it ≠ 0 → Runs (.itemComplete k) s fun d =>
        (let m := wordsSet s.dev.mem.mem1 (itemStateOff it) (mapGetRun word0 c.ymem 0x6000 (itemStateLen it))
         d.mem = { s.dev.mem with mem1 := m }) ∧
        (coreOf d k).item = none ∧ coreState d k = rested ∧ (∀ j, j ≠ k → coreOf d j = coreOf s.dev j) ∧
        (∀ b ∈ (stageOf d (itemStage it)).blocks, b.block % 2 ^ 32 = itemBlock it → itemGroup it ∈ b.delivered) ∧
        (s.dev.twn.serveK = none → d.twn = s.dev.twn) ∧
        { d with regs := s.dev.regs, wd := s.dev.wd, vec := s.dev.vec, mem := s.dev.mem, twn := s.dev.twn } = s.dev) ∧
    (coreState s.dev k ≠ 2 → Runs (.stageInDone k) s fun d => d = s.dev) ∧
    (coreState s.dev k ≠ 4 → Runs (.itemComplete k) s fun d => d = s.dev)) ∧
  (∀ (s : State) (k : Nat), k < 36 → (running s.dev blkVec = false ∨ (coreOf s.dev k).item = none) →
    Runs (.stageInDone k) s (fun d => d = s.dev) ∧ Runs (.itemComplete k) s fun d => d = s.dev)

/-- R54 and R55: a zero crossing puts the waiting gain in force; the timeout starts its ramp and sets TIMED_OUT. With nothing waiting
the timeout changes nothing (log entry 1). -/
def Obligations.GainChangesWaitForACrossing : Prop :=
  (∀ (s : State) (ch : GainCh) (x w : Int), gainChOk ch = true → (getGain s.dev ch).ramp = none → (getGain s.dev ch).want = some w →
    let p := (getGain s.dev ch).prev
    ((x = 0 ∨ (0 < p ∧ x < 0) ∨ (p < 0 ∧ 0 < x)) → Runs (.zeroCrossing ch x) s fun d =>
      getGain d ch = { getGain s.dev ch with cur := w, want := none, count := 0, prev := x } ∧
      (∀ c, gainKey c ≠ gainKey ch → getGain d c = getGain s.dev c) ∧
      (∀ off b t, gainReg ch = some (off, some b, t) → liveB d off b = false) ∧
      RegsBut ((gainReg ch).toList.map fun r => r.1) s.dev d ∧
      { d with regs := s.dev.regs, gains := s.dev.gains } = s.dev) ∧
    (¬(x = 0 ∨ (0 < p ∧ x < 0) ∨ (p < 0 ∧ 0 < x)) → Runs (.zeroCrossing ch x) s fun d =>
      d = setGain s.dev ch { getGain s.dev ch with prev := x }) ∧
    Runs (.zcTimeout ch) s fun d =>
      getGain d ch = { getGain s.dev ch with want := none, count := 0, ramp := some ((getGain s.dev ch).cur, w, 0) } ∧
      (∀ c, gainKey c ≠ gainKey ch → getGain d c = getGain s.dev c) ∧
      (∀ off b t, gainReg ch = some (off, b, t) → liveB d off t = true ∧ ∀ i, b = some i → liveB d off i = false) ∧
      RegsBut ((gainReg ch).toList.map fun r => r.1) s.dev d ∧
      { d with regs := s.dev.regs, gains := s.dev.gains } = s.dev) ∧
  (∀ (s : State) (ch : GainCh) (x : Int), gainChOk ch = true →
    ((getGain s.dev ch).ramp ≠ none ∨ (getGain s.dev ch).want = none) →
    (Runs (.zeroCrossing ch x) s fun d => d = setGain s.dev ch { getGain s.dev ch with prev := x }) ∧
    Runs (.zcTimeout ch) s fun d => d = s.dev)

/-- R64, R81 and R83: an engine period, and the events of a slot's settling. The event of a span that the slot is not in changes
nothing (log entries 1 and 50); what the first period reports of selectors and idle slots is of log entries 197 and 198. -/
def Obligations.SlotsSettleAfterAReset : Prop :=
  (∀ (s : State) (k : Nat), k < 1536 →
    let x := getSlot s.dev k
    let n := convN x.conv x.filt
    (x.unsettled = true → n ≤ x.n → x.n < n + 16 → Runs (.settleCrossfadeStart k) s fun d => d = setSlot s.dev k { x with fading := true }) ∧
    (¬(x.unsettled = true ∧ n ≤ x.n ∧ x.n < n + 16) → Runs (.settleCrossfadeStart k) s fun d => d = s.dev) ∧
    (x.unsettled = true → n + 16 ≤ x.n → Runs (.settleDone k) s fun d =>
      getSlot d k = { x with unsettled := false, fading := false } ∧ (∀ j, j ≠ k → getSlot d j = getSlot s.dev j) ∧
      liveB d (offCndSlotStatus k) 31 = false ∧ liveF d (offCndSlotStatus k) 14 8 = 0 ∧
      liveF d offCndUnsettledNow 10 0 = (liveF s.dev offCndUnsettledNow 10 0 + 2047) % 2048 ∧
      RegsBut [offCndSlotStatus k, offCndUnsettledNow] s.dev d ∧ { d with regs := s.dev.regs, cnd := s.dev.cnd } = s.dev) ∧
    (¬(x.unsettled = true ∧ n + 16 ≤ x.n) → Runs (.settleDone k) s fun d => d = s.dev)) ∧
  (∀ s : State, s.dev.epc.period < 64 →
    let per := 64 * s.dev.epc.epoch + s.dev.epc.period
    let given :=
      let g := ringsTick per 1 (ringsTick per 0 s.dev)
      if s.dev.epc.period = 0 then slotReports g else g
    let visit := fun (a : Dev) =>
      (liveSlots given).foldl (slotVisit per) (if s.dev.epc.period = 0 then (liveSlots given).foldl slotBlock a else a)
    Runs .enginePeriod s fun d => d.epc = { s.dev.epc with period := s.dev.epc.period + 1 } ∧
      { d with epc := s.dev.epc } = serialTaken (if running given blkCnd = true then visit given else given) per ∧
      d.regs.shadow = s.dev.regs.shadow ∧ d.regs.snap = s.dev.regs.snap) ∧
  (∀ s : State, 64 ≤ s.dev.epc.period → Runs .enginePeriod s fun d => d = s.dev)

/-- The fill of a delay ring, the end of a hold and a sweep's start. That the whole ring comes from the line after a change of the bulk
delay is log entry 219's reading, and how far a lane runs is log entry 9's. An event whose condition does not hold changes nothing
(log entry 1). -/
def Obligations.HoldsSweepsAndRings : Prop :=
  (∀ (s : State) (k : Nat), k < 1024 → s.dev.xp.waiting.head? ≠ some k → Runs (.ringFilled k) s fun d => d = s.dev) ∧
  (∀ (s : State) (k : Nat), k < 1024 → s.dev.xp.waiting.head? = some k → Runs (.ringFilled k) s fun d =>
    let n := blockN s.dev
    let b := ringDelay s.dev k
    let old := objRing s.dev k
    let line := mapGet (fun _ => []) s.dev.xp.lines k
    (objRing d k).1 = b ∧
    (∀ j, j < ringWords → sampleAt (objRing d k).2 j =
      if b = old.1 ∧ n ≤ j then sampleAt old.2 (j - n) else lineSample n s.dev.epc.epoch line (ringTop b + j)) ∧
    (∀ i, i ≠ k → objRing d i = objRing s.dev i) ∧ d.xp.waiting = setDel s.dev.xp.waiting k ∧ d.xp.lines = s.dev.xp.lines ∧
    (arrived s.dev ≠ none → ∀ w, d.xp.work.find? (fun v => decide (v.1 = w.1)) = some w → w.2.src < 1024 ∧ w.2.src ∈ d.xp.waiting) ∧
    { d with xp := s.dev.xp } = s.dev) ∧
  (∀ (s : State) (k : Nat), k < 1536 →
    ((∃ h ∈ s.dev.xp.holds, h.1 = k ∧ h.2.1 ≤ s.dev.epc.epoch) → Runs (.shedHoldExpiry k) s fun d =>
      d = liveSetB { s.dev with xp := { s.dev.xp with holds := s.dev.xp.holds.filter fun h => decide (h.1 ≠ k) } } (offXpObjStatus k) 28 false) ∧
    ((∀ h ∈ s.dev.xp.holds, h.1 = k → s.dev.epc.epoch < h.2.1) → Runs (.shedHoldExpiry k) s fun d => d = s.dev)) ∧
  (∀ (s : State) (g : Nat), g < 12 →
    (∀ (r : GenRec) (t : List GenRec), (getGen s.dev g).recs = r :: t → r.kind = 3 → Runs (.sweepStart g) s fun d =>
      let now := sweepAt (blockN s.dev) r.sweep r.inForce r.later (blockN s.dev * s.dev.epc.epoch + s.dev.epc.period * blockN s.dev / 64)
      d = setGen s.dev g { getGen s.dev g with recs := { r with sweep := now.1, inForce := now.2.1, later := now.2.2 } :: t }) ∧
    ((∀ (r : GenRec) (t : List GenRec), (getGen s.dev g).recs = r :: t → r.kind ≠ 3) → Runs (.sweepStart g) s fun d => d = s.dev))

/-- R96 to R106: the sequence window, and what the end of the parse of an S-ADM frame and a window's timeout do. A parse whose first
packet has not come and a timeout before its time change nothing (log entry 1). -/
def Obligations.MetadataFramesPassTheWindow : Prop :=
  (∀ (valid : Bool) (h seq : Nat) (seen : List Nat),
    let δ := (seq + 65536 - h) % 65536
    windowJudge valid h seq seen = (if valid = false then 0 else if δ = 0 then 1 else if δ < 0x8000 then 0
      else if 0x10000 - 511 ≤ δ then (if seq ∈ seen then 1 else 0) else 2)) ∧
  (∀ (s : State) (src : Nat) (f : SadmFrame), src < 16 →
    s.dev.obj.sadm.reverse.find? (fun p => decide (p.src = src ∧ p.seq = f.seq % 65536)) = none →
    Runs (.sadmParseDone src f) s fun d => d = s.dev) ∧
  (∀ (s : State) (src : Nat) (f : SadmFrame) (p : SadmPkt), src < 16 →
    s.dev.obj.sadm.reverse.find? (fun p => decide (p.src = src ∧ p.seq = f.seq % 65536)) = some p →
    let taken : Dev := { s.dev with obj := { s.dev.obj with sadm := (s.dev.obj.sadm.zipIdx.filter fun q =>
      !(decide (q.1.src = src ∧ q.1.stream = p.stream ∧
        (q.2 ≤ s.dev.obj.sadm.idxOf p ∨ (q.1.seq + 65536 - p.seq) % 65536 < max 1 f.packets)))).map fun q => q.1 } }
    let on := running s.dev blkObj = true ∧ actB s.dev (offObjMsrcCfg src) 31 = true ∧ actB s.dev (offObjMsrcCfg src) 30 = true
    let w := liveGet s.dev (offObjMsrcSeq src)
    let verdict := windowJudge (bit w 16) (bits w 15 0) (f.seq % 65536) (getSrc s.dev src).seen
    (¬on → Runs (.sadmParseDone src f) s fun d => d = taken) ∧
    (on → (f.full = false ∨ 65536 < f.bytes) → Runs (.sadmParseDone src f) s fun d =>
      d = bump (liveSetB taken offObjStatus 2 true) (offObjMsrcCount src 3)) ∧
    (on → f.full = true → f.bytes ≤ 65536 → 1 ≤ verdict → Runs (.sadmParseDone src f) s fun d =>
      d = bump taken (offObjMsrcCount src verdict)) ∧
    (on → f.full = true → f.bytes ≤ 65536 → verdict = 0 →
      Runs (.sadmParseDone src f) s fun d =>
        let a := (windowTake taken src (f.seq % 65536)).1
        liveGet a (offObjMsrcCount src 0) = liveGet s.dev (offObjMsrcCount src 0) + 1 ∧ (getSrc a src).last = s.dev.epc.epoch ∧
        liveB a (offObjMsrcSeq src) 16 = true ∧
        d = (f.formats.take 256).flatten.zipIdx.foldl (fun a b =>
          match sadmRec src (actF s.dev (offObjMsrcScale src) 23 0) (f.seq % 65536) b.2 p.index b.1, sadmSlot s.dev src b.1.id with
          | some r, some n => takeRec a src n r
          | _, _ => bump a (offObjMsrcCount src 4)) (objCount a src 4 (f.formats.length - 256)))) ∧
  (∀ (d : Dev) (src n : Nat) (r : ObjRec),
    (actF d (offObjCfg n) 4 0 ≠ src + 1 → takeRec d src n r = bump d (offObjMsrcCount src 4)) ∧
    (actF d (offObjCfg n) 4 0 = src + 1 → d.epc.epoch + 3000 < r.target → takeRec d src n r = bump d (offObjMsrcCount src 5)) ∧
    (actF d (offObjCfg n) 4 0 = src + 1 → (r.target ≤ d.epc.epoch ∨ (r.target = d.epc.epoch + 1 ∧ d.epc.cutoff = true)) →
      takeRec d src n r = lateRec d src n r) ∧
    (actF d (offObjCfg n) 4 0 = src + 1 → d.epc.epoch < r.target → (r.target = d.epc.epoch + 1 → d.epc.cutoff = false) →
      r.target ≤ d.epc.epoch + 3000 → takeRec d src n r = queueRec d src n r)) ∧
  (∀ (s : State) (src : Nat), src < 16 →
    ((getSrc s.dev src).last + 3000 ≤ s.dev.epc.epoch → Runs (.msrcWindowTimeout src) s fun d =>
      liveB d (offObjMsrcSeq src) 16 = false ∧ (getSrc d src).seen = [] ∧ RegsBut [offObjMsrcSeq src] s.dev d ∧
      { d with regs := s.dev.regs, obj := s.dev.obj } = s.dev ∧ (∀ j, j ≠ src → getSrc d j = getSrc s.dev j)) ∧
    (s.dev.epc.epoch < (getSrc s.dev src).last + 3000 → Runs (.msrcWindowTimeout src) s fun d => d = s.dev))

/-- R308, R311 to R318: the frames of one serial port. Phases are in 1/256 frame. The half-open range of the phase of a master that does
not drive the outputs is log entry 186's reading, what a slip keeps is log entry 187's, and that it raises no event after a Fatal error
log entry 223's. Events whose condition does not hold change nothing (log entry 1). -/
def Obligations.SerialFramesAndSlips : Prop :=
  (∀ (s : State) (p : Nat) (phase : Int) (din : List Word), p < 32 →
    let w := framePhase s.dev p phase
    let ph := w.1
    ((portMaster s.dev p = true ∧ drivesOut s.dev = true) → w = (0, 0)) ∧
    (portMaster s.dev p = false → onOwnMaster s.dev p = false → w = (phase, 0)) ∧
    (portMaster s.dev p = true → drivesOut s.dev = false → -128 ≤ w.1 ∧ w.1 < 128 ∧ phase = w.1 - 256 * w.2) ∧
    let seen := ownFs s.dev p = true ∨ fsStarts s.dev p din = true
    ((running s.dev blkSap = false ∨ ¬seen) → Runs (.sapFrame p phase din) s fun d => d = s.dev) ∧
    (running s.dev blkSap = true → seen →
      (∀ f, (getPort s.dev p).frame = some f → (portState s.dev p = 3 ∨ portState s.dev p = 1) →
        (-64 ≤ ph → ph ≤ 256 → Runs (.sapFrame p phase din) s fun d => d = runFrame p ((f + 1 : Nat) + w.2).toNat ph din s.dev) ∧
        (ph < -64 → Runs (.sapFrame p phase din) s fun d => d = portSlip (phaseReport s.dev p ph) p true false) ∧
        (256 < ph → Runs (.sapFrame p phase din) s fun d => d = portSlip (phaseReport s.dev p ph) p false false)) ∧
      ((getPort s.dev p).frame = none → portState s.dev p = 2 → portMaster s.dev p = true →
        (-64 ≤ ph → Runs (.sapFrame p phase din) s fun d => d = runFrame p (firstFrame s.dev p ph) ph din (setPortState s.dev p 3)) ∧
        (ph < -64 → Runs (.sapFrame p phase din) s fun d => d = portSlip (phaseReport s.dev p ph) p true false)) ∧
      ((getPort s.dev p).frame = none → ¬(portState s.dev p = 2 ∧ portMaster s.dev p = true) →
        Runs (.sapFrame p phase din) s fun d => d = s.dev))) ∧
  (∀ (s : State) (p : Nat), p < 32 →
    let may := running s.dev blkSap = true ∧ portState s.dev p ≠ 0 ∧ (portMaster s.dev p && drivesOut s.dev) = false
    (¬may → Runs (.sapNoClock p) s fun d => d = s.dev) ∧
    (may → (getPort s.dev p).frame.isSome = true → Runs (.sapNoClock p) s fun d =>
      d = portSlip (liveSetB s.dev (offSapPortStatus p) 29 true) p true true) ∧
    (may → (getPort s.dev p).frame = none → Runs (.sapNoClock p) s fun d =>
      d = setPort (liveSetB s.dev (offSapPortStatus p) 29 true) p { getPort s.dev p with mayAlign := true })) ∧
  (∀ (s : State) (p : Nat) (phase : Int), p < 32 →
    let may := running s.dev blkSap = true ∧ (portState s.dev p = 4 ∨ (portState s.dev p = 2 ∧ portMaster s.dev p = false)) ∧
      (getPort s.dev p).mayAlign = true ∧ -64 ≤ (framePhase s.dev p phase).1 ∧ (framePhase s.dev p phase).1 < 192
    (may → Runs (.sapRealign p phase) s fun d => portState d p = 3 ∧ liveB d (offSapPortStatus p) 29 = false ∧
      (getPort d p).frame.isSome = true ∧ (getPort d p).mayAlign = false ∧ ∀ q, q ≠ p → getPort d q = getPort s.dev q) ∧
    (¬may → Runs (.sapRealign p phase) s fun d => d = s.dev)) ∧
  (∀ (s : State) (p : Nat), p < 32 →
    let still := (getPort s.dev p).frame = none ∨ ∀ k < portSlots s.dev p,
      (actB s.dev (offSapMaskIn p) k = true → atZero (getGain s.dev (.portRx p k)) = true) ∧
      (actB s.dev (offSapMaskOut p) k = true → atZero (getGain s.dev (.portTx p k)) = true)
    (portState s.dev p = 1 → still → Runs (.sapPortStopped p) s fun d => d = portOff s.dev p ∧ portState d p = 0 ∧ getPort d p = {}) ∧
    (¬(portState s.dev p = 1 ∧ still) → Runs (.sapPortStopped p) s fun d => d = s.dev)) ∧
  (∀ (d : Dev) (p : Nat) (under back : Bool), p < 32 →
    let e := portSlip d p under back
    (getPort e p).frame = none ∧ (getPort e p).restarts = allRestart ∧ (getPort e p).mayAlign = back ∧
    portState e p = (if portState d p = 1 then 1 else 4) ∧
    liveGet e (if under then offSapUnderrunCount p else offSapOverrunCount p) =
      liveGet d (if under then offSapUnderrunCount p else offSapOverrunCount p) + 1 ∧
    (getPort e p).rx = (getPort d p).rx ∧ (fatal d = false → evtPending e (8 + p) = true) ∧ (∀ q, q ≠ p → getPort e q = getPort d q) ∧ e.sap.slips = d.sap.slips + 1 ∧
    RegsBut [offSapUnderrunCount p, offSapOverrunCount p, offSapPortStatus p, offSapStatus, offEvtPend ((8 + p) / 32), offEvtCoalesce] d e ∧
    { e with regs := d.regs, gains := d.gains, sap := d.sap } = d)

/-- R246 to R248 and R264 to R266: what leaves a media plane. The age of a frame goes by engine periods (log entry 231), and what the
supervisor answers is log entry 99's. An event whose condition does not hold changes nothing (log entries 1 and 103). -/
def Obligations.TransmitQueuesAndPauses : Prop :=
  (∀ (d : Dev) (x : Nat) (f : TxFrame), nextTx d x = some f → f ∈ (plane d x).queue ∧ isPaused (plane d x) f.prio = false ∧ mayStart d x f = true ∧
    ∀ g ∈ (plane d x).queue, g.prio < 8 → isPaused (plane d x) g.prio = false → mayStart d x g = true → g.prio ≤ f.prio) ∧
  (∀ (f : TxFrame) (a b : List TxFrame), (∀ g ∈ a, laterStream f g = false) → (∀ g, b.head? = some g → laterStream f g = true) →
    queueFrame f (a ++ b) = a ++ f :: b) ∧
  (∀ (s : State) (x : Nat), x < 2 →
    let may := running s.dev (netBlk x) = true ∧ liveB s.dev (offNetStatus x) 0 = true ∧ (plane s.dev x).training = false
    (¬may → Runs (.txFrameStart x) s fun d => d = s.dev) ∧
    (nextTx s.dev x = none → Runs (.txFrameStart x) s fun d => d = s.dev) ∧
    (∀ f, may → nextTx s.dev x = some f → Runs (.txFrameStart x) s fun d =>
      let p := plane s.dev x
      let sent := setPlane s.dev x { p with queue := dropFirst f p.queue, onWire := some f }
      let counted := perfHit (bump sent (offNetCnt x 8)) (76 + x) 0x11 1
      plane d x = { p with queue := dropFirst f p.queue, onWire := some f } ∧ plane d (1 - x) = plane s.dev (1 - x) ∧
      d = (match f.body with
        | .stream t _ _ => bump counted (offNetTxsPackets x t)
        | _ => counted))) ∧
  (∀ (s : State) (x t : Nat), x < 2 → t < 128 →
    (mediaOpen s.dev x = false → Runs (.txPacketRelease x t) s fun d => d = s.dev) ∧
    (duePacket s.dev x t = none → Runs (.txPacketRelease x t) s fun d => d = s.dev) ∧
    (∀ k, mediaOpen s.dev x = true → duePacket s.dev x t = some k →
      let ws := txEntry s.dev x t
      let p := plane s.dev x
      let body := TxBody.stream t k (txPacket s.dev x t k)
      let prio := if wbits ws 0 26 26 = 1 then wbits ws 0 25 23 else 0
      let bytes := txFrameBytes (blockN s.dev) ws
      let f : TxFrame := ⟨prio, bytes, body, txHead s.dev x body, nowIndex s.dev * 64 / blockN s.dev⟩
      let marked := setPlane s.dev x { p with sent := mapIns (mapDel p.sent t) t k }
      (p.queue.foldl (fun a q => a + q.bytes) 0 + bytes ≤ 768 * 1024 → Runs (.txPacketRelease x t) s fun d =>
        d = setPlane marked x { plane marked x with queue := queueFrame f p.queue }) ∧
      (768 * 1024 < p.queue.foldl (fun a q => a + q.bytes) 0 + bytes → Runs (.txPacketRelease x t) s fun d =>
        d = bump (bump marked (offNetCnt x 9)) (offNetTxsDropped x t)))) ∧
  (∀ (s : State) (x t : Nat), x < 2 → t < 128 →
    (staleFrame s.dev x t = none → Runs (.txStale x t) s fun d => d = s.dev) ∧
    (∀ f, staleFrame s.dev x t = some f → Runs (.txStale x t) s fun d =>
      d = bump (bump (setPlane s.dev x { plane s.dev x with queue := dropFirst f (plane s.dev x).queue }) (offNetCnt x 9))
        (offNetTxsDropped x t))) ∧
  (∀ (s : State) (x q : Nat), x < 2 → q < 8 → Runs (.pfcPauseExpiry x q) s fun d =>
    isPaused (plane d x) q = false ∧ (∀ r, r ≠ q → isPaused (plane d x) r = isPaused (plane s.dev x) r) ∧
    d = setPlane s.dev x { plane s.dev x with paused := mapDel (plane s.dev x).paused q }) ∧
  (∀ (s : State) (x : Nat), x < 2 →
    ((plane s.dev x).sup.findSome? supKind = none → Runs (.supervisorFrame x) s fun d => d = s.dev) ∧
    (∀ (pre rest : List Frame) (f : Frame) (k : SupKind), (plane s.dev x).sup = pre ++ f :: rest → (∀ g ∈ pre, supKind g = none) → supKind f = some k →
      let took := setPlane s.dev x { plane s.dev x with sup := pre ++ rest }
      (k ≠ .membership → running s.dev (netBlk x) = true → Runs (.supervisorFrame x) s fun d =>
        d = enqueueTx took x ⟨0, 64, .answer k, {}, 0⟩) ∧
      ((k = .membership ∨ running s.dev (netBlk x) = false) → Runs (.supervisorFrame x) s fun d => d = took)))

/-- R244, R245, R247, R267 and R268: Table 11-2, and the frames of the management port. The groups a host is always in are log entry
208's, the tagged and oversize frames of the management port log entry 100's, a full supervisor queue log entry 97's; a port that does
not run takes nothing (log entry 1). -/
def Obligations.ReceivedFramesAreClassified : Prop :=
  (∀ (s : State) (x : Nat) (f : Frame), x < 2 →
    let seen := perfHit s.dev (76 + x) 0x10 1
    let got := setPlane seen x { plane seen x with rxBits := (plane seen x).rxBits + wireBits f.len }
    let up := running s.dev (netBlk x) = true ∧ liveB s.dev (offNetStatus x) 0 = true
    let tagged := ∃ v, f.vid = some v ∧ v ≠ 0 ∧
      ∀ i < 16, ¬(actB got (offNetVlan x i) 15 = true ∧ actF got (offNetVlan x i) 11 0 = v)
    let plain := f.fcsOk = true ∧ f.len ≤ 1522 ∧ ¬tagged
    (¬up → Runs (.mediaFrameRx x f) s fun d => d = s.dev) ∧
    (up → f.fcsOk = false → Runs (.mediaFrameRx x f) s fun d => d = bump got (offNetCnt x 1)) ∧
    (up → f.fcsOk = true → 1522 < f.len → Runs (.mediaFrameRx x f) s fun d => d = bump got (offNetCnt x 2)) ∧
    (∀ en times, up → f.fcsOk = true → f.len ≤ 1522 → f.body = .pfc en times → Runs (.mediaFrameRx x f) s fun d =>
      (∀ q, q < 8 → liveGet d (offNetPfcCnt x q) = liveGet got (offNetPfcCnt x q) + (if en.toNat.testBit q then 1 else 0)) ∧
      (∀ q, q < 8 → isPaused (plane d x) q = (if en.toNat.testBit q = true ∧ actB s.dev (offNetCtrl x) (8 + q) = true then
        decide (times.getD q 0 % 65536 ≠ 0) else isPaused (plane s.dev x) q))) ∧
    (up → f.fcsOk = true → f.len ≤ 1522 → f.body = .pause → Runs (.mediaFrameRx x f) s fun d => d = bump got (offNetCnt x 3)) ∧
    (up → f.fcsOk = true → f.len ≤ 1522 → tagged → (∀ en times, f.body ≠ .pfc en times) → f.body ≠ .pause →
      Runs (.mediaFrameRx x f) s fun d => d = bump got (offNetCnt x 4)) ∧
    (up → plain → (f.body = .other ∨ f.body = .ipFragment) → Runs (.mediaFrameRx x f) s fun d => d = bump got (offNetCnt x 4)) ∧
    (up → plain → f.body = .ipBadChecksum → Runs (.mediaFrameRx x f) s fun d => d = bump got (offNetCnt x 5)) ∧
    (up → plain → f.body = .udpBadChecksum → Runs (.mediaFrameRx x f) s fun d => d = bump got (offNetCnt x 6)) ∧
    (∀ src dst port load k, up → plain → f.body = .udp src dst port load → rxMatch got x src dst port = some k →
      Runs (.mediaFrameRx x f) s fun d => d = streamLoad x k load (bump got (offNetCnt x 0))) ∧
    (∀ src dst port msg, up → plain → f.body = .udp src dst port (.ptp msg) → rxMatch got x src dst port = none → (port = 319 ∨ port = 320) →
      Runs (.mediaFrameRx x f) s fun d => d = ptpReceive x msg src (bump got (offNetCnt x 0))) ∧
    (∀ src dst port load, up → plain → f.body = .udp src dst port load → rxMatch got x src dst port = none →
      (∀ msg, load = .ptp msg → port ≠ 319 ∧ port ≠ 320) →
      let mine := actB got (offNetCtrl x) 4 = true ∧ port = mdpPort got ∧ ipToPlane got x dst = true
      (¬mine → Runs (.mediaFrameRx x f) s fun d => d = bump got (offNetCnt x 4)) ∧
      (mine → supBytes (plane got x) + f.len ≤ 128 * 1024 → Runs (.mediaFrameRx x f) s fun d =>
        d = setPlane (bump got (offNetCnt x 0)) x { plane got x with sup := (plane got x).sup ++ [f] }) ∧
      (mine → 128 * 1024 < supBytes (plane got x) + f.len → Runs (.mediaFrameRx x f) s fun d =>
        d = perfHit (bump got (offNetCnt x 7)) (76 + x) 0x12 1)) ∧
    (∀ k mac dst, up → plain → f.body = .supervisor k mac dst →
      (supToPlane got x mac dst = false → Runs (.mediaFrameRx x f) s fun d => d = bump got (offNetCnt x 4)) ∧
      (supToPlane got x mac dst = true → supBytes (plane got x) + f.len ≤ 128 * 1024 → Runs (.mediaFrameRx x f) s fun d =>
        d = setPlane (bump got (offNetCnt x 0)) x { plane got x with sup := (plane got x).sup ++ [f] }) ∧
      (supToPlane got x mac dst = true → 128 * 1024 < supBytes (plane got x) + f.len → Runs (.mediaFrameRx x f) s fun d =>
        d = perfHit (bump got (offNetCnt x 7)) (76 + x) 0x12 1))) ∧
  (∀ (s : State) (f : Frame),
    let seen := perfHit s.dev 78 0x10 1
    let up := running s.dev blkMgt = true ∧ liveB s.dev offMgtStatus 0 = true
    let plain := f.fcsOk = true ∧ f.len ≤ 1522 ∧ f.vid = none
    (¬up → Runs (.mgtFrameRx f) s fun d => d = s.dev) ∧
    (up → f.fcsOk = false → Runs (.mgtFrameRx f) s fun d => d = bump seen (offMgtCnt 1)) ∧
    (up → plain → (f.body = .ipBadChecksum ∨ f.body = .udpBadChecksum) → Runs (.mgtFrameRx f) s fun d => d = bump seen (offMgtCnt 2)) ∧
    (up → f.fcsOk = true → (1522 < f.len ∨ f.vid ≠ none) → Runs (.mgtFrameRx f) s fun d => d = bump seen (offMgtCnt 3)) ∧
    (up → plain → ((∃ en times, f.body = .pfc en times) ∨ f.body = .pause ∨ f.body = .ipFragment ∨ f.body = .other) →
      Runs (.mgtFrameRx f) s fun d => d = bump seen (offMgtCnt 3)) ∧
    (∀ src dst port load, up → plain → f.body = .udp src dst port load → Runs (.mgtFrameRx f) s fun d =>
      d = bump seen (offMgtCnt (if port = mdpPort seen ∧ ipToMgt seen dst = true then 0 else 3))) ∧
    (∀ k mac dst, up → plain → f.body = .supervisor k mac dst → Runs (.mgtFrameRx f) s fun d =>
      d = if k ≠ .membership ∧ supToMgt seen mac dst = true then perfHit (bump (bump seen (offMgtCnt 0)) (offMgtCnt 4)) 78 0x11 1
        else bump seen (offMgtCnt 3)))

/-- R249, R250, R263 and R267: links and speed steps. A link that trains at another speed than its port's does not come up (log entry
240); an event out of its condition changes nothing (log entry 1). -/
def Obligations.LinksAndSpeedSteps : Prop :=
  (∀ (s : State) (x sp : Nat), x < 2 →
    let step := (plane s.dev x).training = true ∧ (plane s.dev x).step.isSome = true
    let at' := if step then (plane s.dev x).step = some ((((plane s.dev x).step.getD (0, 0)).1, if sp = 10 then 1 else 0))
      else liveB s.dev (offNetStatus x) 1 = decide (sp = 10)
    let may := running s.dev (netBlk x) = true ∧ liveB s.dev (offNetStatus x) 0 = false ∧ (sp = 10 ∨ sp = 25) ∧ at'
    (∀ e n, (plane s.dev x).step = some (e, n) → n ≤ 1) →
    (¬may → Runs (.linkUp x sp) s fun d => d = s.dev) ∧
    (may → Runs (.linkUp x sp) s fun d =>
      liveB d (offNetStatus x) 0 = true ∧ liveB d (offNetStatus x) 1 = decide (sp = 10) ∧
      liveB d (offNetStatus x) 2 = (decide (sp = 25) && liveB s.dev (offNetCtrl x) 2) ∧
      ((plane s.dev x).training = true → plane d x = { plane s.dev x with training := false, step := none } ∧
        liveB d (offNetStatus x) 3 = false) ∧
      ((plane s.dev x).training = false → plane d x = plane s.dev x) ∧
      liveGet d (offNetCnt x 10) = liveGet s.dev (offNetCnt x 10) + (if step then 1 else 0) ∧
      plane d (1 - x) = plane s.dev (1 - x))) ∧
  (∀ (s : State) (x : Nat), x < 2 → liveB s.dev (offNetStatus x) 0 = true → Runs (.linkDown x) s fun d =>
    liveB d (offNetStatus x) 0 = false ∧ liveB d (offNetStatus x) 2 = false ∧
    liveGet d (offNetCnt x 12) = liveGet s.dev (offNetCnt x 12) + 1 ∧ plane d x = plane s.dev x ∧ plane d (1 - x) = plane s.dev (1 - x)) ∧
  (∀ (s : State) (sp : Nat),
    (liveB s.dev offMgtStatus 0 = true → (Runs (.linkUp 2 sp) s fun d => d = s.dev) ∧ Runs (.linkDown 2) s fun d =>
      d = raiseErr (liveSetB s.dev offMgtStatus 0 false) (srcOf blkMgt 0) 0x0302 0 0) ∧
    (liveB s.dev offMgtStatus 0 = false → (Runs (.linkDown 2) s fun d => d = s.dev) ∧ Runs (.linkUp 2 sp) s fun d =>
      d = if running s.dev blkMgt then raiseErr (liveSetB s.dev offMgtStatus 0 true) (srcOf blkMgt 0) 0x0303 1 0 else s.dev)) ∧
  (∀ (s : State) (x : Nat), x < 2 → stepMayStart s.dev x = false → Runs (.speedStepStart x) s fun d => d = s.dev) ∧
  (∀ (s : State) (x : Nat), x < 2 → stepMayStart s.dev x = true → Runs (.speedStepStart x) s fun d =>
    (plane d x).step = some (s.dev.epc.epoch + 3, if liveB s.dev (offNetStatus x) 1 then 0 else 1) ∧
    (plane d x).lastStep = some s.dev.epc.epoch ∧ liveB d (offNetStatus x) 3 = true ∧
    plane d (1 - x) = plane s.dev (1 - x)) ∧
  (∀ (s : State) (x e n : Nat), x < 2 → (plane s.dev x).step = some (e, n) → e ≤ s.dev.epc.epoch → Runs (.stepEpoch x) s fun d =>
    plane d x = { plane s.dev x with training := true } ∧ liveB d (offNetStatus x) 0 = false ∧ liveB d (offNetStatus x) 2 = false ∧
    plane d (1 - x) = plane s.dev (1 - x)) ∧
  (∀ (s : State) (x e n : Nat), x < 2 → (plane s.dev x).step = some (e, n) → (plane s.dev x).training = true → e + 30 ≤ s.dev.epc.epoch →
    s.dev.regs.act ≠ [] → Runs (.stepTimeout x) s fun d =>
      plane d x = { plane s.dev x with training := false, step := none } ∧ liveB d (offNetStatus x) 3 = false ∧
      actB d (offNetCtrl x) 3 = false ∧ bit (shGet d (offNetCtrl x)) 3 = false ∧
      liveGet d (offNetCnt x 11) = liveGet s.dev (offNetCnt x 11) + 1 ∧ plane d (1 - x) = plane s.dev (1 - x)) ∧
  (∀ (s : State) (x : Nat), x < 2 → (plane s.dev x).step = none →
    (Runs (.stepTimeout x) s fun d => d = s.dev) ∧ Runs (.stepEpoch x) s fun d => d = s.dev) ∧
  (∀ (s : State) (x e n : Nat), x < 2 → (plane s.dev x).step = some (e, n) →
    (s.dev.epc.epoch < e → Runs (.stepEpoch x) s fun d => d = s.dev) ∧
    (((plane s.dev x).training = false ∨ s.dev.epc.epoch < e + 30) → Runs (.stepTimeout x) s fun d => d = s.dev))

/-- R271 to R273, R275, R276, R278 and R280: what a PTP instance sends and what its timeouts do. The rounding of the time in a departing
frame, and that firmware takes the copy at once, are log entry 228's; an event out of its condition changes nothing (log entry 1). -/
def Obligations.PtpMessagesAndTimeouts : Prop :=
  ∀ (s : State) (x : Nat), x < 2 →
    let p := ptp s.dev x
    let follows := portStateOf s.dev x = 8 ∨ portStateOf s.dev x = 9
    let runs := running s.dev (ptpBlk x) = true
    ((runs ∧ follows) → Runs (.delayReqTx x) s fun d =>
      d = ptpSend (bump (setPtp s.dev x { p with req := some p.seqs.1, t3 := none, seqs := ((p.seqs.1 + 1) % 65536, p.seqs.2) }) (offPtpCnt x 2)) x 46
            (ptpOwn s.dev x 1 p.seqs.1 127) ∧
      ptp d x = { p with req := some p.seqs.1, t3 := none, seqs := ((p.seqs.1 + 1) % 65536, p.seqs.2) } ∧ ptp d (1 - x) = ptp s.dev (1 - x)) ∧
    (¬(runs ∧ follows) → (Runs (.delayReqTx x) s fun d => d = s.dev) ∧ Runs (.syncTimeout x) s fun d => d = s.dev) ∧
    ((runs ∧ portStateOf s.dev x = 6 ∧ mayMaster s.dev x = true) → Runs (.syncTx x) s fun d =>
      d = ptpSend (bump (setPtp s.dev x { p with seqs := (p.seqs.1, (p.seqs.2.1 + 1) % 65536, p.seqs.2.2) }) (offPtpCnt x 8)) x 46
            (ptpOwn s.dev x 0 p.seqs.2.1 ((ptpIntervals s.dev x).getD 0 (0, true)).1) ∧
      ptp d (1 - x) = ptp s.dev (1 - x)) ∧
    (¬(runs ∧ portStateOf s.dev x = 6 ∧ mayMaster s.dev x = true) → Runs (.syncTx x) s fun d => d = s.dev) ∧
    (∀ o, (runs ∧ portStateOf s.dev x = 6 ∧ mayMaster s.dev x = true) → ownMaster s.dev x = some o → Runs (.announceTx x) s fun d =>
      let q := setPtp s.dev x { p with seqs := (p.seqs.1, p.seqs.2.1, (p.seqs.2.2 + 1) % 65536) }
      d = ptpSend (bump q (offPtpCnt x 9)) x 64 { ptpOwn q x 11 p.seqs.2.2 ((ptpIntervals q x).getD 1 (0, true)).1 with
        gmId := o.gmId, priority1 := o.priority1, clockClass := o.clockClass, clockAccuracy := o.accuracy,
        variance := o.variance, priority2 := o.priority2, stepsRemoved := o.steps, utcOffset := o.utc }) ∧
    ((runs ∧ portStateOf s.dev x = 6 ∧ mayMaster s.dev x = false) →
      Runs (.announceTx x) s fun d => d = ptpReport (bmca s.dev x) x ∧ ptp d (1 - x) = ptp s.dev (1 - x)) ∧
    (¬(runs ∧ portStateOf s.dev x = 6) → Runs (.announceTx x) s fun d => d = s.dev) ∧
    (∀ seq captured, Runs (.txTimestampReturn x seq captured) s fun d =>
      let at' := captured + s.dev.servo.base + (actF s.dev (offPtpAsym x (ptpRow s.dev x)) 31 16 : Int)
      let left := setPlane s.dev x { plane s.dev x with onWire := (plane s.dev x).onWire.map (stampFrame seq at') }
      (p.req = some seq → d = setPtp left x { p with t3 := some (at', ptpRow s.dev x) }) ∧ (p.req ≠ some seq → d = left)) ∧
    (∀ (f : TxFrame) (m : PtpMsg) (fix seq : Nat) (at' : Int), f.body = .ptp m fix → 0 ≤ at' → rne at' 16 < 1000000000 * 2 ^ 48 →
      (m.kind ≤ 1 → m.seq = seq → ∃ n, stampFrame seq at' f = { f with body := .ptp { m with time := rne at' 16 * 16 } n }) ∧
      (1 < m.kind ∨ m.seq ≠ seq → stampFrame seq at' f = f)) ∧
    ((runs ∧ follows) → Runs (.syncTimeout x) s fun d =>
      d = servoCheck (ptpReport (setPtp (bump s.dev (offPtpCnt x 6)) x { p with fresh := false, sync := none }) x)) ∧
    (runs → Runs (.announceReceiptTimeout x) s fun d =>
      d = ptpReport (bmca (setPtp s.dev x { p with masters := p.masters.filter fun m => decide (p.parent ≠ some m.source), parent := none }) x) x ∧
      (∀ m ∈ (ptp d x).masters, p.parent ≠ some m.source) ∧ ptp d (1 - x) = ptp s.dev (1 - x)) ∧
    (¬runs → Runs (.announceReceiptTimeout x) s fun d => d = s.dev)

/-- R284, R285 and R286: SERVO_REVERT, SERVO_ACCEPT and SERVO_DEGRADED_LOG. A command out of its condition changes nothing (log
entry 1); after a Fatal error the servo does not act (R422). -/
def Obligations.ServoRevertsAcceptsAndLogs : Prop :=
  ∀ (s : State),
    let f := actF s.dev offPtpiServoCfg 0 0
    let may := actB s.dev offPtpiServoCfg 1 = true ∧ (servoState s.dev = 2 ∨ servoState s.dev = 3) ∧ servoSel s.dev ≠ f ∧
      isQualified s.dev f = true ∧ (offOf s.dev f).natAbs ≤ (switchMax s.dev).natAbs ∧
      ∃ e, (ptp s.dev f).since = some e ∧ e + 3000 * actF s.dev offPtpiServoCfg 31 24 ≤ s.dev.epc.epoch
    let waits := servoState s.dev = 4 ∧ liveF s.dev offPtpiServoStatus 7 6 = 3
    (may → Runs .servoRevert s fun d => d = followSource s.dev f ∧ servoSel d = f ∧
      servoState d = (if (offOf s.dev f).natAbs ≤ 16000 then 2 else 3) ∧
      (s.dev.servo.chosen = true → liveGet d offPtpiServoSwitchCount = liveGet s.dev offPtpiServoSwitchCount + 1)) ∧
    (¬may → Runs .servoRevert s fun d => d = s.dev) ∧
    (∀ x, waits → candidate s.dev = some x → timebase s.dev = 2 → Runs .servoAccept s fun d => d = { s.dev with servo := { s.dev.servo with reload := true } }) ∧
    (∀ x, x < 2 → waits → candidate s.dev = some x → timebase s.dev ≠ 2 → Runs .servoAccept s fun d =>
      d = followSource s.dev x ∧ servoSel d = x ∧ (servoState d = 2 ∨ servoState d = 3)) ∧
    (waits → candidate s.dev = none → Runs .servoAccept s fun d => d = s.dev) ∧
    (¬waits → Runs .servoAccept s fun d => d = s.dev) ∧
    ((fatal s.dev = false ∧ (servoState s.dev = 3 ∨ servoState s.dev = 4)) → Runs .servoDegradedLog s fun d =>
      d = raiseErr s.dev (srcOf blkPtpi 0) 0x0305 (liveGet s.dev offPtpiServoStatus)
        (residNs (sext 64 ((liveGet s.dev offPtpiServoResidHi).toNat * 2 ^ 32 + (liveGet s.dev offPtpiServoResidLo).toNat)))) ∧
    (¬(fatal s.dev = false ∧ (servoState s.dev = 3 ∨ servoState s.dev = 4)) → Runs .servoDegradedLog s fun d => d = s.dev)

/-- R291, R292, R294, R295 and R297: OSC_TUNE, locks and SYNC_IN. The band is a free value (log entry 20), REF_OK stands for the edges of
REFCLK (log entry 243), a RELOCK without EN starts nothing (log entry 82), and a lock that completes out of its condition changes nothing
(log entry 1). -/
def Obligations.SteeringAndLocks : Prop :=
  (∀ (s : State), liveB s.dev offClkTuneCfg 1 = false →
    let driven := s.dev.boot.up = true ∨ liveB s.dev offClkStatus 0 = true
    (¬driven → Runs .oscTunePwmPeriod s fun d => d = s.dev) ∧
    (driven → Runs .oscTunePwmPeriod s fun d => d = { s.dev with clk := d.clk } ∧
      64 * d.clk.high + d.clk.acc = s.dev.clk.acc + codeNow s.dev ∧ d.clk.acc < 64 ∧
      d.clk.locking = s.dev.clk.locking ∧ d.clk.sync = s.dev.clk.sync ∧ d.clk.frame = s.dev.clk.frame) ∧
    Runs .tuneSpiFrame s fun d => d = s.dev) ∧
  (∀ (s : State), liveB s.dev offClkTuneCfg 1 = true →
    (Runs .oscTunePwmPeriod s fun d => d = s.dev) ∧
    ((s.dev.clk.sent ≠ some (codeNow s.dev) ∨ s.dev.epc.epoch % 3000 = 0) → Runs .tuneSpiFrame s fun d =>
      d = { s.dev with clk := { s.dev.clk with
        frame := some (liveF s.dev offClkTunePull 19 16 * 2 ^ 20 + codeNow s.dev * 2 ^ (20 - liveF s.dev offClkTuneCfg 12 8))
        sent := some (codeNow s.dev) } }) ∧
    (¬(s.dev.clk.sent ≠ some (codeNow s.dev) ∨ s.dev.epc.epoch % 3000 = 0) → Runs .tuneSpiFrame s fun d => d = s.dev)) ∧
  (∀ (s : State) (p : Nat), p < 6 →
    let may := s.dev.clk.locking.contains p = true ∧ selOk s.dev = true ∧ (p = 1 ∨ syncMode s.dev p = false ∨ s.dev.clk.sync.contains p = false)
    (may → Runs (.pllLockDone p) s fun d => ∃ e : Dev, pllBit e p 0 = true ∧ pllBit e p 1 = false ∧
      liveF e (offClkPllStatus p) 12 8 = (Config.vcoBand p s.dev.clk.locks).toNat ∧
      e.clk = { s.dev.clk with locking := setDel s.dev.clk.locking p, locks := s.dev.clk.locks + 1 } ∧
      OnlyWords [offClkPllStatus p] { s.dev with clk := e.clk } e ∧
      d = if s.dev.boot.phase = .lock ∧ pllBit e 0 0 = true ∧ pllBit e 1 0 = true then bootSteps e else e) ∧
    (¬may → s.dev.boot.phase ≠ .lock → Runs (.pllLockDone p) s fun d => d = s.dev) ∧
    (pllInUse s.dev p = true → Runs (.relock p) s fun d =>
      d = staticReject s.dev (offClkPllCtrl p) (setBit (regRead s.dev (offClkPllCtrl p)) 2 true)) ∧
    (pllInUse s.dev p = false → actB s.dev (offClkPllCtrl p) 0 = true → Runs (.relock p) s fun d =>
      d = startLock p s.dev ∧ d.clk.locking.contains p = true ∧ pllBit d p 0 = false ∧ pllBit d p 1 = false ∧
      d.clk.sync.contains p = true) ∧
    (pllInUse s.dev p = false → actB s.dev (offClkPllCtrl p) 0 = false → Runs (.relock p) s fun d => d = s.dev)) ∧
  (∀ (s : State) (offsets : List Int),
    (pllBit s.dev 1 1 = true → Runs (.syncInEdge offsets) s fun d =>
      d = liveSetF s.dev offClkSync 31 16 (liveF s.dev offClkSync 31 16 + 1)) ∧
    (pllBit s.dev 1 1 = false → Runs (.syncInEdge offsets) s fun d =>
      liveB d offClkStatus 7 = true ∧ d.clk = { s.dev.clk with sync := s.dev.clk.sync.filter fun p => !(syncMode s.dev p) } ∧
      liveF d offClkSync 31 16 = liveF s.dev offClkSync 31 16 ∧
      liveF d offClkSync 15 1 = (liveF s.dev offClkSync 15 1 +
        if liveB s.dev (offClkPllCtrl 1) 1 = true ∧ s.dev.clk.sync.contains 1 = false ∧ actB s.dev offClkSync 0 = true then
          ((List.range 4).filter fun r => actB s.dev (offClkAout r) 28 && decide ((offsets.getD r 0).natAbs > 1)).length
        else 0) % 2 ^ 15 ∧
      OnlyWords [offClkSync, offClkStatus] { s.dev with clk := d.clk } d))

/-- R301 to R306: REF_LOSS, REF_VALID, PLL_REACQUIRE_DONE, HOLDOVER_DECISION, REF_REVERT and PLL_NO_REACQUIRE. What the operand of REF_LOSS
stands for is log entry 79's, the code kept in holdover log entry 80's, that the PLLs stay locked through a revert log entry 81's; a
command out of its condition changes nothing (log entry 1). -/
def Obligations.ReferencesAreLostAndTaken : Prop :=
  (∀ (s : State), Runs (.refLoss .selected) s fun d =>
    refOk d (onAlt s.dev) = false ∧ refOk d (!(onAlt s.dev)) = refOk s.dev (!(onAlt s.dev)) ∧ onAlt d = onAlt s.dev ∧
    (∀ p, p < 6 → pllBit d p 0 = false ∧ pllBit d p 1 = (pllBit s.dev p 0 || pllBit s.dev p 1)) ∧
    liveB d offClkStatus 4 = (liveB s.dev offClkStatus 4 || (List.range 6).any fun p => pllBit s.dev p 0 || pllBit s.dev p 1)) ∧
  (∀ (s : State), Runs (.refLoss .other) s fun d => d = liveSetB s.dev offClkStatus (if onAlt s.dev then 0 else 1) false) ∧
  (∀ (s : State) (p : Nat), p < 6 → Runs (.refLoss (.phase p)) s fun d =>
    pllBit d p 0 = false ∧ pllBit d p 1 = (pllBit s.dev p 0 || pllBit s.dev p 1) ∧
    (pllBit s.dev p 0 = true → liveF d (offClkPllStatus p) 31 16 = min 65535 (liveF s.dev (offClkPllStatus p) 31 16 + 1) ∧
      liveB d offClkStatus 4 = true) ∧
    (∀ q, q < 6 → q ≠ p → liveGet d (offClkPllStatus q) = liveGet s.dev (offClkPllStatus q)) ∧
    (pllBit s.dev p 0 = true → liveB s.dev offClkStatus 4 = false → onAlt s.dev = false →
      d.clk = { s.dev.clk with kept := some (codeNow s.dev) })) ∧
  (∀ (s : State) (alt : Bool),
    let may := s.dev.boot.up = false ∨ refPermitted s.dev alt = true ∨ alt = onAlt s.dev
    let takes := liveB s.dev offClkStatus 5 = true ∧ alt ≠ onAlt s.dev ∧ refPermitted s.dev alt = true ∧ selOk s.dev = false
    (may → ¬takes → Runs (.refValid alt) s fun d => d = liveSetB s.dev offClkStatus (if alt then 1 else 0) true) ∧
    (may → takes → Runs (.refValid alt) s fun d => d = failover alt (liveSetB s.dev offClkStatus (if alt then 1 else 0) true) ∧
      onAlt d = alt ∧ selOk d = true ∧ liveB d offClkStatus 6 = true ∧
      liveGet d offClkFailoverCount = liveGet s.dev offClkFailoverCount + 1) ∧
    (¬may → Runs (.refValid alt) s fun d => d = s.dev)) ∧
  (∀ (s : State) (p : Nat), p < 6 →
    let taken := selOk s.dev = true ∧ (liveB s.dev offClkStatus 5 = false ∨ refPermitted s.dev (onAlt s.dev) = true)
    (pllBit s.dev p 1 = true → taken → Runs (.pllReacquireDone p) s fun d =>
      pllBit d p 0 = true ∧ pllBit d p 1 = false ∧
      (∀ q, q < 6 → q ≠ p → liveGet d (offClkPllStatus q) = liveGet s.dev (offClkPllStatus q)) ∧
      liveB d offClkStatus 4 = (liveB s.dev offClkStatus 4 && (List.range 6).any fun q => decide (q ≠ p) && pllBit s.dev q 1) ∧
      liveB d offClkStatus 5 = (liveB s.dev offClkStatus 5 && (List.range 6).any fun q => decide (q ≠ p) && pllBit s.dev q 1)) ∧
    (pllBit s.dev p 1 = true → taken → Runs (.pllNoReacquire p) s fun d => d = raiseErr s.dev (srcOf blkClk p) 0x0404 0 0) ∧
    (¬(pllBit s.dev p 1 = true ∧ taken) →
      (Runs (.pllReacquireDone p) s fun d => d = s.dev) ∧ Runs (.pllNoReacquire p) s fun d => d = s.dev)) ∧
  (∀ (s : State),
    let due := liveB s.dev offClkStatus 4 = true ∧ liveB s.dev offClkStatus 5 = false ∧ selOk s.dev = false
    let other := refOk s.dev (!(onAlt s.dev)) = true ∧ refPermitted s.dev (!(onAlt s.dev)) = true
    let back := onAlt s.dev = true ∧ actB s.dev offClkRefsel 1 = true ∧ refOk s.dev false = true
    (due → other → Runs .holdoverDecision s fun d => d = failover (!(onAlt s.dev)) s.dev ∧ onAlt d = !(onAlt s.dev) ∧
      liveGet d offClkFailoverCount = liveGet s.dev offClkFailoverCount + 1) ∧
    (due → ¬other → Runs .holdoverDecision s fun d =>
      d = raiseErr (liveSetB s.dev offClkStatus 5 true) (srcOf blkClk 0) 0x0403 0 0) ∧
    (¬due → Runs .holdoverDecision s fun d => d = s.dev) ∧
    (back → Runs .refRevert s fun d => d = failover false s.dev ∧ onAlt d = false) ∧
    (¬back → Runs .refRevert s fun d => d = s.dev))

/-- R319 to R321: FOLLOW_LOCK, TIMEBASE_TO_FOLLOW, TIMEBASE_TO_PTP and TIMEBASE_RELOAD. That each changes nothing out of its condition is
assumption log entry 1; a reload without a candidate, log entry 185. -/
def Obligations.FollowModeAndTimebaseReload : Prop :=
  ∀ (s : State),
    let source := actB s.dev offClkTuneCfg 3
    let locked := liveB s.dev offSapFollowStatus 0
    ((source = true ∧ 300 ≤ s.dev.sap.follow.run) → Runs .followLock s fun d => d = liveSetB s.dev offSapFollowStatus 0 true) ∧
    (¬(source = true ∧ 300 ≤ s.dev.sap.follow.run) → Runs .followLock s fun d => d = s.dev) ∧
    (source = true → timebase s.dev = 1 → Runs .timebaseToFollow s fun d => d = setTimebase s.dev 2 ∧ timebase d = 2) ∧
    (source = true → timebase s.dev = 0 → locked = true → Runs .timebaseToFollow s fun d =>
      timebase d = 2 ∧ d.path = { s.dev.path with loadEpoch := s.dev.epc.epoch } ∧ d.epc = s.dev.epc ∧
      OnlyWords [offEpcStatus] { s.dev with path := d.path } d) ∧
    (¬(source = true ∧ (timebase s.dev = 1 ∨ (timebase s.dev = 0 ∧ locked = true))) →
      Runs .timebaseToFollow s fun d => d = s.dev) ∧
    (source = false → timebase s.dev = 2 → (servoState s.dev = 2 ∨ servoState s.dev = 3) →
      Runs .timebaseToPtp s fun d => d = setTimebase s.dev 1 ∧ timebase d = 1) ∧
    (¬(source = false ∧ timebase s.dev = 2 ∧ (servoState s.dev = 2 ∨ servoState s.dev = 3)) →
      Runs .timebaseToPtp s fun d => d = s.dev) ∧
    (∀ x, x < 2 → s.dev.servo.reload = true → allSilent s.dev = true → candidate s.dev = some x → Runs .timebaseReload s fun d =>
      timebase d = 0 ∧ servoState d = 1 ∧ liveF d offPtpiServoStatus 7 6 = 0 ∧
      servoSel d = x ∧
      d.servo = { s.dev.servo with reload := false, run := 0, updated := none, synced := none, chosen := true, left := false, refused := none,
                                   kept := !(isQualified s.dev x) } ∧
      liveB d offTwnStatus 2 = false ∧ liveB d offTwnStatus 4 = false ∧
      (∀ p, p < 32 → liveB d (offSapPortStatus p) 30 = false) ∧
      d.twn = { s.dev.twn with confirmed := false } ∧
      d.epc = s.dev.epc ∧ d.regs.act = s.dev.regs.act ∧ d.regs.shadow = s.dev.regs.shadow) ∧
    (s.dev.servo.reload = true → allSilent s.dev = true → candidate s.dev = none → Runs .timebaseReload s fun d =>
      timebase d = timebase s.dev ∧ d.servo.reload = false ∧ d.epc = s.dev.epc) ∧
    (¬(s.dev.servo.reload = true ∧ allSilent s.dev = true) → Runs .timebaseReload s fun d => d = s.dev)

/-- R24, R26, R43, R63, R110, R146, R155, R162, R176, R352 and R361: RENDER_PHASE_A, RENDER_REDUCTION, RENDER_PHASE_B, RENDER_MARGIN and
CAPTURE_DONE. Windows out of turn: assumption log entry 1; windows without a block: 127; the insert latencies: 113 and 114; LOAD_A: 256. -/
def Obligations.RenderWindowsAndCapture : Prop :=
  (∀ (s : State), s.dev.path.phase = 0 → Runs .renderPhaseA s fun d =>
    d.path = { s.dev.path with phase := 1 } ∧ d.epc = s.dev.epc ∧ d.regs.act = s.dev.regs.act ∧
    d.geo.targets.head?.map (fun e => e.1) = some s.dev.epc.epoch ∧
    (running s.dev blkGeo = false → d.geo.targets.head? = some (s.dev.epc.epoch, []) ∧ liveF d offGeoLoad 19 0 = 0) ∧
    (running s.dev blkRc = false → liveF d offRcLoadA 23 0 = 0) ∧
    (running s.dev blkRc = true → s.dev.rc.swap = none → (∀ e, s.dev.rc.phase ≠ .parallel e) → s.dev.rc.phase ≠ .ready →
      liveF d offRcLoadA 23 0 = ((if blockN s.dev = 16 then 3436544 else 6742016) + 311808 * s.dev.rc.transformed) % 2 ^ 24)) ∧
  (∀ (s : State), s.dev.path.phase = 1 → Runs .renderReduction s fun d =>
    d.path.phase = 2 ∧ d.epc = s.dev.epc ∧ d.regs.act = s.dev.regs.act ∧
    d.xp.pool.head?.map (fun e => e.1) = some s.dev.epc.epoch ∧
    (s.dev.xp.block = none → d.path = { s.dev.path with phase := 2 }) ∧
    (∀ b, s.dev.xp.block = some b → d.path.reduced.head?.map (fun e => (e.epoch, e.block)) = some (s.dev.epc.epoch, b) ∧
      d.path.reduced.tail = s.dev.path.reduced.take 3) ∧
    d.twn.reduced = if renderOn s.dev then some s.dev.epc.epoch else s.dev.twn.reduced) ∧
  (∀ (s : State), s.dev.path.phase = 2 →
    let e := s.dev.epc.epoch
    let at' := fun a => s.dev.path.reduced.find? fun r => decide (r.epoch = a)
    (at' e = none → Runs .renderPhaseB s fun d => d = { s.dev with path := { s.dev.path with phase := 3 } }) ∧
    (∀ r, at' e = some r → Runs .renderPhaseB s fun d => d.path.phase = 3 ∧ d.epc = s.dev.epc ∧ d.regs.act = s.dev.regs.act ∧
      d.path.corrected.head?.map (fun x => x.epoch) = some e ∧ d.path.trimmed.head?.map (fun x => x.epoch) = some e ∧
      ((∀ k, k = 1 ∨ k = 2 → stageOn s.dev k r.block = false ∧ ∀ p, at' (e - 1) = some p → stageOn s.dev k p.block = false) →
        d.path.corrected.head?.map (fun x => (x.feeds, x.buses)) = some (r.block, r.block) ∧
        d.path.trimmed.head?.map (fun x => x.block) = some r.block ∧
        (actAtB s.dev r.block offGraphCtrl 0 = false → d.path.trimmed.head? = some ⟨e, r.block, []⟩)))) ∧
  (∀ (s : State), s.dev.path.phase = 3 →
    let e := s.dev.epc.epoch
    let at' := fun a => s.dev.path.trimmed.find? fun x => decide (x.epoch = a)
    Runs .renderMargin s fun d =>
      d.path.phase = 4 ∧ d.epc = s.dev.epc ∧ d.regs.act = s.dev.regs.act ∧ d.cap.block = none ∧
      d.twn.digests.head?.map (fun x => x.1) = some (e + 1) ∧
      (at' e = none → d.path = { s.dev.path with phase := 4, next := [], nextBinds := [] }) ∧
      (∀ x, at' e = some x → stageOn s.dev 3 x.block = false → (∀ p, at' (e - 1) = some p → stageOn s.dev 3 p.block = false) →
        let binds := ((s.dev.path.made.find? fun y => decide (y.1 = x.block)).map fun y => y.2).getD []
        d.path = { s.dev.path with phase := 4, next := if runningAt s.dev x.block blkGraph then x.audio else [], nextBinds := binds })) ∧
  (∀ (s : State),
    (s.dev.path.phase ≠ 0 → Runs .renderPhaseA s fun d => d = s.dev) ∧
    (s.dev.path.phase ≠ 1 → Runs .renderReduction s fun d => d = s.dev) ∧
    (s.dev.path.phase ≠ 2 → Runs .renderPhaseB s fun d => d = s.dev) ∧
    (s.dev.path.phase ≠ 3 → Runs .renderMargin s fun d => d = s.dev)) ∧
  (∀ (c bf bb : Nat) (d : Dev),
    let t := (outputStage c bf bb d).path.trimmed.headD ⟨0, 0, []⟩
    t.epoch = d.epc.epoch ∧ t.block = bf ∧ (actAtB d bf offGraphCtrl 0 = false → t.audio = [])) ∧
  (∀ (s : State),
    let due := s.dev.cap.start.isSome = true ∧ s.dev.cap.done = s.dev.cap.len ∧ s.dev.cap.block = none
    (due → Runs .captureDone s fun d =>
      d.cap = { s.dev.cap with start := none, sums := [] } ∧ liveF d offRcCapStatus 2 0 = 2 ∧
      d.mem = { s.dev.mem with mem1 := d.mem.mem1 } ∧
      (∀ a, mapGet (fun _ => (0 : Byte)) d.mem.mem1 a =
        let at' := s.dev.cap.base + 4 * (s.dev.cap.len * blockN s.dev)
        if at' ≤ a ∧ a < at' + 8 * s.dev.cap.sums.length then
          (BitVec.ofInt 64 (rshr (s.dev.cap.sums.getD ((a - at') / 8) 0) 4)).extractLsb' (8 * ((a - at') % 8)) 8
        else mapGet (fun _ => (0 : Byte)) s.dev.mem.mem1 a) ∧
      OnlyWords [offRcCapStatus] { s.dev with mem := d.mem, cap := d.cap } d) ∧
    (¬due → Runs .captureDone s fun d => d = s.dev))

/-- R5, R10, R11 and R33: Table 2-1; R420 and R445: writes that are held (log entry 260). -/
def Obligations.RegisterWritesFollowTheirKinds : Prop :=
  (∀ (s : State) (off : Nat) (v : Word), (s.dev.boot.phase = .reset ∨ (off / 0x100000 = blkSvc ∧ s.dev.boot.up = false)) →
    Runs (.registerWrite off v) s fun d => d = s.dev) ∧
  (∀ (s : State) (off : Nat) (v : Word), regAt off = none → Runs (.registerWrite off v) s fun d => d = s.dev) ∧
  (∀ (s : State) (off : Nat) (v : Word), (regAt off).isSome = true → s.dev.boot.phase ≠ .reset →
    (off / 0x100000 = blkSvc → s.dev.boot.up = true) → Runs (.registerWrite off v) s fun d =>
    d = writeAction .other off v (regStore s.dev off v).2 (regStore s.dev off v).1) ∧
  (∀ (d : Dev) (off : Nat) (v : Word) (r : RegDesc) (f : FieldDesc), regAt off = some r → r.fields = [f] →
    codeLegal (liveB d offSysRate 0) off f (bits v f.hi f.lo) = true →
    (f.acc = .rws → regStore d off v = (shSet d off (setBits (shGet d off) f.hi f.lo (fieldCanon off f (bits v f.hi f.lo))), false)) ∧
    (f.acc = .rwl → regStore d off v = (liveSetF d off f.hi f.lo (fieldCanon off f (bits v f.hi f.lo)), false)) ∧
    (f.acc = .w1s → regStore d off v = (liveSet d off (liveGet d off ||| BitVec.ofNat 32 (bits v f.hi f.lo <<< f.lo)), false)) ∧
    (f.acc = .w1c → regStore d off v = (liveSet d off (liveGet d off &&& ~~~(BitVec.ofNat 32 (bits v f.hi f.lo <<< f.lo))), false)) ∧
    ((f.acc = .wo ∨ f.acc = .ro) → regStore d off v = (d, false)) ∧
    (f.acc = .rwb → rwbRunning d off = false → regStore d off v = (liveSetF d off f.hi f.lo (fieldCanon off f (bits v f.hi f.lo)), false)) ∧
    (f.acc = .rwb → rwbRunning d off = true → liveF d off f.hi f.lo ≠ fieldCanon off f (bits v f.hi f.lo) →
      regStore d off v = (raiseErr (liveSet (bumpSat d offEpcStaticRejectCount 31 0) offEpcStaticRejectAddr (BitVec.ofNat 32 off))
        (srcOf blkEpc 0) 0x0101 (BitVec.ofNat 32 off) v, true)) ∧
    (f.acc = .rwb → rwbRunning d off = true → liveF d off f.hi f.lo = fieldCanon off f (bits v f.hi f.lo) → regStore d off v = (d, false))) ∧
  (∀ (d : Dev) (off : Nat) (v : Word) (r : RegDesc), regAt off = some r → rwbRunning d off = true →
    (∀ f ∈ r.fields, f.acc = .rwb ∧ fieldCanon off f (bits v f.hi f.lo) = liveF d off f.hi f.lo ∧
      codeLegal (liveB d offSysRate 0) off f (bits v f.hi f.lo) = true) → regStore d off v = (d, false)) ∧
  (∀ (d : Dev) (off : Nat) (v : Word) (r : RegDesc), regAt off = some r → (∀ f ∈ r.fields, f.acc ≠ .rwb) → (regStore d off v).2 = false) ∧
  (∀ (d : Dev) (off : Nat) (v : Word) (r : RegDesc), regAt off = some r →
    (∀ f ∈ r.fields, f.acc = .rws ∨ f.acc = .ro ∨ f.acc = .wo) →
    (∀ f ∈ r.fields, codeLegal (liveB d offSysRate 0) off f (bits v f.hi f.lo) = true) →
    regStore d off v = ({ d with regs := { d.regs with shadow := (regStore d off v).1.regs.shadow } }, false) ∧
    ∀ off', off' ≠ off → shGet (regStore d off v).1 off' = shGet d off')

/-- R328, R419 and R445: PERF_FREEZE, PERF_RELEASE, PERF_CLEAR and REMAP. That a write in reset is dropped is log entry 260. -/
def Obligations.CounterActionsAndRemap : Prop :=
  ∀ (s : State),
    (Runs .perfFreeze s fun d => d.perf = { s.dev.perf with freeze := true } ∧ liveB d offPerfStatus 1 = true ∧
      OnlyWords [offPerfStatus] { s.dev with perf := d.perf } d) ∧
    (Runs .perfRelease s fun d => d.perf = { s.dev.perf with release := true } ∧ liveB d offPerfStatus 1 = true ∧
      OnlyWords [offPerfStatus] { s.dev with perf := d.perf } d) ∧
    (Runs .perfClear s fun d => d.perf = { s.dev.perf with clear := true } ∧ liveB d offPerfStatus 1 = true ∧
      OnlyWords [offPerfStatus] { s.dev with perf := d.perf } d) ∧
    (s.dev.boot.phase ≠ .reset → Runs .remap s fun d => d = liveSetB s.dev offXbarCtrl 0 true) ∧
    (s.dev.boot.phase = .reset → Runs .remap s fun d => d = s.dev)

/-- R325 to R327, R329 and R331: decoding and XBAR_GRANT, with log entry 247. -/
def Obligations.CrossbarRoutesAndGrants : Prop :=
  (∀ (d : Dev) (r : XbarReq), (r.master = 18 → lcsState d = 1) → (r.addr < 0x100000 → r.master = 0 ∨ r.master = 18) →
    let w := windowAt (liveB d offXbarCtrl 0) r.addr
    let w' := windowAt (liveB d offXbarCtrl 0) (r.addr + r.len - 1)
    (w = none ∨ w' = none → decodeReq d r = (none, .decode)) ∧
    (∀ t o o', w = some (t, o) → w' = some (t, o') →
      (pathKind r.master t = 0 → decodeReq d r = (none, .decode)) ∧
      (pathKind r.master t = 1 → r.write = true → decodeReq d r = (some t, .target)) ∧
      (pathKind r.master t ≠ 0 → fatal d = true → t = 5 → decodeReq d r = (some 5, .target)) ∧
      (pathKind r.master t ≠ 0 → clusterHas (o % 0x1000000) = true → clusterHas ((o + r.len - 1) % 0x1000000) = true →
        (fatal d = true ∨ o / 0x1000000 ∈ d.vec.retired) → t = 4 → decodeReq d r = (some 4, .target)) ∧
      (pathKind r.master t ≠ 0 → (pathKind r.master t = 1 → r.write = false) →
        (t = 2 → decodeReq d r = (some 2, .ok)) ∧
        (t = 6 → memReady d 0 = true → memSize d 0 < o + r.len → (decodeReq d r).2 = .decode) ∧
        (t = 7 → memReady d 1 = true → memSize d 1 < o + r.len → (decodeReq d r).2 = .decode) ∧
        (t = 6 → memReady d 0 = true → o + r.len ≤ memSize d 0 → renderOn d = true → (r.master = 0 ∨ r.master = 18) →
          decodeReq d r = (some 6, .target)) ∧
        (t = 7 → memReady d 1 = true → o + r.len ≤ memSize d 1 →
          decodeReq d r = (some 7, if mem1Allows d r o = true then .ok else .target)))) ∧
    (∀ t t' o o', w = some (t, o) → w' = some (t', o') → t ≠ t' → decodeReq d r = (none, .decode))) ∧
  (∀ (s : State) (r : XbarReq), r.master < 19 → Runs (.xbarGrant r) s fun d =>
    d.xbar.out.length + d.xbar.waiting.length = s.dev.xbar.out.length + s.dev.xbar.waiting.length + (segments (r.len / 512 + 1) r).length ∧
    (s.dev.xbar.out.length ≤ 256 → d.xbar.out.length ≤ 256) ∧
    (∀ m, outOf s.dev m ≤ masterLimit m → outOf d m ≤ masterLimit m) ∧
    (∀ ch, ch < 2 → memQueued s.dev ch ≤ 64 → memQueued d ch ≤ 64)) ∧
  (∀ (r : XbarReq), let l := segments (r.len / 512 + 1) r
    (∀ q ∈ l, q.len ≤ 512 ∧ q.master = r.master ∧ q.id = r.id ∧ q.write = r.write) ∧ (l.map fun q => q.len).sum = r.len ∧
    l.head?.map (fun q => (q.addr, q.first)) = some (r.addr, r.first) ∧ l.getLast?.map (fun q => q.last) = some r.last ∧
    (r.len ≤ 512 - r.addr % 32 → l = [r]) ∧ (512 - r.addr % 32 < r.len → 1 < l.length)) ∧
  (∀ (s : State) (r : XbarReq), r.master < 19 → Runs (.xbarGrant r) s fun d =>
    liveGet d offXbarSplitCount = liveGet s.dev offXbarSplitCount +
      (if r.first = true ∧ (r.last = false ∨ 512 - r.addr % 32 < r.len) then 1 else 0)) ∧
  (∀ (s : State) (r : XbarReq), r.master < 19 → r.len ≤ 512 - r.addr % 32 → s.dev.xbar.waiting = [] → mayGrant s.dev r = true →
    Runs (.xbarGrant r) s fun d =>
      d.xbar.out = s.dev.xbar.out ++ [⟨r, (decodeReq s.dev r).1, (decodeReq s.dev r).2, liveB s.dev offXbarCtrl 0, false,
        if (decodeReq s.dev r).2 = .ok then txBursts (liveB s.dev offXbarCtrl 0) r else []⟩] ∧
      d.xbar.waiting = []) ∧
  (∀ (s : State) (r : XbarReq), r.master < 19 → r.len ≤ 512 - r.addr % 32 → s.dev.xbar.waiting = [] → mayGrant s.dev r = false →
    Runs (.xbarGrant r) s fun d =>
      d.xbar.out = s.dev.xbar.out ∧ d.xbar.waiting = [(r, ruleOneHolds s.dev r)] ∧
      liveGet d offXbarHoldCount = liveGet s.dev offXbarHoldCount + (if ruleOneHolds s.dev r = true then 1 else 0))

/-- R16, R332, R333, R336, R343 and R344: XBAR_RESPONSE and MASTER_RESET. A response out of its turn changes nothing: assumption log entry
1. What an error response of each kind of traffic leads to (Table 15-7) is applied to the device with the response counted. -/
def Obligations.CrossbarResponsesAndResets : Prop :=
  (∀ (s : State) (m id : Nat) (resp : XResp) (traffic : XTraffic), m < 19 → trafficOk traffic = true →
    (∀ t ∈ s.dev.xbar.out, t.req.master = m → t.req.id ≠ id) → Runs (.xbarResponse m id resp traffic) s fun d => d = s.dev) ∧
  (∀ (d : Dev) (tx : XbarTx),
    (tx.target = some 5 → fatal d = true → ∀ r, respFits d tx r = decide (r = .target)) ∧
    (tx.target = some 4 → (fatal d = true ∨ txOffset tx / 0x1000000 ∈ d.vec.retired) → ∀ r, respFits d tx r = decide (r = .target)) ∧
    (∀ ch, ch < 2 → tx.target = some (6 + ch) → memReady d ch = false → ∀ r, respFits d tx r = decide (r = .target)) ∧
    (∀ ch, ch < 2 → tx.target = some (6 + ch) → memReady d ch = true → tx.answer = .ok →
      (respFits d tx .ok = true ↔ tx.left = []) ∧ respFits d tx .target = true ∧ respFits d tx .data = true ∧ respFits d tx .decode = false) ∧
    (tx.target = none → tx.answer ≠ .ok → ∀ r, respFits d tx r = decide (r = tx.answer))) ∧
  (∀ (s : State) (m id : Nat) (resp : XResp) (traffic : XTraffic) (tx : XbarTx), m < 19 → trafficOk traffic = true →
    s.dev.xbar.out.find? (fun t => decide (t.req.master = m ∧ t.req.id = id)) = some tx →
    let base := xbarCounts m { s.dev with xbar := { s.dev.xbar with
      out := s.dev.xbar.out.eraseP fun t => decide (t.req.master = m ∧ t.req.id = id) } }
    let answers := fun (x : Xbar) (r : XResp) (bytes : List Byte) => { x with
      answers := (x.answers.filter fun a => decide (a.1 ≠ m)) ++ [(m, id, r, bytes)] }
    let answer := answers base.xbar
    let failed := countError m tx.req.addr tx.req.write resp base
    let ends := fun (d e : Dev) => d = { e with xbar := answer resp [] }
    let o := txOffset tx
    let bs := tx.req.data.take tx.req.len
    let within := fun (a : Nat) => o ≤ a ∧ a < o + bs.length
    let due := respFits s.dev tx resp = true ∧ inTurn s.dev tx = true ∧ (resp = .ok ∨ trafficOf m traffic = true)
    (¬due → Runs (.xbarResponse m id resp traffic) s fun d => d = s.dev) ∧
    (due → s.dev.xbar.waiting = [] → tx.void = true → Runs (.xbarResponse m id resp traffic) s fun d =>
      d = if resp = .ok then base else failed) ∧
    (due → s.dev.xbar.waiting = [] → tx.void = false → resp = .ok → tx.req.write = false →
      (∀ t, tx.target = some t → t ≠ 3 → Runs (.xbarResponse m id resp traffic) s fun d =>
        d.xbar = answer .ok (targetRead s.dev t o tx.req.len) ∧
        OnlyWords [offXbarOutstanding, offXbarMaster m, offXbarStatus, offMemQueue 0, offMemQueue 1] { s.dev with xbar := d.xbar } d) ∧
      (tx.target = some 3 → Runs (.xbarResponse m id resp traffic) s fun d => d = { base with
        xbar := answer .ok ((List.range (tx.req.len / 4)).flatMap fun i => leBytes 4 (regRead base (o + 4 * i)).toNat) })) ∧
    (due → s.dev.xbar.waiting = [] → tx.void = false → resp = .ok → tx.req.write = true →
      (tx.target = some 2 → Runs (.xbarResponse m id resp traffic) s fun d =>
        d = { base with xbar := answer .ok [], mem := { base.mem with sram := d.mem.sram } } ∧
        ∀ a, sramByte d a = if within a ∧ inLogRing a = false then bs.getD (a - o) 0 else sramByte s.dev a) ∧
      (tx.target = some 3 → bs.length = 4 → Runs (.xbarResponse m id resp traffic) s fun d =>
        let w := (superWrite .other o (BitVec.ofNat 32 (leNat bs)) base).1
        d = xbarGrants { w with xbar := answers w.xbar .ok [] }) ∧
      (tx.target = some 3 → bs.length = 8 → Runs (.xbarResponse m id resp traffic) s fun d =>
        let v := (superWrite .other o (BitVec.ofNat 32 (leNat (bs.take 4))) base).1
        let w := (superWrite .other (o + 4) (BitVec.ofNat 32 (leNat (bs.drop 4))) v).1
        d = xbarGrants { w with xbar := answers w.xbar .ok [] }) ∧
      (tx.target = some 4 → o + bs.length ≤ 0x9000000 → Runs (.xbarResponse m id resp traffic) s fun d =>
        d = { base with xbar := answer .ok [], vec := d.vec } ∧
        d.vec = { base.vec with cores := d.vec.cores, shared := d.vec.shared } ∧
        ∀ a, a < 0x9000000 → clusterByte d a = if within a then bs.getD (a - o) 0 else clusterByte s.dev a) ∧
      (tx.target = some 5 → 0x80000 ≤ o → o + bs.length ≤ 0x100000 → Runs (.xbarResponse m id resp traffic) s fun d =>
        d = { base with xbar := answer .ok [], mem := { base.mem with standby := d.mem.standby, render := d.mem.render } } ∧
        ∀ a, a < 0x100000 → renderByte d a = if within a then bs.getD (a - o) 0 else renderByte s.dev a) ∧
      (tx.target = some 6 → Runs (.xbarResponse m id resp traffic) s fun d =>
        d = { base with xbar := answer .ok [], xp := { base.xp with lines := d.xp.lines },
                        mem := { base.mem with mem0 := d.mem.mem0, rcRegion := d.mem.rcRegion } } ∧
        ∀ a, mem0Byte d a = if within a then (if a < 0x08000000 ∧ a % 4 = 3 then 0 else bs.getD (a - o) 0) else mem0Byte s.dev a) ∧
      (tx.target = some 7 → Runs (.xbarResponse m id resp traffic) s fun d =>
        d = { base with xbar := answer .ok [], mem := { base.mem with mem1 := d.mem.mem1, reserved := d.mem.reserved } } ∧
        ∀ a, mem1Byte d a = if within a then bs.getD (a - o) 0 else mem1Byte s.dev a)) ∧
    (due → s.dev.xbar.waiting = [] → tx.void = false → resp ≠ .ok →
      (traffic = .debug → Runs (.xbarResponse m id resp traffic) s fun d => ends d failed) ∧
      (traffic = .supervisor → Runs (.xbarResponse m id resp traffic) s fun d =>
        ends d (raiseErr failed (srcOf blkXbar 0) 0x0506 (liveGet d offXbarLastErrInfo) (BitVec.ofNat 32 tx.req.addr)) ∧
        liveGet d offXbarLastErrInfo = BitVec.ofNat 32 (tx.req.master % 32 * 65536 + respCode resp * 256 + tx.req.write.toNat) ∧
        liveGet d offXbarLastErrLo = BitVec.ofNat 32 tx.req.addr) ∧
      (∀ k, traffic = .bulk k → Runs (.xbarResponse m id resp traffic) s fun d =>
        ends d (raiseErr (bulkLost k tx.req.write (o % 131072) tx.req.len failed) (srcOf blkMem0 0) 0x0503 (BitVec.ofNat 32 k) (BitVec.ofNat 32 o))) ∧
      (∀ f b, traffic = .tail f → feedBlock s.dev = some b → Runs (.xbarResponse m id resp traffic) s fun d =>
        ends d (raiseErr (tailFailed f b failed) (srcOf blkMem0 0) 0x0504 (BitVec.ofNat 32 f) (BitVec.ofNat 32 o)) ∧ f ∈ d.rc.muted) ∧
      (∀ f, traffic = .tail f → feedBlock s.dev = none → Runs (.xbarResponse m id resp traffic) s fun d =>
        ends d (raiseErr failed (srcOf blkMem0 0) 0x0504 (BitVec.ofNat 32 f) (BitVec.ofNat 32 o))) ∧
      (traffic = .capture → capturing s.dev = true → Runs (.xbarResponse m id resp traffic) s fun d => ends d (captureError o failed)) ∧
      (traffic = .capture → capturing s.dev = false → Runs (.xbarResponse m id resp traffic) s fun d => ends d failed) ∧
      (∀ k x, traffic = .sections k → loadingSec s.dev k = some x → Runs (.xbarResponse m id resp traffic) s fun d =>
        ends d (reloadRefuse k 11 (refuseSection k x.data failed))) ∧
      (∀ k, traffic = .sections k → loadingSec s.dev k = none → Runs (.xbarResponse m id resp traffic) s fun d => ends d failed) ∧
      (∀ c, traffic = .staging c →
        (coreState s.dev c = 2 → Runs (.xbarResponse m id resp traffic) s fun d => ends d (endItem failed c 2 true)) ∧
        (coreState s.dev c = 4 → Runs (.xbarResponse m id resp traffic) s fun d => ends d (endItem (deliverFirst failed c) c 2 true)) ∧
        (coreState s.dev c ≠ 2 → coreState s.dev c ≠ 4 → Runs (.xbarResponse m id resp traffic) s fun d => ends d failed)) ∧
      (∀ c, traffic = .window c →
        (∀ b, (coreOf s.dev c).wait = some (.window, b) → Runs (.xbarResponse m id resp traffic) s fun d =>
          ends d (vecFault (setCore failed c { coreOf s.dev c with wait := none }) c fWindow)) ∧
        ((∀ b, (coreOf s.dev c).wait ≠ some (.window, b)) → Runs (.xbarResponse m id resp traffic) s fun d =>
          ends d (if tx.req.write = true ∧ (inHandler s.dev c = true ∨ (coreOf s.dev c).item.isSome = true) then vecFault failed c fWindow
            else failed))))) ∧
  (∀ (s : State) (m : Nat), m < 19 → Runs (.masterReset m) s fun d =>
    d = { s.dev with xbar := d.xbar } ∧ d.xbar.out.length = s.dev.xbar.out.length ∧
    (∀ t ∈ d.xbar.out, t.req.master = m → t.void = true) ∧ (∀ t ∈ s.dev.xbar.out, t.req.master ≠ m → t ∈ d.xbar.out) ∧
    (∀ w, w ∈ d.xbar.waiting ↔ w ∈ s.dev.xbar.waiting ∧ w.1.master ≠ m) ∧
    (∀ a, a ∈ d.xbar.answers ↔ a ∈ s.dev.xbar.answers ∧ a.1 ≠ m))

/-- R29 to R31, R35, R36, R39, R41 and R422: EPOCH_START, COMMIT_CUTOFF and TIMEBASE_LOAD. Out of their condition they change nothing:
assumption log entry 1. -/
def Obligations.EpochsBeginAndCommitsApply : Prop :=
  (∀ (s : State),
    let free := s.dev.boot.phase = .reset ∨ (timebase s.dev = 0 ∧ s.dev.servo.lockedAt.isSome = true)
    (free → Runs .epochStart s fun d => d = s.dev) ∧
    (¬free → Runs .epochStart s fun d =>
      d = epochActions (epochBegins (s.dev.epc.epoch + 1) (s.dev.servo.epochAt + 16000000) (epochEnds s.dev)) ∧
      d.epc.epoch = (s.dev.epc.epoch + 1) % 2 ^ 48 ∧
      (d.regs.act = s.dev.regs.act ∨
        d.regs.act = ((s.dev.epc.epoch + 1) % 2 ^ 48, s.dev.regs.shadow) :: s.dev.regs.act.take 7))) ∧
  (∀ (d : Dev), (d.epc.commit = none ∨ (∃ e, d.epc.commit = some e ∧ d.epc.epoch < e) ∨ fatal d = true) → commitApply d = d) ∧
  (∀ (d : Dev) (e : Nat), d.epc.commit = some e → e ≤ d.epc.epoch → fatal d = false →
    let c := commitApply d
    c.regs.act = (d.epc.epoch, d.regs.shadow) :: d.regs.act.take 7 ∧ c.regs.shadow = d.regs.shadow ∧ c.epc.epoch = d.epc.epoch) ∧
  (∀ (s : State), (s.dev.epc.cutoff = true → Runs .commitCutoff s fun d => d = s.dev) ∧
    (s.dev.epc.cutoff = false → (s.dev.epc.commit ≠ some (s.dev.epc.epoch + 1) ∨ fatal s.dev = true ∨ s.dev.boot.reload = none) →
      Runs .commitCutoff s fun d => d = { s.dev with epc := { s.dev.epc with cutoff := true } }) ∧
    (∀ l, s.dev.epc.cutoff = false → s.dev.epc.commit = some (s.dev.epc.epoch + 1) → fatal s.dev = false → s.dev.boot.reload = some l →
      (reloadState s.dev = 1 → Runs .commitCutoff s fun d =>
        d = raiseErr (setResult (setPending { s.dev with epc := { s.dev.epc with cutoff := true } } none) .reload) (srcOf blkEpc 0) 0x0103
          (BitVec.ofNat 32 (s.dev.epc.epoch + 1)) 0 ∧
        d.epc.commit = none ∧ liveF d offEpcCommitStatus 2 0 = 6 ∧ d.regs.shadow = s.dev.regs.shadow) ∧
      (reloadState s.dev ≠ 1 → Runs .commitCutoff s fun d =>
        d.epc = { s.dev.epc with cutoff := true, joined := true } ∧ d.regs.act = s.dev.regs.act))) ∧
  (∀ (s : State) (lock : Int), s.dev.servo.lockedAt = some lock → timebase s.dev = 0 → s.dev.boot.phase ≠ .reset →
    Runs .timebaseLoad s fun d =>
      let e := loadEpoch s.dev lock
      let moved := moveLabels ((e : Int) - ((s.dev.epc.epoch : Int) + 1)) (epochEnds s.dev)
      d = epochActions (genMakeAll (genLoaded (epochBegins e (16000000 * (e : Int) - 3 * s.dev.servo.base)
        (setTimebase { (if moved.epc.commit.isSome = true then setResult (setPending moved none) .cancelled else moved) with
          servo := { moved.servo with lockedAt := none }, path := { moved.path with loadEpoch := e % 2 ^ 48 } } 1))) (e % 2 ^ 48)) ∧
      d.epc.epoch = e % 2 ^ 48 ∧
      3 * lock + 3 * s.dev.servo.base ≤ 16000000 * (e : Int) ∧
      s.dev.servo.epochAt + 16000000 + 3 * s.dev.servo.base ≤ 16000000 * (e : Int) ∧
      ∀ e' : Nat, e' < e → 16000000 * (e' : Int) < 3 * lock + 3 * s.dev.servo.base ∨
        16000000 * (e' : Int) < s.dev.servo.epochAt + 16000000 + 3 * s.dev.servo.base) ∧
  (∀ (s : State), (s.dev.servo.lockedAt = none ∨ timebase s.dev ≠ 0 ∨ s.dev.boot.phase = .reset) →
    Runs .timebaseLoad s fun d => d = s.dev)

/-- R334, R335 and R337 to R343: DRAM_REQUEST, DRAM_REFRESH, RETRAINING_PAUSE, POWER_DOWN_ENTRY, SELF_REFRESH_ENTRY, SELF_REFRESH_EXIT
and MEM_INIT. Latencies and the length of a pause are free values below their bounds (log 21). Commands out of their condition: log 1; rows: log 84; pauses:
log 87, 190 and 210; ranks: log 235; the windows of MEM0: log 247. -/
def Obligations.MemoryControllersServeAndRest : Prop :=
  ∀ (s : State) (ch : Nat), ch < 2 →
    let ready := memReady s.dev ch = true
    let st := memState s.dev ch
    let m := dram s.dev ch
    let now := 64 * s.dev.epc.epoch + s.dev.epc.period
    let gib := 8 * (if liveB s.dev (offMemCfg ch) 1 = true then 2 else 1) * (if liveB s.dev (offMemCfg ch) 0 = true then 2 else 1)
    (liveB s.dev (offClkPllStatus (2 + ch)) 0 = true → s.dev.boot.phase = .train → memReady s.dev (1 - ch) = true →
      Runs (.memInit ch true) s fun d => d = bootTrained (memInit ch true s.dev)) ∧
    (liveB s.dev (offClkPllStatus (2 + ch)) 0 = true → ¬(s.dev.boot.phase = .train ∧ memReady s.dev (1 - ch) = true) →
      Runs (.memInit ch true) s fun d =>
      memReady d ch = true ∧ memState d ch = 1 ∧ liveF d (offMemStatus ch) 21 16 = gib ∧ liveB d (offMemStatus ch) 1 = false ∧
      liveF d (offMemStatus ch) 9 8 = memRate s.dev ch ∧ dram d ch = {} ∧ dram d (1 - ch) = dram s.dev (1 - ch) ∧ d.mem = s.dev.mem) ∧
    (∀ ok, (ok = false ∨ liveB s.dev (offClkPllStatus (2 + ch)) 0 = false) → Runs (.memInit ch ok) s fun d =>
      memReady d ch = false ∧ memState d ch = 0 ∧ liveB d (offMemStatus ch) 1 = true ∧ fatal d = true ∧ d.mem = s.dev.mem) ∧
    (∀ off write rowOpen master err, master < 19 →
      let r : DramReq := ⟨off, write, rowOpen, master, err⟩
      let big := liveB s.dev (offMemCfg ch) 1
      let may := ready ∧ off < memSize s.dev ch ∧ (ch = 1 ∨ mem0Window s.dev master = true)
      (¬may → Runs (.dramRequest ch off write rowOpen master err) s fun d => d = s.dev) ∧
      (may → st = 3 → Runs (.dramRequest ch off write rowOpen master err) s fun d =>
        d = setDram s.dev ch { dram s.dev ch with held := (dram s.dev ch).held ++ [r] }) ∧
      (may → st ≠ 3 → Runs (.dramRequest ch off write rowOpen master err) s fun d =>
        d = serveDram ch (wakeRanks s.dev ch (setDel m.down (dramBank big off / 32))) r ∧
        (dram d ch).down = setDel m.down (dramBank big off / 32) ∧ (dram d ch).served = m.served + 1 ∧
        (dramBank big off / 32 < memRanks s.dev ch → memState d ch = 1) ∧
        (∀ row, (dramBank big off, row) ∈ (dram d ch).rows ↔
          (if master = 10 ∨ master = 11 then off % 4096 < 4032 else rowOpen = true) ∧ row = dramRow big off) ∧
        liveF s.dev (offMemLatMax ch) 15 0 ≤ liveF d (offMemLatMax ch) 15 0 ∧
        liveGet d (offMemCnt ch 0) = liveGet s.dev (offMemCnt ch 0) +
          (if write = false ∧ err matches .corrected _ then 1 else 0) ∧
        liveGet d (offMemCnt ch 1) = liveGet s.dev (offMemCnt ch 1) +
          (if write = false ∧ err matches .uncorrectable _ then 1 else 0) ∧
        liveGet d (offMemCnt ch 2) = liveGet s.dev (offMemCnt ch 2) + (if err = .retryOk then 1 else 0) ∧
        liveGet d (offMemCnt ch 3) = liveGet s.dev (offMemCnt ch 3) + (if err = .retryFail then 1 else 0))) ∧
    (¬(ready ∧ st ≠ 3) → Runs (.dramRefresh ch) s fun d => d = s.dev) ∧
    (ready → st ≠ 3 → Runs (.dramRefresh ch) s fun d =>
      dram d ch = { m with rows := [], down := [] } ∧ memState d ch = 1 ∧ dram d (1 - ch) = dram s.dev (1 - ch)) ∧
    (∀ hot, let due := ready ∧ s.dev.epc.epoch % actF s.dev (offMemRetrain ch) 15 0 = 0 ∧ m.paused ≠ some s.dev.epc.epoch ∧
        (ch = 1 ∨ renderOn s.dev = false ∨ 3 ≤ s.dev.path.phase);
      (due → st ≠ 3 → pauseSkipped s.dev ch = false → Runs (.retrainingPause ch hot) s fun d =>
        dram d ch = { m with rows := [], down := [], paused := some s.dev.epc.epoch } ∧ liveB d (offMemStatus ch) 3 = hot ∧
        memState d ch = 1 ∧ liveGet d (offMemCnt ch 5) = liveGet s.dev (offMemCnt ch 5) + 1) ∧
      (due → st ≠ 3 → pauseSkipped s.dev ch = true → Runs (.retrainingPause ch hot) s fun d =>
        d = setDram s.dev ch { m with paused := some s.dev.epc.epoch }) ∧
      (due → st = 3 → Runs (.retrainingPause ch hot) s fun d =>
        let e := selfRefreshExit ch s.dev
        (dram d ch).held = [] ∧ (dram d ch).paused = some s.dev.epc.epoch ∧
        (dram d ch).served = m.served + m.held.length ∧ memState d ch = 1 ∧
        (pauseSkipped e ch = true → d = setDram e ch { dram e ch with paused := some s.dev.epc.epoch }) ∧
        (pauseSkipped e ch = false → (dram d ch).rows = [] ∧ liveB d (offMemStatus ch) 3 = hot)) ∧
      (¬due → Runs (.retrainingPause ch hot) s fun d => d = s.dev)) ∧
    (∀ rank, rank < 2 → let may := ready ∧ actB s.dev (offMemCtrl ch) 1 = true ∧ st = 1 ∧ rank < memRanks s.dev ch ∧
        ¬(ch = 0 ∧ renderOn s.dev = true);
      (may → Runs (.powerDownEntry ch rank) s fun d =>
        dram d ch = { m with down := setIns m.down rank } ∧ dram d (1 - ch) = dram s.dev (1 - ch) ∧
        memState d ch = (if ∀ q < memRanks s.dev ch, q = rank ∨ q ∈ m.down then 2 else 1)) ∧
      (¬may → Runs (.powerDownEntry ch rank) s fun d => d = s.dev)) ∧
    (let may := ready ∧ actB s.dev (offMemCtrl ch) 2 = true ∧ (st = 1 ∨ st = 2) ∧ mayRest s.dev ch = true;
      (may → Runs (.selfRefreshEntry ch) s fun d => memState d ch = 3 ∧ dram d ch = { m with rows := [], down := [], restAt := some now } ∧
        liveGet d (offMemCnt ch 4) = liveGet s.dev (offMemCnt ch 4) + 1) ∧
      (¬may → Runs (.selfRefreshEntry ch) s fun d => d = s.dev)) ∧
    (ready → st = 3 → Runs (.selfRefreshExit ch) s fun d =>
      let long := m.restAt.any fun t => decide (t + 1920 < now)
      let woken := { m with held := [], restAt := none, trainedAt := if long then some now else m.trainedAt }
      d = m.held.foldl (serveDram ch) (setMemState (setDram s.dev ch woken) ch 1) ∧
      memState d ch = 1 ∧ (dram d ch).held = [] ∧ (dram d ch).served = m.served + m.held.length) ∧
    (¬(ready ∧ st = 3) → Runs (.selfRefreshExit ch) s fun d => d = s.dev)

/-- R402 and R404 to R408: HELLO and REQUEST. The supervisor queue: assumption log entry 98; refusals of a HELLO: 156 to 158; random
numbers: 26; a repeated SEQ: 161. -/
def Obligations.DatagramsAreAuthenticated : Prop :=
  ∀ (s : State) (port src : Nat) (b : List Byte), port < 3 →
    let up := portOpen s.dev port = true
    let good := mdpFormed b = true
    let taken := takeDatagram port b s.dev
    (port = 2 → taken = s.dev) ∧
    (∀ (pre rest : List Frame) (f : Frame), up → port < 2 → (plane s.dev port).sup = pre ++ f :: rest →
      (∀ g ∈ pre, bringsDatagram b g = false) → bringsDatagram b f = true →
      taken = setPlane s.dev port { plane s.dev port with sup := pre ++ rest }) ∧
    (¬up → (Runs (.hello port src b) s fun d => d = s.dev) ∧ Runs (.request port src b) s fun d => d = s.dev) ∧
    (up → ¬(good ∧ (field b 3 1 = 1 ∨ field b 3 1 = 3)) →
      (Runs (.hello port src b) s fun d => d = bump taken (offSvcMdpCnt 1)) ∧
      Runs (.request port src b) s fun d => d = bump taken (offSvcMdpCnt 1)) ∧
    (up → good → field b 3 1 = 1 →
      ((field b 12 2 ≠ 20 ∨ zeros (b.drop 16) 1 3 = false) → Runs (.hello port src b) s fun d => d = bump taken (offSvcMdpCnt 1)) ∧
      (field b 12 2 = 20 → zeros (b.drop 16) 1 3 = true → 16 ≤ s.dev.mgmt.hellos →
        Runs (.hello port src b) s fun d => d = bump taken (offSvcMdpCnt 6)) ∧
      (field b 12 2 = 20 → zeros (b.drop 16) 1 3 = true → s.dev.mgmt.hellos < 16 →
        (8 ≤ s.dev.mgmt.sessions.length ∨ (∀ k ∈ s.dev.mgmt.keys, k.1 ≠ field (b.drop 16) 0 1)) →
        Runs (.hello port src b) s fun d => d.mgmt.sessions = s.dev.mgmt.sessions ∧ d.mgmt.queue = s.dev.mgmt.queue ∧
          d.mgmt.hellos = s.dev.mgmt.hellos + 1) ∧
      (∀ k, field b 12 2 = 20 → zeros (b.drop 16) 1 3 = true → s.dev.mgmt.hellos < 16 → s.dev.mgmt.sessions.length < 8 →
        (s.dev.mgmt.keys.find? fun k => decide (k.1 = field (b.drop 16) 0 1)) = some k →
        Runs (.hello port src b) s fun d => ∃ id, id ∉ s.dev.mgmt.sessions.map (·.id) ∧ id ≠ 0 ∧
          d.mgmt.sessions = s.dev.mgmt.sessions ++ [⟨id, sessionKey k.2.2 k.1 id ((b.drop 20).take 16)
            (beBytes 16 (Config.random s.dev.mgmt.drawn).toNat), k.2.1, none, [], 0, 0⟩] ∧
          d.mgmt.queue = s.dev.mgmt.queue ∧ liveGet d (offSvcMdpCnt 7) = liveGet s.dev (offSvcMdpCnt 7) + 1)) ∧
    (up → good → field b 3 1 = 3 →
      ((s.dev.mgmt.sessions.find? fun x => decide (x.id = field b 4 4)) = none →
        Runs (.request port src b) s fun d => d = bump taken (offSvcMdpCnt 2)) ∧
      (∀ x, (s.dev.mgmt.sessions.find? fun x => decide (x.id = field b 4 4)) = some x →
        let len := field b 12 2
        let tagOk := hmac256 x.key (b.take (16 + len)) = b.drop (16 + len)
        let ahead := match x.seq with
          | none => 1
          | some l => (field b 8 4 + 2 ^ 32 - l) % 2 ^ 32
        (¬tagOk → Runs (.request port src b) s fun d => d.mgmt.queue = s.dev.mgmt.queue ∧
          OnlyWords [offSvcMdpCnt 3] { taken with mgmt := d.mgmt } d ∧
          d.mgmt.sessions = (if x.badTags ≥ 15 then s.dev.mgmt.sessions.filter fun y => decide (y.id ≠ x.id)
            else s.dev.mgmt.sessions.map fun y => if y.id = x.id then { x with badTags := x.badTags + 1 } else y)) ∧
        (tagOk → (ahead = 0 ∨ 2 ^ 31 ≤ ahead) → Runs (.request port src b) s fun d =>
          d.mgmt.queue = s.dev.mgmt.queue ∧
          liveGet d (offSvcMdpCnt 4) = liveGet s.dev (offSvcMdpCnt 4) + (if 2 ^ 31 ≤ ahead then 1 else 0) ∧
          liveGet d (offSvcMdpCnt 5) = liveGet s.dev (offSvcMdpCnt 5) + (if ahead = 0 ∧ x.resp ≠ [] then 1 else 0)) ∧
        (tagOk → 0 < ahead → ahead < 2 ^ 31 → Runs (.request port src b) s fun d =>
          d = enqueueReq port src x.id (field b 8 4) x.perms ((b.drop 16).take len)
            (setSession taken { x with badTags := 0, seq := some (field b 8 4), resp := [], idle := 0 }))))

/-- R386, R389 and R407 to R412: the commands of Tables 18-4 and 18-5. A row whose turn has not come changes nothing: assumption log entry 1;
the order of the checks: 155, 160, 162 and 163; a failed erase or program: 25. -/
def Obligations.RequestsExecuteTheirCommands : Prop :=
  (∀ (s : State) (off n : Nat),
    let turn := frontIs s.dev 1 (fun a => decide (field a 0 4 = off ∧ field a 4 2 = n)) = true
    (turn → Runs (.readCmd off n) s fun d => d = endFront 0 (beBytes 8 (snapEpoch s.dev) ++
      (List.range n).flatMap fun i => beBytes 4 (regRead s.dev (off + 4 * i)).toNat) s.dev) ∧
    (¬turn → Runs (.readCmd off n) s fun d => d = s.dev)) ∧
  (∀ (s : State) (off : Nat) (ws : List Word),
    let turn := frontIs s.dev 2 (fun a => decide (field a 0 4 = off ∧ a.drop 8 = ws.flatMap fun w => beBytes 4 w.toNat)) = true
    (turn → Runs (.writeCmd off ws) s fun d =>
      d = endFront (if (writeWords .other off ws s.dev).2 = true then 5 else 0) [] (writeWords .other off ws s.dev).1) ∧
    (¬turn → Runs (.writeCmd off ws) s fun d => d = s.dev)) ∧
  (∀ (s : State) (e : Nat),
    let turn := frontIs s.dev 3 (fun a => decide (field a 0 8 = e)) = true
    (turn → Runs (.commitAt e) s fun d =>
      d = frontWaits .commit (commitAtHiWrite (BitVec.ofNat 32 (e / 2 ^ 32)) (liveSet s.dev offEpcCommitAtLo (BitVec.ofNat 32 e)))) ∧
    (¬turn → Runs (.commitAt e) s fun d => d = s.dev)) ∧
  (∀ (s : State),
    let turn := fun op => frontIs s.dev op (fun _ => true)
    (turn 4 = true → Runs .commitNext s fun d => d = frontWaits .commit (commitNextWrite s.dev)) ∧
    (turn 4 = false → Runs .commitNext s fun d => d = s.dev) ∧
    (turn 5 = true → Runs .commitCancel s fun d => d = frontWaits .commit (commitCancelWrite s.dev)) ∧
    (turn 5 = false → Runs .commitCancel s fun d => d = s.dev) ∧
    (turn 0x20 = true → Runs .reload s fun d => d = endFront
      (if liveF (reloadGo s.dev) offNvmReloadStatus 3 0 = 1 then 0 else if liveF (reloadGo s.dev) offNvmReloadStatus 3 0 = 9 then 4 else 10)
      (beBytes 4 (liveGet (reloadGo s.dev) offNvmReloadStatus).toNat) (reloadGo s.dev)) ∧
    (turn 0x20 = false → Runs .reload s fun d => d = s.dev) ∧
    (turn 0x21 = true → Runs .abandon s fun d =>
      d = endFront 0 (beBytes 4 (liveGet (reloadAbandon s.dev) offNvmReloadStatus).toNat) (reloadAbandon s.dev)) ∧
    (turn 0x21 = false → Runs .abandon s fun d => d = s.dev) ∧
    (turn 0x22 = true → Runs .confirm s fun d => d = endFront 0 [] (confirmGo s.dev)) ∧
    (turn 0x22 = false → Runs .confirm s fun d => d = s.dev) ∧
    (turn 0x30 = true → Runs .close s fun d => d = endFront 0 [] s.dev) ∧
    (turn 0x30 = false → Runs .close s fun d => d = s.dev)) ∧
  (∀ (s : State) (r : MgmtReq) (rest : List MgmtReq), s.dev.mgmt.queue = r :: rest →
    (∀ t q v, r.wait = .result t q v → Runs .commitCommandResult s fun d => d = endFront 0 (beBytes 8 t ++ beBytes 2 q ++ beBytes 2 v) s.dev) ∧
    (∀ a n, r.wait = .erase a n →
      (Runs (.flashOpDone true) s fun d => d = endFront 0 [] (flashErase s.dev a n)) ∧
      Runs (.flashOpDone false) s fun d => d = endFront 7 [] (flashSpoil s.dev a n)) ∧
    (∀ a bs, r.wait = .program a bs →
      (Runs (.flashOpDone true) s fun d =>
        d = endFront (if flashRun (flashProgram s.dev a bs) a bs.length = bs then 0 else 6) [] (flashProgram s.dev a bs)) ∧
      Runs (.flashOpDone false) s fun d => d = endFront 7 [] (flashSpoil s.dev a bs.length)) ∧
    (r.wait = .none → (Runs .commitCommandResult s fun d => d = s.dev) ∧ ∀ ok, Runs (.flashOpDone ok) s fun d => d = s.dev)) ∧
  (∀ (s : State) (off n : Nat) (bs : List Byte),
    let erases := frontIs s.dev 0x10 (fun a => decide (field a 0 4 = off ∧ field a 4 2 = n)) = true
    let uploads := frontIs s.dev 0x11 (fun a => decide (field a 0 4 = off ∧ a.drop 8 = bs)) = true
    let crcs := frontIs s.dev 0x12 (fun a => decide (field a 0 4 = off ∧ field a 4 4 = n)) = true
    let fErases := frontIs s.dev 0x40 (fun a => decide (field a 0 4 = off ∧ field a 4 2 = n)) = true
    let fWrites := frontIs s.dev 0x41 (fun a => decide (field a 0 4 = off ∧ a.drop 8 = bs)) = true
    let fCrcs := frontIs s.dev 0x42 (fun a => decide (field a 0 4 = off ∧ field a 4 4 = n)) = true
    (erases → s.dev.boot.reload.isSome = true → Runs (.erase off n) s fun d => d = endFront 4 [] s.dev) ∧
    (erases → s.dev.boot.reload = none → Runs (.erase off n) s fun d =>
      d = frontWaits (.erase (bankBase (touchBank s.dev) (1 - runningBank (touchBank s.dev)) + off) (4096 * n)) (touchBank s.dev)) ∧
    (¬erases → Runs (.erase off n) s fun d => d = s.dev) ∧
    (uploads → s.dev.boot.reload.isSome = true → Runs (.upload off bs) s fun d => d = endFront 4 [] s.dev) ∧
    (uploads → s.dev.boot.reload = none → Runs (.upload off bs) s fun d =>
      d = frontWaits (.program (bankBase (touchBank s.dev) (1 - runningBank (touchBank s.dev)) + off) bs) (touchBank s.dev)) ∧
    (¬uploads → Runs (.upload off bs) s fun d => d = s.dev) ∧
    (crcs → Runs (.bankCrc off n) s fun d => d = endFront 0
      (beBytes 4 (crc32c (flashRun s.dev (bankBase s.dev (1 - runningBank s.dev) + off) n)).toNat ++ [0, 0, 0, 0]) s.dev) ∧
    (¬crcs → Runs (.bankCrc off n) s fun d => d = s.dev) ∧
    (fErases → Runs (.flashErase off n) s fun d => d = frontWaits (.erase off (4096 * n)) s.dev) ∧
    (¬fErases → Runs (.flashErase off n) s fun d => d = s.dev) ∧
    (fWrites → Runs (.flashWrite off bs) s fun d => d = frontWaits (.program off bs) s.dev) ∧
    (¬fWrites → Runs (.flashWrite off bs) s fun d => d = s.dev) ∧
    (fCrcs → Runs (.flashCrc off n) s fun d => d = endFront 0 (beBytes 4 (crc32c (flashRun s.dev off n)).toNat ++ [0, 0, 0, 0]) s.dev) ∧
    (¬fCrcs → Runs (.flashCrc off n) s fun d => d = s.dev))

/-- R388, R405, R413 to R415 and R432: SESSION_IDLE_TIMEOUT and the frames of the service SPI. A timeout before its time: assumption log entry
1; unaligned offsets: 166; an empty mailbox: 165. -/
def Obligations.SessionsAndTheServicePort : Prop :=
  (∀ (s : State) (id : Nat),
    let idle := ∃ x ∈ s.dev.mgmt.sessions, x.id = id ∧ actF s.dev offSvcMdpCfg 15 0 * 3000 ≤ x.idle
    (idle → Runs (.sessionIdleTimeout id) s fun d =>
      d = { s.dev with mgmt := { s.dev.mgmt with sessions := s.dev.mgmt.sessions.filter fun x => decide (x.id ≠ id) } }) ∧
    (¬idle → Runs (.sessionIdleTimeout id) s fun d => d = s.dev)) ∧
  (∀ (s : State) (off n : Nat) (bs : List Byte) (cut : Option Nat) (op : Nat), (s.dev.boot.phase = .reset ∨ s.dev.boot.phase = .lock) →
    (Runs (.regRead off n cut) s fun d => d = s.dev) ∧ (Runs (.regWrite off bs cut) s fun d => d = s.dev) ∧
    (Runs (.mboxPut n bs cut) s fun d => d = s.dev) ∧ (Runs (.mboxGet n) s fun d => d = s.dev) ∧ Runs (.boot op) s fun d => d = s.dev) ∧
  (∀ (s : State) (off n : Nat) (bs : List Byte), s.dev.boot.phase ≠ .reset → s.dev.boot.phase ≠ .lock →
    let reads := off % 4 = 0 ∧ off + 4 * n ≤ 0x10000000 ∧ spiReadable s.dev off n = true
    let writes := off % 4 = 0 ∧ off + bs.length ≤ 0x10000000 ∧ spiOpen s.dev = true
    let puts := spiOpen s.dev = true ∧ mboxBusy s.dev = false ∧ s.dev.mgmt.mbox = none ∧ 1 ≤ n ∧ n ≤ 1404 ∧ n ≤ bs.length
    let zeros := fun (k : Nat) => List.replicate k (0 : Byte)
    let error := fun (k : Nat) => spiFrame true (zeros k) s.dev
    (∀ k, (Runs (.regRead off n (some k)) s fun d => d = error 0) ∧ (Runs (.regWrite off bs (some k)) s fun d => d = error (min k 3)) ∧
      Runs (.mboxPut n bs (some k)) s fun d => d = error (min k 1)) ∧
    (∀ op, op ≠ 0x20 → Runs (.boot op) s fun d => d = error 0) ∧
    (reads → Runs (.regRead off n) s fun d =>
      d = spiFrame false ((List.range n).flatMap fun i => beBytes 4 (regRead s.dev (off + 4 * i)).toNat) s.dev) ∧
    (¬reads → Runs (.regRead off n) s fun d => d = error 0) ∧
    (writes → Runs (.regWrite off bs) s fun d => d = (writeWords .spi off
      ((chunks bs.length 4 (bs.take (bs.length / 4 * 4))).map fun w => BitVec.ofNat 32 (beNat w)) (spiFrame false (zeros (4 + bs.length)) s.dev)).1) ∧
    (¬writes → Runs (.regWrite off bs) s fun d => d = error (4 + bs.length)) ∧
    (puts → s.dev.boot.up = true → Runs (.mboxPut n bs) s fun d =>
      d = enqueueReq 3 0 0 0 31 (bs.take n) (bump (spiFrame false (zeros (2 + bs.length)) s.dev) (offSvcSpiCnt 2))) ∧
    (puts → s.dev.boot.up = false → Runs (.mboxPut n bs) s fun d =>
      d = enqueueReq 3 0 0 0 31 (bs.take n) (spiFrame false (zeros (2 + bs.length)) s.dev)) ∧
    (¬puts → Runs (.mboxPut n bs) s fun d => d = error (2 + bs.length)) ∧
    (∀ r, spiOpen s.dev = true → s.dev.mgmt.mbox = some r → Runs (.mboxGet n) s fun d =>
      d.mgmt.miso = spiStatus s.dev :: (beBytes 2 r.length ++ r).take n ∧
      d.mgmt.mbox = (if n < 2 + r.length then some r else none) ∧ d.mgmt.error = false ∧ d.mgmt.queue = s.dev.mgmt.queue) ∧
    (spiOpen s.dev = true → s.dev.mgmt.mbox = none → Runs (.mboxGet n) s fun d => d = spiFrame false ((zeros 2).take n) s.dev) ∧
    (spiOpen s.dev = false → Runs (.mboxGet n) s fun d => d = error 0) ∧
    (spiOpen s.dev = true → s.dev.boot.phase = .noImage → Runs .boot s fun d =>
      d = setMgmt (reboot none (spiFrame false [] s.dev))
        { (reboot none (spiFrame false [] s.dev)).mgmt with miso := (spiFrame false [] s.dev).mgmt.miso }) ∧
    (¬(spiOpen s.dev = true ∧ s.dev.boot.phase = .noImage) → Runs .boot s fun d => d = error 0)) ∧
  (∀ (err : Bool) (miso : List Byte) (d : Dev),
    (spiFrame err miso d).mgmt = { d.mgmt with error := err, miso := (spiFrame err miso d).mgmt.miso } ∧
    (spiFrame err miso d).mgmt.miso.tail = miso ∧
    OnlyWords [offSvcSpiCnt 0, offSvcSpiCnt 1] { d with mgmt := (spiFrame err miso d).mgmt } (spiFrame err miso d) ∧
    liveGet (spiFrame err miso d) (offSvcSpiCnt 0) = liveGet d (offSvcSpiCnt 0) + (if d.boot.up = true then 1 else 0) ∧
    liveGet (spiFrame err miso d) (offSvcSpiCnt 1) = liveGet d (offSvcSpiCnt 1) + (if d.boot.up = true ∧ err = true then 1 else 0))

/-- R350, R351, R353, R354, R363 and R364: the frames of the twin link. How far ahead K lies is a free value (log 22).
Commands out of their condition: assumption log entry 1; copies and their order: 213, 216 and 217; records: 23 and 137; the cause: 37. -/
def Obligations.TwinFramesAndJoins : Prop :=
  ∀ (s : State),
    let runs := running s.dev blkTwn = true
    let joining := pairState s.dev = 1
    let second := fun (h : TwinHead) => h.seq ∈ s.dev.twn.rxSeqs
    let taken := fun (lane : Nat) (h : TwinHead) =>
      let d := laneHeard lane s.dev
      setTwn d { d.twn with rxSeqs := h.seq :: s.dev.twn.rxSeqs.take 15 }
    let frame := fun (type : Byte) (payload : List Byte) =>
      let front := [0x51, 0x57, type, 0] ++ beBytes 2 payload.length ++ beBytes 2 (s.dev.twn.seq % 65536) ++ payload
      front ++ beBytes 4 (crc32c front).toNat
    (∀ (c : Instr) (lane : Nat) (h : TwinHead) (type : Nat) (payload : List Byte), lane < 2 →
      ((∃ f, c = .twinEpochFrameRx lane h f ∧ type = 1 ∧ payload = epochPayload (blockN s.dev) f) ∨
        (c = .joinRequest lane h ∧ type = 2 ∧ payload = [0, 1]) ∨ (∃ k, c = .joinStart k lane h ∧ type = 2 ∧ payload = [0, 2] ++ beBytes 6 k) ∨
        (c = .joinStop lane h ∧ type = 2 ∧ payload = [0, 3]) ∨ (∃ f, c = .stateFrameRx f lane h ∧ type = 3 ∧ payload = statePayload f)) →
      (¬runs → Runs c s fun d => d = s.dev) ∧
      (runs → copyCrcOk h type payload = false → Runs c s fun d => d = bump s.dev (offTwnLaneCrc lane)) ∧
      (runs → copyCrcOk h type payload = true → copyOk h type payload = false → Runs c s fun d => d = s.dev) ∧
      (runs → copyOk h type payload = true → second h → Runs c s fun d =>
        d = laneHeard lane s.dev ∧ liveB d offTwnStatus (12 + lane) = true ∧ lane ∈ d.twn.laneNow)) ∧
    (∀ lane h f, lane < 2 → runs → copyOk h 1 (epochPayload (blockN s.dev) f) = true → ¬second h →
      Runs (.twinEpochFrameRx lane h f) s fun d =>
        liveB d offTwnStatus (12 + lane) = true ∧ lane ∈ d.twn.laneNow ∧ d.twn.rxSeqs = h.seq :: s.dev.twn.rxSeqs.take 15 ∧
        d.twn.rx = f :: s.dev.twn.rx.take 3 ∧ liveGet d offTwnPeerImageLo = f.imageCrc ∧ liveGet d offTwnPeerImageHi = f.imageGen ∧
        OnlyWords [offTwnStatus, offTwnPeerImageLo, offTwnPeerImageHi] { s.dev with twn := d.twn } d) ∧
    (∀ lane, lane < 2 → (runs → Runs (.twinFrameCrcError lane) s fun d => d = bump s.dev (offTwnLaneCrc lane)) ∧
      (¬runs → Runs (.twinFrameCrcError lane) s fun d => d = s.dev)) ∧
    (∀ lane h, lane < 2 → runs → copyOk h 2 [0, 1] = true → ¬second h →
      (joinRefused s.dev = true → Runs (.joinRequest lane h) s fun d => d = taken lane h) ∧
      (joinRefused s.dev = false → Runs (.joinRequest lane h) s fun d => ∃ k, s.dev.epc.epoch < k ∧
        let t := (taken lane h).twn
        d = setTwn (taken lane h) { t with serveK := some k, answers := t.answers + 1, msg := some (2, k), seq := (t.seq + 1) % 65536,
                                           out := t.out ++ [frame 2 ([0, 2] ++ beBytes 6 k)] })) ∧
    (let due := runs ∧ joining ∧ s.dev.twn.joinK = none ∧ ∀ e, s.dev.twn.asked = some e → e + 3000 ≤ s.dev.epc.epoch;
      (due → Runs .joinRequestTx s fun d =>
        d.twn = { s.dev.twn with msg := some (1, 0), seq := (s.dev.twn.seq + 1) % 65536, asked := some s.dev.epc.epoch,
                                 out := s.dev.twn.out ++ [frame 2 [0, 1]] } ∧
        (s.dev.twn.asked.isSome = true → liveB s.dev offTwnStatus 9 = true → liveF d offTwnJoinStatus 2 0 = refusalCause s.dev) ∧
        (¬(s.dev.twn.asked.isSome = true ∧ liveB s.dev offTwnStatus 9 = true) → d.regs = s.dev.regs) ∧
        OnlyWords [offTwnJoinStatus] { s.dev with twn := d.twn } d) ∧
      (¬due → Runs .joinRequestTx s fun d => d = s.dev)) ∧
    (∀ lane h k, lane < 2 → runs → copyOk h 2 ([0, 2] ++ beBytes 6 k) = true → ¬second h →
      (joining → s.dev.twn.joinK = none → Runs (.joinStart k lane h) s fun d =>
        d = setTwn (taken lane h) { (taken lane h).twn with joinK := some k, asked := none }) ∧
      (¬(joining ∧ s.dev.twn.joinK = none) → Runs (.joinStart k lane h) s fun d => d = taken lane h)) ∧
    (∀ lane h, lane < 2 → runs → copyOk h 2 [0, 3] = true → ¬second h → Runs (.joinStop lane h) s fun d =>
      d = setTwn (taken lane h) { (taken lane h).twn with serveK := none }) ∧
    (∀ lane h f, lane < 2 → runs → copyOk h 3 (statePayload f) = true → ¬second h →
      (¬(joining ∧ s.dev.twn.joinK.isSome = true) → Runs (.stateFrameRx f lane h) s fun d => d = taken lane h) ∧
      (joining → s.dev.twn.joinK.isSome = true → f.kind = 5 → Runs (.stateFrameRx f lane h) s fun d =>
        d = { taken lane h with twn := { (taken lane h).twn with arrived := d.twn.arrived },
                                mem := { s.dev.mem with reserved := d.mem.reserved } }) ∧
      (joining → s.dev.twn.joinK.isSome = true → f.kind ≠ 5 → Runs (.stateFrameRx f lane h) s fun d =>
        d = setTwn (taken lane h) { (taken lane h).twn with followed := d.twn.followed } ∧
        (d.twn.followed.head?.map fun r => (r.1, r.2.1)) = some (f.kind, s.dev.epc.epoch) ∧
        (∀ i, i < f.data.length → (d.twn.followed.head?.bind fun r => (r.2.2.find? fun e => decide (e.1 = f.offset + i)).map (·.2)) = f.data[i]?) ∧
        ∀ r ∈ d.twn.followed, s.dev.epc.epoch ≤ r.2.1 + 2)) ∧
    (∀ k, s.dev.twn.joinK = some k →
      let late := runs ∧ joining ∧ k + 3000 * actF s.dev offTwnJoinCfg 7 0 ≤ s.dev.epc.epoch
      (late → Runs .joinTimeout s fun d => d.twn.joinK = none ∧ d.twn.followed = [] ∧
        d.twn.arrived = [] ∧ d.twn.heard = [] ∧ d.twn.mirrored = [] ∧ d.twn.msg = some (3, 0) ∧
        d.twn.out = s.dev.twn.out ++ [frame 2 [0, 3]] ∧
        liveF d offTwnJoinStatus 15 8 = min 255 (liveF s.dev offTwnJoinStatus 15 8 + 1)) ∧
      (¬late → Runs .joinTimeout s fun d => d = s.dev)) ∧
    (s.dev.twn.joinK = none → Runs .joinTimeout s fun d => d = s.dev)

/-- R356 to R361: ownership of the serial outputs. Commands out of their condition: assumption log entry 1; OWNS between a claim and its
confirmation: 138; SIDE_CONFLICT of a junior: 139; the watchdog in epochs: 140. -/
def Obligations.OutputsHaveOneOwner : Prop :=
  ∀ (s : State),
    let claims := liveB s.dev offTwnStatus 2 = true
    let peer := liveB s.dev offTwnStatus 3 = true
    let senior := liveB s.dev offTwnStatus 0 = true
    (let may := eligible s.dev = true ∧ ¬peer ∧ ¬claims ∧ s.dev.twn.released = false;
      (may → Runs .outputClaim s fun d => d = liveSetB (liveSetB s.dev offTwnStatus 2 true) offTwnStatus 4 true ∧
        liveB d offTwnStatus 2 = true ∧ liveB d offTwnStatus 4 = true ∧ drivesOut d = s.dev.twn.confirmed) ∧
      (¬may → Runs .outputClaim s fun d => d = s.dev)) ∧
    (claims → ¬peer → Runs .claimConfirm s fun d => liveB d offTwnStatus 4 = true ∧ d.twn.armed = true ∧ d.twn.conflicts = 0 ∧
      drivesOut d = true ∧
      (s.dev.twn.armed = false → d.twn.reduced = some s.dev.epc.epoch) ∧ OnlyWords [offTwnStatus] { s.dev with twn := d.twn } d) ∧
    (¬(claims ∧ ¬peer) → Runs .claimConfirm s fun d => d = s.dev) ∧
    (∀ level, liveB s.dev offTwnStatus 3 = level → Runs (.peerActiveChange level) s fun d => d = s.dev) ∧
    (∀ level, liveB s.dev offTwnStatus 3 ≠ level → ¬claims →
      Runs (.peerActiveChange level) s fun d => d = liveSetB s.dev offTwnStatus 3 level) ∧
    (¬peer → claims → Runs (.peerActiveChange true) s fun d =>
      liveB d offTwnStatus 3 = true ∧ d.twn.conflicts = s.dev.twn.conflicts + 1 ∧
      (∀ p, p < 32 → liveB d (offSapPortStatus p) 30 = false) ∧ liveB d offTwnStatus 4 = false ∧ drivesOut d = false ∧
      (senior → liveB d offTwnStatus 2 = true) ∧
      (¬senior → liveB d offTwnStatus 2 = false ∧ d.twn.released = true ∧
        (1 ≤ s.dev.twn.conflicts → liveB d offTwnStatus 14 = true))) ∧
    (peer → claims → Runs (.peerActiveChange false) s fun d =>
      d = claimConfirm (liveSetB s.dev offTwnStatus 3 false) ∧ liveB d offTwnStatus 4 = true ∧ liveB d offTwnStatus 3 = false) ∧
    (senior → claims → peer → Runs .seniorConflictRelease s fun d => liveB d offTwnStatus 2 = false ∧ liveB d offTwnStatus 4 = false ∧
      liveB d offTwnStatus 14 = true ∧ d.twn.released = true ∧ d.twn.conflicts = s.dev.twn.conflicts) ∧
    (¬(senior ∧ claims ∧ peer) → Runs .seniorConflictRelease s fun d => d = s.dev) ∧
    (s.dev.twn.released = true → ¬peer → Runs .claimBackoff s fun d => d = { s.dev with twn := { s.dev.twn with released := false } }) ∧
    (¬(s.dev.twn.released = true ∧ ¬peer) → Runs .claimBackoff s fun d => d = s.dev) ∧
    (let late := s.dev.twn.armed = true ∧ liveB s.dev offTwnStatus 5 = false ∧ s.dev.twn.reduced.getD 0 + 24 ≤ s.dev.epc.epoch;
      (late → Runs .watchdogRelease s fun d => liveB d offTwnStatus 5 = true ∧ liveB d offTwnStatus 1 = false ∧
        liveB d offTwnStatus 2 = false ∧ liveB d offTwnStatus 4 = false ∧ d.twn = { s.dev.twn with confirmed := false }) ∧
      (¬late → Runs .watchdogRelease s fun d => d = s.dev)) ∧
    (∀ e, s.dev.twn.reduced = some e → liveB s.dev offTwnStatus 5 = true → s.dev.epc.epoch ≤ e + 1 → Runs .rearm s fun d =>
      d = ownCheck (liveSetB s.dev offTwnStatus 5 false) ∧ liveB d offTwnStatus 5 = false ∧
      liveB d offTwnStatus 1 = eligible (liveSetB s.dev offTwnStatus 5 false)) ∧
    (∀ e, s.dev.twn.reduced = some e → e + 1 < s.dev.epc.epoch → Runs .rearm s fun d => d = s.dev) ∧
    ((s.dev.twn.reduced = none ∨ liveB s.dev offTwnStatus 5 = false) → Runs .rearm s fun d => d = s.dev)

/-- R14, R365 to R367 and R369 to R371: HARD_FAULT, MOON_TAKEOVER, MOON_REQ_HI and PATROL_ADVANCE. Commands out of their condition:
assumption log entry 1; the order of the results of a request: 130; faults while a moon is in use: 131 and 132. -/
def Obligations.MoonClustersTakeOver : Prop :=
  (∀ (s : State) (pool k unit cause : Nat), pool < 2 → k < (if pool = 0 then 5 else 9) → unit < 4 →
    let src := srcOf (if pool = 0 then blkXp else blkVec) (4 * k + unit)
    let logged := raiseErr s.dev src 0x0006 (BitVec.ofNat 32 k) (BitVec.ofNat 32 cause)
    let stopped := if pool = 1 then vecIsolate k logged else logged
    (isRetired s.dev pool k = true → Runs (.hardFault pool k cause unit) s fun d => d = s.dev) ∧
    (isRetired s.dev pool k = false → Runs (.hardFault pool k cause unit) s fun d =>
      isRetired d pool k = true ∧ (∃ r ∈ d.err.reports, r.source = src ∧ r.code = 0x0006) ∧
      (pool = 1 → ∀ c, c < 4 → coreState d (4 * k + c) = 5 ∧ (coreOf d (4 * k + c)).item = none ∧ inHandler d (4 * k + c) = false ∧
        (coreOf d (4 * k + c)).affinity = none)) ∧
    (isRetired s.dev pool k = false → clusterPos s.dev pool k = none → ¬(k = moonOf s.dev pool ∧ moonAvail s.dev pool = true) →
      Runs (.hardFault pool k cause unit) s fun d => d = retire stopped pool k) ∧
    (isRetired s.dev pool k = false → clusterPos s.dev pool k = none → k = moonOf s.dev pool → moonAvail s.dev pool = true →
      Runs (.hardFault pool k cause unit) s fun d => d = retireMoon pool stopped ∧ moonAvail d pool = false) ∧
    (∀ pos, isRetired s.dev pool k = false → clusterPos s.dev pool k = some pos →
      (moonFree s.dev pool = true → Runs (.hardFault pool k cause unit) s fun d =>
        ⟨pool, k, takeoverEpoch s.dev pool k, false⟩ ∈ d.moon.jobs ∧ takeoverEpoch s.dev pool k ≤ s.dev.epc.epoch + 3 ∧
        (∀ j ∈ d.moon.jobs, j.pool = pool → j.planned = false) ∧ moonAvail d pool = true ∧
        (pool = 0 → d.xp.dead = some (pos, none) ∧ (∀ b ∈ d.xp.banks, b.1 / 4096 ≠ pos) ∧ ∀ w ∈ d.xp.work, w.1 / 4 ≠ pos) ∧
        (pool = 1 → d.wd.recovery = true ∧ d.vec.places = s.dev.vec.places ∧ ∀ c, c < 4 → 4 * pos + c ∈ d.vec.away)) ∧
      (moonFree s.dev pool = false → Runs (.hardFault pool k cause unit) s fun d => d.moon.jobs = s.dev.moon.jobs ∧
        (pool = 0 → d = raiseErr (retire logged 0 k) (srcOf blkXp 0) 0x0007 (BitVec.ofNat 32 k) 0 ∧ fatal d = true) ∧
        (pool = 1 → d.vec.places = s.dev.vec.places.set pos none ∧ fatal d = fatal s.dev)))) ∧
  (∀ (s : State) (pool : Nat) (agreed : Bool), pool < 2 → (fatal s.dev = true ∨ ∀ j ∈ s.dev.moon.jobs, j.pool = pool → s.dev.epc.epoch < j.epoch) →
    Runs (.moonTakeover pool agreed) s fun d => d = s.dev) ∧
  (∀ (s : State) (pool : Nat) (agreed : Bool) (j : Subst), pool < 2 → fatal s.dev = false →
    s.dev.moon.jobs.find? (fun j => decide (j.pool = pool ∧ j.epoch ≤ s.dev.epc.epoch)) = some j →
    let rest := { s.dev with moon := { s.dev.moon with jobs := s.dev.moon.jobs.filter fun k => decide (k ≠ j) } }
    (j.planned = true → Runs (.moonTakeover pool agreed) s fun d => d = takePlanned j agreed rest) ∧
    (j.planned = true → clusterPos s.dev pool j.cluster = none → Runs (.moonTakeover pool agreed) s fun d => d = moonResult rest 8) ∧
    (∀ pos, j.planned = true → pool = 0 → clusterPos s.dev 0 j.cluster = some pos →
      (agreed = false → Runs (.moonTakeover pool agreed) s fun d => d = moonResult rest 6) ∧
      (agreed = true → j.cluster < 5 → Runs (.moonTakeover pool agreed) s fun d =>
        d.moon.xpPlaces = s.dev.moon.xpPlaces.set pos (moonOf s.dev 0) ∧ moonOf d 0 = j.cluster ∧ liveF d offTwnMoonStatus 31 28 = 2)) ∧
    (∀ pos, j.planned = true → pool = 1 → clusterPos s.dev 1 j.cluster = some pos → j.cluster < 9 →
      ((∃ c, c < 4 ∧ inHandler s.dev (4 * j.cluster + c) = true) → Runs (.moonTakeover pool agreed) s fun d =>
        d.vec.places = s.dev.vec.places ∧ d.vec.closing = [] ∧ moonOf d 1 = moonOf s.dev 1 ∧ liveF d offTwnMoonStatus 31 28 = 7) ∧
      ((∀ c, c < 4 → inHandler s.dev (4 * j.cluster + c) = false) → Runs (.moonTakeover pool agreed) s fun d =>
        d.vec.places = s.dev.vec.places.set pos (some (moonOf s.dev 1)) ∧ d.vec.closing = [] ∧ moonOf d 1 = j.cluster ∧
        liveF d offTwnMoonStatus 31 28 = 2)) ∧
    (j.planned = false → Runs (.moonTakeover pool agreed) s fun d => d = takeFault j rest ∧ moonAvail d pool = false) ∧
    (∀ pos, j.planned = false → pool = 0 → clusterPos s.dev 0 j.cluster = some pos → Runs (.moonTakeover pool agreed) s fun d =>
      d.moon.xpPlaces = s.dev.moon.xpPlaces.set pos (moonOf s.dev 0) ∧ d.xp = { s.dev.xp with dead := some (pos, some s.dev.epc.epoch) }) ∧
    (∀ pos, j.planned = false → pool = 1 → clusterPos s.dev 1 j.cluster = some pos → Runs (.moonTakeover pool agreed) s fun d =>
      d.vec.places = s.dev.vec.places.set pos (some (moonOf s.dev 1)) ∧ d.moon.recover = some s.dev.epc.epoch)) ∧
  (∀ (s : State) (v : Word),
    let pool := bits v 31 31
    let k := bits v 27 24
    let t := bits v 15 0 * 2 ^ 32 + (liveGet s.dev offTwnMoonReqLo).toNat
    let r := judgeMoon s.dev pool k t
    Runs (.moonReqHi v) s fun d => liveF d offTwnMoonStatus 31 28 = r ∧
      d.moon = { s.dev.moon with jobs := s.dev.moon.jobs ++ (if r = 1 then [⟨pool, k, t, true⟩] else []) } ∧
      (r = 1 → s.dev.epc.epoch + 4 ≤ t ∧ t ≤ s.dev.epc.epoch + 3000 ∧ moonFree s.dev pool = true ∧ isRetired s.dev pool k = false ∧
        ∀ j ∈ s.dev.moon.jobs, j.planned = false) ∧
      OnlyWords [offTwnMoonStatus] { s.dev with moon := d.moon } d) ∧
  (∀ (s : State) (pool : Nat) (mismatch : Bool), pool < 2 →
    (patrolRuns s.dev pool = false ∨ (∀ p ∈ s.dev.moon.patrols, p.1 ≠ pool)) → Runs (.patrolAdvance pool mismatch) s fun d => d = s.dev) ∧
  (∀ (s : State) (pool : Nat) (p : Patrol), pool < 2 → s.dev.moon.patrols.find? (fun q => decide (q.1 = pool)) = some (pool, p) →
    patrolRuns s.dev pool = true →
    let seen := raiseErr (bumpSat s.dev offTwnPatrolStatus 31 16) (srcOf blkTwn 0) 0x0607 (BitVec.ofNat 32 pool)
      (BitVec.ofNat 32 ((placeOf s.dev pool p.pos).getD 0))
    (p.since + actF s.dev offTwnPatrol 31 16 ≤ s.dev.epc.epoch → Runs (.patrolAdvance pool false) s fun d =>
      d = setPatrol s.dev pool { p with pos := nextPos s.dev pool p.pos, since := s.dev.epc.epoch }) ∧
    (p.since ≤ s.dev.epc.epoch → s.dev.epc.epoch < p.since + actF s.dev offTwnPatrol 31 16 →
      Runs (.patrolAdvance pool false) s fun d => d = s.dev) ∧
    (p.suspect = none → Runs (.patrolAdvance pool true) s fun d =>
      d = setPatrol seen pool ⟨nextPos s.dev pool p.pos, s.dev.epc.epoch, some p.pos⟩ ∧
      d.moon.patrols.find? (fun q => decide (q.1 = pool)) = some (pool, ⟨nextPos s.dev pool p.pos, s.dev.epc.epoch, some p.pos⟩) ∧
      liveF d offTwnPatrolStatus 31 16 = min 65535 (liveF s.dev offTwnPatrolStatus 31 16 + 1)) ∧
    (p.suspect.isSome = true → Runs (.patrolAdvance pool true) s fun d =>
      d = retireMoon pool seen ∧ moonAvail d pool = false ∧ ∀ q ∈ d.moon.patrols, q.1 ≠ pool))

/-- R17, R422 to R429 and R436: ERROR_RAISE, ERROR_COLLECT, MIRROR_WRITE, LINK_FLIT_REPLAY and JTAG_INSTRUCTION. Unlisted codes and commands
with nothing to do: assumption log entry 1; a failed mirror write: 152; the second between debug entries: 153. -/
def Obligations.ErrorsAreRaisedAndCollected : Prop :=
  (∀ (s : State) (src code : Nat) (a0 a1 : Word), ¬(errorCodes.contains code = true ∧ src < 65536) →
    Runs (.errorRaise src code a0 a1) s fun d => d = s.dev) ∧
  (∀ (s : State) (src code : Nat) (a0 a1 : Word), errorCodes.contains code = true → src < 65536 →
    let cls := classOf code
    let place := src * 65536 + code
    let seen := mapGet (fun _ => ([] : List Nat)) s.dev.err.history place
    let third := cls = 2 ∧ seen.length = 2 ∧ s.dev.epc.epoch - seen.getD 1 0 < 3000
    let key := fun (r : ErrReport) => r.source = src ∧ r.code = code ∧ r.escalated = false
    let logged := cls = 1 ∨ (cls = 0 ∧ actB s.dev offErrCtrl 0 = true) ∨ (cls = 2 ∧ ¬third)
    (cls ≠ 3 → ¬third → Runs (.errorRaise src code a0 a1) s fun d =>
      liveF d (offErrClassCount cls) 31 0 = min (2 ^ 32 - 1) (liveF s.dev (offErrClassCount cls) 31 0 + 1) ∧
      OnlyWords [offErrClassCount cls] { s.dev with err := d.err } d ∧
      d.err = { s.dev.err with reports := d.err.reports, history := d.err.history } ∧
      (cls ≠ 2 → d.err.history = s.dev.err.history) ∧
      (cls = 2 → mapGet (fun _ => []) d.err.history place = s.dev.epc.epoch :: seen.take 1)) ∧
    (cls = 0 → actB s.dev offErrCtrl 0 = false → Runs (.errorRaise src code a0 a1) s fun d => d.err = s.dev.err) ∧
    (logged → (∀ r ∈ s.dev.err.reports, ¬key r) → Runs (.errorRaise src code a0 a1) s fun d =>
      d.err.reports = s.dev.err.reports ++ [⟨src, code, cls, false, s.dev.epc.epoch, 1, a0, a1⟩]) ∧
    (∀ l r t, logged → s.dev.err.reports = l ++ r :: t → key r → (∀ q ∈ l, ¬key q) → Runs (.errorRaise src code a0 a1) s fun d =>
      d.err.reports = l ++ { r with count := min (r.count + 1) 0xFFFFFFFF } :: t) ∧
    (third → Runs (.errorRaise src code a0 a1) s fun d =>
      fatal d = true ∧ d.err.reports = s.dev.err.reports ++ [⟨src, code, 3, true, s.dev.epc.epoch, 1, a0, a1⟩] ∧
      liveF d (offErrClassCount 3) 31 0 = min (2 ^ 32 - 1) (liveF s.dev (offErrClassCount 3) 31 0 + 1) ∧
      liveGet d (offErrClassCount 2) = liveGet s.dev (offErrClassCount 2) ∧
      mapGet (fun _ => []) d.err.history place = s.dev.epc.epoch :: seen.take 1 ∧
      (fatal s.dev = false → liveGet d offErrFatal = BitVec.ofNat 32 (code * 65536 + src)) ∧
      liveB d offTwnStatus 2 = false ∧ liveB d offTwnStatus 4 = false)) ∧
  (∀ (s : State) (src code : Nat) (a0 a1 : Word), errorCodes.contains code = true → src < 65536 → classOf code = 3 →
    Runs (.errorRaise src code a0 a1) s fun d => fatal d = true ∧
      (fatal s.dev = false → liveGet d offErrFatal = BitVec.ofNat 32 (code * 65536 + src)) ∧
      (fatal s.dev = true → liveGet d offErrFatal = liveGet s.dev offErrFatal) ∧
      liveB d offTwnStatus 2 = false ∧ liveB d offTwnStatus 4 = false ∧ (∀ p, p < 32 → liveB d (offSapPortStatus p) 30 = false) ∧
      (∃ r ∈ d.err.reports, r.source = src ∧ r.code = code)) ∧
  (∀ (s : State), s.dev.err.reports = [] → Runs .errorCollect s fun d => d = s.dev) ∧
  (∀ (s : State) (r : ErrReport), nextReport s.dev.err.reports = some r → Runs .errorCollect s fun d =>
    r ∈ s.dev.err.reports ∧ (∀ q ∈ s.dev.err.reports, reportBefore q r = false) ∧
    d.err.reports = s.dev.err.reports.erase r ∧ liveGet d offErrNextSeq = liveGet s.dev offErrNextSeq + 1 ∧
    (∀ w, w < 8 → some (liveGet d (offErrLog (liveF s.dev offErrHead 7 0) w)) = (entryOf (liveGet s.dev offErrNextSeq) r)[w]?) ∧
    liveF d offErrHead 7 0 = (liveF s.dev offErrHead 7 0 + 1) % 256 ∧
    (s.dev.err.mirror.length ≤ 64 → d.err.mirror.length ≤ 64) ∧
    (2 ≤ r.cls → d.err.mirror.getLast? = some (entryOf (liveGet s.dev offErrNextSeq) r)) ∧
    (r.cls < 2 → d.err.mirror = s.dev.err.mirror)) ∧
  (∀ (s : State) (ok : Bool), s.dev.err.mirror = [] → Runs (.mirrorWrite ok) s fun d => d = s.dev) ∧
  (∀ (s : State) (e : List Word) (t : List (List Word)), s.dev.err.mirror = e :: t →
    (s.dev.boot.density ≠ 0 → Runs (.mirrorWrite true) s fun d => d.err.mirror = t ∧
      d.err.place = mirrorNext (s.dev.err.place.1, s.dev.err.place.2.1, if s.dev.err.place.2.2 = 0 then 1 else s.dev.err.place.2.2) ∧
      liveF d offErrMirrorWait 6 0 = t.length % 128 ∧ d.err.reports = s.dev.err.reports) ∧
    (Runs (.mirrorWrite false) s fun d =>
      d = raiseErr (liveSetB { s.dev with err := { s.dev.err with place := ((s.dev.err.place.1 + 1) % 256, s.dev.err.place.2.1 + 1, 0) } }
            offErrStatus 0 true) (srcOf blkNvm 0) 0x0701 (BitVec.ofNat 32 s.dev.err.place.1) 0 ∧
      d.err.mirror = e :: t ∧ d.boot = s.dev.boot)) ∧
  (∀ (s : State) (link : Nat) (ok : Bool), link < 2 →
    let l := mapGet (fun _ => ((0, 0) : Nat × Nat)) s.dev.err.links link
    Runs (.linkFlitReplay link ok) s fun d =>
      mapGet (fun _ => (0, 0)) d.err.links link = (if ok = true then (l.1 + 1, l.2) else (l.1, l.2 + 1)) ∧
      mapGet (fun _ => (0, 0)) d.err.links (1 - link) = mapGet (fun _ => (0, 0)) s.dev.err.links (1 - link) ∧
      (ok = false → l.2 = 2 → fatal d = true) ∧ ((ok = true ∨ l.2 ≠ 2) → d = { s.dev with err := d.err })) ∧
  (∀ (s : State) (code : Nat) (boundary second : Bool),
    let due := s.dev.boot.phase ≠ .reset ∧ lcsState s.dev ≠ 1 ∧ boundary = false ∧ (second = true ∨ s.dev.err.denied = none)
    (due → Runs (.jtagInstruction code boundary second) s fun d =>
      d = raiseErr { s.dev with err := { s.dev.err with denied := some s.dev.epc.epoch } } (srcOf blkLcs 0) 0x0802 (BitVec.ofNat 32 code) 0) ∧
    (¬due → Runs (.jtagInstruction code boundary second) s fun d => d = s.dev))

/-- R432 to R434: LCS_REQUEST, FUSE_PROGRAM and FUSE_REVOKE. Whether a fuse takes is the command's operand (log 27); the boot
after a fuse that reads back wrong is log entry 30. -/
def Obligations.LifeCycleAndFuses : Prop :=
  (∀ (s : State) (v : Word) (ok : Bool) (slot : Nat), slot < 4 →
    (Runs (.lcsRequest .other v ok) s fun d => d = liveSetF s.dev offLcsResult 3 0 5) ∧
    (Runs (.fuseProgram .other slot ok) s fun d => d = liveSetF s.dev offLcsResult 3 0 5) ∧
    Runs (.fuseRevoke .other slot ok) s fun d => d = liveSetF s.dev offLcsResult 3 0 5) ∧
  (∀ (s : State) (v : Word) (ok : Bool),
    let old := lcsState s.dev
    let t := bits v 1 0
    (∀ r, lcsJudge s.dev t = some r → Runs (.lcsRequest .spi v ok) s fun d => d = liveSetF s.dev offLcsResult 3 0 r ∧ lcsState d = old) ∧
    (t ≠ old + 1 → lcsJudge s.dev t = some 2) ∧ (old = 3 → lcsJudge s.dev t = some 2) ∧
    (old = 0 → t = 1 → lcsJudge s.dev t = if (List.range 4).any (slotGood s.dev) = true then none else some 3) ∧
    (old = 1 → t = 2 → lcsJudge s.dev t = none) ∧
    (lcsJudge s.dev t = none → Runs (.lcsRequest .spi v true) s fun d =>
      d = reboot (some (old, t))
        (liveSetF (liveSetB (liveSetF s.dev offLcsState 1 0 t) offLcsState 4 (decide (t = 1))) offLcsResult 3 0 1)) ∧
    (lcsJudge s.dev t = none → Runs (.lcsRequest .spi v false) s fun d => d = reboot none (liveSetF s.dev offLcsResult 3 0 6))) ∧
  (∀ (s : State) (slot : Nat) (ok : Bool), slot < 4 →
    let may := lcsState s.dev < 2 ∧ liveB s.dev offLcsKeys slot = false
    (¬may → Runs (.fuseProgram .spi slot ok) s fun d => d = liveSetF s.dev offLcsResult 3 0 2) ∧
    (may → Runs (.fuseProgram .spi slot false) s fun d => d = liveSetF s.dev offLcsResult 3 0 6) ∧
    (may → Runs (.fuseProgram .spi slot true) s fun d =>
      liveB d offLcsKeys slot = true ∧ (∀ w, w < 8 → liveGet d (offLcsKeyHash slot w) = liveGet s.dev (offLcsFuseHash w)) ∧
      liveF d offLcsResult 3 0 = 1 ∧ (∀ q, q < 4 → q ≠ slot → slotGood d q = slotGood s.dev q ∧ keyHash d q = keyHash s.dev q) ∧
      d = { s.dev with regs := d.regs })) ∧
  (∀ (s : State) (slot : Nat) (ok : Bool), slot < 4 →
    let used := s.dev.boot.up = true ∧ ∃ m, s.dev.boot.manifest = some m ∧ m.slot = slot
    let rest := (List.range 4).any fun q => decide (q ≠ slot) && slotGood s.dev q
    ((lcsState s.dev = 0 ∨ lcsState s.dev = 3) → Runs (.fuseRevoke .spi slot ok) s fun d => d = liveSetF s.dev offLcsResult 3 0 2) ∧
    (lcsState s.dev = 1 ∨ lcsState s.dev = 2 →
      (used → Runs (.fuseRevoke .spi slot ok) s fun d => d = liveSetF s.dev offLcsResult 3 0 7) ∧
      (¬used → rest = false → Runs (.fuseRevoke .spi slot ok) s fun d => d = liveSetF s.dev offLcsResult 3 0 3) ∧
      (¬used → rest = true → Runs (.fuseRevoke .spi slot false) s fun d => d = liveSetF s.dev offLcsResult 3 0 6) ∧
      (¬used → rest = true → Runs (.fuseRevoke .spi slot true) s fun d =>
        slotGood d slot = false ∧ liveF d offLcsResult 3 0 = 1 ∧ (∀ q, q < 4 → q ≠ slot → slotGood d q = slotGood s.dev q) ∧
        OnlyWords [offLcsKeys, offLcsResult] s.dev d)))

/-- R377, R381 to R384, R386, R387 and R444 to R446: PORST_RELEASE, DRAM_WIPE_DONE, BOOT_COMPLETE, AUTO_CONFIRM and CONFIRM_GO, and what
MEM_INIT goes on with. Commands out of their condition: assumption log entry 1; the order of the loading: 29; the firmware's place: 146;
AUTO_CONFIRM: 144; what a reset leaves: 28. -/
def Obligations.BootAndConfirmation : Prop :=
  (∀ (s : State) (side : Bool),
    let out := liveSetB (liveSetB { s.dev with boot := { s.dev.boot with porst := false } } offPmcStraps 0 side) offTwnStatus 0 side
    (s.dev.boot.porst = false → Runs (.porstRelease side) s fun d => d = s.dev) ∧
    (s.dev.boot.porst = true → (heldReset out = true ∨ s.dev.boot.phase ≠ .reset) → Runs (.porstRelease side) s fun d => d = out) ∧
    (s.dev.boot.porst = true → heldReset out = false → s.dev.boot.phase = .reset →
      (refOk s.dev false = false → refOk s.dev true = false → Runs (.porstRelease side) s fun d => d = porstReset out) ∧
      ((refOk s.dev false = true ∨ refOk s.dev true = true) → Runs (.porstRelease side) s fun d =>
        let locking := startLock 1 (startLock 0 (setSteer (liveSetB (porstReset out) offClkStatus 3 (!(refOk s.dev false))) 0))
        d = { locking with boot := { locking.boot with phase := .lock } } ∧ 0 ∈ d.clk.locking ∧ 1 ∈ d.clk.locking ∧
        liveB d offClkStatus 3 = !(refOk s.dev false)))) ∧
  (∀ (d : Dev),
    let next := liveSetB d offSysRate 0 (d.boot.manifest.any (·.rate96))
    let bad := rejectBank (runningBank d) next
    (¬(d.boot.phase = .train ∧ memReady d 0 = true ∧ memReady d 1 = true) → bootTrained d = d) ∧
    (d.boot.phase = .train → memReady d 0 = true → memReady d 1 = true →
      (bootPayloads false d = none → bootTrained d = bootBank 2 bad) ∧
      (∀ l, bootPayloads false d = some l →
        let fails := fun (x : Nat × List Byte) => !(sectionOk next false (l.filter fun x => decide (0x10 ≤ x.1 ∧ x.1 ≤ 0x12)) x.1 x.2)
        (∀ x, l.find? fails = some x → bootTrained d = bootBank 2 (refuseSection x.1 x.2 bad)) ∧
        (l.find? fails = none → (bootTrained d).boot = { d.boot with phase := .wipe } ∧
          bootTrained d = { (sortBy (fun (a b : Nat × List Byte) => decide (a.1 ≤ b.1)) 32 l).foldl (fun d x => sectionInstall x.1 x.2 d) next
            with boot := { d.boot with phase := .wipe } })))) ∧
  (∀ (s : State),
    let due := s.dev.boot.phase = .wipe
    let wiped := { s.dev with mem := { s.dev.mem with mem0 := [], rcRegion := [], mem1 := [], reserved := [] }, xp := { s.dev.xp with lines := [] } }
    let bad := rejectBank (runningBank s.dev) wiped
    (¬due → Runs .dramWipeDone s fun d => d = s.dev) ∧
    (due → bootPayloads true s.dev = none → Runs .dramWipeDone s fun d => d = bootBank 2 bad) ∧
    (∀ l, due → bootPayloads true s.dev = some l →
      let fails := fun (x : Nat × List Byte) => (parseFilters x.2).isNone
      (∀ x ∈ l, x.1 = 0x15) ∧
      (∀ x, l.find? fails = some x → Runs .dramWipeDone s fun d => d = bootBank 2 (refuseSection 0x15 x.2 bad)) ∧
      (l.find? fails = none → Runs .dramWipeDone s fun d =>
        d.boot = { s.dev.boot with phase := .loaded } ∧ d.mem = wiped.mem ∧ d.xp = wiped.xp ∧
        d = { l.foldl (fun d x => rcInstall ((parseFilters x.2).getD []) d) wiped with boot := d.boot }))) ∧
  (∀ (d : Dev) (p : List Byte),
    (p.length ≤ 2 * 2 ^ 20 → firmwareBase p.length + p.length ≤ 0x3FE000 ∧
      ∀ a, byteGet (sectionInstall 1 p d).mem.sram a =
        if firmwareBase p.length ≤ a ∧ a < firmwareBase p.length + p.length then p.getD (a - firmwareBase p.length) 0 else byteGet d.mem.sram a) ∧
    (∀ l, parseKeys p = some l → (sectionInstall 3 p d).mgmt.keys = l) ∧
    (∀ k, 0x10 ≤ k → k ≤ 0x12 → tableOf (sectionInstall k p d).mem.active k = p) ∧
    (sectionInstall 0x14 p d).cnd.bank0 = cndWords p ∧
    (∀ t, parseItems p = some t → (sectionInstall 0x17 p d).wd.groups = t.1 ∧ (sectionInstall 0x17 p d).wd.kernels = t.2) ∧
    (∀ l k, parseVec p = some l → k < 36 → coreOf (sectionInstall 0x16 p d) k = l.foldl loadCore (coreOf d k))) ∧
  (∀ (s : State) (m : Manifest), s.dev.boot.phase = .loaded → s.dev.boot.manifest = some m → Runs .bootComplete s fun d =>
    d.boot.up = true ∧ d.boot.phase = .starting ∧ liveB d offXbarCtrl 0 = true ∧ d.regs.act = s.dev.regs.act ∧
    (s.dev.epc.commit = none → d.epc.commit = some (s.dev.epc.epoch + (if s.dev.epc.cutoff = true then 2 else 1))) ∧
    (m.start = true → d.regs.shadow = s.dev.regs.shadow) ∧
    (m.start = false → ∀ b ∈ startKeeps, bit (shGet d (b * 0x100000)) 0 = false)) ∧
  (∀ (s : State), (s.dev.boot.phase ≠ .loaded ∨ s.dev.boot.manifest = none) → Runs .bootComplete s fun d => d = s.dev) ∧
  (∀ (s : State) (m : Manifest), s.dev.boot.manifest = some m →
    let confirmed := writeRecord' s.dev { bootRecord s.dev with confirmed := m.gen, tries := 0 }
    let due := m.auto = true ∧ s.dev.boot.up = true ∧ 180000 ≤ s.dev.boot.ptpRun ∧ fatal s.dev = false
    (due → Runs .autoConfirm s fun d => d = confirmed) ∧ (¬due → Runs .autoConfirm s fun d => d = s.dev) ∧
    (s.dev.boot.up = true → Runs .confirmGo s fun d => d = confirmed) ∧ (s.dev.boot.up = false → Runs .confirmGo s fun d => d = s.dev)) ∧
  (∀ (s : State), s.dev.boot.manifest = none → (Runs .autoConfirm s fun d => d = s.dev) ∧ Runs .confirmGo s fun d => d = s.dev)

/-- R76, R119, R165, R167, R168, R255, R389, R390 and R392: the commands of a live reload, with log entries 1, 125, 135, 146 and 148. -/
def Obligations.ReloadsLoadAndAreRefused : Prop :=
  (∀ (s : State), (s.dev.boot.up = false ∨ s.dev.boot.manifest = none) → Runs .reloadGo s fun d => d = s.dev) ∧
  (∀ (s : State) (run : Manifest), s.dev.boot.up = true → s.dev.boot.manifest = some run →
    let seen := reportGens s.dev
    (s.dev.boot.reload.isSome = true → Runs .reloadGo s fun d => d = reloadTurned 9 s.dev ∧ d.boot = s.dev.boot ∧
      liveF d offNvmReloadStatus 3 0 = 9) ∧
    (s.dev.boot.reload = none → readManifest s.dev (1 - runningBank s.dev) = none → Runs .reloadGo s fun d =>
      d = reloadTurned 4 seen ∧ d.boot = s.dev.boot ∧ liveF d offNvmReloadStatus 3 0 = 4) ∧
    (∀ new, s.dev.boot.reload = none → readManifest s.dev (1 - runningBank s.dev) = some new →
      (new.gen ≤ run.gen → Runs .reloadGo s fun d => d = reloadTurned 5 seen ∧ d.boot = s.dev.boot ∧ liveF d offNvmReloadStatus 3 0 = 5) ∧
      (run.gen < new.gen → mayReload run new = false → Runs .reloadGo s fun d =>
        d = reloadTurned 6 seen ∧ d.boot = s.dev.boot ∧ liveF d offNvmReloadStatus 3 0 = 6) ∧
      (run.gen < new.gen → mayReload run new = true → Runs .reloadGo s fun d =>
        let r := stageSections ((differing run new).map fun x => (x.type, payloadOf s.dev (1 - runningBank s.dev) x)) seen
        reloadState d = 1 ∧ liveF d offNvmReloadStatus 3 0 = 1 ∧ liveF d offNvmReloadStatus 13 8 = (differing run new).length % 64 ∧
        d.boot = { s.dev.boot with reload := some ⟨new, r.2⟩ } ∧ d.mem.reserved = r.1.mem.reserved ∧
        (r.2.map fun x => (x.type, x.data, x.ready)) =
          ((differing run new).map fun x => (x.type, payloadOf s.dev (1 - runningBank s.dev) x, false)) ∧
        (∀ x ∈ r.2, mem1Reserved s.dev + 2 ^ 28 ≤ x.place) ∧
        d.regs.act = s.dev.regs.act ∧ d.regs.shadow = s.dev.regs.shadow))) ∧
  (∀ (s : State) (t : Nat),
    let c : List Instr := (if t = 0x14 then [.cndSectionChecked] else []) ++ (if t = 0x15 then [.rcSectionChecked] else []) ++
      (if t = 0x18 then [.netSectionChecked] else []) ++ (if 0x10 ≤ t ∧ t ≤ 0x12 then [.geoSectionChecked t] else [])
    ∀ i ∈ c, (loadingSec s.dev t = none → Runs i s fun d => d = s.dev) ∧
      (∀ x, loadingSec s.dev t = some x → (t = 0x15 → filtersUnderWay s.dev = false) → (t = 0x14 → cndSwapping s.dev = false) →
        let y := stagedData s.dev x
        let m := takeStaged t s.dev
        (reloadCrcOk m y = false → Runs i s fun d => d = reloadRefuse t 7 m ∧ d.boot.reload = none ∧
          liveF d offNvmReloadStatus 3 0 = 7 ∧ liveF d offNvmReloadStatus 31 16 = t) ∧
        (reloadCrcOk m y = true → reloadSecOk m y = false → Runs i s fun d => d.boot.reload = none ∧
          liveF d offNvmReloadStatus 3 0 = 8 ∧ liveF d offNvmReloadStatus 31 16 = t) ∧
        (reloadCrcOk m y = true → reloadSecOk m y = true → Runs i s fun d => d = prepareSec y m)) ∧
      (t = 0x15 → filtersUnderWay s.dev = true → Runs i s fun d => d = s.dev) ∧
      (t = 0x14 → cndSwapping s.dev = true → Runs i s fun d => d = s.dev)) ∧
  (∀ (s : State),
    (feedBlock s.dev = none → (Runs .rcParallelStart s fun d => d = s.dev) ∧ Runs .rcReloadReady s fun d => d = s.dev) ∧
    (feedAgain s.dev = true → (Runs .rcParallelStart s fun d => d = s.dev) ∧ Runs .rcReloadReady s fun d => d = s.dev) ∧
    (∀ b, feedBlock s.dev = some b → feedAgain s.dev = false → (Runs .rcParallelStart s fun d => d = rcParallel b s.dev) ∧
      (rcReadyAt s.dev b = true → Runs .rcReloadReady s fun d =>
        d = markReady 0x15 { s.dev with rc := { s.dev.rc with phase := .ready } } ∧ loadingSec d 0x15 = none) ∧
      (rcReadyAt s.dev b = false → Runs .rcReloadReady s fun d => d = s.dev)) ∧
    (s.dev.boot.reload = none → (Runs .reloadReady s fun d => d = s.dev) ∧ (Runs .reloadAbandon s fun d => d = s.dev) ∧
      ∀ t e, 0x10 ≤ t → t ≤ 0x19 → Runs (.reloadRefused t e) s fun d => d = s.dev)) ∧
  (∀ (s : State) (l : Reload), s.dev.boot.reload = some l →
    (reloadState s.dev = 1 → (∀ x ∈ l.secs, x.ready = true) → Runs .reloadReady s fun d =>
      reloadState d = 2 ∧ liveF d offNvmReloadStatus 3 0 = 2 ∧ d.boot = s.dev.boot) ∧
    (s.dev.vec.load = none → (∀ x ∈ l.secs, x.type ∉ quietTypes) → (∃ x ∈ l.secs, x.ready = false) → Runs .reloadReady s fun d =>
      d = s.dev) ∧
    (∀ p u, s.dev.vec.load = some (p, u) → reloadState s.dev = 1 → (∃ x ∈ l.secs, x.ready = false) →
      (∀ x ∈ l.secs, x.ready = false → x.type = 0x16) →
      (u ≠ [] → Runs .reloadReady s fun d => d = s.dev) ∧
      (u = [] → Runs .reloadReady s fun d => reloadState d = 2 ∧ d.vec.load = none)) ∧
    (s.dev.epc.joined = true → Runs .reloadAbandon s fun d => d = s.dev) ∧
    (s.dev.epc.joined = false → Runs .reloadAbandon s fun d => d.boot = { s.dev.boot with reload := none } ∧ d.mem.standby = [] ∧
      d.vec.load = none ∧ reloadState d = 0 ∧
      liveF d offNvmReloadStatus 3 0 = 10 ∧ d.regs.act = s.dev.regs.act ∧ d.regs.shadow = s.dev.regs.shadow) ∧
    (∀ t x, 0x10 ≤ t → t ≤ 0x19 → loadingSec s.dev t = some x → Runs (.reloadRefused t true) s fun d =>
      d.boot = { s.dev.boot with reload := none } ∧ d.mem.standby = [] ∧ reloadState d = 0 ∧ liveF d offNvmReloadStatus 3 0 = 11 ∧
      liveF d offNvmReloadStatus 31 16 = t))

/-- R323, R437 to R442 and R444 to R446: the power sequence, with log entries 1, 33 and 168 to 172. -/
def Obligations.SuppliesComeUpInOrder : Prop :=
  (∀ (s : State), let up := s.dev.boot.standby = false;
    (∀ ext test, s.dev.boot.standby = true → Runs (.standbyResetRelease ext test) s fun d =>
      d.boot = { s.dev.boot with standby := false } ∧ pwrExt d = ext ∧ liveB d offPmcStraps 2 = test ∧
      seqState d = (if ext = true then 0 else 1) ∧ liveF d offPmcStatus 15 12 = 0 ∧
      (∀ r, 6 ≤ r → r < 10 → railIn d r = true) ∧ d = { s.dev with regs := d.regs, boot := d.boot }) ∧
    (∀ ext test, up → Runs (.standbyResetRelease ext test) s fun d => d = s.dev) ∧
    (s.dev.boot.standby = true → Runs .standbyResetAssert s fun d => d = s.dev) ∧
    (up → Runs .standbyResetAssert s fun d =>
      d.boot = { s.dev.boot with standby := true, up := false, phase := .reset, manifest := none, bad := [], kept := [], dirty := false,
                                 reload := none, ptpRun := 0, opening := none } ∧
      d.epc = {} ∧ d.mem = {} ∧ d.mgmt = {} ∧ d.pmc = {} ∧ d.vec = {} ∧ d.xp = {} ∧ seqState d = 0 ∧
      (∀ s' w, liveGet d (offLcsKeyHash (s' % 4) (w % 8)) = liveGet s.dev (offLcsKeyHash (s' % 4) (w % 8))))) ∧
  (∀ (s : State) (r : Nat) (v33 : Bool), r < 10 →
    (s.dev.boot.standby = true ∨ railIn s.dev r = true → Runs (.railInWindow r v33) s fun d => d = s.dev) ∧
    (s.dev.boot.standby = false → railIn s.dev r = false → Runs (.railInWindow r v33) s fun d => railIn d r = true ∧
      (r = 4 → liveB d offSapStatus 0 = v33) ∧ (r = 5 → liveB d offSapStatus 1 = v33) ∧
      OnlyWords [offPmcRailStatus r, offSapStatus] s.dev d)) ∧
  (∀ (s : State) (r : Nat), r < 6 →
    (¬(sequencing s.dev r = true ∧ railIn s.dev r = true) → Runs (.railQualified r) s fun d => d = s.dev) ∧
    (sequencing s.dev r = true → railIn s.dev r = true → r < 5 → Runs (.railQualified r) s fun d =>
      liveB d (offPmcRailStatus r) 2 = true ∧ liveB d (offPmcRailStatus r) 0 = true ∧ seqState d = 1 ∧ liveF d offPmcStatus 15 12 = r + 1 ∧
      OnlyWords [offPmcRailStatus r, offPmcStatus] s.dev d) ∧
    (r = 5 → sequencing s.dev r = true → railIn s.dev r = true → Runs (.railQualified r) s fun d =>
      d = releaseCheck true (seqTo 2 5 (liveSetB (liveSetB s.dev (offPmcRailStatus 5) 2 true) (offPmcRailStatus 5) 0 true)) ∧
      (s.dev.boot.porst = true → seqState d = 2 ∧ liveB d (offPmcRailStatus 5) 2 = true ∧ d.boot = s.dev.boot)) ∧
    (∀ no, sequencing s.dev r = false → Runs (.railSequenceTimeout r no) s fun d => d = s.dev) ∧
    (∀ no, sequencing s.dev r = true → Runs (.railSequenceTimeout r no) s fun d =>
      d = railFaultEntry r (if no = true then 2 else 1) (liveSetB s.dev (offPmcRailStatus r) 0 (!no)) ∧ seqState d = 3 ∧
      liveF d offPmcLastFault 11 8 = r ∧ liveF d offPmcLastFault 2 0 = (if no = true then 2 else 1) ∧ d.boot.phase = .reset ∧ d.boot.up = false) ∧
    (∀ ov, s.dev.boot.standby = true → Runs (.railFault r ov) s fun d => d = s.dev) ∧
    (∀ ov, s.dev.boot.standby = false → railQualifiedNow s.dev r = false → Runs (.railFault r ov) s fun d =>
      d = liveSetB s.dev (offPmcRailStatus r) 1 false ∧ railIn d r = false ∧ seqState d = seqState s.dev) ∧
    (∀ ov, s.dev.boot.standby = false → railQualifiedNow s.dev r = true → Runs (.railFault r ov) s fun d =>
      seqState d = 3 ∧ liveF d offPmcLastFault 11 8 = r ∧ liveF d offPmcLastFault 2 0 = (if ov = true then 4 else 3) ∧ railIn d r = false ∧
      liveF d offPmcLastFault 31 24 = min 255 (liveF s.dev offPmcLastFault 31 24 + 1) ∧ d.boot.phase = .reset ∧
      (pwrExt s.dev = false → ∀ q, q < 6 → railIn d q = false ∧ liveB d (offPmcRailStatus q) 2 = false))) ∧
  (∀ (s : State),
    (s.dev.boot.porst = true → Runs .porstFall s fun d => d = s.dev) ∧
    (s.dev.boot.porst = false → Runs .porstFall s fun d => d.boot.porst = true ∧ d.boot.phase = .reset ∧ d.boot.flash = s.dev.boot.flash ∧
      d.pmc = { s.dev.pmc with shut := [], burnt := [] } ∧ d.epc = {} ∧
      seqState d = (if seqState s.dev = 3 then (if pwrExt s.dev = true then 0 else 1) else seqState s.dev)) ∧
    (let good := s.dev.boot.standby = false ∧ pwrExt s.dev = true ∧ seqState s.dev = 0;
      (good → Runs .pwrExtPowerGood s fun d => d = releaseCheck true
        (liveSetF ((List.range 10).foldl (fun d r => liveSetB d (offPmcRailStatus r) 1 true) s.dev) offPmcStatus 2 0 2)) ∧
      (¬good → Runs .pwrExtPowerGood s fun d => d = s.dev)) ∧
    (s.dev.boot.phase = .reset → Runs (.testModeChange true) s fun d => d = liveSetB s.dev offPmcStraps 2 true) ∧
    (s.dev.boot.phase ≠ .reset → Runs (.testModeChange true) s fun d => d = porstReset (liveSetB s.dev offPmcStraps 2 true) ∧
      d.boot.phase = .reset ∧ liveB d offPmcStraps 2 = true) ∧
    (Runs (.testModeChange false) s fun d => d = releaseCheck (liveB s.dev offPmcStraps 2) (liveSetB s.dev offPmcStraps 2 false)))

/-- R442 and R452 to R455: PMB_ALERT, TELEMETRY_POLL, THERMAL_SAMPLE and THERMAL_ALARM_CLEAR. Readings are in 1/256 of a degree. With log entries 1, 32, 33 and 242. -/
def Obligations.SuppliesAndHeatAreWatched : Prop :=
  (∀ (s : State) (l : List RailReading),
    let alerted := (l.take 10).zipIdx.foldl statusRead s.dev
    let polled := (l.take 10).zipIdx.foldl telemetryRead s.dev
    (s.dev.boot.standby = true → (Runs (.pmbAlert l) s fun d => d = s.dev) ∧ (Runs (.telemetryPoll l) s fun d => d = s.dev) ∧
      ∀ tj, Runs (.thermalSample tj) s fun d => d = s.dev) ∧
    (s.dev.boot.standby = false → faultyRail l = none → Runs (.pmbAlert l) s fun d => d = alerted) ∧
    (∀ r, s.dev.boot.standby = false → faultyRail l = some r → Runs (.pmbAlert l) s fun d =>
      d = railFaultEntry r 5 alerted ∧ seqState d = 3 ∧ liveF d offPmcLastFault 11 8 = r ∧ liveF d offPmcLastFault 2 0 = 5) ∧
    (actB s.dev offPmcTelemetry 8 = false → Runs (.telemetryPoll l) s fun d => d = s.dev) ∧
    (s.dev.boot.standby = false → actB s.dev offPmcTelemetry 8 = true → faultyRail l = none →
      Runs (.telemetryPoll l) s fun d => d = polled ∧
        (∀ r x, r < 10 → l[r]? = some x → x.present = true →
          liveF d (offPmcRailStatus r) 31 16 = x.status.toNat ∧ liveF d (offPmcRailMeas r) 15 0 = x.vout % 65536 ∧
          liveF d (offPmcRailMeas r) 31 16 = x.iout % 65536 ∧ liveB d (offPmcRailStatus r) 0 = true ∧
          x.iout % 65536 ≤ liveF d (offPmcRailImax r) 15 0)) ∧
    (∀ r, s.dev.boot.standby = false → actB s.dev offPmcTelemetry 8 = true → faultyRail l = some r →
      Runs (.telemetryPoll l) s fun d => d = railFaultEntry r 5 polled)) ∧
  (∀ (s : State) (tj : List Int), s.dev.boot.standby = false →
    let l := validReadings s.dev tj
    let twice := l.filter fun e => decide (32000 ≤ e.2) && s.dev.pmc.hot.contains e.1
    let hotter := l.filter fun e => decide (5 ≤ e.1 ∧ 34560 ≤ e.2)
    let burnt := (hotter.filter fun e => s.dev.pmc.hotter.contains e.1).map (·.1) ++
      (if s.dev.boot.phase = .reset then twice.map (·.1) else [])
    let new := twice.filter fun e => !(s.dev.pmc.shut.contains e.1)
    let quiet := ∀ q ∈ burnt, q ∈ s.dev.pmc.burnt
    (quiet → (s.dev.boot.phase = .reset ∨ new = []) → Runs (.thermalSample tj) s fun d =>
      d.pmc = { s.dev.pmc with hot := (l.filter fun e => decide (32000 ≤ e.2)).map (·.1), hotter := hotter.map (·.1), burnt := burnt
                               cool := d.pmc.cool } ∧
      (∀ q t, (q, t) ∈ l → liveF d (offPmcTherm q) 15 0 = thermWord t) ∧
      d.pmc.cool = (if l.all (fun e => decide (e.2 ≤ 25600)) = true then s.dev.pmc.cool + 1 else 0) ∧
      (liveB d offPmcStatus 6 = (liveB s.dev offPmcStatus 6 || l.any fun e => decide (26880 ≤ e.2))) ∧
      (liveB s.dev offPmcStatus 6 = false → (∃ e ∈ l, 26880 ≤ e.2) →
        liveGet d offPmcThermCount = liveGet s.dev offPmcThermCount + 1) ∧ d.boot = s.dev.boot) ∧
    (quiet → s.dev.boot.phase ≠ .reset → new ≠ [] → Runs (.thermalSample tj) s fun d =>
      d.pmc.shut = s.dev.pmc.shut ++ new.map (·.1) ∧ liveB d offPmcStatus 7 = true ∧ fatal d = true ∧
      (pwrExt s.dev = false → liveB d offPmcStatus 8 = true ∧ railIn d 0 = false)) ∧
    (¬quiet → Runs (.thermalSample tj) s fun d =>
      seqState d = 3 ∧ liveF d offPmcLastFault 2 0 = 6 ∧ liveF d offPmcLastFault 11 8 = 0 ∧ d.boot.phase = .reset ∧
      d.pmc.burnt = burnt)) ∧
  (∀ (s : State),
    let due := liveB s.dev offPmcStatus 6 = true ∧ 1000 ≤ s.dev.pmc.cool
    (due → Runs .thermalAlarmClear s fun d => liveB d offPmcStatus 6 = false ∧ d.pmc = s.dev.pmc) ∧
    (¬due → Runs .thermalAlarmClear s fun d => d = s.dev))

/-- R193, R195, R204, R209 and R344 over every bundle command. That a core that cannot issue ignores the command is log entry 1, and
that a command brings the bundle, which a word of zeros at the PC leaves open, is log entry 207. -/
def Obligations.BundleCommandsIssueTheirBundles : Prop :=
  ∀ (s : State) (c : Instr) (core : Nat) (b : Bundle), c.bundle = some (core, b) → core < 36 →
    let k := coreOf s.dev core
    let h := inHandler s.dev core
    let fx := bundleFx s.dev core k h b
    let may := running s.dev blkVec = true ∧ k.wait = none ∧ (h = true ∨ (coreState s.dev core = 3 ∧ k.ended = false))
    let spelt := decodeBundle (fetchWord k) ≠ none
    let has := spelt ∧ (fetchWord k = 0 ∨ decodeBundle (fetchWord k) = some b)
    (¬may → Runs c s fun d => d = s.dev) ∧
    (may → ¬spelt → Runs c s fun d => d = vecFault s.dev core 0) ∧
    (may → spelt → ¬has → Runs c s fun d => d = s.dev) ∧
    (∀ f l, may → has → fx.faults = f :: l → (f ≠ 5 ∨ fx.refused = none) → Runs c s fun d => d = vecFault s.dev core f) ∧
    (∀ l w off, may → has → fx.faults = 5 :: l → fx.refused = some (w, off) → Runs c s fun d =>
      d = vecFault (countError (core / 4 + 1) (0x2000000000 + off) w
        (if memReady s.dev 1 = true ∧ memSize s.dev 1 < off + 4 then .decode else .target) s.dev) core 5) ∧
    (∀ w, may → has → fx.faults = [] → waitsFor s.dev core k fx b.op = some w → Runs c s fun d =>
      d = setCore s.dev core { k with wait := some (w, b), repWord := if k.rep.isSome = true then some (fetchWord k) else none }) ∧
    (may → has → fx.faults = [] → waitsFor s.dev core k fx b.op = none → Runs c s fun d =>
      let m := bundleDone s.dev core b
      let n := coreOf m core
      d = transfer m core k h ∧
      (¬(k.xfer = some (1, .finish) ∧ h = false) → ¬(k.xfer = some (1, .rte) ∧ h = true) → d = m) ∧
      (∀ j, j ≠ core → coreOf d j = coreOf m j) ∧ RegsBut [offVecCoreState core] m d ∧
      { d with regs := m.regs, vec := m.vec } = m ∧ n.issued = k.issued + 1 ∧ n.wait = none ∧ n.prog = k.prog ∧ n.era = k.era ∧ n.item = k.item ∧
      (∀ j, j ≠ core → coreOf m j = coreOf s.dev j) ∧
      (∀ r e, fx.writes.find? (fun w => regIn h w.1 = regIn h r) = some e → regLast n h r = e.2.2) ∧
      (∀ r, (∀ e ∈ fx.writes, regIn h e.1 ≠ regIn h r) →
        (k.flight.filter fun e => e.reg = regIn h r).Pairwise (fun u v => v.k ≤ u.k) → regLast n h r = regLast k h r) ∧
      (k.flight.Pairwise (fun u v => v.k ≤ u.k) → (∀ e ∈ k.flight, e.k < k.issued) →
        n.flight.Pairwise (fun u v => v.k ≤ u.k) ∧ ∀ e ∈ n.flight, e.k < n.issued) ∧
      m.mem = { s.dev.mem with mem1 := m.mem.mem1 } ∧
      (∀ a, (∀ e ∈ windowStores k h fx, a < e.1 ∨ e.1 + 4 ≤ a) → byteGet m.mem.mem1 a = byteGet s.dev.mem.mem1 a) ∧
      m.regs.shadow = s.dev.regs.shadow ∧ m.regs.act = s.dev.regs.act ∧ m.regs.snap = s.dev.regs.snap ∧
      ((∀ a, b.op ≠ .ctl (.enq a)) → (∀ e, b.op ≠ .ctl (.evsig e)) →
        RegsBut (perfWords (20 + core)) s.dev m ∧
        { m with regs := s.dev.regs, mem := s.dev.mem, vec := { m.vec with cores := s.dev.vec.cores } } = s.dev))

/-- R185, R186 and Table 9-9: MPY, MAC, MSU, MPYN, CLR and RND. A saturated value is an end of the 56-bit range. -/
def Obligations.MacBundlesCompute : Prop :=
  ∀ (s : State) (core form p t a lanes : Nat) (x y : MoveField) (g : AguField) (i : Nat), i < lanes →
    let k := coreOf s.dev core
    let h := inHandler s.dev core
    let r := 16 + (a + i) % 8
    let acc := sext 56 (regSeen k h .acc r)
    let q : Nat := if form = 0 then t + i else t
    let prod := rshr (sext 32 (dSeen k h (p + i)).toNat * sext 32 (dSeen k h q).toNat) 15
    let gives := fun (v : Int) (n : VecCore) =>
      (Unmoved s.dev core x y r → regLast n h r = code 56 (max (-2 ^ 55) (min (2 ^ 55 - 1) v)) ∧ regSeen n h .acc r = regLast n h r) ∧
      (v < -2 ^ 55 ∨ 2 ^ 55 ≤ v → regLast n h rSA = 1)
    Issues (.mpy core form p t a lanes x y g) s (fun n _ => gives prod n) ∧
    Issues (.macAdd core form p t a lanes x y g) s (fun n _ => gives (acc + prod) n) ∧
    Issues (.msu core form p t a lanes x y g) s (fun n _ => gives (acc - prod) n) ∧
    Issues (.mpyn core form p t a lanes x y g) s (fun n _ => gives (-prod) n) ∧
    Issues (.clr core a lanes x y g) s (fun n _ => gives 0 n) ∧
    Issues (.rndAcc core a lanes x y g) s (fun n _ => gives (rshr acc 16 * 2 ^ 16) n)

/-- R186, R189, R210 and Table 9-12: the ALU field and LI. The value of ACCSH outside its counts is log entry 14's. -/
def Obligations.AluBundlesCompute : Prop :=
  ∀ (s : State) (core dst s1 s2 : Nat) (x y : MoveField) (g : AguField),
    let k := coreOf s.dev core
    let h := inHandler s.dev core
    let w1 := (dSeen k h s1).toNat
    let w2 := (dSeen k h s2).toNat
    let a := sext 32 w1
    let b := sext 32 w2
    let m := w2 % 32
    let acc := fun (i : Nat) => sext 56 (regSeen k h .accSrc (16 + i))
    let set := fun (r v : Nat) (n : VecCore) => Unmoved s.dev core x y r → regLast n h r = v
    let dd := fun (v : Nat) (n : VecCore) => set (dst % 16) v n
    let zn := fun (v : Nat) (n : VecCore) =>
      regLast n h rZ = (if v = 0 then 1 else 0) ∧ regLast n h rN = (if 2 ^ 31 ≤ v then 1 else 0)
    let ovf := fun (v : Int) (n : VecCore) => regLast n h rV = (if -2 ^ 31 ≤ v ∧ v < 2 ^ 31 then 0 else 1)
    let sat := fun (v : Int) => code 32 (max (-2 ^ 31) (min (2 ^ 31 - 1) v))
    let accs := fun (v : Int) (n : VecCore) => set (16 + dst) (code 56 (max (-2 ^ 55) (min (2 ^ 55 - 1) v))) n ∧
      (v < -2 ^ 55 ∨ 2 ^ 55 ≤ v → regLast n h rSA = 1)
    (Issues (.addWrap core dst s1 s2 x y g) s fun n _ => dd (code 32 (a + b)) n ∧ zn (code 32 (a + b)) n ∧ ovf (a + b) n) ∧
    (Issues (.subWrap core dst s1 s2 x y g) s fun n _ => dd (code 32 (a - b)) n ∧ zn (code 32 (a - b)) n ∧ ovf (a - b) n) ∧
    (Issues (.adds core dst s1 s2 x y g) s fun n _ => dd (sat (a + b)) n ∧ zn (sat (a + b)) n ∧ ovf (a + b) n) ∧
    (Issues (.subs core dst s1 s2 x y g) s fun n _ => dd (sat (a - b)) n ∧ zn (sat (a - b)) n ∧ ovf (a - b) n) ∧
    (Issues (.andBits core dst s1 s2 x y g) s fun n _ => dd (w1 &&& w2) n ∧ zn (w1 &&& w2) n) ∧
    (Issues (.orBits core dst s1 s2 x y g) s fun n _ => dd (w1 ||| w2) n ∧ zn (w1 ||| w2) n) ∧
    (Issues (.xorBits core dst s1 s2 x y g) s fun n _ => dd (w1 ^^^ w2) n ∧ zn (w1 ^^^ w2) n) ∧
    (Issues (.cmp core dst s1 s2 x y g) s fun n _ => zn (code 32 (a - b)) n ∧ ovf (a - b) n) ∧
    (Issues (.minVal core dst s1 s2 x y g) s fun n _ => dd (code 32 (min a b)) n) ∧
    (Issues (.maxVal core dst s1 s2 x y g) s fun n _ => dd (code 32 (max a b)) n) ∧
    (Issues (.absVal core dst s1 s2 x y g) s fun n _ => dd (sat |a|) n ∧ ovf |a| n) ∧
    (Issues (.neg core dst s1 s2 x y g) s fun n _ => dd (sat (-a)) n ∧ ovf (-a) n) ∧
    (Issues (.asl core dst s1 s2 x y g) s fun n _ => dd (code 32 (a * 2 ^ m)) n ∧ ovf (a * 2 ^ m) n) ∧
    (Issues (.asr core dst s1 s2 x y g) s fun n _ => dd (code 32 (a / 2 ^ m)) n) ∧
    (Issues (.asrr core dst s1 s2 x y g) s fun n _ => dd (code 32 (rshr a m)) n) ∧
    (Issues (.lsr core dst s1 s2 x y g) s fun n _ => dd (w1 / 2 ^ m) n) ∧
    (Issues (.asli core dst s1 s2 x y g) s fun n _ => s2 < 32 ∧ dd (code 32 (a * 2 ^ s2)) n ∧ ovf (a * 2 ^ s2) n) ∧
    (Issues (.asri core dst s1 s2 x y g) s fun n _ => s2 < 32 ∧ dd (code 32 (a / 2 ^ s2)) n) ∧
    (Issues (.lsri core dst s1 s2 x y g) s fun n _ => s2 < 32 ∧ dd (w1 / 2 ^ s2) n) ∧
    (Issues (.norm core dst s1 s2 x y g) s fun n _ =>
      ∃ v, v ≤ 31 ∧ (∀ q, q ≤ 31 → (-2 ^ (31 - q) ≤ a ∧ a < 2 ^ (31 - q) ↔ q ≤ v)) ∧ dd v n) ∧
    (Issues (.mova core dst s1 s2 x y g) s fun n _ => dst < 8 ∧ set (32 + dst) (w1 % 2 ^ 24) n) ∧
    (Issues (.movn core dst s1 s2 x y g) s fun n _ => dst < 8 ∧ set (40 + dst) (w1 % 2 ^ 24) n) ∧
    (Issues (.movm core dst s1 s2 x y g) s fun n _ => dst < 8 ∧ set (48 + dst) w1 n) ∧
    (Issues (.movfa core dst s1 s2 x y g) s fun n _ => s1 < 8 ∧ dd (regSeen k h .aOther (32 + s1) % 2 ^ 32) n) ∧
    (Issues (.xtrh core dst s1 s2 x y g) s fun n _ => s1 < 8 ∧ dd (regSeen k h .accSrc (16 + s1) / 2 ^ 24 % 2 ^ 32) n) ∧
    (Issues (.xtrl core dst s1 s2 x y g) s fun n _ => s1 < 8 ∧ dd (regSeen k h .accSrc (16 + s1) % 2 ^ 24) n) ∧
    (Issues (.insa core dst s1 s2 x y g) s fun n _ => dst < 8 ∧ set (16 + dst) (w1 * 2 ^ 24 + w2 % 2 ^ 24) n) ∧
    (Issues (.accadd core dst s1 s2 x y g) s fun n _ => dst < 8 ∧ s1 < 8 ∧ s2 < 8 ∧ accs (acc s1 + acc s2) n) ∧
    (Issues (.accsub core dst s1 s2 x y g) s fun n _ => dst < 8 ∧ s1 < 8 ∧ s2 < 8 ∧ accs (acc s1 - acc s2) n) ∧
    (Issues (.accsh core dst s1 s2 x y g) s fun n _ => dst < 8 ∧ s1 < 8 ∧
      (0 ≤ b → b ≤ 8 → accs (acc s1 * 2 ^ b.toNat) n) ∧ (-32 ≤ b → b < 0 → accs (rshr (acc s1) (-b).toNat) n)) ∧
    (∀ (file reg : Nat) (imm : Word), Issues (.li core file reg imm) s fun n _ =>
      (file = 0 → reg < 16 ∧ regLast n h reg = imm.toNat) ∧
      (file = 1 → reg < 8 ∧ imm.toNat < 2 ^ 24 ∧ regLast n h (32 + reg) = imm.toNat) ∧
      (file = 2 → reg < 8 ∧ regLast n h (40 + reg) = imm.toNat % 2 ^ 24) ∧
      (file = 3 → reg < 8 ∧ regLast n h (48 + reg) = imm.toNat) ∧ file < 4)

/-- R187 and R188 with Table 9-2's reading of SCALE (a value outside -8 to +8 acts as 0), over MOV, LDX, LDY, STX and STY. An
accumulator counts 2^-47, so that 31 fraction bits are a division by 2^16. -/
def Obligations.AccumulatorMovesScaleAndPlace : Prop :=
  ∀ (s : State) (core : Nat) (other : MoveField) (g : AguField),
    let k := coreOf s.dev core
    let h := inHandler s.dev core
    let sc := sext 5 (regSeen k h .scale rSCALE)
    let scale : Int := if -8 ≤ sc ∧ sc ≤ 8 then sc else 0
    let scaled := fun (r : Nat) => rne (sext 56 (regSeen k h .accSrc r) * 2 ^ (scale + 8).toNat) (2 ^ 24)
    let ovf := fun (r : Nat) => scaled r < -2 ^ 31 ∨ 2 ^ 31 ≤ scaled r
    let out := fun (r : Nat) => if r < 16 then (dSeen k h r).toNat else code 32 (max (-2 ^ 31) (min (2 ^ 31 - 1) (scaled r)))
    let placed := fun (w : Nat) => code 56 (sext 32 w * 2 ^ 16)
    let first := fun (yside : Bool) (r : Nat) => yside = true ∨ Unmoved s.dev core .none other r
    let kept := fun (r : Nat) (n : VecCore) => 16 ≤ r → r < 24 → Unmoved s.dev core .none other r → Unmoved s.dev core other .none r →
      (k.flight.filter fun e => e.reg = regIn h r).Pairwise (fun u v => v.k ≤ u.k) → regLast n h r = regLast k h r
    (∀ (yside : Bool) (dst src : Nat), Issues (.movReg core yside (some dst) src other g) s fun n _ =>
      (dst < 16 → first yside dst → regLast n h dst = out src) ∧
      (dst < 16 → 16 ≤ src → ovf src → regLast n h rSL = 1) ∧
      (16 ≤ dst → src < 16 → first yside dst → regLast n h dst = placed (dSeen k h src).toNat) ∧
      (16 ≤ dst → 16 ≤ src → first yside dst → regLast n h dst = regSeen k h .accSrc src % 2 ^ 56) ∧ (src ≠ dst → kept src n)) ∧
    (∀ (reg an mode nsel a : Nat) (u : Option Nat), moveAddr k h an mode nsel = some (a, u) →
      let loaded := fun (yside : Bool) (n : VecCore) => first yside reg →
        regLast n h reg = (if reg < 16 then (vecLoad s.dev core k h yside a).toNat else placed (vecLoad s.dev core k h yside a).toNat)
      let stored := fun (yside : Bool) (n : VecCore) (d : Dev) =>
        (vecPlace a = .own → n.stores.find? (fun e => e.yside = yside ∧ e.addr = a) = some ⟨yside, a, BitVec.ofNat 32 (out reg), k.issued⟩) ∧
        (vecPlace a = .window → (∀ q b c e, other ≠ .store q b c e) → wordGet d.mem.mem1 (windowOff k h a) = BitVec.ofNat 32 (out reg)) ∧
        (vecPlace a = .own ∨ vecPlace a = .window) ∧ (16 ≤ reg → ovf reg → regLast n h rSL = 1) ∧ kept reg n
      (Issues (.ldx core reg an mode nsel other g) s fun n _ => loaded false n) ∧
      (Issues (.ldy core reg an mode nsel other g) s fun n _ => loaded true n) ∧
      (Issues (.stx core reg an mode nsel other g) s fun n d => stored false n d) ∧
      (Issues (.sty core reg an mode nsel other g) s fun n d => stored true n d))

/-- R191, with Table 9-4's modes, the linear modifier and R192's step under a bit-reverse one. A LENGTH of 0 means 32,768. -/
def Obligations.AddressRegistersStepUnderTheirModifier : Prop :=
  ∀ (s : State) (core an : Nat) (x y : MoveField), an < 8 →
    let k := coreOf s.dev core
    let h := inHandler s.dev core
    let m := regSeen k h .agu (48 + an)
    let stepped := fun (a m : Nat) (v : Int) (z : Nat) =>
      (m / 2 ^ 30 = 0 → z = code 24 ((a : Int) + v)) ∧
      (m / 2 ^ 30 = 1 →
        let b : Int := m / 2 ^ 15 % 2 ^ 15
        let len : Int := if m % 2 ^ 15 = 0 then 32768 else m % 2 ^ 15
        (z : Int) = b + ((a : Int) - b + v) % len) ∧
      (m / 2 ^ 30 = 2 →
        let b : Nat := m / 2 ^ 15 % 2 ^ 15
        let n := m % 16
        let o := code 24 ((a : Int) - (b : Int))
        (n = 0 → z = code 24 ((a : Int) + v)) ∧
        (0 < n → ∃ w, w < 2 ^ n ∧ z = code 24 ((b + (o / 2 ^ n * 2 ^ n + w) : Nat) : Int) ∧
          ∀ i, i < n → w.testBit i =
            ((revBits n (o % 2 ^ n) + revBits n (code 24 v % 2 ^ n)) % 2 ^ n).testBit (n - 1 - i)) ∧
        ∀ x i, i < n → (revBits n x).testBit i = x.testBit (n - 1 - i))
    let agu := fun (v : Int) (n : VecCore) => m / 2 ^ 30 ≠ 3 ∧ (Unmoved s.dev core x y (32 + an) →
      stepped (regSeen k h .agu (32 + an)) m v (regLast n h (32 + an)))
    let nn := sext 24 (regSeen k h .agu (40 + an))
    (Issues (.adda core an x y) s fun n _ => agu nn n) ∧ (Issues (.suba core an x y) s fun n _ => agu (-nn) n) ∧
    (Issues (.inca core an x y) s fun n _ => agu 1 n) ∧ (Issues (.deca core an x y) s fun n _ => agu (-1) n) ∧
    (∀ (reg mode nsel : Nat) (g : AguField), nsel < 8 →
      let a := regSeen k h .addr (32 + an)
      let mm := regSeen k h .addr (48 + an)
      let v : Int := if mode = 1 then 1 else if mode = 2 then -1 else if mode = 4 then -(sext 24 (regSeen k h .addr (40 + nsel)))
        else sext 24 (regSeen k h .addr (40 + nsel))
      let post := fun (yside : Bool) (n : VecCore) =>
        mode < 7 ∧ (mode < 3 → nsel = 0) ∧ (mode ≠ 0 → mm / 2 ^ 30 ≠ 3) ∧
        ∃ used after, moveAddr k h an mode nsel = some (used, after) ∧
          (mode < 5 → used = a) ∧ (5 ≤ mode → stepped a mm v used) ∧ (after = none ↔ mode = 0 ∨ mode = 5) ∧
          ∀ z, after = some z → stepped a mm v z ∧ ((yside = true ∨ Unmoved s.dev core .none y (32 + an)) → reg ≠ 32 + an →
            regLast n h (32 + an) = z)
      (Issues (.ldx core reg an mode nsel y g) s fun n _ => post false n) ∧ (Issues (.ldy core reg an mode nsel y g) s fun n _ => post true n) ∧
      (Issues (.stx core reg an mode nsel y g) s fun n _ => post false n) ∧ (Issues (.sty core reg an mode nsel y g) s fun n _ => post true n))

/-- R184, R194, R197, R202, R204, R207, R235 and Table 9-12: the control instructions. The value of CYC is log entry 15's, the return address 182's, and that a REP of
count 0 skips any bundle is 258's. -/
def Obligations.ControlBundlesAct : Prop :=
  ∀ (s : State) (core r q : Nat) (y : MoveField) (g : AguField),
    let k := coreOf s.dev core
    let h := inHandler s.dev core
    let w := dSeen k h r
    let z := regSeen k h .bcc rZ % 2 = 1
    let neg := regSeen k h .bcc rN % 2 = 1
    let v := regSeen k h .bcc rV % 2 = 1
    let holds := (q = 0 ∧ z) ∨ (q = 1 ∧ ¬z) ∨ (q = 2 ∧ ¬(neg ↔ v)) ∨ (q = 3 ∧ (neg ↔ v)) ∨ (q = 4 ∧ ¬z ∧ (neg ↔ v)) ∨
      (q = 5 ∧ (z ∨ ¬(neg ↔ v))) ∨ (q = 6 ∧ v) ∨ (q = 7 ∧ ¬v)
    let on := fun (n : VecCore) => n.pc = (k.pc + 1) % 8192 ∧ n.xfer = none ∧ n.rep = none ∧ n.stack = k.stack
    let go := fun (t : VecXfer) (n : VecCore) => n.pc = (k.pc + 1) % 8192 ∧ n.xfer = some (2, t) ∧ n.rep = none ∧ k.xfer = none ∧ k.rep = none
    let dd := fun (x : Nat) (n : VecCore) => Unmoved s.dev core .none y (r % 16) → regLast n h (r % 16) = x
    (∀ a, Issues (.bra core a y g) s fun n _ => go (.go (a % 8192)) n ∧ n.stack = k.stack) ∧
    (∀ a, Issues (.bcc core q a y g) s fun n _ => q < 8 ∧ n.stack = k.stack ∧ (holds → go (.go (a % 8192)) n) ∧ (¬holds → go .none n)) ∧
    (∀ a, Issues (.callSub core a y g) s fun n _ => go (.go (a % 8192)) n ∧ k.stack.length < 8 ∧ n.stack = ((k.pc + 3) % 8192) :: k.stack) ∧
    (Issues (.retSub core y g) s fun n _ => ∃ a l, k.stack = a :: l ∧ go (.go a) n ∧ n.stack = l) ∧
    (Issues (.jmp core r y g) s fun n _ => r < 8 ∧ go (.go (regSeen k h .aOther (32 + r) % 8192)) n ∧ n.stack = k.stack) ∧
    (∀ a, Issues (.loopBack core r a y g) s fun n _ => dd (w - 1).toNat n ∧ n.stack = k.stack ∧
      (w = 1 → go .none n) ∧ (w ≠ 1 → go (.go (a % 8192)) n)) ∧
    (∀ c, Issues (.repImmediate core c y g) s fun n _ => 1 ≤ c ∧ c ≤ 4096 ∧ n.pc = (k.pc + 1) % 8192 ∧ n.rep = some c ∧ n.xfer = none ∧
      n.stack = k.stack) ∧
    (Issues (.repRegister core r y g) s fun n _ => w.toNat ≤ 4096 ∧ n.xfer = none ∧ n.stack = k.stack ∧
      (w = 0 → n.pc = (k.pc + 2) % 8192 ∧ n.rep = none) ∧ (w ≠ 0 → n.pc = (k.pc + 1) % 8192 ∧ n.rep = some w.toNat)) ∧
    (Issues (.rte core y g) s fun n _ => go .rte n ∧ n.stack = k.stack) ∧
    (Issues (.endItem core y g) s fun n _ => go .finish n ∧ n.stack = k.stack) ∧
    (Issues (.enq core r y g) s fun n d => r < 8 ∧ on n ∧
      let words := (List.range 8).map fun i => vecLoad s.dev core k h false ((regSeen k h .aOther (32 + r) + i) % 2 ^ 24)
      ∀ p, prodOf s.dev core = some p → 0 < creditsFree s.dev p ∧
        (descriptorOk s.dev words = true → d.wd.ready = s.dev.wd.ready ++ [⟨words, p, s.dev.wd.seq⟩] ∧ d.wd.seq = (s.dev.wd.seq + 1) % 2 ^ 32) ∧
        (descriptorOk s.dev words = false → d.wd.ready = s.dev.wd.ready)) ∧
    (Issues (.evsig core q y g) s fun n d => on n ∧ d.wd = s.dev.wd ∧
      (128 ≤ q % 1024 → liveB d (offEvtPend (q % 1024 / 32)) (q % 32) = true) ∧ (q % 1024 < 128 → liveB d offEvtStatus 0 = true)) ∧
    (Issues (.setscale core q y g) s fun n _ => on n ∧ regLast n h rSCALE = q % 32) ∧
    (Issues (.getsr core r y g) s fun n _ => on n ∧ dd (regSeen k h .getsr rSCALE % 32 + regSeen k h .getsr rZ % 2 * 2 ^ 8 +
      regSeen k h .getsr rN % 2 * 2 ^ 9 + regSeen k h .getsr rV % 2 * 2 ^ 10 + regSeen k h .sat rSL % 2 * 2 ^ 12 +
      regSeen k h .sat rSA % 2 * 2 ^ 13 + h.toNat * 2 ^ 16) n) ∧
    (Issues (.putsr core r y g) s fun n _ => on n ∧ regLast n h rSCALE = w.toNat % 32 ∧ regLast n h rZ = w.toNat / 2 ^ 8 % 2 ∧
      regLast n h rN = w.toNat / 2 ^ 9 % 2 ∧ regLast n h rV = w.toNat / 2 ^ 10 % 2 ∧
      (Unmoved s.dev core .none y rSL → regLast n h rSL = w.toNat / 2 ^ 12 % 2) ∧ regLast n h rSA = w.toNat / 2 ^ 13 % 2) ∧
    (Issues (.cyc core r y g) s fun n _ => on n ∧ dd (Config.cycles (1 + core) k.issued).toNat n) ∧
    (Issues (.cid core r y g) s fun n _ => on n ∧ dd core n) ∧
    (Issues (.putwb core r y g) s fun n _ => on n ∧ regLast n h rWB = w.toNat % 1024) ∧
    (Issues (.waitw core y g) s fun n _ => on n ∧ k.posted = false)

/-- R194, R197, R202 and R207 over every bundle command that is not a control instruction. That END in a handler and RTE outside one
transfer nothing is log entry 1's reading: the spec gives them no effect there. The writes that an interruption parks are log entry 241. -/
def Obligations.DelaySlotsRepeatsAndTransfersEnd : Prop :=
  ∀ (s : State) (c : Instr) (core : Nat) (b : Bundle), c.bundle = some (core, b) → (∀ o, b.op ≠ .ctl o) →
    let k := coreOf s.dev core
    let h := inHandler s.dev core
    Issues c s fun n d => n.stack = k.stack ∧
      (k.rep = none → k.xfer = none → n.pc = (k.pc + 1) % 8192 ∧ n.xfer = none ∧ n.rep = none) ∧
      (∀ m, k.rep = some m → (∀ f r i, b.op ≠ .li f r i) ∧
        (1 < m → k.xfer = none → n.pc = k.pc ∧ n.rep = some (m - 1)) ∧ (m ≤ 1 → k.xfer = none → n.pc = (k.pc + 1) % 8192 ∧ n.rep = none)) ∧
      (∀ m t, k.rep = none → k.xfer = some (m, t) → 1 < m → n.pc = (k.pc + 1) % 8192 ∧ n.xfer = some (m - 1, t)) ∧
      (∀ a, k.rep = none → k.xfer = some (1, .go a) → n.pc = a ∧ n.xfer = none) ∧
      (k.rep = none → k.xfer = some (1, .none) → n.pc = (k.pc + 1) % 8192 ∧ n.xfer = none) ∧
      (k.rep = none → k.xfer = some (1, .finish) ∨ k.xfer = some (1, .rte) → n.pc = (k.pc + 1) % 8192 ∧ n.xfer = none) ∧
      let e := transfer d core k h
      (k.rep = none → k.xfer = some (1, .finish) → h = false →
        (coreOf e core).ended = true ∧ coreState e core = 4 ∧ (coreOf e core).xfer = none ∧ (coreOf e core).item = k.item) ∧
      (k.rep = none → k.xfer = some (1, .rte) → h = true → inHandler e core = false ∧ (coreOf e core).pc = k.era ∧
        (coreOf e core).wait = none ∧ (coreOf e core).xfer = none ∧ (coreOf e core).rep = none ∧
        { coreOf e core with rte := n.rte } = { unpark (settleAll n) with pc := k.era, wait := none, xfer := none, rep := none } ∧
        (coreOf e core).rte = ((coreOf e core).regs.filter fun x => decide (64 ≤ x.1))) ∧
      ((k.xfer = some (1, .finish) → h = true) → (k.xfer = some (1, .rte) → h = false) → e = d)

/-- R184, R204, R209 and R218: ENQ_CREDIT_FREE, WAITW_DONE, WINDOW_READ_DATA and what a program fault does. An event whose condition
does not hold changes nothing (log entry 1); 207 is what a word of zeros at the PC spells, 241 what a handler that ends leaves. -/
def Obligations.VectorWaitsAndFaultsEnd : Prop :=
  (∀ (s : State) (core : Nat), core < 36 →
    let k := coreOf s.dev core
    let up := running s.dev blkVec = true
    (∀ b p, k.wait = some (.credit, b) → prodOf s.dev core = some p → up → 0 < creditsFree s.dev p →
      Runs (.enqCreditFree core) s fun d => d = complete s.dev core b ∧ (coreOf d core).wait = none) ∧
    ((∀ b p, ¬(k.wait = some (.credit, b) ∧ prodOf s.dev core = some p ∧ up ∧ 0 < creditsFree s.dev p)) →
      Runs (.enqCreditFree core) s fun d => d = s.dev) ∧
    (∀ b, k.wait = some (.posted, b) → up → Runs (.waitwDone core) s fun d =>
      d = complete (setCore s.dev core { k with posted := false }) core b ∧ (coreOf d core).wait = none) ∧
    ((∀ b, ¬(k.wait = some (.posted, b) ∧ up)) → Runs (.waitwDone core) s fun d => d = s.dev) ∧
    (∀ b, k.wait = some (.window, b) → up → waitsFor s.dev core k {} b.op = none → Runs (.windowReadData core true) s fun d =>
      d = complete s.dev core b ∧ (coreOf d core).wait = none) ∧
    (∀ b w, k.wait = some (.window, b) → up → waitsFor s.dev core k {} b.op = some w → Runs (.windowReadData core true) s fun d =>
      d = setCore s.dev core { k with wait := some (w, b) }) ∧
    (∀ b, k.wait = some (.window, b) → up → Runs (.windowReadData core false) s fun d =>
      d = vecFault (setCore (countError (core / 4 + 1) (0x2000000000 + windowReadOff k (inHandler s.dev core) b) false .data s.dev) core
        { k with wait := none }) core 5) ∧
    (∀ ok, (∀ b, ¬(k.wait = some (.window, b) ∧ up)) → Runs (.windowReadData core ok) s fun d => d = s.dev)) ∧
  (∀ (s : State) (c : Instr) (core : Nat) (b : Bundle) (f : Nat) (l : List Nat), c.bundle = some (core, b) → core < 36 →
    canIssue s.dev core = true →
    (decodeBundle (fetchWord (coreOf s.dev core)) = none ∧ f = 0 ∨ fetches (coreOf s.dev core) b = true ∧
      decodeBundle (fetchWord (coreOf s.dev core)) ≠ none ∧
      (bundleFx s.dev core (coreOf s.dev core) (inHandler s.dev core) b).faults = f :: l) → Runs c s fun d =>
      let k := coreOf s.dev core
      let n := coreOf d core
      f < 8 ∧ liveB d (offVecFault core) f = true ∧ liveB d offVecStatus 0 = true ∧ d.mem = s.dev.mem ∧
      liveF d (offVecFaultPc core) 12 0 = k.pc % 2 ^ 13 ∧ liveB d (offVecFaultPc core) 31 = inHandler s.dev core ∧
      liveF d offVecFaultCount 31 0 = min (liveF s.dev offVecFaultCount 31 0 + 1) (2 ^ 32 - 1) ∧
      (∀ j, j ≠ core → coreOf d j = coreOf s.dev j) ∧
      (inHandler s.dev core = true → inHandler d core = false ∧ n.pc = k.era ∧ n.wait = none ∧ n.xfer = none ∧ n.rep = none ∧
        n = { unpark (settleAll k) with pc := k.era, wait := none, xfer := none, rep := none }) ∧
      (inHandler s.dev core = false → k.item ≠ none →
        n.item = none ∧ n.wait = none ∧ n.xfer = none ∧ n.rep = none ∧
        coreState d core = (if posOf s.dev core = none then 0 else 1)))

/-- The Reset column of the register tables over all register banks; R13, R29 and R217 give the values named. The zero of unwritten memory
is log entry 17's choice, and that the machine starts before the standby reset is released is log entry 28's. -/
def Obligations.ResetLeavesTheResetColumn : Prop :=
  let d := State.reset.dev
  State.reset.pending = [] ∧
  (∀ off, liveGet d off = resetWord off ∧ shGet d off = resetWord off ∧ actGet d off = resetWord off ∧ snapGet d off = resetWord off) ∧
  liveGet d offSysDeviceId = 0x51534E31 ∧ (∀ p, p < 32 → liveF d (offWdProdCfg p) 12 0 = 32) ∧ liveF d (offWdProdCfg 32) 12 0 = 256 ∧
  liveF d (offWdProdCfg 33) 12 0 = 256 ∧ actB d offPmcTelemetry 8 = true ∧
  d.epc.epoch = 0 ∧ d.epc.period = 0 ∧ d.epc.commit = none ∧ d.wd.ready = [] ∧ d.boot.standby = true ∧ d.boot.phase = .reset ∧
  (∀ core, (coreOf d core).item = none ∧ (coreOf d core).wait = none ∧ (coreOf d core).stack = []) ∧
  (∀ a, byteGet d.mem.sram a = 0 ∧ byteGet d.mem.mem0 a = 0 ∧ byteGet d.mem.mem1 a = 0)

/-- The laws of the model's memories (SRAM, MEM0, MEM1 and the render window alike), log entries 16 and 17. -/
def Obligations.MemoryReadsWhatWasWritten : Prop :=
  (∀ (m : List (Nat × Byte)) (a : Nat) (bs : List Byte),
    bytesGet (bytesSet m a bs) a bs.length = bs ∧
    (∀ j, j < a ∨ a + bs.length ≤ j → byteGet (bytesSet m a bs) j = byteGet m j) ∧
    (∀ i, i < bs.length → byteGet (bytesSet m a bs) (a + i) = bs.getD i 0) ∧
    (mapWf byte0 m = true → mapWf byte0 (bytesSet m a bs) = true)) ∧
  (∀ (m : List (Nat × Byte)) (a : Nat) (w : Word), wordGet (wordSet m a w) a = w ∧
    (∀ i, i < 4 → (byteGet (wordSet m a w) (a + i)).toNat = w.toNat / 256 ^ i % 256) ∧
    ∀ j, j + 4 ≤ a ∨ a + 4 ≤ j → wordGet (wordSet m a w) j = wordGet m j) ∧
  (∀ (m n : List (Nat × Byte)), mapWf byte0 m = true → mapWf byte0 n = true → (∀ a, byteGet m a = byteGet n a) → m = n) ∧
  (∀ (m : List (Nat × Byte)) (a b : Nat) (bs cs : List Byte), mapWf byte0 m = true → a + bs.length ≤ b →
    bytesSet (bytesSet m a bs) b cs = bytesSet (bytesSet m b cs) a bs)

/-- R4 for `rne`, the one rounding of the model, and R3's signed formats for `satS`, `code` and `sext`. -/
def Obligations.ReductionsRoundToNearestEven : Prop :=
  (∀ (x : Int) (den : Nat), 0 < den →
    2 * |x - den * rne x den| ≤ den ∧ (2 * |x - den * rne x den| = den → rne x den % 2 = 0) ∧
    (∀ q : Int, 2 * |x - den * q| < den → rne x den = q) ∧ rne (den * x) den = x ∧ rne (-x) den = -rne x den ∧
    (∀ y, x ≤ y → rne x den ≤ rne y den) ∧ (∀ k : Nat, 0 < k → rne (x * k) (den * k) = rne x den)) ∧
  (∀ (n : Nat) (x : Int), 0 < n →
    -2 ^ (n - 1) ≤ satS n x ∧ satS n x < 2 ^ (n - 1) ∧ (-2 ^ (n - 1) ≤ x → x < 2 ^ (n - 1) → satS n x = x) ∧
    (x < -2 ^ (n - 1) → satS n x = -2 ^ (n - 1)) ∧ (2 ^ (n - 1) ≤ x → satS n x = 2 ^ (n - 1) - 1) ∧
    (overS n x = true ↔ x < -2 ^ (n - 1) ∨ 2 ^ (n - 1) ≤ x) ∧ sext n (code n (satS n x)) = satS n x ∧
    ∀ v : Nat, code n (sext n v) = v % 2 ^ n)
end

