-- ==== Sys2Proof/Laws/Map.lean ====
section
/-!
SUPPORT. Sys2Proof/Laws/Map.lean: what the operations on sparse maps do: a read after a write, and the canonical form.
-/
namespace Sys2Proof.Machine

variable {α : Type}

theorem mapDel_eq_filter (m : List (Nat × α)) (k : Nat) : mapDel m k = m.filter fun p => decide (p.1 ≠ k) := by
  induction m with
  | nil => rfl
  | cons p t ih =>
    obtain ⟨k', v⟩ := p
    by_cases h : k' = k <;> simp [mapDel, h, ih]

theorem mapGet_mapDel_self (d : Nat → α) (m : List (Nat × α)) (k : Nat) : mapGet d (mapDel m k) k = d k := by
  induction m with
  | nil => rfl
  | cons p t ih =>
    obtain ⟨k', v⟩ := p
    by_cases h : k' = k <;> simp [mapDel, mapGet, h, ih]

theorem mapGet_mapDel_other (d : Nat → α) (m : List (Nat × α)) {k j : Nat} (h : j ≠ k) :
    mapGet d (mapDel m k) j = mapGet d m j := by
  induction m with
  | nil => rfl
  | cons p t ih =>
    obtain ⟨k', v⟩ := p
    by_cases h1 : k' = k
    · subst h1; simp [mapDel, mapGet, ih, Ne.symm h]
    · by_cases h2 : k' = j
      · subst h2; simp [mapDel, mapGet, h1]
      · simp [mapDel, mapGet, h1, h2, ih]

theorem mapGet_mapIns_self (d : Nat → α) (m : List (Nat × α)) (k : Nat) (v : α) (h : ∀ p ∈ m, p.1 ≠ k) :
    mapGet d (mapIns m k v) k = v := by
  induction m with
  | nil => simp [mapIns, mapGet]
  | cons p t ih =>
    obtain ⟨k', w⟩ := p
    have hk : k' ≠ k := h (k', w) (by simp)
    by_cases h1 : k < k'
    · simp [mapIns, mapGet, h1]
    · simp [mapIns, mapGet, h1, hk, ih fun p hp => h p (by simp [hp])]

theorem mapGet_mapIns_other (d : Nat → α) (m : List (Nat × α)) {k j : Nat} (v : α) (h : j ≠ k) :
    mapGet d (mapIns m k v) j = mapGet d m j := by
  induction m with
  | nil => simp [mapIns, mapGet, Ne.symm h]
  | cons p t ih =>
    obtain ⟨k', w⟩ := p
    by_cases h1 : k < k'
    · simp [mapIns, mapGet, h1, Ne.symm h]
    · rw [mapIns, if_neg h1]
      simp [mapGet, ih]

theorem mapDel_keys (m : List (Nat × α)) (k : Nat) : ∀ p ∈ mapDel m k, p.1 ≠ k := by
  rw [mapDel_eq_filter]
  intro p hp
  simpa using (List.mem_filter.mp hp).2

variable [DecidableEq α]

/-- A read of the key just written gives the value written. -/
@[simp] theorem mapGet_mapSet_self (d : Nat → α) (m : List (Nat × α)) (k : Nat) (v : α) : mapGet d (mapSet d m k v) k = v := by
  unfold mapSet
  split
  · next h => rw [mapGet_mapDel_self, h]
  · exact mapGet_mapIns_self d _ k v (mapDel_keys m k)

/-- A write leaves what every other key reads as. -/
theorem mapGet_mapSet_other (d : Nat → α) (m : List (Nat × α)) {k j : Nat} (v : α) (h : j ≠ k) :
    mapGet d (mapSet d m k v) j = mapGet d m j := by
  unfold mapSet
  split
  · exact mapGet_mapDel_other d m h
  · rw [mapGet_mapIns_other d _ v h, mapGet_mapDel_other d m h]

theorem mapGet_mapSet (d : Nat → α) (m : List (Nat × α)) (k j : Nat) (v : α) :
    mapGet d (mapSet d m k v) j = if j = k then v else mapGet d m j := by
  split
  · next h => rw [h, mapGet_mapSet_self]
  · next h => exact mapGet_mapSet_other d m v h

/-- The canonical form says: keys strictly rise, and no entry equals its default. -/
theorem mapWf_iff (d : Nat → α) (m : List (Nat × α)) :
    mapWf d m = true ↔ m.Pairwise (fun a b => a.1 < b.1) ∧ ∀ p ∈ m, p.2 ≠ d p.1 := by
  induction m with
  | nil => simp [mapWf]
  | cons p t ih =>
    obtain ⟨k, v⟩ := p
    cases t with
    | nil => simp [mapWf]
    | cons q u =>
      obtain ⟨k', w⟩ := q
      simp only [mapWf, Bool.and_eq_true, decide_eq_true_eq, List.pairwise_cons] at ih ⊢
      constructor
      · rintro ⟨⟨h1, h2⟩, h3⟩
        obtain ⟨⟨h4, h5⟩, h6⟩ := ih.mp h3
        refine ⟨⟨?_, h4, h5⟩, ?_⟩
        · intro a ha
          rcases List.mem_cons.mp ha with rfl | ha
          · exact h2
          · exact Nat.lt_trans h2 (h4 a ha)
        · intro a ha
          rcases List.mem_cons.mp ha with rfl | ha
          · exact h1
          · exact h6 a ha
      · rintro ⟨⟨h1, h2, h3⟩, h4⟩
        exact ⟨⟨h4 (k, v) (by simp), h1 (k', w) (by simp)⟩,
          ih.mpr ⟨⟨h2, h3⟩, fun a ha => h4 a (List.mem_cons_of_mem _ ha)⟩⟩

/-- Entries taken out leave the canonical form. -/
theorem mapWf_filter (d : Nat → α) (f : Nat × α → Bool) {m : List (Nat × α)} (h : mapWf d m = true) :
    mapWf d (m.filter f) = true := by
  rw [mapWf_iff] at h ⊢
  exact ⟨h.1.filter f, fun p hp => h.2 p (List.mem_filter.mp hp).1⟩

theorem mapWf_mapDel (d : Nat → α) {m : List (Nat × α)} (k : Nat) (h : mapWf d m = true) : mapWf d (mapDel m k) = true := by
  rw [mapDel_eq_filter]
  exact mapWf_filter d _ h

omit [DecidableEq α] in
theorem mem_mapIns {m : List (Nat × α)} {k : Nat} {v : α} {p : Nat × α} (h : p ∈ mapIns m k v) : p = (k, v) ∨ p ∈ m := by
  induction m with
  | nil => simpa [mapIns] using h
  | cons q t ih =>
    obtain ⟨k', w⟩ := q
    by_cases h1 : k < k'
    · simpa [mapIns, h1] using h
    · rw [mapIns, if_neg h1, List.mem_cons] at h
      rcases h with h | h
      · exact .inr (by simp [h])
      · rcases ih h with h | h
        · exact .inl h
        · exact .inr (List.mem_cons_of_mem _ h)

theorem mapWf_mapIns (d : Nat → α) {m : List (Nat × α)} {k : Nat} {v : α} (h : mapWf d m = true) (hk : ∀ p ∈ m, p.1 ≠ k)
    (hv : v ≠ d k) : mapWf d (mapIns m k v) = true := by
  rw [mapWf_iff] at h ⊢
  refine ⟨?_, fun p hp => ?_⟩
  · obtain ⟨h1, -⟩ := h
    induction m with
    | nil => simp [mapIns]
    | cons q t ih =>
      obtain ⟨k', w⟩ := q
      rw [List.pairwise_cons] at h1
      by_cases h2 : k < k'
      · rw [mapIns, if_pos h2, List.pairwise_cons]
        refine ⟨fun a ha => ?_, List.pairwise_cons.mpr h1⟩
        rcases List.mem_cons.mp ha with rfl | ha
        · exact h2
        · exact Nat.lt_trans h2 (h1.1 a ha)
      · rw [mapIns, if_neg h2, List.pairwise_cons]
        refine ⟨fun a ha => ?_, ih (fun p hp => hk p (by simp [hp])) h1.2⟩
        rcases mem_mapIns ha with rfl | ha
        · have := hk (k', w) (by simp)
          simp only at this ⊢
          omega
        · exact h1.1 a ha
  · rcases mem_mapIns hp with rfl | hp
    · exact hv
    · exact h.2 p hp

/-- A write keeps the canonical form. -/
theorem mapWf_mapSet (d : Nat → α) {m : List (Nat × α)} (k : Nat) (v : α) (h : mapWf d m = true) :
    mapWf d (mapSet d m k v) = true := by
  unfold mapSet
  split
  · exact mapWf_mapDel d k h
  · next hv => exact mapWf_mapIns d (mapWf_mapDel d k h) (mapDel_keys m k) hv

theorem mapWf_mapUpd (d : Nat → α) {m : List (Nat × α)} (k : Nat) (f : α → α) (h : mapWf d m = true) :
    mapWf d (mapUpd d m k f) = true := mapWf_mapSet d k _ h

/-- A run of writes keeps the canonical form. -/
theorem mapWf_mapSetRun (d : Nat → α) {m : List (Nat × α)} (k : Nat) (vs : List α) (h : mapWf d m = true) :
    mapWf d (mapSetRun d m k vs) = true := by
  induction vs generalizing m k with
  | nil => exact h
  | cons v t ih => exact ih (k + 1) (mapWf_mapSet d k v h)

/-- What a key reads as after a run of writes. -/
theorem mapGet_mapSetRun (d : Nat → α) (m : List (Nat × α)) (k : Nat) (vs : List α) (j : Nat) :
    mapGet d (mapSetRun d m k vs) j = if k ≤ j then vs.getD (j - k) (mapGet d m j) else mapGet d m j := by
  induction vs generalizing m k with
  | nil => simp [mapSetRun]
  | cons v t ih =>
    rw [mapSetRun, ih, mapGet_mapSet]
    rcases Nat.lt_trichotomy j k with h | h | h
    · rw [if_neg (by omega), if_neg (by omega), if_neg (by omega)]
    · subst h
      rw [if_neg (by omega), if_pos rfl, if_pos (by omega)]
      simp
    · rw [if_pos (by omega), if_neg (by omega), if_pos (by omega)]
      obtain ⟨n, rfl⟩ : ∃ n, j = k + 1 + n := ⟨j - (k + 1), by omega⟩
      rw [show k + 1 + n - (k + 1) = n by omega, show k + 1 + n - k = n + 1 by omega]
      simp

/-- The canonical form over values that no unlisted key reads as is that keys rise. -/
theorem keysRise_iff (m : List (Nat × α)) :
    keysRise m ↔ mapWf (fun _ => none) (m.map fun p => (p.1, some p.2)) = true := by
  rw [mapWf_iff, List.pairwise_map]
  refine ⟨fun h => ⟨h, fun p hp => ?_⟩, fun h => h.1⟩
  obtain ⟨q, -, rfl⟩ := List.mem_map.mp hp
  exact Option.some_ne_none _

omit [DecidableEq α] in
theorem mapDel_map {β : Type} (f : α → β) (m : List (Nat × α)) (k : Nat) :
    (mapDel m k).map (fun p => (p.1, f p.2)) = mapDel (m.map fun p => (p.1, f p.2)) k := by
  rw [mapDel_eq_filter, mapDel_eq_filter, List.filter_map]
  rfl

omit [DecidableEq α] in
theorem mapIns_map {β : Type} (f : α → β) (m : List (Nat × α)) (k : Nat) (v : α) :
    (mapIns m k v).map (fun p => (p.1, f p.2)) = mapIns (m.map fun p => (p.1, f p.2)) k (f v) := by
  induction m with
  | nil => rfl
  | cons p t ih =>
    obtain ⟨k', w⟩ := p
    by_cases h : k < k' <;> simp [mapIns, h, ih]

/-- Putting an entry in place of another keeps the keys rising. -/
theorem keysRise_put {m : List (Nat × α)} (k : Nat) (v : α) (h : keysRise m) : keysRise (mapIns (mapDel m k) k v) := by
  rw [keysRise_iff] at h ⊢
  rw [mapIns_map, mapDel_map]
  exact mapWf_mapIns _ (mapWf_mapDel _ k h) (mapDel_keys _ k) (by simp)

end Sys2Proof.Machine
end

