-- ==== Sys2Proof/Laws/Quiet.lean ====
section
/-!
SUPPORT. Sys2Proof/Laws/Quiet.lean: what most operations of the device have in common. `Quiet`: they write current register values and
state of their own unit, never a shadow copy, an active copy, the snapshot, a memory or the epoch. `Sound`: they keep the canonical
form. Each rule below takes apart one way of building a device, so that every operation has a short proof.
-/
namespace Sys2Proof.Machine

/-- b is canonical where a is. -/
structure Sound (a b : Dev) : Prop where
  /-- The canonical form is kept. -/
  canon : Canonical a → Canonical b

/-- b has a's configuration (shadow and active copies), snapshot, memories and epoch, and its current values stay canonical. The tables
of a reload in the standby half of the render configuration window may change. -/
structure Quiet (a b : Dev) : Prop where
  /-- Current values keep the canonical form. -/
  live : mapWf resetWord a.regs.live = true → mapWf resetWord b.regs.live = true
  /-- Shadow copies. -/
  shadow : b.regs.shadow = a.regs.shadow
  /-- Active copies. -/
  act : b.regs.act = a.regs.act
  /-- The snapshot bank. -/
  snap : b.regs.snap = a.regs.snap
  /-- Every byte of memory, but the standby tables that a reload has loaded. -/
  mem : { b.mem with standby := a.mem.standby } = a.mem
  /-- The memories keep the canonical form. -/
  memory : MemCanonical a.mem → MemCanonical b.mem
  /-- The epoch. -/
  epoch : b.epc.epoch = a.epc.epoch
  /-- Engine periods of the epoch. -/
  period : b.epc.period = a.epc.period

theorem Quiet.sound {a b : Dev} (h : Quiet a b) : Sound a b :=
  ⟨fun c => ⟨h.live c.live, h.shadow ▸ c.shadow, h.act ▸ c.act, h.snap ▸ c.snap, h.memory c.mem, h.epoch ▸ c.epoch,
    h.period ▸ c.period⟩⟩

theorem Quiet.refl (a : Dev) : Quiet a a := ⟨id, rfl, rfl, rfl, rfl, id, rfl, rfl⟩

theorem Sound.refl (a : Dev) : Sound a a := ⟨id⟩

theorem Quiet.trans {a b c : Dev} (h : Quiet a b) (k : Quiet b c) : Quiet a c :=
  ⟨fun x => k.live (h.live x), k.shadow.trans h.shadow, k.act.trans h.act, k.snap.trans h.snap, by rw [← h.mem, ← k.mem], fun x => k.memory (h.memory x),
    k.epoch.trans h.epoch, k.period.trans h.period⟩

theorem Sound.trans {a b c : Dev} (h : Sound a b) (k : Sound b c) : Sound a c := ⟨fun x => k.canon (h.canon x)⟩

/-- What follows from another operation's being quiet. -/
theorem Sound.transQuiet {a b c : Dev} (h : Sound a b) (k : Quiet b c) : Sound a c := h.trans k.sound

theorem Quiet.cut {a x y : Dev} (h : Quiet a x) (k : Quiet a x → Quiet a y) : Quiet a y := k h

theorem Sound.cut {a x y : Dev} (h : Sound a x) (k : Sound a x → Sound a y) : Sound a y := k h

theorem Quiet.ite {a b c : Dev} {p : Prop} [Decidable p] (h : Quiet a b) (k : Quiet a c) : Quiet a (if p then b else c) := by
  split <;> assumption

theorem Sound.ite {a b c : Dev} {p : Prop} [Decidable p] (h : Sound a b) (k : Sound a c) : Sound a (if p then b else c) := by
  split <;> assumption

/-- `Quiet` sees the registers, the memories and the epoch alone. -/
def QuietAt (a : Dev) (r : Regs) (m : Mem) (e p : Nat) : Prop :=
  ∀ b : Dev, b.regs = r → b.mem = m → b.epc.epoch = e → b.epc.period = p → Quiet a b

def SoundAt (a : Dev) (r : Regs) (m : Mem) (e p : Nat) : Prop :=
  ∀ b : Dev, b.regs = r → b.mem = m → b.epc.epoch = e → b.epc.period = p → Sound a b

theorem Quiet.make {a : Dev}
    {regs : Regs} {epc : Epc} {err : Err} {boot : Boot} {pmc : Pmc} {mgmt : Mgmt} {perf : Perf} {cap : Cap} {gains : List
    (Nat × GainCell)} {gens : List (Nat × Gen)} {neti : Plane} {neto : Plane} {sap : Sap} {cnd : Cnd} {obj : Obj} {geo :
    Geo} {xp : Xp} {rc : Rc} {vec : Vec} {moon : Moon} {twn : Twn} {wd : Wd} {evt : Evt} {mem : Mem} {dram0 : Dram} {dram1 :
    Dram} {xbar : Xbar} {ptpi : PtpInst} {ptpo : PtpInst} {servo : Servo} {clk : Clk} {path : Path} :
    Quiet a
      ⟨regs, epc, err, boot, pmc, mgmt, perf, cap, gains, gens, neti, neto, sap, cnd, obj, geo, xp, rc, vec, moon,
        twn, wd, evt, mem, dram0, dram1, xbar, ptpi, ptpo, servo, clk, path⟩ = QuietAt a regs mem epc.epoch epc.period := by
  refine propext ⟨fun h b hr hm he hp => h.trans ⟨?_, ?_, ?_, ?_, ?_, ?_, he, hp⟩, fun h => h _ rfl rfl rfl rfl⟩
  · rw [hr]; exact id
  · rw [hr]
  · rw [hr]
  · rw [hr]
  · rw [hm]
  · rw [hm]; exact id

theorem Sound.make {a : Dev}
    {regs : Regs} {epc : Epc} {err : Err} {boot : Boot} {pmc : Pmc} {mgmt : Mgmt} {perf : Perf} {cap : Cap} {gains : List
    (Nat × GainCell)} {gens : List (Nat × Gen)} {neti : Plane} {neto : Plane} {sap : Sap} {cnd : Cnd} {obj : Obj} {geo :
    Geo} {xp : Xp} {rc : Rc} {vec : Vec} {moon : Moon} {twn : Twn} {wd : Wd} {evt : Evt} {mem : Mem} {dram0 : Dram} {dram1 :
    Dram} {xbar : Xbar} {ptpi : PtpInst} {ptpo : PtpInst} {servo : Servo} {clk : Clk} {path : Path} :
    Sound a
      ⟨regs, epc, err, boot, pmc, mgmt, perf, cap, gains, gens, neti, neto, sap, cnd, obj, geo, xp, rc, vec, moon,
        twn, wd, evt, mem, dram0, dram1, xbar, ptpi, ptpo, servo, clk, path⟩ = SoundAt a regs mem epc.epoch epc.period := by
  refine propext ⟨fun h b hr hm he hp => h.transQuiet ⟨?_, ?_, ?_, ?_, ?_, ?_, he, hp⟩, fun h => h _ rfl rfl rfl rfl⟩
  · rw [hr]; exact id
  · rw [hr]
  · rw [hr]
  · rw [hr]
  · rw [hm]
  · rw [hm]; exact id

theorem Quiet.of {a b : Dev} (h : Quiet a b) : QuietAt a b.regs b.mem b.epc.epoch b.epc.period := by
  intro c hr hm he hp
  refine h.trans ⟨?_, ?_, ?_, ?_, ?_, ?_, he, hp⟩
  · rw [hr]; exact id
  · rw [hr]
  · rw [hr]
  · rw [hr]
  · rw [hm]
  · rw [hm]; exact id

theorem Sound.of {a b : Dev} (h : Sound a b) : SoundAt a b.regs b.mem b.epc.epoch b.epc.period := by
  intro c hr hm he hp
  refine h.transQuiet ⟨?_, ?_, ?_, ?_, ?_, ?_, he, hp⟩
  · rw [hr]; exact id
  · rw [hr]
  · rw [hr]
  · rw [hr]
  · rw [hm]
  · rw [hm]; exact id

theorem Quiet.foldl {β : Type} {f : Dev → β → Dev} {a b : Dev} {l : List β} (hf : ∀ d x, Quiet d (f d x)) (h : Quiet a b) :
    Quiet a (l.foldl f b) := by
  induction l generalizing b with
  | nil => exact h
  | cons x t ih => exact ih (h.trans (hf b x))

theorem Sound.foldl {β : Type} {f : Dev → β → Dev} {a b : Dev} {l : List β} (hf : ∀ d x, Sound d (f d x)) (h : Sound a b) :
    Sound a (l.foldl f b) := by
  induction l generalizing b with
  | nil => exact h
  | cons x t ih => exact ih (h.trans (hf b x))

/-- A fold that carries a value beside the device. -/
theorem Quiet.foldlFst {β γ : Type} {f : Dev × γ → β → Dev × γ} {a : Dev} {l : List β} {p : Dev × γ}
    (hf : ∀ p x, Quiet p.1 (f p x).1) (h : Quiet a p.1) : Quiet a (l.foldl f p).1 := by
  induction l generalizing p with
  | nil => exact h
  | cons x t ih => exact ih (h.trans (hf p x))

theorem Sound.foldlFst {β γ : Type} {f : Dev × γ → β → Dev × γ} {a : Dev} {l : List β} {p : Dev × γ}
    (hf : ∀ p x, Sound p.1 (f p x).1) (h : Sound a p.1) : Sound a (l.foldl f p).1 := by
  induction l generalizing p with
  | nil => exact h
  | cons x t ih => exact ih (h.trans (hf p x))

/-! ### The operations of the register file -/

theorem liveSet_quiet {o₀ : Dev} (d : Dev) (off : Nat) (w : Word) (h₀ : Quiet o₀ d) : Quiet o₀ (liveSet d off w) :=
  h₀.trans ⟨mapWf_mapSet _ _ _, rfl, rfl, rfl, rfl, id, rfl, rfl⟩

theorem shSet_sound {o₀ : Dev} (d : Dev) (off : Nat) (w : Word) (h₀ : Sound o₀ d) : Sound o₀ (shSet d off w) :=
  h₀.trans ⟨fun h => ⟨h.live, mapWf_mapSet _ _ _ h.shadow, h.act, h.snap, h.mem, h.epoch, h.period⟩⟩

theorem actSet_sound {o₀ : Dev} (d : Dev) (off : Nat) (w : Word) (h₀ : Sound o₀ d) : Sound o₀ (actSet d off w) := by
  refine h₀.trans ⟨fun h => ⟨h.live, h.shadow, ?_, h.snap, h.mem, h.epoch, h.period⟩⟩
  intro p hp
  obtain ⟨q, hq, rfl⟩ := List.mem_map.mp hp
  exact mapWf_mapSet _ _ _ (h.act q hq)

end Sys2Proof.Machine
end

