-- ==== Sys2Proof/Laws/QuietOps.lean ====
section
/-!
SUPPORT. Sys2Proof/Laws/QuietOps.lean: for each operation of Machine/Ops.lean, that it is `Quiet` (or only `Sound`).
-/
set_option linter.all false
namespace Sys2Proof.Machine

theorem liveSetF_quiet {o₀ : Dev} (d : Dev) (off hi lo v : Nat) (h₀ : Quiet o₀ d) : Quiet o₀ (liveSetF d off hi lo v) := by
  refine h₀.trans ?_
  unfold liveSetF
  repeat' first
    | with_reducible exact Quiet.refl _
    | with_reducible assumption
    | with_reducible apply liveSet_quiet

theorem liveSetB_quiet {o₀ : Dev} (d : Dev) (off i : Nat) (b : Bool) (h₀ : Quiet o₀ d) : Quiet o₀ (liveSetB d off i b) := by
  refine h₀.trans ?_
  unfold liveSetB
  repeat' first
    | with_reducible exact Quiet.refl _
    | with_reducible assumption
    | with_reducible apply liveSet_quiet

theorem bumpBy_quiet {o₀ : Dev} (d : Dev) (off n : Nat) (h₀ : Quiet o₀ d) : Quiet o₀ (bumpBy d off n) := by
  refine h₀.trans ?_
  unfold bumpBy
  repeat' first
    | with_reducible exact Quiet.refl _
    | with_reducible assumption
    | with_reducible apply liveSet_quiet

theorem bump_quiet {o₀ : Dev} (d : Dev) (off : Nat) (h₀ : Quiet o₀ d) : Quiet o₀ (bump d off) := by
  refine h₀.trans ?_
  unfold bump
  repeat' first
    | with_reducible exact Quiet.refl _
    | with_reducible assumption
    | with_reducible apply bumpBy_quiet

theorem bumpSat_quiet {o₀ : Dev} (d : Dev) (off hi lo : Nat) (h₀ : Quiet o₀ d) : Quiet o₀ (bumpSat d off hi lo) := by
  refine h₀.trans ?_
  unfold bumpSat
  repeat' first
    | (extract_lets +onlyGivenNames x; first | refine Quiet.cut (x := x) ?_ (fun hx => ?_) <;> [(clear_value (hv : x = _); rw [hv]); clear_value x] | clear_value x | skip)
    | with_reducible exact Quiet.refl _
    | with_reducible assumption
    | with_reducible apply Quiet.ite
    | with_reducible apply liveSetF_quiet
    | split

theorem liveMax_quiet {o₀ : Dev} (d : Dev) (off hi lo v : Nat) (h₀ : Quiet o₀ d) : Quiet o₀ (liveMax d off hi lo v) := by
  refine h₀.trans ?_
  unfold liveMax
  repeat' first
    | with_reducible exact Quiet.refl _
    | with_reducible assumption
    | with_reducible apply Quiet.ite
    | with_reducible apply liveSetF_quiet
    | split

theorem releaseOut_quiet {o₀ : Dev} (d : Dev) (h₀ : Quiet o₀ d) : Quiet o₀ (releaseOut d) := by
  refine h₀.trans ?_
  unfold releaseOut
  repeat' first
    | (extract_lets +onlyGivenNames x; first | refine Quiet.cut (x := x) ?_ (fun hx => ?_) <;> [(clear_value (hv : x = _); rw [hv]); clear_value x] | clear_value x | skip)
    | with_reducible exact Quiet.refl _
    | with_reducible assumption
    | simp -zeta only [↓ Quiet.make]
    | with_reducible refine Quiet.of ?_
    | with_reducible refine Quiet.foldl (fun d x => ?_) ?_
    | with_reducible refine Quiet.foldlFst (fun d x => ?_) ?_
    | with_reducible apply liveSetB_quiet
    | (dsimp -zeta only)

theorem fatalEffects_quiet {o₀ : Dev} (d : Dev) (source code : Nat) (h₀ : Quiet o₀ d) : Quiet o₀ (fatalEffects d source code) := by
  refine h₀.trans ?_
  unfold fatalEffects
  repeat' first
    | (extract_lets +onlyGivenNames x; first | refine Quiet.cut (x := x) ?_ (fun hx => ?_) <;> [(clear_value (hv : x = _); rw [hv]); clear_value x] | clear_value x | skip)
    | with_reducible exact Quiet.refl _
    | with_reducible assumption
    | simp -zeta only [↓ Quiet.make]
    | with_reducible refine Quiet.of ?_
    | with_reducible apply Quiet.ite
    | with_reducible apply liveSet_quiet
    | with_reducible apply liveSetB_quiet
    | with_reducible apply releaseOut_quiet
    | split

theorem raiseErr_quiet {o₀ : Dev} (d : Dev) (source code : Nat) (arg0 arg1 : Word) (h₀ : Quiet o₀ d) : Quiet o₀ (raiseErr d source code arg0 arg1) := by
  refine h₀.trans ?_
  unfold raiseErr
  repeat' first
    | (extract_lets +onlyGivenNames x; first | refine Quiet.cut (x := x) ?_ (fun hx => ?_) <;> [(clear_value (hv : x = _); rw [hv]); clear_value x] | clear_value x | skip)
    | with_reducible exact Quiet.refl _
    | with_reducible assumption
    | simp -zeta only [↓ Quiet.make]
    | with_reducible refine Quiet.of ?_
    | with_reducible apply Quiet.ite
    | with_reducible apply bumpSat_quiet
    | with_reducible apply fatalEffects_quiet
    | split
    | (dsimp -zeta only)

theorem raiseEvt_quiet {o₀ : Dev} (d : Dev) (s : Nat) (h₀ : Quiet o₀ d) : Quiet o₀ (raiseEvt d s) := by
  refine h₀.trans ?_
  unfold raiseEvt
  repeat' first
    | with_reducible exact Quiet.refl _
    | with_reducible assumption
    | with_reducible apply Quiet.ite
    | with_reducible apply liveSetB_quiet
    | with_reducible apply bump_quiet
    | split

theorem raiseOwn_quiet {o₀ : Dev} (d : Dev) (s : Nat) (h₀ : Quiet o₀ d) : Quiet o₀ (raiseOwn d s) := by
  refine h₀.trans ?_
  unfold raiseOwn
  repeat' first
    | with_reducible exact Quiet.refl _
    | with_reducible assumption
    | with_reducible apply Quiet.ite
    | with_reducible apply raiseEvt_quiet
    | split

theorem perfAdd_quiet {o₀ : Dev} (d : Dev) (b k n : Nat) (h₀ : Quiet o₀ d) : Quiet o₀ (perfAdd d b k n) := by
  refine h₀.trans ?_
  unfold perfAdd
  repeat' first
    | (extract_lets +onlyGivenNames x; first | refine Quiet.cut (x := x) ?_ (fun hx => ?_) <;> [(clear_value (hv : x = _); rw [hv]); clear_value x] | clear_value x | skip)
    | with_reducible exact Quiet.refl _
    | with_reducible assumption
    | with_reducible apply Quiet.ite
    | with_reducible apply liveSet_quiet
    | with_reducible apply liveSetB_quiet
    | split

theorem perfHit_quiet {o₀ : Dev} (d : Dev) (b c n : Nat) (h₀ : Quiet o₀ d) : Quiet o₀ (perfHit d b c n) := by
  refine h₀.trans ?_
  unfold perfHit
  repeat' first
    | with_reducible exact Quiet.refl _
    | with_reducible assumption
    | with_reducible apply Quiet.ite
    | with_reducible refine Quiet.foldl (fun d x => ?_) ?_
    | with_reducible refine Quiet.foldlFst (fun d x => ?_) ?_
    | with_reducible apply perfAdd_quiet
    | split
    | (dsimp -zeta only)

theorem perfSpan_quiet {o₀ : Dev} (d : Dev) (b c n : Nat) (h₀ : Quiet o₀ d) : Quiet o₀ (perfSpan d b c n) := by
  refine h₀.trans ?_
  unfold perfSpan
  repeat' first
    | with_reducible exact Quiet.refl _
    | with_reducible assumption
    | with_reducible apply Quiet.ite
    | with_reducible refine Quiet.foldl (fun d x => ?_) ?_
    | with_reducible refine Quiet.foldlFst (fun d x => ?_) ?_
    | with_reducible apply perfAdd_quiet
    | split
    | (dsimp -zeta only)

theorem fieldWrite_sound {o₀ : Dev} (off : Nat) (val : Word) (acc : Dev × Bool × Bool) (f : FieldDesc) (h₀ : Sound o₀ acc.1) : Sound o₀ (fieldWrite off val acc f).1 := by
  refine h₀.trans ?_
  unfold fieldWrite
  repeat' first
    | (extract_lets +onlyGivenNames x; first | refine Sound.cut (x := x) ?_ (fun hx => ?_) <;> [(clear_value (hv : x = _); rw [hv]); clear_value x] | clear_value x | skip)
    | with_reducible exact Sound.refl _
    | with_reducible assumption
    | simp -zeta only [↓ Sound.make]
    | with_reducible refine Sound.of ?_
    | with_reducible apply Sound.ite
    | with_reducible apply Sound.transQuiet (k := liveSet_quiet (h₀ := .refl _) ..)
    | with_reducible apply Sound.transQuiet (k := liveSetF_quiet (h₀ := .refl _) ..)
    | with_reducible apply shSet_sound
    | split
    | (dsimp -zeta only)

theorem staticReject_quiet {o₀ : Dev} (d : Dev) (off : Nat) (val : Word) (h₀ : Quiet o₀ d) : Quiet o₀ (staticReject d off val) := by
  refine h₀.trans ?_
  unfold staticReject
  repeat' first
    | (extract_lets +onlyGivenNames x; first | refine Quiet.cut (x := x) ?_ (fun hx => ?_) <;> [(clear_value (hv : x = _); rw [hv]); clear_value x] | clear_value x | skip)
    | with_reducible exact Quiet.refl _
    | with_reducible assumption
    | with_reducible apply liveSet_quiet
    | with_reducible apply bumpSat_quiet
    | with_reducible apply raiseErr_quiet

theorem reservedCode_quiet {o₀ : Dev} (d : Dev) (off : Nat) (val : Word) (h₀ : Quiet o₀ d) : Quiet o₀ (reservedCode d off val) := by
  refine h₀.trans ?_
  unfold reservedCode
  repeat' first
    | (extract_lets +onlyGivenNames x; first | refine Quiet.cut (x := x) ?_ (fun hx => ?_) <;> [(clear_value (hv : x = _); rw [hv]); clear_value x] | clear_value x | skip)
    | with_reducible exact Quiet.refl _
    | with_reducible assumption
    | with_reducible apply Quiet.ite
    | with_reducible apply liveSetB_quiet
    | with_reducible apply raiseErr_quiet
    | split

theorem regStore_sound {o₀ : Dev} (d : Dev) (off : Nat) (val : Word) (h₀ : Sound o₀ d) : Sound o₀ (regStore d off val).1 := by
  refine h₀.trans ?_
  unfold regStore
  repeat' first
    | (extract_lets +onlyGivenNames x; first | refine Sound.cut (x := x) ?_ (fun hx => ?_) <;> [(clear_value (hv : x = _); rw [hv]); clear_value x] | refine Sound.cut (x := x.1) ?_ (fun hx => ?_) <;> [(clear_value (hv : x = _); rw [hv]); clear_value x] | clear_value x | skip)
    | with_reducible exact Sound.refl _
    | with_reducible assumption
    | simp -zeta only [↓ Sound.make]
    | with_reducible refine Sound.of ?_
    | with_reducible apply Sound.ite
    | with_reducible refine Sound.foldl (fun d x => ?_) ?_
    | with_reducible refine Sound.foldlFst (fun d x => ?_) ?_
    | with_reducible apply fieldWrite_sound
    | with_reducible apply Sound.transQuiet (k := staticReject_quiet (h₀ := .refl _) ..)
    | with_reducible apply Sound.transQuiet (k := reservedCode_quiet (h₀ := .refl _) ..)
    | split
    | (dsimp -zeta only)

end Sys2Proof.Machine
end

