-- ==== Sys2Proof/Laws/QuietEpc.lean ====
section
/-!
SUPPORT. Sys2Proof/Laws/QuietEpc.lean: for each operation of Machine/Epc.lean, that it is `Quiet` (or only `Sound`).
-/
set_option linter.all false
namespace Sys2Proof.Machine

theorem setResult_quiet {o₀ : Dev} (d : Dev) (r : CommitResult) (h₀ : Quiet o₀ d) : Quiet o₀ (setResult d r) := by
  refine h₀.trans ?_
  unfold setResult
  repeat' first
    | with_reducible exact Quiet.refl _
    | with_reducible assumption
    | with_reducible apply liveSetF_quiet

theorem setPending_quiet {o₀ : Dev} (d : Dev) (p : Option Nat) (h₀ : Quiet o₀ d) : Quiet o₀ (setPending d p) := by
  refine h₀.trans ?_
  unfold setPending
  repeat' first
    | (extract_lets +onlyGivenNames x; first | refine Quiet.cut (x := x) ?_ (fun hx => ?_) <;> [(clear_value (hv : x = _); rw [hv]); clear_value x] | (have e : Epc := x; clear e) | clear_value x | skip)
    | with_reducible exact Quiet.refl _
    | with_reducible assumption
    | simp -zeta only [↓ Quiet.make]
    | with_reducible refine Quiet.of ?_
    | with_reducible apply liveSetB_quiet

theorem liveSet48_quiet {o₀ : Dev} (d : Dev) (lo hi v : Nat) (h₀ : Quiet o₀ d) : Quiet o₀ (liveSet48 d lo hi v) := by
  refine h₀.trans ?_
  unfold liveSet48
  repeat' first
    | with_reducible exact Quiet.refl _
    | with_reducible assumption
    | with_reducible apply liveSet_quiet

theorem submitCommit_quiet {o₀ : Dev} (e : Nat) (d : Dev) (h₀ : Quiet o₀ d) : Quiet o₀ (submitCommit e d) := by
  refine h₀.trans ?_
  unfold submitCommit
  repeat' first
    | (extract_lets +onlyGivenNames x; first | refine Quiet.cut (x := x) ?_ (fun hx => ?_) <;> [(clear_value (hv : x = _); rw [hv]); clear_value x] | clear_value x | skip)
    | with_reducible exact Quiet.refl _
    | with_reducible assumption
    | with_reducible apply Quiet.ite
    | with_reducible apply liveSetF_quiet
    | with_reducible apply setResult_quiet
    | with_reducible apply setPending_quiet
    | with_reducible apply liveSet48_quiet
    | split

theorem commitAtHiWrite_quiet {o₀ : Dev} (val : Word) (d : Dev) (h₀ : Quiet o₀ d) : Quiet o₀ (commitAtHiWrite val d) := by
  refine h₀.trans ?_
  unfold commitAtHiWrite
  repeat' first
    | with_reducible exact Quiet.refl _
    | with_reducible assumption
    | with_reducible apply submitCommit_quiet

theorem commitNextWrite_quiet {o₀ : Dev} (d : Dev) (h₀ : Quiet o₀ d) : Quiet o₀ (commitNextWrite d) := by
  refine h₀.trans ?_
  unfold commitNextWrite
  repeat' first
    | with_reducible exact Quiet.refl _
    | with_reducible assumption
    | with_reducible apply Quiet.ite
    | with_reducible apply submitCommit_quiet
    | split

theorem commitCancelWrite_quiet {o₀ : Dev} (d : Dev) (h₀ : Quiet o₀ d) : Quiet o₀ (commitCancelWrite d) := by
  refine h₀.trans ?_
  unfold commitCancelWrite
  repeat' first
    | (extract_lets +onlyGivenNames x; first | refine Quiet.cut (x := x) ?_ (fun hx => ?_) <;> [(clear_value (hv : x = _); rw [hv]); clear_value x] | clear_value x | skip)
    | with_reducible exact Quiet.refl _
    | with_reducible assumption
    | simp -zeta only [↓ Quiet.make]
    | with_reducible refine Quiet.of ?_
    | with_reducible apply Quiet.ite
    | with_reducible apply setResult_quiet
    | with_reducible apply setPending_quiet
    | split

theorem snapHoldWrite_quiet {o₀ : Dev} (v : Bool) (d : Dev) (h₀ : Quiet o₀ d) : Quiet o₀ (snapHoldWrite v d) := by
  refine h₀.trans ?_
  unfold snapHoldWrite
  repeat' first
    | (extract_lets +onlyGivenNames x; first | refine Quiet.cut (x := x) ?_ (fun hx => ?_) <;> [(clear_value (hv : x = _); rw [hv]); clear_value x] | (have e : Epc := x; clear e) | clear_value x | skip)
    | with_reducible exact Quiet.refl _
    | with_reducible assumption
    | simp -zeta only [↓ Quiet.make]
    | with_reducible refine Quiet.of ?_
    | with_reducible apply Quiet.ite
    | with_reducible apply liveSetB_quiet
    | split

theorem holdExpire_quiet {o₀ : Dev} (d : Dev) (h₀ : Quiet o₀ d) : Quiet o₀ (holdExpire d) := by
  refine h₀.trans ?_
  unfold holdExpire
  repeat' first
    | (extract_lets +onlyGivenNames x; first | refine Quiet.cut (x := x) ?_ (fun hx => ?_) <;> [(clear_value (hv : x = _); rw [hv]); clear_value x] | (have e : Epc := x; clear e) | clear_value x | skip)
    | with_reducible exact Quiet.refl _
    | with_reducible assumption
    | simp -zeta only [↓ Quiet.make]
    | with_reducible refine Quiet.of ?_
    | with_reducible apply Quiet.ite
    | with_reducible apply liveSetB_quiet
    | split

theorem latchSnapshot_sound {o₀ : Dev} (d : Dev) (h₀ : Sound o₀ d) : Sound o₀ (latchSnapshot d) := by
  refine h₀.trans ?_
  unfold latchSnapshot
  split
  · simp -zeta only [↓ Sound.make]
    exact Sound.of (.refl _)
  · have hx := liveSet48_quiet d offEpcSnapEpoch offEpcSnapEpochHi d.epc.epoch (.refl d)
    exact hx.sound.trans ⟨fun h => ⟨h.live, h.shadow, h.act, h.live, h.mem, h.epoch, h.period⟩⟩

theorem commitCopy_sound {o₀ : Dev} (d : Dev) (h₀ : Sound o₀ d) : Sound o₀ (commitCopy d) := by
  refine h₀.trans ⟨fun h => ⟨h.live, h.shadow, ?_, h.snap, h.mem, h.epoch, h.period⟩⟩
  intro p hp
  rcases List.mem_cons.mp hp with rfl | hp
  · exact h.shadow
  · exact h.act p (List.mem_of_mem_take hp)

theorem setTimebase_quiet {o₀ : Dev} (d : Dev) (t : Nat) (h₀ : Quiet o₀ d) : Quiet o₀ (setTimebase d t) := by
  refine h₀.trans ?_
  unfold setTimebase
  repeat' first
    | with_reducible exact Quiet.refl _
    | with_reducible assumption
    | with_reducible apply liveSetF_quiet

end Sys2Proof.Machine
end

