-- ==== Sys2Proof/Laws/QuietNet.lean ====
section
/-!
SUPPORT. Sys2Proof/Laws/QuietNet.lean: for each operation of Machine/Net.lean, that it is `Quiet` (or only `Sound`).
-/
set_option linter.all false
namespace Sys2Proof.Machine

theorem setPlane_quiet {o₀ : Dev} (d : Dev) (x : Nat) (p : Plane) (h₀ : Quiet o₀ d) : Quiet o₀ (setPlane d x p) := by
  refine h₀.trans ?_
  unfold setPlane
  repeat' first
    | (extract_lets +onlyGivenNames x; first | refine Quiet.cut (x := x) ?_ (fun hx => ?_) <;> [(clear_value (hv : x = _); rw [hv]); clear_value x] | clear_value x | skip)
    | with_reducible exact Quiet.refl _
    | with_reducible assumption
    | simp -zeta only [↓ Quiet.make]
    | with_reducible refine Quiet.of ?_
    | with_reducible apply Quiet.ite
    | split

theorem setRing_quiet {o₀ : Dev} (d : Dev) (x s : Nat) (r : RxRing) (h₀ : Quiet o₀ d) : Quiet o₀ (setRing d x s r) := by
  refine h₀.trans ?_
  unfold setRing
  repeat' first
    | (extract_lets +onlyGivenNames x; first | refine Quiet.cut (x := x) ?_ (fun hx => ?_) <;> [(clear_value (hv : x = _); rw [hv]); clear_value x] | clear_value x | skip)
    | with_reducible exact Quiet.refl _
    | with_reducible assumption
    | simp -zeta only [↓ Quiet.make]
    | with_reducible refine Quiet.of ?_
    | with_reducible apply setPlane_quiet

theorem markLate_quiet {o₀ : Dev} (d : Dev) (x s late : Nat) (h₀ : Quiet o₀ d) : Quiet o₀ (markLate d x s late) := by
  refine h₀.trans ?_
  unfold markLate
  repeat' first
    | (extract_lets +onlyGivenNames x; first | refine Quiet.cut (x := x) ?_ (fun hx => ?_) <;> [(clear_value (hv : x = _); rw [hv]); clear_value x] | clear_value x | skip)
    | with_reducible exact Quiet.refl _
    | with_reducible assumption
    | simp -zeta only [↓ Quiet.make]
    | with_reducible refine Quiet.of ?_
    | with_reducible apply setPlane_quiet
    | split

theorem restarted_quiet {o₀ : Dev} (d : Dev) (x s : Nat) (h₀ : Quiet o₀ d) : Quiet o₀ (restarted d x s) := by
  refine h₀.trans ?_
  unfold restarted
  repeat' first
    | (extract_lets +onlyGivenNames x; first | refine Quiet.cut (x := x) ?_ (fun hx => ?_) <;> [(clear_value (hv : x = _); rw [hv]); clear_value x] | clear_value x | skip)
    | with_reducible exact Quiet.refl _
    | with_reducible assumption
    | with_reducible apply Quiet.ite
    | with_reducible apply liveSetB_quiet
    | split

theorem ringsTick_quiet {o₀ : Dev} (per x : Nat) (d : Dev) (h₀ : Quiet o₀ d) : Quiet o₀ (ringsTick per x d) := by
  refine h₀.trans ?_
  unfold ringsTick
  repeat' first
    | (extract_lets +onlyGivenNames x; first | refine Quiet.cut (x := x) ?_ (fun hx => ?_) <;> [(clear_value (hv : x = _); rw [hv]); clear_value x] | clear_value x | skip)
    | with_reducible exact Quiet.refl _
    | with_reducible assumption
    | simp -zeta only [↓ Quiet.make]
    | with_reducible refine Quiet.of ?_
    | with_reducible apply Quiet.ite
    | with_reducible refine Quiet.foldl (fun d x => ?_) ?_
    | with_reducible refine Quiet.foldlFst (fun d x => ?_) ?_
    | with_reducible apply bump_quiet
    | with_reducible apply setRing_quiet
    | with_reducible apply markLate_quiet
    | with_reducible apply restarted_quiet
    | split
    | (dsimp -zeta only)

theorem audioPlace_quiet {o₀ : Dev} (x s : Nat) (pkt : RtpPkt) (d : Dev) (h₀ : Quiet o₀ d) : Quiet o₀ (audioPlace x s pkt d) := by
  refine h₀.trans ?_
  unfold audioPlace
  repeat' first
    | (extract_lets +onlyGivenNames x; first | refine Quiet.cut (x := x) ?_ (fun hx => ?_) <;> [(clear_value (hv : x = _); rw [hv]); clear_value x] | (have e : _ → _ := x; clear e; clear_value (hv : x = _); subst hv; beta_reduce) | clear_value x | skip)
    | with_reducible exact Quiet.refl _
    | with_reducible assumption
    | simp -zeta only [↓ Quiet.make]
    | with_reducible refine Quiet.of ?_
    | with_reducible apply Quiet.ite
    | with_reducible refine Quiet.foldl (fun d x => ?_) ?_
    | with_reducible refine Quiet.foldlFst (fun d x => ?_) ?_
    | with_reducible apply liveSetB_quiet
    | with_reducible apply bump_quiet
    | with_reducible apply setPlane_quiet
    | with_reducible apply setRing_quiet
    | with_reducible apply markLate_quiet
    | split
    | (dsimp -zeta only)

theorem enqueueTx_quiet {o₀ : Dev} (d : Dev) (x : Nat) (f : TxFrame) (h₀ : Quiet o₀ d) : Quiet o₀ (enqueueTx d x f) := by
  refine h₀.trans ?_
  unfold enqueueTx
  repeat' first
    | (extract_lets +onlyGivenNames x; first | refine Quiet.cut (x := x) ?_ (fun hx => ?_) <;> [(clear_value (hv : x = _); rw [hv]); clear_value x] | clear_value x | skip)
    | with_reducible exact Quiet.refl _
    | with_reducible assumption
    | simp -zeta only [↓ Quiet.make]
    | with_reducible refine Quiet.of ?_
    | with_reducible apply Quiet.ite
    | with_reducible refine Quiet.foldl (fun d x => ?_) ?_
    | with_reducible refine Quiet.foldlFst (fun d x => ?_) ?_
    | with_reducible apply bump_quiet
    | with_reducible apply setPlane_quiet
    | split
    | (dsimp -zeta only)

theorem sendMembership_quiet {o₀ : Dev} (join : Bool) (x : Nat) (d : Dev) (g : IpAddr × Option IpAddr) (h₀ : Quiet o₀ d) : Quiet o₀ (sendMembership join x d g) := by
  refine h₀.trans ?_
  unfold sendMembership
  repeat' first
    | with_reducible exact Quiet.refl _
    | with_reducible assumption
    | with_reducible apply enqueueTx_quiet
    | (dsimp -zeta only)

theorem netReports_quiet {o₀ : Dev} (d : Dev) (x : Nat) (rx : List (List Word)) (h₀ : Quiet o₀ d) : Quiet o₀ (netReports d x rx) := by
  refine h₀.trans ?_
  unfold netReports
  repeat' first
    | with_reducible exact Quiet.refl _
    | with_reducible assumption
    | with_reducible refine Quiet.foldl (fun d x => ?_) ?_
    | with_reducible refine Quiet.foldlFst (fun d x => ?_) ?_
    | with_reducible apply sendMembership_quiet

theorem rxActivate_quiet {o₀ : Dev} (x : Nat) (a : Dev × Nat) (ws : List Word) (h₀ : Quiet o₀ a.1) : Quiet o₀ (rxActivate x a ws).1 := by
  refine h₀.trans ?_
  unfold rxActivate
  repeat' first
    | (extract_lets +onlyGivenNames x; first | refine Quiet.cut (x := x) ?_ (fun hx => ?_) <;> [(clear_value (hv : x = _); rw [hv]); clear_value x] | refine Quiet.cut (x := x.1) ?_ (fun hx => ?_) <;> [(clear_value (hv : x = _); rw [hv]); clear_value x] | clear_value x | skip)
    | with_reducible exact Quiet.refl _
    | with_reducible assumption
    | with_reducible apply Quiet.ite
    | with_reducible refine Quiet.foldl (fun d x => ?_) ?_
    | with_reducible refine Quiet.foldlFst (fun d x => ?_) ?_
    | with_reducible apply liveSet_quiet
    | with_reducible apply sendMembership_quiet
    | split
    | (dsimp -zeta only)

theorem txActivate_quiet {o₀ : Dev} (x : Nat) (a : Dev × Nat) (ws : List Word) (h₀ : Quiet o₀ a.1) : Quiet o₀ (txActivate x a ws).1 := by
  refine h₀.trans ?_
  unfold txActivate
  repeat' first
    | with_reducible exact Quiet.refl _
    | with_reducible assumption
    | with_reducible refine Quiet.foldl (fun d x => ?_) ?_
    | with_reducible refine Quiet.foldlFst (fun d x => ?_) ?_
    | with_reducible apply liveSet_quiet
    | (dsimp -zeta only)

theorem planeActivate_quiet {o₀ : Dev} (payload : List Byte) (d : Dev) (x : Nat) (h₀ : Quiet o₀ d) : Quiet o₀ (planeActivate payload d x) := by
  refine h₀.trans ?_
  unfold planeActivate
  repeat' first
    | (extract_lets +onlyGivenNames x; first | refine Quiet.cut (x := x) ?_ (fun hx => ?_) <;> [(clear_value (hv : x = _); rw [hv]); clear_value x] | refine Quiet.cut (x := x.1) ?_ (fun hx => ?_) <;> [(clear_value (hv : x = _); rw [hv]); clear_value x] | clear_value x | skip)
    | with_reducible exact Quiet.refl _
    | with_reducible assumption
    | simp -zeta only [↓ Quiet.make]
    | with_reducible refine Quiet.of ?_
    | with_reducible refine Quiet.foldl (fun d x => ?_) ?_
    | with_reducible refine Quiet.foldlFst (fun d x => ?_) ?_
    | with_reducible apply liveSet_quiet
    | with_reducible apply liveSetF_quiet
    | with_reducible apply setPlane_quiet
    | with_reducible apply rxActivate_quiet
    | with_reducible apply txActivate_quiet
    | (dsimp -zeta only)

theorem ringsActivate_quiet {o₀ : Dev} (old : Dev) (d : Dev) (x : Nat) (h₀ : Quiet o₀ d) : Quiet o₀ (ringsActivate old d x) := by
  refine h₀.trans ?_
  unfold ringsActivate
  repeat' first
    | (extract_lets +onlyGivenNames x; first | refine Quiet.cut (x := x) ?_ (fun hx => ?_) <;> [(clear_value (hv : x = _); rw [hv]); clear_value x] | clear_value x | skip)
    | with_reducible exact Quiet.refl _
    | with_reducible assumption
    | simp -zeta only [↓ Quiet.make]
    | with_reducible refine Quiet.of ?_
    | with_reducible apply Quiet.ite
    | with_reducible refine Quiet.foldl (fun d x => ?_) ?_
    | with_reducible refine Quiet.foldlFst (fun d x => ?_) ?_
    | with_reducible apply liveSetF_quiet
    | with_reducible apply setPlane_quiet
    | split
    | (dsimp -zeta only)

theorem netActivate_quiet {o₀ : Dev} (payload : List Byte) (d : Dev) (h₀ : Quiet o₀ d) : Quiet o₀ (netActivate payload d) := by
  refine h₀.trans ?_
  unfold netActivate
  exact Quiet.foldl (fun a x => ringsActivate_quiet _ _ _ (.refl _)) (Quiet.foldl (fun a x => planeActivate_quiet _ _ _ (.refl _)) (.refl _))

theorem txRelease_quiet {o₀ : Dev} (x t : Nat) (d : Dev) (h₀ : Quiet o₀ d) : Quiet o₀ (txRelease x t d) := by
  refine h₀.trans ?_
  unfold txRelease
  repeat' first
    | (extract_lets +onlyGivenNames x; first | refine Quiet.cut (x := x) ?_ (fun hx => ?_) <;> [(clear_value (hv : x = _); rw [hv]); clear_value x] | clear_value x | skip)
    | with_reducible exact Quiet.refl _
    | with_reducible assumption
    | simp -zeta only [↓ Quiet.make]
    | with_reducible refine Quiet.of ?_
    | with_reducible apply Quiet.ite
    | with_reducible apply setPlane_quiet
    | with_reducible apply enqueueTx_quiet
    | split

theorem txStart_quiet {o₀ : Dev} (x : Nat) (d : Dev) (h₀ : Quiet o₀ d) : Quiet o₀ (txStart x d) := by
  refine h₀.trans ?_
  unfold txStart
  repeat' first
    | (extract_lets +onlyGivenNames x; first | refine Quiet.cut (x := x) ?_ (fun hx => ?_) <;> [(clear_value (hv : x = _); rw [hv]); clear_value x] | clear_value x | skip)
    | with_reducible exact Quiet.refl _
    | with_reducible assumption
    | simp -zeta only [↓ Quiet.make]
    | with_reducible refine Quiet.of ?_
    | with_reducible apply Quiet.ite
    | with_reducible apply bump_quiet
    | with_reducible apply perfHit_quiet
    | with_reducible apply setPlane_quiet
    | split

theorem txStale_quiet {o₀ : Dev} (x t : Nat) (d : Dev) (h₀ : Quiet o₀ d) : Quiet o₀ (txStale x t d) := by
  refine h₀.trans ?_
  unfold txStale
  repeat' first
    | (extract_lets +onlyGivenNames x; first | refine Quiet.cut (x := x) ?_ (fun hx => ?_) <;> [(clear_value (hv : x = _); rw [hv]); clear_value x] | clear_value x | skip)
    | with_reducible exact Quiet.refl _
    | with_reducible assumption
    | simp -zeta only [↓ Quiet.make]
    | with_reducible refine Quiet.of ?_
    | with_reducible apply bump_quiet
    | with_reducible apply setPlane_quiet
    | split

theorem pfcFrame_quiet {o₀ : Dev} (x : Nat) (en : BitVec 8) (times : List Nat) (d : Dev) (h₀ : Quiet o₀ d) : Quiet o₀ (pfcFrame x en times d) := by
  refine h₀.trans ?_
  unfold pfcFrame
  repeat' first
    | (extract_lets +onlyGivenNames x; first | refine Quiet.cut (x := x) ?_ (fun hx => ?_) <;> [(clear_value (hv : x = _); rw [hv]); clear_value x] | clear_value x | skip)
    | with_reducible exact Quiet.refl _
    | with_reducible assumption
    | simp -zeta only [↓ Quiet.make]
    | with_reducible refine Quiet.of ?_
    | with_reducible apply Quiet.ite
    | with_reducible refine Quiet.foldl (fun d x => ?_) ?_
    | with_reducible refine Quiet.foldlFst (fun d x => ?_) ?_
    | with_reducible apply bump_quiet
    | with_reducible apply setPlane_quiet
    | split
    | (dsimp -zeta only)

theorem pauseExpiry_quiet {o₀ : Dev} (x q : Nat) (d : Dev) (h₀ : Quiet o₀ d) : Quiet o₀ (pauseExpiry x q d) := by
  refine h₀.trans ?_
  unfold pauseExpiry
  repeat' first
    | (extract_lets +onlyGivenNames x; first | refine Quiet.cut (x := x) ?_ (fun hx => ?_) <;> [(clear_value (hv : x = _); rw [hv]); clear_value x] | clear_value x | skip)
    | with_reducible exact Quiet.refl _
    | with_reducible assumption
    | simp -zeta only [↓ Quiet.make]
    | with_reducible refine Quiet.of ?_
    | with_reducible apply setPlane_quiet

theorem supEnqueue_quiet {o₀ : Dev} (x : Nat) (f : Frame) (d : Dev) (h₀ : Quiet o₀ d) : Quiet o₀ (supEnqueue x f d) := by
  refine h₀.trans ?_
  unfold supEnqueue
  repeat' first
    | (extract_lets +onlyGivenNames x; first | refine Quiet.cut (x := x) ?_ (fun hx => ?_) <;> [(clear_value (hv : x = _); rw [hv]); clear_value x] | clear_value x | skip)
    | with_reducible exact Quiet.refl _
    | with_reducible assumption
    | simp -zeta only [↓ Quiet.make]
    | with_reducible refine Quiet.of ?_
    | with_reducible apply Quiet.ite
    | with_reducible apply bump_quiet
    | with_reducible apply perfHit_quiet
    | with_reducible apply setPlane_quiet
    | split

theorem supervisorTake_quiet {o₀ : Dev} (x : Nat) (d : Dev) (h₀ : Quiet o₀ d) : Quiet o₀ (supervisorTake x d) := by
  refine h₀.trans ?_
  unfold supervisorTake
  repeat' first
    | (extract_lets +onlyGivenNames x; first | refine Quiet.cut (x := x) ?_ (fun hx => ?_) <;> [(clear_value (hv : x = _); rw [hv]); clear_value x] | clear_value x | skip)
    | with_reducible exact Quiet.refl _
    | with_reducible assumption
    | simp -zeta only [↓ Quiet.make]
    | with_reducible refine Quiet.of ?_
    | with_reducible apply Quiet.ite
    | with_reducible apply setPlane_quiet
    | with_reducible apply enqueueTx_quiet
    | with_reducible apply answer_quiet
    | split
    | (dsimp -zeta only)

theorem announceStep_quiet {o₀ : Dev} (d : Dev) (x e sp : Nat) (h₀ : Quiet o₀ d) : Quiet o₀ (announceStep d x e sp) := by
  refine h₀.trans ?_
  unfold announceStep
  repeat' first
    | (extract_lets +onlyGivenNames x; first | refine Quiet.cut (x := x) ?_ (fun hx => ?_) <;> [(clear_value (hv : x = _); rw [hv]); clear_value x] | clear_value x | skip)
    | with_reducible exact Quiet.refl _
    | with_reducible assumption
    | with_reducible apply Quiet.ite
    | with_reducible apply enqueueTx_quiet
    | split

theorem stepStart_quiet {o₀ : Dev} (x : Nat) (d : Dev) (h₀ : Quiet o₀ d) : Quiet o₀ (stepStart x d) := by
  refine h₀.trans ?_
  unfold stepStart
  repeat' first
    | (extract_lets +onlyGivenNames x; first | refine Quiet.cut (x := x) ?_ (fun hx => ?_) <;> [(clear_value (hv : x = _); rw [hv]); clear_value x] | clear_value x | skip)
    | with_reducible exact Quiet.refl _
    | with_reducible assumption
    | simp -zeta only [↓ Quiet.make]
    | with_reducible refine Quiet.of ?_
    | with_reducible apply Quiet.ite
    | with_reducible apply liveSetB_quiet
    | with_reducible apply setPlane_quiet
    | with_reducible apply announceStep_quiet
    | split

theorem stepEpoch_quiet {o₀ : Dev} (x : Nat) (d : Dev) (h₀ : Quiet o₀ d) : Quiet o₀ (stepEpoch x d) := by
  refine h₀.trans ?_
  unfold stepEpoch
  repeat' first
    | (extract_lets +onlyGivenNames x; first | refine Quiet.cut (x := x) ?_ (fun hx => ?_) <;> [(clear_value (hv : x = _); rw [hv]); clear_value x] | clear_value x | skip)
    | with_reducible exact Quiet.refl _
    | with_reducible assumption
    | simp -zeta only [↓ Quiet.make]
    | with_reducible refine Quiet.of ?_
    | with_reducible apply Quiet.ite
    | with_reducible apply liveSetB_quiet
    | with_reducible apply setPlane_quiet
    | split

theorem netLinkUp_quiet {o₀ : Dev} (x sp : Nat) (d : Dev) (h₀ : Quiet o₀ d) : Quiet o₀ (netLinkUp x sp d) := by
  refine h₀.trans ?_
  unfold netLinkUp
  repeat' first
    | (extract_lets +onlyGivenNames x; first | refine Quiet.cut (x := x) ?_ (fun hx => ?_) <;> [(clear_value (hv : x = _); rw [hv]); clear_value x] | clear_value x | skip)
    | with_reducible exact Quiet.refl _
    | with_reducible assumption
    | simp -zeta only [↓ Quiet.make]
    | with_reducible refine Quiet.of ?_
    | with_reducible apply Quiet.ite
    | with_reducible apply liveSetB_quiet
    | with_reducible apply bump_quiet
    | with_reducible apply raiseErr_quiet
    | with_reducible apply setPlane_quiet
    | split

theorem netLinkDown_quiet {o₀ : Dev} (x : Nat) (d : Dev) (h₀ : Quiet o₀ d) : Quiet o₀ (netLinkDown x d) := by
  refine h₀.trans ?_
  unfold netLinkDown
  repeat' first
    | (extract_lets +onlyGivenNames x; first | refine Quiet.cut (x := x) ?_ (fun hx => ?_) <;> [(clear_value (hv : x = _); rw [hv]); clear_value x] | clear_value x | skip)
    | with_reducible exact Quiet.refl _
    | with_reducible assumption
    | with_reducible apply Quiet.ite
    | with_reducible apply liveSetB_quiet
    | with_reducible apply bump_quiet
    | with_reducible apply raiseErr_quiet
    | split

theorem stepTimeout_sound {o₀ : Dev} (x : Nat) (d : Dev) (h₀ : Sound o₀ d) : Sound o₀ (stepTimeout x d) := by
  refine h₀.trans ?_
  unfold stepTimeout
  repeat' first
    | (extract_lets +onlyGivenNames x; first | refine Sound.cut (x := x) ?_ (fun hx => ?_) <;> [(clear_value (hv : x = _); rw [hv]); clear_value x] | clear_value x | skip)
    | with_reducible exact Sound.refl _
    | with_reducible assumption
    | simp -zeta only [↓ Sound.make]
    | with_reducible refine Sound.of ?_
    | with_reducible apply Sound.ite
    | with_reducible apply Sound.transQuiet (k := liveSetB_quiet (h₀ := .refl _) ..)
    | with_reducible apply Sound.transQuiet (k := bump_quiet (h₀ := .refl _) ..)
    | with_reducible apply shSet_sound
    | with_reducible apply actSet_sound
    | with_reducible apply Sound.transQuiet (k := raiseErr_quiet (h₀ := .refl _) ..)
    | with_reducible apply Sound.transQuiet (k := setPlane_quiet (h₀ := .refl _) ..)
    | split

theorem netEpoch_quiet {o₀ : Dev} (d : Dev) (x : Nat) (h₀ : Quiet o₀ d) : Quiet o₀ (netEpoch d x) := by
  refine h₀.trans ?_
  unfold netEpoch
  repeat' first
    | (extract_lets +onlyGivenNames x; first | refine Quiet.cut (x := x) ?_ (fun hx => ?_) <;> [(clear_value (hv : x = _); rw [hv]); clear_value x] | clear_value x | skip)
    | with_reducible exact Quiet.refl _
    | with_reducible assumption
    | simp -zeta only [↓ Quiet.make]
    | with_reducible refine Quiet.of ?_
    | with_reducible apply Quiet.ite
    | with_reducible refine Quiet.foldl (fun d x => ?_) ?_
    | with_reducible refine Quiet.foldlFst (fun d x => ?_) ?_
    | with_reducible apply liveSetF_quiet
    | with_reducible apply liveSetB_quiet
    | with_reducible apply bump_quiet
    | with_reducible apply raiseErr_quiet
    | with_reducible apply setPlane_quiet
    | with_reducible apply announceStep_quiet
    | split
    | (dsimp -zeta only)

theorem netRun_quiet {o₀ : Dev} (d : Dev) (x : Nat) (h₀ : Quiet o₀ d) : Quiet o₀ (netRun d x) := by
  refine h₀.trans ?_
  unfold netRun
  repeat' first
    | (extract_lets +onlyGivenNames x; first | refine Quiet.cut (x := x) ?_ (fun hx => ?_) <;> [(clear_value (hv : x = _); rw [hv]); clear_value x] | clear_value x | skip)
    | with_reducible exact Quiet.refl _
    | with_reducible assumption
    | simp -zeta only [↓ Quiet.make]
    | with_reducible refine Quiet.of ?_
    | with_reducible apply Quiet.ite
    | with_reducible apply liveSetB_quiet
    | with_reducible apply setPlane_quiet
    | with_reducible apply netReports_quiet
    | with_reducible apply netLinkDown_quiet
    | split

end Sys2Proof.Machine
end

