-- ==== Sys2Proof/Laws/QuietObj.lean ====
section
/-!
SUPPORT. Sys2Proof/Laws/QuietObj.lean: for each operation of Machine/Obj.lean, that it is `Quiet` (or only `Sound`).
-/
set_option linter.all false
namespace Sys2Proof.Machine

theorem setObj_quiet {o₀ : Dev} (d : Dev) (n : Nat) (x : ObjSlot) (h₀ : Quiet o₀ d) : Quiet o₀ (setObj d n x) := by
  refine h₀.trans ?_
  unfold setObj
  repeat' first
    | (extract_lets +onlyGivenNames x; first | refine Quiet.cut (x := x) ?_ (fun hx => ?_) <;> [(clear_value (hv : x = _); rw [hv]); clear_value x] | clear_value x | skip)
    | with_reducible exact Quiet.refl _
    | with_reducible assumption
    | simp -zeta only [↓ Quiet.make]
    | with_reducible refine Quiet.of ?_
    | (dsimp -zeta only)

theorem setSrc_quiet {o₀ : Dev} (d : Dev) (s : Nat) (x : ObjSrc) (h₀ : Quiet o₀ d) : Quiet o₀ (setSrc d s x) := by
  refine h₀.trans ?_
  unfold setSrc
  repeat' first
    | (extract_lets +onlyGivenNames x; first | refine Quiet.cut (x := x) ?_ (fun hx => ?_) <;> [(clear_value (hv : x = _); rw [hv]); clear_value x] | clear_value x | skip)
    | with_reducible exact Quiet.refl _
    | with_reducible assumption
    | simp -zeta only [↓ Quiet.make]
    | with_reducible refine Quiet.of ?_
    | (dsimp -zeta only)

theorem objCount_quiet {o₀ : Dev} (d : Dev) (s k n : Nat) (h₀ : Quiet o₀ d) : Quiet o₀ (objCount d s k n) := by
  refine h₀.trans ?_
  unfold objCount
  repeat' first
    | with_reducible exact Quiet.refl _
    | with_reducible assumption
    | with_reducible apply Quiet.ite
    | with_reducible apply bumpBy_quiet
    | split

theorem windowDrop_quiet {o₀ : Dev} (d : Dev) (s : Nat) (h₀ : Quiet o₀ d) : Quiet o₀ (windowDrop d s) := by
  refine h₀.trans ?_
  unfold windowDrop
  repeat' first
    | (extract_lets +onlyGivenNames x; first | refine Quiet.cut (x := x) ?_ (fun hx => ?_) <;> [(clear_value (hv : x = _); rw [hv]); clear_value x] | clear_value x | skip)
    | with_reducible exact Quiet.refl _
    | with_reducible assumption
    | simp -zeta only [↓ Quiet.make]
    | with_reducible refine Quiet.of ?_
    | with_reducible apply liveSetB_quiet
    | with_reducible apply setSrc_quiet

theorem queueReport_quiet {o₀ : Dev} (d : Dev) (n : Nat) (h₀ : Quiet o₀ d) : Quiet o₀ (queueReport d n) := by
  refine h₀.trans ?_
  unfold queueReport
  repeat' first
    | with_reducible exact Quiet.refl _
    | with_reducible assumption
    | with_reducible apply liveSetF_quiet

theorem queueRec_quiet {o₀ : Dev} (d : Dev) (s n : Nat) (r : ObjRec) (h₀ : Quiet o₀ d) : Quiet o₀ (queueRec d s n r) := by
  refine h₀.trans ?_
  unfold queueRec
  repeat' first
    | (extract_lets +onlyGivenNames x; first | refine Quiet.cut (x := x) ?_ (fun hx => ?_) <;> [(clear_value (hv : x = _); rw [hv]); clear_value x] | clear_value x | skip)
    | with_reducible exact Quiet.refl _
    | with_reducible assumption
    | simp -zeta only [↓ Quiet.make]
    | with_reducible refine Quiet.of ?_
    | with_reducible apply Quiet.ite
    | with_reducible apply liveSetB_quiet
    | with_reducible apply setObj_quiet
    | with_reducible apply objCount_quiet
    | with_reducible apply queueReport_quiet
    | split

theorem lateRec_quiet {o₀ : Dev} (d : Dev) (s n : Nat) (r : ObjRec) (h₀ : Quiet o₀ d) : Quiet o₀ (lateRec d s n r) := by
  refine h₀.trans ?_
  unfold lateRec
  repeat' first
    | (extract_lets +onlyGivenNames x; first | refine Quiet.cut (x := x) ?_ (fun hx => ?_) <;> [(clear_value (hv : x = _); rw [hv]); clear_value x] | clear_value x | skip)
    | with_reducible exact Quiet.refl _
    | with_reducible assumption
    | simp -zeta only [↓ Quiet.make]
    | with_reducible refine Quiet.of ?_
    | with_reducible apply Quiet.ite
    | with_reducible apply liveSetB_quiet
    | with_reducible apply setObj_quiet
    | with_reducible apply setSrc_quiet
    | with_reducible apply objCount_quiet
    | split

theorem takeRec_quiet {o₀ : Dev} (d : Dev) (s n : Nat) (r : ObjRec) (h₀ : Quiet o₀ d) : Quiet o₀ (takeRec d s n r) := by
  refine h₀.trans ?_
  unfold takeRec
  repeat' first
    | with_reducible exact Quiet.refl _
    | with_reducible assumption
    | with_reducible apply Quiet.ite
    | with_reducible apply objCount_quiet
    | with_reducible apply queueRec_quiet
    | with_reducible apply lateRec_quiet
    | split

theorem windowTake_quiet {o₀ : Dev} (d : Dev) (s seq : Nat) (h₀ : Quiet o₀ d) : Quiet o₀ (windowTake d s seq).1 := by
  refine h₀.trans ?_
  unfold windowTake
  repeat' first
    | (extract_lets +onlyGivenNames x; first | refine Quiet.cut (x := x) ?_ (fun hx => ?_) <;> [(clear_value (hv : x = _); rw [hv]); clear_value x] | clear_value x | skip)
    | with_reducible exact Quiet.refl _
    | with_reducible assumption
    | simp -zeta only [↓ Quiet.make]
    | with_reducible refine Quiet.of ?_
    | with_reducible apply Quiet.ite
    | with_reducible apply liveSet_quiet
    | with_reducible apply setSrc_quiet
    | with_reducible apply objCount_quiet
    | split
    | (dsimp -zeta only)

theorem malformedFrame_quiet {o₀ : Dev} (d : Dev) (s : Nat) (h₀ : Quiet o₀ d) : Quiet o₀ (malformedFrame d s) := by
  refine h₀.trans ?_
  unfold malformedFrame
  repeat' first
    | with_reducible exact Quiet.refl _
    | with_reducible assumption
    | with_reducible apply liveSetB_quiet
    | with_reducible apply objCount_quiet

theorem positionFrame_quiet {o₀ : Dev} (s : Nat) (p : List Byte) (d : Dev) (h₀ : Quiet o₀ d) : Quiet o₀ (positionFrame s p d) := by
  refine h₀.trans ?_
  unfold positionFrame
  repeat' first
    | (extract_lets +onlyGivenNames x; first | refine Quiet.cut (x := x) ?_ (fun hx => ?_) <;> [(clear_value (hv : x = _); rw [hv]); clear_value x] | refine Quiet.cut (x := x.1) ?_ (fun hx => ?_) <;> [(clear_value (hv : x = _); rw [hv]); clear_value x] | clear_value x | skip)
    | with_reducible exact Quiet.refl _
    | with_reducible assumption
    | simp -zeta only [↓ Quiet.make]
    | with_reducible refine Quiet.of ?_
    | with_reducible apply Quiet.ite
    | with_reducible refine Quiet.foldl (fun d x => ?_) ?_
    | with_reducible refine Quiet.foldlFst (fun d x => ?_) ?_
    | with_reducible apply objCount_quiet
    | with_reducible apply takeRec_quiet
    | with_reducible apply windowTake_quiet
    | with_reducible apply malformedFrame_quiet
    | split
    | (dsimp -zeta only)

theorem sadmRecords_quiet {o₀ : Dev} (s : Nat) (f : SadmFrame) (base : Int) (d : Dev) (h₀ : Quiet o₀ d) : Quiet o₀ (sadmRecords s f base d) := by
  refine h₀.trans ?_
  unfold sadmRecords
  repeat' first
    | (extract_lets +onlyGivenNames x; first | refine Quiet.cut (x := x) ?_ (fun hx => ?_) <;> [(clear_value (hv : x = _); rw [hv]); clear_value x] | refine Quiet.cut (x := x.1) ?_ (fun hx => ?_) <;> [(clear_value (hv : x = _); rw [hv]); clear_value x] | clear_value x | skip)
    | with_reducible exact Quiet.refl _
    | with_reducible assumption
    | simp -zeta only [↓ Quiet.make]
    | with_reducible refine Quiet.of ?_
    | with_reducible refine Quiet.foldl (fun d x => ?_) ?_
    | with_reducible refine Quiet.foldlFst (fun d x => ?_) ?_
    | with_reducible apply objCount_quiet
    | with_reducible apply takeRec_quiet
    | split
    | (dsimp -zeta only)

theorem sadmDone_quiet {o₀ : Dev} (s : Nat) (f : SadmFrame) (d : Dev) (h₀ : Quiet o₀ d) : Quiet o₀ (sadmDone s f d) := by
  refine h₀.trans ?_
  unfold sadmDone
  repeat' first
    | (extract_lets +onlyGivenNames x; first | refine Quiet.cut (x := x) ?_ (fun hx => ?_) <;> [(clear_value (hv : x = _); rw [hv]); clear_value x] | refine Quiet.cut (x := x.1) ?_ (fun hx => ?_) <;> [(clear_value (hv : x = _); rw [hv]); clear_value x] | clear_value x | skip)
    | with_reducible exact Quiet.refl _
    | with_reducible assumption
    | simp -zeta only [↓ Quiet.make]
    | with_reducible refine Quiet.of ?_
    | with_reducible apply Quiet.ite
    | with_reducible apply windowTake_quiet
    | with_reducible apply malformedFrame_quiet
    | with_reducible apply sadmRecords_quiet
    | split
    | (dsimp -zeta only)

theorem metaPacket_quiet {o₀ : Dev} (x stream : Nat) (pkt : RtpPkt) (d : Dev) (h₀ : Quiet o₀ d) : Quiet o₀ (metaPacket x stream pkt d) := by
  refine h₀.trans ?_
  unfold metaPacket
  repeat' first
    | (extract_lets +onlyGivenNames x; first | refine Quiet.cut (x := x) ?_ (fun hx => ?_) <;> [(clear_value (hv : x = _); rw [hv]); clear_value x] | clear_value x | skip)
    | with_reducible exact Quiet.refl _
    | with_reducible assumption
    | simp -zeta only [↓ Quiet.make]
    | with_reducible refine Quiet.of ?_
    | with_reducible apply Quiet.ite
    | with_reducible apply positionFrame_quiet
    | split
    | (dsimp -zeta only)

theorem windowTimeout_quiet {o₀ : Dev} (s : Nat) (d : Dev) (h₀ : Quiet o₀ d) : Quiet o₀ (windowTimeout s d) := by
  refine h₀.trans ?_
  unfold windowTimeout
  repeat' first
    | with_reducible exact Quiet.refl _
    | with_reducible assumption
    | with_reducible apply Quiet.ite
    | with_reducible apply windowDrop_quiet
    | split

theorem applyRec_quiet {o₀ : Dev} (n : Nat) (d : Dev) (r : ObjRec) (h₀ : Quiet o₀ d) : Quiet o₀ (applyRec n d r) := by
  refine h₀.trans ?_
  unfold applyRec
  repeat' first
    | (extract_lets +onlyGivenNames x; first | refine Quiet.cut (x := x) ?_ (fun hx => ?_) <;> [(clear_value (hv : x = _); rw [hv]); clear_value x] | clear_value x | skip)
    | with_reducible exact Quiet.refl _
    | with_reducible assumption
    | simp -zeta only [↓ Quiet.make]
    | with_reducible refine Quiet.of ?_
    | with_reducible apply Quiet.ite
    | with_reducible apply liveSet_quiet
    | with_reducible apply liveSetF_quiet
    | with_reducible apply setObj_quiet
    | split
    | (dsimp -zeta only)

theorem setLastApply_quiet {o₀ : Dev} (d : Dev) (n : Nat) (h₀ : Quiet o₀ d) : Quiet o₀ (setLastApply d n) := by
  refine h₀.trans ?_
  unfold setLastApply
  repeat' first
    | with_reducible exact Quiet.refl _
    | with_reducible assumption
    | with_reducible apply liveSet_quiet

theorem keepRecent_quiet {o₀ : Dev} (n : Nat) (l : List ObjRec) (d : Dev) (h₀ : Quiet o₀ d) : Quiet o₀ (keepRecent n l d) := by
  refine h₀.trans ?_
  unfold keepRecent
  repeat' first
    | (extract_lets +onlyGivenNames x; first | refine Quiet.cut (x := x) ?_ (fun hx => ?_) <;> [(clear_value (hv : x = _); rw [hv]); clear_value x] | clear_value x | skip)
    | with_reducible exact Quiet.refl _
    | with_reducible assumption
    | simp -zeta only [↓ Quiet.make]
    | with_reducible refine Quiet.of ?_
    | with_reducible apply Quiet.ite
    | split
    | (dsimp -zeta only)

theorem recentCut_quiet {o₀ : Dev} (d : Dev) (h₀ : Quiet o₀ d) : Quiet o₀ (recentCut d) := by
  refine h₀.trans ?_
  unfold recentCut
  repeat' first
    | (extract_lets +onlyGivenNames x; first | refine Quiet.cut (x := x) ?_ (fun hx => ?_) <;> [(clear_value (hv : x = _); rw [hv]); clear_value x] | clear_value x | skip)
    | with_reducible exact Quiet.refl _
    | with_reducible assumption
    | simp -zeta only [↓ Quiet.make]
    | with_reducible refine Quiet.of ?_
    | (dsimp -zeta only)

theorem slotRecords_quiet {o₀ : Dev} (d : Dev) (n : Nat) (h₀ : Quiet o₀ d) : Quiet o₀ (slotRecords d n).1 := by
  refine h₀.trans ?_
  unfold slotRecords
  repeat' first
    | (extract_lets +onlyGivenNames x; first | refine Quiet.cut (x := x) ?_ (fun hx => ?_) <;> [(clear_value (hv : x = _); rw [hv]); clear_value x] | clear_value x | skip)
    | with_reducible exact Quiet.refl _
    | with_reducible assumption
    | simp -zeta only [↓ Quiet.make]
    | with_reducible refine Quiet.of ?_
    | with_reducible refine Quiet.foldl (fun d x => ?_) ?_
    | with_reducible refine Quiet.foldlFst (fun d x => ?_) ?_
    | with_reducible apply setObj_quiet
    | with_reducible apply queueReport_quiet
    | with_reducible apply applyRec_quiet
    | with_reducible apply setLastApply_quiet
    | with_reducible apply keepRecent_quiet
    | split
    | (dsimp -zeta only)

theorem fieldsFromRegs_quiet {o₀ : Dev} (d : Dev) (n : Nat) (h₀ : Quiet o₀ d) : Quiet o₀ (fieldsFromRegs d n) := by
  refine h₀.trans ?_
  unfold fieldsFromRegs
  repeat' first
    | (extract_lets +onlyGivenNames x; first | refine Quiet.cut (x := x) ?_ (fun hx => ?_) <;> [(clear_value (hv : x = _); rw [hv]); clear_value x] | clear_value x | skip)
    | with_reducible exact Quiet.refl _
    | with_reducible assumption
    | with_reducible apply liveSet_quiet
    | with_reducible apply liveSetF_quiet

theorem slotCommit_quiet {o₀ : Dev} (d : Dev) (n : Nat) (h₀ : Quiet o₀ d) : Quiet o₀ (slotCommit d n) := by
  refine h₀.trans ?_
  unfold slotCommit
  repeat' first
    | (extract_lets +onlyGivenNames x; first | refine Quiet.cut (x := x) ?_ (fun hx => ?_) <;> [(clear_value (hv : x = _); rw [hv]); clear_value x] | (have e : Regs := x; clear e) | clear_value x | skip)
    | with_reducible exact Quiet.refl _
    | with_reducible assumption
    | simp -zeta only [↓ Quiet.make]
    | with_reducible refine Quiet.of ?_
    | with_reducible apply Quiet.ite
    | with_reducible apply setObj_quiet
    | with_reducible apply queueReport_quiet
    | with_reducible apply setLastApply_quiet
    | with_reducible apply fieldsFromRegs_quiet
    | split
    | (dsimp -zeta only)

theorem mapConflicts_quiet {o₀ : Dev} (d : Dev) (h₀ : Quiet o₀ d) : Quiet o₀ (mapConflicts d) := by
  refine h₀.trans ?_
  unfold mapConflicts
  repeat' first
    | (extract_lets +onlyGivenNames x; first | refine Quiet.cut (x := x) ?_ (fun hx => ?_) <;> [(clear_value (hv : x = _); rw [hv]); clear_value x] | refine Quiet.cut (x := x.1) ?_ (fun hx => ?_) <;> [(clear_value (hv : x = _); rw [hv]); clear_value x] | clear_value x | skip)
    | with_reducible exact Quiet.refl _
    | with_reducible assumption
    | with_reducible apply Quiet.ite
    | with_reducible refine Quiet.foldl (fun d x => ?_) ?_
    | with_reducible refine Quiet.foldlFst (fun d x => ?_) ?_
    | with_reducible apply liveSetB_quiet
    | split
    | (dsimp -zeta only)

theorem unsettledFlags_quiet {o₀ : Dev} (d : Dev) (h₀ : Quiet o₀ d) : Quiet o₀ (unsettledFlags d) := by
  refine h₀.trans ?_
  unfold unsettledFlags
  repeat' first
    | with_reducible exact Quiet.refl _
    | with_reducible assumption
    | with_reducible refine Quiet.foldl (fun d x => ?_) ?_
    | with_reducible refine Quiet.foldlFst (fun d x => ?_) ?_
    | with_reducible apply liveSetB_quiet
    | (dsimp -zeta only)

theorem objEpoch_quiet {o₀ : Dev} (d : Dev) (h₀ : Quiet o₀ d) : Quiet o₀ (objEpoch d) := by
  refine h₀.trans ?_
  unfold objEpoch
  repeat' first
    | (extract_lets +onlyGivenNames x; first | refine Quiet.cut (x := x) ?_ (fun hx => ?_) <;> [(clear_value (hv : x = _); rw [hv]); clear_value x] | refine Quiet.cut (x := x.1) ?_ (fun hx => ?_) <;> [(clear_value (hv : x = _); rw [hv]); clear_value x] | clear_value x | skip)
    | with_reducible exact Quiet.refl _
    | with_reducible assumption
    | simp -zeta only [↓ Quiet.make]
    | with_reducible refine Quiet.of ?_
    | with_reducible apply Quiet.ite
    | with_reducible refine Quiet.foldl (fun d x => ?_) ?_
    | with_reducible refine Quiet.foldlFst (fun d x => ?_) ?_
    | with_reducible apply liveSetF_quiet
    | with_reducible apply liveSetB_quiet
    | with_reducible apply raiseErr_quiet
    | with_reducible apply setSrc_quiet
    | with_reducible apply windowDrop_quiet
    | with_reducible apply recentCut_quiet
    | with_reducible apply slotRecords_quiet
    | with_reducible apply slotCommit_quiet
    | with_reducible apply mapConflicts_quiet
    | with_reducible apply unsettledFlags_quiet
    | split
    | (dsimp -zeta only)

end Sys2Proof.Machine
end

