-- ==== Sys2Proof/Laws/QuietGen.lean ====
section
/-!
SUPPORT. Sys2Proof/Laws/QuietGen.lean: for each operation of Machine/Gen.lean, that it is `Quiet` (or only `Sound`).
-/
set_option linter.all false
namespace Sys2Proof.Machine

theorem setGen_quiet {o₀ : Dev} (d : Dev) (g : Nat) (x : Gen) (h₀ : Quiet o₀ d) : Quiet o₀ (setGen d g x) := by
  refine h₀.trans ?_
  unfold setGen
  repeat' first
    | (extract_lets +onlyGivenNames x; first | refine Quiet.cut (x := x) ?_ (fun hx => ?_) <;> [(clear_value (hv : x = _); rw [hv]); clear_value x] | clear_value x | skip)
    | with_reducible exact Quiet.refl _
    | with_reducible assumption
    | simp -zeta only [↓ Quiet.make]
    | with_reducible refine Quiet.of ?_
    | (dsimp -zeta only)

theorem genCommit_quiet {o₀ : Dev} (d : Dev) (h₀ : Quiet o₀ d) : Quiet o₀ (genCommit d) := by
  refine h₀.trans ?_
  unfold genCommit
  repeat' first
    | (extract_lets +onlyGivenNames x; first | refine Quiet.cut (x := x) ?_ (fun hx => ?_) <;> [(clear_value (hv : x = _); rw [hv]); clear_value x] | clear_value x | skip)
    | with_reducible exact Quiet.refl _
    | with_reducible assumption
    | simp -zeta only [↓ Quiet.make]
    | with_reducible refine Quiet.of ?_
    | with_reducible apply Quiet.ite
    | with_reducible refine Quiet.foldl (fun d x => ?_) ?_
    | with_reducible refine Quiet.foldlFst (fun d x => ?_) ?_
    | with_reducible apply setGen_quiet
    | split
    | (dsimp -zeta only)

theorem genLoaded_quiet {o₀ : Dev} (d : Dev) (h₀ : Quiet o₀ d) : Quiet o₀ (genLoaded d) := by
  refine h₀.trans ?_
  unfold genLoaded
  repeat' first
    | (extract_lets +onlyGivenNames x; first | refine Quiet.cut (x := x) ?_ (fun hx => ?_) <;> [(clear_value (hv : x = _); rw [hv]); clear_value x] | clear_value x | skip)
    | with_reducible exact Quiet.refl _
    | with_reducible assumption
    | simp -zeta only [↓ Quiet.make]
    | with_reducible refine Quiet.of ?_
    | (dsimp -zeta only)

theorem genMake_quiet {o₀ : Dev} (d : Dev) (g e : Nat) (h₀ : Quiet o₀ d) : Quiet o₀ (genMake d g e) := by
  refine h₀.trans ?_
  unfold genMake
  repeat' first
    | (extract_lets +onlyGivenNames x; first | refine Quiet.cut (x := x) ?_ (fun hx => ?_) <;> [(clear_value (hv : x = _); rw [hv]); clear_value x] | clear_value x | skip)
    | with_reducible exact Quiet.refl _
    | with_reducible assumption
    | simp -zeta only [↓ Quiet.make]
    | with_reducible refine Quiet.of ?_
    | with_reducible apply Quiet.ite
    | with_reducible refine Quiet.foldl (fun d x => ?_) ?_
    | with_reducible refine Quiet.foldlFst (fun d x => ?_) ?_
    | with_reducible apply setGen_quiet
    | split
    | (dsimp -zeta only)

theorem genMakeAll_quiet {o₀ : Dev} (d : Dev) (e : Nat) (h₀ : Quiet o₀ d) : Quiet o₀ (genMakeAll d e) := by
  refine h₀.trans ?_
  unfold genMakeAll
  repeat' first
    | with_reducible exact Quiet.refl _
    | with_reducible assumption
    | with_reducible refine Quiet.foldl (fun d x => ?_) ?_
    | with_reducible refine Quiet.foldlFst (fun d x => ?_) ?_
    | with_reducible apply genMake_quiet
    | (dsimp -zeta only)

theorem sweepStart_quiet {o₀ : Dev} (g : Nat) (d : Dev) (h₀ : Quiet o₀ d) : Quiet o₀ (sweepStart g d) := by
  refine h₀.trans ?_
  unfold sweepStart
  repeat' first
    | (extract_lets +onlyGivenNames x; first | refine Quiet.cut (x := x) ?_ (fun hx => ?_) <;> [(clear_value (hv : x = _); rw [hv]); clear_value x] | clear_value x | skip)
    | with_reducible exact Quiet.refl _
    | with_reducible assumption
    | simp -zeta only [↓ Quiet.make]
    | with_reducible refine Quiet.of ?_
    | with_reducible apply Quiet.ite
    | with_reducible apply setGen_quiet
    | split
    | (dsimp -zeta only)

end Sys2Proof.Machine
end

