-- ==== Sys2Proof/Laws/QuietGeo.lean ====
section
/-!
SUPPORT. Sys2Proof/Laws/QuietGeo.lean: for each operation of Machine/Geo.lean, that it is `Quiet` (or only `Sound`).
-/
set_option linter.all false
namespace Sys2Proof.Machine

theorem geoReport_quiet {o₀ : Dev} (d : Dev) (h₀ : Quiet o₀ d) : Quiet o₀ (geoReport d) := by
  refine h₀.trans ?_
  unfold geoReport
  repeat' first
    | (extract_lets +onlyGivenNames x; first | refine Quiet.cut (x := x) ?_ (fun hx => ?_) <;> [(clear_value (hv : x = _); rw [hv]); clear_value x] | clear_value x | skip)
    | with_reducible exact Quiet.refl _
    | with_reducible assumption
    | simp -zeta only [↓ Quiet.make]
    | with_reducible refine Quiet.of ?_
    | with_reducible apply liveSet_quiet
    | with_reducible apply liveSetB_quiet
    | split
    | (dsimp -zeta only)

theorem geoActivate_quiet {o₀ : Dev} (type : Nat) (p : List Byte) (d : Dev) (h₀ : Quiet o₀ d) : Quiet o₀ (geoActivate type p d) := by
  refine h₀.trans ?_
  unfold geoActivate
  repeat' first
    | (extract_lets +onlyGivenNames x; first | refine Quiet.cut (x := x) ?_ (fun hx => ?_) <;> [(clear_value (hv : x = _); rw [hv]); clear_value x] | clear_value x | skip)
    | with_reducible exact Quiet.refl _
    | with_reducible assumption
    | simp -zeta only [↓ Quiet.make]
    | with_reducible refine Quiet.of ?_
    | with_reducible apply geoReport_quiet

theorem soundUpdate_quiet {o₀ : Dev} (d : Dev) (h₀ : Quiet o₀ d) : Quiet o₀ (soundUpdate d) := by
  refine h₀.trans ?_
  unfold soundUpdate
  repeat' first
    | (extract_lets +onlyGivenNames x; first | refine Quiet.cut (x := x) ?_ (fun hx => ?_) <;> [(clear_value (hv : x = _); rw [hv]); clear_value x] | clear_value x | skip)
    | with_reducible exact Quiet.refl _
    | with_reducible assumption
    | with_reducible apply liveSet_quiet

theorem geoObject_quiet {o₀ : Dev} (groups : List (Nat × Nat × Nat × Bool)) (k : Nat) (bulkOf : Nat → Nat) (a : Dev × List (Nat × List Target) × Nat) (n : Nat) (h₀ : Quiet o₀ a.1) : Quiet o₀ (geoObject groups k bulkOf a n).1 := by
  refine h₀.trans ?_
  unfold geoObject
  repeat' first
    | (extract_lets +onlyGivenNames x; first | refine Quiet.cut (x := x) ?_ (fun hx => ?_) <;> [(clear_value (hv : x = _); rw [hv]); clear_value x] | clear_value x | skip)
    | with_reducible exact Quiet.refl _
    | with_reducible assumption
    | simp -zeta only [↓ Quiet.make]
    | with_reducible refine Quiet.of ?_
    | with_reducible apply Quiet.ite
    | with_reducible apply liveSet_quiet
    | split
    | (dsimp -zeta only)

theorem geoRest_quiet {o₀ : Dev} (on : List Nat) (d : Dev) (h₀ : Quiet o₀ d) : Quiet o₀ (geoRest on d) := by
  refine h₀.trans ?_
  unfold geoRest
  repeat' first
    | (extract_lets +onlyGivenNames x; first | refine Quiet.cut (x := x) ?_ (fun hx => ?_) <;> [(clear_value (hv : x = _); rw [hv]); clear_value x] | clear_value x | skip)
    | with_reducible exact Quiet.refl _
    | with_reducible assumption
    | with_reducible apply Quiet.ite
    | with_reducible refine Quiet.foldl (fun d x => ?_) ?_
    | with_reducible refine Quiet.foldlFst (fun d x => ?_) ?_
    | with_reducible apply liveSet_quiet
    | split
    | (dsimp -zeta only)

theorem geoEvaluate_quiet {o₀ : Dev} (bulkOf : Nat → Nat) (d : Dev) (h₀ : Quiet o₀ d) : Quiet o₀ (geoEvaluate bulkOf d) := by
  refine h₀.trans ?_
  unfold geoEvaluate
  repeat' first
    | (extract_lets +onlyGivenNames x; first | refine Quiet.cut (x := x) ?_ (fun hx => ?_) <;> [(clear_value (hv : x = _); rw [hv]); clear_value x] | refine Quiet.cut (x := x.1) ?_ (fun hx => ?_) <;> [(clear_value (hv : x = _); rw [hv]); clear_value x] | clear_value x | skip)
    | with_reducible exact Quiet.refl _
    | with_reducible assumption
    | simp -zeta only [↓ Quiet.make]
    | with_reducible refine Quiet.of ?_
    | with_reducible apply Quiet.ite
    | with_reducible refine Quiet.foldl (fun d x => ?_) ?_
    | with_reducible refine Quiet.foldlFst (fun d x => ?_) ?_
    | with_reducible apply liveSetF_quiet
    | with_reducible apply liveSetB_quiet
    | with_reducible apply liveMax_quiet
    | with_reducible apply geoObject_quiet
    | with_reducible apply geoRest_quiet
    | split
    | (dsimp -zeta only)

end Sys2Proof.Machine
end

