-- ==== Sys2Proof/Laws/QuietFlash.lean ====
section
/-!
SUPPORT. Sys2Proof/Laws/QuietFlash.lean: for each operation of Machine/Flash.lean, that it is `Quiet` (or only `Sound`).
-/
set_option linter.all false
namespace Sys2Proof.Machine

theorem setFlash_quiet {o₀ : Dev} (d : Dev) (m : List (Nat × Byte)) (h₀ : Quiet o₀ d) : Quiet o₀ (setFlash d m) := by
  refine h₀.trans ?_
  unfold setFlash
  repeat' first
    | (extract_lets +onlyGivenNames x; first | refine Quiet.cut (x := x) ?_ (fun hx => ?_) <;> [(clear_value (hv : x = _); rw [hv]); clear_value x] | clear_value x | skip)
    | with_reducible exact Quiet.refl _
    | with_reducible assumption
    | simp -zeta only [↓ Quiet.make]
    | with_reducible refine Quiet.of ?_

theorem flashProgram_quiet {o₀ : Dev} (d : Dev) (a : Nat) (bs : List Byte) (h₀ : Quiet o₀ d) : Quiet o₀ (flashProgram d a bs) := by
  refine h₀.trans ?_
  unfold flashProgram
  repeat' first
    | with_reducible exact Quiet.refl _
    | with_reducible assumption
    | with_reducible apply setFlash_quiet

theorem flashErase_quiet {o₀ : Dev} (d : Dev) (a n : Nat) (h₀ : Quiet o₀ d) : Quiet o₀ (flashErase d a n) := by
  refine h₀.trans ?_
  unfold flashErase
  repeat' first
    | with_reducible exact Quiet.refl _
    | with_reducible assumption
    | with_reducible apply setFlash_quiet
    | (dsimp -zeta only)

theorem reportGens_quiet {o₀ : Dev} (d : Dev) (h₀ : Quiet o₀ d) : Quiet o₀ (reportGens d) := by
  refine h₀.trans ?_
  unfold reportGens
  repeat' first
    | (extract_lets +onlyGivenNames x; first | refine Quiet.cut (x := x) ?_ (fun hx => ?_) <;> [(clear_value (hv : x = _); rw [hv]); clear_value x] | (have e : _ → _ := x; clear e; clear_value (hv : x = _); subst hv; beta_reduce) | clear_value x | skip)
    | with_reducible exact Quiet.refl _
    | with_reducible assumption
    | simp -zeta only [↓ Quiet.make]
    | with_reducible refine Quiet.of ?_
    | with_reducible apply liveSet_quiet
    | split
    | (dsimp -zeta only)

theorem recordReport_quiet {o₀ : Dev} (d : Dev) (h₀ : Quiet o₀ d) : Quiet o₀ (recordReport d) := by
  refine h₀.trans ?_
  unfold recordReport
  repeat' first
    | (extract_lets +onlyGivenNames x; first | refine Quiet.cut (x := x) ?_ (fun hx => ?_) <;> [(clear_value (hv : x = _); rw [hv]); clear_value x] | clear_value x | skip)
    | with_reducible exact Quiet.refl _
    | with_reducible assumption
    | simp -zeta only [↓ Quiet.make]
    | with_reducible refine Quiet.of ?_
    | with_reducible apply Quiet.ite
    | with_reducible apply liveSet_quiet
    | with_reducible apply liveSetF_quiet
    | with_reducible apply liveSetB_quiet
    | split

theorem writeRecord'_quiet {o₀ : Dev} (d : Dev) (r : BootRec) (h₀ : Quiet o₀ d) : Quiet o₀ (writeRecord' d r) := by
  refine h₀.trans ?_
  unfold writeRecord'
  repeat' first
    | (extract_lets +onlyGivenNames x; first | refine Quiet.cut (x := x) ?_ (fun hx => ?_) <;> [(clear_value (hv : x = _); rw [hv]); clear_value x] | clear_value x | skip)
    | with_reducible exact Quiet.refl _
    | with_reducible assumption
    | simp -zeta only [↓ Quiet.make]
    | with_reducible refine Quiet.of ?_
    | with_reducible apply Quiet.ite
    | with_reducible apply flashProgram_quiet
    | with_reducible apply flashErase_quiet
    | with_reducible apply recordReport_quiet
    | split

theorem confirmRunning_quiet {o₀ : Dev} (d : Dev) (h₀ : Quiet o₀ d) : Quiet o₀ (confirmRunning d) := by
  refine h₀.trans ?_
  unfold confirmRunning
  repeat' first
    | (extract_lets +onlyGivenNames x; first | refine Quiet.cut (x := x) ?_ (fun hx => ?_) <;> [(clear_value (hv : x = _); rw [hv]); clear_value x] | clear_value x | skip)
    | with_reducible exact Quiet.refl _
    | with_reducible assumption
    | simp -zeta only [↓ Quiet.make]
    | with_reducible refine Quiet.of ?_
    | with_reducible apply writeRecord'_quiet
    | split

theorem mirrorAdd_quiet {o₀ : Dev} (d : Dev) (e : List Word) (h₀ : Quiet o₀ d) : Quiet o₀ (mirrorAdd d e) := by
  refine h₀.trans ?_
  unfold mirrorAdd
  repeat' first
    | (extract_lets +onlyGivenNames x; first | refine Quiet.cut (x := x) ?_ (fun hx => ?_) <;> [(clear_value (hv : x = _); rw [hv]); clear_value x] | clear_value x | skip)
    | with_reducible exact Quiet.refl _
    | with_reducible assumption
    | simp -zeta only [↓ Quiet.make]
    | with_reducible refine Quiet.of ?_
    | with_reducible apply Quiet.ite
    | with_reducible apply bump_quiet
    | split

theorem mirrorReport_quiet {o₀ : Dev} (d : Dev) (h₀ : Quiet o₀ d) : Quiet o₀ (mirrorReport d) := by
  refine h₀.trans ?_
  unfold mirrorReport
  repeat' first
    | with_reducible exact Quiet.refl _
    | with_reducible assumption
    | with_reducible apply liveSetF_quiet

theorem errorCollect_quiet {o₀ : Dev} (d : Dev) (h₀ : Quiet o₀ d) : Quiet o₀ (errorCollect d) := by
  refine h₀.trans ?_
  unfold errorCollect
  repeat' first
    | (extract_lets +onlyGivenNames x; first | refine Quiet.cut (x := x) ?_ (fun hx => ?_) <;> [(clear_value (hv : x = _); rw [hv]); clear_value x] | refine Quiet.cut (x := x.1) ?_ (fun hx => ?_) <;> [(clear_value (hv : x = _); rw [hv]); clear_value x] | clear_value x | skip)
    | with_reducible exact Quiet.refl _
    | with_reducible assumption
    | simp -zeta only [↓ Quiet.make]
    | with_reducible refine Quiet.of ?_
    | with_reducible apply Quiet.ite
    | with_reducible refine Quiet.foldl (fun d x => ?_) ?_
    | with_reducible refine Quiet.foldlFst (fun d x => ?_) ?_
    | with_reducible apply liveSet_quiet
    | with_reducible apply liveSetF_quiet
    | with_reducible apply liveSetB_quiet
    | with_reducible apply bump_quiet
    | with_reducible apply mirrorAdd_quiet
    | with_reducible apply mirrorReport_quiet
    | split
    | (dsimp -zeta only)

theorem mirrorWrite_quiet {o₀ : Dev} (ok : Bool) (d : Dev) (h₀ : Quiet o₀ d) : Quiet o₀ (mirrorWrite ok d) := by
  refine h₀.trans ?_
  unfold mirrorWrite
  repeat' first
    | (extract_lets +onlyGivenNames x; first | refine Quiet.cut (x := x) ?_ (fun hx => ?_) <;> [(clear_value (hv : x = _); rw [hv]); clear_value x] | clear_value x | skip)
    | with_reducible exact Quiet.refl _
    | with_reducible assumption
    | simp -zeta only [↓ Quiet.make]
    | with_reducible refine Quiet.of ?_
    | with_reducible apply Quiet.ite
    | with_reducible apply liveSetB_quiet
    | with_reducible apply raiseErr_quiet
    | with_reducible apply flashProgram_quiet
    | with_reducible apply flashErase_quiet
    | with_reducible apply mirrorReport_quiet
    | split
    | (dsimp -zeta only)

theorem mirrorPlace_quiet {o₀ : Dev} (d : Dev) (h₀ : Quiet o₀ d) : Quiet o₀ (mirrorPlace d) := by
  refine h₀.trans ?_
  unfold mirrorPlace
  repeat' first
    | (extract_lets +onlyGivenNames x; first | refine Quiet.cut (x := x) ?_ (fun hx => ?_) <;> [(clear_value (hv : x = _); rw [hv]); clear_value x] | clear_value x | skip)
    | with_reducible exact Quiet.refl _
    | with_reducible assumption
    | simp -zeta only [↓ Quiet.make]
    | with_reducible refine Quiet.of ?_
    | with_reducible apply Quiet.ite
    | with_reducible refine Quiet.foldl (fun d x => ?_) ?_
    | with_reducible refine Quiet.foldlFst (fun d x => ?_) ?_
    | split
    | (dsimp -zeta only)

theorem mirrorLoad_quiet {o₀ : Dev} (d : Dev) (h₀ : Quiet o₀ d) : Quiet o₀ (mirrorLoad d) := by
  refine h₀.trans ?_
  unfold mirrorLoad
  repeat' first
    | (extract_lets +onlyGivenNames x; first | refine Quiet.cut (x := x) ?_ (fun hx => ?_) <;> [(clear_value (hv : x = _); rw [hv]); clear_value x] | refine Quiet.cut (x := x.1) ?_ (fun hx => ?_) <;> [(clear_value (hv : x = _); rw [hv]); clear_value x] | clear_value x | skip)
    | with_reducible exact Quiet.refl _
    | with_reducible assumption
    | with_reducible refine Quiet.foldl (fun d x => ?_) ?_
    | with_reducible refine Quiet.foldlFst (fun d x => ?_) ?_
    | with_reducible apply liveSet_quiet
    | (dsimp -zeta only)

theorem flitReplay_quiet {o₀ : Dev} (link : Nat) (ok : Bool) (d : Dev) (h₀ : Quiet o₀ d) : Quiet o₀ (flitReplay link ok d) := by
  refine h₀.trans ?_
  unfold flitReplay
  repeat' first
    | (extract_lets +onlyGivenNames x; first | refine Quiet.cut (x := x) ?_ (fun hx => ?_) <;> [(clear_value (hv : x = _); rw [hv]); clear_value x] | clear_value x | skip)
    | with_reducible exact Quiet.refl _
    | with_reducible assumption
    | simp -zeta only [↓ Quiet.make]
    | with_reducible refine Quiet.of ?_
    | with_reducible apply Quiet.ite
    | with_reducible apply raiseErr_quiet
    | split
    | (dsimp -zeta only)

theorem linkReports_quiet {o₀ : Dev} (d : Dev) (h₀ : Quiet o₀ d) : Quiet o₀ (linkReports d) := by
  refine h₀.trans ?_
  unfold linkReports
  repeat' first
    | (extract_lets +onlyGivenNames x; first | refine Quiet.cut (x := x) ?_ (fun hx => ?_) <;> [(clear_value (hv : x = _); rw [hv]); clear_value x] | clear_value x | skip)
    | with_reducible exact Quiet.refl _
    | with_reducible assumption
    | simp -zeta only [↓ Quiet.make]
    | with_reducible refine Quiet.of ?_
    | with_reducible apply Quiet.ite
    | with_reducible refine Quiet.foldl (fun d x => ?_) ?_
    | with_reducible refine Quiet.foldlFst (fun d x => ?_) ?_
    | with_reducible apply raiseErr_quiet
    | split
    | (dsimp -zeta only)

end Sys2Proof.Machine
end

