-- ==== Sys2Proof/Laws/QuietGain.lean ====
section
/-!
SUPPORT. Sys2Proof/Laws/QuietGain.lean: for each operation of Machine/Gain.lean, that it is `Quiet` (or only `Sound`).
-/
set_option linter.all false
namespace Sys2Proof.Machine

theorem setGain_quiet {o₀ : Dev} (d : Dev) (c : GainCh) (g : GainCell) (h₀ : Quiet o₀ d) : Quiet o₀ (setGain d c g) := by
  refine h₀.trans ?_
  unfold setGain
  repeat' first
    | (extract_lets +onlyGivenNames x; first | refine Quiet.cut (x := x) ?_ (fun hx => ?_) <;> [(clear_value (hv : x = _); rw [hv]); clear_value x] | clear_value x | skip)
    | with_reducible exact Quiet.refl _
    | with_reducible assumption
    | simp -zeta only [↓ Quiet.make]
    | with_reducible refine Quiet.of ?_

theorem putGain_quiet {o₀ : Dev} (d : Dev) (c : GainCh) (g : GainCell) (timedOut : Bool) (h₀ : Quiet o₀ d) : Quiet o₀ (putGain d c g timedOut) := by
  refine h₀.trans ?_
  unfold putGain
  repeat' first
    | (extract_lets +onlyGivenNames x; first | refine Quiet.cut (x := x) ?_ (fun hx => ?_) <;> [(clear_value (hv : x = _); rw [hv]); clear_value x] | clear_value x | skip)
    | with_reducible exact Quiet.refl _
    | with_reducible assumption
    | simp -zeta only [↓ Quiet.make]
    | with_reducible refine Quiet.of ?_
    | with_reducible apply Quiet.ite
    | with_reducible apply liveSetB_quiet
    | with_reducible apply setGain_quiet
    | split

theorem askGain_quiet {o₀ : Dev} (d : Dev) (c : GainCh) (w : Int) (h₀ : Quiet o₀ d) : Quiet o₀ (askGain d c w) := by
  refine h₀.trans ?_
  unfold askGain
  repeat' first
    | with_reducible exact Quiet.refl _
    | with_reducible assumption
    | with_reducible apply putGain_quiet

theorem zeroCrossing_quiet {o₀ : Dev} (c : GainCh) (x : Int) (d : Dev) (h₀ : Quiet o₀ d) : Quiet o₀ (zeroCrossing c x d) := by
  refine h₀.trans ?_
  unfold zeroCrossing
  repeat' first
    | (extract_lets +onlyGivenNames x; first | refine Quiet.cut (x := x) ?_ (fun hx => ?_) <;> [(clear_value (hv : x = _); rw [hv]); clear_value x] | clear_value x | skip)
    | with_reducible exact Quiet.refl _
    | with_reducible assumption
    | simp -zeta only [↓ Quiet.make]
    | with_reducible refine Quiet.of ?_
    | with_reducible apply Quiet.ite
    | with_reducible apply setGain_quiet
    | with_reducible apply putGain_quiet
    | split

theorem zcTimeout_quiet {o₀ : Dev} (c : GainCh) (d : Dev) (h₀ : Quiet o₀ d) : Quiet o₀ (zcTimeout c d) := by
  refine h₀.trans ?_
  unfold zcTimeout
  repeat' first
    | (extract_lets +onlyGivenNames x; first | refine Quiet.cut (x := x) ?_ (fun hx => ?_) <;> [(clear_value (hv : x = _); rw [hv]); clear_value x] | clear_value x | skip)
    | with_reducible exact Quiet.refl _
    | with_reducible assumption
    | simp -zeta only [↓ Quiet.make]
    | with_reducible refine Quiet.of ?_
    | with_reducible apply putGain_quiet
    | split

theorem noteGain_quiet {o₀ : Dev} (d : Dev) (c : GainCh) (xs : List Int) (h₀ : Quiet o₀ d) : Quiet o₀ (noteGain d c xs) := by
  refine h₀.trans ?_
  unfold noteGain
  repeat' first
    | (extract_lets +onlyGivenNames x; first | refine Quiet.cut (x := x) ?_ (fun hx => ?_) <;> [(clear_value (hv : x = _); rw [hv]); clear_value x] | (have e : _ → _ := x; clear e; clear_value (hv : x = _); subst hv; beta_reduce) | clear_value x | skip)
    | with_reducible exact Quiet.refl _
    | with_reducible assumption
    | simp -zeta only [↓ Quiet.make]
    | with_reducible refine Quiet.of ?_
    | with_reducible apply Quiet.ite
    | split
    | (dsimp -zeta only)

end Sys2Proof.Machine
end

