-- ==== Sys2Proof/Laws/QuietSap.lean ====
section
/-!
SUPPORT. Sys2Proof/Laws/QuietSap.lean: for each operation of Machine/Sap.lean, that it is `Quiet` (or only `Sound`).
-/
set_option linter.all false
namespace Sys2Proof.Machine

theorem setPort_quiet {o₀ : Dev} (d : Dev) (p : Nat) (x : SapPort) (h₀ : Quiet o₀ d) : Quiet o₀ (setPort d p x) := by
  refine h₀.trans ?_
  unfold setPort
  repeat' first
    | (extract_lets +onlyGivenNames x; first | refine Quiet.cut (x := x) ?_ (fun hx => ?_) <;> [(clear_value (hv : x = _); rw [hv]); clear_value x] | clear_value x | skip)
    | with_reducible exact Quiet.refl _
    | with_reducible assumption
    | simp -zeta only [↓ Quiet.make]
    | with_reducible refine Quiet.of ?_
    | (dsimp -zeta only)

theorem setPortState_quiet {o₀ : Dev} (d : Dev) (p v : Nat) (h₀ : Quiet o₀ d) : Quiet o₀ (setPortState d p v) := by
  refine h₀.trans ?_
  unfold setPortState
  repeat' first
    | with_reducible exact Quiet.refl _
    | with_reducible assumption
    | with_reducible apply liveSetF_quiet

theorem portOff_quiet {o₀ : Dev} (d : Dev) (p : Nat) (h₀ : Quiet o₀ d) : Quiet o₀ (portOff d p) := by
  refine h₀.trans ?_
  unfold portOff
  repeat' first
    | (extract_lets +onlyGivenNames x; first | refine Quiet.cut (x := x) ?_ (fun hx => ?_) <;> [(clear_value (hv : x = _); rw [hv]); clear_value x] | clear_value x | skip)
    | with_reducible exact Quiet.refl _
    | with_reducible assumption
    | with_reducible refine Quiet.foldl (fun d x => ?_) ?_
    | with_reducible refine Quiet.foldlFst (fun d x => ?_) ?_
    | with_reducible apply liveSet_quiet
    | with_reducible apply setGain_quiet
    | with_reducible apply setPort_quiet
    | (dsimp -zeta only)

theorem portStart_quiet {o₀ : Dev} (d : Dev) (p : Nat) (h₀ : Quiet o₀ d) : Quiet o₀ (portStart d p) := by
  refine h₀.trans ?_
  unfold portStart
  repeat' first
    | (extract_lets +onlyGivenNames x; first | refine Quiet.cut (x := x) ?_ (fun hx => ?_) <;> [(clear_value (hv : x = _); rw [hv]); clear_value x] | clear_value x | skip)
    | with_reducible exact Quiet.refl _
    | with_reducible assumption
    | with_reducible apply Quiet.ite
    | with_reducible apply liveSet_quiet
    | with_reducible apply setPort_quiet
    | with_reducible apply setPortState_quiet
    | split

theorem portChange_quiet {o₀ : Dev} (d : Dev) (p : Nat) (h₀ : Quiet o₀ d) : Quiet o₀ (portChange d p) := by
  refine h₀.trans ?_
  unfold portChange
  repeat' first
    | with_reducible exact Quiet.refl _
    | with_reducible assumption
    | with_reducible apply Quiet.ite
    | with_reducible apply setPortState_quiet
    | split

theorem portEpoch_quiet {o₀ : Dev} (anyEdge : Bool) (a : Dev × Nat × Nat) (p : Nat) (h₀ : Quiet o₀ a.1) : Quiet o₀ (portEpoch anyEdge a p).1 := by
  refine h₀.trans ?_
  unfold portEpoch
  repeat' first
    | (extract_lets +onlyGivenNames x; first | refine Quiet.cut (x := x) ?_ (fun hx => ?_) <;> [(clear_value (hv : x = _); rw [hv]); clear_value x] | (have e : _ → _ := x; clear e; clear_value (hv : x = _); subst hv; beta_reduce) | clear_value x | skip)
    | with_reducible exact Quiet.refl _
    | with_reducible assumption
    | simp -zeta only [↓ Quiet.make]
    | with_reducible refine Quiet.of ?_
    | with_reducible apply Quiet.ite
    | with_reducible apply liveSetB_quiet
    | with_reducible apply raiseErr_quiet
    | with_reducible apply portOff_quiet
    | with_reducible apply portStart_quiet
    | with_reducible apply portChange_quiet
    | split
    | (dsimp -zeta only)

theorem pathChange_quiet {o₀ : Dev} (e : Nat) (d : Dev) (q : Nat) (h₀ : Quiet o₀ d) : Quiet o₀ (pathChange e d q) := by
  refine h₀.trans ?_
  unfold pathChange
  repeat' first
    | (extract_lets +onlyGivenNames x; first | refine Quiet.cut (x := x) ?_ (fun hx => ?_) <;> [(clear_value (hv : x = _); rw [hv]); clear_value x] | clear_value x | skip)
    | with_reducible exact Quiet.refl _
    | with_reducible assumption
    | simp -zeta only [↓ Quiet.make]
    | with_reducible refine Quiet.of ?_
    | with_reducible apply Quiet.ite
    | with_reducible apply setGain_quiet
    | with_reducible apply askGain_quiet
    | split
    | (dsimp -zeta only)

theorem pathsAhead_quiet {o₀ : Dev} (p e : Nat) (d : Dev) (h₀ : Quiet o₀ d) : Quiet o₀ (pathsAhead p e d) := by
  refine h₀.trans ?_
  unfold pathsAhead
  repeat' first
    | with_reducible exact Quiet.refl _
    | with_reducible assumption
    | with_reducible apply Quiet.ite
    | with_reducible refine Quiet.foldl (fun d x => ?_) ?_
    | with_reducible refine Quiet.foldlFst (fun d x => ?_) ?_
    | with_reducible apply pathChange_quiet
    | split
    | (dsimp -zeta only)

theorem pathReport_quiet {o₀ : Dev} (d : Dev) (q : Nat) (h₀ : Quiet o₀ d) : Quiet o₀ (pathReport d q) := by
  refine h₀.trans ?_
  unfold pathReport
  repeat' first
    | (extract_lets +onlyGivenNames x; first | refine Quiet.cut (x := x) ?_ (fun hx => ?_) <;> [(clear_value (hv : x = _); rw [hv]); clear_value x] | clear_value x | skip)
    | with_reducible exact Quiet.refl _
    | with_reducible assumption
    | with_reducible apply Quiet.ite
    | with_reducible apply liveSet_quiet
    | split

theorem pathReports_quiet {o₀ : Dev} (d : Dev) (h₀ : Quiet o₀ d) : Quiet o₀ (pathReports d) := by
  refine h₀.trans ?_
  unfold pathReports
  repeat' first
    | with_reducible exact Quiet.refl _
    | with_reducible assumption
    | with_reducible refine Quiet.foldl (fun d x => ?_) ?_
    | with_reducible refine Quiet.foldlFst (fun d x => ?_) ?_
    | with_reducible apply pathReport_quiet

theorem pathTerms_quiet {o₀ : Dev} (d : Dev) (t l p s f q : Nat) (h₀ : Quiet o₀ d) : Quiet o₀ (pathTerms d t l p s f q).1 := by
  refine h₀.trans ?_
  unfold pathTerms
  repeat' first
    | (extract_lets +onlyGivenNames x; first | refine Quiet.cut (x := x) ?_ (fun hx => ?_) <;> [(clear_value (hv : x = _); rw [hv]); clear_value x] | (have e : _ → _ := x; clear e; clear_value (hv : x = _); subst hv; beta_reduce) | clear_value x | skip)
    | with_reducible exact Quiet.refl _
    | with_reducible assumption
    | simp -zeta only [↓ Quiet.make]
    | with_reducible refine Quiet.of ?_
    | with_reducible apply Quiet.ite
    | with_reducible refine Quiet.foldl (fun d x => ?_) ?_
    | with_reducible refine Quiet.foldlFst (fun d x => ?_) ?_
    | with_reducible apply setGain_quiet
    | with_reducible apply noteGain_quiet
    | split
    | (dsimp -zeta only)

theorem slotPaths_quiet {o₀ : Dev} (d : Dev) (l p s f : Nat) (sum : Int) (h₀ : Quiet o₀ d) : Quiet o₀ (slotPaths d l p s f sum).1 := by
  refine h₀.trans ?_
  unfold slotPaths
  extract_lets t
  exact Quiet.foldlFst (fun a q => pathTerms_quiet _ _ _ _ _ _ _ (.refl _)) (.refl _)

theorem rxFrame_quiet {o₀ : Dev} (d : Dev) (t l p f e : Nat) (din : List Word) (h₀ : Quiet o₀ d) : Quiet o₀ (rxFrame d t l p f e din) := by
  refine h₀.trans ?_
  unfold rxFrame
  repeat' first
    | (extract_lets +onlyGivenNames x; first | refine Quiet.cut (x := x) ?_ (fun hx => ?_) <;> [(clear_value (hv : x = _); rw [hv]); clear_value x] | refine Quiet.cut (x := x.1) ?_ (fun hx => ?_) <;> [(clear_value (hv : x = _); rw [hv]); clear_value x] | (have e : _ → _ := x; clear e; clear_value (hv : x = _); subst hv; beta_reduce) | clear_value x | skip)
    | with_reducible exact Quiet.refl _
    | with_reducible assumption
    | simp -zeta only [↓ Quiet.make]
    | with_reducible refine Quiet.of ?_
    | with_reducible apply Quiet.ite
    | with_reducible refine Quiet.foldl (fun d x => ?_) ?_
    | with_reducible refine Quiet.foldlFst (fun d x => ?_) ?_
    | with_reducible apply putGain_quiet
    | with_reducible apply noteGain_quiet
    | with_reducible apply setPort_quiet
    | split
    | (dsimp -zeta only)

theorem sideClip_quiet {o₀ : Dev} (d : Dev) (p s f e : Nat) (h₀ : Quiet o₀ d) : Quiet o₀ (sideClip d p s f e) := by
  refine h₀.trans ?_
  unfold sideClip
  repeat' first
    | (extract_lets +onlyGivenNames x; first | refine Quiet.cut (x := x) ?_ (fun hx => ?_) <;> [(clear_value (hv : x = _); rw [hv]); clear_value x] | clear_value x | skip)
    | with_reducible exact Quiet.refl _
    | with_reducible assumption
    | simp -zeta only [↓ Quiet.make]
    | with_reducible refine Quiet.of ?_
    | with_reducible apply Quiet.ite
    | with_reducible apply liveSetB_quiet
    | with_reducible apply bumpSat_quiet
    | with_reducible apply setPort_quiet
    | split
    | (dsimp -zeta only)

theorem txFrame_quiet {o₀ : Dev} (d : Dev) (t l p f e : Nat) (h₀ : Quiet o₀ d) : Quiet o₀ (txFrame d t l p f e) := by
  refine h₀.trans ?_
  unfold txFrame
  repeat' first
    | (extract_lets +onlyGivenNames x; first | refine Quiet.cut (x := x) ?_ (fun hx => ?_) <;> [(clear_value (hv : x = _); rw [hv]); clear_value x] | refine Quiet.cut (x := x.1) ?_ (fun hx => ?_) <;> [(clear_value (hv : x = _); rw [hv]); clear_value x] | clear_value x | skip)
    | with_reducible exact Quiet.refl _
    | with_reducible assumption
    | simp -zeta only [↓ Quiet.make]
    | with_reducible refine Quiet.of ?_
    | with_reducible apply Quiet.ite
    | with_reducible refine Quiet.foldl (fun d x => ?_) ?_
    | with_reducible refine Quiet.foldlFst (fun d x => ?_) ?_
    | with_reducible apply putGain_quiet
    | with_reducible apply noteGain_quiet
    | with_reducible apply setPort_quiet
    | with_reducible apply pathsAhead_quiet
    | with_reducible apply slotPaths_quiet
    | with_reducible apply sideClip_quiet
    | split
    | (dsimp -zeta only)

theorem portSlip_quiet {o₀ : Dev} (d : Dev) (p : Nat) (under back : Bool) (h₀ : Quiet o₀ d) : Quiet o₀ (portSlip d p under back) := by
  refine h₀.trans ?_
  unfold portSlip
  repeat' first
    | (extract_lets +onlyGivenNames x; first | refine Quiet.cut (x := x) ?_ (fun hx => ?_) <;> [(clear_value (hv : x = _); rw [hv]); clear_value x] | clear_value x | skip)
    | with_reducible exact Quiet.refl _
    | with_reducible assumption
    | simp -zeta only [↓ Quiet.make]
    | with_reducible refine Quiet.of ?_
    | with_reducible apply Quiet.ite
    | with_reducible refine Quiet.foldl (fun d x => ?_) ?_
    | with_reducible refine Quiet.foldlFst (fun d x => ?_) ?_
    | with_reducible apply liveSetB_quiet
    | with_reducible apply bump_quiet
    | with_reducible apply raiseOwn_quiet
    | with_reducible apply setGain_quiet
    | with_reducible apply setPort_quiet
    | with_reducible apply setPortState_quiet
    | split
    | (dsimp -zeta only)

theorem phaseReport_quiet {o₀ : Dev} (d : Dev) (p : Nat) (ph : Int) (h₀ : Quiet o₀ d) : Quiet o₀ (phaseReport d p ph) := by
  refine h₀.trans ?_
  unfold phaseReport
  repeat' first
    | with_reducible exact Quiet.refl _
    | with_reducible assumption
    | with_reducible apply liveSetF_quiet

theorem runFrame_quiet {o₀ : Dev} (p f : Nat) (phase : Int) (din : List Word) (d : Dev) (h₀ : Quiet o₀ d) : Quiet o₀ (runFrame p f phase din d) := by
  refine h₀.trans ?_
  unfold runFrame
  repeat' first
    | (extract_lets +onlyGivenNames x; first | refine Quiet.cut (x := x) ?_ (fun hx => ?_) <;> [(clear_value (hv : x = _); rw [hv]); clear_value x] | clear_value x | skip)
    | with_reducible exact Quiet.refl _
    | with_reducible assumption
    | simp -zeta only [↓ Quiet.make]
    | with_reducible refine Quiet.of ?_
    | with_reducible apply Quiet.ite
    | with_reducible apply liveSet_quiet
    | with_reducible apply setPort_quiet
    | with_reducible apply rxFrame_quiet
    | with_reducible apply txFrame_quiet
    | with_reducible apply phaseReport_quiet
    | split

theorem sapFrame_quiet {o₀ : Dev} (p : Nat) (phase : Int) (din : List Word) (d : Dev) (h₀ : Quiet o₀ d) : Quiet o₀ (sapFrame p phase din d) := by
  refine h₀.trans ?_
  unfold sapFrame
  repeat' first
    | (extract_lets +onlyGivenNames x; first | refine Quiet.cut (x := x) ?_ (fun hx => ?_) <;> [(clear_value (hv : x = _); rw [hv]); clear_value x] | clear_value x | skip)
    | with_reducible exact Quiet.refl _
    | with_reducible assumption
    | simp -zeta only [↓ Quiet.make]
    | with_reducible refine Quiet.of ?_
    | with_reducible apply Quiet.ite
    | with_reducible apply setPortState_quiet
    | with_reducible apply portSlip_quiet
    | with_reducible apply phaseReport_quiet
    | with_reducible apply runFrame_quiet
    | split
    | (dsimp -zeta only)

theorem sapNoClock_quiet {o₀ : Dev} (p : Nat) (d : Dev) (h₀ : Quiet o₀ d) : Quiet o₀ (sapNoClock p d) := by
  refine h₀.trans ?_
  unfold sapNoClock
  repeat' first
    | (extract_lets +onlyGivenNames x; first | refine Quiet.cut (x := x) ?_ (fun hx => ?_) <;> [(clear_value (hv : x = _); rw [hv]); clear_value x] | clear_value x | skip)
    | with_reducible exact Quiet.refl _
    | with_reducible assumption
    | simp -zeta only [↓ Quiet.make]
    | with_reducible refine Quiet.of ?_
    | with_reducible apply Quiet.ite
    | with_reducible apply liveSetB_quiet
    | with_reducible apply setPort_quiet
    | with_reducible apply portSlip_quiet
    | split

theorem sapRealign_quiet {o₀ : Dev} (p : Nat) (phase : Int) (d : Dev) (h₀ : Quiet o₀ d) : Quiet o₀ (sapRealign p phase d) := by
  refine h₀.trans ?_
  unfold sapRealign
  repeat' first
    | (extract_lets +onlyGivenNames x; first | refine Quiet.cut (x := x) ?_ (fun hx => ?_) <;> [(clear_value (hv : x = _); rw [hv]); clear_value x] | clear_value x | skip)
    | with_reducible exact Quiet.refl _
    | with_reducible assumption
    | simp -zeta only [↓ Quiet.make]
    | with_reducible refine Quiet.of ?_
    | with_reducible apply Quiet.ite
    | with_reducible apply liveSetB_quiet
    | with_reducible apply setPort_quiet
    | with_reducible apply setPortState_quiet
    | split
    | (dsimp -zeta only)

theorem sapStopped_quiet {o₀ : Dev} (p : Nat) (d : Dev) (h₀ : Quiet o₀ d) : Quiet o₀ (sapStopped p d) := by
  refine h₀.trans ?_
  unfold sapStopped
  repeat' first
    | (extract_lets +onlyGivenNames x; first | refine Quiet.cut (x := x) ?_ (fun hx => ?_) <;> [(clear_value (hv : x = _); rw [hv]); clear_value x] | clear_value x | skip)
    | with_reducible exact Quiet.refl _
    | with_reducible assumption
    | with_reducible apply Quiet.ite
    | with_reducible apply portOff_quiet
    | split
    | (dsimp -zeta only)

theorem serialTaken_quiet {o₀ : Dev} (d : Dev) (per : Nat) (h₀ : Quiet o₀ d) : Quiet o₀ (serialTaken d per) := by
  refine h₀.trans ?_
  unfold serialTaken
  repeat' first
    | (extract_lets +onlyGivenNames x; first | refine Quiet.cut (x := x) ?_ (fun hx => ?_) <;> [(clear_value (hv : x = _); rw [hv]); clear_value x] | clear_value x | skip)
    | with_reducible exact Quiet.refl _
    | with_reducible assumption
    | simp -zeta only [↓ Quiet.make]
    | with_reducible refine Quiet.of ?_
    | with_reducible apply Quiet.ite
    | with_reducible refine Quiet.foldl (fun d x => ?_) ?_
    | with_reducible refine Quiet.foldlFst (fun d x => ?_) ?_
    | with_reducible apply setPort_quiet
    | split
    | (dsimp -zeta only)

theorem sapEpoch_quiet {o₀ : Dev} (d : Dev) (h₀ : Quiet o₀ d) : Quiet o₀ (sapEpoch d) := by
  refine h₀.trans ?_
  unfold sapEpoch
  repeat' first
    | (extract_lets +onlyGivenNames x; first | refine Quiet.cut (x := x) ?_ (fun hx => ?_) <;> [(clear_value (hv : x = _); rw [hv]); clear_value x] | refine Quiet.cut (x := x.1) ?_ (fun hx => ?_) <;> [(clear_value (hv : x = _); rw [hv]); clear_value x] | clear_value x | skip)
    | with_reducible exact Quiet.refl _
    | with_reducible assumption
    | simp -zeta only [↓ Quiet.make]
    | with_reducible refine Quiet.of ?_
    | with_reducible apply Quiet.ite
    | with_reducible refine Quiet.foldl (fun d x => ?_) ?_
    | with_reducible refine Quiet.foldlFst (fun d x => ?_) ?_
    | with_reducible apply liveSet_quiet
    | with_reducible apply raiseErr_quiet
    | with_reducible apply portOff_quiet
    | with_reducible apply portEpoch_quiet
    | split
    | (dsimp -zeta only)

theorem pathsEpoch_quiet {o₀ : Dev} (d : Dev) (h₀ : Quiet o₀ d) : Quiet o₀ (pathsEpoch d) := by
  refine h₀.trans ?_
  unfold pathsEpoch
  repeat' first
    | with_reducible exact Quiet.refl _
    | with_reducible assumption
    | with_reducible refine Quiet.foldl (fun d x => ?_) ?_
    | with_reducible refine Quiet.foldlFst (fun d x => ?_) ?_
    | with_reducible apply pathChange_quiet
    | with_reducible apply pathReports_quiet

end Sys2Proof.Machine
end

