-- ==== Sys2Proof/Laws/QuietCnd.lean ====
section
/-!
SUPPORT. Sys2Proof/Laws/QuietCnd.lean: for each operation of Machine/Cnd.lean, that it is `Quiet` (or only `Sound`).
-/
set_option linter.all false
namespace Sys2Proof.Machine

theorem cndStandby_quiet {o₀ : Dev} (payload : List Byte) (d : Dev) (h₀ : Quiet o₀ d) : Quiet o₀ (cndStandby payload d) := by
  refine h₀.trans ?_
  unfold cndStandby
  repeat' first
    | (extract_lets +onlyGivenNames x; first | refine Quiet.cut (x := x) ?_ (fun hx => ?_) <;> [(clear_value (hv : x = _); rw [hv]); clear_value x] | clear_value x | skip)
    | with_reducible exact Quiet.refl _
    | with_reducible assumption
    | simp -zeta only [↓ Quiet.make]
    | with_reducible refine Quiet.of ?_
    | with_reducible apply Quiet.ite
    | with_reducible apply liveSetB_quiet
    | split

theorem cndSwap_quiet {o₀ : Dev} (d : Dev) (h₀ : Quiet o₀ d) : Quiet o₀ (cndSwap d) := by
  refine h₀.trans ?_
  unfold cndSwap
  repeat' first
    | (extract_lets +onlyGivenNames x; first | refine Quiet.cut (x := x) ?_ (fun hx => ?_) <;> [(clear_value (hv : x = _); rw [hv]); clear_value x] | clear_value x | skip)
    | with_reducible exact Quiet.refl _
    | with_reducible assumption
    | simp -zeta only [↓ Quiet.make]
    | with_reducible refine Quiet.of ?_
    | with_reducible apply liveSetB_quiet

theorem setSlot_quiet {o₀ : Dev} (d : Dev) (s : Nat) (x : CndSlot) (h₀ : Quiet o₀ d) : Quiet o₀ (setSlot d s x) := by
  refine h₀.trans ?_
  unfold setSlot
  repeat' first
    | (extract_lets +onlyGivenNames x; first | refine Quiet.cut (x := x) ?_ (fun hx => ?_) <;> [(clear_value (hv : x = _); rw [hv]); clear_value x] | clear_value x | skip)
    | with_reducible exact Quiet.refl _
    | with_reducible assumption
    | simp -zeta only [↓ Quiet.make]
    | with_reducible refine Quiet.of ?_

theorem slotReport_quiet {o₀ : Dev} (d : Dev) (s : Nat) (uns : Bool) (left : Nat) (h₀ : Quiet o₀ d) : Quiet o₀ (slotReport d s uns left) := by
  refine h₀.trans ?_
  unfold slotReport
  repeat' first
    | (extract_lets +onlyGivenNames x; first | refine Quiet.cut (x := x) ?_ (fun hx => ?_) <;> [(clear_value (hv : x = _); rw [hv]); clear_value x] | clear_value x | skip)
    | with_reducible exact Quiet.refl _
    | with_reducible assumption
    | with_reducible apply liveSet_quiet

theorem countEntered_quiet {o₀ : Dev} (d : Dev) (s : Nat) (h₀ : Quiet o₀ d) : Quiet o₀ (countEntered d s) := by
  refine h₀.trans ?_
  unfold countEntered
  repeat' first
    | (extract_lets +onlyGivenNames x; first | refine Quiet.cut (x := x) ?_ (fun hx => ?_) <;> [(clear_value (hv : x = _); rw [hv]); clear_value x] | clear_value x | skip)
    | with_reducible exact Quiet.refl _
    | with_reducible assumption
    | simp -zeta only [↓ Quiet.make]
    | with_reducible refine Quiet.of ?_
    | with_reducible apply Quiet.ite
    | split

theorem slotReset_quiet {o₀ : Dev} (d : Dev) (s : Nat) (x : CndSlot) (h₀ : Quiet o₀ d) : Quiet o₀ (slotReset d s x).1 := by
  refine h₀.trans ?_
  unfold slotReset
  repeat' first
    | (extract_lets +onlyGivenNames x; first | refine Quiet.cut (x := x) ?_ (fun hx => ?_) <;> [(clear_value (hv : x = _); rw [hv]); clear_value x] | clear_value x | skip)
    | with_reducible exact Quiet.refl _
    | with_reducible assumption
    | simp -zeta only [↓ Quiet.make]
    | with_reducible refine Quiet.of ?_
    | with_reducible apply Quiet.ite
    | with_reducible apply liveSet_quiet
    | with_reducible apply liveSetF_quiet
    | with_reducible apply liveSetB_quiet
    | with_reducible apply bump_quiet
    | with_reducible apply slotReport_quiet
    | with_reducible apply countEntered_quiet
    | split

theorem iselReport_quiet {o₀ : Dev} (d : Dev) (s : Nat) (h₀ : Quiet o₀ d) : Quiet o₀ (iselReport d s) := by
  refine h₀.trans ?_
  unfold iselReport
  repeat' first
    | (extract_lets +onlyGivenNames x; first | refine Quiet.cut (x := x) ?_ (fun hx => ?_) <;> [(clear_value (hv : x = _); rw [hv]); clear_value x] | clear_value x | skip)
    | with_reducible exact Quiet.refl _
    | with_reducible assumption
    | with_reducible apply liveSet_quiet

theorem latencyReport_quiet {o₀ : Dev} (d : Dev) (s conv filt trim : Nat) (h₀ : Quiet o₀ d) : Quiet o₀ (latencyReport d s conv filt trim) := by
  refine h₀.trans ?_
  unfold latencyReport
  repeat' first
    | with_reducible exact Quiet.refl _
    | with_reducible assumption
    | with_reducible apply liveSetF_quiet

theorem latencyIdle_quiet {o₀ : Dev} (d : Dev) (s : Nat) (h₀ : Quiet o₀ d) : Quiet o₀ (latencyIdle d s) := by
  refine h₀.trans ?_
  unfold latencyIdle
  repeat' first
    | (extract_lets +onlyGivenNames x; first | refine Quiet.cut (x := x) ?_ (fun hx => ?_) <;> [(clear_value (hv : x = _); rw [hv]); clear_value x] | clear_value x | skip)
    | with_reducible exact Quiet.refl _
    | with_reducible assumption
    | with_reducible apply latencyReport_quiet

theorem slotBlock_quiet {o₀ : Dev} (d : Dev) (s : Nat) (h₀ : Quiet o₀ d) : Quiet o₀ (slotBlock d s) := by
  refine h₀.trans ?_
  unfold slotBlock
  repeat' first
    | (extract_lets +onlyGivenNames x; first | refine Quiet.cut (x := x) ?_ (fun hx => ?_) <;> [(clear_value (hv : x = _); rw [hv]); clear_value x] | refine Quiet.cut (x := x.1) ?_ (fun hx => ?_) <;> [(clear_value (hv : x = _); rw [hv]); clear_value x] | clear_value x | skip)
    | with_reducible exact Quiet.refl _
    | with_reducible assumption
    | simp -zeta only [↓ Quiet.make]
    | with_reducible refine Quiet.of ?_
    | with_reducible apply Quiet.ite
    | with_reducible apply askGain_quiet
    | with_reducible apply setSlot_quiet
    | with_reducible apply slotReset_quiet
    | with_reducible apply latencyReport_quiet
    | split
    | (dsimp -zeta only)

theorem cndStart_quiet {o₀ : Dev} (d : Dev) (h₀ : Quiet o₀ d) : Quiet o₀ (cndStart d) := by
  refine h₀.trans ?_
  unfold cndStart
  extract_lets +onlyGivenNames n q x
  have hx : Quiet d x := by
    show Quiet d { d with cnd := _ }
    simp -zeta only [↓ Quiet.make]
    exact Quiet.of (.refl _)
  refine Quiet.foldl (fun d s => ?_) hx
  extract_lets +onlyGivenNames cfg conv trim y a
  have ha : Quiet d a.1 := slotReset_quiet _ _ _ (.refl _)
  extract_lets +onlyGivenNames q1 q2 q3 z
  have hz : Quiet d z := by
    refine Quiet.ite ?_ (setSlot_quiet _ _ _ ha)
    exact ha.trans (Quiet.make (a := a.1) ▸ Quiet.of (.refl a.1))
  clear_value z
  exact putGain_quiet _ _ _ _ (latencyReport_quiet _ _ _ _ _ hz)

theorem cndKeep_quiet {o₀ : Dev} (d : Dev) (h₀ : Quiet o₀ d) : Quiet o₀ (cndKeep d) := by
  refine h₀.trans ?_
  unfold cndKeep
  repeat' first
    | (extract_lets +onlyGivenNames x; first | refine Quiet.cut (x := x) ?_ (fun hx => ?_) <;> [(clear_value (hv : x = _); rw [hv]); clear_value x] | (have e : _ → _ := x; clear e; clear_value (hv : x = _); subst hv; beta_reduce) | clear_value x | skip)
    | with_reducible exact Quiet.refl _
    | with_reducible assumption
    | simp -zeta only [↓ Quiet.make]
    | with_reducible refine Quiet.of ?_
    | with_reducible apply Quiet.ite
    | with_reducible refine Quiet.foldl (fun d x => ?_) ?_
    | with_reducible refine Quiet.foldlFst (fun d x => ?_) ?_
    | with_reducible apply liveSet_quiet
    | split
    | (dsimp -zeta only)

theorem cndStop_quiet {o₀ : Dev} (d : Dev) (h₀ : Quiet o₀ d) : Quiet o₀ (cndStop d) := by
  refine h₀.trans ?_
  unfold cndStop
  extract_lets +onlyGivenNames x y
  have hx : Quiet d x := Quiet.foldl (fun d e => slotReport_quiet _ _ _ _ (.refl _)) (.refl _)
  clear_value x
  have hy : Quiet d y := Quiet.foldl (fun d e => putGain_quiet _ _ _ _ (.refl _)) hx
  clear_value y
  exact liveSet_quiet _ _ _ (cndKeep_quiet _ hy)

theorem slotReports_quiet {o₀ : Dev} (d : Dev) (h₀ : Quiet o₀ d) : Quiet o₀ (slotReports d) := by
  refine h₀.trans ?_
  unfold slotReports
  repeat' first
    | (extract_lets +onlyGivenNames x; first | refine Quiet.cut (x := x) ?_ (fun hx => ?_) <;> [(clear_value (hv : x = _); rw [hv]); clear_value x] | clear_value x | skip)
    | with_reducible exact Quiet.refl _
    | with_reducible assumption
    | with_reducible apply Quiet.ite
    | with_reducible refine Quiet.foldl (fun d x => ?_) ?_
    | with_reducible refine Quiet.foldlFst (fun d x => ?_) ?_
    | with_reducible apply iselReport_quiet
    | with_reducible apply latencyIdle_quiet
    | split

theorem slotOutput_quiet {o₀ : Dev} (d : Dev) (s per : Nat) (x : CndSlot) (h₀ : Quiet o₀ d) : Quiet o₀ (slotOutput d s per x).1 := by
  refine h₀.trans ?_
  unfold slotOutput
  repeat' first
    | (extract_lets +onlyGivenNames x; first | refine Quiet.cut (x := x) ?_ (fun hx => ?_) <;> [(clear_value (hv : x = _); rw [hv]); clear_value x] | clear_value x | skip)
    | with_reducible exact Quiet.refl _
    | with_reducible assumption
    | simp -zeta only [↓ Quiet.make]
    | with_reducible refine Quiet.of ?_
    | with_reducible apply Quiet.ite
    | with_reducible apply liveSet_quiet
    | with_reducible apply liveSetF_quiet
    | with_reducible apply liveSetB_quiet
    | with_reducible apply bumpSat_quiet
    | with_reducible apply putGain_quiet
    | with_reducible apply noteGain_quiet
    | split
    | (dsimp -zeta only)

theorem slotVisit_quiet {o₀ : Dev} (per : Nat) (d : Dev) (s : Nat) (h₀ : Quiet o₀ d) : Quiet o₀ (slotVisit per d s) := by
  refine h₀.trans ?_
  unfold slotVisit
  repeat' first
    | (extract_lets +onlyGivenNames x; first | refine Quiet.cut (x := x) ?_ (fun hx => ?_) <;> [(clear_value (hv : x = _); rw [hv]); clear_value x] | refine Quiet.cut (x := x.1) ?_ (fun hx => ?_) <;> [(clear_value (hv : x = _); rw [hv]); clear_value x] | clear_value x | skip)
    | with_reducible exact Quiet.refl _
    | with_reducible assumption
    | simp -zeta only [↓ Quiet.make]
    | with_reducible refine Quiet.of ?_
    | with_reducible apply Quiet.ite
    | with_reducible apply setSlot_quiet
    | with_reducible apply slotReset_quiet
    | with_reducible apply slotOutput_quiet
    | split
    | (dsimp -zeta only)

theorem enginePeriod_sound {o₀ : Dev} (d : Dev) (h₀ : Sound o₀ d) : Sound o₀ (enginePeriod d) := by
  refine h₀.trans ?_
  unfold enginePeriod
  split
  · next hlt =>
    extract_lets +onlyGivenNames per x y
    have hx : Quiet d x := ringsTick_quiet _ _ _ (ringsTick_quiet _ _ _ (.refl _))
    have hy : Quiet d y := Quiet.ite (slotReports_quiet _ hx) hx
    extract_lets +onlyGivenNames slots w v z
    have hw : Quiet d w := Quiet.ite (Quiet.foldl (fun d s => slotBlock_quiet _ _ (.refl _)) hy) hy
    have hv : Quiet d v := Quiet.ite (Quiet.foldl (fun d s => slotVisit_quiet _ _ _ (.refl _)) hw) hy
    have hz : Quiet d z := serialTaken_quiet _ _ hv
    refine hz.sound.trans ⟨fun h => ⟨h.live, h.shadow, h.act, h.snap, h.mem, h.epoch, ?_⟩⟩
    show z.epc.period + 1 ≤ 64
    rw [hz.period]
    omega
  · exact .refl _

theorem cndFlush_quiet {o₀ : Dev} (d : Dev) (h₀ : Quiet o₀ d) : Quiet o₀ (cndFlush d) := by
  refine h₀.trans ?_
  unfold cndFlush
  repeat' first
    | (extract_lets +onlyGivenNames x; first | refine Quiet.cut (x := x) ?_ (fun hx => ?_) <;> [(clear_value (hv : x = _); rw [hv]); clear_value x] | clear_value x | skip)
    | with_reducible exact Quiet.refl _
    | with_reducible assumption
    | simp -zeta only [↓ Quiet.make]
    | with_reducible refine Quiet.of ?_
    | with_reducible apply Quiet.ite
    | split
    | (dsimp -zeta only)

theorem cndEpoch_quiet {o₀ : Dev} (d : Dev) (h₀ : Quiet o₀ d) : Quiet o₀ (cndEpoch d) := by
  refine h₀.trans ?_
  unfold cndEpoch
  repeat' first
    | (extract_lets +onlyGivenNames x; first | refine Quiet.cut (x := x) ?_ (fun hx => ?_) <;> [(clear_value (hv : x = _); rw [hv]); clear_value x] | clear_value x | skip)
    | with_reducible exact Quiet.refl _
    | with_reducible assumption
    | simp -zeta only [↓ Quiet.make]
    | with_reducible refine Quiet.of ?_
    | with_reducible apply Quiet.ite
    | with_reducible apply raiseErr_quiet
    | with_reducible apply cndKeep_quiet
    | with_reducible apply cndStop_quiet
    | split

theorem cndLand_quiet {o₀ : Dev} (d : Dev) (h₀ : Quiet o₀ d) : Quiet o₀ (cndLand d) := by
  refine h₀.trans ?_
  unfold cndLand
  repeat' first
    | (extract_lets +onlyGivenNames x; first | refine Quiet.cut (x := x) ?_ (fun hx => ?_) <;> [(clear_value (hv : x = _); rw [hv]); clear_value x] | clear_value x | skip)
    | with_reducible exact Quiet.refl _
    | with_reducible assumption
    | simp -zeta only [↓ Quiet.make]
    | with_reducible refine Quiet.of ?_
    | with_reducible apply Quiet.ite
    | with_reducible apply cndStart_quiet
    | split

theorem settleFade_quiet {o₀ : Dev} (s : Nat) (d : Dev) (h₀ : Quiet o₀ d) : Quiet o₀ (settleFade s d) := by
  refine h₀.trans ?_
  unfold settleFade
  repeat' first
    | (extract_lets +onlyGivenNames x; first | refine Quiet.cut (x := x) ?_ (fun hx => ?_) <;> [(clear_value (hv : x = _); rw [hv]); clear_value x] | clear_value x | skip)
    | with_reducible exact Quiet.refl _
    | with_reducible assumption
    | simp -zeta only [↓ Quiet.make]
    | with_reducible refine Quiet.of ?_
    | with_reducible apply Quiet.ite
    | with_reducible apply setSlot_quiet
    | split

theorem settleDone_quiet {o₀ : Dev} (s : Nat) (d : Dev) (h₀ : Quiet o₀ d) : Quiet o₀ (settleDone s d) := by
  refine h₀.trans ?_
  unfold settleDone
  repeat' first
    | (extract_lets +onlyGivenNames x; first | refine Quiet.cut (x := x) ?_ (fun hx => ?_) <;> [(clear_value (hv : x = _); rw [hv]); clear_value x] | clear_value x | skip)
    | with_reducible exact Quiet.refl _
    | with_reducible assumption
    | simp -zeta only [↓ Quiet.make]
    | with_reducible refine Quiet.of ?_
    | with_reducible apply Quiet.ite
    | with_reducible apply liveSetF_quiet
    | with_reducible apply setSlot_quiet
    | with_reducible apply slotReport_quiet
    | split

end Sys2Proof.Machine
end

