-- ==== Sys2Proof/Laws/QuietRc.lean ====
section
/-!
SUPPORT. Sys2Proof/Laws/QuietRc.lean: for each operation of Machine/Rc.lean, that it is `Quiet` (or only `Sound`).
-/
set_option linter.all false
namespace Sys2Proof.Machine

theorem tapsReport_quiet {o₀ : Dev} (d : Dev) (f : Nat) (taps : Nat) (h₀ : Quiet o₀ d) : Quiet o₀ (tapsReport d f taps) := by
  refine h₀.trans ?_
  unfold tapsReport
  repeat' first
    | with_reducible exact Quiet.refl _
    | with_reducible assumption
    | with_reducible apply liveSetF_quiet

theorem rcInstall_quiet {o₀ : Dev} (l : List (Nat × List Int)) (d : Dev) (h₀ : Quiet o₀ d) : Quiet o₀ (rcInstall l d) := by
  refine h₀.trans ?_
  unfold rcInstall
  repeat' first
    | (extract_lets +onlyGivenNames x; first | refine Quiet.cut (x := x) ?_ (fun hx => ?_) <;> [(clear_value (hv : x = _); rw [hv]); clear_value x] | clear_value x | skip)
    | with_reducible exact Quiet.refl _
    | with_reducible assumption
    | simp -zeta only [↓ Quiet.make]
    | with_reducible refine Quiet.of ?_
    | with_reducible refine Quiet.foldl (fun d x => ?_) ?_
    | with_reducible refine Quiet.foldlFst (fun d x => ?_) ?_
    | with_reducible apply tapsReport_quiet
    | (dsimp -zeta only)

theorem rcBegin_quiet {o₀ : Dev} (l : List (Nat × List Int)) (d : Dev) (h₀ : Quiet o₀ d) : Quiet o₀ (rcBegin l d) := by
  refine h₀.trans ?_
  unfold rcBegin
  repeat' first
    | (extract_lets +onlyGivenNames x; first | refine Quiet.cut (x := x) ?_ (fun hx => ?_) <;> [(clear_value (hv : x = _); rw [hv]); clear_value x] | clear_value x | skip)
    | with_reducible exact Quiet.refl _
    | with_reducible assumption
    | simp -zeta only [↓ Quiet.make]
    | with_reducible refine Quiet.of ?_

theorem standbyReport_quiet {o₀ : Dev} (d : Dev) (h₀ : Quiet o₀ d) : Quiet o₀ (standbyReport d) := by
  refine h₀.trans ?_
  unfold standbyReport
  repeat' first
    | with_reducible exact Quiet.refl _
    | with_reducible assumption
    | with_reducible apply liveSetF_quiet

theorem rcDiscard_quiet {o₀ : Dev} (d : Dev) (h₀ : Quiet o₀ d) : Quiet o₀ (rcDiscard d) := by
  refine h₀.trans ?_
  unfold rcDiscard
  repeat' first
    | (extract_lets +onlyGivenNames x; first | refine Quiet.cut (x := x) ?_ (fun hx => ?_) <;> [(clear_value (hv : x = _); rw [hv]); clear_value x] | clear_value x | skip)
    | with_reducible exact Quiet.refl _
    | with_reducible assumption
    | simp -zeta only [↓ Quiet.make]
    | with_reducible refine Quiet.of ?_
    | with_reducible refine Quiet.foldl (fun d x => ?_) ?_
    | with_reducible refine Quiet.foldlFst (fun d x => ?_) ?_
    | with_reducible apply liveSetB_quiet
    | with_reducible apply standbyReport_quiet
    | (dsimp -zeta only)

theorem rcTransform_quiet {o₀ : Dev} (d : Dev) (h₀ : Quiet o₀ d) : Quiet o₀ (rcTransform d) := by
  refine h₀.trans ?_
  unfold rcTransform
  repeat' first
    | (extract_lets +onlyGivenNames x; first | refine Quiet.cut (x := x) ?_ (fun hx => ?_) <;> [(clear_value (hv : x = _); rw [hv]); clear_value x] | clear_value x | skip)
    | with_reducible exact Quiet.refl _
    | with_reducible assumption
    | simp -zeta only [↓ Quiet.make]
    | with_reducible refine Quiet.of ?_
    | with_reducible apply Quiet.ite
    | with_reducible refine Quiet.foldl (fun d x => ?_) ?_
    | with_reducible refine Quiet.foldlFst (fun d x => ?_) ?_
    | with_reducible apply liveSetB_quiet
    | with_reducible apply standbyReport_quiet
    | split
    | (dsimp -zeta only)

theorem rcParallel_quiet {o₀ : Dev} (b : Nat) (d : Dev) (h₀ : Quiet o₀ d) : Quiet o₀ (rcParallel b d) := by
  refine h₀.trans ?_
  unfold rcParallel
  repeat' first
    | (extract_lets +onlyGivenNames x; first | refine Quiet.cut (x := x) ?_ (fun hx => ?_) <;> [(clear_value (hv : x = _); rw [hv]); clear_value x] | clear_value x | skip)
    | with_reducible exact Quiet.refl _
    | with_reducible assumption
    | simp -zeta only [↓ Quiet.make]
    | with_reducible refine Quiet.of ?_
    | with_reducible apply Quiet.ite
    | with_reducible apply liveSetB_quiet
    | split
    | (dsimp -zeta only)

theorem rcActivate_quiet {o₀ : Dev} (d : Dev) (h₀ : Quiet o₀ d) : Quiet o₀ (rcActivate d) := by
  refine h₀.trans ?_
  unfold rcActivate
  repeat' first
    | (extract_lets +onlyGivenNames x; first | refine Quiet.cut (x := x) ?_ (fun hx => ?_) <;> [(clear_value (hv : x = _); rw [hv]); clear_value x] | clear_value x | skip)
    | with_reducible exact Quiet.refl _
    | with_reducible assumption
    | simp -zeta only [↓ Quiet.make]
    | with_reducible refine Quiet.of ?_

theorem tailFailed_quiet {o₀ : Dev} (f b : Nat) (d : Dev) (h₀ : Quiet o₀ d) : Quiet o₀ (tailFailed f b d) := by
  refine h₀.trans ?_
  unfold tailFailed
  repeat' first
    | (extract_lets +onlyGivenNames x; first | refine Quiet.cut (x := x) ?_ (fun hx => ?_) <;> [(clear_value (hv : x = _); rw [hv]); clear_value x] | clear_value x | skip)
    | with_reducible exact Quiet.refl _
    | with_reducible assumption
    | simp -zeta only [↓ Quiet.make]
    | with_reducible refine Quiet.of ?_
    | (dsimp -zeta only)

theorem tailReturn_quiet {o₀ : Dev} (b : Nat) (d : Dev) (h₀ : Quiet o₀ d) : Quiet o₀ (tailReturn b d) := by
  refine h₀.trans ?_
  unfold tailReturn
  repeat' first
    | (extract_lets +onlyGivenNames x; first | refine Quiet.cut (x := x) ?_ (fun hx => ?_) <;> [(clear_value (hv : x = _); rw [hv]); clear_value x] | clear_value x | skip)
    | with_reducible exact Quiet.refl _
    | with_reducible assumption
    | simp -zeta only [↓ Quiet.make]
    | with_reducible refine Quiet.of ?_
    | split
    | (dsimp -zeta only)

theorem bqChain_quiet {o₀ : Dev} (d : Dev) (o b : Nat) (xs : List Int) (h₀ : Quiet o₀ d) : Quiet o₀ (bqChain d o b xs).1 := by
  refine h₀.trans ?_
  unfold bqChain
  repeat' first
    | (extract_lets +onlyGivenNames x; first | refine Quiet.cut (x := x) ?_ (fun hx => ?_) <;> [(clear_value (hv : x = _); rw [hv]); clear_value x] | refine Quiet.cut (x := x.1) ?_ (fun hx => ?_) <;> [(clear_value (hv : x = _); rw [hv]); clear_value x] | (have e : _ → _ := x; clear e; clear_value (hv : x = _); subst hv; beta_reduce) | clear_value x | skip)
    | with_reducible exact Quiet.refl _
    | with_reducible assumption
    | simp -zeta only [↓ Quiet.make]
    | with_reducible refine Quiet.of ?_
    | with_reducible apply Quiet.ite
    | with_reducible refine Quiet.foldl (fun d x => ?_) ?_
    | with_reducible refine Quiet.foldlFst (fun d x => ?_) ?_
    | split
    | (dsimp -zeta only)

theorem bqFed_quiet {o₀ : Dev} (o : Nat) (xs : List Int) (d : Dev) (h₀ : Quiet o₀ d) : Quiet o₀ (bqFed o xs d) := by
  refine h₀.trans ?_
  unfold bqFed
  repeat' first
    | (extract_lets +onlyGivenNames x; first | refine Quiet.cut (x := x) ?_ (fun hx => ?_) <;> [(clear_value (hv : x = _); rw [hv]); clear_value x] | clear_value x | skip)
    | with_reducible exact Quiet.refl _
    | with_reducible assumption
    | simp -zeta only [↓ Quiet.make]
    | with_reducible refine Quiet.of ?_
    | split

theorem bqKeep_quiet {o₀ : Dev} (bf bb : Nat) (d : Dev) (h₀ : Quiet o₀ d) : Quiet o₀ (bqKeep bf bb d) := by
  refine h₀.trans ?_
  unfold bqKeep
  repeat' first
    | (extract_lets +onlyGivenNames x; first | refine Quiet.cut (x := x) ?_ (fun hx => ?_) <;> [(clear_value (hv : x = _); rw [hv]); clear_value x] | clear_value x | skip)
    | with_reducible exact Quiet.refl _
    | with_reducible assumption
    | simp -zeta only [↓ Quiet.make]
    | with_reducible refine Quiet.of ?_
    | with_reducible apply Quiet.ite
    | split

theorem rcChannel_quiet {o₀ : Dev} (gen : Nat → List Int) (b prev : Nat) (swap : Option (List (Nat × List Int))) (input : Audio) (a : Dev × Audio) (o : Nat) (h₀ : Quiet o₀ a.1) : Quiet o₀ (rcChannel gen b prev swap input a o).1 := by
  refine h₀.trans ?_
  unfold rcChannel
  repeat' first
    | (extract_lets +onlyGivenNames x; first | refine Quiet.cut (x := x) ?_ (fun hx => ?_) <;> [(clear_value (hv : x = _); rw [hv]); clear_value x] | refine Quiet.cut (x := x.1) ?_ (fun hx => ?_) <;> [(clear_value (hv : x = _); rw [hv]); clear_value x] | (have e : _ → _ := x; clear e; clear_value (hv : x = _); subst hv; beta_reduce) | clear_value x | skip)
    | with_reducible exact Quiet.refl _
    | with_reducible assumption
    | simp -zeta only [↓ Quiet.make]
    | with_reducible refine Quiet.of ?_
    | with_reducible apply Quiet.ite
    | with_reducible apply liveSetB_quiet
    | with_reducible apply bumpSat_quiet
    | with_reducible apply setGain_quiet
    | with_reducible apply bqChain_quiet
    | with_reducible apply bqFed_quiet
    | split
    | (dsimp -zeta only)

theorem rcSwapDone_quiet {o₀ : Dev} (l : List (Nat × List Int)) (d : Dev) (h₀ : Quiet o₀ d) : Quiet o₀ (rcSwapDone l d) := by
  refine h₀.trans ?_
  unfold rcSwapDone
  repeat' first
    | (extract_lets +onlyGivenNames x; first | refine Quiet.cut (x := x) ?_ (fun hx => ?_) <;> [(clear_value (hv : x = _); rw [hv]); clear_value x] | clear_value x | skip)
    | with_reducible exact Quiet.refl _
    | with_reducible assumption
    | simp -zeta only [↓ Quiet.make]
    | with_reducible refine Quiet.of ?_
    | with_reducible apply Quiet.ite
    | with_reducible refine Quiet.foldl (fun d x => ?_) ?_
    | with_reducible refine Quiet.foldlFst (fun d x => ?_) ?_
    | with_reducible apply liveSetB_quiet
    | with_reducible apply bumpBy_quiet
    | with_reducible apply tapsReport_quiet
    | with_reducible apply rcDiscard_quiet
    | split
    | (dsimp -zeta only)

theorem rcQuiet_quiet {o₀ : Dev} (feeds : Bool) (d : Dev) (h₀ : Quiet o₀ d) : Quiet o₀ (rcQuiet feeds d) := by
  refine h₀.trans ?_
  unfold rcQuiet
  repeat' first
    | (extract_lets +onlyGivenNames x; first | refine Quiet.cut (x := x) ?_ (fun hx => ?_) <;> [(clear_value (hv : x = _); rw [hv]); clear_value x] | clear_value x | skip)
    | with_reducible exact Quiet.refl _
    | with_reducible assumption
    | simp -zeta only [↓ Quiet.make]
    | with_reducible refine Quiet.of ?_
    | with_reducible apply Quiet.ite
    | split
    | (dsimp -zeta only)

theorem rcCorrect_quiet {o₀ : Dev} (gen : Nat → List Int) (bf bb : Nat) (feeds buses : Audio) (d : Dev) (h₀ : Quiet o₀ d) : Quiet o₀ (rcCorrect gen bf bb feeds buses d) := by
  refine h₀.trans ?_
  unfold rcCorrect
  repeat' first
    | (extract_lets +onlyGivenNames x; first | refine Quiet.cut (x := x) ?_ (fun hx => ?_) <;> [(clear_value (hv : x = _); rw [hv]); clear_value x] | refine Quiet.cut (x := x.1) ?_ (fun hx => ?_) <;> [(clear_value (hv : x = _); rw [hv]); clear_value x] | (have e : _ → _ := x; clear e; clear_value (hv : x = _); subst hv; beta_reduce) | clear_value x | skip)
    | with_reducible exact Quiet.refl _
    | with_reducible assumption
    | simp -zeta only [↓ Quiet.make]
    | with_reducible refine Quiet.of ?_
    | with_reducible apply Quiet.ite
    | with_reducible refine Quiet.foldl (fun d x => ?_) ?_
    | with_reducible refine Quiet.foldlFst (fun d x => ?_) ?_
    | with_reducible apply liveSetF_quiet
    | with_reducible apply tailReturn_quiet
    | with_reducible apply bqKeep_quiet
    | with_reducible apply rcChannel_quiet
    | with_reducible apply rcQuiet_quiet
    | split
    | (dsimp -zeta only)

theorem rcLoadA_quiet {o₀ : Dev} (bf : Nat) (d : Dev) (h₀ : Quiet o₀ d) : Quiet o₀ (rcLoadA bf d) := by
  refine h₀.trans ?_
  unfold rcLoadA
  repeat' first
    | (extract_lets +onlyGivenNames x; first | refine Quiet.cut (x := x) ?_ (fun hx => ?_) <;> [(clear_value (hv : x = _); rw [hv]); clear_value x] | clear_value x | skip)
    | with_reducible exact Quiet.refl _
    | with_reducible assumption
    | simp -zeta only [↓ Quiet.make]
    | with_reducible refine Quiet.of ?_
    | with_reducible apply Quiet.ite
    | with_reducible apply liveSetF_quiet
    | split
    | (dsimp -zeta only)

theorem rcSwapEnds_quiet {o₀ : Dev} (d : Dev) (h₀ : Quiet o₀ d) : Quiet o₀ (rcSwapEnds d) := by
  refine h₀.trans ?_
  unfold rcSwapEnds
  repeat' first
    | (extract_lets +onlyGivenNames x; first | refine Quiet.cut (x := x) ?_ (fun hx => ?_) <;> [(clear_value (hv : x = _); rw [hv]); clear_value x] | clear_value x | skip)
    | with_reducible exact Quiet.refl _
    | with_reducible assumption
    | simp -zeta only [↓ Quiet.make]
    | with_reducible refine Quiet.of ?_
    | with_reducible apply Quiet.ite
    | with_reducible apply rcSwapDone_quiet
    | split
    | (dsimp -zeta only)

theorem rcEpoch_quiet {o₀ : Dev} (d : Dev) (h₀ : Quiet o₀ d) : Quiet o₀ (rcEpoch d) := by
  refine h₀.trans ?_
  unfold rcEpoch
  repeat' first
    | (extract_lets +onlyGivenNames x; first | refine Quiet.cut (x := x) ?_ (fun hx => ?_) <;> [(clear_value (hv : x = _); rw [hv]); clear_value x] | clear_value x | skip)
    | with_reducible exact Quiet.refl _
    | with_reducible assumption
    | with_reducible apply Quiet.ite
    | with_reducible apply liveSet_quiet
    | with_reducible apply rcTransform_quiet
    | with_reducible apply rcSwapEnds_quiet
    | split

end Sys2Proof.Machine
end

