-- ==== Sys2Proof/Laws/QuietMem.lean ====
section
/-!
SUPPORT. Sys2Proof/Laws/QuietMem.lean: for each operation of Machine/Mem.lean, that it is `Quiet` (or only `Sound`).
-/
set_option linter.all false
namespace Sys2Proof.Machine

theorem countError_quiet {o₀ : Dev} (master addr : Nat) (write : Bool) (resp : XResp) (d : Dev) (h₀ : Quiet o₀ d) : Quiet o₀ (countError master addr write resp d) := by
  refine h₀.trans ?_
  unfold countError
  repeat' first
    | (extract_lets +onlyGivenNames x; first | refine Quiet.cut (x := x) ?_ (fun hx => ?_) <;> [(clear_value (hv : x = _); rw [hv]); clear_value x] | clear_value x | skip)
    | with_reducible exact Quiet.refl _
    | with_reducible assumption
    | with_reducible apply liveSet_quiet
    | with_reducible apply liveSetB_quiet
    | with_reducible apply bump_quiet

theorem mem1Refused_quiet {o₀ : Dev} (core : Nat) (write : Bool) (off n : Nat) (d : Dev) (h₀ : Quiet o₀ d) : Quiet o₀ (mem1Refused core write off n d) := by
  refine h₀.trans ?_
  unfold mem1Refused
  repeat' first
    | (extract_lets +onlyGivenNames x; first | refine Quiet.cut (x := x) ?_ (fun hx => ?_) <;> [(clear_value (hv : x = _); rw [hv]); clear_value x] | clear_value x | skip)
    | with_reducible exact Quiet.refl _
    | with_reducible assumption
    | with_reducible apply Quiet.ite
    | with_reducible apply countError_quiet
    | split

theorem mapWf_wordsSet {m : List (Nat × Byte)} (a : Nat) (ws : List Word) (h : mapWf (fun _ => 0) m = true) :
    mapWf (fun _ => 0) (wordsSet m a ws) = true := mapWf_mapSetRun _ _ _ h

theorem mapWf_wordSets (ws : List (Nat × Word)) {m : List (Nat × Byte)} (h : mapWf (fun _ => 0) m = true) :
    mapWf (fun _ => 0) (ws.foldr (fun w m => wordSet m w.1 w.2) m) = true := by
  induction ws with
  | nil => exact h
  | cons w t ih => exact mapWf_mapSetRun _ _ _ ih

theorem setMem1_sound {o₀ : Dev} (d : Dev) (m : List (Nat × Byte)) (hm : Canonical d → mapWf (fun _ => 0) m = true) (h₀ : Sound o₀ d) : Sound o₀ (setMem1 d m) := by
  exact h₀.trans ⟨fun h => ⟨h.live, h.shadow, h.act, h.snap, { h.mem with mem1 := hm h }, h.epoch, h.period⟩⟩

theorem reservedPut_sound {o₀ : Dev} (d : Dev) (o : Nat) (b : Byte) (h₀ : Sound o₀ d) : Sound o₀ (reservedPut d o b) := by
  refine h₀.trans ?_
  exact ⟨fun h => ⟨h.live, h.shadow, h.act, h.snap, { h.mem with reserved := keysRise_put _ _ h.mem.reserved }, h.epoch, h.period⟩⟩

theorem reservedRun_sound {o₀ : Dev} (d : Dev) (o : Nat) (bs : List Byte) (h₀ : Sound o₀ d) : Sound o₀ (reservedRun d o bs) := by
  refine h₀.trans ?_
  unfold reservedRun
  repeat' first
    | with_reducible exact Sound.refl _
    | with_reducible assumption
    | with_reducible refine Sound.foldl (fun d x => ?_) ?_
    | with_reducible refine Sound.foldlFst (fun d x => ?_) ?_
    | with_reducible apply reservedPut_sound
    | (dsimp -zeta only)

theorem mem1Put_sound {o₀ : Dev} (d : Dev) (o : Nat) (b : Byte) (h₀ : Sound o₀ d) : Sound o₀ (mem1Put d o b) := by
  refine h₀.trans ?_
  unfold mem1Put
  split
  · exact setMem1_sound _ _ (fun h => mapWf_mapSetRun _ _ _ h.mem.mem1) (.refl _)
  · exact reservedPut_sound _ _ _ (.refl _)

theorem mem1PutRun_sound {o₀ : Dev} (d : Dev) (o : Nat) (bs : List Byte) (h₀ : Sound o₀ d) : Sound o₀ (mem1PutRun d o bs) := by
  refine h₀.trans ?_
  unfold mem1PutRun
  repeat' first
    | with_reducible exact Sound.refl _
    | with_reducible assumption
    | with_reducible refine Sound.foldl (fun d x => ?_) ?_
    | with_reducible refine Sound.foldlFst (fun d x => ?_) ?_
    | with_reducible apply mem1Put_sound
    | (dsimp -zeta only)

end Sys2Proof.Machine
end

