-- ==== Sys2Proof/Laws/QuietWd.lean ====
section
/-!
SUPPORT. Sys2Proof/Laws/QuietWd.lean: for each operation of Machine/Wd.lean, that it is `Quiet` (or only `Sound`).
-/
set_option linter.all false
namespace Sys2Proof.Machine

theorem setCore_quiet {o₀ : Dev} (d : Dev) (core : Nat) (c : VecCore) (h₀ : Quiet o₀ d) : Quiet o₀ (setCore d core c) := by
  refine h₀.trans ?_
  unfold setCore
  repeat' first
    | (extract_lets +onlyGivenNames x; first | refine Quiet.cut (x := x) ?_ (fun hx => ?_) <;> [(clear_value (hv : x = _); rw [hv]); clear_value x] | clear_value x | skip)
    | with_reducible exact Quiet.refl _
    | with_reducible assumption
    | simp -zeta only [↓ Quiet.make]
    | with_reducible refine Quiet.of ?_
    | (dsimp -zeta only)

theorem setCoreState_quiet {o₀ : Dev} (d : Dev) (core v : Nat) (h₀ : Quiet o₀ d) : Quiet o₀ (setCoreState d core v) := by
  refine h₀.trans ?_
  unfold setCoreState
  repeat' first
    | with_reducible exact Quiet.refl _
    | with_reducible assumption
    | with_reducible apply liveSetF_quiet

theorem wdStart_quiet {o₀ : Dev} (d : Dev) (h₀ : Quiet o₀ d) : Quiet o₀ (wdStart d) := by
  refine h₀.trans ?_
  unfold wdStart
  repeat' first
    | (extract_lets +onlyGivenNames x; first | refine Quiet.cut (x := x) ?_ (fun hx => ?_) <;> [(clear_value (hv : x = _); rw [hv]); clear_value x] | clear_value x | skip)
    | with_reducible exact Quiet.refl _
    | with_reducible assumption
    | simp -zeta only [↓ Quiet.make]
    | with_reducible refine Quiet.of ?_
    | with_reducible apply Quiet.ite
    | with_reducible apply liveSetB_quiet
    | with_reducible apply raiseErr_quiet
    | split

theorem wdStop_quiet {o₀ : Dev} (d : Dev) (h₀ : Quiet o₀ d) : Quiet o₀ (wdStop d) := by
  refine h₀.trans ?_
  unfold wdStop
  repeat' first
    | (extract_lets +onlyGivenNames x; first | refine Quiet.cut (x := x) ?_ (fun hx => ?_) <;> [(clear_value (hv : x = _); rw [hv]); clear_value x] | clear_value x | skip)
    | with_reducible exact Quiet.refl _
    | with_reducible assumption
    | simp -zeta only [↓ Quiet.make]
    | with_reducible refine Quiet.of ?_

theorem enqueue_quiet {o₀ : Dev} (d : Dev) (words : List Word) (prod : Nat) (h₀ : Quiet o₀ d) : Quiet o₀ (enqueue d words prod) := by
  refine h₀.trans ?_
  unfold enqueue
  repeat' first
    | (extract_lets +onlyGivenNames x; first | refine Quiet.cut (x := x) ?_ (fun hx => ?_) <;> [(clear_value (hv : x = _); rw [hv]); clear_value x] | clear_value x | skip)
    | with_reducible exact Quiet.refl _
    | with_reducible assumption
    | simp -zeta only [↓ Quiet.make]
    | with_reducible refine Quiet.of ?_

theorem raiseCompletion_quiet {o₀ : Dev} (d : Dev) (it : WorkItem) (h₀ : Quiet o₀ d) : Quiet o₀ (raiseCompletion d it) := by
  refine h₀.trans ?_
  unfold raiseCompletion
  repeat' first
    | (extract_lets +onlyGivenNames x; first | refine Quiet.cut (x := x) ?_ (fun hx => ?_) <;> [(clear_value (hv : x = _); rw [hv]); clear_value x] | clear_value x | skip)
    | with_reducible exact Quiet.refl _
    | with_reducible assumption
    | with_reducible apply Quiet.ite
    | with_reducible apply raiseEvt_quiet
    | split

theorem writeRecord_quiet {o₀ : Dev} (d : Dev) (it : WorkItem) (result pos : Nat) (h₀ : Quiet o₀ d) : Quiet o₀ (writeRecord d it result pos) := by
  refine h₀.trans ?_
  unfold writeRecord
  repeat' first
    | (extract_lets +onlyGivenNames x; first | refine Quiet.cut (x := x) ?_ (fun hx => ?_) <;> [(clear_value (hv : x = _); rw [hv]); clear_value x] | clear_value x | skip)
    | with_reducible exact Quiet.refl _
    | with_reducible assumption
    | simp -zeta only [↓ Quiet.make]
    | with_reducible refine Quiet.of ?_
    | with_reducible apply Quiet.ite
    | with_reducible apply liveSet_quiet
    | with_reducible apply liveSetF_quiet
    | with_reducible apply bump_quiet
    | with_reducible apply raiseOwn_quiet
    | with_reducible apply raiseCompletion_quiet
    | split

theorem submitDesc_quiet {o₀ : Dev} (d : Dev) (words : List Word) (prod : Nat) (h₀ : Quiet o₀ d) : Quiet o₀ (submitDesc d words prod) := by
  refine h₀.trans ?_
  unfold submitDesc
  repeat' first
    | with_reducible exact Quiet.refl _
    | with_reducible assumption
    | with_reducible apply Quiet.ite
    | with_reducible apply enqueue_quiet
    | with_reducible apply writeRecord_quiet
    | split

theorem leaveHandler_quiet {o₀ : Dev} (d : Dev) (core : Nat) (h₀ : Quiet o₀ d) : Quiet o₀ (leaveHandler d core) := by
  refine h₀.trans ?_
  unfold leaveHandler
  repeat' first
    | (extract_lets +onlyGivenNames x; first | refine Quiet.cut (x := x) ?_ (fun hx => ?_) <;> [(clear_value (hv : x = _); rw [hv]); clear_value x] | clear_value x | skip)
    | with_reducible exact Quiet.refl _
    | with_reducible assumption
    | simp -zeta only [↓ Quiet.make]
    | with_reducible refine Quiet.of ?_
    | with_reducible apply liveSetB_quiet
    | with_reducible apply setCore_quiet

theorem coreLoad_quiet {o₀ : Dev} (core : Nat) (d : Dev) (h₀ : Quiet o₀ d) : Quiet o₀ (coreLoad core d) := by
  refine h₀.trans ?_
  unfold coreLoad
  repeat' first
    | (extract_lets +onlyGivenNames x; first | refine Quiet.cut (x := x) ?_ (fun hx => ?_) <;> [(clear_value (hv : x = _); rw [hv]); clear_value x] | clear_value x | skip)
    | with_reducible exact Quiet.refl _
    | with_reducible assumption
    | simp -zeta only [↓ Quiet.make]
    | with_reducible refine Quiet.of ?_
    | with_reducible apply Quiet.ite
    | with_reducible refine Quiet.foldl (fun d x => ?_) ?_
    | with_reducible refine Quiet.foldlFst (fun d x => ?_) ?_
    | with_reducible apply setCore_quiet
    | split

theorem endItem_quiet {o₀ : Dev} (d : Dev) (core result : Nat) (kept : Bool) (h₀ : Quiet o₀ d) : Quiet o₀ (endItem d core result kept) := by
  refine h₀.trans ?_
  unfold endItem
  repeat' first
    | (extract_lets +onlyGivenNames x; first | refine Quiet.cut (x := x) ?_ (fun hx => ?_) <;> [(clear_value (hv : x = _); rw [hv]); clear_value x] | clear_value x | skip)
    | with_reducible exact Quiet.refl _
    | with_reducible assumption
    | simp -zeta only [↓ Quiet.make]
    | with_reducible refine Quiet.of ?_
    | with_reducible apply Quiet.ite
    | with_reducible apply setCore_quiet
    | with_reducible apply setCoreState_quiet
    | with_reducible apply writeRecord_quiet
    | with_reducible apply coreLoad_quiet
    | split

theorem dispatchOne_quiet {o₀ : Dev} (d : Dev) (h₀ : Quiet o₀ d) : Quiet o₀ (dispatchOne d) := by
  refine h₀.trans ?_
  unfold dispatchOne
  repeat' first
    | (extract_lets +onlyGivenNames x; first | refine Quiet.cut (x := x) ?_ (fun hx => ?_) <;> [(clear_value (hv : x = _); rw [hv]); clear_value x] | clear_value x | skip)
    | with_reducible exact Quiet.refl _
    | with_reducible assumption
    | simp -zeta only [↓ Quiet.make]
    | with_reducible refine Quiet.of ?_
    | with_reducible apply Quiet.ite
    | with_reducible apply liveSetF_quiet
    | with_reducible apply bump_quiet
    | with_reducible apply setCore_quiet
    | with_reducible apply setCoreState_quiet
    | split
    | (dsimp -zeta only)

theorem abortItems_quiet {o₀ : Dev} (d : Dev) (result : Nat) (all : Bool) (p : WorkItem → Bool) (h₀ : Quiet o₀ d) : Quiet o₀ (abortItems d result all p) := by
  refine h₀.trans ?_
  unfold abortItems
  repeat' first
    | (extract_lets +onlyGivenNames x; first | refine Quiet.cut (x := x) ?_ (fun hx => ?_) <;> [(clear_value (hv : x = _); rw [hv]); clear_value x] | clear_value x | skip)
    | with_reducible exact Quiet.refl _
    | with_reducible assumption
    | simp -zeta only [↓ Quiet.make]
    | with_reducible refine Quiet.of ?_
    | with_reducible apply Quiet.ite
    | with_reducible refine Quiet.foldl (fun d x => ?_) ?_
    | with_reducible refine Quiet.foldlFst (fun d x => ?_) ?_
    | with_reducible apply leaveHandler_quiet
    | with_reducible apply endItem_quiet
    | split
    | (dsimp -zeta only)

theorem removeReady_quiet {o₀ : Dev} (d : Dev) (p : WorkItem → Bool) (h₀ : Quiet o₀ d) : Quiet o₀ (removeReady d p) := by
  refine h₀.trans ?_
  unfold removeReady
  repeat' first
    | (extract_lets +onlyGivenNames x; first | refine Quiet.cut (x := x) ?_ (fun hx => ?_) <;> [(clear_value (hv : x = _); rw [hv]); clear_value x] | clear_value x | skip)
    | with_reducible exact Quiet.refl _
    | with_reducible assumption
    | simp -zeta only [↓ Quiet.make]
    | with_reducible refine Quiet.of ?_
    | with_reducible refine Quiet.foldl (fun d x => ?_) ?_
    | with_reducible refine Quiet.foldlFst (fun d x => ?_) ?_
    | with_reducible apply writeRecord_quiet
    | (dsimp -zeta only)

theorem startWake_quiet {o₀ : Dev} (d : Dev) (core : Nat) (h₀ : Quiet o₀ d) : Quiet o₀ (startWake d core) := by
  refine h₀.trans ?_
  unfold startWake
  repeat' first
    | (extract_lets +onlyGivenNames x; first | refine Quiet.cut (x := x) ?_ (fun hx => ?_) <;> [(clear_value (hv : x = _); rw [hv]); clear_value x] | clear_value x | skip)
    | with_reducible exact Quiet.refl _
    | with_reducible assumption
    | simp -zeta only [↓ Quiet.make]
    | with_reducible refine Quiet.of ?_
    | with_reducible apply Quiet.ite
    | with_reducible apply setCore_quiet
    | split

theorem powerCore_quiet {o₀ : Dev} (d : Dev) (core v : Nat) (h₀ : Quiet o₀ d) : Quiet o₀ (powerCore d core v) := by
  refine h₀.trans ?_
  unfold powerCore
  repeat' first
    | (extract_lets +onlyGivenNames x; first | refine Quiet.cut (x := x) ?_ (fun hx => ?_) <;> [(clear_value (hv : x = _); rw [hv]); clear_value x] | clear_value x | skip)
    | with_reducible exact Quiet.refl _
    | with_reducible assumption
    | simp -zeta only [↓ Quiet.make]
    | with_reducible refine Quiet.of ?_
    | with_reducible apply setCoreState_quiet

end Sys2Proof.Machine
end

