-- ==== Sys2Proof/Laws/QuietEvt.lean ====
section
/-!
SUPPORT. Sys2Proof/Laws/QuietEvt.lean: for each operation of Machine/Evt.lean, that it is `Quiet` (or only `Sound`).
-/
set_option linter.all false
namespace Sys2Proof.Machine

theorem delivered_quiet {o₀ : Dev} (d : Dev) (s : Nat) (h₀ : Quiet o₀ d) : Quiet o₀ (delivered d s) := by
  refine h₀.trans ?_
  unfold delivered
  repeat' first
    | (extract_lets +onlyGivenNames x; first | refine Quiet.cut (x := x) ?_ (fun hx => ?_) <;> [(clear_value (hv : x = _); rw [hv]); clear_value x] | clear_value x | skip)
    | with_reducible exact Quiet.refl _
    | with_reducible assumption
    | simp -zeta only [↓ Quiet.make]
    | with_reducible refine Quiet.of ?_
    | with_reducible apply Quiet.ite
    | with_reducible apply liveSetB_quiet
    | split

theorem acceptEvent_quiet {o₀ : Dev} (d : Dev) (core s : Nat) (h₀ : Quiet o₀ d) : Quiet o₀ (acceptEvent d core s) := by
  refine h₀.trans ?_
  unfold acceptEvent
  repeat' first
    | (extract_lets +onlyGivenNames x; first | refine Quiet.cut (x := x) ?_ (fun hx => ?_) <;> [(clear_value (hv : x = _); rw [hv]); clear_value x] | (have e : Regs := x; clear e) | clear_value x | skip)
    | with_reducible exact Quiet.refl _
    | with_reducible assumption
    | simp -zeta only [↓ Quiet.make]
    | with_reducible refine Quiet.of ?_
    | with_reducible apply Quiet.ite
    | with_reducible apply liveSetB_quiet
    | with_reducible apply perfHit_quiet
    | with_reducible apply setCore_quiet
    | split
    | (dsimp -zeta only)

theorem offerVector_quiet {o₀ : Dev} (a : Dev × List Nat) (s : Nat) (h₀ : Quiet o₀ a.1) : Quiet o₀ (offerVector a s).1 := by
  refine h₀.trans ?_
  unfold offerVector
  repeat' first
    | (extract_lets +onlyGivenNames x; first | refine Quiet.cut (x := x) ?_ (fun hx => ?_) <;> [(clear_value (hv : x = _); rw [hv]); clear_value x] | clear_value x | skip)
    | with_reducible exact Quiet.refl _
    | with_reducible assumption
    | simp -zeta only [↓ Quiet.make]
    | with_reducible refine Quiet.of ?_
    | with_reducible apply Quiet.ite
    | with_reducible apply liveSetB_quiet
    | with_reducible apply bump_quiet
    | with_reducible apply startWake_quiet
    | with_reducible apply delivered_quiet
    | with_reducible apply acceptEvent_quiet
    | split
    | (dsimp -zeta only)

theorem offerSupervisor_quiet {o₀ : Dev} (a : Dev × List Nat) (s : Nat) (h₀ : Quiet o₀ a.1) : Quiet o₀ (offerSupervisor a s).1 := by
  refine h₀.trans ?_
  unfold offerSupervisor
  repeat' first
    | (extract_lets +onlyGivenNames x; first | refine Quiet.cut (x := x) ?_ (fun hx => ?_) <;> [(clear_value (hv : x = _); rw [hv]); clear_value x] | clear_value x | skip)
    | with_reducible exact Quiet.refl _
    | with_reducible assumption
    | simp -zeta only [↓ Quiet.make]
    | with_reducible refine Quiet.of ?_
    | with_reducible apply Quiet.ite
    | with_reducible apply delivered_quiet
    | split
    | (dsimp -zeta only)

theorem offerItem_quiet {o₀ : Dev} (a : Dev × List Nat) (s : Nat) (h₀ : Quiet o₀ a.1) : Quiet o₀ (offerItem a s).1 := by
  refine h₀.trans ?_
  unfold offerItem
  repeat' first
    | (extract_lets +onlyGivenNames x; first | refine Quiet.cut (x := x) ?_ (fun hx => ?_) <;> [(clear_value (hv : x = _); rw [hv]); clear_value x] | clear_value x | skip)
    | with_reducible exact Quiet.refl _
    | with_reducible assumption
    | with_reducible apply Quiet.ite
    | with_reducible apply submitDesc_quiet
    | with_reducible apply delivered_quiet
    | split
    | (dsimp -zeta only)

theorem eventOffers_quiet {o₀ : Dev} (d : Dev) (h₀ : Quiet o₀ d) : Quiet o₀ (eventOffers d) := by
  refine h₀.trans ?_
  unfold eventOffers
  repeat' first
    | (extract_lets +onlyGivenNames x; first | refine Quiet.cut (x := x) ?_ (fun hx => ?_) <;> [(clear_value (hv : x = _); rw [hv]); clear_value x] | refine Quiet.cut (x := x.1) ?_ (fun hx => ?_) <;> [(clear_value (hv : x = _); rw [hv]); clear_value x] | clear_value x | skip)
    | with_reducible exact Quiet.refl _
    | with_reducible assumption
    | simp -zeta only [↓ Quiet.make]
    | with_reducible refine Quiet.of ?_
    | with_reducible apply Quiet.ite
    | with_reducible refine Quiet.foldl (fun d x => ?_) ?_
    | with_reducible refine Quiet.foldlFst (fun d x => ?_) ?_
    | with_reducible apply offerVector_quiet
    | with_reducible apply offerSupervisor_quiet
    | with_reducible apply offerItem_quiet
    | split
    | (dsimp -zeta only)

theorem corePriReport_quiet {o₀ : Dev} (d : Dev) (h₀ : Quiet o₀ d) : Quiet o₀ (corePriReport d) := by
  refine h₀.trans ?_
  unfold corePriReport
  repeat' first
    | (extract_lets +onlyGivenNames x; first | refine Quiet.cut (x := x) ?_ (fun hx => ?_) <;> [(clear_value (hv : x = _); rw [hv]); clear_value x] | clear_value x | skip)
    | with_reducible exact Quiet.refl _
    | with_reducible assumption
    | simp -zeta only [↓ Quiet.make]
    | with_reducible refine Quiet.of ?_
    | with_reducible refine Quiet.foldl (fun d x => ?_) ?_
    | with_reducible refine Quiet.foldlFst (fun d x => ?_) ?_
    | with_reducible apply liveSet_quiet
    | split
    | (dsimp -zeta only)

end Sys2Proof.Machine
end

