-- ==== Sys2Proof/Laws/QuietTwn.lean ====
section
/-!
SUPPORT. Sys2Proof/Laws/QuietTwn.lean: for each operation of Machine/Twn.lean, that it is `Quiet` (or only `Sound`).
-/
set_option linter.all false
namespace Sys2Proof.Machine

theorem setTwn_quiet {o₀ : Dev} (d : Dev) (t : Twn) (h₀ : Quiet o₀ d) : Quiet o₀ (setTwn d t) := by
  refine h₀.trans ?_
  unfold setTwn
  repeat' first
    | (extract_lets +onlyGivenNames x; first | refine Quiet.cut (x := x) ?_ (fun hx => ?_) <;> [(clear_value (hv : x = _); rw [hv]); clear_value x] | clear_value x | skip)
    | with_reducible exact Quiet.refl _
    | with_reducible assumption
    | simp -zeta only [↓ Quiet.make]
    | with_reducible refine Quiet.of ?_

theorem setPair_quiet {o₀ : Dev} (d : Dev) (v : Nat) (h₀ : Quiet o₀ d) : Quiet o₀ (setPair d v) := by
  refine h₀.trans ?_
  unfold setPair
  repeat' first
    | with_reducible exact Quiet.refl _
    | with_reducible assumption
    | with_reducible apply liveSetF_quiet

theorem ownCheck_quiet {o₀ : Dev} (d : Dev) (h₀ : Quiet o₀ d) : Quiet o₀ (ownCheck d) := by
  refine h₀.trans ?_
  unfold ownCheck
  repeat' first
    | (extract_lets +onlyGivenNames x; first | refine Quiet.cut (x := x) ?_ (fun hx => ?_) <;> [(clear_value (hv : x = _); rw [hv]); clear_value x] | clear_value x | skip)
    | with_reducible exact Quiet.refl _
    | with_reducible assumption
    | with_reducible apply Quiet.ite
    | with_reducible apply liveSetB_quiet
    | with_reducible apply releaseOut_quiet
    | split

theorem sideConflict_quiet {o₀ : Dev} (d : Dev) (h₀ : Quiet o₀ d) : Quiet o₀ (sideConflict d) := by
  refine h₀.trans ?_
  unfold sideConflict
  repeat' first
    | (extract_lets +onlyGivenNames x; first | refine Quiet.cut (x := x) ?_ (fun hx => ?_) <;> [(clear_value (hv : x = _); rw [hv]); clear_value x] | clear_value x | skip)
    | with_reducible exact Quiet.refl _
    | with_reducible assumption
    | simp -zeta only [↓ Quiet.make]
    | with_reducible refine Quiet.of ?_
    | with_reducible apply Quiet.ite
    | with_reducible apply liveSetB_quiet
    | with_reducible apply raiseErr_quiet
    | with_reducible apply setTwn_quiet
    | split

theorem conflictRelease_quiet {o₀ : Dev} (d : Dev) (h₀ : Quiet o₀ d) : Quiet o₀ (conflictRelease d) := by
  refine h₀.trans ?_
  unfold conflictRelease
  repeat' first
    | (extract_lets +onlyGivenNames x; first | refine Quiet.cut (x := x) ?_ (fun hx => ?_) <;> [(clear_value (hv : x = _); rw [hv]); clear_value x] | clear_value x | skip)
    | with_reducible exact Quiet.refl _
    | with_reducible assumption
    | simp -zeta only [↓ Quiet.make]
    | with_reducible refine Quiet.of ?_
    | with_reducible apply releaseOut_quiet
    | with_reducible apply setTwn_quiet

theorem outputClaim_quiet {o₀ : Dev} (d : Dev) (h₀ : Quiet o₀ d) : Quiet o₀ (outputClaim d) := by
  refine h₀.trans ?_
  unfold outputClaim
  repeat' first
    | with_reducible exact Quiet.refl _
    | with_reducible assumption
    | with_reducible apply Quiet.ite
    | with_reducible apply liveSetB_quiet
    | split

theorem claimConfirm_quiet {o₀ : Dev} (d : Dev) (h₀ : Quiet o₀ d) : Quiet o₀ (claimConfirm d) := by
  refine h₀.trans ?_
  unfold claimConfirm
  repeat' first
    | (extract_lets +onlyGivenNames x; first | refine Quiet.cut (x := x) ?_ (fun hx => ?_) <;> [(clear_value (hv : x = _); rw [hv]); clear_value x] | clear_value x | skip)
    | with_reducible exact Quiet.refl _
    | with_reducible assumption
    | simp -zeta only [↓ Quiet.make]
    | with_reducible refine Quiet.of ?_
    | with_reducible apply Quiet.ite
    | with_reducible apply liveSetB_quiet
    | with_reducible apply setTwn_quiet
    | split

theorem peerActive_quiet {o₀ : Dev} (level : Bool) (d : Dev) (h₀ : Quiet o₀ d) : Quiet o₀ (peerActive level d) := by
  refine h₀.trans ?_
  unfold peerActive
  repeat' first
    | (extract_lets +onlyGivenNames x; first | refine Quiet.cut (x := x) ?_ (fun hx => ?_) <;> [(clear_value (hv : x = _); rw [hv]); clear_value x] | clear_value x | skip)
    | with_reducible exact Quiet.refl _
    | with_reducible assumption
    | simp -zeta only [↓ Quiet.make]
    | with_reducible refine Quiet.of ?_
    | with_reducible apply Quiet.ite
    | with_reducible apply liveSetB_quiet
    | with_reducible apply releaseOut_quiet
    | with_reducible apply setTwn_quiet
    | with_reducible apply sideConflict_quiet
    | with_reducible apply conflictRelease_quiet
    | with_reducible apply claimConfirm_quiet
    | split

theorem seniorRelease_quiet {o₀ : Dev} (d : Dev) (h₀ : Quiet o₀ d) : Quiet o₀ (seniorRelease d) := by
  refine h₀.trans ?_
  unfold seniorRelease
  repeat' first
    | with_reducible exact Quiet.refl _
    | with_reducible assumption
    | with_reducible apply Quiet.ite
    | with_reducible apply sideConflict_quiet
    | with_reducible apply conflictRelease_quiet
    | split

theorem claimBackoff_quiet {o₀ : Dev} (d : Dev) (h₀ : Quiet o₀ d) : Quiet o₀ (claimBackoff d) := by
  refine h₀.trans ?_
  unfold claimBackoff
  repeat' first
    | (extract_lets +onlyGivenNames x; first | refine Quiet.cut (x := x) ?_ (fun hx => ?_) <;> [(clear_value (hv : x = _); rw [hv]); clear_value x] | clear_value x | skip)
    | with_reducible exact Quiet.refl _
    | with_reducible assumption
    | simp -zeta only [↓ Quiet.make]
    | with_reducible refine Quiet.of ?_
    | with_reducible apply Quiet.ite
    | with_reducible apply setTwn_quiet
    | split

theorem watchdogKick_quiet {o₀ : Dev} (d : Dev) (h₀ : Quiet o₀ d) : Quiet o₀ (watchdogKick d) := by
  refine h₀.trans ?_
  unfold watchdogKick
  repeat' first
    | (extract_lets +onlyGivenNames x; first | refine Quiet.cut (x := x) ?_ (fun hx => ?_) <;> [(clear_value (hv : x = _); rw [hv]); clear_value x] | clear_value x | skip)
    | with_reducible exact Quiet.refl _
    | with_reducible assumption
    | simp -zeta only [↓ Quiet.make]
    | with_reducible refine Quiet.of ?_
    | with_reducible apply setTwn_quiet

theorem watchdogRelease_quiet {o₀ : Dev} (d : Dev) (h₀ : Quiet o₀ d) : Quiet o₀ (watchdogRelease d) := by
  refine h₀.trans ?_
  unfold watchdogRelease
  repeat' first
    | (extract_lets +onlyGivenNames x; first | refine Quiet.cut (x := x) ?_ (fun hx => ?_) <;> [(clear_value (hv : x = _); rw [hv]); clear_value x] | clear_value x | skip)
    | with_reducible exact Quiet.refl _
    | with_reducible assumption
    | with_reducible apply Quiet.ite
    | with_reducible apply liveSetB_quiet
    | with_reducible apply releaseOut_quiet
    | with_reducible apply raiseErr_quiet
    | split

theorem rearm_quiet {o₀ : Dev} (d : Dev) (h₀ : Quiet o₀ d) : Quiet o₀ (rearm d) := by
  refine h₀.trans ?_
  unfold rearm
  repeat' first
    | (extract_lets +onlyGivenNames x; first | refine Quiet.cut (x := x) ?_ (fun hx => ?_) <;> [(clear_value (hv : x = _); rw [hv]); clear_value x] | clear_value x | skip)
    | with_reducible exact Quiet.refl _
    | with_reducible assumption
    | simp -zeta only [↓ Quiet.make]
    | with_reducible refine Quiet.of ?_
    | with_reducible apply Quiet.ite
    | with_reducible apply liveSetB_quiet
    | with_reducible apply ownCheck_quiet
    | split

theorem makeDigests_quiet {o₀ : Dev} (d : Dev) (h₀ : Quiet o₀ d) : Quiet o₀ (makeDigests d) := by
  refine h₀.trans ?_
  unfold makeDigests
  repeat' first
    | (extract_lets +onlyGivenNames x; first | refine Quiet.cut (x := x) ?_ (fun hx => ?_) <;> [(clear_value (hv : x = _); rw [hv]); clear_value x] | clear_value x | skip)
    | with_reducible exact Quiet.refl _
    | with_reducible assumption
    | simp -zeta only [↓ Quiet.make]
    | with_reducible refine Quiet.of ?_
    | with_reducible apply setTwn_quiet

theorem sendFrame_quiet {o₀ : Dev} (type : Nat) (payload : List Byte) (d : Dev) (h₀ : Quiet o₀ d) : Quiet o₀ (sendFrame type payload d) := by
  refine h₀.trans ?_
  unfold sendFrame
  repeat' first
    | (extract_lets +onlyGivenNames x; first | refine Quiet.cut (x := x) ?_ (fun hx => ?_) <;> [(clear_value (hv : x = _); rw [hv]); clear_value x] | clear_value x | skip)
    | with_reducible exact Quiet.refl _
    | with_reducible assumption
    | simp -zeta only [↓ Quiet.make]
    | with_reducible refine Quiet.of ?_
    | with_reducible apply setTwn_quiet

theorem epochFrame_quiet {o₀ : Dev} (d : Dev) (h₀ : Quiet o₀ d) : Quiet o₀ (epochFrame d) := by
  refine h₀.trans ?_
  unfold epochFrame
  repeat' first
    | (extract_lets +onlyGivenNames x; first | refine Quiet.cut (x := x) ?_ (fun hx => ?_) <;> [(clear_value (hv : x = _); rw [hv]); clear_value x] | clear_value x | skip)
    | with_reducible exact Quiet.refl _
    | with_reducible assumption
    | simp -zeta only [↓ Quiet.make]
    | with_reducible refine Quiet.of ?_
    | with_reducible apply setTwn_quiet
    | with_reducible apply sendFrame_quiet

theorem sendMsg_quiet {o₀ : Dev} (code k : Nat) (d : Dev) (h₀ : Quiet o₀ d) : Quiet o₀ (sendMsg code k d) := by
  refine h₀.trans ?_
  unfold sendMsg
  repeat' first
    | (extract_lets +onlyGivenNames x; first | refine Quiet.cut (x := x) ?_ (fun hx => ?_) <;> [(clear_value (hv : x = _); rw [hv]); clear_value x] | clear_value x | skip)
    | with_reducible exact Quiet.refl _
    | with_reducible assumption
    | simp -zeta only [↓ Quiet.make]
    | with_reducible refine Quiet.of ?_
    | with_reducible apply setTwn_quiet
    | with_reducible apply sendFrame_quiet

theorem sendRecord_quiet {o₀ : Dev} (kind : Nat) (rec : List Byte) (d : Dev) (h₀ : Quiet o₀ d) : Quiet o₀ (sendRecord kind rec d) := by
  refine h₀.trans ?_
  unfold sendRecord
  repeat' first
    | with_reducible exact Quiet.refl _
    | with_reducible assumption
    | with_reducible refine Quiet.foldl (fun d x => ?_) ?_
    | with_reducible refine Quiet.foldlFst (fun d x => ?_) ?_
    | with_reducible apply sendFrame_quiet
    | (dsimp -zeta only)

theorem laneHeard_quiet {o₀ : Dev} (lane : Nat) (d : Dev) (h₀ : Quiet o₀ d) : Quiet o₀ (laneHeard lane d) := by
  refine h₀.trans ?_
  unfold laneHeard
  repeat' first
    | (extract_lets +onlyGivenNames x; first | refine Quiet.cut (x := x) ?_ (fun hx => ?_) <;> [(clear_value (hv : x = _); rw [hv]); clear_value x] | clear_value x | skip)
    | with_reducible exact Quiet.refl _
    | with_reducible assumption
    | simp -zeta only [↓ Quiet.make]
    | with_reducible refine Quiet.of ?_
    | with_reducible apply Quiet.ite
    | with_reducible apply liveSetB_quiet
    | with_reducible apply setTwn_quiet
    | split
    | (dsimp -zeta only)

theorem twinCrcError_quiet {o₀ : Dev} (lane : Nat) (d : Dev) (h₀ : Quiet o₀ d) : Quiet o₀ (twinCrcError lane d) := by
  refine h₀.trans ?_
  unfold twinCrcError
  repeat' first
    | with_reducible exact Quiet.refl _
    | with_reducible assumption
    | with_reducible apply Quiet.ite
    | with_reducible apply bump_quiet
    | split

theorem takeCopy_quiet {o₀ : Dev} (lane : Nat) (h : TwinHead) (type : Nat) (payload : List Byte) (take : Dev → Dev) (d : Dev) (htake : ∀ d, Quiet d (take d)) (h₀ : Quiet o₀ d) : Quiet o₀ (takeCopy lane h type payload take d) := by
  refine h₀.trans ?_
  unfold takeCopy
  split
  · exact .refl _
  · split
    · exact twinCrcError_quiet _ _ (.refl _)
    · split
      · exact .refl _
      · extract_lets +onlyGivenNames x
        have hx : Quiet d x := laneHeard_quiet _ _ (.refl _)
        exact Quiet.ite hx ((setTwn_quiet _ _ hx).trans (htake _))

theorem twinFrame_quiet {o₀ : Dev} (f : TwinEpoch) (d : Dev) (h₀ : Quiet o₀ d) : Quiet o₀ (twinFrame f d) := by
  refine h₀.trans ?_
  unfold twinFrame
  repeat' first
    | (extract_lets +onlyGivenNames x; first | refine Quiet.cut (x := x) ?_ (fun hx => ?_) <;> [(clear_value (hv : x = _); rw [hv]); clear_value x] | clear_value x | skip)
    | with_reducible exact Quiet.refl _
    | with_reducible assumption
    | simp -zeta only [↓ Quiet.make]
    | with_reducible refine Quiet.of ?_
    | with_reducible apply liveSet_quiet
    | with_reducible apply setTwn_quiet

theorem joinRequest_quiet {o₀ : Dev} (d : Dev) (h₀ : Quiet o₀ d) : Quiet o₀ (joinRequest d) := by
  refine h₀.trans ?_
  unfold joinRequest
  repeat' first
    | (extract_lets +onlyGivenNames x; first | refine Quiet.cut (x := x) ?_ (fun hx => ?_) <;> [(clear_value (hv : x = _); rw [hv]); clear_value x] | clear_value x | skip)
    | with_reducible exact Quiet.refl _
    | with_reducible assumption
    | simp -zeta only [↓ Quiet.make]
    | with_reducible refine Quiet.of ?_
    | with_reducible apply Quiet.ite
    | with_reducible apply setTwn_quiet
    | with_reducible apply sendMsg_quiet
    | split

theorem joinRequestTx_quiet {o₀ : Dev} (d : Dev) (h₀ : Quiet o₀ d) : Quiet o₀ (joinRequestTx d) := by
  refine h₀.trans ?_
  unfold joinRequestTx
  repeat' first
    | (extract_lets +onlyGivenNames x; first | refine Quiet.cut (x := x) ?_ (fun hx => ?_) <;> [(clear_value (hv : x = _); rw [hv]); clear_value x] | clear_value x | skip)
    | with_reducible exact Quiet.refl _
    | with_reducible assumption
    | simp -zeta only [↓ Quiet.make]
    | with_reducible refine Quiet.of ?_
    | with_reducible apply Quiet.ite
    | with_reducible apply liveSetF_quiet
    | with_reducible apply setTwn_quiet
    | with_reducible apply sendMsg_quiet
    | split

theorem joinStart_quiet {o₀ : Dev} (k : Nat) (d : Dev) (h₀ : Quiet o₀ d) : Quiet o₀ (joinStart k d) := by
  refine h₀.trans ?_
  unfold joinStart
  repeat' first
    | (extract_lets +onlyGivenNames x; first | refine Quiet.cut (x := x) ?_ (fun hx => ?_) <;> [(clear_value (hv : x = _); rw [hv]); clear_value x] | clear_value x | skip)
    | with_reducible exact Quiet.refl _
    | with_reducible assumption
    | simp -zeta only [↓ Quiet.make]
    | with_reducible refine Quiet.of ?_
    | with_reducible apply Quiet.ite
    | with_reducible apply setTwn_quiet
    | split

theorem joinStop_quiet {o₀ : Dev} (d : Dev) (h₀ : Quiet o₀ d) : Quiet o₀ (joinStop d) := by
  refine h₀.trans ?_
  unfold joinStop
  repeat' first
    | (extract_lets +onlyGivenNames x; first | refine Quiet.cut (x := x) ?_ (fun hx => ?_) <;> [(clear_value (hv : x = _); rw [hv]); clear_value x] | clear_value x | skip)
    | with_reducible exact Quiet.refl _
    | with_reducible assumption
    | simp -zeta only [↓ Quiet.make]
    | with_reducible refine Quiet.of ?_
    | with_reducible apply setTwn_quiet

theorem joinTimeout_quiet {o₀ : Dev} (d : Dev) (h₀ : Quiet o₀ d) : Quiet o₀ (joinTimeout d) := by
  refine h₀.trans ?_
  unfold joinTimeout
  repeat' first
    | (extract_lets +onlyGivenNames x; first | refine Quiet.cut (x := x) ?_ (fun hx => ?_) <;> [(clear_value (hv : x = _); rw [hv]); clear_value x] | clear_value x | skip)
    | with_reducible exact Quiet.refl _
    | with_reducible assumption
    | simp -zeta only [↓ Quiet.make]
    | with_reducible refine Quiet.of ?_
    | with_reducible apply Quiet.ite
    | with_reducible apply bumpSat_quiet
    | with_reducible apply raiseErr_quiet
    | with_reducible apply setTwn_quiet
    | with_reducible apply sendMsg_quiet
    | split

theorem mirrorArrives_sound {o₀ : Dev} (data : List Byte) (d : Dev) (h₀ : Sound o₀ d) : Sound o₀ (mirrorArrives data d) := by
  refine h₀.trans ?_
  unfold mirrorArrives
  repeat' first
    | (extract_lets +onlyGivenNames x; first | refine Sound.cut (x := x) ?_ (fun hx => ?_) <;> [(clear_value (hv : x = _); rw [hv]); clear_value x] | clear_value x | skip)
    | with_reducible exact Sound.refl _
    | with_reducible assumption
    | simp -zeta only [↓ Sound.make]
    | with_reducible refine Sound.of ?_
    | with_reducible refine Sound.foldl (fun d x => ?_) ?_
    | with_reducible refine Sound.foldlFst (fun d x => ?_) ?_
    | with_reducible apply reservedRun_sound
    | with_reducible apply Sound.transQuiet (k := setTwn_quiet (h₀ := .refl _) ..)
    | split
    | (dsimp -zeta only)

theorem stateFrame_sound {o₀ : Dev} (f : StateFrame) (d : Dev) (h₀ : Sound o₀ d) : Sound o₀ (stateFrame f d) := by
  refine h₀.trans ?_
  unfold stateFrame
  repeat' first
    | (extract_lets +onlyGivenNames x; first | refine Sound.cut (x := x) ?_ (fun hx => ?_) <;> [(clear_value (hv : x = _); rw [hv]); clear_value x] | (have e : _ → _ := x; clear e; clear_value (hv : x = _); subst hv; beta_reduce) | clear_value x | skip)
    | with_reducible exact Sound.refl _
    | with_reducible assumption
    | simp -zeta only [↓ Sound.make]
    | with_reducible refine Sound.of ?_
    | with_reducible apply Sound.ite
    | with_reducible refine Sound.foldl (fun d x => ?_) ?_
    | with_reducible refine Sound.foldlFst (fun d x => ?_) ?_
    | with_reducible apply Sound.transQuiet (k := setTwn_quiet (h₀ := .refl _) ..)
    | with_reducible apply mirrorArrives_sound
    | split
    | (dsimp -zeta only)

theorem installWindow_quiet {o₀ : Dev} (rec : List (Nat × Byte)) (s : Nat) (d : Dev) (h₀ : Quiet o₀ d) : Quiet o₀ (installWindow rec s d) := by
  refine h₀.trans ?_
  unfold installWindow
  repeat' first
    | (extract_lets +onlyGivenNames x; first | refine Quiet.cut (x := x) ?_ (fun hx => ?_) <;> [(clear_value (hv : x = _); rw [hv]); clear_value x] | (have e : _ → _ := x; clear e; clear_value (hv : x = _); subst hv; beta_reduce) | clear_value x | skip)
    | with_reducible exact Quiet.refl _
    | with_reducible assumption
    | simp -zeta only [↓ Quiet.make]
    | with_reducible refine Quiet.of ?_
    | with_reducible apply Quiet.ite
    | with_reducible refine Quiet.foldl (fun d x => ?_) ?_
    | with_reducible refine Quiet.foldlFst (fun d x => ?_) ?_
    | with_reducible apply liveSet_quiet
    | with_reducible apply setSrc_quiet
    | split
    | (dsimp -zeta only)

theorem installSlot_quiet {o₀ : Dev} (rec : List (Nat × Byte)) (from' : Nat) (n : Nat) (d : Dev) (h₀ : Quiet o₀ d) : Quiet o₀ (installSlot rec from' n d) := by
  refine h₀.trans ?_
  unfold installSlot
  repeat' first
    | (extract_lets +onlyGivenNames x; first | refine Quiet.cut (x := x) ?_ (fun hx => ?_) <;> [(clear_value (hv : x = _); rw [hv]); clear_value x] | (have e : _ → _ := x; clear e; clear_value (hv : x = _); subst hv; beta_reduce) | clear_value x | skip)
    | with_reducible exact Quiet.refl _
    | with_reducible assumption
    | simp -zeta only [↓ Quiet.make]
    | with_reducible refine Quiet.of ?_
    | with_reducible apply Quiet.ite
    | with_reducible refine Quiet.foldl (fun d x => ?_) ?_
    | with_reducible refine Quiet.foldlFst (fun d x => ?_) ?_
    | with_reducible apply liveSet_quiet
    | with_reducible apply liveSetF_quiet
    | with_reducible apply setObj_quiet
    | with_reducible apply queueReport_quiet
    | with_reducible apply applyRec_quiet
    | split
    | (dsimp -zeta only)

theorem installObj_quiet {o₀ : Dev} (rec : List (Nat × Byte)) (from' : Nat) (d : Dev) (h₀ : Quiet o₀ d) : Quiet o₀ (installObj rec from' d) := by
  refine h₀.trans ?_
  unfold installObj
  repeat' first
    | with_reducible exact Quiet.refl _
    | with_reducible assumption
    | with_reducible refine Quiet.foldl (fun d x => ?_) ?_
    | with_reducible refine Quiet.foldlFst (fun d x => ?_) ?_
    | with_reducible apply installWindow_quiet
    | with_reducible apply installSlot_quiet
    | (dsimp -zeta only)

theorem installSlotCnd_quiet {o₀ : Dev} (rec : List (Nat × Byte)) (from' s : Nat) (d : Dev) (h₀ : Quiet o₀ d) : Quiet o₀ (installSlotCnd rec from' s d) := by
  refine h₀.trans ?_
  unfold installSlotCnd
  repeat' first
    | (extract_lets +onlyGivenNames x; first | refine Quiet.cut (x := x) ?_ (fun hx => ?_) <;> [(clear_value (hv : x = _); rw [hv]); clear_value x] | clear_value x | skip)
    | with_reducible exact Quiet.refl _
    | with_reducible assumption
    | simp -zeta only [↓ Quiet.make]
    | with_reducible refine Quiet.of ?_
    | with_reducible apply Quiet.ite
    | with_reducible apply liveSet_quiet
    | with_reducible apply liveSetF_quiet
    | with_reducible apply setSlot_quiet
    | with_reducible apply slotReport_quiet
    | split

theorem installCnd_quiet {o₀ : Dev} (rec : List (Nat × Byte)) (from' : Nat) (d : Dev) (h₀ : Quiet o₀ d) : Quiet o₀ (installCnd rec from' d) := by
  refine h₀.trans ?_
  unfold installCnd
  repeat' first
    | with_reducible exact Quiet.refl _
    | with_reducible assumption
    | with_reducible apply Quiet.ite
    | with_reducible refine Quiet.foldl (fun d x => ?_) ?_
    | with_reducible refine Quiet.foldlFst (fun d x => ?_) ?_
    | with_reducible apply installSlotCnd_quiet
    | split
    | (dsimp -zeta only)

theorem installGains_quiet {o₀ : Dev} (rec : List (Nat × Byte)) (from' : Nat) (d : Dev) (h₀ : Quiet o₀ d) : Quiet o₀ (installGains rec from' d) := by
  refine h₀.trans ?_
  unfold installGains
  repeat' first
    | (extract_lets +onlyGivenNames x; first | refine Quiet.cut (x := x) ?_ (fun hx => ?_) <;> [(clear_value (hv : x = _); rw [hv]); clear_value x] | clear_value x | skip)
    | with_reducible exact Quiet.refl _
    | with_reducible assumption
    | simp -zeta only [↓ Quiet.make]
    | with_reducible refine Quiet.of ?_
    | with_reducible refine Quiet.foldl (fun d x => ?_) ?_
    | with_reducible refine Quiet.foldlFst (fun d x => ?_) ?_
    | with_reducible apply putGain_quiet
    | (dsimp -zeta only)

theorem bqAdvance_quiet {o₀ : Dev} (q : Corrected) (d : Dev) (h₀ : Quiet o₀ d) : Quiet o₀ (bqAdvance q d) := by
  refine h₀.trans ?_
  unfold bqAdvance
  repeat' first
    | (extract_lets +onlyGivenNames x; first | refine Quiet.cut (x := x) ?_ (fun hx => ?_) <;> [(clear_value (hv : x = _); rw [hv]); clear_value x] | refine Quiet.cut (x := x.1) ?_ (fun hx => ?_) <;> [(clear_value (hv : x = _); rw [hv]); clear_value x] | clear_value x | skip)
    | with_reducible exact Quiet.refl _
    | with_reducible assumption
    | with_reducible apply Quiet.ite
    | with_reducible refine Quiet.foldl (fun d x => ?_) ?_
    | with_reducible refine Quiet.foldlFst (fun d x => ?_) ?_
    | with_reducible apply bqChain_quiet
    | split
    | (dsimp -zeta only)

theorem installBq_quiet {o₀ : Dev} (rec : List (Nat × Byte)) (from' : Nat) (d : Dev) (h₀ : Quiet o₀ d) : Quiet o₀ (installBq rec from' d) := by
  refine h₀.trans ?_
  unfold installBq
  repeat' first
    | (extract_lets +onlyGivenNames x; first | refine Quiet.cut (x := x) ?_ (fun hx => ?_) <;> [(clear_value (hv : x = _); rw [hv]); clear_value x] | (have e : _ → _ := x; clear e; clear_value (hv : x = _); subst hv; beta_reduce) | clear_value x | skip)
    | with_reducible exact Quiet.refl _
    | with_reducible assumption
    | simp -zeta only [↓ Quiet.make]
    | with_reducible refine Quiet.of ?_
    | with_reducible refine Quiet.foldl (fun d x => ?_) ?_
    | with_reducible refine Quiet.foldlFst (fun d x => ?_) ?_
    | with_reducible apply bqAdvance_quiet
    | (dsimp -zeta only)

theorem serveState_quiet {o₀ : Dev} (d : Dev) (h₀ : Quiet o₀ d) : Quiet o₀ (serveState d) := by
  refine h₀.trans ?_
  unfold serveState
  repeat' first
    | (extract_lets +onlyGivenNames x; first | refine Quiet.cut (x := x) ?_ (fun hx => ?_) <;> [(clear_value (hv : x = _); rw [hv]); clear_value x] | clear_value x | skip)
    | with_reducible exact Quiet.refl _
    | with_reducible assumption
    | simp -zeta only [↓ Quiet.make]
    | with_reducible refine Quiet.of ?_
    | with_reducible apply Quiet.ite
    | with_reducible refine Quiet.foldl (fun d x => ?_) ?_
    | with_reducible refine Quiet.foldlFst (fun d x => ?_) ?_
    | with_reducible apply sendRecord_quiet
    | split
    | (dsimp -zeta only)

theorem mirrorState_quiet {o₀ : Dev} (off : Nat) (ws : List Word) (d : Dev) (h₀ : Quiet o₀ d) : Quiet o₀ (mirrorState off ws d) := by
  refine h₀.trans ?_
  unfold mirrorState
  repeat' first
    | (extract_lets +onlyGivenNames x; first | refine Quiet.cut (x := x) ?_ (fun hx => ?_) <;> [(clear_value (hv : x = _); rw [hv]); clear_value x] | clear_value x | skip)
    | with_reducible exact Quiet.refl _
    | with_reducible assumption
    | simp -zeta only [↓ Quiet.make]
    | with_reducible refine Quiet.of ?_
    | with_reducible apply Quiet.ite
    | with_reducible apply sendRecord_quiet
    | split
    | (dsimp -zeta only)

theorem installFollowed_quiet {o₀ : Dev} (d : Dev) (h₀ : Quiet o₀ d) : Quiet o₀ (installFollowed d) := by
  refine h₀.trans ?_
  unfold installFollowed
  repeat' first
    | (extract_lets +onlyGivenNames x; first | refine Quiet.cut (x := x) ?_ (fun hx => ?_) <;> [(clear_value (hv : x = _); rw [hv]); clear_value x] | clear_value x | skip)
    | with_reducible exact Quiet.refl _
    | with_reducible assumption
    | simp -zeta only [↓ Quiet.make]
    | with_reducible refine Quiet.of ?_
    | with_reducible refine Quiet.foldl (fun d x => ?_) ?_
    | with_reducible refine Quiet.foldlFst (fun d x => ?_) ?_
    | with_reducible apply installObj_quiet
    | with_reducible apply installCnd_quiet
    | with_reducible apply installGains_quiet
    | with_reducible apply installBq_quiet
    | split
    | (dsimp -zeta only)

theorem heartbeat_quiet {o₀ : Dev} (heard : Bool) (d : Dev) (h₀ : Quiet o₀ d) : Quiet o₀ (heartbeat heard d) := by
  refine h₀.trans ?_
  unfold heartbeat
  repeat' first
    | (extract_lets +onlyGivenNames x; first | refine Quiet.cut (x := x) ?_ (fun hx => ?_) <;> [(clear_value (hv : x = _); rw [hv]); clear_value x] | clear_value x | skip)
    | with_reducible exact Quiet.refl _
    | with_reducible assumption
    | simp -zeta only [↓ Quiet.make]
    | with_reducible refine Quiet.of ?_
    | with_reducible apply Quiet.ite
    | with_reducible apply liveSetB_quiet
    | with_reducible apply bump_quiet
    | with_reducible apply raiseErr_quiet
    | with_reducible apply setTwn_quiet
    | split

theorem divergence_quiet {o₀ : Dev} (c count low : Nat) (d : Dev) (h₀ : Quiet o₀ d) : Quiet o₀ (divergence c count low d) := by
  refine h₀.trans ?_
  unfold divergence
  repeat' first
    | (extract_lets +onlyGivenNames x; first | refine Quiet.cut (x := x) ?_ (fun hx => ?_) <;> [(clear_value (hv : x = _); rw [hv]); clear_value x] | clear_value x | skip)
    | with_reducible exact Quiet.refl _
    | with_reducible assumption
    | simp -zeta only [↓ Quiet.make]
    | with_reducible refine Quiet.of ?_
    | with_reducible apply Quiet.ite
    | with_reducible apply setTwn_quiet
    | split

theorem divergenceReport_quiet {o₀ : Dev} (d : Dev) (h₀ : Quiet o₀ d) : Quiet o₀ (divergenceReport d) := by
  refine h₀.trans ?_
  unfold divergenceReport
  repeat' first
    | (extract_lets +onlyGivenNames x; first | refine Quiet.cut (x := x) ?_ (fun hx => ?_) <;> [(clear_value (hv : x = _); rw [hv]); clear_value x] | clear_value x | skip)
    | with_reducible exact Quiet.refl _
    | with_reducible assumption
    | simp -zeta only [↓ Quiet.make]
    | with_reducible refine Quiet.of ?_
    | with_reducible apply Quiet.ite
    | with_reducible apply liveSet_quiet
    | with_reducible apply liveSetB_quiet
    | with_reducible apply bump_quiet
    | with_reducible apply raiseErr_quiet
    | with_reducible apply liveSet48_quiet
    | with_reducible apply setTwn_quiet
    | split

theorem enterPair_quiet {o₀ : Dev} (v : Nat) (d : Dev) (h₀ : Quiet o₀ d) : Quiet o₀ (enterPair v d) := by
  refine h₀.trans ?_
  unfold enterPair
  repeat' first
    | (extract_lets +onlyGivenNames x; first | refine Quiet.cut (x := x) ?_ (fun hx => ?_) <;> [(clear_value (hv : x = _); rw [hv]); clear_value x] | clear_value x | skip)
    | with_reducible exact Quiet.refl _
    | with_reducible assumption
    | simp -zeta only [↓ Quiet.make]
    | with_reducible refine Quiet.of ?_
    | with_reducible apply Quiet.ite
    | with_reducible apply setTwn_quiet
    | with_reducible apply setPair_quiet
    | split

theorem imageMismatch_quiet {o₀ : Dev} (differs : Bool) (peer : Word) (d : Dev) (h₀ : Quiet o₀ d) : Quiet o₀ (imageMismatch differs peer d) := by
  refine h₀.trans ?_
  unfold imageMismatch
  repeat' first
    | with_reducible exact Quiet.refl _
    | with_reducible assumption
    | with_reducible apply Quiet.ite
    | with_reducible apply liveSetB_quiet
    | with_reducible apply raiseErr_quiet
    | split

theorem pairStep_quiet {o₀ : Dev} (f : Option TwinEpoch) (differed : Bool) (d : Dev) (h₀ : Quiet o₀ d) : Quiet o₀ (pairStep f differed d) := by
  refine h₀.trans ?_
  unfold pairStep
  repeat' first
    | (extract_lets +onlyGivenNames x; first | refine Quiet.cut (x := x) ?_ (fun hx => ?_) <;> [(clear_value (hv : x = _); rw [hv]); clear_value x] | clear_value x | skip)
    | with_reducible exact Quiet.refl _
    | with_reducible assumption
    | simp -zeta only [↓ Quiet.make]
    | with_reducible refine Quiet.of ?_
    | with_reducible apply Quiet.ite
    | with_reducible apply enterPair_quiet
    | with_reducible apply imageMismatch_quiet
    | split

theorem txHeld_quiet {o₀ : Dev} (d : Dev) (h₀ : Quiet o₀ d) : Quiet o₀ (txHeld d) := by
  refine h₀.trans ?_
  unfold txHeld
  repeat' first
    | (extract_lets +onlyGivenNames x; first | refine Quiet.cut (x := x) ?_ (fun hx => ?_) <;> [(clear_value (hv : x = _); rw [hv]); clear_value x] | clear_value x | skip)
    | with_reducible exact Quiet.refl _
    | with_reducible assumption
    | with_reducible apply liveSetB_quiet

theorem laneEpoch_quiet {o₀ : Dev} (d : Dev) (h₀ : Quiet o₀ d) : Quiet o₀ (laneEpoch d) := by
  refine h₀.trans ?_
  unfold laneEpoch
  repeat' first
    | (extract_lets +onlyGivenNames x; first | refine Quiet.cut (x := x) ?_ (fun hx => ?_) <;> [(clear_value (hv : x = _); rw [hv]); clear_value x] | (have e : _ → _ := x; clear e; clear_value (hv : x = _); subst hv; beta_reduce) | clear_value x | skip)
    | with_reducible exact Quiet.refl _
    | with_reducible assumption
    | simp -zeta only [↓ Quiet.make]
    | with_reducible refine Quiet.of ?_
    | with_reducible apply Quiet.ite
    | with_reducible apply liveSetB_quiet
    | with_reducible apply setTwn_quiet
    | split
    | (dsimp -zeta only)

theorem twnStop_quiet {o₀ : Dev} (d : Dev) (h₀ : Quiet o₀ d) : Quiet o₀ (twnStop d) := by
  refine h₀.trans ?_
  unfold twnStop
  repeat' first
    | (extract_lets +onlyGivenNames x; first | refine Quiet.cut (x := x) ?_ (fun hx => ?_) <;> [(clear_value (hv : x = _); rw [hv]); clear_value x] | clear_value x | skip)
    | with_reducible exact Quiet.refl _
    | with_reducible assumption
    | with_reducible apply liveSetF_quiet
    | with_reducible apply setTwn_quiet

theorem twnEpoch_quiet {o₀ : Dev} (d : Dev) (h₀ : Quiet o₀ d) : Quiet o₀ (twnEpoch d) := by
  refine h₀.trans ?_
  unfold twnEpoch
  repeat' first
    | (extract_lets +onlyGivenNames x; first | refine Quiet.cut (x := x) ?_ (fun hx => ?_) <;> [(clear_value (hv : x = _); rw [hv]); clear_value x] | clear_value x | skip)
    | with_reducible exact Quiet.refl _
    | with_reducible assumption
    | simp -zeta only [↓ Quiet.make]
    | with_reducible refine Quiet.of ?_
    | with_reducible apply Quiet.ite
    | with_reducible apply setTwn_quiet
    | with_reducible apply ownCheck_quiet
    | with_reducible apply sideConflict_quiet
    | with_reducible apply epochFrame_quiet
    | with_reducible apply sendMsg_quiet
    | with_reducible apply serveState_quiet
    | with_reducible apply installFollowed_quiet
    | with_reducible apply heartbeat_quiet
    | with_reducible apply divergence_quiet
    | with_reducible apply pairStep_quiet
    | with_reducible apply txHeld_quiet
    | with_reducible apply laneEpoch_quiet
    | with_reducible apply twnStop_quiet
    | split
    | (dsimp -zeta only)

end Sys2Proof.Machine
end

