-- ==== Sys2Proof/Laws/QuietVec.lean ====
section
/-!
SUPPORT. Sys2Proof/Laws/QuietVec.lean: for each operation of Machine/Vec.lean, that it is `Quiet` (or only `Sound`).
-/
set_option linter.all false
namespace Sys2Proof.Machine

theorem vecFault_quiet {o₀ : Dev} (d : Dev) (core cause : Nat) (h₀ : Quiet o₀ d) : Quiet o₀ (vecFault d core cause) := by
  refine h₀.trans ?_
  unfold vecFault
  repeat' first
    | (extract_lets +onlyGivenNames x; first | refine Quiet.cut (x := x) ?_ (fun hx => ?_) <;> [(clear_value (hv : x = _); rw [hv]); clear_value x] | clear_value x | skip)
    | with_reducible exact Quiet.refl _
    | with_reducible assumption
    | with_reducible apply Quiet.ite
    | with_reducible apply liveSet_quiet
    | with_reducible apply liveSetB_quiet
    | with_reducible apply bumpSat_quiet
    | with_reducible apply raiseErr_quiet
    | with_reducible apply raiseOwn_quiet
    | with_reducible apply leaveHandler_quiet
    | with_reducible apply endItem_quiet
    | split

theorem outside_quiet {o₀ : Dev} (d : Dev) (core : Nat) (c : VecCore) (h : Bool) (op : VecOp) (h₀ : Quiet o₀ d) : Quiet o₀ (outside d core c h op) := by
  refine h₀.trans ?_
  unfold outside
  repeat' first
    | (extract_lets +onlyGivenNames x; first | refine Quiet.cut (x := x) ?_ (fun hx => ?_) <;> [(clear_value (hv : x = _); rw [hv]); clear_value x] | clear_value x | skip)
    | with_reducible exact Quiet.refl _
    | with_reducible assumption
    | simp -zeta only [↓ Quiet.make]
    | with_reducible refine Quiet.of ?_
    | with_reducible apply Quiet.ite
    | with_reducible apply liveSetB_quiet
    | with_reducible apply raiseEvt_quiet
    | with_reducible apply submitDesc_quiet
    | split

theorem transfer_quiet {o₀ : Dev} (d : Dev) (core : Nat) (c : VecCore) (h : Bool) (h₀ : Quiet o₀ d) : Quiet o₀ (transfer d core c h) := by
  refine h₀.trans ?_
  unfold transfer
  repeat' first
    | (extract_lets +onlyGivenNames x; first | refine Quiet.cut (x := x) ?_ (fun hx => ?_) <;> [(clear_value (hv : x = _); rw [hv]); clear_value x] | clear_value x | skip)
    | with_reducible exact Quiet.refl _
    | with_reducible assumption
    | simp -zeta only [↓ Quiet.make]
    | with_reducible refine Quiet.of ?_
    | with_reducible apply Quiet.ite
    | with_reducible apply setCore_quiet
    | with_reducible apply setCoreState_quiet
    | with_reducible apply leaveHandler_quiet
    | split
    | (dsimp -zeta only)

theorem bundleDone_sound {o₀ : Dev} (d : Dev) (core : Nat) (b : Bundle) (h₀ : Sound o₀ d) : Sound o₀ (bundleDone d core b) := by
  refine h₀.trans ?_
  unfold bundleDone
  extract_lets c h fx ws x₀ x m n y
  have hx : Sound d x := setMem1_sound _ _ (fun hc => mapWf_wordSets ws hc.mem.mem1) (outside_quiet _ _ _ _ _ (.refl _)).sound
  refine hx.transQuiet (Quiet.ite (perfHit_quiet _ _ _ _ ?_) ?_) <;>
    exact perfHit_quiet _ _ _ _ (setCore_quiet _ _ _ (.refl _))

theorem complete_sound {o₀ : Dev} (d : Dev) (core : Nat) (b : Bundle) (h₀ : Sound o₀ d) : Sound o₀ (complete d core b) := by
  refine h₀.trans ?_
  unfold complete
  repeat' first
    | with_reducible exact Sound.refl _
    | with_reducible assumption
    | with_reducible apply Sound.transQuiet (k := transfer_quiet (h₀ := .refl _) ..)
    | with_reducible apply bundleDone_sound

theorem issueBundle_sound {o₀ : Dev} (core : Nat) (b : Bundle) (d : Dev) (h₀ : Sound o₀ d) : Sound o₀ (issueBundle core b d) := by
  refine h₀.trans ?_
  unfold issueBundle
  repeat' first
    | (extract_lets +onlyGivenNames x; first | refine Sound.cut (x := x) ?_ (fun hx => ?_) <;> [(clear_value (hv : x = _); rw [hv]); clear_value x] | clear_value x | skip)
    | with_reducible exact Sound.refl _
    | with_reducible assumption
    | simp -zeta only [↓ Sound.make]
    | with_reducible refine Sound.of ?_
    | with_reducible apply Sound.ite
    | with_reducible apply Sound.transQuiet (k := mem1Refused_quiet (h₀ := .refl _) ..)
    | with_reducible apply Sound.transQuiet (k := setCore_quiet (h₀ := .refl _) ..)
    | with_reducible apply Sound.transQuiet (k := vecFault_quiet (h₀ := .refl _) ..)
    | with_reducible apply complete_sound
    | split
    | (dsimp -zeta only)

end Sys2Proof.Machine
end

