-- ==== Sys2Proof/Laws/QuietItems.lean ====
section
/-!
SUPPORT. Sys2Proof/Laws/QuietItems.lean: for each operation of Machine/Items.lean, that it is `Quiet` (or only `Sound`).
-/
set_option linter.all false
namespace Sys2Proof.Machine

theorem setStage_quiet {o₀ : Dev} (d : Dev) (s : Nat) (x : Stage) (h₀ : Quiet o₀ d) : Quiet o₀ (setStage d s x) := by
  refine h₀.trans ?_
  unfold setStage
  repeat' first
    | (extract_lets +onlyGivenNames x; first | refine Quiet.cut (x := x) ?_ (fun hx => ?_) <;> [(clear_value (hv : x = _); rw [hv]); clear_value x] | clear_value x | skip)
    | with_reducible exact Quiet.refl _
    | with_reducible assumption
    | simp -zeta only [↓ Quiet.make]
    | with_reducible refine Quiet.of ?_
    | (dsimp -zeta only)

theorem noteMirrors_quiet {o₀ : Dev} (gs : List (Nat × InsGroup)) (d : Dev) (h₀ : Quiet o₀ d) : Quiet o₀ (noteMirrors gs d) := by
  refine h₀.trans ?_
  unfold noteMirrors
  repeat' first
    | (extract_lets +onlyGivenNames x; first | refine Quiet.cut (x := x) ?_ (fun hx => ?_) <;> [(clear_value (hv : x = _); rw [hv]); clear_value x] | clear_value x | skip)
    | with_reducible exact Quiet.refl _
    | with_reducible assumption
    | simp -zeta only [↓ Quiet.make]
    | with_reducible refine Quiet.of ?_
    | with_reducible apply Quiet.ite
    | split
    | (dsimp -zeta only)

theorem insertRelease_quiet {o₀ : Dev} (s : Nat) (d : Dev) (h₀ : Quiet o₀ d) : Quiet o₀ (insertRelease s d) := by
  refine h₀.trans ?_
  unfold insertRelease
  repeat' first
    | (extract_lets +onlyGivenNames x; first | refine Quiet.cut (x := x) ?_ (fun hx => ?_) <;> [(clear_value (hv : x = _); rw [hv]); clear_value x] | clear_value x | skip)
    | with_reducible exact Quiet.refl _
    | with_reducible assumption
    | simp -zeta only [↓ Quiet.make]
    | with_reducible refine Quiet.of ?_
    | with_reducible apply Quiet.ite
    | with_reducible refine Quiet.foldl (fun d x => ?_) ?_
    | with_reducible refine Quiet.foldlFst (fun d x => ?_) ?_
    | with_reducible apply enqueue_quiet
    | with_reducible apply setStage_quiet
    | with_reducible apply noteMirrors_quiet
    | split
    | (dsimp -zeta only)

theorem missReport_quiet {o₀ : Dev} (d : Dev) (s : Nat) (miss : List Nat) (h₀ : Quiet o₀ d) : Quiet o₀ (missReport d s miss) := by
  refine h₀.trans ?_
  unfold missReport
  repeat' first
    | (extract_lets +onlyGivenNames x; first | refine Quiet.cut (x := x) ?_ (fun hx => ?_) <;> [(clear_value (hv : x = _); rw [hv]); clear_value x] | clear_value x | skip)
    | with_reducible exact Quiet.refl _
    | with_reducible assumption
    | simp -zeta only [↓ Quiet.make]
    | with_reducible refine Quiet.of ?_
    | with_reducible apply Quiet.ite
    | with_reducible refine Quiet.foldl (fun d x => ?_) ?_
    | with_reducible refine Quiet.foldlFst (fun d x => ?_) ?_
    | with_reducible apply liveSetF_quiet
    | with_reducible apply liveSetB_quiet
    | with_reducible apply bumpBy_quiet
    | with_reducible apply raiseOwn_quiet
    | with_reducible apply setStage_quiet
    | split
    | (dsimp -zeta only)

theorem itemCutoff_quiet {o₀ : Dev} (s : Nat) (d : Dev) (h₀ : Quiet o₀ d) : Quiet o₀ (itemCutoff s d) := by
  refine h₀.trans ?_
  unfold itemCutoff
  repeat' first
    | (extract_lets +onlyGivenNames x; first | refine Quiet.cut (x := x) ?_ (fun hx => ?_) <;> [(clear_value (hv : x = _); rw [hv]); clear_value x] | (have e : _ → _ := x; clear e; clear_value (hv : x = _); subst hv; beta_reduce) | clear_value x | skip)
    | with_reducible exact Quiet.refl _
    | with_reducible assumption
    | simp -zeta only [↓ Quiet.make]
    | with_reducible refine Quiet.of ?_
    | with_reducible apply Quiet.ite
    | with_reducible refine Quiet.foldl (fun d x => ?_) ?_
    | with_reducible refine Quiet.foldlFst (fun d x => ?_) ?_
    | with_reducible apply liveSetB_quiet
    | with_reducible apply abortItems_quiet
    | with_reducible apply setStage_quiet
    | with_reducible apply missReport_quiet
    | split
    | (dsimp -zeta only)

theorem deliver_quiet {o₀ : Dev} (d : Dev) (it : WorkItem) (ymem : List (Nat × Word)) (h₀ : Quiet o₀ d) : Quiet o₀ (deliver d it ymem) := by
  refine h₀.trans ?_
  unfold deliver
  repeat' first
    | (extract_lets +onlyGivenNames x; first | refine Quiet.cut (x := x) ?_ (fun hx => ?_) <;> [(clear_value (hv : x = _); rw [hv]); clear_value x] | (have e : _ → _ := x; clear e; clear_value (hv : x = _); subst hv; beta_reduce) | clear_value x | skip)
    | with_reducible exact Quiet.refl _
    | with_reducible assumption
    | simp -zeta only [↓ Quiet.make]
    | with_reducible refine Quiet.of ?_
    | with_reducible apply Quiet.ite
    | with_reducible refine Quiet.foldl (fun d x => ?_) ?_
    | with_reducible refine Quiet.foldlFst (fun d x => ?_) ?_
    | with_reducible apply liveSetF_quiet
    | with_reducible apply delivered_quiet
    | with_reducible apply setStage_quiet
    | split
    | (dsimp -zeta only)

theorem deliverEnded_quiet {o₀ : Dev} (d : Dev) (s : Nat) (b : StageBlock) (h₀ : Quiet o₀ d) : Quiet o₀ (deliverEnded d s b) := by
  refine h₀.trans ?_
  unfold deliverEnded
  repeat' first
    | (extract_lets +onlyGivenNames x; first | refine Quiet.cut (x := x) ?_ (fun hx => ?_) <;> [(clear_value (hv : x = _); rw [hv]); clear_value x] | clear_value x | skip)
    | with_reducible exact Quiet.refl _
    | with_reducible assumption
    | simp -zeta only [↓ Quiet.make]
    | with_reducible refine Quiet.of ?_
    | with_reducible apply Quiet.ite
    | with_reducible refine Quiet.foldl (fun d x => ?_) ?_
    | with_reducible refine Quiet.foldlFst (fun d x => ?_) ?_
    | with_reducible apply delivered_quiet
    | with_reducible apply deliver_quiet
    | split
    | (dsimp -zeta only)

theorem stageGive_quiet {o₀ : Dev} (d : Dev) (s : Nat) (el : BlockAt) (h₀ : Quiet o₀ d) : Quiet o₀ (stageGive d s el).1 := by
  refine h₀.trans ?_
  unfold stageGive
  repeat' first
    | (extract_lets +onlyGivenNames x; first | refine Quiet.cut (x := x) ?_ (fun hx => ?_) <;> [(clear_value (hv : x = _); rw [hv]); clear_value x] | (have e : _ → _ := x; clear e; clear_value (hv : x = _); subst hv; beta_reduce) | clear_value x | skip)
    | with_reducible exact Quiet.refl _
    | with_reducible assumption
    | simp -zeta only [↓ Quiet.make]
    | with_reducible refine Quiet.of ?_
    | with_reducible apply Quiet.ite
    | with_reducible apply delivered_quiet
    | with_reducible apply setStage_quiet
    | with_reducible apply missReport_quiet
    | with_reducible apply deliverEnded_quiet
    | split
    | (dsimp -zeta only)

theorem joinStage_quiet {o₀ : Dev} (d : Dev) (s a : Nat) (h₀ : Quiet o₀ d) : Quiet o₀ (joinStage d s a).1 := by
  refine h₀.trans ?_
  unfold joinStage
  repeat' first
    | (extract_lets +onlyGivenNames x; first | refine Quiet.cut (x := x) ?_ (fun hx => ?_) <;> [(clear_value (hv : x = _); rw [hv]); clear_value x] | refine Quiet.cut (x := x.1) ?_ (fun hx => ?_) <;> [(clear_value (hv : x = _); rw [hv]); clear_value x] | (have e : _ → _ := x; clear e; clear_value (hv : x = _); subst hv; beta_reduce) | clear_value x | skip)
    | with_reducible exact Quiet.refl _
    | with_reducible assumption
    | simp -zeta only [↓ Quiet.make]
    | with_reducible refine Quiet.of ?_
    | with_reducible apply Quiet.ite
    | with_reducible apply stageGive_quiet
    | split
    | (dsimp -zeta only)

theorem joinIn_quiet {o₀ : Dev} (d : Dev) (h₀ : Quiet o₀ d) : Quiet o₀ (joinIn d) := by
  refine h₀.trans ?_
  unfold joinIn
  repeat' first
    | (extract_lets +onlyGivenNames x; first | refine Quiet.cut (x := x) ?_ (fun hx => ?_) <;> [(clear_value (hv : x = _); rw [hv]); clear_value x] | refine Quiet.cut (x := x.1) ?_ (fun hx => ?_) <;> [(clear_value (hv : x = _); rw [hv]); clear_value x] | clear_value x | skip)
    | with_reducible exact Quiet.refl _
    | with_reducible assumption
    | simp -zeta only [↓ Quiet.make]
    | with_reducible refine Quiet.of ?_
    | with_reducible apply Quiet.ite
    | with_reducible apply joinStage_quiet
    | split
    | (dsimp -zeta only)

theorem missEntries_quiet {o₀ : Dev} (d : Dev) (h₀ : Quiet o₀ d) : Quiet o₀ (missEntries d) := by
  refine h₀.trans ?_
  unfold missEntries
  repeat' first
    | (extract_lets +onlyGivenNames x; first | refine Quiet.cut (x := x) ?_ (fun hx => ?_) <;> [(clear_value (hv : x = _); rw [hv]); clear_value x] | clear_value x | skip)
    | with_reducible exact Quiet.refl _
    | with_reducible assumption
    | simp -zeta only [↓ Quiet.make]
    | with_reducible refine Quiet.of ?_
    | with_reducible apply Quiet.ite
    | with_reducible refine Quiet.foldl (fun d x => ?_) ?_
    | with_reducible refine Quiet.foldlFst (fun d x => ?_) ?_
    | with_reducible apply raiseErr_quiet
    | with_reducible apply setStage_quiet
    | split
    | (dsimp -zeta only)

theorem wdEpoch_quiet {o₀ : Dev} (d : Dev) (h₀ : Quiet o₀ d) : Quiet o₀ (wdEpoch d) := by
  refine h₀.trans ?_
  unfold wdEpoch
  repeat' first
    | (extract_lets +onlyGivenNames x; first | refine Quiet.cut (x := x) ?_ (fun hx => ?_) <;> [(clear_value (hv : x = _); rw [hv]); clear_value x] | clear_value x | skip)
    | with_reducible exact Quiet.refl _
    | with_reducible assumption
    | simp -zeta only [↓ Quiet.make]
    | with_reducible refine Quiet.of ?_
    | with_reducible apply Quiet.ite
    | with_reducible refine Quiet.foldl (fun d x => ?_) ?_
    | with_reducible refine Quiet.foldlFst (fun d x => ?_) ?_
    | with_reducible apply liveSetF_quiet
    | with_reducible apply wdStart_quiet
    | with_reducible apply wdStop_quiet
    | with_reducible apply setStage_quiet
    | with_reducible apply missEntries_quiet
    | split
    | (dsimp -zeta only)

theorem wdCounts_quiet {o₀ : Dev} (d : Dev) (h₀ : Quiet o₀ d) : Quiet o₀ (wdCounts d) := by
  refine h₀.trans ?_
  unfold wdCounts
  repeat' first
    | (extract_lets +onlyGivenNames x; first | refine Quiet.cut (x := x) ?_ (fun hx => ?_) <;> [(clear_value (hv : x = _); rw [hv]); clear_value x] | clear_value x | skip)
    | with_reducible exact Quiet.refl _
    | with_reducible assumption
    | with_reducible apply Quiet.ite
    | with_reducible refine Quiet.foldl (fun d x => ?_) ?_
    | with_reducible refine Quiet.foldlFst (fun d x => ?_) ?_
    | with_reducible apply liveSet_quiet
    | with_reducible apply liveSetF_quiet
    | split
    | (dsimp -zeta only)

theorem wdAfter_quiet {o₀ : Dev} (d : Dev) (h₀ : Quiet o₀ d) : Quiet o₀ (wdAfter d) := by
  refine h₀.trans ?_
  unfold wdAfter
  repeat' first
    | with_reducible exact Quiet.refl _
    | with_reducible assumption
    | with_reducible refine Quiet.foldl (fun d x => ?_) ?_
    | with_reducible refine Quiet.foldlFst (fun d x => ?_) ?_
    | with_reducible apply liveSetF_quiet
    | (dsimp -zeta only)

theorem stagedState_quiet {o₀ : Dev} (d : Dev) (it : WorkItem) (h₀ : Quiet o₀ d) : Quiet o₀ (stagedState d it).1 := by
  refine h₀.trans ?_
  unfold stagedState
  repeat' first
    | (extract_lets +onlyGivenNames x; first | refine Quiet.cut (x := x) ?_ (fun hx => ?_) <;> [(clear_value (hv : x = _); rw [hv]); clear_value x] | clear_value x | skip)
    | with_reducible exact Quiet.refl _
    | with_reducible assumption
    | simp -zeta only [↓ Quiet.make]
    | with_reducible refine Quiet.of ?_
    | with_reducible apply Quiet.ite
    | with_reducible apply bumpSat_quiet
    | split
    | (dsimp -zeta only)

theorem stageInDone_quiet {o₀ : Dev} (core : Nat) (d : Dev) (h₀ : Quiet o₀ d) : Quiet o₀ (stageInDone core d) := by
  refine h₀.trans ?_
  unfold stageInDone
  repeat' first
    | (extract_lets +onlyGivenNames x; first | refine Quiet.cut (x := x) ?_ (fun hx => ?_) <;> [(clear_value (hv : x = _); rw [hv]); clear_value x] | refine Quiet.cut (x := x.1) ?_ (fun hx => ?_) <;> [(clear_value (hv : x = _); rw [hv]); clear_value x] | (have e : Regs := x; clear e) | (have e : Mem := x; clear e) | (have e : _ → _ := x; clear e; clear_value (hv : x = _); subst hv; beta_reduce) | clear_value x | skip)
    | with_reducible exact Quiet.refl _
    | with_reducible assumption
    | simp -zeta only [↓ Quiet.make]
    | with_reducible refine Quiet.of ?_
    | with_reducible apply Quiet.ite
    | with_reducible apply mem1Refused_quiet
    | with_reducible apply setCore_quiet
    | with_reducible apply setCoreState_quiet
    | with_reducible apply endItem_quiet
    | with_reducible apply stagedState_quiet
    | split
    | (dsimp -zeta only)

theorem itemComplete_sound {o₀ : Dev} (core : Nat) (d : Dev) (h₀ : Sound o₀ d) : Sound o₀ (itemComplete core d) := by
  refine h₀.trans ?_
  unfold itemComplete
  extract_lets +onlyGivenNames c
  split
  · exact .refl _
  · split
    · exact .refl _
    · extract_lets +onlyGivenNames len off
      split
      · exact (endItem_quiet _ _ _ _ (mem1Refused_quiet _ _ _ _ _ (.refl _))).sound
      · extract_lets +onlyGivenNames m st x
        have hx : Sound d x := by
          show Sound d (setCore (setMem1 d _) core _)
          apply Sound.transQuiet (k := setCore_quiet (h₀ := .refl _) ..)
          exact setMem1_sound _ _ (fun hc => mapWf_wordsSet _ _ (mapWf_wordsSet _ _ hc.mem.mem1)) (.refl _)
        refine hx.transQuiet (endItem_quiet _ _ _ _ (Quiet.ite (.refl _) (mirrorState_quiet _ _ _ (deliver_quiet _ _ _ (.refl _)))))

theorem vecEpoch_quiet {o₀ : Dev} (d : Dev) (h₀ : Quiet o₀ d) : Quiet o₀ (vecEpoch d) := by
  refine h₀.trans ?_
  unfold vecEpoch
  repeat' first
    | (extract_lets +onlyGivenNames x; first | refine Quiet.cut (x := x) ?_ (fun hx => ?_) <;> [(clear_value (hv : x = _); rw [hv]); clear_value x] | clear_value x | skip)
    | with_reducible exact Quiet.refl _
    | with_reducible assumption
    | simp -zeta only [↓ Quiet.make]
    | with_reducible refine Quiet.of ?_
    | with_reducible apply Quiet.ite
    | with_reducible refine Quiet.foldl (fun d x => ?_) ?_
    | with_reducible refine Quiet.foldlFst (fun d x => ?_) ?_
    | with_reducible apply setCore_quiet
    | with_reducible apply setCoreState_quiet
    | with_reducible apply leaveHandler_quiet
    | with_reducible apply endItem_quiet
    | split
    | (dsimp -zeta only)

end Sys2Proof.Machine
end

