-- ==== Sys2Proof/Laws/QuietXp.lean ====
section
/-!
SUPPORT. Sys2Proof/Laws/QuietXp.lean: for each operation of Machine/Xp.lean, that it is `Quiet` (or only `Sound`).
-/
set_option linter.all false
namespace Sys2Proof.Machine

theorem setBulk_quiet {o₀ : Dev} (d : Dev) (n : Nat) (b : BulkState) (h₀ : Quiet o₀ d) : Quiet o₀ (setBulk d n b) := by
  refine h₀.trans ?_
  unfold setBulk
  repeat' first
    | (extract_lets +onlyGivenNames x; first | refine Quiet.cut (x := x) ?_ (fun hx => ?_) <;> [(clear_value (hv : x = _); rw [hv]); clear_value x] | clear_value x | skip)
    | with_reducible exact Quiet.refl _
    | with_reducible assumption
    | simp -zeta only [↓ Quiet.make]
    | with_reducible refine Quiet.of ?_
    | (dsimp -zeta only)

theorem bulkEpoch_quiet {o₀ : Dev} (d : Dev) (h₀ : Quiet o₀ d) : Quiet o₀ (bulkEpoch d) := by
  refine h₀.trans ?_
  unfold bulkEpoch
  repeat' first
    | (extract_lets +onlyGivenNames x; first | refine Quiet.cut (x := x) ?_ (fun hx => ?_) <;> [(clear_value (hv : x = _); rw [hv]); clear_value x] | refine Quiet.cut (x := x.1) ?_ (fun hx => ?_) <;> [(clear_value (hv : x = _); rw [hv]); clear_value x] | clear_value x | skip)
    | with_reducible exact Quiet.refl _
    | with_reducible assumption
    | simp -zeta only [↓ Quiet.make]
    | with_reducible refine Quiet.of ?_
    | with_reducible apply Quiet.ite
    | with_reducible refine Quiet.foldl (fun d x => ?_) ?_
    | with_reducible refine Quiet.foldlFst (fun d x => ?_) ?_
    | with_reducible apply liveSetB_quiet
    | with_reducible apply setBulk_quiet
    | split
    | (dsimp -zeta only)

theorem barTarget_quiet {o₀ : Dev} (hold : Nat) (d : Dev) (r : XpReq) (h₀ : Quiet o₀ d) : Quiet o₀ (barTarget hold d r) := by
  refine h₀.trans ?_
  unfold barTarget
  repeat' first
    | (extract_lets +onlyGivenNames x; first | refine Quiet.cut (x := x) ?_ (fun hx => ?_) <;> [(clear_value (hv : x = _); rw [hv]); clear_value x] | clear_value x | skip)
    | with_reducible exact Quiet.refl _
    | with_reducible assumption
    | simp -zeta only [↓ Quiet.make]
    | with_reducible refine Quiet.of ?_
    | split
    | (dsimp -zeta only)

theorem slotAlloc_quiet {o₀ : Dev} (entries : List (Nat × List XpEntry)) (reqs : List (Nat × List XpReq)) (d : Dev) (s : Nat) (h₀ : Quiet o₀ d) : Quiet o₀ (slotAlloc entries reqs d s) := by
  refine h₀.trans ?_
  unfold slotAlloc
  repeat' first
    | (extract_lets +onlyGivenNames x; first | refine Quiet.cut (x := x) ?_ (fun hx => ?_) <;> [(clear_value (hv : x = _); rw [hv]); clear_value x] | clear_value x | skip)
    | with_reducible exact Quiet.refl _
    | with_reducible assumption
    | with_reducible apply Quiet.ite
    | with_reducible apply liveSetF_quiet
    | with_reducible apply liveSetB_quiet
    | with_reducible apply bumpBy_quiet
    | split
    | (dsimp -zeta only)

theorem strikePool_quiet {o₀ : Dev} (pos : Nat) (d : Dev) (h₀ : Quiet o₀ d) : Quiet o₀ (strikePool pos d) := by
  refine h₀.trans ?_
  unfold strikePool
  repeat' first
    | (extract_lets +onlyGivenNames x; first | refine Quiet.cut (x := x) ?_ (fun hx => ?_) <;> [(clear_value (hv : x = _); rw [hv]); clear_value x] | (have e : _ → _ := x; clear e; clear_value (hv : x = _); subst hv; beta_reduce) | clear_value x | skip)
    | with_reducible exact Quiet.refl _
    | with_reducible assumption
    | simp -zeta only [↓ Quiet.make]
    | with_reducible refine Quiet.of ?_
    | with_reducible apply Quiet.ite
    | split
    | (dsimp -zeta only)

theorem reportAlloc_quiet {o₀ : Dev} (entries : List XpEntry) (done : List XpReq) (requested : Nat) (d : Dev) (h₀ : Quiet o₀ d) : Quiet o₀ (reportAlloc entries done requested d) := by
  refine h₀.trans ?_
  unfold reportAlloc
  repeat' first
    | (extract_lets +onlyGivenNames x; first | refine Quiet.cut (x := x) ?_ (fun hx => ?_) <;> [(clear_value (hv : x = _); rw [hv]); clear_value x] | clear_value x | skip)
    | with_reducible exact Quiet.refl _
    | with_reducible assumption
    | with_reducible apply Quiet.ite
    | with_reducible refine Quiet.foldl (fun d x => ?_) ?_
    | with_reducible refine Quiet.foldlFst (fun d x => ?_) ?_
    | with_reducible apply liveSet_quiet
    | with_reducible apply liveSetB_quiet
    | with_reducible apply slotAlloc_quiet
    | split
    | (dsimp -zeta only)

theorem allocateFrozen_quiet {o₀ : Dev} (d : Dev) (h₀ : Quiet o₀ d) : Quiet o₀ (allocateFrozen d) := by
  refine h₀.trans ?_
  unfold allocateFrozen
  repeat' first
    | (extract_lets +onlyGivenNames x; first | refine Quiet.cut (x := x) ?_ (fun hx => ?_) <;> [(clear_value (hv : x = _); rw [hv]); clear_value x] | clear_value x | skip)
    | with_reducible exact Quiet.refl _
    | with_reducible assumption
    | simp -zeta only [↓ Quiet.make]
    | with_reducible refine Quiet.of ?_
    | with_reducible apply Quiet.ite
    | with_reducible refine Quiet.foldl (fun d x => ?_) ?_
    | with_reducible refine Quiet.foldlFst (fun d x => ?_) ?_
    | with_reducible apply liveSetB_quiet
    | with_reducible apply reportAlloc_quiet
    | split
    | (dsimp -zeta only)

theorem allocateOpen_quiet {o₀ : Dev} (d : Dev) (h₀ : Quiet o₀ d) : Quiet o₀ (allocateOpen d) := by
  refine h₀.trans ?_
  unfold allocateOpen
  repeat' first
    | (extract_lets +onlyGivenNames x; first | refine Quiet.cut (x := x) ?_ (fun hx => ?_) <;> [(clear_value (hv : x = _); rw [hv]); clear_value x] | (have e : _ → _ := x; clear e; clear_value (hv : x = _); subst hv; beta_reduce) | clear_value x | skip)
    | with_reducible exact Quiet.refl _
    | with_reducible assumption
    | simp -zeta only [↓ Quiet.make]
    | with_reducible refine Quiet.of ?_
    | with_reducible apply Quiet.ite
    | with_reducible refine Quiet.foldl (fun d x => ?_) ?_
    | with_reducible refine Quiet.foldlFst (fun d x => ?_) ?_
    | with_reducible apply liveSetB_quiet
    | with_reducible apply bumpBy_quiet
    | with_reducible apply raiseOwn_quiet
    | with_reducible apply barTarget_quiet
    | with_reducible apply reportAlloc_quiet
    | split
    | (dsimp -zeta only)

theorem allocate_quiet {o₀ : Dev} (d : Dev) (h₀ : Quiet o₀ d) : Quiet o₀ (allocate d) := by
  refine h₀.trans ?_
  unfold allocate
  repeat' first
    | (extract_lets +onlyGivenNames x; first | refine Quiet.cut (x := x) ?_ (fun hx => ?_) <;> [(clear_value (hv : x = _); rw [hv]); clear_value x] | clear_value x | skip)
    | with_reducible exact Quiet.refl _
    | with_reducible assumption
    | simp -zeta only [↓ Quiet.make]
    | with_reducible refine Quiet.of ?_
    | with_reducible apply Quiet.ite
    | with_reducible apply allocateFrozen_quiet
    | with_reducible apply allocateOpen_quiet
    | split

theorem holdExpiry_quiet {o₀ : Dev} (s : Nat) (d : Dev) (h₀ : Quiet o₀ d) : Quiet o₀ (holdExpiry s d) := by
  refine h₀.trans ?_
  unfold holdExpiry
  repeat' first
    | (extract_lets +onlyGivenNames x; first | refine Quiet.cut (x := x) ?_ (fun hx => ?_) <;> [(clear_value (hv : x = _); rw [hv]); clear_value x] | clear_value x | skip)
    | with_reducible exact Quiet.refl _
    | with_reducible assumption
    | simp -zeta only [↓ Quiet.make]
    | with_reducible refine Quiet.of ?_
    | with_reducible apply Quiet.ite
    | with_reducible apply liveSetB_quiet
    | split
    | (dsimp -zeta only)

theorem setObjRing_quiet {o₀ : Dev} (d : Dev) (s : Nat) (r : Nat × List Int) (h₀ : Quiet o₀ d) : Quiet o₀ (setObjRing d s r) := by
  refine h₀.trans ?_
  unfold setObjRing
  repeat' first
    | (extract_lets +onlyGivenNames x; first | refine Quiet.cut (x := x) ?_ (fun hx => ?_) <;> [(clear_value (hv : x = _); rw [hv]); clear_value x] | clear_value x | skip)
    | with_reducible exact Quiet.refl _
    | with_reducible assumption
    | simp -zeta only [↓ Quiet.make]
    | with_reducible refine Quiet.of ?_
    | (dsimp -zeta only)

theorem ringFill_quiet {o₀ : Dev} (s : Nat) (d : Dev) (h₀ : Quiet o₀ d) : Quiet o₀ (ringFill s d) := by
  refine h₀.trans ?_
  unfold ringFill
  repeat' first
    | (extract_lets +onlyGivenNames x; first | refine Quiet.cut (x := x) ?_ (fun hx => ?_) <;> [(clear_value (hv : x = _); rw [hv]); clear_value x] | clear_value x | skip)
    | with_reducible exact Quiet.refl _
    | with_reducible assumption
    | with_reducible apply Quiet.ite
    | with_reducible apply setObjRing_quiet
    | split
    | (dsimp -zeta only)

theorem lanesGo_quiet {o₀ : Dev} (d : Dev) (h₀ : Quiet o₀ d) : Quiet o₀ (lanesGo d) := by
  refine h₀.trans ?_
  unfold lanesGo
  repeat' first
    | (extract_lets +onlyGivenNames x; first | refine Quiet.cut (x := x) ?_ (fun hx => ?_) <;> [(clear_value (hv : x = _); rw [hv]); clear_value x] | clear_value x | skip)
    | with_reducible exact Quiet.refl _
    | with_reducible assumption
    | simp -zeta only [↓ Quiet.make]
    | with_reducible refine Quiet.of ?_
    | with_reducible apply Quiet.ite
    | with_reducible refine Quiet.foldl (fun d x => ?_) ?_
    | with_reducible refine Quiet.foldlFst (fun d x => ?_) ?_
    | split
    | (dsimp -zeta only)

theorem ringFilled_quiet {o₀ : Dev} (s : Nat) (d : Dev) (h₀ : Quiet o₀ d) : Quiet o₀ (ringFilled s d) := by
  refine h₀.trans ?_
  unfold ringFilled
  repeat' first
    | (extract_lets +onlyGivenNames x; first | refine Quiet.cut (x := x) ?_ (fun hx => ?_) <;> [(clear_value (hv : x = _); rw [hv]); clear_value x] | clear_value x | skip)
    | with_reducible exact Quiet.refl _
    | with_reducible assumption
    | simp -zeta only [↓ Quiet.make]
    | with_reducible refine Quiet.of ?_
    | with_reducible apply Quiet.ite
    | with_reducible apply ringFill_quiet
    | with_reducible apply lanesGo_quiet
    | split

theorem ringsFill_quiet {o₀ : Dev} (d : Dev) (h₀ : Quiet o₀ d) : Quiet o₀ (ringsFill d) := by
  refine h₀.trans ?_
  unfold ringsFill
  repeat' first
    | with_reducible exact Quiet.refl _
    | with_reducible assumption
    | with_reducible refine Quiet.foldl (fun d x => ?_) ?_
    | with_reducible refine Quiet.foldlFst (fun d x => ?_) ?_
    | with_reducible apply ringFilled_quiet
    | (dsimp -zeta only)

theorem lanesRun_quiet {o₀ : Dev} (d : Dev) (h₀ : Quiet o₀ d) : Quiet o₀ (lanesRun d) := by
  refine h₀.trans ?_
  unfold lanesRun
  repeat' first
    | (extract_lets +onlyGivenNames x; first | refine Quiet.cut (x := x) ?_ (fun hx => ?_) <;> [(clear_value (hv : x = _); rw [hv]); clear_value x] | clear_value x | skip)
    | with_reducible exact Quiet.refl _
    | with_reducible assumption
    | simp -zeta only [↓ Quiet.make]
    | with_reducible refine Quiet.of ?_
    | with_reducible apply Quiet.ite
    | with_reducible refine Quiet.foldl (fun d x => ?_) ?_
    | with_reducible refine Quiet.foldlFst (fun d x => ?_) ?_
    | with_reducible apply liveSetF_quiet
    | with_reducible apply liveMax_quiet
    | with_reducible apply lanesGo_quiet
    | split
    | (dsimp -zeta only)

theorem bulkLost_quiet {o₀ : Dev} (s : Nat) (write : Bool) (off len : Nat) (d : Dev) (h₀ : Quiet o₀ d) : Quiet o₀ (bulkLost s write off len d) := by
  refine h₀.trans ?_
  unfold bulkLost
  repeat' first
    | (extract_lets +onlyGivenNames x; first | refine Quiet.cut (x := x) ?_ (fun hx => ?_) <;> [(clear_value (hv : x = _); rw [hv]); clear_value x] | clear_value x | skip)
    | with_reducible exact Quiet.refl _
    | with_reducible assumption
    | simp -zeta only [↓ Quiet.make]
    | with_reducible refine Quiet.of ?_
    | with_reducible apply Quiet.ite
    | with_reducible refine Quiet.foldl (fun d x => ?_) ?_
    | with_reducible refine Quiet.foldlFst (fun d x => ?_) ?_
    | with_reducible apply setObjRing_quiet
    | with_reducible apply ringFill_quiet
    | with_reducible apply lanesGo_quiet
    | split
    | (dsimp -zeta only)

theorem reduce_quiet {o₀ : Dev} (d : Dev) (h₀ : Quiet o₀ d) : Quiet o₀ (reduce d) := by
  refine h₀.trans ?_
  unfold reduce
  repeat' first
    | (extract_lets +onlyGivenNames x; first | refine Quiet.cut (x := x) ?_ (fun hx => ?_) <;> [(clear_value (hv : x = _); rw [hv]); clear_value x] | clear_value x | skip)
    | with_reducible exact Quiet.refl _
    | with_reducible assumption
    | simp -zeta only [↓ Quiet.make]
    | with_reducible refine Quiet.of ?_
    | with_reducible apply Quiet.ite
    | with_reducible refine Quiet.foldl (fun d x => ?_) ?_
    | with_reducible refine Quiet.foldlFst (fun d x => ?_) ?_
    | with_reducible apply liveSet_quiet
    | with_reducible apply ringsFill_quiet
    | split
    | (dsimp -zeta only)

theorem xpEpoch_quiet {o₀ : Dev} (d : Dev) (h₀ : Quiet o₀ d) : Quiet o₀ (xpEpoch d) := by
  refine h₀.trans ?_
  unfold xpEpoch
  repeat' first
    | (extract_lets +onlyGivenNames x; first | refine Quiet.cut (x := x) ?_ (fun hx => ?_) <;> [(clear_value (hv : x = _); rw [hv]); clear_value x] | clear_value x | skip)
    | with_reducible exact Quiet.refl _
    | with_reducible assumption
    | simp -zeta only [↓ Quiet.make]
    | with_reducible refine Quiet.of ?_
    | with_reducible apply Quiet.ite
    | with_reducible apply liveSet_quiet
    | with_reducible apply raiseErr_quiet
    | split
    | (dsimp -zeta only)

end Sys2Proof.Machine
end

