-- ==== Sys2Proof/Laws/QuietSections.lean ====
section
/-!
SUPPORT. Sys2Proof/Laws/QuietSections.lean: for each operation of Machine/Sections.lean, that it is `Quiet` (or only `Sound`).
-/
set_option linter.all false
namespace Sys2Proof.Machine

theorem writeRecords_sound {o₀ : Dev} (p : List Byte) (d : Dev) (h₀ : Sound o₀ d) : Sound o₀ (writeRecords p d) := by
  refine h₀.trans ?_
  unfold writeRecords
  repeat' first
    | (extract_lets +onlyGivenNames x; first | refine Sound.cut (x := x) ?_ (fun hx => ?_) <;> [(clear_value (hv : x = _); rw [hv]); clear_value x] | refine Sound.cut (x := x.1) ?_ (fun hx => ?_) <;> [(clear_value (hv : x = _); rw [hv]); clear_value x] | clear_value x | skip)
    | with_reducible exact Sound.refl _
    | with_reducible assumption
    | simp -zeta only [↓ Sound.make]
    | with_reducible refine Sound.of ?_
    | with_reducible refine Sound.foldl (fun d x => ?_) ?_
    | with_reducible refine Sound.foldlFst (fun d x => ?_) ?_
    | with_reducible apply regStore_sound
    | split
    | (dsimp -zeta only)

theorem loadShared_quiet {o₀ : Dev} (l : List VecRange) (d : Dev) (h₀ : Quiet o₀ d) : Quiet o₀ (loadShared l d) := by
  refine h₀.trans ?_
  unfold loadShared
  repeat' first
    | (extract_lets +onlyGivenNames x; first | refine Quiet.cut (x := x) ?_ (fun hx => ?_) <;> [(clear_value (hv : x = _); rw [hv]); clear_value x] | clear_value x | skip)
    | with_reducible exact Quiet.refl _
    | with_reducible assumption
    | simp -zeta only [↓ Quiet.make]
    | with_reducible refine Quiet.of ?_
    | with_reducible refine Quiet.foldl (fun d x => ?_) ?_
    | with_reducible refine Quiet.foldlFst (fun d x => ?_) ?_
    | (dsimp -zeta only)

theorem vecInstall_quiet {o₀ : Dev} (l : List VecRange) (d : Dev) (h₀ : Quiet o₀ d) : Quiet o₀ (vecInstall l d) := by
  refine h₀.trans ?_
  unfold vecInstall
  repeat' first
    | with_reducible exact Quiet.refl _
    | with_reducible assumption
    | with_reducible refine Quiet.foldl (fun d x => ?_) ?_
    | with_reducible refine Quiet.foldlFst (fun d x => ?_) ?_
    | with_reducible apply setCore_quiet
    | with_reducible apply loadShared_quiet
    | (dsimp -zeta only)

theorem vecReload_quiet {o₀ : Dev} (l : List VecRange) (d : Dev) (h₀ : Quiet o₀ d) : Quiet o₀ (vecReload l d) := by
  refine h₀.trans ?_
  unfold vecReload
  repeat' first
    | (extract_lets +onlyGivenNames x; first | refine Quiet.cut (x := x) ?_ (fun hx => ?_) <;> [(clear_value (hv : x = _); rw [hv]); clear_value x] | clear_value x | skip)
    | with_reducible exact Quiet.refl _
    | with_reducible assumption
    | simp -zeta only [↓ Quiet.make]
    | with_reducible refine Quiet.of ?_
    | with_reducible refine Quiet.foldl (fun d x => ?_) ?_
    | with_reducible refine Quiet.foldlFst (fun d x => ?_) ?_
    | with_reducible apply coreLoad_quiet
    | with_reducible apply loadShared_quiet
    | (dsimp -zeta only)

theorem itemsInstall_quiet {o₀ : Dev} (t : List InsGroup × List (Nat × Nat)) (d : Dev) (h₀ : Quiet o₀ d) : Quiet o₀ (itemsInstall t d) := by
  refine h₀.trans ?_
  unfold itemsInstall
  repeat' first
    | (extract_lets +onlyGivenNames x; first | refine Quiet.cut (x := x) ?_ (fun hx => ?_) <;> [(clear_value (hv : x = _); rw [hv]); clear_value x] | clear_value x | skip)
    | with_reducible exact Quiet.refl _
    | with_reducible assumption
    | simp -zeta only [↓ Quiet.make]
    | with_reducible refine Quiet.of ?_
    | (dsimp -zeta only)

theorem itemsJoin_quiet {o₀ : Dev} (t : List InsGroup × List (Nat × Nat)) (d : Dev) (h₀ : Quiet o₀ d) : Quiet o₀ (itemsJoin t d) := by
  refine h₀.trans ?_
  unfold itemsJoin
  repeat' first
    | (extract_lets +onlyGivenNames x; first | refine Quiet.cut (x := x) ?_ (fun hx => ?_) <;> [(clear_value (hv : x = _); rw [hv]); clear_value x] | clear_value x | skip)
    | with_reducible exact Quiet.refl _
    | with_reducible assumption
    | simp -zeta only [↓ Quiet.make]
    | with_reducible refine Quiet.of ?_
    | with_reducible apply itemsInstall_quiet

theorem refuseSection_quiet {o₀ : Dev} (type : Nat) (p : List Byte) (d : Dev) (h₀ : Quiet o₀ d) : Quiet o₀ (refuseSection type p d) := by
  refine h₀.trans ?_
  unfold refuseSection
  repeat' first
    | (extract_lets +onlyGivenNames x; first | refine Quiet.cut (x := x) ?_ (fun hx => ?_) <;> [(clear_value (hv : x = _); rw [hv]); clear_value x] | clear_value x | skip)
    | with_reducible exact Quiet.refl _
    | with_reducible assumption
    | with_reducible apply Quiet.ite
    | with_reducible apply liveSetB_quiet
    | with_reducible apply raiseErr_quiet
    | split

theorem sectionInstall_sound {o₀ : Dev} (type : Nat) (p : List Byte) (d : Dev) (h₀ : Sound o₀ d) : Sound o₀ (sectionInstall type p d) := by
  refine h₀.trans ?_
  have hg : ∀ n, Sound d (geoActivate n p { d with mem := { d.mem with active := setTable d.mem.active n p } }) := by
    intro n
    have hs : Sound d { d with mem := { d.mem with active := setTable d.mem.active n p } } :=
      ⟨fun h => ⟨h.live, h.shadow, h.act, h.snap, { h.mem with active := mapWf_mapSet _ _ _ h.mem.active }, h.epoch, h.period⟩⟩
    exact hs.transQuiet (geoActivate_quiet _ _ _ (.refl _))
  unfold sectionInstall
  split
  · exact ⟨fun h => ⟨h.live, h.shadow, h.act, h.snap, { h.mem with sram := mapWf_mapSetRun _ _ _ h.mem.sram }, h.epoch, h.period⟩⟩
  · exact ⟨fun h => ⟨h.live, h.shadow, h.act, h.snap, h.mem, h.epoch, h.period⟩⟩
  · exact hg _
  · exact hg _
  · exact hg _
  · exact ⟨fun h => ⟨h.live, h.shadow, h.act, h.snap, h.mem, h.epoch, h.period⟩⟩
  · exact (rcInstall_quiet _ _ (.refl _)).sound
  · exact (vecInstall_quiet _ _ (.refl _)).sound
  · exact (itemsInstall_quiet _ _ (.refl _)).sound
  · exact (netActivate_quiet _ _ (.refl _)).sound
  · exact writeRecords_sound _ _ (.refl _)

end Sys2Proof.Machine
end

