-- ==== Sys2Proof/Laws/QuietDram.lean ====
section
/-!
SUPPORT. Sys2Proof/Laws/QuietDram.lean: for each operation of Machine/Dram.lean, that it is `Quiet` (or only `Sound`).
-/
set_option linter.all false
namespace Sys2Proof.Machine

theorem setDram_quiet {o₀ : Dev} (d : Dev) (ch : Nat) (m : Dram) (h₀ : Quiet o₀ d) : Quiet o₀ (setDram d ch m) := by
  refine h₀.trans ?_
  unfold setDram
  repeat' first
    | (extract_lets +onlyGivenNames x; first | refine Quiet.cut (x := x) ?_ (fun hx => ?_) <;> [(clear_value (hv : x = _); rw [hv]); clear_value x] | clear_value x | skip)
    | with_reducible exact Quiet.refl _
    | with_reducible assumption
    | simp -zeta only [↓ Quiet.make]
    | with_reducible refine Quiet.of ?_
    | with_reducible apply Quiet.ite
    | split

theorem setMemState_quiet {o₀ : Dev} (d : Dev) (ch v : Nat) (h₀ : Quiet o₀ d) : Quiet o₀ (setMemState d ch v) := by
  refine h₀.trans ?_
  unfold setMemState
  repeat' first
    | with_reducible exact Quiet.refl _
    | with_reducible assumption
    | with_reducible apply liveSetF_quiet

theorem memErrRegs_quiet {o₀ : Dev} (d : Dev) (ch off master syn : Nat) (unc : Bool) (h₀ : Quiet o₀ d) : Quiet o₀ (memErrRegs d ch off master syn unc) := by
  refine h₀.trans ?_
  unfold memErrRegs
  repeat' first
    | (extract_lets +onlyGivenNames x; first | refine Quiet.cut (x := x) ?_ (fun hx => ?_) <;> [(clear_value (hv : x = _); rw [hv]); clear_value x] | clear_value x | skip)
    | with_reducible exact Quiet.refl _
    | with_reducible assumption
    | with_reducible apply liveSet_quiet

theorem memFailed_quiet {o₀ : Dev} (d : Dev) (ch off master : Nat) (h₀ : Quiet o₀ d) : Quiet o₀ (memFailed d ch off master) := by
  refine h₀.trans ?_
  unfold memFailed
  repeat' first
    | with_reducible exact Quiet.refl _
    | with_reducible assumption
    | with_reducible apply Quiet.ite
    | with_reducible apply raiseErr_quiet
    | split

theorem ofRequest_quiet {o₀ : Dev} (ch : Nat) (r : DramReq) (f : XbarTx → XbarTx) (d : Dev) (h₀ : Quiet o₀ d) : Quiet o₀ (ofRequest ch r f d) := by
  refine h₀.trans ?_
  unfold ofRequest
  repeat' first
    | (extract_lets +onlyGivenNames x; first | refine Quiet.cut (x := x) ?_ (fun hx => ?_) <;> [(clear_value (hv : x = _); rw [hv]); clear_value x] | clear_value x | skip)
    | with_reducible exact Quiet.refl _
    | with_reducible assumption
    | simp -zeta only [↓ Quiet.make]
    | with_reducible refine Quiet.of ?_
    | split

theorem markData_quiet {o₀ : Dev} (ch : Nat) (r : DramReq) (d : Dev) (h₀ : Quiet o₀ d) : Quiet o₀ (markData ch r d) := by
  refine h₀.trans ?_
  unfold markData
  repeat' first
    | (extract_lets +onlyGivenNames x; first | refine Quiet.cut (x := x) ?_ (fun hx => ?_) <;> [(clear_value (hv : x = _); rw [hv]); clear_value x] | clear_value x | skip)
    | with_reducible exact Quiet.refl _
    | with_reducible assumption
    | simp -zeta only [↓ Quiet.make]
    | with_reducible refine Quiet.of ?_
    | with_reducible apply ofRequest_quiet
    | with_reducible apply answer_quiet
    | (dsimp -zeta only)

theorem burstDone_quiet {o₀ : Dev} (ch : Nat) (r : DramReq) (d : Dev) (h₀ : Quiet o₀ d) : Quiet o₀ (burstDone ch r d) := by
  refine h₀.trans ?_
  unfold burstDone
  repeat' first
    | (extract_lets +onlyGivenNames x; first | refine Quiet.cut (x := x) ?_ (fun hx => ?_) <;> [(clear_value (hv : x = _); rw [hv]); clear_value x] | clear_value x | skip)
    | with_reducible exact Quiet.refl _
    | with_reducible assumption
    | simp -zeta only [↓ Quiet.make]
    | with_reducible refine Quiet.of ?_
    | with_reducible apply ofRequest_quiet
    | (dsimp -zeta only)

theorem memError_quiet {o₀ : Dev} (d : Dev) (ch : Nat) (r : DramReq) (h₀ : Quiet o₀ d) : Quiet o₀ (memError d ch r) := by
  refine h₀.trans ?_
  unfold memError
  repeat' first
    | (extract_lets +onlyGivenNames x; first | refine Quiet.cut (x := x) ?_ (fun hx => ?_) <;> [(clear_value (hv : x = _); rw [hv]); clear_value x] | clear_value x | skip)
    | with_reducible exact Quiet.refl _
    | with_reducible assumption
    | simp -zeta only [↓ Quiet.make]
    | with_reducible refine Quiet.of ?_
    | with_reducible apply bump_quiet
    | with_reducible apply raiseErr_quiet
    | with_reducible apply perfHit_quiet
    | with_reducible apply memErrRegs_quiet
    | with_reducible apply memFailed_quiet
    | with_reducible apply markData_quiet
    | split

theorem serveDram_quiet {o₀ : Dev} (ch : Nat) (d : Dev) (r : DramReq) (h₀ : Quiet o₀ d) : Quiet o₀ (serveDram ch d r) := by
  refine h₀.trans ?_
  unfold serveDram
  repeat' first
    | (extract_lets +onlyGivenNames x; first | refine Quiet.cut (x := x) ?_ (fun hx => ?_) <;> [(clear_value (hv : x = _); rw [hv]); clear_value x] | clear_value x | skip)
    | with_reducible exact Quiet.refl _
    | with_reducible assumption
    | simp -zeta only [↓ Quiet.make]
    | with_reducible refine Quiet.of ?_
    | with_reducible apply Quiet.ite
    | with_reducible apply liveMax_quiet
    | with_reducible apply perfHit_quiet
    | with_reducible apply setDram_quiet
    | with_reducible apply burstDone_quiet
    | with_reducible apply memError_quiet
    | split
    | (dsimp -zeta only)

theorem showDown_quiet {o₀ : Dev} (d : Dev) (ch : Nat) (h₀ : Quiet o₀ d) : Quiet o₀ (showDown d ch) := by
  refine h₀.trans ?_
  unfold showDown
  repeat' first
    | with_reducible exact Quiet.refl _
    | with_reducible assumption
    | with_reducible apply Quiet.ite
    | with_reducible apply setMemState_quiet
    | split
    | (dsimp -zeta only)

theorem wakeRanks_quiet {o₀ : Dev} (d : Dev) (ch : Nat) (left : List Nat) (h₀ : Quiet o₀ d) : Quiet o₀ (wakeRanks d ch left) := by
  refine h₀.trans ?_
  unfold wakeRanks
  repeat' first
    | (extract_lets +onlyGivenNames x; first | refine Quiet.cut (x := x) ?_ (fun hx => ?_) <;> [(clear_value (hv : x = _); rw [hv]); clear_value x] | clear_value x | skip)
    | with_reducible exact Quiet.refl _
    | with_reducible assumption
    | simp -zeta only [↓ Quiet.make]
    | with_reducible refine Quiet.of ?_
    | with_reducible apply setDram_quiet
    | with_reducible apply showDown_quiet

theorem dramRequest_quiet {o₀ : Dev} (ch : Nat) (r : DramReq) (d : Dev) (h₀ : Quiet o₀ d) : Quiet o₀ (dramRequest ch r d) := by
  refine h₀.trans ?_
  unfold dramRequest
  repeat' first
    | (extract_lets +onlyGivenNames x; first | refine Quiet.cut (x := x) ?_ (fun hx => ?_) <;> [(clear_value (hv : x = _); rw [hv]); clear_value x] | clear_value x | skip)
    | with_reducible exact Quiet.refl _
    | with_reducible assumption
    | simp -zeta only [↓ Quiet.make]
    | with_reducible refine Quiet.of ?_
    | with_reducible apply Quiet.ite
    | with_reducible apply setDram_quiet
    | with_reducible apply serveDram_quiet
    | with_reducible apply wakeRanks_quiet
    | split

theorem dramRefresh_quiet {o₀ : Dev} (ch : Nat) (d : Dev) (h₀ : Quiet o₀ d) : Quiet o₀ (dramRefresh ch d) := by
  refine h₀.trans ?_
  unfold dramRefresh
  repeat' first
    | (extract_lets +onlyGivenNames x; first | refine Quiet.cut (x := x) ?_ (fun hx => ?_) <;> [(clear_value (hv : x = _); rw [hv]); clear_value x] | clear_value x | skip)
    | with_reducible exact Quiet.refl _
    | with_reducible assumption
    | simp -zeta only [↓ Quiet.make]
    | with_reducible refine Quiet.of ?_
    | with_reducible apply Quiet.ite
    | with_reducible apply perfHit_quiet
    | with_reducible apply setDram_quiet
    | with_reducible apply wakeRanks_quiet
    | split

theorem powerDown_quiet {o₀ : Dev} (ch rank : Nat) (d : Dev) (h₀ : Quiet o₀ d) : Quiet o₀ (powerDown ch rank d) := by
  refine h₀.trans ?_
  unfold powerDown
  repeat' first
    | with_reducible exact Quiet.refl _
    | with_reducible assumption
    | with_reducible apply Quiet.ite
    | with_reducible apply wakeRanks_quiet
    | split

theorem selfRefresh_quiet {o₀ : Dev} (ch : Nat) (d : Dev) (h₀ : Quiet o₀ d) : Quiet o₀ (selfRefresh ch d) := by
  refine h₀.trans ?_
  unfold selfRefresh
  repeat' first
    | (extract_lets +onlyGivenNames x; first | refine Quiet.cut (x := x) ?_ (fun hx => ?_) <;> [(clear_value (hv : x = _); rw [hv]); clear_value x] | clear_value x | skip)
    | with_reducible exact Quiet.refl _
    | with_reducible assumption
    | simp -zeta only [↓ Quiet.make]
    | with_reducible refine Quiet.of ?_
    | with_reducible apply Quiet.ite
    | with_reducible apply bump_quiet
    | with_reducible apply setDram_quiet
    | with_reducible apply setMemState_quiet
    | split

theorem selfRefreshExit_quiet {o₀ : Dev} (ch : Nat) (d : Dev) (h₀ : Quiet o₀ d) : Quiet o₀ (selfRefreshExit ch d) := by
  refine h₀.trans ?_
  unfold selfRefreshExit
  repeat' first
    | (extract_lets +onlyGivenNames x; first | refine Quiet.cut (x := x) ?_ (fun hx => ?_) <;> [(clear_value (hv : x = _); rw [hv]); clear_value x] | clear_value x | skip)
    | with_reducible exact Quiet.refl _
    | with_reducible assumption
    | simp -zeta only [↓ Quiet.make]
    | with_reducible refine Quiet.of ?_
    | with_reducible apply Quiet.ite
    | with_reducible refine Quiet.foldl (fun d x => ?_) ?_
    | with_reducible refine Quiet.foldlFst (fun d x => ?_) ?_
    | with_reducible apply setDram_quiet
    | with_reducible apply setMemState_quiet
    | with_reducible apply serveDram_quiet
    | split

theorem retrainingPause_quiet {o₀ : Dev} (ch : Nat) (hot : Bool) (d : Dev) (h₀ : Quiet o₀ d) : Quiet o₀ (retrainingPause ch hot d) := by
  refine h₀.trans ?_
  unfold retrainingPause
  repeat' first
    | (extract_lets +onlyGivenNames x; first | refine Quiet.cut (x := x) ?_ (fun hx => ?_) <;> [(clear_value (hv : x = _); rw [hv]); clear_value x] | clear_value x | skip)
    | with_reducible exact Quiet.refl _
    | with_reducible assumption
    | simp -zeta only [↓ Quiet.make]
    | with_reducible refine Quiet.of ?_
    | with_reducible apply Quiet.ite
    | with_reducible apply liveSetB_quiet
    | with_reducible apply bump_quiet
    | with_reducible apply perfSpan_quiet
    | with_reducible apply setDram_quiet
    | with_reducible apply wakeRanks_quiet
    | with_reducible apply selfRefreshExit_quiet
    | split

theorem memEpoch_sound {o₀ : Dev} (d : Dev) (h₀ : Sound o₀ d) : Sound o₀ (memEpoch d) := by
  refine h₀.trans ?_
  unfold memEpoch
  extract_lets +onlyGivenNames q x
  have hx : Sound d x := by
    refine Sound.ite ⟨fun h => ⟨h.live, h.shadow, h.act, h.snap, { h.mem with rcRegion := .nil }, h.epoch, h.period⟩⟩ (.refl _)
  clear_value x
  refine hx.transQuiet ?_
  split
  · extract_lets +onlyGivenNames y
    have hy : Quiet x y := selfRefreshExit_quiet _ _ (.refl _)
    exact Quiet.ite hy (wakeRanks_quiet _ _ _ hy)
  · exact .refl _

theorem memInit_quiet {o₀ : Dev} (ch : Nat) (ok : Bool) (d : Dev) (h₀ : Quiet o₀ d) : Quiet o₀ (memInit ch ok d) := by
  refine h₀.trans ?_
  unfold memInit
  repeat' first
    | (extract_lets +onlyGivenNames x; first | refine Quiet.cut (x := x) ?_ (fun hx => ?_) <;> [(clear_value (hv : x = _); rw [hv]); clear_value x] | clear_value x | skip)
    | with_reducible exact Quiet.refl _
    | with_reducible assumption
    | with_reducible apply Quiet.ite
    | with_reducible apply liveSet_quiet
    | with_reducible apply liveSetF_quiet
    | with_reducible apply liveSetB_quiet
    | with_reducible apply raiseErr_quiet
    | with_reducible apply setDram_quiet
    | with_reducible apply setMemState_quiet
    | split

theorem memReports_quiet {o₀ : Dev} (d : Dev) (h₀ : Quiet o₀ d) : Quiet o₀ (memReports d) := by
  refine h₀.trans ?_
  unfold memReports
  repeat' first
    | with_reducible exact Quiet.refl _
    | with_reducible assumption
    | with_reducible refine Quiet.foldl (fun d x => ?_) ?_
    | with_reducible refine Quiet.foldlFst (fun d x => ?_) ?_
    | with_reducible apply liveSetF_quiet
    | (dsimp -zeta only)

end Sys2Proof.Machine
end

