-- ==== Sys2Proof/Laws/QuietPtp.lean ====
section
/-!
SUPPORT. Sys2Proof/Laws/QuietPtp.lean: for each operation of Machine/Ptp.lean, that it is `Quiet` (or only `Sound`).
-/
set_option linter.all false
namespace Sys2Proof.Machine

theorem setPtp_quiet {o₀ : Dev} (d : Dev) (x : Nat) (p : PtpInst) (h₀ : Quiet o₀ d) : Quiet o₀ (setPtp d x p) := by
  refine h₀.trans ?_
  unfold setPtp
  repeat' first
    | (extract_lets +onlyGivenNames x; first | refine Quiet.cut (x := x) ?_ (fun hx => ?_) <;> [(clear_value (hv : x = _); rw [hv]); clear_value x] | clear_value x | skip)
    | with_reducible exact Quiet.refl _
    | with_reducible assumption
    | simp -zeta only [↓ Quiet.make]
    | with_reducible refine Quiet.of ?_
    | with_reducible apply Quiet.ite
    | split

theorem setPortStateOf_quiet {o₀ : Dev} (d : Dev) (x v : Nat) (h₀ : Quiet o₀ d) : Quiet o₀ (setPortStateOf d x v) := by
  refine h₀.trans ?_
  unfold setPortStateOf
  repeat' first
    | with_reducible exact Quiet.refl _
    | with_reducible assumption
    | with_reducible apply liveSetF_quiet

theorem liveSet64_quiet {o₀ : Dev} (d : Dev) (lo hi : Nat) (v : Int) (h₀ : Quiet o₀ d) : Quiet o₀ (liveSet64 d lo hi v) := by
  refine h₀.trans ?_
  unfold liveSet64
  repeat' first
    | (extract_lets +onlyGivenNames x; first | refine Quiet.cut (x := x) ?_ (fun hx => ?_) <;> [(clear_value (hv : x = _); rw [hv]); clear_value x] | clear_value x | skip)
    | with_reducible exact Quiet.refl _
    | with_reducible assumption
    | with_reducible apply liveSet_quiet

theorem ptpReport_quiet {o₀ : Dev} (d : Dev) (x : Nat) (h₀ : Quiet o₀ d) : Quiet o₀ (ptpReport d x) := by
  refine h₀.trans ?_
  unfold ptpReport
  repeat' first
    | (extract_lets +onlyGivenNames x; first | refine Quiet.cut (x := x) ?_ (fun hx => ?_) <;> [(clear_value (hv : x = _); rw [hv]); clear_value x] | clear_value x | skip)
    | with_reducible exact Quiet.refl _
    | with_reducible assumption
    | simp -zeta only [↓ Quiet.make]
    | with_reducible refine Quiet.of ?_
    | with_reducible apply Quiet.ite
    | with_reducible refine Quiet.foldl (fun d x => ?_) ?_
    | with_reducible refine Quiet.foldlFst (fun d x => ?_) ?_
    | with_reducible apply liveSet_quiet
    | with_reducible apply liveSetF_quiet
    | with_reducible apply liveSetB_quiet
    | with_reducible apply setPtp_quiet
    | with_reducible apply liveSet64_quiet
    | split

theorem bmca_quiet {o₀ : Dev} (d : Dev) (x : Nat) (h₀ : Quiet o₀ d) : Quiet o₀ (bmca d x) := by
  refine h₀.trans ?_
  unfold bmca
  repeat' first
    | (extract_lets +onlyGivenNames x; first | refine Quiet.cut (x := x) ?_ (fun hx => ?_) <;> [(clear_value (hv : x = _); rw [hv]); clear_value x] | clear_value x | skip)
    | with_reducible exact Quiet.refl _
    | with_reducible assumption
    | simp -zeta only [↓ Quiet.make]
    | with_reducible refine Quiet.of ?_
    | with_reducible apply Quiet.ite
    | with_reducible apply liveSet_quiet
    | with_reducible apply liveSetB_quiet
    | with_reducible apply bump_quiet
    | with_reducible apply setPtp_quiet
    | with_reducible apply setPortStateOf_quiet
    | with_reducible apply liveSet64_quiet
    | split

theorem setServo_quiet {o₀ : Dev} (d : Dev) (st cause : Nat) (h₀ : Quiet o₀ d) : Quiet o₀ (setServo d st cause) := by
  refine h₀.trans ?_
  unfold setServo
  repeat' first
    | with_reducible exact Quiet.refl _
    | with_reducible assumption
    | with_reducible apply liveSetF_quiet

theorem setResidual_quiet {o₀ : Dev} (d : Dev) (r : Int) (h₀ : Quiet o₀ d) : Quiet o₀ (setResidual d r) := by
  refine h₀.trans ?_
  unfold setResidual
  repeat' first
    | with_reducible exact Quiet.refl _
    | with_reducible assumption
    | with_reducible apply liveSet64_quiet

theorem tracking_quiet {o₀ : Dev} (d : Dev) (o : Int) (h₀ : Quiet o₀ d) : Quiet o₀ (tracking d o) := by
  refine h₀.trans ?_
  unfold tracking
  repeat' first
    | (extract_lets +onlyGivenNames x; first | refine Quiet.cut (x := x) ?_ (fun hx => ?_) <;> [(clear_value (hv : x = _); rw [hv]); clear_value x] | clear_value x | skip)
    | with_reducible exact Quiet.refl _
    | with_reducible assumption
    | simp -zeta only [↓ Quiet.make]
    | with_reducible refine Quiet.of ?_
    | with_reducible apply Quiet.ite
    | with_reducible apply setServo_quiet
    | with_reducible apply setResidual_quiet
    | split

theorem setWord_quiet {o₀ : Dev} (d : Dev) (now w : Int) (h₀ : Quiet o₀ d) : Quiet o₀ (setWord d now w) := by
  refine h₀.trans ?_
  unfold setWord
  repeat' first
    | (extract_lets +onlyGivenNames x; first | refine Quiet.cut (x := x) ?_ (fun hx => ?_) <;> [(clear_value (hv : x = _); rw [hv]); clear_value x] | clear_value x | skip)
    | with_reducible exact Quiet.refl _
    | with_reducible assumption
    | simp -zeta only [↓ Quiet.make]
    | with_reducible refine Quiet.of ?_
    | with_reducible apply liveSet_quiet

theorem moveWord_quiet {o₀ : Dev} (d : Dev) (now w : Int) (h₀ : Quiet o₀ d) : Quiet o₀ (moveWord d now w) := by
  refine h₀.trans ?_
  unfold moveWord
  repeat' first
    | (extract_lets +onlyGivenNames x; first | refine Quiet.cut (x := x) ?_ (fun hx => ?_) <;> [(clear_value (hv : x = _); rw [hv]); clear_value x] | clear_value x | skip)
    | with_reducible exact Quiet.refl _
    | with_reducible assumption
    | simp -zeta only [↓ Quiet.make]
    | with_reducible refine Quiet.of ?_
    | with_reducible apply setWord_quiet
    | split

theorem loopStep_quiet {o₀ : Dev} (d : Dev) (now e : Int) (h₀ : Quiet o₀ d) : Quiet o₀ (loopStep d now e) := by
  refine h₀.trans ?_
  unfold loopStep
  repeat' first
    | (extract_lets +onlyGivenNames x; first | refine Quiet.cut (x := x) ?_ (fun hx => ?_) <;> [(clear_value (hv : x = _); rw [hv]); clear_value x] | clear_value x | skip)
    | with_reducible exact Quiet.refl _
    | with_reducible assumption
    | simp -zeta only [↓ Quiet.make]
    | with_reducible refine Quiet.of ?_
    | split
    | (dsimp -zeta only)

theorem planResid_quiet {o₀ : Dev} (d : Dev) (o : Int) (h₀ : Quiet o₀ d) : Quiet o₀ (planResid d o) := by
  refine h₀.trans ?_
  unfold planResid
  repeat' first
    | (extract_lets +onlyGivenNames x; first | refine Quiet.cut (x := x) ?_ (fun hx => ?_) <;> [(clear_value (hv : x = _); rw [hv]); clear_value x] | clear_value x | skip)
    | with_reducible exact Quiet.refl _
    | with_reducible assumption
    | simp -zeta only [↓ Quiet.make]
    | with_reducible refine Quiet.of ?_
    | with_reducible apply Quiet.ite
    | split

theorem servoUpdate_quiet {o₀ : Dev} (d : Dev) (now o : Int) (h₀ : Quiet o₀ d) : Quiet o₀ (servoUpdate d now o) := by
  refine h₀.trans ?_
  unfold servoUpdate
  repeat' first
    | (extract_lets +onlyGivenNames x; first | refine Quiet.cut (x := x) ?_ (fun hx => ?_) <;> [(clear_value (hv : x = _); rw [hv]); clear_value x] | clear_value x | skip)
    | with_reducible exact Quiet.refl _
    | with_reducible assumption
    | simp -zeta only [↓ Quiet.make]
    | with_reducible refine Quiet.of ?_
    | with_reducible apply Quiet.ite
    | with_reducible apply moveWord_quiet
    | with_reducible apply loopStep_quiet
    | with_reducible apply planResid_quiet
    | split

theorem profileStep_quiet {o₀ : Dev} (d : Dev) (h₀ : Quiet o₀ d) : Quiet o₀ (profileStep d) := by
  refine h₀.trans ?_
  unfold profileStep
  repeat' first
    | (extract_lets +onlyGivenNames x; first | refine Quiet.cut (x := x) ?_ (fun hx => ?_) <;> [(clear_value (hv : x = _); rw [hv]); clear_value x] | clear_value x | skip)
    | with_reducible exact Quiet.refl _
    | with_reducible assumption
    | simp -zeta only [↓ Quiet.make]
    | with_reducible refine Quiet.of ?_
    | with_reducible apply Quiet.ite
    | split

theorem enterHoldover_quiet {o₀ : Dev} (d : Dev) (cause : Nat) (cand : Option Nat) (h₀ : Quiet o₀ d) : Quiet o₀ (enterHoldover d cause cand) := by
  refine h₀.trans ?_
  unfold enterHoldover
  repeat' first
    | (extract_lets +onlyGivenNames x; first | refine Quiet.cut (x := x) ?_ (fun hx => ?_) <;> [(clear_value (hv : x = _); rw [hv]); clear_value x] | clear_value x | skip)
    | with_reducible exact Quiet.refl _
    | with_reducible assumption
    | simp -zeta only [↓ Quiet.make]
    | with_reducible refine Quiet.of ?_
    | with_reducible apply Quiet.ite
    | with_reducible refine Quiet.foldl (fun d x => ?_) ?_
    | with_reducible refine Quiet.foldlFst (fun d x => ?_) ?_
    | with_reducible apply liveSetB_quiet
    | with_reducible apply setServo_quiet
    | split
    | (dsimp -zeta only)

theorem followSource_quiet {o₀ : Dev} (d : Dev) (x : Nat) (h₀ : Quiet o₀ d) : Quiet o₀ (followSource d x) := by
  refine h₀.trans ?_
  unfold followSource
  repeat' first
    | (extract_lets +onlyGivenNames x; first | refine Quiet.cut (x := x) ?_ (fun hx => ?_) <;> [(clear_value (hv : x = _); rw [hv]); clear_value x] | clear_value x | skip)
    | with_reducible exact Quiet.refl _
    | with_reducible assumption
    | simp -zeta only [↓ Quiet.make]
    | with_reducible refine Quiet.of ?_
    | with_reducible apply Quiet.ite
    | with_reducible apply liveSetF_quiet
    | with_reducible apply bump_quiet
    | with_reducible apply raiseErr_quiet
    | with_reducible apply setResidual_quiet
    | with_reducible apply tracking_quiet
    | split

theorem sourceLost_quiet {o₀ : Dev} (d : Dev) (at' : Option Nat) (h₀ : Quiet o₀ d) : Quiet o₀ (sourceLost d at') := by
  refine h₀.trans ?_
  unfold sourceLost
  repeat' first
    | (extract_lets +onlyGivenNames x; first | refine Quiet.cut (x := x) ?_ (fun hx => ?_) <;> [(clear_value (hv : x = _); rw [hv]); clear_value x] | clear_value x | skip)
    | with_reducible exact Quiet.refl _
    | with_reducible assumption
    | with_reducible apply Quiet.ite
    | with_reducible apply enterHoldover_quiet
    | with_reducible apply followSource_quiet
    | split

theorem causeCheck_quiet {o₀ : Dev} (d : Dev) (h₀ : Quiet o₀ d) : Quiet o₀ (causeCheck d) := by
  refine h₀.trans ?_
  unfold causeCheck
  repeat' first
    | (extract_lets +onlyGivenNames x; first | refine Quiet.cut (x := x) ?_ (fun hx => ?_) <;> [(clear_value (hv : x = _); rw [hv]); clear_value x] | clear_value x | skip)
    | with_reducible exact Quiet.refl _
    | with_reducible assumption
    | simp -zeta only [↓ Quiet.make]
    | with_reducible refine Quiet.of ?_
    | with_reducible apply Quiet.ite
    | with_reducible apply setServo_quiet
    | split

theorem holdoverTry_quiet {o₀ : Dev} (d : Dev) (h₀ : Quiet o₀ d) : Quiet o₀ (holdoverTry d) := by
  refine h₀.trans ?_
  unfold holdoverTry
  repeat' first
    | (extract_lets +onlyGivenNames x; first | refine Quiet.cut (x := x) ?_ (fun hx => ?_) <;> [(clear_value (hv : x = _); rw [hv]); clear_value x] | clear_value x | skip)
    | with_reducible exact Quiet.refl _
    | with_reducible assumption
    | simp -zeta only [↓ Quiet.make]
    | with_reducible refine Quiet.of ?_
    | with_reducible apply Quiet.ite
    | with_reducible apply liveSetB_quiet
    | with_reducible apply setServo_quiet
    | with_reducible apply followSource_quiet
    | with_reducible apply causeCheck_quiet
    | split
    | (dsimp -zeta only)

theorem stepMedia_quiet {o₀ : Dev} (d : Dev) (o : Int) (h₀ : Quiet o₀ d) : Quiet o₀ (stepMedia d o) := by
  refine h₀.trans ?_
  unfold stepMedia
  repeat' first
    | (extract_lets +onlyGivenNames x; first | refine Quiet.cut (x := x) ?_ (fun hx => ?_) <;> [(clear_value (hv : x = _); rw [hv]); clear_value x] | (have e : _ → _ := x; clear e; clear_value (hv : x = _); subst hv; beta_reduce) | clear_value x | skip)
    | with_reducible exact Quiet.refl _
    | with_reducible assumption
    | simp -zeta only [↓ Quiet.make]
    | with_reducible refine Quiet.of ?_
    | (dsimp -zeta only)

theorem acquire_quiet {o₀ : Dev} (d : Dev) (x : Nat) (now : Int) (h₀ : Quiet o₀ d) : Quiet o₀ (acquire d x now) := by
  refine h₀.trans ?_
  unfold acquire
  repeat' first
    | (extract_lets +onlyGivenNames x; first | refine Quiet.cut (x := x) ?_ (fun hx => ?_) <;> [(clear_value (hv : x = _); rw [hv]); clear_value x] | clear_value x | skip)
    | with_reducible exact Quiet.refl _
    | with_reducible assumption
    | simp -zeta only [↓ Quiet.make]
    | with_reducible refine Quiet.of ?_
    | with_reducible apply Quiet.ite
    | with_reducible apply setServo_quiet
    | with_reducible apply setResidual_quiet
    | with_reducible apply servoUpdate_quiet
    | with_reducible apply stepMedia_quiet
    | split

theorem followSync_quiet {o₀ : Dev} (d : Dev) (s : Nat) (now : Int) (h₀ : Quiet o₀ d) : Quiet o₀ (followSync d s now) := by
  refine h₀.trans ?_
  unfold followSync
  repeat' first
    | with_reducible exact Quiet.refl _
    | with_reducible assumption
    | with_reducible apply Quiet.ite
    | with_reducible apply tracking_quiet
    | with_reducible apply servoUpdate_quiet
    | with_reducible apply acquire_quiet
    | split

theorem servoSync_quiet {o₀ : Dev} (d : Dev) (x : Nat) (now : Int) (jumped : Bool) (h₀ : Quiet o₀ d) : Quiet o₀ (servoSync d x now jumped) := by
  refine h₀.trans ?_
  unfold servoSync
  repeat' first
    | (extract_lets +onlyGivenNames x; first | refine Quiet.cut (x := x) ?_ (fun hx => ?_) <;> [(clear_value (hv : x = _); rw [hv]); clear_value x] | clear_value x | skip)
    | with_reducible exact Quiet.refl _
    | with_reducible assumption
    | simp -zeta only [↓ Quiet.make]
    | with_reducible refine Quiet.of ?_
    | with_reducible apply Quiet.ite
    | with_reducible apply liveSetF_quiet
    | with_reducible apply setServo_quiet
    | with_reducible apply enterHoldover_quiet
    | with_reducible apply sourceLost_quiet
    | with_reducible apply holdoverTry_quiet
    | with_reducible apply followSync_quiet
    | split

theorem servoCheck_quiet {o₀ : Dev} (d : Dev) (h₀ : Quiet o₀ d) : Quiet o₀ (servoCheck d) := by
  refine h₀.trans ?_
  unfold servoCheck
  repeat' first
    | (extract_lets +onlyGivenNames x; first | refine Quiet.cut (x := x) ?_ (fun hx => ?_) <;> [(clear_value (hv : x = _); rw [hv]); clear_value x] | clear_value x | skip)
    | with_reducible exact Quiet.refl _
    | with_reducible assumption
    | with_reducible apply Quiet.ite
    | with_reducible apply sourceLost_quiet
    | with_reducible apply causeCheck_quiet
    | split

theorem takeOffset_quiet {o₀ : Dev} (d : Dev) (x : Nat) (o : Int) (h₀ : Quiet o₀ d) : Quiet o₀ (takeOffset d x o).1 := by
  refine h₀.trans ?_
  unfold takeOffset
  repeat' first
    | (extract_lets +onlyGivenNames x; first | refine Quiet.cut (x := x) ?_ (fun hx => ?_) <;> [(clear_value (hv : x = _); rw [hv]); clear_value x] | clear_value x | skip)
    | with_reducible exact Quiet.refl _
    | with_reducible assumption
    | simp -zeta only [↓ Quiet.make]
    | with_reducible refine Quiet.of ?_
    | with_reducible apply Quiet.ite
    | with_reducible apply liveSetB_quiet
    | with_reducible apply bump_quiet
    | with_reducible apply setPtp_quiet
    | split

theorem measureSync_quiet {o₀ : Dev} (d : Dev) (x : Nat) (t2 t1 c : Int) (h₀ : Quiet o₀ d) : Quiet o₀ (measureSync d x t2 t1 c) := by
  refine h₀.trans ?_
  unfold measureSync
  repeat' first
    | (extract_lets +onlyGivenNames x; first | refine Quiet.cut (x := x) ?_ (fun hx => ?_) <;> [(clear_value (hv : x = _); rw [hv]); clear_value x] | refine Quiet.cut (x := x.1) ?_ (fun hx => ?_) <;> [(clear_value (hv : x = _); rw [hv]); clear_value x] | clear_value x | skip)
    | with_reducible exact Quiet.refl _
    | with_reducible assumption
    | simp -zeta only [↓ Quiet.make]
    | with_reducible refine Quiet.of ?_
    | with_reducible apply setPtp_quiet
    | with_reducible apply ptpReport_quiet
    | with_reducible apply servoSync_quiet
    | with_reducible apply takeOffset_quiet
    | split
    | (dsimp -zeta only)

theorem measureDelay_quiet {o₀ : Dev} (d : Dev) (x : Nat) (t4 c : Int) (h₀ : Quiet o₀ d) : Quiet o₀ (measureDelay d x t4 c) := by
  refine h₀.trans ?_
  unfold measureDelay
  repeat' first
    | (extract_lets +onlyGivenNames x; first | refine Quiet.cut (x := x) ?_ (fun hx => ?_) <;> [(clear_value (hv : x = _); rw [hv]); clear_value x] | clear_value x | skip)
    | with_reducible exact Quiet.refl _
    | with_reducible assumption
    | simp -zeta only [↓ Quiet.make]
    | with_reducible refine Quiet.of ?_
    | with_reducible apply Quiet.ite
    | with_reducible apply setPtp_quiet
    | with_reducible apply setPortStateOf_quiet
    | with_reducible apply ptpReport_quiet
    | split

theorem ptpSend_quiet {o₀ : Dev} (d : Dev) (x body : Nat) (m : PtpMsg) (h₀ : Quiet o₀ d) : Quiet o₀ (ptpSend d x body m) := by
  refine h₀.trans ?_
  unfold ptpSend
  repeat' first
    | with_reducible exact Quiet.refl _
    | with_reducible assumption
    | with_reducible apply Quiet.ite
    | with_reducible apply enqueueTx_quiet
    | split

theorem ptpAnnounce_quiet {o₀ : Dev} (x : Nat) (m : PtpMsg) (src : IpAddr) (d : Dev) (h₀ : Quiet o₀ d) : Quiet o₀ (ptpAnnounce x m src d) := by
  refine h₀.trans ?_
  unfold ptpAnnounce
  repeat' first
    | (extract_lets +onlyGivenNames x; first | refine Quiet.cut (x := x) ?_ (fun hx => ?_) <;> [(clear_value (hv : x = _); rw [hv]); clear_value x] | clear_value x | skip)
    | with_reducible exact Quiet.refl _
    | with_reducible assumption
    | simp -zeta only [↓ Quiet.make]
    | with_reducible refine Quiet.of ?_
    | with_reducible apply bump_quiet
    | with_reducible apply setPtp_quiet
    | with_reducible apply ptpReport_quiet
    | with_reducible apply bmca_quiet
    | split
    | (dsimp -zeta only)

theorem ptpSync_quiet {o₀ : Dev} (x : Nat) (m : PtpMsg) (d : Dev) (h₀ : Quiet o₀ d) : Quiet o₀ (ptpSync x m d) := by
  refine h₀.trans ?_
  unfold ptpSync
  repeat' first
    | (extract_lets +onlyGivenNames x; first | refine Quiet.cut (x := x) ?_ (fun hx => ?_) <;> [(clear_value (hv : x = _); rw [hv]); clear_value x] | clear_value x | skip)
    | with_reducible exact Quiet.refl _
    | with_reducible assumption
    | simp -zeta only [↓ Quiet.make]
    | with_reducible refine Quiet.of ?_
    | with_reducible apply Quiet.ite
    | with_reducible apply bump_quiet
    | with_reducible apply setPtp_quiet
    | with_reducible apply ptpReport_quiet
    | with_reducible apply measureSync_quiet
    | split

theorem ptpFollowUp_quiet {o₀ : Dev} (x : Nat) (m : PtpMsg) (d : Dev) (h₀ : Quiet o₀ d) : Quiet o₀ (ptpFollowUp x m d) := by
  refine h₀.trans ?_
  unfold ptpFollowUp
  repeat' first
    | (extract_lets +onlyGivenNames x; first | refine Quiet.cut (x := x) ?_ (fun hx => ?_) <;> [(clear_value (hv : x = _); rw [hv]); clear_value x] | clear_value x | skip)
    | with_reducible exact Quiet.refl _
    | with_reducible assumption
    | simp -zeta only [↓ Quiet.make]
    | with_reducible refine Quiet.of ?_
    | with_reducible apply Quiet.ite
    | with_reducible apply bump_quiet
    | with_reducible apply measureSync_quiet
    | split

theorem ptpDelayResp_quiet {o₀ : Dev} (x : Nat) (m : PtpMsg) (d : Dev) (h₀ : Quiet o₀ d) : Quiet o₀ (ptpDelayResp x m d) := by
  refine h₀.trans ?_
  unfold ptpDelayResp
  repeat' first
    | (extract_lets +onlyGivenNames x; first | refine Quiet.cut (x := x) ?_ (fun hx => ?_) <;> [(clear_value (hv : x = _); rw [hv]); clear_value x] | clear_value x | skip)
    | with_reducible exact Quiet.refl _
    | with_reducible assumption
    | simp -zeta only [↓ Quiet.make]
    | with_reducible refine Quiet.of ?_
    | with_reducible apply Quiet.ite
    | with_reducible apply bump_quiet
    | with_reducible apply setPtp_quiet
    | with_reducible apply measureDelay_quiet
    | with_reducible apply grant_quiet
    | split

theorem ptpDelayReq_quiet {o₀ : Dev} (x : Nat) (m : PtpMsg) (d : Dev) (h₀ : Quiet o₀ d) : Quiet o₀ (ptpDelayReq x m d) := by
  refine h₀.trans ?_
  unfold ptpDelayReq
  repeat' first
    | (extract_lets +onlyGivenNames x; first | refine Quiet.cut (x := x) ?_ (fun hx => ?_) <;> [(clear_value (hv : x = _); rw [hv]); clear_value x] | clear_value x | skip)
    | with_reducible exact Quiet.refl _
    | with_reducible assumption
    | simp -zeta only [↓ Quiet.make]
    | with_reducible refine Quiet.of ?_
    | with_reducible apply Quiet.ite
    | with_reducible apply bump_quiet
    | with_reducible apply setPtp_quiet
    | with_reducible apply ptpSend_quiet
    | split
    | (dsimp -zeta only)

theorem ptpReceive_quiet {o₀ : Dev} (x : Nat) (m : PtpMsg) (src : IpAddr) (d : Dev) (h₀ : Quiet o₀ d) : Quiet o₀ (ptpReceive x m src d) := by
  refine h₀.trans ?_
  unfold ptpReceive
  repeat' first
    | (extract_lets +onlyGivenNames x; first | refine Quiet.cut (x := x) ?_ (fun hx => ?_) <;> [(clear_value (hv : x = _); rw [hv]); clear_value x] | clear_value x | skip)
    | with_reducible exact Quiet.refl _
    | with_reducible assumption
    | simp -zeta only [↓ Quiet.make]
    | with_reducible refine Quiet.of ?_
    | with_reducible apply Quiet.ite
    | with_reducible apply bump_quiet
    | with_reducible apply ptpAnnounce_quiet
    | with_reducible apply ptpSync_quiet
    | with_reducible apply ptpFollowUp_quiet
    | with_reducible apply ptpDelayResp_quiet
    | with_reducible apply ptpDelayReq_quiet
    | split

theorem delayReqTx_quiet {o₀ : Dev} (x : Nat) (d : Dev) (h₀ : Quiet o₀ d) : Quiet o₀ (delayReqTx x d) := by
  refine h₀.trans ?_
  unfold delayReqTx
  repeat' first
    | (extract_lets +onlyGivenNames x; first | refine Quiet.cut (x := x) ?_ (fun hx => ?_) <;> [(clear_value (hv : x = _); rw [hv]); clear_value x] | clear_value x | skip)
    | with_reducible exact Quiet.refl _
    | with_reducible assumption
    | simp -zeta only [↓ Quiet.make]
    | with_reducible refine Quiet.of ?_
    | with_reducible apply Quiet.ite
    | with_reducible apply bump_quiet
    | with_reducible apply setPtp_quiet
    | with_reducible apply ptpSend_quiet
    | split
    | (dsimp -zeta only)

theorem txStamp_quiet {o₀ : Dev} (x seq : Nat) (captured : Int) (d : Dev) (h₀ : Quiet o₀ d) : Quiet o₀ (txStamp x seq captured d) := by
  refine h₀.trans ?_
  unfold txStamp
  repeat' first
    | (extract_lets +onlyGivenNames x; first | refine Quiet.cut (x := x) ?_ (fun hx => ?_) <;> [(clear_value (hv : x = _); rw [hv]); clear_value x] | clear_value x | skip)
    | with_reducible exact Quiet.refl _
    | with_reducible assumption
    | simp -zeta only [↓ Quiet.make]
    | with_reducible refine Quiet.of ?_
    | with_reducible apply Quiet.ite
    | with_reducible apply setPlane_quiet
    | with_reducible apply setPtp_quiet
    | split

theorem syncTx_quiet {o₀ : Dev} (x : Nat) (d : Dev) (h₀ : Quiet o₀ d) : Quiet o₀ (syncTx x d) := by
  refine h₀.trans ?_
  unfold syncTx
  repeat' first
    | (extract_lets +onlyGivenNames x; first | refine Quiet.cut (x := x) ?_ (fun hx => ?_) <;> [(clear_value (hv : x = _); rw [hv]); clear_value x] | clear_value x | skip)
    | with_reducible exact Quiet.refl _
    | with_reducible assumption
    | simp -zeta only [↓ Quiet.make]
    | with_reducible refine Quiet.of ?_
    | with_reducible apply Quiet.ite
    | with_reducible apply bump_quiet
    | with_reducible apply setPtp_quiet
    | with_reducible apply ptpSend_quiet
    | split
    | (dsimp -zeta only)

theorem announceTx_quiet {o₀ : Dev} (x : Nat) (d : Dev) (h₀ : Quiet o₀ d) : Quiet o₀ (announceTx x d) := by
  refine h₀.trans ?_
  unfold announceTx
  repeat' first
    | (extract_lets +onlyGivenNames x; first | refine Quiet.cut (x := x) ?_ (fun hx => ?_) <;> [(clear_value (hv : x = _); rw [hv]); clear_value x] | clear_value x | skip)
    | with_reducible exact Quiet.refl _
    | with_reducible assumption
    | simp -zeta only [↓ Quiet.make]
    | with_reducible refine Quiet.of ?_
    | with_reducible apply Quiet.ite
    | with_reducible apply bump_quiet
    | with_reducible apply setPtp_quiet
    | with_reducible apply ptpReport_quiet
    | with_reducible apply bmca_quiet
    | with_reducible apply ptpSend_quiet
    | split
    | (dsimp -zeta only)

theorem syncTimeout_quiet {o₀ : Dev} (x : Nat) (d : Dev) (h₀ : Quiet o₀ d) : Quiet o₀ (syncTimeout x d) := by
  refine h₀.trans ?_
  unfold syncTimeout
  repeat' first
    | (extract_lets +onlyGivenNames x; first | refine Quiet.cut (x := x) ?_ (fun hx => ?_) <;> [(clear_value (hv : x = _); rw [hv]); clear_value x] | clear_value x | skip)
    | with_reducible exact Quiet.refl _
    | with_reducible assumption
    | simp -zeta only [↓ Quiet.make]
    | with_reducible refine Quiet.of ?_
    | with_reducible apply Quiet.ite
    | with_reducible apply bump_quiet
    | with_reducible apply setPtp_quiet
    | with_reducible apply ptpReport_quiet
    | with_reducible apply servoCheck_quiet
    | split

theorem announceTimeout_quiet {o₀ : Dev} (x : Nat) (d : Dev) (h₀ : Quiet o₀ d) : Quiet o₀ (announceTimeout x d) := by
  refine h₀.trans ?_
  unfold announceTimeout
  repeat' first
    | (extract_lets +onlyGivenNames x; first | refine Quiet.cut (x := x) ?_ (fun hx => ?_) <;> [(clear_value (hv : x = _); rw [hv]); clear_value x] | clear_value x | skip)
    | with_reducible exact Quiet.refl _
    | with_reducible assumption
    | simp -zeta only [↓ Quiet.make]
    | with_reducible refine Quiet.of ?_
    | with_reducible apply Quiet.ite
    | with_reducible apply setPtp_quiet
    | with_reducible apply ptpReport_quiet
    | with_reducible apply bmca_quiet
    | split
    | (dsimp -zeta only)

theorem servoRevert_quiet {o₀ : Dev} (d : Dev) (h₀ : Quiet o₀ d) : Quiet o₀ (servoRevert d) := by
  refine h₀.trans ?_
  unfold servoRevert
  repeat' first
    | (extract_lets +onlyGivenNames x; first | refine Quiet.cut (x := x) ?_ (fun hx => ?_) <;> [(clear_value (hv : x = _); rw [hv]); clear_value x] | clear_value x | skip)
    | with_reducible exact Quiet.refl _
    | with_reducible assumption
    | simp -zeta only [↓ Quiet.make]
    | with_reducible refine Quiet.of ?_
    | with_reducible apply Quiet.ite
    | with_reducible apply followSource_quiet
    | split

theorem servoAccept_quiet {o₀ : Dev} (d : Dev) (h₀ : Quiet o₀ d) : Quiet o₀ (servoAccept d) := by
  refine h₀.trans ?_
  unfold servoAccept
  repeat' first
    | (extract_lets +onlyGivenNames x; first | refine Quiet.cut (x := x) ?_ (fun hx => ?_) <;> [(clear_value (hv : x = _); rw [hv]); clear_value x] | clear_value x | skip)
    | with_reducible exact Quiet.refl _
    | with_reducible assumption
    | simp -zeta only [↓ Quiet.make]
    | with_reducible refine Quiet.of ?_
    | with_reducible apply Quiet.ite
    | with_reducible apply followSource_quiet
    | split

theorem servoDegraded_quiet {o₀ : Dev} (d : Dev) (h₀ : Quiet o₀ d) : Quiet o₀ (servoDegraded d) := by
  refine h₀.trans ?_
  unfold servoDegraded
  repeat' first
    | (extract_lets +onlyGivenNames x; first | refine Quiet.cut (x := x) ?_ (fun hx => ?_) <;> [(clear_value (hv : x = _); rw [hv]); clear_value x] | clear_value x | skip)
    | with_reducible exact Quiet.refl _
    | with_reducible assumption
    | with_reducible apply Quiet.ite
    | with_reducible apply raiseErr_quiet
    | split

theorem ptpLink_quiet {o₀ : Dev} (d : Dev) (x : Nat) (h₀ : Quiet o₀ d) : Quiet o₀ (ptpLink d x) := by
  refine h₀.trans ?_
  unfold ptpLink
  repeat' first
    | with_reducible exact Quiet.refl _
    | with_reducible assumption
    | with_reducible apply setPtp_quiet
    | with_reducible apply ptpReport_quiet

theorem ptpEpoch_quiet {o₀ : Dev} (d : Dev) (x : Nat) (h₀ : Quiet o₀ d) : Quiet o₀ (ptpEpoch d x) := by
  refine h₀.trans ?_
  unfold ptpEpoch
  repeat' first
    | (extract_lets +onlyGivenNames x; first | refine Quiet.cut (x := x) ?_ (fun hx => ?_) <;> [(clear_value (hv : x = _); rw [hv]); clear_value x] | (have e : _ → _ := x; clear e; clear_value (hv : x = _); subst hv; beta_reduce) | clear_value x | skip)
    | with_reducible exact Quiet.refl _
    | with_reducible assumption
    | simp -zeta only [↓ Quiet.make]
    | with_reducible refine Quiet.of ?_
    | with_reducible apply Quiet.ite
    | with_reducible apply raiseErr_quiet
    | with_reducible apply sendMembership_quiet
    | with_reducible apply setPtp_quiet
    | with_reducible apply setPortStateOf_quiet
    | with_reducible apply ptpReport_quiet
    | with_reducible apply servoCheck_quiet
    | split
    | (dsimp -zeta only)

theorem servoTrack_quiet {o₀ : Dev} (d : Dev) (now : Int) (h₀ : Quiet o₀ d) : Quiet o₀ (servoTrack d now) := by
  refine h₀.trans ?_
  unfold servoTrack
  repeat' first
    | (extract_lets +onlyGivenNames x; first | refine Quiet.cut (x := x) ?_ (fun hx => ?_) <;> [(clear_value (hv : x = _); rw [hv]); clear_value x] | clear_value x | skip)
    | with_reducible exact Quiet.refl _
    | with_reducible assumption
    | simp -zeta only [↓ Quiet.make]
    | with_reducible refine Quiet.of ?_
    | with_reducible apply Quiet.ite
    | with_reducible apply tracking_quiet
    | with_reducible apply moveWord_quiet
    | with_reducible apply profileStep_quiet
    | split

theorem servoEpoch_quiet {o₀ : Dev} (d : Dev) (h₀ : Quiet o₀ d) : Quiet o₀ (servoEpoch d) := by
  refine h₀.trans ?_
  unfold servoEpoch
  repeat' first
    | (extract_lets +onlyGivenNames x; first | refine Quiet.cut (x := x) ?_ (fun hx => ?_) <;> [(clear_value (hv : x = _); rw [hv]); clear_value x] | clear_value x | skip)
    | with_reducible exact Quiet.refl _
    | with_reducible assumption
    | simp -zeta only [↓ Quiet.make]
    | with_reducible refine Quiet.of ?_
    | with_reducible apply Quiet.ite
    | with_reducible apply setServo_quiet
    | with_reducible apply setWord_quiet
    | with_reducible apply moveWord_quiet
    | with_reducible apply servoTrack_quiet
    | split

theorem mgtLink_quiet {o₀ : Dev} (up : Bool) (d : Dev) (h₀ : Quiet o₀ d) : Quiet o₀ (mgtLink up d) := by
  refine h₀.trans ?_
  unfold mgtLink
  repeat' first
    | with_reducible exact Quiet.refl _
    | with_reducible assumption
    | with_reducible apply Quiet.ite
    | with_reducible apply liveSetB_quiet
    | with_reducible apply raiseErr_quiet
    | split

end Sys2Proof.Machine
end

