-- ==== Sys2Proof/Laws/QuietClk.lean ====
section
/-!
SUPPORT. Sys2Proof/Laws/QuietClk.lean: for each operation of Machine/Clk.lean, that it is `Quiet` (or only `Sound`).
-/
set_option linter.all false
namespace Sys2Proof.Machine

theorem tuneFrame_quiet {o₀ : Dev} (d : Dev) (h₀ : Quiet o₀ d) : Quiet o₀ (tuneFrame d) := by
  refine h₀.trans ?_
  unfold tuneFrame
  repeat' first
    | (extract_lets +onlyGivenNames x; first | refine Quiet.cut (x := x) ?_ (fun hx => ?_) <;> [(clear_value (hv : x = _); rw [hv]); clear_value x] | clear_value x | skip)
    | with_reducible exact Quiet.refl _
    | with_reducible assumption
    | simp -zeta only [↓ Quiet.make]
    | with_reducible refine Quiet.of ?_
    | with_reducible apply Quiet.ite
    | split

theorem pwmPeriod_quiet {o₀ : Dev} (d : Dev) (h₀ : Quiet o₀ d) : Quiet o₀ (pwmPeriod d) := by
  refine h₀.trans ?_
  unfold pwmPeriod
  repeat' first
    | (extract_lets +onlyGivenNames x; first | refine Quiet.cut (x := x) ?_ (fun hx => ?_) <;> [(clear_value (hv : x = _); rw [hv]); clear_value x] | clear_value x | skip)
    | with_reducible exact Quiet.refl _
    | with_reducible assumption
    | simp -zeta only [↓ Quiet.make]
    | with_reducible refine Quiet.of ?_
    | with_reducible apply Quiet.ite
    | split

theorem setPll_quiet {o₀ : Dev} (d : Dev) (p : Nat) (locked hold : Bool) (h₀ : Quiet o₀ d) : Quiet o₀ (setPll d p locked hold) := by
  refine h₀.trans ?_
  unfold setPll
  repeat' first
    | with_reducible exact Quiet.refl _
    | with_reducible assumption
    | with_reducible apply liveSetB_quiet

theorem holdShow_quiet {o₀ : Dev} (d : Dev) (h₀ : Quiet o₀ d) : Quiet o₀ (holdShow d) := by
  refine h₀.trans ?_
  unfold holdShow
  repeat' first
    | with_reducible exact Quiet.refl _
    | with_reducible assumption
    | with_reducible apply Quiet.ite
    | with_reducible apply liveSetB_quiet
    | split
    | (dsimp -zeta only)

theorem startLock_quiet {o₀ : Dev} (p : Nat) (d : Dev) (h₀ : Quiet o₀ d) : Quiet o₀ (startLock p d) := by
  refine h₀.trans ?_
  unfold startLock
  repeat' first
    | (extract_lets +onlyGivenNames x; first | refine Quiet.cut (x := x) ?_ (fun hx => ?_) <;> [(clear_value (hv : x = _); rw [hv]); clear_value x] | clear_value x | skip)
    | with_reducible exact Quiet.refl _
    | with_reducible assumption
    | simp -zeta only [↓ Quiet.make]
    | with_reducible refine Quiet.of ?_
    | with_reducible apply setPll_quiet
    | with_reducible apply holdShow_quiet

theorem stopPll_quiet {o₀ : Dev} (p : Nat) (d : Dev) (h₀ : Quiet o₀ d) : Quiet o₀ (stopPll p d) := by
  refine h₀.trans ?_
  unfold stopPll
  repeat' first
    | (extract_lets +onlyGivenNames x; first | refine Quiet.cut (x := x) ?_ (fun hx => ?_) <;> [(clear_value (hv : x = _); rw [hv]); clear_value x] | clear_value x | skip)
    | with_reducible exact Quiet.refl _
    | with_reducible assumption
    | simp -zeta only [↓ Quiet.make]
    | with_reducible refine Quiet.of ?_
    | with_reducible apply setPll_quiet
    | with_reducible apply holdShow_quiet

theorem lockDone_quiet {o₀ : Dev} (p : Nat) (d : Dev) (h₀ : Quiet o₀ d) : Quiet o₀ (lockDone p d) := by
  refine h₀.trans ?_
  unfold lockDone
  repeat' first
    | (extract_lets +onlyGivenNames x; first | refine Quiet.cut (x := x) ?_ (fun hx => ?_) <;> [(clear_value (hv : x = _); rw [hv]); clear_value x] | clear_value x | skip)
    | with_reducible exact Quiet.refl _
    | with_reducible assumption
    | simp -zeta only [↓ Quiet.make]
    | with_reducible refine Quiet.of ?_
    | with_reducible apply Quiet.ite
    | with_reducible apply liveSetF_quiet
    | with_reducible apply setPll_quiet
    | split

theorem relockWrite_quiet {o₀ : Dev} (p : Nat) (val : Word) (refused : Bool) (d : Dev) (h₀ : Quiet o₀ d) : Quiet o₀ (relockWrite p val refused d) := by
  refine h₀.trans ?_
  unfold relockWrite
  repeat' first
    | with_reducible exact Quiet.refl _
    | with_reducible assumption
    | with_reducible apply Quiet.ite
    | with_reducible apply staticReject_quiet
    | with_reducible apply startLock_quiet
    | split

theorem syncEdge_quiet {o₀ : Dev} (offsets : List Int) (d : Dev) (h₀ : Quiet o₀ d) : Quiet o₀ (syncEdge offsets d) := by
  refine h₀.trans ?_
  unfold syncEdge
  repeat' first
    | (extract_lets +onlyGivenNames x; first | refine Quiet.cut (x := x) ?_ (fun hx => ?_) <;> [(clear_value (hv : x = _); rw [hv]); clear_value x] | clear_value x | skip)
    | with_reducible exact Quiet.refl _
    | with_reducible assumption
    | simp -zeta only [↓ Quiet.make]
    | with_reducible refine Quiet.of ?_
    | with_reducible apply Quiet.ite
    | with_reducible apply liveSetF_quiet
    | with_reducible apply liveSetB_quiet
    | split
    | (dsimp -zeta only)

theorem pllHold_quiet {o₀ : Dev} (d : Dev) (p : Nat) (h₀ : Quiet o₀ d) : Quiet o₀ (pllHold d p) := by
  refine h₀.trans ?_
  unfold pllHold
  repeat' first
    | with_reducible exact Quiet.refl _
    | with_reducible assumption
    | with_reducible apply Quiet.ite
    | with_reducible apply bumpSat_quiet
    | with_reducible apply setPll_quiet
    | split

theorem inputLost_quiet {o₀ : Dev} (alt : Bool) (d : Dev) (h₀ : Quiet o₀ d) : Quiet o₀ (inputLost alt d) := by
  refine h₀.trans ?_
  unfold inputLost
  repeat' first
    | with_reducible exact Quiet.refl _
    | with_reducible assumption
    | with_reducible apply Quiet.ite
    | with_reducible apply liveSetB_quiet
    | split

theorem holdBegins_quiet {o₀ : Dev} (unit : Nat) (was : Bool) (d : Dev) (h₀ : Quiet o₀ d) : Quiet o₀ (holdBegins unit was d) := by
  refine h₀.trans ?_
  unfold holdBegins
  repeat' first
    | (extract_lets +onlyGivenNames x; first | refine Quiet.cut (x := x) ?_ (fun hx => ?_) <;> [(clear_value (hv : x = _); rw [hv]); clear_value x] | clear_value x | skip)
    | with_reducible exact Quiet.refl _
    | with_reducible assumption
    | simp -zeta only [↓ Quiet.make]
    | with_reducible refine Quiet.of ?_
    | with_reducible apply Quiet.ite
    | with_reducible apply liveSetB_quiet
    | with_reducible apply raiseErr_quiet
    | split
    | (dsimp -zeta only)

theorem refLoss_quiet {o₀ : Dev} (loss : RefLoss) (d : Dev) (h₀ : Quiet o₀ d) : Quiet o₀ (refLoss loss d) := by
  refine h₀.trans ?_
  unfold refLoss
  repeat' first
    | (extract_lets +onlyGivenNames x; first | refine Quiet.cut (x := x) ?_ (fun hx => ?_) <;> [(clear_value (hv : x = _); rw [hv]); clear_value x] | clear_value x | skip)
    | with_reducible exact Quiet.refl _
    | with_reducible assumption
    | simp -zeta only [↓ Quiet.make]
    | with_reducible refine Quiet.of ?_
    | with_reducible refine Quiet.foldl (fun d x => ?_) ?_
    | with_reducible refine Quiet.foldlFst (fun d x => ?_) ?_
    | with_reducible apply pllHold_quiet
    | with_reducible apply inputLost_quiet
    | with_reducible apply holdBegins_quiet
    | split

theorem setSteer_quiet {o₀ : Dev} (d : Dev) (v : Int) (h₀ : Quiet o₀ d) : Quiet o₀ (setSteer d v) := by
  refine h₀.trans ?_
  unfold setSteer
  repeat' first
    | (extract_lets +onlyGivenNames x; first | refine Quiet.cut (x := x) ?_ (fun hx => ?_) <;> [(clear_value (hv : x = _); rw [hv]); clear_value x] | clear_value x | skip)
    | with_reducible exact Quiet.refl _
    | with_reducible assumption
    | simp -zeta only [↓ Quiet.make]
    | with_reducible refine Quiet.of ?_
    | with_reducible refine Quiet.foldl (fun d x => ?_) ?_
    | with_reducible refine Quiet.foldlFst (fun d x => ?_) ?_
    | with_reducible apply liveSetB_quiet
    | (dsimp -zeta only)

theorem failover_quiet {o₀ : Dev} (alt : Bool) (d : Dev) (h₀ : Quiet o₀ d) : Quiet o₀ (failover alt d) := by
  refine h₀.trans ?_
  unfold failover
  repeat' first
    | (extract_lets +onlyGivenNames x; first | refine Quiet.cut (x := x) ?_ (fun hx => ?_) <;> [(clear_value (hv : x = _); rw [hv]); clear_value x] | clear_value x | skip)
    | with_reducible exact Quiet.refl _
    | with_reducible assumption
    | with_reducible apply Quiet.ite
    | with_reducible apply liveSetB_quiet
    | with_reducible apply bump_quiet
    | with_reducible apply raiseErr_quiet
    | with_reducible apply setSteer_quiet
    | split

theorem refValid_quiet {o₀ : Dev} (alt : Bool) (d : Dev) (h₀ : Quiet o₀ d) : Quiet o₀ (refValid alt d) := by
  refine h₀.trans ?_
  unfold refValid
  repeat' first
    | (extract_lets +onlyGivenNames x; first | refine Quiet.cut (x := x) ?_ (fun hx => ?_) <;> [(clear_value (hv : x = _); rw [hv]); clear_value x] | clear_value x | skip)
    | with_reducible exact Quiet.refl _
    | with_reducible assumption
    | with_reducible apply Quiet.ite
    | with_reducible apply liveSetB_quiet
    | with_reducible apply failover_quiet
    | split

theorem reacquireDone_quiet {o₀ : Dev} (p : Nat) (d : Dev) (h₀ : Quiet o₀ d) : Quiet o₀ (reacquireDone p d) := by
  refine h₀.trans ?_
  unfold reacquireDone
  repeat' first
    | with_reducible exact Quiet.refl _
    | with_reducible assumption
    | with_reducible apply Quiet.ite
    | with_reducible apply setPll_quiet
    | with_reducible apply holdShow_quiet
    | split

theorem holdoverDecision_quiet {o₀ : Dev} (d : Dev) (h₀ : Quiet o₀ d) : Quiet o₀ (holdoverDecision d) := by
  refine h₀.trans ?_
  unfold holdoverDecision
  repeat' first
    | (extract_lets +onlyGivenNames x; first | refine Quiet.cut (x := x) ?_ (fun hx => ?_) <;> [(clear_value (hv : x = _); rw [hv]); clear_value x] | clear_value x | skip)
    | with_reducible exact Quiet.refl _
    | with_reducible assumption
    | with_reducible apply Quiet.ite
    | with_reducible apply liveSetB_quiet
    | with_reducible apply raiseErr_quiet
    | with_reducible apply failover_quiet
    | split

theorem refRevert_quiet {o₀ : Dev} (d : Dev) (h₀ : Quiet o₀ d) : Quiet o₀ (refRevert d) := by
  refine h₀.trans ?_
  unfold refRevert
  repeat' first
    | with_reducible exact Quiet.refl _
    | with_reducible assumption
    | with_reducible apply Quiet.ite
    | with_reducible apply failover_quiet
    | split

theorem noReacquire_quiet {o₀ : Dev} (p : Nat) (d : Dev) (h₀ : Quiet o₀ d) : Quiet o₀ (noReacquire p d) := by
  refine h₀.trans ?_
  unfold noReacquire
  repeat' first
    | with_reducible exact Quiet.refl _
    | with_reducible assumption
    | with_reducible apply Quiet.ite
    | with_reducible apply raiseErr_quiet
    | split

theorem clkEpoch_quiet {o₀ : Dev} (d : Dev) (h₀ : Quiet o₀ d) : Quiet o₀ (clkEpoch d) := by
  refine h₀.trans ?_
  unfold clkEpoch
  repeat' first
    | (extract_lets +onlyGivenNames x; first | refine Quiet.cut (x := x) ?_ (fun hx => ?_) <;> [(clear_value (hv : x = _); rw [hv]); clear_value x] | clear_value x | skip)
    | with_reducible exact Quiet.refl _
    | with_reducible assumption
    | simp -zeta only [↓ Quiet.make]
    | with_reducible refine Quiet.of ?_
    | with_reducible apply Quiet.ite
    | with_reducible refine Quiet.foldl (fun d x => ?_) ?_
    | with_reducible refine Quiet.foldlFst (fun d x => ?_) ?_
    | with_reducible apply liveSetF_quiet
    | with_reducible apply liveSetB_quiet
    | with_reducible apply startLock_quiet
    | with_reducible apply stopPll_quiet
    | with_reducible apply setSteer_quiet
    | split
    | (dsimp -zeta only)

end Sys2Proof.Machine
end

