-- ==== Sys2Proof/Laws/QuietMoon.lean ====
section
/-!
SUPPORT. Sys2Proof/Laws/QuietMoon.lean: for each operation of Machine/Moon.lean, that it is `Quiet` (or only `Sound`).
-/
set_option linter.all false
namespace Sys2Proof.Machine

theorem setAvail_quiet {o₀ : Dev} (d : Dev) (pool : Nat) (b : Bool) (h₀ : Quiet o₀ d) : Quiet o₀ (setAvail d pool b) := by
  refine h₀.trans ?_
  unfold setAvail
  repeat' first
    | with_reducible exact Quiet.refl _
    | with_reducible assumption
    | with_reducible apply liveSetB_quiet

theorem moonResult_quiet {o₀ : Dev} (d : Dev) (v : Nat) (h₀ : Quiet o₀ d) : Quiet o₀ (moonResult d v) := by
  refine h₀.trans ?_
  unfold moonResult
  repeat' first
    | with_reducible exact Quiet.refl _
    | with_reducible assumption
    | with_reducible apply liveSetF_quiet

theorem setMoon_quiet {o₀ : Dev} (d : Dev) (m : Moon) (h₀ : Quiet o₀ d) : Quiet o₀ (setMoon d m) := by
  refine h₀.trans ?_
  unfold setMoon
  repeat' first
    | (extract_lets +onlyGivenNames x; first | refine Quiet.cut (x := x) ?_ (fun hx => ?_) <;> [(clear_value (hv : x = _); rw [hv]); clear_value x] | clear_value x | skip)
    | with_reducible exact Quiet.refl _
    | with_reducible assumption
    | simp -zeta only [↓ Quiet.make]
    | with_reducible refine Quiet.of ?_

theorem retire_quiet {o₀ : Dev} (d : Dev) (pool cluster : Nat) (h₀ : Quiet o₀ d) : Quiet o₀ (retire d pool cluster) := by
  refine h₀.trans ?_
  unfold retire
  repeat' first
    | (extract_lets +onlyGivenNames x; first | refine Quiet.cut (x := x) ?_ (fun hx => ?_) <;> [(clear_value (hv : x = _); rw [hv]); clear_value x] | clear_value x | skip)
    | with_reducible exact Quiet.refl _
    | with_reducible assumption
    | simp -zeta only [↓ Quiet.make]
    | with_reducible refine Quiet.of ?_
    | with_reducible apply Quiet.ite
    | with_reducible refine Quiet.foldl (fun d x => ?_) ?_
    | with_reducible refine Quiet.foldlFst (fun d x => ?_) ?_
    | with_reducible apply setCoreState_quiet
    | with_reducible apply setMoon_quiet
    | split
    | (dsimp -zeta only)

theorem vecIsolate_quiet {o₀ : Dev} (cluster : Nat) (d : Dev) (h₀ : Quiet o₀ d) : Quiet o₀ (vecIsolate cluster d) := by
  refine h₀.trans ?_
  unfold vecIsolate
  repeat' first
    | (extract_lets +onlyGivenNames x; first | refine Quiet.cut (x := x) ?_ (fun hx => ?_) <;> [(clear_value (hv : x = _); rw [hv]); clear_value x] | clear_value x | skip)
    | with_reducible exact Quiet.refl _
    | with_reducible assumption
    | simp -zeta only [↓ Quiet.make]
    | with_reducible refine Quiet.of ?_
    | with_reducible refine Quiet.foldl (fun d x => ?_) ?_
    | with_reducible refine Quiet.foldlFst (fun d x => ?_) ?_
    | with_reducible apply liveSetB_quiet
    | with_reducible apply setCore_quiet
    | with_reducible apply setCoreState_quiet
    | with_reducible apply endItem_quiet
    | (dsimp -zeta only)

theorem dropPlanned_quiet {o₀ : Dev} (pool result : Nat) (d : Dev) (h₀ : Quiet o₀ d) : Quiet o₀ (dropPlanned pool result d) := by
  refine h₀.trans ?_
  unfold dropPlanned
  repeat' first
    | (extract_lets +onlyGivenNames x; first | refine Quiet.cut (x := x) ?_ (fun hx => ?_) <;> [(clear_value (hv : x = _); rw [hv]); clear_value x] | clear_value x | skip)
    | with_reducible exact Quiet.refl _
    | with_reducible assumption
    | simp -zeta only [↓ Quiet.make]
    | with_reducible refine Quiet.of ?_
    | with_reducible apply Quiet.ite
    | with_reducible refine Quiet.foldl (fun d x => ?_) ?_
    | with_reducible refine Quiet.foldlFst (fun d x => ?_) ?_
    | with_reducible apply moonResult_quiet
    | with_reducible apply setMoon_quiet
    | split
    | (dsimp -zeta only)

theorem dropSubst_quiet {o₀ : Dev} (pool : Nat) (d : Dev) (h₀ : Quiet o₀ d) : Quiet o₀ (dropSubst pool d) := by
  refine h₀.trans ?_
  unfold dropSubst
  repeat' first
    | (extract_lets +onlyGivenNames x; first | refine Quiet.cut (x := x) ?_ (fun hx => ?_) <;> [(clear_value (hv : x = _); rw [hv]); clear_value x] | clear_value x | skip)
    | with_reducible exact Quiet.refl _
    | with_reducible assumption
    | simp -zeta only [↓ Quiet.make]
    | with_reducible refine Quiet.of ?_
    | with_reducible apply Quiet.ite
    | with_reducible refine Quiet.foldl (fun d x => ?_) ?_
    | with_reducible refine Quiet.foldlFst (fun d x => ?_) ?_
    | with_reducible apply raiseErr_quiet
    | with_reducible apply setMoon_quiet
    | split
    | (dsimp -zeta only)

theorem retireMoon_quiet {o₀ : Dev} (pool : Nat) (d : Dev) (h₀ : Quiet o₀ d) : Quiet o₀ (retireMoon pool d) := by
  refine h₀.trans ?_
  unfold retireMoon
  repeat' first
    | (extract_lets +onlyGivenNames x; first | refine Quiet.cut (x := x) ?_ (fun hx => ?_) <;> [(clear_value (hv : x = _); rw [hv]); clear_value x] | clear_value x | skip)
    | with_reducible exact Quiet.refl _
    | with_reducible assumption
    | simp -zeta only [↓ Quiet.make]
    | with_reducible refine Quiet.of ?_
    | with_reducible apply Quiet.ite
    | with_reducible apply setAvail_quiet
    | with_reducible apply setMoon_quiet
    | with_reducible apply retire_quiet
    | with_reducible apply dropPlanned_quiet
    | with_reducible apply dropSubst_quiet
    | split
    | (dsimp -zeta only)

theorem hardFault_quiet {o₀ : Dev} (pool cluster unit cause : Nat) (d : Dev) (h₀ : Quiet o₀ d) : Quiet o₀ (hardFault pool cluster unit cause d) := by
  refine h₀.trans ?_
  unfold hardFault
  repeat' first
    | (extract_lets +onlyGivenNames x; first | refine Quiet.cut (x := x) ?_ (fun hx => ?_) <;> [(clear_value (hv : x = _); rw [hv]); clear_value x] | clear_value x | skip)
    | with_reducible exact Quiet.refl _
    | with_reducible assumption
    | simp -zeta only [↓ Quiet.make]
    | with_reducible refine Quiet.of ?_
    | with_reducible apply Quiet.ite
    | with_reducible refine Quiet.foldl (fun d x => ?_) ?_
    | with_reducible refine Quiet.foldlFst (fun d x => ?_) ?_
    | with_reducible apply raiseErr_quiet
    | with_reducible apply strikePool_quiet
    | with_reducible apply setMoon_quiet
    | with_reducible apply retire_quiet
    | with_reducible apply vecIsolate_quiet
    | with_reducible apply dropPlanned_quiet
    | with_reducible apply retireMoon_quiet
    | split
    | (dsimp -zeta only)

theorem checkpoints_quiet {o₀ : Dev} (d : Dev) (h₀ : Quiet o₀ d) : Quiet o₀ (checkpoints d) := by
  refine h₀.trans ?_
  unfold checkpoints
  repeat' first
    | (extract_lets +onlyGivenNames x; first | refine Quiet.cut (x := x) ?_ (fun hx => ?_) <;> [(clear_value (hv : x = _); rw [hv]); clear_value x] | clear_value x | skip)
    | with_reducible exact Quiet.refl _
    | with_reducible assumption
    | simp -zeta only [↓ Quiet.make]
    | with_reducible refine Quiet.of ?_
    | with_reducible apply Quiet.ite
    | with_reducible refine Quiet.foldl (fun d x => ?_) ?_
    | with_reducible refine Quiet.foldlFst (fun d x => ?_) ?_
    | with_reducible apply setCore_quiet
    | with_reducible apply setMoon_quiet
    | split
    | (dsimp -zeta only)

theorem loadCkpt_quiet {o₀ : Dev} (moon cluster : Nat) (d : Dev) (h₀ : Quiet o₀ d) : Quiet o₀ (loadCkpt moon cluster d) := by
  refine h₀.trans ?_
  unfold loadCkpt
  repeat' first
    | (extract_lets +onlyGivenNames x; first | refine Quiet.cut (x := x) ?_ (fun hx => ?_) <;> [(clear_value (hv : x = _); rw [hv]); clear_value x] | (have e : Regs := x; clear e) | (have e : Mem := x; clear e) | (have e : _ → _ := x; clear e; clear_value (hv : x = _); subst hv; beta_reduce) | clear_value x | skip)
    | with_reducible exact Quiet.refl _
    | with_reducible assumption
    | simp -zeta only [↓ Quiet.make]
    | with_reducible refine Quiet.of ?_
    | with_reducible apply Quiet.ite
    | with_reducible refine Quiet.foldl (fun d x => ?_) ?_
    | with_reducible refine Quiet.foldlFst (fun d x => ?_) ?_
    | with_reducible apply setCore_quiet
    | with_reducible apply setCoreState_quiet
    | split
    | (dsimp -zeta only)

theorem takeXp_quiet {o₀ : Dev} (d : Dev) (pos : Nat) (h₀ : Quiet o₀ d) : Quiet o₀ (takeXp d pos) := by
  refine h₀.trans ?_
  unfold takeXp
  repeat' first
    | (extract_lets +onlyGivenNames x; first | refine Quiet.cut (x := x) ?_ (fun hx => ?_) <;> [(clear_value (hv : x = _); rw [hv]); clear_value x] | clear_value x | skip)
    | with_reducible exact Quiet.refl _
    | with_reducible assumption
    | simp -zeta only [↓ Quiet.make]
    | with_reducible refine Quiet.of ?_
    | with_reducible apply setMoon_quiet

theorem takeVec_quiet {o₀ : Dev} (d : Dev) (pos : Nat) (h₀ : Quiet o₀ d) : Quiet o₀ (takeVec d pos) := by
  refine h₀.trans ?_
  unfold takeVec
  repeat' first
    | (extract_lets +onlyGivenNames x; first | refine Quiet.cut (x := x) ?_ (fun hx => ?_) <;> [(clear_value (hv : x = _); rw [hv]); clear_value x] | clear_value x | skip)
    | with_reducible exact Quiet.refl _
    | with_reducible assumption
    | simp -zeta only [↓ Quiet.make]
    | with_reducible refine Quiet.of ?_
    | with_reducible refine Quiet.foldl (fun d x => ?_) ?_
    | with_reducible refine Quiet.foldlFst (fun d x => ?_) ?_

theorem takeFault_quiet {o₀ : Dev} (j : Subst) (d : Dev) (h₀ : Quiet o₀ d) : Quiet o₀ (takeFault j d) := by
  refine h₀.trans ?_
  unfold takeFault
  repeat' first
    | (extract_lets +onlyGivenNames x; first | refine Quiet.cut (x := x) ?_ (fun hx => ?_) <;> [(clear_value (hv : x = _); rw [hv]); clear_value x] | clear_value x | skip)
    | with_reducible exact Quiet.refl _
    | with_reducible assumption
    | simp -zeta only [↓ Quiet.make]
    | with_reducible refine Quiet.of ?_
    | with_reducible apply Quiet.ite
    | with_reducible refine Quiet.foldl (fun d x => ?_) ?_
    | with_reducible refine Quiet.foldlFst (fun d x => ?_) ?_
    | with_reducible apply liveSetF_quiet
    | with_reducible apply raiseEvt_quiet
    | with_reducible apply setAvail_quiet
    | with_reducible apply setMoon_quiet
    | with_reducible apply loadCkpt_quiet
    | with_reducible apply takeXp_quiet
    | with_reducible apply takeVec_quiet
    | split
    | (dsimp -zeta only)

theorem takePlanned_quiet {o₀ : Dev} (j : Subst) (agreed : Bool) (d : Dev) (h₀ : Quiet o₀ d) : Quiet o₀ (takePlanned j agreed d) := by
  refine h₀.trans ?_
  unfold takePlanned
  repeat' first
    | (extract_lets +onlyGivenNames x; first | refine Quiet.cut (x := x) ?_ (fun hx => ?_) <;> [(clear_value (hv : x = _); rw [hv]); clear_value x] | (have e : _ → _ := x; clear e; clear_value (hv : x = _); subst hv; beta_reduce) | clear_value x | skip)
    | with_reducible exact Quiet.refl _
    | with_reducible assumption
    | simp -zeta only [↓ Quiet.make]
    | with_reducible refine Quiet.of ?_
    | with_reducible apply Quiet.ite
    | with_reducible refine Quiet.foldl (fun d x => ?_) ?_
    | with_reducible refine Quiet.foldlFst (fun d x => ?_) ?_
    | with_reducible apply liveSetF_quiet
    | with_reducible apply setCoreState_quiet
    | with_reducible apply moonResult_quiet
    | with_reducible apply loadCkpt_quiet
    | with_reducible apply takeXp_quiet
    | with_reducible apply takeVec_quiet
    | split
    | (dsimp -zeta only)

theorem moonTakeover_quiet {o₀ : Dev} (pool : Nat) (agreed : Bool) (d : Dev) (h₀ : Quiet o₀ d) : Quiet o₀ (moonTakeover pool agreed d) := by
  refine h₀.trans ?_
  unfold moonTakeover
  repeat' first
    | (extract_lets +onlyGivenNames x; first | refine Quiet.cut (x := x) ?_ (fun hx => ?_) <;> [(clear_value (hv : x = _); rw [hv]); clear_value x] | clear_value x | skip)
    | with_reducible exact Quiet.refl _
    | with_reducible assumption
    | simp -zeta only [↓ Quiet.make]
    | with_reducible refine Quiet.of ?_
    | with_reducible apply Quiet.ite
    | with_reducible apply setMoon_quiet
    | with_reducible apply takeFault_quiet
    | with_reducible apply takePlanned_quiet
    | split
    | (dsimp -zeta only)

theorem moonSubmit_quiet {o₀ : Dev} (pool cluster t : Nat) (d : Dev) (h₀ : Quiet o₀ d) : Quiet o₀ (moonSubmit pool cluster t d) := by
  refine h₀.trans ?_
  unfold moonSubmit
  repeat' first
    | (extract_lets +onlyGivenNames x; first | refine Quiet.cut (x := x) ?_ (fun hx => ?_) <;> [(clear_value (hv : x = _); rw [hv]); clear_value x] | clear_value x | skip)
    | with_reducible exact Quiet.refl _
    | with_reducible assumption
    | simp -zeta only [↓ Quiet.make]
    | with_reducible refine Quiet.of ?_
    | with_reducible apply Quiet.ite
    | with_reducible apply moonResult_quiet
    | with_reducible apply setMoon_quiet
    | split

theorem moonReqWrite_quiet {o₀ : Dev} (val : Word) (d : Dev) (h₀ : Quiet o₀ d) : Quiet o₀ (moonReqWrite val d) := by
  refine h₀.trans ?_
  unfold moonReqWrite
  repeat' first
    | with_reducible exact Quiet.refl _
    | with_reducible assumption
    | with_reducible apply moonSubmit_quiet

theorem setPatrol_quiet {o₀ : Dev} (d : Dev) (pool : Nat) (p : Patrol) (h₀ : Quiet o₀ d) : Quiet o₀ (setPatrol d pool p) := by
  refine h₀.trans ?_
  unfold setPatrol
  repeat' first
    | (extract_lets +onlyGivenNames x; first | refine Quiet.cut (x := x) ?_ (fun hx => ?_) <;> [(clear_value (hv : x = _); rw [hv]); clear_value x] | clear_value x | skip)
    | with_reducible exact Quiet.refl _
    | with_reducible assumption
    | simp -zeta only [↓ Quiet.make]
    | with_reducible refine Quiet.of ?_
    | with_reducible apply setMoon_quiet

theorem patrolAdvance_quiet {o₀ : Dev} (pool : Nat) (mismatch : Bool) (d : Dev) (h₀ : Quiet o₀ d) : Quiet o₀ (patrolAdvance pool mismatch d) := by
  refine h₀.trans ?_
  unfold patrolAdvance
  repeat' first
    | (extract_lets +onlyGivenNames x; first | refine Quiet.cut (x := x) ?_ (fun hx => ?_) <;> [(clear_value (hv : x = _); rw [hv]); clear_value x] | clear_value x | skip)
    | with_reducible exact Quiet.refl _
    | with_reducible assumption
    | simp -zeta only [↓ Quiet.make]
    | with_reducible refine Quiet.of ?_
    | with_reducible apply Quiet.ite
    | with_reducible apply bumpSat_quiet
    | with_reducible apply raiseErr_quiet
    | with_reducible apply retireMoon_quiet
    | with_reducible apply setPatrol_quiet
    | split
    | (dsimp -zeta only)

theorem patrolEpoch_quiet {o₀ : Dev} (d : Dev) (pool : Nat) (h₀ : Quiet o₀ d) : Quiet o₀ (patrolEpoch d pool) := by
  refine h₀.trans ?_
  unfold patrolEpoch
  repeat' first
    | (extract_lets +onlyGivenNames x; first | refine Quiet.cut (x := x) ?_ (fun hx => ?_) <;> [(clear_value (hv : x = _); rw [hv]); clear_value x] | clear_value x | skip)
    | with_reducible exact Quiet.refl _
    | with_reducible assumption
    | simp -zeta only [↓ Quiet.make]
    | with_reducible refine Quiet.of ?_
    | with_reducible apply Quiet.ite
    | with_reducible apply setMoon_quiet
    | with_reducible apply moonSubmit_quiet
    | with_reducible apply setPatrol_quiet
    | split
    | (dsimp -zeta only)

theorem moonPower_quiet {o₀ : Dev} (d : Dev) (h₀ : Quiet o₀ d) : Quiet o₀ (moonPower d) := by
  refine h₀.trans ?_
  unfold moonPower
  repeat' first
    | (extract_lets +onlyGivenNames x; first | refine Quiet.cut (x := x) ?_ (fun hx => ?_) <;> [(clear_value (hv : x = _); rw [hv]); clear_value x] | clear_value x | skip)
    | with_reducible exact Quiet.refl _
    | with_reducible assumption
    | with_reducible apply Quiet.ite
    | with_reducible refine Quiet.foldl (fun d x => ?_) ?_
    | with_reducible refine Quiet.foldlFst (fun d x => ?_) ?_
    | with_reducible apply setCoreState_quiet
    | split
    | (dsimp -zeta only)

theorem moonEpoch_quiet {o₀ : Dev} (d : Dev) (h₀ : Quiet o₀ d) : Quiet o₀ (moonEpoch d) := by
  refine h₀.trans ?_
  unfold moonEpoch
  repeat' first
    | (extract_lets +onlyGivenNames x; first | refine Quiet.cut (x := x) ?_ (fun hx => ?_) <;> [(clear_value (hv : x = _); rw [hv]); clear_value x] | clear_value x | skip)
    | with_reducible exact Quiet.refl _
    | with_reducible assumption
    | simp -zeta only [↓ Quiet.make]
    | with_reducible refine Quiet.of ?_
    | with_reducible apply Quiet.ite
    | with_reducible refine Quiet.foldl (fun d x => ?_) ?_
    | with_reducible refine Quiet.foldlFst (fun d x => ?_) ?_
    | with_reducible apply checkpoints_quiet
    | with_reducible apply patrolEpoch_quiet
    | with_reducible apply moonPower_quiet
    | split
    | (dsimp -zeta only)

theorem moonReports_quiet {o₀ : Dev} (d : Dev) (h₀ : Quiet o₀ d) : Quiet o₀ (moonReports d) := by
  refine h₀.trans ?_
  unfold moonReports
  repeat' first
    | (extract_lets +onlyGivenNames x; first | refine Quiet.cut (x := x) ?_ (fun hx => ?_) <;> [(clear_value (hv : x = _); rw [hv]); clear_value x] | clear_value x | skip)
    | with_reducible exact Quiet.refl _
    | with_reducible assumption
    | simp -zeta only [↓ Quiet.make]
    | with_reducible refine Quiet.of ?_
    | with_reducible apply Quiet.ite
    | with_reducible refine Quiet.foldl (fun d x => ?_) ?_
    | with_reducible refine Quiet.foldlFst (fun d x => ?_) ?_
    | with_reducible apply liveSetF_quiet
    | split
    | (dsimp -zeta only)

end Sys2Proof.Machine
end

