-- ==== Sys2Proof/Laws/QuietBoot.lean ====
section
/-!
SUPPORT. Sys2Proof/Laws/QuietBoot.lean: for each operation of Machine/Boot.lean, that it is `Quiet` (or only `Sound`).
-/
set_option linter.all false
namespace Sys2Proof.Machine

theorem memReset_canonical : MemCanonical {} := ⟨rfl, rfl, .nil, rfl, .nil, rfl, rfl, rfl⟩

theorem resetDev_sound {o₀ : Dev} (pmc : Bool) (lcs : Nat) (d : Dev) (h₀ : Sound o₀ d) : Sound o₀ (resetDev pmc lcs d) := by
  refine h₀.trans ?_
  unfold resetDev
  extract_lets +onlyGivenNames keep
  have hk : ∀ m : Bank, mapWf resetWord m = true → mapWf resetWord (keep m) = true := fun m h => mapWf_filter _ _ h
  have ha : ∀ h : Canonical d, mapWf resetWord (actBank d) = true := by
    intro h
    unfold actBank
    split
    · rfl
    · next he => exact h.act _ (he ▸ List.mem_cons_self)
  extract_lets +onlyGivenNames n
  have hn : Sound d n := by
    refine ⟨fun h => ⟨hk _ h.live, hk _ h.shadow, ?_, hk _ h.snap, memReset_canonical, Nat.zero_lt_succ _, Nat.zero_le _⟩⟩
    intro p hp
    rw [List.mem_singleton.mp hp]
    exact hk _ (ha h)
  refine hn.trans (Quiet.sound ?_)
  clear_value n
  extract_lets +onlyGivenNames n1
  have h1 : Quiet n n1 := liveSetF_quiet _ _ _ _ _ (.refl _)
  extract_lets +onlyGivenNames n2
  have h2 : Quiet n n2 := Quiet.ite (liveSetF_quiet _ _ _ _ _ h1) h1
  extract_lets +onlyGivenNames n3
  exact liveSetB_quiet _ _ _ _ (Quiet.ite h2 (liveSetB_quiet _ _ _ _ h2))

theorem porstReset_sound {o₀ : Dev} (d : Dev) (h₀ : Sound o₀ d) : Sound o₀ (porstReset d) := by
  refine h₀.trans ?_
  unfold porstReset
  repeat' first
    | with_reducible exact Sound.refl _
    | with_reducible assumption
    | with_reducible apply resetDev_sound

theorem moonsInPlace_quiet {o₀ : Dev} (d : Dev) (h₀ : Quiet o₀ d) : Quiet o₀ (moonsInPlace d) := by
  refine h₀.trans ?_
  unfold moonsInPlace
  repeat' first
    | (extract_lets +onlyGivenNames x; first | refine Quiet.cut (x := x) ?_ (fun hx => ?_) <;> [(clear_value (hv : x = _); rw [hv]); clear_value x] | clear_value x | skip)
    | with_reducible exact Quiet.refl _
    | with_reducible assumption
    | simp -zeta only [↓ Quiet.make]
    | with_reducible refine Quiet.of ?_
    | with_reducible apply Quiet.ite
    | with_reducible refine Quiet.foldl (fun d x => ?_) ?_
    | with_reducible refine Quiet.foldlFst (fun d x => ?_) ?_
    | with_reducible apply setAvail_quiet
    | with_reducible apply takeXp_quiet
    | with_reducible apply takeVec_quiet
    | split
    | (dsimp -zeta only)

theorem rebootReset_sound {o₀ : Dev} (d : Dev) (h₀ : Sound o₀ d) : Sound o₀ (rebootReset d) := by
  refine h₀.trans ?_
  unfold rebootReset
  repeat' first
    | (extract_lets +onlyGivenNames x; first | refine Sound.cut (x := x) ?_ (fun hx => ?_) <;> [(clear_value (hv : x = _); rw [hv]); clear_value x] | clear_value x | skip)
    | with_reducible exact Sound.refl _
    | with_reducible assumption
    | simp -zeta only [↓ Sound.make]
    | with_reducible refine Sound.of ?_
    | with_reducible refine Sound.foldl (fun d x => ?_) ?_
    | with_reducible refine Sound.foldlFst (fun d x => ?_) ?_
    | with_reducible apply Sound.transQuiet (k := liveSet_quiet (h₀ := .refl _) ..)
    | with_reducible apply Sound.transQuiet (k := liveSetB_quiet (h₀ := .refl _) ..)
    | with_reducible apply Sound.transQuiet (k := mirrorReport_quiet (h₀ := .refl _) ..)
    | with_reducible apply Sound.transQuiet (k := setCoreState_quiet (h₀ := .refl _) ..)
    | with_reducible apply Sound.transQuiet (k := holdShow_quiet (h₀ := .refl _) ..)
    | with_reducible apply resetDev_sound
    | with_reducible apply Sound.transQuiet (k := moonsInPlace_quiet (h₀ := .refl _) ..)
    | (dsimp -zeta only)

theorem takeBank_quiet {o₀ : Dev} (only : Bool) (c : Nat × Manifest) (d : Dev) (h₀ : Quiet o₀ d) : Quiet o₀ (takeBank only c d) := by
  refine h₀.trans ?_
  unfold takeBank
  repeat' first
    | (extract_lets +onlyGivenNames x; first | refine Quiet.cut (x := x) ?_ (fun hx => ?_) <;> [(clear_value (hv : x = _); rw [hv]); clear_value x] | clear_value x | skip)
    | with_reducible exact Quiet.refl _
    | with_reducible assumption
    | simp -zeta only [↓ Quiet.make]
    | with_reducible refine Quiet.of ?_
    | with_reducible apply Quiet.ite
    | with_reducible apply liveSet_quiet
    | with_reducible apply liveSetB_quiet
    | with_reducible apply recordReport_quiet
    | with_reducible apply writeRecord'_quiet
    | split
    | (dsimp -zeta only)

theorem markFailed_quiet {o₀ : Dev} (gen : Nat) (d : Dev) (h₀ : Quiet o₀ d) : Quiet o₀ (markFailed gen d) := by
  refine h₀.trans ?_
  unfold markFailed
  repeat' first
    | (extract_lets +onlyGivenNames x; first | refine Quiet.cut (x := x) ?_ (fun hx => ?_) <;> [(clear_value (hv : x = _); rw [hv]); clear_value x] | clear_value x | skip)
    | with_reducible exact Quiet.refl _
    | with_reducible assumption
    | simp -zeta only [↓ Quiet.make]
    | with_reducible refine Quiet.of ?_
    | with_reducible apply writeRecord'_quiet

theorem chooseOf_quiet {o₀ : Dev} (first other : Nat × Manifest) (d : Dev) (h₀ : Quiet o₀ d) : Quiet o₀ (chooseOf first other d) := by
  refine h₀.trans ?_
  unfold chooseOf
  repeat' first
    | (extract_lets +onlyGivenNames x; first | refine Quiet.cut (x := x) ?_ (fun hx => ?_) <;> [(clear_value (hv : x = _); rw [hv]); clear_value x] | clear_value x | skip)
    | with_reducible exact Quiet.refl _
    | with_reducible assumption
    | with_reducible apply Quiet.ite
    | with_reducible apply liveSetB_quiet
    | with_reducible apply takeBank_quiet
    | with_reducible apply markFailed_quiet
    | split
    | (dsimp -zeta only)

theorem keepEn_sound {o₀ : Dev} (blocks : List Nat) (d : Dev) (h₀ : Sound o₀ d) : Sound o₀ (keepEn blocks d) := by
  refine h₀.trans ?_
  unfold keepEn
  repeat' first
    | (extract_lets +onlyGivenNames x; first | refine Sound.cut (x := x) ?_ (fun hx => ?_) <;> [(clear_value (hv : x = _); rw [hv]); clear_value x] | clear_value x | skip)
    | with_reducible exact Sound.refl _
    | with_reducible assumption
    | simp -zeta only [↓ Sound.make]
    | with_reducible refine Sound.of ?_
    | with_reducible refine Sound.foldl (fun d x => ?_) ?_
    | with_reducible refine Sound.foldlFst (fun d x => ?_) ?_
    | with_reducible apply shSet_sound
    | (dsimp -zeta only)

theorem restoreEn_sound {o₀ : Dev} (d : Dev) (h₀ : Sound o₀ d) : Sound o₀ (restoreEn d) := by
  refine h₀.trans ?_
  unfold restoreEn
  repeat' first
    | (extract_lets +onlyGivenNames x; first | refine Sound.cut (x := x) ?_ (fun hx => ?_) <;> [(clear_value (hv : x = _); rw [hv]); clear_value x] | clear_value x | skip)
    | with_reducible exact Sound.refl _
    | with_reducible assumption
    | simp -zeta only [↓ Sound.make]
    | with_reducible refine Sound.of ?_
    | with_reducible refine Sound.foldl (fun d x => ?_) ?_
    | with_reducible refine Sound.foldlFst (fun d x => ?_) ?_
    | with_reducible apply shSet_sound
    | (dsimp -zeta only)

theorem noImage_quiet {o₀ : Dev} (d : Dev) (h₀ : Quiet o₀ d) : Quiet o₀ (noImage d) := by
  refine h₀.trans ?_
  unfold noImage
  repeat' first
    | (extract_lets +onlyGivenNames x; first | refine Quiet.cut (x := x) ?_ (fun hx => ?_) <;> [(clear_value (hv : x = _); rw [hv]); clear_value x] | clear_value x | skip)
    | with_reducible exact Quiet.refl _
    | with_reducible assumption
    | simp -zeta only [↓ Quiet.make]
    | with_reducible refine Quiet.of ?_
    | with_reducible apply liveSetB_quiet
    | with_reducible apply recordReport_quiet

theorem flashFound_quiet {o₀ : Dev} (d : Dev) (h₀ : Quiet o₀ d) : Quiet o₀ (flashFound d) := by
  refine h₀.trans ?_
  unfold flashFound
  repeat' first
    | with_reducible exact Quiet.refl _
    | with_reducible assumption
    | with_reducible apply liveSetF_quiet
    | with_reducible apply reportGens_quiet
    | with_reducible apply mirrorPlace_quiet

theorem openLog_quiet {o₀ : Dev} (e : Option (Nat × Nat)) (d : Dev) (h₀ : Quiet o₀ d) : Quiet o₀ (openLog e d) := by
  refine h₀.trans ?_
  unfold openLog
  repeat' first
    | (extract_lets +onlyGivenNames x; first | refine Quiet.cut (x := x) ?_ (fun hx => ?_) <;> [(clear_value (hv : x = _); rw [hv]); clear_value x] | clear_value x | skip)
    | with_reducible exact Quiet.refl _
    | with_reducible assumption
    | simp -zeta only [↓ Quiet.make]
    | with_reducible refine Quiet.of ?_
    | with_reducible apply raiseErr_quiet
    | with_reducible apply errorCollect_quiet
    | split
    | (dsimp -zeta only)

theorem rejectBank_sound {o₀ : Dev} (bank : Nat) (d : Dev) (h₀ : Sound o₀ d) : Sound o₀ (rejectBank bank d) := by
  refine h₀.trans ?_
  unfold rejectBank
  repeat' first
    | (extract_lets +onlyGivenNames x; first | refine Sound.cut (x := x) ?_ (fun hx => ?_) <;> [(clear_value (hv : x = _); rw [hv]); clear_value x] | clear_value x | skip)
    | with_reducible exact Sound.refl _
    | with_reducible assumption
    | simp -zeta only [↓ Sound.make]
    | with_reducible refine Sound.of ?_
    | with_reducible apply rebootReset_sound
    | with_reducible apply Sound.transQuiet (k := flashFound_quiet (h₀ := .refl _) ..)
    | with_reducible apply Sound.transQuiet (k := openLog_quiet (h₀ := .refl _) ..)

theorem chooseBank_quiet (d d' : Dev) (h : chooseBank d = some d') : Quiet d d' := by
  unfold chooseBank at h
  split at h
  · exact absurd h (by simp)
  · rw [← Option.some.inj h]
    exact takeBank_quiet _ _ _ (Quiet.ite (markFailed_quiet _ _ (.refl _)) (.refl _))
  · rw [← Option.some.inj h]
    exact Quiet.ite (chooseOf_quiet _ _ _ (.refl _)) (chooseOf_quiet _ _ _ (.refl _))

theorem bootBank_sound {o₀ : Dev} (fuel : Nat) (d : Dev) (h₀ : Sound o₀ d) : Sound o₀ (bootBank fuel d) := by
  refine h₀.trans ?_
  induction fuel generalizing d o₀ with
  | zero => exact (noImage_quiet _ (.refl _)).sound
  | succ n ih =>
    rw [bootBank]
    split
    · exact (noImage_quiet _ (.refl _)).sound
    · next d' hd =>
      refine (chooseBank_quiet d d' hd).sound.trans ?_
      have hj := rejectBank_sound (runningBank d') d' (.refl _)
      extract_lets plan
      clear_value plan
      split
      · exact hj.trans (ih _ (.refl _))
      · split
        · refine Sound.transQuiet (keepEn_sound _ _ (writeRecords_sound _ _ ?_)) (commitNextWrite_quiet _ (.refl _))
          exact (Quiet.sound ⟨id, rfl, rfl, rfl, rfl, id, rfl, rfl⟩)
        · exact (hj.transQuiet (refuseSection_quiet _ _ _ (.refl _))).trans (ih _ (.refl _))

theorem bootSteps_sound {o₀ : Dev} (d : Dev) (h₀ : Sound o₀ d) : Sound o₀ (bootSteps d) := by
  refine h₀.trans ?_
  unfold bootSteps
  repeat' first
    | with_reducible exact Sound.refl _
    | with_reducible assumption
    | with_reducible apply Sound.transQuiet (k := flashFound_quiet (h₀ := .refl _) ..)
    | with_reducible apply bootBank_sound

theorem bootStart_sound {o₀ : Dev} (d : Dev) (h₀ : Sound o₀ d) : Sound o₀ (bootStart d) := by
  refine h₀.trans ?_
  unfold bootStart
  repeat' first
    | (extract_lets +onlyGivenNames x; first | refine Sound.cut (x := x) ?_ (fun hx => ?_) <;> [(clear_value (hv : x = _); rw [hv]); clear_value x] | clear_value x | skip)
    | with_reducible exact Sound.refl _
    | with_reducible assumption
    | simp -zeta only [↓ Sound.make]
    | with_reducible refine Sound.of ?_
    | with_reducible apply Sound.ite
    | with_reducible apply Sound.transQuiet (k := liveSetB_quiet (h₀ := .refl _) ..)
    | with_reducible apply Sound.transQuiet (k := startLock_quiet (h₀ := .refl _) ..)
    | with_reducible apply Sound.transQuiet (k := setSteer_quiet (h₀ := .refl _) ..)
    | with_reducible apply porstReset_sound
    | split

theorem bootLocked_sound {o₀ : Dev} (d : Dev) (h₀ : Sound o₀ d) : Sound o₀ (bootLocked d) := by
  refine h₀.trans ?_
  unfold bootLocked
  repeat' first
    | with_reducible exact Sound.refl _
    | with_reducible assumption
    | with_reducible apply Sound.ite
    | with_reducible apply bootSteps_sound
    | split

theorem reboot_sound {o₀ : Dev} (opening : Option (Nat × Nat)) (d : Dev) (h₀ : Sound o₀ d) : Sound o₀ (reboot opening d) := by
  refine h₀.trans ?_
  unfold reboot
  repeat' first
    | with_reducible exact Sound.refl _
    | with_reducible assumption
    | with_reducible apply rebootReset_sound
    | with_reducible apply Sound.transQuiet (k := openLog_quiet (h₀ := .refl _) ..)
    | with_reducible apply bootSteps_sound

theorem releaseCheck_sound {o₀ : Dev} (was : Bool) (d : Dev) (h₀ : Sound o₀ d) : Sound o₀ (releaseCheck was d) := by
  refine h₀.trans ?_
  unfold releaseCheck
  repeat' first
    | with_reducible exact Sound.refl _
    | with_reducible assumption
    | with_reducible apply Sound.ite
    | with_reducible apply bootStart_sound
    | split

theorem porstRelease_sound {o₀ : Dev} (side : Bool) (d : Dev) (h₀ : Sound o₀ d) : Sound o₀ (porstRelease side d) := by
  refine h₀.trans ?_
  unfold porstRelease
  repeat' first
    | (extract_lets +onlyGivenNames x; first | refine Sound.cut (x := x) ?_ (fun hx => ?_) <;> [(clear_value (hv : x = _); rw [hv]); clear_value x] | clear_value x | skip)
    | with_reducible exact Sound.refl _
    | with_reducible assumption
    | simp -zeta only [↓ Sound.make]
    | with_reducible refine Sound.of ?_
    | with_reducible apply Sound.ite
    | with_reducible apply Sound.transQuiet (k := liveSetB_quiet (h₀ := .refl _) ..)
    | with_reducible apply releaseCheck_sound
    | split

theorem bootEpoch_sound {o₀ : Dev} (d : Dev) (h₀ : Sound o₀ d) : Sound o₀ (bootEpoch d) := by
  refine h₀.trans ?_
  unfold bootEpoch
  repeat' first
    | (extract_lets +onlyGivenNames x; first | refine Sound.cut (x := x) ?_ (fun hx => ?_) <;> [(clear_value (hv : x = _); rw [hv]); clear_value x] | clear_value x | skip)
    | with_reducible exact Sound.refl _
    | with_reducible assumption
    | simp -zeta only [↓ Sound.make]
    | with_reducible refine Sound.of ?_
    | with_reducible apply Sound.ite
    | with_reducible apply restoreEn_sound
    | split

theorem loadSections_sound {o₀ : Dev} (filters : Bool) (next : BootPhase) (d : Dev) (h₀ : Sound o₀ d) : Sound o₀ (loadSections filters next d) := by
  refine h₀.trans ?_
  unfold loadSections
  repeat' first
    | (extract_lets +onlyGivenNames x; first | refine Sound.cut (x := x) ?_ (fun hx => ?_) <;> [(clear_value (hv : x = _); rw [hv]); clear_value x] | clear_value x | skip)
    | with_reducible exact Sound.refl _
    | with_reducible assumption
    | simp -zeta only [↓ Sound.make]
    | with_reducible refine Sound.of ?_
    | with_reducible refine Sound.foldl (fun d x => ?_) ?_
    | with_reducible refine Sound.foldlFst (fun d x => ?_) ?_
    | with_reducible apply Sound.transQuiet (k := refuseSection_quiet (h₀ := .refl _) ..)
    | with_reducible apply sectionInstall_sound
    | with_reducible apply rejectBank_sound
    | with_reducible apply bootBank_sound
    | split
    | (dsimp -zeta only)

theorem bootTrained_sound {o₀ : Dev} (d : Dev) (h₀ : Sound o₀ d) : Sound o₀ (bootTrained d) := by
  refine h₀.trans ?_
  unfold bootTrained
  repeat' first
    | (extract_lets +onlyGivenNames x; first | refine Sound.cut (x := x) ?_ (fun hx => ?_) <;> [(clear_value (hv : x = _); rw [hv]); clear_value x] | clear_value x | skip)
    | with_reducible exact Sound.refl _
    | with_reducible assumption
    | simp -zeta only [↓ Sound.make]
    | with_reducible refine Sound.of ?_
    | with_reducible apply Sound.ite
    | with_reducible apply Sound.transQuiet (k := liveSetB_quiet (h₀ := .refl _) ..)
    | with_reducible apply loadSections_sound
    | split

theorem wipeDone_sound {o₀ : Dev} (d : Dev) (h₀ : Sound o₀ d) : Sound o₀ (wipeDone d) := by
  refine h₀.trans ?_
  unfold wipeDone
  split
  · refine loadSections_sound _ _ _ ?_
    exact ⟨fun h => ⟨h.live, h.shadow, h.act, h.snap, { h.mem with mem0 := rfl, rcRegion := .nil, mem1 := rfl, reserved := .nil }, h.epoch, h.period⟩⟩
  · exact .refl _

theorem handoffCopy_sound {o₀ : Dev} (d : Dev) (h₀ : Sound o₀ d) : Sound o₀ (handoffCopy d) := by
  refine h₀.trans ?_
  refine ⟨fun h => ⟨h.live, h.shadow, h.act, h.snap, { h.mem with sram := ?_ }, h.epoch, h.period⟩⟩
  have key : ∀ (l : List (Nat × BitVec 8)) (m : List (Nat × Byte)), mapWf (fun _ => 0) m = true →
      mapWf (fun _ => 0) (l.foldl (fun m e => bytesSet m (e.1 % 0x3FE000) [e.2]) m) = true := by
    intro l
    induction l with
    | nil => exact fun _ h => h
    | cons x t ih => exact fun m h => ih _ (mapWf_mapSetRun _ _ _ h)
  exact key _ _ h.mem.sram

theorem bootComplete_sound {o₀ : Dev} (d : Dev) (h₀ : Sound o₀ d) : Sound o₀ (bootComplete d) := by
  refine h₀.trans ?_
  unfold bootComplete
  repeat' first
    | (extract_lets +onlyGivenNames x; first | refine Sound.cut (x := x) ?_ (fun hx => ?_) <;> [(clear_value (hv : x = _); rw [hv]); clear_value x] | clear_value x | skip)
    | with_reducible exact Sound.refl _
    | with_reducible assumption
    | simp -zeta only [↓ Sound.make]
    | with_reducible refine Sound.of ?_
    | with_reducible apply Sound.ite
    | with_reducible apply Sound.transQuiet (k := liveSetF_quiet (h₀ := .refl _) ..)
    | with_reducible apply Sound.transQuiet (k := liveSetB_quiet (h₀ := .refl _) ..)
    | with_reducible apply Sound.transQuiet (k := raiseErr_quiet (h₀ := .refl _) ..)
    | with_reducible apply Sound.transQuiet (k := commitNextWrite_quiet (h₀ := .refl _) ..)
    | with_reducible apply Sound.transQuiet (k := mirrorLoad_quiet (h₀ := .refl _) ..)
    | with_reducible apply keepEn_sound
    | with_reducible apply handoffCopy_sound
    | split

theorem autoConfirm_quiet {o₀ : Dev} (d : Dev) (h₀ : Quiet o₀ d) : Quiet o₀ (autoConfirm d) := by
  refine h₀.trans ?_
  unfold autoConfirm
  repeat' first
    | (extract_lets +onlyGivenNames x; first | refine Quiet.cut (x := x) ?_ (fun hx => ?_) <;> [(clear_value (hv : x = _); rw [hv]); clear_value x] | clear_value x | skip)
    | with_reducible exact Quiet.refl _
    | with_reducible assumption
    | simp -zeta only [↓ Quiet.make]
    | with_reducible refine Quiet.of ?_
    | with_reducible apply Quiet.ite
    | with_reducible apply confirmRunning_quiet
    | split

theorem confirmGo_quiet {o₀ : Dev} (d : Dev) (h₀ : Quiet o₀ d) : Quiet o₀ (confirmGo d) := by
  refine h₀.trans ?_
  unfold confirmGo
  repeat' first
    | with_reducible exact Quiet.refl _
    | with_reducible assumption
    | with_reducible apply Quiet.ite
    | with_reducible apply confirmRunning_quiet
    | split

theorem lcsResult_quiet {o₀ : Dev} (d : Dev) (r : Nat) (h₀ : Quiet o₀ d) : Quiet o₀ (lcsResult d r) := by
  refine h₀.trans ?_
  unfold lcsResult
  repeat' first
    | with_reducible exact Quiet.refl _
    | with_reducible assumption
    | with_reducible apply liveSetF_quiet

theorem lcsRequest_sound {o₀ : Dev} (path : LcsPath) (val : Word) (fuseOk : Bool) (d : Dev) (h₀ : Sound o₀ d) : Sound o₀ (lcsRequest path val fuseOk d) := by
  refine h₀.trans ?_
  unfold lcsRequest
  repeat' first
    | (extract_lets +onlyGivenNames x; first | refine Sound.cut (x := x) ?_ (fun hx => ?_) <;> [(clear_value (hv : x = _); rw [hv]); clear_value x] | clear_value x | skip)
    | with_reducible exact Sound.refl _
    | with_reducible assumption
    | simp -zeta only [↓ Sound.make]
    | with_reducible refine Sound.of ?_
    | with_reducible apply Sound.ite
    | with_reducible apply Sound.transQuiet (k := liveSetF_quiet (h₀ := .refl _) ..)
    | with_reducible apply Sound.transQuiet (k := liveSetB_quiet (h₀ := .refl _) ..)
    | with_reducible apply reboot_sound
    | with_reducible apply Sound.transQuiet (k := lcsResult_quiet (h₀ := .refl _) ..)
    | split

theorem fuseProgram_quiet {o₀ : Dev} (path : LcsPath) (slot : Nat) (fuseOk : Bool) (d : Dev) (h₀ : Quiet o₀ d) : Quiet o₀ (fuseProgram path slot fuseOk d) := by
  refine h₀.trans ?_
  unfold fuseProgram
  repeat' first
    | (extract_lets +onlyGivenNames x; first | refine Quiet.cut (x := x) ?_ (fun hx => ?_) <;> [(clear_value (hv : x = _); rw [hv]); clear_value x] | clear_value x | skip)
    | with_reducible exact Quiet.refl _
    | with_reducible assumption
    | simp -zeta only [↓ Quiet.make]
    | with_reducible refine Quiet.of ?_
    | with_reducible apply Quiet.ite
    | with_reducible refine Quiet.foldl (fun d x => ?_) ?_
    | with_reducible refine Quiet.foldlFst (fun d x => ?_) ?_
    | with_reducible apply liveSet_quiet
    | with_reducible apply liveSetB_quiet
    | with_reducible apply lcsResult_quiet
    | split
    | (dsimp -zeta only)

theorem fuseRevoke_quiet {o₀ : Dev} (path : LcsPath) (slot : Nat) (fuseOk : Bool) (d : Dev) (h₀ : Quiet o₀ d) : Quiet o₀ (fuseRevoke path slot fuseOk d) := by
  refine h₀.trans ?_
  unfold fuseRevoke
  repeat' first
    | (extract_lets +onlyGivenNames x; first | refine Quiet.cut (x := x) ?_ (fun hx => ?_) <;> [(clear_value (hv : x = _); rw [hv]); clear_value x] | clear_value x | skip)
    | with_reducible exact Quiet.refl _
    | with_reducible assumption
    | simp -zeta only [↓ Quiet.make]
    | with_reducible refine Quiet.of ?_
    | with_reducible apply Quiet.ite
    | with_reducible apply liveSetB_quiet
    | with_reducible apply lcsResult_quiet
    | split
    | (dsimp -zeta only)

theorem jtagInstr_quiet {o₀ : Dev} (code : Nat) (boundary secondPassed : Bool) (d : Dev) (h₀ : Quiet o₀ d) : Quiet o₀ (jtagInstr code boundary secondPassed d) := by
  refine h₀.trans ?_
  unfold jtagInstr
  repeat' first
    | (extract_lets +onlyGivenNames x; first | refine Quiet.cut (x := x) ?_ (fun hx => ?_) <;> [(clear_value (hv : x = _); rw [hv]); clear_value x] | clear_value x | skip)
    | with_reducible exact Quiet.refl _
    | with_reducible assumption
    | simp -zeta only [↓ Quiet.make]
    | with_reducible refine Quiet.of ?_
    | with_reducible apply Quiet.ite
    | with_reducible apply raiseErr_quiet
    | split

end Sys2Proof.Machine
end

