-- ==== Sys2Proof/Laws/QuietCapture.lean ====
section
/-!
SUPPORT. Sys2Proof/Laws/QuietCapture.lean: for each operation of Machine/Capture.lean, that it is `Quiet` (or only `Sound`).
-/
set_option linter.all false
namespace Sys2Proof.Machine

theorem setCapState_quiet {o₀ : Dev} (d : Dev) (v : Nat) (h₀ : Quiet o₀ d) : Quiet o₀ (setCapState d v) := by
  refine h₀.trans ?_
  unfold setCapState
  repeat' first
    | with_reducible exact Quiet.refl _
    | with_reducible assumption
    | with_reducible apply liveSetF_quiet

theorem captureError_quiet {o₀ : Dev} (off : Nat) (d : Dev) (h₀ : Quiet o₀ d) : Quiet o₀ (captureError off d) := by
  refine h₀.trans ?_
  unfold captureError
  repeat' first
    | (extract_lets +onlyGivenNames x; first | refine Quiet.cut (x := x) ?_ (fun hx => ?_) <;> [(clear_value (hv : x = _); rw [hv]); clear_value x] | clear_value x | skip)
    | with_reducible exact Quiet.refl _
    | with_reducible assumption
    | simp -zeta only [↓ Quiet.make]
    | with_reducible refine Quiet.of ?_
    | with_reducible apply raiseErr_quiet
    | with_reducible apply setCapState_quiet

theorem captureStart_quiet {o₀ : Dev} (d : Dev) (h₀ : Quiet o₀ d) : Quiet o₀ (captureStart d) := by
  refine h₀.trans ?_
  unfold captureStart
  repeat' first
    | (extract_lets +onlyGivenNames x; first | refine Quiet.cut (x := x) ?_ (fun hx => ?_) <;> [(clear_value (hv : x = _); rw [hv]); clear_value x] | clear_value x | skip)
    | with_reducible exact Quiet.refl _
    | with_reducible assumption
    | simp -zeta only [↓ Quiet.make]
    | with_reducible refine Quiet.of ?_
    | with_reducible apply Quiet.ite
    | with_reducible apply liveSetB_quiet
    | with_reducible apply setCapState_quiet
    | with_reducible apply captureError_quiet
    | split

theorem captureBlock_sound {o₀ : Dev} (d : Dev) (h₀ : Sound o₀ d) : Sound o₀ (captureBlock d) := by
  refine h₀.trans ?_
  unfold captureBlock
  extract_lets +onlyGivenNames e
  split
  · exact .refl _
  · split
    · exact setMem1_sound _ _ (fun hc => mapWf_wordsSet _ _ hc.mem.mem1) (Quiet.sound ⟨id, rfl, rfl, rfl, rfl, id, rfl, rfl⟩)
    · exact .refl _

theorem captureEpoch_sound {o₀ : Dev} (d : Dev) (h₀ : Sound o₀ d) : Sound o₀ (captureEpoch d) := by
  refine h₀.trans ?_
  unfold captureEpoch
  repeat' first
    | (extract_lets +onlyGivenNames x; first | refine Sound.cut (x := x) ?_ (fun hx => ?_) <;> [(clear_value (hv : x = _); rw [hv]); clear_value x] | clear_value x | skip)
    | with_reducible exact Sound.refl _
    | with_reducible assumption
    | simp -zeta only [↓ Sound.make]
    | with_reducible refine Sound.of ?_
    | with_reducible apply Sound.ite
    | with_reducible apply Sound.transQuiet (k := setCapState_quiet (h₀ := .refl _) ..)
    | with_reducible apply Sound.transQuiet (k := captureStart_quiet (h₀ := .refl _) ..)
    | with_reducible apply captureBlock_sound
    | split

theorem captureRefs_quiet {o₀ : Dev} (c : Nat) (d : Dev) (h₀ : Quiet o₀ d) : Quiet o₀ (captureRefs c d) := by
  refine h₀.trans ?_
  unfold captureRefs
  repeat' first
    | (extract_lets +onlyGivenNames x; first | refine Quiet.cut (x := x) ?_ (fun hx => ?_) <;> [(clear_value (hv : x = _); rw [hv]); clear_value x] | clear_value x | skip)
    | with_reducible exact Quiet.refl _
    | with_reducible assumption
    | simp -zeta only [↓ Quiet.make]
    | with_reducible refine Quiet.of ?_
    | with_reducible refine Quiet.foldl (fun d x => ?_) ?_
    | with_reducible refine Quiet.foldlFst (fun d x => ?_) ?_
    | split
    | (dsimp -zeta only)

theorem captureSum_quiet {o₀ : Dev} (d : Dev) (h₀ : Quiet o₀ d) : Quiet o₀ (captureSum d) := by
  refine h₀.trans ?_
  unfold captureSum
  repeat' first
    | (extract_lets +onlyGivenNames x; first | refine Quiet.cut (x := x) ?_ (fun hx => ?_) <;> [(clear_value (hv : x = _); rw [hv]); clear_value x] | clear_value x | skip)
    | with_reducible exact Quiet.refl _
    | with_reducible assumption
    | simp -zeta only [↓ Quiet.make]
    | with_reducible refine Quiet.of ?_
    | with_reducible refine Quiet.foldl (fun d x => ?_) ?_
    | with_reducible refine Quiet.foldlFst (fun d x => ?_) ?_
    | split
    | (dsimp -zeta only)

theorem captureDone_sound {o₀ : Dev} (d : Dev) (h₀ : Sound o₀ d) : Sound o₀ (captureDone d) := by
  refine h₀.trans ?_
  unfold captureDone
  split
  · apply Sound.transQuiet (k := setCapState_quiet (h₀ := .refl _) ..)
    exact setMem1_sound _ _ (fun hc => mapWf_mapSetRun _ _ _ hc.mem.mem1) (Quiet.sound ⟨id, rfl, rfl, rfl, rfl, id, rfl, rfl⟩)
  · exact .refl _

end Sys2Proof.Machine
end

