-- ==== Sys2Proof/Laws/QuietReload.lean ====
section
/-!
SUPPORT. Sys2Proof/Laws/QuietReload.lean: for each operation of Machine/Reload.lean, that it is `Quiet` (or only `Sound`).
-/
set_option linter.all false
namespace Sys2Proof.Machine

theorem setReloadState_quiet {o₀ : Dev} (d : Dev) (v : Nat) (h₀ : Quiet o₀ d) : Quiet o₀ (setReloadState d v) := by
  refine h₀.trans ?_
  unfold setReloadState
  repeat' first
    | with_reducible exact Quiet.refl _
    | with_reducible assumption
    | with_reducible apply liveSetF_quiet

theorem reloadResult_quiet {o₀ : Dev} (d : Dev) (type r : Nat) (h₀ : Quiet o₀ d) : Quiet o₀ (reloadResult d type r) := by
  refine h₀.trans ?_
  unfold reloadResult
  repeat' first
    | with_reducible exact Quiet.refl _
    | with_reducible assumption
    | with_reducible apply liveSetF_quiet

theorem reloadLog_quiet {o₀ : Dev} (d : Dev) (h₀ : Quiet o₀ d) : Quiet o₀ (reloadLog d) := by
  refine h₀.trans ?_
  unfold reloadLog
  repeat' first
    | with_reducible exact Quiet.refl _
    | with_reducible assumption
    | with_reducible apply raiseErr_quiet

theorem reloadTurned_quiet {o₀ : Dev} (r : Nat) (d : Dev) (h₀ : Quiet o₀ d) : Quiet o₀ (reloadTurned r d) := by
  refine h₀.trans ?_
  unfold reloadTurned
  repeat' first
    | (extract_lets +onlyGivenNames x; first | refine Quiet.cut (x := x) ?_ (fun hx => ?_) <;> [(clear_value (hv : x = _); rw [hv]); clear_value x] | clear_value x | skip)
    | with_reducible exact Quiet.refl _
    | with_reducible assumption
    | with_reducible apply Quiet.ite
    | with_reducible apply liveSetF_quiet
    | with_reducible apply reloadResult_quiet
    | with_reducible apply reloadLog_quiet
    | split

theorem tables_canonical (l : List ReloadSec) {m : List (Nat × List Byte)} (h : mapWf (fun _ => []) m = true) :
    mapWf (fun _ => []) (l.foldl (fun m s => setTable m s.type s.data) m) = true := by
  induction l generalizing m with
  | nil => exact h
  | cons s t ih => exact ih (mapWf_mapSet _ _ _ h)

theorem standbyLoad_quiet {o₀ : Dev} (secs : List ReloadSec) (d : Dev) (h₀ : Quiet o₀ d) : Quiet o₀ (standbyLoad secs d) := by
  refine h₀.trans ?_
  unfold standbyLoad
  extract_lets geo
  split
  · exact .refl _
  · refine ⟨id, rfl, rfl, rfl, rfl, fun h => { h with standby := ?_ }, rfl, rfl⟩
    exact tables_canonical _ h.active

theorem stageSections_sound {o₀ : Dev} (l : List (Nat × List Byte)) (d : Dev) (h₀ : Sound o₀ d) : Sound o₀ (stageSections l d).1 := by
  refine h₀.trans ?_
  have key : ∀ (l : List (Nat × List Byte)) (a : (Dev × List ReloadSec) × Nat), Sound d a.1.1 → Sound d (l.foldl
      (fun (a : (Dev × List ReloadSec) × Nat) s => ((reservedRun a.1.1 a.2 s.2, ⟨s.1, s.2, a.2, false⟩ :: a.1.2), a.2 + s.2.length)) a).1.1 := by
    intro l
    induction l with
    | nil => exact fun _ h => h
    | cons x t ih => exact fun a h => ih _ (reservedRun_sound _ _ _ h)
  exact key l _ (.refl _)

theorem reloadGo_sound {o₀ : Dev} (d : Dev) (h₀ : Sound o₀ d) : Sound o₀ (reloadGo d) := by
  refine h₀.trans ?_
  unfold reloadGo
  repeat' first
    | (extract_lets +onlyGivenNames x; first | refine Sound.cut (x := x) ?_ (fun hx => ?_) <;> [(clear_value (hv : x = _); rw [hv]); clear_value x] | refine Sound.cut (x := x.1) ?_ (fun hx => ?_) <;> [(clear_value (hv : x = _); rw [hv]); clear_value x] | clear_value x | skip)
    | with_reducible exact Sound.refl _
    | with_reducible assumption
    | simp -zeta only [↓ Sound.make]
    | with_reducible refine Sound.of ?_
    | with_reducible apply Sound.ite
    | with_reducible apply Sound.transQuiet (k := liveSetF_quiet (h₀ := .refl _) ..)
    | with_reducible apply Sound.transQuiet (k := reportGens_quiet (h₀ := .refl _) ..)
    | with_reducible apply Sound.transQuiet (k := setReloadState_quiet (h₀ := .refl _) ..)
    | with_reducible apply Sound.transQuiet (k := reloadResult_quiet (h₀ := .refl _) ..)
    | with_reducible apply Sound.transQuiet (k := reloadTurned_quiet (h₀ := .refl _) ..)
    | with_reducible apply Sound.transQuiet (k := standbyLoad_quiet (h₀ := .refl _) ..)
    | with_reducible apply stageSections_sound
    | split
    | (dsimp -zeta only)

theorem reloadRefuse_quiet {o₀ : Dev} (type r : Nat) (d : Dev) (h₀ : Quiet o₀ d) : Quiet o₀ (reloadRefuse type r d) := by
  refine h₀.trans ?_
  unfold reloadRefuse
  split
  · exact .refl _
  · extract_lets +onlyGivenNames x y
    have hx : Quiet d x := Quiet.ite (rcDiscard_quiet _ (.refl _)) (.refl _)
    clear_value x
    have hy : Quiet d y := liveSetB_quiet _ _ _ _ hx
    clear_value y
    refine reloadLog_quiet _ (reloadResult_quiet _ _ _ (setReloadState_quiet _ _ (hy.trans ?_)))
    exact ⟨id, rfl, rfl, rfl, rfl, fun h => { h with standby := rfl }, rfl, rfl⟩

theorem markReady_quiet {o₀ : Dev} (type : Nat) (d : Dev) (h₀ : Quiet o₀ d) : Quiet o₀ (markReady type d) := by
  refine h₀.trans ?_
  unfold markReady
  repeat' first
    | (extract_lets +onlyGivenNames x; first | refine Quiet.cut (x := x) ?_ (fun hx => ?_) <;> [(clear_value (hv : x = _); rw [hv]); clear_value x] | clear_value x | skip)
    | with_reducible exact Quiet.refl _
    | with_reducible assumption
    | simp -zeta only [↓ Quiet.make]
    | with_reducible refine Quiet.of ?_
    | with_reducible apply Quiet.ite
    | split
    | (dsimp -zeta only)

theorem takeStaged_quiet {o₀ : Dev} (type : Nat) (d : Dev) (h₀ : Quiet o₀ d) : Quiet o₀ (takeStaged type d) := by
  refine h₀.trans ?_
  unfold takeStaged
  repeat' first
    | (extract_lets +onlyGivenNames x; first | refine Quiet.cut (x := x) ?_ (fun hx => ?_) <;> [(clear_value (hv : x = _); rw [hv]); clear_value x] | clear_value x | skip)
    | with_reducible exact Quiet.refl _
    | with_reducible assumption
    | simp -zeta only [↓ Quiet.make]
    | with_reducible refine Quiet.of ?_
    | with_reducible apply Quiet.ite
    | with_reducible apply standbyLoad_quiet
    | split
    | (dsimp -zeta only)

theorem prepareSec_quiet {o₀ : Dev} (s : ReloadSec) (d : Dev) (h₀ : Quiet o₀ d) : Quiet o₀ (prepareSec s d) := by
  refine h₀.trans ?_
  unfold prepareSec
  repeat' first
    | (extract_lets +onlyGivenNames x; first | refine Quiet.cut (x := x) ?_ (fun hx => ?_) <;> [(clear_value (hv : x = _); rw [hv]); clear_value x] | clear_value x | skip)
    | with_reducible exact Quiet.refl _
    | with_reducible assumption
    | simp -zeta only [↓ Quiet.make]
    | with_reducible refine Quiet.of ?_
    | with_reducible apply Quiet.ite
    | with_reducible refine Quiet.foldl (fun d x => ?_) ?_
    | with_reducible refine Quiet.foldlFst (fun d x => ?_) ?_
    | with_reducible apply netReports_quiet
    | with_reducible apply cndStandby_quiet
    | with_reducible apply rcBegin_quiet
    | with_reducible apply vecReload_quiet
    | with_reducible apply markReady_quiet
    | split
    | (dsimp -zeta only)

theorem judgeSec_quiet {o₀ : Dev} (staged : ReloadSec) (d : Dev) (h₀ : Quiet o₀ d) : Quiet o₀ (judgeSec staged d) := by
  refine h₀.trans ?_
  unfold judgeSec
  repeat' first
    | (extract_lets +onlyGivenNames x; first | refine Quiet.cut (x := x) ?_ (fun hx => ?_) <;> [(clear_value (hv : x = _); rw [hv]); clear_value x] | clear_value x | skip)
    | with_reducible exact Quiet.refl _
    | with_reducible assumption
    | with_reducible apply Quiet.ite
    | with_reducible apply refuseSection_quiet
    | with_reducible apply reloadRefuse_quiet
    | with_reducible apply takeStaged_quiet
    | with_reducible apply prepareSec_quiet
    | split

theorem sectionChecked_quiet {o₀ : Dev} (type : Nat) (d : Dev) (h₀ : Quiet o₀ d) : Quiet o₀ (sectionChecked type d) := by
  refine h₀.trans ?_
  unfold sectionChecked
  repeat' first
    | (extract_lets +onlyGivenNames x; first | refine Quiet.cut (x := x) ?_ (fun hx => ?_) <;> [(clear_value (hv : x = _); rw [hv]); clear_value x] | clear_value x | skip)
    | with_reducible exact Quiet.refl _
    | with_reducible assumption
    | simp -zeta only [↓ Quiet.make]
    | with_reducible refine Quiet.of ?_
    | with_reducible apply Quiet.ite
    | with_reducible apply judgeSec_quiet
    | split

theorem vecLoaded_quiet {o₀ : Dev} (d : Dev) (h₀ : Quiet o₀ d) : Quiet o₀ (vecLoaded d) := by
  refine h₀.trans ?_
  unfold vecLoaded
  repeat' first
    | (extract_lets +onlyGivenNames x; first | refine Quiet.cut (x := x) ?_ (fun hx => ?_) <;> [(clear_value (hv : x = _); rw [hv]); clear_value x] | clear_value x | skip)
    | with_reducible exact Quiet.refl _
    | with_reducible assumption
    | simp -zeta only [↓ Quiet.make]
    | with_reducible refine Quiet.of ?_
    | with_reducible apply markReady_quiet
    | split

theorem reloadReady_quiet {o₀ : Dev} (d : Dev) (h₀ : Quiet o₀ d) : Quiet o₀ (reloadReady d) := by
  refine h₀.trans ?_
  unfold reloadReady
  repeat' first
    | (extract_lets +onlyGivenNames x; first | refine Quiet.cut (x := x) ?_ (fun hx => ?_) <;> [(clear_value (hv : x = _); rw [hv]); clear_value x] | clear_value x | skip)
    | with_reducible exact Quiet.refl _
    | with_reducible assumption
    | simp -zeta only [↓ Quiet.make]
    | with_reducible refine Quiet.of ?_
    | with_reducible apply Quiet.ite
    | with_reducible refine Quiet.foldl (fun d x => ?_) ?_
    | with_reducible refine Quiet.foldlFst (fun d x => ?_) ?_
    | with_reducible apply setReloadState_quiet
    | with_reducible apply reloadResult_quiet
    | with_reducible apply judgeSec_quiet
    | with_reducible apply vecLoaded_quiet
    | split
    | (dsimp -zeta only)

theorem reloadRefused_quiet {o₀ : Dev} (type : Nat) (readError : Bool) (d : Dev) (h₀ : Quiet o₀ d) : Quiet o₀ (reloadRefused type readError d) := by
  refine h₀.trans ?_
  unfold reloadRefused
  repeat' first
    | (extract_lets +onlyGivenNames x; first | refine Quiet.cut (x := x) ?_ (fun hx => ?_) <;> [(clear_value (hv : x = _); rw [hv]); clear_value x] | clear_value x | skip)
    | with_reducible exact Quiet.refl _
    | with_reducible assumption
    | simp -zeta only [↓ Quiet.make]
    | with_reducible refine Quiet.of ?_
    | with_reducible apply Quiet.ite
    | with_reducible apply reloadRefuse_quiet
    | with_reducible apply judgeSec_quiet
    | split

theorem reloadAbandon_quiet {o₀ : Dev} (d : Dev) (h₀ : Quiet o₀ d) : Quiet o₀ (reloadAbandon d) := by
  refine h₀.trans ?_
  unfold reloadAbandon
  repeat' first
    | with_reducible exact Quiet.refl _
    | with_reducible assumption
    | with_reducible apply Quiet.ite
    | with_reducible apply reloadRefuse_quiet
    | split

theorem activateSec_quiet {o₀ : Dev} (d : Dev) (s : ReloadSec) (h₀ : Quiet o₀ d) : Quiet o₀ (activateSec d s) := by
  refine h₀.trans ?_
  unfold activateSec
  repeat' first
    | (extract_lets +onlyGivenNames x; first | refine Quiet.cut (x := x) ?_ (fun hx => ?_) <;> [(clear_value (hv : x = _); rw [hv]); clear_value x] | clear_value x | skip)
    | with_reducible exact Quiet.refl _
    | with_reducible assumption
    | simp -zeta only [↓ Quiet.make]
    | with_reducible refine Quiet.of ?_
    | with_reducible apply Quiet.ite
    | with_reducible apply netActivate_quiet
    | with_reducible apply geoActivate_quiet
    | with_reducible apply cndSwap_quiet
    | with_reducible apply rcActivate_quiet
    | with_reducible apply itemsJoin_quiet
    | split

theorem reloadApply_quiet {o₀ : Dev} (d : Dev) (h₀ : Quiet o₀ d) : Quiet o₀ (reloadApply d) := by
  refine h₀.trans ?_
  unfold reloadApply
  repeat' first
    | (extract_lets +onlyGivenNames x; first | refine Quiet.cut (x := x) ?_ (fun hx => ?_) <;> [(clear_value (hv : x = _); rw [hv]); clear_value x] | clear_value x | skip)
    | with_reducible exact Quiet.refl _
    | with_reducible assumption
    | simp -zeta only [↓ Quiet.make]
    | with_reducible refine Quiet.of ?_
    | with_reducible apply Quiet.ite
    | with_reducible refine Quiet.foldl (fun d x => ?_) ?_
    | with_reducible refine Quiet.foldlFst (fun d x => ?_) ?_
    | with_reducible apply liveSet_quiet
    | with_reducible apply liveSetB_quiet
    | with_reducible apply recordReport_quiet
    | with_reducible apply writeRecord'_quiet
    | with_reducible apply setReloadState_quiet
    | with_reducible apply reloadResult_quiet
    | with_reducible apply activateSec_quiet
    | split

theorem commitCutoff_sound {o₀ : Dev} (d : Dev) (h₀ : Sound o₀ d) : Sound o₀ (commitCutoff d) := by
  refine h₀.trans ?_
  unfold commitCutoff
  repeat' first
    | (extract_lets +onlyGivenNames x; first | refine Sound.cut (x := x) ?_ (fun hx => ?_) <;> [(clear_value (hv : x = _); rw [hv]); clear_value x] | (have e : Epc := x; clear e) | clear_value x | skip)
    | with_reducible exact Sound.refl _
    | with_reducible assumption
    | simp -zeta only [↓ Sound.make]
    | with_reducible refine Sound.of ?_
    | with_reducible apply Sound.ite
    | with_reducible refine Sound.foldl (fun d x => ?_) ?_
    | with_reducible refine Sound.foldlFst (fun d x => ?_) ?_
    | with_reducible apply Sound.transQuiet (k := raiseErr_quiet (h₀ := .refl _) ..)
    | with_reducible apply Sound.transQuiet (k := setResult_quiet (h₀ := .refl _) ..)
    | with_reducible apply Sound.transQuiet (k := setPending_quiet (h₀ := .refl _) ..)
    | with_reducible apply writeRecords_sound
    | split
    | (dsimp -zeta only)

theorem parallelStart_quiet {o₀ : Dev} (d : Dev) (h₀ : Quiet o₀ d) : Quiet o₀ (parallelStart d) := by
  refine h₀.trans ?_
  unfold parallelStart
  repeat' first
    | (extract_lets +onlyGivenNames x; first | refine Quiet.cut (x := x) ?_ (fun hx => ?_) <;> [(clear_value (hv : x = _); rw [hv]); clear_value x] | clear_value x | skip)
    | with_reducible exact Quiet.refl _
    | with_reducible assumption
    | simp -zeta only [↓ Quiet.make]
    | with_reducible refine Quiet.of ?_
    | with_reducible apply Quiet.ite
    | with_reducible apply rcParallel_quiet
    | split

theorem rcReloadReady_quiet {o₀ : Dev} (d : Dev) (h₀ : Quiet o₀ d) : Quiet o₀ (rcReloadReady d) := by
  refine h₀.trans ?_
  unfold rcReloadReady
  repeat' first
    | (extract_lets +onlyGivenNames x; first | refine Quiet.cut (x := x) ?_ (fun hx => ?_) <;> [(clear_value (hv : x = _); rw [hv]); clear_value x] | clear_value x | skip)
    | with_reducible exact Quiet.refl _
    | with_reducible assumption
    | simp -zeta only [↓ Quiet.make]
    | with_reducible refine Quiet.of ?_
    | with_reducible apply Quiet.ite
    | with_reducible apply markReady_quiet
    | split

end Sys2Proof.Machine
end

