-- ==== Sys2Proof/Laws/QuietRender.lean ====
section
/-!
SUPPORT. Sys2Proof/Laws/QuietRender.lean: for each operation of Machine/Render.lean, that it is `Quiet` (or only `Sound`).
-/
set_option linter.all false
namespace Sys2Proof.Machine

theorem outChannel_quiet {o₀ : Dev} (c bf bb : Nat) (corrected taps : Audio) (a : Dev × Audio) (m : Nat) (h₀ : Quiet o₀ a.1) : Quiet o₀ (outChannel c bf bb corrected taps a m).1 := by
  refine h₀.trans ?_
  unfold outChannel
  repeat' first
    | (extract_lets +onlyGivenNames x; first | refine Quiet.cut (x := x) ?_ (fun hx => ?_) <;> [(clear_value (hv : x = _); rw [hv]); clear_value x] | clear_value x | skip)
    | with_reducible exact Quiet.refl _
    | with_reducible assumption
    | simp -zeta only [↓ Quiet.make]
    | with_reducible refine Quiet.of ?_
    | with_reducible apply Quiet.ite
    | with_reducible apply liveSetB_quiet
    | with_reducible apply bumpSat_quiet
    | with_reducible apply putGain_quiet
    | with_reducible apply noteGain_quiet
    | split
    | (dsimp -zeta only)

theorem outQuiet_quiet {o₀ : Dev} (c bf bb : Nat) (d : Dev) (m : Nat) (h₀ : Quiet o₀ d) : Quiet o₀ (outQuiet c bf bb d m) := by
  refine h₀.trans ?_
  unfold outQuiet
  repeat' first
    | (extract_lets +onlyGivenNames x; first | refine Quiet.cut (x := x) ?_ (fun hx => ?_) <;> [(clear_value (hv : x = _); rw [hv]); clear_value x] | clear_value x | skip)
    | with_reducible exact Quiet.refl _
    | with_reducible assumption
    | with_reducible apply Quiet.ite
    | with_reducible apply liveSetB_quiet
    | with_reducible apply putGain_quiet
    | with_reducible apply noteGain_quiet
    | split
    | (dsimp -zeta only)

theorem outputAudio_quiet {o₀ : Dev} (c bf bb : Nat) (d : Dev) (h₀ : Quiet o₀ d) : Quiet o₀ (outputAudio c bf bb d).1 := by
  refine h₀.trans ?_
  unfold outputAudio
  repeat' first
    | (extract_lets +onlyGivenNames x; first | refine Quiet.cut (x := x) ?_ (fun hx => ?_) <;> [(clear_value (hv : x = _); rw [hv]); clear_value x] | refine Quiet.cut (x := x.1) ?_ (fun hx => ?_) <;> [(clear_value (hv : x = _); rw [hv]); clear_value x] | clear_value x | skip)
    | with_reducible exact Quiet.refl _
    | with_reducible assumption
    | simp -zeta only [↓ Quiet.make]
    | with_reducible refine Quiet.of ?_
    | with_reducible apply Quiet.ite
    | with_reducible refine Quiet.foldl (fun d x => ?_) ?_
    | with_reducible refine Quiet.foldlFst (fun d x => ?_) ?_
    | with_reducible apply outChannel_quiet
    | with_reducible apply outQuiet_quiet
    | split
    | (dsimp -zeta only)

theorem outputStage_quiet {o₀ : Dev} (c bf bb : Nat) (d : Dev) (h₀ : Quiet o₀ d) : Quiet o₀ (outputStage c bf bb d) := by
  refine h₀.trans ?_
  unfold outputStage
  repeat' first
    | (extract_lets +onlyGivenNames x; first | refine Quiet.cut (x := x) ?_ (fun hx => ?_) <;> [(clear_value (hv : x = _); rw [hv]); clear_value x] | refine Quiet.cut (x := x.1) ?_ (fun hx => ?_) <;> [(clear_value (hv : x = _); rw [hv]); clear_value x] | clear_value x | skip)
    | with_reducible exact Quiet.refl _
    | with_reducible assumption
    | simp -zeta only [↓ Quiet.make]
    | with_reducible refine Quiet.of ?_
    | with_reducible apply Quiet.ite
    | with_reducible apply outputAudio_quiet
    | split
    | (dsimp -zeta only)

theorem bindReports_quiet {o₀ : Dev} (d : Dev) (h₀ : Quiet o₀ d) : Quiet o₀ (bindReports d) := by
  refine h₀.trans ?_
  unfold bindReports
  repeat' first
    | (extract_lets +onlyGivenNames x; first | refine Quiet.cut (x := x) ?_ (fun hx => ?_) <;> [(clear_value (hv : x = _); rw [hv]); clear_value x] | (have e : _ → _ := x; clear e; clear_value (hv : x = _); subst hv; beta_reduce) | clear_value x | skip)
    | with_reducible exact Quiet.refl _
    | with_reducible assumption
    | with_reducible refine Quiet.foldl (fun d x => ?_) ?_
    | with_reducible refine Quiet.foldlFst (fun d x => ?_) ?_
    | with_reducible apply liveSetF_quiet
    | with_reducible apply liveSetB_quiet
    | (dsimp -zeta only)

theorem inWindow_quiet {o₀ : Dev} (k : Nat) (f : Dev → Dev) (d : Dev) (hf : ∀ d, Quiet d (f d)) (h₀ : Quiet o₀ d) : Quiet o₀ (inWindow k f d) := by
  refine h₀.trans ?_
  unfold inWindow
  split
  · refine Quiet.trans ?_ (hf _)
    simp -zeta only [↓ Quiet.make]
    exact Quiet.of (.refl _)
  · exact .refl _

theorem phaseA_quiet {o₀ : Dev} (d : Dev) (h₀ : Quiet o₀ d) : Quiet o₀ (phaseA d) := by
  refine h₀.trans ?_
  unfold phaseA
  repeat' first
    | (extract_lets +onlyGivenNames x; first | refine Quiet.cut (x := x) ?_ (fun hx => ?_) <;> [(clear_value (hv : x = _); rw [hv]); clear_value x] | clear_value x | skip)
    | with_reducible exact Quiet.refl _
    | with_reducible assumption
    | simp -zeta only [↓ Quiet.make]
    | with_reducible refine Quiet.of ?_
    | with_reducible apply geoEvaluate_quiet
    | with_reducible apply rcLoadA_quiet
    | with_reducible apply lanesRun_quiet
    | split

theorem reduction_quiet {o₀ : Dev} (d : Dev) (h₀ : Quiet o₀ d) : Quiet o₀ (reduction d) := by
  refine h₀.trans ?_
  unfold reduction
  repeat' first
    | (extract_lets +onlyGivenNames x; first | refine Quiet.cut (x := x) ?_ (fun hx => ?_) <;> [(clear_value (hv : x = _); rw [hv]); clear_value x] | clear_value x | skip)
    | with_reducible exact Quiet.refl _
    | with_reducible assumption
    | with_reducible apply Quiet.ite
    | with_reducible apply watchdogKick_quiet
    | with_reducible apply allocate_quiet
    | with_reducible apply reduce_quiet
    | split

theorem phaseB_quiet {o₀ : Dev} (d : Dev) (h₀ : Quiet o₀ d) : Quiet o₀ (phaseB d) := by
  refine h₀.trans ?_
  unfold phaseB
  repeat' first
    | (extract_lets +onlyGivenNames x; first | refine Quiet.cut (x := x) ?_ (fun hx => ?_) <;> [(clear_value (hv : x = _); rw [hv]); clear_value x] | refine Quiet.cut (x := x.1) ?_ (fun hx => ?_) <;> [(clear_value (hv : x = _); rw [hv]); clear_value x] | (have e : _ → _ := x; clear e; clear_value (hv : x = _); subst hv; beta_reduce) | clear_value x | skip)
    | with_reducible exact Quiet.refl _
    | with_reducible assumption
    | simp -zeta only [↓ Quiet.make]
    | with_reducible refine Quiet.of ?_
    | with_reducible apply Quiet.ite
    | with_reducible apply genMakeAll_quiet
    | with_reducible apply rcCorrect_quiet
    | with_reducible apply joinStage_quiet
    | with_reducible apply captureRefs_quiet
    | with_reducible apply outputAudio_quiet
    | with_reducible apply outputStage_quiet
    | split
    | (dsimp -zeta only)

theorem margin_quiet {o₀ : Dev} (d : Dev) (h₀ : Quiet o₀ d) : Quiet o₀ (margin d) := by
  refine h₀.trans ?_
  unfold margin
  repeat' first
    | (extract_lets +onlyGivenNames x; first | refine Quiet.cut (x := x) ?_ (fun hx => ?_) <;> [(clear_value (hv : x = _); rw [hv]); clear_value x] | refine Quiet.cut (x := x.1) ?_ (fun hx => ?_) <;> [(clear_value (hv : x = _); rw [hv]); clear_value x] | clear_value x | skip)
    | with_reducible exact Quiet.refl _
    | with_reducible assumption
    | simp -zeta only [↓ Quiet.make]
    | with_reducible refine Quiet.of ?_
    | with_reducible apply Quiet.ite
    | with_reducible apply makeDigests_quiet
    | with_reducible apply joinStage_quiet
    | with_reducible apply captureSum_quiet
    | split
    | (dsimp -zeta only)

theorem present_quiet {o₀ : Dev} (d : Dev) (h₀ : Quiet o₀ d) : Quiet o₀ (present d) := by
  refine h₀.trans ?_
  unfold present
  repeat' first
    | (extract_lets +onlyGivenNames x; first | refine Quiet.cut (x := x) ?_ (fun hx => ?_) <;> [(clear_value (hv : x = _); rw [hv]); clear_value x] | clear_value x | skip)
    | with_reducible exact Quiet.refl _
    | with_reducible assumption
    | simp -zeta only [↓ Quiet.make]
    | with_reducible refine Quiet.of ?_
    | with_reducible apply bindReports_quiet

end Sys2Proof.Machine
end

