-- ==== Sys2Proof/Laws/QuietWrites.lean ====
section
/-!
SUPPORT. Sys2Proof/Laws/QuietWrites.lean: for each operation of Machine/Writes.lean, that it is `Quiet` (or only `Sound`).
-/
set_option linter.all false
namespace Sys2Proof.Machine

theorem perfPending_quiet {o₀ : Dev} (d : Dev) (h₀ : Quiet o₀ d) : Quiet o₀ (perfPending d) := by
  refine h₀.trans ?_
  unfold perfPending
  repeat' first
    | with_reducible exact Quiet.refl _
    | with_reducible assumption
    | with_reducible apply liveSetB_quiet

theorem perfWrite_quiet {o₀ : Dev} (val : Word) (d : Dev) (h₀ : Quiet o₀ d) : Quiet o₀ (perfWrite val d) := by
  refine h₀.trans ?_
  unfold perfWrite
  repeat' first
    | (extract_lets +onlyGivenNames x; first | refine Quiet.cut (x := x) ?_ (fun hx => ?_) <;> [(clear_value (hv : x = _); rw [hv]); clear_value x] | clear_value x | skip)
    | with_reducible exact Quiet.refl _
    | with_reducible assumption
    | simp -zeta only [↓ Quiet.make]
    | with_reducible refine Quiet.of ?_
    | with_reducible apply perfPending_quiet

theorem wdWrite_quiet {o₀ : Dev} (o : Nat) (val : Word) (d : Dev) (h₀ : Quiet o₀ d) : Quiet o₀ (wdWrite o val d) := by
  refine h₀.trans ?_
  unfold wdWrite
  repeat' first
    | (extract_lets +onlyGivenNames x; first | refine Quiet.cut (x := x) ?_ (fun hx => ?_) <;> [(clear_value (hv : x = _); rw [hv]); clear_value x] | (have e : _ → _ := x; clear e; clear_value (hv : x = _); subst hv; beta_reduce) | clear_value x | skip)
    | with_reducible exact Quiet.refl _
    | with_reducible assumption
    | simp -zeta only [↓ Quiet.make]
    | with_reducible refine Quiet.of ?_
    | with_reducible apply Quiet.ite
    | with_reducible apply bump_quiet
    | with_reducible apply submitDesc_quiet
    | with_reducible apply abortItems_quiet
    | with_reducible apply removeReady_quiet
    | split
    | (dsimp -zeta only)

theorem evtWrite_quiet {o₀ : Dev} (o : Nat) (val : Word) (d : Dev) (h₀ : Quiet o₀ d) : Quiet o₀ (evtWrite o val d) := by
  refine h₀.trans ?_
  unfold evtWrite
  repeat' first
    | (extract_lets +onlyGivenNames x; first | refine Quiet.cut (x := x) ?_ (fun hx => ?_) <;> [(clear_value (hv : x = _); rw [hv]); clear_value x] | clear_value x | skip)
    | with_reducible exact Quiet.refl _
    | with_reducible assumption
    | simp -zeta only [↓ Quiet.make]
    | with_reducible refine Quiet.of ?_
    | with_reducible apply liveSetB_quiet
    | with_reducible apply raiseEvt_quiet
    | split

theorem lcsWrite_sound {o₀ : Dev} (path : LcsPath) (o : Nat) (val : Word) (d : Dev) (h₀ : Sound o₀ d) : Sound o₀ (lcsWrite path o val d) := by
  refine h₀.trans ?_
  unfold lcsWrite
  repeat' first
    | (extract_lets +onlyGivenNames x; first | refine Sound.cut (x := x) ?_ (fun hx => ?_) <;> [(clear_value (hv : x = _); rw [hv]); clear_value x] | clear_value x | skip)
    | with_reducible exact Sound.refl _
    | with_reducible assumption
    | simp -zeta only [↓ Sound.make]
    | with_reducible refine Sound.of ?_
    | with_reducible apply Sound.ite
    | with_reducible apply Sound.transQuiet (k := liveSet_quiet (h₀ := .refl _) ..)
    | with_reducible apply Sound.transQuiet (k := lcsResult_quiet (h₀ := .refl _) ..)
    | with_reducible apply lcsRequest_sound
    | with_reducible apply Sound.transQuiet (k := fuseProgram_quiet (h₀ := .refl _) ..)
    | with_reducible apply Sound.transQuiet (k := fuseRevoke_quiet (h₀ := .refl _) ..)
    | split

theorem writeAction_sound {o₀ : Dev} (path : LcsPath) (off : Nat) (val : Word) (refused : Bool) (d : Dev) (h₀ : Sound o₀ d) : Sound o₀ (writeAction path off val refused d) := by
  refine h₀.trans ?_
  unfold writeAction
  repeat' first
    | (extract_lets +onlyGivenNames x; first | refine Sound.cut (x := x) ?_ (fun hx => ?_) <;> [(clear_value (hv : x = _); rw [hv]); clear_value x] | clear_value x | skip)
    | with_reducible exact Sound.refl _
    | with_reducible assumption
    | with_reducible apply Sound.ite
    | with_reducible apply Sound.transQuiet (k := commitAtHiWrite_quiet (h₀ := .refl _) ..)
    | with_reducible apply Sound.transQuiet (k := commitNextWrite_quiet (h₀ := .refl _) ..)
    | with_reducible apply Sound.transQuiet (k := commitCancelWrite_quiet (h₀ := .refl _) ..)
    | with_reducible apply Sound.transQuiet (k := snapHoldWrite_quiet (h₀ := .refl _) ..)
    | with_reducible apply Sound.transQuiet (k := rearm_quiet (h₀ := .refl _) ..)
    | with_reducible apply Sound.transQuiet (k := memInit_quiet (h₀ := .refl _) ..)
    | with_reducible apply Sound.transQuiet (k := servoAccept_quiet (h₀ := .refl _) ..)
    | with_reducible apply Sound.transQuiet (k := relockWrite_quiet (h₀ := .refl _) ..)
    | with_reducible apply Sound.transQuiet (k := moonReqWrite_quiet (h₀ := .refl _) ..)
    | with_reducible apply bootTrained_sound
    | with_reducible apply Sound.transQuiet (k := confirmGo_quiet (h₀ := .refl _) ..)
    | with_reducible apply reloadGo_sound
    | with_reducible apply Sound.transQuiet (k := reloadAbandon_quiet (h₀ := .refl _) ..)
    | with_reducible apply Sound.transQuiet (k := perfWrite_quiet (h₀ := .refl _) ..)
    | with_reducible apply Sound.transQuiet (k := wdWrite_quiet (h₀ := .refl _) ..)
    | with_reducible apply Sound.transQuiet (k := evtWrite_quiet (h₀ := .refl _) ..)
    | with_reducible apply lcsWrite_sound
    | split

theorem superWrite_sound {o₀ : Dev} (path : LcsPath) (off : Nat) (val : Word) (d : Dev) (h₀ : Sound o₀ d) : Sound o₀ (superWrite path off val d).1 := by
  refine h₀.trans ?_
  unfold superWrite
  repeat' first
    | (extract_lets +onlyGivenNames x; first | refine Sound.cut (x := x) ?_ (fun hx => ?_) <;> [(clear_value (hv : x = _); rw [hv]); clear_value x] | refine Sound.cut (x := x.1) ?_ (fun hx => ?_) <;> [(clear_value (hv : x = _); rw [hv]); clear_value x] | clear_value x | skip)
    | with_reducible exact Sound.refl _
    | with_reducible assumption
    | with_reducible apply Sound.ite
    | with_reducible apply regStore_sound
    | with_reducible apply writeAction_sound
    | split
    | (dsimp -zeta only)

theorem remapSet_quiet {o₀ : Dev} (d : Dev) (h₀ : Quiet o₀ d) : Quiet o₀ (remapSet d) := by
  refine h₀.trans ?_
  unfold remapSet
  repeat' first
    | with_reducible exact Quiet.refl _
    | with_reducible assumption
    | with_reducible apply Quiet.ite
    | with_reducible apply liveSetB_quiet
    | split

end Sys2Proof.Machine
end

