-- ==== Sys2Proof/Laws/QuietXbar.lean ====
section
/-!
SUPPORT. Sys2Proof/Laws/QuietXbar.lean: for each operation of Machine/Xbar.lean, that it is `Quiet` (or only `Sound`).
-/
set_option linter.all false
namespace Sys2Proof.Machine

theorem xbarCounts_quiet {o₀ : Dev} (m : Nat) (d : Dev) (h₀ : Quiet o₀ d) : Quiet o₀ (xbarCounts m d) := by
  refine h₀.trans ?_
  unfold xbarCounts
  repeat' first
    | (extract_lets +onlyGivenNames x; first | refine Quiet.cut (x := x) ?_ (fun hx => ?_) <;> [(clear_value (hv : x = _); rw [hv]); clear_value x] | clear_value x | skip)
    | with_reducible exact Quiet.refl _
    | with_reducible assumption
    | with_reducible apply Quiet.ite
    | with_reducible refine Quiet.foldl (fun d x => ?_) ?_
    | with_reducible refine Quiet.foldlFst (fun d x => ?_) ?_
    | with_reducible apply liveSetF_quiet
    | with_reducible apply liveSetB_quiet
    | with_reducible apply liveMax_quiet
    | split
    | (dsimp -zeta only)

theorem grant_quiet {o₀ : Dev} (r : XbarReq) (d : Dev) (h₀ : Quiet o₀ d) : Quiet o₀ (grant r d) := by
  refine h₀.trans ?_
  unfold grant
  repeat' first
    | (extract_lets +onlyGivenNames x; first | refine Quiet.cut (x := x) ?_ (fun hx => ?_) <;> [(clear_value (hv : x = _); rw [hv]); clear_value x] | clear_value x | skip)
    | with_reducible exact Quiet.refl _
    | with_reducible assumption
    | simp -zeta only [↓ Quiet.make]
    | with_reducible refine Quiet.of ?_
    | with_reducible apply Quiet.ite
    | with_reducible apply xbarCounts_quiet
    | split
    | (dsimp -zeta only)

theorem grantAll_quiet {o₀ : Dev} (fuel : Nat) (d : Dev) (h₀ : Quiet o₀ d) : Quiet o₀ (grantAll fuel d) := by
  refine h₀.trans ?_
  induction fuel generalizing d o₀ with
  | zero => exact .refl _
  | succ n ih =>
    rw [grantAll]
    split
    · exact .refl _
    · exact (grant_quiet _ _ (.refl _)).trans (ih _ (.refl _))

theorem countHolds_quiet {o₀ : Dev} (d : Dev) (h₀ : Quiet o₀ d) : Quiet o₀ (countHolds d) := by
  refine h₀.trans ?_
  unfold countHolds
  repeat' first
    | (extract_lets +onlyGivenNames x; first | refine Quiet.cut (x := x) ?_ (fun hx => ?_) <;> [(clear_value (hv : x = _); rw [hv]); clear_value x] | clear_value x | skip)
    | with_reducible exact Quiet.refl _
    | with_reducible assumption
    | simp -zeta only [↓ Quiet.make]
    | with_reducible refine Quiet.of ?_
    | with_reducible apply Quiet.ite
    | with_reducible refine Quiet.foldl (fun d x => ?_) ?_
    | with_reducible refine Quiet.foldlFst (fun d x => ?_) ?_
    | with_reducible apply bump_quiet
    | split
    | (dsimp -zeta only)

theorem xbarGrants_quiet {o₀ : Dev} (d : Dev) (h₀ : Quiet o₀ d) : Quiet o₀ (xbarGrants d) := by
  refine h₀.trans ?_
  unfold xbarGrants
  repeat' first
    | with_reducible exact Quiet.refl _
    | with_reducible assumption
    | with_reducible apply grantAll_quiet
    | with_reducible apply countHolds_quiet

theorem xbarGrant_quiet {o₀ : Dev} (r : XbarReq) (d : Dev) (h₀ : Quiet o₀ d) : Quiet o₀ (xbarGrant r d) := by
  refine h₀.trans ?_
  unfold xbarGrant
  repeat' first
    | (extract_lets +onlyGivenNames x; first | refine Quiet.cut (x := x) ?_ (fun hx => ?_) <;> [(clear_value (hv : x = _); rw [hv]); clear_value x] | clear_value x | skip)
    | with_reducible exact Quiet.refl _
    | with_reducible assumption
    | simp -zeta only [↓ Quiet.make]
    | with_reducible refine Quiet.of ?_
    | with_reducible apply Quiet.ite
    | with_reducible apply bump_quiet
    | with_reducible apply xbarGrants_quiet
    | split
    | (dsimp -zeta only)

theorem clusterPut_quiet {o₀ : Dev} (d : Dev) (o : Nat) (b : Byte) (h₀ : Quiet o₀ d) : Quiet o₀ (clusterPut d o b) := by
  refine h₀.trans ?_
  unfold clusterPut
  repeat' first
    | (extract_lets +onlyGivenNames x; first | refine Quiet.cut (x := x) ?_ (fun hx => ?_) <;> [(clear_value (hv : x = _); rw [hv]); clear_value x] | (have e : Mem := x; clear e) | (have e : _ → _ := x; clear e; clear_value (hv : x = _); subst hv; beta_reduce) | clear_value x | skip)
    | with_reducible exact Quiet.refl _
    | with_reducible assumption
    | simp -zeta only [↓ Quiet.make]
    | with_reducible refine Quiet.of ?_
    | with_reducible apply Quiet.ite
    | with_reducible apply setCore_quiet
    | split
    | (dsimp -zeta only)

theorem mem0Put_sound {o₀ : Dev} (d : Dev) (o : Nat) (b : Byte) (h₀ : Sound o₀ d) : Sound o₀ (mem0Put d o b) := by
  refine h₀.trans ?_
  unfold mem0Put
  split
  · extract_lets n p blk w xs line
    simp -zeta only [↓ Sound.make]
    exact Sound.of (.refl _)
  · split
    · exact ⟨fun h => ⟨h.live, h.shadow, h.act, h.snap, { h.mem with rcRegion := keysRise_put _ _ h.mem.rcRegion }, h.epoch, h.period⟩⟩
    · exact ⟨fun h => ⟨h.live, h.shadow, h.act, h.snap, { h.mem with mem0 := mapWf_mapSetRun _ _ _ h.mem.mem0 }, h.epoch, h.period⟩⟩

theorem renderPut_sound {o₀ : Dev} (d : Dev) (o : Nat) (b : Byte) (h₀ : Sound o₀ d) : Sound o₀ (renderPut d o b) := by
  refine h₀.trans ?_
  unfold renderPut
  extract_lets t p
  split
  · exact ⟨fun h => ⟨h.live, h.shadow, h.act, h.snap, { h.mem with standby := mapWf_mapSet _ _ _ h.mem.standby }, h.epoch, h.period⟩⟩
  · exact ⟨fun h => ⟨h.live, h.shadow, h.act, h.snap, { h.mem with render := mapWf_mapSetRun _ _ _ h.mem.render }, h.epoch, h.period⟩⟩

theorem sramPut_sound {o₀ : Dev} (d : Dev) (o : Nat) (b : Byte) (h₀ : Sound o₀ d) : Sound o₀ (sramPut d o b) := by
  refine h₀.trans ?_
  unfold sramPut
  split
  · exact .refl _
  · exact ⟨fun h => ⟨h.live, h.shadow, h.act, h.snap, { h.mem with sram := mapWf_mapSetRun _ _ _ h.mem.sram }, h.epoch, h.period⟩⟩

theorem targetWrite_sound {o₀ : Dev} (t o : Nat) (bs : List Byte) (d : Dev) (h₀ : Sound o₀ d) : Sound o₀ (targetWrite t o bs d) := by
  refine h₀.trans ?_
  unfold targetWrite
  split
  · exact Sound.foldl (fun d i => sramPut_sound _ _ _ (.refl _)) (.refl _)
  · exact Sound.foldl (fun d i => superWrite_sound _ _ _ _ (.refl _)) (.refl _)
  · exact (Quiet.foldl (fun d i => clusterPut_quiet _ _ _ (.refl _)) (.refl _)).sound
  · exact Sound.foldl (fun d i => renderPut_sound _ _ _ (.refl _)) (.refl _)
  · exact Sound.foldl (fun d i => mem0Put_sound _ _ _ (.refl _)) (.refl _)
  · exact Sound.foldl (fun d i => mem1Put_sound _ _ _ (.refl _)) (.refl _)
  · exact .refl _

theorem renderSwap_sound {o₀ : Dev} (d : Dev) (h₀ : Sound o₀ d) : Sound o₀ (renderSwap d) := by
  refine h₀.trans ⟨fun h => ⟨h.live, h.shadow, h.act, h.snap, { h.mem with active := h.mem.standby, standby := h.mem.active, render := ?_ }, h.epoch, h.period⟩⟩
  have hr := (mapWf_iff _ _).mp h.mem.render
  refine (mapWf_iff _ _).mpr ⟨List.pairwise_append.mpr ⟨?_, ?_, ?_⟩, ?_⟩
  · refine List.pairwise_map.mpr (List.Pairwise.imp_of_mem ?_ (hr.1.filter _))
    intro a b ha hb hab
    have h1 := (List.mem_filter.mp ha).2
    have h2 := (List.mem_filter.mp hb).2
    simp only [decide_eq_true_eq] at h1 h2
    simp only
    omega
  · refine List.pairwise_map.mpr ((hr.1.filter _).imp ?_)
    intro a b hab
    simp only
    omega
  · intro a ha b hb
    obtain ⟨x, hx, rfl⟩ := List.mem_map.mp ha
    obtain ⟨y, hy, rfl⟩ := List.mem_map.mp hb
    have h1 := (List.mem_filter.mp hx).2
    simp only [decide_eq_true_eq] at h1
    simp only
    omega
  · intro p hp
    rcases List.mem_append.mp hp with hp | hp
    · obtain ⟨a, ha, rfl⟩ := List.mem_map.mp hp
      exact hr.2 a (List.mem_filter.mp ha).1
    · obtain ⟨a, ha, rfl⟩ := List.mem_map.mp hp
      exact hr.2 a (List.mem_filter.mp ha).1

theorem deliverFirst_quiet {o₀ : Dev} (d : Dev) (core : Nat) (h₀ : Quiet o₀ d) : Quiet o₀ (deliverFirst d core) := by
  refine h₀.trans ?_
  unfold deliverFirst
  repeat' first
    | (extract_lets +onlyGivenNames x; first | refine Quiet.cut (x := x) ?_ (fun hx => ?_) <;> [(clear_value (hv : x = _); rw [hv]); clear_value x] | clear_value x | skip)
    | with_reducible exact Quiet.refl _
    | with_reducible assumption
    | simp -zeta only [↓ Quiet.make]
    | with_reducible refine Quiet.of ?_
    | with_reducible apply Quiet.ite
    | with_reducible apply deliver_quiet
    | split

theorem errorOutcome_quiet {o₀ : Dev} (tx : XbarTx) (traffic : XTraffic) (d : Dev) (h₀ : Quiet o₀ d) : Quiet o₀ (errorOutcome tx traffic d) := by
  refine h₀.trans ?_
  unfold errorOutcome
  repeat' first
    | (extract_lets +onlyGivenNames x; first | refine Quiet.cut (x := x) ?_ (fun hx => ?_) <;> [(clear_value (hv : x = _); rw [hv]); clear_value x] | clear_value x | skip)
    | with_reducible exact Quiet.refl _
    | with_reducible assumption
    | simp -zeta only [↓ Quiet.make]
    | with_reducible refine Quiet.of ?_
    | with_reducible apply Quiet.ite
    | with_reducible apply raiseErr_quiet
    | with_reducible apply tailFailed_quiet
    | with_reducible apply setCore_quiet
    | with_reducible apply endItem_quiet
    | with_reducible apply vecFault_quiet
    | with_reducible apply bulkLost_quiet
    | with_reducible apply refuseSection_quiet
    | with_reducible apply captureError_quiet
    | with_reducible apply reloadRefuse_quiet
    | with_reducible apply deliverFirst_quiet
    | split

theorem okOutcome_sound {o₀ : Dev} (tx : XbarTx) (d : Dev) (h₀ : Sound o₀ d) : Sound o₀ (okOutcome tx d).1 := by
  refine h₀.trans ?_
  unfold okOutcome
  repeat' first
    | (extract_lets +onlyGivenNames x; first | refine Sound.cut (x := x) ?_ (fun hx => ?_) <;> [(clear_value (hv : x = _); rw [hv]); clear_value x] | clear_value x | skip)
    | with_reducible exact Sound.refl _
    | with_reducible assumption
    | simp -zeta only [↓ Sound.make]
    | with_reducible refine Sound.of ?_
    | with_reducible apply Sound.ite
    | with_reducible apply targetWrite_sound
    | split

theorem xbarResponse_sound {o₀ : Dev} (master id : Nat) (resp : XResp) (traffic : XTraffic) (d : Dev) (h₀ : Sound o₀ d) : Sound o₀ (xbarResponse master id resp traffic d) := by
  refine h₀.trans ?_
  unfold xbarResponse
  repeat' first
    | (extract_lets +onlyGivenNames x; first | refine Sound.cut (x := x) ?_ (fun hx => ?_) <;> [(clear_value (hv : x = _); rw [hv]); clear_value x] | refine Sound.cut (x := x.1) ?_ (fun hx => ?_) <;> [(clear_value (hv : x = _); rw [hv]); clear_value x] | clear_value x | skip)
    | with_reducible exact Sound.refl _
    | with_reducible assumption
    | simp -zeta only [↓ Sound.make]
    | with_reducible refine Sound.of ?_
    | with_reducible apply Sound.ite
    | with_reducible apply Sound.transQuiet (k := countError_quiet (h₀ := .refl _) ..)
    | with_reducible apply Sound.transQuiet (k := xbarCounts_quiet (h₀ := .refl _) ..)
    | with_reducible apply Sound.transQuiet (k := xbarGrants_quiet (h₀ := .refl _) ..)
    | with_reducible apply Sound.transQuiet (k := errorOutcome_quiet (h₀ := .refl _) ..)
    | with_reducible apply okOutcome_sound
    | split
    | (dsimp -zeta only)

theorem masterReset_quiet {o₀ : Dev} (m : Nat) (d : Dev) (h₀ : Quiet o₀ d) : Quiet o₀ (masterReset m d) := by
  refine h₀.trans ?_
  unfold masterReset
  repeat' first
    | (extract_lets +onlyGivenNames x; first | refine Quiet.cut (x := x) ?_ (fun hx => ?_) <;> [(clear_value (hv : x = _); rw [hv]); clear_value x] | clear_value x | skip)
    | with_reducible exact Quiet.refl _
    | with_reducible assumption
    | simp -zeta only [↓ Quiet.make]
    | with_reducible refine Quiet.of ?_
    | with_reducible apply Quiet.ite
    | split
    | (dsimp -zeta only)

end Sys2Proof.Machine
end

