-- ==== Sys2Proof/Laws/QuietMgmt.lean ====
section
/-!
SUPPORT. Sys2Proof/Laws/QuietMgmt.lean: for each operation of Machine/Mgmt.lean, that it is `Quiet` (or only `Sound`).
-/
set_option linter.all false
namespace Sys2Proof.Machine

theorem setMgmt_quiet {o₀ : Dev} (d : Dev) (m : Mgmt) (h₀ : Quiet o₀ d) : Quiet o₀ (setMgmt d m) := by
  refine h₀.trans ?_
  unfold setMgmt
  repeat' first
    | (extract_lets +onlyGivenNames x; first | refine Quiet.cut (x := x) ?_ (fun hx => ?_) <;> [(clear_value (hv : x = _); rw [hv]); clear_value x] | clear_value x | skip)
    | with_reducible exact Quiet.refl _
    | with_reducible assumption
    | simp -zeta only [↓ Quiet.make]
    | with_reducible refine Quiet.of ?_

theorem mdpCount_quiet {o₀ : Dev} (k : Nat) (d : Dev) (h₀ : Quiet o₀ d) : Quiet o₀ (mdpCount k d) := by
  refine h₀.trans ?_
  unfold mdpCount
  repeat' first
    | with_reducible exact Quiet.refl _
    | with_reducible assumption
    | with_reducible apply bump_quiet

theorem mgtSent_quiet {o₀ : Dev} (d : Dev) (h₀ : Quiet o₀ d) : Quiet o₀ (mgtSent d) := by
  refine h₀.trans ?_
  unfold mgtSent
  repeat' first
    | with_reducible exact Quiet.refl _
    | with_reducible assumption
    | with_reducible apply bump_quiet
    | with_reducible apply perfHit_quiet

theorem sendDatagram_quiet {o₀ : Dev} (port dst : Nat) (b : List Byte) (d : Dev) (h₀ : Quiet o₀ d) : Quiet o₀ (sendDatagram port dst b d) := by
  refine h₀.trans ?_
  unfold sendDatagram
  repeat' first
    | (extract_lets +onlyGivenNames x; first | refine Quiet.cut (x := x) ?_ (fun hx => ?_) <;> [(clear_value (hv : x = _); rw [hv]); clear_value x] | clear_value x | skip)
    | with_reducible exact Quiet.refl _
    | with_reducible assumption
    | simp -zeta only [↓ Quiet.make]
    | with_reducible refine Quiet.of ?_
    | with_reducible apply Quiet.ite
    | with_reducible apply enqueueTx_quiet
    | with_reducible apply setMgmt_quiet
    | with_reducible apply mgtSent_quiet
    | split

theorem helloIn_quiet {o₀ : Dev} (port src : Nat) (b : List Byte) (d : Dev) (h₀ : Quiet o₀ d) : Quiet o₀ (helloIn port src b d) := by
  refine h₀.trans ?_
  unfold helloIn
  repeat' first
    | (extract_lets +onlyGivenNames x; first | refine Quiet.cut (x := x) ?_ (fun hx => ?_) <;> [(clear_value (hv : x = _); rw [hv]); clear_value x] | (have e : _ → _ := x; clear e; clear_value (hv : x = _); subst hv; beta_reduce) | clear_value x | skip)
    | with_reducible exact Quiet.refl _
    | with_reducible assumption
    | simp -zeta only [↓ Quiet.make]
    | with_reducible refine Quiet.of ?_
    | with_reducible apply Quiet.ite
    | with_reducible apply setMgmt_quiet
    | with_reducible apply mdpCount_quiet
    | with_reducible apply sendDatagram_quiet
    | split
    | (dsimp -zeta only)

theorem setSession_quiet {o₀ : Dev} (d : Dev) (s : Session) (h₀ : Quiet o₀ d) : Quiet o₀ (setSession d s) := by
  refine h₀.trans ?_
  unfold setSession
  repeat' first
    | (extract_lets +onlyGivenNames x; first | refine Quiet.cut (x := x) ?_ (fun hx => ?_) <;> [(clear_value (hv : x = _); rw [hv]); clear_value x] | clear_value x | skip)
    | with_reducible exact Quiet.refl _
    | with_reducible assumption
    | simp -zeta only [↓ Quiet.make]
    | with_reducible refine Quiet.of ?_
    | with_reducible apply Quiet.ite
    | with_reducible apply setMgmt_quiet
    | split
    | (dsimp -zeta only)

theorem closeSession_quiet {o₀ : Dev} (d : Dev) (id : Nat) (h₀ : Quiet o₀ d) : Quiet o₀ (closeSession d id) := by
  refine h₀.trans ?_
  unfold closeSession
  repeat' first
    | (extract_lets +onlyGivenNames x; first | refine Quiet.cut (x := x) ?_ (fun hx => ?_) <;> [(clear_value (hv : x = _); rw [hv]); clear_value x] | clear_value x | skip)
    | with_reducible exact Quiet.refl _
    | with_reducible assumption
    | simp -zeta only [↓ Quiet.make]
    | with_reducible refine Quiet.of ?_
    | with_reducible apply setMgmt_quiet
    | (dsimp -zeta only)

theorem answer_quiet {o₀ : Dev} (r : MgmtReq) (d : Dev) (h₀ : Quiet o₀ d) : Quiet o₀ (answer r d) := by
  refine h₀.trans ?_
  unfold answer
  repeat' first
    | (extract_lets +onlyGivenNames x; first | refine Quiet.cut (x := x) ?_ (fun hx => ?_) <;> [(clear_value (hv : x = _); rw [hv]); clear_value x] | clear_value x | skip)
    | with_reducible exact Quiet.refl _
    | with_reducible assumption
    | simp -zeta only [↓ Quiet.make]
    | with_reducible refine Quiet.of ?_
    | with_reducible apply Quiet.ite
    | with_reducible apply setMgmt_quiet
    | with_reducible apply mdpCount_quiet
    | with_reducible apply sendDatagram_quiet
    | with_reducible apply setSession_quiet
    | with_reducible apply closeSession_quiet
    | split
    | (dsimp -zeta only)

theorem settleQueue_quiet {o₀ : Dev} (fuel : Nat) (d : Dev) (h₀ : Quiet o₀ d) : Quiet o₀ (settleQueue fuel d) := by
  refine h₀.trans ?_
  induction fuel generalizing d o₀ with
  | zero => exact .refl _
  | succ n ih =>
    rw [settleQueue]
    split
    · exact .refl _
    · split
      · exact (answer_quiet _ _ (setMgmt_quiet _ _ (.refl _))).trans (ih _ (.refl _))
      · extract_lets st
        split
        · exact .refl _
        · exact (setMgmt_quiet _ _ (.refl _)).trans (ih _ (.refl _))

theorem goOn_quiet {o₀ : Dev} (d : Dev) (h₀ : Quiet o₀ d) : Quiet o₀ (goOn d) := by
  refine h₀.trans ?_
  unfold goOn
  repeat' first
    | with_reducible exact Quiet.refl _
    | with_reducible assumption
    | with_reducible apply settleQueue_quiet

theorem enqueueReq_quiet {o₀ : Dev} (port src session seq perms : Nat) (body : List Byte) (d : Dev) (h₀ : Quiet o₀ d) : Quiet o₀ (enqueueReq port src session seq perms body d) := by
  refine h₀.trans ?_
  unfold enqueueReq
  repeat' first
    | (extract_lets +onlyGivenNames x; first | refine Quiet.cut (x := x) ?_ (fun hx => ?_) <;> [(clear_value (hv : x = _); rw [hv]); clear_value x] | clear_value x | skip)
    | with_reducible exact Quiet.refl _
    | with_reducible assumption
    | simp -zeta only [↓ Quiet.make]
    | with_reducible refine Quiet.of ?_
    | with_reducible apply Quiet.ite
    | with_reducible apply setMgmt_quiet
    | with_reducible apply goOn_quiet
    | split
    | (dsimp -zeta only)

theorem requestIn_quiet {o₀ : Dev} (port src : Nat) (b : List Byte) (d : Dev) (h₀ : Quiet o₀ d) : Quiet o₀ (requestIn port src b d) := by
  refine h₀.trans ?_
  unfold requestIn
  repeat' first
    | (extract_lets +onlyGivenNames x; first | refine Quiet.cut (x := x) ?_ (fun hx => ?_) <;> [(clear_value (hv : x = _); rw [hv]); clear_value x] | clear_value x | skip)
    | with_reducible exact Quiet.refl _
    | with_reducible assumption
    | simp -zeta only [↓ Quiet.make]
    | with_reducible refine Quiet.of ?_
    | with_reducible apply Quiet.ite
    | with_reducible apply mdpCount_quiet
    | with_reducible apply sendDatagram_quiet
    | with_reducible apply setSession_quiet
    | with_reducible apply closeSession_quiet
    | with_reducible apply enqueueReq_quiet
    | split
    | (dsimp -zeta only)

theorem takeDatagram_quiet {o₀ : Dev} (port : Nat) (b : List Byte) (d : Dev) (h₀ : Quiet o₀ d) : Quiet o₀ (takeDatagram port b d) := by
  refine h₀.trans ?_
  unfold takeDatagram
  repeat' first
    | (extract_lets +onlyGivenNames x; first | refine Quiet.cut (x := x) ?_ (fun hx => ?_) <;> [(clear_value (hv : x = _); rw [hv]); clear_value x] | clear_value x | skip)
    | with_reducible exact Quiet.refl _
    | with_reducible assumption
    | simp -zeta only [↓ Quiet.make]
    | with_reducible refine Quiet.of ?_
    | with_reducible apply Quiet.ite
    | with_reducible apply setPlane_quiet
    | split

theorem datagramIn_quiet {o₀ : Dev} (kind port src : Nat) (b : List Byte) (d : Dev) (h₀ : Quiet o₀ d) : Quiet o₀ (datagramIn kind port src b d) := by
  refine h₀.trans ?_
  unfold datagramIn
  repeat' first
    | with_reducible exact Quiet.refl _
    | with_reducible assumption
    | with_reducible apply Quiet.ite
    | with_reducible apply mdpCount_quiet
    | with_reducible apply helloIn_quiet
    | with_reducible apply requestIn_quiet
    | split

theorem endFront_quiet {o₀ : Dev} (st : Nat) (data : List Byte) (d : Dev) (h₀ : Quiet o₀ d) : Quiet o₀ (endFront st data d) := by
  refine h₀.trans ?_
  unfold endFront
  repeat' first
    | (extract_lets +onlyGivenNames x; first | refine Quiet.cut (x := x) ?_ (fun hx => ?_) <;> [(clear_value (hv : x = _); rw [hv]); clear_value x] | clear_value x | skip)
    | with_reducible exact Quiet.refl _
    | with_reducible assumption
    | simp -zeta only [↓ Quiet.make]
    | with_reducible refine Quiet.of ?_
    | with_reducible apply setMgmt_quiet
    | with_reducible apply goOn_quiet
    | split

theorem frontWaits_quiet {o₀ : Dev} (w : MgmtWait) (d : Dev) (h₀ : Quiet o₀ d) : Quiet o₀ (frontWaits w d) := by
  refine h₀.trans ?_
  unfold frontWaits
  repeat' first
    | (extract_lets +onlyGivenNames x; first | refine Quiet.cut (x := x) ?_ (fun hx => ?_) <;> [(clear_value (hv : x = _); rw [hv]); clear_value x] | clear_value x | skip)
    | with_reducible exact Quiet.refl _
    | with_reducible assumption
    | simp -zeta only [↓ Quiet.make]
    | with_reducible refine Quiet.of ?_
    | with_reducible apply setMgmt_quiet
    | split

theorem runFront_quiet {o₀ : Dev} (op : Nat) (p : List Byte → Bool) (f : Dev → Dev) (d : Dev) (hf : ∀ d, Quiet d (f d)) (h₀ : Quiet o₀ d) : Quiet o₀ (runFront op p f d) := by
  refine h₀.trans ?_
  unfold runFront
  exact Quiet.ite (hf d) (.refl _)

theorem readWords_quiet {o₀ : Dev} (off n : Nat) (d : Dev) (h₀ : Quiet o₀ d) : Quiet o₀ (readWords off n d) := by
  refine h₀.trans ?_
  unfold readWords
  repeat' first
    | with_reducible exact Quiet.refl _
    | with_reducible assumption
    | with_reducible apply endFront_quiet
    | (dsimp -zeta only)

theorem writeWords_sound {o₀ : Dev} (path : LcsPath) (off : Nat) (ws : List Word) (d : Dev) (h₀ : Sound o₀ d) : Sound o₀ (writeWords path off ws d).1 := by
  refine h₀.trans ?_
  unfold writeWords
  repeat' first
    | (extract_lets +onlyGivenNames x; first | refine Sound.cut (x := x) ?_ (fun hx => ?_) <;> [(clear_value (hv : x = _); rw [hv]); clear_value x] | refine Sound.cut (x := x.1) ?_ (fun hx => ?_) <;> [(clear_value (hv : x = _); rw [hv]); clear_value x] | clear_value x | skip)
    | with_reducible exact Sound.refl _
    | with_reducible assumption
    | with_reducible refine Sound.foldl (fun d x => ?_) ?_
    | with_reducible refine Sound.foldlFst (fun d x => ?_) ?_
    | with_reducible apply superWrite_sound
    | (dsimp -zeta only)

theorem writeCmdRun_sound {o₀ : Dev} (off : Nat) (ws : List Word) (d : Dev) (h₀ : Sound o₀ d) : Sound o₀ (writeCmdRun off ws d) := by
  refine h₀.trans ?_
  unfold writeCmdRun
  repeat' first
    | (extract_lets +onlyGivenNames x; first | refine Sound.cut (x := x) ?_ (fun hx => ?_) <;> [(clear_value (hv : x = _); rw [hv]); clear_value x] | refine Sound.cut (x := x.1) ?_ (fun hx => ?_) <;> [(clear_value (hv : x = _); rw [hv]); clear_value x] | clear_value x | skip)
    | with_reducible exact Sound.refl _
    | with_reducible assumption
    | with_reducible apply Sound.ite
    | with_reducible apply Sound.transQuiet (k := endFront_quiet (h₀ := .refl _) ..)
    | with_reducible apply writeWords_sound
    | split
    | (dsimp -zeta only)

theorem touchBank_quiet {o₀ : Dev} (d : Dev) (h₀ : Quiet o₀ d) : Quiet o₀ (touchBank d) := by
  refine h₀.trans ?_
  unfold touchBank
  repeat' first
    | (extract_lets +onlyGivenNames x; first | refine Quiet.cut (x := x) ?_ (fun hx => ?_) <;> [(clear_value (hv : x = _); rw [hv]); clear_value x] | clear_value x | skip)
    | with_reducible exact Quiet.refl _
    | with_reducible assumption
    | simp -zeta only [↓ Quiet.make]
    | with_reducible refine Quiet.of ?_
    | with_reducible apply Quiet.ite
    | with_reducible apply flashErase_quiet
    | split

theorem uploadStart_quiet {o₀ : Dev} (w : Dev → MgmtWait) (d : Dev) (h₀ : Quiet o₀ d) : Quiet o₀ (uploadStart w d) := by
  refine h₀.trans ?_
  unfold uploadStart
  repeat' first
    | (extract_lets +onlyGivenNames x; first | refine Quiet.cut (x := x) ?_ (fun hx => ?_) <;> [(clear_value (hv : x = _); rw [hv]); clear_value x] | clear_value x | skip)
    | with_reducible exact Quiet.refl _
    | with_reducible assumption
    | with_reducible apply Quiet.ite
    | with_reducible apply endFront_quiet
    | with_reducible apply frontWaits_quiet
    | with_reducible apply touchBank_quiet
    | split

theorem flashSpoil_quiet {o₀ : Dev} (d : Dev) (a n : Nat) (h₀ : Quiet o₀ d) : Quiet o₀ (flashSpoil d a n) := by
  refine h₀.trans ?_
  unfold flashSpoil
  repeat' first
    | (extract_lets +onlyGivenNames x; first | refine Quiet.cut (x := x) ?_ (fun hx => ?_) <;> [(clear_value (hv : x = _); rw [hv]); clear_value x] | clear_value x | skip)
    | with_reducible exact Quiet.refl _
    | with_reducible assumption
    | simp -zeta only [↓ Quiet.make]
    | with_reducible refine Quiet.of ?_
    | with_reducible refine Quiet.foldl (fun d x => ?_) ?_
    | with_reducible refine Quiet.foldlFst (fun d x => ?_) ?_
    | with_reducible apply setFlash_quiet
    | (dsimp -zeta only)

theorem flashDone_quiet {o₀ : Dev} (ok : Bool) (d : Dev) (h₀ : Quiet o₀ d) : Quiet o₀ (flashDone ok d) := by
  refine h₀.trans ?_
  unfold flashDone
  repeat' first
    | (extract_lets +onlyGivenNames x; first | refine Quiet.cut (x := x) ?_ (fun hx => ?_) <;> [(clear_value (hv : x = _); rw [hv]); clear_value x] | clear_value x | skip)
    | with_reducible exact Quiet.refl _
    | with_reducible assumption
    | simp -zeta only [↓ Quiet.make]
    | with_reducible refine Quiet.of ?_
    | with_reducible apply Quiet.ite
    | with_reducible apply flashProgram_quiet
    | with_reducible apply flashErase_quiet
    | with_reducible apply endFront_quiet
    | with_reducible apply flashSpoil_quiet
    | split

theorem reloadCmd_sound {o₀ : Dev} (d : Dev) (h₀ : Sound o₀ d) : Sound o₀ (reloadCmd d) := by
  refine h₀.trans ?_
  unfold reloadCmd
  repeat' first
    | (extract_lets +onlyGivenNames x; first | refine Sound.cut (x := x) ?_ (fun hx => ?_) <;> [(clear_value (hv : x = _); rw [hv]); clear_value x] | clear_value x | skip)
    | with_reducible exact Sound.refl _
    | with_reducible assumption
    | with_reducible apply Sound.ite
    | with_reducible apply reloadGo_sound
    | with_reducible apply Sound.transQuiet (k := endFront_quiet (h₀ := .refl _) ..)
    | split

theorem commitLatch_quiet {o₀ : Dev} (d : Dev) (h₀ : Quiet o₀ d) : Quiet o₀ (commitLatch d) := by
  refine h₀.trans ?_
  unfold commitLatch
  repeat' first
    | (extract_lets +onlyGivenNames x; first | refine Quiet.cut (x := x) ?_ (fun hx => ?_) <;> [(clear_value (hv : x = _); rw [hv]); clear_value x] | clear_value x | skip)
    | with_reducible exact Quiet.refl _
    | with_reducible assumption
    | simp -zeta only [↓ Quiet.make]
    | with_reducible refine Quiet.of ?_
    | with_reducible apply Quiet.ite
    | with_reducible apply setMgmt_quiet
    | split

theorem commitAnswer_quiet {o₀ : Dev} (d : Dev) (h₀ : Quiet o₀ d) : Quiet o₀ (commitAnswer d) := by
  refine h₀.trans ?_
  unfold commitAnswer
  repeat' first
    | (extract_lets +onlyGivenNames x; first | refine Quiet.cut (x := x) ?_ (fun hx => ?_) <;> [(clear_value (hv : x = _); rw [hv]); clear_value x] | clear_value x | skip)
    | with_reducible exact Quiet.refl _
    | with_reducible assumption
    | simp -zeta only [↓ Quiet.make]
    | with_reducible refine Quiet.of ?_
    | with_reducible apply endFront_quiet
    | split

theorem mgmtEpoch_quiet {o₀ : Dev} (d : Dev) (h₀ : Quiet o₀ d) : Quiet o₀ (mgmtEpoch d) := by
  refine h₀.trans ?_
  unfold mgmtEpoch
  repeat' first
    | (extract_lets +onlyGivenNames x; first | refine Quiet.cut (x := x) ?_ (fun hx => ?_) <;> [(clear_value (hv : x = _); rw [hv]); clear_value x] | clear_value x | skip)
    | with_reducible exact Quiet.refl _
    | with_reducible assumption
    | simp -zeta only [↓ Quiet.make]
    | with_reducible refine Quiet.of ?_
    | with_reducible apply Quiet.ite
    | with_reducible apply liveSetB_quiet
    | with_reducible apply setMgmt_quiet
    | split
    | (dsimp -zeta only)

theorem svcReport_quiet {o₀ : Dev} (d : Dev) (h₀ : Quiet o₀ d) : Quiet o₀ (svcReport d) := by
  refine h₀.trans ?_
  unfold svcReport
  repeat' first
    | with_reducible exact Quiet.refl _
    | with_reducible assumption
    | with_reducible apply Quiet.ite
    | with_reducible apply liveSetF_quiet
    | with_reducible apply liveSetB_quiet
    | split

theorem sessionTimeout_quiet {o₀ : Dev} (id : Nat) (d : Dev) (h₀ : Quiet o₀ d) : Quiet o₀ (sessionTimeout id d) := by
  refine h₀.trans ?_
  unfold sessionTimeout
  repeat' first
    | with_reducible exact Quiet.refl _
    | with_reducible assumption
    | with_reducible apply Quiet.ite
    | with_reducible apply closeSession_quiet
    | split
    | (dsimp -zeta only)

theorem spiFrame_quiet {o₀ : Dev} (err : Bool) (miso : List Byte) (d : Dev) (h₀ : Quiet o₀ d) : Quiet o₀ (spiFrame err miso d) := by
  refine h₀.trans ?_
  unfold spiFrame
  repeat' first
    | (extract_lets +onlyGivenNames x; first | refine Quiet.cut (x := x) ?_ (fun hx => ?_) <;> [(clear_value (hv : x = _); rw [hv]); clear_value x] | clear_value x | skip)
    | with_reducible exact Quiet.refl _
    | with_reducible assumption
    | simp -zeta only [↓ Quiet.make]
    | with_reducible refine Quiet.of ?_
    | with_reducible apply Quiet.ite
    | with_reducible apply bump_quiet
    | with_reducible apply setMgmt_quiet
    | split

theorem spiMalformed_quiet {o₀ : Dev} (zeros : Nat) (d : Dev) (h₀ : Quiet o₀ d) : Quiet o₀ (spiMalformed zeros d) := by
  refine h₀.trans ?_
  unfold spiMalformed
  repeat' first
    | with_reducible exact Quiet.refl _
    | with_reducible assumption
    | with_reducible apply Quiet.ite
    | with_reducible apply spiFrame_quiet
    | split

theorem spiRead_quiet {o₀ : Dev} (off n : Nat) (d : Dev) (h₀ : Quiet o₀ d) : Quiet o₀ (spiRead off n d) := by
  refine h₀.trans ?_
  unfold spiRead
  repeat' first
    | with_reducible exact Quiet.refl _
    | with_reducible assumption
    | with_reducible apply Quiet.ite
    | with_reducible apply spiFrame_quiet
    | split
    | (dsimp -zeta only)

theorem spiWrite_sound {o₀ : Dev} (off : Nat) (bs : List Byte) (d : Dev) (h₀ : Sound o₀ d) : Sound o₀ (spiWrite off bs d) := by
  refine h₀.trans ?_
  unfold spiWrite
  repeat' first
    | (extract_lets +onlyGivenNames x; first | refine Sound.cut (x := x) ?_ (fun hx => ?_) <;> [(clear_value (hv : x = _); rw [hv]); clear_value x] | refine Sound.cut (x := x.1) ?_ (fun hx => ?_) <;> [(clear_value (hv : x = _); rw [hv]); clear_value x] | clear_value x | skip)
    | with_reducible exact Sound.refl _
    | with_reducible assumption
    | with_reducible apply Sound.ite
    | with_reducible apply writeWords_sound
    | with_reducible apply Sound.transQuiet (k := spiFrame_quiet (h₀ := .refl _) ..)
    | split
    | (dsimp -zeta only)

theorem mboxPut_quiet {o₀ : Dev} (len : Nat) (body : List Byte) (d : Dev) (h₀ : Quiet o₀ d) : Quiet o₀ (mboxPut len body d) := by
  refine h₀.trans ?_
  unfold mboxPut
  repeat' first
    | (extract_lets +onlyGivenNames x; first | refine Quiet.cut (x := x) ?_ (fun hx => ?_) <;> [(clear_value (hv : x = _); rw [hv]); clear_value x] | clear_value x | skip)
    | with_reducible exact Quiet.refl _
    | with_reducible assumption
    | with_reducible apply Quiet.ite
    | with_reducible apply bump_quiet
    | with_reducible apply enqueueReq_quiet
    | with_reducible apply spiFrame_quiet
    | split

theorem mboxGet_quiet {o₀ : Dev} (n : Nat) (d : Dev) (h₀ : Quiet o₀ d) : Quiet o₀ (mboxGet n d) := by
  refine h₀.trans ?_
  unfold mboxGet
  repeat' first
    | (extract_lets +onlyGivenNames x; first | refine Quiet.cut (x := x) ?_ (fun hx => ?_) <;> [(clear_value (hv : x = _); rw [hv]); clear_value x] | clear_value x | skip)
    | with_reducible exact Quiet.refl _
    | with_reducible assumption
    | simp -zeta only [↓ Quiet.make]
    | with_reducible refine Quiet.of ?_
    | with_reducible apply Quiet.ite
    | with_reducible apply setMgmt_quiet
    | with_reducible apply spiFrame_quiet
    | split

theorem spiBoot_sound {o₀ : Dev} (d : Dev) (h₀ : Sound o₀ d) : Sound o₀ (spiBoot d) := by
  refine h₀.trans ?_
  unfold spiBoot
  repeat' first
    | (extract_lets +onlyGivenNames x; first | refine Sound.cut (x := x) ?_ (fun hx => ?_) <;> [(clear_value (hv : x = _); rw [hv]); clear_value x] | clear_value x | skip)
    | with_reducible exact Sound.refl _
    | with_reducible assumption
    | simp -zeta only [↓ Sound.make]
    | with_reducible refine Sound.of ?_
    | with_reducible apply Sound.ite
    | with_reducible apply Sound.transQuiet (k := noImage_quiet (h₀ := .refl _) ..)
    | with_reducible apply reboot_sound
    | with_reducible apply Sound.transQuiet (k := setMgmt_quiet (h₀ := .refl _) ..)
    | with_reducible apply Sound.transQuiet (k := spiFrame_quiet (h₀ := .refl _) ..)
    | split

theorem wholeOr_sound {o₀ : Dev} (size : Nat) (cut : Option Nat) (whole : Dev → Dev) (d : Dev) (hwhole : ∀ d, Sound d (whole d))
    (h₀ : Sound o₀ d) : Sound o₀ (wholeOr size cut whole d) := by
  refine h₀.trans ?_
  unfold wholeOr
  split
  · exact hwhole _
  · exact (spiMalformed_quiet _ _ (.refl _)).sound

theorem wholeOr_quiet {o₀ : Dev} (size : Nat) (cut : Option Nat) (whole : Dev → Dev) (d : Dev) (hwhole : ∀ d, Quiet d (whole d)) (h₀ : Quiet o₀ d) : Quiet o₀ (wholeOr size cut whole d) := by
  refine h₀.trans ?_
  unfold wholeOr
  split
  · exact hwhole _
  · exact spiMalformed_quiet _ _ (.refl _)

end Sys2Proof.Machine
end

