-- ==== Sys2Proof/Laws/QuietMedia.lean ====
section
/-!
SUPPORT. Sys2Proof/Laws/QuietMedia.lean: for each operation of Machine/Media.lean, that it is `Quiet` (or only `Sound`).
-/
set_option linter.all false
namespace Sys2Proof.Machine

theorem streamLoad_quiet {o₀ : Dev} (x s : Nat) (load : UdpLoad) (d : Dev) (h₀ : Quiet o₀ d) : Quiet o₀ (streamLoad x s load d) := by
  refine h₀.trans ?_
  unfold streamLoad
  repeat' first
    | (extract_lets +onlyGivenNames x; first | refine Quiet.cut (x := x) ?_ (fun hx => ?_) <;> [(clear_value (hv : x = _); rw [hv]); clear_value x] | clear_value x | skip)
    | with_reducible exact Quiet.refl _
    | with_reducible assumption
    | simp -zeta only [↓ Quiet.make]
    | with_reducible refine Quiet.of ?_
    | with_reducible apply bump_quiet
    | with_reducible apply audioPlace_quiet
    | with_reducible apply metaPacket_quiet
    | split

theorem toSupervisor_quiet {o₀ : Dev} (x : Nat) (f : Frame) (d : Dev) (h₀ : Quiet o₀ d) : Quiet o₀ (toSupervisor x f d) := by
  refine h₀.trans ?_
  unfold toSupervisor
  repeat' first
    | with_reducible exact Quiet.refl _
    | with_reducible assumption
    | with_reducible apply Quiet.ite
    | with_reducible apply bump_quiet
    | with_reducible apply supEnqueue_quiet
    | split

theorem frameBody_quiet {o₀ : Dev} (x : Nat) (f : Frame) (d : Dev) (h₀ : Quiet o₀ d) : Quiet o₀ (frameBody x f d) := by
  refine h₀.trans ?_
  unfold frameBody
  repeat' first
    | (extract_lets +onlyGivenNames x; first | refine Quiet.cut (x := x) ?_ (fun hx => ?_) <;> [(clear_value (hv : x = _); rw [hv]); clear_value x] | clear_value x | skip)
    | with_reducible exact Quiet.refl _
    | with_reducible assumption
    | simp -zeta only [↓ Quiet.make]
    | with_reducible refine Quiet.of ?_
    | with_reducible apply Quiet.ite
    | with_reducible apply bump_quiet
    | with_reducible apply ptpReceive_quiet
    | with_reducible apply streamLoad_quiet
    | with_reducible apply toSupervisor_quiet
    | split

theorem mediaFrame_quiet {o₀ : Dev} (x : Nat) (f : Frame) (d : Dev) (h₀ : Quiet o₀ d) : Quiet o₀ (mediaFrame x f d) := by
  refine h₀.trans ?_
  unfold mediaFrame
  repeat' first
    | (extract_lets +onlyGivenNames x; first | refine Quiet.cut (x := x) ?_ (fun hx => ?_) <;> [(clear_value (hv : x = _); rw [hv]); clear_value x] | clear_value x | skip)
    | with_reducible exact Quiet.refl _
    | with_reducible assumption
    | simp -zeta only [↓ Quiet.make]
    | with_reducible refine Quiet.of ?_
    | with_reducible apply Quiet.ite
    | with_reducible apply bump_quiet
    | with_reducible apply perfHit_quiet
    | with_reducible apply setPlane_quiet
    | with_reducible apply pfcFrame_quiet
    | with_reducible apply frameBody_quiet
    | split

theorem mgtFrame_quiet {o₀ : Dev} (f : Frame) (d : Dev) (h₀ : Quiet o₀ d) : Quiet o₀ (mgtFrame f d) := by
  refine h₀.trans ?_
  unfold mgtFrame
  repeat' first
    | (extract_lets +onlyGivenNames x; first | refine Quiet.cut (x := x) ?_ (fun hx => ?_) <;> [(clear_value (hv : x = _); rw [hv]); clear_value x] | clear_value x | skip)
    | with_reducible exact Quiet.refl _
    | with_reducible assumption
    | simp -zeta only [↓ Quiet.make]
    | with_reducible refine Quiet.of ?_
    | with_reducible apply Quiet.ite
    | with_reducible apply bump_quiet
    | with_reducible apply perfHit_quiet
    | with_reducible apply mgtSent_quiet
    | split

end Sys2Proof.Machine
end

