-- ==== Sys2Proof/Laws/QuietEpoch.lean ====
section
/-!
SUPPORT. Sys2Proof/Laws/QuietEpoch.lean: for each operation of Machine/Epoch.lean, that it is `Quiet` (or only `Sound`).
-/
set_option linter.all false
namespace Sys2Proof.Machine

theorem perfEnd_quiet {o₀ : Dev} (d : Dev) (h₀ : Quiet o₀ d) : Quiet o₀ (perfEnd d) := by
  refine h₀.trans ?_
  unfold perfEnd
  repeat' first
    | (extract_lets +onlyGivenNames x; first | refine Quiet.cut (x := x) ?_ (fun hx => ?_) <;> [(clear_value (hv : x = _); rw [hv]); clear_value x] | clear_value x | skip)
    | with_reducible exact Quiet.refl _
    | with_reducible assumption
    | simp -zeta only [↓ Quiet.make]
    | with_reducible refine Quiet.of ?_
    | with_reducible apply Quiet.ite
    | with_reducible refine Quiet.foldl (fun d x => ?_) ?_
    | with_reducible refine Quiet.foldlFst (fun d x => ?_) ?_
    | with_reducible apply perfAdd_quiet
    | split
    | (dsimp -zeta only)

theorem perfShow_quiet {o₀ : Dev} (d : Dev) (h₀ : Quiet o₀ d) : Quiet o₀ (perfShow d) := by
  refine h₀.trans ?_
  unfold perfShow
  repeat' first
    | with_reducible exact Quiet.refl _
    | with_reducible assumption
    | with_reducible refine Quiet.foldl (fun d x => ?_) ?_
    | with_reducible refine Quiet.foldlFst (fun d x => ?_) ?_
    | with_reducible apply liveSet_quiet
    | (dsimp -zeta only)

theorem perfZero_quiet {o₀ : Dev} (d : Dev) (b k : Nat) (h₀ : Quiet o₀ d) : Quiet o₀ (perfZero d b k) := by
  refine h₀.trans ?_
  unfold perfZero
  repeat' first
    | with_reducible exact Quiet.refl _
    | with_reducible assumption
    | with_reducible apply liveSet_quiet

theorem perfReselect_quiet {o₀ : Dev} (d : Dev) (h₀ : Quiet o₀ d) : Quiet o₀ (perfReselect d) := by
  refine h₀.trans ?_
  unfold perfReselect
  repeat' first
    | with_reducible exact Quiet.refl _
    | with_reducible assumption
    | with_reducible apply Quiet.ite
    | with_reducible refine Quiet.foldl (fun d x => ?_) ?_
    | with_reducible refine Quiet.foldlFst (fun d x => ?_) ?_
    | with_reducible apply perfZero_quiet
    | split
    | (dsimp -zeta only)

theorem perfZeroAll_quiet {o₀ : Dev} (d : Dev) (h₀ : Quiet o₀ d) : Quiet o₀ (perfZeroAll d) := by
  refine h₀.trans ?_
  unfold perfZeroAll
  repeat' first
    | with_reducible exact Quiet.refl _
    | with_reducible assumption
    | with_reducible refine Quiet.foldl (fun d x => ?_) ?_
    | with_reducible refine Quiet.foldlFst (fun d x => ?_) ?_
    | with_reducible apply perfZero_quiet
    | (dsimp -zeta only)

theorem perfHold_quiet {o₀ : Dev} (d : Dev) (h₀ : Quiet o₀ d) : Quiet o₀ (perfHold d) := by
  refine h₀.trans ?_
  unfold perfHold
  repeat' first
    | (extract_lets +onlyGivenNames x; first | refine Quiet.cut (x := x) ?_ (fun hx => ?_) <;> [(clear_value (hv : x = _); rw [hv]); clear_value x] | clear_value x | skip)
    | with_reducible exact Quiet.refl _
    | with_reducible assumption
    | simp -zeta only [↓ Quiet.make]
    | with_reducible refine Quiet.of ?_
    | (dsimp -zeta only)

theorem perfActions_quiet {o₀ : Dev} (d : Dev) (h₀ : Quiet o₀ d) : Quiet o₀ (perfActions d) := by
  refine h₀.trans ?_
  unfold perfActions
  repeat' first
    | (extract_lets +onlyGivenNames x; first | refine Quiet.cut (x := x) ?_ (fun hx => ?_) <;> [(clear_value (hv : x = _); rw [hv]); clear_value x] | clear_value x | skip)
    | with_reducible exact Quiet.refl _
    | with_reducible assumption
    | simp -zeta only [↓ Quiet.make]
    | with_reducible refine Quiet.of ?_
    | with_reducible apply Quiet.ite
    | with_reducible refine Quiet.foldl (fun d x => ?_) ?_
    | with_reducible refine Quiet.foldlFst (fun d x => ?_) ?_
    | with_reducible apply liveSet_quiet
    | with_reducible apply liveSetB_quiet
    | with_reducible apply liveSet48_quiet
    | with_reducible apply perfReselect_quiet
    | with_reducible apply perfZeroAll_quiet
    | with_reducible apply perfHold_quiet
    | split
    | (dsimp -zeta only)

theorem rateJudge_quiet {o₀ : Dev} (d : Dev) (h₀ : Quiet o₀ d) : Quiet o₀ (rateJudge d) := by
  refine h₀.trans ?_
  unfold rateJudge
  repeat' first
    | (extract_lets +onlyGivenNames x; first | refine Quiet.cut (x := x) ?_ (fun hx => ?_) <;> [(clear_value (hv : x = _); rw [hv]); clear_value x] | (have e : _ → _ := x; clear e; clear_value (hv : x = _); subst hv; beta_reduce) | clear_value x | skip)
    | with_reducible exact Quiet.refl _
    | with_reducible assumption
    | with_reducible apply Quiet.ite
    | with_reducible apply liveSetB_quiet
    | with_reducible apply raiseErr_quiet
    | split
    | (dsimp -zeta only)

theorem commitApply_sound {o₀ : Dev} (d : Dev) (h₀ : Sound o₀ d) : Sound o₀ (commitApply d) := by
  refine h₀.trans ?_
  unfold commitApply
  repeat' first
    | (extract_lets +onlyGivenNames x; first | refine Sound.cut (x := x) ?_ (fun hx => ?_) <;> [(clear_value (hv : x = _); rw [hv]); clear_value x] | clear_value x | skip)
    | with_reducible exact Sound.refl _
    | with_reducible assumption
    | simp -zeta only [↓ Sound.make]
    | with_reducible refine Sound.of ?_
    | with_reducible apply Sound.ite
    | with_reducible apply Sound.transQuiet (k := bump_quiet (h₀ := .refl _) ..)
    | with_reducible apply Sound.transQuiet (k := raiseOwn_quiet (h₀ := .refl _) ..)
    | with_reducible apply Sound.transQuiet (k := setResult_quiet (h₀ := .refl _) ..)
    | with_reducible apply Sound.transQuiet (k := setPending_quiet (h₀ := .refl _) ..)
    | with_reducible apply Sound.transQuiet (k := liveSet48_quiet (h₀ := .refl _) ..)
    | with_reducible apply commitCopy_sound
    | with_reducible apply Sound.transQuiet (k := genCommit_quiet (h₀ := .refl _) ..)
    | with_reducible apply Sound.transQuiet (k := genMakeAll_quiet (h₀ := .refl _) ..)
    | with_reducible apply Sound.transQuiet (k := soundUpdate_quiet (h₀ := .refl _) ..)
    | with_reducible apply Sound.transQuiet (k := reloadApply_quiet (h₀ := .refl _) ..)
    | with_reducible apply renderSwap_sound
    | with_reducible apply Sound.transQuiet (k := rateJudge_quiet (h₀ := .refl _) ..)
    | split

theorem epochEnds_quiet {o₀ : Dev} (d : Dev) (h₀ : Quiet o₀ d) : Quiet o₀ (epochEnds d) := by
  refine h₀.trans ?_
  unfold epochEnds
  repeat' first
    | with_reducible exact Quiet.refl _
    | with_reducible assumption
    | with_reducible apply cndFlush_quiet
    | with_reducible apply joinIn_quiet
    | with_reducible apply perfEnd_quiet

theorem epochBegins_sound {o₀ : Dev} (e : Nat) (at' : Int) (d : Dev) (h₀ : Sound o₀ d) : Sound o₀ (epochBegins e at' d) := by
  refine h₀.trans ?_
  unfold epochBegins
  refine Sound.trans ⟨fun h => ?_⟩ (present_quiet _ (.refl _)).sound
  exact ⟨h.live, h.shadow, h.act, h.snap, h.mem, Nat.mod_lt _ (by decide), Nat.zero_le _⟩

theorem unitStarts_sound {o₀ : Dev} (d : Dev) (h₀ : Sound o₀ d) : Sound o₀ (unitStarts d) := by
  refine h₀.trans ?_
  unfold unitStarts
  repeat' first
    | (extract_lets +onlyGivenNames x; first | refine Sound.cut (x := x) ?_ (fun hx => ?_) <;> [(clear_value (hv : x = _); rw [hv]); clear_value x] | clear_value x | skip)
    | with_reducible exact Sound.refl _
    | with_reducible assumption
    | simp -zeta only [↓ Sound.make]
    | with_reducible refine Sound.of ?_
    | with_reducible apply Sound.ite
    | with_reducible apply Sound.transQuiet (k := netRun_quiet (h₀ := .refl _) ..)
    | with_reducible apply Sound.transQuiet (k := objEpoch_quiet (h₀ := .refl _) ..)
    | with_reducible apply Sound.transQuiet (k := linkReports_quiet (h₀ := .refl _) ..)
    | with_reducible apply Sound.transQuiet (k := sapEpoch_quiet (h₀ := .refl _) ..)
    | with_reducible apply Sound.transQuiet (k := pathsEpoch_quiet (h₀ := .refl _) ..)
    | with_reducible apply Sound.transQuiet (k := cndEpoch_quiet (h₀ := .refl _) ..)
    | with_reducible apply Sound.transQuiet (k := rcEpoch_quiet (h₀ := .refl _) ..)
    | with_reducible apply Sound.transQuiet (k := twnEpoch_quiet (h₀ := .refl _) ..)
    | with_reducible apply Sound.transQuiet (k := wdEpoch_quiet (h₀ := .refl _) ..)
    | with_reducible apply Sound.transQuiet (k := vecEpoch_quiet (h₀ := .refl _) ..)
    | with_reducible apply Sound.transQuiet (k := xpEpoch_quiet (h₀ := .refl _) ..)
    | with_reducible apply memEpoch_sound
    | with_reducible apply Sound.transQuiet (k := ptpEpoch_quiet (h₀ := .refl _) ..)
    | with_reducible apply Sound.transQuiet (k := servoEpoch_quiet (h₀ := .refl _) ..)
    | with_reducible apply Sound.transQuiet (k := clkEpoch_quiet (h₀ := .refl _) ..)
    | with_reducible apply Sound.transQuiet (k := moonEpoch_quiet (h₀ := .refl _) ..)
    | with_reducible apply bootEpoch_sound
    | with_reducible apply captureEpoch_sound
    | with_reducible apply Sound.transQuiet (k := followEpoch_quiet (h₀ := .refl _) ..)
    | with_reducible apply Sound.transQuiet (k := mgmtEpoch_quiet (h₀ := .refl _) ..)
    | split

theorem statusReports_quiet {o₀ : Dev} (d : Dev) (h₀ : Quiet o₀ d) : Quiet o₀ (statusReports d) := by
  refine h₀.trans ?_
  unfold statusReports
  repeat' first
    | with_reducible exact Quiet.refl _
    | with_reducible assumption
    | with_reducible apply geoReport_quiet
    | with_reducible apply corePriReport_quiet
    | with_reducible apply wdCounts_quiet
    | with_reducible apply memReports_quiet
    | with_reducible apply moonReports_quiet
    | with_reducible apply svcReport_quiet
    | with_reducible apply perfShow_quiet

theorem epochActions_sound {o₀ : Dev} (d : Dev) (h₀ : Sound o₀ d) : Sound o₀ (epochActions d) := by
  refine h₀.trans ?_
  unfold epochActions
  repeat' first
    | (extract_lets +onlyGivenNames x; first | refine Sound.cut (x := x) ?_ (fun hx => ?_) <;> [(clear_value (hv : x = _); rw [hv]); clear_value x] | clear_value x | skip)
    | with_reducible exact Sound.refl _
    | with_reducible assumption
    | with_reducible apply Sound.transQuiet (k := raiseEvt_quiet (h₀ := .refl _) ..)
    | with_reducible apply Sound.transQuiet (k := holdExpire_quiet (h₀ := .refl _) ..)
    | with_reducible apply latchSnapshot_sound
    | with_reducible apply Sound.transQuiet (k := netEpoch_quiet (h₀ := .refl _) ..)
    | with_reducible apply Sound.transQuiet (k := cndLand_quiet (h₀ := .refl _) ..)
    | with_reducible apply Sound.transQuiet (k := divergenceReport_quiet (h₀ := .refl _) ..)
    | with_reducible apply Sound.transQuiet (k := wdAfter_quiet (h₀ := .refl _) ..)
    | with_reducible apply Sound.transQuiet (k := bulkEpoch_quiet (h₀ := .refl _) ..)
    | with_reducible apply Sound.transQuiet (k := xbarGrants_quiet (h₀ := .refl _) ..)
    | with_reducible apply Sound.transQuiet (k := commitLatch_quiet (h₀ := .refl _) ..)
    | with_reducible apply Sound.transQuiet (k := perfActions_quiet (h₀ := .refl _) ..)
    | with_reducible apply commitApply_sound
    | with_reducible apply unitStarts_sound
    | with_reducible apply Sound.transQuiet (k := statusReports_quiet (h₀ := .refl _) ..)

theorem epochStart_sound {o₀ : Dev} (d : Dev) (h₀ : Sound o₀ d) : Sound o₀ (epochStart d) := by
  refine h₀.trans ?_
  unfold epochStart
  repeat' first
    | with_reducible exact Sound.refl _
    | with_reducible assumption
    | with_reducible apply Sound.ite
    | with_reducible apply Sound.transQuiet (k := epochEnds_quiet (h₀ := .refl _) ..)
    | with_reducible apply epochBegins_sound
    | with_reducible apply epochActions_sound
    | split

theorem moveRender_quiet {o₀ : Dev} (k : Int) (d : Dev) (h₀ : Quiet o₀ d) : Quiet o₀ (moveRender k d) := by
  refine h₀.trans ?_
  unfold moveRender
  repeat' first
    | (extract_lets +onlyGivenNames x; first | refine Quiet.cut (x := x) ?_ (fun hx => ?_) <;> [(clear_value (hv : x = _); rw [hv]); clear_value x] | clear_value x | skip)
    | with_reducible exact Quiet.refl _
    | with_reducible assumption
    | simp -zeta only [↓ Quiet.make]
    | with_reducible refine Quiet.of ?_
    | (dsimp -zeta only)

theorem moveCorrect_quiet {o₀ : Dev} (k : Int) (d : Dev) (h₀ : Quiet o₀ d) : Quiet o₀ (moveCorrect k d) := by
  refine h₀.trans ?_
  unfold moveCorrect
  repeat' first
    | (extract_lets +onlyGivenNames x; first | refine Quiet.cut (x := x) ?_ (fun hx => ?_) <;> [(clear_value (hv : x = _); rw [hv]); clear_value x] | clear_value x | skip)
    | with_reducible exact Quiet.refl _
    | with_reducible assumption
    | simp -zeta only [↓ Quiet.make]
    | with_reducible refine Quiet.of ?_
    | split
    | (dsimp -zeta only)

theorem moveLabels_sound {o₀ : Dev} (k : Int) (d : Dev) (h₀ : Sound o₀ d) : Sound o₀ (moveLabels k d) := by
  refine h₀.trans ?_
  unfold moveLabels
  extract_lets +onlyGivenNames m x
  have hx : Quiet d x := moveCorrect_quiet _ _ (moveRender_quiet _ _ (.refl _))
  refine hx.sound.trans ⟨fun h => ⟨h.live, h.shadow, ?_, h.snap, h.mem, h.epoch, h.period⟩⟩
  intro p hp
  obtain ⟨q, hq, rfl⟩ := List.mem_map.mp hp
  exact h.act q hq

theorem timebaseLoad_sound {o₀ : Dev} (d : Dev) (h₀ : Sound o₀ d) : Sound o₀ (timebaseLoad d) := by
  refine h₀.trans ?_
  unfold timebaseLoad
  repeat' first
    | (extract_lets +onlyGivenNames x; first | refine Sound.cut (x := x) ?_ (fun hx => ?_) <;> [(clear_value (hv : x = _); rw [hv]); clear_value x] | clear_value x | skip)
    | with_reducible exact Sound.refl _
    | with_reducible assumption
    | simp -zeta only [↓ Sound.make]
    | with_reducible refine Sound.of ?_
    | with_reducible apply Sound.ite
    | with_reducible apply Sound.transQuiet (k := setResult_quiet (h₀ := .refl _) ..)
    | with_reducible apply Sound.transQuiet (k := setPending_quiet (h₀ := .refl _) ..)
    | with_reducible apply Sound.transQuiet (k := setTimebase_quiet (h₀ := .refl _) ..)
    | with_reducible apply Sound.transQuiet (k := genLoaded_quiet (h₀ := .refl _) ..)
    | with_reducible apply Sound.transQuiet (k := genMakeAll_quiet (h₀ := .refl _) ..)
    | with_reducible apply Sound.transQuiet (k := epochEnds_quiet (h₀ := .refl _) ..)
    | with_reducible apply epochBegins_sound
    | with_reducible apply epochActions_sound
    | with_reducible apply moveLabels_sound
    | split

end Sys2Proof.Machine
end

