-- ==== Sys2Proof/Laws/QuietPower.lean ====
section
/-!
SUPPORT. Sys2Proof/Laws/QuietPower.lean: for each operation of Machine/Power.lean, that it is `Quiet` (or only `Sound`).
-/
set_option linter.all false
namespace Sys2Proof.Machine

theorem seqTo_quiet {o₀ : Dev} (state rail : Nat) (d : Dev) (h₀ : Quiet o₀ d) : Quiet o₀ (seqTo state rail d) := by
  refine h₀.trans ?_
  unfold seqTo
  repeat' first
    | with_reducible exact Quiet.refl _
    | with_reducible assumption
    | with_reducible apply liveSetF_quiet

theorem seqStart_quiet {o₀ : Dev} (d : Dev) (h₀ : Quiet o₀ d) : Quiet o₀ (seqStart d) := by
  refine h₀.trans ?_
  unfold seqStart
  repeat' first
    | with_reducible exact Quiet.refl _
    | with_reducible assumption
    | with_reducible apply Quiet.ite
    | with_reducible apply seqTo_quiet
    | split

theorem railFaultEntry_sound {o₀ : Dev} (rail cause : Nat) (d : Dev) (h₀ : Sound o₀ d) : Sound o₀ (railFaultEntry rail cause d) := by
  refine h₀.trans ?_
  unfold railFaultEntry
  repeat' first
    | (extract_lets +onlyGivenNames x; first | refine Sound.cut (x := x) ?_ (fun hx => ?_) <;> [(clear_value (hv : x = _); rw [hv]); clear_value x] | clear_value x | skip)
    | with_reducible exact Sound.refl _
    | with_reducible assumption
    | with_reducible apply Sound.ite
    | with_reducible refine Sound.foldl (fun d x => ?_) ?_
    | with_reducible refine Sound.foldlFst (fun d x => ?_) ?_
    | with_reducible apply Sound.transQuiet (k := liveSetF_quiet (h₀ := .refl _) ..)
    | with_reducible apply Sound.transQuiet (k := bumpSat_quiet (h₀ := .refl _) ..)
    | with_reducible apply porstReset_sound
    | split
    | (dsimp -zeta only)

theorem standbyRelease_quiet {o₀ : Dev} (ext test : Bool) (d : Dev) (h₀ : Quiet o₀ d) : Quiet o₀ (standbyRelease ext test d) := by
  refine h₀.trans ?_
  unfold standbyRelease
  repeat' first
    | (extract_lets +onlyGivenNames x; first | refine Quiet.cut (x := x) ?_ (fun hx => ?_) <;> [(clear_value (hv : x = _); rw [hv]); clear_value x] | clear_value x | skip)
    | with_reducible exact Quiet.refl _
    | with_reducible assumption
    | simp -zeta only [↓ Quiet.make]
    | with_reducible refine Quiet.of ?_
    | with_reducible apply Quiet.ite
    | with_reducible refine Quiet.foldl (fun d x => ?_) ?_
    | with_reducible refine Quiet.foldlFst (fun d x => ?_) ?_
    | with_reducible apply liveSetB_quiet
    | with_reducible apply seqStart_quiet
    | split
    | (dsimp -zeta only)

theorem standbyAssert_sound {o₀ : Dev} (d : Dev) (h₀ : Sound o₀ d) : Sound o₀ (standbyAssert d) := by
  refine h₀.trans ?_
  unfold standbyAssert
  repeat' first
    | (extract_lets +onlyGivenNames x; first | refine Sound.cut (x := x) ?_ (fun hx => ?_) <;> [(clear_value (hv : x = _); rw [hv]); clear_value x] | clear_value x | skip)
    | with_reducible exact Sound.refl _
    | with_reducible assumption
    | simp -zeta only [↓ Sound.make]
    | with_reducible refine Sound.of ?_
    | with_reducible apply Sound.ite
    | with_reducible apply Sound.transQuiet (k := liveSetB_quiet (h₀ := .refl _) ..)
    | with_reducible apply resetDev_sound
    | split

theorem railInWindow_quiet {o₀ : Dev} (rail : Nat) (v33 : Bool) (d : Dev) (h₀ : Quiet o₀ d) : Quiet o₀ (railInWindow rail v33 d) := by
  refine h₀.trans ?_
  unfold railInWindow
  repeat' first
    | (extract_lets +onlyGivenNames x; first | refine Quiet.cut (x := x) ?_ (fun hx => ?_) <;> [(clear_value (hv : x = _); rw [hv]); clear_value x] | clear_value x | skip)
    | with_reducible exact Quiet.refl _
    | with_reducible assumption
    | with_reducible apply Quiet.ite
    | with_reducible apply liveSetB_quiet
    | split

theorem railQualified_sound {o₀ : Dev} (rail : Nat) (d : Dev) (h₀ : Sound o₀ d) : Sound o₀ (railQualified rail d) := by
  refine h₀.trans ?_
  unfold railQualified
  repeat' first
    | (extract_lets +onlyGivenNames x; first | refine Sound.cut (x := x) ?_ (fun hx => ?_) <;> [(clear_value (hv : x = _); rw [hv]); clear_value x] | clear_value x | skip)
    | with_reducible exact Sound.refl _
    | with_reducible assumption
    | with_reducible apply Sound.ite
    | with_reducible apply Sound.transQuiet (k := liveSetB_quiet (h₀ := .refl _) ..)
    | with_reducible apply releaseCheck_sound
    | with_reducible apply Sound.transQuiet (k := seqTo_quiet (h₀ := .refl _) ..)
    | split

theorem railTimeout_sound {o₀ : Dev} (rail : Nat) (noAnswer : Bool) (d : Dev) (h₀ : Sound o₀ d) : Sound o₀ (railTimeout rail noAnswer d) := by
  refine h₀.trans ?_
  unfold railTimeout
  repeat' first
    | (extract_lets +onlyGivenNames x; first | refine Sound.cut (x := x) ?_ (fun hx => ?_) <;> [(clear_value (hv : x = _); rw [hv]); clear_value x] | clear_value x | skip)
    | with_reducible exact Sound.refl _
    | with_reducible assumption
    | with_reducible apply Sound.ite
    | with_reducible apply Sound.transQuiet (k := liveSetB_quiet (h₀ := .refl _) ..)
    | with_reducible apply railFaultEntry_sound
    | split

theorem railFault_sound {o₀ : Dev} (rail : Nat) (overVolts : Bool) (d : Dev) (h₀ : Sound o₀ d) : Sound o₀ (railFault rail overVolts d) := by
  refine h₀.trans ?_
  unfold railFault
  repeat' first
    | (extract_lets +onlyGivenNames x; first | refine Sound.cut (x := x) ?_ (fun hx => ?_) <;> [(clear_value (hv : x = _); rw [hv]); clear_value x] | clear_value x | skip)
    | with_reducible exact Sound.refl _
    | with_reducible assumption
    | with_reducible apply Sound.ite
    | with_reducible apply Sound.transQuiet (k := liveSetB_quiet (h₀ := .refl _) ..)
    | with_reducible apply railFaultEntry_sound
    | split

theorem statusRead_quiet {o₀ : Dev} (d : Dev) (e : RailReading × Nat) (h₀ : Quiet o₀ d) : Quiet o₀ (statusRead d e) := by
  refine h₀.trans ?_
  unfold statusRead
  repeat' first
    | (extract_lets +onlyGivenNames x; first | refine Quiet.cut (x := x) ?_ (fun hx => ?_) <;> [(clear_value (hv : x = _); rw [hv]); clear_value x] | clear_value x | skip)
    | with_reducible exact Quiet.refl _
    | with_reducible assumption
    | with_reducible apply Quiet.ite
    | with_reducible apply liveSetF_quiet
    | with_reducible apply liveSetB_quiet
    | with_reducible apply present_quiet
    | split
    | (dsimp -zeta only)

theorem statusFaultCheck_sound {o₀ : Dev} (readings : List RailReading) (d : Dev) (h₀ : Sound o₀ d) : Sound o₀ (statusFaultCheck readings d) := by
  refine h₀.trans ?_
  unfold statusFaultCheck
  repeat' first
    | (extract_lets +onlyGivenNames x; first | refine Sound.cut (x := x) ?_ (fun hx => ?_) <;> [(clear_value (hv : x = _); rw [hv]); clear_value x] | clear_value x | skip)
    | with_reducible exact Sound.refl _
    | with_reducible assumption
    | simp -zeta only [↓ Sound.make]
    | with_reducible refine Sound.of ?_
    | with_reducible apply railFaultEntry_sound
    | split

theorem pmbAlert_sound {o₀ : Dev} (status : List RailReading) (d : Dev) (h₀ : Sound o₀ d) : Sound o₀ (pmbAlert status d) := by
  refine h₀.trans ?_
  unfold pmbAlert
  repeat' first
    | with_reducible exact Sound.refl _
    | with_reducible assumption
    | with_reducible apply Sound.ite
    | with_reducible refine Sound.foldl (fun d x => ?_) ?_
    | with_reducible refine Sound.foldlFst (fun d x => ?_) ?_
    | with_reducible apply Sound.transQuiet (k := statusRead_quiet (h₀ := .refl _) ..)
    | with_reducible apply statusFaultCheck_sound
    | split

theorem telemetryRead_quiet {o₀ : Dev} (d : Dev) (e : RailReading × Nat) (h₀ : Quiet o₀ d) : Quiet o₀ (telemetryRead d e) := by
  refine h₀.trans ?_
  unfold telemetryRead
  repeat' first
    | (extract_lets +onlyGivenNames x; first | refine Quiet.cut (x := x) ?_ (fun hx => ?_) <;> [(clear_value (hv : x = _); rw [hv]); clear_value x] | clear_value x | skip)
    | with_reducible exact Quiet.refl _
    | with_reducible assumption
    | with_reducible apply Quiet.ite
    | with_reducible apply liveSetF_quiet
    | with_reducible apply liveSetB_quiet
    | with_reducible apply liveMax_quiet
    | with_reducible apply present_quiet
    | with_reducible apply statusRead_quiet
    | split
    | (dsimp -zeta only)

theorem telemetryPoll_sound {o₀ : Dev} (readings : List RailReading) (d : Dev) (h₀ : Sound o₀ d) : Sound o₀ (telemetryPoll readings d) := by
  refine h₀.trans ?_
  unfold telemetryPoll
  repeat' first
    | with_reducible exact Sound.refl _
    | with_reducible assumption
    | with_reducible apply Sound.ite
    | with_reducible refine Sound.foldl (fun d x => ?_) ?_
    | with_reducible refine Sound.foldlFst (fun d x => ?_) ?_
    | with_reducible apply statusFaultCheck_sound
    | with_reducible apply Sound.transQuiet (k := telemetryRead_quiet (h₀ := .refl _) ..)
    | split

theorem thermRegs_quiet {o₀ : Dev} (l : List (Nat × Int)) (d : Dev) (h₀ : Quiet o₀ d) : Quiet o₀ (thermRegs l d) := by
  refine h₀.trans ?_
  unfold thermRegs
  repeat' first
    | (extract_lets +onlyGivenNames x; first | refine Quiet.cut (x := x) ?_ (fun hx => ?_) <;> [(clear_value (hv : x = _); rw [hv]); clear_value x] | clear_value x | skip)
    | with_reducible exact Quiet.refl _
    | with_reducible assumption
    | simp -zeta only [↓ Quiet.make]
    | with_reducible refine Quiet.of ?_
    | with_reducible apply Quiet.ite
    | with_reducible refine Quiet.foldl (fun d x => ?_) ?_
    | with_reducible refine Quiet.foldlFst (fun d x => ?_) ?_
    | with_reducible apply liveSetF_quiet
    | split
    | (dsimp -zeta only)

theorem thermEntry_quiet {o₀ : Dev} (code : Nat) (e : Nat × Int) (d : Dev) (h₀ : Quiet o₀ d) : Quiet o₀ (thermEntry code e d) := by
  refine h₀.trans ?_
  unfold thermEntry
  repeat' first
    | with_reducible exact Quiet.refl _
    | with_reducible assumption
    | with_reducible apply Quiet.ite
    | with_reducible apply raiseErr_quiet
    | split
    | (dsimp -zeta only)

theorem thermAlarm_quiet {o₀ : Dev} (l : List (Nat × Int)) (d : Dev) (h₀ : Quiet o₀ d) : Quiet o₀ (thermAlarm l d) := by
  refine h₀.trans ?_
  unfold thermAlarm
  repeat' first
    | (extract_lets +onlyGivenNames x; first | refine Quiet.cut (x := x) ?_ (fun hx => ?_) <;> [(clear_value (hv : x = _); rw [hv]); clear_value x] | clear_value x | skip)
    | with_reducible exact Quiet.refl _
    | with_reducible assumption
    | simp -zeta only [↓ Quiet.make]
    | with_reducible refine Quiet.of ?_
    | with_reducible apply Quiet.ite
    | with_reducible apply liveSetB_quiet
    | with_reducible apply bump_quiet
    | with_reducible apply thermEntry_quiet
    | split

theorem thermShutdown_quiet {o₀ : Dev} (twice : List (Nat × Int)) (d : Dev) (h₀ : Quiet o₀ d) : Quiet o₀ (thermShutdown twice d) := by
  refine h₀.trans ?_
  unfold thermShutdown
  repeat' first
    | (extract_lets +onlyGivenNames x; first | refine Quiet.cut (x := x) ?_ (fun hx => ?_) <;> [(clear_value (hv : x = _); rw [hv]); clear_value x] | clear_value x | skip)
    | with_reducible exact Quiet.refl _
    | with_reducible assumption
    | simp -zeta only [↓ Quiet.make]
    | with_reducible refine Quiet.of ?_
    | with_reducible apply Quiet.ite
    | with_reducible refine Quiet.foldl (fun d x => ?_) ?_
    | with_reducible refine Quiet.foldlFst (fun d x => ?_) ?_
    | with_reducible apply liveSetF_quiet
    | with_reducible apply liveSetB_quiet
    | with_reducible apply thermEntry_quiet
    | split
    | (dsimp -zeta only)

theorem thermalSample_sound {o₀ : Dev} (tj : List Int) (d : Dev) (h₀ : Sound o₀ d) : Sound o₀ (thermalSample tj d) := by
  refine h₀.trans ?_
  unfold thermalSample
  repeat' first
    | (extract_lets +onlyGivenNames x; first | refine Sound.cut (x := x) ?_ (fun hx => ?_) <;> [(clear_value (hv : x = _); rw [hv]); clear_value x] | clear_value x | skip)
    | with_reducible exact Sound.refl _
    | with_reducible assumption
    | simp -zeta only [↓ Sound.make]
    | with_reducible refine Sound.of ?_
    | with_reducible apply Sound.ite
    | with_reducible apply railFaultEntry_sound
    | with_reducible apply Sound.transQuiet (k := thermRegs_quiet (h₀ := .refl _) ..)
    | with_reducible apply Sound.transQuiet (k := thermAlarm_quiet (h₀ := .refl _) ..)
    | with_reducible apply Sound.transQuiet (k := thermShutdown_quiet (h₀ := .refl _) ..)
    | split
    | (dsimp -zeta only)

theorem thermalAlarmClear_quiet {o₀ : Dev} (d : Dev) (h₀ : Quiet o₀ d) : Quiet o₀ (thermalAlarmClear d) := by
  refine h₀.trans ?_
  unfold thermalAlarmClear
  repeat' first
    | (extract_lets +onlyGivenNames x; first | refine Quiet.cut (x := x) ?_ (fun hx => ?_) <;> [(clear_value (hv : x = _); rw [hv]); clear_value x] | clear_value x | skip)
    | with_reducible exact Quiet.refl _
    | with_reducible assumption
    | simp -zeta only [↓ Quiet.make]
    | with_reducible refine Quiet.of ?_
    | with_reducible apply Quiet.ite
    | with_reducible apply liveSetB_quiet
    | with_reducible apply thermEntry_quiet
    | split
    | (dsimp -zeta only)

theorem porstFall_sound {o₀ : Dev} (d : Dev) (h₀ : Sound o₀ d) : Sound o₀ (porstFall d) := by
  refine h₀.trans ?_
  unfold porstFall
  repeat' first
    | (extract_lets +onlyGivenNames x; first | refine Sound.cut (x := x) ?_ (fun hx => ?_) <;> [(clear_value (hv : x = _); rw [hv]); clear_value x] | clear_value x | skip)
    | with_reducible exact Sound.refl _
    | with_reducible assumption
    | simp -zeta only [↓ Sound.make]
    | with_reducible refine Sound.of ?_
    | with_reducible apply Sound.ite
    | with_reducible apply porstReset_sound
    | with_reducible apply Sound.transQuiet (k := seqStart_quiet (h₀ := .refl _) ..)
    | split

theorem extPowerGood_sound {o₀ : Dev} (d : Dev) (h₀ : Sound o₀ d) : Sound o₀ (extPowerGood d) := by
  refine h₀.trans ?_
  unfold extPowerGood
  repeat' first
    | with_reducible exact Sound.refl _
    | with_reducible assumption
    | with_reducible apply Sound.ite
    | with_reducible refine Sound.foldl (fun d x => ?_) ?_
    | with_reducible refine Sound.foldlFst (fun d x => ?_) ?_
    | with_reducible apply Sound.transQuiet (k := liveSetF_quiet (h₀ := .refl _) ..)
    | with_reducible apply Sound.transQuiet (k := liveSetB_quiet (h₀ := .refl _) ..)
    | with_reducible apply releaseCheck_sound
    | split
    | (dsimp -zeta only)

theorem testModeChange_sound {o₀ : Dev} (level : Bool) (d : Dev) (h₀ : Sound o₀ d) : Sound o₀ (testModeChange level d) := by
  refine h₀.trans ?_
  unfold testModeChange
  repeat' first
    | (extract_lets +onlyGivenNames x; first | refine Sound.cut (x := x) ?_ (fun hx => ?_) <;> [(clear_value (hv : x = _); rw [hv]); clear_value x] | clear_value x | skip)
    | with_reducible exact Sound.refl _
    | with_reducible assumption
    | with_reducible apply Sound.ite
    | with_reducible apply Sound.transQuiet (k := liveSetB_quiet (h₀ := .refl _) ..)
    | with_reducible apply porstReset_sound
    | with_reducible apply releaseCheck_sound
    | split

end Sys2Proof.Machine
end

