-- ==== Sys2Proof/Laws/Calm.lean ====
section
/-!
SUPPORT. Sys2Proof/Laws/Calm.lean: `Calm`, what bundles, work items and the capture path have in common: beside current register
values and the state of their own unit they write MEM1 outside its supervisor reserved region alone; and `Staged`, what the start of a
reload and a joining twin's state frames have in common: they write that region alone.
-/
namespace Sys2Proof.Machine

/-- b has a's configuration, snapshot, epoch and memories, but MEM1 outside the supervisor reserved region, and stays canonical. -/
structure Calm (a b : Dev) : Prop where
  /-- The canonical form is kept. -/
  canon : Canonical a → Canonical b
  /-- Shadow copies. -/
  shadow : b.regs.shadow = a.regs.shadow
  /-- Active copies. -/
  act : b.regs.act = a.regs.act
  /-- The snapshot bank. -/
  snap : b.regs.snap = a.regs.snap
  /-- Every memory but MEM1 outside the supervisor reserved region and the standby tables. -/
  mem : { b.mem with mem1 := a.mem.mem1, standby := a.mem.standby } = a.mem
  /-- The epoch. -/
  epoch : b.epc.epoch = a.epc.epoch
  /-- Engine periods of the epoch. -/
  period : b.epc.period = a.epc.period

theorem Calm.refl (a : Dev) : Calm a a := ⟨id, rfl, rfl, rfl, rfl, rfl, rfl⟩

theorem Quiet.calm {a b : Dev} (h : Quiet a b) : Calm a b :=
  ⟨h.sound.canon, h.shadow, h.act, h.snap, by rw [← h.mem], h.epoch, h.period⟩

theorem Calm.sound {a b : Dev} (h : Calm a b) : Sound a b := ⟨h.canon⟩

theorem Calm.trans {a b c : Dev} (h : Calm a b) (k : Calm b c) : Calm a c := by
  refine ⟨fun x => k.canon (h.canon x), k.shadow.trans h.shadow, k.act.trans h.act, k.snap.trans h.snap, ?_,
    k.epoch.trans h.epoch, k.period.trans h.period⟩
  rw [← h.mem, ← k.mem]

theorem setMem1_calm {o₀ : Dev} (d : Dev) (m : List (Nat × Byte)) (hm : Canonical d → mapWf (fun _ => 0) m = true)
    (h₀ : Calm o₀ d) : Calm o₀ (setMem1 d m) :=
  h₀.trans ⟨fun h => ⟨h.live, h.shadow, h.act, h.snap, { h.mem with mem1 := hm h }, h.epoch, h.period⟩, rfl, rfl, rfl, rfl, rfl, rfl⟩

theorem bundleDone_calm {o₀ : Dev} (d : Dev) (core : Nat) (b : Bundle) (h₀ : Calm o₀ d) : Calm o₀ (bundleDone d core b) := by
  refine h₀.trans ?_
  unfold bundleDone
  extract_lets c h fx ws x₀ x m n y
  have hx : Calm d x := setMem1_calm _ _ (fun hc => mapWf_wordSets ws hc.mem.mem1) (outside_quiet _ _ _ _ _ (.refl _)).calm
  refine hx.trans (Quiet.ite (perfHit_quiet _ _ _ _ ?_) ?_).calm <;>
    exact perfHit_quiet _ _ _ _ (setCore_quiet _ _ _ (.refl _))

theorem complete_calm {o₀ : Dev} (d : Dev) (core : Nat) (b : Bundle) (h₀ : Calm o₀ d) : Calm o₀ (complete d core b) :=
  (bundleDone_calm d core b h₀).trans (transfer_quiet _ _ _ _ (.refl _)).calm

theorem issueBundle_calm {o₀ : Dev} (core : Nat) (b : Bundle) (d : Dev) (h₀ : Calm o₀ d) : Calm o₀ (issueBundle core b d) := by
  refine h₀.trans ?_
  unfold issueBundle
  extract_lets c fx
  split
  · exact (vecFault_quiet _ _ _ (.refl _)).calm
  · split
    · split
      · extract_lets x
        have hx : Quiet d x := by
          show Quiet d (match fx.refused with | some r => _ | none => d)
          split
          · exact Quiet.ite (mem1Refused_quiet _ _ _ _ _ (.refl _)) (.refl _)
          · exact .refl _
        exact (vecFault_quiet _ _ _ hx).calm
      · split
        · exact (setCore_quiet _ _ _ (.refl _)).calm
        · exact complete_calm _ _ _ (.refl _)
    · exact .refl _

theorem itemComplete_calm {o₀ : Dev} (core : Nat) (d : Dev) (h₀ : Calm o₀ d) : Calm o₀ (itemComplete core d) := by
  refine h₀.trans ?_
  unfold itemComplete
  extract_lets +onlyGivenNames c
  split
  · exact .refl _
  · split
    · exact .refl _
    · extract_lets +onlyGivenNames len off
      split
      · exact (endItem_quiet _ _ _ _ (mem1Refused_quiet _ _ _ _ _ (.refl _))).calm
      · extract_lets +onlyGivenNames m st x
        have hx : Calm d x := by
          show Calm d (setCore (setMem1 d _) core _)
          exact (setMem1_calm _ _ (fun hc => mapWf_wordsSet _ _ (mapWf_wordsSet _ _ hc.mem.mem1)) (.refl _)).trans
            (setCore_quiet _ _ _ (.refl _)).calm
        exact hx.trans (endItem_quiet _ _ _ _
          (Quiet.ite (.refl _) (mirrorState_quiet _ _ _ (deliver_quiet _ _ _ (.refl _))))).calm

theorem captureDone_calm {o₀ : Dev} (d : Dev) (h₀ : Calm o₀ d) : Calm o₀ (captureDone d) := by
  refine h₀.trans ?_
  unfold captureDone
  split
  · extract_lets +onlyGivenNames place bytes
    refine Calm.trans ?_ (setCapState_quiet _ _ (.refl _)).calm
    exact setMem1_calm _ _ (fun hc => mapWf_mapSetRun _ _ _ hc.mem.mem1) (Quiet.calm ⟨id, rfl, rfl, rfl, rfl, id, rfl, rfl⟩)
  · exact .refl _

/-! ### The supervisor reserved region (R327) -/

/-- b has a's configuration, snapshot, epoch and memories, but the supervisor reserved region of MEM1, and stays canonical. -/
structure Staged (a b : Dev) : Prop where
  /-- The canonical form is kept. -/
  canon : Canonical a → Canonical b
  /-- Shadow copies. -/
  shadow : b.regs.shadow = a.regs.shadow
  /-- Active copies. -/
  act : b.regs.act = a.regs.act
  /-- The snapshot bank. -/
  snap : b.regs.snap = a.regs.snap
  /-- Every memory but the supervisor reserved region and the standby tables. -/
  mem : { b.mem with reserved := a.mem.reserved, standby := a.mem.standby } = a.mem
  /-- The epoch. -/
  epoch : b.epc.epoch = a.epc.epoch
  /-- Engine periods of the epoch. -/
  period : b.epc.period = a.epc.period

theorem Staged.refl (a : Dev) : Staged a a := ⟨id, rfl, rfl, rfl, rfl, rfl, rfl⟩

theorem Quiet.staged {a b : Dev} (h : Quiet a b) : Staged a b :=
  ⟨h.sound.canon, h.shadow, h.act, h.snap, by rw [← h.mem], h.epoch, h.period⟩

theorem Staged.trans {a b c : Dev} (h : Staged a b) (k : Staged b c) : Staged a c := by
  refine ⟨fun x => k.canon (h.canon x), k.shadow.trans h.shadow, k.act.trans h.act, k.snap.trans h.snap, ?_,
    k.epoch.trans h.epoch, k.period.trans h.period⟩
  rw [← h.mem, ← k.mem]

theorem Staged.ite {a b c : Dev} {p : Prop} [Decidable p] (h : Staged a b) (k : Staged a c) : Staged a (if p then b else c) := by
  split <;> assumption

theorem Staged.foldl {β : Type} {f : Dev → β → Dev} {a b : Dev} {l : List β} (hf : ∀ d x, Staged d (f d x)) (h : Staged a b) :
    Staged a (l.foldl f b) := by
  induction l generalizing b with
  | nil => exact h
  | cons x t ih => exact ih (h.trans (hf b x))

theorem reservedPut_staged (d : Dev) (o : Nat) (b : Byte) : Staged d (reservedPut d o b) :=
  ⟨(reservedPut_sound d o b (.refl _)).canon, rfl, rfl, rfl, rfl, rfl, rfl⟩

theorem reservedRun_staged (d : Dev) (o : Nat) (bs : List Byte) : Staged d (reservedRun d o bs) :=
  Staged.foldl (fun d _ => reservedPut_staged d _ _) (.refl _)

theorem mirrorArrives_staged (data : List Byte) (d : Dev) : Staged d (mirrorArrives data d) := by
  unfold mirrorArrives
  refine Staged.foldl (fun d x => ?_) (.refl _)
  extract_lets o
  split
  · exact .refl _
  · exact (reservedRun_staged _ _ _).trans (setTwn_quiet _ _ (.refl _)).staged

theorem stateFrame_staged (f : StateFrame) (d : Dev) : Staged d (stateFrame f d) := by
  unfold stateFrame
  split
  · split
    · exact mirrorArrives_staged _ _
    · exact (setTwn_quiet _ _ (.refl _)).staged
  · exact .refl _

theorem takeCopy_staged (lane : Nat) (h : TwinHead) (type : Nat) (payload : List Byte) (take : Dev → Dev) (d : Dev)
    (htake : ∀ d, Staged d (take d)) : Staged d (takeCopy lane h type payload take d) := by
  unfold takeCopy
  split
  · exact .refl _
  · split
    · exact (twinCrcError_quiet _ _ (.refl _)).staged
    · split
      · exact .refl _
      · extract_lets +onlyGivenNames x
        have hx : Staged d x := (laneHeard_quiet _ _ (.refl _)).staged
        exact Staged.ite hx ((hx.trans (setTwn_quiet _ _ (.refl _)).staged).trans (htake _))

theorem stageSections_staged (l : List (Nat × List Byte)) (d : Dev) : Staged d (stageSections l d).1 := by
  have key : ∀ (l : List (Nat × List Byte)) (a : (Dev × List ReloadSec) × Nat), Staged d a.1.1 → Staged d (l.foldl
      (fun (a : (Dev × List ReloadSec) × Nat) s => ((reservedRun a.1.1 a.2 s.2, ⟨s.1, s.2, a.2, false⟩ :: a.1.2), a.2 + s.2.length)) a).1.1 := by
    intro l
    induction l with
    | nil => exact fun _ h => h
    | cons x t ih => exact fun a h => ih _ (h.trans (reservedRun_staged _ _ _))
  exact key l _ (.refl _)

theorem reloadGo_staged (d : Dev) : Staged d (reloadGo d) := by
  unfold reloadGo
  split
  · exact .refl _
  · extract_lets +onlyGivenNames bank
    refine Staged.ite (.refl _) (Staged.ite (reloadTurned_quiet _ _ (.refl _)).staged ?_)
    split
    · exact (reloadTurned_quiet _ _ (reportGens_quiet _ (.refl _))).staged
    · extract_lets +onlyGivenNames x
      have hx : Quiet d x := reportGens_quiet _ (.refl _)
      refine Staged.ite (reloadTurned_quiet _ _ hx).staged (Staged.ite (reloadTurned_quiet _ _ hx).staged ?_)
      extract_lets l r y
      have hr : Staged x r.1 := stageSections_staged _ _
      have hy : Quiet r.1 y := liveSetF_quiet _ _ _ _ _ (reloadResult_quiet _ _ _ (.refl _))
      clear_value y
      have hb : ∀ b : Boot, Quiet y { y with boot := b } := fun b => ⟨id, rfl, rfl, rfl, rfl, id, rfl, rfl⟩
      refine ((hx.staged.trans hr).trans hy.staged).trans ?_
      exact (standbyLoad_quiet r.2 _ (setReloadState_quiet _ 1 (hb _))).staged

theorem reloadCmd_staged (d : Dev) : Staged d (reloadCmd d) := by
  unfold reloadCmd
  extract_lets x r
  exact (reloadGo_staged d).trans (endFront_quiet _ _ _ (.refl _)).staged

end Sys2Proof.Machine
end

