-- ==== Sys2Proof/Laws/Regs.lean ====
section
/-!
SUPPORT. Sys2Proof/Laws/Regs.lean: fields of words after a write to a field, and registers after a write to a register.
-/
namespace Sys2Proof.Machine

/-! ### Fields of a word -/

theorem bits_lt (w : Word) (hi lo : Nat) : bits w hi lo < 2 ^ (hi - lo + 1) := Nat.mod_lt _ (by positivity)

theorem setBits_toNat (w : Word) {hi lo : Nat} (v : Nat) (h : lo ≤ hi) (hh : hi < 32) :
    (setBits w hi lo v).toNat =
      2 ^ (hi + 1) * (w.toNat / 2 ^ (hi + 1)) + (2 ^ lo * (v % 2 ^ (hi - lo + 1)) + w.toNat % 2 ^ lo) := by
  have e : 2 ^ (hi + 1) = 2 ^ lo * 2 ^ (hi - lo + 1) := by rw [← Nat.pow_add]; congr 1; omega
  have hv : v % 2 ^ (hi - lo + 1) < 2 ^ (hi - lo + 1) := Nat.mod_lt _ (Nat.two_pow_pos _)
  have hl : w.toNat % 2 ^ lo < 2 ^ lo := Nat.mod_lt _ (Nat.two_pow_pos _)
  have hw : w.toNat < 2 ^ 32 := w.isLt
  have d1 : w.toNat = 2 ^ lo * (w.toNat / 2 ^ lo) + w.toNat % 2 ^ lo := (Nat.div_add_mod _ _).symm
  have d2 : w.toNat / 2 ^ lo = 2 ^ (hi - lo + 1) * (w.toNat / 2 ^ (hi + 1)) + w.toNat / 2 ^ lo % 2 ^ (hi - lo + 1) := by
    rw [e, ← Nat.div_div_eq_div_mul]; exact (Nat.div_add_mod _ _).symm
  have hq : 2 ^ (hi + 1) * (w.toNat / 2 ^ (hi + 1)) + 2 ^ (hi + 1) ≤ 2 ^ 32 := by
    have h1 : w.toNat / 2 ^ (hi + 1) < 2 ^ (31 - hi) := by
      rw [Nat.div_lt_iff_lt_mul (Nat.two_pow_pos _), ← Nat.pow_add]
      rwa [show 31 - hi + (hi + 1) = 32 by omega]
    calc _ = 2 ^ (hi + 1) * (w.toNat / 2 ^ (hi + 1) + 1) := by ring
      _ ≤ 2 ^ (hi + 1) * 2 ^ (31 - hi) := Nat.mul_le_mul_left _ h1
      _ = 2 ^ 32 := by rw [← Nat.pow_add]; congr 1; omega
  have hs : 2 ^ lo * (v % 2 ^ (hi - lo + 1)) + w.toNat % 2 ^ lo < 2 ^ (hi + 1) := by
    rw [e]
    calc _ < 2 ^ lo * (v % 2 ^ (hi - lo + 1)) + 2 ^ lo := by omega
      _ = 2 ^ lo * (v % 2 ^ (hi - lo + 1) + 1) := by ring
      _ ≤ 2 ^ lo * 2 ^ (hi - lo + 1) := Nat.mul_le_mul_left _ hv
  have hf : bits w hi lo <<< lo = 2 ^ lo * (w.toNat / 2 ^ lo % 2 ^ (hi - lo + 1)) := by
    rw [bits, Nat.shiftLeft_eq, Nat.shiftRight_eq_div_pow, Nat.mul_comm]
  have e3 : w.toNat - bits w hi lo <<< lo + (v % 2 ^ (hi - lo + 1)) <<< lo =
      2 ^ (hi + 1) * (w.toNat / 2 ^ (hi + 1)) + (2 ^ lo * (v % 2 ^ (hi - lo + 1)) + w.toNat % 2 ^ lo) := by
    rw [hf, Nat.shiftLeft_eq, Nat.mul_comm (v % _)]
    have : w.toNat = 2 ^ (hi + 1) * (w.toNat / 2 ^ (hi + 1)) + 2 ^ lo * (w.toNat / 2 ^ lo % 2 ^ (hi - lo + 1)) + w.toNat % 2 ^ lo := by
      conv_lhs => rw [d1, d2]
      rw [e]; ring
    omega
  rw [setBits, BitVec.toNat_ofNat, e3, Nat.mod_eq_of_lt (by omega)]

/-- A bit of a word after a write to bits hi:lo. -/
theorem bit_setBits (w : Word) {hi lo : Nat} (v i : Nat) (h : lo ≤ hi) (hh : hi < 32) :
    bit (setBits w hi lo v) i = if lo ≤ i ∧ i ≤ hi then v.testBit (i - lo) else bit w i := by
  have e : 2 ^ (hi + 1) = 2 ^ lo * 2 ^ (hi - lo + 1) := by rw [← Nat.pow_add]; congr 1; omega
  have hl : w.toNat % 2 ^ lo < 2 ^ lo := Nat.mod_lt _ (Nat.two_pow_pos _)
  have hs : 2 ^ lo * (v % 2 ^ (hi - lo + 1)) + w.toNat % 2 ^ lo < 2 ^ (hi + 1) := by
    have hv : v % 2 ^ (hi - lo + 1) < 2 ^ (hi - lo + 1) := Nat.mod_lt _ (Nat.two_pow_pos _)
    rw [e]
    calc _ < 2 ^ lo * (v % 2 ^ (hi - lo + 1)) + 2 ^ lo := by omega
      _ = 2 ^ lo * (v % 2 ^ (hi - lo + 1) + 1) := by ring
      _ ≤ 2 ^ lo * 2 ^ (hi - lo + 1) := Nat.mul_le_mul_left _ hv
  rw [bit, setBits_toNat w v h hh, Nat.testBit_two_pow_mul_add _ hs, Nat.testBit_two_pow_mul_add _ hl]
  by_cases h1 : i < lo
  · rw [if_pos (by omega), if_pos h1, if_neg (by omega), Nat.testBit_mod_two_pow, bit]
    simp [h1]
  · by_cases h2 : i ≤ hi
    · rw [if_pos (by omega), if_neg h1, if_pos ⟨by omega, h2⟩, Nat.testBit_mod_two_pow]
      simp only [show i - lo < hi - lo + 1 by omega, decide_true, Bool.true_and]
    · rw [if_neg (by omega), if_neg (by omega), Nat.testBit_div_two_pow, bit]
      congr 1; omega

/-- Bits of a field are bits of the word. -/
theorem testBit_bits (w : Word) (hi lo i : Nat) : (bits w hi lo).testBit i = (decide (i < hi - lo + 1) && bit w (i + lo)) := by
  rw [bits, Nat.testBit_mod_two_pow, Nat.testBit_shiftRight, bit, Nat.add_comm lo i]

/-- The field just written. -/
@[simp] theorem bits_setBits_same (w : Word) {hi lo : Nat} (v : Nat) (h : lo ≤ hi) (hh : hi < 32) :
    bits (setBits w hi lo v) hi lo = v % 2 ^ (hi - lo + 1) := by
  refine Nat.eq_of_testBit_eq fun i => ?_
  rw [testBit_bits, bit_setBits w v _ h hh, Nat.testBit_mod_two_pow]
  by_cases h1 : i < hi - lo + 1
  · rw [if_pos (by omega)]; simp
  · simp [h1]

/-- A field beside the one written. -/
theorem bits_setBits_other (w : Word) {hi lo hi' lo' : Nat} (v : Nat) (h : lo ≤ hi) (hh : hi < 32) (h' : hi' < lo ∨ hi < lo')
    (hl : lo' ≤ hi') : bits (setBits w hi lo v) hi' lo' = bits w hi' lo' := by
  refine Nat.eq_of_testBit_eq fun i => ?_
  rw [testBit_bits, testBit_bits, bit_setBits w v _ h hh]
  by_cases h1 : i < hi' - lo' + 1
  · rw [if_neg (by omega)]
  · simp [h1]

/-- A bit of a word after a write to bit i. -/
theorem bit_setBit (w : Word) {i : Nat} (b : Bool) (j : Nat) (h : i < 32) :
    bit (setBit w i b) j = if j = i then b else bit w j := by
  rw [setBit, bit_setBits w _ _ (Nat.le_refl i) h]
  by_cases hj : j = i
  · subst hj
    rw [if_pos ⟨Nat.le_refl _, Nat.le_refl _⟩, if_pos rfl, Nat.sub_self]
    cases b <;> rfl
  · rw [if_neg (by omega), if_neg hj]

/-- The bit just written. -/
@[simp] theorem bit_setBit_same (w : Word) {i : Nat} (b : Bool) (h : i < 32) : bit (setBit w i b) i = b := by
  rw [bit_setBit w b i h, if_pos rfl]

/-- A field without the bit written. -/
theorem bits_setBit_other (w : Word) {i hi lo : Nat} (b : Bool) (h : i < 32) (h' : hi < i ∨ i < lo) (hl : lo ≤ hi) :
    bits (setBit w i b) hi lo = bits w hi lo := bits_setBits_other w _ (Nat.le_refl i) h h' hl

/-! ### Registers -/

theorem liveGet_liveSet (d : Dev) (o p : Nat) (w : Word) : liveGet (liveSet d o w) p = if p = o then w else liveGet d p :=
  mapGet_mapSet _ _ _ _ _

/-- The register just written. -/
@[simp] theorem liveGet_liveSet_same (d : Dev) (o : Nat) (w : Word) : liveGet (liveSet d o w) o = w := mapGet_mapSet_self _ _ _ _

/-- Another register. -/
theorem liveGet_liveSet_other (d : Dev) {o p : Nat} (w : Word) (h : p ≠ o) : liveGet (liveSet d o w) p = liveGet d p :=
  mapGet_mapSet_other _ _ _ h

theorem liveGet_liveSetB (d : Dev) (o i p : Nat) (b : Bool) :
    liveGet (liveSetB d o i b) p = if p = o then setBit (liveGet d o) i b else liveGet d p := liveGet_liveSet _ _ _ _

theorem liveGet_liveSetF (d : Dev) (o hi lo v p : Nat) :
    liveGet (liveSetF d o hi lo v) p = if p = o then setBits (liveGet d o) hi lo v else liveGet d p := liveGet_liveSet _ _ _ _

theorem liveGet_bumpBy (d : Dev) (o n p : Nat) :
    liveGet (bumpBy d o n) p = if p = o then liveGet d o + BitVec.ofNat 32 n else liveGet d p := liveGet_liveSet _ _ _ _

theorem liveGet_bump (d : Dev) (o p : Nat) :
    liveGet (bump d o) p = if p = o then liveGet d o + 1 else liveGet d p := liveGet_liveSet _ _ _ _

/-- The bit just written. -/
@[simp] theorem liveB_liveSetB_same (d : Dev) (o : Nat) {i : Nat} (b : Bool) (h : i < 32) : liveB (liveSetB d o i b) o i = b := by
  rw [liveB, liveGet_liveSetB, if_pos rfl, bit_setBit_same _ _ h]

/-- The field just written. -/
@[simp] theorem liveF_liveSetF_same (d : Dev) (o : Nat) {hi lo : Nat} (v : Nat) (h : lo ≤ hi) (hh : hi < 32) :
    liveF (liveSetF d o hi lo v) o hi lo = v % 2 ^ (hi - lo + 1) := by
  rw [liveF, liveGet_liveSetF, if_pos rfl, bits_setBits_same _ _ h hh]

@[simp] theorem liveGet_shSet (d : Dev) (o p : Nat) (w : Word) : liveGet (shSet d o w) p = liveGet d p := rfl
@[simp] theorem liveGet_actSet (d : Dev) (o p : Nat) (w : Word) : liveGet (actSet d o w) p = liveGet d p := rfl
@[simp] theorem shGet_liveSet (d : Dev) (o p : Nat) (w : Word) : shGet (liveSet d o w) p = shGet d p := rfl
@[simp] theorem shGet_actSet (d : Dev) (o p : Nat) (w : Word) : shGet (actSet d o w) p = shGet d p := rfl
@[simp] theorem actGet_liveSet (d : Dev) (o p : Nat) (w : Word) : actGet (liveSet d o w) p = actGet d p := rfl
@[simp] theorem actGet_shSet (d : Dev) (o p : Nat) (w : Word) : actGet (shSet d o w) p = actGet d p := rfl

theorem shGet_shSet (d : Dev) (o p : Nat) (w : Word) : shGet (shSet d o w) p = if p = o then w else shGet d p :=
  mapGet_mapSet _ _ _ _ _

theorem actGet_actSet (d : Dev) (o p : Nat) (w : Word) (h : d.regs.act ≠ []) :
    actGet (actSet d o w) p = if p = o then w else actGet d p := by
  unfold actGet actBank actSet
  cases hd : d.regs.act with
  | nil => exact absurd hd h
  | cons x t => simp only [List.map_cons]; exact mapGet_mapSet _ _ _ _ _

end Sys2Proof.Machine
end

