-- ==== Sys2Proof/Laws/State.lean ====
section
/-!
SUPPORT. Sys2Proof/Laws/State.lean: what each update of the device leaves of each of its fields, and a unit's entry after it is set.
-/
namespace Sys2Proof.Machine

/-! ### liveSet -/

@[simp] theorem liveSet_epc (d : Dev) (o : Nat) (w : Word) : (liveSet d o w).epc = d.epc := rfl
@[simp] theorem liveSet_err (d : Dev) (o : Nat) (w : Word) : (liveSet d o w).err = d.err := rfl
@[simp] theorem liveSet_boot (d : Dev) (o : Nat) (w : Word) : (liveSet d o w).boot = d.boot := rfl
@[simp] theorem liveSet_pmc (d : Dev) (o : Nat) (w : Word) : (liveSet d o w).pmc = d.pmc := rfl
@[simp] theorem liveSet_mgmt (d : Dev) (o : Nat) (w : Word) : (liveSet d o w).mgmt = d.mgmt := rfl
@[simp] theorem liveSet_perf (d : Dev) (o : Nat) (w : Word) : (liveSet d o w).perf = d.perf := rfl
@[simp] theorem liveSet_cap (d : Dev) (o : Nat) (w : Word) : (liveSet d o w).cap = d.cap := rfl
@[simp] theorem liveSet_gains (d : Dev) (o : Nat) (w : Word) : (liveSet d o w).gains = d.gains := rfl
@[simp] theorem liveSet_gens (d : Dev) (o : Nat) (w : Word) : (liveSet d o w).gens = d.gens := rfl
@[simp] theorem liveSet_neti (d : Dev) (o : Nat) (w : Word) : (liveSet d o w).neti = d.neti := rfl
@[simp] theorem liveSet_neto (d : Dev) (o : Nat) (w : Word) : (liveSet d o w).neto = d.neto := rfl
@[simp] theorem liveSet_sap (d : Dev) (o : Nat) (w : Word) : (liveSet d o w).sap = d.sap := rfl
@[simp] theorem liveSet_cnd (d : Dev) (o : Nat) (w : Word) : (liveSet d o w).cnd = d.cnd := rfl
@[simp] theorem liveSet_obj (d : Dev) (o : Nat) (w : Word) : (liveSet d o w).obj = d.obj := rfl
@[simp] theorem liveSet_geo (d : Dev) (o : Nat) (w : Word) : (liveSet d o w).geo = d.geo := rfl
@[simp] theorem liveSet_xp (d : Dev) (o : Nat) (w : Word) : (liveSet d o w).xp = d.xp := rfl
@[simp] theorem liveSet_rc (d : Dev) (o : Nat) (w : Word) : (liveSet d o w).rc = d.rc := rfl
@[simp] theorem liveSet_vec (d : Dev) (o : Nat) (w : Word) : (liveSet d o w).vec = d.vec := rfl
@[simp] theorem liveSet_moon (d : Dev) (o : Nat) (w : Word) : (liveSet d o w).moon = d.moon := rfl
@[simp] theorem liveSet_twn (d : Dev) (o : Nat) (w : Word) : (liveSet d o w).twn = d.twn := rfl
@[simp] theorem liveSet_wd (d : Dev) (o : Nat) (w : Word) : (liveSet d o w).wd = d.wd := rfl
@[simp] theorem liveSet_evt (d : Dev) (o : Nat) (w : Word) : (liveSet d o w).evt = d.evt := rfl
@[simp] theorem liveSet_mem (d : Dev) (o : Nat) (w : Word) : (liveSet d o w).mem = d.mem := rfl
@[simp] theorem liveSet_dram0 (d : Dev) (o : Nat) (w : Word) : (liveSet d o w).dram0 = d.dram0 := rfl
@[simp] theorem liveSet_dram1 (d : Dev) (o : Nat) (w : Word) : (liveSet d o w).dram1 = d.dram1 := rfl
@[simp] theorem liveSet_xbar (d : Dev) (o : Nat) (w : Word) : (liveSet d o w).xbar = d.xbar := rfl
@[simp] theorem liveSet_ptpi (d : Dev) (o : Nat) (w : Word) : (liveSet d o w).ptpi = d.ptpi := rfl
@[simp] theorem liveSet_ptpo (d : Dev) (o : Nat) (w : Word) : (liveSet d o w).ptpo = d.ptpo := rfl
@[simp] theorem liveSet_servo (d : Dev) (o : Nat) (w : Word) : (liveSet d o w).servo = d.servo := rfl
@[simp] theorem liveSet_clk (d : Dev) (o : Nat) (w : Word) : (liveSet d o w).clk = d.clk := rfl
@[simp] theorem liveSet_path (d : Dev) (o : Nat) (w : Word) : (liveSet d o w).path = d.path := rfl
@[simp] theorem liveSet_shadow (d : Dev) (o : Nat) (w : Word) : (liveSet d o w).regs.shadow = d.regs.shadow := rfl
@[simp] theorem liveSet_act (d : Dev) (o : Nat) (w : Word) : (liveSet d o w).regs.act = d.regs.act := rfl
@[simp] theorem liveSet_snap (d : Dev) (o : Nat) (w : Word) : (liveSet d o w).regs.snap = d.regs.snap := rfl

/-! ### liveSetF -/

@[simp] theorem liveSetF_epc (d : Dev) (o hi lo v : Nat) : (liveSetF d o hi lo v).epc = d.epc := rfl
@[simp] theorem liveSetF_err (d : Dev) (o hi lo v : Nat) : (liveSetF d o hi lo v).err = d.err := rfl
@[simp] theorem liveSetF_boot (d : Dev) (o hi lo v : Nat) : (liveSetF d o hi lo v).boot = d.boot := rfl
@[simp] theorem liveSetF_pmc (d : Dev) (o hi lo v : Nat) : (liveSetF d o hi lo v).pmc = d.pmc := rfl
@[simp] theorem liveSetF_mgmt (d : Dev) (o hi lo v : Nat) : (liveSetF d o hi lo v).mgmt = d.mgmt := rfl
@[simp] theorem liveSetF_perf (d : Dev) (o hi lo v : Nat) : (liveSetF d o hi lo v).perf = d.perf := rfl
@[simp] theorem liveSetF_cap (d : Dev) (o hi lo v : Nat) : (liveSetF d o hi lo v).cap = d.cap := rfl
@[simp] theorem liveSetF_gains (d : Dev) (o hi lo v : Nat) : (liveSetF d o hi lo v).gains = d.gains := rfl
@[simp] theorem liveSetF_gens (d : Dev) (o hi lo v : Nat) : (liveSetF d o hi lo v).gens = d.gens := rfl
@[simp] theorem liveSetF_neti (d : Dev) (o hi lo v : Nat) : (liveSetF d o hi lo v).neti = d.neti := rfl
@[simp] theorem liveSetF_neto (d : Dev) (o hi lo v : Nat) : (liveSetF d o hi lo v).neto = d.neto := rfl
@[simp] theorem liveSetF_sap (d : Dev) (o hi lo v : Nat) : (liveSetF d o hi lo v).sap = d.sap := rfl
@[simp] theorem liveSetF_cnd (d : Dev) (o hi lo v : Nat) : (liveSetF d o hi lo v).cnd = d.cnd := rfl
@[simp] theorem liveSetF_obj (d : Dev) (o hi lo v : Nat) : (liveSetF d o hi lo v).obj = d.obj := rfl
@[simp] theorem liveSetF_geo (d : Dev) (o hi lo v : Nat) : (liveSetF d o hi lo v).geo = d.geo := rfl
@[simp] theorem liveSetF_xp (d : Dev) (o hi lo v : Nat) : (liveSetF d o hi lo v).xp = d.xp := rfl
@[simp] theorem liveSetF_rc (d : Dev) (o hi lo v : Nat) : (liveSetF d o hi lo v).rc = d.rc := rfl
@[simp] theorem liveSetF_vec (d : Dev) (o hi lo v : Nat) : (liveSetF d o hi lo v).vec = d.vec := rfl
@[simp] theorem liveSetF_moon (d : Dev) (o hi lo v : Nat) : (liveSetF d o hi lo v).moon = d.moon := rfl
@[simp] theorem liveSetF_twn (d : Dev) (o hi lo v : Nat) : (liveSetF d o hi lo v).twn = d.twn := rfl
@[simp] theorem liveSetF_wd (d : Dev) (o hi lo v : Nat) : (liveSetF d o hi lo v).wd = d.wd := rfl
@[simp] theorem liveSetF_evt (d : Dev) (o hi lo v : Nat) : (liveSetF d o hi lo v).evt = d.evt := rfl
@[simp] theorem liveSetF_mem (d : Dev) (o hi lo v : Nat) : (liveSetF d o hi lo v).mem = d.mem := rfl
@[simp] theorem liveSetF_dram0 (d : Dev) (o hi lo v : Nat) : (liveSetF d o hi lo v).dram0 = d.dram0 := rfl
@[simp] theorem liveSetF_dram1 (d : Dev) (o hi lo v : Nat) : (liveSetF d o hi lo v).dram1 = d.dram1 := rfl
@[simp] theorem liveSetF_xbar (d : Dev) (o hi lo v : Nat) : (liveSetF d o hi lo v).xbar = d.xbar := rfl
@[simp] theorem liveSetF_ptpi (d : Dev) (o hi lo v : Nat) : (liveSetF d o hi lo v).ptpi = d.ptpi := rfl
@[simp] theorem liveSetF_ptpo (d : Dev) (o hi lo v : Nat) : (liveSetF d o hi lo v).ptpo = d.ptpo := rfl
@[simp] theorem liveSetF_servo (d : Dev) (o hi lo v : Nat) : (liveSetF d o hi lo v).servo = d.servo := rfl
@[simp] theorem liveSetF_clk (d : Dev) (o hi lo v : Nat) : (liveSetF d o hi lo v).clk = d.clk := rfl
@[simp] theorem liveSetF_path (d : Dev) (o hi lo v : Nat) : (liveSetF d o hi lo v).path = d.path := rfl
@[simp] theorem liveSetF_shadow (d : Dev) (o hi lo v : Nat) : (liveSetF d o hi lo v).regs.shadow = d.regs.shadow := rfl
@[simp] theorem liveSetF_act (d : Dev) (o hi lo v : Nat) : (liveSetF d o hi lo v).regs.act = d.regs.act := rfl
@[simp] theorem liveSetF_snap (d : Dev) (o hi lo v : Nat) : (liveSetF d o hi lo v).regs.snap = d.regs.snap := rfl

/-! ### liveSetB -/

@[simp] theorem liveSetB_epc (d : Dev) (o i : Nat) (b : Bool) : (liveSetB d o i b).epc = d.epc := rfl
@[simp] theorem liveSetB_err (d : Dev) (o i : Nat) (b : Bool) : (liveSetB d o i b).err = d.err := rfl
@[simp] theorem liveSetB_boot (d : Dev) (o i : Nat) (b : Bool) : (liveSetB d o i b).boot = d.boot := rfl
@[simp] theorem liveSetB_pmc (d : Dev) (o i : Nat) (b : Bool) : (liveSetB d o i b).pmc = d.pmc := rfl
@[simp] theorem liveSetB_mgmt (d : Dev) (o i : Nat) (b : Bool) : (liveSetB d o i b).mgmt = d.mgmt := rfl
@[simp] theorem liveSetB_perf (d : Dev) (o i : Nat) (b : Bool) : (liveSetB d o i b).perf = d.perf := rfl
@[simp] theorem liveSetB_cap (d : Dev) (o i : Nat) (b : Bool) : (liveSetB d o i b).cap = d.cap := rfl
@[simp] theorem liveSetB_gains (d : Dev) (o i : Nat) (b : Bool) : (liveSetB d o i b).gains = d.gains := rfl
@[simp] theorem liveSetB_gens (d : Dev) (o i : Nat) (b : Bool) : (liveSetB d o i b).gens = d.gens := rfl
@[simp] theorem liveSetB_neti (d : Dev) (o i : Nat) (b : Bool) : (liveSetB d o i b).neti = d.neti := rfl
@[simp] theorem liveSetB_neto (d : Dev) (o i : Nat) (b : Bool) : (liveSetB d o i b).neto = d.neto := rfl
@[simp] theorem liveSetB_sap (d : Dev) (o i : Nat) (b : Bool) : (liveSetB d o i b).sap = d.sap := rfl
@[simp] theorem liveSetB_cnd (d : Dev) (o i : Nat) (b : Bool) : (liveSetB d o i b).cnd = d.cnd := rfl
@[simp] theorem liveSetB_obj (d : Dev) (o i : Nat) (b : Bool) : (liveSetB d o i b).obj = d.obj := rfl
@[simp] theorem liveSetB_geo (d : Dev) (o i : Nat) (b : Bool) : (liveSetB d o i b).geo = d.geo := rfl
@[simp] theorem liveSetB_xp (d : Dev) (o i : Nat) (b : Bool) : (liveSetB d o i b).xp = d.xp := rfl
@[simp] theorem liveSetB_rc (d : Dev) (o i : Nat) (b : Bool) : (liveSetB d o i b).rc = d.rc := rfl
@[simp] theorem liveSetB_vec (d : Dev) (o i : Nat) (b : Bool) : (liveSetB d o i b).vec = d.vec := rfl
@[simp] theorem liveSetB_moon (d : Dev) (o i : Nat) (b : Bool) : (liveSetB d o i b).moon = d.moon := rfl
@[simp] theorem liveSetB_twn (d : Dev) (o i : Nat) (b : Bool) : (liveSetB d o i b).twn = d.twn := rfl
@[simp] theorem liveSetB_wd (d : Dev) (o i : Nat) (b : Bool) : (liveSetB d o i b).wd = d.wd := rfl
@[simp] theorem liveSetB_evt (d : Dev) (o i : Nat) (b : Bool) : (liveSetB d o i b).evt = d.evt := rfl
@[simp] theorem liveSetB_mem (d : Dev) (o i : Nat) (b : Bool) : (liveSetB d o i b).mem = d.mem := rfl
@[simp] theorem liveSetB_dram0 (d : Dev) (o i : Nat) (b : Bool) : (liveSetB d o i b).dram0 = d.dram0 := rfl
@[simp] theorem liveSetB_dram1 (d : Dev) (o i : Nat) (b : Bool) : (liveSetB d o i b).dram1 = d.dram1 := rfl
@[simp] theorem liveSetB_xbar (d : Dev) (o i : Nat) (b : Bool) : (liveSetB d o i b).xbar = d.xbar := rfl
@[simp] theorem liveSetB_ptpi (d : Dev) (o i : Nat) (b : Bool) : (liveSetB d o i b).ptpi = d.ptpi := rfl
@[simp] theorem liveSetB_ptpo (d : Dev) (o i : Nat) (b : Bool) : (liveSetB d o i b).ptpo = d.ptpo := rfl
@[simp] theorem liveSetB_servo (d : Dev) (o i : Nat) (b : Bool) : (liveSetB d o i b).servo = d.servo := rfl
@[simp] theorem liveSetB_clk (d : Dev) (o i : Nat) (b : Bool) : (liveSetB d o i b).clk = d.clk := rfl
@[simp] theorem liveSetB_path (d : Dev) (o i : Nat) (b : Bool) : (liveSetB d o i b).path = d.path := rfl
@[simp] theorem liveSetB_shadow (d : Dev) (o i : Nat) (b : Bool) : (liveSetB d o i b).regs.shadow = d.regs.shadow := rfl
@[simp] theorem liveSetB_act (d : Dev) (o i : Nat) (b : Bool) : (liveSetB d o i b).regs.act = d.regs.act := rfl
@[simp] theorem liveSetB_snap (d : Dev) (o i : Nat) (b : Bool) : (liveSetB d o i b).regs.snap = d.regs.snap := rfl

/-! ### bumpBy -/

@[simp] theorem bumpBy_epc (d : Dev) (o n : Nat) : (bumpBy d o n).epc = d.epc := rfl
@[simp] theorem bumpBy_err (d : Dev) (o n : Nat) : (bumpBy d o n).err = d.err := rfl
@[simp] theorem bumpBy_boot (d : Dev) (o n : Nat) : (bumpBy d o n).boot = d.boot := rfl
@[simp] theorem bumpBy_pmc (d : Dev) (o n : Nat) : (bumpBy d o n).pmc = d.pmc := rfl
@[simp] theorem bumpBy_mgmt (d : Dev) (o n : Nat) : (bumpBy d o n).mgmt = d.mgmt := rfl
@[simp] theorem bumpBy_perf (d : Dev) (o n : Nat) : (bumpBy d o n).perf = d.perf := rfl
@[simp] theorem bumpBy_cap (d : Dev) (o n : Nat) : (bumpBy d o n).cap = d.cap := rfl
@[simp] theorem bumpBy_gains (d : Dev) (o n : Nat) : (bumpBy d o n).gains = d.gains := rfl
@[simp] theorem bumpBy_gens (d : Dev) (o n : Nat) : (bumpBy d o n).gens = d.gens := rfl
@[simp] theorem bumpBy_neti (d : Dev) (o n : Nat) : (bumpBy d o n).neti = d.neti := rfl
@[simp] theorem bumpBy_neto (d : Dev) (o n : Nat) : (bumpBy d o n).neto = d.neto := rfl
@[simp] theorem bumpBy_sap (d : Dev) (o n : Nat) : (bumpBy d o n).sap = d.sap := rfl
@[simp] theorem bumpBy_cnd (d : Dev) (o n : Nat) : (bumpBy d o n).cnd = d.cnd := rfl
@[simp] theorem bumpBy_obj (d : Dev) (o n : Nat) : (bumpBy d o n).obj = d.obj := rfl
@[simp] theorem bumpBy_geo (d : Dev) (o n : Nat) : (bumpBy d o n).geo = d.geo := rfl
@[simp] theorem bumpBy_xp (d : Dev) (o n : Nat) : (bumpBy d o n).xp = d.xp := rfl
@[simp] theorem bumpBy_rc (d : Dev) (o n : Nat) : (bumpBy d o n).rc = d.rc := rfl
@[simp] theorem bumpBy_vec (d : Dev) (o n : Nat) : (bumpBy d o n).vec = d.vec := rfl
@[simp] theorem bumpBy_moon (d : Dev) (o n : Nat) : (bumpBy d o n).moon = d.moon := rfl
@[simp] theorem bumpBy_twn (d : Dev) (o n : Nat) : (bumpBy d o n).twn = d.twn := rfl
@[simp] theorem bumpBy_wd (d : Dev) (o n : Nat) : (bumpBy d o n).wd = d.wd := rfl
@[simp] theorem bumpBy_evt (d : Dev) (o n : Nat) : (bumpBy d o n).evt = d.evt := rfl
@[simp] theorem bumpBy_mem (d : Dev) (o n : Nat) : (bumpBy d o n).mem = d.mem := rfl
@[simp] theorem bumpBy_dram0 (d : Dev) (o n : Nat) : (bumpBy d o n).dram0 = d.dram0 := rfl
@[simp] theorem bumpBy_dram1 (d : Dev) (o n : Nat) : (bumpBy d o n).dram1 = d.dram1 := rfl
@[simp] theorem bumpBy_xbar (d : Dev) (o n : Nat) : (bumpBy d o n).xbar = d.xbar := rfl
@[simp] theorem bumpBy_ptpi (d : Dev) (o n : Nat) : (bumpBy d o n).ptpi = d.ptpi := rfl
@[simp] theorem bumpBy_ptpo (d : Dev) (o n : Nat) : (bumpBy d o n).ptpo = d.ptpo := rfl
@[simp] theorem bumpBy_servo (d : Dev) (o n : Nat) : (bumpBy d o n).servo = d.servo := rfl
@[simp] theorem bumpBy_clk (d : Dev) (o n : Nat) : (bumpBy d o n).clk = d.clk := rfl
@[simp] theorem bumpBy_path (d : Dev) (o n : Nat) : (bumpBy d o n).path = d.path := rfl
@[simp] theorem bumpBy_shadow (d : Dev) (o n : Nat) : (bumpBy d o n).regs.shadow = d.regs.shadow := rfl
@[simp] theorem bumpBy_act (d : Dev) (o n : Nat) : (bumpBy d o n).regs.act = d.regs.act := rfl
@[simp] theorem bumpBy_snap (d : Dev) (o n : Nat) : (bumpBy d o n).regs.snap = d.regs.snap := rfl

/-! ### bump -/

@[simp] theorem bump_epc (d : Dev) (o : Nat) : (bump d o).epc = d.epc := rfl
@[simp] theorem bump_err (d : Dev) (o : Nat) : (bump d o).err = d.err := rfl
@[simp] theorem bump_boot (d : Dev) (o : Nat) : (bump d o).boot = d.boot := rfl
@[simp] theorem bump_pmc (d : Dev) (o : Nat) : (bump d o).pmc = d.pmc := rfl
@[simp] theorem bump_mgmt (d : Dev) (o : Nat) : (bump d o).mgmt = d.mgmt := rfl
@[simp] theorem bump_perf (d : Dev) (o : Nat) : (bump d o).perf = d.perf := rfl
@[simp] theorem bump_cap (d : Dev) (o : Nat) : (bump d o).cap = d.cap := rfl
@[simp] theorem bump_gains (d : Dev) (o : Nat) : (bump d o).gains = d.gains := rfl
@[simp] theorem bump_gens (d : Dev) (o : Nat) : (bump d o).gens = d.gens := rfl
@[simp] theorem bump_neti (d : Dev) (o : Nat) : (bump d o).neti = d.neti := rfl
@[simp] theorem bump_neto (d : Dev) (o : Nat) : (bump d o).neto = d.neto := rfl
@[simp] theorem bump_sap (d : Dev) (o : Nat) : (bump d o).sap = d.sap := rfl
@[simp] theorem bump_cnd (d : Dev) (o : Nat) : (bump d o).cnd = d.cnd := rfl
@[simp] theorem bump_obj (d : Dev) (o : Nat) : (bump d o).obj = d.obj := rfl
@[simp] theorem bump_geo (d : Dev) (o : Nat) : (bump d o).geo = d.geo := rfl
@[simp] theorem bump_xp (d : Dev) (o : Nat) : (bump d o).xp = d.xp := rfl
@[simp] theorem bump_rc (d : Dev) (o : Nat) : (bump d o).rc = d.rc := rfl
@[simp] theorem bump_vec (d : Dev) (o : Nat) : (bump d o).vec = d.vec := rfl
@[simp] theorem bump_moon (d : Dev) (o : Nat) : (bump d o).moon = d.moon := rfl
@[simp] theorem bump_twn (d : Dev) (o : Nat) : (bump d o).twn = d.twn := rfl
@[simp] theorem bump_wd (d : Dev) (o : Nat) : (bump d o).wd = d.wd := rfl
@[simp] theorem bump_evt (d : Dev) (o : Nat) : (bump d o).evt = d.evt := rfl
@[simp] theorem bump_mem (d : Dev) (o : Nat) : (bump d o).mem = d.mem := rfl
@[simp] theorem bump_dram0 (d : Dev) (o : Nat) : (bump d o).dram0 = d.dram0 := rfl
@[simp] theorem bump_dram1 (d : Dev) (o : Nat) : (bump d o).dram1 = d.dram1 := rfl
@[simp] theorem bump_xbar (d : Dev) (o : Nat) : (bump d o).xbar = d.xbar := rfl
@[simp] theorem bump_ptpi (d : Dev) (o : Nat) : (bump d o).ptpi = d.ptpi := rfl
@[simp] theorem bump_ptpo (d : Dev) (o : Nat) : (bump d o).ptpo = d.ptpo := rfl
@[simp] theorem bump_servo (d : Dev) (o : Nat) : (bump d o).servo = d.servo := rfl
@[simp] theorem bump_clk (d : Dev) (o : Nat) : (bump d o).clk = d.clk := rfl
@[simp] theorem bump_path (d : Dev) (o : Nat) : (bump d o).path = d.path := rfl
@[simp] theorem bump_shadow (d : Dev) (o : Nat) : (bump d o).regs.shadow = d.regs.shadow := rfl
@[simp] theorem bump_act (d : Dev) (o : Nat) : (bump d o).regs.act = d.regs.act := rfl
@[simp] theorem bump_snap (d : Dev) (o : Nat) : (bump d o).regs.snap = d.regs.snap := rfl

/-! ### shSet -/

@[simp] theorem shSet_epc (d : Dev) (o : Nat) (w : Word) : (shSet d o w).epc = d.epc := rfl
@[simp] theorem shSet_err (d : Dev) (o : Nat) (w : Word) : (shSet d o w).err = d.err := rfl
@[simp] theorem shSet_boot (d : Dev) (o : Nat) (w : Word) : (shSet d o w).boot = d.boot := rfl
@[simp] theorem shSet_pmc (d : Dev) (o : Nat) (w : Word) : (shSet d o w).pmc = d.pmc := rfl
@[simp] theorem shSet_mgmt (d : Dev) (o : Nat) (w : Word) : (shSet d o w).mgmt = d.mgmt := rfl
@[simp] theorem shSet_perf (d : Dev) (o : Nat) (w : Word) : (shSet d o w).perf = d.perf := rfl
@[simp] theorem shSet_cap (d : Dev) (o : Nat) (w : Word) : (shSet d o w).cap = d.cap := rfl
@[simp] theorem shSet_gains (d : Dev) (o : Nat) (w : Word) : (shSet d o w).gains = d.gains := rfl
@[simp] theorem shSet_gens (d : Dev) (o : Nat) (w : Word) : (shSet d o w).gens = d.gens := rfl
@[simp] theorem shSet_neti (d : Dev) (o : Nat) (w : Word) : (shSet d o w).neti = d.neti := rfl
@[simp] theorem shSet_neto (d : Dev) (o : Nat) (w : Word) : (shSet d o w).neto = d.neto := rfl
@[simp] theorem shSet_sap (d : Dev) (o : Nat) (w : Word) : (shSet d o w).sap = d.sap := rfl
@[simp] theorem shSet_cnd (d : Dev) (o : Nat) (w : Word) : (shSet d o w).cnd = d.cnd := rfl
@[simp] theorem shSet_obj (d : Dev) (o : Nat) (w : Word) : (shSet d o w).obj = d.obj := rfl
@[simp] theorem shSet_geo (d : Dev) (o : Nat) (w : Word) : (shSet d o w).geo = d.geo := rfl
@[simp] theorem shSet_xp (d : Dev) (o : Nat) (w : Word) : (shSet d o w).xp = d.xp := rfl
@[simp] theorem shSet_rc (d : Dev) (o : Nat) (w : Word) : (shSet d o w).rc = d.rc := rfl
@[simp] theorem shSet_vec (d : Dev) (o : Nat) (w : Word) : (shSet d o w).vec = d.vec := rfl
@[simp] theorem shSet_moon (d : Dev) (o : Nat) (w : Word) : (shSet d o w).moon = d.moon := rfl
@[simp] theorem shSet_twn (d : Dev) (o : Nat) (w : Word) : (shSet d o w).twn = d.twn := rfl
@[simp] theorem shSet_wd (d : Dev) (o : Nat) (w : Word) : (shSet d o w).wd = d.wd := rfl
@[simp] theorem shSet_evt (d : Dev) (o : Nat) (w : Word) : (shSet d o w).evt = d.evt := rfl
@[simp] theorem shSet_mem (d : Dev) (o : Nat) (w : Word) : (shSet d o w).mem = d.mem := rfl
@[simp] theorem shSet_dram0 (d : Dev) (o : Nat) (w : Word) : (shSet d o w).dram0 = d.dram0 := rfl
@[simp] theorem shSet_dram1 (d : Dev) (o : Nat) (w : Word) : (shSet d o w).dram1 = d.dram1 := rfl
@[simp] theorem shSet_xbar (d : Dev) (o : Nat) (w : Word) : (shSet d o w).xbar = d.xbar := rfl
@[simp] theorem shSet_ptpi (d : Dev) (o : Nat) (w : Word) : (shSet d o w).ptpi = d.ptpi := rfl
@[simp] theorem shSet_ptpo (d : Dev) (o : Nat) (w : Word) : (shSet d o w).ptpo = d.ptpo := rfl
@[simp] theorem shSet_servo (d : Dev) (o : Nat) (w : Word) : (shSet d o w).servo = d.servo := rfl
@[simp] theorem shSet_clk (d : Dev) (o : Nat) (w : Word) : (shSet d o w).clk = d.clk := rfl
@[simp] theorem shSet_path (d : Dev) (o : Nat) (w : Word) : (shSet d o w).path = d.path := rfl
@[simp] theorem shSet_act (d : Dev) (o : Nat) (w : Word) : (shSet d o w).regs.act = d.regs.act := rfl
@[simp] theorem shSet_snap (d : Dev) (o : Nat) (w : Word) : (shSet d o w).regs.snap = d.regs.snap := rfl
@[simp] theorem shSet_live (d : Dev) (o : Nat) (w : Word) : (shSet d o w).regs.live = d.regs.live := rfl

/-! ### actSet -/

@[simp] theorem actSet_epc (d : Dev) (o : Nat) (w : Word) : (actSet d o w).epc = d.epc := rfl
@[simp] theorem actSet_err (d : Dev) (o : Nat) (w : Word) : (actSet d o w).err = d.err := rfl
@[simp] theorem actSet_boot (d : Dev) (o : Nat) (w : Word) : (actSet d o w).boot = d.boot := rfl
@[simp] theorem actSet_pmc (d : Dev) (o : Nat) (w : Word) : (actSet d o w).pmc = d.pmc := rfl
@[simp] theorem actSet_mgmt (d : Dev) (o : Nat) (w : Word) : (actSet d o w).mgmt = d.mgmt := rfl
@[simp] theorem actSet_perf (d : Dev) (o : Nat) (w : Word) : (actSet d o w).perf = d.perf := rfl
@[simp] theorem actSet_cap (d : Dev) (o : Nat) (w : Word) : (actSet d o w).cap = d.cap := rfl
@[simp] theorem actSet_gains (d : Dev) (o : Nat) (w : Word) : (actSet d o w).gains = d.gains := rfl
@[simp] theorem actSet_gens (d : Dev) (o : Nat) (w : Word) : (actSet d o w).gens = d.gens := rfl
@[simp] theorem actSet_neti (d : Dev) (o : Nat) (w : Word) : (actSet d o w).neti = d.neti := rfl
@[simp] theorem actSet_neto (d : Dev) (o : Nat) (w : Word) : (actSet d o w).neto = d.neto := rfl
@[simp] theorem actSet_sap (d : Dev) (o : Nat) (w : Word) : (actSet d o w).sap = d.sap := rfl
@[simp] theorem actSet_cnd (d : Dev) (o : Nat) (w : Word) : (actSet d o w).cnd = d.cnd := rfl
@[simp] theorem actSet_obj (d : Dev) (o : Nat) (w : Word) : (actSet d o w).obj = d.obj := rfl
@[simp] theorem actSet_geo (d : Dev) (o : Nat) (w : Word) : (actSet d o w).geo = d.geo := rfl
@[simp] theorem actSet_xp (d : Dev) (o : Nat) (w : Word) : (actSet d o w).xp = d.xp := rfl
@[simp] theorem actSet_rc (d : Dev) (o : Nat) (w : Word) : (actSet d o w).rc = d.rc := rfl
@[simp] theorem actSet_vec (d : Dev) (o : Nat) (w : Word) : (actSet d o w).vec = d.vec := rfl
@[simp] theorem actSet_moon (d : Dev) (o : Nat) (w : Word) : (actSet d o w).moon = d.moon := rfl
@[simp] theorem actSet_twn (d : Dev) (o : Nat) (w : Word) : (actSet d o w).twn = d.twn := rfl
@[simp] theorem actSet_wd (d : Dev) (o : Nat) (w : Word) : (actSet d o w).wd = d.wd := rfl
@[simp] theorem actSet_evt (d : Dev) (o : Nat) (w : Word) : (actSet d o w).evt = d.evt := rfl
@[simp] theorem actSet_mem (d : Dev) (o : Nat) (w : Word) : (actSet d o w).mem = d.mem := rfl
@[simp] theorem actSet_dram0 (d : Dev) (o : Nat) (w : Word) : (actSet d o w).dram0 = d.dram0 := rfl
@[simp] theorem actSet_dram1 (d : Dev) (o : Nat) (w : Word) : (actSet d o w).dram1 = d.dram1 := rfl
@[simp] theorem actSet_xbar (d : Dev) (o : Nat) (w : Word) : (actSet d o w).xbar = d.xbar := rfl
@[simp] theorem actSet_ptpi (d : Dev) (o : Nat) (w : Word) : (actSet d o w).ptpi = d.ptpi := rfl
@[simp] theorem actSet_ptpo (d : Dev) (o : Nat) (w : Word) : (actSet d o w).ptpo = d.ptpo := rfl
@[simp] theorem actSet_servo (d : Dev) (o : Nat) (w : Word) : (actSet d o w).servo = d.servo := rfl
@[simp] theorem actSet_clk (d : Dev) (o : Nat) (w : Word) : (actSet d o w).clk = d.clk := rfl
@[simp] theorem actSet_path (d : Dev) (o : Nat) (w : Word) : (actSet d o w).path = d.path := rfl
@[simp] theorem actSet_shadow (d : Dev) (o : Nat) (w : Word) : (actSet d o w).regs.shadow = d.regs.shadow := rfl
@[simp] theorem actSet_snap (d : Dev) (o : Nat) (w : Word) : (actSet d o w).regs.snap = d.regs.snap := rfl
@[simp] theorem actSet_live (d : Dev) (o : Nat) (w : Word) : (actSet d o w).regs.live = d.regs.live := rfl

/-! ### setPlane -/

@[simp] theorem setPlane_regs (d : Dev) (x : Nat) (p : Plane) : (setPlane d x p).regs = d.regs := by unfold setPlane; split <;> rfl
@[simp] theorem setPlane_epc (d : Dev) (x : Nat) (p : Plane) : (setPlane d x p).epc = d.epc := by unfold setPlane; split <;> rfl
@[simp] theorem setPlane_err (d : Dev) (x : Nat) (p : Plane) : (setPlane d x p).err = d.err := by unfold setPlane; split <;> rfl
@[simp] theorem setPlane_boot (d : Dev) (x : Nat) (p : Plane) : (setPlane d x p).boot = d.boot := by unfold setPlane; split <;> rfl
@[simp] theorem setPlane_pmc (d : Dev) (x : Nat) (p : Plane) : (setPlane d x p).pmc = d.pmc := by unfold setPlane; split <;> rfl
@[simp] theorem setPlane_mgmt (d : Dev) (x : Nat) (p : Plane) : (setPlane d x p).mgmt = d.mgmt := by unfold setPlane; split <;> rfl
@[simp] theorem setPlane_perf (d : Dev) (x : Nat) (p : Plane) : (setPlane d x p).perf = d.perf := by unfold setPlane; split <;> rfl
@[simp] theorem setPlane_cap (d : Dev) (x : Nat) (p : Plane) : (setPlane d x p).cap = d.cap := by unfold setPlane; split <;> rfl
@[simp] theorem setPlane_gains (d : Dev) (x : Nat) (p : Plane) : (setPlane d x p).gains = d.gains := by unfold setPlane; split <;> rfl
@[simp] theorem setPlane_gens (d : Dev) (x : Nat) (p : Plane) : (setPlane d x p).gens = d.gens := by unfold setPlane; split <;> rfl
@[simp] theorem setPlane_sap (d : Dev) (x : Nat) (p : Plane) : (setPlane d x p).sap = d.sap := by unfold setPlane; split <;> rfl
@[simp] theorem setPlane_cnd (d : Dev) (x : Nat) (p : Plane) : (setPlane d x p).cnd = d.cnd := by unfold setPlane; split <;> rfl
@[simp] theorem setPlane_obj (d : Dev) (x : Nat) (p : Plane) : (setPlane d x p).obj = d.obj := by unfold setPlane; split <;> rfl
@[simp] theorem setPlane_geo (d : Dev) (x : Nat) (p : Plane) : (setPlane d x p).geo = d.geo := by unfold setPlane; split <;> rfl
@[simp] theorem setPlane_xp (d : Dev) (x : Nat) (p : Plane) : (setPlane d x p).xp = d.xp := by unfold setPlane; split <;> rfl
@[simp] theorem setPlane_rc (d : Dev) (x : Nat) (p : Plane) : (setPlane d x p).rc = d.rc := by unfold setPlane; split <;> rfl
@[simp] theorem setPlane_vec (d : Dev) (x : Nat) (p : Plane) : (setPlane d x p).vec = d.vec := by unfold setPlane; split <;> rfl
@[simp] theorem setPlane_moon (d : Dev) (x : Nat) (p : Plane) : (setPlane d x p).moon = d.moon := by unfold setPlane; split <;> rfl
@[simp] theorem setPlane_twn (d : Dev) (x : Nat) (p : Plane) : (setPlane d x p).twn = d.twn := by unfold setPlane; split <;> rfl
@[simp] theorem setPlane_wd (d : Dev) (x : Nat) (p : Plane) : (setPlane d x p).wd = d.wd := by unfold setPlane; split <;> rfl
@[simp] theorem setPlane_evt (d : Dev) (x : Nat) (p : Plane) : (setPlane d x p).evt = d.evt := by unfold setPlane; split <;> rfl
@[simp] theorem setPlane_mem (d : Dev) (x : Nat) (p : Plane) : (setPlane d x p).mem = d.mem := by unfold setPlane; split <;> rfl
@[simp] theorem setPlane_dram0 (d : Dev) (x : Nat) (p : Plane) : (setPlane d x p).dram0 = d.dram0 := by unfold setPlane; split <;> rfl
@[simp] theorem setPlane_dram1 (d : Dev) (x : Nat) (p : Plane) : (setPlane d x p).dram1 = d.dram1 := by unfold setPlane; split <;> rfl
@[simp] theorem setPlane_xbar (d : Dev) (x : Nat) (p : Plane) : (setPlane d x p).xbar = d.xbar := by unfold setPlane; split <;> rfl
@[simp] theorem setPlane_ptpi (d : Dev) (x : Nat) (p : Plane) : (setPlane d x p).ptpi = d.ptpi := by unfold setPlane; split <;> rfl
@[simp] theorem setPlane_ptpo (d : Dev) (x : Nat) (p : Plane) : (setPlane d x p).ptpo = d.ptpo := by unfold setPlane; split <;> rfl
@[simp] theorem setPlane_servo (d : Dev) (x : Nat) (p : Plane) : (setPlane d x p).servo = d.servo := by unfold setPlane; split <;> rfl
@[simp] theorem setPlane_clk (d : Dev) (x : Nat) (p : Plane) : (setPlane d x p).clk = d.clk := by unfold setPlane; split <;> rfl
@[simp] theorem setPlane_path (d : Dev) (x : Nat) (p : Plane) : (setPlane d x p).path = d.path := by unfold setPlane; split <;> rfl
@[simp] theorem setPlane_liveGet (d : Dev) (x : Nat) (p : Plane) (off : Nat) : liveGet (setPlane d x p) off = liveGet d off := by unfold setPlane; split <;> rfl
@[simp] theorem setPlane_actGet (d : Dev) (x : Nat) (p : Plane) (off : Nat) : actGet (setPlane d x p) off = actGet d off := by unfold setPlane; split <;> rfl

/-! ### setObj -/

@[simp] theorem setObj_regs (d : Dev) (n : Nat) (x : ObjSlot) : (setObj d n x).regs = d.regs := rfl
@[simp] theorem setObj_epc (d : Dev) (n : Nat) (x : ObjSlot) : (setObj d n x).epc = d.epc := rfl
@[simp] theorem setObj_err (d : Dev) (n : Nat) (x : ObjSlot) : (setObj d n x).err = d.err := rfl
@[simp] theorem setObj_boot (d : Dev) (n : Nat) (x : ObjSlot) : (setObj d n x).boot = d.boot := rfl
@[simp] theorem setObj_pmc (d : Dev) (n : Nat) (x : ObjSlot) : (setObj d n x).pmc = d.pmc := rfl
@[simp] theorem setObj_mgmt (d : Dev) (n : Nat) (x : ObjSlot) : (setObj d n x).mgmt = d.mgmt := rfl
@[simp] theorem setObj_perf (d : Dev) (n : Nat) (x : ObjSlot) : (setObj d n x).perf = d.perf := rfl
@[simp] theorem setObj_cap (d : Dev) (n : Nat) (x : ObjSlot) : (setObj d n x).cap = d.cap := rfl
@[simp] theorem setObj_gains (d : Dev) (n : Nat) (x : ObjSlot) : (setObj d n x).gains = d.gains := rfl
@[simp] theorem setObj_gens (d : Dev) (n : Nat) (x : ObjSlot) : (setObj d n x).gens = d.gens := rfl
@[simp] theorem setObj_neti (d : Dev) (n : Nat) (x : ObjSlot) : (setObj d n x).neti = d.neti := rfl
@[simp] theorem setObj_neto (d : Dev) (n : Nat) (x : ObjSlot) : (setObj d n x).neto = d.neto := rfl
@[simp] theorem setObj_sap (d : Dev) (n : Nat) (x : ObjSlot) : (setObj d n x).sap = d.sap := rfl
@[simp] theorem setObj_cnd (d : Dev) (n : Nat) (x : ObjSlot) : (setObj d n x).cnd = d.cnd := rfl
@[simp] theorem setObj_geo (d : Dev) (n : Nat) (x : ObjSlot) : (setObj d n x).geo = d.geo := rfl
@[simp] theorem setObj_xp (d : Dev) (n : Nat) (x : ObjSlot) : (setObj d n x).xp = d.xp := rfl
@[simp] theorem setObj_rc (d : Dev) (n : Nat) (x : ObjSlot) : (setObj d n x).rc = d.rc := rfl
@[simp] theorem setObj_vec (d : Dev) (n : Nat) (x : ObjSlot) : (setObj d n x).vec = d.vec := rfl
@[simp] theorem setObj_moon (d : Dev) (n : Nat) (x : ObjSlot) : (setObj d n x).moon = d.moon := rfl
@[simp] theorem setObj_twn (d : Dev) (n : Nat) (x : ObjSlot) : (setObj d n x).twn = d.twn := rfl
@[simp] theorem setObj_wd (d : Dev) (n : Nat) (x : ObjSlot) : (setObj d n x).wd = d.wd := rfl
@[simp] theorem setObj_evt (d : Dev) (n : Nat) (x : ObjSlot) : (setObj d n x).evt = d.evt := rfl
@[simp] theorem setObj_mem (d : Dev) (n : Nat) (x : ObjSlot) : (setObj d n x).mem = d.mem := rfl
@[simp] theorem setObj_dram0 (d : Dev) (n : Nat) (x : ObjSlot) : (setObj d n x).dram0 = d.dram0 := rfl
@[simp] theorem setObj_dram1 (d : Dev) (n : Nat) (x : ObjSlot) : (setObj d n x).dram1 = d.dram1 := rfl
@[simp] theorem setObj_xbar (d : Dev) (n : Nat) (x : ObjSlot) : (setObj d n x).xbar = d.xbar := rfl
@[simp] theorem setObj_ptpi (d : Dev) (n : Nat) (x : ObjSlot) : (setObj d n x).ptpi = d.ptpi := rfl
@[simp] theorem setObj_ptpo (d : Dev) (n : Nat) (x : ObjSlot) : (setObj d n x).ptpo = d.ptpo := rfl
@[simp] theorem setObj_servo (d : Dev) (n : Nat) (x : ObjSlot) : (setObj d n x).servo = d.servo := rfl
@[simp] theorem setObj_clk (d : Dev) (n : Nat) (x : ObjSlot) : (setObj d n x).clk = d.clk := rfl
@[simp] theorem setObj_path (d : Dev) (n : Nat) (x : ObjSlot) : (setObj d n x).path = d.path := rfl
@[simp] theorem setObj_liveGet (d : Dev) (n : Nat) (x : ObjSlot) (off : Nat) : liveGet (setObj d n x) off = liveGet d off := rfl
@[simp] theorem setObj_actGet (d : Dev) (n : Nat) (x : ObjSlot) (off : Nat) : actGet (setObj d n x) off = actGet d off := rfl

/-! ### setSrc -/

@[simp] theorem setSrc_regs (d : Dev) (s : Nat) (x : ObjSrc) : (setSrc d s x).regs = d.regs := rfl
@[simp] theorem setSrc_epc (d : Dev) (s : Nat) (x : ObjSrc) : (setSrc d s x).epc = d.epc := rfl
@[simp] theorem setSrc_err (d : Dev) (s : Nat) (x : ObjSrc) : (setSrc d s x).err = d.err := rfl
@[simp] theorem setSrc_boot (d : Dev) (s : Nat) (x : ObjSrc) : (setSrc d s x).boot = d.boot := rfl
@[simp] theorem setSrc_pmc (d : Dev) (s : Nat) (x : ObjSrc) : (setSrc d s x).pmc = d.pmc := rfl
@[simp] theorem setSrc_mgmt (d : Dev) (s : Nat) (x : ObjSrc) : (setSrc d s x).mgmt = d.mgmt := rfl
@[simp] theorem setSrc_perf (d : Dev) (s : Nat) (x : ObjSrc) : (setSrc d s x).perf = d.perf := rfl
@[simp] theorem setSrc_cap (d : Dev) (s : Nat) (x : ObjSrc) : (setSrc d s x).cap = d.cap := rfl
@[simp] theorem setSrc_gains (d : Dev) (s : Nat) (x : ObjSrc) : (setSrc d s x).gains = d.gains := rfl
@[simp] theorem setSrc_gens (d : Dev) (s : Nat) (x : ObjSrc) : (setSrc d s x).gens = d.gens := rfl
@[simp] theorem setSrc_neti (d : Dev) (s : Nat) (x : ObjSrc) : (setSrc d s x).neti = d.neti := rfl
@[simp] theorem setSrc_neto (d : Dev) (s : Nat) (x : ObjSrc) : (setSrc d s x).neto = d.neto := rfl
@[simp] theorem setSrc_sap (d : Dev) (s : Nat) (x : ObjSrc) : (setSrc d s x).sap = d.sap := rfl
@[simp] theorem setSrc_cnd (d : Dev) (s : Nat) (x : ObjSrc) : (setSrc d s x).cnd = d.cnd := rfl
@[simp] theorem setSrc_geo (d : Dev) (s : Nat) (x : ObjSrc) : (setSrc d s x).geo = d.geo := rfl
@[simp] theorem setSrc_xp (d : Dev) (s : Nat) (x : ObjSrc) : (setSrc d s x).xp = d.xp := rfl
@[simp] theorem setSrc_rc (d : Dev) (s : Nat) (x : ObjSrc) : (setSrc d s x).rc = d.rc := rfl
@[simp] theorem setSrc_vec (d : Dev) (s : Nat) (x : ObjSrc) : (setSrc d s x).vec = d.vec := rfl
@[simp] theorem setSrc_moon (d : Dev) (s : Nat) (x : ObjSrc) : (setSrc d s x).moon = d.moon := rfl
@[simp] theorem setSrc_twn (d : Dev) (s : Nat) (x : ObjSrc) : (setSrc d s x).twn = d.twn := rfl
@[simp] theorem setSrc_wd (d : Dev) (s : Nat) (x : ObjSrc) : (setSrc d s x).wd = d.wd := rfl
@[simp] theorem setSrc_evt (d : Dev) (s : Nat) (x : ObjSrc) : (setSrc d s x).evt = d.evt := rfl
@[simp] theorem setSrc_mem (d : Dev) (s : Nat) (x : ObjSrc) : (setSrc d s x).mem = d.mem := rfl
@[simp] theorem setSrc_dram0 (d : Dev) (s : Nat) (x : ObjSrc) : (setSrc d s x).dram0 = d.dram0 := rfl
@[simp] theorem setSrc_dram1 (d : Dev) (s : Nat) (x : ObjSrc) : (setSrc d s x).dram1 = d.dram1 := rfl
@[simp] theorem setSrc_xbar (d : Dev) (s : Nat) (x : ObjSrc) : (setSrc d s x).xbar = d.xbar := rfl
@[simp] theorem setSrc_ptpi (d : Dev) (s : Nat) (x : ObjSrc) : (setSrc d s x).ptpi = d.ptpi := rfl
@[simp] theorem setSrc_ptpo (d : Dev) (s : Nat) (x : ObjSrc) : (setSrc d s x).ptpo = d.ptpo := rfl
@[simp] theorem setSrc_servo (d : Dev) (s : Nat) (x : ObjSrc) : (setSrc d s x).servo = d.servo := rfl
@[simp] theorem setSrc_clk (d : Dev) (s : Nat) (x : ObjSrc) : (setSrc d s x).clk = d.clk := rfl
@[simp] theorem setSrc_path (d : Dev) (s : Nat) (x : ObjSrc) : (setSrc d s x).path = d.path := rfl
@[simp] theorem setSrc_liveGet (d : Dev) (s : Nat) (x : ObjSrc) (off : Nat) : liveGet (setSrc d s x) off = liveGet d off := rfl
@[simp] theorem setSrc_actGet (d : Dev) (s : Nat) (x : ObjSrc) (off : Nat) : actGet (setSrc d s x) off = actGet d off := rfl

/-! ### setGen -/

@[simp] theorem setGen_regs (d : Dev) (g : Nat) (x : Gen) : (setGen d g x).regs = d.regs := rfl
@[simp] theorem setGen_epc (d : Dev) (g : Nat) (x : Gen) : (setGen d g x).epc = d.epc := rfl
@[simp] theorem setGen_err (d : Dev) (g : Nat) (x : Gen) : (setGen d g x).err = d.err := rfl
@[simp] theorem setGen_boot (d : Dev) (g : Nat) (x : Gen) : (setGen d g x).boot = d.boot := rfl
@[simp] theorem setGen_pmc (d : Dev) (g : Nat) (x : Gen) : (setGen d g x).pmc = d.pmc := rfl
@[simp] theorem setGen_mgmt (d : Dev) (g : Nat) (x : Gen) : (setGen d g x).mgmt = d.mgmt := rfl
@[simp] theorem setGen_perf (d : Dev) (g : Nat) (x : Gen) : (setGen d g x).perf = d.perf := rfl
@[simp] theorem setGen_cap (d : Dev) (g : Nat) (x : Gen) : (setGen d g x).cap = d.cap := rfl
@[simp] theorem setGen_gains (d : Dev) (g : Nat) (x : Gen) : (setGen d g x).gains = d.gains := rfl
@[simp] theorem setGen_neti (d : Dev) (g : Nat) (x : Gen) : (setGen d g x).neti = d.neti := rfl
@[simp] theorem setGen_neto (d : Dev) (g : Nat) (x : Gen) : (setGen d g x).neto = d.neto := rfl
@[simp] theorem setGen_sap (d : Dev) (g : Nat) (x : Gen) : (setGen d g x).sap = d.sap := rfl
@[simp] theorem setGen_cnd (d : Dev) (g : Nat) (x : Gen) : (setGen d g x).cnd = d.cnd := rfl
@[simp] theorem setGen_obj (d : Dev) (g : Nat) (x : Gen) : (setGen d g x).obj = d.obj := rfl
@[simp] theorem setGen_geo (d : Dev) (g : Nat) (x : Gen) : (setGen d g x).geo = d.geo := rfl
@[simp] theorem setGen_xp (d : Dev) (g : Nat) (x : Gen) : (setGen d g x).xp = d.xp := rfl
@[simp] theorem setGen_rc (d : Dev) (g : Nat) (x : Gen) : (setGen d g x).rc = d.rc := rfl
@[simp] theorem setGen_vec (d : Dev) (g : Nat) (x : Gen) : (setGen d g x).vec = d.vec := rfl
@[simp] theorem setGen_moon (d : Dev) (g : Nat) (x : Gen) : (setGen d g x).moon = d.moon := rfl
@[simp] theorem setGen_twn (d : Dev) (g : Nat) (x : Gen) : (setGen d g x).twn = d.twn := rfl
@[simp] theorem setGen_wd (d : Dev) (g : Nat) (x : Gen) : (setGen d g x).wd = d.wd := rfl
@[simp] theorem setGen_evt (d : Dev) (g : Nat) (x : Gen) : (setGen d g x).evt = d.evt := rfl
@[simp] theorem setGen_mem (d : Dev) (g : Nat) (x : Gen) : (setGen d g x).mem = d.mem := rfl
@[simp] theorem setGen_dram0 (d : Dev) (g : Nat) (x : Gen) : (setGen d g x).dram0 = d.dram0 := rfl
@[simp] theorem setGen_dram1 (d : Dev) (g : Nat) (x : Gen) : (setGen d g x).dram1 = d.dram1 := rfl
@[simp] theorem setGen_xbar (d : Dev) (g : Nat) (x : Gen) : (setGen d g x).xbar = d.xbar := rfl
@[simp] theorem setGen_ptpi (d : Dev) (g : Nat) (x : Gen) : (setGen d g x).ptpi = d.ptpi := rfl
@[simp] theorem setGen_ptpo (d : Dev) (g : Nat) (x : Gen) : (setGen d g x).ptpo = d.ptpo := rfl
@[simp] theorem setGen_servo (d : Dev) (g : Nat) (x : Gen) : (setGen d g x).servo = d.servo := rfl
@[simp] theorem setGen_clk (d : Dev) (g : Nat) (x : Gen) : (setGen d g x).clk = d.clk := rfl
@[simp] theorem setGen_path (d : Dev) (g : Nat) (x : Gen) : (setGen d g x).path = d.path := rfl
@[simp] theorem setGen_liveGet (d : Dev) (g : Nat) (x : Gen) (off : Nat) : liveGet (setGen d g x) off = liveGet d off := rfl
@[simp] theorem setGen_actGet (d : Dev) (g : Nat) (x : Gen) (off : Nat) : actGet (setGen d g x) off = actGet d off := rfl

/-! ### setGain -/

@[simp] theorem setGain_regs (d : Dev) (c : GainCh) (g : GainCell) : (setGain d c g).regs = d.regs := rfl
@[simp] theorem setGain_epc (d : Dev) (c : GainCh) (g : GainCell) : (setGain d c g).epc = d.epc := rfl
@[simp] theorem setGain_err (d : Dev) (c : GainCh) (g : GainCell) : (setGain d c g).err = d.err := rfl
@[simp] theorem setGain_boot (d : Dev) (c : GainCh) (g : GainCell) : (setGain d c g).boot = d.boot := rfl
@[simp] theorem setGain_pmc (d : Dev) (c : GainCh) (g : GainCell) : (setGain d c g).pmc = d.pmc := rfl
@[simp] theorem setGain_mgmt (d : Dev) (c : GainCh) (g : GainCell) : (setGain d c g).mgmt = d.mgmt := rfl
@[simp] theorem setGain_perf (d : Dev) (c : GainCh) (g : GainCell) : (setGain d c g).perf = d.perf := rfl
@[simp] theorem setGain_cap (d : Dev) (c : GainCh) (g : GainCell) : (setGain d c g).cap = d.cap := rfl
@[simp] theorem setGain_gens (d : Dev) (c : GainCh) (g : GainCell) : (setGain d c g).gens = d.gens := rfl
@[simp] theorem setGain_neti (d : Dev) (c : GainCh) (g : GainCell) : (setGain d c g).neti = d.neti := rfl
@[simp] theorem setGain_neto (d : Dev) (c : GainCh) (g : GainCell) : (setGain d c g).neto = d.neto := rfl
@[simp] theorem setGain_sap (d : Dev) (c : GainCh) (g : GainCell) : (setGain d c g).sap = d.sap := rfl
@[simp] theorem setGain_cnd (d : Dev) (c : GainCh) (g : GainCell) : (setGain d c g).cnd = d.cnd := rfl
@[simp] theorem setGain_obj (d : Dev) (c : GainCh) (g : GainCell) : (setGain d c g).obj = d.obj := rfl
@[simp] theorem setGain_geo (d : Dev) (c : GainCh) (g : GainCell) : (setGain d c g).geo = d.geo := rfl
@[simp] theorem setGain_xp (d : Dev) (c : GainCh) (g : GainCell) : (setGain d c g).xp = d.xp := rfl
@[simp] theorem setGain_rc (d : Dev) (c : GainCh) (g : GainCell) : (setGain d c g).rc = d.rc := rfl
@[simp] theorem setGain_vec (d : Dev) (c : GainCh) (g : GainCell) : (setGain d c g).vec = d.vec := rfl
@[simp] theorem setGain_moon (d : Dev) (c : GainCh) (g : GainCell) : (setGain d c g).moon = d.moon := rfl
@[simp] theorem setGain_twn (d : Dev) (c : GainCh) (g : GainCell) : (setGain d c g).twn = d.twn := rfl
@[simp] theorem setGain_wd (d : Dev) (c : GainCh) (g : GainCell) : (setGain d c g).wd = d.wd := rfl
@[simp] theorem setGain_evt (d : Dev) (c : GainCh) (g : GainCell) : (setGain d c g).evt = d.evt := rfl
@[simp] theorem setGain_mem (d : Dev) (c : GainCh) (g : GainCell) : (setGain d c g).mem = d.mem := rfl
@[simp] theorem setGain_dram0 (d : Dev) (c : GainCh) (g : GainCell) : (setGain d c g).dram0 = d.dram0 := rfl
@[simp] theorem setGain_dram1 (d : Dev) (c : GainCh) (g : GainCell) : (setGain d c g).dram1 = d.dram1 := rfl
@[simp] theorem setGain_xbar (d : Dev) (c : GainCh) (g : GainCell) : (setGain d c g).xbar = d.xbar := rfl
@[simp] theorem setGain_ptpi (d : Dev) (c : GainCh) (g : GainCell) : (setGain d c g).ptpi = d.ptpi := rfl
@[simp] theorem setGain_ptpo (d : Dev) (c : GainCh) (g : GainCell) : (setGain d c g).ptpo = d.ptpo := rfl
@[simp] theorem setGain_servo (d : Dev) (c : GainCh) (g : GainCell) : (setGain d c g).servo = d.servo := rfl
@[simp] theorem setGain_clk (d : Dev) (c : GainCh) (g : GainCell) : (setGain d c g).clk = d.clk := rfl
@[simp] theorem setGain_path (d : Dev) (c : GainCh) (g : GainCell) : (setGain d c g).path = d.path := rfl
@[simp] theorem setGain_liveGet (d : Dev) (c : GainCh) (g : GainCell) (off : Nat) : liveGet (setGain d c g) off = liveGet d off := rfl
@[simp] theorem setGain_actGet (d : Dev) (c : GainCh) (g : GainCell) (off : Nat) : actGet (setGain d c g) off = actGet d off := rfl

/-! ### setPort -/

@[simp] theorem setPort_regs (d : Dev) (p : Nat) (x : SapPort) : (setPort d p x).regs = d.regs := rfl
@[simp] theorem setPort_epc (d : Dev) (p : Nat) (x : SapPort) : (setPort d p x).epc = d.epc := rfl
@[simp] theorem setPort_err (d : Dev) (p : Nat) (x : SapPort) : (setPort d p x).err = d.err := rfl
@[simp] theorem setPort_boot (d : Dev) (p : Nat) (x : SapPort) : (setPort d p x).boot = d.boot := rfl
@[simp] theorem setPort_pmc (d : Dev) (p : Nat) (x : SapPort) : (setPort d p x).pmc = d.pmc := rfl
@[simp] theorem setPort_mgmt (d : Dev) (p : Nat) (x : SapPort) : (setPort d p x).mgmt = d.mgmt := rfl
@[simp] theorem setPort_perf (d : Dev) (p : Nat) (x : SapPort) : (setPort d p x).perf = d.perf := rfl
@[simp] theorem setPort_cap (d : Dev) (p : Nat) (x : SapPort) : (setPort d p x).cap = d.cap := rfl
@[simp] theorem setPort_gains (d : Dev) (p : Nat) (x : SapPort) : (setPort d p x).gains = d.gains := rfl
@[simp] theorem setPort_gens (d : Dev) (p : Nat) (x : SapPort) : (setPort d p x).gens = d.gens := rfl
@[simp] theorem setPort_neti (d : Dev) (p : Nat) (x : SapPort) : (setPort d p x).neti = d.neti := rfl
@[simp] theorem setPort_neto (d : Dev) (p : Nat) (x : SapPort) : (setPort d p x).neto = d.neto := rfl
@[simp] theorem setPort_cnd (d : Dev) (p : Nat) (x : SapPort) : (setPort d p x).cnd = d.cnd := rfl
@[simp] theorem setPort_obj (d : Dev) (p : Nat) (x : SapPort) : (setPort d p x).obj = d.obj := rfl
@[simp] theorem setPort_geo (d : Dev) (p : Nat) (x : SapPort) : (setPort d p x).geo = d.geo := rfl
@[simp] theorem setPort_xp (d : Dev) (p : Nat) (x : SapPort) : (setPort d p x).xp = d.xp := rfl
@[simp] theorem setPort_rc (d : Dev) (p : Nat) (x : SapPort) : (setPort d p x).rc = d.rc := rfl
@[simp] theorem setPort_vec (d : Dev) (p : Nat) (x : SapPort) : (setPort d p x).vec = d.vec := rfl
@[simp] theorem setPort_moon (d : Dev) (p : Nat) (x : SapPort) : (setPort d p x).moon = d.moon := rfl
@[simp] theorem setPort_twn (d : Dev) (p : Nat) (x : SapPort) : (setPort d p x).twn = d.twn := rfl
@[simp] theorem setPort_wd (d : Dev) (p : Nat) (x : SapPort) : (setPort d p x).wd = d.wd := rfl
@[simp] theorem setPort_evt (d : Dev) (p : Nat) (x : SapPort) : (setPort d p x).evt = d.evt := rfl
@[simp] theorem setPort_mem (d : Dev) (p : Nat) (x : SapPort) : (setPort d p x).mem = d.mem := rfl
@[simp] theorem setPort_dram0 (d : Dev) (p : Nat) (x : SapPort) : (setPort d p x).dram0 = d.dram0 := rfl
@[simp] theorem setPort_dram1 (d : Dev) (p : Nat) (x : SapPort) : (setPort d p x).dram1 = d.dram1 := rfl
@[simp] theorem setPort_xbar (d : Dev) (p : Nat) (x : SapPort) : (setPort d p x).xbar = d.xbar := rfl
@[simp] theorem setPort_ptpi (d : Dev) (p : Nat) (x : SapPort) : (setPort d p x).ptpi = d.ptpi := rfl
@[simp] theorem setPort_ptpo (d : Dev) (p : Nat) (x : SapPort) : (setPort d p x).ptpo = d.ptpo := rfl
@[simp] theorem setPort_servo (d : Dev) (p : Nat) (x : SapPort) : (setPort d p x).servo = d.servo := rfl
@[simp] theorem setPort_clk (d : Dev) (p : Nat) (x : SapPort) : (setPort d p x).clk = d.clk := rfl
@[simp] theorem setPort_path (d : Dev) (p : Nat) (x : SapPort) : (setPort d p x).path = d.path := rfl
@[simp] theorem setPort_liveGet (d : Dev) (p : Nat) (x : SapPort) (off : Nat) : liveGet (setPort d p x) off = liveGet d off := rfl
@[simp] theorem setPort_actGet (d : Dev) (p : Nat) (x : SapPort) (off : Nat) : actGet (setPort d p x) off = actGet d off := rfl

/-! ### setSlot -/

@[simp] theorem setSlot_regs (d : Dev) (s : Nat) (x : CndSlot) : (setSlot d s x).regs = d.regs := rfl
@[simp] theorem setSlot_epc (d : Dev) (s : Nat) (x : CndSlot) : (setSlot d s x).epc = d.epc := rfl
@[simp] theorem setSlot_err (d : Dev) (s : Nat) (x : CndSlot) : (setSlot d s x).err = d.err := rfl
@[simp] theorem setSlot_boot (d : Dev) (s : Nat) (x : CndSlot) : (setSlot d s x).boot = d.boot := rfl
@[simp] theorem setSlot_pmc (d : Dev) (s : Nat) (x : CndSlot) : (setSlot d s x).pmc = d.pmc := rfl
@[simp] theorem setSlot_mgmt (d : Dev) (s : Nat) (x : CndSlot) : (setSlot d s x).mgmt = d.mgmt := rfl
@[simp] theorem setSlot_perf (d : Dev) (s : Nat) (x : CndSlot) : (setSlot d s x).perf = d.perf := rfl
@[simp] theorem setSlot_cap (d : Dev) (s : Nat) (x : CndSlot) : (setSlot d s x).cap = d.cap := rfl
@[simp] theorem setSlot_gains (d : Dev) (s : Nat) (x : CndSlot) : (setSlot d s x).gains = d.gains := rfl
@[simp] theorem setSlot_gens (d : Dev) (s : Nat) (x : CndSlot) : (setSlot d s x).gens = d.gens := rfl
@[simp] theorem setSlot_neti (d : Dev) (s : Nat) (x : CndSlot) : (setSlot d s x).neti = d.neti := rfl
@[simp] theorem setSlot_neto (d : Dev) (s : Nat) (x : CndSlot) : (setSlot d s x).neto = d.neto := rfl
@[simp] theorem setSlot_sap (d : Dev) (s : Nat) (x : CndSlot) : (setSlot d s x).sap = d.sap := rfl
@[simp] theorem setSlot_obj (d : Dev) (s : Nat) (x : CndSlot) : (setSlot d s x).obj = d.obj := rfl
@[simp] theorem setSlot_geo (d : Dev) (s : Nat) (x : CndSlot) : (setSlot d s x).geo = d.geo := rfl
@[simp] theorem setSlot_xp (d : Dev) (s : Nat) (x : CndSlot) : (setSlot d s x).xp = d.xp := rfl
@[simp] theorem setSlot_rc (d : Dev) (s : Nat) (x : CndSlot) : (setSlot d s x).rc = d.rc := rfl
@[simp] theorem setSlot_vec (d : Dev) (s : Nat) (x : CndSlot) : (setSlot d s x).vec = d.vec := rfl
@[simp] theorem setSlot_moon (d : Dev) (s : Nat) (x : CndSlot) : (setSlot d s x).moon = d.moon := rfl
@[simp] theorem setSlot_twn (d : Dev) (s : Nat) (x : CndSlot) : (setSlot d s x).twn = d.twn := rfl
@[simp] theorem setSlot_wd (d : Dev) (s : Nat) (x : CndSlot) : (setSlot d s x).wd = d.wd := rfl
@[simp] theorem setSlot_evt (d : Dev) (s : Nat) (x : CndSlot) : (setSlot d s x).evt = d.evt := rfl
@[simp] theorem setSlot_mem (d : Dev) (s : Nat) (x : CndSlot) : (setSlot d s x).mem = d.mem := rfl
@[simp] theorem setSlot_dram0 (d : Dev) (s : Nat) (x : CndSlot) : (setSlot d s x).dram0 = d.dram0 := rfl
@[simp] theorem setSlot_dram1 (d : Dev) (s : Nat) (x : CndSlot) : (setSlot d s x).dram1 = d.dram1 := rfl
@[simp] theorem setSlot_xbar (d : Dev) (s : Nat) (x : CndSlot) : (setSlot d s x).xbar = d.xbar := rfl
@[simp] theorem setSlot_ptpi (d : Dev) (s : Nat) (x : CndSlot) : (setSlot d s x).ptpi = d.ptpi := rfl
@[simp] theorem setSlot_ptpo (d : Dev) (s : Nat) (x : CndSlot) : (setSlot d s x).ptpo = d.ptpo := rfl
@[simp] theorem setSlot_servo (d : Dev) (s : Nat) (x : CndSlot) : (setSlot d s x).servo = d.servo := rfl
@[simp] theorem setSlot_clk (d : Dev) (s : Nat) (x : CndSlot) : (setSlot d s x).clk = d.clk := rfl
@[simp] theorem setSlot_path (d : Dev) (s : Nat) (x : CndSlot) : (setSlot d s x).path = d.path := rfl
@[simp] theorem setSlot_liveGet (d : Dev) (s : Nat) (x : CndSlot) (off : Nat) : liveGet (setSlot d s x) off = liveGet d off := rfl
@[simp] theorem setSlot_actGet (d : Dev) (s : Nat) (x : CndSlot) (off : Nat) : actGet (setSlot d s x) off = actGet d off := rfl

/-! ### setMem1 -/

@[simp] theorem setMem1_regs (d : Dev) (m : List (Nat × Byte)) : (setMem1 d m).regs = d.regs := rfl
@[simp] theorem setMem1_epc (d : Dev) (m : List (Nat × Byte)) : (setMem1 d m).epc = d.epc := rfl
@[simp] theorem setMem1_err (d : Dev) (m : List (Nat × Byte)) : (setMem1 d m).err = d.err := rfl
@[simp] theorem setMem1_boot (d : Dev) (m : List (Nat × Byte)) : (setMem1 d m).boot = d.boot := rfl
@[simp] theorem setMem1_pmc (d : Dev) (m : List (Nat × Byte)) : (setMem1 d m).pmc = d.pmc := rfl
@[simp] theorem setMem1_mgmt (d : Dev) (m : List (Nat × Byte)) : (setMem1 d m).mgmt = d.mgmt := rfl
@[simp] theorem setMem1_perf (d : Dev) (m : List (Nat × Byte)) : (setMem1 d m).perf = d.perf := rfl
@[simp] theorem setMem1_cap (d : Dev) (m : List (Nat × Byte)) : (setMem1 d m).cap = d.cap := rfl
@[simp] theorem setMem1_gains (d : Dev) (m : List (Nat × Byte)) : (setMem1 d m).gains = d.gains := rfl
@[simp] theorem setMem1_gens (d : Dev) (m : List (Nat × Byte)) : (setMem1 d m).gens = d.gens := rfl
@[simp] theorem setMem1_neti (d : Dev) (m : List (Nat × Byte)) : (setMem1 d m).neti = d.neti := rfl
@[simp] theorem setMem1_neto (d : Dev) (m : List (Nat × Byte)) : (setMem1 d m).neto = d.neto := rfl
@[simp] theorem setMem1_sap (d : Dev) (m : List (Nat × Byte)) : (setMem1 d m).sap = d.sap := rfl
@[simp] theorem setMem1_cnd (d : Dev) (m : List (Nat × Byte)) : (setMem1 d m).cnd = d.cnd := rfl
@[simp] theorem setMem1_obj (d : Dev) (m : List (Nat × Byte)) : (setMem1 d m).obj = d.obj := rfl
@[simp] theorem setMem1_geo (d : Dev) (m : List (Nat × Byte)) : (setMem1 d m).geo = d.geo := rfl
@[simp] theorem setMem1_xp (d : Dev) (m : List (Nat × Byte)) : (setMem1 d m).xp = d.xp := rfl
@[simp] theorem setMem1_rc (d : Dev) (m : List (Nat × Byte)) : (setMem1 d m).rc = d.rc := rfl
@[simp] theorem setMem1_vec (d : Dev) (m : List (Nat × Byte)) : (setMem1 d m).vec = d.vec := rfl
@[simp] theorem setMem1_moon (d : Dev) (m : List (Nat × Byte)) : (setMem1 d m).moon = d.moon := rfl
@[simp] theorem setMem1_twn (d : Dev) (m : List (Nat × Byte)) : (setMem1 d m).twn = d.twn := rfl
@[simp] theorem setMem1_wd (d : Dev) (m : List (Nat × Byte)) : (setMem1 d m).wd = d.wd := rfl
@[simp] theorem setMem1_evt (d : Dev) (m : List (Nat × Byte)) : (setMem1 d m).evt = d.evt := rfl
@[simp] theorem setMem1_dram0 (d : Dev) (m : List (Nat × Byte)) : (setMem1 d m).dram0 = d.dram0 := rfl
@[simp] theorem setMem1_dram1 (d : Dev) (m : List (Nat × Byte)) : (setMem1 d m).dram1 = d.dram1 := rfl
@[simp] theorem setMem1_xbar (d : Dev) (m : List (Nat × Byte)) : (setMem1 d m).xbar = d.xbar := rfl
@[simp] theorem setMem1_ptpi (d : Dev) (m : List (Nat × Byte)) : (setMem1 d m).ptpi = d.ptpi := rfl
@[simp] theorem setMem1_ptpo (d : Dev) (m : List (Nat × Byte)) : (setMem1 d m).ptpo = d.ptpo := rfl
@[simp] theorem setMem1_servo (d : Dev) (m : List (Nat × Byte)) : (setMem1 d m).servo = d.servo := rfl
@[simp] theorem setMem1_clk (d : Dev) (m : List (Nat × Byte)) : (setMem1 d m).clk = d.clk := rfl
@[simp] theorem setMem1_path (d : Dev) (m : List (Nat × Byte)) : (setMem1 d m).path = d.path := rfl
@[simp] theorem setMem1_liveGet (d : Dev) (m : List (Nat × Byte)) (off : Nat) : liveGet (setMem1 d m) off = liveGet d off := rfl
@[simp] theorem setMem1_actGet (d : Dev) (m : List (Nat × Byte)) (off : Nat) : actGet (setMem1 d m) off = actGet d off := rfl

/-! ### setCore -/

@[simp] theorem setCore_regs (d : Dev) (core : Nat) (c : VecCore) : (setCore d core c).regs = d.regs := rfl
@[simp] theorem setCore_epc (d : Dev) (core : Nat) (c : VecCore) : (setCore d core c).epc = d.epc := rfl
@[simp] theorem setCore_err (d : Dev) (core : Nat) (c : VecCore) : (setCore d core c).err = d.err := rfl
@[simp] theorem setCore_boot (d : Dev) (core : Nat) (c : VecCore) : (setCore d core c).boot = d.boot := rfl
@[simp] theorem setCore_pmc (d : Dev) (core : Nat) (c : VecCore) : (setCore d core c).pmc = d.pmc := rfl
@[simp] theorem setCore_mgmt (d : Dev) (core : Nat) (c : VecCore) : (setCore d core c).mgmt = d.mgmt := rfl
@[simp] theorem setCore_perf (d : Dev) (core : Nat) (c : VecCore) : (setCore d core c).perf = d.perf := rfl
@[simp] theorem setCore_cap (d : Dev) (core : Nat) (c : VecCore) : (setCore d core c).cap = d.cap := rfl
@[simp] theorem setCore_gains (d : Dev) (core : Nat) (c : VecCore) : (setCore d core c).gains = d.gains := rfl
@[simp] theorem setCore_gens (d : Dev) (core : Nat) (c : VecCore) : (setCore d core c).gens = d.gens := rfl
@[simp] theorem setCore_neti (d : Dev) (core : Nat) (c : VecCore) : (setCore d core c).neti = d.neti := rfl
@[simp] theorem setCore_neto (d : Dev) (core : Nat) (c : VecCore) : (setCore d core c).neto = d.neto := rfl
@[simp] theorem setCore_sap (d : Dev) (core : Nat) (c : VecCore) : (setCore d core c).sap = d.sap := rfl
@[simp] theorem setCore_cnd (d : Dev) (core : Nat) (c : VecCore) : (setCore d core c).cnd = d.cnd := rfl
@[simp] theorem setCore_obj (d : Dev) (core : Nat) (c : VecCore) : (setCore d core c).obj = d.obj := rfl
@[simp] theorem setCore_geo (d : Dev) (core : Nat) (c : VecCore) : (setCore d core c).geo = d.geo := rfl
@[simp] theorem setCore_xp (d : Dev) (core : Nat) (c : VecCore) : (setCore d core c).xp = d.xp := rfl
@[simp] theorem setCore_rc (d : Dev) (core : Nat) (c : VecCore) : (setCore d core c).rc = d.rc := rfl
@[simp] theorem setCore_moon (d : Dev) (core : Nat) (c : VecCore) : (setCore d core c).moon = d.moon := rfl
@[simp] theorem setCore_twn (d : Dev) (core : Nat) (c : VecCore) : (setCore d core c).twn = d.twn := rfl
@[simp] theorem setCore_wd (d : Dev) (core : Nat) (c : VecCore) : (setCore d core c).wd = d.wd := rfl
@[simp] theorem setCore_evt (d : Dev) (core : Nat) (c : VecCore) : (setCore d core c).evt = d.evt := rfl
@[simp] theorem setCore_mem (d : Dev) (core : Nat) (c : VecCore) : (setCore d core c).mem = d.mem := rfl
@[simp] theorem setCore_dram0 (d : Dev) (core : Nat) (c : VecCore) : (setCore d core c).dram0 = d.dram0 := rfl
@[simp] theorem setCore_dram1 (d : Dev) (core : Nat) (c : VecCore) : (setCore d core c).dram1 = d.dram1 := rfl
@[simp] theorem setCore_xbar (d : Dev) (core : Nat) (c : VecCore) : (setCore d core c).xbar = d.xbar := rfl
@[simp] theorem setCore_ptpi (d : Dev) (core : Nat) (c : VecCore) : (setCore d core c).ptpi = d.ptpi := rfl
@[simp] theorem setCore_ptpo (d : Dev) (core : Nat) (c : VecCore) : (setCore d core c).ptpo = d.ptpo := rfl
@[simp] theorem setCore_servo (d : Dev) (core : Nat) (c : VecCore) : (setCore d core c).servo = d.servo := rfl
@[simp] theorem setCore_clk (d : Dev) (core : Nat) (c : VecCore) : (setCore d core c).clk = d.clk := rfl
@[simp] theorem setCore_path (d : Dev) (core : Nat) (c : VecCore) : (setCore d core c).path = d.path := rfl
@[simp] theorem setCore_liveGet (d : Dev) (core : Nat) (c : VecCore) (off : Nat) : liveGet (setCore d core c) off = liveGet d off := rfl
@[simp] theorem setCore_actGet (d : Dev) (core : Nat) (c : VecCore) (off : Nat) : actGet (setCore d core c) off = actGet d off := rfl

/-! ### setStage -/

@[simp] theorem setStage_regs (d : Dev) (s : Nat) (x : Stage) : (setStage d s x).regs = d.regs := rfl
@[simp] theorem setStage_epc (d : Dev) (s : Nat) (x : Stage) : (setStage d s x).epc = d.epc := rfl
@[simp] theorem setStage_err (d : Dev) (s : Nat) (x : Stage) : (setStage d s x).err = d.err := rfl
@[simp] theorem setStage_boot (d : Dev) (s : Nat) (x : Stage) : (setStage d s x).boot = d.boot := rfl
@[simp] theorem setStage_pmc (d : Dev) (s : Nat) (x : Stage) : (setStage d s x).pmc = d.pmc := rfl
@[simp] theorem setStage_mgmt (d : Dev) (s : Nat) (x : Stage) : (setStage d s x).mgmt = d.mgmt := rfl
@[simp] theorem setStage_perf (d : Dev) (s : Nat) (x : Stage) : (setStage d s x).perf = d.perf := rfl
@[simp] theorem setStage_cap (d : Dev) (s : Nat) (x : Stage) : (setStage d s x).cap = d.cap := rfl
@[simp] theorem setStage_gains (d : Dev) (s : Nat) (x : Stage) : (setStage d s x).gains = d.gains := rfl
@[simp] theorem setStage_gens (d : Dev) (s : Nat) (x : Stage) : (setStage d s x).gens = d.gens := rfl
@[simp] theorem setStage_neti (d : Dev) (s : Nat) (x : Stage) : (setStage d s x).neti = d.neti := rfl
@[simp] theorem setStage_neto (d : Dev) (s : Nat) (x : Stage) : (setStage d s x).neto = d.neto := rfl
@[simp] theorem setStage_sap (d : Dev) (s : Nat) (x : Stage) : (setStage d s x).sap = d.sap := rfl
@[simp] theorem setStage_cnd (d : Dev) (s : Nat) (x : Stage) : (setStage d s x).cnd = d.cnd := rfl
@[simp] theorem setStage_obj (d : Dev) (s : Nat) (x : Stage) : (setStage d s x).obj = d.obj := rfl
@[simp] theorem setStage_geo (d : Dev) (s : Nat) (x : Stage) : (setStage d s x).geo = d.geo := rfl
@[simp] theorem setStage_xp (d : Dev) (s : Nat) (x : Stage) : (setStage d s x).xp = d.xp := rfl
@[simp] theorem setStage_rc (d : Dev) (s : Nat) (x : Stage) : (setStage d s x).rc = d.rc := rfl
@[simp] theorem setStage_vec (d : Dev) (s : Nat) (x : Stage) : (setStage d s x).vec = d.vec := rfl
@[simp] theorem setStage_moon (d : Dev) (s : Nat) (x : Stage) : (setStage d s x).moon = d.moon := rfl
@[simp] theorem setStage_twn (d : Dev) (s : Nat) (x : Stage) : (setStage d s x).twn = d.twn := rfl
@[simp] theorem setStage_evt (d : Dev) (s : Nat) (x : Stage) : (setStage d s x).evt = d.evt := rfl
@[simp] theorem setStage_mem (d : Dev) (s : Nat) (x : Stage) : (setStage d s x).mem = d.mem := rfl
@[simp] theorem setStage_dram0 (d : Dev) (s : Nat) (x : Stage) : (setStage d s x).dram0 = d.dram0 := rfl
@[simp] theorem setStage_dram1 (d : Dev) (s : Nat) (x : Stage) : (setStage d s x).dram1 = d.dram1 := rfl
@[simp] theorem setStage_xbar (d : Dev) (s : Nat) (x : Stage) : (setStage d s x).xbar = d.xbar := rfl
@[simp] theorem setStage_ptpi (d : Dev) (s : Nat) (x : Stage) : (setStage d s x).ptpi = d.ptpi := rfl
@[simp] theorem setStage_ptpo (d : Dev) (s : Nat) (x : Stage) : (setStage d s x).ptpo = d.ptpo := rfl
@[simp] theorem setStage_servo (d : Dev) (s : Nat) (x : Stage) : (setStage d s x).servo = d.servo := rfl
@[simp] theorem setStage_clk (d : Dev) (s : Nat) (x : Stage) : (setStage d s x).clk = d.clk := rfl
@[simp] theorem setStage_path (d : Dev) (s : Nat) (x : Stage) : (setStage d s x).path = d.path := rfl
@[simp] theorem setStage_liveGet (d : Dev) (s : Nat) (x : Stage) (off : Nat) : liveGet (setStage d s x) off = liveGet d off := rfl
@[simp] theorem setStage_actGet (d : Dev) (s : Nat) (x : Stage) (off : Nat) : actGet (setStage d s x) off = actGet d off := rfl

/-! ### setBulk -/

@[simp] theorem setBulk_regs (d : Dev) (n : Nat) (b : BulkState) : (setBulk d n b).regs = d.regs := rfl
@[simp] theorem setBulk_epc (d : Dev) (n : Nat) (b : BulkState) : (setBulk d n b).epc = d.epc := rfl
@[simp] theorem setBulk_err (d : Dev) (n : Nat) (b : BulkState) : (setBulk d n b).err = d.err := rfl
@[simp] theorem setBulk_boot (d : Dev) (n : Nat) (b : BulkState) : (setBulk d n b).boot = d.boot := rfl
@[simp] theorem setBulk_pmc (d : Dev) (n : Nat) (b : BulkState) : (setBulk d n b).pmc = d.pmc := rfl
@[simp] theorem setBulk_mgmt (d : Dev) (n : Nat) (b : BulkState) : (setBulk d n b).mgmt = d.mgmt := rfl
@[simp] theorem setBulk_perf (d : Dev) (n : Nat) (b : BulkState) : (setBulk d n b).perf = d.perf := rfl
@[simp] theorem setBulk_cap (d : Dev) (n : Nat) (b : BulkState) : (setBulk d n b).cap = d.cap := rfl
@[simp] theorem setBulk_gains (d : Dev) (n : Nat) (b : BulkState) : (setBulk d n b).gains = d.gains := rfl
@[simp] theorem setBulk_gens (d : Dev) (n : Nat) (b : BulkState) : (setBulk d n b).gens = d.gens := rfl
@[simp] theorem setBulk_neti (d : Dev) (n : Nat) (b : BulkState) : (setBulk d n b).neti = d.neti := rfl
@[simp] theorem setBulk_neto (d : Dev) (n : Nat) (b : BulkState) : (setBulk d n b).neto = d.neto := rfl
@[simp] theorem setBulk_sap (d : Dev) (n : Nat) (b : BulkState) : (setBulk d n b).sap = d.sap := rfl
@[simp] theorem setBulk_cnd (d : Dev) (n : Nat) (b : BulkState) : (setBulk d n b).cnd = d.cnd := rfl
@[simp] theorem setBulk_obj (d : Dev) (n : Nat) (b : BulkState) : (setBulk d n b).obj = d.obj := rfl
@[simp] theorem setBulk_geo (d : Dev) (n : Nat) (b : BulkState) : (setBulk d n b).geo = d.geo := rfl
@[simp] theorem setBulk_rc (d : Dev) (n : Nat) (b : BulkState) : (setBulk d n b).rc = d.rc := rfl
@[simp] theorem setBulk_vec (d : Dev) (n : Nat) (b : BulkState) : (setBulk d n b).vec = d.vec := rfl
@[simp] theorem setBulk_moon (d : Dev) (n : Nat) (b : BulkState) : (setBulk d n b).moon = d.moon := rfl
@[simp] theorem setBulk_twn (d : Dev) (n : Nat) (b : BulkState) : (setBulk d n b).twn = d.twn := rfl
@[simp] theorem setBulk_wd (d : Dev) (n : Nat) (b : BulkState) : (setBulk d n b).wd = d.wd := rfl
@[simp] theorem setBulk_evt (d : Dev) (n : Nat) (b : BulkState) : (setBulk d n b).evt = d.evt := rfl
@[simp] theorem setBulk_mem (d : Dev) (n : Nat) (b : BulkState) : (setBulk d n b).mem = d.mem := rfl
@[simp] theorem setBulk_dram0 (d : Dev) (n : Nat) (b : BulkState) : (setBulk d n b).dram0 = d.dram0 := rfl
@[simp] theorem setBulk_dram1 (d : Dev) (n : Nat) (b : BulkState) : (setBulk d n b).dram1 = d.dram1 := rfl
@[simp] theorem setBulk_xbar (d : Dev) (n : Nat) (b : BulkState) : (setBulk d n b).xbar = d.xbar := rfl
@[simp] theorem setBulk_ptpi (d : Dev) (n : Nat) (b : BulkState) : (setBulk d n b).ptpi = d.ptpi := rfl
@[simp] theorem setBulk_ptpo (d : Dev) (n : Nat) (b : BulkState) : (setBulk d n b).ptpo = d.ptpo := rfl
@[simp] theorem setBulk_servo (d : Dev) (n : Nat) (b : BulkState) : (setBulk d n b).servo = d.servo := rfl
@[simp] theorem setBulk_clk (d : Dev) (n : Nat) (b : BulkState) : (setBulk d n b).clk = d.clk := rfl
@[simp] theorem setBulk_path (d : Dev) (n : Nat) (b : BulkState) : (setBulk d n b).path = d.path := rfl
@[simp] theorem setBulk_liveGet (d : Dev) (n : Nat) (b : BulkState) (off : Nat) : liveGet (setBulk d n b) off = liveGet d off := rfl
@[simp] theorem setBulk_actGet (d : Dev) (n : Nat) (b : BulkState) (off : Nat) : actGet (setBulk d n b) off = actGet d off := rfl

/-! ### setDram -/

@[simp] theorem setDram_regs (d : Dev) (ch : Nat) (m : Dram) : (setDram d ch m).regs = d.regs := by unfold setDram; split <;> rfl
@[simp] theorem setDram_epc (d : Dev) (ch : Nat) (m : Dram) : (setDram d ch m).epc = d.epc := by unfold setDram; split <;> rfl
@[simp] theorem setDram_err (d : Dev) (ch : Nat) (m : Dram) : (setDram d ch m).err = d.err := by unfold setDram; split <;> rfl
@[simp] theorem setDram_boot (d : Dev) (ch : Nat) (m : Dram) : (setDram d ch m).boot = d.boot := by unfold setDram; split <;> rfl
@[simp] theorem setDram_pmc (d : Dev) (ch : Nat) (m : Dram) : (setDram d ch m).pmc = d.pmc := by unfold setDram; split <;> rfl
@[simp] theorem setDram_mgmt (d : Dev) (ch : Nat) (m : Dram) : (setDram d ch m).mgmt = d.mgmt := by unfold setDram; split <;> rfl
@[simp] theorem setDram_perf (d : Dev) (ch : Nat) (m : Dram) : (setDram d ch m).perf = d.perf := by unfold setDram; split <;> rfl
@[simp] theorem setDram_cap (d : Dev) (ch : Nat) (m : Dram) : (setDram d ch m).cap = d.cap := by unfold setDram; split <;> rfl
@[simp] theorem setDram_gains (d : Dev) (ch : Nat) (m : Dram) : (setDram d ch m).gains = d.gains := by unfold setDram; split <;> rfl
@[simp] theorem setDram_gens (d : Dev) (ch : Nat) (m : Dram) : (setDram d ch m).gens = d.gens := by unfold setDram; split <;> rfl
@[simp] theorem setDram_neti (d : Dev) (ch : Nat) (m : Dram) : (setDram d ch m).neti = d.neti := by unfold setDram; split <;> rfl
@[simp] theorem setDram_neto (d : Dev) (ch : Nat) (m : Dram) : (setDram d ch m).neto = d.neto := by unfold setDram; split <;> rfl
@[simp] theorem setDram_sap (d : Dev) (ch : Nat) (m : Dram) : (setDram d ch m).sap = d.sap := by unfold setDram; split <;> rfl
@[simp] theorem setDram_cnd (d : Dev) (ch : Nat) (m : Dram) : (setDram d ch m).cnd = d.cnd := by unfold setDram; split <;> rfl
@[simp] theorem setDram_obj (d : Dev) (ch : Nat) (m : Dram) : (setDram d ch m).obj = d.obj := by unfold setDram; split <;> rfl
@[simp] theorem setDram_geo (d : Dev) (ch : Nat) (m : Dram) : (setDram d ch m).geo = d.geo := by unfold setDram; split <;> rfl
@[simp] theorem setDram_xp (d : Dev) (ch : Nat) (m : Dram) : (setDram d ch m).xp = d.xp := by unfold setDram; split <;> rfl
@[simp] theorem setDram_rc (d : Dev) (ch : Nat) (m : Dram) : (setDram d ch m).rc = d.rc := by unfold setDram; split <;> rfl
@[simp] theorem setDram_vec (d : Dev) (ch : Nat) (m : Dram) : (setDram d ch m).vec = d.vec := by unfold setDram; split <;> rfl
@[simp] theorem setDram_moon (d : Dev) (ch : Nat) (m : Dram) : (setDram d ch m).moon = d.moon := by unfold setDram; split <;> rfl
@[simp] theorem setDram_twn (d : Dev) (ch : Nat) (m : Dram) : (setDram d ch m).twn = d.twn := by unfold setDram; split <;> rfl
@[simp] theorem setDram_wd (d : Dev) (ch : Nat) (m : Dram) : (setDram d ch m).wd = d.wd := by unfold setDram; split <;> rfl
@[simp] theorem setDram_evt (d : Dev) (ch : Nat) (m : Dram) : (setDram d ch m).evt = d.evt := by unfold setDram; split <;> rfl
@[simp] theorem setDram_mem (d : Dev) (ch : Nat) (m : Dram) : (setDram d ch m).mem = d.mem := by unfold setDram; split <;> rfl
@[simp] theorem setDram_xbar (d : Dev) (ch : Nat) (m : Dram) : (setDram d ch m).xbar = d.xbar := by unfold setDram; split <;> rfl
@[simp] theorem setDram_ptpi (d : Dev) (ch : Nat) (m : Dram) : (setDram d ch m).ptpi = d.ptpi := by unfold setDram; split <;> rfl
@[simp] theorem setDram_ptpo (d : Dev) (ch : Nat) (m : Dram) : (setDram d ch m).ptpo = d.ptpo := by unfold setDram; split <;> rfl
@[simp] theorem setDram_servo (d : Dev) (ch : Nat) (m : Dram) : (setDram d ch m).servo = d.servo := by unfold setDram; split <;> rfl
@[simp] theorem setDram_clk (d : Dev) (ch : Nat) (m : Dram) : (setDram d ch m).clk = d.clk := by unfold setDram; split <;> rfl
@[simp] theorem setDram_path (d : Dev) (ch : Nat) (m : Dram) : (setDram d ch m).path = d.path := by unfold setDram; split <;> rfl
@[simp] theorem setDram_liveGet (d : Dev) (ch : Nat) (m : Dram) (off : Nat) : liveGet (setDram d ch m) off = liveGet d off := by unfold setDram; split <;> rfl
@[simp] theorem setDram_actGet (d : Dev) (ch : Nat) (m : Dram) (off : Nat) : actGet (setDram d ch m) off = actGet d off := by unfold setDram; split <;> rfl

/-! ### setPtp -/

@[simp] theorem setPtp_regs (d : Dev) (x : Nat) (p : PtpInst) : (setPtp d x p).regs = d.regs := by unfold setPtp; split <;> rfl
@[simp] theorem setPtp_epc (d : Dev) (x : Nat) (p : PtpInst) : (setPtp d x p).epc = d.epc := by unfold setPtp; split <;> rfl
@[simp] theorem setPtp_err (d : Dev) (x : Nat) (p : PtpInst) : (setPtp d x p).err = d.err := by unfold setPtp; split <;> rfl
@[simp] theorem setPtp_boot (d : Dev) (x : Nat) (p : PtpInst) : (setPtp d x p).boot = d.boot := by unfold setPtp; split <;> rfl
@[simp] theorem setPtp_pmc (d : Dev) (x : Nat) (p : PtpInst) : (setPtp d x p).pmc = d.pmc := by unfold setPtp; split <;> rfl
@[simp] theorem setPtp_mgmt (d : Dev) (x : Nat) (p : PtpInst) : (setPtp d x p).mgmt = d.mgmt := by unfold setPtp; split <;> rfl
@[simp] theorem setPtp_perf (d : Dev) (x : Nat) (p : PtpInst) : (setPtp d x p).perf = d.perf := by unfold setPtp; split <;> rfl
@[simp] theorem setPtp_cap (d : Dev) (x : Nat) (p : PtpInst) : (setPtp d x p).cap = d.cap := by unfold setPtp; split <;> rfl
@[simp] theorem setPtp_gains (d : Dev) (x : Nat) (p : PtpInst) : (setPtp d x p).gains = d.gains := by unfold setPtp; split <;> rfl
@[simp] theorem setPtp_gens (d : Dev) (x : Nat) (p : PtpInst) : (setPtp d x p).gens = d.gens := by unfold setPtp; split <;> rfl
@[simp] theorem setPtp_neti (d : Dev) (x : Nat) (p : PtpInst) : (setPtp d x p).neti = d.neti := by unfold setPtp; split <;> rfl
@[simp] theorem setPtp_neto (d : Dev) (x : Nat) (p : PtpInst) : (setPtp d x p).neto = d.neto := by unfold setPtp; split <;> rfl
@[simp] theorem setPtp_sap (d : Dev) (x : Nat) (p : PtpInst) : (setPtp d x p).sap = d.sap := by unfold setPtp; split <;> rfl
@[simp] theorem setPtp_cnd (d : Dev) (x : Nat) (p : PtpInst) : (setPtp d x p).cnd = d.cnd := by unfold setPtp; split <;> rfl
@[simp] theorem setPtp_obj (d : Dev) (x : Nat) (p : PtpInst) : (setPtp d x p).obj = d.obj := by unfold setPtp; split <;> rfl
@[simp] theorem setPtp_geo (d : Dev) (x : Nat) (p : PtpInst) : (setPtp d x p).geo = d.geo := by unfold setPtp; split <;> rfl
@[simp] theorem setPtp_xp (d : Dev) (x : Nat) (p : PtpInst) : (setPtp d x p).xp = d.xp := by unfold setPtp; split <;> rfl
@[simp] theorem setPtp_rc (d : Dev) (x : Nat) (p : PtpInst) : (setPtp d x p).rc = d.rc := by unfold setPtp; split <;> rfl
@[simp] theorem setPtp_vec (d : Dev) (x : Nat) (p : PtpInst) : (setPtp d x p).vec = d.vec := by unfold setPtp; split <;> rfl
@[simp] theorem setPtp_moon (d : Dev) (x : Nat) (p : PtpInst) : (setPtp d x p).moon = d.moon := by unfold setPtp; split <;> rfl
@[simp] theorem setPtp_twn (d : Dev) (x : Nat) (p : PtpInst) : (setPtp d x p).twn = d.twn := by unfold setPtp; split <;> rfl
@[simp] theorem setPtp_wd (d : Dev) (x : Nat) (p : PtpInst) : (setPtp d x p).wd = d.wd := by unfold setPtp; split <;> rfl
@[simp] theorem setPtp_evt (d : Dev) (x : Nat) (p : PtpInst) : (setPtp d x p).evt = d.evt := by unfold setPtp; split <;> rfl
@[simp] theorem setPtp_mem (d : Dev) (x : Nat) (p : PtpInst) : (setPtp d x p).mem = d.mem := by unfold setPtp; split <;> rfl
@[simp] theorem setPtp_dram0 (d : Dev) (x : Nat) (p : PtpInst) : (setPtp d x p).dram0 = d.dram0 := by unfold setPtp; split <;> rfl
@[simp] theorem setPtp_dram1 (d : Dev) (x : Nat) (p : PtpInst) : (setPtp d x p).dram1 = d.dram1 := by unfold setPtp; split <;> rfl
@[simp] theorem setPtp_xbar (d : Dev) (x : Nat) (p : PtpInst) : (setPtp d x p).xbar = d.xbar := by unfold setPtp; split <;> rfl
@[simp] theorem setPtp_servo (d : Dev) (x : Nat) (p : PtpInst) : (setPtp d x p).servo = d.servo := by unfold setPtp; split <;> rfl
@[simp] theorem setPtp_clk (d : Dev) (x : Nat) (p : PtpInst) : (setPtp d x p).clk = d.clk := by unfold setPtp; split <;> rfl
@[simp] theorem setPtp_path (d : Dev) (x : Nat) (p : PtpInst) : (setPtp d x p).path = d.path := by unfold setPtp; split <;> rfl
@[simp] theorem setPtp_liveGet (d : Dev) (x : Nat) (p : PtpInst) (off : Nat) : liveGet (setPtp d x p) off = liveGet d off := by unfold setPtp; split <;> rfl
@[simp] theorem setPtp_actGet (d : Dev) (x : Nat) (p : PtpInst) (off : Nat) : actGet (setPtp d x p) off = actGet d off := by unfold setPtp; split <;> rfl

/-! ### setTwn -/

@[simp] theorem setTwn_regs (d : Dev) (t : Twn) : (setTwn d t).regs = d.regs := rfl
@[simp] theorem setTwn_epc (d : Dev) (t : Twn) : (setTwn d t).epc = d.epc := rfl
@[simp] theorem setTwn_err (d : Dev) (t : Twn) : (setTwn d t).err = d.err := rfl
@[simp] theorem setTwn_boot (d : Dev) (t : Twn) : (setTwn d t).boot = d.boot := rfl
@[simp] theorem setTwn_pmc (d : Dev) (t : Twn) : (setTwn d t).pmc = d.pmc := rfl
@[simp] theorem setTwn_mgmt (d : Dev) (t : Twn) : (setTwn d t).mgmt = d.mgmt := rfl
@[simp] theorem setTwn_perf (d : Dev) (t : Twn) : (setTwn d t).perf = d.perf := rfl
@[simp] theorem setTwn_cap (d : Dev) (t : Twn) : (setTwn d t).cap = d.cap := rfl
@[simp] theorem setTwn_gains (d : Dev) (t : Twn) : (setTwn d t).gains = d.gains := rfl
@[simp] theorem setTwn_gens (d : Dev) (t : Twn) : (setTwn d t).gens = d.gens := rfl
@[simp] theorem setTwn_neti (d : Dev) (t : Twn) : (setTwn d t).neti = d.neti := rfl
@[simp] theorem setTwn_neto (d : Dev) (t : Twn) : (setTwn d t).neto = d.neto := rfl
@[simp] theorem setTwn_sap (d : Dev) (t : Twn) : (setTwn d t).sap = d.sap := rfl
@[simp] theorem setTwn_cnd (d : Dev) (t : Twn) : (setTwn d t).cnd = d.cnd := rfl
@[simp] theorem setTwn_obj (d : Dev) (t : Twn) : (setTwn d t).obj = d.obj := rfl
@[simp] theorem setTwn_geo (d : Dev) (t : Twn) : (setTwn d t).geo = d.geo := rfl
@[simp] theorem setTwn_xp (d : Dev) (t : Twn) : (setTwn d t).xp = d.xp := rfl
@[simp] theorem setTwn_rc (d : Dev) (t : Twn) : (setTwn d t).rc = d.rc := rfl
@[simp] theorem setTwn_vec (d : Dev) (t : Twn) : (setTwn d t).vec = d.vec := rfl
@[simp] theorem setTwn_moon (d : Dev) (t : Twn) : (setTwn d t).moon = d.moon := rfl
@[simp] theorem setTwn_wd (d : Dev) (t : Twn) : (setTwn d t).wd = d.wd := rfl
@[simp] theorem setTwn_evt (d : Dev) (t : Twn) : (setTwn d t).evt = d.evt := rfl
@[simp] theorem setTwn_mem (d : Dev) (t : Twn) : (setTwn d t).mem = d.mem := rfl
@[simp] theorem setTwn_dram0 (d : Dev) (t : Twn) : (setTwn d t).dram0 = d.dram0 := rfl
@[simp] theorem setTwn_dram1 (d : Dev) (t : Twn) : (setTwn d t).dram1 = d.dram1 := rfl
@[simp] theorem setTwn_xbar (d : Dev) (t : Twn) : (setTwn d t).xbar = d.xbar := rfl
@[simp] theorem setTwn_ptpi (d : Dev) (t : Twn) : (setTwn d t).ptpi = d.ptpi := rfl
@[simp] theorem setTwn_ptpo (d : Dev) (t : Twn) : (setTwn d t).ptpo = d.ptpo := rfl
@[simp] theorem setTwn_servo (d : Dev) (t : Twn) : (setTwn d t).servo = d.servo := rfl
@[simp] theorem setTwn_clk (d : Dev) (t : Twn) : (setTwn d t).clk = d.clk := rfl
@[simp] theorem setTwn_path (d : Dev) (t : Twn) : (setTwn d t).path = d.path := rfl
@[simp] theorem setTwn_liveGet (d : Dev) (t : Twn) (off : Nat) : liveGet (setTwn d t) off = liveGet d off := rfl
@[simp] theorem setTwn_actGet (d : Dev) (t : Twn) (off : Nat) : actGet (setTwn d t) off = actGet d off := rfl

/-! ### setFollow -/

@[simp] theorem setFollow_regs (d : Dev) (f : Follow) : (setFollow d f).regs = d.regs := rfl
@[simp] theorem setFollow_epc (d : Dev) (f : Follow) : (setFollow d f).epc = d.epc := rfl
@[simp] theorem setFollow_err (d : Dev) (f : Follow) : (setFollow d f).err = d.err := rfl
@[simp] theorem setFollow_boot (d : Dev) (f : Follow) : (setFollow d f).boot = d.boot := rfl
@[simp] theorem setFollow_pmc (d : Dev) (f : Follow) : (setFollow d f).pmc = d.pmc := rfl
@[simp] theorem setFollow_mgmt (d : Dev) (f : Follow) : (setFollow d f).mgmt = d.mgmt := rfl
@[simp] theorem setFollow_perf (d : Dev) (f : Follow) : (setFollow d f).perf = d.perf := rfl
@[simp] theorem setFollow_cap (d : Dev) (f : Follow) : (setFollow d f).cap = d.cap := rfl
@[simp] theorem setFollow_gains (d : Dev) (f : Follow) : (setFollow d f).gains = d.gains := rfl
@[simp] theorem setFollow_gens (d : Dev) (f : Follow) : (setFollow d f).gens = d.gens := rfl
@[simp] theorem setFollow_neti (d : Dev) (f : Follow) : (setFollow d f).neti = d.neti := rfl
@[simp] theorem setFollow_neto (d : Dev) (f : Follow) : (setFollow d f).neto = d.neto := rfl
@[simp] theorem setFollow_cnd (d : Dev) (f : Follow) : (setFollow d f).cnd = d.cnd := rfl
@[simp] theorem setFollow_obj (d : Dev) (f : Follow) : (setFollow d f).obj = d.obj := rfl
@[simp] theorem setFollow_geo (d : Dev) (f : Follow) : (setFollow d f).geo = d.geo := rfl
@[simp] theorem setFollow_xp (d : Dev) (f : Follow) : (setFollow d f).xp = d.xp := rfl
@[simp] theorem setFollow_rc (d : Dev) (f : Follow) : (setFollow d f).rc = d.rc := rfl
@[simp] theorem setFollow_vec (d : Dev) (f : Follow) : (setFollow d f).vec = d.vec := rfl
@[simp] theorem setFollow_moon (d : Dev) (f : Follow) : (setFollow d f).moon = d.moon := rfl
@[simp] theorem setFollow_twn (d : Dev) (f : Follow) : (setFollow d f).twn = d.twn := rfl
@[simp] theorem setFollow_wd (d : Dev) (f : Follow) : (setFollow d f).wd = d.wd := rfl
@[simp] theorem setFollow_evt (d : Dev) (f : Follow) : (setFollow d f).evt = d.evt := rfl
@[simp] theorem setFollow_mem (d : Dev) (f : Follow) : (setFollow d f).mem = d.mem := rfl
@[simp] theorem setFollow_dram0 (d : Dev) (f : Follow) : (setFollow d f).dram0 = d.dram0 := rfl
@[simp] theorem setFollow_dram1 (d : Dev) (f : Follow) : (setFollow d f).dram1 = d.dram1 := rfl
@[simp] theorem setFollow_xbar (d : Dev) (f : Follow) : (setFollow d f).xbar = d.xbar := rfl
@[simp] theorem setFollow_ptpi (d : Dev) (f : Follow) : (setFollow d f).ptpi = d.ptpi := rfl
@[simp] theorem setFollow_ptpo (d : Dev) (f : Follow) : (setFollow d f).ptpo = d.ptpo := rfl
@[simp] theorem setFollow_servo (d : Dev) (f : Follow) : (setFollow d f).servo = d.servo := rfl
@[simp] theorem setFollow_clk (d : Dev) (f : Follow) : (setFollow d f).clk = d.clk := rfl
@[simp] theorem setFollow_path (d : Dev) (f : Follow) : (setFollow d f).path = d.path := rfl
@[simp] theorem setFollow_liveGet (d : Dev) (f : Follow) (off : Nat) : liveGet (setFollow d f) off = liveGet d off := rfl
@[simp] theorem setFollow_actGet (d : Dev) (f : Follow) (off : Nat) : actGet (setFollow d f) off = actGet d off := rfl

/-! ### setMoon -/

@[simp] theorem setMoon_regs (d : Dev) (m : Moon) : (setMoon d m).regs = d.regs := rfl
@[simp] theorem setMoon_epc (d : Dev) (m : Moon) : (setMoon d m).epc = d.epc := rfl
@[simp] theorem setMoon_err (d : Dev) (m : Moon) : (setMoon d m).err = d.err := rfl
@[simp] theorem setMoon_boot (d : Dev) (m : Moon) : (setMoon d m).boot = d.boot := rfl
@[simp] theorem setMoon_pmc (d : Dev) (m : Moon) : (setMoon d m).pmc = d.pmc := rfl
@[simp] theorem setMoon_mgmt (d : Dev) (m : Moon) : (setMoon d m).mgmt = d.mgmt := rfl
@[simp] theorem setMoon_perf (d : Dev) (m : Moon) : (setMoon d m).perf = d.perf := rfl
@[simp] theorem setMoon_cap (d : Dev) (m : Moon) : (setMoon d m).cap = d.cap := rfl
@[simp] theorem setMoon_gains (d : Dev) (m : Moon) : (setMoon d m).gains = d.gains := rfl
@[simp] theorem setMoon_gens (d : Dev) (m : Moon) : (setMoon d m).gens = d.gens := rfl
@[simp] theorem setMoon_neti (d : Dev) (m : Moon) : (setMoon d m).neti = d.neti := rfl
@[simp] theorem setMoon_neto (d : Dev) (m : Moon) : (setMoon d m).neto = d.neto := rfl
@[simp] theorem setMoon_sap (d : Dev) (m : Moon) : (setMoon d m).sap = d.sap := rfl
@[simp] theorem setMoon_cnd (d : Dev) (m : Moon) : (setMoon d m).cnd = d.cnd := rfl
@[simp] theorem setMoon_obj (d : Dev) (m : Moon) : (setMoon d m).obj = d.obj := rfl
@[simp] theorem setMoon_geo (d : Dev) (m : Moon) : (setMoon d m).geo = d.geo := rfl
@[simp] theorem setMoon_xp (d : Dev) (m : Moon) : (setMoon d m).xp = d.xp := rfl
@[simp] theorem setMoon_rc (d : Dev) (m : Moon) : (setMoon d m).rc = d.rc := rfl
@[simp] theorem setMoon_vec (d : Dev) (m : Moon) : (setMoon d m).vec = d.vec := rfl
@[simp] theorem setMoon_twn (d : Dev) (m : Moon) : (setMoon d m).twn = d.twn := rfl
@[simp] theorem setMoon_wd (d : Dev) (m : Moon) : (setMoon d m).wd = d.wd := rfl
@[simp] theorem setMoon_evt (d : Dev) (m : Moon) : (setMoon d m).evt = d.evt := rfl
@[simp] theorem setMoon_mem (d : Dev) (m : Moon) : (setMoon d m).mem = d.mem := rfl
@[simp] theorem setMoon_dram0 (d : Dev) (m : Moon) : (setMoon d m).dram0 = d.dram0 := rfl
@[simp] theorem setMoon_dram1 (d : Dev) (m : Moon) : (setMoon d m).dram1 = d.dram1 := rfl
@[simp] theorem setMoon_xbar (d : Dev) (m : Moon) : (setMoon d m).xbar = d.xbar := rfl
@[simp] theorem setMoon_ptpi (d : Dev) (m : Moon) : (setMoon d m).ptpi = d.ptpi := rfl
@[simp] theorem setMoon_ptpo (d : Dev) (m : Moon) : (setMoon d m).ptpo = d.ptpo := rfl
@[simp] theorem setMoon_servo (d : Dev) (m : Moon) : (setMoon d m).servo = d.servo := rfl
@[simp] theorem setMoon_clk (d : Dev) (m : Moon) : (setMoon d m).clk = d.clk := rfl
@[simp] theorem setMoon_path (d : Dev) (m : Moon) : (setMoon d m).path = d.path := rfl
@[simp] theorem setMoon_liveGet (d : Dev) (m : Moon) (off : Nat) : liveGet (setMoon d m) off = liveGet d off := rfl
@[simp] theorem setMoon_actGet (d : Dev) (m : Moon) (off : Nat) : actGet (setMoon d m) off = actGet d off := rfl

/-! ### setMgmt -/

@[simp] theorem setMgmt_regs (d : Dev) (m : Mgmt) : (setMgmt d m).regs = d.regs := rfl
@[simp] theorem setMgmt_epc (d : Dev) (m : Mgmt) : (setMgmt d m).epc = d.epc := rfl
@[simp] theorem setMgmt_err (d : Dev) (m : Mgmt) : (setMgmt d m).err = d.err := rfl
@[simp] theorem setMgmt_boot (d : Dev) (m : Mgmt) : (setMgmt d m).boot = d.boot := rfl
@[simp] theorem setMgmt_pmc (d : Dev) (m : Mgmt) : (setMgmt d m).pmc = d.pmc := rfl
@[simp] theorem setMgmt_perf (d : Dev) (m : Mgmt) : (setMgmt d m).perf = d.perf := rfl
@[simp] theorem setMgmt_cap (d : Dev) (m : Mgmt) : (setMgmt d m).cap = d.cap := rfl
@[simp] theorem setMgmt_gains (d : Dev) (m : Mgmt) : (setMgmt d m).gains = d.gains := rfl
@[simp] theorem setMgmt_gens (d : Dev) (m : Mgmt) : (setMgmt d m).gens = d.gens := rfl
@[simp] theorem setMgmt_neti (d : Dev) (m : Mgmt) : (setMgmt d m).neti = d.neti := rfl
@[simp] theorem setMgmt_neto (d : Dev) (m : Mgmt) : (setMgmt d m).neto = d.neto := rfl
@[simp] theorem setMgmt_sap (d : Dev) (m : Mgmt) : (setMgmt d m).sap = d.sap := rfl
@[simp] theorem setMgmt_cnd (d : Dev) (m : Mgmt) : (setMgmt d m).cnd = d.cnd := rfl
@[simp] theorem setMgmt_obj (d : Dev) (m : Mgmt) : (setMgmt d m).obj = d.obj := rfl
@[simp] theorem setMgmt_geo (d : Dev) (m : Mgmt) : (setMgmt d m).geo = d.geo := rfl
@[simp] theorem setMgmt_xp (d : Dev) (m : Mgmt) : (setMgmt d m).xp = d.xp := rfl
@[simp] theorem setMgmt_rc (d : Dev) (m : Mgmt) : (setMgmt d m).rc = d.rc := rfl
@[simp] theorem setMgmt_vec (d : Dev) (m : Mgmt) : (setMgmt d m).vec = d.vec := rfl
@[simp] theorem setMgmt_moon (d : Dev) (m : Mgmt) : (setMgmt d m).moon = d.moon := rfl
@[simp] theorem setMgmt_twn (d : Dev) (m : Mgmt) : (setMgmt d m).twn = d.twn := rfl
@[simp] theorem setMgmt_wd (d : Dev) (m : Mgmt) : (setMgmt d m).wd = d.wd := rfl
@[simp] theorem setMgmt_evt (d : Dev) (m : Mgmt) : (setMgmt d m).evt = d.evt := rfl
@[simp] theorem setMgmt_mem (d : Dev) (m : Mgmt) : (setMgmt d m).mem = d.mem := rfl
@[simp] theorem setMgmt_dram0 (d : Dev) (m : Mgmt) : (setMgmt d m).dram0 = d.dram0 := rfl
@[simp] theorem setMgmt_dram1 (d : Dev) (m : Mgmt) : (setMgmt d m).dram1 = d.dram1 := rfl
@[simp] theorem setMgmt_xbar (d : Dev) (m : Mgmt) : (setMgmt d m).xbar = d.xbar := rfl
@[simp] theorem setMgmt_ptpi (d : Dev) (m : Mgmt) : (setMgmt d m).ptpi = d.ptpi := rfl
@[simp] theorem setMgmt_ptpo (d : Dev) (m : Mgmt) : (setMgmt d m).ptpo = d.ptpo := rfl
@[simp] theorem setMgmt_servo (d : Dev) (m : Mgmt) : (setMgmt d m).servo = d.servo := rfl
@[simp] theorem setMgmt_clk (d : Dev) (m : Mgmt) : (setMgmt d m).clk = d.clk := rfl
@[simp] theorem setMgmt_path (d : Dev) (m : Mgmt) : (setMgmt d m).path = d.path := rfl
@[simp] theorem setMgmt_liveGet (d : Dev) (m : Mgmt) (off : Nat) : liveGet (setMgmt d m) off = liveGet d off := rfl
@[simp] theorem setMgmt_actGet (d : Dev) (m : Mgmt) (off : Nat) : actGet (setMgmt d m) off = actGet d off := rfl

/-! ### setFlash -/

@[simp] theorem setFlash_regs (d : Dev) (m : List (Nat × Byte)) : (setFlash d m).regs = d.regs := rfl
@[simp] theorem setFlash_epc (d : Dev) (m : List (Nat × Byte)) : (setFlash d m).epc = d.epc := rfl
@[simp] theorem setFlash_err (d : Dev) (m : List (Nat × Byte)) : (setFlash d m).err = d.err := rfl
@[simp] theorem setFlash_pmc (d : Dev) (m : List (Nat × Byte)) : (setFlash d m).pmc = d.pmc := rfl
@[simp] theorem setFlash_mgmt (d : Dev) (m : List (Nat × Byte)) : (setFlash d m).mgmt = d.mgmt := rfl
@[simp] theorem setFlash_perf (d : Dev) (m : List (Nat × Byte)) : (setFlash d m).perf = d.perf := rfl
@[simp] theorem setFlash_cap (d : Dev) (m : List (Nat × Byte)) : (setFlash d m).cap = d.cap := rfl
@[simp] theorem setFlash_gains (d : Dev) (m : List (Nat × Byte)) : (setFlash d m).gains = d.gains := rfl
@[simp] theorem setFlash_gens (d : Dev) (m : List (Nat × Byte)) : (setFlash d m).gens = d.gens := rfl
@[simp] theorem setFlash_neti (d : Dev) (m : List (Nat × Byte)) : (setFlash d m).neti = d.neti := rfl
@[simp] theorem setFlash_neto (d : Dev) (m : List (Nat × Byte)) : (setFlash d m).neto = d.neto := rfl
@[simp] theorem setFlash_sap (d : Dev) (m : List (Nat × Byte)) : (setFlash d m).sap = d.sap := rfl
@[simp] theorem setFlash_cnd (d : Dev) (m : List (Nat × Byte)) : (setFlash d m).cnd = d.cnd := rfl
@[simp] theorem setFlash_obj (d : Dev) (m : List (Nat × Byte)) : (setFlash d m).obj = d.obj := rfl
@[simp] theorem setFlash_geo (d : Dev) (m : List (Nat × Byte)) : (setFlash d m).geo = d.geo := rfl
@[simp] theorem setFlash_xp (d : Dev) (m : List (Nat × Byte)) : (setFlash d m).xp = d.xp := rfl
@[simp] theorem setFlash_rc (d : Dev) (m : List (Nat × Byte)) : (setFlash d m).rc = d.rc := rfl
@[simp] theorem setFlash_vec (d : Dev) (m : List (Nat × Byte)) : (setFlash d m).vec = d.vec := rfl
@[simp] theorem setFlash_moon (d : Dev) (m : List (Nat × Byte)) : (setFlash d m).moon = d.moon := rfl
@[simp] theorem setFlash_twn (d : Dev) (m : List (Nat × Byte)) : (setFlash d m).twn = d.twn := rfl
@[simp] theorem setFlash_wd (d : Dev) (m : List (Nat × Byte)) : (setFlash d m).wd = d.wd := rfl
@[simp] theorem setFlash_evt (d : Dev) (m : List (Nat × Byte)) : (setFlash d m).evt = d.evt := rfl
@[simp] theorem setFlash_mem (d : Dev) (m : List (Nat × Byte)) : (setFlash d m).mem = d.mem := rfl
@[simp] theorem setFlash_dram0 (d : Dev) (m : List (Nat × Byte)) : (setFlash d m).dram0 = d.dram0 := rfl
@[simp] theorem setFlash_dram1 (d : Dev) (m : List (Nat × Byte)) : (setFlash d m).dram1 = d.dram1 := rfl
@[simp] theorem setFlash_xbar (d : Dev) (m : List (Nat × Byte)) : (setFlash d m).xbar = d.xbar := rfl
@[simp] theorem setFlash_ptpi (d : Dev) (m : List (Nat × Byte)) : (setFlash d m).ptpi = d.ptpi := rfl
@[simp] theorem setFlash_ptpo (d : Dev) (m : List (Nat × Byte)) : (setFlash d m).ptpo = d.ptpo := rfl
@[simp] theorem setFlash_servo (d : Dev) (m : List (Nat × Byte)) : (setFlash d m).servo = d.servo := rfl
@[simp] theorem setFlash_clk (d : Dev) (m : List (Nat × Byte)) : (setFlash d m).clk = d.clk := rfl
@[simp] theorem setFlash_path (d : Dev) (m : List (Nat × Byte)) : (setFlash d m).path = d.path := rfl
@[simp] theorem setFlash_liveGet (d : Dev) (m : List (Nat × Byte)) (off : Nat) : liveGet (setFlash d m) off = liveGet d off := rfl
@[simp] theorem setFlash_actGet (d : Dev) (m : List (Nat × Byte)) (off : Nat) : actGet (setFlash d m) off = actGet d off := rfl

/-! ### An entry after it is set -/

@[simp] theorem plane_setPlane (d : Dev) {x : Nat} (p : Plane) : plane (setPlane d x p) x = p := by
  unfold plane setPlane
  split <;> rfl

theorem plane_setPlane_other (d : Dev) {x y : Nat} (p : Plane) (h : (x = 0) ≠ (y = 0)) : plane (setPlane d x p) y = plane d y := by
  unfold plane setPlane
  by_cases hx : x = 0 <;> by_cases hy : y = 0 <;> simp_all

@[simp] theorem ptp_setPtp (d : Dev) {x : Nat} (p : PtpInst) : ptp (setPtp d x p) x = p := by
  unfold ptp setPtp
  split <;> rfl

theorem ptp_setPtp_other (d : Dev) {x y : Nat} (p : PtpInst) (h : (x = 0) ≠ (y = 0)) : ptp (setPtp d x p) y = ptp d y := by
  unfold ptp setPtp
  by_cases hx : x = 0 <;> by_cases hy : y = 0 <;> simp_all

@[simp] theorem dram_setDram (d : Dev) {ch : Nat} (m : Dram) : dram (setDram d ch m) ch = m := by
  unfold dram setDram
  split <;> rfl

theorem dram_setDram_other (d : Dev) {ch k : Nat} (m : Dram) (h : (ch = 0) ≠ (k = 0)) : dram (setDram d ch m) k = dram d k := by
  unfold dram setDram
  by_cases hx : ch = 0 <;> by_cases hy : k = 0 <;> simp_all

@[simp] theorem getSlot_setSlot (d : Dev) (s : Nat) (x : CndSlot) : getSlot (setSlot d s x) s = x :=
  mapGet_mapIns_self _ _ s x (mapDel_keys d.cnd.slots s)

theorem getSlot_setSlot_other (d : Dev) {s t : Nat} (x : CndSlot) (h : t ≠ s) : getSlot (setSlot d s x) t = getSlot d t := by
  unfold getSlot setSlot
  rw [mapGet_mapIns_other _ _ x h, mapGet_mapDel_other _ _ h]

@[simp] theorem coreOf_setCore (d : Dev) (k : Nat) (x : VecCore) : coreOf (setCore d k x) k = x := mapGet_mapSet_self _ _ _ _

theorem coreOf_setCore_other (d : Dev) {k j : Nat} (x : VecCore) (h : j ≠ k) : coreOf (setCore d k x) j = coreOf d j := mapGet_mapSet_other _ _ _ h

@[simp] theorem getPort_setPort (d : Dev) (k : Nat) (x : SapPort) : getPort (setPort d k x) k = x := mapGet_mapSet_self _ _ _ _

theorem getPort_setPort_other (d : Dev) {k j : Nat} (x : SapPort) (h : j ≠ k) : getPort (setPort d k x) j = getPort d j := mapGet_mapSet_other _ _ _ h

@[simp] theorem getGen_setGen (d : Dev) (k : Nat) (x : Gen) : getGen (setGen d k x) k = x := mapGet_mapSet_self _ _ _ _

theorem getGen_setGen_other (d : Dev) {k j : Nat} (x : Gen) (h : j ≠ k) : getGen (setGen d k x) j = getGen d j := mapGet_mapSet_other _ _ _ h

@[simp] theorem getObj_setObj (d : Dev) (k : Nat) (x : ObjSlot) : getObj (setObj d k x) k = x := mapGet_mapSet_self _ _ _ _

theorem getObj_setObj_other (d : Dev) {k j : Nat} (x : ObjSlot) (h : j ≠ k) : getObj (setObj d k x) j = getObj d j := mapGet_mapSet_other _ _ _ h

@[simp] theorem getSrc_setSrc (d : Dev) (k : Nat) (x : ObjSrc) : getSrc (setSrc d k x) k = x := mapGet_mapSet_self _ _ _ _

theorem getSrc_setSrc_other (d : Dev) {k j : Nat} (x : ObjSrc) (h : j ≠ k) : getSrc (setSrc d k x) j = getSrc d j := mapGet_mapSet_other _ _ _ h

@[simp] theorem stageOf_setStage (d : Dev) (k : Nat) (x : Stage) : stageOf (setStage d k x) k = x := mapGet_mapSet_self _ _ _ _

theorem stageOf_setStage_other (d : Dev) {k j : Nat} (x : Stage) (h : j ≠ k) : stageOf (setStage d k x) j = stageOf d j := mapGet_mapSet_other _ _ _ h

@[simp] theorem getBulk_setBulk (d : Dev) (k : Nat) (x : BulkState) : getBulk (setBulk d k x) k = x := mapGet_mapSet_self _ _ _ _

theorem getBulk_setBulk_other (d : Dev) {k j : Nat} (x : BulkState) (h : j ≠ k) : getBulk (setBulk d k x) j = getBulk d j := mapGet_mapSet_other _ _ _ h

@[simp] theorem getGain_setGain (d : Dev) (c : GainCh) (g : GainCell) : getGain (setGain d c g) c = g := mapGet_mapSet_self _ _ _ _

theorem getGain_setGain_other (d : Dev) {c e : GainCh} (g : GainCell) (h : gainKey e ≠ gainKey c) :
    getGain (setGain d c g) e = getGain d e := mapGet_mapSet_other _ _ _ h


/-! ### Registers of a device whose other fields changed -/

@[simp] theorem liveGet_mk
    (e : Dev) {epc : Epc} {err : Err} {boot : Boot} {pmc : Pmc} {mgmt : Mgmt} {perf : Perf} {cap : Cap} {gains : List
    (Nat × GainCell)} {gens : List (Nat × Gen)} {neti : Plane} {neto : Plane} {sap : Sap} {cnd : Cnd} {obj : Obj} {geo :
    Geo} {xp : Xp} {rc : Rc} {vec : Vec} {moon : Moon} {twn : Twn} {wd : Wd} {evt : Evt} {mem : Mem} {dram0 : Dram} {dram1 :
    Dram} {xbar : Xbar} {ptpi : PtpInst} {ptpo : PtpInst} {servo : Servo} {clk : Clk} {path : Path} {off : Nat} :
    liveGet
      ⟨e.regs, epc, err, boot, pmc, mgmt, perf, cap, gains, gens, neti, neto, sap, cnd, obj, geo, xp, rc, vec, moon,
        twn, wd, evt, mem, dram0, dram1, xbar, ptpi, ptpo, servo, clk, path⟩ off = liveGet e off := rfl

@[simp] theorem shGet_mk
    (e : Dev) {epc : Epc} {err : Err} {boot : Boot} {pmc : Pmc} {mgmt : Mgmt} {perf : Perf} {cap : Cap} {gains : List
    (Nat × GainCell)} {gens : List (Nat × Gen)} {neti : Plane} {neto : Plane} {sap : Sap} {cnd : Cnd} {obj : Obj} {geo :
    Geo} {xp : Xp} {rc : Rc} {vec : Vec} {moon : Moon} {twn : Twn} {wd : Wd} {evt : Evt} {mem : Mem} {dram0 : Dram} {dram1 :
    Dram} {xbar : Xbar} {ptpi : PtpInst} {ptpo : PtpInst} {servo : Servo} {clk : Clk} {path : Path} {off : Nat} :
    shGet
      ⟨e.regs, epc, err, boot, pmc, mgmt, perf, cap, gains, gens, neti, neto, sap, cnd, obj, geo, xp, rc, vec, moon,
        twn, wd, evt, mem, dram0, dram1, xbar, ptpi, ptpo, servo, clk, path⟩ off = shGet e off := rfl

@[simp] theorem actGet_mk
    (e : Dev) {epc : Epc} {err : Err} {boot : Boot} {pmc : Pmc} {mgmt : Mgmt} {perf : Perf} {cap : Cap} {gains : List
    (Nat × GainCell)} {gens : List (Nat × Gen)} {neti : Plane} {neto : Plane} {sap : Sap} {cnd : Cnd} {obj : Obj} {geo :
    Geo} {xp : Xp} {rc : Rc} {vec : Vec} {moon : Moon} {twn : Twn} {wd : Wd} {evt : Evt} {mem : Mem} {dram0 : Dram} {dram1 :
    Dram} {xbar : Xbar} {ptpi : PtpInst} {ptpo : PtpInst} {servo : Servo} {clk : Clk} {path : Path} {off : Nat} :
    actGet
      ⟨e.regs, epc, err, boot, pmc, mgmt, perf, cap, gains, gens, neti, neto, sap, cnd, obj, geo, xp, rc, vec, moon,
        twn, wd, evt, mem, dram0, dram1, xbar, ptpi, ptpo, servo, clk, path⟩ off = actGet e off := rfl

end Sys2Proof.Machine
end

