-- ==== Sys2Proof/Laws/Exec.lean ====
section
/-!
SUPPORT. Sys2Proof/Laws/Exec.lean: what every command's outcome looks like, and how to show that a command completes.
-/
namespace Sys2Proof.Machine

theorem ran_next {s t : State} {f : Dev → Dev} : ran s f = .next t ↔ t = { s with dev := f s.dev } := by
  unfold ran
  constructor
  · intro h; injection h with h; exact h.symm
  · rintro rfl; rfl

theorem ranIf_next {s t : State} {f : Dev → Dev} {ok : Bool} :
    ranIf ok s f = .next t ↔ ok = true ∧ t = { s with dev := f s.dev } := by
  unfold ranIf
  cases ok
  · simp
  · simp [ran_next]

/-- To complete, a command without a unit needs its effect to have the property. -/
theorem runs_ran {c : Instr} {s : State} {f : Dev → Dev} {P : Dev → Prop} (h : exec c s = ran s f) (hp : P (f s.dev)) :
    Runs c s P := ⟨_, h, rfl, hp⟩

/-- To complete, a command with a unit needs the unit to exist and its effect to have the property. -/
theorem runs_ranIf {c : Instr} {s : State} {f : Dev → Dev} {ok : Bool} {P : Dev → Prop} (h : exec c s = ranIf ok s f)
    (hok : ok = true) (hp : P (f s.dev)) : Runs c s P := ⟨{ s with dev := f s.dev }, by rw [h, hok]; rfl, rfl, hp⟩

/-- Every command is an operation on the device, run if the unit it names exists. -/
theorem exec_shape (c : Instr) : ∃ (ok : Bool) (f : Dev → Dev), ∀ s, exec c s = ranIf ok s f := by
  cases c <;> first | exact ⟨_, _, fun _ => rfl⟩ | exact ⟨true, _, fun _ => rfl⟩

/-! ### Which registers a chain of writes leaves -/

theorem RegsBut.refl (ws : List Nat) (d : Dev) : RegsBut ws d d := ⟨fun _ _ => rfl, rfl, rfl, rfl⟩

theorem RegsBut.trans {ws : List Nat} {a b c : Dev} (h : RegsBut ws a b) (k : RegsBut ws b c) : RegsBut ws a c :=
  ⟨fun o ho => (k.live o ho).trans (h.live o ho), k.shadow.trans h.shadow, k.act.trans h.act, k.snap.trans h.snap⟩

theorem RegsBut.liveSet {ws : List Nat} {a b : Dev} {o : Nat} {w : Word} (ho : o ∈ ws) (h : RegsBut ws a b) :
    RegsBut ws a (liveSet b o w) :=
  ⟨fun p hp => (liveGet_liveSet_other b w (fun e => hp (by rw [e]; exact ho))).trans (h.live p hp), h.shadow, h.act, h.snap⟩

theorem RegsBut.liveSetB {ws : List Nat} {a b : Dev} {o i : Nat} {v : Bool} (ho : o ∈ ws) (h : RegsBut ws a b) :
    RegsBut ws a (liveSetB b o i v) := h.liveSet ho

theorem RegsBut.liveSetF {ws : List Nat} {a b : Dev} {o hi lo v : Nat} (ho : o ∈ ws) (h : RegsBut ws a b) :
    RegsBut ws a (liveSetF b o hi lo v) := h.liveSet ho

theorem RegsBut.bump {ws : List Nat} {a b : Dev} {o : Nat} (ho : o ∈ ws) (h : RegsBut ws a b) : RegsBut ws a (bump b o) :=
  h.liveSet ho

/-- A change beside the registers. -/
theorem RegsBut.other {ws : List Nat} {a b c : Dev} (h : RegsBut ws a b) (hr : c.regs = b.regs) : RegsBut ws a c := by
  refine h.trans ⟨fun o _ => ?_, by rw [hr], by rw [hr], by rw [hr]⟩
  unfold liveGet
  rw [hr]

/-- `RegsBut` sees the registers alone. -/
@[simp] theorem RegsBut.mk_eq (ws : List Nat) (a : Dev)
    (e : Dev) {epc : Epc} {err : Err} {boot : Boot} {pmc : Pmc} {mgmt : Mgmt} {perf : Perf} {cap : Cap} {gains : List
    (Nat × GainCell)} {gens : List (Nat × Gen)} {neti : Plane} {neto : Plane} {sap : Sap} {cnd : Cnd} {obj : Obj} {geo :
    Geo} {xp : Xp} {rc : Rc} {vec : Vec} {moon : Moon} {twn : Twn} {wd : Wd} {evt : Evt} {mem : Mem} {dram0 : Dram} {dram1 :
    Dram} {xbar : Xbar} {ptpi : PtpInst} {ptpo : PtpInst} {servo : Servo} {clk : Clk} {path : Path} :
    RegsBut ws a
      ⟨e.regs, epc, err, boot, pmc, mgmt, perf, cap, gains, gens, neti, neto, sap, cnd, obj, geo, xp, rc, vec, moon,
        twn, wd, evt, mem, dram0, dram1, xbar, ptpi, ptpo, servo, clk, path⟩ = RegsBut ws a e :=
  propext ⟨fun h => ⟨h.live, h.shadow, h.act, h.snap⟩, fun h => ⟨h.live, h.shadow, h.act, h.snap⟩⟩

theorem OnlyWords.refl (ws : List Nat) (d : Dev) : OnlyWords ws d d := ⟨.refl _ _, rfl⟩

theorem OnlyWords.trans {ws : List Nat} {a b c : Dev} (h : OnlyWords ws a b) (k : OnlyWords ws b c) : OnlyWords ws a c := by
  refine ⟨h.regs.trans k.regs, ?_⟩
  have h1 := h.rest
  have h2 := k.rest
  rw [← h2] at h1
  exact h1

theorem OnlyWords.liveSet {ws : List Nat} {a b : Dev} {o : Nat} {w : Word} (ho : o ∈ ws) (h : OnlyWords ws a b) :
    OnlyWords ws a (liveSet b o w) := ⟨h.regs.liveSet ho, h.rest⟩

theorem OnlyWords.liveSetB {ws : List Nat} {a b : Dev} {o i : Nat} {v : Bool} (ho : o ∈ ws) (h : OnlyWords ws a b) :
    OnlyWords ws a (liveSetB b o i v) := h.liveSet ho

theorem OnlyWords.liveSetF {ws : List Nat} {a b : Dev} {o hi lo v : Nat} (ho : o ∈ ws) (h : OnlyWords ws a b) :
    OnlyWords ws a (liveSetF b o hi lo v) := h.liveSet ho

theorem OnlyWords.bump {ws : List Nat} {a b : Dev} {o : Nat} (ho : o ∈ ws) (h : OnlyWords ws a b) :
    OnlyWords ws a (bump b o) := h.liveSet ho

end Sys2Proof.Machine
end

