-- ==== Sys2Proof/Laws/Arms.lean ====
section
/-!
SUPPORT. Sys2Proof/Laws/Arms.lean: one lemma for each command: where it answers a next state, the device it leaves is `Quiet`, `Calm`,
`Staged` or `Sound` of the device before.
-/
set_option linter.all false
namespace Sys2Proof.Machine

theorem execSnapHold_quiet (v : Bool) (s : State) {s' : State} (h : execSnapHold v s = .next s') : Quiet s.dev s'.dev := by
  obtain rfl := ran_next.mp h
  exact snapHoldWrite_quiet _ _ (.refl _)

theorem execHoldExpired_quiet (s : State) {s' : State} (h : execHoldExpired s = .next s') : Quiet s.dev s'.dev := by
  obtain rfl := ran_next.mp h
  exact holdExpire_quiet _ (.refl _)

theorem execCommitAtHi_quiet (val : Word) (s : State) {s' : State} (h : execCommitAtHi val s = .next s') : Quiet s.dev s'.dev := by
  obtain rfl := ran_next.mp h
  exact commitAtHiWrite_quiet _ _ (.refl _)

theorem execCommitNextGo_quiet (s : State) {s' : State} (h : execCommitNextGo s = .next s') : Quiet s.dev s'.dev := by
  obtain rfl := ran_next.mp h
  exact commitNextWrite_quiet _ (.refl _)

theorem execCommitCancelGo_quiet (s : State) {s' : State} (h : execCommitCancelGo s = .next s') : Quiet s.dev s'.dev := by
  obtain rfl := ran_next.mp h
  exact commitCancelWrite_quiet _ (.refl _)

theorem execPfcPauseExpiry_quiet (pl prio : Nat) (s : State) {s' : State} (h : execPfcPauseExpiry pl prio s = .next s') : Quiet s.dev s'.dev := by
  obtain ⟨-, rfl⟩ := ranIf_next.mp h
  exact pauseExpiry_quiet _ _ _ (.refl _)

theorem execSupervisorFrame_quiet (pl : Nat) (s : State) {s' : State} (h : execSupervisorFrame pl s = .next s') : Quiet s.dev s'.dev := by
  obtain ⟨-, rfl⟩ := ranIf_next.mp h
  exact supervisorTake_quiet _ _ (.refl _)

theorem execTxPacketRelease_quiet (pl stream : Nat) (s : State) {s' : State} (h : execTxPacketRelease pl stream s = .next s') : Quiet s.dev s'.dev := by
  obtain ⟨-, rfl⟩ := ranIf_next.mp h
  exact txRelease_quiet _ _ _ (.refl _)

theorem execTxFrameStart_quiet (pl : Nat) (s : State) {s' : State} (h : execTxFrameStart pl s = .next s') : Quiet s.dev s'.dev := by
  obtain ⟨-, rfl⟩ := ranIf_next.mp h
  exact txStart_quiet _ _ (.refl _)

theorem execTxStale_quiet (pl stream : Nat) (s : State) {s' : State} (h : execTxStale pl stream s = .next s') : Quiet s.dev s'.dev := by
  obtain ⟨-, rfl⟩ := ranIf_next.mp h
  exact txStale_quiet _ _ _ (.refl _)

theorem execSadmParseDone_quiet (src : Nat) (frame : SadmFrame) (s : State) {s' : State} (h : execSadmParseDone src frame s = .next s') : Quiet s.dev s'.dev := by
  obtain ⟨-, rfl⟩ := ranIf_next.mp h
  exact sadmDone_quiet _ _ _ (.refl _)

theorem execMsrcWindowTimeout_quiet (src : Nat) (s : State) {s' : State} (h : execMsrcWindowTimeout src s = .next s') : Quiet s.dev s'.dev := by
  obtain ⟨-, rfl⟩ := ranIf_next.mp h
  exact windowTimeout_quiet _ _ (.refl _)

theorem execSweepStart_quiet (gen : Nat) (s : State) {s' : State} (h : execSweepStart gen s = .next s') : Quiet s.dev s'.dev := by
  obtain ⟨-, rfl⟩ := ranIf_next.mp h
  exact sweepStart_quiet _ _ (.refl _)

theorem execErrorCollect_quiet (s : State) {s' : State} (h : execErrorCollect s = .next s') : Quiet s.dev s'.dev := by
  obtain rfl := ran_next.mp h
  exact errorCollect_quiet _ (.refl _)

theorem execMirrorWrite_quiet (ok : Bool) (s : State) {s' : State} (h : execMirrorWrite ok s = .next s') : Quiet s.dev s'.dev := by
  obtain rfl := ran_next.mp h
  exact mirrorWrite_quiet _ _ (.refl _)

theorem execErrorRaise_quiet (source code : Nat) (arg0 arg1 : Word) (s : State) {s' : State} (h : execErrorRaise source code arg0 arg1 s = .next s') : Quiet s.dev s'.dev := by
  obtain rfl := ran_next.mp h
  try dsimp -zeta only
  repeat' first
    | with_reducible exact Quiet.refl _
    | with_reducible assumption
    | with_reducible apply Quiet.ite
    | with_reducible apply raiseErr_quiet
    | split
    | (dsimp -zeta only)

theorem execLinkFlitReplay_quiet (link : Nat) (ok : Bool) (s : State) {s' : State} (h : execLinkFlitReplay link ok s = .next s') : Quiet s.dev s'.dev := by
  obtain ⟨-, rfl⟩ := ranIf_next.mp h
  exact flitReplay_quiet _ _ _ (.refl _)

theorem execZeroCrossing_quiet (ch : GainCh) (x : Int) (s : State) {s' : State} (h : execZeroCrossing ch x s = .next s') : Quiet s.dev s'.dev := by
  obtain ⟨-, rfl⟩ := ranIf_next.mp h
  exact zeroCrossing_quiet _ _ _ (.refl _)

theorem execZcTimeout_quiet (ch : GainCh) (s : State) {s' : State} (h : execZcTimeout ch s = .next s') : Quiet s.dev s'.dev := by
  obtain ⟨-, rfl⟩ := ranIf_next.mp h
  exact zcTimeout_quiet _ _ (.refl _)

theorem execSapFrame_quiet (port : Nat) (phase : Int) (din : List Word) (s : State) {s' : State} (h : execSapFrame port phase din s = .next s') : Quiet s.dev s'.dev := by
  obtain ⟨-, rfl⟩ := ranIf_next.mp h
  exact sapFrame_quiet _ _ _ _ (.refl _)

theorem execSapNoClock_quiet (port : Nat) (s : State) {s' : State} (h : execSapNoClock port s = .next s') : Quiet s.dev s'.dev := by
  obtain ⟨-, rfl⟩ := ranIf_next.mp h
  exact sapNoClock_quiet _ _ (.refl _)

theorem execSapRealign_quiet (port : Nat) (phase : Int) (s : State) {s' : State} (h : execSapRealign port phase s = .next s') : Quiet s.dev s'.dev := by
  obtain ⟨-, rfl⟩ := ranIf_next.mp h
  exact sapRealign_quiet _ _ _ (.refl _)

theorem execSapPortStopped_quiet (port : Nat) (s : State) {s' : State} (h : execSapPortStopped port s = .next s') : Quiet s.dev s'.dev := by
  obtain ⟨-, rfl⟩ := ranIf_next.mp h
  exact sapStopped_quiet _ _ (.refl _)

theorem execEnginePeriod_sound (s : State) {s' : State} (h : execEnginePeriod s = .next s') : Sound s.dev s'.dev := by
  obtain rfl := ran_next.mp h
  exact enginePeriod_sound _ (.refl _)

theorem execSettleCrossfadeStart_quiet (slot : Nat) (s : State) {s' : State} (h : execSettleCrossfadeStart slot s = .next s') : Quiet s.dev s'.dev := by
  obtain ⟨-, rfl⟩ := ranIf_next.mp h
  exact settleFade_quiet _ _ (.refl _)

theorem execSettleDone_quiet (slot : Nat) (s : State) {s' : State} (h : execSettleDone slot s = .next s') : Quiet s.dev s'.dev := by
  obtain ⟨-, rfl⟩ := ranIf_next.mp h
  exact settleDone_quiet _ _ (.refl _)

theorem execDispatch_quiet (s : State) {s' : State} (h : execDispatch s = .next s') : Quiet s.dev s'.dev := by
  obtain rfl := ran_next.mp h
  exact dispatchOne_quiet _ (.refl _)

theorem execCancel_quiet (tag : Word) (s : State) {s' : State} (h : execCancel tag s = .next s') : Quiet s.dev s'.dev := by
  obtain rfl := ran_next.mp h
  try dsimp -zeta only
  repeat' first
    | (extract_lets +onlyGivenNames x; first | refine Quiet.cut (x := x) ?_ (fun hx => ?_) <;> [(clear_value (hv : x = _); rw [hv]); clear_value x] | (have e : _ → _ := x; clear e; clear_value (hv : x = _); subst hv; beta_reduce) | clear_value x | skip)
    | with_reducible exact Quiet.refl _
    | with_reducible assumption
    | with_reducible apply Quiet.ite
    | with_reducible apply abortItems_quiet
    | with_reducible apply removeReady_quiet
    | split
    | (dsimp -zeta only)

theorem execCancelProd_quiet (prod : Nat) (s : State) {s' : State} (h : execCancelProd prod s = .next s') : Quiet s.dev s'.dev := by
  obtain ⟨-, rfl⟩ := ranIf_next.mp h
  try dsimp -zeta only
  repeat' first
    | with_reducible exact Quiet.refl _
    | with_reducible assumption
    | with_reducible apply removeReady_quiet
    | (dsimp -zeta only)

theorem execSubmitGo_quiet (s : State) {s' : State} (h : execSubmitGo s = .next s') : Quiet s.dev s'.dev := by
  obtain rfl := ran_next.mp h
  try dsimp -zeta only
  repeat' first
    | with_reducible exact Quiet.refl _
    | with_reducible assumption
    | with_reducible apply Quiet.ite
    | with_reducible apply bump_quiet
    | with_reducible apply submitDesc_quiet
    | split
    | (dsimp -zeta only)

theorem execCoreGate_quiet (core : Nat) (s : State) {s' : State} (h : execCoreGate core s = .next s') : Quiet s.dev s'.dev := by
  obtain ⟨-, rfl⟩ := ranIf_next.mp h
  try dsimp -zeta only
  repeat' first
    | with_reducible exact Quiet.refl _
    | with_reducible assumption
    | with_reducible apply Quiet.ite
    | with_reducible apply powerCore_quiet
    | split
    | (dsimp -zeta only)

theorem execCoreWakeDone_quiet (core : Nat) (s : State) {s' : State} (h : execCoreWakeDone core s = .next s') : Quiet s.dev s'.dev := by
  obtain ⟨-, rfl⟩ := ranIf_next.mp h
  try dsimp -zeta only
  repeat' first
    | (extract_lets +onlyGivenNames x; first | refine Quiet.cut (x := x) ?_ (fun hx => ?_) <;> [(clear_value (hv : x = _); rw [hv]); clear_value x] | clear_value x | skip)
    | with_reducible exact Quiet.refl _
    | with_reducible assumption
    | simp -zeta only [↓ Quiet.make]
    | with_reducible refine Quiet.of ?_
    | with_reducible apply Quiet.ite
    | with_reducible apply setCore_quiet
    | with_reducible apply powerCore_quiet
    | split
    | (dsimp -zeta only)

theorem execEventOffer_quiet (s : State) {s' : State} (h : execEventOffer s = .next s') : Quiet s.dev s'.dev := by
  obtain rfl := ran_next.mp h
  exact eventOffers_quiet _ (.refl _)

theorem execEventHoldoffExpiry_quiet (source : Nat) (s : State) {s' : State} (h : execEventHoldoffExpiry source s = .next s') : Quiet s.dev s'.dev := by
  obtain ⟨-, rfl⟩ := ranIf_next.mp h
  try dsimp -zeta only
  repeat' first
    | (extract_lets +onlyGivenNames x; first | refine Quiet.cut (x := x) ?_ (fun hx => ?_) <;> [(clear_value (hv : x = _); rw [hv]); clear_value x] | clear_value x | skip)
    | with_reducible exact Quiet.refl _
    | with_reducible assumption
    | simp -zeta only [↓ Quiet.make]
    | with_reducible refine Quiet.of ?_
    | with_reducible apply Quiet.ite
    | with_reducible apply startWake_quiet
    | split
    | (dsimp -zeta only)

theorem execEventRaise_quiet (source : Nat) (s : State) {s' : State} (h : execEventRaise source s = .next s') : Quiet s.dev s'.dev := by
  obtain ⟨-, rfl⟩ := ranIf_next.mp h
  try dsimp -zeta only
  repeat' first
    | with_reducible exact Quiet.refl _
    | with_reducible assumption
    | with_reducible apply Quiet.ite
    | with_reducible apply raiseOwn_quiet
    | split
    | (dsimp -zeta only)

theorem execPendSet_quiet (source : Nat) (s : State) {s' : State} (h : execPendSet source s = .next s') : Quiet s.dev s'.dev := by
  obtain ⟨-, rfl⟩ := ranIf_next.mp h
  try dsimp -zeta only
  repeat' first
    | with_reducible exact Quiet.refl _
    | with_reducible assumption
    | with_reducible apply raiseEvt_quiet
    | (dsimp -zeta only)

theorem execPendClr_quiet (source : Nat) (s : State) {s' : State} (h : execPendClr source s = .next s') : Quiet s.dev s'.dev := by
  obtain ⟨-, rfl⟩ := ranIf_next.mp h
  try dsimp -zeta only
  repeat' first
    | with_reducible exact Quiet.refl _
    | with_reducible assumption
    | with_reducible apply liveSetB_quiet
    | (dsimp -zeta only)

theorem execMaskSet_quiet (source : Nat) (s : State) {s' : State} (h : execMaskSet source s = .next s') : Quiet s.dev s'.dev := by
  obtain ⟨-, rfl⟩ := ranIf_next.mp h
  try dsimp -zeta only
  repeat' first
    | with_reducible exact Quiet.refl _
    | with_reducible assumption
    | with_reducible apply liveSetB_quiet
    | (dsimp -zeta only)

theorem execMaskClr_quiet (source : Nat) (s : State) {s' : State} (h : execMaskClr source s = .next s') : Quiet s.dev s'.dev := by
  obtain ⟨-, rfl⟩ := ranIf_next.mp h
  try dsimp -zeta only
  repeat' first
    | with_reducible exact Quiet.refl _
    | with_reducible assumption
    | with_reducible apply liveSetB_quiet
    | (dsimp -zeta only)

theorem execTwinEpochFrameRx_quiet (lane : Nat) (head : TwinHead) (frame : TwinEpoch) (s : State) {s' : State} (h : execTwinEpochFrameRx lane head frame s = .next s') : Quiet s.dev s'.dev := by
  obtain ⟨-, rfl⟩ := ranIf_next.mp h
  try dsimp -zeta only
  repeat' first
    | with_reducible exact Quiet.refl _
    | with_reducible assumption
    | with_reducible apply takeCopy_quiet
    | with_reducible apply twinFrame_quiet
    | (dsimp -zeta only)
    | intro d

theorem execTwinFrameCrcError_quiet (lane : Nat) (s : State) {s' : State} (h : execTwinFrameCrcError lane s = .next s') : Quiet s.dev s'.dev := by
  obtain ⟨-, rfl⟩ := ranIf_next.mp h
  exact twinCrcError_quiet _ _ (.refl _)

theorem execJoinRequest_quiet (s : State) (lane : Nat := 0) (head : TwinHead := ⟨0, 0, 0⟩) {s' : State} (h : execJoinRequest s lane head = .next s') : Quiet s.dev s'.dev := by
  obtain ⟨-, rfl⟩ := ranIf_next.mp h
  try dsimp -zeta only
  repeat' first
    | with_reducible exact Quiet.refl _
    | with_reducible assumption
    | with_reducible apply takeCopy_quiet
    | with_reducible apply joinRequest_quiet
    | intro d

theorem execJoinRequestTx_quiet (s : State) {s' : State} (h : execJoinRequestTx s = .next s') : Quiet s.dev s'.dev := by
  obtain rfl := ran_next.mp h
  exact joinRequestTx_quiet _ (.refl _)

theorem execJoinStart_quiet (k : Nat) (s : State) (lane : Nat := 0) (head : TwinHead := ⟨0, 0, 0⟩) {s' : State} (h : execJoinStart k s lane head = .next s') : Quiet s.dev s'.dev := by
  obtain ⟨-, rfl⟩ := ranIf_next.mp h
  try dsimp -zeta only
  repeat' first
    | with_reducible exact Quiet.refl _
    | with_reducible assumption
    | with_reducible apply takeCopy_quiet
    | with_reducible apply joinStart_quiet
    | intro d

theorem execJoinStop_quiet (s : State) (lane : Nat := 0) (head : TwinHead := ⟨0, 0, 0⟩) {s' : State} (h : execJoinStop s lane head = .next s') : Quiet s.dev s'.dev := by
  obtain ⟨-, rfl⟩ := ranIf_next.mp h
  try dsimp -zeta only
  repeat' first
    | with_reducible exact Quiet.refl _
    | with_reducible assumption
    | with_reducible apply takeCopy_quiet
    | with_reducible apply joinStop_quiet
    | intro d

theorem execStateFrameRx_staged (frame : StateFrame) (s : State) (lane : Nat := 0) (head : TwinHead := ⟨0, 0, 0⟩) {s' : State} (h : execStateFrameRx frame s lane head = .next s') : Staged s.dev s'.dev := by
  obtain ⟨-, rfl⟩ := ranIf_next.mp h
  exact takeCopy_staged _ _ _ _ _ _ (fun d => stateFrame_staged _ d)

theorem execJoinTimeout_quiet (s : State) {s' : State} (h : execJoinTimeout s = .next s') : Quiet s.dev s'.dev := by
  obtain rfl := ran_next.mp h
  exact joinTimeout_quiet _ (.refl _)

theorem execPeerActiveChange_quiet (level : Bool) (s : State) {s' : State} (h : execPeerActiveChange level s = .next s') : Quiet s.dev s'.dev := by
  obtain rfl := ran_next.mp h
  exact peerActive_quiet _ _ (.refl _)

theorem execOutputClaim_quiet (s : State) {s' : State} (h : execOutputClaim s = .next s') : Quiet s.dev s'.dev := by
  obtain rfl := ran_next.mp h
  exact outputClaim_quiet _ (.refl _)

theorem execClaimConfirm_quiet (s : State) {s' : State} (h : execClaimConfirm s = .next s') : Quiet s.dev s'.dev := by
  obtain rfl := ran_next.mp h
  exact claimConfirm_quiet _ (.refl _)

theorem execSeniorConflictRelease_quiet (s : State) {s' : State} (h : execSeniorConflictRelease s = .next s') : Quiet s.dev s'.dev := by
  obtain rfl := ran_next.mp h
  exact seniorRelease_quiet _ (.refl _)

theorem execClaimBackoff_quiet (s : State) {s' : State} (h : execClaimBackoff s = .next s') : Quiet s.dev s'.dev := by
  obtain rfl := ran_next.mp h
  exact claimBackoff_quiet _ (.refl _)

theorem execWatchdogRelease_quiet (s : State) {s' : State} (h : execWatchdogRelease s = .next s') : Quiet s.dev s'.dev := by
  obtain rfl := ran_next.mp h
  exact watchdogRelease_quiet _ (.refl _)

theorem execRearm_quiet (s : State) {s' : State} (h : execRearm s = .next s') : Quiet s.dev s'.dev := by
  obtain rfl := ran_next.mp h
  exact rearm_quiet _ (.refl _)

theorem execInsertRelease_quiet (stage : Nat) (s : State) {s' : State} (h : execInsertRelease stage s = .next s') : Quiet s.dev s'.dev := by
  obtain ⟨-, rfl⟩ := ranIf_next.mp h
  exact insertRelease_quiet _ _ (.refl _)

theorem execItemCutoff_quiet (stage : Nat) (s : State) {s' : State} (h : execItemCutoff stage s = .next s') : Quiet s.dev s'.dev := by
  obtain ⟨-, rfl⟩ := ranIf_next.mp h
  exact itemCutoff_quiet _ _ (.refl _)

theorem execStageInDone_quiet (core : Nat) (s : State) {s' : State} (h : execStageInDone core s = .next s') : Quiet s.dev s'.dev := by
  obtain ⟨-, rfl⟩ := ranIf_next.mp h
  exact stageInDone_quiet _ _ (.refl _)

theorem execItemComplete_calm (core : Nat) (s : State) {s' : State} (h : execItemComplete core s = .next s') : Calm s.dev s'.dev := by
  obtain ⟨-, rfl⟩ := ranIf_next.mp h
  exact itemComplete_calm _ _ (.refl _)

theorem execRingFilled_quiet (slot : Nat) (s : State) {s' : State} (h : execRingFilled slot s = .next s') : Quiet s.dev s'.dev := by
  obtain ⟨-, rfl⟩ := ranIf_next.mp h
  exact ringFilled_quiet _ _ (.refl _)

theorem execShedHoldExpiry_quiet (slot : Nat) (s : State) {s' : State} (h : execShedHoldExpiry slot s = .next s') : Quiet s.dev s'.dev := by
  obtain ⟨-, rfl⟩ := ranIf_next.mp h
  exact holdExpiry_quiet _ _ (.refl _)

theorem execDramRequest_quiet (ch off : Nat) (write rowOpen : Bool) (master : Nat) (err : DramErr) (s : State) {s' : State} (h : execDramRequest ch off write rowOpen master err s = .next s') : Quiet s.dev s'.dev := by
  obtain ⟨-, rfl⟩ := ranIf_next.mp h
  exact dramRequest_quiet _ _ _ (.refl _)

theorem execDramRefresh_quiet (ch : Nat) (s : State) {s' : State} (h : execDramRefresh ch s = .next s') : Quiet s.dev s'.dev := by
  obtain ⟨-, rfl⟩ := ranIf_next.mp h
  exact dramRefresh_quiet _ _ (.refl _)

theorem execRetrainingPause_quiet (ch : Nat) (hot : Bool) (s : State) {s' : State} (h : execRetrainingPause ch hot s = .next s') : Quiet s.dev s'.dev := by
  obtain ⟨-, rfl⟩ := ranIf_next.mp h
  exact retrainingPause_quiet _ _ _ (.refl _)

theorem execPowerDownEntry_quiet (ch : Nat) (s : State) (rank : Nat := 0) {s' : State} (h : execPowerDownEntry ch s rank = .next s') : Quiet s.dev s'.dev := by
  obtain ⟨-, rfl⟩ := ranIf_next.mp h
  exact powerDown_quiet _ _ _ (.refl _)

theorem execSelfRefreshEntry_quiet (ch : Nat) (s : State) {s' : State} (h : execSelfRefreshEntry ch s = .next s') : Quiet s.dev s'.dev := by
  obtain ⟨-, rfl⟩ := ranIf_next.mp h
  exact selfRefresh_quiet _ _ (.refl _)

theorem execSelfRefreshExit_quiet (ch : Nat) (s : State) {s' : State} (h : execSelfRefreshExit ch s = .next s') : Quiet s.dev s'.dev := by
  obtain ⟨-, rfl⟩ := ranIf_next.mp h
  exact selfRefreshExit_quiet _ _ (.refl _)

theorem execDelayReqTx_quiet (inst : Nat) (s : State) {s' : State} (h : execDelayReqTx inst s = .next s') : Quiet s.dev s'.dev := by
  obtain ⟨-, rfl⟩ := ranIf_next.mp h
  exact delayReqTx_quiet _ _ (.refl _)

theorem execSyncTx_quiet (inst : Nat) (s : State) {s' : State} (h : execSyncTx inst s = .next s') : Quiet s.dev s'.dev := by
  obtain ⟨-, rfl⟩ := ranIf_next.mp h
  exact syncTx_quiet _ _ (.refl _)

theorem execAnnounceTx_quiet (inst : Nat) (s : State) {s' : State} (h : execAnnounceTx inst s = .next s') : Quiet s.dev s'.dev := by
  obtain ⟨-, rfl⟩ := ranIf_next.mp h
  exact announceTx_quiet _ _ (.refl _)

theorem execTxTimestampReturn_quiet (inst seq : Nat) (captured : Int) (s : State) {s' : State} (h : execTxTimestampReturn inst seq captured s = .next s') : Quiet s.dev s'.dev := by
  obtain ⟨-, rfl⟩ := ranIf_next.mp h
  exact txStamp_quiet _ _ _ _ (.refl _)

theorem execSyncTimeout_quiet (inst : Nat) (s : State) {s' : State} (h : execSyncTimeout inst s = .next s') : Quiet s.dev s'.dev := by
  obtain ⟨-, rfl⟩ := ranIf_next.mp h
  exact syncTimeout_quiet _ _ (.refl _)

theorem execAnnounceReceiptTimeout_quiet (inst : Nat) (s : State) {s' : State} (h : execAnnounceReceiptTimeout inst s = .next s') : Quiet s.dev s'.dev := by
  obtain ⟨-, rfl⟩ := ranIf_next.mp h
  exact announceTimeout_quiet _ _ (.refl _)

theorem execServoRevert_quiet (s : State) {s' : State} (h : execServoRevert s = .next s') : Quiet s.dev s'.dev := by
  obtain rfl := ran_next.mp h
  exact servoRevert_quiet _ (.refl _)

theorem execServoAccept_quiet (s : State) {s' : State} (h : execServoAccept s = .next s') : Quiet s.dev s'.dev := by
  obtain rfl := ran_next.mp h
  exact servoAccept_quiet _ (.refl _)

theorem execServoDegradedLog_quiet (s : State) {s' : State} (h : execServoDegradedLog s = .next s') : Quiet s.dev s'.dev := by
  obtain rfl := ran_next.mp h
  exact servoDegraded_quiet _ (.refl _)

theorem execSpeedStepStart_quiet (pl : Nat) (s : State) {s' : State} (h : execSpeedStepStart pl s = .next s') : Quiet s.dev s'.dev := by
  obtain ⟨-, rfl⟩ := ranIf_next.mp h
  try dsimp -zeta only
  repeat' first
    | with_reducible exact Quiet.refl _
    | with_reducible assumption
    | with_reducible apply Quiet.ite
    | with_reducible apply stepStart_quiet
    | with_reducible apply ptpReport_quiet
    | split
    | (dsimp -zeta only)

theorem execStepEpoch_quiet (pl : Nat) (s : State) {s' : State} (h : execStepEpoch pl s = .next s') : Quiet s.dev s'.dev := by
  obtain ⟨-, rfl⟩ := ranIf_next.mp h
  try dsimp -zeta only
  repeat' first
    | with_reducible exact Quiet.refl _
    | with_reducible assumption
    | with_reducible apply Quiet.ite
    | with_reducible apply stepEpoch_quiet
    | with_reducible apply ptpReport_quiet
    | with_reducible apply servoCheck_quiet
    | split
    | (dsimp -zeta only)

theorem execStepTimeout_sound (pl : Nat) (s : State) {s' : State} (h : execStepTimeout pl s = .next s') : Sound s.dev s'.dev := by
  obtain ⟨-, rfl⟩ := ranIf_next.mp h
  try dsimp -zeta only
  repeat' first
    | with_reducible exact Sound.refl _
    | with_reducible assumption
    | with_reducible apply Sound.ite
    | with_reducible apply stepTimeout_sound
    | with_reducible apply Sound.transQuiet (k := ptpLink_quiet (h₀ := .refl _) ..)
    | split
    | (dsimp -zeta only)

theorem execLinkUp_quiet (port speed : Nat) (s : State) {s' : State} (h : execLinkUp port speed s = .next s') : Quiet s.dev s'.dev := by
  obtain ⟨-, rfl⟩ := ranIf_next.mp h
  try dsimp -zeta only
  repeat' first
    | with_reducible exact Quiet.refl _
    | with_reducible assumption
    | with_reducible apply Quiet.ite
    | with_reducible apply netLinkUp_quiet
    | with_reducible apply ptpLink_quiet
    | with_reducible apply mgtLink_quiet
    | split
    | (dsimp -zeta only)

theorem execLinkDown_quiet (port : Nat) (s : State) {s' : State} (h : execLinkDown port s = .next s') : Quiet s.dev s'.dev := by
  obtain ⟨-, rfl⟩ := ranIf_next.mp h
  try dsimp -zeta only
  repeat' first
    | with_reducible exact Quiet.refl _
    | with_reducible assumption
    | with_reducible apply Quiet.ite
    | with_reducible apply netLinkDown_quiet
    | with_reducible apply ptpReport_quiet
    | with_reducible apply mgtLink_quiet
    | split
    | (dsimp -zeta only)

theorem execTuneSpiFrame_quiet (s : State) {s' : State} (h : execTuneSpiFrame s = .next s') : Quiet s.dev s'.dev := by
  obtain rfl := ran_next.mp h
  exact tuneFrame_quiet _ (.refl _)

theorem execOscTunePwmPeriod_quiet (s : State) {s' : State} (h : execOscTunePwmPeriod s = .next s') : Quiet s.dev s'.dev := by
  obtain rfl := ran_next.mp h
  exact pwmPeriod_quiet _ (.refl _)

theorem execRelock_quiet (pll : Nat) (s : State) {s' : State} (h : execRelock pll s = .next s') : Quiet s.dev s'.dev := by
  obtain ⟨-, rfl⟩ := ranIf_next.mp h
  try dsimp -zeta only
  repeat' first
    | with_reducible exact Quiet.refl _
    | with_reducible assumption
    | with_reducible apply relockWrite_quiet
    | (dsimp -zeta only)

theorem execSyncInEdge_quiet (offsets : List Int) (s : State) {s' : State} (h : execSyncInEdge offsets s = .next s') : Quiet s.dev s'.dev := by
  obtain rfl := ran_next.mp h
  exact syncEdge_quiet _ _ (.refl _)

theorem execRefLoss_quiet (loss : RefLoss) (s : State) {s' : State} (h : execRefLoss loss s = .next s') : Quiet s.dev s'.dev := by
  obtain ⟨-, rfl⟩ := ranIf_next.mp h
  exact refLoss_quiet _ _ (.refl _)

theorem execRefValid_quiet (alt : Bool) (s : State) {s' : State} (h : execRefValid alt s = .next s') : Quiet s.dev s'.dev := by
  obtain rfl := ran_next.mp h
  exact refValid_quiet _ _ (.refl _)

theorem execPllReacquireDone_quiet (pll : Nat) (s : State) {s' : State} (h : execPllReacquireDone pll s = .next s') : Quiet s.dev s'.dev := by
  obtain ⟨-, rfl⟩ := ranIf_next.mp h
  exact reacquireDone_quiet _ _ (.refl _)

theorem execHoldoverDecision_quiet (s : State) {s' : State} (h : execHoldoverDecision s = .next s') : Quiet s.dev s'.dev := by
  obtain rfl := ran_next.mp h
  exact holdoverDecision_quiet _ (.refl _)

theorem execRefRevert_quiet (s : State) {s' : State} (h : execRefRevert s = .next s') : Quiet s.dev s'.dev := by
  obtain rfl := ran_next.mp h
  exact refRevert_quiet _ (.refl _)

theorem execPllNoReacquire_quiet (pll : Nat) (s : State) {s' : State} (h : execPllNoReacquire pll s = .next s') : Quiet s.dev s'.dev := by
  obtain ⟨-, rfl⟩ := ranIf_next.mp h
  exact noReacquire_quiet _ _ (.refl _)

theorem execHardFault_quiet (pool cluster cause : Nat) (s : State) (unit : Nat := 0) {s' : State} (h : execHardFault pool cluster cause s unit = .next s') : Quiet s.dev s'.dev := by
  obtain ⟨-, rfl⟩ := ranIf_next.mp h
  exact hardFault_quiet _ _ _ _ _ (.refl _)

theorem execMoonTakeover_quiet (pool : Nat) (agreed : Bool) (s : State) {s' : State} (h : execMoonTakeover pool agreed s = .next s') : Quiet s.dev s'.dev := by
  obtain ⟨-, rfl⟩ := ranIf_next.mp h
  exact moonTakeover_quiet _ _ _ (.refl _)

theorem execMoonReqHi_quiet (val : Word) (s : State) {s' : State} (h : execMoonReqHi val s = .next s') : Quiet s.dev s'.dev := by
  obtain rfl := ran_next.mp h
  exact moonReqWrite_quiet _ _ (.refl _)

theorem execPatrolAdvance_quiet (pool : Nat) (mismatch : Bool) (s : State) {s' : State} (h : execPatrolAdvance pool mismatch s = .next s') : Quiet s.dev s'.dev := by
  obtain ⟨-, rfl⟩ := ranIf_next.mp h
  exact patrolAdvance_quiet _ _ _ (.refl _)

theorem execPorstRelease_sound (twinSide : Bool) (s : State) {s' : State} (h : execPorstRelease twinSide s = .next s') : Sound s.dev s'.dev := by
  obtain rfl := ran_next.mp h
  exact porstRelease_sound _ _ (.refl _)

theorem execPllLockDone_sound (pll : Nat) (s : State) {s' : State} (h : execPllLockDone pll s = .next s') : Sound s.dev s'.dev := by
  obtain ⟨-, rfl⟩ := ranIf_next.mp h
  try dsimp -zeta only
  repeat' first
    | with_reducible exact Sound.refl _
    | with_reducible assumption
    | with_reducible apply Sound.transQuiet (k := lockDone_quiet (h₀ := .refl _) ..)
    | with_reducible apply bootLocked_sound
    | (dsimp -zeta only)

theorem execMemInit_sound (ch : Nat) (ok : Bool) (s : State) {s' : State} (h : execMemInit ch ok s = .next s') : Sound s.dev s'.dev := by
  obtain ⟨-, rfl⟩ := ranIf_next.mp h
  try dsimp -zeta only
  repeat' first
    | with_reducible exact Sound.refl _
    | with_reducible assumption
    | with_reducible apply Sound.transQuiet (k := memInit_quiet (h₀ := .refl _) ..)
    | with_reducible apply bootTrained_sound
    | (dsimp -zeta only)

theorem execDramWipeDone_sound (s : State) {s' : State} (h : execDramWipeDone s = .next s') : Sound s.dev s'.dev := by
  obtain rfl := ran_next.mp h
  exact wipeDone_sound _ (.refl _)

theorem execBootComplete_sound (s : State) {s' : State} (h : execBootComplete s = .next s') : Sound s.dev s'.dev := by
  obtain rfl := ran_next.mp h
  exact bootComplete_sound _ (.refl _)

theorem execAutoConfirm_quiet (s : State) {s' : State} (h : execAutoConfirm s = .next s') : Quiet s.dev s'.dev := by
  obtain rfl := ran_next.mp h
  exact autoConfirm_quiet _ (.refl _)

theorem execConfirmGo_quiet (s : State) {s' : State} (h : execConfirmGo s = .next s') : Quiet s.dev s'.dev := by
  obtain rfl := ran_next.mp h
  exact confirmGo_quiet _ (.refl _)

theorem execLcsRequest_sound (path : LcsPath) (val : Word) (fuseOk : Bool) (s : State) {s' : State} (h : execLcsRequest path val fuseOk s = .next s') : Sound s.dev s'.dev := by
  obtain rfl := ran_next.mp h
  exact lcsRequest_sound _ _ _ _ (.refl _)

theorem execFuseProgram_quiet (path : LcsPath) (slot : Nat) (fuseOk : Bool) (s : State) {s' : State} (h : execFuseProgram path slot fuseOk s = .next s') : Quiet s.dev s'.dev := by
  obtain ⟨-, rfl⟩ := ranIf_next.mp h
  exact fuseProgram_quiet _ _ _ _ (.refl _)

theorem execFuseRevoke_quiet (path : LcsPath) (slot : Nat) (fuseOk : Bool) (s : State) {s' : State} (h : execFuseRevoke path slot fuseOk s = .next s') : Quiet s.dev s'.dev := by
  obtain ⟨-, rfl⟩ := ranIf_next.mp h
  exact fuseRevoke_quiet _ _ _ _ (.refl _)

theorem execJtagInstruction_quiet (code : Nat) (boundary secondPassed : Bool) (s : State) {s' : State} (h : execJtagInstruction code boundary secondPassed s = .next s') : Quiet s.dev s'.dev := by
  obtain rfl := ran_next.mp h
  exact jtagInstr_quiet _ _ _ _ (.refl _)

theorem execCaptureDone_calm (s : State) {s' : State} (h : execCaptureDone s = .next s') : Calm s.dev s'.dev := by
  obtain rfl := ran_next.mp h
  exact captureDone_calm _ (.refl _)

theorem execCommitCutoff_sound (s : State) {s' : State} (h : execCommitCutoff s = .next s') : Sound s.dev s'.dev := by
  obtain rfl := ran_next.mp h
  exact commitCutoff_sound _ (.refl _)

theorem execCndSectionChecked_quiet (s : State) {s' : State} (h : execCndSectionChecked s = .next s') : Quiet s.dev s'.dev := by
  obtain rfl := ran_next.mp h
  exact sectionChecked_quiet _ _ (.refl _)

theorem execGeoSectionChecked_quiet (type : Nat) (s : State) {s' : State} (h : execGeoSectionChecked type s = .next s') : Quiet s.dev s'.dev := by
  obtain ⟨-, rfl⟩ := ranIf_next.mp h
  exact sectionChecked_quiet _ _ (.refl _)

theorem execRcSectionChecked_quiet (s : State) {s' : State} (h : execRcSectionChecked s = .next s') : Quiet s.dev s'.dev := by
  obtain rfl := ran_next.mp h
  exact sectionChecked_quiet _ _ (.refl _)

theorem execNetSectionChecked_quiet (s : State) {s' : State} (h : execNetSectionChecked s = .next s') : Quiet s.dev s'.dev := by
  obtain rfl := ran_next.mp h
  exact sectionChecked_quiet _ _ (.refl _)

theorem execRcParallelStart_quiet (s : State) {s' : State} (h : execRcParallelStart s = .next s') : Quiet s.dev s'.dev := by
  obtain rfl := ran_next.mp h
  exact parallelStart_quiet _ (.refl _)

theorem execRcReloadReady_quiet (s : State) {s' : State} (h : execRcReloadReady s = .next s') : Quiet s.dev s'.dev := by
  obtain rfl := ran_next.mp h
  exact rcReloadReady_quiet _ (.refl _)

theorem execReloadGo_staged (s : State) {s' : State} (h : execReloadGo s = .next s') : Staged s.dev s'.dev := by
  obtain rfl := ran_next.mp h
  exact reloadGo_staged _

theorem execReloadReady_quiet (s : State) {s' : State} (h : execReloadReady s = .next s') : Quiet s.dev s'.dev := by
  obtain rfl := ran_next.mp h
  exact reloadReady_quiet _ (.refl _)

theorem execReloadAbandon_quiet (s : State) {s' : State} (h : execReloadAbandon s = .next s') : Quiet s.dev s'.dev := by
  obtain rfl := ran_next.mp h
  exact reloadAbandon_quiet _ (.refl _)

theorem execReloadRefused_quiet (type : Nat) (readError : Bool) (s : State) {s' : State} (h : execReloadRefused type readError s = .next s') : Quiet s.dev s'.dev := by
  obtain ⟨-, rfl⟩ := ranIf_next.mp h
  exact reloadRefused_quiet _ _ _ (.refl _)

theorem execRenderPhaseA_quiet (s : State) {s' : State} (h : execRenderPhaseA s = .next s') : Quiet s.dev s'.dev := by
  obtain rfl := ran_next.mp h
  try dsimp -zeta only
  refine inWindow_quiet _ _ _ (fun d => ?_) (.refl _)
  try dsimp only
  repeat' first
    | with_reducible exact Quiet.refl _
    | with_reducible assumption
    | with_reducible apply inWindow_quiet
    | with_reducible apply phaseA_quiet

theorem execRenderReduction_quiet (s : State) {s' : State} (h : execRenderReduction s = .next s') : Quiet s.dev s'.dev := by
  obtain rfl := ran_next.mp h
  try dsimp -zeta only
  refine inWindow_quiet _ _ _ (fun d => ?_) (.refl _)
  try dsimp only
  repeat' first
    | with_reducible exact Quiet.refl _
    | with_reducible assumption
    | with_reducible apply inWindow_quiet
    | with_reducible apply reduction_quiet

theorem execRenderPhaseB_quiet (s : State) {s' : State} (h : execRenderPhaseB s = .next s') : Quiet s.dev s'.dev := by
  obtain rfl := ran_next.mp h
  try dsimp -zeta only
  refine inWindow_quiet _ _ _ (fun d => ?_) (.refl _)
  try dsimp only
  repeat' first
    | with_reducible exact Quiet.refl _
    | with_reducible assumption
    | with_reducible apply inWindow_quiet
    | with_reducible apply phaseB_quiet

theorem execRenderMargin_quiet (s : State) {s' : State} (h : execRenderMargin s = .next s') : Quiet s.dev s'.dev := by
  obtain rfl := ran_next.mp h
  try dsimp -zeta only
  refine inWindow_quiet _ _ _ (fun d => ?_) (.refl _)
  try dsimp only
  repeat' first
    | with_reducible exact Quiet.refl _
    | with_reducible assumption
    | with_reducible apply inWindow_quiet
    | with_reducible apply margin_quiet

theorem execFollowLock_quiet (s : State) {s' : State} (h : execFollowLock s = .next s') : Quiet s.dev s'.dev := by
  obtain rfl := ran_next.mp h
  exact followLocks_quiet _ (.refl _)

theorem execTimebaseToFollow_quiet (s : State) {s' : State} (h : execTimebaseToFollow s = .next s') : Quiet s.dev s'.dev := by
  obtain rfl := ran_next.mp h
  exact toFollow_quiet _ (.refl _)

theorem execTimebaseToPtp_quiet (s : State) {s' : State} (h : execTimebaseToPtp s = .next s') : Quiet s.dev s'.dev := by
  obtain rfl := ran_next.mp h
  exact toPtp_quiet _ (.refl _)

theorem execTimebaseReload_quiet (s : State) {s' : State} (h : execTimebaseReload s = .next s') : Quiet s.dev s'.dev := by
  obtain rfl := ran_next.mp h
  exact timebaseReload_quiet _ (.refl _)

theorem execRegisterWrite_sound (off : Nat) (val : Word) (s : State) {s' : State} (h : execRegisterWrite off val s = .next s') : Sound s.dev s'.dev := by
  obtain rfl := ran_next.mp h
  try dsimp -zeta only
  repeat' first
    | with_reducible exact Sound.refl _
    | with_reducible assumption
    | with_reducible apply superWrite_sound
    | (dsimp -zeta only)

theorem execPerfFreeze_quiet (s : State) {s' : State} (h : execPerfFreeze s = .next s') : Quiet s.dev s'.dev := by
  obtain rfl := ran_next.mp h
  exact perfWrite_quiet _ _ (.refl _)

theorem execPerfRelease_quiet (s : State) {s' : State} (h : execPerfRelease s = .next s') : Quiet s.dev s'.dev := by
  obtain rfl := ran_next.mp h
  exact perfWrite_quiet _ _ (.refl _)

theorem execPerfClear_quiet (s : State) {s' : State} (h : execPerfClear s = .next s') : Quiet s.dev s'.dev := by
  obtain rfl := ran_next.mp h
  exact perfWrite_quiet _ _ (.refl _)

theorem execRemap_quiet (s : State) {s' : State} (h : execRemap s = .next s') : Quiet s.dev s'.dev := by
  obtain rfl := ran_next.mp h
  exact remapSet_quiet _ (.refl _)

theorem execXbarGrant_quiet (req : XbarReq) (s : State) {s' : State} (h : execXbarGrant req s = .next s') : Quiet s.dev s'.dev := by
  obtain ⟨-, rfl⟩ := ranIf_next.mp h
  exact xbarGrant_quiet _ _ (.refl _)

theorem execXbarResponse_sound (master id : Nat) (resp : XResp) (traffic : XTraffic) (s : State) {s' : State} (h : execXbarResponse master id resp traffic s = .next s') : Sound s.dev s'.dev := by
  obtain ⟨-, rfl⟩ := ranIf_next.mp h
  exact xbarResponse_sound _ _ _ _ _ (.refl _)

theorem execMasterReset_quiet (master : Nat) (s : State) {s' : State} (h : execMasterReset master s = .next s') : Quiet s.dev s'.dev := by
  obtain ⟨-, rfl⟩ := ranIf_next.mp h
  exact masterReset_quiet _ _ (.refl _)

theorem execHello_quiet (port srcId : Nat) (datagram : List Byte) (s : State) {s' : State} (h : execHello port srcId datagram s = .next s') : Quiet s.dev s'.dev := by
  obtain ⟨-, rfl⟩ := ranIf_next.mp h
  try dsimp -zeta only
  repeat' first
    | with_reducible exact Quiet.refl _
    | with_reducible assumption
    | with_reducible apply takeDatagram_quiet
    | with_reducible apply datagramIn_quiet
    | (dsimp -zeta only)

theorem execRequest_quiet (port srcId : Nat) (datagram : List Byte) (s : State) {s' : State} (h : execRequest port srcId datagram s = .next s') : Quiet s.dev s'.dev := by
  obtain ⟨-, rfl⟩ := ranIf_next.mp h
  try dsimp -zeta only
  repeat' first
    | with_reducible exact Quiet.refl _
    | with_reducible assumption
    | with_reducible apply takeDatagram_quiet
    | with_reducible apply datagramIn_quiet
    | (dsimp -zeta only)

theorem execReadCmd_quiet (off n : Nat) (s : State) {s' : State} (h : execReadCmd off n s = .next s') : Quiet s.dev s'.dev := by
  obtain rfl := ran_next.mp h
  try dsimp -zeta only
  refine runFront_quiet _ _ _ _ (fun d => ?_) (.refl _)
  try dsimp only
  repeat' first
    | with_reducible exact Quiet.refl _
    | with_reducible assumption
    | with_reducible apply runFront_quiet
    | with_reducible apply readWords_quiet
    | (dsimp -zeta only)

theorem execWriteCmd_sound (off : Nat) (words : List Word) (s : State) {s' : State} (h : execWriteCmd off words s = .next s') : Sound s.dev s'.dev := by
  obtain rfl := ran_next.mp h
  try dsimp -zeta only
  unfold runFront
  repeat' first
    | with_reducible apply Sound.ite
    | with_reducible exact Sound.refl _
    | with_reducible assumption
    | with_reducible apply Sound.transQuiet (k := runFront_quiet (h₀ := .refl _) ..)
    | with_reducible apply writeCmdRun_sound
    | (dsimp -zeta only)

theorem execCommitAt_quiet (epoch : Nat) (s : State) {s' : State} (h : execCommitAt epoch s = .next s') : Quiet s.dev s'.dev := by
  obtain rfl := ran_next.mp h
  try dsimp -zeta only
  refine runFront_quiet _ _ _ _ (fun d => ?_) (.refl _)
  try dsimp only
  repeat' first
    | with_reducible exact Quiet.refl _
    | with_reducible assumption
    | with_reducible apply liveSet_quiet
    | with_reducible apply commitAtHiWrite_quiet
    | with_reducible apply frontWaits_quiet
    | with_reducible apply runFront_quiet
    | (dsimp -zeta only)

theorem execCommitNext_quiet (s : State) {s' : State} (h : execCommitNext s = .next s') : Quiet s.dev s'.dev := by
  obtain rfl := ran_next.mp h
  try dsimp -zeta only
  refine runFront_quiet _ _ _ _ (fun d => ?_) (.refl _)
  try dsimp only
  repeat' first
    | with_reducible exact Quiet.refl _
    | with_reducible assumption
    | with_reducible apply commitNextWrite_quiet
    | with_reducible apply frontWaits_quiet
    | with_reducible apply runFront_quiet
    | (dsimp -zeta only)

theorem execCommitCancel_quiet (s : State) {s' : State} (h : execCommitCancel s = .next s') : Quiet s.dev s'.dev := by
  obtain rfl := ran_next.mp h
  try dsimp -zeta only
  refine runFront_quiet _ _ _ _ (fun d => ?_) (.refl _)
  try dsimp only
  repeat' first
    | with_reducible exact Quiet.refl _
    | with_reducible assumption
    | with_reducible apply commitCancelWrite_quiet
    | with_reducible apply frontWaits_quiet
    | with_reducible apply runFront_quiet
    | (dsimp -zeta only)

theorem execCommitCommandResult_quiet (s : State) {s' : State} (h : execCommitCommandResult s = .next s') : Quiet s.dev s'.dev := by
  obtain rfl := ran_next.mp h
  exact commitAnswer_quiet _ (.refl _)

theorem execErase_quiet (off sectors : Nat) (s : State) {s' : State} (h : execErase off sectors s = .next s') : Quiet s.dev s'.dev := by
  obtain rfl := ran_next.mp h
  try dsimp -zeta only
  refine runFront_quiet _ _ _ _ (fun d => ?_) (.refl _)
  try dsimp only
  repeat' first
    | with_reducible exact Quiet.refl _
    | with_reducible assumption
    | with_reducible apply runFront_quiet
    | with_reducible apply uploadStart_quiet
    | (dsimp -zeta only)

theorem execUpload_quiet (off : Nat) (bytes : List Byte) (s : State) {s' : State} (h : execUpload off bytes s = .next s') : Quiet s.dev s'.dev := by
  obtain rfl := ran_next.mp h
  try dsimp -zeta only
  refine runFront_quiet _ _ _ _ (fun d => ?_) (.refl _)
  try dsimp only
  repeat' first
    | with_reducible exact Quiet.refl _
    | with_reducible assumption
    | with_reducible apply runFront_quiet
    | with_reducible apply uploadStart_quiet
    | (dsimp -zeta only)

theorem execBankCrc_quiet (off len : Nat) (s : State) {s' : State} (h : execBankCrc off len s = .next s') : Quiet s.dev s'.dev := by
  obtain rfl := ran_next.mp h
  try dsimp -zeta only
  refine runFront_quiet _ _ _ _ (fun d => ?_) (.refl _)
  try dsimp only
  repeat' first
    | with_reducible exact Quiet.refl _
    | with_reducible assumption
    | with_reducible apply endFront_quiet
    | with_reducible apply runFront_quiet
    | (dsimp -zeta only)

theorem execFlashOpDone_quiet (ok : Bool) (s : State) {s' : State} (h : execFlashOpDone ok s = .next s') : Quiet s.dev s'.dev := by
  obtain rfl := ran_next.mp h
  exact flashDone_quiet _ _ (.refl _)

theorem execReload_staged (s : State) {s' : State} (h : execReload s = .next s') : Staged s.dev s'.dev := by
  obtain rfl := ran_next.mp h
  exact Staged.ite (reloadCmd_staged _) (.refl _)

theorem execAbandon_quiet (s : State) {s' : State} (h : execAbandon s = .next s') : Quiet s.dev s'.dev := by
  obtain rfl := ran_next.mp h
  try dsimp -zeta only
  refine runFront_quiet _ _ _ _ (fun d => ?_) (.refl _)
  try dsimp only
  repeat' first
    | (extract_lets +onlyGivenNames x; first | refine Quiet.cut (x := x) ?_ (fun hx => ?_) <;> [(clear_value (hv : x = _); rw [hv]); clear_value x] | clear_value x | skip)
    | with_reducible exact Quiet.refl _
    | with_reducible assumption
    | with_reducible apply reloadAbandon_quiet
    | with_reducible apply endFront_quiet
    | with_reducible apply runFront_quiet
    | (dsimp -zeta only)

theorem execConfirm_quiet (s : State) {s' : State} (h : execConfirm s = .next s') : Quiet s.dev s'.dev := by
  obtain rfl := ran_next.mp h
  try dsimp -zeta only
  refine runFront_quiet _ _ _ _ (fun d => ?_) (.refl _)
  try dsimp only
  repeat' first
    | with_reducible exact Quiet.refl _
    | with_reducible assumption
    | with_reducible apply confirmGo_quiet
    | with_reducible apply endFront_quiet
    | with_reducible apply runFront_quiet
    | (dsimp -zeta only)

theorem execClose_quiet (s : State) {s' : State} (h : execClose s = .next s') : Quiet s.dev s'.dev := by
  obtain rfl := ran_next.mp h
  try dsimp -zeta only
  refine runFront_quiet _ _ _ _ (fun d => ?_) (.refl _)
  try dsimp only
  repeat' first
    | with_reducible exact Quiet.refl _
    | with_reducible assumption
    | with_reducible apply endFront_quiet
    | with_reducible apply runFront_quiet
    | (dsimp -zeta only)

theorem execFlashErase_quiet (off sectors : Nat) (s : State) {s' : State} (h : execFlashErase off sectors s = .next s') : Quiet s.dev s'.dev := by
  obtain rfl := ran_next.mp h
  try dsimp -zeta only
  refine runFront_quiet _ _ _ _ (fun d => ?_) (.refl _)
  try dsimp only
  repeat' first
    | with_reducible exact Quiet.refl _
    | with_reducible assumption
    | with_reducible apply frontWaits_quiet
    | with_reducible apply runFront_quiet
    | (dsimp -zeta only)

theorem execFlashWrite_quiet (off : Nat) (bytes : List Byte) (s : State) {s' : State} (h : execFlashWrite off bytes s = .next s') : Quiet s.dev s'.dev := by
  obtain rfl := ran_next.mp h
  try dsimp -zeta only
  refine runFront_quiet _ _ _ _ (fun d => ?_) (.refl _)
  try dsimp only
  repeat' first
    | with_reducible exact Quiet.refl _
    | with_reducible assumption
    | with_reducible apply frontWaits_quiet
    | with_reducible apply runFront_quiet
    | (dsimp -zeta only)

theorem execFlashCrc_quiet (off len : Nat) (s : State) {s' : State} (h : execFlashCrc off len s = .next s') : Quiet s.dev s'.dev := by
  obtain rfl := ran_next.mp h
  try dsimp -zeta only
  refine runFront_quiet _ _ _ _ (fun d => ?_) (.refl _)
  try dsimp only
  repeat' first
    | with_reducible exact Quiet.refl _
    | with_reducible assumption
    | with_reducible apply endFront_quiet
    | with_reducible apply runFront_quiet
    | (dsimp -zeta only)

theorem execSessionIdleTimeout_quiet (session : Nat) (s : State) {s' : State} (h : execSessionIdleTimeout session s = .next s') : Quiet s.dev s'.dev := by
  obtain rfl := ran_next.mp h
  exact sessionTimeout_quiet _ _ (.refl _)

theorem execRegRead_quiet (off n : Nat) (s : State) (cut : Option Nat := none) {s' : State} (h : execRegRead off n s cut = .next s') : Quiet s.dev s'.dev := by
  obtain rfl := ran_next.mp h
  try dsimp -zeta only
  repeat' first
    | with_reducible exact Quiet.refl _
    | with_reducible assumption
    | with_reducible apply Quiet.ite
    | with_reducible apply spiMalformed_quiet
    | with_reducible apply spiRead_quiet
    | split
    | (dsimp -zeta only)

theorem execRegWrite_sound (off : Nat) (bytes : List Byte) (s : State) (cut : Option Nat := none) {s' : State} (h : execRegWrite off bytes s cut = .next s') : Sound s.dev s'.dev := by
  obtain rfl := ran_next.mp h
  exact wholeOr_sound _ _ _ _ (fun d => spiWrite_sound _ _ d (.refl _)) (.refl _)

theorem execMboxPut_quiet (len : Nat) (body : List Byte) (s : State) (cut : Option Nat := none) {s' : State} (h : execMboxPut len body s cut = .next s') : Quiet s.dev s'.dev := by
  obtain rfl := ran_next.mp h
  exact wholeOr_quiet _ _ _ _ (fun d => mboxPut_quiet _ _ _ (.refl _)) (.refl _)

theorem execMboxGet_quiet (n : Nat) (s : State) {s' : State} (h : execMboxGet n s = .next s') : Quiet s.dev s'.dev := by
  obtain rfl := ran_next.mp h
  exact mboxGet_quiet _ _ (.refl _)

theorem execBoot_sound (s : State) (opcode : Nat := 0x20) {s' : State} (h : execBoot s opcode = .next s') : Sound s.dev s'.dev := by
  obtain rfl := ran_next.mp h
  try dsimp -zeta only
  repeat' first
    | with_reducible exact Sound.refl _
    | with_reducible assumption
    | with_reducible apply Sound.ite
    | with_reducible apply Sound.transQuiet (k := spiMalformed_quiet (h₀ := .refl _) ..)
    | with_reducible apply spiBoot_sound
    | split
    | (dsimp -zeta only)

theorem execMediaFrameRx_quiet (pl : Nat) (frame : Frame) (s : State) {s' : State} (h : execMediaFrameRx pl frame s = .next s') : Quiet s.dev s'.dev := by
  obtain ⟨-, rfl⟩ := ranIf_next.mp h
  exact mediaFrame_quiet _ _ _ (.refl _)

theorem execMgtFrameRx_quiet (frame : Frame) (s : State) {s' : State} (h : execMgtFrameRx frame s = .next s') : Quiet s.dev s'.dev := by
  obtain rfl := ran_next.mp h
  exact mgtFrame_quiet _ _ (.refl _)

theorem execEpochStart_sound (s : State) {s' : State} (h : execEpochStart s = .next s') : Sound s.dev s'.dev := by
  obtain rfl := ran_next.mp h
  exact epochStart_sound _ (.refl _)

theorem execTimebaseLoad_sound (s : State) {s' : State} (h : execTimebaseLoad s = .next s') : Sound s.dev s'.dev := by
  obtain rfl := ran_next.mp h
  exact timebaseLoad_sound _ (.refl _)

theorem execStandbyResetRelease_quiet (ext testMode : Bool) (s : State) {s' : State} (h : execStandbyResetRelease ext testMode s = .next s') : Quiet s.dev s'.dev := by
  obtain rfl := ran_next.mp h
  exact standbyRelease_quiet _ _ _ (.refl _)

theorem execStandbyResetAssert_sound (s : State) {s' : State} (h : execStandbyResetAssert s = .next s') : Sound s.dev s'.dev := by
  obtain rfl := ran_next.mp h
  exact standbyAssert_sound _ (.refl _)

theorem execRailInWindow_quiet (rail : Nat) (v33 : Bool) (s : State) {s' : State} (h : execRailInWindow rail v33 s = .next s') : Quiet s.dev s'.dev := by
  obtain ⟨-, rfl⟩ := ranIf_next.mp h
  exact railInWindow_quiet _ _ _ (.refl _)

theorem execRailQualified_sound (rail : Nat) (s : State) {s' : State} (h : execRailQualified rail s = .next s') : Sound s.dev s'.dev := by
  obtain ⟨-, rfl⟩ := ranIf_next.mp h
  exact railQualified_sound _ _ (.refl _)

theorem execRailSequenceTimeout_sound (rail : Nat) (noAnswer : Bool) (s : State) {s' : State} (h : execRailSequenceTimeout rail noAnswer s = .next s') : Sound s.dev s'.dev := by
  obtain ⟨-, rfl⟩ := ranIf_next.mp h
  exact railTimeout_sound _ _ _ (.refl _)

theorem execRailFault_sound (rail : Nat) (overVolts : Bool) (s : State) {s' : State} (h : execRailFault rail overVolts s = .next s') : Sound s.dev s'.dev := by
  obtain ⟨-, rfl⟩ := ranIf_next.mp h
  exact railFault_sound _ _ _ (.refl _)

theorem execPmbAlert_sound (status : List RailReading) (s : State) {s' : State} (h : execPmbAlert status s = .next s') : Sound s.dev s'.dev := by
  obtain rfl := ran_next.mp h
  exact pmbAlert_sound _ _ (.refl _)

theorem execTelemetryPoll_sound (readings : List RailReading) (s : State) {s' : State} (h : execTelemetryPoll readings s = .next s') : Sound s.dev s'.dev := by
  obtain rfl := ran_next.mp h
  exact telemetryPoll_sound _ _ (.refl _)

theorem execThermalSample_sound (tj : List Int) (s : State) {s' : State} (h : execThermalSample tj s = .next s') : Sound s.dev s'.dev := by
  obtain rfl := ran_next.mp h
  exact thermalSample_sound _ _ (.refl _)

theorem execThermalAlarmClear_quiet (s : State) {s' : State} (h : execThermalAlarmClear s = .next s') : Quiet s.dev s'.dev := by
  obtain rfl := ran_next.mp h
  exact thermalAlarmClear_quiet _ (.refl _)

theorem execPorstFall_sound (s : State) {s' : State} (h : execPorstFall s = .next s') : Sound s.dev s'.dev := by
  obtain rfl := ran_next.mp h
  exact porstFall_sound _ (.refl _)

theorem execPwrExtPowerGood_sound (s : State) {s' : State} (h : execPwrExtPowerGood s = .next s') : Sound s.dev s'.dev := by
  obtain rfl := ran_next.mp h
  exact extPowerGood_sound _ (.refl _)

theorem execTestModeChange_sound (level : Bool) (s : State) {s' : State} (h : execTestModeChange level s = .next s') : Sound s.dev s'.dev := by
  obtain rfl := ran_next.mp h
  exact testModeChange_sound _ _ (.refl _)

theorem execMpy_calm (core form s t a lanes : Nat) (x y : MoveField) (g : AguField) (st : State) {s' : State} (h : execMpy core form s t a lanes x y g st = .next s') : Calm st.dev s'.dev := by
  obtain ⟨-, rfl⟩ := ranIf_next.mp h
  exact issueBundle_calm _ _ _ (.refl _)

theorem execMacAdd_calm (core form s t a lanes : Nat) (x y : MoveField) (g : AguField) (st : State) {s' : State} (h : execMacAdd core form s t a lanes x y g st = .next s') : Calm st.dev s'.dev := by
  obtain ⟨-, rfl⟩ := ranIf_next.mp h
  exact issueBundle_calm _ _ _ (.refl _)

theorem execMsu_calm (core form s t a lanes : Nat) (x y : MoveField) (g : AguField) (st : State) {s' : State} (h : execMsu core form s t a lanes x y g st = .next s') : Calm st.dev s'.dev := by
  obtain ⟨-, rfl⟩ := ranIf_next.mp h
  exact issueBundle_calm _ _ _ (.refl _)

theorem execMpyn_calm (core form s t a lanes : Nat) (x y : MoveField) (g : AguField) (st : State) {s' : State} (h : execMpyn core form s t a lanes x y g st = .next s') : Calm st.dev s'.dev := by
  obtain ⟨-, rfl⟩ := ranIf_next.mp h
  exact issueBundle_calm _ _ _ (.refl _)

theorem execClr_calm (core a lanes : Nat) (x y : MoveField) (g : AguField) (st : State) {s' : State} (h : execClr core a lanes x y g st = .next s') : Calm st.dev s'.dev := by
  obtain ⟨-, rfl⟩ := ranIf_next.mp h
  exact issueBundle_calm _ _ _ (.refl _)

theorem execRndAcc_calm (core a lanes : Nat) (x y : MoveField) (g : AguField) (st : State) {s' : State} (h : execRndAcc core a lanes x y g st = .next s') : Calm st.dev s'.dev := by
  obtain ⟨-, rfl⟩ := ranIf_next.mp h
  exact issueBundle_calm _ _ _ (.refl _)

theorem execAddWrap_calm (core dst s1 s2 : Nat) (x y : MoveField) (g : AguField) (st : State) {s' : State} (h : execAddWrap core dst s1 s2 x y g st = .next s') : Calm st.dev s'.dev := by
  obtain ⟨-, rfl⟩ := ranIf_next.mp h
  exact issueBundle_calm _ _ _ (.refl _)

theorem execSubWrap_calm (core dst s1 s2 : Nat) (x y : MoveField) (g : AguField) (st : State) {s' : State} (h : execSubWrap core dst s1 s2 x y g st = .next s') : Calm st.dev s'.dev := by
  obtain ⟨-, rfl⟩ := ranIf_next.mp h
  exact issueBundle_calm _ _ _ (.refl _)

theorem execAdds_calm (core dst s1 s2 : Nat) (x y : MoveField) (g : AguField) (st : State) {s' : State} (h : execAdds core dst s1 s2 x y g st = .next s') : Calm st.dev s'.dev := by
  obtain ⟨-, rfl⟩ := ranIf_next.mp h
  exact issueBundle_calm _ _ _ (.refl _)

theorem execSubs_calm (core dst s1 s2 : Nat) (x y : MoveField) (g : AguField) (st : State) {s' : State} (h : execSubs core dst s1 s2 x y g st = .next s') : Calm st.dev s'.dev := by
  obtain ⟨-, rfl⟩ := ranIf_next.mp h
  exact issueBundle_calm _ _ _ (.refl _)

theorem execAndBits_calm (core dst s1 s2 : Nat) (x y : MoveField) (g : AguField) (st : State) {s' : State} (h : execAndBits core dst s1 s2 x y g st = .next s') : Calm st.dev s'.dev := by
  obtain ⟨-, rfl⟩ := ranIf_next.mp h
  exact issueBundle_calm _ _ _ (.refl _)

theorem execOrBits_calm (core dst s1 s2 : Nat) (x y : MoveField) (g : AguField) (st : State) {s' : State} (h : execOrBits core dst s1 s2 x y g st = .next s') : Calm st.dev s'.dev := by
  obtain ⟨-, rfl⟩ := ranIf_next.mp h
  exact issueBundle_calm _ _ _ (.refl _)

theorem execXorBits_calm (core dst s1 s2 : Nat) (x y : MoveField) (g : AguField) (st : State) {s' : State} (h : execXorBits core dst s1 s2 x y g st = .next s') : Calm st.dev s'.dev := by
  obtain ⟨-, rfl⟩ := ranIf_next.mp h
  exact issueBundle_calm _ _ _ (.refl _)

theorem execCmp_calm (core dst s1 s2 : Nat) (x y : MoveField) (g : AguField) (st : State) {s' : State} (h : execCmp core dst s1 s2 x y g st = .next s') : Calm st.dev s'.dev := by
  obtain ⟨-, rfl⟩ := ranIf_next.mp h
  exact issueBundle_calm _ _ _ (.refl _)

theorem execMinVal_calm (core dst s1 s2 : Nat) (x y : MoveField) (g : AguField) (st : State) {s' : State} (h : execMinVal core dst s1 s2 x y g st = .next s') : Calm st.dev s'.dev := by
  obtain ⟨-, rfl⟩ := ranIf_next.mp h
  exact issueBundle_calm _ _ _ (.refl _)

theorem execMaxVal_calm (core dst s1 s2 : Nat) (x y : MoveField) (g : AguField) (st : State) {s' : State} (h : execMaxVal core dst s1 s2 x y g st = .next s') : Calm st.dev s'.dev := by
  obtain ⟨-, rfl⟩ := ranIf_next.mp h
  exact issueBundle_calm _ _ _ (.refl _)

theorem execAbsVal_calm (core dst s1 s2 : Nat) (x y : MoveField) (g : AguField) (st : State) {s' : State} (h : execAbsVal core dst s1 s2 x y g st = .next s') : Calm st.dev s'.dev := by
  obtain ⟨-, rfl⟩ := ranIf_next.mp h
  exact issueBundle_calm _ _ _ (.refl _)

theorem execNeg_calm (core dst s1 s2 : Nat) (x y : MoveField) (g : AguField) (st : State) {s' : State} (h : execNeg core dst s1 s2 x y g st = .next s') : Calm st.dev s'.dev := by
  obtain ⟨-, rfl⟩ := ranIf_next.mp h
  exact issueBundle_calm _ _ _ (.refl _)

theorem execAsl_calm (core dst s1 s2 : Nat) (x y : MoveField) (g : AguField) (st : State) {s' : State} (h : execAsl core dst s1 s2 x y g st = .next s') : Calm st.dev s'.dev := by
  obtain ⟨-, rfl⟩ := ranIf_next.mp h
  exact issueBundle_calm _ _ _ (.refl _)

theorem execAsr_calm (core dst s1 s2 : Nat) (x y : MoveField) (g : AguField) (st : State) {s' : State} (h : execAsr core dst s1 s2 x y g st = .next s') : Calm st.dev s'.dev := by
  obtain ⟨-, rfl⟩ := ranIf_next.mp h
  exact issueBundle_calm _ _ _ (.refl _)

theorem execAsrr_calm (core dst s1 s2 : Nat) (x y : MoveField) (g : AguField) (st : State) {s' : State} (h : execAsrr core dst s1 s2 x y g st = .next s') : Calm st.dev s'.dev := by
  obtain ⟨-, rfl⟩ := ranIf_next.mp h
  exact issueBundle_calm _ _ _ (.refl _)

theorem execLsr_calm (core dst s1 s2 : Nat) (x y : MoveField) (g : AguField) (st : State) {s' : State} (h : execLsr core dst s1 s2 x y g st = .next s') : Calm st.dev s'.dev := by
  obtain ⟨-, rfl⟩ := ranIf_next.mp h
  exact issueBundle_calm _ _ _ (.refl _)

theorem execAsli_calm (core dst s1 cnt : Nat) (x y : MoveField) (g : AguField) (st : State) {s' : State} (h : execAsli core dst s1 cnt x y g st = .next s') : Calm st.dev s'.dev := by
  obtain ⟨-, rfl⟩ := ranIf_next.mp h
  exact issueBundle_calm _ _ _ (.refl _)

theorem execAsri_calm (core dst s1 cnt : Nat) (x y : MoveField) (g : AguField) (st : State) {s' : State} (h : execAsri core dst s1 cnt x y g st = .next s') : Calm st.dev s'.dev := by
  obtain ⟨-, rfl⟩ := ranIf_next.mp h
  exact issueBundle_calm _ _ _ (.refl _)

theorem execLsri_calm (core dst s1 cnt : Nat) (x y : MoveField) (g : AguField) (st : State) {s' : State} (h : execLsri core dst s1 cnt x y g st = .next s') : Calm st.dev s'.dev := by
  obtain ⟨-, rfl⟩ := ranIf_next.mp h
  exact issueBundle_calm _ _ _ (.refl _)

theorem execNorm_calm (core dst s1 s2 : Nat) (x y : MoveField) (g : AguField) (st : State) {s' : State} (h : execNorm core dst s1 s2 x y g st = .next s') : Calm st.dev s'.dev := by
  obtain ⟨-, rfl⟩ := ranIf_next.mp h
  exact issueBundle_calm _ _ _ (.refl _)

theorem execMova_calm (core dst s1 s2 : Nat) (x y : MoveField) (g : AguField) (st : State) {s' : State} (h : execMova core dst s1 s2 x y g st = .next s') : Calm st.dev s'.dev := by
  obtain ⟨-, rfl⟩ := ranIf_next.mp h
  exact issueBundle_calm _ _ _ (.refl _)

theorem execMovn_calm (core dst s1 s2 : Nat) (x y : MoveField) (g : AguField) (st : State) {s' : State} (h : execMovn core dst s1 s2 x y g st = .next s') : Calm st.dev s'.dev := by
  obtain ⟨-, rfl⟩ := ranIf_next.mp h
  exact issueBundle_calm _ _ _ (.refl _)

theorem execMovm_calm (core dst s1 s2 : Nat) (x y : MoveField) (g : AguField) (st : State) {s' : State} (h : execMovm core dst s1 s2 x y g st = .next s') : Calm st.dev s'.dev := by
  obtain ⟨-, rfl⟩ := ranIf_next.mp h
  exact issueBundle_calm _ _ _ (.refl _)

theorem execMovfa_calm (core dst s1 s2 : Nat) (x y : MoveField) (g : AguField) (st : State) {s' : State} (h : execMovfa core dst s1 s2 x y g st = .next s') : Calm st.dev s'.dev := by
  obtain ⟨-, rfl⟩ := ranIf_next.mp h
  exact issueBundle_calm _ _ _ (.refl _)

theorem execXtrh_calm (core dst s1 s2 : Nat) (x y : MoveField) (g : AguField) (st : State) {s' : State} (h : execXtrh core dst s1 s2 x y g st = .next s') : Calm st.dev s'.dev := by
  obtain ⟨-, rfl⟩ := ranIf_next.mp h
  exact issueBundle_calm _ _ _ (.refl _)

theorem execXtrl_calm (core dst s1 s2 : Nat) (x y : MoveField) (g : AguField) (st : State) {s' : State} (h : execXtrl core dst s1 s2 x y g st = .next s') : Calm st.dev s'.dev := by
  obtain ⟨-, rfl⟩ := ranIf_next.mp h
  exact issueBundle_calm _ _ _ (.refl _)

theorem execInsa_calm (core dst s1 s2 : Nat) (x y : MoveField) (g : AguField) (st : State) {s' : State} (h : execInsa core dst s1 s2 x y g st = .next s') : Calm st.dev s'.dev := by
  obtain ⟨-, rfl⟩ := ranIf_next.mp h
  exact issueBundle_calm _ _ _ (.refl _)

theorem execAccadd_calm (core dst s1 s2 : Nat) (x y : MoveField) (g : AguField) (st : State) {s' : State} (h : execAccadd core dst s1 s2 x y g st = .next s') : Calm st.dev s'.dev := by
  obtain ⟨-, rfl⟩ := ranIf_next.mp h
  exact issueBundle_calm _ _ _ (.refl _)

theorem execAccsub_calm (core dst s1 s2 : Nat) (x y : MoveField) (g : AguField) (st : State) {s' : State} (h : execAccsub core dst s1 s2 x y g st = .next s') : Calm st.dev s'.dev := by
  obtain ⟨-, rfl⟩ := ranIf_next.mp h
  exact issueBundle_calm _ _ _ (.refl _)

theorem execAccsh_calm (core dst s1 s2 : Nat) (x y : MoveField) (g : AguField) (st : State) {s' : State} (h : execAccsh core dst s1 s2 x y g st = .next s') : Calm st.dev s'.dev := by
  obtain ⟨-, rfl⟩ := ranIf_next.mp h
  exact issueBundle_calm _ _ _ (.refl _)

theorem execBra_calm (core addr : Nat) (y : MoveField) (g : AguField) (st : State) {s' : State} (h : execBra core addr y g st = .next s') : Calm st.dev s'.dev := by
  obtain ⟨-, rfl⟩ := ranIf_next.mp h
  exact issueBundle_calm _ _ _ (.refl _)

theorem execBcc_calm (core cond addr : Nat) (y : MoveField) (g : AguField) (st : State) {s' : State} (h : execBcc core cond addr y g st = .next s') : Calm st.dev s'.dev := by
  obtain ⟨-, rfl⟩ := ranIf_next.mp h
  exact issueBundle_calm _ _ _ (.refl _)

theorem execCallSub_calm (core addr : Nat) (y : MoveField) (g : AguField) (st : State) {s' : State} (h : execCallSub core addr y g st = .next s') : Calm st.dev s'.dev := by
  obtain ⟨-, rfl⟩ := ranIf_next.mp h
  exact issueBundle_calm _ _ _ (.refl _)

theorem execRetSub_calm (core : Nat) (y : MoveField) (g : AguField) (st : State) {s' : State} (h : execRetSub core y g st = .next s') : Calm st.dev s'.dev := by
  obtain ⟨-, rfl⟩ := ranIf_next.mp h
  exact issueBundle_calm _ _ _ (.refl _)

theorem execJmp_calm (core areg : Nat) (y : MoveField) (g : AguField) (st : State) {s' : State} (h : execJmp core areg y g st = .next s') : Calm st.dev s'.dev := by
  obtain ⟨-, rfl⟩ := ranIf_next.mp h
  exact issueBundle_calm _ _ _ (.refl _)

theorem execLoopBack_calm (core dreg addr : Nat) (y : MoveField) (g : AguField) (st : State) {s' : State} (h : execLoopBack core dreg addr y g st = .next s') : Calm st.dev s'.dev := by
  obtain ⟨-, rfl⟩ := ranIf_next.mp h
  exact issueBundle_calm _ _ _ (.refl _)

theorem execRepImmediate_calm (core n : Nat) (y : MoveField) (g : AguField) (st : State) {s' : State} (h : execRepImmediate core n y g st = .next s') : Calm st.dev s'.dev := by
  obtain ⟨-, rfl⟩ := ranIf_next.mp h
  exact issueBundle_calm _ _ _ (.refl _)

theorem execRepRegister_calm (core dreg : Nat) (y : MoveField) (g : AguField) (st : State) {s' : State} (h : execRepRegister core dreg y g st = .next s') : Calm st.dev s'.dev := by
  obtain ⟨-, rfl⟩ := ranIf_next.mp h
  exact issueBundle_calm _ _ _ (.refl _)

theorem execRte_calm (core : Nat) (y : MoveField) (g : AguField) (st : State) {s' : State} (h : execRte core y g st = .next s') : Calm st.dev s'.dev := by
  obtain ⟨-, rfl⟩ := ranIf_next.mp h
  exact issueBundle_calm _ _ _ (.refl _)

theorem execEndItem_calm (core : Nat) (y : MoveField) (g : AguField) (st : State) {s' : State} (h : execEndItem core y g st = .next s') : Calm st.dev s'.dev := by
  obtain ⟨-, rfl⟩ := ranIf_next.mp h
  exact issueBundle_calm _ _ _ (.refl _)

theorem execEnq_calm (core areg : Nat) (y : MoveField) (g : AguField) (st : State) {s' : State} (h : execEnq core areg y g st = .next s') : Calm st.dev s'.dev := by
  obtain ⟨-, rfl⟩ := ranIf_next.mp h
  exact issueBundle_calm _ _ _ (.refl _)

theorem execEvsig_calm (core source : Nat) (y : MoveField) (g : AguField) (st : State) {s' : State} (h : execEvsig core source y g st = .next s') : Calm st.dev s'.dev := by
  obtain ⟨-, rfl⟩ := ranIf_next.mp h
  exact issueBundle_calm _ _ _ (.refl _)

theorem execSetscale_calm (core imm : Nat) (y : MoveField) (g : AguField) (st : State) {s' : State} (h : execSetscale core imm y g st = .next s') : Calm st.dev s'.dev := by
  obtain ⟨-, rfl⟩ := ranIf_next.mp h
  exact issueBundle_calm _ _ _ (.refl _)

theorem execGetsr_calm (core dreg : Nat) (y : MoveField) (g : AguField) (st : State) {s' : State} (h : execGetsr core dreg y g st = .next s') : Calm st.dev s'.dev := by
  obtain ⟨-, rfl⟩ := ranIf_next.mp h
  exact issueBundle_calm _ _ _ (.refl _)

theorem execPutsr_calm (core dreg : Nat) (y : MoveField) (g : AguField) (st : State) {s' : State} (h : execPutsr core dreg y g st = .next s') : Calm st.dev s'.dev := by
  obtain ⟨-, rfl⟩ := ranIf_next.mp h
  exact issueBundle_calm _ _ _ (.refl _)

theorem execCyc_calm (core dreg : Nat) (y : MoveField) (g : AguField) (st : State) {s' : State} (h : execCyc core dreg y g st = .next s') : Calm st.dev s'.dev := by
  obtain ⟨-, rfl⟩ := ranIf_next.mp h
  exact issueBundle_calm _ _ _ (.refl _)

theorem execCid_calm (core dreg : Nat) (y : MoveField) (g : AguField) (st : State) {s' : State} (h : execCid core dreg y g st = .next s') : Calm st.dev s'.dev := by
  obtain ⟨-, rfl⟩ := ranIf_next.mp h
  exact issueBundle_calm _ _ _ (.refl _)

theorem execPutwb_calm (core dreg : Nat) (y : MoveField) (g : AguField) (st : State) {s' : State} (h : execPutwb core dreg y g st = .next s') : Calm st.dev s'.dev := by
  obtain ⟨-, rfl⟩ := ranIf_next.mp h
  exact issueBundle_calm _ _ _ (.refl _)

theorem execWaitw_calm (core : Nat) (y : MoveField) (g : AguField) (st : State) {s' : State} (h : execWaitw core y g st = .next s') : Calm st.dev s'.dev := by
  obtain ⟨-, rfl⟩ := ranIf_next.mp h
  exact issueBundle_calm _ _ _ (.refl _)

theorem execEnqCreditFree_calm (core : Nat) (st : State) {s' : State} (h : execEnqCreditFree core st = .next s') : Calm st.dev s'.dev := by
  obtain ⟨-, rfl⟩ := ranIf_next.mp h
  try dsimp -zeta only
  repeat' first
    | (extract_lets +onlyGivenNames x; first | clear_value x | skip)
    | with_reducible exact Calm.refl _
    | with_reducible apply complete_calm
    | with_reducible assumption
    | split
    | (dsimp -zeta only)
    | with_reducible exact Quiet.refl _
    | with_reducible refine Quiet.calm ?_


theorem execWaitwDone_calm (core : Nat) (st : State) {s' : State} (h : execWaitwDone core st = .next s') : Calm st.dev s'.dev := by
  obtain ⟨-, rfl⟩ := ranIf_next.mp h
  try dsimp -zeta only
  repeat' first
    | (extract_lets +onlyGivenNames x; first | clear_value x | skip)
    | with_reducible exact Calm.refl _
    | with_reducible apply complete_calm
    | with_reducible assumption
    | with_reducible apply setCore_quiet
    | split
    | (dsimp -zeta only)
    | with_reducible exact Quiet.refl _
    | with_reducible refine Quiet.calm ?_


theorem execWindowReadData_calm (core : Nat) (ok : Bool) (st : State) {s' : State} (h : execWindowReadData core ok st = .next s') : Calm st.dev s'.dev := by
  obtain ⟨-, rfl⟩ := ranIf_next.mp h
  dsimp -zeta only
  extract_lets c
  split
  · split
    · exact .refl _
    · split
      · split
        · exact (setCore_quiet _ _ _ (.refl _)).calm
        · exact complete_calm _ _ _ (.refl _)
      · extract_lets off x
        have hx : Quiet st.dev x := countError_quiet _ _ _ _ _ (.refl _)
        exact (vecFault_quiet _ _ _ (setCore_quiet _ _ _ hx)).calm
  · exact .refl _

theorem execLdx_calm (core reg an mode nsel : Nat) (other : MoveField) (g : AguField) (st : State) {s' : State} (h : execLdx core reg an mode nsel other g st = .next s') : Calm st.dev s'.dev := by
  obtain ⟨-, rfl⟩ := ranIf_next.mp h
  exact issueBundle_calm _ _ _ (.refl _)

theorem execLdy_calm (core reg an mode nsel : Nat) (other : MoveField) (g : AguField) (st : State) {s' : State} (h : execLdy core reg an mode nsel other g st = .next s') : Calm st.dev s'.dev := by
  obtain ⟨-, rfl⟩ := ranIf_next.mp h
  exact issueBundle_calm _ _ _ (.refl _)

theorem execStx_calm (core reg an mode nsel : Nat) (other : MoveField) (g : AguField) (st : State) {s' : State} (h : execStx core reg an mode nsel other g st = .next s') : Calm st.dev s'.dev := by
  obtain ⟨-, rfl⟩ := ranIf_next.mp h
  exact issueBundle_calm _ _ _ (.refl _)

theorem execSty_calm (core reg an mode nsel : Nat) (other : MoveField) (g : AguField) (st : State) {s' : State} (h : execSty core reg an mode nsel other g st = .next s') : Calm st.dev s'.dev := by
  obtain ⟨-, rfl⟩ := ranIf_next.mp h
  exact issueBundle_calm _ _ _ (.refl _)

theorem execMovReg_calm (core : Nat) (yside : Bool) (dst : Option Nat) (src : Nat) (other : MoveField) (g : AguField) (st : State) {s' : State} (h : execMovReg core yside dst src other g st = .next s') : Calm st.dev s'.dev := by
  obtain ⟨-, rfl⟩ := ranIf_next.mp h
  exact issueBundle_calm _ _ _ (.refl _)

theorem execAdda_calm (core an : Nat) (x y : MoveField) (st : State) {s' : State} (h : execAdda core an x y st = .next s') : Calm st.dev s'.dev := by
  obtain ⟨-, rfl⟩ := ranIf_next.mp h
  exact issueBundle_calm _ _ _ (.refl _)

theorem execSuba_calm (core an : Nat) (x y : MoveField) (st : State) {s' : State} (h : execSuba core an x y st = .next s') : Calm st.dev s'.dev := by
  obtain ⟨-, rfl⟩ := ranIf_next.mp h
  exact issueBundle_calm _ _ _ (.refl _)

theorem execInca_calm (core an : Nat) (x y : MoveField) (st : State) {s' : State} (h : execInca core an x y st = .next s') : Calm st.dev s'.dev := by
  obtain ⟨-, rfl⟩ := ranIf_next.mp h
  exact issueBundle_calm _ _ _ (.refl _)

theorem execDeca_calm (core an : Nat) (x y : MoveField) (st : State) {s' : State} (h : execDeca core an x y st = .next s') : Calm st.dev s'.dev := by
  obtain ⟨-, rfl⟩ := ranIf_next.mp h
  exact issueBundle_calm _ _ _ (.refl _)

theorem execLi_calm (core file reg : Nat) (imm : Word) (st : State) {s' : State} (h : execLi core file reg imm st = .next s') : Calm st.dev s'.dev := by
  obtain ⟨-, rfl⟩ := ranIf_next.mp h
  exact issueBundle_calm _ _ _ (.refl _)

end Sys2Proof.Machine
end

