-- ==== Sys2Proof/Laws/Frames.lean ====
section
/-!
SUPPORT. Sys2Proof/Laws/Frames.lean: which registers the shared operations write, and that they write nothing else.
-/
namespace Sys2Proof.Machine

theorem OnlyWords.mono {ws vs : List Nat} {a b : Dev} (h : OnlyWords ws a b) (hs : ∀ o ∈ ws, o ∈ vs) : OnlyWords vs a b :=
  ⟨⟨fun o ho => h.regs.live o (fun k => ho (hs o k)), h.regs.shadow, h.regs.act, h.regs.snap⟩, h.rest⟩

theorem RegsBut.mono {ws vs : List Nat} {a b : Dev} (h : RegsBut ws a b) (hs : ∀ o ∈ ws, o ∈ vs) : RegsBut vs a b :=
  ⟨fun o ho => h.live o (fun k => ho (hs o k)), h.shadow, h.act, h.snap⟩

/-- A fold of operations that write only some words writes only those. -/
theorem OnlyWords.foldl {α : Type} {ws : List Nat} {a : Dev} {f : Dev → α → Dev} :
    ∀ (l : List α) {b : Dev}, (∀ x ∈ l, ∀ d, OnlyWords ws d (f d x)) → OnlyWords ws a b → OnlyWords ws a (l.foldl f b)
  | [], _, _, h => h
  | x :: t, b, hf, h =>
    OnlyWords.foldl t (fun y hy d => hf y (List.mem_cons_of_mem x hy) d) (h.trans (hf x List.mem_cons_self b))

theorem perfAdd_only (d : Dev) (b k n : Nat) (hk : k < 8) : OnlyWords (perfWords b) d (perfAdd d b k n) := by
  have h1 : offPerfOvf b ∈ perfWords b := List.mem_cons_self
  have h2 : offPerfCntLo b k ∈ perfWords b :=
    List.mem_cons_of_mem _ (List.mem_flatMap.mpr ⟨k, List.mem_range.mpr hk, by simp⟩)
  have h3 : offPerfCntHi b k ∈ perfWords b :=
    List.mem_cons_of_mem _ (List.mem_flatMap.mpr ⟨k, List.mem_range.mpr hk, by simp⟩)
  unfold perfAdd
  refine OnlyWords.liveSet h3 (OnlyWords.liveSet h2 ?_)
  split
  · exact OnlyWords.liveSetB h1 (.refl _ _)
  · exact .refl _ _

theorem perfHit_only (d : Dev) (b c n : Nat) : OnlyWords (perfWords b) d (perfHit d b c n) := by
  unfold perfHit
  split
  · refine OnlyWords.foldl _ (fun k hk x => ?_) (.refl _ _)
    split
    · exact perfAdd_only _ _ _ _ (List.mem_range.mp hk)
    · exact .refl _ _
  · exact .refl _ _

theorem perfSpan_only (d : Dev) (b c n : Nat) : OnlyWords (perfWords b) d (perfSpan d b c n) := by
  unfold perfSpan
  split
  · refine OnlyWords.foldl _ (fun k hk x => ?_) (.refl _ _)
    split
    · exact perfAdd_only _ _ _ _ (List.mem_range.mp hk)
    · exact .refl _ _
  · exact .refl _ _

theorem raiseEvt_only (d : Dev) (s : Nat) : OnlyWords [offEvtPend (s / 32), offEvtCoalesce] d (raiseEvt d s) := by
  unfold raiseEvt
  split
  · exact OnlyWords.bump (by simp) (.refl _ _)
  · exact OnlyWords.liveSetB (by simp) (.refl _ _)

/-- A block's own raise writes at most the pending bit of its source and the count of repeated raises. -/
theorem raiseOwn_only (d : Dev) (s : Nat) : OnlyWords [offEvtPend (s / 32), offEvtCoalesce] d (raiseOwn d s) := by
  unfold raiseOwn
  split
  · exact .refl _ _
  · exact raiseEvt_only d s

/-- After a raise the source is pending, and no other source's bit has changed. -/
theorem raiseEvt_pending (d : Dev) (s k : Nat) :
    evtPending (raiseEvt d s) k = (evtPending d k || decide (k = s)) := by
  have hc : ∀ r, r ≤ k / 32 → True := fun _ _ => trivial
  unfold raiseEvt evtPending
  split
  · next h =>
    rw [show liveB (bump d offEvtCoalesce) (offEvtPend (k / 32)) (k % 32) = liveB d (offEvtPend (k / 32)) (k % 32) from ?_]
    · by_cases e : k = s
      · subst e; simp [h]
      · simp [e]
    · unfold liveB
      rw [liveGet_bump, if_neg (by unfold offEvtPend offEvtCoalesce; omega)]
  · unfold liveB
    rw [liveGet_liveSetB]
    by_cases e : k / 32 = s / 32
    · rw [if_pos (by rw [e]), bit_setBit _ _ _ (Nat.mod_lt _ (by decide)), e]
      by_cases e2 : k = s
      · subst e2; simp
      · rw [if_neg (by omega)]; simp [e2]
    · rw [if_neg (by unfold offEvtPend; omega)]
      simp [show k ≠ s from fun h => e (by rw [h])]

/-! ### Raising an error -/

/-- The registers of `errWords`, the error unit, the serial ports' outputs and their gate, and the ready list are all that raising an error
may change. -/
structure ErrOnly (a b : Dev) : Prop where
  /-- Registers. -/
  regs : RegsBut errWords a b
  /-- Everything else. -/
  rest : { b with regs := a.regs, err := a.err, sap := a.sap, twn := { b.twn with confirmed := a.twn.confirmed },
                  wd := { b.wd with ready := a.wd.ready, started := a.wd.started } } = a

theorem ErrOnly.refl (a : Dev) : ErrOnly a a := ⟨.refl _ _, rfl⟩

theorem ErrOnly.liveSet {a b : Dev} {o : Nat} {w : Word} (ho : o ∈ errWords) (h : ErrOnly a b) : ErrOnly a (liveSet b o w) :=
  ⟨h.regs.liveSet ho, h.rest⟩

theorem ErrOnly.liveSetB {a b : Dev} {o i : Nat} {v : Bool} (ho : o ∈ errWords) (h : ErrOnly a b) : ErrOnly a (liveSetB b o i v) :=
  h.liveSet ho

theorem ErrOnly.err {a b : Dev} (h : ErrOnly a b) (e : Err) : ErrOnly a { b with err := e } := ⟨h.regs.other rfl, h.rest⟩

theorem ErrOnly.sap {a b : Dev} (h : ErrOnly a b) (e : Sap) : ErrOnly a { b with sap := e } := ⟨h.regs.other rfl, h.rest⟩

theorem ErrOnly.released {a b : Dev} (h : ErrOnly a b) (e : Sap) : ErrOnly a { b with sap := e, twn := { b.twn with confirmed := false } } :=
  ⟨h.regs.other rfl, h.rest⟩

theorem ErrOnly.emptied {a b : Dev} (h : ErrOnly a b) : ErrOnly a { b with wd := { b.wd with ready := [], started := false } } :=
  ⟨h.regs.other rfl, h.rest⟩

theorem ErrOnly.ite {a b c : Dev} {p : Prop} [Decidable p] (h : ErrOnly a b) (k : ErrOnly a c) : ErrOnly a (if p then b else c) := by
  split <;> assumption

theorem ErrOnly.foldl {α : Type} {a : Dev} {f : Dev → α → Dev} :
    ∀ (l : List α) {b : Dev}, (∀ x ∈ l, ∀ d, ErrOnly a d → ErrOnly a (f d x)) → ErrOnly a b → ErrOnly a (l.foldl f b)
  | [], _, _, h => h
  | x :: t, b, hf, h =>
    ErrOnly.foldl t (fun y hy d => hf y (List.mem_cons_of_mem x hy) d) (hf x List.mem_cons_self b h)

theorem bumpSat_err {a d : Dev} {o : Nat} (hi lo : Nat) (ho : o ∈ errWords) (h : ErrOnly a d) : ErrOnly a (bumpSat d o hi lo) := by
  unfold bumpSat
  extract_lets v
  exact ErrOnly.ite (h.liveSet ho) h

theorem errWords_cls {k : Nat} (h : k < 4) : offErrClassCount k ∈ errWords := by
  unfold errWords
  refine List.mem_append_left _ (List.mem_append_right _ (List.mem_map.mpr ⟨k, List.mem_range.mpr h, rfl⟩))

theorem errWords_port {p : Nat} (h : p < 32) : offSapPortStatus p ∈ errWords := by
  unfold errWords
  refine List.mem_append_right _ (List.mem_map.mpr ⟨p, List.mem_range.mpr h, rfl⟩)

theorem errWords_head {o : Nat} (h : o ∈ [offErrFatal, offErrStatus, offTwnStatus, offClkTuneCode]) : o ∈ errWords := by
  unfold errWords
  exact List.mem_append_left _ (List.mem_append_left _ h)

theorem releaseOut_err {a d : Dev} (h : ErrOnly a d) : ErrOnly a (releaseOut d) := by
  unfold releaseOut
  refine ErrOnly.released (ErrOnly.foldl _ (fun p hp x hx => ?_) ?_) _
  · exact hx.liveSetB (errWords_port (List.mem_range.mp hp))
  · exact (h.liveSetB (errWords_head (by simp))).liveSetB (errWords_head (by simp))

theorem fatalEffects_err {a d : Dev} (source code : Nat) (h : ErrOnly a d) : ErrOnly a (fatalEffects d source code) := by
  unfold fatalEffects
  refine ErrOnly.liveSet (errWords_head (by simp)) (releaseOut_err (ErrOnly.ite h ?_)).emptied
  exact (h.liveSet (errWords_head (by simp))).liveSetB (errWords_head (by simp))

/-- Raising an error writes nothing else (R422 to R426). -/
theorem raiseErr_err {a d : Dev} (source code : Nat) (a0 a1 : Word) (h : ErrOnly a d) : ErrOnly a (raiseErr d source code a0 a1) := by
  have hc : classOf code < 4 := by unfold classOf; split_ifs <;> decide
  unfold raiseErr
  extract_lets cls key old esc s0 d1 e1 e2 s1 d2 d3 s2
  have hcls : cls < 4 := hc
  have h1 : ErrOnly a d1 := ErrOnly.ite (h.err _) h
  have k1 : ErrOnly a e2 := fatalEffects_err _ _ (bumpSat_err _ _ (errWords_cls (by decide)) h1)
  have h2 : ErrOnly a d2 := bumpSat_err _ _ (errWords_cls hcls) h1
  have h3 : ErrOnly a d3 := ErrOnly.ite (fatalEffects_err _ _ h2) h2
  clear_value s1 s2
  clear_value e2 d3
  refine ErrOnly.ite (k1.err _) (ErrOnly.ite h3 ?_)
  split
  · exact h3.err _
  · exact h3.err _

/-! ### Completion records (R232) -/

/-- b is a with n more completion records written: registers of WD and EVT alone have changed, and the count of records. -/
structure Rec (n : Nat) (a b : Dev) : Prop where
  /-- Registers below those of WD. -/
  low : ∀ o, o < 0x1100000 → liveGet b o = liveGet a o
  /-- WD. -/
  wd : b.wd = { a.wd with records := a.wd.records + n }
  /-- Everything else. -/
  rest : { b with regs := a.regs, wd := a.wd } = a

theorem Rec.refl (a : Dev) : Rec 0 a a := ⟨fun _ _ => rfl, rfl, rfl⟩

theorem Rec.trans {n m : Nat} {a b c : Dev} (h : Rec n a b) (k : Rec m b c) : Rec (n + m) a c := by
  refine ⟨fun o ho => (k.low o ho).trans (h.low o ho), ?_, ?_⟩
  · rw [k.wd, h.wd]; simp [Nat.add_assoc]
  · have h1 := h.rest; have h2 := k.rest
    cases a; cases b; cases c; simp only [Dev.mk.injEq] at *; simp_all

theorem Rec.liveSet {n : Nat} {a b : Dev} {o : Nat} {w : Word} (ho : 0x1100000 ≤ o) (h : Rec n a b) : Rec n a (liveSet b o w) :=
  ⟨fun p hp => by rw [liveGet_liveSet_other _ _ (by omega)]; exact h.low p hp, h.wd, h.rest⟩

theorem Rec.raiseEvt {n : Nat} {a b : Dev} (s : Nat) (h : Rec n a b) : Rec n a (raiseEvt b s) := by
  unfold Machine.raiseEvt
  split
  · exact h.liveSet (by unfold offEvtCoalesce; omega)
  · exact h.liveSet (by unfold offEvtPend; omega)

theorem Rec.raiseOwn {n : Nat} {a b : Dev} (s : Nat) (h : Rec n a b) : Rec n a (raiseOwn b s) := by
  unfold Machine.raiseOwn
  split
  · exact h
  · exact h.raiseEvt s

theorem writeRecord_rec (d : Dev) (it : WorkItem) (r p : Nat) : Rec 1 d (writeRecord d it r p) := by
  unfold writeRecord
  extract_lets rr cyc w1 d1 d2 d3 d4 d5 d6 w7 d7
  have h5 : Rec 0 d d5 := by
    refine Rec.liveSet (by decide) (Rec.liveSet ?_ (Rec.liveSet ?_ (Rec.liveSet ?_ (Rec.liveSet ?_ (Rec.refl d))))) <;> · show 0x1100000 ≤ 0x1102000 + 0x10 * rr + 0x4 * _; omega
  have h6 : Rec 0 d d6 := by
    show Rec 0 d (if _ then _ else _)
    split
    · exact h5.liveSet (by decide)
    · exact h5
  have h7 : Rec 1 d d7 := by
    refine Rec.raiseOwn 6 ?_
    refine ⟨fun o ho => h6.low o ho, ?_, ?_⟩
    · have := h6.wd; simp [this, w7]
    · exact h6.rest
  split
  · unfold raiseCompletion
    simp only
    split
    · exact Rec.raiseEvt _ h7
    · exact h7
  · exact h7

theorem records_foldl (p : Nat) : ∀ (l : List WorkItem) (d : Dev), Rec l.length d (l.foldl (fun d it => writeRecord d it 1 63) d)
  | [], d => Rec.refl d
  | x :: t, d => by
    have := (writeRecord_rec d x 1 63).trans (records_foldl p t _)
    rw [List.length_cons, Nat.add_comm]
    exact this

end Sys2Proof.Machine
end

