-- ==== Sys2Proof/Laws/Vec.lean ====
section
/-!
SUPPORT. Sys2Proof/Laws/Vec.lean: the bundles of the vector cores: that a bundle command issues its bundle, what a completed bundle
leaves of its core, and that each register it writes takes the value of the first field that writes it (R195).
-/
set_option linter.all false
namespace Sys2Proof.Machine

/-- A bundle command of a core that exists issues its bundle. -/
theorem exec_bundle {c : Instr} {s : State} {core : Nat} {b : Bundle} (h : c.bundle = some (core, b)) (hc : core < 36) :
    exec c s = .next { s with dev := issueBundle core b s.dev } := by
  have key : ∀ f : Dev → Dev, ranIf (decide (core < 36)) s f = .next { s with dev := f s.dev } := by intro f; simp [ranIf, hc, ran]
  cases c <;> first
    | (injection h; done)
    | (injection h with h; injection h with h1 h2; subst h1 h2; exact key _)

/-- A word from which a core may issue a bundle spells one: the word 0 spells the do-nothing bundle (R210). -/
theorem fetches_decodes {c : VecCore} {b : Bundle} (h : fetches c b = true) : (decodeBundle (fetchWord c)).isNone = false := by
  unfold fetches at h
  rcases Bool.or_eq_true _ _ ▸ h with h | h
  · rw [of_decide_eq_true h]; rfl
  · rw [of_decide_eq_true h]; rfl

/-- What holds of the bundle of a command when it has taken its effects, `Issues` says of the command. -/
theorem issues_of {c : Instr} {s : State} {P : VecCore → Dev → Prop}
    (h : ∀ core b, c.bundle = some (core, b) → (bundleFx s.dev core (coreOf s.dev core) (inHandler s.dev core) b).faults = [] →
      waitsFor s.dev core (coreOf s.dev core) (bundleFx s.dev core (coreOf s.dev core) (inHandler s.dev core) b) b.op = none →
      P (coreOf (bundleDone s.dev core b) core) (bundleDone s.dev core b)) : Issues c s P := by
  intro core b hb hc hi hp hf hw
  refine ⟨_, exec_bundle hb hc, rfl, ?_, h core b hb hf hw⟩
  show issueBundle core b s.dev = complete s.dev core b
  unfold issueBundle
  simp only [hi, hp, fetches_decodes hp, Bool.and_false, Bool.and_self, if_true, if_false, Bool.false_eq_true]
  rw [hf]
  simp only
  rw [hw]

/-- Counting leaves the cores. -/
@[simp] theorem coreOf_perfHit (d : Dev) (b c n j : Nat) : coreOf (perfHit d b c n) j = coreOf d j := by
  have e : (perfHit d b c n).vec = d.vec := by
    have r := (perfHit_only d b c n).rest
    have v := congrArg Dev.vec r
    exact v
  unfold coreOf; rw [e]

/-- The core when a bundle has taken its effects. -/
theorem bundleDone_core (d : Dev) (core : Nat) (b : Bundle) :
    let c := coreOf d core
    let h := inHandler d core
    let fx := bundleFx d core c h b
    let m := ctlNext c h b.op
    coreOf (bundleDone d core b) core = { land c h fx with
      wait := none, posted := c.posted || !(windowStores c h fx).isEmpty, pc := m.pc, stack := m.stack, xfer := m.xfer, rep := m.rep
      repWord := if c.rep.isSome && m.rep.isSome then some (fetchWord c) else none } := by
  intro c h fx m
  unfold bundleDone
  extract_lets ws d1 d2 m' n' d3
  have e3 : coreOf d3 core = n' := by
    show coreOf (perfHit _ _ _ _) core = n'
    rw [coreOf_perfHit]; exact coreOf_setCore _ _ _
  show coreOf (if _ then perfHit _ _ _ _ else _) core = n'
  split
  · rw [coreOf_perfHit]; exact e3
  · exact e3

theorem find_filter_of {α : Type} (l : List α) (p q : α → Bool) (h : ∀ x, p x = true → q x = true) :
    (l.filter q).find? p = l.find? p := by
  rw [List.find?_filter]
  congr 1; funext x
  cases hp : p x <;> simp [hp, h x]

/-- The first write of a bundle to a register is the newest in flight to it. -/
theorem land_find (c : VecCore) (h : Bool) (fx : VecFx) (r : Nat) {e : Nat × VecWriter × Nat}
    (hf : fx.writes.find? (fun w => decide (regIn h w.1 = regIn h r)) = some e) :
    (land c h fx).flight.find? (fun w => decide (w.reg = regIn h r)) = some ⟨regIn h e.1, e.2.1, c.issued, e.2.2⟩ := by
  unfold land
  simp only
  rw [List.filter_append, List.find?_append]
  have : (List.filter (fun w : VecWrite => decide (¬w.k + 3 ≤ c.issued + 1)) (fx.writes.map fun w => (⟨regIn h w.1, w.2.1, c.issued, w.2.2⟩ : VecWrite))) =
      fx.writes.map fun w => (⟨regIn h w.1, w.2.1, c.issued, w.2.2⟩ : VecWrite) := by
    rw [List.filter_eq_self]
    intro a ha
    obtain ⟨w, hw, rfl⟩ := List.mem_map.mp ha
    simp
  rw [this, List.find?_map]
  have g : ((fun w : VecWrite => decide (w.reg = regIn h r)) ∘ fun w : Nat × VecWriter × Nat => (⟨regIn h w.1, w.2.1, c.issued, w.2.2⟩ : VecWrite)) = fun w => decide (regIn h w.1 = regIn h r) := rfl
  rw [g, hf]; rfl

theorem regLast_land (c : VecCore) (h : Bool) (fx : VecFx) (r : Nat) {e : Nat × VecWriter × Nat}
    (hf : fx.writes.find? (fun w => decide (regIn h w.1 = regIn h r)) = some e) : regLast (land c h fx) h r = e.2.2 := by
  unfold regLast
  simp only
  rw [land_find c h fx r hf]

/-- What is in flight, the registers and the memories of the core when a bundle has taken its effects are those of `land`. -/
theorem complete_land (d : Dev) (core : Nat) (b : Bundle) :
    let c := coreOf d core
    let h := inHandler d core
    let l := land c h (bundleFx d core c h b)
    let n := coreOf (bundleDone d core b) core
    n.flight = l.flight ∧ n.regs = l.regs ∧ n.xmem = l.xmem ∧ n.ymem = l.ymem ∧ n.stores = l.stores ∧ n.issued = l.issued ∧
      n.stack = (ctlNext c h b.op).stack ∧ n.wait = none ∧ n.prog = c.prog ∧ n.era = c.era ∧ n.item = c.item := by
  intro c h l n
  have e := bundleDone_core d core b
  simp only [n]; rw [e]; exact ⟨rfl, rfl, rfl, rfl, rfl, rfl, rfl, rfl, rfl, rfl, rfl⟩

theorem regIn_inj {h : Bool} {a r : Nat} (ha : a < 64) (hr : r < 64) : regIn h a = regIn h r ↔ a = r := by
  constructor
  · unfold regIn; split <;> split <;> omega
  · rintro rfl; rfl

/-- Every register a list of writes names is one of Table 9-1's. -/
def Low (l : List (Nat × VecWriter × Nat)) : Prop := ∀ e ∈ l, e.1 < 64

theorem Low.nil : Low [] := fun _ h => nomatch h
theorem Low.cons {r : Nat} {w : VecWriter} {v : Nat} {l : List (Nat × VecWriter × Nat)} (hr : r < 64) (h : Low l) : Low ((r, w, v) :: l) := by
  intro e he
  rcases List.mem_cons.mp he with rfl | he
  · exact hr
  · exact h e he
theorem Low.append {a b : List (Nat × VecWriter × Nat)} (h : Low a) (k : Low b) : Low (a ++ b) := by
  intro e he
  rcases List.mem_append.mp he with he | he
  · exact h e he
  · exact k e he
theorem Low.ite {a b : List (Nat × VecWriter × Nat)} {p : Prop} [Decidable p] (h : Low a) (k : Low b) : Low (if p then a else b) := by
  split <;> assumption

theorem postWrite_low (an : Nat) (u : Option Nat) : Low (postWrite an u) := by
  unfold postWrite; split
  · exact .nil
  · exact .cons (by omega) .nil

theorem accWrite_low {r : Nat} (v : Int) (hr : r < 64) : Low (accWrite r v) :=
  .cons hr (.ite (.cons (by decide) .nil) .nil)

theorem flagsZN_low (r : Word) : Low (flagsZN r) := .cons (by decide) (.cons (by decide) .nil)
theorem flagV_low (v : Bool) : Low (flagV v) := .cons (by decide) .nil
theorem putSr_low (w : Word) : Low (putSr w) :=
  .cons (by decide) (.cons (by decide) (.cons (by decide) (.cons (by decide) (.cons (by decide) (.cons (by decide) .nil)))))

theorem sourceWord_low (c : VecCore) (h : Bool) (r : Nat) : Low (sourceWord c h r).2 := by
  unfold sourceWord; split
  · exact .nil
  · exact .ite (.cons (by decide) .nil) .nil

theorem moveFx_low (d : Dev) (core : Nat) (c : VecCore) (h y : Bool) (m : MoveField) : Low (moveFx d core c h y m).writes := by
  cases m with
  | none => exact .nil
  | load reg an mode nsel =>
    show Low (loadFx d core c h y reg an mode nsel).writes
    unfold loadFx
    split
    · exact .nil
    · split
      · exact .nil
      · dsimp only
        repeat' split
        all_goals first | exact .nil | exact .cons (by omega) (postWrite_low _ _)
  | store reg an mode nsel =>
    show Low (storeFx d c h y reg an mode nsel).writes
    unfold storeFx
    split
    · exact .nil
    · split
      · exact .nil
      · dsimp only
        repeat' split
        all_goals first | exact .nil | exact .append (sourceWord_low _ _ _) (postWrite_low _ _)
  | mov dst src =>
    show Low (regMoveFx c h dst src).writes
    unfold regMoveFx
    split
    · exact .nil
    · split
      · exact .cons (by omega) (sourceWord_low _ _ _)
      · split <;> exact .cons (by omega) .nil

theorem aguFx_low (c : VecCore) (h : Bool) (g : AguField) : Low (aguFx c h g).writes := by
  unfold aguFx
  dsimp only
  repeat' split
  all_goals first | exact .nil | exact .cons (by omega) .nil

theorem macFx_low (c : VecCore) (h : Bool) (op : MacOp) (form s t a lanes : Nat) : Low (macFx c h op form s t a lanes).writes := by
  have key : Low ((List.range lanes).flatMap fun i =>
      accWrite (16 + (a + i) % 8) (macLane op (accSeen c h .acc ((a + i) % 8)) (product (dSeen c h (s + i)) (dSeen c h (if form = 0 then t + i else t))))) := by
    intro e he
    obtain ⟨i, _, he⟩ := List.mem_flatMap.mp he
    exact accWrite_low _ (by omega) e he
  cases op <;> first | exact .nil | (unfold macFx; dsimp only; split <;> first | exact .nil | exact key)

theorem aluFx_low (c : VecCore) (h : Bool) (op : AluOp) (dst s1 s2 : Nat) : Low (aluFx c h op dst s1 s2).writes := by
  have hd : dst % 16 < 64 := by omega
  cases op <;> unfold aluFx <;> dsimp only <;> (repeat' split) <;>
    first
    | exact .nil
    | exact .append (.append (.cons hd .nil) (flagsZN_low _)) (flagV_low _)
    | exact .append (.cons hd .nil) (flagsZN_low _)
    | exact .append (.cons hd .nil) (flagV_low _)
    | exact .append (flagsZN_low _) (flagV_low _)
    | exact .cons (by omega) .nil
    | exact accWrite_low _ (by omega)

theorem liFx_low (file reg : Nat) (imm : Word) : Low (liFx file reg imm).writes := by
  unfold liFx
  repeat' split
  all_goals first | exact .nil | exact .cons (by omega) .nil

theorem opFx_low (d : Dev) (core : Nat) (c : VecCore) (h : Bool) (op : VecOp) : Low (opFx d core c h op).writes := by
  cases op with
  | mac op form s t a lanes => exact macFx_low _ _ _ _ _ _ _ _
  | alu op dst s1 s2 => exact aluFx_low _ _ _ _ _ _
  | li file reg imm => exact liFx_low _ _ _
  | ctl op =>
    cases op <;> unfold opFx <;> dsimp only <;> (repeat' split) <;>
      first
      | exact .nil
      | exact putSr_low _
      | exact .cons (by omega) .nil
      | exact .cons (by decide) .nil

theorem bundleFx_low (d : Dev) (core : Nat) (c : VecCore) (h : Bool) (b : Bundle) : Low (bundleFx d core c h b).writes := by
  intro e he
  simp only [bundleFx, joinFx, List.nil_append, List.mem_append, List.mem_filter] at he
  rcases he with ⟨he, _⟩
  rcases he with he | ⟨he | ⟨he | ⟨he, _⟩, _⟩, _⟩
  · exact moveFx_low _ _ _ _ _ _ e he
  · exact moveFx_low _ _ _ _ _ _ e he
  · exact opFx_low _ _ _ _ _ e he
  · exact aguFx_low _ _ _ e he

/-- The first write to a register that no move writes is the operation's. -/
theorem bundle_find {d : Dev} {core : Nat} {b : Bundle} {r : Nat} {e : Nat × VecWriter × Nat} (hu : Unmoved d core b.x b.y r)
    (hf : (opFx d core (coreOf d core) (inHandler d core) b.op).writes.find? (fun w => decide (w.1 = r)) = some e) :
    (bundleFx d core (coreOf d core) (inHandler d core) b).writes.find? (fun w => decide (w.1 = r)) = some e := by
  have h1 : ∀ w ∈ (moveFx d core (coreOf d core) (inHandler d core) true b.y).writes, w.1 ≠ r := fun w hw => hu w (List.mem_append_left _ hw)
  have h2 : ∀ w ∈ (moveFx d core (coreOf d core) (inHandler d core) false b.x).writes, w.1 ≠ r := fun w hw => hu w (List.mem_append_right _ hw)
  have n1 : (moveFx d core (coreOf d core) (inHandler d core) true b.y).writes.find? (fun w => decide (w.1 = r)) = none := by
    rw [List.find?_eq_none]; intro w hw; simp [h1 w hw]
  have n2 : (moveFx d core (coreOf d core) (inHandler d core) false b.x).writes.find? (fun w => decide (w.1 = r)) = none := by
    rw [List.find?_eq_none]; intro w hw; simp [h2 w hw]
  simp only [bundleFx, joinFx, List.nil_append]
  rw [find_filter_of _ _ _ (by simp), List.find?_append, n1, Option.none_or, find_filter_of, List.find?_append, n2, Option.none_or, find_filter_of,
    List.find?_append, hf]
  · rfl
  · intro w hw; simp at hw; subst hw; simp only [List.all_eq_true, decide_eq_true_eq]; exact fun v hv => h2 v hv
  · intro w hw; simp at hw; subst hw; simp only [List.all_eq_true, decide_eq_true_eq]; exact fun v hv => h1 v hv

theorem regLast_congr {a b : VecCore} (hf : a.flight = b.flight) (hr : a.regs = b.regs) (h : Bool) (r : Nat) : regLast a h r = regLast b h r := by
  unfold regLast; rw [hf, hr]

/-- A register takes the value of the first write to it. -/
theorem complete_value {d : Dev} {core : Nat} {b : Bundle} {r : Nat} (hr : r < 64) {e : Nat × VecWriter × Nat}
    (hf : (bundleFx d core (coreOf d core) (inHandler d core) b).writes.find? (fun w => decide (w.1 = r)) = some e) :
    regLast (coreOf (bundleDone d core b) core) (inHandler d core) r = e.2.2 := by
  obtain ⟨h1, h2, _⟩ := complete_land d core b
  rw [regLast_congr h1 h2]
  refine regLast_land _ _ _ _ ?_
  rw [← hf]
  refine List.find?_congr ?_
  intro w hw
  have := bundleFx_low _ _ _ _ _ w hw
  simp [regIn_inj this hr]

/-- A register that no move of the bundle writes takes the value of the operation. -/
theorem op_value {d : Dev} {core : Nat} {b : Bundle} {r v : Nat} (hr : r < 64) {w : VecWriter} (hu : Unmoved d core b.x b.y r)
    (hf : (opFx d core (coreOf d core) (inHandler d core) b.op).writes.find? (fun w => decide (w.1 = r)) = some (r, w, v)) :
    regLast (coreOf (bundleDone d core b) core) (inHandler d core) r = v := complete_value hr (bundle_find hu hf)

/-- A move writes D, ACC and A registers and SL alone. -/
theorem moveFx_regs (d : Dev) (core : Nat) (c : VecCore) (h y : Bool) (m : MoveField) :
    ∀ e ∈ (moveFx d core c h y m).writes, e.1 < 24 ∨ (32 ≤ e.1 ∧ e.1 < 40) ∨ e.1 = rSL := by
  have hp : ∀ an u, ∀ e ∈ postWrite an u, e.1 < 24 ∨ (32 ≤ e.1 ∧ e.1 < 40) ∨ e.1 = rSL := by
    intro an u e he; unfold postWrite at he; split at he
    · exact absurd he (by simp)
    · simp at he; subst he; dsimp; omega
  have hs : ∀ r, ∀ e ∈ (sourceWord c h r).2, e.1 < 24 ∨ (32 ≤ e.1 ∧ e.1 < 40) ∨ e.1 = rSL := by
    intro r e he; unfold sourceWord at he; split at he
    · exact absurd he (by simp)
    · dsimp only at he; split at he
      · simp at he; subst he; simp
      · exact absurd he (by simp)
  cases m with
  | none => intro e he; exact absurd he (by simp [moveFx])
  | load reg an mode nsel =>
    show ∀ e ∈ (loadFx d core c h y reg an mode nsel).writes, _
    unfold loadFx
    split
    · intro e he; exact absurd he (by simp)
    · split
      · intro e he; exact absurd he (by simp)
      · dsimp only
        repeat' split
        all_goals (intro e he; first | (simp at he; done) | (rcases List.mem_cons.mp he with rfl | he <;> [(left; dsimp; omega); exact hp _ _ e he]))
  | store reg an mode nsel =>
    show ∀ e ∈ (storeFx d c h y reg an mode nsel).writes, _
    unfold storeFx
    split
    · intro e he; exact absurd he (by simp)
    · split
      · intro e he; exact absurd he (by simp)
      · dsimp only
        repeat' split
        all_goals (intro e he; first | (simp at he; done) | (rcases List.mem_append.mp he with he | he <;> [exact hs _ e he; exact hp _ _ e he]))
  | mov dst src =>
    show ∀ e ∈ (regMoveFx c h dst src).writes, _
    unfold regMoveFx
    split
    · intro e he; exact absurd he (by simp)
    · split
      · intro e he; rcases List.mem_cons.mp he with rfl | he
        · left; dsimp; omega
        · exact hs _ e he
      · split <;> (intro e he; simp at he; subst he; left; dsimp; omega)

theorem unmoved_other (d : Dev) (core : Nat) (x y : MoveField) {r : Nat} (h : 24 ≤ r) (k : r < 32 ∨ 40 ≤ r) (n : r ≠ rSL) : Unmoved d core x y r := by
  intro e he
  have : e.1 < 24 ∨ (32 ≤ e.1 ∧ e.1 < 40) ∨ e.1 = rSL := by
    rcases List.mem_append.mp he with he | he <;> exact moveFx_regs _ _ _ _ _ _ e he
  omega

end Sys2Proof.Machine
end

