-- ==== Sys2Proof/Tests/Slice0.lean ====
section
/-!
SUPPORT. Sys2Proof/Tests/Slice0.lean: ill-formed commands that the checks refuse, steps whose results the spec gives, and for every
statement with hypotheses a concrete state and operands that meet them.
-/
set_option linter.all false
namespace Sys2Proof.Tests
set_option Elab.async false
open Sys2Proof Sys2Proof.Machine

/-! ### Well-formed commands -/

/-- A unit that does not exist. -/
theorem test_no_such_unit_1 (x : MoveField) (g : AguField) (m : SadmFrame) : (([
    .ringFilled 1024, .zeroCrossing (.input 1536) 0, .zeroCrossing (.output 1536) 0, .zeroCrossing (.side 32) 0,
    .zeroCrossing (.portRx 32 0) 0, .zeroCrossing (.portRx 0 32) 0, .zeroCrossing (.portTx 32 0) 0,
    .zeroCrossing (.portTx 0 32) 0, .zeroCrossing (.rcFeed 512) 0, .zcTimeout (.input 1536), .zcTimeout (.output 1536),
    .zcTimeout (.side 32), .zcTimeout (.portRx 32 0), .zcTimeout (.portRx 0 32), .zcTimeout (.portTx 32 0),
    .zcTimeout (.portTx 0 32), .zcTimeout (.rcFeed 512), .sweepStart 12, .settleCrossfadeStart 1536, .settleDone 1536,
    .sadmParseDone 16 m, .msrcWindowTimeout 16, .geoSectionChecked 0x13, .geoSectionChecked 0xf, .shedHoldExpiry 1536,
    .mpy 36 0 0 0 0 0 x x g, .macAdd 36 0 0 0 0 0 x x g, .msu 36 0 0 0 0 0 x x g, .mpyn 36 0 0 0 0 0 x x g, .clr 36 0 0 x x g,
    .rndAcc 36 0 0 x x g, .ldx 36 0 0 0 0 x g, .ldy 36 0 0 0 0 x g, .stx 36 0 0 0 0 x g, .sty 36 0 0 0 0 x g, .adda 36 0 x x,
    .suba 36 0 x x, .inca 36 0 x x, .deca 36 0 x x, .li 36 0 0 0] : List Instr).all fun c => !c.unitOk) = true := rfl

/-- A unit that does not exist. -/
theorem test_no_such_unit_2 (x : MoveField) (g : AguField) : (([
    .addWrap 36 0 0 0 x x g, .subWrap 36 0 0 0 x x g, .adds 36 0 0 0 x x g, .subs 36 0 0 0 x x g, .andBits 36 0 0 0 x x g,
    .orBits 36 0 0 0 x x g, .xorBits 36 0 0 0 x x g, .cmp 36 0 0 0 x x g, .minVal 36 0 0 0 x x g, .maxVal 36 0 0 0 x x g,
    .absVal 36 0 0 0 x x g, .neg 36 0 0 0 x x g, .asl 36 0 0 0 x x g, .asr 36 0 0 0 x x g, .asrr 36 0 0 0 x x g,
    .lsr 36 0 0 0 x x g, .asli 36 0 0 0 x x g, .asri 36 0 0 0 x x g, .lsri 36 0 0 0 x x g, .norm 36 0 0 0 x x g,
    .mova 36 0 0 0 x x g, .movn 36 0 0 0 x x g, .movm 36 0 0 0 x x g, .movfa 36 0 0 0 x x g, .xtrh 36 0 0 0 x x g,
    .xtrl 36 0 0 0 x x g, .insa 36 0 0 0 x x g, .accadd 36 0 0 0 x x g, .accsub 36 0 0 0 x x g, .accsh 36 0 0 0 x x g,
    .bra 36 0 x g, .bcc 36 0 0 x g, .callSub 36 0 x g, .retSub 36 x g, .jmp 36 0 x g, .loopBack 36 0 0 x g,
    .repImmediate 36 0 x g, .repRegister 36 0 x g, .rte 36 x g, .endItem 36 x g] : List Instr).all fun c => !c.unitOk) = true := rfl

/-- A unit that does not exist. -/
theorem test_no_such_unit_3 (x : MoveField) (g : AguField) (f : Frame) : (([
    .enq 36 0 x g, .enqCreditFree 36, .evsig 36 0 x g, .setscale 36 0 x g, .getsr 36 0 x g, .putsr 36 0 x g, .cyc 36 0 x g,
    .cid 36 0 x g, .putwb 36 0 x g, .waitw 36 x g, .waitwDone 36, .windowReadData 36 false, .stageInDone 36, .itemComplete 36,
    .insertRelease 4, .itemCutoff 4, .cancelProd 34, .coreGate 36, .coreWakeDone 36, .eventRaise 1024, .pendSet 1024,
    .pendClr 1024, .maskSet 1024, .maskClr 1024, .eventHoldoffExpiry 1024, .mediaFrameRx 2 f, .pfcPauseExpiry 2 0,
    .pfcPauseExpiry 0 8, .supervisorFrame 2, .txPacketRelease 2 0, .txPacketRelease 0 128, .txFrameStart 2, .txStale 2 0,
    .txStale 0 128, .speedStepStart 2, .stepEpoch 2, .linkUp 3 0, .linkDown 3, .stepTimeout 2, .delayReqTx 2] : List Instr).all fun c => !c.unitOk) = true := rfl

/-- A unit that does not exist. -/
theorem test_no_such_unit_4 (r : XResp) (t : TwinEpoch) (e : DramErr) (h : TwinHead) : (([
    .syncTx 2, .announceTx 2, .txTimestampReturn 2 0 0, .syncTimeout 2, .announceReceiptTimeout 2, .pllLockDone 6, .relock 6,
    .refLoss (.phase 6), .pllReacquireDone 6, .pllNoReacquire 6, .sapFrame 32 0 [], .sapNoClock 32, .sapRealign 32 0,
    .sapPortStopped 32, .xbarResponse 19 0 r .capture, .xbarResponse 0 0 r (.bulk 1024), .xbarResponse 0 0 r (.tail 512),
    .xbarResponse 0 0 r (.staging 36), .xbarResponse 0 0 r (.window 36), .masterReset 19, .dramRequest 2 0 false false 0 e,
    .dramRequest 0 0 false false 19 e, .dramRefresh 2, .retrainingPause 2 false, .powerDownEntry 2 0, .powerDownEntry 0 2,
    .selfRefreshEntry 2, .selfRefreshExit 2, .memInit 2 false, .twinEpochFrameRx 2 h t, .joinRequest 2 h, .joinStop 2 h,
    .hardFault 2 0 0 0, .hardFault 0 0 0 4, .hardFault 0 5 0 0, .hardFault 1 9 0 0, .moonTakeover 2 false,
    .patrolAdvance 2 false, .reloadRefused 0x1a false, .reloadRefused 0xf false] : List Instr).all fun c => !c.unitOk) = true := rfl

/-- A unit that does not exist. -/
theorem test_no_such_unit_5 : (([
    .hello 3 0 [], .request 3 0 [], .fuseProgram .spi 4 false, .fuseRevoke .spi 4 false, .railInWindow 10 false,
    .railQualified 6, .railSequenceTimeout 6 false, .railFault 6 false, .linkFlitReplay 2 false, .twinFrameCrcError 2] : List Instr).all fun c => !c.unitOk) = true := rfl

/-- A field beyond its encoding. -/
theorem test_field_out_of_range_1 : (([
    .mpy 0 2 0 0 0 0 .none .none ⟨0, 0⟩, .mpy 0 0 16 0 0 0 .none .none ⟨0, 0⟩, .mpy 0 0 0 16 0 0 .none .none ⟨0, 0⟩,
    .mpy 0 0 0 0 8 0 .none .none ⟨0, 0⟩, .mpy 0 0 0 0 0 0 .none .none ⟨0, 0⟩, .mpy 0 0 0 0 0 5 .none .none ⟨0, 0⟩,
    .mpy 0 0 0 0 0 0 (.load 24 0 0 0) .none ⟨0, 0⟩, .mpy 0 0 0 0 0 0 .none (.load 24 0 0 0) ⟨0, 0⟩,
    .mpy 0 0 0 0 0 0 .none .none ⟨5, 0⟩, .clr 0 8 0 .none .none ⟨0, 0⟩, .clr 0 0 0 .none .none ⟨0, 0⟩,
    .clr 0 0 5 .none .none ⟨0, 0⟩, .clr 0 0 0 (.load 24 0 0 0) .none ⟨0, 0⟩, .clr 0 0 0 .none (.load 24 0 0 0) ⟨0, 0⟩,
    .clr 0 0 0 .none .none ⟨5, 0⟩, .ldx 0 0 0 0 0 (.load 24 0 0 0) ⟨0, 0⟩, .ldx 0 0 0 0 0 .none ⟨5, 0⟩,
    .movReg 0 false (some 24) 0 .none ⟨0, 0⟩, .movReg 0 false none 24 .none ⟨0, 0⟩,
    .movReg 0 false none 0 (.load 24 0 0 0) ⟨0, 0⟩, .movReg 0 false none 0 .none ⟨5, 0⟩, .adda 0 8 .none .none,
    .adda 0 0 (.load 24 0 0 0) .none, .adda 0 0 .none (.load 24 0 0 0), .li 0 4 0 0, .addWrap 0 16 0 0 .none .none ⟨0, 0⟩,
    .addWrap 0 0 16 0 .none .none ⟨0, 0⟩, .addWrap 0 0 0 16 .none .none ⟨0, 0⟩, .addWrap 0 0 0 0 (.load 24 0 0 0) .none ⟨0, 0⟩,
    .addWrap 0 0 0 0 .none (.load 24 0 0 0) ⟨0, 0⟩, .addWrap 0 0 0 0 .none .none ⟨5, 0⟩, .asli 0 16 0 0 .none .none ⟨0, 0⟩,
    .asli 0 0 16 0 .none .none ⟨0, 0⟩, .asli 0 0 0 32 .none .none ⟨0, 0⟩, .asli 0 0 0 0 (.load 24 0 0 0) .none ⟨0, 0⟩,
    .asli 0 0 0 0 .none (.load 24 0 0 0) ⟨0, 0⟩, .asli 0 0 0 0 .none .none ⟨5, 0⟩, .bra 0 8192 .none ⟨0, 0⟩,
    .bra 0 0 (.load 24 0 0 0) ⟨0, 0⟩, .bra 0 0 .none ⟨5, 0⟩] : List Instr).all fun c => !c.fieldsOk) = true := by decide

/-- A field beyond its encoding. -/
theorem test_field_out_of_range_2 : (([
    .bcc 0 8 0 .none ⟨0, 0⟩, .bcc 0 0 8192 .none ⟨0, 0⟩, .bcc 0 0 0 (.load 24 0 0 0) ⟨0, 0⟩, .bcc 0 0 0 .none ⟨5, 0⟩,
    .retSub 0 (.load 24 0 0 0) ⟨0, 0⟩, .retSub 0 .none ⟨5, 0⟩, .jmp 0 8 .none ⟨0, 0⟩, .jmp 0 0 (.load 24 0 0 0) ⟨0, 0⟩,
    .jmp 0 0 .none ⟨5, 0⟩, .loopBack 0 16 0 .none ⟨0, 0⟩, .loopBack 0 0 8192 .none ⟨0, 0⟩,
    .loopBack 0 0 0 (.load 24 0 0 0) ⟨0, 0⟩, .loopBack 0 0 0 .none ⟨5, 0⟩, .repImmediate 0 0 .none ⟨0, 0⟩,
    .repImmediate 0 4097 .none ⟨0, 0⟩, .repImmediate 0 0 (.load 24 0 0 0) ⟨0, 0⟩, .repImmediate 0 0 .none ⟨5, 0⟩,
    .repRegister 0 16 .none ⟨0, 0⟩, .repRegister 0 0 (.load 24 0 0 0) ⟨0, 0⟩, .repRegister 0 0 .none ⟨5, 0⟩,
    .evsig 0 1024 .none ⟨0, 0⟩, .evsig 0 0 (.load 24 0 0 0) ⟨0, 0⟩, .evsig 0 0 .none ⟨5, 0⟩, .setscale 0 32 .none ⟨0, 0⟩,
    .setscale 0 0 (.load 24 0 0 0) ⟨0, 0⟩, .setscale 0 0 .none ⟨5, 0⟩, .ldx 0 0 8 0 0 .none ⟨0, 0⟩,
    .ldx 0 0 0 8 0 .none ⟨0, 0⟩, .ldx 0 0 0 0 8 .none ⟨0, 0⟩, .ldx 0 24 0 0 0 .none ⟨0, 0⟩, .ldy 0 0 0 0 0 .none ⟨0, 8⟩,
    .ldx 0 0 0 0 0 (.store 0 8 0 0) ⟨0, 0⟩, .ldx 0 0 0 0 0 (.mov 24 0) ⟨0, 0⟩, .ldx 0 0 0 0 0 (.mov 0 24) ⟨0, 0⟩, .li 0 0 16 0,
    .li 0 1 8 0] : List Instr).all fun c => !c.fieldsOk) = true := by decide

/-! ### Devices for the tests -/

/-- A device with the given active copies and current values and everything else as reset leaves it. -/
def tdev (act live : List (Nat × Word)) : Dev := { regs := { act := [(0, act)], live := live } }

/-- A device whose management queue holds one request of a port, with every permission and one command. -/
def tfront (port op : Nat) (args : List Byte) : Dev :=
  let a := tdev [] [(offNvmStatus, 0x20)]
  { a with mgmt := { a.mgmt with queue := [⟨port, 0, 7, 1, 31, [⟨op, some args⟩], [], false, false, .none⟩] } }

/-- The bytes of a manifest of generation 2 with two sections, signed by a key made for this test (seed 0, 1, ..., 31); the signature
was computed outside the model by RFC 8032. -/
def tmanifest : List Byte := [81, 73, 77, 71, 0, 1, 0, 2, 0, 0, 0, 2, 81, 83, 78, 49, 0, 0, 0, 0, 0, 0, 0, 0, 0, 0, 0, 0, 0, 0, 0, 0,
  3, 161, 7, 191, 243, 206, 16, 190, 29, 112, 221, 24, 231, 75, 192, 153, 103, 228, 214, 48, 155, 165, 13, 95, 29, 220, 134, 100, 18, 85, 49, 184,
  0, 1, 0, 0, 0, 0, 16, 0, 0, 0, 0, 1, 0, 0, 0, 7, 0, 0, 0, 0, 0, 0, 0, 0, 0, 0, 0, 0, 0, 0, 0, 0,
  0, 2, 0, 0, 0, 0, 32, 0, 0, 0, 0, 1, 0, 0, 0, 7, 0, 0, 0, 0, 0, 0, 0, 0, 0, 0, 0, 0, 0, 0, 0, 0,
  102, 232, 148, 27, 197, 201, 163, 137, 137, 26, 251, 45, 86, 251, 187, 30, 246, 0, 175, 222, 49, 202, 44, 117, 74, 178, 31, 26, 232, 219, 77, 139,
  236, 132, 215, 163, 68, 107, 104, 142, 229, 115, 199, 174, 125, 175, 220, 251, 245, 63, 170, 95, 243, 141, 230, 80, 13, 217, 44, 63, 245, 40, 35, 7]

/-- A device that is up, runs generation 1 from bank A and holds that manifest in bank B, with the key's hash fused in slot 0. -/
def treload : Dev :=
  let a := tdev [] ((offLcsKeys, 1) :: ([1447516839, 1415792460, 42327901, 3207318199, 1034309941, 2285496759, 1954657002, 2970054796] : List Word).zipIdx.map fun w => (offLcsKeyHash 0 w.2, w.1))
  let m : Manifest := ⟨1, false, 0, false, false, 0, [⟨1, 4096, 1, 7⟩, ⟨2, 8192, 1, 7⟩]⟩
  { a with boot := { a.boot with up := true, manifest := some m, flash := tmanifest.zipIdx.map fun b => (2 ^ 26 + b.2, b.1) } }

/-- A device whose vector pool runs, with core 0 at cluster position 0 in the given state: A0 = 0x4000, A1 at the start of the external window,
A2 = 0x4030 with M2 a ring of 48 words at 0x4000, N2 = 16 and ACC0 = 2.0. -/
def tvec (st : Nat) : Dev :=
  let a := tdev [(blkVec * 0x100000, 1), (blkWd * 0x100000, 1)] [(offVecCoreState 0, BitVec.ofNat 32 st), (offMemStatus 1, 0x40000)]
  { a with
    wd := { a.wd with started := true, kernels := [(0, 0)] }
    vec := { a.vec with cores := [(0, { regs := [(16, 2 ^ 48), (32, 0x4000), (33, 0x800000), (34, 0x4030), (42, 16), (50, 0x60000030)] })] } }

/-! ### Steps and figures that the spec gives -/

/-- The device of an outcome. -/
def devOf (o : Host.Outcome State Fault Refusal) : Dev :=
  match o with
  | .next s => s.dev
  | _ => {}

/-- An empty queue idles (log entry 2). -/
theorem test_idle : (match step State.reset with
  | .next t => decide (t.pending = [])
  | _ => false) = true := by decide +kernel

/-- A command whose unit does not exist is refused by name. -/
theorem test_no_such_core : (match step { State.reset with pending := [.coreGate 36] } with
  | .refused .noSuchUnit => true
  | _ => false) = true := by decide +kernel

/-- The example after R191: LDX D0, [A0]+N2 with A0 one past a ring of 48 words at 0x4000 and N2 = 16 leaves 0x4010. -/
theorem test_ring_load : regLast (coreOf (devOf (step ⟨[.ldx 0 0 2 3 2 .none ⟨0, 0⟩], tvec 3⟩)) 0) false 34 = 0x4010 := by decide +kernel

/-- The other example after R191: 0x6002_8064 declares a ring of 100 words at 0x4005. -/
theorem test_ring_odd_base : stepAddr 0x60028064 0x4068 1 = some 0x4005 := by decide

/-- R185: the product of 0x8000_0000 with itself is +1.0, exactly. -/
theorem test_product_of_minus_ones : product 0x80000000 0x80000000 = 2 ^ 47 := by decide

/-- R189: ADD keeps the low 32 bits and sets V. -/
theorem test_add_wraps : (aluFx { regs := [(0, 0x7FFFFFFF), (1, 1)] } false .add 2 0 1).writes =
  [(2, .alu, 0x80000000), (rZ, .flags, 0), (rN, .flags, 1), (rV, .flags, 1)] := by decide

/-- The worked example of chapter 02: a commit named for PTP second 1,700,000,002 in epoch 5,100,000,000,750. -/
theorem test_commit_at_whole_second :
    let a := tdev [] [(offEpcCommitAtLo, 0x6FB04F70)]
    (devOf (step ⟨[.commitAtHi 0x4A3], { a with epc := { a.epc with epoch := 5100000000750 } }⟩)).epc.commit = some 5100000006000 := by
  decide +kernel

/-- The worked example of chapter 13: 3,464,000 ppt at 16 bits and 100 ppm is code 0x846F. -/
theorem test_tuning_code : tuneOf 16 100 false 3464000 = 0x846F := by decide

/-- The examples after Table 3-3, and a slot tap beyond 1,535. -/
theorem test_source_codes : srcLegal true 0x40A3 = true ∧ srcLegal true 0x3064 = true ∧ srcLegal false 0xC5FF = true ∧ srcLegal false 0xC600 = false := by
  decide

/-- R4: ties go to even. -/
theorem test_ties_to_even : rne 5 2 = 2 ∧ rne 7 2 = 4 ∧ rne (-5) 2 = -2 := by decide

/-- R13: SYS.DEVICE_ID. -/
theorem test_device_id : liveGet State.reset.dev offSysDeviceId = 0x51534E31 := by decide +kernel

/-- Tables 9-8 to 9-11, bit by bit: an MPY bundle with a Y load and an AGU update, a long immediate, and words that are no bundle (a reserved
class, a reserved move bit, a reserved bit of a long immediate). -/
theorem test_bundle_words :
    decodeBundle (2 ^ 56 + 2 ^ 50 + 2 * 2 ^ 46 + 2 * 2 ^ 43 + 2 ^ 40 + (2 ^ 21 + 3 * 2 ^ 16 + 2 ^ 13 + 2 ^ 10) + (3 * 8 + 5)) =
      some ⟨.mac .mpy 0 1 2 2 1, .none, .load 3 1 1 0, ⟨3, 5⟩⟩ ∧
    decodeBundle (2 * 2 ^ 60 + 1 * 2 ^ 57 + 4 * 2 ^ 53 + 0x4000) = some ⟨.li 1 4 0x4000, .none, .none, ⟨0, 0⟩⟩ ∧
    decodeBundle (4 * 2 ^ 60) = none ∧ decodeBundle (2 ^ 6) = none ∧ decodeBundle (2 * 2 ^ 60 + 2 ^ 52) = none := by decide

/-! ### The statements' hypotheses are met -/

theorem hyp_StepRunsTheFrontCommand : ({ State.reset with pending := [.remap] } : State).pending = .remap :: [] := by decide

theorem hyp_EmptyQueueIdles : State.reset.pending = [] := by decide

theorem hyp_CommandsLeaveTheQueue : ∃ t, exec .remap State.reset = .next t := ⟨_, rfl⟩

theorem hyp_CommandsRunWhenTheirUnitExists :
    Instr.unitOk (.pendSet 1023) = true ∧ Instr.unitOk (.pendSet 1024) = false ∧ Instr.unitOk .remap = true := by decide

theorem hyp_EveryStepKeepsTheDeviceCanonical : Canonical State.reset.dev ∧ step State.reset = .next State.reset :=
  ⟨⟨by decide, by decide, by decide, by decide, ⟨rfl, rfl, .nil, rfl, .nil, rfl, rfl, rfl⟩, by decide, by decide⟩, rfl⟩

theorem hyp_SnapshotHold :
    let d := liveSetB ({ State.reset.dev with epc := { State.reset.dev.epc with held := 3000 } }) offEpcCtrl 0 true
    liveB d offEpcCtrl 0 = true ∧ 3000 ≤ d.epc.held := by decide
theorem hyp_SnapshotHold_early : (State.reset.dev.epc.held < 3000) := by decide

theorem hyp_CommitRequestsAreJudgedInOrder :
    let e : Epc := { State.reset.dev.epc with commit := some 2 }
    e.commit = some 2 ∧ ¬(e.cutoff = true ∧ 2 ≤ e.epoch + 1) := by decide
theorem hyp_CommitRequestsAreJudgedInOrder_late :
    let e : Epc := { State.reset.dev.epc with commit := some 1, cutoff := true }
    e.commit = some 1 ∧ e.cutoff = true ∧ 1 ≤ e.epoch + 1 := by decide

theorem hyp_OnlyTheseCommandsChangeConfiguration :
    Instr.writesCopies .remap = false ∧ Instr.writesMem1 .remap = false ∧ Instr.writesReserved .remap = false ∧
      ∃ t, exec .remap State.reset = .next t := ⟨rfl, rfl, rfl, _, rfl⟩
theorem hyp_OnlyTheseCommandsChangeConfiguration_mem1 :
    Instr.writesCopies .captureDone = false ∧ Instr.writesMem1 .captureDone = true ∧ Instr.writesReserved .captureDone = false := by decide
theorem hyp_OnlyTheseCommandsChangeConfiguration_reserved :
    Instr.writesCopies .reload = false ∧ Instr.writesMem1 .reload = false ∧ Instr.writesReserved .reload = true := by decide

theorem hyp_EventPendingAndMaskBits : (1023 < 1024) ∧ (40 ≤ 40) ∧ fatal State.reset.dev = false ∧ fatal (tdev [] [(offErrStatus, 8)]) = true ∧ (40 < 41 ∧ 41 < 1024) := by decide

theorem hyp_EventDelivery_supervisor :
    let d := tdev [(0x1200000, 1), (offEvtSrcCfg 5, 0x40000000)] [(offEvtPend 0, 32), (offEvtMask 0, 0)]
    running d blkEvt = true ∧ evtOrder d = [5] ∧ actF d (offEvtSrcCfg 5) 31 30 = 1 ∧ actB d (offEvtSrcCfg 5) 29 = false := by
  decide +kernel
theorem hyp_EventDelivery_none : running State.reset.dev blkEvt = false ∧ evtOrder State.reset.dev = [] := by decide +kernel
theorem hyp_EventDelivery_item :
    let a := tdev [(0x1100000, 1), (0x1200000, 1), (offEvtSrcCfg 5, 0x80000000)] [(offEvtPend 0, 32), (offEvtMask 0, 0)]
    let d := { a with wd := { a.wd with started := true, kernels := [(0, 0)] } }
    running d blkEvt = true ∧ evtOrder d = [5] ∧ 2 ≤ actF d (offEvtSrcCfg 5) 31 30 ∧ creditsFree d 32 ≠ 0 ∧
      descriptorOk d ((List.range 8).map fun w =>
        let v := actGet d (offWdTemplate (actF d (offEvtSrcCfg 5) 19 16) w)
        if w = 1 then setBits v 9 0 5 else v) = true := by decide +kernel
theorem hyp_EventDelivery_noCredit :
    let d := tdev [(0x1200000, 1), (offEvtSrcCfg 5, 0x80000000)] [(offEvtPend 0, 32), (offEvtMask 0, 0)]
    running d blkEvt = true ∧ evtOrder d = [5] ∧ 2 ≤ actF d (offEvtSrcCfg 5) 31 30 ∧ creditsFree d 32 = 0 := by decide +kernel
theorem hyp_EventDelivery_vector :
    let a := tdev [(0x1000000, 1), (0x1200000, 1), (offEvtSrcCfg 5, 0x00100007)] [(offVecCoreState 0, 1), (offEvtPend 0, 32), (offEvtMask 0, 0)]
    let d := { a with vec := { a.vec with places := [some 0] } }
    running d blkEvt = true ∧ evtOrder d = [5] ∧ actF d (offEvtSrcCfg 5) 31 30 = 0 ∧ actB d (offEvtSrcCfg 5) 29 = false ∧
      bestPos d (evtPrio d 5) [] (offerPositions d) = some 0 ∧ coreAt d 0 = some 0 ∧ canAccept d 0 = true := by decide +kernel
theorem hyp_EventDelivery_lapse :
    let a := tdev [(0x1000000, 1), (0x1200000, 1), (offEvtSrcCfg 5, 0x20100007)]
      [(offVecCoreState 0, 2), (offEvtPend 0, 32), (offEvtMask 0, 0)]
    let d := { a with vec := { a.vec with places := [some 0], cores := [(0, { item := some ⟨[], 0, 0⟩ })] } }
    running d blkEvt = true ∧ evtOrder d = [5] ∧ actF d (offEvtSrcCfg 5) 31 30 = 0 ∧
      (d.vec.places.getD 0 none).isSome = true ∧ bestPos d (evtPrio d 5) [] [0] = some 0 ∧ (offerPositions d).contains 0 = true ∧ coreAt d 0 = some 0 ∧ canAccept d 0 = false ∧
      coreState d 0 ≠ 0 := by decide +kernel
theorem hyp_EventDelivery_gone :
    let a := tdev [(0x1000000, 1), (0x1200000, 1), (offEvtSrcCfg 5, 0x2F100007)] [(offVecCoreState 0, 1), (offEvtPend 0, 32), (offEvtMask 0, 0)]
    let d := { a with vec := { a.vec with places := [some 0] } }
    running d blkEvt = true ∧ evtOrder d = [5] ∧ actF d (offEvtSrcCfg 5) 31 30 = 0 ∧
      (actB d (offEvtSrcCfg 5) 29 && (d.vec.places.getD (actF d (offEvtSrcCfg 5) 28 24 / 4) none).isNone) = true ∧
      bestPos d (evtPrio d 5) [] (offerPositions d) = some 0 ∧ coreAt d 0 = some 0 ∧ canAccept d 0 = true := by decide +kernel

theorem hyp_CoresGateAndWake_gate :
    let a := tdev [(0x1000000, 1), (offWdCtrl, 4)] [(offVecCoreState 0, 1)]
    let d := { a with vec := { a.vec with places := [some 0] } }
    running d blkVec = true ∧ actB d offWdCtrl 2 = true ∧ actB d offWdCtrl 1 = false ∧ d.wd.recovery = false ∧
      coreState d 0 = 1 ∧ inHandler d 0 = false ∧ (coreOf d 0).item = none ∧ (posOf d 0).isSome = true := by decide +kernel
theorem hyp_CoresGateAndWake_wake :
    let d := { tdev [(0x1000000, 1)] [] with vec := { (tdev [] []).vec with cores := [(3, { waking := true })] } }
    running d blkVec = true ∧ (coreOf d 3).waking = true ∧ coreState d 3 = 0 ∧ (coreOf d 4).waking = false := by decide +kernel
theorem hyp_CoresGateAndWake_holdoff :
    let a := tdev [(0x1200000, 1), (offEvtSrcCfg 5, 0x20100007)] [(offEvtPend 0, 32), (offEvtMask 0, 0)]
    let d := { a with vec := { a.vec with places := [some 0] } }
    coreAt d (actF d (offEvtSrcCfg 5) 28 24) = some 0 ∧ running d blkEvt = true ∧ deliverable d 5 = true ∧
      actF d (offEvtSrcCfg 5) 31 30 = 0 ∧ actB d (offEvtSrcCfg 5) 29 = true ∧ coreState d 0 = 0 ∧
      5 ∈ ({ d.evt with holdoff := [5] } : Evt).holdoff ∧ 6 ∉ ({ d.evt with holdoff := [5] } : Evt).holdoff := by decide +kernel

theorem hyp_DispatchOrder :
    let a := tdev [(0x1000000, 1), (0x1100000, 1)] []
    let d := { a with vec := { a.vec with places := [some 0] },
                      wd := { a.wd with started := true, ready := [⟨[], 33, 0⟩] } }
    wdRuns d = true ∧ running d blkVec = true ∧ nextItem d = some ⟨[], 33, 0⟩ ∧ chooseCore d ⟨[], 33, 0⟩ = some 0 := by
  decide +kernel
theorem hyp_DispatchOrder_insert :
    let a := tdev [(0x1000000, 1), (0x1100000, 1)] [(offVecCoreState 0, 1)]
    let it : WorkItem := ⟨[0x100, 5], 34, 0⟩
    let d := { a with vec := { a.vec with places := [some 0] }, wd := { a.wd with started := true, ready := [it] } }
    wdRuns d = true ∧ running d blkVec = true ∧ nextItem d = some it ∧ chooseCore d it = some 0 ∧ itemKind it ≠ 0 ∧
      itemGroup it < 2048 := by decide +kernel
theorem hyp_DispatchOrder_none :
    wdRuns State.reset.dev = false ∧ running State.reset.dev blkVec = false ∧ nextItem State.reset.dev = none := by decide +kernel
theorem hyp_DispatchOrder_noCore :
    let a := tdev [] []
    let d := { a with wd := { a.wd with ready := [⟨[], 33, 0⟩] }, vec := { a.vec with places := [] } }
    nextItem d = some ⟨[], 33, 0⟩ ∧ chooseCore d ⟨[], 33, 0⟩ = none := by decide +kernel

theorem hyp_CancelsRemoveAndAbort : (33 < 34) ∧ fatal State.reset.dev = false ∧ fatal (tdev [] [(offErrStatus, 8)]) = true := by decide

theorem hyp_SubmissionsNeedACredit_none : creditsFree State.reset.dev 33 = 0 := by decide +kernel
theorem hyp_SubmissionsNeedACredit_ok :
    let a := tdev [(0x1100000, 1)] []
    let d := { a with wd := { a.wd with started := true, kernels := [(0, 0)] } }
    creditsFree d 33 ≠ 0 ∧ descriptorOk d ((List.range 8).map fun w => mapGet word0 d.wd.submit w) = true := by decide +kernel
theorem hyp_SubmissionsNeedACredit_bad :
    let a := tdev [(0x1100000, 1)] []
    let d := { a with wd := { a.wd with started := true } }
    creditsFree d 33 ≠ 0 ∧ descriptorOk d ((List.range 8).map fun w => mapGet word0 d.wd.submit w) = false := by decide +kernel

theorem hyp_InsertStages_release :
    let a := tdev [(0x1100000, 1), (offWdStageCfg 3, 1)] []
    let d := { a with wd := { a.wd with started := true }, path := { a.path with trimmed := [⟨0, 0, []⟩] } }
    stageElement d 3 d.epc.epoch = some ⟨0, 0, []⟩ ∧ stageOn d 3 0 = true ∧ wdRuns d = true := by decide +kernel
theorem hyp_InsertStages_stopped :
    let a := tdev [(offWdStageCfg 3, 1)] []
    let d := { a with path := { a.path with trimmed := [⟨0, 0, []⟩] } }
    stageElement d 3 d.epc.epoch = some ⟨0, 0, []⟩ ∧ stageOn d 3 0 = true ∧ wdRuns d = false := by decide +kernel
theorem hyp_InsertStages_off :
    let a := tdev [] []
    let d := { a with path := { a.path with trimmed := [⟨0, 0, []⟩] } }
    stageElement d 3 d.epc.epoch = some ⟨0, 0, []⟩ ∧ stageOn d 3 0 = false ∧ stageElement a 3 a.epc.epoch = none := by
  decide +kernel
theorem hyp_InsertStages_cutoff :
    let d := setStage (tdev [] []) 2 { blocks := [⟨0, 0, [], [], [], false, []⟩] }
    (stageOf d 2).blocks = ⟨0, 0, [], [], [], false, []⟩ :: [] ∧ (stageOf d 1).blocks = [] := by decide +kernel

theorem hyp_ItemsStageInAndComplete_in :
    let a := tdev [(0x1000000, 1)] [(offVecCoreState 3, 2)]
    let it : WorkItem := ⟨[], 33, 0⟩
    let d := { a with vec := { a.vec with cores := [(3, { item := some it })] } }
    (coreOf d 3).item = some it ∧ running d blkVec = true ∧ coreState d 3 = 2 ∧ stageInBad d it = none ∧ itemKind it = 0 := by
  decide +kernel
theorem hyp_ItemsStageInAndComplete_out :
    let a := tdev [(0x1000000, 1)] [(offVecCoreState 3, 4)]
    let it : WorkItem := ⟨[], 33, 0⟩
    let d := { a with vec := { a.vec with cores := [(3, { item := some it })] } }
    (coreOf d 3).item = some it ∧ running d blkVec = true ∧ coreState d 3 = 4 ∧
      mem1Open d ((itemW it 4).toNat * 16) (4 * bits (itemW it 3) 13 0) = true ∧ itemKind it = 0 := by decide +kernel
theorem hyp_ItemsStageInAndComplete_insert :
    let a := tdev [(0x1000000, 1)] [(offVecCoreState 3, 4)]
    let it : WorkItem := ⟨[0x100], 34, 0⟩
    let d := { a with vec := { a.vec with cores := [(3, { item := some it })] } }
    (coreOf d 3).item = some it ∧ running d blkVec = true ∧ coreState d 3 = 4 ∧ itemKind it ≠ 0 ∧ following d = false ∧ d.twn.serveK = none := by
  decide +kernel
theorem hyp_ItemsStageInAndComplete_follow :
    let a := tdev [(0x1000000, 1)] [(offVecCoreState 3, 2), (offTwnStatus, 64), (offMemStatus 1, 0x40000)]
    let it : WorkItem := ⟨[0x100, 0, 0, 0, 0, 0, 0x10000], 34, 0⟩
    let d := { a with vec := { a.vec with cores := [(3, { item := some it })] }, twn := { a.twn with joinK := some 0, mirrored := [0] } }
    (coreOf d 3).item = some it ∧ running d blkVec = true ∧ coreState d 3 = 2 ∧ stageInBad d it = none ∧ itemKind it ≠ 0 ∧
      following d = true ∧ itemStateLen it ≠ 0 ∧ itemGroup it ∈ d.twn.mirrored ∧ itemGroup it ∉ State.reset.dev.twn.mirrored := by
  decide +kernel
theorem hyp_ItemsStageInAndComplete_none : running State.reset.dev blkVec = false := by decide +kernel
theorem hyp_ItemsStageInAndComplete_bad :
    let a := tdev [(0x1000000, 1)] [(offVecCoreState 3, 2)]
    let it : WorkItem := ⟨[0, 0, 0, 0x10000], 33, 0⟩
    let d := { a with vec := { a.vec with cores := [(3, { item := some it })] } }
    (coreOf d 3).item = some it ∧ running d blkVec = true ∧ coreState d 3 = 2 ∧ stageInBad d it = some (0, 4) := by
  decide +kernel
theorem hyp_ItemsStageInAndComplete_outBad :
    let a := tdev [(0x1000000, 1)] [(offVecCoreState 3, 4)]
    let it : WorkItem := ⟨[0, 0, 0, 1, 0x8000000], 33, 0⟩
    let d := { a with vec := { a.vec with cores := [(3, { item := some it })] } }
    (coreOf d 3).item = some it ∧ running d blkVec = true ∧ coreState d 3 = 4 ∧ itemKind it = 0 ∧ bits (itemW it 3) 13 0 ≠ 0 ∧
      mem1Open d ((itemW it 4).toNat * 16) (4 * bits (itemW it 3) 13 0) = false := by decide +kernel

theorem hyp_GainChanges_wait :
    let d := setGain State.reset.dev (.output 3) { cur := 0, want := some 1048576, prev := 5 }
    gainChOk (.output 3) = true ∧ (getGain d (.output 3)).ramp = none ∧ (getGain d (.output 3)).want = some 1048576 ∧
      (getGain d (.output 3)).prev = 5 := by decide +kernel
theorem hyp_GainChanges_none :
    gainChOk (.portTx 31 31) = true ∧ (getGain State.reset.dev (.portTx 31 31)).want = none := by decide +kernel

theorem hyp_SlotsSettle :
    let d := setSlot State.reset.dev 4 { getSlot State.reset.dev 4 with unsettled := true, n := 16 }
    (getSlot d 4).unsettled = true ∧ convN (getSlot d 4).conv (getSlot d 4).filt + 16 ≤ (getSlot d 4).n := by decide +kernel
theorem hyp_SlotsSettle_fade :
    let d := setSlot State.reset.dev 4 { getSlot State.reset.dev 4 with unsettled := true }
    (getSlot d 4).unsettled = true ∧ convN (getSlot d 4).conv (getSlot d 4).filt ≤ (getSlot d 4).n ∧
      (getSlot d 4).n < convN (getSlot d 4).conv (getSlot d 4).filt + 16 := by decide +kernel
theorem hyp_SlotsSettle_period : State.reset.dev.epc.period < 64 ∧ 64 ≤ ({ State.reset.dev.epc with period := 64 } : Epc).period := by
  decide

theorem hyp_HoldsSweepsAndRings_hold :
    let d := { State.reset.dev with xp := { State.reset.dev.xp with holds := [(7, 0, [])] } }
    ∃ h ∈ d.xp.holds, h.1 = 7 ∧ h.2.1 ≤ d.epc.epoch := ⟨_, List.mem_cons_self, rfl, le_refl _⟩
theorem hyp_HoldsSweepsAndRings_sweep :
    let r : GenRec := ⟨0, 3, 0, 0, 0, 0, 0, 0, (0, 0, 0), []⟩
    let d := setGen State.reset.dev 2 { getGen State.reset.dev 2 with recs := [r] }
    (getGen d 2).recs = r :: [] ∧ r.kind = 3 ∧ (getGen State.reset.dev 2).recs = [] := by decide +kernel
theorem hyp_HoldsSweepsAndRings_ring :
    let d := { State.reset.dev with xp := { State.reset.dev.xp with waiting := [7] },
                                    path := { State.reset.dev.path with slots := [⟨0, 0, []⟩] },
                                    epc := { State.reset.dev.epc with epoch := 1 } }
    d.xp.waiting.head? = some 7 ∧ d.xp.waiting.head? ≠ some 8 ∧ arrived d ≠ none := by decide +kernel

theorem hyp_MetadataFrames_off : running State.reset.dev blkObj = false := by decide +kernel
theorem hyp_MetadataFrames_on :
    let d := tdev [(0xC00000, 1), (offObjMsrcCfg 3, 0xC0000000)] []
    running d blkObj = true ∧ actB d (offObjMsrcCfg 3) 31 = true ∧ actB d (offObjMsrcCfg 3) 30 = true ∧
      windowJudge (bit (liveGet d (offObjMsrcSeq 3)) 16) 0 7 [] = 0 ∧ windowJudge true 7 7 [] = 1 ∧ windowJudge true 600 7 [] = 2 := by
  decide +kernel
theorem hyp_MetadataFrames_target :
    let d := tdev [(offObjCfg 0, 1)] []
    actF d (offObjCfg 0) 4 0 = 0 + 1 ∧ actF d (offObjCfg 1) 4 0 ≠ 0 + 1 ∧ d.epc.epoch + 3000 < 3001 ∧ d.epc.epoch < 1 ∧
      d.epc.cutoff = false ∧ 1 ≤ d.epc.epoch + 3000 := by decide +kernel
theorem hyp_MetadataFrames_timeout :
    (getSrc State.reset.dev 2).last + 3000 ≤ ({ State.reset.dev.epc with epoch := 3000 } : Epc).epoch ∧
      State.reset.dev.epc.epoch < (getSrc State.reset.dev 2).last + 3000 := by decide +kernel
theorem hyp_MetadataFrames_packet :
    let d := { State.reset.dev with obj := { State.reset.dev.obj with sadm := [⟨3, (0, 5), 7, 0⟩] } }
    d.obj.sadm.reverse.find? (fun p => decide (p.src = 3 ∧ p.seq = 7 % 65536)) = some ⟨3, (0, 5), 7, 0⟩ ∧
      State.reset.dev.obj.sadm.reverse.find? (fun p => decide (p.src = 3 ∧ p.seq = 7 % 65536)) = none := by decide +kernel

theorem hyp_SerialFrames_run :
    let a := tdev [(0x900000, 1)] [(offSapPortStatus 2, 3)]
    let d := setPort a 2 { getPort a 2 with frame := some 5 }
    running d blkSap = true ∧ (getPort d 2).frame = some 5 ∧ portState d 2 = 3 ∧ portMaster d 2 = false ∧ fsStarts d 2 [] = true := by decide +kernel
theorem hyp_SerialFrames_master :
    let d := tdev [(0x900000, 1)] [(offSapPortCfg 2, 0x40000000), (offSapPortStatus 2, 2)]
    running d blkSap = true ∧ (getPort d 2).frame = none ∧ portState d 2 = 2 ∧ portMaster d 2 = true ∧
      (portMaster d 2 && drivesOut d) = false ∧ ownFs d 2 = false ∧ fsStarts d 2 [4] = false ∧ portState d 3 ≠ 2 := by decide +kernel
theorem hyp_SerialFrames_align :
    let a := tdev [(0x900000, 1)] [(offSapPortStatus 2, 4)]
    let d := setPort a 2 { getPort a 2 with mayAlign := true }
    running d blkSap = true ∧ portState d 2 = 4 ∧ (getPort d 2).mayAlign = true := by decide +kernel
theorem hyp_SerialFrames_stop :
    let d := tdev [] [(offSapPortStatus 2, 1)]
    portState d 2 = 1 ∧ (getPort d 2).frame = none := by decide +kernel
theorem hyp_SerialFrames_phase :
    let b := tdev [] [(offSapPortCfg 2, 0x40000000), (offTwnStatus, 0x10)]
    let d := { b with twn := { b.twn with confirmed := true } }
    let a := tdev [] [(offSapPortCfg 2, 0x40000000)]
    portMaster d 2 = true ∧ drivesOut d = true ∧ portMaster a 3 = false ∧ onOwnMaster a 3 = false ∧
      portMaster a 2 = true ∧ drivesOut a = false ∧ framePhase a 2 200 = (-56, -1) := by decide +kernel

theorem hyp_Transmit :
    let a := tdev [(0x500000, 1)] [(offNetStatus 0, 1)]
    let f : TxFrame := ⟨0, 64, .answer .arp, {}, 0⟩
    let g : Frame := { len := 64, fcsOk := true, vid := none, body := .supervisor .arp 0 none }
    let d := { a with neti := { a.neti with queue := [f], sup := [g] } }
    running d (netBlk 0) = true ∧ liveB d (offNetStatus 0) 0 = true ∧ (plane d 0).training = false ∧ nextTx d 0 = some f ∧
      nextTx a 0 = none ∧ (plane d 0).sup = [] ++ g :: [] ∧ supKind g = some .arp ∧ (plane a 0).sup.findSome? supKind = none := by decide +kernel
theorem hyp_Transmit_order :
    let f : TxFrame := ⟨0, 64, .stream 3 0 ⟨0, 0, 0, 0, [], false, false⟩, {}, 5⟩
    let g : TxFrame := ⟨0, 64, .stream 4 0 ⟨0, 0, 0, 0, [], false, false⟩, {}, 5⟩
    laterStream f g = true ∧ laterStream g f = false ∧ laterStream f { g with since := 4 } = false := by decide +kernel
theorem hyp_Transmit_release :
    let a := tdev [(0x500000, 1)] [(offEpcStatus, 4), (offNetTxsCfg 0 3, 0xA0000000)]
    let d := { a with epc := { a.epc with epoch := 3 } }
    mediaOpen d 0 = true ∧ duePacket d 0 3 = some 7 ∧ duePacket d 0 4 = none ∧ mediaOpen d 1 = false := by decide +kernel
theorem hyp_Transmit_stale :
    let a := tdev [] []
    let f : TxFrame := ⟨0, 64, .stream 3 0 ⟨0, 0, 0, 0, [], false, false⟩, {}, 0⟩
    let d := { a with epc := { a.epc with epoch := 3000 }, neti := { a.neti with queue := [f] } }
    staleFrame d 0 3 = some f ∧ staleFrame d 0 4 = none ∧ mayStart d 0 f = false := by decide +kernel

theorem hyp_ReceivedFrames :
    let d := tdev [(0x500000, 1)] [(offNetStatus 0, 1)]
    running d (netBlk 0) = true ∧ liveB d (offNetStatus 0) 0 = true ∧ running State.reset.dev (netBlk 1) = false ∧
      supBytes (plane d 0) + 64 ≤ 128 * 1024 ∧ supToPlane d 0 (2 ^ 48 - 1) none = true ∧ supToPlane d 0 1 none = false ∧ rxMatch d 0 ⟨false, 1⟩ ⟨false, 2⟩ 3 = none ∧
      ipToPlane (tdev [(0x500000, 0x11)] [(offNetStatus 0, 1)]) 0 ⟨false, 0xFFFFFFFF⟩ = true ∧ (∀ i < 16, ¬(actB d (offNetVlan 0 i) 15 = true ∧ actF d (offNetVlan 0 i) 11 0 = 7)) := by
  decide +kernel
theorem hyp_ReceivedFrames_mgt :
    let d := tdev [(0x700000, 1)] [(offMgtStatus, 1)]
    running d blkMgt = true ∧ liveB d offMgtStatus 0 = true ∧ running State.reset.dev blkMgt = false := by decide +kernel

theorem hyp_LinksAndSpeedSteps :
    let a := tdev [(0x500000, 25)] [(offNetStatus 0, 1), (offNetStatus 1, 1)]
    let d := { a with epc := { a.epc with epoch := 40 }, neti := { a.neti with lowRun := 400000, step := some (9, 1), training := true } }
    liveB d (offNetStatus 0) 0 = true ∧ (plane d 0).step = some (9, 1) ∧ 9 + 30 ≤ d.epc.epoch ∧ (plane d 0).training = true ∧
      d.regs.act ≠ [] ∧ (plane a 0).step = none ∧ liveB a offMgtStatus 0 = false ∧ running (tdev [(0x700000, 1)] []) blkMgt = true ∧
      liveB (liveSetB a offMgtStatus 0 true) offMgtStatus 0 = true ∧ stepMayStart d 1 = false := by decide +kernel
theorem hyp_LinksAndSpeedSteps_up :
    let a := tdev [(0x500000, 25)] []
    let d := { a with neti := { a.neti with step := some (9, 1), training := true } }
    mayLink a 0 25 = true ∧ mayLink a 0 10 = false ∧ mayLink d 0 10 = true ∧ mayLink d 0 25 = false ∧ mayLink a 0 40 = false := by decide +kernel
theorem hyp_LinksAndSpeedSteps_start :
    let a := tdev [(0x500000, 9)] [(offNetStatus 0, 1), (offNetStatus 1, 1)]
    let d := { a with neti := { a.neti with lowRun := 800000 } }
    stepMayStart d 0 = true := by decide +kernel

theorem hyp_PtpMessagesAndTimeouts :
    let a := tdev [(0x300000, 1)] [(offPtpStatus 0, 9)]
    let p : PtpInst := { req := some 4 }
    running a (ptpBlk 0) = true ∧ portStateOf a 0 = 9 ∧ running State.reset.dev (ptpBlk 0) = false ∧
      rne (16 * 7 + 9) 16 = 8 ∧ rne (16 * 7 + 9) 16 < 1000000000 * 2 ^ 48 ∧ (ptp (setPtp a 0 p) 0).req = some 4 ∧ (ptp a 0).req = none := by decide +kernel
theorem hyp_PtpMessagesAndTimeouts_master :
    let m : PtpMaster := ⟨1, 2, 128, 6, 33, 20061, 128, 0, 37, 2, none⟩
    let a := setPtp (tdev [(0x400000, 5)] [(offPtpiServoStatus, 2), (offPtpStatus 1, 6)]) 0 { masters := [m], parent := some 1 }
    let b := tdev [(0x400000, 1)] [(offPtpStatus 1, 6)]
    running a (ptpBlk 1) = true ∧ portStateOf a 1 = 6 ∧ mayMaster a 1 = true ∧ ownMaster a 1 = some { m with steps := 1 } ∧
      running b (ptpBlk 1) = true ∧ portStateOf b 1 = 6 ∧ mayMaster b 1 = false := by decide +kernel

theorem hyp_ServoReverts :
    let m : PtpMaster := ⟨1, 2, 128, 6, 33, 20061, 128, 0, 37, 2, none⟩
    let p : PtpInst := { masters := [m], parent := some 1, fresh := true, off := some 5, good := 255, since := some 0 }
    let a := { (setPtp (tdev [(0x300000, 1), (offPtpiServoCfg, 2)] [(offPtpStatus 0, 9), (offPtpiServoStatus, 0x12)]) 0 p) with
      epc := { epoch := 900000 } }
    actB a offPtpiServoCfg 1 = true ∧ servoState a = 2 ∧ servoSel a ≠ actF a offPtpiServoCfg 0 0 ∧
      isQualified a 0 = true ∧ (offOf a 0).natAbs ≤ (switchMax a).natAbs ∧ (ptp a 0).since = some 0 ∧
      0 + 3000 * actF a offPtpiServoCfg 31 24 ≤ a.epc.epoch := by decide +kernel
theorem hyp_ServoAccepts :
    let m : PtpMaster := ⟨1, 2, 128, 6, 33, 20061, 128, 0, 37, 2, none⟩
    let p : PtpInst := { masters := [m], parent := some 1, fresh := true, off := some 5, good := 255 }
    let a := tdev [(0x300000, 1)] [(offPtpStatus 0, 9), (offPtpiServoStatus, 0xC4)]
    let b := setPtp { a with servo := { a.servo with refused := some 0 } } 0 p
    servoState a = 4 ∧ liveF a offPtpiServoStatus 7 6 = 3 ∧ timebase a = 0 ∧ candidate a = none ∧
      timebase (setTimebase b 2) = 2 ∧ candidate (setTimebase b 2) = some 0 ∧ servoState b = 4 ∧
      candidate b = some 0 ∧ fatal b = false ∧ servoState State.reset.dev = 0 := by decide +kernel

theorem hyp_SteeringAndLocks :
    let a := tdev [(offClkPllCtrl 2, 1)] [(offClkStatus, 1), (offClkTuneCfg, 0x1003)]
    let d := { a with clk := { a.clk with locking := [2] } }
    liveB a offClkTuneCfg 1 = true ∧ (a.clk.sent ≠ some (codeNow a) ∨ a.epc.epoch % 3000 = 0) ∧
      liveB State.reset.dev offClkTuneCfg 1 = false ∧ liveB State.reset.dev offClkStatus 0 = false ∧ liveB a offClkStatus 0 = true ∧
      d.boot.phase ≠ .lock ∧ d.clk.locking.contains 2 = true ∧ selOk d = true ∧
      d.clk.sync.contains 2 = false ∧ a.clk.locking.contains 2 = false ∧ pllInUse a 2 = false ∧ actB a (offClkPllCtrl 2) 0 = true ∧
      pllInUse a 0 = true ∧ pllInUse a 3 = false ∧ actB a (offClkPllCtrl 3) 0 = false ∧ pllBit a 1 1 = false ∧
      pllBit (setPll a 1 false true) 1 1 = true := by decide +kernel
theorem hyp_SteeringAndLocks_sent :
    let a := tdev [] [(offClkTuneCfg, 0x1003)]
    let d := { a with epc := { epoch := 1 }, clk := { a.clk with sent := some (codeNow a) } }
    liveB d offClkTuneCfg 1 = true ∧ ¬(d.clk.sent ≠ some (codeNow d) ∨ d.epc.epoch % 3000 = 0) := by decide +kernel

theorem hyp_ReferencesAreLostAndTaken :
    let a := tdev [(offClkRefsel, 3)] [(offClkStatus, 0x2B), (offClkPllStatus 2, 1), (offClkPllStatus 3, 2)]
    let b := tdev [(offClkRefsel, 1)] [(offClkStatus, 0x12)]
    pllBit a 2 0 = true ∧ liveB a offClkStatus 4 = false ∧ onAlt a = true ∧ pllBit a 3 1 = true ∧ selOk a = true ∧ refPermitted a (onAlt a) = true ∧ a.boot.up = false ∧
      actB a offClkRefsel 1 = true ∧ refOk a false = true ∧ onAlt b = false ∧ liveB b offClkStatus 4 = true ∧
      liveB b offClkStatus 5 = false ∧ selOk b = false ∧ refOk b true = true ∧ refPermitted b true = true ∧
      pllBit State.reset.dev 0 1 = false := by decide +kernel
theorem hyp_ReferencesAreLostAndTaken_mute :
    let b := tdev [(offClkRefsel, 1)] [(offClkStatus, 0x30), (offClkPllStatus 0, 1)]
    let c := tdev [] [(offClkStatus, 0x10)]
    let e := { c with boot := { c.boot with up := true } }
    liveB b offClkStatus 5 = true ∧ true ≠ onAlt b ∧ refPermitted b true = true ∧ selOk b = false ∧ b.boot.up = false ∧ pllBit b 0 0 = true ∧
      onAlt b = false ∧ liveB (liveSetB b offClkStatus 4 false) offClkStatus 4 = false ∧ onAlt (liveSetB b offClkStatus 4 false) = false ∧
      liveB c offClkStatus 4 = true ∧ liveB c offClkStatus 5 = false ∧ selOk c = false ∧ refOk c true = false ∧
      e.boot.up = true ∧ refPermitted e true = false ∧ true ≠ onAlt e := by decide +kernel

theorem hyp_FollowMode :
    let a := tdev [(offClkTuneCfg, 8)] [(offEpcStatus, 4), (offSapFollowStatus, 1)]
    let d := { a with sap := { a.sap with follow := { run := 300 } } }
    actB d offClkTuneCfg 3 = true ∧ 300 ≤ d.sap.follow.run ∧ timebase d = 1 ∧ timebase (setTimebase d 0) = 0 ∧
      liveB (setTimebase d 0) offSapFollowStatus 0 = true ∧ actB State.reset.dev offClkTuneCfg 3 = false := by decide +kernel
theorem hyp_FollowMode_back :
    let a := tdev [] [(offEpcStatus, 8), (offPtpiServoStatus, 3)]
    let b := setPtp (tdev [(0x300000, 1)] [(offEpcStatus, 8), (offPtpiServoStatus, 3)]) 0 { fresh := true, off := some 5 }
    let d := { b with servo := { b.servo with reload := true, refused := some 0 } }
    let e := liveSetF d (offPtpStatus 0) 3 0 9
    timebase a = 2 ∧ servoState a = 3 ∧ actB a offClkTuneCfg 3 = false ∧ e.servo.reload = true ∧ allSilent e = true ∧ candidate e = some 0 ∧
      candidate d = none ∧ allSilent d = true ∧ a.servo.reload = false := by decide +kernel

theorem hyp_RenderWindowsAndCapture :
    let a := State.reset.dev
    let w := fun k => { a with path := { a.path with phase := k, reduced := [⟨0, 0, []⟩], trimmed := [⟨0, 0, []⟩] } }
    let d := { a with cap := { a.cap with start := some 3, len := 1, done := 1, base := 65536, sums := [16] } }
    let r := tdev [(0xF00000, 1)] []
    a.path.phase = 0 ∧ (w 1).path.phase = 1 ∧ (w 2).path.phase = 2 ∧ (w 3).path.phase = 3 ∧ (w 2).path.phase ≠ 0 ∧
      (w 2).path.reduced.find? (fun x => decide (x.epoch = 0)) = some ⟨0, 0, []⟩ ∧ stageOn (w 2) 1 0 = false ∧ stageOn (w 2) 2 0 = false ∧
      stageOn (w 3) 3 0 = false ∧ running a blkGeo = false ∧ running a blkRc = false ∧ running r blkRc = true ∧ r.rc.swap = none ∧
      a.xp.block = none ∧ { a.xp with block := some 3 }.block = some 3 ∧ d.cap.start.isSome = true ∧ d.cap.done = d.cap.len ∧
      d.cap.block = none ∧ a.cap.start.isSome = false ∧ actAtB a 0 offGraphCtrl 0 = false := by decide +kernel

theorem hyp_RegisterWritesFollowTheirKinds :
    regAt 3 = none ∧ (regAt (offGraphOsel 0)).isSome = true ∧
      State.reset.dev.boot.phase = .reset ∧ ({ State.reset.dev.boot with phase := .wipe }).phase ≠ .reset ∧
      ((regAt (offGraphSodest 0)).any fun r => r.fields.all fun f => f.acc == .rws || f.acc == .ro || f.acc == .wo) = true := by decide +kernel

theorem hyp_CrossbarRoutesAndGrants :
    let d := tdev [] [(offMemStatus 0, 1), (offMemStatus 1, 0x100001)]
    let r : XbarReq := ⟨0, 1, false, 0x20000000, 64, [], true, true, false⟩
    let q : XbarReq := ⟨13, 1, true, 0x20000000, 64, [], true, true, false⟩
    let e := { d with xbar := { d.xbar with out := [⟨r, some 6, .ok, false, false, []⟩] } }
    windowAt (liveB d offXbarCtrl 0) 0x40000 = none ∧ windowAt (liveB d offXbarCtrl 0) r.addr = some (2, 0) ∧
      pathKind 0 2 = 2 ∧ pathKind 13 6 = 0 ∧ pathKind 12 7 = 1 ∧ memReady d 0 = true ∧ memSize d 0 < 0 + 64 ∧ memReady d 1 = true ∧
      mayGrant d r = true ∧ mayGrant e r = false ∧ ruleOneHolds e r = true ∧ mayGrant e q = true ∧ d.xbar.waiting = [] ∧
      outOf e 0 ≤ masterLimit 0 ∧ memQueued e 0 ≤ 64 ∧ r.len ≤ 512 - r.addr % 32 ∧ { r with len := 600 }.len > 512 - r.addr % 32 ∧
      (segments 2 { r with len := 600 }).map (fun q => q.len) = [512, 88] := by decide +kernel

theorem hyp_CrossbarResponsesAndResets :
    let a := tdev [] [(offMemStatus 0, 1), (offMemStatus 1, 0x100001)]
    let r : XbarReq := ⟨0, 1, true, 0x20000000, 1, [7], true, true, false⟩
    let q : XbarReq := ⟨13, 1, false, 0x20000000, 1, [], true, true, false⟩
    let x : XbarReq := ⟨18, 2, false, 0, 1, [], true, true, false⟩
    let t : XbarTx := ⟨r, some 2, .ok, false, false, []⟩
    let u : XbarTx := ⟨q, some 2, .ok, false, true, []⟩
    let v : XbarTx := ⟨x, none, .decode, false, false, []⟩
    let d := { a with xbar := { a.xbar with out := [t, u, v] } }
    (d.xbar.out.find? fun t => decide (t.req.master = 0 ∧ t.req.id = 1)) = some t ∧ respFits d t .ok = true ∧ respFits d t .decode = false ∧
      t.void = false ∧ u.void = true ∧ respFits d u .ok = true ∧ respFits d v .decode = true ∧ trafficOf 18 .debug = true ∧
      inTurn d t = true ∧ inTurn d v = true ∧ inTurn d u = false ∧ d.xbar.waiting = [] ∧
      (∀ t ∈ d.xbar.out, t.req.master = 5 → t.req.id ≠ 0) := by decide +kernel
theorem hyp_CrossbarResponses_targets :
    let a := tdev [] [(offMemStatus 0, 1), (offMemStatus 1, 0x100001)]
    let q := fun (m : Nat) (w : Bool) (addr : Nat) (l : List Byte) => (⟨m, 1, w, addr, l.length, l, true, true, false⟩ : XbarReq)
    let f := fun (t : Nat) (x : XbarReq) => (⟨x, some t, .ok, false, false, []⟩ : XbarTx)
    let on := fun (t : XbarTx) => { a with xbar := { a.xbar with out := [t] } }
    let g := f 3 (q 0 true 0x40000000 [1, 0, 0, 0])
    let h := f 3 (q 0 true 0x40000000 [1, 0, 0, 0, 2, 0, 0, 0])
    let c := f 4 (q 17 true 0x100000000 [5])
    let w := f 5 (q 17 true 0x200080000 [5])
    let m := f 6 (q 11 true 0x1000000000 [5, 6, 7, 8])
    let n := f 7 (q 16 true 0x2000000000 [5])
    let p := f 3 (q 0 false 0x40000000 [0, 0, 0, 0])
    respFits (on g) g .ok = true ∧ inTurn (on g) g = true ∧ g.req.write = true ∧ (g.req.data.take g.req.len).length = 4 ∧
      respFits (on h) h .ok = true ∧ inTurn (on h) h = true ∧ (h.req.data.take h.req.len).length = 8 ∧
      respFits (on c) c .ok = true ∧ inTurn (on c) c = true ∧ txOffset c + 1 ≤ 0x9000000 ∧
      respFits (on w) w .ok = true ∧ inTurn (on w) w = true ∧ 0x80000 ≤ txOffset w ∧ txOffset w + 1 ≤ 0x100000 ∧
      respFits (on m) m .ok = true ∧ inTurn (on m) m = true ∧ respFits (on n) n .ok = true ∧ inTurn (on n) n = true ∧
      respFits (on p) p .ok = true ∧ inTurn (on p) p = true ∧ p.req.write = false ∧
      fatal a = false ∧ fatal (liveSetB a offErrStatus 3 true) = true ∧ memReady a 0 = true ∧ memReady State.reset.dev 0 = false ∧
      memReady State.reset.dev 1 = false ∧ memReady a 1 = true := by decide +kernel
theorem hyp_CrossbarResponses_errors :
    let a := tdev [] [(offMemStatus 0, 1), (offMemStatus 1, 0x100001), (offVecCoreState 0, 2), (offVecCoreState 1, 4)]
    let q := fun (m t : Nat) (w : Bool) (addr : Nat) => (⟨⟨m, 1, w, addr, 1, [0], true, true, false⟩, some t, .ok, false, false, []⟩ : XbarTx)
    let on := fun (t : XbarTx) => { a with xbar := { a.xbar with out := [t] } }
    let b := q 10 6 true 0x1000000000
    let t := q 11 6 false 0x1010000000
    let c := q 11 7 true 0x2000000000
    let n := q 12 7 false 0x2000000000
    let v := q 1 7 true 0x2000000000
    let z : ReloadSec := { type := 0x14, data := [], place := 0, ready := false }
    let l : Reload := ⟨⟨2, false, 0, false, false, 0, []⟩, [z]⟩
    let cap := { a with cap := { a.cap with start := some 3 } }
    let rel := { a with boot := { a.boot with reload := some l } }
    let blk := { a with path := { a.path with slots := [⟨0, 0, []⟩] } }
    let wait := setCore a 0 { wait := some (.window, ⟨.ctl .waitw, .none, .none, ⟨0, 0⟩⟩) }
    respFits (on b) b .target = true ∧ trafficOf 10 (.bulk 3) = true ∧ respFits (on t) t .data = true ∧ trafficOf 11 (.tail 5) = true ∧
      respFits (on c) c .data = true ∧ trafficOf 11 .capture = true ∧ respFits (on n) n .data = true ∧ trafficOf 12 (.sections 0x14) = true ∧
      respFits (on v) v .target = true ∧ trafficOf 1 (.staging 0) = true ∧ trafficOf 1 (.window 0) = true ∧ trafficOf 0 .supervisor = true ∧
      inTurn (on b) b = true ∧ capturing cap = true ∧ capturing a = false ∧ loadingSec rel 0x14 = some z ∧ loadingSec a 0x14 = none ∧
      feedBlock blk = some 0 ∧ feedBlock a = none ∧ coreState a 0 = 2 ∧ coreState a 1 = 4 ∧ coreState a 2 = 0 ∧
      ((coreOf wait 0).wait.any fun w => decide (w.1 = .window)) = true ∧ (coreOf a 0).wait = none ∧ v.req.write = true ∧ b.void = false := by
  decide +kernel

theorem hyp_EpochsBegin :
    let a := tdev [] [(offEpcStatus, 0x10)]
    let r : Reload := ⟨⟨2, false, 0, false, false, 0, []⟩, []⟩
    let b := { a with boot := { a.boot with phase := .done, reload := some r }, epc := { a.epc with commit := some 1 } }
    State.reset.dev.boot.phase = .reset ∧ b.boot.phase ≠ .reset ∧ b.servo.lockedAt = none ∧ timebase b = 0 ∧ b.epc.cutoff = false ∧
      b.epc.commit = some (b.epc.epoch + 1) ∧ fatal b = false ∧ b.boot.reload = some r ∧ reloadState b = 1 ∧
      reloadState { b with regs := {} } ≠ 1 ∧ b.epc.commit = some 1 ∧ 1 ≤ { b.epc with epoch := 1 }.epoch := by decide +kernel
theorem hyp_EpochsBegin_lock :
    let a := State.reset.dev
    let b := { a with boot := { a.boot with phase := .done }, servo := { a.servo with lockedAt := some 32000000 } }
    b.servo.lockedAt = some 32000000 ∧ timebase b = 0 ∧ b.boot.phase ≠ .reset ∧ timebase a = 0 ∧
      { a.epc with cutoff := true }.cutoff = true := by decide +kernel

theorem hyp_MemoryControllers :
    let d := tdev [(offMemCtrl 0, 6)] [(offClkPllStatus 2, 1), (offMemStatus 0, 0x80011)]
    State.reset.dev.boot.phase ≠ .train ∧ ({ State.reset.dev.boot with phase := .train }).phase = .train ∧
      liveB d (offClkPllStatus 2) 0 = true ∧ liveB d (offClkPllStatus 3) 0 = false ∧ memReady d 0 = true ∧ memState d 0 = 1 ∧
      5 < memSize d 0 ∧ memReady d 1 = false ∧ 1 < memRanks d 0 + 1 ∧ 3 ≤ { d.path with phase := 3 }.phase ∧ (dram d 0).paused ≠ some d.epc.epoch ∧ pauseSkipped d 0 = false ∧
      pauseSkipped (setDram d 0 { dram d 0 with trainedAt := some 0 }) 0 = true ∧ mem0Window d 3 = true ∧ memState (setMemState d 0 3) 0 = 3 ∧ memReady (setMemState d 0 3) 0 = true ∧
      5 < memSize (setMemState d 0 3) 0 ∧ d.epc.epoch % actF d (offMemRetrain 0) 15 0 = 0 ∧
      actB d (offMemCtrl 0) 1 = true ∧ renderOn d = false ∧ actB d (offMemCtrl 0) 2 = true ∧ mayRest d 0 = true := by decide +kernel

theorem hyp_DatagramsAreAuthenticated :
    let a := tdev [(0x700000, 1)] [(offLcsState, 1)]
    let d : Dev := { a with boot := { a.boot with up := true }, mgmt := { a.mgmt with keys := [(3, 31, [])] } }
    let h : List Byte := mdpHeader 1 0 0 20 ++ [3, 0, 0, 0] ++ List.replicate 16 5 ++ List.replicate 32 0
    portOpen d 2 = true ∧ portOpen a 2 = false ∧ mdpFormed h = true ∧ field h 3 1 = 1 ∧ field h 12 2 = 20 ∧
      zeros (h.drop 16) 1 3 = true ∧ d.mgmt.hellos < 16 ∧ d.mgmt.sessions.length < 8 ∧
      (d.mgmt.keys.find? fun k => decide (k.1 = field (h.drop 16) 0 1)) = some (3, 31, []) ∧
      (∀ k ∈ a.mgmt.keys, k.1 ≠ field (h.drop 16) 0 1) ∧ mdpFormed [] = false ∧
      bringsDatagram h { len := 94, fcsOk := true, vid := none, body := .udp ⟨false, 1⟩ ⟨false, 2⟩ 3 (.bytes h) } = true := by decide +kernel
theorem hyp_DatagramsAreAuthenticated_request :
    let x : Session := ⟨7, [], 31, some 4, [], 0, 0⟩
    let r : List Byte := mdpHeader 3 7 5 0
    let q := r ++ hmac256 [] r
    mdpFormed q = true ∧ field q 3 1 = 3 ∧ ([x].find? fun x => decide (x.id = field q 4 4)) = some x ∧
      hmac256 x.key (q.take 16) = q.drop 16 ∧ (field q 8 4 + 2 ^ 32 - 4) % 2 ^ 32 = 1 ∧
      hmac256 x.key ((r ++ List.replicate 32 0).take 16) ≠ (r ++ List.replicate 32 0).drop 16 := by decide +kernel

theorem hyp_RequestsExecute :
    frontIs (tfront 0 1 [0, 0, 0, 4, 0, 1, 0, 0]) 1 (fun a => decide (field a 0 4 = 4 ∧ field a 4 2 = 1)) = true ∧
    frontIs (tfront 0 2 [0, 0, 0, 4, 0, 1, 0, 0, 0, 0, 0, 9]) 2
      (fun a => decide (field a 0 4 = 4 ∧ a.drop 8 = [(9 : Word)].flatMap fun w => beBytes 4 w.toNat)) = true ∧
    frontIs (tfront 0 3 [0, 0, 0, 0, 0, 0, 0, 9]) 3 (fun a => decide (field a 0 8 = 9)) = true ∧
    frontIs (tfront 0 4 []) 4 (fun _ => true) = true ∧ frontIs (tfront 0 5 []) 5 (fun _ => true) = true ∧
    frontIs (tfront 0 0x20 []) 0x20 (fun _ => true) = true ∧ frontIs (tfront 0 0x21 []) 0x21 (fun _ => true) = true ∧
    frontIs (tfront 0 0x22 []) 0x22 (fun _ => true) = true ∧ frontIs (tfront 0 0x30 []) 0x30 (fun _ => true) = true ∧
    frontIs State.reset.dev 4 (fun _ => true) = false := by decide +kernel
theorem hyp_RequestsExecute_flash :
    frontIs (tfront 0 0x10 [0, 0, 16, 0, 0, 1, 0, 0]) 0x10 (fun a => decide (field a 0 4 = 4096 ∧ field a 4 2 = 1)) = true ∧
    (tfront 0 0x10 []).boot.reload = none ∧
    frontIs (tfront 0 0x11 [0, 0, 16, 0, 0, 1, 0, 0, 7]) 0x11 (fun a => decide (field a 0 4 = 4096 ∧ a.drop 8 = [7])) = true ∧
    frontIs (tfront 0 0x12 [0, 0, 16, 0, 0, 0, 0, 9]) 0x12 (fun a => decide (field a 0 4 = 4096 ∧ field a 4 4 = 9)) = true ∧
    frontIs (tfront 3 0x40 [0, 0, 16, 0, 0, 1, 0, 0]) 0x40 (fun a => decide (field a 0 4 = 4096 ∧ field a 4 2 = 1)) = true ∧
    frontIs (tfront 3 0x41 [0, 0, 16, 0, 0, 1, 0, 0, 7]) 0x41 (fun a => decide (field a 0 4 = 4096 ∧ a.drop 8 = [7])) = true ∧
    frontIs (tfront 3 0x42 [0, 0, 16, 0, 0, 0, 0, 9]) 0x42 (fun a => decide (field a 0 4 = 4096 ∧ field a 4 4 = 9)) = true := by
  decide +kernel

theorem hyp_SessionsAndTheServicePort :
    let a := State.reset.dev
    let d := { a with boot := { a.boot with phase := .noImage }, mgmt := { a.mgmt with mbox := some [1], sessions := [⟨7, [], 31, none, [], 0, 9000000⟩] } }
    (∃ x ∈ d.mgmt.sessions, x.id = 7 ∧ actF d offSvcMdpCfg 15 0 * 3000 ≤ x.idle) ∧ a.boot.phase = .reset ∧ d.boot.phase ≠ .reset ∧ d.boot.phase ≠ .lock ∧ (0x21 : Nat) ≠ 0x20 ∧
      spiReadable d 4 1 = true ∧ spiOpen d = true ∧ d.mgmt.mbox = some [1] ∧ d.boot.phase = .noImage ∧ mboxBusy d = false ∧
      a.mgmt.mbox = none ∧ d.boot.up = false := by decide +kernel

theorem hyp_TwinFramesAndJoins :
    let a := tdev [(0x800000, 1)] [(offTwnStatus, 0x40)]
    let d := { a with twn := { a.twn with joinK := some 0 }, epc := { epoch := 900000 } }
    let b := tdev [(0x800000, 1)] []
    let h : TwinHead := ⟨0x5157, 4, crc32c (frameFront 0x5157 4 2 [0, 1])⟩
    let w : TwinHead := ⟨0x5158, 4, crc32c (frameFront 0x5158 4 2 [0, 1])⟩
    let k : TwinHead := ⟨0x5157, 4, crc32c (frameFront 0x5157 4 2 ([0, 2] ++ beBytes 6 9))⟩
    let z : TwinHead := ⟨0x5157, 4, crc32c (frameFront 0x5157 4 2 [0, 3])⟩
    let f : StateFrame := ⟨1, 0, [7]⟩
    let g : TwinHead := ⟨0x5157, 4, crc32c (frameFront 0x5157 4 3 (statePayload f))⟩
    running a blkTwn = true ∧ pairState a = 1 ∧ a.twn.joinK = none ∧ a.twn.asked = none ∧ (4 : BitVec 16) ∉ a.twn.rxSeqs ∧
      (4 : BitVec 16) ∈ { a.twn with rxSeqs := [4] }.rxSeqs ∧ running b blkTwn = true ∧ joinRefused b = false ∧ joinRefused a = true ∧
      copyOk h 2 [0, 1] = true ∧ copyCrcOk { h with crc := 0 } 2 [0, 1] = false ∧ copyCrcOk w 2 [0, 1] = true ∧ copyOk w 2 [0, 1] = false ∧
      liveB (liveSetB a offTwnStatus 9 true) offTwnStatus 9 = true ∧ ({ a.twn with asked := some 0 }).asked.isSome = true ∧ f.kind ≠ 5 ∧
      ({ f with kind := 5 }).kind = 5 ∧ copyOk k 2 ([0, 2] ++ beBytes 6 9) = true ∧
      copyOk z 2 [0, 3] = true ∧ copyOk g 3 (statePayload f) = true ∧ d.twn.joinK = some 0 ∧
      0 + 3000 * actF d offTwnJoinCfg 7 0 ≤ d.epc.epoch ∧ running State.reset.dev blkTwn = false := by decide +kernel
theorem hyp_TwinFramesAndJoins_epoch (f : TwinEpoch) :
    copyOk ⟨0x5157, 4, crc32c (frameFront 0x5157 4 1 (epochPayload 16 f))⟩ 1 (epochPayload 16 f) = true := by
  have h : (epochPayload 16 f).length ≤ 12312 := by
    have e : ∀ (n k : Nat), (beBytes n k).length = n := by intro n; induction n with
      | zero => intro k; rfl
      | succ n ih => intro k; simp [beBytes, ih]
    have g : (digestBytes 16 f.digests).length = 12288 := by
      have : ∀ (l : List Nat) (m : Nat → Nat), (l.flatMap fun i => beBytes 8 (m i)).length = 8 * l.length := by
        intro l m; induction l with
        | nil => rfl
        | cons a l ih => simp [e, ih]; omega
      unfold digestBytes; rw [this]; simp
    simp [epochPayload, e, g]
  simp [copyOk, copyCrcOk, h]

theorem hyp_OutputsHaveOneOwner :
    let a := tdev [(offTwnCtrl, 2)] [(offEpcStatus, 4)]
    let b := tdev [(offTwnCtrl, 2)] [(offTwnStatus, 4)]
    let c := tdev [] [(offTwnStatus, 0xD)]
    let r := { a with twn := { a.twn with released := true } }
    let w := { b with twn := { b.twn with armed := true }, epc := { epoch := 30 } }
    let z := tdev [] [(offTwnStatus, 0x20)]
    let y := { z with twn := { z.twn with reduced := some 0 } }
    eligible a = true ∧ liveB a offTwnStatus 3 = false ∧ liveB a offTwnStatus 2 = false ∧ a.twn.released = false ∧
      liveB b offTwnStatus 2 = true ∧ liveB b offTwnStatus 3 = false ∧ b.twn.armed = false ∧ liveB b offTwnStatus 0 = false ∧
      liveB c offTwnStatus 0 = true ∧ liveB c offTwnStatus 2 = true ∧ liveB c offTwnStatus 3 = true ∧
      r.twn.released = true ∧ w.twn.armed = true ∧ liveB w offTwnStatus 5 = false ∧ w.twn.reduced.getD 0 + 24 ≤ w.epc.epoch ∧
      y.twn.reduced = some 0 ∧ liveB y offTwnStatus 5 = true ∧ y.epc.epoch ≤ 0 + 1 ∧ 0 + 1 < w.epc.epoch := by decide +kernel

theorem hyp_MoonClustersTakeOver :
    let a := tdev [(offTwnPatrol, 0x10001)] [(offTwnMoonStatus, 0x3804)]
    let j : Subst := ⟨0, 1, 0, true⟩
    let f : Subst := ⟨0, 1, 0, false⟩
    let d := { a with moon := { a.moon with jobs := [j] } }
    let e := { a with moon := { a.moon with patrols := [(0, ⟨0, 0, none⟩)] }, epc := { epoch := 1 } }
    fatal a = false ∧ fatal (liveSetB a offErrStatus 3 true) = true ∧ isRetired a 0 1 = false ∧ isRetired (retire a 0 1) 0 1 = true ∧ clusterPos a 0 1 = some 1 ∧ moonFree a 0 = true ∧
      clusterPos a 0 4 = none ∧ moonOf a 0 = 4 ∧ moonAvail a 0 = true ∧ clusterPos (retire (setAvail a 0 false) 0 0) 0 4 = none ∧
      (d.moon.jobs.find? fun j => decide (j.pool = 0 ∧ j.epoch ≤ d.epc.epoch)) = some j ∧
      ([f].find? fun j => decide (j.pool = 0 ∧ j.epoch ≤ d.epc.epoch)) = some f ∧ patrolRuns e 0 = true ∧ 1 < 1 + actF e offTwnPatrol 31 16 ∧ patrolRuns d 0 = false ∧
      0 + actF e offTwnPatrol 31 16 ≤ e.epc.epoch ∧ judgeMoon a 0 1 4 = 1 ∧ clusterPos a 0 9 = none ∧
      e.moon.patrols.find? (fun q => decide (q.1 = 0)) = some (0, ⟨0, 0, none⟩) := by decide +kernel
theorem hyp_MoonClustersTakeOver_vec :
    let a := tdev [(offTwnPatrol, 0x10001)] [(offTwnMoonStatus, 0x3804)]
    let j : Subst := ⟨1, 1, 0, true⟩
    let f : Subst := ⟨1, 1, 0, false⟩
    let h := liveSetB a (offVecCoreState 4) 4 true
    let p : Patrol := ⟨0, 0, some 1⟩
    let e := { a with moon := { a.moon with patrols := [(1, p)] }, epc := { epoch := 1 } }
    isRetired a 1 1 = false ∧ clusterPos a 1 1 = some 1 ∧ moonFree a 1 = true ∧ moonOf a 1 = 8 ∧ clusterPos a 1 8 = none ∧ moonAvail a 1 = true ∧
      moonFree (setAvail a 1 false) 1 = false ∧ moonFree (setAvail a 0 false) 0 = false ∧
      ([j].find? fun j => decide (j.pool = 1 ∧ j.epoch ≤ a.epc.epoch)) = some j ∧
      ([f].find? fun j => decide (j.pool = 1 ∧ j.epoch ≤ a.epc.epoch)) = some f ∧ inHandler h (4 * 1 + 0) = true ∧
      (∀ c, c < 4 → inHandler a (4 * 1 + c) = false) ∧ patrolRuns e 1 = true ∧ p.suspect.isSome = true ∧
      e.moon.patrols.find? (fun q => decide (q.1 = 1)) = some (1, p) := by decide +kernel

theorem hyp_ErrorsAreRaisedAndCollected :
    let a := tdev [] []
    let r : ErrReport := ⟨5, 0x0305, 1, false, 4, 1, 0, 0⟩
    let d := { a with err := { a.err with reports := [r], mirror := [[0]], links := [(0, (2, 2))] }, boot := { a.boot with density := 2 } }
    errorCodes.contains 0x0305 = true ∧ classOf 0x0305 = 1 ∧ errorCodes.contains 0x0007 = true ∧ classOf 0x0007 = 3 ∧
      errorCodes.contains 9 = false ∧ d.err.reports = [] ++ r :: [] ∧ nextReport d.err.reports = some r ∧ a.err.reports = [] ∧
      d.err.mirror = [0] :: [] ∧ d.boot.density ≠ 0 ∧ a.err.mirror = [] ∧ fatal a = false ∧ fatal (liveSetB a offErrStatus 3 true) = true ∧
      (mapGet (fun _ => ((0, 0) : Nat × Nat)) d.err.links 0).2 = 2 ∧ (mapGet (fun _ => ((0, 0) : Nat × Nat)) d.err.links 1).2 ≠ 2 ∧
      lcsState a ≠ 1 ∧ a.err.denied = none ∧ lcsState (liveSetF a offLcsState 1 0 1) = 1 ∧ a.boot.phase = .reset ∧ ({ a.boot with phase := .done }).phase ≠ .reset := by decide +kernel
theorem hyp_ErrorsAreRaised_contained :
    let a := tdev [(offErrCtrl, 1)] []
    let b := tdev [] []
    let h := mapSet (fun _ => []) a.err.history (7 * 65536 + 0x0403) [4, 2]
    classOf 0x0403 = 2 ∧ errorCodes.contains 0x0403 = true ∧ (mapGet (fun _ => []) h (7 * 65536 + 0x0403)).length = 2 ∧
      5 - (mapGet (fun _ => ([] : List Nat)) h (7 * 65536 + 0x0403)).getD 1 0 < 3000 ∧ classOf 0x0101 = 0 ∧ errorCodes.contains 0x0101 = true ∧
      actB a offErrCtrl 0 = true ∧ (mapGet (fun _ => ([] : List Nat)) b.err.history 0).length ≠ 2 := by decide +kernel

theorem hyp_LifeCycleAndFuses :
    let a := tdev [] []
    let b := tdev [] [(offLcsState, 1), (offLcsKeys, 3)]
    let m : Manifest := ⟨2, false, 0, false, false, 0, []⟩
    let c := { b with boot := { b.boot with up := true, manifest := some m } }
    lcsState a = 0 ∧ lcsJudge a 1 = some 3 ∧ lcsJudge b 2 = none ∧ bits 2 1 0 = 2 ∧ liveB a offLcsKeys 0 = false ∧
      lcsState b = 1 ∧ c.boot.up = true ∧ c.boot.manifest = some m ∧ b.boot.up = false ∧
      ((List.range 4).any fun q => decide (q ≠ 0) && slotGood b q) = true ∧
      ((List.range 4).any fun q => decide (q ≠ 0) && slotGood (liveSetB b offLcsKeys 1 false) q) = false := by decide +kernel

theorem hyp_BootAndConfirmation :
    let a := tdev [] [(offClkStatus, 1), (offPmcStatus, 2)]
    let b := tdev [] [(offPmcStatus, 2)]
    let p := { a with boot := { a.boot with standby := false, porst := true } }
    let q := { b with boot := { b.boot with standby := false, porst := true } }
    let out := fun (d : Dev) => liveSetB (liveSetB { d with boot := { d.boot with porst := false } } offPmcStraps 0 true) offTwnStatus 0 true
    let m : Manifest := ⟨2, false, 0, false, true, 0, []⟩
    let c := { a with boot := { a.boot with up := true, manifest := some m, ptpRun := 180000 } }
    let r := tdev [] [(offMemStatus 0, 1), (offMemStatus 1, 1)]
    let t := { r with boot := { r.boot with phase := .train, manifest := some m } }
    let w := { r with boot := { r.boot with phase := .wipe, manifest := some m } }
    let l := { r with boot := { r.boot with phase := .loaded, manifest := some m } }
    p.boot.porst = true ∧ heldReset (out p) = false ∧ p.boot.phase = .reset ∧ refOk p false = true ∧ refOk q false = false ∧
      refOk q true = false ∧ heldReset (out q) = false ∧ heldReset (out { p with regs := {} }) = true ∧
      t.boot.phase = .train ∧ memReady t 0 = true ∧ memReady t 1 = true ∧ bootPayloads false t = some [] ∧
      bootPayloads false { t with boot := { t.boot with manifest := none } } = none ∧
      w.boot.phase = .wipe ∧ bootPayloads true w = some [] ∧ bootPayloads true { w with boot := { w.boot with manifest := none } } = none ∧
      l.boot.phase = .loaded ∧ l.boot.manifest = some m ∧ l.epc.commit = none ∧ m.start = false ∧
      c.boot.manifest = some m ∧ m.auto = true ∧ c.boot.up = true ∧ 180000 ≤ c.boot.ptpRun ∧ fatal c = false := by decide +kernel
theorem hyp_BootAndConfirmation_fails :
    let p : List Byte := [0, 0, 0, 1]
    let f : List Byte := [0, 1, 0, 0]
    let a := tdev [] []
    let m : Manifest := ⟨2, false, 0, false, true, 0, [⟨3, 4096, 4, crc32c p⟩, ⟨0x15, 8192, 4, crc32c f⟩]⟩
    let b := (p.zipIdx.map fun x => (4096 + x.2, x.1)) ++ f.zipIdx.map fun x => (8192 + x.2, x.1)
    let d := { a with boot := { a.boot with manifest := some m, flash := b } }
    bootPayloads false d = some [(3, p)] ∧ bootPayloads true d = some [(0x15, f)] ∧ (parseKeys p).isNone = true ∧
      sectionOk d false [] 3 p = false ∧ (parseFilters f).isNone = true := by decide +kernel

theorem hyp_ReloadGo :
    treload.boot.up = true ∧ treload.boot.manifest.any (fun run => (readManifest treload 1).any fun new =>
      decide (run.gen < new.gen) && mayReload run new) = true := by decide +kernel
theorem hyp_ReloadGo_turned :
    let d := treload
    (readManifest { d with boot := { d.boot with flash := [] } } 1) = none ∧ runningBank d = 0 ∧ d.boot.reload = none := by decide +kernel
theorem hyp_Reloads :
    let a := tdev [] [(offEpcStatus, 0x10)]
    let m : Manifest := ⟨2, false, 0, false, false, 0, [⟨0x14, 4096, 1, crc32c [1]⟩, ⟨0x15, 4096, 1, 0⟩]⟩
    let x : ReloadSec := ⟨0x14, [1], mem1Reserved a, false⟩
    let y : ReloadSec := ⟨0x15, [1], mem1Reserved a + 1, false⟩
    let d := { a with boot := { a.boot with reload := some ⟨m, [x, y]⟩ }, mem := { a.mem with reserved := [(mem1Reserved a, 1), (mem1Reserved a + 1, 1)] } }
    loadingSec d 0x14 = some x ∧ reloadCrcOk (takeStaged 0x14 d) (stagedData d x) = true ∧ reloadSecOk (takeStaged 0x14 d) (stagedData d x) = false ∧
      loadingSec d 0x15 = some y ∧ reloadCrcOk (takeStaged 0x15 d) (stagedData d y) = false ∧ d.vec.load = none ∧ filtersUnderWay d = false ∧ cndSwapping d = false ∧
      cndSwapping { d with cnd := { d.cnd with swapAt := some 0 } } = true ∧ d.epc.joined = false ∧ x.type ∉ quietTypes ∧ y.type ∉ quietTypes ∧
      x.ready = false := by decide +kernel
theorem hyp_Reloads_ready :
    let a := tdev [] [(offEpcStatus, 0x10)]
    let m : Manifest := ⟨2, false, 0, false, false, 0, []⟩
    let e := { a with boot := { a.boot with reload := some ⟨m, [⟨0x18, [], 0, true⟩]⟩ } }
    let f := { a with boot := { a.boot with reload := some ⟨m, [⟨0x16, [], 0, false⟩]⟩ }, vec := { a.vec with load := some ([], []) } }
    reloadState f = 1 ∧ f.vec.load = some ([], []) ∧ reloadState e = 1 ∧ loadingSec e 0x18 = none ∧ a.boot.reload = none ∧ feedBlock a = none := by decide +kernel
theorem hyp_Reloads_filters :
    let a := tdev [] []
    let f := { a with rc := { a.rc with phase := .parallel 0 }, path := { a.path with slots := [⟨2000, 2000, []⟩] } }
    filtersUnderWay f = true ∧ feedBlock f = some 2000 ∧ rcReadyAt f 2000 = true ∧ rcReadyAt f 0 = false ∧ feedAgain f = false ∧
      feedAgain { f with path := { f.path with slots := [⟨2000, 2000, []⟩] }, regs := { f.regs with act := [(0, [(offWdStageCfg 1, 1)])] } } = true := by decide +kernel
theorem hyp_Reloads_prepared :
    let a := tdev [] [(offEpcStatus, 0x10)]
    let p : List Byte := [0, 1] ++ List.replicate 22 0
    let m : Manifest := ⟨2, false, 0, false, false, 0, [⟨0x15, 4096, 24, crc32c p⟩]⟩
    let o := mem1Reserved a
    let x : ReloadSec := ⟨0x15, p, o, false⟩
    let d := { a with boot := { a.boot with reload := some ⟨m, [x]⟩ }, mem := { a.mem with reserved := p.zipIdx.map fun b => (o + b.2, b.1) } }
    let y := stagedData d x
    loadingSec d 0x15 = some x ∧ filtersUnderWay d = false ∧ y = x ∧ reloadCrcOk (takeStaged 0x15 d) y = true ∧
      reloadSecOk (takeStaged 0x15 d) y = true := by decide +kernel
theorem hyp_Reloads_prepared_cnd :
    let x : ReloadSec := ⟨0x14, List.replicate 2208 0, 0, false⟩
    reloadSecOk State.reset.dev x = true := by decide +kernel

theorem hyp_SuppliesComeUpInOrder :
    let a := State.reset.dev
    let b := { tdev [] [(offPmcStatus, 1), (offPmcRailStatus 0, 2)] with boot := { a.boot with standby := false } }
    let e := { tdev [] [(offPmcStatus, 0x5001), (offPmcRailStatus 5, 2)] with boot := { a.boot with standby := false } }
    let q := { tdev [] [(offPmcStatus, 3), (offPmcRailStatus 1, 6)] with boot := { a.boot with standby := false, porst := false } }
    let x := { tdev [] [(offPmcStraps, 2)] with boot := { a.boot with standby := false, phase := .done } }
    a.boot.standby = true ∧ b.boot.standby = false ∧ railIn b 0 = true ∧ railIn b 1 = false ∧ sequencing b 0 = true ∧ sequencing b 1 = false ∧
      sequencing e 5 = true ∧ railIn e 5 = true ∧ e.boot.porst = true ∧ railQualifiedNow q 1 = true ∧ railQualifiedNow q 0 = false ∧
      pwrExt q = false ∧ q.boot.porst = false ∧ pwrExt x = true ∧ seqState x = 0 ∧ x.boot.phase ≠ .reset ∧ a.boot.phase = .reset ∧
      pwrExt b = false := by decide +kernel

theorem hyp_SuppliesAndHeatAreWatched :
    let a := State.reset.dev
    let b := { tdev [(offPmcTelemetry, 0x100)] [(offPmcRailStatus 0, 6)] with boot := { a.boot with standby := false, phase := .done } }
    let x : RailReading := ⟨true, 5, 6, 0⟩
    let y : RailReading := ⟨true, 5, 6, 4⟩
    let c := { b with pmc := { b.pmc with hot := [5] } }
    let e := { b with pmc := { b.pmc with hotter := [5], cool := 1000 } }
    let tj : List Int := [0, 0, 0, 0, 0, 33000, 0, 0]
    let tk : List Int := [0, 0, 0, 0, 0, 34560, 0, 0]
    a.boot.standby = true ∧ b.boot.standby = false ∧ actB b offPmcTelemetry 8 = true ∧ actB (tdev [(offPmcTelemetry, 0)] []) offPmcTelemetry 8 = false ∧
      faultyRail [x] = none ∧ faultyRail [y] = some 0 ∧
      ((validReadings b tj).filter fun e => decide (32000 ≤ e.2) && b.pmc.hot.contains e.1) = [] ∧
      ((validReadings c tj).filter fun e => decide (32000 ≤ e.2) && c.pmc.hot.contains e.1) ≠ [] ∧ b.boot.phase ≠ .reset ∧ c.pmc.shut = [] ∧ e.pmc.burnt = [] ∧
      ((validReadings e tk).any fun r => decide (5 ≤ r.1 ∧ 34560 ≤ r.2) && e.pmc.hotter.contains r.1) = true ∧ seqState e ≠ 3 ∧
      liveB (liveSetB e offPmcStatus 6 true) offPmcStatus 6 = true ∧ 1000 ≤ e.pmc.cool := by decide +kernel

theorem hyp_BundleCommandsIssueTheirBundles :
    let a := tvec 3
    let k := coreOf a 0
    let z := liveSet a (offMemStatus 1) 0
    let r : Bundle := ⟨.mac .nop 0 0 0 0 0, .load 0 1 0 0, .none, ⟨0, 0⟩⟩
    let b : Bundle := ⟨.mac .mpy 0 0 1 2 1, .none, .none, ⟨0, 0⟩⟩
    let e : Bundle := ⟨.mac .nop 0 0 0 0 0, .load 0 0 0 0, .none, ⟨0, 0⟩⟩
    (Instr.mpy 0 0 0 1 2 1 .none .none ⟨0, 0⟩).bundle = some (0, b) ∧ running a blkVec = true ∧ k.wait = none ∧
      coreState a 0 = 3 ∧ k.ended = false ∧ (bundleFx a 0 k false b).faults = [] ∧
      waitsFor a 0 k (bundleFx a 0 k false b) b.op = none ∧
      (bundleFx a 0 k false ⟨.mac .mpy 2 0 1 2 1, .none, .none, ⟨0, 0⟩⟩).faults = [fIllegal] ∧
      waitsFor a 0 { k with posted := true } {} (.ctl .waitw) = some .posted ∧ fetchWord k = 0 ∧ decodeBundle 0 ≠ none ∧
      decodeBundle (2 ^ 63) = none ∧ fetchWord { k with prog := [(0, 2 ^ 63)] } = 2 ^ 63 ∧ decodeBundle 1 ≠ some b ∧ decodeBundle 1 ≠ none ∧
      (bundleFx z 0 k false r).faults = [5] ∧ (bundleFx z 0 k false r).refused = some (false, 0) ∧
      (bundleFx a 0 k false b).writes.find? (fun w => regIn false w.1 = regIn false 18) ≠ none ∧
      (∀ w ∈ (bundleFx a 0 k false b).writes, regIn false w.1 ≠ regIn false 3) ∧
      (bundleFx a 0 k false e).faults = [] ∧ running (tvec 1) blkVec = true ∧ coreState (tvec 1) 0 = 1 := by decide +kernel

theorem hyp_MacBundlesCompute :
    let a := tvec 3
    let k := coreOf a 0
    let may := fun (op : MacOp) => (bundleFx a 0 k false ⟨.mac op 0 0 1 2 1, .none, .none, ⟨0, 0⟩⟩).faults = [] ∧
      waitsFor a 0 k (bundleFx a 0 k false ⟨.mac op 0 0 1 2 1, .none, .none, ⟨0, 0⟩⟩) (.mac op 0 0 1 2 1) = none
    0 < 1 ∧ canIssue a 0 = true ∧ fetchWord k = 0 ∧ (decodeBundle 0).isSome = true ∧ inHandler a 0 = false ∧ Unmoved a 0 .none .none 18 ∧ may .mpy ∧ may .mac ∧ may .msu ∧ may .mpyn ∧
      may .clr ∧ may .rnd := by unfold Unmoved; decide +kernel

theorem hyp_AluBundlesCompute :
    let a := tvec 3
    let k := coreOf a 0
    canIssue a 0 = true ∧ fetchWord k = 0 ∧ (decodeBundle 0).isSome = true ∧ inHandler a 0 = false ∧ Unmoved a 0 .none .none 2 ∧
      (∀ op ∈ ([.add, .sub, .adds, .subs, .and, .or, .xor, .cmp, .min, .max, .abs, .neg, .asl, .asr, .asrr, .lsr, .asli, .asri, .lsri,
        .norm, .mova, .movn, .movm, .movfa, .xtrh, .xtrl, .insa, .accadd, .accsub, .accsh] : List AluOp),
        (bundleFx a 0 k false ⟨.alu op 2 0 1, .none, .none, ⟨0, 0⟩⟩).faults = [] ∧
        waitsFor a 0 k (bundleFx a 0 k false ⟨.alu op 2 0 1, .none, .none, ⟨0, 0⟩⟩) (.alu op 2 0 1) = none) ∧
      (∀ file ∈ [0, 1, 2, 3], (bundleFx a 0 k false ⟨.li file 7 5, .none, .none, ⟨0, 0⟩⟩).faults = [] ∧
        waitsFor a 0 k (bundleFx a 0 k false ⟨.li file 7 5, .none, .none, ⟨0, 0⟩⟩) (.li file 7 5) = none) := by
  unfold Unmoved; decide +kernel

theorem hyp_AccumulatorMovesScaleAndPlace :
    let a := tvec 3
    let k := coreOf a 0
    let may := fun (x y : MoveField) => (bundleFx a 0 k false ⟨.mac .nop 0 0 0 0 0, x, y, ⟨0, 0⟩⟩).faults = [] ∧
      waitsFor a 0 k (bundleFx a 0 k false ⟨.mac .nop 0 0 0 0 0, x, y, ⟨0, 0⟩⟩) (.mac .nop 0 0 0 0 0) = none
    canIssue a 0 = true ∧ fetchWord k = 0 ∧ (decodeBundle 0).isSome = true ∧ inHandler a 0 = false ∧ Unmoved a 0 .none .none 2 ∧ Unmoved a 0 .none .none 16 ∧ may (.mov 2 16) .none ∧
      may .none (.mov 17 3) ∧ may (.mov 17 18) .none ∧ moveAddr k false 0 0 0 = some (0x4000, none) ∧ vecPlace 0x4000 = .own ∧
      moveAddr k false 1 0 0 = some (0x800000, none) ∧ vecPlace 0x800000 = .window ∧
      may (.load 16 0 0 0) .none ∧ may .none (.load 3 0 0 0) ∧ may (.store 16 0 0 0) .none ∧ may .none (.store 3 0 0 0) ∧
      may .none (.store 3 1 0 0) ∧
      (rne (sext 56 (regSeen k false .accSrc 16) * 2 ^ 8) (2 ^ 24) < -2 ^ 31 ∨ 2 ^ 31 ≤ rne (sext 56 (regSeen k false .accSrc 16) * 2 ^ 8) (2 ^ 24)) ∧
      sext 5 (regSeen k false .scale rSCALE) = 0 ∧
      (k.flight.filter fun e => e.reg = regIn false 16).Pairwise (fun u v => v.k ≤ u.k) := by unfold Unmoved; decide +kernel

theorem hyp_AddressRegistersStepUnderTheirModifier :
    let a := tvec 3
    let k := coreOf a 0
    let k3 := { k with regs := k.regs ++ [(51, 0x80000004)] }
    let c := setCore a 0 k3
    let may := fun (x y : MoveField) (g : AguField) => (bundleFx a 0 k false ⟨.mac .nop 0 0 0 0 0, x, y, g⟩).faults = [] ∧
      waitsFor a 0 k (bundleFx a 0 k false ⟨.mac .nop 0 0 0 0 0, x, y, g⟩) (.mac .nop 0 0 0 0 0) = none
    canIssue a 0 = true ∧ fetchWord k = 0 ∧ (decodeBundle 0).isSome = true ∧ inHandler a 0 = false ∧ Unmoved a 0 .none .none 34 ∧ regSeen k false .agu 50 / 2 ^ 30 = 1 ∧
      canIssue c 0 = true ∧ regSeen k3 false .agu 51 / 2 ^ 30 = 2 ∧ 0 < regSeen k3 false .agu 51 % 16 ∧
      (bundleFx c 0 k3 false ⟨.mac .nop 0 0 0 0 0, .none, .none, ⟨3, 3⟩⟩).faults = [] ∧
      regSeen k false .agu 48 / 2 ^ 30 = 0 ∧ may .none .none ⟨1, 2⟩ ∧ may .none .none ⟨2, 2⟩ ∧ may .none .none ⟨3, 2⟩ ∧
      may .none .none ⟨4, 2⟩ ∧ may (.load 3 2 1 0) .none ⟨0, 0⟩ ∧ may .none (.load 3 2 1 0) ⟨0, 0⟩ ∧ may (.store 3 2 3 2) .none ⟨0, 0⟩ ∧
      may .none (.store 3 2 3 2) ⟨0, 0⟩ ∧ may .none (.load 3 2 5 2) ⟨0, 0⟩ ∧ may .none (.load 3 2 0 0) ⟨0, 0⟩ ∧
      may .none (.load 3 2 6 2) ⟨0, 0⟩ := by unfold Unmoved; decide +kernel

theorem hyp_ControlBundlesAct :
    let a := tvec 3
    let k := coreOf a 0
    let may := fun (c : VecCore) (op : CtlOp) => (bundleFx (setCore a 0 c) 0 c false ⟨.ctl op, .none, .none, ⟨0, 0⟩⟩).faults = [] ∧
      waitsFor (setCore a 0 c) 0 c (bundleFx (setCore a 0 c) 0 c false ⟨.ctl op, .none, .none, ⟨0, 0⟩⟩) (.ctl op) = none
    canIssue a 0 = true ∧ inHandler a 0 = false ∧ Unmoved a 0 .none .none 3 ∧ Unmoved a 0 .none .none rSL ∧ dSeen k false 3 ≠ 1 ∧
      dSeen { k with regs := [(3, 1)] } false 3 = 1 ∧ dSeen { k with regs := [(3, 1)] } false 3 ≠ 0 ∧ dSeen k false 3 = 0 ∧
      prodOf a 0 = some 0 ∧ 0 < creditsFree a 0 ∧ fetchWord k = 0 ∧ (decodeBundle 0).isSome = true ∧
      descriptorOk a ((List.range 8).map fun i => vecLoad a 0 k false false ((regSeen k false .aOther 32 + i) % 2 ^ 24)) = true ∧
      descriptorOk { a with wd := { a.wd with kernels := [] } } [] = false ∧
      canIssue (setCore a 0 { k with stack := [7] }) 0 = true ∧ may { k with stack := [7] } .ret ∧
      ∀ op ∈ ([.bra 5, .bcc 0 5, .bcc 7 5, .call 5, .jmp 7, .loop 3 5, .repImm 1, .repImm 4096, .repReg 3, .rte, .finish, .enq 0, .evsig 128,
        .evsig 127, .setscale 31, .getsr 3, .putsr 3, .cyc 3, .cid 3, .putwb 3, .waitw] : List CtlOp), may k op := by
  unfold Unmoved; decide +kernel

theorem hyp_DelaySlotsRepeatsAndTransfersEnd :
    let a := tvec 3
    let c := Instr.mpy 0 0 0 1 2 1 .none .none ⟨0, 0⟩
    let b : Bundle := ⟨.mac .mpy 0 0 1 2 1, .none, .none, ⟨0, 0⟩⟩
    let k := coreOf a 0
    let l := tdev [(blkVec * 0x100000, 1)] [(offVecCoreState 0, 0x13)]
    let may := fun (d : Dev) (c : VecCore) => canIssue (setCore d 0 c) 0 = true ∧
      (bundleFx (setCore d 0 c) 0 c (inHandler d 0) b).faults = [] ∧
      waitsFor (setCore d 0 c) 0 c (bundleFx (setCore d 0 c) 0 c (inHandler d 0) b) b.op = none
    c.bundle = some (0, b) ∧ (match b.op with
      | .ctl _ => False
      | _ => True) ∧ may a k ∧ may a { k with rep := some 2 } ∧ may a { k with rep := some 1 } ∧ may a { k with xfer := some (2, .go 9) } ∧
      may a { k with xfer := some (1, .go 9) } ∧ may a { k with xfer := some (1, .none) } ∧ may a { k with xfer := some (1, .finish) } ∧
      inHandler a 0 = false ∧ inHandler l 0 = true ∧ may l { k with xfer := some (1, .rte) } := by decide +kernel

theorem hyp_VectorWaitsAndFaultsEnd :
    let a := tvec 3
    let k := coreOf a 0
    let e : Bundle := ⟨.ctl (.enq 0), .none, .none, ⟨0, 0⟩⟩
    let w : Bundle := ⟨.ctl .waitw, .none, .none, ⟨0, 0⟩⟩
    let r : Bundle := ⟨.mac .nop 0 0 0 0 0, .load 0 1 0 0, .none, ⟨0, 0⟩⟩
    let l := tdev [(blkVec * 0x100000, 1)] [(offVecCoreState 0, 0x13)]
    let it : WorkItem := ⟨[], 32, 0⟩
    let bad : Bundle := ⟨.ctl (.bcc 8 0), .none, .none, ⟨0, 0⟩⟩
    (coreOf (setCore a 0 { k with wait := some (.credit, e) }) 0).wait = some (.credit, e) ∧ prodOf a 0 = some 0 ∧ fetches k bad = true ∧
      decodeBundle (fetchWord { k with prog := [(0, 2 ^ 63)] }) = none ∧ windowReadOff k false r = 0 ∧
      running a blkVec = true ∧ 0 < creditsFree a 0 ∧ k.wait = none ∧ waitsFor a 0 { k with wait := some (.window, r) } {} r.op = none ∧
      waitsFor a 0 { k with posted := true } {} w.op = some .posted ∧
      (bundleFx a 0 k false bad).faults = [0] ∧ (bundleFx l 0 (coreOf l 0) true bad).faults = [0] ∧ canIssue a 0 = true ∧
      canIssue l 0 = true ∧ inHandler l 0 = true ∧ (Instr.bcc 0 8 0 .none ⟨0, 0⟩).bundle = some (0, bad) ∧
      (coreOf (setCore a 0 { k with item := some it }) 0).item ≠ none := by decide +kernel

theorem hyp_MemoryReadsWhatWasWritten :
    0 < ([7, 8] : List Byte).length ∧ (0 < 1 ∨ 1 + ([7, 8] : List Byte).length ≤ 0) ∧ mapWf byte0 [(3, (9 : Byte))] = true ∧
      (0 + 4 ≤ 4 ∨ 4 + 4 ≤ 0) ∧ 1 + ([7, 8] : List Byte).length ≤ 3 := by decide

theorem hyp_ReductionsRoundToNearestEven :
    0 < 2 ∧ (2 : Int) * |3 - ((2 : Nat) : Int) * rne 3 2| = ((2 : Nat) : Int) ∧ (2 : Int) * |5 - ((4 : Nat) : Int) * 1| < ((4 : Nat) : Int) ∧ (3 : Int) ≤ 5 ∧
      -2 ^ (4 - 1) ≤ (5 : Int) ∧ (5 : Int) < 2 ^ (4 - 1) ∧ (-9 : Int) < -2 ^ (4 - 1) ∧ (2 : Int) ^ (4 - 1) ≤ 8 := by decide

end Sys2Proof.Tests
end

section
/-!
A register write taken field by field (R5, R10, R33): an equation for each kind of field, what they make of a whole register, and
REGISTER_WRITE.
-/
namespace Sys2Proof.Machine

/-! ### What a write of one field does (R5, R10, R33) -/

section
variable {off : Nat} {val : Word} {acc : Dev × Bool × Bool} {f : FieldDesc}

theorem fieldWrite_readOnly (h : f.acc = .wo ∨ f.acc = .ro) : fieldWrite off val acc f = acc := by
  rcases h with h | h <;> simp [fieldWrite, h]

theorem fieldWrite_w1s (h : f.acc = .w1s) : fieldWrite off val acc f =
    (liveSet acc.1 off (liveGet acc.1 off ||| BitVec.ofNat 32 (bits val f.hi f.lo <<< f.lo)), acc.2) := by
  simp [fieldWrite, h]

theorem fieldWrite_w1c (h : f.acc = .w1c) : fieldWrite off val acc f =
    (liveSet acc.1 off (liveGet acc.1 off &&& ~~~(BitVec.ofNat 32 (bits val f.hi f.lo <<< f.lo))), acc.2) := by
  simp [fieldWrite, h]

/-- Only an RWB field can refuse. -/
theorem fieldWrite_refused (h : f.acc ≠ .rwb) : (fieldWrite off val acc f).2.2 = acc.2.2 := by
  cases e : f.acc with
  | rwb => exact absurd e h
  | _ => simp [fieldWrite, e]

section legal
variable (legal : codeLegal (liveB acc.1 offSysRate 0) off f (bits val f.hi f.lo) = true)
include legal

theorem fieldWrite_rws (h : f.acc = .rws) : fieldWrite off val acc f =
    (shSet acc.1 off (setBits (shGet acc.1 off) f.hi f.lo (fieldCanon off f (bits val f.hi f.lo))), acc.2) := by
  simp [fieldWrite, h, legal]

theorem fieldWrite_rwl (h : f.acc = .rwl) : fieldWrite off val acc f =
    (liveSetF acc.1 off f.hi f.lo (fieldCanon off f (bits val f.hi f.lo)), acc.2) := by
  simp [fieldWrite, h, legal]

theorem fieldWrite_rwb_still (h : f.acc = .rwb) (still : rwbRunning acc.1 off = false) : fieldWrite off val acc f =
    (liveSetF acc.1 off f.hi f.lo (fieldCanon off f (bits val f.hi f.lo)), acc.2) := by
  simp [fieldWrite, h, legal, still]

theorem fieldWrite_rwb_same (h : f.acc = .rwb) (run : rwbRunning acc.1 off = true)
    (same : liveF acc.1 off f.hi f.lo = fieldCanon off f (bits val f.hi f.lo)) : fieldWrite off val acc f = acc := by
  simp [fieldWrite, h, legal, run, same]

theorem fieldWrite_rwb_other (h : f.acc = .rwb) (run : rwbRunning acc.1 off = true)
    (other : liveF acc.1 off f.hi f.lo ≠ fieldCanon off f (bits val f.hi f.lo)) :
    fieldWrite off val acc f = (acc.1, acc.2.1, true) := by
  simp [fieldWrite, h, legal, run, other.symm]

end legal
end

/-! ### What a write of a register does (R33) -/

section
variable {d : Dev} {off : Nat} {val : Word} {r : RegDesc}

theorem regStore_none (h : regAt off = none) : regStore d off val = (d, false) := by
  simp [regStore, h]

/-- A write whose fields find no reserved code. -/
theorem regStore_of_fold {e : Dev} {b : Bool} (h : regAt off = some r)
    (fold : r.fields.foldl (fieldWrite off val) (d, false, false) = (e, false, b)) :
    regStore d off val = (if b then staticReject e off val else e, b) := by
  simp [regStore, h, fold]

theorem regStore_single {f : FieldDesc} {e : Dev} {b : Bool} (h : regAt off = some r) (one : r.fields = [f])
    (field : fieldWrite off val (d, false, false) f = (e, false, b)) :
    regStore d off val = (if b then staticReject e off val else e, b) :=
  regStore_of_fold h (by rw [one]; exact field)

theorem regStore_refused (h : regAt off = some r) :
    (regStore d off val).2 = (r.fields.foldl (fieldWrite off val) (d, false, false)).2.2 := by
  simp [regStore, h]

/-- A running block's register written with the values it holds. -/
theorem regStore_same (h : regAt off = some r) (run : rwbRunning d off = true)
    (same : ∀ f ∈ r.fields, f.acc = .rwb ∧ fieldCanon off f (bits val f.hi f.lo) = liveF d off f.hi f.lo ∧
      codeLegal (liveB d offSysRate 0) off f (bits val f.hi f.lo) = true) : regStore d off val = (d, false) := by
  refine regStore_of_fold (b := false) h (List.foldlRecOn (motive := (· = (d, false, false))) _ _ rfl ?_)
  rintro _ rfl f hf
  obtain ⟨rwb, value, legal⟩ := same f hf
  exact fieldWrite_rwb_same legal rwb run value.symm

theorem regStore_not_refused (h : regAt off = some r) (noRwb : ∀ f ∈ r.fields, f.acc ≠ .rwb) : (regStore d off val).2 = false := by
  rw [regStore_refused h]
  refine List.foldlRecOn (motive := fun a : Dev × Bool × Bool => a.2.2 = false) _ _ rfl fun a ha f hf => ?_
  rw [fieldWrite_refused (noRwb f hf), ha]

end

/-- e is d but for the shadow of the register at off. -/
structure OnlyShadow (off : Nat) (d e : Dev) : Prop where
  /-- Everything but the shadow copies. -/
  rest : e = { d with regs := { d.regs with shadow := e.regs.shadow } }
  /-- The other shadow copies. -/
  shadow : ∀ o, o ≠ off → shGet e o = shGet d o

theorem OnlyShadow.refl (off : Nat) (d : Dev) : OnlyShadow off d d := ⟨rfl, fun _ _ => rfl⟩

theorem OnlyShadow.shSet {off : Nat} {d e : Dev} (w : Word) (h : OnlyShadow off d e) : OnlyShadow off d (shSet e off w) := by
  refine ⟨?_, fun o ho => ?_⟩
  · rw [h.rest]; rfl
  · rw [shGet_shSet, if_neg ho, h.shadow o ho]

theorem OnlyShadow.liveGet {off : Nat} {d e : Dev} (h : OnlyShadow off d e) (o : Nat) : liveGet e o = liveGet d o := by
  rw [h.rest]; rfl

theorem regStore_onlyShadow {d : Dev} {off : Nat} {val : Word} {r : RegDesc} (h : regAt off = some r)
    (kinds : ∀ f ∈ r.fields, f.acc = .rws ∨ f.acc = .ro ∨ f.acc = .wo)
    (legal : ∀ f ∈ r.fields, codeLegal (liveB d offSysRate 0) off f (bits val f.hi f.lo) = true) :
    ∃ e, regStore d off val = (e, false) ∧ OnlyShadow off d e := by
  obtain ⟨e, fold, only⟩ : ∃ e, r.fields.foldl (fieldWrite off val) (d, false, false) = (e, false, false) ∧ OnlyShadow off d e := by
    refine List.foldlRecOn (motive := fun a => ∃ e, a = (e, false, false) ∧ OnlyShadow off d e) _ _ ⟨d, rfl, .refl off d⟩ ?_
    rintro _ ⟨e, rfl, only⟩ f hf
    rcases kinds f hf with rws | inert
    · have rate : liveB e offSysRate 0 = liveB d offSysRate 0 := by rw [liveB, only.liveGet, liveB]
      exact ⟨_, fieldWrite_rws (by rw [rate]; exact legal f hf) rws, only.shSet _⟩
    · exact ⟨e, fieldWrite_readOnly inert.symm, only⟩
  exact ⟨e, regStore_of_fold h fold, only⟩

/-! ### REGISTER_WRITE -/

theorem superWrite_held {path : LcsPath} {off : Nat} {val : Word} {d : Dev} (h : writeHeld d off = true) :
    superWrite path off val d = (d, false) := by
  simp [superWrite, h]

theorem superWrite_none {path : LcsPath} {off : Nat} {val : Word} {d : Dev} (h : regAt off = none) :
    superWrite path off val d = (d, false) := by
  simp [superWrite, regStore_none h, h]

theorem superWrite_taken {path : LcsPath} {off : Nat} {val : Word} {d : Dev} (free : writeHeld d off = false)
    (h : (regAt off).isSome = true) : (superWrite path off val d).1 =
      writeAction path off val (regStore d off val).2 (regStore d off val).1 := by
  simp [superWrite, free, h]

theorem writeHeld_iff (d : Dev) (off : Nat) :
    writeHeld d off = true ↔ d.boot.phase = .reset ∨ (off / 0x100000 = blkSvc ∧ d.boot.up = false) := by
  simp [writeHeld]

/-- REGISTER_WRITE completes with what the write makes of the device. -/
theorem runs_registerWrite {s : State} {off : Nat} {val : Word} {P : Dev → Prop} (h : P (superWrite .other off val s.dev).1) :
    Runs (.registerWrite off val) s P := runs_ran (f := fun d => (superWrite .other off val d).1) rfl h

/-- Settles O32: the write is held, finds no register, or goes field by field through the lemmas about `fieldWrite`. -/
theorem registerWritesFollowTheirKinds : Obligations.RegisterWritesFollowTheirKinds := by
  refine ⟨fun s off v held => ?held, fun s off v h => ?absent, fun s off v h phase up => ?taken, fun d off v r f h one legal => ?single,
    fun d off v r => regStore_same, fun d off v r => regStore_not_refused, fun d off v r h kinds legal => ?shadow⟩
  case held => exact runs_registerWrite (by rw [superWrite_held ((writeHeld_iff _ _).mpr held)])
  case absent => exact runs_registerWrite (by rw [superWrite_none h])
  case taken =>
    have free : writeHeld s.dev off = false := by
      rw [← Bool.not_eq_true, writeHeld_iff]
      rintro (reset | ⟨svc, down⟩)
      · exact phase reset
      · simp [up svc] at down
    exact runs_registerWrite (superWrite_taken free h)
  case single =>
    exact ⟨fun k => regStore_single h one (fieldWrite_rws legal k), fun k => regStore_single h one (fieldWrite_rwl legal k),
      fun k => regStore_single h one (fieldWrite_w1s k), fun k => regStore_single h one (fieldWrite_w1c k),
      fun k => regStore_single h one (fieldWrite_readOnly k),
      fun k still => regStore_single h one (fieldWrite_rwb_still legal k still),
      fun k run other => regStore_single h one (fieldWrite_rwb_other legal k run other),
      fun k run same => regStore_single h one (fieldWrite_rwb_same legal k run same)⟩
  case shadow =>
    obtain ⟨e, store, only⟩ := regStore_onlyShadow h kinds legal
    rw [store]
    exact ⟨by rw [← only.rest], only.shadow⟩

end Sys2Proof.Machine
end

section
/-!
Convergent rounding as the one integer that R4 names, and the signed formats of R3.
-/
namespace Sys2Proof.Machine

/-! ### Rounding (R4) -/

/-- q is what R4 makes of x / den: a nearest integer, the even one of two equally near. -/
def IsNearestEven (x : Int) (den : Nat) (q : Int) : Prop := 2 * |x - den * q| ≤ den ∧ (2 * |x - den * q| = den → q % 2 = 0)

theorem isNearestEven_iff (x : Int) (den : Nat) (q : Int) :
    IsNearestEven x den q ↔ -den ≤ 2 * (x - den * q) ∧ 2 * (x - den * q) ≤ den ∧
      (2 * (x - den * q) = den ∨ 2 * (x - den * q) = -den → q % 2 = 0) := by
  unfold IsNearestEven
  rcases abs_cases (x - den * q) with ⟨e, _⟩ | ⟨e, _⟩ <;> rw [e] <;> omega

theorem rne_isNearestEven (x : Int) {den : Nat} (h : 0 < den) : IsNearestEven x den (rne x den) := by
  have hd : (0 : Int) < den := by exact_mod_cast h
  have split := Int.emod_add_mul_ediv x den
  have nonneg := Int.emod_nonneg x hd.ne'
  have lt := Int.emod_lt_of_pos x hd
  have up : (den : Int) * (x / den + 1) = den * (x / den) + den := by ring
  rw [isNearestEven_iff]
  unfold rne
  dsimp only
  split_ifs with below tie even
  · omega
  · omega
  · rw [up]; omega
  · rw [up]; omega

/-- No two integers are what R4 makes of one quotient: of two nearest ones one is odd. -/
theorem IsNearestEven.unique {x : Int} {den : Nat} {p q : Int} (h : 0 < den) (hp : IsNearestEven x den p)
    (hq : IsNearestEven x den q) : p = q := by
  wlog hlt : p < q generalizing p q
  · rcases eq_or_lt_of_le (not_lt.mp hlt) with e | e
    · exact e.symm
    · exact (this hq hp e).symm
  obtain ⟨-, belowP, evenP⟩ := (isNearestEven_iff _ _ _).mp hp
  obtain ⟨aboveQ, -, evenQ⟩ := (isNearestEven_iff _ _ _).mp hq
  have hd : (0 : Int) < den := by exact_mod_cast h
  have gap : (den : Int) * (p + 1) ≤ den * q := mul_le_mul_of_nonneg_left hlt hd.le
  have next : q = p + 1 := by
    refine le_antisymm (le_of_mul_le_mul_left (a := (den : Int)) ?_ hd) hlt
    rw [mul_add, mul_one]
    omega
  subst next
  rw [mul_add, mul_one] at *
  omega

theorem rne_eq_iff (x : Int) {den : Nat} (q : Int) (h : 0 < den) : rne x den = q ↔ IsNearestEven x den q :=
  ⟨fun e => e ▸ rne_isNearestEven x h, fun hq => (rne_isNearestEven x h).unique h hq⟩

theorem rne_eq_of_near {x : Int} {den : Nat} {q : Int} (h : 0 < den) (hq : 2 * |x - den * q| < den) : rne x den = q :=
  (rne_eq_iff x q h).mpr ⟨hq.le, fun e => absurd e hq.ne⟩

theorem rne_mul_self (x : Int) {den : Nat} (h : 0 < den) : rne (den * x) den = x :=
  rne_eq_of_near h (by simpa using h)

theorem rne_neg (x : Int) {den : Nat} (h : 0 < den) : rne (-x) den = -rne x den := by
  obtain ⟨near, even⟩ := rne_isNearestEven x h
  have e : |-x - den * -rne x den| = |x - den * rne x den| := by rw [← abs_neg]; congr 1; ring
  refine (rne_eq_iff _ _ h).mpr ⟨e ▸ near, fun tie => ?_⟩
  have := even (e ▸ tie)
  omega

theorem rne_mono {x y : Int} {den : Nat} (h : 0 < den) (hxy : x ≤ y) : rne x den ≤ rne y den := by
  by_contra! hlt
  obtain ⟨lowX, -⟩ := (isNearestEven_iff _ _ _).mp (rne_isNearestEven x h)
  obtain ⟨-, highY, -⟩ := (isNearestEven_iff _ _ _).mp (rne_isNearestEven y h)
  have gap : (den : Int) * (rne y den + 1) ≤ den * rne x den := mul_le_mul_of_nonneg_left hlt (by positivity)
  have same : x = y := by
    rw [mul_add, mul_one] at gap
    omega
  exact absurd hlt (by rw [same]; exact lt_irrefl _)

/-- A fraction's common factor does not matter. -/
theorem rne_mul_right (x : Int) {den k : Nat} (h : 0 < den) (hk : 0 < k) : rne (x * k) (den * k) = rne x den := by
  obtain ⟨near, even⟩ := rne_isNearestEven x h
  have hk' : (0 : Int) < k := by exact_mod_cast hk
  have e : 2 * |x * k - (den * k : Nat) * rne x den| = 2 * |x - den * rne x den| * k := by
    rw [show x * k - (den * k : Nat) * rne x den = (x - den * rne x den) * k by push_cast; ring, abs_mul, abs_of_pos hk', mul_assoc]
  refine (rne_eq_iff _ _ (Nat.mul_pos h hk)).mpr ⟨?_, fun tie => even ?_⟩
  · rw [e, Nat.cast_mul]
    exact mul_le_mul_of_nonneg_right near hk'.le
  · rw [e, Nat.cast_mul] at tie
    exact mul_right_cancel₀ hk'.ne' tie

/-! ### Signed formats (R3) -/

theorem satS_of_fits {n : Nat} {x : Int} (lo : -2 ^ (n - 1) ≤ x) (hi : x < 2 ^ (n - 1)) : satS n x = x := by
  unfold satS clampI
  push_cast
  rw [if_neg (by omega), if_neg (by omega)]

theorem satS_of_low {n : Nat} {x : Int} (h : x < -2 ^ (n - 1)) : satS n x = -2 ^ (n - 1) := by
  unfold satS clampI
  push_cast
  rw [if_pos h]

theorem satS_of_high {n : Nat} {x : Int} (h : 2 ^ (n - 1) ≤ x) : satS n x = 2 ^ (n - 1) - 1 := by
  have pos : (0 : Int) < 2 ^ (n - 1) := by positivity
  unfold satS clampI
  push_cast
  rw [if_neg (by omega), if_pos (by omega)]

/-- A saturated value fits. -/
theorem satS_fits (n : Nat) (x : Int) : -2 ^ (n - 1) ≤ satS n x ∧ satS n x < 2 ^ (n - 1) := by
  have pos : (0 : Int) < 2 ^ (n - 1) := by positivity
  rcases lt_or_ge x (-2 ^ (n - 1)) with h | h
  · rw [satS_of_low h]; omega
  · rcases lt_or_ge x (2 ^ (n - 1)) with h' | h'
    · rw [satS_of_fits h h']; exact ⟨h, h'⟩
    · rw [satS_of_high h']; omega

/-- Saturation changes exactly what does not fit. -/
theorem overS_iff (n : Nat) (x : Int) : overS n x = true ↔ x < -2 ^ (n - 1) ∨ 2 ^ (n - 1) ≤ x := by
  rw [overS, decide_eq_true_eq]
  constructor
  · intro h
    by_contra! fits
    exact h (satS_of_fits fits.1 fits.2)
  · intro h e
    have := satS_fits n x
    omega

/-- The code of a value that fits reads back as the value. -/
theorem sext_code {n : Nat} {x : Int} (hn : 0 < n) (lo : -2 ^ (n - 1) ≤ x) (hi : x < 2 ^ (n - 1)) : sext n (code n x) = x := by
  have e := Nat.two_pow_pred_mul_two hn
  have pos : 0 < 2 ^ (n - 1) := Nat.two_pow_pos _
  replace lo : -((2 ^ (n - 1) : Nat) : Int) ≤ x := by exact_mod_cast lo
  replace hi : x < ((2 ^ (n - 1) : Nat) : Int) := by exact_mod_cast hi
  unfold sext code
  rw [← e]
  generalize 2 ^ (n - 1) = m at *
  have nonneg := Int.emod_nonneg x (show ((m * 2 : Nat) : Int) ≠ 0 by omega)
  have lt := Int.emod_lt_of_pos x (show 0 < ((m * 2 : Nat) : Int) by omega)
  rw [Nat.mod_eq_of_lt (by omega)]
  rcases lt_or_ge x 0 with h | h
  · have : x % ((m * 2 : Nat) : Int) = x + (m * 2 : Nat) := by
      rw [← Int.add_emod_right, Int.emod_eq_of_lt (by omega) (by omega)]
    dsimp only
    rw [if_neg (by omega)]
    omega
  · have : x % ((m * 2 : Nat) : Int) = x := Int.emod_eq_of_lt h (by omega)
    dsimp only
    rw [if_pos (by omega)]
    omega

/-- The code of a signed reading is the word that was read. -/
theorem code_sext (n v : Nat) : code n (sext n v) = v % 2 ^ n := by
  have lt : v % 2 ^ n < 2 ^ n := Nat.mod_lt _ (Nat.two_pow_pos n)
  unfold code sext
  dsimp only
  split
  · rw [Int.emod_eq_of_lt (by omega) (by exact_mod_cast lt), Int.toNat_natCast]
  · rw [Int.sub_emod_right, Int.emod_eq_of_lt (by omega) (by exact_mod_cast lt), Int.toNat_natCast]

/-- Settles O60: `rne` is the one integer that R4 names (`rne_eq_iff`), and a saturated value fits its format. -/
theorem reductionsRoundToNearestEven : Obligations.ReductionsRoundToNearestEven := by
  refine ⟨fun x den h => ?_, fun n x hn => ?_⟩
  · obtain ⟨near, even⟩ := rne_isNearestEven x h
    exact ⟨near, even, fun _ => rne_eq_of_near h, rne_mul_self x h, rne_neg x h, fun _ => rne_mono h, fun _ => rne_mul_right x h⟩
  · obtain ⟨lo, hi⟩ := satS_fits n x
    exact ⟨lo, hi, satS_of_fits, satS_of_low, satS_of_high, overS_iff n x, sext_code hn lo hi, code_sext n⟩

end Sys2Proof.Machine
end

section
/-!
The machine after reset: empty banks and memories, so that every register reads its table's Reset column (R5).
-/
namespace Sys2Proof.Machine

/-- Every bank of the register file is empty after reset, so that each register reads its Reset column. -/
theorem reset_banks (off : Nat) : liveGet State.reset.dev off = resetWord off ∧ shGet State.reset.dev off = resetWord off ∧
    actGet State.reset.dev off = resetWord off ∧ snapGet State.reset.dev off = resetWord off := ⟨rfl, rfl, rfl, rfl⟩

/-- The cores' entries of WD.PROD_CFG (R217). -/
theorem reset_prodCfg_core : ∀ p, p < 32 → liveF State.reset.dev (offWdProdCfg p) 12 0 = 32 := by decide +kernel

/-- No core has an entry after reset: each is as a core starts. -/
theorem coreOf_reset (core : Nat) : coreOf State.reset.dev core = {} := rfl

/-- Settles O58: every bank and memory is empty after reset, and the named values stand in the tables' Reset column. -/
theorem resetLeavesTheResetColumn : Obligations.ResetLeavesTheResetColumn := by
  refine ⟨rfl, reset_banks, ?deviceId, reset_prodCfg_core, ?prodCfgEvents, ?prodCfgSupervisor, ?telemetry, rfl, rfl, rfl, rfl, rfl, rfl,
    fun core => ?cores, fun _ => ⟨rfl, rfl, rfl⟩⟩
  case deviceId => decide +kernel
  case prodCfgEvents => decide +kernel
  case prodCfgSupervisor => decide +kernel
  case telemetry => decide +kernel
  case cores => rw [coreOf_reset]; exact ⟨rfl, rfl, rfl⟩

end Sys2Proof.Machine
end

section
/-!
The frame of every command: each one's lemma of Laws/Arms.lean, by the list of `Instr.writesCopies`, `Instr.writesMem1` and
`Instr.writesReserved` that the command stands in.
-/
namespace Sys2Proof.Machine

/-- What command c may change, by the list that it stands in. -/
def Kept (c : Instr) (a b : Dev) : Prop :=
  bif c.writesCopies then Sound a b else bif c.writesMem1 then Calm a b else bif c.writesReserved then Staged a b else Quiet a b

theorem exec_kept {c : Instr} {s t : State} (h : exec c s = .next t) : Kept c s.dev t.dev := by
  cases c with
  | registerWrite => exact execRegisterWrite_sound _ _ _ h
  | epochStart => exact execEpochStart_sound _ h
  | snapHold => exact execSnapHold_quiet _ _ h
  | holdExpired => exact execHoldExpired_quiet _ h
  | commitAtHi => exact execCommitAtHi_quiet _ _ h
  | commitNextGo => exact execCommitNextGo_quiet _ h
  | commitCancelGo => exact execCommitCancelGo_quiet _ h
  | commitCutoff => exact execCommitCutoff_sound _ h
  | timebaseLoad => exact execTimebaseLoad_sound _ h
  | renderPhaseA => exact execRenderPhaseA_quiet _ h
  | ringFilled => exact execRingFilled_quiet _ _ h
  | renderReduction => exact execRenderReduction_quiet _ h
  | renderPhaseB => exact execRenderPhaseB_quiet _ h
  | renderMargin => exact execRenderMargin_quiet _ h
  | zeroCrossing => exact execZeroCrossing_quiet _ _ _ h
  | zcTimeout => exact execZcTimeout_quiet _ _ h
  | sweepStart => exact execSweepStart_quiet _ _ h
  | enginePeriod => exact execEnginePeriod_sound _ h
  | settleCrossfadeStart => exact execSettleCrossfadeStart_quiet _ _ h
  | settleDone => exact execSettleDone_quiet _ _ h
  | cndSectionChecked => exact execCndSectionChecked_quiet _ h
  | sadmParseDone => exact execSadmParseDone_quiet _ _ _ h
  | msrcWindowTimeout => exact execMsrcWindowTimeout_quiet _ _ h
  | geoSectionChecked => exact execGeoSectionChecked_quiet _ _ h
  | shedHoldExpiry => exact execShedHoldExpiry_quiet _ _ h
  | rcParallelStart => exact execRcParallelStart_quiet _ h
  | rcReloadReady => exact execRcReloadReady_quiet _ h
  | rcSectionChecked => exact execRcSectionChecked_quiet _ h
  | captureDone => exact execCaptureDone_calm _ h
  | mpy => exact execMpy_calm _ _ _ _ _ _ _ _ _ _ h
  | macAdd => exact execMacAdd_calm _ _ _ _ _ _ _ _ _ _ h
  | msu => exact execMsu_calm _ _ _ _ _ _ _ _ _ _ h
  | mpyn => exact execMpyn_calm _ _ _ _ _ _ _ _ _ _ h
  | clr => exact execClr_calm _ _ _ _ _ _ _ h
  | rndAcc => exact execRndAcc_calm _ _ _ _ _ _ _ h
  | ldx => exact execLdx_calm _ _ _ _ _ _ _ _ h
  | ldy => exact execLdy_calm _ _ _ _ _ _ _ _ h
  | stx => exact execStx_calm _ _ _ _ _ _ _ _ h
  | sty => exact execSty_calm _ _ _ _ _ _ _ _ h
  | movReg => exact execMovReg_calm _ _ _ _ _ _ _ h
  | adda => exact execAdda_calm _ _ _ _ _ h
  | suba => exact execSuba_calm _ _ _ _ _ h
  | inca => exact execInca_calm _ _ _ _ _ h
  | deca => exact execDeca_calm _ _ _ _ _ h
  | li => exact execLi_calm _ _ _ _ _ h
  | addWrap => exact execAddWrap_calm _ _ _ _ _ _ _ _ h
  | subWrap => exact execSubWrap_calm _ _ _ _ _ _ _ _ h
  | adds => exact execAdds_calm _ _ _ _ _ _ _ _ h
  | subs => exact execSubs_calm _ _ _ _ _ _ _ _ h
  | andBits => exact execAndBits_calm _ _ _ _ _ _ _ _ h
  | orBits => exact execOrBits_calm _ _ _ _ _ _ _ _ h
  | xorBits => exact execXorBits_calm _ _ _ _ _ _ _ _ h
  | cmp => exact execCmp_calm _ _ _ _ _ _ _ _ h
  | minVal => exact execMinVal_calm _ _ _ _ _ _ _ _ h
  | maxVal => exact execMaxVal_calm _ _ _ _ _ _ _ _ h
  | absVal => exact execAbsVal_calm _ _ _ _ _ _ _ _ h
  | neg => exact execNeg_calm _ _ _ _ _ _ _ _ h
  | asl => exact execAsl_calm _ _ _ _ _ _ _ _ h
  | asr => exact execAsr_calm _ _ _ _ _ _ _ _ h
  | asrr => exact execAsrr_calm _ _ _ _ _ _ _ _ h
  | lsr => exact execLsr_calm _ _ _ _ _ _ _ _ h
  | asli => exact execAsli_calm _ _ _ _ _ _ _ _ h
  | asri => exact execAsri_calm _ _ _ _ _ _ _ _ h
  | lsri => exact execLsri_calm _ _ _ _ _ _ _ _ h
  | norm => exact execNorm_calm _ _ _ _ _ _ _ _ h
  | mova => exact execMova_calm _ _ _ _ _ _ _ _ h
  | movn => exact execMovn_calm _ _ _ _ _ _ _ _ h
  | movm => exact execMovm_calm _ _ _ _ _ _ _ _ h
  | movfa => exact execMovfa_calm _ _ _ _ _ _ _ _ h
  | xtrh => exact execXtrh_calm _ _ _ _ _ _ _ _ h
  | xtrl => exact execXtrl_calm _ _ _ _ _ _ _ _ h
  | insa => exact execInsa_calm _ _ _ _ _ _ _ _ h
  | accadd => exact execAccadd_calm _ _ _ _ _ _ _ _ h
  | accsub => exact execAccsub_calm _ _ _ _ _ _ _ _ h
  | accsh => exact execAccsh_calm _ _ _ _ _ _ _ _ h
  | bra => exact execBra_calm _ _ _ _ _ h
  | bcc => exact execBcc_calm _ _ _ _ _ _ h
  | callSub => exact execCallSub_calm _ _ _ _ _ h
  | retSub => exact execRetSub_calm _ _ _ _ h
  | jmp => exact execJmp_calm _ _ _ _ _ h
  | loopBack => exact execLoopBack_calm _ _ _ _ _ _ h
  | repImmediate => exact execRepImmediate_calm _ _ _ _ _ h
  | repRegister => exact execRepRegister_calm _ _ _ _ _ h
  | rte => exact execRte_calm _ _ _ _ h
  | endItem => exact execEndItem_calm _ _ _ _ h
  | enq => exact execEnq_calm _ _ _ _ _ h
  | enqCreditFree => exact execEnqCreditFree_calm _ _ h
  | evsig => exact execEvsig_calm _ _ _ _ _ h
  | setscale => exact execSetscale_calm _ _ _ _ _ h
  | getsr => exact execGetsr_calm _ _ _ _ _ h
  | putsr => exact execPutsr_calm _ _ _ _ _ h
  | cyc => exact execCyc_calm _ _ _ _ _ h
  | cid => exact execCid_calm _ _ _ _ _ h
  | putwb => exact execPutwb_calm _ _ _ _ _ h
  | waitw => exact execWaitw_calm _ _ _ _ h
  | waitwDone => exact execWaitwDone_calm _ _ h
  | windowReadData => exact execWindowReadData_calm _ _ _ h
  | stageInDone => exact execStageInDone_quiet _ _ h
  | itemComplete => exact execItemComplete_calm _ _ h
  | insertRelease => exact execInsertRelease_quiet _ _ h
  | itemCutoff => exact execItemCutoff_quiet _ _ h
  | dispatch => exact execDispatch_quiet _ h
  | submitGo => exact execSubmitGo_quiet _ h
  | cancel => exact execCancel_quiet _ _ h
  | cancelProd => exact execCancelProd_quiet _ _ h
  | coreGate => exact execCoreGate_quiet _ _ h
  | coreWakeDone => exact execCoreWakeDone_quiet _ _ h
  | eventRaise => exact execEventRaise_quiet _ _ h
  | pendSet => exact execPendSet_quiet _ _ h
  | pendClr => exact execPendClr_quiet _ _ h
  | maskSet => exact execMaskSet_quiet _ _ h
  | maskClr => exact execMaskClr_quiet _ _ h
  | eventOffer => exact execEventOffer_quiet _ h
  | eventHoldoffExpiry => exact execEventHoldoffExpiry_quiet _ _ h
  | mediaFrameRx => exact execMediaFrameRx_quiet _ _ _ h
  | pfcPauseExpiry => exact execPfcPauseExpiry_quiet _ _ _ h
  | supervisorFrame => exact execSupervisorFrame_quiet _ _ h
  | txPacketRelease => exact execTxPacketRelease_quiet _ _ _ h
  | txFrameStart => exact execTxFrameStart_quiet _ _ h
  | txStale => exact execTxStale_quiet _ _ _ h
  | speedStepStart => exact execSpeedStepStart_quiet _ _ h
  | stepEpoch => exact execStepEpoch_quiet _ _ h
  | linkUp => exact execLinkUp_quiet _ _ _ h
  | linkDown => exact execLinkDown_quiet _ _ h
  | stepTimeout => exact execStepTimeout_sound _ _ h
  | netSectionChecked => exact execNetSectionChecked_quiet _ h
  | delayReqTx => exact execDelayReqTx_quiet _ _ h
  | syncTx => exact execSyncTx_quiet _ _ h
  | announceTx => exact execAnnounceTx_quiet _ _ h
  | txTimestampReturn => exact execTxTimestampReturn_quiet _ _ _ _ h
  | syncTimeout => exact execSyncTimeout_quiet _ _ h
  | announceReceiptTimeout => exact execAnnounceReceiptTimeout_quiet _ _ h
  | servoRevert => exact execServoRevert_quiet _ h
  | servoAccept => exact execServoAccept_quiet _ h
  | servoDegradedLog => exact execServoDegradedLog_quiet _ h
  | tuneSpiFrame => exact execTuneSpiFrame_quiet _ h
  | pllLockDone => exact execPllLockDone_sound _ _ h
  | relock => exact execRelock_quiet _ _ h
  | syncInEdge => exact execSyncInEdge_quiet _ _ h
  | refLoss => exact execRefLoss_quiet _ _ h
  | refValid => exact execRefValid_quiet _ _ h
  | pllReacquireDone => exact execPllReacquireDone_quiet _ _ h
  | holdoverDecision => exact execHoldoverDecision_quiet _ h
  | refRevert => exact execRefRevert_quiet _ h
  | pllNoReacquire => exact execPllNoReacquire_quiet _ _ h
  | sapFrame => exact execSapFrame_quiet _ _ _ _ h
  | sapNoClock => exact execSapNoClock_quiet _ _ h
  | sapRealign => exact execSapRealign_quiet _ _ _ h
  | sapPortStopped => exact execSapPortStopped_quiet _ _ h
  | followLock => exact execFollowLock_quiet _ h
  | timebaseToFollow => exact execTimebaseToFollow_quiet _ h
  | timebaseToPtp => exact execTimebaseToPtp_quiet _ h
  | timebaseReload => exact execTimebaseReload_quiet _ h
  | xbarGrant => exact execXbarGrant_quiet _ _ h
  | xbarResponse => exact execXbarResponse_sound _ _ _ _ _ h
  | masterReset => exact execMasterReset_quiet _ _ h
  | remap => exact execRemap_quiet _ h
  | dramRequest => exact execDramRequest_quiet _ _ _ _ _ _ _ h
  | dramRefresh => exact execDramRefresh_quiet _ _ h
  | retrainingPause => exact execRetrainingPause_quiet _ _ _ h
  | powerDownEntry => exact execPowerDownEntry_quiet _ _ _ h
  | selfRefreshEntry => exact execSelfRefreshEntry_quiet _ _ h
  | selfRefreshExit => exact execSelfRefreshExit_quiet _ _ h
  | memInit => exact execMemInit_sound _ _ _ h
  | twinEpochFrameRx => exact execTwinEpochFrameRx_quiet _ _ _ _ h
  | joinRequest => exact execJoinRequest_quiet _ _ _ h
  | joinRequestTx => exact execJoinRequestTx_quiet _ h
  | joinStart => exact execJoinStart_quiet _ _ _ _ h
  | joinStop => exact execJoinStop_quiet _ _ _ h
  | stateFrameRx => exact execStateFrameRx_staged _ _ _ _ h
  | joinTimeout => exact execJoinTimeout_quiet _ h
  | peerActiveChange => exact execPeerActiveChange_quiet _ _ h
  | outputClaim => exact execOutputClaim_quiet _ h
  | claimConfirm => exact execClaimConfirm_quiet _ h
  | seniorConflictRelease => exact execSeniorConflictRelease_quiet _ h
  | claimBackoff => exact execClaimBackoff_quiet _ h
  | watchdogRelease => exact execWatchdogRelease_quiet _ h
  | rearm => exact execRearm_quiet _ h
  | hardFault => exact execHardFault_quiet _ _ _ _ _ h
  | moonTakeover => exact execMoonTakeover_quiet _ _ _ h
  | moonReqHi => exact execMoonReqHi_quiet _ _ h
  | patrolAdvance => exact execPatrolAdvance_quiet _ _ _ h
  | porstRelease => exact execPorstRelease_sound _ _ h
  | dramWipeDone => exact execDramWipeDone_sound _ h
  | bootComplete => exact execBootComplete_sound _ h
  | autoConfirm => exact execAutoConfirm_quiet _ h
  | confirmGo => exact execConfirmGo_quiet _ h
  | reloadGo => exact execReloadGo_staged _ h
  | reloadReady => exact execReloadReady_quiet _ h
  | reloadAbandon => exact execReloadAbandon_quiet _ h
  | reloadRefused => exact execReloadRefused_quiet _ _ _ h
  | hello => exact execHello_quiet _ _ _ _ h
  | request => exact execRequest_quiet _ _ _ _ h
  | readCmd => exact execReadCmd_quiet _ _ _ h
  | writeCmd => exact execWriteCmd_sound _ _ _ h
  | commitAt => exact execCommitAt_quiet _ _ h
  | commitNext => exact execCommitNext_quiet _ h
  | commitCancel => exact execCommitCancel_quiet _ h
  | commitCommandResult => exact execCommitCommandResult_quiet _ h
  | erase => exact execErase_quiet _ _ _ h
  | upload => exact execUpload_quiet _ _ _ h
  | bankCrc => exact execBankCrc_quiet _ _ _ h
  | flashOpDone => exact execFlashOpDone_quiet _ _ h
  | reload => exact execReload_staged _ h
  | abandon => exact execAbandon_quiet _ h
  | confirm => exact execConfirm_quiet _ h
  | close => exact execClose_quiet _ h
  | flashErase => exact execFlashErase_quiet _ _ _ h
  | flashWrite => exact execFlashWrite_quiet _ _ _ h
  | flashCrc => exact execFlashCrc_quiet _ _ _ h
  | sessionIdleTimeout => exact execSessionIdleTimeout_quiet _ _ h
  | regRead => exact execRegRead_quiet _ _ _ _ h
  | regWrite => exact execRegWrite_sound _ _ _ _ h
  | mboxPut => exact execMboxPut_quiet _ _ _ _ h
  | mboxGet => exact execMboxGet_quiet _ _ h
  | boot => exact execBoot_sound _ _ h
  | perfFreeze => exact execPerfFreeze_quiet _ h
  | perfRelease => exact execPerfRelease_quiet _ h
  | perfClear => exact execPerfClear_quiet _ h
  | errorRaise => exact execErrorRaise_quiet _ _ _ _ _ h
  | errorCollect => exact execErrorCollect_quiet _ h
  | mirrorWrite => exact execMirrorWrite_quiet _ _ h
  | lcsRequest => exact execLcsRequest_sound _ _ _ _ h
  | fuseProgram => exact execFuseProgram_quiet _ _ _ _ h
  | fuseRevoke => exact execFuseRevoke_quiet _ _ _ _ h
  | jtagInstruction => exact execJtagInstruction_quiet _ _ _ _ h
  | standbyResetRelease => exact execStandbyResetRelease_quiet _ _ _ h
  | standbyResetAssert => exact execStandbyResetAssert_sound _ h
  | railInWindow => exact execRailInWindow_quiet _ _ _ h
  | railQualified => exact execRailQualified_sound _ _ h
  | railSequenceTimeout => exact execRailSequenceTimeout_sound _ _ _ h
  | railFault => exact execRailFault_sound _ _ _ h
  | pmbAlert => exact execPmbAlert_sound _ _ h
  | telemetryPoll => exact execTelemetryPoll_sound _ _ h
  | thermalSample => exact execThermalSample_sound _ _ h
  | thermalAlarmClear => exact execThermalAlarmClear_quiet _ h
  | porstFall => exact execPorstFall_sound _ h
  | linkFlitReplay => exact execLinkFlitReplay_quiet _ _ _ h
  | twinFrameCrcError => exact execTwinFrameCrcError_quiet _ _ h
  | mgtFrameRx => exact execMgtFrameRx_quiet _ _ h
  | oscTunePwmPeriod => exact execOscTunePwmPeriod_quiet _ h
  | pwrExtPowerGood => exact execPwrExtPowerGood_sound _ h
  | testModeChange => exact execTestModeChange_sound _ _ h

/-- b has a's configuration, snapshot, epoch and memories, but MEM1 and the standby tables. -/
structure Framed (a b : Dev) : Prop where
  /-- Shadow copies. -/
  shadow : b.regs.shadow = a.regs.shadow
  /-- Active copies. -/
  act : b.regs.act = a.regs.act
  /-- The snapshot bank. -/
  snap : b.regs.snap = a.regs.snap
  /-- Every memory but MEM1 and the standby tables. -/
  mem : { b.mem with mem1 := a.mem.mem1, reserved := a.mem.reserved, standby := a.mem.standby } = a.mem
  /-- The epoch. -/
  epoch : b.epc.epoch = a.epc.epoch
  /-- Engine periods of the epoch. -/
  period : b.epc.period = a.epc.period

theorem Calm.framed {a b : Dev} (h : Calm a b) : Framed a b :=
  ⟨h.shadow, h.act, h.snap, by rw [← h.mem], h.epoch, h.period⟩

theorem Calm.reserved {a b : Dev} (h : Calm a b) : b.mem.reserved = a.mem.reserved := by rw [← h.mem]

theorem Staged.framed {a b : Dev} (h : Staged a b) : Framed a b :=
  ⟨h.shadow, h.act, h.snap, by rw [← h.mem], h.epoch, h.period⟩

theorem Staged.mem1 {a b : Dev} (h : Staged a b) : b.mem.mem1 = a.mem.mem1 := by rw [← h.mem]

/-- Outside the lists of writers a command keeps the configuration, and MEM1 is written by the two lists that name it alone. -/
theorem Kept.framed {c : Instr} {a b : Dev} (h : Kept c a b) (hc : c.writesCopies = false) : Framed a b ∧
    (c.writesMem1 = false → b.mem.mem1 = a.mem.mem1) ∧ (c.writesReserved = false → b.mem.reserved = a.mem.reserved) := by
  rw [Kept, hc, cond_false] at h
  cases hm : c.writesMem1 with
  | true =>
    have calm : Calm a b := by simpa only [hm, cond_true] using h
    exact ⟨calm.framed, nofun, fun _ => calm.reserved⟩
  | false =>
    cases hr : c.writesReserved with
    | true =>
      have staged : Staged a b := by simpa only [hm, hr, cond_true, cond_false] using h
      exact ⟨staged.framed, fun _ => staged.mem1, nofun⟩
    | false =>
      have quiet : Quiet a b := by simpa only [hm, hr, cond_false] using h
      exact ⟨quiet.calm.framed, fun _ => quiet.staged.mem1, fun _ => quiet.calm.reserved⟩

theorem sramByte_congr {a b : Dev} {o : Nat} (h : inLogRing o = false) (sram : b.mem.sram = a.mem.sram) :
    sramByte b o = sramByte a o := by
  simp only [sramByte, h, sram, Bool.false_eq_true, if_false]

/-- Above the bulk lines MEM0 is the memory's own and the RC region's. -/
theorem mem0Byte_congr {a b : Dev} {o : Nat} (h : 0x08000000 ≤ o) (mem0 : b.mem.mem0 = a.mem.mem0)
    (rcRegion : b.mem.rcRegion = a.mem.rcRegion) (epoch : b.epc.epoch = a.epc.epoch) : mem0Byte b o = mem0Byte a o := by
  simp only [mem0Byte, Nat.not_lt.mpr h, if_false, mem0, rcRegion, epoch]

/-- Settles O9: every command's frame (`exec_kept`), read for the commands outside `Instr.writesCopies`. -/
theorem onlyTheseCommandsChangeConfiguration : Obligations.OnlyTheseCommandsChangeConfiguration := by
  intro c s t hc h
  obtain ⟨framed, mem1, reserved⟩ := (exec_kept h).framed hc
  obtain ⟨shadow, act, snap, mem, epoch, period⟩ := framed
  have sram : t.dev.mem.sram = s.dev.mem.sram := by rw [← mem]
  have mem0 : t.dev.mem.mem0 = s.dev.mem.mem0 := by rw [← mem]
  have rcRegion : t.dev.mem.rcRegion = s.dev.mem.rcRegion := by rw [← mem]
  exact ⟨shadow, act, snap, fun o ho => sramByte_congr ho sram, fun o ho => mem0Byte_congr ho mem0 rcRegion epoch, sram, mem0,
    by rw [← mem], by rw [← mem], rcRegion, epoch, period, mem1, reserved⟩

end Sys2Proof.Machine
end

section
/-!
The pending and mask bits of the event sources (R235, R240, R241): what a raise, PEND_CLR, MASK_SET and MASK_CLR do to the bit of every
source.
-/
namespace Sys2Proof.Machine

/-- Bits kept 32 to a register: after a write of bit s, bit k is the one written exactly if it is bit s. -/
theorem liveB_liveSetB_array {base : Nat → Nat} (inj : ∀ i j, base i = base j → i = j) (d : Dev) (s k : Nat) (v : Bool) :
    liveB (liveSetB d (base (s / 32)) (s % 32) v) (base (k / 32)) (k % 32) =
      if k = s then v else liveB d (base (k / 32)) (k % 32) := by
  have lt : s % 32 < 32 := Nat.mod_lt _ (by decide)
  rw [liveB, liveB, liveGet_liveSetB]
  by_cases word : k / 32 = s / 32
  · rw [word, if_pos rfl, bit_setBit _ _ _ lt]
    exact if_congr (by omega) rfl rfl
  · rw [if_neg (fun e => word (inj _ _ e)), if_neg (fun e => word (by rw [e]))]

theorem offEvtPend_inj (i j : Nat) (h : offEvtPend i = offEvtPend j) : i = j := by
  unfold offEvtPend at h
  omega

theorem offEvtMask_inj (i j : Nat) (h : offEvtMask i = offEvtMask j) : i = j := by
  unfold offEvtMask at h
  omega

/-- A raise of a pending source is counted in EVT.COALESCE. -/
theorem raiseEvt_coalesce (d : Dev) (s : Nat) : liveGet (raiseEvt d s) offEvtCoalesce =
    liveGet d offEvtCoalesce + (if evtPending d s then 1 else 0) := by
  have other : offEvtCoalesce ≠ offEvtPend (s / 32) := by unfold offEvtCoalesce offEvtPend; omega
  unfold raiseEvt evtPending
  split
  · rw [liveGet_bump, if_pos rfl]
  · simp [liveGet_liveSetB, other]

theorem raiseOwn_free {d : Dev} {s : Nat} (h : fatal d = false ∨ s = 4) : raiseOwn d s = raiseEvt d s := by
  rcases h with h | h <;> simp [raiseOwn, h]

theorem raiseOwn_fatal {d : Dev} {s : Nat} (h : fatal d = true) (other : s ≠ 4) : raiseOwn d s = d := by
  simp [raiseOwn, h, other]

/-- What PEND_CLR does. -/
theorem evtPending_clear (d : Dev) (s k : Nat) : evtPending (liveSetB d (offEvtPend (s / 32)) (s % 32) false) k =
    (evtPending d k && decide (k ≠ s)) := by
  rw [evtPending, liveB_liveSetB_array offEvtPend_inj, evtPending]
  by_cases h : k = s <;> simp [h]

/-- What MASK_SET and MASK_CLR do. -/
theorem evtMasked_write (d : Dev) (s k : Nat) (v : Bool) : evtMasked (liveSetB d (offEvtMask (s / 32)) (s % 32) v) k =
    if k = s then v else evtMasked d k := liveB_liveSetB_array offEvtMask_inj d s k v

/-- EVENT_RAISE, for a source that exists. -/
theorem runs_eventRaise {s : State} {src : Nat} {P : Dev → Prop} (h : src < 1024)
    (hp : P (if src ≤ 40 then raiseOwn s.dev src else s.dev)) : Runs (.eventRaise src) s P :=
  runs_ranIf (f := fun d => if src ≤ 40 then raiseOwn d src else d) rfl (by simpa using h) hp

/-- Settles O10: each command writes one bit (`liveB_liveSetB_array`) or counts a repeated raise (`raiseEvt_coalesce`). -/
theorem eventPendingAndMaskBits : Obligations.EventPendingAndMaskBits := by
  refine ⟨fun s src h => ?pendSet, fun s src h free => ?raise, fun s src h dead other => ?raiseFatal, fun s src high h => ?reserved,
    fun s src h => ?pendClr, fun s src h => ?maskSet, fun s src h => ?maskClr⟩
  case pendSet =>
    exact runs_ranIf (f := fun d => raiseEvt d src) rfl (by simpa using h)
      ⟨raiseEvt_pending _ _, raiseEvt_coalesce _ _, raiseEvt_only _ _⟩
  case raise =>
    refine runs_eventRaise (by omega) ?_
    rw [if_pos h, raiseOwn_free free]
    exact ⟨raiseEvt_pending _ _, raiseEvt_coalesce _ _, raiseEvt_only _ _⟩
  case raiseFatal =>
    exact runs_eventRaise (by omega) (by rw [if_pos h, raiseOwn_fatal dead other])
  case reserved =>
    exact runs_eventRaise h (by rw [if_neg (by omega)])
  case pendClr =>
    exact runs_ranIf (f := fun d => liveSetB d (offEvtPend (src / 32)) (src % 32) false) rfl (by simpa using h)
      ⟨evtPending_clear _ _, .liveSetB (by simp) (.refl _ _)⟩
  case maskSet =>
    exact runs_ranIf (f := fun d => liveSetB d (offEvtMask (src / 32)) (src % 32) true) rfl (by simpa using h)
      ⟨fun k => by rw [evtMasked_write]; by_cases e : k = src <;> simp [e], .liveSetB (by simp) (.refl _ _)⟩
  case maskClr =>
    exact runs_ranIf (f := fun d => liveSetB d (offEvtMask (src / 32)) (src % 32) false) rfl (by simpa using h)
      ⟨fun k => by rw [evtMasked_write]; by_cases e : k = src <;> simp [e], .liveSetB (by simp) (.refl _ _)⟩

end Sys2Proof.Machine
end

section
/-!
Raising an error (R422 to R429): an equation of `raiseErr` for each of its cases, what the effects of a Fatal error leave in the
registers, and how a raise joins the pending reports.
-/
namespace Sys2Proof.Machine

/-! ### Saturating counts -/

theorem bumpSat_eq (d : Dev) (o hi lo : Nat) : bumpSat d o hi lo =
    if liveF d o hi lo + 1 < 2 ^ (hi - lo + 1) then liveSetF d o hi lo (liveF d o hi lo + 1) else d := rfl

@[simp] theorem bumpSat_errUnit (d : Dev) (o hi lo : Nat) : (bumpSat d o hi lo).err = d.err := by
  rw [bumpSat_eq]
  split <;> rfl

@[simp] theorem bumpSat_epc (d : Dev) (o hi lo : Nat) : (bumpSat d o hi lo).epc = d.epc := by
  rw [bumpSat_eq]
  split <;> rfl

theorem liveGet_bumpSat_other (d : Dev) {o p : Nat} (hi lo : Nat) (h : p ≠ o) : liveGet (bumpSat d o hi lo) p = liveGet d p := by
  rw [bumpSat_eq]
  split
  · rw [liveGet_liveSetF, if_neg h]
  · rfl

theorem liveF_lt (d : Dev) (o hi lo : Nat) : liveF d o hi lo < 2 ^ (hi - lo + 1) := bits_lt _ _ _

theorem liveF_bumpSat (d : Dev) (o : Nat) {hi lo : Nat} (h : lo ≤ hi) (hh : hi < 32) :
    liveF (bumpSat d o hi lo) o hi lo = min (2 ^ (hi - lo + 1) - 1) (liveF d o hi lo + 1) := by
  have lt := liveF_lt d o hi lo
  rw [bumpSat_eq]
  split
  · next room =>
    rw [liveF_liveSetF_same _ _ _ h hh, Nat.mod_eq_of_lt room]
    omega
  · omega

theorem bumpSat_only (d : Dev) (o hi lo : Nat) : OnlyWords [o] d (bumpSat d o hi lo) := by
  rw [bumpSat_eq]
  split
  · exact .liveSetF (by simp) (.refl _ _)
  · exact .refl _ _

/-! ### The effects of a Fatal error (R422) -/

section
variable {f : Nat → Nat} {i : Nat} {v : Bool}

/-- Writes of one bit of several registers leave every other register. -/
theorem liveGet_foldl_liveSetB_other {o : Nat} : ∀ (l : List Nat) (d : Dev), (∀ p ∈ l, o ≠ f p) →
    liveGet (l.foldl (fun d p => liveSetB d (f p) i v) d) o = liveGet d o
  | [], _, _ => rfl
  | p :: t, d, h => by
    rw [List.foldl_cons, liveGet_foldl_liveSetB_other t _ (fun q hq => h q (List.mem_cons_of_mem _ hq)), liveGet_liveSetB,
      if_neg (h p List.mem_cons_self)]

/-- A bit that holds the value written keeps it. -/
theorem liveB_foldl_liveSetB_kept (hi : i < 32) {o : Nat} : ∀ (l : List Nat) (d : Dev), liveB d o i = v →
    liveB (l.foldl (fun d p => liveSetB d (f p) i v) d) o i = v
  | [], _, h => h
  | p :: t, d, h => by
    refine liveB_foldl_liveSetB_kept hi t _ ?_
    rw [liveB, liveGet_liveSetB]
    split
    · next e => rw [bit_setBit_same _ _ hi]
    · exact h

theorem liveB_foldl_liveSetB (hi : i < 32) {p : Nat} {l : List Nat} {d : Dev} (h : p ∈ l) :
    liveB (l.foldl (fun d p => liveSetB d (f p) i v) d) (f p) i = v := by
  induction l generalizing d with
  | nil => nomatch h
  | cons q t ih =>
    rw [List.foldl_cons]
    by_cases later : p ∈ t
    · exact ih later
    · obtain rfl : p = q := (List.mem_cons.mp h).resolve_right later
      exact liveB_foldl_liveSetB_kept hi t _ (liveB_liveSetB_same _ _ _ hi)

end

theorem offTwnStatus_ne_offSapPortStatus (p : Nat) : offTwnStatus ≠ offSapPortStatus p := by
  unfold offTwnStatus offSapPortStatus
  omega

/-- The bits of ACTIVE_OUT fall and every serial port's driver is off, before what the ports send is dropped. -/
def portsOff (d : Dev) : Dev :=
  (List.range 32).foldl (fun d p => liveSetB d (offSapPortStatus p) 30 false)
    (liveSetB (liveSetB d offTwnStatus 2 false) offTwnStatus 4 false)

/-- The ports drop what they send, and the claim is no longer confirmed. -/
def outputsDropped (d : Dev) : Dev :=
  { d with sap := { d.sap with ports := d.sap.ports.map fun e => (e.1, { e.2 with dout := [], wire := [], lastBit := none }) }
           twn := { d.twn with confirmed := false } }

theorem releaseOut_eq (d : Dev) : releaseOut d = outputsDropped (portsOff d) := by
  unfold releaseOut
  extract_lets status ports
  have h : ports = portsOff d := rfl
  clear_value ports
  rw [← h]
  rfl

theorem liveGet_outputsDropped (d : Dev) (o : Nat) : liveGet (outputsDropped d) o = liveGet d o := rfl

theorem outputsDropped_err (d : Dev) : (outputsDropped d).err = d.err := rfl

theorem liveGet_releaseOut_other (d : Dev) {o : Nat} (h : o ≠ offTwnStatus) (ports : ∀ p < 32, o ≠ offSapPortStatus p) :
    liveGet (releaseOut d) o = liveGet d o := by
  rw [releaseOut_eq, liveGet_outputsDropped, portsOff,
    liveGet_foldl_liveSetB_other _ _ (fun p hp => ports p (List.mem_range.mp hp)), liveGet_liveSetB, if_neg h, liveGet_liveSetB,
    if_neg h]

theorem liveGet_releaseOut_twnStatus (d : Dev) :
    liveGet (releaseOut d) offTwnStatus = setBit (setBit (liveGet d offTwnStatus) 2 false) 4 false := by
  rw [releaseOut_eq, liveGet_outputsDropped, portsOff,
    liveGet_foldl_liveSetB_other _ _ (fun p _ => offTwnStatus_ne_offSapPortStatus p), liveGet_liveSetB, if_pos rfl,
    liveGet_liveSetB, if_pos rfl]

theorem liveB_releaseOut_port (d : Dev) {p : Nat} (h : p < 32) : liveB (releaseOut d) (offSapPortStatus p) 30 = false := by
  rw [releaseOut_eq, liveB, liveGet_outputsDropped, portsOff]
  exact liveB_foldl_liveSetB (f := offSapPortStatus) (by decide) (List.mem_range.mpr h)

theorem foldl_liveSetB_errUnit {f : Nat → Nat} {i : Nat} {v : Bool} : ∀ (l : List Nat) (d : Dev),
    (l.foldl (fun d p => liveSetB d (f p) i v) d).err = d.err
  | [], _ => rfl
  | p :: t, d => (foldl_liveSetB_errUnit t _).trans (liveSetB_err d (f p) i v)

@[simp] theorem releaseOut_errUnit (d : Dev) : (releaseOut d).err = d.err := by
  rw [releaseOut_eq, outputsDropped_err, portsOff, foldl_liveSetB_errUnit, liveSetB_err, liveSetB_err]

/-- What the effects of a Fatal error write first: the code and source of the first one (R423). -/
def firstFatal (d : Dev) (source code : Nat) : Dev :=
  if fatal d then d else liveSetB (liveSet d offErrFatal (BitVec.ofNat 32 (code * 65536 + source))) offErrStatus 3 true

/-- The word that OSC_TUNE returns to (R422). -/
def tuneCentre (d : Dev) : Word := BitVec.ofNat 32 (2 ^ ((if liveB d offClkTuneCfg 1 then liveF d offClkTuneCfg 12 8 else 16) - 1))

/-- WD's ready list empties (R242). -/
def emptied (d : Dev) : Dev := { d with wd := { d.wd with ready := [], started := false } }

theorem fatalEffects_eq (d : Dev) (source code : Nat) : fatalEffects d source code =
    liveSet (emptied (releaseOut (firstFatal d source code))) offClkTuneCode
      (tuneCentre (emptied (releaseOut (firstFatal d source code)))) := by
  unfold fatalEffects
  extract_lets first released
  have hFirst : first = firstFatal d source code := rfl
  have hReleased : released = releaseOut first := rfl
  clear_value first released
  subst hFirst
  rw [← hReleased]
  rfl

@[simp] theorem liveGet_emptied (d : Dev) (o : Nat) : liveGet (emptied d) o = liveGet d o := rfl

@[simp] theorem emptied_err (d : Dev) : (emptied d).err = d.err := rfl

@[simp] theorem firstFatal_errUnit (d : Dev) (source code : Nat) : (firstFatal d source code).err = d.err := by
  unfold firstFatal
  split <;> rfl

@[simp] theorem fatalEffects_errUnit (d : Dev) (source code : Nat) : (fatalEffects d source code).err = d.err := by
  rw [fatalEffects_eq, liveSet_err, emptied_err, releaseOut_errUnit, firstFatal_errUnit]

/-- Everything but OSC_TUNE's code reads as after the release. -/
theorem liveGet_fatalEffects (d : Dev) (source code : Nat) {o : Nat} (h : o ≠ offClkTuneCode) :
    liveGet (fatalEffects d source code) o = liveGet (releaseOut (firstFatal d source code)) o := by
  rw [fatalEffects_eq, liveGet_liveSet_other _ _ h, liveGet_emptied]

theorem offErr_ne_offSapPortStatus {o : Nat} (h : 0x1000000 ≤ o) : ∀ p < 32, o ≠ offSapPortStatus p := by
  intro p hp
  unfold offSapPortStatus
  omega

theorem liveGet_fatalEffects_err (d : Dev) (source code : Nat) {o : Nat} (h : 0x1000000 ≤ o) :
    liveGet (fatalEffects d source code) o = liveGet (firstFatal d source code) o := by
  rw [liveGet_fatalEffects _ _ _ (by unfold offClkTuneCode; omega),
    liveGet_releaseOut_other _ (by unfold offTwnStatus; omega) (offErr_ne_offSapPortStatus h)]

/-- The class counts are none of the registers of the effects. -/
theorem liveGet_fatalEffects_count (d : Dev) (source code k : Nat) :
    liveGet (fatalEffects d source code) (offErrClassCount k) = liveGet d (offErrClassCount k) := by
  rw [liveGet_fatalEffects_err _ _ _ (by unfold offErrClassCount; omega), firstFatal]
  split
  · rfl
  · rw [liveGet_liveSetB, if_neg (by unfold offErrClassCount offErrStatus; omega),
      liveGet_liveSet_other _ _ (by unfold offErrClassCount offErrFatal; omega)]

@[simp] theorem fatal_fatalEffects (d : Dev) (source code : Nat) : fatal (fatalEffects d source code) = true := by
  rw [fatal, liveB, liveGet_fatalEffects_err _ _ _ (by decide), firstFatal]
  split
  · next h => exact h
  · exact liveB_liveSetB_same _ _ _ (by decide)

/-- The first Fatal error is recorded, a later one is not (R423). -/
theorem errFatal_fatalEffects (d : Dev) (source code : Nat) : liveGet (fatalEffects d source code) offErrFatal =
    if fatal d then liveGet d offErrFatal else BitVec.ofNat 32 (code * 65536 + source) := by
  rw [liveGet_fatalEffects_err _ _ _ (by decide), firstFatal]
  split
  · rfl
  · rw [liveGet_liveSetB, if_neg (by decide), liveGet_liveSet_same]

theorem twnStatus_fatalEffects (d : Dev) (source code : Nat) :
    liveB (fatalEffects d source code) offTwnStatus 2 = false ∧ liveB (fatalEffects d source code) offTwnStatus 4 = false := by
  simp only [liveB, liveGet_fatalEffects d source code (o := offTwnStatus) (by decide), liveGet_releaseOut_twnStatus]
  exact ⟨by rw [bit_setBit _ _ _ (by decide), if_neg (by decide), bit_setBit_same _ _ (by decide)], bit_setBit_same _ _ (by decide)⟩

theorem portStatus_fatalEffects (d : Dev) (source code : Nat) {p : Nat} (h : p < 32) :
    liveB (fatalEffects d source code) (offSapPortStatus p) 30 = false := by
  have tune : offSapPortStatus p ≠ offClkTuneCode := by unfold offSapPortStatus offClkTuneCode; omega
  rw [liveB, liveGet_fatalEffects _ _ _ tune]
  exact liveB_releaseOut_port _ h

/-! ### The cases of a raise (R425, R426, R429) -/

/-- The epochs that a Contained raise keeps of its source and code. -/
def keptEpochs (d : Dev) (source code : Nat) : List Nat := mapGet (fun _ => ([] : List Nat)) d.err.history (source * 65536 + code)

/-- The third Contained raise of a source and code within 3,000 epochs (R429). -/
def Escalates (d : Dev) (source code : Nat) : Prop :=
  classOf code = 2 ∧ (keptEpochs d source code).length = 2 ∧ d.epc.epoch - (keptEpochs d source code).getD 1 0 < 3000

/-- The epochs kept of the Contained raises are h. -/
def setHistory (d : Dev) (h : List (Nat × List Nat)) : Dev := { d with err := { d.err with history := h } }

@[simp] theorem setHistory_history (d : Dev) (h : List (Nat × List Nat)) : (setHistory d h).err.history = h := rfl

/-- A Contained raise keeps its epoch with the one before. -/
def epochKept (d : Dev) (source code : Nat) : Dev :=
  if classOf code = 2 then
    setHistory d (mapSet (fun _ => []) d.err.history (source * 65536 + code) (d.epc.epoch :: (keptEpochs d source code).take 1))
  else d

/-- The pending reports are l. -/
def setReports (d : Dev) (l : List ErrReport) : Dev := { d with err := { d.err with reports := l } }

/-- Pending reports after report r joins them: it adds to the one of its source and code, or is a report of its own. -/
def joinReports (l : List ErrReport) (r : ErrReport) : List ErrReport := (mergeReport l r.source r.code).getD (l ++ [r])

@[simp] theorem setReports_liveGet (d : Dev) (l : List ErrReport) (o : Nat) : liveGet (setReports d l) o = liveGet d o := rfl

@[simp] theorem setReports_fatal (d : Dev) (l : List ErrReport) : fatal (setReports d l) = fatal d := rfl

@[simp] theorem epochKept_liveGet (d : Dev) (source code o : Nat) : liveGet (epochKept d source code) o = liveGet d o := by
  unfold epochKept
  split <;> rfl

@[simp] theorem epochKept_fatal (d : Dev) (source code : Nat) : fatal (epochKept d source code) = fatal d := by
  rw [fatal, fatal, liveB, liveB, epochKept_liveGet]

@[simp] theorem epochKept_actB (d : Dev) (source code o i : Nat) : actB (epochKept d source code) o i = actB d o i := by
  unfold epochKept
  split <;> rfl

@[simp] theorem epochKept_epc (d : Dev) (source code : Nat) : (epochKept d source code).epc = d.epc := by
  unfold epochKept
  split <;> rfl

/-- Of the error unit a raise changes the history before it counts, and no more. -/
theorem epochKept_err (d : Dev) (source code : Nat) :
    (epochKept d source code).err = { d.err with history := (epochKept d source code).err.history } := by
  unfold epochKept
  split <;> rfl

theorem epochKept_rest (d : Dev) (source code : Nat) : epochKept d source code = { d with err := (epochKept d source code).err } := by
  unfold epochKept
  split <;> rfl

theorem epochKept_other {d : Dev} {source code : Nat} (h : classOf code ≠ 2) : epochKept d source code = d := by
  rw [epochKept, if_neg h]

theorem epochKept_history {d : Dev} {source code : Nat} (h : classOf code = 2) :
    mapGet (fun _ => []) (epochKept d source code).err.history (source * 65536 + code) =
      d.epc.epoch :: (keptEpochs d source code).take 1 := by
  rw [epochKept, if_pos h, setHistory_history, mapGet_mapSet_self]

/-- The device once a raise is counted in class cls. -/
def counted (d : Dev) (source code cls : Nat) : Dev := bumpSat (epochKept d source code) (offErrClassCount cls) 31 0

theorem counted_err (d : Dev) (source code cls : Nat) : (counted d source code cls).err = (epochKept d source code).err :=
  bumpSat_errUnit _ _ _ _

theorem counted_reports (d : Dev) (source code cls : Nat) : (counted d source code cls).err.reports = d.err.reports := by
  rw [counted_err, epochKept_err]

@[simp] theorem counted_epc (d : Dev) (source code cls : Nat) : (counted d source code cls).epc = d.epc :=
  (bumpSat_epc _ _ _ _).trans (epochKept_epc _ _ _)

theorem counted_count (d : Dev) (source code cls : Nat) : liveF (counted d source code cls) (offErrClassCount cls) 31 0 =
    min (2 ^ 32 - 1) (liveF d (offErrClassCount cls) 31 0 + 1) := by
  rw [counted, liveF_bumpSat _ _ (by decide) (by decide), liveF, epochKept_liveGet]
  rfl

theorem counted_other (d : Dev) (source code cls : Nat) {o : Nat} (h : o ≠ offErrClassCount cls) :
    liveGet (counted d source code cls) o = liveGet d o := by
  rw [counted, liveGet_bumpSat_other _ _ _ h, epochKept_liveGet]

theorem fatal_counted (d : Dev) (source code cls : Nat) : fatal (counted d source code cls) = fatal d := by
  rw [fatal, fatal, liveB, liveB, counted_other]
  unfold offErrStatus offErrClassCount
  omega

theorem ErrOnly.epc {a b : Dev} (h : ErrOnly a b) : b.epc = a.epc := by
  have rest := congrArg Dev.epc h.rest
  exact rest

@[simp] theorem fatalEffects_epc (d : Dev) (source code : Nat) : (fatalEffects d source code).epc = d.epc :=
  (fatalEffects_err source code (.refl d)).epc

/-- The device once a raise that is not escalated has been counted and, of a Fatal code, has had its effects. -/
def raised (d : Dev) (source code : Nat) : Dev :=
  if classOf code = 3 then fatalEffects (counted d source code 3) source code else counted d source code (classOf code)

theorem raised_fatal {d : Dev} {source code : Nat} (h : classOf code = 3) :
    raised d source code = fatalEffects (counted d source code 3) source code := if_pos h

theorem raised_other {d : Dev} {source code : Nat} (h : classOf code ≠ 3) :
    raised d source code = counted d source code (classOf code) := if_neg h

section
variable {d : Dev} {source code : Nat} (a0 a1 : Word)

theorem raiseErr_escalated (h : Escalates d source code) : raiseErr d source code a0 a1 =
    setReports (fatalEffects (counted d source code 3) source code)
      (d.err.reports ++ [⟨source, code, 3, true, d.epc.epoch, 1, a0, a1⟩]) := by
  have reports : (fatalEffects (counted d source code 3) source code).err.reports = d.err.reports := by
    rw [fatalEffects_errUnit, counted_reports]
  have epoch : (fatalEffects (counted d source code 3) source code).epc.epoch = d.epc.epoch := by
    rw [fatalEffects_epc, counted_epc]
  unfold raiseErr
  extract_lets cls key old esc err kept count e
  have he : e = fatalEffects (counted d source code 3) source code := rfl
  have hesc : esc := h
  clear_value e
  rw [if_pos hesc, ← reports, ← epoch, ← he]
  rfl

theorem raised_reports (d : Dev) (source code : Nat) : (raised d source code).err.reports = d.err.reports := by
  unfold raised
  split
  · rw [fatalEffects_errUnit, counted_reports]
  · rw [counted_reports]

@[simp] theorem raised_epc (d : Dev) (source code : Nat) : (raised d source code).epc = d.epc := by
  unfold raised
  split
  · rw [fatalEffects_epc, counted_epc]
  · rw [counted_epc]

theorem raised_actB (d : Dev) (source code o i : Nat) (h : classOf code ≠ 3) : actB (raised d source code) o i = actB d o i := by
  rw [raised_other h, counted, bumpSat_eq]
  split
  · exact epochKept_actB _ _ _ _ _
  · exact epochKept_actB _ _ _ _ _

/-- The pending reports after a raise that is not escalated: a Corrected raise that ERR.CTRL does not have logged is none. -/
def plainReports (d : Dev) (source code : Nat) : List ErrReport :=
  if classOf code = 0 ∧ actB d offErrCtrl 0 = false then d.err.reports
  else joinReports d.err.reports ⟨source, code, classOf code, false, d.epc.epoch, 1, a0, a1⟩

theorem raiseErr_plain (h : ¬Escalates d source code) :
    raiseErr d source code a0 a1 = setReports (raised d source code) (plainReports a0 a1 d source code) := by
  have unlogged : (classOf code = 0 ∧ actB d offErrCtrl 0 = false) ↔
      (classOf code = 0 ∧ actB (raised d source code) offErrCtrl 0 = false) :=
    and_congr_right fun h0 => by rw [raised_actB _ _ _ _ _ (by omega)]
  unfold raiseErr plainReports
  extract_lets cls key old esc err kept count e errE count' e'
  have he : e' = raised d source code := by
    by_cases h3 : classOf code = 3
    · rw [raised_fatal h3, counted, ← h3]
      exact if_pos h3
    · rw [raised_other h3]
      exact if_neg h3
  have hesc : ¬esc := h
  simp only [unlogged]
  rw [if_neg hesc, ← raised_reports d source code, ← raised_epc d source code]
  clear_value e'
  rw [← he]
  split
  · rfl
  · rw [joinReports]
    split <;> next merged => rw [merged]; rfl

end

end Sys2Proof.Machine
end

section
/-!
The error unit (R17, R422 to R429, R436): how a raise joins the pending reports, what the collector writes and takes, and the mirror's
writer.
-/
namespace Sys2Proof.Machine

/-! ### Joining the pending reports (R425) -/

/-- A pending report that a raise of the source and code adds to. -/
abbrev ErrReport.Takes (r : ErrReport) (source code : Nat) : Prop := r.source = source ∧ r.code = code ∧ r.escalated = false

theorem mergeReport_none {l : List ErrReport} {source code : Nat} (h : ∀ r ∈ l, ¬r.Takes source code) :
    mergeReport l source code = none := by
  induction l with
  | nil => rfl
  | cons r t ih =>
    have hr : ¬r.Takes source code := h r List.mem_cons_self
    rw [mergeReport, if_neg hr, ih fun q hq => h q (List.mem_cons_of_mem r hq)]
    rfl

/-- The first report that takes the raise counts it; its epoch and arguments stay. -/
theorem mergeReport_first {l t : List ErrReport} {r : ErrReport} {source code : Nat} (hr : r.Takes source code)
    (h : ∀ q ∈ l, ¬q.Takes source code) : mergeReport (l ++ r :: t) source code =
      some (l ++ { r with count := min (r.count + 1) 0xFFFFFFFF } :: t) := by
  induction l with
  | nil =>
    rw [List.nil_append, mergeReport, if_pos hr]
    rfl
  | cons q l ih =>
    have hq : ¬q.Takes source code := h q List.mem_cons_self
    rw [List.cons_append, mergeReport, if_neg hq, ih fun x hx => h x (List.mem_cons_of_mem q hx)]
    rfl

theorem mergeReport_has {l m : List ErrReport} {source code : Nat} (h : mergeReport l source code = some m) :
    ∃ q ∈ m, q.source = source ∧ q.code = code := by
  induction l generalizing m with
  | nil => simp [mergeReport] at h
  | cons r t ih =>
    rw [mergeReport] at h
    split at h
    · next takes =>
      cases h
      exact ⟨_, List.mem_cons_self, takes.1, takes.2.1⟩
    · obtain ⟨m, merged, rfl⟩ := Option.map_eq_some_iff.mp h
      obtain ⟨q, hq, same⟩ := ih merged
      exact ⟨q, List.mem_cons_of_mem r hq, same⟩

/-- A raise is in the reports it joins: none is lost. -/
theorem joinReports_has (l : List ErrReport) (r : ErrReport) : ∃ q ∈ joinReports l r, q.source = r.source ∧ q.code = r.code := by
  rw [joinReports]
  cases h : mergeReport l r.source r.code with
  | none => exact ⟨r, List.mem_append_right _ List.mem_cons_self, rfl, rfl⟩
  | some m => exact mergeReport_has h

theorem joinReports_own {l : List ErrReport} {r : ErrReport} (h : ∀ q ∈ l, ¬q.Takes r.source r.code) :
    joinReports l r = l ++ [r] := by
  rw [joinReports, mergeReport_none h]
  rfl

theorem joinReports_first {l t : List ErrReport} {q r : ErrReport} (hq : q.Takes r.source r.code)
    (h : ∀ x ∈ l, ¬x.Takes r.source r.code) :
    joinReports (l ++ q :: t) r = l ++ { q with count := min (q.count + 1) 0xFFFFFFFF } :: t := by
  rw [joinReports, mergeReport_first hq h]
  rfl

/-! ### A raise (R422, R425, R426, R429) -/

theorem classOf_lt (code : Nat) : classOf code < 4 := by
  unfold classOf
  split_ifs <;> decide

theorem runs_errorRaise {s : State} {source code : Nat} {a0 a1 : Word} {P : Dev → Prop} (listed : errorCodes.contains code = true)
    (h : source < 65536) (hp : P (raiseErr s.dev source code a0 a1)) : Runs (.errorRaise source code a0 a1) s P :=
  runs_ran (f := fun d => if errorCodes.contains code ∧ source < 65536 then raiseErr d source code a0 a1 else d) rfl
    (by rw [if_pos ⟨listed, h⟩]; exact hp)

/-- A device that counts a raise differs in the count and the error unit alone. -/
theorem counted_only (d : Dev) (source code cls : Nat) (l : List ErrReport) :
    OnlyWords [offErrClassCount cls] { d with err := (setReports (counted d source code cls) l).err }
      (setReports (counted d source code cls) l) := by
  have h : OnlyWords [offErrClassCount cls] (epochKept d source code) (counted d source code cls) := bumpSat_only _ _ _ _
  rw [epochKept_rest] at h
  obtain ⟨⟨live, shadow, act, snap⟩, rest⟩ := h
  exact ⟨⟨live, shadow, act, snap⟩, congrArg (fun e : Dev => { e with err := (setReports (counted d source code cls) l).err }) rest⟩

theorem plain_count (d : Dev) (source code : Nat) (l : List ErrReport) (h : classOf code ≠ 3) :
    liveF (setReports (raised d source code) l) (offErrClassCount (classOf code)) 31 0 =
      min (2 ^ 32 - 1) (liveF d (offErrClassCount (classOf code)) 31 0 + 1) := by
  rw [raised_other h, liveF, setReports_liveGet]
  exact counted_count _ _ _ _

theorem plain_only (d : Dev) (source code : Nat) (l : List ErrReport) (h : classOf code ≠ 3) :
    OnlyWords [offErrClassCount (classOf code)] { d with err := (setReports (raised d source code) l).err }
      (setReports (raised d source code) l) := by
  rw [raised_other h]
  exact counted_only d source code _ l

/-- Of the error unit a raise changes the reports and the history. -/
theorem raised_errUnit (d : Dev) (source code : Nat) : (raised d source code).err = (epochKept d source code).err := by
  unfold raised
  split
  · rw [fatalEffects_errUnit, counted_err]
  · rw [counted_err]

theorem setReports_raised_err (d : Dev) (source code : Nat) (l : List ErrReport) : (setReports (raised d source code) l).err =
    { d.err with reports := l, history := (epochKept d source code).err.history } := by
  rw [setReports, raised_errUnit, epochKept_err]

/-- A Fatal raise, whether by its code or escalated: what it leaves in the registers. -/
structure FatalRaised (d e : Dev) (source code : Nat) : Prop where
  dead : fatal e = true
  first : fatal d = false → liveGet e offErrFatal = BitVec.ofNat 32 (code * 65536 + source)
  later : fatal d = true → liveGet e offErrFatal = liveGet d offErrFatal
  activeOut : liveB e offTwnStatus 2 = false
  drives : liveB e offTwnStatus 4 = false
  ports : ∀ p, p < 32 → liveB e (offSapPortStatus p) 30 = false

theorem fatalRaised (d : Dev) (source code : Nat) (l : List ErrReport) :
    FatalRaised d (setReports (fatalEffects (counted d source code 3) source code) l) source code := by
  have fatalWord : liveGet (fatalEffects (counted d source code 3) source code) offErrFatal =
      if fatal d then liveGet d offErrFatal else BitVec.ofNat 32 (code * 65536 + source) := by
    rw [errFatal_fatalEffects, fatal_counted, counted_other]
    unfold offErrFatal offErrClassCount
    omega
  obtain ⟨activeOut, drives⟩ := twnStatus_fatalEffects (counted d source code 3) source code
  refine ⟨?_, fun h => ?_, fun h => ?_, ?_, ?_, fun p hp => ?_⟩
  · rw [setReports_fatal, fatal_fatalEffects]
  · rw [setReports_liveGet, fatalWord, h]
    rfl
  · rw [setReports_liveGet, fatalWord, h]
    rfl
  · rw [liveB, setReports_liveGet]
    exact activeOut
  · rw [liveB, setReports_liveGet]
    exact drives
  · rw [liveB, setReports_liveGet]
    exact portStatus_fatalEffects _ _ _ hp

theorem raiseErr_fatalCode {d : Dev} {source code : Nat} (a0 a1 : Word) (h : classOf code = 3) :
    raiseErr d source code a0 a1 = setReports (fatalEffects (counted d source code 3) source code)
      (joinReports d.err.reports ⟨source, code, classOf code, false, d.epc.epoch, 1, a0, a1⟩) := by
  rw [raiseErr_plain _ _ (fun esc => absurd esc.1 (by omega)), raised_fatal h, plainReports, if_neg (by omega)]

/-! ### The collector (R424 to R428) -/

/-- The lexicographic order by epoch, source and code. -/
theorem reportBefore_iff (a b : ErrReport) : reportBefore a b = true ↔
    a.epoch < b.epoch ∨ (a.epoch = b.epoch ∧ (a.source < b.source ∨ (a.source = b.source ∧ a.code < b.code))) := by
  simp [reportBefore]

theorem reportBefore_irrefl (a : ErrReport) : reportBefore a a = false := by
  rw [← Bool.not_eq_true, reportBefore_iff]
  omega

/-- What the collector passes over does not come before the report it takes. -/
theorem reportBefore_passed {a b r : ErrReport} (kept : reportBefore b a = false) (h : reportBefore a r = false) :
    reportBefore b r = false := by
  rw [← Bool.not_eq_true, reportBefore_iff] at *
  omega

theorem reportBefore_asymm {a b : ErrReport} (h : reportBefore a b = true) : reportBefore b a = false := by
  rw [← Bool.not_eq_true, reportBefore_iff]
  rw [reportBefore_iff] at h
  omega

/-- The earlier of two reports, as the collector goes through them. -/
def earlier (b : Option ErrReport) (r : ErrReport) : Option ErrReport :=
  match b with
  | none => some r
  | some x => if reportBefore r x then some r else some x

theorem foldl_earlier {l : List ErrReport} {x r : ErrReport} (h : l.foldl earlier (some x) = some r) :
    r ∈ x :: l ∧ ∀ q ∈ x :: l, reportBefore q r = false := by
  induction l generalizing x with
  | nil =>
    cases h
    simpa using reportBefore_irrefl r
  | cons y t ih =>
    rw [List.foldl_cons, earlier] at h
    simp only [List.forall_mem_cons] at ih ⊢
    split at h
    · next before =>
      obtain ⟨mem, first, rest⟩ := ih h
      exact ⟨List.mem_cons_of_mem x mem, reportBefore_passed (reportBefore_asymm before) first, first, rest⟩
    · next after =>
      obtain ⟨mem, first, rest⟩ := ih h
      refine ⟨?_, first, reportBefore_passed (Bool.not_eq_true _ ▸ after) first, rest⟩
      rcases List.mem_cons.mp mem with rfl | mem
      · exact List.mem_cons_self
      · exact List.mem_cons_of_mem x (List.mem_cons_of_mem y mem)

theorem nextReport_eq (l : List ErrReport) : nextReport l = l.foldl earlier none := rfl

theorem nextReport_some {l : List ErrReport} {r : ErrReport} (h : nextReport l = some r) :
    r ∈ l ∧ ∀ q ∈ l, reportBefore q r = false := by
  cases l with
  | nil => nomatch h
  | cons x t => exact foldl_earlier h

/-- Writes a run of registers of one entry of the error log, from its word k on. -/
def logWords (d : Dev) (head k : Nat) (e : List Word) : Dev :=
  (e.foldl (fun (a : Dev × Nat) w => (liveSet a.1 (offErrLog head a.2) w, a.2 + 1)) (d, k)).1

theorem logWords_cons (d : Dev) (head k : Nat) (w : Word) (t : List Word) :
    logWords d head k (w :: t) = logWords (liveSet d (offErrLog head k) w) head (k + 1) t := rfl

theorem logWords_err : ∀ (e : List Word) (d : Dev) (head k : Nat), (logWords d head k e).err = d.err
  | [], _, _, _ => rfl
  | w :: t, d, head, k => by rw [logWords_cons, logWords_err t, liveSet_err]

theorem liveGet_logWords_other {o : Nat} : ∀ (e : List Word) (d : Dev) (head k : Nat), (∀ w, o ≠ offErrLog head w) →
    liveGet (logWords d head k e) o = liveGet d o
  | [], _, _, _, _ => rfl
  | w :: t, d, head, k, h => by rw [logWords_cons, liveGet_logWords_other t _ _ _ h, liveGet_liveSet_other _ _ (h k)]

theorem liveGet_logWords_before {j : Nat} : ∀ (e : List Word) (d : Dev) (head k : Nat), j < k →
    liveGet (logWords d head k e) (offErrLog head j) = liveGet d (offErrLog head j)
  | [], _, _, _, _ => rfl
  | w :: t, d, head, k, h => by
    rw [logWords_cons, liveGet_logWords_before t _ _ _ (Nat.lt_succ_of_lt h),
      liveGet_liveSet_other _ _ (by unfold offErrLog; omega)]

theorem liveGet_logWords {e : List Word} {d : Dev} {head k j : Nat} (h : j < e.length) :
    some (liveGet (logWords d head k e) (offErrLog head (k + j))) = e[j]? := by
  induction e generalizing d k j with
  | nil => exact absurd h (Nat.not_lt_zero j)
  | cons w t ih =>
    rw [logWords_cons]
    cases j with
    | zero =>
      show some (liveGet _ (offErrLog head k)) = _
      rw [liveGet_logWords_before t _ _ _ (Nat.lt_succ_self k), liveGet_liveSet_same]
      rfl
    | succ j =>
      rw [show k + (j + 1) = k + 1 + j by omega, ih (by simpa using h)]
      rfl

/-- The entry's words are in the ring, and the ring and the sequence go on. -/
def entryWritten (d : Dev) (r : ErrReport) : Dev :=
  bump (liveSetF (logWords d (liveF d offErrHead 7 0) 0 (entryOf (liveGet d offErrNextSeq) r)) offErrHead 7 0
    (liveF d offErrHead 7 0 + 1)) offErrNextSeq

theorem entryWritten_err (d : Dev) (r : ErrReport) : (entryWritten d r).err = d.err := by
  rw [entryWritten, bump_err, liveSetF_err, logWords_err]

theorem entryWritten_nextSeq (d : Dev) (r : ErrReport) :
    liveGet (entryWritten d r) offErrNextSeq = liveGet d offErrNextSeq + 1 := by
  rw [entryWritten, liveGet_bump, if_pos rfl, liveGet_liveSetF, if_neg (by decide), liveGet_logWords_other]
  intro w
  unfold offErrNextSeq offErrLog
  omega

theorem entryWritten_head (d : Dev) (r : ErrReport) :
    liveF (entryWritten d r) offErrHead 7 0 = (liveF d offErrHead 7 0 + 1) % 256 := by
  rw [liveF, entryWritten, liveGet_bump, if_neg (by decide)]
  exact liveF_liveSetF_same _ _ _ (by decide) (by decide)

theorem entryOf_length (seq : Word) (r : ErrReport) : (entryOf seq r).length = 8 := by simp [entryOf]

theorem entryWritten_word (d : Dev) (r : ErrReport) {w : Nat} (h : w < 8) :
    some (liveGet (entryWritten d r) (offErrLog (liveF d offErrHead 7 0) w)) = (entryOf (liveGet d offErrNextSeq) r)[w]? := by
  rw [entryWritten, liveGet_bump, if_neg (by unfold offErrLog offErrNextSeq; omega), liveGet_liveSetF,
    if_neg (by unfold offErrLog offErrHead; omega)]
  have word := liveGet_logWords (d := d) (head := liveF d offErrHead 7 0) (k := 0)
    (show w < (entryOf (liveGet d offErrNextSeq) r).length by rw [entryOf_length]; exact h)
  rwa [Nat.zero_add] at word

/-- Report r is off the list, the overwritten entry is counted and ERR.STATUS shows the class. -/
def taken (d : Dev) (r : ErrReport) : Dev :=
  let d := if d.err.written ≥ 256 then bump d offErrOverwrite else d
  let d := { d with err := { d.err with reports := d.err.reports.erase r, written := d.err.written + 1 } }
  if r.cls = 2 then liveSetB d offErrStatus 2 true else if r.cls = 1 then liveSetB d offErrStatus 1 true else d

theorem taken_err (d : Dev) (r : ErrReport) :
    (taken d r).err = { d.err with reports := d.err.reports.erase r, written := d.err.written + 1 } := by
  unfold taken
  split_ifs <;> rfl

theorem liveGet_taken_other (d : Dev) (r : ErrReport) {o : Nat} (overwrite : o ≠ offErrOverwrite) (status : o ≠ offErrStatus) :
    liveGet (taken d r) o = liveGet d o := by
  unfold taken
  split_ifs <;> simp [liveGet_liveSetB, liveGet_bump, overwrite, status]

theorem errorCollect_some {d : Dev} {r : ErrReport} (h : nextReport d.err.reports = some r) : errorCollect d =
    if r.cls ≥ 2 then mirrorReport (mirrorAdd (taken (entryWritten d r) r) (entryOf (liveGet d offErrNextSeq) r))
    else taken (entryWritten d r) r := by
  unfold errorCollect
  rw [h]
  rfl

/-! ### The mirror (R428) -/

theorem mirrorReport_err (d : Dev) : (mirrorReport d).err = d.err := liveSetF_err _ _ _ _ _

theorem mirrorAdd_err (d : Dev) (e : List Word) : (mirrorAdd d e).err =
    { d.err with mirror := (if d.err.mirror.length < 64 then d.err.mirror else d.err.mirror.drop 1) ++ [e] } := by
  unfold mirrorAdd
  split_ifs <;> rfl

theorem liveGet_mirrorReport_other (d : Dev) {o : Nat} (h : o ≠ offErrMirrorWait) : liveGet (mirrorReport d) o = liveGet d o := by
  rw [mirrorReport, liveGet_liveSetF, if_neg h]

theorem liveGet_mirrorAdd_other (d : Dev) (e : List Word) {o : Nat} (h : o ≠ offErrMirrorDrop) :
    liveGet (mirrorAdd d e) o = liveGet d o := by
  unfold mirrorAdd
  split_ifs
  · rfl
  · rw [liveGet_bump, if_neg h]
    rfl

/-- Past the ring, its head and its sequence the collector writes four registers more. -/
theorem liveGet_errorCollect {d : Dev} {r : ErrReport} (h : nextReport d.err.reports = some r) {o : Nat}
    (other : o ∉ [offErrOverwrite, offErrStatus, offErrMirrorDrop, offErrMirrorWait]) :
    liveGet (errorCollect d) o = liveGet (entryWritten d r) o := by
  simp only [List.mem_cons, List.not_mem_nil, or_false, not_or] at other
  obtain ⟨overwrite, status, drop, wait⟩ := other
  rw [errorCollect_some h]
  split
  · rw [liveGet_mirrorReport_other _ wait, liveGet_mirrorAdd_other _ _ drop, liveGet_taken_other _ _ overwrite status]
  · rw [liveGet_taken_other _ _ overwrite status]

theorem errorCollect_err {d : Dev} {r : ErrReport} (h : nextReport d.err.reports = some r) : (errorCollect d).err =
    { d.err with
      reports := d.err.reports.erase r
      written := d.err.written + 1
      mirror := if 2 ≤ r.cls then (if d.err.mirror.length < 64 then d.err.mirror else d.err.mirror.drop 1) ++
        [entryOf (liveGet d offErrNextSeq) r] else d.err.mirror } := by
  rw [errorCollect_some h]
  split_ifs
  · rw [mirrorReport_err, mirrorAdd_err, taken_err, entryWritten_err]
    simp [*]
  · rw [mirrorReport_err, mirrorAdd_err, taken_err, entryWritten_err]
    simp [*]
  · rw [taken_err, entryWritten_err]

theorem errorCollect_none {d : Dev} (h : d.err.reports = []) : errorCollect d = d := by
  unfold errorCollect
  rw [h]
  rfl

theorem mirrorWrite_nil (ok : Bool) {d : Dev} (h : d.err.mirror = []) : mirrorWrite ok d = d := by
  unfold mirrorWrite
  rw [h]

/-- The sector has its header before its first entry. -/
def sectorOpened (d : Dev) : Dev :=
  let a := mirrorBase d + 4096 * d.err.place.1
  if d.err.place.2.2 = 0 then flashProgram (flashErase d a 4096) a (mirrorHeader d.err.place.2.1) else d

theorem sectorOpened_err (d : Dev) : (sectorOpened d).err = d.err := by
  unfold sectorOpened
  split_ifs <;> rfl

/-- The place of the next entry in the sector: the header has place 0. -/
def entryPlace (d : Dev) : Nat := if d.err.place.2.2 = 0 then 1 else d.err.place.2.2

/-- Entry e stands in the flash. -/
def entryProgrammed (d : Dev) (e : List Word) : Dev :=
  flashProgram (sectorOpened d) (mirrorBase d + 4096 * d.err.place.1 + 32 * entryPlace d) (e.flatMap fun w => beBytes 4 w.toNat)

theorem entryProgrammed_err (d : Dev) (e : List Word) : (entryProgrammed d e).err = d.err :=
  (setFlash_err _ _).trans (sectorOpened_err d)

/-- Entries t are left to be mirrored, and the writer stands at place p. -/
def setMirror (d : Dev) (t : List (List Word)) (p : Nat × Nat × Nat) : Dev :=
  { d with err := { d.err with mirror := t, place := p } }

theorem mirrorWrite_ok {d : Dev} {e : List Word} {t : List (List Word)} (h : d.err.mirror = e :: t) (flash : d.boot.density ≠ 0) :
    mirrorWrite true d =
      mirrorReport (setMirror (entryProgrammed d e) t (mirrorNext (d.err.place.1, d.err.place.2.1, entryPlace d))) := by
  unfold mirrorWrite
  rw [h]
  exact if_pos (by simp [flash])

theorem mirrorWrite_ok_err {d : Dev} {e : List Word} {t : List (List Word)} (h : d.err.mirror = e :: t) (flash : d.boot.density ≠ 0) :
    (mirrorWrite true d).err =
      { d.err with mirror := t, place := mirrorNext (d.err.place.1, d.err.place.2.1, entryPlace d) } := by
  rw [mirrorWrite_ok h flash, mirrorReport_err, setMirror, entryProgrammed_err]

theorem mirrorWrite_ok_wait {d : Dev} {e : List Word} {t : List (List Word)} (h : d.err.mirror = e :: t)
    (flash : d.boot.density ≠ 0) : liveF (mirrorWrite true d) offErrMirrorWait 6 0 = t.length % 128 := by
  rw [mirrorWrite_ok h flash, mirrorReport, liveF_liveSetF_same _ _ _ (by decide) (by decide)]
  rfl

/-- A failed write moves the writer to the next sector (R428). -/
def sectorFailed (d : Dev) : Dev := { d with err := { d.err with place := ((d.err.place.1 + 1) % 256, d.err.place.2.1 + 1, 0) } }

theorem mirrorWrite_failed {d : Dev} {e : List Word} {t : List (List Word)} (h : d.err.mirror = e :: t) : mirrorWrite false d =
    raiseErr (liveSetB (sectorFailed d) offErrStatus 0 true) (srcOf blkNvm 0) 0x0701 (BitVec.ofNat 32 d.err.place.1) 0 := by
  unfold mirrorWrite
  rw [h]
  rfl

/-- Of the error unit a raise changes the reports and the history alone, whatever its case. -/
theorem raiseErr_errUnit (d : Dev) (source code : Nat) (a0 a1 : Word) : (raiseErr d source code a0 a1).err =
    { d.err with reports := (raiseErr d source code a0 a1).err.reports, history := (epochKept d source code).err.history } := by
  by_cases esc : Escalates d source code
  · rw [raiseErr_escalated _ _ esc, setReports, fatalEffects_errUnit, counted_err, epochKept_err]
  · rw [raiseErr_plain _ _ esc, setReports_raised_err]

theorem ErrOnly.boot {a b : Dev} (h : ErrOnly a b) : b.boot = a.boot := by
  have rest := congrArg Dev.boot h.rest
  exact rest

/-! ### Links and the debug port (R17, R436) -/

/-- The replays of a link after one more. -/
def replayed (d : Dev) (link : Nat) (ok : Bool) : Nat × Nat :=
  let l := mapGet (fun _ => ((0, 0) : Nat × Nat)) d.err.links link
  if ok then (l.1 + 1, l.2) else (l.1, l.2 + 1)

/-- A replay is counted for its link. -/
def linkCounted (d : Dev) (link : Nat) (ok : Bool) : Dev :=
  { d with err := { d.err with links := mapSet (fun _ => ((0, 0) : Nat × Nat)) d.err.links link (replayed d link ok) } }

theorem flitReplay_eq (link : Nat) (ok : Bool) (d : Dev) : flitReplay link ok d =
    if !ok && decide ((replayed d link ok).2 = 3) then raiseErr (linkCounted d link ok) (srcOf 0 link) 0x0002 0 0
    else linkCounted d link ok := rfl

theorem flitReplay_links (link : Nat) (ok : Bool) (d : Dev) :
    (flitReplay link ok d).err.links = mapSet (fun _ => ((0, 0) : Nat × Nat)) d.err.links link (replayed d link ok) := by
  rw [flitReplay_eq]
  split
  · rw [raiseErr_errUnit]
    rfl
  · rfl

/-- ERROR_RAISE of a listed code of class below Fatal. -/
theorem errorRaise_plain {s : State} {source code : Nat} {a0 a1 : Word} {P : Dev → Prop} (listed : errorCodes.contains code = true)
    (h : source < 65536) (esc : ¬Escalates s.dev source code)
    (hp : P (setReports (raised s.dev source code) (plainReports a0 a1 s.dev source code))) :
    Runs (.errorRaise source code a0 a1) s P := runs_errorRaise listed h (by rw [raiseErr_plain _ _ esc]; exact hp)

/-- A raise that is logged joins the pending reports. -/
theorem plainReports_logged {d : Dev} {source code : Nat} {a0 a1 : Word}
    (h : classOf code = 1 ∨ (classOf code = 0 ∧ actB d offErrCtrl 0 = true) ∨ classOf code = 2) : plainReports a0 a1 d source code =
      joinReports d.err.reports ⟨source, code, classOf code, false, d.epc.epoch, 1, a0, a1⟩ := by
  refine if_neg fun ⟨h0, off⟩ => ?_
  rcases h with h | ⟨-, on⟩ | h
  · omega
  · rw [on] at off
    exact Bool.noConfusion off
  · omega

/-- Settles O44: the cases of a raise (`raiseErr_plain`, `raiseErr_escalated`, `raiseErr_fatalCode`), the collector's effects
(`errorCollect_err`, `liveGet_errorCollect`) and the mirror writer's. -/
theorem errorsAreRaisedAndCollected : Obligations.ErrorsAreRaisedAndCollected := by
  refine ⟨fun s source code a0 a1 unlisted => ?unlisted, fun s source code a0 a1 listed src => ?raise,
    fun s source code a0 a1 listed src fatalCode => ?fatal, fun s none => ?collectNone, fun s r next => ?collect,
    fun s ok none => ?mirrorNone, fun s e t waits => ?mirror, fun s link ok h => ?replay, fun s code boundary second => ?debug⟩
  case unlisted =>
    exact runs_ran (f := fun d => if errorCodes.contains code ∧ source < 65536 then raiseErr d source code a0 a1 else d) rfl
      (if_neg unlisted)
  case raise =>
    intro cls place seen third key logged
    have notThird : logged → ¬Escalates s.dev source code := by
      rintro (h | ⟨h, -⟩ | ⟨-, h⟩) esc
      · exact absurd (h.symm.trans esc.1) (by decide)
      · exact absurd (h.symm.trans esc.1) (by decide)
      · exact h esc
    refine ⟨fun notFatal below => ?plain, fun corrected off => ?unlogged, fun log own => ?own, fun l r t log at' takes first => ?join,
      fun esc => ?escalated⟩
    case plain =>
      refine errorRaise_plain listed src below ⟨plain_count _ _ _ _ notFatal, plain_only _ _ _ _ notFatal, ?_, fun h => ?_, fun h => ?_⟩
      · rw [setReports_raised_err]
      · rw [setReports_raised_err, epochKept_other h]
      · rw [setReports_raised_err]
        exact epochKept_history h
    case unlogged =>
      have h2 : classOf code ≠ 2 := by rw [show classOf code = 0 from corrected]; decide
      refine errorRaise_plain listed src (fun esc => h2 esc.1) ?_
      rw [setReports_raised_err, plainReports, if_pos ⟨corrected, off⟩, epochKept_other h2]
    case own =>
      refine errorRaise_plain listed src (notThird log) ?_
      rw [plainReports_logged (log.imp_right (Or.imp_right And.left)), joinReports_own own]
      rfl
    case join =>
      refine errorRaise_plain listed src (notThird log) ?_
      rw [plainReports_logged (log.imp_right (Or.imp_right And.left)), at', joinReports_first takes first]
      rfl
    case escalated =>
      refine runs_errorRaise listed src ?_
      rw [raiseErr_escalated _ _ esc]
      obtain ⟨dead, fatalWord, -, activeOut, drives, -⟩ :=
        fatalRaised s.dev source code (s.dev.err.reports ++ [⟨source, code, 3, true, s.dev.epc.epoch, 1, a0, a1⟩])
      refine ⟨dead, rfl, ?_, ?_, ?_, fatalWord, activeOut, drives⟩
      · rw [liveF, setReports_liveGet, liveGet_fatalEffects_count]
        exact counted_count _ _ _ _
      · rw [setReports_liveGet, liveGet_fatalEffects_count, counted_other _ _ _ _ (by decide)]
      · rw [setReports, fatalEffects_errUnit, counted_err]
        exact epochKept_history esc.1
  case fatal =>
    refine runs_errorRaise listed src ?_
    rw [raiseErr_fatalCode _ _ fatalCode]
    obtain ⟨dead, first, later, activeOut, drives, ports⟩ := fatalRaised s.dev source code
      (joinReports s.dev.err.reports ⟨source, code, classOf code, false, s.dev.epc.epoch, 1, a0, a1⟩)
    exact ⟨dead, first, later, activeOut, drives, ports, joinReports_has _ _⟩
  case collectNone =>
    exact runs_ran (f := errorCollect) rfl (errorCollect_none none)
  case collect =>
    refine runs_ran (f := errorCollect) rfl ?_
    obtain ⟨mem, first⟩ := nextReport_some next
    rw [errorCollect_err next]
    refine ⟨mem, first, rfl, ?_, fun w hw => ?_, ?_, fun room => ?_, fun grave => ?_, fun light => ?_⟩
    · rw [liveGet_errorCollect next (by decide), entryWritten_nextSeq]
    · rw [liveGet_errorCollect next ?_, entryWritten_word _ _ hw]
      simp only [List.mem_cons, List.not_mem_nil, or_false, not_or]
      unfold offErrLog offErrOverwrite offErrStatus offErrMirrorDrop offErrMirrorWait
      omega
    · rw [liveF, liveGet_errorCollect next (by decide)]
      exact entryWritten_head _ _
    · dsimp only
      split_ifs with grave few
      · simpa using few
      · rw [List.length_append, List.length_drop, List.length_singleton]
        omega
      · exact room
    · simp only [if_pos grave, List.getLast?_append, List.getLast?_singleton, Option.some_or]
    · simp only [if_neg (Nat.not_le.mpr light)]
  case mirrorNone =>
    exact runs_ran (f := mirrorWrite ok) rfl (mirrorWrite_nil ok none)
  case mirror =>
    refine ⟨fun flash => runs_ran (f := mirrorWrite true) rfl ?_, runs_ran (f := mirrorWrite false) rfl ?_⟩
    · rw [mirrorWrite_ok_err waits flash]
      exact ⟨rfl, rfl, mirrorWrite_ok_wait waits flash, rfl⟩
    · rw [mirrorWrite_failed waits]
      refine ⟨rfl, ?_, ?_⟩
      · rw [raiseErr_errUnit]
        exact waits
      · exact (raiseErr_err _ _ _ _ (.refl _)).boot
  case replay =>
    refine runs_ranIf (f := flitReplay link ok) rfl (by simpa using h) ⟨?_, ?_, fun failed third => ?_, fun few => ?_⟩
    · rw [flitReplay_links, mapGet_mapSet_self]
      rfl
    · rw [flitReplay_links, mapGet_mapSet_other _ _ _ (by omega)]
    · have due : (replayed s.dev link ok).2 = 3 := by simp [replayed, failed, third]
      rw [flitReplay_eq, if_pos (by rw [due, failed]; rfl), raiseErr_fatalCode 0 0 (by decide)]
      exact (fatalRaised _ _ _ _).dead
    · rw [flitReplay_eq, if_neg]
      · rfl
      · rcases few with ok | few
        · simp [ok]
        · cases ok <;> simp [replayed, few]
  case debug =>
    intro due
    exact ⟨fun h => runs_ran (f := jtagInstr code boundary second) rfl (if_pos h),
      fun h => runs_ran (f := jtagInstr code boundary second) rfl (if_neg h)⟩

end Sys2Proof.Machine
end

section
/-!
The release of an insert stage (R219, R220): the block that the stage takes, the mirrors noted and the items enqueued.
-/
namespace Sys2Proof.Machine

/-- What statements compare of an item: its words, its producer and its 32-bit sequence number. -/
def itemView (it : WorkItem) : List Word × Nat × Nat := (it.words, it.prod, it.seq % 2 ^ 32)

/-- Items enqueued by a producer, whose descriptors do not depend on the ready list. -/
def enqueueAll {α : Type} (words : Dev → α → List Word) (prod : Nat) (l : List α) (d : Dev) : Dev :=
  l.foldl (fun d g => enqueue d (words d g) prod) d

/-- The ready list and the next sequence number are r and n. -/
def setReady (d : Dev) (r : List WorkItem) (n : Nat) : Dev := { d with wd := { d.wd with ready := r, seq := n } }

section
variable {α : Type} {words : Dev → α → List Word} (stable : ∀ d g r n, words (setReady d r n) g = words d g) (prod : Nat)

include stable in
theorem enqueueAll_spec (l : List α) (d : Dev) : ∃ r n, enqueueAll words prod l d = setReady d r n ∧
    r.map itemView = d.wd.ready.map itemView ++ l.zipIdx.map fun g => (words d g.1, prod, (d.wd.seq + g.2) % 2 ^ 32) := by
  induction l generalizing d with
  | nil => exact ⟨d.wd.ready, d.wd.seq, rfl, by simp⟩
  | cons g t ih =>
    obtain ⟨r, n, eq, list⟩ := ih (enqueue d (words d g) prod)
    refine ⟨r, n, eq, ?_⟩
    have same : ∀ x, words (enqueue d (words d g) prod) x = words d x := fun x => stable d x _ _
    simp only [same] at list
    have wrap : ∀ i, ((d.wd.seq + 1) % 2 ^ 32 + i) % 2 ^ 32 = (d.wd.seq + (i + 1)) % 2 ^ 32 := by omega
    rw [list, List.zipIdx_cons', List.map_cons, List.map_map]
    simp only [enqueue, wrap, List.map_append, List.append_assoc, List.map_cons, List.map_nil, List.singleton_append, itemView,
      Nat.add_zero]
    rfl

end

theorem insertDesc_setReady (d : Dev) (s block : Nat) (st : Stage) (g : Nat × InsGroup) (r : List WorkItem) (n : Nat) :
    insertDesc (setReady d r n) s block st g = insertDesc d s block st g := rfl

/-- The stage with the block that comes to it at its release. -/
def takenStage (d : Dev) (s : Nat) (el : BlockAt) : Stage :=
  { stageOf d s with
    blocks := ⟨d.epc.epoch, el.block, el.audio, [], [], false, []⟩ :: (stageOf d s).blocks.take 1
    missed := if stageStarts (stageOf d s) then [] else (stageOf d s).missed }

/-- The device once the stage has its block and the mirrors are noted. -/
def blockTaken (d : Dev) (s : Nat) (el : BlockAt) : Dev :=
  setStage (noteMirrors (stageGroups d s el.block) d) s (takenStage d s el)

/-- The element that a release of the stage finds. -/
def releasedElement (d : Dev) (s : Nat) : Option BlockAt := stageElement d s (if s = 0 then d.epc.epoch - 1 else d.epc.epoch)

theorem insertRelease_none {d : Dev} {s : Nat} (h : releasedElement d s = none) : insertRelease s d = d := by
  unfold releasedElement at h
  unfold insertRelease
  dsimp only
  rw [h]

theorem insertRelease_off {d : Dev} {s : Nat} {el : BlockAt} (h : releasedElement d s = some el) (off : stageOn d s el.block = false) :
    insertRelease s d = d := by
  unfold releasedElement at h
  unfold insertRelease
  dsimp only
  rw [h]
  exact if_neg (by rw [off]; decide)

theorem insertRelease_on {d : Dev} {s : Nat} {el : BlockAt} (h : releasedElement d s = some el) (on : stageOn d s el.block = true) :
    insertRelease s d = if wdRuns (blockTaken d s el) then
      enqueueAll (fun e g => insertDesc e s el.block (stageOf d s) g) (34 + s) (stageGroups d s el.block) (blockTaken d s el)
    else blockTaken d s el := by
  unfold releasedElement at h
  unfold insertRelease
  dsimp only
  rw [h]
  exact if_pos on

theorem noteMirrors_rest (gs : List (Nat × InsGroup)) (d : Dev) : noteMirrors gs d = { d with twn := (noteMirrors gs d).twn } := by
  unfold noteMirrors
  split <;> rfl

theorem noteMirrors_none (gs : List (Nat × InsGroup)) {d : Dev} (h : d.twn.joinK = none) : noteMirrors gs d = d := by
  unfold noteMirrors
  rw [h]
  rfl

theorem wdRuns_blockTaken (d : Dev) (s : Nat) (el : BlockAt) : wdRuns (blockTaken d s el) = wdRuns d := by
  rw [blockTaken, noteMirrors_rest]
  rfl

theorem insertDesc_blockTaken (d : Dev) (s : Nat) (el : BlockAt) (st : Stage) (g : Nat × InsGroup) :
    insertDesc (blockTaken d s el) s el.block st g = insertDesc d s el.block st g := by
  rw [blockTaken, noteMirrors_rest]
  rfl

/-- What a release leaves beside the items: the stage's block and the mirrors noted. -/
structure Released (s : Nat) (el : BlockAt) (d e : Dev) : Prop where
  taken : stageOf e s = takenStage d s el
  others : ∀ j, j ≠ s → stageOf e j = stageOf d j
  mirrors : e.twn = (noteMirrors (stageGroups d s el.block) d).twn
  rest : { e with wd := d.wd, twn := d.twn } = d
  wd : { e.wd with ready := d.wd.ready, seq := d.wd.seq, stages := d.wd.stages } = d.wd

theorem setReady_blockTaken (d : Dev) (s : Nat) (el : BlockAt) (r : List WorkItem) (n : Nat) :
    Released s el d (setReady (blockTaken d s el) r n) := by
  have eq : blockTaken d s el =
      setStage { d with twn := (noteMirrors (stageGroups d s el.block) d).twn } s (takenStage d s el) := by
    rw [blockTaken, ← noteMirrors_rest]
  rw [eq]
  generalize hx : takenStage d s el = x
  generalize ht : (noteMirrors (stageGroups d s el.block) d).twn = twn
  exact ⟨(mapGet_mapSet_self _ d.wd.stages s x).trans hx.symm, fun j hj => mapGet_mapSet_other _ d.wd.stages x hj, ht.symm, rfl, rfl⟩

/-- INSERT_RELEASE with WD running: what the release leaves. -/
theorem insertRelease_enqueues {d : Dev} {s : Nat} {el : BlockAt} (h : releasedElement d s = some el)
    (on : stageOn d s el.block = true) (runs : wdRuns d = true) : ∃ r n, insertRelease s d = setReady (blockTaken d s el) r n ∧
      r.map itemView = d.wd.ready.map itemView ++ (stageGroups d s el.block).zipIdx.map fun g =>
        (insertDesc d s el.block (stageOf d s) g.1, 34 + s, (d.wd.seq + g.2) % 2 ^ 32) := by
  have wd : (blockTaken d s el).wd.ready = d.wd.ready ∧ (blockTaken d s el).wd.seq = d.wd.seq := by
    rw [blockTaken, noteMirrors_rest]
    exact ⟨rfl, rfl⟩
  obtain ⟨r, n, eq, list⟩ := enqueueAll_spec (words := fun e g => insertDesc e s el.block (stageOf d s) g)
    (fun e g r n => insertDesc_setReady e s el.block _ g r n) (34 + s) (stageGroups d s el.block) (blockTaken d s el)
  simp only [insertDesc_blockTaken, wd] at list
  exact ⟨r, n, by rw [insertRelease_on h on, wdRuns_blockTaken, if_pos runs, eq], list⟩

end Sys2Proof.Machine
end

section
/-!
The item cutoff of an insert stage (R222, R224): the items that leave the cores, the groups marked and the misses recorded; and what both
events of a stage leave (O16).
-/
namespace Sys2Proof.Machine

/-! ### Items that end on the cores -/

/-- b is a but for the cores, their loads and their state registers. -/
structure CoresOnly (a b : Dev) : Prop where
  /-- Registers. -/
  regs : RegsBut ((List.range 36).map offVecCoreState) a b
  /-- Everything else. -/
  rest : { b with regs := a.regs, vec := a.vec } = a

theorem CoresOnly.refl (a : Dev) : CoresOnly a a := ⟨.refl _ _, rfl⟩

theorem CoresOnly.trans {a b c : Dev} (h : CoresOnly a b) (k : CoresOnly b c) : CoresOnly a c := by
  refine ⟨h.regs.trans k.regs, ?_⟩
  have rest := h.rest
  rw [← k.rest] at rest
  exact rest

theorem CoresOnly.setCore {a b : Dev} (h : CoresOnly a b) (k : Nat) (c : VecCore) : CoresOnly a (setCore b k c) :=
  ⟨h.regs.other rfl, h.rest⟩

theorem CoresOnly.setCoreState {a b : Dev} (h : CoresOnly a b) {k : Nat} (hk : k < 36) (v : Nat) : CoresOnly a (setCoreState b k v) :=
  ⟨h.regs.liveSetF (List.mem_map.mpr ⟨k, List.mem_range.mpr hk, rfl⟩), h.rest⟩

theorem CoresOnly.wd {a b : Dev} (h : CoresOnly a b) : b.wd = a.wd := by
  have rest := congrArg Dev.wd h.rest
  exact rest

theorem CoresOnly.mem {a b : Dev} (h : CoresOnly a b) : b.mem = a.mem := by
  have rest := congrArg Dev.mem h.rest
  exact rest

theorem CoresOnly.liveGet {a b : Dev} (h : CoresOnly a b) {o : Nat} (ho : 0x1100000 ≤ o) : liveGet b o = liveGet a o := by
  refine h.regs.live o fun mem => ?_
  obtain ⟨k, hk, rfl⟩ := List.mem_map.mp mem
  rw [List.mem_range] at hk
  unfold offVecCoreState at ho
  omega

/-- Core j is as it was: its entry and its register. -/
structure CoreKept (j : Nat) (a b : Dev) : Prop where
  entry : coreOf b j = coreOf a j
  word : liveGet b (offVecCoreState j) = liveGet a (offVecCoreState j)

theorem CoreKept.refl (j : Nat) (a : Dev) : CoreKept j a a := ⟨rfl, rfl⟩

theorem CoreKept.trans {j : Nat} {a b c : Dev} (h : CoreKept j a b) (k : CoreKept j b c) : CoreKept j a c :=
  ⟨k.entry.trans h.entry, k.word.trans h.word⟩

theorem CoreKept.state {j : Nat} {a b : Dev} (h : CoreKept j a b) : coreState b j = coreState a j := by
  rw [coreState, coreState, liveF, liveF, h.word]

theorem CoreKept.handler {j : Nat} {a b : Dev} (h : CoreKept j a b) : inHandler b j = inHandler a j := by
  rw [inHandler, inHandler, liveB, liveB, h.word]

theorem CoreKept.setCore {j k : Nat} (h : j ≠ k) (d : Dev) (c : VecCore) : CoreKept j d (setCore d k c) :=
  ⟨coreOf_setCore_other d c h, rfl⟩

theorem CoreKept.setCoreState {j k : Nat} (h : j ≠ k) (d : Dev) (v : Nat) : CoreKept j d (setCoreState d k v) := by
  refine ⟨rfl, ?_⟩
  rw [Machine.setCoreState, liveGet_liveSetF, if_neg (by unfold offVecCoreState; omega)]

theorem loadCore_item (c : VecCore) (r : VecRange) : (loadCore c r).item = c.item := by
  unfold loadCore
  split <;> rfl

theorem foldl_loadCore_item (l : List VecRange) (c : VecCore) : (l.foldl loadCore c).item = c.item := by
  induction l generalizing c with
  | nil => rfl
  | cons r t ih => rw [List.foldl_cons, ih, loadCore_item]

/-- The ranges that cores still lack are l. -/
def setLoad (d : Dev) (l : Option (List VecRange × List Nat)) : Dev := { d with vec := { d.vec with load := l } }

theorem coreLoad_cases (core : Nat) (d : Dev) :
    coreLoad core d = d ∨ ∃ (l : List VecRange) (load : Option (List VecRange × List Nat)),
      coreLoad core d = setLoad (setCore d core (l.foldl loadCore (coreOf d core))) load := by
  unfold coreLoad
  split
  · exact .inl rfl
  · split
    · exact .inr ⟨_, _, rfl⟩
    · exact .inl rfl

theorem coreLoad_only (core : Nat) (d : Dev) : CoresOnly d (coreLoad core d) := by
  obtain h | ⟨l, load, h⟩ := coreLoad_cases core d
  · rw [h]
    exact .refl d
  · rw [h]
    exact ⟨(RegsBut.refl _ d).other rfl, rfl⟩

theorem coreLoad_kept {j core : Nat} (hj : j ≠ core) (d : Dev) : CoreKept j d (coreLoad core d) := by
  obtain h | ⟨l, load, h⟩ := coreLoad_cases core d
  · rw [h]
    exact .refl j d
  · rw [h]
    exact ⟨coreOf_setCore_other d _ hj, rfl⟩

theorem coreLoad_item (core : Nat) (d : Dev) : (coreOf (coreLoad core d) core).item = (coreOf d core).item := by
  obtain h | ⟨l, load, h⟩ := coreLoad_cases core d
  · rw [h]
  · rw [h]
    show (coreOf (setCore d core _) core).item = _
    rw [coreOf_setCore, foldl_loadCore_item]

/-- A core whose item has ended. -/
def endedCore (d : Dev) (core : Nat) (it : WorkItem) (kept : Bool) : VecCore :=
  let h := inHandler d core
  let c := if h then coreOf d core else settleAll (coreOf d core)
  let c := { c with item := none, ended := false, waking := false,
                    affinity := if kept then some (itemKernel it, (itemW it 5).toNat) else none, parked := [], parkedStores := [] }
  if h then c else { c with wait := none, xfer := none, rep := none }

/-- STATE of a core whose item has ended: the position of a planned replacement leaves it without power (R369). -/
def endedState (d : Dev) (core : Nat) : Nat :=
  if coreState d core = 5 then 5 else if (posOf d core).isNone && !(inHandler d core) then 0 else 1

/-- The device once a core has lost its item. -/
def itemGone (d : Dev) (core : Nat) (it : WorkItem) (kept : Bool) : Dev :=
  setCoreState (setCore d core (endedCore d core it kept)) core (endedState d core)

theorem endedCore_item (d : Dev) (core : Nat) (it : WorkItem) (kept : Bool) : (endedCore d core it kept).item = none := by
  unfold endedCore
  dsimp only
  split <;> rfl

theorem endItem_none {d : Dev} {core : Nat} (h : (coreOf d core).item = none) (result : Nat) (kept : Bool) :
    endItem d core result kept = d := by
  have same : (if inHandler d core = true then coreOf d core else settleAll (coreOf d core)).item = none := by
    split <;> exact h
  unfold endItem
  dsimp only
  rw [same]

theorem endItem_some {d : Dev} {core : Nat} {it : WorkItem} (h : (coreOf d core).item = some it) (result : Nat) (kept : Bool) :
    ∃ pos, endItem d core result kept = coreLoad core
      (if itemKind it = 0 then writeRecord (itemGone d core it kept) it result pos else itemGone d core it kept) := by
  have same : (if inHandler d core = true then coreOf d core else settleAll (coreOf d core)).item = some it := by
    split <;> exact h
  unfold endItem
  dsimp only
  rw [same]
  exact ⟨_, rfl⟩

theorem itemGone_only {core : Nat} (h : core < 36) (d : Dev) (it : WorkItem) (kept : Bool) : CoresOnly d (itemGone d core it kept) :=
  ((CoresOnly.refl d).setCore core _).setCoreState h _

theorem itemGone_kept {j core : Nat} (h : j ≠ core) (d : Dev) (it : WorkItem) (kept : Bool) : CoreKept j d (itemGone d core it kept) :=
  (CoreKept.setCore h d _).trans (.setCoreState h _ _)

theorem coreOf_itemGone (d : Dev) (core : Nat) (it : WorkItem) (kept : Bool) :
    coreOf (itemGone d core it kept) core = endedCore d core it kept := coreOf_setCore d core _

/-- The end of an item that writes no record: its core has no item, and every other core is as it was. -/
structure ItemEnds (core : Nat) (a b : Dev) : Prop where
  only : CoresOnly a b
  others : ∀ j, j ≠ core → CoreKept j a b
  item : (coreOf b core).item = none

theorem endItem_insert {d : Dev} {core : Nat} {it : WorkItem} (hc : core < 36) (h : (coreOf d core).item = some it)
    (insert : itemKind it ≠ 0) (result : Nat) (kept : Bool) : ItemEnds core d (endItem d core result kept) := by
  obtain ⟨pos, eq⟩ := endItem_some h result kept
  rw [if_neg insert] at eq
  rw [eq]
  refine ⟨(itemGone_only hc d it kept).trans (coreLoad_only _ _), fun j hj => ?_, ?_⟩
  · exact (itemGone_kept hj d it kept).trans (coreLoad_kept hj _)
  · rw [coreLoad_item, coreOf_itemGone, endedCore_item]

/-! ### The abort at the cutoff (R222) -/

/-- A core's item satisfies p and has issued neither END nor anything that puts it beyond a cutoff. -/
def abortable (d : Dev) (p : WorkItem → Bool) (k : Nat) : Bool :=
  (coreOf d k).item.any p && !(endIssued (coreOf d k)) && decide (coreState d k ≠ 4)

theorem CoreKept.abortable {j : Nat} {a b : Dev} (h : CoreKept j a b) (p : WorkItem → Bool) : abortable b p j = abortable a p j := by
  unfold Machine.abortable
  rw [h.entry, h.state]

/-- One core's turn of an abort that leaves handlers running. -/
def abortAt (result : Nat) (p : WorkItem → Bool) (d : Dev) (core : Nat) : Dev :=
  if abortable d p core then endItem d core result true else d

theorem abortItems_eq (d : Dev) (result : Nat) (p : WorkItem → Bool) :
    abortItems d result false p = (List.range 36).foldl (abortAt result p) d := by
  unfold abortItems
  congr 1
  funext d core
  unfold abortAt abortable coreAbortable
  cases h : (coreOf d core).item with
  | none => simp
  | some it => simp [and_comm, and_left_comm]

/-- What an abort leaves: the items of the cores of l that it hits are gone, and every other core is as it was. -/
structure Aborted (p : WorkItem → Bool) (l : List Nat) (a b : Dev) : Prop where
  only : CoresOnly a b
  gone : ∀ k ∈ l, abortable a p k = true → (coreOf b k).item = none
  kept : ∀ k, (k ∈ l → abortable a p k = false) → CoreKept k a b

theorem abortAt_ends {p : WorkItem → Bool} (insert : ∀ it, p it = true → itemKind it ≠ 0) {d : Dev} {core : Nat} (hc : core < 36)
    (h : abortable d p core = true) (result : Nat) : ItemEnds core d (abortAt result p d core) := by
  rw [abortAt, if_pos h]
  simp only [abortable, Bool.and_eq_true, Option.any_eq_true] at h
  obtain ⟨⟨⟨it, item, hit⟩, -⟩, -⟩ := h
  exact endItem_insert hc item (insert it hit) result true

theorem foldl_abortAt {p : WorkItem → Bool} (insert : ∀ it, p it = true → itemKind it ≠ 0) (result : Nat) {l : List Nat}
    (range : ∀ k ∈ l, k < 36) (nodup : l.Nodup) (d : Dev) : Aborted p l d (l.foldl (abortAt result p) d) := by
  induction l generalizing d with
  | nil => exact ⟨.refl d, nofun, fun k _ => .refl k d⟩
  | cons c t ih =>
    obtain ⟨fresh, nodup⟩ := List.nodup_cons.mp nodup
    obtain ⟨only, gone, kept⟩ := ih (fun k hk => range k (List.mem_cons_of_mem c hk)) nodup (abortAt result p d c)
    rw [List.foldl_cons]
    cases hit : abortable d p c with
    | true =>
      have ends := abortAt_ends insert (range c List.mem_cons_self) hit result
      refine ⟨ends.only.trans only, fun k hk abort => ?_, fun k miss => ?_⟩
      · by_cases e : k = c
        · subst e
          rw [(kept k fun hk => absurd hk fresh).entry, ends.item]
        · exact gone k ((List.mem_cons.mp hk).resolve_left e) (by rw [(ends.others k e).abortable, abort])
      · have e : k ≠ c := by
          rintro rfl
          exact absurd (miss List.mem_cons_self) (by rw [hit]; decide)
        exact (ends.others k e).trans (kept k fun hk => by rw [(ends.others k e).abortable, miss (List.mem_cons_of_mem c hk)])
    | false =>
      have same : abortAt result p d c = d := if_neg (by rw [hit]; decide)
      rw [same] at only gone kept ⊢
      refine ⟨only, fun k hk abort => ?_, fun k miss => kept k fun hk => miss (List.mem_cons_of_mem c hk)⟩
      rcases List.mem_cons.mp hk with rfl | hk
      · exact absurd hit (by rw [abort]; decide)
      · exact gone k hk abort

theorem abortItems_insert {p : WorkItem → Bool} (insert : ∀ it, p it = true → itemKind it ≠ 0) (d : Dev) (result : Nat) :
    Aborted p (List.range 36) d (abortItems d result false p) := by
  rw [abortItems_eq]
  exact foldl_abortAt insert result (fun k hk => List.mem_range.mp hk) List.nodup_range d

/-! ### Groups that miss a block (R224) -/

/-- b is a but for current register values: those below the groups' registers, and the lower 30 bits of all, are a's. -/
structure GroupsMarked (a b : Dev) : Prop where
  low : ∀ o, o < 0x1104000 → liveGet b o = liveGet a o
  bits : ∀ o i, i < 30 → liveB b o i = liveB a o i
  rest : b = { a with regs := { a.regs with live := b.regs.live } }

theorem GroupsMarked.refl (a : Dev) : GroupsMarked a a := ⟨fun _ _ => rfl, fun _ _ _ => rfl, rfl⟩

theorem GroupsMarked.trans {a b c : Dev} (h : GroupsMarked a b) (k : GroupsMarked b c) : GroupsMarked a c := by
  refine ⟨fun o ho => (k.low o ho).trans (h.low o ho), fun o i hi => (k.bits o i hi).trans (h.bits o i hi), ?_⟩
  rw [k.rest, h.rest]

/-- A mark of a group is bit 31 or 30 of its register. -/
theorem GroupsMarked.mark {a b : Dev} (h : GroupsMarked a b) (g : Nat) {i : Nat} (hi : 30 ≤ i) (lt : i < 32) (v : Bool) :
    GroupsMarked a (liveSetB b (offWdGroupStatus g) i v) := by
  refine h.trans ⟨fun o ho => ?_, fun o j hj => ?_, rfl⟩
  · rw [liveGet_liveSetB, if_neg (by unfold offWdGroupStatus; omega)]
  · rw [liveB, liveGet_liveSetB]
    split
    · next e => rw [bit_setBit _ _ _ lt, if_neg (by omega), e, liveB]
    · rfl

theorem GroupsMarked.foldl {α : Type} {f : Dev → α → Dev} (hf : ∀ d x, GroupsMarked d (f d x)) (l : List α) (d : Dev) :
    GroupsMarked d (l.foldl f d) := by
  induction l generalizing d with
  | nil => exact .refl d
  | cons x t ih => exact (hf d x).trans (ih _)

theorem GroupsMarked.fatal {a b : Dev} (h : GroupsMarked a b) : fatal b = fatal a := h.bits offErrStatus 3 (by decide)

/-- The groups that miss a block are marked. -/
def missMarked (d : Dev) (miss : List Nat) : Dev :=
  miss.foldl (fun d g => liveSetB (liveSetB d (offWdGroupStatus g) 31 true) (offWdGroupStatus g) 30 true) d

theorem missMarked_marked (d : Dev) (miss : List Nat) : GroupsMarked d (missMarked d miss) :=
  .foldl (fun d g => ((GroupsMarked.refl d).mark g (by decide) (by decide) true).mark g (by decide) (by decide) true) miss d

/-- The misses are marked and counted. -/
def missCounted (d : Dev) (s : Nat) (miss : List Nat) : Dev :=
  bumpBy (liveSetF (missMarked d miss) (offWdStageStatus s) 27 16 ((stageOf d s).dry.length + miss.length)) (offWdStageMiss s) miss.length

theorem missCounted_rest (d : Dev) (s : Nat) (miss : List Nat) :
    missCounted d s miss = { d with regs := { d.regs with live := (missCounted d s miss).regs.live } } := by
  have rest := (missMarked_marked d miss).rest
  unfold missCounted bumpBy liveSetF liveSet
  rw [rest]

theorem missCounted_count (d : Dev) {s : Nat} (h : s < 4) (miss : List Nat) : liveGet (missCounted d s miss) (offWdStageMiss s) =
    liveGet d (offWdStageMiss s) + BitVec.ofNat 32 miss.length := by
  have other : offWdStageMiss s ≠ offWdStageStatus s := by unfold offWdStageMiss offWdStageStatus; omega
  rw [missCounted, liveGet_bumpBy, if_pos rfl, liveGet_liveSetF, if_neg other,
    (missMarked_marked d miss).low _ (by unfold offWdStageMiss; omega)]

theorem missCounted_fatal (d : Dev) {s : Nat} (h : s < 4) (miss : List Nat) : fatal (missCounted d s miss) = fatal d := by
  rw [← (missMarked_marked d miss).fatal, fatal, fatal, liveB, liveB, missCounted, liveGet_bumpBy,
    if_neg (by unfold offErrStatus offWdStageMiss; omega), liveGet_liveSetF, if_neg (by unfold offErrStatus offWdStageStatus; omega)]

/-- The stage's event is raised for the first miss of the epoch. -/
def missRaised (d : Dev) (s : Nat) (miss : List Nat) : Dev :=
  if (stageOf d s).dry.isEmpty then raiseOwn (missCounted d s miss) s else missCounted d s miss

theorem missReport_eq (d : Dev) (s : Nat) (miss : List Nat) : missReport d s miss =
    if miss.isEmpty then d
    else setStage (missRaised d s miss) s { stageOf d s with dry := (stageOf d s).dry ++ miss } := rfl

/-- What writes registers' current values alone leaves the rest. -/
theorem OnlyWords.eq_live {ws : List Nat} {a b : Dev} (h : OnlyWords ws a b) :
    b = { a with regs := { a.regs with live := b.regs.live } } := by
  obtain ⟨⟨-, shadow, act, snap⟩, rest⟩ := h
  have regs : b.regs = ⟨b.regs.live, a.regs.shadow, a.regs.act, a.regs.snap⟩ := by rw [← shadow, ← act, ← snap]
  calc b = { { b with regs := a.regs } with regs := b.regs } := rfl
    _ = { a with regs := b.regs } := by rw [rest]
    _ = _ := by rw [regs]

theorem missRaised_only (d : Dev) (s : Nat) (miss : List Nat) :
    OnlyWords [offEvtPend (s / 32), offEvtCoalesce] (missCounted d s miss) (missRaised d s miss) := by
  unfold missRaised
  split
  · exact raiseOwn_only _ _
  · exact .refl _ _

/-- What a report of misses leaves: nothing but current register values and the stage's misses of the epoch has changed. -/
structure MissesReported (s : Nat) (miss : List Nat) (a b : Dev) : Prop where
  count : liveGet b (offWdStageMiss s) = liveGet a (offWdStageMiss s) + BitVec.ofNat 32 miss.length
  event : miss ≠ [] → (stageOf a s).dry = [] → fatal a = false → evtPending b s = true
  stage : stageOf b s = { stageOf a s with dry := (stageOf a s).dry ++ miss }
  others : ∀ j, j ≠ s → stageOf b j = stageOf a j
  rest : ∃ live stages, b = { a with regs := { a.regs with live := live }, wd := { a.wd with stages := stages } }

theorem missReport_reported (d : Dev) {s : Nat} (h : s < 4) (miss : List Nat) : MissesReported s miss d (missReport d s miss) := by
  rw [missReport_eq]
  split
  · next none =>
    obtain rfl : miss = [] := List.isEmpty_iff.mp none
    exact ⟨by simp, fun h => absurd rfl h, by simp, fun _ _ => rfl, d.regs.live, d.wd.stages, rfl⟩
  · have only := missRaised_only d s miss
    have rest : missRaised d s miss = { d with regs := { d.regs with live := (missRaised d s miss).regs.live } } := by
      rw [only.eq_live, missCounted_rest]
    refine ⟨?_, fun _ dry alive => ?_, stageOf_setStage _ _ _, fun j hj => ?_, ?_⟩
    · rw [setStage_liveGet, only.regs.live, missCounted_count d h]
      simp only [List.mem_cons, List.not_mem_nil, or_false, not_or]
      unfold offWdStageMiss offEvtPend offEvtCoalesce
      omega
    · show evtPending (missRaised d s miss) s = true
      rw [missRaised, dry, List.isEmpty_nil, if_pos rfl, raiseOwn_free (.inl (by rw [missCounted_fatal d h, alive])),
        raiseEvt_pending]
      simp
    · rw [stageOf_setStage_other _ _ hj, rest]
      rfl
    · rw [rest]
      exact ⟨_, _, rfl⟩

/-! ### The cutoff (R222) -/

/-- The items that a cutoff of stage s is about, where b is its newest block. -/
def cutHit (s : Nat) (b : StageBlock) (it : WorkItem) : Bool := decide (itemKind it = s + 1 ∧ itemBlock it = b.block % 2 ^ 32)

theorem cutHit_insert {s : Nat} {b : StageBlock} : ∀ it, cutHit s b it = true → itemKind it ≠ 0 := by
  intro it h
  have kind := (of_decide_eq_true h).1
  omega

/-- The marks of a miss that the groups of a stage have for block b are cleared. -/
def marksCleared (d : Dev) (s : Nat) (b : StageBlock) (e : Dev) : Dev :=
  (stageGroups d s b.block).foldl (fun d g => liveSetB d (offWdGroupStatus g.1) 31 false) e

theorem marksCleared_marked (d : Dev) (s : Nat) (b : StageBlock) (e : Dev) : GroupsMarked e (marksCleared d s b e) := by
  unfold marksCleared
  refine GroupsMarked.foldl (fun d g => ?_) _ e
  exact (GroupsMarked.refl d).mark g.1 (by decide) (by decide) false

/-- The items of the cutoff are off the ready list. -/
def readyCut (d : Dev) (s : Nat) (b : StageBlock) : Dev := setReady d (d.wd.ready.filter fun it => !(cutHit s b it)) d.wd.seq

/-- The items of the cutoff are off the ready list and the cores, and the groups' marks of a miss are cleared. -/
def itemsCut (d : Dev) (s : Nat) (b : StageBlock) : Dev :=
  marksCleared d s b (abortItems (readyCut d s b) 3 false (cutHit s b))

theorem itemCutoff_none {d : Dev} {s : Nat} (h : (stageOf d s).blocks = []) : itemCutoff s d = d := by
  unfold itemCutoff
  dsimp only
  rw [h]

theorem itemCutoff_cut {d : Dev} {s : Nat} {b : StageBlock} {t : List StageBlock} (h : (stageOf d s).blocks = b :: t)
    (cut : b.cut = true) : itemCutoff s d = d := by
  unfold itemCutoff
  dsimp only
  rw [h]
  exact if_pos cut

theorem itemCutoff_open {d : Dev} {s : Nat} {b : StageBlock} {t : List StageBlock} (h : (stageOf d s).blocks = b :: t)
    (uncut : b.cut = false) : itemCutoff s d =
      let e := missReport (itemsCut d s b) s (missing d s b)
      setStage e s { stageOf e s with blocks := { b with cut := true, missed := missing d s b } :: t } := by
  unfold itemCutoff
  dsimp only
  rw [h]
  exact if_neg (by rw [uncut]; decide)

/-- What the first half of a cutoff leaves. -/
structure ItemsCut (s : Nat) (b : StageBlock) (d e : Dev) : Prop where
  gone : ∀ k, k < 36 → abortable d (cutHit s b) k = true → (coreOf e k).item = none
  kept : ∀ k, k < 36 → abortable d (cutHit s b) k = false → coreOf e k = coreOf d k
  wd : e.wd = { d.wd with ready := d.wd.ready.filter fun it => !(cutHit s b it) }
  mem : e.mem = d.mem
  count : liveGet e (offWdStageMiss s) = liveGet d (offWdStageMiss s)
  fatal : fatal e = fatal d
  shadow : e.regs.shadow = d.regs.shadow
  act : e.regs.act = d.regs.act
  snap : e.regs.snap = d.regs.snap

theorem abortable_readyCut (d : Dev) (s : Nat) (b : StageBlock) (p : WorkItem → Bool) (k : Nat) :
    abortable (readyCut d s b) p k = abortable d p k := rfl

theorem coreOf_readyCut (d : Dev) (s : Nat) (b : StageBlock) (k : Nat) : coreOf (readyCut d s b) k = coreOf d k := rfl

theorem liveGet_readyCut (d : Dev) (s : Nat) (b : StageBlock) (o : Nat) : liveGet (readyCut d s b) o = liveGet d o := rfl

theorem GroupsMarked.cores {a b : Dev} (h : GroupsMarked a b) (k : Nat) : coreOf b k = coreOf a k := by
  rw [h.rest]
  rfl

theorem itemsCut_spec (d : Dev) {s : Nat} (hs : s < 4) (b : StageBlock) : ItemsCut s b d (itemsCut d s b) := by
  have aborted := abortItems_insert (p := cutHit s b) cutHit_insert (readyCut d s b) 3
  rw [itemsCut]
  generalize abortItems (readyCut d s b) 3 false (cutHit s b) = e at aborted ⊢
  have marked := marksCleared_marked d s b e
  generalize marksCleared d s b e = f at marked ⊢
  obtain ⟨only, gone, kept⟩ := aborted
  refine ⟨fun k hk hit => ?_, fun k hk miss => ?_, ?_, ?_, ?_, ?_, ?_, ?_, ?_⟩
  · rw [marked.cores]
    exact gone k (List.mem_range.mpr hk) (by rw [abortable_readyCut, hit])
  · rw [marked.cores, (kept k fun _ => by rw [abortable_readyCut, miss]).entry, coreOf_readyCut]
  · rw [marked.rest]
    exact only.wd
  · rw [marked.rest]
    exact only.mem
  · rw [marked.low _ (by unfold offWdStageMiss; omega), only.liveGet (by unfold offWdStageMiss; omega), liveGet_readyCut]
  · rw [marked.fatal, fatal, liveB, only.liveGet (by decide), liveGet_readyCut]
    rfl
  · rw [marked.rest]
    exact only.regs.shadow
  · rw [marked.rest]
    exact only.regs.act
  · rw [marked.rest]
    exact only.regs.snap

/-- Settles O16: the release by `insertRelease_enqueues`, the cutoff by `itemsCut_spec` and `missReport_reported`. -/
theorem insertStagesReleaseAndCutOff : Obligations.InsertStagesReleaseAndCutOff := by
  have releases : ∀ {s : State} {st : Nat} {P : Dev → Prop}, st < 4 → P (insertRelease st s.dev) → Runs (.insertRelease st) s P :=
    fun hst hp => runs_ranIf (f := insertRelease _) rfl (decide_eq_true hst) hp
  have cuts : ∀ {s : State} {st : Nat} {P : Dev → Prop}, st < 4 → P (itemCutoff st s.dev) → Runs (.itemCutoff st) s P :=
    fun hst hp => runs_ranIf (f := itemCutoff _) rfl (decide_eq_true hst) hp
  refine ⟨fun s st hst => ?release, fun s st b rest hst blocks => ?cutoff, fun s st hst blocks => ?empty⟩
  case release =>
    intro el
    refine ⟨fun none => releases hst (insertRelease_none none), fun b here off => releases hst (insertRelease_off here off),
      fun b here on => ?_⟩
    intro old gs taken
    refine ⟨fun still => releases hst ?_, fun runs => releases hst ?_⟩
    · rw [insertRelease_on here on, wdRuns_blockTaken, still]
      rfl
    · obtain ⟨r, n, eq, list⟩ := insertRelease_enqueues here on runs
      obtain ⟨stage, others, mirrors, rest, wd⟩ := setReady_blockTaken s.dev st b r n
      rw [eq]
      exact ⟨stage, others, list, mirrors, fun joins => mirrors.trans (by rw [noteMirrors_none _ joins]), rest, wd⟩
  case cutoff =>
    intro hit
    refine ⟨fun cut => cuts hst (itemCutoff_cut blocks cut), fun uncut => cuts hst ?_⟩
    rw [itemCutoff_open blocks uncut]
    have cut := itemsCut_spec s.dev hst b
    generalize itemsCut s.dev st b = e at cut ⊢
    have stages : ∀ j, stageOf e j = stageOf s.dev j := fun j => by
      rw [stageOf, cut.wd]
      rfl
    have reported := missReport_reported e hst (missing s.dev st b)
    generalize missReport e st (missing s.dev st b) = f at reported ⊢
    obtain ⟨count, event, stage, others, live, table, eq⟩ := reported
    have cores : ∀ k, coreOf f k = coreOf e k := fun k => by rw [eq]; rfl
    refine ⟨?_, ?_, ?_, fun j hj => ?_, fun k hk hit => ?_, fun k hk miss => ?_, ?_, fun some dry alive => ?_, ?_, ?_, ?_, ?_⟩
    · show f.wd.ready = _
      rw [eq, cut.wd]
      rfl
    · rw [stageOf_setStage]
    · rw [stageOf_setStage, stage, stages]
    · rw [stageOf_setStage_other _ _ hj, others j hj, stages]
    · show (coreOf f k).item = none
      rw [cores, cut.gone k hk hit]
    · show coreOf f k = _
      rw [cores, cut.kept k hk miss]
    · rw [setStage_liveGet, count, cut.count]
    · show evtPending f st = true
      exact event some (by rw [stages, dry]) (by rw [cut.fatal, alive])
    · show f.mem = _
      rw [eq]
      exact cut.mem
    · show f.regs.shadow = _
      rw [eq]
      exact cut.shadow
    · show f.regs.act = _
      rw [eq]
      exact cut.act
    · show f.regs.snap = _
      rw [eq]
      exact cut.snap
  case empty => exact cuts hst (itemCutoff_none blocks)

end Sys2Proof.Machine
end

section
/-!
What the end of an item and the isolation of a vector cluster leave (R232, R233, R365).
-/
namespace Sys2Proof.Machine

/-- b is a but for the cores and their loads, the count of completion records, and registers of VEC, WD and EVT. -/
structure CoresEnded (a b : Dev) : Prop where
  regs : ∀ o, o < 0x1000100 ∨ 0x1300000 ≤ o → liveGet b o = liveGet a o
  vec : b.vec = { a.vec with cores := b.vec.cores, load := b.vec.load }
  wd : b.wd = { a.wd with records := b.wd.records }
  rest : { b with regs := a.regs, vec := a.vec, wd := a.wd } = a

theorem CoresEnded.refl (a : Dev) : CoresEnded a a := ⟨fun _ _ => rfl, rfl, rfl, rfl⟩

theorem CoresEnded.trans {a b c : Dev} (h : CoresEnded a b) (k : CoresEnded b c) : CoresEnded a c := by
  refine ⟨fun o ho => (k.regs o ho).trans (h.regs o ho), by rw [k.vec, h.vec], by rw [k.wd, h.wd], ?_⟩
  have rest := h.rest
  rw [← k.rest] at rest
  exact rest

theorem CoresEnded.liveSet {a b : Dev} (h : CoresEnded a b) {o : Nat} (low : 0x1000100 ≤ o) (high : o < 0x1300000) (w : Word) :
    CoresEnded a (liveSet b o w) :=
  h.trans ⟨fun p hp => liveGet_liveSet_other b w (by omega), rfl, rfl, rfl⟩

theorem CoresEnded.setCore {a b : Dev} (h : CoresEnded a b) (k : Nat) (c : VecCore) : CoresEnded a (setCore b k c) :=
  h.trans ⟨fun _ _ => rfl, rfl, rfl, rfl⟩

/-- A register write of core k. -/
theorem CoresEnded.coreWord {a b : Dev} (h : CoresEnded a b) {k : Nat} (hk : k < 36) (w : Word) :
    CoresEnded a (Machine.liveSet b (offVecCoreState k) w) :=
  h.liveSet (by unfold offVecCoreState; omega) (by unfold offVecCoreState; omega) w

theorem CoresEnded.raiseEvt {a b : Dev} (h : CoresEnded a b) {s : Nat} (hs : s < 1024) : CoresEnded a (raiseEvt b s) := by
  unfold Machine.raiseEvt
  split
  · exact h.liveSet (by decide) (by decide) _
  · exact h.liveSet (by unfold offEvtPend; omega) (by unfold offEvtPend; omega) _

theorem CoresEnded.raiseOwn {a b : Dev} (h : CoresEnded a b) {s : Nat} (hs : s < 1024) : CoresEnded a (raiseOwn b s) := by
  unfold Machine.raiseOwn
  split
  · exact h
  · exact h.raiseEvt hs

theorem CoresEnded.raiseCompletion {a b : Dev} (h : CoresEnded a b) (it : WorkItem) : CoresEnded a (raiseCompletion b it) := by
  have lt : bits (itemW it 6) 9 0 < 1024 := bits_lt _ _ _
  unfold Machine.raiseCompletion
  dsimp only
  split
  · exact h.raiseEvt lt
  · exact h

/-- The registers of a completion record. -/
theorem offWdCq_range {r k : Nat} (hr : r < 256) (hk : k < 4) : 0x1000100 ≤ offWdCq r k ∧ offWdCq r k < 0x1300000 := by
  unfold offWdCq
  omega

theorem writeRecord_ended (d : Dev) (it : WorkItem) (result pos : Nat) : CoresEnded d (writeRecord d it result pos) := by
  have head : liveF d offWdCqHead 7 0 < 256 := liveF_lt d offWdCqHead 7 0
  have cq : ∀ {b : Dev} {k : Nat} (w : Word), k < 4 → CoresEnded d b → CoresEnded d (liveSet b (offWdCq (liveF d offWdCqHead 7 0) k) w) :=
    fun w hk h => h.liveSet (offWdCq_range head hk).1 (offWdCq_range head hk).2 w
  unfold writeRecord
  extract_lets r cyc w1 d1 d2 d3 d4 d5 d6 w7 d7
  have h4 : CoresEnded d d4 := cq _ (by decide) (cq _ (by decide) (cq _ (by decide) (cq _ (by decide) (.refl d))))
  clear_value d4
  have h5 : CoresEnded d d5 := h4.liveSet (by decide) (by decide) _
  clear_value d5
  have h6 : CoresEnded d d6 := by
    show CoresEnded d (if _ then _ else _)
    split
    · exact h5.liveSet (by decide) (by decide) _
    · exact h5
  clear_value d6
  have h7 : CoresEnded d d7 := by
    refine CoresEnded.raiseOwn (s := 6) (h6.trans ?_) (by decide)
    exact ⟨fun _ _ => rfl, rfl, rfl, rfl⟩
  clear_value d7
  split
  · exact h7.raiseCompletion it
  · exact h7

theorem writeRecord_kept {j : Nat} (hj : j < 36) (d : Dev) (it : WorkItem) (result pos : Nat) :
    CoreKept j d (writeRecord d it result pos) := by
  have rec1 := writeRecord_rec d it result pos
  refine ⟨?_, rec1.low _ (by unfold offVecCoreState; omega)⟩
  have vec : (writeRecord d it result pos).vec = d.vec := by
    have rest := congrArg Dev.vec rec1.rest
    exact rest
  rw [coreOf, coreOf, vec]

theorem coreLoad_ended (core : Nat) (d : Dev) : CoresEnded d (coreLoad core d) := by
  obtain h | ⟨l, load, h⟩ := coreLoad_cases core d
  · rw [h]
    exact .refl d
  · rw [h]
    exact ((CoresEnded.refl d).setCore core _).trans ⟨fun _ _ => rfl, rfl, rfl, rfl⟩

theorem coreLoad_liveGet (core : Nat) (d : Dev) (o : Nat) : liveGet (coreLoad core d) o = liveGet d o := by
  obtain h | ⟨l, load, h⟩ := coreLoad_cases core d
  · rw [h]
  · rw [h]
    rfl

/-- What the end of an item, if there is one, leaves: no other core changes, and this one's register does in STATE alone. -/
structure Ended (core : Nat) (a b : Dev) : Prop where
  ended : CoresEnded a b
  others : ∀ j, j < 36 → j ≠ core → CoreKept j a b
  item : (coreOf b core).item = none
  handler : inHandler b core = inHandler a core
  substituted : coreState a core = 5 → coreState b core = 5

theorem endItem_ended {core : Nat} (hc : core < 36) (d : Dev) (result : Nat) (kept : Bool) : Ended core d (endItem d core result kept) := by
  cases item : (coreOf d core).item with
  | none =>
    rw [endItem_none item]
    exact ⟨.refl d, fun j _ _ => .refl j d, item, rfl, id⟩
  | some it =>
    obtain ⟨pos, eq⟩ := endItem_some item result kept
    rw [eq]
    have gone : CoresEnded d (itemGone d core it kept) := ((CoresEnded.refl d).setCore core _).coreWord hc _
    have goneItem : (coreOf (itemGone d core it kept) core).item = none := by rw [coreOf_itemGone, endedCore_item]
    have goneHandler : inHandler (itemGone d core it kept) core = inHandler d core := by
      rw [inHandler, liveB, itemGone, setCoreState, liveGet_liveSetF, if_pos rfl, bit_setBits _ _ _ (by decide) (by decide),
        if_neg (by decide)]
      rfl
    have goneState : coreState d core = 5 → coreState (itemGone d core it kept) core = 5 := by
      intro h5
      rw [coreState, itemGone, setCoreState, liveF_liveSetF_same _ _ _ (by decide) (by decide), endedState, if_pos h5]
      rfl
    have others := fun j (hj : j ≠ core) => itemGone_kept hj d it kept
    generalize itemGone d core it kept = e at gone goneItem goneHandler goneState others ⊢
    have last : ∀ f, CoresEnded e f → (∀ j, j < 36 → CoreKept j e f) → Ended core d (coreLoad core f) := by
      intro f ended same
      have self := same core hc
      refine ⟨(gone.trans ended).trans (coreLoad_ended core f), fun j hj other => ?_, ?_, ?_, fun h5 => ?_⟩
      · exact ((others j other).trans (same j hj)).trans (coreLoad_kept other f)
      · rw [coreLoad_item, self.entry, goneItem]
      · rw [inHandler, liveB, coreLoad_liveGet, ← goneHandler, ← self.handler]
        rfl
      · rw [coreState, liveF, coreLoad_liveGet, ← goneState h5, ← self.state]
        rfl
    split
    · exact last _ (writeRecord_ended _ _ _ _) fun j hj => writeRecord_kept hj _ _ _ _
    · exact last e (.refl e) fun j _ => .refl j e

/-! ### A failed vector cluster (R365) -/

/-- What isolation makes of one core. -/
structure Isolated (core : Nat) (d : Dev) : Prop where
  state : coreState d core = 5
  item : (coreOf d core).item = none
  handler : inHandler d core = false
  affinity : (coreOf d core).affinity = none

theorem Isolated.kept {core : Nat} {a b : Dev} (h : Isolated core a) (k : CoreKept core a b) : Isolated core b :=
  ⟨by rw [k.state, h.state], by rw [k.entry, h.item], by rw [k.handler, h.handler], by rw [k.entry, h.affinity]⟩

/-- The core's item and its handler have ended, and it is out of its cluster. -/
def coreStopped (d : Dev) (k : Nat) : Dev := endItem (liveSetB (setCoreState d k 5) (offVecCoreState k) 4 false) k 3 false

/-- One core's turn of the isolation. -/
def isolateCore (d : Dev) (k : Nat) : Dev :=
  setCore (coreStopped d k) k { coreOf (coreStopped d k) k with affinity := none, wait := none, xfer := none, rep := none, waking := false }

theorem vecIsolate_eq (cluster : Nat) (d : Dev) : vecIsolate cluster d =
    (List.range 4).foldl (fun d c => isolateCore d (4 * cluster + c)) d := rfl

theorem isolateCore_spec {core : Nat} (hc : core < 36) (d : Dev) : CoresEnded d (isolateCore d core) ∧ Isolated core (isolateCore d core) ∧
    ∀ j, j < 36 → j ≠ core → CoreKept j d (isolateCore d core) := by
  have word : ∀ w, CoresEnded d (liveSet (setCoreState d core 5) (offVecCoreState core) w) := fun w =>
    ((CoresEnded.refl d).coreWord hc _).coreWord hc w
  obtain ⟨ended, others, item, handler, substituted⟩ :=
    endItem_ended hc (liveSetB (setCoreState d core 5) (offVecCoreState core) 4 false) 3 false
  have state : coreState (liveSetB (setCoreState d core 5) (offVecCoreState core) 4 false) core = 5 := by
    rw [coreState, liveF, liveGet_liveSetB, if_pos rfl, bits_setBit_other _ _ (by decide) (by decide) (by decide)]
    exact liveF_liveSetF_same d _ _ (by decide) (by decide)
  refine ⟨((word _).trans ended).setCore core _, ⟨substituted state, ?_, ?_, ?_⟩, fun j hj other => ?_⟩
  · rw [isolateCore, coreOf_setCore]
    exact item
  · exact handler.trans (liveB_liveSetB_same _ _ _ (by decide))
  · rw [isolateCore, coreOf_setCore]
  · refine (CoreKept.trans ?_ (others j hj other)).trans (.setCore other _ _)
    refine (CoreKept.setCoreState other d 5).trans ⟨rfl, ?_⟩
    rw [liveGet_liveSetB, if_neg (by unfold offVecCoreState; omega)]

theorem vecIsolate_spec {cluster : Nat} (h : cluster < 9) (d : Dev) : CoresEnded d (vecIsolate cluster d) ∧
    ∀ c, c < 4 → Isolated (4 * cluster + c) (vecIsolate cluster d) := by
  have key : ∀ (l : List Nat) (d : Dev), (∀ c ∈ l, c < 4) → CoresEnded d (l.foldl (fun d c => isolateCore d (4 * cluster + c)) d) ∧
      (∀ c, c < 4 → (c ∈ l ∨ Isolated (4 * cluster + c) d) →
        Isolated (4 * cluster + c) (l.foldl (fun d c => isolateCore d (4 * cluster + c)) d)) := by
    intro l
    induction l with
    | nil => exact fun d _ => ⟨.refl d, fun c _ h => h.resolve_left nofun⟩
    | cons x t ih =>
      intro d range
      obtain ⟨ended, self, others⟩ := isolateCore_spec (core := 4 * cluster + x) (by have := range x List.mem_cons_self; omega) d
      obtain ⟨rest, stopped⟩ := ih (isolateCore d (4 * cluster + x)) fun c hc => range c (List.mem_cons_of_mem x hc)
      refine ⟨ended.trans rest, fun c hc before => stopped c hc ?_⟩
      by_cases e : c = x
      · exact .inr (e ▸ self)
      · exact before.imp (fun mem => (List.mem_cons.mp mem).resolve_left e)
          fun was => was.kept (others _ (by omega) (by omega))
  rw [vecIsolate_eq]
  obtain ⟨ended, stopped⟩ := key (List.range 4) d fun c hc => List.mem_range.mp hc
  exact ⟨ended, fun c hc => stopped c hc (.inl (List.mem_range.mpr hc))⟩

end Sys2Proof.Machine
end

section
/-!
Hard faults of clusters (R14, R365, R367, R370): what the parts of HARD_FAULT leave of the moon, of the retired clusters, of the pending
reports and of the cores that are isolated.
-/
namespace Sys2Proof.Machine

theorem mem_setIns {l : List Nat} {k x : Nat} : x ∈ setIns l k ↔ x = k ∨ x ∈ l := by
  induction l with
  | nil => simp [setIns]
  | cons h t ih =>
    rw [setIns]
    split_ifs with below same
    · rw [List.mem_cons]
    · subst same
      simp
    · rw [List.mem_cons, ih, List.mem_cons]
      tauto

theorem mem_foldl_setIns {ks l : List Nat} {x : Nat} : x ∈ ks.foldl setIns l ↔ x ∈ ks ∨ x ∈ l := by
  induction ks generalizing l with
  | nil => simp
  | cons k t ih =>
    rw [List.foldl_cons, ih, mem_setIns, List.mem_cons]
    tauto

/-! ### What judges a fault -/

/-- b has a's moon, places, epochs and lanes: what a hard fault and a takeover are judged by. -/
structure MoonSame (a b : Dev) : Prop where
  moon : b.moon = a.moon
  places : b.vec.places = a.vec.places
  retired : b.vec.retired = a.vec.retired
  away : b.vec.away = a.vec.away
  closing : b.vec.closing = a.vec.closing
  status : liveGet b offTwnMoonStatus = liveGet a offTwnMoonStatus
  epc : b.epc = a.epc
  xp : b.xp = a.xp

theorem MoonSame.refl (a : Dev) : MoonSame a a := ⟨rfl, rfl, rfl, rfl, rfl, rfl, rfl, rfl⟩

theorem MoonSame.trans {a b c : Dev} (h : MoonSame a b) (k : MoonSame b c) : MoonSame a c :=
  ⟨k.moon.trans h.moon, k.places.trans h.places, k.retired.trans h.retired, k.away.trans h.away, k.closing.trans h.closing,
    k.status.trans h.status, k.epc.trans h.epc, k.xp.trans h.xp⟩

theorem CoresEnded.moonSame {a b : Dev} (h : CoresEnded a b) : MoonSame a b := by
  have moon := congrArg Dev.moon h.rest
  have epc := congrArg Dev.epc h.rest
  have xp := congrArg Dev.xp h.rest
  exact ⟨moon, by rw [h.vec], by rw [h.vec], by rw [h.vec], by rw [h.vec], h.regs _ (by decide), epc, xp⟩

theorem CoresEnded.errUnit {a b : Dev} (h : CoresEnded a b) : b.err = a.err := by
  have err := congrArg Dev.err h.rest
  exact err

theorem ErrOnly.moonSame {a b : Dev} (h : ErrOnly a b) : MoonSame a b := by
  have moon := congrArg Dev.moon h.rest
  have vec : b.vec = a.vec := by
    have rest := congrArg Dev.vec h.rest
    exact rest
  have xp := congrArg Dev.xp h.rest
  exact ⟨moon, by rw [vec], by rw [vec], by rw [vec], by rw [vec], h.regs.live _ (by decide), h.epc, xp⟩

theorem raiseErr_moonSame (d : Dev) (source code : Nat) (a0 a1 : Word) : MoonSame d (raiseErr d source code a0 a1) :=
  (raiseErr_err source code a0 a1 (.refl d)).moonSame

section
variable {a b : Dev} (h : MoonSame a b) (pool k : Nat)
include h

theorem MoonSame.moonOf : moonOf b pool = moonOf a pool := by
  simp only [Machine.moonOf, liveF, h.status]

theorem MoonSame.avail : moonAvail b pool = moonAvail a pool := by
  simp only [moonAvail, liveB, h.status]

theorem MoonSame.free : moonFree b pool = moonFree a pool := by
  simp only [moonFree, h.avail, h.moon]

theorem MoonSame.clusterPos : clusterPos b pool k = clusterPos a pool k := by
  simp only [Machine.clusterPos, h.moon, h.places]

theorem MoonSame.isRetired : isRetired b pool k = isRetired a pool k := by
  simp only [Machine.isRetired, h.moon, h.retired]

theorem MoonSame.takeoverEpoch : takeoverEpoch b pool k = takeoverEpoch a pool k := by
  simp only [Machine.takeoverEpoch, h.moon, h.epc]

end

/-! ### What a fault leaves behind -/

/-- A report of a source and code is pending. -/
def Reported (d : Dev) (source code : Nat) : Prop := ∃ r ∈ d.err.reports, r.source = source ∧ r.code = code

theorem mergeReport_keeps {l m : List ErrReport} {source code : Nat} (h : mergeReport l source code = some m) :
    ∀ q ∈ l, ∃ r ∈ m, r.source = q.source ∧ r.code = q.code := by
  induction l generalizing m with
  | nil => simp [mergeReport] at h
  | cons r t ih =>
    rw [mergeReport] at h
    split at h
    · cases h
      rintro q hq
      rcases List.mem_cons.mp hq with rfl | hq
      · exact ⟨_, List.mem_cons_self, rfl, rfl⟩
      · exact ⟨q, List.mem_cons_of_mem _ hq, rfl, rfl⟩
    · obtain ⟨n, merged, rfl⟩ := Option.map_eq_some_iff.mp h
      rintro q hq
      rcases List.mem_cons.mp hq with rfl | hq
      · exact ⟨_, List.mem_cons_self, rfl, rfl⟩
      · obtain ⟨x, hx, same⟩ := ih merged q hq
        exact ⟨x, List.mem_cons_of_mem _ hx, same⟩

theorem joinReports_keeps (l : List ErrReport) (r : ErrReport) : ∀ q ∈ l, ∃ x ∈ joinReports l r, x.source = q.source ∧ x.code = q.code := by
  rw [joinReports]
  cases h : mergeReport l r.source r.code with
  | none => exact fun q hq => ⟨q, List.mem_append_left _ hq, rfl, rfl⟩
  | some m => exact mergeReport_keeps h

/-- No pending report is lost by a raise. -/
theorem Reported.raiseErr {d : Dev} {source code : Nat} (h : Reported d source code) (src c : Nat) (a0 a1 : Word) :
    Reported (raiseErr d src c a0 a1) source code := by
  obtain ⟨q, hq, rfl, rfl⟩ := h
  by_cases esc : Escalates d src c
  · rw [raiseErr_escalated _ _ esc]
    exact ⟨q, List.mem_append_left _ hq, rfl, rfl⟩
  · rw [raiseErr_plain _ _ esc]
    show ∃ x ∈ plainReports a0 a1 d src c, _
    unfold plainReports
    split
    · exact ⟨q, hq, rfl, rfl⟩
    · exact joinReports_keeps _ _ q hq

/-- A raise of a Degraded code is reported. -/
theorem raiseErr_reported (d : Dev) (source : Nat) {code : Nat} (a0 a1 : Word) (h : classOf code = 1) :
    Reported (raiseErr d source code a0 a1) source code := by
  rw [raiseErr_plain _ _ (fun esc => absurd esc.1 (by omega))]
  show ∃ x ∈ plainReports a0 a1 d source code, _
  rw [plainReports_logged (.inl h)]
  exact joinReports_has _ _

/-- b keeps what a says of retired clusters, of pending reports and of isolated cores. -/
structure Keeps (a b : Dev) : Prop where
  retired : ∀ pool k, isRetired a pool k = true → isRetired b pool k = true
  reports : ∀ source code, Reported a source code → Reported b source code
  isolated : ∀ j, j < 36 → Isolated j a → Isolated j b

theorem Keeps.refl (a : Dev) : Keeps a a := ⟨fun _ _ => id, fun _ _ => id, fun _ _ => id⟩

theorem Keeps.trans {a b c : Dev} (h : Keeps a b) (k : Keeps b c) : Keeps a c :=
  ⟨fun p n x => k.retired p n (h.retired p n x), fun s n x => k.reports s n (h.reports s n x),
    fun j hj x => k.isolated j hj (h.isolated j hj x)⟩

/-- A change that touches neither the retired clusters nor the reports nor the cores. -/
theorem Keeps.of {a b : Dev} (xp : b.moon.xpRetired = a.moon.xpRetired) (vec : b.vec.retired = a.vec.retired)
    (reports : b.err.reports = a.err.reports) (cores : b.vec.cores = a.vec.cores)
    (words : ∀ j, j < 36 → liveGet b (offVecCoreState j) = liveGet a (offVecCoreState j)) : Keeps a b := by
  refine ⟨fun pool k h => ?_, fun s c h => ?_, fun j hj h => h.kept ⟨?_, words j hj⟩⟩
  · rw [isRetired, xp, vec]
    exact h
  · rw [Reported, reports]
    exact h
  · rw [coreOf, coreOf, cores]

theorem raiseErr_keeps (d : Dev) (source code : Nat) (a0 a1 : Word) : Keeps d (raiseErr d source code a0 a1) := by
  have only := raiseErr_err source code a0 a1 (.refl d)
  have vec : (raiseErr d source code a0 a1).vec = d.vec := by
    have rest := congrArg Dev.vec only.rest
    exact rest
  refine ⟨fun pool k h => by rw [only.moonSame.isRetired, h], fun s c h => h.raiseErr _ _ _ _, fun j hj h => h.kept ⟨?_, ?_⟩⟩
  · rw [coreOf, coreOf, vec]
  · refine only.regs.live _ fun mem => ?_
    unfold errWords offVecCoreState at mem
    simp only [List.mem_append, List.mem_cons, List.mem_map, List.mem_range, List.not_mem_nil, or_false] at mem
    unfold offErrFatal offErrStatus offTwnStatus offClkTuneCode offErrClassCount offSapPortStatus at mem
    rcases mem with ((h | h | h | h) | ⟨p, hp, h⟩) | ⟨p, hp, h⟩ <;> omega

end Sys2Proof.Machine
end

section
/-!
HARD_FAULT (R14, R365, R367, R370), in the cases of its cluster: a spare one, the moon, one with a position and a free moon, one without.
-/
namespace Sys2Proof.Machine

/-! ### A cluster retires (R367) -/

theorem Isolated.setCoreState {j : Nat} {d : Dev} (h : Isolated j d) (k : Nat) : Isolated j (setCoreState d k 5) := by
  by_cases e : j = k
  · subst e
    refine ⟨liveF_liveSetF_same d _ 5 (by decide) (by decide), h.item, ?_, h.affinity⟩
    rw [← h.handler, inHandler, liveB, Machine.setCoreState, liveGet_liveSetF, if_pos rfl, bit_setBits _ _ _ (by decide) (by decide),
      if_neg (by decide)]
    rfl
  · exact h.kept (.setCoreState e d 5)

/-- The cores of a retired vector cluster are out. -/
def coresOut (cluster : Nat) (d : Dev) : Dev := (List.range 4).foldl (fun d c => setCoreState d (4 * cluster + c) 5) d

theorem coresOut_spec {cluster : Nat} (h : cluster < 16) (d : Dev) : CoresEnded d (coresOut cluster d) ∧
    (coresOut cluster d).vec = d.vec ∧ ∀ j, j < 36 → Isolated j d → Isolated j (coresOut cluster d) := by
  have key : ∀ (l : List Nat) (d : Dev), (∀ c ∈ l, c < 4) →
      CoresEnded d (l.foldl (fun d c => setCoreState d (4 * cluster + c) 5) d) ∧
      (l.foldl (fun d c => setCoreState d (4 * cluster + c) 5) d).vec = d.vec ∧
      ∀ j, Isolated j d → Isolated j (l.foldl (fun d c => setCoreState d (4 * cluster + c) 5) d) := by
    intro l
    induction l with
    | nil => exact fun d _ => ⟨.refl d, rfl, fun _ => id⟩
    | cons x t ih =>
      intro d range
      have lt := range x List.mem_cons_self
      obtain ⟨ended, vec, isolated⟩ := ih (setCoreState d (4 * cluster + x) 5) fun c hc => range c (List.mem_cons_of_mem x hc)
      have word : CoresEnded d (setCoreState d (4 * cluster + x) 5) :=
        (CoresEnded.refl d).liveSet (by unfold offVecCoreState; omega) (by unfold offVecCoreState; omega) _
      exact ⟨word.trans ended, vec, fun j hj => isolated j (hj.setCoreState _)⟩
  obtain ⟨ended, vec, isolated⟩ := key (List.range 4) d fun c hc => List.mem_range.mp hc
  exact ⟨ended, vec, fun j _ => isolated j⟩

/-- The retired vector clusters are l. -/
def setRetired (d : Dev) (l : List Nat) : Dev := { d with vec := { d.vec with retired := l } }

theorem retire_xp (d : Dev) (cluster : Nat) :
    retire d 0 cluster = setMoon d { d.moon with xpRetired := setIns d.moon.xpRetired cluster } := rfl

theorem retire_vec (d : Dev) (cluster : Nat) :
    retire d 1 cluster = coresOut cluster (setRetired d (setIns d.vec.retired cluster)) := rfl

/-- b is a but for the retired clusters, as far as a fault is concerned. -/
structure FaultSame (a b : Dev) : Prop where
  moon : { b.moon with xpRetired := a.moon.xpRetired } = a.moon
  places : b.vec.places = a.vec.places
  away : b.vec.away = a.vec.away
  status : liveGet b offTwnMoonStatus = liveGet a offTwnMoonStatus
  epc : b.epc = a.epc
  xp : b.xp = a.xp

theorem FaultSame.trans {a b c : Dev} (h : FaultSame a b) (k : FaultSame b c) : FaultSame a c := by
  refine ⟨?_, k.places.trans h.places, k.away.trans h.away, k.status.trans h.status, k.epc.trans h.epc, k.xp.trans h.xp⟩
  rw [← h.moon, ← k.moon]

theorem MoonSame.fault {a b : Dev} (h : MoonSame a b) : FaultSame a b :=
  ⟨by rw [h.moon], h.places, h.away, h.status, h.epc, h.xp⟩

theorem FaultSame.jobs {a b : Dev} (h : FaultSame a b) : b.moon.jobs = a.moon.jobs := by rw [← h.moon]

theorem FaultSame.avail {a b : Dev} (h : FaultSame a b) (pool : Nat) : moonAvail b pool = moonAvail a pool := by
  simp only [moonAvail, liveB, h.status]

theorem retire_fault {pool cluster : Nat} (hp : pool < 2) (h : cluster < 16) (d : Dev) : FaultSame d (retire d pool cluster) := by
  obtain rfl | rfl : pool = 0 ∨ pool = 1 := by omega
  · exact ⟨rfl, rfl, rfl, rfl, rfl, rfl⟩
  · rw [retire_vec]
    have first : FaultSame d (setRetired d (setIns d.vec.retired cluster)) := ⟨rfl, rfl, rfl, rfl, rfl, rfl⟩
    exact first.trans (coresOut_spec h _).1.moonSame.fault

theorem isRetired_retire {pool : Nat} (hp : pool < 2) {cluster : Nat} (h : cluster < 16) (d : Dev) :
    isRetired (retire d pool cluster) pool cluster = true := by
  obtain rfl | rfl : pool = 0 ∨ pool = 1 := by omega
  · rw [retire_xp]
    show (setIns d.moon.xpRetired cluster).contains cluster = true
    rw [List.contains_iff_mem, mem_setIns]
    exact .inl rfl
  · obtain ⟨ended, -, -⟩ := coresOut_spec h (setRetired d (setIns d.vec.retired cluster))
    rw [retire_vec, ended.moonSame.isRetired]
    show (setIns d.vec.retired cluster).contains cluster = true
    rw [List.contains_iff_mem, mem_setIns]
    exact .inl rfl

theorem retire_keeps {pool cluster : Nat} (hp : pool < 2) (h : cluster < 16) (d : Dev) : Keeps d (retire d pool cluster) := by
  have grows : ∀ {l : List Nat} {k : Nat}, l.contains k = true → (setIns l cluster).contains k = true := by
    intro l k hk
    rw [List.contains_iff_mem] at hk ⊢
    exact mem_setIns.mpr (.inr hk)
  obtain rfl | rfl : pool = 0 ∨ pool = 1 := by omega
  · refine ⟨fun p k ret => ?_, fun _ _ => id, fun _ _ h => ⟨h.state, h.item, h.handler, h.affinity⟩⟩
    rw [retire_xp]
    unfold isRetired at ret ⊢
    split at ret
    · next xp =>
      rw [if_pos xp]
      exact grows ret
    · next vec =>
      rw [if_neg vec]
      exact ret
  · rw [retire_vec]
    obtain ⟨ended, -, isolated⟩ := coresOut_spec h (setRetired d (setIns d.vec.retired cluster))
    refine ⟨fun p k ret => ?_, fun s c rep => ?_, fun j hj h => isolated j hj ⟨h.state, h.item, h.handler, h.affinity⟩⟩
    · rw [ended.moonSame.isRetired]
      unfold isRetired at ret ⊢
      split at ret
      · next xp =>
        rw [if_pos xp]
        exact ret
      · next vec =>
        rw [if_neg vec]
        exact grows ret
    · rw [Reported, ended.errUnit]
      exact rep

/-! ### The moon is lost (R370) -/

/-- RESULT is apart from the moon's other fields. -/
theorem liveB_moonResult (d : Dev) (v : Nat) {i : Nat} (h : i < 28) : liveB (moonResult d v) offTwnMoonStatus i = liveB d offTwnMoonStatus i := by
  rw [liveB, moonResult, liveGet_liveSetF, if_pos rfl, bit_setBits _ _ _ (by decide) (by decide), if_neg (by omega), liveB]

theorem liveF_moonResult (d : Dev) {v : Nat} (h : v < 16) : liveF (moonResult d v) offTwnMoonStatus 31 28 = v := by
  rw [moonResult, liveF_liveSetF_same _ _ _ (by decide) (by decide)]
  exact Nat.mod_eq_of_lt h

theorem moonAvail_moonResult (d : Dev) (v : Nat) {pool : Nat} (hp : pool < 2) : moonAvail (moonResult d v) pool = moonAvail d pool :=
  liveB_moonResult d v (by omega)

/-- The planned replacements of the pool are off, before the result is shown. -/
def plannedOff (pool : Nat) (d : Dev) : Dev :=
  let d := setMoon d { d.moon with jobs := d.moon.jobs.filter fun j => !(decide (j.pool = pool) && j.planned) }
  if pool = 1 then { d with vec := { d.vec with closing := [], away := d.vec.closing.foldl setDel d.vec.away } } else d

theorem dropPlanned_eq (pool result : Nat) (d : Dev) : dropPlanned pool result d = moonResult (plannedOff pool d) result := rfl

theorem plannedOff_moon (pool : Nat) (d : Dev) : (plannedOff pool d).moon =
    { d.moon with jobs := d.moon.jobs.filter fun j => !(decide (j.pool = pool) && j.planned) } := by
  unfold plannedOff
  dsimp only
  split <;> rfl

/-- Beside the jobs and what a replacement closes nothing changes. -/
theorem plannedOff_rest (pool : Nat) (d : Dev) : plannedOff pool d =
    { d with moon := (plannedOff pool d).moon
             vec := { d.vec with closing := (plannedOff pool d).vec.closing, away := (plannedOff pool d).vec.away } } := by
  unfold plannedOff
  dsimp only
  split <;> rfl

theorem moonResult_moon (d : Dev) (v : Nat) : (moonResult d v).moon = d.moon := liveSetF_moon d _ _ _ _

theorem dropPlanned_moon (pool result : Nat) (d : Dev) : (dropPlanned pool result d).moon =
    { d.moon with jobs := d.moon.jobs.filter fun j => !(decide (j.pool = pool) && j.planned) } := by
  rw [dropPlanned_eq, moonResult_moon, plannedOff_moon]

theorem dropPlanned_places (pool result : Nat) (d : Dev) : (dropPlanned pool result d).vec.places = d.vec.places := by
  rw [dropPlanned_eq, plannedOff_rest]
  rfl

theorem dropPlanned_avail (result : Nat) (d : Dev) {pool : Nat} (hp : pool < 2) :
    moonAvail (dropPlanned pool result d) pool = moonAvail d pool := by
  rw [dropPlanned_eq, moonAvail_moonResult _ _ hp, plannedOff_rest]
  rfl

theorem dropPlanned_keeps (pool result : Nat) (d : Dev) : Keeps d (dropPlanned pool result d) := by
  rw [dropPlanned_eq, plannedOff_rest]
  refine .of ?_ rfl rfl rfl fun j hj => ?_
  · show (plannedOff pool d).moon.xpRetired = _
    rw [plannedOff_moon]
  · rw [moonResult, liveGet_liveSetF, if_neg (by unfold offVecCoreState offTwnMoonStatus; omega)]
    rfl

/-- The substitution j is off. -/
def jobOff (d : Dev) (j : Subst) : Dev := setMoon d { d.moon with jobs := d.moon.jobs.filter fun k => decide (k ≠ j) }

/-- The substitution j of a cluster of the vector pool ends: dispatch is free, and the cluster's position, where it has one, is given up. -/
def vecGivenUp (d : Dev) (j : Subst) : Dev :=
  match clusterPos { jobOff d j with wd := { d.wd with recovery := false } } 1 j.cluster with
  | none => { jobOff d j with wd := { d.wd with recovery := false } }
  | some pos =>
    { jobOff d j with wd := { d.wd with recovery := false },
                      vec := { d.vec with places := d.vec.places.set pos none, away := (corePositions pos).foldl setDel d.vec.away } }

theorem vecGivenUp_rest (d : Dev) (j : Subst) : vecGivenUp d j =
    { jobOff d j with wd := { d.wd with recovery := false },
                      vec := { d.vec with places := (vecGivenUp d j).vec.places, away := (vecGivenUp d j).vec.away } } := by
  unfold vecGivenUp
  split <;> rfl

theorem dropSubst_none {pool : Nat} {d : Dev} (h : d.moon.jobs.find? (fun j => decide (j.pool = pool) && !j.planned) = none) :
    dropSubst pool d = d := by
  unfold dropSubst
  rw [h]

theorem dropSubst_xp {d : Dev} {j : Subst} (h : d.moon.jobs.find? (fun j => decide (j.pool = 0) && !j.planned) = some j) :
    dropSubst 0 d = raiseErr (jobOff d j) (srcOf blkXp 0) 0x0007 (BitVec.ofNat 32 j.cluster) 0 := by
  unfold dropSubst
  rw [h]
  exact if_pos rfl

theorem dropSubst_vec {pool : Nat} {d : Dev} {j : Subst} (hp : pool ≠ 0)
    (h : d.moon.jobs.find? (fun j => decide (j.pool = pool) && !j.planned) = some j) : dropSubst pool d = vecGivenUp d j := by
  unfold dropSubst
  rw [h]
  exact if_neg hp

/-- What the end of a substitution leaves. -/
structure SubstDropped (a b : Dev) : Prop where
  status : liveGet b offTwnMoonStatus = liveGet a offTwnMoonStatus
  patrols : b.moon.patrols = a.moon.patrols
  keeps : Keeps a b

theorem dropSubst_dropped (pool : Nat) (d : Dev) : SubstDropped d (dropSubst pool d) := by
  cases h : d.moon.jobs.find? (fun j => decide (j.pool = pool) && !j.planned) with
  | none =>
    rw [dropSubst_none h]
    exact ⟨rfl, rfl, .refl d⟩
  | some j =>
    by_cases hp : pool = 0
    · subst hp
      have same := raiseErr_moonSame (jobOff d j) (srcOf blkXp 0) 0x0007 (BitVec.ofNat 32 j.cluster) 0
      have off : Keeps d (jobOff d j) := .of rfl rfl rfl rfl fun _ _ => rfl
      rw [dropSubst_xp h]
      exact ⟨same.status, by rw [same.moon]; rfl, off.trans (raiseErr_keeps _ _ _ _ _)⟩
    · rw [dropSubst_vec hp h, vecGivenUp_rest]
      exact ⟨rfl, rfl, .of rfl rfl rfl rfl fun _ _ => rfl⟩

theorem moonOf_lt (d : Dev) (pool : Nat) : moonOf d pool < 16 := by
  unfold moonOf
  split
  · exact lt_of_lt_of_le (liveF_lt d _ 2 0) (by decide)
  · exact liveF_lt d _ 11 8

/-- The moon is no longer there, and its patrol ends. -/
def moonGone (pool : Nat) (d : Dev) : Dev :=
  let d := setAvail (retire d pool (moonOf d pool)) pool false
  setMoon d { d.moon with patrols := mapDel d.moon.patrols pool }

theorem retireMoon_eq (pool : Nat) (d : Dev) : retireMoon pool d =
    if (dropSubst pool (moonGone pool d)).moon.jobs.any fun j => decide (j.pool = pool) && j.planned then
      dropPlanned pool 5 (dropSubst pool (moonGone pool d)) else dropSubst pool (moonGone pool d) := rfl

theorem moonGone_avail (d : Dev) {pool : Nat} (hp : pool < 2) : moonAvail (moonGone pool d) pool = false :=
  liveB_liveSetB_same _ _ _ (by omega)

/-- The moon that is lost is spent. -/
theorem retireMoon_avail (d : Dev) {pool : Nat} (hp : pool < 2) : moonAvail (retireMoon pool d) pool = false := by
  have gone : moonAvail (dropSubst pool (moonGone pool d)) pool = false := by
    rw [moonAvail, liveB, (dropSubst_dropped pool _).status]
    exact moonGone_avail d hp
  rw [retireMoon_eq]
  split
  · rw [dropPlanned_avail _ _ hp, gone]
  · exact gone

theorem retireMoon_patrols (pool : Nat) (d : Dev) : ∀ q ∈ (retireMoon pool d).moon.patrols, q.1 ≠ pool := by
  have gone : (dropSubst pool (moonGone pool d)).moon.patrols =
      mapDel (setAvail (retire d pool (moonOf d pool)) pool false).moon.patrols pool := (dropSubst_dropped pool _).patrols
  have all : (retireMoon pool d).moon.patrols = (dropSubst pool (moonGone pool d)).moon.patrols := by
    rw [retireMoon_eq]
    split
    · rw [dropPlanned_moon]
    · rfl
  rw [all, gone]
  exact mapDel_keys _ _

theorem moonGone_keeps (d : Dev) (pool : Nat) : Keeps (retire d pool (moonOf d pool)) (moonGone pool d) := by
  refine .of rfl rfl rfl rfl fun j hj => ?_
  show liveGet (setAvail _ _ _) _ = _
  rw [setAvail, liveGet_liveSetB, if_neg (by unfold offVecCoreState offTwnMoonStatus; omega)]

theorem retireMoon_keeps (d : Dev) (pool : Nat) : Keeps (retire d pool (moonOf d pool)) (retireMoon pool d) := by
  have gone : Keeps (retire d pool (moonOf d pool)) (dropSubst pool (moonGone pool d)) :=
    (moonGone_keeps d pool).trans (dropSubst_dropped pool _).keeps
  rw [retireMoon_eq]
  split
  · exact gone.trans (dropPlanned_keeps pool 5 _)
  · exact gone

end Sys2Proof.Machine
end

section
/-!
HARD_FAULT (R14, R365, R367, R370), in the cases of its cluster: a spare one, the moon, one with a position and a free moon, one without.
-/
namespace Sys2Proof.Machine

/-- The unit that detects a fault reports it under its own identity (R14). -/
def faultSource (pool k unit : Nat) : Nat := srcOf (if pool = 0 then blkXp else blkVec) (4 * k + unit)

/-- The device once the fault is logged. -/
def faultLogged (pool k unit cause : Nat) (d : Dev) : Dev :=
  raiseErr d (faultSource pool k unit) 0x0006 (BitVec.ofNat 32 k) (BitVec.ofNat 32 cause)

/-- A failed vector cluster's cores are stopped. -/
def coresStopped (pool k : Nat) (d : Dev) : Dev := if pool = 1 then vecIsolate k d else d

/-- The planned replacements of a pool whose moon is free end for the fault. -/
def replacementsOff (pool : Nat) (d : Dev) : Dev :=
  if d.moon.jobs.any fun j => decide (j.pool = pool) && j.planned then dropPlanned pool 5 d else d

/-- The cluster is retired and isolated. -/
def clusterOut (pool k : Nat) (d : Dev) : Dev := coresStopped pool k (retire d pool k)

/-- A takeover of the pool's cluster k is planned for epoch t. -/
def substPlanned (pool k t : Nat) (d : Dev) : Dev := setMoon d { d.moon with jobs := d.moon.jobs ++ [⟨pool, k, t, false⟩] }

/-- A crosspoint position loses its lanes' work. -/
def laneStruck (pos : Nat) (d : Dev) : Dev :=
  strikePool pos { d with xp := { d.xp with
    dead := some (pos, none), banks := d.xp.banks.filter fun b => decide (b.1 / 4096 ≠ pos),
    work := d.xp.work.filter fun w => decide (w.1 / 4 ≠ pos) } }

/-- A vector position leaves dispatch, and WD is in ordered mode. -/
def positionAway (pos : Nat) (d : Dev) : Dev :=
  { d with vec := { d.vec with away := (corePositions pos).foldl setIns d.vec.away }
           wd := { d.wd with recovery := true } }

/-- A vector position has no cluster. -/
def positionGivenUp (pos : Nat) (d : Dev) : Dev := { d with vec := { d.vec with places := d.vec.places.set pos none } }

theorem substPlanned_keeps (pool k t : Nat) (d : Dev) : Keeps d (substPlanned pool k t d) := .of rfl rfl rfl rfl fun _ _ => rfl

theorem positionAway_keeps (pos : Nat) (d : Dev) : Keeps d (positionAway pos d) := .of rfl rfl rfl rfl fun _ _ => rfl

theorem positionGivenUp_keeps (pos : Nat) (d : Dev) : Keeps d (positionGivenUp pos d) := .of rfl rfl rfl rfl fun _ _ => rfl

theorem faultLogged_same (pool k unit cause : Nat) (d : Dev) : MoonSame d (faultLogged pool k unit cause d) := raiseErr_moonSame d _ _ _ _

theorem faultLogged_reported (pool k unit cause : Nat) (d : Dev) :
    Reported (faultLogged pool k unit cause d) (faultSource pool k unit) 0x0006 := raiseErr_reported d _ _ _ (by decide)

theorem fatal_faultLogged (pool k unit cause : Nat) (d : Dev) : fatal (faultLogged pool k unit cause d) = fatal d := by
  have cls : classOf 0x0006 = 1 := by decide
  rw [faultLogged, raiseErr_plain _ _ (fun esc => absurd esc.1 (by omega)), setReports_fatal, raised_other (by omega), fatal_counted]

theorem coresStopped_spec {pool k : Nat} (h : pool = 1 → k < 9) (d : Dev) : CoresEnded d (coresStopped pool k d) ∧
    (pool = 1 → ∀ c, c < 4 → Isolated (4 * k + c) (coresStopped pool k d)) := by
  unfold coresStopped
  split
  · next vec => exact ⟨(vecIsolate_spec (h vec) d).1, fun _ => (vecIsolate_spec (h vec) d).2⟩
  · next xp => exact ⟨.refl d, fun vec => absurd vec xp⟩

theorem CoresEnded.reported {a b : Dev} (h : CoresEnded a b) {source code : Nat} (r : Reported a source code) : Reported b source code := by
  rw [Reported, h.errUnit]
  exact r

/-! ### The cases -/

section
variable {pool k unit cause : Nat} {d : Dev}

theorem hardFault_retired (h : isRetired d pool k = true) : hardFault pool k unit cause d = d := if_pos h

section
variable (live : isRetired d pool k = false)
include live

theorem hardFault_none (hk : pool = 1 → k < 9) (h : clusterPos d pool k = none) : hardFault pool k unit cause d =
    if k = moonOf d pool ∧ moonAvail d pool = true then retireMoon pool (coresStopped pool k (faultLogged pool k unit cause d))
    else retire (coresStopped pool k (faultLogged pool k unit cause d)) pool k := by
  have same := faultLogged_same pool k unit cause d
  have stop := (same.trans (coresStopped_spec hk (faultLogged pool k unit cause d)).1.moonSame)
  rw [← stop.moonOf pool, ← stop.avail pool]
  rw [← same.clusterPos] at h
  unfold hardFault
  rw [if_neg (by rw [live]; decide)]
  dsimp only
  rw [← faultSource, ← faultLogged, h]
  rfl

theorem hardFault_free {pos : Nat} (h : clusterPos d pool k = some pos) (free : moonFree d pool = true) :
    hardFault pool k unit cause d =
      let s := substPlanned pool k (takeoverEpoch d pool k) (clusterOut pool k (replacementsOff pool (faultLogged pool k unit cause d)))
      if pool = 0 then laneStruck pos s else positionAway pos s := by
  have same := faultLogged_same pool k unit cause d
  rw [← same.free] at free
  rw [← same.takeoverEpoch]
  rw [← same.clusterPos] at h
  unfold hardFault
  rw [if_neg (by rw [live]; decide)]
  dsimp only
  rw [← faultSource, ← faultLogged, h]
  generalize faultLogged pool k unit cause d = e at free ⊢
  dsimp only
  rw [free, Bool.and_true, if_pos rfl]
  rfl

theorem hardFault_lost {pos : Nat} (h : clusterPos d pool k = some pos) (spent : moonFree d pool = false) :
    hardFault pool k unit cause d =
      let out := clusterOut pool k (faultLogged pool k unit cause d)
      if pool = 0 then raiseErr out (srcOf blkXp 0) 0x0007 (BitVec.ofNat 32 k) 0 else positionGivenUp pos out := by
  have same := faultLogged_same pool k unit cause d
  rw [← same.free] at spent
  rw [← same.clusterPos] at h
  unfold hardFault
  rw [if_neg (by rw [live]; decide)]
  dsimp only
  rw [← faultSource, ← faultLogged, h]
  generalize faultLogged pool k unit cause d = e at spent ⊢
  dsimp only
  rw [spent, Bool.and_false, if_neg Bool.false_ne_true, if_neg Bool.false_ne_true]
  rfl

end
end

/-! ### What the cases have in common -/

/-- What every fault leaves: the cluster is retired, the fault reported, and a vector cluster's cores are out. -/
structure Faulted (pool k unit : Nat) (d : Dev) : Prop where
  retired : isRetired d pool k = true
  reported : Reported d (faultSource pool k unit) 0x0006
  cores : pool = 1 → ∀ c, c < 4 → Isolated (4 * k + c) d

theorem Faulted.keep {pool k unit : Nat} {a b : Dev} (h : Faulted pool k unit a) (hk : pool = 1 → k < 9) (keeps : Keeps a b) :
    Faulted pool k unit b :=
  ⟨keeps.retired _ _ h.retired, keeps.reports _ _ h.reported,
    fun vec c hc => keeps.isolated _ (by have := hk vec; omega) (h.cores vec c hc)⟩

section
variable {pool k : Nat} (hp : pool < 2) (h16 : k < 16) (hk : pool = 1 → k < 9) (e : Dev)
include hp h16 hk

theorem clusterOut_same : FaultSame e (clusterOut pool k e) :=
  (retire_fault hp h16 e).trans (coresStopped_spec hk _).1.moonSame.fault

theorem clusterOut_faulted {unit : Nat} (h : Reported e (faultSource pool k unit) 0x0006) :
    Faulted pool k unit (clusterOut pool k e) := by
  obtain ⟨ended, cores⟩ := coresStopped_spec hk (retire e pool k)
  exact ⟨(ended.moonSame.isRetired pool k).trans (isRetired_retire hp h16 e),
    ended.reported ((retire_keeps hp h16 e).reports _ _ h), cores⟩

/-- Of a cluster without a position: the cores stop first. -/
theorem retire_faulted {unit : Nat} (h : Reported e (faultSource pool k unit) 0x0006) :
    Faulted pool k unit (retire (coresStopped pool k e) pool k) := by
  obtain ⟨ended, cores⟩ := coresStopped_spec hk e
  have keeps := retire_keeps hp h16 (coresStopped pool k e)
  exact ⟨isRetired_retire hp h16 _, keeps.reports _ _ (ended.reported h),
    fun vec c hc => keeps.isolated _ (by have := hk vec; omega) (cores vec c hc)⟩

end

theorem replacementsOff_reported {pool source code : Nat} {d : Dev} (h : Reported d source code) :
    Reported (replacementsOff pool d) source code := by
  unfold replacementsOff
  split
  · exact (dropPlanned_keeps pool 5 d).reports _ _ h
  · exact h

theorem replacementsOff_jobs (pool : Nat) (d : Dev) : ∀ j ∈ (replacementsOff pool d).moon.jobs, j.pool = pool → j.planned = false := by
  unfold replacementsOff
  split
  · rw [dropPlanned_moon]
    rintro j hj rfl
    have kept := (List.mem_filter.mp hj).2
    simpa using kept
  · next none =>
    rintro j hj rfl
    rw [Bool.not_eq_true, List.any_eq_false] at none
    simpa using none j hj

theorem replacementsOff_places (pool : Nat) (d : Dev) : (replacementsOff pool d).vec.places = d.vec.places := by
  unfold replacementsOff
  split
  · exact dropPlanned_places pool 5 d
  · rfl

theorem replacementsOff_avail (d : Dev) {pool : Nat} (hp : pool < 2) : moonAvail (replacementsOff pool d) pool = moonAvail d pool := by
  unfold replacementsOff
  split
  · exact dropPlanned_avail 5 d hp
  · rfl

theorem takeoverEpoch_le (d : Dev) (pool k : Nat) : takeoverEpoch d pool k ≤ d.epc.epoch + 3 := by
  unfold takeoverEpoch
  dsimp only
  split
  · split
    · next early => exact early.2.1.le
    · exact le_rfl
  · exact le_rfl

theorem mem_corePositions {pos c : Nat} (h : c < 4) : 4 * pos + c ∈ corePositions pos := by
  simp only [corePositions, List.mem_cons, List.not_mem_nil, or_false]
  omega

theorem strikePool_rest (pos : Nat) (d : Dev) : strikePool pos d = { d with xp := { d.xp with pool := (strikePool pos d).xp.pool } } := by
  unfold strikePool
  split <;> rfl

theorem laneStruck_keeps (pos : Nat) (d : Dev) : Keeps d (laneStruck pos d) := by
  rw [laneStruck, strikePool_rest]
  exact .of rfl rfl rfl rfl fun _ _ => rfl

theorem FaultSame.epoch {a b : Dev} (h : FaultSame a b) : b.epc.epoch = a.epc.epoch := by rw [h.epc]

theorem fatal_clusterOut {k : Nat} (hk : k < 9) (d : Dev) : fatal (clusterOut 1 k d) = fatal d := by
  have stop := (coresStopped_spec (pool := 1) (fun _ => hk) (retire d 1 k)).1.regs offErrStatus (by decide)
  have out := (coresOut_spec (show k < 16 by omega) (setRetired d (setIns d.vec.retired k))).1.regs offErrStatus (by decide)
  rw [← retire_vec] at out
  rw [fatal, fatal, liveB, liveB, clusterOut, stop, out]
  rfl

/-- Every hard fault of a cluster that is not retired yet. -/
theorem hardFault_faulted {pool k unit cause : Nat} {d : Dev} (hp : pool < 2) (h16 : k < 16) (hk : pool = 1 → k < 9)
    (live : isRetired d pool k = false) : Faulted pool k unit (hardFault pool k unit cause d) := by
  have logged := faultLogged_reported pool k unit cause d
  cases h : clusterPos d pool k with
  | none =>
    rw [hardFault_none live hk h]
    have out := retire_faulted hp h16 hk _ logged
    split
    · next moon =>
      have stop := (faultLogged_same pool k unit cause d).trans (coresStopped_spec hk (faultLogged pool k unit cause d)).1.moonSame
      refine out.keep hk ?_
      have keeps := retireMoon_keeps (coresStopped pool k (faultLogged pool k unit cause d)) pool
      rwa [stop.moonOf, ← moon.1] at keeps
    · exact out
  | some pos =>
    cases free : moonFree d pool with
    | true =>
      rw [hardFault_free live h free]
      have out := (clusterOut_faulted hp h16 hk _ (replacementsOff_reported (pool := pool) logged)).keep hk (substPlanned_keeps pool k (takeoverEpoch d pool k) _)
      dsimp only
      split
      · exact out.keep hk (laneStruck_keeps pos _)
      · exact out.keep hk (positionAway_keeps pos _)
    | false =>
      rw [hardFault_lost live h free]
      have out := clusterOut_faulted hp h16 hk _ logged
      dsimp only
      split
      · exact out.keep hk (raiseErr_keeps _ _ _ _ _)
      · exact out.keep hk (positionGivenUp_keeps pos _)


/-! ### A cluster with a position -/

/-- With a free moon: a takeover is planned, and no other work of the pool. -/
structure TakeoverPlanned (pool k : Nat) (a b : Dev) : Prop where
  job : ⟨pool, k, takeoverEpoch a pool k, false⟩ ∈ b.moon.jobs
  alone : ∀ j ∈ b.moon.jobs, j.pool = pool → j.planned = false
  avail : moonAvail b pool = true
  places : b.vec.places = a.vec.places

section
variable {pool k unit cause pos : Nat} {d : Dev} (hp : pool < 2) (h16 : k < 16) (hk : pool = 1 → k < 9)
  (live : isRetired d pool k = false) (h : clusterPos d pool k = some pos)
include hp h16 hk live h

theorem hardFault_planned (free : moonFree d pool = true) : TakeoverPlanned pool k d (hardFault pool k unit cause d) := by
  have logged := faultLogged_same pool k unit cause d
  have avail : moonAvail d pool = true := (Bool.and_eq_true_iff.mp free).1
  rw [hardFault_free live h free]
  have jobs := replacementsOff_jobs pool (faultLogged pool k unit cause d)
  have places := replacementsOff_places pool (faultLogged pool k unit cause d)
  have there := replacementsOff_avail (faultLogged pool k unit cause d) hp
  have out := clusterOut_same hp h16 hk (replacementsOff pool (faultLogged pool k unit cause d))
  have planned : TakeoverPlanned pool k d (substPlanned pool k (takeoverEpoch d pool k)
      (clusterOut pool k (replacementsOff pool (faultLogged pool k unit cause d)))) := by
    refine ⟨List.mem_append_right _ List.mem_cons_self, fun j hj same => ?_, ?_, ?_⟩
    · rcases List.mem_append.mp hj with hj | hj
      · rw [out.jobs] at hj
        exact jobs j hj same
      · rw [List.mem_singleton.mp hj]
    · exact (out.avail pool).trans (there.trans ((logged.avail pool).trans avail))
    · exact out.places.trans (places.trans logged.places)
  generalize substPlanned pool k _ _ = s at planned ⊢
  obtain ⟨job, alone, avail, places⟩ := planned
  dsimp only
  split
  · rw [laneStruck, strikePool_rest]
    exact ⟨job, alone, avail, places⟩
  · exact ⟨job, alone, avail, places⟩

end

section
variable {k unit cause pos : Nat} {d : Dev}

theorem clusterOut_xp (k : Nat) (d : Dev) : clusterOut 0 k d = retire d 0 k := by
  rw [clusterOut, coresStopped, if_neg Nat.zero_ne_one]

/-- A crosspoint position with a free moon loses its lanes' work. -/
theorem hardFault_struck (live : isRetired d 0 k = false) (h : clusterPos d 0 k = some pos) (free : moonFree d 0 = true) :
    ∃ s : Dev, hardFault 0 k unit cause d = laneStruck pos s := ⟨_, (hardFault_free live h free).trans (if_pos rfl)⟩

theorem laneStruck_dead (pos : Nat) (s : Dev) : (laneStruck pos s).xp.dead = some (pos, none) := by
  rw [laneStruck, strikePool_rest]

theorem laneStruck_banks (pos : Nat) (s : Dev) : ∀ b ∈ (laneStruck pos s).xp.banks, b.1 / 4096 ≠ pos := by
  rw [laneStruck, strikePool_rest]
  exact fun b hb => of_decide_eq_true (List.mem_filter.mp hb).2

theorem laneStruck_work (pos : Nat) (s : Dev) : ∀ w ∈ (laneStruck pos s).xp.work, w.1 / 4 ≠ pos := by
  rw [laneStruck, strikePool_rest]
  exact fun w hw => of_decide_eq_true (List.mem_filter.mp hw).2

/-- A vector position with a free moon leaves dispatch. -/
theorem hardFault_away (live : isRetired d 1 k = false) (h : clusterPos d 1 k = some pos) (free : moonFree d 1 = true) :
    ∃ s : Dev, hardFault 1 k unit cause d = positionAway pos s := ⟨_, (hardFault_free live h free).trans (if_neg Nat.one_ne_zero)⟩

theorem positionAway_away (pos : Nat) (s : Dev) {c : Nat} (hc : c < 4) : 4 * pos + c ∈ (positionAway pos s).vec.away :=
  mem_foldl_setIns.mpr (.inl (mem_corePositions hc))

theorem hardFault_xpLost (live : isRetired d 0 k = false) (h : clusterPos d 0 k = some pos) (spent : moonFree d 0 = false) :
    hardFault 0 k unit cause d = raiseErr (retire (faultLogged 0 k unit cause d) 0 k) (srcOf blkXp 0) 0x0007 (BitVec.ofNat 32 k) 0 := by
  rw [hardFault_lost live h spent, clusterOut_xp]
  exact if_pos rfl

theorem hardFault_vecLost (live : isRetired d 1 k = false) (h : clusterPos d 1 k = some pos) (spent : moonFree d 1 = false) :
    hardFault 1 k unit cause d = positionGivenUp pos (clusterOut 1 k (faultLogged 1 k unit cause d)) :=
  (hardFault_lost live h spent).trans (if_neg Nat.one_ne_zero)

theorem hardFault_xpLost_fatal (live : isRetired d 0 k = false) (h : clusterPos d 0 k = some pos) (spent : moonFree d 0 = false) :
    fatal (hardFault 0 k unit cause d) = true := by
  rw [hardFault_xpLost live h spent, raiseErr_fatalCode _ _ (by decide), setReports_fatal, fatal_fatalEffects]

theorem hardFault_xpLost_jobs (live : isRetired d 0 k = false) (h : clusterPos d 0 k = some pos) (spent : moonFree d 0 = false) :
    (hardFault 0 k unit cause d).moon.jobs = d.moon.jobs := by
  rw [hardFault_xpLost live h spent, (raiseErr_moonSame _ _ _ _ _).moon, retire_xp, ← (faultLogged_same 0 k unit cause d).moon]
  rfl

/-- A vector position without a free moon is given up. -/
theorem hardFault_vecLost_spec (hk : k < 9) (live : isRetired d 1 k = false) (h : clusterPos d 1 k = some pos)
    (spent : moonFree d 1 = false) : (hardFault 1 k unit cause d).moon.jobs = d.moon.jobs ∧
    (hardFault 1 k unit cause d).vec.places = d.vec.places.set pos none ∧ fatal (hardFault 1 k unit cause d) = fatal d := by
  have logged := faultLogged_same 1 k unit cause d
  have out := clusterOut_same (pool := 1) (by decide) (show k < 16 by omega) (fun _ => hk) (faultLogged 1 k unit cause d)
  have alive := (fatal_clusterOut hk (faultLogged 1 k unit cause d)).trans (fatal_faultLogged 1 k unit cause d)
  rw [hardFault_vecLost live h spent]
  refine ⟨out.jobs.trans (by rw [logged.moon]), ?_, alive⟩
  rw [← logged.places, ← out.places]
  rfl

end

end Sys2Proof.Machine
end

section
/-!
MOON_TAKEOVER (R366, R367, R369): a planned replacement that is due, and a substitution after a fault.
-/
namespace Sys2Proof.Machine

/-- b is a but for the cores and for registers of VEC and of the blocks above it. -/
structure CoresLoaded (a b : Dev) : Prop where
  low : ∀ o, o < 0x1000100 → liveGet b o = liveGet a o
  rest : b = { a with regs := b.regs, vec := { a.vec with cores := b.vec.cores } }

theorem CoresLoaded.refl (a : Dev) : CoresLoaded a a := ⟨fun _ _ => rfl, rfl⟩

theorem CoresLoaded.trans {a b c : Dev} (h : CoresLoaded a b) (k : CoresLoaded b c) : CoresLoaded a c := by
  refine ⟨fun o ho => (k.low o ho).trans (h.low o ho), ?_⟩
  have rest := k.rest
  rw [h.rest] at rest
  exact rest

theorem CoresLoaded.liveSet {a b : Dev} (h : CoresLoaded a b) {o : Nat} (high : 0x1000100 ≤ o) (w : Word) :
    CoresLoaded a (liveSet b o w) :=
  h.trans ⟨fun p hp => liveGet_liveSet_other b w (by omega), rfl⟩

theorem CoresLoaded.setCore {a b : Dev} (h : CoresLoaded a b) (k : Nat) (c : VecCore) : CoresLoaded a (setCore b k c) :=
  h.trans ⟨fun _ _ => rfl, rfl⟩

theorem CoresLoaded.setCoreState {a b : Dev} (h : CoresLoaded a b) (k v : Nat) : CoresLoaded a (setCoreState b k v) :=
  h.liveSet (by unfold offVecCoreState; omega) _

theorem CoresLoaded.raiseEvt {a b : Dev} (h : CoresLoaded a b) (s : Nat) : CoresLoaded a (raiseEvt b s) := by
  unfold Machine.raiseEvt
  split
  · exact h.liveSet (by decide) _
  · exact h.liveSet (by unfold offEvtPend; omega) _

theorem CoresLoaded.foldl {α : Type} {f : Dev → α → Dev} (hf : ∀ d x, CoresLoaded d (f d x)) (l : List α) (d : Dev) :
    CoresLoaded d (l.foldl f d) := by
  induction l generalizing d with
  | nil => exact .refl d
  | cons x t ih => exact (hf d x).trans (ih _)

theorem CoresLoaded.moon {a b : Dev} (h : CoresLoaded a b) : b.moon = a.moon := by rw [h.rest]

theorem CoresLoaded.xp {a b : Dev} (h : CoresLoaded a b) : b.xp = a.xp := by rw [h.rest]

theorem CoresLoaded.epc {a b : Dev} (h : CoresLoaded a b) : b.epc = a.epc := by rw [h.rest]

theorem CoresLoaded.places {a b : Dev} (h : CoresLoaded a b) : b.vec.places = a.vec.places := by rw [h.rest]

theorem CoresLoaded.closing {a b : Dev} (h : CoresLoaded a b) : b.vec.closing = a.vec.closing := by rw [h.rest]

theorem CoresLoaded.moonStatus {a b : Dev} (h : CoresLoaded a b) : liveGet b offTwnMoonStatus = liveGet a offTwnMoonStatus :=
  h.low _ (by decide)

theorem loadCkpt_loaded (moon cluster : Nat) (d : Dev) : CoresLoaded d (loadCkpt moon cluster d) := by
  unfold loadCkpt
  split
  · exact .refl d
  · exact .foldl (fun e q => ((CoresLoaded.refl e).setCore _ _).setCoreState _ _) _ d

/-- The idle cores of the cluster are gated. -/
def idleGated (cluster : Nat) (d : Dev) : Dev :=
  (List.range 4).foldl (fun d c => if coreIdle d (4 * cluster + c) then setCoreState d (4 * cluster + c) 0 else d) d

theorem idleGated_loaded (cluster : Nat) (d : Dev) : CoresLoaded d (idleGated cluster d) :=
  .foldl (fun e c => by
    split
    · exact (CoresLoaded.refl e).setCoreState _ _
    · exact .refl e) _ d

/-- What the failed cores accepted since the checkpoint is raised again. -/
def raisedAgain (cluster : Nat) (d : Dev) : Dev :=
  ((List.range 4).flatMap fun c => (coreOf d (4 * cluster + c)).accepted).foldl raiseEvt d

theorem raisedAgain_loaded (cluster : Nat) (d : Dev) : CoresLoaded d (raisedAgain cluster d) :=
  .foldl (fun e s => (CoresLoaded.refl e).raiseEvt s) _ d

/-! ### The fields of MOON_STATUS -/

theorem moonOf_congr {a b : Dev} (h : liveGet b offTwnMoonStatus = liveGet a offTwnMoonStatus) (pool : Nat) : moonOf b pool = moonOf a pool := by
  simp only [moonOf, liveF, h]

theorem moonAvail_congr {a b : Dev} (h : liveGet b offTwnMoonStatus = liveGet a offTwnMoonStatus) (pool : Nat) :
    moonAvail b pool = moonAvail a pool := by
  simp only [moonAvail, liveB, h]

theorem clusterPos_congr {a b : Dev} (xp : b.moon.xpPlaces = a.moon.xpPlaces) (vec : b.vec.places = a.vec.places) (pool k : Nat) :
    clusterPos b pool k = clusterPos a pool k := by
  simp only [clusterPos, xp, vec]

theorem moonOf_moonResult (d : Dev) (v pool : Nat) : moonOf (moonResult d v) pool = moonOf d pool := by
  unfold moonOf liveF moonResult
  rw [liveGet_liveSetF, if_pos rfl, bits_setBits_other _ _ (by decide) (by decide) (.inl (by decide)) (by decide),
    bits_setBits_other _ _ (by decide) (by decide) (.inl (by decide)) (by decide)]

theorem moonOf_setAvail (d : Dev) {pool : Nat} (hp : pool < 2) (v : Bool) (p : Nat) : moonOf (setAvail d pool v) p = moonOf d p := by
  unfold moonOf liveF setAvail
  rw [liveGet_liveSetB, if_pos rfl, bits_setBit_other _ _ (by omega) (.inl (by omega)) (by decide),
    bits_setBit_other _ _ (by omega) (.inl (by omega)) (by decide)]

/-! ### A planned replacement (R369) -/

/-- A replacement is counted and done. -/
def replacementDone (d : Dev) : Dev := moonResult (liveSetF d offTwnMoonCount 31 16 (liveF d offTwnMoonCount 31 16 + 1)) 2

theorem replacementDone_status (d : Dev) : liveF (replacementDone d) offTwnMoonStatus 31 28 = 2 := liveF_moonResult _ (by decide)

theorem moonOf_replacementDone (d : Dev) (pool : Nat) : moonOf (replacementDone d) pool = moonOf d pool := by
  rw [replacementDone, moonOf_moonResult]
  exact moonOf_congr (by rw [liveGet_liveSetF, if_neg (by decide)]) pool

theorem replacementDone_moon (d : Dev) : (replacementDone d).moon = d.moon := by rw [replacementDone, moonResult_moon, liveSetF_moon]

theorem replacementDone_vec (d : Dev) : (replacementDone d).vec = d.vec := by rw [replacementDone, moonResult, liveSetF_vec, liveSetF_vec]

/-- The position that closed is open again. -/
def reopened (pos : Nat) (d : Dev) : Dev :=
  { d with vec := { d.vec with closing := [], away := (corePositions pos).foldl setDel d.vec.away } }

theorem reopened_handler (pos : Nat) (d : Dev) (k : Nat) : inHandler (reopened pos d) k = inHandler d k := rfl

theorem reopened_status (pos : Nat) (d : Dev) : liveGet (reopened pos d) offTwnMoonStatus = liveGet d offTwnMoonStatus := rfl

/-- The device once the moon has loaded its checkpoint and taken the position, and the cluster that leaves is gated. -/
def vecReplaced (pos cluster : Nat) (d : Dev) : Dev :=
  idleGated cluster (takeVec (loadCkpt (moonOf d 1) cluster d) pos)

section
variable {j : Subst} {d : Dev}

theorem takePlanned_none (agreed : Bool) (h : clusterPos d j.pool j.cluster = none) : takePlanned j agreed d = moonResult d 8 := by
  unfold takePlanned
  rw [h]

variable {pos : Nat}

theorem takePlanned_xp (hp : j.pool = 0) (h : clusterPos d 0 j.cluster = some pos) (agreed : Bool) : takePlanned j agreed d =
    if agreed then replacementDone (liveSetF (takeXp d pos) offTwnMoonStatus 2 0 j.cluster) else moonResult d 6 := by
  unfold takePlanned
  rw [hp, h]
  exact if_pos rfl

theorem takePlanned_vec (hp : j.pool = 1) (h : clusterPos d 1 j.cluster = some pos) (agreed : Bool) : takePlanned j agreed d =
    if (List.range 4).any fun c => inHandler d (4 * j.cluster + c) then moonResult (reopened pos d) 7
    else replacementDone (liveSetF (vecReplaced pos j.cluster (reopened pos d)) offTwnMoonStatus 11 8 j.cluster) := by
  unfold takePlanned
  rw [hp, h]
  exact if_neg Nat.one_ne_zero

theorem takePlanned_xp_done (hp : j.pool = 0) (h : clusterPos d 0 j.cluster = some pos) (hj : j.cluster < 5) :
    (takePlanned j true d).moon.xpPlaces = d.moon.xpPlaces.set pos (moonOf d 0) ∧ moonOf (takePlanned j true d) 0 = j.cluster ∧
    liveF (takePlanned j true d) offTwnMoonStatus 31 28 = 2 := by
  rw [takePlanned_xp hp h, if_pos rfl]
  refine ⟨?_, ?_, replacementDone_status _⟩
  · rw [replacementDone_moon, liveSetF_moon, takeXp, setMoon]
  · rw [moonOf_replacementDone, moonOf, if_pos rfl, liveF_liveSetF_same _ _ _ (by decide) (by decide)]
    exact Nat.mod_eq_of_lt (by omega)

theorem takePlanned_vec_handler (hp : j.pool = 1) (h : clusterPos d 1 j.cluster = some pos) (agreed : Bool) {c : Nat} (hc : c < 4)
    (busy : inHandler d (4 * j.cluster + c) = true) : takePlanned j agreed d = moonResult (reopened pos d) 7 := by
  rw [takePlanned_vec hp h, if_pos (List.any_eq_true.mpr ⟨c, List.mem_range.mpr hc, busy⟩)]

theorem takePlanned_vec_done (hp : j.pool = 1) (h : clusterPos d 1 j.cluster = some pos) (agreed : Bool)
    (free : ∀ c, c < 4 → inHandler d (4 * j.cluster + c) = false) : takePlanned j agreed d =
      replacementDone (liveSetF (vecReplaced pos j.cluster (reopened pos d)) offTwnMoonStatus 11 8 j.cluster) := by
  rw [takePlanned_vec hp h, if_neg]
  rw [Bool.not_eq_true, List.any_eq_false]
  intro c hc
  rw [free c (List.mem_range.mp hc)]
  decide

end

theorem vecReplaced_places (pos cluster : Nat) (d : Dev) :
    (vecReplaced pos cluster d).vec.places = d.vec.places.set pos (some (moonOf d 1)) := by
  have load := loadCkpt_loaded (moonOf d 1) cluster d
  rw [vecReplaced, (idleGated_loaded _ _).places]
  show (loadCkpt (moonOf d 1) cluster d).vec.places.set pos (some (moonOf (loadCkpt (moonOf d 1) cluster d) 1)) = _
  rw [load.places, moonOf_congr load.moonStatus]

theorem vecReplaced_closing (pos cluster : Nat) (d : Dev) : (vecReplaced pos cluster d).vec.closing = d.vec.closing := by
  rw [vecReplaced, (idleGated_loaded _ _).closing]
  exact (loadCkpt_loaded (moonOf d 1) cluster d).closing

/-! ### A substitution after a fault (R367) -/

/-- The moon is used up, and counted. -/
def moonSpent (pool : Nat) (d : Dev) : Dev :=
  liveSetF (setAvail d pool false) offTwnMoonCount 15 0 (liveF d offTwnMoonCount 15 0 + 1)

theorem moonSpent_avail (d : Dev) {pool : Nat} (hp : pool < 2) : moonAvail (moonSpent pool d) pool = false := by
  rw [moonAvail, liveB, moonSpent, liveGet_liveSetF, if_neg (by decide)]
  exact liveB_liveSetB_same _ _ _ (by omega)

theorem moonOf_moonSpent (d : Dev) {pool : Nat} (hp : pool < 2) (p : Nat) : moonOf (moonSpent pool d) p = moonOf d p := by
  rw [← moonOf_setAvail d hp false p, moonSpent]
  exact moonOf_congr (by rw [liveGet_liveSetF, if_neg (by decide)]) p

theorem moonSpent_moon (pool : Nat) (d : Dev) : (moonSpent pool d).moon = d.moon := by rw [moonSpent, liveSetF_moon, setAvail, liveSetB_moon]

theorem moonSpent_rest (pool : Nat) (d : Dev) : moonSpent pool d = { d with regs := (moonSpent pool d).regs } := rfl

/-- The epoch at which a vector substitution was made is kept. -/
def recoverSet (d : Dev) : Dev := setMoon d { d.moon with recover := some d.epc.epoch }

section
variable {j : Subst} {d : Dev}

theorem takeFault_none (h : clusterPos d j.pool j.cluster = none) : takeFault j d = moonSpent j.pool d := by
  have same := (clusterPos_congr (a := d) (b := moonSpent j.pool d) (by rw [moonSpent_moon]) (by rw [moonSpent_rest]) j.pool j.cluster).trans h
  unfold takeFault
  dsimp only
  rw [← moonSpent, same]

variable {pos : Nat}

theorem takeFault_xp (hp : j.pool = 0) (h : clusterPos d 0 j.cluster = some pos) : takeFault j d =
    { takeXp (moonSpent 0 d) pos with xp := { d.xp with dead := some (pos, some d.epc.epoch) } } := by
  have same := (clusterPos_congr (a := d) (b := moonSpent 0 d) (by rw [moonSpent_moon]) (by rw [moonSpent_rest]) 0 j.cluster).trans h
  unfold takeFault
  dsimp only
  rw [hp, ← moonSpent, same]
  exact if_pos rfl

theorem takeFault_vec (hp : j.pool = 1) (h : clusterPos d 1 j.cluster = some pos) : takeFault j d =
    raisedAgain j.cluster (recoverSet (takeVec (loadCkpt (moonOf (moonSpent 1 d) 1) j.cluster (moonSpent 1 d)) pos)) := by
  have same := (clusterPos_congr (a := d) (b := moonSpent 1 d) (by rw [moonSpent_moon]) (by rw [moonSpent_rest]) 1 j.cluster).trans h
  unfold takeFault
  dsimp only
  rw [hp, ← moonSpent, same]
  exact if_neg Nat.one_ne_zero

/-- What a vector substitution makes. -/
structure VecSubstituted (pos : Nat) (d e : Dev) : Prop where
  avail : moonAvail e 1 = false
  places : e.vec.places = d.vec.places.set pos (some (moonOf d 1))
  recover : e.moon.recover = some d.epc.epoch

theorem takeFault_vec_substituted (hp : j.pool = 1) (h : clusterPos d 1 j.cluster = some pos) : VecSubstituted pos d (takeFault j d) := by
  rw [takeFault_vec hp h]
  have load := loadCkpt_loaded (moonOf (moonSpent 1 d) 1) j.cluster (moonSpent 1 d)
  have moon := moonOf_moonSpent d (pool := 1) (by decide) 1
  have avail := moonSpent_avail d (pool := 1) (by decide)
  have places : (moonSpent 1 d).vec.places = d.vec.places := by rw [moonSpent_rest]
  have epc : (moonSpent 1 d).epc = d.epc := by rw [moonSpent_rest]
  generalize moonSpent 1 d = e at load moon avail places epc ⊢
  generalize loadCkpt (moonOf e 1) j.cluster e = f at load ⊢
  have again := raisedAgain_loaded j.cluster (recoverSet (takeVec f pos))
  refine ⟨?_, ?_, ?_⟩
  · rw [moonAvail_congr again.moonStatus, ← avail, ← moonAvail_congr load.moonStatus]
    rfl
  · rw [again.places, ← moon, ← moonOf_congr load.moonStatus, ← places, ← load.places]
    rfl
  · rw [again.moon, ← epc, ← load.epc]
    rfl

theorem takeFault_avail (hp : j.pool < 2) : moonAvail (takeFault j d) j.pool = false := by
  cases h : clusterPos d j.pool j.cluster with
  | none => rw [takeFault_none h, moonSpent_avail _ hp]
  | some pos =>
    obtain p0 | p1 : j.pool = 0 ∨ j.pool = 1 := by omega
    · rw [p0] at h
      have avail := moonSpent_avail d (pool := 0) (by decide)
      rw [takeFault_xp p0 h, p0]
      generalize moonSpent 0 d = e at avail ⊢
      exact avail
    · rw [p1] at h
      rw [p1]
      exact (takeFault_vec_substituted p1 h).avail

end

/-! ### The job that is due -/

theorem moonTakeover_idle {pool : Nat} {d : Dev} (agreed : Bool)
    (h : fatal d = true ∨ ∀ j ∈ d.moon.jobs, j.pool = pool → d.epc.epoch < j.epoch) : moonTakeover pool agreed d = d := by
  unfold moonTakeover
  obtain dead | early := h
  · exact if_pos dead
  · have none : d.moon.jobs.find? (fun j => decide (j.pool = pool ∧ j.epoch ≤ d.epc.epoch)) = none := by
      rw [List.find?_eq_none]
      intro j hj due
      have := of_decide_eq_true due
      have := early j hj this.1
      omega
    rw [none]
    exact ite_self _

theorem moonTakeover_due {pool : Nat} {d : Dev} {j : Subst} (agreed : Bool) (alive : fatal d = false)
    (h : d.moon.jobs.find? (fun j => decide (j.pool = pool ∧ j.epoch ≤ d.epc.epoch)) = some j) :
    moonTakeover pool agreed d = if j.planned then takePlanned j agreed (jobOff d j) else takeFault j (jobOff d j) := by
  unfold moonTakeover
  rw [h, alive]
  rfl

end Sys2Proof.Machine
end

section
/-!
MOON_REQ_HI and PATROL_ADVANCE (R369, R371), and what the moon commands do in whole.
-/
namespace Sys2Proof.Machine

/-! ### A request for a planned replacement (R369) -/

theorem judgeMoon_lt (d : Dev) (pool k t : Nat) : judgeMoon d pool k t < 16 := by
  unfold judgeMoon
  split_ifs <;> decide

/-- What a request that is taken satisfies. -/
structure Plannable (d : Dev) (pool k t : Nat) : Prop where
  early : d.epc.epoch + 4 ≤ t
  late : t ≤ d.epc.epoch + 3000
  free : moonFree d pool = true
  live : isRetired d pool k = false
  alone : ∀ j ∈ d.moon.jobs, j.planned = false

theorem judgeMoon_pending {d : Dev} {pool k t : Nat} (h : judgeMoon d pool k t = 1) : Plannable d pool k t := by
  unfold judgeMoon at h
  split at h
  · cases h
  next range =>
  split at h
  · cases h
  next busy =>
  split at h
  · cases h
  next spent =>
  split at h
  · cases h
  next bad =>
  rw [Bool.not_eq_true, List.any_eq_false] at busy
  rw [Bool.or_eq_true, not_or, Bool.not_eq_true, Bool.not_eq_true] at bad
  exact ⟨by omega, by omega, (Bool.not_eq_false _).mp spent, bad.2, fun j hj => (Bool.not_eq_true _).mp (busy j hj)⟩

theorem moonSubmit_eq (pool k t : Nat) (d : Dev) : moonSubmit pool k t d = setMoon (moonResult d (judgeMoon d pool k t))
    { d.moon with jobs := d.moon.jobs ++ if judgeMoon d pool k t = 1 then [⟨pool, k, t, true⟩] else [] } := by
  have moon := moonResult_moon d (judgeMoon d pool k t)
  unfold moonSubmit
  dsimp only
  generalize judgeMoon d pool k t = r at moon ⊢
  rw [← moon]
  generalize moonResult d r = e
  split
  · rfl
  · rw [List.append_nil]
    rfl

theorem liveF_moonSubmit (pool k t : Nat) (d : Dev) :
    liveF (moonSubmit pool k t d) offTwnMoonStatus 31 28 = judgeMoon d pool k t := by
  have r := liveF_moonResult d (judgeMoon_lt d pool k t)
  rw [moonSubmit_eq]
  generalize moonResult d (judgeMoon d pool k t) = e at r ⊢
  exact r

theorem setMoon_moonResult_only (d : Dev) (v : Nat) (m : Moon) :
    OnlyWords [offTwnMoonStatus] { d with moon := m } (setMoon (moonResult d v) m) := by
  rw [moonResult, liveSetF]
  generalize setBits (liveGet d offTwnMoonStatus) 31 28 v = w
  exact .liveSet (b := { d with moon := m }) List.mem_cons_self (.refl _ _)

theorem moonSubmit_only (pool k t : Nat) (d : Dev) :
    OnlyWords [offTwnMoonStatus] { d with moon := (moonSubmit pool k t d).moon } (moonSubmit pool k t d) := by
  rw [moonSubmit_eq]
  exact setMoon_moonResult_only d _ _

/-! ### Patrol (R371) -/

theorem mapGet_patrols {l : List (Nat × Patrol)} {pool : Nat} :
    mapGet (fun _ => none) (l.map fun p => (p.1, some p.2)) pool = (l.find? fun q => decide (q.1 = pool)).map (·.2) := by
  induction l with
  | nil => rfl
  | cons q t ih =>
    rw [List.map_cons, mapGet]
    split
    · next same => rw [List.find?_cons_of_pos (by simpa using same)]; rfl
    · next other => rw [List.find?_cons_of_neg (by simpa using other), ih]

theorem find?_mapIns {pool : Nat} (p : Patrol) : ∀ {l : List (Nat × Patrol)}, (∀ q ∈ l, q.1 ≠ pool) →
    (mapIns l pool p).find? (fun q => decide (q.1 = pool)) = some (pool, p)
  | [], _ => by simp [mapIns]
  | (k, v) :: t, h => by
    rw [mapIns]
    split
    · exact List.find?_cons_of_pos (by simp)
    · rw [List.find?_cons_of_neg (by simpa using h (k, v) List.mem_cons_self)]
      exact find?_mapIns p fun q hq => h q (List.mem_cons_of_mem _ hq)

theorem setPatrol_find? (d : Dev) (pool : Nat) (p : Patrol) :
    (setPatrol d pool p).moon.patrols.find? (fun q => decide (q.1 = pool)) = some (pool, p) := find?_mapIns p (mapDel_keys _ _)

/-- The device once a disagreement is counted and logged. -/
def patrolSeen (pool : Nat) (p : Patrol) (d : Dev) : Dev :=
  raiseErr (bumpSat d offTwnPatrolStatus 31 16) (srcOf blkTwn 0) 0x0607 (BitVec.ofNat 32 pool)
    (BitVec.ofNat 32 ((placeOf d pool p.pos).getD 0))

theorem bumpSat_rest (d : Dev) (o hi lo : Nat) : bumpSat d o hi lo = { d with regs := (bumpSat d o hi lo).regs } := by
  rw [bumpSat_eq]
  split <;> rfl

theorem placeOf_congr {a b : Dev} (xp : b.moon.xpPlaces = a.moon.xpPlaces) (vec : b.vec.places = a.vec.places) :
    placeOf b = placeOf a := by
  funext pool pos
  rw [placeOf, placeOf, xp, vec]

theorem nextPos_congr {a b : Dev} (h : placeOf b = placeOf a) (pool pos : Nat) : nextPos b pool pos = nextPos a pool pos := by
  unfold nextPos
  rw [h]

theorem patrolSeen_nextPos (pool : Nat) (p : Patrol) (d : Dev) (pos : Nat) : nextPos (patrolSeen pool p d) pool pos = nextPos d pool pos := by
  have raised := raiseErr_moonSame (bumpSat d offTwnPatrolStatus 31 16) (srcOf blkTwn 0) 0x0607 (BitVec.ofNat 32 pool)
    (BitVec.ofNat 32 ((placeOf d pool p.pos).getD 0))
  have bumped := bumpSat_rest d offTwnPatrolStatus 31 16
  exact nextPos_congr (placeOf_congr (by rw [patrolSeen, raised.moon, bumped]) (by rw [patrolSeen, raised.places, bumped])) pool pos

theorem patrolSeen_epoch (pool : Nat) (p : Patrol) (d : Dev) : (patrolSeen pool p d).epc.epoch = d.epc.epoch := by
  rw [patrolSeen, (raiseErr_moonSame _ _ _ _ _).epc, bumpSat_epc]

theorem patrolSeen_count (pool : Nat) (p : Patrol) (d : Dev) :
    liveF (patrolSeen pool p d) offTwnPatrolStatus 31 16 = min 65535 (liveF d offTwnPatrolStatus 31 16 + 1) := by
  have only := raiseErr_err (srcOf blkTwn 0) 0x0607 (BitVec.ofNat 32 pool) (BitVec.ofNat 32 ((placeOf d pool p.pos).getD 0))
    (.refl (bumpSat d offTwnPatrolStatus 31 16))
  rw [patrolSeen, liveF, only.regs.live _ (by decide)]
  exact liveF_bumpSat d _ (by decide) (by decide)

section
variable {d : Dev} {pool : Nat}

theorem patrolAdvance_idle (mismatch : Bool) (h : patrolRuns d pool = false ∨ ∀ p ∈ d.moon.patrols, p.1 ≠ pool) :
    patrolAdvance pool mismatch d = d := by
  unfold patrolAdvance
  obtain off | none := h
  · split
    · rfl
    · exact if_pos off
  · have missing : d.moon.patrols.find? (fun q => decide (q.1 = pool)) = Option.none :=
      List.find?_eq_none.mpr fun q hq => by simpa using none q hq
    rw [mapGet_patrols, missing]
    rfl

variable {p : Patrol} (h : d.moon.patrols.find? (fun q => decide (q.1 = pool)) = some (pool, p)) (on : patrolRuns d pool = true)
include h on

theorem patrolAdvance_agrees : patrolAdvance pool false d = if d.epc.epoch - p.since ≥ actF d offTwnPatrol 31 16 then
    setPatrol d pool { p with pos := nextPos d pool p.pos, since := d.epc.epoch } else d := by
  unfold patrolAdvance
  rw [mapGet_patrols, h]
  dsimp only [Option.map_some]
  rw [on]
  rfl

theorem patrolAdvance_differs : patrolAdvance pool true d = if p.suspect.isSome then retireMoon pool (patrolSeen pool p d)
    else setPatrol (patrolSeen pool p d) pool ⟨nextPos d pool p.pos, d.epc.epoch, some p.pos⟩ := by
  have bumped := bumpSat_rest d offTwnPatrolStatus 31 16
  have place := placeOf_congr (a := d) (b := bumpSat d offTwnPatrolStatus 31 16) (by rw [bumped]) (by rw [bumped])
  rw [← patrolSeen_nextPos pool p d, ← patrolSeen_epoch pool p d, patrolSeen, ← place]
  unfold patrolAdvance
  rw [mapGet_patrols, h]
  dsimp only [Option.map_some]
  rw [on]
  rfl

end

end Sys2Proof.Machine
end

section
/-!
The commands of the moon clusters in whole (R365 to R367, R369 to R371).
-/
namespace Sys2Proof.Machine

theorem runs_moonTakeover {s : State} {pool : Nat} (agreed : Bool) {P : Dev → Prop} (hp : pool < 2) (h : P (moonTakeover pool agreed s.dev)) :
    Runs (.moonTakeover pool agreed) s P := runs_ranIf (f := moonTakeover pool agreed) rfl (decide_eq_true hp) h

theorem runs_patrolAdvance {s : State} {pool : Nat} (mismatch : Bool) {P : Dev → Prop} (hp : pool < 2)
    (h : P (patrolAdvance pool mismatch s.dev)) : Runs (.patrolAdvance pool mismatch) s P :=
  runs_ranIf (f := patrolAdvance pool mismatch) rfl (decide_eq_true hp) h

/-! ### The job that is due -/

theorem jobOff_pos (d : Dev) (j : Subst) (pool k : Nat) : clusterPos (jobOff d j) pool k = clusterPos d pool k :=
  clusterPos_congr rfl rfl pool k

theorem jobPool {d : Dev} {pool : Nat} {j : Subst}
    (due : d.moon.jobs.find? (fun j => decide (j.pool = pool ∧ j.epoch ≤ d.epc.epoch)) = some j) : j.pool = pool := by
  have found := List.find?_some due
  exact (of_decide_eq_true found).1

section
variable {s : State} {pool : Nat} {j : Subst} (agreed : Bool) (hp : pool < 2) (alive : fatal s.dev = false)
  (due : s.dev.moon.jobs.find? (fun j => decide (j.pool = pool ∧ j.epoch ≤ s.dev.epc.epoch)) = some j)
include hp alive due

theorem runs_planned {P : Dev → Prop} (planned : j.planned = true) (h : P (takePlanned j agreed (jobOff s.dev j))) :
    Runs (.moonTakeover pool agreed) s P := by
  refine runs_moonTakeover agreed hp ?_
  rwa [moonTakeover_due agreed alive due, if_pos planned]

theorem runs_fault {P : Dev → Prop} (fault : j.planned = false) (h : P (takeFault j (jobOff s.dev j))) :
    Runs (.moonTakeover pool agreed) s P := by
  refine runs_moonTakeover agreed hp ?_
  rwa [moonTakeover_due agreed alive due, if_neg (by rw [fault]; decide)]

end

/-- A replacement that a handler holds up: the position opens again. -/
theorem reopenedResult (pos : Nat) (d : Dev) :
    (moonResult (reopened pos d) 7).vec.places = d.vec.places ∧ (moonResult (reopened pos d) 7).vec.closing = [] ∧
    moonOf (moonResult (reopened pos d) 7) 1 = moonOf d 1 ∧ liveF (moonResult (reopened pos d) 7) offTwnMoonStatus 31 28 = 7 := by
  refine ⟨?_, ?_, ?_, liveF_moonResult _ (by decide)⟩
  · rw [moonResult, liveSetF_vec, reopened]
  · rw [moonResult, liveSetF_vec, reopened]
  · rw [moonOf_moonResult]
    exact moonOf_congr (reopened_status pos d) 1

/-- A replacement of a vector cluster without a handler. -/
theorem vecReplacedResult (pos : Nat) {cluster : Nat} (h : cluster < 9) (d : Dev) :
    let e := replacementDone (liveSetF (vecReplaced pos cluster (reopened pos d)) offTwnMoonStatus 11 8 cluster)
    e.vec.places = d.vec.places.set pos (some (moonOf d 1)) ∧ e.vec.closing = [] ∧ moonOf e 1 = cluster ∧
    liveF e offTwnMoonStatus 31 28 = 2 := by
  refine ⟨?_, ?_, ?_, replacementDone_status _⟩
  · rw [replacementDone_vec, liveSetF_vec, vecReplaced_places, moonOf_congr (reopened_status pos d)]
    rfl
  · rw [replacementDone_vec, liveSetF_vec, vecReplaced_closing]
    rfl
  · rw [moonOf_replacementDone, moonOf, if_neg Nat.one_ne_zero, liveF_liveSetF_same _ _ _ (by decide) (by decide)]
    exact Nat.mod_eq_of_lt (by omega)

/-- A substitution of a crosspoint cluster. -/
theorem xpSubstitutedResult {j : Subst} {d : Dev} {pos : Nat} (hp : j.pool = 0) (h : clusterPos d 0 j.cluster = some pos) :
    (takeFault j d).moon.xpPlaces = d.moon.xpPlaces.set pos (moonOf d 0) ∧
    (takeFault j d).xp = { d.xp with dead := some (pos, some d.epc.epoch) } := by
  rw [takeFault_xp hp h]
  refine ⟨?_, rfl⟩
  have moon := moonSpent_moon 0 d
  have of := moonOf_moonSpent d (pool := 0) (by decide) 0
  generalize moonSpent 0 d = e at moon of ⊢
  rw [← of, ← moon]
  rfl

theorem liveF_setPatrol (d : Dev) (pool : Nat) (p : Patrol) (o hi lo : Nat) : liveF (setPatrol d pool p) o hi lo = liveF d o hi lo := rfl

/-- Settles O43, from what each step of a fault, of a takeover and of patrol leaves of the pools. -/
theorem moonClustersTakeOver : Obligations.MoonClustersTakeOver := by
  unfold Obligations.MoonClustersTakeOver
  refine ⟨fun s pool k unit cause hp hk hu => ?_, fun s pool agreed hp none => ?_, fun s pool agreed j hp alive due => ?_,
    fun s v => ?_, fun s pool mismatch hp idle => ?_, fun s pool p hp at_ on => ?_⟩
  · have h16 : k < 16 := by split at hk <;> omega
    have h9 : pool = 1 → k < 9 := fun vec => by subst vec; exact hk
    have runs : ∀ {P : Dev → Prop}, P (hardFault pool k unit cause s.dev) → Runs (.hardFault pool k cause unit) s P :=
      runs_ranIf (f := hardFault pool k unit cause) rfl (decide_eq_true ⟨hp, hk, hu⟩)
    refine ⟨fun ret => runs (hardFault_retired ret), fun live => runs ?_, fun live at_ other => runs ?_,
      fun live at_ moon avail => runs ?_, fun pos live at_ => ⟨fun free => runs ?_, fun spent => runs ?_⟩⟩
    · obtain ⟨retired, reported, cores⟩ := hardFault_faulted (unit := unit) (cause := cause) hp h16 h9 live
      refine ⟨retired, reported, fun vec c hc => ?_⟩
      obtain ⟨state, item, handler, affinity⟩ := cores vec c hc
      exact ⟨state, item, handler, affinity⟩
    · rw [hardFault_none live h9 at_, if_neg other]
      rfl
    · rw [hardFault_none live h9 at_, if_pos ⟨moon, avail⟩]
      exact ⟨rfl, retireMoon_avail _ hp⟩
    · obtain ⟨job, alone, avail, places⟩ := hardFault_planned (unit := unit) (cause := cause) hp h16 h9 live at_ free
      refine ⟨job, takeoverEpoch_le _ _ _, alone, avail, fun xp => ?_, fun vec => ?_⟩
      · subst xp
        obtain ⟨e, eq⟩ := hardFault_struck (unit := unit) (cause := cause) live at_ free
        rw [eq]
        exact ⟨laneStruck_dead pos e, laneStruck_banks pos e, laneStruck_work pos e⟩
      · subst vec
        obtain ⟨e, eq⟩ := hardFault_away (unit := unit) (cause := cause) live at_ free
        rw [eq] at places ⊢
        exact ⟨rfl, places, fun c hc => positionAway_away pos e hc⟩
    · obtain rfl | rfl : pool = 0 ∨ pool = 1 := by omega
      · exact ⟨hardFault_xpLost_jobs live at_ spent, fun _ => ⟨hardFault_xpLost live at_ spent, hardFault_xpLost_fatal live at_ spent⟩, nofun⟩
      · obtain ⟨jobs, places, dead⟩ := hardFault_vecLost_spec (unit := unit) (cause := cause) (h9 rfl) live at_ spent
        exact ⟨jobs, nofun, fun _ => ⟨places, dead⟩⟩
  · exact runs_moonTakeover agreed hp (moonTakeover_idle agreed none)
  · have jp := jobPool due
    refine ⟨fun planned => runs_planned agreed hp alive due planned rfl, fun planned gone => runs_planned agreed hp alive due planned ?_,
      fun pos planned xp at_ => ⟨fun no => runs_planned agreed hp alive due planned ?_, fun yes h5 => runs_planned agreed hp alive due planned ?_⟩,
      fun pos planned vec at_ h9 => ⟨fun busy => runs_planned agreed hp alive due planned ?_,
        fun free => runs_planned agreed hp alive due planned ?_⟩,
      fun fault => runs_fault agreed hp alive due fault ⟨rfl, ?_⟩, fun pos fault xp at_ => runs_fault agreed hp alive due fault ?_,
      fun pos fault vec at_ => runs_fault agreed hp alive due fault ?_⟩
    · exact takePlanned_none agreed (by rw [jobOff_pos, jp, gone])
    · rw [takePlanned_xp (jp.trans xp) (by rw [jobOff_pos, at_]), no]
      rfl
    · subst yes
      exact takePlanned_xp_done (jp.trans xp) (by rw [jobOff_pos, at_]) h5
    · obtain ⟨c, hc, busy⟩ := busy
      rw [takePlanned_vec_handler (d := jobOff s.dev j) (jp.trans vec) (by rw [jobOff_pos, at_]) agreed hc busy]
      exact reopenedResult pos (jobOff s.dev j)
    · rw [takePlanned_vec_done (d := jobOff s.dev j) (jp.trans vec) (by rw [jobOff_pos, at_]) agreed free]
      exact vecReplacedResult pos h9 (jobOff s.dev j)
    · rw [← jp]
      exact takeFault_avail (jp ▸ hp)
    · exact xpSubstitutedResult (jp.trans xp) (by rw [jobOff_pos, at_])
    · obtain ⟨-, places, recover⟩ := takeFault_vec_substituted (d := jobOff s.dev j) (jp.trans vec) (by rw [jobOff_pos, at_])
      exact ⟨places, recover⟩
  · refine runs_ran (f := moonReqWrite v) rfl ⟨liveF_moonSubmit _ _ _ _, ?_, fun pending => ?_, moonSubmit_only _ _ _ _⟩
    · rw [moonReqWrite, moonSubmit_eq]
      rfl
    · obtain ⟨early, late, free, live, alone⟩ := judgeMoon_pending pending
      exact ⟨early, late, free, live, alone⟩
  · exact runs_patrolAdvance mismatch hp (patrolAdvance_idle mismatch idle)
  · refine ⟨fun full => runs_patrolAdvance false hp ?_, fun begun early => runs_patrolAdvance false hp ?_,
      fun first => runs_patrolAdvance true hp ?_, fun again => runs_patrolAdvance true hp ?_⟩
    · rw [patrolAdvance_agrees at_ on, if_pos (by omega)]
    · rw [patrolAdvance_agrees at_ on, if_neg (by omega)]
    · rw [patrolAdvance_differs at_ on, if_neg (by rw [first]; decide)]
      exact ⟨by rw [patrolSeen], setPatrol_find? _ _ _, (liveF_setPatrol _ _ _ _ _ _).trans (patrolSeen_count pool p s.dev)⟩
    · rw [patrolAdvance_differs at_ on, if_pos again]
      exact ⟨by rw [patrolSeen], retireMoon_avail _ hp, retireMoon_patrols _ _⟩

end Sys2Proof.Machine
end

section
/-!
The first two windows of a render epoch (R26, R110, R146, R162): what phase A and the reduction leave, and what they make.
-/
namespace Sys2Proof.Machine

/-! ### Phase A -/

/-- A register of GEO, one of the lanes' two registers of XP, or one that an object's status shares its place in 16 bytes with. -/
def PhaseAWord (o : Nat) : Prop := 0xd00000 ≤ o ∧ (o < 0xe01000 ∨ o % 16 = 0)

/-- b is a but for GEO, XP and registers of theirs. -/
structure LanesOnly (a b : Dev) : Prop where
  words : ∀ o, ¬PhaseAWord o → liveGet b o = liveGet a o
  act : b.regs.act = a.regs.act
  rest : b = { a with regs := b.regs, geo := b.geo, xp := b.xp }

theorem LanesOnly.refl (a : Dev) : LanesOnly a a := ⟨fun _ _ => rfl, rfl, rfl⟩

theorem LanesOnly.trans {a b c : Dev} (h : LanesOnly a b) (k : LanesOnly b c) : LanesOnly a c := by
  refine ⟨fun o ho => (k.words o ho).trans (h.words o ho), k.act.trans h.act, ?_⟩
  have rest := k.rest
  rw [h.rest] at rest
  exact rest

theorem LanesOnly.liveSet {a b : Dev} (h : LanesOnly a b) {o : Nat} (ho : PhaseAWord o) (w : Word) : LanesOnly a (liveSet b o w) :=
  h.trans ⟨fun _ hp => liveGet_liveSet_other b w fun e => hp (e ▸ ho), rfl, rfl⟩

theorem LanesOnly.liveMax {a b : Dev} (h : LanesOnly a b) {o : Nat} (ho : PhaseAWord o) (hi lo v : Nat) :
    LanesOnly a (liveMax b o hi lo v) := by
  unfold Machine.liveMax
  split
  · exact h.liveSet ho _
  · exact h

theorem LanesOnly.setXp {a b : Dev} (h : LanesOnly a b) (x : Xp) : LanesOnly a { b with xp := x } := h.trans ⟨fun _ _ => rfl, rfl, rfl⟩

theorem LanesOnly.setGeo {a b : Dev} (h : LanesOnly a b) (g : Geo) : LanesOnly a { b with geo := g } := h.trans ⟨fun _ _ => rfl, rfl, rfl⟩

theorem LanesOnly.foldl {α : Type} {f : Dev → α → Dev} {l : List α} (hf : ∀ d, ∀ x ∈ l, LanesOnly d (f d x)) {a b : Dev}
    (h : LanesOnly a b) : LanesOnly a (l.foldl f b) := by
  induction l generalizing b with
  | nil => exact h
  | cons x t ih => exact ih (fun d y hy => hf d y (List.mem_cons_of_mem x hy)) (h.trans (hf b x List.mem_cons_self))

section
variable {a b : Dev} (h : LanesOnly a b)
include h

theorem LanesOnly.path : b.path = a.path := by rw [h.rest]

theorem LanesOnly.epc : b.epc = a.epc := by rw [h.rest]

theorem LanesOnly.rc : b.rc = a.rc := by rw [h.rest]

theorem LanesOnly.fatal : Machine.fatal b = Machine.fatal a := by
  rw [Machine.fatal, Machine.fatal, liveB, liveB, h.words]
  unfold PhaseAWord
  decide

theorem LanesOnly.blockN : Machine.blockN b = Machine.blockN a := by
  rw [Machine.blockN, Machine.blockN, liveB, liveB, h.words]
  unfold PhaseAWord
  decide

theorem LanesOnly.running (k : Nat) : Machine.running b k = Machine.running a k := by
  have boot : b.boot = a.boot := by rw [h.rest]
  have mem : liveGet b (offMemStatus 0) = liveGet a (offMemStatus 0) := h.words _ (by unfold PhaseAWord; decide)
  rw [Machine.running, Machine.running, spared, spared, h.fatal, enabled, enabled, mayRun, mayRun, boot, liveB, liveB, mem]
  unfold actB actGet actBank
  rw [h.act]

end

theorem lanesGo_only (d : Dev) : LanesOnly d (lanesGo d) := by
  unfold lanesGo
  split
  · exact .refl d
  · exact (LanesOnly.refl d).setXp _

theorem lanesRun_only (d : Dev) : LanesOnly d (lanesRun d) := by
  unfold lanesRun
  split
  · exact (LanesOnly.refl d).setXp _
  · dsimp only
    split
    · refine LanesOnly.trans ?_ (lanesGo_only _)
      refine LanesOnly.liveMax (LanesOnly.liveSet (((LanesOnly.refl d).setXp _).setXp _) ?_ _) ?_ 17 0 _
      · unfold PhaseAWord
        decide
      · unfold PhaseAWord
        decide
    · exact (LanesOnly.refl d).setXp _

theorem phaseAWord_objStatus (n : Nat) : PhaseAWord (offGeoObjStatus n) := by
  unfold PhaseAWord offGeoObjStatus
  omega

theorem geoObject_only (groups : List (Nat × Nat × Nat × Bool)) (k : Nat) (bulk : Nat → Nat) (a : Dev × List (Nat × List Target) × Nat)
    (n : Nat) : LanesOnly a.1 (geoObject groups k bulk a n).1 :=
  ((LanesOnly.refl a.1).setGeo _).liveSet (phaseAWord_objStatus n) _

theorem foldl_geoObject_only (groups : List (Nat × Nat × Nat × Bool)) (k : Nat) (bulk : Nat → Nat) (l : List Nat) :
    ∀ a : Dev × List (Nat × List Target) × Nat, LanesOnly a.1 (l.foldl (geoObject groups k bulk) a).1 := by
  induction l with
  | nil => exact fun a => .refl a.1
  | cons n t ih => exact fun a => (geoObject_only groups k bulk a n).trans (ih _)

theorem geoRest_only (on : List Nat) (d : Dev) : LanesOnly d (geoRest on d) :=
  .foldl (fun e n _ => (LanesOnly.refl e).liveSet (phaseAWord_objStatus n) _) (.refl d)

/-- The objects that GEO evaluates. -/
def geoOn (d : Dev) : List Nat :=
  match d.obj.active.find? fun a => a.1 = d.epc.epoch with
  | some a => if running d blkObj && running d blkGeo then a.2 else []
  | none => []

/-- The device once the slots that are not evaluated report nothing. -/
def geoCleared (d : Dev) : Dev :=
  geoRest (geoOn d) { d with geo := { d.geo with modes := d.geo.modes.filter fun m => (geoOn d).contains m.1 } }

theorem geoCleared_only (d : Dev) : LanesOnly d (geoCleared d) := ((LanesOnly.refl d).setGeo _).trans (geoRest_only _ _)

/-- GEO off: no targets, no load. -/
def geoNone (d : Dev) : Dev :=
  liveSetF { d with geo := { d.geo with targets := (d.epc.epoch, []) :: d.geo.targets.take 3, modes := [] } } offGeoLoad 19 0 0

/-- The groups that GEO reports before the objects. -/
def geoGroups (d : Dev) : Dev :=
  liveSetB ((List.range 8).foldl (fun e i => liveSetB e (offGeoAmb i) 31 ((ambGroups d).2.contains i)) d) offGeoStatus 2
    (!(ambGroups d).2.isEmpty)

/-- The objects in turn. -/
def geoObjects (bulk : Nat → Nat) (d : Dev) (on : List Nat) : Dev × List (Nat × List Target) × Nat :=
  on.foldl (geoObject (ambGroups d).1 (kNow (geoGroups d)) bulk) (geoGroups d, [], 0)

/-- GEO takes the targets t of the epoch, with load v. -/
def geoTaken (d : Dev) (t : List (Nat × List Target)) (v : Nat) (e : Nat) : Dev :=
  liveMax (liveSetF { d with geo := { d.geo with targets := (e, t) :: d.geo.targets.take 3 } } offGeoLoad 19 0 v) offGeoLoadMax 19 0 v

theorem geoEvaluate_off (bulk : Nat → Nat) {d : Dev} (h : running d blkGeo = false) : geoEvaluate bulk d = geoNone (geoCleared d) := by
  have off : running (geoCleared d) blkGeo = false := by rw [(geoCleared_only d).running, h]
  have epoch : (geoCleared d).epc.epoch = d.epc.epoch := by rw [(geoCleared_only d).epc]
  rw [geoNone, epoch]
  unfold geoEvaluate
  extract_lets e on modes cleared
  have eq : cleared = geoCleared d := rfl
  clear_value cleared
  subst eq
  rw [off, if_neg Bool.false_ne_true]

theorem geoEvaluate_on (bulk : Nat → Nat) {d : Dev} (h : running d blkGeo = true) : ∃ t, geoEvaluate bulk d =
    geoTaken (geoObjects bulk (geoCleared d) (geoOn d)).1 t (geoObjects bulk (geoCleared d) (geoOn d)).2.2 d.epc.epoch := by
  have on : running (geoCleared d) blkGeo = true := by rw [(geoCleared_only d).running, h]
  unfold geoEvaluate
  extract_lets e objects modes cleared
  have eq : cleared = geoCleared d := rfl
  clear_value cleared
  subst eq
  rw [on]
  exact ⟨_, if_pos rfl⟩

theorem geoGroups_only (d : Dev) : LanesOnly d (geoGroups d) := by
  refine LanesOnly.liveSet (.foldl (fun e i hi => (LanesOnly.refl e).liveSet ?_ _) (.refl d)) ?_ _
  · have := List.mem_range.mp hi
    unfold PhaseAWord offGeoAmb
    omega
  · unfold PhaseAWord
    decide

theorem geoObjects_only (bulk : Nat → Nat) (d : Dev) (on : List Nat) : LanesOnly d (geoObjects bulk d on).1 :=
  (geoGroups_only d).trans (foldl_geoObject_only (ambGroups d).1 (kNow (geoGroups d)) bulk on (geoGroups d, [], 0))

theorem phaseAWord_load : PhaseAWord offGeoLoad ∧ PhaseAWord offGeoLoadMax := by
  unfold PhaseAWord
  decide

theorem geoTaken_only (d : Dev) (t : List (Nat × List Target)) (v e : Nat) : LanesOnly d (geoTaken d t v e) :=
  (((LanesOnly.refl d).setGeo _).liveSet phaseAWord_load.1 _).liveMax phaseAWord_load.2 _ _ _

theorem liveMax_geo (d : Dev) (o hi lo v : Nat) : (liveMax d o hi lo v).geo = d.geo := by
  unfold liveMax
  split <;> rfl

theorem geoTaken_targets (d : Dev) (t : List (Nat × List Target)) (v e : Nat) : (geoTaken d t v e).geo.targets.head? = some (e, t) := by
  rw [geoTaken, liveMax_geo]
  rfl

theorem geoEvaluate_only (bulk : Nat → Nat) (d : Dev) : LanesOnly d (geoEvaluate bulk d) := by
  cases h : running d blkGeo with
  | false =>
    rw [geoEvaluate_off bulk h]
    exact (geoCleared_only d).trans (((LanesOnly.refl _).setGeo _).liveSet phaseAWord_load.1 _)
  | true =>
    obtain ⟨t, eq⟩ := geoEvaluate_on bulk h
    rw [eq]
    exact ((geoCleared_only d).trans (geoObjects_only _ _ _)).trans (geoTaken_only _ _ _ _)

theorem geoNone_targets (d : Dev) : (geoNone d).geo.targets.head? = some (d.epc.epoch, []) := rfl

theorem geoNone_load (d : Dev) : liveF (geoNone d) offGeoLoad 19 0 = 0 := liveF_liveSetF_same _ _ 0 (by decide) (by decide)

theorem geoEvaluate_none (bulk : Nat → Nat) {d : Dev} (h : running d blkGeo = false) :
    (geoEvaluate bulk d).geo.targets.head? = some (d.epc.epoch, []) ∧ liveF (geoEvaluate bulk d) offGeoLoad 19 0 = 0 := by
  rw [geoEvaluate_off bulk h]
  exact ⟨by rw [geoNone_targets, (geoCleared_only d).epc], geoNone_load _⟩

theorem geoEvaluate_epoch (bulk : Nat → Nat) (d : Dev) : (geoEvaluate bulk d).geo.targets.head?.map (fun e => e.1) = some d.epc.epoch := by
  cases h : running d blkGeo with
  | false => rw [(geoEvaluate_none bulk h).1, Option.map_some]
  | true =>
    obtain ⟨t, eq⟩ := geoEvaluate_on bulk h
    rw [eq, geoTaken_targets, Option.map_some]

theorem rcLoadA_eq (bf : Nat) (d : Dev) : ∃ v, rcLoadA bf d = liveSetF d offRcLoadA 23 0 v := by
  unfold rcLoadA
  split
  · exact ⟨0, rfl⟩
  · exact ⟨_, rfl⟩

theorem rcLoadA_off (bf : Nat) {d : Dev} (h : running d blkRc = false) : liveF (rcLoadA bf d) offRcLoadA 23 0 = 0 := by
  rw [rcLoadA, if_pos h]
  exact liveF_liveSetF_same _ _ 0 (by decide) (by decide)

/-- The load of RC with no filter that is loaded or takes over. -/
theorem rcLoadA_alone (bf : Nat) {d : Dev} (h : running d blkRc = true) (swap : d.rc.swap = none) (apart : ∀ e, d.rc.phase ≠ .parallel e)
    (ready : d.rc.phase ≠ .ready) : liveF (rcLoadA bf d) offRcLoadA 23 0 =
      ((if blockN d = 16 then 3436544 else 6742016) + 311808 * d.rc.transformed) % 2 ^ 24 := by
  unfold rcLoadA
  rw [if_neg (by rw [h]; decide)]
  extract_lets n par nsw v
  have hpar : par = 0 := by
    unfold par
    split
    · next e eq => exact absurd eq (apart e)
    · next eq => exact absurd eq ready
    · rfl
  have hnsw : nsw = 0 := by
    unfold nsw
    rw [swap]
  rw [liveF_liveSetF_same _ _ _ (by decide) (by decide)]
  unfold v
  rw [hpar, hnsw]

/-- Phase A in whole. -/
theorem phaseA_eq (d : Dev) : ∃ bf, phaseA d = rcLoadA bf (geoEvaluate (bulkOf d) (lanesRun d)) := by
  unfold phaseA
  extract_lets e
  split
  · exact ⟨_, rfl⟩
  · exact ⟨_, rfl⟩

end Sys2Proof.Machine
end

section
/-!
The reduction (R146, R151, R361): what it leaves, and the block it makes.
-/
namespace Sys2Proof.Machine

/-- b is a but for XP and current values of registers. -/
def XpOnly (a b : Dev) : Prop := b = { a with regs := b.regs, xp := b.xp }

theorem XpOnly.refl (a : Dev) : XpOnly a a := rfl

theorem XpOnly.trans {a b c : Dev} (h : XpOnly a b) (k : XpOnly b c) : XpOnly a c := by
  unfold XpOnly at *
  rw [h] at k
  exact k

theorem XpOnly.setXp {a b : Dev} (h : XpOnly a b) (x : Xp) : XpOnly a { b with xp := x } := h.trans rfl

theorem XpOnly.liveSet {a b : Dev} (h : XpOnly a b) (o : Nat) (w : Word) : XpOnly a (liveSet b o w) := h.trans rfl

theorem XpOnly.ite {a b c : Dev} {p : Prop} [Decidable p] (h : XpOnly a b) (k : XpOnly a c) : XpOnly a (if p then b else c) := by
  split <;> assumption

theorem XpOnly.foldl {α : Type} {f : Dev → α → Dev} (hf : ∀ d x, XpOnly d (f d x)) {a b : Dev} (h : XpOnly a b) (l : List α) :
    XpOnly a (l.foldl f b) := by
  induction l generalizing b with
  | nil => exact h
  | cons x t ih => exact ih (h.trans (hf b x))

section
variable {a b : Dev} (h : XpOnly a b)
include h

theorem XpOnly.path : b.path = a.path := by rw [h]

theorem XpOnly.epc : b.epc = a.epc := by rw [h]

theorem XpOnly.twn : b.twn = a.twn := by rw [h]

end

/-! ### The rings fill -/

/-- A ring that fills leaves everything but XP, and of XP the block in the lanes. -/
structure RingKept (a b : Dev) : Prop where
  only : XpOnly a b
  block : b.xp.block = a.xp.block

theorem RingKept.trans {a b c : Dev} (h : RingKept a b) (k : RingKept b c) : RingKept a c :=
  ⟨h.only.trans k.only, k.block.trans h.block⟩

theorem lanesGo_ring (d : Dev) : RingKept d (lanesGo d) := by
  unfold lanesGo
  split
  · exact ⟨.refl d, rfl⟩
  · exact ⟨rfl, rfl⟩

theorem ringFilled_ring (s : Nat) (d : Dev) : RingKept d (ringFilled s d) := by
  have fill : ∀ l, RingKept d { ringFill s d with xp := { (ringFill s d).xp with waiting := l } } := fun l => ⟨rfl, rfl⟩
  unfold ringFilled
  split
  · exact (fill _).trans (lanesGo_ring _)
  · exact ⟨.refl d, rfl⟩

theorem ringsFill_ring (d : Dev) : RingKept d (ringsFill d) := by
  have key : ∀ (l : List Nat) (d : Dev), RingKept d (l.foldl (fun d s => ringFilled s d) d) := by
    intro l
    induction l with
    | nil => exact fun d => ⟨.refl d, rfl⟩
    | cons s t ih => exact fun d => (ringFilled_ring s d).trans (ih _)
  exact key _ d

/-! ### The block is reduced -/

theorem reduce_none {d : Dev} (h : d.xp.block = none) : reduce d = ringsFill d := by
  have block := (ringsFill_ring d).block.trans h
  unfold reduce
  dsimp only
  rw [block]

/-- Reduced block r is the newest, and the lanes hold x. -/
def reducedTo (d : Dev) (r : BlockAt) (x : Xp) : Dev :=
  { d with path := { d.path with reduced := r :: d.path.reduced.take 3 }, xp := x }

theorem reduce_some {d : Dev} {b : Nat} (h : d.xp.block = some b) : ∃ out x c,
    reduce d = liveSet (reducedTo (ringsFill d) ⟨d.epc.epoch, b, out⟩ x) offXpFeedSat c := by
  have block := (ringsFill_ring d).block.trans h
  have epc := (ringsFill_ring d).only.epc
  unfold reduce
  dsimp only
  generalize ringsFill d = e at block epc ⊢
  rw [block, ← epc]
  exact ⟨_, _, _, rfl⟩

/-! ### The pool is allocated -/

/-- b is a but for current values of registers. -/
def LiveOnly (a b : Dev) : Prop := b = { a with regs := b.regs }

theorem LiveOnly.refl (a : Dev) : LiveOnly a a := rfl

theorem LiveOnly.trans {a b c : Dev} (h : LiveOnly a b) (k : LiveOnly b c) : LiveOnly a c := by
  unfold LiveOnly at *
  rw [h] at k
  exact k

theorem LiveOnly.liveSet {a b : Dev} (h : LiveOnly a b) (o : Nat) (w : Word) : LiveOnly a (liveSet b o w) := h.trans rfl

theorem LiveOnly.ite {a b c : Dev} {p : Prop} [Decidable p] (h : LiveOnly a b) (k : LiveOnly a c) : LiveOnly a (if p then b else c) := by
  split <;> assumption

theorem LiveOnly.foldl {α : Type} {f : Dev → α → Dev} (hf : ∀ d x, LiveOnly d (f d x)) {a b : Dev} (h : LiveOnly a b) (l : List α) :
    LiveOnly a (l.foldl f b) := by
  induction l generalizing b with
  | nil => exact h
  | cons x t ih => exact ih (h.trans (hf b x))

theorem LiveOnly.xp {a b : Dev} (h : LiveOnly a b) : b.xp = a.xp := by rw [h]

theorem LiveOnly.xpOnly {a b : Dev} (h : LiveOnly a b) : XpOnly a b := by
  unfold LiveOnly at h
  unfold XpOnly
  rw [h]

theorem raiseEvt_liveOnly (d : Dev) (s : Nat) : LiveOnly d (raiseEvt d s) :=
  .ite ((LiveOnly.refl d).liveSet _ _) ((LiveOnly.refl d).liveSet _ _)

theorem raiseOwn_liveOnly (d : Dev) (s : Nat) : LiveOnly d (raiseOwn d s) := .ite (.refl d) (raiseEvt_liveOnly d s)

theorem slotAlloc_liveOnly (entries : List (Nat × List XpEntry)) (reqs : List (Nat × List XpReq)) (d : Dev) (s : Nat) :
    LiveOnly d (slotAlloc entries reqs d s) := by
  unfold slotAlloc
  extract_lets rs shed fades off d1 d2 d3 d4 d5
  have h3 : LiveOnly d d3 := ((((LiveOnly.refl d).liveSet _ _).liveSet _ _).liveSet _ _).liveSet _ _
  have h4 : LiveOnly d d4 := .ite (h3.liveSet _ _) h3
  have h5 : LiveOnly d d5 := .ite h4 (h4.liveSet _ _)
  exact .ite (h5.liveSet _ _) h5

theorem reportAlloc_liveOnly (entries : List XpEntry) (done : List XpReq) (requested : Nat) (d : Dev) :
    LiveOnly d (reportAlloc entries done requested d) := by
  unfold reportAlloc
  extract_lets shed d1 d2 d3 d4 eg rg
  have h1 : LiveOnly d d1 := .ite (.refl d) ((LiveOnly.refl d).liveSet _ _)
  exact .foldl (fun e s => slotAlloc_liveOnly _ _ e s) (((h1.liveSet _ _).liveSet _ _).liveSet _ _) _

/-- What an allocation leaves: beside XP nothing but registers, and its newest pool is of the epoch. -/
structure Allocated (a b : Dev) : Prop where
  only : XpOnly a b
  pool : b.xp.pool.head?.map (fun e => e.1) = some a.epc.epoch

/-- The pool is p and the fades are f. -/
def setPool (d : Dev) (p : List (Nat × List XpEntry)) (f : Nat × Nat) : Dev := { d with xp := { d.xp with pool := p, fades := f } }

theorem setPool_allocated {a b c : Dev} (before : XpOnly a b) {t : List (Nat × List XpEntry)} {es : List XpEntry} {f : Nat × Nat}
    (after : LiveOnly (setPool b ((a.epc.epoch, es) :: t) f) c) : Allocated a c := by
  refine ⟨(before.setXp _).trans after.xpOnly, ?_⟩
  rw [after.xp]
  rfl

theorem allocateFrozen_allocated (d : Dev) : Allocated d (allocateFrozen d) := by
  unfold allocateFrozen
  extract_lets x n old car reqs made entries marked _ pooled
  have h1 : XpOnly d marked := .foldl (fun e _ => .ite ((XpOnly.refl e).liveSet _ _) (.refl e)) (.refl d) _
  clear_value marked
  exact setPool_allocated h1 (reportAlloc_liveOnly _ _ _ pooled)

theorem barTarget_only (hold : Nat) (d : Dev) (r : XpReq) : XpOnly d (barTarget hold d r) := (XpOnly.refl d).setXp _

theorem allocateOpen_allocated (d : Dev) : Allocated d (allocateOpen d) := by
  unfold allocateOpen
  extract_lets x n run src start car cg all failed out reqs keep k done rg gone made entries entries' slipped jumped barred fades src'
    pooled displaced faded shed
  have h1 : XpOnly d start := .ite (.refl d) ((XpOnly.refl d).setXp _)
  clear_value start
  have h2 : XpOnly d slipped := .foldl (fun e _ => .ite ((XpOnly.refl e).liveSet _ _) (.refl e)) h1 _
  clear_value slipped
  have h3 : XpOnly d jumped := .foldl (fun e _ => .ite ((XpOnly.refl e).liveSet _ _) (.refl e)) h2 _
  clear_value jumped
  have h4 : XpOnly d barred := .foldl (fun e r => barTarget_only _ e r) h3 _
  clear_value barred
  have k1 : LiveOnly pooled displaced := .ite (.refl _) ((LiveOnly.refl _).liveSet _ _)
  have k2 : LiveOnly pooled faded := .ite k1 (k1.trans (raiseOwn_liveOnly _ _))
  exact setPool_allocated h4 ((k2.liveSet _ _).trans (reportAlloc_liveOnly _ _ _ shed))

theorem allocate_allocated (d : Dev) : Allocated d (allocate d) := by
  unfold allocate
  split
  · split
    · exact allocateFrozen_allocated d
    · exact allocateOpen_allocated d
  · exact allocateOpen_allocated d

/-! ### The window -/

/-- What the reduction makes of the path, of the pool and of the watchdog. -/
structure Reduced (a b : Dev) : Prop where
  epc : b.epc = a.epc
  pool : b.xp.pool.head?.map (fun e => e.1) = some a.epc.epoch
  idle : a.xp.block = none → b.path = a.path
  block : ∀ k, a.xp.block = some k → ∃ out, b.path = { a.path with reduced := ⟨a.epc.epoch, k, out⟩ :: a.path.reduced.take 3 }
  twn : b.twn = if renderOn a then { a.twn with reduced := some a.epc.epoch } else a.twn

/-- The blocks and the pool, before the watchdog. -/
theorem reduceAllocate_reduced (d : Dev) :
    let e := allocate (reduce d)
    e.epc = d.epc ∧ e.xp.pool.head?.map (fun e => e.1) = some d.epc.epoch ∧ e.twn = d.twn ∧ (d.xp.block = none → e.path = d.path) ∧
    ∀ k, d.xp.block = some k → ∃ out, e.path = { d.path with reduced := ⟨d.epc.epoch, k, out⟩ :: d.path.reduced.take 3 } := by
  have ring := (ringsFill_ring d).only
  obtain ⟨only, pool⟩ := allocate_allocated (reduce d)
  dsimp only
  rw [only.epc, only.path, only.twn, pool]
  cases h : d.xp.block with
  | none =>
    rw [reduce_none h, ring.epc, ring.path, ring.twn]
    exact ⟨rfl, rfl, rfl, fun _ => rfl, nofun⟩
  | some b =>
    obtain ⟨out, x, c, eq⟩ := reduce_some h
    have epc : (reduce d).epc = d.epc := by
      rw [eq, ← ring.epc]
      rfl
    have twn : (reduce d).twn = d.twn := by
      rw [eq, ← ring.twn]
      rfl
    have path : (reduce d).path = { d.path with reduced := ⟨d.epc.epoch, b, out⟩ :: d.path.reduced.take 3 } := by
      rw [eq, ← ring.path]
      rfl
    rw [epc, twn, path]
    refine ⟨rfl, rfl, rfl, nofun, fun k hk => ⟨out, ?_⟩⟩
    cases hk
    rfl

theorem reduction_reduced (d : Dev) : Reduced d (reduction d) := by
  obtain ⟨epc, pool, twn, idle, block⟩ := reduceAllocate_reduced d
  unfold reduction
  dsimp only
  generalize allocate (reduce d) = e at epc pool twn idle block ⊢
  split
  · next on => exact ⟨epc, pool, idle, block, by rw [if_pos on, watchdogKick, setTwn, twn, epc]⟩
  · next off => exact ⟨epc, pool, idle, block, by rw [if_neg off, twn]⟩

end Sys2Proof.Machine
end

section
/-!
Phase B and the margin (R24, R43, R155, R171, R176): what the stages, the correction and the output stage leave of the sample path.
-/
namespace Sys2Proof.Machine

/-- b has a's sample path and epoch controller. -/
structure PathKept (a b : Dev) : Prop where
  path : b.path = a.path
  epc : b.epc = a.epc

theorem PathKept.refl (a : Dev) : PathKept a a := ⟨rfl, rfl⟩

theorem PathKept.trans {a b c : Dev} (h : PathKept a b) (k : PathKept b c) : PathKept a c :=
  ⟨k.path.trans h.path, k.epc.trans h.epc⟩

theorem PathKept.ite {a b c : Dev} {p : Prop} [Decidable p] (h : PathKept a b) (k : PathKept a c) : PathKept a (if p then b else c) := by
  split <;> assumption

theorem PathKept.liveSet {a b : Dev} (h : PathKept a b) (o : Nat) (w : Word) : PathKept a (liveSet b o w) := h.trans ⟨rfl, rfl⟩

theorem PathKept.foldl {α : Type} {f : Dev → α → Dev} (hf : ∀ d x, PathKept d (f d x)) {a b : Dev} (h : PathKept a b) (l : List α) :
    PathKept a (l.foldl f b) := by
  induction l generalizing b with
  | nil => exact h
  | cons x t ih => exact ih (h.trans (hf b x))

/-- A fold that carries a value beside the device. -/
theorem PathKept.foldlFst {α β : Type} {f : Dev × β → α → Dev × β} (hf : ∀ p x, PathKept p.1 (f p x).1) :
    ∀ (l : List α) (p : Dev × β), PathKept p.1 (l.foldl f p).1
  | [], p => .refl p.1
  | x :: t, p => (hf p x).trans (foldlFst hf t (f p x))

theorem PathKept.bumpSat {a b : Dev} (h : PathKept a b) (o hi lo : Nat) : PathKept a (bumpSat b o hi lo) := by
  rw [bumpSat_eq]
  exact .ite (h.liveSet _ _) h

/-! ### The stages -/

theorem deliver_path (d : Dev) (it : WorkItem) (ymem : List (Nat × Word)) : PathKept d (deliver d it ymem) := by
  have stage : ∀ x, PathKept d (setStage d (itemStage it) x) := fun _ => ⟨rfl, rfl⟩
  exact (stage _).liveSet _ _

theorem deliverEnded_path (d : Dev) (s : Nat) (b : StageBlock) : PathKept d (deliverEnded d s b) := by
  refine .foldl (fun e p => ?_) (.refl d) _
  split
  · exact .refl e
  · exact .ite (deliver_path _ _ _) (.refl e)

theorem missReport_path (d : Dev) {s : Nat} (h : s < 4) (miss : List Nat) : PathKept d (missReport d s miss) := by
  obtain ⟨live, stages, eq⟩ := (missReport_reported d h miss).rest
  rw [eq]
  exact ⟨rfl, rfl⟩

theorem stageGive_path (d : Dev) {s : Nat} (h : s < 4) (el : BlockAt) : PathKept d (stageGive d s el).1 := by
  unfold stageGive
  dsimp only
  split
  · exact .refl d
  · next b _ =>
    have ended := deliverEnded_path d s b
    have stage : ∀ e x, PathKept e (setStage e s x) := fun _ _ => ⟨rfl, rfl⟩
    exact (ended.trans (stage _ _)).trans (missReport_path _ h _)

/-- The block of epoch a is enabled for the stage. -/
def elementOn (d : Dev) (s a : Nat) : Bool :=
  match stageElement d s a with
  | none => false
  | some b => stageOn d s b.block

theorem joinStage_none {d : Dev} {s a : Nat} (h : stageElement d s a = none) : joinStage d s a = (d, none) := by
  unfold joinStage
  dsimp only
  rw [h]

/-- A stage passes on the block that comes to it where none came before it. -/
theorem joinStage_first {d : Dev} {s a : Nat} {c : BlockAt} (h : stageElement d s a = some c) (first : stageElement d s (a - 1) = none) :
    joinStage d s a = (d, some c) := by
  unfold joinStage
  dsimp only
  rw [h, first]

theorem joinStage_some {d : Dev} {s a : Nat} {c : BlockAt} (hs : s < 4) (h : stageElement d s a = some c) :
    PathKept d (joinStage d s a).1 ∧ ∃ x, (joinStage d s a).2 = some x := by
  cases hp : stageElement d s (a - 1) with
  | none =>
    rw [joinStage_first h hp]
    exact ⟨.refl d, _, rfl⟩
  | some p =>
    have give := stageGive_path d hs p
    unfold joinStage
    dsimp only
    rw [h, hp]
    dsimp only
    split
    · exact ⟨.refl d, _, rfl⟩
    · split
      · exact ⟨.refl d, _, rfl⟩
      · split
        · exact ⟨give, _, rfl⟩
        · split
          · exact ⟨give, _, rfl⟩
          · exact ⟨give, _, rfl⟩

/-- A stage that is off for the block and for the one before it passes the block on. -/
theorem joinStage_off {d : Dev} {s a : Nat} {c : BlockAt} (h : stageElement d s a = some c) (off : stageOn d s c.block = false)
    (before : ∀ p, stageElement d s (a - 1) = some p → stageOn d s p.block = false) : joinStage d s a = (d, some c) := by
  cases hp : stageElement d s (a - 1) with
  | none => exact joinStage_first h hp
  | some p =>
    unfold joinStage
    dsimp only
    rw [h, hp]
    dsimp only
    exact if_pos (by rw [off, before p hp]; rfl)

/-! ### The output stage (R43 to R58) -/

/-- b is a but for the selectors of the sample path, as far as the path and the epoch go. -/
structure OutKept (a b : Dev) : Prop where
  path : b.path = { a.path with osel := b.path.osel }
  epc : b.epc = a.epc

theorem PathKept.out {a b : Dev} (h : PathKept a b) : OutKept a b := ⟨by rw [h.path], h.epc⟩

theorem OutKept.trans {a b c : Dev} (h : OutKept a b) (k : OutKept b c) : OutKept a c :=
  ⟨by rw [k.path, h.path], k.epc.trans h.epc⟩

theorem putGain_path (d : Dev) (c : GainCh) (g : GainCell) (timedOut : Bool) : PathKept d (putGain d c g timedOut) := by
  have set : PathKept d (setGain d c g) := ⟨rfl, rfl⟩
  unfold putGain
  dsimp only
  generalize setGain d c g = e at set ⊢
  rcases gainReg c with _ | ⟨off, _ | pend, tout⟩
  · exact set
  · exact .ite (set.liveSet _ _) set
  · exact .ite ((set.liveSet _ _).liveSet _ _) (set.liveSet _ _)

theorem noteGain_path (d : Dev) (c : GainCh) (xs : List Int) : PathKept d (noteGain d c xs) := by
  unfold noteGain
  split
  · exact .refl d
  · exact ⟨rfl, rfl⟩

/-- A channel is made: its gain, what it reports, and the source it takes. -/
theorem outChannel_kept (c bf bb : Nat) (corrected taps : Audio) (a : Dev × Audio) (m : Nat) :
    OutKept a.1 (outChannel c bf bb corrected taps a m).1 := by
  unfold outChannel
  extract_lets d n old w code s x t g xs r noted clipped shown y
  have h1 : PathKept d noted := (putGain_path _ _ _ _).trans (noteGain_path _ _ _)
  clear_value noted
  have h2 : PathKept d clipped := .ite ((h1.liveSet _ _).bumpSat _ _ _) h1
  clear_value clipped
  have h3 : PathKept d shown := h2.liveSet _ _
  clear_value shown
  exact h3.out.trans ⟨rfl, rfl⟩

theorem outQuiet_path (c bf bb : Nat) (d : Dev) (m : Nat) : PathKept d (outQuiet c bf bb d m) := by
  unfold outQuiet
  extract_lets t xs r gone
  exact ((putGain_path _ _ _ _).trans (noteGain_path _ _ _)).liveSet _ _

theorem foldl_outChannel_kept (c bf bb : Nat) (corrected taps : Audio) (l : List Nat) : ∀ p : Dev × Audio,
    OutKept p.1 (l.foldl (outChannel c bf bb corrected taps) p).1 := by
  induction l with
  | nil => exact fun p => (PathKept.refl p.1).out
  | cons m t ih =>
    intro p
    rw [List.foldl_cons]
    exact (outChannel_kept c bf bb corrected taps p m).trans (ih (outChannel c bf bb corrected taps p m))

theorem outputAudio_kept (c bf bb : Nat) (d : Dev) : OutKept d (outputAudio c bf bb d).1 := by
  unfold outputAudio
  dsimp only
  split
  · exact foldl_outChannel_kept c bf bb _ _ _ (d, [])
  · have quiet : PathKept d ((liveOutputs d bf bb).foldl (outQuiet c bf bb) d) := .foldl (fun e m => outQuiet_path c bf bb e m) (.refl d) _
    exact quiet.out.trans ⟨rfl, rfl⟩

theorem outputAudio_off (c bf bb : Nat) {d : Dev} (h : actAtB d bf offGraphCtrl 0 = false) : (outputAudio c bf bb d).2 = [] := by
  have off : runningAt d bf blkGraph = false := by
    have ctrl : blkGraph * 0x100000 = offGraphCtrl := rfl
    rw [runningAt, ctrl, h]
    rfl
  unfold outputAudio
  rw [if_neg (by rw [off]; decide)]

/-- The output stage adds a block of the epoch. -/
theorem outputStage_trimmed (c bf bb : Nat) (d : Dev) : (outputStage c bf bb d).path.trimmed.head? =
    some ⟨d.epc.epoch, bf, (outputAudio c bf bb d).2⟩ := rfl

/-- What the output stage leaves of the sample path. -/
theorem outputStage_kept (c bf bb : Nat) (d : Dev) : (outputStage c bf bb d).path.phase = d.path.phase ∧
    (outputStage c bf bb d).path.corrected = d.path.corrected ∧ (outputStage c bf bb d).epc = d.epc := by
  obtain ⟨path, epc⟩ := outputAudio_kept c bf bb d
  unfold outputStage
  dsimp only
  generalize outputAudio c bf bb d = r at path epc ⊢
  rw [path, epc]
  exact ⟨rfl, rfl, rfl⟩

/-! ### The correction (R155) -/

theorem setGain_pathKept (d : Dev) (c : GainCh) (g : GainCell) : PathKept d (setGain d c g) := ⟨rfl, rfl⟩

/-- RC's state changes. -/
theorem PathKept.setRc {a b : Dev} (h : PathKept a b) (r : Rc) : PathKept a { b with rc := r } := h.trans ⟨rfl, rfl⟩

theorem bqChain_path (d : Dev) (o b : Nat) (xs : List Int) : PathKept d (bqChain d o b xs).1 := by
  refine PathKept.foldlFst (fun p s => ?_) _ (d, xs, false)
  dsimp only
  split
  · exact (PathKept.refl _).setRc _
  · exact (PathKept.refl _).setRc _

theorem bqFed_path (o : Nat) (xs : List Int) (d : Dev) : PathKept d (bqFed o xs d) := by
  unfold bqFed
  split
  · exact .refl d
  · exact (PathKept.refl d).setRc _

theorem rcChannel_path (gen : Nat → List Int) (b prev : Nat) (swap : Option (List (Nat × List Int))) (input : Audio) (a : Dev × Audio)
    (o : Nat) : PathKept a.1 (rcChannel gen b prev swap input a o).1 := by
  unfold rcChannel
  extract_lets d n wNew wOld full x hist src pushed lost sums y fir q z sat marked flagged g goal r stepped
  have h0 : PathKept d pushed := (PathKept.refl d).setRc _
  clear_value pushed
  have h1 : PathKept d fir.1 := by
    unfold fir
    split
    · exact h0
    · exact .refl d
  clear_value fir
  have h2 : PathKept d q.1 := h1.trans ((bqFed_path _ _ _).trans (bqChain_path _ _ _ _))
  clear_value q
  have h3 : PathKept d marked := .ite (h2.bumpSat _ _ _) h2
  clear_value marked
  have h4 : PathKept d flagged := .ite (h3.liveSet _ _) h3
  clear_value flagged
  have h5 : PathKept d stepped := .ite (h4.trans (setGain_pathKept _ _ _)) h4
  exact h5

end Sys2Proof.Machine
end

section
/-!
The windows of phase B and of the margin in whole (R24, R43, R155, R176), and the end of a capture (R176).
-/
namespace Sys2Proof.Machine

theorem genMake_path (d : Dev) (g e : Nat) : PathKept d (genMake d g e) := by
  unfold genMake
  split
  · exact .refl d
  · exact .ite (.refl d) ⟨rfl, rfl⟩

theorem genMakeAll_path (d : Dev) (e : Nat) : PathKept d (genMakeAll d e) := .foldl (fun d g => genMake_path d g e) (.refl d) _

theorem captureRefs_path (c : Nat) (d : Dev) : PathKept d (captureRefs c d) := ⟨rfl, rfl⟩

/-- What the correction makes of the path: its newest block is of the epoch. -/
structure CorrectedAs (bf bb : Nat) (a b : Dev) : Prop where
  head : b.path.corrected.head?.map (fun x => (x.epoch, x.feeds, x.buses)) = some (a.epc.epoch, bf, bb)
  phase : b.path.phase = a.path.phase
  epc : b.epc = a.epc

theorem rcCorrect_corrected (gen : Nat → List Int) (bf bb : Nat) (feeds buses : Audio) (d : Dev) :
    CorrectedAs bf bb d (rcCorrect gen bf bb feeds buses d) := by
  unfold rcCorrect
  extract_lets n on prev swapNow returned kept quiet lf lb rf rb nsw load src src' made
  have h1 : PathKept d returned := .ite ⟨rfl, rfl⟩ ⟨rfl, rfl⟩
  clear_value returned
  have h2 : PathKept d kept := h1.trans ⟨rfl, rfl⟩
  clear_value kept
  have h3 : PathKept d quiet := .ite h2 (h2.trans ⟨rfl, rfl⟩)
  clear_value quiet
  have h4 : PathKept d rf.1 := h3.trans (.foldlFst (fun p o => rcChannel_path gen bf prev.1 swapNow feeds p o) lf (quiet, []))
  clear_value rf
  have h5 : PathKept d rb.1 := h4.trans (.foldlFst (fun p o => rcChannel_path gen bb prev.2 none buses p o) lb rf)
  clear_value rb
  refine ⟨?_, ?_, ?_⟩
  · rw [← h3.epc]
    rfl
  · rw [← h5.path]
    rfl
  · rw [← h5.epc]
    rfl

/-- What phase B makes of the blocks f of the feeds and x of the buses. -/
structure PhaseBMade (f x : Nat) (a b : Dev) : Prop where
  phase : b.path.phase = a.path.phase
  epc : b.epc = a.epc
  corrected : b.path.corrected.head?.map (fun y => (y.epoch, y.feeds, y.buses)) = some (a.epc.epoch, f, x)
  trimmed : ∃ audio, b.path.trimmed.head? = some ⟨a.epc.epoch, f, audio⟩ ∧ (actAtB a f offGraphCtrl 0 = false → audio = [])

theorem actAtB_congr {a b : Dev} (h : b.regs.act = a.regs.act) (e o i : Nat) : actAtB b e o i = actAtB a e o i := by
  unfold actAtB actAt
  rw [h]

/-- As far as phase B goes, e is where a is. -/
structure SameWindow (a e : Dev) : Prop where
  phase : e.path.phase = a.path.phase
  epc : e.epc = a.epc
  act : e.regs.act = a.regs.act

/-- The correction and the output stage make the blocks. -/
theorem outputStage_made {a e : Dev} (h : SameWindow a e) (c f x : Nat) (gen : Nat → List Int) (feeds buses : Audio) :
    PhaseBMade f x a (outputStage c f x (rcCorrect gen f x feeds buses e)) := by
  have act := (rcCorrect_quiet gen f x feeds buses e (.refl e)).act
  obtain ⟨head, phase, epc⟩ := rcCorrect_corrected gen f x feeds buses e
  have trimmed := outputStage_trimmed c f x (rcCorrect gen f x feeds buses e)
  obtain ⟨phase', corrected', epc'⟩ := outputStage_kept c f x (rcCorrect gen f x feeds buses e)
  refine ⟨phase'.trans (phase.trans h.phase), epc'.trans (epc.trans h.epc), ?_,
    (outputAudio c f x (rcCorrect gen f x feeds buses e)).2, ?_, fun off => ?_⟩
  · rw [corrected', head, h.epc]
  · rw [trimmed, epc, h.epc]
  · exact outputAudio_off c f x (by rw [actAtB_congr (act.trans h.act), off])

theorem SameWindow.trans {a b c : Dev} (h : SameWindow a b) (k : SameWindow b c) : SameWindow a c :=
  ⟨k.phase.trans h.phase, k.epc.trans h.epc, k.act.trans h.act⟩

theorem SameWindow.of {a b : Dev} (path : PathKept a b) (quiet : Quiet a b) : SameWindow a b :=
  ⟨by rw [path.path], path.epc, quiet.act⟩

theorem genMakeAll_window (d : Dev) (e : Nat) : SameWindow d (genMakeAll d e) := .of (genMakeAll_path d e) (genMakeAll_quiet d e (.refl d))

theorem captureRefs_window (c : Nat) (d : Dev) : SameWindow d (captureRefs c d) := .of (captureRefs_path c d) (captureRefs_quiet c d (.refl d))

theorem phaseB_none {d : Dev} (h : stageElement d 1 d.epc.epoch = none) (h' : stageElement d 2 d.epc.epoch = none) : phaseB d = d := by
  unfold phaseB
  dsimp only
  rw [joinStage_none h, joinStage_none h']

theorem joinStage_window {d : Dev} {s a : Nat} {c : BlockAt} (hs : s < 4) (h : stageElement d s a = some c) :
    SameWindow d (joinStage d s a).1 := .of (joinStage_some hs h).1 (joinStage_quiet d s a (.refl d))

/-- Phase B makes the blocks that its two stages give. -/
theorem phaseB_made {d : Dev} {f x : BlockAt} (window : SameWindow d (joinStage (joinStage d 1 d.epc.epoch).1 2 d.epc.epoch).1)
    (hf : (joinStage d 1 d.epc.epoch).2 = some f) (hx : (joinStage (joinStage d 1 d.epc.epoch).1 2 d.epc.epoch).2 = some x) :
    PhaseBMade f.block x.block d (phaseB d) := by
  unfold phaseB
  extract_lets o feeds buses made
  have feedsGiven : feeds.2 = some f := hf
  have busesGiven : buses.2 = some x := hx
  have h1 : SameWindow d made := (window.trans (genMakeAll_window _ _)).trans (genMakeAll_window _ _)
  clear_value made
  clear_value buses
  clear_value feeds
  rw [feedsGiven, busesGiven]
  dsimp -zeta only
  extract_lets make twice early c refs src set
  have h2 : SameWindow d refs := by
    unfold refs
    split
    · exact h1.trans (captureRefs_window _ _)
    · exact h1
  clear_value refs
  have h3 : SameWindow d set := h2.trans ⟨rfl, rfl, rfl⟩
  clear_value set
  exact outputStage_made (h3.trans (captureRefs_window _ _)) _ _ _ _ _ _

/-! ### The margin (R24, R176, R352) -/

/-- The joined block is handed over with its bindings. -/
def handedOver (j : Dev × Option BlockAt) : Dev :=
  match j.2 with
  | none => { j.1 with path := { j.1.path with next := [], nextBinds := [] } }
  | some x =>
    { j.1 with path := { j.1.path with
      next := if runningAt j.1 x.block blkGraph then x.audio else []
      nextBinds := ((j.1.path.made.find? fun y => decide (y.1 = x.block)).map fun y => y.2).getD [] } }

theorem margin_eq (d : Dev) : margin d = captureSum (makeDigests (handedOver (joinStage d 3 d.epc.epoch))) := by
  unfold margin
  dsimp only
  generalize joinStage d 3 d.epc.epoch = j
  obtain ⟨e, _ | x⟩ := j
  · rfl
  · unfold handedOver
    dsimp only
    cases e.path.made.find? fun y => decide (y.1 = x.block) <;> rfl

theorem captureSum_path (d : Dev) : PathKept d (captureSum d) := by
  unfold captureSum
  split
  · exact .refl d
  · exact ⟨rfl, rfl⟩

theorem captureSum_twn (d : Dev) : (captureSum d).twn = d.twn := by
  unfold captureSum
  split <;> rfl

/-- The captured block is correlated: none is left. -/
theorem captureSum_block (d : Dev) : (captureSum d).cap.block = none := by
  unfold captureSum
  split
  · next none => exact none
  · rfl

theorem handedOver_phase (j : Dev × Option BlockAt) : (handedOver j).path.phase = j.1.path.phase ∧ (handedOver j).epc = j.1.epc := by
  obtain ⟨e, _ | x⟩ := j <;> exact ⟨rfl, rfl⟩

theorem margin_path (d : Dev) : (margin d).path = (handedOver (joinStage d 3 d.epc.epoch)).path := by
  rw [margin_eq, (captureSum_path _).path]
  rfl

/-- A stage passes a block on or has none, and leaves the path. -/
theorem joinStage_path (d : Dev) {s : Nat} (hs : s < 4) (a : Nat) : PathKept d (joinStage d s a).1 := by
  cases h : stageElement d s a with
  | none =>
    rw [joinStage_none h]
    exact .refl d
  | some c => exact (joinStage_some hs h).1

/-- What the margin always does. -/
structure Margined (a b : Dev) : Prop where
  phase : b.path.phase = a.path.phase
  epc : b.epc = a.epc
  block : b.cap.block = none
  digests : b.twn.digests.head?.map (fun x => x.1) = some (a.epc.epoch + 1)

theorem margin_margined (d : Dev) : Margined d (margin d) := by
  have join := joinStage_path d (s := 3) (by decide) d.epc.epoch
  obtain ⟨phase, epc⟩ := handedOver_phase (joinStage d 3 d.epc.epoch)
  have made : PathKept (handedOver (joinStage d 3 d.epc.epoch)) (makeDigests (handedOver (joinStage d 3 d.epc.epoch))) := ⟨rfl, rfl⟩
  refine ⟨?_, ?_, ?_, ?_⟩
  · rw [margin_path, phase, join.path]
  · rw [margin_eq, ((made.trans (captureSum_path _)).epc), epc, join.epc]
  · rw [margin_eq, captureSum_block]
  · have digests : (makeDigests (handedOver (joinStage d 3 d.epc.epoch))).twn.digests.head?.map (fun x => x.1) =
        some ((handedOver (joinStage d 3 d.epc.epoch)).epc.epoch + 1) := rfl
    rw [margin_eq, captureSum_twn, digests, epc, join.epc]

/-! ### The end of a capture (R176) -/

theorem getElem?_leBytes {n j : Nat} (h : j < n) (v : Nat) : (leBytes n v)[j]? = some (BitVec.ofNat 8 (v / 256 ^ j)) := by
  induction n generalizing j v with
  | zero => omega
  | succ k ih =>
    rw [leBytes]
    cases j with
    | zero => simp
    | succ i => rw [List.getElem?_cons_succ, ih (by omega), Nat.div_div_eq_div_mul, Nat.pow_succ']

theorem length_leBytes (n v : Nat) : (leBytes n v).length = n := by
  induction n generalizing v with
  | zero => rfl
  | succ k ih => rw [leBytes, List.length_cons, ih]

/-- A byte of values that are written one after the other, n bytes each. -/
theorem getElem?_flatMap_leBytes {α : Type} (f : α → Nat) {n : Nat} (hn : 0 < n) : ∀ (l : List α) (k : Nat),
    (l.flatMap fun x => leBytes n (f x))[k]? = l[k / n]?.map fun x => BitVec.ofNat 8 (f x / 256 ^ (k % n))
  | [], k => by simp
  | x :: t, k => by
    rw [List.flatMap_cons, List.getElem?_append, length_leBytes]
    split
    · next first =>
      rw [getElem?_leBytes first, Nat.div_eq_of_lt first, Nat.mod_eq_of_lt first]
      rfl
    · next later =>
      have later : n ≤ k := by omega
      have quot : k / n = (k - n) / n + 1 := by rw [← Nat.add_div_right _ hn, Nat.sub_add_cancel later]
      have rem : k % n = (k - n) % n := Nat.mod_eq_sub_mod later
      rw [getElem?_flatMap_leBytes f hn t, quot, rem, List.getElem?_cons_succ]

theorem ofNat_byte {w : Nat} (x : BitVec w) (j : Nat) : BitVec.ofNat 8 (x.toNat / 256 ^ j) = x.extractLsb' (8 * j) 8 := by
  refine BitVec.eq_of_toNat_eq ?_
  have base : (256 : Nat) ^ j = 2 ^ (8 * j) := by rw [Nat.pow_mul]
  rw [BitVec.toNat_ofNat, BitVec.extractLsb'_toNat, Nat.shiftRight_eq_div_pow, base]

/-- Every block is captured and correlated. -/
def captureDue (d : Dev) : Prop := d.cap.start.isSome = true ∧ d.cap.done = d.cap.len ∧ d.cap.block = none

/-- Where the correlation stands in MEM1, and its bytes. -/
def sumsAt (d : Dev) : Nat := d.cap.base + 4 * (d.cap.len * blockN d)

def sumBytes (d : Dev) : List Byte := d.cap.sums.flatMap fun s => leBytes 8 (BitVec.ofInt 64 (rshr s 4)).toNat

theorem captureDone_due {d : Dev} (h : captureDue d) : captureDone d = setCapState
    (setMem1 { d with cap := { d.cap with start := none, sums := [] } } (bytesSet d.mem.mem1 (sumsAt d) (sumBytes d))) 2 := by
  obtain ⟨start, done, block⟩ := h
  unfold captureDone capturing
  rw [if_pos (by rw [start, done, block]; simp)]
  rfl

theorem captureDone_idle {d : Dev} (h : ¬captureDue d) : captureDone d = d := by
  unfold captureDone capturing
  refine if_neg fun due => h ?_
  simpa [captureDue, and_assoc] using due

/-- A byte of MEM1 once the correlation is written. -/
theorem mapGet_sums (d : Dev) (a : Nat) : mapGet (fun _ => (0 : Byte)) (bytesSet d.mem.mem1 (sumsAt d) (sumBytes d)) a =
    if sumsAt d ≤ a ∧ a < sumsAt d + 8 * d.cap.sums.length then
      (BitVec.ofInt 64 (rshr (d.cap.sums.getD ((a - sumsAt d) / 8) 0) 4)).extractLsb' (8 * ((a - sumsAt d) % 8)) 8
    else mapGet (fun _ => (0 : Byte)) d.mem.mem1 a := by
  have read : mapGet (fun _ => (0 : Byte)) (bytesSet d.mem.mem1 (sumsAt d) (sumBytes d)) a =
      if sumsAt d ≤ a then (sumBytes d).getD (a - sumsAt d) (mapGet byte0 d.mem.mem1 a) else mapGet byte0 d.mem.mem1 a :=
    mapGet_mapSetRun byte0 _ _ _ _
  rw [read]
  by_cases low : sumsAt d ≤ a
  · rw [if_pos low, List.getD_eq_getElem?_getD, sumBytes, getElem?_flatMap_leBytes _ (by decide)]
    by_cases high : a < sumsAt d + 8 * d.cap.sums.length
    · have inside : (a - sumsAt d) / 8 < d.cap.sums.length := by omega
      rw [if_pos ⟨low, high⟩, List.getD_eq_getElem?_getD, List.getElem?_eq_getElem inside]
      exact ofNat_byte _ _
    · have outside : d.cap.sums.length ≤ (a - sumsAt d) / 8 := by omega
      rw [if_neg (fun h => high h.2), List.getElem?_eq_none outside]
      rfl
  · rw [if_neg low, if_neg fun h => low h.1]
    rfl

end Sys2Proof.Machine
end

section
/-!
The commands of the four windows and of the end of a capture (R24, R26, R176).
-/
namespace Sys2Proof.Machine

/-- The device once window k has begun. -/
def windowOpen (k : Nat) (d : Dev) : Dev := { d with path := { d.path with phase := k + 1 } }

theorem inWindow_due {k : Nat} {d : Dev} (f : Dev → Dev) (h : d.path.phase = k) : inWindow k f d = f (windowOpen k d) := if_pos h

theorem inWindow_idle {k : Nat} {d : Dev} (f : Dev → Dev) (h : d.path.phase ≠ k) : inWindow k f d = d := if_neg h

/-- Nothing but the sample path tells an open window. -/
theorem windowOpen_lanes (k : Nat) (d : Dev) (b : Nat) : running (windowOpen k d) b = running d b ∧ blockN (windowOpen k d) = blockN d ∧
    renderOn (windowOpen k d) = renderOn d := ⟨rfl, rfl, rfl⟩

theorem phaseA_made (d : Dev) : LanesOnly d (geoEvaluate (bulkOf d) (lanesRun d)) :=
  (lanesRun_only d).trans (geoEvaluate_only _ _)

/-- What phase A makes. -/
structure PhaseAMade (a b : Dev) : Prop where
  path : b.path = a.path
  epc : b.epc = a.epc
  targets : b.geo.targets.head?.map (fun e => e.1) = some a.epc.epoch
  geoOff : running a blkGeo = false → b.geo.targets.head? = some (a.epc.epoch, []) ∧ liveF b offGeoLoad 19 0 = 0
  rcOff : running a blkRc = false → liveF b offRcLoadA 23 0 = 0
  rcAlone : running a blkRc = true → a.rc.swap = none → (∀ e, a.rc.phase ≠ .parallel e) → a.rc.phase ≠ .ready →
    liveF b offRcLoadA 23 0 = ((if blockN a = 16 then 3436544 else 6742016) + 311808 * a.rc.transformed) % 2 ^ 24

theorem phaseA_phaseAMade (d : Dev) : PhaseAMade d (phaseA d) := by
  obtain ⟨bf, eq⟩ := phaseA_eq d
  have lanes := lanesRun_only d
  have only := phaseA_made d
  have epoch := geoEvaluate_epoch (bulkOf d) (lanesRun d)
  have none := fun off => geoEvaluate_none (bulkOf d) (d := lanesRun d) off
  rw [lanes.running, lanes.epc] at none
  rw [lanes.epc] at epoch
  rw [eq]
  clear eq
  generalize geoEvaluate (bulkOf d) (lanesRun d) = e at only epoch none ⊢
  have rcOff := fun off => rcLoadA_off bf (d := e) off
  have rcAlone := fun on swap apart ready => rcLoadA_alone bf (d := e) on swap apart ready
  rw [only.running] at rcOff
  rw [only.running, only.rc, only.blockN] at rcAlone
  obtain ⟨v, eq⟩ := rcLoadA_eq bf e
  rw [eq] at rcOff rcAlone ⊢
  refine ⟨only.path, only.epc, epoch, fun off => ⟨(none off).1, ?_⟩, rcOff, rcAlone⟩
  rw [liveF, liveGet_liveSetF, if_neg (by decide)]
  exact (none off).2

/-- Phase B by the block that its epoch reduced. -/
theorem stageElement_reduced (d : Dev) (a : Nat) {k : Nat} (hk : k = 1 ∨ k = 2) :
    (stageElement d k a = none ↔ d.path.reduced.find? (fun r => decide (r.epoch = a)) = none) ∧
    (∀ b, stageElement d k a = some b → ∃ r, d.path.reduced.find? (fun r => decide (r.epoch = a)) = some r ∧ b.block = r.block) ∧
    ∀ r, d.path.reduced.find? (fun r => decide (r.epoch = a)) = some r → ∃ b, stageElement d k a = some b ∧ b.block = r.block := by
  have eq : ∃ g : Audio → Audio, stageElement d k a = (d.path.reduced.find? fun r => decide (r.epoch = a)).map fun e => ⟨a, e.block, g e.audio⟩ := by
    rcases hk with rfl | rfl
    · exact ⟨audioSlice 0 512, rfl⟩
    · exact ⟨audioSlice 512 576, rfl⟩
  obtain ⟨g, eq⟩ := eq
  rw [eq]
  cases d.path.reduced.find? fun r => decide (r.epoch = a) with
  | none => exact ⟨Iff.rfl, nofun, nofun⟩
  | some r =>
    refine ⟨⟨nofun, nofun⟩, fun b hb => ⟨r, rfl, ?_⟩, fun q hq => ⟨_, rfl, ?_⟩⟩
    · cases hb
      rfl
    · cases hq
      rfl

theorem stageElement_congr {a b : Dev} (h : b.path = a.path) (s e : Nat) : stageElement b s e = stageElement a s e := by
  unfold stageElement
  rw [h]

/-- The block reduced in epoch e. -/
def reducedAt (d : Dev) (e : Nat) : Option BlockAt := d.path.reduced.find? fun r => decide (r.epoch = e)

theorem phaseB_idle {d : Dev} (h : reducedAt d d.epc.epoch = none) : phaseB d = d :=
  phaseB_none ((stageElement_reduced d _ (.inl rfl)).1.mpr h) ((stageElement_reduced d _ (.inr rfl)).1.mpr h)

/-- Phase B of an epoch that reduced a block. -/
theorem phaseB_works {d : Dev} {r : BlockAt} (h : reducedAt d d.epc.epoch = some r) : ∃ f x, PhaseBMade f x d (phaseB d) := by
  obtain ⟨f, hf, -⟩ := (stageElement_reduced d _ (.inl rfl)).2.2 r h
  obtain ⟨x, hx, -⟩ := (stageElement_reduced d _ (.inr rfl)).2.2 r h
  have feeds := joinStage_some (by decide) hf
  rw [← stageElement_congr feeds.1.path] at hx
  obtain ⟨f', hf'⟩ := feeds.2
  obtain ⟨x', hx'⟩ := (joinStage_some (s := 2) (by decide) hx).2
  exact ⟨_, _, phaseB_made ((joinStage_window (by decide) hf).trans (joinStage_window (by decide) hx)) hf' hx'⟩

/-- With SPK and AUX off the blocks are those of the reduced block. -/
theorem phaseB_direct {d : Dev} {r : BlockAt} (h : reducedAt d d.epc.epoch = some r)
    (off : ∀ k, k = 1 ∨ k = 2 → stageOn d k r.block = false ∧
      ∀ p, reducedAt d (d.epc.epoch - 1) = some p → stageOn d k p.block = false) : PhaseBMade r.block r.block d (phaseB d) := by
  have passes : ∀ k, k = 1 ∨ k = 2 → ∃ c, joinStage d k d.epc.epoch = (d, some c) ∧ c.block = r.block := by
    intro k hk
    obtain ⟨c, hc, same⟩ := (stageElement_reduced d _ hk).2.2 r h
    refine ⟨c, joinStage_off hc (by rw [same, (off k hk).1]) fun p hp => ?_, same⟩
    obtain ⟨q, hq, same'⟩ := (stageElement_reduced d _ hk).2.1 p hp
    rw [same', (off k hk).2 q hq]
  obtain ⟨f, hf, sameF⟩ := passes 1 (.inl rfl)
  obtain ⟨x, hx, sameX⟩ := passes 2 (.inr rfl)
  have made := phaseB_made (d := d) (f := f) (x := x) (by rw [hf]; dsimp only; rw [hx]; exact ⟨rfl, rfl, rfl⟩) (by rw [hf])
    (by rw [hf]; dsimp only; rw [hx])
  rwa [sameF, sameX] at made

/-- The margin of an epoch that trimmed no block. -/
theorem margin_none {d : Dev} (h : d.path.trimmed.find? (fun x => decide (x.epoch = d.epc.epoch)) = none) :
    (margin d).path = { d.path with next := [], nextBinds := [] } := by
  rw [margin_path, joinStage_none (s := 3) h]
  rfl

/-- With OUT off the trimmed block is handed over. -/
theorem margin_direct {d : Dev} {x : BlockAt} (h : d.path.trimmed.find? (fun y => decide (y.epoch = d.epc.epoch)) = some x)
    (off : stageOn d 3 x.block = false)
    (before : ∀ p, d.path.trimmed.find? (fun y => decide (y.epoch = d.epc.epoch - 1)) = some p → stageOn d 3 p.block = false) :
    (margin d).path = { d.path with
      next := if runningAt d x.block blkGraph then x.audio else []
      nextBinds := ((d.path.made.find? fun y => decide (y.1 = x.block)).map fun y => y.2).getD [] } := by
  rw [margin_path, joinStage_off (s := 3) h off before]
  rfl

/-- What CAPTURE_DONE changes when it is due. -/
theorem captureDone_only {d : Dev} (h : captureDue d) :
    OnlyWords [offRcCapStatus] { d with mem := (captureDone d).mem, cap := (captureDone d).cap } (captureDone d) := by
  rw [captureDone_due h]
  exact .liveSetF List.mem_cons_self (.refl _ _)

/-- Settles O31, from what each window leaves of the sample path and what it makes. -/
theorem renderWindowsAndCapture : Obligations.RenderWindowsAndCapture := by
  unfold Obligations.RenderWindowsAndCapture
  refine ⟨fun s due => ?_, fun s due => ?_, fun s due => ?_, fun s due => ?_, fun s => ⟨fun h => ?_, fun h => ?_, fun h => ?_, fun h => ?_⟩,
    fun c bf bb d => ⟨rfl, rfl, fun off => outputAudio_off c bf bb off⟩, fun s => ⟨fun due => ?_, fun idle => ?_⟩⟩
  · refine runs_ran (f := inWindow 0 phaseA) rfl ?_
    rw [inWindow_due phaseA due]
    obtain ⟨path, epc, targets, geoOff, rcOff, rcAlone⟩ := phaseA_phaseAMade (windowOpen 0 s.dev)
    exact ⟨path, epc, (phaseA_quiet _ (.refl _)).act, targets, geoOff, rcOff, rcAlone⟩
  · refine runs_ran (f := inWindow 1 reduction) rfl ?_
    rw [inWindow_due reduction due]
    have act := (reduction_quiet (windowOpen 1 s.dev) (.refl _)).act
    obtain ⟨epc, pool, idle, block, twn⟩ := reduction_reduced (windowOpen 1 s.dev)
    generalize reduction (windowOpen 1 s.dev) = e at act epc pool idle block twn ⊢
    have phase : e.path.phase = 2 := by
      cases h : s.dev.xp.block with
      | none => rw [idle h]; rfl
      | some b =>
        obtain ⟨out, path⟩ := block b h
        rw [path]
        rfl
    refine ⟨phase, epc, act, pool, idle, fun b h => ?_, ?_⟩
    · obtain ⟨out, path⟩ := block b h
      rw [path]
      exact ⟨rfl, rfl⟩
    · rw [twn, (windowOpen_lanes 1 s.dev 0).2.2]
      split <;> rfl
  · refine ⟨fun none => runs_ran (f := inWindow 2 phaseB) rfl ?_, fun r some => runs_ran (f := inWindow 2 phaseB) rfl ?_⟩
    · rw [inWindow_due phaseB due, phaseB_idle (d := windowOpen 2 s.dev) none]
      rfl
    · rw [inWindow_due phaseB due]
      have act := (phaseB_quiet (windowOpen 2 s.dev) (.refl _)).act
      obtain ⟨f, x, phase, epc, corrected, audio, trimmed, -⟩ := phaseB_works (d := windowOpen 2 s.dev) some
      have direct := fun off => phaseB_direct (d := windowOpen 2 s.dev) some off
      generalize phaseB (windowOpen 2 s.dev) = e at act phase epc corrected trimmed direct ⊢
      refine ⟨phase, epc, act, ?_, ?_, fun off => ?_⟩
      · obtain ⟨y, hy, eq⟩ := Option.map_eq_some_iff.mp corrected
        rw [hy, Option.map_some]
        exact congrArg Option.some (Prod.mk.inj eq).1
      · rw [trimmed]
        rfl
      · obtain ⟨-, -, corrected, audio, trimmed, silent⟩ := direct off
        obtain ⟨y, hy, eq⟩ := Option.map_eq_some_iff.mp corrected
        refine ⟨?_, by rw [trimmed]; rfl, fun graphOff => ?_⟩
        · rw [hy, Option.map_some]
          exact congrArg Option.some (Prod.mk.inj eq).2
        · rw [trimmed, silent graphOff]
          rfl
  · refine runs_ran (f := inWindow 3 margin) rfl ?_
    rw [inWindow_due margin due]
    obtain ⟨phase, epc, block, digests⟩ := margin_margined (windowOpen 3 s.dev)
    exact ⟨phase, epc, (margin_quiet _ (.refl _)).act, block, digests, fun none => margin_none (d := windowOpen 3 s.dev) none,
      fun x some off before => margin_direct (d := windowOpen 3 s.dev) some off before⟩
  · exact runs_ran (f := inWindow 0 phaseA) rfl (inWindow_idle phaseA h)
  · exact runs_ran (f := inWindow 1 reduction) rfl (inWindow_idle reduction h)
  · exact runs_ran (f := inWindow 2 phaseB) rfl (inWindow_idle phaseB h)
  · exact runs_ran (f := inWindow 3 margin) rfl (inWindow_idle margin h)
  · refine runs_ran (f := captureDone) rfl ⟨?_, ?_, ?_, fun a => ?_, captureDone_only due⟩
    · rw [captureDone_due due]
      rfl
    · rw [captureDone_due due]
      exact liveF_liveSetF_same _ _ 2 (by decide) (by decide)
    · rw [captureDone_due due]
      rfl
    · rw [captureDone_due due]
      exact mapGet_sums s.dev a
  · exact runs_ran (f := captureDone) rfl (captureDone_idle idle)

end Sys2Proof.Machine
end

section
/-!
The crossbar's bookkeeping (R332, R333, R336, R344): what the counts and the record of an error leave, when no request waits, and
XBAR_RESPONSE in its cases.
-/
namespace Sys2Proof.Machine

/-! ### Counts and records -/

/-- A register of the crossbar, or the queue of a memory controller. -/
def XbarWord (o : Nat) : Prop := (0x1300000 ≤ o ∧ o < 0x1300200) ∨ o = offMemQueue 0 ∨ o = offMemQueue 1

/-- b is a but for current values of the crossbar's registers and of the controllers' queues. -/
structure Noted (a b : Dev) : Prop where
  words : ∀ o, ¬XbarWord o → liveGet b o = liveGet a o
  rest : b = { a with regs := { a.regs with live := b.regs.live } }

theorem Noted.refl (a : Dev) : Noted a a := ⟨fun _ _ => rfl, rfl⟩

theorem Noted.trans {a b c : Dev} (h : Noted a b) (k : Noted b c) : Noted a c := by
  refine ⟨fun o ho => (k.words o ho).trans (h.words o ho), ?_⟩
  have rest := k.rest
  rw [h.rest] at rest
  exact rest

theorem Noted.liveSet {a b : Dev} (h : Noted a b) {o : Nat} (ho : XbarWord o) (w : Word) : Noted a (liveSet b o w) :=
  h.trans ⟨fun _ hp => liveGet_liveSet_other b w fun e => hp (e ▸ ho), rfl⟩

theorem Noted.xbar {a b : Dev} (h : Noted a b) : b.xbar = a.xbar := by rw [h.rest]

theorem OnlyWords.liveMax {ws : List Nat} {a b : Dev} {o : Nat} (ho : o ∈ ws) (h : OnlyWords ws a b) (hi lo v : Nat) :
    OnlyWords ws a (liveMax b o hi lo v) := by
  unfold Machine.liveMax
  split
  · exact h.liveSetF ho
  · exact h

/-- The registers that count outstanding transactions. -/
def countWords (m : Nat) : List Nat := [offXbarOutstanding, offXbarMaster m, offXbarStatus, offMemQueue 0, offMemQueue 1]

theorem xbarCounts_only (m : Nat) (d : Dev) : OnlyWords (countWords m) d (xbarCounts m d) := by
  have mem : offXbarOutstanding ∈ countWords m ∧ offXbarMaster m ∈ countWords m ∧ offXbarStatus ∈ countWords m := by
    simp [countWords]
  have queue : ∀ ch, ch ∈ List.range 2 → offMemQueue ch ∈ countWords m := by
    intro ch hc
    obtain rfl | rfl : ch = 0 ∨ ch = 1 := by have := List.mem_range.mp hc; omega
    · simp [countWords]
    · simp [countWords]
  obtain ⟨all, own, status⟩ := mem
  unfold xbarCounts
  extract_lets n k d1 d2 d3
  have h1 : OnlyWords (countWords m) d d1 := .liveMax all (.liveSetF all (.refl _ _)) _ _ _
  have h2 : OnlyWords (countWords m) d d2 := .liveMax own (.liveSetF own h1) _ _ _
  have h3 : OnlyWords (countWords m) d d3 := by
    unfold d3
    split
    · exact .liveSetB status h2
    · exact h2
  clear_value d3
  have key : ∀ (l : List Nat) (e : Dev), (∀ ch ∈ l, offMemQueue ch ∈ countWords m) → OnlyWords (countWords m) d e →
      OnlyWords (countWords m) d (l.foldl (fun d ch => Machine.liveMax d (offMemQueue ch) 22 16 (memQueued d ch)) e) := by
    intro l
    induction l with
    | nil => exact fun e _ he => he
    | cons ch t ih =>
      exact fun e hl he => ih _ (fun c hc => hl c (List.mem_cons_of_mem ch hc)) (.liveMax (hl ch List.mem_cons_self) he _ _ _)
  exact key _ d3 queue h3

theorem OnlyWords.noted {ws : List Nat} {a b : Dev} (h : OnlyWords ws a b) (hw : ∀ o ∈ ws, XbarWord o) : Noted a b := by
  refine ⟨fun o ho => h.regs.live o fun mem => ho (hw o mem), ?_⟩
  have eq := h.eq_live
  exact eq

theorem xbarCounts_noted {m : Nat} (hm : m < 19) (d : Dev) : Noted d (xbarCounts m d) := by
  refine (xbarCounts_only m d).noted fun o ho => ?_
  simp only [countWords, List.mem_cons, List.not_mem_nil, or_false] at ho
  unfold XbarWord
  unfold offXbarOutstanding offXbarMaster offXbarStatus at ho
  omega

/-- The response code of an error, and the registers of its record. -/
theorem countError_noted (m addr : Nat) (write : Bool) (resp : XResp) (d : Dev) : Noted d (countError m addr write resp d) := by
  have count : XbarWord (offXbarErrCount (3 - respCode resp)) := by
    unfold XbarWord offXbarErrCount
    omega
  have fixed : XbarWord offXbarStatus ∧ XbarWord offXbarLastErrLo ∧ XbarWord offXbarLastErrHi ∧ XbarWord offXbarLastErrInfo := by
    unfold XbarWord
    decide
  obtain ⟨status, lo, hi, info⟩ := fixed
  exact (((((Noted.refl d).liveSet status _).liveSet count _).liveSet lo _).liveSet hi _).liveSet info _

theorem countError_info (m addr : Nat) (write : Bool) (resp : XResp) (d : Dev) :
    liveGet (countError m addr write resp d) offXbarLastErrInfo = BitVec.ofNat 32 (m % 32 * 65536 + respCode resp * 256 + write.toNat) ∧
    liveGet (countError m addr write resp d) offXbarLastErrLo = BitVec.ofNat 32 addr := by
  unfold countError
  refine ⟨liveGet_liveSet_same _ _ _, ?_⟩
  rw [liveGet_liveSet_other _ _ (by decide), liveGet_liveSet_other _ _ (by decide), liveGet_liveSet_same]

/-! ### Grants -/

/-- Where no request waits none is granted or held. -/
theorem xbarGrants_idle {d : Dev} (h : d.xbar.waiting = []) : xbarGrants d = d := by
  unfold xbarGrants
  rw [h, List.length_nil, grantAll, countHolds, h]
  rfl

/-! ### A response in its cases -/

/-- A transaction of the master and ID. -/
def isTx (m id : Nat) (t : XbarTx) : Bool := decide (t.req.master = m ∧ t.req.id = id)

/-- The device once the place of the transaction is free. -/
def placeFreed (m id : Nat) (d : Dev) : Dev :=
  xbarCounts m { d with xbar := { d.xbar with out := d.xbar.out.eraseP (isTx m id) } }

/-- The answers of the master are the one to the ID. -/
def answersTo (m id : Nat) (x : Xbar) (r : XResp) (bytes : List Byte) : Xbar :=
  { x with answers := (x.answers.filter fun a => decide (a.1 ≠ m)) ++ [(m, id, r, bytes)] }

/-- The master has its answer. -/
def answered (m id : Nat) (r : XResp) (bytes : List Byte) (d : Dev) : Dev := { d with xbar := answersTo m id d.xbar r bytes }

/-- The transaction may get the response now. -/
def RespDue (m : Nat) (resp : XResp) (traffic : XTraffic) (d : Dev) (tx : XbarTx) : Prop :=
  respFits d tx resp = true ∧ inTurn d tx = true ∧ (resp = .ok ∨ trafficOf m traffic = true)

section
variable {m id : Nat} {resp : XResp} {traffic : XTraffic} {d : Dev}

theorem xbarResponse_none (h : ∀ t ∈ d.xbar.out, t.req.master = m → t.req.id ≠ id) : xbarResponse m id resp traffic d = d := by
  have none : d.xbar.out.find? (isTx m id) = Option.none := by
    rw [List.find?_eq_none]
    intro t ht hit
    obtain ⟨hm, hid⟩ := of_decide_eq_true hit
    exact h t ht hm hid
  unfold xbarResponse
  unfold isTx at none
  rw [none]

variable {tx : XbarTx} (found : d.xbar.out.find? (isTx m id) = some tx)
include found

theorem txMaster : tx.req.master = m := by
  have hit := List.find?_some found
  exact (of_decide_eq_true hit).1

theorem xbarResponse_idle (h : ¬RespDue m resp traffic d tx) : xbarResponse m id resp traffic d = d := by
  unfold xbarResponse
  unfold isTx at found
  rw [found]
  refine if_neg fun due => h ?_
  simpa [RespDue, and_assoc] using due

variable (due : RespDue m resp traffic d tx)
include due

/-- The answer of a transaction that is due, whatever it is. -/
theorem xbarResponse_due : xbarResponse m id resp traffic d =
    let e := if resp = .ok then placeFreed m id d else countError m tx.req.addr tx.req.write resp (placeFreed m id d)
    if tx.void then xbarGrants e
    else
      let r : Dev × List Byte := if resp = .ok then okOutcome tx e else (errorOutcome tx traffic e, [])
      xbarGrants (answered m id resp r.2 r.1) := by
  have hm := txMaster found
  have cond : (respFits d tx resp && inTurn d tx && (decide (resp = .ok) || trafficOf m traffic)) = true := by
    obtain ⟨fits, turn, kind⟩ := due
    rw [fits, turn]
    simpa using kind
  unfold xbarResponse
  unfold isTx at found
  rw [found]
  dsimp only
  rw [if_pos cond, hm]
  cases tx.void <;> rfl

end

end Sys2Proof.Machine
end

section
/-!
What stands behind the crossbar while a place is freed (R332, R344): the bytes that a transaction reads are those of the device before it.
-/
namespace Sys2Proof.Machine

/-- b is a but for the crossbar's transactions, its registers and the controllers' queues. -/
structure Freed (a b : Dev) : Prop where
  words : ∀ o, ¬XbarWord o → liveGet b o = liveGet a o
  rest : b = { a with regs := { a.regs with live := b.regs.live }, xbar := b.xbar }
  waiting : b.xbar.waiting = a.xbar.waiting

theorem placeFreed_xbar {m : Nat} (hm : m < 19) (id : Nat) (d : Dev) :
    (placeFreed m id d).xbar = { d.xbar with out := d.xbar.out.eraseP (isTx m id) } := (xbarCounts_noted hm _).xbar

theorem placeFreed_freed {m : Nat} (hm : m < 19) (id : Nat) (d : Dev) : Freed d (placeFreed m id d) := by
  obtain ⟨words, rest⟩ := xbarCounts_noted hm { d with xbar := { d.xbar with out := d.xbar.out.eraseP (isTx m id) } }
  have xbar := placeFreed_xbar hm id d
  unfold placeFreed at xbar ⊢
  refine ⟨words, ?_, by rw [xbar]⟩
  rw [xbar]
  exact rest

theorem Freed.noted {a b c : Dev} (h : Freed a b) (k : Noted b c) : Freed a c := by
  refine ⟨fun o ho => (k.words o ho).trans (h.words o ho), ?_, by rw [k.xbar, h.waiting]⟩
  have rest := k.rest
  rw [h.rest] at rest
  rw [k.xbar]
  exact rest

section
variable {a b : Dev} (h : Freed a b)
include h

theorem Freed.vec : b.vec = a.vec := by rw [h.rest]

theorem Freed.mem : b.mem = a.mem := by rw [h.rest]

theorem Freed.xp : b.xp = a.xp := by rw [h.rest]

theorem Freed.boot : b.boot = a.boot := by rw [h.rest]

theorem Freed.cap : b.cap = a.cap := by rw [h.rest]

theorem Freed.path : b.path = a.path := by rw [h.rest]

theorem Freed.epc : b.epc = a.epc := by rw [h.rest]

theorem Freed.act : b.regs.act = a.regs.act := by rw [h.rest]

theorem Freed.blockN : Machine.blockN b = Machine.blockN a := by
  unfold Machine.blockN liveB
  rw [h.words offSysRate (by unfold XbarWord; decide)]

theorem Freed.mem1Reserved : Machine.mem1Reserved b = Machine.mem1Reserved a := by
  unfold Machine.mem1Reserved memSize liveF
  rw [h.words (offMemStatus 1) (by unfold XbarWord; decide)]

theorem Freed.coreOf (core : Nat) : Machine.coreOf b core = Machine.coreOf a core := by
  unfold Machine.coreOf
  rw [h.vec]

theorem Freed.coreWord {core : Nat} (hc : core < 36) : liveGet b (offVecCoreState core) = liveGet a (offVecCoreState core) := by
  refine h.words _ fun word => ?_
  unfold XbarWord offVecCoreState offMemQueue at word
  omega

theorem Freed.sramByte (o : Nat) : Machine.sramByte b o = Machine.sramByte a o := by
  unfold Machine.sramByte
  dsimp only
  rw [h.mem, h.words]
  unfold XbarWord offErrLog offMemQueue
  omega

theorem Freed.clusterByte (o : Nat) : Machine.clusterByte b o = Machine.clusterByte a o := by
  unfold Machine.clusterByte
  simp only [h.coreOf, h.vec]

theorem Freed.renderByte (o : Nat) : Machine.renderByte b o = Machine.renderByte a o := by
  unfold Machine.renderByte
  rw [h.mem]

theorem Freed.mem0Byte (o : Nat) : Machine.mem0Byte b o = Machine.mem0Byte a o := by
  unfold Machine.mem0Byte
  rw [h.blockN, h.xp, h.mem, h.epc]

theorem Freed.mem1Byte (o : Nat) : Machine.mem1Byte b o = Machine.mem1Byte a o := by
  unfold Machine.mem1Byte
  rw [h.mem1Reserved, h.mem, h.epc]

/-- What is read of a target other than the register bridge. -/
theorem Freed.targetRead {t : Nat} (ht : t ≠ 3) (o n : Nat) : Machine.targetRead b t o n = Machine.targetRead a t o n := by
  unfold Machine.targetRead
  split
  · rfl
  · simp only [h.sramByte]
  · exact absurd rfl ht
  · simp only [h.clusterByte]
  · simp only [h.renderByte]
  · simp only [h.mem0Byte]
  · unfold mem1Run
    simp only [h.mem1Byte]

end

/-! ### A response that is due, by its kind -/

/-- The device once the place is free and, of an error, the error recorded. -/
def errorNoted (m id addr : Nat) (write : Bool) (resp : XResp) (d : Dev) : Dev := countError m addr write resp (placeFreed m id d)

theorem errorNoted_freed {m : Nat} (hm : m < 19) (id addr : Nat) (write : Bool) (resp : XResp) (d : Dev) :
    Freed d (errorNoted m id addr write resp d) := (placeFreed_freed hm id d).noted (countError_noted _ _ _ _ _)

theorem errorNoted_xbar (m id addr : Nat) (write : Bool) (resp : XResp) (d : Dev) :
    (errorNoted m id addr write resp d).xbar = (placeFreed m id d).xbar := (countError_noted _ _ _ _ _).xbar

section
variable {m id : Nat} {resp : XResp} {traffic : XTraffic} {d : Dev} {tx : XbarTx} (hm : m < 19)
  (found : d.xbar.out.find? (isTx m id) = some tx) (due : RespDue m resp traffic d tx)
include found due

theorem xbarResponse_ok (live : tx.void = false) (ok : resp = .ok) : xbarResponse m id resp traffic d =
    xbarGrants (answered m id .ok (okOutcome tx (placeFreed m id d)).2 (okOutcome tx (placeFreed m id d)).1) := by
  rw [xbarResponse_due found due]
  subst ok
  dsimp only
  rw [live, if_pos rfl]
  exact if_neg Bool.false_ne_true

theorem xbarResponse_error (live : tx.void = false) (bad : resp ≠ .ok) : xbarResponse m id resp traffic d =
    xbarGrants (answered m id resp [] (errorOutcome tx traffic (errorNoted m id tx.req.addr tx.req.write resp d))) := by
  rw [xbarResponse_due found due]
  dsimp only
  rw [live, if_neg bad, if_neg bad, errorNoted]
  exact if_neg Bool.false_ne_true

variable (still : d.xbar.waiting = [])
include hm still

theorem xbarResponse_void (void : tx.void = true) : xbarResponse m id resp traffic d =
    if resp = .ok then placeFreed m id d else errorNoted m id tx.req.addr tx.req.write resp d := by
  rw [xbarResponse_due found due]
  dsimp only
  rw [void, if_pos rfl, errorNoted]
  split
  · exact xbarGrants_idle ((placeFreed_freed hm id d).waiting.trans still)
  · exact xbarGrants_idle ((errorNoted_freed hm id _ _ _ d).waiting.trans still)

end

/-- What answers with nothing waiting and the crossbar as it was left. -/
theorem xbarGrants_answered {m id : Nat} {resp : XResp} {d e : Dev} (hm : m < 19) (still : d.xbar.waiting = [])
    (kept : e.xbar = (placeFreed m id d).xbar) (bytes : List Byte) :
    xbarGrants (answered m id resp bytes e) = { e with xbar := answersTo m id (placeFreed m id d).xbar resp bytes } := by
  have waiting : (answered m id resp bytes e).xbar.waiting = [] := by
    have same : (answered m id resp bytes e).xbar.waiting = e.xbar.waiting := rfl
    rw [same, kept, (placeFreed_freed hm id d).waiting, still]
  rw [xbarGrants_idle waiting, answered, kept]

end Sys2Proof.Machine
end

section
/-!
Bytes written through the crossbar (R332): a run of bytes, and what the memories read after one.
-/
namespace Sys2Proof.Machine

/-! ### A run of bytes -/

/-- Bytes are put one after the other from offset o. -/
def putRun (put : Dev → Nat → Byte → Dev) (o : Nat) (bs : List Byte) (d : Dev) : Dev :=
  bs.zipIdx.foldl (fun d b => put d (o + b.2) b.1) d

/-- Of a memory: `put` writes byte o, where `stored` tells whether the place takes it and `val` what is kept of it; every other byte reads
as before. The places written are those of `dom`, the places read those of `seen`. -/
structure PutGet (put : Dev → Nat → Byte → Dev) (get : Dev → Nat → Byte) (dom seen : Nat → Prop) (stored : Nat → Bool)
    (val : Nat → Byte → Byte) : Prop where
  read : ∀ d o b a, dom o → seen a → get (put d o b) a = if a = o ∧ stored o = true then val o b else get d a

theorem foldl_zipIdx_succ (put : Dev → Nat → Byte → Dev) (o : Nat) : ∀ (bs : List Byte) (k : Nat) (d : Dev),
    (bs.zipIdx (k + 1)).foldl (fun d b => put d (o + b.2) b.1) d = (bs.zipIdx k).foldl (fun d b => put d (o + 1 + b.2) b.1) d := by
  intro bs
  induction bs with
  | nil => exact fun _ _ => rfl
  | cons b t ih =>
    intro k d
    rw [List.zipIdx_cons, List.zipIdx_cons, List.foldl_cons, List.foldl_cons, ih]
    have place : o + (k + 1) = o + 1 + k := by omega
    dsimp only
    rw [place]

theorem putRun_nil (put : Dev → Nat → Byte → Dev) (o : Nat) (d : Dev) : putRun put o [] d = d := rfl

theorem putRun_cons (put : Dev → Nat → Byte → Dev) (o : Nat) (b : Byte) (t : List Byte) (d : Dev) :
    putRun put o (b :: t) d = putRun put (o + 1) t (put d o b) := by
  unfold putRun
  rw [List.zipIdx_cons, List.foldl_cons, foldl_zipIdx_succ]
  rfl

/-- What a memory reads after a run of bytes. -/
theorem PutGet.run {put : Dev → Nat → Byte → Dev} {get : Dev → Nat → Byte} {dom seen : Nat → Prop} {stored : Nat → Bool}
    {val : Nat → Byte → Byte} (h : PutGet put get dom seen stored val) : ∀ (bs : List Byte) (o : Nat) (d : Dev) (a : Nat),
    (∀ i, i < bs.length → dom (o + i)) → seen a → get (putRun put o bs d) a =
      if (o ≤ a ∧ a < o + bs.length) ∧ stored a = true then val a (bs.getD (a - o) 0) else get d a := by
  intro bs
  induction bs with
  | nil =>
    intro o d a _ _
    rw [putRun_nil, if_neg]
    intro inside
    have := inside.1
    simp only [List.length_nil] at this
    omega
  | cons b t ih =>
    intro o d a range ha
    have first : dom o := range 0 (by simp)
    rw [putRun_cons, ih (o + 1) (put d o b) a (fun i hi => ?_) ha, h.read d o b a first ha, List.length_cons]
    · by_cases same : a = o
      · subst same
        rw [if_neg (by omega)]
        by_cases keep : stored a = true
        · rw [if_pos ⟨rfl, keep⟩, if_pos ⟨by omega, keep⟩, Nat.sub_self]
          rfl
        · rw [if_neg (fun x => keep x.2), if_neg (fun x => keep x.2)]
      · rw [if_neg (c := a = o ∧ _) (fun x => same x.1)]
        by_cases inside : (o + 1 ≤ a ∧ a < o + 1 + t.length) ∧ stored a = true
        · have pos : a - o = a - (o + 1) + 1 := by omega
          rw [if_pos inside, if_pos ⟨by omega, inside.2⟩, pos, List.getD_cons_succ]
        · rw [if_neg inside, if_neg (fun x => inside ⟨by omega, x.2⟩)]
    · have next := range (i + 1) (by simpa using hi)
      have place : o + (i + 1) = o + 1 + i := by omega
      rwa [place] at next

/-- What every byte leaves, a run leaves. -/
theorem putRun_rel {put : Dev → Nat → Byte → Dev} {r : Dev → Dev → Prop} (refl : ∀ d, r d d) (trans : ∀ a b c, r a b → r b c → r a c)
    (h : ∀ d o b, r d (put d o b)) : ∀ (bs : List Byte) (o : Nat) (d : Dev), r d (putRun put o bs d) := by
  intro bs
  induction bs with
  | nil => exact fun _ d => refl d
  | cons b t ih =>
    intro o d
    rw [putRun_cons]
    exact trans _ _ _ (h d o b) (ih _ _)

/-! ### System SRAM -/

theorem byteGet_bytesSet (m : List (Nat × Byte)) (o : Nat) (b : Byte) (a : Nat) :
    byteGet (bytesSet m o [b]) a = if a = o then b else byteGet m a :=
  mapGet_mapSet byte0 m o a b

theorem sramPut_get : PutGet sramPut sramByte (fun _ => True) (fun _ => True) (fun o => !inLogRing o) (fun _ b => b) := by
  refine ⟨fun d o b a _ _ => ?_⟩
  unfold sramPut
  by_cases ring : inLogRing o = true
  · rw [if_pos ring, if_neg (by rw [ring]; simp)]
  · have free : inLogRing o = false := by simpa using ring
    rw [if_neg ring]
    by_cases same : a = o
    · subst same
      rw [if_pos ⟨rfl, by rw [free]; rfl⟩]
      unfold sramByte
      dsimp only
      rw [if_neg ring]
      exact (byteGet_bytesSet d.mem.sram a b a).trans (if_pos rfl)
    · rw [if_neg fun x => same x.1]
      unfold sramByte
      dsimp only
      by_cases log : inLogRing a = true
      · rw [if_pos log, if_pos log]
        rfl
      · rw [if_neg log, if_neg log]
        exact (byteGet_bytesSet d.mem.sram o b a).trans (if_neg same)

/-- A run of bytes changes the bytes of system SRAM alone. -/
theorem sramRun_rest (bs : List Byte) (o : Nat) (d : Dev) :
    putRun sramPut o bs d = { d with mem := { d.mem with sram := (putRun sramPut o bs d).mem.sram } } := by
  refine putRun_rel (r := fun a b => b = { a with mem := { a.mem with sram := b.mem.sram } }) (fun _ => rfl) (fun a b c h k => ?_)
    (fun d o b => ?_) bs o d
  · rw [h] at k
    exact k
  · unfold sramPut
    split <;> rfl

/-! ### MEM1 -/

theorem find?_mapIns_mapDel {α : Type} (l : List (Nat × α)) (k : Nat) (v : α) (a : Nat) :
    (mapIns (mapDel l k) k v).find? (fun e => decide (e.1 = a)) = if a = k then some (k, v) else l.find? fun e => decide (e.1 = a) := by
  have ins : ∀ m : List (Nat × α), (∀ p ∈ m, p.1 ≠ k) →
      (mapIns m k v).find? (fun e => decide (e.1 = a)) = if a = k then some (k, v) else m.find? fun e => decide (e.1 = a) := by
    intro m
    induction m with
    | nil =>
      intro _
      by_cases same : a = k
      · subst same
        simp [mapIns]
      · rw [if_neg same, mapIns, List.find?_cons_of_neg (by simpa using Ne.symm same)]
    | cons p t ih =>
      intro apart
      have rest := ih fun q hq => apart q (List.mem_cons_of_mem p hq)
      have other : p.1 ≠ k := apart p List.mem_cons_self
      rw [mapIns]
      split
      · by_cases same : a = k
        · subst same
          simp
        · rw [if_neg same, List.find?_cons_of_neg (by simpa using Ne.symm same)]
      · by_cases hit : p.1 = a
        · rw [List.find?_cons_of_pos (by simpa using hit), if_neg (fun e => other (hit.trans e)), List.find?_cons_of_pos (by simpa using hit)]
        · rw [List.find?_cons_of_neg (by simpa using hit), rest, List.find?_cons_of_neg (by simpa using hit)]
  rw [ins _ (mapDel_keys l k)]
  split
  · rfl
  · next other =>
    rw [mapDel_eq_filter, List.find?_filter]
    congr 1
    funext e
    by_cases hit : e.1 = a
    · simp [hit, other]
    · simp [hit]

/-- What MEM1 reads under and over the bound of the supervisor reserved region. -/
theorem mem1Byte_low {d : Dev} {o : Nat} (h : o < mem1Reserved d) : mem1Byte d o = byteGet d.mem.mem1 o := if_pos h

theorem mem1Byte_high {d : Dev} {o : Nat} (h : ¬o < mem1Reserved d) : mem1Byte d o =
    match d.mem.reserved.find? fun e => decide (e.1 = o) with
    | some e => e.2
    | none => Config.firmwareByte d.epc.epoch o := if_neg h

theorem mem1Put_low {d : Dev} {o : Nat} (h : o < mem1Reserved d) (b : Byte) : mem1Put d o b = setMem1 d (bytesSet d.mem.mem1 o [b]) :=
  if_pos h

theorem mem1Put_high {d : Dev} {o : Nat} (h : ¬o < mem1Reserved d) (b : Byte) : mem1Put d o b = reservedPut d o b := if_neg h

/-- The bound goes by a register of the controller. -/
theorem mem1Reserved_congr {a b : Dev} (h : liveGet b (offMemStatus 1) = liveGet a (offMemStatus 1)) : mem1Reserved b = mem1Reserved a := by
  unfold mem1Reserved memSize liveF
  rw [h]

theorem mem1Put_get : PutGet mem1Put mem1Byte (fun _ => True) (fun _ => True) (fun _ => true) (fun _ b => b) := by
  refine ⟨fun d o b a _ _ => ?_⟩
  by_cases own : o < mem1Reserved d
  · have bound : mem1Reserved (setMem1 d (bytesSet d.mem.mem1 o [b])) = mem1Reserved d := mem1Reserved_congr rfl
    rw [mem1Put_low own]
    by_cases low : a < mem1Reserved d
    · rw [mem1Byte_low low, mem1Byte_low (by rwa [bound])]
      refine (byteGet_bytesSet d.mem.mem1 o b a).trans ?_
      by_cases same : a = o
      · rw [if_pos same, if_pos ⟨same, rfl⟩]
      · rw [if_neg same, if_neg fun x => same x.1]
    · rw [mem1Byte_high low, mem1Byte_high (by rwa [bound]), if_neg (c := a = o ∧ _) fun x => low (x.1 ▸ own)]
      rfl
  · have bound : mem1Reserved (reservedPut d o b) = mem1Reserved d := mem1Reserved_congr rfl
    rw [mem1Put_high own]
    by_cases low : a < mem1Reserved d
    · rw [mem1Byte_low low, mem1Byte_low (by rwa [bound]), if_neg (c := a = o ∧ _) fun x => own (x.1 ▸ low)]
      rfl
    · rw [mem1Byte_high low, mem1Byte_high (by rwa [bound])]
      have find := find?_mapIns_mapDel d.mem.reserved o b a
      unfold reservedPut
      dsimp only
      rw [find]
      by_cases same : a = o
      · rw [if_pos same, if_pos ⟨same, rfl⟩]
      · rw [if_neg same, if_neg fun x => same x.1]

theorem mem1Run_rest (bs : List Byte) (o : Nat) (d : Dev) : putRun mem1Put o bs d = { d with mem := { d.mem with
    mem1 := (putRun mem1Put o bs d).mem.mem1, reserved := (putRun mem1Put o bs d).mem.reserved } } := by
  refine putRun_rel (r := fun a b => b = { a with mem := { a.mem with mem1 := b.mem.mem1, reserved := b.mem.reserved } }) (fun _ => rfl)
    (fun a b c h k => ?_) (fun d o b => ?_) bs o d
  · rw [h] at k
    exact k
  · unfold mem1Put
    split <;> rfl

end Sys2Proof.Machine
end

section
/-!
Bytes of words, and the memories of the clusters, the render configuration window and MEM0 under a run of bytes (Table 15-2, R332).
-/
namespace Sys2Proof.Machine

/-! ### Bytes of a word -/

theorem byteOf_eq (w k : Nat) : byteOf w k = BitVec.ofNat 8 (w / 256 ^ k % 256) := by
  unfold byteOf
  apply BitVec.eq_of_toNat_eq
  rw [BitVec.toNat_ofNat, BitVec.toNat_ofNat]
  exact (Nat.mod_mod _ 256).symm

/-- A byte goes by the word's lower part that reaches over it. -/
theorem byteOf_of_mod {v w k n : Nat} (hk : k < n) (h : v % 256 ^ n = w % 256 ^ n) : byteOf v k = byteOf w k := by
  have digit : ∀ x : Nat, x / 256 ^ k % 256 = x % 256 ^ n / 256 ^ k % 256 := by
    intro x
    have split : 256 ^ n = 256 ^ k * (256 * 256 ^ (n - k - 1)) := by
      rw [← Nat.pow_succ', ← Nat.pow_add]
      congr 1
      omega
    rw [split, Nat.mod_mul_right_div_self, Nat.mod_mul_right_mod]
  rw [byteOf_eq, byteOf_eq, digit v, digit w, h]

theorem byteOf_setByteOf (w k j : Nat) (b : Byte) : byteOf (setByteOf w k b) j = if j = k then b else byteOf w j := by
  have below : w % 256 ^ k < 256 ^ k := Nat.mod_lt _ (Nat.pow_pos (by decide))
  have cell : b.toNat * 256 ^ k + w % 256 ^ k < 256 ^ (k + 1) := by
    have := b.isLt
    calc b.toNat * 256 ^ k + w % 256 ^ k < b.toNat * 256 ^ k + 256 ^ k := by omega
      _ = (b.toNat + 1) * 256 ^ k := (Nat.succ_mul _ _).symm
      _ ≤ 256 * 256 ^ k := Nat.mul_le_mul_right _ (by omega)
      _ = 256 ^ (k + 1) := (Nat.pow_succ').symm
  obtain lt | rfl | gt := Nat.lt_trichotomy j k
  · rw [if_neg (by omega)]
    refine byteOf_of_mod lt ?_
    unfold setByteOf
    rw [Nat.pow_succ, ← Nat.mul_assoc, Nat.mul_right_comm, ← Nat.add_mul, Nat.mul_add_mod_self_right, Nat.mod_mod]
  · rw [if_pos rfl, byteOf_eq]
    have high : setByteOf w j b / 256 ^ j = w / 256 ^ (j + 1) * 256 + b.toNat := by
      unfold setByteOf
      rw [Nat.pow_succ, ← Nat.mul_assoc, Nat.mul_right_comm, ← Nat.add_mul, Nat.mul_comm, Nat.mul_add_div (Nat.pow_pos (by decide)),
        Nat.div_eq_of_lt below, Nat.add_zero]
    rw [high, Nat.mul_add_mod_self_right, Nat.mod_eq_of_lt b.isLt]
    exact BitVec.ofNat_toNat 8 b |>.trans (BitVec.setWidth_eq b)
  · rw [if_neg (by omega)]
    have high : setByteOf w k b / 256 ^ (k + 1) = w / 256 ^ (k + 1) := by
      unfold setByteOf
      rw [Nat.add_assoc, Nat.mul_comm, Nat.mul_add_div (Nat.pow_pos (by decide)), Nat.div_eq_of_lt cell, Nat.add_zero]
    have place : 256 ^ j = 256 ^ (k + 1) * 256 ^ (j - (k + 1)) := by
      rw [← Nat.pow_add]
      congr 1
      omega
    unfold byteOf
    rw [place, ← Nat.div_div_eq_div_mul, ← Nat.div_div_eq_div_mul, high]

/-- The bytes of a word of 32 bits whose byte k was replaced. -/
theorem byteOf_setWord (w : Word) {k j : Nat} (hj : j < 4) (b : Byte) :
    byteOf (BitVec.ofNat 32 (setByteOf w.toNat k b)).toNat j = if j = k then b else byteOf w.toNat j := by
  rw [← byteOf_setByteOf, BitVec.toNat_ofNat]
  exact byteOf_of_mod hj (Nat.mod_mod _ _)

/-! ### The clusters' memories -/

/-- A byte of a core's memories. -/
def coreByte (m : VecCore) (c : Nat) : Byte :=
  if c < 0x40000 then byteOf (mapGet word0 m.xmem (c / 4)).toNat (c % 4)
  else if c < 0x80000 then byteOf (mapGet word0 m.ymem ((c - 0x40000) / 4)).toNat (c % 4)
  else byteOf (mapGet (fun _ => 0) m.prog ((c - 0x80000) / 8)) (c % 8)

/-- A core with a byte of its memories replaced. -/
def corePut (m : VecCore) (c : Nat) (b : Byte) : VecCore :=
  let put := fun (w : Word) => BitVec.ofNat 32 (setByteOf w.toNat (c % 4) b)
  if c < 0x40000 then { m with xmem := mapUpd word0 m.xmem (c / 4) put }
  else if c < 0x80000 then { m with ymem := mapUpd word0 m.ymem ((c - 0x40000) / 4) put }
  else { m with prog := mapUpd (fun _ => 0) m.prog ((c - 0x80000) / 8) fun w => setByteOf w (c % 8) b }

theorem mapGet_mapUpd {α : Type} [DecidableEq α] (d : Nat → α) (m : List (Nat × α)) (k j : Nat) (f : α → α) :
    mapGet d (mapUpd d m k f) j = if j = k then f (mapGet d m k) else mapGet d m j := mapGet_mapSet d m k j _

/-- A byte of a word memory after one of its bytes was replaced. -/
theorem byteOf_mapUpd (m : List (Nat × Word)) (b : Byte) {k j p q : Nat} (hq : q < 4) :
    byteOf (mapGet word0 (mapUpd word0 m k fun w => BitVec.ofNat 32 (setByteOf w.toNat p b)) j).toNat q =
      if j = k ∧ q = p then b else byteOf (mapGet word0 m j).toNat q := by
  rw [mapGet_mapUpd]
  by_cases word : j = k
  · subst word
    rw [if_pos rfl, byteOf_setWord _ hq]
    by_cases place : q = p
    · rw [if_pos place, if_pos ⟨rfl, place⟩]
    · rw [if_neg place, if_neg fun x => place x.2]
  · rw [if_neg word, if_neg fun x => word x.1]

theorem coreByte_corePut (m : VecCore) (c : Nat) (b : Byte) (e : Nat) :
    coreByte (corePut m c b) e = if e = c then b else coreByte m e := by
  unfold corePut
  dsimp only
  by_cases x : c < 0x40000
  · rw [if_pos x]
    unfold coreByte
    by_cases ex : e < 0x40000
    · rw [if_pos ex, if_pos ex]
      refine (byteOf_mapUpd m.xmem b (Nat.mod_lt e (by decide))).trans ?_
      exact if_congr (by omega) rfl rfl
    · rw [if_neg ex, if_neg ex, if_neg (c := e = c) (by omega)]
  · rw [if_neg x]
    by_cases y : c < 0x80000
    · rw [if_pos y]
      unfold coreByte
      by_cases ex : e < 0x40000
      · rw [if_pos ex, if_pos ex, if_neg (c := e = c) (by omega)]
      · rw [if_neg ex, if_neg ex]
        by_cases ey : e < 0x80000
        · rw [if_pos ey, if_pos ey]
          refine (byteOf_mapUpd m.ymem b (Nat.mod_lt e (by decide))).trans ?_
          exact if_congr (by omega) rfl rfl
        · rw [if_neg ey, if_neg ey, if_neg (c := e = c) (by omega)]
    · rw [if_neg y]
      unfold coreByte
      by_cases ey : e < 0x80000
      · rw [if_neg (c := e = c) (by omega)]
        by_cases ex : e < 0x40000
        · rw [if_pos ex, if_pos ex]
        · rw [if_neg ex, if_neg ex, if_pos ey, if_pos ey]
      · rw [if_neg (c := e < 0x40000) (by omega), if_neg (c := e < 0x40000) (by omega), if_neg ey, if_neg ey]
        dsimp only
        rw [mapGet_mapUpd]
        by_cases word : (e - 0x80000) / 8 = (c - 0x80000) / 8
        · rw [if_pos word, byteOf_setByteOf, word]
          exact if_congr (by omega) rfl rfl
        · rw [if_neg word, if_neg (by omega)]

/-- Nothing is left to settle of a core that is settled, whatever byte of it is replaced. -/
theorem settleAll_corePut (m : VecCore) (c : Nat) (b : Byte) : settleAll (corePut (settleAll m) c b) = corePut (settleAll m) c b := by
  unfold corePut
  dsimp only
  split
  · rfl
  · split <;> rfl

/-- The core that an offset of the clusters' window belongs to, under its shared memory. -/
def clusterCore (o : Nat) : Nat := 4 * (o / 0x1000000) + o % 0x1000000 / 0x200000

theorem clusterByte_core {o : Nat} (h : ¬0x800000 ≤ o % 0x1000000) (d : Dev) :
    clusterByte d o = coreByte (settleAll (coreOf d (clusterCore o))) (o % 0x1000000 % 0x200000) := if_neg h

theorem clusterByte_shared {o : Nat} (h : 0x800000 ≤ o % 0x1000000) (d : Dev) : clusterByte d o = byteOf
    (mapGet word0 (mapGet (fun _ => []) d.vec.shared (o / 0x1000000)) ((o % 0x1000000 - 0x800000) / 4)).toNat (o % 0x1000000 % 4) :=
  if_pos h

theorem clusterPut_core {o : Nat} (h : ¬0x800000 ≤ o % 0x1000000) (d : Dev) (b : Byte) : clusterPut d o b =
    setCore d (clusterCore o) (corePut (settleAll (coreOf d (clusterCore o))) (o % 0x1000000 % 0x200000) b) := by
  have word : o % 0x1000000 % 0x200000 % 4 = o % 0x1000000 % 4 := by omega
  unfold clusterPut corePut
  dsimp only
  rw [if_neg h, word]
  split
  · rfl
  · split <;> rfl

/-- The clusters' shared memories with a byte replaced. -/
def sharedPut (l : List (Nat × List (Nat × Word))) (o : Nat) (b : Byte) : List (Nat × List (Nat × Word)) :=
  mapSet (fun _ => []) l (o / 0x1000000) <|
    mapUpd word0 (mapGet (fun _ => []) l (o / 0x1000000)) ((o % 0x1000000 - 0x800000) / 4) fun w =>
      BitVec.ofNat 32 (setByteOf w.toNat (o % 0x1000000 % 4) b)

theorem clusterPut_shared {o : Nat} (h : 0x800000 ≤ o % 0x1000000) (d : Dev) (b : Byte) : clusterPut d o b =
    { d with vec := { d.vec with shared := sharedPut d.vec.shared o b } } := if_pos h

theorem clusterPut_get : PutGet clusterPut clusterByte (fun _ => True) (fun _ => True) (fun _ => true) (fun _ b => b) := by
  refine ⟨fun d o b a _ _ => ?_⟩
  simp only [and_true]
  by_cases own : 0x800000 ≤ o % 0x1000000
  · rw [clusterPut_shared own]
    by_cases read : 0x800000 ≤ a % 0x1000000
    · rw [clusterByte_shared read, clusterByte_shared read]
      dsimp only
      rw [sharedPut, mapGet_mapSet]
      by_cases cluster : a / 0x1000000 = o / 0x1000000
      · rw [if_pos cluster, cluster]
        refine (byteOf_mapUpd _ b (Nat.mod_lt _ (by decide))).trans ?_
        exact if_congr (by omega) rfl rfl
      · rw [if_neg cluster, if_neg (by omega)]
    · rw [clusterByte_core read, clusterByte_core read, if_neg (c := a = o) fun e => read (e ▸ own)]
      rfl
  · rw [clusterPut_core own]
    by_cases read : 0x800000 ≤ a % 0x1000000
    · rw [clusterByte_shared read, clusterByte_shared read, if_neg (c := a = o) fun e => own (e ▸ read)]
      rfl
    · rw [clusterByte_core read, clusterByte_core read]
      by_cases core : clusterCore a = clusterCore o
      · rw [core, coreOf_setCore, settleAll_corePut, coreByte_corePut]
        unfold clusterCore at core
        exact if_congr (by omega) rfl rfl
      · rw [coreOf_setCore_other _ _ core, if_neg (c := a = o) fun e => core (congrArg clusterCore e)]

/-- A run of bytes changes memories of the cores and the clusters alone. -/
theorem clusterRun_rest (bs : List Byte) (o : Nat) (d : Dev) :
    putRun clusterPut o bs d = { d with vec := (putRun clusterPut o bs d).vec } ∧ (putRun clusterPut o bs d).vec =
      { d.vec with cores := (putRun clusterPut o bs d).vec.cores, shared := (putRun clusterPut o bs d).vec.shared } := by
  refine putRun_rel (r := fun a b => b = { a with vec := b.vec } ∧ b.vec = { a.vec with cores := b.vec.cores, shared := b.vec.shared })
    (fun _ => ⟨rfl, rfl⟩) (fun a b c h k => ?_) (fun d o b => ?_) bs o d
  · obtain ⟨h1, h2⟩ := h
    obtain ⟨k1, k2⟩ := k
    rw [h1] at k1
    rw [h2] at k2
    exact ⟨k1, k2⟩
  · by_cases own : 0x800000 ≤ o % 0x1000000
    · rw [clusterPut_shared own]
      exact ⟨rfl, rfl⟩
    · rw [clusterPut_core own]
      exact ⟨rfl, rfl⟩

/-! ### The render configuration window -/

theorem tableAt_inj {a o : Nat} (h : tableAt a = tableAt o) : a = o := by
  unfold tableAt at h
  split at h
  · split at h
    · simpa using h
    · split at h <;> simp at h
  · split at h
    · split at h
      · simp at h
      · split at h
        · simp at h; omega
        · simp at h
    · split at h
      · simp at h
      · split at h
        · simp at h
        · simp at h; omega

/-- A place of the standby half. -/
def InStandby (o : Nat) : Prop := 0x80000 ≤ o ∧ o < 0x100000

/-- A byte goes by its table, or by the rest of its half. -/
theorem renderByte_eq (d : Dev) (o : Nat) : renderByte d o =
    (tableOf (if o < 0x80000 then d.mem.active else d.mem.standby) (tableAt (o % 0x80000)).1).getD (tableAt (o % 0x80000)).2
      (byteGet d.mem.render o) := rfl

/-- The tables of a half with a byte of one replaced. -/
def tablePut (l : List (Nat × List Byte)) (t : Nat × Nat) (b : Byte) : List (Nat × List Byte) :=
  setTable l t.1 ((tableOf l t.1).set t.2 b)

theorem tableOf_tablePut (l : List (Nat × List Byte)) (t : Nat × Nat) (b : Byte) (type : Nat) :
    tableOf (tablePut l t b) type = if type = t.1 then (tableOf l t.1).set t.2 b else tableOf l type := mapGet_mapSet _ _ _ _ _

theorem renderPut_table {d : Dev} {o : Nat} (h : (tableAt (o % 0x80000)).2 < (tableOf d.mem.standby (tableAt (o % 0x80000)).1).length)
    (b : Byte) : renderPut d o b = { d with mem := { d.mem with standby := tablePut d.mem.standby (tableAt (o % 0x80000)) b } } := if_pos h

theorem renderPut_rest {d : Dev} {o : Nat} (h : ¬(tableAt (o % 0x80000)).2 < (tableOf d.mem.standby (tableAt (o % 0x80000)).1).length)
    (b : Byte) : renderPut d o b = { d with mem := { d.mem with render := bytesSet d.mem.render o [b] } } := if_neg h

theorem renderPut_get : PutGet renderPut renderByte InStandby (· < 0x100000) (fun _ => true) (fun _ b => b) := by
  refine ⟨fun d o b a ⟨low, high⟩ ha => ?_⟩
  simp only [and_true]
  have half : ¬o < 0x80000 := by omega
  by_cases table : (tableAt (o % 0x80000)).2 < (tableOf d.mem.standby (tableAt (o % 0x80000)).1).length
  · rw [renderPut_table table, renderByte_eq, renderByte_eq]
    dsimp only
    by_cases first : a < 0x80000
    · rw [if_pos first, if_pos first, if_neg (c := a = o) (by omega)]
    · rw [if_neg first, if_neg first]
      rw [tableOf_tablePut]
      by_cases same : a = o
      · subst same
        rw [if_pos rfl, if_pos rfl, List.getD_eq_getElem?_getD, List.getElem?_set_self table]
        rfl
      · rw [if_neg same]
        by_cases type : (tableAt (a % 0x80000)).1 = (tableAt (o % 0x80000)).1
        · have place : (tableAt (o % 0x80000)).2 ≠ (tableAt (a % 0x80000)).2 := by
            intro e
            have := tableAt_inj (Prod.ext type e.symm)
            omega
          rw [if_pos type, type, List.getD_eq_getElem?_getD, List.getD_eq_getElem?_getD, List.getElem?_set_ne place]
        · rw [if_neg type]
  · rw [renderPut_rest table, renderByte_eq, renderByte_eq]
    dsimp only
    rw [byteGet_bytesSet]
    by_cases same : a = o
    · subst same
      rw [if_pos rfl, if_pos rfl, if_neg half, List.getD_eq_default _ _ (by omega)]
    · rw [if_neg same, if_neg same]

theorem renderRun_rest (bs : List Byte) (o : Nat) (d : Dev) : putRun renderPut o bs d = { d with mem := { d.mem with
    standby := (putRun renderPut o bs d).mem.standby, render := (putRun renderPut o bs d).mem.render } } := by
  refine putRun_rel (r := fun a b => b = { a with mem := { a.mem with standby := b.mem.standby, render := b.mem.render } }) (fun _ => rfl)
    (fun a b c h k => ?_) (fun d o b => ?_) bs o d
  · rw [h] at k
    exact k
  · by_cases table : (tableAt (o % 0x80000)).2 < (tableOf d.mem.standby (tableAt (o % 0x80000)).1).length
    · rw [renderPut_table table]
    · rw [renderPut_rest table]

/-! ### MEM0 -/

/-- The block of a bulk line that an offset of MEM0 lies in. -/
def lineBlock (d : Dev) (o : Nat) : List Int :=
  mapGet (fun _ => []) (mapGet (fun _ => []) d.xp.lines (o / 131072)) (o % 131072 / 4 / blockN d)

/-- The place of its sample in the block. -/
def linePlace (d : Dev) (o : Nat) : Nat := o % 131072 / 4 % blockN d

/-- A block with a byte of one of its samples replaced. -/
def samplePut (n : Nat) (blk : List Int) (p k : Nat) (b : Byte) : List Int :=
  trimZeros (((List.range n).map (sampleAt blk)).set p (sext 24 (setByteOf (BitVec.ofInt 24 (sampleAt blk p)).toNat k b % 2 ^ 24)))

/-- The bulk lines with a byte replaced. -/
def linesPut (d : Dev) (o : Nat) (b : Byte) : List (Nat × List (Nat × List Int)) :=
  mapSet (fun _ => []) d.xp.lines (o / 131072) <|
    mapSet (fun _ => []) (mapGet (fun _ => []) d.xp.lines (o / 131072)) (o % 131072 / 4 / blockN d) <|
      samplePut (blockN d) (lineBlock d o) (linePlace d o) (o % 4) b

theorem mem0Byte_line {o : Nat} (h : o < 0x08000000) (d : Dev) :
    mem0Byte d o = byteOf (BitVec.ofInt 24 (sampleAt (lineBlock d o) (linePlace d o))).toNat (o % 4) := if_pos h

theorem mem0Byte_region {o : Nat} (h : ¬o < 0x08000000) (k : 0x10000000 ≤ o ∧ o < 0x18000000) (d : Dev) : mem0Byte d o =
    match d.mem.rcRegion.find? fun e => decide (e.1 = o) with
    | some e => e.2
    | none => Config.rcRegionByte d.epc.epoch o := (if_neg h).trans (if_pos k)

theorem mem0Byte_rest {o : Nat} (h : ¬o < 0x08000000) (k : ¬(0x10000000 ≤ o ∧ o < 0x18000000)) (d : Dev) :
    mem0Byte d o = byteGet d.mem.mem0 o := (if_neg h).trans (if_neg k)

theorem mem0Put_line {o : Nat} (h : o < 0x08000000) (d : Dev) (b : Byte) :
    mem0Put d o b = { d with xp := { d.xp with lines := linesPut d o b } } := if_pos h

theorem mem0Put_region {o : Nat} (h : ¬o < 0x08000000) (k : 0x10000000 ≤ o ∧ o < 0x18000000) (d : Dev) (b : Byte) : mem0Put d o b =
    { d with mem := { d.mem with rcRegion := mapIns (mapDel d.mem.rcRegion o) o b } } := (if_neg h).trans (if_pos k)

theorem mem0Put_rest {o : Nat} (h : ¬o < 0x08000000) (k : ¬(0x10000000 ≤ o ∧ o < 0x18000000)) (d : Dev) (b : Byte) :
    mem0Put d o b = { d with mem := { d.mem with mem0 := bytesSet d.mem.mem0 o [b] } } := (if_neg h).trans (if_neg k)

theorem sampleAt_trimZeros (l : List Int) (i : Nat) : sampleAt (trimZeros l) i = sampleAt l i := by
  unfold trimZeros sampleAt
  split
  · next zero =>
    rw [List.all_eq_true] at zero
    by_cases lt : i < l.length
    · rw [List.getD_eq_getElem _ _ lt, List.getD_nil]
      exact (of_decide_eq_true (zero _ (List.getElem_mem lt))).symm
    · rw [List.getD_nil, List.getD_eq_default _ _ (by omega)]
  · rfl

theorem sampleAt_samplePut {n : Nat} (p : Nat) {i : Nat} (hi : i < n) (blk : List Int) (k : Nat) (b : Byte) :
    sampleAt (samplePut n blk p k b) i =
      if i = p then sext 24 (setByteOf (BitVec.ofInt 24 (sampleAt blk p)).toNat k b % 2 ^ 24) else sampleAt blk i := by
  unfold samplePut
  rw [sampleAt_trimZeros]
  generalize sext 24 _ = x
  unfold sampleAt
  rw [List.getD_eq_getElem _ _ (by simpa using hi), List.getElem_set]
  by_cases same : p = i
  · rw [if_pos same, if_pos same.symm]
  · rw [if_neg same, if_neg (Ne.symm same), List.getElem_map, List.getElem_range]

/-- The bytes of a sample of 24 bits that was read from a number. -/
theorem byteOf_sample (w j : Nat) : byteOf (BitVec.ofInt 24 (sext 24 (w % 2 ^ 24))).toNat j = if j < 3 then byteOf w j else 0 := by
  have bits : (BitVec.ofInt 24 (sext 24 (w % 2 ^ 24))).toNat = w % 2 ^ 24 := by
    rw [BitVec.toNat_ofInt]
    exact (code_sext 24 (w % 2 ^ 24)).trans (Nat.mod_mod _ _)
  rw [bits]
  split
  · next low => exact byteOf_of_mod low (Nat.mod_mod _ _)
  · next high =>
    unfold byteOf
    rw [Nat.div_eq_of_lt]
    · rfl
    · calc w % 2 ^ 24 < 2 ^ 24 := Nat.mod_lt _ (by decide)
        _ = 256 ^ 3 := by decide
        _ ≤ 256 ^ j := Nat.pow_le_pow_right (by decide) (by omega)

theorem byteOf_sample_high (x : BitVec 24) {j : Nat} (hj : ¬j < 3) : byteOf x.toNat j = 0 := by
  unfold byteOf
  rw [Nat.div_eq_of_lt]
  · rfl
  · calc x.toNat < 2 ^ 24 := x.isLt
      _ = 256 ^ 3 := by decide
      _ ≤ 256 ^ j := Nat.pow_le_pow_right (by decide) (by omega)

theorem blockN_pos (d : Dev) : 0 < blockN d := by
  unfold blockN
  split <;> decide

/-- Places of one slot, block place and sample are those of one word. -/
theorem sameWord_iff (n a o : Nat) :
    (a / 131072 = o / 131072 ∧ a % 131072 / 4 / n = o % 131072 / 4 / n ∧ a % 131072 / 4 % n = o % 131072 / 4 % n) ↔ a / 4 = o / 4 := by
  constructor
  · rintro ⟨slot, block, sample⟩
    have same : a % 131072 / 4 = o % 131072 / 4 := by
      rw [← Nat.div_add_mod (a % 131072 / 4) n, block, sample, Nat.div_add_mod]
    omega
  · intro word
    have same : a % 131072 / 4 = o % 131072 / 4 := by omega
    exact ⟨by omega, by rw [same], by rw [same]⟩

/-- What of a byte a place of MEM0 keeps: a sample has 24 bits. -/
def mem0Kept (o : Nat) (b : Byte) : Byte := if o < 0x08000000 ∧ o % 4 = 3 then 0 else b

/-- A sample of a bulk line after a byte of one was replaced. -/
theorem mem0Put_sample {d : Dev} {o : Nat} (ho : o < 0x08000000) (b : Byte) (a : Nat) :
    sampleAt (lineBlock (mem0Put d o b) a) (linePlace (mem0Put d o b) a) =
      if a / 4 = o / 4 then
        sext 24 (setByteOf (BitVec.ofInt 24 (sampleAt (lineBlock d o) (linePlace d o))).toNat (o % 4) b % 2 ^ 24)
      else sampleAt (lineBlock d a) (linePlace d a) := by
  have pos := blockN_pos d
  have place := sameWord_iff (blockN d) a o
  have length : blockN (mem0Put d o b) = blockN d := by
    rw [mem0Put_line ho]
    rfl
  have ha : linePlace d a < blockN d := Nat.mod_lt _ pos
  have sample : linePlace (mem0Put d o b) a = linePlace d a := by
    unfold linePlace
    rw [length]
  have block : lineBlock (mem0Put d o b) a =
      if a / 131072 = o / 131072 ∧ a % 131072 / 4 / blockN d = o % 131072 / 4 / blockN d then
        samplePut (blockN d) (lineBlock d o) (linePlace d o) (o % 4) b
      else lineBlock d a := by
    have get : mapGet (fun _ => []) (linesPut d o b) (a / 131072) = if a / 131072 = o / 131072 then
        mapSet (fun _ => []) (mapGet (fun _ => []) d.xp.lines (o / 131072)) (o % 131072 / 4 / blockN d)
          (samplePut (blockN d) (lineBlock d o) (linePlace d o) (o % 4) b)
        else mapGet (fun _ => []) d.xp.lines (a / 131072) := mapGet_mapSet _ _ _ _ _
    have lines : (mem0Put d o b).xp.lines = linesPut d o b := by rw [mem0Put_line ho]
    rw [lineBlock, length, lines, get]
    by_cases slot : a / 131072 = o / 131072
    · rw [if_pos slot, mapGet_mapSet]
      by_cases line : a % 131072 / 4 / blockN d = o % 131072 / 4 / blockN d
      · rw [if_pos line, if_pos ⟨slot, line⟩]
      · rw [if_neg line, if_neg fun e => line e.2, lineBlock, slot]
    · rw [if_neg slot, if_neg fun e => slot e.1, lineBlock]
  rw [sample, block]
  by_cases inside : a / 131072 = o / 131072 ∧ a % 131072 / 4 / blockN d = o % 131072 / 4 / blockN d
  · rw [if_pos inside, sampleAt_samplePut _ ha]
    by_cases same : linePlace d a = linePlace d o
    · rw [if_pos same, if_pos (place.mp ⟨inside.1, inside.2, same⟩)]
    · rw [if_neg same, if_neg fun word => same (place.mpr word).2.2]
      unfold lineBlock
      rw [inside.1, inside.2]
  · rw [if_neg inside, if_neg]
    intro word
    obtain ⟨slot, line, -⟩ := place.mpr word
    exact inside ⟨slot, line⟩

theorem mem0Put_get : PutGet mem0Put mem0Byte (fun _ => True) (fun _ => True) (fun _ => true) mem0Kept := by
  refine ⟨fun d o b a _ _ => ?_⟩
  simp only [and_true]
  by_cases own : o < 0x08000000
  · by_cases read : a < 0x08000000
    · rw [mem0Byte_line read, mem0Byte_line read, mem0Put_sample own]
      by_cases word : a / 4 = o / 4
      · have sample : sampleAt (lineBlock d a) (linePlace d a) = sampleAt (lineBlock d o) (linePlace d o) := by
          obtain ⟨slot, line, place⟩ := (sameWord_iff (blockN d) a o).mpr word
          unfold lineBlock
          rw [slot, line]
          exact congrArg _ place
        rw [if_pos word, byteOf_sample, byteOf_setByteOf, sample]
        by_cases same : a = o
        · subst same
          rw [if_pos rfl, if_pos rfl, mem0Kept]
          by_cases low : a % 4 < 3
          · rw [if_pos low, if_neg (by omega)]
          · rw [if_neg low, if_pos ⟨own, by omega⟩]
        · rw [if_neg same, if_neg (c := a % 4 = o % 4) (by omega)]
          by_cases low : a % 4 < 3
          · rw [if_pos low]
          · rw [if_neg low, byteOf_sample_high _ low]
      · rw [if_neg word, if_neg (by rintro rfl; exact word rfl)]
    · rw [mem0Put_line own, if_neg (c := a = o) fun e => read (e ▸ own)]
      by_cases region : 0x10000000 ≤ a ∧ a < 0x18000000
      · rw [mem0Byte_region read region, mem0Byte_region read region]
      · rw [mem0Byte_rest read region, mem0Byte_rest read region]
  · have kept : mem0Kept o b = b := if_neg fun x => own x.1
    rw [kept]
    by_cases region : 0x10000000 ≤ o ∧ o < 0x18000000
    · rw [mem0Put_region own region]
      by_cases read : a < 0x08000000
      · rw [mem0Byte_line read, mem0Byte_line read, if_neg (c := a = o) fun e => own (e ▸ read)]
        rfl
      · by_cases there : 0x10000000 ≤ a ∧ a < 0x18000000
        · rw [mem0Byte_region read there, mem0Byte_region read there]
          have find := find?_mapIns_mapDel d.mem.rcRegion o b a
          dsimp only
          rw [find]
          by_cases same : a = o
          · rw [if_pos same, if_pos same]
          · rw [if_neg same, if_neg same]
        · rw [mem0Byte_rest read there, mem0Byte_rest read there, if_neg (c := a = o) fun e => there (e ▸ region)]
    · rw [mem0Put_rest own region]
      by_cases read : a < 0x08000000
      · rw [mem0Byte_line read, mem0Byte_line read, if_neg (c := a = o) fun e => own (e ▸ read)]
        rfl
      · by_cases there : 0x10000000 ≤ a ∧ a < 0x18000000
        · rw [mem0Byte_region read there, mem0Byte_region read there, if_neg (c := a = o) fun e => region (e ▸ there)]
        · rw [mem0Byte_rest read there, mem0Byte_rest read there]
          exact byteGet_bytesSet d.mem.mem0 o b a

/-- b is a but for the bulk lines and the other bytes of MEM0. -/
def Mem0Only (a b : Dev) : Prop :=
  b = { a with xp := { a.xp with lines := b.xp.lines }, mem := { a.mem with mem0 := b.mem.mem0, rcRegion := b.mem.rcRegion } }

theorem mem0Run_rest (bs : List Byte) (o : Nat) (d : Dev) : Mem0Only d (putRun mem0Put o bs d) := by
  refine putRun_rel (r := Mem0Only) (fun _ => rfl) (fun a b c h k => ?_) (fun d o b => ?_) bs o d
  · unfold Mem0Only at h k
    rw [h] at k
    exact k
  · by_cases own : o < 0x08000000
    · rw [mem0Put_line own]
      rfl
    · by_cases region : 0x10000000 ≤ o ∧ o < 0x18000000
      · rw [mem0Put_region own region]
        rfl
      · rw [mem0Put_rest own region]
        rfl

end Sys2Proof.Machine
end

section
/-!
Successful responses, what a transaction may get, and MASTER_RESET (R16, R332, R333, R343).
-/
namespace Sys2Proof.Machine

/-! ### What a transaction may get -/

theorem respFits_reset {d : Dev} {tx : XbarTx} (h : regionReset d tx = true) (r : XResp) : respFits d tx r = decide (r = .target) :=
  if_pos h

theorem respFits_ready {d : Dev} {tx : XbarTx} (h : regionReset d tx = false) : (tx.answer ≠ .ok → ∀ r, respFits d tx r =
    decide (r = tx.answer)) ∧ (tx.answer = .ok → respFits d tx .ok = tx.left.isEmpty ∧ respFits d tx .target = true ∧
      respFits d tx .data = decide (tx.target = some 6 ∨ tx.target = some 7) ∧ respFits d tx .decode = false) := by
  unfold respFits
  rw [h]
  refine ⟨fun other r => (if_neg Bool.false_ne_true).trans (if_neg other), fun ok => ?_⟩
  simp only [Bool.false_eq_true, if_false, ok, if_true, and_self]

/-- The DRAM channel behind a target (Table 15-2). -/
theorem regionReset_dram {d : Dev} {tx : XbarTx} {ch : Nat} (hc : ch < 2) (ht : tx.target = some (6 + ch)) :
    regionReset d tx = !(memReady d ch) := by
  unfold regionReset
  rw [ht]
  obtain rfl | rfl : ch = 0 ∨ ch = 1 := by omega
  · rfl
  · rfl

/-- R16, R332 and R333: what a response may be. -/
theorem respFits_cases (d : Dev) (tx : XbarTx) :
    (tx.target = some 5 → fatal d = true → ∀ r, respFits d tx r = decide (r = .target)) ∧
    (tx.target = some 4 → (fatal d = true ∨ txOffset tx / 0x1000000 ∈ d.vec.retired) → ∀ r, respFits d tx r = decide (r = .target)) ∧
    (∀ ch, ch < 2 → tx.target = some (6 + ch) → memReady d ch = false → ∀ r, respFits d tx r = decide (r = .target)) ∧
    (∀ ch, ch < 2 → tx.target = some (6 + ch) → memReady d ch = true → tx.answer = .ok →
      (respFits d tx .ok = true ↔ tx.left = []) ∧ respFits d tx .target = true ∧ respFits d tx .data = true ∧ respFits d tx .decode = false) ∧
    (tx.target = none → tx.answer ≠ .ok → ∀ r, respFits d tx r = decide (r = tx.answer)) := by
  refine ⟨fun ht bad => respFits_reset ?_, fun ht bad => respFits_reset ?_, fun ch hc ht wait => respFits_reset ?_,
    fun ch hc ht ready ok => ?_, fun ht other => (respFits_ready ?_).1 other⟩
  · unfold regionReset
    rw [ht]
    exact bad
  · unfold regionReset
    rw [ht]
    simpa [clusterHeld] using bad
  · rw [regionReset_dram hc ht, wait]
    rfl
  · obtain ⟨success, target, data, decode⟩ := (respFits_ready (d := d) (by rw [regionReset_dram hc ht, ready]; rfl)).2 ok
    refine ⟨by rw [success, List.isEmpty_iff], target, ?_, decode⟩
    rw [data, decide_eq_true_iff, ht]
    obtain rfl | rfl : ch = 0 ∨ ch = 1 := by omega
    · exact .inl rfl
    · exact .inr rfl
  · unfold regionReset
    rw [ht]

/-! ### MASTER_RESET -/

/-- R333: what a master reset voids, drops and leaves. -/
theorem masterReset_effect (m : Nat) (s : Dev) :
    let d := masterReset m s
    d = { s with xbar := d.xbar } ∧ d.xbar.out.length = s.xbar.out.length ∧
    (∀ t ∈ d.xbar.out, t.req.master = m → t.void = true) ∧ (∀ t ∈ s.xbar.out, t.req.master ≠ m → t ∈ d.xbar.out) ∧
    (∀ w, w ∈ d.xbar.waiting ↔ w ∈ s.xbar.waiting ∧ w.1.master ≠ m) ∧
    (∀ a, a ∈ d.xbar.answers ↔ a ∈ s.xbar.answers ∧ a.1 ≠ m) := by
  refine ⟨rfl, by simp [masterReset], fun t ht own => ?_, fun t ht other => ?_, fun w => by simp [masterReset],
    fun a => by simp [masterReset]⟩
  · obtain ⟨q, _, rfl⟩ := List.mem_map.mp ht
    by_cases hit : q.req.master = m
    · rw [if_pos hit]
    · rw [if_neg hit] at own
      exact absurd own hit
  · exact List.mem_map.mpr ⟨t, ht, if_neg other⟩

/-! ### Reads -/

theorem OnlyWords.withXbar {ws : List Nat} {a b : Dev} (h : OnlyWords ws a b) (x : Xbar) :
    OnlyWords ws { a with xbar := x } { b with xbar := x } :=
  ⟨⟨h.regs.live, h.regs.shadow, h.regs.act, h.regs.snap⟩, congrArg (fun e : Dev => { e with xbar := x }) h.rest⟩

section
variable {m id : Nat} {traffic : XTraffic} {d : Dev} {tx : XbarTx} (hm : m < 19)
  (found : d.xbar.out.find? (isTx m id) = some tx) (due : RespDue m .ok traffic d tx) (still : d.xbar.waiting = [])
  (live : tx.void = false)
include hm found due still live

theorem xbarResponse_read {t : Nat} (read : tx.req.write = false) (ht : tx.target = some t) : xbarResponse m id .ok traffic d =
    { placeFreed m id d with
      xbar := answersTo m id (placeFreed m id d).xbar .ok (targetRead (placeFreed m id d) t (txOffset tx) tx.req.len) } := by
  have outcome : ∀ e, okOutcome tx e = (e, targetRead e t (txOffset tx) tx.req.len) := by
    intro e
    unfold okOutcome
    rw [ht, read]
    rfl
  rw [xbarResponse_ok found due live rfl, outcome]
  dsimp only
  rw [xbarGrants_answered hm still rfl]

/-- A read changes nothing but the crossbar's own counts. -/
theorem xbarResponse_read_frame {t : Nat} (read : tx.req.write = false) (ht : tx.target = some t) (plain : t ≠ 3) :
    let e := xbarResponse m id .ok traffic d
    e.xbar = answersTo m id (placeFreed m id d).xbar .ok (targetRead d t (txOffset tx) tx.req.len) ∧
    OnlyWords (countWords m) { d with xbar := e.xbar } e := by
  dsimp only
  rw [xbarResponse_read hm found due still live read ht, (placeFreed_freed hm id d).targetRead plain]
  refine ⟨rfl, ?_⟩
  exact (xbarCounts_only m { d with xbar := { d.xbar with out := d.xbar.out.eraseP (isTx m id) } }).withXbar _

/-! ### Writes -/

theorem xbarResponse_write {t : Nat} {put : Dev → Nat → Byte → Dev} (write : tx.req.write = true) (ht : tx.target = some t)
    (run : ∀ o bs e, targetWrite t o bs e = putRun put o bs e) (kept : ∀ o bs e, (putRun put o bs e).xbar = e.xbar) :
    xbarResponse m id .ok traffic d =
      { putRun put (txOffset tx) (tx.req.data.take tx.req.len) (placeFreed m id d) with
        xbar := answersTo m id (placeFreed m id d).xbar .ok [] } := by
  have outcome : ∀ e, okOutcome tx e = (putRun put (txOffset tx) (tx.req.data.take tx.req.len) e, []) := by
    intro e
    unfold okOutcome
    rw [ht, write]
    exact congrArg (·, []) (run _ _ _)
  rw [xbarResponse_ok found due live rfl, outcome]
  dsimp only
  rw [xbarGrants_answered hm still (kept _ _ _)]

omit hm still in
/-- A write of the register bridge hands its words on. -/
theorem xbarResponse_bridge (write : tx.req.write = true) (ht : tx.target = some 3) : xbarResponse m id .ok traffic d =
    xbarGrants (answered m id .ok [] (targetWrite 3 (txOffset tx) (tx.req.data.take tx.req.len) (placeFreed m id d))) := by
  have outcome : ∀ e, okOutcome tx e = (targetWrite 3 (txOffset tx) (tx.req.data.take tx.req.len) e, []) := by
    intro e
    unfold okOutcome
    rw [ht, write]
    rfl
  rw [xbarResponse_ok found due live rfl, outcome]

end

/-- One word through the bridge, and two. -/
theorem bridgeWrite_word {bs : List Byte} (len : bs.length = 4) (o : Nat) (d : Dev) :
    targetWrite 3 o bs d = (superWrite .other o (BitVec.ofNat 32 (leNat bs)) d).1 := by
  have run : targetWrite 3 o bs d = (List.range (bs.length / 4)).foldl (fun d i =>
      (superWrite .other (o + 4 * i) (BitVec.ofNat 32 (leNat ((bs.drop (4 * i)).take 4))) d).1) d := rfl
  have all : (bs.drop (4 * 0)).take 4 = bs := List.take_of_length_le (by simp [len])
  rw [run, len, show List.range (4 / 4) = [0] from rfl, List.foldl_cons, List.foldl_nil, all]
  rfl

theorem bridgeWrite_pair {bs : List Byte} (len : bs.length = 8) (o : Nat) (d : Dev) : targetWrite 3 o bs d =
    (superWrite .other (o + 4) (BitVec.ofNat 32 (leNat (bs.drop 4)))
      (superWrite .other o (BitVec.ofNat 32 (leNat (bs.take 4))) d).1).1 := by
  have run : targetWrite 3 o bs d = (List.range (bs.length / 4)).foldl (fun d i =>
      (superWrite .other (o + 4 * i) (BitVec.ofNat 32 (leNat ((bs.drop (4 * i)).take 4))) d).1) d := rfl
  have high : (bs.drop (4 * 1)).take 4 = bs.drop 4 := List.take_of_length_le (by simp [len])
  rw [run, len, show List.range (8 / 4) = [0, 1] from rfl, List.foldl_cons, List.foldl_cons, List.foldl_nil, high]
  rfl

/-- Another part changes beside the crossbar. -/
theorem withXbar_mem {a b : Dev} {m : Mem} (h : b = { a with mem := m }) (x : Xbar) :
    { b with xbar := x } = { a with xbar := x, mem := m } := by rw [h]

theorem withXbar_vec {a b : Dev} {v : Vec} (h : b = { a with vec := v }) (x : Xbar) :
    { b with xbar := x } = { a with xbar := x, vec := v } := by rw [h]

theorem withXbar_mem0 {a b : Dev} {p : Xp} {m : Mem} (h : b = { a with xp := p, mem := m }) (x : Xbar) :
    { b with xbar := x } = { a with xbar := x, xp := p, mem := m } := by rw [h]

section
variable (d : Dev) (x : Xbar) (a : Nat)

theorem sramByte_xbar : sramByte { d with xbar := x } a = sramByte d a := rfl

theorem clusterByte_xbar : clusterByte { d with xbar := x } a = clusterByte d a := rfl

theorem renderByte_xbar : renderByte { d with xbar := x } a = renderByte d a := rfl

theorem mem0Byte_xbar : mem0Byte { d with xbar := x } a = mem0Byte d a := rfl

theorem mem1Byte_xbar : mem1Byte { d with xbar := x } a = mem1Byte d a := by
  have bound : mem1Reserved { d with xbar := x } = mem1Reserved d := mem1Reserved_congr rfl
  unfold mem1Byte
  rw [bound]

end

section
variable {m id : Nat} {traffic : XTraffic} {d : Dev} {tx : XbarTx} (hm : m < 19)
  (found : d.xbar.out.find? (isTx m id) = some tx) (due : RespDue m .ok traffic d tx) (still : d.xbar.waiting = [])
  (live : tx.void = false) (write : tx.req.write = true) {bs : List Byte} (data : tx.req.data.take tx.req.len = bs)
  {o : Nat} (off : txOffset tx = o)
include hm found due still live write data off

theorem xbarResponse_sram (ht : tx.target = some 2) :
    let e := xbarResponse m id .ok traffic d
    let base := placeFreed m id d
    e = { base with xbar := answersTo m id base.xbar .ok [], mem := { base.mem with sram := e.mem.sram } } ∧
    ∀ a, sramByte e a = if (o ≤ a ∧ a < o + bs.length) ∧ inLogRing a = false then bs.getD (a - o) 0 else sramByte d a := by
  dsimp only
  rw [xbarResponse_write hm found due still live write ht (fun _ _ _ => rfl) (fun o bs e => by rw [sramRun_rest]), data, off]
  refine ⟨?_, fun a => ?_⟩
  · have rest := sramRun_rest bs o (placeFreed m id d)
    exact withXbar_mem rest _
  · rw [sramByte_xbar, sramPut_get.run bs o _ a (fun _ _ => trivial) trivial, (placeFreed_freed hm id d).sramByte]
    simp only [Bool.not_eq_true']

theorem xbarResponse_cluster (ht : tx.target = some 4) :
    let e := xbarResponse m id .ok traffic d
    let base := placeFreed m id d
    e = { base with xbar := answersTo m id base.xbar .ok [], vec := e.vec } ∧
    e.vec = { base.vec with cores := e.vec.cores, shared := e.vec.shared } ∧
    ∀ a, clusterByte e a = if o ≤ a ∧ a < o + bs.length then bs.getD (a - o) 0 else clusterByte d a := by
  dsimp only
  rw [xbarResponse_write hm found due still live write ht (fun _ _ _ => rfl) (fun o bs e => by rw [(clusterRun_rest bs o e).1]), data, off]
  obtain ⟨rest, vec⟩ := clusterRun_rest bs o (placeFreed m id d)
  refine ⟨?_, vec, fun a => ?_⟩
  · exact withXbar_vec rest _
  · rw [clusterByte_xbar, clusterPut_get.run bs o _ a (fun _ _ => trivial) trivial, (placeFreed_freed hm id d).clusterByte]
    simp only [and_true]

theorem xbarResponse_render (ht : tx.target = some 5) (low : 0x80000 ≤ o) (high : o + bs.length ≤ 0x100000) :
    let e := xbarResponse m id .ok traffic d
    let base := placeFreed m id d
    e = { base with xbar := answersTo m id base.xbar .ok [],
                    mem := { base.mem with standby := e.mem.standby, render := e.mem.render } } ∧
    ∀ a, a < 0x100000 → renderByte e a = if o ≤ a ∧ a < o + bs.length then bs.getD (a - o) 0 else renderByte d a := by
  dsimp only
  rw [xbarResponse_write hm found due still live write ht (fun _ _ _ => rfl) (fun o bs e => by rw [renderRun_rest]), data, off]
  refine ⟨?_, fun a ha => ?_⟩
  · have rest := renderRun_rest bs o (placeFreed m id d)
    exact withXbar_mem rest _
  · rw [renderByte_xbar, renderPut_get.run bs o _ a (fun i hi => ⟨by omega, by omega⟩) ha, (placeFreed_freed hm id d).renderByte]
    simp only [and_true]

theorem xbarResponse_mem0 (ht : tx.target = some 6) :
    let e := xbarResponse m id .ok traffic d
    let base := placeFreed m id d
    e = { base with xbar := answersTo m id base.xbar .ok [], xp := { base.xp with lines := e.xp.lines },
                    mem := { base.mem with mem0 := e.mem.mem0, rcRegion := e.mem.rcRegion } } ∧
    ∀ a, mem0Byte e a = if o ≤ a ∧ a < o + bs.length then (if a < 0x08000000 ∧ a % 4 = 3 then 0 else bs.getD (a - o) 0)
      else mem0Byte d a := by
  dsimp only
  rw [xbarResponse_write hm found due still live write ht (fun _ _ _ => rfl) (fun o bs e => by rw [mem0Run_rest bs o e]), data, off]
  refine ⟨?_, fun a => ?_⟩
  · have rest := mem0Run_rest bs o (placeFreed m id d)
    unfold Mem0Only at rest
    exact withXbar_mem0 rest _
  · rw [mem0Byte_xbar, mem0Put_get.run bs o _ a (fun _ _ => trivial) trivial, (placeFreed_freed hm id d).mem0Byte]
    simp only [and_true, mem0Kept]

theorem xbarResponse_mem1 (ht : tx.target = some 7) :
    let e := xbarResponse m id .ok traffic d
    let base := placeFreed m id d
    e = { base with xbar := answersTo m id base.xbar .ok [],
                    mem := { base.mem with mem1 := e.mem.mem1, reserved := e.mem.reserved } } ∧
    ∀ a, mem1Byte e a = if o ≤ a ∧ a < o + bs.length then bs.getD (a - o) 0 else mem1Byte d a := by
  dsimp only
  rw [xbarResponse_write hm found due still live write ht (fun _ _ _ => rfl) (fun o bs e => by rw [mem1Run_rest]), data, off]
  refine ⟨?_, fun a => ?_⟩
  · have rest := mem1Run_rest bs o (placeFreed m id d)
    exact withXbar_mem rest _
  · rw [mem1Byte_xbar, mem1Put_get.run bs o _ a (fun _ _ => trivial) trivial, (placeFreed_freed hm id d).mem1Byte]
    simp only [and_true]

end

end Sys2Proof.Machine
end

section
/-!
What a master does with an error response (Table 15-7): the crossbar is left alone, and what is judged is judged of the device before it.
-/
namespace Sys2Proof.Machine

/-! ### What leaves the crossbar alone -/

theorem foldl_xbar {α : Type} {f : Dev → α → Dev} (hf : ∀ d x, (f d x).xbar = d.xbar) (l : List α) (d : Dev) :
    (l.foldl f d).xbar = d.xbar := by
  induction l generalizing d with
  | nil => rfl
  | cons x t ih => exact (ih (f d x)).trans (hf d x)

theorem ErrOnly.xbar {a b : Dev} (h : ErrOnly a b) : b.xbar = a.xbar := by
  have rest := congrArg Dev.xbar h.rest
  exact rest

theorem raiseErr_xbar (d : Dev) (source code : Nat) (a0 a1 : Word) : (raiseErr d source code a0 a1).xbar = d.xbar :=
  (raiseErr_err source code a0 a1 (.refl d)).xbar

theorem CoresEnded.xbar {a b : Dev} (h : CoresEnded a b) : b.xbar = a.xbar := by
  have rest := congrArg Dev.xbar h.rest
  exact rest

theorem endItem_xbar {core : Nat} (hc : core < 36) (d : Dev) (result : Nat) (kept : Bool) : (endItem d core result kept).xbar = d.xbar :=
  (endItem_ended hc d result kept).ended.xbar

theorem LiveOnly.xbar {a b : Dev} (h : LiveOnly a b) : b.xbar = a.xbar := by rw [h]

theorem bulkLost_xbar (s : Nat) (write : Bool) (off len : Nat) (d : Dev) : (bulkLost s write off len d).xbar = d.xbar := by
  unfold bulkLost
  extract_lets n words wait d1 ring top d2 v xp d3 xp3
  have filled : d1.xbar = d.xbar := by
    unfold d1
    split <;> rfl
  have lines : d2.xbar = d.xbar := by
    unfold d2
    split
    · refine foldl_xbar (fun _ _ => ?_) words d
      rfl
    · exact filled
  have marked : d3.xbar = d.xbar := lines
  clear_value d3
  split
  · rw [(lanesGo_only _).rest]
    exact marked
  · exact marked

theorem captureError_xbar (off : Nat) (d : Dev) : (captureError off d).xbar = d.xbar := by
  unfold captureError setCapState
  rw [raiseErr_xbar, liveSetF_xbar]

theorem refuseSection_xbar (type : Nat) (p : List Byte) (d : Dev) : (refuseSection type p d).xbar = d.xbar := by
  unfold refuseSection
  extract_lets src d1
  rw [raiseErr_xbar]
  unfold d1
  split
  · exact liveSetB_xbar _ _ _ _
  · split
    · exact (liveSetB_xbar _ _ _ _).trans (liveSetB_xbar _ _ _ _)
    · split
      · exact liveSetB_xbar _ _ _ _
      · split
        · exact liveSetB_xbar _ _ _ _
        · rfl

theorem rcDiscard_xbar (d : Dev) : (rcDiscard d).xbar = d.xbar := by
  unfold rcDiscard
  extract_lets d1 rc d2
  have marked : d1.xbar = d.xbar := foldl_xbar (fun e _ => liveSetB_xbar e _ _ _) d.rc.standby d
  have reported : d2.xbar = d.xbar := (liveSetF_xbar _ _ _ _ _).trans marked
  rw [liveSetB_xbar, liveSetB_xbar, reported]

theorem reloadRefuse_xbar (type r : Nat) (d : Dev) : (reloadRefuse type r d).xbar = d.xbar := by
  unfold reloadRefuse
  split
  · rfl
  · extract_lets d1 d2 d3
    have discarded : d1.xbar = d.xbar := by
      unfold d1
      split
      · exact rcDiscard_xbar d
      · rfl
    clear_value d1
    unfold reloadLog reloadResult setReloadState
    rw [raiseErr_xbar, liveSetF_xbar, liveSetF_xbar, liveSetF_xbar]
    have cleared : d2.xbar = d.xbar := (liveSetB_xbar _ _ _ _).trans discarded
    exact cleared

theorem deliver_xbar (d : Dev) (it : WorkItem) (ymem : List (Nat × Word)) : (deliver d it ymem).xbar = d.xbar := rfl

theorem deliverFirst_xbar (d : Dev) (core : Nat) : (deliverFirst d core).xbar = d.xbar := by
  unfold deliverFirst
  dsimp only
  split
  · rfl
  · split
    · rfl
    · exact deliver_xbar _ _ _

theorem vecFault_xbar {core : Nat} (hc : core < 36) (d : Dev) (cause : Nat) : (vecFault d core cause).xbar = d.xbar := by
  unfold vecFault
  extract_lets h d1 d2 d3 d4
  have counted : d3.xbar = d.xbar := by
    unfold d3
    rw [bumpSat_rest]
    rfl
  have raised : d4.xbar = d.xbar := by
    unfold d4
    rw [raiseErr_xbar, (raiseOwn_liveOnly _ _).xbar, counted]
  clear_value d4
  split
  · exact raised
  · rw [endItem_xbar hc, raised]

theorem errorOutcome_xbar (tx : XbarTx) {traffic : XTraffic} (hk : trafficOk traffic = true) (d : Dev) :
    (errorOutcome tx traffic d).xbar = d.xbar := by
  cases traffic with
  | bulk s => exact (raiseErr_xbar _ _ _ _ _).trans (bulkLost_xbar _ _ _ _ d)
  | tail f =>
    unfold errorOutcome
    dsimp only
    split
    · rw [raiseErr_xbar]
      rfl
    · exact raiseErr_xbar _ _ _ _ _
  | capture =>
    unfold errorOutcome
    dsimp only
    split
    · exact captureError_xbar _ d
    · rfl
  | sections k =>
    unfold errorOutcome
    dsimp only
    split
    · rw [reloadRefuse_xbar, refuseSection_xbar]
    · rfl
  | staging c =>
    have hc : c < 36 := of_decide_eq_true hk
    unfold errorOutcome
    dsimp only
    split
    · exact endItem_xbar hc d _ _
    · split
      · rw [endItem_xbar hc, deliverFirst_xbar]
      · rfl
  | window c =>
    have hc : c < 36 := of_decide_eq_true hk
    unfold errorOutcome
    dsimp only
    split
    · exact vecFault_xbar hc _ _
    · split
      · exact vecFault_xbar hc d _
      · rfl
  | supervisor => exact raiseErr_xbar d _ _ _ _
  | debug => rfl

/-! ### What is judged is judged of the device before the response -/

section
variable {a b : Dev} (h : Freed a b)
include h

theorem Freed.feedBlock : Machine.feedBlock b = Machine.feedBlock a := by
  unfold Machine.feedBlock actAtB actAt
  rw [h.path, h.act]

theorem Freed.capturing : Machine.capturing b = Machine.capturing a := by
  unfold Machine.capturing
  rw [h.cap]

theorem Freed.loadingSec (type : Nat) : Machine.loadingSec b type = Machine.loadingSec a type := by
  unfold Machine.loadingSec
  rw [h.boot]

theorem Freed.coreState {core : Nat} (hc : core < 36) : Machine.coreState b core = Machine.coreState a core := by
  unfold Machine.coreState liveF
  rw [h.coreWord hc]

theorem Freed.inHandler {core : Nat} (hc : core < 36) : Machine.inHandler b core = Machine.inHandler a core := by
  unfold Machine.inHandler liveB
  rw [h.coreWord hc]

end

/-! ### The outcomes -/

section
variable {tx : XbarTx} {d : Dev}

theorem errorOutcome_fed {f b : Nat} (h : feedBlock d = some b) : errorOutcome tx (.tail f) d =
    raiseErr (tailFailed f b d) (srcOf blkMem0 0) 0x0504 (BitVec.ofNat 32 f) (BitVec.ofNat 32 (txOffset tx)) := by
  unfold errorOutcome
  dsimp only
  rw [h]

theorem errorOutcome_unfed {f : Nat} (h : feedBlock d = none) : errorOutcome tx (.tail f) d =
    raiseErr d (srcOf blkMem0 0) 0x0504 (BitVec.ofNat 32 f) (BitVec.ofNat 32 (txOffset tx)) := by
  unfold errorOutcome
  dsimp only
  rw [h]

theorem errorOutcome_capturing (h : capturing d = true) : errorOutcome tx .capture d = captureError (txOffset tx) d := if_pos h

theorem errorOutcome_uncaptured (h : capturing d = false) : errorOutcome tx .capture d = d := if_neg (by rw [h]; exact Bool.false_ne_true)

theorem errorOutcome_loading {k : Nat} {x : ReloadSec} (h : loadingSec d k = some x) : errorOutcome tx (.sections k) d =
    reloadRefuse k 11 (refuseSection k x.data d) := by
  unfold errorOutcome
  dsimp only
  rw [h]

theorem errorOutcome_unloading {k : Nat} (h : loadingSec d k = none) : errorOutcome tx (.sections k) d = d := by
  unfold errorOutcome
  dsimp only
  rw [h]

theorem errorOutcome_staging (c : Nat) : errorOutcome tx (.staging c) d =
    if coreState d c = 2 then endItem d c 2 true
    else if coreState d c = 4 then endItem (deliverFirst d c) c 2 true
    else d := rfl

theorem errorOutcome_reading {c : Nat} {b : Bundle} (h : (coreOf d c).wait = some (.window, b)) : errorOutcome tx (.window c) d =
    vecFault (setCore d c { coreOf d c with wait := none }) c fWindow := by
  unfold errorOutcome
  dsimp only
  rw [h]

theorem errorOutcome_writing {c : Nat} (h : ∀ b, (coreOf d c).wait ≠ some (.window, b)) : errorOutcome tx (.window c) d =
    if tx.req.write = true ∧ (inHandler d c = true ∨ (coreOf d c).item.isSome = true) then vecFault d c fWindow else d := by
  unfold errorOutcome
  dsimp only
  split
  · next b wait => exact absurd wait (h b)
  · simp only [Bool.and_eq_true, Bool.or_eq_true]

end

/-- The feed of a tail line that was not had is muted, and the raise keeps it. -/
theorem mem_muted_tailFailed (f b : Nat) (d : Dev) (source code : Nat) (a0 a1 : Word) :
    f ∈ (raiseErr (tailFailed f b d) source code a0 a1).rc.muted := by
  have rc : (raiseErr (tailFailed f b d) source code a0 a1).rc = (tailFailed f b d).rc := by
    have rest := congrArg Dev.rc (raiseErr_err source code a0 a1 (.refl (tailFailed f b d))).rest
    exact rest
  rw [rc]
  exact mem_setIns.mpr (.inl rfl)

section
variable {m id : Nat} {resp : XResp} {traffic : XTraffic} {d : Dev} {tx : XbarTx} (hm : m < 19)
  (found : d.xbar.out.find? (isTx m id) = some tx) (due : RespDue m resp traffic d tx) (still : d.xbar.waiting = [])
  (live : tx.void = false) (bad : resp ≠ .ok) (hk : trafficOk traffic = true)
include hm found due still live bad hk

/-- An error response that is due: it is counted and recorded, the master does what Table 15-7 says, and has its answer. -/
theorem xbarResponse_failed : xbarResponse m id resp traffic d =
    { errorOutcome tx traffic (errorNoted m id tx.req.addr tx.req.write resp d) with
      xbar := answersTo m id (placeFreed m id d).xbar resp [] } := by
  have kept : (errorOutcome tx traffic (errorNoted m id tx.req.addr tx.req.write resp d)).xbar = (placeFreed m id d).xbar :=
    (errorOutcome_xbar tx hk _).trans (errorNoted_xbar m id _ _ resp d)
  rw [xbarResponse_error found due live bad, xbarGrants_answered hm still kept]

end

/-- The record of the error stands after the supervisor's entry. -/
theorem supervisor_record (m id : Nat) (addr : Nat) (write : Bool) (resp : XResp) (d : Dev) (source code : Nat) (a0 a1 : Word) :
    let e := raiseErr (errorNoted m id addr write resp d) source code a0 a1
    liveGet e offXbarLastErrInfo = BitVec.ofNat 32 (m % 32 * 65536 + respCode resp * 256 + write.toNat) ∧
    liveGet e offXbarLastErrLo = BitVec.ofNat 32 addr := by
  have only := (raiseErr_err source code a0 a1 (.refl (errorNoted m id addr write resp d))).regs.live
  obtain ⟨info, low⟩ := countError_info m addr write resp (placeFreed m id d)
  exact ⟨(only _ (by decide)).trans info, (only _ (by decide)).trans low⟩

end Sys2Proof.Machine
end

section
/-!
O35: XBAR_RESPONSE and MASTER_RESET.
-/
namespace Sys2Proof.Machine

/-- The response leaves e, with the answer that the error is. -/
def EndsAs (m id : Nat) (resp : XResp) (traffic : XTraffic) (d e : Dev) : Prop :=
  xbarResponse m id resp traffic d = { e with xbar := answersTo m id (placeFreed m id d).xbar resp [] }

theorem liveGet_withXbar (e : Dev) (x : Xbar) (o : Nat) : liveGet { e with xbar := x } o = liveGet e o := rfl

theorem EndsAs.liveGet {m id : Nat} {resp : XResp} {traffic : XTraffic} {d e : Dev} (h : EndsAs m id resp traffic d e) (o : Nat) :
    liveGet (xbarResponse m id resp traffic d) o = Machine.liveGet e o := by
  unfold EndsAs at h
  rw [h, liveGet_withXbar]

theorem EndsAs.rc {m id : Nat} {resp : XResp} {traffic : XTraffic} {d e : Dev} (h : EndsAs m id resp traffic d e) :
    (xbarResponse m id resp traffic d).rc = e.rc := by
  unfold EndsAs at h
  rw [h]

section
variable {m id : Nat} {resp : XResp} {traffic : XTraffic} {d : Dev} {tx : XbarTx} (hm : m < 19)
  (found : d.xbar.out.find? (isTx m id) = some tx) (due : RespDue m resp traffic d tx) (still : d.xbar.waiting = [])
  (live : tx.void = false) (bad : resp ≠ .ok) (hk : trafficOk traffic = true)
include hm found due still live bad hk

theorem endsAs_of_outcome {e : Dev} (h : errorOutcome tx traffic (errorNoted m id tx.req.addr tx.req.write resp d) = e) :
    EndsAs m id resp traffic d e := by
  unfold EndsAs
  rw [xbarResponse_failed hm found due still live bad hk, h]

/-- The supervisor's entry, with the record of the error standing. -/
theorem supervisor_outcome (kind : traffic = .supervisor) :
    let e := xbarResponse m id resp traffic d
    EndsAs m id resp traffic d (raiseErr (errorNoted m id tx.req.addr tx.req.write resp d) (srcOf blkXbar 0) 0x0506
      (liveGet e offXbarLastErrInfo) (BitVec.ofNat 32 tx.req.addr)) ∧
    liveGet e offXbarLastErrInfo = BitVec.ofNat 32 (tx.req.master % 32 * 65536 + respCode resp * 256 + tx.req.write.toNat) ∧
    liveGet e offXbarLastErrLo = BitVec.ofNat 32 tx.req.addr := by
  obtain ⟨word, -⟩ := countError_info m tx.req.addr tx.req.write resp (placeFreed m id d)
  have ends := endsAs_of_outcome hm found due still live bad hk (e := raiseErr (errorNoted m id tx.req.addr tx.req.write resp d)
    (srcOf blkXbar 0) 0x0506 (liveGet (errorNoted m id tx.req.addr tx.req.write resp d) offXbarLastErrInfo)
    (BitVec.ofNat 32 tx.req.addr)) (by rw [kind]; rfl)
  obtain ⟨info, low⟩ := supervisor_record m id tx.req.addr tx.req.write resp d (srcOf blkXbar 0) 0x0506
    (liveGet (errorNoted m id tx.req.addr tx.req.write resp d) offXbarLastErrInfo) (BitVec.ofNat 32 tx.req.addr)
  dsimp only
  rw [ends.liveGet, ends.liveGet, info, low, txMaster found]
  refine ⟨?_, rfl, rfl⟩
  rw [errorNoted, word] at ends
  exact ends

/-- The feed of a lost tail line. -/
theorem tail_outcome {f b : Nat} (kind : traffic = .tail f) (fed : feedBlock d = some b) :
    EndsAs m id resp traffic d (raiseErr (tailFailed f b (errorNoted m id tx.req.addr tx.req.write resp d)) (srcOf blkMem0 0) 0x0504
      (BitVec.ofNat 32 f) (BitVec.ofNat 32 (txOffset tx))) ∧ f ∈ (xbarResponse m id resp traffic d).rc.muted := by
  have ends := endsAs_of_outcome hm found due still live bad hk (e := raiseErr (tailFailed f b
    (errorNoted m id tx.req.addr tx.req.write resp d)) (srcOf blkMem0 0) 0x0504 (BitVec.ofNat 32 f) (BitVec.ofNat 32 (txOffset tx)))
    (by rw [kind]; exact errorOutcome_fed ((errorNoted_freed hm id _ _ resp d).feedBlock.trans fed))
  refine ⟨ends, ?_⟩
  rw [ends.rc]
  exact mem_muted_tailFailed _ _ _ _ _ _ _

/-- The work item that is staged, and its block where it stages out. -/
theorem staging_outcome {c : Nat} (kind : traffic = .staging c) :
    let failed := errorNoted m id tx.req.addr tx.req.write resp d
    (coreState d c = 2 → EndsAs m id resp traffic d (endItem failed c 2 true)) ∧
    (coreState d c = 4 → EndsAs m id resp traffic d (endItem (deliverFirst failed c) c 2 true)) ∧
    (coreState d c ≠ 2 → coreState d c ≠ 4 → EndsAs m id resp traffic d failed) := by
  have hc : c < 36 := by
    rw [kind] at hk
    exact of_decide_eq_true hk
  have state := (errorNoted_freed hm id tx.req.addr tx.req.write resp d).coreState hc
  refine ⟨fun h => ?_, fun h => ?_, fun h2 h4 => ?_⟩
  · exact endsAs_of_outcome hm found due still live bad hk (by rw [kind, errorOutcome_staging, state, if_pos h])
  · exact endsAs_of_outcome hm found due still live bad hk
      (by rw [kind, errorOutcome_staging, state, if_neg (by rw [h]; decide), if_pos h])
  · exact endsAs_of_outcome hm found due still live bad hk (by rw [kind, errorOutcome_staging, state, if_neg h2, if_neg h4])

/-- The window access of a bundle. -/
theorem window_outcome {c : Nat} (kind : traffic = .window c) :
    let failed := errorNoted m id tx.req.addr tx.req.write resp d
    (∀ b, (coreOf d c).wait = some (.window, b) →
      EndsAs m id resp traffic d (vecFault (setCore failed c { coreOf d c with wait := none }) c fWindow)) ∧
    ((∀ b, (coreOf d c).wait ≠ some (.window, b)) → EndsAs m id resp traffic d
      (if tx.req.write = true ∧ (inHandler d c = true ∨ (coreOf d c).item.isSome = true) then vecFault failed c fWindow else failed)) := by
  have hc : c < 36 := by
    rw [kind] at hk
    exact of_decide_eq_true hk
  have freed := errorNoted_freed hm id tx.req.addr tx.req.write resp d
  have core := freed.coreOf c
  have handler := freed.inHandler hc
  refine ⟨fun b h => ?_, fun h => ?_⟩
  · exact endsAs_of_outcome hm found due still live bad hk (by rw [kind, errorOutcome_reading ((congrArg VecCore.wait core).trans h), core])
  · refine endsAs_of_outcome hm found due still live bad hk ?_
    rw [kind, errorOutcome_writing (fun b e => h b ((congrArg VecCore.wait core).symm.trans e)), core, handler]

end

/-- The words that a read of the register bridge answers. -/
theorem xbarResponse_bridgeRead {m id : Nat} {traffic : XTraffic} {d : Dev} {tx : XbarTx} (hm : m < 19)
    (found : d.xbar.out.find? (isTx m id) = some tx) (due : RespDue m .ok traffic d tx) (still : d.xbar.waiting = [])
    (live : tx.void = false) (read : tx.req.write = false) (ht : tx.target = some 3) : xbarResponse m id .ok traffic d =
      { placeFreed m id d with xbar := answersTo m id (placeFreed m id d).xbar .ok ((List.range (tx.req.len / 4)).flatMap fun i =>
        leBytes 4 (regRead (placeFreed m id d) (txOffset tx + 4 * i)).toNat) } := by
  rw [xbarResponse_read hm found due still live read ht, targetRead]

theorem answered_eq (m id : Nat) (r : XResp) (bytes : List Byte) (d : Dev) :
    answered m id r bytes d = { d with xbar := answersTo m id d.xbar r bytes } := rfl

section
variable {m id : Nat} {traffic : XTraffic} {d : Dev} {tx : XbarTx} (found : d.xbar.out.find? (isTx m id) = some tx)
  (due : RespDue m .ok traffic d tx) (live : tx.void = false) (write : tx.req.write = true) (ht : tx.target = some 3)
  {bs : List Byte} (data : tx.req.data.take tx.req.len = bs) {o : Nat} (off : txOffset tx = o)
include found due live write ht data off

/-- A write through the bridge, by what its words do. -/
theorem xbarResponse_bridged {w : Dev} (h : targetWrite 3 o bs (placeFreed m id d) = w) :
    xbarResponse m id .ok traffic d = xbarGrants { w with xbar := answersTo m id w.xbar .ok [] } := by
  rw [xbarResponse_bridge found due live write ht, data, off, h]
  exact congrArg xbarGrants (answered_eq m id .ok [] w)

end

/-- Settles O35, by the three parts of XBAR_RESPONSE: the place that becomes free (`placeFreed_freed`), what stands behind the crossbar
(`PutGet.run` of each memory), and what a master does with an error (`errorOutcome_xbar`). -/
theorem crossbarResponsesAndResets : Obligations.CrossbarResponsesAndResets := by
  unfold Obligations.CrossbarResponsesAndResets
  have run : ∀ {s : State} {m id : Nat} {resp : XResp} {traffic : XTraffic} {P : Dev → Prop}, m < 19 → trafficOk traffic = true →
      P (xbarResponse m id resp traffic s.dev) → Runs (.xbarResponse m id resp traffic) s P := fun hm hk h =>
    runs_ranIf (f := xbarResponse _ _ _ _) rfl (by simp [hm, hk]) h
  refine ⟨fun s m id resp traffic hm hk none => run hm hk (xbarResponse_none none), respFits_cases,
    fun s m id resp traffic tx hm hk found => ?_,
    fun s m hm => runs_ranIf (f := masterReset m) rfl (decide_eq_true hm) (masterReset_effect m s.dev)⟩
  have hf : s.dev.xbar.out.find? (isTx m id) = some tx := found
  intro base answers answer failed ends o bs within due
  have asFreed : base = placeFreed m id s.dev := rfl
  have asAnswers : answers = answersTo m id := rfl
  have asNoted : failed = errorNoted m id tx.req.addr tx.req.write resp s.dev := rfl
  have off : txOffset tx = o := rfl
  have data : tx.req.data.take tx.req.len = bs := rfl
  clear_value failed answers base o bs
  subst asFreed asAnswers asNoted
  refine ⟨fun idle => run hm hk (xbarResponse_idle hf idle), fun hd still void => run hm hk (xbarResponse_void hm hf hd still void),
    fun hd still live ok read => ?_, fun hd still live ok write => ?_, fun hd still live bad => ?_⟩
  · subst ok off
    refine ⟨fun t ht plain => run hm hk ?_, fun ht => run hm hk ?_⟩
    · exact xbarResponse_read_frame hm hf hd still live read ht plain
    · exact xbarResponse_bridgeRead hm hf hd still live read ht
  · subst ok
    refine ⟨fun ht => run hm hk ?_, fun ht len => run hm hk ?_, fun ht len => run hm hk ?_, fun ht _ => run hm hk ?_,
      fun ht low high => run hm hk ?_, fun ht => run hm hk ?_, fun ht => run hm hk ?_⟩
    · exact xbarResponse_sram hm hf hd still live write data off ht
    · intro w
      exact xbarResponse_bridged (w := w) hf hd live write ht data off (bridgeWrite_word len _ _)
    · intro v w
      exact xbarResponse_bridged (w := w) hf hd live write ht data off (bridgeWrite_pair len _ _)
    · obtain ⟨rest, vec, bytes⟩ := xbarResponse_cluster hm hf hd still live write data off ht
      exact ⟨rest, vec, fun a _ => bytes a⟩
    · exact xbarResponse_render hm hf hd still live write data off ht low high
    · exact xbarResponse_mem0 hm hf hd still live write data off ht
    · exact xbarResponse_mem1 hm hf hd still live write data off ht
  · subst off
    have freed := errorNoted_freed hm id tx.req.addr tx.req.write resp s.dev
    have out : ∀ {e : Dev}, errorOutcome tx traffic (errorNoted m id tx.req.addr tx.req.write resp s.dev) = e →
        Runs (.xbarResponse m id resp traffic) s fun d => ends d e :=
      fun h => run hm hk (endsAs_of_outcome hm hf hd still live bad hk h)
    refine ⟨fun kind => out ?_, fun kind => run hm hk ?_, fun k kind => out ?_,
      fun f b kind fed => run hm hk ?_, fun f kind fed => out ?_, fun kind on => out ?_, fun kind off => out ?_,
      fun k x kind sec => out ?_, fun k kind sec => out ?_, fun c kind => ?_, fun c kind => ?_⟩
    · rw [kind, errorOutcome]
    · exact supervisor_outcome hm hf hd still live bad hk kind
    · rw [kind, errorOutcome]
    · exact tail_outcome hm hf hd still live bad hk kind fed
    · rw [kind]
      exact errorOutcome_unfed (freed.feedBlock.trans fed)
    · rw [kind]
      exact errorOutcome_capturing (freed.capturing.trans on)
    · rw [kind]
      exact errorOutcome_uncaptured (freed.capturing.trans off)
    · rw [kind]
      exact errorOutcome_loading ((freed.loadingSec k).trans sec)
    · rw [kind]
      exact errorOutcome_unloading ((freed.loadingSec k).trans sec)
    · obtain ⟨stageIn, stageOut, other⟩ := staging_outcome hm hf hd still live bad hk kind
      exact ⟨fun h => run hm hk (stageIn h), fun h => run hm hk (stageOut h), fun h2 h4 => run hm hk (other h2 h4)⟩
    · obtain ⟨reading, writing⟩ := window_outcome hm hf hd still live bad hk kind
      exact ⟨fun b h => run hm hk (reading b h), fun h => run hm hk (writing h)⟩

end Sys2Proof.Machine
end

section
/-!
Commits and the snapshot hold in EPC (R36 to R38, R42): what a commit request, a cancel and a write of SNAP_HOLD make of the device.
-/
namespace Sys2Proof.Machine

/-! ### What EPC's writes leave -/

/-- b is a but for EPC's own state and the current values of the registers at the given offsets. -/
structure EpcOnly (words : List Nat) (a b : Dev) : Prop where
  /-- The registers. -/
  regs : RegsBut words a b
  /-- Everything beside the registers and EPC. -/
  rest : { b with regs := a.regs, epc := a.epc } = a

section
variable {ws : List Nat} {a b : Dev}

theorem EpcOnly.refl (ws : List Nat) (a : Dev) : EpcOnly ws a a := ⟨.refl _ _, rfl⟩

theorem EpcOnly.liveSet (h : EpcOnly ws a b) {o : Nat} (ho : o ∈ ws) (w : Word) : EpcOnly ws a (liveSet b o w) :=
  ⟨h.regs.liveSet ho, h.rest⟩

theorem EpcOnly.liveSetF (h : EpcOnly ws a b) {o : Nat} (ho : o ∈ ws) (hi lo v : Nat) : EpcOnly ws a (liveSetF b o hi lo v) :=
  h.liveSet ho _

theorem EpcOnly.liveSetB (h : EpcOnly ws a b) {o : Nat} (ho : o ∈ ws) (i : Nat) (v : Bool) : EpcOnly ws a (liveSetB b o i v) :=
  h.liveSet ho _

theorem EpcOnly.setEpc (h : EpcOnly ws a b) (e : Epc) : EpcOnly ws a { b with epc := e } := ⟨h.regs.other rfl, h.rest⟩

theorem EpcOnly.setPending (h : EpcOnly ws a b) (ho : offEpcStatus ∈ ws) (p : Option Nat) : EpcOnly ws a (setPending b p) :=
  (h.setEpc _).liveSetB ho _ _

theorem EpcOnly.setResult (h : EpcOnly ws a b) (ho : offEpcCommitStatus ∈ ws) (r : CommitResult) : EpcOnly ws a (setResult b r) :=
  h.liveSetF ho _ _ _

end

/-! ### The snapshot hold (R42) -/

theorem snapHoldWrite_eq (v : Bool) (d : Dev) : snapHoldWrite v d =
    { liveSetB d offEpcCtrl 0 v with epc := { d.epc with held := if v then d.epc.held else 0 } } := by
  cases v <;> rfl

theorem snapHoldWrite_only (v : Bool) (d : Dev) : EpcOnly [offEpcCtrl] d (snapHoldWrite v d) := by
  rw [snapHoldWrite_eq]
  exact ((EpcOnly.refl _ d).liveSetB (by simp) 0 v).setEpc _

theorem snapHoldWrite_ctrl (v : Bool) (d : Dev) : liveB (snapHoldWrite v d) offEpcCtrl 0 = v := by
  rw [snapHoldWrite_eq]
  exact liveB_liveSetB_same d offEpcCtrl v (by decide)

theorem holdExpire_due {d : Dev} (held : liveB d offEpcCtrl 0 = true) (due : 3000 ≤ d.epc.held) : holdExpire d =
    { liveSetB (liveSetB d offEpcCtrl 0 false) offEpcStatus 7 true with epc := { d.epc with held := 0 } } :=
  if_pos ⟨held, due⟩

theorem holdExpire_early {d : Dev} (h : d.epc.held < 3000) : holdExpire d = d :=
  if_neg fun due => absurd due.2 (by omega)

/-- Settles O7, by the equations of the two commands. -/
theorem snapshotHold : Obligations.SnapshotHold := by
  refine ⟨fun s v => ?write, fun s held due => ?expiry, fun s early => runs_ran (f := holdExpire) rfl (holdExpire_early early)⟩
  case write =>
    obtain ⟨regs, rest⟩ := snapHoldWrite_only v s.dev
    exact runs_ran (f := snapHoldWrite v) rfl ⟨snapHoldWrite_ctrl v s.dev, by rw [snapHoldWrite_eq], regs, rest⟩
  case expiry =>
    obtain ⟨regs, rest⟩ : EpcOnly [offEpcCtrl, offEpcStatus] s.dev (holdExpire s.dev) := by
      rw [holdExpire_due held due]
      exact (((EpcOnly.refl _ s.dev).liveSetB (by simp) _ _).liveSetB (by simp) _ _).setEpc _
    have cleared : liveB (holdExpire s.dev) offEpcCtrl 0 = false := by
      rw [holdExpire_due held due]
      show bit (liveGet (liveSetB (liveSetB s.dev offEpcCtrl 0 false) offEpcStatus 7 true) offEpcCtrl) 0 = false
      rw [liveGet_liveSetB, if_neg (by decide)]
      exact liveB_liveSetB_same s.dev offEpcCtrl false (by decide)
    have expired : liveB (holdExpire s.dev) offEpcStatus 7 = true := by
      rw [holdExpire_due held due]
      exact liveB_liveSetB_same _ offEpcStatus true (by decide)
    exact runs_ran (f := holdExpire) rfl ⟨cleared, expired, by rw [holdExpire_due held due], regs, rest⟩

/-! ### Commit requests (R36 to R38) -/

theorem setPending_epc (d : Dev) (p : Option Nat) : (setPending d p).epc = { d.epc with commit := p, joined := false } := rfl

theorem liveGet_setPending_other (d : Dev) (p : Option Nat) {o : Nat} (h : o ≠ offEpcStatus) :
    liveGet (setPending d p) o = liveGet d o := liveGet_liveSet_other { d with epc := _ } _ h

theorem liveF_setResult (d : Dev) (r : CommitResult) : liveF (setResult d r) offEpcCommitStatus 2 0 = commitCode r := by
  rw [setResult, liveF_liveSetF_same _ _ _ (by decide) (by decide), Nat.mod_eq_of_lt]
  cases r <;> decide

theorem liveGet_setResult_other (d : Dev) (r : CommitResult) {o : Nat} (h : o ≠ offEpcCommitStatus) :
    liveGet (setResult d r) o = liveGet d o := liveGet_liveSet_other d _ h

theorem commitCode_eq_one {r : CommitResult} : commitCode r = 1 ↔ r = .pending := by
  cases r <;> decide

/-- The first step of R38 that applies. -/
theorem commitCode_judgeCommit (epc : Epc) (e : Nat) : commitCode (judgeCommit epc e) =
    if epc.commit = some e then 1
    else if e ≤ epc.epoch ∨ (e = epc.epoch + 1 ∧ epc.cutoff = true) then 3
    else if e - epc.epoch > 16777216 then 5
    else if epc.commit.isSome then 4
    else 1 := by
  simp only [judgeCommit, apply_ite commitCode]
  rfl

/-- A request that is judged PENDING makes its epoch the pending commit. -/
def commitTaken (e : Nat) (d : Dev) : Dev :=
  if judgeCommit d.epc e = .pending ∧ d.epc.commit ≠ some e then setPending d (some e) else d

/-- COMMIT_TARGET names the epoch of the request, and SEQ counts it. -/
def requestShown (e : Nat) (d : Dev) : Dev :=
  let t := liveSet48 d offEpcCommitTargetLo offEpcCommitTargetHi e
  liveSetF t offEpcCommitStatus 31 16 (liveF t offEpcCommitStatus 31 16 + 1)

theorem submitCommit_eq (e : Nat) (d : Dev) : submitCommit e d = setResult (requestShown e (commitTaken e d)) (judgeCommit d.epc e) := rfl

theorem commitTaken_commit (e : Nat) (d : Dev) :
    (commitTaken e d).epc.commit = if commitCode (judgeCommit d.epc e) = 1 then some e else d.epc.commit := by
  unfold commitTaken
  by_cases pending : judgeCommit d.epc e = .pending
  · rw [if_pos (commitCode_eq_one.mpr pending)]
    by_cases same : d.epc.commit = some e
    · rw [if_neg fun h => h.2 same, same]
    · rw [if_pos ⟨pending, same⟩, setPending_epc]
  · rw [if_neg fun h => pending h.1, if_neg fun h => pending (commitCode_eq_one.mp h)]

theorem liveGet_commitTaken_other (e : Nat) (d : Dev) {o : Nat} (h : o ≠ offEpcStatus) : liveGet (commitTaken e d) o = liveGet d o := by
  unfold commitTaken
  split
  · exact liveGet_setPending_other d _ h
  · rfl

/-- The registers of EPC that a commit request writes. -/
def requestWords : List Nat := [offEpcCommitStatus, offEpcCommitTargetLo, offEpcCommitTargetHi, offEpcStatus]

theorem submitCommit_only (e : Nat) (d : Dev) : EpcOnly requestWords d (submitCommit e d) := by
  have taken : EpcOnly requestWords d (commitTaken e d) := by
    unfold commitTaken
    split
    · exact (EpcOnly.refl _ d).setPending (by simp [requestWords]) _
    · exact .refl _ d
  have target := (taken.liveSet (o := offEpcCommitTargetLo) (by simp [requestWords]) (BitVec.ofNat 32 e)).liveSet
    (o := offEpcCommitTargetHi) (by simp [requestWords]) (BitVec.ofNat 32 (e / 2 ^ 32 % 65536))
  rw [submitCommit_eq]
  exact (target.liveSetF (by simp [requestWords]) _ _ _).setResult (by simp [requestWords]) _

theorem liveGet_requestShown (e : Nat) (d : Dev) (o : Nat) : liveGet (requestShown e d) o =
    if o = offEpcCommitStatus then
      setBits (liveGet d offEpcCommitStatus) 31 16 (liveF d offEpcCommitStatus 31 16 + 1)
    else if o = offEpcCommitTargetHi then BitVec.ofNat 32 (e / 2 ^ 32 % 65536)
    else if o = offEpcCommitTargetLo then BitVec.ofNat 32 e
    else liveGet d o := by
  have status : liveGet (liveSet48 d offEpcCommitTargetLo offEpcCommitTargetHi e) offEpcCommitStatus = liveGet d offEpcCommitStatus := by
    rw [liveSet48, liveGet_liveSet_other _ _ (by decide), liveGet_liveSet_other _ _ (by decide)]
  rw [requestShown, liveGet_liveSetF, liveF, status, liveSet48, liveGet_liveSet, liveGet_liveSet]
  rfl

theorem submitCommit_seq (e : Nat) (d : Dev) :
    liveF (submitCommit e d) offEpcCommitStatus 31 16 = (liveF d offEpcCommitStatus 31 16 + 1) % 65536 := by
  rw [submitCommit_eq, setResult, liveF, liveGet_liveSetF, if_pos rfl,
    bits_setBits_other _ _ (by decide) (by decide) (by decide) (by decide), liveGet_requestShown, if_pos rfl,
    bits_setBits_same _ _ (by decide) (by decide), liveF, liveGet_commitTaken_other _ _ (by decide)]
  rfl

theorem submitCommit_targetLo (e : Nat) (d : Dev) : liveGet (submitCommit e d) offEpcCommitTargetLo = BitVec.ofNat 32 e := by
  rw [submitCommit_eq, liveGet_setResult_other _ _ (by decide), liveGet_requestShown, if_neg (by decide), if_neg (by decide), if_pos rfl]

theorem submitCommit_targetHi (e : Nat) (d : Dev) :
    liveGet (submitCommit e d) offEpcCommitTargetHi = BitVec.ofNat 32 (e / 2 ^ 32 % 65536) := by
  rw [submitCommit_eq, liveGet_setResult_other _ _ (by decide), liveGet_requestShown, if_neg (by decide), if_pos rfl]

theorem commitCancelWrite_open {d : Dev} {e : Nat} (named : d.epc.commit = some e)
    (early : ¬(d.epc.cutoff = true ∧ e ≤ d.epc.epoch + 1)) : commitCancelWrite d = setResult (setPending d none) .cancelled := by
  rw [commitCancelWrite, named]
  exact if_neg early

theorem commitCancelWrite_late {d : Dev} {e : Nat} (named : d.epc.commit = some e) (cutoff : d.epc.cutoff = true)
    (late : e ≤ d.epc.epoch + 1) : commitCancelWrite d = d := by
  rw [commitCancelWrite, named]
  exact if_pos ⟨cutoff, late⟩

/-- Settles O8: a request of either kind is `submitCommit`, judged by `judgeCommit`; a cancel withdraws what is pending. -/
theorem commitRequestsAreJudgedInOrder : Obligations.CommitRequestsAreJudgedInOrder := by
  unfold Obligations.CommitRequestsAreJudgedInOrder
  intro judged
  have request (e : Nat) (a : Dev) : judged e a (submitCommit e a) := by
    obtain ⟨regs, rest⟩ := submitCommit_only e a
    have result := liveF_setResult (requestShown e (commitTaken e a)) (judgeCommit a.epc e)
    have pending := commitTaken_commit e a
    rw [commitCode_judgeCommit] at result pending
    exact ⟨result, submitCommit_seq e a, submitCommit_targetLo e a, submitCommit_targetHi e a, pending, regs, rest⟩
  refine ⟨fun s val => ?named, fun s => ?next, fun s e named early => ?cancel, fun s e named cutoff late => ?late⟩
  case named => exact runs_ran (f := commitAtHiWrite val) rfl (request _ s.dev)
  case next => exact runs_ran (f := commitNextWrite) rfl (request _ s.dev)
  case cancel =>
    have only : EpcOnly [offEpcCommitStatus, offEpcStatus] s.dev (setResult (setPending s.dev none) .cancelled) :=
      ((EpcOnly.refl _ s.dev).setPending (by simp) none).setResult (by simp) _
    refine runs_ran (f := commitCancelWrite) rfl ?_
    rw [commitCancelWrite_open named early]
    exact ⟨rfl, liveF_setResult _ _, only.regs, only.rest⟩
  case late => exact runs_ran (f := commitCancelWrite) rfl (commitCancelWrite_late named cutoff late)

end Sys2Proof.Machine
end

section
/-!
The start of an epoch (R30, R35), the commit it applies, the commit cutoff (R36, R39) and the load of the timebase (R29, R31): which
steps leave the register copies and the epoch, and what each of the three commands comes to in each of its cases.
-/
namespace Sys2Proof.Machine

/-! ### Steps that leave the active copies and the epoch -/

/-- b has a's active copies and epoch. -/
structure ActiveKept (a b : Dev) : Prop where
  /-- Active copies. -/
  act : b.regs.act = a.regs.act
  /-- The epoch. -/
  epoch : b.epc.epoch = a.epc.epoch

/-- b has a's active copies, epoch and shadow copies. -/
structure CopiesKept (a b : Dev) : Prop extends ActiveKept a b where
  /-- Shadow copies. -/
  shadow : b.regs.shadow = a.regs.shadow

theorem Quiet.copies {a b : Dev} (h : Quiet a b) : CopiesKept a b := ⟨⟨h.act, h.epoch⟩, h.shadow⟩

theorem Quiet.active {a b : Dev} (h : Quiet a b) : ActiveKept a b := ⟨h.act, h.epoch⟩

theorem ActiveKept.refl (a : Dev) : ActiveKept a a := ⟨rfl, rfl⟩

theorem ActiveKept.trans {a b c : Dev} (h : ActiveKept a b) (k : ActiveKept b c) : ActiveKept a c :=
  ⟨k.act.trans h.act, k.epoch.trans h.epoch⟩

theorem CopiesKept.trans {a b c : Dev} (h : CopiesKept a b) (k : CopiesKept b c) : CopiesKept a c :=
  ⟨h.toActiveKept.trans k.toActiveKept, k.shadow.trans h.shadow⟩

theorem ActiveKept.foldl {α : Type} {f : Dev → α → Dev} (hf : ∀ d x, ActiveKept d (f d x)) (l : List α) (d : Dev) :
    ActiveKept d (l.foldl f d) := by
  induction l generalizing d with
  | nil => exact .refl d
  | cons x t ih => exact (hf d x).trans (ih _)

theorem renderSwap_copies (d : Dev) : CopiesKept d (renderSwap d) := ⟨⟨rfl, rfl⟩, rfl⟩

theorem latchSnapshot_active (d : Dev) : ActiveKept d (latchSnapshot d) := by
  unfold latchSnapshot
  split <;> exact ⟨rfl, rfl⟩

theorem memEpoch_active (d : Dev) : ActiveKept d (memEpoch d) := by
  unfold memEpoch
  extract_lets m x y
  have region : ActiveKept d x := by
    show ActiveKept d (if _ then _ else _)
    split <;> exact ⟨rfl, rfl⟩
  have awake : Quiet x y := selfRefreshExit_quiet 0 x (.refl x)
  split
  · exact region.trans (Quiet.ite awake (wakeRanks_quiet _ _ _ awake)).active
  · exact region

theorem shSet_active (d : Dev) (o : Nat) (w : Word) : ActiveKept d (shSet d o w) := ⟨rfl, rfl⟩

theorem restoreEn_active (d : Dev) (b : Boot) : ActiveKept d (restoreEn { d with boot := b }) := by
  unfold restoreEn
  extract_lets x
  have written : ActiveKept { d with boot := b } x := .foldl (fun d _ => shSet_active d _ _) b.kept { d with boot := b }
  exact ⟨written.act, written.epoch⟩

theorem bootEpoch_active (d : Dev) : ActiveKept d (bootEpoch d) := by
  unfold bootEpoch
  split
  · split
    · exact restoreEn_active d _
    · exact .refl d
  · split
    · exact restoreEn_active d _
    · exact .refl d
  · exact .refl d

theorem captureBlock_active (d : Dev) : ActiveKept d (captureBlock d) := by
  unfold captureBlock
  extract_lets e
  split
  · exact .refl d
  · split
    · exact ⟨rfl, rfl⟩
    · exact .refl d

theorem captureEpoch_active (d : Dev) : ActiveKept d (captureEpoch d) := by
  unfold captureEpoch
  split
  · split
    · refine Quiet.active (setCapState_quiet _ 0 ?_)
      exact ⟨id, rfl, rfl, rfl, rfl, id, rfl, rfl⟩
    · exact .refl d
  · extract_lets x
    have block : ActiveKept d x := captureBlock_active d
    split
    · exact block.trans (captureStart_quiet x (.refl x)).active
    · exact block

/-- No unit changes an active copy at an epoch start. -/
theorem unitStarts_active (d : Dev) : ActiveKept d (unitStarts d) := by
  unfold unitStarts
  extract_lets mem time clock object capture work reports boot
  have memOk : ActiveKept d mem := (netRun_quiet _ 1 (netRun_quiet d 0 (.refl d))).active.trans (memEpoch_active _)
  have timeOk : Quiet mem time := ptpEpoch_quiet _ 1 (ptpEpoch_quiet mem 0 (.refl mem))
  have clockOk : Quiet time clock :=
    pathsEpoch_quiet _ (clkEpoch_quiet _ (followEpoch_quiet _ (servoEpoch_quiet _ (sapEpoch_quiet time (.refl time)))))
  have objectOk : Quiet clock object := objEpoch_quiet _ (cndEpoch_quiet clock (.refl clock))
  have captureOk : ActiveKept object capture := (rcEpoch_quiet _ (xpEpoch_quiet object (.refl object))).active.trans (captureEpoch_active _)
  have workOk : Quiet capture work := wdEpoch_quiet _ (moonEpoch_quiet _ (vecEpoch_quiet capture (.refl capture)))
  have reportsOk : Quiet work reports := linkReports_quiet _ (mgmtEpoch_quiet _ (twnEpoch_quiet work (.refl work)))
  have bootOk : ActiveKept reports boot := bootEpoch_active reports
  have earlier : ActiveKept d object := memOk.trans ((timeOk.trans clockOk).trans objectOk).active
  exact ((earlier.trans captureOk).trans ((workOk.trans reportsOk).active.trans bootOk)).trans ⟨rfl, rfl⟩

/-! ### The commit at an epoch start (R35, R422) -/

theorem commitApply_idle {d : Dev}
    (h : d.epc.commit = none ∨ (∃ e, d.epc.commit = some e ∧ d.epc.epoch < e) ∨ fatal d = true) : commitApply d = d := by
  unfold commitApply
  split
  · rfl
  · next e named =>
    refine if_pos ?_
    rcases h with none | ⟨e', some, early⟩ | dead
    · exact absurd (none.symm.trans named) nofun
    · exact .inl (Option.some.inj (some.symm.trans named) ▸ early)
    · exact .inr dead

/-- A due commit copies the shadow bank, and nothing after it changes a copy. -/
theorem commitApply_due {d : Dev} {e : Nat} (named : d.epc.commit = some e) (due : e ≤ d.epc.epoch) (alive : fatal d = false) :
    CopiesKept (commitCopy (setPending d none)) (commitApply d) := by
  rw [commitApply, named]
  dsimp -zeta only
  rw [if_neg (by simp [alive, due])]
  extract_lets joined made shown raised applied
  have madeOk : Quiet (commitCopy (setPending d none)) made := genMakeAll_quiet _ _ (genCommit_quiet _ (.refl _))
  have shownOk : Quiet made shown := setResult_quiet _ _ (liveSet48_quiet _ _ _ _ (bump_quiet made _ (.refl made)))
  have raisedOk : Quiet shown raised := raiseOwn_quiet shown 5 (.refl shown)
  have appliedOk : CopiesKept raised applied := by
    show CopiesKept raised (if _ then _ else _)
    split
    · have tables : CopiesKept raised (if reloadTables raised then renderSwap raised else raised) := by
        split
        · exact renderSwap_copies raised
        · exact (Quiet.refl raised).copies
      exact tables.trans (reloadApply_quiet _ (.refl _)).copies
    · exact (Quiet.refl raised).copies
  exact (((madeOk.trans shownOk).trans raisedOk).copies.trans appliedOk).trans
    (soundUpdate_quiet _ (rateJudge_quiet applied (.refl applied))).copies

/-- b is in a's epoch; its active copies are a's, or a's after its whole shadow bank has become active from that epoch. -/
structure Committed (a b : Dev) : Prop where
  /-- The epoch. -/
  epoch : b.epc.epoch = a.epc.epoch
  /-- Active copies. -/
  act : b.regs.act = a.regs.act ∨ b.regs.act = (a.epc.epoch, a.regs.shadow) :: a.regs.act.take 7

theorem Committed.after {a b c : Dev} (h : Committed a b) (k : ActiveKept b c) : Committed a c :=
  ⟨k.epoch.trans h.epoch, by rw [k.act]; exact h.act⟩

theorem CopiesKept.before {a b c : Dev} (h : CopiesKept a b) (k : Committed b c) : Committed a c :=
  ⟨k.epoch.trans h.epoch, by rw [← h.act, ← h.shadow, ← h.epoch]; exact k.act⟩

theorem commitApply_committed (d : Dev) : Committed d (commitApply d) := by
  by_cases due : ∃ e, d.epc.commit = some e ∧ e ≤ d.epc.epoch ∧ fatal d = false
  · obtain ⟨e, named, due, alive⟩ := due
    have copied := commitApply_due named due alive
    exact ⟨copied.epoch, .inr copied.act⟩
  · rw [commitApply_idle]
    · exact ⟨rfl, .inl rfl⟩
    · cases named : d.epc.commit with
      | none => exact .inl rfl
      | some e =>
        refine .inr ?_
        by_cases early : d.epc.epoch < e
        · exact .inl ⟨e, rfl, early⟩
        · refine .inr ?_
          by_contra alive
          exact due ⟨e, named, by omega, by simpa using alive⟩

/-- An epoch start makes at most the one commit copy. -/
theorem epochActions_committed (d : Dev) : Committed d (epochActions d) := by
  unfold epochActions
  extract_lets x y
  have before : Quiet d x := raiseEvt_quiet _ 4 (netEpoch_quiet _ 1 (netEpoch_quiet d 0 (.refl d)))
  have commit : Committed x (commitApply x) := commitApply_committed x
  have units : ActiveKept (commitApply x) y := (unitStarts_active _).trans (statusReports_quiet _ (.refl _)).active
  have snapshot : ActiveKept y (latchSnapshot (holdExpire y)) := (holdExpire_quiet y (.refl y)).active.trans (latchSnapshot_active _)
  exact before.copies.before (((commit.after units).after snapshot).after
    (xbarGrants_quiet _ (bulkEpoch_quiet _ (cndLand_quiet _ (divergenceReport_quiet _ (perfActions_quiet _ (wdAfter_quiet _
      (commitLatch_quiet _ (.refl _)))))))).active)

/-! ### An epoch start (R30, R31) -/

theorem epochStart_idle {d : Dev} (h : d.boot.phase = .reset ∨ (timebase d = 0 ∧ d.servo.lockedAt.isSome = true)) :
    epochStart d = d := if_pos h

theorem epochStart_begins {d : Dev} (h : ¬(d.boot.phase = .reset ∨ (timebase d = 0 ∧ d.servo.lockedAt.isSome = true))) :
    epochStart d = epochActions (epochBegins (d.epc.epoch + 1) (d.servo.epochAt + 16000000) (epochEnds d)) := if_neg h

/-- The epoch counter has 48 bits (R29). -/
theorem epochBegins_epoch (e : Nat) (at' : Int) (d : Dev) : (epochBegins e at' d).epc.epoch = e % 2 ^ 48 :=
  (present_quiet _ (.refl _)).epoch

theorem epochBegins_act (e : Nat) (at' : Int) (d : Dev) : (epochBegins e at' d).regs.act = d.regs.act :=
  (present_quiet _ (.refl _)).act

theorem epochBegins_shadow (e : Nat) (at' : Int) (d : Dev) : (epochBegins e at' d).regs.shadow = d.regs.shadow :=
  (present_quiet _ (.refl _)).shadow

/-! ### The commit cutoff (R36, R39) -/

/-- b has a's EPC state and active copies: a write of registers changes current values and shadow copies alone (R33). -/
structure StoreKept (a b : Dev) : Prop where
  /-- EPC. -/
  epc : b.epc = a.epc
  /-- Active copies. -/
  act : b.regs.act = a.regs.act

theorem StoreKept.refl (a : Dev) : StoreKept a a := ⟨rfl, rfl⟩

theorem StoreKept.trans {a b c : Dev} (h : StoreKept a b) (k : StoreKept b c) : StoreKept a c :=
  ⟨k.epc.trans h.epc, k.act.trans h.act⟩

theorem StoreKept.foldl {α : Type} {f : Dev → α → Dev} (hf : ∀ d x, StoreKept d (f d x)) (l : List α) (d : Dev) :
    StoreKept d (l.foldl f d) := by
  induction l generalizing d with
  | nil => exact .refl d
  | cons x t ih => exact (hf d x).trans (ih _)

theorem raiseErr_storeKept (d : Dev) (source code : Nat) (a0 a1 : Word) : StoreKept d (raiseErr d source code a0 a1) :=
  have only := raiseErr_err source code a0 a1 (.refl d)
  ⟨only.epc, only.regs.act⟩

theorem fieldWrite_storeKept (off : Nat) (val : Word) (acc : Dev × Bool × Bool) (f : FieldDesc) :
    StoreKept acc.1 (fieldWrite off val acc f).1 := by
  unfold fieldWrite
  extract_lets d raw ok v
  split
  · exact .refl _
  · exact .refl _
  · exact ⟨rfl, rfl⟩
  · exact ⟨rfl, rfl⟩
  · exact ⟨rfl, rfl⟩
  · exact ⟨rfl, rfl⟩
  · split <;> exact ⟨rfl, rfl⟩

theorem staticReject_storeKept (d : Dev) (off : Nat) (val : Word) : StoreKept d (staticReject d off val) := by
  have recorded : StoreKept d (liveSet (bumpSat d offEpcStaticRejectCount 31 0) offEpcStaticRejectAddr (BitVec.ofNat 32 off)) :=
    ⟨bumpSat_epc _ _ _ _, (bumpSat_only _ _ _ _).regs.act⟩
  unfold staticReject
  exact recorded.trans (raiseErr_storeKept _ _ _ _ _)

theorem reservedCode_storeKept (d : Dev) (off : Nat) (val : Word) : StoreKept d (reservedCode d off val) := by
  unfold reservedCode
  extract_lets b o x
  have selector : StoreKept d x := by
    show StoreKept d (if _ then _ else _)
    split <;> exact ⟨rfl, rfl⟩
  exact selector.trans (raiseErr_storeKept _ _ _ _ _)

theorem regStore_storeKept (d : Dev) (off : Nat) (val : Word) : StoreKept d (regStore d off val).1 := by
  unfold regStore
  split
  · exact .refl d
  · extract_lets a x
    have fields : StoreKept d a.1 :=
      List.foldlRecOn (motive := fun acc => StoreKept d acc.1) _ _ (.refl d) fun acc h f _ => h.trans (fieldWrite_storeKept off val acc f)
    have codes : StoreKept d x := by
      show StoreKept d (if _ then _ else _)
      split
      · exact fields.trans (reservedCode_storeKept _ _ _)
      · exact fields
    show StoreKept d (if _ then _ else _)
    split
    · exact codes.trans (staticReject_storeKept _ _ _)
    · exact codes

theorem writeRecords_storeKept (p : List Byte) (d : Dev) : StoreKept d (writeRecords p d) := by
  unfold writeRecords
  split
  · exact .foldl (fun d (w : Nat × Word) => regStore_storeKept d w.1 w.2) _ d
  · exact .refl d

/-- The cutoff has passed. -/
def cutoffSet (d : Dev) : Dev := { d with epc := { d.epc with cutoff := true } }

/-- The sections of a reload that hold register writes are written. -/
def writesLanded (l : Reload) (d : Dev) : Dev :=
  [0x13, 0x19].foldl (fun d t =>
    (l.secs.filter fun s => decide (s.type = t)).foldl (fun d s => writeRecords s.data d) d) d

theorem writesLanded_storeKept (l : Reload) (d : Dev) : StoreKept d (writesLanded l d) := by
  unfold writesLanded
  exact .foldl (fun d _ => .foldl (fun d (s : ReloadSec) => writeRecords_storeKept s.data d) _ d) _ d

/-- A commit that meets a reload still LOADING is refused. -/
def commitRefused (d : Dev) : Dev :=
  raiseErr (setResult (setPending (cutoffSet d) none) .reload) (srcOf blkEpc 0) 0x0103 (BitVec.ofNat 32 (d.epc.epoch + 1)) 0

/-- A commit that meets a reload joins it. -/
def commitJoined (l : Reload) (d : Dev) : Dev :=
  let w := writesLanded l (cutoffSet d)
  { w with epc := { w.epc with joined := true } }

section
variable {d : Dev}

theorem commitCutoff_again (h : d.epc.cutoff = true) : commitCutoff d = d := if_pos h

variable (first : d.epc.cutoff = false)
include first

theorem commitCutoff_alone (h : d.epc.commit ≠ some (d.epc.epoch + 1) ∨ fatal d = true ∨ d.boot.reload = none) :
    commitCutoff d = cutoffSet d := by
  rw [commitCutoff, if_neg (by simp [first])]
  extract_lets epc x
  have reload : x.boot.reload = d.boot.reload := rfl
  split
  · next meets =>
    obtain ⟨named, alive⟩ : d.epc.commit = some (d.epc.epoch + 1) ∧ fatal d = false := meets
    rw [reload, ((h.resolve_left (not_not_intro named)).resolve_left (by simp [alive]))]
    rfl
  · rfl

theorem commitCutoff_meets {l : Reload} (named : d.epc.commit = some (d.epc.epoch + 1)) (alive : fatal d = false)
    (reload : d.boot.reload = some l) :
    commitCutoff d = if reloadState d = 1 then commitRefused d else commitJoined l d := by
  rw [commitCutoff, if_neg (by simp [first])]
  extract_lets epc x
  rw [if_pos ⟨named, alive⟩, show x.boot.reload = some l from reload]
  rfl

end

theorem commitRefused_status (d : Dev) : liveF (commitRefused d) offEpcCommitStatus 2 0 = 6 := by
  have only := raiseErr_err (srcOf blkEpc 0) 0x0103 (BitVec.ofNat 32 (d.epc.epoch + 1)) 0
    (.refl (setResult (setPending (cutoffSet d) none) .reload))
  rw [commitRefused, liveF, only.regs.live _ (by decide)]
  exact liveF_setResult _ _

theorem commitRefused_quiet (d : Dev) : Quiet d (commitRefused d) := by
  have passed : Quiet d (cutoffSet d) := ⟨id, rfl, rfl, rfl, rfl, id, rfl, rfl⟩
  exact raiseErr_quiet _ _ _ _ _ (setResult_quiet _ _ (setPending_quiet _ _ passed))

theorem commitRefused_commit (d : Dev) : (commitRefused d).epc.commit = none := by
  rw [commitRefused, (raiseErr_storeKept _ _ _ _ _).epc]
  rfl

theorem commitJoined_epc (l : Reload) (d : Dev) : (commitJoined l d).epc = { d.epc with cutoff := true, joined := true } := by
  have landed := (writesLanded_storeKept l (cutoffSet d)).epc
  rw [commitJoined, landed]
  rfl

theorem commitJoined_act (l : Reload) (d : Dev) : (commitJoined l d).regs.act = d.regs.act :=
  (writesLanded_storeKept l (cutoffSet d)).act

/-! ### The load of the timebase (R29, R31) -/

/-- The epoch that loads begins at or after the lock and a nominal epoch or more after the FREE epoch began; no earlier one does. -/
theorem loadEpoch_first (d : Dev) (lock : Int) :
    3 * lock + 3 * d.servo.base ≤ 16000000 * (loadEpoch d lock : Int) ∧
    d.servo.epochAt + 16000000 + 3 * d.servo.base ≤ 16000000 * (loadEpoch d lock : Int) ∧
    ∀ e : Nat, e < loadEpoch d lock → 16000000 * (e : Int) < 3 * lock + 3 * d.servo.base ∨
      16000000 * (e : Int) < d.servo.epochAt + 16000000 + 3 * d.servo.base := by
  unfold loadEpoch
  extract_lets t
  have ht : t = max (3 * lock) (d.servo.epochAt + 16000000) + 3 * d.servo.base := rfl
  exact ⟨by omega, by omega, fun e he => by omega⟩

/-- The device at the end of its last FREE epoch, with the labels that the load moves. -/
def loadMoved (d : Dev) (lock : Int) : Dev := moveLabels ((loadEpoch d lock : Int) - ((d.epc.epoch : Int) + 1)) (epochEnds d)

/-- A pending commit is cancelled by the load. -/
def commitDropped (d : Dev) : Dev := if d.epc.commit.isSome = true then setResult (setPending d none) .cancelled else d

theorem commitDropped_servo (d : Dev) : (commitDropped d).servo = d.servo := by
  unfold commitDropped
  split
  · rw [setResult, liveSetF_servo, setPending, liveSetB_servo]
  · rfl

theorem commitDropped_path (d : Dev) : (commitDropped d).path = d.path := by
  unfold commitDropped
  split
  · rw [setResult, liveSetF_path, setPending, liveSetB_path]
  · rfl

/-- TIMEBASE is PTP and the media epoch has begun. -/
def loadBegun (d : Dev) (lock : Int) : Dev :=
  epochBegins (loadEpoch d lock) (16000000 * (loadEpoch d lock : Int) - 3 * d.servo.base)
    (setTimebase { commitDropped (loadMoved d lock) with
      servo := { (loadMoved d lock).servo with lockedAt := none }
      path := { (loadMoved d lock).path with loadEpoch := loadEpoch d lock % 2 ^ 48 } } 1)

theorem timebaseLoad_loads {d : Dev} {lock : Int} (locked : d.servo.lockedAt = some lock) (free : timebase d = 0)
    (up : d.boot.phase ≠ .reset) : timebaseLoad d =
      epochActions (genMakeAll (genLoaded (loadBegun d lock)) (loadEpoch d lock % 2 ^ 48)) := by
  rw [timebaseLoad, locked]
  dsimp -zeta only
  rw [if_neg (by simp [free, up]), loadBegun, ← commitDropped_servo (loadMoved d lock), ← commitDropped_path (loadMoved d lock)]
  rfl

theorem timebaseLoad_idle {d : Dev} (h : d.servo.lockedAt = none ∨ timebase d ≠ 0 ∨ d.boot.phase = .reset) : timebaseLoad d = d := by
  unfold timebaseLoad
  split
  · rfl
  · next lock locked => exact if_pos (h.resolve_left (by simp [locked]))

theorem timebaseLoad_epoch {d : Dev} {lock : Int} (locked : d.servo.lockedAt = some lock) (free : timebase d = 0)
    (up : d.boot.phase ≠ .reset) : (timebaseLoad d).epc.epoch = loadEpoch d lock % 2 ^ 48 := by
  have made : Quiet (loadBegun d lock) (genMakeAll (genLoaded (loadBegun d lock)) (loadEpoch d lock % 2 ^ 48)) :=
    genMakeAll_quiet _ _ (genLoaded_quiet _ (.refl _))
  rw [timebaseLoad_loads locked free up, (epochActions_committed _).epoch, made.epoch]
  exact epochBegins_epoch _ _ _

/-! ### The three commands -/

/-- Settles O36: each command by the lemma for the case it is in; that an epoch start leaves the active copies but for its commit is
`epochActions_committed`, and the bounds of the loaded epoch are `loadEpoch_first`. -/
theorem epochsBeginAndCommitsApply : Obligations.EpochsBeginAndCommitsApply := by
  refine ⟨fun s => ⟨fun idle => ?idle, fun begins => ?begins⟩, fun d h => commitApply_idle h, fun d e named due alive => ?applied,
    fun s => ⟨fun h => ?again, fun first h => ?alone,
      fun l first named alive reload => ⟨fun loading => ?refused, fun ready => ?joined⟩⟩,
    fun s lock locked free up => ?loads, fun s h => ?stays⟩
  case idle => exact runs_ran (f := epochStart) rfl (epochStart_idle idle)
  case begins =>
    have committed := epochActions_committed (epochBegins (s.dev.epc.epoch + 1) (s.dev.servo.epochAt + 16000000) (epochEnds s.dev))
    have ended : Quiet s.dev (epochEnds s.dev) := epochEnds_quiet s.dev (.refl _)
    obtain ⟨epoch, act⟩ := committed
    rw [epochBegins_epoch] at epoch act
    rw [epochBegins_act, epochBegins_shadow, ended.act, ended.shadow] at act
    refine runs_ran (f := epochStart) rfl ?_
    rw [epochStart_begins begins]
    exact ⟨rfl, epoch, act⟩
  case applied =>
    have copied := commitApply_due named due alive
    exact ⟨copied.act, copied.shadow, copied.epoch⟩
  case again => exact runs_ran (f := commitCutoff) rfl (commitCutoff_again h)
  case alone => exact runs_ran (f := commitCutoff) rfl (commitCutoff_alone first h)
  case refused =>
    refine runs_ran (f := commitCutoff) rfl ?_
    rw [commitCutoff_meets first named alive reload, if_pos loading]
    exact ⟨rfl, commitRefused_commit _, commitRefused_status _, (commitRefused_quiet _).shadow⟩
  case joined =>
    refine runs_ran (f := commitCutoff) rfl ?_
    rw [commitCutoff_meets first named alive reload, if_neg ready]
    exact ⟨commitJoined_epc l _, commitJoined_act l _⟩
  case loads =>
    obtain ⟨afterLock, afterFree, least⟩ := loadEpoch_first s.dev lock
    exact runs_ran (f := timebaseLoad) rfl
      ⟨timebaseLoad_loads locked free up, timebaseLoad_epoch locked free up, afterLock, afterFree, least⟩
  case stays => exact runs_ran (f := timebaseLoad) rfl (timebaseLoad_idle h)

end Sys2Proof.Machine
end

section
/-!
Gains that step at zero crossings (R54, R55): what a gain that is set and reported leaves, and what a sample and a timeout make of a
gain that waits.
-/
namespace Sys2Proof.Machine

/-! ### A gain is set and reported -/

/-- b is a but that the gain of signal c is g, and for the register that reports it. -/
structure GainPut (c : GainCh) (g : GainCell) (a b : Dev) : Prop where
  /-- The gain itself. -/
  gain : getGain b c = g
  /-- Every other signal's gain. -/
  others : ∀ e, gainKey e ≠ gainKey c → getGain b e = getGain a e
  /-- The registers. -/
  regs : RegsBut ((gainReg c).toList.map fun r => r.1) a b
  /-- Everything beside the registers and the gains. -/
  rest : { b with regs := a.regs, gains := a.gains } = a

theorem setGain_put (d : Dev) (c : GainCh) (g : GainCell) : GainPut c g d (setGain d c g) :=
  ⟨getGain_setGain d c g, fun _ other => getGain_setGain_other d g other, (RegsBut.refl _ d).other rfl, rfl⟩

section
variable {d a b : Dev} {c : GainCh} {g : GainCell} {off tout : Nat} {pend : Option Nat}

theorem GainPut.liveSetB (h : GainPut c g a b) (reg : gainReg c = some (off, pend, tout)) (i : Nat) (v : Bool) :
    GainPut c g a (liveSetB b off i v) := ⟨h.gain, h.others, h.regs.liveSetB (by simp [reg]), h.rest⟩

theorem putGain_put (d : Dev) (c : GainCh) (g : GainCell) (timedOut : Bool) : GainPut c g d (putGain d c g timedOut) := by
  have set := setGain_put d c g
  unfold putGain
  dsimp only
  split
  · exact set
  · next off pend tout reg =>
    cases pend <;> cases timedOut
    · exact set
    · exact set.liveSetB reg _ _
    · exact set.liveSetB reg _ _
    · exact (set.liveSetB reg _ _).liveSetB reg _ _

/-- PENDING and TIMED_OUT are two bits of one register. -/
theorem gainReg_bits (reg : gainReg c = some (off, pend, tout)) : tout < 32 ∧ ∀ i, pend = some i → i < 32 ∧ i ≠ tout := by
  cases c <;> simp only [gainReg, reduceCtorEq, Option.some.injEq, Prod.mk.injEq] at reg <;> obtain ⟨-, rfl, rfl⟩ := reg <;> simp

theorem liveB_liveSetB_otherBit (d : Dev) (o : Nat) {i j : Nat} (v : Bool) (h : j < 32) (other : i ≠ j) :
    liveB (liveSetB d o j v) o i = liveB d o i := by
  rw [liveB, liveGet_liveSetB, if_pos rfl, bit_setBit _ _ _ h, if_neg other, liveB]

theorem putGain_pending {i : Nat} (reg : gainReg c = some (off, some i, tout)) (timedOut : Bool) :
    liveB (putGain d c g timedOut) off i = g.want.isSome := by
  obtain ⟨high, bits⟩ := gainReg_bits reg
  obtain ⟨low, ne⟩ := bits i rfl
  simp only [putGain, reg]
  split
  · rw [liveB_liveSetB_otherBit _ _ _ high ne, liveB_liveSetB_same _ _ _ low]
  · exact liveB_liveSetB_same _ _ _ low

theorem putGain_timedOut (reg : gainReg c = some (off, pend, tout)) : liveB (putGain d c g true) off tout = true := by
  simp only [putGain, reg, if_true]
  exact liveB_liveSetB_same _ _ _ (gainReg_bits reg).1

end

/-! ### A sample and the timeout -/

theorem crossing_iff (p x : Int) : crossing p x = true ↔ x = 0 ∨ (0 < p ∧ x < 0) ∨ (p < 0 ∧ 0 < x) := by
  simp [crossing, or_assoc]

section
variable {d : Dev} {c : GainCh} {w x : Int}

theorem zeroCrossing_taken (still : (getGain d c).ramp = none) (waits : (getGain d c).want = some w)
    (cross : crossing (getGain d c).prev x = true) :
    zeroCrossing c x d = putGain d c { getGain d c with cur := w, want := none, count := 0, prev := x } false := by
  simp only [zeroCrossing, still, waits, cross, if_true]

theorem zeroCrossing_remembered
    (h : (getGain d c).ramp ≠ none ∨ (getGain d c).want = none ∨ crossing (getGain d c).prev x = false) :
    zeroCrossing c x d = setGain d c { getGain d c with prev := x } := by
  unfold zeroCrossing
  dsimp only
  split
  · next still waits =>
    have apart : crossing (getGain d c).prev x = false := by simpa [still, waits] using h
    rw [apart]
    rfl
  · rfl

theorem zcTimeout_waiting (still : (getGain d c).ramp = none) (waits : (getGain d c).want = some w) : zcTimeout c d =
    putGain d c { getGain d c with want := none, count := 0, ramp := some ((getGain d c).cur, w, 0) } true := by
  simp only [zcTimeout, still, waits]

theorem zcTimeout_idle (h : (getGain d c).ramp ≠ none ∨ (getGain d c).want = none) : zcTimeout c d = d := by
  unfold zcTimeout
  dsimp only
  split
  · next still waits => simp [still, waits] at h
  · rfl

end

/-- Settles O18: each event's equation for the state it finds, and what a gain that is set and reported leaves (`putGain_put`). -/
theorem gainChangesWaitForACrossing : Obligations.GainChangesWaitForACrossing := by
  refine ⟨fun s ch x w ok still waits => ⟨fun cross => ?taken, fun apart => ?apart, ?timeout⟩,
    fun s ch x ok idle => ⟨?sample, ?late⟩⟩
  case taken =>
    refine runs_ranIf (f := zeroCrossing ch x) rfl ok ?_
    rw [zeroCrossing_taken still waits ((crossing_iff _ _).mpr cross)]
    obtain ⟨gain, others, regs, rest⟩ :=
      putGain_put s.dev ch { getGain s.dev ch with cur := w, want := none, count := 0, prev := x } false
    exact ⟨gain, others, fun off b t reg => putGain_pending reg false, regs, rest⟩
  case apart =>
    have kept : crossing (getGain s.dev ch).prev x = false := by rwa [← Bool.not_eq_true, crossing_iff]
    exact runs_ranIf (f := zeroCrossing ch x) rfl ok (zeroCrossing_remembered (.inr (.inr kept)))
  case timeout =>
    refine runs_ranIf (f := zcTimeout ch) rfl ok ?_
    rw [zcTimeout_waiting still waits]
    obtain ⟨gain, others, regs, rest⟩ :=
      putGain_put s.dev ch { getGain s.dev ch with want := none, count := 0, ramp := some ((getGain s.dev ch).cur, w, 0) } true
    refine ⟨gain, others, fun off b t reg => ⟨putGain_timedOut reg, fun i pend => ?_⟩, regs, rest⟩
    exact putGain_pending (pend ▸ reg) true
  case sample => exact runs_ranIf (f := zeroCrossing ch x) rfl ok (zeroCrossing_remembered (idle.imp_right .inl))
  case late => exact runs_ranIf (f := zcTimeout ch) rfl ok (zcTimeout_idle idle)

end Sys2Proof.Machine
end

section
/-!
The fill of a delay ring (R137, R138), the entries that a lane is left with (R145), the end of a hold (R152) and the start of a sweep (R59).
-/
namespace Sys2Proof.Machine

/-! ### Samples of a list -/

theorem sampleAt_append (l m : List Int) (i : Nat) :
    sampleAt (l ++ m) i = if i < l.length then sampleAt l i else sampleAt m (i - l.length) := by
  unfold sampleAt
  split
  · next low => exact List.getD_append _ _ _ _ low
  · next high => exact List.getD_append_right _ _ _ _ (Nat.le_of_not_lt high)

theorem sampleAt_map_range (f : Nat → Int) {n i : Nat} (h : i < n) : sampleAt ((List.range n).map f) i = f i := by
  simp [sampleAt, List.getD_eq_getElem?_getD, h]

theorem sampleAt_take (l : List Int) {n i : Nat} (h : i < n) : sampleAt (l.take n) i = sampleAt l i := by
  simp [sampleAt, List.getD_eq_getElem?_getD, List.getElem?_take_of_lt h]

theorem sampleAt_replicate_zero (n i : Nat) : sampleAt (List.replicate n 0) i = 0 := by
  unfold sampleAt
  by_cases low : i < n
  · rw [List.getD_replicate 0 low]
  · exact List.getD_eq_default _ _ (by simpa using low)

/-! ### The render DMA fills a ring -/

/-- The words that a fill moves on to make room for n new ones: a ring left out is silent. -/
def ringMoved (n : Nat) (l : List Int) : List Int :=
  if l.isEmpty then List.replicate (ringWords - n) 0 else l.take (ringWords - n)

theorem sampleAt_ringMoved {n i : Nat} (l : List Int) (h : i < ringWords - n) : sampleAt (ringMoved n l) i = sampleAt l i := by
  unfold ringMoved
  split
  · next silent => rw [sampleAt_replicate_zero, List.isEmpty_iff.mp silent, sampleAt, List.getD_nil]
  · exact sampleAt_take l h

/-- The newest words of object s at its bulk delay, as its line holds them. -/
def ringFresh (d : Dev) (s k : Nat) : List Int :=
  (List.range k).map fun j =>
    lineSample (blockN d) d.epc.epoch (mapGet (fun _ => []) d.xp.lines s) (ringTop (ringDelay d s) + j)

/-- What the fill makes of the words of ring s. -/
def ringFilling (d : Dev) (s : Nat) : List Int :=
  if ringDelay d s = (objRing d s).1 then ringFresh d s (blockN d) ++ ringMoved (blockN d) (objRing d s).2
  else ringFresh d s ringWords

theorem ringFill_eq (s : Nat) (d : Dev) : ringFill s d = setObjRing d s (ringDelay d s, ringFilling d s) := rfl

theorem sampleAt_ringFilling (d : Dev) (s : Nat) {j : Nat} (h : j < ringWords) : sampleAt (ringFilling d s) j =
    if ringDelay d s = (objRing d s).1 ∧ blockN d ≤ j then sampleAt (objRing d s).2 (j - blockN d)
    else lineSample (blockN d) d.epc.epoch (mapGet (fun _ => []) d.xp.lines s) (ringTop (ringDelay d s) + j) := by
  unfold ringFilling
  by_cases same : ringDelay d s = (objRing d s).1
  · have length : (ringFresh d s (blockN d)).length = blockN d := by simp [ringFresh]
    rw [if_pos same, sampleAt_append, length]
    by_cases new : j < blockN d
    · rw [if_pos new, if_neg fun both => absurd both.2 (by omega), ringFresh, sampleAt_map_range _ new]
    · rw [if_neg new, if_pos ⟨same, by omega⟩, sampleAt_ringMoved _ (by omega)]
  · rw [if_neg same, if_neg fun both => same both.1, ringFresh, sampleAt_map_range _ h]

theorem objRing_setObjRing_same (d : Dev) (s : Nat) (r : Nat × List Int) : objRing (setObjRing d s r) s = (r.1, trimZeros r.2) :=
  mapGet_mapSet_self _ _ _ _

theorem objRing_setObjRing_other (d : Dev) {s i : Nat} (r : Nat × List Int) (h : i ≠ s) :
    objRing (setObjRing d s r) i = objRing d i := mapGet_mapSet_other _ _ _ h

/-! ### The lanes go on -/

/-- What the lanes have as they go through their entries: the banks with the saturated targets, the lanes that wait, and the entries
left over, the last one first. -/
abbrev LaneAcc := (List (Nat × List Int) × List Nat) × List Nat × List (Nat × XpEntry)

/-- The lanes come to one entry: it is left over where its lane waits already or its ring is not filled. -/
def laneStep (d : Dev) (a : Audio) (x : LaneAcc) (w : Nat × XpEntry) : LaneAcc :=
  if x.2.1.contains w.1 || decide (w.2.src < 1024) && d.xp.waiting.contains w.2.src then (x.1, setIns x.2.1 w.1, w :: x.2.2)
  else (laneEntry d (blockN d) a x.1 (w.1, heardEntry d w.2), x.2)

theorem lanesGo_none {d : Dev} (h : arrived d = none) : lanesGo d = d := by
  rw [lanesGo, h]

theorem lanesGo_some {d : Dev} {b : Nat} {a : Audio} (h : arrived d = some (b, a)) : lanesGo d =
    let r := d.xp.work.foldl (laneStep d a) ((d.xp.banks, d.xp.satTargets), [], [])
    { d with xp := { d.xp with banks := r.1.1, satTargets := r.1.2, work := r.2.2.reverse } } := by
  rw [lanesGo, h]
  rfl

/-- Of the entries left over, the first of each lane waits for its ring. -/
def FirstWaits (waiting : List Nat) (work : List (Nat × XpEntry)) : Prop :=
  ∀ l w, work.find? (fun v => decide (v.1 = l)) = some w → w.2.src < 1024 ∧ w.2.src ∈ waiting

/-- Every lane that waits has an entry left over, the first of which waits for its ring. -/
structure LanesWait (waiting : List Nat) (x : LaneAcc) : Prop where
  /-- The entries that the lanes wait at. -/
  lanes : ∀ l ∈ x.2.1, ∃ w ∈ x.2.2, w.1 = l
  /-- The entries in pool order. -/
  first : FirstWaits waiting x.2.2.reverse

theorem lanesWait_start (waiting : List Nat) (banks : List (Nat × List Int) × List Nat) : LanesWait waiting (banks, [], []) :=
  ⟨by simp, by simp [FirstWaits]⟩

theorem laneStep_wait {d : Dev} {a : Audio} {x : LaneAcc} (h : LanesWait d.xp.waiting x) (w : Nat × XpEntry) :
    LanesWait d.xp.waiting (laneStep d a x w) := by
  unfold laneStep
  split
  · next left =>
    constructor
    · intro l hl
      rcases mem_setIns.mp hl with rfl | old
      · exact ⟨w, List.mem_cons_self, rfl⟩
      · obtain ⟨v, hv, lane⟩ := h.lanes l old
        exact ⟨v, List.mem_cons_of_mem w hv, lane⟩
    · intro l v found
      rw [List.reverse_cons, List.find?_append, Option.or_eq_some_iff] at found
      rcases found with before | ⟨absent, here⟩
      · exact h.first l v before
      · rw [List.find?_singleton, Option.ite_none_right_eq_some, decide_eq_true_iff, Option.some.injEq] at here
        obtain ⟨rfl, rfl⟩ := here
        have free : w.1 ∉ x.2.1 := fun held => by
          obtain ⟨u, hu, lane⟩ := h.lanes _ held
          exact List.find?_eq_none.mp absent u (List.mem_reverse.mpr hu) (decide_eq_true lane)
        simpa [free] using left
  · exact ⟨h.lanes, h.first⟩

theorem lanesGo_firstWaits {d : Dev} (h : arrived d ≠ none) : FirstWaits d.xp.waiting (lanesGo d).xp.work := by
  obtain ⟨⟨b, a⟩, came⟩ := Option.ne_none_iff_exists'.mp h
  rw [lanesGo_some came]
  exact (List.foldlRecOn (motive := LanesWait d.xp.waiting) _ _ (lanesWait_start _ _) fun x hx w _ => laneStep_wait hx w).first

/-- What the lanes leave of XP as they go on, and all beside it. -/
structure LanesWent (a b : Dev) : Prop where
  /-- The rings. -/
  rings : b.xp.rings = a.xp.rings
  /-- The bulk lines. -/
  lines : b.xp.lines = a.xp.lines
  /-- The slots that wait. -/
  waiting : b.xp.waiting = a.xp.waiting
  /-- Everything beside XP. -/
  rest : { b with xp := a.xp } = a

theorem lanesGo_went (d : Dev) : LanesWent d (lanesGo d) := by
  cases h : arrived d with
  | none => rw [lanesGo_none h]; exact ⟨rfl, rfl, rfl, rfl⟩
  | some _ => rw [lanesGo_some h]; exact ⟨rfl, rfl, rfl, rfl⟩

/-! ### RING_FILLED -/

/-- Ring s is filled and waits no more. -/
def ringReady (s : Nat) (d : Dev) : Dev := { ringFill s d with xp := { (ringFill s d).xp with waiting := setDel d.xp.waiting s } }

theorem ringFilled_lowest {s : Nat} {d : Dev} (h : d.xp.waiting.head? = some s) : ringFilled s d = lanesGo (ringReady s d) := if_pos h

theorem ringFilled_other {s : Nat} {d : Dev} (h : d.xp.waiting.head? ≠ some s) : ringFilled s d = d := if_neg h

/-! ### SHED_HOLD_EXPIRY and SWEEP_START -/

section
variable {s g : Nat} {d : Dev}

theorem holdExpiry_due (h : ∃ p ∈ d.xp.holds, p.1 = s ∧ p.2.1 ≤ d.epc.epoch) : holdExpiry s d =
    liveSetB { d with xp := { d.xp with holds := d.xp.holds.filter fun p => decide (p.1 ≠ s) } } (offXpObjStatus s) 28 false := by
  refine if_pos (List.any_eq_true.mpr ?_)
  obtain ⟨p, hp, due⟩ := h
  exact ⟨p, hp, decide_eq_true due⟩

theorem holdExpiry_early (h : ∀ p ∈ d.xp.holds, p.1 = s → d.epc.epoch < p.2.1) : holdExpiry s d = d := by
  refine if_neg fun held => ?_
  obtain ⟨p, hp, due⟩ := List.any_eq_true.mp held
  obtain ⟨slot, ended⟩ := of_decide_eq_true due
  exact absurd (h p hp slot) (Nat.not_lt.mpr ended)

theorem sweepStart_sweeping {r : GenRec} {t : List GenRec} (recs : (getGen d g).recs = r :: t) (kind : r.kind = 3) : sweepStart g d =
    let now := sweepAt (blockN d) r.sweep r.inForce r.later (blockN d * d.epc.epoch + d.epc.period * blockN d / 64)
    setGen d g { getGen d g with recs := { r with sweep := now.1, inForce := now.2.1, later := now.2.2 } :: t } := by
  simp only [sweepStart, recs, kind, ne_eq, not_true_eq_false, if_false]

theorem sweepStart_other (h : ∀ (r : GenRec) (t : List GenRec), (getGen d g).recs = r :: t → r.kind ≠ 3) : sweepStart g d = d := by
  cases recs : (getGen d g).recs with
  | nil => simp only [sweepStart, recs]
  | cons r t => simp only [sweepStart, recs, if_pos (h r t recs)]

end

/-- Settles O20: the filled ring by `sampleAt_ringFilling`, the lanes by `lanesGo_firstWaits`; a hold and a sweep by their equations. -/
theorem holdsSweepsAndRings : Obligations.HoldsSweepsAndRings := by
  refine ⟨fun s k hk other => ?other, fun s k hk lowest => ?fill, fun s k hk => ⟨fun due => ?due, fun early => ?early⟩,
    fun s g hg => ⟨fun r t recs kind => ?sweep, fun still => ?still⟩⟩
  case other => exact runs_ranIf (f := ringFilled k) rfl (decide_eq_true hk) (ringFilled_other other)
  case fill =>
    refine runs_ranIf (f := ringFilled k) rfl (decide_eq_true hk) ?_
    rw [ringFilled_lowest lowest]
    obtain ⟨rings, lines, waiting, rest⟩ := lanesGo_went (ringReady k s.dev)
    have ring (i : Nat) : objRing (lanesGo (ringReady k s.dev)) i = objRing (ringFill k s.dev) i := by
      rw [objRing, rings]
      rfl
    have own : objRing (lanesGo (ringReady k s.dev)) k = (ringDelay s.dev k, trimZeros (ringFilling s.dev k)) := by
      rw [ring, ringFill_eq, objRing_setObjRing_same]
    refine ⟨by rw [own], fun j hj => ?words, fun i hi => ?others, waiting, lines, fun came w => ?work, ?rest⟩
    case words => rw [own, sampleAt_trimZeros, sampleAt_ringFilling s.dev k hj]
    case others => rw [ring, ringFill_eq, objRing_setObjRing_other _ _ hi]
    case work =>
      rw [waiting]
      exact lanesGo_firstWaits (d := ringReady k s.dev) came w.1 w
    case rest => exact congrArg (fun d : Dev => { d with xp := s.dev.xp }) rest
  case due => exact runs_ranIf (f := holdExpiry k) rfl (decide_eq_true hk) (holdExpiry_due due)
  case early => exact runs_ranIf (f := holdExpiry k) rfl (decide_eq_true hk) (holdExpiry_early early)
  case sweep => exact runs_ranIf (f := sweepStart g) rfl (decide_eq_true hg) (sweepStart_sweeping recs kind)
  case still => exact runs_ranIf (f := sweepStart g) rfl (decide_eq_true hg) (sweepStart_other still)

end Sys2Proof.Machine
end

section
/-!
An engine period (R64, R66, R69, R83) and the settling of an input slot (R81).
-/
namespace Sys2Proof.Machine

/-! ### An engine period leaves the epoch controller -/

theorem PathKept.liveSetB {a b : Dev} (h : PathKept a b) (o i : Nat) (v : Bool) : PathKept a (liveSetB b o i v) := h.liveSet _ _

theorem PathKept.liveSetF {a b : Dev} (h : PathKept a b) (o hi lo v : Nat) : PathKept a (liveSetF b o hi lo v) := h.liveSet _ _

theorem PathKept.bump {a b : Dev} (h : PathKept a b) (o : Nat) : PathKept a (bump b o) := h.liveSet _ _

theorem PathKept.slotReport {a b : Dev} (h : PathKept a b) (s : Nat) (uns : Bool) (left : Nat) :
    PathKept a (slotReport b s uns left) := h.liveSet _ _

theorem PathKept.setPlane {a b : Dev} (h : PathKept a b) (x : Nat) (p : Plane) : PathKept a (setPlane b x p) :=
  h.trans ⟨setPlane_path b x p, setPlane_epc b x p⟩

theorem PathKept.setSlot {a b : Dev} (h : PathKept a b) (s : Nat) (x : CndSlot) : PathKept a (setSlot b s x) :=
  h.trans ⟨setSlot_path b s x, setSlot_epc b s x⟩

/-- A choice between devices that come with a value. -/
theorem PathKept.iteFst {α : Type} {a : Dev} {p q : Dev × α} {c : Prop} [Decidable c] (h : PathKept a p.1) (k : PathKept a q.1) :
    PathKept a (if c then p else q).1 := by
  split <;> assumption

theorem restarted_pathKept (d : Dev) (x s : Nat) : PathKept d (restarted d x s) := by
  have shown := (PathKept.refl d).liveSetB (offNetRxsStat x s) 29 true
  exact .ite (shown.liveSetB _ _ _) shown

theorem ringsTick_pathKept (per x : Nat) (d : Dev) : PathKept d (ringsTick per x d) := by
  refine .foldl (fun d s => ?_) (.refl d) _
  have ring (r : RxRing) : PathKept d (setRing d x s r) := (PathKept.refl d).setPlane _ _
  refine .ite ?_ (ring _)
  extract_lets a taken given
  have again : PathKept d given := .ite ((ring a.1).trans (restarted_pathKept _ _ _)) (ring a.1)
  exact .ite again ((again.liveSet _ _).setPlane _ _)

theorem slotReports_pathKept (d : Dev) : PathKept d (slotReports d) := by
  unfold slotReports
  extract_lets selected
  have reported : PathKept d selected := .foldl (fun d _ => (PathKept.refl d).liveSet _ _) (.refl d) _
  exact .ite reported (.foldl (fun d _ => (PathKept.refl d).liveSet _ _) reported _)

theorem countEntered_pathKept (d : Dev) (s : Nat) : PathKept d (countEntered d s) := ⟨rfl, rfl⟩

theorem slotReset_pathKept (d : Dev) (s : Nat) (x : CndSlot) : PathKept d (slotReset d s x).1 := by
  unfold slotReset
  extract_lets big uns noted enter entered counted reported dc
  have h : PathKept d noted := ((PathKept.refl d).bump _).liveSetB _ _ _
  have h1 : PathKept d entered := .ite (h.trans (countEntered_pathKept _ _)) h
  have h2 : PathKept d counted := .ite h1 (h1.liveSetF _ _ _ _)
  exact (h2.slotReport _ _ _).liveSet _ _

theorem slotBlock_pathKept (d : Dev) (s : Nat) : PathKept d (slotBlock d s) := by
  unfold slotBlock
  extract_lets n x cfg new land landed conv filt convCh srcCh out turned trimmed mode restartHere y a kept
  have h : PathKept d a.1 := .iteFst (slotReset_pathKept _ _ _) (.refl d)
  have h1 : PathKept d kept := h.setSlot _ _
  exact (h1.liveSet _ _).trans (putGain_path _ _ _ _)

theorem slotOutput_pathKept (d : Dev) (s per : Nat) (x : CndSlot) : PathKept d (slotOutput d s per x).1 := by
  unfold slotOutput
  extract_lets n cfg c saturated b estimated g raw stepped clip clipped counted line k y big uns shown
  have h : PathKept d saturated := .ite ((PathKept.refl d).liveSetB _ _ _) (.refl d)
  have h1 : PathKept d estimated := .ite h (h.liveSet _ _)
  have h2 : PathKept d stepped := h1.trans ((putGain_path _ _ _ _).trans (noteGain_path _ _ _))
  have h3 : PathKept d clipped := .ite (h2.liveSetB _ _ _) h2
  have h4 : PathKept d counted := .ite (h3.bumpSat _ _ _) h3
  exact .ite (h4.liveSet _ _) h4

theorem slotVisit_pathKept (per : Nat) (d : Dev) (s : Nat) : PathKept d (slotVisit per d s) := by
  unfold slotVisit
  extract_lets n x m curve v landed r y z a b
  have h : PathKept d r.1 := .iteFst (.refl d) (.iteFst (.refl d) (.iteFst (.refl d) (slotReset_pathKept _ _ _)))
  have h1 : PathKept d a.1 := .iteFst h h
  have h2 : PathKept d b.1 := .iteFst (h1.trans (slotOutput_pathKept _ _ _ _)) h1
  exact h2.setSlot _ _

theorem serialTaken_pathKept (d : Dev) (per : Nat) : PathKept d (serialTaken d per) := by
  refine .foldl (fun d p => ?_) (.refl d) _
  extract_lets m
  split
  · exact .ite ⟨rfl, rfl⟩ (.refl d)
  · exact .refl d

/-! ### What an engine period does (R64, R69) -/

/-- The device once both planes' rings have given their samples and the first period has reported the selectors and idle slots. -/
def periodGiven (per : Nat) (d : Dev) : Dev :=
  let g := ringsTick per 1 (ringsTick per 0 d)
  if g.epc.period = 0 then slotReports g else g

/-- The visit of the slots in rising order; in the first period they take the changes of the epoch before it. -/
def slotsVisited (per : Nat) (d : Dev) : Dev :=
  (liveSlots d).foldl (slotVisit per) (if d.epc.period = 0 then (liveSlots d).foldl slotBlock d else d)

/-- All that an engine period does, but that it is counted. -/
def periodServed (d : Dev) : Dev :=
  let given := periodGiven (nowPeriod d) d
  serialTaken (if running given blkCnd = true then slotsVisited (nowPeriod d) given else given) (nowPeriod d)

theorem enginePeriod_due {d : Dev} (due : d.epc.period < 64) : enginePeriod d =
    { periodServed d with epc := { (periodServed d).epc with period := (periodServed d).epc.period + 1 } } := if_pos due

theorem enginePeriod_served {d : Dev} (served : 64 ≤ d.epc.period) : enginePeriod d = d := if_neg (Nat.not_lt.mpr served)

theorem rings_pathKept (per : Nat) (d : Dev) : PathKept d (ringsTick per 1 (ringsTick per 0 d)) :=
  (ringsTick_pathKept per 0 d).trans (ringsTick_pathKept per 1 _)

theorem periodGiven_pathKept (per : Nat) (d : Dev) : PathKept d (periodGiven per d) :=
  .ite ((rings_pathKept per d).trans (slotReports_pathKept _)) (rings_pathKept per d)

theorem slotsVisited_pathKept (per : Nat) (d : Dev) : PathKept d (slotsVisited per d) :=
  .foldl (slotVisit_pathKept per) (.ite (.foldl slotBlock_pathKept (.refl d) _) (.refl d)) _

theorem periodServed_pathKept (d : Dev) : PathKept d (periodServed d) := by
  have given := periodGiven_pathKept (nowPeriod d) d
  exact (PathKept.ite (given.trans (slotsVisited_pathKept _ _)) given).trans (serialTaken_pathKept _ _)

theorem periodGiven_quiet (per : Nat) (d : Dev) : Quiet d (periodGiven per d) := by
  have rings : Quiet d (ringsTick per 1 (ringsTick per 0 d)) := ringsTick_quiet _ _ _ (ringsTick_quiet _ _ _ (.refl d))
  exact .ite (slotReports_quiet _ rings) rings

theorem slotsVisited_quiet (per : Nat) {o : Dev} (d : Dev) (h : Quiet o d) : Quiet o (slotsVisited per d) :=
  .foldl (fun _ _ => slotVisit_quiet _ _ _ (.refl _)) (.ite (.foldl (fun _ _ => slotBlock_quiet _ _ (.refl _)) h) h)

theorem periodServed_quiet (d : Dev) : Quiet d (periodServed d) := by
  have given := periodGiven_quiet (nowPeriod d) d
  exact serialTaken_quiet _ _ (.ite (slotsVisited_quiet _ _ given) given)

/-- The rings and the reports leave the number of the period, so that each step judges the same period to be the first. -/
theorem periodServed_eq (d : Dev) : periodServed d =
    let per := nowPeriod d
    let given :=
      let g := ringsTick per 1 (ringsTick per 0 d)
      if d.epc.period = 0 then slotReports g else g
    let visit := fun (a : Dev) =>
      (liveSlots given).foldl (slotVisit per) (if d.epc.period = 0 then (liveSlots given).foldl slotBlock a else a)
    serialTaken (if running given blkCnd = true then visit given else given) per := by
  have given : periodGiven (nowPeriod d) d =
      let g := ringsTick (nowPeriod d) 1 (ringsTick (nowPeriod d) 0 d)
      if d.epc.period = 0 then slotReports g else g := by
    rw [periodGiven, (rings_pathKept _ d).epc]
  rw [periodServed, slotsVisited, (periodGiven_pathKept _ d).epc, given]

theorem periodServed_withEpc (d : Dev) : { periodServed d with epc := d.epc } = periodServed d := by
  rw [← (periodServed_pathKept d).epc]

/-! ### The settling of a slot (R81) -/

theorem OnlyWords.slotReport {ws : List Nat} {a b : Dev} {s : Nat} (h : OnlyWords ws a b) (hs : offCndSlotStatus s ∈ ws) (uns : Bool)
    (left : Nat) : OnlyWords ws a (slotReport b s uns left) := h.liveSet hs

/-- What words written after slot s is set leave: the slots are a part of CND, not of the registers. -/
theorem OnlyWords.afterSetSlot {ws : List Nat} {d b : Dev} {s : Nat} {x : CndSlot} (h : OnlyWords ws (setSlot d s x) b) :
    RegsBut ws d b ∧ { b with regs := d.regs, cnd := d.cnd } = d :=
  ⟨((RegsBut.refl ws d).other (setSlot_regs d s x)).trans h.regs, congrArg (fun e : Dev => { e with cnd := d.cnd }) h.rest⟩

section
variable {s : Nat} {d : Dev}

theorem settleFade_begins (uns : (getSlot d s).unsettled = true) (full : convN (getSlot d s).conv (getSlot d s).filt ≤ (getSlot d s).n)
    (early : (getSlot d s).n < convN (getSlot d s).conv (getSlot d s).filt + 16) :
    settleFade s d = setSlot d s { getSlot d s with fading := true } := if_pos ⟨uns, full, early⟩

theorem settleFade_outside (h : ¬((getSlot d s).unsettled = true ∧ convN (getSlot d s).conv (getSlot d s).filt ≤ (getSlot d s).n ∧
    (getSlot d s).n < convN (getSlot d s).conv (getSlot d s).filt + 16)) : settleFade s d = d := if_neg h

theorem settleDone_due (uns : (getSlot d s).unsettled = true)
    (full : convN (getSlot d s).conv (getSlot d s).filt + 16 ≤ (getSlot d s).n) :
    settleDone s d = slotReport (liveSetF (setSlot d s { getSlot d s with unsettled := false, fading := false }) offCndUnsettledNow 10 0
      (liveF d offCndUnsettledNow 10 0 + 2047)) s false 0 := if_pos ⟨uns, full⟩

theorem settleDone_words (uns : (getSlot d s).unsettled = true)
    (full : convN (getSlot d s).conv (getSlot d s).filt + 16 ≤ (getSlot d s).n) :
    OnlyWords [offCndSlotStatus s, offCndUnsettledNow] (setSlot d s { getSlot d s with unsettled := false, fading := false })
      (settleDone s d) := by
  rw [settleDone_due uns full]
  exact ((OnlyWords.refl _ _).liveSetF (by simp)).slotReport (by simp) false 0

theorem settleDone_early (h : ¬((getSlot d s).unsettled = true ∧
    convN (getSlot d s).conv (getSlot d s).filt + 16 ≤ (getSlot d s).n)) : settleDone s d = d := if_neg h

end

theorem slotReport_unsettled (d : Dev) (s : Nat) (uns : Bool) (left : Nat) :
    liveB (slotReport d s uns left) (offCndSlotStatus s) 31 = uns := by
  rw [slotReport, liveB, liveGet_liveSet_same, bit_setBits _ _ _ (by decide) (by decide), if_neg (by decide),
    bit_setBit_same _ _ (by decide)]

theorem slotReport_settleLeft (d : Dev) (s : Nat) (uns : Bool) (left : Nat) :
    liveF (slotReport d s uns left) (offCndSlotStatus s) 14 8 = left % 128 := by
  rw [slotReport, liveF, liveGet_liveSet_same]
  exact bits_setBits_same _ _ (by decide) (by decide)

theorem slotReport_liveF {o s : Nat} (d : Dev) (uns : Bool) (left hi lo : Nat) (h : o ≠ offCndSlotStatus s) :
    liveF (slotReport d s uns left) o hi lo = liveF d o hi lo :=
  congrArg (bits · hi lo) (liveGet_liveSet_other d _ h)

theorem offCndUnsettledNow_ne_slotStatus (k : Nat) : offCndUnsettledNow ≠ offCndSlotStatus k := by
  unfold offCndUnsettledNow offCndSlotStatus
  omega

/-- Settles O19: a slot's events by their equations; an engine period by `enginePeriod_due`, whose steps leave the epoch controller
(`periodServed_pathKept`) and the register copies (`periodServed_quiet`). -/
theorem slotsSettleAfterAReset : Obligations.SlotsSettleAfterAReset := by
  refine ⟨fun s k hk => ⟨fun uns full early => ?begins, fun outside => ?outside, fun uns full => ?settles, fun early => ?unsettled⟩,
    fun s due => ?period, fun s served => ?full⟩
  case begins => exact runs_ranIf (f := settleFade k) rfl (decide_eq_true hk) (settleFade_begins uns full early)
  case outside => exact runs_ranIf (f := settleFade k) rfl (decide_eq_true hk) (settleFade_outside outside)
  case settles =>
    refine runs_ranIf (f := settleDone k) rfl (decide_eq_true hk) ?_
    have words := settleDone_words uns full
    rw [settleDone_due uns full] at words ⊢
    refine ⟨getSlot_setSlot _ _ _, fun j other => getSlot_setSlot_other _ _ other, slotReport_unsettled _ _ _ _,
      slotReport_settleLeft _ _ _ _, ?_, words.afterSetSlot⟩
    rw [slotReport_liveF _ _ _ _ _ (offCndUnsettledNow_ne_slotStatus k)]
    exact liveF_liveSetF_same _ _ _ (by decide) (by decide)
  case unsettled => exact runs_ranIf (f := settleDone k) rfl (decide_eq_true hk) (settleDone_early early)
  case period =>
    have epc := (periodServed_pathKept s.dev).epc
    have quiet := periodServed_quiet s.dev
    refine runs_ran (f := enginePeriod) rfl ?_
    rw [enginePeriod_due due]
    exact ⟨by rw [epc], (periodServed_withEpc s.dev).trans (periodServed_eq s.dev), quiet.shadow, quiet.snap⟩
  case full => exact runs_ran (f := enginePeriod) rfl (enginePeriod_served served)

end Sys2Proof.Machine
end

section
/-!
A live reload (R389, R390): RELOAD_READY where no reload is under way.
-/
namespace Sys2Proof.Machine

section
variable {d : Dev} (idle : d.boot.reload = none)
include idle

theorem loadingSec_noReload (t : Nat) : loadingSec d t = none := by
  rw [loadingSec, idle]

theorem markReady_noReload (t : Nat) : markReady t d = d := by
  rw [markReady, idle]

/-- RELOAD_READY judges nothing without a reload; a load that every core has taken ends all the same. -/
theorem reloadReady_loadTaken {p : List VecRange} (taken : d.vec.load = some (p, [])) :
    reloadReady d = { d with vec := { d.vec with load := none } } := by
  have ended : vecLoaded d = { d with vec := { d.vec with load := none } } := by
    rw [vecLoaded, taken]
    exact markReady_noReload (d := { d with vec := { d.vec with load := none } }) idle 0x16
  simp only [reloadReady, quietTypes, List.foldl_cons, List.foldl_nil, loadingSec_noReload idle, ended, idle]

end

/-- After reset, but that a load of vector programs stands which every core has taken. -/
def loadTaken : State := { State.reset with dev := { State.reset.dev with vec := { State.reset.dev.vec with load := some ([], []) } } }

/-- Refutes O47: the statement has RELOAD_READY change nothing where no reload is under way, but a load of vector programs that every
core has taken ends at it without a reload too, as in `loadTaken`. -/
theorem not_reloadsLoadAndAreRefused : ¬ Obligations.ReloadsLoadAndAreRefused := by
  rintro ⟨-, -, -, filters, -⟩
  obtain ⟨-, -, -, idle⟩ := filters loadTaken
  obtain ⟨⟨t, ran, -, same⟩, -⟩ := idle rfl
  obtain rfl := ran_next.mp ran
  have kept : reloadReady loadTaken.dev = loadTaken.dev := same
  rw [reloadReady_loadTaken rfl rfl] at kept
  exact nomatch congrArg (fun d : Dev => d.vec.load) kept

end Sys2Proof.Machine
end

section
/-!
Metadata sources (R96 to R106): the sequence window, the end of the parse of an S-ADM frame, whose blocks are judged by the active copies
that stood before it, the admission of a record, and the timeout of a window.
-/
namespace Sys2Proof.Machine

/-! ### The sequence window (R101) -/

theorem windowJudge_eq (valid : Bool) (h seq : Nat) (seen : List Nat) : windowJudge valid h seq seen =
    let δ := (seq + 65536 - h) % 65536
    if valid = false then 0 else if δ = 0 then 1 else if δ < 0x8000 then 0
      else if 0x10000 - 511 ≤ δ then (if seq ∈ seen then 1 else 0) else 2 := by
  simp only [windowJudge, ge_iff_le, List.contains_iff_mem]

theorem windowJudge_le_two (valid : Bool) (h seq : Nat) (seen : List Nat) : windowJudge valid h seq seen ≤ 2 := by
  rw [windowJudge_eq]
  dsimp only
  split_ifs <;> decide

/-- What the window of source s judges of a sequence. -/
def windowVerdict (d : Dev) (s seq : Nat) : Nat :=
  windowJudge (bit (liveGet d (offObjMsrcSeq s)) 16) (bits (liveGet d (offObjMsrcSeq s)) 15 0) seq (getSrc d s).seen

section
variable {d : Dev} {s seq : Nat}

/-- A duplicate or an old frame is counted; the window stays. -/
theorem windowTake_refused (refused : 1 ≤ windowVerdict d s seq) :
    windowTake d s seq = (bump d (offObjMsrcCount s (windowVerdict d s seq)), false) := by
  have most : windowVerdict d s seq ≤ 2 := windowJudge_le_two _ _ _ _
  obtain verdict | verdict : windowVerdict d s seq = 1 ∨ windowVerdict d s seq = 2 := by omega
  all_goals
    rw [verdict]
    unfold windowVerdict at verdict
    simp only [windowTake, verdict]
    rfl

/-- An accepted frame enters the window, whose highest sequence is one of 16 bits. -/
theorem windowTake_accepted (short : seq < 65536) (accepted : windowVerdict d s seq = 0) : ∃ h seen, h < 65536 ∧ windowTake d s seq =
    (bump (liveSet (setSrc d s { getSrc d s with seen := seen, last := d.epc.epoch }) (offObjMsrcSeq s) (BitVec.ofNat 32 (65536 + h)))
      (offObjMsrcCount s 0), true) := by
  unfold windowVerdict at accepted
  simp only [windowTake, accepted]
  refine ⟨_, _, ?_, rfl⟩
  split
  · exact short
  · exact bits_lt _ 15 0

end

theorem bit_sixteen_ofNat {h : Nat} (short : h < 65536) : bit (BitVec.ofNat 32 (65536 + h)) 16 = true := by
  have small : (BitVec.ofNat 32 (65536 + h)).toNat = 2 ^ 16 + h := Nat.mod_eq_of_lt (by omega)
  rw [bit, small, Nat.testBit_two_pow_add_eq, Nat.testBit_lt_two_pow short]
  rfl

/-- What the acceptance of a frame counts and notes of its source (R101, R102). -/
theorem windowTake_accepted_source {d : Dev} {s seq : Nat} (short : seq < 65536) (accepted : windowVerdict d s seq = 0) :
    let a := (windowTake d s seq).1
    liveGet a (offObjMsrcCount s 0) = liveGet d (offObjMsrcCount s 0) + 1 ∧ (getSrc a s).last = d.epc.epoch ∧
      liveB a (offObjMsrcSeq s) 16 = true := by
  have apart : offObjMsrcSeq s ≠ offObjMsrcCount s 0 := by
    unfold offObjMsrcSeq offObjMsrcCount
    omega
  obtain ⟨h, seen, bound, taken⟩ := windowTake_accepted short accepted
  rw [taken]
  refine ⟨?_, ?_, ?_⟩
  · rw [liveGet_bump, if_pos rfl, liveGet_liveSet_other _ _ apart.symm]
    rfl
  · exact congrArg ObjSrc.last (getSrc_setSrc d s { getSrc d s with seen := seen, last := d.epc.epoch })
  · rw [liveB, liveGet_bump, if_neg apart, liveGet_liveSet_same, bit_sixteen_ofNat bound]

/-! ### The records of an S-ADM frame (R96 to R98) -/

/-- A block of an S-ADM frame, with its place in the frame, goes as a record to its slot (R97). The slot maps are those active in c. -/
def sadmBlockTake (c : Dev) (s : Nat) (f : SadmFrame) (scale : Nat) (base : Int) (a : Dev) (b : SadmBlock × Nat) : Dev :=
  match sadmRec s scale (f.seq % 65536) b.2 base b.1, sadmSlot c s b.1.id with
  | some r, some n => takeRec a s n r
  | _, _ => bump a (offObjMsrcCount s 4)

theorem actGet_of_act {c d : Dev} (act : d.regs.act = c.regs.act) : actGet d = actGet c := by
  unfold actGet actBank
  rw [act]

theorem sadmSlot_of_act {c d : Dev} (act : d.regs.act = c.regs.act) (s id : Nat) : sadmSlot d s id = sadmSlot c s id := by
  unfold sadmSlot actF actB
  rw [actGet_of_act act]

section
variable {c : Dev} (s : Nat) (f : SadmFrame) (scale : Nat) (base : Int)

theorem sadmBlockTake_act (a : Dev) (b : SadmBlock × Nat) : (sadmBlockTake c s f scale base a b).regs.act = a.regs.act := by
  unfold sadmBlockTake
  split
  · exact (takeRec_quiet _ _ _ _ (.refl a)).act
  · rfl

/-- No record changes the active copies, so that those before the frame judge every block. -/
theorem foldl_sadmBlockTake (l : List (SadmBlock × Nat)) {a : Dev} (act : a.regs.act = c.regs.act) :
    l.foldl (fun a b => sadmBlockTake a s f scale base a b) a = l.foldl (sadmBlockTake c s f scale base) a := by
  induction l generalizing a with
  | nil => rw [List.foldl_nil, List.foldl_nil]
  | cons b t ih =>
    have same : sadmBlockTake a s f scale base a b = sadmBlockTake c s f scale base a b := by
      rw [sadmBlockTake, sadmSlot_of_act act, sadmBlockTake]
    rw [List.foldl_cons, List.foldl_cons, same]
    exact ih ((sadmBlockTake_act s f scale base a b).trans act)

end

/-- A fold that counts its elements beside its value goes over the elements with their places. -/
theorem foldl_counting {α β : Type} (g : β → α × Nat → β) : ∀ (l : List α) (x : β) (k : Nat),
    (l.foldl (fun p a => (g p.1 (a, p.2), p.2 + 1)) (x, k)).1 = (l.zipIdx k).foldl g x
  | [], _, _ => rfl
  | a :: t, x, k => foldl_counting g t (g x (a, k)) (k + 1)

theorem sadmRecords_eq {c d : Dev} (act : d.regs.act = c.regs.act) (s : Nat) (f : SadmFrame) (base : Int) : sadmRecords s f base d =
    (f.formats.take 256).flatten.zipIdx.foldl (sadmBlockTake c s f (actF c (offObjMsrcScale s) 23 0) base)
      (objCount d s 4 (f.formats.length - 256)) := by
  have counted : (objCount d s 4 (f.formats.length - 256)).regs.act = c.regs.act :=
    (objCount_quiet d s 4 _ (.refl d)).act.trans act
  have scale : actF (objCount d s 4 (f.formats.length - 256)) (offObjMsrcScale s) 23 0 = actF c (offObjMsrcScale s) 23 0 := by
    rw [actF, actGet_of_act counted, actF]
  rw [← foldl_sadmBlockTake s f _ base _ counted, ← foldl_counting, List.foldl_flatten, ← scale]
  rfl

/-! ### The end of a parse -/

/-- The device once the packets that carried the frame from p on wait no more, nor those of its stream before them. -/
def sadmCleared (f : SadmFrame) (p : SadmPkt) (d : Dev) : Dev := { d with obj := { d.obj with sadm := sadmTaken f p d.obj.sadm } }

/-- A source that takes S-ADM frames (R99, R100, R102). -/
def SadmOn (d : Dev) (s : Nat) : Prop :=
  running d blkObj = true ∧ actB d (offObjMsrcCfg s) 31 = true ∧ actB d (offObjMsrcCfg s) 30 = true

theorem sadmDone_absent {d : Dev} {s : Nat} {f : SadmFrame}
    (absent : d.obj.sadm.reverse.find? (fun p => decide (p.src = s ∧ p.seq = f.seq % 65536)) = none) : sadmDone s f d = d := by
  rw [sadmDone, absent]

section
variable {d : Dev} {s : Nat} {f : SadmFrame} {p : SadmPkt}
  (found : d.obj.sadm.reverse.find? (fun p => decide (p.src = s ∧ p.seq = f.seq % 65536)) = some p)

include found

theorem sadmCleared_eq : sadmCleared f p d = { d with obj := { d.obj with sadm := (d.obj.sadm.zipIdx.filter fun q =>
    !(decide (q.1.src = s ∧ q.1.stream = p.stream ∧
      (q.2 ≤ d.obj.sadm.idxOf p ∨ (q.1.seq + 65536 - p.seq) % 65536 < max 1 f.packets)))).map fun q => q.1 } } := by
  obtain ⟨src, -⟩ : p.src = s ∧ p.seq = f.seq % 65536 := by simpa using List.find?_some found
  simp only [sadmCleared, sadmTaken, src, ← Bool.decide_and, and_assoc]

/-- Where the first packet has come: taking the packets leaves the registers, by which the source is judged. -/
theorem sadmDone_found : sadmDone s f d =
    if srcOn d s && actB d (offObjMsrcCfg s) 30 then
      if f.full = false ∨ f.bytes > 65536 then malformedFrame (sadmCleared f p d) s
      else
        let a := windowTake (sadmCleared f p d) s (f.seq % 65536)
        if a.2 then sadmRecords s f p.index a.1 else a.1
    else sadmCleared f p d := by
  rw [sadmDone, found]
  rfl

theorem sadmDone_off (off : ¬SadmOn d s) : sadmDone s f d = sadmCleared f p d := by
  rw [sadmDone_found found, if_neg]
  simpa [srcOn, SadmOn, and_assoc] using off

theorem sadmDone_on (on : SadmOn d s) : sadmDone s f d =
    if f.full = false ∨ f.bytes > 65536 then malformedFrame (sadmCleared f p d) s
    else
      let a := windowTake (sadmCleared f p d) s (f.seq % 65536)
      if a.2 then sadmRecords s f p.index a.1 else a.1 := by
  obtain ⟨run, enabled, format⟩ := on
  rw [sadmDone_found found, srcOn, run, enabled, format]
  rfl

theorem sadmDone_malformed (on : SadmOn d s) (bad : f.full = false ∨ 65536 < f.bytes) :
    sadmDone s f d = bump (liveSetB (sadmCleared f p d) offObjStatus 2 true) (offObjMsrcCount s 3) := by
  rw [sadmDone_on found on, if_pos bad]
  rfl

theorem sadmDone_judged (on : SadmOn d s) (full : f.full = true) (fits : f.bytes ≤ 65536) : sadmDone s f d =
    let a := windowTake (sadmCleared f p d) s (f.seq % 65536)
    if a.2 then sadmRecords s f p.index a.1 else a.1 := by
  rw [sadmDone_on found on, if_neg (by simp [full, fits])]

theorem sadmDone_refused (on : SadmOn d s) (full : f.full = true) (fits : f.bytes ≤ 65536)
    (refused : 1 ≤ windowVerdict d s (f.seq % 65536)) :
    sadmDone s f d = bump (sadmCleared f p d) (offObjMsrcCount s (windowVerdict d s (f.seq % 65536))) := by
  have window : windowTake (sadmCleared f p d) s (f.seq % 65536) = _ := windowTake_refused refused
  rw [sadmDone_judged found on full fits, window]
  rfl

theorem sadmDone_accepted (on : SadmOn d s) (full : f.full = true) (fits : f.bytes ≤ 65536)
    (accepted : windowVerdict d s (f.seq % 65536) = 0) :
    let a := (windowTake (sadmCleared f p d) s (f.seq % 65536)).1
    sadmDone s f d = (f.formats.take 256).flatten.zipIdx.foldl
      (sadmBlockTake d s f (actF d (offObjMsrcScale s) 23 0) p.index) (objCount a s 4 (f.formats.length - 256)) := by
  have took : (windowTake (sadmCleared f p d) s (f.seq % 65536)).2 = true := by
    obtain ⟨_, _, -, taken⟩ := windowTake_accepted (d := sadmCleared f p d) (Nat.mod_lt f.seq (by decide)) accepted
    rw [taken]
  have act : (windowTake (sadmCleared f p d) s (f.seq % 65536)).1.regs.act = d.regs.act :=
    (windowTake_quiet _ s (f.seq % 65536) (.refl (sadmCleared f p d))).act
  intro a
  rw [sadmDone_judged found on full fits, ← sadmRecords_eq act]
  exact if_pos took

end

/-! ### A record and its slot (R99, R103, R104, R106) -/

section
variable {d : Dev} {s n : Nat} {r : ObjRec}

theorem takeRec_foreign (foreign : actF d (offObjCfg n) 4 0 ≠ s + 1) : takeRec d s n r = bump d (offObjMsrcCount s 4) := if_pos foreign

theorem takeRec_late (own : actF d (offObjCfg n) 4 0 = s + 1)
    (late : r.target ≤ d.epc.epoch ∨ (r.target = d.epc.epoch + 1 ∧ d.epc.cutoff = true)) : takeRec d s n r = lateRec d s n r := by
  rw [takeRec, if_neg (not_not_intro own), if_pos late]

theorem takeRec_early (own : actF d (offObjCfg n) 4 0 = s + 1) (early : d.epc.epoch + 3000 < r.target) :
    takeRec d s n r = bump d (offObjMsrcCount s 5) := by
  rw [takeRec, if_neg (not_not_intro own), if_neg (by omega), if_pos (by omega)]
  rfl

theorem takeRec_onTime (own : actF d (offObjCfg n) 4 0 = s + 1) (ahead : d.epc.epoch < r.target)
    (before : r.target = d.epc.epoch + 1 → d.epc.cutoff = false) (near : r.target ≤ d.epc.epoch + 3000) :
    takeRec d s n r = queueRec d s n r := by
  have onTime : ¬(r.target ≤ d.epc.epoch ∨ (r.target = d.epc.epoch + 1 ∧ d.epc.cutoff = true)) := by
    rintro (past | ⟨next, cut⟩)
    · exact Nat.not_lt.mpr past ahead
    · simp [before next] at cut
  rw [takeRec, if_neg (not_not_intro own), if_neg onTime, if_neg (by omega)]

end

/-! ### The timeout of a window (R102) -/

section
variable {d : Dev} {s : Nat}

theorem windowTimeout_due (due : (getSrc d s).last + 3000 ≤ d.epc.epoch) : windowTimeout s d = windowDrop d s := if_pos due

theorem windowTimeout_early (early : d.epc.epoch < (getSrc d s).last + 3000) : windowTimeout s d = d := if_neg (Nat.not_le.mpr early)

/-- WINDOW_VALID and what the source has seen are cleared; no other source and no other register changes. -/
theorem windowDrop_source (d : Dev) (s : Nat) :
    liveB (windowDrop d s) (offObjMsrcSeq s) 16 = false ∧ (getSrc (windowDrop d s) s).seen = [] ∧
      RegsBut [offObjMsrcSeq s] d (windowDrop d s) ∧ { windowDrop d s with regs := d.regs, obj := d.obj } = d ∧
      ∀ j, j ≠ s → getSrc (windowDrop d s) j = getSrc d j := by
  have valid : OnlyWords [offObjMsrcSeq s] d (liveSetB d (offObjMsrcSeq s) 16 false) := (OnlyWords.refl _ d).liveSetB (by simp)
  unfold windowDrop
  refine ⟨?_, ?_, valid.regs.other (setSrc_regs _ _ _), congrArg (fun e : Dev => { e with obj := d.obj }) valid.rest, fun j other => ?_⟩
  · rw [liveB, setSrc_liveGet]
    exact liveB_liveSetB_same d (offObjMsrcSeq s) false (by decide)
  · rw [getSrc_setSrc]
  · rw [getSrc_setSrc_other _ _ other, getSrc, liveSetB_obj, getSrc]

end

/-- Settles O21: each event by its equation for the case it is in; that the blocks of an accepted frame are judged by the active copies
from before the frame is `sadmRecords_eq`. -/
theorem metadataFramesPassTheWindow : Obligations.MetadataFramesPassTheWindow := by
  refine ⟨windowJudge_eq, fun s src f hs absent => ?absent, fun s src f p hs found => ?found,
    fun d src n r => ⟨takeRec_foreign, takeRec_early, takeRec_late, takeRec_onTime⟩,
    fun s src hs => ⟨fun due => ?timeout, fun early => ?early⟩⟩
  case absent => exact runs_ranIf (f := sadmDone src f) rfl (decide_eq_true hs) (sadmDone_absent absent)
  case found =>
    intro taken on w verdict
    have cleared : sadmCleared f p s.dev = taken := sadmCleared_eq found
    rw [← cleared]
    have runs {P : Dev → Prop} : P (sadmDone src f s.dev) → Runs (.sadmParseDone src f) s P := runs_ranIf rfl (decide_eq_true hs)
    refine ⟨fun off => runs (sadmDone_off found off), fun on bad => runs (sadmDone_malformed found on bad),
      fun on full fits refused => runs (sadmDone_refused found on full fits refused), fun on full fits accepted => runs ?_⟩
    obtain ⟨count, last, valid⟩ := windowTake_accepted_source (d := sadmCleared f p s.dev) (Nat.mod_lt f.seq (by decide)) accepted
    exact ⟨count, last, valid, sadmDone_accepted found on full fits accepted⟩
  case timeout =>
    refine runs_ranIf (f := windowTimeout src) rfl (decide_eq_true hs) ?_
    rw [windowTimeout_due due]
    exact windowDrop_source s.dev src
  case early => exact runs_ranIf (f := windowTimeout src) rfl (decide_eq_true hs) (windowTimeout_early early)

end Sys2Proof.Machine
end

section
/-!
A bundle that issues: its fields fault for nothing, the operation's writes land where no move of the bundle writes (R195), and a
saturating write (R186) as the statements give it.
-/
namespace Sys2Proof.Machine

/-! ### A bundle without a cause of a fault -/

/-- No field of a bundle has a cause of a program fault. -/
structure FaultFree (d : Dev) (core : Nat) (b : Bundle) : Prop where
  control : ctlFaults (coreOf d core) b.op = []
  yMove : (moveFx d core (coreOf d core) (inHandler d core) true b.y).faults = []
  xMove : (moveFx d core (coreOf d core) (inHandler d core) false b.x).faults = []
  op : (opFx d core (coreOf d core) (inHandler d core) b.op).faults = []
  agu : (aguFx (coreOf d core) (inHandler d core) b.g).faults = []

theorem bundleFx_faultFree {d : Dev} {core : Nat} {b : Bundle}
    (h : (bundleFx d core (coreOf d core) (inHandler d core) b).faults = []) : FaultFree d core b := by
  simp only [bundleFx, joinFx, List.append_eq_nil_iff] at h
  obtain ⟨control, yMove, xMove, op, agu⟩ := h
  exact ⟨control, yMove, xMove, op, agu⟩

/-- What holds of the one bundle that a command names, `Issues` says of the command. -/
theorem issues_bundle {c : Instr} {s : State} {core : Nat} {b : Bundle} {P : VecCore → Dev → Prop} (hb : c.bundle = some (core, b))
    (h : FaultFree s.dev core b →
      waitsFor s.dev core (coreOf s.dev core) (bundleFx s.dev core (coreOf s.dev core) (inHandler s.dev core) b) b.op = none →
      P (coreOf (bundleDone s.dev core b) core) (bundleDone s.dev core b)) : Issues c s P := by
  refine issues_of fun k e he faults waits => ?_
  obtain ⟨rfl, rfl⟩ : core = k ∧ b = e := by
    rw [hb] at he
    simpa using he
  exact h (bundleFx_faultFree faults) waits

/-! ### The writes of an operation -/

section
variable {d : Dev} {core : Nat} {b : Bundle}

/-- A register beyond those that moves write takes the value of the operation. -/
theorem op_flag {r v : Nat} {w : VecWriter} (low : 24 ≤ r) (high : r < 32 ∨ 40 ≤ r) (bound : r < 64) (sl : r ≠ rSL)
    (hf : (opFx d core (coreOf d core) (inHandler d core) b.op).writes.find? (fun w => decide (w.1 = r)) = some (r, w, v)) :
    regLast (coreOf (bundleDone d core b) core) (inHandler d core) r = v :=
  op_value bound (unmoved_other d core b.x b.y low high sl) hf

/-- The newest write in flight to a register is seen one bundle later by a reader at distance 1. -/
theorem regSeen_of_newest {c : VecCore} {h : Bool} {r : Nat} {reader : VecReader} {w : VecWrite}
    (newest : c.flight.find? (fun w => decide (w.reg = regIn h r)) = some w) (due : w.k + hazardDist w.src reader ≤ c.issued) :
    regSeen c h reader r = regLast c h r := by
  have seen : seenWrite c.flight (regIn h r) c.issued reader = some w.val := by
    generalize c.flight = l at newest
    induction l with
    | nil => simp at newest
    | cons x t ih =>
      rw [List.find?_cons] at newest
      unfold seenWrite
      by_cases hx : x.reg = regIn h r
      · simp only [hx, decide_true, Option.some.injEq] at newest
        subst newest
        rw [if_pos ⟨hx, due⟩]
      · simp only [hx, decide_false] at newest
        rw [if_neg fun both => hx both.1]
        exact ih newest
  unfold regSeen regLast
  simp only [seen, newest]

/-- The write of an operation is seen by the next bundle's readers at distance 1 of its writer. -/
theorem op_seen {r v : Nat} {w : VecWriter} {reader : VecReader} (hr : r < 64) (hu : Unmoved d core b.x b.y r)
    (hf : (opFx d core (coreOf d core) (inHandler d core) b.op).writes.find? (fun w => decide (w.1 = r)) = some (r, w, v))
    (near : hazardDist w reader ≤ 1) :
    regSeen (coreOf (bundleDone d core b) core) (inHandler d core) reader r =
      regLast (coreOf (bundleDone d core b) core) (inHandler d core) r := by
  obtain ⟨flight, -, -, -, -, issued, -⟩ := complete_land d core b
  refine regSeen_of_newest (w := ⟨regIn (inHandler d core) r, w, (coreOf d core).issued, v⟩) ?_ ?_
  · rw [flight]
    refine land_find _ _ _ r (e := (r, w, v)) ?_
    rw [← bundle_find hu hf]
    refine List.find?_congr fun e he => ?_
    simp only [regIn_inj (bundleFx_low _ _ _ _ _ e he) hr]
  · rw [issued]
    exact Nat.add_le_add_left near _

end

/-! ### Saturation (R186) -/

theorem satS_eq_max_min (n : Nat) (x : Int) : satS n x = max (-2 ^ (n - 1)) (min (2 ^ (n - 1) - 1) x) := by
  have pos : (0 : Int) < 2 ^ (n - 1) := by positivity
  unfold satS clampI
  push_cast
  split_ifs <;> omega

/-- The first write of a saturating accumulator write is the saturated value. -/
theorem accWrite_find (r : Nat) (v : Int) (t : List (Nat × VecWriter × Nat)) :
    (accWrite r v ++ t).find? (fun w => decide (w.1 = r)) = some (r, .mac, code 56 (max (-2 ^ 55) (min (2 ^ 55 - 1) v))) := by
  rw [accWrite, satS_eq_max_min]
  simp

/-- A list whose writes to a register all carry one value, and that writes it, has that value as its first write. -/
theorem find_of_all_eq {l : List (Nat × VecWriter × Nat)} {e : Nat × VecWriter × Nat} (he : e ∈ l)
    (all : ∀ x ∈ l, x.1 = e.1 → x = e) : l.find? (fun w => decide (w.1 = e.1)) = some e := by
  obtain ⟨x, hx⟩ := Option.isSome_iff_exists.mp ((List.find?_isSome (p := fun w => decide (w.1 = e.1))).mpr ⟨e, he, decide_eq_true rfl⟩)
  have same := List.find?_some hx
  rw [hx, all x (List.mem_of_find?_eq_some hx) (of_decide_eq_true same)]

/-- A saturating write of a value out of range sets SA. -/
theorem mem_accWrite_of_over {r : Nat} {v : Int} (big : v < -2 ^ 55 ∨ 2 ^ 55 ≤ v) : (rSA, VecWriter.sticky, 1) ∈ accWrite r v := by
  rw [accWrite, if_pos ((overS_iff 56 v).mpr big)]
  simp

theorem mem_accWrite {r : Nat} {v : Int} {e : Nat × VecWriter × Nat} (h : e ∈ accWrite r v) :
    e = (r, .mac, code 56 (satS 56 v)) ∨ e = (rSA, .sticky, 1) := by
  unfold accWrite at h
  split at h <;> simp_all

end Sys2Proof.Machine
end

section
/-!
The MAC field (R185, R186, Table 9-9).
-/
namespace Sys2Proof.Machine

section
variable {s : State} {core form p t a lanes : Nat} {x y : MoveField} {g : AguField} {op : MacOp}

/-- What lane i of a MAC field writes to its accumulator. -/
def laneWrite (c : VecCore) (h : Bool) (op : MacOp) (form p t a i : Nat) : List (Nat × VecWriter × Nat) :=
  accWrite (16 + (a + i) % 8)
    (macLane op (accSeen c h .acc ((a + i) % 8)) (product (dSeen c h (p + i)) (dSeen c h (if form = 0 then t + i else t))))

/-- A MAC field that faults for nothing has one to four lanes, and writes theirs. -/
theorem macFx_lanes {c : VecCore} {h : Bool} (acts : op ≠ .nop) (free : (macFx c h op form p t a lanes).faults = []) :
    lanes ≤ 4 ∧ (macFx c h op form p t a lanes).writes = (List.range lanes).flatMap (laneWrite c h op form p t a) := by
  cases op
  case nop => exact absurd rfl acts
  all_goals
    unfold macFx at free ⊢
    dsimp only at free ⊢
    split at free
    · simp at free
    · next ok =>
      rw [if_neg ok]
      exact ⟨by omega, rfl⟩

/-- Lanes before lane i of at most four write other accumulators. -/
theorem laneWrite_other {c : VecCore} {h : Bool} {i j : Nat} (hj : j < i) (hi : i < 4) :
    (laneWrite c h op form p t a j).find? (fun w => decide (w.1 = 16 + (a + i) % 8)) = none := by
  rw [List.find?_eq_none]
  intro e he
  rw [decide_eq_true_eq]
  obtain rfl | rfl := mem_accWrite he
  · show 16 + (a + j) % 8 ≠ _
    omega
  · show 60 ≠ 16 + (a + i) % 8
    omega

theorem find_flatMap_range {l : Nat → List (Nat × VecWriter × Nat)} {q : Nat × VecWriter × Nat → Bool} {i n : Nat} {e : Nat × VecWriter × Nat}
    (hi : i < n) (before : ∀ j < i, (l j).find? q = none) (here : (l i).find? q = some e) :
    ((List.range n).flatMap l).find? q = some e := by
  obtain ⟨m, rfl⟩ : ∃ m, n = i + (m + 1) := ⟨n - i - 1, by omega⟩
  rw [List.range_add, List.flatMap_append, List.find?_append, List.find?_eq_none.mpr, Option.none_or, List.range_succ_eq_map]
  · simp only [List.map_cons, List.flatMap_cons, Nat.add_zero, List.find?_append, here, Option.some_or]
  · intro w hw
    obtain ⟨j, hj, hw⟩ := List.mem_flatMap.mp hw
    exact List.find?_eq_none.mp (before j (List.mem_range.mp hj)) w hw

/-- Lane i of a MAC bundle gives its accumulator the lane's value, saturated, which the next MAC bundle sees (R193); SA where it
saturates. -/
theorem mac_issues {c : Instr} {i : Nat} (hi : i < lanes) (hb : c.bundle = some (core, ⟨.mac op form p t a lanes, x, y, g⟩))
    (acts : op ≠ .nop) {v : Int} (hv : macLane op (sext 56 (regSeen (coreOf s.dev core) (inHandler s.dev core) .acc (16 + (a + i) % 8)))
      (product (dSeen (coreOf s.dev core) (inHandler s.dev core) (p + i))
        (dSeen (coreOf s.dev core) (inHandler s.dev core) (if form = 0 then t + i else t))) = v) :
    Issues c s fun n _ =>
      (Unmoved s.dev core x y (16 + (a + i) % 8) →
        regLast n (inHandler s.dev core) (16 + (a + i) % 8) = code 56 (max (-2 ^ 55) (min (2 ^ 55 - 1) v)) ∧
        regSeen n (inHandler s.dev core) .acc (16 + (a + i) % 8) = regLast n (inHandler s.dev core) (16 + (a + i) % 8)) ∧
      (v < -2 ^ 55 ∨ 2 ^ 55 ≤ v → regLast n (inHandler s.dev core) rSA = 1) := by
  refine issues_bundle hb fun free _ => ?_
  obtain ⟨few, writes⟩ := macFx_lanes acts free.op
  have lane : laneWrite (coreOf s.dev core) (inHandler s.dev core) op form p t a i = accWrite (16 + (a + i) % 8) v := by
    rw [laneWrite, accSeen, Nat.mod_mod, hv]
  have first : (macFx (coreOf s.dev core) (inHandler s.dev core) op form p t a lanes).writes.find?
      (fun w => decide (w.1 = 16 + (a + i) % 8)) = some (16 + (a + i) % 8, .mac, code 56 (max (-2 ^ 55) (min (2 ^ 55 - 1) v))) := by
    rw [writes]
    refine find_flatMap_range hi (fun j hj => laneWrite_other hj (by omega)) ?_
    rw [lane, ← List.append_nil (accWrite _ v), accWrite_find]
  refine ⟨fun unmoved => ⟨op_value (by omega) unmoved first, op_seen (by omega) unmoved first (by decide)⟩, fun big => ?_⟩
  refine op_flag (w := .sticky) (by decide) (by decide) (by decide) (by decide) (find_of_all_eq (e := (rSA, .sticky, 1)) ?_ ?_)
  · show _ ∈ (macFx _ _ _ _ _ _ _ _).writes
    rw [writes]
    exact List.mem_flatMap.mpr ⟨i, List.mem_range.mpr hi, lane ▸ mem_accWrite_of_over big⟩
  · show ∀ e ∈ (macFx _ _ _ _ _ _ _ _).writes, _
    rw [writes]
    intro e he sa
    obtain ⟨j, -, he⟩ := List.mem_flatMap.mp he
    obtain rfl | rfl := mem_accWrite he
    · have : 16 + (a + j) % 8 = 60 := sa
      omega
    · rfl

end

/-- Settles O51: each operation by `mac_issues`, from what its lane makes of accumulator and product (`macLane`). -/
theorem macBundlesCompute : Obligations.MacBundlesCompute := by
  intro s core form p t a lanes x y g i hi
  exact ⟨mac_issues hi rfl (by decide) rfl, mac_issues hi rfl (by decide) rfl, mac_issues hi rfl (by decide) rfl,
    mac_issues hi rfl (by decide) rfl, mac_issues hi rfl (by decide) rfl, mac_issues hi rfl (by decide) rfl⟩

end Sys2Proof.Machine
end

section
/-!
The ALU field and the long immediate (R186, R189, R210, Table 9-12): results and flags as numbers, what each kind of result writes, and
each operation's value.
-/
namespace Sys2Proof.Machine

/-! ### Words and flags as numbers -/

theorem code_lt (n : Nat) (x : Int) : code n x < 2 ^ n := by
  have pos : (0 : Int) < (2 ^ n : Nat) := by exact_mod_cast Nat.two_pow_pos n
  have := Int.emod_lt_of_pos x pos
  have := Int.emod_nonneg x pos.ne'
  unfold code
  omega

theorem wordOf_toNat (x : Int) : (wordOf x).toNat = code 32 x := by
  rw [wordOf, BitVec.toNat_ofNat, Nat.mod_eq_of_lt (code_lt 32 x)]

/-- A word read as signed has the word as its code. -/
theorem code_sext_word (w : Word) : code 32 (sext 32 w.toNat) = w.toNat := by
  rw [code_sext, Nat.mod_eq_of_lt w.isLt]

/-- A signed reading lies in its format. -/
theorem sext_range {n : Nat} (hn : 0 < n) (v : Nat) : -2 ^ (n - 1) ≤ sext n v ∧ sext n v < 2 ^ (n - 1) := by
  have e := Nat.two_pow_pred_mul_two hn
  have lt : v % 2 ^ n < 2 ^ n := Nat.mod_lt _ (Nat.two_pow_pos n)
  have cast : (2 : Int) ^ (n - 1) = ((2 ^ (n - 1) : Nat) : Int) := by push_cast; rfl
  unfold sext
  rw [cast]
  dsimp only
  split <;> omega

/-- V of a result whose exact value is x: it does not fit 32 bits. -/
def overflow (x : Int) : Nat := if -2 ^ 31 ≤ x ∧ x < 2 ^ 31 then 0 else 1

theorem wrap32_overflow (x : Int) : (wrap32 x).2.toNat = overflow x := by
  have same : sext 32 (wordOf x).toNat = x ↔ -2 ^ 31 ≤ x ∧ x < 2 ^ 31 := by
    rw [wordOf_toNat]
    exact ⟨fun e => e ▸ sext_range (by decide) _, fun h => sext_code (by decide) h.1 h.2⟩
  simp only [wrap32, overflow, ne_eq, same]
  by_cases fits : -2 ^ 31 ≤ x ∧ x < 2 ^ 31
  · rw [if_pos fits, decide_eq_false (not_not.mpr fits)]
    rfl
  · rw [if_neg fits, decide_eq_true fits]
    rfl

theorem sat32_overflow (x : Int) : (sat32 x).2.toNat = overflow x := by
  have big := overS_iff 32 x
  simp only [sat32, overflow]
  split_ifs with h
  · have : overS 32 x = false := by rw [← Bool.not_eq_true, big]; omega
    rw [this]; rfl
  · have : overS 32 x = true := by rw [big]; omega
    rw [this]; rfl

theorem sat32_toNat (x : Int) : (sat32 x).1.toNat = code 32 (max (-2 ^ 31) (min (2 ^ 31 - 1) x)) := by
  rw [sat32, wordOf_toNat, satS_eq_max_min]

theorem wrap32_toNat (x : Int) : (wrap32 x).1.toNat = code 32 x := wordOf_toNat x

/-! ### What a kind of result writes -/

section
variable {d : Dev} {core : Nat} {b : Bundle}

/-- A flag after writes that leave it alone takes the value written first. -/
theorem op_flag_after {r v : Nat} {w : VecWriter} {l t : List (Nat × VecWriter × Nat)} (low : 56 ≤ r) (bound : r < 64) (sl : r ≠ rSL)
    (before : ∀ e ∈ l, e.1 ≠ r) (writes : (opFx d core (coreOf d core) (inHandler d core) b.op).writes = l ++ (r, w, v) :: t) :
    regLast (coreOf (bundleDone d core b) core) (inHandler d core) r = v := by
  refine op_flag (w := w) (by omega) (by omega) bound sl ?_
  rw [writes, List.find?_append, List.find?_eq_none.mpr (fun e he => by simpa using before e he)]
  simp

/-- Z and N after a result of value v: it is zero, and its bit 31 is set. -/
def ZeroNegative (n : VecCore) (h : Bool) (v : Nat) : Prop :=
  regLast n h rZ = (if v = 0 then 1 else 0) ∧ regLast n h rN = (if 2 ^ 31 ≤ v then 1 else 0)

theorem op_zeroNegative {w : Word} {l t : List (Nat × VecWriter × Nat)} (before : ∀ e ∈ l, e.1 < 56)
    (writes : (opFx d core (coreOf d core) (inHandler d core) b.op).writes = l ++ (flagsZN w ++ t)) :
    ZeroNegative (coreOf (bundleDone d core b) core) (inHandler d core) w.toNat := by
  have zero : w = 0 ↔ w.toNat = 0 := ⟨fun e => by rw [e]; rfl, fun e => BitVec.eq_of_toNat_eq e⟩
  have negative : w.msb = true ↔ 2 ^ 31 ≤ w.toNat := by rw [BitVec.msb_eq_decide]; simp
  refine ⟨?_, ?_⟩
  · simp only [← zero]
    exact op_flag_after (l := l) (by decide) (by decide) (by decide) (fun e he => (Nat.lt_of_lt_of_le (before e he) (by decide)).ne) writes
  · simp only [← negative]
    refine op_flag_after (l := l ++ [(rZ, .flags, if w = 0 then 1 else 0)]) (w := .flags) (t := t) (by decide) (by decide) (by decide) ?_ ?_
    · intro e he
      rcases List.mem_append.mp he with he | he
      · exact (Nat.lt_of_lt_of_le (before e he) (by decide)).ne
      · rw [List.mem_singleton.mp he]
        exact (by decide : rZ ≠ rN)
    · rw [writes, List.append_assoc]
      rfl

theorem flagsZN_ne_rV (w : Word) : ∀ e ∈ flagsZN w, e.1 ≠ rV := by
  intro e he
  rcases List.mem_pair.mp he with rfl | rfl
  · exact (by decide : rZ ≠ rV)
  · exact (by decide : rN ≠ rV)

theorem dest_below_flags {dst v : Nat} {w : VecWriter} : ∀ e ∈ [(dst % 16, w, v)], e.1 < 56 := by
  intro e he
  rw [List.mem_singleton.mp he]
  show dst % 16 < 56
  omega

/-- An accumulator result, saturated, with SA where it saturates. -/
theorem op_accumulator {dst : Nat} {v : Int} (hd : dst < 8)
    (writes : (opFx d core (coreOf d core) (inHandler d core) b.op).writes = accWrite (16 + dst) v) :
    (Unmoved d core b.x b.y (16 + dst) →
      regLast (coreOf (bundleDone d core b) core) (inHandler d core) (16 + dst) = code 56 (max (-2 ^ 55) (min (2 ^ 55 - 1) v))) ∧
    (v < -2 ^ 55 ∨ 2 ^ 55 ≤ v → regLast (coreOf (bundleDone d core b) core) (inHandler d core) rSA = 1) := by
  refine ⟨fun unmoved => op_value (w := .mac) (by omega) unmoved ?_, fun big => ?_⟩
  · rw [writes, ← List.append_nil (accWrite _ v), accWrite_find]
  · refine op_flag (w := .sticky) (by decide) (by decide) (by decide) (by decide) ?_
    rw [writes]
    refine find_of_all_eq (e := (rSA, .sticky, 1)) (mem_accWrite_of_over big) fun e he sa => ?_
    obtain rfl | rfl := mem_accWrite he
    · have : 16 + dst = 60 := sa
      omega
    · rfl

end

section
variable {c : Instr} {s : State} {core : Nat} {op : VecOp} {x y : MoveField} {g : AguField} (hb : c.bundle = some (core, ⟨op, x, y, g⟩))
include hb

/-- A condition that every bundle meets which faults for nothing. -/
theorem issues_free {P : VecCore → Dev → Prop} {Q : Prop} (side : FaultFree s.dev core ⟨op, x, y, g⟩ → Q) (h : Q → Issues c s P) :
    Issues c s fun n d => Q ∧ P n d := by
  intro k b hk bound may has faults waits
  obtain ⟨rfl, rfl⟩ : core = k ∧ _ = b := by simpa [hb] using hk
  have q := side (bundleFx_faultFree faults)
  obtain ⟨t, ran, queue, done, holds⟩ := h q core _ hk bound may has faults waits
  exact ⟨t, ran, queue, done, q, holds⟩

/-- The first write of the operation lands where no move writes. -/
theorem issues_dest {r u v : Nat} {w : VecWriter} {t : List (Nat × VecWriter × Nat)} (hr : r < 64) (value : u = v)
    (writes : (opFx s.dev core (coreOf s.dev core) (inHandler s.dev core) op).writes = (r, w, u) :: t) :
    Issues c s fun n _ => Unmoved s.dev core x y r → regLast n (inHandler s.dev core) r = v :=
  issues_bundle hb fun _ _ unmoved => value ▸ op_value (w := w) hr unmoved (by rw [writes]; simp)

/-- An accumulator result, saturated, with SA where it saturates. -/
theorem issues_accumulator {dst : Nat} {v : Int} (hd : dst < 8)
    (writes : (opFx s.dev core (coreOf s.dev core) (inHandler s.dev core) op).writes = accWrite (16 + dst) v) :
    Issues c s fun n _ => (Unmoved s.dev core x y (16 + dst) →
        regLast n (inHandler s.dev core) (16 + dst) = code 56 (max (-2 ^ 55) (min (2 ^ 55 - 1) v))) ∧
      (v < -2 ^ 55 ∨ 2 ^ 55 ≤ v → regLast n (inHandler s.dev core) rSA = 1) :=
  issues_bundle hb fun _ _ => op_accumulator (b := ⟨op, x, y, g⟩) hd writes

theorem issues_zeroNegative {v : Nat} {w : Word} {l t : List (Nat × VecWriter × Nat)} (value : w.toNat = v) (before : ∀ e ∈ l, e.1 < 56)
    (writes : (opFx s.dev core (coreOf s.dev core) (inHandler s.dev core) op).writes = l ++ (flagsZN w ++ t)) :
    Issues c s fun n _ => ZeroNegative n (inHandler s.dev core) v :=
  issues_bundle hb fun _ _ => value ▸ op_zeroNegative (l := l) before writes

theorem issues_overflow {z : Int} {v : Bool} {l : List (Nat × VecWriter × Nat)} (value : v.toNat = overflow z) (before : ∀ e ∈ l, e.1 ≠ rV)
    (writes : (opFx s.dev core (coreOf s.dev core) (inHandler s.dev core) op).writes = l ++ flagV v) :
    Issues c s fun n _ => regLast n (inHandler s.dev core) rV = overflow z :=
  issues_bundle hb fun _ _ => value ▸ op_flag_after (l := l) (by decide) (by decide) (by decide) before writes

omit hb in
theorem issues_mono {P Q : VecCore → Dev → Prop} (h : ∀ n d, P n d → Q n d) (k : Issues c s P) : Issues c s Q := by
  intro core b hb bound may has faults waits
  obtain ⟨t, ran, queue, done, p⟩ := k core b hb bound may has faults waits
  exact ⟨t, ran, queue, done, h _ _ p⟩

omit hb in
theorem issues_if {p : Prop} {P : VecCore → Dev → Prop} (h : p → Issues c s P) : Issues c s fun n d => p → P n d := by
  by_cases hp : p
  · exact issues_mono (fun _ _ holds _ => holds) (h hp)
  · exact issues_of fun _ _ _ _ _ yes => absurd yes hp

omit hb in
theorem Issues.and {P Q : VecCore → Dev → Prop} (h : Issues c s P) (k : Issues c s Q) : Issues c s fun n d => P n d ∧ Q n d := by
  intro core b hb bound may has faults waits
  obtain ⟨t, ran, queue, done, p⟩ := h core b hb bound may has faults waits
  obtain ⟨u, same, -, -, q⟩ := k core b hb bound may has faults waits
  obtain rfl : t = u := by simpa [ran] using same
  exact ⟨t, ran, queue, done, p, q⟩

/-- An operation that faults unless a number of it is below a bound. -/
theorem issues_below {r m : Nat} {fx : VecFx} {P : VecCore → Dev → Prop}
    (bound : opFx s.dev core (coreOf s.dev core) (inHandler s.dev core) op = if r ≥ m then { faults := [fIllegal] } else fx)
    (h : r < m → opFx s.dev core (coreOf s.dev core) (inHandler s.dev core) op = fx → Issues c s P) :
    Issues c s fun n d => r < m ∧ P n d := by
  refine issues_free hb (fun free => ?_) fun small => h small (by rw [bound, if_neg (by omega)])
  have free := free.op
  rw [bound] at free
  split at free
  · simp at free
  · omega

variable {dst res : Nat} {z : Int} {r : Word × Bool} (value : r.1.toNat = res)
include value

/-- A D result with Z, N and V. -/
theorem issues_full (v : r.2.toNat = overflow z) (writes : (opFx s.dev core (coreOf s.dev core) (inHandler s.dev core) op).writes =
      [(dst % 16, .alu, r.1.toNat)] ++ flagsZN r.1 ++ flagV r.2) :
    Issues c s fun n _ => (Unmoved s.dev core x y (dst % 16) → regLast n (inHandler s.dev core) (dst % 16) = res) ∧
      ZeroNegative n (inHandler s.dev core) res ∧ regLast n (inHandler s.dev core) rV = overflow z := by
  refine (issues_dest hb (by omega) value writes).and ((issues_zeroNegative hb value dest_below_flags (by rw [writes, List.append_assoc])).and
    (issues_overflow hb v (fun e he => ?_) writes))
  rcases List.mem_append.mp he with he | he
  · exact (Nat.lt_of_lt_of_le (dest_below_flags e he) (by decide)).ne
  · exact flagsZN_ne_rV r.1 e he

/-- Z, N and V without a result. -/
theorem issues_compare (v : r.2.toNat = overflow z)
    (writes : (opFx s.dev core (coreOf s.dev core) (inHandler s.dev core) op).writes = flagsZN r.1 ++ flagV r.2) :
    Issues c s fun n _ => ZeroNegative n (inHandler s.dev core) res ∧ regLast n (inHandler s.dev core) rV = overflow z :=
  (issues_zeroNegative hb (l := []) value (by simp) writes).and (issues_overflow hb v (flagsZN_ne_rV r.1) writes)

/-- A D result with Z and N. -/
theorem issues_bitwise (writes : (opFx s.dev core (coreOf s.dev core) (inHandler s.dev core) op).writes =
      [(dst % 16, .alu, r.1.toNat)] ++ flagsZN r.1) :
    Issues c s fun n _ => (Unmoved s.dev core x y (dst % 16) → regLast n (inHandler s.dev core) (dst % 16) = res) ∧
      ZeroNegative n (inHandler s.dev core) res :=
  (issues_dest hb (by omega) value writes).and
    (issues_zeroNegative hb (t := []) value dest_below_flags (by rw [writes, List.append_nil]))

/-- A D result with V. -/
theorem issues_withV (v : r.2.toNat = overflow z) (writes : (opFx s.dev core (coreOf s.dev core) (inHandler s.dev core) op).writes =
      [(dst % 16, .alu, r.1.toNat)] ++ flagV r.2) :
    Issues c s fun n _ => (Unmoved s.dev core x y (dst % 16) → regLast n (inHandler s.dev core) (dst % 16) = res) ∧
      regLast n (inHandler s.dev core) rV = overflow z :=
  (issues_dest hb (by omega) value writes).and
    (issues_overflow hb v (fun e he => (Nat.lt_of_lt_of_le (dest_below_flags e he) (by decide)).ne) writes)

end

/-! ### Values of single operations -/

section
variable {c : VecCore} {h : Bool}

theorem abs_eq_ite (a : Int) : (if a < 0 then -a else a) = |a| := by
  split_ifs with h
  · exact (abs_of_neg h).symm
  · exact (abs_of_nonneg (not_lt.mp h)).symm

theorem code_min (w v : Word) : (if sext 32 w.toNat ≤ sext 32 v.toNat then w else v).toNat = code 32 (min (sext 32 w.toNat) (sext 32 v.toNat)) := by
  split_ifs with le
  · rw [min_eq_left le, code_sext_word]
  · rw [min_eq_right (not_le.mp le).le, code_sext_word]

theorem code_max (w v : Word) : (if sext 32 w.toNat ≤ sext 32 v.toNat then v else w).toNat = code 32 (max (sext 32 w.toNat) (sext 32 v.toNat)) := by
  split_ifs with le
  · rw [max_eq_right le, code_sext_word]
  · rw [max_eq_left (not_le.mp le).le, code_sext_word]

theorem ushiftRight_toNat (w : Word) (n : Nat) : (w >>> n).toNat = w.toNat / 2 ^ n := by
  rw [BitVec.toNat_ushiftRight, Nat.shiftRight_eq_div_pow]

/-- The magnitude that the redundant sign bits are counted from: below 2^k exactly where the number fits k + 1 bits. -/
theorem magnitude_lt (a : Int) (k : Nat) : (if a < 0 then -a - 1 else a).toNat < 2 ^ k ↔ -2 ^ k ≤ a ∧ a < 2 ^ k := by
  have pos : (0 : Int) < 2 ^ k := by positivity
  have cast : ((2 ^ k : Nat) : Int) = 2 ^ k := by push_cast; rfl
  split_ifs with neg <;> omega

/-- NORM: the number of places by which a word can move left and still fit. -/
theorem redundantSigns_spec (w : Word) : redundantSigns w ≤ 31 ∧
    ∀ q, q ≤ 31 → (-2 ^ (31 - q) ≤ sext 32 w.toNat ∧ sext 32 w.toNat < 2 ^ (31 - q) ↔ q ≤ redundantSigns w) := by
  have small := (magnitude_lt (sext 32 w.toNat) 31).mpr (sext_range (by decide) _)
  unfold redundantSigns
  simp only [← magnitude_lt]
  generalize (if sext 32 w.toNat < 0 then -sext 32 w.toNat - 1 else sext 32 w.toNat).toNat = m at small ⊢
  split_ifs with zero
  · exact ⟨le_refl 31, fun q hq => by simp [zero, hq]⟩
  · have top := (Nat.log2_lt zero).mpr small
    refine ⟨by omega, fun q hq => ?_⟩
    rw [← Nat.log2_lt zero]
    omega

end

/-! ### The operations -/

/-- A long immediate that faults for nothing, by its register file. -/
theorem liFx_free {file reg : Nat} {imm : Word} (free : (liFx file reg imm).faults = []) :
    (file = 0 ∧ reg < 16 ∧ (liFx file reg imm).writes = [(reg, .liD, imm.toNat)]) ∨
    (file = 1 ∧ (reg < 8 ∧ imm.toNat < 2 ^ 24) ∧ (liFx file reg imm).writes = [(32 + reg, .set, imm.toNat)]) ∨
    (file = 2 ∧ reg < 8 ∧ (liFx file reg imm).writes = [(40 + reg, .set, imm.toNat % 2 ^ 24)]) ∨
    (file = 3 ∧ reg < 8 ∧ (liFx file reg imm).writes = [(48 + reg, .set, imm.toNat)]) := by
  have keeps {p : Prop} [Decidable p] {l : List (Nat × VecWriter × Nat)}
      (h : (if p then ({ writes := l } : VecFx) else { faults := [fIllegal] }).faults = []) :
      p ∧ (if p then ({ writes := l } : VecFx) else { faults := [fIllegal] }).writes = l := by
    split at h
    · next ok => exact ⟨ok, by rw [if_pos ok]⟩
    · simp at h
  match file with
  | 0 => exact .inl ⟨rfl, keeps free⟩
  | 1 => exact .inr (.inl ⟨rfl, keeps free⟩)
  | 2 => exact .inr (.inr (.inl ⟨rfl, keeps free⟩))
  | 3 => exact .inr (.inr (.inr ⟨rfl, keeps free⟩))
  | n + 4 => exact absurd free (by simp [liFx])

/-- A long immediate's bundle moves nothing. -/
theorem unmoved_none (d : Dev) (core r : Nat) : Unmoved d core .none .none r := fun _ he => nomatch he

theorem li_value {d : Dev} {core file reg r v : Nat} {imm : Word} {w : VecWriter} {g : AguField} (hr : r < 64)
    (writes : (liFx file reg imm).writes = [(r, w, v)]) :
    regLast (coreOf (bundleDone d core ⟨.li file reg imm, .none, .none, g⟩) core) (inHandler d core) r = v := by
  refine op_value (w := w) hr (unmoved_none d core r) ?_
  show (liFx file reg imm).writes.find? _ = _
  rw [writes]
  simp

/-- ACCSH by a count of -32 to +8. -/
theorem aluFx_accsh {c : VecCore} {h : Bool} {dst s1 s2 : Nat} (hd : dst < 8) (h1 : s1 < 8) (lo : -32 ≤ sext 32 (dSeen c h s2).toNat)
    (hi : sext 32 (dSeen c h s2).toNat ≤ 8) : (aluFx c h .accsh dst s1 s2).writes = accWrite (16 + dst)
      (if 0 ≤ sext 32 (dSeen c h s2).toNat
        then sext 56 (regSeen c h .accSrc (16 + s1)) * ((2 ^ (sext 32 (dSeen c h s2).toNat).toNat : Nat) : Int)
        else rshr (sext 56 (regSeen c h .accSrc (16 + s1))) (-sext 32 (dSeen c h s2).toNat).toNat) := by
  unfold aluFx accSeen
  dsimp only
  rw [if_neg (by omega), if_neg (by omega), if_pos ⟨lo, hi⟩, Nat.mod_eq_of_lt h1]

/-- Settles O52: each operation by what its kind of result writes (`issues_full` and its kin), from the value of its arithmetic. -/
theorem aluBundlesCompute : Obligations.AluBundlesCompute := by
  intro s core dst s1 s2 x y g k h w1 w2 a b m acc set dd zn ovf sat accs
  have asl (n : Nat) : a * 2 ^ n = a * ((2 ^ n : Nat) : Int) := by push_cast; rfl
  have asl' (z : Int) (n : Nat) : z * ((2 ^ n : Nat) : Int) = z * 2 ^ n := by push_cast; rfl
  have asr (n : Nat) : a / 2 ^ n = a / ((2 ^ n : Nat) : Int) := by push_cast; rfl
  refine ⟨?add, ?sub, ?adds, ?subs, ?and, ?or, ?xor, ?cmp, ?min, ?max, ?abs, ?neg, ?asl, ?asr, ?asrr, ?lsr, ?asli, ?asri, ?lsri, ?norm,
    ?mova, ?movn, ?movm, ?movfa, ?xtrh, ?xtrl, ?insa, ?accadd, ?accsub, ?accsh, fun file reg imm => ?li⟩
  case add => exact issues_full rfl (wrap32_toNat _) (wrap32_overflow _) rfl
  case sub => exact issues_full rfl (wrap32_toNat _) (wrap32_overflow _) rfl
  case adds => exact issues_full rfl (sat32_toNat _) (sat32_overflow _) rfl
  case subs => exact issues_full rfl (sat32_toNat _) (sat32_overflow _) rfl
  case and => exact issues_bitwise rfl (r := (_, false)) (BitVec.toNat_and _ _) rfl
  case or => exact issues_bitwise rfl (r := (_, false)) (BitVec.toNat_or _ _) rfl
  case xor => exact issues_bitwise rfl (r := (_, false)) (BitVec.toNat_xor _ _) rfl
  case cmp => exact issues_compare rfl (wrap32_toNat _) (wrap32_overflow _) rfl
  case min => exact issues_dest rfl (by omega) (code_min _ _) rfl
  case max => exact issues_dest rfl (by omega) (code_max _ _) rfl
  case abs =>
    rw [← abs_eq_ite]
    exact issues_withV rfl (sat32_toNat _) (sat32_overflow _) rfl
  case neg => exact issues_withV rfl (sat32_toNat _) (sat32_overflow _) rfl
  case asl =>
    rw [asl]
    exact issues_withV rfl (wrap32_toNat _) (wrap32_overflow _) rfl
  case asr =>
    rw [asr]
    exact issues_dest rfl (by omega) (wordOf_toNat _) rfl
  case asrr => exact issues_dest rfl (by omega) (wordOf_toNat _) rfl
  case lsr => exact issues_dest rfl (by omega) (ushiftRight_toNat _ _) rfl
  case asli =>
    rw [asl]
    exact issues_below (op := .alu .asli dst s1 s2) rfl rfl fun small eq =>
      issues_withV rfl (wrap32_toNat _) (wrap32_overflow _) (congrArg VecFx.writes eq)
  case asri =>
    rw [asr]
    exact issues_below (op := .alu .asri dst s1 s2) rfl rfl fun small eq =>
      issues_dest rfl (by omega) (wordOf_toNat _) (congrArg VecFx.writes eq)
  case lsri =>
    exact issues_below (op := .alu .lsri dst s1 s2) rfl rfl fun small eq =>
      issues_dest rfl (by omega) (ushiftRight_toNat _ _) (congrArg VecFx.writes eq)
  case norm =>
    obtain ⟨top, fits⟩ := redundantSigns_spec (dSeen k h s1)
    have value : (BitVec.ofNat 32 (redundantSigns (dSeen k h s1))).toNat = redundantSigns (dSeen k h s1) := by
      rw [BitVec.toNat_ofNat, Nat.mod_eq_of_lt (by omega)]
    refine issues_mono (fun n d dest => ⟨_, top, fits, dest⟩) (issues_dest rfl (by omega) value rfl)
  case mova =>
    exact issues_below (op := .alu .mova dst s1 s2) rfl rfl fun small eq =>
      issues_dest rfl (by omega) rfl (congrArg VecFx.writes eq)
  case movn =>
    exact issues_below (op := .alu .movn dst s1 s2) rfl rfl fun small eq =>
      issues_dest rfl (by omega) rfl (congrArg VecFx.writes eq)
  case movm =>
    exact issues_below (op := .alu .movm dst s1 s2) rfl rfl fun small eq =>
      issues_dest rfl (by omega) rfl (congrArg VecFx.writes eq)
  case movfa =>
    exact issues_below (op := .alu .movfa dst s1 s2) rfl rfl fun small eq =>
      issues_dest rfl (by omega) (by rw [Nat.mod_eq_of_lt small, BitVec.toNat_ofNat]) (congrArg VecFx.writes eq)
  case xtrh =>
    exact issues_below (op := .alu .xtrh dst s1 s2) rfl rfl fun small eq =>
      issues_dest rfl (by omega) (by rw [Nat.mod_eq_of_lt small, BitVec.toNat_ofNat]) (congrArg VecFx.writes eq)
  case xtrl =>
    exact issues_below (op := .alu .xtrl dst s1 s2) rfl rfl fun small eq => issues_dest rfl (by omega)
      (by rw [Nat.mod_eq_of_lt small, BitVec.toNat_ofNat, Nat.mod_eq_of_lt (Nat.lt_trans (Nat.mod_lt _ (by decide)) (by decide))]) (congrArg VecFx.writes eq)
  case insa =>
    exact issues_below (op := .alu .insa dst s1 s2) rfl rfl fun small eq =>
      issues_dest rfl (by omega) rfl (congrArg VecFx.writes eq)
  case accadd =>
    refine issues_below (op := .alu .accadd dst s1 s2) rfl rfl fun smallD eq => ?_
    refine issues_below (op := .alu .accadd dst s1 s2) rfl eq fun small1 eq => ?_
    refine issues_below (op := .alu .accadd dst s1 s2) rfl eq fun small2 eq => ?_
    exact issues_accumulator rfl smallD (by rw [eq, accSeen, Nat.mod_eq_of_lt small1, accSeen, Nat.mod_eq_of_lt small2])
  case accsub =>
    refine issues_below (op := .alu .accsub dst s1 s2) rfl rfl fun smallD eq => ?_
    refine issues_below (op := .alu .accsub dst s1 s2) rfl eq fun small1 eq => ?_
    refine issues_below (op := .alu .accsub dst s1 s2) rfl eq fun small2 eq => ?_
    exact issues_accumulator rfl smallD (by rw [eq, accSeen, Nat.mod_eq_of_lt small1, accSeen, Nat.mod_eq_of_lt small2])
  case accsh =>
    refine issues_below (op := .alu .accsh dst s1 s2) rfl rfl fun smallD eq => ?_
    refine issues_below (op := .alu .accsh dst s1 s2) rfl eq fun small1 eq => ?_
    refine (issues_if fun left => issues_if fun few => ?_).and (issues_if fun many => issues_if fun right => ?_)
    · refine issues_accumulator rfl smallD (op := .alu .accsh dst s1 s2) ((aluFx_accsh smallD small1 (le_trans (by decide) left) few).trans ?_)
      rw [if_pos left, asl']
    · refine issues_accumulator rfl smallD (op := .alu .accsh dst s1 s2) ((aluFx_accsh smallD small1 many (right.le.trans (by decide))).trans ?_)
      rw [if_neg (not_le.mpr right)]
  case li =>
    refine issues_bundle rfl fun free _ => ?_
    obtain ⟨rfl, small, writes⟩ | ⟨rfl, ⟨small, few⟩, writes⟩ | ⟨rfl, small, writes⟩ | ⟨rfl, small, writes⟩ := liFx_free free.op
    · exact ⟨fun _ => ⟨small, li_value (by omega) writes⟩, nofun, nofun, nofun, by decide⟩
    · exact ⟨nofun, fun _ => ⟨small, few, li_value (by omega) writes⟩, nofun, nofun, by decide⟩
    · exact ⟨nofun, nofun, fun _ => ⟨small, li_value (by omega) writes⟩, nofun, by decide⟩
    · exact ⟨nofun, nofun, nofun, fun _ => ⟨small, li_value (by omega) writes⟩, by decide⟩

end Sys2Proof.Machine
end

section
/-!
The moves of a bundle (R187, R188, R190): which register takes what, the scaled reading of an accumulator, and what a register that
nothing writes keeps.
-/
namespace Sys2Proof.Machine

/-! ### The first write to a register -/

section
variable {a b : VecFx} {r : Nat}

/-- What the first of two fields writes stands. -/
theorem joinFx_find_left {e : Nat × VecWriter × Nat} (h : a.writes.find? (fun w => decide (w.1 = r)) = some e) :
    (joinFx a b).writes.find? (fun w => decide (w.1 = r)) = some e := by
  simp only [joinFx, List.find?_append, h, Option.some_or]

/-- Where the first of two fields does not write a register, the second has it. -/
theorem joinFx_find_right (h : ∀ w ∈ a.writes, w.1 ≠ r) :
    (joinFx a b).writes.find? (fun w => decide (w.1 = r)) = b.writes.find? (fun w => decide (w.1 = r)) := by
  have none : a.writes.find? (fun w => decide (w.1 = r)) = none := List.find?_eq_none.mpr fun w hw => by simpa using h w hw
  simp only [joinFx, List.find?_append, none, Option.none_or]
  refine find_filter_of _ _ _ fun w hw => List.all_eq_true.mpr fun v hv => ?_
  rw [of_decide_eq_true hw]
  exact decide_eq_true (h v hv)

theorem mem_joinFx {w : Nat × VecWriter × Nat} (h : w ∈ (joinFx a b).writes) : w ∈ a.writes ∨ w ∈ b.writes := by
  simp only [joinFx, List.mem_append, List.mem_filter] at h
  exact h.imp_right And.left

/-- A register that one of two fields writes is written by the two together. -/
theorem joinFx_writes {w : Nat × VecWriter × Nat} (h : w ∈ a.writes ∨ w ∈ b.writes) : ∃ v ∈ (joinFx a b).writes, v.1 = w.1 := by
  simp only [joinFx, List.mem_append, List.mem_filter, List.all_eq_true, decide_eq_true_eq]
  rcases h with h | h
  · exact ⟨w, .inl h, rfl⟩
  · by_cases free : ∀ v ∈ a.writes, v.1 ≠ w.1
    · exact ⟨w, .inr ⟨h, free⟩, rfl⟩
    · push Not at free
      obtain ⟨v, hv, same⟩ := free
      exact ⟨v, .inl hv, same⟩

end

/-! ### Bundles whose operation is a NOP -/

/-- The bundle of a move command: the move on its side, another move on the other. -/
def moveBundle (yside : Bool) (m other : MoveField) (g : AguField) : Bundle :=
  ⟨.mac .nop 0 0 0 0 0, if yside then other else m, if yside then m else other, g⟩

section
variable {d : Dev} {core : Nat} {yside : Bool} {m other : MoveField} {g : AguField}

/-- The move of a side has a register: it is the Y move, or the Y move writes elsewhere. -/
def First (d : Dev) (core : Nat) (yside : Bool) (other : MoveField) (r : Nat) : Prop :=
  yside = true ∨ Unmoved d core .none other r

theorem FaultFree.move (free : FaultFree d core (moveBundle yside m other g)) :
    (moveFx d core (coreOf d core) (inHandler d core) yside m).faults = [] := by
  cases yside with
  | false => exact free.xMove
  | true => exact free.yMove

/-- The first write of a move lands, where the other side does not come before it. -/
theorem move_value {r v : Nat} {w : VecWriter} (hr : r < 64) (first : First d core yside other r)
    (hf : (moveFx d core (coreOf d core) (inHandler d core) yside m).writes.find? (fun w => decide (w.1 = r)) = some (r, w, v)) :
    regLast (coreOf (bundleDone d core (moveBundle yside m other g)) core) (inHandler d core) r = v := by
  refine complete_value hr (e := (r, w, v)) ?_
  refine (joinFx_find_right fun e he => absurd he List.not_mem_nil).trans ?_
  cases yside with
  | true => exact joinFx_find_left hf
  | false =>
    have unmoved := first.resolve_left nofun
    exact (joinFx_find_right fun e he => unmoved e (List.mem_append_left _ he)).trans (joinFx_find_left hf)

/-- A register that the moves and the AGU field leave alone is not written. -/
theorem move_unwritten {r : Nat} (own : ∀ e ∈ (moveFx d core (coreOf d core) (inHandler d core) yside m).writes, e.1 ≠ r)
    (others : ∀ e ∈ (moveFx d core (coreOf d core) (inHandler d core) (!yside) other).writes, e.1 ≠ r)
    (agu : ∀ e ∈ (aguFx (coreOf d core) (inHandler d core) g).writes, e.1 ≠ r) :
    ∀ e ∈ (bundleFx d core (coreOf d core) (inHandler d core) (moveBundle yside m other g)).writes, e.1 ≠ r := by
  intro e he
  obtain he | he := mem_joinFx he
  · exact absurd he List.not_mem_nil
  · obtain he | he := mem_joinFx he
    · cases yside with
      | true => exact own e he
      | false => exact others e he
    · obtain he | he := mem_joinFx he
      · cases yside with
        | true => exact others e he
        | false => exact own e he
      · obtain he | he := mem_joinFx he
        · exact absurd he List.not_mem_nil
        · exact agu e he

/-- What an address-register update writes is an A register. -/
theorem aguFx_regs (c : VecCore) (h : Bool) (g : AguField) : ∀ e ∈ (aguFx c h g).writes, 32 ≤ e.1 ∧ e.1 < 40 := by
  unfold aguFx
  dsimp only
  repeat' split
  all_goals
    intro e he
    first
    | exact absurd he List.not_mem_nil
    | (rw [List.mem_singleton.mp he]; dsimp only; omega)

end

/-! ### A register that nothing writes (R193) -/

theorem find_filter_eq {l : List VecWrite} {p : Nat} (h : (l.filter fun w => decide (w.reg = p)) = []) :
    l.find? (fun w => decide (w.reg = p)) = none :=
  List.find?_eq_none.mpr fun w hw => List.filter_eq_nil_iff.mp h w hw

/-- Settling writes in flight, newest first: a register takes the newest of those to it. -/
theorem mapGet_settle (l : List VecWrite) (m : List (Nat × Nat)) (p : Nat) :
    mapGet (fun _ => 0) (l.foldr (fun w m => mapSet (fun _ => 0) m w.reg w.val) m) p =
      match l.find? fun w => decide (w.reg = p) with
      | some w => w.val
      | none => mapGet (fun _ => 0) m p := by
  induction l with
  | nil => rfl
  | cons w t ih =>
    rw [List.foldr_cons, mapGet_mapSet, List.find?_cons]
    by_cases hw : w.reg = p
    · simp [hw]
    · simp [hw, Ne.symm hw, ih]

/-- Of the writes in flight to a register, newest first, those that stay in flight come before those that settle. -/
theorem find_settle {l : List VecWrite} {p n : Nat} (order : (l.filter fun w => decide (w.reg = p)).Pairwise (fun u v => v.k ≤ u.k)) :
    (l.filter fun w => decide (¬ w.k + 3 ≤ n)).find? (fun w => decide (w.reg = p)) = l.find? (fun w => decide (w.reg = p)) ∨
    ((l.filter fun w => decide (¬ w.k + 3 ≤ n)).find? (fun w => decide (w.reg = p)) = none ∧
      (l.filter fun w => decide (w.k + 3 ≤ n)).find? (fun w => decide (w.reg = p)) = l.find? (fun w => decide (w.reg = p))) := by
  induction l with
  | nil => exact .inl rfl
  | cons w t ih =>
    by_cases hw : w.reg = p
    · rw [List.filter_cons_of_pos (by simpa using hw), List.pairwise_cons] at order
      by_cases old : w.k + 3 ≤ n
      · refine .inr ⟨List.find?_eq_none.mpr fun v hv => ?_, by simp [old, hw]⟩
        simp only [List.filter_cons, old, not_true_eq_false, decide_false, Bool.false_eq_true, if_false, List.mem_filter,
          decide_eq_true_eq] at hv ⊢
        intro hp
        have := order.1 v (List.mem_filter.mpr ⟨hv.1, decide_eq_true hp⟩)
        omega
      · exact .inl (by simp [hw, Nat.not_le.mp old])
    · rw [List.filter_cons_of_neg (by simpa using hw)] at order
      have skip (q : VecWrite → Bool) : ((w :: t).filter q).find? (fun w => decide (w.reg = p)) = (t.filter q).find? (fun w => decide (w.reg = p)) := by
        by_cases hq : q w = true
        · rw [List.filter_cons_of_pos hq, List.find?_cons_of_neg (by simpa using hw)]
        · rw [List.filter_cons_of_neg hq]
      rw [skip, skip, List.find?_cons_of_neg (by simpa using hw)]
      exact ih order

/-- A register that a bundle does not write keeps its value; what is in flight to it stands newest first. -/
theorem regLast_land_kept (c : VecCore) (h : Bool) (fx : VecFx) (r : Nat) (unwritten : ∀ e ∈ fx.writes, regIn h e.1 ≠ regIn h r)
    (order : (c.flight.filter fun e => decide (e.reg = regIn h r)).Pairwise (fun u v => v.k ≤ u.k)) :
    regLast (land c h fx) h r = regLast c h r := by
  have fresh : ((fx.writes.map fun w => (⟨regIn h w.1, w.2.1, c.issued, w.2.2⟩ : VecWrite)).filter fun e => decide (e.reg = regIn h r)) = [] := by
    rw [List.filter_eq_nil_iff]
    intro e he
    obtain ⟨w, hw, rfl⟩ := List.mem_map.mp he
    simpa using unwritten w hw
  have order' : (((fx.writes.map fun w => (⟨regIn h w.1, w.2.1, c.issued, w.2.2⟩ : VecWrite)) ++ c.flight).filter
      fun e => decide (e.reg = regIn h r)).Pairwise (fun u v => v.k ≤ u.k) := by
    rw [List.filter_append, fresh, List.nil_append]
    exact order
  have same : ((fx.writes.map fun w => (⟨regIn h w.1, w.2.1, c.issued, w.2.2⟩ : VecWrite)) ++ c.flight).find?
      (fun e => decide (e.reg = regIn h r)) = c.flight.find? (fun e => decide (e.reg = regIn h r)) := by
    rw [List.find?_append, find_filter_eq fresh, Option.none_or]
  unfold regLast land
  dsimp only
  obtain stays | ⟨gone, settles⟩ := find_settle (n := c.issued + 1) order'
  · rw [stays, same]
    cases hf : c.flight.find? fun e => decide (e.reg = regIn h r) with
    | some e => rfl
    | none =>
      rw [mapGet_settle, List.find?_eq_none.mpr]
      intro e he
      rw [hf] at same
      exact List.find?_eq_none.mp same e (List.mem_filter.mp he).1
  · rw [gone, mapGet_settle, settles, same] <;> rfl

theorem bundle_kept {d : Dev} {core : Nat} {b : Bundle} {r : Nat} (hr : r < 64)
    (unwritten : ∀ e ∈ (bundleFx d core (coreOf d core) (inHandler d core) b).writes, e.1 ≠ r)
    (order : ((coreOf d core).flight.filter fun e => decide (e.reg = regIn (inHandler d core) r)).Pairwise (fun u v => v.k ≤ u.k)) :
    regLast (coreOf (bundleDone d core b) core) (inHandler d core) r = regLast (coreOf d core) (inHandler d core) r := by
  obtain ⟨flight, regs, -⟩ := complete_land d core b
  rw [regLast_congr flight regs]
  refine regLast_land_kept _ _ _ r (fun e he same => unwritten e he ?_) order
  exact (regIn_inj (bundleFx_low _ _ _ _ _ e he) hr).mp same

end Sys2Proof.Machine
end

section
/-!
Accumulators in moves, loads and stores (R187, R188): scaled readings, words placed, and where a store goes.
-/
namespace Sys2Proof.Machine

/-! ### The scaled reading of an accumulator (R187) -/

/-- An accumulator times 2^SCALE, rounded to 31 fraction bits. -/
def scaledOut (c : VecCore) (h : Bool) (r : Nat) : Int :=
  rne (sext 56 (regSeen c h .accSrc r) * 2 ^ (scaleSeen c h + 8).toNat) (2 ^ 24)

theorem scaleSeen_range (c : VecCore) (h : Bool) : -8 ≤ scaleSeen c h ∧ scaleSeen c h ≤ 8 := by
  unfold scaleSeen
  dsimp only
  split <;> omega

/-- A shift by SCALE and a rounding to 31 fraction bits are one rounding. -/
theorem scaled_rne (acc : Int) {scale : Int} (lo : -8 ≤ scale) (hi : scale ≤ 8) :
    (if scale ≥ 0 then rshr (acc * (2 ^ scale.toNat : Nat)) 16 else rshr acc (16 + (-scale).toNat)) =
      rne (acc * 2 ^ (scale + 8).toNat) (2 ^ 24) := by
  unfold rshr
  split_ifs with left
  · have shift : (scale + 8).toNat = scale.toNat + 8 := by omega
    rw [← rne_mul_right (k := 2 ^ 8) _ (by decide) (by decide), shift, pow_add]
    push_cast
    rw [mul_assoc]
  · have shift : (scale + 8).toNat = 8 - (-scale).toNat := by omega
    have few : (-scale).toNat ≤ 8 := by omega
    have den : 2 ^ 24 = 2 ^ (16 + (-scale).toNat) * 2 ^ (8 - (-scale).toNat) := by
      rw [← pow_add]
      congr 1
      omega
    rw [shift, den, ← rne_mul_right (k := 2 ^ (8 - (-scale).toNat)) _ (Nat.two_pow_pos _) (Nat.two_pow_pos _)]
    push_cast
    rfl

/-- The word that a D register or an accumulator gives to a move. -/
def leavingWord (c : VecCore) (h : Bool) (r : Nat) : Nat :=
  if r < 16 then (dSeen c h r).toNat else code 32 (max (-2 ^ 31) (min (2 ^ 31 - 1) (scaledOut c h r)))

section
variable {c : VecCore} {h : Bool} {r : Nat}

theorem scaledMove_accumulator (low : 16 ≤ r) (high : r < 24) :
    scaledMove (accSeen c h .accSrc (r - 16)) (scaleSeen c h) = (wordOf (satS 32 (scaledOut c h r)), overS 32 (scaledOut c h r)) := by
  obtain ⟨lo, hi⟩ := scaleSeen_range c h
  have same : accSeen c h .accSrc (r - 16) = sext 56 (regSeen c h .accSrc r) := by
    rw [accSeen, Nat.mod_eq_of_lt (by omega), show 16 + (r - 16) = r by omega]
  unfold scaledMove
  rw [scaled_rne _ lo hi, same, scaledOut]

theorem sourceWord_toNat (high : r < 24) : (sourceWord c h r).1.toNat = leavingWord c h r := by
  unfold sourceWord leavingWord
  split_ifs with low
  · rfl
  · rw [scaledMove_accumulator (by omega) high]
    dsimp only
    rw [wordOf_toNat, satS_eq_max_min]

/-- A reading that saturates sets SL. -/
theorem sourceWord_saturates (low : 16 ≤ r) (high : r < 24) (big : scaledOut c h r < -2 ^ 31 ∨ 2 ^ 31 ≤ scaledOut c h r) :
    (sourceWord c h r).2 = [(rSL, .sticky, 1)] := by
  unfold sourceWord
  rw [if_neg (by omega), scaledMove_accumulator low high]
  dsimp only
  rw [if_pos ((overS_iff 32 _).mpr big)]

theorem mem_sourceWord {e : Nat × VecWriter × Nat} (he : e ∈ (sourceWord c h r).2) : e = (rSL, .sticky, 1) := by
  unfold sourceWord at he
  split at he
  · exact absurd he List.not_mem_nil
  · dsimp only at he
    split at he
    · exact List.mem_singleton.mp he
    · exact absurd he List.not_mem_nil

theorem mem_postWrite {an : Nat} {u : Option Nat} {e : Nat × VecWriter × Nat} (he : e ∈ postWrite an u) :
    ∃ v, u = some v ∧ e = (32 + an % 8, .post, v) := by
  cases u with
  | none => exact absurd he List.not_mem_nil
  | some v => exact ⟨v, rfl, List.mem_singleton.mp he⟩

end

/-! ### What a move that faults for nothing does -/

section
variable {d : Dev} {core : Nat} {c : VecCore} {h yside : Bool} {reg an mode nsel dst src : Nat}

/-- A register move that faults for nothing names D registers and accumulators. -/
theorem regMoveFx_free (free : (regMoveFx c h dst src).faults = []) : dst < 24 ∧ src < 24 := by
  unfold regMoveFx at free
  split at free
  · exact absurd free (List.cons_ne_nil _ _)
  · next ok => omega

theorem regMoveFx_toD (hd : dst < 16) (hs : src < 24) :
    (regMoveFx c h dst src).writes = (dst, .move, leavingWord c h src) :: (sourceWord c h src).2 := by
  unfold regMoveFx
  rw [if_neg (by omega), if_pos hd]
  dsimp only
  rw [sourceWord_toNat hs]

theorem regMoveFx_place (low : 16 ≤ dst) (hd : dst < 24) (hs : src < 16) :
    (regMoveFx c h dst src).writes = [(dst, .move, accOfWord (dSeen c h src))] := by
  unfold regMoveFx
  rw [if_neg (by omega), if_neg (by omega), if_pos hs]

theorem regMoveFx_copy (low : 16 ≤ dst) (hd : dst < 24) (lowS : 16 ≤ src) (hs : src < 24) :
    (regMoveFx c h dst src).writes = [(dst, .move, regSeen c h .accSrc src % 2 ^ 56)] := by
  unfold regMoveFx accSeen
  rw [if_neg (by omega), if_neg (by omega), if_neg (by omega), Nat.mod_eq_of_lt (by omega), show 16 + (src - 16) = src by omega, code_sext]

theorem regMoveFx_regs (free : (regMoveFx c h dst src).faults = []) : ∀ e ∈ (regMoveFx c h dst src).writes, e.1 = dst ∨ e = (rSL, .sticky, 1) := by
  obtain ⟨hd, hs⟩ := regMoveFx_free free
  intro e he
  rcases lt_or_ge dst 16 with low | high
  · rw [regMoveFx_toD low hs] at he
    rcases List.mem_cons.mp he with rfl | he
    · exact .inl rfl
    · exact .inr (mem_sourceWord he)
  · rcases lt_or_ge src 16 with low | highS
    · rw [regMoveFx_place high hd low, List.mem_singleton] at he
      exact .inl (he ▸ rfl)
    · rw [regMoveFx_copy high hd highS hs, List.mem_singleton] at he
      exact .inl (he ▸ rfl)

/-- The value that a loaded word gives a register. -/
def loadValue (reg : Nat) (w : Word) : Nat := if reg < 16 then w.toNat else accOfWord w

/-- A load that faults for nothing, from the address its mode gives. -/
theorem loadFx_free (free : (loadFx d core c h yside reg an mode nsel).faults = []) : reg < 24 ∧ ∃ a u w,
    moveAddr c h an mode nsel = some (a, u) ∧ (loadFx d core c h yside reg an mode nsel).writes =
      (reg, w, loadValue reg (vecLoad d core c h yside a)) :: postWrite an u := by
  unfold loadFx loadValue at *
  split at free
  · exact absurd free (List.cons_ne_nil _ _)
  · next small =>
    rw [if_neg small]
    split at free
    · exact absurd free (List.cons_ne_nil _ _)
    · next a u address =>
      rw [address]
      dsimp only at free ⊢
      split at free
      · exact absurd free (List.cons_ne_nil _ _)
      · exact ⟨by omega, a, u, .move, rfl, rfl⟩
      · exact ⟨by omega, a, u, .move, rfl, rfl⟩
      · exact ⟨by omega, a, u, .far, rfl, rfl⟩
      · next place =>
        split at free
        · next reach => exact ⟨by omega, a, u, .far, rfl, congrArg VecFx.writes (if_pos reach)⟩
        · exact absurd free (List.cons_ne_nil _ _)

/-- A store that faults for nothing, to the address its mode gives: into the core's own memory or the external window. -/
theorem storeFx_free (free : (storeFx d c h yside reg an mode nsel).faults = []) : reg < 24 ∧ ∃ a u,
    moveAddr c h an mode nsel = some (a, u) ∧ (vecPlace a = .own ∨ vecPlace a = .window) ∧
    (storeFx d c h yside reg an mode nsel).writes = (sourceWord c h reg).2 ++ postWrite an u ∧
    (storeFx d c h yside reg an mode nsel).stores = [(yside, a, (sourceWord c h reg).1)] := by
  unfold storeFx at *
  split at free
  · exact absurd free (List.cons_ne_nil _ _)
  · next small =>
    rw [if_neg small]
    split at free
    · exact absurd free (List.cons_ne_nil _ _)
    · next a u address =>
      refine ⟨by omega, a, u, address, ?_⟩
      dsimp only at free ⊢
      split at free
      · exact absurd free (List.cons_ne_nil _ _)
      · exact absurd free (List.cons_ne_nil _ _)
      · exact absurd free (List.cons_ne_nil _ _)
      · next place => exact ⟨.inl place, rfl, rfl⟩
      · next place =>
        split at free
        · next reach =>
          rw [if_pos reach]
          exact ⟨.inr place, rfl, rfl⟩
        · exact absurd free (List.cons_ne_nil _ _)

/-- A move writes SL only to set it. -/
theorem moveFx_sticky {m : MoveField} (free : (moveFx d core c h yside m).faults = []) :
    ∀ e ∈ (moveFx d core c h yside m).writes, e.1 = rSL → e = (rSL, .sticky, 1) := by
  intro e he sl
  cases m with
  | none => exact absurd he List.not_mem_nil
  | load reg an mode nsel =>
    obtain ⟨small, a, u, w, -, writes⟩ := loadFx_free free
    have he : e ∈ (loadFx d core c h yside reg an mode nsel).writes := he
    rw [writes] at he
    rcases List.mem_cons.mp he with rfl | he
    · have : reg = 59 := sl
      omega
    · obtain ⟨v, -, rfl⟩ := mem_postWrite he
      have : 32 + an % 8 = 59 := sl
      omega
  | store reg an mode nsel =>
    obtain ⟨small, a, u, -, -, writes, -⟩ := storeFx_free free
    have he : e ∈ (storeFx d c h yside reg an mode nsel).writes := he
    rw [writes] at he
    rcases List.mem_append.mp he with he | he
    · exact mem_sourceWord he
    · obtain ⟨v, -, rfl⟩ := mem_postWrite he
      have : 32 + an % 8 = 59 := sl
      omega
  | mov dst src =>
    rcases regMoveFx_regs free e he with same | set
    · have small := (regMoveFx_free free).1
      have : e.1 = 59 := sl
      omega
    · exact set

end

end Sys2Proof.Machine
end

section
/-!
Stores of a bundle (R187, R190): words of memory after a store, the core's own memories and the external window; and the settling of
O53.
-/
namespace Sys2Proof.Machine

/-! ### Words of a memory of bytes -/

/-- A run of bytes leaves every place outside it. -/
theorem byteGet_bytesSet_outside {m : List (Nat × Byte)} {a j : Nat} {bs : List Byte} (out : j < a ∨ a + bs.length ≤ j) :
    byteGet (bytesSet m a bs) j = byteGet m j := by
  unfold byteGet bytesSet
  rw [mapGet_mapSetRun]
  split
  · next le => rw [List.getD_eq_default _ _ (by omega)]
  · rfl

theorem bytesGet_bytesSet (m : List (Nat × Byte)) (a : Nat) (bs : List Byte) : bytesGet (bytesSet m a bs) a bs.length = bs := by
  have key : ∀ (l bs : List Byte) (k : Nat), bs.length = k + l.length → bs.drop k = l →
      mapGetRun byte0 (bytesSet m a bs) (a + k) l.length = l := by
    intro l
    induction l with
    | nil => exact fun _ _ _ _ => rfl
    | cons b t ih =>
      intro bs k len rest
      rw [List.length_cons, mapGetRun, Nat.add_assoc, ih bs (k + 1) (by rw [len, List.length_cons]; omega)
        (by rw [← List.drop_drop, rest, List.drop_one, List.tail_cons])]
      congr 1
      rw [bytesSet, mapGet_mapSetRun, if_pos (Nat.le_add_right a k), Nat.add_sub_cancel_left]
      have here : bs[k]? = some b := by
        have := congrArg List.head? rest
        rwa [List.head?_drop, List.head?_cons] at this
      rw [List.getD_eq_getElem?_getD, here, Option.getD_some]
  exact key bs bs 0 (by simp) rfl

theorem leNat_leBytes (n v : Nat) : leNat (leBytes n v) = v % 256 ^ n := by
  induction n generalizing v with
  | zero => rw [pow_zero, Nat.mod_one]; rfl
  | succ k ih =>
    have cons : leNat (leBytes (k + 1) v) = leNat (leBytes k (v / 256)) * 256 + v % 256 := by
      show leNat (leBytes k (v / 256)) * 256 + (BitVec.ofNat 8 v).toNat = _
      rw [BitVec.toNat_ofNat]
    rw [cons, ih, pow_succ', Nat.mod_mul]
    omega

/-- A word reads back. -/
theorem wordGet_wordSet (m : List (Nat × Byte)) (a : Nat) (w : Word) : wordGet (wordSet m a w) a = w := by
  have whole := bytesGet_bytesSet m a (leBytes 4 w.toNat)
  rw [length_leBytes] at whole
  have small : w.toNat < 256 ^ 4 := w.isLt
  rw [wordGet, wordSet, whole, leNat_leBytes, Nat.mod_eq_of_lt small, BitVec.ofNat_toNat, BitVec.setWidth_eq]

/-- A word leaves every byte outside it. -/
theorem byteGet_wordSet_outside {m : List (Nat × Byte)} {a j : Nat} {w : Word} (out : j < a ∨ a + 4 ≤ j) :
    byteGet (wordSet m a w) j = byteGet m j :=
  byteGet_bytesSet_outside (by rw [length_leBytes]; exact out)

/-! ### What a bundle does beyond its core -/

/-- A descriptor that is submitted writes WD's and EVT's registers and WD alone. -/
theorem submitDesc_rest (d : Dev) (ws : List Word) (p : Nat) : { submitDesc d ws p with regs := d.regs, wd := d.wd } = d := by
  unfold submitDesc
  split
  · rfl
  · exact (writeRecord_rec _ _ _ _).rest

theorem outside_rest (d : Dev) (core : Nat) (c : VecCore) (h : Bool) (op : VecOp) :
    { outside d core c h op with regs := d.regs, wd := d.wd } = d := by
  have raised (e : Nat) : { raiseEvt d e with regs := d.regs, wd := d.wd } = d := by
    have rest := (raiseEvt_only d e).rest
    have wd := congrArg Dev.wd rest
    calc { raiseEvt d e with regs := d.regs, wd := d.wd } = { { raiseEvt d e with regs := d.regs } with wd := d.wd } := rfl
      _ = d := by rw [rest]
  unfold outside
  split
  · split
    · rfl
    · exact submitDesc_rest _ _ _
  · split
    · rfl
    · exact raised _
  · rfl

theorem outside_mem (d : Dev) (core : Nat) (c : VecCore) (h : Bool) (op : VecOp) : (outside d core c h op).mem = d.mem := by
  have rest := congrArg Dev.mem (outside_rest d core c h op)
  exact rest

theorem outside_vec (d : Dev) (core : Nat) (c : VecCore) (h : Bool) (op : VecOp) : (outside d core c h op).vec = d.vec := by
  have rest := congrArg Dev.vec (outside_rest d core c h op)
  exact rest

/-- MEM1 after the window stores of a bundle. -/
def windowWritten (m : List (Nat × Byte)) (ws : List (Nat × Word)) : List (Nat × Byte) := ws.foldr (fun w m => wordSet m w.1 w.2) m

/-- What a bundle leaves, but for the core itself and its performance counters. -/
def bundleOutside (d : Dev) (core : Nat) (b : Bundle) : Dev :=
  let c := coreOf d core
  let h := inHandler d core
  let d1 := outside d core c h b.op
  setMem1 d1 (windowWritten d1.mem.mem1 (windowStores c h (bundleFx d core c h b)))

/-- The counts that a bundle adds: it issued, and under a repeat. -/
def bundleHits (d : Dev) (core : Nat) (repeated : Bool) : Dev :=
  let d1 := perfHit d (20 + core) 0x10 1
  if repeated then perfHit d1 (20 + core) 0x14 1 else d1

theorem bundleHits_only (d : Dev) (core : Nat) (repeated : Bool) : OnlyWords (perfWords (20 + core)) d (bundleHits d core repeated) := by
  unfold bundleHits
  dsimp only
  split
  · exact (perfHit_only _ _ _ _).trans (perfHit_only _ _ _ _)
  · exact perfHit_only _ _ _ _

theorem bundleDone_hits (d : Dev) (core : Nat) (b : Bundle) : bundleDone d core b =
    bundleHits (setCore (bundleOutside d core b) core (coreOf (bundleDone d core b) core)) core (coreOf d core).rep.isSome := by
  rw [bundleDone_core]
  rfl

/-- A bundle's effects are those outside, the core's and the counts of its performance counters. -/
theorem bundleDone_counts (d : Dev) (core : Nat) (b : Bundle) : OnlyWords (perfWords (20 + core))
    (setCore (bundleOutside d core b) core (coreOf (bundleDone d core b) core)) (bundleDone d core b) := by
  have only := bundleHits_only (setCore (bundleOutside d core b) core (coreOf (bundleDone d core b) core)) core (coreOf d core).rep.isSome
  rwa [← bundleDone_hits] at only

theorem bundleDone_mem (d : Dev) (core : Nat) (b : Bundle) : (bundleDone d core b).mem = { d.mem with
    mem1 := windowWritten d.mem.mem1 (windowStores (coreOf d core) (inHandler d core) (bundleFx d core (coreOf d core) (inHandler d core) b)) } := by
  have mem := congrArg Dev.mem (bundleDone_counts d core b).rest
  have mem : (bundleDone d core b).mem = (bundleOutside d core b).mem := mem
  rw [mem, bundleOutside]
  show ({ (outside _ _ _ _ _).mem with mem1 := windowWritten (outside _ _ _ _ _).mem.mem1 _ } : Mem) = _
  rw [outside_mem]

/-! ### Stores -/

section
variable {a b : VecFx} {yside : Bool} {o : Nat}

theorem joinFx_stores_left {s : Bool × Nat × Word} (h : a.stores.find? (fun s => decide (s.1 = yside ∧ s.2.1 = o)) = some s) :
    (joinFx a b).stores.find? (fun s => decide (s.1 = yside ∧ s.2.1 = o)) = some s := by
  simp only [joinFx, List.find?_append, h, Option.some_or]

theorem joinFx_stores_right (h : ∀ s ∈ a.stores, s.1 ≠ yside) :
    (joinFx a b).stores.find? (fun s => decide (s.1 = yside ∧ s.2.1 = o)) = b.stores.find? (fun s => decide (s.1 = yside ∧ s.2.1 = o)) := by
  have none : a.stores.find? (fun s => decide (s.1 = yside ∧ s.2.1 = o)) = none :=
    List.find?_eq_none.mpr fun s hs both => h s hs (of_decide_eq_true both).1
  simp only [joinFx, List.find?_append, none, Option.none_or]
  refine find_filter_of _ _ _ fun s both => List.all_eq_true.mpr fun v hv => decide_eq_true (.inr ?_)
  rw [(of_decide_eq_true both).1]
  exact h v hv

end

theorem loadFx_stores (d : Dev) (core : Nat) (c : VecCore) (h yside : Bool) (reg an mode nsel : Nat) :
    (loadFx d core c h yside reg an mode nsel).stores = [] := by
  unfold loadFx
  dsimp only
  repeat' split
  all_goals rfl

theorem regMoveFx_stores (c : VecCore) (h : Bool) (dst src : Nat) : (regMoveFx c h dst src).stores = [] := by
  unfold regMoveFx
  dsimp only
  repeat' split
  all_goals rfl

theorem aguFx_stores (c : VecCore) (h : Bool) (g : AguField) : (aguFx c h g).stores = [] := by
  unfold aguFx
  dsimp only
  repeat' split
  all_goals rfl

theorem moveFx_stores_none {d : Dev} {core : Nat} {c : VecCore} {h yside : Bool} {m : MoveField} (not : ∀ q b c e, m ≠ .store q b c e) :
    (moveFx d core c h yside m).stores = [] := by
  cases m with
  | none => rfl
  | load reg an mode nsel => exact loadFx_stores _ _ _ _ _ _ _ _ _
  | store reg an mode nsel => exact absurd rfl (not _ _ _ _)
  | mov dst src => exact regMoveFx_stores _ _ _ _

/-- A move stores on its own side. -/
theorem moveFx_side {d : Dev} {core : Nat} {c : VecCore} {h yside : Bool} {m : MoveField} (free : (moveFx d core c h yside m).faults = []) :
    ∀ s ∈ (moveFx d core c h yside m).stores, s.1 = yside := by
  intro s hs
  cases m with
  | store reg an mode nsel =>
    obtain ⟨-, a, u, -, -, -, stores⟩ := storeFx_free free
    have hs : s ∈ (storeFx d c h yside reg an mode nsel).stores := hs
    rw [stores] at hs
    rw [List.mem_singleton.mp hs]
  | none | load | mov =>
    rw [moveFx_stores_none (by simp)] at hs
    exact absurd hs List.not_mem_nil

/-- A store to the core's own memory is the newest in flight to its place. -/
theorem land_store_find (c : VecCore) (h : Bool) (fx : VecFx) {yside : Bool} {a : Nat} {w : Word} (own : a < 0x8000)
    (first : fx.stores.find? (fun s => decide (s.1 = yside ∧ s.2.1 = a)) = some (yside, a, w)) :
    (land c h fx).stores.find? (fun e => decide (e.yside = yside ∧ e.addr = a)) = some ⟨yside, a, w, c.issued⟩ := by
  have mine : (fx.stores.filter fun s => decide (s.2.1 < 0x8000)).find? (fun s => decide (s.1 = yside ∧ s.2.1 = a)) = some (yside, a, w) := by
    rw [find_filter_of _ _ _ fun s both => ?_, first]
    rw [(of_decide_eq_true both).2]
    exact decide_eq_true own
  have fresh : (List.filter (fun s : VecStore => decide (¬s.k + 2 ≤ c.issued + 1))
      ((fx.stores.filter fun s => decide (s.2.1 < 0x8000)).map fun s => (⟨s.1, s.2.1, s.2.2, c.issued⟩ : VecStore))) =
      (fx.stores.filter fun s => decide (s.2.1 < 0x8000)).map fun s => (⟨s.1, s.2.1, s.2.2, c.issued⟩ : VecStore) := by
    rw [List.filter_eq_self]
    intro e he
    obtain ⟨s, -, rfl⟩ := List.mem_map.mp he
    simp
  unfold land
  dsimp only
  rw [List.filter_append, fresh, List.find?_append, List.find?_map]
  show (Option.map _ ((fx.stores.filter _).find? fun s => decide (s.1 = yside ∧ s.2.1 = a))).or _ = _
  rw [mine]
  rfl

theorem vecPlace_own {a : Nat} (h : vecPlace a = .own) : a < 0x8000 := by
  unfold vecPlace at h
  split at h
  · omega
  · split at h
    · assumption
    · split at h
      · cases h
      · split at h <;> cases h

theorem vecPlace_window {a : Nat} (h : vecPlace a = .window) : ¬a < 0x8000 := by
  intro low
  unfold vecPlace at h
  split at h
  · cases h
  · cases h

/-! ### The moves of a bundle -/

section
variable {d : Dev} {core : Nat} {yside : Bool} {m other : MoveField} {g : AguField}

/-- The other side's move faults for nothing either. -/
theorem FaultFree.otherMove (free : FaultFree d core (moveBundle yside m other g)) :
    (moveFx d core (coreOf d core) (inHandler d core) (!yside) other).faults = [] := by
  cases yside with
  | false => exact free.yMove
  | true => exact free.xMove

/-- SL stands after a move that saturates, whatever the other side does. -/
theorem move_saturates (free : FaultFree d core (moveBundle yside m other g))
    (sets : (rSL, .sticky, 1) ∈ (moveFx d core (coreOf d core) (inHandler d core) yside m).writes) :
    regLast (coreOf (bundleDone d core (moveBundle yside m other g)) core) (inHandler d core) rSL = 1 := by
  refine complete_value (by decide) (e := (rSL, .sticky, 1)) ?_
  have writes : ∃ v ∈ (bundleFx d core (coreOf d core) (inHandler d core) (moveBundle yside m other g)).writes, v.1 = rSL := by
    obtain ⟨v, hv, same⟩ : ∃ v ∈ (joinFx (moveFx d core (coreOf d core) (inHandler d core) true (moveBundle yside m other g).y)
        (joinFx (moveFx d core (coreOf d core) (inHandler d core) false (moveBundle yside m other g).x)
          (joinFx {} (aguFx (coreOf d core) (inHandler d core) g)))).writes, v.1 = rSL := by
      cases yside with
      | true => exact joinFx_writes (.inl sets)
      | false =>
        obtain ⟨v, hv, same⟩ := joinFx_writes (b := joinFx {} (aguFx (coreOf d core) (inHandler d core) g)) (.inl sets)
        obtain ⟨u, hu, same'⟩ := joinFx_writes (a := moveFx d core (coreOf d core) (inHandler d core) true other) (.inr hv)
        exact ⟨u, hu, same'.trans same⟩
    obtain ⟨u, hu, same'⟩ := joinFx_writes (a := { faults := ctlFaults (coreOf d core) (.mac .nop 0 0 0 0 0) }) (.inr hv)
    exact ⟨u, hu, same'.trans same⟩
  have all : ∀ e ∈ (bundleFx d core (coreOf d core) (inHandler d core) (moveBundle yside m other g)).writes, e.1 = rSL → e = (rSL, .sticky, 1) := by
    intro e he sl
    obtain he | he := mem_joinFx he
    · exact absurd he List.not_mem_nil
    · obtain he | he := mem_joinFx he
      · exact moveFx_sticky free.yMove e he sl
      · obtain he | he := mem_joinFx he
        · exact moveFx_sticky free.xMove e he sl
        · obtain he | he := mem_joinFx he
          · exact absurd he List.not_mem_nil
          · have range := aguFx_regs _ _ _ e he
            have : e.1 = 59 := sl
            omega
  obtain ⟨v, hv, same⟩ := writes
  obtain rfl := all v hv same
  exact find_of_all_eq hv all

/-- An accumulator that no move of a bundle writes keeps its value. -/
theorem move_keeps {r : Nat} (low : 16 ≤ r) (high : r < 24)
    (own : ∀ e ∈ (moveFx d core (coreOf d core) (inHandler d core) yside m).writes, e.1 ≠ r)
    (onY : Unmoved d core .none other r) (onX : Unmoved d core other .none r)
    (order : ((coreOf d core).flight.filter fun e => decide (e.reg = regIn (inHandler d core) r)).Pairwise (fun u v => v.k ≤ u.k)) :
    regLast (coreOf (bundleDone d core (moveBundle yside m other g)) core) (inHandler d core) r = regLast (coreOf d core) (inHandler d core) r := by
  refine bundle_kept (by omega) (move_unwritten own ?_ fun e he => ?_) order
  · cases yside with
    | true => exact fun e he => onX e (List.mem_append_right _ he)
    | false => exact fun e he => onY e (List.mem_append_left _ he)
  · have := aguFx_regs _ _ _ e he
    omega

end

/-! ### Stores of a move -/

section
variable {d : Dev} {core : Nat} {yside : Bool} {reg an mode nsel a : Nat} {u : Option Nat} {other : MoveField} {g : AguField}
  (free : FaultFree d core (moveBundle yside (.store reg an mode nsel) other g))
  (address : moveAddr (coreOf d core) (inHandler d core) an mode nsel = some (a, u))
include free address

/-- What the store of a store command writes and stores. -/
theorem store_effects : reg < 24 ∧ (vecPlace a = .own ∨ vecPlace a = .window) ∧
    (moveFx d core (coreOf d core) (inHandler d core) yside (.store reg an mode nsel)).writes =
      (sourceWord (coreOf d core) (inHandler d core) reg).2 ++ postWrite an u ∧
    (moveFx d core (coreOf d core) (inHandler d core) yside (.store reg an mode nsel)).stores =
      [(yside, a, BitVec.ofNat 32 (leavingWord (coreOf d core) (inHandler d core) reg))] := by
  obtain ⟨small, a', u', address', place, writes, stores⟩ := storeFx_free free.move
  obtain ⟨rfl, rfl⟩ : a' = a ∧ u' = u := by
    rw [address] at address'
    simpa [eq_comm] using address'
  refine ⟨small, place, writes, ?_⟩
  rw [← sourceWord_toNat small, BitVec.ofNat_toNat, BitVec.setWidth_eq]
  exact stores

theorem store_own (own : vecPlace a = .own) :
    (coreOf (bundleDone d core (moveBundle yside (.store reg an mode nsel) other g)) core).stores.find?
      (fun e => decide (e.yside = yside ∧ e.addr = a)) =
    some ⟨yside, a, BitVec.ofNat 32 (leavingWord (coreOf d core) (inHandler d core) reg), (coreOf d core).issued⟩ := by
  obtain ⟨-, -, -, -, stores, -⟩ := complete_land d core (moveBundle yside (.store reg an mode nsel) other g)
  rw [stores]
  refine land_store_find _ _ _ (vecPlace_own own) ?_
  obtain ⟨-, -, -, mine⟩ := store_effects free address
  have here : (moveFx d core (coreOf d core) (inHandler d core) yside (.store reg an mode nsel)).stores.find?
      (fun s => decide (s.1 = yside ∧ s.2.1 = a)) =
      some (yside, a, BitVec.ofNat 32 (leavingWord (coreOf d core) (inHandler d core) reg)) := by
    rw [mine]
    simp
  refine (joinFx_stores_right fun s hs => absurd hs List.not_mem_nil).trans ?_
  cases yside with
  | true => exact joinFx_stores_left here
  | false =>
    have elsewhere : ∀ s ∈ (moveFx d core (coreOf d core) (inHandler d core) true other).stores, s.1 ≠ false := fun s hs => by
      rw [moveFx_side free.yMove s hs]
      decide
    exact (joinFx_stores_right elsewhere).trans (joinFx_stores_left here)

theorem store_window (window : vecPlace a = .window) (alone : ∀ q b c e, other ≠ .store q b c e) :
    wordGet (bundleDone d core (moveBundle yside (.store reg an mode nsel) other g)).mem.mem1
      (windowOff (coreOf d core) (inHandler d core) a) = BitVec.ofNat 32 (leavingWord (coreOf d core) (inHandler d core) reg) := by
  obtain ⟨-, -, -, mine⟩ := store_effects free address
  have one : (bundleFx d core (coreOf d core) (inHandler d core) (moveBundle yside (.store reg an mode nsel) other g)).stores =
      [(yside, a, BitVec.ofNat 32 (leavingWord (coreOf d core) (inHandler d core) reg))] := by
    have no := aguFx_stores (coreOf d core) (inHandler d core) g
    cases yside with
    | true => simp [bundleFx, moveBundle, joinFx, mine, moveFx_stores_none alone, no, opFx, macFx]
    | false => simp [bundleFx, moveBundle, joinFx, mine, moveFx_stores_none alone, no, opFx, macFx]
  rw [bundleDone_mem]
  dsimp only
  have kept : windowStores (coreOf d core) (inHandler d core)
      (bundleFx d core (coreOf d core) (inHandler d core) (moveBundle yside (.store reg an mode nsel) other g)) =
      [(windowOff (coreOf d core) (inHandler d core) a, BitVec.ofNat 32 (leavingWord (coreOf d core) (inHandler d core) reg))] := by
    simp [windowStores, one, Nat.not_lt.mp (vecPlace_window window)]
  rw [kept]
  exact wordGet_wordSet _ _ _

end

/-! ### The commands -/

section
variable {s : State} {core : Nat} {other : MoveField} {g : AguField} {c : Instr} {yside : Bool}

/-- Accumulator r keeps its value in core n after a bundle, where the other move does not write it and what is in flight to it stands
newest first. -/
def AccKept (s : State) (core : Nat) (other : MoveField) (r : Nat) (n : VecCore) : Prop :=
  16 ≤ r → r < 24 → Unmoved s.dev core .none other r → Unmoved s.dev core other .none r →
    ((coreOf s.dev core).flight.filter fun e => e.reg = regIn (inHandler s.dev core) r).Pairwise (fun u v => v.k ≤ u.k) →
    regLast n (inHandler s.dev core) r = regLast (coreOf s.dev core) (inHandler s.dev core) r

/-- A register move: scaled into a D register, placed or copied into an accumulator. -/
theorem movReg_issues {dst src : Nat} (hb : c.bundle = some (core, moveBundle yside (.mov dst src) other g)) :
    Issues c s fun n _ =>
      (dst < 16 → First s.dev core yside other dst → regLast n (inHandler s.dev core) dst = leavingWord (coreOf s.dev core) (inHandler s.dev core) src) ∧
      (dst < 16 → 16 ≤ src → scaledOut (coreOf s.dev core) (inHandler s.dev core) src < -2 ^ 31 ∨
          2 ^ 31 ≤ scaledOut (coreOf s.dev core) (inHandler s.dev core) src → regLast n (inHandler s.dev core) rSL = 1) ∧
      (16 ≤ dst → src < 16 → First s.dev core yside other dst →
        regLast n (inHandler s.dev core) dst = accOfWord (dSeen (coreOf s.dev core) (inHandler s.dev core) src)) ∧
      (16 ≤ dst → 16 ≤ src → First s.dev core yside other dst →
        regLast n (inHandler s.dev core) dst = regSeen (coreOf s.dev core) (inHandler s.dev core) .accSrc src % 2 ^ 56) ∧
      (src ≠ dst → AccKept s core other src n) := by
  refine issues_bundle hb fun free _ => ?_
  obtain ⟨hd, hs⟩ := regMoveFx_free free.move
  have value {v : Nat} {t : List (Nat × VecWriter × Nat)} (first : First s.dev core yside other dst)
      (writes : (regMoveFx (coreOf s.dev core) (inHandler s.dev core) dst src).writes = (dst, .move, v) :: t) :
      regLast (coreOf (bundleDone s.dev core (moveBundle yside (.mov dst src) other g)) core) (inHandler s.dev core) dst = v :=
    move_value (w := .move) (by omega) first (by
      show (regMoveFx _ _ _ _).writes.find? _ = _
      rw [writes]
      simp)
  refine ⟨fun low first => value first (regMoveFx_toD low hs), fun low acc big => move_saturates free ?_,
    fun high low first => value first (regMoveFx_place high hd low), fun high highS first => value first (regMoveFx_copy high hd highS hs),
    fun apart low high onY onX order => move_keeps low high (fun e he => ?_) onY onX order⟩
  · show _ ∈ (regMoveFx _ _ _ _).writes
    rw [regMoveFx_toD low hs, sourceWord_saturates acc hs big]
    exact List.mem_cons_of_mem _ (List.mem_singleton.mpr rfl)
  · obtain same | rfl := regMoveFx_regs free.move e he
    · exact fun mine => apart (mine.symm.trans same)
    · show 59 ≠ src
      omega

section
variable {reg an mode nsel a : Nat} {u : Option Nat}
  (address : moveAddr (coreOf s.dev core) (inHandler s.dev core) an mode nsel = some (a, u))
include address

/-- A load gives its register the word at its address. -/
theorem load_issues (hb : c.bundle = some (core, moveBundle yside (.load reg an mode nsel) other g)) :
    Issues c s fun n _ => First s.dev core yside other reg → regLast n (inHandler s.dev core) reg =
      loadValue reg (vecLoad s.dev core (coreOf s.dev core) (inHandler s.dev core) yside a) := by
  refine issues_bundle hb fun free _ first => ?_
  obtain ⟨small, a', u', w, address', writes⟩ := loadFx_free free.move
  obtain ⟨rfl, rfl⟩ : a' = a ∧ u' = u := by
    rw [address] at address'
    simpa [eq_comm] using address'
  refine move_value (w := w) (by omega) first ?_
  show (loadFx _ _ _ _ _ _ _ _ _).writes.find? _ = _
  rw [writes]
  simp

/-- A store puts the word of its register at its address, and leaves accumulators. -/
theorem store_issues (hb : c.bundle = some (core, moveBundle yside (.store reg an mode nsel) other g)) :
    Issues c s fun n d =>
      (vecPlace a = .own → n.stores.find? (fun e => e.yside = yside ∧ e.addr = a) =
        some ⟨yside, a, BitVec.ofNat 32 (leavingWord (coreOf s.dev core) (inHandler s.dev core) reg), (coreOf s.dev core).issued⟩) ∧
      (vecPlace a = .window → (∀ q b c e, other ≠ .store q b c e) →
        wordGet d.mem.mem1 (windowOff (coreOf s.dev core) (inHandler s.dev core) a) =
          BitVec.ofNat 32 (leavingWord (coreOf s.dev core) (inHandler s.dev core) reg)) ∧
      (vecPlace a = .own ∨ vecPlace a = .window) ∧
      (16 ≤ reg → scaledOut (coreOf s.dev core) (inHandler s.dev core) reg < -2 ^ 31 ∨
        2 ^ 31 ≤ scaledOut (coreOf s.dev core) (inHandler s.dev core) reg → regLast n (inHandler s.dev core) rSL = 1) ∧
      AccKept s core other reg n := by
  refine issues_bundle hb fun free _ => ?_
  obtain ⟨small, place, writes, -⟩ := store_effects free address
  refine ⟨store_own free address, store_window free address, place, fun acc big => move_saturates free ?_,
    fun low high onY onX order => move_keeps low high (fun e he => ?_) onY onX order⟩
  · rw [writes, sourceWord_saturates acc small big]
    exact List.mem_cons_self
  · rw [writes] at he
    rcases List.mem_append.mp he with he | he
    · rw [mem_sourceWord he]
      show 59 ≠ reg
      omega
    · obtain ⟨v, -, rfl⟩ := mem_postWrite he
      show 32 + an % 8 ≠ reg
      omega

end

end

/-- Settles O53: register moves, loads and stores, on either side. -/
theorem accumulatorMovesScaleAndPlace : Obligations.AccumulatorMovesScaleAndPlace := by
  intro s core other g k h sc scale scaled ovf out placed first kept
  refine ⟨fun yside dst src => movReg_issues rfl, fun reg an mode nsel a u address => ⟨?ldx, ?ldy, ?stx, ?sty⟩⟩
  case ldx =>
    refine issues_mono (fun n d loaded first => (loaded first).trans ?_) (load_issues (yside := false) address rfl)
    exact rfl
  case ldy =>
    refine issues_mono (fun n d loaded first => (loaded first).trans ?_) (load_issues (yside := true) address rfl)
    exact rfl
  case stx => exact store_issues (yside := false) address rfl
  case sty => exact store_issues (yside := true) address rfl

end Sys2Proof.Machine
end

section
/-!
Address registers (R190 to R192, Table 9-4, Table 9-11): steps under a modifier, the AGU field's and a move's post-updates; and the
settling of O54.
-/
namespace Sys2Proof.Machine

/-! ### Bits reversed -/

theorem revBits_succ (n x : Nat) : revBits (n + 1) x = revBits n x * 2 + x / 2 ^ n % 2 := by
  rw [revBits, List.range_succ, List.foldl_append]
  rfl

theorem revBits_lt (n x : Nat) : revBits n x < 2 ^ n := by
  induction n with
  | zero => exact Nat.one_pos
  | succ n ih =>
    rw [revBits_succ, pow_succ]
    omega

theorem testBit_revBits {n : Nat} (x : Nat) {i : Nat} (hi : i < n) : (revBits n x).testBit i = x.testBit (n - 1 - i) := by
  induction n generalizing i with
  | zero => exact absurd hi (Nat.not_lt_zero i)
  | succ n ih =>
    rw [revBits_succ, Nat.add_sub_cancel]
    cases i with
    | zero =>
      rw [Nat.testBit_zero, Nat.testBit_eq_decide_div_mod_eq, Nat.sub_zero]
      congr 2
      omega
    | succ i =>
      rw [Nat.testBit_succ, show (revBits n x * 2 + x / 2 ^ n % 2) / 2 = revBits n x by omega, ih (Nat.succ_lt_succ_iff.mp hi)]
      congr 1
      omega

/-! ### Steps under a modifier -/

/-- z is a stepped by v under the modifier m: linear, a ring, or bits reversed (R190 to R192). -/
def Stepped (a m : Nat) (v : Int) (z : Nat) : Prop :=
  (m / 2 ^ 30 = 0 → z = code 24 ((a : Int) + v)) ∧
  (m / 2 ^ 30 = 1 →
    let b : Int := m / 2 ^ 15 % 2 ^ 15
    let len : Int := if m % 2 ^ 15 = 0 then 32768 else m % 2 ^ 15
    (z : Int) = b + ((a : Int) - b + v) % len) ∧
  (m / 2 ^ 30 = 2 →
    let b : Nat := m / 2 ^ 15 % 2 ^ 15
    let n := m % 16
    let o := code 24 ((a : Int) - (b : Int))
    (n = 0 → z = code 24 ((a : Int) + v)) ∧
    (0 < n → ∃ w, w < 2 ^ n ∧ z = code 24 ((b + (o / 2 ^ n * 2 ^ n + w) : Nat) : Int) ∧
      ∀ i, i < n → w.testBit i =
        ((revBits n (o % 2 ^ n) + revBits n (code 24 v % 2 ^ n)) % 2 ^ n).testBit (n - 1 - i)) ∧
    ∀ x i, i < n → (revBits n x).testBit i = x.testBit (n - 1 - i))

theorem code_natCast (n x : Nat) : code n (x : Int) = x % 2 ^ n := by
  rw [code, ← Int.natCast_mod, Int.toNat_natCast]

/-- A ring's address lies in 24 bits. -/
theorem ring_code {b len : Nat} (hb : b < 2 ^ 15) (pos : 0 < len) (hl : len ≤ 2 ^ 15) (x : Int) :
    (code 24 ((b : Int) + x % (len : Int)) : Int) = b + x % (len : Int) := by
  have low := Int.emod_nonneg x (Int.natCast_ne_zero.mpr pos.ne')
  have high := Int.emod_lt_of_pos x (Int.natCast_pos.mpr pos)
  obtain ⟨r, hr⟩ := Int.eq_ofNat_of_zero_le low
  rw [hr] at high ⊢
  rw [← Int.natCast_add, code_natCast, Nat.mod_eq_of_lt (by omega)]

/-- A step that a modifier allows is one of the three. -/
theorem stepAddr_stepped {m a z : Nat} {v : Int} (h : stepAddr m a v = some z) : m / 2 ^ 30 ≠ 3 ∧ Stepped a m v z := by
  have reversal (n : Nat) : ∀ x i, i < n → (revBits n x).testBit i = x.testBit (n - 1 - i) := fun x i hi => testBit_revBits x hi
  unfold stepAddr at h
  dsimp only at h
  split at h
  · next linear =>
    exact ⟨by omega, fun _ => (Option.some.inj h).symm, fun ring => by omega, fun reversed => by omega⟩
  · next ring =>
    refine ⟨by omega, fun linear => by omega, fun _ => ?_, fun reversed => by omega⟩
    rw [← Option.some.inj h, ring_code (Nat.mod_lt _ (by decide)) (by split <;> omega) (by split <;> omega)]
    split <;> rfl
  · next reversed =>
    refine ⟨by omega, fun linear => by omega, fun ring => by omega, fun _ => ⟨fun none => ?_, fun some => ?_, reversal _⟩⟩
    · rw [if_pos none] at h
      exact (Option.some.inj h).symm
    · rw [if_neg (by omega)] at h
      refine ⟨_, revBits_lt _ _, ?_, fun i hi => testBit_revBits _ hi⟩
      rw [code_natCast, ← Option.some.inj h, Nat.add_assoc]
  · exact absurd h (by simp)

/-! ### The AGU field -/

section
variable {d : Dev} {core : Nat} {x y : MoveField} {g : AguField}

/-- The AGU field's write lands where no move writes its register. -/
theorem agu_value {r v : Nat} {w : VecWriter} (hr : r < 64) (unmoved : Unmoved d core x y r)
    (writes : (aguFx (coreOf d core) (inHandler d core) g).writes = [(r, w, v)]) :
    regLast (coreOf (bundleDone d core ⟨.mac .nop 0 0 0 0 0, x, y, g⟩) core) (inHandler d core) r = v := by
  refine complete_value hr (e := (r, w, v)) ?_
  refine (joinFx_find_right fun e he => absurd he List.not_mem_nil).trans ?_
  refine (joinFx_find_right fun e he => unmoved e (List.mem_append_left _ he)).trans ?_
  refine (joinFx_find_right fun e he => unmoved e (List.mem_append_right _ he)).trans ?_
  refine (joinFx_find_right fun e he => absurd he List.not_mem_nil).trans ?_
  rw [writes]
  simp

end

/-- An address update by a step of its register. -/
theorem agu_issues {c : Instr} {s : State} {core aop an : Nat} {x y : MoveField} {v : Int} (small : an < 8)
    (hb : c.bundle = some (core, ⟨.mac .nop 0 0 0 0 0, x, y, ⟨aop, an⟩⟩))
    (steps : aguFx (coreOf s.dev core) (inHandler s.dev core) ⟨aop, an⟩ =
      match stepAddr (regSeen (coreOf s.dev core) (inHandler s.dev core) .agu (48 + an % 8))
        (regSeen (coreOf s.dev core) (inHandler s.dev core) .agu (32 + an % 8)) v with
      | none => { faults := [fMode] }
      | some z => { writes := [(32 + an % 8, .agu, z)] }) :
    Issues c s fun n _ => regSeen (coreOf s.dev core) (inHandler s.dev core) .agu (48 + an) / 2 ^ 30 ≠ 3 ∧
      (Unmoved s.dev core x y (32 + an) → Stepped (regSeen (coreOf s.dev core) (inHandler s.dev core) .agu (32 + an))
        (regSeen (coreOf s.dev core) (inHandler s.dev core) .agu (48 + an)) v (regLast n (inHandler s.dev core) (32 + an))) := by
  refine issues_bundle hb fun free _ => ?_
  have free := free.agu
  rw [Nat.mod_eq_of_lt small] at steps
  dsimp only at free
  rw [steps] at free
  split at free
  · exact absurd free (List.cons_ne_nil _ _)
  · next z step =>
    obtain ⟨allowed, stepped⟩ := stepAddr_stepped step
    refine ⟨allowed, fun unmoved => ?_⟩
    rw [agu_value (w := .agu) (v := z) (by omega) unmoved (by rw [steps, step])]
    exact stepped

/-! ### Moves -/

/-- The step of a move of the given mode by its N register. -/
def moveStep (k : VecCore) (h : Bool) (mode nsel : Nat) : Int :=
  if mode = 1 then 1 else if mode = 2 then -1 else if mode = 4 then -(sext 24 (regSeen k h .addr (40 + nsel)))
  else sext 24 (regSeen k h .addr (40 + nsel))

/-- The address a move uses and the one it leaves, by its mode (Table 9-4). -/
theorem moveAddr_stepped {k : VecCore} {h : Bool} {an mode nsel used : Nat} {after : Option Nat} (ha : an < 8) (hn : nsel < 8)
    (address : moveAddr k h an mode nsel = some (used, after)) :
    mode < 7 ∧ (mode < 3 → nsel = 0) ∧ (mode ≠ 0 → regSeen k h .addr (48 + an) / 2 ^ 30 ≠ 3) ∧
    (mode < 5 → used = regSeen k h .addr (32 + an)) ∧
    (5 ≤ mode → Stepped (regSeen k h .addr (32 + an)) (regSeen k h .addr (48 + an)) (moveStep k h mode nsel) used) ∧
    (after = none ↔ mode = 0 ∨ mode = 5) ∧
    ∀ z, after = some z → Stepped (regSeen k h .addr (32 + an)) (regSeen k h .addr (48 + an)) (moveStep k h mode nsel) z := by
  unfold moveAddr at address
  dsimp only at address
  rw [Nat.mod_eq_of_lt ha, Nat.mod_eq_of_lt hn] at address
  have post {v : Int} {p : Nat} (e : (stepAddr (regSeen k h .addr (48 + an)) (regSeen k h .addr (32 + an)) v).map (fun b => (p, some b)) =
      some (used, after)) : p = used ∧ ∃ z, after = some z ∧ regSeen k h .addr (48 + an) / 2 ^ 30 ≠ 3 ∧
        Stepped (regSeen k h .addr (32 + an)) (regSeen k h .addr (48 + an)) v z := by
    obtain ⟨z, step, same⟩ := Option.map_eq_some_iff.mp e
    obtain ⟨rfl, rfl⟩ := Prod.mk.inj same
    exact ⟨rfl, z, rfl, stepAddr_stepped step⟩
  split at address
  · split at address
    · next zero =>
      obtain ⟨rfl, rfl⟩ := Prod.mk.inj (Option.some.inj address)
      exact ⟨by omega, fun _ => zero, nofun, fun _ => rfl, by omega, by simp, nofun⟩
    · exact absurd address (by simp)
  · split at address
    · next zero =>
      obtain ⟨rfl, z, rfl, allowed, stepped⟩ := post address
      exact ⟨by omega, fun _ => zero, fun _ => allowed, fun _ => rfl, by omega, by simp, fun z hz => Option.some.inj hz ▸ stepped⟩
    · exact absurd address (by simp)
  · split at address
    · next zero =>
      obtain ⟨rfl, z, rfl, allowed, stepped⟩ := post address
      exact ⟨by omega, fun _ => zero, fun _ => allowed, fun _ => rfl, by omega, by simp, fun z hz => Option.some.inj hz ▸ stepped⟩
    · exact absurd address (by simp)
  · obtain ⟨rfl, z, rfl, allowed, stepped⟩ := post address
    exact ⟨by omega, by omega, fun _ => allowed, fun _ => rfl, by omega, by simp, fun z hz => Option.some.inj hz ▸ stepped⟩
  · obtain ⟨rfl, z, rfl, allowed, stepped⟩ := post address
    exact ⟨by omega, by omega, fun _ => allowed, fun _ => rfl, by omega, by simp, fun z hz => Option.some.inj hz ▸ stepped⟩
  · obtain ⟨z, step, same⟩ := Option.map_eq_some_iff.mp address
    obtain ⟨rfl, rfl⟩ := Prod.mk.inj same
    obtain ⟨allowed, stepped⟩ := stepAddr_stepped step
    exact ⟨by omega, by omega, fun _ => allowed, by omega, fun _ => stepped, by simp, nofun⟩
  · obtain ⟨z, step, same⟩ := Option.map_eq_some_iff.mp address
    obtain ⟨rfl, rfl⟩ := Prod.mk.inj same
    obtain ⟨allowed, stepped⟩ := stepAddr_stepped step
    exact ⟨by omega, by omega, fun _ => allowed, by omega, fun _ => stepped, by simp, fun z hz => Option.some.inj hz ▸ stepped⟩
  · exact absurd address (by simp)

/-- A load or store has an address of its mode, and its last write is the address register's. -/
theorem memoryMove_free {d : Dev} {core : Nat} {yside : Bool} {reg an mode nsel : Nat} {m : MoveField}
    (memory : m = .load reg an mode nsel ∨ m = .store reg an mode nsel)
    (free : (moveFx d core (coreOf d core) (inHandler d core) yside m).faults = []) : reg < 24 ∧ ∃ used after,
      moveAddr (coreOf d core) (inHandler d core) an mode nsel = some (used, after) ∧
      ∃ l, (∀ e ∈ l, e.1 = reg ∨ e.1 = rSL) ∧ (moveFx d core (coreOf d core) (inHandler d core) yside m).writes = l ++ postWrite an after := by
  rcases memory with rfl | rfl
  · obtain ⟨small, a, u, w, address, writes⟩ := loadFx_free free
    exact ⟨small, a, u, address, [_], fun e he => .inl (List.mem_singleton.mp he ▸ rfl), writes⟩
  · obtain ⟨small, a, u, address, -, writes, -⟩ := storeFx_free free
    exact ⟨small, a, u, address, _, fun e he => .inr (mem_sourceWord he ▸ rfl), writes⟩

/-- A load or store updates its address register by its mode. -/
theorem move_steps {c : Instr} {s : State} {core : Nat} {yside : Bool} {reg an mode nsel : Nat} {m other : MoveField} {g : AguField}
    (ha : an < 8) (hn : nsel < 8) (memory : m = .load reg an mode nsel ∨ m = .store reg an mode nsel)
    (hb : c.bundle = some (core, moveBundle yside m other g)) :
    let k := coreOf s.dev core
    let h := inHandler s.dev core
    let stepped := Stepped (regSeen k h .addr (32 + an)) (regSeen k h .addr (48 + an)) (moveStep k h mode nsel)
    Issues c s fun n _ => mode < 7 ∧ (mode < 3 → nsel = 0) ∧ (mode ≠ 0 → regSeen k h .addr (48 + an) / 2 ^ 30 ≠ 3) ∧
      ∃ used after, moveAddr k h an mode nsel = some (used, after) ∧
        (mode < 5 → used = regSeen k h .addr (32 + an)) ∧ (5 ≤ mode → stepped used) ∧ (after = none ↔ mode = 0 ∨ mode = 5) ∧
        ∀ z, after = some z → stepped z ∧ (First s.dev core yside other (32 + an) → reg ≠ 32 + an → regLast n h (32 + an) = z) := by
  intro k h stepped
  refine issues_bundle hb fun free _ => ?_
  obtain ⟨small, used, after, address, l, before, writes⟩ := memoryMove_free memory free.move
  obtain ⟨known, plain, allowed, uses, indexed, updates, stepsTo⟩ := moveAddr_stepped ha hn address
  refine ⟨known, plain, allowed, used, after, address, uses, indexed, updates, fun z hz => ⟨stepsTo z hz, fun first _ => ?_⟩⟩
  refine move_value (w := .post) (by omega) first ?_
  rw [writes, List.find?_append, List.find?_eq_none.mpr, Option.none_or, hz, postWrite, Nat.mod_eq_of_lt ha]
  · simp
  · intro e he
    rw [decide_eq_true_eq]
    rcases before e he with same | same
    · omega
    · rw [same]
      show 59 ≠ 32 + an
      omega

/-- Settles O54: the AGU field's steps by `agu_issues`, those of loads and stores by `move_steps`. -/
theorem addressRegistersStepUnderTheirModifier : Obligations.AddressRegistersStepUnderTheirModifier := by
  intro s core an x y ha k h m stepped agu nn
  have own : nn = sext 24 (regSeen k h .agu (40 + an % 8)) := by rw [Nat.mod_eq_of_lt ha]
  have back : -nn = -sext 24 (regSeen k h .agu (40 + an % 8)) := congrArg _ own
  refine ⟨agu_issues ha rfl (own ▸ rfl), agu_issues ha rfl (back ▸ rfl), agu_issues ha rfl rfl, agu_issues ha rfl rfl, fun reg mode nsel g hn => ?_⟩
  intro a mm v post
  exact ⟨move_steps (yside := false) ha hn (.inl rfl) rfl, move_steps (yside := true) ha hn (.inl rfl) rfl,
    move_steps (yside := false) ha hn (.inr rfl) rfl, move_steps (yside := true) ha hn (.inr rfl) rfl⟩

end Sys2Proof.Machine
end

section
/-!
Where a core goes after a bundle (R194, R197), what control bundles write, and what ENQ and EVSIG do beyond the core (R204, R235); the
settling of O55.
-/
namespace Sys2Proof.Machine

/-! ### Control after a bundle -/

/-- Control after a bundle that is no transfer and no REP: the repeat or the delay slots go on, or the next bundle follows. -/
def straightNext (c : VecCore) : VecCore :=
  let after := { c with pc := (c.pc + 1) % 8192 }
  match c.rep, c.xfer with
  | some n, _ => if n > 1 then { c with rep := some (n - 1) } else { after with rep := none }
  | none, some (k, t) =>
    if k > 1 then { after with xfer := some (k - 1, t) }
    else
      match t with
      | .go a => { c with pc := a, xfer := none }
      | _ => { after with xfer := none }
  | none, none => after

section
variable {c : VecCore} {n m : Nat} {t : VecXfer}

theorem straightNext_plain (norep : c.rep = none) (noxfer : c.xfer = none) : straightNext c = { c with pc := (c.pc + 1) % 8192 } := by
  unfold straightNext
  rw [norep, noxfer]

theorem straightNext_repeats (rep : c.rep = some m) (more : 1 < m) : straightNext c = { c with rep := some (m - 1) } := by
  unfold straightNext
  rw [rep]
  exact if_pos more

theorem straightNext_repeated (rep : c.rep = some m) (last : ¬1 < m) :
    straightNext c = { c with pc := (c.pc + 1) % 8192, rep := none } := by
  unfold straightNext
  rw [rep]
  exact if_neg last

theorem straightNext_delays (norep : c.rep = none) (xfer : c.xfer = some (m, t)) (more : 1 < m) :
    straightNext c = { c with pc := (c.pc + 1) % 8192, xfer := some (m - 1, t) } := by
  unfold straightNext
  rw [norep, xfer]
  exact if_pos more

theorem straightNext_goes {a : Nat} (norep : c.rep = none) (xfer : c.xfer = some (1, .go a)) : straightNext c = { c with pc := a, xfer := none } := by
  unfold straightNext
  rw [norep, xfer]
  rfl

theorem straightNext_falls (norep : c.rep = none) (xfer : c.xfer = some (1, t)) (stays : ∀ a, t ≠ .go a) :
    straightNext c = { c with pc := (c.pc + 1) % 8192, xfer := none } := by
  unfold straightNext
  rw [norep, xfer]
  cases t with
  | go a => exact absurd rfl (stays a)
  | none | rte | finish => rfl

end

section
variable {d : Dev} {core : Nat} {b : Bundle}

/-- Control in the core when a bundle has taken its effects. -/
theorem bundleDone_next (next : VecCore) (h : ctlNext (coreOf d core) (inHandler d core) b.op = next) :
    (coreOf (bundleDone d core b) core).pc = next.pc ∧ (coreOf (bundleDone d core b) core).stack = next.stack ∧
    (coreOf (bundleDone d core b) core).xfer = next.xfer ∧ (coreOf (bundleDone d core b) core).rep = next.rep := by
  rw [bundleDone_core, ← h]
  exact ⟨rfl, rfl, rfl, rfl⟩

/-- A control bundle that faults for nothing is under no repeat and in no delay slot. -/
theorem FaultFree.alone {op : CtlOp} (free : FaultFree d core b) (ctl : b.op = .ctl op) :
    (coreOf d core).rep = none ∧ (coreOf d core).xfer = none := by
  have none := free.control
  rw [ctl] at none
  unfold ctlFaults at none
  dsimp only at none
  cases hr : (coreOf d core).rep with
  | some n => rw [hr] at none; exact absurd none (List.cons_ne_nil _ _)
  | none =>
    cases hx : (coreOf d core).xfer with
    | some t => rw [hr, hx] at none; exact absurd none (List.cons_ne_nil _ _)
    | none => exact ⟨rfl, rfl⟩

/-- The transfer t begins in core k, and n follows it by a bundle. -/
def Transfers (k : VecCore) (t : VecXfer) (n : VecCore) : Prop :=
  n.pc = (k.pc + 1) % 8192 ∧ n.xfer = some (2, t) ∧ n.rep = none ∧ k.xfer = none ∧ k.rep = none

/-- Core n is core k one bundle on. -/
def GoesOn (k n : VecCore) : Prop := n.pc = (k.pc + 1) % 8192 ∧ n.xfer = none ∧ n.rep = none ∧ n.stack = k.stack

section
variable {op : CtlOp} {x y : MoveField} {g : AguField} (free : FaultFree d core ⟨.ctl op, x, y, g⟩)
include free

theorem ctl_transfers {t : VecXfer} {l : List Nat} (next : ctlNext (coreOf d core) (inHandler d core) (.ctl op) =
      { coreOf d core with pc := ((coreOf d core).pc + 1) % 8192, xfer := some (2, t), stack := l }) :
    Transfers (coreOf d core) t (coreOf (bundleDone d core ⟨.ctl op, x, y, g⟩) core) ∧
      (coreOf (bundleDone d core ⟨.ctl op, x, y, g⟩) core).stack = l := by
  obtain ⟨norep, noxfer⟩ := free.alone rfl
  obtain ⟨pc, stack, xfer, rep⟩ := bundleDone_next (b := ⟨.ctl op, x, y, g⟩) _ next
  exact ⟨⟨pc, xfer, rep.trans norep, noxfer, norep⟩, stack⟩

theorem ctl_goesOn (next : ctlNext (coreOf d core) (inHandler d core) (.ctl op) = straightNext (coreOf d core)) :
    GoesOn (coreOf d core) (coreOf (bundleDone d core ⟨.ctl op, x, y, g⟩) core) := by
  obtain ⟨norep, noxfer⟩ := free.alone rfl
  obtain ⟨pc, stack, xfer, rep⟩ := bundleDone_next (b := ⟨.ctl op, x, y, g⟩) _ (next.trans (straightNext_plain norep noxfer))
  exact ⟨pc, xfer.trans noxfer, rep.trans norep, stack⟩

end

end

/-! ### Conditions of control bundles -/

/-- Condition q holds by the flags (Table 9-12). -/
def Holds (c : VecCore) (h : Bool) (q : Nat) : Prop :=
  let z := regSeen c h .bcc rZ % 2 = 1
  let neg := regSeen c h .bcc rN % 2 = 1
  let v := regSeen c h .bcc rV % 2 = 1
  (q = 0 ∧ z) ∨ (q = 1 ∧ ¬z) ∨ (q = 2 ∧ ¬(neg ↔ v)) ∨ (q = 3 ∧ (neg ↔ v)) ∨ (q = 4 ∧ ¬z ∧ (neg ↔ v)) ∨
    (q = 5 ∧ (z ∨ ¬(neg ↔ v))) ∨ (q = 6 ∧ v) ∨ (q = 7 ∧ ¬v)

theorem condHolds_iff (c : VecCore) (h : Bool) (q : Nat) : condHolds c h q = some true ↔ Holds c h q := by
  match q with
  | 0 | 1 | 2 | 3 | 4 | 5 | 6 | 7 => simp [condHolds, Holds]
  | q + 8 => simp [condHolds, Holds]

theorem condHolds_known {c : VecCore} {h : Bool} {q : Nat} (known : ¬(condHolds c h q).isNone) : q < 8 := by
  match q with
  | 0 | 1 | 2 | 3 | 4 | 5 | 6 | 7 => decide
  | q + 8 => exact absurd rfl known

section
variable {fx : VecFx} {p : Prop} [Decidable p] {f : Nat}

/-- An effect that faults for nothing does not meet the condition of its fault. -/
theorem not_of_faultless (free : (if p then ({ faults := [f] } : VecFx) else fx).faults = []) : ¬p := by
  intro holds
  rw [if_pos holds] at free
  exact absurd free (List.cons_ne_nil _ _)

end

/-! ### Beyond the core -/

/-- Registers below those of PERF after a bundle are those its effects outside leave. -/
theorem bundleDone_live {d : Dev} {core off : Nat} {b : Bundle} (low : off < 0x1801008) :
    liveGet (bundleDone d core b) off = liveGet (outside d core (coreOf d core) (inHandler d core) b.op) off := by
  refine (bundleDone_counts d core b).regs.live off fun counter => ?_
  rcases List.mem_cons.mp counter with ovf | counter
  · unfold offPerfOvf at ovf
    omega
  · obtain ⟨k, -, counter⟩ := List.mem_flatMap.mp counter
    rcases List.mem_pair.mp counter with count | count
    · unfold offPerfCntLo at count
      omega
    · unfold offPerfCntHi at count
      omega

theorem bundleDone_wd (d : Dev) (core : Nat) (b : Bundle) :
    (bundleDone d core b).wd = (outside d core (coreOf d core) (inHandler d core) b.op).wd := by
  have wd := congrArg Dev.wd (bundleDone_counts d core b).rest
  exact wd

section
variable {d : Dev} {core p : Nat} {areg : Nat} {y : MoveField} {g : AguField}

/-- ENQ appends its descriptor to the ready list, or leaves the list where the descriptor is refused. -/
theorem enq_submits (small : areg < 8) (producer : prodOf d core = some p) :
    let words := (List.range 8).map fun i =>
      vecLoad d core (coreOf d core) (inHandler d core) false ((regSeen (coreOf d core) (inHandler d core) .aOther (32 + areg) + i) % 2 ^ 24)
    let e := bundleDone d core ⟨.ctl (.enq areg), .none, y, g⟩
    (descriptorOk d words = true → e.wd.ready = d.wd.ready ++ [⟨words, p, d.wd.seq⟩] ∧ e.wd.seq = (d.wd.seq + 1) % 2 ^ 32) ∧
    (descriptorOk d words = false → e.wd.ready = d.wd.ready) := by
  intro words e
  have wd : e.wd = (submitDesc d words p).wd := by
    have same : enqWords d core (coreOf d core) (inHandler d core) areg = words := by rw [enqWords, Nat.mod_eq_of_lt small]
    rw [show e.wd = _ from bundleDone_wd _ _ _, outside, producer, same]
  rw [wd, submitDesc]
  constructor
  · intro ok
    rw [if_pos ok]
    exact ⟨rfl, rfl⟩
  · intro bad
    rw [if_neg (by rw [bad]; decide), (writeRecord_rec _ _ _ _).wd]

/-- EVSIG raises a source from 128 on, and reports one below; WD it leaves. -/
theorem evsig_raises (q : Nat) (y : MoveField) (g : AguField) : let e := bundleDone d core ⟨.ctl (.evsig q), .none, y, g⟩
    e.wd = d.wd ∧ (128 ≤ q % 1024 → liveB e (offEvtPend (q % 1024 / 32)) (q % 32) = true) ∧ (q % 1024 < 128 → liveB e offEvtStatus 0 = true) := by
  intro e
  have raised : outside d core (coreOf d core) (inHandler d core) (.ctl (.evsig q)) =
      if q % 1024 < 128 then liveSetB d offEvtStatus 0 true else raiseEvt d (q % 1024) := rfl
  refine ⟨?_, fun high => ?_, fun low => ?_⟩
  · rw [show e.wd = _ from bundleDone_wd _ _ _, raised]
    split
    · rfl
    · have wd := congrArg Dev.wd (raiseEvt_only d (q % 1024)).rest
      exact wd
  · have here : q % 1024 / 32 ≤ 31 := by omega
    rw [liveB, show liveGet e _ = _ from bundleDone_live (by unfold offEvtPend; omega), raised, if_neg (by omega)]
    have pending := raiseEvt_pending d (q % 1024) (q % 1024)
    rw [decide_eq_true rfl, Bool.or_true] at pending
    rwa [evtPending, show q % 1024 % 32 = q % 32 by omega] at pending
  · rw [liveB, show liveGet e _ = _ from bundleDone_live (by decide), raised, if_pos low]
    exact liveB_liveSetB_same _ _ _ (by decide)

end

/-! ### Writes of control bundles -/

section
variable {d : Dev} {core : Nat} {op : CtlOp} {y : MoveField} {g : AguField}

/-- The first write of a control bundle to a D register. -/
theorem ctl_dest {r v : Nat} {w : VecWriter} {t : List (Nat × VecWriter × Nat)} (unmoved : Unmoved d core .none y (r % 16))
    (writes : (opFx d core (coreOf d core) (inHandler d core) (.ctl op)).writes = (r % 16, w, v) :: t) :
    regLast (coreOf (bundleDone d core ⟨.ctl op, .none, y, g⟩) core) (inHandler d core) (r % 16) = v :=
  op_value (w := w) (by omega) unmoved (by rw [writes]; simp)

theorem bits_eq_div (w : Word) (hi lo : Nat) : bits w hi lo = w.toNat / 2 ^ lo % 2 ^ (hi - lo + 1) := by
  rw [bits, Nat.shiftRight_eq_div_pow]

/-- PUTSR gives every field of the status word its bits. -/
theorem putsr_writes (r : Nat) :
    let n := coreOf (bundleDone d core ⟨.ctl (.putsr r), .none, y, g⟩) core
    let w := (dSeen (coreOf d core) (inHandler d core) r).toNat
    regLast n (inHandler d core) rSCALE = w % 32 ∧ regLast n (inHandler d core) rZ = w / 2 ^ 8 % 2 ∧
      regLast n (inHandler d core) rN = w / 2 ^ 9 % 2 ∧ regLast n (inHandler d core) rV = w / 2 ^ 10 % 2 ∧
      (Unmoved d core .none y rSL → regLast n (inHandler d core) rSL = w / 2 ^ 12 % 2) ∧
      regLast n (inHandler d core) rSA = w / 2 ^ 13 % 2 := by
  intro n w
  have flag {q : Nat} {x : VecWriter} {v : Nat} (low : 24 ≤ q) (high : q < 32 ∨ 40 ≤ q) (bound : q < 64) (sl : q ≠ rSL)
      (first : (putSr (dSeen (coreOf d core) (inHandler d core) r)).find? (fun w => decide (w.1 = q)) = some (q, x, v)) :
      regLast n (inHandler d core) q = v :=
    op_flag (b := ⟨.ctl (.putsr r), .none, y, g⟩) low high bound sl first
  refine ⟨(flag (by decide) (by decide) (by decide) (by decide) rfl).trans ?_, (flag (by decide) (by decide) (by decide) (by decide) rfl).trans ?_,
    (flag (by decide) (by decide) (by decide) (by decide) rfl).trans ?_, (flag (by decide) (by decide) (by decide) (by decide) rfl).trans ?_,
    fun unmoved => (op_value (b := ⟨.ctl (.putsr r), .none, y, g⟩) (w := .sr) (by decide) unmoved rfl).trans ?_,
    (flag (by decide) (by decide) (by decide) (by decide) rfl).trans ?_⟩
  · rw [bits_eq_div, pow_zero, Nat.div_one]
    rfl
  all_goals exact bits_eq_div _ _ _

end

/-! ### The commands -/

theorem word_pred_eq_zero (w : Word) : w - 1 = 0 ↔ w = 1 := by
  constructor
  · intro e
    exact sub_eq_zero.mp e
  · rintro rfl
    rfl

/-- Settles O55: where each control bundle goes by `ctl_transfers` and `ctl_goesOn`, what it writes by `ctl_dest` and its kin. -/
theorem controlBundlesAct : Obligations.ControlBundlesAct := by
  intro s core r q y g k h w z neg v holds on go dd
  refine ⟨fun a => ?bra, fun a => ?bcc, fun a => ?call, ?ret, ?jmp, fun a => ?loop, fun c => ?repImm, ?repReg, ?rte, ?finish, ?enq, ?evsig,
    ?setscale, ?getsr, ?putsr, ?cyc, ?cid, ?putwb, ?waitw⟩
  case bra => exact issues_bundle rfl fun free _ => ctl_transfers free rfl
  case rte => exact issues_bundle rfl fun free _ => ctl_transfers free rfl
  case finish => exact issues_bundle rfl fun free _ => ctl_transfers free rfl
  case bcc =>
    refine issues_bundle rfl fun free _ => ?_
    have known := not_of_faultless free.op
    obtain ⟨goes, stack⟩ := ctl_transfers free rfl
    refine ⟨condHolds_known known, stack, fun yes => ?_, fun no => ?_⟩
    · rwa [if_pos ((condHolds_iff k h q).mpr yes)] at goes
    · rwa [if_neg fun yes => no ((condHolds_iff k h q).mp yes)] at goes
  case call =>
    refine issues_bundle rfl fun free _ => ?_
    have room := not_of_faultless free.op
    obtain ⟨goes, stack⟩ := ctl_transfers free rfl
    exact ⟨goes, not_le.mp room, stack⟩
  case ret =>
    refine issues_bundle rfl fun free _ => ?_
    have some := not_of_faultless free.op
    obtain ⟨goes, stack⟩ := ctl_transfers free rfl
    cases hk : k.stack with
    | nil => exact absurd (by rw [hk]; rfl) some
    | cons a l =>
      rw [hk] at goes stack
      exact ⟨a, l, rfl, goes, stack⟩
  case jmp =>
    refine issues_bundle rfl fun free _ => ?_
    have small := not_le.mp (not_of_faultless free.op)
    have goes := ctl_transfers free rfl
    rw [Nat.mod_eq_of_lt small] at goes
    exact ⟨small, goes⟩
  case loop =>
    refine issues_bundle rfl fun free _ => ?_
    obtain ⟨goes, stack⟩ := ctl_transfers free rfl
    refine ⟨fun unmoved => ctl_dest unmoved rfl, stack, fun last => ?_, fun more => ?_⟩
    · rwa [if_pos ((word_pred_eq_zero w).mpr last)] at goes
    · rwa [if_neg fun zero => more ((word_pred_eq_zero w).mp zero)] at goes
  case repImm =>
    refine issues_bundle rfl fun free _ => ?_
    have range := not_of_faultless free.op
    have pos : c ≠ 0 := by omega
    obtain ⟨-, noxfer⟩ := free.alone rfl
    obtain ⟨pc, stack, xfer, rep⟩ := bundleDone_next (b := ⟨.ctl (.repImm c), .none, y, g⟩) _ (if_neg pos)
    exact ⟨by omega, by omega, pc, rep, xfer.trans noxfer, stack⟩
  case repReg =>
    refine issues_bundle rfl fun free _ => ?_
    have range := not_lt.mp (not_of_faultless free.op)
    obtain ⟨norep, noxfer⟩ := free.alone rfl
    have zero : w = 0 ↔ w.toNat = 0 := ⟨fun e => by rw [e]; rfl, fun e => BitVec.eq_of_toNat_eq e⟩
    by_cases none : w.toNat = 0
    · obtain ⟨pc, stack, xfer, rep⟩ := bundleDone_next (b := ⟨.ctl (.repReg r), .none, y, g⟩) _ (if_pos none)
      exact ⟨range, xfer.trans noxfer, stack, fun _ => ⟨pc, rep.trans norep⟩, fun some => absurd (zero.mpr none) some⟩
    · obtain ⟨pc, stack, xfer, rep⟩ := bundleDone_next (b := ⟨.ctl (.repReg r), .none, y, g⟩) _ (if_neg none)
      exact ⟨range, xfer.trans noxfer, stack, fun all => absurd (zero.mp all) none, fun _ => ⟨pc, rep⟩⟩
  case enq =>
    refine issues_bundle rfl fun free waits => ?_
    have small := not_le.mp (not_of_faultless free.op)
    refine ⟨small, ctl_goesOn free rfl, fun p producer => ⟨?_, enq_submits small producer⟩⟩
    unfold waitsFor at waits
    split at waits
    · exact absurd waits nofun
    · dsimp only at waits
      rw [producer] at waits
      dsimp only at waits
      split at waits
      · exact absurd waits nofun
      · next credit => exact Nat.pos_of_ne_zero credit
  case evsig => exact issues_bundle rfl fun free _ => ⟨ctl_goesOn free rfl, evsig_raises q y g⟩
  case setscale =>
    exact issues_bundle rfl fun free _ => ⟨ctl_goesOn free rfl, op_flag (b := ⟨.ctl (.setscale q), .none, y, g⟩) (w := .sr)
      (by decide) (by decide) (by decide) (by decide) rfl⟩
  case getsr => exact issues_bundle rfl fun free _ => ⟨ctl_goesOn free rfl, fun unmoved => ctl_dest unmoved rfl⟩
  case putsr => exact issues_bundle rfl fun free _ => ⟨ctl_goesOn free rfl, putsr_writes r⟩
  case cyc => exact issues_bundle rfl fun free _ => ⟨ctl_goesOn free rfl, fun unmoved => ctl_dest unmoved rfl⟩
  case cid => exact issues_bundle rfl fun free _ => ⟨ctl_goesOn free rfl, fun unmoved => ctl_dest unmoved rfl⟩
  case putwb =>
    exact issues_bundle rfl fun free _ => ⟨ctl_goesOn free rfl, op_flag (b := ⟨.ctl (.putwb r), .none, y, g⟩) (w := .wb)
      (by decide) (by decide) (by decide) (by decide) rfl⟩
  case waitw =>
    refine issues_bundle rfl fun free waits => ⟨ctl_goesOn free rfl, ?_⟩
    unfold waitsFor at waits
    split at waits
    · exact absurd waits nofun
    · dsimp only at waits
      split at waits
      · exact absurd waits nofun
      · next quiet => exact Bool.not_eq_true _ ▸ quiet

end Sys2Proof.Machine
end

section
/-!
The last delay slots of END and RTE (R202, R207), and the settling of O56.
-/
namespace Sys2Proof.Machine

section
variable {d : Dev} {core : Nat} {k : VecCore} {h : Bool}

/-- END outside a handler ends the item: staging out follows. -/
theorem transfer_finish (xfer : k.xfer = some (1, .finish)) (outside : h = false) :
    transfer d core k h = setCoreState (setCore d core { coreOf d core with ended := true }) core 4 := by
  unfold transfer
  rw [xfer, outside]
  rfl

/-- RTE in a handler leaves it, and what it wrote to shadow registers stays in them. -/
theorem transfer_rte (xfer : k.xfer = some (1, .rte)) (inside : h = true) :
    transfer d core k h = setCore (leaveHandler d core) core
      { coreOf (leaveHandler d core) core with rte := (coreOf (leaveHandler d core) core).regs.filter fun e => decide (64 ≤ e.1) } := by
  unfold transfer
  rw [xfer, inside]
  rfl

/-- Any other bundle ends nothing. -/
theorem transfer_none (item : k.xfer = some (1, .finish) → h = true) (handler : k.xfer = some (1, .rte) → h = false) :
    transfer d core k h = d := by
  unfold transfer
  split
  · next xfer => rw [handler xfer]; rfl
  · next xfer => rw [item xfer]; rfl
  · rfl

theorem leaveHandler_core (d : Dev) (core : Nat) : coreOf (leaveHandler d core) core =
    { unpark (settleAll (coreOf d core)) with pc := (coreOf d core).era, wait := none, xfer := none, rep := none } := by
  rw [show coreOf (leaveHandler d core) core = coreOf (setCore d core _) core from rfl, coreOf_setCore]
  rfl

theorem leaveHandler_inHandler (d : Dev) (core : Nat) : inHandler (leaveHandler d core) core = false :=
  liveB_liveSetB_same _ _ _ (by decide)

end

theorem ctlNext_straight {c : VecCore} {h : Bool} {op : VecOp} (field : ∀ o, op ≠ .ctl o) : ctlNext c h op = straightNext c := by
  cases op with
  | ctl o => exact absurd rfl (field o)
  | mac | alu | li => rfl

/-- A long immediate under a repeat faults. -/
theorem FaultFree.not_li {d : Dev} {core m : Nat} {b : Bundle} (free : FaultFree d core b) (rep : (coreOf d core).rep = some m)
    (file reg : Nat) (imm : Word) : b.op ≠ .li file reg imm := by
  intro li
  have none := free.control
  rw [li, ctlFaults, rep] at none
  exact absurd none (List.cons_ne_nil _ _)

/-- Settles O56: control by the equations of `straightNext`, the ends of items and handlers by those of `transfer`. -/
theorem delaySlotsRepeatsAndTransfersEnd : Obligations.DelaySlotsRepeatsAndTransfersEnd := by
  intro s c core b hb field k h
  refine issues_bundle hb fun free _ => ?_
  obtain ⟨-, -, -, -, -, -, -, -, -, era, item⟩ := complete_land s.dev core b
  have next {n : VecCore} (goes : straightNext k = n) := bundleDone_next (d := s.dev) n ((ctlNext_straight field).trans goes)
  obtain ⟨-, stack, -, -⟩ := next rfl
  have keeps : (straightNext k).stack = k.stack := by
    unfold straightNext
    dsimp only
    repeat' split
    all_goals rfl
  have falls {t : VecXfer} (norep : k.rep = none) (xfer : k.xfer = some (1, t)) (stays : ∀ a, t ≠ .go a) :
      (coreOf (bundleDone s.dev core b) core).pc = (k.pc + 1) % 8192 ∧ (coreOf (bundleDone s.dev core b) core).xfer = none := by
    obtain ⟨pc, -, gone, -⟩ := next (straightNext_falls norep xfer stays)
    exact ⟨pc, gone⟩
  refine ⟨stack.trans keeps, fun norep noxfer => ?plain, fun m rep => ⟨free.not_li rep, fun more _ => ?repeats, fun last _ => ?repeated⟩,
    fun m t norep xfer more => ?delays, fun a norep xfer => ?goes, fun norep xfer => falls norep xfer nofun,
    fun norep xfer => ?last, fun norep xfer outside => ?finish, fun norep xfer inside => ?rte, fun item handler => transfer_none item handler⟩
  case plain =>
    obtain ⟨pc, -, xfer, rep⟩ := next (straightNext_plain norep noxfer)
    exact ⟨pc, xfer.trans noxfer, rep.trans norep⟩
  case repeats =>
    obtain ⟨pc, -, -, rep⟩ := next (straightNext_repeats rep more)
    exact ⟨pc, rep⟩
  case repeated =>
    obtain ⟨pc, -, -, rep⟩ := next (straightNext_repeated rep (by omega))
    exact ⟨pc, rep⟩
  case delays =>
    obtain ⟨pc, -, xfer, -⟩ := next (straightNext_delays norep xfer more)
    exact ⟨pc, xfer⟩
  case goes =>
    obtain ⟨pc, -, xfer, -⟩ := next (straightNext_goes norep xfer)
    exact ⟨pc, xfer⟩
  case last => exact xfer.elim (fun finish => falls norep finish nofun) fun rte => falls norep rte nofun
  case finish =>
    obtain ⟨-, gone⟩ := falls norep xfer nofun
    rw [transfer_finish xfer outside]
    have core' : coreOf (setCoreState (setCore (bundleDone s.dev core b) core { coreOf (bundleDone s.dev core b) core with ended := true }) core 4) core =
      { coreOf (bundleDone s.dev core b) core with ended := true } := coreOf_setCore _ _ _
    rw [core']
    exact ⟨rfl, liveF_liveSetF_same _ _ _ (by decide) (by decide), gone, item⟩
  case rte =>
    rw [transfer_rte xfer inside, coreOf_setCore, leaveHandler_core, era]
    exact ⟨leaveHandler_inHandler _ _, rfl, rfl, rfl, rfl, rfl, rfl⟩

end Sys2Proof.Machine
end

section
/-!
A bundle command by its cases: it issues, waits or faults (R193, R209), and what a completed bundle leaves (R195); the settling of O50.
-/
namespace Sys2Proof.Machine

/-! ### A bundle command -/

section
variable {d : Dev} {core : Nat} {b : Bundle}

theorem canIssue_iff : canIssue d core = true ↔ running d blkVec = true ∧ (coreOf d core).wait = none ∧
    (inHandler d core = true ∨ (coreState d core = 3 ∧ (coreOf d core).ended = false)) := by
  simp only [canIssue, Bool.and_eq_true, Bool.or_eq_true, decide_eq_true_eq, Bool.not_eq_true', Option.isNone_iff_eq_none]
  tauto

theorem fetches_iff : fetches (coreOf d core) b = true ↔ decodeBundle (fetchWord (coreOf d core)) ≠ none ∧
    (fetchWord (coreOf d core) = 0 ∨ decodeBundle (fetchWord (coreOf d core)) = some b) := by
  constructor
  · intro h
    have spelt := fetches_decodes h
    rw [fetches, Bool.or_eq_true, decide_eq_true_eq, decide_eq_true_eq] at h
    exact ⟨fun none => by rw [none] at spelt; exact absurd spelt (by decide), h⟩
  · rintro ⟨-, h⟩
    rwa [fetches, Bool.or_eq_true, decide_eq_true_eq, decide_eq_true_eq]

theorem issueBundle_idle (may : canIssue d core = false) : issueBundle core b d = d := by
  simp [issueBundle, may]

theorem issueBundle_unspelt (may : canIssue d core = true) (unspelt : decodeBundle (fetchWord (coreOf d core)) = none) :
    issueBundle core b d = vecFault d core fIllegal := by
  simp [issueBundle, may, unspelt]

theorem issueBundle_other (spelt : decodeBundle (fetchWord (coreOf d core)) ≠ none) (other : fetches (coreOf d core) b = false) :
    issueBundle core b d = d := by
  simp [issueBundle, other, spelt]

/-- A bundle that its core may issue, by its faults and by what it waits for. -/
theorem issueBundle_fetched (may : canIssue d core = true) (has : fetches (coreOf d core) b = true) : issueBundle core b d =
    match (bundleFx d core (coreOf d core) (inHandler d core) b).faults with
    | f :: _ => vecFault (match (bundleFx d core (coreOf d core) (inHandler d core) b).refused with
        | some r => if f = fWindow then mem1Refused core r.1 r.2 4 d else d
        | none => d) core f
    | [] => match waitsFor d core (coreOf d core) (bundleFx d core (coreOf d core) (inHandler d core) b) b.op with
      | some w => setCore d core { coreOf d core with
          wait := some (w, b), repWord := if (coreOf d core).rep.isSome then some (fetchWord (coreOf d core)) else none }
      | none => complete d core b := by
  unfold issueBundle
  simp only [may, has, fetches_decodes has, Bool.and_false, Bool.and_self, if_true, if_false, Bool.false_eq_true] <;> rfl

theorem issueBundle_faults {f : Nat} {l : List Nat} (may : canIssue d core = true) (has : fetches (coreOf d core) b = true)
    (faults : (bundleFx d core (coreOf d core) (inHandler d core) b).faults = f :: l)
    (allowed : f ≠ fWindow ∨ (bundleFx d core (coreOf d core) (inHandler d core) b).refused = none) :
    issueBundle core b d = vecFault d core f := by
  rw [issueBundle_fetched may has, faults]
  dsimp only
  rcases allowed with other | none
  · split
    · rw [if_neg other]
    · rfl
  · rw [none]

theorem issueBundle_refused {l : List Nat} {r : Bool × Nat} (may : canIssue d core = true) (has : fetches (coreOf d core) b = true)
    (faults : (bundleFx d core (coreOf d core) (inHandler d core) b).faults = fWindow :: l)
    (refused : (bundleFx d core (coreOf d core) (inHandler d core) b).refused = some r) :
    issueBundle core b d = vecFault (mem1Refused core r.1 r.2 4 d) core fWindow := by
  rw [issueBundle_fetched may has, faults, refused]
  rfl

theorem issueBundle_waits {w : VecWait} (may : canIssue d core = true) (has : fetches (coreOf d core) b = true)
    (faults : (bundleFx d core (coreOf d core) (inHandler d core) b).faults = [])
    (waits : waitsFor d core (coreOf d core) (bundleFx d core (coreOf d core) (inHandler d core) b) b.op = some w) :
    issueBundle core b d = setCore d core { coreOf d core with
      wait := some (w, b), repWord := if (coreOf d core).rep.isSome then some (fetchWord (coreOf d core)) else none } := by
  rw [issueBundle_fetched may has, faults]
  dsimp only
  rw [waits]

theorem issueBundle_completes (may : canIssue d core = true) (has : fetches (coreOf d core) b = true)
    (faults : (bundleFx d core (coreOf d core) (inHandler d core) b).faults = [])
    (waits : waitsFor d core (coreOf d core) (bundleFx d core (coreOf d core) (inHandler d core) b) b.op = none) :
    issueBundle core b d = complete d core b := by
  rw [issueBundle_fetched may has, faults]
  dsimp only
  rw [waits]

end

/-- A bundle command of a core that exists does what its bundle does. -/
theorem runs_issueBundle {c : Instr} {s : State} {core : Nat} {b : Bundle} {P : Dev → Prop} (hb : c.bundle = some (core, b)) (hc : core < 36)
    {e : Dev} (does : issueBundle core b s.dev = e) (holds : P e) : Runs c s P :=
  ⟨_, exec_bundle hb hc, rfl, does ▸ holds⟩

/-! ### What the end of an item or of a handler touches -/

/-- b is a but for one core and its state word. -/
structure OnlyCore (core : Nat) (a b : Dev) : Prop where
  others : ∀ j, j ≠ core → coreOf b j = coreOf a j
  regs : RegsBut [offVecCoreState core] a b
  rest : { b with regs := a.regs, vec := a.vec } = a

theorem OnlyCore.refl (core : Nat) (a : Dev) : OnlyCore core a a := ⟨fun _ _ => rfl, .refl _ _, rfl⟩

theorem OnlyCore.setCore {core : Nat} {a b : Dev} (h : OnlyCore core a b) (x : VecCore) : OnlyCore core a (setCore b core x) :=
  ⟨fun j hj => (coreOf_setCore_other b x hj).trans (h.others j hj), h.regs.other rfl, h.rest⟩

theorem OnlyCore.liveSet {core : Nat} {a b : Dev} (h : OnlyCore core a b) (w : Word) : OnlyCore core a (liveSet b (offVecCoreState core) w) :=
  ⟨h.others, h.regs.liveSet (List.mem_singleton.mpr rfl), h.rest⟩

theorem transfer_only (d : Dev) (core : Nat) (k : VecCore) (h : Bool) : OnlyCore core d (transfer d core k h) := by
  unfold transfer
  split
  · split
    · exact (((OnlyCore.refl core d).setCore _).liveSet _).setCore _
    · exact .refl _ _
  · split
    · exact .refl _ _
    · exact ((OnlyCore.refl core d).setCore _).liveSet _
  · exact .refl _ _

/-! ### What a completed bundle leaves -/

/-- Bytes outside the words written keep their values. -/
theorem byteGet_windowWritten (m : List (Nat × Byte)) {ws : List (Nat × Word)} {a : Nat} (out : ∀ e ∈ ws, a < e.1 ∨ e.1 + 4 ≤ a) :
    byteGet (windowWritten m ws) a = byteGet m a := by
  induction ws with
  | nil => rfl
  | cons w t ih =>
    show byteGet (wordSet (windowWritten m t) w.1 w.2) a = _
    rw [byteGet_wordSet_outside (out w List.mem_cons_self), ih fun e he => out e (List.mem_cons_of_mem w he)]

section
variable (d : Dev) (core : Nat) (b : Bundle)

theorem bundleDone_others {j : Nat} (other : j ≠ core) : coreOf (bundleDone d core b) j = coreOf d j := by
  have vec := congrArg Dev.vec (bundleDone_counts d core b).rest
  have vec : (bundleDone d core b).vec = (setCore (bundleOutside d core b) core (coreOf (bundleDone d core b) core)).vec := vec
  have same : coreOf (bundleDone d core b) j = coreOf (setCore (bundleOutside d core b) core (coreOf (bundleDone d core b) core)) j := by
    rw [coreOf, vec]
    rfl
  rw [same, coreOf_setCore_other _ _ other]
  show coreOf (outside _ _ _ _ _) j = _
  rw [coreOf, outside_vec]
  rfl

/-- The register copies that a bundle leaves. -/
theorem bundleDone_banks : (bundleDone d core b).regs.shadow = d.regs.shadow ∧ (bundleDone d core b).regs.act = d.regs.act ∧
    (bundleDone d core b).regs.snap = d.regs.snap := by
  have counts := (bundleDone_counts d core b).regs
  have quiet := outside_quiet d core (coreOf d core) (inHandler d core) b.op (Quiet.refl d)
  exact ⟨counts.shadow.trans quiet.shadow, counts.act.trans quiet.act, counts.snap.trans quiet.snap⟩

/-- A bundle that neither submits nor raises an event changes its counters, its core and MEM1 alone. -/
theorem bundleDone_within (enq : ∀ a, b.op ≠ .ctl (.enq a)) (evsig : ∀ e, b.op ≠ .ctl (.evsig e)) :
    RegsBut (perfWords (20 + core)) d (bundleDone d core b) ∧
    { bundleDone d core b with regs := d.regs, mem := d.mem, vec := { (bundleDone d core b).vec with cores := d.vec.cores } } = d := by
  have none : outside d core (coreOf d core) (inHandler d core) b.op = d := by
    unfold outside
    split
    · next op => exact absurd op (enq _)
    · next op => exact absurd op (evsig _)
    · rfl
  have counts := bundleDone_counts d core b
  unfold bundleOutside at counts
  dsimp only at counts
  rw [none] at counts
  refine ⟨⟨counts.regs.live, counts.regs.shadow, counts.regs.act, counts.regs.snap⟩, ?_⟩
  have rest := congrArg (fun e : Dev => { e with regs := d.regs, mem := d.mem, vec := { e.vec with cores := d.vec.cores } }) counts.rest
  exact rest

/-- The writes in flight stay newest first. -/
theorem bundleDone_order (order : (coreOf d core).flight.Pairwise (fun u v => v.k ≤ u.k))
    (past : ∀ e ∈ (coreOf d core).flight, e.k < (coreOf d core).issued) :
    (coreOf (bundleDone d core b) core).flight.Pairwise (fun u v => v.k ≤ u.k) ∧
    ∀ e ∈ (coreOf (bundleDone d core b) core).flight, e.k < (coreOf (bundleDone d core b) core).issued := by
  obtain ⟨flight, -, -, -, -, issued, -⟩ := complete_land d core b
  rw [flight, issued]
  have now {e : VecWrite} {ws : List (Nat × VecWriter × Nat)}
      (he : e ∈ ws.map fun w => (⟨regIn (inHandler d core) w.1, w.2.1, (coreOf d core).issued, w.2.2⟩ : VecWrite)) :
      e.k = (coreOf d core).issued := by
    obtain ⟨w, -, rfl⟩ := List.mem_map.mp he
    rfl
  constructor
  · refine List.Pairwise.filter _ (List.pairwise_append.mpr ⟨?_, order, fun u hu v hv => ?_⟩)
    · exact List.pairwise_of_forall_mem_list fun u hu v hv => (now hv).trans_le (now hu).ge
    · rw [now hu]
      exact (past v hv).le
  · intro e he
    rcases List.mem_append.mp (List.mem_filter.mp he).1 with new | old
    · rw [now new]
      exact Nat.lt_succ_self _
    · exact Nat.lt_succ_of_lt (past e old)

end

/-- Settles O50: the cases of a bundle command by the equations of `issueBundle`, and the effects of a completed bundle by the lemmas about
`bundleDone`. -/
theorem bundleCommandsIssueTheirBundles : Obligations.BundleCommandsIssueTheirBundles := by
  intro s c core b hb hc k h fx may spelt has
  have issues : may → canIssue s.dev core = true := canIssue_iff.mpr
  have fetched : has → fetches k b = true := fetches_iff.mpr
  refine ⟨fun not => ?idle, fun yes unspelt => ?unspelt, fun yes spelt other => ?other, fun f l yes has faults allowed => ?faults,
    fun l w off yes has faults refused => ?refused, fun w yes has faults waits => ?waits, fun yes has faults waits => ?completes⟩
  case idle => exact runs_issueBundle hb hc (issueBundle_idle (Bool.not_eq_true _ ▸ fun yes => not (canIssue_iff.mp yes))) rfl
  case unspelt => exact runs_issueBundle hb hc (issueBundle_unspelt (issues yes) (not_not.mp unspelt)) rfl
  case other => exact runs_issueBundle hb hc (issueBundle_other spelt (Bool.not_eq_true _ ▸ fun yes => other (fetches_iff.mp yes))) rfl
  case faults => exact runs_issueBundle hb hc (issueBundle_faults (issues yes) (fetched has) faults allowed) rfl
  case refused => exact runs_issueBundle hb hc (issueBundle_refused (issues yes) (fetched has) faults refused) rfl
  case waits => exact runs_issueBundle hb hc (issueBundle_waits (issues yes) (fetched has) faults waits) rfl
  case completes =>
    refine runs_issueBundle hb hc (issueBundle_completes (issues yes) (fetched has) faults waits) ?_
    intro m n
    obtain ⟨others, regs, rest⟩ := transfer_only m core k h
    obtain ⟨flight, lands, -, -, -, issued, -, wait, prog, era, item⟩ := complete_land s.dev core b
    obtain ⟨shadow, act, snap⟩ := bundleDone_banks s.dev core b
    have mem := bundleDone_mem s.dev core b
    have last (r : Nat) : regLast n h r = regLast (land k h fx) h r := regLast_congr flight lands h r
    refine ⟨rfl, fun item handler => transfer_none (fun finish => ?_) fun rte => ?_, others, regs, rest, issued, wait, prog, era, item,
      fun j => bundleDone_others s.dev core b, fun r e first => (last r).trans (regLast_land k h fx r first),
      fun r unwritten order => (last r).trans (regLast_land_kept k h fx r unwritten order), bundleDone_order s.dev core b, ?_, fun a out => ?_,
      shadow, act, snap, bundleDone_within s.dev core b⟩
    · exact Bool.not_eq_false _ ▸ fun outside => item ⟨finish, outside⟩
    · exact Bool.not_eq_true _ ▸ fun inside => handler ⟨rte, inside⟩
    · rw [show m.mem = _ from mem]
    · rw [show m.mem = _ from mem]
      exact byteGet_windowWritten _ out

end Sys2Proof.Machine
end

section
/-!
Program faults (R209): what is recorded, and how a handler or an item ends with one; and the waits of a core (R184, R204); the settling of
O57.
-/
namespace Sys2Proof.Machine

/-! ### Causes -/

section
variable {d : Dev} {core : Nat} {c : VecCore} {h yside : Bool}

theorem ctlFaults_lt (op : VecOp) : ∀ f ∈ ctlFaults c op, f < 8 := by
  unfold ctlFaults
  dsimp only
  repeat' split
  all_goals simp [fRep, fSlot]

theorem loadFx_faults_lt (reg an mode nsel : Nat) : ∀ f ∈ (loadFx d core c h yside reg an mode nsel).faults, f < 8 := by
  unfold loadFx
  dsimp only
  repeat' split
  all_goals simp [fUnmapped, fWindow]

theorem storeFx_faults_lt (reg an mode nsel : Nat) : ∀ f ∈ (storeFx d c h yside reg an mode nsel).faults, f < 8 := by
  unfold storeFx
  dsimp only
  repeat' split
  all_goals simp [fUnmapped, fProtect, fWindow]

theorem regMoveFx_faults_lt (dst src : Nat) : ∀ f ∈ (regMoveFx c h dst src).faults, f < 8 := by
  unfold regMoveFx
  dsimp only
  repeat' split
  all_goals simp

theorem moveFx_faults_lt (m : MoveField) : ∀ f ∈ (moveFx d core c h yside m).faults, f < 8 := by
  cases m with
  | none => exact nofun
  | load reg an mode nsel => exact loadFx_faults_lt reg an mode nsel
  | store reg an mode nsel => exact storeFx_faults_lt reg an mode nsel
  | mov dst src => exact regMoveFx_faults_lt dst src

theorem aluFx_faults_lt (op : AluOp) (dst s1 s2 : Nat) : ∀ f ∈ (aluFx c h op dst s1 s2).faults, f < 8 := by
  unfold aluFx
  dsimp only
  repeat' split
  all_goals simp

theorem macFx_faults_lt (op : MacOp) (form p t a lanes : Nat) : ∀ f ∈ (macFx c h op form p t a lanes).faults, f < 8 := by
  unfold macFx
  dsimp only
  repeat' split
  all_goals simp

theorem liFx_faults_lt (file reg : Nat) (imm : Word) : ∀ f ∈ (liFx file reg imm).faults, f < 8 := by
  unfold liFx
  repeat' split
  all_goals simp

theorem ctlFx_faults_lt (op : CtlOp) : ∀ f ∈ (opFx d core c h (.ctl op)).faults, f < 8 := by
  unfold opFx
  dsimp only
  repeat' split
  all_goals simp [fStack, fRep, fUnmapped, fWindow]

theorem opFx_faults_lt (op : VecOp) : ∀ f ∈ (opFx d core c h op).faults, f < 8 := by
  cases op with
  | mac op form p t a lanes => exact macFx_faults_lt op form p t a lanes
  | alu op dst s1 s2 => exact aluFx_faults_lt op dst s1 s2
  | li file reg imm => exact liFx_faults_lt file reg imm
  | ctl op => exact ctlFx_faults_lt op

theorem aguFx_faults_lt (g : AguField) : ∀ f ∈ (aguFx c h g).faults, f < 8 := by
  unfold aguFx
  dsimp only
  repeat' split
  all_goals simp

/-- A cause is a bit of VEC.FAULT. -/
theorem bundleFx_faults_lt (b : Bundle) : ∀ f ∈ (bundleFx d core c h b).faults, f < 8 := by
  intro f hf
  simp only [bundleFx, joinFx, List.mem_append] at hf
  obtain control | yMove | xMove | op | agu := hf
  · exact ctlFaults_lt b.op f control
  · exact moveFx_faults_lt b.y f yMove
  · exact moveFx_faults_lt b.x f xMove
  · exact opFx_faults_lt b.op f op
  · exact aguFx_faults_lt b.g f agu

end

/-! ### A fault is recorded -/

/-- The device when a program fault is recorded, counted, raised and logged. -/
def faultRecorded (d : Dev) (core cause : Nat) : Dev :=
  let d1 := liveSetB d (offVecFault core) cause true
  let d2 := liveSet d1 (offVecFaultPc core)
    (BitVec.ofNat 32 ((coreOf d1 core).pc % 2 ^ 13 + (if inHandler d core then 2 ^ 31 else 0)))
  let d3 := bumpSat (liveSetB d2 offVecStatus 0 true) offVecFaultCount 31 0
  raiseErr (raiseOwn d3 7) (srcOf blkVec core) 0x0205 (liveGet d3 (offVecFault core)) (liveGet d3 (offVecFaultPc core))

theorem vecFault_eq (d : Dev) (core cause : Nat) : vecFault d core cause =
    if inHandler d core then leaveHandler (faultRecorded d core cause) core else endItem (faultRecorded d core cause) core 2 true := rfl

/-- b has the cores, the memories and VEC's registers of a. -/
structure VecKept (a b : Dev) : Prop where
  vec : b.vec = a.vec
  mem : b.mem = a.mem
  words : ∀ o, 0x1000000 ≤ o → o < 0x1100000 → liveGet b o = liveGet a o

theorem VecKept.trans {a b c : Dev} (h : VecKept a b) (k : VecKept b c) : VecKept a c :=
  ⟨k.vec.trans h.vec, k.mem.trans h.mem, fun o low high => (k.words o low high).trans (h.words o low high)⟩

theorem raiseOwn_vecKept (d : Dev) (n : Nat) : VecKept d (raiseOwn d n) := by
  have only := raiseOwn_only d n
  have vec := congrArg Dev.vec only.rest
  have mem := congrArg Dev.mem only.rest
  refine ⟨vec, mem, fun o low high => only.regs.live o fun word => ?_⟩
  rcases List.mem_pair.mp word with rfl | rfl
  · unfold offEvtPend at high
    omega
  · unfold offEvtCoalesce at high
    omega

theorem errWords_outside {o : Nat} (word : o ∈ errWords) : o < 0x1000000 ∨ 0x1100000 ≤ o := by
  unfold errWords at word
  simp only [List.mem_append, List.mem_cons, List.mem_map, List.mem_range, List.not_mem_nil, or_false] at word
  obtain ((rfl | rfl | rfl | rfl) | ⟨k, -, rfl⟩) | ⟨p, hp, rfl⟩ := word
  · exact .inr (by decide)
  · exact .inr (by decide)
  · exact .inl (by decide)
  · exact .inl (by decide)
  · unfold offErrClassCount
    omega
  · unfold offSapPortStatus
    omega

theorem raiseErr_vecKept (d : Dev) (source code : Nat) (a0 a1 : Word) : VecKept d (raiseErr d source code a0 a1) := by
  have only := raiseErr_err source code a0 a1 (ErrOnly.refl d)
  have vec := congrArg Dev.vec only.rest
  have mem := congrArg Dev.mem only.rest
  refine ⟨vec, mem, fun o low high => only.regs.live o fun word => ?_⟩
  have := errWords_outside word
  omega

/-- What recording a program fault leaves. -/
structure FaultRecorded (core cause : Nat) (a b : Dev) : Prop where
  vec : b.vec = a.vec
  mem : b.mem = a.mem
  state : liveGet b (offVecCoreState core) = liveGet a (offVecCoreState core)
  cause : liveB b (offVecFault core) cause = true
  status : liveB b offVecStatus 0 = true
  pc : liveGet b (offVecFaultPc core) = BitVec.ofNat 32 ((coreOf a core).pc % 2 ^ 13 + (if inHandler a core then 2 ^ 31 else 0))
  count : liveF b offVecFaultCount 31 0 = min (liveF a offVecFaultCount 31 0 + 1) (2 ^ 32 - 1)

theorem faultRecorded_recorded (d : Dev) {core cause : Nat} (hc : core < 36) (hf : cause < 8) :
    FaultRecorded core cause d (faultRecorded d core cause) := by
  unfold faultRecorded
  extract_lets d1 d2 d3
  have kept : VecKept d3 _ := (raiseOwn_vecKept d3 7).trans
    (raiseErr_vecKept _ (srcOf blkVec core) 0x0205 (liveGet d3 (offVecFault core)) (liveGet d3 (offVecFaultPc core)))
  have counted : d3 = { liveSetB d2 offVecStatus 0 true with regs := d3.regs } := bumpSat_rest _ _ _ _
  have vec : d3.vec = d.vec := by rw [counted]; rfl
  have mem : d3.mem = d.mem := by rw [counted]; rfl
  have other {o : Nat} (status : o ≠ offVecStatus) (count : o ≠ offVecFaultCount) : liveGet d3 o = liveGet d2 o := by
    rw [show liveGet d3 o = _ from liveGet_bumpSat_other _ _ _ count, liveGet_liveSetB, if_neg status]
  refine ⟨kept.vec.trans vec, kept.mem.trans mem, ?_, ?_, ?_, ?_, ?_⟩
  · rw [kept.words _ (by unfold offVecCoreState; omega) (by unfold offVecCoreState; omega),
      other (by unfold offVecCoreState offVecStatus; omega) (by unfold offVecCoreState offVecFaultCount; omega),
      show liveGet d2 _ = _ from liveGet_liveSet_other _ _ (by unfold offVecCoreState offVecFaultPc; omega), liveGet_liveSetB,
      if_neg (by unfold offVecCoreState offVecFault; omega)]
  · rw [liveB, kept.words _ (by unfold offVecFault; omega) (by unfold offVecFault; omega),
      other (by unfold offVecFault offVecStatus; omega) (by unfold offVecFault offVecFaultCount; omega),
      show liveGet d2 _ = _ from liveGet_liveSet_other _ _ (by unfold offVecFault offVecFaultPc; omega)]
    exact liveB_liveSetB_same _ _ _ (by omega)
  · rw [liveB, kept.words _ (by decide) (by decide), show liveGet d3 _ = _ from liveGet_bumpSat_other _ _ _ (by decide)]
    exact liveB_liveSetB_same _ _ _ (by decide)
  · rw [kept.words _ (by unfold offVecFaultPc; omega) (by unfold offVecFaultPc; omega),
      other (by unfold offVecFaultPc offVecStatus; omega) (by unfold offVecFaultPc offVecFaultCount; omega)]
    exact liveGet_liveSet_same _ _ _
  · have before : liveF (liveSetB d2 offVecStatus 0 true) offVecFaultCount 31 0 = liveF d offVecFaultCount 31 0 := by
      rw [liveF, liveGet_liveSetB, if_neg (by decide),
        show liveGet d2 _ = _ from liveGet_liveSet_other _ _ (by unfold offVecFaultPc offVecFaultCount; omega), liveGet_liveSetB,
        if_neg (by unfold offVecFault offVecFaultCount; omega), liveF]
    rw [liveF, kept.words _ (by decide) (by decide)]
    show liveF d3 offVecFaultCount 31 0 = _
    rw [show liveF d3 _ _ _ = _ from liveF_bumpSat _ _ (by decide) (by decide), before, Nat.min_comm]

/-! ### The item or the handler ends -/

/-- What the end of a core's item or handler leaves. -/
structure CoreEnds (core : Nat) (a b : Dev) : Prop where
  mem : b.mem = a.mem
  others : ∀ j, j ≠ core → coreOf b j = coreOf a j
  words : ∀ o, o < 0x1100000 → o ≠ offVecCoreState core → liveGet b o = liveGet a o

theorem leaveHandler_ends (d : Dev) (core : Nat) : CoreEnds core d (leaveHandler d core) := by
  refine ⟨rfl, fun j other => coreOf_setCore_other _ _ other, fun o _ other => ?_⟩
  rw [leaveHandler, liveGet_liveSetB, if_neg other]
  rfl

theorem loadCore_control (c : VecCore) (r : VecRange) :
    (loadCore c r).wait = c.wait ∧ (loadCore c r).xfer = c.xfer ∧ (loadCore c r).rep = c.rep := by
  unfold loadCore
  split <;> exact ⟨rfl, rfl, rfl⟩

theorem foldl_loadCore_control (l : List VecRange) (c : VecCore) :
    (l.foldl loadCore c).wait = c.wait ∧ (l.foldl loadCore c).xfer = c.xfer ∧ (l.foldl loadCore c).rep = c.rep := by
  induction l generalizing c with
  | nil => exact ⟨rfl, rfl, rfl⟩
  | cons r t ih =>
    obtain ⟨wait, xfer, rep⟩ := loadCore_control c r
    obtain ⟨wait', xfer', rep'⟩ := ih (loadCore c r)
    exact ⟨wait'.trans wait, xfer'.trans xfer, rep'.trans rep⟩

theorem coreLoad_control (core : Nat) (d : Dev) : (coreOf (coreLoad core d) core).wait = (coreOf d core).wait ∧
    (coreOf (coreLoad core d) core).xfer = (coreOf d core).xfer ∧ (coreOf (coreLoad core d) core).rep = (coreOf d core).rep := by
  obtain same | ⟨l, load, eq⟩ := coreLoad_cases core d
  · rw [same]
    exact ⟨rfl, rfl, rfl⟩
  · have entry : coreOf (setLoad (setCore d core (l.foldl loadCore (coreOf d core))) load) core = l.foldl loadCore (coreOf d core) :=
      coreOf_setCore d core _
    rw [eq, entry]
    exact foldl_loadCore_control l _

/-- A record, where one is written, leaves the cores, the memories and the registers below WD's. -/
theorem recordOf_kept (d : Dev) (it : WorkItem) (result pos : Nat) :
    let e := if itemKind it = 0 then writeRecord d it result pos else d
    e.vec = d.vec ∧ e.mem = d.mem ∧ ∀ o, o < 0x1100000 → liveGet e o = liveGet d o := by
  intro e
  by_cases program : itemKind it = 0
  · rw [show e = _ from if_pos program]
    obtain ⟨low, -, rest⟩ := writeRecord_rec d it result pos
    have vec := congrArg Dev.vec rest
    have mem := congrArg Dev.mem rest
    exact ⟨vec, mem, low⟩
  · rw [show e = _ from if_neg program]
    exact ⟨rfl, rfl, fun _ _ => rfl⟩

section
variable {d : Dev} {core : Nat} {it : WorkItem} {result : Nat} {kept : Bool}

theorem endItem_ends (d : Dev) (core result : Nat) (kept : Bool) : CoreEnds core d (endItem d core result kept) := by
  cases item : (coreOf d core).item with
  | none =>
    rw [endItem_none item]
    exact ⟨rfl, fun _ _ => rfl, fun _ _ _ => rfl⟩
  | some it =>
    obtain ⟨pos, eq⟩ := endItem_some item result kept
    obtain ⟨vec, mem, words⟩ := recordOf_kept (itemGone d core it kept) it result pos
    rw [eq]
    refine ⟨(coreLoad_only _ _).mem.trans mem, fun j other => ?_, fun o low other => ?_⟩
    · rw [(coreLoad_kept other _).entry, coreOf, vec]
      exact (itemGone_kept other d it kept).entry
    · rw [coreLoad_liveGet, words o low, itemGone, setCoreState, liveGet_liveSetF, if_neg other]
      rfl

/-- A core whose item has ended outside a handler holds none, waits for nothing and is in no transfer or repeat. -/
theorem endItem_idle (item : (coreOf d core).item = some it) (outside : inHandler d core = false) (up : coreState d core ≠ 5)
    (hc : core < 36) :
    let e := endItem d core result kept
    (coreOf e core).item = none ∧ (coreOf e core).wait = none ∧ (coreOf e core).xfer = none ∧ (coreOf e core).rep = none ∧
      coreState e core = if posOf d core = none then 0 else 1 := by
  intro e
  obtain ⟨pos, eq⟩ := endItem_some item result kept
  obtain ⟨vec, -, words⟩ := recordOf_kept (itemGone d core it kept) it result pos
  have entry : coreOf (if itemKind it = 0 then writeRecord (itemGone d core it kept) it result pos else itemGone d core it kept) core =
      endedCore d core it kept := by
    rw [coreOf, vec]
    exact coreOf_itemGone d core it kept
  obtain ⟨wait, xfer, rep⟩ := coreLoad_control core
    (if itemKind it = 0 then writeRecord (itemGone d core it kept) it result pos else itemGone d core it kept)
  have holds := coreLoad_item core
    (if itemKind it = 0 then writeRecord (itemGone d core it kept) it result pos else itemGone d core it kept)
  rw [entry] at wait xfer rep holds
  have calm : (endedCore d core it kept).wait = none ∧ (endedCore d core it kept).xfer = none ∧ (endedCore d core it kept).rep = none := by
    unfold endedCore
    rw [outside]
    exact ⟨rfl, rfl, rfl⟩
  obtain ⟨noWait, noXfer, noRep⟩ := calm
  rw [show e = _ from eq]
  refine ⟨holds.trans (endedCore_item d core it kept), wait.trans noWait, xfer.trans noXfer, rep.trans noRep, ?_⟩
  rw [coreState, liveF, coreLoad_liveGet, words _ (by unfold offVecCoreState; omega)]
  show coreState (itemGone d core it kept) core = _
  rw [itemGone, coreState, setCoreState, liveF_liveSetF_same _ _ _ (by decide) (by decide), endedState, if_neg up, outside]
  cases posOf d core <;> rfl

end

/-! ### A program fault -/

/-- What a program fault of a core leaves (R209). -/
structure VecFaulted (core cause : Nat) (a b : Dev) : Prop where
  cause : liveB b (offVecFault core) cause = true
  status : liveB b offVecStatus 0 = true
  mem : b.mem = a.mem
  pc : liveF b (offVecFaultPc core) 12 0 = (coreOf a core).pc % 2 ^ 13
  handler : liveB b (offVecFaultPc core) 31 = inHandler a core
  count : liveF b offVecFaultCount 31 0 = min (liveF a offVecFaultCount 31 0 + 1) (2 ^ 32 - 1)
  others : ∀ j, j ≠ core → coreOf b j = coreOf a j
  resumes : inHandler a core = true → inHandler b core = false ∧
    coreOf b core = { unpark (settleAll (coreOf a core)) with pc := (coreOf a core).era, wait := none, xfer := none, rep := none }
  ends : inHandler a core = false → coreState a core = 3 → (coreOf a core).item ≠ none →
    (coreOf b core).item = none ∧ (coreOf b core).wait = none ∧ (coreOf b core).xfer = none ∧ (coreOf b core).rep = none ∧
      coreState b core = if posOf a core = none then 0 else 1

/-- The fields of VEC.FAULT_PC. -/
theorem faultPc_fields (pc : Nat) (h : Bool) (w : Word) (eq : w = BitVec.ofNat 32 (pc % 2 ^ 13 + (if h then 2 ^ 31 else 0))) :
    bits w 12 0 = pc % 2 ^ 13 ∧ bit w 31 = h := by
  have small : pc % 2 ^ 13 < 2 ^ 13 := Nat.mod_lt _ (by decide)
  have value : w.toNat = pc % 2 ^ 13 + (if h then 2 ^ 31 else 0) := by
    rw [eq, BitVec.toNat_ofNat, Nat.mod_eq_of_lt]
    split <;> omega
  rw [bits_eq_div, bit, Nat.testBit_eq_decide_div_mod_eq, value]
  cases h with
  | false =>
    refine ⟨by simp, decide_eq_false ?_⟩
    simp only [Bool.false_eq_true, if_false]
    omega
  | true =>
    refine ⟨?_, decide_eq_true ?_⟩
    · simp only [if_true]
      omega
    · simp only [if_true]
      omega

theorem vecFault_faulted (d : Dev) {core cause : Nat} (hc : core < 36) (hf : cause < 8) : VecFaulted core cause d (vecFault d core cause) := by
  obtain ⟨vec, mem, state, bitSet, status, pc, count⟩ := faultRecorded_recorded d hc hf
  have entry (j : Nat) : coreOf (faultRecorded d core cause) j = coreOf d j := by rw [coreOf, vec, coreOf]
  have pos : posOf (faultRecorded d core cause) core = posOf d core := by rw [posOf, vec, posOf]
  have ends : CoreEnds core (faultRecorded d core cause) (vecFault d core cause) := by
    rw [vecFault_eq]
    split
    · exact leaveHandler_ends _ _
    · exact endItem_ends _ _ _ _
  have word {o : Nat} (low : o < 0x1000100 ∨ 0x1000200 ≤ o) (high : o < 0x1100000) :
      liveGet (vecFault d core cause) o = liveGet (faultRecorded d core cause) o :=
    ends.words o high (by unfold offVecCoreState; omega)
  obtain ⟨address, inside⟩ := faultPc_fields _ _ _ pc
  refine ⟨?_, ?_, ends.mem.trans mem, ?_, ?_, ?_, fun j other => (ends.others j other).trans (entry j), fun h => ?_, fun h executing item => ?_⟩
  · rw [liveB, word (by unfold offVecFault; omega) (by unfold offVecFault; omega)]
    exact bitSet
  · rw [liveB, word (by decide) (by decide)]
    exact status
  · rw [liveF, word (by unfold offVecFaultPc; omega) (by unfold offVecFaultPc; omega)]
    exact address
  · rw [liveB, word (by unfold offVecFaultPc; omega) (by unfold offVecFaultPc; omega)]
    exact inside
  · rw [liveF, word (by decide) (by decide)]
    exact count
  · rw [vecFault_eq, if_pos h, leaveHandler_core, entry]
    exact ⟨leaveHandler_inHandler _ _, rfl⟩
  · obtain ⟨it, holds⟩ := Option.ne_none_iff_exists'.mp item
    rw [vecFault_eq, h, if_neg (by decide), ← pos]
    refine endItem_idle ((entry core ▸ rfl : (coreOf (faultRecorded d core cause) core).item = (coreOf d core).item).trans holds) ?_ ?_ hc
    · rw [inHandler, liveB, state]
      exact h
    · rw [coreState, liveF, state]
      show coreState d core ≠ 5
      omega

/-! ### Waits -/

/-- A core whose bundle is complete waits for nothing. -/
theorem complete_wait (d : Dev) (core : Nat) (b : Bundle) : (coreOf (complete d core b) core).wait = none := by
  obtain ⟨-, -, -, -, -, -, -, wait, -⟩ := complete_land d core b
  unfold complete transfer
  split
  · split
    · rw [coreOf_setCore, leaveHandler_core]
    · exact wait
  · split
    · exact wait
    · show (coreOf (setCore _ core _) core).wait = none
      rw [coreOf_setCore]
      exact wait
  · exact wait

/-- What counting a refused access leaves of the core that made it. -/
theorem faulted_noted {a b e : Dev} {core cause : Nat} (noted : Noted a b) (hc : core < 36) (faulted : VecFaulted core cause b e) :
    VecFaulted core cause a e := by
  have word {o : Nat} (low : o < 0x1100000) (vec : 0x1000000 ≤ o) : liveGet b o = liveGet a o :=
    noted.words o (by unfold XbarWord offMemQueue; omega)
  have entry (j : Nat) : coreOf b j = coreOf a j := by rw [coreOf, noted.rest, coreOf]
  have handler : inHandler b core = inHandler a core := by
    rw [inHandler, liveB, word (by unfold offVecCoreState; omega) (by unfold offVecCoreState; omega), inHandler, liveB]
  have state : coreState b core = coreState a core := by
    rw [coreState, liveF, word (by unfold offVecCoreState; omega) (by unfold offVecCoreState; omega), coreState, liveF]
  have count : liveF b offVecFaultCount 31 0 = liveF a offVecFaultCount 31 0 := by rw [liveF, word (by decide) (by decide), liveF]
  have pos : posOf b core = posOf a core := by rw [posOf, noted.rest, posOf]
  have mem : b.mem = a.mem := by rw [noted.rest]
  obtain ⟨bitSet, status, mem', pc, inside, count', others, resumes, ends⟩ := faulted
  rw [entry core] at pc resumes ends
  rw [handler] at inside resumes ends
  rw [state, pos] at ends
  rw [count] at count'
  exact ⟨bitSet, status, mem'.trans mem, pc, inside, count', fun j other => (others j other).trans (entry j), resumes, ends⟩

/-- A bundle command whose bundle faults, or whose word at the PC spells none, ends in a program fault. -/
theorem issueBundle_faulted {d : Dev} {core f : Nat} {b : Bundle} {l : List Nat} (hc : core < 36) (may : canIssue d core = true)
    (fault : decodeBundle (fetchWord (coreOf d core)) = none ∧ f = 0 ∨ fetches (coreOf d core) b = true ∧
      decodeBundle (fetchWord (coreOf d core)) ≠ none ∧ (bundleFx d core (coreOf d core) (inHandler d core) b).faults = f :: l) :
    f < 8 ∧ VecFaulted core f d (issueBundle core b d) := by
  obtain ⟨unspelt, rfl⟩ | ⟨has, -, faults⟩ := fault
  · rw [issueBundle_unspelt may unspelt]
    exact ⟨by decide, vecFault_faulted d hc (by decide)⟩
  · have small : f < 8 := bundleFx_faults_lt b f (by rw [faults]; exact List.mem_cons_self)
    refine ⟨small, ?_⟩
    by_cases plain : f ≠ fWindow ∨ (bundleFx d core (coreOf d core) (inHandler d core) b).refused = none
    · rw [issueBundle_faults may has faults plain]
      exact vecFault_faulted d hc small
    · obtain ⟨rfl, refused⟩ : f = fWindow ∧ (bundleFx d core (coreOf d core) (inHandler d core) b).refused ≠ none := by
        simpa [not_or] using plain
      obtain ⟨r, refused⟩ := Option.ne_none_iff_exists'.mp refused
      rw [issueBundle_refused may has faults refused]
      exact faulted_noted (countError_noted _ _ _ _ d) hc (vecFault_faulted _ hc small)

/-! ### The events that end a wait -/

section
variable {s : State} {core : Nat} {b : Bundle} {P : Dev → Prop} (hc : core < 36)
include hc

theorem enqCreditFree_runs {p : Nat} (wait : (coreOf s.dev core).wait = some (.credit, b)) (producer : prodOf s.dev core = some p)
    (up : running s.dev blkVec = true) (credit : 0 < creditsFree s.dev p) (holds : P (complete s.dev core b)) :
    Runs (.enqCreditFree core) s P := by
  refine runs_ranIf rfl (decide_eq_true hc) ?_
  rw [wait, producer]
  dsimp only
  rwa [up, decide_eq_true credit, Bool.and_self, if_pos rfl]

theorem enqCreditFree_ignored (none : ∀ b p, ¬((coreOf s.dev core).wait = some (.credit, b) ∧ prodOf s.dev core = some p ∧
    running s.dev blkVec = true ∧ 0 < creditsFree s.dev p)) : Runs (.enqCreditFree core) s fun d => d = s.dev := by
  refine runs_ranIf rfl (decide_eq_true hc) ?_
  split
  · next b p wait producer =>
    split
    · next free =>
      rw [Bool.and_eq_true, decide_eq_true_eq] at free
      exact absurd ⟨wait, producer, free⟩ (none b p)
    · rfl
  · rfl

theorem waitwDone_runs (wait : (coreOf s.dev core).wait = some (.posted, b)) (up : running s.dev blkVec = true)
    (holds : P (complete (setCore s.dev core { coreOf s.dev core with posted := false }) core b)) : Runs (.waitwDone core) s P := by
  refine runs_ranIf rfl (decide_eq_true hc) ?_
  dsimp only
  split
  · next other waits =>
    obtain rfl : other = b := by
      rw [wait] at waits
      simpa [eq_comm] using waits
    rwa [if_pos up]
  · next others => exact absurd wait (others b)

theorem waitwDone_ignored (none : ∀ b, ¬((coreOf s.dev core).wait = some (.posted, b) ∧ running s.dev blkVec = true)) :
    Runs (.waitwDone core) s fun d => d = s.dev := by
  refine runs_ranIf rfl (decide_eq_true hc) ?_
  dsimp only
  split
  · next b wait => rw [if_neg fun up => none b ⟨wait, up⟩]
  · rfl

/-- What WINDOW_READ_DATA does to a core whose bundle waits for it. -/
theorem windowReadData_runs {ok : Bool} (wait : (coreOf s.dev core).wait = some (.window, b)) (up : running s.dev blkVec = true)
    (data : ok = true → P (match waitsFor s.dev core (coreOf s.dev core) {} b.op with
      | some w => setCore s.dev core { coreOf s.dev core with wait := some (w, b) }
      | none => complete s.dev core b))
    (error : ok = false → P (vecFault (setCore (countError (core / 4 + 1)
      (0x2000000000 + windowReadOff (coreOf s.dev core) (inHandler s.dev core) b) false .data s.dev) core
        { coreOf s.dev core with wait := none }) core fWindow)) : Runs (.windowReadData core ok) s P := by
  refine runs_ranIf rfl (decide_eq_true hc) ?_
  dsimp only
  rw [wait]
  dsimp only
  rw [up]
  cases ok with
  | true => exact data rfl
  | false => exact error rfl

theorem windowReadData_ignored {ok : Bool} (none : ∀ b, ¬((coreOf s.dev core).wait = some (.window, b) ∧ running s.dev blkVec = true)) :
    Runs (.windowReadData core ok) s fun d => d = s.dev := by
  refine runs_ranIf rfl (decide_eq_true hc) ?_
  dsimp only
  split
  · next b wait => rw [if_pos (by simpa using fun up => none b ⟨wait, up⟩)]
  · rfl

end

/-- Settles O57: the events that end waits by the lemmas above, a program fault by `issueBundle_faulted`. -/
theorem vectorWaitsAndFaultsEnd : Obligations.VectorWaitsAndFaultsEnd := by
  constructor
  · intro s core hc k up
    refine ⟨fun b p wait producer on credit => enqCreditFree_runs hc wait producer on credit ⟨rfl, complete_wait _ _ _⟩,
      enqCreditFree_ignored hc, fun b wait on => waitwDone_runs hc wait on ⟨rfl, complete_wait _ _ _⟩, waitwDone_ignored hc,
      fun b wait on none => windowReadData_runs hc wait on (fun _ => ?_) nofun,
      fun b w wait on some => windowReadData_runs hc wait on (fun _ => ?_) nofun,
      fun b wait on => windowReadData_runs hc wait on nofun fun _ => rfl, fun ok => windowReadData_ignored hc⟩
    · rw [show waitsFor s.dev core (coreOf s.dev core) {} b.op = _ from none]
      exact ⟨rfl, complete_wait _ _ _⟩
    · rw [show waitsFor s.dev core (coreOf s.dev core) {} b.op = _ from some]
  · intro s c core b f l hb hc may fault
    refine runs_issueBundle hb hc rfl ?_
    obtain ⟨small, cause, status, mem, pc, inside, count, others, resumes, ends⟩ := issueBundle_faulted hc may fault
    obtain ⟨-, -, executing⟩ := canIssue_iff.mp may
    refine ⟨small, cause, status, mem, pc, inside, count, others, fun h => ?_, fun outside item => ?_⟩
    · obtain ⟨left, eq⟩ := resumes h
      refine ⟨left, ?_, ?_, ?_, ?_, eq⟩ <;> rw [eq]
    · exact ends outside (executing.resolve_left (by rw [outside]; decide)).1 item

end Sys2Proof.Machine
end

section
/-!
Cancels (R231): the ready items that leave the list, the program items that are aborted on their cores; the settling of O14.
-/
namespace Sys2Proof.Machine

/-! ### The load that a core takes between items (R390) -/

theorem setDel_eq_filter (l : List Nat) (k : Nat) : setDel l k = l.filter fun j => decide (j ≠ k) := by
  induction l with
  | nil => rfl
  | cons h t ih =>
    rw [setDel, ih]
    by_cases same : h = k
    · rw [if_pos same, List.filter_cons_of_neg (by simpa using same)]
    · rw [if_neg same, List.filter_cons_of_pos (by simpa using same)]

/-- A core without an item takes what it lacks of a load. -/
theorem coreLoad_load {core : Nat} {d : Dev} (idle : (coreOf d core).item = none) :
    (coreLoad core d).vec.load = d.vec.load.map fun p => (p.1, p.2.filter fun k => decide (k ≠ core)) := by
  unfold coreLoad
  split
  · next none =>
    rw [none]
    rfl
  · next l ks some =>
    rw [some, Option.map_some]
    split
    · show Option.some (l, setDel ks core) = _
      rw [setDel_eq_filter]
    · next lacks =>
      rw [some, List.filter_eq_self.mpr]
      intro k hk
      refine decide_eq_true fun same => lacks ?_
      rw [idle, Option.isNone_none, Bool.and_true, List.contains_iff_mem]
      exact same ▸ hk

/-! ### A program item is aborted on its core -/

/-- STATE of a core that a cancel leaves without an item. -/
def cancelledState (d : Dev) (core : Nat) : Nat := if coreState d core = 5 then 5 else if (posOf d core).isNone then 0 else 1

/-- A core's program item, and the handler upon it, have ended with a record. -/
structure ProgramEnds (core : Nat) (a b : Dev) : Prop where
  ended : CoresEnded a b
  others : ∀ j, j < 36 → j ≠ core → CoreKept j a b
  records : b.wd.records = a.wd.records + 1
  item : (coreOf b core).item = none
  handler : inHandler b core = false
  state : coreState b core = cancelledState a core
  load : b.vec.load = a.vec.load.map fun p => (p.1, p.2.filter fun k => decide (k ≠ core))

theorem endItem_program {d : Dev} {core result : Nat} {it : WorkItem} {kept : Bool} (hc : core < 36)
    (item : (coreOf d core).item = some it) (program : itemKind it = 0) (outside : inHandler d core = false) :
    ProgramEnds core d (endItem d core result kept) := by
  obtain ⟨ended, others, gone, handler, -⟩ := endItem_ended hc d result kept
  obtain ⟨pos, eq⟩ := endItem_some item result kept
  rw [if_pos program] at eq
  rw [eq] at ended others gone handler ⊢
  have record := writeRecord_rec (itemGone d core it kept) it result pos
  have idle := (coreLoad_item core (writeRecord (itemGone d core it kept) it result pos)).symm.trans gone
  refine ⟨ended, others, ?_, gone, handler.trans outside, ?_, ?_⟩
  · rw [(coreLoad_only _ _).wd, record.wd]
    rfl
  · rw [coreState, liveF, coreLoad_liveGet, record.low _ (by unfold offVecCoreState; omega)]
    show coreState (itemGone d core it kept) core = _
    rw [itemGone, coreState, setCoreState, liveF_liveSetF_same _ _ _ (by decide) (by decide), endedState, outside, cancelledState]
    cases posOf d core <;> split <;> rfl
  · have vec : (writeRecord (itemGone d core it kept) it result pos).vec = (itemGone d core it kept).vec := by
      have vec := congrArg Dev.vec record.rest
      exact vec
    rw [coreLoad_load idle, vec]
    rfl

theorem leaveHandler_ended {core : Nat} (hc : core < 36) (d : Dev) : CoresEnded d (leaveHandler d core) ∧
    ∀ j, j < 36 → j ≠ core → CoreKept j d (leaveHandler d core) := by
  obtain ⟨-, others, words⟩ := leaveHandler_ends d core
  refine ⟨((CoresEnded.refl d).setCore core _).coreWord hc _, fun j hj other => ⟨others j other, words _ ?_ ?_⟩⟩ <;>
    unfold offVecCoreState <;> omega

theorem leaveHandler_state (d : Dev) (core : Nat) : coreState (leaveHandler d core) core = coreState d core := by
  rw [leaveHandler, coreState, liveF, liveGet_liveSetB, if_pos rfl, bits_setBit_other _ _ (by decide) (by decide) (by decide)]
  rfl

/-- One core's turn of a cancel, which ends handlers too. -/
def cancelAt (p : WorkItem → Bool) (d : Dev) (core : Nat) : Dev :=
  if abortable d p core then endItem (if inHandler d core then leaveHandler d core else d) core 1 true else d

theorem abortItems_cancel (d : Dev) (p : WorkItem → Bool) : abortItems d 1 true p = (List.range 36).foldl (cancelAt p) d := by
  unfold abortItems
  congr 1
  funext d core
  unfold cancelAt abortable coreAbortable
  cases h : (coreOf d core).item with
  | none => simp
  | some it => simp [and_comm, and_left_comm]

theorem cancelAt_ends {p : WorkItem → Bool} (program : ∀ it, p it = true → itemKind it = 0) {d : Dev} {core : Nat} (hc : core < 36)
    (h : abortable d p core = true) : ProgramEnds core d (cancelAt p d core) := by
  rw [cancelAt, if_pos h]
  simp only [abortable, Bool.and_eq_true, Option.any_eq_true] at h
  obtain ⟨⟨⟨it, item, hit⟩, -⟩, -⟩ := h
  split
  · obtain ⟨left, kept⟩ := leaveHandler_ended hc d
    have still : (coreOf (leaveHandler d core) core).item = some it := by
      rw [leaveHandler_core]
      exact item
    obtain ⟨ended, others, records, gone, handler, state, load⟩ :=
      endItem_program (result := 1) (kept := true) hc still (program it hit) (leaveHandler_inHandler d core)
    refine ⟨left.trans ended, fun j hj other => (kept j hj other).trans (others j hj other), records, gone, handler, state.trans ?_, load⟩
    rw [cancelledState, leaveHandler_state]
    rfl
  · next outside => exact endItem_program hc item (program it hit) (Bool.not_eq_true _ ▸ outside)

/-- What a cancel leaves of the cores of l. -/
structure Cancelled (p : WorkItem → Bool) (l : List Nat) (a b : Dev) : Prop where
  ended : CoresEnded a b
  records : b.wd.records = a.wd.records + (l.filter (abortable a p)).length
  gone : ∀ k ∈ l, abortable a p k = true → (coreOf b k).item = none ∧ inHandler b k = false ∧ coreState b k = cancelledState a k
  kept : ∀ k, k < 36 → (k ∈ l → abortable a p k = false) → CoreKept k a b
  load : b.vec.load = a.vec.load.map fun e => (e.1, e.2.filter fun k => !(decide (k ∈ l) && abortable a p k))

theorem CoresEnded.posOf {a b : Dev} (h : CoresEnded a b) (core : Nat) : posOf b core = posOf a core := by
  rw [Machine.posOf, h.vec, Machine.posOf]

theorem CoresEnded.cancelledState {a b : Dev} {k : Nat} (h : CoresEnded a b) (same : CoreKept k a b) :
    cancelledState b k = cancelledState a k := by
  rw [Machine.cancelledState, same.state, h.posOf, Machine.cancelledState]

theorem foldl_cancelAt {p : WorkItem → Bool} (program : ∀ it, p it = true → itemKind it = 0) {l : List Nat}
    (range : ∀ k ∈ l, k < 36) (nodup : l.Nodup) (d : Dev) : Cancelled p l d (l.foldl (cancelAt p) d) := by
  induction l generalizing d with
  | nil =>
    refine ⟨.refl d, rfl, nofun, fun k _ _ => .refl k d, ?_⟩
    show d.vec.load = _
    cases d.vec.load with
    | none => rfl
    | some e => simp
  | cons c t ih =>
    obtain ⟨fresh, nodup⟩ := List.nodup_cons.mp nodup
    have hc := range c List.mem_cons_self
    have rangeT : ∀ k ∈ t, k < 36 := fun k hk => range k (List.mem_cons_of_mem c hk)
    obtain ⟨ended, records, gone, kept, load⟩ := ih rangeT nodup (cancelAt p d c)
    rw [List.foldl_cons]
    cases hit : abortable d p c with
    | true =>
      have ends := cancelAt_ends program hc hit
      have same {k : Nat} (hk : k ∈ t) : CoreKept k d (cancelAt p d c) :=
        ends.others k (rangeT k hk) fun e => fresh (e ▸ hk)
      refine ⟨ends.ended.trans ended, ?_, fun k hk abort => ?_, fun k hk miss => ?_, ?_⟩
      · rw [records, ends.records, List.filter_cons_of_pos hit, List.length_cons, List.filter_congr fun k hk => (same hk).abortable p]
        omega
      · rcases List.mem_cons.mp hk with rfl | hk
        · have last := kept k hc fun hk => absurd hk fresh
          exact ⟨(congrArg VecCore.item last.entry).trans ends.item, last.handler.trans ends.handler, last.state.trans ends.state⟩
        · rw [← ends.ended.cancelledState (same hk)]
          exact gone k hk (((same hk).abortable p).trans abort)
      · have e : k ≠ c := by
          rintro rfl
          exact absurd (miss List.mem_cons_self) (by rw [hit]; decide)
        exact (ends.others k hk e).trans (kept k hk fun hk => by rw [(same hk).abortable, miss (List.mem_cons_of_mem c hk)])
      · rw [load, ends.load, Option.map_map]
        refine Option.map_congr fun e _ => ?_
        rw [Function.comp_apply, List.filter_filter]
        congr 2
        funext k
        by_cases here : k = c
        · subst here
          simp [hit]
        · by_cases hk : k ∈ t
          · simp [here, hk, (same hk).abortable]
          · simp [here, hk]
    | false =>
      have none : cancelAt p d c = d := if_neg (by rw [hit]; decide)
      rw [none] at ended records gone kept load ⊢
      refine ⟨ended, ?_, fun k hk abort => ?_, fun k hk miss => kept k hk fun hk => miss (List.mem_cons_of_mem c hk), ?_⟩
      · rw [records, List.filter_cons_of_neg (by rw [hit]; decide)]
      · rcases List.mem_cons.mp hk with rfl | hk
        · exact absurd hit (by rw [abort]; decide)
        · exact gone k hk abort
      · rw [load]
        refine Option.map_congr fun e _ => ?_
        congr 2
        funext k
        by_cases here : k = c
        · subst here
          simp [hit]
        · simp [here]

/-! ### The ready list -/

/-- The ready items that satisfy p leave the list, each with a record. -/
theorem removeReady_rec (d : Dev) (p : WorkItem → Bool) :
    (removeReady d p).wd = { d.wd with ready := d.wd.ready.filter fun it => !(p it), records := d.wd.records + (d.wd.ready.filter p).length } ∧
    (∀ o, o < 0x1100000 → liveGet (removeReady d p) o = liveGet d o) ∧ { removeReady d p with regs := d.regs, wd := d.wd } = d := by
  have records := records_foldl 1 (d.wd.ready.filter p) { d with wd := { d.wd with ready := d.wd.ready.filter fun it => !(p it) } }
  have eq : removeReady d p = (d.wd.ready.filter p).foldl (fun d it => writeRecord d it 1 63)
      { d with wd := { d.wd with ready := d.wd.ready.filter fun it => !(p it) } } := rfl
  rw [← eq] at records
  generalize removeReady d p = e at records
  exact ⟨records.wd, records.low, congrArg (fun e : Dev => { e with wd := d.wd }) records.rest⟩

/-- Settles O14: the ready list by `removeReady_rec`, the cores by `foldl_cancelAt`. -/
theorem cancelsRemoveAndAbort : Obligations.CancelsRemoveAndAbort := by
  refine ⟨fun s tag => ?_, fun s prod small => ?_⟩
  · intro hit aborted
    have runs {P : Dev → Prop} (holds : P (if fatal s.dev = true then s.dev else abortItems (removeReady s.dev hit) 1 true hit)) :
        Runs (.cancel tag) s P :=
      runs_ran (f := fun d => if fatal d = true then d else abortItems (removeReady d hit) 1 true hit) rfl holds
    refine ⟨fun stopped => runs (if_pos stopped), fun alive => runs ?_⟩
    rw [if_neg (by rw [alive]; decide), abortItems_cancel]
    obtain ⟨wd, low, rest⟩ := removeReady_rec s.dev hit
    have vec : (removeReady s.dev hit).vec = s.dev.vec := by
      have vec := congrArg Dev.vec rest
      exact vec
    have same {k : Nat} (hk : k < 36) : CoreKept k s.dev (removeReady s.dev hit) :=
      ⟨by rw [coreOf, vec, coreOf], low _ (by unfold offVecCoreState; omega)⟩
    have asBefore {k : Nat} (hk : k < 36) : abortable (removeReady s.dev hit) hit k = aborted k := (same hk).abortable hit
    obtain ⟨ended, records, gone, kept, load⟩ := foldl_cancelAt (p := hit) (fun it yes => (of_decide_eq_true yes).1)
      (fun k hk => List.mem_range.mp hk) List.nodup_range (removeReady s.dev hit)
    generalize (List.range 36).foldl (cancelAt hit) (removeReady s.dev hit) = d at ended records gone kept load ⊢
    generalize removeReady s.dev hit = r at ended records gone kept load wd low rest vec same asBefore
    refine ⟨?_, fun k hk abort => ?_, fun k hk miss => ?_, fun o ho => (ended.regs o (.inl (by omega))).trans (low o (by omega)), ?_, ?_, ?_⟩
    · rw [ended.wd, records, wd, List.filter_congr fun k hk => asBefore (List.mem_range.mp hk)]
    · obtain ⟨item, handler, state⟩ := gone k (List.mem_range.mpr hk) ((asBefore hk).trans abort)
      refine ⟨item, handler, state.trans ?_⟩
      rw [cancelledState, (same hk).state, posOf, vec, ← posOf]
    · have keeps := (same hk).trans (kept k hk fun _ => (asBefore hk).trans miss)
      exact ⟨keeps.entry, keeps.state, keeps.handler⟩
    · have back := congrArg (fun e : Dev => { e with regs := s.dev.regs, vec := s.dev.vec, wd := s.dev.wd }) ended.rest
      have front := congrArg (fun e : Dev => { e with vec := s.dev.vec }) rest
      exact back.trans front
    · rw [load, vec]
      refine Option.map_congr fun e _ => congrArg (Prod.mk e.1) (List.filter_congr fun k _ => ?_)
      by_cases hk : k < 36
      · rw [decide_eq_true (List.mem_range.mpr hk), decide_eq_true hk, asBefore hk]
      · rw [decide_eq_false fun mem => hk (List.mem_range.mp mem), decide_eq_false hk, Bool.false_and, Bool.false_and]
    · rw [ended.vec, vec]
  · exact runs_ranIf rfl (decide_eq_true small) (removeReady_rec s.dev _)

end Sys2Proof.Machine
end

section
/-!
Offers of one event source (R218, R234 to R239): deliveries to a supervisor, as an item and to a vector handler; the settling of O11.
-/
namespace Sys2Proof.Machine

/-! ### A delivery -/

/-- The delivery of a source: its pending bit is cleared, and its holdoff starts. -/
structure Delivered (src : Nat) (a b : Dev) : Prop where
  pending : ∀ k, evtPending b k = (evtPending a k && decide (k ≠ src))
  evt : b.evt = { a.evt with holdoff := if actF a (offEvtSrcHoldoff src) 11 0 = 0 then a.evt.holdoff else setIns a.evt.holdoff src }
  regs : RegsBut [offEvtPend (src / 32)] a b
  rest : { b with regs := a.regs, evt := a.evt } = a

theorem delivered_delivered (d : Dev) (src : Nat) : Delivered src d (delivered d src) := by
  have same : actF (liveSetB d (offEvtPend (src / 32)) (src % 32) false) (offEvtSrcHoldoff src) 11 0 = actF d (offEvtSrcHoldoff src) 11 0 := rfl
  have regs : RegsBut [offEvtPend (src / 32)] d (liveSetB d (offEvtPend (src / 32)) (src % 32) false) :=
    (RegsBut.refl _ d).liveSetB (List.mem_singleton.mpr rfl)
  unfold delivered
  dsimp only
  rw [same]
  split
  · next none =>
    exact ⟨evtPending_clear d src, by rw [if_pos none]; rfl, regs, rfl⟩
  · next some =>
    exact ⟨evtPending_clear d src, by rw [if_neg some]; rfl, regs.other rfl, rfl⟩

/-! ### Offers by action -/

section
variable {d : Dev} {src : Nat} (on : running d blkEvt = true) (order : evtOrder d = [src])
include on order

theorem eventOffers_supervisor (action : actF d (offEvtSrcCfg src) 31 30 = 1) : eventOffers d = (offerSupervisor (d, []) src).1 := by
  simp only [eventOffers, on, order, if_true, List.foldl_cons, List.foldl_nil, action]

theorem eventOffers_item (action : 2 ≤ actF d (offEvtSrcCfg src) 31 30) : eventOffers d = (offerItem (d, []) src).1 := by
  obtain ⟨n, action⟩ := Nat.exists_eq_add_of_le' action
  simp only [eventOffers, on, order, if_true, List.foldl_cons, List.foldl_nil, action]

theorem eventOffers_vector (action : actF d (offEvtSrcCfg src) 31 30 = 0) : eventOffers d = (offerVector (d, []) src).1 := by
  simp only [eventOffers, on, order, if_true, List.foldl_cons, List.foldl_nil, action]

end

/-- A supervisor takes an offer where there is a candidate. -/
theorem offerSupervisor_takes {d : Dev} {src : Nat}
    (candidate : actB d (offEvtSrcCfg src) 29 = false ∨ actF d (offEvtSrcCfg src) 28 24 < 4) :
    (offerSupervisor (d, []) src).1 = delivered d src := by
  unfold offerSupervisor
  dsimp only
  by_cases routed : actB d (offEvtSrcCfg src) 29 = true
  · have few := candidate.resolve_left (by rw [routed]; decide)
    rw [if_pos (show bit _ 29 = true from routed), if_pos (show bits _ 28 24 < 4 from few)]
    simp
  · rw [if_neg (show ¬bit _ 29 = true from routed)]
    rfl

/-- The descriptor of an event's item: its template with the source in word 1. -/
def evtTemplate (d : Dev) (src : Nat) : List Word :=
  (List.range 8).map fun w =>
    let v := actGet d (offWdTemplate (actF d (offEvtSrcCfg src) 19 16) w)
    if w = 1 then setBits v 9 0 src else v

theorem offerItem_refused {d : Dev} {src : Nat} (none : creditsFree d 32 = 0) : (offerItem (d, []) src).1 = d := by
  unfold offerItem
  dsimp only
  rw [if_pos none]

theorem offerItem_enqueues {d : Dev} {src : Nat} (credit : creditsFree d 32 ≠ 0) (ok : descriptorOk d (evtTemplate d src) = true) :
    (offerItem (d, []) src).1 = enqueue (delivered d src) (evtTemplate d src) 32 := by
  have wd : (delivered d src).wd = d.wd := by
    have wd := congrArg Dev.wd (delivered_delivered d src).rest
    exact wd
  have still : descriptorOk (delivered d src) (evtTemplate d src) = true := by rwa [descriptorOk, wd, ← descriptorOk]
  unfold offerItem
  dsimp only
  rw [if_neg credit]
  exact if_pos still

/-! ### A vector core accepts -/

/-- The event's position has lost its cluster, which EVT notes. -/
def rerouted (d : Dev) (gone : Bool) : Dev := if gone then liveSetB d offEvtStatus 1 true else d

section
variable {d : Dev} {src p k : Nat} {gone : Bool} (hk : k < 36)

theorem rerouted_liveGet {o : Nat} (other : o ≠ offEvtStatus) : liveGet (rerouted d gone) o = liveGet d o := by
  unfold rerouted
  split
  · rw [liveGet_liveSetB, if_neg other]
  · rfl

theorem rerouted_only : OnlyWords [offEvtStatus] d (rerouted d gone) := by
  unfold rerouted
  split
  · exact (OnlyWords.refl _ d).liveSetB (List.mem_singleton.mpr rfl)
  · exact .refl _ d

theorem rerouted_status : liveB (rerouted d gone) offEvtStatus 1 = (gone || liveB d offEvtStatus 1) := by
  unfold rerouted
  cases gone with
  | true => exact liveB_liveSetB_same _ _ _ (by decide)
  | false => rfl

theorem rerouted_running (b : Nat) : running (rerouted d gone) b = running d b := by
  have act : actB (rerouted d gone) (b * 0x100000) 0 = actB d (b * 0x100000) 0 := by
    rw [actB, actGet, actBank, rerouted_only.regs.act, actB, actGet, actBank]
  have boot : (rerouted d gone).boot = d.boot := by
    have boot := congrArg Dev.boot (rerouted_only (d := d) (gone := gone)).rest
    exact boot
  have slow : liveB (rerouted d gone) (offMemStatus 0) 2 = liveB d (offMemStatus 0) 2 := by
    rw [liveB, rerouted_liveGet (by decide), liveB]
  have stopped : fatal (rerouted d gone) = fatal d := by rw [fatal, liveB, rerouted_liveGet (by decide), fatal, liveB]
  simp only [running, enabled, mayRun, spared, act, boot, slow, stopped]

include hk

theorem rerouted_canAccept : canAccept (rerouted d gone) k = canAccept d k := by
  have entry : coreOf (rerouted d gone) k = coreOf d k := by
    have vec := congrArg Dev.vec (rerouted_only (d := d) (gone := gone)).rest
    have vec : (rerouted d gone).vec = d.vec := vec
    rw [coreOf, vec, coreOf]
  have word {j : Nat} (hj : j < 40) : liveGet (rerouted d gone) (offVecCoreState j) = liveGet d (offVecCoreState j) :=
    rerouted_liveGet (by unfold offVecCoreState offEvtStatus; omega)
  have staging : ((List.range 4).any fun i =>
      let st := coreState (rerouted d gone) (k / 4 * 4 + i)
      decide (st = 2 ∨ st = 4)) = (List.range 4).any fun i =>
      let st := coreState d (k / 4 * 4 + i)
      decide (st = 2 ∨ st = 4) := by
    rw [Bool.eq_iff_iff, List.any_eq_true, List.any_eq_true]
    refine exists_congr fun i => and_congr_right fun hi => ?_
    have few := List.mem_range.mp hi
    rw [coreState, liveF, word (j := k / 4 * 4 + i) (by omega), coreState, liveF]
  have handler : inHandler (rerouted d gone) k = inHandler d k := by rw [inHandler, liveB, word (by omega), inHandler, liveB]
  have state : coreState (rerouted d gone) k = coreState d k := by rw [coreState, liveF, word (by omega), coreState, liveF]
  unfold canAccept
  dsimp only at staging ⊢
  rw [staging, rerouted_running, handler, state, entry]

omit hk in
/-- What an offer to the chosen core does. -/
theorem offerVector_offers
    (position : bestPos d (evtPrio d src) []
      (if actB d (offEvtSrcCfg src) 29 = true ∧ gone = false then
        (if (offerPositions d).contains (actF d (offEvtSrcCfg src) 28 24) then [actF d (offEvtSrcCfg src) 28 24] else [])
      else offerPositions d) = some p)
    (lost : gone = (actB d (offEvtSrcCfg src) 29 && (d.vec.places.getD (actF d (offEvtSrcCfg src) 28 24 / 4) none).isNone))
    (core : coreAt d p = some k) : (offerVector (d, []) src).1 =
      if canAccept (rerouted d gone) k then
        (if gone then bump (delivered (acceptEvent (rerouted d gone) k src) src) offEvtRerouteCount
          else delivered (acceptEvent (rerouted d gone) k src) src)
      else startWake (rerouted d gone) k := by
  have cands : (if (actB d (offEvtSrcCfg src) 29 && !gone) = true then
        (if (offerPositions d).contains (actF d (offEvtSrcCfg src) 28 24) then [actF d (offEvtSrcCfg src) 28 24] else [])
      else offerPositions d) =
      if actB d (offEvtSrcCfg src) 29 = true ∧ gone = false then
        (if (offerPositions d).contains (actF d (offEvtSrcCfg src) 28 24) then [actF d (offEvtSrcCfg src) 28 24] else [])
      else offerPositions d := by
    simp only [Bool.and_eq_true, Bool.not_eq_true']
  have chosen := (congrArg (bestPos d (evtPrio d src) []) cands).trans position
  rw [lost] at chosen
  unfold offerVector
  dsimp only
  split
  · next none => exact absurd (chosen.symm.trans none) nofun
  · next q some =>
    obtain rfl : p = q := Option.some.inj (chosen.symm.trans some)
    rw [core, lost]
    exact apply_ite Prod.fst _ _ _

end

/-- Core k accepts the source: ERA takes the next bundle's address, and the handler is entered. -/
structure Accepted (src k : Nat) (a b : Dev) : Prop where
  era : (coreOf b k).era = (coreOf a k).pc
  pc : (coreOf b k).pc = actF a (offEvtSrcCfg src) 12 0
  shadow : mapGet (fun _ => 0) (coreOf b k).regs 64 = src
  others : ∀ r, r ≠ 64 → mapGet (fun _ => 0) (coreOf b k).regs r = mapGet (fun _ => 0) (coreOf a k).regs r
  handler : inHandler b k = true
  cores : ∀ j, j ≠ k → coreOf b j = coreOf a j
  regs : RegsBut (offVecCoreState k :: perfWords (20 + k)) a b
  rest : { b with regs := a.regs, vec := a.vec } = a
  vec : { b.vec with cores := a.vec.cores } = a.vec

/-- The counters of PERF lie above the registers of VEC, WD and EVT. -/
theorem perfWords_high {b o : Nat} (low : o < 0x1801008) : o ∉ perfWords b := by
  intro counter
  rcases List.mem_cons.mp counter with rfl | counter
  · unfold offPerfOvf at low
    omega
  · obtain ⟨k, -, counter⟩ := List.mem_flatMap.mp counter
    rcases List.mem_pair.mp counter with rfl | rfl
    · unfold offPerfCntLo at low
      omega
    · unfold offPerfCntHi at low
      omega

theorem acceptEvent_accepted {k : Nat} (hk : k < 36) (d : Dev) (src : Nat) : Accepted src k d (acceptEvent d k src) := by
  unfold acceptEvent
  extract_lets c n
  have counted := perfHit_only (liveSetB (setCore d k n) (offVecCoreState k) 4 true) (20 + k) 0x15 1
  generalize perfHit (liveSetB (setCore d k n) (offVecCoreState k) 4 true) (20 + k) 0x15 1 = e at counted
  have vec : e.vec = (setCore d k n).vec := by
    have vec := congrArg Dev.vec counted.rest
    exact vec
  have entry : coreOf e k = n := by
    rw [coreOf, vec]
    exact coreOf_setCore d k n
  refine ⟨by rw [entry], by rw [entry], by rw [entry]; exact mapGet_mapSet_self _ _ _ _, fun r other => ?_, ?_, fun j other => ?_, ?_, ?_, ?_⟩
  · rw [entry]
    exact mapGet_mapSet_other _ _ _ other
  · rw [inHandler, liveB, counted.regs.live _ (perfWords_high (by unfold offVecCoreState; omega))]
    exact liveB_liveSetB_same _ _ _ (by decide)
  · rw [coreOf, vec]
    exact coreOf_setCore_other d n other
  · have entered : RegsBut (offVecCoreState k :: perfWords (20 + k)) d (liveSetB (setCore d k n) (offVecCoreState k) 4 true) :=
      RegsBut.liveSetB (b := setCore d k n) List.mem_cons_self ((RegsBut.refl _ d).other rfl)
    exact entered.trans (counted.regs.mono fun o ho => List.mem_cons_of_mem _ ho)
  · have rest := congrArg (fun f : Dev => { f with regs := d.regs, vec := d.vec }) counted.rest
    exact rest
  · rw [vec]
    rfl

/-- What an offer that its vector core accepts leaves. -/
structure Entered (src k : Nat) (gone : Bool) (a b : Dev) : Prop where
  pending : ∀ j, j < 1024 → evtPending b j = (evtPending a j && decide (j ≠ src))
  evt : b.evt = { a.evt with holdoff := if actF a (offEvtSrcHoldoff src) 11 0 = 0 then a.evt.holdoff else setIns a.evt.holdoff src }
  status : liveB b offEvtStatus 1 = (gone || liveB a offEvtStatus 1)
  reroutes : liveGet b offEvtRerouteCount = liveGet a offEvtRerouteCount + (if gone then 1 else 0)
  era : (coreOf b k).era = (coreOf a k).pc
  pc : (coreOf b k).pc = actF a (offEvtSrcCfg src) 12 0
  shadow : mapGet (fun _ => 0) (coreOf b k).regs 64 = src
  others : ∀ r, r ≠ 64 → mapGet (fun _ => 0) (coreOf b k).regs r = mapGet (fun _ => 0) (coreOf a k).regs r
  handler : inHandler b k = true
  cores : ∀ j, j ≠ k → coreOf b j = coreOf a j
  regs : RegsBut (offEvtStatus :: offEvtRerouteCount :: offEvtPend (src / 32) :: offVecCoreState k :: perfWords (20 + k)) a b
  rest : { b with regs := a.regs, evt := a.evt, vec := a.vec } = a
  vec : { b.vec with cores := a.vec.cores } = a.vec

/-- The delivery of a rerouted event is counted. -/
def rerouteCounted (d : Dev) (gone : Bool) : Dev := if gone then bump d offEvtRerouteCount else d

theorem rerouteCounted_only (d : Dev) (gone : Bool) : OnlyWords [offEvtRerouteCount] d (rerouteCounted d gone) := by
  unfold rerouteCounted
  split
  · exact (OnlyWords.refl _ d).bump (List.mem_singleton.mpr rfl)
  · exact .refl _ d

theorem rerouteCounted_count (d : Dev) (gone : Bool) :
    liveGet (rerouteCounted d gone) offEvtRerouteCount = liveGet d offEvtRerouteCount + (if gone then 1 else 0) := by
  unfold rerouteCounted
  cases gone with
  | true => exact liveGet_liveSet_same _ _ _
  | false => exact (BitVec.add_zero _).symm

theorem entered (d : Dev) {src k : Nat} (hs : src < 1024) (hk : k < 36) (gone : Bool) :
    Entered src k gone d (rerouteCounted (delivered (acceptEvent (rerouted d gone) k src) src) gone) := by
  have few : src / 32 < 32 := Nat.div_lt_of_lt_mul hs
  have noted := rerouted_only (d := d) (gone := gone)
  have status := rerouted_status (d := d) (gone := gone)
  have word {o : Nat} (other : o ≠ offEvtStatus) := rerouted_liveGet (d := d) (gone := gone) other
  generalize rerouted d gone = d0 at noted status word ⊢
  have accepted := acceptEvent_accepted hk d0 src
  generalize acceptEvent d0 k src = d1 at accepted ⊢
  have delivery := delivered_delivered d1 src
  generalize delivered d1 src = d2 at delivery ⊢
  have counted := rerouteCounted_only d2 gone
  have count := rerouteCounted_count d2 gone
  generalize rerouteCounted d2 gone = e at counted count ⊢
  have act : actF d1 = actF d := by
    funext off hi lo
    rw [actF, actGet, actBank, accepted.regs.act, noted.regs.act, actF, actGet, actBank]
  have act0 : actF d0 = actF d := by
    funext off hi lo
    rw [actF, actGet, actBank, noted.regs.act, actF, actGet, actBank]
  have evtRegs {o : Nat} (low : 0x1200000 ≤ o) (high : o < 0x1300000) : liveGet d1 o = liveGet d0 o := by
    refine accepted.regs.live o fun mem => ?_
    rcases List.mem_cons.mp mem with rfl | counter
    · unfold offVecCoreState at low
      omega
    · exact perfWords_high (by omega) counter
  have pend {o : Nat} (other : o ≠ offEvtPend (src / 32)) : liveGet d2 o = liveGet d1 o :=
    delivery.regs.live o fun mem => other (List.mem_singleton.mp mem)
  have last {o : Nat} (other : o ≠ offEvtRerouteCount) : liveGet e o = liveGet d2 o :=
    counted.regs.live o fun mem => other (List.mem_singleton.mp mem)
  have evt1 : d1.evt = d.evt := by
    have evt := congrArg Dev.evt accepted.rest
    have evt0 := congrArg Dev.evt noted.rest
    have evt : d1.evt = d0.evt := evt
    have evt0 : d0.evt = d.evt := evt0
    rw [evt, evt0]
  have evt : e.evt = d2.evt := by
    have evt := congrArg Dev.evt counted.rest
    exact evt
  have vec0 : d0.vec = d.vec := by
    have vec := congrArg Dev.vec noted.rest
    exact vec
  have vec : e.vec = d1.vec := by
    have vec2 := congrArg Dev.vec delivery.rest
    have vec3 := congrArg Dev.vec counted.rest
    have vec2 : d2.vec = d1.vec := vec2
    have vec3 : e.vec = d2.vec := vec3
    rw [vec3, vec2]
  have core (j : Nat) : coreOf e j = coreOf d1 j := by rw [coreOf, vec, coreOf]
  have core0 (j : Nat) : coreOf d0 j = coreOf d j := by rw [coreOf, vec0, coreOf]
  obtain ⟨era, pc, shadow, others, handler, cores, regs, rest, places⟩ := accepted
  rw [core0] at era others
  rw [act0] at pc
  refine ⟨fun j hj => ?_, ?_, ?_, ?_, by rw [core]; exact era, by rw [core]; exact pc, by rw [core]; exact shadow,
    fun r other => by rw [core]; exact others r other, ?_, fun j other => by rw [core, cores j other, core0], ?_, ?_, ?_⟩
  · have here : evtPending e j = evtPending d2 j := by
      rw [evtPending, liveB, last (by unfold offEvtPend offEvtRerouteCount; omega), evtPending, liveB]
    have there : evtPending d1 j = evtPending d j := by
      rw [evtPending, liveB, evtRegs (by unfold offEvtPend; omega) (by unfold offEvtPend; omega),
        word (by unfold offEvtPend offEvtStatus; omega), evtPending, liveB]
    rw [here, delivery.pending, there]
  · rw [evt, delivery.evt, act, evt1]
  · rw [liveB, last (by decide), pend (by unfold offEvtPend offEvtStatus; omega), evtRegs (by decide) (by decide)]
    exact status
  · rw [count, pend (by unfold offEvtPend offEvtRerouteCount; omega), evtRegs (by decide) (by decide), word (by decide)]
  · rw [inHandler, liveB, last (by unfold offVecCoreState offEvtRerouteCount; omega), pend (by unfold offVecCoreState offEvtPend; omega)]
    exact handler
  · refine (((noted.regs.mono ?_).trans (regs.mono ?_)).trans (delivery.regs.mono ?_)).trans (counted.regs.mono ?_)
    · exact fun o ho => List.mem_singleton.mp ho ▸ List.mem_cons_self
    · exact fun o ho => List.mem_cons_of_mem _ (List.mem_cons_of_mem _ (List.mem_cons_of_mem _ ho))
    · exact fun o ho => List.mem_singleton.mp ho ▸ List.mem_cons_of_mem _ (List.mem_cons_of_mem _ List.mem_cons_self)
    · exact fun o ho => List.mem_singleton.mp ho ▸ List.mem_cons_of_mem _ List.mem_cons_self
  · have r3 := congrArg (fun f : Dev => { f with regs := d.regs, evt := d.evt, vec := d.vec }) counted.rest
    have r2 := congrArg (fun f : Dev => { f with regs := d.regs, evt := d.evt, vec := d.vec }) delivery.rest
    have r1 := congrArg (fun f : Dev => { f with regs := d.regs, evt := d.evt, vec := d.vec }) rest
    have r0 := congrArg (fun f : Dev => { f with regs := d.regs, evt := d.evt, vec := d.vec }) noted.rest
    exact ((r3.trans r2).trans r1).trans r0
  · rw [vec, ← vec0]
    exact places

theorem mem_evtOrder {d : Dev} {src : Nat} (h : src ∈ evtOrder d) : src < 1024 := by
  obtain ⟨q, -, mem⟩ := List.mem_flatMap.mp h
  exact List.mem_range.mp (List.mem_filter.mp (List.mem_filter.mp mem).1).1

/-- Settles O11: each action's offer by the lemma about it. -/
theorem eventDelivery : Obligations.EventDelivery := by
  unfold Obligations.EventDelivery
  intro cleared
  have clears {src : Nat} {a b : Dev} (delivery : Delivered src a b) : cleared src a b := ⟨fun k _ => delivery.pending k, delivery.evt⟩
  have runs {s : State} {P : Dev → Prop} (holds : P (eventOffers s.dev)) : Runs .eventOffer s P := runs_ran (f := eventOffers) rfl holds
  refine ⟨fun s off => runs ?off, fun s none => runs ?none, fun s src on order action candidate => runs ?supervisor,
    fun s src on order action => ?item, fun s src p k on order action => ?vector⟩
  case off => rw [eventOffers, off, if_neg (by decide)]
  case none =>
    rw [eventOffers, none]
    split <;> rfl
  case supervisor =>
    rw [eventOffers_supervisor on order action, offerSupervisor_takes candidate]
    have delivery := delivered_delivered s.dev src
    exact ⟨clears delivery, delivery.regs, delivery.rest⟩
  case item =>
    intro template
    refine ⟨fun refused => runs ?_, fun credit ok => runs ?_⟩
    · rw [eventOffers_item on order action, offerItem_refused refused]
    · rw [eventOffers_item on order action, offerItem_enqueues credit ok]
      have delivery := delivered_delivered s.dev src
      have wd := congrArg Dev.wd delivery.rest
      have wd : (delivered s.dev src).wd = s.dev.wd := wd
      have rest := congrArg (fun e : Dev => { e with wd := s.dev.wd }) delivery.rest
      refine ⟨⟨fun k _ => delivery.pending k, delivery.evt⟩, ?_, delivery.regs.other rfl, rest⟩
      rw [enqueue, wd]
      rfl
  case vector =>
    intro want gone position core hk
    have offers := (congrArg id (eventOffers_vector on order action)).trans (offerVector_offers position rfl core)
    rw [rerouted_canAccept hk] at offers
    refine ⟨fun refuses => runs ?_, fun accepts => runs ?_⟩
    · rw [show eventOffers s.dev = _ from offers, if_neg (by rw [refuses]; decide)]
      rfl
    · rw [show eventOffers s.dev = _ from offers, if_pos accepts]
      obtain ⟨pending, evt, status, reroutes, era, pc, shadow, others, handler, cores, regs, rest, vec⟩ :=
        entered s.dev (mem_evtOrder (order ▸ List.mem_singleton.mpr rfl)) hk gone
      exact ⟨⟨pending, evt⟩, status, reroutes, era, pc, shadow, others, handler, cores, regs, rest, vec⟩

end Sys2Proof.Machine
end

section
/-!
Staging of items (R200 to R202, R215, R216): the entry of a kernel, and what a completion copies out and leaves; the settling of O17.
-/
namespace Sys2Proof.Machine

/-! ### Stage-in -/

/-- The input of an item (R201, R215). -/
def stagedInput (d : Dev) (it : WorkItem) : List Word :=
  if itemKind it = 0 then wordsGet d.mem.mem1 ((itemW it 2).toNat * 16) (bits (itemW it 3) 29 16)
  else match itemStageBlock d it with
    | none => []
    | some b => stagedIn (blockN d) (itemStage it) b (bits (itemW it 2) 10 0) (bits (itemW it 2) 24 16)

/-- What staging leaves of a core's memory beside the item's areas. -/
def besideItem (m : List (Nat × Word)) : List (Nat × Word) := m.filter fun e => decide (e.1 < 0x4000 ∨ 0x8000 ≤ e.1)

/-- A core at the entry of an item's kernel, in the device as its state block is staged (R200). -/
def kernelCore (d after : Dev) (it : WorkItem) (c : VecCore) (input state : List Word) : VecCore :=
  { c with xmem := mapSetRun word0 (mapSetRun word0 (besideItem c.xmem) 0x7FF8 it.words) 0x4000 input
           ymem := mapSetRun word0 (besideItem c.ymem) 0x6000 state
           regs := entryRegs (blockN d) it c.regs
           pc := match (kernelsFor after it).find? fun k => k.1 = itemKernel it with
             | some k => k.2
             | none => 0
           stack := [], xfer := none, rep := none, wait := none, posted := false, ended := false }

section
variable {d : Dev} {k : Nat} {it : WorkItem} (item : (coreOf d k).item = some it) (up : running d blkVec = true)
include item up

/-- A stage-in whose regions are out of reach ends the item. -/
theorem stageInDone_refused {r : Nat × Nat} (stage : coreState d k = 2) (bad : stageInBad d it = some r) :
    stageInDone k d = endItem (mem1Refused k false r.1 r.2 d) k 2 true := by
  unfold stageInDone
  dsimp only
  rw [show (settleAll (coreOf d k)).item = some it from item]
  dsimp only
  rw [if_neg (by simp [stage, up]), bad]

theorem stageInDone_enters (stage : coreState d k = 2) (good : stageInBad d it = none) : stageInDone k d =
    setCoreState (setCore (stagedState d it).1 k
      (kernelCore d (stagedState d it).1 it (settleAll (coreOf d k)) (stagedInput d it) (stagedState d it).2)) k 3 := by
  unfold stageInDone
  dsimp only
  split
  · next none => exact absurd (item.symm.trans none) nofun
  · next other holds =>
    obtain rfl : it = other := Option.some.inj (item.symm.trans holds)
    rw [if_neg (by simp [stage, up]), good]
    rfl

end

/-- A core's stage-in ends only while it stages an item in and VEC runs. -/
theorem stageInDone_ignored {d : Dev} {k : Nat} (not : (coreOf d k).item = none ∨ coreState d k ≠ 2 ∨ running d blkVec = false) :
    stageInDone k d = d := by
  unfold stageInDone
  dsimp only
  cases item : (settleAll (coreOf d k)).item with
  | none => rfl
  | some it =>
    have holds : (coreOf d k).item = some it := item
    exact if_pos (not.resolve_left (by rw [holds]; exact nofun))

/-! ### The state block that is staged (R363) -/

theorem stagedState_own {d : Dev} {it : WorkItem} (own : itemKind it = 0 ∨ following d = false) :
    stagedState d it = (d, wordsGet d.mem.mem1 (itemStateOff it) (itemStateLen it)) := by
  unfold stagedState
  exact if_pos (own.imp_right .inr)

/-- The mirror of an item's state block (R327, R363). -/
def mirroredState (d : Dev) (it : WorkItem) : List Word :=
  (List.range (itemStateLen it)).map fun i => match mirrorOffset d (itemStateOff it + 4 * i) with
    | some p => BitVec.ofNat 32 (leNat (mem1Run d p 4))
    | none => 0

section
variable {d : Dev} {it : WorkItem} (insert : itemKind it ≠ 0) (follows : following d = true) (some : itemStateLen it ≠ 0)
include insert follows some

theorem stagedState_mirrored (complete : itemGroup it ∈ d.twn.mirrored) : stagedState d it = (d, mirroredState d it) := by
  unfold stagedState
  dsimp only
  rw [if_neg (by simp [insert, follows, some]), if_pos (List.contains_iff_mem.mpr complete)]
  rfl

theorem stagedState_counted (lacking : itemGroup it ∉ d.twn.mirrored) :
    stagedState d it = (bumpSat d offTwnJoinStatus 31 16, wordsGet d.mem.mem1 (itemStateOff it) (itemStateLen it)) := by
  unfold stagedState
  dsimp only
  rw [if_neg (by simp [insert, follows, some]), if_neg fun mem => lacking (List.contains_iff_mem.mp mem)]

end

/-! ### What the entry of a kernel leaves -/

/-- Core k is put in another state with another entry. -/
theorem setCore_state {k : Nat} (d : Dev) (c : VecCore) {v : Nat} (small : v < 8) :
    let e := setCoreState (setCore d k c) k v
    coreState e k = v ∧ coreOf e k = c ∧ (∀ j, j ≠ k → coreOf e j = coreOf d j) ∧
      OnlyWords [offVecCoreState k] d { e with vec := d.vec } ∧ { e.vec with cores := d.vec.cores } = d.vec ∧
      ∀ o, o ≠ offVecCoreState k → liveGet e o = liveGet d o := by
  intro e
  have only : RegsBut [offVecCoreState k] d e := RegsBut.liveSetF (b := setCore d k c) (List.mem_singleton.mpr rfl) ((RegsBut.refl _ d).other rfl)
  refine ⟨?_, coreOf_setCore d k c, fun j other => coreOf_setCore_other d c other, ⟨only.other rfl, rfl⟩, rfl,
    fun o other => only.live o fun mem => other (List.mem_singleton.mp mem)⟩
  rw [show coreState e k = _ from liveF_liveSetF_same _ _ _ (by decide) (by decide)]
  exact Nat.mod_eq_of_lt small

/-! ### Completion -/

/-- The device when an item's output and state have been copied out (R202, R216). -/
def copiedOut (d : Dev) (k : Nat) (it : WorkItem) : Dev :=
  let c := settleAll (coreOf d k)
  let m := wordsSet d.mem.mem1 ((itemW it 4).toNat * 16) (mapGetRun word0 c.ymem 0x4000 (if itemKind it = 0 then bits (itemW it 3) 13 0 else 0))
  setCore (setMem1 d (wordsSet m (itemStateOff it) (mapGetRun word0 c.ymem 0x6000 (itemStateLen it)))) k { c with posted := false }

section
variable {d : Dev} {k : Nat} {it : WorkItem} (item : (coreOf d k).item = some it) (up : running d blkVec = true) (stage : coreState d k = 4)
include item up stage

theorem itemComplete_refused (program : itemKind it = 0) (some : bits (itemW it 3) 13 0 ≠ 0)
    (shut : mem1Open d ((itemW it 4).toNat * 16) (4 * bits (itemW it 3) 13 0) = false) : itemComplete k d =
      endItem (mem1Refused k true ((itemW it 4).toNat * 16) (4 * bits (itemW it 3) 13 0) d) k 2 true := by
  unfold itemComplete
  dsimp only
  rw [show (settleAll (coreOf d k)).item = Option.some it from item]
  dsimp only
  rw [if_neg (by simp [stage, up]), if_pos program, if_pos ⟨program, some, shut⟩]

theorem itemComplete_program (program : itemKind it = 0)
    (reach : bits (itemW it 3) 13 0 = 0 ∨ mem1Open d ((itemW it 4).toNat * 16) (4 * bits (itemW it 3) 13 0) = true) :
    itemComplete k d = endItem (copiedOut d k it) k 0 true := by
  have reaches : ¬(itemKind it = 0 ∧ bits (itemW it 3) 13 0 ≠ 0 ∧
      mem1Open d ((itemW it 4).toNat * 16) (4 * bits (itemW it 3) 13 0) = false) := by
    rintro ⟨-, some, shut⟩
    exact absurd (reach.resolve_left some) (by rw [shut]; decide)
  unfold itemComplete copiedOut
  dsimp only
  rw [show (settleAll (coreOf d k)).item = some it from item]
  dsimp only
  rw [if_neg (by simp [stage, up]), if_pos program, if_neg reaches, if_pos program]

theorem itemComplete_insert (insert : itemKind it ≠ 0) : itemComplete k d =
    endItem (mirrorState (itemStateOff it) (mapGetRun word0 (settleAll (coreOf d k)).ymem 0x6000 (itemStateLen it))
      (deliver (copiedOut d k it) it (settleAll (coreOf d k)).ymem)) k 0 true := by
  unfold itemComplete copiedOut
  dsimp only
  rw [show (settleAll (coreOf d k)).item = some it from item]
  dsimp only
  rw [if_neg (by simp [stage, up]), if_neg insert, if_neg (fun all => insert all.1), if_neg insert]

end

theorem itemComplete_ignored {d : Dev} {k : Nat} (not : (coreOf d k).item = none ∨ coreState d k ≠ 4 ∨ running d blkVec = false) :
    itemComplete k d = d := by
  unfold itemComplete
  dsimp only
  cases item : (settleAll (coreOf d k)).item with
  | none => rfl
  | some it =>
    have holds : (coreOf d k).item = some it := item
    exact if_pos (not.resolve_left (by rw [holds]; exact nofun))

/-! ### Words in memory -/

theorem length_wordBytes (ws : List Word) : (ws.flatMap fun w => leBytes 4 w.toNat).length = 4 * ws.length := by
  induction ws with
  | nil => rfl
  | cons w t ih =>
    rw [List.flatMap_cons, List.length_append, ih, length_leBytes, List.length_cons]
    omega

theorem length_mapGetRun {α : Type} [DecidableEq α] (f : Nat → α) (m : List (Nat × α)) (a n : Nat) : (mapGetRun f m a n).length = n := by
  induction n generalizing a with
  | zero => rfl
  | succ n ih => rw [mapGetRun, List.length_cons, ih]

/-- Words leave every byte outside them. -/
theorem byteGet_wordsSet_outside {m : List (Nat × Byte)} {a j : Nat} {ws : List Word} (out : ¬(a ≤ j ∧ j < a + 4 * ws.length)) :
    byteGet (wordsSet m a ws) j = byteGet m j :=
  byteGet_bytesSet_outside (by rw [length_wordBytes]; omega)

/-! ### What a completion leaves -/

/-- A state record goes to the peer in frames alone. -/
theorem mirrorState_twn (off : Nat) (ws : List Word) (d : Dev) :
    ∃ t, mirrorState off ws d = setTwn d t ∧ (d.twn.serveK = none → t = d.twn) := by
  have sent : ∀ (l : List (List Byte × Nat)) (kind : Nat) (d : Dev),
      ∃ t, l.foldl (fun d c => sendFrame 3 (statePayload ⟨kind, 12304 * c.2, c.1⟩) d) d = setTwn d t := by
    intro l kind
    induction l with
    | nil => exact fun d => ⟨d.twn, rfl⟩
    | cons c t ih =>
      intro d
      obtain ⟨x, eq⟩ := ih (sendFrame 3 (statePayload ⟨kind, 12304 * c.2, c.1⟩) d)
      exact ⟨x, eq⟩
  unfold mirrorState
  split
  · exact ⟨d.twn, rfl, fun _ => rfl⟩
  · next serves =>
    split
    · exact ⟨d.twn, rfl, fun _ => rfl⟩
    · obtain ⟨t, eq⟩ := sent (chunks _ 12304 (stateRecord (ws.zipIdx.map fun w => (off + 4 * w.2, w.1.toInt)))).zipIdx 5 d
      exact ⟨t, eq, fun none => absurd (serves.symm.trans none) nofun⟩

theorem loadCore_affinity (c : VecCore) (r : VecRange) : (loadCore c r).affinity = c.affinity := by
  unfold loadCore
  split <;> rfl

theorem foldl_loadCore_affinity (l : List VecRange) (c : VecCore) : (l.foldl loadCore c).affinity = c.affinity := by
  induction l generalizing c with
  | nil => rfl
  | cons r t ih => rw [List.foldl_cons, ih, loadCore_affinity]

theorem coreLoad_affinity (core : Nat) (d : Dev) : (coreOf (coreLoad core d) core).affinity = (coreOf d core).affinity := by
  obtain same | ⟨l, load, eq⟩ := coreLoad_cases core d
  · rw [same]
  · rw [eq, show coreOf (setLoad (setCore d core (l.foldl loadCore (coreOf d core))) load) core = l.foldl loadCore (coreOf d core) from
      coreOf_setCore d core _]
    exact foldl_loadCore_affinity l _

/-- STATE of a core that rests after an item. -/
def restedState (d : Dev) (k : Nat) : Nat := if (posOf d k).isNone ∧ inHandler d k = false then 0 else 1

/-- An item that completes leaves its core resting, with its affinity record. -/
theorem endItem_completed {d : Dev} {k result : Nat} {it : WorkItem} (hk : k < 36) (item : (coreOf d k).item = some it)
    (up : coreState d k ≠ 5) : let e := endItem d k result true
    (coreOf e k).affinity = some (itemKernel it, (itemW it 5).toNat) ∧ coreState e k = restedState d k ∧
      e.wd.records = d.wd.records + if itemKind it = 0 then 1 else 0 := by
  intro e
  obtain ⟨pos, eq⟩ := endItem_some item result true
  obtain ⟨vec, -, words⟩ := recordOf_kept (itemGone d k it true) it result pos
  have entry : coreOf (if itemKind it = 0 then writeRecord (itemGone d k it true) it result pos else itemGone d k it true) k =
      endedCore d k it true := by
    rw [coreOf, vec]
    exact coreOf_itemGone d k it true
  rw [show e = _ from eq]
  refine ⟨?_, ?_, ?_⟩
  · rw [coreLoad_affinity, entry]
    unfold endedCore
    dsimp only
    split <;> rfl
  · rw [coreState, liveF, coreLoad_liveGet, words _ (by unfold offVecCoreState; omega)]
    show coreState (itemGone d k it true) k = _
    rw [itemGone, coreState, setCoreState, liveF_liveSetF_same _ _ _ (by decide) (by decide), endedState, if_neg up, restedState]
    cases posOf d k <;> cases inHandler d k <;> rfl
  · rw [(coreLoad_only _ _).wd]
    split
    · rw [(writeRecord_rec _ _ _ _).wd]
      rfl
    · rfl

theorem copiedOut_core (d : Dev) (k : Nat) (it : WorkItem) : coreOf (copiedOut d k it) k = { settleAll (coreOf d k) with posted := false } :=
  coreOf_setCore _ k _

theorem copiedOut_eq (d : Dev) (k : Nat) (it : WorkItem) : ∃ m x, copiedOut d k it = setCore (setMem1 d m) k x := by
  unfold copiedOut
  extract_lets c m
  exact ⟨_, _, rfl⟩

/-- What is copied out changes the core and MEM1 alone. -/
theorem copiedOut_rest (d : Dev) (k : Nat) (it : WorkItem) : { copiedOut d k it with vec := d.vec, mem := d.mem } = d := by
  obtain ⟨m, x, eq⟩ := copiedOut_eq d k it
  rw [eq]
  rfl

theorem copiedOut_kept (d : Dev) (k : Nat) (it : WorkItem) : (copiedOut d k it).vec.places = d.vec.places ∧
    (copiedOut d k it).twn = d.twn ∧ (copiedOut d k it).wd = d.wd ∧ ∀ o, liveGet (copiedOut d k it) o = liveGet d o := by
  obtain ⟨m, x, eq⟩ := copiedOut_eq d k it
  rw [eq]
  exact ⟨rfl, rfl, rfl, fun _ => rfl⟩

theorem copiedOut_others (d : Dev) (k : Nat) (it : WorkItem) {j : Nat} (other : j ≠ k) : coreOf (copiedOut d k it) j = coreOf d j :=
  coreOf_setCore_other (setMem1 d _) _ other

/-- A delivery replaces its stage and notes its time. -/
theorem deliver_eq (d : Dev) (it : WorkItem) (y : List (Nat × Word)) : ∃ x v,
    deliver d it y = liveSetF (setStage d (itemStage it) x) (offWdStageLast (itemStage it)) 19 0 v := by
  unfold deliver
  extract_lets s st a put d1
  exact ⟨_, _, rfl⟩

theorem deliver_state (d : Dev) (it : WorkItem) (y : List (Nat × Word)) (k : Nat) (hk : k < 36) :
    liveGet (deliver d it y) (offVecCoreState k) = liveGet d (offVecCoreState k) := by
  obtain ⟨x, v, eq⟩ := deliver_eq d it y
  rw [eq, liveGet_liveSetF, if_neg (by unfold offVecCoreState offWdStageLast; omega)]
  rfl

/-- A delivery, and what is sent of the state, change the registers, WD and the twin alone. -/
theorem deliver_rest (d : Dev) (it : WorkItem) (y : List (Nat × Word)) (t : Twn) :
    { setTwn (deliver d it y) t with regs := d.regs, wd := d.wd, twn := d.twn } = d := by
  obtain ⟨x, v, eq⟩ := deliver_eq d it y
  rw [eq]
  rfl

theorem deliver_kept (d : Dev) (it : WorkItem) (y : List (Nat × Word)) : (deliver d it y).vec = d.vec ∧ (deliver d it y).twn = d.twn ∧
    (deliver d it y).mem = d.mem := by
  obtain ⟨x, v, eq⟩ := deliver_eq d it y
  rw [eq]
  exact ⟨rfl, rfl, rfl⟩

/-- A delivery marks its group in every block of the item's number. -/
theorem deliver_delivers (d : Dev) (it : WorkItem) (y : List (Nat × Word)) :
    ∀ b ∈ (stageOf (deliver d it y) (itemStage it)).blocks, b.block % 2 ^ 32 = itemBlock it → itemGroup it ∈ b.delivered := by
  unfold deliver
  extract_lets s st a put d1
  have stage : stageOf (liveSetF d1 (offWdStageLast s) 19 0 (Config.cycles 37 (d1.wd.seq + d1.epc.epoch)).toNat) s =
      { st with blocks := st.blocks.map put } := stageOf_setStage d s _
  rw [stage]
  intro b hb number
  obtain ⟨old, -, rfl⟩ := List.mem_map.mp hb
  by_cases mine : old.block % 2 ^ 32 = itemBlock it
  · rw [show put old = _ from if_pos mine]
    exact mem_setIns.mpr (.inl rfl)
  · rw [show put old = _ from if_neg mine] at number
    exact absurd number mine

/-- An item's end leaves, of what the item has copied out or delivered, all but its core and its record. -/
structure Completes (k : Nat) (it : WorkItem) (a b : Dev) : Prop where
  mem : b.mem = a.mem
  item : (coreOf b k).item = none
  affinity : (coreOf b k).affinity = some (itemKernel it, (itemW it 5).toNat)
  state : coreState b k = restedState a k
  wd : b.wd = { a.wd with records := a.wd.records + if itemKind it = 0 then 1 else 0 }
  others : ∀ j, j ≠ k → coreOf b j = coreOf a j
  low : ∀ o, o < 0x1000000 → liveGet b o = liveGet a o
  rest : { b with regs := a.regs, vec := a.vec, wd := a.wd } = a

theorem endItem_completes {d : Dev} {k : Nat} {it : WorkItem} (hk : k < 36) (item : (coreOf d k).item = some it)
    (stage : coreState d k = 4) : Completes k it d (endItem d k 0 true) := by
  obtain ⟨mem, others, -⟩ := endItem_ends d k 0 true
  obtain ⟨ended, -, gone, -⟩ := endItem_ended hk d 0 true
  obtain ⟨affinity, state, records⟩ := endItem_completed (result := 0) hk item (by rw [stage]; decide)
  refine ⟨mem, gone, affinity, state, ?_, others, fun o low => ended.regs o (.inl (by omega)), ended.rest⟩
  rw [ended.wd, records]

/-- A core rests alike where its state word and the places are the same. -/
theorem restedState_congr {a b : Dev} {k : Nat} (places : b.vec.places = a.vec.places)
    (word : liveGet b (offVecCoreState k) = liveGet a (offVecCoreState k)) : restedState b k = restedState a k := by
  rw [restedState, posOf, places, inHandler, liveB, word, restedState, posOf, inHandler, liveB]

/-! ### The two events -/

section
variable {d : Dev} {k : Nat} {it : WorkItem} (hk : k < 36) (item : (coreOf d k).item = some it) (up : running d blkVec = true)
  (stage : coreState d k = 4)
include hk item up stage

/-- The completion of a program item (R202, R216, R232). -/
theorem itemComplete_completes (program : itemKind it = 0)
    (reach : bits (itemW it 3) 13 0 = 0 ∨ mem1Open d ((itemW it 4).toNat * 16) (4 * bits (itemW it 3) 13 0) = true) :
    Completes k it (copiedOut d k it) (itemComplete k d) := by
  rw [itemComplete_program item up stage program reach]
  obtain ⟨-, -, -, words⟩ := copiedOut_kept d k it
  refine endItem_completes hk (by rw [copiedOut_core]; exact item) ?_
  rw [coreState, liveF, words]
  exact stage

/-- The completion of an insert item (R216, R363). -/
theorem itemComplete_delivers (insert : itemKind it ≠ 0) : ∃ t, (d.twn.serveK = none → t = d.twn) ∧
    Completes k it (setTwn (deliver (copiedOut d k it) it (settleAll (coreOf d k)).ymem) t) (itemComplete k d) := by
  obtain ⟨-, twn, -, words⟩ := copiedOut_kept d k it
  have entry := copiedOut_core d k it
  obtain ⟨vec, twn', -⟩ := deliver_kept (copiedOut d k it) it (settleAll (coreOf d k)).ymem
  have word := deliver_state (copiedOut d k it) it (settleAll (coreOf d k)).ymem k hk
  obtain ⟨t, eq, quiet⟩ := mirrorState_twn (itemStateOff it) (mapGetRun word0 (settleAll (coreOf d k)).ymem 0x6000 (itemStateLen it))
    (deliver (copiedOut d k it) it (settleAll (coreOf d k)).ymem)
  rw [twn', twn] at quiet
  rw [itemComplete_insert item up stage insert, eq]
  generalize deliver (copiedOut d k it) it (settleAll (coreOf d k)).ymem = e at vec word ⊢
  refine ⟨t, quiet, endItem_completes hk ?_ ?_⟩
  · show (coreOf e k).item = some it
    rw [coreOf, vec]
    show (coreOf (copiedOut d k it) k).item = some it
    rw [entry]
    exact item
  · show liveF e (offVecCoreState k) 2 0 = 4
    rw [liveF, word, words]
    exact stage

end

/-- A kernel's address in its table. -/
theorem kernelCore_pc (d after : Dev) (it : WorkItem) (c : VecCore) (input state : List Word) :
    (kernelCore d after it c input state).pc = (((kernelsFor after it).find? fun e => e.1 = itemKernel it).map fun e => e.2).getD 0 := by
  unfold kernelCore
  dsimp only
  split <;> next found => rw [found]; rfl

theorem kernelCore_regs (d after : Dev) (it : WorkItem) (c : VecCore) (input state : List Word) :
    (kernelCore d after it c input state).regs = entryRegs (blockN d) it c.regs := rfl

/-- Settles O17: a stage-in by `stageInDone_enters` and the state block that it stages, a completion by `endItem_completes`. -/
theorem itemsStageInAndComplete : Obligations.ItemsStageInAndComplete := by
  refine ⟨?_, fun s k hk not => ⟨runs_ranIf (f := stageInDone k) rfl (decide_eq_true hk)
    (stageInDone_ignored (not.symm.imp_right .inr)), runs_ranIf (f := itemComplete k) rfl (decide_eq_true hk) (itemComplete_ignored (not.symm.imp_right .inr))⟩⟩
  intro s k it hk item up
  dsimp only
  have staged {P : Dev → Prop} (holds : P (stageInDone k s.dev)) : Runs (.stageInDone k) s P :=
    runs_ranIf (f := stageInDone k) rfl (decide_eq_true hk) holds
  have completed {P : Dev → Prop} (holds : P (itemComplete k s.dev)) : Runs (.itemComplete k) s P :=
    runs_ranIf (f := itemComplete k) rfl (decide_eq_true hk) holds
  refine ⟨fun r stage bad => staged (stageInDone_refused item up stage bad), fun stage good own => staged ?enters,
    fun stage good insert follows some => staged ?follows, fun stage program some shut => completed (itemComplete_refused item up stage program some shut),
    fun stage program reach => completed ?program, fun stage insert => completed ?insert, fun other => staged (stageInDone_ignored (.inr (.inl other))),
    fun other => completed (itemComplete_ignored (.inr (.inl other)))⟩
  case enters =>
    rw [stageInDone_enters item up stage good, stagedState_own own]
    obtain ⟨state, entry, others, only, vec, -⟩ := setCore_state (k := k) s.dev
      (kernelCore s.dev s.dev it (settleAll (coreOf s.dev k)) (stagedInput s.dev it)
        (wordsGet s.dev.mem.mem1 (itemStateOff it) (itemStateLen it))) (v := 3) (by decide)
    dsimp only
    rw [entry]
    exact ⟨state, kernelCore_regs _ _ _ _ _ _, kernelCore_pc _ _ _ _ _ _, rfl, rfl, rfl, item, others, only, vec⟩
  case follows =>
    rw [stageInDone_enters item up stage good]
    obtain ⟨state, entry, -, -, -, words⟩ := setCore_state (k := k) (stagedState s.dev it).1
      (kernelCore s.dev (stagedState s.dev it).1 it (settleAll (coreOf s.dev k)) (stagedInput s.dev it) (stagedState s.dev it).2)
      (v := 3) (by decide)
    have join := words offTwnJoinStatus (by unfold offTwnJoinStatus offVecCoreState; omega)
    rw [entry]
    refine ⟨state, kernelCore_regs _ _ _ _ _ _, fun complete => ⟨join.trans ?_, ?_⟩, fun lacking => ⟨?_, ?_⟩⟩
    · rw [stagedState_mirrored insert follows some complete]
    · rw [stagedState_mirrored insert follows some complete]
      rfl
    · rw [liveF, join, stagedState_counted insert follows some lacking]
      exact (liveF_bumpSat _ _ (by decide) (by decide)).trans (Nat.min_comm _ _)
    · rw [stagedState_counted insert follows some lacking]
      rfl
  case program =>
    obtain ⟨mem, gone, affinity, state, wd, others, low, rest⟩ := itemComplete_completes hk item up stage program reach
    obtain ⟨places, -, same, words⟩ := copiedOut_kept s.dev k it
    have bytes : (copiedOut s.dev k it).mem = { s.dev.mem with
        mem1 := wordsSet (wordsSet s.dev.mem.mem1 ((itemW it 4).toNat * 16) (mapGetRun word0 (settleAll (coreOf s.dev k)).ymem 0x4000 (bits (itemW it 3) 13 0)))
          (itemStateOff it) (mapGetRun word0 (settleAll (coreOf s.dev k)).ymem 0x6000 (itemStateLen it)) } := by
      unfold copiedOut
      rw [if_pos program]
      rfl
    have copied := copiedOut_rest s.dev k it
    have cores {j : Nat} (other : j ≠ k) := copiedOut_others s.dev k it other
    generalize itemComplete k s.dev = e at mem gone affinity state wd others low rest ⊢
    generalize copiedOut s.dev k it = f at mem state wd others low rest places same words bytes copied cores
    refine ⟨mem.trans bytes, fun a output block => ?_, gone, affinity, state.trans (restedState_congr places (words _)), ?_,
      fun j other => (others j other).trans (cores other), fun o ho => (low o ho).trans (words o), ?_⟩
    · rw [mem, bytes]
      dsimp only
      rw [byteGet_wordsSet_outside (by rw [length_mapGetRun]; exact block), byteGet_wordsSet_outside (by rw [length_mapGetRun]; exact output)]
    · rw [wd, if_pos program, same]
    · have back := congrArg (fun e : Dev => { e with regs := s.dev.regs, vec := s.dev.vec, wd := s.dev.wd, mem := s.dev.mem }) rest
      have front := congrArg (fun e : Dev => { e with regs := s.dev.regs, wd := s.dev.wd }) copied
      exact back.trans front
  case insert =>
    obtain ⟨t, quiet, mem, gone, -, state, wd, others, -, rest⟩ := itemComplete_delivers hk item up stage insert
    obtain ⟨places, -, -, words⟩ := copiedOut_kept s.dev k it
    have bytes : (copiedOut s.dev k it).mem = { s.dev.mem with
        mem1 := wordsSet s.dev.mem.mem1 (itemStateOff it) (mapGetRun word0 (settleAll (coreOf s.dev k)).ymem 0x6000 (itemStateLen it)) } := by
      unfold copiedOut
      rw [if_neg insert]
      rfl
    have copied := copiedOut_rest s.dev k it
    have cores {j : Nat} (other : j ≠ k) := copiedOut_others s.dev k it other
    have stages := deliver_delivers (copiedOut s.dev k it) it (settleAll (coreOf s.dev k)).ymem
    have word := deliver_state (copiedOut s.dev k it) it (settleAll (coreOf s.dev k)).ymem k hk
    obtain ⟨vec, -, mem'⟩ := deliver_kept (copiedOut s.dev k it) it (settleAll (coreOf s.dev k)).ymem
    have sent := deliver_rest (copiedOut s.dev k it) it (settleAll (coreOf s.dev k)).ymem t
    generalize itemComplete k s.dev = e at mem gone state wd others rest ⊢
    generalize deliver (copiedOut s.dev k it) it (settleAll (coreOf s.dev k)).ymem = g at mem state wd others rest stages word vec mem' sent
    generalize copiedOut s.dev k it = f at places words bytes copied cores word vec mem' sent
    have core (j : Nat) : coreOf (setTwn g t) j = coreOf f j := congrArg (fun v : Vec => mapGet (fun _ => ({} : VecCore)) v.cores j) vec
    refine ⟨(mem.trans mem').trans bytes, gone, state.trans (restedState_congr ?_ ?_), fun j other => ?_, ?_, fun alone => ?_, ?_⟩
    · exact (congrArg Vec.places vec).trans places
    · exact word.trans (words _)
    · rw [others j other, core, cores other]
    · have same : stageOf e (itemStage it) = stageOf g (itemStage it) := by
        rw [stageOf, wd]
        rfl
      rw [same]
      exact stages
    · have twn := congrArg Dev.twn rest
      exact twn.trans (quiet alone)
    · have back := congrArg (fun e : Dev => { e with regs := s.dev.regs, vec := s.dev.vec, wd := s.dev.wd, mem := s.dev.mem, twn := s.dev.twn }) rest
      have middle := congrArg (fun e : Dev => { e with regs := s.dev.regs, vec := s.dev.vec, wd := s.dev.wd, mem := s.dev.mem, twn := s.dev.twn }) sent
      have front := congrArg (fun e : Dev => { e with regs := s.dev.regs, wd := s.dev.wd, twn := s.dev.twn }) copied
      exact (back.trans middle).trans front

end Sys2Proof.Machine
end

section
/-!
Gating, wakes and the ends of holdoffs (R226, R230, R237, R238); the settling of O12.
-/
namespace Sys2Proof.Machine

/-- Gating in normal mode with GATE_IDLE set, and an idle core that is awake at a position (R226, R230). -/
theorem mayGate_iff (d : Dev) (k : Nat) :
    (running d blkVec && actB d offWdCtrl 2 && !(orderedMode d) && decide (coreState d k = 1) && coreIdle d k && (posOf d k).isSome) = true ↔
      running d blkVec = true ∧ actB d offWdCtrl 2 = true ∧ actB d offWdCtrl 1 = false ∧ d.wd.recovery = false ∧ coreState d k = 1 ∧
        inHandler d k = false ∧ (coreOf d k).item = none ∧ (posOf d k).isSome = true := by
  have idle (awake : coreState d k = 1) : coreIdle d k = true ↔ inHandler d k = false ∧ (coreOf d k).item = none := by
    simp [coreIdle, awake]
  simp only [orderedMode, Bool.and_eq_true, Bool.not_eq_true', Bool.or_eq_false_iff, decide_eq_true_eq]
  constructor
  · rintro ⟨⟨⟨⟨⟨up, gate⟩, normal, recovered⟩, awake⟩, rests⟩, placed⟩
    obtain ⟨outside, empty⟩ := (idle awake).mp rests
    exact ⟨up, gate, normal, recovered, awake, outside, empty, placed⟩
  · rintro ⟨up, gate, normal, recovered, awake, outside, empty, placed⟩
    exact ⟨⟨⟨⟨⟨up, gate⟩, normal, recovered⟩, awake⟩, (idle awake).mpr ⟨outside, empty⟩⟩, placed⟩

/-- A gated core that wakes, while VEC runs (R230). -/
theorem wakeEnds_iff (d : Dev) (k : Nat) :
    ((coreOf d k).waking && running d blkVec && decide (coreState d k = 0)) = true ↔
      (coreOf d k).waking = true ∧ running d blkVec = true ∧ coreState d k = 0 := by
  rw [Bool.and_eq_true, Bool.and_eq_true, decide_eq_true_eq, and_assoc]

/-- The holdoff of a source has ended. -/
def holdoffEnded (d : Dev) (src : Nat) : Dev := { d with evt := { d.evt with holdoff := setDel d.evt.holdoff src } }

/-- With its holdoff ended, a source of action vector handler is deliverable, to the core of one position alone (R238). -/
def asksForWake (d : Dev) (src : Nat) : Bool :=
  running d blkEvt && deliverable (holdoffEnded d src) src && decide (actF d (offEvtSrcCfg src) 31 30 = 0) && actB d (offEvtSrcCfg src) 29

/-- The end of a source's holdoff, and the wake of the core at the source's position, its only candidate (R237, R238). -/
def holdoffEffect (d : Dev) (src : Nat) : Dev :=
  (coreAt d (actF d (offEvtSrcCfg src) 28 24)).elim (holdoffEnded d src) fun k =>
    if asksForWake d src then startWake (holdoffEnded d src) k else holdoffEnded d src

/-- EVENT_HOLDOFF_EXPIRY, for a source that exists. -/
theorem runs_holdoffExpiry {s : State} {src : Nat} {P : Dev → Prop} (small : src < 1024)
    (holds : P (if s.dev.evt.holdoff.contains src then holdoffEffect s.dev src else s.dev)) : Runs (.eventHoldoffExpiry src) s P := by
  refine runs_ranIf rfl (decide_eq_true small) ?_
  convert holds using 1
  refine ite_congr rfl (fun _ => ?_) fun _ => rfl
  extract_lets a cfg
  split
  · next k core =>
    rw [holdoffEffect, show coreAt s.dev (actF s.dev (offEvtSrcCfg src) 28 24) = some k from core]
    rfl
  · next core =>
    rw [holdoffEffect, show coreAt s.dev (actF s.dev (offEvtSrcCfg src) 28 24) = none from core]
    rfl

theorem holdoffEffect_wakes {d : Dev} {src k : Nat} (core : coreAt d (actF d (offEvtSrcCfg src) 28 24) = some k)
    (asks : asksForWake d src = true) : holdoffEffect d src = startWake (holdoffEnded d src) k := by
  rw [holdoffEffect, core, asks]
  rfl

theorem holdoffEffect_quiet {d : Dev} {src : Nat} (asks : asksForWake d src = false) : holdoffEffect d src = holdoffEnded d src := by
  rw [holdoffEffect, asks]
  cases coreAt d (actF d (offEvtSrcCfg src) 28 24) <;> rfl

/-- Settles O12: the conditions by `mayGate_iff`, `wakeEnds_iff` and `asksForWake`. -/
theorem coresGateAndWake : Obligations.CoresGateAndWake := by
  refine ⟨fun s k hk => ?gate, fun s k hk => ?wake, fun s src small => ⟨fun out => ?free, fun held => ?held⟩⟩
  case gate =>
    refine ⟨fun may => runs_ranIf rfl (decide_eq_true hk) (if_pos ((mayGate_iff s.dev k).mpr may)), fun never => ?_⟩
    exact runs_ranIf rfl (decide_eq_true hk) (if_neg fun may => never ((mayGate_iff s.dev k).mp may))
  case wake =>
    refine ⟨fun wakes up gated => runs_ranIf rfl (decide_eq_true hk) (if_pos ((wakeEnds_iff s.dev k).mpr ⟨wakes, up, gated⟩)), fun never => ?_⟩
    exact runs_ranIf rfl (decide_eq_true hk) (if_neg fun ends => never ((wakeEnds_iff s.dev k).mp ends))
  case free => exact runs_holdoffExpiry small (if_neg fun held => out (List.contains_iff_mem.mp held))
  case held =>
    have ended {b : Dev} (effect : holdoffEffect s.dev src = b) : Runs (.eventHoldoffExpiry src) s fun d => d = b :=
      runs_holdoffExpiry small ((if_pos (List.contains_iff_mem.mpr held)).trans effect)
    refine ⟨fun k core up ready handler routed => ?_, fun barred => ended (holdoffEffect_quiet ?_)⟩
    · have asks : asksForWake s.dev src = true := by
        simp only [asksForWake, Bool.and_eq_true, decide_eq_true_eq]
        exact ⟨⟨⟨up, ready⟩, handler⟩, routed⟩
      exact ended (holdoffEffect_wakes core asks)
    · have barred : actB s.dev (offEvtSrcCfg src) 29 = false ∨ deliverable (holdoffEnded s.dev src) src = false ∨
        actF s.dev (offEvtSrcCfg src) 31 30 ≠ 0 := barred
      rcases barred with free | quiet | other
      · rw [asksForWake, free, Bool.and_false]
      · rw [asksForWake, quiet, Bool.and_false, Bool.false_and, Bool.false_and]
      · rw [asksForWake, decide_eq_false other, Bool.and_false, Bool.false_and]

end Sys2Proof.Machine
end

section
/-!
Submissions of the supervisor (R213, R214, R217, R218, R226, R232): what a completion record holds, and what BAD answers; the settling
of O15.
-/
namespace Sys2Proof.Machine

/-! ### A completion record (R232) -/

/-- The registers of record r, of the queue's head and overwrites, and of a raise of source 6. -/
def recordWords (r : Nat) : List Nat :=
  [offWdCq r 0, offWdCq r 1, offWdCq r 2, offWdCq r 3, offWdCqHead, offWdCqOverwrite, offEvtPend 0, offEvtCoalesce]

/-- Record r is written, and the head of the queue moves on. -/
def recordShown (d : Dev) (r : Nat) (tag status cycles : Word) : Dev :=
  let d := liveSet d (offWdCq r 0) tag
  let d := liveSet d (offWdCq r 1) status
  let d := liveSet d (offWdCq r 2) (BitVec.ofNat 32 d.epc.epoch)
  let d := liveSet d (offWdCq r 3) cycles
  liveSetF d offWdCqHead 7 0 (r + 1)

/-- Record r holds the item's tag, its status and the epoch, and the head of the queue is behind it. -/
structure RecordHeld (r : Nat) (tag status : Word) (a b : Dev) : Prop where
  tag : liveGet b (offWdCq r 0) = tag
  status : liveGet b (offWdCq r 1) = status
  epoch : liveGet b (offWdCq r 2) = BitVec.ofNat 32 a.epc.epoch
  head : liveF b offWdCqHead 7 0 = (r + 1) % 256
  regs : RegsBut (recordWords r) a b

section
variable {r : Nat} (few : r < 256) {tag status : Word} {a b c : Dev}
include few

theorem recordWords_low {o : Nat} (mem : o ∈ recordWords r) : o < 0x1300000 := by
  simp only [recordWords, List.mem_cons, List.not_mem_nil, or_false] at mem
  unfold offWdCq offWdCqHead offWdCqOverwrite offEvtPend offEvtCoalesce at mem
  omega

theorem recordShown_held (d : Dev) (cycles : Word) : RecordHeld r tag status d (recordShown d r tag status cycles) := by
  have apart {j k : Nat} (other : j ≠ k) : offWdCq r j ≠ offWdCq r k := by unfold offWdCq; omega
  have head {k : Nat} : offWdCq r k ≠ offWdCqHead := by unfold offWdCq offWdCqHead; omega
  refine ⟨?_, ?_, ?_, liveF_liveSetF_same _ _ _ (by decide) (by decide), ?_⟩
  · rw [recordShown, liveGet_liveSetF, if_neg head, liveGet_liveSet_other _ _ (apart (by decide)), liveGet_liveSet_other _ _ (apart (by decide)),
      liveGet_liveSet_other _ _ (apart (by decide)), liveGet_liveSet_same]
  · rw [recordShown, liveGet_liveSetF, if_neg head, liveGet_liveSet_other _ _ (apart (by decide)), liveGet_liveSet_other _ _ (apart (by decide)),
      liveGet_liveSet_same]
  · rw [recordShown, liveGet_liveSetF, if_neg head, liveGet_liveSet_other _ _ (apart (by decide)), liveGet_liveSet_same]
    rfl
  · exact ((((RegsBut.refl _ d).liveSet (by simp [recordWords])).liveSet (by simp [recordWords])).liveSet (by simp [recordWords])).liveSet
      (by simp [recordWords]) |>.liveSetF (by simp [recordWords])

/-- A write to neither the record nor the head leaves the record. -/
theorem RecordHeld.trans (held : RecordHeld r tag status a b) {ws : List Nat} (regs : RegsBut ws b c)
    (high : ∀ o ∈ ws, o = offWdCqOverwrite ∨ o = offEvtPend 0 ∨ o = offEvtCoalesce) : RecordHeld r tag status a c := by
  have same {o : Nat} (low : o = offWdCqHead ∨ 0x1102000 ≤ o ∧ o < 0x1104000) : liveGet c o = liveGet b o := by
    refine regs.live o fun mem => ?_
    have mine := high o mem
    unfold offWdCqHead at low
    unfold offWdCqOverwrite offEvtPend offEvtCoalesce at mine
    omega
  have entry {k : Nat} (four : k < 4) : liveGet c (offWdCq r k) = liveGet b (offWdCq r k) := same (.inr (by unfold offWdCq; omega))
  refine ⟨(entry (by decide)).trans held.tag, (entry (by decide)).trans held.status, (entry (by decide)).trans held.epoch, ?_, ?_⟩
  · rw [liveF, same (.inl rfl)]
    exact held.head
  · refine held.regs.trans (regs.mono fun o mem => ?_)
    rcases high o mem with rfl | rfl | rfl <;> simp [recordWords]

end

/-- A record is counted, one that overwrites an older one in WD.CQ_OVERWRITE too. -/
def recordCounted (d : Dev) : Dev :=
  let d := if d.wd.records ≥ 256 then bump d offWdCqOverwrite else d
  { d with wd := { d.wd with records := d.wd.records + 1 } }

theorem recordCounted_regs (d : Dev) : RegsBut [offWdCqOverwrite] d (recordCounted d) := by
  refine RegsBut.other ?_ (b := if d.wd.records ≥ 256 then bump d offWdCqOverwrite else d) rfl
  split
  · exact (RegsBut.refl _ d).bump (List.mem_singleton.mpr rfl)
  · exact .refl _ d

/-! ### BAD (R214, R218) -/

/-- The status word of a submission's BAD record: result 4, position 63, the producer and KERNEL. -/
def badStatus (words : List Word) (prod : Nat) : Word :=
  BitVec.ofNat 32 (4 * 2 ^ 28 + 63 * 2 ^ 22 + prod * 2 ^ 16 + bits (words.getD 0 0) 31 16)

/-- A BAD record counts no cycles and raises source 6 alone. -/
theorem writeRecord_bad (d : Dev) (words : List Word) (prod seq : Nat) : writeRecord d ⟨words, prod, seq⟩ 4 63 =
    raiseOwn (recordCounted (recordShown d (liveF d offWdCqHead 7 0) (words.getD 1 0) (badStatus words prod) 0)) 6 := rfl

/-- The record of a descriptor that WD refuses. -/
theorem writeRecord_bad_held (d : Dev) (words : List Word) (prod seq : Nat) :
    RecordHeld (liveF d offWdCqHead 7 0) (words.getD 1 0) (badStatus words prod) d (writeRecord d ⟨words, prod, seq⟩ 4 63) := by
  have few : liveF d offWdCqHead 7 0 < 256 := liveF_lt d offWdCqHead 7 0
  rw [writeRecord_bad]
  have counted := (recordShown_held few d 0).trans few (tag := words.getD 1 0) (status := badStatus words prod)
    (recordCounted_regs _) fun o mem => .inl (List.mem_singleton.mp mem)
  exact counted.trans few (raiseOwn_only _ 6).regs fun o mem => .inr (List.mem_pair.mp mem)

/-- Source 6 is pending after a BAD record, unless a Fatal error stands (R16). -/
theorem writeRecord_bad_pending {d : Dev} (alive : fatal d = false) (words : List Word) (prod seq : Nat) :
    evtPending (writeRecord d ⟨words, prod, seq⟩ 4 63) 6 = true := by
  have few : liveF d offWdCqHead 7 0 < 256 := liveF_lt d offWdCqHead 7 0
  have status : offErrStatus ∉ recordWords (liveF d offWdCqHead 7 0) := fun mem => absurd (recordWords_low few mem) (by decide)
  have still : fatal (recordCounted (recordShown d (liveF d offWdCqHead 7 0) (words.getD 1 0) (badStatus words prod) 0)) = fatal d := by
    rw [fatal, liveB, (recordCounted_regs _).live _ (by decide), (recordShown_held few d 0).regs.live _ status, fatal, liveB]
  rw [writeRecord_bad, raiseOwn_free (.inl (still.trans alive)), raiseEvt_pending, decide_eq_true rfl, Bool.or_true]

/-! ### SUBMIT.GO -/

/-- The submitted descriptor. -/
def submittedWords (d : Dev) : List Word := (List.range 8).map fun w => mapGet word0 d.wd.submit w

/-- SUBMIT.GO through producer 33 (R218). -/
theorem runs_submitGo {s : State} {P : Dev → Prop} (holds : P (if creditsFree s.dev 33 = 0 then bump s.dev offWdSubmitRefused
    else submitDesc s.dev (submittedWords s.dev) 33)) : Runs .submitGo s P :=
  runs_ran (f := fun d => if creditsFree d 33 = 0 then bump d offWdSubmitRefused else submitDesc d (submittedWords d) 33) rfl holds

/-- Settles O15: the refusal and the enqueue as they stand, the record by `writeRecord_bad_held` and `writeRecord_rec`. -/
theorem submissionsNeedACredit : Obligations.SubmissionsNeedACredit := by
  refine fun s => ⟨fun none => ?refused, fun credit ok => ?enqueued, fun credit bad => ?answered⟩
  case refused => exact runs_submitGo (if_pos none)
  case enqueued =>
    refine runs_submitGo ?_
    rw [if_neg credit, submitDesc]
    exact if_pos ok
  case answered =>
    refine runs_submitGo ?_
    have refused : descriptorOk s.dev (submittedWords s.dev) = false := bad
    rw [if_neg credit, submitDesc, refused, if_neg Bool.false_ne_true]
    obtain ⟨tag, status, epoch, head, regs⟩ := writeRecord_bad_held s.dev (submittedWords s.dev) 33 s.dev.wd.seq
    have record := writeRecord_rec s.dev ⟨submittedWords s.dev, 33, s.dev.wd.seq⟩ 4 63
    exact ⟨tag, status, epoch, head, fun alive => writeRecord_bad_pending alive _ _ _, record.wd, regs, record.rest⟩

end Sys2Proof.Machine
end

section
/-!
Dispatch (R216, R225 to R228): the next item, the core it goes to, and what a dispatch leaves; the settling of O13.
-/
namespace Sys2Proof.Machine

/-! ### The next item (R216, R226) -/

/-- The ready list's order: PRIORITY downwards, then sequence numbers upwards. -/
def readyKey (it : WorkItem) : Natᵒᵈ ×ₗ Nat := toLex (OrderDual.toDual (itemPrio it), it.seq)

theorem readyBefore_iff {a b : WorkItem} : readyBefore a b = true ↔ readyKey a < readyKey b := by
  rw [readyBefore, decide_eq_true_eq, readyKey, readyKey, Prod.Lex.toLex_lt_toLex, OrderDual.toDual_lt_toDual, OrderDual.toDual_inj]

theorem readyKey_le {a b : WorkItem} :
    readyKey a ≤ readyKey b ↔ itemPrio b < itemPrio a ∨ (itemPrio b = itemPrio a ∧ a.seq ≤ b.seq) := by
  rw [readyKey, readyKey, Prod.Lex.toLex_le_toLex, OrderDual.toDual_lt_toDual, OrderDual.toDual_inj, eq_comm]

/-- The next item is the first in the order among those whose group is free. -/
theorem nextItem_eq_argmin (d : Dev) : nextItem d = (d.wd.ready.filter fun it => !(groupBusy d it)).argmin readyKey := by
  rw [nextItem, List.argmin, List.foldl_filter]
  congr 1
  funext best it
  cases groupBusy d it with
  | true => rfl
  | false =>
    cases best with
    | none => rfl
    | some b =>
      show (if readyBefore it b = true then some it else some b) = if readyKey it < readyKey b then some it else some b
      exact if_congr readyBefore_iff rfl rfl

theorem nextItem_first {d : Dev} {it : WorkItem} (next : nextItem d = some it) : it ∈ d.wd.ready ∧ groupBusy d it = false ∧
    ∀ j ∈ d.wd.ready, groupBusy d j = false → itemPrio j < itemPrio it ∨ (itemPrio j = itemPrio it ∧ it.seq ≤ j.seq) := by
  rw [nextItem_eq_argmin] at next
  have free {j : WorkItem} : (j ∈ d.wd.ready.filter fun it => !(groupBusy d it)) ↔ j ∈ d.wd.ready ∧ groupBusy d j = false := by
    rw [List.mem_filter, Bool.not_eq_true']
  obtain ⟨mem, idle⟩ := free.mp (List.argmin_mem next)
  exact ⟨mem, idle, fun j ready group => readyKey_le.mp (List.le_of_mem_argmin (free.mpr ⟨ready, group⟩) next)⟩

/-! ### The core (R227, R228) -/

/-- The idle cores at open positions, with their ranks. -/
def idleCores (d : Dev) (it : WorkItem) : List (Nat × Nat) := (openPositions d).filterMap fun p =>
  (coreAt d p).bind fun k => if coreIdle d k then some (coreRank d it p k, k) else none

theorem mem_idleCores {d : Dev} {it : WorkItem} {rank k : Nat} :
    (rank, k) ∈ idleCores d it ↔ ∃ p ∈ openPositions d, coreAt d p = some k ∧ coreIdle d k = true ∧ rank = coreRank d it p k := by
  rw [idleCores, List.mem_filterMap]
  refine exists_congr fun p => and_congr_right fun _ => Option.bind_eq_some_iff.trans ⟨?_, ?_⟩
  · rintro ⟨j, core, entry⟩
    obtain ⟨idle, entry⟩ := Option.ite_none_right_eq_some.mp entry
    obtain ⟨rfl, rfl⟩ := Prod.mk.inj (Option.some.inj entry)
    exact ⟨core, idle, rfl⟩
  · rintro ⟨core, idle, rfl⟩
    exact ⟨k, core, if_pos idle⟩

/-- The chosen core is the first of the lowest rank among those that are idle. -/
theorem chooseCore_eq_argmin (d : Dev) (it : WorkItem) : chooseCore d it = ((idleCores d it).argmin Prod.fst).map Prod.snd := by
  rw [chooseCore, List.argmin, idleCores]
  congr 2
  · funext best x
    cases best <;> rfl
  · congr 1
    funext p
    cases coreAt d p <;> rfl

theorem chooseCore_best {d : Dev} {it : WorkItem} {k : Nat} (chosen : chooseCore d it = some k) : ∃ p ∈ openPositions d, coreAt d p = some k ∧
    coreIdle d k = true ∧ ∀ q ∈ openPositions d, ∀ j, coreAt d q = some j → coreIdle d j = true → coreRank d it p k ≤ coreRank d it q j := by
  rw [chooseCore_eq_argmin, Option.map_eq_some_iff] at chosen
  obtain ⟨⟨rank, k⟩, best, rfl⟩ := chosen
  obtain ⟨p, position, core, idle, rfl⟩ := mem_idleCores.mp (List.argmin_mem best)
  refine ⟨p, position, core, idle, fun q other j there rests => ?_⟩
  exact List.le_of_mem_argmin (f := Prod.fst) (mem_idleCores.mpr ⟨q, other, there, rests, rfl⟩) best

/-! ### The core takes the item -/

theorem coreOf_of_vec {a b : Dev} (same : b.vec = a.vec) (j : Nat) : coreOf b j = coreOf a j := by rw [coreOf, same, coreOf]

theorem posOf_of_places {a b : Dev} (same : b.vec.places = a.vec.places) (j : Nat) : posOf b j = posOf a j := by rw [posOf, same, posOf]

/-- A core that takes an item, and wakes if it is gated (R230). -/
def givenCore (d : Dev) (it : WorkItem) (k : Nat) : VecCore :=
  { coreOf d k with item := some it, ended := false, waking := decide (coreState d k = 0), pos := (posOf d k).getD 63 }

/-- The core takes the item, stages it if it is awake, and shows its KERNEL. -/
def itemGiven (d : Dev) (it : WorkItem) (k : Nat) : Dev :=
  liveSetF (if coreState d k = 0 then setCore d k (givenCore d it k) else setCoreState (setCore d k (givenCore d it k)) k 2)
    (offVecCoreState k) 23 8 (itemKernel it)

/-- What `itemGiven` leaves of the core, of its register and of everything else. -/
structure ItemGiven (it : WorkItem) (k : Nat) (a b : Dev) : Prop where
  core : coreOf b k = givenCore a it k
  state : coreState b k = if coreState a k = 0 then 0 else 2
  kernel : liveF b (offVecCoreState k) 23 8 = itemKernel it
  others : ∀ j, j ≠ k → coreOf b j = coreOf a j
  regs : RegsBut [offVecCoreState k] a b
  rest : { b with regs := a.regs, vec := a.vec } = a
  vec : { b.vec with cores := a.vec.cores } = a.vec

theorem itemGiven_given (d : Dev) (it : WorkItem) (k : Nat) : ItemGiven it k d (itemGiven d it k) := by
  have entered := coreOf_setCore d k (givenCore d it k)
  have others {j : Nat} (other : j ≠ k) := coreOf_setCore_other d (givenCore d it k) other
  have same : coreState (setCore d k (givenCore d it k)) k = coreState d k := rfl
  have given : RegsBut [offVecCoreState k] d (setCore d k (givenCore d it k)) := (RegsBut.refl _ d).other rfl
  have rest : { setCore d k (givenCore d it k) with regs := d.regs, vec := d.vec } = d := rfl
  have vec : { (setCore d k (givenCore d it k)).vec with cores := d.vec.cores } = d.vec := rfl
  unfold itemGiven
  generalize setCore d k (givenCore d it k) = e at entered others same given rest vec ⊢
  have word := List.mem_singleton.mpr (rfl : offVecCoreState k = offVecCoreState k)
  have state : coreState (if coreState d k = 0 then e else setCoreState e k 2) k = if coreState d k = 0 then 0 else 2 := by
    split
    · next gated => exact same.trans gated
    · exact liveF_liveSetF_same e _ 2 (by decide) (by decide)
  have only : OnlyWords [offVecCoreState k] e (if coreState d k = 0 then e else setCoreState e k 2) := by
    split
    · exact .refl _ e
    · exact (OnlyWords.refl _ e).liveSetF word
  generalize (if coreState d k = 0 then e else setCoreState e k 2) = f at state only ⊢
  have same : f.vec = e.vec := by
    have same := congrArg Dev.vec only.rest
    exact same
  have core (j : Nat) : coreOf (liveSetF f (offVecCoreState k) 23 8 (itemKernel it)) j = coreOf e j := coreOf_of_vec same j
  refine ⟨(core k).trans entered, ?_, ?_, fun j other => (core j).trans (others other), given.trans (only.regs.liveSetF word), ?_, ?_⟩
  · rw [coreState, liveF, liveGet_liveSetF, if_pos rfl, bits_setBits_other _ _ (by decide) (by decide) (by decide) (by decide)]
    exact state
  · exact (liveF_liveSetF_same f _ _ (by decide) (by decide)).trans (Nat.mod_eq_of_lt (bits_lt _ 31 16))
  · have back := congrArg (fun e : Dev => { e with regs := d.regs, vec := d.vec }) only.rest
    exact back.trans rest
  · have cores := congrArg (fun v : Vec => { v with cores := d.vec.cores }) same
    exact cores.trans vec

/-! ### WD counts the dispatch and shows the position -/

/-- The dispatch is counted, and the item is no longer ready. -/
def dispatchCounted (d : Dev) (it : WorkItem) : Dev :=
  bump { d with wd := { d.wd with ready := d.wd.ready.filter fun j => decide (j ≠ it) } } offWdDispatchCount

/-- An insert item's group shows a position. -/
def groupShown (d : Dev) (it : WorkItem) (pos : Nat) : Dev :=
  if itemKind it = 0 then d else liveSetF d (offWdGroupStatus (itemGroup it)) 5 0 pos

/-- What WD leaves of itself and of its registers when it has counted the dispatch of an item and shown a position. -/
structure DispatchNoted (it : WorkItem) (pos : Nat) (a b : Dev) : Prop where
  wd : b.wd = { a.wd with ready := a.wd.ready.filter fun j => decide (j ≠ it) }
  count : liveGet b offWdDispatchCount = liveGet a offWdDispatchCount + 1
  group : itemKind it ≠ 0 → liveF b (offWdGroupStatus (itemGroup it)) 5 0 = pos % 64
  regs : RegsBut [offWdDispatchCount, offWdGroupStatus (itemGroup it)] a b
  rest : { b with regs := a.regs, wd := a.wd } = a

theorem groupShown_only (d : Dev) (it : WorkItem) (pos : Nat) : OnlyWords [offWdGroupStatus (itemGroup it)] d (groupShown d it pos) := by
  unfold groupShown
  split
  · exact .refl _ d
  · exact (OnlyWords.refl _ d).liveSetF (List.mem_singleton.mpr rfl)

theorem groupShown_group {it : WorkItem} (insert : itemKind it ≠ 0) (d : Dev) (pos : Nat) :
    liveF (groupShown d it pos) (offWdGroupStatus (itemGroup it)) 5 0 = pos % 64 := by
  rw [groupShown, if_neg insert]
  exact liveF_liveSetF_same _ _ _ (by decide) (by decide)

theorem dispatchCounted_noted (d : Dev) (it : WorkItem) (pos : Nat) : DispatchNoted it pos d (groupShown (dispatchCounted d it) it pos) := by
  have count : liveGet (dispatchCounted d it) offWdDispatchCount = liveGet d offWdDispatchCount + 1 := liveGet_liveSet_same _ _ _
  have counted : RegsBut [offWdDispatchCount, offWdGroupStatus (itemGroup it)] d (dispatchCounted d it) :=
    RegsBut.bump List.mem_cons_self ((RegsBut.refl _ d).other rfl)
  have shown := groupShown_only (dispatchCounted d it) it pos
  refine ⟨?_, ?_, fun insert => groupShown_group insert _ pos, counted.trans (shown.regs.mono fun o mem => List.mem_cons_of_mem _ mem), ?_⟩
  · have wd := congrArg Dev.wd shown.rest
    exact wd
  · rw [shown.regs.live _ (List.mem_singleton.not.mpr (by unfold offWdDispatchCount offWdGroupStatus; omega)), count]
  · have rest := congrArg (fun e : Dev => { e with regs := d.regs, wd := d.wd }) shown.rest
    exact rest

/-! ### A dispatch (R225, R228) -/

/-- The position that the group shows is read after the core has taken the item; a dispatch moves none. -/
theorem dispatchOne_dispatches {d : Dev} {it : WorkItem} {k : Nat} (wd : wdRuns d = true) (vec : running d blkVec = true)
    (next : nextItem d = some it) (chosen : chooseCore d it = some k) :
    dispatchOne d = groupShown (dispatchCounted (itemGiven d it k) it) it ((posOf d k).getD 0) := by
  unfold dispatchOne
  rw [wd, vec, if_neg (by decide)]
  split
  · next none => exact absurd (next.symm.trans none) nofun
  · next j some =>
    obtain rfl : it = j := Option.some.inj (next.symm.trans some)
    split
    · next none => exact absurd (chosen.symm.trans none) nofun
    · next i some =>
      obtain rfl : k = i := Option.some.inj (chosen.symm.trans some)
      extract_lets gated core entered staged shown wd ready counted
      have given : shown = itemGiven d it k := rfl
      have count : counted = dispatchCounted shown it := rfl
      have vec : counted.vec = (itemGiven d it k).vec := by
        rw [← given]
        rfl
      have places := congrArg Vec.places (itemGiven_given d it k).vec
      have place : posOf counted k = posOf d k := posOf_of_places ((congrArg Vec.places vec).trans places) k
      rw [← place, ← given, ← count]
      rfl

theorem dispatchOne_stopped {d : Dev} (stopped : wdRuns d = false ∨ running d blkVec = false ∨ nextItem d = none) : dispatchOne d = d := by
  unfold dispatchOne
  rcases stopped with wd | vec | none
  · rw [wd]
    rfl
  · rw [vec, Bool.and_false]
    rfl
  · rw [none]
    exact ite_self d

theorem dispatchOne_noCore {d : Dev} {it : WorkItem} (next : nextItem d = some it) (none : chooseCore d it = none) : dispatchOne d = d := by
  unfold dispatchOne
  rw [next]
  dsimp only
  rw [none]
  exact ite_self d

/-- What a dispatch leaves of the core, of WD, of the registers and of everything else. -/
structure Dispatched (it : WorkItem) (k : Nat) (a b : Dev) : Prop where
  core : coreOf b k = givenCore a it k
  state : coreState b k = if coreState a k = 0 then 0 else 2
  kernel : liveF b (offVecCoreState k) 23 8 = itemKernel it
  others : ∀ j, j ≠ k → coreOf b j = coreOf a j
  wd : b.wd = { a.wd with ready := a.wd.ready.filter fun j => decide (j ≠ it) }
  count : liveGet b offWdDispatchCount = liveGet a offWdDispatchCount + 1
  group : itemKind it ≠ 0 → liveF b (offWdGroupStatus (itemGroup it)) 5 0 = (posOf a k).getD 0 % 64
  regs : RegsBut [offVecCoreState k, offWdDispatchCount, offWdGroupStatus (itemGroup it)] a b
  rest : { b with regs := a.regs, vec := a.vec, wd := a.wd } = a
  vec : { b.vec with cores := a.vec.cores } = a.vec

/-- The two halves of a dispatch touch different registers. -/
theorem ItemGiven.dispatched {it : WorkItem} {k : Nat} {a b c : Dev} (hk : k < 36) (given : ItemGiven it k a b)
    (noted : DispatchNoted it ((posOf a k).getD 0) b c) : Dispatched it k a c := by
  obtain ⟨core, state, kernel, others, regs, rest, places⟩ := given
  have vec : c.vec = b.vec := by
    have vec := congrArg Dev.vec noted.rest
    exact vec
  have wd : b.wd = a.wd := by
    have wd := congrArg Dev.wd rest
    exact wd
  have own : liveGet c (offVecCoreState k) = liveGet b (offVecCoreState k) := noted.regs.live _ fun mem => by
    have here := List.mem_pair.mp mem
    unfold offVecCoreState offWdDispatchCount offWdGroupStatus at here
    omega
  have count : liveGet b offWdDispatchCount = liveGet a offWdDispatchCount := regs.live _ fun mem => by
    have here := List.mem_singleton.mp mem
    unfold offVecCoreState offWdDispatchCount at here
    omega
  refine ⟨(coreOf_of_vec vec k).trans core, ?_, ?_, fun j other => (coreOf_of_vec vec j).trans (others j other), ?_, ?_, noted.group, ?_, ?_, ?_⟩
  · rw [coreState, liveF, own]
    exact state
  · rw [liveF, own]
    exact kernel
  · rw [noted.wd, wd]
  · rw [noted.count, count]
  · exact (regs.mono fun o mem => List.mem_singleton.mp mem ▸ List.mem_cons_self).trans
      (noted.regs.mono fun o mem => List.mem_cons_of_mem _ mem)
  · have back := congrArg (fun e : Dev => { e with regs := a.regs, vec := a.vec, wd := a.wd }) noted.rest
    have front := congrArg (fun e : Dev => { e with wd := a.wd }) rest
    exact back.trans front
  · rw [vec]
    exact places

/-- Settles O13: the choices as least elements of their orders, the dispatch by its two halves (`ItemGiven.dispatched`). -/
theorem dispatchOrder : Obligations.DispatchOrder := by
  refine ⟨fun d it next => nextItem_first next, fun d it k chosen => chooseCore_best chosen, fun s it k wd vec next chosen hk => ?_,
    fun s stopped => runs_ran rfl (dispatchOne_stopped stopped), fun s it next none => runs_ran rfl (dispatchOne_noCore next none)⟩
  have dispatched := (itemGiven_given s.dev it k).dispatched hk (dispatchCounted_noted _ it _)
  rw [← dispatchOne_dispatches wd vec next chosen] at dispatched
  obtain ⟨core, state, kernel, others, left, count, group, regs, rest, places⟩ := dispatched
  exact runs_ran rfl ⟨core, state, kernel, others, left, count, fun insert _ => group insert, regs, rest, places⟩

end Sys2Proof.Machine
end

section
/-!
What the rest of the device leaves of the media network (chapter 11): counts of PERF, reports of the PTP units, the servo's checks and
raised errors touch neither a plane nor a register of NETI, NETO or MGT.
-/
namespace Sys2Proof.Machine

/-- A bit of a register after a write of a bit. -/
theorem liveB_liveSetB (d : Dev) (o : Nat) {i : Nat} (p j : Nat) (v : Bool) (h : i < 32) :
    liveB (liveSetB d o i v) p j = if p = o ∧ j = i then v else liveB d p j := by
  by_cases reg : p = o
  · subst reg
    rw [liveB, liveGet_liveSetB, if_pos rfl, bit_setBit _ _ _ h, ← liveB]
    exact if_congr (by simp) rfl rfl
  · rw [liveB, liveGet_liveSetB, if_neg reg, if_neg fun both => reg both.1, liveB]

/-- A bit of a register beside the one that counts. -/
theorem liveB_bump_other (d : Dev) {o p : Nat} (j : Nat) (h : p ≠ o) : liveB (bump d o) p j = liveB d p j := by
  rw [liveB, liveGet_bump, if_neg h, liveB]

/-! ### The planes -/

theorem plane_of_planes {a b : Dev} (neti : b.neti = a.neti) (neto : b.neto = a.neto) (x : Nat) : plane b x = plane a x := by
  unfold plane
  rw [neti, neto]

@[simp] theorem plane_liveSetB (d : Dev) (o i : Nat) (v : Bool) (x : Nat) : plane (liveSetB d o i v) x = plane d x :=
  plane_of_planes rfl rfl x

@[simp] theorem plane_bump (d : Dev) (o x : Nat) : plane (bump d o) x = plane d x :=
  plane_of_planes rfl rfl x

@[simp] theorem plane_shSet (d : Dev) (o : Nat) (w : Word) (x : Nat) : plane (shSet d o w) x = plane d x :=
  plane_of_planes rfl rfl x

@[simp] theorem plane_actSet (d : Dev) (o : Nat) (w : Word) (x : Nat) : plane (actSet d o w) x = plane d x :=
  plane_of_planes rfl rfl x

@[simp] theorem plane_setPlane_twin (d : Dev) {x : Nat} (p : Plane) (h : x < 2) : plane (setPlane d x p) (1 - x) = plane d (1 - x) :=
  plane_setPlane_other d p fun same => by
    have zero : x = 0 ↔ 1 - x = 0 := iff_of_eq same
    omega

/-! ### What leaves the network alone -/

/-- The registers of NETI, NETO and MGT. -/
def NetWord (o : Nat) : Prop := 0x500000 ≤ o ∧ o < 0x800000

/-- b has the planes of a, the current values of its network registers, and its shadow and active copies. -/
structure NetKept (a b : Dev) : Prop where
  /-- Indigo. -/
  neti : b.neti = a.neti
  /-- Ochre. -/
  neto : b.neto = a.neto
  /-- Current values of the network's registers. -/
  live : ∀ o, NetWord o → liveGet b o = liveGet a o
  /-- Shadow copies. -/
  shadow : b.regs.shadow = a.regs.shadow
  /-- Active copies. -/
  act : b.regs.act = a.regs.act

theorem NetKept.refl (a : Dev) : NetKept a a := ⟨rfl, rfl, fun _ _ => rfl, rfl, rfl⟩

theorem NetKept.trans {a b c : Dev} (h : NetKept a b) (k : NetKept b c) : NetKept a c :=
  ⟨k.neti.trans h.neti, k.neto.trans h.neto, fun o ho => (k.live o ho).trans (h.live o ho), k.shadow.trans h.shadow, k.act.trans h.act⟩

section
variable {a b : Dev} (h : NetKept a b)
include h

theorem NetKept.plane (x : Nat) : Machine.plane b x = Machine.plane a x := plane_of_planes h.neti h.neto x

theorem NetKept.liveB {o : Nat} (ho : NetWord o) (i : Nat) : Machine.liveB b o i = Machine.liveB a o i := by
  rw [Machine.liveB, h.live o ho, Machine.liveB]

theorem NetKept.actB (o i : Nat) : Machine.actB b o i = Machine.actB a o i := by
  rw [Machine.actB, actGet_of_act h.act, Machine.actB]

theorem NetKept.shGet (o : Nat) : Machine.shGet b o = Machine.shGet a o := by
  rw [Machine.shGet, h.shadow, Machine.shGet]

theorem NetKept.liveSet {o : Nat} (ho : ¬NetWord o) (w : Word) : NetKept a (liveSet b o w) :=
  ⟨h.neti, h.neto, fun p hp => (liveGet_liveSet_other b w (fun e => ho (by rwa [← e]))).trans (h.live p hp), h.shadow, h.act⟩

theorem NetKept.liveSetB {o : Nat} (ho : ¬NetWord o) (i : Nat) (v : Bool) : NetKept a (liveSetB b o i v) := h.liveSet ho _

theorem NetKept.liveSetF {o : Nat} (ho : ¬NetWord o) (hi lo v : Nat) : NetKept a (liveSetF b o hi lo v) := h.liveSet ho _

theorem NetKept.setPtp (x : Nat) (p : PtpInst) : NetKept a (setPtp b x p) :=
  ⟨(setPtp_neti b x p).trans h.neti, (setPtp_neto b x p).trans h.neto,
    fun o ho => (setPtp_liveGet b x p o).trans (h.live o ho), by rw [setPtp_regs]; exact h.shadow, by rw [setPtp_regs]; exact h.act⟩

/-- The servo keeps no register of its own. -/
theorem NetKept.servo (v : Servo) : NetKept a { b with servo := v } := ⟨h.neti, h.neto, h.live, h.shadow, h.act⟩

end

theorem NetKept.ite {a b c : Dev} {p : Prop} [Decidable p] (h : NetKept a b) (k : NetKept a c) : NetKept a (if p then b else c) := by
  split <;> assumption

theorem OnlyWords.netKept {ws : List Nat} {a b : Dev} (h : OnlyWords ws a b) (hw : ∀ o ∈ ws, ¬NetWord o) : NetKept a b := by
  have neti := congrArg Dev.neti h.rest
  have neto := congrArg Dev.neto h.rest
  exact ⟨neti, neto, fun o ho => h.regs.live o fun mem => hw o mem ho, h.regs.shadow, h.regs.act⟩

/-- The registers that a raised error may write lie outside the network. -/
theorem errWords_not_net {o : Nat} (ho : o ∈ errWords) : ¬NetWord o := by
  unfold errWords offErrFatal offErrStatus offTwnStatus offClkTuneCode offErrClassCount offSapPortStatus at ho
  simp only [List.mem_append, List.mem_cons, List.mem_map, List.mem_range, List.not_mem_nil, or_false] at ho
  unfold NetWord
  omega

theorem raiseErr_netKept (d : Dev) (source code : Nat) (a0 a1 : Word) : NetKept d (raiseErr d source code a0 a1) := by
  have only := raiseErr_err source code a0 a1 (.refl d)
  have neti := congrArg Dev.neti only.rest
  have neto := congrArg Dev.neto only.rest
  exact ⟨neti, neto, fun o ho => only.regs.live o fun mem => errWords_not_net mem ho, only.regs.shadow, only.regs.act⟩

theorem perfHit_netKept (d : Dev) (b c n : Nat) : NetKept d (perfHit d b c n) :=
  (perfHit_only d b c n).netKept fun o mem net => by
    unfold perfWords offPerfOvf offPerfCntLo offPerfCntHi at mem
    simp only [List.mem_cons, List.mem_flatMap, List.mem_range, List.not_mem_nil, or_false] at mem
    unfold NetWord at net
    omega

/-- The registers of a PTP unit lie outside the network. -/
theorem ptp_not_net {x k : Nat} (h : x < 2) (hk : k < 0x100000) : ¬NetWord ((x + 3) * 0x100000 + k) := by
  unfold NetWord
  omega

theorem ptpReport_netKept (d : Dev) {x : Nat} (h : x < 2) : NetKept d (ptpReport d x) := by
  have own (k : Nat) (hk : k < 0x100000) := ptp_not_net h hk
  exact ((((((NetKept.refl d).setPtp x _).liveSetF (own 0x100 (by decide)) _ _ _).liveSetB (own 0x100 (by decide)) _ _).liveSet
    (own 0x110 (by decide)) _).liveSet (own 0x114 (by decide)) _).liveSet (own 0x118 (by decide)) _

theorem ptpLink_netKept (d : Dev) {x : Nat} (h : x < 2) : NetKept d (ptpLink d x) :=
  ((NetKept.refl d).setPtp x _).trans (ptpReport_netKept _ h)

/-! ### The servo's checks -/

/-- The servo's status stands outside the network. -/
theorem servoStatus_not_net : ¬NetWord offPtpiServoStatus := by
  unfold NetWord offPtpiServoStatus
  omega

theorem NetKept.setServo {a b : Dev} (h : NetKept a b) (st cause : Nat) : NetKept a (setServo b st cause) :=
  (h.liveSetF servoStatus_not_net _ _ _).liveSetF servoStatus_not_net _ _ _

theorem enterHoldover_netKept (d : Dev) (cause : Nat) (cand : Option Nat) : NetKept d (enterHoldover d cause cand) := by
  have held := (NetKept.refl d).servo
  exact (NetKept.ite ((held _).liveSetB servoStatus_not_net _ _) (held _)).setServo _ _

theorem causeCheck_netKept (d : Dev) : NetKept d (causeCheck d) :=
  .ite (((NetKept.refl d).servo _).setServo _ _) (.ite ((NetKept.refl d).setServo _ _) (.refl d))

/-- Without a Sync at hand the servo follows no other source. -/
theorem sourceLost_netKept (d : Dev) : NetKept d (sourceLost d none) := by
  refine .ite (enterHoldover_netKept _ _ _) (.ite ?_ (.ite (enterHoldover_netKept _ _ _) (enterHoldover_netKept _ _ _)))
  rw [if_neg (by simp)]
  exact .refl d

theorem servoCheck_netKept (d : Dev) : NetKept d (servoCheck d) :=
  .ite (sourceLost_netKept d) (.ite (causeCheck_netKept d) (.refl d))

end Sys2Proof.Machine
end

section
/-!
Links and speed steps (R249, R250, R263, R267): a media link that comes up or goes down, the management link, and a step from its start to
its timeout.
-/
namespace Sys2Proof.Machine

/-- A register of a media plane is one of the network. -/
theorem media_net {x k : Nat} (h : x < 2) (hk : k < 0x100000) : NetWord ((x + 5) * 0x100000 + k) := by
  unfold NetWord
  omega

theorem netStatus_net {x : Nat} (h : x < 2) : NetWord (offNetStatus x) := media_net h (by decide)

theorem netCnt_net {x k : Nat} (h : x < 2) (hk : k < 16) : NetWord (offNetCnt x k) := by
  unfold NetWord offNetCnt
  omega

/-- NETx.STATUS is no counter. -/
theorem netStatus_ne_cnt (x k : Nat) : offNetStatus x ≠ offNetCnt x k := by
  unfold offNetStatus offNetCnt
  omega

theorem netCtrl_ne_status (x : Nat) : offNetCtrl x ≠ offNetStatus x := by
  unfold offNetCtrl offNetStatus
  omega

theorem netCtrl_ne_cnt (x k : Nat) : offNetCtrl x ≠ offNetCnt x k := by
  unfold offNetCtrl offNetCnt
  omega

/-! ### A media link comes up (R243, R250, R263) -/

/-- A port whose step is in progress is at the step's speed. -/
theorem linkSpeed_stepping {d : Dev} {x e n : Nat} (trains : (plane d x).training = true) (step : (plane d x).step = some (e, n)) :
    linkSpeed d x = if n = 1 then 10 else 25 := by
  simp only [linkSpeed, trains, step]

/-- Any other port is at the speed in use. -/
theorem linkSpeed_steady {d : Dev} {x : Nat} (steady : ¬((plane d x).training = true ∧ (plane d x).step.isSome = true)) :
    linkSpeed d x = if liveB d (offNetStatus x) 1 then 10 else 25 := by
  cases trains : (plane d x).training <;> cases step : (plane d x).step
  case true.some => exact absurd ⟨trains, by rw [step]; rfl⟩ steady
  all_goals simp only [linkSpeed, trains, step]

/-- The link of a port that steps comes up at the step's speed, that of any other port at the speed in use. -/
theorem mayLink_iff {d : Dev} {x sp : Nat} (speeds : ∀ e n, (plane d x).step = some (e, n) → n ≤ 1) :
    mayLink d x sp = true ↔ running d (netBlk x) = true ∧ liveB d (offNetStatus x) 0 = false ∧ (sp = 10 ∨ sp = 25) ∧
      if (plane d x).training = true ∧ (plane d x).step.isSome = true then
        (plane d x).step = some (((plane d x).step.getD (0, 0)).1, if sp = 10 then 1 else 0)
      else liveB d (offNetStatus x) 1 = decide (sp = 10) := by
  rw [mayLink, Bool.and_eq_true, Bool.and_eq_true, decide_eq_true_eq, Bool.not_eq_true', and_assoc]
  refine and_congr_right fun _ => and_congr_right fun _ => ?_
  by_cases steps : (plane d x).training = true ∧ (plane d x).step.isSome = true
  · obtain ⟨⟨e, n⟩, step⟩ := Option.isSome_iff_exists.mp steps.2
    have low := speeds e n step
    rw [if_pos steps, linkSpeed_stepping steps.1 step, step]
    simp only [Option.getD_some, Option.some.injEq, Prod.mk.injEq, true_and]
    split_ifs <;> omega
  · rw [if_neg steps, linkSpeed_steady steps]
    cases liveB d (offNetStatus x) 1 <;> by_cases ten : sp = 10 <;> simp [ten]

/-- A link that comes up ends a step, which is counted, or is logged (R250, R263). -/
def linkNoted (x sp : Nat) (d : Dev) : Dev :=
  if (plane d x).training && (plane d x).step.isSome then bump d (offNetCnt x 10)
  else raiseErr d (srcOf (netBlk x) 0) 0x0303 (BitVec.ofNat 32 sp) 0

/-- A port that trained at the step's speed has ended its step. -/
def stepEnded (x : Nat) (p : Plane) (d : Dev) : Dev :=
  if p.training then liveSetB (setPlane d x { p with training := false, step := none }) (offNetStatus x) 3 false else d

/-- LINK, SPEED_NOW and FEC of a link that is up. -/
def linkShown (x sp : Nat) (d : Dev) : Dev :=
  let shown := liveSetB (liveSetB d (offNetStatus x) 0 true) (offNetStatus x) 1 (decide (sp = 10))
  liveSetB shown (offNetStatus x) 2 (!decide (sp = 10) && liveB shown (offNetCtrl x) 2)

theorem netLinkUp_up {d : Dev} {x sp : Nat} (may : mayLink d x sp = true) :
    netLinkUp x sp d = linkShown x sp (stepEnded x (plane d x) (linkNoted x sp d)) := by
  rw [netLinkUp, if_pos may]
  rfl

section
variable (d : Dev) (x sp : Nat)

theorem linkNoted_plane (y : Nat) : plane (linkNoted x sp d) y = plane d y := by
  unfold linkNoted
  split
  · rw [plane_bump]
  · exact (raiseErr_netKept _ _ _ _ _).plane y

theorem linkNoted_liveB {o : Nat} (net : NetWord o) (other : o ≠ offNetCnt x 10) (i : Nat) :
    liveB (linkNoted x sp d) o i = liveB d o i := by
  unfold linkNoted
  split
  · exact liveB_bump_other d i other
  · exact (raiseErr_netKept _ _ _ _ _).liveB net i

theorem linkNoted_steps (h : x < 2) : liveGet (linkNoted x sp d) (offNetCnt x 10) =
    liveGet d (offNetCnt x 10) + if (plane d x).training = true ∧ (plane d x).step.isSome = true then 1 else 0 := by
  unfold linkNoted
  simp only [Bool.and_eq_true]
  split
  · rw [liveGet_bump, if_pos rfl]
  · rw [(raiseErr_netKept _ _ _ _ _).live _ (netCnt_net h (by decide))]
    exact (BitVec.add_zero _).symm

end

section
variable (d : Dev) (x : Nat)

theorem stepEnded_plane (p : Plane) (trains : p.training = true) :
    plane (stepEnded x p d) x = { p with training := false, step := none } := by
  rw [stepEnded, if_pos trains, plane_liveSetB, plane_setPlane]

theorem stepEnded_idle {p : Plane} (idle : p.training = false) : stepEnded x p d = d := by
  rw [stepEnded, idle]
  rfl

theorem stepEnded_plane_twin (p : Plane) (h : x < 2) : plane (stepEnded x p d) (1 - x) = plane d (1 - x) := by
  unfold stepEnded
  split
  · rw [plane_liveSetB, plane_setPlane_twin _ _ h]
  · rfl

theorem stepEnded_stepping {p : Plane} (trains : p.training = true) : liveB (stepEnded x p d) (offNetStatus x) 3 = false := by
  rw [stepEnded, if_pos trains, liveB_liveSetB_same _ _ _ (by decide)]

theorem stepEnded_liveGet (p : Plane) {o : Nat} (other : o ≠ offNetStatus x) : liveGet (stepEnded x p d) o = liveGet d o := by
  unfold stepEnded
  split
  · rw [liveGet_liveSetB, if_neg other, setPlane_liveGet]
  · rfl

@[simp] theorem linkShown_plane (sp y : Nat) : plane (linkShown x sp d) y = plane d y := by
  simp only [linkShown, plane_liveSetB]

theorem linkShown_liveGet (sp : Nat) {o : Nat} (other : o ≠ offNetStatus x) : liveGet (linkShown x sp d) o = liveGet d o := by
  simp only [linkShown, liveGet_liveSetB, if_neg other]

/-- The status of a link that is up. -/
theorem linkShown_status (sp i : Nat) : liveB (linkShown x sp d) (offNetStatus x) i =
    if i = 2 then !decide (sp = 10) && liveB d (offNetCtrl x) 2 else if i = 1 then decide (sp = 10) else if i = 0 then true
      else liveB d (offNetStatus x) i := by
  simp only [linkShown, liveB_liveSetB _ _ _ _ _ (show 0 < 32 by decide), liveB_liveSetB _ _ _ _ _ (show 1 < 32 by decide),
    liveB_liveSetB _ _ _ _ _ (show 2 < 32 by decide), netCtrl_ne_status, true_and, false_and, if_false]

end

/-- A link that comes up (R250, R263). -/
theorem netLinkUp_shown {d : Dev} {x sp : Nat} (h : x < 2) (may : mayLink d x sp = true) (speed : sp = 10 ∨ sp = 25) :
    let e := netLinkUp x sp d
    liveB e (offNetStatus x) 0 = true ∧ liveB e (offNetStatus x) 1 = decide (sp = 10) ∧
      liveB e (offNetStatus x) 2 = (decide (sp = 25) && liveB d (offNetCtrl x) 2) ∧
      ((plane d x).training = true → plane e x = { plane d x with training := false, step := none } ∧
        liveB e (offNetStatus x) 3 = false) ∧
      ((plane d x).training = false → plane e x = plane d x) ∧
      liveGet e (offNetCnt x 10) = liveGet d (offNetCnt x 10) +
        (if (plane d x).training = true ∧ (plane d x).step.isSome = true then 1 else 0) ∧
      plane e (1 - x) = plane d (1 - x) := by
  have fec : (!decide (sp = 10)) = decide (sp = 25) := by rcases speed with rfl | rfl <;> rfl
  have ctrl : liveB (stepEnded x (plane d x) (linkNoted x sp d)) (offNetCtrl x) 2 = liveB d (offNetCtrl x) 2 := by
    rw [liveB, stepEnded_liveGet _ _ _ (netCtrl_ne_status x), ← liveB]
    exact linkNoted_liveB _ _ sp (media_net h (by decide)) (netCtrl_ne_cnt x 10) 2
  dsimp only
  rw [netLinkUp_up may]
  refine ⟨linkShown_status _ _ _ 0, linkShown_status _ _ _ 1, (linkShown_status _ _ _ 2).trans ?_, fun trains => ⟨?_, ?_⟩,
    fun idle => ?_, ?_, ?_⟩
  · rw [if_pos rfl, fec, ctrl]
  · rw [linkShown_plane, stepEnded_plane _ _ _ trains]
  · exact (linkShown_status _ _ _ 3).trans (stepEnded_stepping _ _ trains)
  · rw [linkShown_plane, stepEnded_idle _ _ idle, linkNoted_plane]
  · rw [linkShown_liveGet _ _ _ (netStatus_ne_cnt x 10).symm, stepEnded_liveGet _ _ _ (netStatus_ne_cnt x 10).symm,
      linkNoted_steps _ _ sp h]
  · rw [linkShown_plane, stepEnded_plane_twin _ _ _ h, linkNoted_plane]

/-! ### A media link goes down (R263) -/

theorem netLinkDown_shown {d : Dev} {x : Nat} (h : x < 2) (up : liveB d (offNetStatus x) 0 = true) :
    let e := netLinkDown x d
    liveB e (offNetStatus x) 0 = false ∧ liveB e (offNetStatus x) 2 = false ∧
      liveGet e (offNetCnt x 12) = liveGet d (offNetCnt x 12) + 1 ∧ ∀ y, plane e y = plane d y := by
  have kept := raiseErr_netKept (bump (liveSetB (liveSetB d (offNetStatus x) 0 false) (offNetStatus x) 2 false) (offNetCnt x 12))
    (srcOf (netBlk x) 0) 0x0302 0 0
  have status (i : Nat) := (kept.liveB (netStatus_net h) i).trans (liveB_bump_other _ i (netStatus_ne_cnt x 12))
  dsimp only
  rw [netLinkDown, if_pos up]
  refine ⟨?_, ?_, ?_, fun y => ?_⟩
  · rw [status, liveB_liveSetB _ _ _ _ _ (by decide), if_neg (by simp), liveB_liveSetB_same _ _ _ (by decide)]
  · rw [status, liveB_liveSetB_same _ _ _ (by decide)]
  · rw [kept.live _ (netCnt_net h (by decide)), liveGet_bump, if_pos rfl, liveGet_liveSetB, if_neg (netStatus_ne_cnt x 12).symm,
      liveGet_liveSetB, if_neg (netStatus_ne_cnt x 12).symm]
  · rw [kept.plane, plane_bump, plane_liveSetB, plane_liveSetB]

/-! ### The management link (R263, R267) -/

/-- The management link stays as it is, or cannot come up. -/
theorem mgtLink_idle {d : Dev} {up : Bool} (idle : liveB d offMgtStatus 0 = up ∨ (up = true ∧ running d blkMgt = false)) :
    mgtLink up d = d := if_pos idle

theorem mgtLink_down {d : Dev} (up : liveB d offMgtStatus 0 = true) :
    mgtLink false d = raiseErr (liveSetB d offMgtStatus 0 false) (srcOf blkMgt 0) 0x0302 0 0 := by
  rw [mgtLink, if_neg (by simp [up])]
  rfl

theorem mgtLink_up {d : Dev} (down : liveB d offMgtStatus 0 = false) : mgtLink true d =
    if running d blkMgt then raiseErr (liveSetB d offMgtStatus 0 true) (srcOf blkMgt 0) 0x0303 1 0 else d := by
  cases runs : running d blkMgt
  · exact mgtLink_idle (.inr ⟨rfl, runs⟩)
  · rw [mgtLink, if_neg (by simp [down, runs])]
    rfl

/-! ### The start of a step (R249, R250) -/

/-- An announcement joins the queue, or is dropped and counted. -/
theorem announceStep_cases (d : Dev) (x e sp : Nat) :
    announceStep d x e sp = bump d (offNetCnt x 9) ∨ ∃ q, announceStep d x e sp = setPlane d x { plane d x with queue := q } := by
  unfold announceStep enqueueTx
  dsimp only
  split
  · exact .inl rfl
  · exact .inr ⟨_, rfl⟩

/-- An announcement leaves the step and NETx.STATUS. -/
theorem announceStep_kept {d : Dev} {x : Nat} (e sp : Nat) (h : x < 2) :
    let a := announceStep d x e sp
    (plane a x).step = (plane d x).step ∧ (plane a x).lastStep = (plane d x).lastStep ∧ plane a (1 - x) = plane d (1 - x) ∧
      ∀ i, liveB a (offNetStatus x) i = liveB d (offNetStatus x) i := by
  dsimp only
  rcases announceStep_cases d x e sp with dropped | ⟨q, queued⟩
  · rw [dropped, plane_bump, plane_bump]
    exact ⟨rfl, rfl, rfl, fun i => liveB_bump_other d i (netStatus_ne_cnt x 9)⟩
  · rw [queued, plane_setPlane, plane_setPlane_twin _ _ h]
    exact ⟨rfl, rfl, rfl, fun i => by rw [liveB, setPlane_liveGet, liveB]⟩

theorem stepStart_started {d : Dev} {x : Nat} (h : x < 2) (may : stepMayStart d x = true) :
    let e := stepStart x d
    (plane e x).step = some (d.epc.epoch + 3, if liveB d (offNetStatus x) 1 then 0 else 1) ∧
      (plane e x).lastStep = some d.epc.epoch ∧ liveB e (offNetStatus x) 3 = true ∧ plane e (1 - x) = plane d (1 - x) := by
  dsimp only
  rw [stepStart, if_pos may]
  dsimp only
  obtain ⟨step, last, twin, status⟩ := announceStep_kept (d := liveSetB (setPlane d x { plane d x with
    step := some (d.epc.epoch + 3, if liveB d (offNetStatus x) 1 then 0 else 1), lastStep := some d.epc.epoch, bigSet := false })
    (offNetStatus x) 3 true) (d.epc.epoch + 3) (if liveB d (offNetStatus x) 1 then 0 else 1) h
  rw [setPlane_epc, step, last, twin, status, plane_liveSetB, plane_liveSetB, plane_setPlane, plane_setPlane_twin _ _ h]
  exact ⟨rfl, rfl, liveB_liveSetB_same _ _ _ (by decide), rfl⟩

/-! ### The step epoch and the timeout of a step (R250) -/

section
variable {d : Dev} {x e n : Nat} (step : (plane d x).step = some (e, n))
include step

theorem stepDue_iff : stepDue d x = true ↔ e ≤ d.epc.epoch := by
  rw [stepDue, step, Option.any_some, decide_eq_true_eq]

theorem stepEpoch_trains (h : x < 2) (due : e ≤ d.epc.epoch) :
    let a := stepEpoch x d
    plane a x = { plane d x with training := true } ∧ liveB a (offNetStatus x) 0 = false ∧ liveB a (offNetStatus x) 2 = false ∧
      plane a (1 - x) = plane d (1 - x) := by
  dsimp only
  rw [stepEpoch, if_pos ((stepDue_iff step).mpr due)]
  refine ⟨?_, ?_, liveB_liveSetB_same _ _ _ (by decide), ?_⟩
  · rw [plane_liveSetB, plane_liveSetB, plane_setPlane]
  · rw [liveB_liveSetB _ _ _ _ _ (by decide), if_neg (by simp), liveB_liveSetB_same _ _ _ (by decide)]
  · rw [plane_liveSetB, plane_liveSetB, plane_setPlane_twin _ _ h]

/-- A step that has not timed out. -/
theorem stepTimeout_early (early : ¬((plane d x).training = true ∧ e + 30 ≤ d.epc.epoch)) : stepTimeout x d = d := by
  simp only [stepTimeout, step]
  exact if_neg early

end

/-- A step that timed out is taken back: STEP_EN is cleared in the shadow copy and in every active one. -/
def stepUndone (x : Nat) (d : Dev) : Dev :=
  let a := liveSetB (setPlane d x { plane d x with training := false, step := none }) (offNetStatus x) 3 false
  let b := actSet a (offNetCtrl x) (setBit (actGet a (offNetCtrl x)) 3 false)
  bump (shSet b (offNetCtrl x) (setBit (shGet b (offNetCtrl x)) 3 false)) (offNetCnt x 11)

theorem stepTimeout_undone {d : Dev} {x e n : Nat} (step : (plane d x).step = some (e, n)) (trains : (plane d x).training = true)
    (late : e + 30 ≤ d.epc.epoch) : stepTimeout x d =
      raiseErr (stepUndone x d) (srcOf (netBlk x) 0) 0x0304 (if n = 1 then 10 else 25) 0 := by
  simp only [stepTimeout, step]
  exact if_pos ⟨trains, late⟩

section
variable (d : Dev) {x : Nat}

theorem stepUndone_plane : plane (stepUndone x d) x = { plane d x with training := false, step := none } := by
  rw [stepUndone, plane_bump, plane_shSet, plane_actSet, plane_liveSetB, plane_setPlane]

theorem stepUndone_plane_twin (h : x < 2) : plane (stepUndone x d) (1 - x) = plane d (1 - x) := by
  rw [stepUndone, plane_bump, plane_shSet, plane_actSet, plane_liveSetB, plane_setPlane_twin _ _ h]

theorem stepUndone_stepping : liveB (stepUndone x d) (offNetStatus x) 3 = false := by
  rw [stepUndone, liveB_bump_other _ _ (netStatus_ne_cnt x 11), liveB, liveGet_shSet, liveGet_actSet, ← liveB,
    liveB_liveSetB_same _ _ _ (by decide)]

theorem stepUndone_count : liveGet (stepUndone x d) (offNetCnt x 11) = liveGet d (offNetCnt x 11) + 1 := by
  rw [stepUndone, liveGet_bump, if_pos rfl, liveGet_shSet, liveGet_actSet, liveGet_liveSetB, if_neg (netStatus_ne_cnt x 11).symm,
    setPlane_liveGet]

theorem stepUndone_actB (banks : d.regs.act ≠ []) : actB (stepUndone x d) (offNetCtrl x) 3 = false := by
  have set (w : Word) : actGet (actSet (liveSetB (setPlane d x { plane d x with training := false, step := none })
      (offNetStatus x) 3 false) (offNetCtrl x) w) (offNetCtrl x) = w := by
    rw [actGet_actSet _ _ _ _ (by rwa [liveSetB_act, setPlane_regs]), if_pos rfl]
  rw [actB, stepUndone, bump, bumpBy, actGet_liveSet, actGet_shSet, set, bit_setBit_same _ _ (by decide)]

theorem stepUndone_shadow : bit (shGet (stepUndone x d) (offNetCtrl x)) 3 = false := by
  rw [stepUndone, bump, bumpBy, shGet_liveSet, shGet_shSet, if_pos rfl, bit_setBit_same _ _ (by decide)]

end

/-! ### The commands -/

section
variable {s : State} {x : Nat} {P : Dev → Prop}

theorem runs_linkUp {sp : Nat} (h : x < 2) (hp : P (if mayLink s.dev x sp then ptpLink (netLinkUp x sp s.dev) x else s.dev)) :
    Runs (.linkUp x sp) s P := by
  refine runs_ranIf rfl (decide_eq_true (show x < 3 by omega)) ?_
  rw [if_neg (show x ≠ 2 by omega)]
  exact hp

theorem runs_linkDown (h : x < 2) (hp : P (if liveB s.dev (offNetStatus x) 0 then ptpReport (netLinkDown x s.dev) x else s.dev)) :
    Runs (.linkDown x) s P := by
  refine runs_ranIf rfl (decide_eq_true (show x < 3 by omega)) ?_
  rw [if_neg (show x ≠ 2 by omega)]
  exact hp

theorem runs_mgtLinkUp {sp : Nat} (hp : P (mgtLink true s.dev)) : Runs (.linkUp 2 sp) s P := runs_ranIf rfl rfl hp

theorem runs_mgtLinkDown (hp : P (mgtLink false s.dev)) : Runs (.linkDown 2) s P := runs_ranIf rfl rfl hp

theorem runs_speedStepStart (h : x < 2) (hp : P (if stepMayStart s.dev x then ptpReport (stepStart x s.dev) x else s.dev)) :
    Runs (.speedStepStart x) s P := runs_ranIf rfl (decide_eq_true h) hp

theorem runs_stepEpoch (h : x < 2) (hp : P (if stepDue s.dev x then servoCheck (ptpReport (stepEpoch x s.dev) x) else s.dev)) :
    Runs (.stepEpoch x) s P := runs_ranIf rfl (decide_eq_true h) hp

theorem runs_stepTimeout (h : x < 2) (hp : P (if (plane s.dev x).step ≠ (plane (stepTimeout x s.dev) x).step
    then ptpLink (stepTimeout x s.dev) x else s.dev)) : Runs (.stepTimeout x) s P := runs_ranIf rfl (decide_eq_true h) hp

/-- A timeout that changes nothing. -/
theorem runs_stepTimeout_idle (h : x < 2) (idle : stepTimeout x s.dev = s.dev) : Runs (.stepTimeout x) s fun d => d = s.dev :=
  runs_stepTimeout h (by rw [idle, if_neg (by simp)])

end

/-- Settles O25: what a link or a step does to its plane and its registers stays through the PTP report that follows it
(`ptpLink_netKept`, `ptpReport_netKept`, `servoCheck_netKept`). -/
theorem linksAndSpeedSteps : Obligations.LinksAndSpeedSteps := by
  refine ⟨fun s x sp h => ?up, fun s x h up => ?down, fun s sp => ?management, fun s x h refused => ?refused,
    fun s x h may => ?start, fun s x e n h step due => ?stepEpoch, fun s x e n h step trains late banks => ?timeout,
    fun s x h none => ?none, fun s x e n h step => ?early⟩
  case up =>
    intro steps at' may speeds
    have iff := mayLink_iff (sp := sp) speeds
    refine ⟨fun refused => runs_linkUp h ?_, fun allowed => runs_linkUp h ?_⟩
    · rw [if_neg fun up => refused (iff.mp up)]
    · have up := iff.mpr allowed
      have kept := ptpLink_netKept (netLinkUp x sp s.dev) h
      rw [if_pos up]
      dsimp only
      simp only [kept.liveB (netStatus_net h), kept.plane, kept.live _ (netCnt_net h (show 10 < 16 by decide))]
      exact netLinkUp_shown h up allowed.2.2.1
  case down =>
    have kept := ptpReport_netKept (netLinkDown x s.dev) h
    obtain ⟨link, fec, count, planes⟩ := netLinkDown_shown h up
    refine runs_linkDown h ?_
    rw [if_pos up, kept.liveB (netStatus_net h), kept.liveB (netStatus_net h), kept.live _ (netCnt_net h (by decide)), kept.plane,
      kept.plane]
    exact ⟨link, fec, count, planes x, planes (1 - x)⟩
  case management =>
    refine ⟨fun up => ⟨runs_mgtLinkUp (mgtLink_idle (.inl up)), runs_mgtLinkDown (mgtLink_down up)⟩,
      fun down => ⟨runs_mgtLinkDown (mgtLink_idle (.inl down)), runs_mgtLinkUp (mgtLink_up down)⟩⟩
  case refused =>
    exact runs_speedStepStart h (by rw [if_neg (by simp [refused])])
  case start =>
    have kept := ptpReport_netKept (stepStart x s.dev) h
    refine runs_speedStepStart h ?_
    rw [if_pos may, kept.plane, kept.plane, kept.liveB (netStatus_net h)]
    exact stepStart_started h may
  case stepEpoch =>
    have kept := (ptpReport_netKept (stepEpoch x s.dev) h).trans (servoCheck_netKept _)
    refine runs_stepEpoch h ?_
    rw [if_pos ((stepDue_iff step).mpr due), kept.plane, kept.plane, kept.liveB (netStatus_net h), kept.liveB (netStatus_net h)]
    exact stepEpoch_trains step h due
  case timeout =>
    have undone := stepTimeout_undone step trains late
    have raised := raiseErr_netKept (stepUndone x s.dev) (srcOf (netBlk x) 0) 0x0304 (if n = 1 then 10 else 25) 0
    have kept := raised.trans (ptpLink_netKept _ h)
    refine runs_stepTimeout h ?_
    rw [undone, if_pos (by rw [raised.plane, stepUndone_plane, step]; simp), kept.plane, kept.plane, kept.liveB (netStatus_net h),
      kept.actB, kept.shGet, kept.live _ (netCnt_net h (by decide))]
    exact ⟨stepUndone_plane _, stepUndone_stepping _, stepUndone_actB _ banks, stepUndone_shadow _, stepUndone_count _,
      stepUndone_plane_twin _ h⟩
  case none =>
    refine ⟨runs_stepTimeout_idle h ?_, runs_stepEpoch h ?_⟩
    · simp only [stepTimeout, none]
    · rw [if_neg (by simp [stepDue, none])]
  case early =>
    refine ⟨fun early => runs_stepEpoch h ?_, fun early => runs_stepTimeout_idle h (stepTimeout_early step ?_)⟩
    · rw [if_neg fun due => absurd ((stepDue_iff step).mp due) (by omega)]
    · rintro ⟨trains, late⟩
      rcases early with idle | soon
      · simp [trains] at idle
      · omega

end Sys2Proof.Machine
end

section
/-!
What a media plane transmits (R246 to R248, R264 to R266): the frame that starts next, the order of a queue, the release and the discard of
stream packets, pauses, and the supervisor's answers.
-/
namespace Sys2Proof.Machine

/-! ### The frame that starts next (R247) -/

/-- A fold that keeps the first value it finds. -/
theorem foldl_firstFound {α β : Type} {g : Option β → α → Option β} {f : α → Option β} (held : ∀ b q, g (some b) q = some b)
    (free : ∀ q, g none q = f q) (l : List α) : l.foldl g none = l.findSome? f := by
  have kept (l : List α) (b : β) : l.foldl g (some b) = some b := by
    induction l with
    | nil => rfl
    | cons q t ih => rw [List.foldl_cons, held, ih]
  induction l with
  | nil => rfl
  | cons q t ih =>
    rw [List.foldl_cons, free, List.findSome?_cons]
    cases f q with
    | none => exact ih
    | some b => exact kept t b

/-- The first value over the numbers below n comes of the least number that has one. -/
theorem findSome?_range_least {β : Type} {f : Nat → Option β} {n : Nat} {b : β} (h : (List.range n).findSome? f = some b) :
    ∃ q < n, f q = some b ∧ ∀ r < q, f r = none := by
  obtain ⟨before, q, after, split, found, none⟩ := List.findSome?_eq_some_iff.mp h
  have rises := List.pairwise_lt_range (n := n)
  have mem (r : Nat) : r < n ↔ r ∈ before ∨ r = q ∨ r ∈ after := by
    rw [← List.mem_range, split, List.mem_append, List.mem_cons]
  rw [split, List.pairwise_append, List.pairwise_cons] at rises
  obtain ⟨-, ⟨above, -⟩, -⟩ := rises
  have low : q < n := (mem q).mpr (.inr (.inl rfl))
  refine ⟨q, low, found, fun r less => none r ?_⟩
  rcases (mem r).mp (less.trans low) with early | rfl | late
  · exact early
  · exact absurd less (Nat.lt_irrefl r)
  · exact absurd (above r late) (Nat.lt_asymm less)

/-- The first frame that may start of the priority that is looked at after q higher ones. -/
def offeredTx (d : Dev) (x q : Nat) : Option TxFrame :=
  if isPaused (plane d x) (7 - q) then none else (plane d x).queue.find? fun f => decide (f.prio = 7 - q) && mayStart d x f

theorem nextTx_eq (d : Dev) (x : Nat) : nextTx d x = (List.range 8).findSome? (offeredTx d x) :=
  foldl_firstFound (fun _ _ => rfl) (fun _ => rfl) _

theorem offeredTx_some {d : Dev} {x q : Nat} {f : TxFrame} (h : offeredTx d x q = some f) :
    f ∈ (plane d x).queue ∧ isPaused (plane d x) f.prio = false ∧ mayStart d x f = true ∧ f.prio = 7 - q := by
  unfold offeredTx at h
  split at h
  · cases h
  · next free =>
    have passed := List.find?_some h
    obtain ⟨prio, may⟩ : f.prio = 7 - q ∧ mayStart d x f = true := by simpa using passed
    exact ⟨List.mem_of_find?_eq_some h, by rw [prio, Bool.eq_false_iff]; exact free, may, prio⟩

/-- A frame that may start is offered for its priority, or one before it. -/
theorem offeredTx_isSome {d : Dev} {x q : Nat} {g : TxFrame} (mem : g ∈ (plane d x).queue) (free : isPaused (plane d x) g.prio = false)
    (may : mayStart d x g = true) (prio : g.prio = 7 - q) : offeredTx d x q ≠ none := by
  unfold offeredTx
  rw [← prio, free]
  exact fun none => List.find?_eq_none.mp none g mem (by simp [may])

/-- A frame of the highest priority starts next (R247). -/
theorem nextTx_highest {d : Dev} {x : Nat} {f : TxFrame} (next : nextTx d x = some f) :
    f ∈ (plane d x).queue ∧ isPaused (plane d x) f.prio = false ∧ mayStart d x f = true ∧
      ∀ g ∈ (plane d x).queue, g.prio < 8 → isPaused (plane d x) g.prio = false → mayStart d x g = true → g.prio ≤ f.prio := by
  rw [nextTx_eq] at next
  obtain ⟨q, low, offered, least⟩ := findSome?_range_least next
  obtain ⟨mem, free, may, prio⟩ := offeredTx_some offered
  refine ⟨mem, free, may, fun g gmem short gfree gmay => ?_⟩
  by_contra higher
  exact offeredTx_isSome gmem gfree gmay (show g.prio = 7 - (7 - g.prio) by omega) (least (7 - g.prio) (by omega))

/-! ### The order of a queue (R265) -/

/-- A frame enters behind the frames that it does not precede. -/
theorem queueFrame_enters {f : TxFrame} {a b : List TxFrame} (ahead : ∀ g ∈ a, laterStream f g = false)
    (behind : ∀ g, b.head? = some g → laterStream f g = true) : queueFrame f (a ++ b) = a ++ f :: b := by
  induction a with
  | nil =>
    cases b with
    | nil => rfl
    | cons g t => exact if_pos (behind g rfl)
  | cons g t ih =>
    have passed : laterStream f g = false := ahead g List.mem_cons_self
    rw [List.cons_append, queueFrame, passed, ih fun r mem => ahead r (List.mem_cons_of_mem _ mem)]
    rfl

/-! ### A frame starts -/

/-- The packet of a stream that starts is counted. -/
def packetCounted (x : Nat) (b : TxBody) (d : Dev) : Dev := match b with
  | .stream t _ _ => bump d (offNetTxsPackets x t)
  | _ => d

/-- A frame goes from its queue to the wire and is counted. -/
def frameSent (x : Nat) (f : TxFrame) (d : Dev) : Dev :=
  perfHit (bump (setPlane d x { plane d x with queue := dropFirst f (plane d x).queue, onWire := some f }) (offNetCnt x 8))
    (perfMac x) 0x11 1

theorem packetCounted_plane (x : Nat) (b : TxBody) (d : Dev) (y : Nat) : plane (packetCounted x b d) y = plane d y := by
  cases b with
  | stream t k pkt => exact plane_bump _ _ _
  | _ => rfl

theorem frameSent_plane (x : Nat) (f : TxFrame) (d : Dev) (y : Nat) : plane (frameSent x f d) y =
    plane (setPlane d x { plane d x with queue := dropFirst f (plane d x).queue, onWire := some f }) y := by
  rw [frameSent, (perfHit_netKept _ _ _ _).plane, plane_bump]

section
variable {d : Dev} {x : Nat}

theorem txStart_starts {f : TxFrame}
    (may : running d (netBlk x) = true ∧ liveB d (offNetStatus x) 0 = true ∧ (plane d x).training = false)
    (next : nextTx d x = some f) : txStart x d = packetCounted x f.body (frameSent x f d) := by
  obtain ⟨runs, link, steady⟩ := may
  have may : (running d (netBlk x) && liveB d (offNetStatus x) 0 && !(plane d x).training) = true := by simp [runs, link, steady]
  simp only [txStart, may, next, if_true]
  rfl

theorem txStart_held (held : ¬(running d (netBlk x) = true ∧ liveB d (offNetStatus x) 0 = true ∧ (plane d x).training = false)) :
    txStart x d = d := by
  rw [txStart]
  exact if_neg (by simpa [and_assoc] using held)

theorem txStart_none (none : nextTx d x = none) : txStart x d = d := by
  simp only [txStart, none, ite_self]

end

/-! ### A plane's queues do not bear on what is built -/

section
variable (d : Dev) (x : Nat) (p : Plane)

@[simp] theorem liveB_setPlane (o i : Nat) : liveB (setPlane d x p) o i = liveB d o i := by
  rw [liveB, setPlane_liveGet, liveB]

@[simp] theorem blockN_setPlane : blockN (setPlane d x p) = blockN d := by
  simp only [blockN, liveB_setPlane]

@[simp] theorem nowIndex_setPlane : nowIndex (setPlane d x p) = nowIndex d := by
  simp only [nowIndex, blockN_setPlane, setPlane_epc]

@[simp] theorem txEntry_setPlane (t : Nat) : txEntry (setPlane d x p) x t = txEntry d x t := by
  simp only [txEntry, setPlane_liveGet]

theorem txPacket_setPlane (t k : Nat) : txPacket (setPlane d x p) x t k = txPacket d x t k := by
  simp only [txPacket, txPayload, shownSample, blockN_setPlane, txEntry_setPlane, setPlane_liveGet, setPlane_path]

theorem txHead_setPlane (t k : Nat) (pkt : RtpPkt) : txHead (setPlane d x p) x (.stream t k pkt) = txHead d x (.stream t k pkt) := by
  simp only [txHead, ownMac, ownAddr, liveF, txEntry_setPlane, setPlane_liveGet]

end

/-! ### A packet is released (R265, R266) -/

/-- Bytes of a plane's transmit buffer in use. -/
def txBytes (p : Plane) : Nat := p.queue.foldl (fun a q => a + q.bytes) 0

/-- The frame of packet k of a stream. -/
def streamFrame (d : Dev) (x t k : Nat) : TxFrame :=
  let ws := txEntry d x t
  let body := TxBody.stream t k (txPacket d x t k)
  ⟨if wbits ws 0 26 26 = 1 then wbits ws 0 25 23 else 0, txFrameBytes (blockN d) ws, body, txHead d x body, releasePeriod d⟩

/-- Packet k of a stream is the last that was released. -/
def sentMarked (x t k : Nat) (d : Dev) : Dev :=
  setPlane d x { plane d x with sent := mapIns (mapDel (plane d x).sent t) t k }

section
variable {d : Dev} {x t : Nat}

theorem txRelease_shut (shut : mediaOpen d x = false) : txRelease x t d = d := by
  rw [txRelease, shut]
  rfl

theorem txRelease_none (none : duePacket d x t = none) : txRelease x t d = d := by
  simp only [txRelease, none, ite_self]

/-- A packet that is due joins its queue, if the buffer holds it. -/
theorem txRelease_due {k : Nat} (opened : mediaOpen d x = true) (due : duePacket d x t = some k) : txRelease x t d =
    let marked := sentMarked x t k d
    if txBytes (plane d x) + (streamFrame d x t k).bytes > 768 * 1024 then bump (bump marked (offNetCnt x 9)) (offNetTxsDropped x t)
    else setPlane marked x { plane marked x with queue := queueFrame (streamFrame d x t k) (plane d x).queue } := by
  rw [txRelease, if_pos opened]
  simp only [due]
  unfold enqueueTx releasePeriod
  simp only [txPacket_setPlane, txHead_setPlane, blockN_setPlane, nowIndex_setPlane, plane_setPlane]
  unfold sentMarked
  rw [plane_setPlane]
  rfl

end

/-! ### A stale frame, a pause that ends, and the supervisor -/

theorem txStale_fresh {d : Dev} {x t : Nat} (fresh : staleFrame d x t = none) : txStale x t d = d := by
  simp only [txStale, fresh]

theorem txStale_stale {d : Dev} {x t : Nat} {f : TxFrame} (stale : staleFrame d x t = some f) : txStale x t d =
    bump (bump (setPlane d x { plane d x with queue := dropFirst f (plane d x).queue }) (offNetCnt x 9)) (offNetTxsDropped x t) := by
  simp only [txStale, stale]

theorem isPaused_iff (p : Plane) (q : Nat) : isPaused p q = true ↔ ∃ t, (q, t) ∈ p.paused := by
  simp [isPaused, List.find?_isSome]

theorem mem_mapDel {α : Type} (m : List (Nat × α)) (k : Nat) (e : Nat × α) : e ∈ mapDel m k ↔ e ∈ m ∧ e.1 ≠ k := by
  rw [mapDel_eq_filter, List.mem_filter, decide_eq_true_eq]

/-- A priority is released alone. -/
theorem isPaused_release (p : Plane) (q r : Nat) :
    isPaused { p with paused := mapDel p.paused q } r = (isPaused p r && decide (r ≠ q)) := by
  rw [Bool.eq_iff_iff, Bool.and_eq_true, decide_eq_true_eq, isPaused_iff, isPaused_iff]
  simp only [mem_mapDel, exists_and_right]

/-- Takes the first frame that the test passes. -/
theorem dropWhere_first {p : Frame → Bool} {pre : List Frame} (f : Frame) (rest : List Frame) (skipped : ∀ g ∈ pre, p g = false)
    (taken : p f = true) : dropWhere p (pre ++ f :: rest) = pre ++ rest := by
  induction pre with
  | nil => exact if_pos taken
  | cons g t ih =>
    have passed : p g = false := skipped g List.mem_cons_self
    rw [List.cons_append, dropWhere, passed, ih fun r mem => skipped r (List.mem_cons_of_mem _ mem)]
    rfl

theorem findSome?_supKind {pre rest : List Frame} {f : Frame} {k : SupKind} (others : ∀ g ∈ pre, supKind g = none)
    (kind : supKind f = some k) : (pre ++ f :: rest).findSome? supKind = some k := by
  rw [List.findSome?_append, List.findSome?_eq_none_iff.mpr others, List.findSome?_cons, kind]
  rfl

theorem supervisorTake_idle {d : Dev} {x : Nat} (none : (plane d x).sup.findSome? supKind = none) : supervisorTake x d = d := by
  simp only [supervisorTake, none]

theorem running_setPlane (d : Dev) (x : Nat) (p : Plane) (b : Nat) : running (setPlane d x p) b = running d b := by
  simp only [running, enabled, spared, fatal, mayRun, actB, liveB, setPlane_actGet, setPlane_liveGet, setPlane_boot]

/-- The supervisor takes the oldest frame of its protocols, and answers it where an answer is due and the plane runs. -/
theorem supervisorTake_takes {d : Dev} {x : Nat} {pre rest : List Frame} {f : Frame} {k : SupKind}
    (queue : (plane d x).sup = pre ++ f :: rest) (others : ∀ g ∈ pre, supKind g = none) (kind : supKind f = some k) :
    supervisorTake x d =
      let took := setPlane d x { plane d x with sup := pre ++ rest }
      if k ≠ .membership ∧ running d (netBlk x) = true then enqueueTx took x ⟨0, 64, .answer k, {}, 0⟩ else took := by
  have left : dropWhere (fun f => (supKind f).isSome) (pre ++ f :: rest) = pre ++ rest :=
    dropWhere_first f rest (fun g mem => by rw [others g mem]; rfl) (by rw [kind]; rfl)
  simp only [supervisorTake, queue, findSome?_supKind others kind, left, running_setPlane]
  rfl

/-- Settles O23: the next frame is the first that a priority offers, from the highest down (`nextTx_highest`), a queue is entered before
later streams (`queueFrame_enters`), and each command does what its lemma above says. -/
theorem transmitQueuesAndPauses : Obligations.TransmitQueuesAndPauses := by
  refine ⟨fun d x f next => nextTx_highest next, fun f a b ahead behind => queueFrame_enters ahead behind, fun s x h => ?start,
    fun s x t h ht => ?release, fun s x t h ht => ?stale, fun s x q h hq => ?expiry, fun s x h => ?supervisor⟩
  case start =>
    have runs {P : Dev → Prop} (hp : P (txStart x s.dev)) : Runs (.txFrameStart x) s P := runs_ranIf rfl (decide_eq_true h) hp
    refine ⟨fun held => runs (txStart_held held), fun none => runs (txStart_none none), fun f may next => runs ?_⟩
    rw [txStart_starts may next]
    dsimp only
    rw [packetCounted_plane, packetCounted_plane, frameSent_plane, frameSent_plane, plane_setPlane, plane_setPlane_twin _ _ h]
    exact ⟨rfl, rfl, rfl⟩
  case release =>
    have runs {P : Dev → Prop} (hp : P (txRelease x t s.dev)) : Runs (.txPacketRelease x t) s P :=
      runs_ranIf rfl (decide_eq_true ⟨h, ht⟩) hp
    refine ⟨fun shut => runs (txRelease_shut shut), fun none => runs (txRelease_none none), fun k opened due => ?_⟩
    exact ⟨fun fits => runs ((txRelease_due opened due).trans (if_neg (Nat.not_lt.mpr fits))),
      fun full => runs ((txRelease_due opened due).trans (if_pos full))⟩
  case stale =>
    have runs {P : Dev → Prop} (hp : P (txStale x t s.dev)) : Runs (.txStale x t) s P := runs_ranIf rfl (decide_eq_true ⟨h, ht⟩) hp
    exact ⟨fun fresh => runs (txStale_fresh fresh), fun f stale => runs (txStale_stale stale)⟩
  case expiry =>
    refine runs_ranIf rfl (decide_eq_true ⟨h, hq⟩) ?_
    rw [pauseExpiry, plane_setPlane]
    exact ⟨by simp [isPaused_release], fun r other => by simp [isPaused_release, other], rfl⟩
  case supervisor =>
    have runs {P : Dev → Prop} (hp : P (supervisorTake x s.dev)) : Runs (.supervisorFrame x) s P := runs_ranIf rfl (decide_eq_true h) hp
    refine ⟨fun none => runs (supervisorTake_idle none), fun pre rest f k queue others kind => ?_⟩
    have takes := supervisorTake_takes queue others kind
    refine ⟨fun asks on => runs (takes.trans (if_pos ⟨asks, on⟩)), fun quiet => runs (takes.trans (if_neg ?_))⟩
    rintro ⟨asks, on⟩
    rcases quiet with member | off
    · exact asks member
    · simp [on] at off

end Sys2Proof.Machine
end

section
/-!
The classification of received frames (R244, R245, R247, R267, R268): Table 11-2 rule by rule for a media port, priority flow control, and
the frames of the management port.
-/
namespace Sys2Proof.Machine

/-! ### Priority flow control (R247) -/

theorem mem_mapIns_iff {α : Type} (m : List (Nat × α)) (k : Nat) (v : α) (e : Nat × α) : e ∈ mapIns m k v ↔ e = (k, v) ∨ e ∈ m := by
  induction m with
  | nil => simp [mapIns]
  | cons p t ih =>
    rw [mapIns]
    split
    · simp
    · simp only [List.mem_cons, ih]
      exact or_left_comm

/-- A pause of t quanta of priority q: one of zero releases it. -/
def pauseTaken (q t : Nat) (p : Plane) : Plane :=
  { p with paused := if t = 0 then mapDel p.paused q else mapIns (mapDel p.paused q) q t }

/-- A pause is one of its priority alone. -/
theorem isPaused_pauseTaken (p : Plane) (q t r : Nat) :
    isPaused (pauseTaken q t p) r = if r = q then decide (t ≠ 0) else isPaused p r := by
  unfold pauseTaken
  by_cases zero : t = 0
  · rw [if_pos zero, isPaused_release]
    by_cases same : r = q <;> simp [same, zero]
  · rw [if_neg zero, Bool.eq_iff_iff, isPaused_iff]
    simp only [mem_mapIns_iff, mem_mapDel, Prod.mk.injEq]
    by_cases same : r = q
    · simp [same, zero]
    · simp [same, isPaused_iff]

/-- What a flow control frame does to priority q. -/
def pfcTake (x : Nat) (en : BitVec 8) (times : List Nat) (d : Dev) (q : Nat) : Dev :=
  if en.toNat.testBit q then
    let counted := bump d (offNetPfcCnt x q)
    if actB counted (offNetCtrl x) (8 + q) then setPlane counted x (pauseTaken q (times.getD q 0 % 65536) (plane counted x))
    else counted
  else d

theorem pfcFrame_eq (x : Nat) (en : BitVec 8) (times : List Nat) (d : Dev) :
    pfcFrame x en times d = (List.range 8).foldl (pfcTake x en times) d := rfl

section
variable (x : Nat) (en : BitVec 8) (times : List Nat) (d : Dev) (q r : Nat)

theorem actB_bump (o p i : Nat) : actB (bump d o) p i = actB d p i := by
  rw [actB, actGet_of_act (bump_act d o), actB]

theorem pfcTake_unnamed (unnamed : ¬en.toNat.testBit q = true) : pfcTake x en times d q = d := if_neg unnamed

theorem pfcTake_named (named : en.toNat.testBit q = true) : pfcTake x en times d q =
    let counted := bump d (offNetPfcCnt x q)
    if actB d (offNetCtrl x) (8 + q) then setPlane counted x (pauseTaken q (times.getD q 0 % 65536) (plane d x)) else counted := by
  rw [pfcTake, if_pos named]
  dsimp only
  rw [actB_bump, plane_bump]

theorem pfcTake_actB (o i : Nat) : actB (pfcTake x en times d q) o i = actB d o i := by
  by_cases named : en.toNat.testBit q = true
  · rw [pfcTake_named _ _ _ _ _ named]
    dsimp only
    split
    · rw [actB, setPlane_actGet, ← actB, actB_bump]
    · rw [actB_bump]
  · rw [pfcTake_unnamed _ _ _ _ _ named]

theorem bump_pfcCnt : liveGet (bump d (offNetPfcCnt x q)) (offNetPfcCnt x r) =
    liveGet d (offNetPfcCnt x r) + if r = q then 1 else 0 := by
  have apart : offNetPfcCnt x r = offNetPfcCnt x q ↔ r = q := by
    unfold offNetPfcCnt
    omega
  rw [liveGet_bump]
  by_cases same : r = q
  · rw [if_pos (apart.mpr same), if_pos same, same]
  · rw [if_neg fun e => same (apart.mp e), if_neg same]
    exact (BitVec.add_zero _).symm

theorem pfcTake_count : liveGet (pfcTake x en times d q) (offNetPfcCnt x r) =
    liveGet d (offNetPfcCnt x r) + if r = q ∧ en.toNat.testBit r = true then 1 else 0 := by
  by_cases named : en.toNat.testBit q = true
  · have both : (r = q ∧ en.toNat.testBit r = true) ↔ r = q := and_iff_left_of_imp fun same => same ▸ named
    rw [pfcTake_named _ _ _ _ _ named, if_congr both rfl rfl, ← bump_pfcCnt]
    dsimp only
    split
    · rw [setPlane_liveGet]
    · rfl
  · have none : ¬(r = q ∧ en.toNat.testBit r = true) := by
      rintro ⟨rfl, on⟩
      exact named on
    rw [pfcTake_unnamed _ _ _ _ _ named, if_neg none]
    exact (BitVec.add_zero _).symm

theorem pfcTake_paused : isPaused (plane (pfcTake x en times d q) x) r =
    if r = q ∧ en.toNat.testBit r = true ∧ actB d (offNetCtrl x) (8 + r) = true then decide (times.getD r 0 % 65536 ≠ 0)
    else isPaused (plane d x) r := by
  by_cases named : en.toNat.testBit q = true
  · rw [pfcTake_named _ _ _ _ _ named]
    dsimp only
    by_cases honoured : actB d (offNetCtrl x) (8 + q) = true
    · rw [if_pos honoured, plane_setPlane, isPaused_pauseTaken]
      by_cases same : r = q
      · subst same
        rw [if_pos rfl, if_pos ⟨rfl, named, honoured⟩]
      · rw [if_neg same, if_neg fun all => same all.1]
    · have none : ¬(r = q ∧ en.toNat.testBit r = true ∧ actB d (offNetCtrl x) (8 + r) = true) := by
        rintro ⟨rfl, -, on⟩
        exact honoured on
      rw [if_neg honoured, if_neg none, plane_bump]
  · have none : ¬(r = q ∧ en.toNat.testBit r = true ∧ actB d (offNetCtrl x) (8 + r) = true) := by
      rintro ⟨rfl, on, -⟩
      exact named on
    rw [pfcTake_unnamed _ _ _ _ _ named, if_neg none]

end

section
variable (x : Nat) (en : BitVec 8) (times : List Nat)

/-- A flow control frame counts every priority that it names, and pauses or releases those that are honoured. -/
theorem foldl_pfcTake (r : Nat) : ∀ (l : List Nat), l.Nodup → ∀ d : Dev,
    liveGet (l.foldl (pfcTake x en times) d) (offNetPfcCnt x r) =
      liveGet d (offNetPfcCnt x r) + (if r ∈ l ∧ en.toNat.testBit r = true then 1 else 0) ∧
    isPaused (plane (l.foldl (pfcTake x en times) d) x) r =
      if r ∈ l ∧ en.toNat.testBit r = true ∧ actB d (offNetCtrl x) (8 + r) = true then decide (times.getD r 0 % 65536 ≠ 0)
      else isPaused (plane d x) r
  | [], _, d => by simp
  | q :: t, distinct, d => by
    obtain ⟨fresh, rest⟩ := List.nodup_cons.mp distinct
    obtain ⟨count, paused⟩ := foldl_pfcTake r t rest (pfcTake x en times d q)
    rw [List.foldl_cons, count, paused, pfcTake_count, pfcTake_paused, pfcTake_actB]
    by_cases same : r = q
    · subst same
      simp [fresh]
    · simp [same]

theorem pfcFrame_takes (d : Dev) {r : Nat} (h : r < 8) :
    liveGet (pfcFrame x en times d) (offNetPfcCnt x r) =
      liveGet d (offNetPfcCnt x r) + (if en.toNat.testBit r = true then 1 else 0) ∧
    isPaused (plane (pfcFrame x en times d) x) r =
      if en.toNat.testBit r = true ∧ actB d (offNetCtrl x) (8 + r) = true then decide (times.getD r 0 % 65536 ≠ 0)
      else isPaused (plane d x) r := by
  have taken := foldl_pfcTake x en times r (List.range 8) List.nodup_range d
  rw [pfcFrame_eq]
  simpa only [List.mem_range, h, true_and] using taken

end

/-! ### The first rules of Table 11-2 -/

/-- A received frame is counted by PERF and in the load of its plane (R249, R417). -/
def frameSeen (x len : Nat) (d : Dev) : Dev :=
  let seen := perfHit d (perfMac x) 0x10 1
  setPlane seen x { plane seen x with rxBits := (plane seen x).rxBits + wireBits len }

theorem frameSeen_actB (x len : Nat) (d : Dev) (o i : Nat) : actB (frameSeen x len d) o i = actB d o i := by
  rw [frameSeen, actB, setPlane_actGet, ← actB, (perfHit_netKept _ _ _ _).actB]

theorem frameSeen_paused (x len : Nat) (d : Dev) (q : Nat) : isPaused (plane (frameSeen x len d) x) q = isPaused (plane d x) q := by
  rw [frameSeen, plane_setPlane, (perfHit_netKept _ _ _ _).plane]
  rfl

/-- No entry of NETx.VLAN accepts the tag of a frame (R245). -/
def Mistagged (d : Dev) (x : Nat) (f : Frame) : Prop := ∃ v, f.vid = some v ∧ v ≠ 0 ∧
  ∀ i < 16, ¬(actB d (offNetVlan x i) 15 = true ∧ actF d (offNetVlan x i) 11 0 = v)

theorem vidOk_iff (d : Dev) (x : Nat) (f : Frame) : vidOk d x f = true ↔ ¬Mistagged d x f := by
  unfold vidOk Mistagged
  rcases f.vid with _ | _ | v
  · simp
  · simp
  · simp [List.any_eq_true]

/-- A frame that is neither broken nor oversize, by orders 3 to 10 of Table 11-2. -/
def frameSound (x : Nat) (f : Frame) (d : Dev) : Dev :=
  match f.body with
  | .pfc en times => pfcFrame x en times d
  | .pause => bump d (offNetCnt x 3)
  | _ => if vidOk d x f then frameBody x f d else bump d (offNetCnt x 4)

/-- A received frame by the first rule of Table 11-2 that fits. -/
def frameJudged (x : Nat) (f : Frame) (d : Dev) : Dev :=
  if !f.fcsOk then bump d (offNetCnt x 1) else if f.len > 1522 then bump d (offNetCnt x 2) else frameSound x f d

section
variable {d : Dev} {x : Nat} {f : Frame}

theorem mediaFrame_off (off : ¬(running d (netBlk x) = true ∧ liveB d (offNetStatus x) 0 = true)) : mediaFrame x f d = d :=
  if_neg (by rwa [Bool.and_eq_true])

theorem mediaFrame_on (up : running d (netBlk x) = true ∧ liveB d (offNetStatus x) 0 = true) :
    mediaFrame x f d = frameJudged x f (frameSeen x f.len d) := if_pos (by rwa [Bool.and_eq_true])

theorem frameJudged_badFcs (bad : f.fcsOk = false) : frameJudged x f d = bump d (offNetCnt x 1) := if_pos (by rw [bad]; rfl)

section
variable (fcs : f.fcsOk = true)
include fcs

theorem frameJudged_long (long : 1522 < f.len) : frameJudged x f d = bump d (offNetCnt x 2) := by
  rw [frameJudged, fcs]
  exact if_pos long

variable (short : f.len ≤ 1522)
include short

theorem frameJudged_sound : frameJudged x f d = frameSound x f d := by
  rw [frameJudged, fcs]
  exact if_neg (Nat.not_lt.mpr short)

theorem frameJudged_pfc {en : BitVec 8} {times : List Nat} (body : f.body = .pfc en times) :
    frameJudged x f d = pfcFrame x en times d := by
  rw [frameJudged_sound fcs short, frameSound, body]

theorem frameJudged_pause (body : f.body = .pause) : frameJudged x f d = bump d (offNetCnt x 3) := by
  rw [frameJudged_sound fcs short, frameSound, body]

variable (pfc : ∀ en times, f.body ≠ .pfc en times) (pause : f.body ≠ .pause)
include pfc pause

/-- A frame that is no pause is judged by its tag, then by what it carries. -/
theorem frameJudged_data : frameJudged x f d = if vidOk d x f then frameBody x f d else bump d (offNetCnt x 4) := by
  rw [frameJudged_sound fcs short, frameSound]
  cases body : f.body with
  | pfc en times => exact absurd body (pfc en times)
  | pause => exact absurd body pause
  | _ => rfl

theorem frameJudged_mistagged (tagged : Mistagged d x f) : frameJudged x f d = bump d (offNetCnt x 4) := by
  rw [frameJudged_data fcs short pfc pause, if_neg fun ok => (vidOk_iff _ _ _).mp ok tagged]

theorem frameJudged_body (tagged : ¬Mistagged d x f) : frameJudged x f d = frameBody x f d := by
  rw [frameJudged_data fcs short pfc pause, if_pos ((vidOk_iff _ _ _).mpr tagged)]

end
end

/-! ### What a frame carries -/

section
variable {d : Dev} {x : Nat} {f : Frame}

/-- A frame joins the supervisor's queue and is counted, if the queue holds it (R244). -/
theorem toSupervisor_fits (fits : supBytes (plane d x) + f.len ≤ 128 * 1024) : toSupervisor x f d =
    setPlane (bump d (offNetCnt x 0)) x { plane d x with sup := (plane d x).sup ++ [f] } := by
  unfold toSupervisor supEnqueue
  simp only [plane_bump, gt_iff_lt, Nat.not_lt.mpr fits, if_false]

theorem toSupervisor_full (full : 128 * 1024 < supBytes (plane d x) + f.len) : toSupervisor x f d =
    perfHit (bump d (offNetCnt x 7)) (perfMac x) 0x12 1 := by
  unfold toSupervisor supEnqueue
  simp only [gt_iff_lt, full, if_true]

/-- A frame that nothing takes. -/
theorem frameBody_untaken (body : f.body = .other ∨ f.body = .ipFragment) : frameBody x f d = bump d (offNetCnt x 4) := by
  rcases body with body | body <;> rw [frameBody, body]

theorem frameBody_ipChecksum (body : f.body = .ipBadChecksum) : frameBody x f d = bump d (offNetCnt x 5) := by
  rw [frameBody, body]

theorem frameBody_udpChecksum (body : f.body = .udpBadChecksum) : frameBody x f d = bump d (offNetCnt x 6) := by
  rw [frameBody, body]

section
variable {src dst : IpAddr} {port : Nat} {load : UdpLoad} (body : f.body = .udp src dst port load)
include body

theorem frameBody_stream {k : Nat} (stream : rxMatch d x src dst port = some k) :
    frameBody x f d = streamLoad x k load (bump d (offNetCnt x 0)) := by
  simp only [frameBody, body, stream]

variable (unmatched : rxMatch d x src dst port = none)
include unmatched

theorem frameBody_ptp {msg : PtpMsg} (ptp : load = .ptp msg) (event : port = 319 ∨ port = 320) :
    frameBody x f d = ptpReceive x msg src (bump d (offNetCnt x 0)) := by
  simp only [frameBody, body, unmatched, ptp, event, if_true]

/-- A datagram that no stream takes and that is no PTP message is a management datagram, or unmatched. -/
theorem frameBody_managed (ptp : ∀ msg, load = .ptp msg → port ≠ 319 ∧ port ≠ 320) : frameBody x f d =
    if actB d (offNetCtrl x) 4 = true ∧ port = mdpPort d ∧ ipToPlane d x dst = true then toSupervisor x f d
    else bump d (offNetCnt x 4) := by
  simp only [frameBody, body, unmatched]
  have mine : (actB d (offNetCtrl x) 4 && decide (port = mdpPort d) && ipToPlane d x dst) = true ↔
      actB d (offNetCtrl x) 4 = true ∧ port = mdpPort d ∧ ipToPlane d x dst = true := by
    simp [and_assoc]
  cases load with
  | ptp msg =>
    obtain ⟨event, general⟩ := ptp msg rfl
    exact (if_neg (by simp [event, general])).trans (if_congr mine rfl rfl)
  | _ => exact if_congr mine rfl rfl

end

theorem frameBody_supervisor {k : SupKind} {mac : Nat} {dst : Option IpAddr} (body : f.body = .supervisor k mac dst) :
    frameBody x f d = if supToPlane d x mac dst = true then toSupervisor x f d else bump d (offNetCnt x 4) := by
  simp only [frameBody, body]

end

/-! ### The management port (R267) -/

/-- What the management port does with a frame that is neither broken nor oversize nor tagged. -/
def mgtBody (f : Frame) (d : Dev) : Dev :=
  match f.body with
  | .ipBadChecksum | .udpBadChecksum => bump d (offMgtCnt 2)
  | .supervisor k mac dst =>
    if k ≠ .membership ∧ supToMgt d mac dst = true then mgtSent (bump d (offMgtCnt 0)) else bump d (offMgtCnt 3)
  | .udp _ dst port _ => if port = mdpPort d ∧ ipToMgt d dst = true then bump d (offMgtCnt 0) else bump d (offMgtCnt 3)
  | _ => bump d (offMgtCnt 3)

/-- A frame of the management port by the first rule that fits. -/
def mgtJudged (f : Frame) (d : Dev) : Dev :=
  if !f.fcsOk then bump d (offMgtCnt 1)
  else if f.len > 1522 ∨ f.vid.isSome = true then bump d (offMgtCnt 3) else mgtBody f d

section
variable {d : Dev} {f : Frame}

theorem mgtFrame_off (off : ¬(running d blkMgt = true ∧ liveB d offMgtStatus 0 = true)) : mgtFrame f d = d :=
  if_neg (by rwa [Bool.and_eq_true])

theorem mgtFrame_on (up : running d blkMgt = true ∧ liveB d offMgtStatus 0 = true) :
    mgtFrame f d = mgtJudged f (perfHit d 78 0x10 1) := if_pos (by rwa [Bool.and_eq_true])

theorem mgtJudged_badFcs (bad : f.fcsOk = false) : mgtJudged f d = bump d (offMgtCnt 1) := if_pos (by rw [bad]; rfl)

/-- The management port drops an oversize frame and a tagged one (log entry 100). -/
theorem mgtJudged_dropped (fcs : f.fcsOk = true) (dropped : 1522 < f.len ∨ f.vid ≠ none) :
    mgtJudged f d = bump d (offMgtCnt 3) := by
  rw [mgtJudged, fcs]
  exact if_pos (dropped.imp_right Option.isSome_iff_ne_none.mpr)

theorem mgtJudged_plain (plain : f.fcsOk = true ∧ f.len ≤ 1522 ∧ f.vid = none) : mgtJudged f d = mgtBody f d := by
  obtain ⟨fcs, short, untagged⟩ := plain
  rw [mgtJudged, fcs, untagged]
  exact if_neg (show ¬(f.len > 1522 ∨ (none : Option Nat).isSome = true) by simpa using short)

theorem mgtBody_checksum (body : f.body = .ipBadChecksum ∨ f.body = .udpBadChecksum) : mgtBody f d = bump d (offMgtCnt 2) := by
  rcases body with body | body <;> rw [mgtBody, body]

theorem mgtBody_other (body : (∃ en times, f.body = .pfc en times) ∨ f.body = .pause ∨ f.body = .ipFragment ∨ f.body = .other) :
    mgtBody f d = bump d (offMgtCnt 3) := by
  rcases body with ⟨en, times, body⟩ | body | body | body <;> rw [mgtBody, body]

theorem mgtBody_udp {src dst : IpAddr} {port : Nat} {load : UdpLoad} (body : f.body = .udp src dst port load) :
    mgtBody f d = bump d (offMgtCnt (if port = mdpPort d ∧ ipToMgt d dst = true then 0 else 3)) := by
  rw [mgtBody, body]
  exact (apply_ite (fun k => bump d (offMgtCnt k)) _ _ _).symm

theorem mgtBody_supervisor {k : SupKind} {mac : Nat} {dst : Option IpAddr} (body : f.body = .supervisor k mac dst) :
    mgtBody f d = if k ≠ .membership ∧ supToMgt d mac dst = true then mgtSent (bump d (offMgtCnt 0)) else bump d (offMgtCnt 3) := by
  rw [mgtBody, body]

end

/-! ### The commands -/

/-- A media port receives a frame. -/
theorem runs_mediaFrameRx {s : State} {x : Nat} {f : Frame} {P : Dev → Prop} (h : x < 2)
    (up : running s.dev (netBlk x) = true ∧ liveB s.dev (offNetStatus x) 0 = true)
    (hp : P (frameJudged x f (frameSeen x f.len s.dev))) : Runs (.mediaFrameRx x f) s P :=
  runs_ranIf (f := mediaFrame x f) rfl (decide_eq_true h) (by rw [mediaFrame_on up]; exact hp)

/-- A media port receives a frame that only what it carries decides about. -/
theorem runs_mediaFrameRx_body {s : State} {x : Nat} {f : Frame} {P : Dev → Prop} (h : x < 2)
    (up : running s.dev (netBlk x) = true ∧ liveB s.dev (offNetStatus x) 0 = true)
    (plain : f.fcsOk = true ∧ f.len ≤ 1522 ∧ ¬Mistagged (frameSeen x f.len s.dev) x f)
    (pfc : ∀ en times, f.body ≠ .pfc en times) (pause : f.body ≠ .pause)
    (hp : P (frameBody x f (frameSeen x f.len s.dev))) : Runs (.mediaFrameRx x f) s P := by
  obtain ⟨fcs, short, tagged⟩ := plain
  exact runs_mediaFrameRx h up (by rw [frameJudged_body fcs short pfc pause tagged]; exact hp)

/-- The management port receives a frame. -/
theorem runs_mgtFrameRx {s : State} {f : Frame} {P : Dev → Prop}
    (up : running s.dev blkMgt = true ∧ liveB s.dev offMgtStatus 0 = true)
    (hp : P (mgtJudged f (perfHit s.dev 78 0x10 1))) : Runs (.mgtFrameRx f) s P :=
  runs_ran (f := mgtFrame f) rfl (by rw [mgtFrame_on up]; exact hp)

/-- Settles O24: each clause is the rule of Table 11-2 that its hypotheses name. -/
theorem receivedFramesAreClassified : Obligations.ReceivedFramesAreClassified := by
  refine ⟨fun s x f h => ?media, fun s f => ?management⟩
  case media =>
    intro seen got up tagged plain
    refine ⟨fun off => ?off, fun on bad => ?fcs, fun on fcs long => ?long, fun en times on fcs short body => ?pfc,
      fun on fcs short body => ?pause, fun on fcs short mistagged pfc pause => ?tag, fun on sound body => ?other,
      fun on sound body => ?ip, fun on sound body => ?udp, fun src dst port load k on sound body stream => ?stream,
      fun src dst port msg on sound body none event => ?ptp, fun src dst port load on sound body none ptp => ?managed,
      fun k mac dst on sound body => ?supervisor⟩
    case off => exact runs_ranIf (f := mediaFrame x f) rfl (decide_eq_true h) (mediaFrame_off off)
    case fcs => exact runs_mediaFrameRx h on (frameJudged_badFcs bad)
    case long => exact runs_mediaFrameRx h on (frameJudged_long fcs long)
    case pfc =>
      refine runs_mediaFrameRx h on ?_
      rw [frameJudged_pfc fcs short body]
      refine ⟨fun q hq => (pfcFrame_takes x en times _ hq).1, fun q hq => ?_⟩
      rw [(pfcFrame_takes x en times _ hq).2, frameSeen_actB, frameSeen_paused]
    case pause => exact runs_mediaFrameRx h on (frameJudged_pause fcs short body)
    case tag => exact runs_mediaFrameRx h on (frameJudged_mistagged fcs short pfc pause mistagged)
    case other =>
      refine runs_mediaFrameRx_body h on sound ?_ ?_ (frameBody_untaken body) <;> rcases body with body | body <;> simp [body]
    case ip => exact runs_mediaFrameRx_body h on sound (by simp [body]) (by simp [body]) (frameBody_ipChecksum body)
    case udp => exact runs_mediaFrameRx_body h on sound (by simp [body]) (by simp [body]) (frameBody_udpChecksum body)
    case stream =>
      exact runs_mediaFrameRx_body h on sound (by simp [body]) (by simp [body]) (frameBody_stream body stream)
    case ptp =>
      exact runs_mediaFrameRx_body h on sound (by simp [body]) (by simp [body]) (frameBody_ptp body none rfl event)
    case managed =>
      intro mine
      have runs {P : Dev → Prop} (hp : P (frameBody x f got)) : Runs (.mediaFrameRx x f) s P :=
        runs_mediaFrameRx_body h on sound (by simp [body]) (by simp [body]) hp
      have managed := frameBody_managed (d := got) body none ptp
      exact ⟨fun refused => runs (managed.trans (if_neg refused)),
        fun ours fits => runs ((managed.trans (if_pos ours)).trans (toSupervisor_fits fits)),
        fun ours full => runs ((managed.trans (if_pos ours)).trans (toSupervisor_full full))⟩
    case supervisor =>
      have runs {P : Dev → Prop} (hp : P (frameBody x f got)) : Runs (.mediaFrameRx x f) s P :=
        runs_mediaFrameRx_body h on sound (by simp [body]) (by simp [body]) hp
      have judged := frameBody_supervisor (d := got) (x := x) body
      exact ⟨fun refused => runs (judged.trans (if_neg (by simp [refused]))),
        fun ours fits => runs ((judged.trans (if_pos ours)).trans (toSupervisor_fits fits)),
        fun ours full => runs ((judged.trans (if_pos ours)).trans (toSupervisor_full full))⟩
  case management =>
    intro seen up plain
    refine ⟨fun off => runs_ran (f := mgtFrame f) rfl (mgtFrame_off off), fun on bad => runs_mgtFrameRx on (mgtJudged_badFcs bad),
      fun on sound body => runs_mgtFrameRx on ((mgtJudged_plain sound).trans (mgtBody_checksum body)),
      fun on fcs dropped => runs_mgtFrameRx on (mgtJudged_dropped fcs dropped),
      fun on sound body => runs_mgtFrameRx on ((mgtJudged_plain sound).trans (mgtBody_other body)),
      fun src dst port load on sound body => runs_mgtFrameRx on ((mgtJudged_plain sound).trans (mgtBody_udp body)),
      fun k mac dst on sound body => runs_mgtFrameRx on ((mgtJudged_plain sound).trans (mgtBody_supervisor body))⟩

end Sys2Proof.Machine
end

section
/-!
What a PTP instance sends and what its timeouts do (R271 to R273, R275, R276, R278, R280): the messages of a slave and of a master, the
stamp of a departing frame, and the masters that an instance has heard of.
-/
namespace Sys2Proof.Machine

/-! ### The instances -/

theorem ptp_of_units {a b : Dev} (ptpi : b.ptpi = a.ptpi) (ptpo : b.ptpo = a.ptpo) (x : Nat) : ptp b x = ptp a x := by
  unfold ptp
  rw [ptpi, ptpo]

theorem ptp_setPtp_twin (d : Dev) {x : Nat} (p : PtpInst) (h : x < 2) : ptp (setPtp d x p) (1 - x) = ptp d (1 - x) :=
  ptp_setPtp_other d p fun same => by
    have zero : x = 0 ↔ 1 - x = 0 := iff_of_eq same
    omega

theorem ptp_setPlane (d : Dev) (x : Nat) (p : Plane) (y : Nat) : ptp (setPlane d x p) y = ptp d y :=
  ptp_of_units (setPlane_ptpi d x p) (setPlane_ptpo d x p) y

theorem ptp_bump (d : Dev) (o y : Nat) : ptp (bump d o) y = ptp d y := ptp_of_units (bump_ptpi d o) (bump_ptpo d o) y

/-- A frame that enters a queue, or finds it full, leaves the instances. -/
theorem ptp_enqueueTx (d : Dev) (x : Nat) (f : TxFrame) (y : Nat) : ptp (enqueueTx d x f) y = ptp d y := by
  unfold enqueueTx
  extract_lets entered queued p full
  have counted : ptp full y = ptp d y := ptp_bump d _ y
  split
  · split
    · rw [ptp_bump, counted]
    · exact counted
  · exact ptp_setPlane d x _ y

theorem ptp_ptpSend (d : Dev) (x body : Nat) (m : PtpMsg) (y : Nat) : ptp (ptpSend d x body m) y = ptp d y := ptp_enqueueTx d x _ y

/-- A message counted in counter k and sent leaves instance x as it was just set, and the other one. -/
theorem ptp_sent (d : Dev) {x : Nat} (h : x < 2) (p : PtpInst) (k body : Nat) (m : PtpMsg) :
    ptp (ptpSend (bump (setPtp d x p) (offPtpCnt x k)) x body m) x = p ∧
      ptp (ptpSend (bump (setPtp d x p) (offPtpCnt x k)) x body m) (1 - x) = ptp d (1 - x) := by
  rw [ptp_ptpSend, ptp_ptpSend, ptp_bump, ptp_bump]
  exact ⟨ptp_setPtp d p, ptp_setPtp_twin d p h⟩

/-! ### What registers alone make -/

section
variable (d : Dev) (x y : Nat) (p : PtpInst)

theorem ptpOwn_setPtp (kind seq : Nat) (log : Int) : ptpOwn (setPtp d x p) y kind seq log = ptpOwn d y kind seq log := by
  simp only [ptpOwn, portIdentity, ownMac, liveF, setPtp_liveGet]

theorem ptpIntervals_setPtp : ptpIntervals (setPtp d x p) y = ptpIntervals d y := by
  simp only [ptpIntervals, ptpByte, liveB, actF, setPtp_liveGet, setPtp_actGet]

theorem ptpRow_setPlane (q : Plane) : ptpRow (setPlane d x q) y = ptpRow d y := by
  simp only [ptpRow, liveB_setPlane]

end

/-! ### Messages that leave (R275, R278) -/

section
variable {d : Dev} {x : Nat}

/-- The exchange that a departing Delay_Req opens: an earlier transmit stamp is none of its own. -/
def exchangeOpened (p : PtpInst) : PtpInst := { p with req := some p.seqs.1, t3 := none, seqs := ((p.seqs.1 + 1) % 65536, p.seqs.2) }

theorem delayReqTx_follows (on : running d (ptpBlk x) = true ∧ (portStateOf d x = 8 ∨ portStateOf d x = 9)) :
    delayReqTx x d = ptpSend (bump (setPtp d x (exchangeOpened (ptp d x))) (offPtpCnt x 2)) x 46 (ptpOwn d x 1 (ptp d x).seqs.1 127) := by
  rw [← ptpOwn_setPtp d x x (exchangeOpened (ptp d x))]
  exact if_pos (by simp [on])

theorem delayReqTx_idle (off : ¬(running d (ptpBlk x) = true ∧ (portStateOf d x = 8 ∨ portStateOf d x = 9))) : delayReqTx x d = d :=
  if_neg (by simpa using off)

/-- The instance after a Sync. -/
def syncNumbered (p : PtpInst) : PtpInst := { p with seqs := (p.seqs.1, (p.seqs.2.1 + 1) % 65536, p.seqs.2.2) }

theorem syncTx_masters (on : running d (ptpBlk x) = true ∧ portStateOf d x = 6 ∧ mayMaster d x = true) :
    syncTx x d = ptpSend (bump (setPtp d x (syncNumbered (ptp d x))) (offPtpCnt x 8)) x 46
      (ptpOwn d x 0 (ptp d x).seqs.2.1 ((ptpIntervals d x).getD 0 (0, true)).1) := by
  rw [← ptpOwn_setPtp d x x (syncNumbered (ptp d x)), ← ptpIntervals_setPtp d x x (syncNumbered (ptp d x))]
  exact if_pos (by simp [on])

theorem syncTx_idle (off : ¬(running d (ptpBlk x) = true ∧ portStateOf d x = 6 ∧ mayMaster d x = true)) : syncTx x d = d :=
  if_neg (by simpa [and_assoc] using off)

/-- The instance after an Announce. -/
def announceNumbered (p : PtpInst) : PtpInst := { p with seqs := (p.seqs.1, p.seqs.2.1, (p.seqs.2.2 + 1) % 65536) }

/-- The Announce of an instance in MASTER, with the data set o. -/
def announceMsg (d : Dev) (x seq : Nat) (o : PtpMaster) : PtpMsg :=
  { ptpOwn d x 11 seq ((ptpIntervals d x).getD 1 (0, true)).1 with
    gmId := o.gmId, priority1 := o.priority1, clockClass := o.clockClass, clockAccuracy := o.accuracy,
    variance := o.variance, priority2 := o.priority2, stepsRemoved := o.steps, utcOffset := o.utc }

theorem announceTx_masters {o : PtpMaster} (on : running d (ptpBlk x) = true ∧ portStateOf d x = 6 ∧ mayMaster d x = true)
    (own : ownMaster d x = some o) :
    announceTx x d = ptpSend (bump (setPtp d x (announceNumbered (ptp d x))) (offPtpCnt x 9)) x 64
      (announceMsg (setPtp d x (announceNumbered (ptp d x))) x (ptp d x).seqs.2.2 o) := by
  obtain ⟨runs, master, may⟩ := on
  simp only [announceTx, runs, master, may, own, decide_true, Bool.and_self, if_true]
  rfl

/-- An instance that may no longer act as master decides anew. -/
theorem announceTx_leaves (on : running d (ptpBlk x) = true ∧ portStateOf d x = 6 ∧ mayMaster d x = false) :
    announceTx x d = ptpReport (bmca d x) x := by
  obtain ⟨runs, master, may⟩ := on
  simp only [announceTx, runs, master, may, decide_true, Bool.and_self, if_true]

theorem announceTx_idle (off : ¬(running d (ptpBlk x) = true ∧ portStateOf d x = 6)) : announceTx x d = d :=
  if_neg (by simpa using off)

end

/-! ### The stamp of a departing frame (R276, R278) -/

/-- The media time of a whole number of ns within its range. -/
theorem mediaOf_ns {n : Int} (nonneg : 0 ≤ n) (low : n < 1000000000 * 2 ^ 48) :
    ((mediaOf (n * 65536)).sec.toNat : Int) = n / 1000000000 ∧ ((mediaOf (n * 65536)).ns.toNat : Int) = n % 1000000000 := by
  have sec : n * 65536 / 65536000000000 = n / 1000000000 := by omega
  have ns : n * 65536 / 65536 = n := by omega
  simp only [mediaOf, sec, ns, BitVec.toNat_ofInt]
  omega

/-- A timestamp holds whole ns, rounded to nearest even (R4). -/
theorem stampOf_eq {t : Int} (nonneg : 0 ≤ t) (low : rne t 16 < 1000000000 * 2 ^ 48) : stampOf t = rne t 16 * 16 := by
  have whole : 0 ≤ rne t 16 := rne_mono (den := 16) (by decide) nonneg
  obtain ⟨sec, ns⟩ := mediaOf_ns whole low
  rw [stampOf]
  push_cast
  rw [sec, ns]
  omega

section
variable {f : TxFrame} {m : PtpMsg} {fix seq : Nat} {t : Int}

theorem stampFrame_event (body : f.body = .ptp m fix) (event : m.kind ≤ 1) (own : m.seq = seq) :
    stampFrame seq t f = { f with body := .ptp { m with time := stampOf t } (checksumFix (stampOf t)) } := by
  simp only [stampFrame, body, event, own, and_self, if_true]

theorem stampFrame_other (body : f.body = .ptp m fix) (other : 1 < m.kind ∨ m.seq ≠ seq) : stampFrame seq t f = f := by
  have : ¬(m.kind ≤ 1 ∧ m.seq = seq) := by omega
  simp only [stampFrame, body, this, if_false]

end

/-- The frames on the wire of plane x when the stamp t of sequence number seq returns. -/
def wireStamped (d : Dev) (x seq : Nat) (t : Int) : Dev :=
  setPlane d x { plane d x with onWire := (plane d x).onWire.map (stampFrame seq t) }

theorem txStamp_eq (x seq : Nat) (captured : Int) (d : Dev) :
    txStamp x seq captured d = if (ptp d x).req = some seq then
      setPtp (wireStamped d x seq (txTime d x captured)) x { ptp d x with t3 := some (txTime d x captured, ptpRow d x) }
    else wireStamped d x seq (txTime d x captured) := by
  simp only [txStamp, wireStamped, ptp_setPlane, ptpRow_setPlane]

/-! ### The masters heard of (R271) -/

/-- b has the other instance of a, and instance x has heard of the same masters. -/
structure MastersKept (x : Nat) (a b : Dev) : Prop where
  /-- The other instance. -/
  twin : ptp b (1 - x) = ptp a (1 - x)
  /-- The masters. -/
  masters : (ptp b x).masters = (ptp a x).masters

section
variable {x : Nat} {a b c : Dev}

theorem MastersKept.refl (x : Nat) (a : Dev) : MastersKept x a a := ⟨rfl, rfl⟩

theorem MastersKept.trans (h : MastersKept x a b) (k : MastersKept x b c) : MastersKept x a c :=
  ⟨k.twin.trans h.twin, k.masters.trans h.masters⟩

/-- A change beside the instances. -/
theorem MastersKept.other (h : MastersKept x a b) (ptpi : c.ptpi = b.ptpi) (ptpo : c.ptpo = b.ptpo) : MastersKept x a c :=
  h.trans ⟨ptp_of_units ptpi ptpo _, by rw [ptp_of_units ptpi ptpo]⟩

theorem MastersKept.liveSet (h : MastersKept x a b) (o : Nat) (w : Word) : MastersKept x a (liveSet b o w) :=
  h.other (liveSet_ptpi b o w) (liveSet_ptpo b o w)

theorem MastersKept.liveSetF (h : MastersKept x a b) (o hi lo v : Nat) : MastersKept x a (liveSetF b o hi lo v) := h.liveSet o _

theorem MastersKept.liveSetB (h : MastersKept x a b) (o i : Nat) (v : Bool) : MastersKept x a (liveSetB b o i v) := h.liveSet o _

theorem MastersKept.bump (h : MastersKept x a b) (o : Nat) : MastersKept x a (bump b o) := h.liveSet o _

theorem MastersKept.setPtp (h : MastersKept x a b) (hx : x < 2) (p : PtpInst) (same : p.masters = (ptp b x).masters) :
    MastersKept x a (setPtp b x p) :=
  h.trans ⟨ptp_setPtp_twin b p hx, by rw [ptp_setPtp, same]⟩

theorem ptpReport_mastersKept (d : Dev) (hx : x < 2) : MastersKept x d (ptpReport d x) :=
  ((((((MastersKept.refl x d).setPtp hx _ (by rfl)).liveSetF _ _ _ _).liveSetB _ _ _).liveSet _ _).liveSet _ _).liveSet _ _

theorem MastersKept.ite {p : Prop} [Decidable p] (h : MastersKept x a b) (k : MastersKept x a c) :
    MastersKept x a (if p then b else c) := by
  split <;> assumption

/-- The best master algorithm chooses among the masters and forgets none. -/
theorem bmca_mastersKept (d : Dev) (hx : x < 2) : MastersKept x d (bmca d x) := by
  have alone (v : Nat) : MastersKept x d (setPortStateOf (setPtp d x { dropExchange (ptp d x) with parent := none }) x v) :=
    ((MastersKept.refl x d).setPtp hx _ (by rfl)).liveSetF _ _ _ _
  unfold bmca
  refine .ite (alone 6) ?_
  cases bestMaster (ptp d x).masters with
  | none => exact alone 4
  | some b =>
    have noted (p q : Prop) [Decidable p] [Decidable q] : MastersKept x d
        (if p then d else if q then d else liveSetB (bump d (offPtpCnt x 7)) (offPtpStatus x) 7 true) :=
      .ite (.refl x d) (.ite (.refl x d) (((MastersKept.refl x d).bump _).liveSetB _ _ _))
    have slave {e : Dev} (p : Prop) [Decidable p] (shown : MastersKept x d e) :
        MastersKept x d (if p then e else setPortStateOf e x 8) := shown.ite (shown.liveSetF _ _ _ _)
    refine slave _ (((((noted _ _).setPtp hx _ ?_).liveSet _ _).liveSet _ _).liveSet _ _)
    rw [(noted _ _).masters]
    split_ifs <;> rfl

end

/-! ### Timeouts (R271, R280) -/

section
variable {d : Dev} {x : Nat}

/-- The instance without a Sync at hand. -/
def syncMissed (p : PtpInst) : PtpInst := { p with fresh := false, sync := none }

theorem syncTimeout_follows (on : running d (ptpBlk x) = true ∧ (portStateOf d x = 8 ∨ portStateOf d x = 9)) :
    syncTimeout x d = servoCheck (ptpReport (setPtp (bump d (offPtpCnt x 6)) x (syncMissed (ptp d x))) x) :=
  if_pos (by simp [on])

theorem syncTimeout_idle (off : ¬(running d (ptpBlk x) = true ∧ (portStateOf d x = 8 ∨ portStateOf d x = 9))) : syncTimeout x d = d :=
  if_neg (by simpa using off)

/-- The instance without its parent. -/
def parentForgotten (p : PtpInst) : PtpInst :=
  { p with masters := p.masters.filter fun m => decide (p.parent ≠ some m.source), parent := none }

theorem announceTimeout_runs (on : running d (ptpBlk x) = true) :
    announceTimeout x d = ptpReport (bmca (setPtp d x (parentForgotten (ptp d x))) x) x := if_pos on

theorem announceTimeout_idle (off : ¬running d (ptpBlk x) = true) : announceTimeout x d = d := if_neg off

/-- A decision of instance x and its report. -/
theorem decided_mastersKept (d : Dev) (hx : x < 2) : MastersKept x d (ptpReport (bmca d x) x) :=
  (bmca_mastersKept d hx).trans (ptpReport_mastersKept _ hx)

end

/-- Settles O26: each command is the case of its function that the hypotheses name; that the other instance stays is `ptp_sent` for a
message and `decided_mastersKept` for a decision. -/
theorem ptpMessagesAndTimeouts : Obligations.PtpMessagesAndTimeouts := by
  intro s x h p follows runs
  have unit := decide_eq_true h
  refine ⟨fun on => ?request, fun off => ⟨?noRequest, ?noMissed⟩, fun on => ?sync, fun off => ?noSync, fun o on own => ?announce,
    fun on => ?leave, fun off => ?noAnnounce, fun seq captured => ?stamp, fun f m fix seq t body nonneg low => ?frame,
    fun on => ?missed, fun on => ?forget, fun off => ?noForget⟩
  case request =>
    have sends := delayReqTx_follows on
    exact runs_ranIf (f := delayReqTx x) rfl unit ⟨sends, sends ▸ ptp_sent s.dev h _ _ _ _⟩
  case noRequest => exact runs_ranIf (f := delayReqTx x) rfl unit (delayReqTx_idle off)
  case noMissed => exact runs_ranIf (f := syncTimeout x) rfl unit (syncTimeout_idle off)
  case sync =>
    have sends := syncTx_masters on
    exact runs_ranIf (f := syncTx x) rfl unit ⟨sends, sends ▸ (ptp_sent s.dev h _ _ _ _).2⟩
  case noSync => exact runs_ranIf (f := syncTx x) rfl unit (syncTx_idle off)
  case announce => exact runs_ranIf (f := announceTx x) rfl unit (announceTx_masters on own)
  case leave =>
    have leaves := announceTx_leaves on
    exact runs_ranIf (f := announceTx x) rfl unit ⟨leaves, leaves ▸ (decided_mastersKept s.dev h).twin⟩
  case noAnnounce => exact runs_ranIf (f := announceTx x) rfl unit (announceTx_idle off)
  case stamp =>
    refine runs_ranIf (f := txStamp x seq captured) rfl unit ?_
    rw [txStamp_eq]
    exact ⟨fun own => if_pos own, fun other => if_neg other⟩
  case frame =>
    refine ⟨fun event own => ⟨checksumFix (stampOf t), ?_⟩, fun other => stampFrame_other body other⟩
    rw [stampFrame_event body event own, stampOf_eq nonneg low]
  case missed => exact runs_ranIf (f := syncTimeout x) rfl unit (syncTimeout_follows on)
  case forget =>
    have kept := decided_mastersKept (setPtp s.dev x (parentForgotten p)) h
    refine runs_ranIf (f := announceTimeout x) rfl unit ?_
    rw [announceTimeout_runs on]
    refine ⟨rfl, fun m mem => ?_, kept.twin.trans (ptp_setPtp_twin s.dev _ h)⟩
    rw [kept.masters, ptp_setPtp] at mem
    exact of_decide_eq_true (List.mem_filter.mp mem).2
  case noForget => exact runs_ranIf (f := announceTimeout x) rfl unit (announceTimeout_idle off)

end Sys2Proof.Machine
end

section
/-!
What the servo does on a command (R284 to R286, R422): a source that it follows, the revert to the preferred plane, an accepted candidate,
and the log of a degraded state.
-/
namespace Sys2Proof.Machine

/-! ### Fields of the servo's status -/

/-- A field of a register beside the one written. -/
theorem liveF_liveSetF_otherField (d : Dev) (o : Nat) {hi lo hi' lo' : Nat} (v : Nat) (h : lo ≤ hi) (hh : hi < 32)
    (h' : hi' < lo ∨ hi < lo') (hl : lo' ≤ hi') : liveF (liveSetF d o hi lo v) o hi' lo' = liveF d o hi' lo' := by
  rw [liveF, liveGet_liveSetF, if_pos rfl, bits_setBits_other _ _ h hh h' hl, ← liveF]

/-- The registers of the servo are in PTPI. -/
def ServoWord (o : Nat) : Prop := 0x300000 ≤ o ∧ o < 0x400000

theorem errWords_not_servo {o : Nat} (ho : o ∈ errWords) : ¬ServoWord o := by
  unfold errWords offErrFatal offErrStatus offTwnStatus offClkTuneCode offErrClassCount offSapPortStatus at ho
  simp only [List.mem_append, List.mem_cons, List.mem_map, List.mem_range, List.not_mem_nil, or_false] at ho
  unfold ServoWord
  omega

/-- A raised error writes no register of the servo. -/
theorem liveGet_raiseErr_servo (d : Dev) (source code : Nat) (a0 a1 : Word) {o : Nat} (ho : ServoWord o) :
    liveGet (raiseErr d source code a0 a1) o = liveGet d o :=
  (raiseErr_err source code a0 a1 (.refl d)).regs.live o fun mem => errWords_not_servo mem ho

section
variable (d : Dev) (st cause : Nat)

theorem servoState_setServo (h : st < 8) : servoState (setServo d st cause) = st := by
  rw [servoState, setServo, liveF_liveSetF_otherField _ _ _ (by decide) (by decide) (by decide) (by decide),
    liveF_liveSetF_same _ _ _ (by decide) (by decide)]
  exact Nat.mod_eq_of_lt h

theorem servoSel_setServo : servoSel (setServo d st cause) = servoSel d := by
  rw [servoSel, setServo, liveF_liveSetF_otherField _ _ _ (by decide) (by decide) (by decide) (by decide),
    liveF_liveSetF_otherField _ _ _ (by decide) (by decide) (by decide) (by decide), ← servoSel]

theorem liveGet_setServo_other {o : Nat} (h : o ≠ offPtpiServoStatus) : liveGet (setServo d st cause) o = liveGet d o := by
  rw [setServo, liveGet_liveSetF, if_neg h, liveGet_liveSetF, if_neg h]

/-- The residual has registers of its own. -/
theorem liveGet_setResidual_other (r : Int) {o : Nat} (lo : o ≠ offPtpiServoResidLo) (hi : o ≠ offPtpiServoResidHi) :
    liveGet (setResidual d r) o = liveGet d o := by
  rw [setResidual, liveSet64, liveGet_liveSet_other _ _ hi, liveGet_liveSet_other _ _ lo]

end

/-! ### LOCKED or SLEWING (R284) -/

/-- A servo that tracks is in a state by its residual, and its registers are those before but for the residual's and the state. -/
theorem tracking_eq (d : Dev) (o : Int) :
    ∃ v : Servo, tracking d o = setServo (setResidual { d with servo := v } o) (if o.natAbs ≤ 16000 then 2 else 3) 0 := by
  have state : (if decide (o.natAbs ≤ 16000) = true then 2 else 3) = if o.natAbs ≤ 16000 then 2 else 3 :=
    if_congr decide_eq_true_iff rfl rfl
  unfold tracking
  extract_lets near load v loaded
  have held : ∃ v : Servo, loaded = { d with servo := v } := by
    unfold loaded
    split
    · exact ⟨_, rfl⟩
    · exact ⟨d.servo, rfl⟩
  obtain ⟨v, held⟩ := held
  exact ⟨v, by rw [held, ← state]⟩

section
variable (d : Dev) (o : Int)

theorem servoState_tracking : servoState (tracking d o) = if o.natAbs ≤ 16000 then 2 else 3 := by
  obtain ⟨v, tracks⟩ := tracking_eq d o
  rw [tracks]
  exact servoState_setServo _ _ _ (by split <;> decide)

theorem servoSel_tracking : servoSel (tracking d o) = servoSel d := by
  obtain ⟨v, tracks⟩ := tracking_eq d o
  rw [tracks, servoSel_setServo, servoSel, liveF, liveGet_setResidual_other _ _ (by decide) (by decide)]
  rfl

theorem liveGet_tracking_switchCount : liveGet (tracking d o) offPtpiServoSwitchCount = liveGet d offPtpiServoSwitchCount := by
  obtain ⟨v, tracks⟩ := tracking_eq d o
  rw [tracks, liveGet_setServo_other _ _ _ (by decide), liveGet_setResidual_other _ _ (by decide) (by decide)]
  rfl

end

/-! ### A source that is followed (R286) -/

/-- The device with the source of plane x selected and the servo's record v: a change of plane is counted and logged. -/
def sourceTaken (d : Dev) (x : Nat) (v : Servo) : Dev :=
  let shown := { liveSetF d offPtpiServoStatus 4 4 x with servo := v }
  if servoSel d ≠ x ∧ d.servo.chosen = true then
    raiseErr (bump shown offPtpiServoSwitchCount) (srcOf blkPtpi 0) 0x0306 (BitVec.ofNat 32 x) (residNs (offOf d x))
  else shown

section
variable (d : Dev) (x : Nat) (v : Servo)

theorem liveGet_sourceTaken {o : Nat} (ho : ServoWord o) : liveGet (sourceTaken d x v) o =
    if o = offPtpiServoSwitchCount ∧ servoSel d ≠ x ∧ d.servo.chosen = true then liveGet d o + 1
    else liveGet (liveSetF d offPtpiServoStatus 4 4 x) o := by
  unfold sourceTaken
  extract_lets shown
  by_cases moved : servoSel d ≠ x ∧ d.servo.chosen = true
  · rw [if_pos moved, liveGet_raiseErr_servo _ _ _ _ _ ho, liveGet_bump]
    by_cases count : o = offPtpiServoSwitchCount
    · rw [if_pos count, if_pos ⟨count, moved⟩, count]
      exact congrArg (· + 1) (liveGet_liveSet_other d _ (by decide))
    · rw [if_neg count, if_neg fun both => count both.1]
      rfl
  · rw [if_neg moved, if_neg fun both => moved both.2]
    rfl

theorem liveGet_sourceTaken_status :
    liveGet (sourceTaken d x v) offPtpiServoStatus = liveGet (liveSetF d offPtpiServoStatus 4 4 x) offPtpiServoStatus := by
  rw [liveGet_sourceTaken _ _ _ (by unfold ServoWord; decide), if_neg fun both => absurd both.1 (by decide)]

theorem servoState_sourceTaken : servoState (sourceTaken d x v) = servoState d := by
  rw [servoState, liveF, liveGet_sourceTaken_status, ← liveF,
    liveF_liveSetF_otherField _ _ _ (by decide) (by decide) (by decide) (by decide), ← servoState]

theorem servoSel_sourceTaken : servoSel (sourceTaken d x v) = x % 2 := by
  rw [servoSel, liveF, liveGet_sourceTaken_status]
  exact liveF_liveSetF_same _ _ _ (by decide) (by decide)

end

section
variable {d : Dev} {x : Nat}

/-- A servo that is not acquiring tracks the source that it follows, from the source's offset. -/
theorem followSource_tracks (settled : servoState d ≠ 1) :
    ∃ v : Servo, followSource d x = tracking (sourceTaken d x v) (offOf d x) := by
  unfold followSource
  extract_lets o moved w held shown v taken noted
  refine ⟨taken.servo, ?_⟩
  have same : noted = sourceTaken d x taken.servo :=
    if_congr (by simp only [moved, Bool.and_eq_true, decide_eq_true_eq]) rfl rfl
  rw [same, servoState_sourceTaken, if_neg settled]

theorem servoSel_followSource (settled : servoState d ≠ 1) (h : x < 2) : servoSel (followSource d x) = x := by
  obtain ⟨v, follows⟩ := followSource_tracks (x := x) settled
  rw [follows, servoSel_tracking, servoSel_sourceTaken, Nat.mod_eq_of_lt h]

theorem servoState_followSource (settled : servoState d ≠ 1) :
    servoState (followSource d x) = if (offOf d x).natAbs ≤ 16000 then 2 else 3 := by
  obtain ⟨v, follows⟩ := followSource_tracks (x := x) settled
  rw [follows, servoState_tracking]

/-- A change of plane is counted. -/
theorem switchCount_followSource (settled : servoState d ≠ 1) (moved : servoSel d ≠ x) (chosen : d.servo.chosen = true) :
    liveGet (followSource d x) offPtpiServoSwitchCount = liveGet d offPtpiServoSwitchCount + 1 := by
  obtain ⟨v, follows⟩ := followSource_tracks (x := x) settled
  rw [follows, liveGet_tracking_switchCount, liveGet_sourceTaken _ _ _ (by unfold ServoWord; decide), if_pos ⟨rfl, moved, chosen⟩]

end

/-! ### The commands (R285, R286) -/

/-- The preferred plane has qualified within SWITCH_MAX for the set time. -/
def qualifiedLong (d : Dev) : Bool := match (ptp d (actF d offPtpiServoCfg 0 0)).since with
  | none => false
  | some e => decide (e + 3000 * actF d offPtpiServoCfg 31 24 ≤ d.epc.epoch)

theorem qualifiedLong_iff (d : Dev) : qualifiedLong d = true ↔
    ∃ e, (ptp d (actF d offPtpiServoCfg 0 0)).since = some e ∧ e + 3000 * actF d offPtpiServoCfg 31 24 ≤ d.epc.epoch := by
  unfold qualifiedLong
  split <;> simp [*]

/-- What a revert needs (R286). -/
def RevertDue (d : Dev) : Prop :=
  actB d offPtpiServoCfg 1 = true ∧ (servoState d = 2 ∨ servoState d = 3) ∧ servoSel d ≠ actF d offPtpiServoCfg 0 0 ∧
    isQualified d (actF d offPtpiServoCfg 0 0) = true ∧
    (offOf d (actF d offPtpiServoCfg 0 0)).natAbs ≤ (switchMax d).natAbs ∧
    ∃ e, (ptp d (actF d offPtpiServoCfg 0 0)).since = some e ∧ e + 3000 * actF d offPtpiServoCfg 31 24 ≤ d.epc.epoch

section
variable {d : Dev}

theorem revertDue_iff : (actB d offPtpiServoCfg 1 && decide (servoState d = 2 ∨ servoState d = 3) &&
    decide (servoSel d ≠ actF d offPtpiServoCfg 0 0) && isQualified d (actF d offPtpiServoCfg 0 0) &&
    offWithin d (actF d offPtpiServoCfg 0 0) && qualifiedLong d) = true ↔ RevertDue d := by
  simp only [RevertDue, Bool.and_eq_true, decide_eq_true_eq, and_assoc, offWithin, qualifiedLong_iff]

theorem servoRevert_due (due : RevertDue d) : servoRevert d = followSource d (actF d offPtpiServoCfg 0 0) :=
  if_pos (revertDue_iff.mpr due)

theorem servoRevert_idle (idle : ¬RevertDue d) : servoRevert d = d :=
  if_neg fun due => idle (revertDue_iff.mp due)

theorem servoAccept_takes {x : Nat} (waits : servoState d = 4 ∧ liveF d offPtpiServoStatus 7 6 = 3) (cand : candidate d = some x) :
    servoAccept d = if timebase d = 2 then { d with servo := { d.servo with reload := true } } else followSource d x := by
  simp only [servoAccept, if_pos waits, cand]

theorem servoAccept_gone (gone : candidate d = none) : servoAccept d = d := by
  simp only [servoAccept, gone, ite_self]

end

/-- Settles O27: a servo out of ACQUIRING tracks the source that it follows (`followSource_tracks`), from which its state, its plane and
its count of switches are read. -/
theorem servoRevertsAcceptsAndLogs : Obligations.ServoRevertsAcceptsAndLogs := by
  intro s f may waits
  have plane : f < 2 := bits_lt _ _ _
  refine ⟨fun due => ?revert, fun idle => ?noRevert, fun x held cand follow => ?reload, fun x h held cand media => ?accept,
    fun held gone => ?gone, fun other => ?noAccept, fun degraded => ?log, fun sound => ?noLog⟩
  case revert =>
    obtain ⟨-, state, moved, -⟩ := id due
    have settled : servoState s.dev ≠ 1 := by omega
    refine runs_ran (f := servoRevert) rfl ?_
    rw [servoRevert_due due]
    exact ⟨rfl, servoSel_followSource settled plane, servoState_followSource settled, switchCount_followSource settled moved⟩
  case noRevert => exact runs_ran (f := servoRevert) rfl (servoRevert_idle idle)
  case reload => exact runs_ran (f := servoAccept) rfl ((servoAccept_takes held cand).trans (if_pos follow))
  case accept =>
    have settled : servoState s.dev ≠ 1 := by
      rw [held.1]
      decide
    refine runs_ran (f := servoAccept) rfl ?_
    rw [servoAccept_takes held cand, if_neg media]
    refine ⟨rfl, servoSel_followSource settled h, ?_⟩
    rw [servoState_followSource settled]
    split <;> simp
  case gone => exact runs_ran (f := servoAccept) rfl (servoAccept_gone gone)
  case noAccept => exact runs_ran (f := servoAccept) rfl (if_neg other)
  case log => exact runs_ran (f := servoDegraded) rfl (if_pos degraded)
  case noLog => exact runs_ran (f := servoDegraded) rfl (if_neg sound)

end Sys2Proof.Machine
end

section
/-!
LOCKED and HOLDOVER of a PLL, and the end of holdover in CLK.STATUS (R294, R302, R306).
-/
namespace Sys2Proof.Machine

/-! ### The registers -/

theorem offClkPllStatus_eq_iff {p q : Nat} : offClkPllStatus q = offClkPllStatus p ↔ q = p := by
  unfold offClkPllStatus
  omega

theorem offClkStatus_ne_offClkPllStatus (p : Nat) : offClkStatus ≠ offClkPllStatus p := by
  unfold offClkStatus offClkPllStatus
  omega

theorem OnlyWords.live_of_ne {w o : Nat} {a b : Dev} (h : OnlyWords [w] a b) (ne : o ≠ w) : liveGet b o = liveGet a o :=
  h.regs.live o fun mem => ne (List.mem_singleton.mp mem)

theorem OnlyWords.withClk {ws : List Nat} {a b : Dev} (h : OnlyWords ws a b) (c : Clk) :
    OnlyWords ws { a with clk := c } { b with clk := c } :=
  ⟨⟨h.regs.live, h.regs.shadow, h.regs.act, h.regs.snap⟩, congrArg (fun e : Dev => { e with clk := c }) h.rest⟩

/-- A field of a register beside a bit that is written. -/
theorem liveF_liveSetB_otherField (d : Dev) (o : Nat) {i hi lo : Nat} (v : Bool) (h : i < 32) (h' : hi < i ∨ i < lo) (hl : lo ≤ hi) :
    liveF (liveSetB d o i v) o hi lo = liveF d o hi lo := liveF_liveSetF_otherField d o v.toNat (Nat.le_refl i) h h' hl

section
variable (d : Dev) (p : Nat) (locked hold : Bool)

theorem setPll_only : OnlyWords [offClkPllStatus p] d (setPll d p locked hold) :=
  ((OnlyWords.refl _ d).liveSetB List.mem_cons_self).liveSetB List.mem_cons_self

theorem pllBit_setPll (q i : Nat) : pllBit (setPll d p locked hold) q i =
    if q = p ∧ i = 1 then hold else if q = p ∧ i = 0 then locked else pllBit d q i := by
  rw [pllBit, setPll, liveB_liveSetB _ _ _ _ _ (by decide), liveB_liveSetB _ _ _ _ _ (by decide)]
  simp only [offClkPllStatus_eq_iff, pllBit]

theorem pllBit_setPll_locked : pllBit (setPll d p locked hold) p 0 = locked := by
  simp [pllBit_setPll]

theorem pllBit_setPll_hold : pllBit (setPll d p locked hold) p 1 = hold := by
  simp [pllBit_setPll]

/-- The band and the count of losses lie above the two bits. -/
theorem liveF_setPll {hi lo : Nat} (above : 1 < lo) (h : lo ≤ hi) :
    liveF (setPll d p locked hold) (offClkPllStatus p) hi lo = liveF d (offClkPllStatus p) hi lo := by
  rw [setPll, liveF_liveSetB_otherField _ _ _ (by decide) (.inr above) h,
    liveF_liveSetB_otherField _ _ _ (by decide) (.inr (by omega)) h]

end

/-! ### The end of holdover (R302, R306) -/

section
variable (d : Dev)

/-- The end of holdover is shown in CLK.STATUS alone (R302, R306). -/
theorem holdShow_only : OnlyWords [offClkStatus] d (holdShow d) := by
  unfold holdShow
  split
  · exact .refl _ d
  · exact ((OnlyWords.refl _ d).liveSetB List.mem_cons_self).liveSetB List.mem_cons_self

theorem liveGet_holdShow_pll (q : Nat) : liveGet (holdShow d) (offClkPllStatus q) = liveGet d (offClkPllStatus q) :=
  (holdShow_only d).live_of_ne (offClkStatus_ne_offClkPllStatus q).symm

theorem pllBit_holdShow (q i : Nat) : pllBit (holdShow d) q i = pllBit d q i :=
  congrArg (bit · i) (liveGet_holdShow_pll d q)

end

end Sys2Proof.Machine
end

section
/-!
How OSC_TUNE is steered, how PLLs lock and what SYNC_IN does (R291, R292, R294, R295, R297).
-/
namespace Sys2Proof.Machine

/-! ### OSC_TUNE (R291, R292) -/

section
variable {d : Dev}

theorem oscDriven_iff : oscDriven d = true ↔ d.boot.up = true ∨ liveB d offClkStatus 0 = true := by
  rw [oscDriven, Bool.or_eq_true]
  rfl

theorem pwmPeriod_spi (spi : liveB d offClkTuneCfg 1 = true) : pwmPeriod d = d :=
  if_pos (Bool.or_eq_true_iff.mpr (.inl spi))

theorem pwmPeriod_still (still : ¬oscDriven d = true) : pwmPeriod d = d :=
  if_pos (Bool.or_eq_true_iff.mpr (.inr (by simpa using still)))

theorem pwmPeriod_driven (pwm : liveB d offClkTuneCfg 1 = false) (driven : oscDriven d = true) : pwmPeriod d =
    { d with clk := { d.clk with high := (d.clk.acc + codeNow d) / 64, acc := (d.clk.acc + codeNow d) % 64 } } :=
  if_neg (by simp [pwm, driven])

theorem tuneFrame_pwm (pwm : liveB d offClkTuneCfg 1 = false) : tuneFrame d = d :=
  if_neg fun due => by simp [pwm] at due

theorem tuneFrame_idle (idle : ¬(d.clk.sent ≠ some (codeNow d) ∨ d.epc.epoch % 3000 = 0)) : tuneFrame d = d :=
  if_neg fun due => idle due.2

theorem tuneFrame_due (spi : liveB d offClkTuneCfg 1 = true) (due : d.clk.sent ≠ some (codeNow d) ∨ d.epc.epoch % 3000 = 0) :
    tuneFrame d = { d with clk := { d.clk with
      frame := some (liveF d offClkTunePull 19 16 * 2 ^ 20 + codeNow d * 2 ^ (20 - liveF d offClkTuneCfg 12 8))
      sent := some (codeNow d) } } := by
  have width : tuneBits d = liveF d offClkTuneCfg 12 8 := if_pos spi
  rw [← width]
  exact if_pos ⟨spi, due⟩

end

/-! ### Locks (R294, R295) -/

section
variable (p : Nat) (d : Dev)

/-- A lock of PLL p may complete. -/
def LockEnds : Prop :=
  d.clk.locking.contains p = true ∧ selOk d = true ∧ (p = 1 ∨ syncMode d p = false ∨ d.clk.sync.contains p = false)

/-- The device once PLL p has locked. -/
def lockEnded : Dev :=
  setPll (liveSetF { d with clk := { d.clk with locking := setDel d.clk.locking p, locks := d.clk.locks + 1 } }
    (offClkPllStatus p) 12 8 (Config.vcoBand p d.clk.locks).toNat) p true false

theorem lockEnds_iff : (d.clk.locking.contains p && selOk d && (decide (p = 1) || !(syncMode d p && d.clk.sync.contains p))) = true ↔
    LockEnds p d := by
  simp only [LockEnds, Bool.and_eq_true, Bool.or_eq_true, decide_eq_true_eq, Bool.not_eq_true', Bool.and_eq_false_iff, and_assoc]

variable {p d}

theorem lockDone_ends (may : LockEnds p d) : lockDone p d = lockEnded p d := if_pos ((lockEnds_iff p d).mpr may)

theorem lockDone_idle (idle : ¬LockEnds p d) : lockDone p d = d := if_neg fun may => idle ((lockEnds_iff p d).mp may)

variable (p d)

theorem lockEnded_clk : (lockEnded p d).clk =
    { d.clk with locking := setDel d.clk.locking p, locks := d.clk.locks + 1 } := rfl

theorem lockEnded_only : OnlyWords [offClkPllStatus p] { d with clk := (lockEnded p d).clk } (lockEnded p d) := by
  rw [lockEnded_clk]
  exact OnlyWords.trans (.liveSetF List.mem_cons_self (.refl _ _)) (setPll_only _ p true false)

theorem band_lockEnded : liveF (lockEnded p d) (offClkPllStatus p) 12 8 = (Config.vcoBand p d.clk.locks).toNat := by
  rw [lockEnded, liveF_setPll _ _ _ _ (by decide) (by decide), liveF_liveSetF_same _ _ _ (by decide) (by decide)]
  exact Nat.mod_eq_of_lt (Config.vcoBand p d.clk.locks).isLt

theorem startLock_locking : (startLock p d).clk.locking = setIns d.clk.locking p :=
  congrArg (·.clk.locking) (holdShow_only _).rest

theorem startLock_sync : (startLock p d).clk.sync = setIns d.clk.sync p :=
  congrArg (·.clk.sync) (holdShow_only _).rest

theorem startLock_unlocked : pllBit (startLock p d) p 0 = false :=
  (pllBit_holdShow _ p 0).trans (pllBit_setPll_locked _ p _ _)

theorem startLock_not_held : pllBit (startLock p d) p 1 = false :=
  (pllBit_holdShow _ p 1).trans (pllBit_setPll_hold _ p _ _)

end

theorem setIns_contains (l : List Nat) (k : Nat) : (setIns l k).contains k = true :=
  List.contains_iff_mem.mpr (mem_setIns.mpr (.inl rfl))

/-! ### SYNC_IN (R297) -/

/-- MCLK outputs 0 to 3 that run and are found more than a step off. -/
def misaligned (offsets : List Int) (d : Dev) : Nat :=
  ((List.range 4).filter fun r => actB d (offClkAout r) 28 && decide ((offsets.getD r 0).natAbs > 1)).length

/-- The device once a SYNC_IN edge has been reported and has ended the waits for it. -/
def syncSeen (d : Dev) : Dev :=
  { liveSetB d offClkStatus 7 true with clk := { d.clk with sync := d.clk.sync.filter fun p => !(syncMode d p) } }

/-- A SYNC_IN edge realigns outputs. -/
abbrev Realigns (d : Dev) : Prop :=
  liveB d (offClkPllCtrl 1) 1 = true ∧ d.clk.sync.contains 1 = false ∧ actB d offClkSync 0 = true

section
variable {d : Dev} (offsets : List Int)

theorem syncEdge_held (held : pllBit d 1 1 = true) :
    syncEdge offsets d = liveSetF d offClkSync 31 16 (liveF d offClkSync 31 16 + 1) := if_pos held

theorem syncSeen_only : OnlyWords [offClkStatus] { d with clk := (syncSeen d).clk } (syncSeen d) :=
  ((OnlyWords.refl _ d).liveSetB List.mem_cons_self).withClk _

theorem syncSeen_regs : (syncSeen d).regs = (liveSetB d offClkStatus 7 true).regs := rfl

theorem liveGet_syncSeen (o : Nat) : liveGet (syncSeen d) o = liveGet (liveSetB d offClkStatus 7 true) o := by
  rw [liveGet, syncSeen_regs, ← liveGet]

theorem liveGet_syncSeen_other {o : Nat} (ne : o ≠ offClkStatus) : liveGet (syncSeen d) o = liveGet d o :=
  (liveGet_syncSeen o).trans (liveGet_liveSet_other _ _ ne)

theorem actB_syncSeen (o i : Nat) : actB (syncSeen d) o i = actB d o i := by
  have act : (syncSeen d).regs.act = d.regs.act := by rw [syncSeen_regs, liveSetB_act]
  rw [actB, actGet_of_act act, ← actB]

theorem syncMode_syncSeen : syncMode (syncSeen d) 1 = liveB d (offClkPllCtrl 1) 1 :=
  congrArg (bit · 1) (liveGet_syncSeen_other (by decide))

theorem liveF_syncSeen (hi lo : Nat) : liveF (syncSeen d) offClkSync hi lo = liveF d offClkSync hi lo :=
  congrArg (bits · hi lo) (liveGet_syncSeen_other (by decide))

theorem misaligned_syncSeen : misaligned offsets (syncSeen d) = misaligned offsets d := by
  simp only [misaligned, actB_syncSeen]

theorem realigns_iff : (syncMode (syncSeen d) 1 && !d.clk.sync.contains 1 && actB (syncSeen d) offClkSync 0) = true ↔ Realigns d := by
  rw [syncMode_syncSeen, actB_syncSeen, Realigns, Bool.and_eq_true, Bool.and_eq_true, Bool.not_eq_true', and_assoc]

theorem syncEdge_realigns (free : pllBit d 1 1 = false) (asks : Realigns d) : syncEdge offsets d =
    liveSetF (syncSeen d) offClkSync 15 1 (liveF d offClkSync 15 1 + misaligned offsets d) := by
  rw [syncEdge, if_neg (by simp [free]), ← liveF_syncSeen, ← misaligned_syncSeen]
  exact if_pos (realigns_iff.mpr asks)

theorem syncEdge_plain (free : pllBit d 1 1 = false) (plain : ¬Realigns d) : syncEdge offsets d = syncSeen d := by
  rw [syncEdge, if_neg (by simp [free])]
  exact if_neg fun asks => plain (realigns_iff.mp asks)

/-- What a SYNC_IN edge outside holdover leaves behind. -/
theorem syncEdge_free (free : pllBit d 1 1 = false) :
    liveB (syncEdge offsets d) offClkStatus 7 = true ∧
    (syncEdge offsets d).clk = { d.clk with sync := d.clk.sync.filter fun p => !(syncMode d p) } ∧
    liveF (syncEdge offsets d) offClkSync 31 16 = liveF d offClkSync 31 16 ∧
    liveF (syncEdge offsets d) offClkSync 15 1 =
      (liveF d offClkSync 15 1 + if Realigns d then misaligned offsets d else 0) % 2 ^ 15 ∧
    OnlyWords [offClkSync, offClkStatus] { d with clk := (syncEdge offsets d).clk } (syncEdge offsets d) := by
  have seen : liveB (syncSeen d) offClkStatus 7 = true := by
    rw [liveB, liveGet_syncSeen, ← liveB, liveB_liveSetB_same _ _ _ (by decide)]
  have only : OnlyWords [offClkSync, offClkStatus] { d with clk := (syncSeen d).clk } (syncSeen d) := syncSeen_only.mono (by simp)
  by_cases asks : Realigns d
  · rw [syncEdge_realigns offsets free asks, if_pos asks, liveSetF_clk]
    refine ⟨?_, rfl, ?_, liveF_liveSetF_same _ _ _ (by decide) (by decide), only.liveSetF List.mem_cons_self⟩
    · rw [liveB, liveGet_liveSetF, if_neg (by decide)]
      exact seen
    · rw [liveF_liveSetF_otherField _ _ _ (by decide) (by decide) (by decide) (by decide), liveF_syncSeen]
  · rw [syncEdge_plain offsets free asks, if_neg asks, Nat.add_zero, Nat.mod_eq_of_lt (liveF_lt d offClkSync 15 1)]
    exact ⟨seen, rfl, liveF_syncSeen 31 16, liveF_syncSeen 15 1, only⟩

end

/-! ### The commands -/

section
variable {s : State} {p : Nat} (h : p < 6)
include h

theorem runs_pllLockDone {P : Dev → Prop} (hp : P (bootLocked (lockDone p s.dev))) : Runs (.pllLockDone p) s P :=
  runs_ranIf (f := fun d => bootLocked (lockDone p d)) rfl (decide_eq_true h) hp

theorem runs_relock {P : Dev → Prop} (hp : P (relockWrite p (setBit (regRead s.dev (offClkPllCtrl p)) 2 true) false s.dev)) :
    Runs (.relock p) s P :=
  runs_ranIf (f := fun d => relockWrite p (setBit (regRead d (offClkPllCtrl p)) 2 true) false d) rfl (decide_eq_true h) hp

end

/-- Settles O28: each command is its operation, whose cases are the lemmas above; a lock that completes leaves `lockEnded`, with which
the boot goes on, and an edge of SYNC_IN outside holdover leaves what `syncEdge_free` says. -/
theorem steeringAndLocks : Obligations.SteeringAndLocks := by
  refine ⟨?pwm, ?spi, ?locks, fun s offsets => ⟨fun held => ?ignored, fun free => ?edge⟩⟩
  case pwm =>
    intro s pwm driven
    refine ⟨fun still => ?_, fun drives => ?_, runs_ran (f := tuneFrame) rfl (tuneFrame_pwm pwm)⟩
    · exact runs_ran (f := pwmPeriod) rfl (pwmPeriod_still fun drives => still (oscDriven_iff.mp drives))
    · refine runs_ran (f := pwmPeriod) rfl ?_
      rw [pwmPeriod_driven pwm (oscDriven_iff.mpr drives)]
      exact ⟨rfl, Nat.div_add_mod _ 64, Nat.mod_lt _ (by decide), rfl, rfl, rfl⟩
  case spi =>
    intro s spi
    exact ⟨runs_ran (f := pwmPeriod) rfl (pwmPeriod_spi spi),
      fun due => runs_ran (f := tuneFrame) rfl (tuneFrame_due spi due),
      fun idle => runs_ran (f := tuneFrame) rfl (tuneFrame_idle idle)⟩
  case locks =>
    intro s p h may
    refine ⟨fun ends => ?locked, fun idle waits => ?noLock, fun inUse => ?rejected, fun unused on => ?relocked,
      fun unused off => ?stopped⟩
    case locked =>
      refine runs_pllLockDone h ⟨lockEnded p s.dev, pllBit_setPll_locked _ p _ _, pllBit_setPll_hold _ p _ _,
        band_lockEnded p s.dev, lockEnded_clk p s.dev, lockEnded_only p s.dev, ?_⟩
      rw [lockDone_ends ends]
      rfl
    case noLock =>
      refine runs_pllLockDone h ?_
      rw [lockDone_idle idle]
      exact if_neg fun locked => waits locked.1
    case rejected => exact runs_relock h (if_pos inUse)
    case relocked =>
      refine runs_relock h ?_
      rw [relockWrite, if_neg (by simp [unused]), if_pos on, startLock_locking, startLock_sync]
      exact ⟨rfl, setIns_contains _ p, startLock_unlocked p s.dev, startLock_not_held p s.dev, setIns_contains _ p⟩
    case stopped => exact runs_relock h ((if_neg (by simp [unused])).trans (if_neg (by simp [off])))
  case ignored => exact runs_ran (f := syncEdge offsets) rfl (syncEdge_held offsets held)
  case edge => exact runs_ran (f := syncEdge offsets) rfl (syncEdge_free offsets free)

end Sys2Proof.Machine
end

section
/-!
How a reference is lost and taken again (R301 to R306): PLLs that enter holdover, the selector's failover, and the end of holdover.
-/
namespace Sys2Proof.Machine

/-! ### What a raised error leaves of CLK -/

/-- The registers of CLK but for CLK.TUNE_CODE, which a Fatal error sets. -/
def ClkWord (o : Nat) : Prop := 0x200000 ≤ o ∧ o < 0x300000 ∧ o ≠ offClkTuneCode

theorem errWords_not_clk {o : Nat} (ho : o ∈ errWords) : ¬ClkWord o := by
  unfold errWords offErrFatal offErrStatus offTwnStatus offErrClassCount offSapPortStatus at ho
  simp only [List.mem_append, List.mem_cons, List.mem_map, List.mem_range, List.not_mem_nil, or_false] at ho
  rintro ⟨low, high, other⟩
  rcases ho with ((fatal | status | twin | tune) | ⟨k, -, count⟩) | ⟨k, -, port⟩ <;> omega

theorem clkWord_status : ClkWord offClkStatus := by
  unfold ClkWord
  decide

theorem clkWord_pllStatus {p : Nat} (h : p < 6) : ClkWord (offClkPllStatus p) := by
  unfold ClkWord offClkPllStatus offClkTuneCode
  omega

theorem liveGet_raiseErr_clk (d : Dev) (source code : Nat) (a0 a1 : Word) {o : Nat} (word : ClkWord o) :
    liveGet (raiseErr d source code a0 a1) o = liveGet d o :=
  (raiseErr_err source code a0 a1 (.refl d)).regs.live o fun mem => errWords_not_clk mem word

theorem raiseErr_clk (d : Dev) (source code : Nat) (a0 a1 : Word) : (raiseErr d source code a0 a1).clk = d.clk := by
  have rest := congrArg Dev.clk (raiseErr_err source code a0 a1 (.refl d)).rest
  exact rest

/-! ### PLLs that enter holdover (R302) -/

/-- Some PLL is in holdover. -/
def someHeld (d : Dev) : Bool := (List.range 6).any fun q => pllBit d q 1

theorem someHeld_eq {d : Dev} {f : Nat → Bool} (h : ∀ q, q < 6 → pllBit d q 1 = f q) : someHeld d = (List.range 6).any f := by
  rw [someHeld, Bool.eq_iff_iff, List.any_eq_true, List.any_eq_true]
  exact exists_congr fun q => and_congr_right fun mem => by rw [h q (List.mem_range.mp mem)]

theorem someHeld_of_held {d : Dev} {p : Nat} (h : p < 6) (held : pllBit d p 1 = true) : someHeld d = true :=
  List.any_eq_true.mpr ⟨p, List.mem_range.mpr h, held⟩

/-- The count of losses lies above the two bits. -/
theorem pllBit_bumpSat (d : Dev) (p q : Nat) {i : Nat} (below : i < 16) :
    pllBit (bumpSat d (offClkPllStatus p) 31 16) q i = pllBit d q i := by
  rw [bumpSat_eq]
  split
  · rw [pllBit, liveB, liveGet_liveSetF]
    split
    · next same => rw [bit_setBits _ _ _ (by decide) (by decide), if_neg (by omega), ← same, ← liveB, ← pllBit]
    · rfl
  · rfl

section
variable (d : Dev) (p : Nat)

theorem pllHold_only : OnlyWords [offClkPllStatus p] d (pllHold d p) := by
  unfold pllHold
  split
  · exact (setPll_only d p false true).trans (bumpSat_only _ _ 31 16)
  · exact .refl _ d

theorem pllHold_clk : (pllHold d p).clk = d.clk := by
  have rest := congrArg Dev.clk (pllHold_only d p).rest
  exact rest

theorem liveGet_pllHold_status : liveGet (pllHold d p) offClkStatus = liveGet d offClkStatus :=
  (pllHold_only d p).live_of_ne (offClkStatus_ne_offClkPllStatus p)

/-- A PLL that enters holdover is no longer locked; every other PLL is as it was. -/
theorem pllBit_pllHold_locked (q : Nat) : pllBit (pllHold d p) q 0 = (pllBit d q 0 && decide (q ≠ p)) := by
  unfold pllHold
  split
  · rw [pllBit_bumpSat _ _ _ (by decide), pllBit_setPll]
    by_cases same : q = p <;> simp [same]
  · next free =>
    by_cases same : q = p
    · subst same
      simp [free]
    · simp [same]

theorem pllBit_pllHold_hold (q : Nat) : pllBit (pllHold d p) q 1 = (pllBit d q 1 || (pllBit d q 0 && decide (q = p))) := by
  unfold pllHold
  split
  · next locked =>
    rw [pllBit_bumpSat _ _ _ (by decide), pllBit_setPll]
    by_cases same : q = p
    · subst same
      simp [locked]
    · simp [same]
  · next free =>
    by_cases same : q = p
    · subst same
      simp [free]
    · simp [same]

theorem lossCount_pllHold (locked : pllBit d p 0 = true) :
    liveF (pllHold d p) (offClkPllStatus p) 31 16 = min 65535 (liveF d (offClkPllStatus p) 31 16 + 1) := by
  rw [pllHold, if_pos locked, liveF_bumpSat _ _ (by decide) (by decide), liveF_setPll _ _ _ _ (by decide) (by decide)]
  rfl

end

/-- PLLs of a list that enter holdover one after the other. -/
theorem pllBit_foldl_pllHold (q : Nat) : ∀ (l : List Nat) (d : Dev),
    pllBit (l.foldl pllHold d) q 0 = (pllBit d q 0 && decide (q ∉ l)) ∧
    pllBit (l.foldl pllHold d) q 1 = (pllBit d q 1 || (pllBit d q 0 && decide (q ∈ l)))
  | [], d => by simp
  | p :: t, d => by
    obtain ⟨locked, held⟩ := pllBit_foldl_pllHold q t (pllHold d p)
    rw [List.foldl_cons, locked, held, pllBit_pllHold_locked, pllBit_pllHold_hold]
    by_cases same : q = p <;> simp [same]

theorem liveGet_foldl_pllHold_status (l : List Nat) (d : Dev) : liveGet (l.foldl pllHold d) offClkStatus = liveGet d offClkStatus := by
  induction l generalizing d with
  | nil => rfl
  | cons p t ih => exact (ih (pllHold d p)).trans (liveGet_pllHold_status d p)

/-! ### Holdover begins (R302) -/

/-- The device with the code that OSC_TUNE has when holdover begins kept for a failover to REFCLK_ALT (R304). -/
def codeKept (d : Dev) : Dev := if onAlt d then d else { d with clk := { d.clk with kept := some (codeNow d) } }

theorem liveGet_codeKept (d : Dev) (o : Nat) : liveGet (codeKept d) o = liveGet d o := by
  unfold codeKept
  split <;> rfl

theorem codeKept_clk {d : Dev} (ref : onAlt d = false) : (codeKept d).clk = { d.clk with kept := some (codeNow d) } := by
  rw [codeKept, if_neg (by simp [ref])]

section
variable (unit : Nat) (was : Bool) (d : Dev)

theorem holdBegins_eq : holdBegins unit was d = if someHeld d && !was then
    raiseErr (liveSetB (codeKept d) offClkStatus 4 true) (srcOf blkClk unit) 0x0401 0 0 else d := rfl

theorem liveB_holdBegins (i : Nat) : liveB (holdBegins unit was d) offClkStatus i =
    if i = 4 ∧ someHeld d = true ∧ was = false then true else liveB d offClkStatus i := by
  rw [holdBegins_eq]
  by_cases begins : someHeld d = true ∧ was = false
  · rw [if_pos (by simp [begins]), liveB, liveGet_raiseErr_clk _ _ _ _ _ clkWord_status, ← liveB, liveB_liveSetB _ _ _ _ _ (by decide),
      liveB, liveGet_codeKept, ← liveB]
    simp [begins]
  · rw [if_neg (by simpa using begins), if_neg fun all => begins all.2]

theorem holdover_holdBegins :
    liveB (holdBegins unit (liveB d offClkStatus 4) d) offClkStatus 4 = (liveB d offClkStatus 4 || someHeld d) := by
  rw [liveB_holdBegins]
  cases liveB d offClkStatus 4 <;> simp

theorem refOk_holdBegins (alt : Bool) : refOk (holdBegins unit was d) alt = refOk d alt := by
  rw [refOk, liveB_holdBegins, if_neg (by cases alt <;> simp), ← refOk]

theorem onAlt_holdBegins : onAlt (holdBegins unit was d) = onAlt d := by
  rw [onAlt, liveB_holdBegins, if_neg (by simp), ← onAlt]

theorem liveGet_holdBegins_pll {q : Nat} (h : q < 6) :
    liveGet (holdBegins unit was d) (offClkPllStatus q) = liveGet d (offClkPllStatus q) := by
  rw [holdBegins_eq]
  split
  · rw [liveGet_raiseErr_clk _ _ _ _ _ (clkWord_pllStatus h), liveGet_liveSetB, if_neg (offClkStatus_ne_offClkPllStatus q).symm,
      liveGet_codeKept]
  · rfl

theorem pllBit_holdBegins {q : Nat} (h : q < 6) (i : Nat) : pllBit (holdBegins unit was d) q i = pllBit d q i :=
  congrArg (bit · i) (liveGet_holdBegins_pll unit was d h)

theorem holdBegins_clk (held : someHeld d = true) (ref : onAlt d = false) :
    (holdBegins unit false d).clk = { d.clk with kept := some (codeNow d) } := by
  rw [holdBegins_eq, if_pos (by simp [held]), raiseErr_clk, liveSetB_clk, codeKept_clk ref]

end

/-! ### REF_LOSS (R301, R302) -/

section
variable (d : Dev)

/-- The device whose selected reference is lost, before CLK reports holdover: all six PLLs are affected. -/
def allHeld : Dev := (List.range 6).foldl pllHold (inputLost (onAlt d) d)

theorem liveB_allHeld (i : Nat) : liveB (allHeld d) offClkStatus i =
    if i = (if onAlt d then 1 else 0) then false else liveB d offClkStatus i := by
  rw [liveB, allHeld, liveGet_foldl_pllHold_status, ← liveB, inputLost, liveB_liveSetB _ _ _ _ _ (by split <;> decide)]
  exact if_congr (and_iff_right rfl) rfl rfl

theorem pllBit_inputLost (alt : Bool) (q i : Nat) : pllBit (inputLost alt d) q i = pllBit d q i := by
  rw [pllBit, inputLost, liveB, liveGet_liveSetB, if_neg (offClkStatus_ne_offClkPllStatus q).symm, ← liveB, ← pllBit]

theorem pllBit_allHeld {q : Nat} (h : q < 6) :
    pllBit (allHeld d) q 0 = false ∧ pllBit (allHeld d) q 1 = (pllBit d q 0 || pllBit d q 1) := by
  obtain ⟨locked, held⟩ := pllBit_foldl_pllHold q (List.range 6) (inputLost (onAlt d) d)
  rw [allHeld, locked, held, pllBit_inputLost, pllBit_inputLost]
  simp [h, Bool.or_comm]

theorem refLoss_selected : refLoss .selected d = holdBegins 0 (liveB (allHeld d) offClkStatus 4) (allHeld d) := by
  rw [liveB_allHeld, if_neg (by split <;> decide)]
  rfl

end

section
variable {d : Dev} {p : Nat}

theorem refLoss_phase : refLoss (.phase p) d = holdBegins p (liveB (pllHold d p) offClkStatus 4) (pllHold d p) := by
  rw [liveB, liveGet_pllHold_status]
  rfl

theorem someHeld_pllHold (h : p < 6) (locked : pllBit d p 0 = true) : someHeld (pllHold d p) = true :=
  someHeld_of_held h (by simp [pllBit_pllHold_hold, locked])

theorem codeNow_pllHold : codeNow (pllHold d p) = codeNow d :=
  congrArg (bits · 19 0) ((pllHold_only d p).live_of_ne (by unfold offClkTuneCode offClkPllStatus; omega))

end

/-! ### A failover (R304, R305) -/

section
variable (alt : Bool) (d : Dev)

theorem liveGet_setSteer_other (v : Int) {o : Nat} (ne : ∀ p, o ≠ offClkPllStatus p) : liveGet (setSteer d v) o = liveGet d o := by
  unfold setSteer
  extract_lets on steered fed
  exact liveGet_foldl_liveSetB_other (List.range 2) fed fun p _ => ne p

/-- The registers of a failover before its count, the digital steering and the entry. -/
def switched : Dev := liveSetB (liveSetB d offClkStatus 3 alt) offClkStatus 6 true

theorem liveGet_failover {o : Nat} (word : ClkWord o) (ne : ∀ p, o ≠ offClkPllStatus p) :
    liveGet (failover alt d) o = liveGet (bump (switched alt d) offClkFailoverCount) o := by
  unfold failover
  extract_lets counted steered
  rw [liveGet_raiseErr_clk _ _ _ _ _ word]
  exact liveGet_setSteer_other _ _ ne

theorem liveB_failover (i : Nat) : liveB (failover alt d) offClkStatus i =
    if i = 6 then true else if i = 3 then alt else liveB d offClkStatus i := by
  rw [liveB, liveGet_failover alt d clkWord_status offClkStatus_ne_offClkPllStatus, liveGet_bump, if_neg (by decide), ← liveB, switched,
    liveB_liveSetB _ _ _ _ _ (by decide), liveB_liveSetB _ _ _ _ _ (by decide)]
  simp only [true_and]

theorem onAlt_failover : onAlt (failover alt d) = alt := liveB_failover alt d 3

theorem refOk_failover (ref : Bool) : refOk (failover alt d) ref = refOk d ref := by
  rw [refOk, liveB_failover, if_neg (by cases ref <;> simp), if_neg (by cases ref <;> simp), ← refOk]

theorem failoverCount_failover : liveGet (failover alt d) offClkFailoverCount = liveGet d offClkFailoverCount + 1 := by
  have word : ClkWord offClkFailoverCount := by
    unfold ClkWord
    decide
  have ne : ∀ p, offClkFailoverCount ≠ offClkPllStatus p := fun p => by
    unfold offClkFailoverCount offClkPllStatus
    omega
  rw [liveGet_failover alt d word ne, liveGet_bump, if_pos rfl, switched, liveGet_liveSetB, if_neg (by decide), liveGet_liveSetB,
    if_neg (by decide)]

end

/-! ### REF_VALID (R301, R304) -/

section
variable (alt : Bool) (d : Dev)

/-- A reference that returns is shown as valid. -/
abbrev RefShown : Prop := d.boot.up = false ∨ refPermitted d alt = true ∨ alt = onAlt d

/-- A reference that returns is taken: the outputs are muted for want of one. -/
abbrev RefTaken : Prop := liveB d offClkStatus 5 = true ∧ alt ≠ onAlt d ∧ refPermitted d alt = true ∧ selOk d = false

/-- The device that shows a reference as valid. -/
def refShown : Dev := liveSetB d offClkStatus (if alt then 1 else 0) true

theorem refShown_iff : (!d.boot.up || refPermitted d alt || decide (alt = onAlt d)) = true ↔ RefShown alt d := by
  simp only [RefShown, Bool.or_eq_true, Bool.not_eq_true', decide_eq_true_eq, or_assoc]

theorem liveB_refShown (i : Nat) : liveB (refShown alt d) offClkStatus i =
    if i = (if alt then 1 else 0) then true else liveB d offClkStatus i := by
  rw [refShown, liveB_liveSetB _ _ _ _ _ (by split <;> decide)]
  exact if_congr (and_iff_right rfl) rfl rfl

theorem refOk_refShown : refOk (refShown alt d) alt = true := (liveB_refShown alt d _).trans (if_pos rfl)

theorem onAlt_refShown : onAlt (refShown alt d) = onAlt d :=
  (liveB_refShown alt d 3).trans (if_neg (by split <;> decide))

variable {alt d}

/-- The other reference's validity says nothing of the selected one's. -/
theorem selOk_refShown (other : alt ≠ onAlt d) : selOk (refShown alt d) = selOk d := by
  rw [selOk, onAlt_refShown]
  refine (liveB_refShown alt d _).trans (if_neg ?_)
  revert other
  cases alt <;> cases onAlt d <;> simp

theorem refTaken_iff : (liveB (refShown alt d) offClkStatus 5 && decide (alt ≠ onAlt (refShown alt d)) &&
    refPermitted (refShown alt d) alt && !(selOk (refShown alt d))) = true ↔ RefTaken alt d := by
  have muted : liveB (refShown alt d) offClkStatus 5 = liveB d offClkStatus 5 :=
    (liveB_refShown alt d 5).trans (if_neg (by split <;> decide))
  have permitted : refPermitted (refShown alt d) alt = refPermitted d alt := rfl
  rw [muted, onAlt_refShown, permitted, Bool.and_eq_true, Bool.and_eq_true, Bool.and_eq_true, decide_eq_true_eq, Bool.not_eq_true',
    and_assoc, and_assoc]
  exact and_congr_right fun _ => and_congr_right fun other => by rw [selOk_refShown other]

theorem refValid_hidden (hidden : ¬RefShown alt d) : refValid alt d = d := if_neg fun may => hidden ((refShown_iff alt d).mp may)

theorem refValid_taken (may : RefShown alt d) (takes : RefTaken alt d) : refValid alt d = failover alt (refShown alt d) :=
  (if_pos ((refShown_iff alt d).mpr may)).trans (if_pos (refTaken_iff.mpr takes))

theorem refValid_shown (may : RefShown alt d) (leaves : ¬RefTaken alt d) : refValid alt d = refShown alt d :=
  (if_pos ((refShown_iff alt d).mpr may)).trans (if_neg fun takes => leaves (refTaken_iff.mp takes))

end

/-! ### PLLs that reacquire (R294, R303, R306) -/

section
variable (d : Dev)

/-- Holdover and the mute last as long as some PLL is in holdover. -/
theorem liveB_holdShow {i : Nat} (h : i = 4 ∨ i = 5) : liveB (holdShow d) offClkStatus i = (liveB d offClkStatus i && someHeld d) := by
  by_cases held : someHeld d = true
  · rw [show holdShow d = d from if_pos held, held, Bool.and_true]
  · rw [show holdShow d = liveSetB (liveSetB d offClkStatus 4 false) offClkStatus 5 false from if_neg held,
      liveB_liveSetB _ _ _ _ _ (by decide), liveB_liveSetB _ _ _ _ _ (by decide), Bool.eq_false_of_not_eq_true held, Bool.and_false]
    rcases h with rfl | rfl <;> rfl

variable (p : Nat)

/-- The device once PLL p has reacquired the reference. -/
def reacquired : Dev := holdShow (setPll d p true false)

theorem someHeld_setPll (locked : Bool) :
    someHeld (setPll d p locked false) = (List.range 6).any fun q => decide (q ≠ p) && pllBit d q 1 :=
  someHeld_eq fun q _ => by
    rw [pllBit_setPll]
    by_cases same : q = p <;> simp [same]

theorem liveB_reacquired {i : Nat} (h : i = 4 ∨ i = 5) : liveB (reacquired d p) offClkStatus i =
    (liveB d offClkStatus i && (List.range 6).any fun q => decide (q ≠ p) && pllBit d q 1) := by
  rw [reacquired, liveB_holdShow _ h, someHeld_setPll, liveB, (setPll_only d p true false).live_of_ne (offClkStatus_ne_offClkPllStatus p),
    ← liveB]

theorem liveGet_reacquired_other {q : Nat} (other : q ≠ p) :
    liveGet (reacquired d p) (offClkPllStatus q) = liveGet d (offClkPllStatus q) :=
  (liveGet_holdShow_pll _ q).trans ((setPll_only d p true false).live_of_ne fun same => other (offClkPllStatus_eq_iff.mp same))

theorem selTaken_iff : selTaken d = true ↔
    selOk d = true ∧ (liveB d offClkStatus 5 = false ∨ refPermitted d (onAlt d) = true) := by
  rw [selTaken, Bool.and_eq_true, Bool.or_eq_true, Bool.not_eq_true']

theorem mayReacquire_iff : (pllBit d p 1 && selTaken d) = true ↔
    pllBit d p 1 = true ∧ selOk d = true ∧ (liveB d offClkStatus 5 = false ∨ refPermitted d (onAlt d) = true) := by
  rw [Bool.and_eq_true, selTaken_iff]

end

/-! ### The selector's decisions (R304, R305) -/

section
variable (d : Dev)

/-- The selector has a decision to take. -/
def DecisionDue : Prop := liveB d offClkStatus 4 = true ∧ liveB d offClkStatus 5 = false ∧ selOk d = false

theorem decisionDue_iff : (liveB d offClkStatus 4 && !(liveB d offClkStatus 5) && !(selOk d)) = true ↔ DecisionDue d := by
  rw [DecisionDue, Bool.and_eq_true, Bool.and_eq_true, Bool.not_eq_true', Bool.not_eq_true', and_assoc]

theorem revertsBack_iff : (onAlt d && actB d offClkRefsel 1 && refOk d false) = true ↔
    onAlt d = true ∧ actB d offClkRefsel 1 = true ∧ refOk d false = true := by
  rw [Bool.and_eq_true, Bool.and_eq_true, and_assoc]

variable {d}

theorem holdoverDecision_failover (due : DecisionDue d)
    (other : refOk d (!(onAlt d)) = true ∧ refPermitted d (!(onAlt d)) = true) : holdoverDecision d = failover (!(onAlt d)) d :=
  (if_pos ((decisionDue_iff d).mpr due)).trans (if_pos (Bool.and_eq_true_iff.mpr other))

theorem holdoverDecision_mute (due : DecisionDue d)
    (noOther : ¬(refOk d (!(onAlt d)) = true ∧ refPermitted d (!(onAlt d)) = true)) :
    holdoverDecision d = raiseErr (liveSetB d offClkStatus 5 true) (srcOf blkClk 0) 0x0403 0 0 :=
  (if_pos ((decisionDue_iff d).mpr due)).trans (if_neg fun other => noOther (Bool.and_eq_true_iff.mp other))

end

/-! ### The commands -/

theorem runs_refLoss_phase {s : State} {p : Nat} {P : Dev → Prop} (h : p < 6) (hp : P (refLoss (.phase p) s.dev)) :
    Runs (.refLoss (.phase p)) s P := runs_ranIf (f := refLoss (.phase p)) rfl (decide_eq_true h) hp

theorem runs_pllReacquireDone {s : State} {p : Nat} {P : Dev → Prop} (h : p < 6)
    (hp : P (if pllBit s.dev p 1 && selTaken s.dev then reacquired s.dev p else s.dev)) : Runs (.pllReacquireDone p) s P :=
  runs_ranIf (f := reacquireDone p) rfl (decide_eq_true h) hp

theorem runs_pllNoReacquire {s : State} {p : Nat} {P : Dev → Prop} (h : p < 6)
    (hp : P (if pllBit s.dev p 1 && selTaken s.dev then raiseErr s.dev (srcOf blkClk p) 0x0404 0 0 else s.dev)) :
    Runs (.pllNoReacquire p) s P := runs_ranIf (f := noReacquire p) rfl (decide_eq_true h) hp

/-- Settles O29: each command is its operation in one of its cases; what the registers of CLK hold afterwards is read off `allHeld`,
`pllHold`, `failover` and `reacquired`, since a raised error leaves them. -/
theorem referencesAreLostAndTaken : Obligations.ReferencesAreLostAndTaken := by
  refine ⟨fun s => ?selected, fun s => ?other, fun s p h => ?phase, ?valid, ?reacquire, ?decision⟩
  case selected =>
    refine runs_ranIf (f := refLoss .selected) rfl rfl ?_
    rw [refLoss_selected, refOk_holdBegins, refOk_holdBegins, onAlt_holdBegins, holdover_holdBegins]
    have any : someHeld (allHeld s.dev) = (List.range 6).any fun q => pllBit s.dev q 0 || pllBit s.dev q 1 :=
      someHeld_eq fun q h => (pllBit_allHeld s.dev h).2
    refine ⟨(liveB_allHeld s.dev _).trans (if_pos rfl), (liveB_allHeld s.dev _).trans (if_neg ?_),
      (liveB_allHeld s.dev 3).trans (if_neg (by split <;> decide)), fun q h => ?_, ?_⟩
    · cases onAlt s.dev <;> simp
    · rw [pllBit_holdBegins _ _ _ h, pllBit_holdBegins _ _ _ h]
      exact pllBit_allHeld s.dev h
    · rw [any, liveB_allHeld, if_neg (by split <;> decide)]
  case other =>
    refine runs_ranIf (f := refLoss .other) rfl rfl ?_
    show inputLost (!(onAlt s.dev)) s.dev = _
    cases onAlt s.dev <;> rfl
  case phase =>
    refine runs_refLoss_phase h ?_
    rw [refLoss_phase]
    refine ⟨?unlocked, ?held, fun locked => ⟨?counted, ?shown⟩, fun q hq other => ?others, fun locked first ref => ?kept⟩
    case unlocked => simp [pllBit_holdBegins _ _ _ h, pllBit_pllHold_locked]
    case held => simp [pllBit_holdBegins _ _ _ h, pllBit_pllHold_hold, Bool.or_comm]
    case counted => rw [liveF, liveGet_holdBegins_pll _ _ _ h, ← liveF, lossCount_pllHold _ _ locked]
    case shown => rw [holdover_holdBegins, someHeld_pllHold h locked, Bool.or_true]
    case others =>
      rw [liveGet_holdBegins_pll _ _ _ hq]
      exact (pllHold_only s.dev p).live_of_ne fun same => other (offClkPllStatus_eq_iff.mp same)
    case kept =>
      have status := liveGet_pllHold_status s.dev p
      have before : liveB (pllHold s.dev p) offClkStatus 4 = false := (congrArg (bit · 4) status).trans first
      have unswitched : onAlt (pllHold s.dev p) = false := (congrArg (bit · 3) status).trans ref
      rw [before, holdBegins_clk p _ (someHeld_pllHold h locked) unswitched, codeNow_pllHold, pllHold_clk]
  case valid =>
    intro s alt may takes
    refine ⟨fun seen leaves => runs_ran (f := refValid alt) rfl (refValid_shown seen leaves), fun seen taken => ?taken,
      fun hidden => runs_ran (f := refValid alt) rfl (refValid_hidden hidden)⟩
    case taken =>
      have count : liveGet (refShown alt s.dev) offClkFailoverCount = liveGet s.dev offClkFailoverCount :=
        liveGet_liveSet_other _ _ (by decide)
      refine runs_ran (f := refValid alt) rfl ?_
      rw [refValid_taken seen taken, selOk, onAlt_failover, refOk_failover, refOk_refShown, failoverCount_failover, count]
      exact ⟨rfl, rfl, rfl, liveB_failover alt _ 6, rfl⟩
  case reacquire =>
    intro s p h taken
    refine ⟨fun held ok => ?done, fun held ok => ?failed, fun idle => ⟨?notDone, ?notFailed⟩⟩
    case done =>
      refine runs_pllReacquireDone h ?_
      rw [if_pos ((mayReacquire_iff s.dev p).mpr ⟨held, ok⟩)]
      exact ⟨(pllBit_holdShow _ p 0).trans (pllBit_setPll_locked _ p _ _), (pllBit_holdShow _ p 1).trans (pllBit_setPll_hold _ p _ _),
        fun q _ other => liveGet_reacquired_other s.dev p other, liveB_reacquired s.dev p (.inl rfl), liveB_reacquired s.dev p (.inr rfl)⟩
    case failed => exact runs_pllNoReacquire h (if_pos ((mayReacquire_iff s.dev p).mpr ⟨held, ok⟩))
    case notDone => exact runs_pllReacquireDone h (if_neg fun may => idle ((mayReacquire_iff s.dev p).mp may))
    case notFailed => exact runs_pllNoReacquire h (if_neg fun may => idle ((mayReacquire_iff s.dev p).mp may))
  case decision =>
    intro s due other back
    refine ⟨fun asked valid => ?failsOver, fun asked noOther => ?mutes, fun idle => ?undecided,
      fun reverts => ?back, fun stays => ?stays⟩
    case failsOver =>
      refine runs_ran (f := holdoverDecision) rfl ?_
      rw [holdoverDecision_failover asked valid]
      exact ⟨rfl, onAlt_failover _ s.dev, failoverCount_failover _ s.dev⟩
    case mutes => exact runs_ran (f := holdoverDecision) rfl (holdoverDecision_mute asked noOther)
    case undecided => exact runs_ran (f := holdoverDecision) rfl (if_neg fun asked => idle ((decisionDue_iff s.dev).mp asked))
    case back =>
      refine runs_ran (f := refRevert) rfl ?_
      rw [refRevert, if_pos ((revertsBack_iff s.dev).mpr reverts)]
      exact ⟨rfl, onAlt_failover false s.dev⟩
    case stays => exact runs_ran (f := refRevert) rfl (if_neg fun reverts => stays ((revertsBack_iff s.dev).mp reverts))

end Sys2Proof.Machine
end

section
/-!
A step and its command: the front of the queue, what exists of the unit a command names, and the canonical form of the device along
every step.
-/
namespace Sys2Proof.Machine

/-- Settles O1, by the equation of a step with a command in front. -/
theorem stepRunsTheFrontCommand : Obligations.StepRunsTheFrontCommand := by
  intro s c rest front
  rw [step, front]

/-- Settles O2, by the equation of a step on an empty queue. -/
theorem emptyQueueIdles : Obligations.EmptyQueueIdles := by
  intro s empty
  rw [step, empty]

/-- Settles O3: a command is an operation on the device alone (`exec_shape`). -/
theorem commandsLeaveTheQueue : Obligations.CommandsLeaveTheQueue := by
  intro c s t h
  obtain ⟨ok, f, shape⟩ := exec_shape c
  rw [shape s] at h
  obtain ⟨-, rfl⟩ := ranIf_next.mp h
  rfl

/-- Every command is an operation on the device that runs exactly if its unit exists. -/
theorem exec_unit (c : Instr) : ∃ f : Dev → Dev, ∀ s, exec c s = ranIf c.unitOk s f := by
  cases c with
  | refLoss loss => cases loss <;> exact ⟨_, fun _ => rfl⟩
  | _ => exact ⟨_, fun _ => rfl⟩

/-- Settles O4: a command is run or refused by its unit (`exec_unit`). -/
theorem commandsRunWhenTheirUnitExists : Obligations.CommandsRunWhenTheirUnitExists := by
  intro c s
  obtain ⟨f, shape⟩ := exec_unit c
  rw [shape s]
  exact ⟨fun ok => ⟨_, ranIf_next.mpr ⟨ok, rfl⟩⟩, fun none => by rw [none]; rfl⟩

/-- Whatever list a command stands in, it keeps the canonical form. -/
theorem Kept.sound {c : Instr} {a b : Dev} (h : Kept c a b) : Sound a b := by
  unfold Kept at h
  cases copies : c.writesCopies with
  | true => simpa only [copies, cond_true] using h
  | false =>
    cases mem1 : c.writesMem1 with
    | true => exact Calm.sound (by simpa only [copies, mem1, cond_true, cond_false] using h)
    | false =>
      cases reserved : c.writesReserved with
      | true => exact ⟨Staged.canon (by simpa only [copies, mem1, reserved, cond_true, cond_false] using h)⟩
      | false => exact Quiet.sound (by simpa only [copies, mem1, reserved, cond_false] using h)

/-- Settles O5: an idle step changes nothing, and every command keeps the canonical form (`exec_kept`). -/
theorem everyStepKeepsTheDeviceCanonical : Obligations.EveryStepKeepsTheDeviceCanonical := by
  intro s t canonical h
  unfold step at h
  split at h
  · cases h
    exact canonical
  · next c rest _ => exact (exec_kept h).sound.canon canonical

/-- Settles O6: after reset every bank and memory is empty and the epoch is 0. -/
theorem resetIsCanonical : Obligations.ResetIsCanonical :=
  ⟨rfl, rfl, by decide, rfl, ⟨rfl, rfl, .nil, rfl, .nil, rfl, rfl, rfl⟩, by decide, by decide⟩

end Sys2Proof.Machine
end

section
/-!
Sparse memories as functions: what a byte or a word reads as after writes, and that canonical memories which read alike are the same
list.
-/
namespace Sys2Proof.Machine

/-! ### Canonical maps are determined by what their keys read as -/

/-- The entries of a canonical map are the keys that read as something else than the default, with what they read as. -/
theorem mem_iff_mapGet {α : Type} [DecidableEq α] {d : Nat → α} {m : List (Nat × α)} (h : mapWf d m = true) (k : Nat) (v : α) :
    (k, v) ∈ m ↔ mapGet d m k = v ∧ v ≠ d k := by
  obtain ⟨rise, listed⟩ := (mapWf_iff d m).mp h
  refine ⟨fun mem => ⟨?_, listed (k, v) mem⟩, ?_⟩
  · clear h listed
    induction m with
    | nil => cases mem
    | cons p t ih =>
      obtain ⟨below, rise⟩ := List.pairwise_cons.mp rise
      rcases List.mem_cons.mp mem with rfl | mem
      · exact if_pos rfl
      · exact (if_neg (Nat.ne_of_lt (below _ mem))).trans (ih rise mem)
  · rintro ⟨reads, other⟩
    clear h listed rise
    induction m with
    | nil => exact absurd reads.symm other
    | cons p t ih =>
      by_cases here : p.1 = k
      · have value : p.2 = v := (if_pos here).symm.trans reads
        rw [← here, ← value]
        exact List.mem_cons_self
      · exact List.mem_cons_of_mem p (ih ((if_neg here).symm.trans reads))

/-- Canonical maps that read alike at every key are the same list. -/
theorem mapWf_ext {α : Type} [DecidableEq α] {d : Nat → α} {m n : List (Nat × α)} (hm : mapWf d m = true) (hn : mapWf d n = true)
    (alike : ∀ k, mapGet d m k = mapGet d n k) : m = n := by
  have irrefl : Std.Irrefl (fun a b : Nat × α => a.1 < b.1) := ⟨fun a => Nat.lt_irrefl a.1⟩
  have asymm : Std.Antisymm (fun a b : Nat × α => a.1 < b.1) := ⟨fun a b lt gt => absurd gt (Nat.lt_asymm lt)⟩
  refine ((mapWf_iff d m).mp hm).1.eq_of_mem_iff ((mapWf_iff d n).mp hn).1 fun ⟨k, v⟩ => ?_
  rw [mem_iff_mapGet hm, mem_iff_mapGet hn, alike]

/-! ### Bytes and words -/

/-- A byte that a run of bytes has written. -/
theorem byteGet_bytesSet_inside (m : List (Nat × Byte)) (a : Nat) {bs : List Byte} {i : Nat} (h : i < bs.length) :
    byteGet (bytesSet m a bs) (a + i) = bs.getD i 0 := by
  unfold byteGet bytesSet
  rw [mapGet_mapSetRun, if_pos (Nat.le_add_right a i), Nat.add_sub_cancel_left, List.getD_eq_getElem _ _ h, List.getD_eq_getElem _ _ h]

/-- The bytes of a number, lowest first. -/
theorem getD_leBytes {n i : Nat} (v : Nat) (h : i < n) : ((leBytes n v).getD i 0).toNat = v / 256 ^ i % 256 := by
  induction n generalizing i v with
  | zero => exact absurd h (Nat.not_lt_zero i)
  | succ n ih =>
    cases i with
    | zero => rw [pow_zero, Nat.div_one]; rfl
    | succ i => rw [pow_succ', ← Nat.div_div_eq_div_mul]; exact ih (v / 256) (Nat.lt_of_succ_lt_succ h)

/-- A word is read from the four bytes at its address. -/
theorem wordGet_congr {m n : List (Nat × Byte)} {a : Nat} (alike : ∀ j, a ≤ j → j < a + 4 → byteGet m j = byteGet n j) :
    wordGet m a = wordGet n a := by
  have read (i : Nat) (h : i < 4) : mapGet byte0 m (a + i) = mapGet byte0 n (a + i) := alike (a + i) (by omega) (by omega)
  have run : bytesGet m a 4 = bytesGet n a 4 := by
    simp only [bytesGet, mapGetRun, Nat.add_assoc, Nat.reduceAdd]
    rw [read 1 (by omega), read 2 (by omega), read 3 (by omega), show mapGet byte0 m a = _ from read 0 (by omega)]
    rfl
  rw [wordGet, wordGet, run]

/-- What a run of bytes leaves at each address. -/
theorem byteGet_bytesSet_run (m : List (Nat × Byte)) (a : Nat) (bs : List Byte) (j : Nat) :
    byteGet (bytesSet m a bs) j = if a ≤ j ∧ j < a + bs.length then bs.getD (j - a) 0 else byteGet m j := by
  split
  · next within =>
    obtain ⟨i, rfl⟩ : ∃ i, j = a + i := ⟨j - a, by omega⟩
    rw [Nat.add_sub_cancel_left]
    exact byteGet_bytesSet_inside m a (by omega)
  · next outside => exact byteGet_bytesSet_outside (by omega)

/-- Runs that do not meet may be written in either order. -/
theorem bytesSet_comm {m : List (Nat × Byte)} (h : mapWf byte0 m = true) {a b : Nat} (bs cs : List Byte) (apart : a + bs.length ≤ b) :
    bytesSet (bytesSet m a bs) b cs = bytesSet (bytesSet m b cs) a bs := by
  refine mapWf_ext (mapWf_mapSetRun _ _ _ (mapWf_mapSetRun _ _ _ h)) (mapWf_mapSetRun _ _ _ (mapWf_mapSetRun _ _ _ h)) fun j => ?_
  show byteGet _ j = byteGet _ j
  rw [byteGet_bytesSet_run, byteGet_bytesSet_run, byteGet_bytesSet_run, byteGet_bytesSet_run]
  by_cases first : a ≤ j ∧ j < a + bs.length
  · rw [if_pos first, if_pos first, if_neg (by omega)]
  · rw [if_neg first, if_neg first]

/-- Settles O59: bytes by `byteGet_bytesSet_run`, words by their bytes, and memories that read alike by `mapWf_ext`. -/
theorem memoryReadsWhatWasWritten : Obligations.MemoryReadsWhatWasWritten := by
  refine ⟨fun m a bs => ⟨bytesGet_bytesSet m a bs, fun j out => byteGet_bytesSet_outside out,
    fun i h => byteGet_bytesSet_inside m a h, mapWf_mapSetRun byte0 a bs⟩, fun m a w => ⟨wordGet_wordSet m a w, fun i h => ?byte,
    fun j out => ?other⟩, fun m n hm hn => mapWf_ext hm hn, fun m a b bs cs h => bytesSet_comm h bs cs⟩
  case byte =>
    rw [wordSet, byteGet_bytesSet_inside _ _ (by rwa [length_leBytes])]
    exact getD_leBytes _ h
  case other => exact wordGet_congr fun k low high => byteGet_wordSet_outside (by omega)

end Sys2Proof.Machine
end

section
/-!
PERF's actions and the boot window: FREEZE, RELEASE and CLEAR are noted until the next epoch start (R419), and REMAP sets its bit (R328).
-/
namespace Sys2Proof.Machine

/-- A write of PERF.FREEZE changes the pending actions and what STATUS shows of them. -/
theorem perfWrite_only (val : Word) (d : Dev) :
    OnlyWords [offPerfStatus] { d with perf := (perfWrite val d).perf } (perfWrite val d) := .liveSetB (by simp) (.refl _ _)

/-- The actions that a write of PERF.FREEZE makes pending. -/
theorem perf_perfWrite (val : Word) (d : Dev) : (perfWrite val d).perf =
    { d.perf with freeze := d.perf.freeze || bit val 0, release := d.perf.release || bit val 1, clear := d.perf.clear || bit val 2 } := rfl

/-- STATUS shows whether an action is pending. -/
theorem liveB_perfWrite (val : Word) (d : Dev) : liveB (perfWrite val d) offPerfStatus 1 =
    (d.perf.freeze || bit val 0 || (d.perf.release || bit val 1) || (d.perf.clear || bit val 2)) :=
  liveB_liveSetB_same _ _ _ (by decide)

/-- Settles O33, by what a write of PERF.FREEZE does and the equation of REMAP. -/
theorem counterActionsAndRemap : Obligations.CounterActionsAndRemap := by
  refine fun s => ⟨?freeze, ?release, ?clear, fun up => runs_ran (f := remapSet) rfl (if_neg up),
    fun held => runs_ran (f := remapSet) rfl (if_pos held)⟩
  case freeze =>
    refine runs_ran (f := perfWrite 1) rfl ⟨?_, ?_, perfWrite_only 1 s.dev⟩ <;>
      simp [perf_perfWrite, liveB_perfWrite, show bit 1#32 0 = true by decide, show bit 1#32 1 = false by decide,
        show bit 1#32 2 = false by decide]
  case release =>
    refine runs_ran (f := perfWrite 2) rfl ⟨?_, ?_, perfWrite_only 2 s.dev⟩ <;>
      simp [perf_perfWrite, liveB_perfWrite, show bit 2#32 0 = false by decide, show bit 2#32 1 = true by decide,
        show bit 2#32 2 = false by decide]
  case clear =>
    refine runs_ran (f := perfWrite 4) rfl ⟨?_, ?_, perfWrite_only 4 s.dev⟩ <;>
      simp [perf_perfWrite, liveB_perfWrite, show bit 4#32 0 = false by decide, show bit 4#32 1 = false by decide,
        show bit 4#32 2 = true by decide]

end Sys2Proof.Machine
end

section
/-!
Reads of a register after writes of its fields and of other registers, and what a Degraded report and the release of the outputs leave.
-/
namespace Sys2Proof.Machine

/-! ### Fields and bits after a write -/

section
variable (d : Dev) {o p : Nat} (w : Word)

theorem liveF_liveSet_other (hi lo : Nat) (h : p ≠ o) : liveF (liveSet d o w) p hi lo = liveF d p hi lo :=
  congrArg (bits · hi lo) (liveGet_liveSet_other d w h)

theorem liveB_liveSet_other (i : Nat) (h : p ≠ o) : liveB (liveSet d o w) p i = liveB d p i :=
  congrArg (bit · i) (liveGet_liveSet_other d w h)

end

/-- A bit of a register after a write of a field. -/
theorem liveB_liveSetF (d : Dev) (o : Nat) {hi lo : Nat} (v p j : Nat) (h : lo ≤ hi) (hh : hi < 32) :
    liveB (liveSetF d o hi lo v) p j = if p = o ∧ lo ≤ j ∧ j ≤ hi then v.testBit (j - lo) else liveB d p j := by
  by_cases reg : p = o
  · subst reg
    rw [liveB, liveGet_liveSetF, if_pos rfl, bit_setBits _ _ _ h hh, ← liveB]
    exact if_congr (by simp) rfl rfl
  · rw [liveB, liveGet_liveSetF, if_neg reg, if_neg fun both => reg both.1, liveB]

section
variable {ws : List Nat} {a b : Dev} {o : Nat}

theorem RegsBut.liveB (h : RegsBut ws a b) (ho : o ∉ ws) (i : Nat) : Machine.liveB b o i = Machine.liveB a o i :=
  congrArg (bit · i) (h.live o ho)

theorem RegsBut.liveF (h : RegsBut ws a b) (ho : o ∉ ws) (hi lo : Nat) : Machine.liveF b o hi lo = Machine.liveF a o hi lo :=
  congrArg (bits · hi lo) (h.live o ho)

end

section
variable {ws : List Nat} {a b : Dev} (h : OnlyWords ws a b)
include h

theorem OnlyWords.twn : b.twn = a.twn := by
  have twn := congrArg Dev.twn h.rest
  exact twn

theorem OnlyWords.epc : b.epc = a.epc := by
  have epc := congrArg Dev.epc h.rest
  exact epc

theorem OnlyWords.boot : b.boot = a.boot := by
  have boot := congrArg Dev.boot h.rest
  exact boot

theorem OnlyWords.pmc : b.pmc = a.pmc := by
  have pmc := congrArg Dev.pmc h.rest
  exact pmc

theorem OnlyWords.mgmt : b.mgmt = a.mgmt := by
  have mgmt := congrArg Dev.mgmt h.rest
  exact mgmt

theorem OnlyWords.mem : b.mem = a.mem := by
  have mem := congrArg Dev.mem h.rest
  exact mem

theorem OnlyWords.vec : b.vec = a.vec := by
  have vec := congrArg Dev.vec h.rest
  exact vec

theorem OnlyWords.xp : b.xp = a.xp := by
  have xp := congrArg Dev.xp h.rest
  exact xp

theorem OnlyWords.clk : b.clk = a.clk := by
  have clk := congrArg Dev.clk h.rest
  exact clk

end

/-- The twin state is none of the registers. -/
theorem liveB_setTwn (d : Dev) (t : Twn) (o i : Nat) : liveB (setTwn d t) o i = liveB d o i := rfl

theorem liveF_setTwn (d : Dev) (t : Twn) (o hi lo : Nat) : liveF (setTwn d t) o hi lo = liveF d o hi lo := rfl

/-! ### A report that is neither Contained nor Fatal -/

/-- A raise that stops nothing changes the error unit and the count of its class. -/
theorem raiseErr_only (d : Dev) (source : Nat) {code : Nat} (a0 a1 : Word) (mild : classOf code < 2) :
    OnlyWords [offErrClassCount (classOf code)] { d with err := (raiseErr d source code a0 a1).err } (raiseErr d source code a0 a1) := by
  rw [raiseErr_plain _ _ (fun esc => absurd esc.1 (by omega))]
  exact plain_only d source code _ (by omega)

section
variable (d : Dev) (source : Nat) {code : Nat} (a0 a1 : Word) (mild : classOf code < 2)
include mild

/-- Registers beside the counts of the two classes. -/
theorem liveGet_raiseErr_mild {o : Nat} (other : o < 0x1700020 ∨ 0x1700028 ≤ o) : liveGet (raiseErr d source code a0 a1) o = liveGet d o :=
  (raiseErr_only d source a0 a1 mild).regs.live o fun mem => by
    have := List.mem_singleton.mp mem
    unfold offErrClassCount at this
    omega

theorem liveB_raiseErr_mild {o : Nat} (i : Nat) (other : o < 0x1700020 ∨ 0x1700028 ≤ o) : liveB (raiseErr d source code a0 a1) o i = liveB d o i :=
  congrArg (bit · i) (liveGet_raiseErr_mild d source a0 a1 mild other)

theorem raiseErr_twn : (raiseErr d source code a0 a1).twn = d.twn :=
  (raiseErr_only d source a0 a1 mild).twn

end

/-! ### ACTIVE_OUT is released (R318, R356) -/

theorem portsOff_only (d : Dev) : OnlyWords (offTwnStatus :: (List.range 32).map offSapPortStatus) d (portsOff d) := by
  unfold portsOff
  refine OnlyWords.foldl _ (fun p hp d => (OnlyWords.refl _ d).liveSetB (List.mem_cons_of_mem _ (List.mem_map.mpr ⟨p, hp, rfl⟩))) ?_
  exact ((OnlyWords.refl _ d).liveSetB List.mem_cons_self).liveSetB List.mem_cons_self

/-- The release of the outputs leaves the twin link but for the confirmation of its claim. -/
theorem releaseOut_twn (d : Dev) : (releaseOut d).twn = { d.twn with confirmed := false } := by
  rw [releaseOut_eq, ← (portsOff_only d).twn]
  rfl

/-- b is a but for the registers at the given offsets, the serial ports and the twin link. -/
structure DriversOnly (ws : List Nat) (a b : Dev) : Prop where
  /-- The registers. -/
  regs : RegsBut ws a b
  /-- Everything beside the registers, the serial ports and the twin link. -/
  rest : { b with regs := a.regs, sap := a.sap, twn := a.twn } = a

section
variable {ws vs : List Nat} {a b c : Dev}

theorem OnlyWords.drivers (h : OnlyWords ws a b) : DriversOnly ws a b := by
  refine ⟨h.regs, ?_⟩
  have rest := congrArg (fun e : Dev => { e with sap := a.sap, twn := a.twn }) h.rest
  exact rest

theorem DriversOnly.trans (h : DriversOnly ws a b) (k : DriversOnly ws b c) : DriversOnly ws a c := by
  refine ⟨h.regs.trans k.regs, ?_⟩
  have rest := congrArg (fun e : Dev => { e with regs := a.regs, sap := a.sap, twn := a.twn }) k.rest
  exact Eq.trans rest h.rest

theorem DriversOnly.mono (h : DriversOnly ws a b) (hs : ∀ o ∈ ws, o ∈ vs) : DriversOnly vs a b := ⟨h.regs.mono hs, h.rest⟩

/-- A change of the serial ports and the twin link. -/
theorem DriversOnly.units (h : DriversOnly ws a b) (sap : Sap) (twn : Twn) : DriversOnly ws a { b with sap := sap, twn := twn } :=
  ⟨h.regs.other rfl, h.rest⟩

theorem DriversOnly.epc (h : DriversOnly ws a b) : b.epc = a.epc := by
  have epc := congrArg Dev.epc h.rest
  exact epc

theorem DriversOnly.boot (h : DriversOnly ws a b) : b.boot = a.boot := by
  have boot := congrArg Dev.boot h.rest
  exact boot

theorem DriversOnly.servo (h : DriversOnly ws a b) : b.servo = a.servo := by
  have servo := congrArg Dev.servo h.rest
  exact servo

theorem DriversOnly.ptpi (h : DriversOnly ws a b) : b.ptpi = a.ptpi := by
  have ptpi := congrArg Dev.ptpi h.rest
  exact ptpi

theorem DriversOnly.ptpo (h : DriversOnly ws a b) : b.ptpo = a.ptpo := by
  have ptpo := congrArg Dev.ptpo h.rest
  exact ptpo

end

/-- The registers that show who drives the serial outputs. -/
abbrev driverWords : List Nat := offTwnStatus :: (List.range 32).map offSapPortStatus

theorem releaseOut_drivers (d : Dev) : DriversOnly driverWords d (releaseOut d) := by
  rw [releaseOut_eq]
  exact (portsOff_only d).drivers.units _ _

/-- The bits of TWN.STATUS after the release. -/
theorem twnBit_releaseOut (d : Dev) (i : Nat) :
    liveB (releaseOut d) offTwnStatus i = if i = 2 ∨ i = 4 then false else liveB d offTwnStatus i := by
  rw [liveB, liveGet_releaseOut_twnStatus, bit_setBit _ _ _ (by decide), bit_setBit _ _ _ (by decide), ← liveB]
  by_cases h4 : i = 4
  · rw [if_pos h4, if_pos (.inr h4)]
  · by_cases h2 : i = 2
    · rw [if_neg h4, if_pos h2, if_pos (.inl h2)]
    · rw [if_neg h4, if_neg h2, if_neg (by omega)]

end Sys2Proof.Machine
end

section
/-!
Who drives the serial outputs (R356 to R361): claims and their confirmation, the peer's line, conflicts, and the watchdog.
-/
namespace Sys2Proof.Machine

/-! ### Claims (R356, R357) -/

section
variable (d : Dev)

/-- The outputs may be claimed. -/
abbrev MayClaim : Prop :=
  eligible d = true ∧ ¬liveB d offTwnStatus 3 = true ∧ ¬liveB d offTwnStatus 2 = true ∧ d.twn.released = false

theorem mayClaim_iff : (eligible d && !(twnBit d 3) && !(twnBit d 2) && !d.twn.released) = true ↔ MayClaim d := by
  simp [twnBit, and_assoc]

/-- The device once its claim is confirmed. -/
def claimConfirmed : Dev :=
  liveSetB (setTwn d { d.twn with conflicts := 0, armed := true, confirmed := true,
                                  reduced := if d.twn.armed then d.twn.reduced else some d.epc.epoch }) offTwnStatus 4 true

variable {d}

theorem claimConfirm_claims (claims : liveB d offTwnStatus 2 = true) (alone : ¬liveB d offTwnStatus 3 = true) :
    claimConfirm d = claimConfirmed d := if_pos (by simp [twnBit, claims, alone])

theorem claimConfirm_idle (idle : ¬(liveB d offTwnStatus 2 = true ∧ ¬liveB d offTwnStatus 3 = true)) : claimConfirm d = d :=
  if_neg (by simpa [twnBit] using idle)

theorem claimConfirmed_only : OnlyWords [offTwnStatus] { d with twn := (claimConfirmed d).twn } (claimConfirmed d) :=
  .liveSetB List.mem_cons_self (.refl _ _)

end

/-! ### Conflicts (R358, R359) -/

section
variable (d : Dev)

/-- A claiming twin that sees its peer's claim: the conflict is counted and the ports are released, the claim still stands. -/
def conflictSeen : Dev :=
  liveSetB (releaseOut (setTwn (liveSetB d offTwnStatus 3 true) { d.twn with conflicts := d.twn.conflicts + 1 })) offTwnStatus 2 true

/-- A junior in a conflict gives its claim up. -/
def juniorYields : Dev :=
  if (conflictRelease (conflictSeen d)).twn.conflicts ≥ 2 then sideConflict (conflictRelease (conflictSeen d))
  else conflictRelease (conflictSeen d)

variable {d}

theorem peerActive_conflict (quiet : ¬liveB d offTwnStatus 3 = true) (claims : liveB d offTwnStatus 2 = true) :
    peerActive true d = if twnBit (conflictSeen d) 0 then conflictSeen d else juniorYields d := by
  have still : twnBit (liveSetB d offTwnStatus 3 true) 2 = true := (liveB_liveSetB_otherBit d _ true (by decide) (by decide)).trans claims
  unfold peerActive
  rw [if_neg (by simpa [twnBit] using quiet)]
  extract_lets shown twin noted own seen yielded
  rw [if_pos (by rw [show twnBit shown 2 = true from still]; rfl)]
  have same : seen = conflictSeen d := by
    show liveSetB (releaseOut noted) offTwnStatus 2 own = _
    rw [show own = true from still]
    rfl
  clear_value seen
  subst same
  rfl

variable (d)

theorem liveB_conflictSeen {i : Nat} : liveB (conflictSeen d) offTwnStatus i =
    if i = 2 ∨ i = 3 then true else if i = 4 then false else liveB d offTwnStatus i := by
  rw [conflictSeen, liveB_liveSetB _ _ _ _ _ (by decide), twnBit_releaseOut, liveB_setTwn,
    liveB_liveSetB _ _ _ _ _ (by decide)]
  by_cases h2 : i = 2 <;> by_cases h3 : i = 3 <;> by_cases h4 : i = 4 <;> simp [h2, h3, h4]

theorem conflictSeen_twn : (conflictSeen d).twn = { d.twn with conflicts := d.twn.conflicts + 1, confirmed := false } := by
  rw [conflictSeen, liveSetB_twn, releaseOut_twn]
  rfl

theorem liveB_conflictSeen_port {p : Nat} (h : p < 32) : liveB (conflictSeen d) (offSapPortStatus p) 30 = false :=
  (liveB_liveSet_other _ _ _ (offTwnStatus_ne_offSapPortStatus p).symm).trans (liveB_releaseOut_port _ h)

theorem conflictRelease_eq : conflictRelease d = setTwn (releaseOut d) { (releaseOut d).twn with released := true } := by
  unfold conflictRelease
  extract_lets e
  rfl

theorem liveB_conflictRelease (i : Nat) :
    liveB (conflictRelease d) offTwnStatus i = if i = 2 ∨ i = 4 then false else liveB d offTwnStatus i := by
  rw [conflictRelease_eq, liveB_setTwn, twnBit_releaseOut]

theorem conflictRelease_twn : (conflictRelease d).twn = { d.twn with confirmed := false, released := true } := by
  rw [conflictRelease_eq, releaseOut_twn]
  rfl

theorem liveB_conflictRelease_port {p : Nat} (h : p < 32) : liveB (conflictRelease d) (offSapPortStatus p) 30 = false := by
  rw [conflictRelease_eq, liveB_setTwn, liveB_releaseOut_port d h]

/-- SIDE_CONFLICT is set whether or not its entry was written before. -/
theorem liveB_sideConflict (i : Nat) : liveB (sideConflict d) offTwnStatus i = if i = 14 then true else liveB d offTwnStatus i := by
  have bits : liveB (liveSetB d offTwnStatus 14 true) offTwnStatus i = if i = 14 then true else liveB d offTwnStatus i := by
    rw [liveB_liveSetB _ _ _ _ _ (by decide)]
    simp
  unfold sideConflict
  split
  · exact bits
  · rw [liveB_raiseErr_mild _ _ _ _ (by decide) i (by decide), liveB_setTwn]
    exact bits

theorem liveB_sideConflict_port (p i : Nat) (h : p < 32) : liveB (sideConflict d) (offSapPortStatus p) i = liveB d (offSapPortStatus p) i := by
  have port : liveB (liveSetB d offTwnStatus 14 true) (offSapPortStatus p) i = liveB d (offSapPortStatus p) i :=
    liveB_liveSet_other _ _ _ (offTwnStatus_ne_offSapPortStatus p).symm
  unfold sideConflict
  split
  · exact port
  · rw [liveB_raiseErr_mild _ _ _ _ (by decide) i (by unfold offSapPortStatus; omega), liveB_setTwn]
    exact port

theorem sideConflict_twn : (sideConflict d).twn = { d.twn with sideLogged := true } := by
  unfold sideConflict
  split
  · next logged => rw [← logged, liveSetB_twn]
  · exact raiseErr_twn _ _ _ _ (by decide)

/-- A claim that is given up, with or without SIDE_CONFLICT. -/
structure Yielded (a b : Dev) : Prop where
  status : ∀ i, i ≠ 14 → liveB b offTwnStatus i = liveB (conflictRelease a) offTwnStatus i
  ports : ∀ p, p < 32 → liveB b (offSapPortStatus p) 30 = false
  twn : b.twn = { a.twn with confirmed := false, released := true, sideLogged := b.twn.sideLogged }

theorem conflictRelease_yielded : Yielded d (conflictRelease d) :=
  ⟨fun _ _ => rfl, fun _ h => liveB_conflictRelease_port d h, by rw [conflictRelease_twn]⟩

theorem sideConflict_yielded : Yielded d (sideConflict (conflictRelease d)) :=
  ⟨fun i h => (liveB_sideConflict _ i).trans (if_neg h),
    fun p h => (liveB_sideConflict_port _ p 30 h).trans (liveB_conflictRelease_port d h), by
    rw [sideConflict_twn, conflictRelease_twn]⟩

theorem juniorYields_yielded : Yielded (conflictSeen d) (juniorYields d) := by
  unfold juniorYields
  split
  · exact sideConflict_yielded _
  · exact conflictRelease_yielded _

theorem juniorYields_shown (again : 1 ≤ d.twn.conflicts) : liveB (juniorYields d) offTwnStatus 14 = true := by
  have two : (conflictRelease (conflictSeen d)).twn.conflicts ≥ 2 := by
    rw [conflictRelease_twn, conflictSeen_twn]
    exact Nat.succ_le_succ again
  rw [juniorYields, if_pos two, liveB_sideConflict, if_pos rfl]

theorem seniorRelease_conflict (senior : liveB d offTwnStatus 0 = true) (claims : liveB d offTwnStatus 2 = true)
    (peer : liveB d offTwnStatus 3 = true) : seniorRelease d = sideConflict (conflictRelease d) :=
  if_pos (by simp [twnBit, senior, claims, peer])

end

/-! ### The watchdog (R361) -/

section
variable (d : Dev)

/-- The watchdog has run out. -/
abbrev WatchdogLate : Prop :=
  d.twn.armed = true ∧ liveB d offTwnStatus 5 = false ∧ d.twn.reduced.getD 0 + 24 ≤ d.epc.epoch

theorem watchdogLate_iff :
    (d.twn.armed && !(twnBit d 5) && decide (d.twn.reduced.getD 0 + 24 ≤ d.epc.epoch)) = true ↔ WatchdogLate d := by
  simp [twnBit, and_assoc]

/-- The device when the watchdog has released the outputs, before the entry. -/
def watchdogReleased : Dev := liveSetB (liveSetB (releaseOut d) offTwnStatus 5 true) offTwnStatus 1 false

theorem liveB_watchdogReleased (i : Nat) : liveB (watchdogReleased d) offTwnStatus i =
    if i = 1 then false else if i = 5 then true else if i = 2 ∨ i = 4 then false else liveB d offTwnStatus i := by
  rw [watchdogReleased, liveB_liveSetB _ _ _ _ _ (by decide), liveB_liveSetB _ _ _ _ _ (by decide), twnBit_releaseOut]
  simp

theorem watchdogRelease_late {d : Dev} (late : WatchdogLate d) : watchdogRelease d =
    raiseErr (watchdogReleased d) twnSrc 0x0008 (BitVec.ofNat 32 (d.twn.reduced.getD 0)) 0 :=
  if_pos ((watchdogLate_iff d).mpr late)

theorem watchdogReleased_twn : (watchdogReleased d).twn = { d.twn with confirmed := false } := by
  rw [watchdogReleased, liveSetB_twn, liveSetB_twn, releaseOut_twn]

theorem liveB_ownCheck {i : Nat} (h2 : i ≠ 2) (h4 : i ≠ 4) :
    liveB (ownCheck d) offTwnStatus i = if i = 1 then eligible d else liveB d offTwnStatus i := by
  have shown : liveB (liveSetB d offTwnStatus 1 (eligible d)) offTwnStatus i = if i = 1 then eligible d else liveB d offTwnStatus i := by
    rw [liveB_liveSetB _ _ _ _ _ (by decide)]
    simp
  unfold ownCheck
  dsimp only
  split
  · rw [twnBit_releaseOut, if_neg (by omega), shown]
  · exact shown

end

theorem rearm_reduced {d : Dev} {e : Nat} (reduced : d.twn.reduced = some e) : rearm d =
    if twnBit d 5 && decide (d.epc.epoch ≤ e + 1) then ownCheck (liveSetB d offTwnStatus 5 false) else d := by
  rw [rearm, reduced]

/-- Settles O42: claims by their equations, conflicts by `Yielded`, the watchdog by what it releases and logs. -/
theorem outputsHaveOneOwner : Obligations.OutputsHaveOneOwner := by
  intro s claims peer senior
  refine ⟨⟨fun may => ?claim, fun idle => ?noClaim⟩, fun hc hp => ?confirm, fun idle => ?noConfirm, fun level same => ?sameLevel,
    fun level change unclaimed => ?follows, fun hp hc => ?conflict, fun hp hc => ?cleared, fun hs hc hp => ?senior, fun idle => ?noSenior,
    fun hr hp => ?backoff, fun idle => ?noBackoff, ⟨fun late => ?release, fun idle => ?noRelease⟩, fun e reduced h5 soon => ?rearm,
    fun e reduced old => ?tooOld, fun idle => ?noRearm⟩
  case claim =>
    refine runs_ran (f := outputClaim) rfl ?_
    rw [outputClaim, if_pos ((mayClaim_iff s.dev).mpr may)]
    have owns : liveB (liveSetB (liveSetB s.dev offTwnStatus 2 true) offTwnStatus 4 true) offTwnStatus 4 = true :=
      liveB_liveSetB_same _ _ _ (by decide)
    refine ⟨rfl, ?_, owns, ?_⟩
    · rw [liveB_liveSetB_otherBit _ _ _ (by decide) (by decide)]
      exact liveB_liveSetB_same _ _ _ (by decide)
    · rw [drivesOut, owns]
      rfl
  case noClaim => exact runs_ran (f := outputClaim) rfl (if_neg fun may => idle ((mayClaim_iff s.dev).mp may))
  case confirm =>
    refine runs_ran (f := claimConfirm) rfl ?_
    rw [claimConfirm_claims hc hp]
    have owns : liveB (claimConfirmed s.dev) offTwnStatus 4 = true := liveB_liveSetB_same _ _ _ (by decide)
    exact ⟨owns, rfl, rfl, by rw [drivesOut, owns]; rfl, fun first => if_neg (by simp [first]), claimConfirmed_only⟩
  case noConfirm => exact runs_ran (f := claimConfirm) rfl (claimConfirm_idle idle)
  case sameLevel => exact runs_ran (f := peerActive level) rfl (if_pos same)
  case follows =>
    have still : ¬twnBit (liveSetB s.dev offTwnStatus 3 level) 2 = true := by
      rwa [twnBit, liveB_liveSetB_otherBit _ _ _ (by decide) (by decide)]
    refine runs_ran (f := peerActive level) rfl ((if_neg change).trans ?_)
    dsimp only
    rw [if_neg (by simp [still]), if_neg (by simp [still])]
  case conflict =>
    refine runs_ran (f := peerActive true) rfl ?_
    have seniority : twnBit (conflictSeen s.dev) 0 = liveB s.dev offTwnStatus 0 := liveB_conflictSeen s.dev
    rw [peerActive_conflict hp hc, seniority]
    by_cases hs : senior
    · have owns : liveB (conflictSeen s.dev) offTwnStatus 4 = false := liveB_conflictSeen s.dev
      rw [if_pos hs]
      refine ⟨liveB_conflictSeen s.dev, ?_, fun p h => liveB_conflictSeen_port s.dev h, owns, ?_, fun _ => liveB_conflictSeen s.dev,
        fun junior => absurd hs junior⟩
      · rw [conflictSeen_twn]
      · rw [drivesOut, owns]
        rfl
    · obtain ⟨status, ports, twn⟩ := juniorYields_yielded s.dev
      have owns : liveB (juniorYields s.dev) offTwnStatus 4 = false := by
        rw [status 4 (by decide), liveB_conflictRelease, if_pos (.inr rfl)]
      rw [if_neg hs]
      refine ⟨?_, ?_, ports, owns, ?_, fun h => absurd h hs, fun _ => ⟨?_, ?_, juniorYields_shown s.dev⟩⟩
      · rw [status 3 (by decide), liveB_conflictRelease, if_neg (by decide)]
        exact liveB_conflictSeen s.dev
      · rw [twn, conflictSeen_twn]
      · rw [drivesOut, owns]
        rfl
      · rw [status 2 (by decide), liveB_conflictRelease, if_pos (.inl rfl)]
      · rw [twn]
  case cleared =>
    have low : liveB (liveSetB s.dev offTwnStatus 3 false) offTwnStatus 3 = false := liveB_liveSetB_same _ _ _ (by decide)
    have still : liveB (liveSetB s.dev offTwnStatus 3 false) offTwnStatus 2 = true := by
      rwa [liveB_liveSetB_otherBit _ _ _ (by decide) (by decide)]
    have confirms : peerActive false s.dev = claimConfirm (liveSetB s.dev offTwnStatus 3 false) := by
      have high : ¬twnBit s.dev 3 = false := by simp [twnBit, show liveB s.dev offTwnStatus 3 = true from hp]
      refine (if_neg high).trans ?_
      dsimp only
      rw [if_neg (by simp), if_pos (by simp [twnBit, still])]
    refine runs_ran (f := peerActive false) rfl ⟨confirms, ?_⟩
    rw [confirms, claimConfirm_claims still (by simp [low])]
    refine ⟨liveB_liveSetB_same _ _ _ (by decide), ?_⟩
    rw [claimConfirmed, liveB_liveSetB_otherBit _ _ _ (by decide) (by decide)]
    exact low
  case senior =>
    refine runs_ran (f := seniorRelease) rfl ?_
    rw [seniorRelease_conflict s.dev hs hc hp]
    obtain ⟨status, -, twn⟩ := sideConflict_yielded s.dev
    refine ⟨?_, ?_, (liveB_sideConflict _ 14).trans (if_pos rfl), by rw [twn], by rw [twn]⟩
    · rw [status 2 (by decide), liveB_conflictRelease, if_pos (.inl rfl)]
    · rw [status 4 (by decide), liveB_conflictRelease, if_pos (.inr rfl)]
  case noSenior =>
    exact runs_ran (f := seniorRelease) rfl
      (if_neg fun all => idle (by simpa [twnBit, and_assoc] using all))
  case backoff =>
    have low : liveB s.dev offTwnStatus 3 = false := Bool.eq_false_of_not_eq_true hp
    exact runs_ran (f := claimBackoff) rfl (if_pos (by simp [twnBit, hr, low]))
  case noBackoff => exact runs_ran (f := claimBackoff) rfl (if_neg (by simpa [twnBit] using idle))
  case release =>
    refine runs_ran (f := watchdogRelease) rfl ?_
    rw [watchdogRelease_late late]
    have bits (i : Nat) := (liveB_raiseErr_mild (watchdogReleased s.dev) twnSrc (code := 0x0008)
      (BitVec.ofNat 32 (s.dev.twn.reduced.getD 0)) 0 (by decide) (o := offTwnStatus) i (by decide)).trans (liveB_watchdogReleased s.dev i)
    exact ⟨bits 5, bits 1, bits 2, bits 4, (raiseErr_twn _ _ _ _ (by decide)).trans (watchdogReleased_twn s.dev)⟩
  case noRelease => exact runs_ran (f := watchdogRelease) rfl (if_neg fun late => idle ((watchdogLate_iff s.dev).mp late))
  case rearm =>
    have goes : rearm s.dev = ownCheck (liveSetB s.dev offTwnStatus 5 false) := by
      rw [rearm_reduced reduced, if_pos (by simp [twnBit, h5, soon])]
    refine runs_ran (f := rearm) rfl ?_
    rw [goes, liveB_ownCheck _ (by decide) (by decide), liveB_ownCheck _ (by decide) (by decide)]
    exact ⟨rfl, liveB_liveSetB_same _ _ _ (by decide), rfl⟩
  case tooOld =>
    refine runs_ran (f := rearm) rfl ?_
    rw [rearm_reduced reduced, if_neg (by simp; omega)]
  case noRearm =>
    refine runs_ran (f := rearm) rfl ?_
    cases reduced : s.dev.twn.reduced with
    | none => rw [rearm, reduced]
    | some e =>
      have off : liveB s.dev offTwnStatus 5 = false := idle.resolve_left (by rw [reduced]; exact nofun)
      rw [rearm_reduced reduced, if_neg (by simp [twnBit, off])]

end Sys2Proof.Machine
end

section
/-!
The follow loop's lock, the changes of TIMEBASE, and the timebase reload (R319 to R321).
-/
namespace Sys2Proof.Machine

/-! ### What a source's qualification rests on -/

section
variable {ws : List Nat} {a b : Dev} (regs : RegsBut ws a b) (boot : b.boot = a.boot) (errStatus : offErrStatus ∉ ws)
  (memStatus : offMemStatus 0 ∉ ws)
include regs boot errStatus memStatus

/-- Whether a block runs rests on its enable, on the boot, and on what ERR and MEM0 show. -/
theorem RegsBut.running (k : Nat) : Machine.running b k = Machine.running a k := by
  have act : Machine.actB b (k * 0x100000) 0 = Machine.actB a (k * 0x100000) 0 := by
    rw [Machine.actB, actGet_of_act regs.act, Machine.actB]
  simp only [Machine.running, enabled, spared, mayRun, fatal, boot, act, regs.liveB errStatus, regs.liveB memStatus]

/-- A source that qualifies goes on qualifying where its PTP unit, its plane and its port show the same. -/
theorem RegsBut.isQualified (ptpi : b.ptpi = a.ptpi) (ptpo : b.ptpo = a.ptpo) {x : Nat} (port : offPtpStatus x ∉ ws)
    (step : offNetStatus x ∉ ws) : Machine.isQualified b x = Machine.isQualified a x := by
  have act (o hi lo : Nat) : actF b o hi lo = actF a o hi lo := by rw [actF, actGet_of_act regs.act, actF]
  simp only [Machine.isQualified, isSlave, stepping, classOk, portStateOf, regs.running boot errStatus memStatus, regs.liveF port,
    regs.liveB step, ptp_of_units ptpi ptpo, act]
  rfl

end

/-! ### The timebase -/

section
variable (d : Dev)

theorem timebase_setTimebase (t : Nat) (h : t < 4) : timebase (setTimebase d t) = t := by
  rw [timebase, setTimebase, liveF_liveSetF_same _ _ _ (by decide) (by decide)]
  exact Nat.mod_eq_of_lt h

/-- The device in FOLLOW: nothing presented in a FREE epoch is sent (R31, R58). -/
def followOpened : Dev := setTimebase { d with path := { d.path with loadEpoch := d.epc.epoch } } 2

variable {d}

theorem toFollow_ptp (source : actB d offClkTuneCfg 3 = true) (ptp : timebase d = 1) : toFollow d = setTimebase d 2 :=
  if_pos ⟨source, ptp⟩

theorem toFollow_free (source : actB d offClkTuneCfg 3 = true) (free : timebase d = 0) (locked : liveB d offSapFollowStatus 0 = true) :
    toFollow d = followOpened d :=
  (if_neg fun ptp => absurd (free.symm.trans ptp.2) (by decide)).trans (if_pos ⟨source, free, locked⟩)

theorem toFollow_idle (idle : ¬(actB d offClkTuneCfg 3 = true ∧
    (timebase d = 1 ∨ (timebase d = 0 ∧ liveB d offSapFollowStatus 0 = true)))) : toFollow d = d :=
  (if_neg fun ptp => idle ⟨ptp.1, .inl ptp.2⟩).trans (if_neg fun free => idle ⟨free.1, .inr free.2⟩)

/-! ### The reload -/

variable (d) (x : Nat)

/-- The device e in ACQUIRING, with the source of plane x and the servo's record v. -/
def acquiring (v : Servo) : Dev := setServo { liveSetF d offPtpiServoStatus 4 4 x with servo := v } 1 0

/-- The servo's record when it acquires the refused candidate. -/
def candidateRecord (v : Servo) (kept : Bool) : Servo :=
  { v with reload := false, run := 0, updated := none, synced := none, chosen := true, left := false, refused := none, kept := kept }

theorem liveGet_acquiring (v : Servo) {o : Nat} (other : o ≠ offPtpiServoStatus) : liveGet (acquiring d x v) o = liveGet d o :=
  (liveGet_setServo_other _ _ _ other).trans (liveGet_liveSet_other _ _ other)

theorem servoState_acquiring (v : Servo) : servoState (acquiring d x v) = 1 := servoState_setServo _ _ _ (by decide)

theorem servoSel_acquiring (v : Servo) : servoSel (acquiring d x v) = x % 2 :=
  (servoSel_setServo _ _ _).trans (liveF_liveSetF_same _ _ _ (by decide) (by decide))

theorem servoCause_acquiring (v : Servo) : liveF (acquiring d x v) offPtpiServoStatus 7 6 = 0 :=
  liveF_liveSetF_same _ _ _ (by decide) (by decide)

/-- Beside the servo's record and its status, the device is as it was. -/
theorem acquiring_only (v : Servo) : OnlyWords [offPtpiServoStatus] { d with servo := v } (acquiring d x v) :=
  ((OnlyWords.refl _ { d with servo := v }).liveSetF List.mem_cons_self |>.liveSetF List.mem_cons_self).liveSetF List.mem_cons_self

theorem acquiring_servo (v : Servo) : (acquiring d x v).servo = v := rfl

/-- TIMEBASE reads FREE and the outputs are released. -/
def freed : Dev := releaseOut (setTimebase d 0)

/-- The registers that show TIMEBASE and who drives the serial outputs. -/
abbrev freedWords : List Nat := offEpcStatus :: offTwnStatus :: (List.range 32).map offSapPortStatus

theorem freed_drivers : DriversOnly freedWords d (freed d) := by
  have free : OnlyWords freedWords d (setTimebase d 0) := (OnlyWords.refl _ d).liveSetF List.mem_cons_self
  exact free.drivers.trans ((releaseOut_drivers _).mono fun o ho => List.mem_cons_of_mem _ ho)

theorem freed_twn : (freed d).twn = { d.twn with confirmed := false } := releaseOut_twn (setTimebase d 0)

theorem liveB_freed_twn (i : Nat) : liveB (freed d) offTwnStatus i = if i = 2 ∨ i = 4 then false else liveB d offTwnStatus i := by
  rw [freed, twnBit_releaseOut, setTimebase, liveSetF, liveB_liveSet_other _ _ _ (by decide)]

theorem liveB_freed_port {p : Nat} (h : p < 32) : liveB (freed d) (offSapPortStatus p) 30 = false := liveB_releaseOut_port _ h

theorem timebase_freed : timebase (freed d) = 0 := by
  have here : liveGet (freed d) offEpcStatus = liveGet (setTimebase d 0) offEpcStatus :=
    liveGet_releaseOut_other _ (by decide) fun p _ => by unfold offEpcStatus offSapPortStatus; omega
  rw [timebase, liveF, here, ← liveF, ← timebase, timebase_setTimebase _ _ (by decide)]

/-- The source goes on qualifying while the outputs are released and the plane is selected. -/
theorem isQualified_freed (h : x < 2) : isQualified (liveSetF (freed d) offPtpiServoStatus 4 4 x) x = isQualified d x := by
  have shown : OnlyWords (offPtpiServoStatus :: freedWords) (freed d) (liveSetF (freed d) offPtpiServoStatus 4 4 x) :=
    (OnlyWords.refl _ _).liveSetF List.mem_cons_self
  have only := ((freed_drivers d).mono fun o ho => List.mem_cons_of_mem _ ho).trans shown.drivers
  have out {o : Nat} (ho : o ∈ [offErrStatus, offMemStatus 0, offPtpStatus x, offNetStatus x]) : o ∉ offPtpiServoStatus :: freedWords := by
    simp only [freedWords, List.mem_cons, List.mem_map, List.mem_range, List.not_mem_nil, or_false,
      offErrStatus, offMemStatus, offPtpStatus, offNetStatus, offEpcStatus, offPtpiServoStatus, offTwnStatus, offSapPortStatus] at ho ⊢
    omega
  exact only.regs.isQualified only.boot (out (by simp)) (out (by simp)) only.ptpi only.ptpo (out (by simp)) (out (by simp))

variable {d} {x}

/-- What the servo makes of the device e when it acquires the candidate x. -/
theorem acquiring_eq (e : Dev) (x : Nat) :
    (let d := liveSetF e offPtpiServoStatus 4 4 x
     let v := d.servo
     setServo { d with servo := { v with
       reload := false, run := 0, updated := none, synced := none, chosen := true, left := false, refused := none,
       kept := !(isQualified d x) } } 1 0) =
      acquiring e x (candidateRecord e.servo (!(isQualified (liveSetF e offPtpiServoStatus 4 4 x) x))) := rfl

theorem timebaseReload_candidate (h : x < 2) (asked : d.servo.reload = true) (silent : allSilent d = true) (left : candidate d = some x) :
    timebaseReload d = acquiring (freed d) x (candidateRecord d.servo (!(isQualified d x))) := by
  unfold timebaseReload
  rw [if_pos (by rw [asked, silent]; rfl), left]
  refine (acquiring_eq (releaseOut (setTimebase d 0)) x).trans ?_
  rw [← freed, (freed_drivers d).servo, isQualified_freed d x h]

theorem timebaseReload_none (asked : d.servo.reload = true) (silent : allSilent d = true) (none : candidate d = none) :
    timebaseReload d = causeCheck { d with servo := { d.servo with reload := false } } := by
  unfold timebaseReload
  rw [if_pos (by rw [asked, silent]; rfl), none]

theorem timebaseReload_idle (idle : ¬(d.servo.reload = true ∧ allSilent d = true)) : timebaseReload d = d :=
  if_neg fun due => idle (Bool.and_eq_true_iff.mp due)

variable (d)

/-- Without a candidate the servo shows that there is none, and the timebase stays. -/
theorem causeCheck_keeps : timebase (causeCheck d) = timebase d ∧ (causeCheck d).servo.reload = d.servo.reload ∧
    (causeCheck d).epc = d.epc := by
  have shown (e : Dev) (st cause : Nat) : timebase (setServo e st cause) = timebase e :=
    congrArg (bits · 3 2) (liveGet_setServo_other e st cause (by decide))
  unfold causeCheck
  extract_lets cause sel
  split
  · exact ⟨shown _ _ _, rfl, rfl⟩
  · split
    · exact ⟨shown _ _ _, rfl, rfl⟩
    · exact ⟨rfl, rfl, rfl⟩

end

/-- Settles O30: each command by its equations; what a reload leaves is read off `timebaseReloaded`. -/
theorem followModeAndTimebaseReload : Obligations.FollowModeAndTimebaseReload := by
  intro s source locked
  refine ⟨fun due => runs_ran (f := followLocks) rfl (if_pos due), fun idle => runs_ran (f := followLocks) rfl (if_neg idle),
    fun hs ptp => ?follow, fun hs free lock => ?opens, fun idle => runs_ran (f := toFollow) rfl (toFollow_idle idle),
    fun hs follows tracks => ?back, fun idle => ?stays, fun x h asked silent left => ?reload, fun asked silent none => ?noCandidate,
    fun idle => runs_ran (f := timebaseReload) rfl (timebaseReload_idle idle)⟩
  case follow =>
    exact runs_ran (f := toFollow) rfl (by rw [toFollow_ptp hs ptp]; exact ⟨rfl, timebase_setTimebase _ _ (by decide)⟩)
  case opens =>
    refine runs_ran (f := toFollow) rfl ?_
    rw [toFollow_free hs free lock]
    exact ⟨timebase_setTimebase _ _ (by decide), rfl, rfl, .liveSetF List.mem_cons_self (.refl _ _)⟩
  case back =>
    refine runs_ran (f := toPtp) rfl ?_
    rw [toPtp, if_pos ⟨follows, hs, tracks⟩]
    exact ⟨rfl, timebase_setTimebase _ _ (by decide)⟩
  case stays => exact runs_ran (f := toPtp) rfl (if_neg fun due => idle ⟨due.2.1, due.1, due.2.2⟩)
  case reload =>
    refine runs_ran (f := timebaseReload) rfl ?_
    rw [timebaseReload_candidate h asked silent left]
    have free := timebase_freed s.dev
    have only := freed_drivers s.dev
    have twn := freed_twn s.dev
    have twin (i : Nat) := liveB_freed_twn s.dev i
    have ports (p : Nat) (h : p < 32) := liveB_freed_port s.dev h
    generalize freed s.dev = e at *
    generalize hv : candidateRecord s.dev.servo (!(isQualified s.dev x)) = v
    have acquired := acquiring_only e x v
    have kept (o : Nat) (other : o ≠ offPtpiServoStatus) := liveGet_acquiring e x v other
    refine ⟨(congrArg (bits · 3 2) (kept offEpcStatus (by decide))).trans free, servoState_acquiring e x v, servoCause_acquiring e x v,
      (servoSel_acquiring e x v).trans (Nat.mod_eq_of_lt h), (acquiring_servo e x v).trans hv.symm, (congrArg (bit · 2) (kept offTwnStatus (by decide))).trans (twin 2),
      (congrArg (bit · 4) (kept offTwnStatus (by decide))).trans (twin 4), fun p hp => ?_, acquired.twn.trans twn,
      acquired.epc.trans only.epc, acquired.regs.act.trans only.regs.act, acquired.regs.shadow.trans only.regs.shadow⟩
    exact (congrArg (bit · 30) (kept _ (by unfold offSapPortStatus offPtpiServoStatus; omega))).trans (ports p hp)
  case noCandidate =>
    refine runs_ran (f := timebaseReload) rfl ?_
    rw [timebaseReload_none asked silent none]
    exact causeCheck_keeps _

end Sys2Proof.Machine
end

section
/-!
The life cycle and its fuses (R432 to R434, Table 19-7): how a transition is judged, and the slots' hashes and bits.
-/
namespace Sys2Proof.Machine

/-! ### Transitions (R432, R433) -/

/-- The state stands apart from the result. -/
theorem lcsState_lcsResult (d : Dev) (r : Nat) : lcsState (lcsResult d r) = lcsState d := liveF_liveSet_other d _ 1 0 (by decide)

/-- Table 19-7 lists the step to the next state alone. -/
theorem lcsJudge_unlisted {d : Dev} {t : Nat} (h : t ≠ lcsState d + 1) : lcsJudge d t = some 2 := by
  unfold lcsJudge
  split
  · next old => rw [old] at h; exact absurd rfl h
  · next old => rw [old] at h; exact absurd rfl h
  · next old => rw [old] at h; exact absurd rfl h
  · rfl

theorem lcsJudge_provision {d : Dev} (blank : lcsState d = 0) :
    lcsJudge d 1 = if (List.range 4).any (slotGood d) then none else some 3 := by
  unfold lcsJudge
  rw [blank]
  rfl

theorem lcsJudge_operate {d : Dev} (provisioned : lcsState d = 1) : lcsJudge d 2 = none := by
  unfold lcsJudge
  rw [provisioned]
  rfl

section
variable {val : Word} {d : Dev}

theorem lcsRequest_stopped {ok : Bool} {r : Nat} (stops : lcsJudge d (bits val 1 0) = some r) :
    lcsRequest .spi val ok d = lcsResult d r := by
  unfold lcsRequest
  dsimp only
  rw [stops]

theorem lcsRequest_fuses (goes : lcsJudge d (bits val 1 0) = none) : lcsRequest .spi val true d =
    reboot (some (lcsState d, bits val 1 0))
      (lcsResult (liveSetB (liveSetF d offLcsState 1 0 (bits val 1 0)) offLcsState 4 (decide (bits val 1 0 = 1))) 1) := by
  unfold lcsRequest
  dsimp only
  rw [goes]
  rfl

theorem lcsRequest_fails (goes : lcsJudge d (bits val 1 0) = none) : lcsRequest .spi val false d = reboot none (lcsResult d 6) := by
  unfold lcsRequest
  dsimp only
  rw [goes]
  rfl

end

/-! ### A slot is programmed (R434) -/

section
variable {src dst : Nat → Nat}

/-- Words copied to other places leave every place that none goes to. -/
theorem liveGet_copies_other {o : Nat} : ∀ (l : List Nat) (d : Dev), (∀ w ∈ l, o ≠ dst w) →
    liveGet (l.foldl (fun d w => liveSet d (dst w) (liveGet d (src w))) d) o = liveGet d o
  | [], _, _ => rfl
  | w :: t, _, h => (liveGet_copies_other t _ fun q hq => h q (List.mem_cons_of_mem w hq)).trans
      (liveGet_liveSet_other _ _ (h w List.mem_cons_self))

/-- Each word arrives, where no source is written. -/
theorem liveGet_copies (inj : ∀ v w, dst v = dst w → v = w) : ∀ (l : List Nat) (d : Dev), (∀ v w, w ∈ l → src v ≠ dst w) →
    ∀ w ∈ l, liveGet (l.foldl (fun d w => liveSet d (dst w) (liveGet d (src w))) d) (dst w) = liveGet d (src w)
  | [], _, _, _, mem => nomatch mem
  | v :: t, d, apart, w, mem => by
    rw [List.foldl_cons]
    by_cases later : w ∈ t
    · rw [liveGet_copies inj t _ (fun x y hy => apart x y (List.mem_cons_of_mem v hy)) w later]
      exact liveGet_liveSet_other _ _ (apart w v List.mem_cons_self)
    · obtain rfl : w = v := (List.mem_cons.mp mem).resolve_right later
      rw [liveGet_copies_other t _ fun q hq same => later (inj w q same ▸ hq), liveGet_liveSet_same]

end

/-- The hash of FUSE_HASH stands in a slot. -/
def hashFused (slot : Nat) (d : Dev) : Dev :=
  (List.range 8).foldl (fun d w => liveSet d (offLcsKeyHash slot w) (liveGet d (offLcsFuseHash w))) d

/-- The device with a slot programmed. -/
def slotFused (slot : Nat) (d : Dev) : Dev := lcsResult (liveSetB (hashFused slot d) offLcsKeys slot true) 1

section
variable (d : Dev) {slot : Nat}

theorem liveGet_hashFused_other {o : Nat} (h : ∀ w < 8, o ≠ offLcsKeyHash slot w) : liveGet (hashFused slot d) o = liveGet d o :=
  liveGet_copies_other _ d fun w hw => h w (List.mem_range.mp hw)

theorem liveGet_hashFused (h : slot < 4) {w : Nat} (hw : w < 8) :
    liveGet (hashFused slot d) (offLcsKeyHash slot w) = liveGet d (offLcsFuseHash w) := by
  refine liveGet_copies (dst := offLcsKeyHash slot) (fun v w same => ?_) _ d (fun v w mem => ?_) w (List.mem_range.mpr hw)
  · unfold offLcsKeyHash at same
    omega
  · have := List.mem_range.mp mem
    unfold offLcsFuseHash offLcsKeyHash
    omega

theorem hashFused_only : OnlyWords ((List.range 8).map (offLcsKeyHash slot)) d (hashFused slot d) :=
  OnlyWords.foldl _ (fun w hw e => (OnlyWords.refl _ e).liveSet (List.mem_map.mpr ⟨w, hw, rfl⟩)) (.refl _ d)

theorem liveGet_slotFused_other {o : Nat} (keys : o ≠ offLcsKeys) (result : o ≠ offLcsResult) :
    liveGet (slotFused slot d) o = liveGet (hashFused slot d) o :=
  (liveGet_liveSet_other _ _ result).trans (liveGet_liveSet_other _ _ keys)

theorem liveB_slotFused (h : slot < 4) (i : Nat) :
    liveB (slotFused slot d) offLcsKeys i = if i = slot then true else liveB d offLcsKeys i := by
  have keys : liveGet (hashFused slot d) offLcsKeys = liveGet d offLcsKeys :=
    liveGet_hashFused_other d fun w _ => by unfold offLcsKeys offLcsKeyHash; omega
  rw [slotFused, lcsResult, liveSetF, liveB_liveSet_other _ _ _ (by decide), liveB_liveSetB _ _ _ _ _ (by omega)]
  simp only [true_and]
  exact if_congr Iff.rfl rfl (congrArg (bit · i) keys)

end

/-! ### A slot is revoked (R434) -/

/-- The device with a slot revoked. -/
def slotRevoked (slot : Nat) (d : Dev) : Dev := lcsResult (liveSetB d offLcsKeys (4 + slot) true) 1

theorem liveB_slotRevoked (d : Dev) {slot : Nat} (h : slot < 4) (i : Nat) :
    liveB (slotRevoked slot d) offLcsKeys i = if i = 4 + slot then true else liveB d offLcsKeys i := by
  rw [slotRevoked, lcsResult, liveSetF, liveB_liveSet_other _ _ _ (by decide), liveB_liveSetB _ _ _ _ _ (by omega)]
  simp

/-- The running image's keys are in a slot. -/
abbrev SlotUsed (d : Dev) (slot : Nat) : Prop := d.boot.up = true ∧ ∃ m, d.boot.manifest = some m ∧ m.slot = slot

theorem slotUsed_iff (d : Dev) (slot : Nat) :
    (match d.boot.manifest with
      | some m => d.boot.up && decide (m.slot = slot)
      | none => false) = true ↔ SlotUsed d slot := by
  unfold SlotUsed
  cases d.boot.manifest <;> simp

/-- Settles O45: the judgement of a transition by `lcsJudge_unlisted` and its table, the slots by what is fused in them. -/
theorem lifeCycleAndFuses : Obligations.LifeCycleAndFuses := by
  refine ⟨fun s v ok slot h => ?path, fun s v ok => ?transition, fun s slot ok h => ?program, fun s slot ok h => ?revoke⟩
  case path =>
    have unit := decide_eq_true h
    exact ⟨runs_ran (f := lcsRequest .other v ok) rfl rfl, runs_ranIf (f := fuseProgram .other slot ok) rfl unit rfl,
      runs_ranIf (f := fuseRevoke .other slot ok) rfl unit rfl⟩
  case transition =>
    intro old t
    refine ⟨fun r stops => ?_, lcsJudge_unlisted, fun last => ?_, fun first next => ?_, fun second next => ?_, fun goes => ?_,
      fun goes => ?_⟩
    · refine runs_ran (f := lcsRequest .spi v ok) rfl ?_
      rw [lcsRequest_stopped stops]
      exact ⟨rfl, lcsState_lcsResult s.dev r⟩
    · have small : t < 4 := bits_lt v 1 0
      exact lcsJudge_unlisted (by omega)
    · rw [next, lcsJudge_provision first]
    · rw [next, lcsJudge_operate second]
    · exact runs_ran (f := lcsRequest .spi v true) rfl (lcsRequest_fuses goes)
    · exact runs_ran (f := lcsRequest .spi v false) rfl (lcsRequest_fails goes)
  case program =>
    intro may
    have unit := decide_eq_true h
    have judged : (lcsState s.dev ≥ 2 ∨ liveB s.dev offLcsKeys slot = true) ↔ ¬may := by
      rw [not_and_or, Bool.not_eq_false, Nat.not_lt]
    refine ⟨fun no => ?_, fun yes => ?_, fun yes => ?_⟩
    · exact runs_ranIf (f := fuseProgram .spi slot ok) rfl unit (if_pos (judged.mpr no))
    · exact runs_ranIf (f := fuseProgram .spi slot false) rfl unit (if_neg fun no => judged.mp no yes)
    · have fused : fuseProgram .spi slot true s.dev = slotFused slot s.dev := if_neg fun no => judged.mp no yes
      refine runs_ranIf (f := fuseProgram .spi slot true) rfl unit ?_
      rw [fused]
      have key (i : Nat) := liveB_slotFused s.dev h i
      have hash (q w : Nat) (hq : q < 4) (hw : w < 8) : liveGet (slotFused slot s.dev) (offLcsKeyHash q w) = liveGet (hashFused slot s.dev) (offLcsKeyHash q w) :=
        liveGet_slotFused_other s.dev (by unfold offLcsKeyHash offLcsKeys; omega) (by unfold offLcsKeyHash offLcsResult; omega)
      refine ⟨(key slot).trans (if_pos rfl), fun w hw => (hash slot w h hw).trans (liveGet_hashFused s.dev h hw),
        liveF_liveSetF_same _ _ _ (by decide) (by decide), fun q hq other => ⟨?_, ?_⟩, ?_⟩
      · rw [slotGood, key, key, if_neg other, if_neg (by omega), slotGood]
      · unfold keyHash
        refine List.flatMap_congr fun w hw => ?_
        have := List.mem_range.mp hw
        rw [hash q w hq this, liveGet_hashFused_other s.dev fun v hv => by unfold offLcsKeyHash; omega]
      · have rest := (hashFused_only s.dev (slot := slot)).rest
        exact congrArg (fun e : Dev => { e with regs := (slotFused slot s.dev).regs }) rest
  case revoke =>
    intro used rest
    have unit := decide_eq_true h
    refine ⟨fun none => ?_, fun state => ⟨fun hu => ?_, fun nu no => ?_, fun nu yes => ?_, fun nu yes => ?_⟩⟩
    · exact runs_ranIf (f := fuseRevoke .spi slot ok) rfl unit (if_pos none)
    all_goals have fusable : ¬(lcsState s.dev = 0 ∨ lcsState s.dev = 3) := by omega
    · exact runs_ranIf (f := fuseRevoke .spi slot ok) rfl unit ((if_neg fusable).trans (if_pos ((slotUsed_iff s.dev slot).mpr hu)))
    all_goals have free := fun hu => nu ((slotUsed_iff s.dev slot).mp hu)
    · have last : (!rest) = true := by rw [no]; rfl
      exact runs_ranIf (f := fuseRevoke .spi slot ok) rfl unit ((if_neg fusable).trans ((if_neg free).trans (if_pos last)))
    all_goals have left : ¬(!rest) = true := by rw [yes]; exact nofun
    · exact runs_ranIf (f := fuseRevoke .spi slot false) rfl unit ((if_neg fusable).trans ((if_neg free).trans (if_neg left)))
    · have revoked : fuseRevoke .spi slot true s.dev = slotRevoked slot s.dev :=
        (if_neg fusable).trans ((if_neg free).trans (if_neg left))
      refine runs_ranIf (f := fuseRevoke .spi slot true) rfl unit ?_
      rw [revoked]
      have key (i : Nat) := liveB_slotRevoked s.dev h i
      refine ⟨?_, liveF_liveSetF_same _ _ _ (by decide) (by decide), fun q hq other => ?_,
        ((OnlyWords.refl _ s.dev).liveSetB List.mem_cons_self).liveSetF (by simp)⟩
      · rw [slotGood, key (4 + slot), if_pos rfl, Bool.not_true, Bool.and_false]
      · rw [slotGood, key, key, if_neg (by omega), if_neg (by omega), slotGood]

end Sys2Proof.Machine
end

section
/-!
What a reset leaves (R441, R444): the words of the power controller and of the fuses, the levels of the inputs, and nothing else.
-/
namespace Sys2Proof.Machine

/-- What writes registers' current values alone is the device with those registers. -/
theorem OnlyWords.eq_regs {ws : List Nat} {a b : Dev} (h : OnlyWords ws a b) : b = { a with regs := b.regs } := by
  have rest := congrArg (fun e : Dev => { e with regs := b.regs }) h.rest
  exact rest

/-- A bit of a field. -/
theorem liveB_of_liveF {e : Dev} {o hi lo i v : Nat} (h : liveF e o hi lo = v) (low : lo ≤ i) (high : i ≤ hi) :
    liveB e o i = v.testBit (i - lo) := by
  rw [← h, liveF, testBit_bits, decide_eq_true (by omega), Bool.true_and, Nat.sub_add_cancel low, liveB]

/-- What a key reads as where the entries of some keys alone are left. -/
theorem mapGet_filterKeys {α : Type} (d : Nat → α) (keep : Nat → Bool) (m : List (Nat × α)) (k : Nat) :
    mapGet d (m.filter fun e => keep e.1) k = if keep k then mapGet d m k else d k := by
  induction m with
  | nil => simp [mapGet]
  | cons e t ih =>
    obtain ⟨j, v⟩ := e
    by_cases left : keep j = true
    · rw [List.filter_cons_of_pos (p := fun e : Nat × α => keep e.1) left, mapGet, ih, mapGet]
      by_cases here : j = k
      · rw [if_pos here, if_pos here, if_pos (here ▸ left)]
      · rw [if_neg here, if_neg here]
    · rw [List.filter_cons_of_neg (p := fun e : Nat × α => keep e.1) left, ih, mapGet]
      by_cases here : j = k
      · rw [if_neg (here ▸ left), if_neg (here ▸ left)]
      · rw [if_neg here]

/-- A word stands through a reset. -/
def standsReset (pmc : Bool) (lcs o : Nat) : Bool :=
  (pmc && decide (o / 0x100000 = blkPmc)) || decide (o / 0x100000 = blkLcs ∧ o % 0x100000 < lcs)

theorem keepWords_eq (pmc : Bool) (lcs : Nat) (b : Bank) : keepWords pmc lcs b = b.filter fun e => standsReset pmc lcs e.1 := rfl

section
variable (pmc : Bool) (lcs : Nat) (d : Dev)

/-- What a reset leaves before the levels of the inputs are shown again. -/
def resetCore : Dev :=
  { regs := { live := keepWords pmc lcs d.regs.live, shadow := keepWords pmc lcs d.regs.shadow,
              act := [(0, keepWords pmc lcs (actBank d))], snap := keepWords pmc lcs d.regs.snap }
    boot := { porst := d.boot.porst, standby := d.boot.standby, density := d.boot.density, flash := d.boot.flash, ops := d.boot.ops }
    pmc := if pmc then d.pmc else {} }

/-- The levels of the references, of the port banks and of the twin's lines show in n. -/
def levelsShown (n : Dev) : Dev :=
  let n := liveSetF n offClkStatus 1 0 (liveF d offClkStatus 1 0)
  let n := if pmc then liveSetF n offSapStatus 1 0 (liveF d offSapStatus 1 0) else n
  let n := if d.boot.porst then n else liveSetB n offTwnStatus 0 (liveB d offTwnStatus 0)
  liveSetB n offTwnStatus 3 (liveB d offTwnStatus 3)

theorem resetDev_eq : resetDev pmc lcs d = levelsShown pmc d (resetCore pmc lcs d) := rfl

/-- The levels of the references are shown first, then those of the port banks and of the twin's lines. -/
theorem levelsShown_rest (n : Dev) :
    OnlyWords [offSapStatus, offTwnStatus] (liveSetF n offClkStatus 1 0 (liveF d offClkStatus 1 0)) (levelsShown pmc d n) := by
  unfold levelsShown
  extract_lets n1 n2 n3
  have sap : OnlyWords [offSapStatus, offTwnStatus] n1 n2 := by
    unfold n2
    split
    · exact (OnlyWords.refl _ n1).liveSetF (by simp)
    · exact .refl _ n1
  have side : OnlyWords [offSapStatus, offTwnStatus] n1 n3 := by
    unfold n3
    split
    · exact sap
    · exact sap.liveSetB (by simp)
  exact side.liveSetB (by simp)

theorem levelsShown_only (n : Dev) : OnlyWords [offClkStatus, offSapStatus, offTwnStatus] n (levelsShown pmc d n) :=
  OnlyWords.trans (.liveSetF (by simp) (.refl _ n)) ((levelsShown_rest pmc d n).mono (by simp))

theorem liveGet_resetCore (o : Nat) : liveGet (resetCore pmc lcs d) o = if standsReset pmc lcs o then liveGet d o else resetWord o :=
  mapGet_filterKeys resetWord (standsReset pmc lcs) d.regs.live o

theorem resetDev_only : OnlyWords [offClkStatus, offSapStatus, offTwnStatus] (resetCore pmc lcs d) (resetDev pmc lcs d) := by
  rw [resetDev_eq]
  exact levelsShown_only pmc d _

/-- A register that shows no level of an input. -/
theorem liveGet_resetDev {o : Nat} (h : o ∉ [offClkStatus, offSapStatus, offTwnStatus]) :
    liveGet (resetDev pmc lcs d) o = if standsReset pmc lcs o then liveGet d o else resetWord o :=
  ((resetDev_only pmc lcs d).regs.live o h).trans (liveGet_resetCore pmc lcs d o)

/-- The words of the fuses stand. -/
theorem liveGet_resetDev_lcs {k : Nat} (h : k < lcs) (low : k < 0x100000) :
    liveGet (resetDev pmc lcs d) (0x1900000 + k) = liveGet d (0x1900000 + k) := by
  rw [liveGet_resetDev _ _ _ (by simp [offClkStatus, offSapStatus, offTwnStatus]; omega), if_pos]
  have block : (0x1900000 + k) / 0x100000 = blkLcs := by show _ = 25; omega
  have place : (0x1900000 + k) % 0x100000 = k := by omega
  rw [standsReset, block, place, decide_eq_true (p := blkLcs = blkLcs ∧ k < lcs) ⟨rfl, h⟩, Bool.or_true]

end

/-! ### A reset as PORST_N gives it (R444) -/

section
variable (d : Dev)

/-- The registers of the power controller. -/
abbrev PmcWord (o : Nat) : Prop := o / 0x100000 = blkPmc

/-- The power controller's registers stand. -/
theorem liveGet_porstReset {o : Nat} (h : PmcWord o) : liveGet (porstReset d) o = liveGet d o := by
  have block : o / 0x100000 = 22 := h
  rw [porstReset, liveGet_resetDev _ _ _ (by simp [offClkStatus, offSapStatus, offTwnStatus]; omega), if_pos]
  rw [standsReset, show decide (o / 0x100000 = blkPmc) = true from decide_eq_true h]
  rfl

/-- The levels of the references show. -/
theorem refLevel_porstReset {i : Nat} (h : i < 2) : liveB (porstReset d) offClkStatus i = liveB d offClkStatus i := by
  have shown : liveF (porstReset d) offClkStatus 1 0 = liveF d offClkStatus 1 0 :=
    ((levelsShown_rest true d (resetCore true 0x200 d)).regs.liveF (by decide) 1 0).trans
      ((liveF_liveSetF_same _ _ _ (by decide) (by decide)).trans (Nat.mod_eq_of_lt (liveF_lt _ _ _ _)))
  rw [liveB_of_liveF shown (Nat.zero_le i) (by omega), liveB_of_liveF (hi := 1) rfl (Nat.zero_le i) (by omega)]

theorem porstReset_boot : (porstReset d).boot =
    { porst := d.boot.porst, standby := d.boot.standby, density := d.boot.density, flash := d.boot.flash, ops := d.boot.ops } :=
  (resetDev_only true 0x200 d).boot

theorem porstReset_pmc : (porstReset d).pmc = d.pmc := (resetDev_only true 0x200 d).pmc

theorem porstReset_epc : (porstReset d).epc = {} := (resetDev_only true 0x200 d).epc

theorem seqState_porstReset : seqState (porstReset d) = seqState d := congrArg (bits · 2 0) (liveGet_porstReset d (by decide))

theorem pwrExt_porstReset : pwrExt (porstReset d) = pwrExt d := congrArg (bit · 1) (liveGet_porstReset d (by decide))

end

/-! ### A rail fault (R442) -/

section
variable (d : Dev) (rail cause : Nat)

/-- The device reset by a rail fault, with the fault recorded and the rails as they are. -/
def railFaultRecorded : Dev :=
  liveSetF (liveSetF (bumpSat (liveSetF (porstReset d) offPmcStatus 2 0 3) offPmcLastFault 31 24) offPmcLastFault 11 8 rail)
    offPmcLastFault 2 0 cause

/-- Rails 5 down to 0 are switched off. -/
def railsOff (d : Dev) : Dev :=
  liveSetF ((List.range 6).foldl (fun d r => liveSetF d (offPmcRailStatus r) 2 1 0) d) offSapStatus 1 0 0

theorem railFaultRecorded_only : OnlyWords [offPmcStatus, offPmcLastFault] (porstReset d) (railFaultRecorded d rail cause) := by
  have state : OnlyWords [offPmcStatus, offPmcLastFault] (porstReset d) (liveSetF (porstReset d) offPmcStatus 2 0 3) :=
    (OnlyWords.refl _ _).liveSetF (by simp)
  exact ((state.trans ((bumpSat_only _ _ _ _).mono (by simp))).liveSetF (by simp)).liveSetF (by simp)

theorem pwrExt_railFaultRecorded : pwrExt (railFaultRecorded d rail cause) = pwrExt d :=
  ((railFaultRecorded_only d rail cause).regs.liveB (by decide) 1).trans (pwrExt_porstReset d)

theorem railFaultEntry_eq : railFaultEntry rail cause d =
    if pwrExt d then railFaultRecorded d rail cause else railsOff (railFaultRecorded d rail cause) := by
  rw [← pwrExt_railFaultRecorded d rail cause]
  rfl

/-- The registers that switching the rails off writes. -/
abbrev railWords : List Nat := offSapStatus :: (List.range 6).map offPmcRailStatus

theorem railsOff_only : OnlyWords railWords d (railsOff d) :=
  (OnlyWords.foldl _ (fun r hr e => (OnlyWords.refl _ e).liveSetF (List.mem_cons_of_mem _ (List.mem_map.mpr ⟨r, hr, rfl⟩)))
    (.refl _ d)).liveSetF List.mem_cons_self

theorem railFaultEntry_only : OnlyWords railWords (railFaultRecorded d rail cause) (railFaultEntry rail cause d) := by
  rw [railFaultEntry_eq]
  split
  · exact .refl _ _
  · exact railsOff_only _

theorem offPmc_not_rail {o : Nat} (h : 0x1600000 ≤ o ∧ o < 0x1600200) : o ∉ railWords := by
  simp only [railWords, List.mem_cons, List.mem_map, List.mem_range, offSapStatus, offPmcRailStatus]
  omega

theorem railFaultEntry_boot : (railFaultEntry rail cause d).boot =
    { porst := d.boot.porst, standby := d.boot.standby, density := d.boot.density, flash := d.boot.flash, ops := d.boot.ops } := by
  rw [(railFaultEntry_only d rail cause).boot, (railFaultRecorded_only d rail cause).boot, porstReset_boot]

theorem railFaultEntry_pmc : (railFaultEntry rail cause d).pmc = d.pmc := by
  rw [(railFaultEntry_only d rail cause).pmc, (railFaultRecorded_only d rail cause).pmc, porstReset_pmc]

theorem seqState_railFaultEntry : seqState (railFaultEntry rail cause d) = 3 := by
  rw [seqState, (railFaultEntry_only d rail cause).regs.liveF (offPmc_not_rail (by decide)), railFaultRecorded, liveSetF, liveSetF,
    liveF_liveSet_other _ _ _ _ (by decide), liveF_liveSet_other _ _ _ _ (by decide), liveF,
    liveGet_bumpSat_other _ _ _ (by decide), ← liveF, liveF_liveSetF_same _ _ _ (by decide) (by decide)]
  rfl

/-- The recorded rail. -/
theorem faultRail_railFaultEntry (h : rail < 16) : liveF (railFaultEntry rail cause d) offPmcLastFault 11 8 = rail := by
  rw [(railFaultEntry_only d rail cause).regs.liveF (offPmc_not_rail (by decide)), railFaultRecorded,
    liveF_liveSetF_otherField _ _ _ (by decide) (by decide) (by decide) (by decide), liveF_liveSetF_same _ _ _ (by decide) (by decide)]
  exact Nat.mod_eq_of_lt h

/-- The recorded cause. -/
theorem faultCause_railFaultEntry (h : cause < 8) : liveF (railFaultEntry rail cause d) offPmcLastFault 2 0 = cause := by
  rw [(railFaultEntry_only d rail cause).regs.liveF (offPmc_not_rail (by decide)), railFaultRecorded,
    liveF_liveSetF_same _ _ _ (by decide) (by decide)]
  exact Nat.mod_eq_of_lt h

/-- Faults are counted up to 255. -/
theorem faultCount_railFaultEntry : liveF (railFaultEntry rail cause d) offPmcLastFault 31 24 =
    min 255 (liveF d offPmcLastFault 31 24 + 1) := by
  have before : liveF (liveSetF (porstReset d) offPmcStatus 2 0 3) offPmcLastFault 31 24 = liveF d offPmcLastFault 31 24 :=
    (liveF_liveSet_other _ _ 31 24 (by decide)).trans (congrArg (bits · 31 24) (liveGet_porstReset d (by decide)))
  rw [(railFaultEntry_only d rail cause).regs.liveF (offPmc_not_rail (by decide)), railFaultRecorded,
    liveF_liveSetF_otherField _ _ _ (by decide) (by decide) (by decide) (by decide),
    liveF_liveSetF_otherField _ _ _ (by decide) (by decide) (by decide) (by decide), liveF_bumpSat _ _ (by decide) (by decide), before]
  rfl

section
variable {hi lo v : Nat} {f : Nat → Nat}

/-- Writes of one field of several registers leave every other register. -/
theorem liveGet_foldl_liveSetF_other {o : Nat} : ∀ (l : List Nat) (d : Dev), (∀ p ∈ l, o ≠ f p) →
    liveGet (l.foldl (fun d p => liveSetF d (f p) hi lo v) d) o = liveGet d o
  | [], _, _ => rfl
  | p :: t, d, h => by
    rw [List.foldl_cons, liveGet_foldl_liveSetF_other t _ (fun q hq => h q (List.mem_cons_of_mem _ hq)), liveGet_liveSetF,
      if_neg (h p List.mem_cons_self)]

/-- The field of a register that is written, where the registers differ. -/
theorem liveF_foldl_liveSetF (inj : ∀ p q, f p = f q → p = q) (h : lo ≤ hi) (hh : hi < 32) {p : Nat} {l : List Nat} (mem : p ∈ l) :
    ∀ d : Dev, liveF (l.foldl (fun d p => liveSetF d (f p) hi lo v) d) (f p) hi lo = v % 2 ^ (hi - lo + 1) := by
  induction l with
  | nil => nomatch mem
  | cons q t ih =>
    intro d
    rw [List.foldl_cons]
    by_cases later : p ∈ t
    · exact ih later _
    · obtain rfl : p = q := (List.mem_cons.mp mem).resolve_right later
      rw [liveF, liveGet_foldl_liveSetF_other t _ fun r hr same => later (inj p r same ▸ hr), ← liveF, liveF_liveSetF_same _ _ _ h hh]

end

theorem railOff_railsOff {q : Nat} (h : q < 6) : liveF (railsOff d) (offPmcRailStatus q) 2 1 = 0 := by
  rw [railsOff, liveSetF, liveF_liveSet_other _ _ _ _ (by unfold offPmcRailStatus offSapStatus; omega)]
  refine (liveF_foldl_liveSetF (f := offPmcRailStatus) (fun p q same => ?_) (by decide) (by decide) (List.mem_range.mpr h) d).trans rfl
  unfold offPmcRailStatus at same
  omega

/-- In PMC mode every rail is switched off. -/
theorem railOff_railFaultEntry (own : pwrExt d = false) {q : Nat} (h : q < 6) :
    railIn (railFaultEntry rail cause d) q = false ∧ liveB (railFaultEntry rail cause d) (offPmcRailStatus q) 2 = false := by
  have off : liveF (railFaultEntry rail cause d) (offPmcRailStatus q) 2 1 = 0 := by
    rw [railFaultEntry_eq, own]
    exact railOff_railsOff _ h
  exact ⟨liveB_of_liveF off (by decide) (by decide), liveB_of_liveF off (by decide) (by decide)⟩

/-- With an external supply what a rail shows stands. -/
theorem liveGet_railFaultEntry_ext (ext : pwrExt d = true) (r : Nat) (h : r < 10) :
    liveGet (railFaultEntry rail cause d) (offPmcRailStatus r) = liveGet d (offPmcRailStatus r) := by
  have place : offPmcRailStatus r = 0x1600200 + 0x10 * r := rfl
  have block : PmcWord (offPmcRailStatus r) := by
    show _ = 22
    omega
  rw [railFaultEntry_eq, ext]
  refine ((railFaultRecorded_only d rail cause).regs.live _ ?_).trans (liveGet_porstReset d block)
  simp only [List.mem_cons, List.not_mem_nil, or_false, place, offPmcStatus, offPmcLastFault]
  omega

/-- A rail that is out of its window stays out. -/
theorem railIn_railFaultEntry {r : Nat} (h : r < 6) (out : railIn d r = false) : railIn (railFaultEntry rail cause d) r = false := by
  cases ext : pwrExt d with
  | false => exact (railOff_railFaultEntry d rail cause ext h).1
  | true => exact (congrArg (bit · 1) (liveGet_railFaultEntry_ext d rail cause ext r (by omega))).trans out

end

end Sys2Proof.Machine
end

section
/-!
The supplies come up (R437 to R446): the standby reset, the sequence of the rails, rail faults, PORST_N and TEST_MODE.
-/
namespace Sys2Proof.Machine

/-! ### The standby reset (R438, R441) -/

section
variable (ext test : Bool) (d : Dev)

/-- The straps are sampled at the release of the standby reset. -/
def strapsSampled : Dev :=
  liveSetB (liveSetB { d with boot := { d.boot with standby := false } } offPmcStraps 1 ext) offPmcStraps 2 test

/-- Rails 6 to 9 are in their windows. -/
def bootSetIn (d : Dev) : Dev := [6, 7, 8, 9].foldl (fun d r => liveSetB d (offPmcRailStatus r) 1 true) d

theorem standbyRelease_held (held : d.boot.standby = true) :
    standbyRelease ext test d = seqStart (bootSetIn (strapsSampled ext test d)) := if_pos held

theorem standbyRelease_up (up : d.boot.standby = false) : standbyRelease ext test d = d := if_neg (by simp [up])

theorem bootSetIn_only : OnlyWords ([6, 7, 8, 9].map offPmcRailStatus) d (bootSetIn d) :=
  .foldl _ (fun _ hr e => (OnlyWords.refl _ e).liveSetB (List.mem_map_of_mem hr)) (.refl _ d)

theorem railIn_bootSetIn {r : Nat} (low : 6 ≤ r) (high : r < 10) : railIn (bootSetIn d) r = true :=
  liveB_foldl_liveSetB (f := offPmcRailStatus) (l := [6, 7, 8, 9]) (by decide) (by simp; omega)

theorem seqTo_only (state rail : Nat) : OnlyWords [offPmcStatus] d (seqTo state rail d) :=
  ((OnlyWords.refl _ d).liveSetF List.mem_cons_self).liveSetF List.mem_cons_self

theorem seqState_seqTo {state : Nat} (rail : Nat) (h : state < 8) : seqState (seqTo state rail d) = state := by
  rw [seqState, seqTo, liveF_liveSetF_otherField _ _ _ (by decide) (by decide) (by decide) (by decide),
    liveF_liveSetF_same _ _ _ (by decide) (by decide)]
  exact Nat.mod_eq_of_lt h

theorem seqRail_seqTo (state : Nat) {rail : Nat} (h : rail < 16) : liveF (seqTo state rail d) offPmcStatus 15 12 = rail := by
  rw [seqTo, liveF_liveSetF_same _ _ _ (by decide) (by decide)]
  exact Nat.mod_eq_of_lt h

theorem seqState_seqStart : seqState (seqStart d) = if pwrExt d = true then 0 else 1 := by
  refine (seqState_seqTo d 0 ?_).trans rfl
  split <;> decide

theorem pwrExt_strapsSampled : pwrExt (strapsSampled ext test d) = ext :=
  (liveB_liveSetB_otherBit _ _ _ (by decide) (by decide)).trans (liveB_liveSetB_same _ _ _ (by decide))

theorem testMode_strapsSampled : liveB (strapsSampled ext test d) offPmcStraps 2 = test := liveB_liveSetB_same _ _ _ (by decide)

theorem offPmcRailStatus_ne (r : Nat) {o : Nat} (low : o < 0x1600200) : offPmcRailStatus r ≠ o := by
  unfold offPmcRailStatus
  omega

theorem offPmcRailStatus_not_mem {o : Nat} (l : List Nat) (low : o < 0x1600200) : o ∉ l.map offPmcRailStatus := by
  simp only [List.mem_map, offPmcRailStatus, not_exists, not_and]
  omega

/-- The straps read as they were sampled. -/
theorem liveB_straps_bootSetIn (i : Nat) :
    liveB (bootSetIn (strapsSampled ext test d)) offPmcStraps i = liveB (strapsSampled ext test d) offPmcStraps i :=
  (bootSetIn_only _).regs.liveB (offPmcRailStatus_not_mem _ (by decide)) i

theorem pwrExt_bootSetIn : pwrExt (bootSetIn (strapsSampled ext test d)) = ext :=
  (liveB_straps_bootSetIn ext test d 1).trans (pwrExt_strapsSampled ext test d)

/-- The sequence starts with the straps and the boot set in place. -/
theorem standbyReleased (held : d.boot.standby = true) :
    (standbyRelease ext test d).boot = { d.boot with standby := false } ∧ pwrExt (standbyRelease ext test d) = ext ∧
      liveB (standbyRelease ext test d) offPmcStraps 2 = test ∧ seqState (standbyRelease ext test d) = (if ext = true then 0 else 1) ∧
      liveF (standbyRelease ext test d) offPmcStatus 15 12 = 0 ∧
      (∀ r, 6 ≤ r → r < 10 → railIn (standbyRelease ext test d) r = true) ∧
      standbyRelease ext test d = { d with regs := (standbyRelease ext test d).regs, boot := (standbyRelease ext test d).boot } := by
  rw [standbyRelease_held ext test d held]
  have start : OnlyWords [offPmcStatus] (bootSetIn (strapsSampled ext test d)) (seqStart (bootSetIn (strapsSampled ext test d))) :=
    seqTo_only _ _ _
  have straps : OnlyWords [offPmcStraps] { d with boot := { d.boot with standby := false } } (strapsSampled ext test d) :=
    ((OnlyWords.refl _ _).liveSetB List.mem_cons_self).liveSetB List.mem_cons_self
  have boot := ((start.boot.trans (bootSetIn_only _).boot).trans straps.boot)
  refine ⟨boot, ?_, ?_, ?_, seqRail_seqTo _ _ (by decide), fun r low high => ?_, ?_⟩
  · exact (start.regs.liveB (by decide) 1).trans (pwrExt_bootSetIn ext test d)
  · rw [start.regs.liveB (by decide), liveB_straps_bootSetIn, testMode_strapsSampled]
  · rw [seqState_seqStart, pwrExt_bootSetIn]
  · refine (start.regs.liveB ?_ 1).trans (railIn_bootSetIn _ low high)
    rw [List.mem_singleton]
    exact offPmcRailStatus_ne r (by decide)
  · rw [boot]
    have all := straps.mono (vs := offPmcStatus :: offPmcStraps :: [6, 7, 8, 9].map offPmcRailStatus) (by simp)
    have rails := (bootSetIn_only (strapsSampled ext test d)).mono
      (vs := offPmcStatus :: offPmcStraps :: [6, 7, 8, 9].map offPmcRailStatus) (by simp)
    exact ((all.trans rails).trans (start.mono (by simp))).eq_regs

theorem standbyAssert_held (held : d.boot.standby = true) : standbyAssert d = d := if_pos held

/-- The device as the assertion of the standby reset leaves it, before the sampled side is shown. -/
abbrev standbyCleared : Dev := resetDev false 0x200 { d with boot := { d.boot with standby := true } }

theorem standbyAssert_up (up : d.boot.standby = false) :
    standbyAssert d = liveSetB (standbyCleared d) offPmcStraps 0 (!d.boot.porst && liveB d offPmcStraps 0) := if_neg (by simp [up])

/-- Every unit is as after reset, the flash and the fuses stand. -/
theorem standbyAsserted (up : d.boot.standby = false) :
    (standbyAssert d).boot = { d.boot with standby := true, up := false, phase := .reset, manifest := none, bad := [], kept := [],
                                            dirty := false, reload := none, ptpRun := 0, opening := none } ∧
      (standbyAssert d).epc = {} ∧ (standbyAssert d).mem = {} ∧ (standbyAssert d).mgmt = {} ∧ (standbyAssert d).pmc = {} ∧
      (standbyAssert d).vec = {} ∧ (standbyAssert d).xp = {} ∧ seqState (standbyAssert d) = 0 ∧
      (∀ s' w, liveGet (standbyAssert d) (offLcsKeyHash (s' % 4) (w % 8)) = liveGet d (offLcsKeyHash (s' % 4) (w % 8))) := by
  rw [standbyAssert_up d up]
  have reset := resetDev_only false 0x200 { d with boot := { d.boot with standby := true } }
  have shown := reset.mono (vs := [offPmcStraps, offClkStatus, offSapStatus, offTwnStatus]) (by simp)
  have all := shown.liveSetB (o := offPmcStraps) (i := 0) (v := !d.boot.porst && liveB d offPmcStraps 0) (by simp)
  refine ⟨all.boot, all.epc, all.mem, all.mgmt, all.pmc, all.vec, all.xp, ?_, fun s' w => ?_⟩
  · rw [seqState, all.regs.liveF (by decide), liveF, liveGet_resetCore, if_neg (by decide)]
    decide
  · have slot : s' % 4 < 4 := Nat.mod_lt _ (by decide)
    have word : w % 8 < 8 := Nat.mod_lt _ (by decide)
    have place : offLcsKeyHash (s' % 4) (w % 8) = 0x1900000 + (0x100 + 0x20 * (s' % 4) + 0x4 * (w % 8)) := by
      unfold offLcsKeyHash
      omega
    rw [liveSetB, liveGet_liveSet_other _ _ (by rw [place]; unfold offPmcStraps; omega), place,
      liveGet_resetDev_lcs _ _ _ (by omega) (by omega)]
    rfl

end

/-! ### Rails in and out of their windows (R437, R439, R442) -/

section
variable (r : Nat) (d : Dev)

theorem railInWindow_known (v33 : Bool) (known : d.boot.standby = true ∨ railIn d r = true) : railInWindow r v33 d = d :=
  if_pos (by simpa using known)

/-- The rail shows in its window. -/
abbrev railShown : Dev := liveSetB d (offPmcRailStatus r) 1 true

theorem railInWindow_new (v33 : Bool) (up : d.boot.standby = false) (out : railIn d r = false) : railInWindow r v33 d =
    if r = 4 then liveSetB (railShown r d) offSapStatus 0 v33
    else if r = 5 then liveSetB (railShown r d) offSapStatus 1 v33 else railShown r d := if_neg (by simp [up, out])

theorem railInWindow_shows (v33 : Bool) (up : d.boot.standby = false) (out : railIn d r = false) :
    railIn (railInWindow r v33 d) r = true ∧ (r = 4 → liveB (railInWindow r v33 d) offSapStatus 0 = v33) ∧
      (r = 5 → liveB (railInWindow r v33 d) offSapStatus 1 = v33) ∧
      OnlyWords [offPmcRailStatus r, offSapStatus] d (railInWindow r v33 d) := by
  have shown : railIn (railShown r d) r = true := liveB_liveSetB_same _ _ _ (by decide)
  have bank (i : Nat) : railIn (liveSetB (railShown r d) offSapStatus i v33) r = true :=
    (liveB_liveSet_other _ _ 1 (offPmcRailStatus_ne r (by decide))).trans shown
  have only : OnlyWords [offPmcRailStatus r, offSapStatus] d (railShown r d) := .liveSetB (by simp) (.refl _ d)
  rw [railInWindow_new r d v33 up out]
  split
  · next four =>
    exact ⟨bank 0, fun _ => liveB_liveSetB_same _ _ _ (by decide), by omega, only.liveSetB (by simp)⟩
  · split
    · exact ⟨bank 1, by omega, fun _ => liveB_liveSetB_same _ _ _ (by decide), only.liveSetB (by simp)⟩
    · exact ⟨shown, by omega, by omega, only⟩

theorem railQualified_idle (idle : ¬(sequencing d r = true ∧ railIn d r = true)) : railQualified r d = d :=
  if_neg (by simpa using idle)

/-- The rail counts as qualified and its regulator as answering. -/
abbrev railCounted : Dev := liveSetB (liveSetB d (offPmcRailStatus r) 2 true) (offPmcRailStatus r) 0 true

theorem railQualified_due (turn : sequencing d r = true) (inside : railIn d r = true) : railQualified r d =
    if r < 5 then seqTo 1 (r + 1) (railCounted r d) else releaseCheck true (seqTo 2 r (railCounted r d)) :=
  if_pos (by simp [turn, inside])

theorem railCounted_only : OnlyWords [offPmcRailStatus r, offPmcStatus] d (railCounted r d) :=
  ((OnlyWords.refl _ d).liveSetB List.mem_cons_self).liveSetB List.mem_cons_self

theorem railCounted_bits : liveB (railCounted r d) (offPmcRailStatus r) 2 = true ∧ liveB (railCounted r d) (offPmcRailStatus r) 0 = true :=
  ⟨(liveB_liveSetB_otherBit _ _ _ (by decide) (by decide)).trans (liveB_liveSetB_same _ _ _ (by decide)),
    liveB_liveSetB_same _ _ _ (by decide)⟩

/-- What a rail shows stands as the sequence goes on. -/
theorem liveB_rail_seqTo (state rail i : Nat) :
    liveB (seqTo state rail d) (offPmcRailStatus r) i = liveB d (offPmcRailStatus r) i :=
  (seqTo_only d state rail).regs.liveB (by rw [List.mem_singleton]; exact offPmcRailStatus_ne r (by decide)) i

theorem railQualified_next (turn : sequencing d r = true) (inside : railIn d r = true) (h : r < 5) :
    liveB (railQualified r d) (offPmcRailStatus r) 2 = true ∧ liveB (railQualified r d) (offPmcRailStatus r) 0 = true ∧
      seqState (railQualified r d) = 1 ∧ liveF (railQualified r d) offPmcStatus 15 12 = r + 1 ∧
      OnlyWords [offPmcRailStatus r, offPmcStatus] d (railQualified r d) := by
  rw [railQualified_due r d turn inside, if_pos h, liveB_rail_seqTo, liveB_rail_seqTo]
  obtain ⟨qualified, answers⟩ := railCounted_bits r d
  exact ⟨qualified, answers, seqState_seqTo _ _ (by decide), seqRail_seqTo _ _ (by omega),
    (railCounted_only r d).trans ((seqTo_only _ _ _).mono (by simp))⟩

/-- While PORST_N is low no boot starts. -/
theorem releaseCheck_porst (was : Bool) {d : Dev} (low : d.boot.porst = true) : releaseCheck was d = d :=
  if_neg (by simp [heldReset, low])

theorem railQualified_last (turn : sequencing d 5 = true) (inside : railIn d 5 = true) :
    railQualified 5 d = releaseCheck true (seqTo 2 5 (railCounted 5 d)) ∧
      (d.boot.porst = true → seqState (railQualified 5 d) = 2 ∧ liveB (railQualified 5 d) (offPmcRailStatus 5) 2 = true ∧
        (railQualified 5 d).boot = d.boot) := by
  rw [railQualified_due 5 d turn inside, if_neg (by decide)]
  refine ⟨rfl, fun low => ?_⟩
  have boot : (seqTo 2 5 (railCounted 5 d)).boot = d.boot := (seqTo_only _ _ _).boot.trans (railCounted_only 5 d).boot
  rw [releaseCheck_porst true ((congrArg Boot.porst boot).trans low), liveB_rail_seqTo]
  exact ⟨seqState_seqTo _ _ (by decide), (railCounted_bits 5 d).1, boot⟩

theorem railTimeout_idle (no : Bool) (idle : sequencing d r = false) : railTimeout r no d = d := if_neg (by simp [idle])

theorem railTimeout_due (no : Bool) (turn : sequencing d r = true) : railTimeout r no d =
    railFaultEntry r (if no = true then 2 else 1) (liveSetB d (offPmcRailStatus r) 0 (!no)) := by
  rw [railTimeout, if_pos turn]
  cases no <;> rfl

theorem railFault_held (ov : Bool) (held : d.boot.standby = true) : railFault r ov d = d := if_pos held

/-- The rail shows out of its window. -/
abbrev railLost : Dev := liveSetB d (offPmcRailStatus r) 1 false

theorem railFault_up (ov : Bool) (up : d.boot.standby = false) : railFault r ov d =
    if railQualifiedNow d r then railFaultEntry r (if ov then 4 else 3) (railLost r d) else railLost r d := if_neg (by simp [up])

theorem railIn_railLost : railIn (railLost r d) r = false := liveB_liveSetB_same _ _ _ (by decide)

theorem railLost_only : OnlyWords [offPmcRailStatus r] d (railLost r d) := .liveSetB List.mem_cons_self (.refl _ d)

theorem seqState_railLost : seqState (railLost r d) = seqState d := liveF_liveSet_other _ _ _ _ (offPmcRailStatus_ne r (by decide)).symm

/-- The fault of a qualified rail is recorded and counted, and switches the rails off. -/
theorem railFault_records (ov : Bool) (up : d.boot.standby = false) (qualified : railQualifiedNow d r = true) (h : r < 6) :
    seqState (railFault r ov d) = 3 ∧ liveF (railFault r ov d) offPmcLastFault 11 8 = r ∧
      liveF (railFault r ov d) offPmcLastFault 2 0 = (if ov = true then 4 else 3) ∧ railIn (railFault r ov d) r = false ∧
      liveF (railFault r ov d) offPmcLastFault 31 24 = min 255 (liveF d offPmcLastFault 31 24 + 1) ∧
      (railFault r ov d).boot.phase = .reset ∧
      (pwrExt d = false → ∀ q, q < 6 → railIn (railFault r ov d) q = false ∧ liveB (railFault r ov d) (offPmcRailStatus q) 2 = false) := by
  rw [railFault_up r d ov up, if_pos qualified]
  have cause : (if ov = true then 4 else 3) < 8 := by split <;> decide
  have count : liveF (railLost r d) offPmcLastFault 31 24 = liveF d offPmcLastFault 31 24 :=
    liveF_liveSet_other _ _ _ _ (offPmcRailStatus_ne r (by decide)).symm
  have strap : pwrExt (railLost r d) = pwrExt d := liveB_liveSet_other _ _ _ (offPmcRailStatus_ne r (by decide)).symm
  exact ⟨seqState_railFaultEntry _ _ _, faultRail_railFaultEntry _ _ _ (by omega), faultCause_railFaultEntry _ _ _ cause,
    railIn_railFaultEntry _ _ _ h (railIn_railLost r d), (faultCount_railFaultEntry _ _ _).trans (by rw [count]),
    by rw [railFaultEntry_boot], fun own q hq => railOff_railFaultEntry _ _ _ (strap.trans own) hq⟩

end

/-! ### PORST_N, the power good of an external supply and TEST_MODE (R440, R444, R446) -/

section
variable (d : Dev)

theorem porstFall_low (low : d.boot.porst = true) : porstFall d = d := if_pos low

/-- PORST_N has fallen: everything but the standby domain is reset. -/
abbrev porstFallen : Dev :=
  porstReset { d with boot := { d.boot with porst := true }, pmc := { d.pmc with shut := [], burnt := [] } }

theorem porstFall_high (high : d.boot.porst = false) :
    porstFall d = if seqState (porstFallen d) = 3 then seqStart (porstFallen d) else porstFallen d := if_neg (by simp [high])

theorem porstFall_only (high : d.boot.porst = false) : OnlyWords [offPmcStatus] (porstFallen d) (porstFall d) := by
  rw [porstFall_high d high]
  split
  · exact seqTo_only _ _ _
  · exact .refl _ _

theorem porstFall_resets (high : d.boot.porst = false) :
    (porstFall d).boot.porst = true ∧ (porstFall d).boot.phase = .reset ∧ (porstFall d).boot.flash = d.boot.flash ∧
      (porstFall d).pmc = { d.pmc with shut := [], burnt := [] } ∧ (porstFall d).epc = {} ∧
      seqState (porstFall d) = (if seqState d = 3 then (if pwrExt d = true then 0 else 1) else seqState d) := by
  have only := porstFall_only d high
  have state : seqState (porstFallen d) = seqState d := seqState_porstReset _
  have strap : pwrExt (porstFallen d) = pwrExt d := pwrExt_porstReset _
  refine ⟨by rw [only.boot, porstReset_boot], by rw [only.boot, porstReset_boot], by rw [only.boot, porstReset_boot],
    only.pmc.trans (porstReset_pmc _), only.epc.trans (porstReset_epc _), ?_⟩
  rw [porstFall_high d high, ← strap, ← state]
  split
  · exact seqState_seqStart _
  · rfl

theorem extPowerGood_due (due : d.boot.standby = false ∧ pwrExt d = true ∧ seqState d = 0) : extPowerGood d = releaseCheck true
    (liveSetF ((List.range 10).foldl (fun d r => liveSetB d (offPmcRailStatus r) 1 true) d) offPmcStatus 2 0 2) :=
  if_pos (by simpa [and_assoc] using due)

theorem extPowerGood_idle (idle : ¬(d.boot.standby = false ∧ pwrExt d = true ∧ seqState d = 0)) : extPowerGood d = d :=
  if_neg (by simpa [and_assoc] using idle)

/-- TEST_MODE shows high. -/
abbrev testModeShown : Dev := liveSetB d offPmcStraps 2 true

theorem testModeChange_high : testModeChange true d =
    if (testModeShown d).boot.phase = .reset then testModeShown d else porstReset (testModeShown d) := rfl

theorem testModeChange_low : testModeChange false d = releaseCheck (liveB d offPmcStraps 2) (liveSetB d offPmcStraps 2 false) := rfl

theorem testMode_porstReset : liveB (porstReset (testModeShown d)) offPmcStraps 2 = true :=
  (congrArg (bit · 2) (liveGet_porstReset _ (by decide))).trans (liveB_liveSetB_same _ _ _ (by decide))

end

/-- Settles O48: each command out of turn changes nothing, and in turn leaves what its lemma above says. -/
theorem suppliesComeUpInOrder : Obligations.SuppliesComeUpInOrder := by
  unfold Obligations.SuppliesComeUpInOrder
  refine ⟨fun s => ?_,
    fun s r v33 h => ⟨fun known => ?_, fun up out => ?_⟩,
    fun s r h => ⟨fun idle => ?_, fun turn inside low => ?_, fun last turn inside => ?_, fun no idle => ?_, fun no turn => ?_,
      fun ov held => ?_, fun ov up not => ?_, fun ov up qualified => ?_⟩,
    fun s => ⟨fun low => ?_, fun high => ?_, ⟨fun due => ?_, fun idle => ?_⟩, fun reset => ?_, fun runs => ?_, ?_⟩⟩
  · intro up
    exact ⟨fun ext test held => runs_ran (f := standbyRelease ext test) rfl (standbyReleased ext test s.dev held),
      fun ext test hup => runs_ran (f := standbyRelease ext test) rfl (standbyRelease_up ext test s.dev hup),
      fun held => runs_ran (f := standbyAssert) rfl (standbyAssert_held s.dev held),
      fun hup => runs_ran (f := standbyAssert) rfl (standbyAsserted s.dev hup)⟩
  · exact runs_ranIf (f := railInWindow r v33) rfl (decide_eq_true h) (railInWindow_known r s.dev v33 known)
  · exact runs_ranIf (f := railInWindow r v33) rfl (decide_eq_true h) (railInWindow_shows r s.dev v33 up out)
  · exact runs_ranIf (f := railQualified r) rfl (decide_eq_true h) (railQualified_idle r s.dev idle)
  · exact runs_ranIf (f := railQualified r) rfl (decide_eq_true h) (railQualified_next r s.dev turn inside low)
  · subst last
    exact runs_ranIf (f := railQualified 5) rfl rfl (railQualified_last s.dev turn inside)
  · exact runs_ranIf (f := railTimeout r no) rfl (decide_eq_true h) (railTimeout_idle r s.dev no idle)
  · refine runs_ranIf (f := railTimeout r no) rfl (decide_eq_true h) ?_
    have cause : (if no = true then 2 else 1) < 8 := by split <;> decide
    rw [railTimeout_due r s.dev no turn, railFaultEntry_boot]
    exact ⟨rfl, seqState_railFaultEntry _ _ _, faultRail_railFaultEntry _ _ _ (by omega), faultCause_railFaultEntry _ _ _ cause, rfl, rfl⟩
  · exact runs_ranIf (f := railFault r ov) rfl (decide_eq_true h) (railFault_held r s.dev ov held)
  · refine runs_ranIf (f := railFault r ov) rfl (decide_eq_true h) ?_
    rw [railFault_up r s.dev ov up, not]
    exact ⟨rfl, railIn_railLost r s.dev, seqState_railLost r s.dev⟩
  · exact runs_ranIf (f := railFault r ov) rfl (decide_eq_true h) (railFault_records r s.dev ov up qualified h)
  · exact runs_ran (f := porstFall) rfl (porstFall_low s.dev low)
  · exact runs_ran (f := porstFall) rfl (porstFall_resets s.dev high)
  · exact runs_ran (f := extPowerGood) rfl (extPowerGood_due s.dev due)
  · exact runs_ran (f := extPowerGood) rfl (extPowerGood_idle s.dev idle)
  · exact runs_ran (f := testModeChange true) rfl ((testModeChange_high s.dev).trans (if_pos reset))
  · refine runs_ran (f := testModeChange true) rfl ?_
    rw [(testModeChange_high s.dev).trans (if_neg runs)]
    exact ⟨rfl, by rw [porstReset_boot], testMode_porstReset s.dev⟩
  · exact runs_ran (f := testModeChange false) rfl (testModeChange_low s.dev)

end Sys2Proof.Machine
end

section
/-!
The words of the regulators and the thermal sensors (R442, R452 to R455).
-/
namespace Sys2Proof.Machine

/-- A run of steps of which one, at a, brings P about and no other ends it. -/
theorem foldl_establishes {α : Type} {P : Dev → Prop} {f : Dev → α → Dev} {a : α} (sets : ∀ d, P (f d a)) :
    ∀ {l : List α}, a ∈ l → (∀ e ∈ l, e = a ∨ ∀ d, P d → P (f d e)) → ∀ d, P (l.foldl f d) := by
  have stays : ∀ (l : List α), (∀ e ∈ l, e = a ∨ ∀ d, P d → P (f d e)) → ∀ d, P d → P (l.foldl f d) := by
    intro l
    induction l with
    | nil => exact fun _ _ h => h
    | cons e t ih =>
      intro keeps d h
      refine ih (fun x hx => keeps x (List.mem_cons_of_mem _ hx)) _ ?_
      rcases keeps e List.mem_cons_self with rfl | keep
      · exact sets d
      · exact keep d h
  intro l
  induction l with
  | nil => exact fun mem => nomatch mem
  | cons e t ih =>
    intro mem keeps d
    have rest := fun x hx => keeps x (List.mem_cons_of_mem e hx)
    rcases List.mem_cons.mp mem with rfl | later
    · exact stays t rest _ (sets d)
    · exact ih later rest _

/-! ### STATUS_WORD and telemetry (R442) -/

section
variable (d : Dev) (x : RailReading) (r : Nat) (l : List RailReading)

/-- A faulty regulator is one of rails 0 to 5. -/
theorem faultyRail_lt {l : List RailReading} {r : Nat} (h : faultyRail l = some r) : r < 6 :=
  List.mem_range.mp (List.mem_of_find?_eq_some h)

theorem statusFaultCheck_none {l : List RailReading} (h : faultyRail l = none) : statusFaultCheck l d = d := by
  rw [statusFaultCheck, h]

theorem statusFaultCheck_some {l : List RailReading} {r : Nat} (h : faultyRail l = some r) :
    statusFaultCheck l d = railFaultEntry r 5 d := by
  rw [statusFaultCheck, h]

/-- Every answering regulator's STATUS_WORD has been read. -/
abbrev alerted : Dev := (l.take 10).zipIdx.foldl statusRead d

/-- Every answering regulator's measurements have been read. -/
abbrev polled : Dev := (l.take 10).zipIdx.foldl telemetryRead d

theorem pmbAlert_held (held : d.boot.standby = true) : pmbAlert l d = d := if_pos held

theorem pmbAlert_up (up : d.boot.standby = false) : pmbAlert l d = statusFaultCheck l (alerted d l) := if_neg (by simp [up])

theorem telemetryPoll_off (off : d.boot.standby = true ∨ actB d offPmcTelemetry 8 = false) : telemetryPoll l d = d :=
  if_pos (by simpa using off)

theorem telemetryPoll_on (up : d.boot.standby = false) (on : actB d offPmcTelemetry 8 = true) :
    telemetryPoll l d = statusFaultCheck l (polled d l) := if_neg (by simp [up, on])

/-- The registers of one rail, and STATUS for TELEM_ERR. -/
abbrev railRegs : List Nat := [offPmcRailStatus r, offPmcRailMeas r, offPmcRailImax r, offPmcStatus]

theorem statusRead_only : OnlyWords (railRegs r) d (statusRead d (x, r)) := by
  unfold statusRead
  extract_lets off
  split
  · exact ((OnlyWords.refl _ d).liveSetF List.mem_cons_self).liveSetB List.mem_cons_self
  · exact (OnlyWords.refl _ d).liveSetB List.mem_cons_self

theorem telemetryRead_absent (absent : x.present = false) : telemetryRead d (x, r) =
    if liveB d (offPmcRailStatus r) 0 then liveSetB (statusRead d (x, r)) offPmcStatus 5 true else d := by
  rw [telemetryRead, if_neg (by simp [absent])]

/-- The measurements of a rail. -/
def railMeasured : Dev :=
  liveSetF (liveSetF (statusRead d (x, r)) (offPmcRailMeas r) 15 0 (x.vout % 65536)) (offPmcRailMeas r) 31 16 (x.iout % 65536)

theorem telemetryRead_present (present : x.present = true) : telemetryRead d (x, r) =
    liveMax (railMeasured d x r) (offPmcRailImax r) 15 0 (x.iout % 65536) := by
  rw [telemetryRead, if_pos present]
  rfl

theorem railMeasured_only : OnlyWords (railRegs r) d (railMeasured d x r) :=
  ((statusRead_only d x r).liveSetF (by simp)).liveSetF (by simp)

theorem telemetryRead_only : OnlyWords (railRegs r) d (telemetryRead d (x, r)) := by
  cases present : x.present with
  | true =>
    rw [telemetryRead_present d x r present]
    exact (railMeasured_only d x r).liveMax (by simp) 15 0 _
  | false =>
    rw [telemetryRead_absent d x r present]
    split
    · exact (statusRead_only d x r).liveSetB (by simp)
    · exact .refl _ _

/-- What the registers of a rail show after its regulator has answered a poll. -/
structure RailShows : Prop where
  status : liveF d (offPmcRailStatus r) 31 16 = x.status.toNat
  vout : liveF d (offPmcRailMeas r) 15 0 = x.vout % 65536
  iout : liveF d (offPmcRailMeas r) 31 16 = x.iout % 65536
  answers : liveB d (offPmcRailStatus r) 0 = true
  imax : x.iout % 65536 ≤ liveF d (offPmcRailImax r) 15 0

theorem le_liveF_liveMax (o : Nat) {hi lo v : Nat} (h : lo ≤ hi) (hh : hi < 32) (fits : v < 2 ^ (hi - lo + 1)) :
    v ≤ liveF (liveMax d o hi lo v) o hi lo := by
  unfold liveMax
  split
  · exact ((liveF_liveSetF_same _ _ _ h hh).trans (Nat.mod_eq_of_lt fits)).ge
  · next above => exact Nat.le_of_not_lt above

theorem railShows_telemetryRead (present : x.present = true) : RailShows (telemetryRead d (x, r)) x r := by
  have ne : offPmcRailStatus r ≠ offPmcRailMeas r ∧ offPmcRailStatus r ≠ offPmcRailImax r ∧ offPmcRailMeas r ≠ offPmcRailImax r := by
    unfold offPmcRailStatus offPmcRailMeas offPmcRailImax
    omega
  obtain ⟨statusMeas, statusImax, measImax⟩ := ne
  have only : OnlyWords [offPmcRailImax r] (railMeasured d x r) (telemetryRead d (x, r)) := by
    rw [telemetryRead_present d x r present]
    exact (OnlyWords.refl _ _).liveMax List.mem_cons_self 15 0 _
  have beside {o : Nat} (h : o ≠ offPmcRailImax r) : o ∉ [offPmcRailImax r] := fun mem => h (List.mem_singleton.mp mem)
  have read : statusRead d (x, r) =
      liveSetB (liveSetF d (offPmcRailStatus r) 31 16 x.status.toNat) (offPmcRailStatus r) 0 true := by
    rw [statusRead, if_pos present]
  have vfits : x.vout % 65536 < 65536 := Nat.mod_lt _ (by decide)
  have ifits : x.iout % 65536 < 65536 := Nat.mod_lt _ (by decide)
  constructor
  · rw [only.regs.liveF (beside statusImax), railMeasured, liveSetF, liveSetF, liveF_liveSet_other _ _ _ _ statusMeas,
      liveF_liveSet_other _ _ _ _ statusMeas, read, liveF_liveSetB_otherField _ _ _ (by decide) (by decide) (by decide),
      liveF_liveSetF_same _ _ _ (by decide) (by decide)]
    exact Nat.mod_eq_of_lt x.status.isLt
  · rw [only.regs.liveF (beside measImax), railMeasured,
      liveF_liveSetF_otherField _ _ _ (by decide) (by decide) (by decide) (by decide), liveF_liveSetF_same _ _ _ (by decide) (by decide)]
    exact Nat.mod_eq_of_lt vfits
  · rw [only.regs.liveF (beside measImax), railMeasured, liveF_liveSetF_same _ _ _ (by decide) (by decide)]
    exact Nat.mod_eq_of_lt ifits
  · rw [only.regs.liveB (beside statusImax), railMeasured, liveSetF, liveSetF, liveB_liveSet_other _ _ _ statusMeas,
      liveB_liveSet_other _ _ _ statusMeas, read]
    exact liveB_liveSetB_same _ _ _ (by decide)
  · rw [telemetryRead_present d x r present]
    exact le_liveF_liveMax _ _ (by decide) (by decide) ifits

/-- The poll of another rail leaves what a rail shows. -/
theorem RailShows.telemetryRead {d : Dev} {x : RailReading} {r : Nat} (h : RailShows d x r) (y : RailReading) {q : Nat} (ne : q ≠ r) :
    RailShows (telemetryRead d (y, q)) x r := by
  have only := telemetryRead_only d y q
  have status : offPmcRailStatus r ∉ railRegs q := by
    simp only [railRegs, List.mem_cons, List.not_mem_nil, offPmcRailStatus, offPmcRailMeas, offPmcRailImax, offPmcStatus, or_false]
    omega
  have meas : offPmcRailMeas r ∉ railRegs q := by
    simp only [railRegs, List.mem_cons, List.not_mem_nil, offPmcRailStatus, offPmcRailMeas, offPmcRailImax, offPmcStatus, or_false]
    omega
  have imax : offPmcRailImax r ∉ railRegs q := by
    simp only [railRegs, List.mem_cons, List.not_mem_nil, offPmcRailStatus, offPmcRailMeas, offPmcRailImax, offPmcStatus, or_false]
    omega
  exact ⟨(only.regs.liveF status 31 16).trans h.status, (only.regs.liveF meas 15 0).trans h.vout,
    (only.regs.liveF meas 31 16).trans h.iout, (only.regs.liveB status 0).trans h.answers,
    h.imax.trans_eq (only.regs.liveF imax 15 0).symm⟩

theorem railShows_polled (h : r < 10) (at_r : l[r]? = some x) (present : x.present = true) : RailShows (polled d l) x r := by
  have here : (l.take 10)[r]? = some x := (List.getElem?_take_of_lt h).trans at_r
  refine foldl_establishes (P := fun e => RailShows e x r) (fun e => railShows_telemetryRead e x r present)
    (List.mem_zipIdx_iff_getElem?.mpr here) (fun e mem => ?_) d
  by_cases same : e.2 = r
  · left
    have there := List.mem_zipIdx_iff_getElem?.mp mem
    rw [same, here] at there
    exact Prod.ext (Option.some.inj there).symm same
  · exact .inr fun d shows => shows.telemetryRead e.1 same

end

/-! ### The readings of the sensors (R452) -/

section
variable (l : List (Nat × Int))

/-- The warmer of two readings, the first of equals. -/
def warmer (m : Option (Nat × Int)) (e : Nat × Int) : Option (Nat × Int) := match m with
  | none => some e
  | some x => some (if x.2 < e.2 then e else x)

theorem hottest_eq : hottest l = l.foldl warmer none := rfl

theorem foldl_warmer_some : ∀ (l : List (Nat × Int)) (x : Nat × Int), ∃ e, l.foldl warmer (some x) = some e ∧ x.2 ≤ e.2 ∧
    (e = x ∨ e ∈ l) ∧ ∀ y ∈ l, y.2 ≤ e.2
  | [], x => ⟨x, rfl, le_refl _, .inl rfl, fun _ mem => nomatch mem⟩
  | y :: t, x => by
    obtain ⟨e, top, above, among, all⟩ := foldl_warmer_some t (if x.2 < y.2 then y else x)
    have both : x.2 ≤ e.2 ∧ y.2 ≤ e.2 := by split at above <;> omega
    refine ⟨e, top, both.1, ?_, List.forall_mem_cons.mpr ⟨both.2, all⟩⟩
    rcases among with here | later
    · split at here
      · exact .inr (here ▸ List.mem_cons_self)
      · exact .inl here
    · exact .inr (List.mem_cons_of_mem _ later)

/-- The highest reading is one of them and none is higher. -/
theorem hottest_max {l : List (Nat × Int)} {e : Nat × Int} (mem : e ∈ l) : ∃ m, hottest l = some m ∧ m ∈ l ∧ e.2 ≤ m.2 := by
  cases l with
  | nil => nomatch mem
  | cons a t =>
    obtain ⟨m, top, first, among, all⟩ := foldl_warmer_some t a
    refine ⟨m, top, ?_, ?_⟩
    · rcases among with rfl | later
      · exact List.mem_cons_self
      · exact List.mem_cons_of_mem _ later
    · rcases List.mem_cons.mp mem with rfl | later
      · exact first
      · exact all e later

theorem hottest_mem {l : List (Nat × Int)} {m : Nat × Int} (top : hottest l = some m) : m ∈ l := by
  cases l with
  | nil => nomatch top
  | cons a t =>
    obtain ⟨n, top', mem, -⟩ := hottest_max (l := a :: t) List.mem_cons_self
    obtain rfl : m = n := Option.some.inj (top.symm.trans top')
    exact mem

variable (d : Dev) (tj : List Int)

/-- Each sensor gives one reading. -/
theorem mem_validReadings {q : Nat} {t : Int} (mem : (q, t) ∈ validReadings d tj) : q < 8 ∧ tj[q]? = some t := by
  obtain ⟨s, low, val⟩ := List.mem_filterMap.mp mem
  split at val
  · nomatch val
  · obtain ⟨t', here, same⟩ := Option.map_eq_some_iff.mp val
    obtain ⟨rfl, rfl⟩ := Prod.mk.inj same
    exact ⟨List.mem_range.mp low, here⟩

theorem find_validReadings {q : Nat} {t : Int} (mem : (q, t) ∈ validReadings d tj) :
    (validReadings d tj).find? (fun e => decide (e.1 = q)) = some (q, t) := by
  cases found : (validReadings d tj).find? (fun e => decide (e.1 = q)) with
  | none => exact absurd rfl (of_decide_eq_false (List.find?_eq_none.mp found _ mem |> Bool.eq_false_iff.mpr))
  | some e =>
    obtain ⟨p, u⟩ := e
    obtain rfl : p = q := of_decide_eq_true (List.find?_some found :)
    have one := (mem_validReadings d tj (List.mem_of_find?_eq_some found)).2
    rw [(mem_validReadings d tj mem).2] at one
    rw [Option.some.inj one]

/-- The words of one sensor. -/
def thermShown (d : Dev) (s : Nat) : Dev := match l.find? fun e => decide (e.1 = s) with
  | none => liveSetF d (offPmcTherm s) 15 0 0x8000
  | some e =>
    let d := liveSetF d (offPmcTherm s) 15 0 (thermWord e.2)
    if (BitVec.ofNat 16 (liveF d (offPmcTherm s) 31 16)).toInt < e.2 then liveSetF d (offPmcTherm s) 31 16 (thermWord e.2) else d

theorem thermRegs_eq : thermRegs l d = (List.range 8).foldl (thermShown l) d := rfl

theorem thermShown_only (s : Nat) : OnlyWords [offPmcTherm s] d (thermShown l d s) := by
  unfold thermShown
  split
  · exact (OnlyWords.refl _ d).liveSetF List.mem_cons_self
  · extract_lets shown
    have tj : OnlyWords [offPmcTherm s] d shown := (OnlyWords.refl _ d).liveSetF List.mem_cons_self
    split
    · exact tj.liveSetF List.mem_cons_self
    · exact tj

theorem thermWord_lt (t : Int) : thermWord t < 2 ^ 16 := by
  unfold thermWord
  split
  · exact BitVec.isLt _
  · exact BitVec.isLt _

theorem thermShown_reading {l : List (Nat × Int)} {q : Nat} {t : Int} (found : l.find? (fun e => decide (e.1 = q)) = some (q, t)) :
    liveF (thermShown l d q) (offPmcTherm q) 15 0 = thermWord t := by
  have shown : liveF (liveSetF d (offPmcTherm q) 15 0 (thermWord t)) (offPmcTherm q) 15 0 = thermWord t :=
    (liveF_liveSetF_same _ _ _ (by decide) (by decide)).trans (Nat.mod_eq_of_lt (thermWord_lt t))
  rw [thermShown, found]
  dsimp only
  split
  · exact (liveF_liveSetF_otherField _ _ _ (by decide) (by decide) (by decide) (by decide)).trans shown
  · exact shown

/-- The registers of the sensors. -/
abbrev thermWords : List Nat := (List.range 8).map offPmcTherm

theorem thermRegs_only : OnlyWords thermWords d (thermRegs l d) := by
  rw [thermRegs_eq]
  exact .foldl _ (fun s mem e => (thermShown_only l e s).mono (by simpa using List.mem_range.mp mem)) (.refl _ d)

theorem thermRegs_reading {q : Nat} {t : Int} (mem : (q, t) ∈ validReadings d tj) (e : Dev) :
    liveF (thermRegs (validReadings d tj) e) (offPmcTherm q) 15 0 = thermWord t := by
  rw [thermRegs_eq]
  refine foldl_establishes (P := fun e => liveF e (offPmcTherm q) 15 0 = thermWord t) (a := q)
    (fun e => thermShown_reading e (find_validReadings d tj mem)) (List.mem_range.mpr (mem_validReadings d tj mem).1)
    (fun s _ => ?_) e
  by_cases same : s = q
  · exact .inl same
  · refine .inr fun e shows => ((thermShown_only _ e s).regs.liveF (fun word => same ?_) 15 0).trans shows
    have := List.mem_singleton.mp word
    unfold offPmcTherm at this
    omega

end

/-! ### The thermal entries, alarm and shutdown (R453, R454) -/

section
variable (code : Nat) (e : Nat × Int) (l : List (Nat × Int)) (d : Dev)

/-- A raised error writes no register of the power controller. -/
theorem errWords_not_pmc {o : Nat} (word : PmcWord o) : o ∉ errWords := by
  intro mem
  have block : o / 0x100000 = 22 := word
  unfold errWords offErrFatal offErrStatus offTwnStatus offClkTuneCode offErrClassCount offSapPortStatus at mem
  simp only [List.mem_append, List.mem_cons, List.mem_map, List.mem_range, List.not_mem_nil, or_false] at mem
  omega

theorem ErrOnly.pmc {a b : Dev} (h : ErrOnly a b) : b.pmc = a.pmc := by
  have pmc := congrArg Dev.pmc h.rest
  exact pmc

theorem ErrOnly.liveGet_pmc {a b : Dev} (h : ErrOnly a b) {o : Nat} (word : PmcWord o) : liveGet b o = liveGet a o :=
  h.regs.live o (errWords_not_pmc word)

theorem thermEntry_err {a d : Dev} (h : ErrOnly a d) : ErrOnly a (thermEntry code e d) := by
  unfold thermEntry
  split
  · exact h
  · exact raiseErr_err _ _ _ _ h

/-- The alarm shows and is counted. -/
abbrev alarmShown : Dev := bump (liveSetB d offPmcStatus 6 true) offPmcThermCount

theorem thermAlarm_sets (hot : ∃ e ∈ l, 26880 ≤ e.2) (clear : liveB d offPmcStatus 6 = false) :
    ∃ m, thermAlarm l d = thermEntry 0x0003 m (alarmShown d) := by
  obtain ⟨e, mem, high⟩ := hot
  obtain ⟨m, top, -, above⟩ := hottest_max mem
  exact ⟨m, by rw [thermAlarm, top]; exact if_pos ⟨by omega, clear⟩⟩

theorem thermAlarm_stays (quiet : ¬(∃ e ∈ l, 26880 ≤ e.2) ∨ liveB d offPmcStatus 6 = true) : thermAlarm l d = d := by
  unfold thermAlarm
  split
  · next m top =>
    refine if_neg fun ⟨high, clear⟩ => ?_
    rcases quiet with cool | set
    · exact cool ⟨m, hottest_mem top, high⟩
    · rw [set] at clear
      nomatch clear
  · rfl

/-- What the alarm leaves. -/
structure AlarmOnly (a b : Dev) : Prop where
  pmc : b.pmc = a.pmc
  boot : b.boot = a.boot
  words : ∀ o, PmcWord o → o ≠ offPmcStatus → o ≠ offPmcThermCount → liveGet b o = liveGet a o

theorem alarmShown_bit : liveB (alarmShown d) offPmcStatus 6 = true :=
  (liveB_liveSet_other _ _ _ (by decide)).trans (liveB_liveSetB_same _ _ _ (by decide))

theorem alarmShown_count : liveGet (alarmShown d) offPmcThermCount = liveGet d offPmcThermCount + 1 := by
  rw [alarmShown, liveGet_bump, if_pos rfl, liveSetB, liveGet_liveSet_other _ _ (by decide)]

theorem thermAlarm_only : AlarmOnly d (thermAlarm l d) := by
  by_cases sets : (∃ e ∈ l, 26880 ≤ e.2) ∧ liveB d offPmcStatus 6 = false
  · obtain ⟨m, rewr⟩ := thermAlarm_sets l d sets.1 sets.2
    have entry : ErrOnly (alarmShown d) (thermAlarm l d) := by
      rw [rewr]
      exact thermEntry_err _ _ (.refl _)
    have shown : OnlyWords [offPmcStatus, offPmcThermCount] d (alarmShown d) := ((OnlyWords.refl _ d).liveSetB (by simp)).bump (by simp)
    refine ⟨entry.pmc.trans shown.pmc, entry.boot.trans shown.boot, fun o word status count => ?_⟩
    exact (entry.liveGet_pmc word).trans (shown.regs.live o (by simp [status, count]))
  · rw [thermAlarm_stays l d (by
      rw [not_and_or] at sets
      exact sets.imp id fun set => by simpa using set)]
    exact ⟨rfl, rfl, fun _ _ _ _ => rfl⟩

/-- The alarm bit. -/
theorem alarm_thermAlarm : liveB (thermAlarm l d) offPmcStatus 6 = (liveB d offPmcStatus 6 || l.any fun e => decide (26880 ≤ e.2)) := by
  by_cases hot : ∃ e ∈ l, 26880 ≤ e.2
  · rw [show (l.any fun e => decide (26880 ≤ e.2)) = true by simpa using hot, Bool.or_true]
    cases set : liveB d offPmcStatus 6 with
    | false =>
      obtain ⟨m, rewr⟩ := thermAlarm_sets l d hot set
      rw [rewr]
      exact (congrArg (bit · 6) ((thermEntry_err _ _ (.refl _)).liveGet_pmc (by decide))).trans (alarmShown_bit d)
    | true => rw [thermAlarm_stays l d (.inr set), set]
  · rw [thermAlarm_stays l d (.inl hot), show (l.any fun e => decide (26880 ≤ e.2)) = false by simpa using hot, Bool.or_false]

/-- The count of the alarms. -/
theorem count_thermAlarm (clear : liveB d offPmcStatus 6 = false) (hot : ∃ e ∈ l, 26880 ≤ e.2) :
    liveGet (thermAlarm l d) offPmcThermCount = liveGet d offPmcThermCount + 1 := by
  obtain ⟨m, rewr⟩ := thermAlarm_sets l d hot clear
  rw [rewr]
  exact ((thermEntry_err _ _ (.refl _)).liveGet_pmc (by decide)).trans (alarmShown_count d)

theorem fatal_thermEntry (runs : d.boot.phase ≠ .reset) : fatal (thermEntry 0x0004 e d) = true := by
  rw [thermEntry, if_neg runs, raiseErr_fatalCode _ _ (by decide)]
  exact (fatalRaised _ _ _ _).dead

/-- The sensors' entries of the shutdown. -/
abbrev shutdownLogged : Dev := l.foldl (fun d e => thermEntry 0x0004 e d) d

theorem shutdownLogged_err : ErrOnly d (shutdownLogged l d) := .foldl _ (fun _ _ _ h => thermEntry_err _ _ h) (.refl d)

theorem fatal_shutdownLogged (runs : d.boot.phase ≠ .reset) (some : l ≠ []) : fatal (shutdownLogged l d) = true := by
  obtain ⟨t, e, rfl⟩ := (List.eq_nil_or_concat' l).resolve_left some
  rw [shutdownLogged, List.foldl_append]
  exact fatal_thermEntry _ _ (by rwa [(shutdownLogged_err t d).boot])

/-- Sensors that raise the shutdown, of those that have read 125 degrees twice. -/
abbrev newlyShut (twice : List (Nat × Int)) (d : Dev) : List (Nat × Int) := twice.filter fun (e : Nat × Int) => !(d.pmc.shut.contains e.1)

/-- The shutdown is held and shown. -/
def shutdownHeld : Dev :=
  liveSetB { shutdownLogged l d with pmc := { (shutdownLogged l d).pmc with shut := (shutdownLogged l d).pmc.shut ++ l.map (·.1) } }
    offPmcStatus 7 true

theorem thermShutdown_none (none : newlyShut l d = []) : thermShutdown l d = d := if_pos (List.isEmpty_iff.mpr none)

theorem thermShutdown_some (some : newlyShut l d ≠ []) : thermShutdown l d =
    if pwrExt (shutdownHeld (newlyShut l d) d) then shutdownHeld (newlyShut l d) d
    else liveSetF (liveSetB (shutdownHeld (newlyShut l d) d) offPmcStatus 8 true) (offPmcRailStatus 0) 2 1 0 :=
  if_neg (by simpa using some)

theorem shutdownHeld_pmc : (shutdownHeld l d).pmc = { d.pmc with shut := d.pmc.shut ++ l.map (·.1) } := by
  have pmc := (shutdownLogged_err l d).pmc
  calc (shutdownHeld l d).pmc = { (shutdownLogged l d).pmc with shut := (shutdownLogged l d).pmc.shut ++ l.map (·.1) } := rfl
    _ = _ := by rw [pmc]

theorem fatal_shutdownHeld (runs : d.boot.phase ≠ .reset) (some : l ≠ []) : fatal (shutdownHeld l d) = true :=
  (liveB_liveSet_other _ _ _ (by decide)).trans (fatal_shutdownLogged l d runs some)

theorem pwrExt_shutdownHeld : pwrExt (shutdownHeld l d) = pwrExt d :=
  (liveB_liveSet_other _ _ _ (by decide)).trans (congrArg (bit · 1) ((shutdownLogged_err l d).liveGet_pmc (by decide)))

/-- A shutdown is Fatal, is held, and switches VDD_CD off where the PMC drives the rails. -/
theorem thermShutdown_fatal (runs : d.boot.phase ≠ .reset) (some : newlyShut l d ≠ []) :
    (thermShutdown l d).pmc.shut = d.pmc.shut ++ (newlyShut l d).map (·.1) ∧ liveB (thermShutdown l d) offPmcStatus 7 = true ∧
      fatal (thermShutdown l d) = true ∧
      (pwrExt d = false → liveB (thermShutdown l d) offPmcStatus 8 = true ∧ railIn (thermShutdown l d) 0 = false) := by
  have held : liveB (shutdownHeld (newlyShut l d) d) offPmcStatus 7 = true := liveB_liveSetB_same _ _ _ (by decide)
  have dead := fatal_shutdownHeld (newlyShut l d) d runs some
  have shut : (shutdownHeld (newlyShut l d) d).pmc.shut = d.pmc.shut ++ (newlyShut l d).map (·.1) := by rw [shutdownHeld_pmc]
  rw [thermShutdown_some l d some, pwrExt_shutdownHeld]
  split
  · next ext => exact ⟨shut, held, dead, fun own => nomatch ext.symm.trans own⟩
  · refine ⟨shut, ?_, ?_, fun _ => ⟨?_, ?_⟩⟩
    · rw [liveSetF, liveB_liveSet_other _ _ _ (by decide), liveB_liveSetB_otherBit _ _ _ (by decide) (by decide), held]
    · rw [fatal, liveSetF, liveB_liveSet_other _ _ _ (by decide), liveSetB, liveB_liveSet_other _ _ _ (by decide)]
      exact dead
    · rw [liveSetF, liveB_liveSet_other _ _ _ (by decide), liveB_liveSetB_same _ _ _ (by decide)]
    · exact liveB_of_liveF (hi := 2) (lo := 1) (liveF_liveSetF_same _ _ _ (by decide) (by decide)) (by decide) (by decide)

end

/-! ### A thermal sample (R452 to R455) -/

section
variable (tj : List Int) (d : Dev) (l : List (Nat × Int))

/-- Readings of 125 degrees and more. -/
abbrev hotNow : List (Nat × Int) := l.filter fun e => decide (32000 ≤ e.2)

/-- Readings of 135 degrees and more outside VDD_CD. -/
abbrev hotterNow : List (Nat × Int) := l.filter fun e => decide (5 ≤ e.1 ∧ 34560 ≤ e.2)

/-- Sensors that read 125 degrees at the sample before too. -/
abbrev hotTwice : List (Nat × Int) := l.filter fun e => decide (32000 ≤ e.2) && d.pmc.hot.contains e.1

theorem hotNow_filter : ((hotNow l).filter fun e => d.pmc.hot.contains e.1) = hotTwice d l := by
  rw [hotNow, List.filter_filter]
  exact List.filter_congr fun e _ => Bool.and_comm _ _

/-- Sensors that meet a condition of R455. -/
abbrev burntNow : List Nat :=
  ((hotterNow l).filter fun e => d.pmc.hotter.contains e.1).map (·.1) ++ (if d.boot.phase = .reset then (hotTwice d l).map (·.1) else [])

/-- What a sample keeps of the readings. -/
abbrev sampleKept : Pmc :=
  { d.pmc with hot := (hotNow l).map (·.1), hotter := (hotterNow l).map (·.1), burnt := burntNow d l
               cool := if l.all (fun e => decide (e.2 ≤ 25600)) then d.pmc.cool + 1 else 0 }

/-- The device with the readings shown, the alarm judged and the sample kept. -/
def sampleTaken : Dev := { thermAlarm l (thermRegs l d) with pmc := sampleKept d l }

theorem thermAlarm_thermRegs_only : AlarmOnly (thermRegs l d) (thermAlarm l (thermRegs l d)) := thermAlarm_only _ _

theorem thermalSample_held (held : d.boot.standby = true) : thermalSample tj d = d := if_pos held

theorem sampleTaken_boot : (sampleTaken d l).boot = d.boot :=
  ((thermAlarm_thermRegs_only d l).boot).trans (thermRegs_only l d).boot

theorem thermalSample_up (up : d.boot.standby = false) (h : validReadings d tj = l) : thermalSample tj d =
    if (burntNow d l).any (fun s => !(d.pmc.burnt.contains s)) then railFaultEntry 0 6 (sampleTaken d l)
    else if d.boot.phase = .reset then sampleTaken d l else thermShutdown (hotTwice d l) (sampleTaken d l) := by
  have pmc : (thermAlarm l (thermRegs l d)).pmc = d.pmc := ((thermAlarm_thermRegs_only d l).pmc).trans (thermRegs_only l d).pmc
  subst h
  unfold thermalSample
  rw [if_neg (by simp [up])]
  extract_lets l was hot hotter twice burnt cool n before taken
  have twiceEq : twice = hotTwice d l := hotNow_filter d l
  have burntEq : burnt = burntNow d l := by
    unfold burnt
    rw [twiceEq]
  have takenEq : taken = sampleTaken d l := by
    unfold taken before
    rw [burntEq, show n.pmc = d.pmc from pmc]
    rfl
  rw [burntEq, twiceEq, takenEq, sampleTaken_boot]

theorem burntNow_any (l : List Nat) : (l.any (fun s => !(d.pmc.burnt.contains s)) = true) ↔ ¬∀ q ∈ l, q ∈ d.pmc.burnt := by
  simp

theorem offPmcTherm_word {q : Nat} (h : q < 8) : PmcWord (offPmcTherm q) ∧ offPmcTherm q ≠ offPmcStatus ∧ offPmcTherm q ≠ offPmcThermCount := by
  have place : offPmcTherm q = 0x1600100 + 4 * q := rfl
  refine ⟨?_, ?_, ?_⟩
  · show _ = 22
    omega
  · rw [place]
    unfold offPmcStatus
    omega
  · rw [place]
    unfold offPmcThermCount
    omega

theorem not_thermWord {o : Nat} (h : o < 0x1600100 ∨ 0x1600200 ≤ o) : o ∉ thermWords := by
  simp only [thermWords, List.mem_map, List.mem_range, offPmcTherm, not_exists, not_and]
  omega

/-- What a sample shows. -/
structure SampleShown (e : Dev) : Prop where
  pmc : e.pmc = { d.pmc with hot := (hotNow l).map (·.1), hotter := (hotterNow l).map (·.1), burnt := burntNow d l, cool := e.pmc.cool }
  reading : ∀ q t, (q, t) ∈ l → liveF e (offPmcTherm q) 15 0 = thermWord t
  cool : e.pmc.cool = (if l.all (fun e => decide (e.2 ≤ 25600)) = true then d.pmc.cool + 1 else 0)
  alarm : liveB e offPmcStatus 6 = (liveB d offPmcStatus 6 || l.any fun e => decide (26880 ≤ e.2))
  count : liveB d offPmcStatus 6 = false → (∃ e ∈ l, 26880 ≤ e.2) → liveGet e offPmcThermCount = liveGet d offPmcThermCount + 1
  boot : e.boot = d.boot

theorem sampleTaken_shown : SampleShown d (validReadings d tj) (sampleTaken d (validReadings d tj)) where
  pmc := rfl
  reading q t mem := by
    obtain ⟨word, status, count⟩ := offPmcTherm_word (mem_validReadings d tj mem).1
    refine Eq.trans ?_ (thermRegs_reading d tj mem d)
    exact congrArg (bits · 15 0) ((thermAlarm_thermRegs_only d _).words _ word status count)
  cool := rfl
  alarm := by
    have before := (thermRegs_only (validReadings d tj) d).regs.liveB (not_thermWord (o := offPmcStatus) (by decide)) 6
    exact (alarm_thermAlarm _ _).trans (by rw [before])
  count clear hot := by
    have regs := (thermRegs_only (validReadings d tj) d).regs
    have clear' := (regs.liveB (not_thermWord (o := offPmcStatus) (by decide)) 6).trans clear
    refine (count_thermAlarm _ _ clear' hot).trans ?_
    rw [regs.live _ (not_thermWord (o := offPmcThermCount) (by decide))]
  boot := sampleTaken_boot d _

theorem pwrExt_sampleTaken : pwrExt (sampleTaken d l) = pwrExt d :=
  (congrArg (bit · 1) ((thermAlarm_thermRegs_only d l).words offPmcStraps (by decide) (by decide) (by decide))).trans
    ((thermRegs_only l d).regs.liveB (not_thermWord (by decide)) 1)

theorem thermalSample_quiet (up : d.boot.standby = false) (quiet : ∀ q ∈ burntNow d (validReadings d tj), q ∈ d.pmc.burnt)
    (still : d.boot.phase = .reset ∨ newlyShut (hotTwice d (validReadings d tj)) d = []) :
    thermalSample tj d = sampleTaken d (validReadings d tj) := by
  rw [thermalSample_up tj d _ up rfl, if_neg ((burntNow_any d _).not.mpr (not_not.mpr quiet))]
  split
  · rfl
  · next runs => exact thermShutdown_none _ _ (still.resolve_left runs)

theorem thermalSample_shutdown (up : d.boot.standby = false) (quiet : ∀ q ∈ burntNow d (validReadings d tj), q ∈ d.pmc.burnt)
    (runs : d.boot.phase ≠ .reset) :
    thermalSample tj d = thermShutdown (hotTwice d (validReadings d tj)) (sampleTaken d (validReadings d tj)) := by
  rw [thermalSample_up tj d _ up rfl, if_neg ((burntNow_any d _).not.mpr (not_not.mpr quiet)), if_neg runs]

theorem thermalSample_fault (up : d.boot.standby = false) (burns : ¬∀ q ∈ burntNow d (validReadings d tj), q ∈ d.pmc.burnt) :
    thermalSample tj d = railFaultEntry 0 6 (sampleTaken d (validReadings d tj)) := by
  rw [thermalSample_up tj d _ up rfl, if_pos ((burntNow_any d _).mpr burns)]

end

/-! ### The alarm clears (R453) -/

section
variable (d : Dev)

/-- The readings shown. -/
def shownReadings : List (Nat × Int) := (List.range 8).filterMap fun s =>
  let w := liveF d (offPmcTherm s) 15 0
  if w = 0x8000 then none else some (s, (BitVec.ofNat 16 w).toInt)

/-- The alarm has cleared. -/
abbrev alarmCleared : Dev := liveSetB d offPmcStatus 6 false

theorem thermalAlarmClear_due (due : liveB d offPmcStatus 6 = true ∧ 1000 ≤ d.pmc.cool) : thermalAlarmClear d =
    match hottest (shownReadings d) with
    | some e => thermEntry 0x0003 e (alarmCleared d)
    | none => alarmCleared d := by
  rw [thermalAlarmClear, if_pos due]
  rfl

theorem thermalAlarmClear_idle (idle : ¬(liveB d offPmcStatus 6 = true ∧ 1000 ≤ d.pmc.cool)) : thermalAlarmClear d = d := if_neg idle

theorem thermalAlarmClear_err (due : liveB d offPmcStatus 6 = true ∧ 1000 ≤ d.pmc.cool) :
    ErrOnly (alarmCleared d) (thermalAlarmClear d) := by
  rw [thermalAlarmClear_due d due]
  split
  · exact thermEntry_err _ _ (.refl _)
  · exact .refl _

end

/-- Settles O49: an alert, a poll and a sample are what is read, followed by a rail fault or a shutdown where the readings call for one. -/
theorem suppliesAndHeatAreWatched : Obligations.SuppliesAndHeatAreWatched := by
  unfold Obligations.SuppliesAndHeatAreWatched
  refine ⟨fun s l => ?_, fun s tj up => ?_, fun s => ?_⟩
  · intro alerted polled
    refine ⟨fun held => ⟨runs_ran (f := pmbAlert l) rfl (pmbAlert_held _ l held),
      runs_ran (f := telemetryPoll l) rfl (telemetryPoll_off _ l (.inl held)),
      fun tj => runs_ran (f := thermalSample tj) rfl (thermalSample_held tj _ held)⟩, fun up none => ?_, fun r up found => ?_,
      fun off => runs_ran (f := telemetryPoll l) rfl (telemetryPoll_off _ l (.inr off)), fun up on none => ?_, fun r up on found => ?_⟩
    · exact runs_ran (f := pmbAlert l) rfl ((pmbAlert_up _ l up).trans (statusFaultCheck_none _ none))
    · refine runs_ran (f := pmbAlert l) rfl ?_
      rw [(pmbAlert_up _ l up).trans (statusFaultCheck_some _ found)]
      have low := faultyRail_lt found
      exact ⟨rfl, seqState_railFaultEntry _ _ _, faultRail_railFaultEntry _ _ _ (by omega), faultCause_railFaultEntry _ _ _ (by decide)⟩
    · refine runs_ran (f := telemetryPoll l) rfl ?_
      rw [(telemetryPoll_on _ l up on).trans (statusFaultCheck_none _ none)]
      refine ⟨rfl, fun r x h here present => ?_⟩
      obtain ⟨status, vout, iout, answers, imax⟩ := railShows_polled s.dev x r l h here present
      exact ⟨status, vout, iout, answers, imax⟩
    · exact runs_ran (f := telemetryPoll l) rfl ((telemetryPoll_on _ l up on).trans (statusFaultCheck_some _ found))
  · intro l twice hotter burnt new quiet
    refine ⟨fun hq still => ?_, fun hq runs some => ?_, fun burns => ?_⟩
    · refine runs_ran (f := thermalSample tj) rfl ?_
      rw [thermalSample_quiet tj s.dev up hq still]
      obtain ⟨pmc, reading, cool, alarm, count, boot⟩ := sampleTaken_shown tj s.dev
      exact ⟨pmc, reading, cool, alarm, count, boot⟩
    · refine runs_ran (f := thermalSample tj) rfl ?_
      rw [thermalSample_shutdown tj s.dev up hq runs]
      have taken := thermShutdown_fatal twice (sampleTaken s.dev l) (by rwa [sampleTaken_boot]) some
      rwa [pwrExt_sampleTaken] at taken
    · refine runs_ran (f := thermalSample tj) rfl ?_
      rw [thermalSample_fault tj s.dev up burns, railFaultEntry_boot, railFaultEntry_pmc]
      exact ⟨seqState_railFaultEntry _ _ _, faultCause_railFaultEntry _ _ _ (by decide), faultRail_railFaultEntry _ _ _ (by decide), rfl, rfl⟩
  · intro due
    refine ⟨fun hdue => ?_, fun idle => runs_ran (f := thermalAlarmClear) rfl (thermalAlarmClear_idle _ idle)⟩
    have cleared := thermalAlarmClear_err s.dev hdue
    refine runs_ran (f := thermalAlarmClear) rfl ⟨?_, cleared.pmc⟩
    exact (congrArg (bit · 6) (cleared.liveGet_pmc (by decide))).trans (liveB_liveSetB_same _ _ _ (by decide))

end Sys2Proof.Machine
end

section
/-!
The boot (R381 to R387): the release of PORST_N, the sections that the steps load and what they leave, the end of the boot, confirmation.
-/
namespace Sys2Proof.Machine

/-! ### What does not touch the boot -/

/-- What every step of a run keeps, the run keeps. -/
theorem foldl_keeps {γ α β : Type} {g : γ → β} {f : γ → α → γ} (h : ∀ c x, g (f c x) = g c) : ∀ (l : List α) (c : γ), g (l.foldl f c) = g c
  | [], _ => rfl
  | x :: t, c => (foldl_keeps h t (f c x)).trans (h c x)

section
variable (d : Dev)

theorem raiseErr_boot (source code : Nat) (a0 a1 : Word) : (raiseErr d source code a0 a1).boot = d.boot := (raiseErr_err source code a0 a1 (.refl d)).boot

theorem fieldWrite_boot (off : Nat) (val : Word) (acc : Dev × Bool × Bool) (f : FieldDesc) :
    (fieldWrite off val acc f).1.boot = acc.1.boot := by
  unfold fieldWrite
  extract_lets d raw ok v
  split
  · rfl
  · rfl
  · rfl
  · rfl
  · rfl
  · rfl
  · split <;> rfl

theorem staticReject_boot (off : Nat) (val : Word) : (staticReject d off val).boot = d.boot := by
  unfold staticReject
  rw [raiseErr_boot]
  exact (bumpSat_only d offEpcStaticRejectCount 31 0).boot

theorem reservedCode_boot (off : Nat) (val : Word) : (reservedCode d off val).boot = d.boot := by
  unfold reservedCode
  extract_lets b o x
  refine (raiseErr_boot _ _ _ _ _).trans ?_
  show (if _ then _ else d).boot = d.boot
  split <;> rfl

theorem regStore_boot (off : Nat) (val : Word) : (regStore d off val).1.boot = d.boot := by
  unfold regStore
  split
  · rfl
  · next r _ =>
    extract_lets a x
    have fields : a.1.boot = d.boot :=
      foldl_keeps (g := fun acc : Dev × Bool × Bool => acc.1.boot) (fieldWrite_boot off val) r.fields (d, false, false)
    have codes : x.boot = d.boot := by
      show (if _ then _ else a.1).boot = d.boot
      split
      · exact (reservedCode_boot _ _ _).trans fields
      · exact fields
    show (if _ then _ else x).boot = d.boot
    split
    · exact (staticReject_boot _ _ _).trans codes
    · exact codes

theorem writeRecords_boot (p : List Byte) : (writeRecords p d).boot = d.boot := by
  unfold writeRecords
  split
  · exact foldl_keeps (g := Dev.boot) (fun d (w : Nat × Word) => regStore_boot d w.1 w.2) _ d
  · rfl

theorem enqueueTx_boot (x : Nat) (f : TxFrame) : (enqueueTx d x f).boot = d.boot := by
  unfold enqueueTx
  extract_lets entered n p counted
  rw [apply_ite Dev.boot, setPlane_boot]
  have count : (match n.body with
    | .stream t _ _ => bump counted (offNetTxsDropped x t)
    | _ => counted).boot = d.boot := by
    split
    · exact (bump_boot _ _).trans (bump_boot _ _)
    · exact bump_boot _ _
  exact (congrArg₂ (fun a b => ite _ a b) count rfl).trans (ite_self _)

/-- The words of a run of registers are written. -/
abbrev wordsPut {α : Type} (o : Nat → Nat) (w : α → Word) (l : List α) (d : Dev) : Dev :=
  (l.foldl (fun (b : Dev × Nat) v => (liveSet b.1 (o b.2) (w v), b.2 + 1)) (d, 0)).1

theorem wordsPut_boot {α : Type} (o : Nat → Nat) (w : α → Word) (l : List α) : (wordsPut o w l d).boot = d.boot := by
  refine foldl_keeps (g := fun b : Dev × Nat => b.1.boot) ?_ l (d, 0)
  exact fun b v => liveSet_boot b.1 _ _

theorem rxActivate_boot (x : Nat) (a : Dev × Nat) (ws : List Word) : (rxActivate x a ws).1.boot = a.1.boot := by
  unfold rxActivate
  extract_lets d s old left
  split
  · rfl
  · have leaves : left.boot = d.boot := by
      refine foldl_keeps (g := Dev.boot) ?_ _ d
      exact fun e g => enqueueTx_boot e x _
    exact (wordsPut_boot left (fun i => offNetRxsCfg x s + 4 * i) id ws).trans leaves

theorem txActivate_boot (x : Nat) (a : Dev × Nat) (ws : List Word) : (txActivate x a ws).1.boot = a.1.boot :=
  wordsPut_boot a.1 (fun i => offNetTxsCfg x a.2 + 4 * i) id ws

theorem planeActivate_boot (p : List Byte) (x : Nat) : (planeActivate p d x).boot = d.boot := by
  unfold planeActivate
  extract_lets parts rx tx map bits before shown
  have rxOk : rx.boot = d.boot := by
    refine foldl_keeps (g := fun a : Dev × Nat => a.1.boot) ?_ parts.1 (d, 0)
    exact rxActivate_boot x
  have txOk : tx.boot = rx.boot := by
    refine foldl_keeps (g := fun a : Dev × Nat => a.1.boot) ?_ parts.2.1 (rx, 0)
    exact txActivate_boot x
  have mapOk : map.boot = tx.boot := wordsPut_boot tx (offNetTxmap x) (BitVec.ofNat 32) parts.2.2
  have shownOk : shown.boot = map.boot := setPlane_boot map x _
  clear_value shown
  exact (liveSetF_boot _ _ _ _ _).trans (shownOk.trans (mapOk.trans (txOk.trans rxOk)))

theorem ringsActivate_boot (old : Dev) (x : Nat) : (ringsActivate old d x).boot = d.boot := by
  unfold ringsActivate
  extract_lets own depths
  have shown : depths.boot = d.boot := by
    refine foldl_keeps (g := Dev.boot) ?_ (List.range 256) d
    exact fun e s => liveSetF_boot e _ _ _ _
  clear_value depths
  exact (setPlane_boot _ _ _).trans shown

theorem netActivate_boot (p : List Byte) : (netActivate p d).boot = d.boot := by
  have planes : ((List.range 2).foldl (planeActivate p) d).boot = d.boot := by
    refine foldl_keeps (g := Dev.boot) ?_ (List.range 2) d
    exact fun e x => planeActivate_boot e p x
  refine Eq.trans ?_ planes
  refine foldl_keeps (g := Dev.boot) ?_ (List.range 2) _
  exact fun e x => ringsActivate_boot e d x

theorem loadShared_keeps {β : Type} {g : Dev → β} (h : ∀ e : Dev, ∀ m, g { e with vec := { e.vec with shared := m } } = g e)
    (l : List VecRange) : g (loadShared l d) = g d := by
  refine foldl_keeps (g := g) ?_ _ d
  exact fun e r => h e _

theorem vecInstall_boot (l : List VecRange) : (vecInstall l d).boot = d.boot := by
  have cores : ((List.range 36).foldl (fun d k => setCore d k (l.foldl loadCore (coreOf d k))) d).boot = d.boot := by
    refine foldl_keeps (g := Dev.boot) ?_ (List.range 36) d
    exact fun e k => setCore_boot e k _
  exact (loadShared_keeps _ (g := Dev.boot) (fun _ _ => rfl) l).trans cores

/-- Filters change registers of RC and RC's own state. -/
theorem rcInstall_rest (l : List (Nat × List Int)) :
    (rcInstall l d).boot = d.boot ∧ (rcInstall l d).mem = d.mem ∧ (rcInstall l d).xp = d.xp := by
  unfold rcInstall
  extract_lets shown
  have kept : (shown.boot, shown.mem, shown.xp) = (d.boot, d.mem, d.xp) := by
    refine foldl_keeps (g := fun e : Dev => (e.boot, e.mem, e.xp)) ?_ l d
    exact fun _ _ => rfl
  clear_value shown
  exact ⟨congrArg (·.1) kept, congrArg (·.2.1) kept, congrArg (·.2.2) kept⟩

theorem geoActivate_boot (type : Nat) (p : List Byte) : (geoActivate type p d).boot = d.boot := by
  unfold geoActivate geoReport
  exact (liveSet_boot _ _ _).trans (liveSetB_boot _ _ _ _)

/-- What a section leaves says nothing of the boot. -/
theorem sectionInstall_boot (type : Nat) (p : List Byte) : (sectionInstall type p d).boot = d.boot := by
  unfold sectionInstall
  split
  · rfl
  · rfl
  · exact geoActivate_boot _ _ p
  · exact geoActivate_boot _ _ p
  · exact geoActivate_boot _ _ p
  · rfl
  · exact (rcInstall_rest d _).1
  · exact vecInstall_boot d _
  · rfl
  · exact netActivate_boot d p
  · exact writeRecords_boot d p

end

/-! ### The release of PORST_N (R381, R445) -/

section
variable (side : Bool) (d : Dev)

/-- TWIN_SIDE is sampled and PORST_N reads high. -/
abbrev porstReleased : Dev := liveSetB (liveSetB { d with boot := { d.boot with porst := false } } offPmcStraps 0 side) offTwnStatus 0 side

theorem porstRelease_again (high : d.boot.porst = false) : porstRelease side d = d := if_neg (by simp [high])

theorem porstRelease_low (low : d.boot.porst = true) : porstRelease side d = releaseCheck true (porstReleased side d) := if_pos low

theorem releaseCheck_held (was : Bool) (held : heldReset d = true ∨ d.boot.phase ≠ .reset) : releaseCheck was d = d := by
  refine if_neg fun starts => ?_
  obtain ⟨⟨-, free⟩, reset⟩ : (was = true ∧ heldReset d = false) ∧ d.boot.phase = .reset := by simpa using starts
  rcases held with held | runs
  · rw [free] at held
    nomatch held
  · exact runs reset

theorem releaseCheck_starts (free : heldReset d = false) (reset : d.boot.phase = .reset) : releaseCheck true d = bootStart d :=
  if_pos (by simp [free, reset])

/-- The root and audio PLLs begin to lock. -/
abbrev pllsLocking (e : Dev) (alt : Bool) : Dev := startLock 1 (startLock 0 (setSteer (liveSetB e offClkStatus 3 alt) 0))

theorem refOk_porstReset (alt : Bool) : refOk (porstReset d) alt = refOk d alt := refLevel_porstReset d (by cases alt <;> decide)

theorem bootStart_dark (main : refOk d false = false) (alt : refOk d true = false) : bootStart d = porstReset d := by
  rw [bootStart]
  exact if_neg (by simp [refOk_porstReset, main, alt])

theorem bootStart_locks (some : refOk d false = true ∨ refOk d true = true) : bootStart d =
    { pllsLocking (porstReset d) (!(refOk d false)) with
      boot := { (pllsLocking (porstReset d) (!(refOk d false))).boot with phase := .lock } } := by
  rw [← refOk_porstReset d false]
  exact if_pos (by simpa [refOk_porstReset] using some)

theorem refOk_porstReleased (alt : Bool) : refOk (porstReleased side d) alt = refOk d alt :=
  (liveB_liveSet_other _ _ _ (by decide)).trans (liveB_liveSet_other _ _ _ (by decide))

/-- A lock leaves what CLK.STATUS says of the reference. -/
theorem onAlt_startLock (p : Nat) : onAlt (startLock p d) = onAlt d := by
  have shown : onAlt (setPll { d with clk := { d.clk with locking := setIns d.clk.locking p, sync := setIns d.clk.sync p } } p false false) =
      onAlt d := (setPll_only _ p false false).regs.liveB (by simpa using offClkStatus_ne_offClkPllStatus p) 3
  refine Eq.trans ?_ shown
  unfold startLock holdShow
  split
  · rfl
  · exact (liveB_liveSetB_otherBit _ _ _ (by decide) (by decide)).trans (liveB_liveSetB_otherBit _ _ _ (by decide) (by decide))

theorem onAlt_pllsLocking (alt : Bool) : onAlt (pllsLocking d alt) = alt := by
  rw [pllsLocking, onAlt_startLock, onAlt_startLock, onAlt, liveB, liveGet_setSteer_other _ _ offClkStatus_ne_offClkPllStatus]
  exact liveB_liveSetB_same _ _ _ (by decide)

theorem locking_pllsLocking (alt : Bool) : 0 ∈ (pllsLocking d alt).clk.locking ∧ 1 ∈ (pllsLocking d alt).clk.locking := by
  rw [startLock_locking, startLock_locking]
  exact ⟨mem_setIns.mpr (.inr (mem_setIns.mpr (.inl rfl))), mem_setIns.mpr (.inl rfl)⟩

theorem porstRelease_starts (low : d.boot.porst = true) (free : heldReset (porstReleased side d) = false) (reset : d.boot.phase = .reset) :
    porstRelease side d = bootStart (porstReleased side d) :=
  (porstRelease_low side d low).trans (releaseCheck_starts _ free reset)

end

/-! ### The sections of a step (R383) -/

section
variable (filters : Bool) (next : BootPhase) (d : Dev)

/-- The payloads are read from the flash and the running bank alone. -/
theorem bootPayloads_congr {a b : Dev} (boot : b.boot = a.boot) (bank : runningBank b = runningBank a) :
    bootPayloads filters b = bootPayloads filters a := by
  have payload (k : Nat) : goodPayload b k = goodPayload a k := by
    unfold goodPayload payloadOf bankBase flashSize flashRun
    rw [boot]
  unfold bootPayloads
  rw [boot, bank, payload]

/-- A payload belongs to a section that the step loads. -/
theorem mem_bootPayloads {l : List (Nat × List Byte)} (h : bootPayloads filters d = some l) {x : Nat × List Byte} (mem : x ∈ l) :
    x.1 = 0x15 ↔ filters = true := by
  have kept : ∀ (secs : List SecDesc) (l : List (Nat × List Byte)), (∀ s ∈ secs, (s.type = 0x15 ↔ filters = true)) →
      (secs.foldr (fun s acc => match acc, goodPayload d (runningBank d) s with
        | some l, some p => some ((s.type, p) :: l)
        | _, _ => none) (some [])) = some l → ∀ x ∈ l, (x.1 = 0x15 ↔ filters = true) := by
    intro secs
    induction secs with
    | nil =>
      intro l _ h x mem
      cases h
      nomatch mem
    | cons s t ih =>
      intro l all h x mem
      rw [List.foldr_cons] at h
      split at h
      · next rest p restOk _ =>
        cases h
        rcases List.mem_cons.mp mem with rfl | later
        · exact all s List.mem_cons_self
        · exact ih rest (fun s hs => all s (List.mem_cons_of_mem _ hs)) restOk x later
      · nomatch h
  unfold bootPayloads at h
  split at h
  · nomatch h
  · refine kept _ l (fun s hs => ?_) h x mem
    have chosen := (List.mem_filter.mp hs).2
    exact (of_decide_eq_true chosen).2

/-- The payloads by ascending type. -/
abbrev inOrder (l : List (Nat × List Byte)) : List (Nat × List Byte) :=
  sortBy (fun (a b : Nat × List Byte) => decide (a.1 ≤ b.1)) 32 l

/-- A section of the step fails its check. -/
abbrev failsCheck (l : List (Nat × List Byte)) (x : Nat × List Byte) : Bool :=
  !(sectionOk d false (l.filter fun s => decide (0x10 ≤ s.1 ∧ s.1 ≤ 0x12)) x.1 x.2)

variable {filters next d}

theorem loadSections_unread (h : bootPayloads filters d = none) : loadSections filters next d = bootBank 2 (rejectBank (runningBank d) d) := by
  rw [loadSections, h]

variable {l : List (Nat × List Byte)} (read : bootPayloads filters d = some l)
include read

theorem loadSections_refused {x : Nat × List Byte} (found : l.find? (failsCheck d l) = some x) :
    loadSections filters next d = bootBank 2 (refuseSection x.1 x.2 (rejectBank (runningBank d) d)) := by
  rw [loadSections, read]
  dsimp only
  rw [found]

theorem loadSections_loaded (found : l.find? (failsCheck d l) = none) : loadSections filters next d =
    { (inOrder l).foldl (fun d x => sectionInstall x.1 x.2 d) d with boot := { d.boot with phase := next } } := by
  have boot : ((inOrder l).foldl (fun d x => sectionInstall x.1 x.2 d) d).boot = d.boot :=
    foldl_keeps (g := Dev.boot) (fun e (x : Nat × List Byte) => sectionInstall_boot e x.1 x.2) _ d
  rw [loadSections, read]
  dsimp only
  rw [found]
  dsimp only
  rw [boot]

end

/-! ### The end of training (R381) -/

section
variable (d : Dev)

/-- SYS.RATE takes the image's rate. -/
abbrev rateTaken : Dev := liveSetB d offSysRate 0 (d.boot.manifest.any (·.rate96))

theorem bootTrained_early (h : ¬(d.boot.phase = .train ∧ memReady d 0 = true ∧ memReady d 1 = true)) : bootTrained d = d := if_neg h

theorem bootTrained_due (h : d.boot.phase = .train ∧ memReady d 0 = true ∧ memReady d 1 = true) :
    bootTrained d = loadSections false .wipe (rateTaken d) := by
  rw [bootTrained, if_pos h, rateTaken]
  cases d.boot.manifest <;> rfl

theorem runningBank_rateTaken : runningBank (rateTaken d) = runningBank d := liveF_liveSet_other _ _ _ _ (by decide)

theorem bootPayloads_rateTaken (filters : Bool) : bootPayloads filters (rateTaken d) = bootPayloads filters d :=
  bootPayloads_congr filters rfl (runningBank_rateTaken d)

end

/-! ### The end of the wipe (R383) -/

section
variable (d : Dev)

theorem mergeBy_all {α : Type} {le : α → α → Bool} : ∀ (fuel : Nat) (a b : List α), (∀ x ∈ a, ∀ y ∈ b, le x y = true) →
    mergeBy le fuel a b = a ++ b
  | 0, _, _, _ => rfl
  | _ + 1, [], _, _ => rfl
  | _ + 1, x :: xs, [], _ => (List.append_nil _).symm
  | f + 1, x :: xs, y :: ys, h => by
    rw [mergeBy, if_pos (h x List.mem_cons_self y List.mem_cons_self),
      mergeBy_all f xs (y :: ys) fun u hu => h u (List.mem_cons_of_mem _ hu)]
    rfl

/-- A list whose elements are all in order is left as it is. -/
theorem sortBy_all {α : Type} {le : α → α → Bool} : ∀ (fuel : Nat) (l : List α), (∀ x ∈ l, ∀ y ∈ l, le x y = true) → sortBy le fuel l = l
  | 0, _, _ => rfl
  | _ + 1, [], _ => rfl
  | _ + 1, [_], _ => rfl
  | f + 1, u :: v :: t, h => by
    have half (l : List α) (hl : ∀ x ∈ l, x ∈ u :: v :: t) : sortBy le f l = l :=
      sortBy_all f l fun x hx y hy => h x (hl x hx) y (hl y hy)
    rw [sortBy]
    rw [half _ fun x => List.mem_of_mem_take, half _ fun x => List.mem_of_mem_drop,
      mergeBy_all _ _ _ fun x hx y hy => h x (List.mem_of_mem_take hx) y (List.mem_of_mem_drop hy), List.take_append_drop]
    exact fun nil => nomatch nil
    exact fun x one => nomatch one

/-- No byte is left in either DRAM. -/
abbrev dramWiped : Dev :=
  { d with mem := { d.mem with mem0 := [], rcRegion := [], mem1 := [], reserved := [] }, xp := { d.xp with lines := [] } }

/-- Filters leave the memories and the crosspoint. -/
theorem filtersInstalled_rest (l : List (Nat × List Byte)) (e : Dev) :
    (l.foldl (fun d x => rcInstall ((parseFilters x.2).getD []) d) e).mem = e.mem ∧
      (l.foldl (fun d x => rcInstall ((parseFilters x.2).getD []) d) e).xp = e.xp := by
  refine ⟨foldl_keeps (g := Dev.mem) ?_ l e, foldl_keeps (g := Dev.xp) ?_ l e⟩
  · exact fun e x => (rcInstall_rest e _).2.1
  · exact fun e x => (rcInstall_rest e _).2.2

theorem wipeDone_early (h : ¬d.boot.phase = .wipe) : wipeDone d = d := if_neg h

theorem wipeDone_due (h : d.boot.phase = .wipe) : wipeDone d = loadSections true .loaded (dramWiped d) := if_pos h

theorem bootPayloads_dramWiped : bootPayloads true (dramWiped d) = bootPayloads true d := bootPayloads_congr true rfl rfl

variable {d} {l : List (Nat × List Byte)} (read : bootPayloads true d = some l)
include read

/-- Step 7 loads filters alone. -/
theorem filters_only {x : Nat × List Byte} (mem : x ∈ l) : x.1 = 0x15 := (mem_bootPayloads true d read mem).mpr rfl

theorem find_filters (e : Dev) : l.find? (failsCheck e l) = l.find? fun x => (parseFilters x.2).isNone := by
  have same : ∀ (m : List (Nat × List Byte)), (∀ x ∈ m, x.1 = 0x15) →
      m.find? (failsCheck e l) = m.find? fun x => (parseFilters x.2).isNone := by
    intro m
    induction m with
    | nil => exact fun _ => rfl
    | cons x t ih =>
      intro all
      have here : failsCheck e l x = (parseFilters x.2).isNone := by
        rw [failsCheck, all x List.mem_cons_self]
        exact Option.not_isSome _
      rw [List.find?_cons, List.find?_cons, here, ih fun y hy => all y (List.mem_cons_of_mem _ hy)]
  exact same l fun x => filters_only read

theorem wipeDone_refused (h : d.boot.phase = .wipe) {x : Nat × List Byte} (found : l.find? (fun x => (parseFilters x.2).isNone) = some x) :
    wipeDone d = bootBank 2 (refuseSection 0x15 x.2 (rejectBank (runningBank d) (dramWiped d))) := by
  have type := filters_only read (List.mem_of_find?_eq_some found)
  rw [wipeDone_due d h, loadSections_refused ((bootPayloads_dramWiped d).trans read) ((find_filters read _).trans found), type]
  rfl

theorem wipeDone_loaded (h : d.boot.phase = .wipe) (found : l.find? (fun x => (parseFilters x.2).isNone) = none) : wipeDone d =
    { l.foldl (fun d x => rcInstall ((parseFilters x.2).getD []) d) (dramWiped d) with boot := { d.boot with phase := .loaded } } := by
  have sorted : inOrder l = l := sortBy_all 32 l fun x hx y hy => by
    rw [filters_only read hx, filters_only read hy]
    rfl
  have install : l.foldl (fun d x => sectionInstall x.1 x.2 d) (dramWiped d) =
      l.foldl (fun d x => rcInstall ((parseFilters x.2).getD []) d) (dramWiped d) :=
    List.foldl_ext _ _ _ fun e x mem => by
      rw [filters_only read mem]
      rfl
  rw [wipeDone_due d h, loadSections_loaded ((bootPayloads_dramWiped d).trans read) ((find_filters read _).trans found), sorted, install]

end

/-! ### What a section leaves (R377 to R380) -/

section
variable (d : Dev) (p : List Byte)

theorem firmwareBase_fits (h : p.length ≤ 2 * 2 ^ 20) : firmwareBase p.length + p.length ≤ 0x3FE000 := by
  have := Nat.mod_lt Config.firmwareAt.toNat (y := 0x3FE000 - p.length + 1) (by omega)
  rw [firmwareBase]
  omega

theorem tableOf_sectionInstall {k : Nat} (low : 0x10 ≤ k) (high : k ≤ 0x12) : tableOf (sectionInstall k p d).mem.active k = p := by
  have three : k = 0x10 ∨ k = 0x11 ∨ k = 0x12 := by omega
  rcases three with rfl | rfl | rfl
  · exact mapGet_mapSet_self _ _ _ _
  · exact mapGet_mapSet_self _ _ _ _
  · exact mapGet_mapSet_self _ _ _ _

theorem coreOf_foldl_other (f : VecCore → VecCore) {k : Nat} : ∀ (l : List Nat) (d : Dev), k ∉ l →
    coreOf (l.foldl (fun d k => setCore d k (f (coreOf d k))) d) k = coreOf d k
  | [], _, _ => rfl
  | q :: t, d, h => by
    rw [List.foldl_cons, coreOf_foldl_other f t _ (List.not_mem_of_not_mem_cons h), coreOf_setCore_other _ _ (List.ne_of_not_mem_cons h)]

/-- Every core of a list without repeats is rewritten once. -/
theorem coreOf_foldl (f : VecCore → VecCore) {k : Nat} {l : List Nat} (once : l.Nodup) (mem : k ∈ l) (d : Dev) :
    coreOf (l.foldl (fun d k => setCore d k (f (coreOf d k))) d) k = f (coreOf d k) := by
  induction l generalizing d with
  | nil => nomatch mem
  | cons q t ih =>
    obtain ⟨out, rest⟩ := List.nodup_cons.mp once
    rw [List.foldl_cons]
    by_cases same : k = q
    · subst same
      rw [coreOf_foldl_other f t _ out, coreOf_setCore]
    · rw [ih rest ((List.mem_cons.mp mem).resolve_left same), coreOf_setCore_other _ _ same]

theorem coreOf_vecInstall (l : List VecRange) {k : Nat} (h : k < 36) : coreOf (vecInstall l d) k = l.foldl loadCore (coreOf d k) :=
  (loadShared_keeps _ (g := fun d => coreOf d k) (fun _ _ => rfl) l).trans
    (coreOf_foldl (fun c => l.foldl loadCore c) List.nodup_range (List.mem_range.mpr h) d)

theorem sectionInstall_keys {l : List (Nat × Nat × List Byte)} (h : parseKeys p = some l) : (sectionInstall 3 p d).mgmt.keys = l := by
  show (parseKeys p).getD [] = l
  rw [h]
  rfl

theorem sectionInstall_items {t : List InsGroup × List (Nat × Nat)} (h : parseItems p = some t) :
    (sectionInstall 0x17 p d).wd.groups = t.1 ∧ (sectionInstall 0x17 p d).wd.kernels = t.2 := by
  have installed : sectionInstall 0x17 p d = itemsInstall ((parseItems p).getD ([], [])) d := rfl
  rw [installed, h]
  exact ⟨rfl, rfl⟩

theorem sectionInstall_cores {l : List VecRange} {k : Nat} (h : parseVec p = some l) (low : k < 36) :
    coreOf (sectionInstall 0x16 p d) k = l.foldl loadCore (coreOf d k) := by
  have installed : sectionInstall 0x16 p d = vecInstall ((parseVec p).getD []) d := rfl
  rw [installed, h]
  exact coreOf_vecInstall d l low

end

/-! ### The end of the boot (R328, R384, R387) -/

/-- b has a's EPC state, boot, shadow and active copies and REMAP. -/
structure StartKept (a b : Dev) : Prop where
  epc : b.epc = a.epc
  boot : b.boot = a.boot
  shadow : b.regs.shadow = a.regs.shadow
  act : b.regs.act = a.regs.act
  remap : liveGet b offXbarCtrl = liveGet a offXbarCtrl

theorem StartKept.refl (a : Dev) : StartKept a a := ⟨rfl, rfl, rfl, rfl, rfl⟩

theorem StartKept.trans {a b c : Dev} (h : StartKept a b) (k : StartKept b c) : StartKept a c :=
  ⟨k.epc.trans h.epc, k.boot.trans h.boot, k.shadow.trans h.shadow, k.act.trans h.act, k.remap.trans h.remap⟩

theorem StartKept.liveSet {a b : Dev} (h : StartKept a b) {o : Nat} (w : Word) (other : o ≠ offXbarCtrl) : StartKept a (liveSet b o w) :=
  h.trans ⟨rfl, rfl, rfl, rfl, liveGet_liveSet_other b w other.symm⟩

section
variable (m : Manifest) (d : Dev)

/-- The log's mirror is loaded into registers of ERR. -/
theorem mirrorLoad_kept : StartKept d (mirrorLoad d) := by
  unfold mirrorLoad
  extract_lets es
  refine List.foldlRecOn (motive := fun a : Dev × Nat => StartKept d a.1) es _ (.refl d) fun a h e _ => ?_
  refine List.foldlRecOn (motive := fun b : Dev × Nat => StartKept d b.1) e _ h fun b k w _ => ?_
  refine StartKept.liveSet k w ?_
  unfold offErrMirror offXbarCtrl
  omega

/-- Firmware starts, with the handoff in SRAM and REMAP set. -/
def firmwareStarted : Dev := liveSetB (handoffCopy { d with boot := { d.boot with up := true, phase := .starting } }) offXbarCtrl 0 true

/-- The mirror of the log and the time of the boot show. -/
def bootTimed : Dev := liveSetF (mirrorLoad d) offNvmBootMs 15 0 (Config.cycles 38 d.boot.ops).toNat

/-- A rollback is reported. -/
def rollbackNoted : Dev :=
  if liveB d offNvmStatus 4 then raiseErr d (srcOf blkNvm 0) 0x0106 (liveGet d offNvmFailedGen) (BitVec.ofNat 32 m.gen) else d

/-- The number of the session keys shows. -/
def keysShown : Dev := liveSetF d offSvcStatus 7 4 d.mgmt.keys.length

/-- The device before the start commit. -/
def startReady : Dev := keysShown (rollbackNoted m (bootTimed (firmwareStarted d)))

theorem rollbackNoted_kept : StartKept d (rollbackNoted m d) := by
  unfold rollbackNoted
  split
  · have only := raiseErr_err (srcOf blkNvm 0) 0x0106 (liveGet d offNvmFailedGen) (BitVec.ofNat 32 m.gen) (.refl d)
    exact ⟨only.epc, only.boot, only.regs.shadow, only.regs.act, liveGet_raiseErr_mild d _ _ _ (by decide) (by decide)⟩
  · exact .refl d

theorem startReady_kept : StartKept (firmwareStarted d) (startReady m d) := by
  have timed : StartKept (firmwareStarted d) (bootTimed (firmwareStarted d)) := (mirrorLoad_kept _).liveSet _ (by decide)
  exact (timed.trans (rollbackNoted_kept m _)).liveSet _ (by decide)

theorem bootComplete_due (loaded : d.boot.phase = .loaded) (image : d.boot.manifest = some m) :
    bootComplete d = commitNextWrite (if m.start then startReady m d else keepEn startKeeps (startReady m d)) := by
  rw [bootComplete, loaded, image]
  rfl

theorem bootComplete_idle (h : d.boot.phase ≠ .loaded ∨ d.boot.manifest = none) : bootComplete d = d := by
  unfold bootComplete
  split
  · next loaded image =>
    rcases h with other | none
    · exact absurd loaded other
    · rw [none] at image
      nomatch image
  · rfl

/-- EN of every block kept back reads 0 in the shadow. -/
theorem keepEn_en {blocks : List Nat} {b : Nat} (mem : b ∈ blocks) : bit (shGet (keepEn blocks d) (b * 0x100000)) 0 = false := by
  refine foldl_establishes (P := fun e => bit (shGet e (b * 0x100000)) 0 = false) (fun e => ?_) mem (fun c _ => ?_) d
  · rw [shGet_shSet, if_pos rfl, bit_setBit_same _ _ (by decide)]
  · by_cases same : c = b
    · exact .inl same
    · refine .inr fun e off => ?_
      rw [shGet_shSet, if_neg (by omega), off]

theorem act_shSet (o : Nat) (w : Word) : (shSet d o w).regs.act = d.regs.act := rfl

/-- EN of the blocks reads 0 in the shadow. -/
def enOff (blocks : List Nat) : Dev := blocks.foldl (fun d b => shSet d (b * 0x100000) (setBit (shGet d (b * 0x100000)) 0 false)) d

theorem keepEn_eq (blocks : List Nat) : keepEn blocks d = { enOff d blocks with boot := { (enOff d blocks).boot with
    kept := blocks.map fun b => (b * 0x100000, shGet d (b * 0x100000)) } } := rfl

theorem enOff_keeps {β : Type} {g : Dev → β} (h : ∀ (e : Dev) (o : Nat) (w : Word), g (shSet e o w) = g e) (blocks : List Nat) :
    g (enOff d blocks) = g d := foldl_keeps (fun _ _ => h _ _ _) blocks d

/-- What keeping EN back leaves. -/
theorem keepEn_kept (blocks : List Nat) : (keepEn blocks d).epc = d.epc ∧ (keepEn blocks d).regs.act = d.regs.act ∧
    (keepEn blocks d).boot.up = d.boot.up ∧ (keepEn blocks d).boot.phase = d.boot.phase ∧
    liveGet (keepEn blocks d) offXbarCtrl = liveGet d offXbarCtrl := by
  have boot : (enOff d blocks).boot = d.boot := enOff_keeps d shSet_boot blocks
  rw [keepEn_eq]
  exact ⟨enOff_keeps d shSet_epc blocks, enOff_keeps d (g := fun e => e.regs.act) act_shSet blocks,
    by rw [boot], by rw [boot], enOff_keeps d (g := fun e => liveGet e offXbarCtrl) (fun e o w => liveGet_shSet e o _ w) blocks⟩

/-- The next epoch that can still be named becomes the pending commit. -/
theorem commitNextWrite_commit (none : d.epc.commit = none) :
    (commitNextWrite d).epc.commit = some (d.epc.epoch + if d.epc.cutoff = true then 2 else 1) := by
  have pending : commitCode (judgeCommit d.epc (d.epc.epoch + if d.epc.cutoff = true then 2 else 1)) = 1 := by
    rw [commitCode_judgeCommit, none]
    cases d.epc.cutoff <;> simp
  have taken := commitTaken_commit (d.epc.epoch + if d.epc.cutoff = true then 2 else 1) d
  rw [if_pos pending] at taken
  exact taken

/-- What a commit request leaves. -/
theorem commitNextWrite_kept : (commitNextWrite d).boot = d.boot ∧ (commitNextWrite d).regs.act = d.regs.act ∧
    (commitNextWrite d).regs.shadow = d.regs.shadow ∧ liveGet (commitNextWrite d) offXbarCtrl = liveGet d offXbarCtrl := by
  unfold commitNextWrite
  obtain ⟨regs, rest⟩ := submitCommit_only (d.epc.epoch + if d.epc.cutoff then 2 else 1) d
  generalize submitCommit (d.epc.epoch + if d.epc.cutoff then 2 else 1) d = e at regs rest
  have boot := congrArg Dev.boot rest
  have remap := regs.live offXbarCtrl (by decide)
  have act := regs.act
  have shadow := regs.shadow
  exact ⟨boot, act, shadow, remap⟩

/-- What a step before the start commit leaves of the device as firmware started. -/
structure StartReady (e : Dev) : Prop where
  up : e.boot.up = true
  phase : e.boot.phase = .starting
  remap : liveB e offXbarCtrl 0 = true
  act : e.regs.act = d.regs.act
  epc : e.epc = d.epc

theorem startReady_ready : StartReady d (startReady m d) := by
  have kept := startReady_kept m d
  refine ⟨by rw [kept.boot]; rfl, by rw [kept.boot]; rfl, ?_, kept.act, kept.epc⟩
  exact (congrArg (bit · 0) kept.remap).trans (liveB_liveSetB_same _ _ _ (by decide))

variable {d}

theorem StartReady.keepEn {e : Dev} (h : StartReady d e) (blocks : List Nat) : StartReady d (keepEn blocks e) := by
  obtain ⟨epc, act, up, phase, remap⟩ := keepEn_kept e blocks
  exact ⟨up.trans h.up, phase.trans h.phase, (congrArg (bit · 0) remap).trans h.remap, act.trans h.act, epc.trans h.epc⟩

/-- The start commit of a device that is ready for it. -/
theorem StartReady.commits {e : Dev} (h : StartReady d e) :
    (commitNextWrite e).boot.up = true ∧ (commitNextWrite e).boot.phase = .starting ∧ liveB (commitNextWrite e) offXbarCtrl 0 = true ∧
      (commitNextWrite e).regs.act = d.regs.act ∧
      (d.epc.commit = none → (commitNextWrite e).epc.commit = some (d.epc.epoch + (if d.epc.cutoff = true then 2 else 1))) := by
  obtain ⟨boot, act, -, remap⟩ := commitNextWrite_kept e
  refine ⟨by rw [boot, h.up], by rw [boot, h.phase], (congrArg (bit · 0) remap).trans h.remap, act.trans h.act, fun none => ?_⟩
  rw [commitNextWrite_commit e (by rw [h.epc, none]), h.epc]

/-- The end of the boot. -/
theorem bootComplete_completes (loaded : d.boot.phase = .loaded) (image : d.boot.manifest = some m) :
    (bootComplete d).boot.up = true ∧ (bootComplete d).boot.phase = .starting ∧ liveB (bootComplete d) offXbarCtrl 0 = true ∧
      (bootComplete d).regs.act = d.regs.act ∧
      (d.epc.commit = none → (bootComplete d).epc.commit = some (d.epc.epoch + (if d.epc.cutoff = true then 2 else 1))) ∧
      (m.start = true → (bootComplete d).regs.shadow = d.regs.shadow) ∧
      (m.start = false → ∀ b ∈ startKeeps, bit (shGet (bootComplete d) (b * 0x100000)) 0 = false) := by
  have ready := startReady_ready m d
  rw [bootComplete_due m d loaded image]
  cases start : m.start with
  | true =>
    rw [if_pos rfl]
    obtain ⟨up, phase, remap, act, commit⟩ := ready.commits
    exact ⟨up, phase, remap, act, commit, fun _ => (commitNextWrite_kept _).2.2.1.trans (startReady_kept m d).shadow, fun h => absurd h.symm Bool.false_ne_true⟩
  | false =>
    rw [if_neg Bool.false_ne_true]
    obtain ⟨up, phase, remap, act, commit⟩ := (ready.keepEn startKeeps).commits
    refine ⟨up, phase, remap, act, commit, fun h => absurd h Bool.false_ne_true, fun _ b mem => ?_⟩
    obtain ⟨-, -, shadow, -⟩ := commitNextWrite_kept (keepEn startKeeps (startReady m d))
    refine Eq.trans ?_ (keepEn_en (startReady m d) mem)
    exact congrArg (fun l => bit (mapGet resetWord l (b * 0x100000)) 0) shadow

end

/-! ### Confirmation (R386) -/

section
variable (d : Dev) (m : Manifest)

/-- The running generation is recorded as confirmed. -/
abbrev confirmedRecord : Dev := writeRecord' d { bootRecord d with confirmed := m.gen, tries := 0 }

theorem confirmRunning_none (h : d.boot.manifest = none) : confirmRunning d = d := by
  rw [confirmRunning, h]

variable (image : d.boot.manifest = some m)
include image

theorem confirmRunning_some : confirmRunning d = confirmedRecord d m := by
  rw [confirmRunning, image]

theorem autoConfirm_some : autoConfirm d =
    if m.auto = true ∧ d.boot.up = true ∧ 180000 ≤ d.boot.ptpRun ∧ fatal d = false then confirmedRecord d m else d := by
  rw [autoConfirm, image, ← confirmRunning_some d m image]
  exact if_congr (by simp [and_assoc]) rfl rfl

end

/-- Settles O46: each clause by the lemma of its command above. -/
theorem bootAndConfirmation : Obligations.BootAndConfirmation := by
  unfold Obligations.BootAndConfirmation
  refine ⟨fun s side => ?_, fun d => ?_, fun s => ?_, fun d p => ⟨fun short => ⟨firmwareBase_fits p short, fun a => ?_⟩,
    fun l keys => sectionInstall_keys d p keys, fun k low high => tableOf_sectionInstall d p low high, rfl,
    fun t items => sectionInstall_items d p items, fun l k vec low => sectionInstall_cores d p vec low⟩,
    fun s m loaded image => runs_ran (f := bootComplete) rfl (bootComplete_completes m loaded image),
    fun s idle => runs_ran (f := bootComplete) rfl (bootComplete_idle _ idle), fun s m image => ?_, fun s none => ⟨?_, ?_⟩⟩
  · intro out
    refine ⟨fun high => runs_ran (f := porstRelease side) rfl (porstRelease_again side _ high),
      fun low held => runs_ran (f := porstRelease side) rfl ((porstRelease_low side _ low).trans (releaseCheck_held _ true held)),
      fun low free reset => ⟨fun main alt => ?_, fun some => ?_⟩⟩
    · refine runs_ran (f := porstRelease side) rfl ((porstRelease_starts side _ low free reset).trans ?_)
      exact bootStart_dark _ ((refOk_porstReleased side _ _).trans main) ((refOk_porstReleased side _ _).trans alt)
    · refine runs_ran (f := porstRelease side) rfl ?_
      have locks := bootStart_locks (porstReleased side s.dev) (by simpa only [refOk_porstReleased] using some)
      rw [refOk_porstReleased] at locks
      rw [(porstRelease_starts side _ low free reset).trans locks]
      obtain ⟨root, audio⟩ := locking_pllsLocking (porstReset (porstReleased side s.dev)) (!(refOk s.dev false))
      exact ⟨rfl, root, audio, onAlt_pllsLocking (porstReset (porstReleased side s.dev)) (!(refOk s.dev false))⟩
  · intro next bad
    refine ⟨bootTrained_early d, fun train ready0 ready1 => ?_⟩
    rw [bootTrained_due d ⟨train, ready0, ready1⟩]
    refine ⟨fun unread => ?_, fun l read => ?_⟩
    · rw [loadSections_unread ((bootPayloads_rateTaken d false).trans unread), runningBank_rateTaken]
    · have read' := (bootPayloads_rateTaken d false).trans read
      intro fails
      refine ⟨fun x found => ?_, fun found => ?_⟩
      · rw [loadSections_refused read' found, runningBank_rateTaken]
      · rw [loadSections_loaded read' found]
        exact ⟨rfl, rfl⟩
  · intro due wiped bad
    refine ⟨fun idle => runs_ran (f := wipeDone) rfl (wipeDone_early _ idle), fun hdue unread => ?_, fun l hdue read => ?_⟩
    · exact runs_ran (f := wipeDone) rfl
        ((wipeDone_due _ hdue).trans (loadSections_unread ((bootPayloads_dramWiped _).trans unread)))
    · intro fails
      refine ⟨fun x => filters_only read, fun x found => runs_ran (f := wipeDone) rfl (wipeDone_refused read hdue found), fun found => ?_⟩
      refine runs_ran (f := wipeDone) rfl ?_
      rw [wipeDone_loaded read hdue found]
      obtain ⟨mem, xp⟩ := filtersInstalled_rest l wiped
      exact ⟨rfl, mem, xp, rfl⟩
  · exact byteGet_bytesSet_run d.mem.sram (firmwareBase p.length) p a
  · intro confirmed due
    refine ⟨fun hdue => runs_ran (f := autoConfirm) rfl ((autoConfirm_some _ m image).trans (if_pos hdue)),
      fun idle => runs_ran (f := autoConfirm) rfl ((autoConfirm_some _ m image).trans (if_neg idle)),
      fun up => runs_ran (f := confirmGo) rfl ((if_pos up).trans (confirmRunning_some _ m image)),
      fun down => runs_ran (f := confirmGo) rfl (if_neg (by simp [down]))⟩
  · refine runs_ran (f := autoConfirm) rfl ?_
    rw [autoConfirm, none]
  · refine runs_ran (f := confirmGo) rfl ?_
    rw [confirmGo, confirmRunning_none _ none, ite_self]

end Sys2Proof.Machine
end

section
/-!
The commands of a management request (R408 to R412).
-/
namespace Sys2Proof.Machine

section
variable {s : State} {op : Nat} {p : List Byte → Bool} {f : Dev → Dev} {c : Instr}

/-- A command whose turn has come. -/
theorem runs_front (h : exec c s = ran s (runFront op p f)) (turn : frontIs s.dev op p = true) {d : Dev} (hd : f s.dev = d) :
    Runs c s fun e => e = d := runs_ran h ((if_pos turn).trans hd)

/-- A command whose turn has not come. -/
theorem runs_front_idle (h : exec c s = ran s (runFront op p f)) (turn : ¬frontIs s.dev op p = true) : Runs c s fun d => d = s.dev :=
  runs_ran h (if_neg turn)

end

/-! ### The flash -/

section
variable {d : Dev} {r : MgmtReq} {rest : List MgmtReq} (front : d.mgmt.queue = r :: rest)
include front

theorem commitAnswer_result {t q v : Nat} (wait : r.wait = .result t q v) :
    commitAnswer d = endFront 0 (beBytes 8 t ++ beBytes 2 q ++ beBytes 2 v) d := by
  rw [commitAnswer, front]
  dsimp only
  rw [wait]

theorem commitAnswer_none (wait : r.wait = .none) : commitAnswer d = d := by
  rw [commitAnswer, front]
  dsimp only
  rw [wait]

theorem flashDone_none (ok : Bool) (wait : r.wait = .none) : flashDone ok d = d := by
  rw [flashDone, front]
  dsimp only
  rw [wait]

theorem flashDone_erase (ok : Bool) {a n : Nat} (wait : r.wait = .erase a n) :
    flashDone ok d = if ok then endFront 0 [] (flashErase d a n) else endFront 7 [] (flashSpoil d a n) := by
  rw [flashDone, front]
  dsimp only
  rw [wait]

theorem flashDone_program (ok : Bool) {a : Nat} {bs : List Byte} (wait : r.wait = .program a bs) :
    flashDone ok d = if ok then
        endFront (if flashRun (flashProgram d a bs) a bs.length = bs then 0 else 6) [] (flashProgram d a bs)
      else endFront 7 [] (flashSpoil d a bs.length) := by
  rw [flashDone, front]
  dsimp only
  rw [wait]

end

section
variable (d : Dev) (w : Dev → MgmtWait)

theorem uploadStart_busy (busy : d.boot.reload.isSome = true) : uploadStart w d = endFront 4 [] d := if_pos busy

theorem uploadStart_idle (idle : d.boot.reload = none) : uploadStart w d = frontWaits (w (touchBank d)) (touchBank d) :=
  if_neg (by rw [idle]; exact Bool.false_ne_true)

theorem crcData_eq (a n : Nat) : crcData d a n = beBytes 4 (crc32c (flashRun d a n)).toNat ++ [0, 0, 0, 0] :=
  congrArg (_ ++ ·) (by decide : beBytes 4 0 = [0, 0, 0, 0])

end

/-- Settles O39: a command in its turn is its operation, and the flash's end and the commit's result answer the command that waits. -/
theorem requestsExecuteTheirCommands : Obligations.RequestsExecuteTheirCommands := by
  unfold Obligations.RequestsExecuteTheirCommands
  refine ⟨fun s off n => ?_, fun s off ws => ?_, fun s e => ?_, fun s => ?_, fun s r rest front => ⟨fun t q v wait => ?_, fun a n wait => ⟨?_, ?_⟩,
    fun a bs wait => ⟨?_, ?_⟩, fun wait => ⟨?_, fun ok => ?_⟩⟩, fun s off n bs => ?_⟩
  · intro turn
    refine ⟨fun h => ?_, fun h => ?_⟩
    · exact runs_front (f := readWords off n) rfl h rfl
    · exact runs_front_idle (f := readWords off n) rfl h
  · intro turn
    refine ⟨fun h => ?_, fun h => ?_⟩
    · exact runs_front (f := writeCmdRun off ws) rfl h rfl
    · exact runs_front_idle (f := writeCmdRun off ws) rfl h
  · intro turn
    refine ⟨fun h => ?_, fun h => ?_⟩
    · exact runs_front (f := fun d => frontWaits .commit (commitAtHiWrite (BitVec.ofNat 32 (e / 2 ^ 32)) (liveSet d offEpcCommitAtLo (BitVec.ofNat 32 e)))) rfl h rfl
    · exact runs_front_idle (f := fun d => frontWaits .commit (commitAtHiWrite (BitVec.ofNat 32 (e / 2 ^ 32)) (liveSet d offEpcCommitAtLo (BitVec.ofNat 32 e)))) rfl h
  · intro turn
    have idle {op : Nat} (h : turn op = false) : ¬frontIs s.dev op (fun _ => true) = true := Bool.eq_false_iff.mp h
    refine ⟨fun h => ?_, fun h => ?_, fun h => ?_, fun h => ?_, fun h => ?_, fun h => ?_, fun h => ?_, fun h => ?_, fun h => ?_, fun h => ?_, fun h => ?_, fun h => ?_⟩
    · exact runs_front (f := fun d => frontWaits .commit (commitNextWrite d)) rfl h rfl
    · exact runs_front_idle (f := fun d => frontWaits .commit (commitNextWrite d)) rfl (idle h)
    · exact runs_front (f := fun d => frontWaits .commit (commitCancelWrite d)) rfl h rfl
    · exact runs_front_idle (f := fun d => frontWaits .commit (commitCancelWrite d)) rfl (idle h)
    · exact runs_front (f := reloadCmd) rfl h rfl
    · exact runs_front_idle (f := reloadCmd) rfl (idle h)
    · exact runs_front (f := fun d => endFront 0 (reloadData (reloadAbandon d)) (reloadAbandon d)) rfl h rfl
    · exact runs_front_idle (f := fun d => endFront 0 (reloadData (reloadAbandon d)) (reloadAbandon d)) rfl (idle h)
    · exact runs_front (f := fun d => endFront 0 [] (confirmGo d)) rfl h rfl
    · exact runs_front_idle (f := fun d => endFront 0 [] (confirmGo d)) rfl (idle h)
    · exact runs_front (f := endFront 0 []) rfl h rfl
    · exact runs_front_idle (f := endFront 0 []) rfl (idle h)
  · exact runs_ran (f := commitAnswer) rfl (commitAnswer_result front wait)
  · exact runs_ran (f := flashDone true) rfl ((flashDone_erase front true wait).trans (if_pos rfl))
  · exact runs_ran (f := flashDone false) rfl ((flashDone_erase front false wait).trans (if_neg Bool.false_ne_true))
  · exact runs_ran (f := flashDone true) rfl ((flashDone_program front true wait).trans (if_pos rfl))
  · exact runs_ran (f := flashDone false) rfl ((flashDone_program front false wait).trans (if_neg Bool.false_ne_true))
  · exact runs_ran (f := commitAnswer) rfl (commitAnswer_none front wait)
  · exact runs_ran (f := flashDone ok) rfl (flashDone_none front ok wait)
  · intro erases uploads crcs fErases fWrites fCrcs
    refine ⟨fun h busy => ?_, fun h idle => ?_, fun h => ?_, fun h busy => ?_, fun h idle => ?_, fun h => ?_, fun h => ?_, fun h => ?_,
      fun h => ?_, fun h => ?_, fun h => ?_, fun h => ?_, fun h => ?_, fun h => ?_⟩
    · exact runs_front (f := uploadStart fun d => .erase (otherBank d + off) (4096 * n)) rfl h (uploadStart_busy _ _ busy)
    · exact runs_front (f := uploadStart fun d => .erase (otherBank d + off) (4096 * n)) rfl h (uploadStart_idle _ _ idle)
    · exact runs_front_idle (f := uploadStart fun d => .erase (otherBank d + off) (4096 * n)) rfl h
    · exact runs_front (f := uploadStart fun d => .program (otherBank d + off) bs) rfl h (uploadStart_busy _ _ busy)
    · exact runs_front (f := uploadStart fun d => .program (otherBank d + off) bs) rfl h (uploadStart_idle _ _ idle)
    · exact runs_front_idle (f := uploadStart fun d => .program (otherBank d + off) bs) rfl h
    · exact runs_front (f := fun d => endFront 0 (crcData d (otherBank d + off) n) d) rfl h (congrArg (endFront 0 · s.dev) (crcData_eq _ _ _))
    · exact runs_front_idle (f := fun d => endFront 0 (crcData d (otherBank d + off) n) d) rfl h
    · exact runs_front (f := frontWaits (.erase off (4096 * n))) rfl h rfl
    · exact runs_front_idle (f := frontWaits (.erase off (4096 * n))) rfl h
    · exact runs_front (f := frontWaits (.program off bs)) rfl h rfl
    · exact runs_front_idle (f := frontWaits (.program off bs)) rfl h
    · exact runs_front (f := fun d => endFront 0 (crcData d off n) d) rfl h (congrArg (endFront 0 · s.dev) (crcData_eq _ _ _))
    · exact runs_front_idle (f := fun d => endFront 0 (crcData d off n) d) rfl h

end Sys2Proof.Machine
end

section
/-!
Management datagrams (R402 to R408): what a port takes, HELLO and REQUEST.
-/
namespace Sys2Proof.Machine

/-! ### A fresh session identifier (R404) -/

/-- An identifier that a session may not get. -/
abbrev IdTaken (used : List Nat) (v : Nat) : Prop := v = 0 ∨ v ∈ used

/-- An unfinished search has found nothing but taken identifiers. -/
theorem freshId_taken {used : List Nat} : ∀ (fuel v : Nat), v < 2 ^ 32 → IdTaken used (freshId used fuel v) →
    ∀ i, i ≤ fuel → IdTaken used ((v + i) % 2 ^ 32)
  | 0, v, low, taken, i, h => by
    obtain rfl : i = 0 := by omega
    rwa [Nat.add_zero, Nat.mod_eq_of_lt low]
  | f + 1, v, low, taken, i, h => by
    rw [freshId] at taken
    split at taken
    · next here =>
      have next := freshId_taken f ((v + 1) % 2 ^ 32) (Nat.mod_lt _ (by decide)) taken
      cases i with
      | zero =>
        rw [Nat.add_zero, Nat.mod_eq_of_lt low]
        exact here.imp id List.contains_iff_mem.mp
      | succ i =>
        have later := next i (by omega)
        rwa [Nat.mod_add_mod, Nat.add_assoc, Nat.add_comm 1 i] at later
    · next free => exact absurd (taken.imp id List.contains_iff_mem.mpr) free

/-- A search with as much fuel as there are taken identifiers finds a fresh one. -/
theorem freshId_fresh {used : List Nat} {fuel v : Nat} (low : v < 2 ^ 32) (room : used.length < fuel) (short : fuel < 2 ^ 32) :
    freshId used fuel v ∉ used ∧ freshId used fuel v ≠ 0 := by
  by_contra taken
  have all := freshId_taken fuel v low (by
    by_contra free
    exact taken ⟨fun mem => free (.inr mem), fun zero => free (.inl zero)⟩)
  have maps : ∀ i ∈ Finset.range (fuel + 1), (v + i) % 2 ^ 32 ∈ (0 :: used).toFinset := fun i mem =>
    List.mem_toFinset.mpr (List.mem_cons.mpr (all i (by have := Finset.mem_range.mp mem; omega)))
  have few : (0 :: used).toFinset.card < (Finset.range (fuel + 1)).card := by
    have := List.toFinset_card_le (0 :: used)
    rw [List.length_cons] at this
    rw [Finset.card_range]
    omega
  obtain ⟨i, hi, j, hj, ne, same⟩ := Finset.exists_ne_map_eq_of_card_lt_of_maps_to few maps
  have := Finset.mem_range.mp hi
  have := Finset.mem_range.mp hj
  omega

/-! ### A datagram that is sent -/

/-- b has a's management state but for what the management port has sent, and a's counts of datagrams. -/
structure SentOnly (a b : Dev) : Prop where
  mgmt : { b.mgmt with sent := a.mgmt.sent } = a.mgmt
  counts : ∀ k, liveGet b (offSvcMdpCnt k) = liveGet a (offSvcMdpCnt k)

section
variable {a b : Dev} (h : SentOnly a b)
include h

theorem SentOnly.sessions : b.mgmt.sessions = a.mgmt.sessions := by
  have sessions := congrArg Mgmt.sessions h.mgmt
  exact sessions

theorem SentOnly.queue : b.mgmt.queue = a.mgmt.queue := by
  have queue := congrArg Mgmt.queue h.mgmt
  exact queue

theorem SentOnly.hellos : b.mgmt.hellos = a.mgmt.hellos := by
  have hellos := congrArg Mgmt.hellos h.mgmt
  exact hellos

end

section
variable (port dst src : Nat) (m b : List Byte) (d : Dev)

/-- A frame that belongs to no stream is queued, or dropped and counted where the plane's buffer is full. -/
theorem enqueueTx_cases (x : Nat) (f : TxFrame) (single : ∀ t k p, f.body ≠ .stream t k p) :
    (∃ p, enqueueTx d x f = setPlane d x p) ∨ enqueueTx d x f = bump d (offNetCnt x 9) := by
  unfold enqueueTx
  extract_lets entered n p counted
  have body : n.body = f.body := rfl
  by_cases full : p.queue.foldl (fun a q => a + q.bytes) 0 + n.bytes > 768 * 1024
  · rw [if_pos full]
    right
    split
    · next t k q stream => exact absurd (body.symm.trans stream) (single t k q)
    · rfl
  · rw [if_neg full]
    exact .inl ⟨_, rfl⟩

theorem sendDatagram_plane (h : port < 2) :
    (∃ p, sendDatagram port dst m d = setPlane d port p) ∨ sendDatagram port dst m d = bump d (offNetCnt port 9) := by
  rw [sendDatagram, if_pos h]
  exact enqueueTx_cases d port _ fun _ _ _ => nofun

theorem sendDatagram_port (h : ¬port < 2) : sendDatagram port dst m d =
    if running d blkMgt then mgtSent (setMgmt d { d.mgmt with sent := some (dst, m) }) else d := if_neg h

theorem offSvcMdpCnt_not_perf (k : Nat) : offSvcMdpCnt k ∉ perfWords 78 := by
  unfold perfWords offPerfOvf offPerfCntLo offPerfCntHi offSvcMdpCnt
  simp only [List.mem_cons, List.mem_flatMap, List.mem_range, List.not_mem_nil, or_false, not_or, not_exists, not_and]
  exact ⟨by omega, fun j hj => by omega⟩

/-- The management port's counts are no counts of datagrams. -/
theorem mgtSent_only : SentOnly d (mgtSent d) := by
  have sent : OnlyWords (offMgtCnt 4 :: perfWords 78) d (mgtSent d) :=
    OnlyWords.trans (.bump List.mem_cons_self (.refl _ d)) ((perfHit_only _ 78 0x11 1).mono fun _ mem => List.mem_cons_of_mem _ mem)
  refine ⟨by rw [sent.mgmt], fun k => sent.regs.live _ fun mem => ?_⟩
  rcases List.mem_cons.mp mem with same | perf
  · unfold offSvcMdpCnt offMgtCnt at same
    omega
  · exact offSvcMdpCnt_not_perf k perf

theorem sendDatagram_sent : SentOnly d (sendDatagram port dst m d) := by
  by_cases plane : port < 2
  · rcases sendDatagram_plane port dst m d plane with ⟨p, queued⟩ | dropped
    · rw [queued]
      exact ⟨by rw [setPlane_mgmt], fun k => setPlane_liveGet _ _ _ _⟩
    · rw [dropped]
      refine ⟨by rw [bump_mgmt], fun k => ?_⟩
      rw [liveGet_bump, if_neg]
      unfold offSvcMdpCnt offNetCnt
      omega
  · rw [sendDatagram_port _ _ _ _ plane]
    split
    · have sent := mgtSent_only (setMgmt d { d.mgmt with sent := some (dst, m) })
      have mgmt := congrArg (fun g : Mgmt => { g with sent := d.mgmt.sent }) sent.mgmt
      exact ⟨mgmt, fun k => (sent.counts k).trans (setMgmt_liveGet d _ _)⟩
    · exact ⟨rfl, fun _ => rfl⟩

/-! ### What a port takes (R244, R402) -/

theorem takeDatagram_mgt (h : ¬port < 2) : takeDatagram port b d = d := if_neg fun takes => h takes.1

theorem takeDatagram_shut (shut : ¬portOpen d port = true) : takeDatagram port b d = d := if_neg fun takes => shut takes.2

/-- The datagram that the supervisor queue holds leaves it. -/
theorem takeDatagram_takes (up : portOpen d port = true) (h : port < 2) {pre rest : List Frame} {f : Frame}
    (queue : (plane d port).sup = pre ++ f :: rest) (skipped : ∀ g ∈ pre, bringsDatagram b g = false) (here : bringsDatagram b f = true) :
    takeDatagram port b d = setPlane d port { plane d port with sup := pre ++ rest } := by
  rw [takeDatagram, if_pos ⟨h, up⟩, queue, dropWhere_first f rest skipped here]

/-- What taking a datagram leaves. -/
structure TakenOnly (a e : Dev) : Prop where
  mgmt : e.mgmt = a.mgmt
  live : ∀ o, liveGet e o = liveGet a o
  up : ∀ p, portOpen e p = portOpen a p

theorem portOpen_setPlane (x : Nat) (p : Plane) : portOpen (setPlane d x p) port = portOpen d port := by
  unfold setPlane
  split <;> rfl

theorem takeDatagram_only : TakenOnly d (takeDatagram port b d) := by
  unfold takeDatagram
  split
  · exact ⟨setPlane_mgmt _ _ _, setPlane_liveGet _ _ _, fun p => portOpen_setPlane p d _ _⟩
  · exact ⟨rfl, fun _ => rfl, fun _ => rfl⟩

variable (kind : Nat)

theorem datagramIn_shut (shut : ¬portOpen d port = true) : datagramIn kind port src b d = d := if_pos (by simpa using shut)

theorem datagramIn_malformed (up : portOpen d port = true) (bad : ¬(mdpFormed b = true ∧ (field b 3 1 = 1 ∨ field b 3 1 = 3))) :
    datagramIn kind port src b d = bump d (offSvcMdpCnt 1) := by
  rw [datagramIn, if_neg (by simp [up]), if_pos]
  · rfl
  · by_contra good
    apply bad
    simpa [or_iff_not_imp_left] using good

theorem datagramIn_hello (up : portOpen d port = true) (good : mdpFormed b = true) (hello : field b 3 1 = 1) :
    datagramIn 1 port src b d = helloIn port src b d := by
  rw [datagramIn, if_neg (by simp [up]), if_neg (by simp [good, hello]), if_neg (by simp [hello]), if_pos rfl]

theorem datagramIn_request (up : portOpen d port = true) (good : mdpFormed b = true) (request : field b 3 1 = 3) :
    datagramIn 3 port src b d = requestIn port src b d := by
  rw [datagramIn, if_neg (by simp [up]), if_neg (by simp [good, request]), if_neg (by simp [request]), if_neg (by decide)]

end

/-! ### HELLO (R404, R405) -/

section
variable (port src : Nat) (b : List Byte) (d : Dev)

/-- A HELLO whose lengths and reserved bytes are right. -/
abbrev HelloFits (b : List Byte) : Prop := field b 12 2 = 20 ∧ zeros (b.drop 16) 1 3 = true

/-- A HELLO is answered in this second, with a nonce. -/
def helloDrawn : Dev := setMgmt d { d.mgmt with hellos := d.mgmt.hellos + 1, drawn := d.mgmt.drawn + 2 }

/-- The device's nonce. -/
abbrev nonceOf : List Byte := beBytes 16 (Config.random d.mgmt.drawn).toNat

/-- The identifier of a new session. -/
abbrev newId : Nat := freshId (d.mgmt.sessions.map (·.id)) 16 ((Config.random (d.mgmt.drawn + 1)).toNat % 2 ^ 32)

/-- The session that a key opens. -/
def newSession (k : Nat × Nat × List Byte) : Session :=
  ⟨newId d, sessionKey k.2.2 k.1 (newId d) ((b.drop 20).take 16) (nonceOf d), k.2.1, none, [], 0, 0⟩

/-- The device with a session that a key has opened. -/
def sessionOpened (k : Nat × Nat × List Byte) : Dev :=
  mdpCount 7 (setMgmt (helloDrawn d) { (helloDrawn d).mgmt with sessions := d.mgmt.sessions ++ [newSession b d k] })

theorem helloIn_malformed (bad : field b 12 2 ≠ 20 ∨ zeros (b.drop 16) 1 3 = false) :
    helloIn port src b d = bump d (offSvcMdpCnt 1) := if_pos bad

variable {b}

theorem not_helloMalformed (fits : HelloFits b) : ¬(field b 12 2 ≠ 20 ∨ zeros (b.drop 16) 1 3 = false) := by
  rintro (len | zero)
  · exact len fits.1
  · rw [fits.2] at zero
    nomatch zero

theorem helloIn_many (fits : HelloFits b) (many : 16 ≤ d.mgmt.hellos) : helloIn port src b d = bump d (offSvcMdpCnt 6) := by
  rw [helloIn]
  exact (if_neg (not_helloMalformed fits)).trans (if_pos many)

variable (fits : HelloFits b) (few : d.mgmt.hellos < 16)
include fits few

theorem helloIn_answered : helloIn port src b d =
    if d.mgmt.sessions.length ≥ 8 then sendDatagram port src (mdpDatagram none 2 0 0 (beBytes 2 2 ++ [0, 0] ++ nonceOf d)) (helloDrawn d)
    else match d.mgmt.keys.find? fun k => decide (k.1 = field (b.drop 16) 0 1) with
      | none => sendDatagram port src (mdpDatagram none 2 0 0 (beBytes 2 1 ++ [0, 0] ++ nonceOf d)) (helloDrawn d)
      | some k => sendDatagram port src (mdpDatagram (some (newSession b d k).key) 2 (newId d) 0 ([0, 0, 0, 0] ++ nonceOf d))
          (sessionOpened b d k) := by
  rw [helloIn]
  dsimp only
  rw [if_neg (not_helloMalformed fits), if_neg (Nat.not_le_of_lt few)]
  simp only [sessionOpened, newSession, helloDrawn, setMgmt, List.drop_drop] <;> rfl

theorem helloIn_refused (refused : 8 ≤ d.mgmt.sessions.length ∨ ∀ k ∈ d.mgmt.keys, k.1 ≠ field (b.drop 16) 0 1) :
    ∃ m, helloIn port src b d = sendDatagram port src m (helloDrawn d) := by
  rw [helloIn_answered port src d fits few]
  split
  · exact ⟨_, rfl⟩
  · next room =>
    have unknown := refused.resolve_left room
    rw [List.find?_eq_none.mpr fun k mem => by simpa using unknown k mem]
    exact ⟨_, rfl⟩

theorem helloIn_opens (room : d.mgmt.sessions.length < 8) {k : Nat × Nat × List Byte}
    (known : (d.mgmt.keys.find? fun k => decide (k.1 = field (b.drop 16) 0 1)) = some k) :
    ∃ m, helloIn port src b d = sendDatagram port src m (sessionOpened b d k) := by
  rw [helloIn_answered port src d fits few, if_neg (Nat.not_le_of_lt room), known]
  exact ⟨_, rfl⟩

omit fits few in
theorem newId_fresh (room : d.mgmt.sessions.length < 8) : newId d ∉ d.mgmt.sessions.map (·.id) ∧ newId d ≠ 0 :=
  freshId_fresh (Nat.mod_lt _ (by decide)) (by rw [List.length_map]; omega) (by decide)

end

/-! ### REQUEST (R406) -/

section
variable (port src : Nat) (b : List Byte) (d : Dev)

/-- The sequence number of a request beyond the session's last. -/
def aheadOf (x : Session) : Nat := match x.seq with
  | none => 1
  | some l => (field b 8 4 + 2 ^ 32 - l) % 2 ^ 32

/-- The tag of a request is its session's. -/
abbrev TagOk (x : Session) : Prop := hmac256 x.key (b.take (16 + field b 12 2)) = b.drop (16 + field b 12 2)

/-- A session that has heard a right tag. -/
abbrev heardOk (x : Session) : Session := { x with badTags := 0 }

theorem requestIn_unknown (unknown : (d.mgmt.sessions.find? fun x => decide (x.id = field b 4 4)) = none) :
    requestIn port src b d = bump d (offSvcMdpCnt 2) := by
  rw [requestIn, unknown]
  rfl

variable {b d} {x : Session} (found : (d.mgmt.sessions.find? fun x => decide (x.id = field b 4 4)) = some x)
include found

theorem requestIn_badTag (bad : ¬TagOk b x) : requestIn port src b d =
    if x.badTags ≥ 15 then closeSession (mdpCount 3 d) x.id else setSession (mdpCount 3 d) { x with badTags := x.badTags + 1 } := by
  rw [requestIn, found]
  exact if_pos bad

theorem requestIn_goodTag (ok : TagOk b x) : requestIn port src b d =
    if aheadOf b x = 0 then
      if x.resp.isEmpty then setSession d (heardOk x) else sendDatagram port src x.resp (mdpCount 5 (setSession d (heardOk x)))
    else if aheadOf b x < 2 ^ 31 then
      enqueueReq port src x.id (field b 8 4) x.perms ((b.drop 16).take (field b 12 2))
        (setSession d { x with badTags := 0, seq := some (field b 8 4), resp := [], idle := 0 })
    else mdpCount 4 (setSession d (heardOk x)) := by
  rw [requestIn, found]
  exact if_neg (not_not.mpr ok)

/-- A request that is not ahead counts a replay or a response sent again, and is not executed. -/
theorem requestIn_behind (ok : TagOk b x) (behind : aheadOf b x = 0 ∨ 2 ^ 31 ≤ aheadOf b x) :
    (requestIn port src b d).mgmt.queue = d.mgmt.queue ∧
      liveGet (requestIn port src b d) (offSvcMdpCnt 4) = liveGet d (offSvcMdpCnt 4) + (if 2 ^ 31 ≤ aheadOf b x then 1 else 0) ∧
      liveGet (requestIn port src b d) (offSvcMdpCnt 5) =
        liveGet d (offSvcMdpCnt 5) + (if aheadOf b x = 0 ∧ x.resp ≠ [] then 1 else 0) := by
  rw [requestIn_goodTag port src found ok]
  by_cases again : aheadOf b x = 0
  · rw [if_pos again, if_neg (c := 2 ^ 31 ≤ aheadOf b x) (by omega)]
    by_cases none : x.resp = []
    · rw [if_pos (by rw [none]; rfl), if_neg (fun both => both.2 none), add_zero, add_zero]
      exact ⟨rfl, rfl, rfl⟩
    · rw [if_neg (fun empty => none (List.isEmpty_iff.mp empty)), if_pos ⟨again, none⟩, add_zero]
      have sent := sendDatagram_sent port src x.resp (mdpCount 5 (setSession d (heardOk x)))
      refine ⟨sent.queue, (sent.counts 4).trans ?_, (sent.counts 5).trans ?_⟩
      · rw [mdpCount, liveGet_bump, if_neg (by decide)]
        rfl
      · rw [mdpCount, liveGet_bump, if_pos rfl]
        rfl
  · have far := behind.resolve_left again
    rw [if_neg again, if_neg (Nat.not_lt_of_le far), if_pos far, if_neg (fun both => again both.1), add_zero]
    refine ⟨rfl, ?_, ?_⟩
    · rw [mdpCount, liveGet_bump, if_pos rfl]
      rfl
    · rw [mdpCount, liveGet_bump, if_neg (by decide)]
      rfl

/-- A request whose tag does not match changes no request; the sixteenth closes its session. -/
theorem requestIn_badTag_only (bad : ¬TagOk b x) :
    (requestIn port src b d).mgmt.queue = d.mgmt.queue ∧
      OnlyWords [offSvcMdpCnt 3] { d with mgmt := (requestIn port src b d).mgmt } (requestIn port src b d) ∧
      (requestIn port src b d).mgmt.sessions = (if x.badTags ≥ 15 then d.mgmt.sessions.filter fun y => decide (y.id ≠ x.id)
        else d.mgmt.sessions.map fun y => if y.id = x.id then { x with badTags := x.badTags + 1 } else y) := by
  rw [requestIn_badTag port src found bad]
  split
  · exact ⟨rfl, .bump List.mem_cons_self (.refl _ _), rfl⟩
  · exact ⟨rfl, .bump List.mem_cons_self (.refl _ _), rfl⟩

theorem requestIn_ahead (ok : TagOk b x) (first : 0 < aheadOf b x) (near : aheadOf b x < 2 ^ 31) : requestIn port src b d =
    enqueueReq port src x.id (field b 8 4) x.perms ((b.drop 16).take (field b 12 2))
      (setSession d { x with badTags := 0, seq := some (field b 8 4), resp := [], idle := 0 }) := by
  rw [requestIn_goodTag port src found ok, if_neg (by omega), if_pos near]

end

section
variable {s : State} {port src : Nat} {b : List Byte} {P : Dev → Prop} (h : port < 3)
include h

theorem runs_hello (hp : P (datagramIn 1 port src b (takeDatagram port b s.dev))) : Runs (.hello port src b) s P :=
  runs_ranIf (f := fun d => datagramIn 1 port src b (takeDatagram port b d)) rfl (decide_eq_true h) hp

theorem runs_request (hp : P (datagramIn 3 port src b (takeDatagram port b s.dev))) : Runs (.request port src b) s P :=
  runs_ranIf (f := fun d => datagramIn 3 port src b (takeDatagram port b d)) rfl (decide_eq_true h) hp

end

/-- Settles O38: the datagram is taken, and what becomes of it is HELLO's or REQUEST's by the lemma for its case. -/
theorem datagramsAreAuthenticated : Obligations.DatagramsAreAuthenticated := by
  unfold Obligations.DatagramsAreAuthenticated
  intro s port src b h up good taken
  have only : TakenOnly s.dev taken := takeDatagram_only port b s.dev
  have open' (hup : up) : portOpen taken port = true := (only.up port).trans hup
  refine ⟨fun mgt => takeDatagram_mgt port b _ (by omega), fun pre rest f hup plane queue skipped here =>
      takeDatagram_takes port b _ hup plane queue skipped here, fun shut => ⟨?_, ?_⟩, fun hup bad => ⟨?_, ?_⟩,
    fun hup hgood hello => ⟨fun bad => ?_, fun len zero many => ?_, fun len zero few refused => ?_, fun k len zero few room known => ?_⟩,
    fun hup hgood request => ⟨fun unknown => ?_, fun x found => ?_⟩⟩
  · refine runs_hello h ?_
    rw [takeDatagram_shut port b _ shut]
    exact datagramIn_shut port src b _ 1 shut
  · refine runs_request h ?_
    rw [takeDatagram_shut port b _ shut]
    exact datagramIn_shut port src b _ 3 shut
  · exact runs_hello h (datagramIn_malformed port src b taken 1 (open' hup) bad)
  · exact runs_request h (datagramIn_malformed port src b taken 3 (open' hup) bad)
  · exact runs_hello h ((datagramIn_hello port src b taken (open' hup) hgood hello).trans (helloIn_malformed port src b taken bad))
  · refine runs_hello h ((datagramIn_hello port src b taken (open' hup) hgood hello).trans ?_)
    exact helloIn_many port src taken ⟨len, zero⟩ (by rwa [only.mgmt])
  · refine runs_hello h ?_
    obtain ⟨m, sends⟩ := helloIn_refused port src taken ⟨len, zero⟩ (by rwa [only.mgmt]) (by rwa [only.mgmt])
    have sent := sendDatagram_sent port src m (helloDrawn taken)
    rw [(datagramIn_hello port src b taken (open' hup) hgood hello).trans sends, sent.sessions, sent.queue, sent.hellos, helloDrawn, only.mgmt]
    exact ⟨rfl, rfl, rfl⟩
  · refine runs_hello h ?_
    obtain ⟨m, sends⟩ := helloIn_opens port src taken ⟨len, zero⟩ (by rwa [only.mgmt]) (by rwa [only.mgmt]) (by rwa [only.mgmt])
    obtain ⟨fresh, positive⟩ := newId_fresh s.dev room
    have sent := sendDatagram_sent port src m (sessionOpened b taken k)
    have opened : newSession b taken k = newSession b s.dev k := by
      simp only [newSession, newId, nonceOf, only.mgmt]
    have count : liveGet (sessionOpened b taken k) (offSvcMdpCnt 7) = liveGet taken (offSvcMdpCnt 7) + 1 :=
      (liveGet_bump _ _ _).trans (if_pos rfl)
    refine ⟨newId s.dev, fresh, positive, ?_⟩
    rw [(datagramIn_hello port src b taken (open' hup) hgood hello).trans sends, sent.sessions, sent.queue, sent.counts, count, only.live]
    have sessions : (sessionOpened b taken k).mgmt.sessions = taken.mgmt.sessions ++ [newSession b taken k] := rfl
    have queue : (sessionOpened b taken k).mgmt.queue = taken.mgmt.queue := rfl
    rw [sessions, queue, opened, only.mgmt]
    exact ⟨rfl, rfl, rfl⟩
  · refine runs_request h ((datagramIn_request port src b taken (open' hup) hgood request).trans ?_)
    exact requestIn_unknown port src b taken (by rwa [only.mgmt])
  · intro len tagOk ahead
    have found' : (taken.mgmt.sessions.find? fun x => decide (x.id = field b 4 4)) = some x := by rwa [only.mgmt]
    have run := datagramIn_request port src b taken (open' hup) hgood request
    refine ⟨fun bad => runs_request h ?_, fun ok behind => runs_request h ?_, fun ok first near => runs_request h ?_⟩
    · rw [run, ← only.mgmt]
      exact requestIn_badTag_only port src found' bad
    · rw [run, ← only.mgmt, ← only.live, ← only.live]
      exact requestIn_behind port src found' ok behind
    · exact run.trans (requestIn_ahead port src found' ok first near)

end Sys2Proof.Machine
end

section
/-!
The twin link hears frames (R350, R351), and a join begins, follows and times out (R363, R364).
-/
namespace Sys2Proof.Machine

/-- What writes registers' current values alone does so beside another state of the twin link. -/
theorem OnlyWords.withTwn {ws : List Nat} {a b : Dev} (h : OnlyWords ws a b) (t : Twn) :
    OnlyWords ws { a with twn := t } { b with twn := t } :=
  ⟨⟨h.regs.live, h.regs.shadow, h.regs.act, h.regs.snap⟩, congrArg (fun e : Dev => { e with twn := t }) h.rest⟩

theorem OnlyWords.wd {ws : List Nat} {a b : Dev} (h : OnlyWords ws a b) : b.wd = a.wd := by
  have wd := congrArg Dev.wd h.rest
  exact wd

theorem OnlyWords.rc {ws : List Nat} {a b : Dev} (h : OnlyWords ws a b) : b.rc = a.rc := by
  have rc := congrArg Dev.rc h.rest
  exact rc

/-! ### A copy of a frame (R350) -/

section
variable (lane : Nat) (h : TwinHead) (type : Nat) (payload : List Byte) (take : Dev → Dev) (d : Dev)

/-- A frame is taken: its lane is heard and its SEQ kept. -/
def copyTaken : Dev := setTwn (laneHeard lane d) { (laneHeard lane d).twn with rxSeqs := h.seq :: d.twn.rxSeqs.take 15 }

/-- The twin state once a lane has delivered a frame. -/
def laneTwn (t : Twn) : Twn :=
  { t with laneNow := setIns t.laneNow lane, laneIdle := if lane = 0 then (0, t.laneIdle.2) else (t.laneIdle.1, 0) }

theorem setTwn_twn (t : Twn) : (setTwn d t).twn = t := rfl

theorem laneHeard_twn : (laneHeard lane d).twn = laneTwn lane d.twn := setTwn_twn _ _

theorem laneTwn_rxSeqs (t : Twn) : (laneTwn lane t).rxSeqs = t.rxSeqs := rfl

theorem copyTaken_twn : (copyTaken lane h d).twn = { laneTwn lane d.twn with rxSeqs := h.seq :: d.twn.rxSeqs.take 15 } := by
  rw [copyTaken, setTwn_twn, laneHeard_twn]

/-- The lane shows up. -/
theorem laneHeard_only : OnlyWords [offTwnStatus] { d with twn := (laneHeard lane d).twn } (laneHeard lane d) := by
  have shown : OnlyWords [offTwnStatus] d (liveSetB d offTwnStatus (12 + lane) true) := .liveSetB List.mem_cons_self (.refl _ d)
  exact shown.withTwn _

theorem copyTaken_only : OnlyWords [offTwnStatus] { d with twn := (copyTaken lane h d).twn } (copyTaken lane h d) :=
  (laneHeard_only lane d).withTwn _

theorem twnBit_laneHeard (low : lane < 2) : liveB (laneHeard lane d) offTwnStatus (12 + lane) = true :=
  (liveB_setTwn _ _ _ _).trans (liveB_liveSetB_same _ _ _ (by omega))

theorem twnBit_copyTaken (low : lane < 2) : liveB (copyTaken lane h d) offTwnStatus (12 + lane) = true :=
  (liveB_setTwn _ _ _ _).trans (twnBit_laneHeard lane d low)

theorem mem_laneNow : lane ∈ (laneTwn lane d.twn).laneNow := mem_setIns.mpr (.inl rfl)

theorem pairState_copyTaken (low : lane < 2) : pairState (copyTaken lane h d) = pairState d := by
  rw [pairState, copyTaken, liveF_setTwn, laneHeard, liveF_setTwn,
    liveF_liveSetB_otherField _ _ _ (by omega) (.inl (by omega)) (by decide), pairState]

theorem copyTaken_epc : (copyTaken lane h d).epc = d.epc := (copyTaken_only lane h d).epc

theorem joinRefused_copyTaken (low : lane < 2) : joinRefused (copyTaken lane h d) = joinRefused d := by
  have only := copyTaken_only lane h d
  unfold joinRefused stateTooLarge
  rw [only.boot, only.wd, only.rc, pairState_copyTaken lane h d low]

theorem takeCopy_off (off : ¬running d blkTwn = true) : takeCopy lane h type payload take d = d := if_pos (by simpa using off)

theorem takeCopy_badCrc (runs : running d blkTwn = true) (bad : copyCrcOk h type payload = false) :
    takeCopy lane h type payload take d = bump d (offTwnLaneCrc lane) := by
  rw [takeCopy, if_neg (by simp [runs]), if_pos bad, twinCrcError, if_pos runs]

theorem takeCopy_invalid (runs : running d blkTwn = true) (crc : copyCrcOk h type payload = true) (bad : copyOk h type payload = false) :
    takeCopy lane h type payload take d = d := by
  rw [takeCopy, if_neg (by simp [runs]), if_neg (by simp [crc]), if_pos bad]

/-- A valid copy: the second one is dropped. -/
theorem takeCopy_valid (runs : running d blkTwn = true) (ok : copyOk h type payload = true) : takeCopy lane h type payload take d =
    if (laneHeard lane d).twn.rxSeqs.contains h.seq then laneHeard lane d else take (copyTaken lane h d) := by
  have crc : copyCrcOk h type payload = true := by
    rw [copyOk, Bool.and_eq_true] at ok
    exact ok.2
  rw [takeCopy, if_neg (by simp [runs]), if_neg (by simp [crc]), if_neg (by simp [ok])]
  dsimp only
  rw [copyTaken, laneHeard_twn, laneTwn_rxSeqs]

theorem takeCopy_second (runs : running d blkTwn = true) (ok : copyOk h type payload = true) (second : h.seq ∈ d.twn.rxSeqs) :
    takeCopy lane h type payload take d = laneHeard lane d := by
  rw [takeCopy_valid lane h type payload take d runs ok, laneHeard_twn, laneTwn_rxSeqs, if_pos (List.contains_iff_mem.mpr second)]

theorem takeCopy_first (runs : running d blkTwn = true) (ok : copyOk h type payload = true) (first : ¬h.seq ∈ d.twn.rxSeqs) :
    takeCopy lane h type payload take d = take (copyTaken lane h d) := by
  rw [takeCopy_valid lane h type payload take d runs ok, laneHeard_twn, laneTwn_rxSeqs,
    if_neg fun held => first (List.contains_iff_mem.mp held)]

end

/-! ### EPOCH frames (R351, R353) -/

section
variable (f : TwinEpoch) (d : Dev)

theorem twinFrame_twn : (twinFrame f d).twn = { d.twn with rx := f :: d.twn.rx.take 3 } := by
  rw [twinFrame, liveSet_twn, liveSet_twn, setTwn_twn]

theorem twinFrame_only : OnlyWords [offTwnPeerImageLo, offTwnPeerImageHi] { d with twn := (twinFrame f d).twn } (twinFrame f d) := by
  rw [twinFrame_twn]
  exact ((OnlyWords.refl _ _).liveSet (by simp)).liveSet (by simp)

theorem twinFrame_image : liveGet (twinFrame f d) offTwnPeerImageLo = f.imageCrc ∧ liveGet (twinFrame f d) offTwnPeerImageHi = f.imageGen :=
  ⟨(liveGet_liveSet_other _ _ (by decide)).trans (liveGet_liveSet_same _ _ _), liveGet_liveSet_same _ _ _⟩

/-- An EPOCH frame becomes the newest heard and shows the peer's image. -/
theorem twinFrame_taken (lane : Nat) (h : TwinHead) (low : lane < 2) :
    let e := twinFrame f (copyTaken lane h d)
    liveB e offTwnStatus (12 + lane) = true ∧ lane ∈ e.twn.laneNow ∧ e.twn.rxSeqs = h.seq :: d.twn.rxSeqs.take 15 ∧
      e.twn.rx = f :: d.twn.rx.take 3 ∧ liveGet e offTwnPeerImageLo = f.imageCrc ∧ liveGet e offTwnPeerImageHi = f.imageGen ∧
      OnlyWords [offTwnStatus, offTwnPeerImageLo, offTwnPeerImageHi] { d with twn := e.twn } e := by
  intro e
  have only : OnlyWords [offTwnPeerImageLo, offTwnPeerImageHi] _ e := twinFrame_only f (copyTaken lane h d)
  have twn : e.twn = { laneTwn lane d.twn with rxSeqs := h.seq :: d.twn.rxSeqs.take 15, rx := f :: d.twn.rx.take 3 } := by
    rw [show e.twn = _ from twinFrame_twn f _, copyTaken_twn]
    rfl
  obtain ⟨crc, gen⟩ := twinFrame_image f (copyTaken lane h d)
  refine ⟨(only.regs.liveB (by decide) _).trans (twnBit_copyTaken lane h d low), ?_, by rw [twn], by rw [twn], crc, gen, ?_⟩
  · rw [twn]
    exact mem_laneNow lane d
  · exact (((copyTaken_only lane h d).withTwn e.twn).mono (by simp)).trans (only.mono (by simp))

end

/-! ### Frames that are sent (R350, R351) -/

section
variable (type : Byte) (payload : List Byte) (d : Dev)

/-- A frame, byte by byte: MAGIC, TYPE, a zero byte, LENGTH, SEQ, the payload and the CRC. -/
abbrev frameOf (seq : Nat) : List Byte :=
  ([0x51, 0x57, type, 0] ++ beBytes 2 payload.length ++ beBytes 2 (seq % 65536) ++ payload) ++
    beBytes 4 (crc32c ([0x51, 0x57, type, 0] ++ beBytes 2 payload.length ++ beBytes 2 (seq % 65536) ++ payload)).toNat

theorem frameFront_msg (seq : Nat) : frameFront 0x5157 (BitVec.ofNat 16 seq) 2 payload =
    [0x51, 0x57, 2, 0] ++ beBytes 2 payload.length ++ beBytes 2 (seq % 65536) ++ payload := by
  rw [frameFront, BitVec.toNat_ofNat]
  rfl

/-- A MSG frame with the next SEQ. -/
theorem sendMsg_eq (code k : Nat) : sendMsg code k d =
    setTwn d { d.twn with msg := some (code, k), seq := (d.twn.seq + 1) % 65536,
                          out := d.twn.out ++ [frameOf 2 (msgPayload code k) d.twn.seq] } := by
  have front := frameFront_msg (msgPayload code k) d.twn.seq
  rw [sendMsg, sendFrame, setTwn_twn]
  dsimp only
  rw [front]
  rfl

end

/-! ### Joins (R363, R364) -/

section
variable (d : Dev)

/-- The epoch at which a join that is answered now begins. -/
abbrev joinEpoch : Nat := d.epc.epoch + 1 + Config.joinLead d.twn.answers

theorem joinRequest_answered (ok : joinRefused d = false) : joinRequest d =
    setTwn d { d.twn with serveK := some (joinEpoch d), answers := d.twn.answers + 1, msg := some (2, joinEpoch d),
                          seq := (d.twn.seq + 1) % 65536, out := d.twn.out ++ [frameOf 2 ([0, 2] ++ beBytes 6 (joinEpoch d)) d.twn.seq] } := by
  have payload : msgPayload 2 (joinEpoch d) = [0, 2] ++ beBytes 6 (joinEpoch d) := rfl
  rw [joinRequest, if_neg (by simp [ok]), sendMsg_eq, payload]
  rfl

/-- A request to join is due. -/
abbrev AskDue : Prop :=
  running d blkTwn = true ∧ pairState d = 1 ∧ d.twn.joinK = none ∧ ∀ e, d.twn.asked = some e → e + 3000 ≤ d.epc.epoch

/-- The cause of a request that was left unanswered shows. -/
def causeShown : Dev :=
  if d.twn.asked.isSome && twnBit d 9 then liveSetF d offTwnJoinStatus 2 0 (refusalCause d) else d

theorem askDue_iff : (running d blkTwn && decide (pairState d = 1) && d.twn.joinK.isNone &&
    (match d.twn.asked with
    | some e => decide (e + 3000 ≤ d.epc.epoch)
    | none => true)) = true ↔ AskDue d := by
  cases asked : d.twn.asked <;> simp [AskDue, asked, and_assoc]

theorem joinRequestTx_idle (idle : ¬AskDue d) : joinRequestTx d = d := by
  unfold joinRequestTx
  exact if_neg fun due => idle ((askDue_iff d).mp due)

theorem causeShown_only : OnlyWords [offTwnJoinStatus] d (causeShown d) := by
  unfold causeShown
  split
  · exact .liveSetF List.mem_cons_self (.refl _ d)
  · exact .refl _ d

theorem joinRequestTx_asks (due : AskDue d) : joinRequestTx d =
    setTwn (causeShown d) { d.twn with msg := some (1, 0), seq := (d.twn.seq + 1) % 65536, asked := some d.epc.epoch,
                                       out := d.twn.out ++ [frameOf 2 [0, 1] d.twn.seq] } := by
  have payload : msgPayload 1 0 = [0, 1] := rfl
  have asks : joinRequestTx d = sendMsg 1 0 (setTwn (causeShown d) { (causeShown d).twn with asked := some (causeShown d).epc.epoch }) := by
    unfold joinRequestTx
    exact if_pos ((askDue_iff d).mpr due)
  rw [asks, sendMsg_eq, payload, setTwn_twn, (causeShown_only d).twn, (causeShown_only d).epc]
  rfl

theorem refusalCause_lt : refusalCause d < 8 := by
  unfold refusalCause
  split
  · decide
  · split <;> decide

/-- A request that is sent: its frame, the time it was asked, and the cause of the one before it that was left unanswered. -/
theorem joinRequestTx_sends (due : AskDue d) :
    let e := joinRequestTx d
    e.twn = { d.twn with msg := some (1, 0), seq := (d.twn.seq + 1) % 65536, asked := some d.epc.epoch,
                         out := d.twn.out ++ [frameOf 2 [0, 1] d.twn.seq] } ∧
      (d.twn.asked.isSome = true → liveB d offTwnStatus 9 = true → liveF e offTwnJoinStatus 2 0 = refusalCause d) ∧
      (¬(d.twn.asked.isSome = true ∧ liveB d offTwnStatus 9 = true) → e.regs = d.regs) ∧
      OnlyWords [offTwnJoinStatus] { d with twn := e.twn } e := by
  intro e
  rw [show e = _ from joinRequestTx_asks d due]
  refine ⟨setTwn_twn _ _, fun asked heard => ?_, fun idle => ?_, (causeShown_only d).withTwn _⟩
  · rw [liveF_setTwn, causeShown, if_pos (by simp [twnBit, asked, heard]), liveF_liveSetF_same _ _ _ (by decide) (by decide)]
    exact Nat.mod_eq_of_lt (refusalCause_lt d)
  · rw [setTwn_regs, causeShown, if_neg (by simpa [twnBit] using idle)]

theorem joinStart_takes (k : Nat) (waits : pairState d = 1 ∧ d.twn.joinK = none) :
    joinStart k d = setTwn d { d.twn with joinK := some k, asked := none } := if_pos waits

theorem joinStart_idle (k : Nat) (idle : ¬(pairState d = 1 ∧ d.twn.joinK = none)) : joinStart k d = d := if_neg idle

/-- A join has taken too long. -/
abbrev JoinLate (k : Nat) : Prop :=
  running d blkTwn = true ∧ pairState d = 1 ∧ k + 3000 * actF d offTwnJoinCfg 7 0 ≤ d.epc.epoch

theorem joinTimeout_none (none : d.twn.joinK = none) : joinTimeout d = d := by
  rw [joinTimeout, none]

theorem joinTimeout_early {k : Nat} (joins : d.twn.joinK = some k) (early : ¬JoinLate d k) : joinTimeout d = d := by
  rw [joinTimeout, joins]
  exact if_neg (by simpa [and_assoc] using early)

/-- The join is given up with a JOIN_STOP, which is counted. -/
def joinStopped : Dev := bumpSat (sendMsg 3 0 d) offTwnJoinStatus 15 8

theorem joinStopped_twn : (joinStopped d).twn = { d.twn with msg := some (3, 0), seq := (d.twn.seq + 1) % 65536,
                                                             out := d.twn.out ++ [frameOf 2 [0, 3] d.twn.seq] } := by
  have payload : msgPayload 3 0 = [0, 3] := rfl
  rw [joinStopped, (bumpSat_only _ _ _ _).twn, sendMsg_eq, payload, setTwn_twn]

/-- The join that is given up is logged. -/
def joinStopLogged : Dev := raiseErr (joinStopped d) twnSrc 0x0606 (liveGet (joinStopped d) offTwnJoinStatus) 0

theorem joinTimeout_late {k : Nat} (joins : d.twn.joinK = some k) (late : JoinLate d k) : joinTimeout d =
    setTwn (joinStopLogged d)
      { (joinStopped d).twn with joinK := none, followed := [], heard := [], arrived := [], mirrored := [], asked := none } := by
  have stops : joinTimeout d = setTwn (joinStopLogged d)
      { (joinStopLogged d).twn with joinK := none, followed := [], heard := [], arrived := [], mirrored := [], asked := none } := by
    have timedOut : (running d blkTwn && decide (pairState d = 1 ∧ k + 3000 * actF d offTwnJoinCfg 7 0 ≤ d.epc.epoch)) = true := by
      simpa [and_assoc] using late
    rw [joinTimeout, joins]
    dsimp only
    rw [if_pos timedOut]
    rfl
  rw [stops, show (joinStopLogged d).twn = (joinStopped d).twn from raiseErr_twn _ _ _ _ (by decide)]

theorem joinCount_late {k : Nat} (joins : d.twn.joinK = some k) (late : JoinLate d k) :
    liveF (joinTimeout d) offTwnJoinStatus 15 8 = min 255 (liveF d offTwnJoinStatus 15 8 + 1) := by
  have logged : liveGet (joinStopLogged d) offTwnJoinStatus = liveGet (joinStopped d) offTwnJoinStatus :=
    liveGet_raiseErr_mild _ _ _ _ (by decide) (by decide)
  rw [joinTimeout_late d joins late, liveF_setTwn, liveF, logged, ← liveF, joinStopped, liveF_bumpSat _ _ (by decide) (by decide),
    sendMsg_eq, liveF_setTwn]
  rfl

end

/-! ### Followed state (R363) -/

section
variable (f : StateFrame) (d : Dev)

/-- A record is of the kind and the epoch of a frame. -/
abbrev sameRecord (e : Nat) (r : Nat × Nat × List (Nat × Byte)) : Bool := decide (r.1 = f.kind ∧ r.2.1 = e)

/-- The bytes of a frame's record so far. -/
abbrev recordSoFar : List (Nat × Byte) := match d.twn.followed.find? (sameRecord f d.epc.epoch) with
  | some r => r.2.2
  | none => []

/-- Bytes put at places from o + k on. -/
def bytesPlaced (o k : Nat) (data : List Byte) (m : List (Nat × Byte)) : List (Nat × Byte) :=
  (data.zipIdx k).foldl (fun m b => mapIns (mapDel m (o + b.2)) (o + b.2) b.1) m

theorem find?_bytesPlaced (o a : Nat) : ∀ (data : List Byte) (k : Nat) (m : List (Nat × Byte)),
    (bytesPlaced o k data m).find? (fun e => decide (e.1 = a)) =
      if o + k ≤ a ∧ a < o + k + data.length then data[a - (o + k)]?.map fun b => (a, b) else m.find? fun e => decide (e.1 = a)
  | [], k, m => (if_neg (by simp only [List.length_nil]; omega)).symm
  | b :: t, k, m => by
    have rest := find?_bytesPlaced o a t (k + 1) (mapIns (mapDel m (o + k)) (o + k) b)
    rw [bytesPlaced, List.zipIdx_cons, List.foldl_cons, ← bytesPlaced, rest, find?_mapIns_mapDel, List.length_cons]
    by_cases here : a = o + k
    · subst here
      rw [if_neg (by omega), if_pos rfl, if_pos (by omega), Nat.sub_self]
      rfl
    · rw [if_neg here]
      refine if_ctx_congr (by omega) (fun within => ?_) fun _ => rfl
      rw [show a - (o + k) = a - (o + (k + 1)) + 1 by omega, List.getElem?_cons_succ]

theorem stateFrame_idle (idle : ¬(pairState d = 1 ∧ d.twn.joinK.isSome = true)) : stateFrame f d = d := if_neg idle

/-- The records once a frame has arrived. -/
def followedNow : List (Nat × Nat × List (Nat × Byte)) :=
  (f.kind, d.epc.epoch, bytesPlaced f.offset 0 f.data (recordSoFar f d)) ::
    d.twn.followed.filter fun r => !(sameRecord f d.epc.epoch r) && decide (d.epc.epoch ≤ r.2.1 + 2)

theorem stateFrame_record (joins : pairState d = 1 ∧ d.twn.joinK.isSome = true) (kind : f.kind ≠ 5) :
    stateFrame f d = setTwn d { d.twn with followed := followedNow f d } := by
  rw [stateFrame, if_pos joins, if_neg kind]
  rfl

theorem stateFrame_mirror (joins : pairState d = 1 ∧ d.twn.joinK.isSome = true) (kind : f.kind = 5) :
    stateFrame f d = mirrorArrives f.data d := by
  rw [stateFrame, if_pos joins, if_pos kind]

/-- No record is more than two epochs old. -/
theorem followedNow_young : ∀ r ∈ followedNow f d, d.epc.epoch ≤ r.2.1 + 2 := by
  intro r mem
  rcases List.mem_cons.mp mem with rfl | later
  · exact Nat.le_add_right _ 2
  · have chosen := (List.mem_filter.mp later).2
    rw [Bool.and_eq_true, decide_eq_true_eq] at chosen
    exact chosen.2

/-- The bytes of the frame are in the record. -/
theorem followedNow_bytes {i : Nat} (h : i < f.data.length) :
    ((bytesPlaced f.offset 0 f.data (recordSoFar f d)).find? fun e => decide (e.1 = f.offset + i)).map (·.2) = f.data[i]? := by
  rw [find?_bytesPlaced, if_pos (by omega), show f.offset + i - (f.offset + 0) = i by omega, Option.map_map]
  exact Option.map_id'

/-- b is a but for the arrivals of mirrored words and the reserved region of MEM1. -/
def MirrorOnly (a b : Dev) : Prop :=
  b = { a with twn := { a.twn with arrived := b.twn.arrived }, mem := { a.mem with reserved := b.mem.reserved } }

theorem MirrorOnly.refl (a : Dev) : MirrorOnly a a := rfl

theorem MirrorOnly.reservedPut {a b : Dev} (h : MirrorOnly a b) (o : Nat) (v : Byte) : MirrorOnly a (reservedPut b o v) := by
  have put := congrArg (fun e : Dev => Machine.reservedPut e o v) h
  exact put

theorem MirrorOnly.reservedRun {a b : Dev} (h : MirrorOnly a b) (o : Nat) (bs : List Byte) : MirrorOnly a (reservedRun b o bs) :=
  List.foldlRecOn (motive := MirrorOnly a) _ _ h fun _ k _ _ => k.reservedPut _ _

theorem MirrorOnly.arrived {a b : Dev} (h : MirrorOnly a b) (l : List (Nat × Nat)) : MirrorOnly a (setTwn b { b.twn with arrived := l }) := by
  have put := congrArg (fun e : Dev => setTwn e { e.twn with arrived := l }) h
  exact put

theorem mirrorArrives_only (data : List Byte) : MirrorOnly d (mirrorArrives data d) := by
  refine List.foldlRecOn (motive := MirrorOnly d) _ _ (.refl d) fun e k b _ => ?_
  dsimp only
  split
  · exact k
  · exact (k.reservedRun _ _).arrived _

end

/-! ### The commands -/

section
variable {s : State} {lane : Nat} {h : TwinHead} {P : Dev → Prop} (low : lane < 2)
include low

theorem runs_twinEpochFrameRx (f : TwinEpoch)
    (hp : P (takeCopy lane h 1 (epochPayload (blockN s.dev) f) (twinFrame f) s.dev)) : Runs (.twinEpochFrameRx lane h f) s P :=
  runs_ranIf (f := fun d => takeCopy lane h 1 (epochPayload (blockN d) f) (twinFrame f) d) rfl (decide_eq_true low) hp

theorem runs_joinRequest (hp : P (takeCopy lane h 2 [0, 1] joinRequest s.dev)) : Runs (.joinRequest lane h) s P :=
  runs_ranIf (f := takeCopy lane h 2 (msgPayload 1 0) joinRequest) rfl (decide_eq_true low) hp

theorem runs_joinStart (k : Nat) (hp : P (takeCopy lane h 2 ([0, 2] ++ beBytes 6 k) (joinStart k) s.dev)) : Runs (.joinStart k lane h) s P :=
  runs_ranIf (f := takeCopy lane h 2 (msgPayload 2 k) (joinStart k)) rfl (decide_eq_true low) hp

theorem runs_joinStop (hp : P (takeCopy lane h 2 [0, 3] joinStop s.dev)) : Runs (.joinStop lane h) s P :=
  runs_ranIf (f := takeCopy lane h 2 (msgPayload 3 0) joinStop) rfl (decide_eq_true low) hp

theorem runs_stateFrameRx (f : StateFrame) (hp : P (takeCopy lane h 3 (statePayload f) (stateFrame f) s.dev)) :
    Runs (.stateFrameRx f lane h) s P :=
  runs_ranIf (f := takeCopy lane h 3 (statePayload f) (stateFrame f)) rfl (decide_eq_true low) hp

end

/-- A command brings a copy of a frame. -/
def BringsCopy (s : State) (c : Instr) (lane : Nat) (h : TwinHead) (type : Nat) (payload : List Byte) : Prop :=
  (∃ f, c = .twinEpochFrameRx lane h f ∧ type = 1 ∧ payload = epochPayload (blockN s.dev) f) ∨
    (c = .joinRequest lane h ∧ type = 2 ∧ payload = [0, 1]) ∨ (∃ k, c = .joinStart k lane h ∧ type = 2 ∧ payload = [0, 2] ++ beBytes 6 k) ∨
    (c = .joinStop lane h ∧ type = 2 ∧ payload = [0, 3]) ∨ (∃ f, c = .stateFrameRx f lane h ∧ type = 3 ∧ payload = statePayload f)

/-- Whatever frame it is, the command takes the copy as R350 says. -/
theorem BringsCopy.runs {s : State} {c : Instr} {lane : Nat} {h : TwinHead} {type : Nat} {payload : List Byte}
    (brings : BringsCopy s c lane h type payload) (low : lane < 2) :
    ∃ take, ∀ P : Dev → Prop, P (takeCopy lane h type payload take s.dev) → Runs c s P := by
  rcases brings with ⟨f, rfl, rfl, rfl⟩ | ⟨rfl, rfl, rfl⟩ | ⟨k, rfl, rfl, rfl⟩ | ⟨rfl, rfl, rfl⟩ | ⟨f, rfl, rfl, rfl⟩
  · exact ⟨_, fun _ => runs_twinEpochFrameRx low f⟩
  · exact ⟨_, fun _ => runs_joinRequest low⟩
  · exact ⟨_, fun _ => runs_joinStart low k⟩
  · exact ⟨_, fun _ => runs_joinStop low⟩
  · exact ⟨_, fun _ => runs_stateFrameRx low f⟩

/-- Settles O41: a copy is judged by R350, and the first valid one does what its frame brings. -/
theorem twinFramesAndJoins : Obligations.TwinFramesAndJoins := by
  unfold Obligations.TwinFramesAndJoins
  intro s runs joining second taken frame
  refine ⟨fun c lane h type payload low brings => ?_, fun lane h f low up ok first => ?_, fun lane low => ⟨fun up => ?_, fun off => ?_⟩,
    fun lane h low up ok first => ⟨fun refused => ?_, fun asks => ?_⟩, ?_, fun lane h k low up ok first => ⟨fun joins waits => ?_, fun idle => ?_⟩,
    fun lane h low up ok first => ?_, fun lane h f low up ok first => ⟨fun idle => ?_, fun joins some kind => ?_, fun joins some kind => ?_⟩,
    fun k joins => ?_, fun none => runs_ran (f := joinTimeout) rfl (joinTimeout_none _ none)⟩
  · obtain ⟨take, run⟩ := BringsCopy.runs brings low
    refine ⟨fun off => run _ (takeCopy_off lane h type payload take _ off), fun up bad => run _ (takeCopy_badCrc lane h type payload take _ up bad),
      fun up crc bad => run _ (takeCopy_invalid lane h type payload take _ up crc bad), fun up ok again => run _ ?_⟩
    rw [takeCopy_second lane h type payload take _ up ok again, laneHeard_twn]
    exact ⟨rfl, twnBit_laneHeard lane _ low, mem_laneNow lane _⟩
  · refine runs_twinEpochFrameRx low f ?_
    rw [takeCopy_first lane h _ _ _ _ up ok first]
    exact twinFrame_taken f s.dev lane h low
  · exact runs_ranIf (f := twinCrcError lane) rfl (decide_eq_true low) (if_pos up)
  · exact runs_ranIf (f := twinCrcError lane) rfl (decide_eq_true low) (if_neg off)
  · refine runs_joinRequest low ((takeCopy_first lane h _ _ _ _ up ok first).trans ?_)
    exact if_pos ((joinRefused_copyTaken lane h _ low).trans refused)
  · refine runs_joinRequest low ?_
    rw [takeCopy_first lane h _ _ _ _ up ok first]
    refine ⟨joinEpoch (copyTaken lane h s.dev), ?_, ?_⟩
    · rw [joinEpoch, copyTaken_epc]
      omega
    · rw [joinRequest_answered _ ((joinRefused_copyTaken lane h _ low).trans asks), copyTaken_twn]
      rfl
  · intro due
    exact ⟨fun hdue => runs_ran (f := joinRequestTx) rfl (joinRequestTx_sends s.dev hdue),
      fun idle => runs_ran (f := joinRequestTx) rfl (joinRequestTx_idle s.dev idle)⟩
  · refine runs_joinStart low k ((takeCopy_first lane h _ _ _ _ up ok first).trans ?_)
    exact joinStart_takes _ k ⟨(pairState_copyTaken lane h _ low).trans joins, by rw [copyTaken_twn]; exact waits⟩
  · refine runs_joinStart low k ((takeCopy_first lane h _ _ _ _ up ok first).trans ?_)
    refine joinStart_idle _ k fun both => idle ?_
    rw [pairState_copyTaken lane h _ low, copyTaken_twn] at both
    exact both
  · exact runs_joinStop low (takeCopy_first lane h _ _ _ _ up ok first)
  · refine runs_stateFrameRx low f ((takeCopy_first lane h _ _ _ _ up ok first).trans ?_)
    refine stateFrame_idle f _ fun both => idle ?_
    rw [pairState_copyTaken lane h _ low, copyTaken_twn] at both
    exact both
  · refine runs_stateFrameRx low f ?_
    have follows : pairState (copyTaken lane h s.dev) = 1 ∧ (copyTaken lane h s.dev).twn.joinK.isSome = true :=
      ⟨(pairState_copyTaken lane h _ low).trans joins, by rw [copyTaken_twn]; exact some⟩
    rw [takeCopy_first lane h _ _ _ _ up ok first, stateFrame_mirror f _ follows kind, ← (copyTaken_only lane h s.dev).mem]
    exact mirrorArrives_only (copyTaken lane h s.dev) f.data
  · refine runs_stateFrameRx low f ?_
    have follows : pairState (copyTaken lane h s.dev) = 1 ∧ (copyTaken lane h s.dev).twn.joinK.isSome = true :=
      ⟨(pairState_copyTaken lane h _ low).trans joins, by rw [copyTaken_twn]; exact some⟩
    rw [takeCopy_first lane h _ _ _ _ up ok first, stateFrame_record f _ follows kind, setTwn_twn, ← copyTaken_epc lane h s.dev]
    exact ⟨rfl, rfl, fun i hi => followedNow_bytes f _ hi, followedNow_young f _⟩
  · intro late
    refine ⟨fun hlate => runs_ran (f := joinTimeout) rfl ?_, fun early => runs_ran (f := joinTimeout) rfl (joinTimeout_early _ joins early)⟩
    have count := joinCount_late s.dev joins hlate
    rw [joinTimeout_late s.dev joins hlate, setTwn_twn, joinStopped_twn]
    rw [joinTimeout_late s.dev joins hlate, joinStopped_twn] at count
    exact ⟨rfl, rfl, rfl, rfl, rfl, rfl, rfl, count⟩

end Sys2Proof.Machine
end

section
/-!
The frames of the serial ports (R308, R311 to R318): which frame comes, when a port slips, realigns and stops.
-/
namespace Sys2Proof.Machine

/-! ### The phase of a frame -/

section
variable {d : Dev} {p : Nat} {phase : Int}

theorem framePhase_own (h : (portMaster d p && drivesOut d || onOwnMaster d p) = true) : framePhase d p phase = (0, 0) := if_pos h

theorem framePhase_slave (slave : portMaster d p = false) (h : onOwnMaster d p = false) : framePhase d p phase = (phase, 0) := by
  simp [framePhase, slave, h]

/-- A master that does not drive the outputs takes the nearest of its own nominal edges (R318). -/
theorem framePhase_nearest (master : portMaster d p = true) (out : drivesOut d = false) :
    framePhase d p phase = ((phase + 128) % 256 - 128, ((phase + 128) % 256 - 128 - phase) / 256) := by
  simp [framePhase, master, out, onOwnMaster]

end

/-! ### What a frame-start edge brings -/

section
variable {d : Dev} {p : Nat} {phase : Int} {din : List Word}

theorem sapFrame_none (h : running d blkSap = false ∨ ¬(ownFs d p = true ∨ fsStarts d p din = true)) : sapFrame p phase din d = d :=
  if_neg (by rcases h with h | h <;> simp_all)

variable (runs : running d blkSap = true) (seen : ownFs d p = true ∨ fsStarts d p din = true)
include runs seen

/-- The next frame of a locked or stopping port. -/
theorem sapFrame_next {f : Nat} (has : (getPort d p).frame = some f) (locked : portState d p = 3 ∨ portState d p = 1) :
    sapFrame p phase din d =
      if (framePhase d p phase).1 < -64 then portSlip (phaseReport d p (framePhase d p phase).1) p true false
      else if (framePhase d p phase).1 > 256 then portSlip (phaseReport d p (framePhase d p phase).1) p false false
      else runFrame p ((f + 1 : Nat) + (framePhase d p phase).2).toNat (framePhase d p phase).1 din d := by
  refine (if_pos (by simp [runs, seen])).trans ?_
  dsimp only
  rw [has]
  exact if_pos locked

/-- The first frame of a starting master. -/
theorem sapFrame_first (has : (getPort d p).frame = none) (starts : portState d p = 2 ∧ portMaster d p = true) :
    sapFrame p phase din d =
      if (framePhase d p phase).1 < -64 then portSlip (phaseReport d p (framePhase d p phase).1) p true false
      else runFrame p (firstFrame d p (framePhase d p phase).1) (framePhase d p phase).1 din (setPortState d p 3) := by
  refine (if_pos (by simp [runs, seen])).trans ?_
  dsimp only
  rw [has]
  exact if_pos starts

theorem sapFrame_waits (has : (getPort d p).frame = none) (waits : ¬(portState d p = 2 ∧ portMaster d p = true)) :
    sapFrame p phase din d = d := by
  refine (if_pos (by simp [runs, seen])).trans ?_
  dsimp only
  rw [has]
  exact if_neg waits

end

/-! ### No clock, realignment, stop -/

theorem liveB_setPort (d : Dev) (p : Nat) (x : SapPort) (o i : Nat) : liveB (setPort d p x) o i = liveB d o i := rfl

theorem portState_setPort (d : Dev) (p : Nat) (x : SapPort) (q : Nat) : portState (setPort d p x) q = portState d q := rfl

theorem portState_setPortState (d : Dev) (p v : Nat) : portState (setPortState d p v) p = v % 8 :=
  liveF_liveSetF_same _ _ v (by decide) (by decide)

/-- STATE leaves the bits above it. -/
theorem liveB_setPortState (d : Dev) (p v : Nat) {i : Nat} (h : 2 < i) :
    liveB (setPortState d p v) (offSapPortStatus p) i = liveB d (offSapPortStatus p) i := by
  rw [setPortState, liveB_liveSetF _ _ _ _ _ (by decide) (by decide), if_neg fun low => absurd low.2.2 (by omega)]

/-- A port's record is read from the ports' own state alone. -/
theorem getPort_of_sap {a b : Dev} (h : b.sap = a.sap) (p : Nat) : getPort b p = getPort a p := by
  unfold getPort
  rw [h]

section
variable {d : Dev} {p : Nat} {phase : Int}

/-- The port takes its frame starts from outside and runs. -/
def HearsClock (d : Dev) (p : Nat) : Prop :=
  running d blkSap = true ∧ portState d p ≠ 0 ∧ (portMaster d p && drivesOut d) = false

theorem sapNoClock_idle (h : ¬HearsClock d p) : sapNoClock p d = d :=
  if_neg fun hears => h (by simpa [HearsClock, and_assoc, imp_iff_not_or] using hears)

theorem sapNoClock_hears (h : HearsClock d p) : sapNoClock p d =
    if (getPort d p).frame.isSome then portSlip (liveSetB d (offSapPortStatus p) 29 true) p true true
    else setPort (liveSetB d (offSapPortStatus p) 29 true) p { getPort d p with mayAlign := true } := by
  obtain ⟨runs, up, outside⟩ := h
  have marked : getPort (liveSetB d (offSapPortStatus p) 29 true) p = getPort d p := getPort_of_sap (liveSetB_sap _ _ _ _) p
  rw [sapNoClock, if_pos (by simp [runs, up, outside])]
  dsimp only
  rw [marked]

/-- A port that may align meets an edge in the window of R315. -/
def MayRealign (d : Dev) (p : Nat) (phase : Int) : Prop :=
  running d blkSap = true ∧ (portState d p = 4 ∨ (portState d p = 2 ∧ portMaster d p = false)) ∧
    (getPort d p).mayAlign = true ∧ -64 ≤ (framePhase d p phase).1 ∧ (framePhase d p phase).1 < 192

theorem sapRealign_idle (h : ¬MayRealign d p phase) : sapRealign p phase d = d :=
  if_neg fun may => h (by simpa [MayRealign, and_assoc] using may)

theorem sapRealign_aligns (h : MayRealign d p phase) : sapRealign p phase d =
    setPort (setPortState (liveSetB d (offSapPortStatus p) 29 false) p 3) p
      { getPort d p with frame := some (firstFrame d p (framePhase d p phase).1 - 1), base := firstFrame d p (framePhase d p phase).1,
                         mayAlign := false } := by
  obtain ⟨runs, state, may, early, late⟩ := h
  exact if_pos (by simp [runs, state, may, early, late])

/-- No slot of the port is on its way to another gain (R317). -/
def AtRest (d : Dev) (p : Nat) : Prop :=
  (getPort d p).frame = none ∨ ∀ k < portSlots d p,
    (actB d (offSapMaskIn p) k = true → atZero (getGain d (.portRx p k)) = true) ∧
    (actB d (offSapMaskOut p) k = true → atZero (getGain d (.portTx p k)) = true)

theorem sapStopped_stops (stopping : portState d p = 1) (rest : AtRest d p) : sapStopped p d = portOff d p :=
  if_pos (by simpa [stopping, AtRest, imp_iff_not_or] using rest)

theorem sapStopped_idle (h : ¬(portState d p = 1 ∧ AtRest d p)) : sapStopped p d = d :=
  if_neg fun stops => h (by simpa [AtRest, imp_iff_not_or] using stops)

end

/-! ### A port that is off -/

section
variable (d : Dev) (p : Nat)

/-- The gains of a port's slots at zero. -/
def slotsSilent : Dev :=
  (List.range 32).foldl (fun d s => setGain (setGain d (.portRx p s) (gainDefault 8192)) (.portTx p s) (gainDefault 8192)) d

theorem slotsSilent_sap : (slotsSilent d p).sap = d.sap := by
  unfold slotsSilent
  refine foldl_keeps (g := Dev.sap) ?_ (List.range 32) d
  exact fun _ _ => rfl

theorem portOff_eq : portOff d p =
    liveSet (liveSet (slotsSilent (setPort d p {}) p) (offSapPortStatus p)
      (setBits (setBits (setBits (liveGet (slotsSilent (setPort d p {}) p) (offSapPortStatus p)) 2 0 0) 25 16 0) 30 29 0))
      (offSapPortRatio p) 0 := rfl

theorem getPort_portOff : getPort (portOff d p) p = {} := by
  have ports : (portOff d p).sap = (setPort d p {}).sap := by
    rw [portOff_eq, liveSet_sap, liveSet_sap, slotsSilent_sap]
  unfold getPort
  rw [ports]
  exact getPort_setPort d p {}

theorem portState_portOff : portState (portOff d p) p = 0 := by
  have other : offSapPortStatus p ≠ offSapPortRatio p := by unfold offSapPortStatus offSapPortRatio; omega
  rw [portOff_eq, portState, liveF_liveSet_other _ _ _ _ other, liveF, liveGet_liveSet, if_pos rfl,
    bits_setBits_other _ _ (by decide) (by decide) (by decide) (by decide),
    bits_setBits_other _ _ (by decide) (by decide) (by decide) (by decide), bits_setBits_same _ _ (by decide) (by decide)]
  rfl

end

/-! ### A slip -/

section
variable (d : Dev) (p : Nat) (under back : Bool)

/-- The port as a slip leaves it (R315): without a frame, its slots and its wire at zero. -/
def slippedPort (q : SapPort) : SapPort :=
  { q with frame := none, restarts := allRestart, mayAlign := back, lastBit := q.lastBit.map fun _ => false,
           dout := q.dout.map fun w => w.map fun _ => 0,
           wire := q.wire.map fun b => (b.1, b.2.map fun _ => false) }

/-- The transmit slots of a port at gain zero. -/
def txSilent : Dev := (List.range 32).foldl (fun d s => setGain d (.portTx p s) (gainDefault 8192)) d

/-- The count that a slip raises. -/
def slipCount : Nat := if under then offSapUnderrunCount p else offSapOverrunCount p

/-- A slip counted and shown. -/
def slipShown : Dev :=
  liveSetB (setPortState (bump d (slipCount p under)) p (if portState (bump d (slipCount p under)) p = 1 then 1 else 4)) offSapStatus 2 true

/-- The note of a slip for the report at the next epoch start. -/
def slipNote (s : Sap) : Sap :=
  { s with slips := s.slips + 1, slipLow := some (match s.slipLow with
    | none => p
    | some x => min x p) }

/-- A slip noted. -/
def slipNoted : Dev := { d with sap := slipNote p d.sap }

theorem slipNoted_sap : (slipNoted d p).sap = slipNote p d.sap := rfl

theorem liveGet_slipNoted (o : Nat) : liveGet (slipNoted d p) o = liveGet d o := rfl

/-- The slip before its event is raised. -/
def slipEntered : Dev := slipNoted (slipShown (txSilent (setPort d p (slippedPort back (getPort d p))) p) p under) p

theorem portSlip_eq : portSlip d p under back = raiseOwn (slipEntered d p under back) (8 + p) := rfl

theorem txSilent_keeps {β : Type} (g : Dev → β) (h : ∀ (e : Dev) (c : GainCh) (x : GainCell), g (setGain e c x) = g e) :
    g (txSilent d p) = g d := by
  unfold txSilent
  exact foldl_keeps (fun e s => h e (.portTx p s) (gainDefault 8192)) (List.range 32) d

/-- b is a but for the registers at the given offsets, gains and the serial ports' own state. -/
structure PortsOnly (ws : List Nat) (a b : Dev) : Prop where
  /-- The registers. -/
  regs : RegsBut ws a b
  /-- Everything else. -/
  rest : { b with regs := a.regs, gains := a.gains, sap := a.sap } = a

/-- The registers that a slip writes before its event. -/
def slipWords : List Nat := [offSapUnderrunCount p, offSapOverrunCount p, offSapPortStatus p, offSapStatus]

theorem slipCount_mem : slipCount p under ∈ slipWords p := by
  cases under <;> simp [slipCount, slipWords]

theorem slipShown_only : OnlyWords (slipWords p) d (slipShown d p under) :=
  (((OnlyWords.refl _ _).bump (slipCount_mem p under)).liveSetF (by simp [slipWords])).liveSetB (by simp [slipWords])

theorem txSilent_regs : (txSilent d p).regs = d.regs := txSilent_keeps d p Dev.regs fun _ _ _ => rfl

theorem txSilent_ports : PortsOnly [] d (txSilent d p) where
  regs := (RegsBut.refl _ _).other (txSilent_regs d p)
  rest := txSilent_keeps d p (fun e : Dev => { e with regs := d.regs, gains := d.gains, sap := d.sap }) fun _ _ _ => rfl

variable {d} in
theorem PortsOnly.mono {ws vs : List Nat} {b : Dev} (h : PortsOnly ws d b) (hs : ∀ o ∈ ws, o ∈ vs) : PortsOnly vs d b := ⟨h.regs.mono hs, h.rest⟩

variable {d} in
theorem PortsOnly.trans {ws : List Nat} {b c : Dev} (h : PortsOnly ws d b) (k : PortsOnly ws b c) : PortsOnly ws d c := by
  refine ⟨h.regs.trans k.regs, ?_⟩
  have both := congrArg (fun e : Dev => { e with regs := d.regs, gains := d.gains, sap := d.sap }) k.rest
  exact both.trans h.rest

theorem OnlyWords.ports {ws : List Nat} {a b : Dev} (h : OnlyWords ws a b) : PortsOnly ws a b := by
  refine ⟨h.regs, ?_⟩
  have all := congrArg (fun e : Dev => { e with regs := a.regs, gains := a.gains, sap := a.sap }) h.rest
  exact all

theorem setPort_ports (x : SapPort) : PortsOnly [] d (setPort d p x) := ⟨(RegsBut.refl _ _).other rfl, rfl⟩

theorem slipNoted_ports : PortsOnly [] d (slipNoted d p) := ⟨(RegsBut.refl _ _).other rfl, rfl⟩

theorem slipEntered_ports : PortsOnly (slipWords p) d (slipEntered d p under back) :=
  ((((setPort_ports d p _).trans (txSilent_ports _ p)).mono (by simp)).trans (slipShown_only _ p under).ports).trans
    ((slipNoted_ports _ p).mono (by simp))

theorem portSlip_ports : PortsOnly (slipWords p ++ [offEvtPend ((8 + p) / 32), offEvtCoalesce]) d (portSlip d p under back) :=
  ((slipEntered_ports d p under back).mono fun _ mem => List.mem_append_left _ mem).trans
    ((raiseOwn_only (slipEntered d p under back) (8 + p)).ports.mono fun _ mem => List.mem_append_right _ mem)

theorem OnlyWords.sap {ws : List Nat} {a b : Dev} (h : OnlyWords ws a b) : b.sap = a.sap := by
  have sap := congrArg Dev.sap h.rest
  exact sap

/-- The ports' own state after a slip: the port's record, and the slip noted. -/
theorem portSlip_sap : (portSlip d p under back).sap = slipNote p (setPort d p (slippedPort back (getPort d p))).sap := by
  rw [portSlip_eq, (raiseOwn_only _ _).sap, slipEntered, slipNoted_sap, (slipShown_only _ p under).sap,
    txSilent_keeps _ p Dev.sap fun _ _ _ => rfl]

theorem getPort_portSlip_any (q : Nat) :
    getPort (portSlip d p under back) q = getPort (setPort d p (slippedPort back (getPort d p))) q := by
  unfold getPort
  rw [portSlip_sap]
  rfl

theorem getPort_portSlip : getPort (portSlip d p under back) p = slippedPort back (getPort d p) :=
  (getPort_portSlip_any d p under back p).trans (getPort_setPort d p _)

theorem getPort_portSlip_other {q : Nat} (h : q ≠ p) : getPort (portSlip d p under back) q = getPort d q :=
  (getPort_portSlip_any d p under back q).trans (getPort_setPort_other d _ h)

theorem portSlip_slips : (portSlip d p under back).sap.slips = d.sap.slips + 1 := by
  rw [portSlip_sap]
  rfl

theorem liveGet_txSilent (o : Nat) : liveGet (txSilent d p) o = liveGet d o := by
  unfold liveGet
  rw [txSilent_regs]

/-- A register of the ports is not one of the event block. -/
theorem not_raiseWord {o s : Nat} (low : o < 0x1200000) : o ∉ [offEvtPend (s / 32), offEvtCoalesce] := by
  unfold offEvtPend offEvtCoalesce
  simp
  omega

theorem slipCount_ne : slipCount p under ≠ offSapPortStatus p ∧ slipCount p under ≠ offSapStatus := by
  unfold slipCount offSapUnderrunCount offSapOverrunCount offSapPortStatus offSapStatus
  cases under <;> simp <;> omega

theorem slipCount_slipShown : liveGet (slipShown d p under) (slipCount p under) = liveGet d (slipCount p under) + 1 := by
  obtain ⟨state, status⟩ := slipCount_ne p under
  rw [slipShown, liveGet_liveSetB, if_neg status, setPortState, liveGet_liveSetF, if_neg state, liveGet_bump, if_pos rfl]

theorem portState_slipShown : portState (slipShown d p under) p = if portState d p = 1 then 1 else 4 := by
  have other : offSapPortStatus p ≠ offSapStatus := by unfold offSapPortStatus offSapStatus; omega
  have counted : portState (bump d (slipCount p under)) p = portState d p := liveF_liveSet_other d _ _ _ (slipCount_ne p under).1.symm
  refine (liveF_liveSet_other _ _ _ _ other).trans ?_
  rw [counted, setPortState, liveF_liveSetF_same _ _ _ (by decide) (by decide)]
  split <;> rfl

/-- What a slip shows of the ports' registers is what it shows before its event. -/
theorem liveGet_portSlip {o : Nat} (low : o < 0x1200000) : liveGet (portSlip d p under back) o =
    liveGet (slipShown (txSilent (setPort d p (slippedPort back (getPort d p))) p) p under) o := by
  rw [portSlip_eq, (raiseOwn_only _ _).regs.live o (not_raiseWord low), slipEntered, liveGet_slipNoted]

variable {p} in
theorem slipCount_portSlip (low : p < 32) : liveGet (portSlip d p under back) (slipCount p under) = liveGet d (slipCount p under) + 1 := by
  have place : slipCount p under < 0x1200000 := by
    unfold slipCount offSapUnderrunCount offSapOverrunCount
    split <;> omega
  rw [liveGet_portSlip d p under back place, slipCount_slipShown, liveGet_txSilent]
  rfl

variable {p} in
theorem portState_portSlip (low : p < 32) : portState (portSlip d p under back) p = if portState d p = 1 then 1 else 4 := by
  have place : offSapPortStatus p < 0x1200000 := by unfold offSapPortStatus; omega
  have shown := congrArg (bits · 2 0) (liveGet_portSlip d p under back place)
  have before : portState (txSilent (setPort d p (slippedPort back (getPort d p))) p) p = portState d p :=
    congrArg (bits · 2 0) (liveGet_txSilent _ p _)
  exact shown.trans ((portState_slipShown _ p under).trans (by rw [before]))

variable {p} in
/-- A slip raises source 8 + p where no Fatal error stands (R315; assumption log entry 223). -/
theorem evtPending_portSlip (low : p < 32) (h : fatal d = false) : evtPending (portSlip d p under back) (8 + p) = true := by
  have place : offErrStatus ∉ slipWords p := by
    unfold slipWords offErrStatus offSapUnderrunCount offSapOverrunCount offSapPortStatus offSapStatus
    simp
    omega
  have free : fatal (slipEntered d p under back) = false := ((slipEntered_ports d p under back).regs.liveB place 3).trans h
  rw [portSlip_eq, raiseOwn_free (.inl free), raiseEvt_pending]
  simp

end

/-- Settles O22: each clause is the case of the command's definition that its condition selects; what a slip leaves is read off its
stages, the record, the silent slots, the counts and the event. -/
theorem serialFramesAndSlips : Obligations.SerialFramesAndSlips := by
  unfold Obligations.SerialFramesAndSlips
  refine ⟨fun s p phase din low => ?_, fun s p low => ?_, fun s p phase low => ?_, fun s p low => ?_, fun d p under back low => ?_⟩
  · have frame : ∀ {P : Dev → Prop}, P (sapFrame p phase din s.dev) → Runs (.sapFrame p phase din) s P := fun hp =>
      runs_ranIf (f := sapFrame p phase din) rfl (decide_eq_true low) hp
    refine ⟨fun h => framePhase_own (by simp [h]), framePhase_slave, fun master out => ?_, fun h => frame (sapFrame_none h), fun runs seen =>
      ⟨fun f has locked => ?_, fun has state master => ?_, fun has waits => frame (sapFrame_waits runs seen has waits)⟩⟩
    · rw [framePhase_nearest master out]
      dsimp only
      omega
    · have next := sapFrame_next (phase := phase) runs seen has locked
      refine ⟨fun early late => frame ?_, fun early => frame ?_, fun late => frame ?_⟩
      · rw [next, if_neg (by omega), if_neg (by omega)]
      · rw [next, if_pos early]
      · rw [next, if_neg (by omega), if_pos late]
    · have first := sapFrame_first (phase := phase) runs seen has ⟨state, master⟩
      refine ⟨fun early => frame ?_, fun early => frame ?_⟩
      · rw [first, if_neg (by omega)]
      · rw [first, if_pos early]
  · have clock : ∀ {P : Dev → Prop}, P (sapNoClock p s.dev) → Runs (.sapNoClock p) s P := fun hp =>
      runs_ranIf (f := sapNoClock p) rfl (decide_eq_true low) hp
    refine ⟨fun h => clock (sapNoClock_idle h), fun hears has => clock ?_, fun hears has => clock ?_⟩
    · rw [sapNoClock_hears hears, if_pos has]
    · rw [sapNoClock_hears hears, if_neg (by simp [has])]
  · have edge : ∀ {P : Dev → Prop}, P (sapRealign p phase s.dev) → Runs (.sapRealign p phase) s P := fun hp =>
      runs_ranIf (f := sapRealign p phase) rfl (decide_eq_true low) hp
    refine ⟨fun may => edge ?_, fun idle => edge (sapRealign_idle idle)⟩
    rw [sapRealign_aligns may]
    refine ⟨?_, ?_, ?_, ?_, fun q other =>
      (getPort_setPort_other _ _ other).trans (getPort_of_sap ((liveSetF_sap _ _ _ _ _).trans (liveSetB_sap _ _ _ _)) q)⟩
    · rw [portState_setPort, portState_setPortState]
    · rw [liveB_setPort, liveB_setPortState _ _ _ (by decide), liveB_liveSetB_same _ _ _ (by decide)]
    · rw [getPort_setPort]
      rfl
    · rw [getPort_setPort]
  · have stop : ∀ {P : Dev → Prop}, P (sapStopped p s.dev) → Runs (.sapPortStopped p) s P := fun hp =>
      runs_ranIf (f := sapStopped p) rfl (decide_eq_true low) hp
    refine ⟨fun stopping rest => stop ?_, fun idle => stop (sapStopped_idle idle)⟩
    rw [sapStopped_stops stopping rest]
    exact ⟨rfl, portState_portOff _ p, getPort_portOff _ p⟩
  · have only := portSlip_ports d p under back
    refine ⟨?_, ?_, ?_, portState_portSlip d under back low, slipCount_portSlip d under back low, ?_,
      evtPending_portSlip d under back low, fun q other => getPort_portSlip_other d p under back other,
      portSlip_slips d p under back, only.regs, only.rest⟩
    all_goals
      rw [getPort_portSlip]
      rfl

end Sys2Proof.Machine
end

section
/-!
The crossbar's decoding (R326 to R328), the segments of a burst (R329), and what the grants keep (R325, R329, R331).
-/
namespace Sys2Proof.Machine

theorem OnlyWords.xbar {ws : List Nat} {a b : Dev} (h : OnlyWords ws a b) : b.xbar = a.xbar := by
  have xbar := congrArg Dev.xbar h.rest
  exact xbar

/-! ### Decoding -/

section
variable {d : Dev} {r : XbarReq} (debug : r.master = 18 → lcsState d = 1) (boot : r.addr < 0x100000 → r.master = 0 ∨ r.master = 18)

/-- What a request gets that its path carries to its window. -/
def windowAnswer (d : Dev) (r : XbarReq) (t o : Nat) : XResp :=
  if pathKind r.master t = 1 ∧ r.write = true then .target else targetAnswer d r t o

section
include debug boot

/-- Neither the debug port nor the boot window keeps the request from its windows. -/
theorem decodeReq_admitted : ¬(r.master = 18 ∧ lcsState d ≠ 1) ∧ ¬(r.addr < 0x100000 ∧ r.master ≠ 0 ∧ r.master ≠ 18) :=
  ⟨fun shut => shut.2 (debug shut.1), fun other => (boot other.1).elim other.2.1 other.2.2⟩

theorem decodeReq_outside
    (outside : windowAt (liveB d offXbarCtrl 0) r.addr = none ∨ windowAt (liveB d offXbarCtrl 0) (r.addr + r.len - 1) = none) :
    decodeReq d r = (none, .decode) := by
  obtain ⟨open', low⟩ := decodeReq_admitted debug boot
  rw [decodeReq]
  dsimp only
  rw [if_neg open', if_neg low]
  rcases outside with outside | outside
  · rw [outside]
  · rw [outside]
    cases windowAt (liveB d offXbarCtrl 0) r.addr <;> rfl

variable {t t' o o' : Nat} (first : windowAt (liveB d offXbarCtrl 0) r.addr = some (t, o))
  (last : windowAt (liveB d offXbarCtrl 0) (r.addr + r.len - 1) = some (t', o'))
include first last

theorem decodeReq_spans (apart : t ≠ t') : decodeReq d r = (none, .decode) := by
  obtain ⟨open', low⟩ := decodeReq_admitted debug boot
  rw [decodeReq]
  dsimp only
  rw [if_neg open', if_neg low, first, last]
  exact if_pos apart

theorem decodeReq_noPath (one : t = t') (nowhere : pathKind r.master t = 0) : decodeReq d r = (none, .decode) := by
  obtain ⟨open', low⟩ := decodeReq_admitted debug boot
  rw [decodeReq]
  dsimp only
  rw [if_neg open', if_neg low, first, last]
  dsimp only
  rw [if_neg (not_not.mpr one)]
  cases kind : pathKind r.master t with
  | zero => rfl
  | succ k => exact absurd (kind.symm.trans nowhere) (Nat.succ_ne_zero k)

theorem decodeReq_path (one : t = t') (path : pathKind r.master t ≠ 0) :
    decodeReq d r = (if windowAnswer d r t o = .decode then none else some t, windowAnswer d r t o) := by
  obtain ⟨open', low⟩ := decodeReq_admitted debug boot
  rw [decodeReq]
  dsimp only
  rw [if_neg open', if_neg low, first, last]
  dsimp only
  rw [if_neg (not_not.mpr one), windowAnswer]
  cases kind : pathKind r.master t with
  | zero => exact absurd kind path
  | succ k => rfl

/-- A request that its window answers is taken to have reached it. -/
theorem decodeReq_reaches (one : t = t') (path : pathKind r.master t ≠ 0) {a : XResp} (answer : windowAnswer d r t o = a) (reached : a ≠ .decode) :
    decodeReq d r = (some t, a) := by
  rw [decodeReq_path debug boot first last one path, answer, if_neg reached]

end

variable {t o : Nat}

theorem windowAnswer_readOnly (kind : pathKind r.master t = 1) (write : r.write = true) : windowAnswer d r t o = .target := if_pos ⟨kind, write⟩

theorem windowAnswer_open (free : pathKind r.master t = 1 → r.write = false) : windowAnswer d r t o = targetAnswer d r t o :=
  if_neg fun both => by simp [free both.1] at both

/-- What a target refuses itself, it refuses on a read-only path too. -/
theorem windowAnswer_target (h : targetAnswer d r t o = .target) : windowAnswer d r t o = .target := by
  rw [windowAnswer, h]
  exact ite_self _

theorem targetAnswer_cluster_held (first : clusterHas (o % 0x1000000) = true) (last : clusterHas ((o + r.len - 1) % 0x1000000) = true)
    (held : fatal d = true ∨ o / 0x1000000 ∈ d.vec.retired) : targetAnswer d r 4 o = .target := by
  have holds : clusterHeld d o = true := by simpa [clusterHeld] using held
  simp [targetAnswer, first, last, holds]

theorem targetAnswer_render_fatal (h : fatal d = true) : targetAnswer d r 5 o = .target := by simp [targetAnswer, h]

theorem targetAnswer_mem0_past (ready : memReady d 0 = true) (past : memSize d 0 < o + r.len) : targetAnswer d r 6 o = .decode := by
  simp [targetAnswer, ready, past]

theorem targetAnswer_mem1_past (ready : memReady d 1 = true) (past : memSize d 1 < o + r.len) : targetAnswer d r 7 o = .decode := by
  simp [targetAnswer, ready, past]

theorem targetAnswer_mem0_render (ready : memReady d 0 = true) (fits : o + r.len ≤ memSize d 0) (render : renderOn d = true)
    (master : r.master = 0 ∨ r.master = 18) : targetAnswer d r 6 o = .target := by
  simp [targetAnswer, ready, Nat.not_lt.mpr fits, render, master]

theorem targetAnswer_mem1 (ready : memReady d 1 = true) (fits : o + r.len ≤ memSize d 1) :
    targetAnswer d r 7 o = if mem1Allows d r o = true then .ok else .target := by
  simp [targetAnswer, ready, Nat.not_lt.mpr fits]

end

/-! ### Segments -/

theorem segments_whole {r : XbarReq} (f : Nat) (h : r.len ≤ 512 - r.addr % 32) : segments (f + 1) r = [r] := if_pos h

/-- The first segment of a burst that has more. -/
def segmentHead (r : XbarReq) : XbarReq :=
  { r with len := 512 - r.addr % 32, data := r.data.take (512 - r.addr % 32), last := false }

/-- What follows it. -/
def segmentRest (r : XbarReq) : XbarReq :=
  { r with addr := r.addr + (512 - r.addr % 32), len := r.len - (512 - r.addr % 32), data := r.data.drop (512 - r.addr % 32), first := false }

theorem segments_cut {r : XbarReq} (f : Nat) (h : 512 - r.addr % 32 < r.len) : segments (f + 1) r = segmentHead r :: segments f (segmentRest r) :=
  if_neg (Nat.not_le.mpr h)

/-- A property of single segments is one of the burst's, if the cut keeps it. -/
theorem segments_all {P : XbarReq → Prop} (head : ∀ r, P r → P (segmentHead r)) (rest : ∀ r, P r → P (segmentRest r)) :
    ∀ (f : Nat) (r : XbarReq), P r → ∀ q ∈ segments f r, P q
  | 0, r, h, q, mem => by
    rw [List.mem_singleton.mp mem]
    exact h
  | f + 1, r, h, q, mem => by
    rcases Nat.lt_or_ge (512 - r.addr % 32) r.len with more | whole
    · rw [segments_cut f more] at mem
      rcases List.mem_cons.mp mem with rfl | mem
      · exact head r h
      · exact segments_all head rest f _ (rest r h) q mem
    · rw [segments_whole f whole, List.mem_singleton] at mem
      rw [mem]
      exact h

/-- With fuel for it no segment has more than 16 beats. -/
theorem segments_short : ∀ (f : Nat) (r : XbarReq), r.len ≤ 512 - r.addr % 32 + 512 * f → ∀ q ∈ segments f r, q.len ≤ 512
  | 0, r, fits, q, mem => by
    rw [List.mem_singleton.mp mem]
    omega
  | f + 1, r, fits, q, mem => by
    rcases Nat.lt_or_ge (512 - r.addr % 32) r.len with more | whole
    · rw [segments_cut f more] at mem
      rcases List.mem_cons.mp mem with rfl | mem
      · exact Nat.sub_le _ _
      · refine segments_short f (segmentRest r) ?_ q mem
        show r.len - (512 - r.addr % 32) ≤ 512 - (r.addr + (512 - r.addr % 32)) % 32 + 512 * f
        omega
    · rw [segments_whole f whole, List.mem_singleton] at mem
      rw [mem]
      exact whole.trans (Nat.sub_le _ _)

theorem segments_sum : ∀ (f : Nat) (r : XbarReq), ((segments f r).map fun q => q.len).sum = r.len
  | 0, r => by simp [segments]
  | f + 1, r => by
    rcases Nat.lt_or_ge (512 - r.addr % 32) r.len with more | whole
    · rw [segments_cut f more, List.map_cons, List.sum_cons, segments_sum f]
      show 512 - r.addr % 32 + (r.len - (512 - r.addr % 32)) = r.len
      omega
    · rw [segments_whole f whole]
      simp

theorem segments_head : ∀ (f : Nat) (r : XbarReq), (segments f r).head?.map (fun q => (q.addr, q.first)) = some (r.addr, r.first)
  | 0, _ => rfl
  | f + 1, r => by
    rcases Nat.lt_or_ge (512 - r.addr % 32) r.len with more | whole
    · rw [segments_cut f more]
      rfl
    · rw [segments_whole f whole]
      rfl

theorem segments_ne_nil (f : Nat) (r : XbarReq) : segments f r ≠ [] := by
  intro none
  have head := segments_head f r
  rw [none] at head
  nomatch head

theorem segments_last : ∀ (f : Nat) (r : XbarReq), (segments f r).getLast?.map (fun q => q.last) = some r.last
  | 0, _ => rfl
  | f + 1, r => by
    rcases Nat.lt_or_ge (512 - r.addr % 32) r.len with more | whole
    · have rest := segments_last f (segmentRest r)
      rw [segments_cut f more, List.getLast?_cons_of_ne_nil (segments_ne_nil f _)]
      exact rest
    · rw [segments_whole f whole]
      rfl

theorem one_lt_segments {r : XbarReq} (f : Nat) : 1 < (segments (f + 1) r).length ↔ 512 - r.addr % 32 < r.len := by
  rcases Nat.lt_or_ge (512 - r.addr % 32) r.len with more | whole
  · rw [segments_cut f more, List.length_cons]
    have := List.length_pos_of_ne_nil (segments_ne_nil f (segmentRest r))
    omega
  · rw [segments_whole f whole, List.length_singleton]
    omega

/-! ### One grant -/

theorem mem_mergeBy {α : Type} {le : α → α → Bool} {x : α} : ∀ {f : Nat} {a b : List α}, x ∈ mergeBy le f a b → x ∈ a ∨ x ∈ b
  | 0, _, _, h => List.mem_append.mp h
  | _ + 1, [], _, h => .inr h
  | _ + 1, _ :: _, [], h => .inl h
  | _ + 1, y :: ys, z :: zs, h => by
    rw [mergeBy] at h
    split at h
    · rcases List.mem_cons.mp h with rfl | h
      · exact .inl List.mem_cons_self
      · exact (mem_mergeBy h).imp_left (List.mem_cons_of_mem _)
    · rcases List.mem_cons.mp h with rfl | h
      · exact .inr List.mem_cons_self
      · exact (mem_mergeBy h).imp_right (List.mem_cons_of_mem _)

theorem mem_sortBy {α : Type} {le : α → α → Bool} {x : α} : ∀ {f : Nat} {l : List α}, x ∈ sortBy le f l → x ∈ l
  | 0, _, h => h
  | _ + 1, [], h => h
  | _ + 1, [_], h => h
  | _ + 1, _ :: _ :: _, h => (mem_mergeBy h).elim (fun h => List.mem_of_mem_take (mem_sortBy h)) fun h => List.mem_of_mem_drop (mem_sortBy h)

/-- The first of each master and ID among the waiting requests, added to those already found. -/
def addHead (a : List XbarReq) (r : XbarReq × Bool) : List XbarReq :=
  if a.any fun x => decide (x.master = r.1.master ∧ x.id = r.1.id) then a else a ++ [r.1]

theorem mem_foldl_addHead {q : XbarReq} : ∀ {l : List (XbarReq × Bool)} {a : List XbarReq}, q ∈ l.foldl addHead a → q ∈ a ∨ ∃ w ∈ l, w.1 = q
  | [], _, h => .inl h
  | w :: t, a, h => by
    rcases mem_foldl_addHead (l := t) (a := addHead a w) h with mem | ⟨v, mem, rfl⟩
    · rw [addHead] at mem
      split at mem
      · exact .inl mem
      · rcases List.mem_append.mp mem with mem | mem
        · exact .inl mem
        · exact .inr ⟨w, List.mem_cons_self, (List.mem_singleton.mp mem).symm⟩
    · exact .inr ⟨v, List.mem_cons_of_mem _ mem, rfl⟩

theorem mem_headRequests {q : XbarReq} {l : List (XbarReq × Bool)} (h : q ∈ headRequests l) : ∃ w ∈ l, w.1 = q :=
  (mem_foldl_addHead (l := l) h).resolve_left (List.not_mem_nil)

section
variable {d : Dev} {r : XbarReq}

/-- A request that is granted next may be, and waits. -/
theorem nextGrant_may (h : nextGrant d = some r) : mayGrant d r = true ∧ ∃ w ∈ d.xbar.waiting, w.1 = r := by
  have mem : r ∈ (headRequests d.xbar.waiting).filter (mayGrant d) := by
    unfold nextGrant at h
    dsimp only at h
    split at h
    · nomatch h
    · exact List.mem_of_mem_filter (mem_sortBy (List.mem_of_mem_head? h))
  exact ⟨(List.mem_filter.mp mem).2, mem_headRequests (List.mem_filter.mp mem).1⟩

theorem nextGrant_single (waits : d.xbar.waiting = [(r, false)]) : nextGrant d = if mayGrant d r = true then some r else none := by
  have head : headRequests d.xbar.waiting = [r] := by
    rw [waits]
    rfl
  rw [nextGrant, head]
  by_cases may : mayGrant d r = true
  · rw [if_pos may]
    simp [may, sortBy]
  · rw [if_neg may]
    simp [may]

/-- The transaction that a granted request becomes. -/
def granted (d : Dev) (r : XbarReq) : XbarTx :=
  ⟨r, (decodeReq d r).1, (decodeReq d r).2, liveB d offXbarCtrl 0, false, if (decodeReq d r).2 = .ok then txBursts (liveB d offXbarCtrl 0) r else []⟩

variable (d r)

/-- A grant before it is counted. -/
def grantEntered : Dev :=
  { d with xbar := { d.xbar with
    out := d.xbar.out ++ [granted d r]
    waiting := d.xbar.waiting.eraseP fun w => decide (w.1 = r)
    last := mapSet (fun _ => 18) d.xbar.last ((decodeReq d r).1.getD 0) r.master } }

theorem grant_eq : grant r d = xbarCounts r.master (grantEntered d r) := rfl

theorem liveGet_grantEntered (o : Nat) : liveGet (grantEntered d r) o = liveGet d o := rfl

theorem grant_out : (grant r d).xbar.out = d.xbar.out ++ [granted d r] := by
  rw [grant_eq, (xbarCounts_only _ _).xbar]
  rfl

theorem grant_waiting : (grant r d).xbar.waiting = d.xbar.waiting.eraseP fun w => decide (w.1 = r) := by
  rw [grant_eq, (xbarCounts_only _ _).xbar]
  rfl

theorem outOf_grant (m : Nat) : outOf (grant r d) m = outOf d m + if r.master = m then 1 else 0 := by
  rw [outOf, grant_out, List.filter_append, List.length_append, outOf]
  by_cases own : r.master = m <;> simp [granted, own]

theorem memQueued_grant (ch : Nat) : memQueued (grant r d) ch = memQueued d ch + if (decodeReq d r).1 = some (6 + ch) then 1 else 0 := by
  rw [memQueued, grant_out, List.filter_append, List.length_append, memQueued]
  by_cases there : (decodeReq d r).1 = some (6 + ch) <;> simp [granted, there]

theorem liveGet_grant {o : Nat} (other : o ∉ countWords r.master) : liveGet (grant r d) o = liveGet d o := by
  rw [grant_eq, (xbarCounts_only _ _).regs.live o other, liveGet_grantEntered]

variable {d r}

/-- A request that may be granted finds a place of its master, of the matrix, and of its DRAM channel (R325). -/
theorem mayGrant_places (h : mayGrant d r = true) : outOf d r.master < masterLimit r.master ∧ d.xbar.out.length < 256 ∧
    ∀ ch < 2, (decodeReq d r).1 = some (6 + ch) → memQueued d ch < 64 := by
  unfold mayGrant at h
  rw [Bool.and_eq_true, Bool.and_eq_true, decide_eq_true_eq] at h
  obtain ⟨⟨⟨own, all⟩, -⟩, queue⟩ := h
  refine ⟨own, all, fun ch low target => ?_⟩
  rw [target] at queue
  obtain rfl | rfl : ch = 0 ∨ ch = 1 := by omega
  · exact of_decide_eq_true (Bool.and_eq_true _ _ ▸ queue).1
  · exact of_decide_eq_true queue

end

/-! ### All grants -/

/-- What every grant of a waiting request keeps, all of them keep. -/
theorem grantAll_keeps {P : Dev → Prop}
    (step : ∀ d r, P d → mayGrant d r = true → (∃ w ∈ d.xbar.waiting, w.1 = r) → P (grant r d)) : ∀ (f : Nat) (d : Dev), P d → P (grantAll f d)
  | 0, _, h => h
  | f + 1, d, h => by
    rw [grantAll]
    cases next : nextGrant d with
    | none => exact h
    | some r =>
      obtain ⟨may, waits⟩ := nextGrant_may next
      exact grantAll_keeps step f _ (step d r h may waits)

/-- One waiting request is counted where rule 1 holds it and it has not been counted. -/
def holdCounted (d : Dev) (w : (XbarReq × Bool) × Nat) : Dev :=
  if w.1.2 || !(ruleOneHolds d w.1.1) then d
  else bump { d with xbar := { d.xbar with waiting := d.xbar.waiting.set w.2 (w.1.1, true) } } offXbarHoldCount

theorem countHolds_eq (d : Dev) : countHolds d = d.xbar.waiting.zipIdx.foldl holdCounted d := rfl

theorem holdCounted_places (d : Dev) (w : (XbarReq × Bool) × Nat) :
    ((holdCounted d w).xbar.out, (holdCounted d w).xbar.waiting.length) = (d.xbar.out, d.xbar.waiting.length) := by
  unfold holdCounted
  split
  · rfl
  · simp

theorem countHolds_places (d : Dev) : ((countHolds d).xbar.out, (countHolds d).xbar.waiting.length) = (d.xbar.out, d.xbar.waiting.length) :=
  foldl_keeps (g := fun e : Dev => (e.xbar.out, e.xbar.waiting.length)) holdCounted_places d.xbar.waiting.zipIdx d

theorem countHolds_out (d : Dev) : (countHolds d).xbar.out = d.xbar.out := congrArg Prod.fst (countHolds_places d)

theorem countHolds_waiting (d : Dev) : (countHolds d).xbar.waiting.length = d.xbar.waiting.length := congrArg Prod.snd (countHolds_places d)

theorem liveGet_countHolds (d : Dev) {o : Nat} (other : o ≠ offXbarHoldCount) : liveGet (countHolds d) o = liveGet d o := by
  refine foldl_keeps (g := fun e : Dev => liveGet e o) (fun e w => ?_) d.xbar.waiting.zipIdx d
  show liveGet (holdCounted e w) o = liveGet e o
  unfold holdCounted
  split
  · rfl
  · exact liveGet_liveSet_other _ _ other

/-! ### A burst burstIssued -/

section
variable (d : Dev) (r : XbarReq)

/-- A burst of more segments is counted with its first one. -/
def splitCounted : Dev :=
  if r.first && (!r.last || decide (1 < (segments (r.len / 512 + 1) r).length)) then bump d offXbarSplitCount else d

/-- The segments of a burst wait. -/
def burstIssued : Dev :=
  { splitCounted d r with xbar := { (splitCounted d r).xbar with
    waiting := (splitCounted d r).xbar.waiting ++ (segments (r.len / 512 + 1) r).map fun q => (q, false) } }

theorem xbarGrant_eq : xbarGrant r d = xbarGrants (burstIssued d r) := rfl

theorem splitCounted_only : OnlyWords [offXbarSplitCount] d (splitCounted d r) := by
  unfold splitCounted
  split
  · exact (OnlyWords.refl _ _).bump (by simp)
  · exact .refl _ _

theorem issued_out : (burstIssued d r).xbar.out = d.xbar.out := by
  show (splitCounted d r).xbar.out = d.xbar.out
  rw [(splitCounted_only d r).xbar]

theorem issued_waiting : (burstIssued d r).xbar.waiting = d.xbar.waiting ++ (segments (r.len / 512 + 1) r).map fun q => (q, false) := by
  show (splitCounted d r).xbar.waiting ++ _ = _
  rw [(splitCounted_only d r).xbar]

theorem liveGet_issued (o : Nat) : liveGet (burstIssued d r) o = liveGet (splitCounted d r) o := rfl

theorem splitCount_splitCounted : liveGet (splitCounted d r) offXbarSplitCount = liveGet d offXbarSplitCount +
    (if r.first = true ∧ (r.last = false ∨ 512 - r.addr % 32 < r.len) then 1 else 0) := by
  have split : (r.first && (!r.last || decide (1 < (segments (r.len / 512 + 1) r).length))) = true ↔
      r.first = true ∧ (r.last = false ∨ 512 - r.addr % 32 < r.len) := by
    simp [one_lt_segments]
  unfold splitCounted
  by_cases more : r.first = true ∧ (r.last = false ∨ 512 - r.addr % 32 < r.len)
  · rw [if_pos more, if_pos (split.mpr more), liveGet_bump, if_pos rfl]
  · rw [if_neg more, if_neg (mt split.mp more)]
    exact (BitVec.add_zero _).symm

end

/-! ### What an burstIssued burst leaves of the decoding -/

section
variable {a b : Dev} (regs : RegsBut [offXbarSplitCount] a b) (boot : b.boot = a.boot) (vec : b.vec = a.vec)
include regs boot

theorem renderOn_congr : renderOn b = renderOn a := by
  simp only [renderOn, regs.running boot (by decide) (by decide)]

include vec

theorem targetAnswer_congr (r : XbarReq) (t o : Nat) : targetAnswer b r t o = targetAnswer a r t o := by
  have live (o hi lo : Nat) (other : o ∉ [offXbarSplitCount]) : liveF b o hi lo = liveF a o hi lo := regs.liveF other hi lo
  have size : memSize b 0 = memSize a 0 ∧ memSize b 1 = memSize a 1 := by
    unfold memSize
    rw [live _ _ _ (by decide), live _ _ _ (by decide)]
    exact ⟨rfl, rfl⟩
  have ready : memReady b 0 = memReady a 0 ∧ memReady b 1 = memReady a 1 := ⟨regs.liveB (by decide) 0, regs.liveB (by decide) 0⟩
  have dead : fatal b = fatal a := regs.liveB (by decide) 3
  unfold targetAnswer clusterHeld mem1Allows mem1Open mem1Reserved
  rw [size.1, size.2, ready.1, ready.2, dead, vec, renderOn_congr regs boot, regs.running boot (by decide) (by decide)]

theorem decodeReq_congr (r : XbarReq) : decodeReq b r = decodeReq a r := by
  have ctrl : liveB b offXbarCtrl 0 = liveB a offXbarCtrl 0 := regs.liveB (by decide) 0
  have lcs : lcsState b = lcsState a := regs.liveF (by decide) 1 0
  unfold decodeReq
  rw [ctrl, lcs]
  simp only [targetAnswer_congr regs boot vec]

variable (out : b.xbar.out = a.xbar.out)
include out

theorem ruleOneHolds_congr (r : XbarReq) : ruleOneHolds b r = ruleOneHolds a r := by
  unfold ruleOneHolds
  rw [out, decodeReq_congr regs boot vec]

theorem mayGrant_congr (epc : b.epc = a.epc) (r : XbarReq) : mayGrant b r = mayGrant a r := by
  unfold mayGrant outOf memQueued mem0Window
  rw [out, ruleOneHolds_congr regs boot vec out, decodeReq_congr regs boot vec, epc, renderOn_congr regs boot]

end

section
variable (d : Dev) (r q : XbarReq)

theorem issued_regs : RegsBut [offXbarSplitCount] d (burstIssued d r) := (splitCounted_only d r).regs.other rfl

theorem issued_boot : (burstIssued d r).boot = d.boot := (splitCounted_only d r).boot

theorem issued_vec : (burstIssued d r).vec = d.vec := (splitCounted_only d r).vec

theorem decodeReq_issued : decodeReq (burstIssued d r) q = decodeReq d q := decodeReq_congr (issued_regs d r) (issued_boot d r) (issued_vec d r) q

theorem ruleOneHolds_issued : ruleOneHolds (burstIssued d r) q = ruleOneHolds d q :=
  ruleOneHolds_congr (issued_regs d r) (issued_boot d r) (issued_vec d r) (issued_out d r) q

theorem mayGrant_issued : mayGrant (burstIssued d r) q = mayGrant d q :=
  mayGrant_congr (issued_regs d r) (issued_boot d r) (issued_vec d r) (issued_out d r) (splitCounted_only d r).epc q

theorem granted_issued : granted (burstIssued d r) q = granted d q := by
  have ctrl : liveB (burstIssued d r) offXbarCtrl 0 = liveB d offXbarCtrl 0 := (issued_regs d r).liveB (by decide) 0
  unfold granted
  rw [ctrl, decodeReq_issued]

end

/-! ### The grants of a burst -/

section
variable (d : Dev) (r : XbarReq)

/-- No request is lost, and no grant passes a limit. -/
structure PlacesKept (d e : Dev) (n : Nat) : Prop where
  total : e.xbar.out.length + e.xbar.waiting.length = d.xbar.out.length + d.xbar.waiting.length + n
  matrix : d.xbar.out.length ≤ 256 → e.xbar.out.length ≤ 256
  master : ∀ m, outOf d m ≤ masterLimit m → outOf e m ≤ masterLimit m
  queue : ∀ ch < 2, memQueued d ch ≤ 64 → memQueued e ch ≤ 64

variable {d r} in
theorem PlacesKept.grant {e : Dev} {n : Nat} (h : PlacesKept d e n) (may : mayGrant e r = true) (waits : ∃ w ∈ e.xbar.waiting, w.1 = r) :
    PlacesKept d (grant r e) n := by
  obtain ⟨own, all, dram⟩ := mayGrant_places may
  obtain ⟨w, mem, same⟩ := waits
  refine ⟨?_, fun _ => ?_, fun m fits => ?_, fun ch low fits => ?_⟩
  · have some := List.length_pos_of_mem mem
    have total := h.total
    rw [grant_out, grant_waiting, List.length_eraseP_of_mem mem (decide_eq_true same), List.length_append, List.length_singleton]
    omega
  · rw [grant_out, List.length_append, List.length_singleton]
    omega
  · rw [outOf_grant]
    split
    · next mine =>
      subst mine
      omega
    · exact h.master m fits
  · rw [memQueued_grant]
    split
    · next target => exact dram ch low target
    · exact h.queue ch low fits

theorem placesKept_issued : PlacesKept d (burstIssued d r) (segments (r.len / 512 + 1) r).length where
  total := by
    rw [issued_out, issued_waiting, List.length_append, List.length_map]
    omega
  matrix := by
    rw [issued_out]
    exact id
  master m := by
    rw [outOf, outOf, issued_out]
    exact id
  queue ch _ := by
    rw [memQueued, memQueued, issued_out]
    exact id

variable {d} in
theorem PlacesKept.countHolds {e : Dev} {n : Nat} (h : PlacesKept d e n) : PlacesKept d (countHolds e) n where
  total := by
    rw [countHolds_out, countHolds_waiting]
    exact h.total
  matrix := by
    rw [countHolds_out]
    exact h.matrix
  master m := by
    rw [outOf, outOf, countHolds_out]
    exact h.master m
  queue ch := by
    rw [memQueued, memQueued, countHolds_out]
    exact h.queue ch

theorem xbarGrant_places : PlacesKept d (xbarGrant r d) (segments (r.len / 512 + 1) r).length :=
  PlacesKept.countHolds <| grantAll_keeps (P := fun e => PlacesKept d e (segments (r.len / 512 + 1) r).length)
    (fun _ _ h may waits => h.grant may waits) _ _ (placesKept_issued d r)

theorem splitCount_xbarGrant : liveGet (xbarGrant r d) offXbarSplitCount = liveGet (burstIssued d r) offXbarSplitCount := by
  have notCount : ∀ m, offXbarSplitCount ∉ countWords m := by
    intro m
    unfold countWords offXbarSplitCount offXbarOutstanding offXbarMaster offXbarStatus offMemQueue
    simp
    omega
  refine (liveGet_countHolds _ (by decide)).trans ?_
  exact grantAll_keeps (P := fun e => liveGet e offXbarSplitCount = liveGet (burstIssued d r) offXbarSplitCount)
    (fun e q h _ _ => (liveGet_grant e q (notCount _)).trans h) _ _ rfl

variable {d r} (whole : r.len ≤ 512 - r.addr % 32) (none : d.xbar.waiting = [])
include whole none

theorem issued_waits : (burstIssued d r).xbar.waiting = [(r, false)] := by
  rw [issued_waiting, none, segments_whole _ whole]
  rfl

theorem xbarGrant_granted (may : mayGrant d r = true) : xbarGrant r d = countHolds (grant r (burstIssued d r)) := by
  have waits := issued_waits whole none
  rw [xbarGrant_eq, xbarGrants, waits, List.length_singleton, grantAll, nextGrant_single waits, mayGrant_issued, if_pos may]
  rfl

theorem xbarGrant_held (may : mayGrant d r = false) : xbarGrant r d = holdCounted (burstIssued d r) ((r, false), 0) := by
  have waits := issued_waits whole none
  rw [xbarGrant_eq, xbarGrants, waits, List.length_singleton, grantAll, nextGrant_single waits, mayGrant_issued, if_neg (by simp [may]),
    countHolds_eq, waits]
  rfl

end

/-- What a lone request that is held leaves. -/
theorem holdCounted_single {d : Dev} {r : XbarReq} (waits : d.xbar.waiting = [(r, false)]) :
    (holdCounted d ((r, false), 0)).xbar.waiting = [(r, ruleOneHolds d r)] ∧
    liveGet (holdCounted d ((r, false), 0)) offXbarHoldCount = liveGet d offXbarHoldCount + (if ruleOneHolds d r = true then 1 else 0) := by
  unfold holdCounted
  dsimp only
  cases held : ruleOneHolds d r with
  | true =>
    rw [if_neg (by simp), if_pos rfl]
    refine ⟨?_, ?_⟩
    · show d.xbar.waiting.set 0 (r, true) = _
      rw [waits]
      rfl
    · rw [liveGet_bump, if_pos rfl]
      rfl
  | false =>
    rw [if_pos (by simp), if_neg (by simp)]
    exact ⟨waits, (BitVec.add_zero _).symm⟩

/-- Settles O34: the decoding by the windows of a request's ends and its path; the segments by induction on the fuel of the cut; the
limits because each grant keeps them and takes a waiting request. -/
theorem crossbarRoutesAndGrants : Obligations.CrossbarRoutesAndGrants := by
  unfold Obligations.CrossbarRoutesAndGrants
  have grants : ∀ {s : State} {r : XbarReq} {P : Dev → Prop}, r.master < 19 → P (xbarGrant r s.dev) → Runs (.xbarGrant r) s P :=
    fun {s r P} low hp => runs_ranIf (f := xbarGrant r) rfl (decide_eq_true low) hp
  refine ⟨fun d r debug boot => ?_, fun s r low => grants low ?_, fun r => ?_, fun s r low => grants low ?_, fun s r low whole none may =>
    grants low ?_, fun s r low whole none may => grants low ?_⟩
  · refine ⟨decodeReq_outside debug boot, fun t o o' first last => ?_, fun t t' o o' first last apart =>
      decodeReq_spans debug boot first last apart⟩
    have reaches : pathKind r.master t ≠ 0 → ∀ {a : XResp}, windowAnswer d r t o = a → a ≠ .decode → decodeReq d r = (some t, a) :=
      fun path _ => decodeReq_reaches debug boot first last rfl path
    have decides : pathKind r.master t ≠ 0 → (decodeReq d r).2 = windowAnswer d r t o := fun path => by
      rw [decodeReq_path debug boot first last rfl path]
    refine ⟨decodeReq_noPath debug boot first last rfl, fun kind write => ?_, fun path dead render => ?_,
      fun path low high held cluster => ?_, fun path free => ?_⟩
    · exact reaches (by rw [kind]; decide) (windowAnswer_readOnly kind write) (by decide)
    · subst render
      exact reaches path (windowAnswer_target (targetAnswer_render_fatal dead)) (by decide)
    · subst cluster
      exact reaches path (windowAnswer_target (targetAnswer_cluster_held low high held)) (by decide)
    · have answer := windowAnswer_open (d := d) (o := o) free
      refine ⟨fun sram => ?_, fun mem0 ready past => ?_, fun mem1 ready past => ?_, fun mem0 ready fits render master => ?_,
        fun mem1 ready fits => ?_⟩
      · subst sram
        exact reaches path answer (fun decode => XResp.noConfusion decode)
      · subst mem0
        exact (decides path).trans (answer.trans (targetAnswer_mem0_past ready past))
      · subst mem1
        exact (decides path).trans (answer.trans (targetAnswer_mem1_past ready past))
      · subst mem0
        exact reaches path (answer.trans (targetAnswer_mem0_render ready fits render master)) (by decide)
      · subst mem1
        refine reaches path (answer.trans (targetAnswer_mem1 ready fits)) ?_
        split <;> decide
  · have kept := xbarGrant_places s.dev r
    exact ⟨kept.total, kept.matrix, kept.master, kept.queue⟩
  · have fits : r.len ≤ 512 - r.addr % 32 + 512 * (r.len / 512 + 1) := by omega
    have fields := segments_all (P := fun q => q.master = r.master ∧ q.id = r.id ∧ q.write = r.write) (fun _ => id) (fun _ => id)
      (r.len / 512 + 1) r ⟨rfl, rfl, rfl⟩
    exact ⟨fun q mem => ⟨segments_short _ r fits q mem, fields q mem⟩, segments_sum _ r, segments_head _ r, segments_last _ r,
      segments_whole _, (one_lt_segments _).mpr⟩
  · rw [splitCount_xbarGrant, liveGet_issued, splitCount_splitCounted]
  · have empty : (grant r (burstIssued s.dev r)).xbar.waiting = [] := by
      rw [grant_waiting, issued_waits whole none]
      simp
    rw [xbarGrant_granted whole none may]
    refine ⟨?_, List.eq_nil_of_length_eq_zero ?_⟩
    · rw [countHolds_out, grant_out, issued_out, granted_issued]
      rfl
    · rw [countHolds_waiting, empty]
      rfl
  · obtain ⟨waiting, count⟩ := holdCounted_single (issued_waits whole none)
    rw [xbarGrant_held whole none may]
    refine ⟨?_, ?_, ?_⟩
    · exact (congrArg Prod.fst (holdCounted_places _ _)).trans (issued_out _ _)
    · rw [waiting, ruleOneHolds_issued]
    · rw [count, ruleOneHolds_issued, (issued_regs s.dev r).live _ (by decide)]

end Sys2Proof.Machine
end

section
/-!
The memory controllers (R334 to R343): what serving a request leaves, how ranks wake, the pauses, and the two kinds of rest.
-/
namespace Sys2Proof.Machine

/-! ### What serving requests leaves -/

/-- A register of the memory controllers. -/
def MemWord (o : Nat) : Prop := 0x1400000 ≤ o ∧ o < 0x1600000

theorem memWord_place {ch : Nat} (low : ch < 2) {k : Nat} (h : k < 0x100000) : MemWord ((ch + 20) * 0x100000 + k) := by
  unfold MemWord
  omega

theorem memWord_cnt {ch k : Nat} (low : ch < 2) (h : k < 8) : MemWord (offMemCnt ch k) := by
  unfold MemWord offMemCnt
  omega

theorem perfWords_not_mem {b o : Nat} (mem : o ∈ perfWords b) : ¬MemWord o := by
  unfold perfWords at mem
  simp only [List.mem_cons, List.mem_flatMap, List.mem_range, List.not_mem_nil, or_false] at mem
  unfold MemWord
  unfold offPerfOvf offPerfCntLo offPerfCntHi at mem
  rcases mem with rfl | ⟨k, -, rfl | rfl⟩ <;> omega

theorem errWords_not_mem {o : Nat} (mem : o ∈ errWords) : ¬MemWord o := by
  unfold errWords offErrFatal offErrStatus offTwnStatus offClkTuneCode offErrClassCount offSapPortStatus at mem
  simp only [List.mem_append, List.mem_cons, List.not_mem_nil, or_false, List.mem_map, List.mem_range] at mem
  unfold MemWord
  rcases mem with (head | ⟨k, low, rfl⟩) | ⟨p, low, rfl⟩
  · omega
  · omega
  · omega

/-- The controllers of b are those of a, with their registers but for those at the given offsets, in the same epoch. -/
structure ServeOnly (ws : List Nat) (a b : Dev) : Prop where
  live : ∀ o, MemWord o → o ∉ ws → liveGet b o = liveGet a o
  dram0 : b.dram0 = a.dram0
  dram1 : b.dram1 = a.dram1
  epc : b.epc = a.epc

section
variable {ws : List Nat} {a b c : Dev}

theorem ServeOnly.refl (a : Dev) : ServeOnly ws a a := ⟨fun _ _ _ => rfl, rfl, rfl, rfl⟩

theorem ServeOnly.trans (h : ServeOnly ws a b) (k : ServeOnly ws b c) : ServeOnly ws a c :=
  ⟨fun o mem other => (k.live o mem other).trans (h.live o mem other), k.dram0.trans h.dram0, k.dram1.trans h.dram1, k.epc.trans h.epc⟩

theorem ServeOnly.mono {vs : List Nat} (h : ServeOnly vs a b) (sub : ∀ o ∈ vs, o ∈ ws) : ServeOnly ws a b :=
  ⟨fun o mem other => h.live o mem fun old => other (sub o old), h.dram0, h.dram1, h.epc⟩

theorem ServeOnly.liveB (h : ServeOnly ws a b) {o : Nat} (mem : MemWord o) (other : o ∉ ws) (i : Nat) :
    Machine.liveB b o i = Machine.liveB a o i := congrArg (bit · i) (h.live o mem other)

theorem ServeOnly.liveF (h : ServeOnly ws a b) {o : Nat} (mem : MemWord o) (other : o ∉ ws) (hi lo : Nat) :
    Machine.liveF b o hi lo = Machine.liveF a o hi lo := congrArg (bits · hi lo) (h.live o mem other)

theorem ServeOnly.dram (h : ServeOnly ws a b) (ch : Nat) : Machine.dram b ch = Machine.dram a ch := by
  unfold Machine.dram
  rw [h.dram0, h.dram1]

theorem OnlyWords.serve {vs : List Nat} (h : OnlyWords vs a b) (sub : ∀ o ∈ vs, MemWord o → o ∈ ws) : ServeOnly ws a b := by
  have dram0 := congrArg Dev.dram0 h.rest
  have dram1 := congrArg Dev.dram1 h.rest
  exact ⟨fun o mem other => h.regs.live o fun old => other (sub o old mem), dram0, dram1, h.epc⟩

theorem ErrOnly.serve (h : ErrOnly a b) : ServeOnly ws a b := by
  have dram0 := congrArg Dev.dram0 h.rest
  have dram1 := congrArg Dev.dram1 h.rest
  exact ⟨fun o mem _ => h.regs.live o fun err => errWords_not_mem err mem, dram0, dram1, h.epc⟩

theorem serveOnly_xbar (a : Dev) (x : Xbar) : ServeOnly ws a { a with xbar := x } := ⟨fun _ _ _ => rfl, rfl, rfl, rfl⟩

end

section
variable (d : Dev) (ch : Nat) (r : DramReq)

theorem ofRequest_xbar (f : XbarTx → XbarTx) : ∃ x, ofRequest ch r f d = { d with xbar := x } := by
  unfold ofRequest
  split
  · exact ⟨d.xbar, rfl⟩
  · exact ⟨_, rfl⟩

/-- The registers that record an error (R343). -/
def errAddrWords : List Nat := [offMemErrAddrLo ch, offMemErrAddrHi ch, offMemErrInfo ch]

theorem memErrRegs_only (off master syn : Nat) (unc : Bool) : OnlyWords (errAddrWords ch) d (memErrRegs d ch off master syn unc) :=
  (((OnlyWords.refl _ d).liveSet (by simp [errAddrWords])).liveSet (by simp [errAddrWords])).liveSet (by simp [errAddrWords])

theorem memErrRegs_serve (off master syn : Nat) (unc : Bool) : ServeOnly (errAddrWords ch) d (memErrRegs d ch off master syn unc) :=
  (memErrRegs_only d ch off master syn unc).serve fun _ mem _ => mem

theorem memFailed_err (off master : Nat) : ErrOnly d (memFailed d ch off master) := by
  unfold memFailed
  split
  · exact .refl d
  · exact raiseErr_err _ _ _ _ (.refl d)

/-- The count that the error of a request raises; an ECC error belongs to a read (R343). -/
def errCount (r : DramReq) : Option Nat := match r.err, r.write with
  | .corrected _, false => some 0
  | .uncorrectable _, false => some 1
  | .retryOk, _ => some 2
  | .retryFail, _ => some 3
  | _, _ => none

/-- What fails for good marks its transaction before it is counted. -/
theorem bump_markData (o : Nat) : ServeOnly (errAddrWords ch) (bump d o) (bump (markData ch r d) o) := by
  obtain ⟨x, marked⟩ := ofRequest_xbar d ch r fun t => { t with answer := .data }
  rw [markData, marked]
  exact serveOnly_xbar (bump d o) x

theorem memError_counted {r : DramReq} {k : Nat} (h : errCount r = some k) :
    ServeOnly (errAddrWords ch) (bump d (offMemCnt ch k)) (memError d ch r) := by
  obtain ⟨off, write, rowOpen, master, err⟩ := r
  have failed (j syn : Nat) : ServeOnly (errAddrWords ch) (bump d (offMemCnt ch j)) (memFailed (memErrRegs (bump
      (markData ch ⟨off, write, rowOpen, master, err⟩ d) (offMemCnt ch j)) ch off master syn true) ch off master) :=
    ((bump_markData d ch _ _).trans (memErrRegs_serve _ ch off master syn true)).trans (memFailed_err _ ch off master).serve
  have reported (j syn : Nat) : ServeOnly (errAddrWords ch) (bump d (offMemCnt ch j))
      (memErrRegs (bump d (offMemCnt ch j)) ch off master syn false) := memErrRegs_serve _ ch off master syn false
  have raised (e : Dev) (source code : Nat) (a0 a1 : Word) : ServeOnly (errAddrWords ch) e (raiseErr e source code a0 a1) :=
    (raiseErr_err source code a0 a1 (.refl e)).serve
  cases err with
  | none => nomatch h
  | corrected s => cases write with
    | true => nomatch h
    | false =>
      obtain rfl : 0 = k := Option.some.inj h
      have hit : ServeOnly (errAddrWords ch) (memErrRegs (bump d (offMemCnt ch 0)) ch off master s false)
          (perfHit (memErrRegs (bump d (offMemCnt ch 0)) ch off master s false) (perfMem ch) 0x16 1) :=
        (perfHit_only _ (perfMem ch) 0x16 1).serve fun _ mem place => absurd place (perfWords_not_mem mem)
      exact ((reported 0 s).trans hit).trans (raised _ (srcOf (blkMem0 + ch) 0) 0x0501 (BitVec.ofNat 32 off) (BitVec.ofNat 32 s))
  | uncorrectable s => cases write with
    | true => nomatch h
    | false =>
      obtain rfl : 1 = k := Option.some.inj h
      exact failed 1 s
  | retryOk =>
    obtain rfl : 2 = k := Option.some.inj h
    exact (reported 2 0).trans (raised _ (srcOf (blkMem0 + ch) 0) 0x0502 (BitVec.ofNat 32 off) (BitVec.ofNat 32 master))
  | retryFail =>
    obtain rfl : 3 = k := Option.some.inj h
    exact failed 3 0

theorem memError_none {r : DramReq} (h : errCount r = none) : memError d ch r = d := by
  obtain ⟨off, write, rowOpen, master, err⟩ := r
  cases err with
  | none => rfl
  | corrected s => cases write with
    | true => rfl
    | false => nomatch h
  | uncorrectable s => cases write with
    | true => rfl
    | false => nomatch h
  | retryOk => nomatch h
  | retryFail => nomatch h

theorem errCount_lt {r : DramReq} {k : Nat} (h : errCount r = some k) : k < 4 := by
  obtain ⟨off, write, rowOpen, master, err⟩ := r
  cases err <;> cases write <;> simp [errCount] at h <;> omega

/-- The registers that serving a request may write. -/
def serveWords : List Nat := offMemLatMax ch :: errAddrWords ch ++ (List.range 4).map (offMemCnt ch)

theorem memError_serve : ServeOnly (serveWords ch) d (memError d ch r) := by
  cases h : errCount r with
  | none =>
    rw [memError_none d ch h]
    exact .refl d
  | some k =>
    have count : offMemCnt ch k ∈ serveWords ch :=
      List.mem_append_right _ (List.mem_map.mpr ⟨k, List.mem_range.mpr (errCount_lt h), rfl⟩)
    have bumped : OnlyWords [offMemCnt ch k] d (bump d (offMemCnt ch k)) := (OnlyWords.refl _ d).bump List.mem_cons_self
    refine (bumped.serve fun o mem _ => ?_).trans ((memError_counted d ch h).mono fun o mem => ?_)
    · exact List.mem_singleton.mp mem ▸ count
    · exact List.mem_append_left _ (List.mem_cons_of_mem _ mem)

variable {ch}

theorem not_errAddrWord (o : Nat) (h : o < (ch + 20) * 0x100000 + 0x40 ∨ (ch + 20) * 0x100000 + 0x48 < o) : o ∉ errAddrWords ch := by
  unfold errAddrWords offMemErrAddrLo offMemErrAddrHi offMemErrInfo
  simp
  omega

theorem memError_count (low : ch < 2) {k : Nat} (hk : k < 4) :
    liveGet (memError d ch r) (offMemCnt ch k) = liveGet d (offMemCnt ch k) + (if errCount r = some k then 1 else 0) := by
  cases h : errCount r with
  | none =>
    rw [memError_none d ch h]
    exact (BitVec.add_zero _).symm
  | some j =>
    have place : offMemCnt ch k ∉ errAddrWords ch := not_errAddrWord _ (by unfold offMemCnt; omega)
    have same : offMemCnt ch k = offMemCnt ch j ↔ j = k := by
      unfold offMemCnt
      omega
    rw [(memError_counted d ch h).live _ (memWord_cnt low (by omega)) place, liveGet_bump]
    by_cases eq : j = k
    · subst eq
      rw [if_pos rfl, if_pos rfl]
    · rw [if_neg (mt same.mp eq), if_neg (fun both => eq (Option.some.inj both))]
      exact (BitVec.add_zero _).symm

end

/-! ### One request served -/

section
variable (d : Dev) (ch : Nat) (r : DramReq)

/-- The open rows and the count of a controller that has served a request (R336, R337). -/
def rowsServed : Dram :=
  let m := dram d ch
  let bank := dramBank (liveB d (offMemCfg ch) 1) r.off
  let rows := m.rows.filter fun e => decide (e.1 ≠ bank)
  { m with rows := if openHint r then (bank, dramRow (liveB d (offMemCfg ch) 1) r.off) :: rows else rows, served := m.served + 1 }

/-- The class of a request by the rows open before it. -/
def classServed : Nat :=
  dramClass (dram d ch).rows (dramBank (liveB d (offMemCfg ch) 1) r.off) (dramRow (liveB d (offMemCfg ch) 1) r.off)

/-- A request served and counted by PERF. -/
def perfServed : Dev :=
  let e := perfHit (setDram d ch (rowsServed d ch r)) (perfMem ch) (if r.write then 0x11 else 0x10) 1
  if classServed d ch r = 0 then perfHit e (perfMem ch) 0x12 1 else if classServed d ch r = 2 then perfHit e (perfMem ch) 0x13 1 else e

/-- The latency that a request has, as LAT_MAX holds it (R342). -/
def latSeen : Nat := min 65535 (latBound (perfServed d ch r) ch (classServed d ch r) r (Config.memLatency ch (dram d ch).served))

theorem serveDram_eq : serveDram ch d r = burstDone ch r (memError (liveMax (perfServed d ch r) (offMemLatMax ch) 15 0 (latSeen d ch r)) ch r) := rfl

theorem perfServed_serve (ws : List Nat) : ServeOnly ws (setDram d ch (rowsServed d ch r)) (perfServed d ch r) := by
  have hit (e : Dev) (c : Nat) : ServeOnly ws e (perfHit e (perfMem ch) c 1) :=
    (perfHit_only e (perfMem ch) c 1).serve fun _ mem place => absurd place (perfWords_not_mem mem)
  unfold perfServed
  extract_lets e
  have first : ServeOnly ws (setDram d ch (rowsServed d ch r)) e := hit _ _
  split
  · exact first.trans (hit _ _)
  · split
    · exact first.trans (hit _ _)
    · exact first

theorem burstDone_serve (ws : List Nat) : ServeOnly ws d (burstDone ch r d) := by
  obtain ⟨x, done⟩ := ofRequest_xbar d ch r fun t => { t with left := t.left.erase (r.off / 64) }
  rw [burstDone, done]
  exact serveOnly_xbar d x

theorem latNoted_serve (v : Nat) : ServeOnly (serveWords ch) d (liveMax d (offMemLatMax ch) 15 0 v) :=
  (OnlyWords.liveMax (List.mem_singleton.mpr rfl) (.refl [offMemLatMax ch] d) 15 0 v).serve fun o mem _ => by
    rw [List.mem_singleton.mp mem]
    exact List.mem_append_left _ List.mem_cons_self

/-- What serving a request leaves but for the registers of `serveWords`: its controller with the rows and the count. -/
theorem serveDram_only : ServeOnly (serveWords ch) (setDram d ch (rowsServed d ch r)) (serveDram ch d r) :=
  (((perfServed_serve d ch r _).trans (latNoted_serve _ ch _)).trans (memError_serve _ ch r)).trans (burstDone_serve _ ch r _)

theorem dram_serveDram : dram (serveDram ch d r) ch = rowsServed d ch r :=
  ((serveDram_only d ch r).dram ch).trans (dram_setDram d _)

variable {ch}

theorem serveDram_status {o : Nat} (place : MemWord o) (other : o ∉ serveWords ch) : liveGet (serveDram ch d r) o = liveGet d o :=
  ((serveDram_only d ch r).live o place other).trans (setDram_liveGet d ch _ o)

theorem not_serveWord_status : offMemStatus ch ∉ serveWords ch := by
  unfold serveWords errAddrWords offMemStatus offMemLatMax offMemErrAddrLo offMemErrAddrHi offMemErrInfo offMemCnt
  simp
  omega

variable (low : ch < 2)
include low

theorem memState_serveDram : memState (serveDram ch d r) ch = memState d ch :=
  congrArg (bits · 6 4) (serveDram_status d r (memWord_place low (by decide)) not_serveWord_status)

theorem serveDram_count {k : Nat} (hk : k < 4) : liveGet (serveDram ch d r) (offMemCnt ch k) =
    liveGet d (offMemCnt ch k) + (if errCount r = some k then 1 else 0) := by
  have place := memWord_cnt low (show k < 8 by omega)
  have lat : offMemCnt ch k ∉ [offMemLatMax ch] := by
    unfold offMemCnt offMemLatMax
    simp
    omega
  rw [serveDram_eq, (burstDone_serve _ ch r []).live _ place List.not_mem_nil, memError_count _ r low hk,
    (OnlyWords.liveMax (List.mem_singleton.mpr rfl) (.refl [offMemLatMax ch] _) 15 0 _).regs.live _ lat,
    (perfServed_serve d ch r []).live _ place List.not_mem_nil, setDram_liveGet]

omit low in
theorem liveF_le_liveMax (o : Nat) {hi lo v : Nat} (h : lo ≤ hi) (hh : hi < 32) (fits : v < 2 ^ (hi - lo + 1)) :
    liveF d o hi lo ≤ liveF (liveMax d o hi lo v) o hi lo := by
  unfold liveMax
  split
  · next below => exact below.le.trans ((liveF_liveSetF_same _ _ _ h hh).trans (Nat.mod_eq_of_lt fits)).ge
  · exact le_rfl

theorem serveDram_lat : liveF d (offMemLatMax ch) 15 0 ≤ liveF (serveDram ch d r) (offMemLatMax ch) 15 0 := by
  have place : MemWord (offMemLatMax ch) := memWord_place low (by decide)
  have error : ∀ e : Dev, liveF (memError e ch r) (offMemLatMax ch) 15 0 = liveF e (offMemLatMax ch) 15 0 := by
    intro e
    cases h : errCount r with
    | none => rw [memError_none e ch h]
    | some k =>
      have count : offMemLatMax ch ≠ offMemCnt ch k := by
        have := errCount_lt h
        unfold offMemLatMax offMemCnt
        omega
      rw [(memError_counted e ch h).liveF place (not_errAddrWord _ (by unfold offMemLatMax; omega))]
      exact liveF_liveSet_other e _ _ _ count
  have before : liveF (perfServed d ch r) (offMemLatMax ch) 15 0 = liveF d (offMemLatMax ch) 15 0 :=
    ((perfServed_serve d ch r []).liveF place List.not_mem_nil 15 0).trans (congrArg (bits · 15 0) (setDram_liveGet d ch _ _))
  rw [serveDram_eq, (burstDone_serve _ ch r []).liveF place List.not_mem_nil, error, ← before]
  exact liveF_le_liveMax _ _ (by decide) (by decide) (Nat.lt_of_le_of_lt (Nat.min_le_left _ _) (by decide))

end

/-- The row that a request leaves open in its bank (R336). -/
theorem mem_rowsServed (d : Dev) (ch : Nat) (r : DramReq) (row : Nat) :
    (dramBank (liveB d (offMemCfg ch) 1) r.off, row) ∈ (rowsServed d ch r).rows ↔
      openHint r = true ∧ row = dramRow (liveB d (offMemCfg ch) 1) r.off := by
  unfold rowsServed
  dsimp only
  split
  · next hint => simp [hint]
  · next closed => simp [closed]

/-- Requests served one after another. -/
structure AllServed (ch n : Nat) (a b : Dev) : Prop where
  state : memState b ch = memState a ch
  held : (dram b ch).held = (dram a ch).held
  served : (dram b ch).served = (dram a ch).served + n
  epc : b.epc = a.epc

theorem serveAll_served {ch : Nat} (low : ch < 2) : ∀ (l : List DramReq) (d : Dev), AllServed ch l.length d (l.foldl (serveDram ch) d)
  | [], _ => ⟨rfl, rfl, rfl, rfl⟩
  | r :: t, d => by
    obtain ⟨state, held, served, epc⟩ := serveAll_served low t (serveDram ch d r)
    have first := dram_serveDram d ch r
    refine ⟨state.trans (memState_serveDram d r low), ?_, ?_, epc.trans ((serveDram_only d ch r).epc.trans (setDram_epc d ch _))⟩
    · rw [List.foldl_cons, held, first]
      rfl
    · rw [List.foldl_cons, served, first, List.length_cons]
      show (dram d ch).served + 1 + t.length = _
      omega

/-! ### Ranks wake -/

theorem mem_setDel {l : List Nat} {k x : Nat} : x ∈ setDel l k ↔ x ≠ k ∧ x ∈ l := by
  induction l with
  | nil => simp [setDel]
  | cons h t ih =>
    rw [setDel]
    split
    · next same =>
      subst same
      rw [ih, List.mem_cons]
      exact ⟨fun mem => ⟨mem.1, .inr mem.2⟩, fun mem => ⟨mem.1, mem.2.resolve_left mem.1⟩⟩
    · next other =>
      rw [List.mem_cons, ih, List.mem_cons]
      constructor
      · rintro (rfl | mem)
        · exact ⟨other, .inl rfl⟩
        · exact ⟨mem.1, .inr mem.2⟩
      · rintro ⟨ne, rfl | mem⟩
        · exact .inl rfl
        · exact .inr ⟨ne, mem⟩

section
variable (d : Dev) (ch : Nat) (left : List Nat)

theorem memRanks_setDram (m : Dram) : memRanks (setDram d ch m) ch = memRanks d ch := by
  unfold memRanks liveB
  rw [setDram_liveGet]

theorem memState_setMemState (v : Nat) : memState (setMemState d ch v) ch = v % 8 := liveF_liveSetF_same _ _ v (by decide) (by decide)

theorem dram_liveSet (o k : Nat) (w : Word) : dram (liveSet d o w) k = dram d k := rfl

theorem dram_setMemState (v k : Nat) : dram (setMemState d ch v) k = dram d k := by
  rw [setMemState, liveSetF, dram_liveSet]

theorem dram_bump (o k : Nat) : dram (bump d o) k = dram d k := by
  rw [bump, bumpBy, dram_liveSet]

theorem dram_liveSetB (o i k : Nat) (v : Bool) : dram (liveSetB d o i v) k = dram d k := by
  rw [liveSetB, dram_liveSet]

theorem setMemState_only (v : Nat) : OnlyWords [offMemStatus ch] d (setMemState d ch v) := (OnlyWords.refl _ d).liveSetF List.mem_cons_self

theorem wakeRanks_only : OnlyWords [offMemStatus ch] (setDram d ch { dram d ch with down := left }) (wakeRanks d ch left) :=
  setMemState_only _ ch _

theorem dram_wakeRanks : dram (wakeRanks d ch left) ch = { dram d ch with down := left } := by
  rw [wakeRanks, showDown, dram_setMemState, dram_setDram]

theorem memState_wakeRanks : memState (wakeRanks d ch left) ch = if ∀ q < memRanks d ch, q ∈ left then 2 else 1 := by
  rw [wakeRanks, showDown, memState_setMemState, memRanks_setDram, dram_setDram]
  simp only [List.all_eq_true, List.mem_range, List.contains_eq_mem, decide_eq_true_eq]
  split <;> rfl

theorem memRanks_pos : 0 < memRanks d ch := by
  unfold memRanks
  split <;> decide

/-- A channel of which a rank is awake is active. -/
theorem memState_wakeRanks_awake {q : Nat} (rank : q < memRanks d ch) (awake : q ∉ left) : memState (wakeRanks d ch left) ch = 1 := by
  rw [memState_wakeRanks]
  exact if_neg fun all => awake (all q rank)

theorem memState_wakeRanks_all : memState (wakeRanks d ch []) ch = 1 :=
  memState_wakeRanks_awake d ch [] (memRanks_pos d ch) List.not_mem_nil

variable {d ch}

theorem liveGet_wakeRanks {o : Nat} (other : o ≠ offMemStatus ch) : liveGet (wakeRanks d ch left) o = liveGet d o :=
  ((wakeRanks_only d ch left).regs.live o (by simpa using other)).trans (setDram_liveGet d ch _ o)

theorem dram_setDram_peer (low : ch < 2) (m : Dram) : dram (setDram d ch m) (1 - ch) = dram d (1 - ch) := by
  obtain rfl | rfl : ch = 0 ∨ ch = 1 := by omega
  · rfl
  · rfl

theorem dram_wakeRanks_peer (low : ch < 2) : dram (wakeRanks d ch left) (1 - ch) = dram d (1 - ch) := by
  rw [wakeRanks, showDown, dram_setMemState, dram_setDram_peer low]

/-- What PERF counts is not the controllers'. -/
theorem perfHit_serve (b c n : Nat) : ServeOnly [] d (perfHit d b c n) :=
  (perfHit_only d b c n).serve fun _ mem place => absurd place (perfWords_not_mem mem)

theorem perfSpan_serve (b c n : Nat) : ServeOnly [] d (perfSpan d b c n) :=
  (perfSpan_only d b c n).serve fun _ mem place => absurd place (perfWords_not_mem mem)

end

/-! ### Requests -/

section
variable {d : Dev} {ch : Nat} {r : DramReq}

/-- A controller takes a request in its range, at MEM0 in its master's window. -/
def MayServe (d : Dev) (ch off master : Nat) : Prop :=
  memReady d ch = true ∧ off < memSize d ch ∧ (ch = 1 ∨ mem0Window d master = true)

theorem mayServe_iff : (memReady d ch && decide (r.off < memSize d ch) && (decide (ch = 1) || mem0Window d r.master)) = true ↔
    MayServe d ch r.off r.master := by
  simp [MayServe, and_assoc]

theorem dramRequest_idle (h : ¬MayServe d ch r.off r.master) : dramRequest ch r d = d := if_neg (mt mayServe_iff.mp h)

theorem dramRequest_held (may : MayServe d ch r.off r.master) (rests : memState d ch = 3) :
    dramRequest ch r d = setDram d ch { dram d ch with held := (dram d ch).held ++ [r] } :=
  (if_pos (mayServe_iff.mpr may)).trans (if_pos rests)

/-- The rank of a request awake. -/
def rankWoken (d : Dev) (ch off : Nat) : Dev :=
  wakeRanks d ch (setDel (dram d ch).down (dramBank (liveB d (offMemCfg ch) 1) off / 32))

theorem dramRequest_served (may : MayServe d ch r.off r.master) (works : memState d ch ≠ 3) :
    dramRequest ch r d = serveDram ch (rankWoken d ch r.off) r :=
  (if_pos (mayServe_iff.mpr may)).trans (if_neg works)

theorem rankWoken_cfg (off i : Nat) : liveB (rankWoken d ch off) (offMemCfg ch) i = liveB d (offMemCfg ch) i := by
  refine congrArg (bit · i) (liveGet_wakeRanks _ ?_)
  unfold offMemCfg offMemStatus
  omega

theorem openHint_iff {off : Nat} {write rowOpen : Bool} {master : Nat} {err : DramErr} : openHint ⟨off, write, rowOpen, master, err⟩ = true ↔
    if master = 10 ∨ master = 11 then off % 4096 < 4032 else rowOpen = true := by
  unfold openHint
  split
  · exact decide_eq_true_iff
  · rfl

end

/-! ### Refresh and pauses -/

section
variable {d : Dev} {ch : Nat}

theorem dramRefresh_idle (h : ¬(memReady d ch = true ∧ memState d ch ≠ 3)) : dramRefresh ch d = d := if_neg (by simpa using h)

theorem dramRefresh_runs (ready : memReady d ch = true) (works : memState d ch ≠ 3) : dramRefresh ch d =
    perfHit (wakeRanks (setDram d ch { dram d ch with rows := [] }) ch []) (perfMem ch) 0x14 1 := if_pos (by simp [ready, works])

/-- A refresh closes every row and wakes every rank (R338). -/
theorem dramRefresh_refreshed (low : ch < 2) (ready : memReady d ch = true) (works : memState d ch ≠ 3) :
    dram (dramRefresh ch d) ch = { dram d ch with rows := [], down := [] } ∧ memState (dramRefresh ch d) ch = 1 ∧
      dram (dramRefresh ch d) (1 - ch) = dram d (1 - ch) := by
  rw [dramRefresh_runs ready works]
  have hit := perfHit_serve (d := wakeRanks (setDram d ch { dram d ch with rows := [] }) ch []) (perfMem ch) 0x14 1
  refine ⟨?_, ?_, ?_⟩
  · rw [hit.dram, dram_wakeRanks, dram_setDram]
  · exact (hit.liveF (memWord_place low (by decide)) List.not_mem_nil 6 4).trans (memState_wakeRanks_all _ ch)
  · rw [hit.dram, dram_wakeRanks_peer _ low, dram_setDram_peer low]

/-- A pause is due (R338, R339). -/
def PauseDue (d : Dev) (ch : Nat) : Prop :=
  memReady d ch = true ∧ d.epc.epoch % actF d (offMemRetrain ch) 15 0 = 0 ∧ (dram d ch).paused ≠ some d.epc.epoch ∧
    (ch = 1 ∨ renderOn d = false ∨ 3 ≤ d.path.phase)

/-- The pause of this epoch noted. -/
def pauseNoted (e : Dev) (ch : Nat) : Dev := setDram e ch { dram e ch with paused := some e.epc.epoch }

/-- A pause run: every row closed, counted, MR4 read (R339). -/
def pauseRun (e : Dev) (ch : Nat) (hot : Bool) : Dev :=
  liveSetB (wakeRanks (bump (setDram e ch { dram e ch with rows := [] }) (offMemCnt ch 5)) ch []) (offMemStatus ch) 3 hot

theorem pauseDue_iff : (memReady d ch && (decide (d.epc.epoch % actF d (offMemRetrain ch) 15 0 = 0 ∧ (dram d ch).paused ≠ some d.epc.epoch) &&
    (decide (ch = 1) || !(renderOn d) || decide (3 ≤ d.path.phase)))) = true ↔ PauseDue d ch := by
  simp [PauseDue, and_assoc, or_assoc]

theorem retrainingPause_idle (hot : Bool) (h : ¬PauseDue d ch) : retrainingPause ch hot d = d := if_neg (mt pauseDue_iff.mp h)

theorem retrainingPause_due (hot : Bool) (due : PauseDue d ch) : ∃ n, retrainingPause ch hot d =
    if pauseSkipped (pauseNoted (selfRefreshExit ch d) ch) ch then pauseNoted (selfRefreshExit ch d) ch
    else perfSpan (pauseRun (pauseNoted (selfRefreshExit ch d) ch) ch hot) (perfMem ch) 0x17 n :=
  ⟨_, if_pos (pauseDue_iff.mpr due)⟩

theorem pauseSkipped_noted (e : Dev) : pauseSkipped (pauseNoted e ch) ch = pauseSkipped e ch := by
  unfold pauseSkipped pauseNoted
  rw [dram_setDram, setDram_epc]

variable (low : ch < 2)
include low

/-- What a pause that runs leaves. -/
theorem pauseRun_taken (e : Dev) (hot : Bool) (n : Nat) :
    dram (perfSpan (pauseRun e ch hot) (perfMem ch) 0x17 n) ch = { dram e ch with rows := [], down := [] } ∧
    liveB (perfSpan (pauseRun e ch hot) (perfMem ch) 0x17 n) (offMemStatus ch) 3 = hot ∧
    memState (perfSpan (pauseRun e ch hot) (perfMem ch) 0x17 n) ch = 1 ∧
    liveGet (perfSpan (pauseRun e ch hot) (perfMem ch) 0x17 n) (offMemCnt ch 5) = liveGet e (offMemCnt ch 5) + 1 := by
  have span := perfSpan_serve (d := pauseRun e ch hot) (perfMem ch) 0x17 n
  have status : MemWord (offMemStatus ch) := memWord_place low (by decide)
  have apart : offMemCnt ch 5 ≠ offMemStatus ch := by
    unfold offMemCnt offMemStatus
    omega
  refine ⟨?_, ?_, ?_, ?_⟩
  · rw [span.dram, pauseRun, dram_liveSetB, dram_wakeRanks, dram_bump, dram_setDram]
  · rw [span.liveB status List.not_mem_nil]
    exact liveB_liveSetB_same _ _ _ (by decide)
  · refine (span.liveF status List.not_mem_nil 6 4).trans ?_
    exact (liveF_liveSetB_otherField _ _ _ (by decide) (by decide) (by decide)).trans (memState_wakeRanks_all _ ch)
  · rw [span.live _ (memWord_cnt low (by decide)) List.not_mem_nil, pauseRun, liveGet_liveSetB, if_neg apart, liveGet_wakeRanks _ apart,
      liveGet_bump, if_pos rfl, setDram_liveGet]

end

/-! ### Power-down and self-refresh -/

section
variable {d : Dev} {ch : Nat}

/-- A rank may enter power-down (R340). -/
def MayPowerDown (d : Dev) (ch rank : Nat) : Prop :=
  memReady d ch = true ∧ actB d (offMemCtrl ch) 1 = true ∧ memState d ch = 1 ∧ rank < memRanks d ch ∧ ¬(ch = 0 ∧ renderOn d = true)

theorem mayPowerDown_iff {rank : Nat} : (memReady d ch && actB d (offMemCtrl ch) 1 && decide (memState d ch = 1 ∧ rank < memRanks d ch) &&
    !(decide (ch = 0) && renderOn d)) = true ↔ MayPowerDown d ch rank := by
  simp [MayPowerDown, and_assoc, imp_iff_not_or]

theorem powerDown_idle {rank : Nat} (h : ¬MayPowerDown d ch rank) : powerDown ch rank d = d := if_neg (mt mayPowerDown_iff.mp h)

theorem powerDown_enters {rank : Nat} (may : MayPowerDown d ch rank) : powerDown ch rank d = wakeRanks d ch (setIns (dram d ch).down rank) :=
  if_pos (mayPowerDown_iff.mpr may)

/-- A channel may enter self-refresh (R340, R341). -/
def MaySelfRefresh (d : Dev) (ch : Nat) : Prop :=
  memReady d ch = true ∧ actB d (offMemCtrl ch) 2 = true ∧ (memState d ch = 1 ∨ memState d ch = 2) ∧ mayRest d ch = true

theorem maySelfRefresh_iff : (memReady d ch && actB d (offMemCtrl ch) 2 && decide (memState d ch = 1 ∨ memState d ch = 2) && mayRest d ch) = true ↔
    MaySelfRefresh d ch := by
  simp [MaySelfRefresh, and_assoc]

theorem selfRefresh_idle (h : ¬MaySelfRefresh d ch) : selfRefresh ch d = d := if_neg (mt maySelfRefresh_iff.mp h)

/-- A controller at rest from this engine period on. -/
def rested (d : Dev) (ch : Nat) : Dram := { dram d ch with rows := [], down := [], restAt := some (64 * d.epc.epoch + d.epc.period) }

theorem selfRefresh_enters (may : MaySelfRefresh d ch) :
    selfRefresh ch d = bump (setMemState (setDram d ch (rested d ch)) ch 3) (offMemCnt ch 4) := if_pos (maySelfRefresh_iff.mpr may)

theorem selfRefresh_rests (may : MaySelfRefresh d ch) : memState (selfRefresh ch d) ch = 3 ∧ dram (selfRefresh ch d) ch = rested d ch ∧
    liveGet (selfRefresh ch d) (offMemCnt ch 4) = liveGet d (offMemCnt ch 4) + 1 := by
  have apart : offMemCnt ch 4 ≠ offMemStatus ch := by
    unfold offMemCnt offMemStatus
    omega
  rw [selfRefresh_enters may]
  refine ⟨?_, ?_, ?_⟩
  · exact (liveF_liveSet_other _ _ _ _ apart.symm).trans (memState_setMemState _ ch 3)
  · rw [dram_bump, dram_setMemState, dram_setDram]
  · rw [liveGet_bump, if_pos rfl, setMemState, liveGet_liveSetF, if_neg apart, setDram_liveGet]

/-- A controller that leaves self-refresh: retrained where it lasted more than 10 ms (R341). -/
def wokenDram (d : Dev) (ch : Nat) : Dram :=
  { dram d ch with
    held := []
    restAt := none
    trainedAt := if (dram d ch).restAt.any fun t => decide (t + 1920 < 64 * d.epc.epoch + d.epc.period) then
      some (64 * d.epc.epoch + d.epc.period) else (dram d ch).trainedAt }

theorem selfRefreshExit_idle (h : ¬(memReady d ch = true ∧ memState d ch = 3)) : selfRefreshExit ch d = d := if_neg (by simpa using h)

theorem selfRefreshExit_wakes (ready : memReady d ch = true) (rests : memState d ch = 3) : selfRefreshExit ch d =
    (dram d ch).held.foldl (serveDram ch) (setMemState (setDram d ch (wokenDram d ch)) ch 1) := by
  rw [selfRefreshExit, if_pos (by simp [ready, rests]), wokenDram]
  dsimp only
  cases (dram d ch).restAt <;> rfl

/-- What an exit leaves: the held requests served, the channel active. -/
theorem selfRefreshExit_served (low : ch < 2) (ready : memReady d ch = true) (rests : memState d ch = 3) :
    memState (selfRefreshExit ch d) ch = 1 ∧ (dram (selfRefreshExit ch d) ch).held = [] ∧
    (dram (selfRefreshExit ch d) ch).served = (dram d ch).served + (dram d ch).held.length ∧ (selfRefreshExit ch d).epc = d.epc := by
  have woken : dram (setMemState (setDram d ch (wokenDram d ch)) ch 1) ch = wokenDram d ch := by
    rw [dram_setMemState, dram_setDram]
  obtain ⟨state, held, served, epc⟩ := serveAll_served low (dram d ch).held (setMemState (setDram d ch (wokenDram d ch)) ch 1)
  rw [selfRefreshExit_wakes ready rests]
  refine ⟨state.trans (memState_setMemState _ ch 1), ?_, ?_, epc.trans ?_⟩
  · rw [held, woken]
    rfl
  · rw [served, woken]
    rfl
  · rw [setMemState, liveSetF_epc, setDram_epc]

end

/-! ### Initialisation -/

section
variable (d : Dev) (ch : Nat)

/-- A controller begins its initialisation. -/
def initEntered : Dev := liveSetF (setDram d ch {}) (offMemStatus ch) 9 8 (memRate d ch)

/-- The GiB of a channel by its ranks and density (R334). -/
def installedGib : Nat := 8 * (if liveB d (offMemCfg ch) 1 then 2 else 1) * (if liveB d (offMemCfg ch) 0 then 2 else 1)

/-- READY and the size of a trained channel. -/
def initSized : Dev :=
  liveSetF (liveSetB (liveSetB (initEntered d ch) (offMemStatus ch) 1 false) (offMemStatus ch) 0 true) (offMemStatus ch) 21 16 (installedGib d ch)

/-- STATUS of a trained channel. -/
def initTrained : Dev := setMemState (initSized d ch) ch 1

/-- STATUS of a channel that failed to train. -/
def initFailed : Dev :=
  setMemState (liveSetB (liveSetB (initEntered d ch) (offMemStatus ch) 1 true) (offMemStatus ch) 0 false) ch 0

variable {ch}

theorem not_statusWord {o : Nat} (h : o ≠ offMemStatus ch) : o ∉ [offMemStatus ch] := by simpa using h

theorem initEntered_only : OnlyWords [offMemStatus ch] (setDram d ch {}) (initEntered d ch) :=
  (OnlyWords.refl _ _).liveSetF List.mem_cons_self

theorem initTrained_only : OnlyWords [offMemStatus ch] (setDram d ch {}) (initTrained d ch) :=
  ((((initEntered_only d).liveSetB List.mem_cons_self).liveSetB List.mem_cons_self).liveSetF List.mem_cons_self).liveSetF List.mem_cons_self

theorem initFailed_only : OnlyWords [offMemStatus ch] (setDram d ch {}) (initFailed d ch) :=
  (((initEntered_only d).liveSetB List.mem_cons_self).liveSetB List.mem_cons_self).liveSetF List.mem_cons_self

/-- The lock of the DDR PLL is as before. -/
theorem initEntered_pll : liveB (initEntered d ch) (offClkPllStatus (2 + ch)) 0 = liveB d (offClkPllStatus (2 + ch)) 0 := by
  have apart : offClkPllStatus (2 + ch) ≠ offMemStatus ch := by
    unfold offClkPllStatus offMemStatus
    omega
  exact ((initEntered_only d).regs.liveB (not_statusWord apart) 0).trans (congrArg (bit · 0) (setDram_liveGet d ch _ _))

theorem memInit_trains (lock : liveB d (offClkPllStatus (2 + ch)) 0 = true) :
    ∃ w, memInit ch true d = liveSet (initTrained d ch) (offMemTiming ch) w := by
  have trains : (true && liveB (initEntered d ch) (offClkPllStatus (2 + ch)) 0) = true := by
    rw [initEntered_pll, lock]
    rfl
  exact ⟨(Config.memTiming ch (memRate (initSized d ch) ch)).setWidth 32, if_pos trains⟩

theorem memInit_fails {ok : Bool} (h : ok = false ∨ liveB d (offClkPllStatus (2 + ch)) 0 = false) : memInit ch ok d =
    raiseErr (initFailed d ch) (srcOf (blkMem0 + ch) 0) 0x010B (liveGet (initFailed d ch) (offMemStatus ch)) 0 := by
  have fails : ¬(ok && liveB (initEntered d ch) (offClkPllStatus (2 + ch)) 0) = true := by
    rw [initEntered_pll]
    rcases h with h | h <;> simp [h]
  exact if_neg fails

/-- STATUS of a channel that has trained. -/
structure Trained (e : Dev) : Prop where
  ready : memReady e ch = true
  state : memState e ch = 1
  size : liveF e (offMemStatus ch) 21 16 = installedGib d ch
  failed : liveB e (offMemStatus ch) 1 = false
  rate : liveF e (offMemStatus ch) 9 8 = memRate d ch

theorem initTrained_status : Trained d (ch := ch) (initTrained d ch) where
  ready := by
    rw [memReady, initTrained, setMemState, liveB_liveSetF _ _ _ _ _ (by decide) (by decide), if_neg (by simp), initSized,
      liveB_liveSetF _ _ _ _ _ (by decide) (by decide), if_neg (by simp), liveB_liveSetB_same _ _ _ (by decide)]
  state := memState_setMemState _ ch 1
  size := by
    rw [initTrained, setMemState, initSized, liveF_liveSetF_otherField _ _ _ (by decide) (by decide) (by decide) (by decide),
      liveF_liveSetF_same _ _ _ (by decide) (by decide)]
    unfold installedGib
    split <;> split <;> rfl
  failed := by
    rw [initTrained, setMemState, initSized, liveB_liveSetF _ _ _ _ _ (by decide) (by decide), if_neg (by simp),
      liveB_liveSetF _ _ _ _ _ (by decide) (by decide), if_neg (by simp), liveB_liveSetB_otherBit _ _ _ (by decide) (by decide),
      liveB_liveSetB_same _ _ _ (by decide)]
  rate := by
    rw [initTrained, setMemState, initSized, liveF_liveSetF_otherField _ _ _ (by decide) (by decide) (by decide) (by decide),
      liveF_liveSetF_otherField _ _ _ (by decide) (by decide) (by decide) (by decide),
      liveF_liveSetB_otherField _ _ _ (by decide) (by decide) (by decide), liveF_liveSetB_otherField _ _ _ (by decide) (by decide) (by decide),
      initEntered, liveF_liveSetF_same _ _ _ (by decide) (by decide)]
    unfold memRate
    dsimp only
    split
    · rfl
    · split <;> rfl

theorem initFailed_status : memReady (initFailed d ch) ch = false ∧ memState (initFailed d ch) ch = 0 ∧
    liveB (initFailed d ch) (offMemStatus ch) 1 = true := by
  refine ⟨?_, memState_setMemState _ ch 0, ?_⟩
  · rw [memReady, initFailed, setMemState, liveB_liveSetF _ _ _ _ _ (by decide) (by decide), if_neg (by simp),
      liveB_liveSetB_same _ _ _ (by decide)]
  · rw [initFailed, setMemState, liveB_liveSetF _ _ _ _ _ (by decide) (by decide), if_neg (by simp),
      liveB_liveSetB_otherBit _ _ _ (by decide) (by decide), liveB_liveSetB_same _ _ _ (by decide)]

theorem ErrOnly.mem {a b : Dev} (h : ErrOnly a b) : b.mem = a.mem := by
  have mem := congrArg Dev.mem h.rest
  exact mem

variable (low : ch < 2)
include low

/-- The boot goes on with both channels trained alone. -/
theorem bootTrained_waits (h : ¬(d.boot.phase = .train ∧ memReady d ch = true ∧ memReady d (1 - ch) = true)) : bootTrained d = d := by
  refine if_neg fun ⟨train, zero, one⟩ => h ⟨train, ?_⟩
  obtain rfl | rfl : ch = 0 ∨ ch = 1 := by omega
  · exact ⟨zero, one⟩
  · exact ⟨one, zero⟩

/-- A channel that trains where the boot does not wait for it (R334, R335). -/
theorem memInit_ready (lock : liveB d (offClkPllStatus (2 + ch)) 0 = true) (free : ¬(d.boot.phase = .train ∧ memReady d (1 - ch) = true)) :
    Trained d (ch := ch) (bootTrained (memInit ch true d)) ∧ dram (bootTrained (memInit ch true d)) ch = {} ∧
      dram (bootTrained (memInit ch true d)) (1 - ch) = dram d (1 - ch) ∧ (bootTrained (memInit ch true d)).mem = d.mem := by
  obtain ⟨w, trains⟩ := memInit_trains d lock
  have only : OnlyWords [offMemStatus ch, offMemTiming ch] (setDram d ch {}) (memInit ch true d) := by
    rw [trains]
    exact OnlyWords.liveSet (by simp) ((initTrained_only d).mono (by simp))
  have peer : offMemStatus (1 - ch) ∉ [offMemStatus ch, offMemTiming ch] := by
    unfold offMemStatus offMemTiming
    simp
    omega
  have other : memReady (memInit ch true d) (1 - ch) = memReady d (1 - ch) :=
    (only.regs.liveB peer 0).trans (congrArg (bit · 0) (setDram_liveGet d ch _ _))
  have waits : bootTrained (memInit ch true d) = memInit ch true d := bootTrained_waits _ low fun both =>
    free ⟨(congrArg Boot.phase (only.boot.trans (setDram_boot d ch _))).symm.trans both.1, other.symm.trans both.2.2⟩
  have apart : offMemStatus ch ≠ offMemTiming ch := by
    unfold offMemStatus offMemTiming
    omega
  have serve := only.serve (ws := [offMemStatus ch, offMemTiming ch]) fun _ mem _ => mem
  obtain ⟨ready, state, size, failed, rate⟩ := initTrained_status d (ch := ch)
  rw [waits]
  refine ⟨?_, (serve.dram ch).trans (dram_setDram d _), (serve.dram (1 - ch)).trans (dram_setDram_peer low _),
    only.mem.trans (setDram_mem d ch _)⟩
  rw [trains]
  exact ⟨(liveB_liveSet_other _ _ _ apart).trans ready, (liveF_liveSet_other _ _ _ _ apart).trans state,
    (liveF_liveSet_other _ _ _ _ apart).trans size, (liveB_liveSet_other _ _ _ apart).trans failed,
    (liveF_liveSet_other _ _ _ _ apart).trans rate⟩

/-- A channel that fails is not ready, and the failure is Fatal (R335). -/
theorem memInit_failed {ok : Bool} (h : ok = false ∨ liveB d (offClkPllStatus (2 + ch)) 0 = false) :
    memReady (bootTrained (memInit ch ok d)) ch = false ∧ memState (bootTrained (memInit ch ok d)) ch = 0 ∧
    liveB (bootTrained (memInit ch ok d)) (offMemStatus ch) 1 = true ∧ fatal (bootTrained (memInit ch ok d)) = true ∧
    (bootTrained (memInit ch ok d)).mem = d.mem := by
  have fails := memInit_fails d h
  have raised : ErrOnly (initFailed d ch) (memInit ch ok d) := by
    rw [fails]
    exact raiseErr_err _ _ _ _ (.refl _)
  have serve : ServeOnly [] (initFailed d ch) (memInit ch ok d) := raised.serve
  have place : MemWord (offMemStatus ch) := memWord_place low (by decide)
  obtain ⟨ready, state, failed⟩ := initFailed_status d (ch := ch)
  have stopped : memReady (memInit ch ok d) ch = false := (serve.liveB place List.not_mem_nil 0).trans ready
  rw [bootTrained_waits _ low fun both => by simp [stopped] at both]
  refine ⟨stopped, (serve.liveF place List.not_mem_nil 6 4).trans state, (serve.liveB place List.not_mem_nil 1).trans failed, ?_,
    raised.mem.trans ((initFailed_only d).mem.trans (setDram_mem d ch _))⟩
  rw [fails, raiseErr_fatalCode _ _ (by decide)]
  exact (fatalRaised _ _ _ _).dead

end

/-! ### A request and a pause, as the obligation states them -/

section
variable {d : Dev} {ch : Nat} (low : ch < 2)
include low

/-- What a request that is served leaves (R336, R337, R340, R342, R343). -/
structure RequestServed (d : Dev) (ch : Nat) (r : DramReq) (e : Dev) : Prop where
  down : (dram e ch).down = setDel (dram d ch).down (dramBank (liveB d (offMemCfg ch) 1) r.off / 32)
  served : (dram e ch).served = (dram d ch).served + 1
  state : dramBank (liveB d (offMemCfg ch) 1) r.off / 32 < memRanks d ch → memState e ch = 1
  rows : ∀ row, (dramBank (liveB d (offMemCfg ch) 1) r.off, row) ∈ (dram e ch).rows ↔
    openHint r = true ∧ row = dramRow (liveB d (offMemCfg ch) 1) r.off
  lat : liveF d (offMemLatMax ch) 15 0 ≤ liveF e (offMemLatMax ch) 15 0
  counts : ∀ k < 4, liveGet e (offMemCnt ch k) = liveGet d (offMemCnt ch k) + (if errCount r = some k then 1 else 0)

theorem requestServed (d : Dev) (r : DramReq) : RequestServed d ch r (serveDram ch (rankWoken d ch r.off) r) := by
  have cfg := rankWoken_cfg (d := d) (ch := ch) r.off 1
  have before : dram (rankWoken d ch r.off) ch = { dram d ch with down := setDel (dram d ch).down (dramBank (liveB d (offMemCfg ch) 1) r.off / 32) } :=
    dram_wakeRanks d ch _
  have apart {o : Nat} (other : o ≠ offMemStatus ch) : liveGet (rankWoken d ch r.off) o = liveGet d o := liveGet_wakeRanks _ other
  refine ⟨?_, ?_, fun rank => ?_, fun row => ?_, ?_, fun k few => ?_⟩
  · rw [dram_serveDram, rowsServed, before]
  · rw [dram_serveDram, rowsServed, before]
  · rw [memState_serveDram _ _ low]
    exact memState_wakeRanks_awake d ch _ rank fun mem => (mem_setDel.mp mem).1 rfl
  · rw [dram_serveDram, ← cfg]
    exact mem_rowsServed _ ch r row
  · have lat : liveF (rankWoken d ch r.off) (offMemLatMax ch) 15 0 = liveF d (offMemLatMax ch) 15 0 :=
      congrArg (bits · 15 0) (apart (by unfold offMemLatMax offMemStatus; omega))
    rw [← lat]
    exact serveDram_lat _ r low
  · rw [serveDram_count _ r low few, apart (by unfold offMemCnt offMemStatus; omega)]

/-- A pause that is due where the channel is not in self-refresh. -/
theorem retrainingPause_awake (hot : Bool) (due : PauseDue d ch) (works : memState d ch ≠ 3) :
    (pauseSkipped d ch = false → dram (retrainingPause ch hot d) ch =
        { dram d ch with rows := [], down := [], paused := some d.epc.epoch } ∧
      liveB (retrainingPause ch hot d) (offMemStatus ch) 3 = hot ∧ memState (retrainingPause ch hot d) ch = 1 ∧
      liveGet (retrainingPause ch hot d) (offMemCnt ch 5) = liveGet d (offMemCnt ch 5) + 1) ∧
    (pauseSkipped d ch = true → retrainingPause ch hot d = setDram d ch { dram d ch with paused := some d.epc.epoch }) := by
  obtain ⟨n, pause⟩ := retrainingPause_due hot due
  rw [selfRefreshExit_idle (fun both => works both.2), pauseSkipped_noted] at pause
  refine ⟨fun runs => ?_, fun skipped => ?_⟩
  · obtain ⟨closed, heat, state, count⟩ := pauseRun_taken low (pauseNoted d ch) hot n
    rw [pause, if_neg (by simp [runs]), closed, heat, state, count, pauseNoted, dram_setDram, setDram_liveGet]
    exact ⟨rfl, rfl, rfl, rfl⟩
  · rw [pause, if_pos skipped]
    rfl

/-- A pause that is due where the channel is in self-refresh (assumption log entry 210). -/
theorem retrainingPause_rests (hot : Bool) (due : PauseDue d ch) (rests : memState d ch = 3) :
    ((dram (retrainingPause ch hot d) ch).held = [] ∧ (dram (retrainingPause ch hot d) ch).paused = some d.epc.epoch ∧
      (dram (retrainingPause ch hot d) ch).served = (dram d ch).served + (dram d ch).held.length ∧
      memState (retrainingPause ch hot d) ch = 1) ∧
    (pauseSkipped (selfRefreshExit ch d) ch = true → retrainingPause ch hot d =
      setDram (selfRefreshExit ch d) ch { dram (selfRefreshExit ch d) ch with paused := some d.epc.epoch }) ∧
    (pauseSkipped (selfRefreshExit ch d) ch = false → (dram (retrainingPause ch hot d) ch).rows = [] ∧
      liveB (retrainingPause ch hot d) (offMemStatus ch) 3 = hot) := by
  obtain ⟨n, pause⟩ := retrainingPause_due hot due
  obtain ⟨state, held, served, epc⟩ := selfRefreshExit_served low due.1 rests
  obtain ⟨closed, heat, active, -⟩ := pauseRun_taken low (pauseNoted (selfRefreshExit ch d) ch) hot n
  have noted : dram (pauseNoted (selfRefreshExit ch d) ch) ch = { dram (selfRefreshExit ch d) ch with paused := some d.epc.epoch } := by
    rw [pauseNoted, dram_setDram, epc]
  have kept : memState (pauseNoted (selfRefreshExit ch d) ch) ch = 1 :=
    (congrArg (bits · 6 4) (setDram_liveGet _ ch _ _)).trans state
  rw [pauseSkipped_noted] at pause
  rw [noted] at closed
  refine ⟨?_, fun skipped => ?_, fun runs => ?_⟩
  · cases skipped : pauseSkipped (selfRefreshExit ch d) ch with
    | true =>
      rw [pause, if_pos skipped, noted]
      exact ⟨held, rfl, served, kept⟩
    | false =>
      rw [pause, if_neg (by simp [skipped]), closed]
      exact ⟨held, rfl, served, active⟩
  · rw [pause, if_pos skipped, pauseNoted, epc]
  · rw [pause, if_neg (by simp [runs]), closed]
    exact ⟨rfl, heat⟩

end

/-- Settles O37: each command by its condition; serving a request keeps everything of the controllers but the rows and counts it names,
ranks wake with STATE shown anew, and the held requests are served by induction on their list. -/
theorem memoryControllersServeAndRest : Obligations.MemoryControllersServeAndRest := by
  unfold Obligations.MemoryControllersServeAndRest
  intro s ch low ready st m now gib
  have init : ∀ {ok : Bool} {P : Dev → Prop}, P (bootTrained (memInit ch ok s.dev)) → Runs (.memInit ch ok) s P := fun {ok P} hp =>
    runs_ranIf (f := fun d => bootTrained (memInit ch ok d)) rfl (decide_eq_true low) hp
  have refresh : ∀ {P : Dev → Prop}, P (dramRefresh ch s.dev) → Runs (.dramRefresh ch) s P := fun hp =>
    runs_ranIf (f := dramRefresh ch) rfl (decide_eq_true low) hp
  have enters : ∀ {P : Dev → Prop}, P (selfRefresh ch s.dev) → Runs (.selfRefreshEntry ch) s P := fun hp =>
    runs_ranIf (f := selfRefresh ch) rfl (decide_eq_true low) hp
  have leaves : ∀ {P : Dev → Prop}, P (selfRefreshExit ch s.dev) → Runs (.selfRefreshExit ch) s P := fun hp =>
    runs_ranIf (f := selfRefreshExit ch) rfl (decide_eq_true low) hp
  refine ⟨fun _ _ _ => init rfl, fun lock free => init ?_, fun ok fails => init (memInit_failed _ low fails),
    fun off write rowOpen master err known => ?_, fun idle => refresh (dramRefresh_idle idle),
    fun up works => refresh (dramRefresh_refreshed low up works), fun hot => ?_, fun rank few => ?_, ⟨fun may => enters ?_, fun idle =>
    enters (selfRefresh_idle idle)⟩, fun up rests => leaves ?_, fun idle => leaves (selfRefreshExit_idle idle)⟩
  · obtain ⟨⟨trained, state, size, failed, rate⟩, own, other, mem⟩ := memInit_ready _ low lock free
    exact ⟨trained, state, size, failed, rate, own, other, mem⟩
  · have run : ∀ {P : Dev → Prop}, P (dramRequest ch ⟨off, write, rowOpen, master, err⟩ s.dev) →
        Runs (.dramRequest ch off write rowOpen master err) s P := fun hp =>
      runs_ranIf (f := dramRequest ch ⟨off, write, rowOpen, master, err⟩) rfl (decide_eq_true ⟨low, known⟩) hp
    refine ⟨fun idle => run (dramRequest_idle idle), fun may rests => run (dramRequest_held may rests), fun may works => run ?_⟩
    obtain ⟨down, served, state, rows, lat, counts⟩ := requestServed low s.dev ⟨off, write, rowOpen, master, err⟩
    rw [dramRequest_served (r := ⟨off, write, rowOpen, master, err⟩) may works]
    refine ⟨rfl, down, served, state, fun row => (rows row).trans (and_congr_left' openHint_iff), lat, (counts 0 (by decide)).trans ?_,
      (counts 1 (by decide)).trans ?_, (counts 2 (by decide)).trans ?_, (counts 3 (by decide)).trans ?_⟩
    all_goals cases err <;> cases write <;> simp [errCount]
  · have run : ∀ {P : Dev → Prop}, P (retrainingPause ch hot s.dev) → Runs (.retrainingPause ch hot) s P := fun hp =>
      runs_ranIf (f := retrainingPause ch hot) rfl (decide_eq_true low) hp
    refine ⟨fun due works runs => run ((retrainingPause_awake low hot due works).1 runs), fun due works skipped =>
      run ((retrainingPause_awake low hot due works).2 skipped), fun due rests => run ?_, fun idle => run (retrainingPause_idle hot idle)⟩
    obtain ⟨⟨held, paused, served, state⟩, skips, runs⟩ := retrainingPause_rests low hot due rests
    exact ⟨held, paused, served, state, skips, runs⟩
  · have run : ∀ {P : Dev → Prop}, P (powerDown ch rank s.dev) → Runs (.powerDownEntry ch rank) s P := fun hp =>
      runs_ranIf (f := powerDown ch rank) rfl (decide_eq_true ⟨low, few⟩) hp
    refine ⟨fun may => run ?_, fun idle => run (powerDown_idle idle)⟩
    rw [powerDown_enters may]
    refine ⟨dram_wakeRanks _ ch _, dram_wakeRanks_peer _ low, ?_⟩
    exact (memState_wakeRanks _ _ _).trans (if_congr (forall₂_congr fun _ _ => mem_setIns) rfl rfl)
  · obtain ⟨state, own, count⟩ := selfRefresh_rests may
    exact ⟨state, own, count⟩
  · obtain ⟨state, held, served, -⟩ := selfRefreshExit_served low up rests
    exact ⟨selfRefreshExit_wakes up rests, state, held, served⟩

end Sys2Proof.Machine
end
